-- ==== Sys2Proof/Word.lean ====
section
/-! DEFINITION. The plain words of the model: bytes, register words and the index types of the part's fixed arrays (dies,
queues, partitions, ports), and sparse tables in one canonical form. -/

namespace Sys2Proof

/-- One byte. -/
abbrev Byte := BitVec 8
/-- A 32-bit word; FP32 values are held as their binary32 patterns. -/
abbrev W32 := BitVec 32
/-- A 64-bit word; scalar registers and addresses. -/
abbrev W64 := BitVec 64
/-- A compute die C0 to C15 (R10). -/
abbrev DieIx := Fin 16
/-- A queue Q0 to Q15 of a die (R15). -/
abbrev QueueIx := Fin 16
/-- A partition number, 0 to 15 (R223). -/
abbrev PartIx := Fin 16
/-- A fabric port P0 to P15, one per compute die (R340). -/
abbrev PortIx := Fin 16

/-- A sparse table: entries by key, keys strictly rising. -/
abbrev Tbl (α : Type) := List (Nat × α)

end Sys2Proof
end

