-- ==== Sys2Proof/Syntax.lean ====
section
/-! DEFINITION. The commands of the block: one constructor of `Instr` for each row of spec/opcode_table.json, with the
operands that the spec's rules give that step. -/

namespace Sys2Proof

/-- Where a program instruction issues: its die, its queue, the block offset that R304 and R464 record, and whether it is of
the second admitted job, the first having issued its last (R289, log 3). -/
structure Site where
  die : DieIx
  queue : QueueIx
  off : Nat
  next : Bool := false
  deriving DecidableEq, Repr

/-- The two PCI Express host ports (R381). -/
inductive HostId where
  | a | b
  deriving DecidableEq, Repr

/-- The transport a Fivepin request arrives on (R481); `direct` says that a fabric request came from a direct neighbour, `origin` the
host port and function of a request that a gateway forwards (R493). -/
inductive Via where
  | pcie (port : HostId) (fn : Nat)
  | smbus
  | fabric (port : PortIx) (src : Nat) (direct : Bool) (origin : Option (HostId × Nat))
  deriving DecidableEq, Repr

/-- A Fivepin request message (R483), field by field. -/
structure FpReq where
  via : Via
  version : Nat
  opcode : Nat
  response : Bool
  status : Nat
  last : Bool
  reserved : Nat
  index : Nat
  sub : Nat
  member : Nat
  offset : Nat
  length : Nat
  total : Nat
  data : List Byte
  check : W32
  deriving DecidableEq, Repr

/-- Where a cluster operation finds or puts an object (R115, R244): a scratchpad handle, a slot of a prefetch ring, or a
cluster-buffer region with the header slot that the operation names. -/
inductive Loc where
  | handle (h : Nat)
  | ring (r : Nat) (release : Bool)
  | region (row : Nat) (slot : Nat)
  deriving DecidableEq, Repr

/-- An operand of a vector operation (R198). -/
inductive VOp where
  | tile (z : Fin 8)
  | cache (line : Nat) (count : Nat)
  | desc (ix : Nat)
  | scalar (sc : Nat)
  deriving DecidableEq, Repr

/-- The comparison that CMP makes in the total order of R191. -/
inductive Rel where
  | lt | le | eq | ne | ge | gt
  deriving DecidableEq, Repr

/-- The form of a vector reduction (R201): over n elements, or along a tile axis by row or by column. -/
inductive RedForm where
  | all | rows | cols
  deriving DecidableEq, Repr

/-- What ENCODE is asked to produce (R119). -/
structure EncodeReq where
  scheme : Nat
  logN : Nat
  chain : Nat
  paramSet : Nat
  tIndex : Nat
  level : Nat
  logSlots : Nat
  tag : W64
  scale : Nat
  extended : Bool
  ntt : Bool
  deriving DecidableEq, Repr

/-- A flag that the completion of a transfer sets (R301, R370). -/
structure FlagTarget where
  die : DieIx
  flag : Nat
  deriving DecidableEq, Repr

/-- The flag that SET_FLAG names: one of its own die (R301), or one at the window of a tensor descriptor (R370). -/
inductive FlagAt where
  | here (flag : Nat)
  | there (window flag : Nat)
  deriving DecidableEq, Repr

/-- A host port that is reset: this part's own, or one of the gateway part that forwards the reset to this member (R385). -/
structure BenchPort where
  port : HostId
  gateway : Option Nat
  deriving DecidableEq, Repr

/-- A tongs transfer's operands (R258, R259): descriptor indices, tong mask, target flag, and the bytes that host memory
holds at the source elements in pairing order when the source is in HOST space. -/
structure MoveArgs where
  src : Nat
  dst : Nat
  mask : BitVec 4
  flag : Option FlagTarget
  host : List Byte
  deriving DecidableEq, Repr

/-- GATHER and SCATTER operands (R265, R268), with the bytes of a HOST source of a SCATTER and of a HOST index list. -/
structure IndexedArgs where
  src : Nat
  idx : Nat
  dst : Nat
  mask : BitVec 4
  flag : Option FlagTarget
  host : List Byte
  idxHost : List Byte
  deriving DecidableEq, Repr

/-- The operands of TMUL (R192, R195): descriptor indices, the scalar register that holds X_t, the palette entry. -/
structure TmulArgs where
  a : Nat
  b : Nat
  cin : Option Nat
  fp32 : Option Nat
  conv : Option Nat
  xt : Nat
  palette : Option Nat
  deriving DecidableEq, Repr

/-- UPD_APPLY's operands (R211): handles, scalar registers with S_g and F_g, and for a lazy tensor the index list. -/
structure UpdArgs where
  desc : Nat
  stepId : W32
  weights : Nat
  grad : Nat
  m : Nat
  v : Nat
  sg : Nat
  fg : Nat
  idx : Nat
  counts : Nat
  rows : Nat
  deriving DecidableEq, Repr

/-- UPD_NORM's operands (R210). -/
structure NormArgs where
  desc : Nat
  grad : Nat
  sca : Nat
  scb : Nat
  rows : Nat
  deriving DecidableEq, Repr

/-- A share exchange message as it arrives (R158); `port` is none when it came over the bridges (R159). -/
structure ExMsg where
  part : PartIx
  port : Option PortIx
  /-- The low 16 bits of the epoch that it carries (R360). -/
  epoch : Nat
  tag : W64
  party : Nat
  m : Nat
  openSeq : Nat
  dealSeq : Option Nat
  body : List Nat
  deriving DecidableEq, Repr

/-- A DEAL delivery as it arrives (R157). -/
structure DealMsg where
  part : PartIx
  port : Option PortIx
  /-- The low 16 bits of the epoch that it carries (R360). -/
  epoch : Nat
  tag : W64
  dealSeq : Nat
  a : List Nat
  b : List Nat
  c : List Nat
  deriving DecidableEq, Repr

/-- A received flit (R342); `fecOk` says that its FEC codewords decoded. -/
structure Flit where
  ftype : Nat
  vc : Nat
  isSealed : Bool
  reserved : Nat
  seq : Nat
  ack : Nat
  creditVc : Nat
  credits : Nat
  body : List Byte
  crc : W64
  fecOk : Bool
  deriving DecidableEq, Repr

/-- The header of a fabric packet (R351) and its data bytes; in a READ_REQ, `length` is the length asked for (log 30). -/
structure Packet where
  ptype : Nat
  hops : Nat
  dstPart : Nat
  srcPart : Nat
  dstDie : DieIx
  srcDie : DieIx
  epoch : Nat
  fpkey : Nat
  window : Nat
  length : Nat
  wgen : W32
  rtag : W32
  offset : W64
  data : List Byte
  deriving DecidableEq, Repr

/-- A twin control record (R405). -/
structure TwinRec where
  rtype : Nat
  part : PartIx
  sender : Nat
  gen : W32
  rseq : Nat
  reserved : Nat
  tag : W64
  armed : Bool
  check : W32
  deriving DecidableEq, Repr

/-- What the twin port brings on VC 0 (R100, R103, R405, R407): bytes of a key set's plain bundle from a byte offset, with the
set's home dies, or bytes of a store handle, with its BASE, ROWS and POISON_EVENT. -/
inductive MirrorBody where
  | keyRows (slot : Nat) (tag : W64) (homes : BitVec 16) (offset : Nat) (rows : List Byte) (lastRows : Bool)
  | storeRows (die : DieIx) (handle base rows : Nat) (poison : Option (BitVec 16)) (offset : Nat) (bytes : List Byte)
  deriving DecidableEq, Repr

/-- What one die's agent reports for a governor interval (R309, R310, R337): the issue-slot fraction of each of the seven
classes in 1/65,536, the four sensors in degrees C, and what of each class each queue issued. -/
structure DieReport where
  activity : List Nat
  temps : List Int
  queues : List (QueueIx × List Nat)
  deriving DecidableEq, Repr

/-- A location that a test or a repair names (R500). -/
structure BistEntry where
  die : DieIx
  structure_ : Nat
  row : Nat
  deriving DecidableEq, Repr

/-- The outcome of the anchor self-check (R517, step 3). -/
inductive SelfCheck where
  | pass | anchorsDiffer | entropyFails
  deriving DecidableEq, Repr

/-- A PRI response code (R273, R275). -/
inductive PriCode where
  | success | invalidRequest | responseFailure
  deriving DecidableEq, Repr

/-- The two curves of R445. -/
inductive Curve where
  | p256 | p384
  deriving DecidableEq, Repr

/-- A write to a queue control page (R388, R389): the fields it covers. -/
structure CtlWrite where
  crBase : Option W64
  crLog2 : Option Nat
  enable : Option Bool
  vector : Option Nat
  deriving DecidableEq, Repr

/-- A register-like location that can fail parity (R456). -/
inductive RegLoc where
  | tile (eng : Fin 2) (z : Fin 8)
  | cacheLine (eng : Fin 2) (line : Nat)
  | scalar (sc : Nat)
  | palette (e : Nat)
  deriving DecidableEq, Repr

/-- A member's registration record at the gateway (R397). -/
structure MemberReg where
  part : Nat
  port : HostId
  fn : Nat
  slot : Nat
  deriving DecidableEq, Repr

/-- What a member forwards to its gateway (R399): data for host memory, a completion record with its vector, or the pages of a page
request. -/
inductive FwdKind where
  | data
  | completion (irqVector : Option Nat)
  | pages (pages : List Nat)
  deriving DecidableEq, Repr

/-- A host write, completion record or page request of a member, forwarded to the gateway (R399, R400). -/
structure FwdWrite where
  reg : MemberReg
  die : DieIx
  queue : QueueIx
  addr : W64
  bytes : List Byte
  kind : FwdKind
  tag : W32
  deriving DecidableEq, Repr

/-- The access of a window (R364, R365). -/
structure WinAccess where
  write : Bool
  read : Bool
  store : Bool
  any : Bool
  peer : Nat
  deriving DecidableEq, Repr

/-- The commands: one constructor per row of spec/opcode_table.json, in the table's order but for the big-number
commands, which stand after UPD_APPLY. -/
inductive Instr where
  | pwrokRise
  | pwrokFall
  | sysResetAssert
  | sysResetRelease
  | selfCheckComplete (r : SelfCheck)
  | perst (port : HostId) (asserted : Bool)
  | linkDown (at_ : BenchPort)
  | functionLevelReset (at_ : BenchPort) (fn : Nat)
  | go (r : FpReq)
  | verificationComplete (stagingParity : Bool)
  | repairRecord
  | repairRecordWaitExpiry
  | ready (failures : List BistEntry)
  | thermtrip (die : DieIx)
  | quenchInput (lowNs : Nat)
  | pwrbrkAssert
  | pwrbrkDeassert
  | droop (die : DieIx)
  | syncInEdge (offsetNs : Int) (sinceNs : Nat)
  | syncFreeRun
  | governorInterval (reports : List DieReport)
  | admissionBoundary
  | idleEntry (die : DieIx) (idleUs : Nat)
  | anchorCompare (point : Nat) (primary : List Byte) (checker : List Byte)
  | anchorCompareTimeout (point : Nat)
  | partitionQuenchComplete (p : PartIx)
  | scratchpadParity (die : DieIx) (op : Nat) (row : Nat)
  | clusterBufferParity (die : DieIx) (cluster : Fin 8) (row : Nat) (op : Nat)
  | registerParity (die : DieIx) (loc : RegLoc) (op : Nat)
  | keyRowParity (die : DieIx) (op : Nat) (row : Nat)
  | storeParity (die : DieIx) (op : Nat) (row : Nat)
  | controlParity (die : DieIx) (structure_ : Nat)
  | entropyFail (die : DieIx)
  | clockCheck (die : DieIx) (ppm : Int)
  | supplyCheck (die : DieIx) (permyriad : Nat)
  | eyeMarginCheck (port : PortIx) (margin : Nat)
  /-- `bytes` is none where the write is poisoned or fails ECRC (R395). -/
  | queueWindowWrite (port : HostId) (fn slot : Nat) (die : DieIx) (queue : QueueIx) (offset : Nat) (bytes : Option (List Byte))
  | nop (die : DieIx) (queue : QueueIx)
  | programLoad (die : DieIx) (queue : QueueIx)
  | programLoadComplete (die : DieIx) (queue : QueueIx) (image : List Byte)
  | programUnload (die : DieIx) (queue : QueueIx)
  | patch (die : DieIx) (queue : QueueIx)
  | patchApply (die : DieIx) (queue : QueueIx)
  | keysetBind (die : DieIx) (queue : QueueIx) (envelope : List Byte)
  | importSegment (p : PartIx) (slot : Nat) (sealedBytes : List Byte)
  | jobSubmit (die : DieIx) (queue : QueueIx)
  | fence (die : DieIx) (queue : QueueIx)
  | fenceComplete (die : DieIx) (queue : QueueIx)
  | setStep (die : DieIx) (queue : QueueIx)
  | cancel (die : DieIx) (queue : QueueIx)
  | block (die : DieIx) (queue : QueueIx)
  | blockExpiry (die : DieIx) (queue : QueueIx)
  | jobComplete (job : Nat) (elapsedNs : Nat)
  | setFlag (at_ : Site) (flag : FlagAt)
  | clearFlag (at_ : Site) (flag : Nat)
  | waitFlag (at_ : Site) (flag : Nat)
  | flagTimeout (die : DieIx) (queue : QueueIx)
  | flagDeadlock (die : DieIx) (queues : List QueueIx)
  | undefinedInstruction (at_ : Site)
  | operationComplete (die : DieIx) (op : Nat)
  | ntt (at_ : Site) (mask : BitVec 8) (src dst : Loc)
  | inverseNtt (at_ : Site) (mask : BitVec 8) (src dst : Loc)
  | polyAdd (at_ : Site) (mask : BitVec 8) (a b dst : Loc)
  | polySubtract (at_ : Site) (mask : BitVec 8) (a b dst : Loc)
  | negate (at_ : Site) (mask : BitVec 8) (src dst : Loc)
  | plaintextAdd (at_ : Site) (mask : BitVec 8) (ct pt dst : Loc)
  | plaintextMultiply (at_ : Site) (mask : BitVec 8) (ct pt dst : Loc)
  | ciphertextMultiply (at_ : Site) (mask : BitVec 8) (a b dst : Loc)
  | levelDrop (at_ : Site) (mask : BitVec 8) (src dst : Loc) (level : Int)
  | basisConversion (at_ : Site) (mask : BitVec 8) (src dst : Loc) (source target : List Nat)
  | rescale (at_ : Site) (mask : BitVec 8) (src dst : Loc)
  | modSwitch (at_ : Site) (mask : BitVec 8) (src dst : Loc)
  | encode (at_ : Site) (mask : BitVec 8) (coeffs : Nat) (dst : Loc) (req : EncodeReq)
  | decode (at_ : Site) (mask : BitVec 8) (src : Loc) (dst : Nat)
  | relinearise (at_ : Site) (mask : BitVec 8) (src dst : Loc) (slot : Nat)
  | rotate (at_ : Site) (mask : BitVec 8) (src dst : Loc) (g slot : Nat)
  | conjugate (at_ : Site) (mask : BitVec 8) (src dst : Loc) (slot : Nat)
  | hrot (at_ : Site) (mask : BitVec 8) (src : Loc) (gs : List Nat) (dsts : List Loc) (slot : Nat)
  | hrotSum (at_ : Site) (mask : BitVec 8) (src : Loc) (terms : List (Nat × Loc)) (dst : Loc) (slot : Nat)
  | modUp (at_ : Site) (mask : BitVec 8) (src dst : Loc) (digit : Option Nat)
  | ip (at_ : Site) (mask : BitVec 8) (digits : List Loc) (dst : Loc) (kind g slot : Nat)
  | modDown (at_ : Site) (mask : BitVec 8) (src dst : Loc)
  | temper (at_ : Site) (src dst : Loc) (cfg slot work : Nat)
  | shrAdd (at_ : Site) (mask : BitVec 8) (a b dst : Nat)
  | shrSub (at_ : Site) (mask : BitVec 8) (a b dst : Nat)
  | shrNeg (at_ : Site) (mask : BitVec 8) (src dst : Nat)
  | shrSmul (at_ : Site) (mask : BitVec 8) (src sc dst : Nat)
  | shrCadd (at_ : Site) (mask : BitVec 8) (src clear dst : Nat)
  | shrSplit (at_ : Site) (mask : BitVec 8) (session logM clear dst : Nat) (recv : List Nat)
  | shrOpen (at_ : Site) (mask : BitVec 8) (src dst : Nat)
  | beaverMul (at_ : Site) (mask : BitVec 8) (a b dst : Nat)
  | secagg (at_ : Site) (mask : BitVec 8) (srcs : List Nat) (dst : Nat)
  | deal (at_ : Site) (session n : Nat)
  | exchangeMessage (m : ExMsg)
  | dealDelivery (m : DealMsg)
  | abortMarker (m : ExMsg)
  | exchangeTimeout (p : PartIx) (session : Nat)
  | tmul (at_ : Site) (args : TmulArgs)
  | paletteReadClear (at_ : Site) (entry sc : Nat)
  | nanCountReadClear (at_ : Site) (sc : Nat)
  | add (at_ : Site) (eng : Fin 2) (n : Nat) (a b dst : VOp)
  | sub (at_ : Site) (eng : Fin 2) (n : Nat) (a b dst : VOp)
  | mul (at_ : Site) (eng : Fin 2) (n : Nat) (a b dst : VOp)
  | fma (at_ : Site) (eng : Fin 2) (n : Nat) (a b c dst : VOp)
  | min (at_ : Site) (eng : Fin 2) (n : Nat) (a b dst : VOp)
  | max (at_ : Site) (eng : Fin 2) (n : Nat) (a b dst : VOp)
  | abs (at_ : Site) (eng : Fin 2) (n : Nat) (a dst : VOp)
  | neg (at_ : Site) (eng : Fin 2) (n : Nat) (a dst : VOp)
  | cmp (at_ : Site) (eng : Fin 2) (n : Nat) (rel : Rel) (a b dst : VOp)
  | sel (at_ : Site) (eng : Fin 2) (n : Nat) (c a b dst : VOp)
  | recip (at_ : Site) (eng : Fin 2) (n : Nat) (a dst : VOp)
  | rsqrt (at_ : Site) (eng : Fin 2) (n : Nat) (a dst : VOp)
  | sqrt (at_ : Site) (eng : Fin 2) (n : Nat) (a dst : VOp)
  | exp2 (at_ : Site) (eng : Fin 2) (n : Nat) (a dst : VOp)
  | log2 (at_ : Site) (eng : Fin 2) (n : Nat) (a dst : VOp)
  | cvt (at_ : Site) (eng : Fin 2) (n : Nat) (a dst : VOp) (xt : Nat) (palette : Option Nat)
  | fix (at_ : Site) (eng : Fin 2) (n f : Nat) (a dst : VOp)
  | flt (at_ : Site) (eng : Fin 2) (n f : Nat) (a dst : VOp)
  | rsum (at_ : Site) (eng : Fin 2) (n : Nat) (form : RedForm) (a dst : VOp)
  | rmax (at_ : Site) (eng : Fin 2) (n : Nat) (form : RedForm) (a dst : VOp)
  | rmin (at_ : Site) (eng : Fin 2) (n : Nat) (form : RedForm) (a dst : VOp)
  | rargmax (at_ : Site) (eng : Fin 2) (n : Nat) (form : RedForm) (a dst : VOp)
  | sort (at_ : Site) (eng : Fin 2) (n : Nat) (a dst : VOp)
  | argsort (at_ : Site) (eng : Fin 2) (n : Nat) (a dst : VOp)
  | vload (at_ : Site) (eng : Fin 2) (n : Nat) (transpose : Bool) (a dst : VOp)
  | vstore (at_ : Site) (eng : Fin 2) (n : Nat) (a dst : VOp)
  | updNorm (at_ : Site) (args : NormArgs)
  | updApply (at_ : Site) (args : UpdArgs)
  | bnCfg (at_ : Site) (slot n : Nat) (secret : Bool)
  | bnLoad (at_ : Site) (slot handle offset : Nat)
  | bnRead (at_ : Site) (handle offset slot : Nat)
  | modAdd (at_ : Site) (d a b m sc : Nat)
  | modSub (at_ : Site) (d a b m sc : Nat)
  | modMul (at_ : Site) (d a b m sc : Nat)
  | modExp (at_ : Site) (d a e m sc : Nat)
  | modInv (at_ : Site) (d a m sc : Nat)
  | bnRand (at_ : Site) (d m sc : Nat)
  | ecKeygen (at_ : Site) (curve : Curve) (d x y sc : Nat)
  | ecMul (at_ : Site) (curve : Curve) (k x y x' y' sc : Nat)
  | ecDh (at_ : Site) (curve : Curve) (k x y z sc : Nat)
  | hstat (at_ : Site) (index sca scb : Nat)
  | alloc (at_ : Site) (index base rows : Nat) (secret : Bool)
  | free (at_ : Site) (index : Nat)
  | ringInit (at_ : Site) (ring handle slots slotRows : Nat)
  | ringFree (at_ : Site) (ring : Nat)
  | salloc (at_ : Site) (index base rows : Nat)
  | sfree (at_ : Site) (index : Nat)
  | dset (at_ : Site) (index handle offset : Nat)
  | move (at_ : Site) (args : MoveArgs)
  | gather (at_ : Site) (args : IndexedArgs)
  | scatter (at_ : Site) (args : IndexedArgs) (addMode : Bool)
  | pageRequestResponse (port : HostId) (group : Nat) (code : PriCode)
  | pageRequestTimeout (port : HostId) (group : Nat)
  | translationError (die : DieIx) (op : Nat)
  | atsInvalidation (port : HostId) (page : Nat)
  | readCompletionError (die : DieIx) (op : Nat)
  | readCompletionTimeout (die : DieIx) (op : Nat)
  | sdigest (at_ : Site) (index : Nat)
  | winOpen (at_ : Site) (window handle base length : Nat) (access : WinAccess) (sc : Nat)
  | winClose (at_ : Site) (window sc : Nat)
  | windowCloseComplete (window : Nat)
  | allReduce (at_ : Site) (src dst coll : Nat)
  | reduceScatter (at_ : Site) (src dst coll : Nat)
  | allGather (at_ : Site) (src dst coll : Nat)
  | broadcast (at_ : Site) (src dst coll : Nat)
  | barrier (at_ : Site) (coll : Nat)
  | collectiveTimeout (die : DieIx) (op : Nat)
  | dget (at_ : Site) (table : Nat) (origin box : List Nat) (dst : Nat)
  | dput (at_ : Site) (src table : Nat) (origin box : List Nat)
  | flit (port : PortIx) (f : Flit)
  | retry (port : PortIx) (seq : Nat)
  | retryRepeat (port : PortIx)
  | portDown (port : PortIx)
  | training (port : PortIx) (loopbackOk : Bool)
  | trainingComplete (port : PortIx) (success : Bool)
  | linkKey (port : PortIx)
  | keyStart (port : PortIx)
  | keyingTimeout (port : PortIx)
  | keyLimit (port : PortIx)
  | remoteWrite
  | readReq
  | readData
  | ack
  | nak
  | flagSet
  | collData
  | collCtrl
  | paceMessage (collId : W64) (rank limit : Nat)
  | lossNotice (part epoch : Nat)
  | transferTimeout (die : DieIx) (op : Nat)
  | epochHoldExpiry (port : PortIx)
  | epochSwitch
  | epochRetire
  | pendingEpochWrite (r : FpReq)
  | routingTableWrite (r : FpReq)
  | heartbeatSend
  | heartbeat (rec : TwinRec)
  | heartbeatInterval (tie : Bool)
  | pair (r : FpReq)
  | pairResend
  | pairRecord (rec : TwinRec)
  | detach (r : FpReq)
  | detachRecord (rec : TwinRec)
  | fill (r : FpReq) (partnerStandby : Bool) (partnerDies : BitVec 16)
  | fillComplete
  | fillDone (rec : TwinRec)
  | promote (r : FpReq)
  | mirrorRows (p : PartIx) (m : MirrorBody)
  | confirm (rec : TwinRec)
  | commit (rec : TwinRec)
  | abort (rec : TwinRec)
  | refetch (rec : TwinRec)
  | refetchComplete (p : PartIx) (slot : Nat) (ok : Bool)
  | enable (port : HostId) (fn slot : Nat) (die : DieIx) (queue : QueueIx) (w : CtlWrite)
  | queueDisableComplete (die : DieIx) (queue : QueueIx)
  | crHead (port : HostId) (fn slot : Nat) (die : DieIx) (queue : QueueIx) (value : W32)
  | apertureControl (port : HostId) (fn : Nat) (value : W32)
  | bar2Access (port : HostId) (fn offset length : Nat) (write : Option (List Byte))
  | read (r : FpReq)
  | write (r : FpReq)
  | segRead (r : FpReq)
  | segWrite (r : FpReq)
  | describe (r : FpReq)
  | sessionTimeout (via : Via) (index sub member : Nat)
  | setEndpointId (via : Via) (eid : Byte)
  | getEndpointId (via : Via)
  | getMctpVersionSupport (via : Via) (messageType : Byte)
  | getMessageTypeSupport (via : Via)
  | getVendorDefinedMessageSupport (via : Via) (selector : Byte)
  | errorRegisterRead (r : FpReq)
  | smbusAlertResponse
  | evictionRequest (r : FpReq)
  | create (r : FpReq) (memberSlotHeld : Bool)
  | start (r : FpReq)
  | stop (r : FpReq)
  | coldStop (r : FpReq)
  | destroy (r : FpReq)
  | partitionCommandComplete (p : PartIx)
  | quenchPartition (r : FpReq)
  | restartQueues (r : FpReq)
  | deviceQuenchCommand (r : FpReq)
  | rollbackAdvance (r : FpReq) (burned : W64) (revoked : BitVec 4)
  | attestationRequest (r : FpReq)
  | reportSigned
  | linkEncryption (r : FpReq)
  | bnYield
  | bnComplete
  | shutdown (r : FpReq)
  | drainGraceExpiry
  | drainComplete
  | clearComplete
  | scanComplete (failures : List BistEntry)
  | memoryComplete (failures : List BistEntry)
  | repairComplete (repaired : List BistEntry)
  | hostLinkUp (port : HostId) (width : Nat)
  | droopClear (die : DieIx)
  | linkKeySegment (port : PortIx) (offset keyNumber : Nat) (bytes : List Byte)
  | memberRegistration (reg : MemberReg)
  | forwardedHostWrite (w : FwdWrite)
  | pageNotPresent (die : DieIx) (op : Nat) (cursor : Nat) (pages : List Nat)
  deriving DecidableEq, Repr

end Sys2Proof
end

