-- ==== Sys2Proof/Decode.lean ====
section
/-! DEFINITION. The decoder asked for over the rows of the opcode table that give bits. spec/opcode_table.json gives no row
any bits ("fields" is empty in all 260), so no word spells a command. -/

namespace Sys2Proof

/-- The command that a word spells by the opcode table's bits: none, because the table gives no row bits. -/
def decodeTableWord (_nbits _w : Nat) : Option Instr := none

end Sys2Proof
end

