-- ==== Sys2Proof/Machine/Bytes.lean ====
section
/-! DEFINITION. Bytes and tables: little-endian fields (R8), byte lists, sparse tables, byte memories in canonical form, and
CRC-32C. -/

namespace Sys2Proof.Machine

/-- The `k` low bytes of `n`, least significant first (R8). -/
def leBytes : Nat → Nat → List Byte
  | 0, _ => []
  | k + 1, n => BitVec.ofNat 8 n :: leBytes k (n / 256)

/-- The number that little-endian bytes hold (R8). -/
def leNat : List Byte → Nat
  | [] => 0
  | b :: bs => b.toNat + 256 * leNat bs

/-- The number that big-endian bytes hold. -/
def beNat (bs : List Byte) : Nat := bs.foldl (fun a b => 256 * a + b.toNat) 0

/-- The `k` low bytes of `n`, most significant first. -/
def beBytes (k n : Nat) : List Byte := (leBytes k n).reverse

/-- The `n` bytes at offset `o` of a byte list, zeros beyond its end. -/
def bytesAt (bs : List Byte) (o n : Nat) : List Byte :=
  let t := (bs.drop o).take n
  t ++ List.replicate (n - t.length) 0

/-- The little-endian number in the `n` bytes at offset `o`. -/
def fieldAt (bs : List Byte) (o n : Nat) : Nat := leNat (bytesAt bs o n)

/-- Bits `lo .. lo + w - 1` of `n`. -/
def bitsOf (n lo w : Nat) : Nat := n / 2 ^ lo % 2 ^ w

/-- Bit `k` of `n`. -/
def bitOf (n k : Nat) : Bool := n / 2 ^ k % 2 == 1

/-- A BOOL as a number. -/
def b2n (b : Bool) : Nat := if b then 1 else 0

/-- A two's-complement reading of the `w` low bits. -/
def toSigned (w n : Nat) : Int :=
  let m := n % 2 ^ w
  if 2 * m < 2 ^ w then (m : Int) else (m : Int) - 2 ^ w

/-- The two's-complement pattern of `z` in `w` bits. -/
def ofSigned (w : Nat) (z : Int) : Nat := (z % (2 ^ w : Int)).toNat

/-- Every byte of the list is zero. -/
def allZero (bs : List Byte) : Bool := bs.all (· == 0)

/-- `n` divided by `d`, rounded up. -/
def ceilDiv (n d : Nat) : Nat := (n + d - 1) / d

/-- The bytes of an ASCII string. -/
def ascii (t : String) : List Byte := t.toList.map fun c => BitVec.ofNat 8 c.toNat

/-- Cut a list into pieces of `n` (the last may be short); `fuel` bounds the pieces. -/
def chunksGo {α : Type} (n : Nat) : Nat → List α → List (List α)
  | 0, _ => []
  | _, [] => []
  | f + 1, x :: xs => (x :: xs).take n :: chunksGo n f ((x :: xs).drop n)

/-- Cut a list into pieces of `n`. -/
def chunks {α : Type} (n : Nat) (l : List α) : List (List α) := chunksGo n (l.length + 1) l

/-! ### CRC-32C (RFC 3720 polynomial 0x1EDC6F41, reflected; all ones in and out) -/

/-- One bit of the reflected CRC-32C register. -/
def crc32cBit (c : W32) : W32 :=
  if c.getLsbD 0 then (c >>> 1) ^^^ 0x82F63B78#32 else c >>> 1

/-- One byte of CRC-32C. -/
def crc32cByte (c : W32) (b : Byte) : W32 :=
  (List.range 8).foldl (fun c _ => crc32cBit c) (c ^^^ b.setWidth 32)

/-- CRC-32C of a byte string. -/
def crc32c (bs : List Byte) : W32 := (bs.foldl crc32cByte 0xFFFFFFFF#32) ^^^ 0xFFFFFFFF#32

/-! ### Sparse tables -/

/-- The entry at a key. -/
def tblGet {α : Type} : Tbl α → Nat → Option α
  | [], _ => none
  | (k, v) :: t, a => if k = a then some v else tblGet t a

/-- Put an entry at a key, keeping the keys rising. -/
def tblSet {α : Type} : Tbl α → Nat → α → Tbl α
  | [], a, x => [(a, x)]
  | (k, v) :: t, a, x =>
    if a < k then (a, x) :: (k, v) :: t
    else if a = k then (a, x) :: t
    else (k, v) :: tblSet t a x

/-- Remove the entry at a key. -/
def tblDel {α : Type} (t : Tbl α) (a : Nat) : Tbl α := t.filter fun e => !(e.1 == a)

/-- Change the entry at a key, if there is one. -/
def tblMod {α : Type} (t : Tbl α) (a : Nat) (f : α → α) : Tbl α :=
  t.map fun e => if e.1 = a then (e.1, f e.2) else e

/-- The entry at a key, or the given value where none is listed. -/
def tblGetD {α : Type} (t : Tbl α) (a : Nat) (d : α) : α := (tblGet t a).getD d

/-! ### Byte memories: cells at strictly rising addresses, no cell holding 0 (an unlisted byte reads 0) -/

/-- A byte memory. -/
abbrev Mem := List Host.Cell

/-- The canonical form: every address above `lo`, rising, and no listed zero. -/
def Memory.wfFrom : Nat → Mem → Bool
  | _, [] => true
  | lo, (a, b) :: m => decide (lo ≤ a) && decide (b ≠ 0) && Memory.wfFrom (a + 1) m

/-- The canonical form of a byte memory. -/
def Memory.wf (m : Mem) : Bool := Memory.wfFrom 0 m

/-- The byte at an address; an unlisted byte reads 0 (R111, R224, R250, R509). -/
def memGet : Mem → Nat → Byte
  | [], _ => 0
  | (k, v) :: t, a => if k = a then v else memGet t a

/-- Write one byte; writing 0 removes the cell. -/
def memSet : Mem → Nat → Byte → Mem
  | [], a, b => if b = 0 then [] else [(a, b)]
  | (k, v) :: t, a, b =>
    if a < k then (if b = 0 then (k, v) :: t else (a, b) :: (k, v) :: t)
    else if a = k then (if b = 0 then t else (a, b) :: t)
    else (k, v) :: memSet t a b

/-- The `n` bytes from address `a`. -/
def memBytes (m : Mem) : Nat → Nat → List Byte
  | _, 0 => []
  | a, n + 1 => memGet m a :: memBytes m (a + 1) n

/-- Write bytes from address `a` up. -/
def memPut : Mem → Nat → List Byte → Mem
  | m, _, [] => m
  | m, a, b :: bs => memPut (memSet m a b) (a + 1) bs

/-- Zero the `n` bytes from address `a`. -/
def memZero (m : Mem) (a n : Nat) : Mem := m.filter fun c => decide (c.1 < a) || decide (a + n ≤ c.1)

end Sys2Proof.Machine
end

