-- ==== Sys2Proof/Machine/Modular.lean ====
section
/-! DEFINITION. Modular arithmetic on natural numbers: powers, inverses, primality, rounded logarithms. -/

namespace Sys2Proof.Machine

/-- `b ^ e mod m`, squaring once per step; `f` bounds the bits of `e`. -/
def powModGo (m : Nat) : Nat → Nat → Nat → Nat → Nat
  | 0, _, _, acc => acc
  | f + 1, b, e, acc =>
    if e = 0 then acc
    else powModGo m f (b * b % m) (e / 2) (if e % 2 = 1 then acc * b % m else acc)

/-- `b ^ e mod m`. -/
def powMod (b e m : Nat) : Nat := powModGo m (Nat.log2 e + 1) (b % m) e (1 % m)

/-- The extended Euclidean step: from remainders `r0`, `r1` and coefficients `s0`, `s1`, the greatest common divisor and
the coefficient that gives it. -/
def egcdGo : Nat → Int → Int → Int → Int → Int × Int
  | 0, r0, _, s0, _ => (r0, s0)
  | f + 1, r0, r1, s0, s1 =>
    if r1 = 0 then (r0, s0) else egcdGo f r1 (r0 % r1) s1 (s0 - (r0 / r1) * s1)

/-- The inverse of `a` modulo `m`, or none where they share a factor. -/
def modInv? (a m : Nat) : Option Nat :=
  let r := egcdGo (2 * (Nat.log2 m + Nat.log2 a) + 8) (a % m : Nat) m 1 0
  if r.1 = 1 ∨ m = 1 then some (r.2 % m).toNat else none

/-- The inverse of `a` modulo `m`; 0 where there is none. -/
def modInvD (a m : Nat) : Nat := (modInv? a m).getD 0

/-- `(a - b) mod m` for `a, b < m`. -/
def subMod (a b m : Nat) : Nat := (a + (m - b % m)) % m

/-- `n` has no divisor from 2 up to `d + 1` other than by chance: trial division with divisors `2 .. d + 1`. -/
def noDivisorUpTo (n : Nat) : Nat → Bool
  | 0 => true
  | d + 1 => n % (d + 2) != 0 && noDivisorUpTo n d

/-- Primality by trial division, for the moduli t of R52, at most 2^24. -/
def isPrimeSmall (n : Nat) : Bool := decide (2 ≤ n) && noDivisorUpTo n (Nat.min (n - 2) 4096)

/-- `⌈log2 n⌉` for `n ≥ 1`. -/
def clog2 (n : Nat) : Nat := if n ≤ 1 then 0 else Nat.log2 (n - 1) + 1

/-- `⌈16 · log2 n⌉`. -/
def clog16 (n : Nat) : Nat := clog2 (n ^ 16)

/-- The bits of `k` (of `n` bits) in reverse order: rev of R48. -/
def revBits : Nat → Nat → Nat
  | 0, _ => 0
  | n + 1, k => (k % 2) * 2 ^ n + revBits n (k / 2)

/-- The representative of `x` modulo `m` in `(-m/2, m/2]`. -/
def centred (x m : Nat) : Int := if 2 * (x % m) > m then (x % m : Int) - m else (x % m : Int)

/-- The residue of an integer modulo `m`. -/
def imod (z : Int) (m : Nat) : Nat := (z % (m : Int)).toNat

/-- The largest `r` with `r * r ≤ n`, bit by bit from bit `b` down. -/
def isqrtGo (n : Nat) : Nat → Nat → Nat
  | 0, r => r
  | b + 1, r => let t := r + 2 ^ b; isqrtGo n b (if t * t ≤ n then t else r)

/-- The integer square root. -/
def isqrt (n : Nat) : Nat := isqrtGo n (Nat.log2 n / 2 + 1) 0

/-- The largest `r` with `r ^ k ≤ n`, bit by bit from bit `b` down. -/
def irootGo (n k : Nat) : Nat → Nat → Nat
  | 0, r => r
  | b + 1, r => let t := r + 2 ^ b; irootGo n k b (if t ^ k ≤ n then t else r)

/-- The integer `k`-th root, rounded down. -/
def iroot (k n : Nat) : Nat := irootGo n k (Nat.log2 n / k + 1) 0

end Sys2Proof.Machine
end

