-- ==== Sys2Proof/Machine/Rings.lean ====
section
/-! DEFINITION. The rings of R37 to R48: catalogue primes, their constants, and a limb as the list of its residues; the
transforms, automorphisms and basis conversions of R105 to R109. -/

namespace Sys2Proof.Machine

/-- A limb: the residues at positions 0 to N - 1. -/
abbrev Limb := List Nat

/-- The catalogue prime with the given D (R38). -/
def primeOf (d : Nat) : Nat := 2 ^ 36 - d * 2 ^ 18 + 1

/-- The nonzero digits of the non-adjacent form of `d`, `f` bounding the digits (R38). -/
def nafWeightGo : Nat → Nat → Nat
  | 0, _ => 0
  | f + 1, d =>
    if d = 0 then 0
    else if d % 2 = 0 then nafWeightGo f (d / 2)
    else if d % 4 = 1 then 1 + nafWeightGo f ((d - 1) / 2)
    else 1 + nafWeightGo f ((d + 1) / 2)

/-- WEIGHT of a catalogue entry (R39). -/
def nafWeight (d : Nat) : Nat := nafWeightGo 16 d

/-- The U32 entry of object 0x5100 for catalogue index `i` with `d` (R39). -/
def primeEntry (i d : Nat) : Nat := i + d * 2 ^ 8 + nafWeight d * 2 ^ 21

/-- λ = ⌊16·log2 q⌋ (R41). -/
def lambdaOf (q : Nat) : Nat := Nat.log2 (q ^ 16)

/-- μ = ⌊256·log2 q + 1/2⌋ (R41). -/
def muOf (q : Nat) : Nat := Nat.log2 (2 * q ^ 512) / 2

/-- The search for r: the first h from `h` up whose power has order 2^18 (R41). -/
def rootGo (q : Nat) : Nat → Nat → Nat
  | 0, _ => 0
  | f + 1, h =>
    let r := powMod h ((q - 1) / 2 ^ 18) q
    if powMod r (2 ^ 17) q ≠ 1 then r else rootGo q f (h + 1)

/-- The root r of R41: the first h from 2 up that gives a primitive 2^18-th root of unity. -/
def rootOf (q : Nat) : Nat := rootGo q 4096 2

/-- ψ = r^(2^17/N), the primitive 2N-th root of unity for N = 2^n (R41). -/
def psiOf (q n : Nat) : Nat := powMod (rootOf q) (2 ^ 17 / 2 ^ n) q

/-- Σ a_j x^j modulo q. -/
def evalPoly (q x : Nat) (a : Limb) : Nat := a.foldr (fun c acc => (c + x * acc) % q) 0

/-- The transform of R48 with a given ψ: position k holds a(ψ^(2·rev(k) + 1)). -/
def nttWith (q n psi : Nat) (a : Limb) : Limb :=
  (List.range (2 ^ n)).map fun k => evalPoly q (powMod psi (2 * revBits n k + 1) q) a

/-- The inverse of `nttWith`, with its factor N^(-1) (R106). -/
def inttWith (q n psi : Nat) (v : Limb) : Limb :=
  let ninv := modInvD (2 ^ n) q
  let psiInv := modInvD psi q
  let pts := (List.range (2 ^ n)).map fun i => v.getD (revBits n i) 0
  (List.range (2 ^ n)).map fun j =>
    ninv * (powMod psiInv j q * evalPoly q (powMod psiInv (2 * j) q) pts % q) % q

/-- The forward NTT of a limb (R106, R48). -/
def nttLimb (q n : Nat) (a : Limb) : Limb := nttWith q n (psiOf q n) a

/-- The inverse NTT of a limb (R106). -/
def inttLimb (q n : Nat) (v : Limb) : Limb := inttWith q n (psiOf q n) v

/-- The automorphism X → X^g on coefficients (R107). -/
def autoCoef (q n g : Nat) (a : Limb) : Limb :=
  let nn := 2 ^ n
  let ginv := modInvD g (2 * nn)
  (List.range nn).map fun j =>
    let i := j * ginv % (2 * nn)
    if i < nn then a.getD i 0 else (q - a.getD (i - nn) 0) % q

/-- The automorphism X → X^g in the NTT domain (R107). -/
def autoNtt (n g : Nat) (a : Limb) : Limb :=
  (List.range (2 ^ n)).map fun k =>
    let e := (2 * revBits n k + 1) * g % (2 * 2 ^ n)
    a.getD (revBits n ((e - 1) / 2)) 0

/-- Lane operations, position by position (R105). -/
def limbAdd (q : Nat) (a b : Limb) : Limb := List.zipWith (fun x y => (x + y) % q) a b
/-- Subtraction (R105). -/
def limbSub (q : Nat) (a b : Limb) : Limb := List.zipWith (fun x y => subMod x y q) a b
/-- Multiplication (R40, R105). -/
def limbMul (q : Nat) (a b : Limb) : Limb := List.zipWith (fun x y => x * y % q) a b
/-- Negation (R105). -/
def limbNeg (q : Nat) (a : Limb) : Limb := a.map fun x => (q - x) % q
/-- Multiplication by a constant (R105). -/
def limbScale (q c : Nat) (a : Limb) : Limb := a.map fun x => x * c % q
/-- A limb of zeros. -/
def limbZero (n : Nat) : Limb := List.replicate (2 ^ n) 0
/-- The sum of limbs. -/
def limbSum (q n : Nat) (l : List Limb) : Limb := l.foldl (limbAdd q) (limbZero n)

/-- The conversion of R109 in the coefficient domain: source limbs with their primes, to one target prime. -/
def convLimb (n : Nat) (src : List (Nat × Limb)) (p : Nat) : Limb :=
  let qs := src.foldl (fun a x => a * x.1) 1
  let terms := src.map fun (q, x) =>
    let h := qs / q
    x.map fun v => (v * modInvD (h % q) q % q) * (h % p) % p
  limbSum p n terms

/-- Residues packed two to nine bytes (R46). -/
def packPairs : Limb → List Byte
  | x :: y :: t => leBytes 9 (x % 2 ^ 36 + (y % 2 ^ 36) * 2 ^ 36) ++ packPairs t
  | [x] => leBytes 9 (x % 2 ^ 36)
  | [] => []

/-- The residues of packed bytes (R46). -/
def unpackPairs (bs : List Byte) : Limb :=
  (chunks 9 bs).flatMap fun g => let v := leNat g; [v % 2 ^ 36, v / 2 ^ 36]

end Sys2Proof.Machine
end

