-- ==== Sys2Proof/Machine/Header.lean ====
section
/-! DEFINITION. The 64-byte object header (R50), the prime-chain descriptor (R43), and the level, scale and noise rules of
R57 to R61. -/

namespace Sys2Proof.Machine

/-! ### Headers (R50) -/

/-- The header of a ciphertext or plaintext object, field by field (R50). -/
structure Header where
  formatTag : Nat
  scheme : Nat
  parts : Nat
  logN : Nat
  level : Nat
  chainId : Nat
  paramSet : Nat
  keysetTag : Nat
  scale : Nat
  tIndex : Nat
  logSlots : Nat
  noise : Nat
  floor : Nat
  ntt : Bool
  seeded : Bool
  poisoned : Bool
  degraded : Bool
  share : Bool
  extended : Bool
  deriving DecidableEq, Repr

/-- A header whose fields are all zero. -/
def headerZero : Header :=
  ⟨0, 0, 0, 0, 0, 0, 0, 0, 0, 0, 0, 0, 0, false, false, false, false, false, false⟩

/-- The fields of a header's 64 bytes (R50). -/
def headerOfBytes (b : List Byte) : Header where
  formatTag := fieldAt b 0x00 2
  scheme := bitsOf (fieldAt b 0x02 1) 0 4
  parts := bitsOf (fieldAt b 0x02 1) 4 4
  logN := bitsOf (fieldAt b 0x03 1) 0 5
  level := fieldAt b 0x04 1
  chainId := fieldAt b 0x05 1
  paramSet := fieldAt b 0x06 2
  keysetTag := fieldAt b 0x08 8
  scale := fieldAt b 0x10 4
  tIndex := bitsOf (fieldAt b 0x14 1) 0 2
  logSlots := fieldAt b 0x15 1
  noise := fieldAt b 0x16 2
  floor := fieldAt b 0x18 2
  ntt := bitOf (fieldAt b 0x1A 2) 0
  seeded := bitOf (fieldAt b 0x1A 2) 1
  poisoned := bitOf (fieldAt b 0x1A 2) 2
  degraded := bitOf (fieldAt b 0x1A 2) 3
  share := bitOf (fieldAt b 0x1A 2) 4
  extended := bitOf (fieldAt b 0x1A 2) 5

/-- Bytes 0x00 to 0x3B of a header (R50). -/
def headerBody (h : Header) : List Byte :=
  leBytes 2 h.formatTag ++ leBytes 1 (h.scheme % 16 + 16 * h.parts) ++ leBytes 1 (h.logN % 32) ++
  leBytes 1 h.level ++ leBytes 1 h.chainId ++ leBytes 2 h.paramSet ++ leBytes 8 h.keysetTag ++
  leBytes 4 h.scale ++ leBytes 1 (h.tIndex % 4) ++ leBytes 1 h.logSlots ++ leBytes 2 h.noise ++
  leBytes 2 h.floor ++
  leBytes 2 (b2n h.ntt + 2 * b2n h.seeded + 4 * b2n h.poisoned + 8 * b2n h.degraded + 16 * b2n h.share
    + 32 * b2n h.extended) ++
  List.replicate 32 0

/-- The 64 bytes of a header, with a fresh HEADER_CHECK (R50, R51). -/
def headerBytes (h : Header) : List Byte :=
  let b := headerBody h
  b ++ leBytes 4 (crc32c b).toNat

/-- HEADER_CHECK is right and the reserved bits of R50 are zero (R51); for a ciphertext or plaintext header. -/
def headerSound (b : List Byte) : Bool :=
  fieldAt b 0x3C 4 == (crc32c (b.take 0x3C)).toNat && bitsOf (fieldAt b 0x03 1) 5 3 == 0 &&
  bitsOf (fieldAt b 0x14 1) 2 6 == 0 && bitsOf (fieldAt b 0x1A 2) 6 10 == 0 && allZero (bytesAt b 0x1C 0x20)

/-- FORMAT_TAG and PARTS agree (R50): one part in a plaintext, two or three in a ciphertext. -/
def headerForm (h : Header) : Bool :=
  (h.formatTag == 0xC701 && (h.parts == 2 || h.parts == 3)) || (h.formatTag == 0xC711 && h.parts == 1)

/-- Every field of a ciphertext or plaintext header lies within the range of R50. -/
def headerInRange (h : Header) : Bool :=
  headerForm h && (h.scheme == 1 || h.scheme == 2) && decide (12 ≤ h.logN ∧ h.logN ≤ 17) && decide (h.level ≤ 59) &&
  decide (h.chainId ≤ 63) && (h.scheme == 2 || h.tIndex == 0) && (h.scheme == 1 || decide (h.scale < 2 ^ 24))

/-- A ciphertext (FORMAT_TAG 0xC701). -/
def Header.isCt (h : Header) : Bool := h.formatTag == 0xC701

/-! ### Chain descriptors (R43 to R45) -/

/-- A registered chain descriptor: its 128 bytes and the fields that the rules use (R43). -/
structure Chain where
  raw : List Byte
  qCount : Nat
  pCount : Nat
  dnum : Nat
  chainId : Nat
  tList : List Nat
  qList : List Nat
  pList : List Nat
  deriving DecidableEq, Repr

/-- The fields of a chain descriptor (R43). -/
def chainOfBytes (b : List Byte) : Chain :=
  let qc := fieldAt b 0x02 1
  let pc := fieldAt b 0x03 1
  { raw := b, qCount := qc, pCount := pc, dnum := fieldAt b 0x04 1, chainId := fieldAt b 0x05 1,
    tList := (List.range 4).map fun i => bitsOf (fieldAt b (0x08 + 4 * i) 4) 0 25,
    qList := (bytesAt b 0x18 qc).map (·.toNat), pList := (bytesAt b 0x54 pc).map (·.toNat) }

/-- The descriptor meets R44, the table entry apart. -/
def chainSound (b : List Byte) : Bool :=
  let c := chainOfBytes b
  b.length == 128 && fieldAt b 0 2 == 0xC7C0 && fieldAt b 0x7C 4 == (crc32c (b.take 0x7C)).toNat &&
  fieldAt b 6 2 == 0 && allZero (bytesAt b 0x64 0x18) &&
  (List.range 4).all (fun i => bitsOf (fieldAt b (0x08 + 4 * i) 4) 25 7 == 0) &&
  decide (1 ≤ c.qCount ∧ c.qCount ≤ 60 ∧ c.pCount ≤ 16 ∧ 1 ≤ c.dnum ∧ c.dnum ≤ 8 ∧ c.chainId ≤ 63) &&
  (c.qList ++ c.pList).all (fun i => decide (i < 96)) && decide (c.qList ++ c.pList).Nodup &&
  (bytesAt b (0x18 + c.qCount) (60 - c.qCount)).all (· == 0xFF) &&
  (bytesAt b (0x54 + c.pCount) (16 - c.pCount)).all (· == 0xFF) &&
  decide (c.dnum ≤ c.qCount) && (c.pCount == 0 || decide (ceilDiv c.qCount c.dnum ≤ c.pCount)) &&
  c.tList.all (fun t => t == 0 || decide (2 ≤ t ∧ t ≤ 2 ^ 24))

/-- α of R45. -/
def Chain.alpha (c : Chain) : Nat := ceilDiv c.qCount c.dnum
/-- β at a level (R45). -/
def Chain.beta (c : Chain) (level : Nat) : Nat := ceilDiv (level + 1) c.alpha
/-- The limb indices of digit `j` in use at a level (R45). -/
def Chain.digit (c : Chain) (level j : Nat) : List Nat :=
  (List.range (level + 1)).filter fun i => decide (j * c.alpha ≤ i ∧ i < (j + 1) * c.alpha)

/-- The prime at a catalogue index, from the fused catalogue's D values (R38, R39). -/
def primeAt (cat : List Nat) (i : Nat) : Nat := primeOf (cat.getD i 0)

/-- The primes of Q limbs 0 to ℓ (R45). -/
def Chain.qPrimes (c : Chain) (cat : List Nat) (level : Nat) : List Nat := (c.qList.take (level + 1)).map (primeAt cat)
/-- The P primes. -/
def Chain.pPrimes (c : Chain) (cat : List Nat) : List Nat := c.pList.map (primeAt cat)
/-- The primes of an object's limb positions (R49). -/
def Chain.primes (c : Chain) (cat : List Nat) (level : Nat) (ext : Bool) : List Nat :=
  c.qPrimes cat level ++ (if ext then c.pPrimes cat else [])
/-- The plaintext modulus that T_INDEX selects (R43). -/
def Chain.t (c : Chain) (ix : Nat) : Nat := c.tList.getD ix 0

/-! ### The ledger (R58 to R60) -/

/-- The increment of R58. -/
def lsumInc (d : Nat) : Nat :=
  if d ≤ 15 then 16 else if d ≤ 31 then 10 else if d ≤ 47 then 6 else if d ≤ 63 then 3 else if d ≤ 79 then 2 else 1

/-- lsum of R58. -/
def lsum (x y : Int) : Int := Max.max x y + lsumInc (x - y).natAbs

/-- NOISE clamped to 0 to 0xFFFF (R59). -/
def clampNoise (x : Int) : Nat := if x < 0 then 0 else if x > 0xFFFF then 0xFFFF else x.toNat

/-- γ (chapter 2, "Levels, scale and the noise ledger"). -/
def gammaOf (n : Nat) : Int := 16 + 8 * n
/-- s = ⌈SCALE/16⌉. -/
def sOf (scale : Nat) : Int := ceilDiv scale 16
/-- τ = ⌈16·log2 t⌉. -/
def tauOf (t : Nat) : Int := clog16 t

/-- D of the key-switch term: the largest λ sum of a digit in use. -/
def digitLambda (c : Chain) (cat : List Nat) (level : Nat) : Nat :=
  ((List.range (c.beta level)).map fun j =>
    ((c.digit level j).map fun i => lambdaOf (primeAt cat (c.qList.getD i 0))).sum).foldl Nat.max 0

/-- The key-switch term K at a level. -/
def kOf (c : Chain) (cat : List Nat) (n level : Nat) : Int :=
  gammaOf n + 56 + clog16 (c.beta level) + (digitLambda c cat level : Int)
    - ((c.pPrimes cat).map lambdaOf).sum

/-- The NOISE of a key-switched object (R59). -/
def relinNoise (c : Chain) (cat : List Nat) (h : Header) : Int :=
  if h.scheme = 1 then lsum h.noise (kOf c cat h.logN h.level)
  else lsum h.noise (kOf c cat h.logN h.level + tauOf (c.t h.tIndex))

/-- The margin of R60. -/
def marginOf (c : Chain) (cat : List Nat) (h : Header) : Int :=
  if h.scheme = 1 then (h.scale / 16 : Nat) - (h.noise : Int)
  else (((c.qPrimes cat h.level).map lambdaOf).sum : Int) - 16 - h.noise

/-- The new NOISE: 0xFFFF where a source is saturated, else the clamped value (R59). -/
def newNoise (srcs : List Header) (x : Int) : Nat :=
  if srcs.any (fun h => h.noise == 0xFFFF) then 0xFFFF else clampNoise x

/-- FLOOR and DEGRADED of a result: in a ciphertext the largest FLOOR of the ciphertext sources, and whether the margin is
below it or a source is degraded (R60); FLOOR is zero in a plaintext (R50). -/
def settle (c : Chain) (cat : List Nat) (srcs : List Header) (h : Header) : Header :=
  let h := { h with seeded := false, poisoned := false }
  if h.isCt then
    let fl := ((srcs.filter (·.isCt)).map (·.floor)).foldl Nat.max 0
    let h := { h with floor := fl }
    { h with degraded := decide (marginOf c cat h < (fl : Int)) || srcs.any (·.degraded) }
  else { h with floor := 0, degraded := srcs.any (·.degraded) }

end Sys2Proof.Machine
end

