-- ==== Sys2Proof/Machine/Poly.lean ====
section
/-! DEFINITION. What the cluster operations compute on the residues of objects (R117 to R130, R523): an object is its header
and, for each part, its limbs in the layout order of R49. -/

namespace Sys2Proof.Machine

/-- The limbs of an object: part by part, limb positions in order (R49). -/
abbrev PolyBody := List (List Limb)

/-- An object as the clusters see it. -/
structure Obj where
  hdr : Header
  body : PolyBody
  deriving DecidableEq, Repr

/-- The ring facts an operation needs: log2 N, the Q primes 0 to ℓ, the P primes, α and t. -/
structure RingCtx where
  n : Nat
  qs : List Nat
  ps : List Nat
  alpha : Nat
  t : Nat
  deriving DecidableEq, Repr

/-- The ring of an object's header in its chain. -/
def ringCtx (c : Chain) (cat : List Nat) (h : Header) : RingCtx :=
  { n := h.logN, qs := c.qPrimes cat h.level, ps := c.pPrimes cat, alpha := c.alpha, t := c.t h.tIndex }

/-- The primes of an object's limb positions. -/
def RingCtx.primes (r : RingCtx) (ext : Bool) : List Nat := r.qs ++ (if ext then r.ps else [])

/-- Apply a lane operation to each limb under its prime. -/
def mapLimbs (ps : List Nat) (f : Nat → Limb → Limb) (b : PolyBody) : PolyBody := b.map fun p => List.zipWith f ps p

/-- Apply a two-operand lane operation to each limb under its prime. -/
def zipLimbs (ps : List Nat) (f : Nat → Limb → Limb → Limb) (a b : PolyBody) : PolyBody :=
  List.zipWith (fun pa pb => List.zipWith (fun q xy => f q xy.1 xy.2) ps (pa.zip pb)) a b

/-- Part `i` of a body. -/
def partOf (b : PolyBody) (i : Nat) : List Limb := b.getD i []

/-- Plaintext multiply: every part by the one plaintext part (R117). -/
def ptMul (ps : List Nat) (ct : PolyBody) (pt : List Limb) : PolyBody :=
  ct.map fun p => List.zipWith (fun q xy => limbMul q xy.1 xy.2) ps (p.zip pt)

/-- Ciphertext multiply, two parts by two to three (R117). -/
def ctMul (ps : List Nat) (a b : PolyBody) : PolyBody :=
  let mul (x y : List Limb) := List.zipWith (fun q xy => limbMul q xy.1 xy.2) ps (x.zip y)
  let sum (x y : List Limb) := List.zipWith (fun q xy => limbAdd q xy.1 xy.2) ps (x.zip y)
  [mul (partOf a 0) (partOf b 0),
   sum (mul (partOf a 0) (partOf b 1)) (mul (partOf a 1) (partOf b 0)),
   mul (partOf a 1) (partOf b 1)]

/-- CKKS rescale (R118): the top limb, reduced and transformed, is subtracted and the difference divided by q_top. -/
def rescaleBody (r : RingCtx) (b : PolyBody) : PolyBody :=
  let qt := r.qs.getLastD 1
  b.map fun p =>
    let top := inttLimb qt r.n (p.getLastD [])
    List.zipWith (fun q x => limbScale q (modInvD (qt % q) q) (limbSub q x (nttLimb q r.n (top.map (· % q)))))
      r.qs.dropLast p

/-- δ of a BGV mod-switch for one top residue (R118). -/
def modSwitchDelta (qt t x : Nat) : Int :=
  let xc := centred x qt
  let k := centred (imod (-(xc * (modInvD (qt % t) t : Int))) t) t
  xc + k * qt

/-- BGV mod-switch (R118). -/
def modSwitchBody (r : RingCtx) (b : PolyBody) : PolyBody :=
  let qt := r.qs.getLastD 1
  b.map fun p =>
    let top := (inttLimb qt r.n (p.getLastD [])).map (modSwitchDelta qt r.t)
    List.zipWith (fun q x => limbScale q (modInvD (qt % q) q) (limbSub q x (nttLimb q r.n (top.map fun d => imod d q))))
      r.qs.dropLast p

/-- Level drop to ℓ' (R117): Q limbs 0 to ℓ' of each part, and every P limb of an extended object. -/
def levelDropBody (r : RingCtx) (l' : Nat) (b : PolyBody) : PolyBody :=
  b.map fun p => p.take (l' + 1) ++ p.drop r.qs.length

/-- Standalone basis conversion between limb positions (R523). -/
def basisConvBody (r : RingCtx) (ext : Bool) (src tgt : List Nat) (b : PolyBody) : PolyBody :=
  let ps := r.primes ext
  b.map fun p =>
    let s := src.map fun i => (ps.getD i 1, p.getD i [])
    (List.range p.length).map fun i =>
      if tgt.contains i then convLimb r.n s (ps.getD i 1) else p.getD i []

/-- Limb `i` of ENCODE (R119): the mapped coefficients modulo its prime, transformed if asked. -/
def encodeBody (ps : List Nat) (n t : Nat) (bgv ntt : Bool) (coeffs : List Int) : PolyBody :=
  let mapped := if bgv then coeffs.map fun w => centred (imod w t) t else coeffs
  [ps.map fun q => let l := mapped.map fun w => imod w q; if ntt then nttLimb q n l else l]

/-- DECODE of limb 0 (R120): centred coefficients. -/
def decodeCoeffs (q0 n : Nat) (ntt : Bool) (l : Limb) : List Int :=
  (if ntt then inttLimb q0 n l else l).map fun x => centred x q0

/-! ### The key-switching macro (R124) -/

/-- The digits' limb positions at a level: α at a time (R45). -/
def RingCtx.digits (r : RingCtx) : List (List Nat) := chunks r.alpha (List.range r.qs.length)

/-- Phase 2: one extended digit, from the NTT limbs and their coefficient copies (R124, R126). -/
def extendDigit (r : RingCtx) (d coef : List Limb) (digit : List Nat) : List Limb :=
  let s := digit.map fun i => (r.qs.getD i 1, coef.getD i [])
  let ps := r.primes true
  (List.range ps.length).map fun i =>
    if digit.contains i then d.getD i []
    else nttLimb (ps.getD i 1) r.n (convLimb r.n s (ps.getD i 1))

/-- Phases 1 and 2: every extended digit of a polynomial in the NTT domain. -/
def modUpDigits (r : RingCtx) (d : List Limb) : List (List Limb) :=
  let coef := List.zipWith (fun q x => inttLimb q r.n x) r.qs d
  r.digits.map (extendDigit r d coef)

/-- One digit of a key: its b limbs and a limbs over the Q limbs in use and the P limbs. -/
abbrev KeyDigit := List Limb × List Limb

/-- Phase 3: the inner products with the key's digits (R124, R126). -/
def innerProduct (r : RingCtx) (ds : List (List Limb)) (key : List KeyDigit) : List Limb × List Limb :=
  let ps := r.primes true
  let dot (sel : KeyDigit → List Limb) := (List.range ps.length).map fun i =>
    let q := ps.getD i 1
    limbSum q r.n ((ds.zip key).map fun dk => limbMul q (dk.1.getD i []) ((sel dk.2).getD i []))
  (dot (·.1), dot (·.2))

/-- Phases 4a to 4c for one polynomial: (y_Q - conv(y_P))·P^(-1) (R124, R126). -/
def modDownPart (r : RingCtx) (y : List Limb) : List Limb :=
  let yp := (r.ps.zip (y.drop r.qs.length)).map fun (p, x) => (p, inttLimb p r.n x)
  let pp := r.ps.foldl (· * ·) 1
  List.zipWith (fun q x => limbScale q (modInvD (pp % q) q) (limbSub q x (nttLimb q r.n (convLimb r.n yp q)))) r.qs y

/-- The key switch of one polynomial (R124). -/
def keySwitch (r : RingCtx) (key : List KeyDigit) (d : List Limb) : List Limb × List Limb :=
  let s := innerProduct r (modUpDigits r d) key
  (modDownPart r s.1, modDownPart r s.2)

/-- Limb-wise sum of two parts over the Q limbs. -/
def addParts (r : RingCtx) (a b : List Limb) : List Limb :=
  List.zipWith (fun q xy => limbAdd q xy.1 xy.2) r.qs (a.zip b)

/-- RELINEARISE (R124): three parts to two. -/
def relinBody (r : RingCtx) (key : List KeyDigit) (b : PolyBody) : PolyBody :=
  let k := keySwitch r key (partOf b 2)
  [addParts r (partOf b 0) k.1, addParts r (partOf b 1) k.2]

/-- ROTATE and CONJUGATE (R127): (c0^g + k0, k1). -/
def rotateBody (r : RingCtx) (g : Nat) (key : List KeyDigit) (b : PolyBody) : PolyBody :=
  let k := keySwitch r key ((partOf b 1).map (autoNtt r.n g))
  [addParts r ((partOf b 0).map (autoNtt r.n g)) k.1, k.2]

/-- One term of HROT_SUM: Galois element, the plaintext's limbs over Q and P, the key's digits (unused when g = 1). -/
structure HrotTerm where
  g : Nat
  pt : List Limb
  key : List KeyDigit
  deriving DecidableEq, Repr

/-- HROT_SUM (R130): the sums of the rotating terms in the extended basis, brought down once, and the Q-basis accumulator. -/
def hrotSumBody (r : RingCtx) (terms : List HrotTerm) (b : PolyBody) : PolyBody :=
  let ps := r.primes true
  let ds := modUpDigits r (partOf b 1)
  let mulPt (qs : List Nat) (x pt : List Limb) := List.zipWith (fun q xy => limbMul q xy.1 xy.2) qs (x.zip pt)
  let add (qs : List Nat) (x y : List Limb) := List.zipWith (fun q xy => limbAdd q xy.1 xy.2) qs (x.zip y)
  let zero (qs : List Nat) : List Limb := qs.map fun _ => limbZero r.n
  let rot := terms.filter fun t => t.g != 1
  let ids := terms.filter fun t => t.g == 1
  let ext (sel : List Limb × List Limb → List Limb) := rot.foldl (fun acc t =>
    add ps acc (mulPt ps (sel (innerProduct r (ds.map fun d => d.map (autoNtt r.n t.g)) t.key)) t.pt)) (zero ps)
  let acc0 := rot.foldl (fun acc t => add r.qs acc (mulPt r.qs ((partOf b 0).map (autoNtt r.n t.g)) t.pt)) (zero r.qs)
  let idp (p : Nat) := ids.foldl (fun acc t => add r.qs acc (mulPt r.qs (partOf b p) t.pt)) (zero r.qs)
  let k0 := if rot.isEmpty then zero r.qs else modDownPart r (ext (·.1))
  let k1 := if rot.isEmpty then zero r.qs else modDownPart r (ext (·.2))
  [addParts r (addParts r acc0 (idp 0)) k0, addParts r (idp 1) k1]

/-- MODUP of every part: one digit, or the P limbs from all Q limbs (R126). -/
def modUpBody (r : RingCtx) (j : Option Nat) (b : PolyBody) : PolyBody :=
  b.map fun p =>
    let coef := List.zipWith (fun q x => inttLimb q r.n x) r.qs p
    match j with
    | some j => extendDigit r p coef (r.digits.getD j [])
    | none => extendDigit r p coef (List.range r.qs.length)

/-- The bytes of one row of a limb: 64 residues (R47). -/
def limbRows (l : Limb) : List (List Byte) := chunks 288 (packPairs l)

/-- The rows an object takes after its header row: N/64 rows for each limb of each part (R49). -/
def objRows (h : Header) (pCount : Nat) : Nat :=
  1 + h.parts * (h.level + 1 + if h.extended then pCount else 0) * (2 ^ h.logN / 64)

/-- The rows of a seeded ciphertext as stored (R54). -/
def seededRows (h : Header) : Nat := 1 + (h.level + 1) * (2 ^ h.logN / 64) + 1

/-- The bytes of an object's limbs, row for row from row 1 (R47, R49). -/
def bodyBytes (b : PolyBody) : List Byte := b.flatMap fun p => p.flatMap packPairs

/-- The limbs of an object from its bytes after row 0: `parts` parts of `limbs` limbs of 2^n residues. -/
def bodyOfBytes (parts limbs n : Nat) (bs : List Byte) : PolyBody :=
  let lb := 2 ^ n / 64 * 288
  (List.range parts).map fun p => (List.range limbs).map fun i =>
    unpackPairs (bytesAt bs ((p * limbs + i) * lb) lb)

end Sys2Proof.Machine
end

