-- ==== Sys2Proof/Machine/Costs.lean ====
section
/-! DEFINITION. The occupancy formulas of the polynomial clusters in ac (R106 to R131), with the key class unthrottled (φ = 1)
and no issue limit: an operation in flight records its time, which nothing else in the model depends on (log 15). -/

namespace Sys2Proof.Machine

/-- E: one lane operation over every residue of a limb. -/
def costE (n : Nat) : Nat := 2 ^ n / 512
/-- C: one limb transform (R106). -/
def costC (n : Nat) : Nat := 2 ^ n * n / 1024
/-- F: one limb through a port. -/
def costF (n : Nat) : Nat := 2 ^ n / 64
/-- T of R116 for `k` limb positions on `m` clusters. -/
def costT (k m c r w : Nat) : Nat := ceilDiv k m * Nat.max c (Nat.max r w)

/-- What the key-switch formulas need: log2 N, L', p, α, clusters, and the port charges of source and destination (F, or 0
where it lies in the cluster buffer, R116). -/
structure KsCost where
  n : Nat
  l : Nat
  p : Nat
  alpha : Nat
  m : Nat
  fs : Nat
  fd : Nat

/-- The sizes of the digits in use (R45). -/
def KsCost.digits (k : KsCost) : List Nat := (chunks k.alpha (List.range k.l)).map (·.length)
/-- β. -/
def KsCost.beta (k : KsCost) : Nat := ceilDiv k.l k.alpha
/-- u of R124. -/
def KsCost.u (k : KsCost) : Nat := k.beta * (k.l + k.p) - k.l
/-- Limbs spilled per cluster for a need of `w` limbs (R125). -/
def KsCost.spill (k : KsCost) (w : Nat) : Nat := w - 2 ^ 20 / 2 ^ k.n
/-- Buffer need of the macro (R125). -/
def KsCost.need (k : KsCost) : Nat := 2 * ceilDiv k.l k.m + ceilDiv k.u k.m
/-- Buffer need of HROT (R129). -/
def KsCost.needHrot (k : KsCost) : Nat := ceilDiv k.l k.m + ceilDiv k.u k.m + 2 * ceilDiv (k.l + k.p) k.m
/-- Buffer need of HROT_SUM (R130). -/
def KsCost.needSum (k : KsCost) : Nat := k.needHrot + 2 * ceilDiv k.l k.m + 2 * ceilDiv (k.l + k.p) k.m

/-- Phase 1 (R124). -/
def KsCost.phase1 (k : KsCost) : Nat := ceilDiv k.l k.m * Nat.max (costC k.n) k.fs
/-- The largest per-cluster sum of charges dealt out in order (R114, R124). -/
def dealtMax (m : Nat) (cs : List Nat) : Nat :=
  ((List.range m).map fun i => ((cs.zipIdx.filter fun x => x.2 % m == i).map (·.1)).sum).foldl Nat.max 0
/-- Phase 2 with `e` spilled limbs (R124, R125): each target at the size of its own digit. -/
def KsCost.phase2 (k : KsCost) (e : Nat) : Nat :=
  let cs := k.digits.flatMap fun a => List.replicate (k.l + k.p - a) (Nat.max (costC k.n) (2 ^ k.n * a / 256))
  Nat.max (dealtMax k.m cs) (Nat.max (ceilDiv (k.l * costF k.n) 4) (e * costF k.n))
/-- Time of the key stream of one inner product. -/
def KsCost.stream (k : KsCost) : Nat := ceilDiv (k.beta * (k.l + k.p) * 2 ^ k.n) (64 * 30)
/-- Phase 3. -/
def KsCost.phase3 (k : KsCost) (e : Nat) : Nat :=
  Nat.max (Nat.max (ceilDiv (k.l + k.p) k.m * (2 * k.beta * costE k.n)) k.stream) (e * costF k.n)
/-- Phases 4a to 4c for `j` sums (R124, R126). -/
def KsCost.phase4 (k : KsCost) (j : Nat) : Nat :=
  ceilDiv (j * k.p) k.m * costC k.n +
  Nat.max (ceilDiv (j * k.l) k.m * Nat.max (costC k.n) (2 ^ k.n * k.p / 256)) (ceilDiv (j * k.p * costF k.n) 4) +
  ceilDiv (j * k.l) k.m * Nat.max (3 * costE k.n) (Nat.max k.fs k.fd)
/-- RELINEARISE, ROTATE and CONJUGATE (R124, R127), without the separate permutation pass. -/
def KsCost.total (k : KsCost) : Nat :=
  let e := k.spill k.need
  k.phase1 + k.phase2 e + k.phase3 e + k.phase4 2
/-- The separate permutation pass of R108: N/256 ac for each limb of a part that has more than 48, at N = 2^17. -/
def permutePass (n limbs : Nat) : Nat := if n = 17 ∧ 48 < limbs then limbs * (2 ^ n / 256) else 0
/-- HROT with given counts of rotating and identity outputs (R129). -/
def KsCost.hrot (k : KsCost) (rot ids : Nat) : Nat :=
  let e := k.spill k.needHrot
  k.phase1 + k.phase2 e + rot * (k.phase3 e + k.phase4 2) + ids * (ceilDiv (2 * k.l) k.m * Nat.max k.fs k.fd)
/-- HROT_SUM with given counts of rotating and identity terms (R130). -/
def KsCost.hrotSum (k : KsCost) (rot ids : Nat) : Nat :=
  let e := k.spill k.needSum
  let arr := (2 * ceilDiv (k.l + k.p) k.m + ceilDiv k.l k.m) * (2 ^ k.n / 256)
  let term := Nat.max (k.phase3 e) (Nat.max arr (ceilDiv (k.l + k.p) k.m * costF k.n))
  k.phase1 + k.phase2 e + rot * term + ids * (ceilDiv (2 * (k.l + k.p)) k.m * costE k.n) + k.phase4 2
/-- MODUP of `parts` parts of digit size `a` (R126). -/
def KsCost.modUp (k : KsCost) (parts a : Nat) : Nat :=
  let u := k.l + k.p - a
  ceilDiv (parts * k.l) k.m * Nat.max (costC k.n) k.fs +
  Nat.max (ceilDiv (parts * u) k.m * Nat.max (costC k.n) (2 ^ k.n * a / 256)) (ceilDiv (parts * k.l * costF k.n) 4)
/-- Rescale and mod-switch (R118), `extra` lane operations per remaining limb. -/
def costRescale (n parts level m extra fs fd : Nat) : Nat :=
  ceilDiv parts m * Nat.max (costC n) fs + ceilDiv (parts * costF n) 4 +
  ceilDiv (parts * level) m * Nat.max (costC n + extra * costE n) (Nat.max fs fd)

end Sys2Proof.Machine
end

