-- ==== Sys2Proof/Machine/Crypto.lean ====
section
/-! DEFINITION. The cryptographic functions that the spec names by their standards: SHA-256, HMAC, HKDF, the SP 800-108 KDF,
SHAKE128, AES-256-GCM and the curves P-256 and P-384, on byte lists. -/

namespace Sys2Proof.Machine

/-! ### SHA-256 (FIPS 180-4) -/

/-- The round constants of SHA-256. -/
def sha256K : List W32 :=
  [0x428A2F98, 0x71374491, 0xB5C0FBCF, 0xE9B5DBA5, 0x3956C25B, 0x59F111F1, 0x923F82A4, 0xAB1C5ED5,
   0xD807AA98, 0x12835B01, 0x243185BE, 0x550C7DC3, 0x72BE5D74, 0x80DEB1FE, 0x9BDC06A7, 0xC19BF174] ++
  [0xE49B69C1, 0xEFBE4786, 0x0FC19DC6, 0x240CA1CC, 0x2DE92C6F, 0x4A7484AA, 0x5CB0A9DC, 0x76F988DA,
   0x983E5152, 0xA831C66D, 0xB00327C8, 0xBF597FC7, 0xC6E00BF3, 0xD5A79147, 0x06CA6351, 0x14292967] ++
  [0x27B70A85, 0x2E1B2138, 0x4D2C6DFC, 0x53380D13, 0x650A7354, 0x766A0ABB, 0x81C2C92E, 0x92722C85,
   0xA2BFE8A1, 0xA81A664B, 0xC24B8B70, 0xC76C51A3, 0xD192E819, 0xD6990624, 0xF40E3585, 0x106AA070] ++
  [0x19A4C116, 0x1E376C08, 0x2748774C, 0x34B0BCB5, 0x391C0CB3, 0x4ED8AA4A, 0x5B9CCA4F, 0x682E6FF3,
   0x748F82EE, 0x78A5636F, 0x84C87814, 0x8CC70208, 0x90BEFFFA, 0xA4506CEB, 0xBEF9A3F7, 0xC67178F2]

/-- The initial hash value of SHA-256. -/
def sha256H : List W32 :=
  [0x6A09E667, 0xBB67AE85, 0x3C6EF372, 0xA54FF53A, 0x510E527F, 0x9B05688C, 0x1F83D9AB, 0x5BE0CD19]

/-- Rotate right. -/
def rotr32 (x : W32) (n : Nat) : W32 := (x >>> n) ||| (x <<< (32 - n))

/-- The message schedule from its first 16 words, newest first; `f` words are still to come. -/
def sha256Extend : Nat → List W32 → List W32
  | 0, w => w
  | f + 1, w =>
    let w2 := w.getD 1 0
    let w7 := w.getD 6 0
    let w15 := w.getD 14 0
    let w16 := w.getD 15 0
    let s0 := rotr32 w15 7 ^^^ rotr32 w15 18 ^^^ (w15 >>> 3)
    let s1 := rotr32 w2 17 ^^^ rotr32 w2 19 ^^^ (w2 >>> 10)
    sha256Extend f ((w16 + s0 + w7 + s1) :: w)

/-- The eight working words of SHA-256. -/
structure ShaState where
  a : W32
  b : W32
  c : W32
  d : W32
  e : W32
  f : W32
  g : W32
  h : W32
  deriving DecidableEq, Repr

/-- One round. -/
def sha256Round (s : ShaState) (kw : W32 × W32) : ShaState :=
  let s1 := rotr32 s.e 6 ^^^ rotr32 s.e 11 ^^^ rotr32 s.e 25
  let ch := (s.e &&& s.f) ^^^ (~~~s.e &&& s.g)
  let t1 := s.h + s1 + ch + kw.1 + kw.2
  let s0 := rotr32 s.a 2 ^^^ rotr32 s.a 13 ^^^ rotr32 s.a 22
  let mj := (s.a &&& s.b) ^^^ (s.a &&& s.c) ^^^ (s.b &&& s.c)
  { a := t1 + (s0 + mj), b := s.a, c := s.b, d := s.c, e := s.d + t1, f := s.e, g := s.f, h := s.g }

/-- The working words as a list. -/
def ShaState.words (s : ShaState) : List W32 := [s.a, s.b, s.c, s.d, s.e, s.f, s.g, s.h]
/-- The working words from a list. -/
def shaOfWords (l : List W32) : ShaState :=
  ⟨l.getD 0 0, l.getD 1 0, l.getD 2 0, l.getD 3 0, l.getD 4 0, l.getD 5 0, l.getD 6 0, l.getD 7 0⟩

/-- One 64-byte block. -/
def sha256Block (h : List W32) (blk : List Byte) : List W32 :=
  let w16 := (chunks 4 blk).map fun b => BitVec.ofNat 32 (beNat b)
  let w := (sha256Extend 48 w16.reverse).reverse
  let s := (sha256K.zip w).foldl sha256Round (shaOfWords h)
  List.zipWith (· + ·) h s.words

/-- SHA-256. -/
def sha256 (m : List Byte) : List Byte :=
  let l := m.length
  let padded := m ++ [0x80] ++ List.replicate ((119 - l % 64) % 64) 0 ++ beBytes 8 (8 * l)
  ((chunks 64 padded).foldl sha256Block sha256H).flatMap fun w => beBytes 4 w.toNat

/-- HMAC-SHA-256 (FIPS 198-1). -/
def hmac (key m : List Byte) : List Byte :=
  let k := if key.length > 64 then sha256 key else key
  let k := k ++ List.replicate (64 - k.length) 0
  sha256 (k.map (· ^^^ 0x5C) ++ sha256 (k.map (· ^^^ 0x36) ++ m))

/-- HKDF-SHA-256 with one 32-byte output block (RFC 5869). -/
def hkdf32 (salt ikm info : List Byte) : List Byte := hmac (hmac salt ikm) (info ++ [1])

/-- The SP 800-108 KDF in counter mode with HMAC-SHA-256: `bits` of output (R421). -/
def kdfCounter (key label ctx : List Byte) (bits : Nat) : List Byte :=
  ((List.range (ceilDiv bits 256)).flatMap fun i =>
    hmac key (beBytes 4 (i + 1) ++ label ++ [0] ++ ctx ++ beBytes 4 bits)).take (bits / 8)

/-- The chunk digest of R439. -/
def chunkDigest (x : List Byte) : List Byte := sha256 ((chunks 4096 x).flatMap sha256)

/-! ### SHAKE128 (FIPS 202) -/

/-- The round constants of Keccak-f[1600]. -/
def keccakRC : List W64 :=
  [0x0000000000000001, 0x0000000000008082, 0x800000000000808A, 0x8000000080008000,
   0x000000000000808B, 0x0000000080000001, 0x8000000080008081, 0x8000000000008009,
   0x000000000000008A, 0x0000000000000088, 0x0000000080008009, 0x000000008000000A,
   0x000000008000808B, 0x800000000000008B, 0x8000000000008089, 0x8000000000008003] ++
  [0x8000000000008002, 0x8000000000000080, 0x000000000000800A, 0x800000008000000A,
   0x8000000080008081, 0x8000000000008080, 0x0000000080000001, 0x8000000080008008]

/-- Rotate left. -/
def rotl64 (x : W64) (n : Nat) : W64 := if n % 64 = 0 then x else (x <<< (n % 64)) ||| (x >>> (64 - n % 64))

/-- The rotation offset of lane (x, y), from the triangular walk of FIPS 202. -/
def keccakRhoGo : Nat → Nat → Nat → Nat → Nat → Nat → Nat
  | 0, _, _, _, _, _ => 0
  | f + 1, t, x, y, tx, ty =>
    if x = tx ∧ y = ty then (t + 1) * (t + 2) / 2 % 64
    else keccakRhoGo f (t + 1) y ((2 * x + 3 * y) % 5) tx ty

/-- The rotation offset of lane (x, y). -/
def keccakRho (x y : Nat) : Nat := if x = 0 ∧ y = 0 then 0 else keccakRhoGo 24 0 1 0 x y

/-- One round of Keccak-f[1600] on 25 lanes, lane (x, y) at 5y + x. -/
def keccakRound (a : List W64) (rc : W64) : List W64 :=
  let at_ (l : List W64) (x y : Nat) : W64 := l.getD (5 * (y % 5) + x % 5) 0
  let c := (List.range 5).map fun x => (List.range 5).foldl (fun v y => v ^^^ at_ a x y) 0
  let d := (List.range 5).map fun x => c.getD ((x + 4) % 5) 0 ^^^ rotl64 (c.getD ((x + 1) % 5) 0) 1
  let t := (List.range 25).map fun i => a.getD i 0 ^^^ d.getD (i % 5) 0
  -- rho and pi: B(y, 2x + 3y) = rot(A(x, y)); so B(X, Y) comes from x = X + 3Y, y = X
  let b := (List.range 25).map fun i =>
    let bx := i % 5
    let by_ := i / 5
    let x := (bx + 3 * by_) % 5
    rotl64 (at_ t x bx) (keccakRho x bx)
  let e := (List.range 25).map fun i =>
    let x := i % 5
    let y := i / 5
    at_ b x y ^^^ (~~~(at_ b (x + 1) y) &&& at_ b (x + 2) y)
  match e with
  | h :: r => (h ^^^ rc) :: r
  | [] => []

/-- Keccak-f[1600]. -/
def keccakF (a : List W64) : List W64 := keccakRC.foldl keccakRound a

/-- Absorb one 168-byte block. -/
def shakeAbsorb (a : List W64) (blk : List Byte) : List W64 :=
  let w := (chunks 8 blk).map fun b => BitVec.ofNat 64 (leNat b)
  keccakF ((List.range 25).map fun i => a.getD i 0 ^^^ w.getD i 0)

/-- The first 168 bytes of the state. -/
def shakeOut (a : List W64) : List Byte := (a.take 21).flatMap fun w => leBytes 8 w.toNat

/-- The state after absorbing an input with the SHAKE padding. -/
def shakeInit (m : List Byte) : List W64 :=
  let z := (167 - m.length % 168)
  let padded := if z = 0 then m ++ [0x9F] else m ++ [0x1F] ++ List.replicate (z - 1) 0 ++ [0x80]
  (chunks 168 padded).foldl shakeAbsorb (List.replicate 25 0)

/-- `n` blocks of output. -/
def shakeBlocks : Nat → List W64 → List Byte
  | 0, _ => []
  | n + 1, a => shakeOut a ++ shakeBlocks n (keccakF a)

/-- The first `n` bytes of SHAKE128. -/
def shake128 (m : List Byte) (n : Nat) : List Byte := (shakeBlocks (n / 168 + 1) (shakeInit m)).take n

/-- The accepted candidates of R71 from XOF bytes. -/
def acceptResidues (q : Nat) (bs : List Byte) : List Nat :=
  ((chunks 9 bs).flatMap fun g => let v := leNat g; [v % 2 ^ 36, v / 2 ^ 36]).filter (· < q)

/-- Draw blocks of output until `n` residues are accepted; `f` bounds the blocks (log 19). -/
def expandGo (q n : Nat) : Nat → List W64 → List Byte → List Byte
  | 0, _, acc => acc
  | f + 1, a, acc =>
    if (acceptResidues q (acc.take (acc.length / 9 * 9))).length ≥ n then acc
    else expandGo q n f (keccakF a) (acc ++ shakeOut a)

/-- The seeded expansion of R70 and R71: `n` residues below `q`. -/
def seedExpand (seed : List Byte) (keyIndex digit code q n : Nat) : List Nat :=
  let inp := bytesAt seed 0 32 ++ leBytes 4 keyIndex ++ leBytes 1 digit ++ leBytes 1 code
  let bs := expandGo q n (n + 2) (shakeInit inp) []
  let r := (acceptResidues q (bs.take (bs.length / 9 * 9))).take n
  r ++ List.replicate (n - r.length) 0

/-! ### AES-256 and GCM (FIPS 197, SP 800-38D) -/

/-- Multiply by x in GF(2^8). -/
def xtime (b : Byte) : Byte := (b <<< 1) ^^^ (if b.getLsbD 7 then 0x1B else 0)

/-- Multiply in GF(2^8). -/
def gmul8 (a b : Byte) : Byte :=
  ((List.range 8).foldl (fun (p : Byte × Byte) i => (if b.getLsbD i then p.1 ^^^ p.2 else p.1, xtime p.2)) (0, a)).1

/-- a^254, the inverse in GF(2^8). -/
def ginv8 (a : Byte) : Byte :=
  let a2 := gmul8 a a
  let a4 := gmul8 a2 a2
  let a8 := gmul8 a4 a4
  let a16 := gmul8 a8 a8
  let a32 := gmul8 a16 a16
  let a64 := gmul8 a32 a32
  let a128 := gmul8 a64 a64
  gmul8 a128 (gmul8 a64 (gmul8 a32 (gmul8 a16 (gmul8 a8 (gmul8 a4 a2)))))

/-- The S-box. -/
def sbox (a : Byte) : Byte :=
  let b := ginv8 a
  b ^^^ b.rotateLeft 1 ^^^ b.rotateLeft 2 ^^^ b.rotateLeft 3 ^^^ b.rotateLeft 4 ^^^ 0x63

/-- The key words of AES-256, newest first, from its eight key words; `f` words are still to come, `i` is the next index. -/
def aesExpandGo : Nat → Nat → Byte → List (List Byte) → List (List Byte)
  | 0, _, _, w => w
  | f + 1, i, rc, w =>
    let t := w.headD []
    let old := w.getD 7 []
    let t' := if i % 8 = 0 then
        match t with
        | a :: r => match (r ++ [a]).map sbox with
          | x :: y => (x ^^^ rc) :: y
          | [] => []
        | [] => []
      else if i % 8 = 4 then t.map sbox else t
    aesExpandGo f (i + 1) (if i % 8 = 0 then xtime rc else rc) (List.zipWith (· ^^^ ·) old t' :: w)

/-- The fifteen round keys of AES-256. -/
def aesKeys (key : List Byte) : List (List Byte) :=
  let w := (aesExpandGo 52 8 1 (chunks 4 key).reverse).reverse
  (chunks 4 w).map List.flatten

/-- ShiftRows on a column-major state. -/
def shiftRows (s : List Byte) : List Byte := (List.range 16).map fun i => s.getD ((i + 4 * (i % 4)) % 16) 0

/-- MixColumns. -/
def mixColumns (s : List Byte) : List Byte :=
  (chunks 4 s).flatMap fun c =>
    let g (i : Nat) : Byte := c.getD (i % 4) 0
    (List.range 4).map fun i => xtime (g i) ^^^ (xtime (g (i + 1)) ^^^ g (i + 1)) ^^^ g (i + 2) ^^^ g (i + 3)

/-- Encrypt one block under expanded keys. -/
def aesBlock (ks : List (List Byte)) (b : List Byte) : List Byte :=
  let add (x y : List Byte) := List.zipWith (· ^^^ ·) x y
  let s := add b (ks.headD [])
  let s := ((ks.drop 1).take 13).foldl (fun s k => add (mixColumns (shiftRows (s.map sbox))) k) s
  add (shiftRows (s.map sbox)) (ks.getD 14 [])

/-- Multiply in GF(2^128), GCM's bit order (bit 0 is the most significant). -/
def ghashMul (x y : BitVec 128) : BitVec 128 :=
  ((List.range 128).foldl (fun (p : BitVec 128 × BitVec 128) i =>
    (if x.getLsbD (127 - i) then p.1 ^^^ p.2 else p.1,
     (p.2 >>> 1) ^^^ (if p.2.getLsbD 0 then (0xE1 : BitVec 128) <<< 120 else 0))) (0, y)).1

/-- GHASH of a byte string of whole blocks (the last is padded with zeros). -/
def ghash (h : BitVec 128) (m : List Byte) : BitVec 128 :=
  (chunks 16 m).foldl (fun y b =>
    ghashMul (y ^^^ BitVec.ofNat 128 (beNat (b ++ List.replicate (16 - b.length) 0))) h) 0

/-- Pad to a whole block. -/
def pad16 (m : List Byte) : List Byte := m ++ List.replicate ((16 - m.length % 16) % 16) 0

/-- The CTR keystream applied to a message, counters from `c`. -/
def gctr (ks : List (List Byte)) (iv : List Byte) (c : Nat) (m : List Byte) : List Byte :=
  ((chunks 16 m).zipIdx).flatMap fun bi => List.zipWith (· ^^^ ·) bi.1 (aesBlock ks (iv ++ beBytes 4 (c + bi.2)))

/-- The GCM tag of a ciphertext. -/
def gcmTag (ks : List (List Byte)) (iv aad ct : List Byte) : List Byte :=
  let h := BitVec.ofNat 128 (beNat (aesBlock ks (List.replicate 16 0)))
  let g := ghash h (pad16 aad ++ pad16 ct ++ beBytes 8 (8 * aad.length) ++ beBytes 8 (8 * ct.length))
  List.zipWith (· ^^^ ·) (beBytes 16 g.toNat) (aesBlock ks (iv ++ beBytes 4 1))

/-- AES-256-GCM sealing with a 96-bit IV: ciphertext and tag. -/
def gcmSeal (key iv aad m : List Byte) : List Byte × List Byte :=
  let ks := aesKeys key
  let c := gctr ks iv 2 m
  (c, gcmTag ks iv aad c)

/-- AES-256-GCM opening: the plaintext, or none where the tag is wrong. -/
def gcmOpen (key iv aad ct tag : List Byte) : Option (List Byte) :=
  let ks := aesKeys key
  if gcmTag ks iv aad ct = tag then some (gctr ks iv 2 ct) else none

/-! ### Elliptic curves (FIPS 186-5), y² = x³ - 3x + b -/

/-- A short Weierstrass curve with a = -3. -/
structure CurveParams where
  p : Nat
  b : Nat
  order : Nat
  gx : Nat
  gy : Nat
  words : Nat
  deriving DecidableEq, Repr

/-- P-256. -/
def p256 : CurveParams where
  p := 0xFFFFFFFF00000001000000000000000000000000FFFFFFFFFFFFFFFFFFFFFFFF
  b := 0x5AC635D8AA3A93E7B3EBBD55769886BC651D06B0CC53B0F63BCE3C3E27D2604B
  order := 0xFFFFFFFF00000000FFFFFFFFFFFFFFFFBCE6FAADA7179E84F3B9CAC2FC632551
  gx := 0x6B17D1F2E12C4247F8BCE6E563A440F277037D812DEB33A0F4A13945D898C296
  gy := 0x4FE342E2FE1A7F9B8EE7EB4A7C0F9E162BCE33576B315ECECBB6406837BF51F5
  words := 4

/-- P-384. -/
def p384 : CurveParams where
  p := 0xFFFFFFFFFFFFFFFFFFFFFFFFFFFFFFFFFFFFFFFFFFFFFFFFFFFFFFFFFFFFFFFEFFFFFFFF0000000000000000FFFFFFFF
  b := 0xB3312FA7E23EE7E4988E056BE3F82D19181D9C6EFE8141120314088F5013875AC656398D8A2ED19D2A85C8EDD3EC2AEF
  order := 0xFFFFFFFFFFFFFFFFFFFFFFFFFFFFFFFFFFFFFFFFFFFFFFFFC7634D81F4372DDF581A0DB248B0A77AECEC196ACCC52973
  gx := 0xAA87CA22BE8B05378EB1C71EF320AD746E1D3B628BA79B9859F741E082542A385502F25DBF55296C3A545E3872760AB7
  gy := 0x3617DE4A96262C6F5D9E98BF9292DC29F8F41DBD289A147CE9DA3113B5F0B8C00A60B1CE1D7E819D7A431D7C90EA0E5F
  words := 6

/-- A point: none is the point at infinity. -/
abbrev EcPoint := Option (Nat × Nat)

/-- Point addition. -/
def ecAdd (c : CurveParams) : EcPoint → EcPoint → EcPoint
  | none, q => q
  | p, none => p
  | some (x1, y1), some (x2, y2) =>
    if x1 = x2 ∧ (y1 + y2) % c.p = 0 then none
    else
      let l := if x1 = x2 then (3 * x1 * x1 + (c.p - 3)) % c.p * modInvD (2 * y1 % c.p) c.p % c.p
        else subMod (y2 % c.p) y1 c.p * modInvD (subMod (x2 % c.p) x1 c.p) c.p % c.p
      let x := subMod (subMod (l * l % c.p) x1 c.p) x2 c.p
      some (x, subMod (l * subMod (x1 % c.p) x c.p % c.p) y1 c.p)

/-- Double and add; `f` bounds the bits of the scalar. -/
def ecMulGo (c : CurveParams) : Nat → Nat → EcPoint → EcPoint → EcPoint
  | 0, _, _, acc => acc
  | f + 1, k, p, acc =>
    if k = 0 then acc else ecMulGo c f (k / 2) (ecAdd c p p) (if k % 2 = 1 then ecAdd c acc p else acc)

/-- Scalar multiplication. -/
def ecMul (c : CurveParams) (k : Nat) (p : EcPoint) : EcPoint := ecMulGo c (Nat.log2 k + 1) k p none

/-- Public-key validation (R78, R449): coordinates below the field prime, not the all-zero encoding, on the curve. The
curves have cofactor 1, so every such point has the group's order. -/
def ecValid (c : CurveParams) (x y : Nat) : Bool :=
  decide (x < c.p) && decide (y < c.p) && !(x == 0 && y == 0) &&
  (y * y % c.p == (x * x % c.p * x + (c.p - 3) * x + c.b) % c.p)

/-- The coordinates of a point; zeros at infinity. -/
def ecCoords : EcPoint → Nat × Nat
  | some q => q
  | none => (0, 0)

/-! ### CRC-64 of the fabric (R342) -/

/-- One byte of the unreflected CRC-64 with polynomial 0x42F0_E1EB_A9EA_3693. -/
def crc64Byte (c : W64) (b : Byte) : W64 :=
  (List.range 8).foldl (fun c _ => if c.getLsbD 63 then (c <<< 1) ^^^ 0x42F0E1EBA9EA3693#64 else c <<< 1)
    (c ^^^ (b.setWidth 64 <<< 56))

/-- CRC-64 of a byte string (R342). -/
def crc64 (bs : List Byte) : W64 := bs.foldl crc64Byte 0xFFFFFFFFFFFFFFFF#64 ^^^ 0xFFFFFFFFFFFFFFFF#64

end Sys2Proof.Machine
end

