-- ==== Sys2Proof/Config.lean ====
section
/-! DEFINITION. What one part fixes (its fuses and ROM) and the values that the spec leaves open: every one an opaque constant
with no body, so that no proof can know it. -/

namespace Sys2Proof

/-- The grades of R5. -/
inductive Grade where
  | f | e | h
  deriving DecidableEq, Repr, Inhabited

/-- What is fused or held in ROM, and survives reset (R417, R39, R473, R496, R505). -/
structure Fuses where
  grade : Grade
  activeMask : BitVec 16
  stepping : Nat
  uniqueId : List Byte
  deviceSecret : List Byte
  keyHash : List (List Byte)
  revoked : BitVec 4
  rollback : BitVec 64
  primes : List Nat
  romDigest : List Byte
  certChain : List Byte
  pciIds : List Nat
  vcore : List Nat
  repairBudget : List Nat
  fusedRepairs : List (Nat × Nat × Nat)
  eyeMargin : List Nat
  deriving DecidableEq, Repr, Inhabited

/-- The fused values of the part (log 2). -/
opaque Config.fuses : Fuses

/-- The free values: `Config.freeValue k i` is item `i` of the `k`-th draw of a value that the spec leaves open (log 6). -/
opaque Config.freeValue : Nat → Nat → Nat

/-- The 1-ulp choice of RECIP for an operand pattern: 0 or 1 picks one of the two admitted neighbours (R201). -/
opaque Config.recipPick : Nat → Nat
/-- The 1-ulp choice of RSQRT (R201). -/
opaque Config.rsqrtPick : Nat → Nat
/-- The 2-ulp choice of EXP2 (R201). -/
opaque Config.exp2Pick : Nat → Nat
/-- The 2-ulp choice of LOG2 (R201). -/
opaque Config.log2Pick : Nat → Nat

/-- What CoeffToSlot, EvalMod and SlotToCoeff make of a raised ciphertext (R141): the configuration's bytes, the Q primes, the raised
limbs and the key digits; then part, limb and residue. The spec gives the diagonals no values (log 24). -/
opaque Config.temperTail : List Byte → List Nat → List (List (List Nat)) → List (List (List (List Nat) × List (List Nat))) → Nat → Nat →
  Nat → Nat

/-- SLH-DSA key generation of FIPS 205 from its three seeds: public key and secret key (log 10). -/
opaque Config.slhKeygen : List Byte → List Byte × List Byte
/-- SLH-DSA signing of FIPS 205: secret key, message (log 10). -/
opaque Config.slhSign : List Byte → List Byte → List Byte
/-- SLH-DSA verification of FIPS 205: public key, message, signature (log 10). -/
opaque Config.slhVerify : List Byte → List Byte → List Byte → Bool
/-- The program image digest of an image as loaded: R300 names it and does not say what digest it is (log 34). -/
opaque Config.imageDigest : List Byte → List Byte
/-- The body of a repair record that the part seals, from its repairs and its held-out rows (R474: private to the part). -/
opaque Config.repairBody : List (Nat × Nat × Nat) → List (Nat × Nat × Nat) → List Byte
/-- The repairs and the held-out rows that a repair record's private body names (R474). -/
opaque Config.repairList : List Byte → List (Nat × Nat × Nat) × List (Nat × Nat × Nat)

/-- The PTYPE of the messages for which the spec states none, by kind (R351, R398, R403; log 102). -/
opaque Config.messagePtype : Nat → Nat

end Sys2Proof
end

