-- ==== Sys2Proof/Machine/Fuses.lean ====
section
/-! DEFINITION. What the spec fixes of a part's fuses and ROM whatever the part: the active dies of its grade (R5, R6, R31, R34), its
prime catalogue (R38, R39), the widths of the fused items (R417). -/

namespace Sys2Proof.Machine

/-- The active-die mask of a grade: all sixteen dies in F and E; in H exactly four dies other than C0 and C8 are disabled (R5, R6,
R31, R34). -/
def maskOk (g : Grade) (m : BitVec 16) : Bool :=
  match g with
  | .h => m.getLsbD 0 && m.getLsbD 8 && (List.range 16).countP (fun d => m.getLsbD d) == 12
  | _ => m == 0xFFFF

/-- A number of dies of a grade's mask (R5). -/
def gradeDies : Grade → Nat
  | .h => 12
  | _ => 16

/-- D of a catalogue prime (R38): 1 to 6,144, at most four nonzero digits in its non-adjacent form, and q a prime. -/
def CataloguePrime (d : Nat) : Prop := 1 ≤ d ∧ d ≤ 6144 ∧ nafWeight d ≤ 4 ∧ (primeOf d).Prime

/-- A catalogue of R39: 96 primes of R38 in ascending order of D. -/
def Catalogue (l : List Nat) : Prop := l.length = 96 ∧ l.Pairwise (· < ·) ∧ ∀ d ∈ l, CataloguePrime d

/-- Decide a catalogue entry by Proth's theorem, which covers every q of R38: q is prime where some a has
a^((q - 1)/2) = -1 modulo q, and a prime q has one; `f` bounds the search. -/
def prothWitness (q : Nat) : Nat → Nat → Bool
  | 0, _ => false
  | f + 1, a => powMod a ((q - 1) / 2) q == q - 1 || prothWitness q f (a + 1)

/-- A value of D that R38 admits. -/
def dOk (d : Nat) : Bool := decide (1 ≤ d ∧ d ≤ 6144 ∧ nafWeight d ≤ 4) && prothWitness (primeOf d) 4096 2

/-- A list of D that is a catalogue of R39. -/
def catalogueOk (l : List Nat) : Bool :=
  l.length == 96 && decide (l.Pairwise (· < ·)) && l.all dOk

/-- The 96 largest primes that R38 admits: what stands in for fuses that hold no catalogue, which no part has (log 2). -/
def leastCatalogue : List Nat :=
  [4, 25, 31, 36, 39, 45, 49, 54, 60, 70, 87, 91, 127, 130, 132, 145, 157, 165, 166, 175, 210, 214, 222, 234] ++
  [244, 264, 276, 279, 286, 321, 354, 369, 372, 417, 441, 487, 490, 495, 519, 526, 540, 559, 585, 594, 600, 642, 649, 654] ++
  [670, 676, 706, 735, 754, 759, 774, 780, 784, 792, 796, 801, 802, 831, 864, 889, 897, 900, 927, 967, 985, 1000, 1002, 1021] ++
  [1032, 1050, 1072, 1089, 1132, 1134, 1149, 1216, 1266, 1270, 1284, 1300, 1312, 1320, 1512, 1540, 1551, 1672, 1782, 1797, 1804, 1825, 1852, 1854]

/-- A byte string of the width of its fused item. -/
def fitBytes (n : Nat) (b : List Byte) : List Byte := bytesAt b 0 n

/-- Fuses as a part can have them: what R5, R6, R34, R38, R39 and R417 rule out is replaced, all else stands (log 2). -/
def fitFuses (z : Fuses) : Fuses :=
  { z with
    activeMask := if maskOk z.grade z.activeMask then z.activeMask else (match z.grade with | .h => 0x7777 | _ => 0xFFFF)
    primes := if catalogueOk z.primes then z.primes else leastCatalogue
    uniqueId := fitBytes 16 z.uniqueId, deviceSecret := fitBytes 32 z.deviceSecret, romDigest := fitBytes 32 z.romDigest
    keyHash := (List.range 4).map fun k => fitBytes 32 (z.keyHash.getD k []) }

/-- The fuses of the part (log 2). -/
def partFuses : Fuses := fitFuses Config.fuses

end Sys2Proof.Machine
end

