-- ==== Sys2Proof/Machine/State.lean ====
section
/-! DEFINITION. The state of the block: every register, table, memory and queue that the spec gives the part, as plain data;
the faults and refusals; the state after reset (R509, R517). -/

namespace Sys2Proof.Machine

/-- An event code of R501: class in the high byte, detail in the low byte. -/
abbrev Ev := BitVec 16

/-! ### A die's tables -/

/-- An entry of the handle table (R225). -/
structure Handle where
  base : Nat
  rows : Nat
  valid : Bool
  isSecret : Bool
  poisoned : Bool
  ring : Bool
  poisonEvent : Ev
  deriving DecidableEq, Repr

/-- The reset values of a handle-table entry (R225). -/
def Handle.zero : Handle := ⟨0, 0, false, false, false, false, 0⟩

/-- An entry of the store-handle table (R250), with the digest that SDIGEST computed (R440). -/
structure StoreHandle where
  base : Nat
  rows : Nat
  valid : Bool
  poisoned : Bool
  poisonEvent : Ev
  digest : Option (List Byte)
  deriving DecidableEq, Repr

/-- The reset values of a store-handle entry (R250). -/
def StoreHandle.zero : StoreHandle := ⟨0, 0, false, false, 0, none⟩

/-- A prefetch-ring context (R242), with the claimed slots that have been filled or released out of order (R245). -/
structure Ring where
  handle : Nat
  slots : Nat
  active : Bool
  slotRows : Nat
  fill : Nat
  tail : Nat
  take : Nat
  head : Nat
  filled : List Nat
  released : List Nat
  deriving DecidableEq, Repr

/-- The reset values of a ring context (R242). -/
def Ring.zero : Ring := ⟨0, 0, false, 0, 0, 0, 0, 0, [], []⟩

/-- A scoreboard entry (R236): an inclusive row interval, its kind and the operation that owns it. -/
structure SbEntry where
  lo : Nat
  hi : Nat
  write : Bool
  op : Nat
  deriving DecidableEq, Repr

/-- A tensor descriptor (R252), validated by DSET. -/
structure Desc where
  rank : Nat
  kind : Nat
  wordBytes : Nat
  signed : Bool
  etype : Nat
  space : Nat
  die : Nat
  wrap : Bool
  padSkip : Bool
  transpose : Bool
  scales : Bool
  s0Zero : Bool
  handle : Nat
  part : Nat
  window : Nat
  indexDim : Nat
  wgen : Nat
  scaleHandle : Nat
  offset : Nat
  scaleOffset : Nat
  size : List Nat
  fill : Nat
  stride : List Int
  padLo : List Nat
  padHi : List Nat
  deriving DecidableEq, Repr

/-- An entry of the scale palette (R186): AMAX as an FP32 pattern, UPDATES, SATURATED. -/
structure Pal where
  amax : Nat
  updates : Nat
  saturated : Bool
  deriving DecidableEq, Repr

/-- The reset values of a palette entry (R186). -/
def Pal.zero : Pal := ⟨0, 0, false⟩

/-- What an operation writes, as poisoning and hallmarks name it (R232, R441). -/
inductive Dest where
  | handle (die : DieIx) (h : Nat)
  | store (die : DieIx) (h : Nat)
  | slot (die : DieIx) (k : Nat)
  | region (die : DieIx) (mask : BitVec 8) (row rows : Nat)
  | ring (die : DieIx) (r : Nat)
  | tile (die : DieIx) (eng : Fin 2) (z : Nat)
  | cache (die : DieIx) (eng : Fin 2) (line count : Nat)
  | scalar (die : DieIx) (sc : Nat)
  | palette (die : DieIx) (e : Nat)
  | bnSlot (part : PartIx) (slot : Nat)
  | window (part window : Nat)
  | host
  deriving DecidableEq, Repr

/-- Where an element that a transfer is to write comes from: a code already read, or bits of a remote window that READ_DATA
brings (log 5). -/
inductive Cell where
  | known (v : Nat)
  | far (piece bit : Nat)
  deriving DecidableEq, Repr

/-- What a transfer writes into one slot or destination: elements by offset, scale bytes by index, and the padding that a
SCATTER stores beside them (R263). -/
structure Plan where
  cells : List (Int × Cell)
  pads : List (Int × Nat)
  scales : List (Nat × Cell)
  deriving DecidableEq, Repr

/-- A remote window that a transfer addresses. -/
structure Piece where
  part : Nat
  window : Nat
  wgen : Nat
  deriving DecidableEq, Repr

/-- How a transfer pairs its elements (R258, R265, R268, R378): `get` has its plan from the owner table, `put` has each
element's block and place, and each block's number and byte offset. -/
inductive XferWork where
  | move
  | gather
  | scatter (repro : Bool)
  | get (plan : Plan)
  | put (places : List (Nat × Nat)) (blocks : List (Nat × Nat))
  deriving DecidableEq, Repr

/-- A checked transfer, as its tongs find it when they are free for it (R259): its ends, the first rows of its ring slots, the
bytes of host memory that it reads, and its source element count. -/
structure XferReq where
  work : XferWork
  src : Desc
  dst : Desc
  /-- A further source: the index list. -/
  idx : Option Desc
  srcSlot : Nat
  idxSlot : Nat
  tongs : BitVec 4
  flag : Option FlagTarget
  host : List Byte
  idxHost : List Byte
  add : Bool
  pieces : List Piece
  elems : Nat
  deriving DecidableEq, Repr

/-- A transfer that has issued, kept until it completes (log 5). -/
structure Xfer where
  /-- The destination as the descriptor table gave it at issue. -/
  dst : Desc
  /-- SPACE of the source. -/
  srcSpace : Nat
  /-- What is still to be planned: all of it until the tongs are free (R259), then while a remote index list is read. -/
  todo : Option XferReq
  /-- Its tongs run it (R259, R274). -/
  begun : Bool
  /-- The data of the ring slot that it has claimed stands in the slot (R244, R245). -/
  placed : Bool
  /-- Slots or destinations still to be delivered, in order (R258, R272). -/
  plans : List Plan
  /-- SCATTER in ADD mode (R268). -/
  add : Bool
  /-- The host port and function of a HOST end (R271). -/
  host : Option (HostId × Nat)
  /-- Writes to host memory in cursor order: address, bytes. -/
  hostWrites : List (Nat × List Byte)
  /-- Host writes or elements done, the saved cursor of R273. -/
  cursor : Nat
  /-- The tong is stopped at a page fault (R273). -/
  stalled : Bool
  /-- The Page Request Group sent for it, if one is outstanding, and the pages it names (R273, R274). -/
  group : Option Nat
  pages : List Nat
  /-- The remote windows that it addresses, and the bytes that READ_DATA has brought from each. -/
  pieces : List Piece
  bufs : Tbl Mem
  /-- The POISON_EVENT that the transfer carries to its destination (R269). -/
  carry : Option Ev
  /-- The place in the job's INPUT list that its source bytes fill when they have arrived (R441). -/
  hall : Option Nat
  /-- The remote flag still to be set once every write is acknowledged: piece, flag (R370). -/
  remoteFlag : Option (Nat × Nat)
  deriving DecidableEq, Repr

/-- What an exchange does with the values it opens or receives (R152). -/
inductive ExKind where
  | opening | beaver | split
  deriving DecidableEq, Repr

/-- A share exchange waiting for its peers (R158). -/
structure Exch where
  part : PartIx
  session : Nat
  kind : ExKind
  openSeq : Nat
  dealSeq : Option Nat
  m : Nat
  /-- Bodies received, by party. -/
  got : List (Nat × List Nat)
  /-- What this party contributed. -/
  own : List Nat
  /-- The triple shares of a BEAVER_MUL. -/
  triple : List Nat × List Nat × List Nat
  dst : Nat
  /-- SHR_SPLIT: the handles that receive the peers' masks, in ascending party order. -/
  recv : List Nat
  deriving DecidableEq, Repr

/-- A collective in progress on this die (R371 to R376). -/
structure Coll where
  collId : Nat
  op : Nat
  red : Nat
  epoch : Nat
  /-- Member entries in rank order: part in bits 13:0, die in bits 19:16. -/
  members : List Nat
  rank : Nat
  elems : Nat
  root : Nat
  window : Nat
  /-- CRC-32C of the head, RANK taken as zero, and the member list (R372). -/
  crc : Nat
  src : Option Desc
  dst : Option Desc
  /-- The bytes of this member's source, and its object header in a ciphertext sum. -/
  own : List Byte
  header : List Byte
  degraded : Bool
  /-- First control messages received, by rank: degraded marker, receive window, header. -/
  heads : List (Nat × Bool × Nat × List Byte)
  /-- Data received, by rank. -/
  contrib : List (Nat × List Byte)
  /-- The draw that orders free additions: this member's own, then that of rank 0 once its head has come (R374). -/
  draw : Nat
  deriving DecidableEq, Repr

/-- An operation or transfer that has issued and not yet completed. -/
structure Op where
  id : Nat
  unit : Nat
  job : Nat
  queue : QueueIx
  off : Nat
  dests : List Dest
  srcs : List Dest
  fills : List (Nat × Nat)
  takes : List (Nat × Nat)
  flag : Option FlagTarget
  tongs : BitVec 4
  clusters : BitVec 8
  bufSecret : List (Nat × Nat × Nat)
  keySlots : List Nat
  xfer : Option Xfer
  exch : Option Exch
  coll : Option Coll
  scalars : List Nat
  cost : Nat
  deriving DecidableEq, Repr

/-! ### Queues and jobs -/

/-- A packet that the sequencer has read and not yet acted on (R281, R286), with the place of its staged data where it names one (R391),
or the arrival of a job's role (R288). -/
inductive LineItem where
  | packet (seq lines : Nat) (bytes : List Byte) (staged : Option (DieIx × Nat × Nat))
  | role (job : Nat)
  deriving DecidableEq, Repr

/-- Where a packet's staged data lies in a stack: die, store handle, byte offset (R287, R391). -/
abbrev Staged := DieIx × Nat × Nat

/-- What holds a queue (R286): a load with its staged image, a patch, an import, a job waiting for admission, a fence with what it
waits for (operations, big-number commands, REMOTE, the flag to set), a block. -/
inductive Hold where
  | programLoad (slot : Nat) (staged : Option Staged)
  | patch (slot : Nat)
  | import (slot : Nat)
  | job (id : Nat)
  | fence (ops : List (DieIx × Nat)) (bns : List Nat) (remote : Bool) (flag : Option Nat)
  | block (flag : Nat) (clear stop : Bool)
  deriving DecidableEq, Repr

/-- A completion record waiting for ring space (R293, R390): its 64 bytes with PHASE still to set, and IRQ. -/
structure CplRec where
  bytes : List Byte
  irq : Bool
  deriving DecidableEq, Repr

/-- A queue of a die: its window, its control page and what the sequencer holds for it (R279 to R294, R388). -/
structure Queue where
  window : Mem
  pos : Nat
  seq : Nat
  crBase : Nat
  crLog2 : Nat
  enabled : Bool
  vector : Nat
  crHead : Nat
  crTail : Nat
  consumed : Nat
  stopped : Bool
  quenched : Bool
  disabling : Bool
  line : List LineItem
  hold : Option (Hold × LineItem)
  jobs : List Nat
  /-- The first admitted job has issued its last instruction: the second issues (R289). -/
  passed : Bool
  heldCpl : List CplRec
  stepId : Nat
  eta : W32
  lambda : W32
  stopFollowing : Bool
  nanCount : Nat
  deriving DecidableEq, Repr

/-- A queue as reset leaves it (R280, R388, R509). -/
def Queue.zero : Queue :=
  { window := [], pos := 0, seq := 1, crBase := 0, crLog2 := 0, enabled := false, vector := 0, crHead := 0,
    crTail := 0, consumed := 0, stopped := false, quenched := false, disabling := false, line := [], hold := none,
    jobs := [], passed := false, heldCpl := [], stepId := 0, eta := 0, lambda := 0, stopFollowing := false, nanCount := 0 }

/-- Where a job stands. -/
inductive JobPhase where
  | queued | admitted
  deriving DecidableEq, Repr

/-- An entry of a job's WEIGHT or INPUT list: the role, the store handle of a WEIGHT entry, the digest (R441). -/
structure HallItem where
  role : Nat
  src : Option (DieIx × Nat)
  digest : List Byte
  deriving DecidableEq, Repr

/-- A submitted job, from its JOB_SUBMIT to its completion (R288 to R294). -/
structure Job where
  id : Nat
  part : PartIx
  slot : Nat
  entry : Nat
  die : DieIx
  queue : QueueIx
  /-- Roles in order: die of each role (R287). -/
  dies : List DieIx
  seq : Nat
  tag : Nat
  irq : Bool
  lines : Nat
  wantHallmark : Bool
  priority : Nat
  args : List Nat
  waitLimit : Nat
  seed : List Byte
  phase : JobPhase
  age : Nat
  passed : Nat
  pinned : Bool
  tokens : List (List Nat)
  declaredNs : Nat
  reproducible : Bool
  epoch : Nat
  admittedAt : Nat
  quench : Option Ev
  stopped : Bool
  cancelled : Bool
  skip : Option (Ev × Nat)
  refusedPoison : Option Ev
  refusedDegraded : Bool
  events : Nat
  binds : List Nat
  dests : List Dest
  secretDests : List (DieIx × Nat)
  weights : List HallItem
  inputs : List HallItem
  keyTags : List Nat
  energyPj : Nat
  /-- A limit source below 16 acted on its dies while it ran (R338); 0x0704 of its clamp has been logged (R322). -/
  clamped : Bool
  clampLogged : Bool
  setFlags : List (List Nat)
  deriving DecidableEq, Repr

/-- Why an issued instruction waits (R205, R237, R244, R302, R96, R156, R451). -/
inductive Wait where
  | behind
  | scoreboard
  /-- A ring counter (R247): a consumer waits for TAIL, a producer for HEAD. -/
  | ring (r : Nat) (consumer : Bool)
  | flag (f : Nat)
  /-- A session's triple pool, for a number of elements (R156). -/
  | triples (session n : Nat)
  /-- A key-set slot, with the destinations that are poisoned if the wait fails (R96). -/
  | keyset (slot : Nat) (dests : List Dest)
  | scalar
  | bnRoom
  deriving DecidableEq, Repr

/-- A program instruction held at issue (log 4), with the ranges it wants (R237). -/
structure Held where
  age : Nat
  job : Nat
  instr : Instr
  at_ : Site
  wait : Wait
  ranges : List SbEntry
  /-- When it reached the head of its queue (R237); none while another stands before it. -/
  ready : Option Nat
  /-- The ring that it waits on has been deactivated (R243). -/
  ringGone : Bool
  deriving DecidableEq, Repr

/-! ### Dies -/

/-- A compute die with its stack (R15, R16). -/
structure Die where
  owner : Option PartIx
  scratch : Mem
  store : Mem
  bufs : List Mem
  bufSecret : List (Nat × Nat × Nat)
  slots : Tbl (List Byte × Bool)
  handles : Tbl Handle
  storeHandles : Tbl StoreHandle
  descs : Tbl Desc
  rings : Tbl Ring
  scoreboard : List SbEntry
  ops : List Op
  heldOut : List Nat
  heldOutStore : List Nat
  flags : List Nat
  scalars : Tbl Nat
  scalarPoison : List Nat
  tiles : Tbl Mem
  tilePoison : List (Nat × Ev)
  cache : Tbl Mem
  cachePoison : List (Nat × Ev)
  palette : Tbl Pal
  palettePoison : List Nat
  codeBytes : Nat
  drbgOn : Bool
  /-- Limit sources (R313): clamp and droop by heavy class (clusters, bellows, tensor, vector, update, tongs), the others by die. -/
  clampSrc : List Nat
  thermal : Nat
  droopSrc : List Nat
  brake : Nat
  paceSrc : Nat
  /-- Cap, thermal and brake sources when the last pace messages were due (R336). -/
  lastSrc : List Nat
  drooping : Bool
  sensors : List Nat
  thermCap : Bool
  /-- The thermal source has engaged and has not come back to its top (R317). -/
  hot : Bool
  temp : Int
  idle : Nat
  residency : List Nat
  counters : Tbl Nat
  queues : Vector Queue 16
  deriving DecidableEq, Repr

/-- A die as reset leaves it. -/
def Die.zero : Die :=
  { owner := none, scratch := [], store := [], bufs := List.replicate 8 [], bufSecret := [], slots := [],
    handles := [], storeHandles := [], descs := [], rings := [], scoreboard := [], ops := [], heldOut := [],
    heldOutStore := [], flags := [], scalars := [], scalarPoison := [], tiles := [], tilePoison := [], cache := [],
    cachePoison := [], palette := [], palettePoison := [], codeBytes := 0, drbgOn := false, clampSrc := List.replicate 6 16,
    thermal := 16, droopSrc := List.replicate 6 16, brake := 16, paceSrc := 16, lastSrc := [16, 16, 16], drooping := false, sensors := [0, 1, 2, 3],
    thermCap := false, hot := false, temp := 0, idle := 0, residency := List.replicate 5 0, counters := [],
    queues := Vector.replicate 16 Queue.zero }

/-! ### Partitions -/

/-- A key of a key set (R74): its table entry and, for each home, the first stack row of its b-halves. -/
structure KeyEntry where
  index : Nat
  kind : Nat
  topLevel : Nat
  digits : Nat
  galois : Nat
  rowOffset : Nat
  rowCount : Nat
  deriving DecidableEq, Repr

/-- STATE of a key set (R86). -/
inductive KsState where
  | free | importing | resident | damaged | refetching | evicting
  deriving DecidableEq, Repr

/-- A slot of the key-set directory (R85, R86) with the set it holds. `rows` says where each home copy lies: runs of home
die, first bundle row (row 0 is the header row), count, first stack row. -/
structure KeySet where
  state : KsState
  tag : Nat
  paramSet : Nat
  mirrored : Bool
  homeMask : BitVec 16
  scheme : Nat
  logN : Nat
  chainId : Nat
  lastReason : Nat
  totalRows : Nat
  useCount : Nat
  lastUse : Nat
  damageCount : Nat
  seed : List Byte
  chain : List Byte
  keys : List KeyEntry
  rows : List (Nat × Nat × Nat × Nat)
  failing : List Nat
  deriving DecidableEq, Repr

/-- A free directory slot (R85). -/
def KeySet.zero : KeySet :=
  { state := .free, tag := 0, paramSet := 0, mirrored := false, homeMask := 0, scheme := 0, logN := 0, chainId := 0,
    lastReason := 0, totalRows := 0, useCount := 0, lastUse := 0, damageCount := 0, seed := [], chain := [], keys := [],
    rows := [], failing := [] }

/-- An import or refetch from the host in progress (R77 to R82). -/
structure Import where
  slot : Nat
  die : DieIx
  queue : QueueIx
  tag : Nat
  homeMask : BitVec 16
  length : Nat
  refetch : Bool
  envelope : List Byte
  sessionKey : Option (List Byte)
  nextSeg : Nat
  plain : List Byte
  /-- Where its rows go: die, first bundle row, rows, first stack row (R87, R88). -/
  placed : List (Nat × Nat × Nat × Nat)
  confirm : Bool
  /-- Every segment so far has been forwarded to the twin (R100). -/
  mirror : Bool
  staged : Option Staged
  deriving DecidableEq, Repr

/-- The import key pair of a partition (R76). -/
structure ImportKey where
  id : Nat
  d : Nat
  x : Nat
  y : Nat
  deriving DecidableEq, Repr

/-- An entry point and role of a program (R298). -/
structure EntryRec where
  entry : Nat
  role : Nat
  declaredNs : Nat
  codeOffset : Nat
  setFlags : List Nat
  deriving DecidableEq, Repr

/-- A registered program (R300): the image as loaded and patched, with what the rules read of it. -/
structure Program where
  image : List Byte
  digest : List Byte
  roles : Nat
  dieMap : List DieIx
  entryCount : Nat
  entries : List EntryRec
  power : List (List Nat)
  patches : List (Nat × Nat × Nat × Nat × Nat)
  codeLen : List Nat
  sections : List (Nat × Nat × Nat × Nat)
  patchPending : Option (DieIx × QueueIx)
  deriving DecidableEq, Repr

/-- A TEMPER configuration (R136), its record and the fields that the rules use. -/
structure TemperCfg where
  raw : List Byte
  deriving DecidableEq, Repr

/-- A share session (R147) with its exchange and triple state (R157, R158). -/
structure Session where
  raw : List Byte
  openSeq : Nat
  dealSeq : Nat
  consumed : Nat
  pool : List (Nat × Nat × Nat)
  heldDeals : List (Nat × List Nat × List Nat × List Nat × Nat)
  /-- At the dealer: deliveries that wait for room in a party's pool, in order, with their die and party (R157). -/
  outDeals : List (DieIx × Nat × DealMsg)
  early : List (ExMsg × Bool)
  deriving DecidableEq, Repr

/-- State of a partition (R498). -/
inductive PState where
  | free | stopped | running | changing
  deriving DecidableEq, Repr

/-- A partition command in progress (R498). -/
inductive PCmd where
  | create | start | stop | coldStop | destroy
  deriving DecidableEq, Repr

/-- ROLE of R402. -/
inductive TwinRole where
  | none | active | standby
  deriving DecidableEq, Repr

/-- A partition: its table entry (R497), its state and everything it owns beside its dies. -/
structure Partition where
  entry : List Byte
  state : PState
  command : Option PCmd
  chains : Tbl Chain
  tempers : Tbl TemperCfg
  sessions : Tbl Session
  programs : Tbl Program
  keysets : Tbl KeySet
  importKey : Option ImportKey
  imports : List Import
  reserve : Nat
  tolerance : Nat
  energy : List Nat
  reproducible : Bool
  role : TwinRole
  quenchEvent : Nat
  quenchCount : Nat
  quenching : Option (Ev × Bool)
  log : List (List Byte)
  deriving DecidableEq, Repr

/-- The default partition entry of R497. -/
def entryDefault : List Byte :=
  leBytes 8 0 ++ [0x2C, 0x42, 0x66, 0x48, 0x04, 0, 0, 0] ++ List.replicate 48 0

/-- A partition as reset leaves it. -/
def Partition.zero : Partition :=
  { entry := entryDefault, state := .free, command := none, chains := [], tempers := [], sessions := [],
    programs := [], keysets := [], importKey := none, imports := [], reserve := 0, tolerance := 0,
    energy := [0, 0, 0, 0], reproducible := false, role := .none, quenchEvent := 0, quenchCount := 0,
    quenching := none, log := [] }

/-! ### Fabric, hosts, twin -/

/-- STATE of a port (R345). -/
inductive PortState where
  | down | training | up
  deriving DecidableEq, Repr

/-- STATE of link encryption on a port (R454). -/
inductive KeyState where
  | off | keying | on | failed
  deriving DecidableEq, Repr

/-- What a port holds for the next epoch (R361): a packet, or share traffic. -/
inductive HeldIn where
  | packet (p : Packet)
  | exchange (m : ExMsg) (abort : Bool)
  | deal (m : DealMsg)
  deriving DecidableEq, Repr

/-- A fabric port (R340 to R350, R380, R433 to R436, R454). -/
structure Port where
  state : PortState
  enabled : Bool
  weights : List Nat
  sendSeq : Nat
  expectSeq : Nat
  retrying : Bool
  retries : Nat
  replay : List Flit
  /-- Flits cut from packets and not yet sent: channel, type, body (R343, R344). -/
  sendQ : List (Nat × Nat × List Byte)
  /-- Receive buffers free at the partner, by channel (R347). -/
  credits : List Nat
  /-- Flits that each channel may still send in this round of the arbitration, and flits of other channels sent since the last one of
  FLAG (R347, log 100). -/
  turns : List Nat
  sinceFlag : Nat
  /-- 0x0505 has been logged in this governor interval (R344). -/
  retryLogged : Bool
  /-- Packets held for the next epoch, oldest first (R361). -/
  holdBuf : List HeldIn
  assembly : Tbl (List Byte)
  retryCount : Nat
  downCount : Nat
  discards : Tbl Nat
  holdRefusals : Nat
  eyeLow : Bool
  /-- Intervals in which the eye margin fell short (R469). -/
  eyeCount : Nat
  encEnable : Bool
  keyState : KeyState
  peerHash : List Byte
  keyNumber : Nat
  sendKey : Option (List Byte)
  recvKey : Option (List Byte)
  peerKeyNumber : Nat
  sealedCount : Nat
  recvCount : Nat
  ephScalar : Option Nat
  nonce : List Byte
  record : List Byte
  recordKey : Nat
  peerStarted : Bool
  deriving DecidableEq, Repr

/-- A port as reset leaves it: 0x3010 reads 0x0001_8704 (R380). -/
def Port.zero : Port :=
  { state := .down, enabled := true, weights := [7, 8, 1], sendSeq := 0, expectSeq := 0, retrying := false, retries := 0,
    replay := [], sendQ := [], credits := [256, 256, 256, 256], turns := [0, 0, 0, 0], sinceFlag := 7, retryLogged := false, holdBuf := [], assembly := [], retryCount := 0, downCount := 0, discards := [], holdRefusals := 0,
    eyeLow := false, eyeCount := 0, encEnable := false, keyState := .off, peerHash := List.replicate 32 0, keyNumber := 0,
    sendKey := none, recvKey := none, peerKeyNumber := 0, sealedCount := 0, recvCount := 0, ephScalar := none,
    nonce := [], record := [], recordKey := 0, peerStarted := false }

/-- An entry of the window table (R364). -/
structure Window where
  opened : Bool
  write : Bool
  read : Bool
  store : Bool
  any : Bool
  part : Nat
  die : Nat
  handle : Nat
  peer : Nat
  epoch : Nat
  gen : Nat
  drained : Nat
  base : Nat
  length : Nat
  /-- A close has taken effect and waits for the admitted writes (R367); the operation of the WIN_CLOSE, if one waits for it. -/
  closing : Bool
  closeOp : Option (DieIx × Nat)
  /-- WRITE packets that had reached the port when the close took effect and are still to land. -/
  admitted : Nat
  deriving DecidableEq, Repr

/-- The reset values of a window-table entry (R364). -/
def Window.zero : Window := ⟨false, false, false, false, false, 0, 0, 0, 0, 0, 0, 0, 0, 0, false, none, 0⟩

/-- What a request to another part awaits (R349, R361, R370). -/
inductive ReqKind where
  | write | read | flag
  deriving DecidableEq, Repr

/-- A request sent to another part and not yet answered (R357, R363, R369); a read names the piece, offset and length. -/
structure Request where
  tag : Nat
  die : DieIx
  op : Nat
  dstPart : Nat
  kind : ReqKind
  piece : Nat
  off : Nat
  len : Nat
  deriving DecidableEq, Repr

/-- The part's fabric state (R353 to R371, R380). -/
structure Fabric where
  partId : Nat
  valid : Bool
  domain : Nat
  epoch : Nat
  members : List Nat
  pendEpoch : Nat
  pendMembers : List Nat
  switchAt : Nat
  retained : Option (Nat × List Nat)
  losses : List Nat
  routes : Tbl Nat
  pendRoutes : Tbl Nat
  collTimeout : Nat
  windows : Tbl Window
  arrived : List (PortIx × Packet)
  requests : List Request
  /-- Page requests of this part's transfers that wait at a gateway: the gateway's port, group, die, operation (R399). -/
  benchGroups : List (HostId × Nat × DieIx × Nat)
  paceLast : List (Nat × Nat)
  deriving DecidableEq, Repr

/-- The fabric as reset leaves it. -/
def Fabric.zero : Fabric :=
  { partId := 0, valid := false, domain := 0, epoch := 0, members := [], pendEpoch := 0, pendMembers := [],
    switchAt := 0, retained := none, losses := [], routes := [], pendRoutes := [], collTimeout := 10000, windows := [],
    arrived := [], requests := [], benchGroups := [], paceLast := [] }

/-- The aperture control register of a function (R391). -/
abbrev ApReg := Nat

/-- A host port (R381 to R400, R510). -/
structure HostPort where
  enabled : Bool
  linkUp : Bool
  width : Nat
  apertures : Tbl ApReg
  /-- Unmasked MSI-X vectors, as function · 4096 + vector (log 14). -/
  unmasked : List Nat
  msixPending : List Nat
  /-- Functions with relaxed ordering, ATS or PRI enabled; functions enabled (log 14). -/
  relaxed : List Nat
  ats : List Nat
  pri : List Nat
  functions : Nat
  cached : List (Nat × Nat)
  groups : List (Nat × DieIx × Nat)
  /-- Page Request Groups given up, whose responses are still to come, with the die that counts them (R277). -/
  lateGroups : List (Nat × DieIx)
  /-- Functions whose page requests met a Response Failure (R275). -/
  priFailed : List Nat
  aer : Nat
  slotsHeld : List MemberReg
  pages : Tbl (List Byte)
  /-- Page Request Groups that this gateway has sent for members: its own index, the member, the member's; and those that wait
  (R274, R399). -/
  benchGroups : List (Nat × MemberReg × W32)
  benchWait : List (MemberReg × W32 × List Nat)
  /-- The MSI-X table's entries, by function · 2048 + vector, but for their mask bits (R386, log 14). -/
  msixTable : Tbl (List Byte)
  deriving DecidableEq, Repr

/-- A host port as reset leaves it. -/
def HostPort.zero : HostPort :=
  { enabled := false, linkUp := false, width := 0, apertures := [], unmasked := [], msixPending := [], relaxed := [],
    ats := List.range 17, pri := List.range 17, functions := 16, cached := [], groups := [], lateGroups := [], priFailed := [], aer := 0,
    slotsHeld := [], pages := [], benchGroups := [], benchWait := [], msixTable := [] }

/-- STATE of the twin pair (R402). -/
inductive TwinState where
  | unpaired | pairing | paired | lost
  deriving DecidableEq, Repr

/-- Mirrored rows of a set that the partner is importing, awaiting COMMIT (R100). -/
structure Mirror where
  part : PartIx
  slot : Nat
  tag : Nat
  homes : BitVec 16
  rows : List Byte
  complete : Bool
  /-- Where its rows lie: die, first bundle row, rows, first stack row. -/
  placed : List (Nat × Nat × Nat × Nat)
  deriving DecidableEq, Repr

/-- The twin state (R402 to R412). -/
structure Twin where
  port : Nat
  partner : Nat
  armed : Bool
  state : TwinState
  pairGen : Nat
  peerGen : Nat
  received : Nat
  discarded : Nat
  misses : Nat
  ties : Nat
  fillCopied : Nat
  fillTotal : Nat
  missRun : Nat
  seen : Bool
  /-- Fills in progress: the partition and the key sets that are not yet confirmed (R407). -/
  filling : List (PartIx × List Nat)
  mirrors : List Mirror
  refetches : List (PartIx × Nat)
  sent : Tbl Nat
  deriving DecidableEq, Repr

/-- The twin as reset leaves it (R402). -/
def Twin.zero : Twin :=
  { port := 0xFF, partner := 0, armed := false, state := .unpaired, pairGen := 0, peerGen := 0, received := 0,
    discarded := 0, misses := 0, ties := 0, fillCopied := 0, fillTotal := 0, missRun := 0, seen := false, filling := [],
    mirrors := [], refetches := [], sent := [] }

/-! ### Control complex -/

/-- The pins (R507 to R514). -/
structure Pins where
  pwrok : Bool
  resetLow : Bool
  pwrbrk : Bool
  smbAlert : Bool
  strap : Nat
  vcoreSet : List Nat
  perst : List Bool
  deriving DecidableEq, Repr

/-- Source of a device quench (R463). -/
inductive QuenchSource where
  | internal | external | command
  deriving DecidableEq, Repr

/-- The device quench and the two alarm pins (R461, R463, R512, R513). -/
structure Alarm where
  device : Bool
  event : Ev
  source : QuenchSource
  quenchLow : Bool
  thermtrip : Bool
  deriving DecidableEq, Repr

/-- The start-up step that the part is in (R517, R518). -/
inductive Phase where
  | off | selfCheck | waitImage | verifying | waitRecord | memoryTest | repairTest | retention | ready
  deriving DecidableEq, Repr

/-- Boot and firmware (R414 to R420, R454). -/
structure Boot where
  phase : Phase
  fwState : Nat
  failedCheck : Nat
  goPort : Nat
  goTaken : Bool
  imageLength : Nat
  imageDigest : List Byte
  fwVersion : Nat
  fwRollback : Nat
  keySlot : Nat
  revoke : Nat
  staging : List Mem
  deriving DecidableEq, Repr

/-- Security state 0x4000 (R454). -/
inductive SecState where
  | boot | operational | quenched | test
  deriving DecidableEq, Repr

/-- A report buffer (R424): its state and bytes. -/
structure Report where
  who : Nat
  ready : Bool
  bytes : List Byte
  deriving DecidableEq, Repr

/-- An attestation request awaiting its signature (R427). -/
structure SignReq where
  who : Nat
  part : Nat
  newKey : Option ImportKey
  nonce : List Byte
  deriving DecidableEq, Repr

/-- The control complex's keys, DRBG and reports (R421 to R431, R453). -/
structure Sec where
  state : SecState
  identPk : List Byte
  identSk : Option (List Byte)
  repairKey : Option (List Byte)
  drbgOn : Bool
  reports : List Report
  signQueue : List SignReq
  reportSeq : Nat
  deriving DecidableEq, Repr

/-- The device event log (R464 to R468). -/
structure Log where
  seq : Nat
  entries : List (List Byte)
  overwritten : Nat
  readSeq : Nat
  errBits : BitVec 4
  deriving DecidableEq, Repr

/-- An open segmented session (R488 to R490). -/
structure FpSession where
  via : Via
  index : Nat
  sub : Nat
  member : Nat
  write : Bool
  value : List Byte
  total : Nat
  next : Nat
  deriving DecidableEq, Repr

/-- Dictionary state that no other part of the machine holds (R482, R488, R496). -/
structure Dict where
  sessions : List FpSession
  eids : List (Via × Byte)
  fabricManager : Nat
  masks : List (BitVec 5)
  selector : Nat
  deriving DecidableEq, Repr

/-- The package hearth (R309 to R331, R339). -/
structure Hearth where
  /-- Objects 0x2000 and 0x2001 as written. -/
  sustained : Nat
  short : Nat
  duration : Nat
  /-- What of them is in effect since the last governor interval (R316). -/
  sustainedNow : Nat
  shortNow : Nat
  durationNow : Nat
  thermalLimit : Nat
  pace : Bool
  excess : Nat
  cap : Nat
  period : Nat
  pendPeriod : Option Nat
  syncIn : Bool
  ignored : Nat
  freeRun : Bool
  boundaries : Nat
  sinceEdge : Nat
  ageNext : Nat
  deriving DecidableEq, Repr

/-- Hearth at reset (R339); the caps follow the grade. -/
def hearthZero (g : Grade) : Hearth :=
  { sustained := if g = .h then 1150 else 1500, short := if g = .h then 1265 else 1650, duration := 2000,
    sustainedNow := if g = .h then 1150 else 1500, shortNow := if g = .h then 1265 else 1650, durationNow := 2000,
    thermalLimit := 105, pace := false, excess := 0, cap := 16, period := 250, pendPeriod := none, syncIn := false,
    ignored := 0, freeRun := true, boundaries := 0, sinceEdge := 0, ageNext := 0 }

/-- A big-number slot (R443). -/
structure BnSlot where
  n : Nat
  isSecret : Bool
  valid : Bool
  value : Nat
  deriving DecidableEq, Repr

/-- A big-number command that waits or runs (R445 to R451): the instruction, its job, its times. -/
structure BnCmd where
  arrival : Nat
  part : Option PartIx
  job : Nat
  at_ : Site
  instr : Instr
  total : Nat
  remaining : Nat
  yields : Nat
  deriving DecidableEq, Repr

/-- The big-number engine pair (R443 to R452). -/
structure Bn where
  slots : Tbl BnSlot
  own : Tbl BnSlot
  waiting : List BnCmd
  running : Option BnCmd
  deriving DecidableEq, Repr

/-- Self-test and repair (R471 to R476, R496, R500). -/
structure Bist where
  phase : Nat
  grace : Nat
  results : List (Nat × Nat × Nat)
  /-- The repair record that has been written; `some []` declares that there is none (R518). -/
  recordIn : Option (List Byte)
  /-- The IV drawn for the record before CLEAR (R474). -/
  iv : List Byte
  recordOut : List Byte
  status : Nat
  recordSeq : Nat
  logicFail : Bool
  exhausted : Bool
  repairs : List (Nat × Nat × Nat)
  prevRepairs : List (Nat × Nat × Nat)
  deriving DecidableEq, Repr

/-! ### What the part sends -/

/-- How a message leaves: by a port, or over the bridges; its channel; its packet header, HOPS 0 (R347, R351). -/
structure Sent where
  port : Option PortIx
  vc : Nat
  head : Packet
  deriving DecidableEq, Repr

/-- One thing that the part sends, as the outside sees it (log 8). -/
inductive Output where
  | response (via : Via) (status : Nat) (index sub member offset total : Nat) (last : Bool) (data : List Byte)
  | mctp (via : Via) (bytes : List Byte)
  | hostWrite (port : HostId) (fn : Nat) (addr : Nat) (bytes : List Byte) (relaxed translated : Bool)
  | translationRequest (port : HostId) (fn page : Nat)
  | completion (port : HostId) (fn : Nat) (addr : Nat) (bytes : List Byte)
  | msix (port : HostId) (fn vector : Nat)
  | bar2Data (port : HostId) (data : Option (List Byte)) (poisoned : Bool)
  | pageRequest (port : HostId) (fn group : Nat) (pages : List Nat)
  | atsDone (port : HostId) (page : Nat)
  | packet (port : PortIx) (vc : Nat) (p : Packet)
  | bridge (dst : DieIx) (p : Packet)
  | flit (port : PortIx) (f : Flit)
  | linkRetry (port : PortIx) (seq : Nat)
  | keyStart (port : PortIx)
  | linkKey (port : PortIx) (offset keyNumber : Nat) (bytes : List Byte)
  | twinRecord (via : Sent) (r : TwinRec)
  | mirrorRows (via : Sent) (p : PartIx) (m : MirrorBody)
  | exchange (dstPart dstPartition : Nat) (m : ExMsg)
  | deal (dstPart dstPartition : Nat) (m : DealMsg)
  | abortMarker (dstPart dstPartition : Nat) (m : ExMsg)
  | collective (dstPart : Nat) (dstDie : Nat) (vc : Nat) (p : Packet)
  | pace (via : Sent) (collId rank limit : Nat)
  | mgmtNotice (entry : List Byte)
  | registration (via : Sent) (r : MemberReg)
  | registrationAnswer (via : Sent) (r : MemberReg) (held : Bool)
  | forwardedWrite (via : Sent) (w : FwdWrite)
  | forwardedQueue (via : Sent) (slot : MemberReg) (die : DieIx) (queue : QueueIx) (offset : Nat) (bytes : List Byte)
  | forwardedControl (via : Sent) (slot : MemberReg) (die : DieIx) (queue : QueueIx) (w : CtlWrite) (head : Option W32)
  | forwardedReset (via : Sent) (slot : MemberReg)
  | forwardedAck (via : Sent) (tag : W32)
  | forwardedResponse (via : Sent) (slot : MemberReg) (group : W32) (code : PriCode)
  | forwardedRequest (via : Sent) (slot : MemberReg) (r : FpReq)
  | smbusAddress (addr : Nat)
  | avs (rail mv : Nat)
  | syncOut
  | unsupported (port : HostId)
  deriving DecidableEq, Repr

/-- The faults of the machine. No meaning raises one: the part reports every error in its state (an event, a completion
record, a quench), which is a next state. The type is inhabited for the host's interface. -/
inductive Fault where
  /-- Raised by nothing; safe. -/
  | none
  deriving DecidableEq, Repr

/-- The refusals of the machine. -/
inductive Refusal where
  /-- A command that the model has no meaning for, by its mnemonic; safe. -/
  | notModelled (mnemonic : String)
  deriving DecidableEq, Repr

/-! ### The state -/

/-- The state of one GH64. -/
structure State where
  fuses : Fuses
  pins : Pins
  alarm : Alarm
  boot : Boot
  sec : Sec
  log : Log
  dict : Dict
  parts : Vector Partition 16
  dies : Vector Die 16
  jobs : List Job
  hearth : Hearth
  fabric : Fabric
  ports : Vector Port 16
  hostA : HostPort
  hostB : HostPort
  twin : Twin
  bn : Bn
  bist : Bist
  out : List Output
  held : List Held
  reissue : Option Held
  free : Nat
  nextId : Nat
  pending : List Instr
  deriving DecidableEq, Repr

/-- The state at the end of reset for a part with the given fuses: R509 clears everything else; SYS_RESET# is released with
PWROK high (log 1). -/
def resetOf (fz : Fuses) : State :=
  { fuses := fz
    pins := { pwrok := true, resetLow := false, pwrbrk := false, smbAlert := false, strap := 0, vcoreSet := [],
              perst := [false, false] }
    alarm := { device := false, event := 0, source := .internal, quenchLow := false, thermtrip := false }
    boot := { phase := .selfCheck, fwState := 0, failedCheck := 0, goPort := 0, goTaken := false, imageLength := 0,
              imageDigest := List.replicate 32 0, fwVersion := 0, fwRollback := 0, keySlot := 0, revoke := 0,
              staging := [[], []] }
    sec := { state := .boot, identPk := List.replicate 32 0, identSk := none, repairKey := none, drbgOn := false,
             reports := [], signQueue := [], reportSeq := 0 }
    log := { seq := 0, entries := [], overwritten := 0, readSeq := 0, errBits := 0 }
    dict := { sessions := [], eids := [], fabricManager := 0, masks := List.replicate 4 0x1F, selector := 0 }
    parts := Vector.replicate 16 Partition.zero
    dies := Vector.replicate 16 Die.zero
    jobs := []
    hearth := hearthZero fz.grade
    fabric := Fabric.zero
    ports := Vector.replicate 16 Port.zero
    hostA := HostPort.zero
    hostB := HostPort.zero
    twin := Twin.zero
    bn := { slots := [], own := [], waiting := [], running := none }
    bist := { phase := 0, grace := 100, results := [], recordIn := none, iv := [], recordOut := [], status := 0, recordSeq := 0,
              logicFail := false, exhausted := false, repairs := [], prevRepairs := [] }
    out := []
    held := []
    reissue := none
    free := 0
    nextId := 1
    pending := [] }

/-- The machine right after reset (R509, R517): every field at its reset value, the fuses as made (R5, R39, log 2). -/
def State.reset : State := resetOf partFuses

end Sys2Proof.Machine
end

