-- ==== Sys2Proof/Machine/Ops.lean ====
section
/-! DEFINITION. The named operations on the state that every family shares: access to its parts, output, counters, the event
log (R464 to R468), interrupts (R393), free values, poisoning (R232), rows of memory. -/

namespace Sys2Proof.Machine

/-- The answer of a step. -/
abbrev Result := Host.Outcome State Fault Refusal

/-- A next state. -/
abbrev ok (s : State) : Result := .next s

/-! ### Access -/

/-- Die `d`. -/
def dieOf (s : State) (d : DieIx) : Die := s.dies[d.val]
/-- Change die `d`. -/
def updDie (d : DieIx) (f : Die → Die) (s : State) : State := { s with dies := s.dies.set d.val (f s.dies[d.val]) }
/-- Partition `p`. -/
def partOfIx (s : State) (p : PartIx) : Partition := s.parts[p.val]
/-- Change partition `p`. -/
def updPart (p : PartIx) (f : Partition → Partition) (s : State) : State :=
  { s with parts := s.parts.set p.val (f s.parts[p.val]) }
/-- Port `n`. -/
def portOf (s : State) (n : PortIx) : Port := s.ports[n.val]
/-- Change port `n`. -/
def updPort (n : PortIx) (f : Port → Port) (s : State) : State :=
  { s with ports := s.ports.set n.val (f s.ports[n.val]) }
/-- Queue `q` of die `d`. -/
def queueOf (s : State) (d : DieIx) (q : QueueIx) : Queue := (dieOf s d).queues[q.val]
/-- Change queue `q` of die `d`. -/
def updQueue (d : DieIx) (q : QueueIx) (f : Queue → Queue) (s : State) : State :=
  updDie d (fun x => { x with queues := x.queues.set q.val (f x.queues[q.val]) }) s
/-- Host port `h`. -/
def hostOf (s : State) : HostId → HostPort
  | .a => s.hostA
  | .b => s.hostB
/-- Change host port `h`. -/
def updHost (h : HostId) (f : HostPort → HostPort) (s : State) : State :=
  match h with
  | .a => { s with hostA := f s.hostA }
  | .b => { s with hostB := f s.hostB }
/-- The job with an identifier. -/
def jobOf (s : State) (id : Nat) : Option Job := s.jobs.find? fun j => j.id == id
/-- Change the job with an identifier. -/
def updJob (id : Nat) (f : Job → Job) (s : State) : State :=
  { s with jobs := s.jobs.map fun j => if j.id = id then f j else j }
/-- All dies, all partitions, all ports, all queues, as lists of indices. -/
def allDies : List DieIx := List.finRange 16
/-- All queues of a die. -/
def allQueues : List QueueIx := List.finRange 16
/-- All partitions. -/
def allParts : List PartIx := List.finRange 16
/-- All ports. -/
def allPorts : List PortIx := List.finRange 16

/-- A fresh name for an operation, job or request (log 12). -/
def takeId (s : State) : Nat × State := (s.nextId, { s with nextId := s.nextId + 1 })

/-- `n` free bytes: the next draw (log 6). -/
def freeBytes (n : Nat) (s : State) : List Byte × State :=
  ((List.range n).map (fun i => BitVec.ofNat 8 (Config.freeValue s.free i)), { s with free := s.free + 1 })

/-- A free number below `m` (0 where `m` is 0): the next draw (log 6). -/
def freeBelow (m : Nat) (s : State) : Nat × State := (Config.freeValue s.free 0 % m, { s with free := s.free + 1 })

/-- A free number: the next draw (log 6). -/
def freeDraw (s : State) : Nat × State := (Config.freeValue s.free 0, { s with free := s.free + 1 })

/-- Append to what the part has sent (log 8). -/
def emit (o : Output) (s : State) : State := { s with out := s.out ++ [o] }

/-- Add to counter `i` of die `d` (R468); the counters are U64 and never wrap in service. -/
def count (d : DieIx) (i n : Nat) (s : State) : State :=
  updDie d (fun x => { x with counters := tblSet x.counters i (tblGetD x.counters i 0 + n) }) s

/-! ### Partition entries (R497) -/

/-- DIES of a partition entry. -/
def Partition.dieMask (p : Partition) : BitVec 16 := BitVec.ofNat 16 (fieldAt p.entry 0 2)
/-- OWNER_PART. -/
def Partition.ownerPart (p : Partition) : Nat := bitsOf (fieldAt p.entry 2 2) 0 14
/-- OWNER_PORT. -/
def Partition.ownerPort (p : Partition) : HostId := if bitOf (fieldAt p.entry 4 1) 0 then .b else .a
/-- OWNER_FUNCTION. -/
def Partition.ownerFn (p : Partition) : Nat := bitsOf (fieldAt p.entry 5 1) 0 5
/-- MEMBER_SLOT. -/
def Partition.memberSlot (p : Partition) : Nat := bitsOf (fieldAt p.entry 6 1) 0 6
/-- FABRIC_KEY. -/
def Partition.fabricKey (p : Partition) : Nat := fieldAt p.entry 0x0E 2
/-- Whether the die mask of a partition names die `d`. -/
def Partition.hasDie (p : Partition) (d : DieIx) : Bool := p.dieMask.getLsbD d.val
/-- A die is active in this part (R34). -/
def dieActive (s : State) (d : DieIx) : Bool := s.fuses.activeMask.getLsbD d.val
/-- The dies that partition `p` owns. -/
def ownedDies (s : State) (p : PartIx) : List DieIx := allDies.filter fun d => (dieOf s d).owner == some p

/-- The engine-presence word of die `d` (R499). -/
def enginePresence (s : State) (d : DieIx) : Nat :=
  if dieActive s d then
    let e := s.fuses.grade == .e
    0x01 + 0x02 + (if e then 0 else 0x04) + 0x08 + (if e then 0 else 0x10) + 0x20 + 0x40 +
      (if d.val = 0 || d.val = 8 then 0x80 + 0x100 + 0x200 else 0)
  else 0

/-! ### Interrupts (R393) -/

/-- Send the MSI-X message of a vector, or set its pending bit where it is masked. -/
def msix (h : HostId) (fn vec : Nat) (s : State) : State :=
  if (hostOf s h).unmasked.contains (fn * 4096 + vec) then emit (.msix h fn vec) s
  else updHost h (fun p => { p with msixPending := (p.msixPending.filter (· != fn * 4096 + vec)) ++ [fn * 4096 + vec] }) s

/-! ### Events (R464 to R468, R501) -/

/-- The severity of an event code: 0 INFO, 1 PERF, 2 JOB, 3 PARTITION, 4 DEVICE (R501). -/
def severity (e : Ev) : Nat :=
  let n := e.toNat
  if n ∈ [0x0403, 0x0505, 0x0701, 0x0702, 0x0705, 0x0903, 0x0A03, 0x0A04, 0x0A05] then 0
  else if n ∈ [0x0303, 0x0704, 0x0A01] then 1
  else if n ∈ [0x0302, 0x0603] then 3
  else if n ∈ [0x0304, 0x0703, 0x0801, 0x0802, 0x0803, 0x0804, 0x0901, 0x0902] then 4
  else 2

/-- What a log entry records beside its code (R464). -/
structure EvArgs where
  die : DieIx
  queue : Option (QueueIx × Nat × Nat)
  part : Option PartIx
  unit : Nat
  detail : Nat
  isSkip : Bool
  deriving DecidableEq, Repr

/-- An entry's bytes 0x00 to 0x1B and its check (R464). -/
def logEntry (seq : Nat) (e : Ev) (a : EvArgs) (windowCount timeNs : Nat) : List Byte :=
  let q := match a.queue with | some (q, _, _) => q.val | none => 0
  let js := match a.queue with | some (_, j, _) => j | none => 0
  let off := match a.queue with | some (_, _, o) => o | none => 0
  let p := match a.part with | some p => p.val | none => 0x1F
  let b := leBytes 4 seq ++ leBytes 2 e.toNat ++ leBytes 1 (severity e + 8 * b2n a.isSkip) ++
    leBytes 1 (a.die.val + 16 * q) ++ leBytes 1 (p + 32 * b2n a.queue.isSome) ++ leBytes 1 a.unit ++ leBytes 2 js ++
    leBytes 4 off ++ leBytes 4 windowCount ++ leBytes 4 timeNs ++ leBytes 4 a.detail
  b ++ leBytes 4 (crc32c b).toNat

/-- Push onto a log of at most `n` entries. -/
def pushLog (n : Nat) (l : List (List Byte)) (e : List Byte) : List (List Byte) :=
  let l := l ++ [e]
  l.drop (l.length - n)

/-- Signal an entry of severity `sv` to the classes whose mask has it (R468, R393, R496). -/
def signal (sv : Nat) (part : Option PartIx) (entry : List Byte) (s : State) : State :=
  let m (c : Nat) : Bool := (s.dict.masks.getD c 0).getLsbD sv
  let s := if m 0 then msix .b 0 0 (msix .a 0 0 s) else s
  let s := match part with
    | some p =>
      let pt := partOfIx s p
      if m 1 && pt.ownerFn != 0 && pt.memberSlot == 0 then msix pt.ownerPort pt.ownerFn 0 s else s
    | none => s
  let s := if m 2 then { s with pins := { s.pins with smbAlert := true } } else s
  if m 3 then emit (.mgmtNotice entry) s else s

/-- Log an event: the next LOG_SEQ, the device log, the partition's log, the class counter of the die, the error register,
and the signals (R464 to R468). -/
def logEvent (e : Ev) (a : EvArgs) (s : State) : State :=
  let seq := (s.log.seq + 1) % 2 ^ 32
  let (t, s) := freeBelow (2 ^ 32) s
  let entry := logEntry seq e a s.hearth.boundaries t
  let dropped := if s.log.entries.length < 4096 then 0
    else if fieldAt (s.log.entries.headD []) 0 4 ≤ s.log.readSeq then 0 else 1
  let s := { s with log := { s.log with
    seq := seq, entries := pushLog 4096 s.log.entries entry, overwritten := s.log.overwritten + dropped,
    errBits := s.log.errBits ||| (if severity e < 4 then BitVec.ofNat 4 (2 ^ severity e) else 0) } }
  let s := match a.part with
    | some p => updPart p (fun x => { x with log := pushLog 1024 x.log entry }) s
    | none => s
  let s := count a.die (9 + e.toNat / 256) 1 s
  signal (severity e) a.part entry s

/-- Counter 7: a late arrival (R468, R302). -/
def countLate (d : DieIx) (s : State) : State := count d 7 1 s

/-- Log an event of a part of the machine that belongs to no queue. -/
def logAt (e : Ev) (d : DieIx) (part : Option PartIx) (unit detail : Nat) (s : State) : State :=
  logEvent e { die := d, queue := none, part := part, unit := unit, detail := detail, isSkip := false } s

/-- Log an event of a job's instruction at a site (R464), and count it to the job. -/
def logJob (e : Ev) (j : Job) (at_ : Site) (unit detail : Nat) (skip : Bool) (s : State) : State :=
  let s := logEvent e { die := at_.die, queue := some (at_.queue, j.seq, at_.off), part := some j.part, unit := unit,
                        detail := detail, isSkip := skip } s
  updJob j.id (fun j => { j with events := j.events + 1 }) s

/-! ### Handles, rows, poison -/

/-- Handle `h` of die `d`. -/
def handleOf (s : State) (d : DieIx) (h : Nat) : Handle := tblGetD (dieOf s d).handles h Handle.zero
/-- Change handle `h` of die `d`. -/
def updHandle (d : DieIx) (h : Nat) (f : Handle → Handle) (s : State) : State :=
  updDie d (fun x => { x with handles := tblSet x.handles h (f (tblGetD x.handles h Handle.zero)) }) s
/-- Store handle `h` of stack `d`. -/
def storeOf (s : State) (d : DieIx) (h : Nat) : StoreHandle := tblGetD (dieOf s d).storeHandles h StoreHandle.zero
/-- Change store handle `h` of stack `d`. -/
def updStore (d : DieIx) (h : Nat) (f : StoreHandle → StoreHandle) (s : State) : State :=
  updDie d (fun x => { x with storeHandles := tblSet x.storeHandles h (f (tblGetD x.storeHandles h StoreHandle.zero)) }) s
/-- Ring `r` of die `d`. -/
def ringOf (s : State) (d : DieIx) (r : Nat) : Ring := tblGetD (dieOf s d).rings r Ring.zero
/-- Change ring `r` of die `d`. -/
def updRing (d : DieIx) (r : Nat) (f : Ring → Ring) (s : State) : State :=
  updDie d (fun x => { x with rings := tblSet x.rings r (f (tblGetD x.rings r Ring.zero)) }) s

/-- Bytes of a row. -/
def rowBytes : Nat := 288

/-- Poison a handle; the first POISON_EVENT stays (R232). -/
def poisonHandle (d : DieIx) (h : Nat) (e : Ev) (s : State) : State :=
  if (handleOf s d h).valid && !(handleOf s d h).poisoned then
    updHandle d h (fun x => { x with poisoned := true, poisonEvent := e }) s
  else s

/-- Poison a store handle (R250, R232). -/
def poisonStore (d : DieIx) (h : Nat) (e : Ev) (s : State) : State :=
  if (storeOf s d h).valid && !(storeOf s d h).poisoned then
    updStore d h (fun x => { x with poisoned := true, poisonEvent := e }) s
  else s

/-- Poison whatever a destination names (R115, R132, R220, R232, R248). -/
def poisonDest (e : Ev) (t : Dest) (s : State) : State :=
  match t with
  | .handle d h => poisonHandle d h e s
  | .store d h => poisonStore d h e s
  | .slot d k => updDie d (fun x => { x with slots := tblSet x.slots k ((tblGetD x.slots k ([], false)).1, true) }) s
  | .ring d r => if (ringOf s d r).active then poisonHandle d (ringOf s d r).handle e s else s
  | .tile d g z => updDie d (fun x => { x with tilePoison := (x.tilePoison.filter (·.1 != g.val * 8 + z)) ++ [(g.val * 8 + z, e)] }) s
  | .cache d g line n =>
    updDie d (fun x =>
      let ls := (List.range n).map fun i => g.val * 2048 + line + i
      { x with cachePoison := (x.cachePoison.filter fun c => !ls.contains c.1) ++ ls.map fun l => (l, e) }) s
  | .scalar d sc => updDie d (fun x => { x with scalarPoison := (x.scalarPoison.filter (· != sc)) ++ [sc] }) s
  | .palette d k => updDie d (fun x => { x with palettePoison := (x.palettePoison.filter (· != k)) ++ [k] }) s
  | .bnSlot p k => { s with bn := { s.bn with slots := tblMod s.bn.slots (p.val * 16 + k) fun b => { b with value := 0, valid := false } } }
  | .region .. => s
  | .window .. => s
  | .host => s

/-- Poison a list of destinations. -/
def poisonAll (e : Ev) (ds : List Dest) (s : State) : State := ds.foldl (fun s d => poisonDest e d s) s

/-- Replace `n` bytes from address `a` by free bytes (contents that the spec calls undefined). -/
def freeMem (m : Mem) (a n draw : Nat) : Mem :=
  memPut (memZero m a n) a ((List.range n).map fun i => BitVec.ofNat 8 (Config.freeValue draw i))

/-- Scratchpad bytes of a handle at an offset. -/
def handleBytes (s : State) (d : DieIx) (h o n : Nat) : List Byte :=
  memBytes (dieOf s d).scratch ((handleOf s d h).base * rowBytes + o) n
/-- Write scratchpad bytes of a handle at an offset. -/
def putHandle (d : DieIx) (h o : Nat) (bs : List Byte) (s : State) : State :=
  let b := (handleOf s d h).base
  updDie d (fun x => { x with scratch := memPut x.scratch (b * rowBytes + o) bs }) s
/-- Store bytes of a store handle at an offset. -/
def storeBytes (s : State) (d : DieIx) (h o n : Nat) : List Byte :=
  memBytes (dieOf s d).store ((storeOf s d h).base * rowBytes + o) n
/-- Write store bytes; the content digest becomes invalid (R440). -/
def putStore (d : DieIx) (h o : Nat) (bs : List Byte) (s : State) : State :=
  let b := (storeOf s d h).base
  updStore d h (fun x => { x with digest := none })
    (updDie d (fun x => { x with store := memPut x.store (b * rowBytes + o) bs }) s)
/-- Zero every row of a handle. -/
def zeroHandle (d : DieIx) (h : Nat) (s : State) : State :=
  let e := handleOf s d h
  updDie d (fun x => { x with scratch := memZero x.scratch (e.base * rowBytes) (e.rows * rowBytes) }) s

/-- Bytes of a cluster-buffer row range, cluster `k`. -/
def bufBytes (s : State) (d : DieIx) (k a n : Nat) : List Byte := memBytes ((dieOf s d).bufs.getD k []) a n
/-- Write cluster-buffer bytes. -/
def putBuf (d : DieIx) (k a : Nat) (bs : List Byte) (s : State) : State :=
  updDie d (fun x => { x with bufs := x.bufs.modify k fun m => memPut m a bs }) s

/-- Scalar register `sc` of die `d`. -/
def scalarOf (s : State) (d : DieIx) (sc : Nat) : Nat := tblGetD (dieOf s d).scalars sc 0
/-- Write a scalar register; a write clears its poison (R220). -/
def putScalar (d : DieIx) (sc v : Nat) (s : State) : State :=
  updDie d (fun x => { x with scalars := tblSet x.scalars sc (v % 2 ^ 64), scalarPoison := x.scalarPoison.filter (· != sc) }) s

/-- Set a flag of die `d` (R301). -/
def setFlagBit (d : DieIx) (f : Nat) (s : State) : State :=
  updDie d (fun x => { x with flags := (x.flags.filter (· != f)) ++ [f] }) s
/-- Clear a flag of die `d`. -/
def clearFlagBit (d : DieIx) (f : Nat) (s : State) : State :=
  updDie d (fun x => { x with flags := x.flags.filter (· != f) }) s
/-- A flag is set. -/
def flagSetP (s : State) (d : DieIx) (f : Nat) : Bool := (dieOf s d).flags.contains f

/-- The chain with an identifier in a partition's chain table (R42). -/
def chainOf (s : State) (p : PartIx) (c : Nat) : Option Chain := tblGet (partOfIx s p).chains c
/-- Key-set slot `k` of partition `p` (R85). -/
def ksOf (s : State) (p : PartIx) (k : Nat) : KeySet := tblGetD (partOfIx s p).keysets k KeySet.zero
/-- Change a key-set slot. -/
def updKs (p : PartIx) (k : Nat) (f : KeySet → KeySet) (s : State) : State :=
  updPart p (fun x => { x with keysets := tblSet x.keysets k (f (tblGetD x.keysets k KeySet.zero)) }) s

/-- The image is running and no device quench is in force: the part serves (R414, R461). -/
def serving (s : State) : Bool := decide (s.boot.fwState = 2) && !s.alarm.device

/-- A die wakes from its idle state (R333). -/
def wakeDie (d : DieIx) (s : State) : State := updDie d (fun x => { x with idle := 0 }) s

/-- An operation of several key streams waits at the binding check of the next: its set is DAMAGED or REFETCHING (R96, R143; that one
is still to come, log 24). -/
def keyStalled (s : State) (o : Op) : Bool :=
  decide (1 < o.keySlots.length) && match o.keySlots.head?, jobOf s o.job with
    | some k, some j => (ksOf s j.part k).state == .damaged || (ksOf s j.part k).state == .refetching
    | _, _ => false

end Sys2Proof.Machine
end

