-- ==== Sys2Proof/Machine/Routes.lean ====
section
/-! DEFINITION. Routes (R354, R355), discarded packets (R357), and the messages whose packets the spec does not lay out: twin traffic
(R403, R405), bench traffic (R397 to R400), pace messages (R336). -/

namespace Sys2Proof.Machine

/-- A die index from four bits. -/
def dieBits (n : Nat) : DieIx := ⟨n % 16, Nat.mod_lt _ (by decide)⟩

/-- Count a discarded packet by reason (R357): 0 HOPS, 1 no route, 2 port not UP, 3 not a member, 4 invalid PTYPE, 5 no part
identifier, 6 share traffic without encryption, 7 no use for it. -/
def discard (n : PortIx) (reason : Nat) (s : State) : State :=
  updPort n (fun p => { p with discards := tblSet p.discards reason (tblGetD p.discards reason 0 + 1) }) s

/-- The egress of a packet: none where its entry is not VALID; LOCAL, or a port (R354, R355). -/
inductive Egress where
  | none
  | here
  | port (n : PortIx)
  deriving DecidableEq, Repr

/-- The route of R355; no route leads through the twin port, which carries only twin traffic (R354, R403). -/
def routeOf (s : State) (dstPart : Nat) (src dst : DieIx) : Egress :=
  let e := tblGetD s.fabric.routes dstPart 0
  if !(bitOf e 31) then .none
  else if bitOf e 30 then .here
  else
    let n := bitsOf e (4 * ((src.val + dst.val) % (bitsOf e 16 2 + 1))) 4
    if n = s.twin.port then .none else .port (dieBits n)

/-- A packet with nothing in it. -/
def packetZero : Packet :=
  { ptype := 0, hops := 0, dstPart := 0, srcPart := 0, dstDie := 0, srcDie := 0, epoch := 0, fpkey := 0, window := 0,
    length := 0, wgen := 0, rtag := 0, offset := 0, data := [] }

/-- How a message for a die of a part leaves die `d` (R353, R355, R357): over the bridges of this part, by a port that is UP, or not
at all, which is counted at a port by reason. -/
inductive Way where
  | here
  | port (n : PortIx)
  | lost (n : PortIx) (reason : Nat)
  deriving DecidableEq, Repr

/-- The way of a message. -/
def wayTo (s : State) (d : DieIx) (part : Nat) (dst : DieIx) : Way :=
  if part = s.fabric.partId then .here
  else if !s.fabric.valid then .lost d 5
  else match routeOf s part d dst with
    | .none => .lost d 1
    | .here => .here
    | .port n => if (portOf s n).state = .up then .port n else .lost n 2

/-- Kinds of message whose packets the spec does not lay out (log 102). -/
inductive MsgKind where
  | bench | pace | mgmt | twinRecord | twinRows
  deriving DecidableEq, Repr

/-- The channel of each kind (R347, R398, R405). -/
def MsgKind.vc : MsgKind → Nat
  | .bench | .twinRows => 0
  | .pace | .twinRecord => 2
  | .mgmt => 3

/-- The PTYPE of each kind: 9 on MGMT, else a valid one (R351), which the spec leaves open (log 102). -/
def MsgKind.ptype : MsgKind → Nat
  | .mgmt => 9
  | .bench => Config.messagePtype 0 % 9 + 1
  | .pace => Config.messagePtype 1 % 9 + 1
  | .twinRecord => Config.messagePtype 2 % 9 + 1
  | .twinRows => Config.messagePtype 3 % 9 + 1

/-- The header of a message of the part (R351). -/
def msgHead (s : State) (k : MsgKind) (d : DieIx) (part : Nat) (dst : DieIx) : Packet :=
  { packetZero with ptype := k.ptype, dstPart := part, srcPart := s.fabric.partId, srcDie := d, dstDie := dst, epoch := s.fabric.epoch % 2 ^ 16 }

/-- Send a message from die `d` to a die of a part; a device-quenched part sends nothing (R346), and one that cannot be sent is
discarded and counted (R357). `o` is the message on its way. -/
def sendMsg (k : MsgKind) (d : DieIx) (part : Nat) (dst : DieIx) (o : Sent → Output) (s : State) : State :=
  if s.alarm.device then s
  else match wayTo s d part dst with
    | .here => emit (o { port := none, vc := k.vc, head := msgHead s k d part dst }) s
    | .port n => emit (o { port := some n, vc := k.vc, head := msgHead s k d part dst }) s
    | .lost n r => discard n r s

/-- Send what the twin port carries: HOPS 0 and DST_PART the partner (R403). A port that is not UP sends nothing, nor does a
device-quenched part (R345, R346). -/
def sendTwinMsg (k : MsgKind) (o : Sent → Output) (s : State) : State :=
  if s.twin.port < 16 && (portOf s (dieBits s.twin.port)).state == .up && !s.alarm.device then
    emit (o { port := some (dieBits s.twin.port), vc := k.vc, head := msgHead s k (dieBits s.twin.port) s.twin.partner 0 }) s
  else s

end Sys2Proof.Machine
end

