-- ==== Sys2Proof/Machine/Completion.lean ====
section
/-! DEFINITION. Completion records and the end of a job: the record's 64 bytes (R293), the completion ring (R390, R392,
R393), what a completion says (R294, R338), the hallmark (R442) and the release of evicted key sets (R90). -/

namespace Sys2Proof.Machine

/-- What a completion record says (R293). -/
structure Cpl where
  seq : Nat
  type : Nat
  withheld : Bool
  hallmark : Option (List Byte)
  cancelled : Bool
  late : Bool
  skipped : Bool
  tag : Nat
  event : Ev
  events : Nat
  detail : Nat
  energy : Nat
  irq : Bool
  deriving DecidableEq, Repr

/-- An OK record of a packet. -/
def cplOk (seq type tag : Nat) (irq : Bool) : Cpl :=
  ⟨seq, type, false, none, false, false, false, tag, 0, 0, 0, 0, irq⟩
/-- A WITHHELD record of a packet. -/
def cplWithheld (seq type tag : Nat) (irq : Bool) (e : Ev) : Cpl :=
  ⟨seq, type, true, none, false, false, false, tag, e, 0, 0, 0, irq⟩

/-- The 64 bytes of a record, CONSUMED and PHASE zero until it is written (R293). -/
def cplBytes (d : DieIx) (q : QueueIx) (c : Cpl) : List Byte :=
  leBytes 2 0xC7E8 ++ leBytes 2 c.seq ++ leBytes 1 (q.val + 16 * d.val) ++ leBytes 1 c.type ++
  leBytes 1 (b2n c.withheld) ++
  leBytes 1 (b2n c.hallmark.isSome + 2 * b2n c.cancelled + 4 * b2n c.late + 8 * b2n c.skipped) ++
  leBytes 8 c.tag ++ leBytes 2 (if c.withheld then c.event.toNat else 0) ++ leBytes 2 (Nat.min c.events 0xFFFF) ++
  leBytes 4 c.detail ++ leBytes 4 (Nat.min c.energy 0xFFFFFFFF) ++ leBytes 4 0 ++
  (match c.hallmark with | some h => bytesAt h 0 32 | none => List.replicate 32 0)

/-- Set CONSUMED and PHASE in a record's bytes (R293, R390). -/
def sealCpl (b : List Byte) (consumed : Nat) (phase : Bool) : List Byte :=
  b.take 7 ++ [b.getD 7 0 + (if phase then 0x80 else 0)] ++ bytesAt b 8 0x14 ++ leBytes 4 consumed ++ bytesAt b 0x20 0x20

/-- The completion ring of a queue is full (R390). -/
def ringFull (q : Queue) : Bool := (q.crTail + 2 ^ 32 - q.crHead) % 2 ^ 32 == 2 ^ q.crLog2

/-- The gateway of a bench member's partition, and the slot that it holds there (R397). -/
def gatewayOf (s : State) (p : PartIx) : Option (Nat × MemberReg) :=
  let t := partOfIx s p
  if t.memberSlot = 0 then none
  else some (t.ownerPart, { part := s.fabric.partId, port := t.ownerPort, fn := t.ownerFn, slot := t.memberSlot })

/-- Write a record to the completion ring and raise its vector (R390, R392, R393); a bench member sends it to its gateway
(R399). A record whose port's link is down cannot be written and is lost (R385). -/
def deliverCpl (d : DieIx) (q : QueueIx) (p : PartIx) (c : CplRec) (s : State) : State :=
  let qu := queueOf s d q
  let pt := partOfIx s p
  let k := qu.crTail
  let addr := qu.crBase + 64 * (k % 2 ^ qu.crLog2)
  let b := sealCpl c.bytes qu.consumed (k / 2 ^ qu.crLog2 % 2 == 0)
  let sent := updQueue d q (fun x => { x with crTail := (k + 1) % 2 ^ 32 }) s
  match gatewayOf s p with
  | some (gw, reg) =>
    sendMsg .bench d gw 0 (fun v => .forwardedWrite v
      { reg := reg, die := d, queue := q, addr := BitVec.ofNat 64 addr, bytes := b
        kind := .completion (if c.irq then some qu.vector else none), tag := 0 }) sent
  | none =>
    if (hostOf s pt.ownerPort).linkUp then
      let s := emit (.completion pt.ownerPort pt.ownerFn addr b) sent
      if c.irq then msix pt.ownerPort pt.ownerFn qu.vector s else s
    else s

/-- Complete a packet or job on a queue: write the record, or hold it where the ring is full (R293). A queue that is not
enabled writes no record (R389). -/
def putCpl (d : DieIx) (q : QueueIx) (c : Cpl) (s : State) : State :=
  let qu := queueOf s d q
  let r : CplRec := { bytes := cplBytes d q c, irq := c.irq }
  match (dieOf s d).owner with
  | none => s
  | some p =>
    if !qu.enabled then s
    else if !qu.heldCpl.isEmpty || ringFull qu then updQueue d q (fun x => { x with heldCpl := x.heldCpl ++ [r] }) s
    else deliverCpl d q p r s

/-- Write held records while the ring has room; `f` bounds them. -/
def flushCplGo (d : DieIx) (q : QueueIx) (p : PartIx) : Nat → State → State
  | 0, s => s
  | f + 1, s =>
    let qu := queueOf s d q
    match qu.heldCpl with
    | [] => s
    | r :: rest =>
      if ringFull qu then s
      else flushCplGo d q p f (deliverCpl d q p r (updQueue d q (fun x => { x with heldCpl := rest }) s))

/-- Write held records while the ring has room (R293). -/
def flushCpl (d : DieIx) (q : QueueIx) (s : State) : State :=
  match (dieOf s d).owner with
  | none => s
  | some p => flushCplGo d q p (queueOf s d q).heldCpl.length s

/-! ### Programs' patch points and key-set binding (R90, R290) -/

/-- The `w`-bit field at bit `o` of a byte string, little-endian bit order (R298). -/
def bitField (bs : List Byte) (o w : Nat) : Nat := fieldAt bs (o / 8) (w / 8 + 2) / 2 ^ (o % 8) % 2 ^ w

/-- The bit offset in the image of a place in a section (R298). -/
def placeBit (g : Program) (section_ bitOff : Nat) : Nat := 8 * (g.sections.getD section_ (0, 0, 0, 0)).2.2.1 + bitOff

/-- The key-set slots that a program's KEYSET_SLOT patch points hold (R90, R298). -/
def programSlots (g : Program) : List Nat :=
  (g.patches.filter fun p => p.2.2.2.2 == 3).map fun p => bitField g.image (placeBit g p.2.1 p.2.2.2.1) p.2.2.1

/-- A line item is a JOB_SUBMIT whose program's patch points name key-set slot `k` (R90). -/
def itemBinds (g : Partition) (k : Nat) : LineItem → Bool
  | .packet _ _ b _ =>
    fieldAt b 4 1 == 4 && (match tblGet g.programs (fieldAt b 0x10 1) with
      | some pr => (programSlots pr).contains k
      | none => false)
  | .role _ => false

/-- Some job of partition `p`, or a JOB_SUBMIT that has been read, binds key-set slot `k` (R90). -/
def slotBound (s : State) (p : PartIx) (k : Nat) : Bool :=
  s.jobs.any (fun j => j.part == p && (j.binds.contains k ||
    (match tblGet (partOfIx s p).programs j.slot with | some g => (programSlots g).contains k | none => false))) ||
  (ownedDies s p).any fun d => allQueues.any fun q => (queueOf s d q).line.any (itemBinds (partOfIx s p) k)

/-- Release the evicted sets of a partition that no job binds (R90). -/
def finishEvictions (p : PartIx) (s : State) : State :=
  updPart p (fun x => { x with keysets := x.keysets.map fun e =>
    if e.2.state = .evicting && !slotBound s p e.1 then (e.1, { KeySet.zero with lastReason := e.2.lastReason }) else e }) s

/-! ### The end of a job -/

/-- GRADE as object 0x1020 encodes it (R496). -/
def gradeCode : Grade → Nat
  | .f => 1
  | .e => 2
  | .h => 3

/-- Insert into an ascending list without repeats. -/
def insertAsc (x : Nat) : List Nat → List Nat
  | [] => [x]
  | y :: t => if x < y then x :: y :: t else if x = y then y :: t else y :: insertAsc x t

/-- The WEIGHT or INPUT list of a job in R441's order: by role, then in issue order. -/
def listByRole (j : Job) (l : List (Nat × List Byte)) : List (List Byte) :=
  (List.range j.dies.length).flatMap fun r => (l.filter fun e => e.1 == r).map (·.2)

/-- The 304-byte record of a hallmark (R442). -/
def hallmarkRecord (s : State) (j : Job) : List Byte :=
  let dig := match tblGet (partOfIx s j.part).programs j.slot with | some g => g.digest | none => []
  let tags := j.keyTags.foldl (fun l x => insertAsc x l) []
  leBytes 2 0xC7B7 ++ leBytes 1 1 ++ leBytes 1 (b2n j.reproducible) ++ leBytes 1 (gradeCode s.fuses.grade) ++
  leBytes 1 j.entry ++ leBytes 1 j.args.length ++ leBytes 1 0 ++ bytesAt dig 0 32 ++
  sha256 (listByRole j (j.weights.map fun w => (w.role, w.digest))).flatten ++
  sha256 (listByRole j (j.inputs.map fun w => (w.role, w.digest))).flatten ++
  sha256 (tags.flatMap (leBytes 8)) ++ bytesAt j.seed 0 32 ++
  (List.range 16).flatMap (fun k => leBytes 8 (j.args.getD k 0)) ++ List.replicate 8 0

/-- The event that a job's completion names, and none where the job completes OK (R294). -/
def jobCause (j : Job) : Option Ev :=
  match j.quench with
  | some e => some e
  | none =>
    match j.skip with
    | some (e, _) => some e
    | none =>
      match j.refusedPoison with
      | some e => some e
      | none => if j.refusedDegraded then some 0x0204 else none

/-- Zeroise the cluster-buffer rows that received secret data from a job (R111). -/
def zeroJobBufs (id : Nat) (s : State) : State :=
  { s with dies := s.dies.map fun x =>
    { x with
      bufs := x.bufs.mapIdx fun k m => (x.bufSecret.filter fun r => r.1 == id && r.2.1 == k).foldl
        (fun m r => memZero m (r.2.2 * rowBytes) rowBytes) m
      bufSecret := x.bufSecret.filter fun r => r.1 != id } }

/-! ### Issue limits (R313) -/

/-- The effective limit of heavy class `c` of die `d` (R313). -/
def effLimit (s : State) (d : DieIx) (c : Nat) : Nat :=
  let x := dieOf s d
  [x.clampSrc.getD c 16, x.thermal, x.droopSrc.getD c 16, x.brake, x.paceSrc].foldl Nat.min s.hearth.cap

/-- The least effective limit of a die. -/
def leastLimit (s : State) (d : DieIx) : Nat := ((List.range 6).map (effLimit s d)).foldl Nat.min 16

/-- A limit below 16 has acted on a job's dies while it ran: noted at an interval, or acting now (R338). -/
def wasLimited (s : State) (j : Job) : Bool := j.clamped || j.dies.any fun d => decide (leastLimit s d < 16)

/-- Take a job out of the machine: its queue places and its record (R289). -/
def removeJob (id : Nat) (s : State) : State :=
  { s with
    jobs := s.jobs.filter fun j => j.id != id
    dies := s.dies.map fun x => { x with queues := x.queues.map fun q =>
      { q with jobs := q.jobs.filter (· != id), passed := q.passed && q.jobs.head? != some id, line := q.line.filter (· != .role id)
               hold := q.hold.filter fun h => match h.1 with | .job i => i != id | _ => true } } }

/-- A job ends (R294): its completion record is written, it is removed, secret buffer rows are cleared, and evicted sets that
it alone bound are released. `elapsed` is the time from its first issue. -/
def finishJob (id elapsed : Nat) (s : State) : State :=
  match jobOf s id with
  | none => s
  | some j =>
    let late := decide (j.declaredNs < elapsed) && j.phase == .admitted
    let s := if late && wasLimited s j then
        logJob 0x0704 j { die := j.die, queue := j.queue, off := 0 } 0x0C 0 false s else s
    let j := (jobOf s id).getD j
    let c := jobCause j
    let hm := if j.wantHallmark && c.isNone then some (sha256 (hallmarkRecord s j)) else none
    let rec_ : Cpl := { seq := j.seq, type := 4, withheld := c.isSome, hallmark := hm, cancelled := j.cancelled,
                        late := late, skipped := j.skip.isSome, tag := j.tag, event := c.getD 0, events := j.events,
                        detail := (j.skip.map (·.2)).getD 0, energy := j.energyPj / 1000000, irq := j.irq }
    let s := removeJob id (zeroJobBufs id s)
    finishEvictions j.part (putCpl j.die j.queue rec_ s)

end Sys2Proof.Machine
end

