-- ==== Sys2Proof/Machine/Records.lean ====
section
/-! DEFINITION. Twin control records (R405) and when a partition is mirrored (R100, R402). -/

namespace Sys2Proof.Machine

/-- Bytes 0x00 to 0x1B of a twin control record (R405). -/
def recBytes (r : TwinRec) : List Byte :=
  leBytes 1 r.rtype ++ leBytes 1 r.part.val ++ leBytes 2 r.sender ++ leBytes 4 r.gen.toNat ++ leBytes 4 r.rseq ++
  leBytes 4 r.reserved ++ leBytes 8 r.tag.toNat ++ leBytes 1 (b2n r.armed) ++ leBytes 3 0

/-- Send a twin control record with a generation, on FLAG (R405); its RSEQ counts the records of its RTYPE sent since pairing. -/
def sendTwinGen (rtype gen : Nat) (p : PartIx) (tag : Nat) (s : State) : State :=
  let n := tblGetD s.twin.sent rtype 0 + 1
  let r : TwinRec := { rtype := rtype, part := p, sender := s.fabric.partId, gen := BitVec.ofNat 32 gen, rseq := n % 2 ^ 32, reserved := 0
                       tag := BitVec.ofNat 64 tag, armed := s.twin.armed, check := 0 }
  sendTwinMsg .twinRecord (fun v => .twinRecord v { r with check := crc32c (recBytes r) }) { s with twin := { s.twin with sent := tblSet s.twin.sent rtype n } }

/-- Send rows of a set or of a store handle to the partner, on BULK (R100, R405, R407). -/
def sendRows (p : PartIx) (m : MirrorBody) (s : State) : State := sendTwinMsg .twinRows (fun v => .mirrorRows v p m) s

/-- Send a twin control record of the pair. -/
def sendTwin (rtype : Nat) (p : PartIx) (tag : Nat) (s : State) : State := sendTwinGen rtype s.twin.pairGen p tag s

/-- Link encryption is on for the twin port (R100, R406). -/
def twinSealed (s : State) : Bool :=
  match s.ports[s.twin.port]? with
  | some x => x.keyState == .on
  | none => false

/-- Imports of a partition are mirrored: it is ACTIVE, the twins are PAIRED, and the twin port is encrypted (R100 to R102). -/
def mirrored (s : State) (p : PartIx) : Bool := (partOfIx s p).role == .active && s.twin.state == .paired && twinSealed s

/-- A record is whole and comes from the partner (R405). -/
def recSound (s : State) (r : TwinRec) : Bool := r.check == crc32c (recBytes r) && r.sender == s.twin.partner && r.reserved == 0

/-- A record of the partner is valid: its check, its SENDER, its PAIR_GEN and its reserved field are right (R405). -/
def recValid (s : State) (r : TwinRec) : Bool := recSound s r && r.gen.toNat == s.twin.pairGen

/-- Discard a record, and count it (R405). -/
def discardRec (s : State) : State := { s with twin := { s.twin with discarded := s.twin.discarded + 1 } }

end Sys2Proof.Machine
end

