-- ==== Sys2Proof/Machine/Tokens.lean ====
section
/-! DEFINITION. Power tokens (R319 to R321): the pool, reserves, what a job declares and what fits. -/

namespace Sys2Proof.Machine

/-- The static reservation in watts (R319). -/
def staticReserve : Grade → Nat
  | .f => 236
  | .e => 221
  | .h => 191

/-- The token pool (R319). -/
def tokenPool (s : State) : Int := (s.hearth.sustainedNow : Int) - staticReserve s.fuses.grade

/-- The unreserved pool U (R320). -/
def unreserved (s : State) : Int := tokenPool s - ((allParts.map fun p => (partOfIx s p).reserve).sum : Nat)

/-- The tokens that a job declares: every class of every role (R298). -/
def jobTokens (j : Job) : Nat := (j.tokens.map (·.sum)).sum

/-- held(p) (R320). -/
def heldTokens (s : State) (p : PartIx) : Nat := ((s.jobs.filter fun j => j.part == p && j.phase == .admitted).map jobTokens).sum

/-- over(p) (R320). -/
def overTokens (s : State) (p : PartIx) : Nat := heldTokens s p - (partOfIx s p).reserve

/-- free (R320). -/
def freeTokens (s : State) : Int := unreserved s - ((allParts.map fun p => overTokens s p).sum : Nat)

/-- A job fits (R320, R321). -/
def jobFits (s : State) (j : Job) : Bool :=
  let t := jobTokens j
  t == 0 || decide (((heldTokens s j.part + t - (partOfIx s j.part).reserve : Nat) : Int) - overTokens s j.part ≤ freeTokens s)

/-- A job can never fit: it declares more than its reserve and U (R321). -/
def tooLarge (s : State) (j : Job) : Bool :=
  let t := jobTokens j
  t != 0 && decide (((partOfIx s j.part).reserve : Int) + unreserved s < t)

end Sys2Proof.Machine
end

