-- ==== Sys2Proof/Machine/Packets.lean ====
section
/-! DEFINITION. Packets of a queue (R279 to R287): visibility, the envelope, refusals, what stands at the head of a queue, and
BLOCKs that a flag ends (R286, R301). -/

namespace Sys2Proof.Machine

/-- A queue may issue: the part serves, its die's partition runs, and no completion is held (R293, R396, R498). -/
def queueOpen (s : State) (d : DieIx) (q : QueueIx) : Bool :=
  serving s && (queueOf s d q).heldCpl.isEmpty && !(queueOf s d q).quenched &&
  (match (dieOf s d).owner with | some p => (partOfIx s p).state == .running | none => false)

/-! ### Envelope fields (R284) -/

/-- SEQ. -/
def pktSeq (b : List Byte) : Nat := fieldAt b 2 2
/-- TYPE. -/
def pktType (b : List Byte) : Nat := fieldAt b 4 1
/-- IRQ. -/
def pktIrq (b : List Byte) : Bool := bitOf (fieldAt b 6 2) 0
/-- TAG. -/
def pktTag (b : List Byte) : Nat := fieldAt b 8 8

/-- The envelope is right (R285): tag, check, reserved fields of the header line. -/
def envelopeOk (b : List Byte) : Bool :=
  fieldAt b 0 2 == 0xC750 && bitsOf (fieldAt b 6 2) 1 15 == 0 && fieldAt b 0x38 4 == 0 &&
  fieldAt b 0x3C 4 == (crc32c (bytesAt b 0 0x3C ++ b.drop 64)).toNat

/-- The event that the envelope or the type refuses a packet with (R285). -/
def envelopeRefuses (b : List Byte) : Option Ev :=
  if !(envelopeOk b) then some 0x0102 else if 8 < pktType b then some 0x0101 else none

/-- A range of a packet's bytes is zero: reserved bytes of a body (R287). -/
def zeroRange (b : List Byte) (lo hi : Nat) : Bool := allZero (bytesAt b lo (hi - lo))
/-- Everything from an offset on is zero, the header line's check apart. -/
def zeroFrom (b : List Byte) (lo : Nat) : Bool :=
  (if lo < 0x38 then zeroRange b lo 0x38 else true) && allZero (b.drop (Nat.max lo 0x40))

/-- A float is finite and not negative, -0 being accepted (R287). -/
def stepFloat (v : Nat) : Bool := decide (v < 0x7F800000) || v == 0x80000000

/-- The body of a packet keeps to R287. -/
def bodyOk (b : List Byte) : Bool :=
  let n := b.length / 64
  match pktType b with
  | 0 => zeroFrom b 0x10
  | 1 => decide (fieldAt b 0x10 1 ≤ 63) && bitsOf (fieldAt b 0x11 1) 1 7 == 0 && zeroRange b 0x12 0x14 &&
         fieldAt b 0x18 8 % 64 == 0 && zeroFrom b 0x28
  | 2 =>
    let c := fieldAt b 0x11 1
    let end_ := if c ≤ 2 then 0x18 + 16 * c else 0x40 + 16 * (c - 2)
    decide (fieldAt b 0x10 1 ≤ 63 ∧ 1 ≤ c ∧ c ≤ 254 ∧ end_ ≤ 64 * n) && zeroRange b 0x12 0x18 &&
    (List.range c).all (fun k => zeroRange b ((if k < 2 then 0x18 + 16 * k else 0x40 + 16 * (k - 2)) + 2)
      ((if k < 2 then 0x18 + 16 * k else 0x40 + 16 * (k - 2)) + 8)) && zeroFrom b end_
  | 3 => bitsOf (fieldAt b 0x11 1) 1 7 == 0 && zeroRange b 0x14 0x18 && fieldAt b 0x18 8 % 64 == 0 && zeroFrom b 0x28
  | 4 =>
    let c := fieldAt b 0x13 1
    decide (fieldAt b 0x10 1 ≤ 63) && bitsOf (fieldAt b 0x12 1) 3 5 == 0 && decide (c ≤ 16) && n == 1 + ceilDiv c 8 && zeroRange b 0x38 0x3C
  | 5 => bitsOf (fieldAt b 0x14 1) 1 7 == 0 && zeroRange b 0x15 0x16 && (fieldAt b 0x16 2 == 0xFFFF || decide (fieldAt b 0x16 2 ≤ 255)) &&
         zeroFrom b 0x18
  | 6 => stepFloat (fieldAt b 0x14 4) && bitsOf (fieldAt b 0x1C 1) 1 7 == 0 && (!bitOf (fieldAt b 0x1C 1) 0 || stepFloat (fieldAt b 0x18 4)) &&
         zeroFrom b 0x1D
  | 7 => decide (fieldAt b 0x10 1 ≤ 2) && zeroRange b 0x11 0x18 && zeroFrom b 0x20
  | 8 => decide (fieldAt b 0x10 2 ≤ 319) && bitsOf (fieldAt b 0x12 1) 2 6 == 0 && zeroRange b 0x13 0x14 && zeroFrom b 0x18
  | _ => false

/-! ### Completing packets -/

/-- Complete a packet OK. -/
def okPacket (d : DieIx) (q : QueueIx) (b : List Byte) (detail : Nat) (s : State) : State :=
  putCpl d q { cplOk (pktSeq b) (pktType b) (pktTag b) (pktIrq b) with detail := detail } s

/-- Complete a packet WITHHELD without acting on it; a NOP has no record (R286, R460). A job that a cause with event 0x0000
stops is also CANCELLED (R461). -/
def withholdPacket (d : DieIx) (q : QueueIx) (e : Ev) (b : List Byte) (s : State) : State :=
  if pktType b = 0 then s
  else putCpl d q { cplWithheld (pktSeq b) (pktType b) (pktTag b) (pktIrq b) e with cancelled := pktType b == 4 && e == 0 } s

/-- Refuse a packet: one log entry with its SEQ, and its completion record (R285, R465). -/
def refusePacket (d : DieIx) (q : QueueIx) (e : Ev) (b : List Byte) (s : State) : State :=
  withholdPacket d q e b (logEvent e { die := d, queue := some (q, pktSeq b, 0), part := (dieOf s d).owner, unit := 0, detail := 0,
                                       isSkip := false } s)

/-! ### The head of a queue -/

/-- Take the packet at the head of a queue away. -/
def popLine (d : DieIx) (q : QueueIx) (s : State) : State := updQueue d q (fun x => { x with line := x.line.tail }) s

/-- Refused packets at the head of a queue are completed in sequence order, and so are JOB_SUBMITs that an expired BLOCK with
STOP withholds (R285, R286, R291); `f` bounds them. -/
def settleGo (d : DieIx) (q : QueueIx) : Nat → State → State
  | 0, s => s
  | f + 1, s =>
    let qu := queueOf s d q
    if qu.hold.isSome || !(queueOpen s d q) then s
    else match qu.line with
      | .packet _ _ b _ :: _ =>
        match envelopeRefuses b with
        | some e => settleGo d q f (popLine d q (refusePacket d q e b s))
        | none =>
          if qu.stopFollowing && pktType b == 4 then settleGo d q f (popLine d q (withholdPacket d q 0x0401 b s)) else s
      | _ => s

/-- The packet that holds a queue. -/
def holdPacket (s : State) (d : DieIx) (q : QueueIx) : Option (Hold × List Byte) :=
  match (queueOf s d q).hold with
  | some (h, .packet _ _ b _) => some (h, b)
  | _ => none

/-! ### Candidates (R321, R323) -/

/-- A queued job is a candidate: its JOB_SUBMIT, and its role on every other die, stands at the head of a queue that holds fewer
than two admitted jobs. -/
def candidate (s : State) (j : Job) : Bool :=
  j.phase == .queued && j.dies.all fun d =>
    let qu := queueOf s d j.queue
    decide (qu.jobs.length < 2) &&
    (if d = j.die then (match qu.hold with | some (.job i, _) => i == j.id | _ => false)
     else qu.hold.isNone && qu.line.head? == some (.role j.id))

/-- A job has just become a candidate: it is stamped with its age, or refused where it can never fit (R321, R323). -/
def stampJob (s : State) (j : Job) : State :=
  if j.age != 0 || !(candidate s j) then s
  else if tooLarge s j then
    match holdPacket s j.die j.queue with
    | some (_, b) => j.dies.foldl (fun s d => settleGo d j.queue (queueOf s d j.queue).line.length s) (finishEvictions j.part (removeJob j.id (refusePacket j.die j.queue 0x0102 b s)))
    | none => s
  else updJob j.id (fun x => { x with age := s.hearth.ageNext + 1 }) { s with hearth := { s.hearth with ageNext := s.hearth.ageNext + 1 } }

/-- Stamp every job that has become a candidate. -/
def stampAll (s : State) : State := s.jobs.foldl stampJob s

/-- Complete what cannot act at the head of a queue; the evicted sets that only it bound are released (R90). -/
def settleQueue (d : DieIx) (q : QueueIx) (s : State) : State :=
  let s := settleGo d q (queueOf s d q).line.length s
  stampAll (match (dieOf s d).owner with | some p => finishEvictions p s | none => s)

/-- Settle every queue of a list of dies. -/
def settleDies (ds : List DieIx) (s : State) : State := ds.foldl (fun s d => allQueues.foldl (fun s q => settleQueue d q s) s) s

/-- The packet of a type at the head of a queue that may act (R286). -/
def headPacket (s : State) (d : DieIx) (q : QueueIx) (type : Nat) : Option (List Byte) :=
  let qu := queueOf s d q
  if qu.hold.isSome || !(queueOpen s d q) then none
  else match qu.line with
    | .packet _ _ b _ :: _ => if (envelopeRefuses b).isNone && pktType b == type then some b else none
    | _ => none

/-- The place of the staged data of the packet at the head of a queue, as it was when the packet was read (R391). -/
def headStaged (s : State) (d : DieIx) (q : QueueIx) : Option Staged :=
  match (queueOf s d q).line with
  | .packet _ _ _ x :: _ => x
  | _ => none

/-- Act on the packet of a type at the head of a queue: a body that breaks R287 refuses it, else `f` says what it does with the
packet gone from the line; the queue then goes on. -/
def actPacket (d : DieIx) (q : QueueIx) (type : Nat) (f : List Byte → State → State) (s : State) : State :=
  match headPacket s d q type with
  | none => s
  | some b => settleQueue d q ((if bodyOk b then f b else refusePacket d q 0x0102 b) (popLine d q s))

/-- Hold a queue with a packet. -/
def holdQueue (d : DieIx) (q : QueueIx) (h : Hold) (b : List Byte) (s : State) : State :=
  updQueue d q (fun x => { x with hold := some (h, .packet (pktSeq b) (b.length / 64) b none) }) s

/-- Release a queue, and go on. -/
def releaseQueue (d : DieIx) (q : QueueIx) (s : State) : State := settleQueue d q (updQueue d q (fun x => { x with hold := none }) s)

/-! ### Flags and BLOCK (R286, R291, R301) -/

/-- BLOCKs of a queue that wait for flag `f` end: completed OK, the flag cleared where CLEAR is set. -/
def endBlock (d : DieIx) (f : Nat) (q : QueueIx) (s : State) : State :=
  match holdPacket s d q with
  | some (.block g clear _, b) =>
    if g = f then
      let s := releaseQueue d q (okPacket d q b 0 s)
      if clear then clearFlagBit d f s else s
    else s
  | _ => s

/-- Set a flag, and end the BLOCKs that wait for it. -/
def signalFlag (d : DieIx) (f : Nat) (s : State) : State := allQueues.foldl (fun s q => endBlock d f q s) (setFlagBit d f s)

/-! ### Visibility (R280, R281) -/

/-- The store handle that a function's aperture names, with VALID set (R391). -/
def aperture (s : State) (h : HostId) (fn : Nat) : Option (DieIx × Nat) :=
  let v := tblGetD (hostOf s h).apertures fn 0
  if bitOf v 31 then some (dieBits (bitsOf v 0 4), bitsOf v 8 10) else none

/-- Where a packet's SOURCE and ADDRESS lead: nothing for host memory, else through the aperture of the partition's function as it
stands (R391). -/
def stagedAt (s : State) (p : PartIx) (source : Bool) (addr : Nat) : Option Staged :=
  if !source then none
  else match aperture s (partOfIx s p).ownerPort (partOfIx s p).ownerFn with
    | some (d, h) => some (d, h, addr)
    | none => some (0, 1024, addr)

/-- The place of a packet's staged data: of PROGRAM_LOAD and KEYSET_BIND only (R287, R391). -/
def stagedOf (s : State) (d : DieIx) (b : List Byte) : Option Staged :=
  match (dieOf s d).owner with
  | some p => if pktType b == 1 || pktType b == 3 then stagedAt s p (bitOf (fieldAt b 0x11 1) 0) (fieldAt b 0x18 8) else none
  | none => none

/-- Take a packet that has been read: in a quench it is completed WITHHELD at once (R396, R460). -/
def takePacket (d : DieIx) (q : QueueIx) (b : List Byte) (s : State) : State :=
  let qe : Ev := if s.alarm.device then s.alarm.event else match (dieOf s d).owner with
    | some p => (match (partOfIx s p).quenching with | some x => x.1 | none => BitVec.ofNat 16 (partOfIx s p).quenchEvent)
    | none => 0
  if s.alarm.device || (queueOf s d q).quenched then withholdPacket d q qe b s
  else updQueue d q (fun x => { x with line := x.line ++ [.packet (pktSeq b) (b.length / 64) b (stagedOf s d b)] }) s

/-- Read every visible packet of a queue; `f` bounds them. LINES of 0, or across the end of the window, stops the queue (R285). -/
def readGo (d : DieIx) (q : QueueIx) : Nat → State → State
  | 0, s => s
  | f + 1, s =>
    let qu := queueOf s d q
    let l := memBytes qu.window (64 * qu.pos) 64
    if !qu.enabled || qu.stopped || fieldAt l 2 2 ≠ qu.seq then s
    else
      let n := fieldAt l 5 1
      if n = 0 || 1024 < qu.pos + n then updQueue d q (fun x => { x with stopped := true }) s
      else
        let b := memBytes qu.window (64 * qu.pos) (64 * n)
        readGo d q f (takePacket d q b (updQueue d q (fun x => { x with
          pos := (x.pos + n) % 1024, seq := (x.seq + 1) % 2 ^ 16, consumed := (x.consumed + n) % 2 ^ 32 }) s))

/-- Examine line P of a queue and read on (R281). -/
def readQueue (d : DieIx) (q : QueueIx) (s : State) : State := settleQueue d q (readGo d q 1024 s)

end Sys2Proof.Machine
end

