-- ==== Sys2Proof/Machine/Quench.lean ====
section
/-! DEFINITION. Aborts and quenches: of an operation (R132, R196, R220, R278, R452), of a job (R459), of a partition (R460) and
of the device (R461), and the zeroising of secrets (R164, R431, R453). -/

namespace Sys2Proof.Machine

/-! ### Aborting an operation -/

/-- A younger operation in flight writes row `r` of buffer `k` (R114): its data stands. -/
def rowTaken (ys : List Op) (d : DieIx) (k r : Nat) : Bool :=
  ys.any fun y => y.dests.any fun t => match t with
    | .region d' mask row rows => d' == d && mask.getLsbD k && decide (row ≤ r ∧ r < row + rows)
    | _ => false

/-- Rows of a buffer become undefined but for those that younger operations write. -/
def spoilRows (ys : List Op) (d : DieIx) (k row rows draw : Nat) (m : Mem) : Mem :=
  (List.range rows).foldl (fun m i => if rowTaken ys d k (row + i) then m else freeMem m ((row + i) * rowBytes) rowBytes (draw + i)) m

/-- A destination's contents become undefined; a secret-marked handle is zeroised instead (R132, R278). What a younger
operation of the die writes into the same slot or buffer rows stands; `ys` are the younger ones in flight. -/
def spoilDest (ys : List Op) (t : Dest) (s : State) : State :=
  match t with
  | .handle d h =>
    let e := handleOf s d h
    if e.isSecret then zeroHandle d h s
    else { updDie d (fun x => { x with scratch := freeMem x.scratch (e.base * rowBytes) (e.rows * rowBytes) s.free }) s with
           free := s.free + 1 }
  | .store d h =>
    let e := storeOf s d h
    { updStore d h (fun x => { x with digest := none }) (updDie d (fun x =>
        { x with store := freeMem x.store (e.base * rowBytes) (e.rows * rowBytes) s.free }) s) with free := s.free + 1 }
  | .slot d k =>
    if ys.any (·.dests.contains (.slot d k)) then s
    else
      let (bs, s) := freeBytes 64 s
      updDie d (fun x => { x with slots := tblSet x.slots k (bs, (tblGetD x.slots k ([], false)).2) }) s
  | .region d mask row rows =>
    let f (k : Nat) (m : Mem) := if mask.getLsbD k then spoilRows ys d k row rows (s.free + k * rows) m else m
    { updDie d (fun x => { x with bufs := x.bufs.mapIdx f }) s with free := s.free + 8 * rows }
  | .tile d g z =>
    { updDie d (fun x => { x with tiles := tblSet x.tiles (g.val * 8 + z) (freeMem [] 0 16384 s.free) }) s with
      free := s.free + 1 }
  | .cache d g line n =>
    let f (c : Tbl Mem) (i : Nat) := tblSet c (g.val * 2048 + line + i) (freeMem [] 0 256 (s.free + i))
    { updDie d (fun x => { x with cache := (List.range n).foldl f x.cache }) s with free := s.free + n }
  | .scalar d sc => { updDie d (fun x => { x with scalars := tblSet x.scalars sc (Config.freeValue s.free 0 % 2 ^ 64) }) s with
                      free := s.free + 1 }
  | .ring .. | .palette .. | .bnSlot .. | .window .. | .host => s

/-- The ring slots that an operation was filling become undefined (R278). -/
def spoilSlots (d : DieIx) (o : Op) (s : State) : State :=
  o.fills.foldl (fun s f =>
    let g := ringOf s d f.1
    let a := ((handleOf s d g.handle).base + f.2 % g.slots * g.slotRows) * rowBytes
    { updDie d (fun x => { x with scratch := freeMem x.scratch a (g.slotRows * rowBytes) s.free }) s with free := s.free + 1 }) s

/-- Reset a ring in which an aborted operation holds a slot, and poison its backing handle (R248). -/
def resetRing (d : DieIx) (e : Ev) (r : Nat) (s : State) : State :=
  let s := updRing d r (fun x => { x with fill := 0, tail := 0, take := 0, head := 0, filled := [], released := [] }) s
  let s := updDie d (fun x => { x with ops := x.ops.map fun o =>
    { o with fills := o.fills.filter (·.1 != r), takes := o.takes.filter (·.1 != r) } }) s
  poisonHandle d (ringOf s d r).handle e s

/-- The gateway of an operation of a bench member (R397). -/
def gatewayOfOp (s : State) (o : Op) : Option (Nat × MemberReg) := (jobOf s o.job).bind fun j => gatewayOf s j.part

/-- The first stalled transfer of a host port whose Page Request Group waits to be sent, and may be (R274, R275). -/
def waitingGroup (h : HostId) (s : State) : Option (DieIx × Op) :=
  allDies.findSome? fun d => ((dieOf s d).ops.find? fun o => match o.xfer with
    | some x => x.stalled && x.group.isNone && (gatewayOfOp s o).isNone && (match x.host with
        | some e => e.1 == h && !(hostOf s h).priFailed.contains e.2
        | none => false)
    | none => false).map fun o => (d, o)

/-- Page Request Groups outstanding at a host port (R274): its own transfers' and its bench's (R399). -/
def groupsOut (s : State) (h : HostId) : Nat := (hostOf s h).groups.length + (hostOf s h).benchGroups.length

/-- Mark the group that a stalled transfer has sent. -/
def setGroup (d : DieIx) (id g : Nat) (s : State) : State :=
  updDie d (fun y => { y with ops := y.ops.map fun q => if q.id = id then { q with xfer := q.xfer.map fun x => { x with group := some g } } else q }) s

/-- Send the Page Request Group of a stalled transfer; one that finds 32 outstanding waits (R273, R274). A bench member's goes to its
gateway, at whose port it counts (R399). -/
def sendGroup (h : HostId) (d : DieIx) (o : Op) (s : State) : State :=
  match o.xfer, gatewayOfOp s o with
  | some x, some (gw, reg) =>
    let g := s.nextId
    let s := { s with nextId := g + 1, fabric := { s.fabric with benchGroups := s.fabric.benchGroups ++ [(h, g, d, o.id)] } }
    sendMsg .bench d gw 0 (fun v => .forwardedWrite v
      { reg := reg, die := d, queue := o.queue, addr := 0, bytes := [], kind := .pages x.pages, tag := BitVec.ofNat 32 g }) (setGroup d o.id g s)
  | some x, none =>
    if groupsOut s h < 32 then
      let g := s.nextId
      let fn := match x.host with | some e => e.2 | none => 0
      let s := updHost h (fun p => { p with groups := p.groups ++ [(g, d, o.id)] }) { s with nextId := g + 1 }
      emit (.pageRequest h fn g x.pages) (setGroup d o.id g s)
    else s
  | none, _ => s

/-- Send the first page request of a bench member that waits at this gateway (R274, R399); a function whose page requests met a
Response Failure sends none (R275). -/
def sendBench (h : HostId) (s : State) : State :=
  match (hostOf s h).benchWait with
  | [] => s
  | (m, tag, pages) :: t =>
    if (hostOf s h).priFailed.contains m.fn then updHost h (fun p => { p with benchWait := t }) s
    else if 32 ≤ groupsOut s h then s
    else
      let g := s.nextId
      emit (.pageRequest h m.fn g pages) (updHost h (fun p => { p with
        benchWait := t, benchGroups := p.benchGroups ++ [(g, m, tag)] }) { s with nextId := g + 1 })

/-- A group has finished: one that waited is sent (R274). -/
def sendWaiting (h : HostId) (s : State) : State :=
  match waitingGroup h s with
  | some (d, o) => sendGroup h d o s
  | none => sendBench h s

/-- Take an operation out of flight: its scoreboard entries, its outstanding page requests and fabric requests go (R237,
R278). -/
def dropOp (d : DieIx) (id : Nat) (s : State) : State :=
  let gone (h : HostPort) : List (Nat × DieIx × Nat) := h.groups.filter fun g => g.2.2 == id
  let drop (h : HostPort) : HostPort :=
    { h with lateGroups := h.lateGroups ++ (gone h).map (fun g => (g.1, d))
             groups := h.groups.filter fun g => g.2.2 != id }
  let late (k : HostId) (h : HostPort) : HostPort :=
    { h with lateGroups := h.lateGroups ++ (s.fabric.benchGroups.filter fun g => g.1 == k && g.2.2.2 == id).map fun g => (g.2.1, d) }
  let s := updDie d (fun x => { x with ops := x.ops.filter (·.id != id), scoreboard := x.scoreboard.filter (·.op != id) }) s
  let a := !(gone s.hostA).isEmpty
  let b := !(gone s.hostB).isEmpty
  let s := { s with hostA := late .a (drop s.hostA), hostB := late .b (drop s.hostB)
                    fabric := { s.fabric with requests := s.fabric.requests.filter fun r => r.op != id
                                              benchGroups := s.fabric.benchGroups.filter fun g => g.2.2.2 != id } }
  let s := if a then sendWaiting .a s else s
  if b then sendWaiting .b s else s

/-- The rings in which an operation holds slots are reset (R248). -/
def dropClaims (d : DieIx) (e : Ev) (o : Op) (s : State) : State :=
  ((o.fills ++ o.takes).map (·.1)).foldl (fun s r => resetRing d e r s) s

/-- Abort an operation with an event (R132, R196, R220, R278): its destinations are poisoned and undefined, the rings in which
it holds slots are reset. -/
def abortOp (d : DieIx) (e : Ev) (o : Op) (s : State) : State :=
  let ys := (dieOf s d).ops.filter fun y => decide (o.id < y.id)
  let s := spoilSlots d o (o.dests.foldl (fun s t => spoilDest ys t s) s)
  let s := poisonAll e o.dests s
  dropOp d o.id (dropClaims d e o s)

/-! ### Zeroising -/

/-- Zero a big-number slot that matches and mark it invalid (R452, R453). -/
def zeroBnSlots (f : Nat → BnSlot → Bool) (s : State) : State :=
  let g (e : Nat × BnSlot) := if f e.1 e.2 then (e.1, { e.2 with value := 0, valid := false }) else e
  { s with bn := { s.bn with slots := s.bn.slots.map g } }

/-- The destination slots of a big-number instruction (R445). -/
def bnDests : Instr → List Nat
  | .bnCfg _ slot _ _ => [slot]
  | .bnLoad _ slot _ _ => [slot]
  | .modAdd _ d _ _ _ _ => [d]
  | .modSub _ d _ _ _ _ => [d]
  | .modMul _ d _ _ _ _ => [d]
  | .modExp _ d _ _ _ _ => [d]
  | .modInv _ d _ _ _ => [d]
  | .bnRand _ d _ _ => [d]
  | .ecKeygen _ _ d x y _ => [d, x, y]
  | .ecMul _ _ _ _ _ x' y' _ => [x', y']
  | .ecDh _ _ _ _ _ z _ => [z]
  | _ => []

/-- The scalar register that a big-number arithmetic command writes its status into (R445). -/
def bnStatus : Instr → Option Nat
  | .modAdd _ _ _ _ _ sc => some sc
  | .modSub _ _ _ _ _ sc => some sc
  | .modMul _ _ _ _ _ sc => some sc
  | .modExp _ _ _ _ _ sc => some sc
  | .modInv _ _ _ _ sc => some sc
  | .bnRand _ _ _ sc => some sc
  | .ecKeygen _ _ _ _ _ sc => some sc
  | .ecMul _ _ _ _ _ _ _ sc => some sc
  | .ecDh _ _ _ _ _ _ sc => some sc
  | _ => none

/-- The big-number commands that wait or run. -/
def bnInFlight (s : State) : List BnCmd := s.bn.waiting ++ s.bn.running.toList

/-- Remove a job's big-number commands; an aborted running command's destination slots are zeroed and invalid (R452). -/
def abortBn (id : Nat) (s : State) : State :=
  let hit (c : BnCmd) (p : PartIx) (k : Nat) : Bool := (bnDests c.instr).any fun x => p.val * 16 + x == k
  let s := match s.bn.running with
    | some c =>
      match c.part with
      | some p =>
        if c.job == id then zeroBnSlots (fun k _ => hit c p k) { s with bn := { s.bn with running := none } } else s
      | none => s
    | none => s
  { s with bn := { s.bn with waiting := s.bn.waiting.filter fun c => c.part.isNone || c.job != id } }

/-- Zeroise a job's secret-marked destinations and SECRET slots (R164, R452, R459). -/
def zeroJobSecrets (j : Job) (s : State) : State :=
  let s := j.secretDests.foldl (fun s dh => if (handleOf s dh.1 dh.2).isSecret then zeroHandle dh.1 dh.2 s else s) s
  zeroBnSlots (fun k b => b.isSecret && j.dests.contains (.bnSlot j.part (k % 16)) && k / 16 == j.part.val) s

/-! ### Job quench (R459) -/

/-- Quench an admitted job with an event, and complete it WITHHELD (R459, R294). The first quench granted names the event
(R462). How long it ran is timing, so a free number (R293, R338, log 42). -/
def quenchJob (id : Nat) (e : Ev) (cancel : Bool) (s : State) : State :=
  match jobOf s id with
  | none => s
  | some j =>
    let s := updJob id (fun j => { j with quench := some (j.quench.getD e), cancelled := j.cancelled || cancel || e == 0 }) s
    let s := { s with held := s.held.filter fun h => h.job != id }
    let s := allDies.foldl (fun s d => ((dieOf s d).ops.filter (·.job == id)).foldl (fun s o => abortOp d e o s) s) s
    let s := abortBn id s
    let s := poisonAll e (j.dests.filter fun t => match t with | .handle .. | .store .. => true | _ => false) s
    let s := zeroJobSecrets j s
    let (elapsed, s) := freeDraw s
    finishJob id elapsed s

/-- Quench each job of a list. -/
def quenchJobs (ids : List Nat) (e : Ev) (s : State) : State := ids.foldl (fun s i => quenchJob i e false s) s

/-! ### Packets and jobs that never ran -/

/-- A pending PATCH that is withheld is pending no longer (R290). -/
def dropPatch (d : DieIx) (h : Option Hold) (s : State) : State :=
  match h, (dieOf s d).owner with
  | some (.patch slot), some p => updPart p (fun x => { x with programs := tblMod x.programs slot fun g => { g with patchPending := none } }) s
  | _, _ => s

/-- Complete WITHHELD what holds a queue and every packet read behind it (R460). -/
def drainQueue (d : DieIx) (q : QueueIx) (e : Ev) (s : State) : State :=
  let qu := queueOf s d q
  let items := (match qu.hold with | some (_, it) => [it] | none => []) ++ qu.line
  let s := dropPatch d (qu.hold.map (·.1)) s
  let s := updQueue d q (fun x => { x with hold := none, line := [], stopFollowing := false }) s
  items.foldl (fun s it => match it with
    | .packet _ _ b _ => withholdPacket d q e b s
    | .role _ => s) s

/-- Abandon an import without a reason code: its rows go, its slot is FREE, or DAMAGED for a refetch (R82); the twin is told to
discard what it was sent (R101). -/
def dropImport (p : PartIx) (im : Import) (s : State) : State :=
  let s := if im.mirror && im.nextSeg != 0 && mirrored s p then sendTwin 5 p im.tag s else s
  let s := updPart p (fun x => { x with imports := x.imports.filter (·.slot != im.slot) }) s
  updKs p im.slot (fun k => if im.refetch then { k with state := .damaged }
    else { KeySet.zero with lastReason := k.lastReason }) s

/-! ### Partition quench (R460) -/

/-- Zeroise every secret of a partition (R164, R431, R453). -/
def zeroPartSecrets (p : PartIx) (s : State) : State :=
  let ds := ownedDies s p
  let s := ds.foldl (fun s d => ((dieOf s d).handles.filter fun e => e.2.valid && e.2.isSecret).foldl
    (fun s e => zeroHandle d e.1 s) s) s
  let s := ds.foldl (fun s d => updDie d (fun x =>
    { x with drbgOn := false
             bufs := x.bufs.mapIdx fun k m => (x.bufSecret.filter fun r => r.2.1 == k).foldl
               (fun m r => memZero m (r.2.2 * rowBytes) rowBytes) m
             bufSecret := [] }) s) s
  let s := zeroBnSlots (fun k b => b.isSecret && k / 16 == p.val) s
  let s := { s with sec := { s.sec with signQueue := s.sec.signQueue.map fun r => if r.part = p.val then { r with newKey := none } else r } }
  updPart p (fun x => { x with importKey := none
                               sessions := x.sessions.map fun e => (e.1, { e.2 with pool := [], heldDeals := [], outDeals := [], early := [] }) }) s

/-- A partition quench (R460): queues marked QUENCHED, jobs quenched, packets completed WITHHELD, imports abandoned, secrets
zeroised, flags cleared. `restart` says that the queues return to line 0 and sequence number 1 when it ends. -/
def quenchPartition (p : PartIx) (e : Ev) (restart : Bool) (s : State) : State :=
  let ds := ownedDies s p
  let old := (partOfIx s p).quenching
  let s := updPart p (fun x => { x with quenching := some ((old.map (·.1)).getD e, restart || (old.map (·.2)).getD false)
                                        quenchEvent := e.toNat, quenchCount := x.quenchCount + 1 }) s
  let s := ds.foldl (fun s d => updDie d (fun x => { x with queues := x.queues.map fun q => { q with quenched := true } }) s) s
  let s := (s.jobs.filter fun j => j.part == p && j.phase == .admitted).foldl (fun s j => quenchJob j.id e false s) s
  let s := { s with jobs := s.jobs.filter fun j => j.part != p
                    held := s.held.filter fun h => !(ds.contains h.at_.die) }
  let s := ds.foldl (fun s d => allQueues.foldl (fun s q => drainQueue d q e s) s) s
  let s := (partOfIx s p).imports.foldl (fun s im => dropImport p im s) s
  let s := zeroPartSecrets p s
  finishEvictions p (ds.foldl (fun s d => updDie d (fun x => { x with flags := [] }) s) s)

/-! ### Device quench (R461) -/

/-- Zeroise every secret of the part (R2, R431, R436, R453). -/
def zeroDeviceSecrets (s : State) : State :=
  let s := allParts.foldl (fun s p => zeroPartSecrets p s) s
  { s with
    sec := { s.sec with identSk := none, repairKey := none, drbgOn := false
                        signQueue := s.sec.signQueue.map fun r => { r with newKey := none } }
    ports := s.ports.map fun x => { x with sendKey := none, recvKey := none, ephScalar := none }
    bn := { slots := s.bn.slots.map fun e => if e.2.isSecret then (e.1, { e.2 with value := 0, valid := false }) else e
            own := s.bn.own.map fun e => (e.1, { e.2 with value := 0, valid := false })
            waiting := [], running := none } }

/-- A device quench (R461, R512): QUENCH# low, every partition quenched with the cause's event, every secret zeroised. The
first cause stands; only reset leaves it. -/
def quenchDevice (e : Ev) (src : QuenchSource) (s : State) : State :=
  if s.alarm.device then s
  else
    let s := { s with alarm := { s.alarm with device := true, event := e, source := src, quenchLow := true } }
    let s := (allParts.filter fun p => (partOfIx s p).state != .free).foldl (fun s p => quenchPartition p e false s) s
    let s := zeroDeviceSecrets s
    { s with sec := { s.sec with state := .quenched } }

/-- Log a DEVICE event and quench the device (R461). -/
def deviceFail (e : Ev) (d : DieIx) (unit detail : Nat) (s : State) : State :=
  quenchDevice e .internal (logAt e d none unit detail s)

/-- Hold a scratchpad row out of allocation and list it (R234, R457, R468). -/
def holdOutRow (d : DieIx) (row : Nat) (s : State) : State :=
  let s := updDie d (fun x => { x with heldOut := if x.heldOut.contains row then x.heldOut else x.heldOut ++ [row] }) s
  let r := if s.bist.results.contains (d.val, 1, row) then s.bist.results else s.bist.results ++ [(d.val, 1, row)]
  let s := { s with bist := { s.bist with results := r } }
  count d 8 1 s

/-- Hold a stack row out of allocation and list it (R102, R278, R457). -/
def holdOutStack (d : DieIx) (row : Nat) (s : State) : State :=
  let s := updDie d (fun x => { x with heldOutStore := if x.heldOutStore.contains row then x.heldOutStore else x.heldOutStore ++ [row] }) s
  let r := if s.bist.results.contains (d.val, 4, row) then s.bist.results else s.bist.results ++ [(d.val, 4, row)]
  let s := { s with bist := { s.bist with results := r } }
  count d 8 1 s

end Sys2Proof.Machine
end

