-- ==== Sys2Proof/Machine/Issue.lean ====
section
/-! DEFINITION. Issuing a program instruction: which job it belongs to (R289), waiting at issue and reissue (R237, log 4), the
scoreboard (R236 to R238), prefetch-ring claims (R244), skip-and-log (R304) and refusal (R57). -/

namespace Sys2Proof.Machine

/-- What an instruction does when it reaches issue: it waits, wanting ranges, or it is done. -/
inductive Issued where
  | wait (w : Wait) (ranges : List SbEntry)
  /-- It waits, and what it waits for has been set going (a window close). -/
  | waitWith (w : Wait) (ranges : List SbEntry) (s : State)
  | done (s : State)

/-- The admitted jobs of a queue that have come to issue: the first, and the second once the first has issued its last
(R289). -/
def runningJobs (s : State) (d : DieIx) (q : QueueIx) : List Nat :=
  (queueOf s d q).jobs.take (if (queueOf s d q).passed then 2 else 1)

/-- The job whose instructions a queue issues (R289): the last that has come to issue. -/
def runningJob (s : State) (d : DieIx) (q : QueueIx) : Option Job :=
  match runningJobs s d q with
  | [] => none
  | id :: t => jobOf s (t.getLastD id)

/-- An instruction of the second admitted job arrives: the first has issued its last (R289). -/
def passSite (a : Site) (s : State) : State :=
  if a.next && s.reissue.isNone && decide (2 ≤ (queueOf s a.die a.queue).jobs.length) then
    updQueue a.die a.queue (fun x => { x with passed := true }) s
  else s

/-- The job of an instruction: of one that is reissued, the job that it was held for. -/
def siteJob (s : State) (a : Site) : Option Job :=
  match s.reissue with
  | some r => jobOf s r.job
  | none => runningJob s a.die a.queue

/-- The held instruction at the front of a queue. -/
def heldFront (s : State) (d : DieIx) (q : QueueIx) : Option Held :=
  s.held.find? fun h => h.at_.die == d && h.at_.queue == q

/-- Hold an instruction at issue, or keep holding the one that is being reissued (R237). -/
def holdInstr (j : Nat) (at_ : Site) (i : Instr) (w : Wait) (rs : List SbEntry) (s : State) : State :=
  match s.reissue with
  | some r => { s with held := s.held.map fun h => if h.age = r.age then { h with wait := w, ranges := rs } else h }
  | none => { s with held := s.held ++ [{ age := s.nextId, job := j, instr := i, at_ := at_, wait := w, ranges := rs, ringGone := false
                                          ready := if (heldFront s at_.die at_.queue).isNone then some s.nextId else none }],
                     nextId := s.nextId + 1 }

/-- The reissued instruction has issued: it is held no longer. -/
def unhold (s : State) : State :=
  match s.reissue with
  | some r => { s with held := s.held.filter fun h => h.age != r.age }
  | none => s

/-- Held instructions that have come to the head of their queues are ready from now on, the oldest first (R237). -/
def readyHeads (s : State) : State :=
  let front (h : Held) : Bool := (heldFront s h.at_.die h.at_.queue).map (·.age) == some h.age
  { s with held := s.held.zipIdx.map fun h => if h.1.ready.isNone && front h.1 then { h.1 with ready := some (s.nextId + h.2) } else h.1
           nextId := s.nextId + s.held.length }

/-- A big-number command of a queue has not taken effect: it holds the queue (R450). -/
def bnHolds (s : State) (a : Site) : Bool := (bnInFlight s).any fun c => c.part.isSome && c.at_.die == a.die && c.at_.queue == a.queue

/-- Issue a program instruction. It needs an admitted job on its queue (log 3). Behind a held instruction of its queue, or on
a queue that may not issue, it is held. -/
def runInstr (at_ : Site) (i : Instr) (f : Job → State → Issued) (s : State) : State :=
  let s := passSite at_ s
  match siteJob s at_ with
  | none => s
  | some j =>
    if !queueOpen s at_.die at_.queue || bnHolds s at_ || (s.reissue.isNone && (heldFront s at_.die at_.queue).isSome) then
      (match s.reissue with
       | some _ => s
       | none => holdInstr j.id at_ i .behind [] s)
    else
      match f j (unhold s) with
      | .wait w rs => holdInstr j.id at_ i w rs s
      | .waitWith w rs s' => if (jobOf s' j.id).isNone then s' else holdInstr j.id at_ i w rs { s' with held := s.held }
      | .done s' => s'

/-! ### Skips and refusals -/

/-- Log an event once for `n` occurrences, all of which its class counter counts (R465). -/
def logOnce (e : Ev) (n : Nat) (j : Job) (at_ : Site) (unit : Nat) (s : State) : State :=
  if n = 0 then s else count at_.die (9 + e.toNat / 256) (n - 1) (logJob e j at_ unit 0 false s)

/-- Count out-of-range indices and log them once (R215, R266, R468). -/
def countIndexes (j : Job) (at_ : Site) (unit n : Nat) (s : State) : State := logOnce 0x0A03 n j at_ unit (count at_.die 4 n s)

/-- The bank-conflict and regulator stalls of an operation that accesses the scratchpad: how many ac is timing, so free numbers;
0x0303 is logged once where it waited (R194, R240, R241, R305, log 15). -/
def countStalls (j : Job) (at_ : Site) (unit : Nat) (s : State) : State :=
  let (a, s) := freeDraw s
  let (b, s) := freeDraw s
  logOnce 0x0303 a j at_ unit (count at_.die 1 b (count at_.die 0 a s))

/-- Add to the destinations that a job's operations have named (R459). -/
def nameDests (j : Nat) (ds : List Dest) (s : State) : State :=
  updJob j (fun x => { x with dests := x.dests ++ ds.filter fun t => !x.dests.contains t
                              secretDests := x.secretDests ++ ds.filterMap fun t => match t with
                                | .handle d h => if (handleOf s d h).isSecret then some (d, h) else none
                                | _ => none }) s

/-- Skip and log: every destination poisoned, the job runs on and will complete WITHHELD (R304). -/
def skipInstr (e : Ev) (j : Job) (at_ : Site) (unit : Nat) (ds : List Dest) (s : State) : State :=
  let s := nameDests j.id ds s
  let s := logJob e j at_ unit 0 true s
  let s := poisonAll e ds s
  updJob j.id (fun x => { x with skip := some (x.skip.getD (e, at_.off)) }) s

/-- Refuse at issue: every destination poisoned, the event logged, the job quenched (R57, R95). `pe` is the POISON_EVENT. -/
def refuseInstr (e pe : Ev) (j : Job) (at_ : Site) (unit : Nat) (ds : List Dest) (s : State) : State :=
  let s := nameDests j.id ds s
  let s := logJob e j at_ unit 0 false s
  let s := poisonAll pe ds s
  quenchJob j.id e false s

/-! ### The scoreboard (R236 to R238) -/

/-- Two inclusive row intervals overlap. -/
def overlaps (a b : SbEntry) : Bool := decide (a.lo ≤ b.hi ∧ b.lo ≤ a.hi)

/-- A wanted range conflicts with an entry: at least one of them writes (R237). -/
def sbClash (a b : SbEntry) : Bool := (a.write || b.write) && overlaps a b

/-- The smallest interval that covers ranges. -/
def coverAll : List SbEntry → List SbEntry
  | [] => []
  | r :: rs => [rs.foldl (fun a b => { a with lo := Nat.min a.lo b.lo, hi := Nat.max a.hi b.hi }) r]

/-- One where merging joined several ranges. -/
def mergeCount (rs : List SbEntry) : Nat := if 1 < rs.length then 1 else 0

/-- The ranges as they fit the free entries, and how many merges that took; none where even merged they do not fit (R238). -/
def fitRanges (freeEntries : Nat) (reads writes : List SbEntry) : Option (List SbEntry × Nat) :=
  if reads.length + writes.length ≤ freeEntries then some (reads ++ writes, 0)
  else
    let r := coverAll reads
    if r.length + writes.length ≤ freeEntries then some (r ++ writes, mergeCount reads)
    else
      let w := coverAll writes
      if r.length + w.length ≤ freeEntries then some (r ++ w, mergeCount reads + mergeCount writes) else none

/-- Ranges of the operations of the die that reached the head of their queues before this one and still wait to issue
(R237). -/
def olderRanges (s : State) (d : DieIx) : List SbEntry :=
  let before (h : Held) : Bool := match h.ready, s.reissue.bind (·.ready) with
    | none, _ => false
    | some _, none => true
    | some a, some b => decide (a < b)
  (s.held.filter fun h => h.at_.die == d && before h).flatMap (·.ranges)

/-- Row range of `n` rows from row `i` of a handle. -/
def handleRange (s : State) (d : DieIx) (h i n : Nat) (write : Bool) : SbEntry :=
  { lo := (handleOf s d h).base + i, hi := (handleOf s d h).base + i + n - 1, write := write, op := 0 }

/-- A range that is a source and a destination takes a single WRITE entry (R236). -/
def dedupRanges (rs : List SbEntry) : List SbEntry × List SbEntry :=
  let w := rs.filter (·.write)
  let r := rs.filter fun a => !a.write && !w.any fun b => b.lo == a.lo && b.hi == a.hi
  (r, w)

/-- The scoreboard admits ranges now: what entries they take, with the merges made (R237, R238). -/
def sbAdmit (s : State) (d : DieIx) (rs : List SbEntry) : Option (List SbEntry × Nat) :=
  let (r, w) := dedupRanges rs
  match fitRanges (64 - (dieOf s d).scoreboard.length) r w with
  | none => none
  | some (es, m) =>
    if es.any (fun a => (dieOf s d).scoreboard.any (sbClash a) || (olderRanges s d).any (sbClash a)) then none
    else some (es, m)

/-- The ac that an operation has waited for entries are counted (R238); how many they were is free (log 15). -/
def countEntryWait (d : DieIx) (s : State) : State :=
  match s.reissue with
  | some r => if r.wait = .scoreboard then (let (n, s) := freeDraw s; count d 3 n s) else s
  | none => s

/-- Issue under the scoreboard: wait, or go on with the entries it takes. -/
def withScoreboard (d : DieIx) (rs : List SbEntry) (s : State) (k : List SbEntry → State → Issued) : Issued :=
  match sbAdmit s d rs with
  | none => .wait .scoreboard rs
  | some (es, m) => k es (countEntryWait d (count d 2 m s))

/-! ### Operations in flight -/

/-- An operation with nothing in it. -/
def opZero (id job : Nat) (q : QueueIx) (off unit : Nat) : Op :=
  { id := id, unit := unit, job := job, queue := q, off := off, dests := [], srcs := [], fills := [], takes := [],
    flag := none, tongs := 0, clusters := 0, bufSecret := [], keySlots := [], xfer := none, exch := none, coll := none,
    scalars := [], cost := 0 }

/-- Put an operation in flight with its scoreboard entries (R236). -/
def startOp (d : DieIx) (o : Op) (es : List SbEntry) (s : State) : State :=
  let s := nameDests o.job o.dests s
  { updDie d (fun x => { x with ops := x.ops ++ [{ o with id := s.nextId }]
                                scoreboard := x.scoreboard ++ es.map fun e => { e with op := s.nextId } }) s with
    nextId := s.nextId + 1 }

/-! ### Rings (R244 to R246); the counters run modulo 2^32 (R242) -/

/-- The distance from `b` to `a` modulo 2^32. -/
def diff32 (a b : Nat) : Nat := (a + 2 ^ 32 - b) % 2 ^ 32
/-- One more, modulo 2^32. -/
def inc32 (a : Nat) : Nat := (a + 1) % 2 ^ 32

/-- The ring slots that the source operands of an operation take, in operand order: for each operand its ring and whether it
releases; answers the counter values, or none where a slot is not yet filled (R244). -/
def ringSlotsGo (s : State) (d : DieIx) : List (Nat × Bool) → List Nat → Option (List Nat)
  | [], _ => some []
  | (r, rel) :: t, used =>
    let k := (used.filter (· == r)).length
    let g := ringOf s d r
    if k < diff32 g.tail g.take then
      match ringSlotsGo s d t (if rel then r :: used else used) with
      | some l => some ((g.take + k) % 2 ^ 32 :: l)
      | none => none
    else none

/-- The first ring among an operation's sources that offers no slot yet (R244, R247). -/
def unfilledRing (s : State) (d : DieIx) : List (Nat × Bool) → List Nat → Nat
  | [], _ => 0
  | (r, rel) :: t, used =>
    if (used.filter (· == r)).length < diff32 (ringOf s d r).tail (ringOf s d r).take then
      unfilledRing s d t (if rel then r :: used else used)
    else r

/-- The wait of an operation whose ring operands are not all filled (R247). -/
def ringWait (s : State) (d : DieIx) (us : List (Nat × Bool)) : Wait := .ring (unfilledRing s d us []) true

/-- The slots of an operation's ring operands. -/
def ringSlots (s : State) (d : DieIx) (us : List (Nat × Bool)) : Option (List Nat) := ringSlotsGo s d us []

/-- The instruction being reissued waited on a ring that has been deactivated meanwhile (R243). -/
def ringLost (s : State) : Bool := match s.reissue with | some r => r.ringGone | none => false

/-- The rings that an operation names exist and offer enough slots (R243, R244): 0x0104 for an inactive ring, or one that was
deactivated while it waited; 0x0105 for more slots than S. -/
def ringCheck (s : State) (d : DieIx) (us : List (Nat × Bool)) : Option Ev :=
  if ringLost s || us.any (fun u => !(ringOf s d u.1).active) then some 0x0104
  else if us.any (fun u => decide ((ringOf s d u.1).slots < (us.filter fun v => v.1 == u.1 && v.2).length)) then some 0x0105
  else none

/-- Claim the slots of releasing operands (R244). -/
def claimTakes (d : DieIx) (us : List (Nat × Bool)) (s : State) : State :=
  us.foldl (fun s u => if u.2 then updRing d u.1 (fun g => { g with take := inc32 g.take }) s else s) s

/-- The claims that releasing operands hold. -/
def takeClaims (us : List (Nat × Bool)) (slots : List Nat) : List (Nat × Nat) :=
  ((us.zip slots).filter fun x => x.1.2).map fun x => (x.1.1, x.2)

/-- HEAD or TAIL advances over slots done in claim order (R245); `f` bounds the slots. -/
def advance : Nat → Nat → List Nat → Nat × List Nat
  | 0, c, l => (c, l)
  | f + 1, c, l => if l.contains c then advance f (inc32 c) (l.filter (· != c)) else (c, l)

/-- A producer's slot is filled: TAIL advances in claim order (R245). -/
def fillSlot (d : DieIx) (r c : Nat) (s : State) : State :=
  updRing d r (fun g =>
    let l := g.filled ++ [c]
    let a := advance l.length g.tail l
    { g with tail := a.1, filled := a.2 }) s

/-- A releasing consumer's slot is released: HEAD advances in claim order (R245). -/
def releaseSlot (d : DieIx) (r c : Nat) (s : State) : State :=
  updRing d r (fun g =>
    let l := g.released ++ [c]
    let a := advance l.length g.head l
    { g with head := a.1, released := a.2 }) s

/-- First row of a ring slot in its backing handle. -/
def slotRow (g : Ring) (c : Nat) : Nat := c % g.slots * g.slotRows

/-- A handle index names a valid entry that is not the backing handle of an active ring (R230, R246). -/
def handleUse (s : State) (d : DieIx) (h : Nat) : Option Ev :=
  if !(handleOf s d h).valid then some 0x0104 else if (handleOf s d h).ring then some 0x0105 else none

end Sys2Proof.Machine
end

