-- ==== Sys2Proof/Machine/Operands.lean ====
section
/-! DEFINITION. The operands of cluster operations: handles, ring slots and cluster-buffer regions with their header slots
(R115, R226, R230, R244, R246); the objects in them; the keys that the bellows streams (R93); the checks of R57 and R94; the
outcomes of a failed check. -/

namespace Sys2Proof.Machine

/-! ### The outcome of a check -/

/-- What a check says: go on; skip and log (R304); refuse (R57: event, POISON_EVENT); both. -/
inductive Verdict where
  | pass
  | skip (e : Ev)
  | refuse (e pe : Ev)
  | both (e : Ev)
  deriving DecidableEq, Repr

/-- The first verdict that does not pass. -/
def firstFail : List Verdict → Verdict
  | [] => .pass
  | .pass :: t => firstFail t
  | v :: _ => v

/-- Fail on a condition. -/
def failIf (c : Bool) (v : Verdict) : Verdict := if c then v else .pass

/-- Skip and log, and quench the job as well (R228, R229, R243, R251). -/
def skipQuench (e : Ev) (j : Job) (at_ : Site) (unit : Nat) (ds : List Dest) (s : State) : State :=
  quenchJob j.id e false (skipInstr e j at_ unit ds s)

/-- Carry a verdict out, or go on. -/
def onVerdict (v : Verdict) (j : Job) (at_ : Site) (unit : Nat) (ds : List Dest) (s : State) (k : State → State) : State :=
  match v with
  | .pass => k s
  | .skip e => skipInstr e j at_ unit ds s
  | .refuse e pe => refuseInstr e pe j at_ unit ds s
  | .both e => skipQuench e j at_ unit ds s

/-! ### Clusters of a mask -/

/-- The clusters that a mask names, ascending (R114). -/
def maskClusters (m : BitVec 8) : List Nat := (List.range 8).filter fun k => m.getLsbD k

/-- In a region, the first buffer row of limb position `i` of part `p` of an object of `limbs` limbs per part, and its
cluster: each cluster holds its limbs part by part, positions ascending (R49, R114, log 20). -/
def regionPlace (cs : List Nat) (row n limbs p i : Nat) : Nat × Nat :=
  let m := cs.length
  let nIn := (limbs - i % m + m - 1) / m
  (cs.getD (i % m) 0, row + (p * nIn + i / m) * (2 ^ n / 64))

/-- Rows of each cluster that a region of an object takes. -/
def regionRows (cs : List Nat) (n parts limbs : Nat) : Nat := parts * ceilDiv limbs cs.length * (2 ^ n / 64)

/-! ### Sources -/

/-- A source as an operation finds it: where its limbs lie, its header bytes, the rows it may hold, its poison, its
secrecy. -/
structure Src where
  loc : Loc
  row : Nat
  rows : Nat
  hdr : List Byte
  poison : Option Ev
  secret : Bool
  deriving DecidableEq, Repr

/-- POISON_EVENT of a poisoned handle (R232): 0x0000 where a cancel or a stop poisoned it. -/
def Handle.pe (h : Handle) : Option Ev := if h.poisoned then some h.poisonEvent else none

/-- POISON_EVENT of a poisoned store handle (R250). -/
def StoreHandle.pe (h : StoreHandle) : Option Ev := if h.poisoned then some h.poisonEvent else none

/-- The ring operands among locations, in operand order. -/
def ringUses (ls : List Loc) : List (Nat × Bool) := ls.filterMap fun l => match l with
  | .ring r rel => some (r, rel)
  | _ => none

/-- A location names what exists (R230, R243, R246). -/
def locCheck (s : State) (d : DieIx) : Loc → Verdict
  | .handle h => match handleUse s d h with | some e => .skip e | none => .pass
  | .ring .. => .pass
  | .region .. => .pass

/-- A destination location: a ring is no destination of a cluster operation (R115, R244). -/
def dstCheck (s : State) (d : DieIx) : Loc → Verdict
  | .ring .. => .skip 0x0105
  | l => locCheck s d l

/-- The destinations that locations name; `rows` is the region's extent. -/
def locDests (d : DieIx) (mask : BitVec 8) (rows : Nat) (l : Loc) : List Dest :=
  match l with
  | .handle h => [.handle d h]
  | .ring r _ => [.ring d r]
  | .region row k => [.slot d k, .region d mask row rows]

/-- Find a source; `c` is the ring counter of its slot. A region whose rows received data from a secret-marked handle counts as such a
handle does: R111 names handles only, and the model carries the mark on (log 92). -/
def findSrc (s : State) (d : DieIx) (l : Loc) (c : Nat) : Src :=
  match l with
  | .handle h =>
    let e := handleOf s d h
    { loc := l, row := e.base, rows := e.rows, hdr := memBytes (dieOf s d).scratch (e.base * rowBytes) 64,
      poison := e.pe, secret := e.isSecret }
  | .ring r _ =>
    let g := ringOf s d r
    let e := handleOf s d g.handle
    let b := e.base + slotRow g c
    { loc := l, row := b, rows := g.slotRows, hdr := memBytes (dieOf s d).scratch (b * rowBytes) 64, poison := e.pe,
      secret := e.isSecret }
  | .region row k =>
    let x := tblGetD (dieOf s d).slots k ([], false)
    { loc := l, row := row, rows := 16384 - row, hdr := bytesAt x.1 0 64, poison := if x.2 then some 0x0107 else none,
      secret := (dieOf s d).bufSecret.any fun r => r.2.2 == row }

/-- Find every source, ring slots in operand order. -/
def findSrcs (s : State) (d : DieIx) : List Loc → List Nat → List Src
  | [], _ => []
  | l :: ls, cs =>
    match l with
    | .ring .. => findSrc s d l (cs.headD 0) :: findSrcs s d ls cs.tail
    | _ => findSrc s d l 0 :: findSrcs s d ls cs

/-- The header of a source. -/
def Src.header (x : Src) : Header := headerOfBytes x.hdr

/-- Check 1 of R57: the first poisoned source in operand order, by handle or by header (R232). -/
def poisonCheck (xs : List Src) : Verdict :=
  match xs.findSome? (fun x => if x.poison.isSome then x.poison
      else if x.hdr.length == 64 && (headerOfBytes x.hdr).poisoned then some (0x0107 : Ev) else none) with
  | some e => .refuse 0x0107 e
  | none => .pass

/-- The limbs of a source object of `limbs` limbs per part. -/
def srcBody (s : State) (d : DieIx) (cs : List Nat) (x : Src) (limbs : Nat) : PolyBody :=
  let h := x.header
  let rl := 2 ^ h.logN / 64 * rowBytes
  match x.loc with
  | .region row _ =>
    (List.range h.parts).map fun p => (List.range limbs).map fun i =>
      let (k, r) := regionPlace cs row h.logN limbs p i
      unpackPairs (bufBytes s d k (r * rowBytes) rl)
  | _ => bodyOfBytes h.parts limbs h.logN
      (memBytes (dieOf s d).scratch ((x.row + 1) * rowBytes) (h.parts * limbs * rl))

/-- A source's rows suffice for its object (R226), or its region stays within the buffer (R115). -/
def srcFits (cs : List Nat) (x : Src) (pCount limbs : Nat) : Bool :=
  let h := x.header
  match x.loc with
  | .region .. => decide (regionRows cs h.logN h.parts limbs ≤ x.rows)
  | _ => decide (objRows h pCount ≤ x.rows)

/-! ### Destinations -/

/-- A destination's rows suffice for an object of the given header (R226, R115). -/
def dstFits (s : State) (d : DieIx) (cs : List Nat) (l : Loc) (h : Header) (pCount limbs : Nat) : Bool :=
  match l with
  | .handle k => decide (objRows h pCount ≤ (handleOf s d k).rows)
  | .ring .. => false
  | .region row _ => decide (row + regionRows cs h.logN h.parts limbs ≤ 16384)

/-- Write one limb of an object into a region. -/
def putRegionLimb (d : DieIx) (cs : List Nat) (row n limbs p i : Nat) (l : Limb) (s : State) : State :=
  let (k, r) := regionPlace cs row n limbs p i
  putBuf d k (r * rowBytes) (packPairs l) s

/-- Buffer rows that receive data from secret-marked handles are remembered with their job (R111). -/
def markRegion (d : DieIx) (cs : List Nat) (job row n parts limbs : Nat) (s : State) : State :=
  let rs := (List.range (regionRows cs n parts limbs)).flatMap fun r => cs.map fun k => (job, k, row + r)
  updDie d (fun x => { x with bufSecret := x.bufSecret ++ rs.filter fun r => !x.bufSecret.contains r }) s

/-- Write an object: its header row and its limbs (R49, R51, R115). A header slot takes the header and is poisoned no
longer. -/
def putObj (d : DieIx) (cs : List Nat) (l : Loc) (h : Header) (b : PolyBody) (s : State) : State :=
  match l with
  | .handle k => putHandle d k 0 (headerBytes h ++ List.replicate 224 0 ++ bodyBytes b) s
  | .ring .. => s
  | .region row k =>
    let s := updDie d (fun x => { x with slots := tblSet x.slots k (headerBytes h, false) }) s
    b.zipIdx.foldl (fun s pp => pp.1.zipIdx.foldl (fun s li =>
      putRegionLimb d cs row h.logN pp.1.length pp.2 li.2 li.1 s) s) s

/-- Rewrite the header of an object, its limbs left where they lie (R117). -/
def putHead (d : DieIx) (l : Loc) (h : Header) (s : State) : State :=
  match l with
  | .handle k => putHandle d k 0 (headerBytes h) s
  | .ring .. => s
  | .region _ k => updDie d (fun x => { x with slots := tblSet x.slots k (headerBytes h, false) }) s

/-! ### Keys (R87 to R96) -/

/-- The stack row that holds bundle row `r` of a set's copy on die `d`. -/
def stackRow (k : KeySet) (d r : Nat) : Nat :=
  match k.rows.find? (fun x => x.1 == d && decide (x.2.1 ≤ r ∧ r < x.2.1 + x.2.2.1)) with
  | some x => x.2.2.2 + (r - x.2.1)
  | none => 0

/-- Bundle row of the first b-half row of a key: after the header row and the key table (R73 to R75). -/
def keyFirstRow (k : KeySet) (e : KeyEntry) : Nat := 1 + ceilDiv k.keys.length 9 + e.rowOffset

/-- The b-half limb at position `pos` of digit `j` of a key (R75). -/
def keyLimb (s : State) (d : DieIx) (k : KeySet) (e : KeyEntry) (pCount j pos : Nat) : Limb :=
  let rows := 2 ^ k.logN / 64
  let r := keyFirstRow k e + (j * (e.topLevel + 1 + pCount) + pos) * rows
  unpackPairs ((List.range rows).flatMap fun i => memBytes (dieOf s d).store (stackRow k d.val (r + i) * rowBytes) rowBytes)

/-- The key digits that the bellows streams at a level: b-halves from the store, a-halves from the seed (R70, R93). -/
def keyDigits (s : State) (d : DieIx) (c : Chain) (k : KeySet) (e : KeyEntry) (level : Nat) : List KeyDigit :=
  let cat := s.fuses.primes
  let qs := c.qPrimes cat level
  let ps := c.pPrimes cat
  (List.range (c.beta level)).map fun j =>
    let bq := (List.range qs.length).map fun i => keyLimb s d k e c.pCount j i
    let bp := (List.range ps.length).map fun i => keyLimb s d k e c.pCount j (e.topLevel + 1 + i)
    let aq := qs.zipIdx.map fun q => seedExpand k.seed e.index j q.2 q.1 (2 ^ k.logN)
    let ap := ps.zipIdx.map fun q => seedExpand k.seed e.index j (64 + q.2) q.1 (2 ^ k.logN)
    (bq ++ bp, aq ++ ap)

/-- The key of a kind and Galois element in a set (R66). -/
def findKey (k : KeySet) (kind galois : Nat) : Option KeyEntry :=
  k.keys.find? fun e => e.kind == kind && e.galois == galois

/-- What the binding check answers (R94, R96). -/
inductive Bind where
  | ok
  | wait
  | fail (e : Ev)
  deriving DecidableEq, Repr

/-- The binding check of one stream, in order: kind, Galois element and level against the header (R94). A set that is DAMAGED
or REFETCHING makes the stream wait once order 1 has passed (R96). -/
def bindCheck (s : State) (d : DieIx) (p : PartIx) (slot : Nat) (h : Header) (kind galois level : Nat) : Bind :=
  let k := ksOf s p slot
  if !(k.homeMask.getLsbD d.val && (k.state == .resident || k.state == .damaged || k.state == .refetching)) then .fail 0x0201
  else if k.state != .resident then .wait
  else if k.tag != h.keysetTag then .fail 0x0201
  else if k.paramSet != h.paramSet || k.scheme != h.scheme || k.logN != h.logN || k.chainId != h.chainId then .fail 0x0202
  else match findKey k kind galois with
    | none => .fail 0x0201
    | some e => if e.topLevel < level then .fail 0x0202 else .ok

/-- The binding checks of every stream of an operation at issue (R113): the first that does not pass. -/
def bindAll (s : State) (d : DieIx) (p : PartIx) (slot : Nat) (h : Header) : List (Nat × Nat × Nat) → Bind
  | [] => .ok
  | (kind, g, l) :: t => match bindCheck s d p slot h kind g l with
    | .ok => bindAll s d p slot h t
    | b => b

/-- The binding checks of every stream against each of the headers that the key meets (R94, R126). -/
def bindEach (s : State) (d : DieIx) (p : PartIx) (slot : Nat) (ks : List (Nat × Nat × Nat)) : List Header → Bind
  | [] => .ok
  | h :: t => match bindAll s d p slot h ks with
    | .ok => bindEach s d p slot ks t
    | b => b

/-- Key streams served: USE_COUNT, LAST_USE, the job's bindings and its key-set tags (R85, R90, R442). -/
def drawStreams (p : PartIx) (slot : Nat) (j : Job) (h : Header) (n : Nat) (s : State) : State :=
  if n = 0 then s
  else
    let s := updKs p slot (fun k => { k with useCount := (k.useCount + n) % 2 ^ 64, lastUse := s.hearth.boundaries % 2 ^ 32 }) s
    updJob j.id (fun x => { x with
      binds := if x.binds.contains slot then x.binds else x.binds ++ [slot]
      keyTags := if x.keyTags.contains h.keysetTag then x.keyTags else x.keyTags ++ [h.keysetTag] }) s

/-! ### The checks of R57 -/

/-- Sources agree in the fields of check 3. -/
def sameRing (a b : Header) : Bool :=
  a.scheme == b.scheme && a.logN == b.logN && a.chainId == b.chainId && a.paramSet == b.paramSet && a.tIndex == b.tIndex

/-- Check 4: the tag is equal across ciphertexts; a plaintext's is zero or theirs. -/
def tagCheck (hs : List Header) : Bool :=
  match hs.filter (·.isCt) with
  | [] => true
  | c :: _ => hs.all fun h => h.keysetTag == c.keysetTag || (!h.isCt && h.keysetTag == 0)

/-- |a - b| of two naturals. -/
def natDiff (a b : Nat) : Nat := a - b + (b - a)

/-- Check 6 for additions. -/
def addScales (a b : Header) : Bool :=
  if a.scheme = 1 then decide (natDiff a.scale b.scale ≤ 16) else a.scale == b.scale

/-- A CKKS scale of 1 to 2,160 bits (R121). -/
def scaleOk (h : Header) : Bool := h.scheme != 1 || decide (256 ≤ h.scale ∧ h.scale ≤ 552960)

end Sys2Proof.Machine
end

