-- ==== Sys2Proof/Machine/Cluster.lean ====
section
/-! DEFINITION. The shared issue of a cluster operation (R113 to R115): operands, ring slots, the scoreboard, the checks of R57
in order, the result headers, the binding check, and the result. -/

namespace Sys2Proof.Machine

/-- What distinguishes one cluster operation from another. -/
structure CluOp where
  srcs : List Loc
  dsts : List Loc
  /-- Outputs it produces: check 2 asks for as many destinations. -/
  outs : Nat
  /-- The operation's own form (check 2), given the chain if it is registered. -/
  form : Option Chain → List Header → Bool
  /-- A key-switching operation needs P limbs (check 3, R45). -/
  keySwitch : Bool
  /-- Check 5 beyond equal levels. -/
  level : List Header → Verdict
  /-- Check 6. -/
  scale : List Header → Bool
  /-- Result headers by R59; the flag says that R60 settles FLOOR and DEGRADED. -/
  heads : Chain → List Nat → List Header → List (Header × Bool)
  /-- Key streams: KIND, Galois element, level. -/
  streams : Header → List (Nat × Nat × Nat)
  slot : Nat
  /-- The headers that the binding check is made against (R94). -/
  bound : List Header → List Header
  /-- Key streams drawn, from the number of keys that the check names (R141). -/
  drawn : Nat → Nat
  /-- The limbs of every result. -/
  body : RingCtx → List Header → List (List KeyDigit) → List PolyBody → List PolyBody
  /-- A rewrite of the header in place: no cluster time (R117). -/
  inPlace : Bool
  /-- Time in ac: chain, headers, clusters of the mask, ports charged for each source and destination (R116). -/
  cost : Chain → List Header → Nat → (List Nat) → Nat → Nat

/-- Limb positions of each part of an object (R49). -/
def limbsOf (c : Chain) (h : Header) : Nat := h.level + 1 + if h.extended then c.pCount else 0

/-- Check 2 for ciphertext and plaintext operands (R57, R56): sound headers within range, no share, one destination for each
output, one NTT domain, and the operation's own form; a seeded operand is also skipped (R56, log 21). -/
def formCheck (o : CluOp) (c : Option Chain) (xs : List Src) (hs : List Header) : Verdict :=
  let bad := xs.any (fun x => !(headerSound x.hdr)) || hs.any (fun h => !(headerInRange h)) || hs.any (·.share) ||
    o.dsts.length != o.outs
  if bad then .refuse 0x0102 0x0102
  else if hs.any (·.seeded) then .both 0x0102
  else failIf (hs.any (fun h => h.ntt != (hs.headD headerZero).ntt) || !(o.form c hs)) (.refuse 0x0102 0x0102)

/-- Check 3 (R57, R45). -/
def ringCheck3 (keySwitch : Bool) (c : Option Chain) (hs : List Header) : Verdict :=
  match c with
  | none => .refuse 0x0202 0x0202
  | some c =>
    let h := hs.headD headerZero
    failIf (hs.any (fun x => !(sameRing h x)) || hs.any (fun x => decide (c.qCount ≤ x.level)) ||
      (h.scheme == 2 && c.t h.tIndex == 0) || (keySwitch && c.pCount == 0)) (.refuse 0x0202 0x0202)

/-- Check 5: equal levels. -/
def levelCheck (hs : List Header) : Verdict :=
  failIf (hs.any fun h => h.level != (hs.headD headerZero).level) (.refuse 0x0102 0x0102)

/-- The six checks of R57 in order, and R121 on the results. -/
def checks57 (o : CluOp) (cat : List Nat) (c : Option Chain) (xs : List Src) : Verdict :=
  let hs := xs.map (·.header)
  firstFail [poisonCheck xs, formCheck o c xs hs, ringCheck3 o.keySwitch c hs,
    failIf (!(tagCheck hs)) (.refuse 0x0201 0x0201), levelCheck hs, o.level hs,
    failIf (!(o.scale hs)) (.refuse 0x0205 0x0205),
    match c with
    | some c => failIf ((o.heads c cat hs).any fun h => !(scaleOk h.1)) (.refuse 0x0205 0x0205)
    | none => .pass]

/-- The result headers with FLOOR and DEGRADED (R59 to R61). -/
def settled (o : CluOp) (c : Chain) (cat : List Nat) (hs : List Header) : List Header :=
  (o.heads c cat hs).map fun h => if h.2 then settle c cat hs h.1 else h.1

/-- The operation sets DEGRADED where every ciphertext source was free of it (R61). -/
def newlyDegraded (hs outs : List Header) : Bool :=
  outs.any (fun h => h.isCt && h.degraded) && !hs.any (fun h => h.isCt && h.degraded)

/-- Destinations with the region rows that an object of the first result takes. -/
def allDests (d : DieIx) (mask : BitVec 8) (rows : Nat) (ls : List Loc) : List Dest := ls.flatMap (locDests d mask rows)

/-- The scratchpad ranges that locations name (R236): whole handles; rings and regions take none (R239, R246). -/
def locRanges (s : State) (d : DieIx) (write : Bool) (ls : List Loc) : List SbEntry :=
  ls.filterMap fun l => match l with
    | .handle h => some (handleRange s d h 0 (handleOf s d h).rows write)
    | _ => none

/-- The port charge of a location: 0 in the cluster buffer (R116). -/
def portCharge (n : Nat) : Loc → Nat
  | .region .. => 0
  | _ => costF n

/-- What an operation does once every check has passed: results written, streams counted, the operation in flight. -/
def runClu (at_ : Site) (mask : BitVec 8) (o : CluOp) (j : Job) (c : Chain) (xs : List Src) (slots : List Nat)
    (es : List SbEntry) (s : State) : State :=
  let d := at_.die
  let cs := maskClusters mask
  let cat := s.fuses.primes
  let hs := xs.map (·.header)
  let h := hs.headD headerZero
  let outs := settled o c cat hs
  let rows := (outs.map fun x => regionRows cs x.logN x.parts (limbsOf c x)).foldl Nat.max 0
  let ds := allDests d mask rows o.dsts
  let keys := (o.streams h).map fun k =>
    match findKey (ksOf s j.part o.slot) k.1 k.2.1 with
    | some e => keyDigits s d c (ksOf s j.part o.slot) e k.2.2
    | none => []
  let bodies := o.body (ringCtx c cat h) hs keys (xs.map fun x => srcBody s d cs x (limbsOf c x.header))
  let s := if newlyDegraded hs outs then logJob 0x0204 j at_ 1 0 false s else s
  let s := drawStreams j.part o.slot j h (o.drawn keys.length) s
  let s := claimTakes d (ringUses o.srcs) s
  let s := if o.inPlace then (o.dsts.zip outs).foldl (fun s x => putHead d x.1 x.2 s) s
    else (o.dsts.zip (outs.zip bodies)).foldl (fun s x => putObj d cs x.1 x.2.1 x.2.2 s) s
  let s := if xs.any (·.secret) then (o.dsts.zip outs).foldl (fun s x => match x.1 with
      | .region row _ => markRegion d cs j.id row x.2.logN x.2.parts (limbsOf c x.2) s
      | _ => s) s else s
  let ports := xs.map fun x => portCharge h.logN x.loc
  let fd := (o.dsts.map (portCharge h.logN)).foldl Nat.max 0
  if o.inPlace then nameDests j.id ds s
  else startOp d { opZero 0 j.id at_.queue at_.off 1 with
    dests := ds, takes := takeClaims (ringUses o.srcs) slots, clusters := mask
    srcs := allDests d mask 0 o.srcs
    keySlots := keys.map fun _ => o.slot, cost := o.cost c hs cs.length ports fd } es s

/-- A location that carries a secret mark on: a secret-marked handle, or a region, whose rows are marked (R111). -/
def keepsSecret (s : State) (d : DieIx) : Loc → Bool
  | .handle h => (handleOf s d h).isSecret
  | .ring .. => false
  | .region .. => true

/-- What secret-marked sources give becomes clear only by opening: a result that is no ciphertext goes where the mark goes with it
(R165, log 98). -/
def secretOut (s : State) (d : DieIx) (secret : Bool) (outs : List (Loc × Header)) : Verdict :=
  failIf (secret && outs.any fun x => !x.2.isCt && !(keepsSecret s d x.1)) (.skip 0x0105)

/-- Issue a cluster operation (R113): operands that do not exist and an empty mask are skipped (R114, R230, R243, R246); rings
and the scoreboard make it wait; then the checks of R57, the extents (R115, R226), the binding check (R94, R96). -/
def issueClu (at_ : Site) (mask : BitVec 8) (o : CluOp) (j : Job) (s : State) : Issued :=
  let d := at_.die
  let cs := maskClusters mask
  let ds := allDests d mask 0 o.dsts
  let us := ringUses o.srcs
  let pre := firstFail (o.srcs.map (locCheck s d) ++ o.dsts.map (dstCheck s d) ++
    [match ringCheck s d us with | some e => .skip e | none => .pass, failIf (mask == 0) (.skip 0x0105)])
  let rs := locRanges s d false o.srcs ++ locRanges s d true o.dsts
  if pre != .pass then .done (onVerdict pre j at_ 1 ds s id)
  else match ringSlots s d us with
    | none => .wait (ringWait s d us) rs
    | some slots => withScoreboard d rs s fun es s =>
      let xs := findSrcs s d o.srcs slots
      let c := chainOf s j.part (xs.headD (findSrc s d (.handle 0) 0)).header.chainId
      let v := checks57 o s.fuses.primes c xs
      if v != .pass then .done (onVerdict v j at_ 1 ds s id)
      else match c with
        | none => .done s
        | some c =>
          let hs := xs.map (·.header)
          let outs := settled o c s.fuses.primes hs
          if xs.any (fun x => !(srcFits cs x c.pCount (limbsOf c x.header))) ||
              (o.dsts.zip outs).any (fun x => !(dstFits s d cs x.1 x.2 c.pCount (limbsOf c x.2))) ||
              secretOut s d (xs.any (·.secret)) (o.dsts.zip outs) != .pass then
            .done (skipInstr 0x0105 j at_ 1 ds s)
          else
            let h := hs.headD headerZero
            match bindEach s d j.part o.slot (o.streams h) (o.bound hs) with
            | .wait => .wait (.keyset o.slot ds) rs
            | .fail e => .done (refuseInstr e e j at_ 2 ds s)
            | .ok => .done (runClu at_ mask o j c xs slots es s)

/-- Run a cluster operation as a program instruction. -/
def clusterInstr (at_ : Site) (mask : BitVec 8) (i : Instr) (o : CluOp) (s : State) : State :=
  runInstr at_ i (issueClu at_ mask o) s

/-- An operation with one result whose header is the first source's, changed by `f` (R59). -/
def unaryHead (f : Chain → List Nat → Header → Header) (c : Chain) (cat : List Nat) (hs : List Header) : List (Header × Bool) :=
  [(f c cat (hs.headD headerZero), true)]

/-- A plain cluster operation: no key, one destination, no further checks. -/
def cluPlain (srcs : List Loc) (dst : Loc) : CluOp :=
  { srcs := srcs, dsts := [dst], outs := 1, form := fun _ _ => true, keySwitch := false, level := fun _ => .pass,
    scale := fun _ => true, heads := unaryHead fun _ _ h => h, streams := fun _ => [], slot := 0, bound := fun hs => [hs.headD headerZero], drawn := id,
    body := fun _ _ _ b => [b.headD []], inPlace := false, cost := fun _ _ _ _ _ => 0 }

/-- The first header. -/
def hd1 (hs : List Header) : Header := hs.headD headerZero
/-- The second header. -/
def hd2 (hs : List Header) : Header := hs.getD 1 headerZero

/-- T of R116 with one write row charge `w` and read charges by source, per limb position. -/
def elemCost (k : Chain → List Header → Nat) (c : Nat → Nat) (r : List Nat → Nat) (w : Nat → Nat) :
    Chain → List Header → Nat → List Nat → Nat → Nat :=
  fun ch hs m ports fd => costT (k ch hs) m (c (hd1 hs).logN) (r ports) (w fd)

end Sys2Proof.Machine
end

