-- ==== Sys2Proof/Machine/PolyOps.lean ====
section
/-! DEFINITION. The cluster operations of R117 to R123 and R523: transforms, element-wise operations, level drop, basis
conversion, rescale, mod-switch, ENCODE and DECODE. -/

namespace Sys2Proof.Machine

/-- k·L' limb positions of the first source (R117). -/
def posKL (c : Chain) (hs : List Header) : Nat := (hd1 hs).parts * limbsOf c (hd1 hs)

/-- Forward NTT (R106, R117). -/
def opNtt (src dst : Loc) : CluOp :=
  { cluPlain [src] dst with
    form := fun _ hs => !(hd1 hs).ntt
    heads := unaryHead fun _ _ h => { h with ntt := true }
    body := fun r hs _ b => [mapLimbs (r.primes (hd1 hs).extended) (fun q l => nttLimb q r.n l) (b.headD [])]
    cost := elemCost posKL costC (·.sum) id }

/-- Inverse NTT (R106, R117). -/
def opIntt (src dst : Loc) : CluOp :=
  { cluPlain [src] dst with
    form := fun _ hs => (hd1 hs).ntt
    heads := unaryHead fun _ _ h => { h with ntt := false }
    body := fun r hs _ b => [mapLimbs (r.primes (hd1 hs).extended) (fun q l => inttLimb q r.n l) (b.headD [])]
    cost := elemCost posKL costC (·.sum) id }

/-- Two objects of one kind, form and layout (R117: add and subtract). -/
def sameForm (a b : Header) : Bool := a.formatTag == b.formatTag && a.parts == b.parts && a.extended == b.extended

/-- The NOISE of a sum (R59). -/
def sumNoise (hs : List Header) : Nat := newNoise (hs.take 2) (lsum (hd1 hs).noise (hd2 hs).noise)

/-- Add or subtract by a lane operation (R105, R117). -/
def opSum (f : Nat → Limb → Limb → Limb) (a b dst : Loc) : CluOp :=
  { cluPlain [a, b] dst with
    form := fun _ hs => sameForm (hd1 hs) (hd2 hs)
    scale := fun hs => addScales (hd1 hs) (hd2 hs)
    heads := fun _ _ hs => [({ hd1 hs with noise := sumNoise hs }, true)]
    body := fun r hs _ b => [zipLimbs (r.primes (hd1 hs).extended) f (b.headD []) (b.getD 1 [])]
    cost := elemCost posKL costE (·.sum) id }

/-- Negate (R117). -/
def opNeg (src dst : Loc) : CluOp :=
  { cluPlain [src] dst with
    body := fun r hs _ b => [mapLimbs (r.primes (hd1 hs).extended) limbNeg (b.headD [])]
    cost := elemCost posKL costE (·.sum) id }

/-- A ciphertext and a plaintext of one layout. -/
def ctPt (hs : List Header) : Bool :=
  (hd1 hs).isCt && !(hd2 hs).isCt && (hd1 hs).extended == (hd2 hs).extended

/-- Plaintext add: the plaintext enters part 0 (R117). -/
def opPtAdd (ct pt dst : Loc) : CluOp :=
  { cluPlain [ct, pt] dst with
    form := fun _ hs => ctPt hs
    scale := fun hs => addScales (hd1 hs) (hd2 hs)
    heads := fun _ _ hs => [({ hd1 hs with noise := sumNoise hs }, true)]
    body := fun r hs _ b =>
      let x := b.headD []
      let ps := r.primes (hd1 hs).extended
      [(zipLimbs ps limbAdd (x.take 1) (b.getD 1 [])) ++ x.drop 1]
    cost := elemCost posKL costE (·.sum) id }

/-- The SCALE of a product: the sum, or the product of the correction factors modulo t (R122, R123). -/
def mulScale (c : Chain) (a b : Header) : Nat :=
  if a.scheme = 1 then a.scale + b.scale else a.scale * b.scale % c.t a.tIndex

/-- The ledger of a product from the two NOISE values (R59). -/
def mulNoise (a b : Header) (e1 e2 : Int) : Int :=
  if a.scheme = 1 then lsum (lsum (sOf b.scale + e1) (sOf a.scale + e2)) (e1 + e2) else e1 + e2

/-- The header of a product. -/
def mulHead (c : Chain) (hs : List Header) : Header :=
  { hd1 hs with scale := mulScale c (hd1 hs) (hd2 hs)
                noise := newNoise (hs.take 2) (mulNoise (hd1 hs) (hd2 hs) (hd1 hs).noise (hd2 hs).noise) }

/-- Plaintext multiply (R117). -/
def opPtMul (ct pt dst : Loc) : CluOp :=
  { cluPlain [ct, pt] dst with
    form := fun _ hs => ctPt hs && (hd1 hs).parts == 2 && (hd1 hs).ntt
    heads := fun c _ hs => [(mulHead c hs, true)]
    body := fun r hs _ b => [ptMul (r.primes (hd1 hs).extended) (b.headD []) (partOf (b.getD 1 []) 0)]
    cost := elemCost posKL costE (·.sum) id }

/-- Ciphertext multiply (R117). -/
def opCtMul (a b dst : Loc) : CluOp :=
  { cluPlain [a, b] dst with
    form := fun _ hs => (hd1 hs).isCt && (hd2 hs).isCt && (hd1 hs).parts == 2 && (hd2 hs).parts == 2 && (hd1 hs).ntt &&
      (hd1 hs).extended == (hd2 hs).extended
    heads := fun c _ hs => [({ mulHead c hs with parts := 3 }, true)]
    body := fun r hs _ b => [ctMul (r.primes (hd1 hs).extended) (b.headD []) (b.getD 1 [])]
    cost := elemCost (fun c hs => limbsOf c (hd1 hs)) (fun n => 4 * costE n) (fun r => 2 * r.sum) (fun w => 3 * w) }

/-- Level drop (R59, R117): in place it rewrites only the header (log 22). -/
def opLevelDrop (src dst : Loc) (level : Int) : CluOp :=
  { cluPlain [src] dst with
    level := fun hs => if level < 0 then .refuse 0x0203 0x0203
      else failIf (decide ((hd1 hs).level ≤ level.toNat)) (.skip 0x0102)
    heads := unaryHead fun _ _ h => { h with level := level.toNat }
    body := fun r _ _ b => [levelDropBody r level.toNat (b.headD [])]
    inPlace := decide (src = dst)
    cost := elemCost (fun c hs => (hd1 hs).parts * (level.toNat + 1 + if (hd1 hs).extended then c.pCount else 0)) (fun _ => 0)
      (·.sum) id }

/-- The two position sets of a basis conversion are disjoint, non-empty, and within the layout (R523). -/
def setsOk (n : Nat) (a b : List Nat) : Bool :=
  !a.isEmpty && !b.isEmpty && decide (a ++ b).Nodup && (a ++ b).all (fun i => decide (i < n))

/-- Basis conversion (R109, R523). -/
def opBasisConv (src dst : Loc) (source target : List Nat) : CluOp :=
  { cluPlain [src] dst with
    form := fun c hs => !(hd1 hs).ntt && (match c with | some c => setsOk (limbsOf c (hd1 hs)) source target | none => true)
    heads := unaryHead fun _ _ h => { h with noise := newNoise [h] (h.noise + 16) }
    body := fun r hs _ b => [basisConvBody r (hd1 hs).extended source target (b.headD [])]
    cost := fun c hs m ports fd =>
      let h := hd1 hs
      let n := h.logN
      let conv := Nat.max (costT (h.parts * target.length) m (2 ^ n * source.length / 256) 0 fd)
        (ceilDiv (h.parts * source.length * costF n) 4)
      if decide (src = dst) then conv
      else conv + costT (h.parts * (limbsOf c h - target.length)) m 0 ports.sum fd }

/-- The prime at Q_LIST[ℓ]. -/
def topPrime (c : Chain) (cat : List Nat) (h : Header) : Nat := primeAt cat (c.qList.getD h.level 0)

/-- Check 5 of rescale and mod-switch: LEVEL 0 is exhausted (R59). -/
def levelLeft (hs : List Header) : Verdict := failIf ((hd1 hs).level == 0) (.refuse 0x0203 0x0203)

/-- CKKS rescale (R118, R59). It takes no object with EXTENDED set: the spec does not say, the model refuses it by check 2 (log
93). -/
def opRescale (src dst : Loc) : CluOp :=
  { cluPlain [src] dst with
    form := fun _ hs => (hd1 hs).scheme == 1 && (hd1 hs).ntt && !(hd1 hs).extended
    level := levelLeft
    heads := unaryHead fun c cat h =>
      let q := topPrime c cat h
      { h with level := h.level - 1, scale := h.scale - muOf q
               noise := newNoise [h] (lsum ((h.noise : Int) - lambdaOf q) (gammaOf h.logN)) }
    body := fun r _ _ b => [rescaleBody r (b.headD [])]
    cost := fun _ hs m ports fd => costRescale (hd1 hs).logN (hd1 hs).parts (hd1 hs).level m 1 ports.sum fd }

/-- BGV mod-switch (R118, R123, R59); as rescale, it takes no object with EXTENDED set (log 93). -/
def opModSwitch (src dst : Loc) : CluOp :=
  { cluPlain [src] dst with
    form := fun _ hs => (hd1 hs).scheme == 2 && (hd1 hs).ntt && !(hd1 hs).extended
    level := levelLeft
    heads := unaryHead fun c cat h =>
      let q := topPrime c cat h
      let t := c.t h.tIndex
      { h with level := h.level - 1, scale := h.scale * modInvD (q % t) t % t
               noise := newNoise [h] (lsum ((h.noise : Int) - lambdaOf q) (gammaOf h.logN + tauOf t)) }
    body := fun r _ _ b => [modSwitchBody r (b.headD [])]
    cost := fun _ hs m ports fd => costRescale (hd1 hs).logN (hd1 hs).parts (hd1 hs).level m 2 ports.sum fd }

/-! ### ENCODE and DECODE (R119, R120) -/

/-- Rows of N signed 64-bit coefficients: N·8 bytes from the first row of a handle. -/
def coeffRows (n : Nat) : Nat := ceilDiv (2 ^ n * 8) rowBytes

/-- The header that ENCODE writes (R59, R119). -/
def encodeHead (c : Chain) (q : EncodeReq) : Header :=
  { headerZero with
    formatTag := 0xC711, scheme := q.scheme, parts := 1, logN := q.logN, level := q.level, chainId := q.chain
    paramSet := q.paramSet, keysetTag := q.tag.toNat, scale := if q.scheme = 1 then q.scale else 1
    tIndex := if q.scheme = 1 then 0 else q.tIndex, logSlots := q.logSlots
    noise := clampNoise (if q.scheme = 1 then gammaOf q.logN - 16 else 16 * (q.logN : Int) + tauOf (c.t q.tIndex) - 16)
    ntt := q.ntt, extended := q.extended }

/-- LOG_SLOTS within the limits of R52 for the selected t (0 where the chain is not registered). -/
def slotsOk (scheme logN logSlots t : Nat) : Bool :=
  if scheme = 1 then decide (logSlots + 1 ≤ logN)
  else logSlots == 0 || (logSlots == logN && (t == 0 || (isPrimeSmall t && t % (2 * 2 ^ logN) == 1)))

/-- The checks of an ENCODE request (R119, R121) on its source's poison. -/
def encodeChecks (q : EncodeReq) (c : Option Chain) (pe : Option Ev) : Verdict :=
  let t := match c with | some c => c.t q.tIndex | none => 0
  firstFail [match pe with | some e => .refuse 0x0107 e | none => .pass,
    failIf (!((q.scheme == 1 || q.scheme == 2) && decide (12 ≤ q.logN ∧ q.logN ≤ 17) && slotsOk q.scheme q.logN q.logSlots t))
      (.refuse 0x0102 0x0102),
    match c with
    | none => .refuse 0x0202 0x0202
    | some c => failIf (decide (c.qCount ≤ q.level) || (q.scheme == 2 && c.t q.tIndex == 0)) (.refuse 0x0202 0x0202),
    failIf (q.scheme == 1 && !decide (256 ≤ q.scale ∧ q.scale ≤ 552960)) (.refuse 0x0205 0x0205)]

/-- Issue ENCODE (R119): from a handle of N signed 64-bit coefficients to a plaintext. -/
def issueEncode (at_ : Site) (mask : BitVec 8) (src : Nat) (dst : Loc) (q : EncodeReq) (j : Job) (s : State) : Issued :=
  let d := at_.die
  let cs := maskClusters mask
  let ds := locDests d mask 0 dst
  let pre := firstFail [locCheck s d (.handle src), dstCheck s d dst, failIf (mask == 0) (.skip 0x0105)]
  let rs := locRanges s d false [.handle src] ++ locRanges s d true [dst]
  if pre != .pass then .done (onVerdict pre j at_ 1 ds s id)
  else withScoreboard d rs s fun es s =>
    let c := chainOf s j.part q.chain
    let v := encodeChecks q c (handleOf s d src).pe
    if v != .pass then .done (onVerdict v j at_ 1 ds s id)
    else match c with
      | none => .done s
      | some c =>
        let h := encodeHead c q
        let l := limbsOf c h
        if (handleOf s d src).rows < coeffRows q.logN || !(dstFits s d cs dst h c.pCount l) ||
            secretOut s d (handleOf s d src).isSecret [(dst, h)] != .pass then
          .done (skipInstr 0x0105 j at_ 1 ds s)
        else
          let ws := (chunks 8 (handleBytes s d src 0 (2 ^ q.logN * 8))).map fun b => toSigned 64 (leNat b)
          let b := encodeBody (c.primes s.fuses.primes q.level q.extended) q.logN (c.t h.tIndex) (q.scheme == 2) q.ntt ws
          let sec := (handleOf s d src).isSecret
          let s := putObj d cs dst h b s
          let s := match dst with
            | .region row _ => if sec then markRegion d cs j.id row h.logN 1 l s else s
            | _ => s
          let ac := ceilDiv (2 ^ q.logN) 36 + ceilDiv l cs.length * (costE q.logN + if q.ntt then costC q.logN else 0)
          .done (startOp d { opZero 0 j.id at_.queue at_.off 1 with
            dests := locDests d mask (regionRows cs h.logN 1 l) dst, srcs := [.handle d src], clusters := mask, cost := ac } es s)

/-- DECODE's place among the checks of R57: one plaintext source and no result header, so that R121 asks nothing (R120). -/
def opDecode (src : Loc) : CluOp :=
  { cluPlain [src] (.handle 0) with form := fun _ hs => !(hd1 hs).isCt, heads := fun _ _ _ => [] }

/-- Issue DECODE (R120): limb 0 of a plaintext to N signed 64-bit integers in a handle. -/
def issueDecode (at_ : Site) (mask : BitVec 8) (src : Loc) (dst : Nat) (j : Job) (s : State) : Issued :=
  let d := at_.die
  let cs := maskClusters mask
  let ds := [Dest.handle d dst]
  let us := ringUses [src]
  let pre := firstFail [locCheck s d src, locCheck s d (.handle dst),
    match ringCheck s d us with | some e => .skip e | none => .pass, failIf (mask == 0) (.skip 0x0105)]
  let rs := locRanges s d false [src] ++ locRanges s d true [.handle dst]
  if pre != .pass then .done (onVerdict pre j at_ 1 ds s id)
  else match ringSlots s d us with
    | none => .wait (ringWait s d us) rs
    | some slots => withScoreboard d rs s fun es s =>
      let xs := findSrcs s d [src] slots
      let x := xs.headD (findSrc s d src 0)
      let h := x.header
      let c := chainOf s j.part h.chainId
      let v := checks57 (opDecode src) s.fuses.primes c xs
      if v != .pass then .done (onVerdict v j at_ 1 ds s id)
      else match c with
        | none => .done s
        | some c =>
          if !(srcFits cs x c.pCount (limbsOf c h)) || (handleOf s d dst).rows < coeffRows h.logN ||
              (x.secret && !(handleOf s d dst).isSecret) then
            .done (skipInstr 0x0105 j at_ 1 ds s)
          else
            let l0 := ((srcBody s d cs x (limbsOf c h)).headD []).headD []
            let ws := decodeCoeffs (primeAt s.fuses.primes (c.qList.getD 0 0)) h.logN h.ntt l0
            let s := putHandle d dst 0 (ws.flatMap fun w => leBytes 8 (ofSigned 64 w)) s
            let s := claimTakes d us s
            .done (startOp d { opZero 0 j.id at_.queue at_.off 1 with
              dests := ds, takes := takeClaims us slots, clusters := mask, srcs := allDests d mask 0 [src]
              cost := Nat.max (costC h.logN) (portCharge h.logN src) + ceilDiv (2 ^ h.logN) 36 } es s)

/-! ### The meanings -/

/-- NTT (R106, R117). -/
def execNtt (at_ : Site) (mask : BitVec 8) (src dst : Loc) (s : State) : Result :=
  ok (clusterInstr at_ mask (.ntt at_ mask src dst) (opNtt src dst) s)
/-- INVERSE_NTT (R106, R117). -/
def execInverseNtt (at_ : Site) (mask : BitVec 8) (src dst : Loc) (s : State) : Result :=
  ok (clusterInstr at_ mask (.inverseNtt at_ mask src dst) (opIntt src dst) s)
/-- POLY_ADD (R117). -/
def execPolyAdd (at_ : Site) (mask : BitVec 8) (a b dst : Loc) (s : State) : Result :=
  ok (clusterInstr at_ mask (.polyAdd at_ mask a b dst) (opSum limbAdd a b dst) s)
/-- POLY_SUBTRACT (R117). -/
def execPolySubtract (at_ : Site) (mask : BitVec 8) (a b dst : Loc) (s : State) : Result :=
  ok (clusterInstr at_ mask (.polySubtract at_ mask a b dst) (opSum limbSub a b dst) s)
/-- NEGATE (R117). -/
def execNegate (at_ : Site) (mask : BitVec 8) (src dst : Loc) (s : State) : Result :=
  ok (clusterInstr at_ mask (.negate at_ mask src dst) (opNeg src dst) s)
/-- PLAINTEXT_ADD (R117). -/
def execPlaintextAdd (at_ : Site) (mask : BitVec 8) (ct pt dst : Loc) (s : State) : Result :=
  ok (clusterInstr at_ mask (.plaintextAdd at_ mask ct pt dst) (opPtAdd ct pt dst) s)
/-- PLAINTEXT_MULTIPLY (R117). -/
def execPlaintextMultiply (at_ : Site) (mask : BitVec 8) (ct pt dst : Loc) (s : State) : Result :=
  ok (clusterInstr at_ mask (.plaintextMultiply at_ mask ct pt dst) (opPtMul ct pt dst) s)
/-- CIPHERTEXT_MULTIPLY (R117). -/
def execCiphertextMultiply (at_ : Site) (mask : BitVec 8) (a b dst : Loc) (s : State) : Result :=
  ok (clusterInstr at_ mask (.ciphertextMultiply at_ mask a b dst) (opCtMul a b dst) s)
/-- LEVEL_DROP (R59, R117). -/
def execLevelDrop (at_ : Site) (mask : BitVec 8) (src dst : Loc) (level : Int) (s : State) : Result :=
  ok (clusterInstr at_ mask (.levelDrop at_ mask src dst level) (opLevelDrop src dst level) s)
/-- BASIS_CONVERSION (R109, R523). -/
def execBasisConversion (at_ : Site) (mask : BitVec 8) (src dst : Loc) (source target : List Nat) (s : State) : Result :=
  ok (clusterInstr at_ mask (.basisConversion at_ mask src dst source target) (opBasisConv src dst source target) s)
/-- RESCALE (R118). -/
def execRescale (at_ : Site) (mask : BitVec 8) (src dst : Loc) (s : State) : Result :=
  ok (clusterInstr at_ mask (.rescale at_ mask src dst) (opRescale src dst) s)
/-- MOD_SWITCH (R118). -/
def execModSwitch (at_ : Site) (mask : BitVec 8) (src dst : Loc) (s : State) : Result :=
  ok (clusterInstr at_ mask (.modSwitch at_ mask src dst) (opModSwitch src dst) s)
/-- ENCODE (R119). -/
def execEncode (at_ : Site) (mask : BitVec 8) (coeffs : Nat) (dst : Loc) (req : EncodeReq) (s : State) : Result :=
  ok (runInstr at_ (.encode at_ mask coeffs dst req) (issueEncode at_ mask coeffs dst req) s)
/-- DECODE (R120). -/
def execDecode (at_ : Site) (mask : BitVec 8) (src : Loc) (dst : Nat) (s : State) : Result :=
  ok (runInstr at_ (.decode at_ mask src dst) (issueDecode at_ mask src dst) s)

end Sys2Proof.Machine
end

