-- ==== Sys2Proof/Machine/Objects.lean ====
section
/-! DEFINITION. Objects as the tongs bring them in (R51 to R55, R269) and share objects with their sessions (R147 to R151). -/

namespace Sys2Proof.Machine

/-! ### Share sessions (R147) -/

/-- PARTIES. -/
def Session.parties (x : Session) : Nat := bitsOf (fieldAt x.raw 3 1) 0 2
/-- SELF: this partition's party index; 3 for the dealer. -/
def Session.self (x : Session) : Nat := bitsOf (fieldAt x.raw 3 1) 2 2
/-- RING: 1 a catalogue prime, 2 modulo 2^64. -/
def Session.ring (x : Session) : Nat := bitsOf (fieldAt x.raw 4 1) 0 2
/-- CHAIN_ID. -/
def Session.chainId (x : Session) : Nat := fieldAt x.raw 5 1
/-- PARAM_SET. -/
def Session.paramSet (x : Session) : Nat := fieldAt x.raw 6 2
/-- SESSION_TAG. -/
def Session.tag (x : Session) : Nat := fieldAt x.raw 8 8
/-- Part and partition of a party; the dealer is party 3. -/
def Session.place (x : Session) (i : Nat) : Nat × Nat :=
  if i = 3 then (bitsOf (fieldAt x.raw 0x1A 2) 0 14, fieldAt x.raw 0x19 1)
  else (bitsOf (fieldAt x.raw (0x10 + 2 * i) 2) 0 14, fieldAt x.raw (0x16 + i) 1)
/-- TRIPLE_CAP. -/
def Session.cap (x : Session) : Nat := fieldAt x.raw 0x1C 4
/-- The modulus of the session's ring. -/
def Session.modulus (x : Session) (cat : List Nat) (c : Option Chain) : Nat :=
  if x.ring = 2 then 2 ^ 64 else match c with | some c => primeAt cat (c.qList.headD 0) | none => 1

/-! ### Share objects (R149, R150) -/

/-- Rows of a share object after its header row (R150). -/
def shareRows (ring logN : Nat) : Nat := if ring = 2 then ceilDiv (2 ^ logN) 36 else 2 ^ logN / 64

/-- A share header's fields have the meanings of R149; every other field is zero. -/
def shareHeadOk (b : List Byte) : Bool :=
  let h := headerOfBytes b
  headerSound b && h.share && h.formatTag == 0xC711 && h.parts == 1 && (h.scheme == 1 || h.scheme == 2) &&
  decide (12 ≤ h.logN ∧ h.logN ≤ 17 ∧ h.logSlots < 16) && h.level == 0 && h.scale == 0 && h.tIndex == 0 && h.noise == 0 &&
  h.floor == 0 && !h.ntt && !h.seeded && !h.degraded && !h.extended && (h.scheme == 1 || h.chainId == 0)

/-- A share header agrees with the session that its LOG_SLOTS names (R149). -/
def shareMatches (x : Session) (h : Header) : Bool :=
  h.scheme == x.ring && h.chainId == x.chainId && h.paramSet == x.paramSet && h.keysetTag == x.tag

/-- The elements of a share object from the bytes after its header row (R150). -/
def shareElems (ring logN : Nat) (bs : List Byte) : List Nat :=
  if ring = 2 then (List.range (2 ^ logN)).map fun k => fieldAt bs (k / 36 * 288 + 8 * (k % 36)) 8
  else (unpackPairs bs).take (2 ^ logN)

/-- The rows of a share object's elements (R150). -/
def shareBytes (ring : Nat) (xs : List Nat) : List Byte :=
  if ring = 2 then
    let b := xs.flatMap fun x => leBytes 8 x
    b ++ List.replicate (ceilDiv xs.length 36 * 288 - b.length) 0
  else packPairs xs

/-! ### Ingest (R51, R52) -/

/-- t is a prime with t ≡ 1 mod 2N (R52). -/
def slotPrime (t n : Nat) : Bool := isPrimeSmall t && t % (2 ^ (n + 1)) == 1

/-- The residues of limbs are below their primes (R52). -/
def residuesOk (ps : List Nat) (b : PolyBody) : Bool :=
  b.all fun p => (List.zipWith (fun q l => (l : Limb).all (· < q)) ps p).all id

/-- The header checks of R52 for a ciphertext or plaintext. -/
def ingestHeadOk (c : Chain) (h : Header) : Bool :=
  decide (h.level < c.qCount) &&
  (if h.scheme = 1 then scaleOk h && decide (h.logSlots ≤ h.logN - 1)
   else
    let t := c.t h.tIndex
    t != 0 && decide (h.scale < t) && (h.logSlots == 0 || (h.logSlots == h.logN && slotPrime t h.logN))) &&
  (!h.seeded || (h.parts == 2 && h.ntt && !h.extended))

/-- What ingest answers: the object's header and its rows as the destination receives them, or failure (R269). -/
structure Ingested where
  header : Header
  storedRows : Nat
  rows : List (List Byte)
  deriving DecidableEq, Repr

/-- The limbs of part 1 of a seeded ciphertext (R55). -/
def expandSeeded (qs : List Nat) (n : Nat) (seed : List Byte) : List Limb :=
  qs.zipIdx.map fun q => seedExpand seed 0xFFFFFFFF 0xFF q.2 q.1 (2 ^ n)

/-- Ingest an object from its stored bytes (R51 to R55, R269): none where it fails. The reserved bytes of row 0 and of the seed row are
zero (R49, R52, R54). -/
def ingest (cat : List Nat) (chains : Tbl Chain) (sessions : Tbl Session) (bs : List Byte) : Option Ingested :=
  let hb := bytesAt bs 0 64
  let h := headerOfBytes hb
  if !(zeroRange bs 0x40 0x120) then none
  else if h.share then
    match tblGet sessions h.logSlots with
    | none => none
    | some x =>
      let n := shareRows h.scheme h.logN
      if !(shareHeadOk hb) || !(shareMatches x h) then none
      else
        let q := x.modulus cat (tblGet chains x.chainId)
        if h.scheme = 1 && !((shareElems 1 h.logN (bytesAt bs 288 (n * 288))).all (· < q)) then none
        else some { header := h, storedRows := 1 + n, rows := chunks 288 (bytesAt bs 0 ((1 + n) * 288)) }
  else if !(headerSound hb) || !(headerInRange h) then none
  else match tblGet chains h.chainId with
    | none => none
    | some c =>
      if !(ingestHeadOk c h) then none
      else
        let qs := c.qPrimes cat h.level
        if h.seeded then
          let part := bodyOfBytes 1 qs.length h.logN (bytesAt bs 288 (qs.length * (2 ^ h.logN / 64) * 288))
          let seed := bytesAt bs ((seededRows h - 1) * 288) 32
          if !(residuesOk qs part) || !(zeroRange bs ((seededRows h - 1) * 288 + 0x20) (seededRows h * 288)) then none
          else
            let body := part ++ [expandSeeded qs h.logN seed]
            let h' := { h with seeded := false }
            let row0 := headerBytes h' ++ bytesAt bs 64 224
            some { header := h, storedRows := seededRows h, rows := chunks 288 (row0 ++ bodyBytes body) }
        else
          let ps := c.primes cat h.level h.extended
          let n := objRows h c.pCount
          if !(residuesOk ps (bodyOfBytes h.parts ps.length h.logN (bytesAt bs 288 ((n - 1) * 288)))) then none
          else some { header := h, storedRows := n, rows := chunks 288 (bytesAt bs 0 (n * 288)) }

end Sys2Proof.Machine
end

