-- ==== Sys2Proof/Machine/Float.lean ====
section
/-! DEFINITION. Floating-point values and binary formats: exact values, rounding to nearest with ties to even, and the FP32
operations of R200, R201, R212 and R213. An FP32 value is held as the number of its 32-bit pattern. -/

namespace Sys2Proof.Machine

/-- A clear value: NaN, an infinity, or (-1)^neg · m · 2^e. -/
inductive FV where
  | nan
  | inf (neg : Bool)
  | fin (neg : Bool) (m : Nat) (e : Int)
  deriving DecidableEq, Repr

/-- A binary format: precision with the leading bit, exponent bits. -/
structure FFmt where
  p : Nat
  ew : Nat
  deriving DecidableEq, Repr

/-- IEEE 754 binary32. -/
def fmt32 : FFmt := ⟨24, 8⟩
/-- BF16. -/
def fmtB16 : FFmt := ⟨8, 8⟩
/-- IEEE 754 binary64. -/
def fmt64 : FFmt := ⟨53, 11⟩
/-- FP8 E5M2. -/
def fmt52 : FFmt := ⟨3, 5⟩
/-- FP8 E4M3. -/
def fmt43 : FFmt := ⟨4, 4⟩
/-- FP4 E2M1. -/
def fmt21 : FFmt := ⟨2, 2⟩

/-- The exponent of the least subnormal. -/
def FFmt.qmin (f : FFmt) : Int := 3 - 2 ^ (f.ew - 1) - (f.p : Int)
/-- The pattern of +Inf in an IEEE format. -/
def FFmt.infBits (f : FFmt) : Nat := (2 ^ f.ew - 1) * 2 ^ (f.p - 1)
/-- The sign bit's weight. -/
def FFmt.signBit (f : FFmt) : Nat := 2 ^ (f.p - 1 + f.ew)

/-- `m · 2^e` as an integer multiple of `2^q`, rounded to nearest, ties to even. -/
def rneAt (m : Nat) (e q : Int) : Nat :=
  if q ≤ e then m * 2 ^ (e - q).toNat
  else
    let k := (q - e).toNat
    let d := m / 2 ^ k
    let r := m % 2 ^ k
    if 2 * r > 2 ^ k then d + 1 else if 2 * r = 2 ^ k then d + d % 2 else d

/-- `m · 2^e` as an integer multiple of `2^q`, rounded down. -/
def floorAt (m : Nat) (e q : Int) : Nat := if q ≤ e then m * 2 ^ (e - q).toNat else m / 2 ^ (q - e).toNat

/-- The exponent of the last place of `m · 2^e` in a format. -/
def FFmt.quantum (f : FFmt) (m : Nat) (e : Int) : Int := max ((Nat.log2 m : Int) + e - (f.p - 1 : Nat)) f.qmin

/-- The magnitude pattern of `n · 2^q`. -/
def FFmt.magBits (f : FFmt) (n : Nat) (q : Int) : Nat := (q - f.qmin).toNat * 2 ^ (f.p - 1) + n

/-- The magnitude pattern nearest to `m · 2^e`, with no limit at the top. -/
def FFmt.roundMag (f : FFmt) (m : Nat) (e : Int) : Nat :=
  if m = 0 then 0 else let q := f.quantum m e; f.magBits (rneAt m e q) q

/-- The magnitude pattern at or below `m · 2^e`. -/
def FFmt.floorMag (f : FFmt) (m : Nat) (e : Int) : Nat :=
  if m = 0 then 0 else let q := f.quantum m e; f.magBits (floorAt m e q) q

/-- The value of a magnitude pattern that is finite. -/
def FFmt.magVal (f : FFmt) (neg : Bool) (b : Nat) : FV :=
  let mf := b % 2 ^ (f.p - 1)
  let ef := b / 2 ^ (f.p - 1)
  if ef = 0 then .fin neg mf f.qmin else .fin neg (mf + 2 ^ (f.p - 1)) (f.qmin + (ef - 1 : Nat))

/-- The value of a pattern of an IEEE format. -/
def FFmt.val (f : FFmt) (b : Nat) : FV :=
  let neg := b / f.signBit % 2 == 1
  let m := b % f.signBit
  if m > f.infBits then .nan else if m = f.infBits then .inf neg else f.magVal neg m

/-- The canonical quiet NaN of an IEEE format (R183). -/
def FFmt.nanBits (f : FFmt) : Nat := f.infBits + 2 ^ (f.p - 2)

/-- The pattern nearest to a value in an IEEE format; an overflow gives an infinity. -/
def FFmt.round (f : FFmt) : FV → Nat
  | .nan => f.nanBits
  | .inf neg => (if neg then f.signBit else 0) + f.infBits
  | .fin neg m e => (if neg then f.signBit else 0) + Nat.min (f.roundMag m e) f.infBits

/-- A pattern with -0 written as +0 (R184). -/
def FFmt.plusZero (f : FFmt) (b : Nat) : Nat := if b = f.signBit then 0 else b

/-- The value of an FP32 pattern. -/
def f32 (b : Nat) : FV := fmt32.val (b % 2 ^ 32)
/-- The FP32 pattern of a value, with the sign of zero kept. -/
def r32 (v : FV) : Nat := fmt32.round v
/-- The FP32 pattern that a unit writes for a value: -0 as +0 (R184). -/
def w32 (v : FV) : Nat := fmt32.plusZero (r32 v)

/-! ### Exact arithmetic on values -/

/-- A signed magnitude as an integer. -/
def sgn (neg : Bool) (m : Nat) : Int := if neg then -(m : Int) else m

/-- Exact sum; the sign of a zero sum is + unless both are -0. -/
def FV.add : FV → FV → FV
  | .nan, _ => .nan
  | _, .nan => .nan
  | .inf a, .inf b => if a = b then .inf a else .nan
  | .inf a, _ => .inf a
  | _, .inf b => .inf b
  | .fin a m e, .fin b n g =>
    let q := min e g
    let z := sgn a (m * 2 ^ (e - q).toNat) + sgn b (n * 2 ^ (g - q).toNat)
    if z = 0 then .fin (a && b && m == 0 && n == 0) 0 0 else .fin (decide (z < 0)) z.natAbs q

/-- Negation. -/
def FV.neg : FV → FV
  | .nan => .nan
  | .inf a => .inf !a
  | .fin a m e => .fin (!a) m e

/-- Exact difference. -/
def FV.sub (a b : FV) : FV := a.add b.neg

/-- Exact product; Inf by zero is NaN (R189). -/
def FV.mul : FV → FV → FV
  | .nan, _ => .nan
  | _, .nan => .nan
  | .inf a, .inf b => .inf (a != b)
  | .inf a, .fin b m _ => if m = 0 then .nan else .inf (a != b)
  | .fin a m _, .inf b => if m = 0 then .nan else .inf (a != b)
  | .fin a m e, .fin b n g => .fin (a != b) (m * n) (e + g)

/-- Magnitude. -/
def FV.abs : FV → FV
  | .nan => .nan
  | .inf _ => .inf false
  | .fin _ m e => .fin false m e

/-- The value is a zero. -/
def FV.isZero : FV → Bool
  | .fin _ m _ => m == 0
  | _ => false
/-- The value is NaN. -/
def FV.isNan : FV → Bool
  | .nan => true
  | _ => false
/-- The value is an infinity. -/
def FV.isInf : FV → Bool
  | .inf _ => true
  | _ => false
/-- The value is negative (zeros are not). -/
def FV.isNeg : FV → Bool
  | .inf n => n
  | .fin n m _ => n && m != 0
  | .nan => false

/-- Quotient to far more places than any format here holds, with a sticky last bit: it rounds as the exact one does. -/
def FV.div : FV → FV → FV
  | .nan, _ => .nan
  | _, .nan => .nan
  | .inf _, .inf _ => .nan
  | .inf a, .fin b _ _ => .inf (a != b)
  | .fin a _ _, .inf b => .fin (a != b) 0 0
  | .fin a m e, .fin b n g =>
    if n = 0 then (if m = 0 then .nan else .inf (a != b))
    else
      let k := Nat.log2 n + 70
      let d := m * 2 ^ k / n
      .fin (a != b) (2 * d + if m * 2 ^ k % n = 0 then 0 else 1) (e - g - k - 1)

/-- Square root in the same manner; of a negative value NaN, of -0 itself -0. -/
def FV.sqrt : FV → FV
  | .nan => .nan
  | .inf neg => if neg then .nan else .inf false
  | .fin neg m e =>
    if m = 0 then .fin neg 0 0
    else if neg then .nan
    else
      let e' := if e % 2 = 0 then e else e - 1
      let m' := (if e % 2 = 0 then m else 2 * m) * 2 ^ 160
      let r := isqrt m'
      .fin false (2 * r + if r * r = m' then 0 else 1) (e' / 2 - 80 - 1)

/-- Compare two values in the total order of R191: -1, 0, 1. -/
def FV.cmp : FV → FV → Int
  | .nan, .nan => 0
  | .nan, _ => 1
  | _, .nan => -1
  | .inf a, .inf b => if a = b then 0 else if a then -1 else 1
  | .inf a, _ => if a then -1 else 1
  | _, .inf b => if b then 1 else -1
  | .fin a m e, .fin b n g =>
    let q := min e g
    let z := sgn a (m * 2 ^ (e - q).toNat) - sgn b (n * 2 ^ (g - q).toNat)
    if z < 0 then -1 else if z = 0 then 0 else 1

/-! ### FP32 operations on patterns, one rounding each (R200, R213) -/

/-- FP32 addition. -/
def fadd (a b : Nat) : Nat := r32 ((f32 a).add (f32 b))
/-- FP32 subtraction. -/
def fsub (a b : Nat) : Nat := r32 ((f32 a).sub (f32 b))
/-- FP32 multiplication. -/
def fmul (a b : Nat) : Nat := r32 ((f32 a).mul (f32 b))
/-- FP32 division. -/
def fdiv (a b : Nat) : Nat := r32 ((f32 a).div (f32 b))
/-- FP32 square root. -/
def fsqrt (a : Nat) : Nat := r32 (f32 a).sqrt
/-- Fused multiply-add: one rounding. -/
def ffma (a b c : Nat) : Nat := r32 (((f32 a).mul (f32 b)).add (f32 c))
/-- 1.0. -/
def f32One : Nat := 0x3F800000

/-- min of R190: NaN is missing; of two zeros +0. -/
def fmin (a b : Nat) : Nat :=
  let x := f32 a
  let y := f32 b
  if x.isNan then (if y.isNan then fmt32.nanBits else w32 y) else if y.isNan then w32 x
  else if x.cmp y ≤ 0 then w32 x else w32 y
/-- max of R190. -/
def fmax (a b : Nat) : Nat :=
  let x := f32 a
  let y := f32 b
  if x.isNan then (if y.isNan then fmt32.nanBits else w32 y) else if y.isNan then w32 x
  else if 0 ≤ x.cmp y then w32 x else w32 y

/-! ### Functions known within some ulp (R201) -/

/-- One of the admitted patterns: within `k` ulp of a value that lies at the pattern `lo` (exact) or between `lo` and the next
one. The pick is free (log 25). -/
def ulpPick (k lo : Nat) (exact : Bool) (pick : Nat) : Nat :=
  let below := if exact then k else k - 1
  let n := below + k + 1
  Nat.min (Nat.min (lo - below + pick % n) (lo + k)) fmt32.infBits

/-- The pattern of a magnitude with its sticky bit as the last bit, within `k` ulp; one beyond the range overflows to an
infinity. -/
def nearMag (k m : Nat) (e : Int) (pick : Nat) : Nat :=
  let lo := fmt32.floorMag m e
  if fmt32.infBits ≤ lo then fmt32.infBits else
  let exact := decide ((fmt32.magVal false lo).cmp (.fin false m e) = 0)
  ulpPick k lo exact pick

/-- RECIP: within 1 ulp; special values as IEEE 754. -/
def frecip (a : Nat) : Nat :=
  match (FV.fin false 1 0).div (f32 a) with
  | .fin neg m e => if m = 0 then 0 else (if neg then 2 ^ 31 else 0) + nearMag 1 m e (Config.recipPick a)
  | v => r32 v

/-- RSQRT: within 1 ulp; of ±0 an infinity of its sign, of a negative value NaN. -/
def frsqrt (a : Nat) : Nat :=
  match f32 a with
  | .fin neg 0 _ => r32 (.inf neg)
  | .inf neg => if neg then fmt32.nanBits else 0
  | v => match (FV.fin false 1 0).div v with
    | .fin neg m e => match (FV.fin neg m e).sqrt with
      | .fin _ m e => nearMag 1 m e (Config.rsqrtPick a)
      | v => r32 v
    | v => r32 v

/-- 2^(2^(-i)) for i = 1 .. n in units of 2^(-256), rounded down. -/
def exp2Roots : Nat → Nat → List Nat
  | 0, _ => []
  | n + 1, c => let r := isqrt (c * 2 ^ 256); r :: exp2Roots n r

/-- 2^(f / 2^k) for 0 ≤ f < 2^k, in units of 2^(-256). -/
def exp2Frac (f k : Nat) : Nat :=
  ((exp2Roots k (2 ^ 257)).zipIdx).foldl (fun acc c => if f / 2 ^ (k - 1 - c.2) % 2 = 1 then acc * c.1 / 2 ^ 256 else acc) (2 ^ 256)

/-- EXP2: within 2 ulp; 2^0 = 1, 2^-Inf = +0. -/
def fexp2 (a : Nat) : Nat :=
  match f32 a with
  | .nan => fmt32.nanBits
  | .inf neg => if neg then 0 else fmt32.infBits
  | .fin neg m e =>
    if m = 0 then f32One
    else if 8 < (Nat.log2 m : Int) + e then (if neg then ulpPick 2 0 false (Config.exp2Pick a) else fmt32.infBits)
    else
      let k := (-e).toNat
      let z : Int := sgn neg (if 0 ≤ e then m * 2 ^ e.toNat else m)
      let i := z / 2 ^ k
      let f := (z % 2 ^ k).toNat
      let v := exp2Frac f k
      nearMag 2 (2 * v + if f = 0 then 0 else 1) (i - 257) (Config.exp2Pick a)

/-- The bits of log2 of y in [1, 2), y in units of 2^(-320). -/
def log2Bits : Nat → Nat → Nat
  | 0, _ => 0
  | n + 1, y =>
    let y2 := y * y / 2 ^ 320
    if 2 ^ 321 ≤ y2 then 2 ^ n + log2Bits n (y2 / 2) else log2Bits n y2

/-- LOG2: within 2 ulp; of ±0 -Inf, of a negative value NaN, of 1 +0. -/
def flog2 (a : Nat) : Nat :=
  match f32 a with
  | .nan => fmt32.nanBits
  | .inf neg => if neg then fmt32.nanBits else fmt32.infBits
  | .fin neg m e =>
    if m = 0 then r32 (.inf true)
    else if neg then fmt32.nanBits
    else
      let l := Nat.log2 m
      let pow := decide (m = 2 ^ l)
      let z : Int := ((l : Int) + e) * 2 ^ 100 + (if pow then 0 else log2Bits 100 (m * 2 ^ (320 - l)))
      let z2 := 2 * z + if pow then 0 else 1
      if z2 = 0 then 0
      else (if z2 < 0 then 2 ^ 31 else 0) + nearMag 2 z2.natAbs (-101) (Config.log2Pick a)

end Sys2Proof.Machine
end

