-- ==== Sys2Proof/Machine/Formats.lean ====
section
/-! DEFINITION. Clear element types (R166 to R172), their reading, and conversion into them (R179 to R185). -/

namespace Sys2Proof.Machine

/-- The kinds of element encoding of R166. -/
inductive EKind where
  | fp32 | bf16 | e4m3 | e5m2 | int8 | int4 | e2m1 | e4m3n | mxint8 | lg4 | lg8
  deriving DecidableEq, Repr

/-- How an element type is scaled. -/
inductive Scaling where
  | none | tile | block (n : Nat)
  deriving DecidableEq, Repr

/-- An element type of R166. -/
structure EType where
  kind : EKind
  scaling : Scaling
  deriving DecidableEq, Repr

/-- The per-block kinds of codes 0x10 to 0x15. -/
def blockKind : Nat → EKind
  | 0 => .e2m1
  | 1 => .e4m3
  | 2 => .e5m2
  | 3 => .mxint8
  | 4 => .lg4
  | _ => .lg8

/-- The element type of an ETYPE code; none where the code is not in the table (R166). -/
def etypeOf (c : Nat) : Option EType :=
  match c with
  | 0x01 => some ⟨.fp32, .none⟩
  | 0x02 => some ⟨.bf16, .none⟩
  | 0x03 => some ⟨.e4m3, .tile⟩
  | 0x04 => some ⟨.e5m2, .tile⟩
  | 0x05 => some ⟨.int8, .tile⟩
  | 0x06 => some ⟨.int4, .tile⟩
  | 0x07 => some ⟨.e2m1, .tile⟩
  | 0x0B => some ⟨.e4m3n, .tile⟩
  | c => if 0x10 ≤ c ∧ c ≤ 0x15 then some ⟨blockKind (c - 0x10), .block 32⟩
         else if 0x30 ≤ c ∧ c ≤ 0x35 then some ⟨blockKind (c - 0x30), .block 16⟩ else none

/-- Bits of an element. -/
def EKind.bits : EKind → Nat
  | .fp32 => 32
  | .bf16 => 16
  | .int4 | .e2m1 | .lg4 => 4
  | _ => 8

/-- Block length of a per-block type. -/
def EType.block (t : EType) : Option Nat := match t.scaling with | .block n => some n | _ => none
/-- The type takes a scale region (R168). -/
def EType.scaled (t : EType) : Bool := match t.scaling with | .none => false | _ => true

/-- The type has a NaN (R166). -/
def EKind.hasNan : EKind → Bool
  | .fp32 | .bf16 | .e4m3 | .e5m2 => true
  | _ => false
/-- The type has infinities (R166). -/
def EKind.hasInf : EKind → Bool
  | .fp32 | .bf16 | .e5m2 => true
  | _ => false

/-! ### LG magnitudes: 2^(k/8) rounded where an FP32 value is wanted -/

/-- 2^(k/8) as units of 2^(-96), rounded down, for -512 ≤ k. -/
def root8 (k : Int) : Nat := let r := iroot 8 (2 ^ (k + 768).toNat); r

/-- The FP32 value nearest to 2^(k/8) (R179). -/
def lgFp32 (k : Int) : FV :=
  let exact := k % 8 == 0
  let v := 2 * root8 k + if exact then 0 else 1
  f32 (fmt32.roundMag v (-97))

/-- Code of LG8 that stands for an LG4 code (R172). -/
def lg4to8 (c : Nat) : Nat := if c = 0 then 0 else 64 + 4 * c - 16

/-- The threshold below code `c` ≥ 1 of LG8 with step `st` between codes: the FP32 value nearest the midpoint between
2^((c - st - 64)/8), or zero for the first code, and 2^((c - 64)/8) (R179). -/
def lgThreshold (first : Bool) (c st : Nat) : FV :=
  let hi := root8 ((c : Int) - 64)
  let lo := if first then 0 else root8 ((c : Int) - st - 64)
  f32 (fmt32.roundMag (2 * (hi + lo) + 1) (-98))

/-! ### Reading -/

/-- The value of an element code at scale 2^0 (R166, R170, R171); LG elements as the FP32 values nearest to them. -/
def EKind.value (k : EKind) (b : Nat) : FV :=
  match k with
  | .fp32 => f32 b
  | .bf16 => fmtB16.val (b % 2 ^ 16)
  | .e4m3 => if b % 128 = 127 then .nan else fmt43.magVal (b / 128 % 2 == 1) (b % 128)
  | .e4m3n => fmt43.magVal (b / 128 % 2 == 1) (b % 128)
  | .e5m2 => fmt52.val (b % 256)
  | .int8 => let z := if b % 256 < 128 then ((b % 256 : Nat) : Int) else (b % 256 : Nat) - 256
             .fin (decide (z < 0)) z.natAbs 0
  | .mxint8 => let z := if b % 256 < 128 then ((b % 256 : Nat) : Int) else (b % 256 : Nat) - 256
               .fin (decide (z < 0)) z.natAbs (-6)
  | .int4 => let z := if b % 16 < 8 then ((b % 16 : Nat) : Int) else (b % 16 : Nat) - 16
             .fin (decide (z < 0)) z.natAbs 0
  | .e2m1 => fmt21.magVal (b / 8 % 2 == 1) (b % 8)
  | .lg4 =>
    let c := b % 8
    if c = 0 then .fin false 0 0 else (match lgFp32 ((lg4to8 c : Int) - 64) with
      | .fin _ m e => .fin (b / 8 % 2 == 1) m e
      | v => v)
  | .lg8 =>
    let c := b % 128
    if c = 0 then .fin false 0 0 else (match lgFp32 ((c : Int) - 64) with
      | .fin _ m e => .fin (b / 128 % 2 == 1) m e
      | v => v)

/-- A value times 2^x. -/
def FV.scale (v : FV) (x : Int) : FV :=
  match v with
  | .fin n m e => .fin n m (e + x)
  | v => v

/-- A scale byte's exponent; none for NaN (R169). -/
def scaleExp (b : Nat) : Option Int := if b = 255 then none else some ((b : Int) - 127)

/-- An element with its scale (R169). -/
def scaledValue (k : EKind) (b scale : Nat) : FV :=
  match scaleExp scale with
  | none => .nan
  | some x => (k.value b).scale x

/-! ### Writing -/

/-- The magnitude code nearest to a finite magnitude, without limit at the top of the type (R179). -/
def EKind.roundCode (k : EKind) (m : Nat) (e : Int) : Nat :=
  match k with
  | .fp32 => fmt32.roundMag m e
  | .bf16 => fmtB16.roundMag m e
  | .e4m3 | .e4m3n => fmt43.roundMag m e
  | .e5m2 => fmt52.roundMag m e
  | .int8 | .int4 => rneAt m e 0
  | .mxint8 => rneAt m e (-6)
  | .e2m1 => fmt21.roundMag m e
  | .lg4 => (List.range 7).foldl (fun acc i =>
      if 0 ≤ (FV.fin false m e).cmp (lgThreshold (i == 0) (lg4to8 (i + 1)) 4) then i + 1 else acc) 0
  | .lg8 => (List.range 127).foldl (fun acc i =>
      if 0 ≤ (FV.fin false m e).cmp (lgThreshold (i == 0) (i + 1) 1) then i + 1 else acc) 0

/-- The magnitude code of the largest finite value (R166, R179). -/
def EKind.maxCode : EKind → Nat
  | .fp32 => fmt32.infBits - 1
  | .bf16 => fmtB16.infBits - 1
  | .e4m3 => 0x7E
  | .e4m3n => 0x7F
  | .e5m2 => 0x7B
  | .int8 | .mxint8 => 127
  | .int4 => 7
  | .e2m1 => 7
  | .lg4 => 7
  | .lg8 => 127

/-- Attach a sign to a magnitude code; zero is written as +0 or code 0 (R172, R184). -/
def EKind.signed (k : EKind) (neg : Bool) (c : Nat) : Nat :=
  if c = 0 then 0
  else match k with
    | .int8 | .mxint8 => if neg then 256 - c else c
    | .int4 => if neg then 16 - c else c
    | _ => if neg then 2 ^ (k.bits - 1) + c else c

/-- The code written for NaN; 0 where the type has none (R183). -/
def EKind.nanCode : EKind → Nat
  | .fp32 => fmt32.nanBits
  | .bf16 => 0x7FC0
  | .e4m3 | .e5m2 => 0x7F
  | _ => 0

/-- The code written for an infinity: its own, or the largest finite value where the type has none (R182). -/
def EKind.infCode (k : EKind) (neg : Bool) : Nat :=
  match k with
  | .fp32 => (if neg then 2 ^ 31 else 0) + fmt32.infBits
  | .bf16 => (if neg then 2 ^ 15 else 0) + fmtB16.infBits
  | .e5m2 => (if neg then 128 else 0) + 0x7C
  | k => k.signed neg k.maxCode

/-- What one element converts to: its code, and whether its rounded magnitude lies above the largest finite one. -/
structure Conv where
  code : Nat
  exceeds : Bool
  nan : Bool
  infSat : Bool
  deriving DecidableEq, Repr

/-- Convert a value already divided by its scale. A finite overflow of FP32, BF16 or E5M2 becomes an infinity; of another type
it saturates and is reported (R179, R181 to R183, log 26). -/
def EKind.convert (k : EKind) (v : FV) : Conv :=
  match v with
  | .nan => ⟨k.nanCode, false, !k.hasNan, false⟩
  | .inf neg => ⟨k.infCode neg, false, false, !k.hasInf⟩
  | .fin neg m e =>
    let c := k.roundCode m e
    if c ≤ k.maxCode then ⟨k.signed neg c, false, false, false⟩
    else if k.hasInf then ⟨k.infCode neg, false, false, false⟩
    else ⟨k.signed neg k.maxCode, true, false, false⟩

/-- `m · 2^e` is at most Vmax · 2^x, Vmax the type's largest finite magnitude at scale 2^0 (R180). -/
def EKind.fits (k : EKind) (m : Nat) (e x : Int) : Bool :=
  let le (a : Nat) (ea : Int) (b : Nat) (eb : Int) : Bool :=
    let q := min ea eb
    decide (a * 2 ^ (ea - q).toNat ≤ b * 2 ^ (eb - q).toNat)
  match k with
  | .lg4 => le (m ^ 2) (2 * e) 1 (3 + 2 * x)
  | .lg8 => le (m ^ 8) (8 * e) 1 (63 + 8 * x)
  | k => match k.value k.maxCode with
    | .fin _ n g => le m e n (g + x)
    | _ => true

/-- ⌈log2(m·2^e / Vmax)⌉ for m > 0: the least x that fits, searched up from a bound below it. -/
def EKind.ceilX (k : EKind) (m : Nat) (e : Int) : Int :=
  let x0 : Int := (Nat.log2 m : Int) + e - 18
  x0 + ((List.range 40).find? fun i => k.fits m e (x0 + i)).getD 40

/-- The largest finite magnitude of a block as mantissa and exponent (R180, R185). -/
def maxFinite (vs : List FV) : Nat × Int :=
  vs.foldl (fun acc v => match v with
    | .fin _ m e => if (FV.fin false acc.1 acc.2).cmp (.fin false m e) < 0 then (m, e) else acc
    | _ => acc) (0, 0)

/-- What a group of elements sharing a scale converts to. -/
structure GroupConv where
  codes : List Nat
  scale : Nat
  nans : Nat
  recomputed : Nat
  saturated : Bool
  deriving DecidableEq, Repr

/-- Convert a block of a per-block type (R180, R182, R185). -/
def convBlock (k : EKind) (vs : List FV) : GroupConv :=
  let mx := maxFinite vs
  let x0 : Int := if mx.1 = 0 then -127 else k.ceilX mx.1 mx.2
  let x : Int := if x0 < -127 then -127 else if x0 > 127 then 127 else x0
  let cs := vs.map fun v => k.convert (v.scale (-x))
  { codes := cs.map (·.code), scale := (x + 127).toNat, nans := (cs.filter (·.nan)).length, recomputed := 0,
    saturated := decide (x0 > 127) || cs.any (·.infSat) }

/-- Convert a tile at X_t, recomputing at X_t + 1 and X_t + 2 on overflow; each pass counts its NaNs (R181, R182, R185). An Inf
that the type lacks saturates at once. -/
def convTileGo (k : EKind) (vs : List FV) (x : Int) : Nat → Nat → Nat → GroupConv
  | left, done, nans =>
    let cs := vs.map fun v => k.convert (v.scale (-x))
    let n := nans + (cs.filter (·.nan)).length
    let fin (sat : Bool) : GroupConv := { codes := cs.map (·.code), scale := (x + 127).toNat % 256, nans := n, recomputed := done, saturated := sat }
    if cs.any (·.infSat) then fin true
    else if cs.any (·.exceeds) then
      match left with
      | 0 => fin true
      | l + 1 => if 127 ≤ x then fin true else convTileGo k vs (x + 1) l (done + 1) n
    else fin false

/-- Convert a tile. -/
def convTile (k : EKind) (vs : List FV) (x : Int) : GroupConv := convTileGo k vs x 2 0 0

/-- Convert elements of an unscaled type: FP32 or BF16. -/
def convPlain (k : EKind) (vs : List FV) : List Nat := vs.map fun v => (k.convert v).code

end Sys2Proof.Machine
end

