-- ==== Sys2Proof/Machine/Desc.lean ====
section
/-! DEFINITION. Tensor descriptors (R249 to R257): the format, DSET's checks, element addresses, reading and writing elements,
scale regions (R168), and DSET. -/

namespace Sys2Proof.Machine

/-- The fields of a descriptor's 128 bytes (R252). -/
def descOfBytes (b : List Byte) : Desc :=
  let f3 := fieldAt b 3 1
  let f7 := fieldAt b 7 1
  { rank := bitsOf (fieldAt b 2 1) 0 3, kind := bitsOf f3 0 2, wordBytes := bitsOf f3 2 2, signed := bitOf f3 4
    etype := fieldAt b 4 1, space := bitsOf (fieldAt b 5 1) 0 3, die := bitsOf (fieldAt b 6 1) 0 4
    wrap := bitOf f7 0, padSkip := bitOf f7 1, transpose := bitOf f7 2, scales := bitOf f7 3, s0Zero := bitOf f7 4
    handle := bitsOf (fieldAt b 8 2) 0 10, part := bitsOf (fieldAt b 0x0A 2) 0 14, window := fieldAt b 0x0C 2
    indexDim := bitsOf (fieldAt b 0x0E 2) 0 3, wgen := fieldAt b 0x10 4, scaleHandle := bitsOf (fieldAt b 0x14 4) 0 10
    offset := fieldAt b 0x18 8, scaleOffset := fieldAt b 0x20 8
    size := (List.range 5).map fun d => fieldAt b (0x28 + 4 * d) 4, fill := fieldAt b 0x3C 4
    stride := (List.range 4).map fun d => toSigned 64 (fieldAt b (0x40 + 8 * d) 8)
    padLo := (List.range 5).map fun d => fieldAt b (0x60 + 2 * d) 2
    padHi := (List.range 5).map fun d => fieldAt b (0x6A + 2 * d) 2 }

/-- DESC_TAG, DESC_CHECK and the reserved fields are right (R255). -/
def descIntact (b : List Byte) : Bool :=
  fieldAt b 0 2 == 0xC7D4 && fieldAt b 0x7C 4 == (crc32c (b.take 0x7C)).toNat && bitsOf (fieldAt b 2 1) 3 5 == 0 &&
  bitsOf (fieldAt b 3 1) 5 3 == 0 && bitsOf (fieldAt b 5 1) 3 5 == 0 && bitsOf (fieldAt b 6 1) 4 4 == 0 &&
  bitsOf (fieldAt b 7 1) 5 3 == 0 && bitsOf (fieldAt b 8 2) 10 6 == 0 && bitsOf (fieldAt b 0x0A 2) 14 2 == 0 &&
  bitsOf (fieldAt b 0x0E 2) 3 13 == 0 && bitsOf (fieldAt b 0x14 4) 10 22 == 0 && allZero (bytesAt b 0x74 8)

/-! ### Shape -/

/-- SIZE[d]; 1 beyond the rank. -/
def Desc.dim (t : Desc) (d : Nat) : Nat := if d < t.rank then t.size.getD d 1 else 1
/-- Stride of dimension d in elements (R253). -/
def Desc.str (t : Desc) (d : Nat) : Int := if d = 0 then (if t.s0Zero then 0 else 1) else t.stride.getD (d - 1) 0
/-- Element count. -/
def Desc.elems (t : Desc) : Nat := ((List.range t.rank).map t.dim).foldl (· * ·) 1
/-- The element type of a TENSOR. -/
def Desc.ety (t : Desc) : EType := (etypeOf t.etype).getD ⟨.fp32, .none⟩
/-- Bits of an element: of a row for an OBJECT. -/
def Desc.bits (t : Desc) : Nat := if t.kind = 0 then 2304 else if t.kind = 1 then t.ety.kind.bits else 8 * 2 ^ t.wordBytes
/-- The index tuple of linear position `n`, dimension 0 fastest (R253). -/
def Desc.tupleGo (t : Desc) : Nat → Nat → Nat → List Nat
  | 0, _, _ => []
  | f + 1, d, n => n % t.dim d :: Desc.tupleGo t f (d + 1) (n / t.dim d)
/-- The index tuple of linear position `n`. -/
def Desc.tuple (t : Desc) (n : Nat) : List Nat := Desc.tupleGo t t.rank 0 n
/-- The offset of an index tuple in elements (R253). -/
def Desc.off (t : Desc) (ix : List Nat) : Int := (ix.zipIdx.map fun i => (i.1 : Int) * t.str i.2).sum
/-- The element offsets in linear order. -/
def Desc.offs (t : Desc) : List Int := (List.range t.elems).map fun n => t.off (t.tuple n)
/-- Least and greatest element offset that any index tuple reaches. -/
def Desc.reach (t : Desc) : Int × Int :=
  (List.range t.rank).foldl (fun a d =>
    let x := ((t.dim d : Int) - 1) * t.str d
    (a.1 + min 0 x, a.2 + max 0 x)) (0, 0)
/-- The bytes from the lowest to the highest reached: first byte and one past the last, relative to the space's origin. -/
def Desc.extent (t : Desc) : Int × Int :=
  let (lo, hi) := t.reach
  let w : Int := t.bits
  ((t.offset : Int) + (lo * w) / 8, (t.offset : Int) + (hi * w + w + 7) / 8)

/-- Scale bytes of a scale region (R168). -/
def Desc.scaleCount (t : Desc) : Nat :=
  match t.ety.scaling with
  | .none => 0
  | .block l => ((List.range t.rank).drop 1).foldl (fun a d => a * t.dim d) (ceilDiv (t.dim 0) l)
  | .tile => ((List.range t.rank).drop 2).foldl (fun a d => a * t.dim d) (ceilDiv (t.dim 0) 128 * ceilDiv (t.dim 1) 128)

/-- The scale that an element uses: rows of dimension 0 in linear order, or 128 × 128 squares row-major (R168). -/
def Desc.scaleIx (t : Desc) (ix : List Nat) : Nat :=
  let i0 := ix.getD 0 0
  let i1 := ix.getD 1 0
  match t.ety.scaling with
  | .none => 0
  | .block l =>
    let j := (((List.range t.rank).drop 1).foldr (fun d a => ix.getD d 0 + t.dim d * a) 0)
    j * ceilDiv (t.dim 0) l + i0 / l
  | .tile =>
    let o := (((List.range t.rank).drop 2).foldr (fun d a => ix.getD d 0 + t.dim d * a) 0)
    (o * ceilDiv (t.dim 1) 128 + i1 / 128) * ceilDiv (t.dim 0) 128 + i0 / 128

/-! ### Where the data lies -/

/-- The die of a descriptor. -/
def Desc.dieIx (t : Desc) : DieIx := ⟨t.die % 16, Nat.mod_lt _ (by decide)⟩

/-- Extent of the allocation that a descriptor names, in bytes; 0 where it does not exist (R249). -/
def Desc.limit (s : State) (t : Desc) (h : Nat) : Nat :=
  match t.space with
  | 0 => if (handleOf s t.dieIx h).valid then (handleOf s t.dieIx h).rows * rowBytes else 0
  | 1 => if (storeOf s t.dieIx h).valid then (storeOf s t.dieIx h).rows * rowBytes else 0
  | 2 => if (ringOf s t.dieIx h).active then (ringOf s t.dieIx h).slotRows * rowBytes else 0
  | _ => 2 ^ 64

/-- The data extent and the scale region lie within the allocation (R255); WINDOW is checked by its owner, HOST must not wrap. -/
def Desc.inExtent (s : State) (t : Desc) : Bool :=
  let (lo, hi) := t.extent
  let sh := if t.space = 2 then t.handle else t.scaleHandle
  decide (0 ≤ lo ∧ hi ≤ (Desc.limit s t t.handle : Int)) &&
  (!t.scales || decide (t.scaleOffset + t.scaleCount ≤ Desc.limit s t sh))

/-- The die of the space is an active die of the partition; a RING is the issuing die's (R249). -/
def Desc.dieOk (s : State) (p : PartIx) (issuing : DieIx) (t : Desc) : Bool :=
  match t.space with
  | 0 | 1 => dieActive s t.dieIx && (dieOf s t.dieIx).owner == some p
  | 2 => t.dieIx == issuing
  | _ => true

/-! ### Validation -/

/-- KIND, WORD_BYTES, SIGNED, ETYPE and SCALES agree (R255, R168). -/
def Desc.agrees (t : Desc) : Bool :=
  match t.kind with
  | 0 => t.wordBytes == 0 && !t.signed && t.etype == 0 && !t.scales && t.rank == 1 && t.stride.all (· == 0) &&
         t.padLo.all (· == 0) && t.padHi.all (· == 0) && !t.wrap && !t.padSkip && !t.transpose && !t.s0Zero && t.indexDim == 0
  | 1 => t.wordBytes == 0 && !t.signed && (match etypeOf t.etype with
         | none => false
         | some e => match e.scaling with
           | .none => !t.scales
           | .tile => true
           | .block l => t.scales && t.dim 0 % l == 0 && t.padLo.all (· == 0) && t.padHi.all (· == 0))
  | 2 => t.etype == 0 && !t.scales
  | _ => false

/-- R255 on a descriptor's bytes. -/
def descR255 (s : State) (p : PartIx) (issuing : DieIx) (b : List Byte) : Bool :=
  let t := descOfBytes b
  descIntact b && decide (1 ≤ t.rank ∧ t.rank ≤ 5 ∧ t.space ≤ 4) &&
  (List.range 5).all (fun d =>
    if d < t.rank then decide (1 ≤ t.size.getD d 0) && decide (t.padLo.getD d 0 + t.padHi.getD d 0 < t.size.getD d 0)
    else t.size.getD d 0 == 0 && t.padLo.getD d 0 == 0 && t.padHi.getD d 0 == 0 && t.str d == 0) &&
  t.agrees && decide (t.indexDim < t.rank) && Desc.dieOk s p issuing t && Desc.inExtent s t

/-- R256. -/
def Desc.aligned (t : Desc) : Bool :=
  if t.kind = 0 then (if t.space ≤ 2 then t.offset % 288 == 0 else t.offset % 64 == 0)
  else
    (t.bits < 8 || t.offset % (t.bits / 8) == 0) &&
    (t.bits != 4 || (t.size.getD 0 0 % 2 == 0 && t.stride.all (· % 2 == 0))) &&
    (match (if t.kind = 1 then t.ety.block else none) with
     | some l => t.stride.getD 0 0 % (l : Int) == 0
     | none => true)

/-! ### Reading and writing -/

/-- The memory and origin of a descriptor's data in this part; `slot` is the ring slot's first row in its handle. -/
def Desc.mem (s : State) (t : Desc) (slot h : Nat) : Mem × Nat :=
  match t.space with
  | 1 => ((dieOf s t.dieIx).store, (storeOf s t.dieIx h).base * rowBytes)
  | 2 => ((dieOf s t.dieIx).scratch, ((handleOf s t.dieIx (ringOf s t.dieIx h).handle).base + slot) * rowBytes)
  | _ => ((dieOf s t.dieIx).scratch, (handleOf s t.dieIx h).base * rowBytes)

/-- An element code at an offset of a memory (R167). -/
def readElem (m : Mem) (base : Nat) (t : Desc) (off : Int) : Nat :=
  if t.bits = 4 then
    let nib := (2 * (base : Int) + 2 * t.offset + off).toNat
    (memGet m (nib / 2)).toNat / (if nib % 2 = 0 then 1 else 16) % 16
  else leNat (memBytes m ((base : Int) + t.offset + off * (t.bits / 8 : Nat)).toNat (t.bits / 8))

/-- Write an element code. -/
def writeElem (m : Mem) (base : Nat) (t : Desc) (off : Int) (v : Nat) : Mem :=
  if t.bits = 4 then
    let nib := (2 * (base : Int) + 2 * t.offset + off).toNat
    let old := (memGet m (nib / 2)).toNat
    let b := if nib % 2 = 0 then old / 16 * 16 + v % 16 else old % 16 + 16 * (v % 16)
    memSet m (nib / 2) (BitVec.ofNat 8 b)
  else memPut m ((base : Int) + t.offset + off * (t.bits / 8 : Nat)).toNat (leBytes (t.bits / 8) v)

/-- The scale byte of a scale index; 2^0 where no region is named (R168). -/
def readScale (s : State) (t : Desc) (slot i : Nat) : Nat :=
  if t.scales then
    let (m, b) := Desc.mem s t slot (if t.space = 2 then t.handle else t.scaleHandle)
    (memGet m (b + t.scaleOffset + i)).toNat
  else 127

/-- Change the memory of a descriptor's space. -/
def updSpace (t : Desc) (f : Mem → Mem) (s : State) : State :=
  updDie t.dieIx (fun x => if t.space = 1 then { x with store := f x.store } else { x with scratch := f x.scratch }) s

/-- A write into a store handle makes its content digest invalid (R440). -/
def touchDigest (t : Desc) (s : State) : State :=
  if t.space = 1 then updStore t.dieIx t.handle (fun x => { x with digest := none }) s else s

/-- Write element codes at offsets. -/
def writeElems (t : Desc) (slot : Nat) (xs : List (Int × Nat)) (s : State) : State :=
  let b := (Desc.mem s t slot t.handle).2
  touchDigest t (updSpace t (fun m => xs.foldl (fun m x => writeElem m b t x.1 x.2) m) s)

/-- Write scale bytes. -/
def writeScales (t : Desc) (slot : Nat) (xs : List (Nat × Nat)) (s : State) : State :=
  if t.scales then
    let h := if t.space = 2 then t.handle else t.scaleHandle
    let b := (Desc.mem s t slot h).2
    touchDigest { t with handle := h }
      (updSpace t (fun m => xs.foldl (fun m x => memSet m (b + t.scaleOffset + x.1) (BitVec.ofNat 8 x.2)) m) s)
  else s

/-- The physical rows that a SCRATCH descriptor's data touches, as a scoreboard range (R236), with its scale region's. -/
def Desc.rowRanges (s : State) (t : Desc) (write : Bool) : List SbEntry :=
  if t.space != 0 then []
  else
    let (lo, hi) := t.extent
    let b := (handleOf s t.dieIx t.handle).base
    let a := (handleOf s t.dieIx t.scaleHandle).base
    { lo := b + lo.toNat / 288, hi := b + (hi.toNat - 1) / 288, write := write, op := 0 } ::
    (if t.scales then [{ lo := a + t.scaleOffset / 288, hi := a + (t.scaleOffset + t.scaleCount - 1) / 288, write := write, op := 0 }] else [])

/-- What a descriptor names as a destination, for poison (R257); the scale region's handle too. -/
def Desc.dests (t : Desc) : List Dest :=
  match t.space with
  | 0 => Dest.handle t.dieIx t.handle :: (if t.scales then [.handle t.dieIx t.scaleHandle] else [])
  | 1 => Dest.store t.dieIx t.handle :: (if t.scales then [.store t.dieIx t.scaleHandle] else [])
  | 2 => [.ring t.dieIx t.handle]
  | 3 => [.window t.part t.window]
  | _ => [.host]

/-- The descriptor in entry `i` of die `d`'s table (R254). -/
def descOf (s : State) (d : DieIx) (i : Nat) : Option Desc := tblGet (dieOf s d).descs i

/-- The recheck at issue (R257, R230, R243, R246). -/
def Desc.recheck (s : State) (t : Desc) : Verdict :=
  let hv (h : Nat) : Verdict := match t.space with
    | 0 => (match handleUse s t.dieIx h with | some e => .skip e | none => .pass)
    | 1 => failIf (!(storeOf s t.dieIx h).valid) (.skip 0x0104)
    | 2 => failIf (!(ringOf s t.dieIx h).active) (.skip 0x0104)
    | _ => .pass
  firstFail [hv t.handle, if t.scales && t.space ≤ 1 then hv t.scaleHandle else .pass, failIf (!(Desc.inExtent s t)) (.skip 0x0105)]

/-- Poison of the allocation that a descriptor names (R232). -/
def Desc.poison (s : State) (t : Desc) : Option Ev :=
  let hp (h : Nat) : Option Ev := match t.space with
    | 0 => (handleOf s t.dieIx h).pe
    | 1 => (storeOf s t.dieIx h).pe
    | 2 => (handleOf s t.dieIx (ringOf s t.dieIx h).handle).pe
    | _ => none
  (hp t.handle).or (if t.scales && t.space ≤ 1 then hp t.scaleHandle else none)

/-- A descriptor's allocation is secret-marked. -/
def Desc.secret (s : State) (t : Desc) : Bool :=
  t.space == 0 && ((handleOf s t.dieIx t.handle).isSecret || (t.scales && (handleOf s t.dieIx t.scaleHandle).isSecret))

/-! ### DSET (R254) -/

/-- Issue DSET: it reads 128 bytes under a READ entry, validates them, and holds them in the entry; a failure leaves the entry
invalid and quenches the job. -/
def issueDset (at_ : Site) (index handle offset : Nat) (j : Job) (s : State) : Issued :=
  let d := at_.die
  let drop (s : State) : State := updDie d (fun x => { x with descs := tblDel x.descs index }) s
  let e := handleOf s d handle
  match handleUse s d handle with
  | some ev => .done (skipQuench ev j at_ 0 [] (drop s))
  | none =>
    if e.rows * rowBytes < offset + 128 then .done (skipQuench 0x0105 j at_ 0 [] (drop s))
    else
      let rs := [handleRange s d handle (offset / 288) ((offset + 127) / 288 - offset / 288 + 1) false]
      withScoreboard d rs s fun _ s =>
        match e.pe with
        | some pe => .done (drop (refuseInstr 0x0107 pe j at_ 0 [] s))
        | none =>
          let b := handleBytes s d handle offset 128
          if !(descR255 s j.part d b) then .done (refuseInstr 0x0105 0x0105 j at_ 0 [] (drop s))
          else if !(descOfBytes b).aligned then .done (refuseInstr 0x0106 0x0106 j at_ 0 [] (drop s))
          else .done (updDie d (fun x => { x with descs := tblSet x.descs index (descOfBytes b) }) s)

/-- DSET (R254). -/
def execDset (at_ : Site) (index handle offset : Nat) (s : State) : Result :=
  ok (runInstr at_ (.dset at_ index handle offset) (issueDset at_ index handle offset) s)

end Sys2Proof.Machine
end

