-- ==== Sys2Proof/Machine/Engines.lean ====
section
/-! DEFINITION. What the tensor, vector and update engines share: presence (R33), scalar operands (R198, R205, R220), palette
records (R186 to R188), conversion of a group of values into a destination and its consequences (R179 to R185). -/

namespace Sys2Proof.Machine

/-- An engine of die `d` is present: a bit of the engine-presence word (R33, R499). -/
def engineHere (s : State) (d : DieIx) (bit : Nat) : Bool := bitOf (enginePresence s d) bit

/-- An operation or big-number command of die `d` in flight is still to write a scalar register (R205, R445). -/
def scalarBusy (s : State) (d : DieIx) (scs : List Nat) : Bool :=
  ((dieOf s d).ops.any fun o => o.scalars.any fun x => scs.contains x) ||
  (bnInFlight s).any fun c => c.part.isSome && c.at_.die == d && (match bnStatus c.instr with | some x => scs.contains x | none => false)

/-- A scalar register among these was poisoned by an abort (R220). -/
def scalarBad (s : State) (d : DieIx) (scs : List Nat) : Bool := (dieOf s d).scalarPoison.any fun x => scs.contains x

/-- Record a conversion's largest source magnitude in a palette entry (R187, R188). -/
def recordPalette (d : DieIx) (e : Nat) (vs : List FV) (sat : Bool) (s : State) : State :=
  let amax (p : Nat) : Nat := vs.foldl (fun a v => if v.isNan then a else fmax a (w32 v.abs)) p
  updDie d (fun x =>
    let p := tblGetD x.palette e Pal.zero
    { x with palette := tblSet x.palette e { amax := amax p.amax, updates := Nat.min (p.updates + 1) 0xFFFF, saturated := p.saturated || sat } }) s

/-- What a conversion of values into a descriptor's elements produces: codes by linear position, scale bytes by index, NaNs
written as zero, recomputations, and the first saturated tile or block. -/
structure ConvOut where
  codes : List (Nat × Nat)
  scales : List (Nat × Nat)
  nans : Nat
  recomputed : Nat
  saturated : Option Nat
  deriving DecidableEq, Repr

/-- Convert the values of linear positions 0 up into a destination's type, group by group (R168, R179 to R185). -/
def convInto (t : Desc) (vs : List FV) (xt : Int) : ConvOut :=
  let k := t.ety.kind
  let ix := vs.zipIdx.map fun v => (t.scaleIx (t.tuple v.2), v.2, v.1)
  match t.ety.scaling with
  | .none => { codes := (convPlain k vs).zipIdx.map fun c => (c.2, c.1), scales := [], nans := 0, recomputed := 0, saturated := none }
  | sc =>
    let conv (xs : List (Nat × Nat × FV)) : GroupConv := match sc with
      | .tile => convTile k (xs.map fun x => x.2.2) xt
      | _ => convBlock k (xs.map fun x => x.2.2)
    let gs : List (Nat × List Nat × GroupConv) := (List.range t.scaleCount).filterMap fun g =>
      match ix.filter (fun x => x.1 == g) with
      | [] => none
      | xs => some (g, xs.map (fun x => x.2.1), conv xs)
    { codes := gs.flatMap fun g => g.2.1.zip g.2.2.codes
      scales := gs.map fun g => (g.1, g.2.2.scale)
      nans := (gs.map fun g => g.2.2.nans).sum
      recomputed := (gs.map fun g => g.2.2.recomputed).sum
      saturated := (gs.find? fun g => g.2.2.saturated).map (·.1) }

/-- Count NaNs to the queue, and log them once (R183). -/
def countNans (j : Job) (at_ : Site) (unit n : Nat) (s : State) : State :=
  if n = 0 then s
  else logJob 0x0A04 j at_ unit 0 false
    (updQueue at_.die at_.queue (fun q => { q with nanCount := Nat.min (q.nanCount + n) 0xFFFFFFFF }) s)

/-- Write a conversion's result and log its NaNs and recomputations (R181, R183). -/
def writeConv (j : Job) (at_ : Site) (unit : Nat) (t : Desc) (o : ConvOut) (s : State) : State :=
  let s := writeScales t 0 o.scales (writeElems t 0 (o.codes.map fun c => (t.off (t.tuple c.1), c.2)) s)
  let s := countNans j at_ unit o.nans s
  (List.range o.recomputed).foldl (fun s _ => logJob 0x0A01 j at_ unit 0 false s) s

/-- A saturated conversion (R182): logged with its first tile, every destination poisoned, the rings whose slots it took reset, the
job quenched (R248). -/
def saturate (j : Job) (at_ : Site) (unit : Nat) (ds : List Dest) (takes : List (Nat × Nat)) (i : Nat) (s : State) : State :=
  let s := nameDests j.id ds s
  let s := logJob 0x0A02 j at_ unit i false s
  let s := (takes.map (·.1)).foldl (fun s r => resetRing at_.die 0x0A02 r s) s
  quenchJob j.id 0x0A02 false (poisonAll 0x0A02 ds s)

/-- A descriptor used by an engine: in the issuing die's scratchpad, or a ring of it as a source (R197, R244). -/
def engineSpace (d : DieIx) (src : Bool) (t : Desc) : Bool := t.dieIx == d && (t.space == 0 || (src && t.space == 2))

/-- The checks of an engine's descriptor: the entry exists, its space, no secret-marked handle (R204, and R165 for the tensor engine, log
98), the recheck (R254, R257). -/
def engineDesc (s : State) (d : DieIx) (src : Bool) (i : Nat) : Verdict :=
  match descOf s d i with
  | none => .skip 0x0105
  | some t => firstFail [failIf (!(engineSpace d src t) || t.secret s) (.skip 0x0105), t.recheck s]

/-- X_t as an integer from a scalar register (R181, R198). -/
def xtOf (s : State) (d : DieIx) (sc : Nat) : Int := toSigned 64 (scalarOf s d sc)
/-- X_t lies in the range of a scale byte (log 27). -/
def xtOk (x : Int) : Bool := decide (-127 ≤ x ∧ x ≤ 127)

/-- PALETTE_READ_CLEAR (R186, R188): the entry's 64 bits to a scalar register, the entry cleared; a write clears its poison. -/
def readClearPalette (d : DieIx) (e sc : Nat) (s : State) : State :=
  let p := tblGetD (dieOf s d).palette e Pal.zero
  let s := putScalar d sc (p.amax + p.updates * 2 ^ 32 + b2n p.saturated * 2 ^ 48) s
  updDie d (fun x => { x with palette := tblDel x.palette e, palettePoison := x.palettePoison.filter (· != e) }) s

/-- A read of a scalar or of queue state into a register waits for an operation still to write that register (R205). -/
def issueRead (d : DieIx) (sc : Nat) (f : State → State) (_ : Job) (s : State) : Issued :=
  if scalarBusy s d [sc] then .wait .scalar [] else .done (f s)

/-- PALETTE_READ_CLEAR (R188). -/
def execPaletteReadClear (at_ : Site) (entry sc : Nat) (s : State) : Result :=
  ok (runInstr at_ (.paletteReadClear at_ entry sc) (issueRead at_.die sc (readClearPalette at_.die entry sc)) s)

/-- NAN_COUNT_READ_CLEAR (R183): the queue's NAN_COUNT to a scalar register, then cleared. -/
def execNanCountReadClear (at_ : Site) (sc : Nat) (s : State) : Result :=
  ok (runInstr at_ (.nanCountReadClear at_ sc) (issueRead at_.die sc fun s =>
    updQueue at_.die at_.queue (fun q => { q with nanCount := 0 })
      (putScalar at_.die sc (queueOf s at_.die at_.queue).nanCount s)) s)

end Sys2Proof.Machine
end

