-- ==== Sys2Proof/Machine/Imports.lean ====
section
/-! DEFINITION. How an import of a key set ends: the plain bundle (R73 to R75), the chain table (R42, R44), failure with a reason
code (R80), commit (R81, R104), and commit on the primary alone (R101). -/

namespace Sys2Proof.Machine

/-! ### The plain bundle (R73 to R75) -/

/-- Bytes of a segment (R79). -/
def segSize : Nat := 4194304

/-- KEY_COUNT of a bundle. -/
def bundleKeys (b : List Byte) : Nat := fieldAt b 6 2
/-- First body row. -/
def bundleBody (b : List Byte) : Nat := 1 + ceilDiv (bundleKeys b) 9
/-- BODY_ROWS. -/
def bundleRows (b : List Byte) : Nat := fieldAt b 0x38 4
/-- LOG_N. -/
def bundleLogN (b : List Byte) : Nat := bitsOf (fieldAt b 4 1) 0 5
/-- The chain descriptor of a bundle. -/
def bundleChain (b : List Byte) : Chain := chainOfBytes (bytesAt b 0x80 128)

/-- Key-table entry `e` as bytes; nine entries fill a row (R74). -/
def keyEntryBytes (b : List Byte) (e : Nat) : List Byte := bytesAt b (rowBytes + 32 * e) 32

/-- A key-table entry. -/
def keyEntryOf (b : List Byte) : KeyEntry :=
  { index := fieldAt b 0 4, kind := fieldAt b 4 1, topLevel := fieldAt b 5 1, digits := fieldAt b 6 1, galois := fieldAt b 8 4
    rowOffset := fieldAt b 0x10 4, rowCount := fieldAt b 0x14 4 }

/-- The keys of a bundle. -/
def bundleEntries (b : List Byte) : List KeyEntry := (List.range (bundleKeys b)).map fun e => keyEntryOf (keyEntryBytes b e)

/-- Register a chain descriptor (R42, R44). -/
def regChain (b : List Byte) (t : Tbl Chain) : Option (Tbl Chain) :=
  let c := chainOfBytes b
  if !(chainSound b) then none
  else match tblGet t c.chainId with
    | some o => if o.raw = b then some t else none
    | none => some (tblSet t c.chainId c)

/-! ### The end of an import (R80, R81, R101, R104) -/

/-- A key set as it commits (R81, R85): its homes, rows and table from the bundle; counters stay with a refetched set. -/
def setOf (old : KeySet) (b : List Byte) (homes : BitVec 16) (placed : List (Nat × Nat × Nat × Nat)) (mirror : Bool) : KeySet :=
  let n := b.length / rowBytes
  { old with
    state := .resident, tag := fieldAt b 8 8, paramSet := fieldAt b 0x10 2, mirrored := mirror, homeMask := homes
    scheme := bitsOf (fieldAt b 3 1) 0 4, logN := bundleLogN b, chainId := (bundleChain b).chainId, totalRows := n
    seed := bytesAt b 0x18 32, chain := bytesAt b 0x80 128, keys := bundleEntries b, rows := placed, failing := [] }

/-- The event that a reason code logs (R80). -/
def reasonEvent (r : Nat) : Ev :=
  if r = 0x03 then 0x0813 else if r = 0x06 then 0x0104 else if r ∈ [0x01, 0x0C, 0x08, 0x09, 0x0A] then 0x0202 else 0x0201

/-- Log and complete a refused KEYSET_BIND with its reason code (R80, R466). -/
def refuseBind (p : PartIx) (d : DieIx) (q : QueueIx) (b : List Byte) (r : Nat) (s : State) : State :=
  let e := reasonEvent r
  let s := logEvent e { die := d, queue := some (q, pktSeq b, 0), part := some p, unit := 2, detail := r, isSkip := false } s
  putCpl d q { cplWithheld (pktSeq b) (pktType b) (pktTag b) (pktIrq b) e with detail := r } s

/-- An import fails with a reason code: its rows are released, its slot is FREE or its set DAMAGED, the packet is completed
(R80, R86). -/
def failImport (p : PartIx) (im : Import) (r : Nat) (s : State) : State :=
  let s := updKs p im.slot (fun k => { k with lastReason := r }) (dropImport p im s)
  match holdPacket s im.die im.queue with
  | some (_, b) => finishEvictions p (releaseQueue im.die im.queue (refuseBind p im.die im.queue b r s))
  | none => s

/-- An import commits (R81, R104): the chain is registered, the set is RESIDENT, the session key and the import go. -/
def commitImport (p : PartIx) (im : Import) (twinHas : Bool) (s : State) : State :=
  match regChain (bytesAt im.plain 0x80 128) (partOfIx s p).chains with
  | none => failImport p im 0x09 s
  | some t =>
    let s := updPart p (fun x => { x with chains := t, imports := x.imports.filter (·.slot != im.slot) }) s
    let s := updKs p im.slot (fun k => setOf k im.plain im.homeMask im.placed twinHas) s
    match holdPacket s im.die im.queue with
    | some (_, b) => releaseQueue im.die im.queue (okPacket im.die im.queue b 0 s)
    | none => s

/-- The imports of a partition that await confirmation. -/
def awaiting (s : State) (p : PartIx) : List Import := (partOfIx s p).imports.filter (·.confirm)

/-- Imports that await confirmation commit alone; a twin that is still paired is told to discard its rows (R101). -/
def commitAlone (s : State) : State :=
  allParts.foldl (fun s p => (awaiting s p).foldl (fun s im =>
    let s := commitImport p im false s
    if s.twin.state = .paired then sendTwin 5 p im.tag s else s) s) s

/-- A port has lost its keys: where it is the twin port, the imports that await confirmation commit alone (R101). -/
def unsealTwin (n : PortIx) (s : State) : State := if s.twin.port = n.val then commitAlone s else s

end Sys2Proof.Machine
end

