-- ==== Sys2Proof/Machine/Fabric.lean ====
section
/-! DEFINITION. The fabric's link layer and routing: flits, sealing, replay and credits (R342 to R350), packets (R351, R352),
routes (R354 to R357), epochs of a packet (R361), and the steps of a port (R344, R345, R433 to R436). -/

namespace Sys2Proof.Machine

/-! ### Packets and flits -/

/-- The bytes of a packet (R351). -/
def packetBytes (p : Packet) : List Byte :=
  leBytes 1 p.ptype ++ leBytes 1 p.hops ++ leBytes 2 p.dstPart ++ leBytes 2 p.srcPart ++
  leBytes 1 (p.dstDie.val + 16 * p.srcDie.val) ++ leBytes 1 0 ++ leBytes 2 p.epoch ++ leBytes 2 p.fpkey ++ leBytes 2 p.window ++
  leBytes 2 p.length ++ leBytes 4 p.wgen.toNat ++ leBytes 4 p.rtag.toNat ++ leBytes 8 p.offset.toNat ++ p.data

/-- The data bytes that follow a header: none in a READ_REQ (log 30). -/
def dataBytes (b : List Byte) : Nat := if bitsOf (fieldAt b 0 1) 0 4 = 2 then 0 else fieldAt b 0x0E 2

/-- A packet from its bytes (R351). -/
def packetOfBytes (b : List Byte) : Packet :=
  { ptype := bitsOf (fieldAt b 0 1) 0 4, hops := fieldAt b 1 1, dstPart := bitsOf (fieldAt b 2 2) 0 14
    srcPart := bitsOf (fieldAt b 4 2) 0 14, dstDie := dieBits (fieldAt b 6 1), srcDie := dieBits (fieldAt b 6 1 / 16)
    epoch := fieldAt b 8 2, fpkey := fieldAt b 0x0A 2, window := fieldAt b 0x0C 2, length := fieldAt b 0x0E 2
    wgen := BitVec.ofNat 32 (fieldAt b 0x10 4), rtag := BitVec.ofNat 32 (fieldAt b 0x14 4)
    offset := BitVec.ofNat 64 (fieldAt b 0x18 8), data := bytesAt b 0x20 (dataBytes b) }

/-- The channel that carries a packet type (R347). -/
def vcOf (ptype : Nat) : Nat :=
  match ptype with
  | 1 | 3 => 0
  | 7 => 1
  | 9 => 3
  | _ => 2

/-- The first eight bytes of a flit (R342), the AAD of R350. -/
def flitHead (f : Flit) : List Byte :=
  leBytes 1 (f.ftype % 16 + 16 * (f.vc % 4) + 64 * b2n f.isSealed) ++ leBytes 1 f.reserved ++ leBytes 2 f.seq ++
  leBytes 2 f.ack ++ leBytes 1 (f.creditVc % 4 + 4 * f.credits) ++ leBytes 1 0

/-- The CRC-64 of a flit (R342). -/
def flitCrc (f : Flit) : W64 := crc64 (flitHead f ++ bytesAt f.body 0 240)

/-- The IV of the `n`-th flit sealed under a key (R350). -/
def flitIv (key n : Nat) : List Byte := leBytes 4 key ++ leBytes 8 n

/-- Bytes of a packet that one flit of the port carries (R342): what is cut while the port is keying is sent sealed (R350). -/
def bodySize (p : Port) : Nat := if p.keyState = .on || p.keyState = .keying then 224 else 240

/-- Cut bytes into flit bodies: HEAD, then DATA (R343). -/
def cutBodies (n : Nat) (b : List Byte) : List (Nat × List Byte) := (chunks n b).zipIdx.map fun c => (if c.2 = 0 then 2 else 3, c.1)

/-! ### Sending -/

/-- Seal a body where encryption is on (R350). -/
def sealFlit (p : Port) (f : Flit) : Port × Flit :=
  match p.keyState, p.sendKey with
  | .on, some k =>
    let f := { f with isSealed := true }
    let (c, t) := gcmSeal k (flitIv p.keyNumber p.sealedCount) (flitHead f) (bytesAt f.body 0 224)
    ({ p with sealedCount := p.sealedCount + 1 }, { f with body := c ++ t })
  | _, _ => (p, { f with body := bytesAt f.body 0 240 })

/-- The SEQ of the last flit received in order (R342). -/
def lastSeq (p : Port) : Nat := (p.expectSeq + 4095) % 4096

/-- A port may send packet flits now: UP, and not keying (R345, R433). -/
def portSends (p : Port) : Bool := p.state == .up && p.keyState != .keying

/-- Send one flit body: sequenced, sealed, kept for replay, one credit used (R342, R344, R347). -/
def sendBody (p : Port) (vc ftype : Nat) (body : List Byte) : Port × Flit :=
  let f : Flit := { ftype := ftype, vc := vc, isSealed := false, reserved := 0, seq := p.sendSeq, ack := lastSeq p,
                    creditVc := 0, credits := 0, body := body, crc := 0, fecOk := true }
  let (p, f) := sealFlit p f
  let f := { f with crc := flitCrc f }
  ({ p with sendSeq := (p.sendSeq + 1) % 4096, replay := p.replay ++ [f],
            credits := p.credits.modify vc (· - 1) }, f)

/-- A channel can send its next flit: one waits, and the partner has a buffer free. -/
def canSend (p : Port) (vc : Nat) : Bool := p.sendQ.any (·.1 == vc) && decide (0 < p.credits.getD vc 0)

/-- The weights of object 0x3010 by channel (R380); FLAG has none. -/
def vcWeights (p : Port) : List Nat := [p.weights.getD 0 0, p.weights.getD 1 0, 0, p.weights.getD 2 0]

/-- The channel that sends next (R347): FLAG before the others, but only one flit in eight while another can send; the others by their
weights in rounds, in which a channel that cannot send leaves its turns to the rest (log 100). -/
def pickVc (p : Port) : Option (Nat × Port) :=
  let others := [0, 1, 3].filter (canSend p)
  if canSend p 2 && (others.isEmpty || decide (7 ≤ p.sinceFlag)) then some (2, { p with sinceFlag := 0 })
  else
    let p := if others.all fun v => p.turns.getD v 0 == 0 then { p with turns := vcWeights p } else p
    match (others.find? fun v => decide (0 < p.turns.getD v 0)).or others.head? with
    | none => none
    | some v => some (v, { p with turns := p.turns.modify v (· - 1), sinceFlag := Nat.min 7 (p.sinceFlag + 1) })

/-- Send at most `n` flits: what the credits and the replay buffer allow, in order within each channel (R344, R347). -/
def drainGo : Nat → Port → List Flit → Port × List Flit
  | 0, p, out => (p, out)
  | n + 1, p, out =>
    if 2048 ≤ p.replay.length then (p, out)
    else match pickVc p with
      | none => (p, out)
      | some (v, p) => match p.sendQ.find? (·.1 == v) with
        | none => (p, out)
        | some x =>
          let r := sendBody { p with sendQ := p.sendQ.eraseP (·.1 == v) } x.1 x.2.1 x.2.2
          drainGo n r.1 (out ++ [r.2])

/-- Send waiting flits of a port; a device-quenched part sends only IDLE flits (R346). -/
def drainPort (n : PortIx) (s : State) : State :=
  let p := portOf s n
  if s.alarm.device || !(portSends p) then s
  else
    let (p', fs) := drainGo p.sendQ.length p []
    fs.foldl (fun s f => emit (.flit n f) s) (updPort n (fun _ => p') s)

/-- Put a packet on a port. -/
def portSend (n : PortIx) (p : Packet) (s : State) : State :=
  drainPort n (updPort n (fun x => { x with
    sendQ := x.sendQ ++ (cutBodies (bodySize x) (packetBytes p)).map fun c => (vcOf p.ptype, c.1, c.2) }) s)

/-! ### Routing (R354 to R357) -/

/-- Route a packet from `at_` (its source die's port, or the port it arrived on): deliver it here, send it, or discard it. -/
def routePacket (at_ : PortIx) (p : Packet) (s : State) : State :=
  match routeOf s p.dstPart p.srcDie p.dstDie with
  | .none => discard at_ 1 s
  | .here => { s with fabric := { s.fabric with arrived := s.fabric.arrived ++ [(at_, p)] } }
  | .port n => if (portOf s n).state = .up then portSend n p s else discard n 2 s

/-- Originate a packet at a die; nothing but MGMT leaves before the part has an identifier (R353). -/
def originate (d : DieIx) (p : Packet) (s : State) : State :=
  if !s.fabric.valid then discard d 5 s
  else routePacket d { p with srcPart := s.fabric.partId, srcDie := d, length := if p.ptype = 2 then p.length else p.data.length } s

/-- Answer a packet: ACK, NAK or READ_DATA to its sender (R349, R361, R366). -/
def answer (q : Packet) (ptype wgen : Nat) (data : List Byte) (s : State) : State :=
  originate q.dstDie { packetZero with
    ptype := ptype, dstPart := q.srcPart, dstDie := q.srcDie, epoch := q.epoch, fpkey := q.fpkey, window := q.window
    wgen := BitVec.ofNat 32 wgen, rtag := q.rtag, offset := q.offset, data := data } s

/-- Refuse a packet with a NAK and an event (R361, R366). -/
def nak (q : Packet) (e : Ev) (s : State) : State := answer q 5 e.toNat [] s

/-! ### Arrival -/

/-- Epochs that the part holds: the current one and the retained one (R361). -/
def epochsHeld (s : State) : List Nat := s.fabric.epoch % 2 ^ 16 :: (match s.fabric.retained with | some r => [r.1 % 2 ^ 16] | none => [])

/-- A part is a member of an epoch that this part holds, and not in the loss list (R357, R363). -/
def memberHeld (s : State) (part : Nat) : Bool :=
  (s.fabric.members.contains part || (match s.fabric.retained with | some r => r.2.contains part | none => false)) &&
  !s.fabric.losses.contains part

/-- Packets that a NAK answers (R361): every one of channels 0 to 2 but a NAK itself (log 101). -/
def nakable (p : Packet) : Bool := p.ptype != 5

/-- Hold what a packet brings for the next epoch, or say that the buffer of 64 is full (R361). -/
def holdNext (n : PortIx) (x : HeldIn) (s : State) : Option State :=
  if (portOf s n).holdBuf.length < 64 then some (updPort n (fun p => { p with holdBuf := p.holdBuf ++ [x] }) s) else none

/-- A low part of an epoch number is that of the next epoch. -/
def nextEpoch (s : State) (e : Nat) : Bool := e == (s.fabric.epoch + 1) % 2 ^ 16

/-- Count a refusal of what belongs to the next epoch (R380). -/
def countRefusal (n : PortIx) (s : State) : State := updPort n (fun x => { x with holdRefusals := x.holdRefusals + 1 }) s

/-- A packet for this part (R353, R357, R361): accepted, held for the next epoch, refused or discarded. Dictionary messages,
twin records and share traffic reach the part as commands of their own (log 8). -/
def acceptLocal (n : PortIx) (p : Packet) (s : State) : State :=
  if p.ptype = 9 then s
  else if !s.fabric.valid then discard n 5 s
  else if !(memberHeld s p.srcPart) then discard n 3 s
  else if (epochsHeld s).contains p.epoch then { s with fabric := { s.fabric with arrived := s.fabric.arrived ++ [(n, p)] } }
  else
    let refuse (s : State) : State := if nakable p then nak p 0x0506 s else s
    if nextEpoch s p.epoch then (match holdNext n (.packet p) s with
      | some s => s
      | none => refuse (countRefusal n s))
    else refuse s

/-- A whole packet has arrived at a port (R352, R355 to R357). The twin port's packets are taken by their own commands
(R403). -/
def packetIn (n : PortIx) (p : Packet) (s : State) : State :=
  if s.twin.port = n.val || (portOf s n).keyState = .keying then s
  else if p.ptype = 0 || 9 < p.ptype then discard n 4 s
  else if p.ptype = 9 && p.window = 0xFFFF then s
  else if !s.fabric.valid then (if p.ptype = 9 then s else discard n 5 s)
  else match routeOf s p.dstPart p.srcDie p.dstDie with
    | .here => acceptLocal n p s
    | .none => discard n 1 s
    | .port m =>
      if 32 ≤ p.hops then discard n 0 s
      else if (portOf s m).state = .up then portSend m { p with hops := p.hops + 1 } s
      else discard m 2 s

/-! ### Ports (R344, R345) -/

/-- Log 0x0505 for a port, with its state as detail (R344, R345). -/
def logPort (n : PortIx) (st : Nat) (s : State) : State := logAt 0x0505 n none 9 (n.val + 16 * st) s

/-- STATE as 0x3010 encodes it (R380). -/
def portStateCode : PortState → Nat
  | .down => 0
  | .training => 1
  | .up => 2

/-- Count a retry, and log it once per governor interval (R344). -/
def countRetry (n : PortIx) (s : State) : State :=
  let first := !(portOf s n).retryLogged
  let s := updPort n (fun p => { p with retryCount := p.retryCount + 1, retryLogged := true }) s
  if first then logPort n (portStateCode (portOf s n).state) s else s

/-- Forget a port's keys and ephemeral secrets (R436). -/
def dropKeys (p : Port) : Port :=
  { p with sendKey := none, recvKey := none, ephScalar := none, nonce := [], record := [], peerStarted := false,
           sealedCount := 0, recvCount := 0 }

/-- A port goes DOWN (R345, R436): replay buffer and queued flits discarded, keys zeroised, the event logged with the state; no import
waits for a twin that the port no longer reaches under encryption (R101). -/
def takeDown (n : PortIx) (failed : Bool) (s : State) : State :=
  let s := updPort n (fun p => dropKeys { p with
    state := .down, replay := [], sendQ := [], assembly := [], retrying := false, retries := 0, downCount := p.downCount + 1
    keyState := if failed then .failed else .off }) s
  unsealTwin n (logPort n 0 s)

/-- PORT_DOWN (R345). -/
def execPortDown (port : PortIx) (s : State) : Result :=
  ok (if (portOf s port).state = .up then takeDown port false s else s)

/-- Begin keying on a port (R433): a fresh key pair, nonce and KEY_NUMBER, and the LINK_KEY record sent in five segments. -/
def startKeying (n : PortIx) (s : State) : State :=
  let (e, s) := freeBelow (p256.order - 1) s
  let (nonce, s) := freeBytes 32 s
  let e := e + 1
  let k := (portOf s n).keyNumber + 1
  let pub := ecCoords (ecMul p256 e (some (p256.gx, p256.gy)))
  let body := leBytes 2 0xC7A9 ++ leBytes 2 s.fabric.partId ++ leBytes 1 n.val ++ List.replicate 3 0 ++ leBytes 4 k ++
    List.replicate 4 0 ++ nonce ++ leBytes 32 pub.1 ++ leBytes 32 pub.2 ++ bytesAt s.sec.identPk 0 32
  let record := body ++ bytesAt (Config.slhSign (s.sec.identSk.getD []) body) 0 17088
  let s := updPort n (fun p => { dropKeys p with keyState := .keying, keyNumber := k, ephScalar := some e, nonce := nonce }) s
  (chunks 4096 record).zipIdx.foldl (fun s c => emit (.linkKey n (4096 * c.2) k c.1) s) s

/-- TRAINING (R345): a DOWN port with ENABLE set trains; a lane that fails loop-back leaves it DOWN (R469). -/
def execTraining (port : PortIx) (loopbackOk : Bool) (s : State) : Result :=
  let p := portOf s port
  ok (if p.state = .down && p.enabled && dieActive s port && !s.alarm.device then
      (if loopbackOk then updPort port (fun p => { p with state := .training, eyeLow := false }) s else s)
    else s)

/-- TRAINING_COMPLETE (R345, R433): UP with fresh sequence numbers and credits, KEYING where encryption is enabled; or DOWN. A
device-quenched part sends only IDLE flits, so that it keys no port (R346). -/
def execTrainingComplete (port : PortIx) (success : Bool) (s : State) : Result :=
  let p := portOf s port
  ok (if p.state ≠ .training then s
    else if !success then updPort port (fun p => { p with state := .down, downCount := p.downCount + 1 }) s
    else
      let s := updPort port (fun p => { p with
        state := .up, sendSeq := 0, expectSeq := 0, retrying := false, retries := 0, credits := [256, 256, 256, 256]
        turns := [0, 0, 0, 0], sinceFlag := 7 }) s
      if p.encEnable && !s.alarm.device then startKeying port s else updPort port (fun p => { p with keyState := .off }) s)

/-- Drop the flits that an ACK covers (R344). -/
def ackReplay (ack : Nat) (l : List Flit) : List Flit :=
  if l.any (fun f => f.seq == ack) then (l.dropWhile fun f => f.seq != ack).drop 1 else l

/-- The opened body of a flit, or none where it is in error (R344, R350). -/
def openBody (p : Port) (f : Flit) : Option (List Byte) :=
  match p.recvKey with
  | some k =>
    if f.isSealed then
      (if p.keyState = .on || p.peerStarted then
        gcmOpen k (flitIv p.peerKeyNumber p.recvCount) (flitHead f) (bytesAt f.body 0 224) (bytesAt f.body 224 16)
      else none)
    else if p.keyState = .on || p.peerStarted then none else some (bytesAt f.body 0 240)
  | none => if f.isSealed || p.peerStarted then none else some (bytesAt f.body 0 240)

/-- A flit in error: a RETRY names the expected SEQ, once (R344). -/
def flitError (n : PortIx) (s : State) : State :=
  let p := portOf s n
  if p.retrying then s
  else countRetry n (emit (.linkRetry n p.expectSeq) (updPort n (fun p => { p with retrying := true, retries := 1 }) s))

/-- An accepted body joins the packet of its channel; a packet that is whole goes on (R343, R349). -/
def assemble (n : PortIx) (vc ftype : Nat) (body : List Byte) (s : State) : State :=
  let old := tblGetD (portOf s n).assembly vc []
  if ftype = 3 && old.isEmpty then s
  else
    let b := if ftype = 2 then body else old ++ body
    if b.length < 32 + dataBytes b then updPort n (fun p => { p with assembly := tblSet p.assembly vc b }) s
    else packetIn n (packetOfBytes b) (updPort n (fun p => { p with assembly := tblDel p.assembly vc }) s)

/-- The IDLE flit that returns an ACK and one credit (R342, log 31). -/
def idleFlit (p : Port) (vc : Nat) : Flit :=
  let f : Flit := { ftype := 0, vc := 0, isSealed := false, reserved := 0, seq := 0, ack := lastSeq p, creditVc := vc,
                    credits := 1, body := List.replicate 240 0, crc := 0, fecOk := true }
  { f with crc := flitCrc f }

/-- FLIT (R342 to R346, R349, R350). -/
def execFlit (port : PortIx) (f : Flit) (s : State) : Result :=
  let p := portOf s port
  let sound := f.fecOk && f.reserved == 0 && f.crc == flitCrc f
  ok (if p.state ≠ .up then s
    else if s.alarm.device then s
    else if f.ftype = 0 || f.ftype = 1 then
      (if sound then drainPort port (updPort port (fun p => { p with
          replay := ackReplay f.ack p.replay, credits := p.credits.modify (f.creditVc % 4) (· + f.credits) }) s)
       else s)
    else if f.ftype = 2 || f.ftype = 3 then
      (if !sound || f.seq ≠ p.expectSeq then flitError port s
       else match openBody p f with
        | none => flitError port s
        | some body =>
          let s := updPort port (fun p => { p with
            expectSeq := (p.expectSeq + 1) % 4096, retrying := false, retries := 0
            recvCount := if f.isSealed then p.recvCount + 1 else p.recvCount
            replay := ackReplay f.ack p.replay, credits := p.credits.modify (f.creditVc % 4) (· + f.credits) }) s
          let s := emit (.flit port (idleFlit (portOf s port) (f.vc % 4))) s
          drainPort port (assemble port (f.vc % 4) f.ftype body s))
    else flitError port s)

/-- RETRY (R344): every flit from the named SEQ is sent again, byte for byte. -/
def execRetry (port : PortIx) (seq : Nat) (s : State) : Result :=
  let p := portOf s port
  ok (if p.state ≠ .up || s.alarm.device || !p.replay.any (fun f => f.seq == seq) then s
    else countRetry port ((p.replay.dropWhile fun f => f.seq != seq).foldl (fun s f => emit (.flit port f) s) s))

/-- RETRY_REPEAT (R344): the RETRY is sent again while the expected flit is missing. -/
def execRetryRepeat (port : PortIx) (s : State) : Result :=
  let p := portOf s port
  ok (if p.state = .up && p.retrying && !s.alarm.device then
      countRetry port (emit (.linkRetry port p.expectSeq) (updPort port (fun p => { p with retries := p.retries + 1 }) s))
    else s)

/-! ### Link keys (R433 to R436) -/

/-- The two direction keys of R434: of `sender` with its KEY_NUMBER. -/
def linkKeyOf (z : List Byte) (idA idB : Nat) (nonceA nonceB : List Byte) (sender keyNumber : Nat) : List Byte :=
  let salt := if idA < idB then nonceA ++ nonceB else nonceB ++ nonceA
  hkdf32 salt z (ascii "ZS-GH64-LINKKEY1" ++ leBytes 2 sender ++ leBytes 4 keyNumber)

/-- The checks of R434 on an assembled record. -/
def linkRecordOk (s : State) (p : Port) (b : List Byte) : Bool :=
  let pk := bytesAt b 0x70 32
  fieldAt b 0 2 == 0xC7A9 && sha256 pk == p.peerHash && Config.slhVerify pk (bytesAt b 0 0x90) (bytesAt b 0x90 17088) &&
  ecValid p256 (leNat (bytesAt b 0x30 32)) (leNat (bytesAt b 0x50 32)) && bitsOf (fieldAt b 2 2) 0 14 != s.fabric.partId

/-- KEYING ends: both keys are there and the partner has started (R434). -/
def finishKeying (n : PortIx) (s : State) : State :=
  let p := portOf s n
  if p.keyState = .keying && p.sendKey.isSome && p.recvKey.isSome && p.peerStarted then
    drainPort n (updPort n (fun p => { p with keyState := .on, sealedCount := 0, recvCount := 0 }) s)
  else s

/-- LINK_KEY_SEGMENT (R435): segments of one KEY_NUMBER in OFFSET order; anything else refuses the record. In a device quench every
HEAD and DATA flit is discarded (R346). -/
def execLinkKeySegment (port : PortIx) (offset keyNumber : Nat) (bytes : List Byte) (s : State) : Result :=
  let p := portOf s port
  ok (if p.keyState ≠ .keying || s.alarm.device then s
    else if offset ≠ p.record.length || 17232 < p.record.length + bytes.length || (p.record ≠ [] && keyNumber ≠ p.recordKey) then
      takeDown port true s
    else updPort port (fun p => { p with record := p.record ++ bytes, recordKey := keyNumber }) s)

/-- LINK_KEY (R434, R436): a whole record is checked; the direction keys are derived and KEY_START is sent. -/
def execLinkKey (port : PortIx) (s : State) : Result :=
  let p := portOf s port
  ok (match p.ephScalar with
    | none => s
    | some e =>
      if p.keyState ≠ .keying || s.alarm.device || p.record.length ≠ 17232 || p.recvKey.isSome then s
      else if !(linkRecordOk s p p.record) then takeDown port true s
      else
        let peer := bitsOf (fieldAt p.record 2 2) 0 14
        let pn := fieldAt p.record 8 4
        let z := (beBytes 32 (ecCoords (ecMul p256 e (some (leNat (bytesAt p.record 0x30 32), leNat (bytesAt p.record 0x50 32))))).1)
        let key := linkKeyOf z s.fabric.partId peer p.nonce (bytesAt p.record 0x10 32)
        let s := updPort port (fun p => { p with
          sendKey := some (key s.fabric.partId p.keyNumber), recvKey := some (key peer pn), peerKeyNumber := pn }) s
        finishKeying port (emit (.keyStart port) s))

/-- KEY_START (R434). -/
def execKeyStart (port : PortIx) (s : State) : Result :=
  ok (if (portOf s port).keyState = .keying && !s.alarm.device then finishKeying port (updPort port (fun p => { p with peerStarted := true }) s) else s)

/-- KEYING_TIMEOUT (R436). -/
def execKeyingTimeout (port : PortIx) (s : State) : Result :=
  ok (if (portOf s port).keyState = .keying then takeDown port true s else s)

/-- KEY_LIMIT (R436): a port that has sealed 2^48 flits under one key goes DOWN and keys again. -/
def execKeyLimit (port : PortIx) (s : State) : Result :=
  ok (if (portOf s port).keyState = .on && decide (2 ^ 48 ≤ (portOf s port).sealedCount) then takeDown port false s else s)

end Sys2Proof.Machine
end

