-- ==== Sys2Proof/Machine/Windows.lean ====
section
/-! DEFINITION. Remote windows at their owner (R364 to R370): WIN_OPEN, WIN_CLOSE, WRITE, READ_REQ and FLAG_SET packets, and the
epochs that close windows (R359 to R362). -/

namespace Sys2Proof.Machine

/-- Entry `w` of the window table (R364). -/
def windowOf (s : State) (w : Nat) : Window := tblGetD s.fabric.windows w Window.zero
/-- Change a window-table entry. -/
def updWindow (w : Nat) (f : Window → Window) (s : State) : State :=
  { s with fabric := { s.fabric with windows := tblSet s.fabric.windows w (f (windowOf s w)) } }

/-- The die of a window. -/
def Window.dieIx (w : Window) : DieIx := dieBits w.die

/-- Bytes of the handle or store handle that a window would lie in; 0 where it may not back one (R365). -/
def backing (s : State) (d : DieIx) (store : Bool) (h : Nat) : Nat :=
  if store then (if (storeOf s d h).valid then (storeOf s d h).rows * rowBytes else 0)
  else
    let e := handleOf s d h
    if e.valid && !e.isSecret && !e.ring then e.rows * rowBytes else 0

/-- WIN_OPEN succeeds (R365). -/
def winOpenOk (s : State) (d : DieIx) (w h base length : Nat) (a : WinAccess) : Bool :=
  !(windowOf s w).opened && (if a.store then (storeOf s d h).valid else (handleOf s d h).valid) &&
  decide (0 < backing s d a.store h ∧ base + length ≤ backing s d a.store h)

/-- WIN_OPEN (R365): GEN advances, skipping 0, and goes to SCx; DRAINED is cleared. -/
def execWinOpen (at_ : Site) (window handle base length : Nat) (access : WinAccess) (sc : Nat) (s : State) : Result :=
  ok (runInstr at_ (.winOpen at_ window handle base length access sc) (fun j s =>
    let d := at_.die
    if !(winOpenOk s d window handle base length access) then .done (skipQuench 0x0105 j at_ 9 [.scalar d sc] s)
    else if scalarBusy s d [sc] then .wait .scalar []
    else
      let g := ((windowOf s window).gen + 1) % 2 ^ 32
      let gen := if g = 0 then 1 else g
      .done (putScalar d sc gen (updWindow window (fun _ => {
        opened := true, write := access.write, read := access.read, store := access.store, any := access.any
        part := j.part.val, die := d.val, handle := handle, peer := access.peer, epoch := j.epoch % 2 ^ 16, gen := gen
        drained := 0, base := base, length := length, closing := false, closeOp := none, admitted := 0 }) s))) s)

/-- WRITE packets for window `w` that have reached the port and not yet landed (R367). -/
def writesWaiting (s : State) (w : Nat) : Nat := s.fabric.arrived.countP fun x => x.2.ptype == 1 && x.2.window == w

/-! ### Failures of work that spans parts -/

/-- An operation in flight fails: its event is logged and its job quenched (R275, R357, R361, R363, R376). -/
def failOp (d : DieIx) (o : Op) (unit : Nat) (e : Ev) (s : State) : State :=
  match jobOf s o.job with
  | none => s
  | some j => quenchJob j.id e false (logJob e j { die := d, queue := o.queue, off := o.off } unit 0 false s)

/-- The part and die of a member entry (R371). -/
def memberPart (m : Nat) : Nat := bitsOf m 0 14
/-- The die of a member entry. -/
def memberDie (m : Nat) : DieIx := dieBits (bitsOf m 16 4)

/-- Send a control message of a collective to every other member: its bytes, the sender's rank in RTAG (R351, log 32). -/
def collControl (d : DieIx) (key : Nat) (c : Coll) (data : List Byte) (s : State) : State :=
  (c.members.zipIdx.filter fun m => m.2 != c.rank).foldl (fun s m => originate d { packetZero with
    ptype := 8, dstPart := memberPart m.1, dstDie := memberDie m.1, epoch := c.epoch % 2 ^ 16, fpkey := key
    rtag := BitVec.ofNat 32 (c.rank * 2 ^ 16), offset := BitVec.ofNat 64 c.collId, data := data } s) s

/-- A collective fails on this member, which tells the others (R376). -/
def failColl (d : DieIx) (o : Op) (e : Ev) (s : State) : State :=
  match o.coll, jobOf s o.job with
  | some c, some j => failOp d o 9 e (collControl d (partOfIx s j.part).fabricKey c (leBytes 1 1 ++ leBytes 2 e.toNat) s)
  | _, _ => s

/-- Fail every collective in flight that meets a condition. -/
def failColls (f : Coll → Bool) (e : Ev) (s : State) : State :=
  allDies.foldl (fun s d => ((dieOf s d).ops.filter fun o => match o.coll with | some c => f c | none => false).foldl
    (fun s o => failColl d o e s) s) s

/-- A close takes effect at the window arbiter (R367): it admits what has reached the port; a collective that receives
there fails (R376). -/
def beginClose (w : Nat) (op : Option (DieIx × Nat)) (s : State) : State :=
  failColls (fun c => c.window == w) 0x0501
    (updWindow w (fun x => { x with closing := true, closeOp := op, admitted := writesWaiting s w }) s)

/-- A window that is open and may be closed by a partition. -/
def closable (s : State) (w : Nat) (p : PartIx) : Bool :=
  (windowOf s w).opened && !(windowOf s w).closing && (windowOf s w).part == p.val

/-- WIN_CLOSE (R367): it ends at WINDOW_CLOSE_COMPLETE, which writes DRAINED into SCx; only the opener may close. -/
def execWinClose (at_ : Site) (window sc : Nat) (s : State) : Result :=
  ok (runInstr at_ (.winClose at_ window sc) (fun j s =>
    let d := at_.die
    if !(closable s window j.part) then .done (skipInstr 0x0105 j at_ 9 [.scalar d sc] s)
    else if scalarBusy s d [sc] then .wait .scalar []
    else
      let id := s.nextId
      let s := startOp d { opZero 0 j.id at_.queue at_.off 9 with dests := [.scalar d sc, .window s.fabric.partId window], scalars := [sc] } [] s
      .done (beginClose window (some (d, id)) s)) s)

/-- WINDOW_CLOSE_COMPLETE (R367): the admitted writes have landed; OPEN is cleared, GEN kept, DRAINED returned. -/
def execWindowCloseComplete (window : Nat) (s : State) : Result :=
  let w := windowOf s window
  ok (if !(w.opened && w.closing && w.admitted == 0) then s
    else
      let s := updWindow window (fun x => { x with opened := false, closing := false, closeOp := none }) s
      match w.closeOp with
      | none => s
      | some (d, id) =>
        match (dieOf s d).ops.find? (fun o => o.id == id) with
        | none => s
        | some o => (o.scalars.foldl (fun s sc => putScalar d sc w.drained s) (dropOp d id s)))

/-- Open windows backed by a handle of a die. -/
def windowsOn (s : State) (d : DieIx) (store : Bool) (h : Nat) : List Nat :=
  (s.fabric.windows.filter fun w => w.2.opened && w.2.dieIx == d && w.2.store == store && w.2.handle == h).map (·.1)

/-- Begin to close every window of a list that is not closing yet. -/
def closeAll (ws : List Nat) (s : State) : State :=
  ws.foldl (fun s w => if (windowOf s w).closing then s else beginClose w none s) s

/-! ### The owner's checks (R366) -/

/-- The packet is within what a window permits: access, and for data the extent (order 5). -/
def windowPermits (w : Window) (p : Packet) : Bool :=
  let fits := decide (p.offset.toNat + p.length ≤ w.length)
  match p.ptype with
  | 1 => w.write && fits
  | 2 => w.read && fits
  | _ => w.write && decide (256 ≤ p.offset.toNat ∧ p.offset.toNat < 320)

/-- R366 in order; none where the packet passes. `admitted` says that a WRITE was admitted before a close took effect. -/
def windowRefuses (s : State) (p : Packet) (admitted : Bool) : Option Ev :=
  let w := windowOf s p.window
  let isOpen := w.opened && (!w.closing || admitted)
  if !isOpen && p.wgen.toNat == w.gen then some 0x0501
  else if p.wgen.toNat != w.gen then some 0x0502
  else if p.epoch != w.epoch then some 0x0506
  else if (match allParts[w.part]? with | some q => (partOfIx s q).fabricKey | none => 0) != p.fpkey || !(w.any || w.peer == p.srcPart) then
    some 0x0105
  else if !(windowPermits w p) then some 0x0105
  else none

/-- Take the first arrived packet that satisfies a condition. -/
def takeArrived (f : PortIx × Packet → Bool) (s : State) : Option ((PortIx × Packet) × State) :=
  match s.fabric.arrived.find? f with
  | none => none
  | some x => some (x, { s with fabric := { s.fabric with arrived := s.fabric.arrived.erase x } })

/-- Land bytes in a window (R349): DRAINED counts the packet. -/
def landWrite (p : Packet) (s : State) : State :=
  let w := windowOf s p.window
  let o := w.base + p.offset.toNat
  let s := if w.store then putStore w.dieIx w.handle o p.data s else putHandle w.dieIx w.handle o p.data s
  wakeDie w.dieIx (updWindow p.window (fun x => { x with drained := (x.drained + 1) % 2 ^ 32 }) s)

/-- REMOTE_WRITE: the first WRITE at the owner is checked and lands whole, or is refused (R349, R366 to R368). -/
def execRemoteWrite (s : State) : Result :=
  ok (match takeArrived (fun x => x.2.ptype == 1) s with
    | none => s
    | some ((_, p), s) =>
      let w := windowOf s p.window
      let adm := w.closing && decide (0 < w.admitted)
      let s := if adm then updWindow p.window (fun x => { x with admitted := x.admitted - 1 }) s else s
      match windowRefuses s p adm with
      | some e => nak p e s
      | none => answer p 4 0 [] (landWrite p s))

/-- The backing handle of a window is poisoned (R369). -/
def windowPoisoned (s : State) (w : Window) : Bool :=
  if w.store then (storeOf s w.dieIx w.handle).poisoned else (handleOf s w.dieIx w.handle).poisoned

/-- READ_REQ: the first request at the owner is checked and its data returned (R366, R369). -/
def execReadReq (s : State) : Result :=
  ok (match takeArrived (fun x => x.2.ptype == 2) s with
    | none => s
    | some ((_, p), s) =>
      match windowRefuses s p false with
      | some e => nak p e s
      | none =>
        let w := windowOf s p.window
        let s := wakeDie w.dieIx s
        if windowPoisoned s w then nak p 0x0107 s
        else
          let o := w.base + p.offset.toNat
          answer p 3 0 (if w.store then storeBytes s w.dieIx w.handle o p.length else handleBytes s w.dieIx w.handle o p.length) s)

/-- FLAG_SET: the first FLAG_SET at the owner is checked, sets the remote flag of the window's die, and is acknowledged (R366,
R370). -/
def execFlagSet (s : State) : Result :=
  ok (match takeArrived (fun x => x.2.ptype == 6) s with
    | none => s
    | some ((_, p), s) =>
      match windowRefuses s p false with
      | some e => nak p e s
      | none =>
        let d := (windowOf s p.window).dieIx
        answer p 4 0 [] (wakeDie d (signalFlag d p.offset.toNat s)))

/-! ### Epochs (R359 to R362) -/

/-- The pending epoch may be switched to at the coming boundary (R359). -/
def switchDue (s : State) : Bool :=
  s.fabric.retained.isNone && s.fabric.pendEpoch == s.fabric.epoch + 1 &&
  s.fabric.switchAt == (s.hearth.boundaries + 1) % 2 ^ 32

/-- The pending epoch, membership and routing table become current, the old epoch is retained, the loss list is cleared, and held
packets of the new epoch are released (R359 to R361); held share traffic is taken by `switchNow`. -/
def switchEpoch (s : State) : State :=
  let held := allPorts.flatMap fun n => (portOf s n).holdBuf.filterMap fun x => match x with | .packet p => some (n, p) | _ => none
  { s with
    ports := s.ports.map fun p => { p with holdBuf := [] }
    fabric := { s.fabric with
      retained := some (s.fabric.epoch, s.fabric.members), epoch := s.fabric.pendEpoch, members := s.fabric.pendMembers
      routes := s.fabric.pendRoutes, losses := [], pendEpoch := 0, pendMembers := [], pendRoutes := [], switchAt := 0
      arrived := s.fabric.arrived ++ held } }

/-- EPOCH_RETIRE (R360): once no admitted job of the retained epoch remains, the windows still open under it are closed as WIN_CLOSE
would; when all of them have closed, the epoch retires. -/
def execEpochRetire (s : State) : Result :=
  ok (match s.fabric.retained with
    | none => s
    | some (e, _) =>
      if s.jobs.any (fun j => j.phase == .admitted && j.epoch == e) then s
      else
        match (s.fabric.windows.filter fun w => w.2.opened && w.2.epoch == e % 2 ^ 16).map (·.1) with
        | [] => { s with fabric := { s.fabric with retained := none } }
        | ws => closeAll ws s)

end Sys2Proof.Machine
end

