-- ==== Sys2Proof/Machine/Scratch.lean ====
section
/-! DEFINITION. Scratchpad and store allocation, prefetch rings and HSTAT (R225 to R230, R242, R243, R250, R251). -/

namespace Sys2Proof.Machine

/-! ### HSTAT (R227) -/

/-- Bytes 0x00 to 0x07 of a handle-table entry as a word (R225). -/
def handleLow (e : Handle) : Nat := e.base + e.rows * 2 ^ 32
/-- Bytes 0x08 to 0x0F (R225). -/
def handleHigh (e : Handle) : Nat :=
  b2n e.valid + 2 * b2n e.isSecret + 4 * b2n e.poisoned + 8 * b2n e.ring + e.poisonEvent.toNat * 2 ^ 16

/-- HSTAT: the entry to two scalar registers. -/
def execHstat (at_ : Site) (index sca scb : Nat) (s : State) : Result :=
  ok (runInstr at_ (.hstat at_ index sca scb) (fun _ s =>
    if scalarBusy s at_.die [sca, scb] then .wait .scalar []
    else
      let e := handleOf s at_.die index
      .done (putScalar at_.die scb (handleHigh e) (putScalar at_.die sca (handleLow e) s))) s)

/-! ### ALLOC and FREE (R228, R229) -/

/-- Two row runs overlap. -/
def runsMeet (a n b m : Nat) : Bool := decide (a < b + m ∧ b < a + n)

/-- What ascending runs leave free from `at_` up to `total`: first row and rows. -/
def gapsFrom (total : Nat) : Nat → List (Nat × Nat) → List (Nat × Nat)
  | at_, [] => if at_ < total then [(at_, total - at_)] else []
  | at_, r :: t => (if at_ < Nat.min r.1 total then [(at_, Nat.min r.1 total - at_)] else []) ++ gapsFrom total (Nat.max at_ (r.1 + r.2)) t

/-- What runs leave free below `total`. -/
def gapsOf (total : Nat) (l : List (Nat × Nat)) : List (Nat × Nat) := gapsFrom total 0 (l.insertionSort fun a b => a.1 ≤ b.1)

/-- Take `n` rows that lie together, the lowest there are. -/
def takeRun (n : Nat) : List (Nat × Nat) → Option (Nat × List (Nat × Nat))
  | [] => none
  | g :: t =>
    if n ≤ g.2 then some (g.1, (g.1 + n, g.2 - n) :: t)
    else match takeRun n t with
      | some x => some (x.1, g :: x.2)
      | none => none

/-- The rows that ALLOC names exist: ROWS lies in 1 to 2^20 (R225, R228). -/
def allocFits (base rows : Nat) : Bool := decide (1 ≤ rows ∧ base + rows ≤ 2 ^ 20)

/-- ALLOC succeeds (R228). -/
def allocOk (s : State) (d : DieIx) (index base rows : Nat) : Bool :=
  !(handleOf s d index).valid && allocFits base rows &&
  !((dieOf s d).handles.any fun e => e.2.valid && runsMeet base rows e.2.base e.2.rows) &&
  !((dieOf s d).heldOut.any fun r => decide (base ≤ r ∧ r < base + rows))

/-- ALLOC (R228): it waits for its WRITE entry first (R236, R237); a failure leaves the entry and quenches the job. -/
def execAlloc (at_ : Site) (index base rows : Nat) (secret : Bool) (s : State) : Result :=
  ok (runInstr at_ (.alloc at_ index base rows secret) (fun j s =>
    let d := at_.die
    if !(allocFits base rows) then .done (skipQuench 0x0105 j at_ 0 [] s)
    else withScoreboard d [{ lo := base, hi := base + rows - 1, write := true, op := 0 }] s fun _ s =>
      if !(allocOk s d index base rows) then .done (skipQuench 0x0105 j at_ 0 [] s)
      else .done (updHandle d index (fun _ => { Handle.zero with base := base, rows := rows, valid := true, isSecret := secret }) s)) s)

/-- A transfer in flight still has slots of a ring to fill (R243). -/
def fillsRing (d : DieIx) (r : Nat) (o : Op) : Bool :=
  match o.xfer with
  | some x => x.dst.space == 2 && x.dst.dieIx == d && x.dst.handle == r && (x.todo.isSome || !x.plans.isEmpty)
  | none => false

/-- A transfer in flight fails on a ring that is gone: skipped and logged with 0x0104, what it holds of other rings released (R230,
R243). -/
def loseRing (d : DieIx) (o : Op) (s : State) : State :=
  let s := o.takes.foldl (fun s t => releaseSlot d t.1 t.2 s) s
  let s := match jobOf s o.job with
    | some j => skipInstr 0x0104 j { die := d, queue := o.queue, off := o.off } o.unit o.dests s
    | none => s
  dropOp d o.id s

/-- Deactivate a ring: its context to reset values, RING cleared in its handle, claims in flight dropped. Held instructions that
wait on it and transfers that still have slots of it to fill fail with 0x0104 (R243). -/
def dropRing (d : DieIx) (r : Nat) (s : State) : State :=
  let g := ringOf s d r
  if g.active then
    let s := updHandle d g.handle (fun e => { e with ring := false }) s
    let s := { s with held := s.held.map fun h => if h.at_.die == d && (h.wait == .ring r true || h.wait == .ring r false)
                                                  then { h with ringGone := true } else h }
    let s := updDie d (fun x => { x with
      rings := tblDel x.rings r
      ops := x.ops.map fun o => { o with fills := o.fills.filter (·.1 != r), takes := o.takes.filter (·.1 != r) } }) s
    ((dieOf s d).ops.filter (fillsRing d r)).foldl (fun s o => loseRing d o s) s
  else s

/-- FREE's effect: secrets zeroised, rings of the handle deactivated, the entry at its reset values (R229, R243). -/
def freeHandle (d : DieIx) (index : Nat) (s : State) : State :=
  let s := if (handleOf s d index).isSecret then zeroHandle d index s else s
  let rs := ((dieOf s d).rings.filter fun g => g.2.active && g.2.handle == index).map (·.1)
  let s := rs.foldl (fun s r => dropRing d r s) s
  updDie d (fun x => { x with handles := tblDel x.handles index }) s

/-- FREE (R229); a window that the handle backs is closed first (R365). -/
def execFree (at_ : Site) (index : Nat) (s : State) : Result :=
  ok (runInstr at_ (.free at_ index) (fun j s =>
    let d := at_.die
    let e := handleOf s d index
    if !e.valid then .done (skipQuench 0x0104 j at_ 0 [] s)
    else if (windowsOn s d false index) ≠ [] then .waitWith .scoreboard [handleRange s d index 0 e.rows true] (closeAll (windowsOn s d false index) s)
    else withScoreboard d [handleRange s d index 0 e.rows true] s fun _ s => .done (freeHandle d index s)) s)

/-! ### RING_INIT and RING_FREE (R243) -/

/-- RING_INIT succeeds (R243). -/
def ringInitOk (s : State) (d : DieIx) (ring handle slots slotRows : Nat) : Bool :=
  let e := handleOf s d handle
  !(ringOf s d ring).active && e.valid && !e.isSecret && !e.ring && decide (3 ≤ slots ∧ slots ≤ 8 ∧ slots * slotRows ≤ e.rows)

/-- RING_INIT (R243). -/
def execRingInit (at_ : Site) (ring handle slots slotRows : Nat) (s : State) : Result :=
  ok (runInstr at_ (.ringInit at_ ring handle slots slotRows) (fun j s =>
    let d := at_.die
    if !(ringInitOk s d ring handle slots slotRows) then .done (skipQuench 0x0105 j at_ 0 [] s)
    else .done (updHandle d handle (fun e => { e with ring := true })
      (updRing d ring (fun _ => { Ring.zero with handle := handle, slots := slots, active := true, slotRows := slotRows }) s))) s)

/-- RING_FREE (R243). -/
def execRingFree (at_ : Site) (ring : Nat) (s : State) : Result :=
  ok (runInstr at_ (.ringFree at_ ring) (fun _ s => .done (dropRing at_.die ring s)) s)

/-! ### SALLOC and SFREE (R251) -/

/-- The runs that key-set copies and imports of a partition hold on die `d`. -/
def partRuns (t : Partition) (d : DieIx) : List (Nat × Nat) :=
  t.keysets.flatMap (fun k => (k.2.rows.filter fun r => r.1 == d.val).map fun r => (r.2.2.2, r.2.2.1)) ++
  t.imports.flatMap fun m => (m.placed.filter fun r => r.1 == d.val).map fun r => (r.2.2.2, r.2.2.1)

/-- The stack rows that key sets, imports and mirrored rows hold on die `d`: runs of first row and count (R84, R89, R100). -/
def keyRuns (s : State) (d : DieIx) : List (Nat × Nat) :=
  (allParts.flatMap fun p => partRuns (partOfIx s p) d) ++
  s.twin.mirrors.flatMap fun m => (m.placed.filter fun r => r.1 == d.val).map fun r => (r.2.2.2, r.2.2.1)

/-- SALLOC succeeds (R228, R251); ROWS lies in 1 to 25,165,824 (R250). -/
def sallocOk (s : State) (d : DieIx) (index base rows : Nat) : Bool :=
  !(storeOf s d index).valid && decide (1 ≤ rows ∧ base + rows ≤ 25165824) &&
  !((dieOf s d).storeHandles.any fun e => e.2.valid && runsMeet base rows e.2.base e.2.rows) &&
  !((dieOf s d).heldOutStore.any fun r => decide (base ≤ r ∧ r < base + rows)) &&
  !((keyRuns s d).any fun r => runsMeet base rows r.1 r.2)

/-- SALLOC (R251). -/
def execSalloc (at_ : Site) (index base rows : Nat) (s : State) : Result :=
  ok (runInstr at_ (.salloc at_ index base rows) (fun j s =>
    let d := at_.die
    if !(sallocOk s d index base rows) then .done (skipQuench 0x0105 j at_ 0 [] s)
    else .done (updStore d index (fun _ => { StoreHandle.zero with base := base, rows := rows, valid := true }) s)) s)

/-- A transfer in flight of a partition's dies reads or writes a store handle (R251). -/
def storeBusy (s : State) (d : DieIx) (index : Nat) : Bool :=
  s.dies.any fun x => x.ops.any fun o => (o.dests ++ o.srcs).contains (.store d index)

/-- Clear VALID in every aperture control register of a function that names a store handle of its slot-0 partition (R391). -/
def dropAperture (p : PartIx) (d : DieIx) (index : Nat) (s : State) : State :=
  let pt := partOfIx s p
  let hits (v : Nat) : Bool := bitOf v 31 && bitsOf v 0 4 == d.val && bitsOf v 8 10 == index
  if pt.memberSlot = 0 then
    updHost pt.ownerPort (fun h => { h with
      apertures := h.apertures.map fun a => if a.1 = pt.ownerFn && hits a.2 then (a.1, a.2 - 2 ^ 31) else a }) s
  else s

/-- SFREE (R251, R365, R391): the aperture that names the store handle first loses VALID; windows on it are closed, and it waits for
the handle's transfers. -/
def execSfree (at_ : Site) (index : Nat) (s : State) : Result :=
  ok (runInstr at_ (.sfree at_ index) (fun j s =>
    let d := at_.die
    if !(storeOf s d index).valid then .done (skipQuench 0x0104 j at_ 0 [] s)
    else
      let s := dropAperture j.part d index s
      if (windowsOn s d true index) ≠ [] then .waitWith .scoreboard [] (closeAll (windowsOn s d true index) s)
      else if storeBusy s d index then .waitWith .scoreboard [] s
      else .done (updDie d (fun x => { x with storeHandles := tblDel x.storeHandles index }) s)) s)

end Sys2Proof.Machine
end

