-- ==== Sys2Proof/Machine/Tongs.lean ====
section
/-! DEFINITION. What the tongs share (R249 to R278): pairing of elements, plans of a transfer, delivery to each space, ingest,
requests to other parts, and failure. -/

namespace Sys2Proof.Machine

/-! ### Pairing (R253, R261 to R263, R265, R266, R268) -/

/-- Extent of a dimension inside its padding (R263). -/
def Desc.boxDim (t : Desc) (d : Nat) : Nat := t.dim d - t.padLo.getD d 0 - t.padHi.getD d 0
/-- Elements inside the padding. -/
def Desc.boxElems (t : Desc) : Nat := ((List.range t.rank).map t.boxDim).foldl (· * ·) 1
/-- A position lies inside the padding. -/
def Desc.inBox (t : Desc) (ix : List Nat) : Bool :=
  ix.zipIdx.all fun i => decide (t.padLo.getD i.2 0 ≤ i.1 ∧ i.1 < t.dim i.2 - t.padHi.getD i.2 0)
/-- A position relative to the box. -/
def Desc.boxIx (t : Desc) (ix : List Nat) : List Nat := ix.zipIdx.map fun i => i.1 - t.padLo.getD i.2 0
/-- The linear position in the box, dimension 0 fastest. -/
def Desc.boxLin (t : Desc) (b : List Nat) : Nat := (b.zipIdx.foldr (fun i a => i.1 + t.boxDim i.2 * a) 0)

/-- What a destination position of a transfer receives: FILL of its own descriptor (R263), the source's FILL where no slab is
selected (R266), or the source element at a position, with the number of the read that serves it (R267). -/
inductive Fetch where
  | pad
  | missing
  | elem (read : Nat) (ix : List Nat)
  deriving DecidableEq, Repr

/-- Destination positions with what they receive. -/
abbrev Pairs := List (List Nat × Fetch)

/-- Swap dimensions 0 and 1 (R261). -/
def swap01 : List Nat → List Nat
  | a :: b :: t => b :: a :: t
  | l => l

/-- The pairs of a MOVE into one destination or slot; `outer` is the slot's index in the source's outermost dimension. -/
def movePairs (src dst : Desc) (outer : List Nat) : Pairs :=
  let inner := { src with rank := src.rank - outer.length }
  (List.range dst.elems).filterMap fun n =>
    let ix := dst.tuple n
    if dst.inBox ix then
      let b := dst.boxIx ix
      some (ix, .elem 0 ((if dst.transpose then swap01 b else inner.tuple (dst.boxLin b)) ++ outer))
    else if dst.padSkip then none else some (ix, .pad)

/-- Resolve an index against a size (R266). -/
def resolveIndex (wrap : Bool) (n : Nat) (v : Int) : Option Nat :=
  if 0 ≤ v ∧ v < n then some v.toNat
  else if wrap && decide (-(n : Int) ≤ v ∧ v ≤ -1) then some (n + v).toNat else none

/-- Resolve an index of a transfer against the size along INDEX_DIM inside the padding (R263, R266; a destination's slabs are
those of its box, log 37). -/
def Desc.slab (t : Desc) (v : Int) : Option Nat := resolveIndex t.wrap (t.boxDim t.indexDim) v

/-- Out-of-range indices of a list. -/
def badIndexes (t : Desc) (xs : List Int) : Nat := xs.countP fun v => (t.slab v).isNone

/-- The read that serves each index: up to 64 consecutive equal ones share a read (R267). -/
def readGroups (next run : Nat) (last : Option Int) : List Int → List Nat
  | [] => []
  | v :: t => if last = some v ∧ run < 64 then (next - 1) :: readGroups next (run + 1) last t else next :: readGroups (next + 1) 1 (some v) t

/-- The pairs of a GATHER (R265, R266). -/
def gatherPairs (src dst : Desc) (idx : List Int) : Pairs :=
  let gs := readGroups 0 0 none idx
  (List.range dst.elems).filterMap fun n =>
    let ix := dst.tuple n
    if dst.inBox ix then
      let b := dst.boxIx ix
      let j := b.getD src.indexDim 0
      some (ix, match src.slab (idx.getD j 0) with | some v => .elem (gs.getD j 0) (b.set src.indexDim v) | none => .missing)
    else if dst.padSkip then none else some (ix, .pad)

/-- The pairs of a SCATTER, slabs dropped where the index is out of range (R266, R268). -/
def scatterPairs (src dst : Desc) (idx : List Int) : Pairs :=
  (List.range src.elems).filterMap fun n =>
    let ix := src.tuple n
    (dst.slab (idx.getD (ix.getD dst.indexDim 0) 0)).map fun v =>
      ((ix.set dst.indexDim v).zipIdx.map (fun i => i.1 + dst.padLo.getD i.2 0), .elem 0 ix)

/-- FILL in the descriptor's encoding (R252). -/
def Desc.fillCode (t : Desc) : Nat :=
  if t.kind = 2 && t.wordBytes == 3 then (if t.signed then ofSigned 64 (toSigned 32 t.fill) else t.fill) else t.fill % 2 ^ t.bits

/-! ### Plans -/

/-- Bits of a byte memory as a number. -/
def bitsFrom (m : Mem) (bit n : Nat) : Nat := leNat (memBytes m (bit / 8) ((n + bit % 8 + 7) / 8)) / 2 ^ (bit % 8) % 2 ^ n

/-- The element `k` of host bytes in pairing order. -/
def hostElem (bits k : Nat) (host : List Byte) : Nat :=
  if bits = 4 then fieldAt host (k / 2) 1 / (if k % 2 = 0 then 1 else 16) % 16 else fieldAt host (k * (bits / 8)) (bits / 8)

/-- The place of an index tuple in linear order, dimension 0 fastest (R253). -/
def Desc.lin (t : Desc) (ix : List Nat) : Nat := ix.zipIdx.foldr (fun i a => i.1 + t.dim i.2 * a) 0

/-- Where the element at a source position comes from: a remote one through read `r` of its window; `slot` is the row of a ring
slot. -/
def srcCell (s : State) (src : Desc) (slot : Nat) (host : List Byte) (r : Nat) (ix : List Nat) : Cell :=
  match src.space with
  | 3 => .far r (8 * src.offset + src.bits * (src.off ix).toNat)
  | 4 => .known (hostElem src.bits (src.lin ix) host)
  | _ => (let (m, b) := Desc.mem s src slot src.handle; .known (readElem m b src (src.off ix)))

/-- Where the scale byte of a source position comes from; in host bytes the scales stand after the elements. -/
def scaleCell (s : State) (src : Desc) (slot : Nat) (host : List Byte) (r : Nat) (ix : List Nat) : Cell :=
  let i := src.scaleIx ix
  if !src.scales then .known 127
  else match src.space with
  | 3 => .far r (8 * (src.scaleOffset + i))
  | 4 => .known (fieldAt host (ceilDiv (src.elems * src.bits) 8 + i) 1)
  | _ => .known (readScale s src slot i)

/-- Drop entries whose key is that of the entry before. -/
def dedupFrom {α : Type} (k : Nat) : List (Nat × α) → List (Nat × α)
  | [] => []
  | a :: t => if a.1 = k then dedupFrom k t else a :: dedupFrom a.1 t

/-- Keep the first of adjacent entries with one key. -/
def dedupAdj {α : Type} : List (Nat × α) → List (Nat × α)
  | [] => []
  | a :: t => a :: dedupFrom a.1 t

/-- The plan of pairs. -/
def planOf (s : State) (src dst : Desc) (slot : Nat) (host : List Byte) (ps : Pairs) : Plan :=
  { cells := ps.map fun x => (dst.off x.1, match x.2 with
      | .elem r ix => srcCell s src slot host r ix
      | .pad => .known dst.fillCode
      | .missing => .known src.fillCode)
    pads := []
    scales := if dst.scales then dedupAdj (ps.filterMap fun x => match x.2 with
        | .elem r ix => some (dst.scaleIx x.1, scaleCell s src slot host r ix)
        | _ => none) else [] }

/-- The padding that a SCATTER stores: FILL at every position outside the box under PAD_MODE WRITE (R263). -/
def scatterPads (dst : Desc) : List (Int × Nat) :=
  if dst.padSkip then []
  else (List.range dst.elems).filterMap fun n => if dst.inBox (dst.tuple n) then none else some (dst.off (dst.tuple n), dst.fillCode)

/-- A cell's code once READ_DATA has come. -/
def Cell.code (bufs : Tbl Mem) (bits : Nat) : Cell → Nat
  | .known v => v
  | .far p b => bitsFrom (tblGetD bufs p []) b bits

/-- The elements of a plan. -/
def Plan.elems (bufs : Tbl Mem) (bits : Nat) (p : Plan) : List (Int × Nat) := p.cells.map fun c => (c.1, c.2.code bufs bits)
/-- The scale bytes of a plan. -/
def Plan.bytes (bufs : Tbl Mem) (p : Plan) : List (Nat × Nat) := p.scales.map fun c => (c.1, c.2.code bufs 8)

/-! ### Byte runs -/

/-- Merge writes that follow one another. -/
def mergeRuns : List (Nat × List Byte) → List (Nat × List Byte)
  | [] => []
  | (a, bs) :: t => match mergeRuns t with
    | [] => [(a, bs)]
    | (b, cs) :: u => if a + bs.length = b then (a, bs ++ cs) :: u else (a, bs) :: (b, cs) :: u

/-- The byte of two 4-bit elements at one address; where the transfer writes one half only, the other half is free (R263, log
37). -/
def nibbleByte (draw a : Nat) (lo hi : Option Nat) : Byte :=
  let h (k : Nat) (v : Option Nat) : Nat := match v with | some v => v % 16 | none => Config.freeValue draw (2 * a + k) % 16
  BitVec.ofNat 8 (h 0 lo + 16 * h 1 hi)

/-- The byte write of one 4-bit element alone, by nibble number. -/
def nibbleAlone (draw : Nat) (x : Nat × Nat) : Nat × List Byte :=
  (x.1 / 2, [if x.1 % 2 = 0 then nibbleByte draw (x.1 / 2) (some x.2) none else nibbleByte draw (x.1 / 2) none (some x.2)])

/-- The byte writes of 4-bit elements, numbered by nibble: the two halves of a byte go together where they follow each other
(R167, R256). -/
def nibbleWrites (draw : Nat) : List (Nat × Nat) → List (Nat × List Byte)
  | [] => []
  | [x] => [nibbleAlone draw x]
  | x :: y :: u =>
    if x.1 % 2 = 0 && y.1 = x.1 + 1 then (x.1 / 2, [nibbleByte draw (x.1 / 2) (some x.2) (some y.2)]) :: nibbleWrites draw u
    else nibbleAlone draw x :: nibbleWrites draw (y :: u)

/-- The byte writes of elements at a byte origin. -/
def elemWrites (draw : Nat) (t : Desc) (xs : List (Int × Nat)) : List (Nat × List Byte) :=
  if t.bits = 4 then nibbleWrites draw (xs.map fun x => (2 * (t.offset : Int) + x.1 |>.toNat, x.2))
  else xs.map fun x => ((t.offset : Int) + x.1 * (t.bits / 8 : Nat) |>.toNat, leBytes (t.bits / 8) x.2)

/-- Everything that a plan writes into a HOST or WINDOW space. -/
def planWrites (draw : Nat) (t : Desc) (bufs : Tbl Mem) (p : Plan) : List (Nat × List Byte) :=
  elemWrites draw t (p.elems bufs t.bits) ++ (p.bytes bufs).map fun x => (t.scaleOffset + x.1, leBytes 1 x.2)

/-- The byte intervals of far cells: piece, first byte, one past the last. -/
def farBytes (bits : Nat) (p : Plan) : List (Nat × Nat × Nat) :=
  p.cells.filterMap (fun c => match c.2 with | .far i b => some (i, b / 8, (b + bits + 7) / 8) | _ => none) ++
  p.scales.filterMap fun c => match c.2 with | .far i b => some (i, b / 8, b / 8 + 1) | _ => none

/-- Insert an interval into a sorted list. -/
def insertRun (x : Nat × Nat × Nat) : List (Nat × Nat × Nat) → List (Nat × Nat × Nat)
  | [] => [x]
  | y :: t => if x.1 < y.1 || (x.1 = y.1 && x.2.1 ≤ y.2.1) then x :: y :: t else y :: insertRun x t

/-- Join intervals that touch. -/
def joinRuns : List (Nat × Nat × Nat) → List (Nat × Nat × Nat)
  | [] => []
  | x :: t => match joinRuns t with
    | [] => [x]
    | y :: u => if x.1 = y.1 ∧ y.2.1 ≤ x.2.2 then (x.1, x.2.1, Nat.max x.2.2 y.2.2) :: u else x :: y :: u

/-- Each distinct byte of far cells once, as runs (R262). -/
def readRuns (bits : Nat) (ps : List Plan) : List (Nat × Nat × Nat) :=
  joinRuns ((joinRuns (ps.flatMap (farBytes bits))).foldl (fun l x => insertRun x l) [])

/-- The window that a descriptor names. -/
def Desc.piece (t : Desc) : Piece := { part := t.part, window := t.window, wgen := t.wgen }

/-! ### Requests to other parts (R352, R357, R369, R370) -/

/-- The members of an epoch that the part holds. -/
def epochMembers (s : State) (e : Nat) : List Nat :=
  if e = s.fabric.epoch then s.fabric.members
  else match s.fabric.retained with
    | some r => if r.1 = e then r.2 else []
    | none => []

/-- A transfer of a job to a part is refused at issue (R362, R363). -/
def partRefused (s : State) (j : Job) (part : Nat) : Verdict :=
  if !((epochMembers s j.epoch).contains part) then .refuse 0x0506 0x0506
  else failIf (j.epoch == s.fabric.epoch && s.fabric.losses.contains part) (.refuse 0x0503 0x0503)

/-- Send a request of operation `op` of a job and await its answer. -/
def sendReq (d : DieIx) (j : Job) (op : Nat) (kind : ReqKind) (piece : Nat) (w : Piece) (off len : Nat) (data : List Byte) (s : State) : State :=
  let tag := s.nextId % 2 ^ 32
  let s := { s with
    nextId := s.nextId + 1
    fabric := { s.fabric with requests := s.fabric.requests ++
      [{ tag := tag, die := d, op := op, dstPart := w.part, kind := kind, piece := piece, off := off, len := len }] } }
  originate d { packetZero with
    ptype := match kind with | .write => 1 | .read => 2 | .flag => 6
    dstPart := w.part, epoch := j.epoch % 2 ^ 16, fpkey := (partOfIx s j.part).fabricKey, window := w.window, length := len
    wgen := BitVec.ofNat 32 w.wgen, rtag := BitVec.ofNat 32 tag, offset := BitVec.ofNat 64 off, data := data } s

/-- Send writes as WRITE packets of at most 4,096 bytes (R352). -/
def sendWrites (d : DieIx) (j : Job) (op piece : Nat) (w : Piece) (ws : List (Nat × List Byte)) (s : State) : State :=
  (mergeRuns ws).foldl (fun s r => (chunks 4096 r.2).zipIdx.foldl (fun s c =>
    sendReq d j op .write piece w (r.1 + 4096 * c.2) c.1.length c.1 s) s) s

/-- Send the read requests of plans. -/
def sendReads (d : DieIx) (j : Job) (op bits : Nat) (pieces : List Piece) (ps : List Plan) (s : State) : State :=
  (readRuns bits ps).foldl (fun s r => match pieces[r.1]? with
    | none => s
    | some w => (List.range (ceilDiv (r.2.2 - r.2.1) 4096)).foldl (fun s i =>
        let o := r.2.1 + 4096 * i
        sendReq d j op .read r.1 w o (Nat.min 4096 (r.2.2 - o)) [] s) s) s

/-- Requests of an operation of a kind that are unanswered. -/
def reqsOf (s : State) (d : DieIx) (op : Nat) (k : ReqKind) : List Request :=
  s.fabric.requests.filter fun r => r.die == d && r.op == op && r.kind == k

/-! ### Delivery -/

/-- Change an operation in flight. -/
def updOp (d : DieIx) (id : Nat) (f : Op → Op) (s : State) : State :=
  updDie d (fun x => { x with ops := x.ops.map fun o => if o.id = id then f o else o }) s
/-- The operation in flight with an identifier. -/
def opOf (s : State) (d : DieIx) (id : Nat) : Option Op := (dieOf s d).ops.find? fun o => o.id == id

/-- One addition of SCATTER ADD (R268). -/
def addCode (t : Desc) (old v : Nat) : Nat :=
  if t.kind = 2 then (old + v) % 2 ^ t.bits
  else if t.ety.kind = .bf16 then fmtB16.plusZero (fmtB16.round (f32 (fadd (old * 65536) (v * 65536))))
  else fmt32.plusZero (fadd old v)

/-- Add elements to a destination in order (R268). -/
def addElems (t : Desc) (xs : List (Int × Nat)) (s : State) : State :=
  let b := (Desc.mem s t 0 t.handle).2
  updSpace t (fun m => xs.foldl (fun m x => writeElem m b t x.1 (addCode t (readElem m b t x.1) x.2)) m) s

/-- Set POISONED in the header row of an object, with a fresh HEADER_CHECK (R51, R64). -/
def poisonRow (row : Nat) : Nat :=
  let b := leBytes 288 row
  leNat (headerBytes { headerOfBytes (bytesAt b 0 64) with poisoned := true } ++ bytesAt b 64 224)

/-- An object brought in from outside is whole at its header: check, tag, reserved fields and bytes (R49, R51, R54). -/
def objIntact (bs : List Byte) : Bool :=
  let h := headerOfBytes (bytesAt bs 0 64)
  headerSound (bytesAt bs 0 64) && (h.formatTag == 0xC701 || h.formatTag == 0xC711) && allZero (bytesAt bs 64 224) &&
  (!h.seeded || allZero (bytesAt bs ((seededRows h - 1) * 288 + 32) 256))

/-- The bytes of an object's rows in a plan. -/
def planObject (x : Xfer) (pl : Plan) : List Byte := (pl.elems x.bufs x.dst.bits).flatMap fun e => leBytes 288 e.2

/-- Write a plan's elements into a space of this part; none where an object fails its checks (R51, R269). -/
def applyPlan (p : PartIx) (t : Desc) (slot : Nat) (x : Xfer) (pl : Plan) (s : State) : Option State :=
  let xs := pl.elems x.bufs t.bits
  let carry (s : State) : State := match x.carry with | some e => poisonAll e t.dests s | none => s
  if t.kind = 0 && t.space != 1 then
    let pt := partOfIx s p
    match ingest s.fuses.primes pt.chains pt.sessions (planObject x pl) with
    | none => none
    | some g =>
      if g.storedRows ≠ xs.length || g.rows.length ≠ t.dim 0 then none
      else
        let s := writeElems t slot (g.rows.zipIdx.map fun r => ((r.2 : Int), leNat r.1)) s
        let s := carry s
        some (if g.header.poisoned then poisonAll 0x0107 t.dests s else s)
  else if t.kind = 0 && decide (3 ≤ x.srcSpace) && !(objIntact (planObject x pl)) then none
  else if t.kind = 0 && x.carry.isSome then
    some (carry (writeElems t slot (xs.zipIdx.map fun e => (e.1.1, if e.2 = 0 then poisonRow e.1.2 else e.1.2)) s))
  else
    let s := writeElems t slot pl.pads s
    if x.add then some (carry (addElems t xs s))
    else some (carry (writeScales t slot (pl.bytes x.bufs) (writeElems t slot xs s)))

/-- Ingest fails (R52, R269): no limb is written, the destination is poisoned, the rings in which the transfer holds slots are
reset, the event logged, the job quenched. -/
def ingestFail (d : DieIx) (o : Op) (s : State) : State :=
  let s := dropOp d o.id (dropClaims d 0x0102 o s)
  failOp d o 6 0x0102 (poisonAll 0x0102 o.dests s)

/-- Bytes of a job's source for its INPUT list, in pairing order (R441). -/
def inputBytes (bits : Nat) (x : Xfer) : List Byte :=
  let cs := x.plans.flatMap fun p => p.cells.filterMap fun c => match c.2 with | .far .. => some (c.2.code x.bufs bits) | _ => none
  if bits = 4 then (chunks 2 cs).flatMap fun c => leBytes 1 (c.getD 0 0 + 16 * c.getD 1 0) else cs.flatMap fun c => leBytes (bits / 8) c

/-- Fill the INPUT place of a transfer whose source bytes have arrived (R441). -/
def fillHall (d : DieIx) (o : Op) (x : Xfer) (s : State) : State :=
  match x.hall with
  | some i =>
    let dg := chunkDigest (inputBytes x.dst.bits x)
    updOp d o.id (fun o => { o with xfer := o.xfer.map fun x => { x with hall := none } })
      (updJob o.job (fun j => { j with inputs := j.inputs.modify i fun h => { h with digest := dg } }) s)
  | none => s

/-! ### Host memory (R271, R272) -/

/-- The page of a host address: 4,096 bytes (R273's worked example). -/
def hostPage (a : Nat) : Nat := a / 4096

/-- Pages of byte runs, each once. -/
def pagesOf (rs : List (Nat × Nat)) : List Nat :=
  (rs.flatMap fun r => (List.range (hostPage (r.1 + r.2 - 1) - hostPage r.1 + 1)).map (hostPage r.1 + ·)).eraseDups

/-- Request the translations that the port's cache lacks, where ATS is enabled; the cache holds 4,096 (R271, R381). -/
def requestPages (h : HostId) (fn : Nat) (pages : List Nat) (s : State) : State :=
  if (hostOf s h).ats.contains fn then
    pages.foldl (fun s g =>
      if (hostOf s h).cached.contains (fn, g) then s
      else emit (.translationRequest h fn g)
        (updHost h (fun p => { p with cached := p.cached.drop (p.cached.length - 4095) ++ [(fn, g)] }) s)) s
  else s

/-- Emit host writes `i` to `k` of a transfer, joined into runs, once their pages have translations; relaxed ordering as the
function's Device Control has it, translated where ATS is enabled (R271, R272, R394). A bench member's writes go to its
gateway and await its acknowledgement (R399). -/
def emitHost (d : DieIx) (o : Op) (x : Xfer) (i k : Nat) (s : State) : State :=
  match x.host, jobOf s o.job with
  | some (h, fn), some j =>
    (mergeRuns ((x.hostWrites.take k).drop i)).foldl (fun s r =>
      match gatewayOf s j.part with
      | none =>
        emit (.hostWrite h fn r.1 r.2 ((hostOf s h).relaxed.contains fn) ((hostOf s h).ats.contains fn))
          (requestPages h fn (pagesOf [(r.1, r.2.length)]) s)
      | some (gw, reg) =>
        let tag := s.nextId % 2 ^ 32
        sendMsg .bench d gw 0 (fun v => .forwardedWrite v
          { reg := reg, die := d, queue := o.queue, addr := BitVec.ofNat 64 r.1, bytes := r.2, kind := .data, tag := BitVec.ofNat 32 tag })
          { s with nextId := s.nextId + 1, fabric := { s.fabric with requests := s.fabric.requests ++
              [{ tag := tag, die := d, op := o.id, dstPart := gw, kind := .write, piece := 0, off := 0, len := 0 }] } }) s
  | _, _ => s

/-! ### Planning (R258, R259, R265 to R268) -/

/-- Slots that a MOVE into a ring fills: the source's outermost dimension where it has one more (R258). -/
def slotCount (src dst : Desc) : Nat := if dst.space = 2 && src.rank = dst.rank + 1 then src.dim (src.rank - 1) else 1

/-- The plans of a MOVE, one for each slot. -/
def movePlans (s : State) (src dst : Desc) (host : List Byte) (slot : Nat) : List Plan :=
  if src.kind = 0 then
    let t := { dst with rank := 1, size := src.size, padLo := [], padHi := [] }
    [planOf s src t slot host (movePairs src t [])]
  else if src.rank = dst.rank + 1 && dst.space = 2 then
    (List.range (slotCount src dst)).map fun i => planOf s src dst slot host (movePairs src dst [i])
  else [planOf s src dst slot host (movePairs src dst [])]

/-- Merge the work of several tongs in an order that nothing fixes (R268, log 6): each tong keeps its own order. -/
def mergeFree {α : Type} : Nat → Nat → List (List α) → List α
  | 0, _, _ => []
  | f + 1, k, ls =>
    match ls.filter (fun l => !l.isEmpty) with
    | [] => []
    | ms =>
      let i := Config.freeValue k f % ms.length
      match ms.getD i [] with
      | [] => []
      | x :: _ => x :: mergeFree f k (ms.modify i (·.drop 1))

/-- Deal slabs round-robin among `m` tongs. -/
def dealSlabs {α : Type} (m : Nat) (l : List α) : List (List α) :=
  (List.range m).map fun i => (l.zipIdx.filter fun x => x.2 % m == i).map (·.1)

/-- Tongs of a mask. -/
def tongCount (m : BitVec 4) : Nat := ((List.range 4).filter fun k => m.getLsbD k).length

/-- The pairs of a SCATTER in the order in which they land (R259, R268). -/
def scatterOrder (add repro : Bool) (tongs : Nat) (src dst : Desc) (idx : List Int) (draw : Nat) : Pairs :=
  if !add || repro || tongs ≤ 1 then scatterPairs src dst idx
  else
    let outer := src.rank - 1
    let slabs := (List.range (src.dim outer)).map fun k =>
      (scatterPairs src dst idx).filter fun p => match p.2 with | .elem _ ix => ix.getD outer 0 == k | _ => false
    let lists := (dealSlabs tongs slabs).map (·.flatten)
    mergeFree ((lists.map (·.length)).sum) draw lists

/-- The index values of a transfer: from the index list's space, or as its window's READ_DATA has brought them (R265). -/
def indexList (s : State) (q : XferReq) (bufs : Tbl Mem) : List Int :=
  match q.idx with
  | none => []
  | some t => (List.range t.elems).map fun n => toSigned t.bits
      ((srcCell s t q.idxSlot q.idxHost 0 [n]).code bufs t.bits)

/-- The windows that a transfer addresses, in the order in which its plan numbers them: one for each read of its source. -/
def xferPieces (q : XferReq) (idx : List Int) : List Piece :=
  match q.work with
  | .get _ | .put .. => q.pieces
  | .gather => if q.src.space = 3 then List.replicate idx.length q.src.piece else []
  | _ => (if q.src.space = 3 then [q.src.piece] else []) ++ (if q.dst.space = 3 then [q.dst.piece] else [])

/-- The plans of a transfer from what stands in memory now. -/
def makePlans (s : State) (q : XferReq) (idx : List Int) : List Plan :=
  match q.work with
  | .move => movePlans s q.src q.dst q.host q.srcSlot
  | .gather => [planOf s q.src q.dst q.srcSlot [] (gatherPairs q.src q.dst idx)]
  | .scatter repro =>
    [{ planOf s q.src q.dst q.srcSlot q.host (scatterOrder q.add repro (tongCount q.tongs) q.src q.dst idx s.free) with
       pads := scatterPads q.dst }]
  | .get plan => [plan]
  | .put .. => []

/-- DPUT's writes: each block's elements to its owner's window (R378). -/
def putBlocks (d : DieIx) (j : Job) (id : Nat) (q : XferReq) (places blocks : List (Nat × Nat)) (s : State) : State :=
  let (m, o) := Desc.mem s q.src q.srcSlot q.src.handle
  let draw := s.free
  blocks.zipIdx.foldl (fun s k => match q.pieces[k.2]? with
    | none => s
    | some w =>
      let xs := (places.zipIdx.filter fun p => p.1.1 == k.1.1).map fun p =>
        ((p.1.2 : Int), readElem m o q.src (q.src.off (q.src.tuple p.2)))
      sendWrites d j id k.2 w (elemWrites draw { q.src with offset := k.1.2 } xs) s) { s with free := s.free + 1 }

/-- Plan a transfer that its tongs run, once its index list is known: its reads are sent, and out-of-range indices counted
(R258, R265, R266). -/
def planXfer (d : DieIx) (id : Nat) (s : State) : State :=
  match opOf s d id with
  | none => s
  | some o => match o.xfer, jobOf s o.job with
    | some x, some j => match x.todo with
      | none => s
      | some q =>
        if !x.begun || !(reqsOf s d id .read).isEmpty then s
        else
          let put (f : Xfer → Xfer) (s : State) : State := updOp d id (fun o => { o with xfer := o.xfer.map f }) s
          let idx := indexList s q x.bufs
          let ps := makePlans s q idx
          let pieces := xferPieces q idx
          let at_ : Site := { die := d, queue := o.queue, off := o.off }
          let s := put (fun x => { x with todo := none, plans := ps, pieces := pieces, bufs := [] }) { s with free := s.free + 1 }
          match q.work with
          | .put places blocks => putBlocks d j id q places blocks s
          | .gather => countIndexes j at_ 6 (badIndexes q.src idx) (sendReads d j id q.src.bits pieces ps s)
          | .scatter _ => countIndexes j at_ 6 (badIndexes q.dst idx) (sendReads d j id q.src.bits pieces ps s)
          | _ => sendReads d j id q.src.bits pieces ps s
    | _, _ => s

/-! ### Delivery of a plan -/

/-- Claim slot FILL of a ring, where one is free (R244). -/
def claimFill (d : DieIx) (r : Nat) (s : State) : Option (Nat × State) :=
  let g := ringOf s d r
  if g.active && decide (diff32 g.fill g.head < g.slots) then some (g.fill, updRing d r (fun g => { g with fill := inc32 g.fill }) s) else none

/-- The slot that a transfer into a ring fills next: the one that it holds, or a new claim (R244, R258). -/
def nextSlot (d : DieIx) (o : Op) (x : Xfer) (s : State) : Option (Nat × State) :=
  match o.fills with
  | f :: _ => some (f.2, s)
  | [] => (claimFill x.dst.dieIx x.dst.handle s).map fun c =>
      (c.1, updOp d o.id (fun o => { o with fills := [(x.dst.handle, c.1)] }) c.2)

/-- What a plan of an object from another part's window says of leaving the part (R57, R62, R65): poisoned, or degraded. -/
def leavingHeader (x : Xfer) (pl : Plan) : Option Header :=
  if x.dst.kind = 0 && decide (3 ≤ x.srcSpace) then some (headerOfBytes (bytesAt (planObject x pl) 0 64)) else none

/-- Carry a planned transfer as far as it goes now: once its reads have come, its claimed slot is written, its destination
written, its packets sent or its host writes queued (R258, R269, R272, R352). What comes from host memory reaches a
destination other than a ring only when the whole transfer completes (R272). -/
def deliver (d : DieIx) (id : Nat) (s : State) : State :=
  match opOf s d id with
  | none => s
  | some o =>
    match o.xfer, jobOf s o.job with
    | some x, some j =>
      if !x.begun || x.todo.isSome || x.placed || !(reqsOf s d id .read).isEmpty then s
      else
        let s := fillHall d o x s
        match x.plans with
        | [] => s
        | pl :: rest =>
          let put (f : Xfer → Xfer) (s : State) : State := updOp d id (fun o => { o with xfer := o.xfer.map f }) s
          let away (k : State → State) : State :=
            match leavingHeader x pl with
            | none => k s
            | some h =>
              if h.poisoned then failOp d o 6 0x0107 s
              else if h.degraded then dropOp d id (updJob j.id (fun j => { j with refusedDegraded := true }) s)
              else if objIntact (planObject x pl) then k s else ingestFail d o s
          match x.dst.space with
          | 2 => match nextSlot d o x s with
            | none => s
            | some (c, s) => match applyPlan j.part x.dst (slotRow (ringOf s x.dst.dieIx x.dst.handle) c) x pl s with
              | none => ingestFail d o s
              | some s => put (fun x => { x with plans := rest, placed := true }) s
          | 3 => away fun s => match x.pieces.getLast? with
            | some w => put (fun x => { x with plans := rest })
                (sendWrites d j id (x.pieces.length - 1) w (planWrites s.free x.dst x.bufs pl) { s with free := s.free + 1 })
            | none => s
          | 4 => away fun s => put (fun y => { y with plans := rest, hostWrites := planWrites s.free x.dst x.bufs pl }) { s with free := s.free + 1 }
          | _ =>
            if x.srcSpace = 4 then s
            else match applyPlan j.part x.dst 0 x pl s with
              | none => ingestFail d o s
              | some s => put (fun x => { x with plans := rest }) s
    | _, _ => s

/-- Carry a transfer on: plan it, then deliver what it has. -/
def pump (d : DieIx) (id : Nat) (s : State) : State := deliver d id (planXfer d id s)

/-! ### The tongs' queues (R259, R274) -/

/-- No older transfer of the die holds a tong that a transfer needs. -/
def tongFree (s : State) (d : DieIx) (o : Op) : Bool :=
  !((dieOf s d).ops.any fun p => decide (p.id < o.id) && p.xfer.isSome && (p.tongs &&& o.tongs) != 0)

/-- The pages of host memory that a transfer reads. -/
def sourcePages (q : XferReq) : List Nat :=
  let one (t : Desc) : List (Nat × Nat) :=
    if t.space = 4 then t.offs.map fun o => ((t.offset : Int) + o * t.bits / 8 |>.toNat, ceilDiv t.bits 8) else []
  pagesOf (one q.src ++ (match q.idx with | some t => one t | none => []))

/-- The tongs take a transfer up: translations of the pages it reads are requested, a remote index list is read first, and the
transfer goes as far as it can (R259, R265, R271). The dies of its two ends wake (R333). -/
def beginXfer (d : DieIx) (id : Nat) (s : State) : State :=
  match opOf s d id with
  | none => s
  | some o => match o.xfer, jobOf s o.job with
    | some x, some j => match x.todo with
      | none => s
      | some q =>
        let s := match x.host with | some e => requestPages e.1 e.2 (sourcePages q) s | none => s
        let s := ([q.src, q.dst].filter fun t => decide (t.space ≤ 1)).foldl (fun s t => wakeDie t.dieIx s) s
        match q.idx with
        | some t =>
          if t.space = 3 then
            let s := updOp d id (fun o => { o with xfer := o.xfer.map fun x => { x with begun := true, pieces := [t.piece], bufs := [] } }) s
            let cells := (List.range t.elems).map fun (n : Nat) => ((n : Int), srcCell s t 0 [] 0 [n])
            sendReads d j id t.bits [t.piece] [{ cells := cells, pads := [], scales := [] }] s
          else pump d id (updOp d id (fun o => { o with xfer := o.xfer.map fun x => { x with begun := true } }) s)
        | none => pump d id (updOp d id (fun o => { o with xfer := o.xfer.map fun x => { x with begun := true } }) s)
    | _, _ => s

/-- The tongs take up a transfer if they are free for it. -/
def takeUp (d : DieIx) (id : Nat) (s : State) : State :=
  match opOf s d id with
  | some o => if tongFree s d o then beginXfer d id s else s
  | none => s

/-- The tongs of a die take up, in issue order, the transfers that wait and whose tongs are free (R259). -/
def startTongs (d : DieIx) (s : State) : State :=
  ((dieOf s d).ops.filter fun o => match o.xfer with | some x => !x.begun | none => false).foldl (fun s o => takeUp d o.id s) s

end Sys2Proof.Machine
end

