-- ==== Sys2Proof/Machine/TensorEngine.lean ====
section
/-! DEFINITION. The clear tensor engine (R173 to R178, R192 to R196): products, block sums, TMUL. -/

namespace Sys2Proof.Machine

/-! ### Products and block sums -/

/-- The ROM table of LG4 products (R174). -/
def romT4 : List Nat := [524288, 741455]
/-- The ROM table of LG8 products (R174). -/
def romT8 : List Nat := [32768, 35734, 38968, 42495, 46341, 50535, 55109, 60097]

/-- Sign and code of an LG element. -/
def lgParts (k : EKind) (b : Nat) : Bool × Nat := if k = .lg4 then (b / 8 % 2 == 1, b % 8) else (b / 128 % 2 == 1, b % 128)

/-- The product of two LG codes (R172, R174). -/
def lgProduct (ka kb : EKind) (a b : Nat) : FV :=
  let (na, ca) := lgParts ka a
  let (nb, cb) := lgParts kb b
  if ca = 0 || cb = 0 then .fin false 0 0
  else if ka = .lg4 && kb = .lg4 then
    let z : Int := ((ca + cb : Nat) : Int) - 8
    .fin (na != nb) (romT4.getD (z % 2).toNat 0) (z / 2 + 3 - 22)
  else
    let c8 (k : EKind) (c : Nat) := if k = .lg4 then lg4to8 c else c
    let z : Int := ((c8 ka ca + c8 kb cb : Nat) : Int) - 128
    .fin (na != nb) (romT8.getD (z % 8).toNat 0) (z / 8 - 15)

/-- An LG kind. -/
def isLg (k : EKind) : Bool := k == .lg4 || k == .lg8

/-- The product of two element codes, scales apart. -/
def elemProduct (ka kb : EKind) (a b : Nat) : FV :=
  if isLg ka then lgProduct ka kb a b else (ka.value a).mul (kb.value b)

/-- The exponent of the fixed unit of a pair; none for the aligned mode (R175). -/
def fixedUnit (ka kb : EKind) : Option Int :=
  let isInt (k : EKind) := k == .int8 || k == .int4
  if isInt ka && isInt kb then some 0
  else if (ka == .mxint8 && (kb == .mxint8 || isInt kb)) || (kb == .mxint8 && isInt ka) then some (-12)
  else if (ka == .e2m1 && (kb == .e2m1 || kb == .int4)) || (kb == .e2m1 && ka == .int4) then some (-2)
  else if ka == .lg4 && kb == .lg4 then some (-22)
  else none

/-- The aligned unit: 2^(E - 24) for the largest finite product of the block (R175). -/
def alignedUnit (ps : List FV) : Int :=
  let mx := maxFinite ps
  if mx.1 = 0 then 0 else (Nat.log2 mx.1 : Int) + mx.2 - 24

/-- A block's sum in units of 2^u: exact, each contribution truncated toward zero (R175). -/
def blockInt (u : Int) (ps : List FV) : Int :=
  (ps.map fun p => match p with
    | .fin neg m e => sgn neg (floorAt m e u)
    | _ => 0).sum

/-- A block sum with its scale exponents, before its rounding (R175 to R177); none is a NaN scale. -/
def blockSum (ka kb : EKind) (xa xb : Option Int) (ps : List FV) : FV :=
  match xa, xb with
  | some xa, some xb =>
    if ps.any (·.isNan) then .nan
    else if ps.any (·.isInf) then
      (if ps.contains (.inf true) && ps.contains (.inf false) then .nan else .inf (ps.contains (.inf true)))
    else
      let u := (fixedUnit ka kb).getD (alignedUnit ps)
      let a := blockInt u ps
      .fin (decide (a < 0)) a.natAbs (u + xa + xb)
  | _, _ => .nan

/-- Operands may be paired (R173). -/
def pairOk (a b : EType) : Bool :=
  a.kind != .fp32 && b.kind != .fp32 && isLg a.kind == isLg b.kind && (match a.block, b.block with
    | some x, some y => x == y
    | _, _ => true)

/-- Block length of a pair (R175's preamble). -/
def pairBlock (a b : EType) : Nat := if a.block = some 16 || b.block = some 16 then 16 else 32

/-! ### TMUL -/

/-- One row of a K-innermost operand: its element codes and, per block, its scale exponent. -/
def tmulRow (s : State) (t : Desc) (slot l r : Nat) : List (List Nat × Option Int) :=
  let (m, b) := Desc.mem s t slot t.handle
  (List.range (ceilDiv (t.dim 0) l)).map fun q =>
    let ks := (List.range l).filter fun i => decide (q * l + i < t.dim 0)
    (ks.map fun i => readElem m b t (t.off [q * l + i, r]), scaleExp (readScale s t slot (t.scaleIx [q * l, r])))

/-- One output element: blocks added in ascending order to the accumulator (R176). -/
def tmulElem (ka kb : EKind) (acc : Nat) (ra rb : List (List Nat × Option Int)) : Nat :=
  (ra.zip rb).foldl (fun acc x =>
    fadd acc (r32 (blockSum ka kb x.1.2 x.2.2 (List.zipWith (elemProduct ka kb) x.1.1 x.2.1)))) acc

/-- D = A·B + Cin, N innermost, as FP32 patterns. -/
def tmulValues (s : State) (a b : Desc) (sa sb : Nat) (cin : Option (Desc × Nat)) : List Nat :=
  let l := pairBlock a.ety b.ety
  let rb := (List.range (b.dim 1)).map (tmulRow s b sb l)
  (List.range (a.dim 1)).flatMap fun i =>
    let ra := tmulRow s a sa l i
    rb.zipIdx.map fun x =>
      let acc := match cin with
        | some (c, sl) => (let (m, o) := Desc.mem s c sl c.handle; readElem m o c (c.off [x.2, i]))
        | none => 0
      tmulElem a.ety.kind b.ety.kind acc ra x.1

/-- ac per K-step of a type's rate class, in halves (R192). -/
def rateHalves : EKind → Nat
  | .lg4 => 1
  | .e2m1 | .int4 => 2
  | .bf16 => 16
  | _ => 4

/-- T of R193 for a product, with recomputations. -/
def tmulCost (a b : Desc) (fp32 : Bool) (conv : Option Desc) (recomputed : Nat) : Nat :=
  let w := Nat.max (rateHalves a.ety.kind) (rateHalves b.ety.kind)
  let l := pairBlock a.ety b.ety
  let k' := ceilDiv (a.dim 0) l * l
  let g := ceilDiv (a.dim 1) 128 * ceilDiv (b.dim 1) 128
  let o := (match conv with
    | some c => 16384 * c.ety.kind.bits / 8 + (match c.ety.scaling with | .none => 0 | .tile => 1 | .block n => 128 * (128 / n))
    | none => 0) + if fp32 then 65536 else 0
  ceilDiv g 4 * Nat.max (ceilDiv (k' * w) 2) (ceilDiv (4 * o) 576) + 256 + recomputed * (ceilDiv (k' * w) 2 + 128)

/-- The descriptors that a TMUL names: sources and destinations. -/
def tmulSrcs (a : TmulArgs) : List Nat := [a.a, a.b] ++ a.cin.toList
/-- The destinations. -/
def tmulDsts (a : TmulArgs) : List Nat := a.fp32.toList ++ a.conv.toList

/-- Form, types and shapes of a TMUL (R166, R173, R192, R195); padding and transposition are the tongs' (log 29). -/
def tmulForm (s : State) (d : DieIx) (g : TmulArgs) : Verdict :=
  let t (i : Nat) : Option Desc := descOf s d i
  match t g.a, t g.b with
  | some a, some b =>
    let isD (x : Option Desc) (needF : Bool) : Bool := match x with
      | some x => x.kind == 1 && x.rank == 2 && x.dim 0 == b.dim 1 && x.dim 1 == a.dim 1 && (!needF || x.ety.kind == .fp32)
      | none => false
    failIf (!(a.kind == 1 && b.kind == 1 && a.rank == 2 && b.rank == 2 && a.dim 0 == b.dim 0 && pairOk a.ety b.ety) ||
      (tmulDsts g).isEmpty || g.cin.any (fun i => !(isD (t i) true)) || g.fp32.any (fun i => !(isD (t i) true)) ||
      g.conv.any (fun i => !(isD (t i) false))) (.skip 0x0102)
  | _, _ => .skip 0x0105

/-- Ring operands among descriptors, releasing (log 28). -/
def descRings (s : State) (d : DieIx) (is : List Nat) : List (Nat × Bool) :=
  is.filterMap fun i => match descOf s d i with
    | some t => if t.space = 2 then some (t.handle, true) else none
    | none => none

/-- The first row of each descriptor's ring slot in its handle, 0 for others, ring slots in operand order. -/
def slotRows (s : State) (d : DieIx) : List Nat → List Nat → List Nat
  | [], _ => []
  | i :: t, cs => match descOf s d i with
    | some x => if x.space = 2 then slotRow (ringOf s d x.handle) (cs.headD 0) :: slotRows s d t cs.tail else 0 :: slotRows s d t cs
    | none => 0 :: slotRows s d t cs

/-- The scoreboard ranges of descriptors. -/
def descRanges (s : State) (d : DieIx) (write : Bool) (is : List Nat) : List SbEntry :=
  is.flatMap fun i => match descOf s d i with | some t => t.rowRanges s write | none => []

/-- The destinations that descriptors name. -/
def descDests (s : State) (d : DieIx) (is : List Nat) : List Dest :=
  is.flatMap fun i => match descOf s d i with | some t => t.dests | none => []

/-- The first poisoned descriptor source (R232). -/
def descPoison (s : State) (d : DieIx) (is : List Nat) : Verdict :=
  match is.findSome? (fun i => match descOf s d i with | some t => t.poison s | none => none) with
  | some e => .refuse 0x0107 e
  | none => .pass

/-- What a TMUL does once its checks have passed. -/
def runTmul (at_ : Site) (g : TmulArgs) (j : Job) (slots : List Nat) (us : List (Nat × Bool)) (es : List SbEntry) (s : State) : State :=
  let d := at_.die
  let rows := slotRows s d (tmulSrcs g) slots
  let ds := descDests s d (tmulDsts g)
  match descOf s d g.a, descOf s d g.b with
  | some a, some b =>
    let cin := match g.cin with
      | some i => (descOf s d i).map fun c => (c, rows.getD 2 0)
      | none => none
    let vals := tmulValues s a b (rows.getD 0 0) (rows.getD 1 0) cin
    let fvs := vals.map f32
    let conv := g.conv.bind fun i => descOf s d i
    let out := conv.map fun t => convInto t fvs (xtOf s d g.xt)
    let s := claimTakes d us s
    let s := match g.fp32.bind (fun i => descOf s d i) with
      | some t => writeElems t 0 (vals.zipIdx.map fun v => (t.off (t.tuple v.2), w32 (f32 v.1))) s
      | none => s
    let s := match conv, out with
      | some t, some o => writeConv j at_ 3 t o s
      | _, _ => s
    let sat := match out with | some o => o.saturated | none => none
    let s := match g.palette with | some e => recordPalette d e fvs sat.isSome s | none => s
    match sat with
    | some i => saturate j at_ 3 ds (takeClaims us slots) i s
    | none => startOp d { opZero 0 j.id at_.queue at_.off 3 with
        dests := ds, srcs := descDests s d (tmulSrcs g), takes := takeClaims us slots
        cost := tmulCost a b g.fp32.isSome conv (match out with | some o => o.recomputed | none => 0) } es s
  | _, _ => s

/-- X_t is needed and out of range. -/
def tmulXtBad (s : State) (d : DieIx) (g : TmulArgs) : Bool :=
  g.conv.any fun i => match descOf s d i with
    | some t => t.ety.scaling == .tile && !(xtOk (xtOf s d g.xt))
    | none => false

/-- Issue TMUL (R192, R195). -/
def issueTmul (at_ : Site) (g : TmulArgs) (j : Job) (s : State) : Issued :=
  let d := at_.die
  let ds := descDests s d (tmulDsts g)
  let us := descRings s d (tmulSrcs g)
  let scs := if g.conv.isSome then [g.xt] else []
  let pre := firstFail ([failIf (!(engineHere s d 2)) (.skip 0x0103)] ++ (tmulSrcs g).map (engineDesc s d true) ++
    (tmulDsts g).map (engineDesc s d false) ++
    [match ringCheck s d us with | some e => .skip e | none => .pass, tmulForm s d g])
  let rs := descRanges s d false (tmulSrcs g) ++ descRanges s d true (tmulDsts g)
  if pre != .pass then .done (onVerdict pre j at_ 3 ds s id)
  else if scalarBusy s d scs then .wait .scalar rs
  else match ringSlots s d us with
    | none => .wait (ringWait s d us) rs
    | some slots => withScoreboard d rs s fun es s =>
      let v := firstFail [descPoison s d (tmulSrcs g), failIf (scalarBad s d scs) (.refuse 0x0107 0x0107),
        failIf (tmulXtBad s d g) (.skip 0x0102)]
      if v != .pass then .done (onVerdict v j at_ 3 ds s id)
      else .done (runTmul at_ g j slots us es s)

/-- TMUL (R192). -/
def execTmul (at_ : Site) (args : TmulArgs) (s : State) : Result :=
  ok (runInstr at_ (.tmul at_ args) (issueTmul at_ args) s)

end Sys2Proof.Machine
end

