-- ==== Sys2Proof/Machine/Vector.lean ====
section
/-! DEFINITION. The vector engines (R197 to R205): operands, the count rule, element functions, conversions, fixed point,
reductions, sorts and movement. -/

namespace Sys2Proof.Machine

/-- How an operation reads or writes the elements of an operand: FP32 patterns, I64, or U32 indices. -/
inductive VFmt where
  | fp32 | i64 | u32
  deriving DecidableEq, Repr

/-- Bytes of an element. -/
def VFmt.bytes : VFmt → Nat
  | .i64 => 8
  | _ => 4

/-! ### Operands (R198, R199) -/

/-- A descriptor holds elements of a format: an FP32 tensor, or words of 8 or 4 bytes (log 29). The engines address elements by
R253; padding and transposition are what the tongs do with a destination (R261, R263, log 29). -/
def descHolds (t : Desc) : VFmt → Bool
  | .fp32 => t.kind == 1 && t.ety.kind == .fp32
  | .i64 => t.kind == 2 && t.wordBytes == 3
  | .u32 => t.kind == 2 && t.wordBytes == 2

/-- An operand is a tile register. -/
def isTile : VOp → Bool
  | .tile _ => true
  | _ => false

/-- The count rule of R199 for one operand of `n` elements; a destination scalar register holds one element. -/
def vCount (s : State) (d : DieIx) (f : VFmt) (n : Nat) (dst : Bool) : VOp → Verdict
  | .tile _ => firstFail [failIf (decide (4096 < n)) (.skip 0x0105), failIf (f == .i64) (.skip 0x0102)]
  | .cache line cnt => failIf (decide (cnt < n ∨ 2048 * 256 < line * 256 + n * f.bytes)) (.skip 0x0105)
  | .scalar _ => failIf (dst && decide (1 < n)) (.skip 0x0105)
  | .desc i => match descOf s d i with
    | some t => failIf (decide (t.elems < n)) (.skip 0x0105)
    | none => .skip 0x0105

/-- The space, secrecy and element type of an operand (R197, R198, R204). `any` admits a tensor of any type (CVT). -/
def vOperand (s : State) (d : DieIx) (f : VFmt) (any dst : Bool) : VOp → Verdict
  | .desc i => firstFail [engineDesc s d (!dst) i, match descOf s d i with
    | some t => firstFail [failIf (t.secret s) (.skip 0x0105),
        failIf (!(descHolds t f || (any && t.kind == 1))) (.skip 0x0102)]
    | none => .pass]
  | _ => .pass

/-- The byte address of a memory operand and its memory: tile or cache. -/
def engineBytes (s : State) (d : DieIx) (g : Fin 2) (op : VOp) (o n : Nat) : List Byte :=
  match op with
  | .tile z => memBytes (tblGetD (dieOf s d).tiles (g.val * 8 + z.val) []) o n
  | .cache line _ => (List.range n).map fun i =>
      memGet (tblGetD (dieOf s d).cache (g.val * 2048 + line + (o + i) / 256) []) ((o + i) % 256)
  | _ => []

/-- The elements of an operand as patterns of its format; `slot` is the first row of a ring operand's slot. -/
def vRead (s : State) (d : DieIx) (g : Fin 2) (f : VFmt) (n slot : Nat) : VOp → List Nat
  | .scalar sc => List.replicate n (scalarOf s d sc % 2 ^ (8 * f.bytes))
  | .desc i => match descOf s d i with
    | some t => (let (m, b) := Desc.mem s t slot t.handle
                 (List.range n).map fun k => readElem m b t (t.off (t.tuple k)))
    | none => []
  | op => (List.range n).map fun i => leNat (engineBytes s d g op (i * f.bytes) f.bytes)

/-- The values of a CVT source: an operand of any tensor type, widened with its scales (R172, R180). -/
def vValues (s : State) (d : DieIx) (g : Fin 2) (n slot : Nat) (op : VOp) : List FV :=
  match op with
  | .desc i => (match descOf s d i with
    | some t =>
      let (m, b) := Desc.mem s t slot t.handle
      (List.range n).map fun k =>
        let ix := t.tuple k
        scaledValue t.ety.kind (readElem m b t (t.off ix)) (readScale s t slot (t.scaleIx ix))
    | none => [])
  | _ => (vRead s d g .fp32 n slot op).map f32

/-- Change one byte of an operand-cache line table. -/
def cacheSet (g : Fin 2) (line : Nat) (c : Tbl Mem) (x : Nat × Byte) : Tbl Mem :=
  let k := g.val * 2048 + line + x.1 / 256
  tblSet c k (memSet (tblGetD c k []) (x.1 % 256) x.2)

/-- The cache lines that `n` bytes from a line cover. -/
def linesOf (g : Fin 2) (line n : Nat) : List Nat := (List.range (ceilDiv n 256)).map fun i => g.val * 2048 + line + i

/-- Write elements by position into an operand; a write ends the poison of a tile register, line or scalar register (R456). -/
def vWrite (d : DieIx) (g : Fin 2) (f : VFmt) (xs : List (Nat × Nat)) (op : VOp) (s : State) : State :=
  if xs.isEmpty then s
  else match op with
  | .tile z =>
    let k := g.val * 8 + z.val
    updDie d (fun x => { x with
      tiles := tblSet x.tiles k (xs.foldl (fun m e => memPut m (4 * e.1) (leBytes 4 e.2)) (tblGetD x.tiles k []))
      tilePoison := x.tilePoison.filter fun p => p.1 != k }) s
  | .cache line _ =>
    let top := xs.foldl (fun a e => Nat.max a ((e.1 + 1) * f.bytes)) 0
    updDie d (fun x => { x with
      cache := xs.foldl (fun c e => ((leBytes f.bytes e.2).zipIdx (e.1 * f.bytes)).foldl
        (fun c b => cacheSet g line c (b.2, b.1)) c) x.cache
      cachePoison := x.cachePoison.filter fun p => !(linesOf g line top).contains p.1 }) s
  | .scalar sc => match xs with
    | e :: _ => putScalar d sc e.2 s
    | [] => s
  | .desc i => match descOf s d i with
    | some t => writeElems t 0 (xs.map fun e => (t.off (t.tuple e.1), if f == .fp32 then fmt32.plusZero e.2 else e.2)) s
    | none => s

/-- What an operand names as a destination of `n` elements. -/
def vDests (s : State) (d : DieIx) (g : Fin 2) (f : VFmt) (n : Nat) : VOp → List Dest
  | .tile z => [.tile d g z.val]
  | .cache line _ => [.cache d g line (ceilDiv (n * f.bytes) 256)]
  | .scalar sc => [.scalar d sc]
  | .desc i => descDests s d [i]

/-- The descriptors among operands. -/
def vDescs (ops : List VOp) : List Nat := ops.filterMap fun o => match o with | .desc i => some i | _ => none
/-- The scalar registers among operands. -/
def vScalars (ops : List VOp) : List Nat := ops.filterMap fun o => match o with | .scalar c => some c | _ => none

/-- Poison of a tile or cache operand (R220, R456). -/
def vPoison (s : State) (d : DieIx) (g : Fin 2) (f : VFmt) (n : Nat) : VOp → Verdict
  | .tile z => match (dieOf s d).tilePoison.find? fun p => p.1 == g.val * 8 + z.val with
    | some p => .refuse 0x0107 p.2
    | none => .pass
  | .cache line _ => match (dieOf s d).cachePoison.find? fun p => (linesOf g line (n * f.bytes)).contains p.1 with
    | some p => .refuse 0x0107 p.2
    | none => .pass
  | .scalar sc => failIf (scalarBad s d [sc]) (.refuse 0x0107 0x0107)
  | .desc i => descPoison s d [i]

/-- Port bytes of an operand (R202). -/
def vBytes (s : State) (d : DieIx) (n : Nat) : VOp → Nat
  | .desc i => match descOf s d i with | some t => ceilDiv (n * t.bits) 8 | none => 0
  | _ => 0

/-! ### The shape of a vector operation -/

/-- A vector operation: its engine, count, sources and destination with their formats, the elements it writes, its compute
time, further checks, and its effect given the sources' ring rows. -/
structure VecOp where
  eng : Fin 2
  n : Nat
  srcs : List (VOp × VFmt)
  dst : VOp
  dfmt : VFmt
  outN : Nat
  /-- CVT: any tensor type on both sides. -/
  any : Bool
  compute : Nat
  extraScalars : List Nat
  form : Verdict
  late : Verdict

/-- T of R202. -/
def vecCost (s : State) (d : DieIx) (v : VecOp) (extra : Nat) : Nat :=
  Nat.max (v.compute + extra) (Nat.max (ceilDiv ((v.srcs.map fun o => vBytes s d v.n o.1).sum) 288)
    (ceilDiv (vBytes s d v.outN v.dst) 288)) + 24

/-- The first row of each source's ring slot, 0 for sources that are no ring. -/
def vRows (s : State) (d : DieIx) : List VOp → List Nat → List Nat
  | [], _ => []
  | .desc i :: t, cs => match descOf s d i with
    | some x => if x.space = 2 then slotRow (ringOf s d x.handle) (cs.headD 0) :: vRows s d t cs.tail else 0 :: vRows s d t cs
    | none => 0 :: vRows s d t cs
  | _ :: t, cs => 0 :: vRows s d t cs

/-- Issue a vector operation; `run` writes the result, given each source's ring row, and says what recomputations cost and
whether a saturation ended it. -/
def issueVec (at_ : Site) (v : VecOp) (run : Job → List Nat → State → State × Nat × Option Nat) (j : Job) (s : State) : Issued :=
  let d := at_.die
  let ops := v.srcs.map (·.1)
  let ds := vDests s d v.eng v.dfmt v.outN v.dst
  let us := descRings s d (vDescs ops)
  let scs := vScalars ops ++ v.extraScalars
  let pre := firstFail ([failIf (!(engineHere s d 3)) (.skip 0x0103)] ++
    v.srcs.map (fun o => vOperand s d o.2 v.any false o.1) ++ [vOperand s d v.dfmt v.any true v.dst] ++
    v.srcs.map (fun o => vCount s d o.2 v.n false o.1) ++ [vCount s d v.dfmt v.outN true v.dst] ++
    [failIf (decide (65536 < v.n ∨ (4096 < v.n ∧ isTile v.dst))) (.skip 0x0105), match ringCheck s d us with | some e => .skip e | none => .pass, v.form])
  let rs := descRanges s d false (vDescs ops) ++ descRanges s d true (vDescs [v.dst])
  if pre != .pass then .done (onVerdict pre j at_ 4 ds s id)
  else if scalarBusy s d scs then .wait .scalar rs
  else match ringSlots s d us with
    | none => .wait (ringWait s d us) rs
    | some slots => withScoreboard d rs s fun es s =>
      let c := firstFail (v.srcs.map (fun o => vPoison s d v.eng o.2 v.n o.1) ++
        [failIf (scalarBad s d v.extraScalars) (.refuse 0x0107 0x0107), v.late])
      if c != .pass then .done (onVerdict c j at_ 4 ds s id)
      else
        let cost := vecCost s d v
        let (s, extra, sat) := run j (vRows s d ops slots) (claimTakes d us s)
        match sat with
        | some i => .done (saturate j at_ 4 ds (takeClaims us slots) i s)
        | none => .done (startOp d { opZero 0 j.id at_.queue at_.off 4 with
            dests := ds, srcs := descDests s d (vDescs ops), takes := takeClaims us slots
            scalars := vScalars [v.dst], cost := cost extra } es s)

/-- G of R201. -/
def groups64 (n : Nat) : Nat := ceilDiv n 64

/-- A vector operation over FP32 elements with one FP32 result for each. -/
def elemOp (eng : Fin 2) (n : Nat) (srcs : List VOp) (dst : VOp) (compute : Nat) : VecOp :=
  { eng := eng, n := n, srcs := srcs.map fun o => (o, .fp32), dst := dst, dfmt := .fp32, outN := n, any := false
    compute := compute, extraScalars := [], form := .pass, late := .pass }

/-- Element lists of the sources. -/
def vSources (s : State) (d : DieIx) (v : VecOp) (rows : List Nat) : List (List Nat) :=
  (v.srcs.zip rows).map fun x => vRead s d v.eng x.1.2 v.n x.2 x.1.1

/-- Run an operation whose result elements are a function of the source elements, written from position 0 up. -/
def runPlain (at_ : Site) (v : VecOp) (f : List (List Nat) → List Nat) (_ : Job) (rows : List Nat) (s : State) :
    State × Nat × Option Nat :=
  let out := f (vSources s at_.die v rows)
  (vWrite at_.die v.eng v.dfmt (out.zipIdx.map fun x => (x.2, x.1)) v.dst s, 0, none)

/-- −0 is written as +0 (R184). -/
def pz (x : Nat) : Nat := fmt32.plusZero x

/-- Apply a function of one source. -/
def map1 (f : Nat → Nat) (l : List (List Nat)) : List Nat := (l.getD 0 []).map fun x => pz (f x)
/-- Apply a function of two sources. -/
def map2 (f : Nat → Nat → Nat) (l : List (List Nat)) : List Nat :=
  List.zipWith (fun a b => pz (f a b)) (l.getD 0 []) (l.getD 1 [])
/-- Apply a function of three sources. -/
def map3 (f : Nat → Nat → Nat → Nat) (l : List (List Nat)) : List Nat :=
  List.zipWith (fun a bc => pz (f a bc.1 bc.2)) (l.getD 0 []) ((l.getD 1 []).zip (l.getD 2 []))

/-- Run an elementwise operation of two sources. -/
def vec2 (at_ : Site) (i : Instr) (eng : Fin 2) (n : Nat) (a b dst : VOp) (f : Nat → Nat → Nat) (s : State) : State :=
  let v := elemOp eng n [a, b] dst (groups64 n)
  runInstr at_ i (fun j s => issueVec at_ v (runPlain at_ v (map2 f)) j s) s

/-- Run an elementwise operation of one source; `k` is its compute time in groups. -/
def vec1 (at_ : Site) (i : Instr) (eng : Fin 2) (n k : Nat) (a dst : VOp) (f : Nat → Nat) (s : State) : State :=
  let v := elemOp eng n [a] dst (k * groups64 n)
  runInstr at_ i (fun j s => issueVec at_ v (runPlain at_ v (map1 f)) j s) s

/-- Run an elementwise operation of three sources. -/
def vec3 (at_ : Site) (i : Instr) (eng : Fin 2) (n : Nat) (a b c dst : VOp) (f : Nat → Nat → Nat → Nat) (s : State) : State :=
  let v := elemOp eng n [a, b, c] dst (groups64 n)
  runInstr at_ i (fun j s => issueVec at_ v (runPlain at_ v (map3 f)) j s) s

/-! ### Arithmetic and functions (R200, R201) -/

/-- The comparison of CMP in the total order of R191. -/
def relHolds (r : Rel) (a b : Nat) : Bool :=
  let c := (f32 a).cmp (f32 b)
  match r with
  | .lt => decide (c < 0)
  | .le => decide (c ≤ 0)
  | .eq => decide (c = 0)
  | .ne => decide (c ≠ 0)
  | .ge => decide (0 ≤ c)
  | .gt => decide (0 < c)

/-- ABS of a pattern; a NaN stays NaN (R189). -/
def fabs (a : Nat) : Nat := r32 (f32 a).abs
/-- NEG of a pattern. -/
def fneg (a : Nat) : Nat := r32 (f32 a).neg

/-- ADD (R200, R201). -/
def execAdd (at_ : Site) (eng : Fin 2) (n : Nat) (a b dst : VOp) (s : State) : Result :=
  ok (vec2 at_ (.add at_ eng n a b dst) eng n a b dst fadd s)
/-- SUB (R200, R201). -/
def execSub (at_ : Site) (eng : Fin 2) (n : Nat) (a b dst : VOp) (s : State) : Result :=
  ok (vec2 at_ (.sub at_ eng n a b dst) eng n a b dst fsub s)
/-- MUL (R200, R201). -/
def execMul (at_ : Site) (eng : Fin 2) (n : Nat) (a b dst : VOp) (s : State) : Result :=
  ok (vec2 at_ (.mul at_ eng n a b dst) eng n a b dst fmul s)
/-- FMA rounds once (R200). -/
def execFma (at_ : Site) (eng : Fin 2) (n : Nat) (a b c dst : VOp) (s : State) : Result :=
  ok (vec3 at_ (.fma at_ eng n a b c dst) eng n a b c dst ffma s)
/-- MIN (R190). -/
def execMin (at_ : Site) (eng : Fin 2) (n : Nat) (a b dst : VOp) (s : State) : Result :=
  ok (vec2 at_ (.min at_ eng n a b dst) eng n a b dst fmin s)
/-- MAX (R190). -/
def execMax (at_ : Site) (eng : Fin 2) (n : Nat) (a b dst : VOp) (s : State) : Result :=
  ok (vec2 at_ (.max at_ eng n a b dst) eng n a b dst fmax s)
/-- ABS. -/
def execAbs (at_ : Site) (eng : Fin 2) (n : Nat) (a dst : VOp) (s : State) : Result :=
  ok (vec1 at_ (.abs at_ eng n a dst) eng n 1 a dst fabs s)
/-- NEG. -/
def execNeg (at_ : Site) (eng : Fin 2) (n : Nat) (a dst : VOp) (s : State) : Result :=
  ok (vec1 at_ (.neg at_ eng n a dst) eng n 1 a dst fneg s)
/-- CMP writes 1.0 or +0 (R201). -/
def execCmp (at_ : Site) (eng : Fin 2) (n : Nat) (rel : Rel) (a b dst : VOp) (s : State) : Result :=
  ok (vec2 at_ (.cmp at_ eng n rel a b dst) eng n a b dst (fun x y => if relHolds rel x y then f32One else 0) s)
/-- SEL takes its first data operand where the condition is non-zero (R201). -/
def execSel (at_ : Site) (eng : Fin 2) (n : Nat) (c a b dst : VOp) (s : State) : Result :=
  ok (vec3 at_ (.sel at_ eng n c a b dst) eng n c a b dst (fun c x y => if (f32 c).isZero then y else x) s)
/-- RECIP: within 1 ulp (log 25). -/
def execRecip (at_ : Site) (eng : Fin 2) (n : Nat) (a dst : VOp) (s : State) : Result :=
  ok (vec1 at_ (.recip at_ eng n a dst) eng n 4 a dst frecip s)
/-- RSQRT: within 1 ulp (log 25). -/
def execRsqrt (at_ : Site) (eng : Fin 2) (n : Nat) (a dst : VOp) (s : State) : Result :=
  ok (vec1 at_ (.rsqrt at_ eng n a dst) eng n 4 a dst frsqrt s)
/-- SQRT rounds correctly. -/
def execSqrt (at_ : Site) (eng : Fin 2) (n : Nat) (a dst : VOp) (s : State) : Result :=
  ok (vec1 at_ (.sqrt at_ eng n a dst) eng n 4 a dst fsqrt s)
/-- EXP2: within 2 ulp (log 25). -/
def execExp2 (at_ : Site) (eng : Fin 2) (n : Nat) (a dst : VOp) (s : State) : Result :=
  ok (vec1 at_ (.exp2 at_ eng n a dst) eng n 4 a dst fexp2 s)
/-- LOG2: within 2 ulp (log 25). -/
def execLog2 (at_ : Site) (eng : Fin 2) (n : Nat) (a dst : VOp) (s : State) : Result :=
  ok (vec1 at_ (.log2 at_ eng n a dst) eng n 4 a dst flog2 s)

/-! ### Conversion and fixed point -/

/-- The tile-scaled destination of a CVT, if it has one: it needs X_t (R181). -/
def cvtTile (s : State) (d : DieIx) (dst : VOp) : Bool :=
  match dst with
  | .desc i => (match descOf s d i with | some t => t.kind == 1 && t.ety.scaling == .tile | none => false)
  | _ => false

/-- What a CVT writes: into a tensor by R179 to R185, elsewhere as FP32 patterns. -/
def runCvt (at_ : Site) (v : VecOp) (xt : Nat) (palette : Option Nat) (j : Job) (rows : List Nat) (s : State) :
    State × Nat × Option Nat :=
  let d := at_.die
  let vals := vValues s d v.eng v.n (rows.getD 0 0) (v.srcs.headD (v.dst, .fp32)).1
  let record (sat : Bool) (s : State) : State := match palette with
    | some e => if v.n = 0 then s else recordPalette d e vals sat s
    | none => s
  match v.dst with
  | .desc i => match descOf s d i with
    | some t =>
      let o := convInto t vals (xtOf s d xt)
      (record o.saturated.isSome (writeConv j at_ 4 t o s), 2 * groups64 v.n * o.recomputed, o.saturated)
    | none => (s, 0, none)
  | dst => (record false (vWrite d v.eng .fp32 (vals.zipIdx.map fun x => (x.2, w32 x.1)) dst s), 0, none)

/-- CVT into any type of R166 (R201). -/
def execCvt (at_ : Site) (eng : Fin 2) (n : Nat) (a dst : VOp) (xt : Nat) (palette : Option Nat) (s : State) : Result :=
  ok (runInstr at_ (.cvt at_ eng n a dst xt palette) (fun j s =>
    let tile := cvtTile s at_.die dst
    let v : VecOp := { elemOp eng n [a] dst (2 * groups64 n) with
      any := true, extraScalars := if tile then [xt] else []
      late := failIf (tile && !(xtOk (xtOf s at_.die xt))) (.skip 0x0102) }
    issueVec at_ v (runCvt at_ v xt palette) j s) s)

/-- FIX of a pattern: to nearest, ties to even, saturating; a NaN becomes 0 (R201). -/
def fixOf (f a : Nat) : Nat :=
  match f32 a with
  | .nan => 0
  | .inf neg => ofSigned 64 (sgn neg (2 ^ 63 - 1))
  | .fin neg m e => ofSigned 64 (sgn neg (Nat.min (rneAt m (e + f) 0) (2 ^ 63 - 1)))

/-- FLT of an I64 with `f` fraction bits (R201). -/
def fltOf (f x : Nat) : Nat :=
  let z := toSigned 64 x
  w32 (.fin (decide (z < 0)) z.natAbs (-(f : Int)))

/-- FIX (R201): each NaN counts as in R183. -/
def execFix (at_ : Site) (eng : Fin 2) (n f : Nat) (a dst : VOp) (s : State) : Result :=
  let v : VecOp := { elemOp eng n [a] dst (2 * groups64 n) with
    dfmt := .i64, form := failIf (decide (62 < f)) (.skip 0x0102) }
  ok (runInstr at_ (.fix at_ eng n f a dst) (fun j s =>
    issueVec at_ v (fun j rows s =>
      let xs := (vSources s at_.die v rows).getD 0 []
      let s := vWrite at_.die eng .i64 (xs.zipIdx.map fun x => (x.2, fixOf f x.1)) dst s
      (countNans j at_ 4 (xs.countP fun x => (f32 x).isNan) s, 0, none)) j s) s)

/-- FLT (R201). -/
def execFlt (at_ : Site) (eng : Fin 2) (n f : Nat) (a dst : VOp) (s : State) : Result :=
  let v : VecOp := { elemOp eng n [a] dst (2 * groups64 n) with
    srcs := [(a, .i64)], form := failIf (decide (62 < f)) (.skip 0x0102) }
  ok (runInstr at_ (.flt at_ eng n f a dst) (fun j s =>
    issueVec at_ v (runPlain at_ v fun l => (l.getD 0 []).map (fltOf f)) j s) s)

/-! ### Reductions (R190, R191, R203) -/

/-- Combine adjacent partials (R203). -/
def pairUp : List Nat → List Nat
  | a :: b :: t => fadd a b :: pairUp t
  | l => l

/-- The binary tree over partials, `k` levels. -/
def treeSum : Nat → List Nat → Nat
  | 0, l => l.headD 0
  | k + 1, l => treeSum k (pairUp l)

/-- RSUM over `w` lanes, a power of two, and its tree (R203, R210). -/
def laneSum (w : Nat) (xs : List Nat) : Nat :=
  let lanes := (List.range w).map fun j => ((List.range (ceilDiv (xs.length - j) w)).map fun i => xs.getD (j + i * w) 0).foldl fadd 0
  treeSum (Nat.log2 w) lanes

/-- RMAX and RMIN take NaN as missing; NaN where nothing is left (R190). -/
def foldNan (f : Nat → Nat → Nat) (xs : List Nat) : Nat := xs.foldl f fmt32.nanBits

/-- RARGMAX: the lowest index of the greatest element in the order of R191. -/
def argmax (xs : List Nat) : Nat :=
  (xs.zipIdx.foldl (fun (best : Option (Nat × Nat)) x => match best with
    | none => some x
    | some b => if (f32 b.1).cmp (f32 x.1) < 0 then some x else some b) none).elim 0xFFFFFFFF fun b => b.2

/-- The element groups of a reduction: all elements, or those of each row or column of a tile within the count. -/
def redGroups (form : RedForm) (xs : List Nat) : List (List Nat) :=
  match form with
  | .all => [xs]
  | .rows => (List.range 64).map fun r => (xs.drop (64 * r)).take 64
  | .cols => (List.range 64).map fun c => (List.range 64).filterMap fun r => xs[64 * r + c]?

/-- Run a reduction: a function of all elements, of a row, or of a column. -/
def vecRed (at_ : Site) (i : Instr) (eng : Fin 2) (n : Nat) (form : RedForm) (a dst : VOp) (dfmt : VFmt)
    (f : RedForm → List Nat → Nat) (s : State) : State :=
  let v : VecOp := { elemOp eng n [a] dst (if form = .all then groups64 n + 12 else 76) with
    dfmt := dfmt, outN := if form = .all then 1 else 64
    form := failIf (form != .all && !isTile a) (.skip 0x0102) }
  runInstr at_ i (fun j s => issueVec at_ v (runPlain at_ v fun l => (redGroups form (l.getD 0 [])).map (f form)) j s) s

/-- RSUM: lanes and tree over n elements or a row; a column in ascending row order (R203). -/
def execRsum (at_ : Site) (eng : Fin 2) (n : Nat) (form : RedForm) (a dst : VOp) (s : State) : Result :=
  ok (vecRed at_ (.rsum at_ eng n form a dst) eng n form a dst .fp32
    (fun fm xs => pz (if fm = .cols then xs.foldl fadd 0 else laneSum 64 xs)) s)
/-- RMAX (R190). -/
def execRmax (at_ : Site) (eng : Fin 2) (n : Nat) (form : RedForm) (a dst : VOp) (s : State) : Result :=
  ok (vecRed at_ (.rmax at_ eng n form a dst) eng n form a dst .fp32 (fun _ xs => pz (foldNan fmax xs)) s)
/-- RMIN (R190). -/
def execRmin (at_ : Site) (eng : Fin 2) (n : Nat) (form : RedForm) (a dst : VOp) (s : State) : Result :=
  ok (vecRed at_ (.rmin at_ eng n form a dst) eng n form a dst .fp32 (fun _ xs => pz (foldNan fmin xs)) s)
/-- RARGMAX (R191). -/
def execRargmax (at_ : Site) (eng : Fin 2) (n : Nat) (form : RedForm) (a dst : VOp) (s : State) : Result :=
  ok (vecRed at_ (.rargmax at_ eng n form a dst) eng n form a dst .u32 (fun _ xs => argmax xs) s)

/-! ### Order and movement -/

/-- Insert an element after the keys that are not greater (R191). -/
def sortInsert (x : Nat × Nat) : List (Nat × Nat) → List (Nat × Nat)
  | [] => [x]
  | y :: t => if (f32 x.1).cmp (f32 y.1) < 0 then x :: y :: t else y :: sortInsert x t

/-- The stable ascending sort of elements with their positions (R191). -/
def sortKeys (xs : List Nat) : List (Nat × Nat) := xs.zipIdx.foldl (fun l x => sortInsert x l) []

/-- Compute time of SORT and ARGSORT (R201). -/
def sortCost (n : Nat) : Nat := if n < 2 then 64 else ceilDiv (n * clog2 n) 32 + 64

/-- SORT (R191, R201). -/
def execSort (at_ : Site) (eng : Fin 2) (n : Nat) (a dst : VOp) (s : State) : Result :=
  let v := elemOp eng n [a] dst (sortCost n)
  ok (runInstr at_ (.sort at_ eng n a dst) (fun j s =>
    issueVec at_ v (runPlain at_ v fun l => (sortKeys (l.getD 0 [])).map fun x => pz x.1) j s) s)

/-- ARGSORT (R191, R201). -/
def execArgsort (at_ : Site) (eng : Fin 2) (n : Nat) (a dst : VOp) (s : State) : Result :=
  let v : VecOp := { elemOp eng n [a] dst (sortCost n) with dfmt := .u32 }
  ok (runInstr at_ (.argsort at_ eng n a dst) (fun j s =>
    issueVec at_ v (runPlain at_ v fun l => (sortKeys (l.getD 0 [])).map (·.2)) j s) s)

/-- The element format that a movement uses: that of its descriptor operand (log 29). -/
def moveFmt (s : State) (d : DieIx) (ops : List VOp) : VFmt :=
  match (vDescs ops).filterMap (descOf s d) with
  | t :: _ => if descHolds t .i64 then .i64 else if descHolds t .u32 then .u32 else .fp32
  | [] => .fp32

/-- A movement between handle, operand cache and tile register. -/
def vecMove (at_ : Site) (i : Instr) (eng : Fin 2) (n : Nat) (transpose : Bool) (a dst : VOp) (s : State) : State :=
  runInstr at_ i (fun j s =>
    let f := moveFmt s at_.die [a, dst]
    let isScalar (o : VOp) : Bool := match o with | .scalar _ => true | _ => false
    let v : VecOp := { elemOp eng n [a] dst (groups64 n) with
      srcs := [(a, f)], dfmt := f
      form := failIf (isScalar a || isScalar dst || (transpose && !isTile dst)) (.skip 0x0102) }
    issueVec at_ v (fun _ rows s =>
      let xs := (vSources s at_.die v rows).getD 0 []
      let place (k : Nat) : Nat := if transpose then k % 64 * 64 + k / 64 else k
      (vWrite at_.die eng f (xs.zipIdx.map fun x => (place x.2, x.1)) dst s, 0, none)) j s) s

/-- VLOAD; it may transpose into a tile register (R201). -/
def execVload (at_ : Site) (eng : Fin 2) (n : Nat) (transpose : Bool) (a dst : VOp) (s : State) : Result :=
  ok (vecMove at_ (.vload at_ eng n transpose a dst) eng n transpose a dst s)
/-- VSTORE (R201). -/
def execVstore (at_ : Site) (eng : Fin 2) (n : Nat) (a dst : VOp) (s : State) : Result :=
  ok (vecMove at_ (.vstore at_ eng n a dst) eng n false a dst s)

end Sys2Proof.Machine
end

