-- ==== Sys2Proof/Machine/Update.lean ====
section
/-! DEFINITION. The update engine (R206 to R219): the update descriptor, UPD_NORM, UPD_APPLY, the four rules, lazy rows and
stochastic rounding. -/

namespace Sys2Proof.Machine

/-! ### The update descriptor (R207, R208) -/

/-- The fields of an update descriptor (R207). -/
structure UpdDesc where
  rule : Nat
  grad16 : Bool
  state16 : Bool
  lazyRows : Bool
  clip : Bool
  check : Bool
  tensorId : Nat
  beta1 : Nat
  beta2 : Nat
  eps : Nat
  clipNorm : Nat
  step : Nat
  rowLength : Nat
  elements : Nat
  deriving DecidableEq, Repr

/-- Read the 64 bytes of an update descriptor. -/
def updOfBytes (b : List Byte) : UpdDesc :=
  let f2 := fieldAt b 2 1
  let f3 := fieldAt b 3 1
  { rule := bitsOf f2 0 4, grad16 := bitsOf f2 4 2 == 1, state16 := bitsOf f2 6 2 == 1, lazyRows := bitOf f3 0
    clip := bitOf f3 1, check := bitOf f3 2, tensorId := fieldAt b 4 4, beta1 := fieldAt b 8 4, beta2 := fieldAt b 0x0C 4
    eps := fieldAt b 0x10 4, clipNorm := fieldAt b 0x14 4, step := fieldAt b 0x18 4, rowLength := fieldAt b 0x1C 4
    elements := fieldAt b 0x20 4 }

/-- β lies in [0, 1). -/
def betaOk (b : Nat) : Bool := (f32 b).isZero || (decide ((f32 b).cmp (.fin false 0 0) > 0) && decide ((f32 b).cmp (.fin false 1 0) < 0))
/-- Finite and greater than 0. -/
def posFinite (b : Nat) : Bool := !(f32 b).isNan && !(f32 b).isInf && decide ((f32 b).cmp (.fin false 0 0) > 0)

/-- The rule keeps a second moment: A and AW. -/
def UpdDesc.hasV (u : UpdDesc) : Bool := u.rule == 2 || u.rule == 3

/-- R208: tag, check, reserved bits and ranges. -/
def updSound (b : List Byte) : Bool :=
  let u := updOfBytes b
  fieldAt b 0 2 == 0xC7F1 && fieldAt b 0x3C 4 == (crc32c (b.take 0x3C)).toNat && bitsOf (fieldAt b 3 1) 3 5 == 0 &&
  allZero (bytesAt b 0x24 0x18) && decide (1 ≤ u.rule ∧ u.rule ≤ 4 ∧ bitsOf (fieldAt b 2 1) 4 2 ≤ 1 ∧ bitsOf (fieldAt b 2 1) 6 2 ≤ 1) &&
  betaOk u.beta1 && (u.rule == 1 || betaOk u.beta2) && (!u.hasV || posFinite u.eps) && (!u.clip || posFinite u.clipNorm) &&
  (if u.lazyRows then decide (1 ≤ u.rowLength ∧ u.rowLength ≤ 65536) && u.elements % u.rowLength == 0 else u.rowLength == 0)

/-- The descriptor's bytes with STEP_COUNT and a fresh UPD_CHECK (R207). -/
def updStamp (b : List Byte) (t : Nat) : List Byte :=
  let x := b.take 0x18 ++ leBytes 4 t ++ bytesAt b 0x1C 0x20
  x ++ leBytes 4 (crc32c x).toNat

/-! ### Elements -/

/-- Element bytes. -/
def width16 (b : Bool) : Nat := if b then 2 else 4
/-- The FP32 pattern of an element of a handle: FP32, or BF16 widened (R213). -/
def elemFp32 (s : State) (d : DieIx) (h : Nat) (is16 : Bool) (i : Nat) : Nat :=
  if is16 then leNat (handleBytes s d h (2 * i) 2) * 65536 else leNat (handleBytes s d h (4 * i) 4)

/-- A handle holds `n` bytes. -/
def handleHolds (s : State) (d : DieIx) (h n : Nat) : Bool := decide (n ≤ (handleOf s d h).rows * rowBytes)

/-- The scoreboard range of the first `n` bytes of a handle. -/
def bytesRange (s : State) (d : DieIx) (h n : Nat) (write : Bool) : SbEntry := handleRange s d h 0 (Nat.max 1 (ceilDiv n rowBytes)) write

/-- Handles exist and back no ring (R230, R246). -/
def handlesUse (s : State) (d : DieIx) (hs : List Nat) : Verdict :=
  firstFail (hs.map fun h => match handleUse s d h with | some e => .skip e | none => .pass)

/-- The first poisoned handle (R232). -/
def handlesPoison (s : State) (d : DieIx) (hs : List Nat) : Verdict :=
  match hs.findSome? fun h => (handleOf s d h).pe with
  | some e => .refuse 0x0107 e
  | none => .pass

/-- Secret-marked data would leave for a place that carries no mark (R165, log 98). -/
def secretSpill (s : State) (d : DieIx) (hs ws : List Nat) : Bool :=
  hs.any (fun h => (handleOf s d h).isSecret) && ws.any fun h => !(handleOf s d h).isSecret

/-- The gradient elements that UPD_NORM and UPD_APPLY read: the tensor, or the compact rows (R210, R214). -/
def UpdDesc.gradElems (u : UpdDesc) (rows : Nat) : Nat := if u.lazyRows then rows * u.rowLength else u.elements

/-! ### UPD_NORM (R210) -/

/-- Issue UPD_NORM. -/
def issueNorm (at_ : Site) (g : NormArgs) (j : Job) (s : State) : Issued :=
  let d := at_.die
  let ds : List Dest := [.scalar d g.sca, .scalar d g.scb]
  let u := updOfBytes (handleBytes s d g.desc 0 64)
  let n := u.gradElems g.rows
  let pre := firstFail [failIf (!(engineHere s d 4)) (.skip 0x0103), handlesUse s d [g.desc, g.grad],
    failIf ([g.desc, g.grad].any fun h => (handleOf s d h).isSecret) (.skip 0x0105)]
  let rs := [bytesRange s d g.desc 64 false, bytesRange s d g.grad (n * width16 u.grad16) false]
  if pre != .pass then .done (onVerdict pre j at_ 5 ds s id)
  else if scalarBusy s d [g.sca, g.scb] then .wait .scalar rs
  else withScoreboard d rs s fun es s =>
    let v := firstFail [handlesPoison s d [g.desc, g.grad], failIf (scalarBad s d [g.sca, g.scb]) (.refuse 0x0107 0x0107),
      failIf (!(updSound (handleBytes s d g.desc 0 64)) || !(handleHolds s d g.grad (n * width16 u.grad16))) (.skip 0x0105)]
    if v != .pass then .done (onVerdict v j at_ 5 ds s id)
    else
      let xs := (List.range n).map (elemFp32 s d g.grad u.grad16)
      let sum := laneSum 128 (xs.map fun x => fmul x x)
      let bad := xs.countP fun x => (f32 x).isNan || (f32 x).isInf
      let s := putScalar d g.sca (pz (fadd (scalarOf s d g.sca % 2 ^ 32) sum)) s
      let s := putScalar d g.scb (scalarOf s d g.scb + bad) s
      .done (startOp d { opZero 0 j.id at_.queue at_.off 5 with
        dests := ds, srcs := [.handle d g.desc, .handle d g.grad], scalars := [g.sca, g.scb], cost := ceilDiv n 128 + 64 } es s)

/-- UPD_NORM (R210). -/
def execUpdNorm (at_ : Site) (args : NormArgs) (s : State) : Result :=
  ok (runInstr at_ (.updNorm at_ args) (issueNorm at_ args) s)

/-! ### The rules (R211 to R213) -/

/-- Square-and-multiply over the bits of `t`, most significant first, in binary64 (R212). -/
def powBits : Nat → Nat → Nat → Nat → Nat
  | 0, _, _, acc => acc
  | k + 1, t, b, acc =>
    let sq := fmt64.round ((fmt64.val acc).mul (fmt64.val acc))
    powBits k t b (if t / 2 ^ k % 2 = 1 then fmt64.round ((fmt64.val sq).mul (fmt64.val b)) else sq)

/-- 1/(1 − β^t), binary64 throughout, rounded once to FP32 (R212). -/
def biasFix (beta t : Nat) : Nat :=
  let b := fmt64.round (f32 beta)
  let one := fmt64.round (.fin false 1 0)
  let p := powBits (Nat.log2 t + 1) t b one
  let q := fmt64.round ((fmt64.val one).sub (fmt64.val p))
  r32 (fmt64.val (fmt64.round ((fmt64.val one).div (fmt64.val q))))

/-- The values computed once per tensor or row (R212), with the clip factor (R211). -/
structure UpdConsts where
  b1 : Nat
  b2 : Nat
  k1 : Nat
  k2 : Nat
  eta : Nat
  etaLambda : Nat
  r1 : Nat
  r2 : Nat
  eps : Nat
  c : Nat
  deriving DecidableEq, Repr

/-- The constants of a step at count `t`. -/
def updConsts (u : UpdDesc) (eta lambda c t : Nat) : UpdConsts :=
  { b1 := u.beta1, b2 := u.beta2, k1 := fsub f32One u.beta1, k2 := fsub f32One u.beta2, eta := eta
    etaLambda := fmul eta lambda, r1 := biasFix u.beta1 t, r2 := biasFix u.beta2 t, eps := u.eps, c := c }

/-- The clip factor (R211). -/
def clipFactor (u : UpdDesc) (sg : Nat) : Nat :=
  if !u.clip || (f32 sg).isZero then f32One else fmin f32One (fdiv u.clipNorm (fsqrt sg))

/-- sign(x), with sign(±0) = +0 (R213). -/
def fsign (a : Nat) : Nat :=
  match f32 a with
  | .nan => fmt32.nanBits
  | .inf neg => if neg then 2 ^ 31 + f32One else f32One
  | .fin neg m _ => if m = 0 then 0 else if neg then 2 ^ 31 + f32One else f32One

/-- One element's step: gradient, m, v, w₀ to w, m, v (R213). -/
def updElem (rule : Nat) (k : UpdConsts) (g m v w : Nat) : Nat × Nat × Nat :=
  let g := fmul g k.c
  if rule = 1 then
    let m := fadd (fmul k.b1 m) g
    (fsub w (fmul k.eta m), m, v)
  else if rule = 4 then
    let u := fsign (fadd (fmul k.b1 m) (fmul k.k1 g))
    (fsub (fsub w (fmul k.eta u)) (fmul k.etaLambda w), fadd (fmul k.b2 m) (fmul k.k2 g), v)
  else
    let m := fadd (fmul k.b1 m) (fmul k.k1 g)
    let v := fadd (fmul k.b2 v) (fmul k.k2 (fmul g g))
    let d := fdiv (fmul m k.r1) (fadd (fsqrt (fmul v k.r2)) k.eps)
    let w1 := fsub w (fmul k.eta d)
    (if rule = 3 then fsub w1 (fmul k.etaLambda w) else w1, m, v)

/-! ### Stochastic rounding (R216, R217) -/

/-- The SHAKE128 output of a block of 128 elements (R216). -/
def roundBits (seed : List Byte) (tensorId blk : Nat) : List Byte :=
  shake128 (bytesAt seed 0 32 ++ leBytes 4 tensorId ++ leBytes 4 blk) 768

/-- ρ of element `e` for quantity `i` from its block's output. -/
def rhoOf (bits : List Byte) (i e : Nat) : Nat := fieldAt bits (256 * i + 2 * (e % 128)) 2

/-- The stochastic rounding of an FP32 value into BF16 (R217). -/
def stochB16 (rho x : Nat) : Nat :=
  let x := x % 2 ^ 32
  if (f32 x).isNan then 0x7FC0
  else if (f32 x).isInf then x / 2 ^ 16
  else
    let mag := (x % 2 ^ 31 + rho) / 2 ^ 16
    let mag := if 0x7F80 ≤ mag then 0x7F7F else mag
    if mag = 0 then 0 else mag + (if 2 ^ 31 ≤ x then 0x8000 else 0)

/-! ### UPD_APPLY (R211 to R219) -/

/-- Write a state element: FP32 as computed with −0 as +0, or BF16 rounded stochastically. -/
def putState (d : DieIx) (h : Nat) (is16 : Bool) (rho i x : Nat) (s : State) : State :=
  if is16 then putHandle d h (2 * i) (leBytes 2 (stochB16 rho x)) s else putHandle d h (4 * i) (leBytes 4 (pz x)) s

/-- Update element `e` of the tensor from gradient element `gi`, given its block's random bits. -/
def stepElem (d : DieIx) (g : UpdArgs) (u : UpdDesc) (k : UpdConsts) (bits : List Byte) (e gi : Nat) (s : State) : State :=
  let (w, m, v) := updElem u.rule k (elemFp32 s d g.grad u.grad16 gi) (elemFp32 s d g.m u.state16 e)
    (if u.hasV then elemFp32 s d g.v u.state16 e else 0) (elemFp32 s d g.weights true e)
  let s := putHandle d g.weights (2 * e) (leBytes 2 (stochB16 (rhoOf bits 0 e) w)) s
  let s := putState d g.m u.state16 (rhoOf bits 1 e) e m s
  if u.hasV then putState d g.v u.state16 (rhoOf bits 2 e) e v s else s

/-- Update `n` elements from element `e` on, gradient elements from `gi` on. -/
def stepRun (d : DieIx) (g : UpdArgs) (u : UpdDesc) (k : UpdConsts) (seed : List Byte) (e gi n : Nat) (s : State) : State :=
  let blocks := (List.range ((e + n) / 128 + 1 - e / 128)).map fun b => (e / 128 + b, roundBits seed u.tensorId (e / 128 + b))
  (List.range n).foldl (fun s i =>
    stepElem d g u k (((blocks.find? fun b => b.1 == (e + i) / 128).map (·.2)).getD []) (e + i) (gi + i) s) s

/-- The index list is strictly ascending (R214). -/
def ascending : List Nat → Bool
  | a :: b :: t => decide (a < b) && ascending (b :: t)
  | _ => true

/-- The row indices of a lazy update. -/
def lazyIdx (s : State) (d : DieIx) (g : UpdArgs) : List Nat := (List.range g.rows).map fun i => leNat (handleBytes s d g.idx (4 * i) 4)

/-- One listed row of a lazy tensor: its count, then its elements (R212, R214). -/
def stepRow (d : DieIx) (g : UpdArgs) (u : UpdDesc) (seed : List Byte) (eta lambda c : Nat) (x : Nat × Nat) (s : State) : State :=
  let t := Nat.min (leNat (handleBytes s d g.counts (4 * x.1) 4) + 1) 0xFFFFFFFF
  let s := putHandle d g.counts (4 * x.1) (leBytes 4 t) s
  stepRun d g u (updConsts u eta lambda c t) seed (x.1 * u.rowLength) (x.2 * u.rowLength) u.rowLength s

/-- What UPD_APPLY writes (R211 to R217). -/
def applyStep (d : DieIx) (g : UpdArgs) (u : UpdDesc) (b seed : List Byte) (eta lambda : Nat) (s : State) : State :=
  let c := clipFactor u (scalarOf s d g.sg % 2 ^ 32)
  if u.lazyRows then
    let idx := (lazyIdx s d g).zipIdx.filter fun x => decide (x.1 < u.elements / u.rowLength)
    let s := idx.foldl (fun s x => stepRow d g u seed eta lambda c x s) s
    putHandle d g.desc 0 (updStamp b u.step) s
  else
    let t := Nat.min (u.step + 1) 0xFFFFFFFF
    putHandle d g.desc 0 (updStamp b t) (stepRun d g u (updConsts u eta lambda c t) seed 0 0 u.elements s)

/-- ⌈n/ρ_e⌉ for n elements (R218): blocks of 12·P/32 ac, and at most 128 elements per ac. -/
def updAc (u : UpdDesc) (n : Nat) : Nat :=
  let p := if !u.state16 then 2 else if u.hasV then 5 else 4
  Nat.max (ceilDiv n 128) (ceilDiv (n * 12 * p) (128 * 32))

/-- The time of UPD_APPLY (R211, R219). -/
def updCost (u : UpdDesc) (skipped : Bool) (rows : Nat) : Nat :=
  if skipped then 128 else if u.lazyRows then rows * Nat.max (updAc u u.rowLength) 16 + 128 else updAc u u.elements + 128

/-- The handles that UPD_APPLY writes. -/
def updWrites (u : UpdDesc) (g : UpdArgs) : List Nat :=
  [g.desc, g.weights, g.m] ++ (if u.hasV then [g.v] else []) ++ (if u.lazyRows then [g.counts] else [])
/-- The handles that it only reads. -/
def updReads (u : UpdDesc) (g : UpdArgs) : List Nat := g.grad :: (if u.lazyRows then [g.idx] else [])

/-- The bytes that each handle must hold (R208). -/
def updSizes (u : UpdDesc) (g : UpdArgs) : List (Nat × Nat) :=
  let st := width16 u.state16
  [(g.desc, 64), (g.weights, 2 * u.elements), (g.m, st * u.elements)] ++ (if u.hasV then [(g.v, st * u.elements)] else []) ++
  [(g.grad, u.gradElems g.rows * width16 u.grad16)] ++
  (if u.lazyRows then [(g.idx, 4 * g.rows), (g.counts, 4 * (u.elements / u.rowLength))] else [])

/-- Issue UPD_APPLY. -/
def issueUpd (at_ : Site) (g : UpdArgs) (j : Job) (s : State) : Issued :=
  let d := at_.die
  let b := handleBytes s d g.desc 0 64
  let u := updOfBytes b
  let q := queueOf s d at_.queue
  let ds : List Dest := (updWrites u g).map fun h => .handle d h
  let pre := firstFail [failIf (!(engineHere s d 4)) (.skip 0x0103), handlesUse s d (updWrites u g ++ updReads u g),
    failIf (secretSpill s d (updWrites u g ++ updReads u g) (updWrites u g)) (.skip 0x0105),
    failIf (decide (q.stepId ≠ g.stepId.toNat)) (.skip 0x0102)]
  let size (h : Nat) : Nat := (((updSizes u g).find? fun x => x.1 == h).map (·.2)).getD 0
  let rs := (updReads u g).map (fun h => bytesRange s d h (size h) false) ++
    (updWrites u g).map (fun h => bytesRange s d h (size h) true)
  if pre != .pass then .done (onVerdict pre j at_ 5 ds s id)
  else if scalarBusy s d [g.sg, g.fg] then .wait .scalar rs
  else withScoreboard d rs s fun es s =>
    let v := firstFail [handlesPoison s d ([g.desc, g.weights, g.grad, g.m] ++ (if u.hasV then [g.v] else [])),
      failIf (scalarBad s d [g.sg, g.fg]) (.refuse 0x0107 0x0107), handlesPoison s d (if u.lazyRows then [g.idx, g.counts] else []),
      failIf (!(updSound b) || (updSizes u g).any fun x => !(handleHolds s d x.1 x.2)) (.skip 0x0105),
      failIf (u.lazyRows && !(ascending (lazyIdx s d g))) (.skip 0x0102)]
    if v != .pass then .done (onVerdict v j at_ 5 ds s id)
    else
      let skipped := u.check && scalarOf s d g.fg != 0
      let out := if u.lazyRows && !skipped then
        (lazyIdx s d g).countP fun i => decide (u.elements / u.rowLength ≤ i) else 0
      let cost := updCost u skipped (g.rows - out)
      let s := if skipped then logJob 0x0A05 j at_ 5 0 false s
        else countIndexes j at_ 5 out (applyStep d g u b j.seed q.eta.toNat q.lambda.toNat s)
      .done (startOp d { opZero 0 j.id at_.queue at_.off 5 with
        dests := ds, srcs := (updReads u g).map fun h => .handle d h, cost := cost } es s)

/-- UPD_APPLY (R211). -/
def execUpdApply (at_ : Site) (args : UpdArgs) (s : State) : Result :=
  ok (runInstr at_ (.updApply at_ args) (issueUpd at_ args) s)

end Sys2Proof.Machine
end

