-- ==== Sys2Proof/Machine/Transfers.lean ====
section
/-! DEFINITION. The transfers of the tongs (R258 to R270): MOVE, GATHER, SCATTER, DGET and DPUT (R377, R378), and SDIGEST
(R440). -/

namespace Sys2Proof.Machine

/-! ### Checks -/

/-- KIND, ETYPE and WORD_BYTES agree (R258). -/
def sameKind (a b : Desc) : Bool :=
  a.kind == b.kind && (a.kind != 1 || a.etype == b.etype) && (a.kind != 2 || a.wordBytes == b.wordBytes)

/-- A descriptor has padding. -/
def Desc.padded (t : Desc) : Bool := t.padLo.any (· != 0) || t.padHi.any (· != 0)
/-- A descriptor has a zero stride (R262). -/
def Desc.zeroStride (t : Desc) : Bool := t.s0Zero || ((List.range t.rank).drop 1).any fun d => t.str d == 0

/-- The refusals of R261 to R263; `plain` says that the transfer is a MOVE. -/
def layoutCheck (src dst : Desc) (plain : Bool) : Verdict :=
  failIf (src.transpose || src.padded || dst.zeroStride ||
    (dst.transpose && (!plain || src.kind == 0 || 2 < src.space || 2 < dst.space || (src.kind == 1 && src.ety.block.isSome) ||
      src.rank < 2 || dst.rank < 2 || dst.dim 0 != src.dim 1 || dst.dim 1 != src.dim 0 ||
      (dst.kind == 1 && dst.ety.scaling == .tile && (dst.dim 0 % 128 != 0 || dst.dim 1 % 128 != 0))))) (.skip 0x0105)

/-- Element counts match (R258), except for an OBJECT into SCRATCH or RING (R269). -/
def countCheck (src dst : Desc) : Verdict :=
  failIf (!(src.kind == 0 && (dst.space == 0 || dst.space == 2)) && src.elems != slotCount src dst * dst.boxElems) (.skip 0x0102)

/-- Secret-marked data moves only into secret-marked handles (R163, R270). -/
def secretCheck (s : State) (src dst : Desc) : Verdict :=
  failIf (src.secret s && !(dst.space == 0 && (handleOf s dst.dieIx dst.handle).isSecret &&
    (!dst.scales || (handleOf s dst.dieIx dst.scaleHandle).isSecret))) (.skip 0x0105)

/-- A target flag is one that the transfer may set (R301, R370). -/
def flagCheck (s : State) (p : PartIx) (dst : Desc) (f : Option FlagTarget) : Verdict :=
  match f with
  | none => .pass
  | some f => failIf (if 256 ≤ f.flag then dst.space != 3 || 320 ≤ f.flag else (dieOf s f.die).owner != some p) (.skip 0x0102)

/-- A descriptor-table entry that a transfer names (R254, R257). -/
def entryCheck (s : State) (d : DieIx) (i : Nat) : Verdict :=
  match descOf s d i with
  | none => .skip 0x0105
  | some t => t.recheck s

/-- A transfer to or from a window (R362, R363). -/
def windowCheck (s : State) (j : Job) (t : Desc) : Verdict := if t.space = 3 then partRefused s j t.part else .pass

/-- The tongs that a transfer uses (R259): one only, with a RING or HOST end. -/
def tongsUsed (mask : BitVec 4) (one : Bool) : BitVec 4 :=
  if one then BitVec.ofNat 4 (2 ^ (((List.range 4).find? fun k => mask.getLsbD k).getD 0)) else mask

/-- The dies that bridge traffic passes from `a` to `b` (R14): it crosses to the other row at the source's column first, then
runs along that row. -/
def bridgeRoute (a b : DieIx) : List DieIx :=
  let row := b.val / 8
  let cross := if a.val / 8 = row then [] else [a]
  let run (n : Nat) (f : Nat → Nat) : List DieIx := (List.range (n + 1)).map fun i => ⟨(8 * row + f i) % 16, Nat.mod_lt _ (by decide)⟩
  let x := a.val % 8
  let y := b.val % 8
  cross ++ (if x ≤ y then run (y - x) (x + ·) else run (x - y) (x - ·))

/-- Bridge hops between two dies (R14). -/
def bridgeHops (a b : DieIx) : Nat := (bridgeRoute a b).length - 1

/-- Time of a transfer in ac for the paths that R260 gives in ac; the setup time for the others. -/
def xferCost (d : DieIx) (src dst : Desc) (tongs : Nat) : Nat :=
  if src.space = 4 || dst.space = 4 then 1440
  else if src.space = 3 || dst.space = 3 then 90
  else
    let hops := bridgeHops d src.dieIx + bridgeHops d dst.dieIx
    let runs := mergeRuns (src.offs.map fun o => ((src.offset : Int) * 8 + o * src.bits |>.toNat, List.replicate src.bits (0 : Byte)))
    8 + 12 * hops + ceilDiv ((runs.map fun r => ceilDiv (ceilDiv r.2.length 8) 288 * 288).sum) (576 * tongs)

/-! ### Hallmark lists (R441) -/

/-- The role of a job on a die. -/
def roleOn (j : Job) (d : DieIx) : Nat := (j.dies.findIdx? fun x => x == d).getD 0

/-- Enter the content digest of a store handle that a transfer reads, computing it where it is not valid (R440, R441). -/
def noteWeight (d : DieIx) (j : Job) (t : Desc) (s : State) : State :=
  if t.space != 1 || !j.wantHallmark then s
  else
    let e := storeOf s t.dieIx t.handle
    let dg := e.digest.getD (chunkDigest (storeBytes s t.dieIx t.handle 0 (e.rows * rowBytes)))
    let s := updStore t.dieIx t.handle (fun e => { e with digest := some dg }) s
    updJob j.id (fun j =>
      if ((j.weights.filter fun w => w.src == some (t.dieIx, t.handle)).getLast?.map (·.digest)) = some dg then j
      else { j with weights := j.weights ++ [{ role := roleOn j d, src := some (t.dieIx, t.handle), digest := dg }] }) s

/-- Enter the source bytes of a HOST source, or a place for those of a WINDOW source; answers the place. -/
def noteInput (d : DieIx) (j : Job) (t : Desc) (n : Nat) (host : List Byte) (s : State) : Option Nat × State :=
  if !(t.space == 3 || t.space == 4) || !j.wantHallmark then (none, s)
  else
    let dg := if t.space = 4 then chunkDigest (bytesAt host 0 (ceilDiv (n * t.bits) 8)) else []
    let k := ((jobOf s j.id).getD j).inputs.length
    (if t.space = 3 then some k else none,
      updJob j.id (fun j => { j with inputs := j.inputs ++ [{ role := roleOn j d, src := none, digest := dg }] }) s)

/-! ### Starting a transfer -/

/-- The header of an object source in this part. -/
def objHead (s : State) (t : Desc) (slot : Nat) : Header :=
  let (m, b) := Desc.mem s t slot t.handle
  headerOfBytes (memBytes m (b + t.offset) 64)

/-- Data bound for a WINDOW or HOST destination may leave: not poisoned, not degraded (R62, R65, R269). Only the header of an
OBJECT says that it is degraded: the handle table has no such mark, so rows of a degraded object that leave as WORDS or TENSOR
are not withheld (DESIGN CHOICE, log 39). -/
def outputRefused (s : State) (src : Desc) (slot : Nat) (poison : Option Ev) : Option (Option Ev) :=
  let isObj := src.kind == 0 && src.space ≤ 2
  match poison with
  | some e => some (some e)
  | none =>
    if isObj && (objHead s src slot).poisoned then some (some 0x0107)
    else if isObj && (objHead s src slot).degraded then some none else none

/-- Note a refused output on the job (R294). -/
def noteRefused (j : Job) (r : Option Ev) (s : State) : State :=
  updJob j.id (fun j => match r with
    | some e => { j with refusedPoison := some (j.refusedPoison.getD e) }
    | none => { j with refusedDegraded := true }) s

/-- The host port and function of a job's HOST ends (R271, R384). -/
def hostEnd (s : State) (j : Job) (q : XferReq) : Option (HostId × Nat) :=
  if (q.src :: q.dst :: q.idx.toList).any (·.space == 4) then some ((partOfIx s j.part).ownerPort, (partOfIx s j.part).ownerFn) else none

/-- The ring slot that a transfer into a ring claims at issue (R244). -/
def claimDest (t : Desc) (s : State) : List (Nat × Nat) × State :=
  if t.space = 2 then
    match claimFill t.dieIx t.handle s with
    | some c => ([(t.handle, c.1)], c.2)
    | none => ([], s)
  else ([], s)

/-- The windows that a transfer names. -/
def XferReq.windows (q : XferReq) : List Piece :=
  match q.work with
  | .get _ | .put .. => q.pieces
  | _ => ((q.src :: q.dst :: q.idx.toList).filter (·.space == 3)).map (·.piece)

/-- What a transfer writes, and what it reads in this part. -/
def XferReq.dests (q : XferReq) : List Dest :=
  match q.work with | .put .. => q.pieces.map fun w => .window w.part w.window | _ => q.dst.dests
/-- What a transfer reads in this part. -/
def XferReq.srcs (q : XferReq) : List Dest :=
  match q.work with | .get _ => [] | _ => q.src.dests ++ (match q.idx with | some t => t.dests | none => [])

/-- A transfer as it issues: nothing of it done (R258). -/
def xferOf (q : XferReq) (host : Option (HostId × Nat)) (carry : Option Ev) (hall : Option Nat) (rf : Option (Nat × Nat)) : Xfer :=
  { dst := q.dst, srcSpace := q.src.space, todo := some q, begun := false, placed := false, plans := [], add := q.add, host := host
    hostWrites := [], cursor := 0, stalled := false, group := none, pages := [], pieces := q.windows, bufs := [], carry := carry
    hall := hall, remoteFlag := rf }

/-- Put a transfer in flight: its ring slots are claimed, its sources entered in the job's lists, and its tongs take it up if
they are free (R244, R258, R259). `us` and `slots` are its ring sources, `more` what it reads beside its descriptors. -/
def startXfer (at_ : Site) (q : XferReq) (j : Job) (us : List (Nat × Bool)) (slots : List Nat) (more : List Dest) (es : List SbEntry)
    (s : State) : State :=
  let d := at_.die
  let far := q.dst.space == 3
  let (rf, lf) := match q.flag with
    | some f => if far && decide (256 ≤ f.flag) then (some f.flag, none) else (none, some f)
    | none => (none, none)
  let carry := (q.src.poison s).or (match q.idx with | some t => t.poison s | none => none)
  let s := noteWeight d j q.src s
  let s := match q.idx with | some t => noteWeight d j t s | none => s
  let (hall, s) := noteInput d j q.src q.elems q.host s
  let s := claimTakes d us s
  let (fills, s) := claimDest q.dst s
  let o := { opZero 0 j.id at_.queue at_.off 6 with
    dests := q.dests, srcs := q.srcs ++ more, fills := fills
    takes := takeClaims us slots, tongs := q.tongs, flag := lf, cost := xferCost d q.src q.dst (tongCount q.tongs)
    xfer := some (xferOf q (hostEnd s j q) carry hall (rf.map fun f => (if q.src.space = 3 then 1 else 0, f))) }
  takeUp d s.nextId (startOp d o es s)

/-- The scoreboard ranges of a transfer: its ends in the issuing die's scratchpad (R236, R239). -/
def xferRanges (s : State) (d : DieIx) (srcs dsts : List Desc) : List SbEntry :=
  (srcs.filter fun t => t.dieIx == d).flatMap (fun t => t.rowRanges s false) ++
  (dsts.filter fun t => t.dieIx == d).flatMap (fun t => t.rowRanges s true)

/-- A ring destination has a free slot (R244). -/
def slotFree (s : State) (t : Desc) : Bool :=
  t.space != 2 || decide (diff32 (ringOf s t.dieIx t.handle).fill (ringOf s t.dieIx t.handle).head < (ringOf s t.dieIx t.handle).slots)

/-- Ring uses of a source: a releasing consumer (log 28). -/
def srcRing (t : Desc) : List (Nat × Bool) := if t.space = 2 then [(t.handle, true)] else []

/-- The ring that a transfer fills, as a use that takes no slot. -/
def dstRing (t : Desc) : List (Nat × Bool) := if t.space = 2 then [(t.handle, false)] else []

/-- The check of the rings that a transfer names (R243, R244). -/
def ringVerdict (s : State) (d : DieIx) (us : List (Nat × Bool)) : Verdict :=
  match ringCheck s d us with | some e => .skip e | none => .pass

/-- The ring uses of a transfer's sources, in operand order. -/
def XferReq.rings (q : XferReq) : List (Nat × Bool) := srcRing q.src ++ (match q.idx with | some t => srcRing t | none => [])

/-- The first rows of the ring slots that a transfer's sources take. -/
def XferReq.withSlots (s : State) (d : DieIx) (q : XferReq) (slots : List Nat) : XferReq :=
  let row (t : Desc) (k : Nat) : Nat := if t.space = 2 then slotRow (ringOf s d t.handle) (slots.getD k 0) else 0
  { q with srcSlot := row q.src 0
           idxSlot := match q.idx with | some t => row t (srcRing q.src).length | none => 0 }

/-- Poisoned data bound for a window or the host fails check 1 of R57, and the completion is withheld with the event that
poisoned it; degraded data is not sent (R57, R62, R64, R65, R269). -/
def refuseOutput (j : Job) (at_ : Site) (ds : List Dest) (r : Option Ev) (s : State) : State :=
  match r with
  | some e => refuseInstr 0x0107 e j at_ 6 ds (noteRefused j r s)
  | none => noteRefused j r (nameDests j.id ds s)

/-- A checked transfer waits for its slots and the scoreboard, and starts; outputs of poisoned or degraded data are not made
(R244, R237, R269). -/
def goXfer (at_ : Site) (q : XferReq) (j : Job) (s : State) : Issued :=
  let d := at_.die
  let us := q.rings
  let rs := xferRanges s d (q.src :: q.idx.toList) [q.dst]
  match ringSlots s d us with
  | none => .wait (ringWait s d us) rs
  | some slots =>
    if !(slotFree s q.dst) then .wait (.ring q.dst.handle false) rs
    else withScoreboard d rs s fun es s =>
      let q := q.withSlots s d slots
      let out := if q.dst.space = 3 || q.dst.space = 4 then outputRefused s q.src q.srcSlot (q.src.poison s) else none
      match out with
      | some r => .done (refuseOutput j at_ q.dst.dests r s)
      | none => .done (startXfer at_ q j us slots [] es s)

/-! ### MOVE (R258 to R264, R269 to R272) -/

/-- Issue MOVE. -/
def issueMove (at_ : Site) (g : MoveArgs) (j : Job) (s : State) : Issued :=
  let d := at_.die
  let ds := descDests s d [g.dst]
  match descOf s d g.src, descOf s d g.dst with
  | some src, some dst =>
    let pre := firstFail [src.recheck s, dst.recheck s, failIf (g.mask == 0) (.skip 0x0105), failIf (!(sameKind src dst)) (.skip 0x0102),
      layoutCheck src dst true, countCheck src dst, secretCheck s src dst, flagCheck s j.part dst g.flag,
      ringVerdict s d (srcRing src ++ dstRing dst), windowCheck s j src, windowCheck s j dst]
    if pre != .pass then .done (onVerdict pre j at_ 6 ds s id)
    else
      let one := src.space == 2 || src.space == 4 || dst.space == 2 || dst.space == 4
      goXfer at_ { work := .move, src := src, dst := dst, idx := none, srcSlot := 0, idxSlot := 0, tongs := tongsUsed g.mask one
                   flag := g.flag, host := g.host, idxHost := [], add := false, pieces := [], elems := src.elems } j s
  | _, _ => .done (skipInstr 0x0105 j at_ 6 ds s)

/-- MOVE (R258). -/
def execMove (at_ : Site) (args : MoveArgs) (s : State) : Result :=
  ok (runInstr at_ (.move at_ args) (issueMove at_ args) s)

/-! ### GATHER and SCATTER (R265 to R268) -/

/-- The index descriptor is WORDS, SIGNED, of 4 or 8 bytes, RANK 1 (R265). -/
def indexOk (t : Desc) : Bool := t.kind == 2 && t.signed && (t.wordBytes == 2 || t.wordBytes == 3) && t.rank == 1

/-- Sizes inside the padding agree except along a dimension (R263, R265). -/
def slabShape (a b : Desc) (d : Nat) : Bool :=
  a.rank == b.rank && (List.range a.rank).all fun e => e == d || b.boxDim e == a.boxDim e

/-- Checks that GATHER and SCATTER share; the destination lies in the issuing die's scratchpad. -/
def indexedPre (s : State) (at_ : Site) (j : Job) (g : IndexedArgs) (src idx dst : Desc) : List Verdict :=
  [src.recheck s, idx.recheck s, dst.recheck s, failIf (g.mask == 0) (.skip 0x0105), failIf (!(sameKind src dst) || src.kind == 0) (.skip 0x0102),
   failIf (dst.space != 0 || dst.dieIx != at_.die) (.skip 0x0105), failIf (!(indexOk idx)) (.skip 0x0102),
   layoutCheck src dst false, secretCheck s src dst, secretCheck s idx dst, flagCheck s j.part dst g.flag,
   ringVerdict s at_.die (srcRing src ++ srcRing idx), windowCheck s j src, windowCheck s j idx]

/-- The transfer of a GATHER or SCATTER. -/
def indexedReq (work : XferWork) (g : IndexedArgs) (src idx dst : Desc) (tongs : BitVec 4) (add : Bool) (n : Nat) : XferReq :=
  { work := work, src := src, dst := dst, idx := some idx, srcSlot := 0, idxSlot := 0, tongs := tongs, flag := g.flag, host := g.host
    idxHost := g.idxHost, add := add, pieces := [], elems := n }

/-- Issue GATHER. -/
def issueGather (at_ : Site) (g : IndexedArgs) (j : Job) (s : State) : Issued :=
  let d := at_.die
  let ds := descDests s d [g.dst]
  match descOf s d g.src, descOf s d g.idx, descOf s d g.dst with
  | some src, some idx, some dst =>
    let pre := firstFail (indexedPre s at_ j g src idx dst ++
      [failIf (!(src.space == 0 || src.space == 1 || src.space == 3)) (.skip 0x0105),
       failIf (!(slabShape src dst src.indexDim) || dst.boxDim src.indexDim != idx.elems) (.skip 0x0102)])
    if pre != .pass then .done (onVerdict pre j at_ 6 ds s id)
    else goXfer at_ (indexedReq .gather g src idx dst g.mask false dst.elems) j s
  | _, _, _ => .done (skipInstr 0x0105 j at_ 6 ds s)

/-- GATHER (R265). -/
def execGather (at_ : Site) (args : IndexedArgs) (s : State) : Result :=
  ok (runInstr at_ (.gather at_ args) (issueGather at_ args) s)

/-- Types that ADD accepts (R268). -/
def addOk (t : Desc) : Bool :=
  (t.kind == 1 && (t.ety.kind == .fp32 || t.ety.kind == .bf16)) || (t.kind == 2 && (t.wordBytes == 2 || t.wordBytes == 3))

/-- Issue SCATTER: one tong in STORE mode, in reproducible mode, and with a RING or HOST end (R259, R268). -/
def issueScatter (at_ : Site) (g : IndexedArgs) (add : Bool) (j : Job) (s : State) : Issued :=
  let d := at_.die
  let ds := descDests s d [g.dst]
  match descOf s d g.src, descOf s d g.idx, descOf s d g.dst with
  | some src, some idx, some dst =>
    let pre := firstFail (indexedPre s at_ j g src idx dst ++
      [failIf (!(slabShape src dst dst.indexDim) || src.dim dst.indexDim != idx.elems) (.skip 0x0102), failIf (add && !(addOk dst)) (.skip 0x0102)])
    if pre != .pass then .done (onVerdict pre j at_ 6 ds s id)
    else
      let tongs := tongsUsed g.mask (!add || j.reproducible || src.space == 2 || src.space == 4)
      goXfer at_ (indexedReq (.scatter j.reproducible) g src idx dst tongs add src.elems) j s
  | _, _, _ => .done (skipInstr 0x0105 j at_ 6 ds s)

/-- SCATTER, STORE or ADD (R268). -/
def execScatter (at_ : Site) (args : IndexedArgs) (addMode : Bool) (s : State) : Result :=
  ok (runInstr at_ (.scatter at_ args addMode) (issueScatter at_ args addMode) s)

/-! ### SDIGEST (R440) -/

/-- SDIGEST: the content digest of a store handle. -/
def execSdigest (at_ : Site) (index : Nat) (s : State) : Result :=
  ok (runInstr at_ (.sdigest at_ index) (fun j s =>
    let d := at_.die
    let e := storeOf s d index
    if !e.valid then .done (skipInstr 0x0104 j at_ 6 [] s)
    else .done (updStore d index (fun e => { e with
      digest := some (chunkDigest (storeBytes s d index 0 (e.rows * rowBytes))) }) s)) s)

/-! ### Owner tables (R377, R378) -/

/-- The head of an owner table (R377). -/
structure OwnHead where
  rank : Nat
  kind : Nat
  wordBytes : Nat
  etype : Nat
  epoch : Nat
  blocks : Nat
  size : List Nat
  block : List Nat
  deriving DecidableEq, Repr

/-- Read the head. -/
def ownHead (b : List Byte) : OwnHead :=
  { rank := bitsOf (fieldAt b 2 1) 0 3, kind := bitsOf (fieldAt b 3 1) 0 2, wordBytes := bitsOf (fieldAt b 3 1) 2 2
    etype := fieldAt b 4 1, epoch := fieldAt b 8 4, blocks := fieldAt b 0x0C 4
    size := (List.range 5).map fun d => fieldAt b (0x10 + 4 * d) 4
    block := (List.range 5).map fun d => fieldAt b (0x24 + 4 * d) 4 }

/-- The grid of blocks. -/
def OwnHead.grid (h : OwnHead) : List Nat := (List.range h.rank).map fun d => ceilDiv (h.size.getD d 0) (h.block.getD d 1)

/-- The head and the entries are right (R377). -/
def ownSound (b : List Byte) : Bool :=
  let h := ownHead b
  fieldAt b 0 2 == 0xC70E && bitsOf (fieldAt b 2 1) 3 5 == 0 && bitsOf (fieldAt b 3 1) 4 4 == 0 && allZero (bytesAt b 5 3) &&
  allZero (bytesAt b 0x38 4) && decide (1 ≤ h.rank ∧ h.rank ≤ 5) &&
  (match h.kind with | 1 => (etypeOf h.etype).isSome && h.wordBytes == 0 | 2 => h.etype == 0 | _ => false) &&
  (List.range 5).all (fun d => if d < h.rank then decide (1 ≤ h.size.getD d 0 ∧ 1 ≤ h.block.getD d 0) else h.size.getD d 0 == 0 && h.block.getD d 0 == 0) &&
  h.blocks == h.grid.foldl (· * ·) 1 &&
  fieldAt b 0x3C 4 == (crc32c (bytesAt b 0 0x3C ++ bytesAt b 0x40 (16 * h.blocks))).toNat

/-- Entry `k`: its piece and the byte offset of its block. -/
def ownEntry (b : List Byte) (k : Nat) : Piece × Nat :=
  let o := 0x40 + 16 * k
  ({ part := bitsOf (fieldAt b o 2) 0 14, window := fieldAt b (o + 2) 2, wgen := fieldAt b (o + 4) 4 }, fieldAt b (o + 8) 8)

/-- The block of a global position and the element's place in it, dimension 0 fastest, edge blocks being smaller (R377). -/
def ownPlace (h : OwnHead) (ix : List Nat) : Nat × Nat :=
  let g := h.grid
  (List.range h.rank).foldr (fun d (a : Nat × Nat) =>
    let i := ix.getD d 0
    let n := h.block.getD d 1
    let m := Nat.min n (h.size.getD d 0 - i / n * n)
    (i / n + g.getD d 1 * a.1, i % n + m * a.2)) (0, 0)

/-- The tuple of linear position `n` in a box. -/
def boxTuple : List Nat → Nat → List Nat
  | [], _ => []
  | m :: t, n => n % m :: boxTuple t (n / m)

/-- A box lies inside SIZE. -/
def boxInside (h : OwnHead) (origin box : List Nat) : Bool :=
  origin.length == h.rank && box.length == h.rank && (List.range h.rank).all fun d =>
    decide (1 ≤ box.getD d 0 ∧ origin.getD d 0 + box.getD d 0 ≤ h.size.getD d 0)

/-- The blocks that a box touches, in order of first use, with each element's block number and place. -/
def boxPlaces (h : OwnHead) (origin box : List Nat) : List (Nat × Nat) :=
  (List.range (box.foldl (· * ·) 1)).map fun n => ownPlace h (List.zipWith (· + ·) origin (boxTuple box n))

/-- Distinct block numbers. -/
def blocksOf (ps : List (Nat × Nat)) : List Nat := ps.foldl (fun l p => if l.contains p.1 then l else l ++ [p.1]) []

/-- The checks of R378 on the table and box. -/
def ownCheck (s : State) (j : Job) (b : List Byte) (origin box : List Nat) : Verdict :=
  let h := ownHead b
  if !(ownSound b) || !(boxInside h origin box) then .refuse 0x0105 0x0105
  else
    let es := (List.range h.blocks).map fun k => (ownEntry b k).1.part
    firstFail [failIf (h.epoch != j.epoch || es.any fun p => !(epochMembers s j.epoch).contains p) (.refuse 0x0506 0x0506),
      failIf (es.any fun p => s.fabric.losses.contains p) (.refuse 0x0503 0x0503)]

/-- The local descriptor of DGET or DPUT agrees with the table and box (R258). -/
def ownLocal (t : Desc) (h : OwnHead) (box : List Nat) : Bool :=
  t.kind == h.kind && t.etype == h.etype && t.wordBytes == h.wordBytes && t.elems == box.foldl (· * ·) 1 && !t.scales

/-- The table's bytes in its handle. -/
def ownTable (s : State) (d : DieIx) (h : Nat) : List Byte := handleBytes s d h 0 ((handleOf s d h).rows * rowBytes)

/-- Checks that DGET and DPUT share before they wait. -/
def ownPre (s : State) (d : DieIx) (table : Nat) (t : Option Desc) : Verdict :=
  firstFail [match handleUse s d table with | some e => .skip e | none => .pass,
    match t with
    | none => .skip 0x0105
    | some t => firstFail [t.recheck s, failIf (2 ≤ t.space || t.transpose || t.padded) (.skip 0x0105), failIf (t.secret s) (.skip 0x0105)]]

/-- The table's handle as a scoreboard range. -/
def tableRange (s : State) (d : DieIx) (table : Nat) : SbEntry := handleRange s d table 0 (handleOf s d table).rows false

/-- The transfer of a DGET: element `k` of the destination comes from its block's window, through one read for each block (R378);
it runs on T0 (log 38). -/
def getReq (b : List Byte) (ps : List (Nat × Nat)) (t : Desc) : XferReq :=
  let bl := blocksOf ps
  let cell (p : Nat × Nat) : Cell := .far ((bl.findIdx? fun k => k == p.1).getD 0) (8 * (ownEntry b p.1).2 + t.bits * p.2)
  { work := .get { cells := ps.zipIdx.map fun p => (t.off (t.tuple p.2), cell p.1), pads := [], scales := [] }
    src := { t with space := 3 }, dst := t, idx := none, srcSlot := 0, idxSlot := 0, tongs := 1, flag := none, host := [], idxHost := []
    add := false, pieces := bl.map fun k => (ownEntry b k).1, elems := t.elems }

/-- The transfer of a DPUT: each element of the source goes to its place in its block (R378). -/
def putReq (b : List Byte) (ps : List (Nat × Nat)) (t : Desc) : XferReq :=
  let bl := blocksOf ps
  { work := .put ps (bl.map fun k => (k, (ownEntry b k).2)), src := t, dst := { t with space := 3 }, idx := none, srcSlot := 0
    idxSlot := 0, tongs := 1, flag := none, host := [], idxHost := [], add := false, pieces := bl.map fun k => (ownEntry b k).1
    elems := t.elems }

/-- DGET (R378): each element of the box is read through its owner's window and lands in the destination in linear order. -/
def issueDget (at_ : Site) (table : Nat) (origin box : List Nat) (dst : Nat) (j : Job) (s : State) : Issued :=
  let d := at_.die
  let ds := descDests s d [dst]
  let pre := ownPre s d table (descOf s d dst)
  match descOf s d dst with
  | none => .done (onVerdict pre j at_ 6 ds s id)
  | some t =>
    if pre != .pass then .done (onVerdict pre j at_ 6 ds s id)
    else withScoreboard d (tableRange s d table :: xferRanges s d [] [t]) s fun es s =>
      let b := ownTable s d table
      let h := ownHead b
      let v := firstFail [handlesPoison s d [table], ownCheck s j b origin box,
        failIf t.zeroStride (.skip 0x0105), failIf (!(ownLocal t h box)) (.skip 0x0102)]
      if v != .pass then .done (onVerdict v j at_ 6 ds s id)
      else
        .done (startXfer at_ (getReq b (boxPlaces h origin box) t) j [] [] [.handle d table] es s)

/-- DGET (R378). -/
def execDget (at_ : Site) (table : Nat) (origin box : List Nat) (dst : Nat) (s : State) : Result :=
  ok (runInstr at_ (.dget at_ table origin box dst) (issueDget at_ table origin box dst) s)

/-- DPUT (R378): each element of the source goes to its place through its owner's window; poisoned data is not written (R269). -/
def issueDput (at_ : Site) (src table : Nat) (origin box : List Nat) (j : Job) (s : State) : Issued :=
  let d := at_.die
  let pre := ownPre s d table (descOf s d src)
  match descOf s d src with
  | none => .done (onVerdict pre j at_ 6 [] s id)
  | some t =>
    if pre != .pass then .done (onVerdict pre j at_ 6 [] s id)
    else withScoreboard d (tableRange s d table :: xferRanges s d [t] []) s fun es s =>
      let b := ownTable s d table
      let h := ownHead b
      let v := firstFail [handlesPoison s d [table], ownCheck s j b origin box, failIf (!(ownLocal t h box)) (.skip 0x0102)]
      if v != .pass then .done (onVerdict v j at_ 6 [] s id)
      else match t.poison s with
        | some e => .done (refuseOutput j at_ [] (some e) s)
        | none => .done (startXfer at_ (putReq b (boxPlaces h origin box) t) j [] [] [.handle d table] es s)

/-- DPUT (R378). -/
def execDput (at_ : Site) (src table : Nat) (origin box : List Nat) (s : State) : Result :=
  ok (runInstr at_ (.dput at_ src table origin box) (issueDput at_ src table origin box) s)

end Sys2Proof.Machine
end

