-- ==== Sys2Proof/Machine/Remote.lean ====
section
/-! DEFINITION. What comes back to a transfer: page faults and their responses (R271 to R277, R395), and the answers of other
parts (R349, R357, R361, R369, R370). -/

namespace Sys2Proof.Machine

/-- Change the transfer of an operation in flight. -/
def updXfer (d : DieIx) (id : Nat) (f : Xfer → Xfer) (s : State) : State :=
  updOp d id (fun o => { o with xfer := o.xfer.map f }) s

/-! ### Page faults -/

/-- PAGE_NOT_PRESENT (R273 to R276): the tong keeps what stands before its cursor, stops, and sends one Page Request Group. What a bench
member's function may send is for its gateway to see (R399). -/
def execPageNotPresent (die : DieIx) (op cursor : Nat) (pages : List Nat) (s : State) : Result :=
  ok (match opOf s die op with
    | none => s
    | some o => match o.xfer, jobOf s o.job with
      | some x, some _ => match x.host with
        | none => s
        | some (h, fn) =>
          let far := (gatewayOfOp s o).isSome
          if !x.begun || x.stalled || (!far && !(hostOf s h).ats.contains fn) || cursor < x.cursor then s
          else
            let s := if x.dst.space = 4 then emitHost die o x x.cursor cursor s else s
            let s := if far then s else updHost h (fun p => { p with cached := p.cached.filter fun c => !(c.1 == fn && pages.contains c.2) }) s
            let s := updXfer die op (fun x => { x with cursor := cursor }) s
            if !far && (hostOf s h).priFailed.contains fn then failOp die o 6 0x0601 s
            else if !far && !(hostOf s h).pri.contains fn then failOp die o 6 0x0602 s
            else
              let s := updXfer die op (fun x => { x with stalled := true, group := none, pages := pages }) s
              match opOf s die op with
              | some o => sendGroup h die o s
              | none => s
      | _, _ => s)

/-- The outstanding Page Request Group with an index at a host port, of this part or at the gateway's port (R399). -/
def groupOf (s : State) (h : HostId) (g : Nat) : Option (Nat × DieIx × Nat) :=
  ((hostOf s h).groups.find? fun x => x.1 == g).or
    ((s.fabric.benchGroups.find? fun x => x.1 == h && x.2.1 == g).map (·.2))

/-- A group is outstanding no more. -/
def dropGroup (h : HostId) (g : Nat) (s : State) : State :=
  updHost h (fun p => { p with groups := p.groups.filter fun x => x.1 != g })
    { s with fabric := { s.fabric with benchGroups := s.fabric.benchGroups.filter fun x => !(x.1 == h && x.2.1 == g) } }

/-- The die of a host port (R381). -/
def hostDie : HostId → DieIx
  | .a => 0
  | .b => 8

/-- A response to a group given up is discarded and counted (R277). -/
def lateGroup (h : HostId) (g : Nat) (s : State) : State :=
  match (hostOf s h).lateGroups.find? fun x => x.1 == g with
  | some x => countLate x.2 (updHost h (fun p => { p with lateGroups := p.lateGroups.erase x }) s)
  | none => s

/-- A response for a bench member's group reaches this gateway: it is forwarded (R399), or belongs to a group given up. -/
def benchResponse (h : HostId) (g : Nat) (code : PriCode) (s : State) : State :=
  match (hostOf s h).benchGroups.find? fun x => x.1 == g with
  | some (_, m, tag) =>
    let s := updHost h (fun p => { p with
      benchGroups := p.benchGroups.filter fun x => x.1 != g, priFailed := if code = .responseFailure then p.priFailed ++ [m.fn] else p.priFailed }) s
    sendMsg .bench (hostDie h) m.part 0 (fun v => .forwardedResponse v m tag code) s
  | none => lateGroup h g s

/-- Stalled transfers of a function that may send no page request any more fail (R275). -/
def failWaiting (h : HostId) (fn : Nat) (s : State) : State :=
  let hit (o : Op) : Bool := match o.xfer with | some x => x.stalled && x.group.isNone && (gatewayOfOp s o).isNone && x.host == some (h, fn) | none => false
  allDies.foldl (fun s d => ((dieOf s d).ops.filter hit).foldl (fun s o => if (opOf s d o.id).isSome then failOp d o 6 0x0601 s else s) s) s

/-- PAGE_REQUEST_RESPONSE (R273 to R277): Success resumes the tong at its cursor; anything else fails the transfer, and after a
Response Failure the function sends no page request until it is reset. -/
def execPageRequestResponse (port : HostId) (group : Nat) (code : PriCode) (s : State) : Result :=
  ok (
    let s := match groupOf s port group with
      | none => benchResponse port group code s
      | some (_, d, id) =>
        let s := dropGroup port group s
        match opOf s d id with
        | none => s
        | some o => match o.xfer with
          | none => s
          | some x =>
            let fn := match x.host with | some e => e.2 | none => 0
            let far := (gatewayOfOp s o).isSome
            match code with
            | .success =>
              updXfer d id (fun x => { x with stalled := false, group := none, pages := [] }) (if far then s else requestPages port fn x.pages s)
            | .invalidRequest => failOp d o 6 0x0601 s
            | .responseFailure =>
              if far then failOp d o 6 0x0601 s
              else failWaiting port fn (failOp d o 6 0x0601 (updHost port (fun p => { p with priFailed := p.priFailed ++ [fn] }) s))
      sendWaiting port s)

/-- PAGE_REQUEST_TIMEOUT (R275): the group stops counting toward the 32, and the transfer fails. -/
def execPageRequestTimeout (port : HostId) (group : Nat) (s : State) : Result :=
  ok (match groupOf s port group with
    | none => sendWaiting port (updHost port (fun p => { p with benchGroups := p.benchGroups.filter fun x => x.1 != group }) s)
    | some (_, d, id) => match opOf s d id with
      | none => s
      | some o => failOp d o 6 0x0601 s)

/-- A transfer with a HOST end fails with 0x0602 TRANSLATION_ERROR; `reads` asks for a HOST source. -/
def hostFail (die : DieIx) (op : Nat) (reads : Bool) (s : State) : State :=
  match opOf s die op with
  | none => s
  | some o => match o.xfer with
    | some x => if x.host.isSome && !(reads && x.dst.space == 4) then failOp die o 6 0x0602 s else s
    | none => s

/-- TRANSLATION_ERROR (R276). -/
def execTranslationError (die : DieIx) (op : Nat) (s : State) : Result := ok (hostFail die op false s)
/-- READ_COMPLETION_ERROR (R395). -/
def execReadCompletionError (die : DieIx) (op : Nat) (s : State) : Result := ok (hostFail die op true s)
/-- READ_COMPLETION_TIMEOUT (R395). -/
def execReadCompletionTimeout (die : DieIx) (op : Nat) (s : State) : Result := ok (hostFail die op true s)

/-- ATS_INVALIDATION (R271): the page leaves the translation cache and the invalidation completes. -/
def execAtsInvalidation (port : HostId) (page : Nat) (s : State) : Result :=
  ok (emit (.atsDone port page) (updHost port (fun p => { p with cached := p.cached.filter fun c => c.2 != page }) s))

/-! ### Answers of other parts -/

/-- The request that an answer names. -/
def requestOf (s : State) (p : Packet) : Option Request :=
  s.fabric.requests.find? fun r => r.tag == p.rtag.toNat && r.dstPart == p.srcPart && r.die == p.dstDie

/-- Drop an answered request. -/
def dropRequest (r : Request) (s : State) : State :=
  { s with fabric := { s.fabric with requests := s.fabric.requests.erase r } }

/-- Send the remote flag of a transfer whose writes have all been acknowledged (R370). -/
def sendRemoteFlag (d : DieIx) (id : Nat) (s : State) : State :=
  match opOf s d id with
  | none => s
  | some o => match o.xfer, jobOf s o.job with
    | some x, some j =>
      if !x.plans.isEmpty || !(reqsOf s d id .write).isEmpty || !(reqsOf s d id .read).isEmpty then s
      else match x.remoteFlag with
        | some (k, f) => match x.pieces[k]? with
          | some w => sendReq d j id .flag k w f 0 [] (updXfer d id (fun x => { x with remoteFlag := none }) s)
          | none => s
        | none => s
    | _, _ => s

/-- ACK (R349, R370): the write or flag set is done. -/
def execAck (s : State) : Result :=
  ok (match takeArrived (fun x => x.2.ptype == 4) s with
    | none => s
    | some ((_, p), s) => match requestOf s p with
      | some r =>
        if r.kind = .read then countLate p.dstDie s
        else sendRemoteFlag r.die r.op (dropRequest r s)
      | none => countLate p.dstDie s)

/-- READ_DATA (R369): the bytes join the transfer, which goes on once every read has come. -/
def execReadData (s : State) : Result :=
  ok (match takeArrived (fun x => x.2.ptype == 3) s with
    | none => s
    | some ((_, p), s) => match requestOf s p with
      | some r =>
        if r.kind ≠ .read || p.data.length ≠ r.len then countLate p.dstDie s
        else pump r.die r.op (updXfer r.die r.op (fun x => { x with
          bufs := tblSet x.bufs r.piece (memPut (tblGetD x.bufs r.piece []) r.off p.data) }) (dropRequest r s))
      | none => countLate p.dstDie s)

/-- TRANSFER_TIMEOUT (R357): a transfer with unanswered requests fails. -/
def execTransferTimeout (die : DieIx) (op : Nat) (s : State) : Result :=
  ok (match opOf s die op with
    | none => s
    | some o => if s.fabric.requests.any (fun r => r.die == die && r.op == op) then failOp die o 6 0x0401 s else s)

end Sys2Proof.Machine
end

