-- ==== Sys2Proof/Machine/Collectives.lean ====
section
/-! DEFINITION. Collectives (R371 to R376): the descriptor, issue on a member, the exchange of heads and data (log 32), the result,
and failure. -/

namespace Sys2Proof.Machine

/-! ### The collective descriptor (R371) -/

/-- A collective descriptor's head. -/
structure CollHead where
  op : Nat
  red : Nat
  members : List Nat
  rank : Nat
  id : Nat
  root : Nat
  window : Nat
  count : Nat
  deriving DecidableEq, Repr

/-- Read the head and member list. -/
def collHead (b : List Byte) : CollHead :=
  { op := bitsOf (fieldAt b 2 1) 0 4, red := bitsOf (fieldAt b 2 1) 4 4
    members := (List.range (fieldAt b 4 2)).map fun r => fieldAt b (0x40 + 4 * r) 4
    rank := fieldAt b 6 2, id := fieldAt b 8 8, root := fieldAt b 0x10 2, window := fieldAt b 0x12 2, count := fieldAt b 0x14 4 }

/-- The head is right: tag, ranges, reserved bytes, check, and the member entry of this rank names this part and die. -/
def collSound (s : State) (d : DieIx) (op : Nat) (b : List Byte) : Bool :=
  let h := collHead b
  fieldAt b 0 2 == 0xC7C5 && h.op == op && fieldAt b 3 1 == 0 && allZero (bytesAt b 0x18 0x24) &&
  decide (2 ≤ h.members.length ∧ h.members.length ≤ 4096 ∧ h.rank < h.members.length ∧ h.red ≤ 6) && h.id != 0 &&
  (if op = 4 then decide (h.root < h.members.length) else h.root == 0) && ((op == 1 || op == 2) == (h.red != 0)) &&
  (h.red != 6 || op == 1) && h.members.all (fun m => bitsOf m 14 2 == 0 && decide (m < 2 ^ 20)) &&
  h.members[h.rank]? == some (s.fabric.partId + d.val * 2 ^ 16) &&
  fieldAt b 0x3C 4 == (crc32c (bytesAt b 0 0x3C ++ bytesAt b 0x40 (4 * h.members.length))).toNat

/-- The CRC-32C that the members exchange: the head with RANK taken as zero, COLL_CHECK as it is then, and the member list (R372, log 32). -/
def collCrc (b : List Byte) : Nat :=
  let head := bytesAt b 0 6 ++ [0, 0] ++ bytesAt b 8 0x34
  let list := bytesAt b 0x40 (4 * fieldAt b 4 2)
  (crc32c (head ++ leBytes 4 (crc32c (head ++ list)).toNat ++ list)).toNat

/-- Elements of a full vector that rank `r` receives from a REDUCE_SCATTER (R373). -/
def scatterShare (count m r : Nat) : Nat := Nat.min (ceilDiv count m) (count - r * ceilDiv count m)

/-- Elements of the source and destination of each operation (R371, R373). -/
def collCounts (h : CollHead) : Nat × Nat :=
  let m := h.members.length
  match h.op with
  | 2 => (h.count, scatterShare h.count m h.rank)
  | 3 => (h.count, m * h.count)
  | _ => (h.count, h.count)

/-- The element type that a reduction asks for. -/
def redType (red : Nat) (t : Desc) : Bool :=
  match red with
  | 0 => true
  | 1 | 3 | 4 => t.kind == 1 && t.ety.kind == .fp32
  | 2 => t.kind == 1 && t.ety.kind == .bf16
  | 5 => t.kind == 2 && t.wordBytes == 3
  | _ => t.kind == 0

/-- An end of a collective: dense elements in this part, with no scale region. -/
def collEnd (t : Desc) : Verdict :=
  failIf (2 ≤ t.space || t.scales || t.transpose || t.padded) (.skip 0x0105)

/-! ### Issue -/

/-- Bytes of the elements of a source in linear order: 4-bit codes in pairs, low first. -/
def codeBytes (bits : Nat) (cs : List Nat) : List Byte :=
  if bits = 4 then (chunks 2 cs).flatMap fun c => leBytes 1 (c.getD 0 0 + 16 * c.getD 1 0) else cs.flatMap fun c => leBytes (bits / 8) c

/-- Elements from their bytes. -/
def bytesCodes (bits n : Nat) (bs : List Byte) : List Nat := (List.range n).map fun k => hostElem bits k bs

/-- Read a source densely. -/
def denseBytes (s : State) (t : Desc) : List Byte :=
  let (m, b) := Desc.mem s t 0 t.handle
  codeBytes t.bits (t.offs.map fun o => readElem m b t o)

/-- Bytes of `n` elements. -/
def elemBytes (t : Desc) (n : Nat) : Nat := ceilDiv (n * t.bits) 8

/-- A member is outside the epoch, twice in the list, or lost (R363, R372). -/
def collMembers (s : State) (j : Job) (h : CollHead) : Verdict :=
  let es := epochMembers s j.epoch
  firstFail [failIf (h.members.any fun m => !es.contains (memberPart m)) (.refuse 0x0506 0x0506),
    failIf (!decide h.members.Nodup) (.refuse 0x0105 0x0105),
    failIf (j.epoch == s.fabric.epoch && h.members.any fun m => s.fabric.losses.contains (memberPart m)) (.refuse 0x0503 0x0503)]

/-- The receive window is open with WRITE and ANY, belongs to the partition, and is long enough (R371). -/
def collWindow (s : State) (j : Job) (h : CollHead) (bytes : Nat) : Verdict :=
  let w := windowOf s h.window
  failIf (!(w.opened && !w.closing && w.write && w.any && w.part == j.part.val &&
    decide (2 * ceilDiv bytes h.members.length ≤ w.length))) (.refuse 0x0105 0x0105)

/-- The body of the head message: kind 0, the degraded marker, the receive window, the CRC, the object header, and the draw that orders
free additions, which all members take from rank 0 (R374, log 32). -/
def collHello (c : Coll) : List Byte :=
  leBytes 1 0 ++ leBytes 1 (b2n c.degraded) ++ leBytes 2 c.window ++ leBytes 4 c.crc ++ bytesAt c.header 0 64 ++ leBytes 8 c.draw

/-- Put a member's part of a collective in flight, and send its head to the others (R372). -/
def startColl (at_ : Site) (j : Job) (c : Coll) (ds srcs : List Dest) (es : List SbEntry) (s : State) : State :=
  let c := { c with draw := s.free % 2 ^ 64 }
  let s := startOp at_.die { opZero 0 j.id at_.queue at_.off 9 with dests := ds, srcs := srcs, coll := some c } es { s with free := s.free + 1 }
  collControl at_.die (partOfIx s j.part).fabricKey c (collHello c) s

/-- The collective as a member starts it. -/
def collOf (j : Job) (b : List Byte) (src dst : Option Desc) (own header : List Byte) (degraded : Bool) : Coll :=
  let h := collHead b
  { collId := h.id, op := h.op, red := h.red, epoch := j.epoch, members := h.members, rank := h.rank, elems := h.count
    root := h.root, window := h.window, crc := collCrc b, src := src, dst := dst, own := own, header := header
    degraded := degraded, heads := [], contrib := [], draw := 0 }

/-- The bytes of the descriptor in its handle. -/
def collTable (s : State) (d : DieIx) (h : Nat) : List Byte := handleBytes s d h 0 (Nat.min ((handleOf s d h).rows * rowBytes) 16448)

/-- The descriptor fits its handle. -/
def collFits (s : State) (d : DieIx) (h : Nat) : Bool :=
  decide (64 ≤ (handleOf s d h).rows * rowBytes ∧ 64 + 4 * fieldAt (handleBytes s d h 4 2) 0 2 ≤ (handleOf s d h).rows * rowBytes)

/-- Issue a collective with data (R371 to R376). -/
def issueColl (at_ : Site) (op : Nat) (src dst coll : Nat) (j : Job) (s : State) : Issued :=
  let d := at_.die
  let ds := descDests s d [dst]
  match descOf s d src, descOf s d dst with
  | some a, some z =>
    let pre := firstFail [match handleUse s d coll with | some e => .skip e | none => .pass, a.recheck s, z.recheck s,
      collEnd a, collEnd z, failIf (!(sameKind a z)) (.skip 0x0102), failIf (z.zeroStride || a.secret s) (.skip 0x0105)]
    if pre != .pass then .done (onVerdict pre j at_ 9 ds s id)
    else withScoreboard d (handleRange s d coll 0 (handleOf s d coll).rows false :: xferRanges s d [a] [z]) s fun es s =>
      let b := collTable s d coll
      let h := collHead b
      let cnt := collCounts h
      let v := firstFail [handlesPoison s d [coll], failIf (!(collFits s d coll) || !(collSound s d op b)) (.refuse 0x0105 0x0105),
        collMembers s j h, failIf (!(redType h.red a) || (a.kind != 0 && (a.elems != cnt.1 || z.elems != cnt.2))) (.skip 0x0102),
        collWindow s j h (elemBytes a a.elems)]
      if v != .pass then .done (onVerdict v j at_ 9 ds s id)
      else
        let s := noteWeight d j a s
        let hdr := if a.kind = 0 then objHead s a 0 else headerZero
        let c := collOf j b (some a) (some z) (denseBytes s a) (if a.kind = 0 then bytesAt (denseBytes s a) 0 64 else [])
          (a.kind == 0 && hdr.degraded)
        match (a.poison s).or (if a.kind = 0 && hdr.poisoned then some 0x0107 else none) with
        | some pe =>
          .done (refuseInstr 0x0107 pe j at_ 9 ds (collControl d (partOfIx s j.part).fabricKey c (leBytes 1 1 ++ leBytes 2 0x0107) s))
        | none => .done (startColl at_ j c ds a.dests es s)
  | _, _ => .done (skipInstr 0x0105 j at_ 9 ds s)

/-- ALL_REDUCE (R373). -/
def execAllReduce (at_ : Site) (src dst coll : Nat) (s : State) : Result :=
  ok (runInstr at_ (.allReduce at_ src dst coll) (issueColl at_ 1 src dst coll) s)
/-- REDUCE_SCATTER (R373). -/
def execReduceScatter (at_ : Site) (src dst coll : Nat) (s : State) : Result :=
  ok (runInstr at_ (.reduceScatter at_ src dst coll) (issueColl at_ 2 src dst coll) s)
/-- ALL_GATHER (R373). -/
def execAllGather (at_ : Site) (src dst coll : Nat) (s : State) : Result :=
  ok (runInstr at_ (.allGather at_ src dst coll) (issueColl at_ 3 src dst coll) s)
/-- BROADCAST (R373). -/
def execBroadcast (at_ : Site) (src dst coll : Nat) (s : State) : Result :=
  ok (runInstr at_ (.broadcast at_ src dst coll) (issueColl at_ 4 src dst coll) s)

/-- Issue BARRIER: no data (R373). -/
def issueBarrier (at_ : Site) (coll : Nat) (j : Job) (s : State) : Issued :=
  let d := at_.die
  match handleUse s d coll with
  | some e => .done (skipInstr e j at_ 9 [] s)
  | none => withScoreboard d [handleRange s d coll 0 (handleOf s d coll).rows false] s fun es s =>
      let b := collTable s d coll
      let v := firstFail [handlesPoison s d [coll], failIf (!(collFits s d coll) || !(collSound s d 5 b)) (.refuse 0x0105 0x0105),
        collMembers s j (collHead b), collWindow s j (collHead b) 0]
      if v != .pass then .done (onVerdict v j at_ 9 [] s id)
      else .done (startColl at_ j (collOf j b none none [] [] false) [] [] es s)

/-- BARRIER (R373). -/
def execBarrier (at_ : Site) (coll : Nat) (s : State) : Result :=
  ok (runInstr at_ (.barrier at_ coll) (issueBarrier at_ coll) s)

/-! ### Messages (R372, R374, log 32) -/

/-- Change the collective of an operation in flight. -/
def updColl (d : DieIx) (id : Nat) (f : Coll → Coll) (s : State) : State :=
  updOp d id (fun o => { o with coll := o.coll.map f }) s

/-- This member's data goes to rank `r`. -/
def collSends (c : Coll) (r : Nat) : Bool :=
  match c.op with
  | 5 => false
  | 4 => c.rank == c.root
  | _ => r != c.rank

/-- The bytes that this member sends to rank `r`. -/
def collFor (c : Coll) (r : Nat) : List Byte :=
  match c.op, c.src with
  | 2, some t =>
    let k := ceilDiv c.elems c.members.length
    bytesAt c.own (elemBytes t (r * k)) (elemBytes t (scatterShare c.elems c.members.length r))
  | _, _ => c.own

/-- Send this member's data to rank `r` through its receive window `w`: pieces of ⌈S/M⌉ bytes in alternate halves, the piece
number as the step (R351, log 32). -/
def sendColl (d : DieIx) (key : Nat) (c : Coll) (r w : Nat) (s : State) : State :=
  if !(collSends c r) || c.degraded then s
  else
    let m := c.members.getD r 0
    let n := Nat.max 1 (ceilDiv c.own.length c.members.length)
    (chunks n (collFor c r)).zipIdx.foldl (fun s p => (chunks 4096 p.1).zipIdx.foldl (fun s q =>
      originate d { packetZero with
        ptype := 7, dstPart := memberPart m, dstDie := memberDie m, epoch := c.epoch % 2 ^ 16, fpkey := key, window := w
        rtag := BitVec.ofNat 32 (p.2 % 2 ^ 16 + c.rank * 2 ^ 16), offset := BitVec.ofNat 64 (p.2 % 2 * n + 4096 * q.2), data := q.1 } s) s) s

/-- The rank in a packet's RTAG, if the packet comes from that member (R351). -/
def senderRank (c : Coll) (p : Packet) : Option Nat :=
  let r := p.rtag.toNat / 2 ^ 16 % 4096
  if c.members[r]? == some (p.srcPart + p.srcDie.val * 2 ^ 16) && r != c.rank then some r else none

/-- The open collective of a die that a message belongs to. -/
def collFind (s : State) (d : DieIx) (f : Coll → Bool) : Option (Op × Coll) :=
  (dieOf s d).ops.findSome? fun o => match o.coll with
    | some c => if f c then some (o, c) else none
    | none => none

/-- The collective that a control packet names. -/
def ctrlColl (s : State) (p : Packet) : Option (Op × Coll) :=
  collFind s p.dstDie fun c => c.collId == p.offset.toNat && c.epoch % 2 ^ 16 == p.epoch && (senderRank c p).isSome
/-- The collective that a data packet belongs to. -/
def dataColl (s : State) (p : Packet) : Option (Op × Coll) :=
  collFind s p.dstDie fun c => c.window == p.window && c.epoch % 2 ^ 16 == p.epoch && (senderRank c p).isSome

/-- Checks 2 to 6 of R57 across this member's header and a peer's (R375). -/
def collHeaders (s : State) (p : PartIx) (mine peer : List Byte) : Verdict :=
  let hs := [headerOfBytes mine, headerOfBytes peer]
  let c := chainOf s p (hd1 hs).chainId
  firstFail [failIf (!(headerSound mine) || !(headerSound peer) || hs.any (fun h => !(headerInRange h) || !h.isCt || h.seeded || h.share) ||
      !(sameForm (hd1 hs) (hd2 hs)) || (hd1 hs).ntt != (hd2 hs).ntt) (.refuse 0x0102 0x0102),
    ringCheck3 false c hs, failIf (!(tagCheck hs)) (.refuse 0x0201 0x0201), levelCheck hs,
    failIf (!(addScales (hd1 hs) (hd2 hs))) (.refuse 0x0205 0x0205)]

/-- A peer's head: a different CRC or header fails the collective; otherwise this member's data goes to it (R372, R375). -/
def collPeer (d : DieIx) (o : Op) (c : Coll) (r : Nat) (b : List Byte) (s : State) : State :=
  if c.heads.any (·.1 == r) then s
  else if fieldAt b 4 4 ≠ c.crc then failColl d o 0x0102 s
  else match jobOf s o.job with
    | none => s
    | some j =>
      match (if c.red = 6 then collHeaders s j.part c.header (bytesAt b 8 64) else .pass) with
      | .refuse e _ => failColl d o e s
      | _ =>
        let s := updColl d o.id (fun c => { c with
          heads := c.heads ++ [(r, bitOf (fieldAt b 1 1) 0, fieldAt b 2 2, bytesAt b 8 64)]
          draw := if r = 0 then fieldAt b 72 8 else c.draw }) s
        sendColl d (partOfIx s j.part).fabricKey c r (fieldAt b 2 2) s

/-- COLL_CTRL (R372, R376): the first control message of an open collective is a peer's head, or an abort. -/
def execCollCtrl (s : State) : Result :=
  ok (match takeArrived (fun x => x.2.ptype == 8 && (ctrlColl s x.2).isSome) s with
    | none => s
    | some ((_, p), s) => match ctrlColl s p with
      | none => s
      | some (o, c) => match senderRank c p with
        | none => s
        | some r =>
          if fieldAt p.data 0 1 = 1 then failOp p.dstDie o 9 (BitVec.ofNat 16 (fieldAt p.data 1 2)) s
          else collPeer p.dstDie o c r p.data s)

/-- Append data to the contribution of rank `r`. -/
def addContrib (r : Nat) (bs : List Byte) (l : List (Nat × List Byte)) : List (Nat × List Byte) :=
  if l.any (fun x => x.1 == r) then l.map fun x => if x.1 = r then (r, x.2 ++ bs) else x
  else l ++ [(r, bs)]

/-- COLL_DATA (R349, R374): the bytes land in the receive window and join the sender's contribution; a packet that runs past the window
lands with no byte and joins nothing; data for no open collective is discarded and counted once its window is closed. -/
def execCollData (s : State) : Result :=
  let live (p : Packet) : Bool := (dataColl s p).isSome || !(windowOf s p.window).opened
  ok (match takeArrived (fun x => x.2.ptype == 7 && live x.2) s with
    | none => s
    | some ((_, p), s) => match dataColl s p with
      | none => countLate p.dstDie s
      | some (o, c) => match senderRank c p with
        | none => s
        | some r =>
          let w := windowOf s p.window
          let a := w.base + p.offset.toNat
          if w.length < p.offset.toNat + p.data.length then s
          else
            let s := if w.store then putStore w.dieIx w.handle a p.data s else putHandle w.dieIx w.handle a p.data s
            wakeDie p.dstDie (updColl p.dstDie o.id (fun c => { c with contrib := addContrib r p.data c.contrib }) s))

/-- COLLECTIVE_TIMEOUT (R376). -/
def execCollectiveTimeout (die : DieIx) (op : Nat) (s : State) : Result :=
  ok (match opOf s die op with
    | none => s
    | some o => failColl die o 0x0504 s)

/-! ### The result (R373 to R375) -/

/-- A member whose ciphertext source is degraded takes part: no data of it comes (R376). -/
def collDegraded (c : Coll) : Bool := c.degraded || c.heads.any (·.2.1)

/-- The bytes that rank `r` contributes. -/
def contribOf (c : Coll) (r : Nat) : List Byte :=
  if r = c.rank then collFor c r else ((c.contrib.find? fun x => x.1 == r).map (·.2)).getD []

/-- Ranks whose data this member needs. -/
def collSources (c : Coll) : List Nat :=
  match c.op with
  | 5 => []
  | 4 => [c.root]
  | _ => List.range c.members.length

/-- Bytes that each source sends to this member. -/
def collNeeds (c : Coll) : Nat :=
  match c.src with
  | some t => elemBytes t (if c.op = 2 then scatterShare c.elems c.members.length c.rank else t.elems)
  | none => 0

/-- Everything that this member waits for has come: every head, and the data. -/
def collReady (c : Coll) : Bool :=
  decide (c.heads.length + 1 = c.members.length) &&
  (collDegraded c || (collSources c).all fun r => decide (collNeeds c ≤ (contribOf c r).length))

/-- Fold values by additions in an order that nothing fixes (R374, log 6): `pick` gives the draws, `f` bounds the additions. -/
def freeFold (pick : Nat → Nat) : Nat → List Nat → Nat
  | 0, l => l.headD 0
  | f + 1, l =>
    if l.length < 2 then l.headD 0
    else
      let i := pick (2 * f) % l.length
      let a := l.getD i 0
      let l := l.eraseIdx i
      let i := pick (2 * f + 1) % l.length
      freeFold pick f (fadd a (l.getD i 0) :: l.eraseIdx i)

/-- A reduction of one element over the ranks (R374): codes of the element's type. -/
def reduceOne (red : Nat) (repro : Bool) (pick : Nat → Nat) (xs : List Nat) : Nat :=
  let sum (l : List Nat) : Nat := if repro then treeSum (clog2 l.length) l else freeFold pick l.length l
  match red with
  | 1 => fmt32.plusZero (sum xs)
  | 2 => EKind.bf16.convert (f32 (sum (xs.map (· * 65536)))) |>.code
  | 3 => foldNan fmax xs
  | 4 => foldNan fmin xs
  | _ => xs.sum % 2 ^ 64

/-- Every element of a reduction, `n` of them from element `first` of the vector on. An element is computed once and delivered to all
(R374): its order of additions depends on the collective's draw and the element alone. -/
def reduceAll (red : Nat) (repro : Bool) (draw first n : Nat) (cols : List (List Nat)) : List Nat :=
  (List.range n).map fun k =>
    reduceOne red repro (fun i => Config.freeValue draw ((first + k) * 16384 + i)) (cols.map fun c => c.getD k 0)

/-- The codes of the result of a clear collective. -/
def collResult (c : Coll) (t : Desc) (repro : Bool) : List Nat :=
  let m := c.members.length
  let codes (n r : Nat) : List Nat := bytesCodes t.bits n (contribOf c r)
  match c.op with
  | 3 => (List.range m).flatMap (codes c.elems)
  | 4 => codes (if t.kind = 0 then t.elems else c.elems) c.root
  | _ =>
    let n := if c.op = 2 then scatterShare c.elems m c.rank else c.elems
    reduceAll c.red repro c.draw (if c.op = 2 then c.rank * ceilDiv c.elems m else 0) n ((List.range m).map (codes n))

/-- The headers of a ciphertext sum in rank order. -/
def collHdrs (c : Coll) : List Header :=
  (List.range c.members.length).map fun r => headerOfBytes
    (if r = c.rank then c.header else ((c.heads.find? fun x => x.1 == r).map (·.2.2.2)).getD [])

/-- The header of a ciphertext sum (R375): SCALE of rank 0, NOISE folded over the ranks in order, R60. -/
def ctSumHead (ch : Chain) (cat : List Nat) (hs : List Header) : Header :=
  let n := (hs.drop 1).foldl (fun a h => lsum a h.noise) ((hd1 hs).noise : Int)
  settle ch cat hs { hd1 hs with noise := newNoise hs n }

/-- The object of a ciphertext sum: limb-wise, modulo each prime (R375). -/
def ctSum (ch : Chain) (cat : List Nat) (c : Coll) : Header × List Byte :=
  let hs := collHdrs c
  let h := ctSumHead ch cat hs
  let ps := ch.primes cat h.level h.extended
  let body (r : Nat) : PolyBody := bodyOfBytes h.parts ps.length h.logN (bytesAt (contribOf c r) 288 ((objRows h ch.pCount - 1) * 288))
  let b := (List.range (hs.length - 1)).foldl (fun a r => zipLimbs ps limbAdd a (body (r + 1))) (body 0)
  (h, headerBytes h ++ List.replicate 224 0 ++ bodyBytes b)

/-- A degraded result: the header with DEGRADED, the limbs undefined (R376). -/
def degradedObject (h : Header) (n : Nat) (s : State) : List Byte × State :=
  let (x, s) := freeBytes (n - 288) s
  (headerBytes { h with degraded := true } ++ List.replicate 224 0 ++ x, s)

/-- Write a collective's result to its destination (R373 to R376). -/
def deliverColl (d : DieIx) (o : Op) (c : Coll) (s : State) : State :=
  match c.src, c.dst, jobOf s o.job with
  | some t, some z, some j =>
    let put (cs : List Nat) (s : State) : State := writeElems z 0 (z.offs.zip cs) s
    if collDegraded c then
      let s := if c.degraded then s else logJob 0x0204 j { die := d, queue := o.queue, off := o.off } 9 0 false s
      let h := match chainOf s j.part (headerOfBytes c.header).chainId with
        | some ch => if c.red = 6 then ctSumHead ch s.fuses.primes (collHdrs c) else headerOfBytes c.header
        | none => headerOfBytes c.header
      let (b, s) := degradedObject h (288 * z.elems) s
      put (bytesCodes 2304 z.elems b) s
    else if c.red = 6 then
      match chainOf s j.part (headerOfBytes c.header).chainId with
      | none => s
      | some ch =>
        let (h, b) := ctSum ch s.fuses.primes c
        let s := if h.degraded then logJob 0x0204 j { die := d, queue := o.queue, off := o.off } 9 0 false s else s
        put (bytesCodes 2304 z.elems b) s
    else put (collResult c t j.reproducible) s
  | _, _, _ => s

/-- The messages of a finished collective that are still to be taken go (log 32). -/
def purgeColl (d : DieIx) (c : Coll) (s : State) : State :=
  { s with fabric := { s.fabric with arrived := s.fabric.arrived.filter fun x => !(x.2.dstDie == d && (senderRank c x.2).isSome &&
      ((x.2.ptype == 8 && x.2.offset.toNat == c.collId) || (x.2.ptype == 7 && x.2.window == c.window))) } }

end Sys2Proof.Machine
end

