-- ==== Sys2Proof/Machine/Share.lean ====
section
/-! DEFINITION. Share mode (R146 to R165): the local operations, SHR_SPLIT, the exchanges, triples and DEAL. -/

namespace Sys2Proof.Machine

/-! ### Sessions and checks (R149 to R153) -/

/-- Session `k` of partition `p` (R147). -/
def sessionOf (s : State) (p : PartIx) (k : Nat) : Option Session := tblGet (partOfIx s p).sessions k
/-- Change a session. -/
def updSession (p : PartIx) (k : Nat) (f : Session → Session) (s : State) : State :=
  updPart p (fun x => { x with sessions := tblMod x.sessions k f }) s

/-- The modulus of a session of partition `p`. -/
def ringOfSession (s : State) (p : PartIx) (x : Session) : Nat := x.modulus s.fuses.primes (chainOf s p x.chainId)

/-- The peers of a session: every party but this one. -/
def peersOf (x : Session) : List Nat := (List.range x.parties).filter (· != x.self)

/-- Header bytes of a share handle. -/
def shareHdr (s : State) (d : DieIx) (h : Nat) : List Byte := handleBytes s d h 0 64

/-- The elements of a share handle. -/
def shareIn (s : State) (d : DieIx) (h : Nat) : List Nat :=
  let k := headerOfBytes (shareHdr s d h)
  shareElems k.scheme k.logN (handleBytes s d h 288 (shareRows k.scheme k.logN * 288))

/-- The elements of a clear handle: 64-bit integers, modulo the ring (R150). -/
def clearIn (s : State) (d : DieIx) (h m q : Nat) : List Nat :=
  (List.range m).map fun k => fieldAt (handleBytes s d h (8 * k) 8) 0 8 % q

/-- Check 1 of R57 on share and clear handles: by handle mark, or by a share object's header. -/
def sharePoison (s : State) (d : DieIx) (shares clears : List Nat) : Verdict :=
  match (shares ++ clears).findSome? fun h => (handleOf s d h).pe with
  | some e => .refuse 0x0107 e
  | none => failIf (shares.any fun h => headerSound (shareHdr s d h) && (headerOfBytes (shareHdr s d h)).poisoned) (.refuse 0x0107 0x0107)

/-- Checks 2 to 4 of R57 on share handles of partition `p` (R151). Operands whose headers name different session slots fail check 4: the
spec names no check of LOG_SLOTS (log 97). -/
def shareChecks (s : State) (d : DieIx) (p : PartIx) (shares : List Nat) : Verdict :=
  let bs := shares.map (shareHdr s d)
  let hs := bs.map headerOfBytes
  let a := hs.headD headerZero
  firstFail [failIf (bs.any fun b => !(shareHeadOk b)) (.refuse 0x0102 0x0102),
    match sessionOf s p a.logSlots with
    | none => .refuse 0x0202 0x0202
    | some x =>
      firstFail [failIf (hs.any (fun h => h.scheme != x.ring || h.logN != a.logN || h.chainId != x.chainId || h.paramSet != x.paramSet) ||
          (x.ring == 1 && (chainOf s p x.chainId).isNone)) (.refuse 0x0202 0x0202),
        failIf (hs.any fun h => h.keysetTag != x.tag || h.logSlots != a.logSlots) (.refuse 0x0201 0x0201)]]

/-- Handles hold share objects of `m = 2^n` elements. -/
def shareFits (s : State) (d : DieIx) (ring n : Nat) (hs : List Nat) : Bool :=
  hs.all fun h => decide (1 + shareRows ring n ≤ (handleOf s d h).rows)
/-- Handles hold clear vectors of 2^n integers. -/
def clearFits (s : State) (d : DieIx) (n : Nat) (hs : List Nat) : Bool :=
  hs.all fun h => decide (8 * 2 ^ n ≤ (handleOf s d h).rows * rowBytes)

/-- The header of a share object of a session (R149). -/
def shareHead (x : Session) (slot n : Nat) : Header :=
  { headerZero with formatTag := 0xC711, scheme := x.ring, parts := 1, logN := n, chainId := x.chainId, paramSet := x.paramSet
                    keysetTag := x.tag, logSlots := slot, share := true }

/-- Write a share object. -/
def putShare (d : DieIx) (h : Nat) (hdr : Header) (xs : List Nat) (s : State) : State :=
  putHandle d h 0 (headerBytes hdr ++ List.replicate 224 0 ++ shareBytes hdr.scheme xs) s
/-- Write a clear vector (R150). -/
def putClear (d : DieIx) (h : Nat) (xs : List Nat) (s : State) : State := putHandle d h 0 (xs.flatMap fun x => leBytes 8 x) s

/-- Cluster time of a share operation (R152). -/
def shareCost (mask : BitVec 8) (ring n k : Nat) : Nat := ceilDiv (shareRows ring n) (maskClusters mask).length * k

/-- What a share operation names. -/
structure ShrOp where
  mask : BitVec 8
  shares : List Nat
  clears : List Nat
  /-- Destinations that hold shares, and clear destinations. -/
  secretDsts : List Nat
  clearDsts : List Nat

/-- Every handle that a share operation reads or writes. -/
def ShrOp.dests (o : ShrOp) (d : DieIx) : List Dest := (o.secretDsts ++ o.clearDsts).map fun h => .handle d h

/-- The scoreboard ranges. -/
def ShrOp.ranges (o : ShrOp) (s : State) (d : DieIx) : List SbEntry :=
  (o.shares ++ o.clears).map (fun h => handleRange s d h 0 (handleOf s d h).rows false) ++
  (o.secretDsts ++ o.clearDsts).map (fun h => handleRange s d h 0 (handleOf s d h).rows true)

/-- Checks before a share operation waits (R114, R153, R230). -/
def ShrOp.pre (o : ShrOp) (s : State) (d : DieIx) : Verdict :=
  firstFail ((o.shares ++ o.clears ++ o.secretDsts ++ o.clearDsts).map (fun h => match handleUse s d h with
      | some e => .skip e | none => .pass) ++
    [failIf (o.mask == 0) (.skip 0x0105), failIf (o.secretDsts.any fun h => !(handleOf s d h).isSecret) (.skip 0x0105)])

/-- Clear operands are not secret-marked where the result is clear (R163). -/
def ShrOp.fits (o : ShrOp) (s : State) (d : DieIx) (ring n : Nat) : Verdict :=
  failIf (!(shareFits s d ring n (o.shares ++ o.secretDsts)) || !(clearFits s d n (o.clears ++ o.clearDsts))) (.skip 0x0105)

/-- The session and header that share operands name: of the first that is a share object of a session (R160). -/
def shareNamed (s : State) (d : DieIx) (p : PartIx) (shares : List Nat) : Option (Session × Header) :=
  shares.findSome? fun k =>
    let b := shareHdr s d k
    if shareHeadOk b then (sessionOf s p (headerOfBytes b).logSlots).map fun x => (x, headerOfBytes b) else none

/-- Issue a share operation on share operands: `go` runs once every check has passed, with the session, its slot and the
log2 of M. `late` are the operation's own checks; `poisoned` is what a poisoned operand does beside the refusal. -/
def issueShr (at_ : Site) (o : ShrOp) (late : Session → Nat → Verdict) (poisoned : Session → Nat → Nat → State → State)
    (go : Job → Session → Nat → Nat → List SbEntry → State → Issued) (j : Job) (s : State) : Issued :=
  let d := at_.die
  let ds := o.dests d
  let pre := o.pre s d
  if pre != .pass then .done (onVerdict pre j at_ 1 ds s id)
  else withScoreboard d (o.ranges s d) s fun es s =>
    let v := sharePoison s d o.shares o.clears
    if v != .pass then
      let s := match shareNamed s d j.part o.shares with
        | some x => poisoned x.1 x.2.logSlots x.2.logN s
        | none => s
      .done (onVerdict v j at_ 1 ds s id)
    else
      let h := headerOfBytes (shareHdr s d (o.shares.headD 0))
      let v := shareChecks s d j.part o.shares
      if v != .pass then .done (onVerdict v j at_ 1 ds s id)
      else match sessionOf s j.part h.logSlots with
        | none => .done s
        | some x =>
          let v := firstFail [o.fits s d x.ring h.logN, late x h.logN]
          if v != .pass then .done (onVerdict v j at_ 1 ds s id) else go j x h.logSlots h.logN es s

/-! ### Local operations (R152) -/

/-- A local share operation with one destination: `f` gives the result's elements. -/
def shrLocal (at_ : Site) (i : Instr) (mask : BitVec 8) (shares clears : List Nat) (dst k : Nat)
    (f : State → Session → Nat → Nat → List Nat) (s : State) : State :=
  runInstr at_ i (issueShr at_ { mask := mask, shares := shares, clears := clears, secretDsts := [dst], clearDsts := [] }
    (fun _ _ => .pass) (fun _ _ _ s => s) (fun j x slot n es s =>
      let d := at_.die
      let out := f s x (ringOfSession s j.part x) n
      let s := putShare d dst (shareHead x slot n) out s
      .done (startOp d { opZero 0 j.id at_.queue at_.off 1 with
        dests := [.handle d dst], srcs := (shares ++ clears).map fun h => .handle d h, clusters := mask
        cost := shareCost mask x.ring n k } es s))) s

/-- SHR_ADD. -/
def execShrAdd (at_ : Site) (mask : BitVec 8) (a b dst : Nat) (s : State) : Result :=
  ok (shrLocal at_ (.shrAdd at_ mask a b dst) mask [a, b] [] dst 2 (fun s _ q _ => limbAdd q (shareIn s at_.die a) (shareIn s at_.die b)) s)
/-- SHR_SUB. -/
def execShrSub (at_ : Site) (mask : BitVec 8) (a b dst : Nat) (s : State) : Result :=
  ok (shrLocal at_ (.shrSub at_ mask a b dst) mask [a, b] [] dst 2 (fun s _ q _ => limbSub q (shareIn s at_.die a) (shareIn s at_.die b)) s)
/-- SHR_NEG. -/
def execShrNeg (at_ : Site) (mask : BitVec 8) (src dst : Nat) (s : State) : Result :=
  ok (shrLocal at_ (.shrNeg at_ mask src dst) mask [src] [] dst 1 (fun s _ q _ => limbNeg q (shareIn s at_.die src)) s)

/-- SHR_SMUL: the scalar register is read modulo the ring; a poisoned one fails check 1 (R220). -/
def execShrSmul (at_ : Site) (mask : BitVec 8) (src sc dst : Nat) (s : State) : Result :=
  ok (runInstr at_ (.shrSmul at_ mask src sc dst) (fun j s =>
    let d := at_.die
    let o : ShrOp := { mask := mask, shares := [src], clears := [], secretDsts := [dst], clearDsts := [] }
    if scalarBusy s d [sc] then .wait .scalar (o.ranges s d)
    else if scalarBad s d [sc] then .done (refuseInstr 0x0107 0x0107 j at_ 1 [.handle d dst] s)
    else issueShr at_ o
      (fun _ _ => .pass) (fun _ _ _ s => s) (fun j x slot n es s =>
        let q := ringOfSession s j.part x
        let out := limbScale q (scalarOf s d sc % q) (shareIn s d src)
        .done (startOp d { opZero 0 j.id at_.queue at_.off 1 with
          dests := [.handle d dst], srcs := [.handle d src], clusters := mask, cost := shareCost mask x.ring n 1 } es
          (putShare d dst (shareHead x slot n) out s))) j s) s)

/-- SHR_CADD: party 0 adds the clear vector; the others keep their share. -/
def execShrCadd (at_ : Site) (mask : BitVec 8) (src clear dst : Nat) (s : State) : Result :=
  ok (shrLocal at_ (.shrCadd at_ mask src clear dst) mask [src] [clear] dst 2 (fun s x q n =>
    if x.self = 0 then limbAdd q (shareIn s at_.die src) (clearIn s at_.die clear (2 ^ n) q) else shareIn s at_.die src) s)

/-! ### Sending (R159) -/

/-- Whether a message to a party may be sent, and how: over the bridges or through a port with encryption on, not without
encryption, or into nothing, which is counted at a port by reason (R357). -/
inductive ShareRoute where
  | send
  | refused
  | lost (n : PortIx) (reason : Nat)
  deriving DecidableEq, Repr

/-- The route of a share message to a part from a die (R159, R353, R355). -/
def shareRoute (s : State) (d : DieIx) (part : Nat) : ShareRoute :=
  if part = s.fabric.partId then .send
  else if !s.fabric.valid then .lost d 5
  else match routeOf s part d 0 with
    | .none => .lost d 1
    | .here => .send
    | .port n => if (portOf s n).keyState != .on then .refused else if (portOf s n).state = .up then .send else .lost n 2

/-- Some party of a list is reached only without encryption. -/
def sendRefused (s : State) (d : DieIx) (x : Session) (ps : List Nat) : Bool := ps.any fun i => shareRoute s d (x.place i).1 == .refused

/-- Send to a party: nothing leaves without encryption (R159), and a message with no route is discarded and counted (R357). -/
def shareSend (d : DieIx) (x : Session) (i : Nat) (f : Nat → Nat → Output) (s : State) : State :=
  match shareRoute s d (x.place i).1 with
  | .lost n r => discard n r s
  | .refused => s
  | .send => emit (f (x.place i).1 (x.place i).2) s

/-- The parties of a list are members of the job's epoch and none is lost; a partition of this part needs no fabric (R358, R362, R363). -/
def partyCheck (s : State) (j : Job) (x : Session) (ps : List Nat) : Verdict :=
  firstFail ((ps.filter fun i => (x.place i).1 != s.fabric.partId).map fun i => partRefused s j (x.place i).1)

/-! ### Exchanges (R155, R158 to R161) -/

/-- The message of an exchange, under the epoch of its job (R158, R360). -/
def exMsg (j : Job) (x : Session) (m openSeq : Nat) (dealSeq : Option Nat) (body : List Nat) : ExMsg :=
  { part := j.part, port := none, epoch := j.epoch % 2 ^ 16, tag := BitVec.ofNat 64 x.tag, party := x.self, m := m, openSeq := openSeq, dealSeq := dealSeq, body := body }

/-- Every peer's message has come. -/
def exchReady (s : State) (x : Exch) : Bool :=
  match sessionOf s x.part x.session with
  | some ses => (peersOf ses).all fun i => x.got.any (·.1 == i)
  | none => false

/-- A number of a 32-bit count lies behind another: counts go up by less than 2^31 between comparisons. -/
def seqBehind (a b : Nat) : Bool := decide (2 ^ 31 ≤ diff32 a b)

/-- SESSION_TAG, M, DEAL_SEQ and the length of a message are those of its exchange (R158). -/
def msgFits (s : State) (x : Exch) (m : ExMsg) : Bool :=
  (match sessionOf s x.part x.session with | some ses => m.tag.toNat == ses.tag | none => false) &&
  m.m == x.m && m.dealSeq == x.dealSeq && m.body.length == (if x.kind = .beaver then 2 * x.m else x.m)

/-- A message of a peer meets its exchange (R158, R160). -/
def acceptMsg (d : DieIx) (id : Nat) (m : ExMsg) (abort : Bool) (s : State) : State :=
  match opOf s d id with
  | none => s
  | some o => match o.exch with
    | none => s
    | some x =>
      if abort then failOp d o 1 0x0107 s
      else if !(msgFits s x m) then failOp d o 1 0x0102 s
      else updOp d id (fun o => { o with exch := o.exch.map fun x => { x with got := x.got ++ [(m.party, m.body)] } }) s

/-- Start an exchange: its OPEN_SEQ is taken, the messages go out, messages that came early are met (R158). `body i` is what
peer `i` receives. -/
def startExch (at_ : Site) (j : Job) (o : Op) (x : Exch) (ses : Session) (body : Nat → List Nat) (es : List SbEntry) (s : State) : State :=
  let d := at_.die
  let k := ses.openSeq
  let s := updSession j.part x.session (fun y => { y with openSeq := inc32 k, early := y.early.filter fun m => m.1.openSeq != k }) s
  let id := s.nextId
  let s := startOp d { o with exch := some { x with openSeq := k } } es s
  let s := (peersOf ses).foldl (fun s i => shareSend d ses i (fun pt pn => .exchange pt pn (exMsg j ses x.m k x.dealSeq (body i))) s) s
  (ses.early.filter fun m => m.1.openSeq == k).foldl (fun s m => acceptMsg d id m.1 m.2 s) s

/-- A poisoned share operand: the peers receive abort markers for this exchange (R160); one that would leave without encryption is
not sent, and logged (R159). The dealer takes part in no exchange. -/
def abortExch (at_ : Site) (j : Job) (dealSeq : Option Nat) (x : Session) (slot n : Nat) (s : State) : State :=
  if x.self = 3 then s
  else
    let s := updSession j.part slot (fun y => { y with openSeq := inc32 x.openSeq }) s
    let s := if sendRefused s at_.die x (peersOf x) then logJob 0x0105 j at_ 1 0 false s else s
    ((peersOf x).filter fun i => partyCheck s j x [i] == .pass).foldl (fun s i =>
      shareSend at_.die x i (fun pt pn => .abortMarker pt pn (exMsg j x (2 ^ n) x.openSeq dealSeq [])) s) s

/-- The dealer holds no share, so that an exchange which it issues is refused with 0x0102 (R152 names no event, log 33); the peers are
members (R161, R362, R363); no message leaves unencrypted (R159). -/
def exchCheck (s : State) (d : DieIx) (j : Job) (x : Session) : Verdict :=
  firstFail [failIf (x.self == 3) (.refuse 0x0102 0x0102), partyCheck s j x (peersOf x),
    failIf (sendRefused s d x (peersOf x)) (.refuse 0x0105 0x0105)]

/-- Issue SHR_OPEN or SECAGG: the sum of the sources is opened into a clear handle (R152). No source, or more than 16, is refused with
0x0102, an event that R152 does not name (log 33). -/
def issueOpen (at_ : Site) (mask : BitVec 8) (srcs : List Nat) (dst : Nat) (j : Job) (s : State) : Issued :=
  let d := at_.die
  if srcs.isEmpty || 16 < srcs.length then .done (refuseInstr 0x0102 0x0102 j at_ 1 [.handle d dst] s)
  else issueShr at_ { mask := mask, shares := srcs, clears := [], secretDsts := [], clearDsts := [dst] }
    (fun x _ => exchCheck s d j x) (fun x slot n s => abortExch at_ j none x slot n s) (fun j x slot n es s =>
      let q := ringOfSession s j.part x
      let own := (srcs.drop 1).foldl (fun a h => limbAdd q a (shareIn s d h)) (shareIn s d (srcs.headD 0))
      let o := { opZero 0 j.id at_.queue at_.off 1 with
        dests := [.handle d dst], srcs := srcs.map fun h => .handle d h, clusters := mask
        cost := shareCost mask x.ring n (2 * (srcs.length - 1) + (x.parties - 1)) }
      .done (startExch at_ j o { part := j.part, session := slot, kind := .opening, openSeq := 0, dealSeq := none, m := 2 ^ n, got := []
                                 own := own, triple := ([], [], []), dst := dst, recv := [] } x (fun _ => own) es s)) j s

/-- SHR_OPEN. -/
def execShrOpen (at_ : Site) (mask : BitVec 8) (src dst : Nat) (s : State) : Result :=
  ok (runInstr at_ (.shrOpen at_ mask src dst) (issueOpen at_ mask [src] dst) s)
/-- SECAGG. -/
def execSecagg (at_ : Site) (mask : BitVec 8) (srcs : List Nat) (dst : Nat) (s : State) : Result :=
  ok (runInstr at_ (.secagg at_ mask srcs dst) (issueOpen at_ mask srcs dst) s)

/-- Held deliveries join the pool while the next in DEAL_SEQ order fits; `f` bounds them (R157). -/
def appendDeals : Nat → Session → Session
  | 0, x => x
  | f + 1, x =>
    match x.heldDeals.find? fun h => h.1 == x.dealSeq with
    | none => x
    | some h =>
      if x.cap < x.pool.length + h.2.2.2.2 then x
      else appendDeals f { x with
        pool := x.pool ++ h.2.1.zip (h.2.2.1.zip h.2.2.2.1), dealSeq := (x.dealSeq + h.2.2.2.2) % 2 ^ 32
        heldDeals := x.heldDeals.filter fun y => y.1 != h.1 }

/-- Take the next `m` triples: they leave the pool, and held deliveries may enter (R155, R157). -/
def takeTriples (m : Nat) (x : Session) : Session :=
  let y := { x with pool := x.pool.drop m, consumed := (x.consumed + m) % 2 ^ 32 }
  appendDeals y.heldDeals.length y

/-- Issue BEAVER_MUL (R155, R156). -/
def issueBeaver (at_ : Site) (mask : BitVec 8) (a b dst : Nat) (j : Job) (s : State) : Issued :=
  let d := at_.die
  let sh : ShrOp := { mask := mask, shares := [a, b], clears := [], secretDsts := [dst], clearDsts := [] }
  issueShr at_ sh (fun x n => firstFail [failIf (decide (x.cap < 2 ^ n)) (.refuse 0x0105 0x0105), exchCheck s d j x])
    (fun x slot n s => abortExch at_ j (some x.consumed) x slot n s) (fun j x slot n es s =>
      let m := 2 ^ n
      if x.pool.length < m then .wait (.triples slot m) (sh.ranges s d)
      else
        let q := ringOfSession s j.part x
        let t := x.pool.take m
        let ta := t.map (·.1)
        let tb := t.map (·.2.1)
        let own := limbSub q (shareIn s d a) ta ++ limbSub q (shareIn s d b) tb
        let s := updSession j.part slot (takeTriples m) s
        let o := { opZero 0 j.id at_.queue at_.off 1 with
          dests := [.handle d dst], srcs := [.handle d a, .handle d b], clusters := mask, cost := shareCost mask x.ring n 9 }
        .done (startExch at_ j o { part := j.part, session := slot, kind := .beaver, openSeq := 0, dealSeq := some x.consumed, m := m, got := []
                                   own := own, triple := (ta, tb, t.map (·.2.2)), dst := dst, recv := [] } x (fun _ => own) es s)) j s

/-- BEAVER_MUL. -/
def execBeaverMul (at_ : Site) (mask : BitVec 8) (a b dst : Nat) (s : State) : Result :=
  ok (runInstr at_ (.beaverMul at_ mask a b dst) (issueBeaver at_ mask a b dst) s)

/-- `n` elements of DRBG output modulo `q` (R154, log 9). -/
def drawElems (q n : Nat) (s : State) : List Nat × State :=
  ((List.range n).map fun i => Config.freeValue s.free i % q, { s with free := s.free + 1 })

/-- `k` vectors of DRBG output. -/
def drawVecs (q n : Nat) : Nat → State → List (List Nat) × State
  | 0, s => ([], s)
  | k + 1, s =>
    let (v, s) := drawElems q n s
    let (vs, s) := drawVecs q n k s
    (v :: vs, s)

/-- Issue SHR_SPLIT (R152 to R154): masks are drawn and sent, the own share is the rest, and the peers' masks arrive in the
handles of `recv`. It is an exchange of its session: it takes an OPEN_SEQ and waits for every peer's mask, which R152's table does not
say; log2 M outside 12 to 17 is refused with 0x0102, an event that it does not name (log 33). -/
def issueSplit (at_ : Site) (mask : BitVec 8) (slot n clear dst : Nat) (recv : List Nat) (j : Job) (s : State) : Issued :=
  let d := at_.die
  let o : ShrOp := { mask := mask, shares := [], clears := [clear], secretDsts := dst :: recv, clearDsts := [] }
  let ds := o.dests d
  let pre := o.pre s d
  if pre != .pass then .done (onVerdict pre j at_ 1 ds s id)
  else withScoreboard d (o.ranges s d) s fun es s =>
    let v := firstFail [sharePoison s d [] [clear], failIf (!decide (12 ≤ n ∧ n ≤ 17)) (.refuse 0x0102 0x0102),
      match sessionOf s j.part slot with
      | none => .refuse 0x0202 0x0202
      | some x => firstFail [failIf (recv.length != (peersOf x).length) (.refuse 0x0102 0x0102),
          failIf (x.ring == 1 && (chainOf s j.part x.chainId).isNone) (.refuse 0x0202 0x0202), o.fits s d x.ring n, exchCheck s d j x]]
    if v != .pass then .done (onVerdict v j at_ 1 ds s id)
    else match sessionOf s j.part slot with
      | none => .done s
      | some x =>
        let q := ringOfSession s j.part x
        let m := 2 ^ n
        let (rs, s) := drawVecs q m (peersOf x).length s
        let own := rs.foldl (fun a r => limbSub q a r) (clearIn s d clear m q)
        let s := putShare d dst (shareHead x slot n) own s
        let k := (peersOf x).length
        let op := { opZero 0 j.id at_.queue at_.off 1 with
          dests := ds, srcs := [.handle d clear], clusters := mask
          cost := shareCost mask x.ring n (2 * k) + ceilDiv (9 * k * shareRows x.ring n) 2 }
        .done (startExch at_ j op { part := j.part, session := slot, kind := .split, openSeq := 0, dealSeq := none, m := m, got := []
                                    own := own, triple := ([], [], []), dst := dst, recv := recv } x
          (fun i => rs.getD ((peersOf x).findIdx (· == i)) []) es s)

/-- SHR_SPLIT. -/
def execShrSplit (at_ : Site) (mask : BitVec 8) (session logM clear dst : Nat) (recv : List Nat) (s : State) : Result :=
  ok (runInstr at_ (.shrSplit at_ mask session logM clear dst recv) (issueSplit at_ mask session logM clear dst recv) s)

/-! ### The result of an exchange (R152, R155) -/

/-- The sum of the values at an offset over this party and its peers. -/
def exchSum (q m off : Nat) (x : Exch) : List Nat :=
  x.got.foldl (fun a g => limbAdd q a ((g.2.drop off).take m)) ((x.own.drop off).take m)

/-- Write what an exchange opens or receives. -/
def deliverExch (d : DieIx) (x : Exch) (s : State) : State :=
  match sessionOf s x.part x.session with
  | none => s
  | some ses =>
    let q := ringOfSession s x.part ses
    let hdr := shareHead ses x.session (Nat.log2 x.m)
    match x.kind with
    | .opening => putClear d x.dst (exchSum q x.m 0 x) s
    | .beaver =>
      let dd := exchSum q x.m 0 x
      let ee := exchSum q x.m x.m x
      let (a, b, c) := x.triple
      let z := limbAdd q (limbAdd q c (limbMul q dd b)) (limbMul q ee a)
      putShare d x.dst hdr (if ses.self = 0 then limbAdd q z (limbMul q dd ee) else z) s
    | .split => ((peersOf ses).zip x.recv).foldl (fun s y =>
        putShare d y.2 hdr (((x.got.find? fun g => g.1 == y.1).map (·.2)).getD [] |>.map (· % q)) s) s

/-! ### DEAL (R157) -/

/-- Split a vector into `k + 1` shares, `k` of them drawn. -/
def splitVec (q : Nat) (v : List Nat) (rs : List (List Nat)) : List (List Nat) := rs ++ [rs.foldl (fun a r => limbSub q a r) v]

/-- A party's pool has room for a delivery: known of a partition of this part, free of another part, which tells the dealer nothing
(R157, log 33). -/
def dealRoom (x : Session) (i : Nat) (m : DealMsg) (s : State) : Bool × State :=
  if (x.place i).1 = s.fabric.partId then
    (match (partOfIx s (dieBits (x.place i).2)).sessions.find? fun y => y.2.tag == x.tag with
      | some y => (decide (diff32 (m.dealSeq + m.a.length) y.2.consumed ≤ x.cap), s)
      | none => (true, s))
  else
    let (v, s) := freeDraw s
    (v % 2 == 0, s)

/-- Send a waiting delivery where it is its party's first, the party has room and the way there is encrypted. -/
def sendDeal (p : PartIx) (slot : Nat) (e : DieIx × Nat × DealMsg) (s : State) : State :=
  match sessionOf s p slot with
  | none => s
  | some x =>
    if (x.outDeals.find? fun y => y.2.1 == e.2.1) != some e || shareRoute s e.1 (x.place e.2.1).1 == .refused then s
    else
      let (room, s) := dealRoom x e.2.1 e.2.2 s
      if room then shareSend e.1 x e.2.1 (fun pt pn => .deal pt pn e.2.2) (updSession p slot (fun y => { y with outDeals := y.outDeals.erase e }) s)
      else s

/-- Send what may go of a dealer's waiting deliveries (R157). -/
def flushDeals (p : PartIx) (slot : Nat) (s : State) : State :=
  match sessionOf s p slot with
  | none => s
  | some x => x.outDeals.foldl (fun s e => sendDeal p slot e s) s

/-- Send what may go of every dealer's waiting deliveries. -/
def flushAllDeals (s : State) : State :=
  allParts.foldl (fun s p => (partOfIx s p).sessions.foldl (fun s e => flushDeals p e.1 s) s) s

/-- Issue DEAL: `n` triples are drawn, split and sent to every party that has room for them; other deliveries wait here (R157). A
partition that is not the dealer is refused with 0x0102, an event that R152 does not name (log 33). -/
def issueDeal (at_ : Site) (slot n : Nat) (j : Job) (s : State) : Issued :=
  let d := at_.die
  match sessionOf s j.part slot with
  | none => .done (refuseInstr 0x0202 0x0202 j at_ 1 [] s)
  | some x =>
    let ps := List.range x.parties
    let v := firstFail [failIf (x.self != 3) (.refuse 0x0102 0x0102), failIf (n == 0 || decide (x.cap < n)) (.refuse 0x0105 0x0105),
      partyCheck s j x ps, failIf (sendRefused s d x ps) (.refuse 0x0105 0x0105)]
    if v != .pass then .done (onVerdict v j at_ 1 [] s id)
    else
      let q := ringOfSession s j.part x
      let (a, s) := drawElems q n s
      let (b, s) := drawElems q n s
      let (ra, s) := drawVecs q n (x.parties - 1) s
      let (rb, s) := drawVecs q n (x.parties - 1) s
      let (rc, s) := drawVecs q n (x.parties - 1) s
      let sa := splitVec q a ra
      let sb := splitVec q b rb
      let sc := splitVec q (limbMul q a b) rc
      let msg (i : Nat) : DealMsg :=
        { part := j.part, port := none, epoch := j.epoch % 2 ^ 16, tag := BitVec.ofNat 64 x.tag, dealSeq := x.dealSeq, a := sa.getD i [], b := sb.getD i [], c := sc.getD i [] }
      let s := updSession j.part slot (fun y => { y with
        dealSeq := (x.dealSeq + n) % 2 ^ 32, outDeals := y.outDeals ++ ps.map fun i => (d, i, msg i) }) s
      .done (startOp d { opZero 0 j.id at_.queue at_.off 1 with cost := ceilDiv ((2 + 3 * (x.parties - 1)) * n * 8) 64 } [] (flushDeals j.part slot s))

/-- DEAL. -/
def execDeal (at_ : Site) (session n : Nat) (s : State) : Result :=
  ok (runInstr at_ (.deal at_ session n) (issueDeal at_ session n) s)

/-! ### What arrives -/

/-- Share traffic on a port without encryption is discarded and counted (R159). -/
def shareRefused (s : State) (port : Option PortIx) : Bool :=
  match port with
  | some n => (portOf s n).keyState != .on
  | none => false

/-- The session of a partition with a tag, and its slot. -/
def sessionByTag (s : State) (p : PartIx) (tag : Nat) : Option (Nat × Session) := (partOfIx s p).sessions.find? fun x => x.2.tag == tag

/-- The exchanges of a partition in flight: die, operation, exchange. -/
def partExchs (s : State) (p : PartIx) : List (DieIx × Op × Exch) :=
  allDies.flatMap fun d => (dieOf s d).ops.filterMap fun o => match o.exch with
    | some x => if x.part = p then some (d, o, x) else none
    | none => none

/-- The exchanges of a session in flight. -/
def exchsOf (s : State) (p : PartIx) (slot : Nat) : List (DieIx × Op × Exch) := (partExchs s p).filter fun x => x.2.2.session == slot

/-- Share traffic from a port that no rule lets in, by reason (R357): no part identifier (R353), no encryption (R159). -/
def shareBarred (s : State) (port : Option PortIx) : Option Nat :=
  if port.isSome && !s.fabric.valid then some 5 else if shareRefused s port then some 6 else none

/-- Discard share traffic and count it at the port that it came by. -/
def dropShare (port : Option PortIx) (reason : Nat) (s : State) : State :=
  match port with
  | some n => discard n reason s
  | none => s

/-- A message that came by a port is from a member (R357, R362, R363). -/
def fromMember (s : State) (port : Option PortIx) (x : Session) (i : Nat) : Bool := port.isNone || memberHeld s (x.place i).1

/-- The session that a message is of: with its SESSION_TAG, else with its identifier and another generation (R147, R158). -/
def sessionOfTag (s : State) (p : PartIx) (tag : Nat) : Option (Nat × Session) :=
  match sessionByTag s p tag with
  | some x => some x
  | none => (partOfIx s p).sessions.find? fun x => x.2.tag % 2 ^ 40 == tag % 2 ^ 40

/-- The earliest exchange among some: the one that issued first. -/
def leastExch (l : List (DieIx × Op × Exch)) : Option (DieIx × Op × Exch) :=
  l.foldl (fun a x => match a with
    | some y => if x.2.1.id < y.2.1.id then some x else some y
    | none => some x) none

/-- A message of no session here meets an exchange that waits for its party under its OPEN_SEQ, which fails (R158); with none it is
discarded. -/
def strayMessage (m : ExMsg) (s : State) : State :=
  match leastExch ((partExchs s m.part).filter fun x => x.2.2.openSeq == m.openSeq && !x.2.2.got.any (·.1 == m.party) &&
      (match sessionOf s m.part x.2.2.session with | some ses => (peersOf ses).contains m.party && fromMember s m.port ses m.party | none => false)) with
  | some (d, o, _) => failOp d o 1 0x0102 s
  | none => dropShare m.port 7 s

/-- A message of a peer of a session: it meets the first waiting exchange that lacks this peer's message; one of an exchange to
come is kept; one of a past exchange is late (R158 to R161). -/
def peerMessage (slot : Nat) (ses : Session) (m : ExMsg) (abort : Bool) (s : State) : State :=
  match leastExch ((exchsOf s m.part slot).filter fun x => !x.2.2.got.any (·.1 == m.party)) with
  | some (d, o, x) =>
    if seqBehind m.openSeq x.openSeq then countLate d s
    else if m.openSeq = x.openSeq then acceptMsg d o.id m abort s
    else failOp d o 1 0x0102 s
  | none =>
    if seqBehind m.openSeq ses.openSeq then countLate (((ownedDies s m.part).head?).getD 0) s
    else updSession m.part slot (fun y => { y with early := y.early ++ [(m, abort)] }) s

/-- Refuse share traffic from a part with NAK 0x0506 (R361): SESSION_TAG stands in OFFSET, the sequence number in RTAG (log 101). -/
def nakShare (p : PartIx) (part epoch : Nat) (tag : W64) (seq : Nat) (s : State) : State :=
  originate ((ownedDies s p).headD 0) { packetZero with
    ptype := 5, dstPart := part, epoch := epoch, wgen := 0x0506, rtag := BitVec.ofNat 32 seq, offset := tag } s

/-- Share traffic of an epoch that the part does not hold (R361): held for the next epoch, or refused. `none` where it is accepted. -/
def epochBars (port : Option PortIx) (epoch : Nat) (x : HeldIn) (refuse : State → State) (s : State) : Option State :=
  match port with
  | none => none
  | some n =>
    if (epochsHeld s).contains epoch then none
    else if nextEpoch s epoch then (match holdNext n x s with
      | some s => some s
      | none => some (refuse (countRefusal n s)))
    else some (refuse s)

/-- An exchange message or abort marker arrives (R158 to R161, R353, R357, R361). -/
def messageIn (m : ExMsg) (abort : Bool) (s : State) : State :=
  match shareBarred s m.port with
  | some r => dropShare m.port r s
  | none => match sessionOfTag s m.part m.tag.toNat with
    | none => strayMessage m s
    | some (slot, ses) =>
      if !(peersOf ses).contains m.party then dropShare m.port 7 s
      else if !(fromMember s m.port ses m.party) then dropShare m.port 3 s
      else match epochBars m.port m.epoch (.exchange m abort) (nakShare m.part (ses.place m.party).1 m.epoch m.tag m.openSeq) s with
        | some s => s
        | none => peerMessage slot ses m abort s

/-- EXCHANGE_MESSAGE (R158). -/
def execExchangeMessage (m : ExMsg) (s : State) : Result := ok (messageIn m false s)
/-- ABORT_MARKER (R160). -/
def execAbortMarker (m : ExMsg) (s : State) : Result := ok (messageIn m true s)

/-- A delivery is taken (R157): it is not one that came before, and TRIPLE_CAP has room for it and for all that precede it. -/
def dealFits (x : Session) (m : DealMsg) : Bool := decide (x.pool.length + diff32 m.dealSeq x.dealSeq + m.a.length ≤ x.cap)

/-- A DEAL delivery arrives (R157, R353, R357, R361): deliveries enter the pool in DEAL_SEQ order; one that would overflow TRIPLE_CAP is
not taken and stays with the dealer. -/
def dealIn (m : DealMsg) (s : State) : State :=
  match shareBarred s m.port with
  | some r => dropShare m.port r s
  | none => match sessionByTag s m.part m.tag.toNat with
    | none => dropShare m.port 7 s
    | some (slot, ses) =>
      if ses.self = 3 || seqBehind m.dealSeq ses.dealSeq || ses.heldDeals.any (·.1 == m.dealSeq) then dropShare m.port 7 s
      else if !(fromMember s m.port ses 3) then dropShare m.port 3 s
      else match epochBars m.port m.epoch (.deal m) (nakShare m.part (ses.place 3).1 m.epoch m.tag m.dealSeq) s with
        | some s => s
        | none =>
          if !(dealFits ses m) then s
          else updSession m.part slot (fun y =>
            appendDeals (y.heldDeals.length + 1) { y with heldDeals := y.heldDeals ++ [(m.dealSeq, m.a, m.b, m.c, m.a.length)] }) s

/-- DEAL_DELIVERY (R157). -/
def execDealDelivery (m : DealMsg) (s : State) : Result := ok (dealIn m s)

/-- EXCHANGE_TIMEOUT (R161): the waiting exchange of a session fails; one that has all its messages has completed. -/
def execExchangeTimeout (p : PartIx) (session : Nat) (s : State) : Result :=
  ok (match leastExch ((exchsOf s p session).filter fun x => !(exchReady s x.2.2)) with
    | some (d, o, _) => failOp d o 1 0x0504 s
    | none => s)

/-! ### LOSS_NOTICE (R161, R363) -/

/-- Operations of a die whose exchange or requests involve a lost part. -/
def losesPart (s : State) (part : Nat) (o : Op) : Bool :=
  (match o.exch with
    | some x => (match sessionOf s x.part x.session with
        | some ses => !(exchReady s x) && (peersOf ses).any fun i => (ses.place i).1 == part
        | none => false)
    | none => false) ||
  s.fabric.requests.any fun r => r.op == o.id && r.dstPart == part

/-- LOSS_NOTICE (R363): the member joins the loss list; collectives, exchanges and requests that need it fail. -/
def execLossNotice (part epoch : Nat) (s : State) : Result :=
  ok (if epoch ≠ s.fabric.epoch || !s.fabric.members.contains part || s.fabric.losses.contains part then s
    else
      let s := { s with fabric := { s.fabric with losses := s.fabric.losses ++ [part] } }
      let s := failColls (fun c => c.epoch == epoch && c.members.any fun m => memberPart m == part) 0x0503 s
      allDies.foldl (fun s d => ((dieOf s d).ops.filter fun o => losesPart s part o &&
          (match jobOf s o.job with | some j => j.epoch == epoch | none => false)).foldl
        (fun s o => if (opOf s d o.id).isSome then failOp d o 9 0x0503 s else s) s) s)

/-! ### Epochs of what is held (R359, R361) -/

/-- Take what was held for the epoch that is now current: packets are among those that have arrived (R361). -/
def takeHeld (x : HeldIn) (s : State) : State :=
  match x with
  | .packet _ => s
  | .exchange m abort => messageIn m abort s
  | .deal m => dealIn m s

/-- Switch to the pending epoch, and take what was held for it (R359, R361). -/
def switchNow (s : State) : State := (allPorts.flatMap fun n => (portOf s n).holdBuf).foldl (fun s x => takeHeld x s) (switchEpoch s)

/-- EPOCH_SWITCH (R359): at the boundary whose count is SWITCH_AT, before its admission. -/
def execEpochSwitch (s : State) : Result := ok (if switchDue s then switchNow s else s)

/-- Refuse what was held for an epoch that did not come (R361). -/
def refuseHeld (x : HeldIn) (s : State) : State :=
  let place (p : PartIx) (tag : W64) (i : Nat) : Option Nat := (sessionOfTag s p tag.toNat).map fun y => (y.2.place i).1
  match x with
  | .packet p => if nakable p then nak p 0x0506 s else s
  | .exchange m _ => match place m.part m.tag m.party with
    | some part => nakShare m.part part m.epoch m.tag m.openSeq s
    | none => s
  | .deal m => match place m.part m.tag 3 with
    | some part => nakShare m.part part m.epoch m.tag m.dealSeq s
    | none => s

/-- EPOCH_HOLD_EXPIRY (R361): the oldest packet held for the next epoch is refused. -/
def execEpochHoldExpiry (port : PortIx) (s : State) : Result :=
  ok (match (portOf s port).holdBuf with
    | [] => s
    | x :: t => refuseHeld x (countRefusal port (updPort port (fun p => { p with holdBuf := t }) s)))

end Sys2Proof.Machine
end

