-- ==== Sys2Proof/Machine/Complete.lean ====
section
/-! DEFINITION. OPERATION_COMPLETE (R237, R244, R245): an operation or transfer in flight completes. -/

namespace Sys2Proof.Machine

/-- An operation cannot complete yet: its tong is stalled or serves an older transfer (R259, R260, R274), one of its clusters
serves an older operation (R114), answers are missing (R349, R370), peers are missing (R158, R372), or it is a window close that
WINDOW_CLOSE_COMPLETE ends (R367), or its next key stream waits for its set (R96, R143). -/
def opBlocked (s : State) (d : DieIx) (o : Op) : Bool :=
  (match o.xfer with
    | some x => !x.begun || x.todo.isSome || x.stalled || !(tongFree s d o)
    | none => false) ||
  (dieOf s d).ops.any (fun p => decide (p.id < o.id) && (p.clusters &&& o.clusters) != 0) ||
  s.fabric.requests.any (fun r => r.die == d && r.op == o.id) ||
  (match o.exch with | some x => !(exchReady s x) | none => false) ||
  (match o.coll with | some c => !(collReady c) | none => false) ||
  s.fabric.windows.any (fun w => w.2.closeOp == some (d, o.id)) || keyStalled s o

/-- Set the local flag of a completed transfer (R301); the die wakes (R333). -/
def raiseFlag (f : Option FlagTarget) (s : State) : State :=
  match f with
  | some f => wakeDie f.die (signalFlag f.die f.flag s)
  | none => s

/-- An operation accesses scratchpad rows: it names a handle or a ring slot. -/
def usesRows (o : Op) : Bool :=
  (o.dests ++ o.srcs).any (fun t => match t with | .handle .. | .ring .. => true | _ => false) || !o.takes.isEmpty

/-- The stalls of an operation that completes are counted and logged (R240, R241). -/
def settleStalls (d : DieIx) (o : Op) (s : State) : State :=
  match jobOf s o.job with
  | some j => if usesRows o then countStalls j { die := d, queue := o.queue, off := o.off } o.unit s else s
  | none => s

/-- The operation is over: its stalls are counted, its result is delivered, its slots and scoreboard entries are released, its
flag set, and its tongs are free for the next transfer. -/
def finishOp (d : DieIx) (o : Op) (s : State) : State :=
  let s := settleStalls d o s
  let s := match o.exch with | some x => deliverExch d x s | none => s
  let s := match o.coll with | some c => purgeColl d c (deliverColl d o c s) | none => s
  let s := o.takes.foldl (fun s t => releaseSlot d t.1 t.2 s) s
  startTongs d (raiseFlag o.flag (dropOp d o.id s))

/-- What came from host memory reaches its destination in this part now that the whole transfer completes (R272). -/
def landHost (d : DieIx) (o : Op) (x : Xfer) (pl : Plan) (s : State) : State :=
  match jobOf s o.job with
  | none => s
  | some j => match applyPlan j.part x.dst 0 x pl s with
    | none => ingestFail d o s
    | some s => finishOp d o s

/-- A transfer delivers what it has, and goes on or is over (R245, R258, R272, R370, R399). -/
def finishXfer (d : DieIx) (o : Op) (x : Xfer) (s : State) : State :=
  let s := updOp d o.id (fun o => { o with fills := [], xfer := o.xfer.map fun x => { x with placed := false } })
    (o.fills.foldl (fun s f => fillSlot d f.1 f.2 s) s)
  match x.plans with
  | pl :: _ => if x.srcSpace = 4 && decide (x.dst.space ≤ 1) then landHost d o x pl s else pump d o.id s
  | [] =>
    if x.dst.space = 4 && decide (x.cursor < x.hostWrites.length) then
      let s := updXfer d o.id (fun y => { y with cursor := y.hostWrites.length }) (emitHost d o x x.cursor x.hostWrites.length s)
      if (reqsOf s d o.id .write).isEmpty then finishOp d o s else s
    else if x.remoteFlag.isSome then sendRemoteFlag d o.id s
    else finishOp d o s

/-- OPERATION_COMPLETE (R237). -/
def execOperationComplete (die : DieIx) (op : Nat) (s : State) : Result :=
  ok (match opOf s die op with
    | none => s
    | some o =>
      if opBlocked s die o then s
      else match o.xfer with
        | some x => finishXfer die o x s
        | none => finishOp die o s)

/-! ### NAK -/

/-- The collective that a NAK answers (R351): of its sender the rank, and COLL_ID or the receive window of the rank that refused. -/
def nakColl (s : State) (p : Packet) : Option (Op × Coll) :=
  collFind s p.dstDie fun c => c.epoch % 2 ^ 16 == p.epoch && p.rtag.toNat / 2 ^ 16 % 4096 == c.rank &&
    c.members.zipIdx.any fun m => m.2 != c.rank && m.1 == p.srcPart + p.srcDie.val * 2 ^ 16 &&
      (p.offset.toNat == c.collId || c.heads.any fun h => h.1 == m.2 && h.2.2.1 == p.window)

/-- The exchange that a NAK answers: its SESSION_TAG, its OPEN_SEQ, and a peer on the part that refused (log 101). -/
def nakExch (s : State) (p : Packet) : Option (DieIx × Op × Exch) :=
  (allParts.flatMap (partExchs s)).find? fun x => x.2.2.openSeq == p.rtag.toNat &&
    (match sessionOf s x.2.2.part x.2.2.session with
      | some ses => ses.tag == p.offset.toNat && (peersOf ses).any fun i => (ses.place i).1 == p.srcPart
      | none => false)

/-- A NAK that answers no request fails the collective or the exchange that it answers (R361), or is late. -/
def refuseWork (p : Packet) (s : State) : State :=
  match nakColl s p, nakExch s p with
  | some (o, _), _ => failColl p.dstDie o (BitVec.ofNat 16 p.wgen.toNat) s
  | none, some (d, o, _) => failOp d o 1 (BitVec.ofNat 16 p.wgen.toNat) s
  | none, none => countLate p.dstDie s

/-- NAK (R361): the transfer, collective or exchange fails with the NAK's event. -/
def execNak (s : State) : Result :=
  ok (match takeArrived (fun x => x.2.ptype == 5) s with
    | none => s
    | some ((_, p), s) => match requestOf s p with
      | some r => match opOf s r.die r.op with
        | some o => failOp r.die o 6 (BitVec.ofNat 16 p.wgen.toNat) (dropRequest r s)
        | none => dropRequest r s
      | none => refuseWork p s)

end Sys2Proof.Machine
end

