-- ==== Sys2Proof/Machine/Queues.lean ====
section
/-! DEFINITION. Queue packets and flags: QUEUE_WINDOW_WRITE, NOP, FENCE, SET_STEP, CANCEL, BLOCK (R279 to R292), SET_FLAG, CLEAR_FLAG,
WAIT_FLAG and their timeouts (R301 to R303), UNDEFINED_INSTRUCTION (R304). -/

namespace Sys2Proof.Machine

/-! ### Queue windows (R279, R281, R386, R387, R398) -/

/-- The function and slot of a BAR own die `d`'s partition here (R383, R387). -/
def barOwns (s : State) (port : HostId) (fn slot : Nat) (d : DieIx) : Option PartIx :=
  match (dieOf s d).owner with
  | some p =>
    let pt := partOfIx s p
    if pt.ownerPort = port ∧ pt.ownerFn = fn ∧ pt.memberSlot = slot ∧ (slot = 0 → (hostOf s port).linkUp = true) then some p else none
  | none => none

/-- The member that a gateway holds a slot for (R397). -/
def memberOf (s : State) (port : HostId) (fn slot : Nat) : Option MemberReg :=
  if slot = 0 || !(hostOf s port).linkUp then none
  else (hostOf s port).slotsHeld.find? fun r => r.fn == fn && r.slot == slot

/-- QUEUE_WINDOW_WRITE (R281, R387, R395, R398, R401): bytes land in the window, and line P is examined where the write touches it; a
member slot's writes are forwarded in order; a poisoned or ECRC-failing write is dropped and reported. -/
def execQueueWindowWrite (port : HostId) (fn slot : Nat) (die : DieIx) (queue : QueueIx) (offset : Nat) (bytes : Option (List Byte)) (s : State) : Result :=
  ok (match bytes with
    | none => updHost port (fun h => { h with aer := h.aer + 1 }) s
    | some bytes => match barOwns s port fn slot die with
      | some _ =>
        let p := (queueOf s die queue).pos
        let s := updQueue die queue (fun x => { x with window := memPut x.window offset bytes }) s
        wakeDie die (if offset < 64 * p + 64 ∧ 64 * p < offset + bytes.length then readQueue die queue s else s)
      | none => match memberOf s port fn slot with
        | some r => sendMsg .bench (hostDie port) r.part die (fun v => .forwardedQueue v r die queue offset bytes) s
        | none => s)

/-! ### NOP, SET_STEP, BLOCK -/

/-- NOP (R286). -/
def execNop (die : DieIx) (queue : QueueIx) (s : State) : Result := ok (actPacket die queue 0 (fun _ s => s) s)

/-- A float of SET_STEP: -0 is taken as +0 (R287). -/
def stepValue (v : Nat) : W32 := if v = 0x80000000 then 0 else BitVec.ofNat 32 v

/-- SET_STEP (R209, R286): once no job admitted earlier on the queue remains, the step context is set. -/
def execSetStep (die : DieIx) (queue : QueueIx) (s : State) : Result :=
  ok (match headPacket s die queue 6 with
    | none => s
    | some b =>
      if bodyOk b && !(queueOf s die queue).jobs.isEmpty then s
      else actPacket die queue 6 (fun b s =>
        okPacket die queue b 0 (updQueue die queue (fun x => { x with
          stepId := fieldAt b 0x10 4, eta := stepValue (fieldAt b 0x14 4)
          lambda := if bitOf (fieldAt b 0x1C 1) 0 then stepValue (fieldAt b 0x18 4) else 0 }) s)) s)

/-- BLOCK (R286, R291): it ends at once where its flag is set, and else holds the queue. -/
def execBlock (die : DieIx) (queue : QueueIx) (s : State) : Result :=
  ok (actPacket die queue 8 (fun b s =>
    let f := bitsOf (fieldAt b 0x10 2) 0 9
    let clear := bitOf (fieldAt b 0x12 1) 0
    let s := updQueue die queue (fun x => { x with stopFollowing := false }) s
    let s := holdQueue die queue (.block f clear (bitOf (fieldAt b 0x12 1) 1)) b s
    if flagSetP s die f then endBlock die f queue s else s) s)

/-- BLOCK_EXPIRY (R291): a BLOCK with a limit completes WITHHELD; with STOP the JOB_SUBMITs that follow are withheld. -/
def execBlockExpiry (die : DieIx) (queue : QueueIx) (s : State) : Result :=
  ok (match holdPacket s die queue with
    | some (.block _ _ stop, b) =>
      if fieldAt b 0x14 4 = 0 then s
      else
        let s := updQueue die queue (fun x => { x with hold := none, stopFollowing := stop }) s
        settleQueue die queue (refusePacket die queue 0x0401 b s)
    | _ => s)

/-! ### FENCE (R292) -/

/-- Dies of a mask. -/
def maskDies (m : Nat) : List DieIx := allDies.filter fun d => bitOf m d.val

/-- A big-number command belongs to a fenced queue. -/
def bnFenced (qm dm : Nat) (c : BnCmd) : Bool := c.part.isSome && bitOf dm c.at_.die.val && bitOf qm c.at_.queue.val

/-- FENCE: it marks the operations that the named queues of the named dies have issued. -/
def execFence (die : DieIx) (queue : QueueIx) (s : State) : Result :=
  ok (actPacket die queue 5 (fun b s =>
    let qm := fieldAt b 0x10 2
    let dm := fieldAt b 0x12 2
    if (maskDies dm).any fun d => (dieOf s d).owner != (dieOf s die).owner then refusePacket die queue 0x0102 b s
    else
      let ops := (maskDies dm).flatMap fun d => ((dieOf s d).ops.filter fun o => bitOf qm o.queue.val).map fun o => (d, o.id)
      let bns := ((s.bn.waiting ++ s.bn.running.toList).filter (bnFenced qm dm)).map (·.arrival)
      let fl := fieldAt b 0x16 2
      holdQueue die queue (.fence ops bns (bitOf (fieldAt b 0x14 1) 0) (if fl = 0xFFFF then none else some fl)) b s) s)

/-- A fenced operation is over; without REMOTE one that only awaits the acknowledgement of its remote writes is over too. -/
def fenceDone (s : State) (remote : Bool) (x : DieIx × Nat) : Bool :=
  match opOf s x.1 x.2 with
  | none => true
  | some o => !remote && (match o.xfer with
      | some y => y.plans.isEmpty && y.dst.space == 3 && (reqsOf s x.1 x.2 .read).isEmpty
      | none => false)

/-- FENCE_COMPLETE: everything marked is over; the flag is set. -/
def execFenceComplete (die : DieIx) (queue : QueueIx) (s : State) : Result :=
  ok (match holdPacket s die queue with
    | some (.fence ops bns remote fl, b) =>
      if ops.all (fenceDone s remote) && !(s.bn.waiting ++ s.bn.running.toList).any (fun c => bns.contains c.arrival) then
        let s := releaseQueue die queue (okPacket die queue b 0 s)
        match fl with
        | some f => signalFlag die f s
        | none => s
      else s
    | _ => s)

/-! ### CANCEL (R291) -/

/-- The first CANCEL that a queue has read, with what stands before it. -/
def findCancel : List LineItem → List LineItem → Option (List LineItem × List Byte × List LineItem)
  | _, [] => none
  | pre, .packet q n b x :: t =>
    if (envelopeRefuses b).isNone && pktType b == 7 then some (pre, b, t) else findCancel (pre ++ [.packet q n b x]) t
  | pre, .role j :: t => findCancel (pre ++ [.role j]) t

/-- A line item is a JOB_SUBMIT that a CANCEL matches. -/
def cancelsItem (mode target : Nat) : LineItem → Bool
  | .packet _ _ b _ => (envelopeRefuses b).isNone && pktType b == 4 && (mode != 0 || pktTag b == target)
  | .role _ => false

/-- Cancel the matching JOB_SUBMITs among the first `n` items of a queue's line; answers how many. -/
def cancelLine (d : DieIx) (q : QueueIx) (n mode target : Nat) (s : State) : Nat × State :=
  let l := (queueOf s d q).line
  let hit := (l.take n).filter (cancelsItem mode target)
  let s := updQueue d q (fun x => { x with line := (l.take n).filter (fun i => !(cancelsItem mode target i)) ++ l.drop n }) s
  (hit.length, hit.foldl (fun s i => match i with
    | .packet _ _ b _ => putCpl d q { cplWithheld (pktSeq b) 4 (pktTag b) (pktIrq b) 0 with cancelled := true } s
    | .role _ => s) s)

/-- The jobs that a CANCEL of a queue matches. -/
def cancelJobs (s : State) (p : PartIx) (d : DieIx) (q : QueueIx) (mode target : Nat) : List Nat :=
  (s.jobs.filter fun j => j.part == p && (mode == 2 || (j.die == d && j.queue == q && (mode == 1 || j.tag == target)))).map (·.id)

/-- CANCEL: matched jobs that have not started are removed, running ones aborted; the completion reports how many. -/
def execCancel (die : DieIx) (queue : QueueIx) (s : State) : Result :=
  ok (match (dieOf s die).owner with
    | none => s
    | some p =>
      if !(queueOpen s die queue) then s
      else match findCancel [] (queueOf s die queue).line with
        | none => s
        | some (pre, b, post) =>
          let s := updQueue die queue (fun x => { x with line := pre ++ post }) s
          if !(bodyOk b) then settleQueue die queue (refusePacket die queue 0x0102 b s)
          else
            let mode := fieldAt b 0x10 1
            let target := fieldAt b 0x18 8
            let js := cancelJobs s p die queue mode target
            let s := js.foldl (fun s i => quenchJob i 0 true s) s
            let (n, s) := cancelLine die queue pre.length mode target s
            let (m, s) := if mode = 2 then (ownedDies s p).foldl (fun (a : Nat × State) d => allQueues.foldl (fun (a : Nat × State) q =>
                if d = die ∧ q = queue then a
                else
                  let r := cancelLine d q (queueOf a.2 d q).line.length 2 0 a.2
                  (a.1 + r.1, r.2)) a) (0, s) else (0, s)
            settleDies (ownedDies s p) (okPacket die queue b (js.length + n + m) s))

/-! ### Flags (R301 to R303) -/

/-- Issue a standalone FLAG_SET with LENGTH 0 to the window that a descriptor names (R370): it is in flight until it is acknowledged. -/
def issueFlagSet (at_ : Site) (flag w : Nat) (j : Job) (s : State) : Issued :=
  let d := at_.die
  match descOf s d w with
  | none => .done (skipInstr 0x0105 j at_ 6 [] s)
  | some t =>
    let v := firstFail [t.recheck s, failIf (t.space != 3) (.skip 0x0105), failIf (flag < 256 || 320 ≤ flag) (.skip 0x0102), windowCheck s j t]
    if v != .pass then .done (onVerdict v j at_ 6 [] s id)
    else .done (sendReq d j s.nextId .flag 0 t.piece flag 0 [] (startOp d (opZero 0 j.id at_.queue at_.off 6) [] s))

/-- SET_FLAG (R301, R370): a local flag, or a remote flag of a window. -/
def execSetFlag (at_ : Site) (flag : FlagAt) (s : State) : Result :=
  ok (runInstr at_ (.setFlag at_ flag) (fun j s =>
    match flag with
    | .there w f => issueFlagSet at_ f w j s
    | .here f => .done (if f < 256 then signalFlag at_.die f s else skipInstr 0x0102 j at_ 0 [] s)) s)

/-- CLEAR_FLAG (R301). -/
def execClearFlag (at_ : Site) (flag : Nat) (s : State) : Result :=
  ok (runInstr at_ (.clearFlag at_ flag) (fun j s =>
    .done (if flag < 320 then clearFlagBit at_.die flag s else skipInstr 0x0102 j at_ 0 [] s)) s)

/-- WAIT_FLAG (R301). -/
def execWaitFlag (at_ : Site) (flag : Nat) (s : State) : Result :=
  ok (runInstr at_ (.waitFlag at_ flag) (fun j s =>
    if 320 ≤ flag then .done (skipInstr 0x0102 j at_ 0 [] s)
    else if flagSetP s at_.die flag then .done s else .wait (.flag flag) []) s)

/-- A wait that WAIT_LIMIT bounds (R96, R156, R247, R302). -/
def timedWait : Wait → Bool
  | .ring .. | .flag _ | .triples .. | .keyset .. => true
  | _ => false

/-- What a held instruction waits for has come (R244, R247, R301, R302). -/
def waitOver (s : State) (h : Held) : Bool :=
  match h.wait with
  | .flag f => flagSetP s h.at_.die f
  | .ring r true => let g := ringOf s h.at_.die r; decide (0 < diff32 g.tail g.take)
  | .ring r false => let g := ringOf s h.at_.die r; decide (diff32 g.fill g.head < g.slots)
  | .triples k n => (jobOf s h.job).any fun j => match tblGet (partOfIx s j.part).sessions k with
      | some x => decide (n ≤ x.pool.length)
      | none => false
  | .keyset k _ => (jobOf s h.job).any fun j => (ksOf s j.part k).state == .resident
  | _ => false

/-- What was awaited came just as the wait failed: a flag stays set, and 0x0403 LATE_ARRIVAL is counted (R302, R303). -/
def lateFlag (d : DieIx) (h : Held) (s : State) : State := if waitOver s h then countLate d s else s

/-- What a failing wait poisons: the destinations of a key switch (R96). -/
def waitDests : Wait → List Dest
  | .keyset _ ds => ds
  | _ => []

/-- The wait of an operation in flight for its key set fails, and its job is quenched (R96, R143). -/
def streamTimeout (d : DieIx) (q : QueueIx) (s : State) : State :=
  match (dieOf s d).ops.find? fun o => o.queue == q && keyStalled s o with
  | some o => match jobOf s o.job with
    | some j => quenchJob j.id 0x0401 false (logJob 0x0401 j { die := d, queue := q, off := o.off } 0 0 false s)
    | none => s
  | none => s

/-- FLAG_TIMEOUT (R96, R302): the wait at the front of a queue fails, or that of an operation which the queue has in flight, and the
job is quenched. -/
def execFlagTimeout (die : DieIx) (queue : QueueIx) (s : State) : Result :=
  ok (match heldFront s die queue with
    | some h => match jobOf s h.job with
      | some j =>
        if timedWait h.wait then
          let ds := waitDests h.wait
          quenchJob j.id 0x0401 false (poisonAll 0x0401 ds (nameDests j.id ds (logJob 0x0401 j h.at_ 0 0 false (lateFlag die h s))))
        else streamTimeout die queue s
      | none => s
    | none => streamTimeout die queue s)

/-- The flag or ring that a blocked queue awaits, as DETAIL gives it (R466). -/
def awaited (s : State) (d : DieIx) (q : QueueIx) : Option Nat :=
  match heldFront s d q with
  | some h => match h.wait with
    | .flag f => if f < 256 then some f else none
    | .ring r _ => some (448 + r)
    | _ => none
  | none => none

/-- A queue whose admitted job on this die names a flag in SET_FLAGS (R303). -/
def canSet (s : State) (d : DieIx) (f : Nat) (q : QueueIx) : Bool :=
  (queueOf s d q).jobs.any fun i => match jobOf s i with
    | some j => j.dies.zipIdx.any fun r => r.1 == d && (j.setFlags.getD r.2 []).contains f
    | none => false

/-- A transfer or FENCE that will set flag `f` of die `d` is in flight (R303). -/
def flagTargeted (s : State) (d : DieIx) (f : Nat) : Bool :=
  (s.dies.any fun x => x.ops.any fun o => o.flag == some { die := d, flag := f }) ||
  allQueues.any fun q => match (queueOf s d q).hold with
    | some (.fence _ _ _ g, _) => g == some f
    | _ => false

/-- A producer into ring `r`, or an operation that holds a claimed slot of it, is in flight. -/
def ringBusy (s : State) (d : DieIx) (r : Nat) : Bool :=
  (dieOf s d).ops.any fun o => (o.fills ++ o.takes).any (fun c => c.1 == r) || o.dests.contains (.ring d r)

/-- The conditions of R303 on a set of queues, the 1,024 qc of quiet apart. -/
def deadlocked (s : State) (d : DieIx) (w : List QueueIx) : Bool :=
  !w.isEmpty && w.all fun q => match awaited s d q with
    | some x =>
      if x < 448 then allQueues.all (fun p => !(canSet s d x p) || w.contains p) && !(flagTargeted s d x)
      else allQueues.all (fun p => (queueOf s d p).jobs.isEmpty || w.contains p) && !(ringBusy s d (x - 448))
    | none => false

/-- FLAG_DEADLOCK (R303): one entry for each queue of the set, then the quench of its jobs. What has come just before stands
against the declaration: it is counted late. -/
def execFlagDeadlock (die : DieIx) (queues : List QueueIx) (s : State) : Result :=
  let w := allQueues.filter queues.contains
  ok (if !(deadlocked s die w) then s
    else
      let js := w.filterMap fun q => (heldFront s die q).map (·.job)
      let s := w.foldl (fun s q => match heldFront s die q with
        | some h => match jobOf s h.job with
          | some j => logJob 0x0402 j h.at_ 0 ((awaited s die q).getD 0) false (lateFlag die h s)
          | none => s
        | none => s) s
      quenchJobs js 0x0402 s)

/-- UNDEFINED_INSTRUCTION (R304): skipped and logged. -/
def execUndefinedInstruction (at_ : Site) (s : State) : Result :=
  ok (runInstr at_ (.undefinedInstruction at_) (fun j s => .done (skipInstr 0x0101 j at_ 0 [] s)) s)

end Sys2Proof.Machine
end

