-- ==== Sys2Proof/Machine/KeySwitch.lean ====
section
/-! DEFINITION. Hybrid key switching (R124 to R131): relinearise, rotate, conjugate, the hoisted batches, and the standalone
pieces MODUP, IP and MODDOWN. -/

namespace Sys2Proof.Machine

/-- A key-switching operation with one result: `parts` source parts, its stream's KIND and Galois element, its limbs. It takes no
ciphertext with EXTENDED set: the spec does not say, the model refuses it by check 2 (log 93). -/
def cluSwitch (src dst : Loc) (slot parts kind : Nat) (g : Nat → Nat) (good : Nat → Bool)
    (body : RingCtx → List KeyDigit → PolyBody → PolyBody) : CluOp :=
  { cluPlain [src] dst with
    form := fun _ hs => (hd1 hs).isCt && (hd1 hs).parts == parts && (hd1 hs).ntt && !(hd1 hs).extended && good (hd1 hs).logN
    keySwitch := true
    heads := unaryHead fun c cat h => { h with parts := 2, noise := newNoise [h] (relinNoise c cat h) }
    streams := fun h => [(kind, g h.logN, h.level)]
    slot := slot
    body := fun r _ ks b => [body r (ks.headD []) (b.headD [])] }

/-- The cost context of a key switch. -/
def ksCost (c : Chain) (h : Header) (m : Nat) (ports : List Nat) (fd : Nat) : KsCost :=
  { n := h.logN, l := h.level + 1, p := c.pCount, alpha := c.alpha, m := m, fs := ports.headD 0, fd := fd }

/-- 2N - 1. -/
def conjElem (n : Nat) : Nat := 2 * 2 ^ n - 1

/-- A Galois element valid for ROTATE (R128). -/
def rotElem (n g : Nat) : Bool := g % 2 == 1 && decide (3 ≤ g ∧ g ≤ 2 * 2 ^ n - 3)

/-- RELINEARISE (R124). -/
def opRelin (src dst : Loc) (slot : Nat) : CluOp :=
  { cluSwitch src dst slot 3 1 (fun _ => 0) (fun _ => true) relinBody with
    cost := fun c hs m ports fd => (ksCost c (hd1 hs) m ports fd).total }

/-- The time of a rotation: the macro's and, in R108's case, the separate permutations of both parts. -/
def costRotate (c : Chain) (hs : List Header) (m : Nat) (ports : List Nat) (fd : Nat) : Nat :=
  (ksCost c (hd1 hs) m ports fd).total + ceilDiv (2 * permutePass (hd1 hs).logN ((hd1 hs).level + 1)) m

/-- ROTATE by `g` (R127, R128). -/
def opRotate (src dst : Loc) (g slot : Nat) : CluOp :=
  { cluSwitch src dst slot 2 2 (fun _ => g) (fun n => rotElem n g) (fun r k b => rotateBody r g k b) with
    cost := costRotate }

/-- CONJUGATE (R127): the Galois element 2N - 1 under the CONJUGATE key. -/
def opConj (src dst : Loc) (slot : Nat) : CluOp :=
  { cluSwitch src dst slot 2 3 conjElem (fun _ => true) (fun r k b => rotateBody r (conjElem r.n) k b) with
    cost := costRotate }

/-- A term of a hoisted batch: a rotation element, or 1 (R128). -/
def hoistElem (n g : Nat) : Bool := g == 1 || rotElem n g

/-- The streams of a hoisted batch: a ROTATE key for each g other than 1 (R92). -/
def hoistStreams (gs : List Nat) (h : Header) : List (Nat × Nat × Nat) :=
  (gs.filter (· != 1)).map fun g => (2, g, h.level)

/-- Deal the streamed keys out to the terms, none to an identity term. -/
def dealKeys : List Nat → List (List KeyDigit) → List (List KeyDigit)
  | [], _ => []
  | g :: gs, ks => if g = 1 then [] :: dealKeys gs ks else ks.headD [] :: dealKeys gs ks.tail

/-- The common form of HROT and HROT_SUM: a two-part ciphertext in the NTT domain over Q (R127); EXTENDED is refused as for the
other key switches (log 93). -/
def hoistForm (h : Header) : Bool := h.isCt && h.parts == 2 && h.ntt && !h.extended

/-- HROT (R129): output i equals ROTATE by g_i, or the source where g_i = 1. -/
def opHrot (src : Loc) (gs : List Nat) (dsts : List Loc) (slot : Nat) : CluOp :=
  { cluPlain [src] (.handle 0) with
    dsts := dsts
    outs := gs.length
    form := fun _ hs => hoistForm (hd1 hs) && decide (1 ≤ gs.length ∧ gs.length ≤ 64) && gs.all (hoistElem (hd1 hs).logN)
    keySwitch := true
    heads := fun c cat hs => gs.map fun g =>
      if g = 1 then (hd1 hs, false) else ({ hd1 hs with noise := newNoise [hd1 hs] (relinNoise c cat (hd1 hs)) }, true)
    streams := hoistStreams gs
    slot := slot
    body := fun r _ ks b => (gs.zip (dealKeys gs ks)).map fun gk =>
      if gk.1 = 1 then b.headD [] else rotateBody r gk.1 gk.2 (b.headD [])
    cost := fun c hs m ports fd =>
      let rot := (gs.filter (· != 1)).length
      (ksCost c (hd1 hs) m ports fd).hrot rot (gs.length - rot) }

/-- The SCALE values of the plaintexts of HROT_SUM are exactly equal (check 6, R130). -/
def equalScales (hs : List Header) : Bool := hs.tail.all fun h => h.scale == (hd2 hs).scale

/-- The ledger of an HROT_SUM: rotate, multiply, add into the running sum, in index order (R131). -/
def hrotSumNoise (c : Chain) (cat : List Nat) (gs : List Nat) (hs : List Header) : Int :=
  let h := hd1 hs
  let term (g : Nat) (pt : Header) : Int :=
    let e1 : Int := if g = 1 then h.noise else clampNoise (relinNoise c cat h)
    clampNoise (mulNoise h pt e1 pt.noise)
  match (gs.zip hs.tail).map (fun gp => term gp.1 gp.2) with
  | [] => 0
  | t :: ts => ts.foldl (fun acc x => (clampNoise (lsum acc x) : Int)) t

/-- The terms of HROT_SUM for the sum. -/
def hrotTerms (gs : List Nat) (ks : List (List KeyDigit)) (pts : List PolyBody) : List HrotTerm :=
  (gs.zip ((dealKeys gs ks).zip pts)).map fun x => { g := x.1, pt := partOf x.2.2 0, key := x.2.1 }

/-- HROT_SUM (R130). -/
def opHrotSum (src : Loc) (terms : List (Nat × Loc)) (dst : Loc) (slot : Nat) : CluOp :=
  let gs := terms.map (·.1)
  { cluPlain (src :: terms.map (·.2)) dst with
    form := fun _ hs => hoistForm (hd1 hs) && decide (1 ≤ gs.length ∧ gs.length ≤ 64) && gs.all (hoistElem (hd1 hs).logN) &&
      hs.tail.all (fun h => !h.isCt && h.extended)
    keySwitch := true
    scale := equalScales
    heads := fun c cat hs => [({ mulHead c hs with noise := newNoise hs (hrotSumNoise c cat gs hs) }, true)]
    streams := hoistStreams gs
    slot := slot
    body := fun r _ ks b => [hrotSumBody r (hrotTerms gs ks b.tail) (b.headD [])]
    cost := fun c hs m ports fd =>
      let rot := (gs.filter (· != 1)).length
      (ksCost c (hd1 hs) m ports fd).hrotSum rot (gs.length - rot) }

/-! ### The standalone pieces (R126) -/

/-- MODUP of digit `j`, or of all digits to the P limbs. -/
def opModUp (src dst : Loc) (digit : Option Nat) : CluOp :=
  { cluPlain [src] dst with
    form := fun c hs => (hd1 hs).ntt && !(hd1 hs).extended && (match c, digit with
      | some c, some j => decide (j < c.beta (hd1 hs).level)
      | _, _ => true)
    keySwitch := true
    heads := unaryHead fun _ _ h => { h with extended := true }
    body := fun r _ _ b => [modUpBody r digit (b.headD [])]
    cost := fun c hs m ports fd =>
      let h := hd1 hs
      let a := match digit with | some j => (c.digit h.level j).length | none => h.level + 1
      (ksCost c h m ports fd).modUp h.parts a }

/-- IP of β one-part extended digits with a key (log 23); each digit's header passes the binding check. R59 copies the fields that it
does not name from the first source; FORMAT_TAG of the two-part result is that of a ciphertext, 0xC701 (log 23). -/
def opIp (digits : List Loc) (dst : Loc) (kind g slot : Nat) : CluOp :=
  { cluPlain digits dst with
    form := fun c hs => !hs.isEmpty && hs.all (fun h => h.parts == 1 && h.extended && h.ntt) && (match c with
      | some c => hs.length == c.beta (hd1 hs).level
      | none => true)
    keySwitch := true
    heads := unaryHead fun _ _ h => { h with formatTag := 0xC701, parts := 2 }
    streams := fun h => [(kind, g, h.level)]
    slot := slot
    bound := id
    body := fun r _ ks b => let y := innerProduct r (b.map fun x => partOf x 0) (ks.headD []); [[y.1, y.2]]
    cost := fun c hs m ports fd => (ksCost c (hd1 hs) m ports fd).phase3 0 }

/-- MODDOWN of an extended object. -/
def opModDown (src dst : Loc) : CluOp :=
  { cluPlain [src] dst with
    form := fun _ hs => (hd1 hs).ntt && (hd1 hs).extended
    keySwitch := true
    heads := unaryHead fun c cat h => { h with extended := false, noise := newNoise [h] (relinNoise c cat h) }
    body := fun r _ _ b => [(b.headD []).map (modDownPart r)]
    cost := fun c hs m ports fd => (ksCost c (hd1 hs) m ports fd).phase4 (hd1 hs).parts }

/-! ### The meanings -/

/-- RELINEARISE (R124). -/
def execRelinearise (at_ : Site) (mask : BitVec 8) (src dst : Loc) (slot : Nat) (s : State) : Result :=
  ok (clusterInstr at_ mask (.relinearise at_ mask src dst slot) (opRelin src dst slot) s)
/-- ROTATE (R127). -/
def execRotate (at_ : Site) (mask : BitVec 8) (src dst : Loc) (g slot : Nat) (s : State) : Result :=
  ok (clusterInstr at_ mask (.rotate at_ mask src dst g slot) (opRotate src dst g slot) s)
/-- CONJUGATE (R127). -/
def execConjugate (at_ : Site) (mask : BitVec 8) (src dst : Loc) (slot : Nat) (s : State) : Result :=
  ok (clusterInstr at_ mask (.conjugate at_ mask src dst slot) (opConj src dst slot) s)
/-- HROT (R129). -/
def execHrot (at_ : Site) (mask : BitVec 8) (src : Loc) (gs : List Nat) (dsts : List Loc) (slot : Nat) (s : State) : Result :=
  ok (clusterInstr at_ mask (.hrot at_ mask src gs dsts slot) (opHrot src gs dsts slot) s)
/-- HROT_SUM (R130). -/
def execHrotSum (at_ : Site) (mask : BitVec 8) (src : Loc) (terms : List (Nat × Loc)) (dst : Loc) (slot : Nat) (s : State) :
    Result :=
  ok (clusterInstr at_ mask (.hrotSum at_ mask src terms dst slot) (opHrotSum src terms dst slot) s)
/-- MODUP (R126). -/
def execModUp (at_ : Site) (mask : BitVec 8) (src dst : Loc) (digit : Option Nat) (s : State) : Result :=
  ok (clusterInstr at_ mask (.modUp at_ mask src dst digit) (opModUp src dst digit) s)
/-- IP (R126). -/
def execIp (at_ : Site) (mask : BitVec 8) (digits : List Loc) (dst : Loc) (kind g slot : Nat) (s : State) : Result :=
  ok (clusterInstr at_ mask (.ip at_ mask digits dst kind g slot) (opIp digits dst kind g slot) s)
/-- MODDOWN (R126). -/
def execModDown (at_ : Site) (mask : BitVec 8) (src dst : Loc) (s : State) : Result :=
  ok (clusterInstr at_ mask (.modDown at_ mask src dst) (opModDown src dst) s)

end Sys2Proof.Machine
end

