-- ==== Sys2Proof/Machine/Temper.lean ====
section
/-! DEFINITION. Tempering (R135 to R144): the configuration and what it determines, its registration, the keys that TEMPER
needs, and the macro. -/

namespace Sys2Proof.Machine

/-! ### The configuration (R136) -/

/-- CHAIN_ID. -/
def TemperCfg.chain (c : TemperCfg) : Nat := fieldAt c.raw 0x03 1
/-- LOG_N. -/
def TemperCfg.logN (c : TemperCfg) : Nat := bitsOf (fieldAt c.raw 0x04 1) 0 5
/-- LOG_SLOTS, S. -/
def TemperCfg.logSlots (c : TemperCfg) : Nat := fieldAt c.raw 0x05 1
/-- D_CS. -/
def TemperCfg.dcs (c : TemperCfg) : Nat := bitsOf (fieldAt c.raw 0x06 1) 0 4
/-- D_SC. -/
def TemperCfg.dsc (c : TemperCfg) : Nat := bitsOf (fieldAt c.raw 0x06 1) 4 4
/-- EM_DEGREE. -/
def TemperCfg.degree (c : TemperCfg) : Nat := fieldAt c.raw 0x07 1
/-- EM_DOUBLINGS. -/
def TemperCfg.doublings (c : TemperCfg) : Nat := bitsOf (fieldAt c.raw 0x08 1) 0 3
/-- APPROX. -/
def TemperCfg.approx (c : TemperCfg) : Nat := fieldAt c.raw 0x0A 2
/-- IN_SCALE. -/
def TemperCfg.inScale (c : TemperCfg) : Nat := fieldAt c.raw 0x0C 4
/-- OUT_SCALE. -/
def TemperCfg.outScale (c : TemperCfg) : Nat := fieldAt c.raw 0x10 4

/-- EvalMod depth (R138). -/
def TemperCfg.emDepth (c : TemperCfg) : Nat := clog2 (c.degree + 1) + c.doublings
/-- L_out for a chain of `q` Q limbs (R138). -/
def TemperCfg.lOut (c : TemperCfg) (q : Nat) : Int := (q : Int) - 1 - c.dcs - c.emDepth - c.dsc
/-- Radix r_i of a transform of `dl` levels, i from 1 (R138). -/
def radix (sl dl i : Nat) : Nat := sl / dl + if i ≤ sl % dl then 1 else 0
/-- Stride σ_i. -/
def stride (sl dl i : Nat) : Nat := 2 ^ ((List.range (i - 1)).map fun k => radix sl dl (k + 1)).sum
/-- Offsets of level i. -/
def offsets (sl dl i : Nat) : List Int :=
  let r := 2 ^ radix sl dl i
  if i < dl then (List.range (2 * r - 1)).map fun k => (k : Int) - (r - 1 : Nat) else (List.range r).map fun k => (k : Int)
/-- b_i. -/
def babySteps (sl dl i : Nat) : Nat := 2 ^ ((radix sl dl i + 2) / 2)
/-- The distinct values of u. -/
def giantSteps (sl dl i : Nat) : List Int := ((offsets sl dl i).map fun e => e / (babySteps sl dl i : Int)).dedup
/-- B of R138. -/
def TemperCfg.emB (c : TemperCfg) : Nat := 2 ^ ((clog2 (c.degree + 1) + 1) / 2)
/-- G of R138. -/
def TemperCfg.emG (c : TemperCfg) : Nat := clog2 (c.degree + 1) - Nat.log2 c.emB
/-- M_EM of R138. -/
def TemperCfg.emM (c : TemperCfg) : Nat := (c.emB - 2) + c.emG + (ceilDiv (c.degree + 1) c.emB - 1) + c.doublings
/-- H of R138. -/
def TemperCfg.emH (c : TemperCfg) : Nat := c.emB - 1 + c.emG
/-- h of R138: the copies. -/
def TemperCfg.copies (c : TemperCfg) : Nat := if c.logSlots + 1 = c.logN then 2 else 1
/-- The largest b_i of either transform. -/
def TemperCfg.bMax (c : TemperCfg) : Nat :=
  let f (d : Nat) := (List.range d).map fun k => babySteps c.logSlots d (k + 1)
  (f c.dcs ++ f c.dsc).foldl Nat.max 0
/-- W_T rows (R139). -/
def TemperCfg.workRows (c : TemperCfg) (q p : Nat) : Nat :=
  2 ^ c.logN / 64 * (Nat.max (2 * (c.bMax - 1) * (q + p)) (2 * c.emH * (q - c.dcs)) + 4 * (q - c.dcs))

/-- The nonzero rotation amounts of one transform (R140). -/
def transformAmounts (sl dl : Nat) : List Nat :=
  let n := 2 ^ sl
  ((List.range dl).flatMap fun k =>
    let i := k + 1
    let st := stride sl dl i
    let b := babySteps sl dl i
    ((List.range b).map fun v => v * st % n) ++ ((giantSteps sl dl i).map fun u => ((b : Int) * u * st % n).toNat)).filter (· != 0)

/-- The amounts that the rotations of both transforms need, each once (R140). -/
def TemperCfg.amounts (c : TemperCfg) : List Nat :=
  (transformAmounts c.logSlots c.dcs ++ transformAmounts c.logSlots c.dsc).dedup

/-- The Galois elements of the partial trace (R140, its last item). -/
def TemperCfg.traceElems (c : TemperCfg) : List Nat :=
  (List.range (c.logN - 1 - c.logSlots)).map fun k => powMod 5 (2 ^ (c.logSlots + k)) (2 * 2 ^ c.logN)

/-- The keys that TEMPER needs, with their KIND, Galois element and least TOP_LEVEL (R140). Where the checks of several fail, the first
in this list names the event; the spec gives no order among the keys, the model takes R140's, RELIN last (log 94). -/
def TemperCfg.needs (c : TemperCfg) (q : Nat) : List (Nat × Nat × Nat) :=
  let m := 2 * 2 ^ c.logN
  c.amounts.map (fun a => (4, powMod 5 a m, q - 1)) ++ [(4, m - 1, q - 1)] ++ c.traceElems.map (fun g => (4, g, q - 1)) ++
  [(1, 0, q - 1 - c.dcs)]

/-- The key streams that the macro draws (R141, R144). -/
def TemperCfg.streams (c : TemperCfg) : Nat :=
  let lt (d : Nat) := ((List.range d).map fun k =>
    babySteps c.logSlots d (k + 1) - 1 + ((giantSteps c.logSlots d (k + 1)).length - 1)).sum
  (if c.copies = 1 then c.logN - 1 - c.logSlots else 1) + lt c.dcs + c.copies * c.emM + lt c.dsc

/-! ### Registration (R137) -/

/-- A configuration meets R137 against its chain, the table entry apart. A field outside its range in R136's table is refused as well,
which R137's list does not name (log 95). -/
def temperSound (b : List Byte) (ch : Option Chain) : Bool :=
  let c : TemperCfg := { raw := b }
  let n := c.degree + 1
  b.length == 0x40 + 8 * n && fieldAt b 0 2 == 0xC7A1 &&
  fieldAt b 0x3C 4 == (crc32c (b.take 0x3C ++ b.drop 0x40)).toNat && bitsOf (fieldAt b 2 1) 4 4 == 0 &&
  bitsOf (fieldAt b 4 1) 5 3 == 0 && bitsOf (fieldAt b 8 1) 3 5 == 0 && allZero (bytesAt b 0x16 0x26) &&
  fieldAt b 0x14 2 == n &&
  decide (12 ≤ c.logN ∧ c.logN ≤ 17 ∧ 1 ≤ c.logSlots ∧ c.logSlots + 1 ≤ c.logN ∧ 1 ≤ c.dcs ∧ c.dcs ≤ 6 ∧ 1 ≤ c.dsc ∧ c.dsc ≤ 6 ∧
    7 ≤ c.degree ∧ c.doublings ≤ 4 ∧ 1 ≤ fieldAt b 0x09 1 ∧ fieldAt b 0x09 1 ≤ 64) &&
  decide (c.dcs ≤ c.logSlots ∧ c.dsc ≤ c.logSlots ∧ ceilDiv c.logSlots c.dcs ≤ 8 ∧ ceilDiv c.logSlots c.dsc ≤ 8) &&
  decide (256 ≤ c.inScale ∧ c.inScale ≤ 552960 ∧ 256 ≤ c.outScale ∧ c.outScale ≤ 552960) &&
  (match ch with
   | some ch => ch.tList.all (· == 0) && decide (1 ≤ ch.pCount) && decide (0 ≤ c.lOut ch.qCount)
   | none => false)

/-! ### Cost (R144) -/

/-- T_LT + T_rs of one transform level at `l` limbs. -/
def TemperCfg.levelCost (c : TemperCfg) (ch : Chain) (l d i : Nat) : Nat :=
  let f := costF c.logN
  let k : KsCost := { n := c.logN, l := l, p := ch.pCount, alpha := ch.alpha, m := 8, fs := f, fd := f }
  let up := k.phase1 + Nat.max (ceilDiv k.u 8 * Nat.max (costC c.logN) (2 ^ c.logN * ch.alpha / 256))
    (Nat.max (ceilDiv (l * f) 4) (k.spill k.need * f))
  let ip := k.phase3 (k.spill k.need)
  let x := ceilDiv (2 * (l + ch.pCount)) 8 * f
  let b := babySteps c.logSlots d i
  let g := (giantSteps c.logSlots d i).length
  up + (b - 1) * Nat.max ip x + (offsets c.logSlots d i).length * x + g * k.phase4 2 + (g - 1) * (up + ip + k.phase4 2) +
    costRescale c.logN 2 (l - 1) 8 1 f f

/-- The sum of R144. -/
def TemperCfg.cost (c : TemperCfg) (ch : Chain) : Nat :=
  let n := c.logN
  let f := costF n
  let q := ch.qCount
  let l2 := q - c.dcs
  let l3 := (c.lOut q).toNat + c.dsc + 1
  let ks (l : Nat) : Nat :=
    let k : KsCost := { n := n, l := l, p := ch.pCount, alpha := ch.alpha, m := 8, fs := f, fd := f }
    k.phase1 + Nat.max (ceilDiv k.u 8 * Nat.max (costC n) (2 ^ n * ch.alpha / 256))
      (Nat.max (ceilDiv (l * f) 4) (k.spill k.need * f)) + k.phase3 (k.spill k.need) + k.phase4 2
  let rows (l : Nat) := ceilDiv (2 * l) 8
  Nat.max (costC n) f + ceilDiv (2 * f) 4 + ceilDiv (2 * q) 8 * (costC n + costE n) +
  ((List.range c.dcs).map fun i => c.levelCost ch q c.dcs (i + 1)).sum +
  (if c.copies = 2 then ks l2 + 2 * rows l2 * (2 * f) + rows l2 * f else 0) +
  c.copies * (c.emM * (ceilDiv l2 8 * (4 * costE n) + ks l2 + costRescale n 2 (l2 - 1) 8 1 f f) + (c.degree + 2) * rows l2 * f) +
  (if c.copies = 2 then rows l3 * (2 * f) + rows l3 * f else 0) +
  ((List.range c.dsc).map fun i => c.levelCost ch l3 c.dsc (i + 1)).sum

/-! ### The operation (R139 to R143) -/

/-- The header that TEMPER writes (R142). -/
def temperHead (cfg : TemperCfg) (q : Nat) (h : Header) : Header :=
  { h with level := (cfg.lOut q).toNat, scale := cfg.outScale
           noise := newNoise [h] (lsum ((h.noise : Int) + sOf cfg.outScale - sOf h.scale) cfg.approx) }

/-- Level drop to limb 0 and ModRaise (R141): the centred coefficients of limb 0 modulo every Q limb, transformed. -/
def modRaise (r : RingCtx) (b : PolyBody) : PolyBody :=
  b.map fun p =>
    let q0 := r.qs.headD 1
    let w := (inttLimb q0 r.n (p.headD [])).map fun x => centred x q0
    r.qs.map fun q => nttLimb q r.n (w.map fun x => imod x q)

/-- The partial trace (R141): for each element in turn, with its key, the ciphertext plus its rotation (log 24). -/
def partialTrace (r : RingCtx) (gks : List (Nat × List KeyDigit)) (b : PolyBody) : PolyBody :=
  gks.foldl (fun ct gk => List.zipWith (addParts r) ct (rotateBody r gk.1 gk.2 ct)) b

/-- The limbs that TEMPER gives (R141): raised, traced where h = 1, and carried through the transforms and EvalMod, whose diagonals the
spec gives no values (log 24). -/
def temperBody (cf : TemperCfg) (r : RingCtx) (ks : List (List KeyDigit)) (b : PolyBody) : PolyBody :=
  let gks := if cf.copies = 1 then cf.traceElems.zip (ks.drop (cf.amounts.length + 1)) else []
  let x := partialTrace r gks (modRaise r b)
  (List.range 2).map fun p => (r.qs.take ((cf.lOut r.qs.length).toNat + 1)).zipIdx.map fun q => (List.range (2 ^ r.n)).map fun k =>
    Config.temperTail cf.raw r.qs x ks p q.2 k % q.1

/-- TEMPER as a cluster operation of the Q primes `qs`: its streams are the keys of R140, drawn as often as R144 counts. -/
def opTemper (src dst : Loc) (slot : Nat) (cfg : Option TemperCfg) (qs : List Nat) : CluOp :=
  { cluPlain [src] dst with
    form := fun _ hs => hoistForm (hd1 hs) && (hd1 hs).scheme == 1 &&
      (match cfg with | some c => c.logSlots == (hd1 hs).logSlots | none => true)
    keySwitch := true
    scale := fun hs => match cfg with | some c => decide (natDiff (hd1 hs).scale c.inScale ≤ 16) | none => true
    heads := fun ch _ hs => match cfg with
      | some c => [(temperHead c ch.qCount (hd1 hs), true)]
      | none => [(hd1 hs, true)]
    streams := fun _ => match cfg with | some c => c.needs qs.length | none => []
    slot := slot
    drawn := fun _ => match cfg with | some c => c.streams | none => 0
    body := fun r _ ks b => match cfg with
      | some c => [temperBody c { r with qs := qs } ks (b.headD [])]
      | none => []
    cost := fun ch _ _ _ _ => match cfg with | some c => c.cost ch | none => 0 }

/-- Checks of TEMPER after those of R57 (R139): the entry, the workspace. -/
def temperChecks (s : State) (d : DieIx) (cfg : Option TemperCfg) (c : Option Chain) (work : Nat) (others : List SbEntry) : Verdict :=
  match cfg, c with
  | some cf, some ch =>
    let w := handleOf s d work
    if !w.valid then .refuse 0x0104 0x0104
    else failIf (decide (w.rows < cf.workRows ch.qCount ch.pCount) || others.any (overlaps (handleRange s d work 0 w.rows true)))
      (.refuse 0x0105 0x0105)
  | _, _ => .refuse 0x0105 0x0105

/-- The row ranges of the scratchpad that a source or destination occupies: for a ring, its slot. -/
def occupied (s : State) (d : DieIx) (xs : List Src) (dst : Loc) : List SbEntry :=
  (xs.filterMap fun x => match x.loc with
    | .region .. => none
    | _ => some { lo := x.row, hi := x.row + x.rows - 1, write := false, op := 0 }) ++ locRanges s d true [dst]

/-- Issue TEMPER. -/
def issueTemper (at_ : Site) (src dst : Loc) (cfgId slot work : Nat) (j : Job) (s : State) : Issued :=
  let d := at_.die
  let ds := locDests d 0xFF 0 dst
  let us := ringUses [src]
  let pre := firstFail [locCheck s d src, dstCheck s d dst, match ringCheck s d us with | some e => .skip e | none => .pass]
  let rs := locRanges s d false [src] ++ locRanges s d true ([dst] ++ if (handleOf s d work).valid then [.handle work] else [])
  if pre != .pass then .done (onVerdict pre j at_ 1 ds s id)
  else match ringSlots s d us with
    | none => .wait (ringWait s d us) rs
    | some slots => withScoreboard d rs s fun es s =>
      let xs := findSrcs s d [src] slots
      let h := (xs.map (·.header)).headD headerZero
      let c := chainOf s j.part h.chainId
      let cfg := tblGet (partOfIx s j.part).tempers cfgId
      let qs := match c with | some c => c.qPrimes s.fuses.primes (c.qCount - 1) | none => []
      let o := opTemper src dst slot cfg qs
      let match3 := match cfg with
        | some cf => failIf (cf.chain != h.chainId || cf.logN != h.logN) (.refuse 0x0202 0x0202)
        | none => .pass
      let v := firstFail [poisonCheck xs, formCheck o c xs [h], ringCheck3 true c [h], match3,
        failIf (!(o.scale [h])) (.refuse 0x0205 0x0205), temperChecks s d cfg c work (occupied s d xs dst)]
      if v != .pass then .done (onVerdict v j at_ 1 ds s id)
      else match c, cfg with
        | some c, some cf =>
          let out := settle c s.fuses.primes [h] (temperHead cf c.qCount h)
          if xs.any (fun x => !(srcFits (maskClusters 0xFF) x c.pCount (limbsOf c h))) ||
              !(dstFits s d (maskClusters 0xFF) dst out c.pCount (limbsOf c out)) then
            .done (skipInstr 0x0105 j at_ 1 ds s)
          else match bindAll s d j.part slot h (cf.needs c.qCount) with
            | .wait => .wait (.keyset slot ds) rs
            | .fail e => .done (refuseInstr e e j at_ 2 ds s)
            | .ok =>
              let w := handleOf s d work
              let fr := s.free
              let wipe (m : Mem) : Mem := freeMem m (w.base * rowBytes) (w.rows * rowBytes) (fr + 1)
              let s := { updDie d (fun x => { x with scratch := wipe x.scratch }) s with free := fr + 2 }
              .done (runClu at_ 0xFF o j c xs slots es s)
        | _, _ => .done s

/-- TEMPER (R139 to R143). -/
def execTemper (at_ : Site) (src dst : Loc) (cfg slot work : Nat) (s : State) : Result :=
  ok (runInstr at_ (.temper at_ src dst cfg slot work) (issueTemper at_ src dst cfg slot work) s)

end Sys2Proof.Machine
end

