-- ==== Sys2Proof/Machine/Programs.lean ====
section
/-! DEFINITION. Programs and jobs: the GHX image (R296 to R300), PROGRAM_LOAD and unload, PATCH (R290), JOB_SUBMIT (R288) and
JOB_COMPLETE (R294, R338). -/

namespace Sys2Proof.Machine

/-! ### Staged data (R287, R391) -/

/-- Staged bytes: nothing where the store handle does not hold them. -/
def stagedBytes (s : State) (x : Staged) (o n : Nat) : List Byte :=
  let e := storeOf s x.1 x.2.1
  if e.valid && decide (x.2.2 + o + n ≤ e.rows * rowBytes) then storeBytes s x.1 x.2.1 (x.2.2 + o) n else []

/-! ### The GHX image (R296 to R298) -/

/-- A section-table entry: type, role, offset, length. -/
def ghxSection (b : List Byte) (k : Nat) : Nat × Nat × Nat × Nat :=
  let o := 0x40 + 32 * k
  (fieldAt b o 1, fieldAt b (o + 1) 1, fieldAt b (o + 4) 4, fieldAt b (o + 8) 4)

/-- All sections. -/
def ghxSections (b : List Byte) : List (Nat × Nat × Nat × Nat) := (List.range (fieldAt b 0x0E 1)).map (ghxSection b)

/-- The bytes of a section. -/
def sectionBytes (b : List Byte) (x : Nat × Nat × Nat × Nat) : List Byte := bytesAt b x.2.2.1 x.2.2.2

/-- The bytes of every section of a type, in section-table order, as one (R300). -/
def typeBytes (b : List Byte) (t : Nat) : List Byte := ((ghxSections b).filter (·.1 == t)).flatMap (sectionBytes b)

/-- One section-table entry is right. -/
def sectionOk (b : List Byte) (k : Nat) : Bool :=
  let o := 0x40 + 32 * k
  let x := ghxSection b k
  ((1 ≤ x.1 && x.1 ≤ 6) || (0x10 ≤ x.1 && x.1 ≤ 0x1F)) && (if x.1 = 1 then decide (x.2.1 < fieldAt b 0x0C 1) else x.2.1 == 0xFF) &&
  zeroRange b (o + 2) (o + 4) && zeroRange b (o + 0x0C) (o + 0x1C) && x.2.2.1 % 64 == 0 && decide (x.2.2.1 + x.2.2.2 ≤ b.length) &&
  fieldAt b (o + 0x1C) 4 == (crc32c (sectionBytes b x)).toNat

/-- Entries of `n` bytes in a type's sections. -/
def entriesOf (b : List Byte) (t n : Nat) : List (List Byte) := chunks n (typeBytes b t)

/-- A PATCH entry is right: its place lies in its section, and PKIND is known (R298). -/
def patchEntryOk (b e : List Byte) : Bool :=
  let x := (ghxSections b)[fieldAt e 2 1]?
  e.length == 16 && decide (1 ≤ fieldAt e 3 1 ∧ fieldAt e 3 1 ≤ 64 ∧ 1 ≤ fieldAt e 8 1 ∧ fieldAt e 8 1 ≤ 4) && zeroRange e 9 16 &&
  match x with
  | some x => decide (fieldAt e 4 4 + fieldAt e 3 1 ≤ 8 * x.2.2.2)
  | none => false

/-- An ENTRY entry keeps its reserved bytes zero. -/
def entryEntryOk (e : List Byte) : Bool := zeroRange e 2 4 && zeroRange e 0x0C 0x10 && zeroRange e 0x30 0x40

/-- Dies of a DIE_MAP of `n` roles. -/
def mapDies (m n : Nat) : List DieIx := (List.range n).map fun r => dieBits (m / 2 ^ (4 * r))

/-- The second check of R300. -/
def imageOk (s : State) (p : PartIx) (b : List Byte) (length dieMap : Nat) : Bool :=
  let roles := fieldAt b 0x0C 1
  let xs := ghxSections b
  let ds := mapDies dieMap roles
  b.length == length && decide (64 ≤ length) && fieldAt b 0 4 == 0x01584847 && fieldAt b 4 2 == 1 && fieldAt b 6 2 == 0x6440 &&
  fieldAt b 8 4 == length && decide (1 ≤ roles ∧ roles ≤ 16 ∧ 1 ≤ fieldAt b 0x0D 1 ∧ fieldAt b 0x0D 1 ≤ 64 ∧ 1 ≤ fieldAt b 0x0E 1 ∧
    fieldAt b 0x0E 1 ≤ 64 ∧ 0x40 + 32 * fieldAt b 0x0E 1 ≤ length) &&
  fieldAt b 0x0F 1 == 0 && bitsOf (fieldAt b 0x10 2) 7 9 == 0 && zeroRange b 0x12 0x14 && zeroRange b 0x18 0x3C &&
  fieldAt b 0x3C 4 == (crc32c (bytesAt b 0 0x3C)).toNat && (List.range xs.length).all (sectionOk b) &&
  (List.range roles).all (fun r => xs.countP (fun x => x.1 == 1 && x.2.1 == r) == 1) &&
  xs.countP (·.1 == 4) == 1 && (typeBytes b 4).length == 16 * roles && xs.countP (·.1 == 6) == 1 &&
  (typeBytes b 6).length == 64 * fieldAt b 0x0D 1 * roles && (typeBytes b 2).length % 8 == 0 && (typeBytes b 3).length % 16 == 0 &&
  (entriesOf b 2 8).all (fun e => zeroRange e 3 4) && (entriesOf b 3 16).all (patchEntryOk b) && (entriesOf b 4 16).all (fun e => zeroRange e 0x0E 0x10) && (entriesOf b 6 64).all entryEntryOk &&
  decide ds.Nodup && ds.all (fun d => (dieOf s d).owner == some p) && dieMap / 2 ^ (4 * roles) == 0

/-- Bytes of CODE for a role. -/
def codeBytesOf (b : List Byte) (r : Nat) : Nat :=
  match (ghxSections b).find? fun x => x.1 == 1 && x.2.1 == r with
  | some x => x.2.2.2
  | none => 0

/-! ### PARAM records (R44, R137, R148) -/

/-- A session descriptor meets R148, the table entry apart. The dealer's pair counts for distinctness, and SELF 3 is accepted, whatever
VALID of DEALER_PART says: R147 and R148 give that bit no part in the check (log 96). -/
def sessionSound (s : State) (p : PartIx) (chains : Tbl Chain) (b : List Byte) : Bool :=
  let x : Session := { raw := b, openSeq := 0, dealSeq := 0, consumed := 0, pool := [], heldDeals := [], outDeals := [], early := [] }
  let n := x.parties
  let place (i : Nat) : Nat × Nat := x.place i
  let all := (List.range n).map place ++ [place 3]
  fieldAt b 0x3C 4 == (crc32c (bytesAt b 0 0x3C)).toNat && bitsOf (fieldAt b 2 1) 4 4 == 0 && bitsOf (fieldAt b 3 1) 4 4 == 0 &&
  bitsOf (fieldAt b 4 1) 2 6 == 0 && (List.range 3).all (fun i => !bitOf (fieldAt b (0x10 + 2 * i) 2) 14) && !bitOf (fieldAt b 0x1A 2) 14 &&
  zeroRange b 0x20 0x3C && (n == 2 || n == 3) && (x.ring == 1 || x.ring == 2) && decide (x.cap ≤ 2 ^ 24) && x.tag % 2 ^ 40 != 0 &&
  (List.range 3).all (fun i => bitOf (fieldAt b (0x10 + 2 * i) 2) 15 == decide (i < n)) &&
  (List.range 3).all (fun i => decide (fieldAt b (0x16 + i) 1 ≤ 15)) && decide (fieldAt b 0x19 1 ≤ 15) && decide all.Nodup &&
  (x.self == 3 || decide (x.self < n)) && place x.self == (s.fabric.partId, p.val) &&
  (if x.ring = 1 then (tblGet chains x.chainId).isSome else x.chainId == 0)

/-- The tables that PARAM records register into. -/
structure ParamTables where
  chains : Tbl Chain
  tempers : Tbl TemperCfg
  sessions : Tbl Session
  /-- Triple pools: die, session slot, first row, rows (R148). -/
  pools : List (DieIx × Nat × Nat × Nat)

/-- Scratchpad rows of a triple pool: TRIPLE_CAP elements of each of a, b and c, packed as R150 packs elements. -/
def poolRows (x : Session) : Nat := 3 * ceilDiv x.cap (if x.ring = 1 then 64 else 36)

/-- Free scratchpad rows of the partition's lowest die that has `n` of them together, beside the pools already taken (log 33). -/
def poolPlace (s : State) (p : PartIx) (taken : List (DieIx × Nat × Nat × Nat)) (n : Nat) : Option (DieIx × Nat) :=
  (ownedDies s p).findSome? fun d =>
    let used := ((dieOf s d).handles.filter (·.2.valid)).map (fun e => (e.2.base, e.2.rows)) ++ ((dieOf s d).heldOut.map fun r => (r, 1)) ++
      (taken.filter fun t => t.1 == d).map (·.2.2)
    (takeRun n (gapsOf (2 ^ 20) used)).map fun x => (d, x.1)

/-- A triple pool's handle: no program names it, since handle indices end at 1023 (R225, log 33). -/
def poolHandle (slot : Nat) : Nat := 1024 + slot

/-- Allocate the triple pools: each a secret-marked handle (R148, R162). -/
def allocPools (l : List (DieIx × Nat × Nat × Nat)) (s : State) : State :=
  l.foldl (fun s t => updHandle t.1 (poolHandle t.2.1) (fun _ =>
    { Handle.zero with base := t.2.2.1, rows := t.2.2.2, valid := true, isSecret := true }) s) s

/-- A session as it is registered (R157, R158). -/
def newSession (r : List Byte) : Session :=
  { raw := r, openSeq := 0, dealSeq := 0, consumed := 0, pool := [], heldDeals := [], outDeals := [], early := [] }

/-- Register one record: its length and the tables after it; the event where it fails. -/
def regRecord (s : State) (p : PartIx) (b : List Byte) (t : ParamTables) : Except Ev (Nat × ParamTables) :=
  match fieldAt b 0 2 with
  | 0xC7C0 => match regChain (bytesAt b 0 128) t.chains with
    | some c => .ok (128, { t with chains := c })
    | none => .error 0x0202
  | 0xC7A1 =>
    let n := 0x40 + 8 * fieldAt b 0x14 2
    let r := b.take n
    let c : TemperCfg := { raw := r }
    let k := bitsOf (fieldAt r 2 1) 0 4
    if !(temperSound r (tblGet t.chains c.chain)) then .error 0x0202
    else match tblGet t.tempers k with
      | some o => if o.raw = r then .ok (n, t) else .error 0x0202
      | none => .ok (n, { t with tempers := tblSet t.tempers k c })
  | 0xC7D1 =>
    let r := bytesAt b 0 64
    let k := bitsOf (fieldAt r 2 1) 0 4
    if !(sessionSound s p t.chains r) then .error 0x0202
    else match tblGet t.sessions k with
      | some o => if o.raw = r then .ok (64, t) else .error 0x0202
      | none =>
        let x := newSession r
        let t := { t with sessions := tblSet t.sessions k x }
        if x.cap = 0 || x.self = 3 then .ok (64, t)
        else match poolPlace s p t.pools (poolRows x) with
          | none => .error 0x0104
          | some l => .ok (64, { t with pools := t.pools ++ [(l.1, k, l.2, poolRows x)] })
  | _ => .error 0x0102

/-- Register every record in image order; `f` bounds them. -/
def regParams (s : State) (p : PartIx) : Nat → List Byte → ParamTables → Except Ev ParamTables
  | 0, _, t => .ok t
  | f + 1, b, t =>
    if b.isEmpty then .ok t
    else match regRecord s p b t with
      | .error e => .error e
      | .ok (n, t) => regParams s p f (b.drop n) t

/-! ### PROGRAM_LOAD (R300) -/

/-- The program that an image holds (R298). -/
def programOf (b : List Byte) (ds : List DieIx) : Program :=
  let roles := fieldAt b 0x0C 1
  { image := b, digest := Config.imageDigest b, roles := roles, dieMap := ds, entryCount := fieldAt b 0x0D 1
    entries := (entriesOf b 6 64).map fun e => { entry := fieldAt e 0 1, role := fieldAt e 1 1, declaredNs := fieldAt e 4 4, codeOffset := fieldAt e 8 4
                                                 setFlags := (List.range 256).filter fun f => bitOf (fieldAt e (0x10 + f / 8) 1) (f % 8) }
    power := (entriesOf b 4 16).map fun e => (List.range 7).map fun c => fieldAt e (2 * c) 2
    patches := (entriesOf b 3 16).map fun e => (fieldAt e 0 2, fieldAt e 2 1, fieldAt e 3 1, fieldAt e 4 4, fieldAt e 8 1)
    codeLen := (List.range roles).map (codeBytesOf b), sections := ghxSections b, patchPending := none }

/-- The verdict of R300 on an image: the event of the first check that fails, or the tables after its registrations. -/
def loadCheck (s : State) (p : PartIx) (slot length dieMap : Nat) (b : List Byte) : Except Ev ParamTables :=
  let pt := partOfIx s p
  let roles := fieldAt b 0x0C 1
  let ds := mapDies dieMap roles
  if (tblGet pt.programs slot).isSome then .error 0x0104
  else if !(imageOk s p b length dieMap) then .error 0x0102
  else if ds.any fun d => (List.range 7).any fun e => bitOf (fieldAt b 0x10 2) e && !bitOf (enginePresence s d) e then .error 0x0103
  else if ds.zipIdx.any fun d => decide (2 ^ 24 < (dieOf s d.1).codeBytes + codeBytesOf b d.2) then .error 0x0104
  else regParams s p ((typeBytes b 5).length + 1) (typeBytes b 5) { chains := pt.chains, tempers := pt.tempers, sessions := pt.sessions, pools := [] }

/-- PROGRAM_LOAD (R300): a load or an unload begins and holds its queue. -/
def execProgramLoad (die : DieIx) (queue : QueueIx) (s : State) : Result :=
  let staged := headStaged s die queue
  ok (actPacket die queue 1 (fun b s =>
    match (dieOf s die).owner with
    | none => s
    | some p =>
      let slot := fieldAt b 0x10 1
      let loaded := (tblGet (partOfIx s p).programs slot).isSome
      if loaded != (fieldAt b 0x14 4 == 0) then refusePacket die queue 0x0104 b s
      else holdQueue die queue (.programLoad slot staged) b s) s)

/-- PROGRAM_LOAD_COMPLETE (R300): the image is checked and registered, all or nothing. -/
def execProgramLoadComplete (die : DieIx) (queue : QueueIx) (image : List Byte) (s : State) : Result :=
  ok (match holdPacket s die queue, (dieOf s die).owner with
    | some (.programLoad slot st, b), some p =>
      let n := fieldAt b 0x14 4
      let dm := fieldAt b 0x20 8
      if n = 0 then s
      else
        let img := match st with
          | some x => stagedBytes s x 0 n
          | none => bytesAt image 0 n
        let s := match loadCheck s p slot n dm img with
          | .error e => refusePacket die queue e b s
          | .ok t =>
            let ds := mapDies dm (fieldAt img 0x0C 1)
            let s := updPart p (fun x => { x with
              chains := t.chains, tempers := t.tempers, sessions := t.sessions, programs := tblSet x.programs slot (programOf img ds) }) s
            let s := ds.zipIdx.foldl (fun s d => updDie d.1 (fun x => { x with codeBytes := x.codeBytes + codeBytesOf img d.2 }) s) s
            okPacket die queue b 0 (allocPools t.pools s)
        releaseQueue die queue s
    | _, _ => s)

/-- An admitted job names a program slot. -/
def slotInUse (s : State) (p : PartIx) (slot : Nat) : Bool := s.jobs.any fun j => j.part == p && j.slot == slot && j.phase == .admitted

/-- PROGRAM_UNLOAD (R300): the slot empties once no admitted job names it. -/
def execProgramUnload (die : DieIx) (queue : QueueIx) (s : State) : Result :=
  ok (match holdPacket s die queue, (dieOf s die).owner with
    | some (.programLoad slot _, b), some p =>
      if fieldAt b 0x14 4 ≠ 0 || slotInUse s p slot then s
      else match tblGet (partOfIx s p).programs slot with
        | none => releaseQueue die queue (refusePacket die queue 0x0104 b s)
        | some g =>
          let s := g.dieMap.zipIdx.foldl (fun s d => updDie d.1 (fun x => { x with codeBytes := x.codeBytes - g.codeLen.getD d.2 0 }) s) s
          let s := updPart p (fun x => { x with programs := tblDel x.programs slot }) s
          finishEvictions p (releaseQueue die queue (okPacket die queue b 0 s))
    | _, _ => s)

/-! ### PATCH (R290) -/

/-- The records of a PATCH: PATCH_ID and VALUE (R287). -/
def patchRecords (b : List Byte) : List (Nat × Nat) :=
  (List.range (fieldAt b 0x11 1)).map fun k =>
    let o := if k < 2 then 0x18 + 16 * k else 0x40 + 16 * (k - 2)
    (fieldAt b o 2, fieldAt b (o + 8) 8)

/-- The places of a PATCH_ID: section, width, bit offset. -/
def patchPlaces (g : Program) (k : Nat) : List (Nat × Nat × Nat) :=
  (g.patches.filter (·.1 == k)).map fun p => (p.2.1, p.2.2.1, p.2.2.2.1)

/-- Every record names a PATCH_ID of the program, and its value fits every place. -/
def patchFits (g : Program) (rs : List (Nat × Nat)) : Bool :=
  rs.all fun r => !(patchPlaces g r.1).isEmpty && (patchPlaces g r.1).all fun p => decide (r.2 < 2 ^ p.2.1)

/-- Write a `w`-bit field at bit `o` of bytes, little-endian bit order (R298). -/
def putBits (bs : List Byte) (o w v : Nat) : List Byte :=
  let n := (o % 8 + w + 7) / 8
  let old := fieldAt bs (o / 8) n
  let new_ := old - bitsOf old (o % 8) w * 2 ^ (o % 8) + v % 2 ^ w * 2 ^ (o % 8)
  bs.take (o / 8) ++ leBytes n new_ ++ bs.drop (o / 8 + n)

/-- Apply the records of a PATCH to a program (R290): its image changes, and what the part reads of it; the digest stays that of
the image as loaded (R300). -/
def applyPatch (g : Program) (rs : List (Nat × Nat)) : Program :=
  let im := rs.foldl (fun im r => (patchPlaces g r.1).foldl (fun im p => putBits im (placeBit g p.1 p.2.2) p.2.1 r.2) im) g.image
  { programOf im g.dieMap with digest := g.digest, codeLen := g.codeLen }

/-- PATCH (R290): refused whole, or pending for its slot; a PATCH that meets a pending one waits for it. -/
def execPatch (die : DieIx) (queue : QueueIx) (s : State) : Result :=
  ok (match headPacket s die queue 2, (dieOf s die).owner with
    | some b, some p =>
      let slot := fieldAt b 0x10 1
      match tblGet (partOfIx s p).programs slot with
      | none => actPacket die queue 2 (fun b s => refusePacket die queue 0x0104 b s) s
      | some g =>
        if bodyOk b && g.patchPending.isSome then s
        else actPacket die queue 2 (fun b s =>
          if !(patchFits g (patchRecords b)) then refusePacket die queue 0x0102 b s
          else holdQueue die queue (.patch slot) b (updPart p (fun x => { x with
            programs := tblSet x.programs slot { g with patchPending := some (die, queue) } }) s)) s
    | _, _ => s)

/-- PATCH_APPLY (R290): once no admitted job names the slot, the values are written. -/
def execPatchApply (die : DieIx) (queue : QueueIx) (s : State) : Result :=
  ok (match holdPacket s die queue, (dieOf s die).owner with
    | some (.patch slot, b), some p =>
      if slotInUse s p slot then s
      else match tblGet (partOfIx s p).programs slot with
        | none => releaseQueue die queue (refusePacket die queue 0x0104 b s)
        | some g =>
          let s := updPart p (fun x => { x with programs := tblSet x.programs slot (applyPatch g (patchRecords b)) }) s
          releaseQueue die queue (okPacket die queue b 0 (finishEvictions p s))
    | _, _ => s)

/-! ### JOB_SUBMIT and JOB_COMPLETE (R288, R294) -/

/-- The entry records of an entry point, by role. -/
def Program.roleEntry (g : Program) (entry r : Nat) : Option EntryRec := g.entries.find? fun e => e.entry == entry && e.role == r

/-- The job of a JOB_SUBMIT packet. -/
def jobOfPacket (s : State) (p : PartIx) (d : DieIx) (q : QueueIx) (g : Program) (b : List Byte) : Job :=
  let entry := fieldAt b 0x11 1
  let es := (List.range g.roles).map (g.roleEntry entry)
  { id := s.nextId, part := p, slot := fieldAt b 0x10 1, entry := entry, die := d, queue := q, dies := g.dieMap, seq := pktSeq b, tag := pktTag b
    irq := pktIrq b, lines := b.length / 64, wantHallmark := bitOf (fieldAt b 0x12 1) 0, priority := bitsOf (fieldAt b 0x12 1) 1 2
    args := (List.range (fieldAt b 0x13 1)).map fun k => fieldAt b (0x40 + 8 * k) 8
    waitLimit := if fieldAt b 0x14 4 = 0 then 10000 else fieldAt b 0x14 4, seed := bytesAt b 0x18 32, phase := .queued, age := 0
    passed := 0, pinned := false, tokens := g.power
    declaredNs := (es.map fun e => match e with | some e => e.declaredNs | none => 0).foldl Nat.max 0
    reproducible := false, epoch := 0, admittedAt := 0, quench := none, stopped := false, cancelled := false, skip := none
    refusedPoison := none, refusedDegraded := false, events := 0, binds := [], dests := [], secretDests := [], weights := [], inputs := []
    keyTags := [], energyPj := 0, clamped := false, clampLogged := false
    setFlags := es.map fun e => match e with | some e => e.setFlags | none => [] }

/-- JOB_SUBMIT (R288, R323, R404): refused, or an admission candidate on every die of its DIE_MAP. -/
def execJobSubmit (die : DieIx) (queue : QueueIx) (s : State) : Result :=
  ok (actPacket die queue 4 (fun b s =>
    match (dieOf s die).owner with
    | none => s
    | some p =>
      let pt := partOfIx s p
      match tblGet pt.programs (fieldAt b 0x10 1) with
      | none => refusePacket die queue (if pt.role = .standby then 0x0102 else 0x0104) b s
      | some g =>
        if pt.role = .standby then refusePacket die queue 0x0102 b s
        else if ((List.range g.roles).all fun r => (g.roleEntry (fieldAt b 0x11 1) r).isNone) || g.entryCount ≤ fieldAt b 0x11 1 then
          refusePacket die queue 0x0104 b s
        else if g.dieMap.head? != some die then refusePacket die queue 0x0102 b s
        else
          let j := jobOfPacket s p die queue g b
          let s := { s with jobs := s.jobs ++ [j], nextId := s.nextId + 1 }
          let s := holdQueue die queue (.job j.id) b s
          (g.dieMap.drop 1).foldl (fun s d => updQueue d queue (fun x => { x with line := x.line ++ [.role j.id] }) s) s) s)

/-- Nothing of a job is left to run: operations, held instructions, big-number commands. -/
def jobIdle (s : State) (j : Job) : Bool :=
  !(s.dies.any fun x => x.ops.any fun o => o.job == j.id) &&
  !(s.held.any fun h => h.job == j.id) &&
  !((s.bn.waiting ++ s.bn.running.toList).any fun c => c.part.isSome && c.job == j.id)

/-- JOB_COMPLETE (R294, R338): an admitted job whose work is over completes. -/
def execJobComplete (job elapsedNs : Nat) (s : State) : Result :=
  ok (match jobOf s job with
    | none => s
    | some j =>
      if j.phase = .admitted && jobIdle s j then settleDies (ownedDies s j.part) (finishJob job elapsedNs s) else s)

end Sys2Proof.Machine
end

