-- ==== Sys2Proof/Machine/Keysets.lean ====
section
/-! DEFINITION. Key sets: wrapped import and refetch (R66 to R83, R104), the directory (R84 to R86), eviction (R90), mirroring
(R100, R101) and damaged rows (R102). -/

namespace Sys2Proof.Machine

/-- KIND and GALOIS keep to R66. -/
def galoisOk (n : Nat) (k : KeyEntry) : Bool :=
  match k.kind with
  | 1 => k.galois == 0
  | 2 => k.galois % 2 == 1 && decide (3 ≤ k.galois ∧ k.galois ≤ 2 * 2 ^ n - 3)
  | 3 => k.galois == 2 * 2 ^ n - 1
  | 4 => k.galois % 2 == 1 && decide (3 ≤ k.galois ∧ k.galois ≤ 2 * 2 ^ n - 1)
  | _ => false

/-- What check 10 asks of the header row: R73, the envelope's tag and length, P_COUNT not 0. -/
def bundleHeadOk (b : List Byte) (tag length : Nat) : Bool :=
  fieldAt b 0 2 == 0xC7B1 && fieldAt b 2 1 == 1 && (fieldAt b 3 1 == 1 || fieldAt b 3 1 == 2) && fieldAt b 4 1 == bundleLogN b &&
  decide (12 ≤ bundleLogN b ∧ bundleLogN b ≤ 17 ∧ 1 ≤ bundleKeys b ∧ bundleKeys b ≤ 4096) && fieldAt b 5 1 == 0 &&
  zeroRange b 0x12 0x18 && zeroRange b 0x3C 0x80 && zeroRange b 0x100 0x11C && fieldAt b 0x11C 4 == (crc32c (bytesAt b 0 0x11C)).toNat &&
  fieldAt b 8 8 == tag && length == rowBytes * (bundleBody b + bundleRows b) && decide (rowBytes * bundleBody b ≤ b.length) &&
  fieldAt b 0x83 1 != 0

/-- What check 10 asks of the key table, the chain apart. -/
def bundleTableOk (b : List Byte) : Bool :=
  let es := bundleEntries b
  (List.range (bundleKeys b)).all (fun e => let x := keyEntryBytes b e; zeroRange x 7 8 && zeroRange x 0x0C 0x10 && zeroRange x 0x18 0x20) &&
  zeroRange b (rowBytes + 32 * bundleKeys b) (rowBytes * bundleBody b) &&
  es.all (fun k => galoisOk (bundleLogN b) k && k.index != 0xFFFFFFFF) && decide (es.map (·.index)).Nodup &&
  decide (es.map fun k => (k.kind, k.galois)).Nodup

/-- What check 10 asks of the key table against a sound chain descriptor (R74, R75). -/
def bundleLayoutOk (b : List Byte) (c : Chain) : Bool :=
  let es := bundleEntries b
  es.all (fun k => decide (k.topLevel < c.qCount) && k.digits == ceilDiv (k.topLevel + 1) c.alpha &&
    k.rowCount == k.digits * (k.topLevel + 1 + c.pCount) * (2 ^ bundleLogN b / 64) && decide (k.rowOffset + k.rowCount ≤ bundleRows b)) &&
  (List.range es.length).all fun i => (es.take i).all fun k => match es[i]? with
    | some x => decide (x.rowOffset + x.rowCount ≤ k.rowOffset ∨ k.rowOffset + k.rowCount ≤ x.rowOffset)
    | none => true

/-- What checks 10 and 12 say of body row `r`: a row of no key is zero, a residue is below its limb's prime. -/
def bodyRowFails (b : List Byte) (c : Chain) (cat : List Nat) (es : List KeyEntry) (r : Nat) : Option Nat :=
  let x := bytesAt b (rowBytes * (bundleBody b + r)) rowBytes
  match es.find? fun k => decide (k.rowOffset ≤ r ∧ r < k.rowOffset + k.rowCount) with
  | none => if allZero x then none else some 0x08
  | some k =>
    let pos := (r - k.rowOffset) / (2 ^ bundleLogN b / 64) % (k.topLevel + 1 + c.pCount)
    let q := primeAt cat (if pos ≤ k.topLevel then c.qList.getD pos 0 else c.pList.getD (pos - k.topLevel - 1) 0)
    if (unpackPairs x).all fun v => decide (v < q) then none else some 0x0A

/-- Checks 10 to 12 on the rows of a bundle that have arrived: the reason code of the first that fails (R80). A chain that R44 refuses
fails before what depends on it is judged. `chains` is the partition's chain table; `agrees` says that a refetch matches its set (R104). -/
def bundleFails (b : List Byte) (cat : List Nat) (tag length : Nat) (chains : Tbl Chain) (agrees : Bool) : Option Nat :=
  let c := bundleChain b
  if !(bundleHeadOk b tag length) || !(bundleTableOk b) then some 0x08
  else if (regChain c.raw chains).isNone then some 0x09
  else if !(bundleLayoutOk b c) then some 0x08
  else if !agrees then some 0x09
  else (List.range (b.length / rowBytes - bundleBody b)).findSome? fun r => bodyRowFails b c cat (bundleEntries b) r

/-! ### Rows of a stack (R87, R88) -/

/-- Every run of rows that is taken on stack `d`. -/
def takenRuns (s : State) (d : DieIx) : List (Nat × Nat) :=
  keyRuns s d ++ ((dieOf s d).storeHandles.filter (·.2.valid)).map (fun e => (e.2.base, e.2.rows)) ++ (dieOf s d).heldOutStore.map fun r => (r, 1)

/-- The free rows of stack `d`. -/
def freeGaps (s : State) (d : DieIx) : List (Nat × Nat) := gapsOf 25165824 (takenRuns s d)

/-- Take the `n` lowest rows, wherever they lie. -/
def takeLoose : Nat → List (Nat × Nat) → List (Nat × Nat) × List (Nat × Nat)
  | _, [] => ([], [])
  | n, g :: t =>
    if n = 0 then ([], g :: t)
    else if n ≤ g.2 then ([(g.1, n)], (g.1 + n, g.2 - n) :: t)
    else
      let x := takeLoose (n - g.2) t
      (g :: x.1, x.2)

/-- Lay bundle rows from `r` on along runs of stack rows: first bundle row, rows, first stack row. -/
def layRuns : Nat → List (Nat × Nat) → List (Nat × Nat × Nat)
  | _, [] => []
  | r, g :: t => (r, g.2, g.1) :: layRuns (r + g.2) t

/-- A place for each key, its rows contiguous (R88); what stays free. -/
def placeKeys : List (Nat × Nat) → List (Nat × Nat) → Option (List (Nat × Nat × Nat) × List (Nat × Nat))
  | [], g => some ([], g)
  | k :: t, g => match takeRun k.2 g with
    | none => none
    | some x => match placeKeys t x.2 with
      | none => none
      | some y => some ((k.1, k.2, x.1) :: y.1, y.2)

/-- A place for the rows of no key. -/
def placeLoose : List (Nat × Nat) → List (Nat × Nat) → List (Nat × Nat × Nat)
  | [], _ => []
  | k :: t, g =>
    let x := takeLoose k.2 g
    layRuns k.1 x.1 ++ placeLoose t x.2

/-- Places on every die of a list, none where one has none. -/
def placeOn (f : DieIx → Option (List (Nat × Nat × Nat))) : List DieIx → Option (List (Nat × Nat × Nat × Nat))
  | [] => some []
  | d :: t => match f d, placeOn f t with
    | some l, some r => some (l.map (fun x => (d.val, x)) ++ r)
    | _, _ => none

/-- The dies of a HOME_MASK. -/
def homeDies (m : BitVec 16) : List DieIx := allDies.filter fun d => m.getLsbD d.val

/-- Free rows for `n` bundle rows on every home, none where a home lacks them (check 8); the keys are placed once the key table is
there (log 60). -/
def reserveHomes (s : State) (m : BitVec 16) (n : Nat) : Option (List (Nat × Nat × Nat × Nat)) :=
  placeOn (fun d =>
    let x := (takeLoose n (freeGaps s d)).1
    if (x.map (·.2)).sum = n then some (layRuns 0 x) else none) (homeDies m)

/-- A place for a bundle of `n` rows, by its key table, on every home: each key together, the other rows wherever (R88). -/
def placeHomes (s : State) (m : BitVec 16) (b : List Byte) (n : Nat) : Option (List (Nat × Nat × Nat × Nat)) :=
  let ks := (bundleEntries b).map fun k => (bundleBody b + k.rowOffset, k.rowCount)
  placeOn (fun d => match placeKeys ks (freeGaps s d) with
    | none => none
    | some x => some (x.1 ++ placeLoose (gapsOf n ks) x.2)) (homeDies m)

/-- The lowest first row where `n` free rows lie together on stack `d`. -/
def placeRows (s : State) (d : DieIx) (n : Nat) : Option Nat := (takeRun n (freeGaps s d)).map (·.1)

/-- Write bytes of a bundle from byte offset `o` into one run of its rows; the die wakes (R333). -/
def writeRun (o : Nat) (bs : List Byte) (r : Nat × Nat × Nat × Nat) (s : State) : State :=
  let lo := Nat.max o (r.2.1 * rowBytes)
  let hi := Nat.min (o + bs.length) ((r.2.1 + r.2.2.1) * rowBytes)
  if lo < hi then
    wakeDie (dieBits r.1) (updDie (dieBits r.1) (fun x => { x with
      store := memPut x.store (r.2.2.2 * rowBytes + (lo - r.2.1 * rowBytes)) (bytesAt bs (lo - o) (hi - lo)) }) s)
  else s

/-- Write bytes of a bundle from byte offset `o` to every copy. -/
def writeCopies (placed : List (Nat × Nat × Nat × Nat)) (o : Nat) (bs : List Byte) (s : State) : State :=
  placed.foldl (fun s r => writeRun o bs r s) s

/-- The directory slot of a tag in a partition, FREE slots apart. -/
def findTag (s : State) (p : PartIx) (tag : Nat) : Option (Nat × KeySet) :=
  (partOfIx s p).keysets.find? fun e => e.2.state != .free && e.2.tag == tag

/-! ### KEYSET_BIND (R76 to R82, R104) -/

/-- The envelope is right (check 1): `b` is empty where the bundle is shorter than it. -/
def envelopeSound (b : List Byte) (p : PartIx) : Bool :=
  b.length == 256 && fieldAt b 0 2 == 0xC7E1 && fieldAt b 2 1 == 1 && fieldAt b 3 1 == 1 && fieldAt b 4 1 == p.val && zeroRange b 5 8 &&
  zeroRange b 0xA0 0xFC && fieldAt b 0xFC 4 == (crc32c (bytesAt b 0 0xFC)).toNat && fieldAt b 0x18 8 != 0 && fieldAt b 0x18 8 % 288 == 0

/-- Key sets in every state but FREE, of one partition. -/
def liveSets (t : Partition) : Nat := t.keysets.countP fun e => e.2.state != .free

/-- The bundle's tag is that of the DAMAGED set in a slot: a refetch (R104). -/
def isRefetch (s : State) (p : PartIx) (slot tag : Nat) : Bool := (ksOf s p slot).state == .damaged && (ksOf s p slot).tag == tag

/-- Checks 1 to 8 of R80 in order: the reason code of the first that fails, or the rows for every home. -/
def bindChecks (s : State) (p : PartIx) (env : List Byte) (slot : Nat) (homes : BitVec 16) :
    Except Nat (List (Nat × Nat × Nat × Nat)) :=
  let t := partOfIx s p
  let tag := fieldAt env 8 8
  let id := bitsOf tag 0 40
  let re := isRefetch s p slot tag
  let placed := reserveHomes s homes (fieldAt env 0x18 8 / 288)
  if !(envelopeSound env p) then .error 0x01
  else if t.importKey.map (·.id) != some (fieldAt env 0x10 8) then .error 0x02
  else if !(ecValid p384 (fieldAt env 0x40 48) (fieldAt env 0x70 48)) then .error 0x03
  else if id = 0 || t.keysets.any (fun e => e.2.tag == tag && e.2.state != .free && e.2.state != .damaged) then .error 0x04
  else if t.keysets.any (fun e => e.2.state != .free && bitsOf e.2.tag 0 40 == id && decide (tag / 2 ^ 40 < e.2.tag / 2 ^ 40)) then .error 0x05
  else if !re && ((ksOf s p slot).state != .free || (findTag s p tag).isSome) then .error 0x0B
  else if homes = 0 || (homeDies homes).any (fun d => (dieOf s d).owner != some p || !(dieActive s d)) then .error 0x0C
  else if !re && (decide (256 ≤ liveSets t) || decide (1024 ≤ (allParts.map fun q => liveSets (partOfIx s q)).sum)) then .error 0x06
  else match placed with
    | some l => .ok l
    | none => .error 0x06

/-- The session key of an envelope under the partition's scalar (R78). -/
def sessionKeyOf (env : List Byte) (d : Nat) : List Byte :=
  let z := (ecCoords (ecMul p384 d (some (fieldAt env 0x40 48, fieldAt env 0x70 48)))).1
  hkdf32 (bytesAt env 0x20 32) (beBytes 48 z) (ascii "ZS-GH64-KEYWRAP1" ++ bytesAt env 4 1 ++ bytesAt env 8 8 ++ bytesAt env 0x10 8)

/-- Record a reason code in the named slot where R80 allows it: it is FREE, or holds the DAMAGED set of the bundle's tag. -/
def noteReason (p : PartIx) (slot tag r : Nat) (s : State) : State :=
  if (ksOf s p slot).state = .free || isRefetch s p slot tag then updKs p slot (fun k => { k with lastReason := r }) s else s

/-- KEYSET_BIND (R80, R404): checks 1 to 8, then the queue is held until the import commits or fails. -/
def execKeysetBind (die : DieIx) (queue : QueueIx) (envelope : List Byte) (s : State) : Result :=
  let staged := headStaged s die queue
  ok (actPacket die queue 3 (fun b s =>
    match (dieOf s die).owner with
    | none => s
    | some p =>
      let slot := fieldAt b 0x10 1
      let homes := BitVec.ofNat 16 (fieldAt b 0x12 2)
      let env := if fieldAt b 0x20 8 < 256 then [] else match staged with
        | some x => stagedBytes s x 0 256
        | none => bytesAt envelope 0 256
      let tag := fieldAt env 8 8
      if (partOfIx s p).role = .standby then refusePacket die queue 0x0102 b s
      else match bindChecks s p env slot homes with
        | .error r => refuseBind p die queue b r (noteReason p slot tag r s)
        | .ok placed =>
          let re := isRefetch s p slot tag
          let len := fieldAt env 0x18 8
          let im : Import :=
            { slot := slot, die := die, queue := queue, tag := tag, homeMask := homes, length := len, refetch := re, envelope := env
              sessionKey := (partOfIx s p).importKey.map fun k => sessionKeyOf env k.d, nextSeg := 0, plain := [], placed := placed, confirm := false
              mirror := mirrored s p, staged := staged }
          let s := updPart p (fun t => { t with imports := t.imports ++ [im] }) s
          let s := updKs p slot (fun k => if re then { k with state := .refetching }
            else { KeySet.zero with state := .importing, tag := tag, homeMask := homes, totalRows := len / rowBytes, lastReason := k.lastReason }) s
          holdQueue die queue (.import slot) b s) s)

/-! ### IMPORT_SEGMENT (R79 to R81, R100, R101) -/

/-- The import of a slot. -/
def importOf (s : State) (p : PartIx) (slot : Nat) : Option Import := (partOfIx s p).imports.find? (·.slot == slot)

/-- Change the import of a slot. -/
def updImport (p : PartIx) (slot : Nat) (f : Import → Import) (s : State) : State :=
  updPart p (fun t => { t with imports := t.imports.map fun m => if m.slot = slot then f m else m }) s

/-- A refetch's PARAM_SET, chain and HOME_MASK equal its set's (R104). -/
def importAgrees (s : State) (p : PartIx) (im : Import) (b : List Byte) : Bool :=
  let k := ksOf s p im.slot
  !im.refetch || (k.paramSet == fieldAt b 0x10 2 && k.chain == bytesAt b 0x80 128 && k.homeMask == im.homeMask)

/-- The IV of segment `i` (R79). -/
def segIv (i : Nat) (last : Bool) : List Byte := leBytes 4 i ++ List.replicate 7 0 ++ leBytes 1 (b2n last)

/-- Byte offset of the segment due (R79). -/
def segOff (im : Import) : Nat := im.nextSeg * segSize
/-- Bytes of the segment due: a whole segment, or what the envelope's length leaves (R79). -/
def segLen (im : Import) : Nat := if im.length - segOff im < segSize then im.length - segOff im else segSize

/-- Open the next segment of an import (check 9): `none` where its tag fails or the wrapped bundle of `wlen` bytes does not hold
exactly the segments. -/
def openSegment (im : Import) (wlen : Nat) (sealedBytes : List Byte) : Option (List Byte) :=
  match im.sessionKey with
  | none => none
  | some k =>
    let n := segLen im
    let last := im.length ≤ segOff im + n
    let at_ := 256 + im.nextSeg * (segSize + 16)
    if wlen < at_ + n + 16 || (last && wlen != at_ + n + 16) then none
    else gcmOpen k (segIv im.nextSeg last) im.envelope (bytesAt sealedBytes 0 n) (bytesAt sealedBytes n 16)

/-- The sealed bytes of the segment due: those staged in a stack, or those that come with the command. -/
def segBytes (s : State) (im : Import) (sealedBytes : List Byte) : List Byte :=
  match im.staged with
  | some x => stagedBytes s x (256 + im.nextSeg * (segSize + 16)) (segLen im + 16)
  | none => sealedBytes

/-- Where the rows of an import go once a segment has passed its checks: the first brings the key table, and the keys are placed in
what is free without the import's own reservation (R88). -/
def settlePlace (s : State) (p : PartIx) (im : Import) (b : List Byte) : Option (List (Nat × Nat × Nat × Nat)) :=
  if im.nextSeg = 0 then placeHomes (updImport p im.slot (fun m => { m with placed := [] }) s) im.homeMask b (im.length / rowBytes)
  else some im.placed

/-- Checks 10 to 12 on an import's rows so far. -/
def importFails (s : State) (p : PartIx) (im : Import) (b : List Byte) : Option Nat :=
  bundleFails b s.fuses.primes im.tag im.length (partOfIx s p).chains (importAgrees s p im b)

/-- A segment that has passed its checks (R80): it is written to every home and forwarded to the twin; after the last one
the import commits, or waits for the twin. Where mirroring has stopped, the twin is told to discard what it has (R101). -/
def keepSegment (p : PartIx) (slot : Nat) (im : Import) (m : List Byte) (placed : List (Nat × Nat × Nat × Nat)) (s : State) : State :=
  let last := im.length ≤ segOff im + segLen im
  let fwd := im.mirror && mirrored s p
  let x := { im with plain := im.plain ++ m, nextSeg := im.nextSeg + 1, mirror := fwd, confirm := last && fwd, placed := placed }
  let s := writeCopies placed (segOff im) m (updImport p slot (fun _ => x) s)
  let s := if fwd then sendRows p (.keyRows slot (BitVec.ofNat 64 x.tag) x.homeMask (segOff im) m last) s
    else if im.mirror && im.nextSeg != 0 then sendTwin 5 p im.tag s else s
  if last && !fwd then commitImport p x false s else s

/-- An authenticated segment (R80): checks 10 to 12 on what has arrived, a place for its keys, then it is kept. -/
def takeSegment (p : PartIx) (slot : Nat) (im : Import) (m : List Byte) (s : State) : State :=
  match importFails s p im (im.plain ++ m) with
  | some r => failImport p im r s
  | none => match settlePlace s p im (im.plain ++ m) with
    | none => failImport p im 0x06 s
    | some l => keepSegment p slot im m l s

/-- The segment due arrives (R80): it is authenticated and taken, or the import fails; `wlen` is the WIRE_LENGTH. -/
def segmentArrives (p : PartIx) (slot : Nat) (im : Import) (wlen : Nat) (bytes : List Byte) (s : State) : State :=
  match openSegment im wlen bytes with
  | none => failImport p im 0x07 s
  | some m => takeSegment p slot im m s

/-- IMPORT_SEGMENT (R80): the segment due is authenticated and taken, or the import fails. -/
def execImportSegment (p : PartIx) (slot : Nat) (sealedBytes : List Byte) (s : State) : Result :=
  ok (match importOf s p slot with
    | none => s
    | some im =>
      if im.confirm then s
      else match holdPacket s im.die im.queue with
        | none => s
        | some h => segmentArrives p slot im (fieldAt h.2 0x20 8) (segBytes s im sealedBytes) s)

/-! ### Eviction (R90) and damaged rows (R102, R103) -/

/-- What an eviction request answers. -/
inductive Evict where
  | ok | state | range
  deriving DecidableEq, Repr

/-- Answer an eviction request for a tag of a partition. -/
def evictAnswer (s : State) (p : PartIx) (tag : Nat) : Evict :=
  match findTag s p tag with
  | none => .range
  | some e => if e.2.state = .importing || e.2.state = .refetching then .state else .ok

/-- The operations in flight that wait for the set in a slot fail at order 1 of the binding check as it goes (R96, R143). -/
def failStalled (p : PartIx) (slot : Nat) (s : State) : State :=
  (ownedDies s p).foldl (fun s d => ((dieOf s d).ops.filter fun o => keyStalled s o && o.keySlots.contains slot).foldl (fun s o =>
    match jobOf s o.job with
    | some j => quenchJob j.id 0x0201 false (logJob 0x0201 j { die := d, queue := o.queue, off := o.off } 2 0 false s)
    | none => s) s) s

/-- The named set moves to EVICTING, and is released once no job binds it (R90). -/
def evictSet (p : PartIx) (tag : Nat) (s : State) : State :=
  match findTag s p tag, evictAnswer s p tag with
  | some e, .ok => finishEvictions p (updKs p e.1 (fun k => { k with state := .evicting }) (failStalled p e.1 s))
  | _, _ => s

/-- The bundle row that stack row `r` of die `d` holds in a set. -/
def bundleRowOf (k : KeySet) (d r : Nat) : Option Nat :=
  (k.rows.find? fun x => x.1 == d && decide (x.2.2.2 ≤ r ∧ r < x.2.2.2 + x.2.2.1)).map fun x => x.2.1 + (r - x.2.2.2)

/-- The key, by its place in the table, that a bundle row belongs to. -/
def keyOfRow (k : KeySet) (r : Nat) : Option Nat :=
  k.keys.findIdx? fun e => decide (keyFirstRow k e ≤ r ∧ r < keyFirstRow k e + e.rowCount)

/-- KEY_ROW_PARITY (R102, R103): the stream's operation is aborted, the row is held out, the set is DAMAGED; a mirrored set is
refetched from the twin. -/
def execKeyRowParity (die : DieIx) (op row : Nat) (s : State) : Result :=
  ok (match opOf s die op with
    | none => s
    | some o =>
      match o.keySlots.head?, jobOf s o.job with
      | some slot, some j =>
        let k := ksOf s j.part slot
        match bundleRowOf k die.val row with
        | none => s
        | some r =>
          match keyOfRow k r with
          | none => s
          | some key =>
            let s := holdOutStack die row s
            let damaged := k.state = .resident
            let s := updKs j.part slot (fun k =>
              { k with failing := if k.failing.contains key then k.failing else k.failing ++ [key]
                       state := if damaged then .damaged else k.state
                       damageCount := if damaged then (k.damageCount + 1) % 2 ^ 16 else k.damageCount }) s
            let s := if damaged && k.mirrored && s.twin.state = .paired then
                sendTwin 6 j.part k.tag (updKs j.part slot (fun k => { k with state := .refetching })
                  { s with twin := { s.twin with refetches := s.twin.refetches ++ [(j.part, slot)] } })
              else s
            settleDies (ownedDies s j.part) (quenchJob j.id 0x0302 false
              (logJob 0x0302 j { die := die, queue := o.queue, off := o.off } 2 row false s))
      | _, _ => s)

end Sys2Proof.Machine
end

