-- ==== Sys2Proof/Machine/Twins.lean ====
section
/-! DEFINITION. Twins (R402 to R412): pairing, heartbeats and loss, mirrored rows and their commit (R100, R101), refetches from the
twin (R103), fills (R407). -/

namespace Sys2Proof.Machine

/-- Change the twin state. -/
def updTwin (f : Twin → Twin) (s : State) : State := { s with twin := f s.twin }

/-! ### Pairing (R406) -/

/-- The twin port is UP with link encryption on (R406). -/
def twinLinkUp (s : State) : Bool :=
  match s.ports[s.twin.port]? with
  | some x => x.state == .up && x.keyState == .on
  | none => false

/-- PAIR: refused with STATE unless the part is UNPAIRED and R406 holds. -/
def startPair (s : State) : Except Nat State :=
  if s.twin.state = .unpaired && twinLinkUp s then
    .ok (sendTwin 2 0 0 (updTwin (fun t => { t with state := .pairing, sent := [] }) s))
  else .error 7

/-- PAIR_RESEND (R406). -/
def execPairResend (s : State) : Result := ok (if s.twin.state = .pairing then sendTwin 2 0 0 s else s)

/-- PAIR_RECORD (R405, R406): in PAIRING the twin becomes PAIRED with the new generation, and sends its own PAIR once more so
that a partner still in PAIRING pairs too. A PAIR carries the sender's previous generation, so that field is not matched. -/
def execPairRecord (rec : TwinRec) (s : State) : Result :=
  ok (if !(recSound s rec) || s.twin.state != .pairing then discardRec s
    else updTwin (fun t => { t with state := .paired, peerGen := rec.gen.toNat, pairGen := (Nat.max t.pairGen rec.gen.toNat + 1) % 2 ^ 32
                                    missRun := 0, seen := false }) (sendTwin 2 0 0 s))

/-! ### The end of a pair (R410 to R412) -/

/-- Refetches from the partner fail: their sets stay DAMAGED (R104). -/
def failRefetches (s : State) : State :=
  let s := s.twin.refetches.foldl (fun s r => updKs r.1 r.2 (fun k => if k.state = .refetching then { k with state := .damaged } else k) s) s
  updTwin (fun t => { t with refetches := [] }) s

/-- Mirroring ends: MIRRORED is cleared on every set, imports commit alone, refetches fail, uncommitted rows go (R101, R410,
R412). -/
def endMirroring (s : State) : State :=
  let s := updTwin (fun t => { t with mirrors := [], filling := [] }) (failRefetches (commitAlone s))
  allParts.foldl (fun s p => updPart p (fun x => { x with
    imports := x.imports.map fun m => { m with mirror := false }, keysets := x.keysets.map fun k => (k.1, { k.2 with mirrored := false }) }) s) s

/-- The twin declares its partner lost (R410): STANDBY partitions are quenched with 0x0603. -/
def declareLost (s : State) : State :=
  let s := endMirroring (updTwin (fun t => { t with state := .lost, missRun := 0 }) s)
  (allParts.filter fun p => (partOfIx s p).role == .standby && (partOfIx s p).state != .free).foldl (fun s p =>
    quenchPartition p 0x0603 false (logAt 0x0603 0 (some p) 0x0B 0 s)) s

/-- The part is UNPAIRED and every ROLE is NONE (R412). -/
def detachTwin (s : State) : State :=
  let s := endMirroring (updTwin (fun t => { t with state := .unpaired, missRun := 0, seen := false }) s)
  allParts.foldl (fun s p => updPart p (fun x => { x with role := .none }) s) s

/-- DETACH: a LOST part detaches without sending; an UNPAIRED one has nothing to leave. -/
def startDetach (s : State) : Except Nat State :=
  match s.twin.state with
  | .unpaired => .error 7
  | .lost => .ok (detachTwin s)
  | _ => .ok (detachTwin (sendTwin 8 0 0 s))

/-- DETACH_RECORD (R412). -/
def execDetachRecord (rec : TwinRec) (s : State) : Result :=
  ok (if recValid s rec && (s.twin.state == .paired || s.twin.state == .pairing) then detachTwin s else discardRec s)

/-- PROMOTE p (R410): a STANDBY partition becomes ACTIVE after loss, once its quench has ended. -/
def startPromote (p : PartIx) (s : State) : Except Nat State :=
  let t := partOfIx s p
  if s.twin.state = .lost && t.role == .standby && t.quenching.isNone then .ok (updPart p (fun x => { x with role := .active }) s) else .error 7

/-! ### Heartbeats (R408) -/

/-- HEARTBEAT_SEND (R408); the last is sent as the SCAN phase begins (R521). -/
def execHeartbeatSend (s : State) : Result := ok (if (s.twin.state = .paired || s.twin.state = .lost) && s.bist.phase < 3 then sendTwin 1 0 0 s else s)

/-- HEARTBEAT (R405, R408). -/
def execHeartbeat (rec : TwinRec) (s : State) : Result :=
  ok (if recValid s rec && (s.twin.state == .paired || s.twin.state == .lost) then
      updTwin (fun t => { t with received := t.received + 1, missRun := 0, seen := true }) s
    else discardRec s)

/-- HEARTBEAT_INTERVAL (R408): a miss, and at the third in a row the partner is lost; `tie` says that a heartbeat reached the
arbiter as the interval closed, and is granted first. -/
def execHeartbeatInterval (tie : Bool) (s : State) : Result :=
  ok (if s.twin.state != .paired then s
    else if s.twin.seen then updTwin (fun t => { t with seen := false, missRun := 0 }) s
    else if s.twin.missRun < 2 then updTwin (fun t => { t with misses := t.misses + 1, missRun := t.missRun + 1 }) s
    else if tie then updTwin (fun t => { t with ties := t.ties + 1, missRun := 0 }) s
    else declareLost (updTwin (fun t => { t with misses := t.misses + 1 }) s))

/-! ### Mirrored rows (R100, R103, R407) -/

/-- The mirrored rows of a set. -/
def mirrorOf (s : State) (p : PartIx) (tag : Nat) : Option Mirror := s.twin.mirrors.find? fun m => m.part == p && m.tag == tag

/-- Change the mirrored rows of a set. -/
def updMirror (p : PartIx) (tag : Nat) (f : Mirror → Mirror) (s : State) : State :=
  updTwin (fun t => { t with mirrors := t.mirrors.map fun m => if m.part = p && m.tag = tag then f m else m }) s

/-- Discard the uncommitted rows of a set. -/
def dropMirror (p : PartIx) (tag : Nat) (s : State) : State :=
  updTwin (fun t => { t with mirrors := t.mirrors.filter fun m => !(m.part == p && m.tag == tag) }) s

/-- The slot may take the set: FREE, or it holds the same tag. -/
def mirrorSlotOk (s : State) (p : PartIx) (m : Mirror) : Bool :=
  ((ksOf s p m.slot).state == .free && (findTag s p m.tag).isNone) ||
  ((ksOf s p m.slot).tag == m.tag && ((ksOf s p m.slot).state == .resident || (ksOf s p m.slot).state == .damaged))

/-- A STANDBY twin has every row of a set: it checks and places them, and confirms, or aborts (R100); in a shut-down it answers
nothing (R521). -/
def checkMirror (p : PartIx) (m : Mirror) (s : State) : State :=
  if s.bist.phase ≠ 0 then s
  else
    let homesOk := (homeDies m.homes).all fun d => (dieOf s d).owner == some p
    match bundleFails m.rows s.fuses.primes m.tag m.rows.length (partOfIx s p).chains true,
      placeHomes s m.homes m.rows (m.rows.length / rowBytes) with
    | none, some l =>
      if homesOk && mirrorSlotOk s p m then
        sendTwin 3 p m.tag (writeCopies l 0 m.rows (updMirror p m.tag (fun x => { x with complete := true, placed := l }) s))
      else sendTwin 5 p m.tag (dropMirror p m.tag s)
    | _, _ => sendTwin 5 p m.tag (dropMirror p m.tag s)

/-- Take mirrored or refetched bytes of a set from a byte offset. -/
def takeMirror (p : PartIx) (slot tag : Nat) (homes : BitVec 16) (offset : Nat) (rows : List Byte) : State → State :=
  fun s =>
    let s := if (mirrorOf s p tag).isSome && offset != 0 then s
      else
        let s := dropMirror p tag s
        let m : Mirror := { part := p, slot := slot, tag := tag, homes := homes, rows := [], complete := false, placed := [] }
        updTwin (fun t => { t with mirrors := t.mirrors ++ [m] }) s
    updMirror p tag (fun m => { m with rows := bytesAt m.rows 0 offset ++ rows }) s

/-- Move a run of key rows of stack `d` to free rows that lie together; none where there are none. -/
def moveRun (d : DieIx) (n at_ : Nat) (s : State) : Option (Nat × State) :=
  (placeRows s d n).map fun b =>
    (b, updDie d (fun x => { x with store := memPut x.store (b * rowBytes) (memBytes x.store (at_ * rowBytes) (n * rowBytes)) }) s)

/-- The runs of a set that meet rows of stack `d` move away; none where one cannot. -/
def moveRuns (d : DieIx) (base rows : Nat) (l : List (Nat × Nat × Nat × Nat)) (s : State) : Option (List (Nat × Nat × Nat × Nat) × State) :=
  l.foldl (fun acc r => acc.bind fun a =>
    if r.1 == d.val && runsMeet base rows r.2.2.2 r.2.2.1 then
      (moveRun d r.2.2.1 r.2.2.2 a.2).map fun x => (a.1 ++ [(r.1, r.2.1, r.2.2.1, x.1)], x.2)
    else some (a.1 ++ [r], a.2)) (some ([], s))

/-- The key sets of a partition leave rows of stack `d` (log 63). -/
def clearKeys (p : PartIx) (d : DieIx) (base rows : Nat) (s : State) : Option State :=
  (partOfIx s p).keysets.foldl (fun acc e => acc.bind fun s =>
    (moveRuns d base rows e.2.rows s).map fun x => updKs p e.1 (fun k => { k with rows := x.1 }) x.2) (some s)

/-- The mirrored rows of a partition that await COMMIT leave rows of stack `d`. -/
def clearMirrors (p : PartIx) (d : DieIx) (base rows : Nat) (s : State) : Option State :=
  (s.twin.mirrors.filter (·.part == p)).foldl (fun acc m => acc.bind fun s =>
    (moveRuns d base rows m.placed s).map fun x => updMirror p m.tag (fun m => { m with placed := x.1 }) x.2) (some s)

/-- A store handle that a fill copies (R407), with the BASE and ROWS that it has at the partner: its entry and bytes. Other store handles
that hold its rows are released, and key sets there move; where their rows have no place to go, it is not copied (log 63). -/
def takeStore (p : PartIx) (die : DieIx) (handle base rows : Nat) (poison : Option (BitVec 16)) (offset : Nat) (bytes : List Byte) (s : State) : State :=
  if (dieOf s die).owner != some p then s
  else
    let e : StoreHandle := { StoreHandle.zero with base := base, rows := rows, valid := true, poisoned := poison.isSome, poisonEvent := poison.getD 0 }
    let taken := updDie die (fun x => { x with
      storeHandles := tblSet (x.storeHandles.filter fun y => !(y.2.valid && y.1 != handle && runsMeet base rows y.2.base y.2.rows)) handle e }) s
    match (clearKeys p die base rows taken).bind (clearMirrors p die base rows) with
    | none => s
    | some s => wakeDie die (updDie die (fun x => { x with store := memPut x.store (base * rowBytes + offset) bytes }) s)

/-- MIRROR_ROWS (R100, R103, R407): rows of a refetch are collected; a STANDBY partition takes the rest. -/
def execMirrorRows (p : PartIx) (m : MirrorBody) (s : State) : Result :=
  ok (if s.twin.state != .paired then s
    else match m with
      | .keyRows slot tag homes offset rows lastRows =>
        if s.twin.refetches.contains (p, slot) && (ksOf s p slot).tag = tag.toNat then
          let s := takeMirror p slot tag.toNat homes offset rows s
          if lastRows then updMirror p tag.toNat (fun m => { m with complete := true }) s else s
        else if (partOfIx s p).role = .standby then
          let s := takeMirror p slot tag.toNat homes offset rows s
          if lastRows then match mirrorOf s p tag.toNat with
            | some x => checkMirror p x s
            | none => s
          else s
        else s
      | .storeRows die handle base rows poison offset bytes =>
        if (partOfIx s p).role = .standby then takeStore p die handle base rows poison offset bytes s else s)

/-- A fill of a partition waits for a set no more (R407). -/
def fillGoesOn (p : PartIx) (slot : Nat) (s : State) : State :=
  updTwin (fun t => { t with filling := t.filling.map fun f => if f.1 = p then (f.1, f.2.filter (· != slot)) else f }) s

/-- CONFIRM (R100, R407): the import that awaits it commits and COMMIT is sent; a set of a fill becomes MIRRORED. -/
def execConfirm (rec : TwinRec) (s : State) : Result :=
  ok (if !(recValid s rec) || s.twin.state != .paired then discardRec s
    else
      let p := rec.part
      let tag := rec.tag.toNat
      match (partOfIx s p).imports.find? fun m => m.confirm && m.tag == tag with
      | some im =>
        let s := commitImport p im true s
        if (ksOf s p im.slot).state = .resident then sendTwin 4 p tag s else s
      | none =>
        match findTag s p tag with
        | some e =>
          if s.twin.filling.any fun f => f.1 == p && f.2.contains e.1 then
            sendTwin 4 p tag (fillGoesOn p e.1 (updKs p e.1 (fun k => { k with mirrored := true }) s))
          else s
        | none => s)

/-- COMMIT (R100): the twin commits its copy. -/
def execCommit (rec : TwinRec) (s : State) : Result :=
  ok (if !(recValid s rec) || s.twin.state != .paired then discardRec s
    else
      let p := rec.part
      match mirrorOf s p rec.tag.toNat with
      | none => s
      | some m =>
        if !m.complete || m.placed.isEmpty || !(mirrorSlotOk s p m) then s
        else match regChain (bytesAt m.rows 0x80 128) (partOfIx s p).chains with
          | none => dropMirror p m.tag s
          | some t =>
            let s := updPart p (fun x => { x with chains := t }) s
            dropMirror p m.tag (updKs p m.slot (fun k => setOf k m.rows m.homes m.placed true) s))

/-- A refetch from the twin fails: the set stays DAMAGED (R104). -/
def failRefetch (p : PartIx) (slot : Nat) (s : State) : State :=
  let s := dropMirror p (ksOf s p slot).tag s
  updTwin (fun t => { t with refetches := t.refetches.filter (· != (p, slot)) })
    (updKs p slot (fun k => if k.state = .refetching then { k with state := .damaged } else k) s)

/-- ABORT (R101, R405): uncommitted rows of the set are discarded; at the sender of the rows, an import that awaits the twin commits
alone, a fill goes on without the set, a refetch of it fails. -/
def execAbort (rec : TwinRec) (s : State) : Result :=
  ok (if !(recValid s rec) || s.twin.state != .paired then discardRec s
    else
      let p := rec.part
      let tag := rec.tag.toNat
      match (partOfIx s p).imports.find? fun m => m.confirm && m.tag == tag with
      | some im => commitImport p im false s
      | none =>
        match findTag s p tag with
        | some e =>
          if s.twin.refetches.contains (p, e.1) then failRefetch p e.1 s
          else fillGoesOn p e.1 (dropMirror p tag s)
        | none => dropMirror p tag s)

/-! ### Refetch (R103) and fill (R407) -/

/-- The plain bundle of a set, read from its first home. -/
def bundleOf (s : State) (k : KeySet) : List Byte :=
  match (homeDies k.homeMask).head? with
  | none => []
  | some d => (List.range k.totalRows).flatMap fun r => memBytes (dieOf s d).store (stackRow k d.val r * rowBytes) rowBytes

/-- Send the rows of a set over the twin port; the home that they are read from wakes (R333). A refetch sends them all as well: its
record names a set and no key (R405), and the partner writes only the failing keys (R103, log 63). -/
def sendSet (p : PartIx) (slot : Nat) (k : KeySet) (s : State) : State :=
  let s := ((homeDies k.homeMask).take 1).foldl (fun s d => wakeDie d s) s
  sendRows p (.keyRows slot (BitVec.ofNat 64 k.tag) k.homeMask 0 (bundleOf s k) true) s

/-- REFETCH (R103): the partner's copy of the set is sent, or ABORT where it has none that serves; in a shut-down nothing (R521). -/
def execRefetch (rec : TwinRec) (s : State) : Result :=
  ok (if !(recValid s rec) || s.twin.state != .paired then discardRec s
    else if s.bist.phase ≠ 0 then s
    else match findTag s rec.part rec.tag.toNat with
      | some e => if e.2.state = .resident then sendSet rec.part e.1 e.2 s else sendTwin 5 rec.part rec.tag.toNat s
      | none => sendTwin 5 rec.part rec.tag.toNat s)

/-- Take rows `a` to `a + n` of die `d` out of the runs of a set. -/
def carveRuns (d a n : Nat) (l : List (Nat × Nat × Nat × Nat)) : List (Nat × Nat × Nat × Nat) :=
  l.flatMap fun x =>
    if x.1 != d || !(runsMeet a n x.2.1 x.2.2.1) then [x]
    else
      let e := x.2.1 + x.2.2.1
      (if x.2.1 < a then [(d, x.2.1, a - x.2.1, x.2.2.2)] else []) ++
      (if a + n < e then [(d, a + n, e - (a + n), x.2.2.2 + (a + n - x.2.1))] else [])

/-- Write one refetched key to fresh rows on one home; `none` where the stack lacks them. -/
def replaceKey (p : PartIx) (slot : Nat) (rows : List Byte) (e : KeyEntry) (d : DieIx) (s : State) : Option State :=
  let k := ksOf s p slot
  let a := keyFirstRow k e
  match placeRows s d e.rowCount with
  | none => none
  | some b =>
    some (updKs p slot (fun k => { k with rows := carveRuns d.val a e.rowCount k.rows ++ [(d.val, a, e.rowCount, b)] })
      (wakeDie d (updDie d (fun x => { x with store := memPut x.store (b * rowBytes) (bytesAt rows (a * rowBytes) (e.rowCount * rowBytes)) }) s)))

/-- Write every failing key of a set to fresh rows on every home. -/
def replaceKeys (p : PartIx) (slot : Nat) (rows : List Byte) (s : State) : Option State :=
  let k := ksOf s p slot
  let es := k.failing.filterMap fun i => k.keys[i]?
  let jobs := es.flatMap fun e => (homeDies k.homeMask).map fun d => (e, d)
  jobs.foldl (fun acc x => acc.bind (replaceKey p slot rows x.1 x.2)) (some s)

/-- REFETCH_COMPLETE (R103, R104): the failing keys have been written to fresh rows and the set is RESIDENT, or the refetch fails. -/
def execRefetchComplete (p : PartIx) (slot : Nat) (good : Bool) (s : State) : Result :=
  ok (if !(s.twin.refetches.contains (p, slot)) then s
    else if !good then failRefetch p slot s
    else match mirrorOf s p (ksOf s p slot).tag with
      | none => s
      | some m =>
        if !m.complete then s
        else match replaceKeys p slot m.rows s with
          | none => failRefetch p slot s
          | some s =>
            let s := dropMirror p m.tag (updKs p slot (fun k => { k with state := .resident, failing := [] }) s)
            updTwin (fun t => { t with refetches := t.refetches.filter (· != (p, slot)) }) s)

/-- The valid store handles of a partition. -/
def storesOf (s : State) (p : PartIx) : List (DieIx × Nat × StoreHandle) :=
  (ownedDies s p).flatMap fun d => ((dieOf s d).storeHandles.filter (·.2.valid)).map fun e => (d, e.1, e.2)

/-- FILL p (R407): refused with STATE unless the conditions hold; every valid store handle and RESIDENT key set is sent. -/
def startFill (p : PartIx) (partnerStandby : Bool) (partnerDies : BitVec 16) (s : State) : Except Nat State :=
  let mine := BitVec.ofNat 16 ((ownedDies s p).map fun d => 2 ^ d.val).sum
  if s.twin.state != .paired || (partOfIx s p).role != .active || !partnerStandby || partnerDies != mine then .error 7
  else
    let ks := (partOfIx s p).keysets.filter (·.2.state == .resident)
    let hs := storesOf s p
    let total := (ks.map (·.2.totalRows)).sum + (hs.map (·.2.2.rows)).sum
    let s := hs.foldl (fun s h => sendRows p (.storeRows h.1 h.2.1 h.2.2.base h.2.2.rows
      (if h.2.2.poisoned then some h.2.2.poisonEvent else none) 0 (storeBytes s h.1 h.2.1 0 (h.2.2.rows * rowBytes))) (wakeDie h.1 s)) s
    let s := ks.foldl (fun s e => sendSet p e.1 e.2 s) s
    .ok (updTwin (fun t => { t with
      filling := (t.filling.filter (·.1 != p)) ++ [(p, ks.map (·.1))], fillTotal := t.fillTotal + total, fillCopied := t.fillCopied + total }) s)

/-- FILL_COMPLETE (R407): every set of a fill has been confirmed; FILL_DONE is sent. -/
def execFillComplete (s : State) : Result :=
  ok (match s.twin.filling.find? fun f => f.2.isEmpty with
    | some f => sendTwin 7 f.1 0 (updTwin (fun t => { t with filling := t.filling.erase f }) s)
    | none => s)

/-- FILL_DONE (R405, R407): the partner's copy is whole; an invalid record is discarded. -/
def execFillDone (rec : TwinRec) (s : State) : Result := ok (if recValid s rec && s.twin.state == .paired then s else discardRec s)

end Sys2Proof.Machine
end

