-- ==== Sys2Proof/Machine/HearthRules.lean ====
section
/-! DEFINITION. The hearth: estimates and limit sources (R309 to R322, R336), energy (R337), admission (R323 to R327), boundaries and
SYNC (R328 to R331), idle states (R332). Power is counted in microwatts and energy in picojoules. -/

namespace Sys2Proof.Machine

/-! ### The estimate (R310) -/

/-- The per-die weights of the seven classes, in microwatts. -/
def classWeights : Grade → List Nat
  | .e => [44800000, 22000000, 0, 6000000, 0, 8000000, 6250000]
  | _ => [44800000, 22000000, 24000000, 6000000, 2000000, 8000000, 6250000]

/-- Λ in microwatts. -/
def leakWeight : Grade → Nat
  | .e => 10310000
  | _ => 11250000

/-- Λ·2^((T - 85)/25), the exact value rounded down to a microwatt. -/
def leakage (g : Grade) (t : Int) : Nat :=
  let w := leakWeight g ^ 25
  if 85 ≤ t then iroot 25 (w * 2 ^ (t - 85).toNat) else iroot 25 (w / 2 ^ (85 - t).toNat)

/-- The draw of a list of class activities in 1/65,536, class by class. -/
def classDraw (g : Grade) (a : List Nat) : List Nat := (classWeights g).zipIdx.map fun w => w.1 * Nat.min (a.getD w.2 0) 65536 / 65536

/-- The report of a die; nothing issued where there is none. -/
def reportOf (rs : List DieReport) (d : DieIx) : DieReport := rs.getD d.val { activity := [], temps := [], queues := [] }

/-! ### Limit sources (R312 to R318) -/

/-- The active dies. -/
def activeDies (s : State) : List DieIx := allDies.filter (dieActive s)

/-- Twice the median of a list of one to three sensors. -/
def median2 (l : List Int) : Int :=
  match l.mergeSort (· ≤ ·) with
  | [] => 0
  | [a] => 2 * a
  | [a, b] => a + b
  | _ :: b :: _ => 2 * b

/-- Compare one sensor with the median of the others; a sensor more than 8 °C away is retired (R469). -/
def judgeSensor (d : DieIx) (temps : List Int) (k : Nat) (s : State) : State :=
  let live := (dieOf s d).sensors
  let others := (live.filter (· != k)).map fun i => temps.getD i 0
  if !(live.contains k) || others.isEmpty || decide ((2 * temps.getD k 0 - median2 others).natAbs ≤ 16) then s
  else
    let s := updDie d (fun x => { x with sensors := x.sensors.filter (· != k), thermCap := true, thermal := Nat.min x.thermal 8 }) s
    let s := count d 9 1 (logAt 0x0702 d (dieOf s d).owner 0x0B 0 s)
    if (dieOf s d).sensors.length < 2 then deviceFail 0x0901 d 0x0B (d.val + 0x0800) s else s

/-- The sensors of a die for an interval: retirements, then the hottest that remains. -/
def senseDie (rs : List DieReport) (d : DieIx) (s : State) : State :=
  let temps := (reportOf rs d).temps
  if temps.isEmpty then s
  else
    let s := (List.range 4).foldl (fun s k => judgeSensor d temps k s) s
    match (dieOf s d).sensors.map fun i => temps.getD i 0 with
    | [] => s
    | t :: ts => updDie d (fun x => { x with temp := ts.foldl Max.max t }) s

/-- The thermal source of a die; 0x0702 is logged once from when it leaves its top until it is back there (R317). -/
def heatDie (d : DieIx) (s : State) : State :=
  let x := dieOf s d
  let top := if x.thermCap then 8 else 16
  if (s.hearth.thermalLimit : Int) ≤ x.temp then
    let s := if x.hot then s else logAt 0x0702 d x.owner 0x0B 0 s
    updDie d (fun x => { x with thermal := Nat.max 1 (x.thermal - 1), hot := true }) s
  else if x.temp ≤ (s.hearth.thermalLimit : Int) - 2 then
    updDie d (fun x => { x with thermal := Nat.min top (x.thermal + 1), hot := x.hot && decide (x.thermal + 1 < top) }) s
  else s

/-- The least limit that pace messages of open collectives ask of die `d` (R336). -/
def paceTarget (s : State) (d : DieIx) : Nat :=
  let js := (s.jobs.filter fun j => j.dies.contains d).map (·.id)
  let ids := allDies.flatMap fun e => ((dieOf s e).ops.filter fun o => js.contains o.job).filterMap fun o => o.coll.map (·.collId)
  (s.fabric.paceLast.filter fun m => ids.contains (m.1 / 4096)).foldl (fun l m => Nat.min l m.2) 16

/-- Droop, brake and pace sources rise by at most 1 in an interval (R318, R336). -/
def easeDie (d : DieIx) (s : State) : State :=
  let p := paceTarget s d
  updDie d (fun x => { x with
    droopSrc := if x.drooping then x.droopSrc else x.droopSrc.map fun l => Nat.min 16 (l + 1)
    brake := if s.pins.pwrbrk then x.brake else Nat.min 16 (x.brake + 1), paceSrc := Nat.min p (x.paceSrc + 1) }) s

/-- The tokens of class `c` that admitted jobs hold on die `d` (R322). -/
def dieTokens (s : State) (d : DieIx) (c : Nat) : Nat :=
  ((s.jobs.filter fun j => j.phase == .admitted).map fun j => (j.dies.zipIdx.filter fun x => x.1 == d).map fun x => (j.tokens.getD x.2 []).getD c 0).flatten.sum

/-- The clamp sources of a die: down 1 where the estimate exceeds the tokens, up 1 where it is at or below 15/16 of them; the fabric
class acts on the tongs (R322). -/
def clampDie (rs : List DieReport) (d : DieIx) (s : State) : State :=
  let draw := classDraw s.fuses.grade (reportOf rs d).activity
  let above (c : Nat) : Bool := decide (dieTokens s d c * 1000000 < draw.getD c 0)
  let below (c : Nat) : Bool := decide (draw.getD c 0 * 16 ≤ dieTokens s d c * 1000000 * 15)
  let next (c l : Nat) : Nat :=
    let cs := if c = 5 then [5, 6] else [c]
    if cs.any above then Nat.max 1 (l - 1) else if cs.all below then Nat.min 16 (l + 1) else l
  updDie d (fun x => { x with clampSrc := x.clampSrc.zipIdx.map fun l => next l.2 l.1 }) s

/-! ### The cap (R314, R315) -/

/-- B of R314, in picojoules. -/
def excessBound (s : State) : Nat := (s.hearth.shortNow - s.hearth.sustainedNow) * s.hearth.durationNow * 1000000

/-- Change the hearth. -/
def updHearth (f : Hearth → Hearth) (s : State) : State := { s with hearth := f s.hearth }

/-- The cap source after an interval whose heavy share is `dd` and whose rest is `q`, in microwatts (R315). Where nothing heavy
draws, the spec states no value: the source is free within its range and R313. -/
def capNext (l dd q target free : Nat) : Nat :=
  if target < q + dd then
    if dd = 0 then free % Nat.min 16 (l + 1) + 1 else Nat.max 1 (l * (target - q) / dd)
  else if q * l + dd * (l + 1) ≤ target * l then Nat.min 16 (l + 1) else l

/-- The excess account, the target and the cap source of an interval (R314, R315). -/
def capStep (rs : List DieReport) (s : State) : State :=
  let g := s.fuses.grade
  let ds := activeDies s
  let draws := ds.map fun d => classDraw g (reportOf rs d).activity
  let heavy := (draws.map fun w => (w.take 6).sum).sum
  let rest := (draws.map fun w => (w.drop 6).sum).sum + (ds.map fun d => leakage g (dieOf s d).temp).sum + 56000000
  let x := Nat.min (excessBound s) (s.hearth.excess + 2 * (heavy + rest) - 2 * s.hearth.sustainedNow * 1000000)
  let target := 1000000 * (if x < excessBound s then s.hearth.shortNow else s.hearth.sustainedNow)
  let l := s.hearth.cap
  let s := if target < heavy + rest && heavy == 0 then { s with free := s.free + 1 } else s
  let l' := capNext l heavy rest target (Config.freeValue (s.free - 1) 0)
  let s := if l = 16 && l' < 16 then logAt 0x0701 0 none 0x0B 0 s else s
  updHearth (fun h => { h with excess := x, cap := l' }) s

/-! ### Energy and clamped jobs (R322, R337, R338) -/

/-- A job waits on die `d`: its queue is blocked on a flag, a ring, a triple pool, an exchange or a collective (R337). -/
def jobWaits (s : State) (d : DieIx) (j : Job) : Bool :=
  (match heldFront s d j.queue with
    | some h => h.job == j.id && (match h.wait with | .flag _ => true | .ring .. => true | .triples .. => true | _ => false)
    | none => false) ||
  (dieOf s d).ops.any fun o => o.job == j.id && (o.exch.isSome || o.coll.isSome)

/-- Add energy to an account of a partition (R337). -/
def chargePart (p : PartIx) (k pj : Nat) (s : State) : State := updPart p (fun x => { x with energy := x.energy.modify k (· + pj) }) s

/-- Charge the energy of die `d` for an interval (R337). -/
def chargeDie (rs : List DieReport) (d : DieIx) (s : State) : State :=
  match (dieOf s d).owner with
  | none => s
  | some p =>
    let g := s.fuses.grade
    let r := reportOf rs d
    let dyn := 2 * (classDraw g r.activity).sum
    let stat := 2 * (leakage g (dieOf s d).temp + 3500000)
    let used (q : QueueIx) : Nat := ((r.queues.filter fun x => x.1 == q).map fun x => (classDraw g x.2).sum).sum
    let run := allQueues.filterMap fun q => runningJob s d q
    let issuing := run.filter fun j => decide (0 < used j.queue)
    let waiting := run.filter fun j => used j.queue == 0 && jobWaits s d j
    let n := issuing.length + waiting.length
    let s := chargePart p 0 dyn (issuing.foldl (fun s j => updJob j.id (fun j => { j with energyPj := j.energyPj + 2 * used j.queue }) s) s)
    if n = 0 then chargePart p 3 stat s
    else
      let s := (issuing ++ waiting).foldl (fun s j => updJob j.id (fun j => { j with energyPj := j.energyPj + stat / n }) s) s
      chargePart p 2 (waiting.length * (stat / n)) (chargePart p 1 (issuing.length * (stat / n)) s)

/-- Jobs that a limit slowed in the interval that ends, and 0x0704 once for each job that issued in a class while its clamp acted
(R322, R338): the limits are those that acted in that interval. -/
def noteClamps (rs : List DieReport) (d : DieIx) (s : State) : State :=
  let x := dieOf s d
  let issues (j : Job) : Bool := (reportOf rs d).queues.any fun q => q.1 == j.queue && (List.range 7).any fun c =>
    decide (0 < q.2.getD c 0) && decide (x.clampSrc.getD (Nat.min c 5) 16 < 16)
  let run := (allQueues.flatMap (runningJobs s d)).filterMap (jobOf s)
  let s := if leastLimit s d < 16 then run.foldl (fun s j => updJob j.id (fun j => { j with clamped := true }) s) s else s
  (run.filter fun j => issues j && !j.clampLogged).foldl (fun s j =>
    updJob j.id (fun j => { j with clampLogged := true }) (logJob 0x0704 j { die := d, queue := j.queue, off := 0 } 0x0B 0 false s)) s

/-! ### Pace (R336) -/

/-- The cap, thermal and brake sources of a die. -/
def watchedSrc (s : State) (d : DieIx) : List Nat := [s.hearth.cap, (dieOf s d).thermal, (dieOf s d).brake]

/-- A part is this one, or a member that this part holds and that is not lost (R357, R363). -/
def fromPart (s : State) (part : Nat) : Bool := part == s.fabric.partId || memberHeld s part

/-- Send the pace messages of one collective operation, on FLAG (R347): to every other member that is not lost, the least effective
limit of the job's dies. -/
def sendPace (o : Op) (c : Coll) (s : State) : State :=
  match jobOf s o.job with
  | none => s
  | some j =>
    if !(j.dies.any fun e => watchedSrc s e != (dieOf s e).lastSrc) then s
    else
      let l := (j.dies.map (leastLimit s)).foldl Nat.min 16
      (c.members.zipIdx.filter fun m => m.2 != c.rank && fromPart s (memberPart m.1)).foldl (fun s m =>
        sendMsg .pace ((j.dies.head?).getD 0) (memberPart m.1) (memberDie m.1) (fun v => .pace v c.collId c.rank l) s) s

/-- Pace messages of an interval, then the sources as they stand. -/
def paceStep (s : State) : State :=
  let s := if s.hearth.pace then allDies.foldl (fun s d => ((dieOf s d).ops.filterMap fun o => o.coll.map fun c => (o, c)).foldl (fun s x => sendPace x.1 x.2 s) s) s
    else s
  allDies.foldl (fun s d => updDie d (fun x => { x with lastSrc := watchedSrc s d }) s) s

/-- A pace message of a rank of a collective is accepted: the part has its identifier, and the rank is a member that is not lost (R353,
R357, R363). -/
def paceHeld (s : State) (c : Coll) (rank : Nat) : Bool :=
  c.rank != rank && (match c.members[rank]? with
    | some m => memberPart m == s.fabric.partId || (s.fabric.valid && memberHeld s (memberPart m))
    | none => false)

/-- PACE_MESSAGE (R336): the dies of the open collective's job take the limit. A source is lowered at once, and raised only by the
governor (R313). -/
def execPaceMessage (collId : W64) (rank limit : Nat) (s : State) : Result :=
  ok (
    let ops := allDies.flatMap fun d => (dieOf s d).ops.filter fun o => match o.coll with
      | some c => c.collId == collId.toNat && paceHeld s c rank
      | none => false
    match ops.head? with
    | none => s
    | some o =>
      let key := collId.toNat * 4096 + rank
      let s := { s with fabric := { s.fabric with paceLast := (s.fabric.paceLast.filter (·.1 != key)) ++ [(key, Nat.max 1 (Nat.min 16 limit))] } }
      match jobOf s o.job with
      | none => s
      | some j => j.dies.foldl (fun s d => updDie d (fun x => { x with paceSrc := Nat.min x.paceSrc (paceTarget s d) }) s) s)

/-! ### The governor interval (R309) -/

/-- The caps as written take effect (R316). -/
def takeCaps (s : State) : State :=
  updHearth (fun h => { h with sustainedNow := h.sustained, shortNow := h.short, durationNow := h.duration }) s

/-- One interval of the governor. -/
def governor (rs : List DieReport) (s : State) : State :=
  let ds := activeDies s
  let s := ds.foldl (fun s d => senseDie rs d s) s
  let s := ds.foldl (fun s d => noteClamps rs d (chargeDie rs d s)) s
  let s := capStep rs (takeCaps s)
  let s := ds.foldl (fun s d => clampDie rs d (easeDie d (heatDie d s))) s
  let s := ds.foldl (fun s d => updDie d (fun x => { x with residency := x.residency.modify x.idle (· + 2000) }) s) s
  let s := paceStep s
  { s with ports := s.ports.map fun p => { p with retryLogged := false } }

/-- GOVERNOR_INTERVAL (R309): 2 µs of the governor, while the part serves. -/
def execGovernorInterval (reports : List DieReport) (s : State) : Result := ok (if serving s then governor reports s else s)

/-! ### Droop, brake, heat (R317, R318) -/

/-- DROOP (R318). -/
def execDroop (die : DieIx) (s : State) : Result :=
  ok (count die 5 1 (updDie die (fun x => { x with
    drooping := true, droopSrc := (List.range 6).map fun c => Nat.max 1 (effLimit s die c / 2) }) s))

/-- DROOP_CLEAR (R318). -/
def execDroopClear (die : DieIx) (s : State) : Result := ok (updDie die (fun x => { x with drooping := false }) s)

/-- The brake acts (R318). -/
def applyBrake (s : State) : State :=
  logAt 0x0701 0 none 0x0B 0 ((activeDies s).foldl (fun s d => updDie d (fun x => { x with brake := 4 }) s) s)

/-- PWRBRK_ASSERT (R318); before the image runs it has no effect (R514). -/
def execPwrbrkAssert (s : State) : Result :=
  ok (if s.pins.pwrbrk then s
    else
      let s := { s with pins := { s.pins with pwrbrk := true } }
      if s.boot.fwState = 2 then applyBrake s else s)

/-- PWRBRK_DEASSERT (R318). -/
def execPwrbrkDeassert (s : State) : Result := ok { s with pins := { s.pins with pwrbrk := false } }

/-- THERMTRIP (R317, R513): the pin; the event and a device quench where the firmware runs. -/
def execThermtrip (die : DieIx) (s : State) : Result :=
  ok (
    let s := { s with alarm := { s.alarm with thermtrip := true } }
    if s.boot.fwState = 2 then deviceFail 0x0703 die 0x0B 0 s else s)

/-! ### Admission (R323 to R327) -/

/-- A candidate is excluded: a mapped die is within 5 °C of its thermal limit (R326). -/
def hotJob (s : State) (j : Job) : Bool := j.dies.any fun d => decide ((s.hearth.thermalLimit : Int) - 5 ≤ (dieOf s d).temp)

/-- A candidate may be admitted now: its partition runs, its queues act, no PATCH is pending on its slot, no
shut-down has begun (R290, R293, R460, R471). -/
def mayAdmit (s : State) (j : Job) : Bool :=
  candidate s j && j.age != 0 && s.bist.phase == 0 && j.dies.all (fun d => queueOpen s d j.queue) &&
  (match tblGet (partOfIx s j.part).programs j.slot with | some g => g.patchPending.isNone | none => true)

/-- A job with what its program says now, after any PATCH (R290). -/
def refreshJob (g : Program) (j : Job) : Job :=
  let es := (List.range g.roles).map (g.roleEntry j.entry)
  { j with tokens := g.power, declaredNs := (es.map fun e => match e with | some e => e.declaredNs | none => 0).foldl Nat.max 0
           setFlags := es.map fun e => match e with | some e => e.setFlags | none => [] }

/-- Admit a job (R289, R360, R478): it leaves the head of its queues and runs, or waits behind one admitted job; its dies wake. -/
def admitJob (j : Job) (s : State) : State :=
  let s := j.dies.foldl (fun s d => wakeDie d (updQueue d j.queue (fun x => { x with
    jobs := x.jobs ++ [j.id], line := x.line.filter (· != .role j.id)
    hold := x.hold.filter fun h => match h.1 with | .job i => i != j.id | _ => true }) s)) s
  let s := updJob j.id (fun j => { j with phase := .admitted, epoch := s.fabric.epoch, reproducible := (partOfIx s j.part).reproducible
                                          admittedAt := s.hearth.boundaries }) s
  j.dies.foldl (fun s d => settleQueue d j.queue s) s

/-- Consider one candidate: `true` beside the state says that a pinned one did not fit, and bars the rest (R324, R325). Where
`shut` says that the pool has shrunk below the tokens held, none is admitted, and one that declares tokens lacks them (R316). -/
def considerJob (shut : Bool) (acc : State × Bool) (id : Nat) : State × Bool :=
  match acc.2, jobOf acc.1 id with
  | false, some j =>
    let s := acc.1
    if !(mayAdmit s j) || hotJob s j then acc
    else match tblGet (partOfIx s j.part).programs j.slot with
      | none =>
        match holdPacket s j.die j.queue with
        | some (_, b) => (settleDies (ownedDies s j.part) (removeJob id (refusePacket j.die j.queue 0x0104 b s)), false)
        | none => acc
      | some g =>
        let s := updJob id (refreshJob g) s
        let j := refreshJob g j
        if shut && jobTokens j == 0 then (s, false)
        else if !shut && jobFits s j then (admitJob j s, false)
        else (updJob id (fun j => { j with passed := j.passed + 1, pinned := j.pinned || decide (8 ≤ j.passed + 1) }) s, j.pinned)
  | _, _ => acc

/-- The order of R324: pinned by age, then by PRIORITY from 3 down, within it by age. -/
def admissionOrder (s : State) : List Nat :=
  let cs := (s.jobs.filter fun j => mayAdmit s j).mergeSort fun a b => decide (a.age ≤ b.age)
  ((cs.filter (·.pinned)) ++ ([3, 2, 1, 0].flatMap fun r => cs.filter fun j => !j.pinned && j.priority == r)).map (·.id)

/-- Admission at a boundary (R316, R318, R324). -/
def admitAll (s : State) : State :=
  let held := (allParts.map (heldTokens s)).sum
  if s.pins.pwrbrk then s else ((admissionOrder s).foldl (considerJob (decide (tokenPool s < held))) (s, false)).1

/-- A boundary (R324, R328, R331, R359): it is counted, SYNC_OUT pulses, an epoch that is due switches, and jobs are admitted. -/
def boundary (s : State) : State :=
  let s := if switchDue s then switchNow s else s
  let s := updHearth (fun h => { h with
    boundaries := (h.boundaries + 1) % 2 ^ 32, sinceEdge := h.sinceEdge + 1, period := h.pendPeriod.getD h.period, pendPeriod := none }) s
  admitAll (stampAll (emit .syncOut s))

/-- ADMISSION_BOUNDARY (R324, R328). -/
def execAdmissionBoundary (s : State) : Result := ok (if serving s then boundary s else s)

/-! ### SYNC (R329, R330) -/

/-- SYNC_IN_EDGE (R329, R330): `offsetNs` from the expected boundary, early below 0; `sinceNs` from the last accepted edge. An
accepted early edge is the boundary; a late one gives the boundary that has been its time of record (log 67). -/
def execSyncInEdge (offsetNs : Int) (sinceNs : Nat) (s : State) : Result :=
  ok (if !s.hearth.syncIn || s.boot.fwState != 2 then s
    else if s.hearth.freeRun || (decide (4 * offsetNs.natAbs ≤ s.hearth.period * 1000) && decide (20000 ≤ sinceNs)) then
      let s := if decide (offsetNs < 0) && serving s then boundary s else s
      updHearth (fun h => { h with freeRun := false, sinceEdge := 0 }) s
    else updHearth (fun h => { h with ignored := h.ignored + 1 }) s)

/-- SYNC_FREE_RUN (R330): eight periods without an accepted edge. -/
def execSyncFreeRun (s : State) : Result :=
  ok (if s.hearth.freeRun || decide (s.hearth.sinceEdge < 8) then s
    else logAt 0x0705 0 none 0x0B 0 (updHearth (fun h => { h with freeRun := true }) s))

/-! ### Idle states (R332) -/

/-- Exit latency and entry delay of I0 to I4, in µs. -/
def idleTimes : List (Nat × Nat) := [(0, 0), (1, 2), (40, 100), (1500, 4000), (6000, 40000)]

/-- A die is idle (R332). -/
def dieIdle (s : State) (d : DieIx) : Bool :=
  let x := dieOf s d
  x.ops.isEmpty && allQueues.all fun q => let qu := queueOf s d q; qu.jobs.isEmpty && qu.line.isEmpty && qu.hold.isNone

/-- The deepest state that a die idle for `us` enters (R231, R332). -/
def idleDepth (s : State) (d : DieIx) (us : Nat) : Nat :=
  let tol := match (dieOf s d).owner with | some p => (partOfIx s p).tolerance | none => 6000
  let secret := (dieOf s d).handles.any fun e => e.2.valid && e.2.isSecret
  let ok (k : Nat) : Bool := let t := idleTimes.getD k (0, 0)
    decide (t.1 ≤ tol ∧ t.2 ≤ us) && !(secret && decide (2 < k))
  ((List.range 5).filter ok).foldl Nat.max 0

/-- IDLE_ENTRY (R332). -/
def execIdleEntry (die : DieIx) (idleUs : Nat) (s : State) : Result :=
  ok (if dieIdle s die && dieActive s die then updDie die (fun x => { x with idle := Nat.max x.idle (idleDepth s die idleUs) }) s else s)

end Sys2Proof.Machine
end

