-- ==== Sys2Proof/Machine/HostPorts.lean ====
section
/-! DEFINITION. Host ports: queue control pages (R388 to R390), the BAR2 aperture (R391, R415), resets of a port or function (R385,
R510), benches at the gateway (R397 to R400). -/

namespace Sys2Proof.Machine

/-! ### Control pages (R388, R389) -/

/-- A queue has nothing visible that is not completed (R389). -/
def queueDrained (s : State) (d : DieIx) (q : QueueIx) : Bool :=
  let qu := queueOf s d q
  qu.line.isEmpty && qu.hold.isNone && qu.heldCpl.isEmpty && !(s.jobs.any fun j => j.die == d && j.queue == q)

/-- A pending disable takes effect once every visible packet has completed (R389). -/
def settleDisable (d : DieIx) (q : QueueIx) (s : State) : State :=
  if (queueOf s d q).disabling && queueDrained s d q then updQueue d q (fun x => { x with enabled := false, disabling := false }) s else s

/-- A write of CR_BASE, CR_LOG2 and VECTOR: the ring changes only while ENABLE is 0 (R389). -/
def writeRing (w : CtlWrite) (x : Queue) : Queue :=
  let x := match w.vector with | some v => { x with vector := v } | none => x
  if x.enabled then x
  else { x with crBase := match w.crBase with | some b => b.toNat | none => x.crBase
                crLog2 := w.crLog2.getD x.crLog2 }

/-- ENABLE may become 1 (R389). -/
def ringSound (x : Queue) : Bool := decide (4 ≤ x.crLog2 ∧ x.crLog2 ≤ 16) && x.crBase % 64 == 0

/-- A write to a queue control page (R389); ignored parts of it are counted. -/
def writeControl (d : DieIx) (q : QueueIx) (w : CtlWrite) (s : State) : State :=
  let old := queueOf s d q
  let ringIgnored := old.enabled && (w.crBase.isSome || w.crLog2.isSome)
  let s := updQueue d q (writeRing w) s
  let x := queueOf s d q
  let enableIgnored := w.enable == some true && !x.enabled && !(ringSound x)
  let s := if ringIgnored || enableIgnored then count d 6 1 s else s
  match w.enable with
  | none => s
  | some true =>
    if enableIgnored then s
    else if x.enabled then updQueue d q (fun x => { x with disabling := false }) s
    else wakeDie d (readQueue d q (updQueue d q (fun x => { x with enabled := true, disabling := false }) s))
  | some false => if x.enabled then settleDisable d q (updQueue d q (fun x => { x with disabling := true }) s) else s

/-- ENABLE (R388, R389, R396): a control-page write; in a device quench it has no effect. -/
def execEnable (port : HostId) (fn slot : Nat) (die : DieIx) (queue : QueueIx) (w : CtlWrite) (s : State) : Result :=
  ok (if s.alarm.device then s
    else match barOwns s port fn slot die with
      | some _ => writeControl die queue w s
      | none => match memberOf s port fn slot with
        | some r => sendMsg .bench (hostDie port) r.part die (fun v => .forwardedControl v r die queue w none) s
        | none => s)

/-- QUEUE_DISABLE_COMPLETE (R389). -/
def execQueueDisableComplete (die : DieIx) (queue : QueueIx) (s : State) : Result := ok (settleDisable die queue s)

/-- The key of a member's control-page copy at the gateway (R400). -/
def pageKey (fn slot : Nat) (d : DieIx) (q : QueueIx) : Nat := fn * 16384 + slot * 256 + d.val * 16 + q.val

/-- Put bytes into a member's control-page copy (R400). -/
def putPage (port : HostId) (fn slot : Nat) (d : DieIx) (q : QueueIx) (o : Nat) (bs : List Byte) (s : State) : State :=
  updHost port (fun h =>
    let k := pageKey fn slot d q
    let b := tblGetD h.pages k (List.replicate 64 0)
    { h with pages := tblSet h.pages k (b.take o ++ bs ++ b.drop (o + bs.length)) }) s

/-- CR_HEAD (R389, R390, R396, R400, R401): held records are written as the ring has room; a head beyond the tail, or more than a ring
behind it, is ignored and counted. A member's is forwarded, and enters the gateway's copy of its page. -/
def execCrHead (port : HostId) (fn slot : Nat) (die : DieIx) (queue : QueueIx) (value : W32) (s : State) : Result :=
  ok (match barOwns s port fn slot die with
    | some _ =>
      let x := queueOf s die queue
      if 2 ^ x.crLog2 < (x.crTail + 2 ^ 32 - value.toNat) % 2 ^ 32 then count die 6 1 s
      else settleDisable die queue (settleQueue die queue (flushCpl die queue (updQueue die queue (fun x => { x with crHead := value.toNat }) s)))
    | none => match memberOf s port fn slot with
      | some r =>
        if s.alarm.device then s
        else sendMsg .bench (hostDie port) r.part die
          (fun v => .forwardedControl v r die queue { crBase := none, crLog2 := none, enable := none, vector := none } (some value))
          (putPage port fn slot die queue 0x0C (leBytes 4 value.toNat) s)
      | none => s)

/-! ### Reads of BAR0 (R386 to R388, R396, R400) -/

/-- QSTATE of a queue (R388): IDLE where nothing visible is left to complete. -/
def queueState (s : State) (d : DieIx) (q : QueueIx) : Nat :=
  let x := queueOf s d q
  if s.alarm.device || x.quenched then 3 else if x.stopped then 2 else if queueDrained s d q then 0 else 1

/-- The 64 bytes of a queue control page (R388). -/
def controlPage (s : State) (d : DieIx) (q : QueueIx) : List Byte :=
  let x := queueOf s d q
  leBytes 8 x.crBase ++ leBytes 1 x.crLog2 ++ leBytes 1 (b2n x.enabled) ++ leBytes 2 x.vector ++ leBytes 4 x.crHead ++ leBytes 4 x.crTail ++
    leBytes 4 x.consumed ++ leBytes 1 (queueState s d q) ++ List.replicate 39 0

/-- A control page as a function reads it: a local queue's, the gateway's copy of a member's, or zero (R387, R400). -/
def readPage (s : State) (port : HostId) (fn slot : Nat) (d : DieIx) (q : QueueIx) : List Byte :=
  match barOwns s port fn slot d, memberOf s port fn slot with
  | some _, _ => controlPage s d q
  | none, some r =>
    bytesAt (tblGetD (hostOf s port).pages (pageKey r.fn r.slot d q) []) 0 64
  | none, none => List.replicate 64 0

/-- An entry of a function's MSI-X table (R386): 16 bytes, the mask in bit 0 of the last word (log 14). -/
def msixEntry (s : State) (port : HostId) (fn v : Nat) : List Byte :=
  bytesAt (tblGetD (hostOf s port).msixTable (fn * 2048 + v) []) 0 12 ++
    leBytes 4 (if (hostOf s port).unmasked.contains (fn * 4096 + v) then 0 else 1)

/-- The MSI-X pending-bit array of a function (R386, R393). -/
def msixPba (s : State) (port : HostId) (fn : Nat) : List Byte :=
  (List.range 256).map fun i =>
    BitVec.ofNat 8 ((List.range 8).map fun b => if (hostOf s port).msixPending.contains (fn * 4096 + 8 * i + b) then 2 ^ b else 0).sum

/-- What lies at a byte of BAR0 (R386): the queue window of a slot, die and queue; a control page; the MSI-X table or pending array of the
function; its aperture control; nothing. -/
inductive Bar0 where
  | window (slot : Nat) (die : DieIx) (queue : QueueIx) (offset : Nat)
  | page (slot : Nat) (die : DieIx) (queue : QueueIx) (offset : Nat)
  | msixTable (vector offset : Nat)
  | msixPba (offset : Nat)
  | aperture (offset : Nat)
  | hole
  deriving DecidableEq, Repr

/-- A queue index from four bits. -/
def queueBits (n : Nat) : QueueIx := ⟨n % 16, Nat.mod_lt _ (by decide)⟩

/-- The layout of BAR0 (R386); a BAR0 has 2 GiB. -/
def bar0At (o : Nat) : Bar0 :=
  if o < 0x40000000 then .window (o / 0x1000000) (dieBits (o / 0x100000)) (queueBits (o / 0x10000)) (o % 0x10000)
  else if o < 0x40100000 then
    let k := (o - 0x40000000) / 0x40
    .page (k / 256) (dieBits (k / 16)) (queueBits k) (o % 0x40)
  else if o < 0x40108000 then .msixTable ((o - 0x40100000) / 16) (o % 16)
  else if 0x40110000 ≤ o ∧ o < 0x40110100 then .msixPba (o - 0x40110000)
  else if 0x40200000 ≤ o ∧ o < 0x40200040 then .aperture (o - 0x40200000)
  else .hole

/-- A byte that a function reads at an offset of BAR0 (R386 to R388, R396, R400): a queue window reads as zero. -/
def bar0Byte (s : State) (port : HostId) (fn o : Nat) : Byte :=
  match bar0At o with
  | .page slot d q i => (readPage s port fn slot d q).getD i 0
  | .msixTable v i => (msixEntry s port fn v).getD i 0
  | .msixPba i => (msixPba s port fn).getD i 0
  | .aperture i => (leBytes 4 (tblGetD (hostOf s port).apertures fn 0)).getD i 0
  | .window .. | .hole => 0

/-! ### BAR2 (R391, R415) -/

/-- APERTURE_CONTROL (R391): the register holds DIE, the store handle and VALID. -/
def execApertureControl (port : HostId) (fn : Nat) (value : W32) (s : State) : Result :=
  ok (if !(hostOf s port).linkUp then s
    else updHost port (fun h => { h with apertures := tblSet h.apertures fn (value &&& 0x8003FF0F#32).toNat }) s)

/-- Bytes of the staging region (R415). -/
def stagingSize : Nat := 33554432

/-- Index of a host port. -/
def hostIx : HostId → Nat
  | .a => 0
  | .b => 1

/-- BAR2 before an image is accepted: the staging region of the port's anchor, for the PF (R415). -/
def stagingAccess (port : HostId) (fn offset length : Nat) (write : Option (List Byte)) (s : State) : State :=
  let m := s.boot.staging.getD (hostIx port) []
  let inside := fn == 0 && decide (offset + length ≤ stagingSize)
  match write with
  | some bs =>
    if inside && bs.length == length then { s with boot := { s.boot with staging := s.boot.staging.set (hostIx port) (memPut m offset bs) } } else s
  | none => if inside then emit (.bar2Data port (some (memBytes m offset length)) false) s else emit (.unsupported port) s

/-- The store handle that a BAR2 access of a function reaches, where the whole access lies in it (R391). -/
def bar2Target (s : State) (port : HostId) (fn offset length : Nat) : Option (DieIx × Nat) :=
  if s.alarm.device then none
  else match aperture s port fn with
    | none => none
    | some (d, h) =>
      match barOwns s port fn 0 d with
      | none => none
      | some _ => if (storeOf s d h).valid && decide (offset + length ≤ (storeOf s d h).rows * rowBytes) then some (d, h) else none

/-- BAR2_ACCESS (R391, R415): a read returns data, with EP set from a poisoned handle, or Unsupported Request; a write lands or is
dropped. -/
def execBar2Access (port : HostId) (fn offset length : Nat) (write : Option (List Byte)) (s : State) : Result :=
  ok (if !(hostOf s port).linkUp then s
    else if s.boot.fwState != 2 && !s.alarm.device then stagingAccess port fn offset length write s
    else match bar2Target s port fn offset length, write with
      | some (d, h), some bs => if bs.length = length then wakeDie d (putStore d h offset bs s) else s
      | some (d, h), none => wakeDie d (emit (.bar2Data port (some (storeBytes s d h offset length)) (storeOf s d h).poisoned) s)
      | none, some _ => s
      | none, none => emit (.unsupported port) s)

/-! ### Resets of a function and of a port (R385, R510) -/

/-- The control page of a queue takes its reset values (R385, R388). -/
def resetPage (x : Queue) : Queue :=
  { x with crBase := 0, crLog2 := 0, enabled := false, vector := 0, crHead := 0, crTail := 0, consumed := 0, disabling := false, stopped := false
           heldCpl := [] }

/-- A partition is quenched by a reset: event 0x0000, its queues restart, its control pages take their reset values (R385). -/
def resetPartition (p : PartIx) (s : State) : State :=
  let ds := ownedDies s p
  let s := quenchPartition p 0 true s
  ds.foldl (fun s d => updDie d (fun x => { x with queues := x.queues.map resetPage }) s) s

/-- Partitions of this part that a condition on the owning port and function picks: its own, or those of a bench whose gateway is given
(R383). -/
def ownedBy (s : State) (gateway : Option Nat) (f : HostId → Nat → Bool) : List PartIx :=
  allParts.filter fun p => let t := partOfIx s p
    t.state != .free && (match gateway with | none => t.memberSlot == 0 | some g => t.memberSlot != 0 && t.ownerPart == g) && f t.ownerPort t.ownerFn

/-- A function's PCI Express state after a reset of it: vectors masked and none pending, translations gone (log 14). -/
def resetFnState (fn : Nat) (h : HostPort) : HostPort :=
  { h with unmasked := h.unmasked.filter (· / 4096 != fn), msixPending := h.msixPending.filter (· / 4096 != fn), priFailed := h.priFailed.filter (· != fn)
           cached := h.cached.filter (·.1 != fn) }

/-- The reset of a port's functions reaches their bench members: their pages here take their reset values, and each is told (R385, log
69). -/
def resetMembers (port : HostId) (f : Nat → Bool) (s : State) : State :=
  let s := updHost port (fun h => { h with pages := h.pages.filter fun x => !(f (x.1 / 16384)) }) s
  ((hostOf s port).slotsHeld.filter fun r => f r.fn).foldl (fun s r => sendMsg .bench (hostDie port) r.part 0 (fun v => .forwardedReset v r) s) s

/-- Quench the partitions that a reset reaches. -/
def resetParts (ps : List PartIx) (s : State) : State := ps.foldl (fun s p => resetPartition p s) s

/-- FUNCTION_LEVEL_RESET (R385): of a function of this part, or of a gateway that fronts this part. -/
def execFunctionLevelReset (a : BenchPort) (fn : Nat) (s : State) : Result :=
  ok (
    let s := resetParts (ownedBy s a.gateway fun h f => h == a.port && f == fn) s
    if a.gateway.isSome then s else updHost a.port (resetFnState fn) (resetMembers a.port (· == fn) s))

/-- The link of a port goes down (R385): nothing more can be written through it. -/
def dropLink (port : HostId) (s : State) : State :=
  let s := updHost port (fun h => { h with linkUp := false, unmasked := [], msixPending := [], cached := [], priFailed := [] }) s
  resetMembers port (fun _ => true) (resetParts (ownedBy s none fun h _ => h == port) s)

/-- LINK_DOWN (R385): a hot reset or link-down of a port of this part, or of a gateway that fronts this part. -/
def execLinkDown (a : BenchPort) (s : State) : Result :=
  ok (match a.gateway with
    | none => dropLink a.port s
    | some _ => resetParts (ownedBy s a.gateway fun h _ => h == a.port) s)

/-- PERST (R510). -/
def execPerst (port : HostId) (asserted : Bool) (s : State) : Result :=
  ok (
    let s := { s with pins := { s.pins with perst := s.pins.perst.set (hostIx port) asserted } }
    if asserted then dropLink port s else s)

/-- HOST_LINK_UP (R381, R510): an enabled port out of PERST# trains to a width. -/
def execHostLinkUp (port : HostId) (width : Nat) (s : State) : Result :=
  ok (if (hostOf s port).enabled && !(s.pins.perst.getD (hostIx port) false) && [1, 4, 8, 16].contains width then
      updHost port (fun h => { h with linkUp := true, width := width }) s
    else s)

/-! ### Benches at the gateway (R397 to R400) -/

/-- MEMBER_REGISTRATION (R397): a slot that another partition holds is not taken; the member is answered. -/
def execMemberRegistration (reg : MemberReg) (s : State) : Result :=
  let held := (hostOf s reg.port).slotsHeld.any fun r => r.fn == reg.fn && r.slot == reg.slot
  let s := if held then s else updHost reg.port (fun h => { h with slotsHeld := h.slotsHeld ++ [reg] }) s
  ok (sendMsg .mgmt (hostDie reg.port) reg.part 0 (fun v => .registrationAnswer v reg held) s)

/-- A member's completion record is written under R392 and enters the gateway's copy of its page (R399, R400). -/
def forwardCpl (w : FwdWrite) (vec : Option Nat) (s : State) : State :=
  let s := emit (.completion w.reg.port w.reg.fn w.addr.toNat w.bytes) s
  let k := pageKey w.reg.fn w.reg.slot w.die w.queue
  let tail := fieldAt (tblGetD (hostOf s w.reg.port).pages k []) 0x10 4
  let s := putPage w.reg.port w.reg.fn w.reg.slot w.die w.queue 0x10 (leBytes 4 ((tail + 1) % 2 ^ 32) ++ bytesAt w.bytes 0x1C 4) s
  match vec with
  | some v => msix w.reg.port w.reg.fn v s
  | none => s

/-- FORWARDED_HOST_WRITE (R399, R400): a member's write is sent on PCI Express, with a translation of this port, and acknowledged; its
completion record is written; its page request counts at this port (R274). -/
def execForwardedHostWrite (w : FwdWrite) (s : State) : Result :=
  let h := w.reg.port
  ok (if s.alarm.device || !(hostOf s h).linkUp || !((hostOf s h).slotsHeld.contains w.reg) then s
    else match w.kind with
      | .completion vec => forwardCpl w vec s
      | .pages pages => sendBench h (updHost h (fun p => { p with benchWait := p.benchWait ++ [(w.reg, w.tag, pages)] }) s)
      | .data =>
        let s := emit (.hostWrite h w.reg.fn w.addr.toNat w.bytes ((hostOf s h).relaxed.contains w.reg.fn) ((hostOf s h).ats.contains w.reg.fn))
          (requestPages h w.reg.fn (pagesOf [(w.addr.toNat, w.bytes.length)]) s)
        sendMsg .bench (hostDie h) w.reg.part w.die (fun v => .forwardedAck v w.tag) s)

end Sys2Proof.Machine
end

