-- ==== Sys2Proof/Machine/BigNum.lean ====
section
/-! DEFINITION. The big-number engine pair (R443 to R452): slots, the arithmetic and curve commands, their queue and yields. -/

namespace Sys2Proof.Machine

/-! ### Slots (R443, R444) -/

/-- A slot before BN_CFG has set it. -/
def BnSlot.zero : BnSlot := ⟨0, false, false, 0⟩

/-- Slot `k` of partition `p`. -/
def slotAt (s : State) (p : PartIx) (k : Nat) : BnSlot := if k < 16 then tblGetD s.bn.slots (p.val * 16 + k) BnSlot.zero else BnSlot.zero

/-- Change slot `k` of partition `p`. -/
def updSlot (p : PartIx) (k : Nat) (f : BnSlot → BnSlot) (s : State) : State :=
  if k < 16 then { s with bn := { s.bn with slots := tblSet s.bn.slots (p.val * 16 + k) (f (slotAt s p k)) } } else s

/-- The slots of a command as destinations. -/
def slotDests (p : PartIx) (ks : List Nat) : List Dest := ks.map fun k => .bnSlot p k

/-- BN_CFG (R443). -/
def execBnCfg (at_ : Site) (slot n : Nat) (secret : Bool) (s : State) : Result :=
  ok (runInstr at_ (.bnCfg at_ slot n secret) (fun j s =>
    if 16 ≤ slot || n < 4 || 64 < n then .done (skipInstr 0x0102 j at_ 0x0E (slotDests j.part [slot]) s)
    else .done (updSlot j.part slot (fun _ => ⟨n, secret, false, 0⟩) (nameDests j.id (slotDests j.part [slot]) s))) s)

/-- A handle range that a slot is loaded from or read to lies in the handle (R226, R230). -/
def bnRange (s : State) (d : DieIx) (h o n : Nat) : Verdict :=
  match handleUse s d h with
  | some e => .skip e
  | none => failIf (decide ((handleOf s d h).rows * rowBytes < o + 8 * n)) (.skip 0x0105)

/-- The rows that `n` words at offset `o` of a handle take. -/
def wordRows (s : State) (d : DieIx) (h o n : Nat) (write : Bool) : SbEntry :=
  handleRange s d h (o / rowBytes) ((o + 8 * n - 1) / rowBytes - o / rowBytes + 1) write

/-- BN_LOAD (R444). -/
def execBnLoad (at_ : Site) (slot handle offset : Nat) (s : State) : Result :=
  ok (runInstr at_ (.bnLoad at_ slot handle offset) (fun j s =>
    let d := at_.die
    let x := slotAt s j.part slot
    let ds := slotDests j.part [slot]
    let v := firstFail [failIf (x.n == 0) (.skip 0x0102), bnRange s d handle offset x.n,
      failIf ((handleOf s d handle).isSecret && !x.isSecret) (.skip 0x0105)]
    if v != .pass then .done (onVerdict v j at_ 0x0E ds s id)
    else withScoreboard d [wordRows s d handle offset x.n false] s fun _ s =>
      if (handleOf s d handle).poisoned then .done (refuseInstr 0x0107 ((handleOf s d handle).pe.getD 0x0107) j at_ 0x0E ds s)
      else .done (updSlot j.part slot (fun y => { y with value := leNat (handleBytes s d handle offset (8 * x.n)), valid := true })
        (nameDests j.id ds s))) s)

/-- BN_READ (R444). -/
def execBnRead (at_ : Site) (handle offset slot : Nat) (s : State) : Result :=
  ok (runInstr at_ (.bnRead at_ handle offset slot) (fun j s =>
    let d := at_.die
    let x := slotAt s j.part slot
    let ds : List Dest := [.handle d handle]
    let v := firstFail [failIf (x.n == 0) (.skip 0x0102), bnRange s d handle offset x.n,
      failIf (x.isSecret && !(handleOf s d handle).isSecret) (.skip 0x0105), failIf (!x.valid) (.skip 0x0107)]
    if v != .pass then .done (onVerdict v j at_ 0x0E ds s id)
    else withScoreboard d [wordRows s d handle offset x.n true] s fun _ s =>
      .done (putHandle d handle offset (leBytes (8 * x.n) x.value) (nameDests j.id ds s))) s)

/-! ### Operands and times (R445) -/

/-- T_mm(n). -/
def tMm (n : Nat) : Nat := n * (ceilDiv n 4 + 2) + 16
/-- T_pre(n). -/
def tPre (n : Nat) : Nat := 128 * n * ceilDiv n 4 + 32
/-- MODINV(n). -/
def tInv (n : Nat) : Nat := 32 + 6 * n + 128 * n * (ceilDiv n 4 + 1)
/-- BN_RAND. -/
def tRand (n : Nat) : Nat := 16 + 8 * n + 2 * tMm n
/-- T_val. -/
def tVal (f : Nat) : Nat := 16 + 6 * f + 4 * tMm f
/-- EC_MUL and EC_DH. -/
def tEc (f : Nat) : Nat := tVal f + 1280 * f * tMm f + tInv f + 2 * tMm f

/-- The parameters of a curve. -/
def curveOf : Curve → CurveParams
  | .p256 => p256
  | .p384 => p384

/-- The source slots of a command. -/
def bnSrcs : Instr → List Nat
  | .modAdd _ _ a b m _ => [a, b, m]
  | .modSub _ _ a b m _ => [a, b, m]
  | .modMul _ _ a b m _ => [a, b, m]
  | .modExp _ _ a e m _ => [a, e, m]
  | .modInv _ _ a m _ => [a, m]
  | .bnRand _ _ m _ => [m]
  | .ecMul _ _ k x y _ _ _ => [k, x, y]
  | .ecDh _ _ k x y _ _ => [k, x, y]
  | _ => []

/-- The length that a command works in: its modulus's, or the curve's field length. -/
def bnLen (s : State) (p : PartIx) : Instr → Nat
  | .modAdd _ _ _ _ m _ => (slotAt s p m).n
  | .modSub _ _ _ _ m _ => (slotAt s p m).n
  | .modMul _ _ _ _ m _ => (slotAt s p m).n
  | .modExp _ _ _ _ m _ => (slotAt s p m).n
  | .modInv _ _ _ m _ => (slotAt s p m).n
  | .bnRand _ _ m _ => (slotAt s p m).n
  | .ecKeygen _ c _ _ _ _ => (curveOf c).words
  | .ecMul _ c _ _ _ _ _ _ => (curveOf c).words
  | .ecDh _ c _ _ _ _ _ => (curveOf c).words
  | _ => 0

/-- The exponent slot of MODEXP, whose length may be shorter. -/
def bnExp : Instr → Option Nat
  | .modExp _ _ _ e _ _ => some e
  | _ => none

/-- Every operand has the right length (R445). -/
def bnLensOk (s : State) (p : PartIx) (i : Instr) : Bool :=
  let n := bnLen s p i
  n != 0 && (bnSrcs i ++ bnDests i).all fun k =>
    if bnExp i = some k && !((bnDests i).contains k) then decide (1 ≤ (slotAt s p k).n ∧ (slotAt s p k).n ≤ n) else (slotAt s p k).n == n

/-- The engine time of a command (R445). -/
def bnTime (s : State) (p : PartIx) (i : Instr) : Nat :=
  let n := bnLen s p i
  match i with
  | .modAdd .. => 16 + 8 * n
  | .modSub .. => 16 + 8 * n
  | .modMul .. => 16 + 6 * n + tPre n + 3 * tMm n
  | .modExp _ _ _ e _ _ => 16 + 6 * n + tPre n + (128 * (slotAt s p e).n + 3) * tMm n
  | .modInv .. => tInv n
  | .bnRand .. => tRand n
  | .ecKeygen .. => tRand n + 1280 * n * tMm n + tInv n + 2 * tMm n
  | _ => tEc n

/-! ### The queue of the engine pair (R451) -/

/-- The waiting command that runs next: own commands in arrival order, else the least remaining time, the earlier on a tie. -/
def bnPick (l : List BnCmd) : Option BnCmd :=
  match l.find? fun c => c.part.isNone with
  | some c => some c
  | none => l.foldl (fun b c => match b with
    | none => some c
    | some x => if c.remaining < x.remaining then some c else b) none

/-- A free engine takes the next command. -/
def bnNext (s : State) : State :=
  if s.bn.running.isSome then s
  else match bnPick s.bn.waiting with
    | none => s
    | some c => { s with bn := { s.bn with running := some c, waiting := s.bn.waiting.erase c } }

/-- Skip and log a command: its destination slots are zeroed and invalid, its status is the event (R304, R445, R447). -/
def skipBn (e : Ev) (i : Instr) (j : Job) (at_ : Site) (s : State) : State :=
  let s := match bnStatus i with | some sc => putScalar at_.die sc e.toNat s | none => s
  skipInstr e j at_ 0x0E (slotDests j.part (bnDests i)) s

/-- Issue an arithmetic or curve command: operands checked, then it waits for the engine pair, which takes 64 waiting commands. -/
def issueBn (at_ : Site) (i : Instr) (j : Job) (s : State) : Issued :=
  if scalarBusy s at_.die (bnStatus i).toList then .wait .scalar []
  else if (bnSrcs i).any fun k => !(slotAt s j.part k).valid then .done (skipBn 0x0107 i j at_ s)
  else if !(bnLensOk s j.part i) then .done (skipBn 0x0102 i j at_ s)
  else if 64 ≤ s.bn.waiting.length then .wait .bnRoom []
  else
    let t := bnTime s j.part i
    let c : BnCmd := { arrival := s.nextId, part := some j.part, job := j.id, at_ := at_, instr := i, total := t, remaining := t, yields := 0 }
    let s := nameDests j.id (slotDests j.part (bnDests i)) s
    .done (bnNext { s with nextId := s.nextId + 1, bn := { s.bn with waiting := s.bn.waiting ++ [c] } })

/-! ### Results (R445 to R449) -/

/-- How a command ends: results with a status, or rejected under R447. -/
inductive BnEnd where
  | good (writes : List (Nat × Nat)) (status : Ev)
  | reject (status : Ev)
  deriving DecidableEq, Repr

/-- The range check: the modulus and reduced operands (R447). -/
def bnRangeOk (m : Nat) (odd : Bool) (reduced : List Nat) : Bool := decide (2 ≤ m) && (!odd || m % 2 == 1) && reduced.all fun x => decide (x < m)

/-- A point operation: scalar range, point validation, the product (R447, R449). -/
def bnPoint (c : CurveParams) (k x y : Nat) (good : Nat × Nat → List (Nat × Nat)) : BnEnd :=
  if k = 0 || c.order ≤ k then .reject 0x0811
  else if !(ecValid c x y) then .good (good (0, 0)) 0x0813
  else .good (good (ecCoords (ecMul c k (some (x, y))))) 0

/-- The result of a command on its slots; `r` is the random draw of BN_RAND and EC_KEYGEN. -/
def bnResult (v : Nat → Nat) (r : Nat) : Instr → BnEnd
  | .modAdd _ d a b m _ => if bnRangeOk (v m) false [v a, v b] then .good [(d, (v a + v b) % v m)] 0 else .reject 0x0811
  | .modSub _ d a b m _ => if bnRangeOk (v m) false [v a, v b] then .good [(d, subMod (v a) (v b) (v m))] 0 else .reject 0x0811
  | .modMul _ d a b m _ => if bnRangeOk (v m) true [v a, v b] then .good [(d, v a * v b % v m)] 0 else .reject 0x0811
  | .modExp _ d a e m _ => if bnRangeOk (v m) true [v a] then .good [(d, powMod (v a) (v e) (v m))] 0 else .reject 0x0811
  | .modInv _ d a m _ =>
    if !(bnRangeOk (v m) true [v a]) then .reject 0x0811
    else match modInv? (v a) (v m) with
      | some x => .good [(d, x)] 0
      | none => .good [(d, 0)] 0x0812
  | .bnRand _ d m _ => if bnRangeOk (v m) false [] then .good [(d, 1 + r % (v m - 1))] 0 else .reject 0x0811
  | .ecKeygen _ c d x y _ =>
    let k := 1 + r % ((curveOf c).order - 1)
    let q := ecCoords (ecMul (curveOf c) k (some ((curveOf c).gx, (curveOf c).gy)))
    .good [(d, k), (x, q.1), (y, q.2)] 0
  | .ecMul _ c k x y x' y' _ => bnPoint (curveOf c) (v k) (v x) (v y) fun q => [(x', q.1), (y', q.2)]
  | .ecDh _ c k x y z _ => bnPoint (curveOf c) (v k) (v x) (v y) fun q => [(z, q.1)]
  | _ => .good [] 0

/-- A command draws random bits from its partition's DRBG (R430). -/
def bnDraws : Instr → Bool
  | .bnRand .. => true
  | .ecKeygen .. => true
  | _ => false

/-- The command's result takes effect (R445 to R449): slots, status, events. -/
def bnFinish (c : BnCmd) (p : PartIx) (j : Job) (s : State) : State :=
  let d := c.at_.die
  let n := bnLen s p c.instr
  let (r, s) := if bnDraws c.instr then freeBelow (2 ^ (64 * (n + 1))) (updDie d (fun x => { x with drbgOn := true }) s) else (0, s)
  match bnResult (fun k => (slotAt s p k).value) r c.instr with
  | .reject e => skipBn e c.instr j c.at_ s
  | .good ws e =>
    let s := ws.foldl (fun s w => updSlot p w.1 (fun x => { x with value := w.2, valid := true }) s) s
    let s := match bnStatus c.instr with | some sc => putScalar d sc e.toNat s | none => s
    if e = 0 then s else logJob e j c.at_ 0x0E 0 false s

/-- BN_COMPLETE (R446, R450, R451): the running command takes effect, and the next one starts. -/
def execBnComplete (s : State) : Result :=
  ok (match s.bn.running with
    | none => s
    | some c =>
      let s := { s with bn := { s.bn with running := none } }
      match c.part, jobOf s c.job with
      | some p, some j => bnNext (bnFinish c p j s)
      | _, _ => bnNext s)

/-- BN_YIELD (R451): at a boundary of 32,768 qc of its execution the running command yields to a shorter or own command. -/
def execBnYield (s : State) : Result :=
  ok (match s.bn.running with
    | none => s
    | some c =>
      if c.remaining ≤ 32768 then s
      else
        let c := { c with remaining := c.remaining - 32768 }
        if c.part.isSome && decide (c.yields < 16) && s.bn.waiting.any (fun w => w.part.isNone || decide (w.total ≤ c.remaining)) then
          bnNext { s with bn := { s.bn with running := none, waiting := s.bn.waiting ++ [{ c with yields := c.yields + 1 }] } }
        else { s with bn := { s.bn with running := some c } })

/-! ### The commands (R445) -/

/-- MODADD. -/
def execModAdd (at_ : Site) (d a b m sc : Nat) (s : State) : Result :=
  ok (runInstr at_ (.modAdd at_ d a b m sc) (issueBn at_ (.modAdd at_ d a b m sc)) s)
/-- MODSUB. -/
def execModSub (at_ : Site) (d a b m sc : Nat) (s : State) : Result :=
  ok (runInstr at_ (.modSub at_ d a b m sc) (issueBn at_ (.modSub at_ d a b m sc)) s)
/-- MODMUL. -/
def execModMul (at_ : Site) (d a b m sc : Nat) (s : State) : Result :=
  ok (runInstr at_ (.modMul at_ d a b m sc) (issueBn at_ (.modMul at_ d a b m sc)) s)
/-- MODEXP. -/
def execModExp (at_ : Site) (d a e m sc : Nat) (s : State) : Result :=
  ok (runInstr at_ (.modExp at_ d a e m sc) (issueBn at_ (.modExp at_ d a e m sc)) s)
/-- MODINV. -/
def execModInv (at_ : Site) (d a m sc : Nat) (s : State) : Result :=
  ok (runInstr at_ (.modInv at_ d a m sc) (issueBn at_ (.modInv at_ d a m sc)) s)
/-- BN_RAND. -/
def execBnRand (at_ : Site) (d m sc : Nat) (s : State) : Result :=
  ok (runInstr at_ (.bnRand at_ d m sc) (issueBn at_ (.bnRand at_ d m sc)) s)
/-- EC_KEYGEN. -/
def execEcKeygen (at_ : Site) (curve : Curve) (d x y sc : Nat) (s : State) : Result :=
  ok (runInstr at_ (.ecKeygen at_ curve d x y sc) (issueBn at_ (.ecKeygen at_ curve d x y sc)) s)
/-- EC_MUL. -/
def execEcMul (at_ : Site) (curve : Curve) (k x y x' y' sc : Nat) (s : State) : Result :=
  ok (runInstr at_ (.ecMul at_ curve k x y x' y' sc) (issueBn at_ (.ecMul at_ curve k x y x' y' sc)) s)
/-- EC_DH. -/
def execEcDh (at_ : Site) (curve : Curve) (k x y z sc : Nat) (s : State) : Result :=
  ok (runInstr at_ (.ecDh at_ curve k x y z sc) (issueBn at_ (.ecDh at_ curve k x y z sc)) s)

end Sys2Proof.Machine
end

