-- ==== Sys2Proof/Machine/Faults.lean ====
section
/-! DEFINITION. Faults: parity errors (R234, R278, R456), the commit points of the anchors (R22, R23), entropy, clock, supply and eye
checks (R428, R469), the QUENCH# input (R409, R512), the end of a partition quench (R460). -/

namespace Sys2Proof.Machine

/-! ### Parity (R456) -/

/-- A location that failed is listed in object 0x7001 (R500). -/
def listFailure (d : DieIx) (structure_ row : Nat) (s : State) : State :=
  let e := (d.val, structure_, row)
  if s.bist.results.contains e then s else { s with bist := { s.bist with results := s.bist.results ++ [e] } }

/-- The handle of a die whose rows hold a physical row. -/
def handleOfRow (s : State) (d : DieIx) (row : Nat) : Option Nat :=
  ((dieOf s d).handles.find? fun e => e.2.valid && decide (e.2.base ≤ row ∧ row < e.2.base + e.2.rows)).map (·.1)

/-- The operation in flight with an identifier, and its die. -/
def anyOp (s : State) (op : Nat) : Option (DieIx × Op) := allDies.findSome? fun d => (opOf s d op).map fun o => (d, o)

/-- A parity error found by operation `op`, on whichever die it runs: `mark` acts on the structure that failed, which may be on another
die, the event is logged, the job is quenched, which aborts the operation (R132, R234, R278, R459). -/
def parityFail (op : Nat) (e : Ev) (detail : Nat) (mark : State → State) (s : State) : State :=
  match anyOp s op with
  | none => s
  | some (d, o) =>
    match jobOf s o.job with
    | none => s
    | some j =>
      settleDies (ownedDies s j.part) (quenchJob j.id e false
        (logJob e j { die := d, queue := o.queue, off := o.off } o.unit detail false (mark s)))

/-- SCRATCHPAD_PARITY (R232, R234): the row is held out and the handle that holds it is poisoned. -/
def execScratchpadParity (die : DieIx) (op row : Nat) (s : State) : Result :=
  ok (parityFail op 0x0301 row (fun s => match handleOfRow s die row with
    | some h => poisonHandle die h 0x0301 (holdOutRow die row s)
    | none => holdOutRow die row s) s)

/-- CLUSTER_BUFFER_PARITY (R112, R456): the row is held out. -/
def execClusterBufferParity (die : DieIx) (_cluster : Fin 8) (row op : Nat) (s : State) : Result :=
  ok (parityFail op 0x0301 row (fun s => count die 8 1 (listFailure die 2 row s)) s)

/-- Poison a register-like location until it is written again (R456). -/
def poisonReg (d : DieIx) (l : RegLoc) (s : State) : State :=
  poisonDest 0x0301 (match l with
    | .tile g z => .tile d g z
    | .cacheLine g line => .cache d g line 1
    | .scalar sc => .scalar d sc
    | .palette e => .palette d e) s

/-- REGISTER_PARITY (R456). -/
def execRegisterParity (die : DieIx) (loc : RegLoc) (op : Nat) (s : State) : Result :=
  ok (parityFail op 0x0301 0 (poisonReg die loc) s)

/-- STORE_PARITY (R278): a data row of the stack is held out. -/
def execStoreParity (die : DieIx) (op row : Nat) (s : State) : Result :=
  ok (parityFail op 0x0302 row (holdOutStack die row) s)

/-- The unit that logs a parity error in a control structure of R466. -/
def controlUnit (k : Nat) : Nat :=
  if k ∈ [1, 4, 12] then 7 else if k = 2 then 8 else if k = 3 then 6 else if k = 13 then 1 else if k ∈ [14, 15] then 0
  else if k ∈ [10, 11] then 9 else 0x0B

/-- CONTROL_PARITY (R235, R456): a device quench, the structure in DETAIL. -/
def execControlParity (die : DieIx) (structure_ : Nat) (s : State) : Result :=
  ok (if s.boot.phase = .off then s else deviceFail 0x0304 die (controlUnit structure_) structure_ s)

/-! ### Anchors (R22, R23) -/

/-- ANCHOR_COMPARE: the checker's result at a commit point equals the primary's, or a device quench follows and the result under
comparison does not take effect: the command that would commit it does not come (R21, R22, log 103). -/
def execAnchorCompare (point : Nat) (primary checker : List Byte) (s : State) : Result :=
  ok (if s.boot.phase = .off || primary == checker then s else deviceFail 0x0803 0 0x0B point s)

/-- ANCHOR_COMPARE_TIMEOUT (R23): bit 31 of DETAIL says timeout (R466). -/
def execAnchorCompareTimeout (point : Nat) (s : State) : Result :=
  ok (if s.boot.phase = .off then s else deviceFail 0x0803 0 0x0B (point + 2 ^ 31) s)

/-! ### Checks in service (R428, R469) -/

/-- ENTROPY_FAIL (R428). -/
def execEntropyFail (die : DieIx) (s : State) : Result :=
  ok (if s.boot.phase = .off then s else deviceFail 0x0804 die 0x0B 0 s)

/-- A check of R469 fails: the location is listed, and DETAIL names it (R500). -/
def checkFail (die : DieIx) (structure_ : Nat) (s : State) : State :=
  deviceFail 0x0901 die 0x0B (die.val + 256 * structure_) (listFailure die structure_ 0 s)

/-- CLOCK_CHECK (R469): more than 2 % from nominal. -/
def execClockCheck (die : DieIx) (ppm : Int) (s : State) : Result :=
  ok (if s.boot.fwState = 2 && decide (20000 < ppm.natAbs) then checkFail die 7 s else s)

/-- SUPPLY_CHECK (R469): a difference above 1.5 %. -/
def execSupplyCheck (die : DieIx) (permyriad : Nat) (s : State) : Result :=
  ok (if s.boot.fwState = 2 && decide (150 < permyriad) then checkFail die 9 s else s)

/-- EYE_MARGIN_CHECK (R469): a margin below the fused one of an UP port is counted, and the port retrains at its next DOWN. -/
def execEyeMarginCheck (port : PortIx) (margin : Nat) (s : State) : Result :=
  ok (if s.boot.fwState = 2 && (portOf s port).state == .up && decide (margin < s.fuses.eyeMargin.getD port.val 0) then
      updPort port (fun p => { p with eyeLow := true, eyeCount := p.eyeCount + 1 }) s
    else s)

/-! ### QUENCH# (R409, R512) -/

/-- QUENCH_INPUT: a low of 100 ns or more, seen while the part does not drive the pin and the image runs. -/
def execQuenchInput (lowNs : Nat) (s : State) : Result :=
  ok (if lowNs < 100 || s.alarm.quenchLow || s.boot.fwState ≠ 2 then s
    else if s.twin.state = .paired && s.twin.armed then declareLost s
    else quenchDevice 0 .external s)

/-! ### The end of a partition quench (R460, R410) -/

/-- A queue returns to IDLE where it stands, or to line 0 and sequence number 1, which also ends a stop (R285, R460). -/
def unquench (restart : Bool) (x : Queue) : Queue :=
  if restart then { x with quenched := false, stopped := false, pos := 0, seq := 1 } else { x with quenched := false }

/-- PARTITION_QUENCH_COMPLETE (R460); a STANDBY partition of a lost, armed twin becomes ACTIVE (R410). A device quench does not end. -/
def execPartitionQuenchComplete (p : PartIx) (s : State) : Result :=
  ok (match (partOfIx s p).quenching with
    | none => s
    | some (_, restart) =>
      if s.alarm.device || s.jobs.any (fun j => j.part == p) then s
      else
        let ds := ownedDies s p
        let promote := s.twin.state == .lost && s.twin.armed && (partOfIx s p).role == .standby
        let s := updPart p (fun x => { x with quenching := none, role := if promote then .active else x.role }) s
        let s := ds.foldl (fun s d => updDie d (fun x => { x with queues := x.queues.map (unquench restart) }) s) s
        ds.foldl (fun s d => allQueues.foldl (fun s q => readQueue d q s) s) s)

end Sys2Proof.Machine
end

