-- ==== Sys2Proof/Machine/Bist.lean ====
section
/-! DEFINITION. The shut-down test and repair (R471 to R476, R519, R521): its phases, the repair record, soft and fused repairs. -/

namespace Sys2Proof.Machine

/-- Change the self-test state. -/
def updBist (f : Bist → Bist) (s : State) : State := { s with bist := f s.bist }

/-! ### The repair record (R474) -/

/-- The repair-record key (R417, R474). -/
def repairKeyOf (s : State) : List Byte := kdfCounter s.fuses.deviceSecret (ascii "ZS-GH64-REPAIR1") s.fuses.uniqueId 256

/-- Bytes 0x00 to 0x3F of a record. -/
def recordHead (s : State) (length : Nat) : List Byte :=
  leBytes 2 0xC7F5 ++ leBytes 1 1 ++ leBytes 1 (b2n s.bist.logicFail + 2 * b2n s.bist.exhausted) ++ bytesAt s.fuses.uniqueId 0 16 ++
    leBytes 4 (s.bist.recordSeq + 1) ++ leBytes 4 length ++ bytesAt s.bist.iv 0 12 ++ List.replicate 0x18 0

/-- The record that the part seals: head, sealed body, tag. -/
def sealRecord (key : List Byte) (repairs held : List (Nat × Nat × Nat)) (s : State) : List Byte :=
  let m := Config.repairBody repairs held
  let h := recordHead s m.length
  let c := gcmSeal key (bytesAt s.bist.iv 0 12) h m
  h ++ c.1 ++ c.2

/-- The checks of R475 but for the two flags: tag, VERSION, UNIQUE_ID, and a body that authenticates. -/
def openRecord (key : List Byte) (s : State) (b : List Byte) : Option (List Byte) :=
  let n := fieldAt b 0x18 4
  if fieldAt b 0 2 == 0xC7F5 && fieldAt b 2 1 == 1 && bytesAt b 4 16 == bytesAt s.fuses.uniqueId 0 16 &&
      decide (n ≤ 1048576 ∧ b.length = 0x40 + n + 16) then
    gcmOpen key (bytesAt b 0x1C 12) (bytesAt b 0 0x40) (bytesAt b 0x40 n) (bytesAt b (0x40 + n) 16)
  else none

/-! ### Locations (R457, R473, R500) -/

/-- A test's entry as the results list it. -/
def entryOf (e : BistEntry) : Nat × Nat × Nat := (e.die.val, e.structure_, e.row)

/-- A location is held out of service and listed. -/
def holdLoc (e : Nat × Nat × Nat) (s : State) : State :=
  let d := dieBits e.1
  if e.2.1 = 1 then holdOutRow d e.2.2 s else if e.2.1 = 4 then holdOutStack d e.2.2 s else listFailure d e.2.1 e.2.2 s

/-- List a test's failures. -/
def listFailures (l : List BistEntry) (s : State) : State := l.foldl (fun s e => listFailure e.die e.structure_ e.row s) s

/-- Union of two lists of locations. -/
def locUnion (a b : List (Nat × Nat × Nat)) : List (Nat × Nat × Nat) := a ++ b.filter fun e => !(a.contains e)

/-- What repair leaves held out: the listed locations that no spare covers. -/
def keptOut (s : State) (repaired : List (Nat × Nat × Nat)) : List (Nat × Nat × Nat) := s.bist.results.filter fun e => !(repaired.contains e)

/-- Take the repaired rows back into allocation. -/
def applyRepairs (repaired : List (Nat × Nat × Nat)) (s : State) : State :=
  let kept := keptOut s repaired
  let rows (d st : Nat) : List Nat := (kept.filter fun e => e.1 == d && e.2.1 == st).map (·.2.2)
  let s := allDies.foldl (fun s d => updDie d (fun x => { x with heldOut := rows d.val 1, heldOutStore := rows d.val 4 }) s) s
  updBist (fun b => { b with results := kept, repairs := locUnion b.repairs repaired }) s

/-- Burn one location into fuses while its die's budget lasts (R473). -/
def burnRepair (f : Fuses) (e : Nat × Nat × Nat) : Fuses :=
  if f.fusedRepairs.contains e || f.repairBudget.getD e.1 0 = 0 then f
  else { f with fusedRepairs := f.fusedRepairs ++ [e], repairBudget := f.repairBudget.modify e.1 (· - 1) }

/-- EXHAUSTED (R474): a failure in control state, or more than 4,096 held-out rows on one die. -/
def isExhausted (kept : List (Nat × Nat × Nat)) : Bool :=
  kept.any (fun e => e.2.1 == 5) ||
  (List.range 16).any fun d => decide (4096 < (kept.filter fun e => e.1 == d && (e.2.1 == 1 || e.2.1 == 4)).length)

/-! ### The record at start (R475, R476) -/

/-- DETAIL of 0x0901 and 0x0902 from a record's list: the first location of a kind (R466). -/
def recordDetail (l : List (Nat × Nat × Nat)) (f : Nat → Bool) : Nat :=
  match l.find? fun e => f e.2.1 with
  | some e => e.1 + 256 * e.2.1
  | none => 0

/-- No usable record: the MEMORY and REPAIR phases run before the part serves (R475, R518). -/
def noRecord (status : Nat) (s : State) : State :=
  let s := updBist (fun b => { b with status := status, phase := 4 }) s
  logAt 0x0903 0 none 0x0D 0 { s with boot := { s.boot with phase := .memoryTest } }

/-- A record that authenticates: a flag in it quenches the device, or its repairs apply and the retention check follows. -/
def takeRecord (b body : List Byte) (s : State) : State :=
  let flags := fieldAt b 3 1
  let (repairs, held) := Config.repairList body
  if bitOf flags 0 then deviceFail 0x0901 0 0x0D (recordDetail held (· == 6)) (updBist (fun x => { x with status := 2 }) s)
  else if bitOf flags 1 then deviceFail 0x0902 0 0x0D (recordDetail held (· != 6)) (updBist (fun x => { x with status := 2 }) s)
  else
    let s := updBist (fun x => { x with status := 1, recordSeq := fieldAt b 0x14 4, repairs := repairs, prevRepairs := repairs }) s
    held.foldl (fun s e => holdLoc e s) { s with boot := { s.boot with phase := .retention } }

/-- REPAIR_RECORD (R475, R518): the record that has been written is checked and applied, or was declared absent. -/
def execRepairRecord (s : State) : Result :=
  ok (if s.boot.phase ≠ .waitRecord || s.alarm.device then s
    else match s.bist.recordIn with
      | none => s
      | some [] => noRecord 0 s
      | some b => match openRecord (repairKeyOf s) s b with
        | none => noRecord 2 s
        | some body => takeRecord b body s)

/-! ### Phases (R471) -/

/-- DRAIN ends (R471, R474): the record's IV is drawn before CLEAR zeroises the control complex's DRBG. -/
def beginClear (s : State) : State :=
  let (iv, s) := freeBytes 12 s
  updBist (fun b => { b with phase := 2, iv := iv }) s

/-- The admitted jobs. -/
def admittedJobs (s : State) : List Nat := (s.jobs.filter (·.phase == .admitted)).map (·.id)

/-- DRAIN_GRACE_EXPIRY (R471): jobs still running are quenched with event 0x0000 and CANCELLED. -/
def execDrainGraceExpiry (s : State) : Result :=
  ok (if s.bist.phase = 1 then beginClear ((admittedJobs s).foldl (fun s i => quenchJob i 0 true s) s) else s)

/-- DRAIN_COMPLETE (R471): every admitted job has completed. -/
def execDrainComplete (s : State) : Result := ok (if s.bist.phase = 1 && (admittedJobs s).isEmpty then beginClear s else s)

/-- CLEAR_COMPLETE (R422, R438, R471, R521): the last heartbeat, every partition quenched, every secret zeroised, security state
TEST. -/
def execClearComplete (s : State) : Result :=
  ok (if s.bist.phase ≠ 2 then s
    else
      let s := if s.twin.state = .paired || s.twin.state = .lost then sendTwin 1 0 0 s else s
      let s := (allParts.filter fun p => (partOfIx s p).state != .free).foldl (fun s p => quenchPartition p 0 false s) s
      let s := zeroDeviceSecrets s
      updBist (fun b => { b with phase := 3 }) { s with sec := { s.sec with state := .test } })

/-- SCAN_COMPLETE (R471): a logic failure is marked in the record. -/
def execScanComplete (failures : List BistEntry) (s : State) : Result :=
  ok (if s.bist.phase ≠ 3 then s
    else updBist (fun b => { b with phase := 4, logicFail := !failures.isEmpty }) (listFailures failures s))

/-- What the memory test overwrites (R472). -/
def wipeDie (x : Die) : Die :=
  { x with scratch := [], store := [], bufs := List.replicate 8 [], handles := [], storeHandles := [], slots := [], rings := [], descs := []
           tiles := [], cache := [], palette := [], tilePoison := [], cachePoison := [], palettePoison := [] }

/-- MEMORY_COMPLETE (R91, R471, R472, R474, R518): key sets, store handles and contents are gone; at shut-down the record's key is derived. -/
def execMemoryComplete (failures : List BistEntry) (s : State) : Result :=
  ok (if s.bist.phase ≠ 4 || s.alarm.device then s
    else
      let s := listFailures failures s
      let s := { s with dies := s.dies.map wipeDie, parts := s.parts.map fun p => { p with keysets := [] } }
      let s := updBist (fun b => { b with phase := 5 }) s
      if s.boot.phase = .memoryTest then { s with boot := { s.boot with phase := .repairTest } }
      else { s with sec := { s.sec with repairKey := some (repairKeyOf s) } })

/-- REPAIR_COMPLETE (R473, R474, R518): `repaired` names the locations that spares cover. At shut-down repairs needed twice running are
burned and the record is sealed; at start the retention check follows. -/
def execRepairComplete (repaired : List BistEntry) (s : State) : Result :=
  ok (if s.bist.phase ≠ 5 || s.alarm.device then s
    else
      let rs := (repaired.map entryOf).filter fun e => s.bist.results.contains e
      let s := applyRepairs rs s
      if s.boot.phase = .repairTest then
        updBist (fun b => { b with phase := 0 }) { s with boot := { s.boot with phase := .retention } }
      else
        let s := updBist (fun b => { b with exhausted := isExhausted b.results }) s
        let twice := s.bist.repairs.filter fun e => s.bist.prevRepairs.contains e
        let s := { s with fuses := twice.foldl burnRepair s.fuses }
        let r := sealRecord (s.sec.repairKey.getD []) s.bist.repairs s.bist.results s
        updBist (fun b => { b with phase := 6, recordOut := r }) { s with sec := { s.sec with repairKey := none } })

/-- SHUTDOWN's effect (R471): phase DRAIN; 7 is STATE. -/
def startShutdown (s : State) : Except Nat State :=
  if s.bist.phase = 0 && s.boot.phase = .ready then .ok (updBist (fun b => { b with phase := 1 }) s) else .error 7

end Sys2Proof.Machine
end

