-- ==== Sys2Proof/Machine/Boot.lean ====
section
/-! DEFINITION. Power, reset and start-up (R506 to R518): the pins, the anchor self-check, verification of the firmware image (R414 to
R422), readiness. -/

namespace Sys2Proof.Machine

/-- Change the boot state. -/
def updBoot (f : Boot → Boot) (s : State) : State := { s with boot := f s.boot }

/-! ### Pins (R506 to R509) -/

/-- The part in reset: everything but the fuses is cleared; the levels of the input pins and what the model keeps of its own
(output, counters, queue) stay. -/
def intoReset (pwrok resetLow : Bool) (vcore : List Nat) (s : State) : State :=
  let r := resetOf s.fuses
  { r with
    pins := { s.pins with pwrok := pwrok, resetLow := resetLow, smbAlert := false, vcoreSet := vcore }
    boot := { r.boot with phase := .off }, out := s.out, free := s.free, nextId := s.nextId, pending := s.pending }

/-- PWROK_RISE (R506, R507): the part sets every VCORE to its fused setpoint over AVSBus. -/
def execPwrokRise (s : State) : Result :=
  ok (if s.pins.pwrok then s
    else
      let v := (List.range 16).map fun n => s.fuses.vcore.getD n 0
      let s := { s with pins := { s.pins with pwrok := true, vcoreSet := v } }
      v.zipIdx.foldl (fun s x => emit (.avs x.2 x.1) s) s)

/-- PWROK_FALL (R508): every content is lost with its supply. -/
def execPwrokFall (s : State) : Result := ok (if s.pins.pwrok then intoReset false s.pins.resetLow [] s else s)

/-- SYS_RESET_ASSERT (R509): with PWROK high it resets the part. -/
def execSysResetAssert (s : State) : Result :=
  ok (if s.pins.pwrok then intoReset true true s.pins.vcoreSet s else { s with pins := { s.pins with resetLow := true } })

/-- SYS_RESET_RELEASE (R507, R517): reset ends and the anchor self-check begins. -/
def execSysResetRelease (s : State) : Result :=
  ok (if !s.pins.resetLow then s
    else
      let s := { s with pins := { s.pins with resetLow := false } }
      if s.pins.pwrok && s.boot.phase = .off then updBoot (fun b => { b with phase := .selfCheck }) s else s)

/-! ### The anchor self-check (R417, R421, R422, R517) -/

/-- Identity derivation (R421): the key pair from the device secret. -/
def deriveIdentity (s : State) : State :=
  let k := Config.slhKeygen (kdfCounter s.fuses.deviceSecret (ascii "ZS-GH64-IDENT1") s.fuses.uniqueId 384)
  { s with sec := { s.sec with identPk := bytesAt k.1 0 32, identSk := some k.2 } }

/-- SELF_CHECK_COMPLETE (R510, R517): the identity is derived and the host ports are enabled, or a device quench. -/
def execSelfCheckComplete (r : SelfCheck) (s : State) : Result :=
  ok (if s.boot.phase ≠ .selfCheck || s.alarm.device then s
    else match r with
      | .anchorsDiffer => deviceFail 0x0803 0 0x0B 0 s
      | .entropyFails => deviceFail 0x0804 0 0x0B 0 s
      | .pass =>
        let s := deriveIdentity s
        let s := { s with hostA := { s.hostA with enabled := true }, hostB := { s.hostB with enabled := true } }
        updBoot (fun b => { b with phase := .waitImage }) s)

/-! ### Verification of the image (R416, R418, R419) -/

/-- The value of the fused rollback counter: its burned bits (R417). -/
def rollbackCount (v : BitVec 64) : Nat := (List.range 64).countP fun k => v.getLsbD k

/-- Check 1: the fields of R416. -/
def imageShapeOk (b : List Byte) : Bool :=
  let slot := fieldAt b 6 1
  let revoke := fieldAt b 7 1
  let n := fieldAt b 0x1C 4
  fieldAt b 0 4 == 0x57464847 && fieldAt b 4 2 == 1 && fieldAt b 0x10 2 == 0x6440 && decide (slot < 4 ∧ revoke < 16) && !(bitOf revoke slot) &&
    zeroRange b 0x12 0x1C && zeroRange b 0x1F10 0x2000 && decide (64 ≤ n ∧ n ≤ 33546240 ∧ n % 64 = 0 ∧ b.length = 0x2000 + n)

/-- The first check of R418 that fails, with its event. -/
def imageFails (fz : Fuses) (b : List Byte) (stagingParity : Bool) : Option (Nat × Ev) :=
  let slot := fieldAt b 6 1
  let key := bytesAt b 0x40 32
  if !(imageShapeOk b) then some (1, 0x0801)
  else if fz.revoked.getLsbD slot || sha256 key != fz.keyHash.getD slot [] then some (2, 0x0801)
  else if stagingParity || sha256 (b.drop 0x2000) != bytesAt b 0x20 32 then some (3, 0x0801)
  else if !(Config.slhVerify key (bytesAt b 0 0x60) (bytesAt b 0x60 7856)) then some (4, 0x0801)
  else if fieldAt b 0x0C 4 < rollbackCount fz.rollback then some (5, 0x0802)
  else none

/-- The image runs (R419, R454): the part becomes operational, and waits for a repair record; PWRBRK# acts from now on (R514). -/
def runImage (b : List Byte) (s : State) : State :=
  let s := updBoot (fun x => { x with
    fwState := 2, phase := .waitRecord, imageDigest := sha256 (bytesAt b 0 0x60), fwVersion := fieldAt b 8 4
    fwRollback := fieldAt b 0x0C 4, keySlot := fieldAt b 6 1, revoke := fieldAt b 7 1 }) s
  let s := { s with sec := { s.sec with state := .operational } }
  if s.pins.pwrbrk then applyBrake s else s

/-- VERIFICATION_COMPLETE (R418, R419): `stagingParity` says that a staging row failed parity, which fails check 3. -/
def execVerificationComplete (stagingParity : Bool) (s : State) : Result :=
  ok (if s.boot.phase ≠ .verifying || s.alarm.device then s
    else
      let b := memBytes (s.boot.staging.getD s.boot.goPort []) 0 s.boot.imageLength
      match imageFails s.fuses b stagingParity with
      | none => runImage b s
      | some (n, e) => deviceFail e 0 0x0B 0 (updBoot (fun x => { x with fwState := 3, failedCheck := n }) s))

/-- GO's effect (R415, R454): the first GO is taken; a later one is refused with STATE. -/
def startVerification (port : HostId) (length : Nat) (s : State) : Except Nat State :=
  if s.boot.phase = .waitImage && !s.boot.goTaken then
    .ok (updBoot (fun b => { b with phase := .verifying, fwState := 1, goTaken := true, goPort := hostIx port, imageLength := length }) s)
  else .error 7

/-! ### Start-up step 5 (R517, R518, R522) -/

/-- REPAIR_RECORD_WAIT_EXPIRY (R518, R522): an open session to 0x7010:01 closes, and the tests run. -/
def execRepairRecordWaitExpiry (s : State) : Result :=
  ok (if s.boot.phase ≠ .waitRecord || s.bist.recordIn.isSome || s.alarm.device then s
    else noRecord 0 { s with dict := { s.dict with sessions := s.dict.sessions.filter fun x => !(x.index == 0x7010 && x.sub == 1) } })

/-- A failure of the retention check is a parity error in its structure (R456, R517). -/
def retentionFail (e : BistEntry) (s : State) : State :=
  match e.structure_ with
  | 1 => holdOutRow e.die e.row (logAt 0x0301 e.die none 7 e.row s)
  | 2 => count e.die 8 1 (listFailure e.die 2 e.row (logAt 0x0301 e.die none 1 e.row s))
  | 3 => listFailure e.die 3 e.row (logAt 0x0301 e.die none 4 0 s)
  | 4 => holdOutStack e.die e.row (logAt 0x0302 e.die none 8 e.row s)
  | 5 => deviceFail 0x0304 e.die 0x0B 0 (listFailure e.die 5 e.row s)
  | _ => s

/-- READY (R517): the quick retention check is complete. -/
def execReady (failures : List BistEntry) (s : State) : Result :=
  ok (if s.boot.phase ≠ .retention || s.alarm.device then s
    else
      let s := failures.foldl (fun s e => retentionFail e s) s
      if s.alarm.device then s else updBoot (fun b => { b with phase := .ready }) s)

end Sys2Proof.Machine
end

