-- ==== Sys2Proof/Machine/Dictionary.lean ====
section
/-! DEFINITION. The object dictionary: its master table (R496 and the tables of R84, R339, R380, R402, R454, R463, R467), requester
classes and rights (R491, R492), and the value that a read of each sub-index returns. -/

namespace Sys2Proof.Machine

/-! ### The master table (R485, R496) -/

/-- Sub-indices `lo` to `hi` of an index: TYPE and ACCESS of R484, and the largest length. -/
structure ObjRow where
  index : Nat
  lo : Nat
  hi : Nat
  type : Nat
  access : Nat
  len : Nat
  deriving DecidableEq, Repr

/-- Width of a numeric type (R484, R485). -/
def typeWidth (t : Nat) : Nat := if t ≤ 2 then 1 else if t = 3 then 2 else if t = 5 || t = 7 then 8 else 4

/-- Rows of numeric type `t`. -/
def numRow (index lo hi t access : Nat) : ObjRow := ⟨index, lo, hi, t, access, typeWidth t⟩

/-- 0x1000 to 0x1F00. -/
def objTable1 : List ObjRow :=
  [numRow 0x1000 0 0 3 1, numRow 0x1001 0 0 2 2, ⟨0x1008, 0, 0, 9, 1, 64⟩, numRow 0x1009 0 0 3 1, numRow 0x100A 0 0 4 2,
   numRow 0x1018 1 4 3 1, numRow 0x1018 5 5 2 1, ⟨0x1018, 6, 6, 10, 1, 16⟩, ⟨0x1018, 7, 7, 9, 1, 64⟩, numRow 0x1018 8 8 3 1,
   numRow 0x1020 0 0 2 1, numRow 0x1021 0 0 3 1,
   numRow 0x1F00 1 1 2 2, numRow 0x1F00 2 2 4 4, ⟨0x1F00, 3, 3, 10, 2, 32⟩, numRow 0x1F00 4 5 2 2]

/-- 0x2000 to 0x2040, and 0x3050 (R339). -/
def objTable2 : List ObjRow :=
  [numRow 0x2000 0 0 4 3, numRow 0x2001 1 2 4 3, numRow 0x2002 0 0 2 3, numRow 0x2003 0 0 2 2, numRow 0x2010 1 16 4 3,
   ⟨0x2011, 1, 16, 11, 2, 40⟩, ⟨0x2020, 1, 16, 11, 2, 32⟩, numRow 0x2030 0 2 3 2, numRow 0x2030 0x10 0x1F 3 5, numRow 0x2040 0 0 1 3,
   numRow 0x3050 1 1 4 3, numRow 0x3050 2 2 1 3, numRow 0x3050 3 3 4 2, numRow 0x3050 4 4 1 2, numRow 0x3050 5 5 4 2]

/-- 0x3000 to 0x3040 (R380, R402). -/
def objTable3 : List ObjRow :=
  [numRow 0x3000 0 0 3 5, numRow 0x3001 0 1 3 5, numRow 0x3002 1 1 4 2, ⟨0x3002, 2, 2, 11, 2, 8192⟩, numRow 0x3002 3 3 4 3,
   ⟨0x3002, 4, 4, 11, 3, 8192⟩, numRow 0x3002 5 5 4 3, ⟨0x3002, 6, 6, 11, 2, 8192⟩, numRow 0x3010 1 16 4 3, ⟨0x3010, 0x11, 0x20, 11, 2, 88⟩,
   ⟨0x3020, 1, 1, 11, 5, 65536⟩, ⟨0x3020, 2, 2, 11, 3, 65536⟩, numRow 0x3030 0 0 4 3,
   numRow 0x3040 1 1 2 5, numRow 0x3040 2 2 3 5, numRow 0x3040 3 3 1 3, numRow 0x3040 4 4 2 2, numRow 0x3040 5 5 4 2, numRow 0x3040 6 8 2 4,
   ⟨0x3040, 9, 9, 11, 2, 48⟩, numRow 0x3040 0x10 0x1F 2 3]

/-- 0x4000 to 0x4030 (R454). -/
def objTable4 : List ObjRow :=
  [numRow 0x4000 0 0 2 2, numRow 0x4001 1 1 2 2, numRow 0x4001 2 2 4 4, numRow 0x4001 3 3 2 2, ⟨0x4010, 0, 0, 10, 2, 32⟩,
   ⟨0x4011, 0, 0, 11, 2, 16384⟩, ⟨0x4020, 1, 1, 10, 4, 40⟩, numRow 0x4020 2 2 2 2, ⟨0x4020, 3, 3, 11, 2, 17408⟩,
   numRow 0x4030 1 16 2 3, ⟨0x4030, 0x11, 0x20, 10, 3, 32⟩, numRow 0x4030 0x21 0x30 4 2]

/-- 0x5000 to 0x5300 (R39, R84, R496). -/
def objTable5 : List ObjRow :=
  [numRow 0x5000 0 0 2 2, ⟨0x5000, 1, 16, 10, 5, 64⟩, numRow 0x5000 0x21 0x30 2 4, numRow 0x5000 0x41 0x50 2 2,
   numRow 0x5010 0 0 3 2, ⟨0x5010, 1, 1, 11, 2, 16384⟩, numRow 0x5010 2 2 2 3, numRow 0x5010 3 3 5 4,
   numRow 0x5100 0 0 2 1, numRow 0x5100 1 0x60 4 1, numRow 0x5200 1 16 1 5, numRow 0x5300 1 16 3 1]

/-- 0x6000 to 0x7020 (R463, R467, R496). -/
def objTable6 : List ObjRow :=
  [⟨0x6000, 1, 1, 11, 2, 131072⟩, numRow 0x6000 2 3 4 2, ⟨0x6000, 0x10, 0x1F, 11, 2, 32768⟩, ⟨0x6001, 1, 16, 11, 2, 256⟩,
   numRow 0x6010 1 4 2 3, numRow 0x6100 1 1 2 2, numRow 0x6100 2 2 3 2, numRow 0x6100 3 3 2 2, numRow 0x6100 4 6 2 4,
   numRow 0x6100 0x10 0x1F 3 2, numRow 0x6100 0x20 0x2F 4 2,
   numRow 0x7000 1 1 2 4, numRow 0x7000 2 2 4 3, numRow 0x7000 3 3 2 2, ⟨0x7001, 1, 1, 11, 2, 524288⟩, numRow 0x7001 2 2 4 2,
   ⟨0x7010, 1, 1, 11, 4, 1048656⟩, ⟨0x7010, 2, 2, 11, 2, 1048656⟩, numRow 0x7010 3 3 2 2, numRow 0x7020 1 16 3 2]

/-- The dictionary (R496). -/
def objTable : List ObjRow := objTable1 ++ objTable2 ++ objTable3 ++ objTable4 ++ objTable5 ++ objTable6

/-- The row of a sub-index. -/
def objOf (i k : Nat) : Option ObjRow := objTable.find? fun o => o.index == i && decide (o.lo ≤ k ∧ k ≤ o.hi)

/-- An index is present. -/
def hasIndex (i : Nat) : Bool := objTable.any fun o => o.index == i

/-! ### Requester classes (R491) -/

/-- A requester class; a VF carries the partition that its function owns. -/
inductive Cls where
  | host | vf (p : PartIx) | bmc | fm | twin | none
  deriving DecidableEq, Repr

/-- The class of a function's request (R384, R491). -/
def clsOfFn (s : State) (port : HostId) (fn : Nat) : Cls :=
  if fn = 0 then .host
  else match (ownedBy s none fun h f => h == port && f == fn).head? with
    | some p => .vf p
    | none => .none

/-- The fabric manager's part, while VALID (R491). -/
def isManager (s : State) (src : Nat) : Bool := bitOf s.dict.fabricManager 15 && bitsOf s.dict.fabricManager 0 14 == src

/-- The partition whose slot a gateway names for a function of one of its ports (R383, R397, R493). -/
def benchPart (s : State) (gateway slot : Nat) (origin : Option (HostId × Nat)) : Option PartIx :=
  allParts.find? fun p => let t := partOfIx s p
    t.state != .free && t.memberSlot == slot && t.ownerPart == gateway && origin == some (t.ownerPort, t.ownerFn)

/-- The class of a request that this part serves itself; `none` where MEMBER names no partition of its requester (R491, R493). -/
def clsOf (s : State) (via : Via) (member : Nat) : Option Cls :=
  match via with
  | .pcie port fn => if member = 0 then some (clsOfFn s port fn) else none
  | .smbus => if member = 0 then some .bmc else none
  | .fabric port src _ origin =>
    if member ≠ 0 then (benchPart s src member origin).map fun p => if (partOfIx s p).ownerFn = 0 then .host else .vf p
    else if s.twin.port = port.val && s.twin.partner = src then some .twin
    else if isManager s src then some .fm
    else some .none

/-- The report buffer of a requester (R424): its function, the BMC, the fabric manager, or a gateway's function. -/
def whoOf (s : State) (via : Via) (member : Nat) : Nat :=
  match via with
  | .pcie port fn => 32 * hostIx port + fn
  | .smbus => 64
  | .fabric _ src _ origin => if member = 0 then 65 else match benchPart s src member origin with
    | some p => 66 + p.val
    | none => 65

/-! ### Rights (R492) -/

/-- The partition that a sub-index concerns. -/
def subPart (i k : Nat) : Option Nat :=
  if i = 0x2010 || i = 0x2020 || i = 0x5200 then (if 1 ≤ k ∧ k ≤ 16 then some (k - 1) else none)
  else if i = 0x2030 || i = 0x6000 then (if 0x10 ≤ k ∧ k ≤ 0x1F then some (k - 0x10) else none)
  else if i = 0x6100 then (if 0x10 ≤ k ∧ k ≤ 0x2F then some (k % 16) else none)
  else if i = 0x5000 then (if 1 ≤ k ∧ k ≤ 0x50 then some ((k - 1) % 32) else none)
  else none

/-- A VF's right to read. -/
def vfMayRead (p : PartIx) (i k : Nat) : Bool :=
  let own := subPart i k == some p.val
  match i / 0x1000 with
  | 1 => true
  | 2 => own
  | 3 => decide (i ≤ 0x3002)
  | 4 => decide (i ≤ 0x4020)
  | 5 => own || (i == 0x5010 && k != 2) || i == 0x5100 || i == 0x5300
  | 6 => own
  | _ => false

/-- A VF's right to write. -/
def vfMayWrite (p : PartIx) (i k : Nat) : Bool :=
  let own := subPart i k == some p.val
  (own && (i == 0x2010 || i == 0x2030)) || (i == 0x4020 && k == 1) || (own && i == 0x5000 && decide (0x21 ≤ k ∧ k ≤ 0x30)) ||
    (i == 0x6100 && (k == 4 || k == 5))

/-- The right of a class to read a sub-index. -/
def mayRead (c : Cls) (i k : Nat) : Bool :=
  match c with
  | .host => true
  | .vf p => vfMayRead p i k
  | .bmc => i / 0x1000 != 5 || i == 0x5000 || i == 0x5300
  | .fm => decide (i < 0x2000) || decide (0x3000 ≤ i ∧ i < 0x5000) || (i == 0x5000 && k == 0) || i == 0x5300 ||
      (i == 0x6100 && decide (1 ≤ k ∧ k ≤ 3))
  | .twin => decide (i < 0x2000) || i == 0x3040
  | .none => decide (i ≤ 0x1021)

/-- The FM sub-indices of R380. -/
def fmWrites (i k : Nat) : Bool := i == 0x3000 || (i == 0x3001 && k == 0) || i == 0x3002 || i == 0x3020

/-- The right of a class to write a sub-index. -/
def mayWrite (c : Cls) (i k : Nat) : Bool :=
  match c with
  | .host =>
    match i / 0x1000 with
    | 1 => i == 0x1F00 && k == 2
    | 3 => (i == 0x3001 && k == 1) || i == 0x3010 || i == 0x3030 || i == 0x3040 || i == 0x3050
    | _ => true
  | .vf p => vfMayWrite p i k
  | .bmc => decide (0x2000 ≤ i ∧ i ≤ 0x2002) || (i == 0x3001 && k == 1) || (i == 0x4020 && k == 1) || i == 0x6010 || (i == 0x6100 && k == 6) ||
      i / 0x1000 == 7
  | .fm => fmWrites i k || i == 0x3040 || i == 0x4030 || (i == 0x4020 && k == 1)
  | .twin => false
  | .none => false

/-! ### Values (R84, R339, R380, R402, R454, R463, R467, R468, R496) -/

/-- A BOOL. -/
def boolByte (b : Bool) : List Byte := leBytes 1 (b2n b)

/-- U16 values in a row. -/
def u16List (l : List Nat) : List Byte := l.flatMap (leBytes 2)
/-- U64 values in a row. -/
def u64List (l : List Nat) : List Byte := l.flatMap (leBytes 8)

/-- The part number of R5. -/
def partNumber : Grade → List Byte
  | .f => ascii "ZS-GH64-F"
  | .e => ascii "ZS-GH64-E"
  | .h => ascii "ZS-GH64-H"

/-- 0x1000 to 0x1F00. -/
def read1 (s : State) (i k : Nat) : List Byte :=
  if i = 0x1000 then leBytes 2 0x6440
  else if i = 0x1001 then leBytes 1 (b2n s.alarm.device + 2 * s.log.errBits.toNat)
  else if i = 0x1008 then ascii "Ghele GH64"
  else if i = 0x1009 then leBytes 2 s.fuses.stepping
  else if i = 0x100A then leBytes 4 s.boot.fwVersion
  else if i = 0x1018 then
    if k ≤ 4 then leBytes 2 (s.fuses.pciIds.getD (k - 1) 0)
    else if k = 5 then leBytes 1 (s.fuses.pciIds.getD 4 0)
    else if k = 6 then bytesAt s.fuses.uniqueId 0 16
    else if k = 7 then partNumber s.fuses.grade
    else leBytes 2 1
  else if i = 0x1020 then leBytes 1 (gradeCode s.fuses.grade)
  else if i = 0x1021 then leBytes 2 s.fuses.activeMask.toNat
  else if k = 1 then leBytes 1 s.boot.fwState
  else if k = 3 then s.boot.imageDigest
  else if k = 4 then leBytes 1 s.boot.failedCheck
  else leBytes 1 s.boot.goPort

/-- Tokens that all partitions hold (R339). -/
def allHeld (s : State) : Nat := (allParts.map (heldTokens s)).sum

/-- Die or port `n` of a sub-index. -/
def ixOf (n : Nat) : DieIx := dieBits n

/-- 0x2000 to 0x2040. -/
def read2 (s : State) (i k : Nat) : List Byte :=
  let h := s.hearth
  if i = 0x2000 then leBytes 4 h.sustained
  else if i = 0x2001 then leBytes 4 (if k = 1 then h.short else h.duration)
  else if i = 0x2002 then leBytes 1 h.thermalLimit
  else if i = 0x2003 then leBytes 1 2
  else if i = 0x2010 then leBytes 4 (partOfIx s (ixOf (k - 1))).tolerance
  else if i = 0x2011 then u64List (dieOf s (ixOf (k - 1))).residency
  else if i = 0x2020 then u64List ((partOfIx s (ixOf (k - 1))).energy.map (· / 1000000))
  else if i = 0x2030 then
    if k = 0 then leBytes 2 (ofSigned 16 (tokenPool s))
    else if k = 1 then leBytes 2 (ofSigned 16 (freeTokens s))
    else if k = 2 then leBytes 2 (allHeld s)
    else leBytes 2 (partOfIx s (ixOf k)).reserve
  else boolByte h.pace

/-- A routing table as bytes (R354). -/
def routeBytes (t : Tbl Nat) : List Byte := (List.range 16384).flatMap fun d => leBytes 4 (tblGetD t d 0)

/-- A port's 0x3010 word (R380). -/
def portWord (s : State) (n : PortIx) : Nat :=
  let p := portOf s n
  portStateCode p.state + 4 * b2n p.enabled + p.weights.getD 0 0 * 2 ^ 8 + p.weights.getD 1 0 * 2 ^ 12 + p.weights.getD 2 0 * 2 ^ 16 +
    b2n (s.twin.port == n.val) * 2 ^ 20

/-- A port's counters (R357, R361, R380): retries, DOWN entries, eight discard reasons, hold refusals. -/
def portCounters (p : Port) : List Byte :=
  u64List ([p.retryCount, p.downCount] ++ (List.range 8).map (fun r => tblGetD p.discards r 0) ++ [p.holdRefusals])

/-- STATE of the twin (R402). -/
def twinCode : TwinState → Nat
  | .unpaired => 0
  | .pairing => 1
  | .paired => 2
  | .lost => 3

/-- ROLE (R402). -/
def roleCode : TwinRole → Nat
  | .none => 0
  | .active => 1
  | .standby => 2

/-- 0x3040 (R402). -/
def readTwin (s : State) (k : Nat) : List Byte :=
  let t := s.twin
  if k = 1 then leBytes 1 t.port
  else if k = 2 then leBytes 2 t.partner
  else if k = 3 then boolByte t.armed
  else if k = 4 then leBytes 1 (twinCode t.state)
  else if k = 5 then leBytes 4 t.pairGen
  else if k = 9 then u64List [t.received, t.discarded, t.misses, t.ties, t.fillCopied, t.fillTotal]
  else leBytes 1 (roleCode (partOfIx s (ixOf k)).role)

/-- 0x3000 to 0x3050. -/
def read3 (s : State) (i k : Nat) : List Byte :=
  let f := s.fabric
  let h := s.hearth
  if i = 0x3000 then leBytes 2 (f.partId + 0x8000 * b2n f.valid)
  else if i = 0x3001 then leBytes 2 (if k = 0 then f.domain else s.dict.fabricManager)
  else if i = 0x3002 then
    if k = 1 then leBytes 4 f.epoch
    else if k = 2 then u16List f.members
    else if k = 3 then leBytes 4 f.pendEpoch
    else if k = 4 then u16List f.pendMembers
    else if k = 5 then leBytes 4 f.switchAt
    else u16List f.losses
  else if i = 0x3010 then (if k ≤ 16 then leBytes 4 (portWord s (ixOf (k - 1))) else portCounters (portOf s (ixOf (k - 17))))
  else if i = 0x3020 then routeBytes (if k = 1 then f.routes else f.pendRoutes)
  else if i = 0x3030 then leBytes 4 f.collTimeout
  else if i = 0x3040 then readTwin s k
  else if k = 1 then leBytes 4 h.period
  else if k = 2 then boolByte h.syncIn
  else if k = 3 then leBytes 4 h.ignored
  else if k = 4 then boolByte h.freeRun
  else leBytes 4 h.boundaries

/-- Security state (R454). -/
def secCode : SecState → Nat
  | .boot => 0
  | .operational => 1
  | .quenched => 2
  | .test => 3

/-- STATE of link encryption (R454). -/
def keyCode : KeyState → Nat
  | .off => 0
  | .keying => 1
  | .on => 2
  | .failed => 3

/-- A requester's report buffer (R424). -/
def reportOfWho (s : State) (w : Nat) : Option Report := s.sec.reports.find? (·.who == w)

/-- 0x4000 to 0x4030. -/
def read4 (s : State) (w i k : Nat) : List Byte :=
  if i = 0x4000 then leBytes 1 (secCode s.sec.state)
  else if i = 0x4001 then leBytes 1 (if k = 1 then rollbackCount s.fuses.rollback else s.fuses.revoked.toNat)
  else if i = 0x4010 then s.sec.identPk
  else if i = 0x4011 then s.fuses.certChain
  else if i = 0x4020 then
    match reportOfWho s w with
    | none => if k = 2 then [0] else []
    | some r => if k = 2 then leBytes 1 (if r.ready then 2 else 1) else r.bytes
  else if k ≤ 16 then let p := portOf s (ixOf (k - 1)); leBytes 1 (b2n p.encEnable + 2 * keyCode p.keyState)
  else if k ≤ 0x20 then (portOf s (ixOf (k - 17))).peerHash
  else leBytes 4 (portOf s (ixOf (k - 33))).keyNumber

/-- STATE of a partition (R496). -/
def pstateCode : PState → Nat
  | .free => 0
  | .stopped => 1
  | .running => 2
  | .changing => 3

/-- STATE of a key set (R86). -/
def ksCode : KsState → Nat
  | .free => 0
  | .importing => 1
  | .resident => 2
  | .damaged => 3
  | .refetching => 4
  | .evicting => 5

/-- A directory entry (R85). -/
def dirEntry (slot : Nat) (k : KeySet) : List Byte :=
  let b := leBytes 8 k.tag ++ leBytes 2 k.paramSet ++ leBytes 1 slot ++ leBytes 1 (ksCode k.state + 16 * b2n k.mirrored) ++
    leBytes 2 k.homeMask.toNat ++ leBytes 1 k.scheme ++ leBytes 1 k.logN ++ leBytes 1 k.chainId ++ leBytes 1 k.lastReason ++
    leBytes 2 k.keys.length ++ leBytes 4 k.totalRows ++ leBytes 8 k.useCount ++ leBytes 4 k.lastUse ++ leBytes 2 k.damageCount ++
    List.replicate 22 0
  b ++ leBytes 4 (crc32c b).toNat

/-- The partition whose directory a requester sees (R84). -/
def dirPart (s : State) (c : Cls) : PartIx :=
  match c with
  | .vf p => p
  | _ => dieBits s.dict.selector

/-- 0x5000 to 0x5300. -/
def read5 (s : State) (c : Cls) (i k : Nat) : List Byte :=
  if i = 0x5000 then
    if k = 0 then leBytes 1 (allParts.filter fun p => (partOfIx s p).state != .free).length
    else if k ≤ 16 then (partOfIx s (ixOf (k - 1))).entry
    else leBytes 1 (pstateCode (partOfIx s (ixOf (k - 0x41))).state)
  else if i = 0x5010 then
    if k = 0 then leBytes 2 (liveSets (partOfIx s (dirPart s c)))
    else if k = 1 then (List.range 256).flatMap fun n => dirEntry n (ksOf s (dirPart s c) n)
    else leBytes 1 (dirPart s c).val
  else if i = 0x5100 then (if k = 0 then leBytes 1 96 else leBytes 4 (primeEntry (k - 1) (s.fuses.primes.getD (k - 1) 0)))
  else if i = 0x5200 then boolByte (partOfIx s (ixOf (k - 1))).reproducible
  else leBytes 2 (enginePresence s (ixOf (k - 1)))

/-- Source of the device quench (R463). -/
def sourceCode : QuenchSource → Nat
  | .internal => 0
  | .external => 1
  | .command => 2

/-- An entry of 0x7001 (R500). -/
def resultEntry (e : Nat × Nat × Nat) : List Byte := leBytes 1 e.1 ++ leBytes 1 e.2.1 ++ [0, 0] ++ leBytes 4 e.2.2

/-- 0x6000 to 0x7020. -/
def read6 (s : State) (i k : Nat) : List Byte :=
  if i = 0x6000 then
    if k = 1 then s.log.entries.flatten
    else if k = 2 then leBytes 4 s.log.seq
    else if k = 3 then leBytes 4 s.log.overwritten
    else (partOfIx s (ixOf k)).log.flatten
  else if i = 0x6001 then u64List ((List.range 32).map fun n => tblGetD (dieOf s (ixOf (k - 1))).counters n 0)
  else if i = 0x6010 then leBytes 1 (s.dict.masks.getD (k - 1) 0).toNat
  else if i = 0x6100 then
    if k = 1 then leBytes 1 (b2n s.alarm.device)
    else if k = 2 then leBytes 2 s.alarm.event.toNat
    else if k = 3 then leBytes 1 (sourceCode s.alarm.source)
    else if k ≤ 0x1F then leBytes 2 (partOfIx s (ixOf k)).quenchEvent
    else leBytes 4 (partOfIx s (ixOf k)).quenchCount
  else if i = 0x7000 then (if k = 2 then leBytes 4 s.bist.grace else leBytes 1 s.bist.phase)
  else if i = 0x7001 then
    if k = 1 then (s.bist.results.take 65536).flatMap resultEntry else leBytes 4 (Nat.min s.bist.results.length 65536)
  else if i = 0x7010 then (if k = 2 then s.bist.recordOut else leBytes 1 s.bist.status)
  else leBytes 2 (s.fuses.repairBudget.getD (k - 1) 0)

/-- The value of a sub-index, as a requester of a class with a report buffer sees it. -/
def readValue (s : State) (c : Cls) (w i k : Nat) : List Byte :=
  match i / 0x1000 with
  | 1 => read1 s i k
  | 2 => read2 s i k
  | 3 => read3 s i k
  | 4 => read4 s w i k
  | 5 => read5 s c i k
  | _ => read6 s i k

/-- What a read does beside answering: 0x1001 clears bits 4:1, and reading the device log marks its entries read (R467, R496). -/
def readEffect (i k : Nat) (s : State) : State :=
  if i = 0x1001 then { s with log := { s.log with errBits := 0 } }
  else if i = 0x6000 && k == 1 then { s with log := { s.log with readSeq := s.log.seq } }
  else s

end Sys2Proof.Machine
end

