-- ==== Sys2Proof/Machine/PartCommands.lean ====
section
/-! DEFINITION. Partition commands (R498): the checks of an entry (R383, R397, R497), the assignment and clearing of dies (R111, R186,
R197, R224, R250), cold stop, and the end of a command. -/

namespace Sys2Proof.Machine

/-- A die as its assignment and a cold stop clear it (R111, R186, R197, R224, R250, R254, R431). -/
def clearDie (x : Die) : Die :=
  { x with
    scratch := [], bufs := List.replicate 8 [], bufSecret := [], handles := [], storeHandles := [], scoreboard := [], rings := [], descs := []
    tiles := [], tilePoison := [], cache := [], cachePoison := [], palette := [], palettePoison := [], codeBytes := 0, drbgOn := false }

/-- A queue at partition creation: line 0 and sequence number 1 (R280). -/
def freshQueue (x : Queue) : Queue := { x with pos := 0, seq := 1, stopped := false, quenched := false, line := [], hold := none }

/-- A die that CREATE assigns: cleared, its stack rows zeroed, its flags clear, its queues at line 0 (R250, R280, R301, R498). -/
def assignDie (p : PartIx) (x : Die) : Die :=
  { clearDie x with owner := some p, store := [], flags := [], queues := x.queues.map freshQueue }

/-- The dies that an entry names. -/
def namedDies (t : Partition) : List DieIx := allDies.filter t.hasDie

/-- Three shares sum to 16. -/
def sum16 (a b c : Nat) : Bool := a + b + c == 16

/-- The shares of an entry (R99, R241, R497, R498). -/
def sharesOk (e : List Byte) : Bool :=
  let n (o lo : Nat) : Nat := bitsOf (fieldAt e o 1) lo 4
  sum16 (n 8 0) (n 8 4) (n 9 0) && sum16 (n 9 4) (n 0xA 0) (n 0xA 4) && sum16 (n 0xB 0) (n 0xB 4) (n 0xC 0) &&
    decide (1 ≤ n 0xB 0 ∧ 1 ≤ n 0xB 4 ∧ 1 ≤ n 0xC 0)

/-- Reserved fields of an entry are zero (R9, R497). -/
def entryReservedOk (e : List Byte) : Bool :=
  decide (fieldAt e 2 2 < 2 ^ 14 ∧ fieldAt e 4 1 < 2 ∧ fieldAt e 5 1 < 2 ^ 5 ∧ fieldAt e 6 1 < 2 ^ 6 ∧ fieldAt e 0xC 1 < 2 ^ 4) &&
    fieldAt e 7 1 == 0 && fieldAt e 0xD 1 == 0 && zeroRange e 0x10 0x40

/-- Two partitions have one owning function (R383). -/
def sameOwner (a b : Partition) : Bool :=
  a.ownerPort == b.ownerPort && a.ownerFn == b.ownerFn && (a.memberSlot == 0) == (b.memberSlot == 0) &&
    (a.memberSlot == 0 || a.ownerPart == b.ownerPart)

/-- The owner that an entry names is sound: an enabled function that owns no other partition of this part, and a gateway that is with this
part in the current epoch (R383, R397, R498). -/
def ownerOk (s : State) (p : PartIx) : Bool :=
  let t := partOfIx s p
  (if t.memberSlot = 0 then decide (t.ownerFn ≤ (hostOf s t.ownerPort).functions)
   else decide (t.ownerFn ≤ 16) && s.fabric.valid && t.ownerPart != s.fabric.partId && s.fabric.members.contains t.ownerPart &&
     s.fabric.members.contains s.fabric.partId) &&
  allParts.all fun q => q == p || (partOfIx s q).state == .free || !(sameOwner (partOfIx s q) t)

/-- The registration of a member partition at its gateway (R397). -/
def registrationOf (s : State) (p : PartIx) : MemberReg :=
  let t := partOfIx s p
  { part := s.fabric.partId, port := t.ownerPort, fn := t.ownerFn, slot := t.memberSlot }

/-- Register a member partition with its gateway by a MGMT record (R397). -/
def registerMember (p : PartIx) (s : State) : State :=
  match gatewayOf s p with
  | none => s
  | some (gw, reg) => sendMsg .mgmt ((namedDies (partOfIx s p)).headD 0) gw 0 (fun v => .registration v reg) s

/-- A partition command begins (R498). -/
def beginCommand (p : PartIx) (c : PCmd) (s : State) : State := updPart p (fun x => { x with state := .changing, command := some c }) s

/-- CREATE (R498): 5 is RANGE, 7 is STATE; `slotHeld` says that the gateway's slot is already held (R397). -/
def startCreate (p : PartIx) (slotHeld : Bool) (s : State) : Except Nat State :=
  let t := partOfIx s p
  let ds := namedDies t
  if t.state != .free then .error 7
  else if ds.isEmpty || !(ds.all (dieActive s)) || !(sharesOk t.entry) || !(ownerOk s p) then .error 5
  else if ds.any (fun d => (dieOf s d).owner.isSome) || (t.memberSlot != 0 && slotHeld) then .error 7
  else .ok (registerMember p (beginCommand p .create (ds.foldl (fun s d => updDie d (assignDie p) s) s)))

/-- START (R498): the entry is checked again. -/
def startStart (p : PartIx) (s : State) : Except Nat State :=
  let t := partOfIx s p
  if t.state != .stopped then .error 7
  else if !(sharesOk t.entry) || !(ownerOk s p) then .error 5
  else .ok (beginCommand p .start s)

/-- STOP (R498): a partition quench with event 0x0000. -/
def startStop (p : PartIx) (s : State) : Except Nat State :=
  if (partOfIx s p).state != .running then .error 7 else .ok (beginCommand p .stop (quenchPartition p 0 false s))

/-- The dies whose store handles an aperture register names (R391). -/
def clearApertures (ds : List DieIx) (h : HostPort) : HostPort :=
  { h with apertures := h.apertures.map fun e => if bitOf e.2 31 && ds.contains (dieBits e.2) then (e.1, e.2 - 2 ^ 31) else e }

/-- What a cold stop releases and clears (R76, R91, R391, R431, R498): key sets, tables, windows, apertures, secrets. -/
def coldClear (p : PartIx) (s : State) : State :=
  let ds := ownedDies s p
  let s := closeAll ((s.fabric.windows.filter fun w => w.2.opened && w.2.part == p.val).map (·.1)) s
  let s := zeroPartSecrets p s
  let s := { s with hostA := clearApertures ds s.hostA, hostB := clearApertures ds s.hostB }
  let s := updTwin (fun t => { t with mirrors := t.mirrors.filter (·.part != p), refetches := t.refetches.filter (·.1 != p) }) s
  let s := ds.foldl (fun s d => updDie d clearDie s) s
  updPart p (fun x => { x with chains := [], tempers := [], sessions := [], programs := [], keysets := [], imports := [], importKey := none }) s

/-- COLD_STOP (R498). -/
def startColdStop (p : PartIx) (s : State) : Except Nat State :=
  match (partOfIx s p).state with
  | .running => .ok (beginCommand p .coldStop (coldClear p (quenchPartition p 0 false s)))
  | .stopped => .ok (beginCommand p .coldStop (coldClear p s))
  | _ => .error 7

/-- DESTROY (R498): the dies are released when the command ends. -/
def startDestroy (p : PartIx) (s : State) : Except Nat State :=
  if (partOfIx s p).state != .stopped then .error 7 else .ok (beginCommand p .destroy (coldClear p s))

/-- A partition command (R498): a VF may give START, STOP and COLD_STOP; none before the part is ready (R517). -/
def partCommand (p : PartIx) (n : Nat) (c : Cls) (slotHeld : Bool) (s : State) : Except Nat State :=
  if n = 0 || 5 < n then .error 5
  else if c != .host && (n == 1 || n == 5) then .error 3
  else if s.boot.phase != .ready then .error 7
  else match n with
    | 1 => startCreate p slotHeld s
    | 2 => startStart p s
    | 3 => startStop p s
    | 4 => startColdStop p s
    | _ => startDestroy p s

/-- The dies of a destroyed partition are released. -/
def releaseDies (p : PartIx) (s : State) : State :=
  (ownedDies s p).foldl (fun s d => updDie d (fun x => { x with owner := none }) s) s

/-- A command ends in a state. -/
def endCommand (p : PartIx) (st : PState) (s : State) : State := updPart p (fun x => { x with state := st, command := none }) s

/-- PARTITION_COMMAND_COMPLETE (R498): after START the packets that waited are acted on (R389); a command that quenched ends after its
quench. -/
def execPartitionCommandComplete (p : PartIx) (s : State) : Result :=
  ok (if s.alarm.device || (partOfIx s p).quenching.isSome then s
    else match (partOfIx s p).command with
      | none => s
      | some .create => endCommand p .stopped s
      | some .start => settleDies (ownedDies s p) (endCommand p .running s)
      | some .stop => endCommand p .stopped s
      | some .coldStop => endCommand p .stopped s
      | some .destroy => endCommand p .free (releaseDies p s))

end Sys2Proof.Machine
end

