-- ==== Sys2Proof/Machine/DictWrites.lean ====
section
/-! DEFINITION. Writes of the object dictionary: what each writable sub-index accepts and does (R320, R339, R353, R354, R359, R380, R402,
R415, R420, R423 to R427, R433, R454, R463, R471, R489, R496). Refusals are statuses of R486: 3 DENIED, 5 RANGE, 7 STATE. -/

namespace Sys2Proof.Machine

/-- What a command brings beside its request: what the gateway answers to a registration (R397), what the partner holds (R407), the
fuse bits that a burn reaches (R420). -/
structure Extra where
  slotHeld : Bool
  partnerStandby : Bool
  partnerDies : BitVec 16
  burned : W64
  revoked : BitVec 4
  deriving DecidableEq, Repr

/-- The least that a plain WRITE brings: a free slot, an unknown partner, whole burns. -/
def Extra.plain : Extra := { slotHeld := false, partnerStandby := false, partnerDies := 0, burned := BitVec.allOnes 64, revoked := BitVec.allOnes 4 }

/-- Accept a write where a condition holds, else refuse it with RANGE. -/
def inRange (c : Bool) (s : State) : Except Nat State := if c then .ok s else .error 5

/-- The device is stopped: no partition is RUNNING or CHANGING (R486). -/
def deviceStopped (s : State) : Bool := allParts.all fun p => (partOfIx s p).state != .running && (partOfIx s p).state != .changing

/-- A partition is stopped. -/
def partStopped (s : State) (p : PartIx) : Bool := (partOfIx s p).state == .free || (partOfIx s p).state == .stopped

/-- A value in range is taken only while a condition holds, else STATE. -/
def whenStopped (range stopped : Bool) (s : State) : Except Nat State := if !range then .error 5 else if stopped then .ok s else .error 7

/-! ### Power (R320, R339) -/

/-- The sum of the other partitions' reserves. -/
def otherReserves (s : State) (p : PartIx) : Nat := ((allParts.filter (· != p)).map fun q => (partOfIx s q).reserve).sum

/-- 0x2000 to 0x2040; the caps take effect at the next governor interval (R316). -/
def write2 (i k v : Nat) (s : State) : Except Nat State :=
  let g := hearthZero s.fuses.grade
  if i = 0x2000 then
    inRange (decide (staticReserve s.fuses.grade + 64 ≤ v ∧ v ≤ g.sustained)) (updHearth (fun h => { h with sustained := v }) s)
  else if i = 0x2001 && k == 1 then inRange (decide (s.hearth.sustained ≤ v ∧ v ≤ g.short)) (updHearth (fun h => { h with short := v }) s)
  else if i = 0x2001 then inRange (decide (v ≤ 2000)) (updHearth (fun h => { h with duration := v }) s)
  else if i = 0x2002 then inRange (decide (70 ≤ v ∧ v ≤ 110)) (updHearth (fun h => { h with thermalLimit := v }) s)
  else if i = 0x2010 then inRange (decide (v ≤ 10000000)) (updPart (ixOf (k - 1)) (fun x => { x with tolerance := v }) s)
  else if i = 0x2030 then
    let p := ixOf k
    whenStopped (decide ((v : Int) ≤ tokenPool s ∧ ((v + otherReserves s p : Nat) : Int) ≤ tokenPool s)) (partStopped s p)
      (updPart p (fun x => { x with reserve := v }) s)
  else inRange (decide (v ≤ 1)) (updHearth (fun h => { h with pace := v == 1 }) s)

/-! ### Fabric and twin (R353, R354, R359, R380, R402) -/

/-- Change the fabric state. -/
def updFabric (f : Fabric → Fabric) (s : State) : State := { s with fabric := f s.fabric }

/-- 0x3002 (R359): the pending epoch and SWITCH_AT. -/
def writeEpoch (k v : Nat) (s : State) : Except Nat State :=
  if s.fabric.retained.isSome then .error 7
  else if k = 3 then inRange (v == s.fabric.epoch + 1) (updFabric (fun f => { f with pendEpoch := v }) s)
  else inRange (decide (s.hearth.boundaries + 2 ≤ v)) (updFabric (fun f => { f with switchAt := v }) s)

/-- 0x3010 (R380): ENABLE and the weights; STATE and TWIN are read only. A disabled die's port is absent (R34, log 99). -/
def writePort (n : PortIx) (v : Nat) (s : State) : Except Nat State :=
  inRange (dieActive s n && bitsOf v 3 5 == 0 && bitsOf v 21 11 == 0)
    (updPort n (fun p => { p with enabled := bitOf v 2, weights := [bitsOf v 8 4, bitsOf v 12 4, bitsOf v 16 4] }) s)

/-- A partition of the twin commands; above 15 is RANGE. -/
def onPart (v : Nat) (f : PartIx → Except Nat State) : Except Nat State := if v < 16 then f (ixOf v) else .error 5

/-- 0x3040 (R402 to R412). -/
def writeTwin (x : Extra) (k v : Nat) (s : State) : Except Nat State :=
  if k = 1 then whenStopped (v == 0xFF || (decide (v < 16) && dieActive s (ixOf v))) (deviceStopped s) (updTwin (fun t => { t with port := v }) s)
  else if k = 2 then whenStopped (decide (v < 2 ^ 14)) (deviceStopped s) (updTwin (fun t => { t with partner := v }) s)
  else if k = 3 then inRange (decide (v ≤ 1)) (updTwin (fun t => { t with armed := v == 1 }) s)
  else if k = 6 then (if v = 1 then startPair s else if v = 2 then startDetach s else .error 5)
  else if k = 7 then onPart v fun p => startFill p x.partnerStandby x.partnerDies s
  else if k = 8 then onPart v fun p => startPromote p s
  else
    let p := ixOf k
    let r : TwinRole := if v = 0 then .none else if v = 1 then .active else .standby
    whenStopped (decide (v ≤ 2)) (partStopped s p) (updPart p (fun t => { t with role := r }) s)

/-- 0x3000 to 0x3050. -/
def write3 (x : Extra) (i k v : Nat) (s : State) : Except Nat State :=
  if i = 0x3000 then
    whenStopped (!(bitOf v 14)) (deviceStopped s) (updFabric (fun f => { f with partId := bitsOf v 0 14, valid := bitOf v 15 }) s)
  else if i = 0x3001 && k == 0 then whenStopped true (deviceStopped s) (updFabric (fun f => { f with domain := v }) s)
  else if i = 0x3001 then whenStopped (!(bitOf v 14)) (deviceStopped s) { s with dict := { s.dict with fabricManager := v } }
  else if i = 0x3002 then writeEpoch k v s
  else if i = 0x3010 then writePort (ixOf (k - 1)) v s
  else if i = 0x3030 then inRange (decide (100 ≤ v ∧ v ≤ 10000000)) (updFabric (fun f => { f with collTimeout := v }) s)
  else if i = 0x3040 then writeTwin x k v s
  else if k = 1 then inRange (decide (20 ≤ v ∧ v ≤ 10000)) (updHearth (fun h => { h with pendPeriod := some v }) s)
  else inRange (decide (v ≤ 1)) (updHearth (fun h => { h with syncIn := v == 1 }) s)

/-! ### Security (R420, R423 to R427, R433, R436, R454) -/

/-- ROLLBACK_ADVANCE (R420): counter bits up to v and the image's REVOKE are burned as far as the burn reaches. -/
def advanceRollback (x : Extra) (v : Nat) (s : State) : Except Nat State :=
  if v != s.boot.fwRollback || decide (v ≤ rollbackCount s.fuses.rollback) || 64 < v then .error 5
  else
    let bits : BitVec 64 := BitVec.ofNat 64 (2 ^ v - 1)
    .ok { s with fuses := { s.fuses with
      rollback := s.fuses.rollback ||| (bits &&& x.burned), revoked := s.fuses.revoked ||| (BitVec.ofNat 4 s.boot.revoke &&& x.revoked) } }

/-- The rights of R423. -/
def mayAttest (c : Cls) (part : Nat) (newKey : Bool) : Bool :=
  !(newKey && part == 0xFF) && (match c with
    | .host => true
    | .vf p => part == p.val
    | .bmc => part == 0xFF
    | .fm => part == 0xFF
    | _ => false)

/-- A new import key pair: identifier, private scalar and public point, drawn in the control complex (R425, R430). -/
def drawImportKey (s : State) : ImportKey × State :=
  let (d, s) := freeBelow (p384.order - 1) s
  let (i, s) := freeBelow (2 ^ 64 - 1) s
  let q := ecCoords (ecMul p384 (d + 1) (some (p384.gx, p384.gy)))
  ({ id := i + 1, d := d + 1, x := q.1, y := q.2 }, { s with sec := { s.sec with drbgOn := true } })

/-- An attestation request (R423, R424): the requester's buffer is replaced, and the report waits for its signature. -/
def requestReport (c : Cls) (w : Nat) (b : List Byte) (s : State) : Except Nat State :=
  let part := fieldAt b 0 1
  let flags := fieldAt b 1 1
  if (15 < part && part != 0xFF) || 1 < flags || !(zeroRange b 2 8) then .error 5
  else if !(mayAttest c part (flags == 1)) then .error 3
  else
    let (key, s) := if flags = 1 then (let r := drawImportKey s; (some r.1, r.2)) else (none, s)
    let r : SignReq := { who := w, part := part, newKey := key, nonce := bytesAt b 8 32 }
    .ok { s with sec := { s.sec with
      reports := (s.sec.reports.filter (·.who != w)) ++ [{ who := w, ready := false, bytes := [] }]
      signQueue := (s.sec.signQueue.filter (·.who != w)) ++ [r] } }

/-- The body of a report (R426). -/
def reportBody (s : State) (r : SignReq) : List Byte :=
  let t := s.parts[r.part]?
  let key := t.bind (·.importKey)
  let reproducible := match t with | some t => t.reproducible | none => false
  let dies := match t with | some t => t.dieMask.toNat | none => 0
  leBytes 2 0xC7A5 ++ leBytes 1 1 ++ leBytes 1 (gradeCode s.fuses.grade) ++ leBytes 2 s.fuses.stepping ++ leBytes 1 r.part ++
    leBytes 1 (b2n r.newKey.isSome + 2 * b2n reproducible) ++ leBytes 2 s.fuses.activeMask.toNat ++ leBytes 2 dies ++
    leBytes 2 (s.fabric.partId + 0x8000 * b2n s.fabric.valid) ++ leBytes 1 (s.boot.keySlot + 16 * s.fuses.revoked.toNat) ++ [0] ++
    leBytes 4 (rollbackCount s.fuses.rollback) ++ leBytes 4 s.boot.fwRollback ++ leBytes 4 s.boot.fwVersion ++ leBytes 4 s.sec.reportSeq ++
    bytesAt s.fuses.uniqueId 0 16 ++ bytesAt r.nonce 0 32 ++ bytesAt s.boot.imageDigest 0 32 ++ bytesAt s.fuses.romDigest 0 32 ++
    (match key with
      | some x => leBytes 8 x.id ++ List.replicate 8 0 ++ leBytes 48 x.x ++ leBytes 48 x.y
      | none => List.replicate 112 0) ++
    bytesAt s.sec.identPk 0 32 ++ List.replicate 32 0

/-- REPORT_SIGNED (R425 to R427): the oldest request's import key is committed and its report is signed. -/
def execReportSigned (s : State) : Result :=
  ok (match s.sec.signQueue, s.sec.identSk with
    | r :: rest, some sk =>
      let s := match r.newKey with
        | some x => updPart (ixOf r.part) (fun t => { t with importKey := some x }) s
        | none => s
      let s := { s with sec := { s.sec with signQueue := rest, reportSeq := s.sec.reportSeq + 1 } }
      let b := reportBody s r
      let bytes := b ++ bytesAt (Config.slhSign sk b) 0 17088
      { s with sec := { s.sec with reports := s.sec.reports.map fun x => if x.who = r.who then { x with ready := true, bytes := bytes } else x } }
    | _, _ => s)

/-- 0x4030:(0x01 + n) (R433, R436, R454): a change of ENABLE retrains the port. -/
def writeEncryption (n : PortIx) (v : Nat) (s : State) : Except Nat State :=
  if v / 8 != 0 || !(dieActive s n) then .error 5
  else if bitOf v 0 == (portOf s n).encEnable then .ok s
  else
    let s := updPort n (fun p => { p with encEnable := bitOf v 0 }) s
    .ok (if (portOf s n).state = .up then takeDown n false s else updPort n (fun p => { dropKeys p with keyState := .off }) s)

/-- 0x4001 to 0x4030. -/
def write4 (x : Extra) (c : Cls) (w i k : Nat) (b : List Byte) (s : State) : Except Nat State :=
  if i = 0x4001 then advanceRollback x (leNat b) s
  else if i = 0x4020 then requestReport c w b s
  else if k ≤ 16 then writeEncryption (ixOf (k - 1)) (leNat b) s
  else inRange (dieActive s (ixOf (k - 17))) (updPort (ixOf (k - 17)) (fun p => { p with peerHash := b }) s)

/-! ### Partitions (R84, R383, R401, R497, R498) -/

/-- The bank shares of an entry (R241, R497). -/
def bankShares (e : List Byte) : Nat := bitsOf (fieldAt e 0xB 2) 0 12

/-- 0x5000:(0x01 + p) (R223, R241, R383, R401, R497): the dies and the bank shares of a partition that exists do not change (log 85);
a rebound member registers with its new gateway. -/
def writeEntry (p : PartIx) (b : List Byte) (s : State) : Except Nat State :=
  let t := partOfIx s p
  let n := { t with entry := b }
  if !(entryReservedOk b) then .error 5
  else if !(partStopped s p) then .error 7
  else if t.state == .free then .ok (updPart p (fun _ => n) s)
  else if n.dieMask != t.dieMask || bankShares n.entry != bankShares t.entry || !(ownerOk (updPart p (fun _ => n) s) p) then .error 5
  else
    let moved := n.ownerPart != t.ownerPart || n.ownerPort != t.ownerPort || n.ownerFn != t.ownerFn || n.memberSlot != t.memberSlot
    let s := updPart p (fun _ => n) s
    .ok (if moved then registerMember p s else s)

/-- The directory's eviction request (R90). -/
def writeEviction (p : PartIx) (tag : Nat) (s : State) : Except Nat State :=
  match evictAnswer s p tag with
  | .ok => .ok (evictSet p tag s)
  | .state => .error 7
  | .range => .error 5

/-- 0x5000 to 0x5200. -/
def write5 (x : Extra) (c : Cls) (i k : Nat) (b : List Byte) (s : State) : Except Nat State :=
  let v := leNat b
  if i = 0x5000 && decide (k ≤ 16) then writeEntry (ixOf (k - 1)) b s
  else if i = 0x5000 then partCommand (ixOf (k - 0x21)) v c x.slotHeld s
  else if i = 0x5010 && k == 2 then inRange (decide (v < 16)) { s with dict := { s.dict with selector := v } }
  else if i = 0x5010 then writeEviction (dirPart s c) v s
  else
    let p := ixOf (k - 1)
    whenStopped (decide (v ≤ 1)) (partStopped s p) (updPart p (fun t => { t with reproducible := v == 1 }) s)

/-! ### Faults and self-test (R463, R468, R471, R496) -/

/-- 0x6100:04 and :05 (R460, R463, R501): event 0x0000; a VF names its own partition. -/
def writeQuench (c : Cls) (restart : Bool) (v : Nat) (s : State) : Except Nat State :=
  if 15 < v then .error 5
  else if (match c with | .vf p => p.val != v | _ => false) then .error 3
  else if (partOfIx s (ixOf v)).state == .free then .error 7
  else .ok (quenchPartition (ixOf v) 0 restart s)

/-- 0x6010 to 0x7000. -/
def write6 (c : Cls) (i k v : Nat) (s : State) : Except Nat State :=
  if i = 0x6010 then inRange (decide (v ≤ 0x1F)) { s with dict := { s.dict with masks := s.dict.masks.set (k - 1) (BitVec.ofNat 5 v) } }
  else if i = 0x6100 && k == 4 then writeQuench c false v s
  else if i = 0x6100 && k == 5 then writeQuench c true v s
  else if i = 0x6100 then inRange (v == 0x5A) (quenchDevice 0 .command s)
  else if k = 1 then (if v = 1 then startShutdown s else .error 5)
  else inRange (decide (v ≤ 10000)) (updBist (fun b => { b with grace := v }) s)

/-- A WRITE of a sub-index by a requester. -/
def writeObj (x : Extra) (via : Via) (c : Cls) (w i k : Nat) (b : List Byte) (s : State) : Except Nat State :=
  match i / 0x1000 with
  | 1 => if 8256 ≤ leNat b ∧ leNat b ≤ 33554432 then
      (match via with
        | .pcie port _ => startVerification port (leNat b) s
        | _ => .error 3)
      else .error 5
  | 2 => write2 i k (leNat b) s
  | 3 => write3 x i k (leNat b) s
  | 4 => write4 x c w i k b s
  | 5 => write5 x c i k b s
  | _ => write6 c i k (leNat b) s

/-! ### Whole DOMAIN values (R354, R359, R489, R518) -/

/-- A list of U16 values. -/
def u16sOf (b : List Byte) : List Nat := (chunks 2 b).map leNat

/-- A routing entry may stand at destination `d` (R354): its ports are present and none is the twin port; the part's own entry is
LOCAL; reserved bits are zero. -/
def routeOk (s : State) (d e : Nat) : Bool :=
  bitsOf e 18 12 == 0 &&
  (!(bitOf e 31) || bitOf e 30 ||
    (List.range (bitsOf e 16 2 + 1)).all fun i => let n := bitsOf e (4 * i) 4; dieActive s (ixOf n) && s.twin.port != n) &&
  (!(s.fabric.valid && s.fabric.partId == d) || bitOf e 30)

/-- The entries of a table value. -/
def routesOf (b : List Byte) : List (Nat × Nat) := ((chunks 4 b).map leNat).zipIdx.map fun e => (e.2, e.1)

/-- A routing table is sound (R354). -/
def routesOk (s : State) (b : List Byte) : Bool := b.length == 65536 && (routesOf b).all fun e => routeOk s e.1 e.2

/-- A table with its zero entries left out. -/
def routeTbl (b : List Byte) : Tbl Nat := (routesOf b).filter fun e => e.2 != 0

/-- The whole value of a SEG_WRITE is checked and committed, or refused whole. What is pending is refused while an epoch is retained
(R359). -/
def commitDomain (i k : Nat) (b : List Byte) (s : State) : Except Nat State :=
  if s.fabric.retained.isSome && (i = 0x3002 || (i = 0x3020 && k == 2)) then .error 7
  else if i = 0x3002 then
    inRange (b.length % 2 == 0) (updFabric (fun f => { f with pendMembers := u16sOf b }) s)
  else if i = 0x3020 && k == 1 then whenStopped (routesOk s b) (deviceStopped s) (updFabric (fun f => { f with routes := routeTbl b }) s)
  else if i = 0x3020 then inRange (routesOk s b) (updFabric (fun f => { f with pendRoutes := routeTbl b }) s)
  else if s.boot.phase = .waitRecord && s.bist.recordIn.isNone then .ok (updBist (fun x => { x with recordIn := some b }) s)
  else .error 7

end Sys2Proof.Machine
end

