-- ==== Sys2Proof/Machine/Fivepin.lean ====
section
/-! DEFINITION. The Fivepin dictionary protocol (R481 to R495): discards, classes, statuses, segmented transfers, and the commands of
the object dictionary. -/

namespace Sys2Proof.Machine

/-! ### Messages (R483, R487) -/

/-- Bytes of a request but its MSG_CHECK. -/
def reqBytes (r : FpReq) : List Byte :=
  leBytes 1 r.version ++ leBytes 1 (r.opcode + 0x80 * b2n r.response) ++ leBytes 1 r.status ++ leBytes 1 (b2n r.last) ++ leBytes 2 r.index ++
    leBytes 1 r.sub ++ leBytes 1 r.member ++ leBytes 4 r.offset ++ leBytes 2 r.length ++ [0, 0] ++ leBytes 4 r.total ++
    (if r.opcode = 3 then [] else r.data)

/-- A request that is not discarded (R487). -/
def reqSound (r : FpReq) : Bool :=
  r.check == crc32c (reqBytes r) && r.reserved == 0 && r.version == 1 && !r.response && r.status == 0 &&
    (if r.opcode = 3 then r.data.isEmpty else r.data.length == r.length)

/-- The segment limit of a transport (R481). -/
def segLimit : Via → Nat
  | .smbus => 224
  | _ => 1024

/-- The answer to a request (R483, R486): status, TOTAL, LAST, data. -/
structure Ans where
  status : Nat
  total : Nat
  last : Bool
  data : List Byte
  deriving DecidableEq, Repr

/-- A bare status. -/
def Ans.only (n : Nat) : Ans := ⟨n, 0, false, []⟩
/-- OK with data. -/
def Ans.ofData (b : List Byte) : Ans := ⟨0, 0, false, b⟩

/-- Send the response to a request. -/
def respond (r : FpReq) (a : Ans) (s : State) : State :=
  emit (.response r.via a.status r.index r.sub r.member r.offset a.total a.last a.data) s

/-! ### Sessions (R488 to R490) -/

/-- A session's key: the requester's endpoint, INDEX, SUB, MEMBER. -/
def FpSession.of (r : FpReq) (x : FpSession) : Bool := x.via == r.via && x.index == r.index && x.sub == r.sub && x.member == r.member

/-- The open session of a request. -/
def fpSession (s : State) (r : FpReq) : Option FpSession := s.dict.sessions.find? (FpSession.of r)

/-- Close a request's session. -/
def closeSession (r : FpReq) (s : State) : State := { s with dict := { s.dict with sessions := s.dict.sessions.filter fun x => !(x.of r) } }

/-- Open or replace a session. -/
def putSession (x : FpSession) (r : FpReq) (s : State) : State :=
  let s := closeSession r s
  { s with dict := { s.dict with sessions := s.dict.sessions ++ [x] } }

/-- A segment of a value being read (R488): min(LENGTH, what is left, the limit) bytes; the last one closes the session. -/
def readSegment (r : FpReq) (v : List Byte) (s : State) : Ans × State :=
  let n := Nat.min r.length (Nat.min (v.length - r.offset) (segLimit r.via))
  let a : Ans := ⟨0, v.length, decide (r.offset + n = v.length), bytesAt v r.offset n⟩
  let x : FpSession := { via := r.via, index := r.index, sub := r.sub, member := r.member, write := false, value := v, total := v.length, next := r.offset + n }
  (a, if a.last then closeSession r s else putSession x r s)

/-- SEG_READ of a DOMAIN (R488, R490). -/
def segReadObj (c : Cls) (r : FpReq) (s : State) : Ans × State :=
  if r.offset = 0 then
    if 16 ≤ (closeSession r s).dict.sessions.length then (.only 8, s)
    else
      let v := readValue s c (whoOf s r.via r.member) r.index r.sub
      readSegment r v (readEffect r.index r.sub s)
  else match fpSession s r with
    | some x => if !x.write && x.next == r.offset then readSegment r x.value s else (.only 9, closeSession r s)
    | none => (.only 9, s)

/-- A segment of a value being written (R489): the last one commits the value whole, or the session closes with a refusal. -/
def writeSegment (r : FpReq) (x : FpSession) (s : State) : Ans × State :=
  let v := x.value ++ r.data
  if x.total < v.length || (r.last && v.length != x.total) then (.only 9, closeSession r s)
  else if r.last then
    let s := closeSession r s
    match commitDomain r.index r.sub v s with
    | .ok s => (.only 0, s)
    | .error e => (.only e, s)
  else (.only 0, putSession { x with value := v, next := v.length } r s)

/-- SEG_WRITE of a DOMAIN (R489, R490). -/
def segWriteObj (o : ObjRow) (r : FpReq) (s : State) : Ans × State :=
  if segLimit r.via < r.length then (.only 6, s)
  else if r.offset = 0 then
    if o.len < r.total then (.only 6, s)
    else if 16 ≤ (closeSession r s).dict.sessions.length then (.only 8, s)
    else writeSegment r { via := r.via, index := r.index, sub := r.sub, member := r.member, write := true, value := [], total := r.total, next := 0 } s
  else match fpSession s r with
    | some x => if x.write && x.next == r.offset then writeSegment r x s else (.only 9, closeSession r s)
    | none => (.only 9, s)

/-! ### One request -/

/-- WRITE of a sub-index that is not a DOMAIN: the width, a BOOL's range, then the object's own rule (R485). -/
def writeReq (x : Extra) (c : Cls) (o : ObjRow) (r : FpReq) (s : State) : Ans × State :=
  if r.data.length != o.len then (.only 6, s)
  else match writeObj x r.via c (whoOf s r.via r.member) r.index r.sub r.data s with
    | .ok s => (.only 0, s)
    | .error e => (.only e, s)

/-- DESCRIBE (R484). -/
def describe (c : Cls) (o : ObjRow) (i k : Nat) : List Byte :=
  leBytes 1 o.type ++ leBytes 1 o.access ++ leBytes 1 (b2n (mayRead c i k) + 2 * b2n (mayWrite c i k)) ++ [0] ++ leBytes 4 o.len

/-- The dies that an access to a sub-index needs, which wake (R333, log 91): counters are kept in the die; a partition command and a
partition quench act on the partition's dies. -/
def needsDies (s : State) (writes : Bool) (r : FpReq) : List DieIx :=
  if r.index = 0x6001 then [ixOf (r.sub - 1)]
  else if writes && r.index == 0x5000 && decide (0x21 ≤ r.sub ∧ r.sub ≤ 0x30) then
    ownedDies s (ixOf (r.sub - 0x21)) ++ namedDies (partOfIx s (ixOf (r.sub - 0x21)))
  else if writes && r.index == 0x6100 && (r.sub == 4 || r.sub == 5) then ownedDies s (ixOf (leNat r.data))
  else []

/-- A request by its opcode, on a sub-index that is present: DENIED, then ACCESS, then the rest (R484 to R486). -/
def onObject (x : Extra) (c : Cls) (o : ObjRow) (r : FpReq) (s : State) : Ans × State :=
  let writes := r.opcode == 2 || r.opcode == 4
  if r.opcode = 5 then (.ofData (describe c o r.index r.sub), s)
  else if r.opcode = 0 || 5 < r.opcode then (.only 4, s)
  else if !(if writes then mayWrite c r.index r.sub else mayRead c r.index r.sub) then (.only 3, s)
  else if (o.type == 11) != (r.opcode == 3 || r.opcode == 4) || (if writes then o.access ≤ 2 else o.access == 4) then (.only 4, s)
  else
    let s := (needsDies s writes r).foldl (fun s d => wakeDie d s) s
    if r.opcode = 1 then
      (.ofData (readValue s c (whoOf s r.via r.member) r.index r.sub), readEffect r.index r.sub s)
    else if r.opcode = 2 then writeReq x c o r s
    else if r.opcode = 3 then segReadObj c r s
    else segWriteObj o r s

/-- Reads that a device quench leaves (R495). -/
def quenchReads (i : Nat) : Bool := decide (0x1000 ≤ i ∧ i ≤ 0x1FFF) || [0x4000, 0x4010, 0x4011, 0x6000, 0x6001, 0x6100, 0x7001].contains i

/-- Objects that the boot ROM serves (R415, R495). -/
def bootObjects (i : Nat) : Bool := decide (0x1000 ≤ i ∧ i ≤ 0x1021) || [0x1F00, 0x4000, 0x4001, 0x4010, 0x6100].contains i

/-- A request that this part answers itself. -/
def answerReq (x : Extra) (c : Cls) (r : FpReq) (s : State) : Ans × State :=
  if s.alarm.device && !((r.opcode == 1 || r.opcode == 3) && quenchReads r.index) then (.only 0x0A, s)
  else if !s.alarm.device && s.boot.fwState != 2 && !(bootObjects r.index) then (.only 0x0B, s)
  else match objOf r.index r.sub with
    | some o => onObject x c o r s
    | none => (.only (if hasIndex r.index then 2 else 1), s)

/-- The transport carries the request (R353, R481): a host port with its link up; a fabric request, before object 0x3000 is valid,
only from a direct neighbour. -/
def carried (s : State) : Via → Bool
  | .pcie port _ => (hostOf s port).linkUp
  | .smbus => true
  | .fabric _ _ direct _ => s.fabric.valid || direct

/-- The control complex serves: the anchor self-check has ended (R415, R517). -/
def awake (s : State) : Bool := s.boot.phase != .off && (s.boot.phase != .selfCheck || s.alarm.device)

/-- A gateway forwards a request to the member in a slot of the requester's function (R493). -/
def forwardReq (r : FpReq) (s : State) : State :=
  match r.via with
  | .pcie port fn =>
    match memberOf s port fn r.member with
    | some m => if s.alarm.device then respond r (.only 0x0A) s else sendMsg .mgmt (hostDie port) m.part 0 (fun v => .forwardedRequest v m r) s
    | none => respond r (.only 0x0C) s
  | _ => respond r (.only 0x0C) s

/-- A Fivepin request arrives: it is discarded and counted, or served and answered (R487, R494). -/
def serveReq (x : Extra) (r : FpReq) (s : State) : State :=
  if !(awake s) || !(carried s r.via) then s
  else if !(reqSound r) then count 0 20 1 s
  else match clsOf s r.via r.member with
    | none => forwardReq r s
    | some c => let (a, s) := answerReq x c r s; respond r a s

/-- A request is a WRITE of one sub-index. -/
def isWrite (r : FpReq) (i k : Nat) : Bool := r.opcode == 2 && r.index == i && r.sub == k

/-- A request is a WRITE of a partition command. -/
def isCommand (r : FpReq) (n : Nat) : Bool := r.opcode == 2 && r.index == 0x5000 && decide (0x21 ≤ r.sub ∧ r.sub ≤ 0x30) && leNat r.data == n

/-! ### The commands -/

/-- READ (R484, R494); an opcode that R484 does not list is refused with ACCESS. -/
def execRead (r : FpReq) (s : State) : Result := ok (if r.opcode = 1 || r.opcode = 0 || 5 < r.opcode then serveReq .plain r s else s)
/-- WRITE (R484, R494). -/
def execWrite (r : FpReq) (s : State) : Result := ok (if r.opcode = 2 then serveReq .plain r s else s)
/-- SEG_READ (R488). -/
def execSegRead (r : FpReq) (s : State) : Result := ok (if r.opcode = 3 then serveReq .plain r s else s)
/-- SEG_WRITE (R489). -/
def execSegWrite (r : FpReq) (s : State) : Result := ok (if r.opcode = 4 then serveReq .plain r s else s)
/-- DESCRIBE (R484). -/
def execDescribe (r : FpReq) (s : State) : Result := ok (if r.opcode = 5 then serveReq .plain r s else s)
/-- ERROR_REGISTER_READ (R496). -/
def execErrorRegisterRead (r : FpReq) (s : State) : Result := ok (if r.opcode = 1 && r.index = 0x1001 then serveReq .plain r s else s)
/-- EVICTION_REQUEST (R90). -/
def execEvictionRequest (r : FpReq) (s : State) : Result := ok (if isWrite r 0x5010 3 then serveReq .plain r s else s)
/-- CREATE (R498); `memberSlotHeld` is what the gateway answers to the registration (R397). -/
def execCreate (r : FpReq) (memberSlotHeld : Bool) (s : State) : Result :=
  ok (if isCommand r 1 then serveReq { Extra.plain with slotHeld := memberSlotHeld } r s else s)
/-- START (R498). -/
def execStart (r : FpReq) (s : State) : Result := ok (if isCommand r 2 then serveReq .plain r s else s)
/-- STOP (R498). -/
def execStop (r : FpReq) (s : State) : Result := ok (if isCommand r 3 then serveReq .plain r s else s)
/-- COLD_STOP (R498). -/
def execColdStop (r : FpReq) (s : State) : Result := ok (if isCommand r 4 then serveReq .plain r s else s)
/-- DESTROY (R498). -/
def execDestroy (r : FpReq) (s : State) : Result := ok (if isCommand r 5 then serveReq .plain r s else s)
/-- QUENCH_PARTITION (R463). -/
def execQuenchPartition (r : FpReq) (s : State) : Result := ok (if isWrite r 0x6100 4 then serveReq .plain r s else s)
/-- RESTART_QUEUES (R285, R463). -/
def execRestartQueues (r : FpReq) (s : State) : Result := ok (if isWrite r 0x6100 5 then serveReq .plain r s else s)
/-- DEVICE_QUENCH_COMMAND (R463). -/
def execDeviceQuenchCommand (r : FpReq) (s : State) : Result := ok (if isWrite r 0x6100 6 then serveReq .plain r s else s)
/-- GO (R415). -/
def execGo (r : FpReq) (s : State) : Result := ok (if isWrite r 0x1F00 2 then serveReq .plain r s else s)
/-- ROLLBACK_ADVANCE (R420): `burned` and `revoked` are the fuse bits that the burn reaches before power may fail. -/
def execRollbackAdvance (r : FpReq) (burned : W64) (revoked : BitVec 4) (s : State) : Result :=
  ok (if isWrite r 0x4001 2 then serveReq { Extra.plain with burned := burned, revoked := revoked } r s else s)
/-- ATTESTATION_REQUEST (R423). -/
def execAttestationRequest (r : FpReq) (s : State) : Result := ok (if isWrite r 0x4020 1 then serveReq .plain r s else s)
/-- LINK_ENCRYPTION (R433). -/
def execLinkEncryption (r : FpReq) (s : State) : Result :=
  ok (if r.opcode = 2 && r.index = 0x4030 && decide (1 ≤ r.sub ∧ r.sub ≤ 16) then serveReq .plain r s else s)
/-- PAIR (R406). -/
def execPair (r : FpReq) (s : State) : Result := ok (if isWrite r 0x3040 6 && leNat r.data = 1 then serveReq .plain r s else s)
/-- DETACH (R412). -/
def execDetach (r : FpReq) (s : State) : Result := ok (if isWrite r 0x3040 6 && leNat r.data = 2 then serveReq .plain r s else s)
/-- FILL (R407): what the partner holds of the partition comes with the command. -/
def execFill (r : FpReq) (partnerStandby : Bool) (partnerDies : BitVec 16) (s : State) : Result :=
  ok (if isWrite r 0x3040 7 then serveReq { Extra.plain with partnerStandby := partnerStandby, partnerDies := partnerDies } r s else s)
/-- PROMOTE (R410). -/
def execPromote (r : FpReq) (s : State) : Result := ok (if isWrite r 0x3040 8 then serveReq .plain r s else s)
/-- PENDING_EPOCH_WRITE (R359). -/
def execPendingEpochWrite (r : FpReq) (s : State) : Result :=
  ok (if r.index = 0x3002 && (r.opcode = 2 || r.opcode = 4) then serveReq .plain r s else s)
/-- ROUTING_TABLE_WRITE (R354): a segment of a table; the last one is checked. -/
def execRoutingTableWrite (r : FpReq) (s : State) : Result := ok (if r.index = 0x3020 && r.opcode = 4 then serveReq .plain r s else s)
/-- SHUTDOWN (R471). -/
def execShutdown (r : FpReq) (s : State) : Result := ok (if isWrite r 0x7000 1 then serveReq .plain r s else s)

/-- SESSION_TIMEOUT (R490): a session with no request for 1 s closes and is counted. -/
def execSessionTimeout (via : Via) (index sub member : Nat) (s : State) : Result :=
  let f (x : FpSession) : Bool := x.via == via && x.index == index && x.sub == sub && x.member == member
  ok (if s.dict.sessions.any f then
      count 0 21 1 { s with dict := { s.dict with sessions := s.dict.sessions.filter fun x => !(f x) } }
    else s)

/-! ### MCTP control (R482) -/

/-- The endpoint identifier of a transport's endpoint; fabric endpoints have 0 (R481). -/
def eidOf (s : State) (via : Via) : Byte :=
  match s.dict.eids.find? fun e => e.1 == via with
  | some e => e.2
  | none => 0

/-- Answer an MCTP control command. -/
def mctp (via : Via) (b : List Byte) (s : State) : State := if awake s && carried s via then emit (.mctp via b) s else s

/-- SET_ENDPOINT_ID (R481, R482); 0x00 and 0xFF are not identifiers. -/
def execSetEndpointId (via : Via) (eid : Byte) (s : State) : Result :=
  ok (if !(awake s) || !(carried s via) then s
    else match via with
      | .fabric .. => mctp via [0, 0x10, 0, 0] s
      | _ =>
        if eid = 0 || eid = 0xFF then mctp via [2, 0, 0, 0] s
        else mctp via [0, 0, eid, 0] { s with dict := { s.dict with eids := (s.dict.eids.filter fun e => !(e.1 == via)) ++ [(via, eid)] } })

/-- GET_ENDPOINT_ID (R482): completion code, identifier, endpoint type, medium-specific byte. -/
def execGetEndpointId (via : Via) (s : State) : Result := ok (mctp via [0, eidOf s via, 0, 0] s)

/-- GET_MCTP_VERSION_SUPPORT (R482): version 1.3.1 for the base, control and vendor-defined types, 0x80 for others. -/
def execGetMctpVersionSupport (via : Via) (messageType : Byte) (s : State) : Result :=
  ok (mctp via (if messageType = 0xFF || messageType = 0 || messageType = 0x7E then [0, 1, 0xF1, 0xF3, 0xF1, 0] else [0x80]) s)

/-- GET_MESSAGE_TYPE_SUPPORT (R482): the vendor-defined type with a PCI vendor identifier. -/
def execGetMessageTypeSupport (via : Via) (s : State) : Result := ok (mctp via [0, 1, 0x7E] s)

/-- GET_VENDOR_DEFINED_MESSAGE_SUPPORT (R482): the vendor identifier of 0x1018:01 and Fivepin command-set version 0x0001. -/
def execGetVendorDefinedMessageSupport (via : Via) (selector : Byte) (s : State) : Result :=
  ok (mctp via (if selector = 0 then [0, 0xFF, 0] ++ beBytes 2 (s.fuses.pciIds.getD 0 0) ++ beBytes 2 1 else [2]) s)

/-- SMBUS_ALERT_RESPONSE (R468, R511): the part answers with its address and releases SMB_ALERT#. -/
def execSmbusAlertResponse (s : State) : Result :=
  ok (if s.pins.smbAlert then emit (.smbusAddress (0x60 + s.pins.strap)) { s with pins := { s.pins with smbAlert := false } } else s)

end Sys2Proof.Machine
end

