-- ==== Sys2Proof/Machine/Dispatch.lean ====
section
/-! DEFINITION. The dispatch: one arm for each command. -/

namespace Sys2Proof.Machine

/-- The effect of a command on everything but the queue of waiting commands. -/
def exec (i : Instr) (s : State) : Host.Outcome State Fault Refusal :=
  match i with
  | .pwrokRise => Sys2Proof.Machine.execPwrokRise s
  | .pwrokFall => Sys2Proof.Machine.execPwrokFall s
  | .sysResetAssert => Sys2Proof.Machine.execSysResetAssert s
  | .sysResetRelease => Sys2Proof.Machine.execSysResetRelease s
  | .selfCheckComplete r => Sys2Proof.Machine.execSelfCheckComplete r s
  | .perst port asserted => Sys2Proof.Machine.execPerst port asserted s
  | .linkDown at_ => Sys2Proof.Machine.execLinkDown at_ s
  | .functionLevelReset at_ fn => Sys2Proof.Machine.execFunctionLevelReset at_ fn s
  | .go r => Sys2Proof.Machine.execGo r s
  | .verificationComplete stagingParity => Sys2Proof.Machine.execVerificationComplete stagingParity s
  | .repairRecord => Sys2Proof.Machine.execRepairRecord s
  | .repairRecordWaitExpiry => Sys2Proof.Machine.execRepairRecordWaitExpiry s
  | .ready failures => Sys2Proof.Machine.execReady failures s
  | .thermtrip die => Sys2Proof.Machine.execThermtrip die s
  | .quenchInput lowNs => Sys2Proof.Machine.execQuenchInput lowNs s
  | .pwrbrkAssert => Sys2Proof.Machine.execPwrbrkAssert s
  | .pwrbrkDeassert => Sys2Proof.Machine.execPwrbrkDeassert s
  | .droop die => Sys2Proof.Machine.execDroop die s
  | .syncInEdge offsetNs sinceNs => Sys2Proof.Machine.execSyncInEdge offsetNs sinceNs s
  | .syncFreeRun => Sys2Proof.Machine.execSyncFreeRun s
  | .governorInterval reports => Sys2Proof.Machine.execGovernorInterval reports s
  | .admissionBoundary => Sys2Proof.Machine.execAdmissionBoundary s
  | .idleEntry die idleUs => Sys2Proof.Machine.execIdleEntry die idleUs s
  | .anchorCompare point primary checker => Sys2Proof.Machine.execAnchorCompare point primary checker s
  | .anchorCompareTimeout point => Sys2Proof.Machine.execAnchorCompareTimeout point s
  | .partitionQuenchComplete p => Sys2Proof.Machine.execPartitionQuenchComplete p s
  | .scratchpadParity die op row => Sys2Proof.Machine.execScratchpadParity die op row s
  | .clusterBufferParity die cluster row op => Sys2Proof.Machine.execClusterBufferParity die cluster row op s
  | .registerParity die loc op => Sys2Proof.Machine.execRegisterParity die loc op s
  | .keyRowParity die op row => Sys2Proof.Machine.execKeyRowParity die op row s
  | .storeParity die op row => Sys2Proof.Machine.execStoreParity die op row s
  | .controlParity die structure_ => Sys2Proof.Machine.execControlParity die structure_ s
  | .entropyFail die => Sys2Proof.Machine.execEntropyFail die s
  | .clockCheck die ppm => Sys2Proof.Machine.execClockCheck die ppm s
  | .supplyCheck die permyriad => Sys2Proof.Machine.execSupplyCheck die permyriad s
  | .eyeMarginCheck port margin => Sys2Proof.Machine.execEyeMarginCheck port margin s
  | .queueWindowWrite port fn slot die queue offset bytes => Sys2Proof.Machine.execQueueWindowWrite port fn slot die queue offset bytes s
  | .nop die queue => Sys2Proof.Machine.execNop die queue s
  | .programLoad die queue => Sys2Proof.Machine.execProgramLoad die queue s
  | .programLoadComplete die queue image => Sys2Proof.Machine.execProgramLoadComplete die queue image s
  | .programUnload die queue => Sys2Proof.Machine.execProgramUnload die queue s
  | .patch die queue => Sys2Proof.Machine.execPatch die queue s
  | .patchApply die queue => Sys2Proof.Machine.execPatchApply die queue s
  | .keysetBind die queue envelope => Sys2Proof.Machine.execKeysetBind die queue envelope s
  | .importSegment p slot sealedBytes => Sys2Proof.Machine.execImportSegment p slot sealedBytes s
  | .jobSubmit die queue => Sys2Proof.Machine.execJobSubmit die queue s
  | .fence die queue => Sys2Proof.Machine.execFence die queue s
  | .fenceComplete die queue => Sys2Proof.Machine.execFenceComplete die queue s
  | .setStep die queue => Sys2Proof.Machine.execSetStep die queue s
  | .cancel die queue => Sys2Proof.Machine.execCancel die queue s
  | .block die queue => Sys2Proof.Machine.execBlock die queue s
  | .blockExpiry die queue => Sys2Proof.Machine.execBlockExpiry die queue s
  | .jobComplete job elapsedNs => Sys2Proof.Machine.execJobComplete job elapsedNs s
  | .setFlag at_ flag => Sys2Proof.Machine.execSetFlag at_ flag s
  | .clearFlag at_ flag => Sys2Proof.Machine.execClearFlag at_ flag s
  | .waitFlag at_ flag => Sys2Proof.Machine.execWaitFlag at_ flag s
  | .flagTimeout die queue => Sys2Proof.Machine.execFlagTimeout die queue s
  | .flagDeadlock die queues => Sys2Proof.Machine.execFlagDeadlock die queues s
  | .undefinedInstruction at_ => Sys2Proof.Machine.execUndefinedInstruction at_ s
  | .operationComplete die op => Sys2Proof.Machine.execOperationComplete die op s
  | .ntt at_ mask src dst => Sys2Proof.Machine.execNtt at_ mask src dst s
  | .inverseNtt at_ mask src dst => Sys2Proof.Machine.execInverseNtt at_ mask src dst s
  | .polyAdd at_ mask a b dst => Sys2Proof.Machine.execPolyAdd at_ mask a b dst s
  | .polySubtract at_ mask a b dst => Sys2Proof.Machine.execPolySubtract at_ mask a b dst s
  | .negate at_ mask src dst => Sys2Proof.Machine.execNegate at_ mask src dst s
  | .plaintextAdd at_ mask ct pt dst => Sys2Proof.Machine.execPlaintextAdd at_ mask ct pt dst s
  | .plaintextMultiply at_ mask ct pt dst => Sys2Proof.Machine.execPlaintextMultiply at_ mask ct pt dst s
  | .ciphertextMultiply at_ mask a b dst => Sys2Proof.Machine.execCiphertextMultiply at_ mask a b dst s
  | .levelDrop at_ mask src dst level => Sys2Proof.Machine.execLevelDrop at_ mask src dst level s
  | .basisConversion at_ mask src dst source target => Sys2Proof.Machine.execBasisConversion at_ mask src dst source target s
  | .rescale at_ mask src dst => Sys2Proof.Machine.execRescale at_ mask src dst s
  | .modSwitch at_ mask src dst => Sys2Proof.Machine.execModSwitch at_ mask src dst s
  | .encode at_ mask coeffs dst req => Sys2Proof.Machine.execEncode at_ mask coeffs dst req s
  | .decode at_ mask src dst => Sys2Proof.Machine.execDecode at_ mask src dst s
  | .relinearise at_ mask src dst slot => Sys2Proof.Machine.execRelinearise at_ mask src dst slot s
  | .rotate at_ mask src dst g slot => Sys2Proof.Machine.execRotate at_ mask src dst g slot s
  | .conjugate at_ mask src dst slot => Sys2Proof.Machine.execConjugate at_ mask src dst slot s
  | .hrot at_ mask src gs dsts slot => Sys2Proof.Machine.execHrot at_ mask src gs dsts slot s
  | .hrotSum at_ mask src terms dst slot => Sys2Proof.Machine.execHrotSum at_ mask src terms dst slot s
  | .modUp at_ mask src dst digit => Sys2Proof.Machine.execModUp at_ mask src dst digit s
  | .ip at_ mask digits dst kind g slot => Sys2Proof.Machine.execIp at_ mask digits dst kind g slot s
  | .modDown at_ mask src dst => Sys2Proof.Machine.execModDown at_ mask src dst s
  | .temper at_ src dst cfg slot work => Sys2Proof.Machine.execTemper at_ src dst cfg slot work s
  | .shrAdd at_ mask a b dst => Sys2Proof.Machine.execShrAdd at_ mask a b dst s
  | .shrSub at_ mask a b dst => Sys2Proof.Machine.execShrSub at_ mask a b dst s
  | .shrNeg at_ mask src dst => Sys2Proof.Machine.execShrNeg at_ mask src dst s
  | .shrSmul at_ mask src sc dst => Sys2Proof.Machine.execShrSmul at_ mask src sc dst s
  | .shrCadd at_ mask src clear dst => Sys2Proof.Machine.execShrCadd at_ mask src clear dst s
  | .shrSplit at_ mask session logM clear dst recv => Sys2Proof.Machine.execShrSplit at_ mask session logM clear dst recv s
  | .shrOpen at_ mask src dst => Sys2Proof.Machine.execShrOpen at_ mask src dst s
  | .beaverMul at_ mask a b dst => Sys2Proof.Machine.execBeaverMul at_ mask a b dst s
  | .secagg at_ mask srcs dst => Sys2Proof.Machine.execSecagg at_ mask srcs dst s
  | .deal at_ session n => Sys2Proof.Machine.execDeal at_ session n s
  | .exchangeMessage m => Sys2Proof.Machine.execExchangeMessage m s
  | .dealDelivery m => Sys2Proof.Machine.execDealDelivery m s
  | .abortMarker m => Sys2Proof.Machine.execAbortMarker m s
  | .exchangeTimeout p session => Sys2Proof.Machine.execExchangeTimeout p session s
  | .tmul at_ args => Sys2Proof.Machine.execTmul at_ args s
  | .paletteReadClear at_ entry sc => Sys2Proof.Machine.execPaletteReadClear at_ entry sc s
  | .nanCountReadClear at_ sc => Sys2Proof.Machine.execNanCountReadClear at_ sc s
  | .add at_ eng n a b dst => Sys2Proof.Machine.execAdd at_ eng n a b dst s
  | .sub at_ eng n a b dst => Sys2Proof.Machine.execSub at_ eng n a b dst s
  | .mul at_ eng n a b dst => Sys2Proof.Machine.execMul at_ eng n a b dst s
  | .fma at_ eng n a b c dst => Sys2Proof.Machine.execFma at_ eng n a b c dst s
  | .min at_ eng n a b dst => Sys2Proof.Machine.execMin at_ eng n a b dst s
  | .max at_ eng n a b dst => Sys2Proof.Machine.execMax at_ eng n a b dst s
  | .abs at_ eng n a dst => Sys2Proof.Machine.execAbs at_ eng n a dst s
  | .neg at_ eng n a dst => Sys2Proof.Machine.execNeg at_ eng n a dst s
  | .cmp at_ eng n rel a b dst => Sys2Proof.Machine.execCmp at_ eng n rel a b dst s
  | .sel at_ eng n c a b dst => Sys2Proof.Machine.execSel at_ eng n c a b dst s
  | .recip at_ eng n a dst => Sys2Proof.Machine.execRecip at_ eng n a dst s
  | .rsqrt at_ eng n a dst => Sys2Proof.Machine.execRsqrt at_ eng n a dst s
  | .sqrt at_ eng n a dst => Sys2Proof.Machine.execSqrt at_ eng n a dst s
  | .exp2 at_ eng n a dst => Sys2Proof.Machine.execExp2 at_ eng n a dst s
  | .log2 at_ eng n a dst => Sys2Proof.Machine.execLog2 at_ eng n a dst s
  | .cvt at_ eng n a dst xt palette => Sys2Proof.Machine.execCvt at_ eng n a dst xt palette s
  | .fix at_ eng n f a dst => Sys2Proof.Machine.execFix at_ eng n f a dst s
  | .flt at_ eng n f a dst => Sys2Proof.Machine.execFlt at_ eng n f a dst s
  | .rsum at_ eng n form a dst => Sys2Proof.Machine.execRsum at_ eng n form a dst s
  | .rmax at_ eng n form a dst => Sys2Proof.Machine.execRmax at_ eng n form a dst s
  | .rmin at_ eng n form a dst => Sys2Proof.Machine.execRmin at_ eng n form a dst s
  | .rargmax at_ eng n form a dst => Sys2Proof.Machine.execRargmax at_ eng n form a dst s
  | .sort at_ eng n a dst => Sys2Proof.Machine.execSort at_ eng n a dst s
  | .argsort at_ eng n a dst => Sys2Proof.Machine.execArgsort at_ eng n a dst s
  | .vload at_ eng n transpose a dst => Sys2Proof.Machine.execVload at_ eng n transpose a dst s
  | .vstore at_ eng n a dst => Sys2Proof.Machine.execVstore at_ eng n a dst s
  | .updNorm at_ args => Sys2Proof.Machine.execUpdNorm at_ args s
  | .updApply at_ args => Sys2Proof.Machine.execUpdApply at_ args s
  | .bnCfg at_ slot n secret => Sys2Proof.Machine.execBnCfg at_ slot n secret s
  | .bnLoad at_ slot handle offset => Sys2Proof.Machine.execBnLoad at_ slot handle offset s
  | .bnRead at_ handle offset slot => Sys2Proof.Machine.execBnRead at_ handle offset slot s
  | .modAdd at_ d a b m sc => Sys2Proof.Machine.execModAdd at_ d a b m sc s
  | .modSub at_ d a b m sc => Sys2Proof.Machine.execModSub at_ d a b m sc s
  | .modMul at_ d a b m sc => Sys2Proof.Machine.execModMul at_ d a b m sc s
  | .modExp at_ d a e m sc => Sys2Proof.Machine.execModExp at_ d a e m sc s
  | .modInv at_ d a m sc => Sys2Proof.Machine.execModInv at_ d a m sc s
  | .bnRand at_ d m sc => Sys2Proof.Machine.execBnRand at_ d m sc s
  | .ecKeygen at_ curve d x y sc => Sys2Proof.Machine.execEcKeygen at_ curve d x y sc s
  | .ecMul at_ curve k x y x' y' sc => Sys2Proof.Machine.execEcMul at_ curve k x y x' y' sc s
  | .ecDh at_ curve k x y z sc => Sys2Proof.Machine.execEcDh at_ curve k x y z sc s
  | .hstat at_ index sca scb => Sys2Proof.Machine.execHstat at_ index sca scb s
  | .alloc at_ index base rows secret => Sys2Proof.Machine.execAlloc at_ index base rows secret s
  | .free at_ index => Sys2Proof.Machine.execFree at_ index s
  | .ringInit at_ ring handle slots slotRows => Sys2Proof.Machine.execRingInit at_ ring handle slots slotRows s
  | .ringFree at_ ring => Sys2Proof.Machine.execRingFree at_ ring s
  | .salloc at_ index base rows => Sys2Proof.Machine.execSalloc at_ index base rows s
  | .sfree at_ index => Sys2Proof.Machine.execSfree at_ index s
  | .dset at_ index handle offset => Sys2Proof.Machine.execDset at_ index handle offset s
  | .move at_ args => Sys2Proof.Machine.execMove at_ args s
  | .gather at_ args => Sys2Proof.Machine.execGather at_ args s
  | .scatter at_ args addMode => Sys2Proof.Machine.execScatter at_ args addMode s
  | .pageRequestResponse port group code => Sys2Proof.Machine.execPageRequestResponse port group code s
  | .pageRequestTimeout port group => Sys2Proof.Machine.execPageRequestTimeout port group s
  | .translationError die op => Sys2Proof.Machine.execTranslationError die op s
  | .atsInvalidation port page => Sys2Proof.Machine.execAtsInvalidation port page s
  | .readCompletionError die op => Sys2Proof.Machine.execReadCompletionError die op s
  | .readCompletionTimeout die op => Sys2Proof.Machine.execReadCompletionTimeout die op s
  | .sdigest at_ index => Sys2Proof.Machine.execSdigest at_ index s
  | .winOpen at_ window handle base length access sc => Sys2Proof.Machine.execWinOpen at_ window handle base length access sc s
  | .winClose at_ window sc => Sys2Proof.Machine.execWinClose at_ window sc s
  | .windowCloseComplete window => Sys2Proof.Machine.execWindowCloseComplete window s
  | .allReduce at_ src dst coll => Sys2Proof.Machine.execAllReduce at_ src dst coll s
  | .reduceScatter at_ src dst coll => Sys2Proof.Machine.execReduceScatter at_ src dst coll s
  | .allGather at_ src dst coll => Sys2Proof.Machine.execAllGather at_ src dst coll s
  | .broadcast at_ src dst coll => Sys2Proof.Machine.execBroadcast at_ src dst coll s
  | .barrier at_ coll => Sys2Proof.Machine.execBarrier at_ coll s
  | .collectiveTimeout die op => Sys2Proof.Machine.execCollectiveTimeout die op s
  | .dget at_ table origin box dst => Sys2Proof.Machine.execDget at_ table origin box dst s
  | .dput at_ src table origin box => Sys2Proof.Machine.execDput at_ src table origin box s
  | .flit port f => Sys2Proof.Machine.execFlit port f s
  | .retry port seq => Sys2Proof.Machine.execRetry port seq s
  | .retryRepeat port => Sys2Proof.Machine.execRetryRepeat port s
  | .portDown port => Sys2Proof.Machine.execPortDown port s
  | .training port loopbackOk => Sys2Proof.Machine.execTraining port loopbackOk s
  | .trainingComplete port success => Sys2Proof.Machine.execTrainingComplete port success s
  | .linkKey port => Sys2Proof.Machine.execLinkKey port s
  | .keyStart port => Sys2Proof.Machine.execKeyStart port s
  | .keyingTimeout port => Sys2Proof.Machine.execKeyingTimeout port s
  | .keyLimit port => Sys2Proof.Machine.execKeyLimit port s
  | .remoteWrite => Sys2Proof.Machine.execRemoteWrite s
  | .readReq => Sys2Proof.Machine.execReadReq s
  | .readData => Sys2Proof.Machine.execReadData s
  | .ack => Sys2Proof.Machine.execAck s
  | .nak => Sys2Proof.Machine.execNak s
  | .flagSet => Sys2Proof.Machine.execFlagSet s
  | .collData => Sys2Proof.Machine.execCollData s
  | .collCtrl => Sys2Proof.Machine.execCollCtrl s
  | .paceMessage collId rank limit => Sys2Proof.Machine.execPaceMessage collId rank limit s
  | .lossNotice part epoch => Sys2Proof.Machine.execLossNotice part epoch s
  | .transferTimeout die op => Sys2Proof.Machine.execTransferTimeout die op s
  | .epochHoldExpiry port => Sys2Proof.Machine.execEpochHoldExpiry port s
  | .epochSwitch => Sys2Proof.Machine.execEpochSwitch s
  | .epochRetire => Sys2Proof.Machine.execEpochRetire s
  | .pendingEpochWrite r => Sys2Proof.Machine.execPendingEpochWrite r s
  | .routingTableWrite r => Sys2Proof.Machine.execRoutingTableWrite r s
  | .heartbeatSend => Sys2Proof.Machine.execHeartbeatSend s
  | .heartbeat rec => Sys2Proof.Machine.execHeartbeat rec s
  | .heartbeatInterval tie => Sys2Proof.Machine.execHeartbeatInterval tie s
  | .pair r => Sys2Proof.Machine.execPair r s
  | .pairResend => Sys2Proof.Machine.execPairResend s
  | .pairRecord rec => Sys2Proof.Machine.execPairRecord rec s
  | .detach r => Sys2Proof.Machine.execDetach r s
  | .detachRecord rec => Sys2Proof.Machine.execDetachRecord rec s
  | .fill r partnerStandby partnerDies => Sys2Proof.Machine.execFill r partnerStandby partnerDies s
  | .fillComplete => Sys2Proof.Machine.execFillComplete s
  | .fillDone rec => Sys2Proof.Machine.execFillDone rec s
  | .promote r => Sys2Proof.Machine.execPromote r s
  | .mirrorRows p m => Sys2Proof.Machine.execMirrorRows p m s
  | .confirm rec => Sys2Proof.Machine.execConfirm rec s
  | .commit rec => Sys2Proof.Machine.execCommit rec s
  | .abort rec => Sys2Proof.Machine.execAbort rec s
  | .refetch rec => Sys2Proof.Machine.execRefetch rec s
  | .refetchComplete p slot ok => Sys2Proof.Machine.execRefetchComplete p slot ok s
  | .enable port fn slot die queue w => Sys2Proof.Machine.execEnable port fn slot die queue w s
  | .queueDisableComplete die queue => Sys2Proof.Machine.execQueueDisableComplete die queue s
  | .crHead port fn slot die queue value => Sys2Proof.Machine.execCrHead port fn slot die queue value s
  | .apertureControl port fn value => Sys2Proof.Machine.execApertureControl port fn value s
  | .bar2Access port fn offset length write => Sys2Proof.Machine.execBar2Access port fn offset length write s
  | .read r => Sys2Proof.Machine.execRead r s
  | .write r => Sys2Proof.Machine.execWrite r s
  | .segRead r => Sys2Proof.Machine.execSegRead r s
  | .segWrite r => Sys2Proof.Machine.execSegWrite r s
  | .describe r => Sys2Proof.Machine.execDescribe r s
  | .sessionTimeout via index sub member => Sys2Proof.Machine.execSessionTimeout via index sub member s
  | .setEndpointId via eid => Sys2Proof.Machine.execSetEndpointId via eid s
  | .getEndpointId via => Sys2Proof.Machine.execGetEndpointId via s
  | .getMctpVersionSupport via messageType => Sys2Proof.Machine.execGetMctpVersionSupport via messageType s
  | .getMessageTypeSupport via => Sys2Proof.Machine.execGetMessageTypeSupport via s
  | .getVendorDefinedMessageSupport via selector => Sys2Proof.Machine.execGetVendorDefinedMessageSupport via selector s
  | .errorRegisterRead r => Sys2Proof.Machine.execErrorRegisterRead r s
  | .smbusAlertResponse => Sys2Proof.Machine.execSmbusAlertResponse s
  | .evictionRequest r => Sys2Proof.Machine.execEvictionRequest r s
  | .create r memberSlotHeld => Sys2Proof.Machine.execCreate r memberSlotHeld s
  | .start r => Sys2Proof.Machine.execStart r s
  | .stop r => Sys2Proof.Machine.execStop r s
  | .coldStop r => Sys2Proof.Machine.execColdStop r s
  | .destroy r => Sys2Proof.Machine.execDestroy r s
  | .partitionCommandComplete p => Sys2Proof.Machine.execPartitionCommandComplete p s
  | .quenchPartition r => Sys2Proof.Machine.execQuenchPartition r s
  | .restartQueues r => Sys2Proof.Machine.execRestartQueues r s
  | .deviceQuenchCommand r => Sys2Proof.Machine.execDeviceQuenchCommand r s
  | .rollbackAdvance r burned revoked => Sys2Proof.Machine.execRollbackAdvance r burned revoked s
  | .attestationRequest r => Sys2Proof.Machine.execAttestationRequest r s
  | .reportSigned => Sys2Proof.Machine.execReportSigned s
  | .linkEncryption r => Sys2Proof.Machine.execLinkEncryption r s
  | .bnYield => Sys2Proof.Machine.execBnYield s
  | .bnComplete => Sys2Proof.Machine.execBnComplete s
  | .shutdown r => Sys2Proof.Machine.execShutdown r s
  | .drainGraceExpiry => Sys2Proof.Machine.execDrainGraceExpiry s
  | .drainComplete => Sys2Proof.Machine.execDrainComplete s
  | .clearComplete => Sys2Proof.Machine.execClearComplete s
  | .scanComplete failures => Sys2Proof.Machine.execScanComplete failures s
  | .memoryComplete failures => Sys2Proof.Machine.execMemoryComplete failures s
  | .repairComplete repaired => Sys2Proof.Machine.execRepairComplete repaired s
  | .hostLinkUp port width => Sys2Proof.Machine.execHostLinkUp port width s
  | .droopClear die => Sys2Proof.Machine.execDroopClear die s
  | .linkKeySegment port offset keyNumber bytes => Sys2Proof.Machine.execLinkKeySegment port offset keyNumber bytes s
  | .memberRegistration reg => Sys2Proof.Machine.execMemberRegistration reg s
  | .forwardedHostWrite w => Sys2Proof.Machine.execForwardedHostWrite w s
  | .pageNotPresent die op cursor pages => Sys2Proof.Machine.execPageNotPresent die op cursor pages s

end Sys2Proof.Machine
end

