-- ==== Sys2Proof/Machine/Reissue.lean ====
section
/-! DEFINITION. What the block does when no command waits: the oldest held instruction that can go on is issued again (log
4). -/

namespace Sys2Proof.Machine

/-- Try held instructions in order of age: the first that leaves the held list is issued; where none does, nothing happens. -/
def reissueGo (s : State) : List Held → State
  | [] => s
  | h :: t =>
    if (heldFront s h.at_.die h.at_.queue).map (·.age) = some h.age then
      match exec h.instr { s with reissue := some h } with
      | .next s' => if s'.held.any (fun x => x.age == h.age) then reissueGo s t else readyHeads { s' with reissue := none }
      | _ => reissueGo s t
    else reissueGo s t

/-- Every die's tongs take up the transfers that they are free for (R259). -/
def startAllTongs (s : State) : State := allDies.foldl (fun s d => startTongs d s) s

/-- The step on an empty queue: packets that cannot act are completed, free tongs go on, deliveries of triples that have room are
sent (R157), then reissue, or idle (log 4). -/
def idleStep (s : State) : State :=
  let s := readyHeads (flushAllDeals (startAllTongs (settleDies allDies s)))
  reissueGo s s.held

end Sys2Proof.Machine
end

