-- ==== Sys2Proof/Safety.lean ====
section
/-! DEFINITION. What the claims speak of: the canonical form of every memory, what a command never changes, and a command that
keeps both. -/

namespace Sys2Proof.Machine

/-- Every memory of a die is in its canonical form: scratchpad, stack, cluster buffers, tiles, cache lines, queue windows. -/
def dieOk (x : Die) : Prop :=
  Memory.wf x.scratch = true ∧ Memory.wf x.store = true ∧ (∀ m ∈ x.bufs, Memory.wf m = true) ∧
  (∀ e ∈ x.tiles, Memory.wf e.2 = true) ∧ (∀ e ∈ x.cache, Memory.wf e.2 = true) ∧
  ∀ q : QueueIx, Memory.wf x.queues[q.val].window = true

/-- Every memory of the part is in its canonical form. -/
def memsOk (s : State) : Prop := (∀ d : DieIx, dieOk (dieOf s d)) ∧ ∀ m ∈ s.boot.staging, Memory.wf m = true

/-- The fused values that no command changes: all but the revoked key slots, the rollback counter and the burned repairs (R417,
R473, R476). -/
def fixedFuses (s : State) : Fuses := { s.fuses with revoked := 0, rollback := 0, repairBudget := [], fusedRepairs := [] }

/-- The state `t` has the waiting commands and the fixed fuses of `s`, and memories in canonical form where `s` has. -/
structure Keeps (s t : State) : Prop where
  pending : t.pending = s.pending
  fuses : fixedFuses t = fixedFuses s
  mems : memsOk s → memsOk t

/-! ### Frames -/

/-- The areas of the state. Five are split, because an event that is logged touches a piece of them: SMB_ALERT# from the pins, a
partition's log from the partition, the counters from the die, pending MSI-X vectors from the host ports. -/
inductive Area where
  | fuses | pins | alert | alarm | boot | sec | log | dict | parts | partLogs | dies | counters | jobs | hearth | fabric | ports
  | hosts | msix | twin | bn | bist | out | held | reissue | free | nextId | pending
  deriving DecidableEq, Repr

/-- An area of the state is the same in `s` and in `t`. -/
def Same (s t : State) : Area → Prop
  | .fuses => t.fuses = s.fuses
  | .pins => { t.pins with smbAlert := false } = { s.pins with smbAlert := false }
  | .alert => t.pins.smbAlert = s.pins.smbAlert
  | .alarm => t.alarm = s.alarm
  | .boot => t.boot = s.boot
  | .sec => t.sec = s.sec
  | .log => t.log = s.log
  | .dict => t.dict = s.dict
  | .parts => ∀ p, { partOfIx t p with log := [] } = { partOfIx s p with log := [] }
  | .partLogs => ∀ p, (partOfIx t p).log = (partOfIx s p).log
  | .dies => ∀ d, { dieOf t d with counters := [] } = { dieOf s d with counters := [] }
  | .counters => ∀ d, (dieOf t d).counters = (dieOf s d).counters
  | .jobs => t.jobs = s.jobs
  | .hearth => t.hearth = s.hearth
  | .fabric => t.fabric = s.fabric
  | .ports => t.ports = s.ports
  | .hosts => ∀ h, { hostOf t h with msixPending := [] } = { hostOf s h with msixPending := [] }
  | .msix => ∀ h, (hostOf t h).msixPending = (hostOf s h).msixPending
  | .twin => t.twin = s.twin
  | .bn => t.bn = s.bn
  | .bist => t.bist = s.bist
  | .out => t.out = s.out
  | .held => t.held = s.held
  | .reissue => t.reissue = s.reissue
  | .free => t.free = s.free
  | .nextId => t.nextId = s.nextId
  | .pending => t.pending = s.pending

/-- Every area but the listed ones is the same in `s` and in `t`. -/
def Frame (ws : List Area) (s t : State) : Prop := ∀ a, a ∉ ws → Same s t a

/-- The areas that logging an event touches (R464, R468, R393). -/
def logAreas : List Area := [.log, .partLogs, .counters, .msix, .alert, .out, .free]

/-- The arguments of an event that belongs to no queue. -/
def evAt (d : DieIx) (part : Option PartIx) (unit detail : Nat) : EvArgs :=
  { die := d, queue := none, part := part, unit := unit, detail := detail, isSkip := false }

/-- Between `s` and `t` one event was logged: the next LOG_SEQ, and the entry of R464 at the end of the device log. -/
def Logged (e : Ev) (a : EvArgs) (s t : State) : Prop :=
  t.log.seq = (s.log.seq + 1) % 2 ^ 32 ∧
  ∃ time, t.log.entries = pushLog 4096 s.log.entries (logEntry ((s.log.seq + 1) % 2 ^ 32) e a s.hearth.boundaries time)

/-- Between `s` and `t` nothing was logged but the late end of jobs (0x0704, R338). -/
def LateOnly (s t : State) : Prop :=
  ∃ late : List (List Byte), (∀ x ∈ late, fieldAt x 4 2 = 0x0704) ∧ t.log.entries = late.foldl (pushLog 4096) s.log.entries ∧
    t.log.seq = late.foldl (fun n _ => (n + 1) % 2 ^ 32) s.log.seq

/-- Between `s` and `t` an event was logged, and after it nothing but the late end of jobs that were quenched for it (R338, R462). -/
def LoggedFirst (e : Ev) (a : EvArgs) (s t : State) : Prop := ∃ u, Logged e a s u ∧ LateOnly u t

/-- Die `d` alone may differ between `s` and `t`, beside counters. -/
def OtherDies (d : DieIx) (s t : State) : Prop := ∀ e, e ≠ d → { dieOf t e with counters := [] } = { dieOf s e with counters := [] }

/-- A Fivepin request that this part serves, from a requester of class `c` (R481, R487, R491). -/
structure Served (s : State) (r : FpReq) (c : Cls) : Prop where
  awake : awake s = true
  carried : carried s r.via = true
  sound : reqSound r = true
  cls : clsOf s r.via r.member = some c

/-- The response to a request (R483). -/
def responseOf (r : FpReq) (a : Ans) : Output := .response r.via a.status r.index r.sub r.member r.offset a.total a.last a.data

/-! ### Quenches -/

/-- The areas that a quench and the event that caused it touch. -/
def quenchAreas : List Area :=
  [.log, .partLogs, .alert, .alarm, .parts, .dies, .counters, .jobs, .held, .sec, .ports, .bn, .hosts, .msix, .fabric, .twin, .out, .free, .nextId]

/-- Between `s` and `t` the device was quenched with an event (R461, R512, R453, R436). -/
structure DeviceQuenched (e : Ev) (src : QuenchSource) (s t : State) : Prop where
  alarm : t.alarm = { s.alarm with device := true, event := e, source := src, quenchLow := true }
  security : t.sec.state = .quenched
  identity : t.sec.identSk = none
  repairKey : t.sec.repairKey = none
  linkKeys : ∀ n, (portOf t n).sendKey = none ∧ (portOf t n).recvKey = none ∧ (portOf t n).ephScalar = none
  bigNumbers : t.bn.waiting = [] ∧ t.bn.running = none ∧ ∀ b ∈ t.bn.slots, b.2.isSecret = true → b.2.valid = false ∧ b.2.value = 0
  partitions : ∀ p, (partOfIx s p).state ≠ .free → (partOfIx t p).quenchEvent = e.toNat ∧
    (partOfIx t p).quenchCount = (partOfIx s p).quenchCount + 1 ∧ (partOfIx t p).quenching.isSome = true
  jobs : ∀ j ∈ t.jobs, (partOfIx s j.part).state = .free
  frame : Frame quenchAreas s t

/-- The areas that the quench of one job and the events of its cause touch. -/
def jobQuenchAreas : List Area := logAreas ++ [.parts, .dies, .jobs, .held, .bn, .hosts, .fabric, .ports, .nextId]

/-- The arguments of an event that job `j` logs at a site. -/
def evJob (j : Job) (a : Site) (unit detail : Nat) (skip : Bool) : EvArgs :=
  { die := a.die, queue := some (a.queue, j.seq, a.off), part := some j.part, unit := unit, detail := detail, isSkip := skip }

/-- Between `s` and `u` job `j` was quenched (R459): it and its operations are gone, every handle and store handle that its operations had
named is poisoned, the other jobs stay. -/
structure JobQuenched (j : Job) (s u : State) : Prop where
  gone : ∀ k ∈ u.jobs, k.id ≠ j.id
  others : ∀ k ∈ s.jobs, k.id ≠ j.id → k ∈ u.jobs
  operations : ∀ d, ∀ o ∈ (dieOf u d).ops, o.job ≠ j.id
  handles : ∀ d h, Dest.handle d h ∈ j.dests → (handleOf s d h).valid = true → (handleOf u d h).poisoned = true
  stores : ∀ d h, Dest.store d h ∈ j.dests → (storeOf s d h).valid = true → (storeOf u d h).poisoned = true
  flags : ∀ d, (dieOf u d).flags = (dieOf s d).flags
  programs : ∀ p, (partOfIx u p).programs = (partOfIx s p).programs

/-- A job's completion record can be written at once: its queue is enabled with room in the ring, and its host's link is up (R293, R385,
R390). -/
structure RecordReady (s : State) (d : DieIx) (q : QueueIx) (p : PartIx) : Prop where
  owner : (dieOf s d).owner = some p
  enabled : (queueOf s d q).enabled = true
  none_held : (queueOf s d q).heldCpl = []
  room : ringFull (queueOf s d q) = false
  own_host : (partOfIx s p).memberSlot = 0
  link : (hostOf s (partOfIx s p).ownerPort).linkUp = true

/-- The address of the next completion record of a queue (R390). -/
def recordAddr (x : Queue) : Nat := x.crBase + 64 * (x.crTail % 2 ^ x.crLog2)

/-- Between two memories the bytes `bs` were written from address `a` on, and no other byte changed: what each address reads. -/
def Wrote (m m' : Mem) (a : Nat) (bs : List Byte) : Prop :=
  ∀ x, memGet m' x = if a ≤ x ∧ x < a + bs.length then bs.getD (x - a) 0 else memGet m x

/-- The fields of a packet's completion record (R293): the 64 bytes `b` as they are written to queue `q` of die `d`, where the queue stood as
`x`, for a packet of `type` with SEQ and TAG. -/
structure RecordOf (d : DieIx) (q : QueueIx) (x : Queue) (pkt : List Byte) (withheld : Bool) (event : Ev) (detail : Nat) (b : List Byte) :
    Prop where
  length : b.length = 64
  tag : fieldAt b 0 2 = 0xC7E8
  seq : fieldAt b 2 2 = pktSeq pkt
  place : fieldAt b 4 1 = q.val + 16 * d.val
  type : fieldAt b 5 1 = pktType pkt
  status : fieldAt b 6 1 = if withheld then 1 else 0
  phase : bitOf (fieldAt b 7 1) 7 = decide (x.crTail / 2 ^ x.crLog2 % 2 = 0)
  packetTag : fieldAt b 8 8 = pktTag pkt
  event : fieldAt b 0x10 2 = event.toNat
  detail : fieldAt b 0x14 4 = detail
  consumed : fieldAt b 0x1C 4 = x.consumed % 2 ^ 32

/-- In `u` a packet of queue `q` of die `d` has been completed: its record went to the next place of the ring, and CR_TAIL advanced
(R293, R390, R392). -/
def Completed (d : DieIx) (q : QueueIx) (p : PartIx) (s u : State) (pkt : List Byte) (withheld : Bool) (event : Ev) (detail : Nat) : Prop :=
  let x := queueOf s d q
  (queueOf u d q).crTail = (x.crTail + 1) % 2 ^ 32 ∧
  ∃ b, Output.completion (partOfIx s p).ownerPort (partOfIx s p).ownerFn (recordAddr x) b ∈ u.out ∧ RecordOf d q x pkt withheld event detail b

/-- The areas that completing a packet touches. -/
def recordAreas : List Area := [.dies, .msix, .out]

/-! ### Instructions that issue -/

/-- Job `j` runs at site `a`, and an instruction may issue there now: it is the job that an open queue has come to issue, with nothing held
there (R237, R286, R289, R450). -/
structure Ready (s : State) (a : Site) (j : Job) : Prop where
  turn : passSite a s = s
  job : runningJob s a.die a.queue = some j
  queue_open : queueOpen s a.die a.queue = true
  engine : bnHolds s a = false
  fresh : s.reissue = none
  front : heldFront s a.die a.queue = none

/-- What of a job issuing an instruction leaves as it was: all but the destinations it has named, its events, bindings and key-set tags. -/
def jobRest (j : Job) : Job := { j with dests := [], secretDests := [], events := 0, binds := [], keyTags := [] }

/-- Between `s` and `t` the operation `o` of unit `unit` was put in flight for job `j` at site `a`, with the scoreboard entries `es` (R236). -/
structure InFlight (a : Site) (j : Job) (unit : Nat) (es : List SbEntry) (o : Op) (s t : State) : Prop where
  op : (dieOf t a.die).ops = (dieOf s a.die).ops ++ [o] ∧ o.id = s.nextId ∧ o.unit = unit ∧ o.job = j.id ∧ o.queue = a.queue ∧ o.off = a.off
  scoreboard : (dieOf t a.die).scoreboard = (dieOf s a.die).scoreboard ++ es.map fun e => { e with op := s.nextId }
  nextId : t.nextId = s.nextId + 1
  other_dies : OtherDies a.die s t
  jobs : t.jobs.map jobRest = s.jobs.map jobRest
  other_jobs : ∀ k ∈ s.jobs, k.id ≠ j.id → k ∈ t.jobs

/-! ### Cluster operations -/

/-- What every cluster operation asks for before the checks of its own: a mask, operands that exist, ring slots that are filled, room on the
scoreboard (for the `extra` places too), and sources `xs` that are clean, sound and of one ring, domain, level and tag, in a registered chain `c` (R56, R57, R113 to R115,
R226, R230, R237, R244). -/
structure CluReady (s : State) (a : Site) (mask : BitVec 8) (j : Job) (srcs dsts : List Loc) (c : Chain) (xs : List Src) (slots : List Nat)
    (es : List SbEntry) (extra : List Loc := []) : Prop where
  ready : Ready s a j
  clusters : mask ≠ 0
  sources : ∀ l ∈ srcs, locCheck s a.die l = .pass
  places : ∀ l ∈ dsts, dstCheck s a.die l = .pass
  rings : ringCheck s a.die (ringUses srcs) = none
  filled : ringSlots s a.die (ringUses srcs) = some slots
  admitted : ∃ m, sbAdmit s a.die (locRanges s a.die false srcs ++ locRanges s a.die true (dsts ++ extra)) = some (es, m)
  found : xs = findSrcs s a.die srcs slots
  given : xs ≠ []
  clean : ∀ x ∈ xs, x.poison = none ∧ x.header.poisoned = false
  sound : ∀ x ∈ xs, headerSound x.hdr = true ∧ headerInRange x.header = true ∧ x.header.share = false ∧ x.header.seeded = false
  alike : ∀ x ∈ xs, ∀ y ∈ xs, sameRing x.header y.header = true ∧ x.header.ntt = y.header.ntt ∧ x.header.level = y.header.level
  chain : ∀ x ∈ xs, chainOf s j.part x.header.chainId = some c ∧ x.header.level < c.qCount ∧ (x.header.scheme = 2 → c.t x.header.tIndex ≠ 0)
  tags : tagCheck (xs.map (·.header)) = true
  extents : ∀ x ∈ xs, srcFits (maskClusters mask) x c.pCount (limbsOf c x.header) = true

/-- The limbs of a source. -/
def limbsAt (s : State) (a : Site) (mask : BitVec 8) (c : Chain) (x : Src) : PolyBody :=
  srcBody s a.die (maskClusters mask) x (limbsOf c x.header)

/-- The releasing ring operands have taken their slots (R244). -/
def TookSlots (d : DieIx) (us : List (Nat × Bool)) (s t : State) : Prop :=
  ∀ r, ringOf t d r = { ringOf s d r with take := Nat.repeat inc32 (us.filter fun u => u.2 && u.1 == r).length (ringOf s d r).take }

/-- What a cluster operation leaves of its die as it was. -/
def cluRest (x : Die) : Die :=
  { x with scratch := [], bufs := [], bufSecret := [], slots := [], rings := [], ops := [], scoreboard := [], counters := [] }

/-- Between `s` and `t` a cluster operation with source headers `hs` wrote results to its destinations and went in flight. Its releasing ring
operands took their slots (R244), `n` key streams of key-set slot `slot` were counted (R90), and a result that is newly degraded was logged
(R61). -/
structure CluDone (a : Site) (mask : BitVec 8) (j : Job) (srcs dsts : List Loc) (hs : List Header) (results : List (Header × PolyBody))
    (slot n : Nat) (es : List SbEntry) (s t : State) : Prop where
  landed : let u := (dsts.zip results).foldl (fun s x => putObj a.die (maskClusters mask) x.1 x.2.1 x.2.2 s) s
    (dieOf t a.die).scratch = (dieOf u a.die).scratch ∧ (dieOf t a.die).bufs = (dieOf u a.die).bufs ∧
    (dieOf t a.die).slots = (dieOf u a.die).slots
  flight : ∃ o, InFlight a j 1 es o s t
  takes : TookSlots a.die (ringUses srcs) s t
  die : cluRest (dieOf t a.die) = cluRest (dieOf s a.die)
  streams : ksOf t j.part slot = (if n = 0 then ksOf s j.part slot else { ksOf s j.part slot with
    useCount := ((ksOf s j.part slot).useCount + n) % 2 ^ 64, lastUse := s.hearth.boundaries % 2 ^ 32 })
  keysets : ∀ p k, p ≠ j.part ∨ k ≠ slot → ksOf t p k = ksOf s p k
  parts : ∀ p, { partOfIx t p with log := [], keysets := [] } = { partOfIx s p with log := [], keysets := [] }
  event : if newlyDegraded hs (results.map (·.1)) then Logged 0x0204 (evJob j a 1 0 false) s t else t.log = s.log
  frame : Frame (logAreas ++ [.dies, .parts, .jobs, .nextId]) s t

/-- The digits of a set's key of a kind and Galois element, as the bellows streams them at a level (R70, R93). -/
def keyOf (s : State) (d : DieIx) (c : Chain) (k : KeySet) (kind g level : Nat) : List KeyDigit :=
  match findKey k kind g with
  | some e => keyDigits s d c k e level
  | none => []

/-- The binding check passes for a stream of a kind and Galois element at a level (R94). -/
structure KeyBound (d : DieIx) (k : KeySet) (h : Header) (kind g level : Nat) : Prop where
  resident : k.state = .resident
  home : k.homeMask.getLsbD d.val = true
  tag : k.tag = h.keysetTag
  ring : k.paramSet = h.paramSet ∧ k.scheme = h.scheme ∧ k.logN = h.logN ∧ k.chainId = h.chainId
  key : ∃ e, findKey k kind g = some e ∧ level ≤ e.topLevel

/-- What an operation on the scratchpad leaves of its die as it was. -/
def scratchRest (x : Die) : Die := { x with scratch := [], ops := [], scoreboard := [], counters := [] }

/-! ### Share operations -/

/-- What every share operation asks for: its handles are valid and back no ring, destinations of shares are secret-marked, nothing is poisoned,
the share operands are objects of 2^n elements of session `x` in `slot`, and every handle has the rows (R114, R149 to R153, R230, R237). -/
structure ShrReady (s : State) (a : Site) (mask : BitVec 8) (j : Job) (shares clears secretDsts clearDsts : List Nat) (x : Session) (slot n : Nat)
    (es : List SbEntry) : Prop where
  ready : Ready s a j
  clusters : mask ≠ 0
  handles : ∀ h ∈ shares ++ clears ++ secretDsts ++ clearDsts, (handleOf s a.die h).valid = true ∧ (handleOf s a.die h).ring = false
  secret : ∀ h ∈ secretDsts, (handleOf s a.die h).isSecret = true
  admitted : ∃ m, sbAdmit s a.die ((shares ++ clears).map (fun h => handleRange s a.die h 0 (handleOf s a.die h).rows false) ++
    (secretDsts ++ clearDsts).map fun h => handleRange s a.die h 0 (handleOf s a.die h).rows true) = some (es, m)
  clean : ∀ h ∈ shares ++ clears, (handleOf s a.die h).poisoned = false
  session : sessionOf s j.part slot = some x
  chain : x.ring = 1 → (chainOf s j.part x.chainId).isSome = true
  objects : ∀ h ∈ shares, shareHeadOk (shareHdr s a.die h) = true ∧ (headerOfBytes (shareHdr s a.die h)).poisoned = false ∧
    shareMatches x (headerOfBytes (shareHdr s a.die h)) = true ∧ (headerOfBytes (shareHdr s a.die h)).logN = n ∧
    (headerOfBytes (shareHdr s a.die h)).logSlots = slot
  rows : ∀ h ∈ shares ++ secretDsts, 1 + shareRows x.ring n ≤ (handleOf s a.die h).rows
  clear_rows : ∀ h ∈ clears ++ clearDsts, 8 * 2 ^ n ≤ (handleOf s a.die h).rows * 288

/-- The bytes of a share object of a session (R149, R150). -/
def shareObject (x : Session) (slot n : Nat) (xs : List Nat) : List Byte :=
  headerBytes { headerZero with formatTag := 0xC711, scheme := x.ring, parts := 1, logN := n, chainId := x.chainId, paramSet := x.paramSet
                                keysetTag := x.tag, logSlots := slot, share := true } ++ List.replicate 224 0 ++ shareBytes x.ring xs

/-- Between `s` and `t` job `j`'s operation failed with an event: it was logged at the operation's site and the job quenched. -/
def OpFailed (d : DieIx) (o : Op) (j : Job) (unit : Nat) (e : Ev) (s t : State) : Prop :=
  LoggedFirst e (evJob j { die := d, queue := o.queue, off := o.off } unit 0 false) s t ∧ JobQuenched j s t ∧ Frame jobQuenchAreas s t

/-! ### Vector operations -/

/-- What every vector operation asks for: an engine, operands of its formats that hold `n` elements and are not poisoned, a destination for
`outN`, ring slots, free registers and room on the scoreboard (R197 to R199, R204, R205, R220, R237, R244, R257). -/
structure VecReady (s : State) (a : Site) (j : Job) (g : Fin 2) (n : Nat) (srcs : List (VOp × VFmt)) (dst : VOp) (dfmt : VFmt) (outN : Nat) (any : Bool)
    (slots : List Nat) (es : List SbEntry) : Prop where
  ready : Ready s a j
  present : engineHere s a.die 3 = true
  sources : ∀ o ∈ srcs, vOperand s a.die o.2 any false o.1 = .pass ∧ vCount s a.die o.2 n false o.1 = .pass ∧ vPoison s a.die g o.2 n o.1 = .pass
  place : vOperand s a.die dfmt any true dst = .pass ∧ vCount s a.die dfmt outN true dst = .pass
  count : n ≤ 65536 ∧ ((∃ z, dst = .tile z) → n ≤ 4096)
  rings : ringCheck s a.die (descRings s a.die (vDescs (srcs.map (·.1)))) = none
  filled : ringSlots s a.die (descRings s a.die (vDescs (srcs.map (·.1)))) = some slots
  registers : scalarBusy s a.die (vScalars (srcs.map (·.1))) = false
  admitted : ∃ m, sbAdmit s a.die (descRanges s a.die false (vDescs (srcs.map (·.1))) ++ descRanges s a.die true (vDescs [dst])) = some (es, m)

/-- The elements of source `i` of a vector operation. -/
def vecIn (s : State) (a : Site) (g : Fin 2) (n : Nat) (srcs : List (VOp × VFmt)) (slots : List Nat) (i : Nat) : List Nat :=
  match srcs[i]? with
  | some o => vRead s a.die g o.2 n ((vRows s a.die (srcs.map (·.1)) slots).getD i 0) o.1
  | none => []

/-- What a vector operation leaves of its die as it was. -/
def vecRest (x : Die) : Die :=
  { x with scratch := [], tiles := [], tilePoison := [], cache := [], cachePoison := [], scalars := [], scalarPoison := [], rings := [], ops := []
           scoreboard := [], counters := [] }

/-- The memories that a vector operation may write are in `t` as in `u`. -/
def VecMem (d : DieIx) (u t : State) : Prop :=
  (dieOf t d).scratch = (dieOf u d).scratch ∧ (dieOf t d).tiles = (dieOf u d).tiles ∧ (dieOf t d).tilePoison = (dieOf u d).tilePoison ∧
  (dieOf t d).cache = (dieOf u d).cache ∧ (dieOf t d).cachePoison = (dieOf u d).cachePoison ∧ (dieOf t d).scalars = (dieOf u d).scalars ∧
  (dieOf t d).scalarPoison = (dieOf u d).scalarPoison

/-- Between `s` and `t` a vector operation wrote the elements `out` to its destination, from position 0 up, and went in flight; nothing else
changed. -/
structure VecDone (a : Site) (j : Job) (g : Fin 2) (srcs : List (VOp × VFmt)) (dst : VOp) (dfmt : VFmt) (out : List (Nat × Nat))
    (es : List SbEntry) (s t : State) : Prop where
  written : VecMem a.die (vWrite a.die g dfmt out dst s) t
  flight : ∃ o, InFlight a j 4 es o s t ∧ o.scalars = vScalars [dst]
  takes : TookSlots a.die (descRings s a.die (vDescs (srcs.map (·.1)))) s t
  die : vecRest (dieOf t a.die) = vecRest (dieOf s a.die)
  frame : Frame [.dies, .counters, .jobs, .nextId] s t

/-! ### Transfers -/

/-- Operations in flight, and the requests that they await, carry identifiers that were given out before. -/
def idsFresh (s : State) : Prop :=
  (∀ d, ∀ o ∈ (dieOf s d).ops, o.id < s.nextId) ∧ ∀ r ∈ s.fabric.requests, r.op < s.nextId

/-- What every transfer asks for before it starts: a tong, a sound source and destination of one kind, nothing poisoned, no secret data bound
elsewhere, filled source slots, a free destination slot, a part that may be asked, room on the scoreboard (R243, R244, R257, R258, R270,
R362, R363). The job's Hallmark lists nothing. -/
structure XferReady (s : State) (a : Site) (mask : BitVec 4) (j : Job) (src dst : Desc) (idx : List Desc) (slots : List Nat) (es : List SbEntry) :
    Prop where
  ready : Ready s a j
  ids : idsFresh s
  unlisted : j.wantHallmark = false
  tongs : mask ≠ 0
  sources : ∀ t ∈ src :: idx, t.recheck s = .pass ∧ t.poison s = none ∧ secretCheck s t dst = .pass ∧ windowCheck s j t = .pass
  place : dst.recheck s = .pass ∧ windowCheck s j dst = .pass ∧ slotFree s dst = true
  kinds : sameKind src dst = true
  rings : ringCheck s a.die ((src :: idx).flatMap srcRing ++ dstRing dst) = none
  filled : ringSlots s a.die ((src :: idx).flatMap srcRing) = some slots
  admitted : ∃ m, sbAdmit s a.die (xferRanges s a.die (src :: idx) [dst]) = some (es, m)

/-- No transfer in flight on a die holds a tong of a mask (R259). -/
def tongsIdle (s : State) (d : DieIx) (m : BitVec 4) : Prop := ∀ p ∈ (dieOf s d).ops, p.xfer.isSome = true → p.tongs &&& m = 0

/-- The state as the tongs take a transfer up: translations of the host pages that it reads are requested, and the dies of its ends are awake
(R271, R333). -/
def takenUp (j : Job) (q : XferReq) (s : State) : State :=
  let s := match hostEnd s j q with | some e => requestPages e.1 e.2 (sourcePages q) s | none => s
  ([q.src, q.dst].filter fun t => decide (t.space ≤ 1)).foldl (fun s t => wakeDie t.dieIx s) s

/-- What a transfer leaves of its die as it was. -/
def xferRest (x : Die) : Die :=
  { x with scratch := [], store := [], storeHandles := [], rings := [], ops := [], scoreboard := [], counters := [] }

/-- A transfer `o` was put in flight with ring sources `us`, and what it has delivered by then stands in memory: `t` is `u` with it. -/
structure XferDone (a : Site) (j : Job) (us : List (Nat × Bool)) (es : List SbEntry) (o : Op) (u t : State) : Prop where
  flight : InFlight a j 6 es o u t
  memory : (dieOf t a.die).scratch = (dieOf u a.die).scratch ∧ (dieOf t a.die).store = (dieOf u a.die).store ∧
    (dieOf t a.die).storeHandles = (dieOf u a.die).storeHandles
  takes : TookSlots a.die us u t
  die : xferRest (dieOf t a.die) = xferRest (dieOf u a.die)
  frame : Frame [.dies, .counters, .jobs, .nextId, .free] u t

/-- A transfer in flight has been planned, and `plans` of it are still to be delivered. -/
def Planned (o : Op) (plans : List Plan) (x : Xfer) : Prop := o.xfer = some x ∧ x.begun = true ∧ x.todo = none ∧ x.plans = plans

/-- A transfer in flight waits for its tongs (R259). -/
def Queued (o : Op) (q : XferReq) : Prop := ∃ x, o.xfer = some x ∧ x.begun = false ∧ x.todo = some q

/-- Between `s` and `t` an instruction of job `j` that names no destination was skipped with an event (R304): the job runs on and will be
withheld. -/
structure Skipped (e : Ev) (j : Job) (a : Site) (unit : Nat) (s t : State) : Prop where
  log : Logged e (evJob j a unit 0 true) s t
  jobs : t.jobs = s.jobs.map fun k => if k.id = j.id then { k with events := k.events + 1, skip := some (k.skip.getD (e, a.off)) } else k
  frame : Frame (.jobs :: logAreas) s t

/-! ### Collectives -/

/-- What a collective with data of operation `op` asks for: its two ends and its descriptor are sound, its members are in the epoch and not
lost, its receive window is open, nothing is poisoned (R371 to R376). -/
structure CollBegins (s : State) (a : Site) (op src dst coll : Nat) (j : Job) (x z : Desc) (es : List SbEntry) : Prop where
  ready : Ready s a j
  unlisted : j.wantHallmark = false
  ends : descOf s a.die src = some x ∧ descOf s a.die dst = some z ∧ x.recheck s = .pass ∧ z.recheck s = .pass ∧ collEnd x = .pass ∧
    collEnd z = .pass ∧ sameKind x z = true ∧ z.zeroStride = false ∧ x.secret s = false
  table : handleUse s a.die coll = none ∧ (handleOf s a.die coll).poisoned = false ∧ collFits s a.die coll = true ∧
    collSound s a.die op (collTable s a.die coll) = true
  members : collMembers s j (collHead (collTable s a.die coll)) = .pass
  counts : let h := collHead (collTable s a.die coll)
    redType h.red x = true ∧ (x.kind = 0 ∨ (x.elems = (collCounts h).1 ∧ z.elems = (collCounts h).2))
  window : collWindow s j (collHead (collTable s a.die coll)) (elemBytes x x.elems) = .pass
  clean : x.poison s = none ∧ (x.kind = 0 → (objHead s x 0).poisoned = false)
  admitted : ∃ m, sbAdmit s a.die (handleRange s a.die coll 0 (handleOf s a.die coll).rows false :: xferRanges s a.die [x] [z]) = some (es, m)

/-! ### Messages of the part -/

/-- A message that leaves by port `n` on a channel (R347). -/
def OnPort (v : Sent) (n : PortIx) (vc : Nat) : Prop := v.port = some n ∧ v.vc = vc

/-- The twin port is port `n` and is UP, so that what it carries leaves (R345, R346, R403). -/
structure TwinSends (s : State) (n : PortIx) : Prop where
  port : s.twin.port = n.val
  up : (portOf s n).state = .up
  calm : s.alarm.device = false

/-- The entries of a table stand in ascending order of their keys. -/
def Rising {α : Type} (t : Tbl α) : Prop := t.Pairwise fun a b => a.1 < b.1

/-! ### Dictionary writes -/

/-- A WRITE of the bytes `bs` to sub-index `k` of object `i`, from the host, that this part serves in mission mode (R484 to R487, R491). -/
structure HostWrites (s : State) (r : FpReq) (i k : Nat) (bs : List Byte) : Prop where
  served : Served s r .host
  mission : s.boot.fwState = 2 ∧ s.alarm.device = false
  request : r.opcode = 2 ∧ r.index = i ∧ r.sub = k ∧ r.data = bs

/-- The state `u`, in which a request was then answered with a status. -/
def answered (r : FpReq) (status : Nat) (u : State) : State := { u with out := u.out ++ [responseOf r (.only status)] }

end Sys2Proof.Machine
end

