-- ==== Sys2Proof/Certificates/Slice0/Obligations.lean ====
section
/-! DEFINITION. The statements for the provers, each from the rules that its docstring names. -/

open Sys2Proof Sys2Proof.Machine

/-- A step takes the command at the front of the queue and runs it on the rest (the block's own rule: first in, first out). -/
def Obligations.StepRunsFrontCommand : Prop :=
  ∀ (s : State) (c : Instr) (rest : List Instr), s.pending = c :: rest → step s = exec c { s with pending := rest }

/-- The model's choice of what a step does on an empty queue (log 4): with no instruction held, no job and no packet read, the block idles; with every
queue settled, the oldest held instruction issues again where it can, as R237 has a held instruction issue once what held it is gone. -/
def Obligations.IdleStep : Prop :=
  (∀ s : State, s.pending = [] → s.held = [] → s.jobs = [] → (∀ d, (dieOf s d).ops = []) → (∀ d q, (queueOf s d q).line = []) →
      (∀ p, ∀ e ∈ (partOfIx s p).keysets, e.2.state ≠ .evicting) → (∀ p, ∀ e ∈ (partOfIx s p).sessions, e.2.outDeals = []) → step s = .next s) ∧
  (∀ (s u t : State) (h : Held) (rest : List Held), s.pending = [] → u = readyHeads (flushAllDeals (startAllTongs (settleDies allDies s))) →
      u.held = h :: rest → exec h.instr { u with reissue := some h } = .next t → (∀ x ∈ t.held, x.age ≠ h.age) →
      step s = .next (readyHeads { t with reissue := none }))

/-- What reset leaves where the spec gives the value (R225, R242, R250, R280, R301, R313, R339, R345, R364, R380, R388, R402, R454, R461, R467, R497,
R498, R509, R510, R517), whatever the fuses: of these the active dies of the grade (R5, R6, R34) and the catalogue of 96 primes (R38, R39) are as the
spec says. -/
def Obligations.ResetValues : Prop :=
  let s := State.reset
  s.boot.phase = .selfCheck ∧ s.boot.fwState = 0 ∧ s.boot.goTaken = false ∧ s.sec.state = .boot ∧ s.sec.identSk = none ∧ s.alarm.device = false ∧
  s.alarm.quenchLow = false ∧ s.log.entries = [] ∧ s.log.seq = 0 ∧ s.dict.masks = List.replicate 4 0x1F ∧ s.jobs = [] ∧ s.pending = [] ∧
  (∀ p, (partOfIx s p).state = .free ∧ (partOfIx s p).role = .none ∧ (partOfIx s p).entry = leBytes 8 0 ++ [0x2C, 0x42, 0x66, 0x48, 0x04, 0, 0, 0] ++ List.replicate 48 0 ∧
    (partOfIx s p).importKey = none ∧ (∀ k, (ksOf s p k).state = .free) ∧ (partOfIx s p).quenchCount = 0) ∧
  (∀ d, (dieOf s d).owner = none ∧ (∀ h, (handleOf s d h).valid = false) ∧ (∀ h, (storeOf s d h).valid = false) ∧ (∀ r, (ringOf s d r).active = false) ∧
    (∀ f, flagSetP s d f = false) ∧ (dieOf s d).scoreboard = [] ∧ (dieOf s d).thermal = 16 ∧ (dieOf s d).brake = 16 ∧
    ∀ q, (queueOf s d q).pos = 0 ∧ (queueOf s d q).seq = 1 ∧ (queueOf s d q).enabled = false ∧ (queueOf s d q).crLog2 = 0 ∧ (queueOf s d q).window = []) ∧
  (∀ n, (portOf s n).state = .down ∧ (portOf s n).enabled = true ∧ (portOf s n).weights = [7, 8, 1] ∧ (portOf s n).encEnable = false ∧
    (portOf s n).keyState = .off ∧ (portOf s n).sendKey = none ∧ (portOf s n).recvKey = none) ∧
  (∀ h, (hostOf s h).enabled = false ∧ (hostOf s h).linkUp = false ∧ ∀ f, tblGetD (hostOf s h).apertures f 0 = 0) ∧
  (∀ w, (windowOf s w).opened = false ∧ (windowOf s w).gen = 0) ∧ s.fabric.valid = false ∧ s.fabric.collTimeout = 10000 ∧
  s.twin.port = 0xFF ∧ s.twin.state = .unpaired ∧ s.twin.armed = false ∧ s.hearth.period = 250 ∧ s.hearth.thermalLimit = 105 ∧
  s.hearth.sustained = (if partFuses.grade = .h then 1150 else 1500) ∧ s.hearth.short = (if partFuses.grade = .h then 1265 else 1650) ∧
  s.hearth.duration = 2000 ∧ s.bist.grace = 100 ∧ s.bist.phase = 0 ∧ s.fuses = partFuses ∧ maskOk s.fuses.grade s.fuses.activeMask = true ∧ Catalogue s.fuses.primes ∧ memsOk s ∧ idsFresh s

/-- PWROK rising sets every VCORE to its fused setpoint over AVSBus (R506). A PWROK that falls, with SYS_RESET# high or low, puts the part into reset
at once: every secret and every content of SRAM is lost, QUENCH# is released, and no repair record is sealed (R508). The fuses and the waiting
commands stay. -/
def Obligations.PowerOkEdges : Prop :=
  ∀ s : State,
    (s.pins.pwrok = false → ∃ t, exec .pwrokRise s = .next t ∧ t.pins.pwrok = true ∧
      t.pins.vcoreSet = (List.range 16).map (fun n => s.fuses.vcore.getD n 0) ∧
      t.out = s.out ++ (List.range 16).map (fun n => Output.avs n (s.fuses.vcore.getD n 0)) ∧
      t.pins.resetLow = s.pins.resetLow ∧ Frame [.pins, .out] s t) ∧
    (s.pins.pwrok = true → ∃ t, exec .pwrokFall s = .next t ∧ t.pins.pwrok = false ∧ t.boot.phase = .off ∧
      t.alarm.quenchLow = false ∧ t.alarm.thermtrip = false ∧ t.bist.recordOut = [] ∧ t.fuses = s.fuses ∧
      (∀ d, dieOf t d = Die.zero) ∧ (∀ p, partOfIx t p = Partition.zero) ∧ (∀ n, portOf t n = Port.zero) ∧
      t.sec = (resetOf s.fuses).sec ∧ t.bn = (resetOf s.fuses).bn ∧ t.boot.staging = [[], []] ∧ t.jobs = [] ∧ t.pending = s.pending)

/-- Reset clears everything except the fuses, for a part in any state; when SYS_RESET# is released the anchor self-check begins (R509, R517). -/
def Obligations.SystemReset : Prop :=
  ∀ s : State, s.pins.pwrok = true → ∃ t u, exec .sysResetAssert s = .next t ∧ exec .sysResetRelease t = .next u ∧
    t.pins.resetLow = true ∧ t.boot.phase = .off ∧ t.alarm.quenchLow = false ∧
    u.pins.resetLow = false ∧ u.boot = (resetOf s.fuses).boot ∧ u.fuses = s.fuses ∧ u.alarm = (resetOf s.fuses).alarm ∧ u.sec = (resetOf s.fuses).sec ∧
    u.log = (resetOf s.fuses).log ∧ u.dict = (resetOf s.fuses).dict ∧ u.parts = (resetOf s.fuses).parts ∧ u.dies = (resetOf s.fuses).dies ∧
    u.jobs = [] ∧ u.hearth = (resetOf s.fuses).hearth ∧ u.fabric = Fabric.zero ∧ u.ports = (resetOf s.fuses).ports ∧
    u.hostA = HostPort.zero ∧ u.hostB = HostPort.zero ∧ u.twin = Twin.zero ∧ u.bn = (resetOf s.fuses).bn ∧ u.bist = (resetOf s.fuses).bist ∧
    u.held = [] ∧ u.pins.smbAlert = false

/-- The anchor self-check derives the identity and enables both host ports, or quenches the device; the first GO is taken and later ones are refused
with STATE (R415, R421, R510, R517). Verification (R418, R419): the first of the five checks that fails is recorded and quenches the device; an image
that passes them all runs. Signatures are uninterpreted (log 10), and DETAIL 0 of an anchor difference is the model's reading (log 80). -/
def Obligations.BootAndVerification : Prop :=
  (∀ s : State, s.alarm.device = false →
      (s.boot.phase = .selfCheck →
        (∃ t, exec (.selfCheckComplete .pass) s = .next t ∧ t.boot = { s.boot with phase := .waitImage } ∧
          t.hostA = { s.hostA with enabled := true } ∧ t.hostB = { s.hostB with enabled := true } ∧
          (let k := Config.slhKeygen (kdfCounter s.fuses.deviceSecret (ascii "ZS-GH64-IDENT1") s.fuses.uniqueId 384)
           t.sec = { s.sec with identPk := bytesAt k.1 0 32, identSk := some k.2 }) ∧ Frame [.boot, .sec, .hosts] s t) ∧
        (∃ t, exec (.selfCheckComplete .anchorsDiffer) s = .next t ∧ LoggedFirst 0x0803 (evAt 0 none 0x0B 0) s t ∧
          DeviceQuenched 0x0803 .internal s t) ∧
        (∃ t, exec (.selfCheckComplete .entropyFails) s = .next t ∧ LoggedFirst 0x0804 (evAt 0 none 0x0B 0) s t ∧
          DeviceQuenched 0x0804 .internal s t)) ∧
      ∀ (r : FpReq) (port : HostId), Served s r .host → r.via = .pcie port 0 → r.opcode = 2 → r.index = 0x1F00 → r.sub = 2 → r.data.length = 4 →
        8256 ≤ leNat r.data → leNat r.data ≤ 33554432 →
        (s.boot.phase = .waitImage → s.boot.goTaken = false → ∃ t, exec (.go r) s = .next t ∧
          t.boot = { s.boot with phase := .verifying, fwState := 1, goTaken := true, goPort := (match port with | .a => 0 | .b => 1)
                                 imageLength := leNat r.data } ∧
          t.out = s.out ++ [responseOf r (.only 0)] ∧ Frame [.boot, .out] s t) ∧
        (s.boot.phase ≠ .waitImage ∨ s.boot.goTaken = true → ∃ t, exec (.go r) s = .next t ∧
          t.out = s.out ++ [responseOf r (.only 7)] ∧ Frame [.out] s t)) ∧
  (∀ (s : State) (parity : Bool), s.alarm.device = false → s.boot.phase = .verifying →
      let b := memBytes (s.boot.staging.getD s.boot.goPort []) 0 s.boot.imageLength
      let keyBad : Bool := s.fuses.revoked.getLsbD (fieldAt b 6 1) || sha256 (bytesAt b 0x40 32) != s.fuses.keyHash.getD (fieldAt b 6 1) []
      let digestBad : Bool := parity || sha256 (b.drop 0x2000) != bytesAt b 0x20 32
      let signed : Bool := Config.slhVerify (bytesAt b 0x40 32) (bytesAt b 0 0x60) (bytesAt b 0x60 7856)
      let old : Prop := fieldAt b 0x0C 4 < rollbackCount s.fuses.rollback
      let fails (n : Nat) (e : Ev) : Prop := ∃ t, exec (.verificationComplete parity) s = .next t ∧ LoggedFirst e (evAt 0 none 0x0B 0) s t ∧
        DeviceQuenched e .internal { s with boot := { s.boot with fwState := 3, failedCheck := n } } t
      (imageShapeOk b = false → fails 1 0x0801) ∧
      (imageShapeOk b = true → keyBad = true → fails 2 0x0801) ∧
      (imageShapeOk b = true → keyBad = false → digestBad = true → fails 3 0x0801) ∧
      (imageShapeOk b = true → keyBad = false → digestBad = false → signed = false → fails 4 0x0801) ∧
      (imageShapeOk b = true → keyBad = false → digestBad = false → signed = true → old → fails 5 0x0802) ∧
      (imageShapeOk b = true → keyBad = false → digestBad = false → signed = true → ¬old → ∃ t,
        exec (.verificationComplete parity) s = .next t ∧ t.sec = { s.sec with state := .operational } ∧
        t.boot = { s.boot with fwState := 2, phase := .waitRecord, imageDigest := sha256 (bytesAt b 0 0x60), fwVersion := fieldAt b 8 4
                               fwRollback := fieldAt b 0x0C 4, keySlot := fieldAt b 6 1, revoke := fieldAt b 7 1 } ∧
        (s.pins.pwrbrk = false → Frame [.boot, .sec] s t) ∧
        (s.pins.pwrbrk = true → Logged 0x0701 (evAt 0 none 0x0B 0) s t ∧ Frame ([.boot, .sec, .dies] ++ logAreas) s t ∧
          ∀ d, { dieOf t d with counters := [] } = { dieOf s d with counters := [], brake := if dieActive s d then 4 else (dieOf s d).brake })))

/-- Every internal cause of a device quench logs its event and quenches the device; a write of 0x5A to object 0x6100:06 quenches it as well, and so
does QUENCH# held low for 100 ns while the part does not drive it (R22, R23, R235, R428, R461, R463, R469, R512, R513). The structures 7 and 9 of a
clock and of a supply are the model's reading (log 72). -/
def Obligations.DeviceQuenchCauses : Prop :=
  ∀ s : State, s.alarm.device = false →
    (∀ d, s.boot.fwState = 2 → ∃ t, exec (.thermtrip d) s = .next t ∧ LoggedFirst 0x0703 (evAt d none 0x0B 0) s t ∧
      DeviceQuenched 0x0703 .internal { s with alarm := { s.alarm with thermtrip := true } } t) ∧
    (∀ d, s.boot.fwState ≠ 2 → ∃ t, exec (.thermtrip d) s = .next t ∧ t.alarm = { s.alarm with thermtrip := true } ∧ Frame [.alarm] s t) ∧
    (s.boot.phase ≠ .off →
      (∀ d k, ∃ t, exec (.controlParity d k) s = .next t ∧ LoggedFirst 0x0304 (evAt d none (controlUnit k) k) s t ∧
        DeviceQuenched 0x0304 .internal s t) ∧
      (∀ n a b, a ≠ b → ∃ t, exec (.anchorCompare n a b) s = .next t ∧ LoggedFirst 0x0803 (evAt 0 none 0x0B n) s t ∧
        DeviceQuenched 0x0803 .internal s t) ∧
      (∀ n a, exec (.anchorCompare n a a) s = .next s) ∧
      (∀ n, ∃ t, exec (.anchorCompareTimeout n) s = .next t ∧ LoggedFirst 0x0803 (evAt 0 none 0x0B (n + 2 ^ 31)) s t ∧
        DeviceQuenched 0x0803 .internal s t) ∧
      (∀ d, ∃ t, exec (.entropyFail d) s = .next t ∧ LoggedFirst 0x0804 (evAt d none 0x0B 0) s t ∧ DeviceQuenched 0x0804 .internal s t)) ∧
    (s.boot.fwState = 2 →
      (∀ (d : DieIx) (ppm : Int), 20000 < ppm.natAbs → ∃ t, exec (.clockCheck d ppm) s = .next t ∧
        LoggedFirst 0x0901 (evAt d none 0x0B (d.val + 256 * 7)) s t ∧ (d.val, 7, 0) ∈ t.bist.results ∧
        DeviceQuenched 0x0901 .internal { s with bist := t.bist } t) ∧
      (∀ (d : DieIx) (ppm : Int), ppm.natAbs ≤ 20000 → exec (.clockCheck d ppm) s = .next s) ∧
      (∀ d x, 150 < x → ∃ t, exec (.supplyCheck d x) s = .next t ∧ LoggedFirst 0x0901 (evAt d none 0x0B (d.val + 256 * 9)) s t ∧
        (d.val, 9, 0) ∈ t.bist.results ∧ DeviceQuenched 0x0901 .internal { s with bist := t.bist } t) ∧
      (∀ d x, x ≤ 150 → exec (.supplyCheck d x) s = .next s) ∧
      (∀ n, 100 ≤ n → s.alarm.quenchLow = false → ¬(s.twin.state = .paired ∧ s.twin.armed = true) → ∃ t,
        exec (.quenchInput n) s = .next t ∧ LateOnly s t ∧ DeviceQuenched 0 .external s t) ∧
      (∀ r c, Served s r c → (c = .host ∨ c = .bmc) → r.opcode = 2 → r.index = 0x6100 → r.sub = 6 → r.data = [0x5A] → ∃ t,
        exec (.deviceQuenchCommand r) s = .next t ∧ LateOnly s t ∧ DeviceQuenched 0 .command s t)) ∧
    (∀ n, n < 100 ∨ s.alarm.quenchLow = true ∨ s.boot.fwState ≠ 2 → exec (.quenchInput n) s = .next s)

/-- The repair record at start (R475, R518, R522): a record that authenticates and carries no flag is applied, and the retention check follows; one
that is declared absent, fails its checks or does not come within 5 s leads to the MEMORY phase, with 0x0903 logged. A flagged record quenches the
device. The part is ready once the retention check is over (R517, step 5); a row that failed it is held out as a parity error in its structure is
(R234, R278, R456). The record body is uninterpreted (log 77) and the statuses are the model's readings (log 78). -/
def Obligations.StartUpRepair : Prop :=
  (∀ s : State, s.alarm.device = false → s.boot.phase = .waitRecord →
      let tested (i : Instr) (status : Nat) (ss : List FpSession) : Prop := ∃ t, exec i s = .next t ∧ Logged 0x0903 (evAt 0 none 0x0D 0) s t ∧
        t.boot = { s.boot with phase := .memoryTest } ∧ t.bist = { s.bist with status := status, phase := 4 } ∧
        t.dict = { s.dict with sessions := ss } ∧ Frame ([.boot, .bist, .dict] ++ logAreas) s t
      (s.bist.recordIn = none →
        tested .repairRecordWaitExpiry 0 (s.dict.sessions.filter fun x => !(x.index == 0x7010 && x.sub == 1)) ∧
        exec .repairRecord s = .next s) ∧
      (s.bist.recordIn = some [] → tested .repairRecord 0 s.dict.sessions ∧ exec .repairRecordWaitExpiry s = .next s) ∧
      ∀ b, s.bist.recordIn = some b → b ≠ [] →
        let key := kdfCounter s.fuses.deviceSecret (ascii "ZS-GH64-REPAIR1") s.fuses.uniqueId 256
        let n := fieldAt b 0x18 4
        let shape : Prop := fieldAt b 0 2 = 0xC7F5 ∧ fieldAt b 2 1 = 1 ∧ bytesAt b 4 16 = bytesAt s.fuses.uniqueId 0 16 ∧ n ≤ 1048576 ∧
          b.length = 0x40 + n + 16
        let body := gcmOpen key (bytesAt b 0x1C 12) (bytesAt b 0 0x40) (bytesAt b 0x40 n) (bytesAt b (0x40 + n) 16)
        (¬shape ∨ body = none → tested .repairRecord 2 s.dict.sessions) ∧
        (∀ m, shape → body = some m → bitOf (fieldAt b 3 1) 0 = true → ∃ t, exec .repairRecord s = .next t ∧
          DeviceQuenched 0x0901 .internal { s with bist := { s.bist with status := 2 } } t) ∧
        (∀ m, shape → body = some m → bitOf (fieldAt b 3 1) 0 = false → bitOf (fieldAt b 3 1) 1 = true → ∃ t, exec .repairRecord s = .next t ∧
          DeviceQuenched 0x0902 .internal { s with bist := { s.bist with status := 2 } } t) ∧
        (∀ m, shape → body = some m → bitOf (fieldAt b 3 1) 0 = false → bitOf (fieldAt b 3 1) 1 = false → ∃ t, exec .repairRecord s = .next t ∧
          t.boot = { s.boot with phase := .retention } ∧ t.bist.status = 1 ∧ t.bist.recordSeq = fieldAt b 0x14 4 ∧
          t.bist.repairs = (Config.repairList m).1 ∧
          (∀ (d : DieIx) (row : Nat), (d.val, 1, row) ∈ (Config.repairList m).2 → row ∈ (dieOf t d).heldOut) ∧
          (∀ (d : DieIx) (row : Nat), (d.val, 4, row) ∈ (Config.repairList m).2 → row ∈ (dieOf t d).heldOutStore) ∧
          t.log = s.log ∧ Frame [.boot, .bist, .dies, .counters] s t)) ∧
  (∀ s : State, s.alarm.device = false → s.boot.phase = .retention →
      (∃ t, exec (.ready []) s = .next t ∧ t.boot = { s.boot with phase := .ready } ∧ Frame [.boot] s t) ∧
      (∀ (d : DieIx) (row : Nat), ∃ t, exec (.ready [⟨d, 1, row⟩]) s = .next t ∧ t.boot = { s.boot with phase := .ready } ∧
        Logged 0x0301 (evAt d none 7 row) s t ∧ row ∈ (dieOf t d).heldOut ∧ (d.val, 1, row) ∈ t.bist.results ∧
        Frame ([.boot, .bist, .dies] ++ logAreas) s t) ∧
      (∀ (d : DieIx) (row : Nat), ∃ t, exec (.ready [⟨d, 4, row⟩]) s = .next t ∧ t.boot = { s.boot with phase := .ready } ∧
        Logged 0x0302 (evAt d none 8 row) s t ∧ row ∈ (dieOf t d).heldOutStore ∧ (d.val, 4, row) ∈ t.bist.results ∧
        Frame ([.boot, .bist, .dies] ++ logAreas) s t) ∧
      (∀ (d : DieIx) (row : Nat), ∃ t, exec (.ready [⟨d, 5, row⟩]) s = .next t ∧ (d.val, 5, row) ∈ t.bist.results ∧
        DeviceQuenched 0x0304 .internal { s with bist := t.bist } t))

/-- PERST#, a link-down and an FLR quench the partitions that the port or the function owns, on this part and, through a message, on the parts of its
benches, and no other; a port trains once its boot ROM has enabled it (R385, R510). What an FLR leaves and its message to members are the model's
readings (logs 69 and 102). -/
def Obligations.HostLinks : Prop :=
  ∀ (s : State) (h : HostId),
    (∀ w, (hostOf s h).enabled = true → s.pins.perst.getD (match h with | .a => 0 | .b => 1) false = false → w ∈ [1, 4, 8, 16] → ∃ t,
      exec (.hostLinkUp h w) s = .next t ∧ hostOf t h = { hostOf s h with linkUp := true, width := w } ∧
      (∀ k, k ≠ h → hostOf t k = hostOf s k) ∧ Frame [.hosts] s t) ∧
    (∀ w, (hostOf s h).enabled = false ∨ s.pins.perst.getD (match h with | .a => 0 | .b => 1) false = true →
      exec (.hostLinkUp h w) s = .next s) ∧
    (let hit (g : Option Nat) (f : Nat → Prop) (p : PartIx) : Prop := (partOfIx s p).state ≠ .free ∧ (partOfIx s p).ownerPort = h ∧
        f (partOfIx s p).ownerFn ∧
        match g with | none => (partOfIx s p).memberSlot = 0 | some n => (partOfIx s p).memberSlot ≠ 0 ∧ (partOfIx s p).ownerPart = n
     let quenches (g : Option Nat) (f : Nat → Prop) (t : State) : Prop :=
        (∀ p, hit g f p → (partOfIx t p).quenchEvent = 0 ∧ (partOfIx t p).quenchCount = (partOfIx s p).quenchCount + 1 ∧
          (∃ e, (partOfIx t p).quenching = some (e, true)) ∧
          ∀ d q, (dieOf s d).owner = some p → (queueOf t d q).quenched = true ∧ (queueOf t d q).enabled = false ∧
            (queueOf t d q).crBase = 0 ∧ (queueOf t d q).crLog2 = 0 ∧ (queueOf t d q).crHead = 0 ∧ (queueOf t d q).crTail = 0 ∧
            (queueOf t d q).vector = 0 ∧ (queueOf t d q).consumed = 0) ∧
        ∀ p, ¬hit g f p → (partOfIx t p).quenchCount = (partOfIx s p).quenchCount ∧ (partOfIx t p).quenching = (partOfIx s p).quenching
     let told (f : Nat → Prop) (t : State) : Prop := ∀ r ∈ (hostOf s h).slotsHeld, ∀ n, f r.fn → s.alarm.device = false →
        wayTo s (hostDie h) r.part 0 = .port n →
        Output.forwardedReset { port := some n, vc := 0, head := msgHead s .bench (hostDie h) r.part 0 } r ∈ t.out
     (∀ i, i = Instr.linkDown ⟨h, none⟩ ∨ i = Instr.perst h true → ∃ t, exec i s = .next t ∧ (hostOf t h).linkUp = false ∧
        (hostOf t h).unmasked = [] ∧ (hostOf t h).cached = [] ∧ quenches none (fun _ => True) t ∧ told (fun _ => True) t) ∧
     (∀ fn, ∃ t, exec (.functionLevelReset ⟨h, none⟩ fn) s = .next t ∧ (hostOf t h).linkUp = (hostOf s h).linkUp ∧
        (hostOf t h).apertures = (hostOf s h).apertures ∧ (∀ v ∈ (hostOf t h).unmasked, v / 4096 ≠ fn) ∧
        quenches none (· = fn) t ∧ told (· = fn) t) ∧
     (∀ g, ∃ t, exec (.linkDown ⟨h, some g⟩) s = .next t ∧ (hostOf t h).linkUp = (hostOf s h).linkUp ∧ quenches (some g) (fun _ => True) t) ∧
     (∀ g fn, ∃ t, exec (.functionLevelReset ⟨h, some g⟩ fn) s = .next t ∧ (hostOf t h).unmasked = (hostOf s h).unmasked ∧
        quenches (some g) (· = fn) t)) ∧
    (∃ t, exec (.perst h false) s = .next t ∧ t.pins.perst = s.pins.perst.set (match h with | .a => 0 | .b => 1) false ∧ Frame [.pins] s t)

/-- The brake and the droop detector (R318): PWRBRK# sets the brake source of every active die to 4 and logs 0x0701; a droop halves the effective
limit of each heavy class and is counted. Before the image runs PWRBRK# has no effect but its level (R514). An idle die enters the deepest state whose
exit latency its partition tolerates and whose entry delay has passed, and none deeper than I2 while it holds a valid secret-marked handle (R231,
R332). -/
def Obligations.BrakeDroopAndIdle : Prop :=
  (∀ s : State,
      (s.pins.pwrbrk = false → s.boot.fwState = 2 → ∃ t, exec .pwrbrkAssert s = .next t ∧ t.pins.pwrbrk = true ∧
        Logged 0x0701 (evAt 0 none 0x0B 0) s t ∧ Frame ([.pins, .dies] ++ logAreas) s t ∧
        ∀ d, { dieOf t d with counters := [] } = { dieOf s d with counters := [], brake := if dieActive s d then 4 else (dieOf s d).brake }) ∧
      (s.pins.pwrbrk = false → s.boot.fwState ≠ 2 → exec .pwrbrkAssert s = .next { s with pins := { s.pins with pwrbrk := true } }) ∧
      exec .pwrbrkDeassert s = .next { s with pins := { s.pins with pwrbrk := false } } ∧
      ∀ d, (∃ t, exec (.droop d) s = .next t ∧ tblGetD (dieOf t d).counters 5 0 = tblGetD (dieOf s d).counters 5 0 + 1 ∧
          { dieOf t d with counters := [] } = { dieOf s d with
            counters := [], drooping := true
            droopSrc := (List.range 6).map fun c =>
              let x := dieOf s d
              let l := Nat.min (Nat.min (Nat.min (Nat.min (Nat.min s.hearth.cap (x.clampSrc.getD c 16)) x.thermal) (x.droopSrc.getD c 16)) x.brake) x.paceSrc
              if l / 2 = 0 then 1 else l / 2 } ∧
          OtherDies d s t ∧ t.log = s.log ∧ Frame [.dies, .counters] s t) ∧
        ∃ t, exec (.droopClear d) s = .next t ∧ dieOf t d = { dieOf s d with drooping := false } ∧ (∀ e, e ≠ d → dieOf t e = dieOf s e) ∧
          Frame [.dies] s t) ∧
  (∀ (s : State) (d : DieIx) (us : Nat), dieActive s d = true → dieIdle s d = true →
      let tol := match (dieOf s d).owner with | some p => (partOfIx s p).tolerance | none => 6000
      let secret := ∃ e ∈ (dieOf s d).handles, e.2.valid = true ∧ e.2.isSecret = true
      ∃ t k, exec (.idleEntry d us) s = .next t ∧ dieOf t d = { dieOf s d with idle := Nat.max (dieOf s d).idle k } ∧
        (∀ e, e ≠ d → dieOf t e = dieOf s e) ∧ Frame [.dies] s t ∧
        (k = 4 ↔ (6000 ≤ tol ∧ 40000 ≤ us ∧ ¬secret)) ∧
        (k = 3 ↔ (1500 ≤ tol ∧ 4000 ≤ us ∧ ¬secret) ∧ ¬(6000 ≤ tol ∧ 40000 ≤ us)) ∧
        (k = 2 ↔ (40 ≤ tol ∧ 100 ≤ us) ∧ ¬(1500 ≤ tol ∧ 4000 ≤ us ∧ ¬secret)) ∧
        (k = 1 ↔ (1 ≤ tol ∧ 2 ≤ us) ∧ ¬(40 ≤ tol ∧ 100 ≤ us)) ∧
        (k = 0 ↔ ¬(1 ≤ tol ∧ 2 ≤ us)))

/-- SYNC_IN (R329, R330, R514): an edge within a quarter period of the expected boundary and 20 µs after the last, or any edge in free run, is
accepted, and an early one is the boundary; others are counted; eight periods without one set FREE_RUN and log 0x0705. -/
def Obligations.SyncEdges : Prop :=
  ∀ (s : State) (off : Int) (since : Nat),
    (s.hearth.syncIn = true → s.boot.fwState = 2 →
      (s.hearth.freeRun = true ∨ (4 * off.natAbs ≤ s.hearth.period * 1000 ∧ 20000 ≤ since) →
        (0 ≤ off ∨ serving s = false →
          exec (.syncInEdge off since) s = .next { s with hearth := { s.hearth with freeRun := false, sinceEdge := 0 } }) ∧
        (off < 0 → serving s = true → ∃ t, exec .admissionBoundary s = .next t ∧
          exec (.syncInEdge off since) s = .next { t with hearth := { t.hearth with freeRun := false, sinceEdge := 0 } })) ∧
      (s.hearth.freeRun = false → (s.hearth.period * 1000 < 4 * off.natAbs ∨ since < 20000) →
        exec (.syncInEdge off since) s = .next { s with hearth := { s.hearth with ignored := s.hearth.ignored + 1 } })) ∧
    (s.hearth.syncIn = false ∨ s.boot.fwState ≠ 2 → exec (.syncInEdge off since) s = .next s) ∧
    (s.hearth.freeRun = false → 8 ≤ s.hearth.sinceEdge → ∃ t, exec .syncFreeRun s = .next t ∧
      t.hearth = { s.hearth with freeRun := true } ∧ Logged 0x0705 (evAt 0 none 0x0B 0) s t ∧ Frame (.hearth :: logAreas) s t)

/-- A governor interval of a part that serves, in which no sensor is retired (R309, R314, R316 to R318, R332, R469): the caps as written take effect,
the excess account, the thermal, brake and droop sources, the idle residency. No limit source rises by more than 1 in an interval (R313), whatever the
agents report. Whole microwatts (log 41) and a cap that is free when nothing heavy draws (log 64) are the model's choices. -/
def Obligations.GovernorInterval : Prop :=
  (∀ (s : State) (rs : List DieReport), serving s = true →
      (∀ d, dieActive s d = true → (reportOf rs d).temps = []) →
      let g := s.fuses.grade
      let power := ((activeDies s).map fun d => (classDraw g (reportOf rs d).activity).sum + leakage g (dieOf s d).temp).sum + 56000000
      let bound := (s.hearth.short - s.hearth.sustained) * s.hearth.duration * 1000000
      ∃ t, exec (.governorInterval rs) s = .next t ∧
        t.hearth = { s.hearth with excess := Nat.min bound (s.hearth.excess + 2 * power - 2 * s.hearth.sustained * 1000000), cap := t.hearth.cap
                                   sustainedNow := s.hearth.sustained, shortNow := s.hearth.short, durationNow := s.hearth.duration } ∧
        (∀ d, dieActive s d = true →
          (dieOf t d).temp = (dieOf s d).temp ∧
          ((s.hearth.thermalLimit : Int) ≤ (dieOf s d).temp → (dieOf t d).thermal = Nat.max 1 ((dieOf s d).thermal - 1)) ∧
          ((dieOf s d).temp ≤ (s.hearth.thermalLimit : Int) - 2 →
            (dieOf t d).thermal = Nat.min (if (dieOf s d).thermCap then 8 else 16) ((dieOf s d).thermal + 1)) ∧
          ((s.hearth.thermalLimit : Int) - 2 < (dieOf s d).temp → (dieOf s d).temp < (s.hearth.thermalLimit : Int) →
            (dieOf t d).thermal = (dieOf s d).thermal) ∧
          (dieOf t d).brake = (if s.pins.pwrbrk then (dieOf s d).brake else Nat.min 16 ((dieOf s d).brake + 1)) ∧
          (dieOf t d).droopSrc = (if (dieOf s d).drooping then (dieOf s d).droopSrc else (dieOf s d).droopSrc.map fun l => Nat.min 16 (l + 1)) ∧
          (dieOf t d).residency = (dieOf s d).residency.modify (dieOf s d).idle (· + 2000)) ∧
        (∀ d, dieActive s d = false → { dieOf t d with counters := [], lastSrc := [] } = { dieOf s d with counters := [], lastSrc := [] }) ∧
        Frame ([.dies, .hearth, .jobs, .parts, .ports] ++ logAreas) s t) ∧
  (∀ (s t : State) (rs : List DieReport), exec (.governorInterval rs) s = .next t →
      t.hearth.cap ≤ s.hearth.cap + 1 ∧ ∀ d, (dieOf t d).thermal ≤ (dieOf s d).thermal + 1 ∧ (dieOf t d).brake ≤ (dieOf s d).brake + 1 ∧
        (dieOf t d).paceSrc ≤ (dieOf s d).paceSrc + 1 ∧
        (∀ k, (dieOf t d).droopSrc.getD k 0 ≤ (dieOf s d).droopSrc.getD k 0 + 1) ∧
        ∀ k, (dieOf t d).clampSrc.getD k 0 ≤ (dieOf s d).clampSrc.getD k 0 + 1)

/-- A pace message to an open collective of this part: the dies of the collective's job take the limit at once where it is lower (R336, R313). A
boundary counts, pulses SYNC_OUT and takes a new period into use (R328, R331); while PWRBRK# is asserted or the pool has shrunk below the tokens held
no job is admitted, and a boundary that passes a candidate over for want of tokens is counted (R316, R318, R325). Details of admission are the model's
readings (log 66). -/
def Obligations.AdmissionAndPace : Prop :=
  (∀ (s : State) (o : Op) (j : Job) (id : W64) (rank limit : Nat),
      (allDies.flatMap fun e => (dieOf s e).ops.filter fun o => match o.coll with
        | some c => c.collId == id.toNat && paceHeld s c rank | none => false) = [o] →
      jobOf s o.job = some j → s.fabric.paceLast = [] → rank < 4096 → 1 ≤ limit → limit ≤ 16 →
      ∃ t, exec (.paceMessage id rank limit) s = .next t ∧
        (∀ e, dieOf t e = { dieOf s e with paceSrc := if e ∈ j.dies then Nat.min (dieOf s e).paceSrc limit else (dieOf s e).paceSrc }) ∧
        t.fabric = { s.fabric with paceLast := [(id.toNat * 4096 + rank, limit)] } ∧ Frame [.dies, .fabric] s t) ∧
  (∀ s : State, serving s = true → switchDue s = false →
      let h := { s.hearth with boundaries := (s.hearth.boundaries + 1) % 2 ^ 32, sinceEdge := s.hearth.sinceEdge + 1
                               period := s.hearth.pendPeriod.getD s.hearth.period, pendPeriod := none }
      (s.jobs = [] → exec .admissionBoundary s = .next { s with hearth := h, out := s.out ++ [.syncOut] }) ∧
      (s.pins.pwrbrk = true → (∀ j ∈ s.jobs, j.age ≠ 0) → ∃ t, exec .admissionBoundary s = .next t ∧ t.jobs = s.jobs ∧ t.hearth = h ∧
          t.out = s.out ++ [.syncOut] ∧ Frame [.hearth, .out] s t) ∧
      (tokenPool s < (((allParts.map (heldTokens s)).sum : Nat) : Int) →
        (∃ t, exec .admissionBoundary s = .next t ∧ t.hearth.boundaries = h.boundaries ∧
          ∀ k ∈ t.jobs, k.phase = .admitted → ∃ j ∈ s.jobs, j.id = k.id ∧ j.phase = .admitted) ∧
        ∀ j g, s.jobs = [j] → s.pins.pwrbrk = false → j.age ≠ 0 → mayAdmit s j = true → hotJob s j = false →
          tblGet (partOfIx s j.part).programs j.slot = some g → jobTokens (refreshJob g j) ≠ 0 →
          ∃ t, exec .admissionBoundary s = .next t ∧
            t.jobs = [{ refreshJob g j with passed := j.passed + 1, pinned := j.pinned || decide (8 ≤ j.passed + 1) }]) ∧
      (∀ j g, s.jobs = [j] → s.pins.pwrbrk = false → j.age ≠ 0 → mayAdmit s j = true → hotJob s j = false →
        tblGet (partOfIx s j.part).programs j.slot = some g → jobTokens (refreshJob g j) = 0 → 0 ≤ tokenPool s → j.dies.Nodup →
        (∀ d ∈ j.dies, (queueOf s d j.queue).line.filter (· != .role j.id) = []) →
        ∃ t k, exec .admissionBoundary s = .next t ∧ t.jobs = [k] ∧ k.id = j.id ∧ k.phase = .admitted ∧ k.epoch = s.fabric.epoch ∧
          k.admittedAt = h.boundaries ∧ k.reproducible = (partOfIx s j.part).reproducible ∧
          (∀ d ∈ j.dies, (queueOf t d j.queue).jobs = (queueOf s d j.queue).jobs ++ [j.id]) ∧ t.log = s.log) ∧
      (∀ j, s.jobs = [j] → hotJob s j = true → j.age ≠ 0 → ∃ t, exec .admissionBoundary s = .next t ∧ t.jobs = [j]))

/-- A parity error, on whichever die its row lies, quenches the job whose operation found it, logs 0x0301 or 0x0302 with the job's site, and holds the
row out or poisons the location (R112, R232, R234, R278, R456, R459). A parity error in a key row (R102): the row is held out, the set is DAMAGED and
names the failing key, 0x0302 is logged, the job is quenched. A mirrored set of paired twins is refetched from the twin without a request from
software (R103). Poison of the handle of the row and the unit of each entry are the model's readings (logs 71 and 72). -/
def Obligations.ParityErrors : Prop :=
  (∀ (s : State) (d e : DieIx) (op : Nat) (o : Op) (j : Job), anyOp s op = some (e, o) → jobOf s o.job = some j →
      let site : Site := { die := e, queue := o.queue, off := o.off }
      let after (u : State) (e : Ev) (detail : Nat) : Prop :=
        LoggedFirst e (evJob j site o.unit detail false) s u ∧ JobQuenched j s u ∧
          Frame (.bist :: jobQuenchAreas) s u
      (∀ row, ∃ u, exec (.scratchpadParity d op row) s = .next (settleDies (ownedDies s j.part) u) ∧ after u 0x0301 row ∧ row ∈ (dieOf u d).heldOut ∧ (d.val, 1, row) ∈ u.bist.results ∧
        ∀ h, handleOfRow s d row = some h → (handleOf s d h).valid = true → (handleOf u d h).poisoned = true) ∧
      (∀ k row, ∃ u, exec (.clusterBufferParity d k row op) s = .next (settleDies (ownedDies s j.part) u) ∧ after u 0x0301 row ∧ (d.val, 2, row) ∈ u.bist.results) ∧
      (∀ g z, ∃ u, exec (.registerParity d (.tile g z) op) s = .next (settleDies (ownedDies s j.part) u) ∧ after u 0x0301 0 ∧ (g.val * 8 + z.val, (0x0301 : Ev)) ∈ (dieOf u d).tilePoison) ∧
      (∀ g line, ∃ u, exec (.registerParity d (.cacheLine g line) op) s = .next (settleDies (ownedDies s j.part) u) ∧ after u 0x0301 0 ∧ (g.val * 2048 + line, (0x0301 : Ev)) ∈ (dieOf u d).cachePoison) ∧
      (∀ sc, ∃ u, exec (.registerParity d (.scalar sc) op) s = .next (settleDies (ownedDies s j.part) u) ∧ after u 0x0301 0 ∧ sc ∈ (dieOf u d).scalarPoison) ∧
      (∀ e, ∃ u, exec (.registerParity d (.palette e) op) s = .next (settleDies (ownedDies s j.part) u) ∧ after u 0x0301 0 ∧ e ∈ (dieOf u d).palettePoison) ∧
      (∀ row, ∃ u, exec (.storeParity d op row) s = .next (settleDies (ownedDies s j.part) u) ∧ after u 0x0302 row ∧ row ∈ (dieOf u d).heldOutStore ∧ (d.val, 4, row) ∈ u.bist.results)) ∧
  (∀ (s : State) (d : DieIx) (op row slot r key : Nat) (o : Op) (j : Job), opOf s d op = some o → jobOf s o.job = some j →
      o.keySlots.head? = some slot → (ksOf s j.part slot).state = .resident → bundleRowOf (ksOf s j.part slot) d.val row = some r →
      keyOfRow (ksOf s j.part slot) r = some key →
      let site : Site := { die := d, queue := o.queue, off := o.off }
      let mirrored := (ksOf s j.part slot).mirrored = true ∧ s.twin.state = .paired
      ∃ u, exec (.keyRowParity d op row) s = .next (settleDies (ownedDies s j.part) u) ∧
        LoggedFirst 0x0302 (evJob j site 2 row false) s u ∧ JobQuenched j s u ∧ row ∈ (dieOf u d).heldOutStore ∧
        (ksOf u j.part slot).damageCount = ((ksOf s j.part slot).damageCount + 1) % 2 ^ 16 ∧
        key ∈ (ksOf u j.part slot).failing ∧ (ksOf u j.part slot).keys = (ksOf s j.part slot).keys ∧
        (¬mirrored → (ksOf u j.part slot).state = .damaged ∧ u.twin = s.twin) ∧
        (mirrored → (ksOf u j.part slot).state = .refetching ∧ (j.part, slot) ∈ u.twin.refetches) ∧
        Frame ([.bist, .twin] ++ jobQuenchAreas) s u)

/-- An eye margin below the fused one of an UP port is counted and the port marked for retraining (R469); the end of a partition quench returns the
queues to IDLE, to line 0 and sequence number 1 after a restart (R285, R460). The count of low margins is a model field (log 75), and a restart clears
STOPPED (log 74). -/
def Obligations.EyeMarginAndQuenchEnd : Prop :=
  ∀ s : State,
    (∀ n margin, s.boot.fwState = 2 → (portOf s n).state = .up → margin < s.fuses.eyeMargin.getD n.val 0 → ∃ t,
      exec (.eyeMarginCheck n margin) s = .next t ∧ portOf t n = { portOf s n with eyeLow := true, eyeCount := (portOf s n).eyeCount + 1 } ∧
      (∀ k, k ≠ n → portOf t k = portOf s k) ∧ Frame [.ports] s t) ∧
    (∀ n margin, s.fuses.eyeMargin.getD n.val 0 ≤ margin → exec (.eyeMarginCheck n margin) s = .next s) ∧
    ∀ (p : PartIx) (e : Ev) (restart : Bool), (partOfIx s p).quenching = some (e, restart) → s.alarm.device = false →
      (∀ j ∈ s.jobs, j.part ≠ p) →
      ∃ u, exec (.partitionQuenchComplete p) s =
          .next ((ownedDies u p).foldl (fun s d => allQueues.foldl (fun s q => readQueue d q s) s) u) ∧
        (partOfIx u p).quenching = none ∧
        (partOfIx u p).role = (if s.twin.state = .lost ∧ s.twin.armed = true ∧ (partOfIx s p).role = .standby then .active else (partOfIx s p).role) ∧
        (∀ d q, (dieOf s d).owner = some p → queueOf u d q = (if restart then
          { queueOf s d q with quenched := false, stopped := false, pos := 0, seq := 1 } else { queueOf s d q with quenched := false })) ∧
        (∀ d, (dieOf s d).owner ≠ some p → dieOf u d = dieOf s d) ∧ (∀ k, k ≠ p → partOfIx u k = partOfIx s k) ∧ Frame [.parts, .dies] s u

/-- A job that has nothing left to run completes (R293, R294, R338): the 64 bytes of its record stand at the next place of its ring, and the job is
gone. RecordReady says when the record can be written at once. -/
def Obligations.JobCompletes : Prop :=
  ∀ (s : State) (j : Job) (elapsed : Nat), jobOf s j.id = some j → j.phase = .admitted → jobIdle s j = true → RecordReady s j.die j.queue j.part →
    (wasLimited s j = false ∨ elapsed ≤ j.declaredNs) →
    let x := queueOf s j.die j.queue
    let p := partOfIx s j.part
    let cause : Option Ev := j.quench <|> j.skip.map (·.1) <|> j.refusedPoison <|> if j.refusedDegraded then some 0x0204 else none
    ∃ u b, exec (.jobComplete j.id elapsed) s = .next (settleDies (ownedDies s j.part) u) ∧ (∀ k ∈ u.jobs, k.id ≠ j.id) ∧
      (∀ k ∈ s.jobs, k.id ≠ j.id → k ∈ u.jobs) ∧ Output.completion p.ownerPort p.ownerFn (recordAddr x) b ∈ u.out ∧
      (queueOf u j.die j.queue).crTail = (x.crTail + 1) % 2 ^ 32 ∧ u.log = s.log ∧
      b.length = 64 ∧ fieldAt b 0 2 = 0xC7E8 ∧ fieldAt b 2 2 = j.seq % 2 ^ 16 ∧ fieldAt b 4 1 = j.queue.val + 16 * j.die.val ∧ fieldAt b 5 1 = 4 ∧
      fieldAt b 6 1 = (if cause.isSome then 1 else 0) ∧ bitOf (fieldAt b 7 1) 0 = (j.wantHallmark && cause.isNone) ∧
      bitOf (fieldAt b 7 1) 1 = j.cancelled ∧ bitOf (fieldAt b 7 1) 2 = decide (j.declaredNs < elapsed) ∧
      bitOf (fieldAt b 7 1) 3 = j.skip.isSome ∧ bitOf (fieldAt b 7 1) 7 = decide (x.crTail / 2 ^ x.crLog2 % 2 = 0) ∧
      fieldAt b 8 8 = j.tag % 2 ^ 64 ∧ fieldAt b 0x10 2 = (cause.getD 0).toNat ∧ fieldAt b 0x12 2 = Nat.min j.events 0xFFFF ∧
      fieldAt b 0x18 4 = Nat.min (j.energyPj / 1000000) 0xFFFFFFFF ∧ fieldAt b 0x1C 4 = x.consumed % 2 ^ 32 ∧
      bytesAt b 0x20 32 = (if j.wantHallmark && cause.isNone then sha256 (hallmarkRecord s j) else List.replicate 32 0)

/-- A write to a queue window lands byte for byte (R279, R387); where it touches line P of an enabled queue whose header line carries the expected
sequence number, the packet is read and P, E and CONSUMED advance (R280, R281); a packet of no lines, or across the end of the window, stops the queue
(R285). A slot of a member is forwarded (R398); a poisoned write is dropped and reported (R395). A packet whose body breaks R287 is refused with
0x0102, whatever its type; a NOP completes without a record (R285, R286). -/
def Obligations.QueueWindows : Prop :=
  (∀ (s : State) (h : HostId) (fn slot : Nat) (d : DieIx) (q : QueueIx) (o : Nat) (bs : List Byte), memsOk s →
      let x := queueOf s d q
      let w := memPut x.window o bs
      let l := memBytes w (64 * x.pos) 64
      let n := fieldAt l 5 1
      let touches : Prop := o < 64 * x.pos + 64 ∧ 64 * x.pos < o + bs.length
      (∀ p, barOwns s h fn slot d = some p →
        (∃ t, exec (.queueWindowWrite h fn slot d q o (some bs)) s = .next t ∧ Wrote x.window (queueOf t d q).window o bs ∧ (dieOf t d).idle = 0) ∧
        (¬touches → ∃ t, exec (.queueWindowWrite h fn slot d q o (some bs)) s = .next t ∧ queueOf t d q = { x with window := w } ∧ Frame [.dies] s t) ∧
        (touches → x.enabled = true → x.stopped = false → fieldAt l 2 2 = x.seq → (n = 0 ∨ 1024 < x.pos + n) → ∃ u,
          exec (.queueWindowWrite h fn slot d q o (some bs)) s = .next (wakeDie d (settleQueue d q u)) ∧
          queueOf u d q = { x with window := w, stopped := true } ∧ Frame [.dies] s u) ∧
        (touches → x.enabled = true → x.stopped = false → x.quenched = false → s.alarm.device = false → fieldAt l 2 2 = x.seq → 1 ≤ n →
          x.pos + n ≤ 1024 → fieldAt (memBytes w (64 * ((x.pos + n) % 1024)) 64) 2 2 ≠ (x.seq + 1) % 2 ^ 16 → ∃ u,
          exec (.queueWindowWrite h fn slot d q o (some bs)) s = .next (wakeDie d (settleQueue d q u)) ∧
          queueOf u d q = { x with window := w, pos := (x.pos + n) % 1024, seq := (x.seq + 1) % 2 ^ 16, consumed := (x.consumed + n) % 2 ^ 32
                                   line := x.line ++ [.packet x.seq n (memBytes w (64 * x.pos) (64 * n)) (stagedOf s d (memBytes w (64 * x.pos) (64 * n)))] } ∧
          (∀ e k, e ≠ d ∨ k ≠ q → queueOf u e k = queueOf s e k) ∧ Frame [.dies] s u)) ∧
      (barOwns s h fn slot d = none →
        (∀ r, memberOf s h fn slot = some r → exec (.queueWindowWrite h fn slot d q o (some bs)) s =
          .next (sendMsg .bench (hostDie h) r.part d (fun v => .forwardedQueue v r d q o bs) s)) ∧
        (memberOf s h fn slot = none → exec (.queueWindowWrite h fn slot d q o (some bs)) s = .next s)) ∧
      ∃ t, exec (.queueWindowWrite h fn slot d q o none) s = .next t ∧ hostOf t h = { hostOf s h with aer := (hostOf s h).aer + 1 } ∧
        (∀ k, k ≠ h → hostOf t k = hostOf s k) ∧ Frame [.hosts] s t) ∧
  (∀ (s : State) (d : DieIx) (q : QueueIx) (b : List Byte),
      (∀ i n, (i, n) ∈ [(Instr.nop d q, 0), (.programLoad d q, 1), (.patch d q, 2), (.keysetBind d q [], 3), (.jobSubmit d q, 4), (.fence d q, 5),
          (.setStep d q, 6), (.block d q, 8)] →
        headPacket s d q n = some b → bodyOk b = false →
        exec i s = .next (settleQueue d q (refusePacket d q 0x0102 b (popLine d q s)))) ∧
      (∀ p, RecordReady s d q p → pktType b ≠ 0 → ∀ e : Ev,
        Logged e { die := d, queue := some (q, pktSeq b, 0), part := some p, unit := 0, detail := 0, isSkip := false } s (refusePacket d q e b s) ∧
        Completed d q p s (refusePacket d q e b s) b true e 0 ∧ Frame (.dies :: logAreas) s (refusePacket d q e b s)) ∧
      (headPacket s d q 0 = some b → bodyOk b = true → exec (.nop d q) s = .next (settleQueue d q (popLine d q s))))

/-- The queue control page (R388 to R390): ENABLE takes the ring and reads on; CR_BASE and CR_LOG2 change only while ENABLE is 0, and what is ignored
is counted; a disable waits for the packets that are visible; CR_HEAD frees ring space. What BAR0 reads there (R386 to R388, R400): the page of a
local queue, zero where nothing is owned; a queue window reads as zero. A member's page is forwarded (R398). That an ignored write counts once is the
model's reading (log 68). -/
def Obligations.QueueControl : Prop :=
  (∀ (s : State) (h : HostId) (fn slot : Nat) (d : DieIx) (q : QueueIx),
    let x := queueOf s d q
    let c := controlPage s d q
    (c.length = 64 ∧ fieldAt c 0 8 = x.crBase % 2 ^ 64 ∧ fieldAt c 8 1 = x.crLog2 % 2 ^ 8 ∧ fieldAt c 9 1 = b2n x.enabled ∧
      fieldAt c 0x0A 2 = x.vector % 2 ^ 16 ∧ fieldAt c 0x0C 4 = x.crHead % 2 ^ 32 ∧ fieldAt c 0x10 4 = x.crTail % 2 ^ 32 ∧
      fieldAt c 0x14 4 = x.consumed % 2 ^ 32 ∧ fieldAt c 0x18 1 =
        (if s.alarm.device = true ∨ x.quenched = true then 3 else if x.stopped = true then 2 else if queueDrained s d q then 0 else 1)) ∧
    (∀ o, o < 0x40000000 → bar0Byte s h fn o = 0) ∧
    (∀ i, i < 64 → slot < 64 →
      let o := 0x40000000 + 64 * (256 * slot + 16 * d.val + q.val) + i
      (∀ p, barOwns s h fn slot d = some p → bar0Byte s h fn o = c.getD i 0) ∧
      (barOwns s h fn slot d = none → memberOf s h fn slot = none → bar0Byte s h fn o = 0)) ∧
    (s.alarm.device = false → barOwns s h fn slot d = none →
      (∀ r w, memberOf s h fn slot = some r → exec (.enable h fn slot d q w) s =
        .next (sendMsg .bench (hostDie h) r.part d (fun v => .forwardedControl v r d q w none) s)) ∧
      (∀ (r : MemberReg) (v : W32), memberOf s h fn slot = some r → (tblGetD (hostOf s h).pages (pageKey fn slot d q) (List.replicate 64 0)).length = 64 →
        ∃ u, exec (.crHead h fn slot d q v) s = .next (sendMsg .bench (hostDie h) r.part d
            (fun x => .forwardedControl x r d q { crBase := none, crLog2 := none, enable := none, vector := none } (some v)) u) ∧
          fieldAt (readPage u h fn slot d q) 0x0C 4 = v.toNat ∧ Frame [.hosts] s u) ∧
      (memberOf s h fn slot = none → (∀ w, exec (.enable h fn slot d q w) s = .next s) ∧ ∀ v, exec (.crHead h fn slot d q v) s = .next s))) ∧
  ∀ (s : State) (h : HostId) (fn slot : Nat) (d : DieIx) (q : QueueIx) (p : PartIx), barOwns s h fn slot d = some p → s.alarm.device = false →
    let x := queueOf s d q
    (∀ (base : W64) (k v : Nat), x.enabled = false → 4 ≤ k → k ≤ 16 → base.toNat % 64 = 0 → ∃ u,
      exec (.enable h fn slot d q { crBase := some base, crLog2 := some k, enable := some true, vector := some v }) s =
        .next (wakeDie d (readQueue d q u)) ∧
      queueOf u d q = { x with crBase := base.toNat, crLog2 := k, vector := v, enabled := true, disabling := false } ∧
      (∀ e k, e ≠ d ∨ k ≠ q → queueOf u e k = queueOf s e k) ∧ Frame [.dies] s u) ∧
    (x.enabled = false → ringSound x = false → ∃ t,
      exec (.enable h fn slot d q { crBase := none, crLog2 := none, enable := some true, vector := none }) s = .next t ∧
      queueOf t d q = x ∧ tblGetD (dieOf t d).counters 6 0 = tblGetD (dieOf s d).counters 6 0 + 1 ∧ Frame [.counters] s t) ∧
    (∀ (base : W64) (k v : Nat), x.enabled = true → ∃ t,
      exec (.enable h fn slot d q { crBase := some base, crLog2 := some k, enable := none, vector := some v }) s = .next t ∧
      queueOf t d q = { x with vector := v } ∧ tblGetD (dieOf t d).counters 6 0 = tblGetD (dieOf s d).counters 6 0 + 1 ∧
      Frame [.dies, .counters] s t) ∧
    (x.enabled = true → queueDrained s d q = false → ∃ t,
      exec (.enable h fn slot d q { crBase := none, crLog2 := none, enable := some false, vector := none }) s = .next t ∧
      queueOf t d q = { x with disabling := true } ∧ Frame [.dies] s t) ∧
    (x.disabling = true → queueDrained s d q = true → ∃ t, exec (.queueDisableComplete d q) s = .next t ∧
      queueOf t d q = { x with enabled := false, disabling := false } ∧ (∀ e k, e ≠ d ∨ k ≠ q → queueOf t e k = queueOf s e k) ∧
      Frame [.dies] s t) ∧
    (x.disabling = false ∨ queueDrained s d q = false → exec (.queueDisableComplete d q) s = .next s) ∧
    (∀ v : W32, (x.crTail + 2 ^ 32 - v.toNat) % 2 ^ 32 ≤ 2 ^ x.crLog2 → x.heldCpl = [] → ∃ u,
      exec (.crHead h fn slot d q v) s = .next (settleDisable d q (settleQueue d q u)) ∧ queueOf u d q = { x with crHead := v.toNat } ∧
      Frame [.dies] s u) ∧
    (∀ v : W32, 2 ^ x.crLog2 < (x.crTail + 2 ^ 32 - v.toNat) % 2 ^ 32 → ∃ t, exec (.crHead h fn slot d q v) s = .next t ∧
      tblGetD (dieOf t d).counters 6 0 = tblGetD (dieOf s d).counters 6 0 + 1 ∧ Frame [.counters] s t) ∧
    (∀ (v : W32) (r : CplRec), (x.crTail + 2 ^ 32 - v.toNat) % 2 ^ 32 < 2 ^ x.crLog2 → x.heldCpl = [r] → (dieOf s d).owner = some p → slot = 0 →
      ∃ u b, exec (.crHead h fn slot d q v) s = .next (settleDisable d q (settleQueue d q u)) ∧
        Output.completion h fn (recordAddr x) b ∈ u.out ∧ b = sealCpl r.bytes x.consumed (x.crTail / 2 ^ x.crLog2 % 2 == 0) ∧
        (queueOf u d q).heldCpl = [] ∧ (queueOf u d q).crTail = (x.crTail + 1) % 2 ^ 32 ∧ (queueOf u d q).crHead = v.toNat)

/-- BAR2 (R391, R415): the aperture register holds DIE, the store handle and VALID; a read of the store handle it names returns its bytes, with EP set
where it is poisoned, a write lands in it and its digest becomes invalid (R440); an access that reaches nothing is an Unsupported Request or is
dropped. Before an image is accepted BAR2 is the staging region. -/
def Obligations.Bar2 : Prop :=
  ∀ (s : State) (h : HostId) (fn : Nat), memsOk s → (hostOf s h).linkUp = true →
    (∀ v : W32, ∃ t, exec (.apertureControl h fn v) s = .next t ∧
      tblGetD (hostOf t h).apertures fn 0 = (v &&& 0x8003FF0F#32).toNat ∧
      (∀ f, f ≠ fn → tblGetD (hostOf t h).apertures f 0 = tblGetD (hostOf s h).apertures f 0) ∧ Frame [.hosts] s t) ∧
    (s.boot.fwState = 2 → s.alarm.device = false →
      (∀ d k o n, bar2Target s h fn o n = some (d, k) →
        (∃ t, exec (.bar2Access h fn o n none) s = .next t ∧ t.out = s.out ++ [.bar2Data h (some (storeBytes s d k o n)) (storeOf s d k).poisoned] ∧
          Frame [.dies, .out] s t ∧ ∀ e, dieOf t e = { dieOf s e with idle := if e = d then 0 else (dieOf s e).idle }) ∧
        (∀ bs : List Byte, bs.length = n → ∃ t, exec (.bar2Access h fn o n (some bs)) s = .next t ∧
          Wrote (dieOf s d).store (dieOf t d).store ((storeOf s d k).base * 288 + o) bs ∧ storeOf t d k = { storeOf s d k with digest := none } ∧
          (∀ i, i ≠ k → storeOf t d i = storeOf s d i) ∧ OtherDies d s t ∧ Frame [.dies] s t)) ∧
      (∀ o n, bar2Target s h fn o n = none →
        (exec (.bar2Access h fn o n none) s = .next { s with out := s.out ++ [.unsupported h] }) ∧
        ∀ bs, exec (.bar2Access h fn o n (some bs)) s = .next s)) ∧
    (s.boot.fwState ≠ 2 → s.alarm.device = false →
      let k := match h with | .a => 0 | .b => 1
      ∀ o n, o + n ≤ 33554432 →
        (∀ bs : List Byte, bs.length = n → k < s.boot.staging.length → ∃ t, exec (.bar2Access h 0 o n (some bs)) s = .next t ∧
          Wrote (s.boot.staging.getD k []) (t.boot.staging.getD k []) o bs ∧ Frame [.boot] s t) ∧
        exec (.bar2Access h 0 o n none) s = .next { s with out := s.out ++ [.bar2Data h (some (memBytes (s.boot.staging.getD k []) o n)) false] })

/-- NTT, INVERSE_NTT, NEGATE, LEVEL_DROP, BASIS_CONVERSION, RESCALE and MOD_SWITCH on one source (R59, R105, R106, R117, R118, R523): what header and
limbs each writes. A level drop in place rewrites the header alone, in no time: every limb stays where it lies (R59, R117; log 22). -/
def Obligations.RingOperationsOnOneSource : Prop :=
  (∀ (s : State) (a : Site) (mask : BitVec 8) (j : Job) (src dst : Loc) (c : Chain) (x : Src) (slots : List Nat) (es : List SbEntry),
      CluReady s a mask j [src] [dst] c [x] slots es →
      let cat := s.fuses.primes
      let h := x.header
      let r := ringCtx c cat h
      let ps := r.primes h.extended
      let b := limbsAt s a mask c x
      let q := primeAt cat (c.qList.getD h.level 0)
      let fits (h' : Header) : Prop := scaleOk h' = true ∧ dstFits s a.die (maskClusters mask) dst h' c.pCount (limbsOf c h') = true ∧
        secretOut s a.die x.secret [(dst, h')] = .pass
      let done (t : State) (h' : Header) (b' : PolyBody) : Prop := CluDone a mask j [src] [dst] [h] [(h', b')] 0 0 es s t
      let settle (h' : Header) := settle c cat [h] h'
      (h.ntt = false → (∀ h', h' = settle { h with ntt := true } → fits h' →
          ∃ t, exec (.ntt a mask src dst) s = .next t ∧ done t h' (mapLimbs ps (fun q l => nttLimb q h.logN l) b))) ∧
      (h.ntt = true → (∀ h', h' = settle { h with ntt := false } → fits h' →
          ∃ t, exec (.inverseNtt a mask src dst) s = .next t ∧ done t h' (mapLimbs ps (fun q l => inttLimb q h.logN l) b))) ∧
      (∀ h', h' = settle h → fits h' →
          ∃ t, exec (.negate a mask src dst) s = .next t ∧ done t h' (mapLimbs ps limbNeg b)) ∧
      (∀ l : Nat, l < h.level → src ≠ dst → (∀ h', h' = settle { h with level := l } → fits h' →
          ∃ t, exec (.levelDrop a mask src dst l) s = .next t ∧ done t h'
        (b.map fun p => p.take (l + 1) ++ p.drop r.qs.length))) ∧
      (∀ given target : List Nat, h.ntt = false → given ≠ [] → target ≠ [] → (given ++ target).Nodup → (∀ i ∈ given ++ target, i < limbsOf c h) →
        (∀ h', h' = settle { h with noise := newNoise [h] (h.noise + 16) } → fits h' →
          ∃ t, exec (.basisConversion a mask src dst given target) s = .next t ∧ done t h'
          (b.map fun p => (List.range p.length).map fun i =>
            if i ∈ target then convLimb h.logN (given.map fun k => (ps.getD k 1, p.getD k [])) (ps.getD i 1) else p.getD i []))) ∧
      (h.scheme = 1 → h.ntt = true → h.extended = false → h.level ≠ 0 → (∀ h', h' = settle
          { h with level := h.level - 1, scale := h.scale - muOf q
                   noise := newNoise [h] (lsum ((h.noise : Int) - lambdaOf q) (gammaOf h.logN)) } → fits h' →
          ∃ t, exec (.rescale a mask src dst) s = .next t ∧ done t h'
        (rescaleBody r b))) ∧
      (h.scheme = 2 → h.ntt = true → h.extended = false → h.level ≠ 0 → (∀ h', h' = settle
          { h with level := h.level - 1, scale := h.scale * modInvD (q % c.t h.tIndex) (c.t h.tIndex) % c.t h.tIndex
                   noise := newNoise [h] (lsum ((h.noise : Int) - lambdaOf q) (gammaOf h.logN + tauOf (c.t h.tIndex))) } → fits h' →
          ∃ t, exec (.modSwitch a mask src dst) s = .next t ∧ done t h'
        (modSwitchBody r b)))) ∧
  (∀ (s : State) (a : Site) (mask : BitVec 8) (j : Job) (src : Loc) (c : Chain) (x : Src) (slots : List Nat) (es : List SbEntry) (l : Nat),
      CluReady s a mask j [src] [src] c [x] slots es → l < x.header.level →
      let h' := settle c s.fuses.primes [x.header] { x.header with level := l }
      scaleOk h' = true → dstFits s a.die (maskClusters mask) src h' c.pCount (limbsOf c h') = true →
      secretOut s a.die x.secret [(src, h')] = .pass →
      ∃ t, exec (.levelDrop a mask src src l) s = .next t ∧ (dieOf t a.die).ops = (dieOf s a.die).ops ∧
        (dieOf t a.die).scoreboard = (dieOf s a.die).scoreboard ∧ cluRest (dieOf t a.die) = cluRest (dieOf s a.die) ∧
        (let u := putHead a.die src h' s
         (dieOf t a.die).scratch = (dieOf u a.die).scratch ∧ (dieOf t a.die).bufs = (dieOf u a.die).bufs ∧
         (dieOf t a.die).slots = (dieOf u a.die).slots) ∧
        OtherDies a.die s t ∧ t.jobs.map jobRest = s.jobs.map jobRest ∧ Frame (logAreas ++ [.dies, .jobs]) s t)

/-- POLY_ADD, POLY_SUBTRACT, PLAINTEXT_ADD, PLAINTEXT_MULTIPLY and CIPHERTEXT_MULTIPLY (R57, R59, R117, R122, R123). That extended operands may be
multiplied is the model's reading (log 52). -/
def Obligations.RingOperationsOnTwoSources : Prop :=
  ∀ (s : State) (a : Site) (mask : BitVec 8) (j : Job) (l₁ l₂ dst : Loc) (c : Chain) (x y : Src) (slots : List Nat) (es : List SbEntry),
    CluReady s a mask j [l₁, l₂] [dst] c [x, y] slots es →
    let cat := s.fuses.primes
    let h := x.header
    let k := y.header
    let ps := (ringCtx c cat h).primes h.extended
    let b := limbsAt s a mask c x
    let b' := limbsAt s a mask c y
    let fits (h' : Header) : Prop := scaleOk h' = true ∧ dstFits s a.die (maskClusters mask) dst h' c.pCount (limbsOf c h') = true ∧
      secretOut s a.die (x.secret || y.secret) [(dst, h')] = .pass
    let done (t : State) (h' : Header) (e : PolyBody) : Prop := CluDone a mask j [l₁, l₂] [dst] [h, k] [(h', e)] 0 0 es s t
    let settle (h' : Header) := settle c cat [h, k] h'
    let near : Prop := if h.scheme = 1 then natDiff h.scale k.scale ≤ 16 else h.scale = k.scale
    let sum := newNoise [h, k] (lsum h.noise k.noise)
    let scale := if h.scheme = 1 then h.scale + k.scale else h.scale * k.scale % c.t h.tIndex
    let prod := newNoise [h, k] (if h.scheme = 1 then lsum (lsum (sOf k.scale + h.noise) (sOf h.scale + k.noise)) (h.noise + k.noise)
      else h.noise + k.noise)
    (h.formatTag = k.formatTag → h.parts = k.parts → h.extended = k.extended → near →
      (∀ h', h' = settle { h with noise := sum } → fits h' →
        ∃ t, exec (.polyAdd a mask l₁ l₂ dst) s = .next t ∧ done t h' (zipLimbs ps limbAdd b b')) ∧
      (∀ h', h' = settle { h with noise := sum } → fits h' →
        ∃ t, exec (.polySubtract a mask l₁ l₂ dst) s = .next t ∧ done t h' (zipLimbs ps limbSub b b'))) ∧
    (h.isCt = true → k.isCt = false → h.extended = k.extended →
      (near → (∀ h', h' = settle { h with noise := sum } → fits h' →
        ∃ t, exec (.plaintextAdd a mask l₁ l₂ dst) s = .next t ∧ done t h' (zipLimbs ps limbAdd (b.take 1) b' ++ b.drop 1))) ∧
      (h.parts = 2 → h.ntt = true → (∀ h', h' = settle { h with scale := scale, noise := prod } → fits h' →
        ∃ t, exec (.plaintextMultiply a mask l₁ l₂ dst) s = .next t ∧ done t h'
        (ptMul ps b (partOf b' 0))))) ∧
    (h.isCt = true → k.isCt = true → h.parts = 2 → k.parts = 2 → h.ntt = true → h.extended = k.extended →
      (∀ h', h' = settle { h with scale := scale, noise := prod, parts := 3 } → fits h' →
        ∃ t, exec (.ciphertextMultiply a mask l₁ l₂ dst) s = .next t ∧ done t h' (ctMul ps b b')))

/-- RELINEARISE, ROTATE, CONJUGATE, MODUP and MODDOWN (R59, R94, R124, R126 to R128). IP of the extended digits of a polynomial with a key (R126; log
23), and HROT and HROT_SUM in their hoisted form (R128 to R131). The form of IP's digits, its result's tag and the refusal of extended operands are
the model's readings (logs 23 and 93). -/
def Obligations.KeySwitching : Prop :=
  (∀ (s : State) (a : Site) (mask : BitVec 8) (j : Job) (src dst : Loc) (c : Chain) (x : Src) (slots : List Nat) (es : List SbEntry),
      CluReady s a mask j [src] [dst] c [x] slots es → c.pCount ≠ 0 → x.header.ntt = true →
      let cat := s.fuses.primes
      let h := x.header
      let r := ringCtx c cat h
      let b := limbsAt s a mask c x
      let settle (h' : Header) := settle c cat [h] h'
      let fits (h' : Header) : Prop := scaleOk h' = true ∧ dstFits s a.die (maskClusters mask) dst h' c.pCount (limbsOf c h') = true ∧
        secretOut s a.die x.secret [(dst, h')] = .pass
      let done (t : State) (h' : Header) (b' : PolyBody) (slot n : Nat) : Prop := CluDone a mask j [src] [dst] [h] [(h', b')] slot n es s t
      let switched := settle { h with parts := 2, noise := newNoise [h] (relinNoise c cat h) }
      (h.isCt = true → h.extended = false →
        (∀ slot, h.parts = 3 → KeyBound a.die (ksOf s j.part slot) h 1 0 h.level →
          (fits switched → ∃ t, exec (.relinearise a mask src dst slot) s = .next t ∧ done t switched (relinBody r (keyOf s a.die c (ksOf s j.part slot) 1 0 h.level) b) slot 1)) ∧
        (∀ slot g, h.parts = 2 → g % 2 = 1 → 3 ≤ g → g ≤ 2 * 2 ^ h.logN - 3 → KeyBound a.die (ksOf s j.part slot) h 2 g h.level →
          (fits switched → ∃ t, exec (.rotate a mask src dst g slot) s = .next t ∧ done t switched (rotateBody r g (keyOf s a.die c (ksOf s j.part slot) 2 g h.level) b) slot 1)) ∧
        (∀ slot, h.parts = 2 → KeyBound a.die (ksOf s j.part slot) h 3 (2 * 2 ^ h.logN - 1) h.level →
          (fits switched → ∃ t, exec (.conjugate a mask src dst slot) s = .next t ∧ done t switched
            (rotateBody r (2 * 2 ^ h.logN - 1) (keyOf s a.die c (ksOf s j.part slot) 3 (2 * 2 ^ h.logN - 1) h.level) b) slot 1))) ∧
      (h.extended = false →
        (∀ h', h' = settle { h with extended := true } → fits h' →
          ∃ t, exec (.modUp a mask src dst none) s = .next t ∧ done t h' (modUpBody r none b) 0 0) ∧
        ∀ n, n < c.beta h.level → (∀ h', h' = settle { h with extended := true } → fits h' →
          ∃ t, exec (.modUp a mask src dst (some n)) s = .next t ∧ done t h' (modUpBody r (some n) b) 0 0)) ∧
      (h.extended = true → (∀ h', h' = settle { h with extended := false, noise := newNoise [h] (relinNoise c cat h) } → fits h' →
          ∃ t, exec (.modDown a mask src dst) s = .next t ∧ done t h'
        (b.map (modDownPart r)) 0 0))) ∧
  (∀ (s : State) (a : Site) (mask : BitVec 8) (j : Job) (c : Chain) (slots : List Nat) (es : List SbEntry) (slot : Nat), c.pCount ≠ 0 →
      let cat := s.fuses.primes
      let ks := ksOf s j.part slot
      (∀ (ls : List Loc) (dst : Loc) (xs : List Src) (kind g : Nat) (h : Header), CluReady s a mask j ls [dst] c xs slots es →
        xs.head?.map (·.header) = some h → (∀ x ∈ xs, x.header.parts = 1 ∧ x.header.extended = true ∧ x.header.ntt = true) →
        xs.length = c.beta h.level → (∀ x ∈ xs, KeyBound a.die ks x.header kind g h.level) →
        let h' := settle c cat (xs.map (·.header)) { h with formatTag := 0xC701, parts := 2 }
        let y := innerProduct (ringCtx c cat h) (xs.map fun x => partOf (limbsAt s a mask c x) 0) (keyOf s a.die c ks kind g h.level)
        scaleOk h' = true → dstFits s a.die (maskClusters mask) dst h' c.pCount (limbsOf c h') = true →
        ∃ t, exec (.ip a mask ls dst kind g slot) s = .next t ∧ CluDone a mask j ls [dst] (xs.map (·.header)) [(h', [y.1, y.2])] slot 1 es s t) ∧
      (∀ (src : Loc) (gs : List Nat) (dsts : List Loc) (x : Src), CluReady s a mask j [src] dsts c [x] slots es →
        let h := x.header
        let h' (g : Nat) : Header := if g = 1 then h
          else settle c cat [h] { h with noise := newNoise [h] (relinNoise c cat h) }
        let b' (g : Nat) : PolyBody := if g = 1 then limbsAt s a mask c x
          else rotateBody (ringCtx c cat h) g (keyOf s a.die c ks 2 g h.level) (limbsAt s a mask c x)
        h.isCt = true → h.parts = 2 → h.ntt = true → h.extended = false → 1 ≤ gs.length → gs.length ≤ 64 → dsts.length = gs.length →
        (∀ g ∈ gs, g = 1 ∨ (g % 2 = 1 ∧ 3 ≤ g ∧ g ≤ 2 * 2 ^ h.logN - 3 ∧ KeyBound a.die ks h 2 g h.level)) →
        (∀ l ∈ dsts, dstFits s a.die (maskClusters mask) l h c.pCount (limbsOf c h) = true) → scaleOk h = true →
        ∃ t, exec (.hrot a mask src gs dsts slot) s = .next t ∧
          CluDone a mask j [src] dsts [h] (gs.map fun g => (h' g, b' g)) slot (gs.filter (· != 1)).length es s t) ∧
      (∀ (src dst : Loc) (terms : List (Nat × Loc)) (x : Src) (ys : List Src),
        CluReady s a mask j (src :: terms.map (·.2)) [dst] c (x :: ys) slots es →
        let h := x.header
        let hs := h :: ys.map (·.header)
        let gs := terms.map (·.1)
        let h' := settle c cat hs { mulHead c hs with noise := newNoise hs (hrotSumNoise c cat gs hs) }
        let ts := (terms.zip ys).map fun e => ({ g := e.1.1, pt := partOf (limbsAt s a mask c e.2) 0
                                                 key := if e.1.1 = 1 then [] else keyOf s a.die c ks 2 e.1.1 h.level } : HrotTerm)
        h.isCt = true → h.parts = 2 → h.ntt = true → h.extended = false → 1 ≤ gs.length → gs.length ≤ 64 →
        (∀ y ∈ ys, y.header.isCt = false ∧ y.header.extended = true ∧ ∀ z ∈ ys, y.header.scale = z.header.scale) →
        (∀ g ∈ gs, g = 1 ∨ (g % 2 = 1 ∧ 3 ≤ g ∧ g ≤ 2 * 2 ^ h.logN - 3 ∧ KeyBound a.die ks h 2 g h.level)) →
        scaleOk h' = true → dstFits s a.die (maskClusters mask) dst h' c.pCount (limbsOf c h') = true →
        ∃ t, exec (.hrotSum a mask src terms dst slot) s = .next t ∧
          CluDone a mask j (src :: terms.map (·.2)) [dst] hs [(h', hrotSumBody (ringCtx c cat h) ts (limbsAt s a mask c x))] slot
            (gs.filter (· != 1)).length es s t))

/-- ENCODE writes the plaintext of R119 from a handle of N signed coefficients; DECODE writes the centred coefficients of limb 0 of a plaintext to a
handle (R120). TEMPER under a configuration of the partition (R135 to R143): the level, scale and noise of its result, the key streams it draws, and
its limbs: the source raised to every Q limb and traced, then carried through transforms and EvalMod by a free function of the configuration, the keys
and what was raised (log 24); the workspace after it is free. -/
def Obligations.EncodeDecodeTemper : Prop :=
  (∀ (s : State) (a : Site) (mask : BitVec 8) (j : Job) (c : Chain) (es : List SbEntry),
      (∀ (src : Nat) (dst : Loc) (q : EncodeReq), Ready s a j → mask ≠ 0 → locCheck s a.die (.handle src) = .pass → dstCheck s a.die dst = .pass →
        (∃ m, sbAdmit s a.die (locRanges s a.die false [.handle src] ++ locRanges s a.die true [dst]) = some (es, m)) →
        (handleOf s a.die src).poisoned = false → chainOf s j.part q.chain = some c → q.level < c.qCount →
        q.scheme = 1 ∨ q.scheme = 2 → 12 ≤ q.logN → q.logN ≤ 17 → (q.scheme = 2 → c.t q.tIndex ≠ 0) →
        (q.scheme = 1 → 256 ≤ q.scale ∧ q.scale ≤ 552960) → slotsOk q.scheme q.logN q.logSlots (c.t q.tIndex) = true →
        ceilDiv (2 ^ q.logN * 8) 288 ≤ (handleOf s a.die src).rows →
        let t₀ := c.t q.tIndex
        let h : Header := { headerZero with
          formatTag := 0xC711, scheme := q.scheme, parts := 1, logN := q.logN, level := q.level, chainId := q.chain, paramSet := q.paramSet
          keysetTag := q.tag.toNat, scale := if q.scheme = 1 then q.scale else 1, tIndex := if q.scheme = 1 then 0 else q.tIndex
          logSlots := q.logSlots, ntt := q.ntt, extended := q.extended
          noise := clampNoise (if q.scheme = 1 then gammaOf q.logN - 16 else 16 * (q.logN : Int) + tauOf t₀ - 16) }
        let ws := (chunks 8 (handleBytes s a.die src 0 (2 ^ q.logN * 8))).map fun b => toSigned 64 (leNat b)
        let ps := c.primes s.fuses.primes q.level q.extended
        let b : PolyBody := [ps.map fun p =>
          let l := (if q.scheme = 2 then ws.map fun w => centred (imod w t₀) t₀ else ws).map fun w => imod w p
          if q.ntt then nttLimb p q.logN l else l]
        dstFits s a.die (maskClusters mask) dst h c.pCount (limbsOf c h) = true →
        secretOut s a.die (handleOf s a.die src).isSecret [(dst, h)] = .pass →
        ∃ t, exec (.encode a mask src dst q) s = .next t ∧ CluDone a mask j [.handle src] [dst] [] [(h, b)] 0 0 es s t) ∧
      (∀ (src : Loc) (dst : Nat) (x : Src) (slots : List Nat), CluReady s a mask j [src] [.handle dst] c [x] slots es →
        x.header.isCt = false → ceilDiv (2 ^ x.header.logN * 8) 288 ≤ (handleOf s a.die dst).rows →
        (x.secret = true → (handleOf s a.die dst).isSecret = true) →
        let q₀ := primeAt s.fuses.primes (c.qList.getD 0 0)
        let l := ((limbsAt s a mask c x).headD []).headD []
        let ws := (if x.header.ntt then inttLimb q₀ x.header.logN l else l).map fun v => centred v q₀
        ∃ t, exec (.decode a mask src dst) s = .next t ∧
          (dieOf t a.die).scratch = memPut (dieOf s a.die).scratch ((handleOf s a.die dst).base * 288) (ws.flatMap fun w => leBytes 8 (ofSigned 64 w)) ∧
          (dieOf t a.die).bufs = (dieOf s a.die).bufs ∧ (dieOf t a.die).slots = (dieOf s a.die).slots ∧
          (dieOf t a.die).bufSecret = (dieOf s a.die).bufSecret ∧
          cluRest (dieOf t a.die) = cluRest (dieOf s a.die) ∧ (∃ o, InFlight a j 1 es o s t) ∧
          Frame [.dies, .counters, .jobs, .nextId] s t)) ∧
  (∀ (s : State) (a : Site) (j : Job) (src dst : Loc) (id slot work : Nat) (c : Chain) (x : Src) (slots : List Nat) (es : List SbEntry)
      (cf : TemperCfg),
      CluReady s a 0xFF j [src] [dst] c [x] slots es [.handle work] → tblGet (partOfIx s j.part).tempers id = some cf → c.pCount ≠ 0 →
      let cat := s.fuses.primes
      let h := x.header
      let w := handleOf s a.die work
      let l := (cf.lOut c.qCount).toNat
      let qs := c.qPrimes cat (c.qCount - 1)
      let h' := settle c cat [h] { h with level := l, scale := cf.outScale
                                          noise := newNoise [h] (lsum ((h.noise : Int) + sOf cf.outScale - sOf h.scale) cf.approx) }
      cf.chain = h.chainId → cf.logN = h.logN → cf.logSlots = h.logSlots → h.isCt = true → h.parts = 2 → h.ntt = true → h.extended = false →
      h.scheme = 1 → natDiff h.scale cf.inScale ≤ 16 → w.valid = true → cf.workRows c.qCount c.pCount ≤ w.rows →
      (∀ e ∈ occupied s a.die [x] dst, overlaps (handleRange s a.die work 0 w.rows true) e = false) →
      (∀ k ∈ cf.needs c.qCount, KeyBound a.die (ksOf s j.part slot) h k.1 k.2.1 k.2.2) →
      dstFits s a.die (maskClusters 0xFF) dst h' c.pCount (limbsOf c h') = true →
      let r := { ringCtx c cat h with qs := qs }
      let ks := (cf.needs c.qCount).map fun k => keyOf s a.die c (ksOf s j.part slot) k.1 k.2.1 k.2.2
      let raised : PolyBody := (limbsAt s a 0xFF c x).map fun p => qs.map fun q =>
        nttLimb q h.logN (((inttLimb (qs.headD 1) h.logN (p.headD [])).map fun v => centred v (qs.headD 1)).map fun v => imod v q)
      let traced := if cf.logSlots + 1 = cf.logN then raised
        else (cf.traceElems.zip (ks.drop (cf.amounts.length + 1))).foldl (fun ct gk => List.zipWith (addParts r) ct (rotateBody r gk.1 gk.2 ct)) raised
      let b : PolyBody := (List.range 2).map fun p => (qs.take (l + 1)).zipIdx.map fun q => (List.range (2 ^ h.logN)).map fun k =>
        Config.temperTail cf.raw qs traced ks p q.2 k % q.1
      ∃ t, exec (.temper a src dst id slot work) s = .next t ∧
        CluDone a 0xFF j [src] [dst] [h] [(h', b)] slot cf.streams es
          { updDie a.die (fun d => { d with scratch := freeMem d.scratch (w.base * 288) (w.rows * 288) (s.free + 1) }) s with free := s.free + 2 } t)

/-- SHR_ADD, SHR_SUB, SHR_NEG, SHR_SMUL and SHR_CADD (R150 to R153): the shares that each writes. SHR_OPEN, SECAGG, BEAVER_MUL and SHR_SPLIT start an
exchange (R152 to R159): the session's OPEN_SEQ is taken, each peer is sent its message, the operation waits for theirs. BEAVER_MUL uses up 2^n
triples. The shares of SHR_SPLIT are free values (log 9), and its exchange, the events of refused forms and the place of a pool are the model's (logs
33, 97, 98). -/
def Obligations.ShareOperations : Prop :=
  (∀ (s : State) (a : Site) (mask : BitVec 8) (j : Job) (x : Session) (slot n dst : Nat) (es : List SbEntry),
      let d := a.die
      let q := ringOfSession s j.part x
      let done (t : State) (out : List Nat) : Prop :=
        (dieOf t d).scratch = memPut (dieOf s d).scratch ((handleOf s d dst).base * 288) (shareObject x slot n out) ∧
        scratchRest (dieOf t d) = scratchRest (dieOf s d) ∧ (∃ o, InFlight a j 1 es o s t) ∧ Frame [.dies, .counters, .jobs, .nextId] s t
      (∀ h k, ShrReady s a mask j [h, k] [] [dst] [] x slot n es →
        (∃ t, exec (.shrAdd a mask h k dst) s = .next t ∧ done t (List.zipWith (fun v w => (v + w) % q) (shareIn s d h) (shareIn s d k))) ∧
        ∃ t, exec (.shrSub a mask h k dst) s = .next t ∧ done t (limbSub q (shareIn s d h) (shareIn s d k))) ∧
      (∀ h, ShrReady s a mask j [h] [] [dst] [] x slot n es →
        (∃ t, exec (.shrNeg a mask h dst) s = .next t ∧ done t (limbNeg q (shareIn s d h))) ∧
        ∀ sc, scalarBusy s d [sc] = false → sc ∉ (dieOf s d).scalarPoison →
          ∃ t, exec (.shrSmul a mask h sc dst) s = .next t ∧ done t ((shareIn s d h).map fun v => v * (scalarOf s d sc % q) % q)) ∧
      ∀ h k, ShrReady s a mask j [h] [k] [dst] [] x slot n es →
        ∃ t, exec (.shrCadd a mask h k dst) s = .next t ∧ done t (if x.self = 0 then
          List.zipWith (fun v w => (v + w) % q) (shareIn s d h) ((List.range (2 ^ n)).map fun i => fieldAt (handleBytes s d k (8 * i) 8) 0 8 % q)
          else shareIn s d h)) ∧
  (∀ (s : State) (a : Site) (mask : BitVec 8) (j : Job) (x : Session) (slot n dst : Nat) (es : List SbEntry),
      let d := a.die
      let q := ringOfSession s j.part x
      let peers := (List.range x.parties).filter (· != x.self)
      let sent (i : Nat) (body : List Nat) (deal : Option Nat) : Output := .exchange (x.place i).1 (x.place i).2
        { part := j.part, port := none, epoch := j.epoch % 2 ^ 16, tag := BitVec.ofNat 64 x.tag, party := x.self, m := 2 ^ n, openSeq := x.openSeq
          dealSeq := deal, body := body }
      let begun (t : State) (mem : Mem) (msgs : List Output) (y : Session) (e : Exch) : Prop :=
        (dieOf t d).scratch = mem ∧ scratchRest (dieOf t d) = scratchRest (dieOf s d) ∧ (∃ o, InFlight a j 1 es o s t ∧ o.exch = some e) ∧
        t.out = s.out ++ msgs ∧ sessionOf t j.part slot = some { y with openSeq := (x.openSeq + 1) % 2 ^ 32 } ∧
        Frame [.dies, .counters, .jobs, .nextId, .parts, .out, .free] s t
      let e : Exch := { part := j.part, session := slot, kind := .opening, openSeq := x.openSeq, dealSeq := none, m := 2 ^ n, got := [], own := []
                        triple := ([], [], []), dst := dst, recv := [] }
      x.self ≠ 3 → (∀ i ∈ peers, shareRoute s d (x.place i).1 = .send ∧
        ((x.place i).1 ≠ s.fabric.partId → partRefused s j (x.place i).1 = .pass)) → (∀ m ∈ x.early, m.1.openSeq ≠ x.openSeq) →
      (∀ h, ShrReady s a mask j [h] [] [] [dst] x slot n es →
        ∃ t, exec (.shrOpen a mask h dst) s = .next t ∧ begun t (dieOf s d).scratch (peers.map fun i => sent i (shareIn s d h) none) x { e with own := shareIn s d h }) ∧
      (∀ h hs, hs.length < 16 → ShrReady s a mask j (h :: hs) [] [] [dst] x slot n es →
        let own := hs.foldl (fun acc k => limbAdd q acc (shareIn s d k)) (shareIn s d h)
        ∃ t, exec (.secagg a mask (h :: hs) dst) s = .next t ∧ begun t (dieOf s d).scratch (peers.map fun i => sent i own none) x { e with own := own }) ∧
      (∀ h k, ShrReady s a mask j [h, k] [] [dst] [] x slot n es → 2 ^ n ≤ x.cap → 2 ^ n ≤ x.pool.length →
        let ts := x.pool.take (2 ^ n)
        let own := limbSub q (shareIn s d h) (ts.map (·.1)) ++ limbSub q (shareIn s d k) (ts.map (·.2.1))
        ∃ t, exec (.beaverMul a mask h k dst) s = .next t ∧ begun t (dieOf s d).scratch (peers.map fun i => sent i own (some x.consumed)) (takeTriples (2 ^ n) x)
          { e with kind := .beaver, dealSeq := some x.consumed, own := own, triple := (ts.map (·.1), ts.map (·.2.1), ts.map (·.2.2)) }) ∧
      ∀ clear recv, ShrReady s a mask j [] [clear] (dst :: recv) [] x slot n es → 12 ≤ n → n ≤ 17 → recv.length = peers.length →
        ∃ rs : List (List Nat), rs.length = peers.length ∧ (∀ r ∈ rs, r.length = 2 ^ n) ∧
          let own := rs.foldl (fun acc r => limbSub q acc r)
            ((List.range (2 ^ n)).map fun i => fieldAt (handleBytes s d clear (8 * i) 8) 0 8 % q)
          ∃ t, exec (.shrSplit a mask slot n clear dst recv) s = .next t ∧ begun t
            (memPut (dieOf s d).scratch ((handleOf s d dst).base * 288) (shareObject x slot n own))
            ((peers.zip rs).map fun y => sent y.1 y.2 none) x { e with kind := .split, own := own, recv := recv })

/-- DEAL (R157): the dealer splits n random triples among the parties; what the parties hold adds up to c = a·b in the session's ring. A delivery goes
out to a party that has room for it, and waits here else; what another part has room for is free (log 33). What arrives for a session (R157 to R161,
R353, R357, R361): a peer's message joins the exchange that waits for it, or is kept for one to come; one that disagrees and an abort marker quench
the job, a late one is counted; what the rules bar is discarded by reason, what belongs to the next epoch held. A delivery that has room enters the
pool in DEAL_SEQ order. The limit on an exchange quenches its job. Triples are free values (log 9), and what becomes of a delivery that has no room is
the model's (log 33). -/
def Obligations.DealsAndArrivals : Prop :=
  (∀ (s : State) (a : Site) (j : Job) (x : Session) (slot n : Nat), Ready s a j → sessionOf s j.part slot = some x → x.self = 3 → 1 ≤ n →
      n ≤ x.cap → x.outDeals = [] → (∀ i < x.parties, shareRoute s a.die (x.place i).1 = .send ∧
        ((x.place i).1 ≠ s.fabric.partId → partRefused s j (x.place i).1 = .pass)) → 1 ≤ ringOfSession s j.part x →
      let q := ringOfSession s j.part x
      let sum (l : List (List Nat)) : List Nat := l.foldl (limbAdd q) (List.replicate n 0)
      ∃ t, exec (.deal a slot n) s = .next t ∧ ∃ o ms, ∃ sent : Nat → Bool, ms.length = x.parties ∧
        (∀ m ∈ ms, m.part = j.part ∧ m.epoch = j.epoch % 2 ^ 16 ∧ m.tag = BitVec.ofNat 64 x.tag ∧ m.dealSeq = x.dealSeq ∧ m.a.length = n ∧
          m.b.length = n ∧ m.c.length = n) ∧
        sum (ms.map (·.c)) = limbMul q (sum (ms.map (·.a))) (sum (ms.map (·.b))) ∧
        (let places := (List.range x.parties).zip ms
         t.out = s.out ++ (places.filter fun y => sent y.1).map (fun y => Output.deal (x.place y.1).1 (x.place y.1).2 y.2) ∧
         sessionOf t j.part slot = some { x with
           dealSeq := (x.dealSeq + n) % 2 ^ 32, outDeals := (places.filter fun y => !(sent y.1)).map fun y => (a.die, y.1, y.2) }) ∧
        (∀ i < x.parties, (x.place i).1 = s.fabric.partId →
          ∀ y, (partOfIx s (dieBits (x.place i).2)).sessions.find? (fun y => y.2.tag == x.tag) = some y →
            sent i = decide (diff32 (x.dealSeq + n) y.2.consumed ≤ x.cap)) ∧
        InFlight a j 1 [] o s t ∧ (dieOf t a.die).scratch = (dieOf s a.die).scratch ∧
        scratchRest (dieOf t a.die) = scratchRest (dieOf s a.die) ∧ Frame [.dies, .jobs, .nextId, .parts, .out, .free] s t) ∧
  (∀ (s : State) (slot : Nat) (x : Session),
      let discarded (n : PortIx) (r : Nat) (t : State) : Prop :=
        tblGetD (portOf t n).discards r 0 = tblGetD (portOf s n).discards r 0 + 1 ∧ Frame [.ports] s t
      let barred (port : Option PortIx) (t : State) : Prop := ∀ n, port = some n →
        (s.fabric.valid = false → discarded n 5 t) ∧ (s.fabric.valid = true → (portOf s n).keyState ≠ .on → discarded n 6 t)
      (∀ m : ExMsg, shareBarred s m.port = none → sessionOfTag s m.part m.tag.toNat = some (slot, x) → sessionOf s m.part slot = some x →
        m.party < x.parties → m.party ≠ x.self → (m.port ≠ none → memberHeld s (x.place m.party).1 = true) →
        (m.port ≠ none → m.epoch ∈ epochsHeld s) →
        let w := leastExch ((exchsOf s m.part slot).filter fun y => !y.2.2.got.any (·.1 == m.party))
        (∀ d o e j, w = some (d, o, e) → opOf s d o.id = some o → o.exch = some e → jobOf s o.job = some j →
          (m.openSeq = e.openSeq →
            let fits := m.tag.toNat = x.tag ∧ m.m = e.m ∧ m.dealSeq = e.dealSeq ∧ m.body.length = (if e.kind = .beaver then 2 * e.m else e.m)
            (fits → ∃ t, exec (.exchangeMessage m) s = .next t ∧
              opOf t d o.id = some { o with exch := some { e with got := e.got ++ [(m.party, m.body)] } } ∧
              { dieOf t d with ops := [] } = { dieOf s d with ops := [] } ∧ OtherDies d s t ∧ Frame [.dies] s t) ∧
            (¬fits → ∃ t, exec (.exchangeMessage m) s = .next t ∧ OpFailed d o j 1 0x0102 s t) ∧
            ∃ t, exec (.abortMarker m) s = .next t ∧ OpFailed d o j 1 0x0107 s t) ∧
          (m.openSeq ≠ e.openSeq → diff32 m.openSeq e.openSeq < 2 ^ 31 → ∃ t, exec (.exchangeMessage m) s = .next t ∧ OpFailed d o j 1 0x0102 s t) ∧
          (2 ^ 31 ≤ diff32 m.openSeq e.openSeq → exec (.exchangeMessage m) s = .next (countLate d s))) ∧
        (w = none → diff32 m.openSeq x.openSeq < 2 ^ 31 → ∃ t, exec (.exchangeMessage m) s = .next t ∧
          sessionOf t m.part slot = some { x with early := x.early ++ [(m, false)] } ∧ Frame [.parts] s t)) ∧
      (∀ m : ExMsg, shareBarred s m.port ≠ none → ∃ t, exec (.exchangeMessage m) s = .next t ∧ exec (.abortMarker m) s = .next t ∧ barred m.port t) ∧
      (∀ (m : ExMsg) (n : PortIx), shareBarred s (some n) = none → m.port = some n → sessionOfTag s m.part m.tag.toNat = some (slot, x) →
        m.party < x.parties → m.party ≠ x.self →
        (memberHeld s (x.place m.party).1 = false → ∃ t, exec (.exchangeMessage m) s = .next t ∧ discarded n 3 t) ∧
        (memberHeld s (x.place m.party).1 = true → m.epoch ∉ epochsHeld s → m.epoch = (s.fabric.epoch + 1) % 2 ^ 16 →
          (portOf s n).holdBuf.length < 64 → ∃ t, exec (.exchangeMessage m) s = .next t ∧
            (portOf t n).holdBuf = (portOf s n).holdBuf ++ [.exchange m false] ∧ Frame [.ports] s t)) ∧
      (∀ m : DealMsg, shareBarred s m.port ≠ none → ∃ t, exec (.dealDelivery m) s = .next t ∧ barred m.port t) ∧
      (∀ m : DealMsg, shareBarred s m.port = none → sessionByTag s m.part m.tag.toNat = some (slot, x) → sessionOf s m.part slot = some x →
        x.self ≠ 3 → diff32 m.dealSeq x.dealSeq < 2 ^ 31 → x.heldDeals = [] → (m.port ≠ none → memberHeld s (x.place 3).1 = true) →
        (m.port ≠ none → m.epoch ∈ epochsHeld s) →
        let room := x.pool.length + diff32 m.dealSeq x.dealSeq + m.a.length ≤ x.cap
        (room → ∃ t, exec (.dealDelivery m) s = .next t ∧
          sessionOf t m.part slot = some (if m.dealSeq = x.dealSeq then
              { x with pool := x.pool ++ m.a.zip (m.b.zip m.c), dealSeq := (x.dealSeq + m.a.length) % 2 ^ 32 }
            else { x with heldDeals := [(m.dealSeq, m.a, m.b, m.c, m.a.length)] }) ∧ Frame [.parts] s t) ∧
        (¬room → exec (.dealDelivery m) s = .next s)) ∧
      ∀ p, let w := leastExch ((exchsOf s p slot).filter fun y => !(exchReady s y.2.2))
        (w = none → exec (.exchangeTimeout p slot) s = .next s) ∧
        ∀ d o e j, w = some (d, o, e) → jobOf s o.job = some j → ∃ t, exec (.exchangeTimeout p slot) s = .next t ∧ OpFailed d o j 1 0x0504 s t)

/-- The elementwise vector operations (R200, R201, R184, R190, R191): each result element is the function of the source elements at its position, with
−0 written as +0. RECIP, RSQRT, EXP2 and LOG2 pick a free value within their bound (log 25). -/
def Obligations.VectorElementwise : Prop :=
  ∀ (s : State) (a : Site) (j : Job) (g : Fin 2) (n : Nat) (dst : VOp) (slots : List Nat) (es : List SbEntry),
    let done (t : State) (srcs : List (VOp × VFmt)) (out : List Nat) : Prop :=
      VecDone a j g srcs dst .fp32 (out.zipIdx.map fun x => (x.2, pz x.1)) es s t
    (∀ x, let srcs := [(x, VFmt.fp32)]
      VecReady s a j g n srcs dst .fp32 n false slots es →
      let xs := vecIn s a g n srcs slots 0
      (∃ t, exec (.abs a g n x dst) s = .next t ∧ done t srcs (xs.map fabs)) ∧ (∃ t, exec (.neg a g n x dst) s = .next t ∧ done t srcs (xs.map fneg)) ∧
      (∃ t, exec (.recip a g n x dst) s = .next t ∧ done t srcs (xs.map frecip)) ∧ (∃ t, exec (.rsqrt a g n x dst) s = .next t ∧ done t srcs (xs.map frsqrt)) ∧
      (∃ t, exec (.sqrt a g n x dst) s = .next t ∧ done t srcs (xs.map fsqrt)) ∧ (∃ t, exec (.exp2 a g n x dst) s = .next t ∧ done t srcs (xs.map fexp2)) ∧
      (∃ t, exec (.log2 a g n x dst) s = .next t ∧ done t srcs (xs.map flog2))) ∧
    (∀ x y, let srcs := [(x, VFmt.fp32), (y, VFmt.fp32)]
      VecReady s a j g n srcs dst .fp32 n false slots es →
      let xs := vecIn s a g n srcs slots 0
      let ys := vecIn s a g n srcs slots 1
      (∃ t, exec (.add a g n x y dst) s = .next t ∧ done t srcs (List.zipWith fadd xs ys)) ∧ (∃ t, exec (.sub a g n x y dst) s = .next t ∧ done t srcs (List.zipWith fsub xs ys)) ∧
      (∃ t, exec (.mul a g n x y dst) s = .next t ∧ done t srcs (List.zipWith fmul xs ys)) ∧ (∃ t, exec (.min a g n x y dst) s = .next t ∧ done t srcs (List.zipWith fmin xs ys)) ∧
      (∃ t, exec (.max a g n x y dst) s = .next t ∧ done t srcs (List.zipWith fmax xs ys)) ∧
      ∀ r, (∃ t, exec (.cmp a g n r x y dst) s = .next t ∧ done t srcs (List.zipWith (fun v w => if relHolds r v w then 0x3F800000 else 0) xs ys))) ∧
    ∀ x y z, let srcs := [(x, VFmt.fp32), (y, VFmt.fp32), (z, VFmt.fp32)]
      VecReady s a j g n srcs dst .fp32 n false slots es →
      let xs := vecIn s a g n srcs slots 0
      let ys := vecIn s a g n srcs slots 1
      let zs := vecIn s a g n srcs slots 2
      (∃ t, exec (.fma a g n x y z dst) s = .next t ∧ done t srcs (List.zipWith (fun v w => ffma v w.1 w.2) xs (ys.zip zs))) ∧
      (∃ t, exec (.sel a g n x y z dst) s = .next t ∧ done t srcs (List.zipWith (fun c w => if (f32 c).isZero then w.2 else w.1) xs (ys.zip zs)))

/-- Reductions over n elements, rows or columns (R190, R191, R203), sorts (R191), movement with transposition (R201), FIX and FLT (R201) and their NaN
count (R183). SORT and ARGSORT put the elements in ascending order of the total order of R191, equal elements in the order in which they stood. The
formats of the operands are the model's reading (log 29). -/
def Obligations.VectorReductionsSortsAndMoves : Prop :=
  (∀ (s : State) (a : Site) (j : Job) (g : Fin 2) (n : Nat) (x dst : VOp) (slots : List Nat) (es : List SbEntry),
      let done (t : State) (f : VFmt) (srcs : List (VOp × VFmt)) (out : List (Nat × Nat)) : Prop :=
        VecDone a j g srcs dst f out es s t
      let plain (l : List Nat) : List (Nat × Nat) := l.zipIdx.map fun e => (e.2, e.1)
      let fp := [(x, VFmt.fp32)]
      let xs := vecIn s a g n fp slots 0
      (∀ form, (form = .all ∨ ∃ z, x = .tile z) → let m := if form = RedForm.all then 1 else 64
        (VecReady s a j g n fp dst .fp32 m false slots es →
          (∃ t, exec (.rsum a g n form x dst) s = .next t ∧ done t .fp32 fp (plain ((redGroups form xs).map fun l => pz (if form = .cols then l.foldl fadd 0 else laneSum 64 l)))) ∧
          (∃ t, exec (.rmax a g n form x dst) s = .next t ∧ done t .fp32 fp (plain ((redGroups form xs).map fun l => pz (l.foldl fmax 0x7FC00000)))) ∧
          (∃ t, exec (.rmin a g n form x dst) s = .next t ∧ done t .fp32 fp (plain ((redGroups form xs).map fun l => pz (l.foldl fmin 0x7FC00000))))) ∧
        (VecReady s a j g n fp dst .u32 m false slots es →
          (∃ t, exec (.rargmax a g n form x dst) s = .next t ∧ done t .u32 fp (plain ((redGroups form xs).map argmax))))) ∧
      (VecReady s a j g n fp dst .fp32 n false slots es → (∃ t, exec (.sort a g n x dst) s = .next t ∧ done t .fp32 fp (plain ((sortKeys xs).map fun e => pz e.1)))) ∧
      (VecReady s a j g n fp dst .u32 n false slots es → (∃ t, exec (.argsort a g n x dst) s = .next t ∧ done t .u32 fp (plain ((sortKeys xs).map (·.2))))) ∧
      (∀ f, (∀ sc, x ≠ .scalar sc ∧ dst ≠ .scalar sc) → moveFmt s a.die [x, dst] = f → VecReady s a j g n [(x, f)] dst f n false slots es →
        let ys := vecIn s a g n [(x, f)] slots 0
        (∃ t, exec (.vstore a g n x dst) s = .next t ∧ done t f [(x, f)] (plain ys)) ∧ (∃ t, exec (.vload a g n false x dst) s = .next t ∧ done t f [(x, f)] (plain ys)) ∧
        ∀ z, dst = .tile z → (∃ t, exec (.vload a g n true x dst) s = .next t ∧ done t f [(x, f)] (ys.zipIdx.map fun e => (e.2 % 64 * 64 + e.2 / 64, e.1)))) ∧
      (∀ k ≤ 62, VecReady s a j g n [(x, .i64)] dst .fp32 n false slots es →
        (∃ t, exec (.flt a g n k x dst) s = .next t ∧ done t .fp32 [(x, .i64)] (plain ((vecIn s a g n [(x, .i64)] slots 0).map (fltOf k))))) ∧
      ∀ k ≤ 62, VecReady s a j g n fp dst .i64 n false slots es →
        let nans := xs.countP fun v => (f32 v).isNan
        (nans = 0 → (∃ t, exec (.fix a g n k x dst) s = .next t ∧ done t .i64 fp (plain (xs.map (fixOf k))))) ∧
        (nans ≠ 0 → ∃ t o, exec (.fix a g n k x dst) s = .next t ∧ VecMem a.die (vWrite a.die g .i64 (plain (xs.map (fixOf k))) dst s) t ∧
          InFlight a j 4 es o s t ∧ Logged 0x0A04 (evJob j a 4 0 false) s t ∧
          queueOf t a.die a.queue = { queueOf s a.die a.queue with nanCount := Nat.min ((queueOf s a.die a.queue).nanCount + nans) 0xFFFFFFFF } ∧
          (∀ q, q ≠ a.queue → queueOf t a.die q = queueOf s a.die q) ∧
          { vecRest (dieOf t a.die) with queues := (dieOf s a.die).queues } = vecRest (dieOf s a.die) ∧ Frame (logAreas ++ [.dies, .jobs, .nextId]) s t)) ∧
  (∀ xs : List Nat, (sortKeys xs).Perm xs.zipIdx ∧
      (sortKeys xs).Pairwise fun e f => (f32 e.1).cmp (f32 f.1) < 0 ∨ ((f32 e.1).cmp (f32 f.1) = 0 ∧ e.2 < f.2))

/-- CVT and TMUL into tensors (R176, R179 to R188, R192, R195): the FP32 result, the conversion by blocks or tiles, the palette entry, and a saturated
conversion, which poisons its destination and quenches the job (R182). Reads that clear (R183, R186, R188): a palette entry's AMAX, UPDATES and
SATURATED, and the queue's NAN_COUNT, go to a scalar register, and what was read is at its reset value. Overflow into a format with Inf and X_t out of
range are the model's readings (logs 26 and 27). -/
def Obligations.ConversionsAndProducts : Prop :=
  (∀ (s : State) (a : Site) (j : Job) (slots : List Nat) (es : List SbEntry),
      let d := a.die
      (∀ (g : Fin 2) (n : Nat) (x dst : VOp) (xt : Nat), VecReady s a j g n [(x, .fp32)] dst .fp32 n true slots es →
        let row := (vRows s d [x] slots).getD 0 0
        let vals := vValues s d g n row x
        ((∀ i, dst ≠ .desc i) → ∃ t, exec (.cvt a g n x dst xt none) s = .next t ∧
          VecDone a j g [(x, .fp32)] dst .fp32 (vals.zipIdx.map fun e => (e.2, w32 e.1)) es s t) ∧
        ∀ i t₀, dst = .desc i → descOf s d i = some t₀ →
          (t₀.ety.scaling = .tile → scalarBusy s d (vScalars [x] ++ [xt]) = false ∧ scalarBad s d [xt] = false ∧ xtOk (xtOf s d xt) = true) →
          let c := convInto t₀ vals (xtOf s d xt)
          (c.saturated = none → c.nans = 0 → c.recomputed = 0 → ∃ t o, exec (.cvt a g n x dst xt none) s = .next t ∧
            VecMem d (writeScales t₀ 0 c.scales (writeElems t₀ 0 (c.codes.map fun e => (t₀.off (t₀.tuple e.1), e.2)) s)) t ∧
            InFlight a j 4 es o s t ∧ vecRest (dieOf t d) = vecRest (dieOf s d) ∧ Frame [.dies, .counters, .jobs, .nextId] s t) ∧
          (∀ k, c.saturated = some k → c.nans = 0 → c.recomputed = 0 → ∃ t, exec (.cvt a g n x dst xt none) s = .next t ∧
            LoggedFirst 0x0A02 (evJob j a 4 k false) s t ∧ JobQuenched j s t ∧ Frame jobQuenchAreas s t)) ∧
      ∀ (g : TmulArgs) (t₁ t₂ : Desc), Ready s a j → engineHere s d 2 = true → descOf s d g.a = some t₁ → descOf s d g.b = some t₂ →
        (∀ i ∈ [g.a, g.b] ++ g.cin.toList, engineDesc s d true i = .pass) → (∀ i ∈ g.fp32.toList ++ g.conv.toList, engineDesc s d false i = .pass) →
        tmulForm s d g = .pass → ringCheck s d (descRings s d (tmulSrcs g)) = none → ringSlots s d (descRings s d (tmulSrcs g)) = some slots →
        (∃ m, sbAdmit s d (descRanges s d false (tmulSrcs g) ++ descRanges s d true (tmulDsts g)) = some (es, m)) →
        descPoison s d (tmulSrcs g) = .pass → g.palette = none →
        let rows := slotRows s d (tmulSrcs g) slots
        let cin := g.cin.bind fun i => (descOf s d i).map fun c => (c, rows.getD 2 0)
        let vals := tmulValues s t₁ t₂ (rows.getD 0 0) (rows.getD 1 0) cin
        (∀ i t₃, g.fp32 = some i → g.conv = none → descOf s d i = some t₃ → ∃ t o, exec (.tmul a g) s = .next t ∧
          VecMem d (writeElems t₃ 0 (vals.zipIdx.map fun v => (t₃.off (t₃.tuple v.2), w32 (f32 v.1))) s) t ∧
          InFlight a j 3 es o s t ∧ TookSlots d (descRings s d (tmulSrcs g)) s t ∧ vecRest (dieOf t d) = vecRest (dieOf s d) ∧
          Frame [.dies, .counters, .jobs, .nextId] s t) ∧
        (∀ i t₃, g.fp32 = none → g.conv = some i → descOf s d i = some t₃ → scalarBusy s d [g.xt] = false → scalarBad s d [g.xt] = false →
          (t₃.ety.scaling = .tile → xtOk (xtOf s d g.xt) = true) →
          let c := convInto t₃ (vals.map f32) (xtOf s d g.xt)
          c.saturated = none → c.nans = 0 → c.recomputed = 0 → ∃ t o, exec (.tmul a g) s = .next t ∧
            VecMem d (writeScales t₃ 0 c.scales (writeElems t₃ 0 (c.codes.map fun e => (t₃.off (t₃.tuple e.1), e.2)) s)) t ∧
            InFlight a j 3 es o s t ∧ vecRest (dieOf t d) = vecRest (dieOf s d) ∧ Frame [.dies, .counters, .jobs, .nextId] s t)) ∧
  (∀ (s : State) (a : Site) (j : Job) (sc : Nat), Ready s a j → scalarBusy s a.die [sc] = false →
      let x := dieOf s a.die
      (∀ e, ∃ t, exec (.paletteReadClear a e sc) s = .next t ∧
        (let p := tblGetD x.palette e Pal.zero
         dieOf t a.die = { x with
           scalars := tblSet x.scalars sc ((p.amax + p.updates * 2 ^ 32 + (if p.saturated then 1 else 0) * 2 ^ 48) % 2 ^ 64)
           scalarPoison := x.scalarPoison.filter (· != sc), palette := tblDel x.palette e, palettePoison := x.palettePoison.filter (· != e) }) ∧
        (∀ f, f ≠ a.die → dieOf t f = dieOf s f) ∧ Frame [.dies] s t) ∧
      ∃ t, exec (.nanCountReadClear a sc) s = .next t ∧ scalarOf t a.die sc = (queueOf s a.die a.queue).nanCount % 2 ^ 64 ∧
        (∀ r, r ≠ sc → scalarOf t a.die r = scalarOf s a.die r) ∧ queueOf t a.die a.queue = { queueOf s a.die a.queue with nanCount := 0 } ∧
        (∀ f, f ≠ a.die → dieOf t f = dieOf s f) ∧ Frame [.dies] s t)

/-- UPD_NORM adds the squares of the gradient and counts what is not finite (R210); UPD_APPLY makes the step of R211 to R217 and advances STEP_COUNT,
or, where the overflow flag says so, skips it and logs 0x0A05 (R211). -/
def Obligations.UpdateEngine : Prop :=
  ∀ (s : State) (a : Site) (j : Job) (es : List SbEntry), memsOk s → Ready s a j → engineHere s a.die 4 = true →
    let d := a.die
    (∀ g : NormArgs, let u := updOfBytes (handleBytes s d g.desc 0 64)
      let n := u.gradElems g.rows
      let w := if u.grad16 then 2 else 4
      (∀ h ∈ [g.desc, g.grad], (handleOf s d h).valid = true ∧ (handleOf s d h).ring = false ∧ (handleOf s d h).poisoned = false ∧ (handleOf s d h).isSecret = false) →
      updSound (handleBytes s d g.desc 0 64) = true → n * w ≤ (handleOf s d g.grad).rows * 288 →
      scalarBusy s d [g.sca, g.scb] = false → scalarBad s d [g.sca, g.scb] = false → g.sca ≠ g.scb →
      (∃ m, sbAdmit s d [bytesRange s d g.desc 64 false, bytesRange s d g.grad (n * w) false] = some (es, m)) →
      let xs := (List.range n).map (elemFp32 s d g.grad u.grad16)
      ∃ t o, exec (.updNorm a g) s = .next t ∧ InFlight a j 5 es o s t ∧ o.scalars = [g.sca, g.scb] ∧
        scalarOf t d g.sca = pz (fadd (scalarOf s d g.sca % 2 ^ 32) (laneSum 128 (xs.map fun x => fmul x x))) % 2 ^ 64 ∧
        scalarOf t d g.scb = (scalarOf s d g.scb + xs.countP fun x => (f32 x).isNan || (f32 x).isInf) % 2 ^ 64 ∧
        (∀ r, r ≠ g.sca → r ≠ g.scb → scalarOf t d r = scalarOf s d r) ∧ (dieOf t d).scratch = (dieOf s d).scratch ∧
        vecRest (dieOf t d) = vecRest (dieOf s d) ∧ Frame [.dies, .counters, .jobs, .nextId] s t) ∧
    ∀ g : UpdArgs, let b := handleBytes s d g.desc 0 64
      let u := updOfBytes b
      let q := queueOf s d a.queue
      let size (h : Nat) : Nat := (((updSizes u g).find? fun x => x.1 == h).map (·.2)).getD 0
      let skip : Prop := u.check = true ∧ scalarOf s d g.fg ≠ 0
      (∀ h ∈ updWrites u g ++ updReads u g, (handleOf s d h).valid = true ∧ (handleOf s d h).ring = false ∧ (handleOf s d h).poisoned = false) →
      secretSpill s d (updWrites u g ++ updReads u g) (updWrites u g) = false → q.stepId = g.stepId.toNat → updSound b = true → (∀ x ∈ updSizes u g, x.2 ≤ (handleOf s d x.1).rows * 288) →
      scalarBusy s d [g.sg, g.fg] = false → scalarBad s d [g.sg, g.fg] = false →
      (∃ m, sbAdmit s d ((updReads u g).map (fun h => bytesRange s d h (size h) false) ++
        (updWrites u g).map fun h => bytesRange s d h (size h) true) = some (es, m)) →
      (u.lazyRows = true → (lazyIdx s d g).Pairwise (· < ·) ∧ ∀ i ∈ lazyIdx s d g, i < u.elements / u.rowLength) →
      (skip → ∃ t o, exec (.updApply a g) s = .next t ∧ InFlight a j 5 es o s t ∧ Logged 0x0A05 (evJob j a 5 0 false) s t ∧
        (dieOf t d).scratch = (dieOf s d).scratch ∧ scratchRest (dieOf t d) = scratchRest (dieOf s d) ∧
        Frame (logAreas ++ [.dies, .jobs, .nextId]) s t) ∧
      (¬skip → ∃ t o, exec (.updApply a g) s = .next t ∧ InFlight a j 5 es o s t ∧
        (dieOf t d).scratch = (dieOf (applyStep d g u b j.seed q.eta.toNat q.lambda.toNat s) d).scratch ∧
        handleBytes t d g.desc 0 64 = updStamp b (if u.lazyRows then u.step else Nat.min (u.step + 1) 0xFFFFFFFF) ∧
        scratchRest (dieOf t d) = scratchRest (dieOf s d) ∧ Frame [.dies, .counters, .jobs, .nextId] s t)

/-- BN_CFG, BN_LOAD and BN_READ (R443, R444): slots of the partition take their length and mark, are loaded from handles and read to them. -/
def Obligations.BigNumberSlots : Prop :=
  ∀ (s : State) (a : Site) (j : Job) (k : Nat), Ready s a j → k < 16 →
    let d := a.die
    let x := slotAt s j.part k
    let others (t : State) : Prop := ∀ p i, p ≠ j.part ∨ i ≠ k → slotAt t p i = slotAt s p i
    let reaches (h o : Nat) : Prop := (handleOf s d h).valid = true ∧ (handleOf s d h).ring = false ∧ o + 8 * x.n ≤ (handleOf s d h).rows * 288
    (∀ n sec, 4 ≤ n → n ≤ 64 → ∃ t, exec (.bnCfg a k n sec) s = .next t ∧ slotAt t j.part k = { n := n, isSecret := sec, valid := false, value := 0 } ∧
      others t ∧ t.jobs.map jobRest = s.jobs.map jobRest ∧ t.bn.waiting = s.bn.waiting ∧ t.bn.running = s.bn.running ∧ Frame [.bn, .jobs] s t) ∧
    (∀ h o es, x.n ≠ 0 → reaches h o → ((handleOf s d h).isSecret = true → x.isSecret = true) → (handleOf s d h).poisoned = false →
      sbAdmit s d [wordRows s d h o x.n false] = some es → ∃ t, exec (.bnLoad a k h o) s = .next t ∧
        slotAt t j.part k = { x with value := leNat (handleBytes s d h o (8 * x.n)), valid := true } ∧ others t ∧
        t.bn.waiting = s.bn.waiting ∧ t.bn.running = s.bn.running ∧ Frame [.bn, .jobs, .counters] s t) ∧
    (∀ h o es, memsOk s → x.n ≠ 0 → x.valid = true → reaches h o → (x.isSecret = true → (handleOf s d h).isSecret = true) →
      sbAdmit s d [wordRows s d h o x.n true] = some es → ∃ t, exec (.bnRead a h o k) s = .next t ∧
        Wrote (dieOf s d).scratch (dieOf t d).scratch ((handleOf s d h).base * 288 + o) (leBytes (8 * x.n) x.value) ∧
        scratchRest (dieOf t d) = scratchRest (dieOf s d) ∧ (dieOf t d).ops = (dieOf s d).ops ∧ (dieOf t d).scoreboard = (dieOf s d).scoreboard ∧
        OtherDies d s t ∧ Frame [.dies, .counters, .jobs] s t)

/-- The nine arithmetic and curve commands issue to the engine pair (R445, R450, R451): each waits there with the engine time of R445, or runs at once
where the pair is free; a full queue makes it wait at issue. What BN_COMPLETE writes (R445 to R449): the results with status 0, the next command
started. MODINV without an inverse writes zero with 0x0812, a curve command on a point that fails validation with 0x0813; an operand out of range is
rejected with 0x0811. BN_YIELD gives way to a shorter command after 32,768 qc (R451). That ranges are checked at BN_COMPLETE is the model's reading
(log 70). -/
def Obligations.BigNumberCommands : Prop :=
  (∀ (s : State) (a : Site) (j : Job), Ready s a j → s.bn.waiting.length < 64 →
      let n (k : Nat) := (slotAt s j.part k).n
      let mm (w : Nat) := w * ((w + 3) / 4 + 2) + 16
      let pre (w : Nat) := 128 * w * ((w + 3) / 4) + 32
      let inv (w : Nat) := 32 + 6 * w + 128 * w * ((w + 3) / 4 + 1)
      let rand (w : Nat) := 16 + 8 * w + 2 * mm w
      let ec (w : Nat) := 16 + 6 * w + 4 * mm w + 1280 * w * mm w + inv w + 2 * mm w
      let words (c : Curve) := match c with | .p256 => 4 | .p384 => 6
      let ready (srcs dsts exps : List Nat) (sc w : Nat) : Prop :=
        scalarBusy s a.die [sc] = false ∧ (∀ k ∈ srcs ++ exps, (slotAt s j.part k).valid = true) ∧ w ≠ 0 ∧ (∀ k ∈ exps, 1 ≤ n k ∧ n k ≤ w) ∧
        ∀ k ∈ srcs ++ dsts, n k = w
      let issued (i : Instr) (total : Nat) (t : State) : Prop :=
        let c : BnCmd := { arrival := s.nextId, part := some j.part, job := j.id, at_ := a, instr := i, total := total, remaining := total, yields := 0 }
        t.nextId = s.nextId + 1 ∧ t.bn.slots = s.bn.slots ∧ t.jobs.map jobRest = s.jobs.map jobRest ∧
          (s.bn.running.isSome = true → t.bn.running = s.bn.running ∧ t.bn.waiting = s.bn.waiting ++ [c]) ∧
          (s.bn.running = none → s.bn.waiting = [] → t.bn.running = some c ∧ t.bn.waiting = []) ∧ Frame [.bn, .jobs, .nextId] s t
      (∀ x y z m sc, (ready [y, z, m] [x] [] sc (n m) → ∃ t, exec (.modAdd a x y z m sc) s = .next t ∧ issued (.modAdd a x y z m sc) (16 + 8 * n m) t) ∧
        (ready [y, z, m] [x] [] sc (n m) → ∃ t, exec (.modSub a x y z m sc) s = .next t ∧ issued (.modSub a x y z m sc) (16 + 8 * n m) t) ∧
        (ready [y, z, m] [x] [] sc (n m) → ∃ t, exec (.modMul a x y z m sc) s = .next t ∧ issued (.modMul a x y z m sc) (16 + 6 * n m + pre (n m) + 3 * mm (n m)) t) ∧
        (ready [y, m] [x] [z] sc (n m) → ∃ t, exec (.modExp a x y z m sc) s = .next t ∧ issued (.modExp a x y z m sc) (16 + 6 * n m + pre (n m) + (128 * n z + 3) * mm (n m)) t) ∧
        (ready [y, m] [x] [] sc (n m) → ∃ t, exec (.modInv a x y m sc) s = .next t ∧ issued (.modInv a x y m sc) (inv (n m)) t) ∧
        (ready [m] [x] [] sc (n m) → ∃ t, exec (.bnRand a x m sc) s = .next t ∧ issued (.bnRand a x m sc) (rand (n m)) t)) ∧
      ∀ c x y z v w sc, (ready [] [x, y, z] [] sc (words c) → ∃ t, exec (.ecKeygen a c x y z sc) s = .next t ∧ issued (.ecKeygen a c x y z sc) (rand (words c) + 1280 * words c * mm (words c) + inv (words c) + 2 * mm (words c)) t) ∧
        (ready [x, y, z] [v, w] [] sc (words c) → ∃ t, exec (.ecMul a c x y z v w sc) s = .next t ∧ issued (.ecMul a c x y z v w sc) (ec (words c)) t) ∧
        (ready [x, y, z] [v] [] sc (words c) → ∃ t, exec (.ecDh a c x y z v sc) s = .next t ∧ issued (.ecDh a c x y z v sc) (ec (words c)) t)) ∧
  (∀ (s : State) (c : BnCmd) (j : Job), s.bn.running = some c → c.part = some j.part → jobOf s c.job = some j →
      let d := c.at_.die
      let v (k : Nat) := (slotAt s j.part k).value
      let slot (k y : Nat) (t : State) : Prop := slotAt t j.part k = { slotAt s j.part k with value := y, valid := true }
      let ends (dsts : List Nat) (sc : Nat) (e : Ev) (f : State → Prop) : Prop := (∀ k ∈ dsts, k < 16) → ∃ t, exec .bnComplete s = .next t ∧ f t ∧
        scalarOf t d sc = e.toNat ∧ (∀ r, r ≠ sc → scalarOf t d r = scalarOf s d r) ∧
        (∀ p k, p ≠ j.part ∨ k ∉ dsts → slotAt t p k = slotAt s p k) ∧ (s.bn.waiting = [] → t.bn.running = none) ∧
        (e = 0 → Frame [.bn, .dies, .free] s t) ∧ (e ≠ 0 → Logged e (evJob j c.at_ 0x0E 0 false) s t ∧ Frame (logAreas ++ [.bn, .dies, .jobs]) s t)
      (∀ a x y z m sc,
        (c.instr = .modAdd a x y z m sc → 2 ≤ v m → v y < v m → v z < v m → ends [x] sc 0 (slot x ((v y + v z) % v m))) ∧
        (c.instr = .modSub a x y z m sc → 2 ≤ v m → v y < v m → v z < v m → ends [x] sc 0 (slot x ((v y + (v m - v z)) % v m))) ∧
        (c.instr = .modMul a x y z m sc → 2 ≤ v m → v m % 2 = 1 → v y < v m → v z < v m → ends [x] sc 0 (slot x (v y * v z % v m))) ∧
        (c.instr = .modExp a x y z m sc → 2 ≤ v m → v m % 2 = 1 → v y < v m → ends [x] sc 0 (slot x (v y ^ v z % v m))) ∧
        (c.instr = .modInv a x y m sc → 2 ≤ v m → v m % 2 = 1 → v y < v m →
          (Nat.gcd (v y) (v m) = 1 → ends [x] sc 0 fun t => ∃ i < v m, v y * i % v m = 1 ∧ slot x i t) ∧
          (Nat.gcd (v y) (v m) ≠ 1 → ends [x] sc 0x0812 (slot x 0))) ∧
        (c.instr = .bnRand a x m sc → 2 ≤ v m → ends [x] sc 0 fun t => ∃ i, 1 ≤ i ∧ i < v m ∧ slot x i t) ∧
        (c.instr = .modMul a x y z m sc → v m ≤ v y → x < 16 → ∃ t, exec .bnComplete s = .next t ∧ scalarOf t d sc = 0x0811 ∧
          (slotAt t j.part x).valid = false ∧ ((slotAt s j.part x).n ≠ 0 → (slotAt t j.part x).value = 0) ∧
          Logged 0x0811 (evJob j c.at_ 0x0E 0 true) s t ∧ Frame (logAreas ++ [.bn, .dies, .jobs]) s t)) ∧
      (∀ a e x y z w u sc, let cp := curveOf e
        (c.instr = .ecKeygen a e x y z sc → x ≠ y → x ≠ z → y ≠ z → ends [x, y, z] sc 0 fun t => ∃ k, 1 ≤ k ∧ k < cp.order ∧ slot x k t ∧
          let g := ecCoords (ecMul cp k (some (cp.gx, cp.gy)))
          slot y g.1 t ∧ slot z g.2 t) ∧
        (c.instr = .ecMul a e x y z w u sc → v x ≠ 0 → v x < cp.order → w ≠ u →
          (ecValid cp (v y) (v z) = true → ends [w, u] sc 0 fun t => let g := ecCoords (ecMul cp (v x) (some (v y, v z)))
            slot w g.1 t ∧ slot u g.2 t) ∧
          (ecValid cp (v y) (v z) = false → ends [w, u] sc 0x0813 fun t => slot w 0 t ∧ slot u 0 t)) ∧
        (c.instr = .ecDh a e x y z w sc → v x ≠ 0 → v x < cp.order → ecValid cp (v y) (v z) = true →
          ends [w] sc 0 (slot w (ecCoords (ecMul cp (v x) (some (v y, v z)))).1))) ∧
      (∀ w, 32768 < c.remaining → c.yields < 16 → s.bn.waiting = [w] → w.part ≠ none → w.total ≤ c.remaining - 32768 →
        w.remaining ≤ c.remaining - 32768 → ∃ t,
        exec .bnYield s = .next t ∧ t.bn.running = some w ∧ t.bn.waiting = [{ c with remaining := c.remaining - 32768, yields := c.yields + 1 }] ∧
        t.bn.slots = s.bn.slots ∧ Frame [.bn] s t))

/-- HSTAT (R227): bytes 0x00 to 0x07 of the entry to SCa, bytes 0x08 to 0x0F to SCb, in the format of R225; nothing else changes. -/
def Obligations.HandleStatus : Prop :=
  ∀ (s : State) (a : Site) (j : Job) (i p q : Nat), Ready s a j → scalarBusy s a.die [p, q] = false →
    let e := handleOf s a.die i
    let low := (e.base + e.rows * 2 ^ 32) % 2 ^ 64
    let bit (b : Bool) := if b then 1 else 0
    let high := (bit e.valid + 2 * bit e.isSecret + 4 * bit e.poisoned + 8 * bit e.ring + 65536 * e.poisonEvent.toNat) % 2 ^ 64
    ∃ t, exec (.hstat a i p q) s = .next t ∧ scalarOf t a.die q = high ∧ (p ≠ q → scalarOf t a.die p = low) ∧
      (∀ r, r ≠ p → r ≠ q → scalarOf t a.die r = scalarOf s a.die r) ∧
      { dieOf t a.die with scalars := [], scalarPoison := [] } = { dieOf s a.die with scalars := [], scalarPoison := [] } ∧
      (∀ d, d ≠ a.die → dieOf t d = dieOf s d) ∧ Frame [.dies] s t

/-- ALLOC and FREE, SALLOC and SFREE (R228, R229, R236, R237, R250, R251, R391): where they succeed, where they wait, that SFREE first clears VALID of
an aperture on the handle, and that a breach leaves the table as it is and quenches the job. -/
def Obligations.HandleAllocation : Prop :=
  ∀ (s : State) (a : Site) (j : Job) (i : Nat), Ready s a j →
    let d := a.die
    let apart (b r c n : Nat) : Prop := ¬(b < c + n ∧ c < b + r)
    let breach (ins : Instr) (e : Ev) : Prop := ∃ t, exec ins s = .next t ∧ LoggedFirst e (evJob j a 0 0 true) s t ∧ JobQuenched j s t ∧
      Frame jobQuenchAreas s t
    let waits (ins : Instr) (rs : List SbEntry) (t : State) : Prop := t.held = s.held ++ [{
      age := s.nextId, job := j.id, instr := ins, at_ := a, wait := .scoreboard, ranges := rs, ready := some s.nextId, ringGone := false }]
    (∀ b r sec, let good : Prop := (handleOf s d i).valid = false ∧ 1 ≤ r ∧ b + r ≤ 2 ^ 20 ∧
        (∀ e ∈ (dieOf s d).handles, e.2.valid = true → apart b r e.2.base e.2.rows) ∧ ∀ x ∈ (dieOf s d).heldOut, ¬(b ≤ x ∧ x < b + r)
      (∀ es, good → sbAdmit s d [{ lo := b, hi := b + r - 1, write := true, op := 0 }] = some es → ∃ t, exec (.alloc a i b r sec) s = .next t ∧
        handleOf t d i = { base := b, rows := r, valid := true, isSecret := sec, poisoned := false, ring := false, poisonEvent := 0 } ∧
        (∀ k, k ≠ i → handleOf t d k = handleOf s d k) ∧ { dieOf t d with handles := [], counters := [] } = { dieOf s d with handles := [], counters := [] } ∧
        OtherDies d s t ∧ Frame [.dies, .counters] s t) ∧
      (¬(1 ≤ r ∧ b + r ≤ 2 ^ 20) → breach (.alloc a i b r sec) 0x0105) ∧
      (∀ es, ¬good → sbAdmit s d [{ lo := b, hi := b + r - 1, write := true, op := 0 }] = some es → breach (.alloc a i b r sec) 0x0105) ∧
      (1 ≤ r → b + r ≤ 2 ^ 20 → sbAdmit s d [{ lo := b, hi := b + r - 1, write := true, op := 0 }] = none →
        ∃ t, exec (.alloc a i b r sec) s = .next t ∧ waits (.alloc a i b r sec) [{ lo := b, hi := b + r - 1, write := true, op := 0 }] t ∧
          Frame [.held, .nextId] s t)) ∧
    ((handleOf s d i).valid = false → breach (.free a i) 0x0104) ∧
    (∀ es, (handleOf s d i).valid = true → windowsOn s d false i = [] → (∀ g ∈ (dieOf s d).rings, g.2.active = true → g.2.handle ≠ i) →
      sbAdmit s d [handleRange s d i 0 (handleOf s d i).rows true] = some es → ∃ t, exec (.free a i) s = .next t ∧
        dieOf t d = { dieOf s d with
          handles := tblDel (dieOf s d).handles i, counters := (dieOf t d).counters
          scratch := if (handleOf s d i).isSecret then memZero (dieOf s d).scratch ((handleOf s d i).base * 288) ((handleOf s d i).rows * 288)
            else (dieOf s d).scratch } ∧
        OtherDies d s t ∧ Frame [.dies, .counters] s t) ∧
    (∀ es, (handleOf s d i).valid = true → windowsOn s d false i = [] → (∀ o ∈ (dieOf s d).ops, ∀ r, fillsRing d r o = false) →
      sbAdmit s d [handleRange s d i 0 (handleOf s d i).rows true] = some es → ∃ t, exec (.free a i) s = .next t ∧
        handleOf t d i = Handle.zero ∧ (∀ r, (ringOf s d r).active = true → (ringOf s d r).handle = i → (ringOf t d r).active = false) ∧
        OtherDies d s t ∧ Frame [.dies, .counters, .held] s t) ∧
    ((handleOf s d i).valid = true → windowsOn s d false i = [] → sbAdmit s d [handleRange s d i 0 (handleOf s d i).rows true] = none →
      ∃ t, exec (.free a i) s = .next t ∧ waits (.free a i) [handleRange s d i 0 (handleOf s d i).rows true] t ∧ Frame [.held, .nextId] s t) ∧
    (∀ b r, let good : Prop := (storeOf s d i).valid = false ∧ 1 ≤ r ∧ b + r ≤ 25165824 ∧
        (∀ e ∈ (dieOf s d).storeHandles, e.2.valid = true → apart b r e.2.base e.2.rows) ∧
        (∀ x ∈ (dieOf s d).heldOutStore, ¬(b ≤ x ∧ x < b + r)) ∧ ∀ k ∈ keyRuns s d, apart b r k.1 k.2
      (good → ∃ t, exec (.salloc a i b r) s = .next t ∧
        storeOf t d i = { base := b, rows := r, valid := true, poisoned := false, poisonEvent := 0, digest := none } ∧
        (∀ k, k ≠ i → storeOf t d k = storeOf s d k) ∧ { dieOf t d with storeHandles := [] } = { dieOf s d with storeHandles := [] } ∧
        (∀ e, e ≠ d → dieOf t e = dieOf s e) ∧ Frame [.dies] s t) ∧
      (¬good → breach (.salloc a i b r) 0x0105)) ∧
    ((storeOf s d i).valid = false → breach (.sfree a i) 0x0104) ∧
    ((storeOf s d i).valid = true → windowsOn s d true i = [] → ∃ t, exec (.sfree a i) s = .next t ∧
      (let p := partOfIx s j.part
       p.memberSlot = 0 → ∀ x ∈ (hostOf t p.ownerPort).apertures, x.1 = p.ownerFn → bitOf x.2 31 = true →
         ¬(bitsOf x.2 0 4 = d.val ∧ bitsOf x.2 8 10 = i)) ∧
      (storeBusy s d i = false → dieOf t d = { dieOf s d with storeHandles := tblDel (dieOf s d).storeHandles i } ∧
        (∀ e, e ≠ d → dieOf t e = dieOf s e) ∧ Frame [.dies, .hosts] s t) ∧
      (storeBusy s d i = true → waits (.sfree a i) [] t ∧ Frame [.held, .nextId, .hosts] s t))

/-- RING_INIT and RING_FREE (R242, R243), and DSET (R254 to R256). -/
def Obligations.RingsAndDescriptors : Prop :=
  ∀ (s : State) (a : Site) (j : Job), Ready s a j →
    let d := a.die
    let breach (ins : Instr) (e : Ev) (skip : Bool) : Prop := ∃ t, exec ins s = .next t ∧ LoggedFirst e (evJob j a 0 0 skip) s t ∧ JobQuenched j s t ∧
      Frame jobQuenchAreas s t
    (∀ r h n k, let e := handleOf s d h
      let good : Prop := (ringOf s d r).active = false ∧ e.valid = true ∧ e.isSecret = false ∧ e.ring = false ∧ 3 ≤ n ∧ n ≤ 8 ∧ n * k ≤ e.rows
      (good → ∃ t, exec (.ringInit a r h n k) s = .next t ∧
        ringOf t d r = { handle := h, slots := n, active := true, slotRows := k, fill := 0, tail := 0, take := 0, head := 0, filled := [], released := [] } ∧
        handleOf t d h = { e with ring := true } ∧ (∀ x, x ≠ r → ringOf t d x = ringOf s d x) ∧ (∀ x, x ≠ h → handleOf t d x = handleOf s d x) ∧
        { dieOf t d with rings := [], handles := [] } = { dieOf s d with rings := [], handles := [] } ∧ (∀ x, x ≠ d → dieOf t x = dieOf s x) ∧
        Frame [.dies] s t) ∧
      (¬good → breach (.ringInit a r h n k) 0x0105 true)) ∧
    (∀ r, (ringOf s d r).active = false → exec (.ringFree a r) s = .next s) ∧
    (∀ r, (ringOf s d r).active = true → ∃ t, exec (.ringFree a r) s = .next t ∧ (ringOf t d r).active = false ∧
      ∀ o ∈ (dieOf s d).ops, fillsRing d r o = true → ∀ u ∈ (dieOf t d).ops, u.id ≠ o.id) ∧
    (∀ r, (ringOf s d r).active = true → (∀ o ∈ (dieOf s d).ops, fillsRing d r o = false) → ∃ t, exec (.ringFree a r) s = .next t ∧
      t.held = s.held.map (fun h => if h.at_.die = d ∧ (h.wait = .ring r true ∨ h.wait = .ring r false) then { h with ringGone := true } else h) ∧
      (dieOf t d).rings = tblDel (dieOf s d).rings r ∧
      handleOf t d (ringOf s d r).handle = { handleOf s d (ringOf s d r).handle with ring := false } ∧
      (∀ x, x ≠ (ringOf s d r).handle → handleOf t d x = handleOf s d x) ∧
      { dieOf t d with rings := [], handles := [], ops := [] } = { dieOf s d with rings := [], handles := [], ops := [] } ∧
      (∀ x, x ≠ d → dieOf t x = dieOf s x) ∧ Frame [.dies, .held] s t) ∧
    ∀ i h o, let b := handleBytes s d h o 128
      (handleUse s d h = none → o + 128 ≤ (handleOf s d h).rows * 288 →
        (∃ es, sbAdmit s d [handleRange s d h (o / 288) ((o + 127) / 288 - o / 288 + 1) false] = some es) → (handleOf s d h).poisoned = false →
        (descR255 s j.part d b = true → (descOfBytes b).aligned = true → ∃ t, exec (.dset a i h o) s = .next t ∧
          descOf t d i = some (descOfBytes b) ∧ (∀ k, k ≠ i → descOf t d k = descOf s d k) ∧
          { dieOf t d with descs := [], counters := [] } = { dieOf s d with descs := [], counters := [] } ∧ OtherDies d s t ∧
          Frame [.dies, .counters] s t) ∧
        (descR255 s j.part d b = false → breach (.dset a i h o) 0x0105 false) ∧
        (descR255 s j.part d b = true → (descOfBytes b).aligned = false → breach (.dset a i h o) 0x0106 false)) ∧
      ((handleOf s d h).valid = false → breach (.dset a i h o) 0x0104 true)

/-- MOVE (R258 to R264, R269 to R272): its tongs take it up once no older transfer holds them. Into SCRATCH or STORE the elements land at once, each
at its paired place, scale bytes with them; into a ring they fill the slot claimed at issue; into HOST they are queued for OPERATION_COMPLETE; into a
WINDOW they go out as WRITE packets; from a WINDOW READ_REQ packets ask for them; what comes from HOST lands when the whole transfer completes; an
object lands only where it passes ingest. When the effects of a transfer become visible, from the moment its tongs take it up to its completion, is
the model's choice (log 5). -/
def Obligations.Moves : Prop :=
  ∀ (s : State) (a : Site) (g : MoveArgs) (j : Job) (src dst : Desc) (slots : List Nat) (es : List SbEntry),
    descOf s a.die g.src = some src → descOf s a.die g.dst = some dst → XferReady s a g.mask j src dst [] slots es →
    layoutCheck src dst true = .pass → countCheck src dst = .pass → flagCheck s j.part dst g.flag = .pass →
    let slot := if src.space = 2 then slotRow (ringOf s a.die src.handle) (slots.headD 0) else 0
    let one := src.space = 2 ∨ src.space = 4 ∨ dst.space = 2 ∨ dst.space = 4
    let q : XferReq := { work := .move, src := src, dst := dst, idx := none, srcSlot := slot, idxSlot := 0, tongs := tongsUsed g.mask (decide one)
                         flag := g.flag, host := g.host, idxHost := [], add := false, pieces := [], elems := src.elems }
    let s' := takenUp j q s
    let flat : Desc := { dst with rank := 1, size := src.size, padLo := [], padHi := [] }
    let plan (outer : List Nat) : Plan :=
      if src.kind = 0 then planOf s src flat slot g.host (movePairs src flat []) else planOf s src dst slot g.host (movePairs src dst outer)
    let land (k : Nat) (p : Plan) (u : State) : State :=
      writeScales dst k (p.bytes []) (writeElems dst k (p.elems [] dst.bits) (writeElems dst k p.pads u))
    let flag : Option FlagTarget := if dst.space = 3 ∧ ∃ f, g.flag = some f ∧ 256 ≤ f.flag then none else g.flag
    let done (o : Op) (u t : State) : Prop := XferDone a j (srcRing src) es o u t ∧ o.flag = flag ∧ o.tongs = q.tongs
    (¬tongsIdle s a.die q.tongs → dst.space ≠ 2 → ∃ t o, exec (.move a g) s = .next t ∧ done o s t ∧ Queued o q) ∧
    (tongsIdle s a.die q.tongs →
      (src.space ≤ 2 → dst.space ≤ 1 → src.kind ≠ 0 ∨ dst.space = 1 →
        ∃ t o x, exec (.move a g) s = .next t ∧ done o (land 0 (plan []) s') t ∧ Planned o [] x) ∧
      (src.space ≠ 3 → dst.space = 2 → dst.dieIx = a.die → src.kind ≠ 0 → (src.rank = dst.rank + 1 → 0 < src.dim (src.rank - 1)) →
        let r := ringOf s dst.dieIx dst.handle
        let plans := if src.rank = dst.rank + 1 then (List.range (src.dim (src.rank - 1))).map (fun i => plan [i]) else [plan []]
        ∃ t o x, exec (.move a g) s = .next t ∧ Planned o plans.tail x ∧ x.placed = true ∧ o.fills = [(dst.handle, r.fill)] ∧
          done o (updRing dst.dieIx dst.handle (fun r => { r with fill := inc32 r.fill }) (land (slotRow r r.fill) (plans.headD (plan [])) s')) t) ∧
      (src.space ≠ 3 → src.kind ≠ 0 → dst.space = 4 → ∃ t o x, exec (.move a g) s = .next t ∧ done o s' t ∧ Planned o [] x ∧
        x.hostWrites = planWrites (s.free + 1) dst [] (plan []) ∧ x.host = some ((partOfIx s j.part).ownerPort, (partOfIx s j.part).ownerFn)) ∧
      (src.space ≠ 3 → src.kind ≠ 0 → dst.space = 3 → ∃ u o x, done o s' u ∧ Planned o [plan []] x ∧
        exec (.move a g) s = .next (updXfer a.die s.nextId (fun x => { x with plans := [] })
          (sendWrites a.die j s.nextId 0 dst.piece (planWrites (s.free + 1) dst [] (plan [])) u))) ∧
      (src.space = 3 → src.kind ≠ 0 → dst.space ≤ 1 → readRuns src.bits [plan []] ≠ [] → ∃ u o x, done o s' u ∧ Planned o [plan []] x ∧
        exec (.move a g) s = .next (sendReads a.die j s.nextId src.bits [src.piece] [plan []] u)) ∧
      (src.space = 4 → dst.space ≤ 1 → ∃ t o x, exec (.move a g) s = .next t ∧ done o s' t ∧ Planned o [plan []] x) ∧
      (src.kind = 0 → src.space ≤ 2 → dst.space = 0 →
        let rows := (plan []).elems [] dst.bits
        let found := ingest s.fuses.primes (partOfIx s j.part).chains (partOfIx s j.part).sessions (rows.flatMap fun e => leBytes 288 e.2)
        (∀ w, found = some w → w.storedRows = rows.length → w.rows.length = dst.dim 0 → w.header.poisoned = false →
          ∃ t o, exec (.move a g) s = .next t ∧ done o (writeElems dst 0 (w.rows.zipIdx.map fun r => ((r.2 : Int), leNat r.1)) s') t) ∧
        (found = none → ∃ t, exec (.move a g) s = .next t ∧ (handleOf t dst.dieIx dst.handle).poisoned = true ∧
          OpFailed a.die (opZero 0 j.id a.queue a.off 6) j 6 0x0102 s t)))

/-- GATHER and SCATTER (R259, R263, R265 to R268): GATHER puts the slab that each index names, or FILL for an index out of range; SCATTER puts each
slab where its index says, drops those out of range, and fills a destination's padding; ADD adds in an order that REPRODUCIBLE fixes and that
otherwise is some order of the same pairs. Slabs and indexes in a WINDOW are read first. Indices out of range are logged once and counted. When the
effects become visible is the model's choice (log 5), and corners of slabs and half bytes are its readings (log 37). -/
def Obligations.GathersAndScatters : Prop :=
  ∀ (s : State) (a : Site) (g : IndexedArgs) (j : Job) (src idx dst : Desc) (slots : List Nat) (es : List SbEntry),
    descOf s a.die g.src = some src → descOf s a.die g.idx = some idx → descOf s a.die g.dst = some dst →
    XferReady s a g.mask j src dst [idx] slots es → src.kind ≠ 0 → dst.space = 0 → dst.dieIx = a.die → indexOk idx = true →
    layoutCheck src dst false = .pass → flagCheck s j.part dst g.flag = .pass →
    let row (t : Desc) (k : Nat) : Nat := if t.space = 2 then slotRow (ringOf s a.die t.handle) (slots.getD k 0) else 0
    let idxSlot := row idx (srcRing src).length
    let xs := (List.range idx.elems).map fun n => toSigned idx.bits ((srcCell s idx idxSlot g.idxHost 0 [n]).code [] idx.bits)
    let counted (n : Nat) (done : State → Prop) (t : State) : Prop :=
      (n = 0 → done t) ∧ (n ≠ 0 → ∃ u, done u ∧ Logged 0x0A03 (evJob j a 6 0 false) u t ∧
        tblGetD (dieOf t a.die).counters 4 0 = tblGetD (dieOf u a.die).counters 4 0 + n ∧
        tblGetD (dieOf t a.die).counters 19 0 = tblGetD (dieOf u a.die).counters 19 0 + n ∧ Frame (.jobs :: logAreas) u t)
    let us := srcRing src ++ srcRing idx
    (src.space ≤ 1 ∨ src.space = 3 → slabShape src dst src.indexDim = true → dst.boxDim src.indexDim = idx.elems → tongsIdle s a.die g.mask →
      let q : XferReq := { work := .gather, src := src, dst := dst, idx := some idx, srcSlot := row src 0, idxSlot := idxSlot, tongs := g.mask
                           flag := g.flag, host := g.host, idxHost := g.idxHost, add := false, pieces := [], elems := dst.elems }
      let s' := takenUp j q s
      let plan := planOf s src dst (row src 0) [] (gatherPairs src dst xs)
      let pieces := List.replicate idx.elems src.piece
      (src.space ≤ 1 → idx.space ≠ 3 → ∃ t, exec (.gather a g) s = .next t ∧ counted (badIndexes src xs) (fun u => ∃ o x, XferDone a j us es o
        (writeScales dst 0 (plan.bytes []) (writeElems dst 0 (plan.elems [] dst.bits) s')) u ∧ o.flag = g.flag ∧ Planned o [] x) t) ∧
      (src.space = 3 → idx.space ≠ 3 → readRuns src.bits [plan] ≠ [] → ∃ u o x, XferDone a j us es o s' u ∧ o.flag = g.flag ∧ Planned o [plan] x ∧
        x.pieces = pieces ∧ exec (.gather a g) s =
          .next (countIndexes j a 6 (badIndexes src xs) (sendReads a.die j s.nextId src.bits pieces [plan] u))) ∧
      (idx.space = 3 → 0 < idx.elems → ∃ u o x, XferDone a j us es o s' u ∧ o.flag = g.flag ∧ o.xfer = some x ∧ x.begun = true ∧ x.todo = some q ∧
        exec (.gather a g) s = .next (sendReads a.die j s.nextId idx.bits [idx.piece]
          [{ cells := (List.range idx.elems).map fun (n : Nat) => ((n : Int), srcCell s idx 0 [] 0 [n]), pads := [], scales := [] }] u))) ∧
    (src.space ≤ 2 → idx.space ≠ 3 → slabShape src dst dst.indexDim = true → src.dim dst.indexDim = idx.elems →
      let tongs (add : Bool) := tongsUsed g.mask (!add || j.reproducible || src.space == 2)
      let q (add : Bool) : XferReq := { work := .scatter j.reproducible, src := src, dst := dst, idx := some idx, srcSlot := row src 0
                                        idxSlot := idxSlot, tongs := tongs add, flag := g.flag, host := g.host, idxHost := g.idxHost, add := add
                                        pieces := [], elems := src.elems }
      let plan (ps : Pairs) := planOf s src dst (row src 0) g.host ps
      let padded (add : Bool) : State := writeElems dst 0 (scatterPads dst) (takenUp j (q add) s)
      let done (u v : State) : Prop := ∃ o x, XferDone a j us es o u v ∧ o.flag = g.flag ∧ Planned o [] x
      (tongsIdle s a.die (tongs false) → ∃ t, exec (.scatter a g false) s = .next t ∧ counted (badIndexes dst xs)
        (done (writeScales dst 0 ((plan (scatterPairs src dst xs)).bytes []) (writeElems dst 0 ((plan (scatterPairs src dst xs)).elems [] dst.bits)
          (padded false)))) t) ∧
      (tongsIdle s a.die (tongs true) → addOk dst = true → ∃ t, exec (.scatter a g true) s = .next t ∧ ∃ ps, ps.Perm (scatterPairs src dst xs) ∧
        (j.reproducible = true → ps = scatterPairs src dst xs) ∧
        counted (badIndexes dst xs) (done (addElems dst ((plan ps).elems [] dst.bits) (padded true))) t))

/-- SDIGEST (R440) enters a store handle's content digest; DGET and DPUT (R377, R378) ask each block's owner for what the box names of it, or send it
there. -/
def Obligations.DigestsAndOwnerTables : Prop :=
  ∀ (s : State) (a : Site) (j : Job), Ready s a j →
    let d := a.die
    (∀ i, (storeOf s d i).valid = true → ∃ t, exec (.sdigest a i) s = .next t ∧
      storeOf t d i = { storeOf s d i with digest := some (chunkDigest (storeBytes s d i 0 ((storeOf s d i).rows * 288))) } ∧
      (∀ k, k ≠ i → storeOf t d k = storeOf s d k) ∧ { dieOf t d with storeHandles := [] } = { dieOf s d with storeHandles := [] } ∧
      OtherDies d s t ∧ Frame [.dies] s t) ∧
    ∀ (table ix : Nat) (origin box : List Nat) (t : Desc) (es : List SbEntry) (m : Nat), idsFresh s → j.wantHallmark = false → tongsIdle s d 1 →
      descOf s d ix = some t → ownPre s d table (some t) = .pass → (handleOf s d table).poisoned = false →
      ownCheck s j (ownTable s d table) origin box = .pass → ownLocal t (ownHead (ownTable s d table)) box = true →
      let b := ownTable s d table
      let places := boxPlaces (ownHead b) origin box
      let blocks := blocksOf places
      let awake := wakeDie t.dieIx s
      (t.zeroStride = false → sbAdmit s d (tableRange s d table :: xferRanges s d [] [t]) = some (es, m) →
        let plan : Plan := { cells := places.zipIdx.map fun p => (t.off (t.tuple p.2),
                               .far ((blocks.findIdx? fun k => k == p.1.1).getD 0) (8 * (ownEntry b p.1.1).2 + t.bits * p.1.2)), pads := [], scales := [] }
        readRuns t.bits [plan] ≠ [] →
        ∃ u, exec (.dget a table origin box ix) s = .next (sendReads d j s.nextId t.bits (blocks.map fun k => (ownEntry b k).1) [plan] u) ∧
          ∃ o x, XferDone a j [] es o awake u ∧ Planned o [plan] x ∧ x.dst = t) ∧
      (t.poison s = none → sbAdmit s d (tableRange s d table :: xferRanges s d [t] []) = some (es, m) →
        ∃ u, exec (.dput a ix table origin box) s = .next (blocks.zipIdx.foldl (fun v k =>
            sendWrites d j s.nextId k.2 (ownEntry b k.1).1
              (elemWrites (s.free + 1) { t with offset := (ownEntry b k.1).2 } ((places.zipIdx.filter fun p => p.1.1 == k.1).map fun p =>
                ((p.1.2 : Int), readElem (Desc.mem s t 0 t.handle).1 (Desc.mem s t 0 t.handle).2 t (t.off (t.tuple p.2))))) v) u) ∧
          ∃ o x, XferDone a j [] es o awake u ∧ Planned o [] x)

/-- OPERATION_COMPLETE (R237, R244, R245, R258, R152, R155): the operation leaves flight and the scoreboard, its ring slots are released or filled in
claim order, its target flag is set, a share exchange writes what it opened, and a transfer to HOST writes its runs; the stalls of an operation on
scratchpad rows are counted and 0x0303 logged where it waited (R240). One that something still blocks stays as it is. What is left to completion is
the model's choice (log 5). -/
def Obligations.OperationsComplete : Prop :=
  ∀ (s : State) (d : DieIx) (op : Nat) (o : Op), opOf s d op = some o →
    (opBlocked s d o = true → exec (.operationComplete d op) s = .next s) ∧
    (opBlocked s d o = false → (∀ h, ∀ g ∈ (hostOf s h).groups, g.2.2 ≠ op) → (∀ g ∈ s.fabric.benchGroups, g.2.2.2 ≠ op) →
      let ended (f : State → Prop) : Prop := ∃ u, exec (.operationComplete d op) s = .next (startTongs d (raiseFlag o.flag u)) ∧ f u ∧
        (dieOf u d).ops = (dieOf s d).ops.filter (·.id != op) ∧ (dieOf u d).scoreboard = (dieOf s d).scoreboard.filter (·.op != op) ∧
        u.fabric = { s.fabric with requests := s.fabric.requests.filter fun r => r.op != op } ∧ OtherDies d s u ∧
        { dieOf u d with ops := [], scoreboard := [], rings := [], scratch := [], counters := [] } =
          { dieOf s d with ops := [], scoreboard := [], rings := [], scratch := [], counters := [] } ∧
        u.jobs.map jobRest = s.jobs.map jobRest ∧
        (usesRows o = false → u.log = s.log ∧ u.jobs = s.jobs) ∧
        ∀ j, jobOf s o.job = some j → usesRows o = true → ∃ n, tblGetD (dieOf u d).counters 0 0 = tblGetD (dieOf s d).counters 0 0 + n ∧
          (n = 0 → u.log = s.log) ∧
          (n ≠ 0 → Logged 0x0303 (evJob j { die := d, queue := o.queue, off := o.off } o.unit 0 false) s u)
      let areas : List Area := [.dies, .fabric, .jobs] ++ logAreas
      (o.xfer = none → o.exch = none → o.coll = none →
        (o.takes = [] → ended fun u => (dieOf u d).rings = (dieOf s d).rings ∧ (dieOf u d).scratch = (dieOf s d).scratch ∧ Frame areas s u) ∧
        ∀ r c, o.takes = [(r, c)] → ended fun u => (dieOf u d).scratch = (dieOf s d).scratch ∧ Frame areas s u ∧
          (∀ k, k ≠ r → ringOf u d k = ringOf s d k) ∧
          (c = (ringOf s d r).head → (ringOf s d r).released = [] → ringOf u d r = { ringOf s d r with head := inc32 c }) ∧
          ((ringOf s d r).head ∉ (ringOf s d r).released ++ [c] → ringOf u d r = { ringOf s d r with released := (ringOf s d r).released ++ [c] })) ∧
      (∀ e y, o.xfer = none → o.exch = some e → o.coll = none → o.takes = [] → sessionOf s e.part e.session = some y →
        let q := ringOfSession s e.part y
        let n := Nat.log2 e.m
        let writes (h : Nat) (bs : List Byte) : Prop := ended fun u => Frame areas s u ∧
          (dieOf u d).scratch = memPut (dieOf s d).scratch ((handleOf s d h).base * 288) bs
        (e.kind = .opening → writes e.dst ((exchSum q e.m 0 e).flatMap fun v => leBytes 8 v)) ∧
        (e.kind = .beaver →
          let dd := exchSum q e.m 0 e
          let ee := exchSum q e.m e.m e
          let z := limbAdd q (limbAdd q e.triple.2.2 (limbMul q dd e.triple.2.1)) (limbMul q ee e.triple.1)
          writes e.dst (shareObject y e.session n (if y.self = 0 then limbAdd q z (limbMul q dd ee) else z))) ∧
        (∀ i h b, e.kind = .split → peersOf y = [i] → e.recv = [h] → e.got = [(i, b)] →
          writes h (shareObject y e.session n (b.map (· % q))))) ∧
      (∀ x j h fn, o.xfer = some x → o.exch = none → o.coll = none → o.takes = [] → o.fills = [] → x.plans = [] → x.dst.space = 4 →
        x.cursor < x.hostWrites.length → x.host = some (h, fn) → jobOf s o.job = some j → (partOfIx s j.part).memberSlot = 0 →
        (∀ r ∈ s.fabric.requests, r.op ≠ op) → ∃ u, exec (.operationComplete d op) s = .next (startTongs d (raiseFlag o.flag u)) ∧
          (dieOf u d).ops = (dieOf s d).ops.filter (·.id != op) ∧ Frame (.hosts :: areas) s u ∧
          let ats := (hostOf s h).ats.contains fn
          let sent (r : Nat × List Byte) : Output := .hostWrite h fn r.1 r.2 ((hostOf s h).relaxed.contains fn) ats
          (∀ r ∈ mergeRuns (x.hostWrites.drop x.cursor), sent r ∈ u.out) ∧
          (ats = false → usesRows o = false → u.out = s.out ++ (mergeRuns (x.hostWrites.drop x.cursor)).map sent)) ∧
      ∀ x r c, o.xfer = some x → o.exch = none → o.coll = none → o.takes = [] → o.fills = [(r, c)] → x.plans = [] → x.dst.space = 2 →
        x.remoteFlag = none → c = (ringOf s d r).tail → (ringOf s d r).filled = [] →
        ended fun u => ringOf u d r = { ringOf s d r with tail := inc32 c } ∧ (∀ k, k ≠ r → ringOf u d k = ringOf s d k) ∧ Frame areas s u)

/-- Flags (R301 to R304): SET_FLAG sets a local flag, or sends a FLAG_SET of LENGTH 0 to a window (R370), CLEAR_FLAG clears any, WAIT_FLAG goes on
where its flag is set and is held where it is clear; a flag that may not be named, and an undefined encoding, is skipped and logged. A wait that meets
its limit and a deadlocked set of waits quench their jobs with 0x0401 and 0x0402; a key switch that waited poisons its destinations (R96). An
instruction of the second admitted job lets that job issue, whichever instruction it is (R289). The event of a flag out of range is the model's
reading (log 51). -/
def Obligations.FlagsAndWaits : Prop :=
  ∀ (s : State),
    (∀ (a : Site) (i : Instr) (f : Job → State → Issued), runInstr a i f s = runInstr a i f (passSite a s)) ∧
    (∀ (a : Site) (k l : Nat) (t : List Nat), a.next = true → s.reissue = none → (queueOf s a.die a.queue).jobs = k :: l :: t →
      runningJob (passSite a s) a.die a.queue = jobOf s l) ∧
    (∀ (a : Site) (j : Job), Ready s a j →
      let d := a.die
      (∀ f, f < 256 → (∀ q c st b, holdPacket s d q ≠ some (.block f c st, b)) → ∃ t, exec (.setFlag a (.here f)) s = .next t ∧ flagSetP t d f = true ∧
        (∀ g, g ≠ f → flagSetP t d g = flagSetP s d g) ∧ { dieOf t d with flags := [] } = { dieOf s d with flags := [] } ∧ OtherDies d s t ∧
        Frame [.dies] s t) ∧
      (∀ f, f < 320 → ∃ t, exec (.clearFlag a f) s = .next t ∧ flagSetP t d f = false ∧ (∀ g, g ≠ f → flagSetP t d g = flagSetP s d g) ∧
        { dieOf t d with flags := [] } = { dieOf s d with flags := [] } ∧ OtherDies d s t ∧ Frame [.dies] s t) ∧
      (∀ f, f < 320 → flagSetP s d f = true → exec (.waitFlag a f) s = .next s) ∧
      (∀ f, f < 320 → flagSetP s d f = false → ∃ t, exec (.waitFlag a f) s = .next t ∧ Frame [.held, .nextId] s t ∧
        t.held = s.held ++ [{ age := s.nextId, job := j.id, instr := .waitFlag a f, at_ := a, wait := .flag f, ranges := [], ready := some s.nextId
                              ringGone := false }]) ∧
      (∀ f, 256 ≤ f → ∃ t, exec (.setFlag a (.here f)) s = .next t ∧ Skipped 0x0102 j a 0 s t) ∧
      (∀ w f x, descOf s d w = some x → x.recheck s = .pass → x.space = 3 →
        (256 ≤ f → f < 320 → windowCheck s j x = .pass → ∃ u o, InFlight a j 6 [] o s u ∧
          exec (.setFlag a (.there w f)) s = .next (sendReq d j s.nextId .flag 0 x.piece f 0 [] u)) ∧
        (f < 256 ∨ 320 ≤ f → ∃ t, exec (.setFlag a (.there w f)) s = .next t ∧ Skipped 0x0102 j a 6 s t)) ∧
      (∀ f, 320 ≤ f → ∃ t, exec (.clearFlag a f) s = .next t ∧ exec (.waitFlag a f) s = .next t ∧ Skipped 0x0102 j a 0 s t) ∧
      ∃ t, exec (.undefinedInstruction a) s = .next t ∧ Skipped 0x0101 j a 0 s t) ∧
    ∀ d : DieIx,
    (∀ (q : QueueIx) (h : Held) (j : Job), heldFront s d q = some h → jobOf s h.job = some j → timedWait h.wait = true →
      ∃ t, exec (.flagTimeout d q) s = .next t ∧ LoggedFirst 0x0401 (evJob j h.at_ 0 0 false) s t ∧ JobQuenched j s t ∧ Frame jobQuenchAreas s t ∧
        ∀ e k, Dest.handle e k ∈ waitDests h.wait → (handleOf s e k).valid = true → (handleOf t e k).poisoned = true) ∧
    (∀ (q : QueueIx) (o : Op) (j : Job), heldFront s d q = none → ((dieOf s d).ops.find? fun o => o.queue == q && keyStalled s o) = some o →
      jobOf s o.job = some j → ∃ t, exec (.flagTimeout d q) s = .next t ∧
        LoggedFirst 0x0401 (evJob j { die := d, queue := q, off := o.off } 0 0 false) s t ∧ JobQuenched j s t ∧ Frame jobQuenchAreas s t) ∧
    (∀ (q : QueueIx) (h : Held) (j : Job) (x : Nat), heldFront s d q = some h → jobOf s h.job = some j → awaited s d q = some x →
      deadlocked s d [q] = true → ∃ t, exec (.flagDeadlock d [q]) s = .next t ∧ LoggedFirst 0x0402 (evJob j h.at_ 0 x false) s t ∧
        JobQuenched j s t ∧ Frame jobQuenchAreas s t) ∧
    (∀ w, deadlocked s d (allQueues.filter w.contains) = false → exec (.flagDeadlock d w) s = .next s)

/-- Page faults, translation errors and lost completions of a HOST end (R271 to R277, R395); a bench member asks its gateway (R399). What other parts
answer (R349, R357, R361, R369, R370): an ACK ends the write it names, READ_DATA brings the bytes that its request asked for, a NAK and a timeout fail
the transfer; a NAK that answers no request fails the collective or exchange that it answers; an answer to nothing is counted. -/
def Obligations.PageFaultsAndAnswers : Prop :=
  (∀ (s : State) (d : DieIx) (op : Nat) (o : Op) (x : Xfer) (j : Job) (h : HostId) (fn : Nat), opOf s d op = some o → o.xfer = some x →
      jobOf s o.job = some j → x.host = some (h, fn) →
      (∀ gw reg cursor pages, gatewayOf s j.part = some (gw, reg) → x.begun = true → x.stalled = false → x.cursor ≤ cursor → x.dst.space ≠ 4 → ∃ u,
        exec (.pageNotPresent d op cursor pages) s = .next (sendMsg .bench d gw 0 (fun v => .forwardedWrite v
          { reg := reg, die := d, queue := o.queue, addr := 0, bytes := [], kind := .pages pages, tag := BitVec.ofNat 32 s.nextId }) u) ∧
        u.fabric = { s.fabric with benchGroups := s.fabric.benchGroups ++ [(h, s.nextId, d, o.id)] } ∧
        opOf u d op = some { o with xfer := some { x with cursor := cursor, stalled := true, group := some s.nextId, pages := pages } } ∧
        OtherDies d s u ∧ Frame [.dies, .fabric, .nextId] s u) ∧
      (gatewayOf s j.part = none →
      (∀ cursor pages, x.begun = true → x.stalled = false → (hostOf s h).ats.contains fn = true → x.cursor ≤ cursor → x.dst.space ≠ 4 →
        ((hostOf s h).priFailed.contains fn = false → (hostOf s h).pri.contains fn = true → groupsOut s h < 32 → ∃ t,
          exec (.pageNotPresent d op cursor pages) s = .next t ∧ Frame [.dies, .hosts, .out, .nextId] s t ∧
          opOf t d op = some { o with xfer := some { x with cursor := cursor, stalled := true, group := some s.nextId, pages := pages } } ∧
          (hostOf t h).groups = (hostOf s h).groups ++ [(s.nextId, d, op)] ∧ t.out = s.out ++ [.pageRequest h fn s.nextId pages] ∧
          (∀ c ∈ (hostOf t h).cached, ¬(c.1 = fn ∧ c.2 ∈ pages)) ∧ { dieOf t d with ops := [] } = { dieOf s d with ops := [] } ∧ OtherDies d s t) ∧
        ((hostOf s h).priFailed.contains fn = false → (hostOf s h).pri.contains fn = false → ∃ t,
          exec (.pageNotPresent d op cursor pages) s = .next t ∧ OpFailed d o j 6 0x0602 s t)) ∧
      (∀ g, groupOf s h g = some (g, d, op) →
        (∃ u, exec (.pageRequestResponse h g .success) s = .next (sendWaiting h u) ∧ Frame [.dies, .hosts, .fabric, .out] s u ∧
          opOf u d op = some { o with xfer := some { x with stalled := false, group := none, pages := [] } } ∧
          (∀ k ∈ (hostOf u h).groups, k.1 ≠ g) ∧
          ∀ p ∈ x.pages, (hostOf s h).ats.contains fn = true → (fn, p) ∉ (hostOf s h).cached → Output.translationRequest h fn p ∈ u.out) ∧
        (∃ u, exec (.pageRequestResponse h g .invalidRequest) s = .next (sendWaiting h u) ∧ OpFailed d o j 6 0x0601 s u) ∧
        (∃ u, exec (.pageRequestResponse h g .responseFailure) s = .next (sendWaiting h (failWaiting h fn u)) ∧ OpFailed d o j 6 0x0601 s u ∧
          fn ∈ (hostOf u h).priFailed) ∧
        ∃ t, exec (.pageRequestTimeout h g) s = .next t ∧ OpFailed d o j 6 0x0601 s t)) ∧
      (∃ t, exec (.translationError d op) s = .next t ∧ OpFailed d o j 6 0x0602 s t) ∧
      (x.dst.space ≠ 4 → ∃ t, exec (.readCompletionError d op) s = .next t ∧ exec (.readCompletionTimeout d op) s = .next t ∧
        OpFailed d o j 6 0x0602 s t) ∧
      ∀ page, ∃ t, exec (.atsInvalidation h page) s = .next t ∧ (∀ c, c ∈ (hostOf t h).cached ↔ c ∈ (hostOf s h).cached ∧ c.2 ≠ page) ∧
        t.out = s.out ++ [.atsDone h page] ∧ Frame [.hosts, .out] s t) ∧
  (∀ (s : State) (n : PortIx) (p : Packet) (v : State),
      (∀ (i : Instr) (k : Nat), (i, k) ∈ [(Instr.ack, 4), (.nak, 5), (.readData, 3)] → takeArrived (fun x => x.2.ptype == k) s = some ((n, p), v) →
        requestOf v p = none → (k = 5 → nakColl v p = none ∧ nakExch v p = none) → ∃ t, exec i s = .next t ∧ tblGetD (dieOf t p.dstDie).counters 7 0 = tblGetD (dieOf s p.dstDie).counters 7 0 + 1 ∧
          t.fabric = { s.fabric with arrived := s.fabric.arrived.erase (n, p) } ∧ Frame [.fabric, .counters] s t) ∧
      (∀ (d : DieIx) (o : Op) (x : Exch) (j : Job), takeArrived (fun x => x.2.ptype == 5) s = some ((n, p), v) → requestOf v p = none →
        nakColl v p = none → nakExch v p = some (d, o, x) → jobOf s o.job = some j → ∃ t, exec .nak s = .next t ∧
          OpFailed d o j 1 (BitVec.ofNat 16 p.wgen.toNat) s t) ∧
      (∀ (o : Op) (c : Coll), takeArrived (fun x => x.2.ptype == 5) s = some ((n, p), v) → requestOf v p = none → nakColl v p = some (o, c) →
        exec .nak s = .next (failColl p.dstDie o (BitVec.ofNat 16 p.wgen.toNat) v)) ∧
      ∀ (r : Request) (o : Op) (j : Job), opOf s r.die r.op = some o → jobOf s o.job = some j → r ∈ s.fabric.requests →
        (takeArrived (fun x => x.2.ptype == 4) s = some ((n, p), v) → requestOf v p = some r → r.kind ≠ .read →
          (∀ x k f, o.xfer = some x → x.remoteFlag = some (k, f) → (reqsOf (dropRequest r v) r.die r.op .write) ≠ []) → ∃ t, exec .ack s = .next t ∧
            t.fabric = { s.fabric with arrived := s.fabric.arrived.erase (n, p), requests := s.fabric.requests.erase r } ∧ Frame [.fabric] s t) ∧
        (takeArrived (fun x => x.2.ptype == 5) s = some ((n, p), v) → requestOf v p = some r → ∃ t, exec .nak s = .next t ∧
          OpFailed r.die o j 6 (BitVec.ofNat 16 p.wgen.toNat) s t) ∧
        (∀ x pl, takeArrived (fun x => x.2.ptype == 3) s = some ((n, p), v) → requestOf v p = some r → r.kind = .read → p.data.length = r.len →
          o.xfer = some x → x.begun = true → x.todo = none → x.placed = false → x.srcSpace = 3 → x.plans = [pl] → x.add = false → x.carry = none → x.hall = none → x.dst.space ≤ 1 → x.dst.kind ≠ 0 →
          reqsOf (dropRequest r v) r.die r.op .read = [] →
          let bufs := tblSet x.bufs r.piece (memPut (tblGetD x.bufs r.piece []) r.off p.data)
          let u := writeScales x.dst 0 (Plan.bytes bufs pl) (writeElems x.dst 0 (Plan.elems bufs x.dst.bits pl)
            (writeElems x.dst 0 pl.pads s))
          ∃ t, exec .readData s = .next t ∧ opOf t r.die r.op = some { o with xfer := some { x with bufs := bufs, plans := [] } } ∧
            t.fabric = { s.fabric with arrived := s.fabric.arrived.erase (n, p), requests := s.fabric.requests.erase r } ∧
            (∀ e, { dieOf t e with ops := [] } = { dieOf u e with ops := [] }) ∧ Frame [.dies, .fabric] s t) ∧
        ∃ t, exec (.transferTimeout r.die r.op) s = .next t ∧ OpFailed r.die o j 6 0x0401 s t)

/-- Programs (R290, R296 to R300): PROGRAM_LOAD holds its queue while the image comes; the image is checked and registered all or nothing, with its
chains, TEMPER configurations, sessions with their triple pools, and its CODE bytes; an unload waits for admitted jobs; PATCH is refused whole, or
applied once no admitted job names the slot. The image digest is uninterpreted (log 34), and that an unload waits is the model's reading (log 58). -/
def Obligations.ProgramImages : Prop :=
  ∀ (s : State) (d : DieIx) (q : QueueIx) (b : List Byte) (p : PartIx), (dieOf s d).owner = some p → bodyOk b = true →
    let program (k : Nat) := tblGet (partOfIx s p).programs k
    let held (u : State) (h : Hold) : Prop := queueOf u d q = { queueOf s d q with
      line := (queueOf s d q).line.tail, hold := some (h, .packet (pktSeq b) (b.length / 64) b none) } ∧ (∀ e k, e ≠ d ∨ k ≠ q → queueOf u e k = queueOf s e k)
    (headPacket s d q 1 = some b →
      let slot := fieldAt b 0x10 1
      ((program slot).isSome = decide (fieldAt b 0x14 4 = 0) → ∃ u, exec (.programLoad d q) s = .next (settleQueue d q u) ∧
        held u (.programLoad slot (headStaged s d q)) ∧ Frame [.dies] s u) ∧
      ((program slot).isSome ≠ decide (fieldAt b 0x14 4 = 0) →
        exec (.programLoad d q) s = .next (settleQueue d q (refusePacket d q 0x0104 b (popLine d q s))))) ∧
    (∀ slot st image, holdPacket s d q = some (.programLoad slot st, b) → fieldAt b 0x14 4 ≠ 0 →
      let n := fieldAt b 0x14 4
      let img := match st with | some x => stagedBytes s x 0 n | none => bytesAt image 0 n
      (∀ e, loadCheck s p slot n (fieldAt b 0x20 8) img = .error e →
        exec (.programLoadComplete d q image) s = .next (releaseQueue d q (refusePacket d q e b s))) ∧
      ∀ t, loadCheck s p slot n (fieldAt b 0x20 8) img = .ok t → RecordReady s d q p →
        let ds := mapDies (fieldAt b 0x20 8) (fieldAt img 0x0C 1)
        ∃ u, exec (.programLoadComplete d q image) s = .next (releaseQueue d q u) ∧ Completed d q p s u b false 0 0 ∧
          partOfIx u p = { partOfIx s p with chains := t.chains, tempers := t.tempers, sessions := t.sessions,
                                             programs := tblSet (partOfIx s p).programs slot (programOf img ds) } ∧
          (∀ k, k ≠ p → partOfIx u k = partOfIx s k) ∧
          (∀ i e, ds[i]? = some e → (dieOf u e).codeBytes = (dieOf s e).codeBytes + codeBytesOf img i) ∧
          (∀ e, e ∉ ds → (dieOf u e).codeBytes = (dieOf s e).codeBytes) ∧ (∀ e, (dieOf u e).handles = (dieOf (allocPools t.pools s) e).handles) ∧
          Frame (.parts :: recordAreas) s u) ∧
    (∀ slot st, holdPacket s d q = some (.programLoad slot st, b) → fieldAt b 0x14 4 = 0 →
      (slotInUse s p slot = true → exec (.programUnload d q) s = .next s) ∧
      ∀ g, slotInUse s p slot = false → program slot = some g → g.dieMap.Nodup → RecordReady s d q p →
        ∃ u, exec (.programUnload d q) s = .next (finishEvictions p (releaseQueue d q u)) ∧ Completed d q p s u b false 0 0 ∧
          partOfIx u p = { partOfIx s p with programs := tblDel (partOfIx s p).programs slot } ∧
          (∀ i e, g.dieMap[i]? = some e → (dieOf u e).codeBytes = (dieOf s e).codeBytes - g.codeLen.getD i 0) ∧
          (∀ e, e ∉ g.dieMap → (dieOf u e).codeBytes = (dieOf s e).codeBytes) ∧ Frame (.parts :: recordAreas) s u) ∧
    (headPacket s d q 2 = some b →
      let slot := fieldAt b 0x10 1
      (program slot = none → exec (.patch d q) s = .next (settleQueue d q (refusePacket d q 0x0104 b (popLine d q s)))) ∧
      ∀ g, program slot = some g →
        (g.patchPending.isSome = true → exec (.patch d q) s = .next s) ∧
        (g.patchPending = none → patchFits g (patchRecords b) = false →
          exec (.patch d q) s = .next (settleQueue d q (refusePacket d q 0x0102 b (popLine d q s)))) ∧
        (g.patchPending = none → patchFits g (patchRecords b) = true → ∃ u, exec (.patch d q) s = .next (settleQueue d q u) ∧
          held u (.patch slot) ∧ partOfIx u p = { partOfIx s p with
            programs := tblSet (partOfIx s p).programs slot { g with patchPending := some (d, q) } } ∧ Frame [.dies, .parts] s u)) ∧
    ∀ slot, holdPacket s d q = some (.patch slot, b) →
      (slotInUse s p slot = true → exec (.patchApply d q) s = .next s) ∧
      ∀ g, slotInUse s p slot = false → program slot = some g → RecordReady s d q p →
        ∃ u, exec (.patchApply d q) s = .next (releaseQueue d q u) ∧ Completed d q p s u b false 0 0 ∧
          tblGet (partOfIx u p).programs slot = some (applyPatch g (patchRecords b)) ∧
          (∀ k, k ≠ slot → tblGet (partOfIx u p).programs k = program k) ∧ (applyPatch g (patchRecords b)).digest = g.digest ∧
          Frame (.parts :: recordAreas) s u

/-- JOB_SUBMIT, SET_STEP, FENCE, BLOCK and CANCEL (R209, R286 to R288, R291, R292, R404): each acts at the head of its queue, holds the queue for as
long as it waits, and completes in order. What a FENCE waits for and when SET_STEP and CANCEL act are the model's readings (logs 56 and 57). -/
def Obligations.PacketsOfAQueue : Prop :=
  ∀ (s : State) (d : DieIx) (q : QueueIx) (b : List Byte) (p : PartIx), (dieOf s d).owner = some p → bodyOk b = true →
    let x := queueOf s d q
    let held (u : State) (h : Hold) : Prop := (queueOf u d q).hold = some (h, .packet (pktSeq b) (b.length / 64) b none) ∧
      (queueOf u d q).line = x.line.tail
    let refused (i : Instr) (e : Ev) : Prop := exec i s = .next (settleQueue d q (refusePacket d q e b (popLine d q s)))
    (headPacket s d q 4 = some b →
      (tblGet (partOfIx s p).programs (fieldAt b 0x10 1) = none → (partOfIx s p).role ≠ .standby → refused (.jobSubmit d q) 0x0104) ∧
      ((partOfIx s p).role = .standby → refused (.jobSubmit d q) 0x0102) ∧
      ∀ g, tblGet (partOfIx s p).programs (fieldAt b 0x10 1) = some g → (partOfIx s p).role ≠ .standby →
        (g.entryCount ≤ fieldAt b 0x11 1 → refused (.jobSubmit d q) 0x0104) ∧
        (fieldAt b 0x11 1 < g.entryCount → (∃ r < g.roles, (g.roleEntry (fieldAt b 0x11 1) r).isSome = true) →
          (g.dieMap.head? ≠ some d → refused (.jobSubmit d q) 0x0102) ∧
          (g.dieMap.head? = some d → g.dieMap.Nodup → ∃ u, exec (.jobSubmit d q) s = .next (settleQueue d q u) ∧
            u.jobs = s.jobs ++ [jobOfPacket s p d q g b] ∧ u.nextId = s.nextId + 1 ∧ held u (.job s.nextId) ∧
            (∀ e, e ∈ g.dieMap.drop 1 → queueOf u e q = { queueOf s e q with line := (queueOf s e q).line ++ [.role s.nextId] }) ∧
            (∀ e k, k ≠ q ∨ e ∉ g.dieMap → queueOf u e k = queueOf s e k) ∧ Frame [.dies, .jobs, .nextId] s u))) ∧
    (headPacket s d q 6 = some b →
      (x.jobs ≠ [] → exec (.setStep d q) s = .next s) ∧
      (x.jobs = [] → RecordReady s d q p → ∃ u, exec (.setStep d q) s = .next (settleQueue d q u) ∧ Completed d q p s u b false 0 0 ∧
        (queueOf u d q).stepId = fieldAt b 0x10 4 ∧ (queueOf u d q).eta = stepValue (fieldAt b 0x14 4) ∧
        (queueOf u d q).lambda = (if bitOf (fieldAt b 0x1C 1) 0 then stepValue (fieldAt b 0x18 4) else 0) ∧ Frame recordAreas s u)) ∧
    (headPacket s d q 5 = some b →
      let ds := maskDies (fieldAt b 0x12 2)
      let qm := fieldAt b 0x10 2
      ((∃ e ∈ ds, (dieOf s e).owner ≠ some p) → refused (.fence d q) 0x0102) ∧
      ((∀ e ∈ ds, (dieOf s e).owner = some p) → ∃ u ops bns, exec (.fence d q) s = .next (settleQueue d q u) ∧
        held u (.fence ops bns (bitOf (fieldAt b 0x14 1) 0) (if fieldAt b 0x16 2 = 0xFFFF then none else some (fieldAt b 0x16 2))) ∧
        (∀ e o, (e, o) ∈ ops ↔ e ∈ ds ∧ ∃ y ∈ (dieOf s e).ops, y.id = o ∧ bitOf qm y.queue.val = true) ∧ Frame [.dies] s u)) ∧
    (∀ ops bns remote fl, holdPacket s d q = some (.fence ops bns remote fl, b) →
      let done := ops.all (fenceDone s remote) && !(bnInFlight s).any fun c => bns.contains c.arrival
      (done = false → exec (.fenceComplete d q) s = .next s) ∧
      (done = true → RecordReady s d q p → ∃ u, Completed d q p s u b false 0 0 ∧ Frame recordAreas s u ∧
        exec (.fenceComplete d q) s = .next (match fl with
          | some f => signalFlag d f (releaseQueue d q u)
          | none => releaseQueue d q u))) ∧
    (headPacket s d q 8 = some b →
      let f := bitsOf (fieldAt b 0x10 2) 0 9
      let clear := bitOf (fieldAt b 0x12 1) 0
      (flagSetP s d f = false → ∃ u, exec (.block d q) s = .next (settleQueue d q u) ∧ held u (.block f clear (bitOf (fieldAt b 0x12 1) 1)) ∧
        Frame [.dies] s u) ∧
      (flagSetP s d f = true → RecordReady s d q p → ∃ u, Completed d q p s u b false 0 0 ∧ Frame recordAreas s u ∧
        exec (.block d q) s = .next (settleQueue d q (if clear then clearFlagBit d f (releaseQueue d q u) else releaseQueue d q u)))) ∧
    (∀ f clear stop, holdPacket s d q = some (.block f clear stop, b) →
      (fieldAt b 0x14 4 = 0 → exec (.blockExpiry d q) s = .next s) ∧
      (fieldAt b 0x14 4 ≠ 0 → RecordReady s d q p → pktType b ≠ 0 → ∃ u, exec (.blockExpiry d q) s = .next (settleQueue d q u) ∧
        Logged 0x0401 { die := d, queue := some (q, pktSeq b, 0), part := some p, unit := 0, detail := 0, isSkip := false } s u ∧
        Completed d q p s u b true 0x0401 0 ∧ (queueOf u d q).hold = none ∧ (queueOf u d q).stopFollowing = stop ∧
        Frame (.dies :: logAreas) s u)) ∧
    ∀ pre post, queueOpen s d q = true → findCancel [] x.line = some (pre, b, post) →
      let mode := fieldAt b 0x10 1
      let js := cancelJobs s p d q mode (fieldAt b 0x18 8)
      (∃ u, exec (.cancel d q) s = .next (settleDies (ownedDies s p) u) ∧ (∀ j ∈ u.jobs, j.id ∉ js) ∧ (∀ j ∈ s.jobs, j.id ∉ js → j ∈ u.jobs) ∧
        ∀ e, ∀ o ∈ (dieOf u e).ops, o.job ∉ js) ∧
      (js = [] → mode ≠ 2 → ∃ u, exec (.cancel d q) s = .next (settleDies (ownedDies s p) u) ∧
        (queueOf u d q).line = pre.filter (fun i => !cancelsItem mode (fieldAt b 0x18 8) i) ++ post ∧ Frame recordAreas s u ∧
        (RecordReady s d q p → pre.filter (cancelsItem mode (fieldAt b 0x18 8)) = [] → Completed d q p s u b false 0 0))

/-- Wrapped import (R76 to R82, R88, R104): KEYSET_BIND opens an import or is refused with its reason code; a segment that authenticates is written to
every home where its keys have their places, the last one commits the set, and one that does not fails the import and frees the slot. Placement and
corner cases are the model's readings (logs 60 and 61). -/
def Obligations.KeySetImport : Prop :=
  ∀ (s : State) (p : PartIx), memsOk s →
    (∀ (d : DieIx) (q : QueueIx) (b envelope : List Byte), (dieOf s d).owner = some p → headPacket s d q 3 = some b → bodyOk b = true →
      (partOfIx s p).role ≠ .standby →
      let slot := fieldAt b 0x10 1
      let homes := BitVec.ofNat 16 (fieldAt b 0x12 2)
      let staged := headStaged s d q
      let env := if fieldAt b 0x20 8 < 256 then [] else match staged with
        | some x => stagedBytes s x 0 256
        | none => bytesAt envelope 0 256
      let tag := fieldAt env 8 8
      (∀ r, bindChecks s p env slot homes = .error r → ∃ u, exec (.keysetBind d q envelope) s = .next (settleQueue d q u) ∧
        Logged (reasonEvent r) { die := d, queue := some (q, pktSeq b, 0), part := some p, unit := 2, detail := r, isSkip := false } s u ∧
        (RecordReady s d q p → Completed d q p s u b true (reasonEvent r) r) ∧
        ksOf u p slot = (if (ksOf s p slot).state = .free ∨ isRefetch s p slot tag = true then { ksOf s p slot with lastReason := r }
          else ksOf s p slot) ∧ (partOfIx u p).imports = (partOfIx s p).imports ∧ Frame (.parts :: .dies :: logAreas) s u) ∧
      (∀ placed, bindChecks s p env slot homes = .ok placed → ∃ u im, exec (.keysetBind d q envelope) s = .next (settleQueue d q u) ∧
        (partOfIx u p).imports = (partOfIx s p).imports ++ [im] ∧
        im = { slot := slot, die := d, queue := q, tag := tag, homeMask := homes, length := fieldAt env 0x18 8, refetch := isRefetch s p slot tag
               envelope := env, sessionKey := (partOfIx s p).importKey.map fun k => sessionKeyOf env k.d, nextSeg := 0, plain := []
               placed := placed, confirm := false, mirror := mirrored s p, staged := staged } ∧
        ksOf u p slot = (if isRefetch s p slot tag then { ksOf s p slot with state := .refetching } else { KeySet.zero with
          state := .importing, tag := tag, homeMask := homes, totalRows := fieldAt env 0x18 8 / 288, lastReason := (ksOf s p slot).lastReason }) ∧
        (queueOf u d q).hold = some (.import slot, .packet (pktSeq b) (b.length / 64) b none) ∧ Frame [.parts, .dies] s u)) ∧
    ∀ (slot : Nat) (bytes : List Byte) (im : Import) (h : Hold) (b : List Byte), importOf s p slot = some im → im.confirm = false →
      im.mirror = false → holdPacket s im.die im.queue = some (h, b) → (dieOf s im.die).owner = some p →
      let last : Prop := im.length ≤ segOff im + segLen im
      let failed (r : Nat) : Prop := ∃ u, exec (.importSegment p slot bytes) s = .next (finishEvictions p (releaseQueue im.die im.queue u)) ∧
        Logged (reasonEvent r) { die := im.die, queue := some (im.queue, pktSeq b, 0), part := some p, unit := 2, detail := r, isSkip := false } s u ∧
        (∀ i ∈ (partOfIx u p).imports, i.slot ≠ slot) ∧
        ksOf u p slot = (if im.refetch then { ksOf s p slot with state := .damaged, lastReason := r } else { KeySet.zero with lastReason := r })
      (openSegment im (fieldAt b 0x20 8) (segBytes s im bytes) = none → failed 0x07) ∧
      ∀ m, openSegment im (fieldAt b 0x20 8) (segBytes s im bytes) = some m →
        let plain := im.plain ++ m
        let bad := bundleFails plain s.fuses.primes im.tag im.length (partOfIx s p).chains (importAgrees s p im plain)
        (∀ r, bad = some r → failed r) ∧
        (bad = none → settlePlace s p im plain = none → failed 0x06) ∧
        ∀ l, bad = none → settlePlace s p im plain = some l →
          (¬last → (l.Pairwise fun x y => dieBits x.1 = dieBits y.1 → x.2.2.2 + x.2.2.1 ≤ y.2.2.2 ∨ y.2.2.2 + y.2.2.1 ≤ x.2.2.2) →
            ∃ t, exec (.importSegment p slot bytes) s = .next t ∧
              importOf t p slot = some { im with plain := plain, nextSeg := im.nextSeg + 1, placed := l } ∧
              (∀ x ∈ l, ∀ i < m.length, x.2.1 * 288 ≤ segOff im + i → segOff im + i < (x.2.1 + x.2.2.1) * 288 →
                memGet (dieOf t (dieBits x.1)).store (x.2.2.2 * 288 + (segOff im + i - x.2.1 * 288)) = m.getD i 0) ∧
              (∀ e n, (∀ x ∈ l, dieBits x.1 = e → n < x.2.2.2 * 288 ∨ (x.2.2.2 + x.2.2.1) * 288 ≤ n) →
                memGet (dieOf t e).store n = memGet (dieOf s e).store n) ∧
              (∀ e, { dieOf t e with store := [], idle := 0 } = { dieOf s e with store := [], idle := 0 }) ∧ Frame [.parts, .dies] s t) ∧
          (last → ∀ cs, regChain (bytesAt plain 0x80 128) (partOfIx s p).chains = some cs → RecordReady s im.die im.queue p →
            ∃ u, exec (.importSegment p slot bytes) s = .next (releaseQueue im.die im.queue u) ∧ Completed im.die im.queue p s u b false 0 0 ∧
              ksOf u p slot = setOf (ksOf s p slot) plain im.homeMask l false ∧ (partOfIx u p).chains = cs ∧
              (∀ i ∈ (partOfIx u p).imports, i.slot ≠ slot) ∧ Frame (.parts :: recordAreas) s u)

/-- Remote windows at their owner (R364 to R370): WIN_OPEN takes an entry and the next GEN; a close fails the collectives that receive there and ends
when the admitted WRITEs have landed; a WRITE, READ_REQ or FLAG_SET that passes the owner's checks lands, is answered or sets the flag, and one that
does not is answered with a NAK and changes nothing. -/
def Obligations.RemoteWindows : Prop :=
  ∀ (s : State), memsOk s →
    (∀ (a : Site) (j : Job) (w sc : Nat), Ready s a j → scalarBusy s a.die [sc] = false →
      (∀ h base len (g : WinAccess), winOpenOk s a.die w h base len g = true →
        let gen := if ((windowOf s w).gen + 1) % 2 ^ 32 = 0 then 1 else ((windowOf s w).gen + 1) % 2 ^ 32
        ∃ t, exec (.winOpen a w h base len g sc) s = .next t ∧ scalarOf t a.die sc = gen ∧ (∀ k, k ≠ sc → scalarOf t a.die k = scalarOf s a.die k) ∧
          windowOf t w = { opened := true, write := g.write, read := g.read, store := g.store, any := g.any, part := j.part.val, die := a.die.val
                           handle := h, peer := g.peer, epoch := j.epoch % 2 ^ 16, gen := gen, drained := 0, base := base, length := len
                           closing := false, closeOp := none, admitted := 0 } ∧
          (∀ k, k ≠ w → windowOf t k = windowOf s k) ∧ OtherDies a.die s t ∧ Frame [.dies, .fabric] s t) ∧
      (closable s w j.part = true → ∃ u o, exec (.winClose a w sc) s = .next (failColls (fun c => c.window == w) 0x0501 u) ∧
        InFlight a j 9 [] o s u ∧ o.scalars = [sc] ∧ windowOf u w = { windowOf s w with
          closing := true, closeOp := some (a.die, s.nextId), admitted := writesWaiting s w } ∧ (∀ k, k ≠ w → windowOf u k = windowOf s k) ∧
        Frame [.dies, .jobs, .nextId, .fabric] s u)) ∧
    (∀ w,
      ((windowOf s w).opened = false ∨ (windowOf s w).closing = false ∨ (windowOf s w).admitted ≠ 0 → exec (.windowCloseComplete w) s = .next s) ∧
      ((windowOf s w).opened = true → (windowOf s w).closing = true → (windowOf s w).admitted = 0 → ∃ t,
        exec (.windowCloseComplete w) s = .next t ∧ windowOf t w = { windowOf s w with opened := false, closing := false, closeOp := none } ∧
        (∀ k, k ≠ w → windowOf t k = windowOf s k) ∧
        ∀ d op o sc, (windowOf s w).closeOp = some (d, op) → opOf s d op = some o → o.scalars = [sc] →
          scalarOf t d sc = (windowOf s w).drained % 2 ^ 64 ∧ opOf t d op = none)) ∧
    ∀ (n : PortIx) (p : Packet) (v : State),
      let w := windowOf s p.window
      let d := w.dieIx
      (takeArrived (fun x => x.2.ptype == 1) s = some ((n, p), v) →
        let adm := w.closing && decide (0 < w.admitted)
        let z := if adm then { w with admitted := w.admitted - 1 } else w
        (∀ e, windowRefuses (updWindow p.window (fun _ => z) s) p adm = some e → ∃ u, exec .remoteWrite s = .next (answer p 5 e.toNat [] u) ∧
          windowOf u p.window = z ∧ u.fabric.arrived = s.fabric.arrived.erase (n, p) ∧ Frame [.fabric] s u) ∧
        (windowRefuses (updWindow p.window (fun _ => z) s) p adm = none → ∃ u, exec .remoteWrite s = .next (answer p 4 0 [] u) ∧
          windowOf u p.window = { z with drained := (w.drained + 1) % 2 ^ 32 } ∧ u.fabric.arrived = s.fabric.arrived.erase (n, p) ∧
          (w.store = false → Wrote (dieOf s d).scratch (dieOf u d).scratch ((handleOf s d w.handle).base * 288 + (w.base + p.offset.toNat)) p.data ∧
            (dieOf u d).store = (dieOf s d).store) ∧
          (w.store = true → Wrote (dieOf s d).store (dieOf u d).store ((storeOf s d w.handle).base * 288 + (w.base + p.offset.toNat)) p.data ∧
            (dieOf u d).scratch = (dieOf s d).scratch ∧ (storeOf u d w.handle).digest = none) ∧
          OtherDies d s u ∧ Frame [.dies, .fabric] s u)) ∧
      (takeArrived (fun x => x.2.ptype == 2) s = some ((n, p), v) →
        (∀ e, windowRefuses s p false = some e → exec .readReq s = .next (answer p 5 e.toNat [] v)) ∧
        (windowRefuses s p false = none → windowPoisoned s w = true → exec .readReq s = .next (answer p 5 0x0107 [] (wakeDie d v))) ∧
        (windowRefuses s p false = none → windowPoisoned s w = false → exec .readReq s = .next (answer p 3 0
          (if w.store then storeBytes s d w.handle (w.base + p.offset.toNat) p.length else handleBytes s d w.handle (w.base + p.offset.toNat) p.length)
          (wakeDie d v)))) ∧
      (takeArrived (fun x => x.2.ptype == 6) s = some ((n, p), v) →
        (∀ e, windowRefuses s p false = some e → exec .flagSet s = .next (answer p 5 e.toNat [] v)) ∧
        (windowRefuses s p false = none → (∀ q c st b, holdPacket s d q ≠ some (.block p.offset.toNat c st, b)) → ∃ u,
          exec .flagSet s = .next (answer p 4 0 [] u) ∧ flagSetP u d p.offset.toNat = true ∧
          (∀ g, g ≠ p.offset.toNat → flagSetP u d g = flagSetP s d g) ∧ Frame [.dies, .fabric] s u))

/-- Collectives (R371 to R376): each member starts its part and sends its head to the others; a peer's data joins its contribution; a head with
another CRC-32C, an abort and the limit fail the job; once every head and all data are there the result is written in rank order. The bodies of the
messages and what the compared CRC covers are the model's choice (log 32). -/
def Obligations.CollectiveOperations : Prop :=
  ∀ (s : State), memsOk s →
    (∀ (a : Site) (j : Job) (src dst coll : Nat) (es : List SbEntry),
      let b := collTable s a.die coll
      let key := (partOfIx s j.part).fabricKey
      (∀ (x z : Desc),
        let c := { collOf j b (some x) (some z) (denseBytes s x) (if x.kind = 0 then bytesAt (denseBytes s x) 0 64 else [])
          (x.kind == 0 && (objHead s x 0).degraded) with draw := s.free % 2 ^ 64 }
        let sent (u : State) : State := collControl a.die key c (collHello c) u
        let started (u : State) : Prop := (∃ o, InFlight a j 9 es o s u ∧ o.coll = some c) ∧ u.free = s.free + 1 ∧
          { dieOf u a.die with ops := [], scoreboard := [], counters := [] } = { dieOf s a.die with ops := [], scoreboard := [], counters := [] } ∧
          Frame [.dies, .counters, .jobs, .nextId, .free] s u
        (CollBegins s a 1 src dst coll j x z es → ∃ u, exec (.allReduce a src dst coll) s = .next (sent u) ∧ started u) ∧
        (CollBegins s a 2 src dst coll j x z es → ∃ u, exec (.reduceScatter a src dst coll) s = .next (sent u) ∧ started u) ∧
        (CollBegins s a 3 src dst coll j x z es → ∃ u, exec (.allGather a src dst coll) s = .next (sent u) ∧ started u) ∧
        (CollBegins s a 4 src dst coll j x z es → ∃ u, exec (.broadcast a src dst coll) s = .next (sent u) ∧ started u)) ∧
      (Ready s a j → handleUse s a.die coll = none → (handleOf s a.die coll).poisoned = false → collFits s a.die coll = true →
        collSound s a.die 5 b = true → collMembers s j (collHead b) = .pass → collWindow s j (collHead b) 0 = .pass →
        (∃ m, sbAdmit s a.die [handleRange s a.die coll 0 (handleOf s a.die coll).rows false] = some (es, m)) →
        let c := { collOf j b none none [] [] false with draw := s.free % 2 ^ 64 }
        ∃ u o, exec (.barrier a coll) s = .next (collControl a.die key c (collHello c) u) ∧ InFlight a j 9 es o s u ∧ o.coll = some c ∧
          Frame [.dies, .counters, .jobs, .nextId, .free] s u)) ∧
    (∀ (n : PortIx) (p : Packet) (v : State) (o : Op) (c : Coll) (r : Nat) (j : Job), opOf s p.dstDie o.id = some o → o.coll = some c →
      senderRank c p = some r → jobOf s o.job = some j →
      let d := p.dstDie
      let key := (partOfIx s j.part).fabricKey
      let abort (e : Ev) : List Byte := leBytes 1 1 ++ leBytes 2 e.toNat
      (takeArrived (fun x => x.2.ptype == 7 && ((dataColl s x.2).isSome || !(windowOf s x.2.window).opened)) s = some ((n, p), v) →
        dataColl s p = some (o, c) →
        let w := windowOf s p.window
        (w.length < p.offset.toNat + p.data.length → exec .collData s = .next v) ∧
        (p.offset.toNat + p.data.length ≤ w.length → w.store = false → ∃ t, exec .collData s = .next t ∧
          opOf t d o.id = some { o with coll := some { c with contrib := addContrib r p.data c.contrib } } ∧
          Wrote (dieOf s w.dieIx).scratch (dieOf t w.dieIx).scratch ((handleOf s w.dieIx w.handle).base * 288 + (w.base + p.offset.toNat)) p.data ∧
          t.fabric = { s.fabric with arrived := s.fabric.arrived.erase (n, p) } ∧ Frame [.dies, .fabric] s t)) ∧
      (takeArrived (fun x => x.2.ptype == 8 && (ctrlColl s x.2).isSome) s = some ((n, p), v) → ctrlColl s p = some (o, c) →
        (fieldAt p.data 0 1 = 1 → ∃ t, exec .collCtrl s = .next t ∧ OpFailed d o j 9 (BitVec.ofNat 16 (fieldAt p.data 1 2)) s t) ∧
        (fieldAt p.data 0 1 = 0 → (∀ y ∈ c.heads, y.1 ≠ r) → fieldAt p.data 4 4 ≠ c.crc → ∃ t, exec .collCtrl s = .next t ∧
          OpFailed d o j 9 0x0102 (collControl d key c (abort 0x0102) v) t) ∧
        (fieldAt p.data 0 1 = 0 → (∀ y ∈ c.heads, y.1 ≠ r) → fieldAt p.data 4 4 = c.crc → c.red ≠ 6 → ∃ u,
          exec .collCtrl s = .next (sendColl d key c r (fieldAt p.data 2 2) u) ∧ Frame [.dies, .fabric] s u ∧
          opOf u d o.id = some { o with coll := some { c with
            heads := c.heads ++ [(r, bitOf (fieldAt p.data 1 1) 0, fieldAt p.data 2 2, bytesAt p.data 8 64)]
            draw := if r = 0 then fieldAt p.data 72 8 else c.draw } }))) ∧
    ∀ (d : DieIx) (op : Nat) (o : Op) (c : Coll) (j : Job), opOf s d op = some o → o.coll = some c → jobOf s o.job = some j →
      (∃ t, exec (.collectiveTimeout d op) s = .next t ∧
        OpFailed d o j 9 0x0504 (collControl d (partOfIx s j.part).fabricKey c (leBytes 1 1 ++ leBytes 2 0x0504) s) t) ∧
      ∀ x z, c.src = some x → c.dst = some z → c.red ≠ 6 → collDegraded c = false → opBlocked s d o = false → o.xfer = none → o.exch = none →
        o.takes = [] → (∀ h, ∀ g ∈ (hostOf s h).groups, g.2.2 ≠ op) → (∀ g ∈ s.fabric.benchGroups, g.2.2.2 ≠ op) →
        ∃ u, exec (.operationComplete d op) s = .next (startTongs d (raiseFlag o.flag u)) ∧
          Frame ([.dies, .fabric, .jobs] ++ logAreas) s u ∧ opOf u d op = none ∧
          ∀ e, { dieOf u e with ops := [], scoreboard := [], counters := [] } =
            { dieOf (writeElems z 0 (z.offs.zip (collResult c x j.reproducible)) s) e with ops := [], scoreboard := [], counters := [] }

/-- Epochs and lost members (R359 to R363): a due switch makes the pending epoch current and releases what was held for it; an epoch retires once no
admitted job of it remains and the windows that it opened have closed; what is held too long is refused; a lost member fails the work that needs it.
The packets of the fabric (R352 to R357, R361): what reaches a port is delivered here, forwarded with one hop more, held for the next epoch, or
discarded and counted by reason. Between two dies traffic crosses to the other row first and then runs along it (R14). A boundary also performs a
switch that is due (log 66). -/
def Obligations.EpochsAndRouting : Prop :=
  (∀ (s : State),
      (switchDue s = false → exec .epochSwitch s = .next s) ∧
      (switchDue s = true → ∃ t, exec .epochSwitch s = .next ((allPorts.flatMap fun n => (portOf s n).holdBuf).foldl (fun s x => takeHeld x s) t) ∧
        (∀ p v, takeHeld (.packet p) v = v) ∧ Frame [.ports, .fabric] s t ∧
        (∀ n, portOf t n = { portOf s n with holdBuf := [] }) ∧ ∃ late, t.fabric = { s.fabric with
          retained := some (s.fabric.epoch, s.fabric.members), epoch := s.fabric.pendEpoch, members := s.fabric.pendMembers
          routes := s.fabric.pendRoutes, losses := [], pendEpoch := 0, pendMembers := [], pendRoutes := [], switchAt := 0
          arrived := s.fabric.arrived ++ late } ∧ ∀ n p, (n, p) ∈ late ↔ HeldIn.packet p ∈ (portOf s n).holdBuf) ∧
      (∀ e ms, s.fabric.retained = some (e, ms) →
        ((∃ j ∈ s.jobs, j.phase = .admitted ∧ j.epoch = e) → exec .epochRetire s = .next s) ∧
        ((∀ j ∈ s.jobs, j.phase = .admitted → j.epoch ≠ e) → ∃ t, exec .epochRetire s = .next t ∧
          ((∀ w ∈ s.fabric.windows, w.2.opened = true → w.2.epoch ≠ e % 2 ^ 16) → t = { s with fabric := { s.fabric with retained := none } }) ∧
          ((∃ w ∈ s.fabric.windows, w.2.opened = true ∧ w.2.epoch = e % 2 ^ 16) → t.fabric.retained = s.fabric.retained) ∧
          ∀ w x, tblGet s.fabric.windows w = some x → x.opened = true → x.epoch = e % 2 ^ 16 → (windowOf t w).closing = true)) ∧
      (s.fabric.retained = none → exec .epochRetire s = .next s) ∧
      (∀ n x l, (portOf s n).holdBuf = x :: l → ∃ u, exec (.epochHoldExpiry n) s = .next (refuseHeld x u) ∧
        (∀ p, x = .packet p → refuseHeld x u = if p.ptype = 5 then u else answer p 5 0x0506 [] u) ∧
        (∀ m abort y, x = .exchange m abort → sessionOfTag s m.part m.tag.toNat = some y →
          refuseHeld x u = nakShare m.part (y.2.place m.party).1 m.epoch m.tag m.openSeq u) ∧
        portOf u n = { portOf s n with holdBuf := l, holdRefusals := (portOf s n).holdRefusals + 1 } ∧ (∀ k, k ≠ n → portOf u k = portOf s k) ∧
        Frame [.ports] s u) ∧
      ∀ part epoch,
        (epoch ≠ s.fabric.epoch ∨ part ∉ s.fabric.members ∨ part ∈ s.fabric.losses → exec (.lossNotice part epoch) s = .next s) ∧
        (epoch = s.fabric.epoch → part ∈ s.fabric.members → part ∉ s.fabric.losses → ∃ t, exec (.lossNotice part epoch) s = .next t ∧
          t.fabric.losses = s.fabric.losses ++ [part] ∧
          ((∀ d, (dieOf s d).ops = []) → t = { s with fabric := { s.fabric with losses := s.fabric.losses ++ [part] } }) ∧
          ∀ d, ∀ o ∈ (dieOf s d).ops, (∀ e, ∀ y ∈ (dieOf s e).ops, y.id = o.id → e = d ∧ y = o) → ∀ j, jobOf s o.job = some j → j.epoch = epoch → losesPart s part o = true → ∀ k ∈ t.jobs, k.id ≠ j.id)) ∧
  ((∀ a b : DieIx, (bridgeRoute a b).head? = some a ∧ (bridgeRoute a b).getLast? = some b ∧
      ∀ k c e, (bridgeRoute a b)[k]? = some c → (bridgeRoute a b)[k + 1]? = some e →
        (c.val / 8 = b.val / 8 ∧ e.val / 8 = b.val / 8 ∧ (e.val = c.val + 1 ∨ c.val = e.val + 1)) ∨
        (k = 0 ∧ a.val / 8 ≠ b.val / 8 ∧ e.val / 8 = b.val / 8 ∧ e.val % 8 = a.val % 8)) ∧
    (∀ a b : DieIx, bridgeHops a b = (if a.val / 8 = b.val / 8 then 0 else 1) + (a.val % 8 - b.val % 8) + (b.val % 8 - a.val % 8)) ∧
    ∀ (s : State) (n : PortIx) (p : Packet), s.twin.port ≠ n.val → (portOf s n).keyState ≠ .keying →
      let discarded (m : PortIx) (r : Nat) (t : State) : Prop :=
        portOf t m = { portOf s m with discards := tblSet (portOf s m).discards r (tblGetD (portOf s m).discards r 0 + 1) } ∧
        (∀ k, k ≠ m → portOf t k = portOf s k) ∧ Frame [.ports] s t
      (p.ptype = 0 ∨ 9 < p.ptype → discarded n 4 (packetIn n p s)) ∧
      (1 ≤ p.ptype → p.ptype ≤ 8 →
        (s.fabric.valid = false → discarded n 5 (packetIn n p s)) ∧
        (s.fabric.valid = true → routeOf s p.dstPart p.srcDie p.dstDie = .none → discarded n 1 (packetIn n p s)) ∧
        (∀ m, s.fabric.valid = true → routeOf s p.dstPart p.srcDie p.dstDie = .port m →
          (32 ≤ p.hops → discarded n 0 (packetIn n p s)) ∧
          (p.hops < 32 → (portOf s m).state ≠ .up → discarded m 2 (packetIn n p s)) ∧
          (p.hops < 32 → (portOf s m).state = .up → packetIn n p s = portSend m { p with hops := p.hops + 1 } s)) ∧
        (s.fabric.valid = true → routeOf s p.dstPart p.srcDie p.dstDie = .here →
          (memberHeld s p.srcPart = false → discarded n 3 (packetIn n p s)) ∧
          (memberHeld s p.srcPart = true →
            (p.epoch ∈ epochsHeld s → packetIn n p s = { s with fabric := { s.fabric with arrived := s.fabric.arrived ++ [(n, p)] } }) ∧
            (p.epoch ∉ epochsHeld s → p.epoch = (s.fabric.epoch + 1) % 2 ^ 16 → (portOf s n).holdBuf.length < 64 →
              packetIn n p s = updPort n (fun x => { x with holdBuf := x.holdBuf ++ [.packet p] }) s) ∧
            (p.epoch ∉ epochsHeld s → p.epoch = (s.fabric.epoch + 1) % 2 ^ 16 → 64 ≤ (portOf s n).holdBuf.length →
              let u := updPort n (fun x => { x with holdRefusals := x.holdRefusals + 1 }) s
              packetIn n p s = if p.ptype = 5 then u else answer p 5 0x0506 [] u) ∧
            (p.epoch ∉ epochsHeld s → p.epoch ≠ (s.fabric.epoch + 1) % 2 ^ 16 →
              packetIn n p s = if p.ptype = 5 then s else answer p 5 0x0506 [] s)))))

/-- The link layer (R342 to R347): a sound flit in order is accepted, its ACK frees the replay buffer and its credits are taken; one in error or out
of order is asked for again, once; a RETRY sends everything from its SEQ on again, byte for byte; a port trains, comes up with fresh sequence numbers
and credits, and goes down with its buffers discarded; the channels take turns by their weights, and FLAG goes before them but for one flit in eight.
That an ACK returns at once by an IDLE flit is the model's choice (log 31), and so are what the retry counter counts (log 53) and the turns of the
weighted channels (log 100). -/
def Obligations.LinkLayer : Prop :=
  ∀ (s : State) (n : PortIx),
    let p := portOf s n
    let others (t : State) : Prop := ∀ k, k ≠ n → portOf t k = portOf s k
    let sound (f : Flit) : Prop := f.fecOk = true ∧ f.reserved = 0 ∧ f.crc = flitCrc f
    let taken (f : Flit) (x : Port) : Port :=
      { x with replay := ackReplay f.ack x.replay, credits := x.credits.modify (f.creditVc % 4) (· + f.credits) }
    (p.state = .up → s.alarm.device = false →
      (∀ f, f.ftype ≤ 1 → sound f → ∃ u, exec (.flit n f) s = .next (drainPort n u) ∧ portOf u n = taken f p ∧ others u ∧ Frame [.ports] s u) ∧
      (∀ f, f.ftype ≤ 1 → ¬sound f → exec (.flit n f) s = .next s) ∧
      (∀ f body, f.ftype = 2 ∨ f.ftype = 3 → sound f → f.seq = p.expectSeq → openBody p f = some body → ∃ u,
        exec (.flit n f) s = .next (drainPort n (assemble n (f.vc % 4) f.ftype body u)) ∧
        portOf u n = { taken f p with expectSeq := (p.expectSeq + 1) % 4096, retrying := false, retries := 0
                                      recvCount := if f.isSealed then p.recvCount + 1 else p.recvCount } ∧
        u.out = s.out ++ [.flit n (idleFlit (portOf u n) (f.vc % 4))] ∧ others u ∧ Frame [.ports, .out] s u) ∧
      (∀ f, 2 ≤ f.ftype → ¬sound f ∨ f.seq ≠ p.expectSeq ∨ openBody p f = none ∨ 4 ≤ f.ftype →
        (p.retrying = true → exec (.flit n f) s = .next s) ∧
        (p.retrying = false → p.retryLogged = true → ∃ t, exec (.flit n f) s = .next t ∧ t.out = s.out ++ [.linkRetry n p.expectSeq] ∧
          portOf t n = { p with retrying := true, retries := 1, retryCount := p.retryCount + 1 } ∧ others t ∧ Frame [.ports, .out] s t)) ∧
      (∀ seq, p.replay.all (fun f => f.seq != seq) = true → exec (.retry n seq) s = .next s) ∧
      (∀ pre f post, p.replay = pre ++ f :: post → (∀ g ∈ pre, g.seq ≠ f.seq) → p.retryLogged = true → ∃ t, exec (.retry n f.seq) s = .next t ∧
        t.out = s.out ++ (f :: post).map (Output.flit n) ∧ portOf t n = { p with retryCount := p.retryCount + 1 } ∧ others t ∧ Frame [.ports, .out] s t) ∧
      (p.retrying = true → p.retryLogged = true → ∃ t, exec (.retryRepeat n) s = .next t ∧ t.out = s.out ++ [.linkRetry n p.expectSeq] ∧
        portOf t n = { p with retries := p.retries + 1, retryCount := p.retryCount + 1 } ∧ others t ∧ Frame [.ports, .out] s t) ∧
      (p.retrying = true → p.retryLogged = false → ∃ t, exec (.retryRepeat n) s = .next t ∧ (portOf t n).retryLogged = true ∧
        Logged 0x0505 (evAt n none 9 (n.val + 16 * 2)) s t ∧ Frame (.ports :: logAreas) s t)) ∧
    (p.state = .up → ∃ t, exec (.portDown n) s = .next (unsealTwin n t) ∧ Logged 0x0505 (evAt n none 9 n.val) s t ∧ others t ∧
      Frame (.ports :: logAreas) s t ∧ (s.twin.port ≠ n.val → unsealTwin n t = t) ∧
      portOf t n = { dropKeys p with state := .down, replay := [], sendQ := [], assembly := [], retrying := false, retries := 0,
                                     downCount := p.downCount + 1, keyState := .off }) ∧
    (p.state ≠ .up → exec (.portDown n) s = .next s) ∧
    (p.state = .down → p.enabled = true → dieActive s n = true → s.alarm.device = false →
      (∃ t, exec (.training n true) s = .next t ∧ portOf t n = { p with state := .training, eyeLow := false } ∧ others t ∧ Frame [.ports] s t) ∧
      exec (.training n false) s = .next s) ∧
    (p.enabled = false → exec (.training n true) s = .next s) ∧
    (p.state = .training →
      (∃ t, exec (.trainingComplete n false) s = .next t ∧ portOf t n = { p with state := .down, downCount := p.downCount + 1 } ∧ others t ∧ Frame [.ports] s t) ∧
      (p.encEnable = false ∨ s.alarm.device = true → ∃ t, exec (.trainingComplete n true) s = .next t ∧ others t ∧ Frame [.ports] s t ∧
        portOf t n = { p with state := .up, sendSeq := 0, expectSeq := 0, retrying := false, retries := 0, credits := [256, 256, 256, 256], keyState := .off,
                              turns := [0, 0, 0, 0], sinceFlag := 7 }) ∧
      (p.encEnable = true → s.alarm.device = false → ∃ t e nonce, exec (.trainingComplete n true) s = .next t ∧ others t ∧ Frame [.ports, .out, .free] s t ∧
        1 ≤ e ∧ e < p256.order ∧ nonce.length = 32 ∧
        portOf t n = { dropKeys p with state := .up, sendSeq := 0, expectSeq := 0, retrying := false, retries := 0, credits := [256, 256, 256, 256],
                                       keyState := .keying, keyNumber := p.keyNumber + 1, ephScalar := some e, nonce := nonce,
                                       turns := [0, 0, 0, 0], sinceFlag := 7 })) ∧
    (let waits := [0, 1, 3].filter (canSend p)
     (canSend p 2 = true → waits = [] ∨ 7 ≤ p.sinceFlag → pickVc p = some (2, { p with sinceFlag := 0 })) ∧
      (canSend p 2 = false → waits = [] → pickVc p = none) ∧
      (waits ≠ [] → canSend p 2 = false ∨ p.sinceFlag < 7 → ∃ v ∈ waits, ∃ q, pickVc p = some (v, q) ∧ q.sinceFlag = Nat.min 7 (p.sinceFlag + 1) ∧
        ((∃ w ∈ waits, 0 < p.turns.getD w 0) → 0 < p.turns.getD v 0 ∧ q.turns = p.turns.modify v (· - 1)) ∧
        ((∀ w ∈ waits, p.turns.getD w 0 = 0) → q.turns = (vcWeights p).modify v (· - 1))))

/-- Link keys (R433 to R436): the LINK_KEY record comes in segments; a sound one gives both direction keys by R434 and KEY_START is sent; a bad one, a
timeout and the limit of 2^48 sealed flits take the port down with its keys zeroised; a change of ENABLE retrains the port. An import that awaits its
twin commits alone where the twin port goes down (R101), and in a device quench nothing is keyed (R346). A change of encryption on a port that is not
UP only drops its keys (log 88). -/
def Obligations.LinkKeys : Prop :=
  ∀ (s : State) (n : PortIx),
    let p := portOf s n
    let others (t : State) : Prop := ∀ k, k ≠ n → portOf t k = portOf s k
    let down (i : Instr) (failed : Bool) : Prop := ∃ t, exec i s = .next (unsealTwin n t) ∧ Logged 0x0505 (evAt n none 9 n.val) s t ∧ others t ∧
      Frame (.ports :: logAreas) s t ∧ (portOf t n).state = .down ∧ (portOf t n).keyState = (if failed then .failed else .off) ∧
      (portOf t n).sendKey = none ∧ (portOf t n).recvKey = none ∧ (portOf t n).ephScalar = none
    (p.keyState = .keying → down (.keyingTimeout n) true) ∧
    (p.keyState = .keying → s.alarm.device = true → exec (.linkKey n) s = .next s ∧ exec (.keyStart n) s = .next s ∧
      ∀ off k bs, exec (.linkKeySegment n off k bs) s = .next s) ∧
    (p.keyState = .keying → s.alarm.device = false →
      (∀ off k bs, off = p.record.length → p.record.length + bs.length ≤ 17232 → p.record = [] ∨ k = p.recordKey → ∃ t,
        exec (.linkKeySegment n off k bs) s = .next t ∧ portOf t n = { p with record := p.record ++ bs, recordKey := k } ∧ others t ∧ Frame [.ports] s t) ∧
      (∀ off k bs, off ≠ p.record.length ∨ 17232 < p.record.length + bs.length ∨ (p.record ≠ [] ∧ k ≠ p.recordKey) →
        down (.linkKeySegment n off k bs) true) ∧
      (∀ e, p.ephScalar = some e → p.record.length = 17232 → p.recvKey = none →
        (linkRecordOk s p p.record = false → down (.linkKey n) true) ∧
        (linkRecordOk s p p.record = true →
          let peer := bitsOf (fieldAt p.record 2 2) 0 14
          let z := beBytes 32 (ecCoords (ecMul p256 e (some (leNat (bytesAt p.record 0x30 32), leNat (bytesAt p.record 0x50 32))))).1
          let key := linkKeyOf z s.fabric.partId peer p.nonce (bytesAt p.record 0x10 32)
          ∃ u, exec (.linkKey n) s = .next (finishKeying n u) ∧ u.out = s.out ++ [.keyStart n] ∧ others u ∧ Frame [.ports, .out] s u ∧
            portOf u n = { p with sendKey := some (key s.fabric.partId p.keyNumber), recvKey := some (key peer (fieldAt p.record 8 4))
                                  peerKeyNumber := fieldAt p.record 8 4 })) ∧
      (p.sendKey = none → ∃ t, exec (.keyStart n) s = .next t ∧ portOf t n = { p with peerStarted := true } ∧ others t ∧ Frame [.ports] s t) ∧
      (p.sendKey.isSome = true → p.recvKey.isSome = true → ∃ u, exec (.keyStart n) s = .next (drainPort n u) ∧ others u ∧ Frame [.ports] s u ∧
        portOf u n = { p with peerStarted := true, keyState := .on, sealedCount := 0, recvCount := 0 })) ∧
    (p.keyState ≠ .keying → exec (.keyingTimeout n) s = .next s ∧ exec (.keyStart n) s = .next s) ∧
    (p.keyState = .on → 2 ^ 48 ≤ p.sealedCount → down (.keyLimit n) false) ∧
    (p.sealedCount < 2 ^ 48 → exec (.keyLimit n) s = .next s) ∧
    ∀ (r : FpReq) (v : Nat), HostWrites s r 0x4030 (n.val + 1) (leBytes 1 v) → v ≤ 1 →
      (dieActive s n = false → exec (.linkEncryption r) s = .next (answered r 5 s)) ∧
      (dieActive s n = true → ∃ u, exec (.linkEncryption r) s = .next (answered r 0 (if p.encEnable ≠ decide (v = 1) ∧ p.state = .up then unsealTwin n u else u)) ∧
        (portOf u n).encEnable = decide (v = 1) ∧ others u ∧ (p.encEnable = decide (v = 1) → u = s) ∧
        (p.encEnable ≠ decide (v = 1) → (portOf u n).keyState = .off ∧ (portOf u n).sendKey = none ∧ (portOf u n).recvKey = none) ∧
        (p.encEnable ≠ decide (v = 1) → p.state = .up → (portOf u n).state = .down ∧ Logged 0x0505 (evAt n none 9 n.val) s u) ∧
        Frame (.ports :: logAreas) s u)

/-- Pairing, heartbeats and loss of twins (R405, R406, R408, R410, R412). RSEQ, the generation in PAIR and DETACH in UNPAIRED are the model's readings
(log 62). -/
def Obligations.TwinPairing : Prop :=
  ∀ (s : State),
    let w := s.twin
    let mirroringOver (t : State) : Prop := t.twin.mirrors = [] ∧ t.twin.filling = [] ∧ t.twin.refetches = [] ∧
      ∀ p k, (ksOf t p k).mirrored = false
    let gone (t : State) : Prop := t.twin.state = .unpaired ∧ mirroringOver t ∧ ∀ p, (partOfIx t p).role = .none
    (∀ n p tag, (w.port < 16 → (∀ x : PortIx, w.port = x.val → (portOf s x).state ≠ .up)) →
      sendTwin n p tag s = { s with twin := { w with sent := tblSet w.sent n (tblGetD w.sent n 0 + 1) } }) ∧
    (∀ x n p tag, TwinSends s x → ∃ (v : Sent) (r : TwinRec), sendTwin n p tag s = { s with
        out := s.out ++ [.twinRecord v r], twin := { w with sent := tblSet w.sent n (tblGetD w.sent n 0 + 1) } } ∧ OnPort v x 2 ∧
      v.head.hops = 0 ∧ v.head.dstPart = w.partner ∧ v.head.srcPart = s.fabric.partId ∧
      r = { rtype := n, part := p, sender := s.fabric.partId, gen := BitVec.ofNat 32 w.pairGen, rseq := (tblGetD w.sent n 0 + 1) % 2 ^ 32
            reserved := 0, tag := BitVec.ofNat 64 tag, armed := w.armed, check := crc32c (recBytes r) }) ∧
    (∀ r, HostWrites s r 0x3040 6 (leBytes 1 1) →
      (w.state = .unpaired → twinLinkUp s = true →
        exec (.pair r) s = .next (answered r 0 (sendTwin 2 0 0 { s with twin := { w with state := .pairing, sent := [] } }))) ∧
      (w.state ≠ .unpaired ∨ twinLinkUp s = false → exec (.pair r) s = .next (answered r 7 s))) ∧
    (w.state = .pairing → exec .pairResend s = .next (sendTwin 2 0 0 s)) ∧
    (w.state ≠ .pairing → exec .pairResend s = .next s) ∧
    (∀ r, recSound s r = true → w.state = .pairing → exec (.pairRecord r) s = .next { sendTwin 2 0 0 s with twin := { (sendTwin 2 0 0 s).twin with
      state := .paired, peerGen := r.gen.toNat, pairGen := (Nat.max w.pairGen r.gen.toNat + 1) % 2 ^ 32, missRun := 0, seen := false } }) ∧
    (∀ r, recSound s r = false ∨ w.state ≠ .pairing → exec (.pairRecord r) s = .next { s with twin := { w with discarded := w.discarded + 1 } }) ∧
    (∀ r i, recValid s r = false ∨ (w.state ≠ .paired ∧ w.state ≠ .lost ∧ w.state ≠ .pairing) → i ∈ [Instr.heartbeat r, .detachRecord r, .confirm r,
      .commit r, .abort r, .refetch r, .fillDone r] → exec i s = .next { s with twin := { w with discarded := w.discarded + 1 } }) ∧
    (w.state = .paired ∨ w.state = .lost → s.bist.phase < 3 → exec .heartbeatSend s = .next (sendTwin 1 0 0 s)) ∧
    (w.state ≠ .paired → w.state ≠ .lost → exec .heartbeatSend s = .next s) ∧
    (∀ r, recValid s r = true → w.state = .paired ∨ w.state = .lost →
      exec (.heartbeat r) s = .next { s with twin := { w with received := w.received + 1, missRun := 0, seen := true } }) ∧
    (w.state ≠ .paired → ∀ tie, exec (.heartbeatInterval tie) s = .next s) ∧
    (w.state = .paired →
      (∀ tie, w.seen = true → exec (.heartbeatInterval tie) s = .next { s with twin := { w with seen := false, missRun := 0 } }) ∧
      (∀ tie, w.seen = false → w.missRun < 2 →
        exec (.heartbeatInterval tie) s = .next { s with twin := { w with misses := w.misses + 1, missRun := w.missRun + 1 } }) ∧
      (w.seen = false → 2 ≤ w.missRun →
        exec (.heartbeatInterval true) s = .next { s with twin := { w with ties := w.ties + 1, missRun := 0 } } ∧
        ∃ t, exec (.heartbeatInterval false) s = .next t ∧ t.twin.state = .lost ∧ t.twin.misses = w.misses + 1 ∧ t.twin.missRun = 0 ∧
          mirroringOver t ∧
          ∀ p, (partOfIx s p).role = .standby → (partOfIx s p).state ≠ .free → (partOfIx s p).quenching = none →
            (partOfIx t p).quenching = some (0x0603, false) ∧ (partOfIx t p).quenchEvent = 0x0603 ∧
            (partOfIx t p).quenchCount = (partOfIx s p).quenchCount + 1)) ∧
    ((∀ r, HostWrites s r 0x3040 6 (leBytes 1 2) →
        (w.state = .unpaired → exec (.detach r) s = .next (answered r 7 s)) ∧
        (w.state ≠ .unpaired → ∃ u, exec (.detach r) s = .next (answered r 0 u) ∧ gone u ∧
          ∀ x, w.state ≠ .lost → TwinSends s x → ∃ v y, Output.twinRecord v y ∈ u.out ∧ OnPort v x 2 ∧ y.rtype = 8)) ∧
      (∀ r, recValid s r = true → w.state = .paired ∨ w.state = .pairing → ∃ t, exec (.detachRecord r) s = .next t ∧ gone t)) ∧
    ∀ r (p : PartIx), HostWrites s r 0x3040 8 (leBytes 1 p.val) →
      (w.state = .lost → (partOfIx s p).role = .standby → (partOfIx s p).quenching = none → ∃ u, exec (.promote r) s = .next (answered r 0 u) ∧
        partOfIx u p = { partOfIx s p with role := .active } ∧ (∀ k, k ≠ p → partOfIx u k = partOfIx s k) ∧ Frame [.parts] s u) ∧
      (w.state ≠ .lost ∨ (partOfIx s p).role ≠ .standby ∨ (partOfIx s p).quenching ≠ none → exec (.promote r) s = .next (answered r 7 s))

/-- Mirrored key sets, refetches and fills between twins (R100, R101, R103, R104, R407). What a fill and a refetch send is the model's choice (log
63). -/
def Obligations.TwinMirroring : Prop :=
  ∀ (s : State), s.twin.state = .paired →
    let commits (p : PartIx) (im : Import) (mirrored : Bool) (u : State) : Prop :=
      ksOf u p im.slot = setOf (ksOf s p im.slot) im.plain im.homeMask im.placed mirrored ∧ (∀ i ∈ (partOfIx u p).imports, i.slot ≠ im.slot) ∧
      some (partOfIx u p).chains = regChain (bytesAt im.plain 0x80 128) (partOfIx s p).chains
    (∀ (r : TwinRec) (im : Import) (b : List Byte) (h : Hold), recValid s r = true →
      (partOfIx s r.part).imports.find? (fun m => m.confirm && m.tag == r.tag.toNat) = some im → holdPacket s im.die im.queue = some (h, b) →
      (regChain (bytesAt im.plain 0x80 128) (partOfIx s r.part).chains).isSome = true →
      (∃ u, let v := releaseQueue im.die im.queue u
        exec (.confirm r) s = .next (if (ksOf v r.part im.slot).state = .resident then sendTwin 4 r.part r.tag.toNat v else v) ∧ commits r.part im true u ∧
        (RecordReady s im.die im.queue r.part → Completed im.die im.queue r.part s u b false 0 0) ∧ Frame (.parts :: recordAreas) s u) ∧
      ∃ u, exec (.abort r) s = .next (releaseQueue im.die im.queue u) ∧ commits r.part im false u ∧ Frame (.parts :: recordAreas) s u) ∧
    (∀ (r : TwinRec), recValid s r = true → (∀ m ∈ (partOfIx s r.part).imports, m.confirm = true → m.tag ≠ r.tag.toNat) →
      let p := r.part
      let tag := r.tag.toNat
      let without (slot : Nat) : List (PartIx × List Nat) := s.twin.filling.map fun f => if f.1 = p then (p, f.2.filter (· != slot)) else f
      (∀ slot k l, findTag s p tag = some (slot, k) → (p, l) ∈ s.twin.filling → slot ∈ l → ∃ u,
        exec (.confirm r) s = .next (sendTwin 4 p tag u) ∧ ksOf u p slot = { ksOf s p slot with mirrored := true } ∧
        u.twin = { s.twin with filling := without slot } ∧ Frame [.parts, .twin] s u) ∧
      (∀ slot k, findTag s p tag = some (slot, k) → (p, slot) ∉ s.twin.refetches → ∃ t, exec (.abort r) s = .next t ∧
        t.twin.filling = without slot ∧ mirrorOf t p tag = none ∧ Frame [.twin] s t) ∧
      (∀ m cs, mirrorOf s p tag = some m → m.complete = true → m.placed ≠ [] → mirrorSlotOk s p m = true →
        regChain (bytesAt m.rows 0x80 128) (partOfIx s p).chains = some cs → ∃ t, exec (.commit r) s = .next t ∧
        ksOf t p m.slot = setOf (ksOf s p m.slot) m.rows m.homes m.placed true ∧ (partOfIx t p).chains = cs ∧ mirrorOf t p tag = none ∧
        Frame [.parts, .twin] s t) ∧
      (mirrorOf s p tag = none → exec (.commit r) s = .next s) ∧
      (findTag s p tag = none → ∃ t, exec (.abort r) s = .next t ∧ mirrorOf t p tag = none ∧ Frame [.twin] s t) ∧
      (∀ slot k, findTag s p tag = some (slot, k) → (p, slot) ∈ s.twin.refetches → (ksOf s p slot).state = .refetching → ∃ t,
        exec (.abort r) s = .next t ∧ ksOf t p slot = { ksOf s p slot with state := .damaged } ∧ (p, slot) ∉ t.twin.refetches ∧
        Frame [.parts, .twin] s t) ∧
      (∀ slot k x, findTag s p tag = some (slot, k) → k.state = .resident → s.bist.phase = 0 → TwinSends s x → ∃ t v,
        exec (.refetch r) s = .next t ∧ OnPort v x 0 ∧ Frame [.out, .dies] s t ∧
        (∀ d, { dieOf t d with idle := 0 } = { dieOf s d with idle := 0 }) ∧
        t.out = s.out ++ [.mirrorRows v p (.keyRows slot (BitVec.ofNat 64 k.tag) k.homeMask 0 (bundleOf s k) true)]) ∧
      (findTag s p tag = none ∨ (∃ slot k, findTag s p tag = some (slot, k) ∧ k.state ≠ .resident) → s.bist.phase = 0 →
        exec (.refetch r) s = .next (sendTwin 5 p tag s)) ∧
      (s.bist.phase ≠ 0 → exec (.refetch r) s = .next s) ∧
      exec (.fillDone r) s = .next s) ∧
    (∀ (p : PartIx) (slot : Nat) (tag : W64) (homes : BitVec 16) (off : Nat) (rows : List Byte) (last : Bool),
      let old := if off = 0 then [] else match mirrorOf s p tag.toNat with | some m => bytesAt m.rows 0 off | none => bytesAt [] 0 off
      let i : Instr := .mirrorRows p (.keyRows slot tag homes off rows last)
      (s.twin.refetches.contains (p, slot) = true → (ksOf s p slot).tag = tag.toNat → ∃ t m, exec i s = .next t ∧
        mirrorOf t p tag.toNat = some m ∧ m.rows = old ++ rows ∧ (last = true → m.complete = true) ∧ Frame [.twin] s t) ∧
      (s.twin.refetches.contains (p, slot) = false → (partOfIx s p).role = .standby →
        (last = false → ∃ t m, exec i s = .next t ∧ mirrorOf t p tag.toNat = some m ∧ m.rows = old ++ rows ∧ Frame [.twin] s t) ∧
        (last = true → off = 0 → s.bist.phase = 0 → mirrorOf s p tag.toNat = none →
          let m : Mirror := { part := p, slot := slot, tag := tag.toNat, homes := homes, rows := rows, complete := false, placed := [] }
          let bad := bundleFails rows s.fuses.primes m.tag rows.length (partOfIx s p).chains true
          (∀ l, bad = none → placeHomes s homes rows (rows.length / 288) = some l → (∀ d ∈ homeDies homes, (dieOf s d).owner = some p) →
            mirrorSlotOk s p m = true → ∃ u, exec i s = .next (sendTwin 3 p tag.toNat u) ∧
              mirrorOf u p tag.toNat = some { m with complete := true, placed := l } ∧
              (∀ d, (dieOf u d).store = (dieOf (writeCopies l 0 rows s) d).store) ∧ Frame [.twin, .dies] s u) ∧
          (bad ≠ none ∨ placeHomes s homes rows (rows.length / 288) = none ∨ mirrorSlotOk s p m = false → ∃ u, exec i s = .next (sendTwin 5 p tag.toNat u) ∧ mirrorOf u p tag.toNat = none ∧
            Frame [.twin] s u)))) ∧
    (∀ (p : PartIx) (d : DieIx) (k base n : Nat) (poison : Option (BitVec 16)) (off : Nat) (bs : List Byte), (partOfIx s p).role = .standby →
      (dieOf s d).owner = some p → Rising (dieOf s d).storeHandles → Rising (partOfIx s p).keysets →
      ((s.twin.mirrors.filter (·.part == p)).map (·.tag)).Nodup → (∀ r ∈ keyRuns s d, runsMeet base n r.1 r.2 = false) → ∃ t,
        exec (.mirrorRows p (.storeRows d k base n poison off bs)) s = .next t ∧ storeOf t d k = { StoreHandle.zero with
          base := base, rows := n, valid := true, poisoned := poison.isSome, poisonEvent := poison.getD 0 } ∧
        (dieOf t d).store = memPut (dieOf s d).store (base * 288 + off) bs ∧ (∀ e, e ≠ k → storeOf t d e =
          if (storeOf s d e).valid && runsMeet base n (storeOf s d e).base (storeOf s d e).rows then StoreHandle.zero else storeOf s d e) ∧
        OtherDies d s t ∧
        Frame [.dies] s t) ∧
    (∀ (p : PartIx) (slot : Nat), (p, slot) ∈ s.twin.refetches →
      ((ksOf s p slot).state = .refetching → ∃ t, exec (.refetchComplete p slot false) s = .next t ∧
        ksOf t p slot = { ksOf s p slot with state := .damaged } ∧ (p, slot) ∉ t.twin.refetches ∧ Frame [.parts, .twin] s t) ∧
      ∀ m v, mirrorOf s p (ksOf s p slot).tag = some m → m.complete = true → replaceKeys p slot m.rows s = some v → ∃ t,
        exec (.refetchComplete p slot true) s = .next t ∧ ksOf t p slot = { ksOf v p slot with state := .resident, failing := [] } ∧
        (∀ d, dieOf t d = dieOf v d) ∧ (p, slot) ∉ t.twin.refetches ∧ Frame [.parts, .twin, .dies] s t) ∧
    (∀ (r : FpReq) (p : PartIx) (ds : BitVec 16) (x : PortIx), HostWrites s r 0x3040 7 (leBytes 1 p.val) → (partOfIx s p).role = .active → TwinSends s x →
      (∀ d : DieIx, ds.getLsbD d.val = decide ((dieOf s d).owner = some p)) →
      let ks := (partOfIx s p).keysets.filter (·.2.state == .resident)
      let hs := storesOf s p
      ∃ u v, exec (.fill r true ds) s = .next (answered r 0 u) ∧ OnPort v x 0 ∧ Frame [.twin, .out, .dies] s u ∧
        (∀ d, { dieOf u d with idle := 0 } = { dieOf s d with idle := 0 }) ∧
        u.out = s.out ++ hs.map (fun h => .mirrorRows v p (.storeRows h.1 h.2.1 h.2.2.base h.2.2.rows
          (if h.2.2.poisoned then some h.2.2.poisonEvent else none) 0 (storeBytes s h.1 h.2.1 0 (h.2.2.rows * 288)))) ++
          ks.map (fun e => .mirrorRows v p (.keyRows e.1 (BitVec.ofNat 64 e.2.tag) e.2.homeMask 0 (bundleOf s e.2) true)) ∧
        let total := (ks.map (·.2.totalRows)).sum + (hs.map (·.2.2.rows)).sum
        u.twin = { s.twin with filling := s.twin.filling.filter (·.1 != p) ++ [(p, ks.map (·.1))], fillCopied := s.twin.fillCopied + total,
                               fillTotal := s.twin.fillTotal + total }) ∧
    (∀ f, s.twin.filling.find? (fun f => f.2.isEmpty) = some f → exec .fillComplete s =
      .next (sendTwin 7 f.1 0 { s with twin := { s.twin with filling := s.twin.filling.erase f } })) ∧
    ((∀ f ∈ s.twin.filling, f.2 ≠ []) → exec .fillComplete s = .next s)

/-- Requests of the object dictionary (R481 to R491, R496): what each opcode is refused with, what DESCRIBE and READ answer, SEG_READ by sessions, and
the error register, which a read clears. The order of statuses is the model's reading (log 82). -/
def Obligations.DictionaryReads : Prop :=
  ∀ (s : State) (r : FpReq) (c : Cls), Served s r c → s.boot.fwState = 2 → s.alarm.device = false →
    let send (a : Ans) (u : State) : State := { u with out := u.out ++ [responseOf r a] }
    let value := readValue s c (whoOf s r.via r.member) r.index r.sub
    let ops := [(Instr.read r, 1), (.write r, 2), (.segRead r, 3), (.segWrite r, 4), (.describe r, 5)]
    (∀ i n, (i, n) ∈ ops → r.opcode = n →
      (objOf r.index r.sub = none → exec i s = .next (send (.only (if hasIndex r.index then 2 else 1)) s)) ∧
      ∀ o, objOf r.index r.sub = some o → n ≠ 5 →
        let writes : Prop := n = 2 ∨ n = 4
        let may := if writes then mayWrite c r.index r.sub else mayRead c r.index r.sub
        (may = false → exec i s = .next (send (.only 3) s)) ∧
        (may = true → (o.type = 11 ∧ n ≤ 2) ∨ (o.type ≠ 11 ∧ 3 ≤ n) ∨ (writes ∧ o.access ≤ 2) ∨ (¬writes ∧ o.access = 4) →
          exec i s = .next (send (.only 4) s))) ∧
    (∀ o, objOf r.index r.sub = some o →
      (r.opcode = 5 → exec (.describe r) s = .next (send (.ofData (leBytes 1 o.type ++ leBytes 1 o.access ++
        leBytes 1 (b2n (mayRead c r.index r.sub) + 2 * b2n (mayWrite c r.index r.sub)) ++ [0] ++ leBytes 4 o.len)) s)) ∧
      (mayRead c r.index r.sub = true → o.access ≠ 4 →
        (r.opcode = 1 → o.type ≠ 11 → exec (.read r) s = .next (send (.ofData value) (readEffect r.index r.sub
          (if r.index = 0x6001 then wakeDie (ixOf (r.sub - 1)) s else s)))) ∧
        (r.opcode = 3 → o.type = 11 →
          let part (v : List Byte) : Ans := { status := 0, total := v.length
                                              last := decide (r.offset + Nat.min r.length (Nat.min (v.length - r.offset) (segLimit r.via)) = v.length)
                                              data := bytesAt v r.offset (Nat.min r.length (Nat.min (v.length - r.offset) (segLimit r.via))) }
          let gives (v : List Byte) (u : State) : Prop := ∃ t, exec (.segRead r) s = .next (send (part v) t) ∧
            { t with dict := { t.dict with sessions := [] } } = { u with dict := { u.dict with sessions := [] } } ∧
            ((part v).last = true → fpSession t r = none) ∧ ((part v).last = false → fpSession t r = some ⟨r.via, r.index, r.sub, r.member, false, v, v.length, r.offset + (part v).data.length⟩)
          (r.offset = 0 → s.dict.sessions.length < 16 → gives value (readEffect r.index r.sub s)) ∧
          (∀ x, r.offset ≠ 0 → fpSession s r = some x → x.write = false → x.next = r.offset → gives x.value s) ∧
          (∀ x, r.offset ≠ 0 → fpSession s r = some x → x.write = true ∨ x.next ≠ r.offset → ∃ t, exec (.segRead r) s = .next (send (.only 9) t) ∧
            fpSession t r = none) ∧
          (r.offset ≠ 0 → fpSession s r = none → exec (.segRead r) s = .next (send (.only 9) s))))) ∧
    (r.opcode = 1 → r.index = 0x1001 → r.sub = 0 → mayRead c 0x1001 0 = true → exec (.errorRegisterRead r) s =
      .next (send (.ofData (leBytes 1 (2 * s.log.errBits.toNat))) { s with log := { s.log with errBits := 0 } }))

/-- Discards (R487): a message whose MSG_CHECK fails, whose reserved fields are not zero, whose FP_VERSION is not 1, whose RESPONSE bit is set or
whose STATUS is not zero is discarded and counted in counter 20, whatever it asks for, and no response is sent. A session with no request for 1 s
closes and is counted (R490). -/
def Obligations.DiscardsAndTimeouts : Prop :=
  ∀ (s : State) (r : FpReq),
    (awake s = true → carried s r.via = true →
      r.check ≠ crc32c (reqBytes r) ∨ r.reserved ≠ 0 ∨ r.version ≠ 1 ∨ r.response = true ∨ r.status ≠ 0 →
      let discarded (i : Instr) : Prop := ∃ t, exec i s = .next t ∧ t.out = s.out ∧ Frame [.counters] s t ∧
        tblGetD (dieOf t 0).counters 20 0 = tblGetD (dieOf s 0).counters 20 0 + 1
      (r.opcode < 2 ∨ 5 < r.opcode → discarded (.read r)) ∧ (r.opcode = 2 → discarded (.write r)) ∧ (r.opcode = 3 → discarded (.segRead r)) ∧
      (r.opcode = 4 → discarded (.segWrite r)) ∧ (r.opcode = 5 → discarded (.describe r)) ∧
      (r.opcode = 2 → r.index = 0x5010 → r.sub = 3 → discarded (.evictionRequest r))) ∧
    ∀ via i k m, (∃ x ∈ s.dict.sessions, x.via = via ∧ x.index = i ∧ x.sub = k ∧ x.member = m) → ∃ t, exec (.sessionTimeout via i k m) s = .next t ∧
      (∀ x, x ∈ t.dict.sessions ↔ x ∈ s.dict.sessions ∧ ¬(x.via = via ∧ x.index = i ∧ x.sub = k ∧ x.member = m)) ∧
      tblGetD (dieOf t 0).counters 21 0 = tblGetD (dieOf s 0).counters 21 0 + 1 ∧ Frame [.dict, .counters] s t

/-- Writes of the object dictionary (R90, R320, R339, R354, R359, R380, R468, R485, R486, R489): a width that is wrong and a value out of range change
nothing; a value that is taken is what the register then holds; a DOMAIN is committed whole by its last segment. Refusals of pending epochs and of
ranges that the tables give in words are the model's readings (log 84). -/
def Obligations.DictionaryWrites : Prop :=
  ∀ (s : State) (r : FpReq),
    (∀ i k bs o, HostWrites s r i k bs → objOf i k = some o → mayWrite .host i k = true → o.type ≠ 11 → 2 < o.access →
      bs.length ≠ o.len → exec (.write r) s = .next (answered r 6 s)) ∧
    (∀ v, HostWrites s r 0x2000 0 (leBytes 4 v) → v < 2 ^ 32 →
      let ok : Prop := staticReserve s.fuses.grade + 64 ≤ v ∧ v ≤ (hearthZero s.fuses.grade).sustained
      (ok → exec (.write r) s = .next (answered r 0 { s with hearth := { s.hearth with sustained := v } })) ∧ (¬ok → exec (.write r) s = .next (answered r 5 s))) ∧
    (∀ (p : PartIx) v, HostWrites s r 0x2010 (p.val + 1) (leBytes 4 v) → v < 2 ^ 32 →
      (v ≤ 10000000 → ∃ u, exec (.write r) s = .next (answered r 0 u) ∧ partOfIx u p = { partOfIx s p with tolerance := v } ∧
        (∀ k, k ≠ p → partOfIx u k = partOfIx s k) ∧ Frame [.parts] s u) ∧
      (10000000 < v → exec (.write r) s = .next (answered r 5 s))) ∧
    (∀ (n : PortIx) v, HostWrites s r 0x3010 (n.val + 1) (leBytes 4 v) → v < 2 ^ 32 →
      (dieActive s n = true → bitsOf v 3 5 = 0 → bitsOf v 21 11 = 0 → ∃ u, exec (.write r) s = .next (answered r 0 u) ∧ portOf u n = { portOf s n with
        enabled := bitOf v 2, weights := [bitsOf v 8 4, bitsOf v 12 4, bitsOf v 16 4] } ∧ (∀ k, k ≠ n → portOf u k = portOf s k) ∧ Frame [.ports] s u) ∧
      (dieActive s n = false ∨ bitsOf v 3 5 ≠ 0 ∨ bitsOf v 21 11 ≠ 0 → exec (.write r) s = .next (answered r 5 s))) ∧
    (∀ k v, 1 ≤ k → k ≤ 4 → HostWrites s r 0x6010 k (leBytes 1 v) → v < 256 →
      (v ≤ 31 → exec (.write r) s = .next (answered r 0 { s with dict := { s.dict with masks := s.dict.masks.set (k - 1) (BitVec.ofNat 5 v) } })) ∧
      (31 < v → exec (.write r) s = .next (answered r 5 s))) ∧
    (∀ tag, HostWrites s r 0x5010 3 (leBytes 8 tag) → tag < 2 ^ 64 →
      let p := dieBits s.dict.selector
      (findTag s p tag = none → exec (.evictionRequest r) s = .next (answered r 5 s)) ∧
      (∀ slot k, findTag s p tag = some (slot, k) → k.state = .importing ∨ k.state = .refetching → exec (.evictionRequest r) s = .next (answered r 7 s)) ∧
      (∀ slot k d o j, findTag s p tag = some (slot, k) → k.state ≠ .importing → k.state ≠ .refetching → (dieOf s d).owner = some p →
        o ∈ (dieOf s d).ops → keyStalled s o = true → slot ∈ o.keySlots → jobOf s o.job = some j → ∃ u,
        exec (.evictionRequest r) s = .next (answered r 0 u) ∧ ∀ y ∈ u.jobs, y.id ≠ j.id) ∧
      (∀ slot k, findTag s p tag = some (slot, k) → tblGet (partOfIx s p).keysets slot = some k → k.state = .resident ∨ k.state = .damaged →
        (∀ d, (dieOf s d).owner = some p → ∀ o ∈ (dieOf s d).ops, keyStalled s o = true → slot ∉ o.keySlots) → ∃ u,
        exec (.evictionRequest r) s = .next (answered r 0 u) ∧ Frame [.parts] s u ∧
        (slotBound s p slot = true → ksOf u p slot = { k with state := .evicting }) ∧
        (slotBound s p slot = false → ksOf u p slot = { KeySet.zero with lastReason := k.lastReason }))) ∧
    (Served s r .fm → s.boot.fwState = 2 → s.alarm.device = false →
      (∀ v, r.opcode = 2 → r.index = 0x3002 → v < 2 ^ 32 → r.data = leBytes 4 v →
        (s.fabric.retained.isSome = true → r.sub = 3 ∨ r.sub = 5 → exec (.pendingEpochWrite r) s = .next (answered r 7 s)) ∧
        (s.fabric.retained = none → r.sub = 3 →
          (v = s.fabric.epoch + 1 → exec (.pendingEpochWrite r) s = .next (answered r 0 { s with fabric := { s.fabric with pendEpoch := v } })) ∧
          (v ≠ s.fabric.epoch + 1 → exec (.pendingEpochWrite r) s = .next (answered r 5 s))) ∧
        (s.fabric.retained = none → r.sub = 5 →
          (s.hearth.boundaries + 2 ≤ v → exec (.pendingEpochWrite r) s = .next (answered r 0 { s with fabric := { s.fabric with switchAt := v } })) ∧
          (v < s.hearth.boundaries + 2 → exec (.pendingEpochWrite r) s = .next (answered r 5 s)))) ∧
      ∀ x, r.opcode = 4 → r.offset ≠ 0 → r.length ≤ segLimit r.via → fpSession s r = some x → x.write = true → x.next = r.offset →
        let v := x.value ++ r.data
        let closed (t u : State) : Prop := fpSession t r = none ∧ { t with dict := s.dict } = { u with dict := s.dict }
        let wrong : Prop := x.total < v.length ∨ (r.last = true ∧ v.length ≠ x.total)
        let partway : Prop := v.length ≤ x.total ∧ r.last = false
        let kept (t : State) : Prop := fpSession t r = some { x with value := v, next := v.length } ∧ { t with dict := s.dict } = s
        (r.index = 0x3020 → r.sub = 1 ∨ r.sub = 2 →
          (wrong → ∃ t, exec (.routingTableWrite r) s = .next (answered r 9 t) ∧ exec (.segWrite r) s = .next (answered r 9 t) ∧ closed t s) ∧
          (partway → ∃ t, exec (.routingTableWrite r) s = .next (answered r 0 t) ∧ exec (.segWrite r) s = .next (answered r 0 t) ∧ kept t)) ∧
        (v.length = x.total → r.last = true →
          (s.fabric.retained.isSome = true → r.index = 0x3020 → r.sub = 2 → ∃ t, exec (.routingTableWrite r) s = .next (answered r 7 t) ∧ closed t s) ∧
          (s.fabric.retained.isSome = true → r.index = 0x3002 → r.sub = 4 → ∃ t, exec (.pendingEpochWrite r) s = .next (answered r 7 t) ∧ closed t s) ∧
          (s.fabric.retained = none → r.index = 0x3020 → r.sub = 2 →
            (routesOk s v = true → ∃ t, exec (.routingTableWrite r) s = .next (answered r 0 t) ∧ closed t { s with fabric := { s.fabric with pendRoutes := routeTbl v } }) ∧
            (routesOk s v = false → ∃ t, exec (.routingTableWrite r) s = .next (answered r 5 t) ∧ closed t s)) ∧
          (r.index = 0x3020 → r.sub = 1 →
            (routesOk s v = true → deviceStopped s = true → ∃ t, exec (.routingTableWrite r) s = .next (answered r 0 t) ∧
              closed t { s with fabric := { s.fabric with routes := routeTbl v } }) ∧
            (routesOk s v = true → deviceStopped s = false → ∃ t, exec (.routingTableWrite r) s = .next (answered r 7 t) ∧ closed t s)) ∧
          (s.fabric.retained = none → r.index = 0x3002 → r.sub = 4 → v.length % 2 = 0 → ∃ t, exec (.pendingEpochWrite r) s = .next (answered r 0 t) ∧
            closed t { s with fabric := { s.fabric with pendMembers := u16sOf v } })))

/-- MCTP control and the SMBus alert (R468, R481, R482, R511). The response bytes are presumed from DSP0236 (log 87). -/
def Obligations.EndpointsAndAlerts : Prop :=
  ∀ (s : State) (via : Via), awake s = true → carried s via = true →
    let send (bs : List Byte) (u : State) : State := { u with out := u.out ++ [.mctp via bs] }
    (∀ port src direct origin, via = .fabric port src direct origin → ∀ e, exec (.setEndpointId via e) s = .next (send [0, 0x10, 0, 0] s)) ∧
    ((∀ port src direct origin, via ≠ .fabric port src direct origin) →
      (∀ e, e = 0 ∨ e = 0xFF → exec (.setEndpointId via e) s = .next (send [2, 0, 0, 0] s)) ∧
      ∀ e, e ≠ 0 → e ≠ 0xFF → ∃ u, exec (.setEndpointId via e) s = .next (send [0, 0, e, 0] u) ∧ eidOf u via = e ∧
        (∀ w, w ≠ via → eidOf u w = eidOf s w) ∧ Frame [.dict] s u) ∧
    exec (.getEndpointId via) s = .next (send [0, eidOf s via, 0, 0] s) ∧
    (∀ k : Byte, exec (.getMctpVersionSupport via k) s =
      .next (send (if k = 0xFF ∨ k = 0 ∨ k = 0x7E then [0, 1, 0xF1, 0xF3, 0xF1, 0] else [0x80]) s)) ∧
    exec (.getMessageTypeSupport via) s = .next (send [0, 1, 0x7E] s) ∧
    (∀ k : Byte, exec (.getVendorDefinedMessageSupport via k) s = .next (send (if k = 0 then
      [0, 0xFF, 0] ++ beBytes 2 (s.fuses.pciIds.getD 0 0) ++ beBytes 2 1 else [2]) s)) ∧
    (s.pins.smbAlert = true → exec .smbusAlertResponse s =
      .next { s with pins := { s.pins with smbAlert := false }, out := s.out ++ [.smbusAddress (0x60 + s.pins.strap)] }) ∧
    (s.pins.smbAlert = false → exec .smbusAlertResponse s = .next s)

/-- Partition commands (R250, R280, R285, R301, R397, R460, R463, R498): each is refused in the states that R498 does not allow, and otherwise begins
and ends at PARTITION_COMMAND_COMPLETE. CREATE clears the dies; STOP quenches; COLD_STOP and DESTROY release tables, key sets and secrets. Statuses in
the corner cases are the model's readings (log 85). -/
def Obligations.PartitionCommands : Prop :=
  ∀ (s : State) (p : PartIx),
    let t := partOfIx s p
    let sub := 0x21 + p.val
    let ready : Prop := s.boot.phase = .ready
    let awoken (u : State) : Prop := ∀ d, { dieOf u d with idle := 0 } = { dieOf s d with idle := 0 }
    let w := (ownedDies s p ++ namedDies t).foldl (fun s d => wakeDie d s) s
    let begun (c : PCmd) (u : State) : Prop := (partOfIx u p).state = .changing ∧ (partOfIx u p).command = some c
    let cold (u : State) : Prop := (partOfIx u p).chains = [] ∧ (partOfIx u p).sessions = [] ∧ (partOfIx u p).tempers = [] ∧
      (partOfIx u p).programs = [] ∧ (partOfIx u p).keysets = [] ∧ (partOfIx u p).importKey = none ∧
      ∀ d, (dieOf s d).owner = some p → (dieOf u d).handles = [] ∧ (dieOf u d).scratch = [] ∧ (dieOf u d).storeHandles = [] ∧ (dieOf u d).rings = [] ∧
        (dieOf u d).tiles = [] ∧ (dieOf u d).drbgOn = false
    (∀ r held, HostWrites s r 0x5000 sub (leBytes 1 1) → ready →
      (t.state ≠ .free → exec (.create r held) s = .next (answered r 7 w)) ∧
      (t.state = .free → namedDies t = [] ∨ sharesOk t.entry = false ∨ ownerOk s p = false → exec (.create r held) s = .next (answered r 5 w)) ∧
      (t.state = .free → namedDies t ≠ [] → (∀ d ∈ namedDies t, dieActive s d = true) → sharesOk t.entry = true → ownerOk s p = true →
        ((∃ d ∈ namedDies t, (dieOf s d).owner ≠ none) ∨ (t.memberSlot ≠ 0 ∧ held = true) → exec (.create r held) s = .next (answered r 7 w)) ∧
        ((∀ d ∈ namedDies t, (dieOf s d).owner = none) → t.memberSlot = 0 ∨ held = false → ∃ u,
          exec (.create r held) s = .next (answered r 0 (registerMember p u)) ∧
          (t.memberSlot = 0 → registerMember p u = u) ∧
          (t.memberSlot ≠ 0 → registerMember p u = sendMsg .mgmt ((namedDies t).headD 0) t.ownerPart 0 (fun v => .registration v (registrationOf s p)) u) ∧
          partOfIx u p = { t with state := .changing, command := some .create } ∧ (∀ k, k ≠ p → partOfIx u k = partOfIx s k) ∧
          (∀ d ∈ namedDies t, dieOf u d = assignDie p (dieOf w d)) ∧ (∀ d, d ∉ namedDies t → dieOf u d = dieOf w d) ∧
          Frame [.dies, .counters, .parts] s u))) ∧
    (∀ r, HostWrites s r 0x5000 sub (leBytes 1 2) → ready →
      (t.state ≠ .stopped → exec (.start r) s = .next (answered r 7 w)) ∧
      (t.state = .stopped → sharesOk t.entry = true → ownerOk s p = true → ∃ u, exec (.start r) s = .next (answered r 0 u) ∧
        partOfIx u p = { t with state := .changing, command := some .start } ∧ (∀ k, k ≠ p → partOfIx u k = partOfIx s k) ∧ awoken u ∧ Frame [.parts, .dies] s u)) ∧
    (∀ r, HostWrites s r 0x5000 sub (leBytes 1 3) → ready →
      (t.state ≠ .running → exec (.stop r) s = .next (answered r 7 w)) ∧
      (t.state = .running → ∃ u, exec (.stop r) s = .next (answered r 0 u) ∧ begun .stop u ∧ (∀ j ∈ u.jobs, j.part ≠ p) ∧
        (partOfIx u p).quenchCount = t.quenchCount + 1 ∧ (partOfIx u p).importKey = none ∧
        ∀ d q, (dieOf s d).owner = some p → (queueOf u d q).quenched = true)) ∧
    (∀ r, HostWrites s r 0x5000 sub (leBytes 1 4) → ready →
      (t.state = .free ∨ t.state = .changing → exec (.coldStop r) s = .next (answered r 7 w)) ∧
      (t.state = .stopped → ∃ u, exec (.coldStop r) s = .next (answered r 0 u) ∧ begun .coldStop u ∧ cold u ∧ (partOfIx u p).quenchCount = t.quenchCount) ∧
      (t.state = .running → ∃ u, exec (.coldStop r) s = .next (answered r 0 u) ∧ begun .coldStop u ∧ cold u ∧ (∀ j ∈ u.jobs, j.part ≠ p) ∧
        (partOfIx u p).quenchCount = t.quenchCount + 1)) ∧
    (∀ r, HostWrites s r 0x5000 sub (leBytes 1 5) → ready →
      (t.state ≠ .stopped → exec (.destroy r) s = .next (answered r 7 w)) ∧
      (t.state = .stopped → ∃ u, exec (.destroy r) s = .next (answered r 0 u) ∧ begun .destroy u ∧ cold u)) ∧
    (s.alarm.device = false → t.quenching = none →
      (t.command = none → exec (.partitionCommandComplete p) s = .next s) ∧
      (∀ c, t.command = some c → c = .create ∨ c = .stop ∨ c = .coldStop → ∃ u, exec (.partitionCommandComplete p) s = .next u ∧
        partOfIx u p = { t with state := .stopped, command := none } ∧ (∀ k, k ≠ p → partOfIx u k = partOfIx s k) ∧ Frame [.parts] s u) ∧
      (t.command = some .start → ∃ u, exec (.partitionCommandComplete p) s = .next (settleDies (ownedDies s p) u) ∧
        partOfIx u p = { t with state := .running, command := none } ∧ (∀ k, k ≠ p → partOfIx u k = partOfIx s k) ∧ Frame [.parts] s u) ∧
      (t.command = some .destroy → ∃ u, exec (.partitionCommandComplete p) s = .next u ∧
        partOfIx u p = { t with state := .free, command := none } ∧ (∀ d, (dieOf s d).owner = some p → (dieOf u d).owner = none) ∧
        (∀ d, (dieOf s d).owner ≠ some p → dieOf u d = dieOf s d) ∧ Frame [.parts, .dies] s u)) ∧
    (t.quenching ≠ none → exec (.partitionCommandComplete p) s = .next s) ∧
    (∀ r, HostWrites s r 0x6100 4 (leBytes 1 p.val) →
      (t.state = .free → exec (.quenchPartition r) s = .next (answered r 7 ((ownedDies s p).foldl (fun s d => wakeDie d s) s))) ∧
      (t.state ≠ .free → t.quenching = none → ∃ u, exec (.quenchPartition r) s = .next (answered r 0 u) ∧ (partOfIx u p).quenching = some (0, false) ∧
        (partOfIx u p).quenchCount = t.quenchCount + 1 ∧ (partOfIx u p).quenchEvent = 0 ∧ (∀ j ∈ u.jobs, j.part ≠ p))) ∧
    ∀ r, HostWrites s r 0x6100 5 (leBytes 1 p.val) → t.state ≠ .free → t.quenching = none → ∃ u, exec (.restartQueues r) s = .next (answered r 0 u) ∧
      (partOfIx u p).quenching = some (0, true) ∧ (partOfIx u p).quenchCount = t.quenchCount + 1 ∧ (∀ j ∈ u.jobs, j.part ≠ p)

/-- Rollback, attestation and benches (R397, R399, R400, R420, R423 to R427): the counter's bits are burned as far as the burn reaches; a request
waits for its report, which is signed in order with the import key committed first; a gateway takes registrations and sends members' writes.
Signatures are uninterpreted (log 10), drawn keys free (log 9), and a request replaces an earlier one (log 86). -/
def Obligations.AttestationAndBenches : Prop :=
  ∀ (s : State),
    (∀ r burned revoked v, HostWrites s r 0x4001 2 (leBytes 4 v) → v < 2 ^ 32 →
      let ok : Prop := v = s.boot.fwRollback ∧ rollbackCount s.fuses.rollback < v ∧ v ≤ 64
      (ok → exec (.rollbackAdvance r burned revoked) s = .next (answered r 0 { s with fuses := { s.fuses with
        rollback := s.fuses.rollback ||| (BitVec.ofNat 64 (2 ^ v - 1) &&& burned), revoked := s.fuses.revoked ||| (BitVec.ofNat 4 s.boot.revoke &&& revoked) } })) ∧
      (¬ok → exec (.rollbackAdvance r burned revoked) s = .next (answered r 5 s))) ∧
    (∀ r b, HostWrites s r 0x4020 1 b → b.length = 40 →
      let part := fieldAt b 0 1
      let w := whoOf s r.via r.member
      ((15 < part ∧ part ≠ 0xFF) ∨ 1 < fieldAt b 1 1 ∨ zeroRange b 2 8 = false → exec (.attestationRequest r) s = .next (answered r 5 s)) ∧
      (part ≤ 15 → fieldAt b 1 1 = 0 → zeroRange b 2 8 = true → exec (.attestationRequest r) s = .next (answered r 0 { s with sec := { s.sec with
        reports := (s.sec.reports.filter (·.who != w)) ++ [{ who := w, ready := false, bytes := [] }]
        signQueue := (s.sec.signQueue.filter (·.who != w)) ++ [{ who := w, part := part, newKey := none, nonce := bytesAt b 8 32 }] } })) ∧
      (part ≤ 15 → fieldAt b 1 1 = 1 → zeroRange b 2 8 = true → ∃ u k, exec (.attestationRequest r) s = .next (answered r 0 u) ∧ Frame [.sec, .free] s u ∧
        u.sec.signQueue = (s.sec.signQueue.filter (·.who != w)) ++ [{ who := w, part := part, newKey := some k, nonce := bytesAt b 8 32 }] ∧
        k.id ≠ 0 ∧ 1 ≤ k.d ∧ k.d < p384.order ∧ (k.x, k.y) = ecCoords (ecMul p384 k.d (some (p384.gx, p384.gy))))) ∧
    (∀ r rest sk, s.sec.signQueue = r :: rest → s.sec.identSk = some sk → ∃ t, exec .reportSigned s = .next t ∧ t.sec.signQueue = rest ∧
      t.sec.reportSeq = s.sec.reportSeq + 1 ∧ (partOfIx t (ixOf r.part)).importKey = (r.newKey.or (partOfIx s (ixOf r.part)).importKey) ∧
      (∀ x ∈ s.sec.reports, x.who = r.who → { x with ready := true, bytes := reportBody t r ++ bytesAt (Config.slhSign sk (reportBody t r)) 0 17088 } ∈ t.sec.reports) ∧
      (∀ x ∈ s.sec.reports, x.who ≠ r.who → x ∈ t.sec.reports) ∧ Frame [.parts, .sec] s t) ∧
    (∀ g : MemberReg,
      let answers (held : Bool) (u : State) : State := sendMsg .mgmt (hostDie g.port) g.part 0 (fun v => .registrationAnswer v g held) u
      ((∀ x ∈ (hostOf s g.port).slotsHeld, ¬(x.fn = g.fn ∧ x.slot = g.slot)) → ∃ u, exec (.memberRegistration g) s = .next (answers false u) ∧
        (hostOf u g.port).slotsHeld = (hostOf s g.port).slotsHeld ++ [g] ∧ Frame [.hosts] s u) ∧
      ((∃ x ∈ (hostOf s g.port).slotsHeld, x.fn = g.fn ∧ x.slot = g.slot) → exec (.memberRegistration g) s = .next (answers true s))) ∧
    ∀ w : FwdWrite,
      let h := w.reg.port
      (w.reg ∈ (hostOf s h).slotsHeld → s.alarm.device = false → (hostOf s h).linkUp = true →
        (w.kind = .data →
          let sent : Output := .hostWrite h w.reg.fn w.addr.toNat w.bytes ((hostOf s h).relaxed.contains w.reg.fn) ((hostOf s h).ats.contains w.reg.fn)
          ∃ u, exec (.forwardedHostWrite w) s = .next (sendMsg .bench (hostDie h) w.reg.part w.die (fun v => .forwardedAck v w.tag) u) ∧ sent ∈ u.out ∧
            ((hostOf s h).ats.contains w.reg.fn = false → u.out = s.out ++ [sent]) ∧ Frame [.hosts, .out] s u) ∧
        (w.kind = .completion none → ∃ t, exec (.forwardedHostWrite w) s = .next t ∧
          t.out = s.out ++ [.completion h w.reg.fn w.addr.toNat w.bytes] ∧ Frame [.hosts, .out] s t) ∧
        ∀ pages, w.kind = .pages pages → ∃ u, exec (.forwardedHostWrite w) s = .next (sendBench h u) ∧ Frame [.hosts] s u ∧
          (hostOf u h).benchWait = (hostOf s h).benchWait ++ [(w.reg, w.tag, pages)]) ∧
      (w.reg ∉ (hostOf s h).slotsHeld → exec (.forwardedHostWrite w) s = .next s)

/-- The shut-down test (R422, R438, R471 to R474, R518, R521): its phases in order, what each clears, what repair keeps and burns, and the record that
it seals. What clears, which repairs are burned and when SHUTDOWN is taken are the model's readings (logs 76, 79 and 80). -/
def Obligations.ShutDown : Prop :=
  ∀ (s : State),
    let b := s.bist
    (∀ r, HostWrites s r 0x7000 1 (leBytes 1 1) →
      (b.phase = 0 → s.boot.phase = .ready → exec (.shutdown r) s = .next (answered r 0 { s with bist := { b with phase := 1 } })) ∧
      (b.phase ≠ 0 ∨ s.boot.phase ≠ .ready → exec (.shutdown r) s = .next (answered r 7 s))) ∧
    (b.phase = 1 →
      (admittedJobs s = [] → ∃ t, exec .drainComplete s = .next t ∧ t.bist.phase = 2 ∧ t.bist.iv.length = 12 ∧ Frame [.bist, .free] s t) ∧
      (admittedJobs s ≠ [] → exec .drainComplete s = .next s) ∧
      ∃ t, exec .drainGraceExpiry s = .next t ∧ t.bist.phase = 2 ∧ (∀ j ∈ t.jobs, j.phase ≠ .admitted)) ∧
    (b.phase ≠ 1 → exec .drainComplete s = .next s ∧ exec .drainGraceExpiry s = .next s) ∧
    (b.phase = 2 → ∃ t, exec .clearComplete s = .next t ∧ t.bist.phase = 3 ∧ t.sec.state = .test ∧ t.sec.identSk = none ∧
      (∀ j ∈ t.jobs, (partOfIx s j.part).state = .free) ∧ (∀ n, (portOf t n).sendKey = none ∧ (portOf t n).recvKey = none) ∧
      (∀ p, (partOfIx s p).state ≠ .free → (partOfIx t p).importKey = none ∧ (partOfIx t p).quenchCount = (partOfIx s p).quenchCount + 1) ∧
      ∀ x ∈ t.bn.slots, x.2.isSecret = true → x.2.value = 0) ∧
    (b.phase ≠ 2 → exec .clearComplete s = .next s) ∧
    (b.phase = 3 → ∀ fs, ∃ t, exec (.scanComplete fs) s = .next t ∧ t.bist.phase = 4 ∧ t.bist.logicFail = !fs.isEmpty ∧
      (∀ e ∈ fs, entryOf e ∈ t.bist.results)) ∧
    (b.phase = 4 → s.alarm.device = false → ∀ fs, ∃ t, exec (.memoryComplete fs) s = .next t ∧ t.bist.phase = 5 ∧ (∀ e ∈ fs, entryOf e ∈ t.bist.results) ∧
      (∀ p, (partOfIx t p).keysets = []) ∧
      (∀ d, (dieOf t d).scratch = [] ∧ (dieOf t d).store = [] ∧ (dieOf t d).handles = [] ∧ (dieOf t d).storeHandles = []) ∧
      (s.boot.phase = .memoryTest → t.boot.phase = .repairTest ∧ t.sec = s.sec) ∧
      (s.boot.phase ≠ .memoryTest → t.sec.repairKey = some (repairKeyOf s) ∧ t.boot = s.boot)) ∧
    (b.phase = 5 → s.alarm.device = false → ∀ rs,
      let fixed := (rs.map entryOf).filter fun e => b.results.contains e
      let kept := b.results.filter fun e => !fixed.contains e
      ∃ t, exec (.repairComplete rs) s = .next t ∧ t.bist.results = kept ∧ (∀ e ∈ fixed, e ∈ t.bist.repairs) ∧
        (∀ d row, row ∈ (dieOf t d).heldOut ↔ (d.val, 1, row) ∈ kept) ∧ (∀ d row, row ∈ (dieOf t d).heldOutStore ↔ (d.val, 4, row) ∈ kept) ∧
        (s.boot.phase = .repairTest → t.bist.phase = 0 ∧ t.boot.phase = .retention ∧ t.fuses = s.fuses) ∧
        (s.boot.phase ≠ .repairTest → t.bist.phase = 6 ∧ t.sec.repairKey = none ∧ t.bist.exhausted = isExhausted kept ∧ t.boot = s.boot ∧
          (∀ e ∈ t.fuses.fusedRepairs, e ∈ s.fuses.fusedRepairs ∨ (e ∈ t.bist.repairs ∧ e ∈ b.prevRepairs)) ∧
          fieldAt t.bist.recordOut 0 2 = 0xC7F5 ∧ fieldAt t.bist.recordOut 0x14 4 = (b.recordSeq + 1) % 2 ^ 32))

/-- Every step leaves every memory of the part (scratchpads, stacks, cluster buffers, tiles, cache lines, queue windows, staging) in its canonical
form: addresses strictly rising, no entry that reads as an unlisted address does. -/
def Obligations.MemoryStaysCanonical : Prop :=
  ∀ s t : State, memsOk s → step s = .next t → memsOk t

/-- Every step keeps the operations in flight and the requests they await below the next identifier, so that an identifier names one operation (log
12). -/
def Obligations.IdentifiersStayFresh : Prop :=
  ∀ s t : State, idsFresh s → step s = .next t → idsFresh t

/-- No command is lost or added, and no command changes a fused value but the revoked key slots, the rollback counter and the burned repairs (R417,
R420, R473, R509): what a command leaves waiting is what it found. -/
def Obligations.CommandsKeepQueueAndFuses : Prop :=
  ∀ (s t : State) (i : Instr), exec i s = .next t → t.pending = s.pending ∧ fixedFuses t = fixedFuses s
end

