-- ==== Sys2Proof/Laws/Bytes.lean ====
section
/-! SUPPORT. Lengths and pieces of byte strings. -/

namespace Sys2Proof.Machine

@[simp] theorem leBytes_length (n v : Nat) : (leBytes n v).length = n := by
  induction n generalizing v with
  | zero => rfl
  | succ n ih => simp [leBytes, ih]

@[simp] theorem beBytes_length (n v : Nat) : (beBytes n v).length = n := by simp [beBytes]

@[simp] theorem bytesAt_length (b : List Byte) (o n : Nat) : (bytesAt b o n).length = n := by
  simp [bytesAt]

theorem leNat_leBytes (n v : Nat) : leNat (leBytes n v) = v % 256 ^ n := by
  induction n generalizing v with
  | zero => simp [leBytes, leNat, Nat.mod_one]
  | succ n ih =>
    have h : (BitVec.ofNat 8 v).toNat = v % 256 := BitVec.toNat_ofNat v 8
    simp only [leBytes, leNat, ih, h]
    rw [Nat.pow_succ', Nat.mod_mul]

theorem leBytes_leNat (b : List Byte) : leBytes b.length (leNat b) = b := by
  induction b with
  | nil => rfl
  | cons x b ih =>
    have h : (leNat (x :: b)) / 256 = leNat b := by simp only [leNat]; have := x.isLt; omega
    have g : BitVec.ofNat 8 (leNat (x :: b)) = x := by
      apply BitVec.eq_of_toNat_eq
      simp only [leNat, BitVec.toNat_ofNat]; have := x.isLt; omega
    simp only [List.length_cons, leBytes, h, g, ih]

theorem bytesAt_left {h : List Byte} (t : List Byte) {o n : Nat} (hn : o + n ≤ h.length) : bytesAt (h ++ t) o n = bytesAt h o n := by
  simp only [bytesAt]
  rw [List.drop_append_of_le_length (by omega), List.take_append_of_le_length (by simp; omega)]

theorem bytesAt_right (h t : List Byte) : bytesAt (h ++ t) h.length t.length = t := by simp [bytesAt]

theorem bytesAt_all (b : List Byte) : bytesAt b 0 b.length = b := by simp [bytesAt]

theorem fieldAt_left {h : List Byte} (t : List Byte) {o n : Nat} (hn : o + n ≤ h.length) : fieldAt (h ++ t) o n = fieldAt h o n := by
  simp only [fieldAt, bytesAt_left t hn]

end Sys2Proof.Machine
end

