-- ==== Sys2Proof/Laws/State.lean ====
section
/-! SUPPORT. What the accessors and named updates of the state leave as it was: one lemma per field per update, and what an update does to
the piece that it changes. -/

namespace Sys2Proof.Machine

section
variable (d : DieIx) (f : Die → Die) (s : State)
@[simp] theorem updDie_fuses : (updDie d f s).fuses = s.fuses := rfl
@[simp] theorem updDie_pins : (updDie d f s).pins = s.pins := rfl
@[simp] theorem updDie_alarm : (updDie d f s).alarm = s.alarm := rfl
@[simp] theorem updDie_boot : (updDie d f s).boot = s.boot := rfl
@[simp] theorem updDie_sec : (updDie d f s).sec = s.sec := rfl
@[simp] theorem updDie_log : (updDie d f s).log = s.log := rfl
@[simp] theorem updDie_dict : (updDie d f s).dict = s.dict := rfl
@[simp] theorem updDie_parts : (updDie d f s).parts = s.parts := rfl
@[simp] theorem updDie_jobs : (updDie d f s).jobs = s.jobs := rfl
@[simp] theorem updDie_hearth : (updDie d f s).hearth = s.hearth := rfl
@[simp] theorem updDie_fabric : (updDie d f s).fabric = s.fabric := rfl
@[simp] theorem updDie_ports : (updDie d f s).ports = s.ports := rfl
@[simp] theorem updDie_hostA : (updDie d f s).hostA = s.hostA := rfl
@[simp] theorem updDie_hostB : (updDie d f s).hostB = s.hostB := rfl
@[simp] theorem updDie_twin : (updDie d f s).twin = s.twin := rfl
@[simp] theorem updDie_bn : (updDie d f s).bn = s.bn := rfl
@[simp] theorem updDie_bist : (updDie d f s).bist = s.bist := rfl
@[simp] theorem updDie_out : (updDie d f s).out = s.out := rfl
@[simp] theorem updDie_held : (updDie d f s).held = s.held := rfl
@[simp] theorem updDie_reissue : (updDie d f s).reissue = s.reissue := rfl
@[simp] theorem updDie_free : (updDie d f s).free = s.free := rfl
@[simp] theorem updDie_nextId : (updDie d f s).nextId = s.nextId := rfl
@[simp] theorem updDie_pending : (updDie d f s).pending = s.pending := rfl
@[simp] theorem updDie_partOfIx (x : PartIx) : partOfIx (updDie d f s) x = partOfIx s x := rfl
@[simp] theorem updDie_portOf (x : PortIx) : portOf (updDie d f s) x = portOf s x := rfl
@[simp] theorem updDie_hostOf (x : HostId) : hostOf (updDie d f s) x = hostOf s x := by cases x <;> rfl
@[simp] theorem updDie_jobOf (x : Nat) : jobOf (updDie d f s) x = jobOf s x := rfl
end

section
variable (p : PartIx) (f : Partition → Partition) (s : State)
@[simp] theorem updPart_fuses : (updPart p f s).fuses = s.fuses := rfl
@[simp] theorem updPart_pins : (updPart p f s).pins = s.pins := rfl
@[simp] theorem updPart_alarm : (updPart p f s).alarm = s.alarm := rfl
@[simp] theorem updPart_boot : (updPart p f s).boot = s.boot := rfl
@[simp] theorem updPart_sec : (updPart p f s).sec = s.sec := rfl
@[simp] theorem updPart_log : (updPart p f s).log = s.log := rfl
@[simp] theorem updPart_dict : (updPart p f s).dict = s.dict := rfl
@[simp] theorem updPart_dies : (updPart p f s).dies = s.dies := rfl
@[simp] theorem updPart_jobs : (updPart p f s).jobs = s.jobs := rfl
@[simp] theorem updPart_hearth : (updPart p f s).hearth = s.hearth := rfl
@[simp] theorem updPart_fabric : (updPart p f s).fabric = s.fabric := rfl
@[simp] theorem updPart_ports : (updPart p f s).ports = s.ports := rfl
@[simp] theorem updPart_hostA : (updPart p f s).hostA = s.hostA := rfl
@[simp] theorem updPart_hostB : (updPart p f s).hostB = s.hostB := rfl
@[simp] theorem updPart_twin : (updPart p f s).twin = s.twin := rfl
@[simp] theorem updPart_bn : (updPart p f s).bn = s.bn := rfl
@[simp] theorem updPart_bist : (updPart p f s).bist = s.bist := rfl
@[simp] theorem updPart_out : (updPart p f s).out = s.out := rfl
@[simp] theorem updPart_held : (updPart p f s).held = s.held := rfl
@[simp] theorem updPart_reissue : (updPart p f s).reissue = s.reissue := rfl
@[simp] theorem updPart_free : (updPart p f s).free = s.free := rfl
@[simp] theorem updPart_nextId : (updPart p f s).nextId = s.nextId := rfl
@[simp] theorem updPart_pending : (updPart p f s).pending = s.pending := rfl
@[simp] theorem updPart_dieOf (x : DieIx) : dieOf (updPart p f s) x = dieOf s x := rfl
@[simp] theorem updPart_queueOf (x : DieIx) (y : QueueIx) : queueOf (updPart p f s) x y = queueOf s x y := rfl
@[simp] theorem updPart_portOf (x : PortIx) : portOf (updPart p f s) x = portOf s x := rfl
@[simp] theorem updPart_hostOf (x : HostId) : hostOf (updPart p f s) x = hostOf s x := by cases x <;> rfl
@[simp] theorem updPart_jobOf (x : Nat) : jobOf (updPart p f s) x = jobOf s x := rfl
end

section
variable (n : PortIx) (f : Port → Port) (s : State)
@[simp] theorem updPort_fuses : (updPort n f s).fuses = s.fuses := rfl
@[simp] theorem updPort_pins : (updPort n f s).pins = s.pins := rfl
@[simp] theorem updPort_alarm : (updPort n f s).alarm = s.alarm := rfl
@[simp] theorem updPort_boot : (updPort n f s).boot = s.boot := rfl
@[simp] theorem updPort_sec : (updPort n f s).sec = s.sec := rfl
@[simp] theorem updPort_log : (updPort n f s).log = s.log := rfl
@[simp] theorem updPort_dict : (updPort n f s).dict = s.dict := rfl
@[simp] theorem updPort_parts : (updPort n f s).parts = s.parts := rfl
@[simp] theorem updPort_dies : (updPort n f s).dies = s.dies := rfl
@[simp] theorem updPort_jobs : (updPort n f s).jobs = s.jobs := rfl
@[simp] theorem updPort_hearth : (updPort n f s).hearth = s.hearth := rfl
@[simp] theorem updPort_fabric : (updPort n f s).fabric = s.fabric := rfl
@[simp] theorem updPort_hostA : (updPort n f s).hostA = s.hostA := rfl
@[simp] theorem updPort_hostB : (updPort n f s).hostB = s.hostB := rfl
@[simp] theorem updPort_twin : (updPort n f s).twin = s.twin := rfl
@[simp] theorem updPort_bn : (updPort n f s).bn = s.bn := rfl
@[simp] theorem updPort_bist : (updPort n f s).bist = s.bist := rfl
@[simp] theorem updPort_out : (updPort n f s).out = s.out := rfl
@[simp] theorem updPort_held : (updPort n f s).held = s.held := rfl
@[simp] theorem updPort_reissue : (updPort n f s).reissue = s.reissue := rfl
@[simp] theorem updPort_free : (updPort n f s).free = s.free := rfl
@[simp] theorem updPort_nextId : (updPort n f s).nextId = s.nextId := rfl
@[simp] theorem updPort_pending : (updPort n f s).pending = s.pending := rfl
@[simp] theorem updPort_dieOf (x : DieIx) : dieOf (updPort n f s) x = dieOf s x := rfl
@[simp] theorem updPort_queueOf (x : DieIx) (y : QueueIx) : queueOf (updPort n f s) x y = queueOf s x y := rfl
@[simp] theorem updPort_partOfIx (x : PartIx) : partOfIx (updPort n f s) x = partOfIx s x := rfl
@[simp] theorem updPort_hostOf (x : HostId) : hostOf (updPort n f s) x = hostOf s x := by cases x <;> rfl
@[simp] theorem updPort_jobOf (x : Nat) : jobOf (updPort n f s) x = jobOf s x := rfl
end

section
variable (d : DieIx) (q : QueueIx) (f : Queue → Queue) (s : State)
@[simp] theorem updQueue_fuses : (updQueue d q f s).fuses = s.fuses := rfl
@[simp] theorem updQueue_pins : (updQueue d q f s).pins = s.pins := rfl
@[simp] theorem updQueue_alarm : (updQueue d q f s).alarm = s.alarm := rfl
@[simp] theorem updQueue_boot : (updQueue d q f s).boot = s.boot := rfl
@[simp] theorem updQueue_sec : (updQueue d q f s).sec = s.sec := rfl
@[simp] theorem updQueue_log : (updQueue d q f s).log = s.log := rfl
@[simp] theorem updQueue_dict : (updQueue d q f s).dict = s.dict := rfl
@[simp] theorem updQueue_parts : (updQueue d q f s).parts = s.parts := rfl
@[simp] theorem updQueue_jobs : (updQueue d q f s).jobs = s.jobs := rfl
@[simp] theorem updQueue_hearth : (updQueue d q f s).hearth = s.hearth := rfl
@[simp] theorem updQueue_fabric : (updQueue d q f s).fabric = s.fabric := rfl
@[simp] theorem updQueue_ports : (updQueue d q f s).ports = s.ports := rfl
@[simp] theorem updQueue_hostA : (updQueue d q f s).hostA = s.hostA := rfl
@[simp] theorem updQueue_hostB : (updQueue d q f s).hostB = s.hostB := rfl
@[simp] theorem updQueue_twin : (updQueue d q f s).twin = s.twin := rfl
@[simp] theorem updQueue_bn : (updQueue d q f s).bn = s.bn := rfl
@[simp] theorem updQueue_bist : (updQueue d q f s).bist = s.bist := rfl
@[simp] theorem updQueue_out : (updQueue d q f s).out = s.out := rfl
@[simp] theorem updQueue_held : (updQueue d q f s).held = s.held := rfl
@[simp] theorem updQueue_reissue : (updQueue d q f s).reissue = s.reissue := rfl
@[simp] theorem updQueue_free : (updQueue d q f s).free = s.free := rfl
@[simp] theorem updQueue_nextId : (updQueue d q f s).nextId = s.nextId := rfl
@[simp] theorem updQueue_pending : (updQueue d q f s).pending = s.pending := rfl
@[simp] theorem updQueue_partOfIx (x : PartIx) : partOfIx (updQueue d q f s) x = partOfIx s x := rfl
@[simp] theorem updQueue_portOf (x : PortIx) : portOf (updQueue d q f s) x = portOf s x := rfl
@[simp] theorem updQueue_hostOf (x : HostId) : hostOf (updQueue d q f s) x = hostOf s x := by cases x <;> rfl
@[simp] theorem updQueue_jobOf (x : Nat) : jobOf (updQueue d q f s) x = jobOf s x := rfl
end

section
variable (h : HostId) (f : HostPort → HostPort) (s : State)
@[simp] theorem updHost_fuses : (updHost h f s).fuses = s.fuses := by cases h <;> rfl
@[simp] theorem updHost_pins : (updHost h f s).pins = s.pins := by cases h <;> rfl
@[simp] theorem updHost_alarm : (updHost h f s).alarm = s.alarm := by cases h <;> rfl
@[simp] theorem updHost_boot : (updHost h f s).boot = s.boot := by cases h <;> rfl
@[simp] theorem updHost_sec : (updHost h f s).sec = s.sec := by cases h <;> rfl
@[simp] theorem updHost_log : (updHost h f s).log = s.log := by cases h <;> rfl
@[simp] theorem updHost_dict : (updHost h f s).dict = s.dict := by cases h <;> rfl
@[simp] theorem updHost_parts : (updHost h f s).parts = s.parts := by cases h <;> rfl
@[simp] theorem updHost_dies : (updHost h f s).dies = s.dies := by cases h <;> rfl
@[simp] theorem updHost_jobs : (updHost h f s).jobs = s.jobs := by cases h <;> rfl
@[simp] theorem updHost_hearth : (updHost h f s).hearth = s.hearth := by cases h <;> rfl
@[simp] theorem updHost_fabric : (updHost h f s).fabric = s.fabric := by cases h <;> rfl
@[simp] theorem updHost_ports : (updHost h f s).ports = s.ports := by cases h <;> rfl
@[simp] theorem updHost_twin : (updHost h f s).twin = s.twin := by cases h <;> rfl
@[simp] theorem updHost_bn : (updHost h f s).bn = s.bn := by cases h <;> rfl
@[simp] theorem updHost_bist : (updHost h f s).bist = s.bist := by cases h <;> rfl
@[simp] theorem updHost_out : (updHost h f s).out = s.out := by cases h <;> rfl
@[simp] theorem updHost_held : (updHost h f s).held = s.held := by cases h <;> rfl
@[simp] theorem updHost_reissue : (updHost h f s).reissue = s.reissue := by cases h <;> rfl
@[simp] theorem updHost_free : (updHost h f s).free = s.free := by cases h <;> rfl
@[simp] theorem updHost_nextId : (updHost h f s).nextId = s.nextId := by cases h <;> rfl
@[simp] theorem updHost_pending : (updHost h f s).pending = s.pending := by cases h <;> rfl
@[simp] theorem updHost_dieOf (x : DieIx) : dieOf (updHost h f s) x = dieOf s x := by cases h <;> rfl
@[simp] theorem updHost_queueOf (x : DieIx) (y : QueueIx) : queueOf (updHost h f s) x y = queueOf s x y := by cases h <;> rfl
@[simp] theorem updHost_partOfIx (x : PartIx) : partOfIx (updHost h f s) x = partOfIx s x := by cases h <;> rfl
@[simp] theorem updHost_portOf (x : PortIx) : portOf (updHost h f s) x = portOf s x := by cases h <;> rfl
@[simp] theorem updHost_jobOf (x : Nat) : jobOf (updHost h f s) x = jobOf s x := by cases h <;> rfl
end

section
variable (i : Nat) (f : Job → Job) (s : State)
@[simp] theorem updJob_fuses : (updJob i f s).fuses = s.fuses := rfl
@[simp] theorem updJob_pins : (updJob i f s).pins = s.pins := rfl
@[simp] theorem updJob_alarm : (updJob i f s).alarm = s.alarm := rfl
@[simp] theorem updJob_boot : (updJob i f s).boot = s.boot := rfl
@[simp] theorem updJob_sec : (updJob i f s).sec = s.sec := rfl
@[simp] theorem updJob_log : (updJob i f s).log = s.log := rfl
@[simp] theorem updJob_dict : (updJob i f s).dict = s.dict := rfl
@[simp] theorem updJob_parts : (updJob i f s).parts = s.parts := rfl
@[simp] theorem updJob_dies : (updJob i f s).dies = s.dies := rfl
@[simp] theorem updJob_hearth : (updJob i f s).hearth = s.hearth := rfl
@[simp] theorem updJob_fabric : (updJob i f s).fabric = s.fabric := rfl
@[simp] theorem updJob_ports : (updJob i f s).ports = s.ports := rfl
@[simp] theorem updJob_hostA : (updJob i f s).hostA = s.hostA := rfl
@[simp] theorem updJob_hostB : (updJob i f s).hostB = s.hostB := rfl
@[simp] theorem updJob_twin : (updJob i f s).twin = s.twin := rfl
@[simp] theorem updJob_bn : (updJob i f s).bn = s.bn := rfl
@[simp] theorem updJob_bist : (updJob i f s).bist = s.bist := rfl
@[simp] theorem updJob_out : (updJob i f s).out = s.out := rfl
@[simp] theorem updJob_held : (updJob i f s).held = s.held := rfl
@[simp] theorem updJob_reissue : (updJob i f s).reissue = s.reissue := rfl
@[simp] theorem updJob_free : (updJob i f s).free = s.free := rfl
@[simp] theorem updJob_nextId : (updJob i f s).nextId = s.nextId := rfl
@[simp] theorem updJob_pending : (updJob i f s).pending = s.pending := rfl
@[simp] theorem updJob_dieOf (x : DieIx) : dieOf (updJob i f s) x = dieOf s x := rfl
@[simp] theorem updJob_queueOf (x : DieIx) (y : QueueIx) : queueOf (updJob i f s) x y = queueOf s x y := rfl
@[simp] theorem updJob_partOfIx (x : PartIx) : partOfIx (updJob i f s) x = partOfIx s x := rfl
@[simp] theorem updJob_portOf (x : PortIx) : portOf (updJob i f s) x = portOf s x := rfl
@[simp] theorem updJob_hostOf (x : HostId) : hostOf (updJob i f s) x = hostOf s x := by cases x <;> rfl
end

section
variable (o : Output) (s : State)
@[simp] theorem emit_fuses : (emit o s).fuses = s.fuses := rfl
@[simp] theorem emit_pins : (emit o s).pins = s.pins := rfl
@[simp] theorem emit_alarm : (emit o s).alarm = s.alarm := rfl
@[simp] theorem emit_boot : (emit o s).boot = s.boot := rfl
@[simp] theorem emit_sec : (emit o s).sec = s.sec := rfl
@[simp] theorem emit_log : (emit o s).log = s.log := rfl
@[simp] theorem emit_dict : (emit o s).dict = s.dict := rfl
@[simp] theorem emit_parts : (emit o s).parts = s.parts := rfl
@[simp] theorem emit_dies : (emit o s).dies = s.dies := rfl
@[simp] theorem emit_jobs : (emit o s).jobs = s.jobs := rfl
@[simp] theorem emit_hearth : (emit o s).hearth = s.hearth := rfl
@[simp] theorem emit_fabric : (emit o s).fabric = s.fabric := rfl
@[simp] theorem emit_ports : (emit o s).ports = s.ports := rfl
@[simp] theorem emit_hostA : (emit o s).hostA = s.hostA := rfl
@[simp] theorem emit_hostB : (emit o s).hostB = s.hostB := rfl
@[simp] theorem emit_twin : (emit o s).twin = s.twin := rfl
@[simp] theorem emit_bn : (emit o s).bn = s.bn := rfl
@[simp] theorem emit_bist : (emit o s).bist = s.bist := rfl
@[simp] theorem emit_held : (emit o s).held = s.held := rfl
@[simp] theorem emit_reissue : (emit o s).reissue = s.reissue := rfl
@[simp] theorem emit_free : (emit o s).free = s.free := rfl
@[simp] theorem emit_nextId : (emit o s).nextId = s.nextId := rfl
@[simp] theorem emit_pending : (emit o s).pending = s.pending := rfl
@[simp] theorem emit_dieOf (x : DieIx) : dieOf (emit o s) x = dieOf s x := rfl
@[simp] theorem emit_queueOf (x : DieIx) (y : QueueIx) : queueOf (emit o s) x y = queueOf s x y := rfl
@[simp] theorem emit_partOfIx (x : PartIx) : partOfIx (emit o s) x = partOfIx s x := rfl
@[simp] theorem emit_portOf (x : PortIx) : portOf (emit o s) x = portOf s x := rfl
@[simp] theorem emit_hostOf (x : HostId) : hostOf (emit o s) x = hostOf s x := by cases x <;> rfl
@[simp] theorem emit_jobOf (x : Nat) : jobOf (emit o s) x = jobOf s x := rfl
end

section
variable (d : DieIx) (i n : Nat) (s : State)
@[simp] theorem count_fuses : (count d i n s).fuses = s.fuses := rfl
@[simp] theorem count_pins : (count d i n s).pins = s.pins := rfl
@[simp] theorem count_alarm : (count d i n s).alarm = s.alarm := rfl
@[simp] theorem count_boot : (count d i n s).boot = s.boot := rfl
@[simp] theorem count_sec : (count d i n s).sec = s.sec := rfl
@[simp] theorem count_log : (count d i n s).log = s.log := rfl
@[simp] theorem count_dict : (count d i n s).dict = s.dict := rfl
@[simp] theorem count_parts : (count d i n s).parts = s.parts := rfl
@[simp] theorem count_jobs : (count d i n s).jobs = s.jobs := rfl
@[simp] theorem count_hearth : (count d i n s).hearth = s.hearth := rfl
@[simp] theorem count_fabric : (count d i n s).fabric = s.fabric := rfl
@[simp] theorem count_ports : (count d i n s).ports = s.ports := rfl
@[simp] theorem count_hostA : (count d i n s).hostA = s.hostA := rfl
@[simp] theorem count_hostB : (count d i n s).hostB = s.hostB := rfl
@[simp] theorem count_twin : (count d i n s).twin = s.twin := rfl
@[simp] theorem count_bn : (count d i n s).bn = s.bn := rfl
@[simp] theorem count_bist : (count d i n s).bist = s.bist := rfl
@[simp] theorem count_out : (count d i n s).out = s.out := rfl
@[simp] theorem count_held : (count d i n s).held = s.held := rfl
@[simp] theorem count_reissue : (count d i n s).reissue = s.reissue := rfl
@[simp] theorem count_free : (count d i n s).free = s.free := rfl
@[simp] theorem count_nextId : (count d i n s).nextId = s.nextId := rfl
@[simp] theorem count_pending : (count d i n s).pending = s.pending := rfl
@[simp] theorem count_partOfIx (x : PartIx) : partOfIx (count d i n s) x = partOfIx s x := rfl
@[simp] theorem count_portOf (x : PortIx) : portOf (count d i n s) x = portOf s x := rfl
@[simp] theorem count_hostOf (x : HostId) : hostOf (count d i n s) x = hostOf s x := by cases x <;> rfl
@[simp] theorem count_jobOf (x : Nat) : jobOf (count d i n s) x = jobOf s x := rfl
end

section
variable (d : DieIx) (h : Nat) (f : Handle → Handle) (s : State)
@[simp] theorem updHandle_fuses : (updHandle d h f s).fuses = s.fuses := rfl
@[simp] theorem updHandle_pins : (updHandle d h f s).pins = s.pins := rfl
@[simp] theorem updHandle_alarm : (updHandle d h f s).alarm = s.alarm := rfl
@[simp] theorem updHandle_boot : (updHandle d h f s).boot = s.boot := rfl
@[simp] theorem updHandle_sec : (updHandle d h f s).sec = s.sec := rfl
@[simp] theorem updHandle_log : (updHandle d h f s).log = s.log := rfl
@[simp] theorem updHandle_dict : (updHandle d h f s).dict = s.dict := rfl
@[simp] theorem updHandle_parts : (updHandle d h f s).parts = s.parts := rfl
@[simp] theorem updHandle_jobs : (updHandle d h f s).jobs = s.jobs := rfl
@[simp] theorem updHandle_hearth : (updHandle d h f s).hearth = s.hearth := rfl
@[simp] theorem updHandle_fabric : (updHandle d h f s).fabric = s.fabric := rfl
@[simp] theorem updHandle_ports : (updHandle d h f s).ports = s.ports := rfl
@[simp] theorem updHandle_hostA : (updHandle d h f s).hostA = s.hostA := rfl
@[simp] theorem updHandle_hostB : (updHandle d h f s).hostB = s.hostB := rfl
@[simp] theorem updHandle_twin : (updHandle d h f s).twin = s.twin := rfl
@[simp] theorem updHandle_bn : (updHandle d h f s).bn = s.bn := rfl
@[simp] theorem updHandle_bist : (updHandle d h f s).bist = s.bist := rfl
@[simp] theorem updHandle_out : (updHandle d h f s).out = s.out := rfl
@[simp] theorem updHandle_held : (updHandle d h f s).held = s.held := rfl
@[simp] theorem updHandle_reissue : (updHandle d h f s).reissue = s.reissue := rfl
@[simp] theorem updHandle_free : (updHandle d h f s).free = s.free := rfl
@[simp] theorem updHandle_nextId : (updHandle d h f s).nextId = s.nextId := rfl
@[simp] theorem updHandle_pending : (updHandle d h f s).pending = s.pending := rfl
@[simp] theorem updHandle_partOfIx (x : PartIx) : partOfIx (updHandle d h f s) x = partOfIx s x := rfl
@[simp] theorem updHandle_portOf (x : PortIx) : portOf (updHandle d h f s) x = portOf s x := rfl
@[simp] theorem updHandle_hostOf (x : HostId) : hostOf (updHandle d h f s) x = hostOf s x := by cases x <;> rfl
@[simp] theorem updHandle_jobOf (x : Nat) : jobOf (updHandle d h f s) x = jobOf s x := rfl
end

section
variable (d : DieIx) (h : Nat) (f : StoreHandle → StoreHandle) (s : State)
@[simp] theorem updStore_fuses : (updStore d h f s).fuses = s.fuses := rfl
@[simp] theorem updStore_pins : (updStore d h f s).pins = s.pins := rfl
@[simp] theorem updStore_alarm : (updStore d h f s).alarm = s.alarm := rfl
@[simp] theorem updStore_boot : (updStore d h f s).boot = s.boot := rfl
@[simp] theorem updStore_sec : (updStore d h f s).sec = s.sec := rfl
@[simp] theorem updStore_log : (updStore d h f s).log = s.log := rfl
@[simp] theorem updStore_dict : (updStore d h f s).dict = s.dict := rfl
@[simp] theorem updStore_parts : (updStore d h f s).parts = s.parts := rfl
@[simp] theorem updStore_jobs : (updStore d h f s).jobs = s.jobs := rfl
@[simp] theorem updStore_hearth : (updStore d h f s).hearth = s.hearth := rfl
@[simp] theorem updStore_fabric : (updStore d h f s).fabric = s.fabric := rfl
@[simp] theorem updStore_ports : (updStore d h f s).ports = s.ports := rfl
@[simp] theorem updStore_hostA : (updStore d h f s).hostA = s.hostA := rfl
@[simp] theorem updStore_hostB : (updStore d h f s).hostB = s.hostB := rfl
@[simp] theorem updStore_twin : (updStore d h f s).twin = s.twin := rfl
@[simp] theorem updStore_bn : (updStore d h f s).bn = s.bn := rfl
@[simp] theorem updStore_bist : (updStore d h f s).bist = s.bist := rfl
@[simp] theorem updStore_out : (updStore d h f s).out = s.out := rfl
@[simp] theorem updStore_held : (updStore d h f s).held = s.held := rfl
@[simp] theorem updStore_reissue : (updStore d h f s).reissue = s.reissue := rfl
@[simp] theorem updStore_free : (updStore d h f s).free = s.free := rfl
@[simp] theorem updStore_nextId : (updStore d h f s).nextId = s.nextId := rfl
@[simp] theorem updStore_pending : (updStore d h f s).pending = s.pending := rfl
@[simp] theorem updStore_partOfIx (x : PartIx) : partOfIx (updStore d h f s) x = partOfIx s x := rfl
@[simp] theorem updStore_portOf (x : PortIx) : portOf (updStore d h f s) x = portOf s x := rfl
@[simp] theorem updStore_hostOf (x : HostId) : hostOf (updStore d h f s) x = hostOf s x := by cases x <;> rfl
@[simp] theorem updStore_jobOf (x : Nat) : jobOf (updStore d h f s) x = jobOf s x := rfl
end

section
variable (d : DieIx) (r : Nat) (f : Ring → Ring) (s : State)
@[simp] theorem updRing_fuses : (updRing d r f s).fuses = s.fuses := rfl
@[simp] theorem updRing_pins : (updRing d r f s).pins = s.pins := rfl
@[simp] theorem updRing_alarm : (updRing d r f s).alarm = s.alarm := rfl
@[simp] theorem updRing_boot : (updRing d r f s).boot = s.boot := rfl
@[simp] theorem updRing_sec : (updRing d r f s).sec = s.sec := rfl
@[simp] theorem updRing_log : (updRing d r f s).log = s.log := rfl
@[simp] theorem updRing_dict : (updRing d r f s).dict = s.dict := rfl
@[simp] theorem updRing_parts : (updRing d r f s).parts = s.parts := rfl
@[simp] theorem updRing_jobs : (updRing d r f s).jobs = s.jobs := rfl
@[simp] theorem updRing_hearth : (updRing d r f s).hearth = s.hearth := rfl
@[simp] theorem updRing_fabric : (updRing d r f s).fabric = s.fabric := rfl
@[simp] theorem updRing_ports : (updRing d r f s).ports = s.ports := rfl
@[simp] theorem updRing_hostA : (updRing d r f s).hostA = s.hostA := rfl
@[simp] theorem updRing_hostB : (updRing d r f s).hostB = s.hostB := rfl
@[simp] theorem updRing_twin : (updRing d r f s).twin = s.twin := rfl
@[simp] theorem updRing_bn : (updRing d r f s).bn = s.bn := rfl
@[simp] theorem updRing_bist : (updRing d r f s).bist = s.bist := rfl
@[simp] theorem updRing_out : (updRing d r f s).out = s.out := rfl
@[simp] theorem updRing_held : (updRing d r f s).held = s.held := rfl
@[simp] theorem updRing_reissue : (updRing d r f s).reissue = s.reissue := rfl
@[simp] theorem updRing_free : (updRing d r f s).free = s.free := rfl
@[simp] theorem updRing_nextId : (updRing d r f s).nextId = s.nextId := rfl
@[simp] theorem updRing_pending : (updRing d r f s).pending = s.pending := rfl
@[simp] theorem updRing_partOfIx (x : PartIx) : partOfIx (updRing d r f s) x = partOfIx s x := rfl
@[simp] theorem updRing_portOf (x : PortIx) : portOf (updRing d r f s) x = portOf s x := rfl
@[simp] theorem updRing_hostOf (x : HostId) : hostOf (updRing d r f s) x = hostOf s x := by cases x <;> rfl
@[simp] theorem updRing_jobOf (x : Nat) : jobOf (updRing d r f s) x = jobOf s x := rfl
end

section
variable (d : DieIx) (h o : Nat) (bs : List Byte) (s : State)
@[simp] theorem putHandle_fuses : (putHandle d h o bs s).fuses = s.fuses := rfl
@[simp] theorem putHandle_pins : (putHandle d h o bs s).pins = s.pins := rfl
@[simp] theorem putHandle_alarm : (putHandle d h o bs s).alarm = s.alarm := rfl
@[simp] theorem putHandle_boot : (putHandle d h o bs s).boot = s.boot := rfl
@[simp] theorem putHandle_sec : (putHandle d h o bs s).sec = s.sec := rfl
@[simp] theorem putHandle_log : (putHandle d h o bs s).log = s.log := rfl
@[simp] theorem putHandle_dict : (putHandle d h o bs s).dict = s.dict := rfl
@[simp] theorem putHandle_parts : (putHandle d h o bs s).parts = s.parts := rfl
@[simp] theorem putHandle_jobs : (putHandle d h o bs s).jobs = s.jobs := rfl
@[simp] theorem putHandle_hearth : (putHandle d h o bs s).hearth = s.hearth := rfl
@[simp] theorem putHandle_fabric : (putHandle d h o bs s).fabric = s.fabric := rfl
@[simp] theorem putHandle_ports : (putHandle d h o bs s).ports = s.ports := rfl
@[simp] theorem putHandle_hostA : (putHandle d h o bs s).hostA = s.hostA := rfl
@[simp] theorem putHandle_hostB : (putHandle d h o bs s).hostB = s.hostB := rfl
@[simp] theorem putHandle_twin : (putHandle d h o bs s).twin = s.twin := rfl
@[simp] theorem putHandle_bn : (putHandle d h o bs s).bn = s.bn := rfl
@[simp] theorem putHandle_bist : (putHandle d h o bs s).bist = s.bist := rfl
@[simp] theorem putHandle_out : (putHandle d h o bs s).out = s.out := rfl
@[simp] theorem putHandle_held : (putHandle d h o bs s).held = s.held := rfl
@[simp] theorem putHandle_reissue : (putHandle d h o bs s).reissue = s.reissue := rfl
@[simp] theorem putHandle_free : (putHandle d h o bs s).free = s.free := rfl
@[simp] theorem putHandle_nextId : (putHandle d h o bs s).nextId = s.nextId := rfl
@[simp] theorem putHandle_pending : (putHandle d h o bs s).pending = s.pending := rfl
@[simp] theorem putHandle_partOfIx (x : PartIx) : partOfIx (putHandle d h o bs s) x = partOfIx s x := rfl
@[simp] theorem putHandle_portOf (x : PortIx) : portOf (putHandle d h o bs s) x = portOf s x := rfl
@[simp] theorem putHandle_hostOf (x : HostId) : hostOf (putHandle d h o bs s) x = hostOf s x := by cases x <;> rfl
@[simp] theorem putHandle_jobOf (x : Nat) : jobOf (putHandle d h o bs s) x = jobOf s x := rfl
end

section
variable (d : DieIx) (h o : Nat) (bs : List Byte) (s : State)
@[simp] theorem putStore_fuses : (putStore d h o bs s).fuses = s.fuses := rfl
@[simp] theorem putStore_pins : (putStore d h o bs s).pins = s.pins := rfl
@[simp] theorem putStore_alarm : (putStore d h o bs s).alarm = s.alarm := rfl
@[simp] theorem putStore_boot : (putStore d h o bs s).boot = s.boot := rfl
@[simp] theorem putStore_sec : (putStore d h o bs s).sec = s.sec := rfl
@[simp] theorem putStore_log : (putStore d h o bs s).log = s.log := rfl
@[simp] theorem putStore_dict : (putStore d h o bs s).dict = s.dict := rfl
@[simp] theorem putStore_parts : (putStore d h o bs s).parts = s.parts := rfl
@[simp] theorem putStore_jobs : (putStore d h o bs s).jobs = s.jobs := rfl
@[simp] theorem putStore_hearth : (putStore d h o bs s).hearth = s.hearth := rfl
@[simp] theorem putStore_fabric : (putStore d h o bs s).fabric = s.fabric := rfl
@[simp] theorem putStore_ports : (putStore d h o bs s).ports = s.ports := rfl
@[simp] theorem putStore_hostA : (putStore d h o bs s).hostA = s.hostA := rfl
@[simp] theorem putStore_hostB : (putStore d h o bs s).hostB = s.hostB := rfl
@[simp] theorem putStore_twin : (putStore d h o bs s).twin = s.twin := rfl
@[simp] theorem putStore_bn : (putStore d h o bs s).bn = s.bn := rfl
@[simp] theorem putStore_bist : (putStore d h o bs s).bist = s.bist := rfl
@[simp] theorem putStore_out : (putStore d h o bs s).out = s.out := rfl
@[simp] theorem putStore_held : (putStore d h o bs s).held = s.held := rfl
@[simp] theorem putStore_reissue : (putStore d h o bs s).reissue = s.reissue := rfl
@[simp] theorem putStore_free : (putStore d h o bs s).free = s.free := rfl
@[simp] theorem putStore_nextId : (putStore d h o bs s).nextId = s.nextId := rfl
@[simp] theorem putStore_pending : (putStore d h o bs s).pending = s.pending := rfl
@[simp] theorem putStore_partOfIx (x : PartIx) : partOfIx (putStore d h o bs s) x = partOfIx s x := rfl
@[simp] theorem putStore_portOf (x : PortIx) : portOf (putStore d h o bs s) x = portOf s x := rfl
@[simp] theorem putStore_hostOf (x : HostId) : hostOf (putStore d h o bs s) x = hostOf s x := by cases x <;> rfl
@[simp] theorem putStore_jobOf (x : Nat) : jobOf (putStore d h o bs s) x = jobOf s x := rfl
end

section
variable (d : DieIx) (k a : Nat) (bs : List Byte) (s : State)
@[simp] theorem putBuf_fuses : (putBuf d k a bs s).fuses = s.fuses := rfl
@[simp] theorem putBuf_pins : (putBuf d k a bs s).pins = s.pins := rfl
@[simp] theorem putBuf_alarm : (putBuf d k a bs s).alarm = s.alarm := rfl
@[simp] theorem putBuf_boot : (putBuf d k a bs s).boot = s.boot := rfl
@[simp] theorem putBuf_sec : (putBuf d k a bs s).sec = s.sec := rfl
@[simp] theorem putBuf_log : (putBuf d k a bs s).log = s.log := rfl
@[simp] theorem putBuf_dict : (putBuf d k a bs s).dict = s.dict := rfl
@[simp] theorem putBuf_parts : (putBuf d k a bs s).parts = s.parts := rfl
@[simp] theorem putBuf_jobs : (putBuf d k a bs s).jobs = s.jobs := rfl
@[simp] theorem putBuf_hearth : (putBuf d k a bs s).hearth = s.hearth := rfl
@[simp] theorem putBuf_fabric : (putBuf d k a bs s).fabric = s.fabric := rfl
@[simp] theorem putBuf_ports : (putBuf d k a bs s).ports = s.ports := rfl
@[simp] theorem putBuf_hostA : (putBuf d k a bs s).hostA = s.hostA := rfl
@[simp] theorem putBuf_hostB : (putBuf d k a bs s).hostB = s.hostB := rfl
@[simp] theorem putBuf_twin : (putBuf d k a bs s).twin = s.twin := rfl
@[simp] theorem putBuf_bn : (putBuf d k a bs s).bn = s.bn := rfl
@[simp] theorem putBuf_bist : (putBuf d k a bs s).bist = s.bist := rfl
@[simp] theorem putBuf_out : (putBuf d k a bs s).out = s.out := rfl
@[simp] theorem putBuf_held : (putBuf d k a bs s).held = s.held := rfl
@[simp] theorem putBuf_reissue : (putBuf d k a bs s).reissue = s.reissue := rfl
@[simp] theorem putBuf_free : (putBuf d k a bs s).free = s.free := rfl
@[simp] theorem putBuf_nextId : (putBuf d k a bs s).nextId = s.nextId := rfl
@[simp] theorem putBuf_pending : (putBuf d k a bs s).pending = s.pending := rfl
@[simp] theorem putBuf_partOfIx (x : PartIx) : partOfIx (putBuf d k a bs s) x = partOfIx s x := rfl
@[simp] theorem putBuf_portOf (x : PortIx) : portOf (putBuf d k a bs s) x = portOf s x := rfl
@[simp] theorem putBuf_hostOf (x : HostId) : hostOf (putBuf d k a bs s) x = hostOf s x := by cases x <;> rfl
@[simp] theorem putBuf_jobOf (x : Nat) : jobOf (putBuf d k a bs s) x = jobOf s x := rfl
end

section
variable (d : DieIx) (sc v : Nat) (s : State)
@[simp] theorem putScalar_fuses : (putScalar d sc v s).fuses = s.fuses := rfl
@[simp] theorem putScalar_pins : (putScalar d sc v s).pins = s.pins := rfl
@[simp] theorem putScalar_alarm : (putScalar d sc v s).alarm = s.alarm := rfl
@[simp] theorem putScalar_boot : (putScalar d sc v s).boot = s.boot := rfl
@[simp] theorem putScalar_sec : (putScalar d sc v s).sec = s.sec := rfl
@[simp] theorem putScalar_log : (putScalar d sc v s).log = s.log := rfl
@[simp] theorem putScalar_dict : (putScalar d sc v s).dict = s.dict := rfl
@[simp] theorem putScalar_parts : (putScalar d sc v s).parts = s.parts := rfl
@[simp] theorem putScalar_jobs : (putScalar d sc v s).jobs = s.jobs := rfl
@[simp] theorem putScalar_hearth : (putScalar d sc v s).hearth = s.hearth := rfl
@[simp] theorem putScalar_fabric : (putScalar d sc v s).fabric = s.fabric := rfl
@[simp] theorem putScalar_ports : (putScalar d sc v s).ports = s.ports := rfl
@[simp] theorem putScalar_hostA : (putScalar d sc v s).hostA = s.hostA := rfl
@[simp] theorem putScalar_hostB : (putScalar d sc v s).hostB = s.hostB := rfl
@[simp] theorem putScalar_twin : (putScalar d sc v s).twin = s.twin := rfl
@[simp] theorem putScalar_bn : (putScalar d sc v s).bn = s.bn := rfl
@[simp] theorem putScalar_bist : (putScalar d sc v s).bist = s.bist := rfl
@[simp] theorem putScalar_out : (putScalar d sc v s).out = s.out := rfl
@[simp] theorem putScalar_held : (putScalar d sc v s).held = s.held := rfl
@[simp] theorem putScalar_reissue : (putScalar d sc v s).reissue = s.reissue := rfl
@[simp] theorem putScalar_free : (putScalar d sc v s).free = s.free := rfl
@[simp] theorem putScalar_nextId : (putScalar d sc v s).nextId = s.nextId := rfl
@[simp] theorem putScalar_pending : (putScalar d sc v s).pending = s.pending := rfl
@[simp] theorem putScalar_partOfIx (x : PartIx) : partOfIx (putScalar d sc v s) x = partOfIx s x := rfl
@[simp] theorem putScalar_portOf (x : PortIx) : portOf (putScalar d sc v s) x = portOf s x := rfl
@[simp] theorem putScalar_hostOf (x : HostId) : hostOf (putScalar d sc v s) x = hostOf s x := by cases x <;> rfl
@[simp] theorem putScalar_jobOf (x : Nat) : jobOf (putScalar d sc v s) x = jobOf s x := rfl
end

section
variable (d : DieIx) (f : Nat) (s : State)
@[simp] theorem setFlagBit_fuses : (setFlagBit d f s).fuses = s.fuses := rfl
@[simp] theorem setFlagBit_pins : (setFlagBit d f s).pins = s.pins := rfl
@[simp] theorem setFlagBit_alarm : (setFlagBit d f s).alarm = s.alarm := rfl
@[simp] theorem setFlagBit_boot : (setFlagBit d f s).boot = s.boot := rfl
@[simp] theorem setFlagBit_sec : (setFlagBit d f s).sec = s.sec := rfl
@[simp] theorem setFlagBit_log : (setFlagBit d f s).log = s.log := rfl
@[simp] theorem setFlagBit_dict : (setFlagBit d f s).dict = s.dict := rfl
@[simp] theorem setFlagBit_parts : (setFlagBit d f s).parts = s.parts := rfl
@[simp] theorem setFlagBit_jobs : (setFlagBit d f s).jobs = s.jobs := rfl
@[simp] theorem setFlagBit_hearth : (setFlagBit d f s).hearth = s.hearth := rfl
@[simp] theorem setFlagBit_fabric : (setFlagBit d f s).fabric = s.fabric := rfl
@[simp] theorem setFlagBit_ports : (setFlagBit d f s).ports = s.ports := rfl
@[simp] theorem setFlagBit_hostA : (setFlagBit d f s).hostA = s.hostA := rfl
@[simp] theorem setFlagBit_hostB : (setFlagBit d f s).hostB = s.hostB := rfl
@[simp] theorem setFlagBit_twin : (setFlagBit d f s).twin = s.twin := rfl
@[simp] theorem setFlagBit_bn : (setFlagBit d f s).bn = s.bn := rfl
@[simp] theorem setFlagBit_bist : (setFlagBit d f s).bist = s.bist := rfl
@[simp] theorem setFlagBit_out : (setFlagBit d f s).out = s.out := rfl
@[simp] theorem setFlagBit_held : (setFlagBit d f s).held = s.held := rfl
@[simp] theorem setFlagBit_reissue : (setFlagBit d f s).reissue = s.reissue := rfl
@[simp] theorem setFlagBit_free : (setFlagBit d f s).free = s.free := rfl
@[simp] theorem setFlagBit_nextId : (setFlagBit d f s).nextId = s.nextId := rfl
@[simp] theorem setFlagBit_pending : (setFlagBit d f s).pending = s.pending := rfl
@[simp] theorem setFlagBit_partOfIx (x : PartIx) : partOfIx (setFlagBit d f s) x = partOfIx s x := rfl
@[simp] theorem setFlagBit_portOf (x : PortIx) : portOf (setFlagBit d f s) x = portOf s x := rfl
@[simp] theorem setFlagBit_hostOf (x : HostId) : hostOf (setFlagBit d f s) x = hostOf s x := by cases x <;> rfl
@[simp] theorem setFlagBit_jobOf (x : Nat) : jobOf (setFlagBit d f s) x = jobOf s x := rfl
end

section
variable (d : DieIx) (f : Nat) (s : State)
@[simp] theorem clearFlagBit_fuses : (clearFlagBit d f s).fuses = s.fuses := rfl
@[simp] theorem clearFlagBit_pins : (clearFlagBit d f s).pins = s.pins := rfl
@[simp] theorem clearFlagBit_alarm : (clearFlagBit d f s).alarm = s.alarm := rfl
@[simp] theorem clearFlagBit_boot : (clearFlagBit d f s).boot = s.boot := rfl
@[simp] theorem clearFlagBit_sec : (clearFlagBit d f s).sec = s.sec := rfl
@[simp] theorem clearFlagBit_log : (clearFlagBit d f s).log = s.log := rfl
@[simp] theorem clearFlagBit_dict : (clearFlagBit d f s).dict = s.dict := rfl
@[simp] theorem clearFlagBit_parts : (clearFlagBit d f s).parts = s.parts := rfl
@[simp] theorem clearFlagBit_jobs : (clearFlagBit d f s).jobs = s.jobs := rfl
@[simp] theorem clearFlagBit_hearth : (clearFlagBit d f s).hearth = s.hearth := rfl
@[simp] theorem clearFlagBit_fabric : (clearFlagBit d f s).fabric = s.fabric := rfl
@[simp] theorem clearFlagBit_ports : (clearFlagBit d f s).ports = s.ports := rfl
@[simp] theorem clearFlagBit_hostA : (clearFlagBit d f s).hostA = s.hostA := rfl
@[simp] theorem clearFlagBit_hostB : (clearFlagBit d f s).hostB = s.hostB := rfl
@[simp] theorem clearFlagBit_twin : (clearFlagBit d f s).twin = s.twin := rfl
@[simp] theorem clearFlagBit_bn : (clearFlagBit d f s).bn = s.bn := rfl
@[simp] theorem clearFlagBit_bist : (clearFlagBit d f s).bist = s.bist := rfl
@[simp] theorem clearFlagBit_out : (clearFlagBit d f s).out = s.out := rfl
@[simp] theorem clearFlagBit_held : (clearFlagBit d f s).held = s.held := rfl
@[simp] theorem clearFlagBit_reissue : (clearFlagBit d f s).reissue = s.reissue := rfl
@[simp] theorem clearFlagBit_free : (clearFlagBit d f s).free = s.free := rfl
@[simp] theorem clearFlagBit_nextId : (clearFlagBit d f s).nextId = s.nextId := rfl
@[simp] theorem clearFlagBit_pending : (clearFlagBit d f s).pending = s.pending := rfl
@[simp] theorem clearFlagBit_partOfIx (x : PartIx) : partOfIx (clearFlagBit d f s) x = partOfIx s x := rfl
@[simp] theorem clearFlagBit_portOf (x : PortIx) : portOf (clearFlagBit d f s) x = portOf s x := rfl
@[simp] theorem clearFlagBit_hostOf (x : HostId) : hostOf (clearFlagBit d f s) x = hostOf s x := by cases x <;> rfl
@[simp] theorem clearFlagBit_jobOf (x : Nat) : jobOf (clearFlagBit d f s) x = jobOf s x := rfl
end

section
variable (p : PartIx) (k : Nat) (f : KeySet → KeySet) (s : State)
@[simp] theorem updKs_fuses : (updKs p k f s).fuses = s.fuses := rfl
@[simp] theorem updKs_pins : (updKs p k f s).pins = s.pins := rfl
@[simp] theorem updKs_alarm : (updKs p k f s).alarm = s.alarm := rfl
@[simp] theorem updKs_boot : (updKs p k f s).boot = s.boot := rfl
@[simp] theorem updKs_sec : (updKs p k f s).sec = s.sec := rfl
@[simp] theorem updKs_log : (updKs p k f s).log = s.log := rfl
@[simp] theorem updKs_dict : (updKs p k f s).dict = s.dict := rfl
@[simp] theorem updKs_dies : (updKs p k f s).dies = s.dies := rfl
@[simp] theorem updKs_jobs : (updKs p k f s).jobs = s.jobs := rfl
@[simp] theorem updKs_hearth : (updKs p k f s).hearth = s.hearth := rfl
@[simp] theorem updKs_fabric : (updKs p k f s).fabric = s.fabric := rfl
@[simp] theorem updKs_ports : (updKs p k f s).ports = s.ports := rfl
@[simp] theorem updKs_hostA : (updKs p k f s).hostA = s.hostA := rfl
@[simp] theorem updKs_hostB : (updKs p k f s).hostB = s.hostB := rfl
@[simp] theorem updKs_twin : (updKs p k f s).twin = s.twin := rfl
@[simp] theorem updKs_bn : (updKs p k f s).bn = s.bn := rfl
@[simp] theorem updKs_bist : (updKs p k f s).bist = s.bist := rfl
@[simp] theorem updKs_out : (updKs p k f s).out = s.out := rfl
@[simp] theorem updKs_held : (updKs p k f s).held = s.held := rfl
@[simp] theorem updKs_reissue : (updKs p k f s).reissue = s.reissue := rfl
@[simp] theorem updKs_free : (updKs p k f s).free = s.free := rfl
@[simp] theorem updKs_nextId : (updKs p k f s).nextId = s.nextId := rfl
@[simp] theorem updKs_pending : (updKs p k f s).pending = s.pending := rfl
@[simp] theorem updKs_dieOf (x : DieIx) : dieOf (updKs p k f s) x = dieOf s x := rfl
@[simp] theorem updKs_queueOf (x : DieIx) (y : QueueIx) : queueOf (updKs p k f s) x y = queueOf s x y := rfl
@[simp] theorem updKs_portOf (x : PortIx) : portOf (updKs p k f s) x = portOf s x := rfl
@[simp] theorem updKs_hostOf (x : HostId) : hostOf (updKs p k f s) x = hostOf s x := by cases x <;> rfl
@[simp] theorem updKs_jobOf (x : Nat) : jobOf (updKs p k f s) x = jobOf s x := rfl
end

/-- Die `d` after a change of it. -/
@[simp] theorem dieOf_updDie_self (d : DieIx) (f : Die → Die) (s : State) : dieOf (updDie d f s) d = f (dieOf s d) := by
  simp [dieOf, updDie]

/-- Another die after a change of die `d`. -/
@[simp] theorem dieOf_updDie_ne {d e : DieIx} (f : Die → Die) (s : State) (h : e ≠ d) : dieOf (updDie d f s) e = dieOf s e := by
  have : d.val ≠ e.val := fun x => h (Fin.ext x.symm)
  simp [dieOf, updDie, this]

/-- Partition `p` after a change of it. -/
@[simp] theorem partOfIx_updPart_self (p : PartIx) (f : Partition → Partition) (s : State) :
    partOfIx (updPart p f s) p = f (partOfIx s p) := by
  simp [partOfIx, updPart]

/-- Another partition after a change of partition `p`. -/
@[simp] theorem partOfIx_updPart_ne {p e : PartIx} (f : Partition → Partition) (s : State) (h : e ≠ p) :
    partOfIx (updPart p f s) e = partOfIx s e := by
  have : p.val ≠ e.val := fun x => h (Fin.ext x.symm)
  simp [partOfIx, updPart, this]

/-- Port `n` after a change of it. -/
@[simp] theorem portOf_updPort_self (n : PortIx) (f : Port → Port) (s : State) : portOf (updPort n f s) n = f (portOf s n) := by
  simp [portOf, updPort]

/-- Another port after a change of port `n`. -/
@[simp] theorem portOf_updPort_ne {n e : PortIx} (f : Port → Port) (s : State) (h : e ≠ n) : portOf (updPort n f s) e = portOf s e := by
  have : n.val ≠ e.val := fun x => h (Fin.ext x.symm)
  simp [portOf, updPort, this]

/-- A host port after a change of it. -/
@[simp] theorem hostOf_updHost_self (h : HostId) (f : HostPort → HostPort) (s : State) : hostOf (updHost h f s) h = f (hostOf s h) := by
  cases h <;> rfl

/-- The other host port after a change of one. -/
@[simp] theorem hostOf_updHost_ne {h k : HostId} (f : HostPort → HostPort) (s : State) (e : k ≠ h) :
    hostOf (updHost h f s) k = hostOf s k := by
  cases h <;> cases k <;> simp_all [hostOf, updHost]

/-- Queue `q` of die `d` after a change of it. -/
@[simp] theorem queueOf_updQueue_self (d : DieIx) (q : QueueIx) (f : Queue → Queue) (s : State) :
    queueOf (updQueue d q f s) d q = f (queueOf s d q) := by
  simp [queueOf, updQueue]

/-- Another queue after a change of queue `q` of die `d`. -/
theorem queueOf_updQueue_ne {d e : DieIx} {q r : QueueIx} (f : Queue → Queue) (s : State) (h : e ≠ d ∨ r ≠ q) :
    queueOf (updQueue d q f s) e r = queueOf s e r := by
  by_cases hd : e = d
  · subst hd
    have : q.val ≠ r.val := fun x => (h.resolve_left (fun k => k rfl)) (Fin.ext x.symm)
    simp [queueOf, updQueue, this]
  · simp [queueOf, updQueue, hd]

/-- The log of what was sent after an emission. -/
@[simp] theorem emit_out (o : Output) (s : State) : (emit o s).out = s.out ++ [o] := rfl

end Sys2Proof.Machine
end

