-- ==== Sys2Proof/Laws/Frames.lean ====
section
/-! SUPPORT. The algebra of frames, and what the shared operations leave as it was: output, counters, interrupts, the event log. -/

namespace Sys2Proof.Machine

/-- Nothing differs between a state and itself. -/
theorem Frame.refl (ws : List Area) (s : State) : Frame ws s s := by
  intro a _; cases a <;> simp [Same]

/-- Two frames one after the other. -/
theorem Frame.trans {ws : List Area} {s t u : State} (h : Frame ws s t) (k : Frame ws t u) : Frame ws s u := by
  intro a ha
  have h := h a ha
  have k := k a ha
  cases a <;> simp_all [Same]

/-- A frame that allows more. -/
theorem Frame.mono {ws vs : List Area} {s t : State} (h : Frame ws s t) (k : ∀ a ∈ ws, a ∈ vs) : Frame vs s t :=
  fun a ha => h a fun x => ha (k a x)

/-- What a change of one die may touch. -/
theorem updDie_frame (d : DieIx) (f : Die → Die) (s : State) : Frame [.dies, .counters] s (updDie d f s) := by
  intro a ha
  cases a <;> simp_all [Same]

/-- What a change of one die that keeps its counters may touch. -/
theorem updDie_frame_dies (d : DieIx) (f : Die → Die) (s : State) (hf : (f (dieOf s d)).counters = (dieOf s d).counters) :
    Frame [.dies] s (updDie d f s) := by
  intro a ha
  cases a <;> simp_all [Same]
  intro e
  by_cases h : e = d
  · subst h; simpa using hf
  · simp [h]

/-- Counting touches counters alone. -/
theorem count_frame (d : DieIx) (i n : Nat) (s : State) : Frame [.counters] s (count d i n s) := by
  intro a ha
  cases a <;> simp_all [Same]
  intro e
  by_cases h : e = d
  · subst h; simp [count]
  · simp [count, h]

/-- Sending touches the output alone. -/
theorem emit_frame (o : Output) (s : State) : Frame [.out] s (emit o s) := by
  intro a ha
  cases a <;> simp_all [Same]

/-- What a change of one partition may touch. -/
theorem updPart_frame (p : PartIx) (f : Partition → Partition) (s : State) : Frame [.parts, .partLogs] s (updPart p f s) := by
  intro a ha
  cases a <;> simp_all [Same]

/-- What a change of one partition that keeps its log may touch. -/
theorem updPart_frame_parts (p : PartIx) (f : Partition → Partition) (s : State) (hf : (f (partOfIx s p)).log = (partOfIx s p).log) :
    Frame [.parts] s (updPart p f s) := by
  intro a ha
  cases a <;> simp_all [Same]
  intro e
  by_cases h : e = p
  · subst h; simpa using hf
  · simp [h]

/-- A change of one port. -/
theorem updPort_frame (n : PortIx) (f : Port → Port) (s : State) : Frame [.ports] s (updPort n f s) := by
  intro a ha
  cases a <;> simp_all [Same]

/-- A change of a job. -/
theorem updJob_frame (i : Nat) (f : Job → Job) (s : State) : Frame [.jobs] s (updJob i f s) := by
  intro a ha
  cases a <;> simp_all [Same]

/-- Sending an MSI-X message, or holding it pending (R393). -/
theorem msix_frame (h : HostId) (fn vec : Nat) (s : State) : Frame [.msix, .out] s (msix h fn vec s) := by
  unfold msix
  split
  · exact (emit_frame _ _).mono (by simp)
  · intro a ha
    cases a <;> simp_all [Same]
    · intro k
      by_cases e : k = h
      · subst e; simp
      · simp [e]

/-- A conditional change. -/
theorem Frame.ite {ws : List Area} {s t u : State} {c : Prop} [Decidable c] (h : Frame ws s t) (k : Frame ws s u) :
    Frame ws s (if c then t else u) := by
  split <;> assumption

/-- Signalling an entry touches the pending vectors, SMB_ALERT# and the output (R468). -/
theorem signal_frame (sv : Nat) (part : Option PartIx) (entry : List Byte) (s : State) :
    Frame [.msix, .alert, .out] s (signal sv part entry s) := by
  have m (h fn vec) (s : State) : Frame [.msix, .alert, .out] s (msix h fn vec s) := (msix_frame h fn vec s).mono (by decide)
  have a (s : State) : Frame [.msix, .alert, .out] s { s with pins := { s.pins with smbAlert := true } } := by
    intro a ha; cases a <;> first | exact (ha (by decide)).elim | rfl | exact fun _ => rfl
  have e (o : Output) (s : State) : Frame [.msix, .alert, .out] s (emit o s) := (emit_frame _ _).mono (by decide)
  unfold signal
  extract_lets c s₁ s₂ src s₃
  have h₁ : Frame [.msix, .alert, .out] s s₁ := .ite (.trans (m _ _ _ _) (m _ _ _ _)) (.refl _ _)
  have h₂ : Frame [.msix, .alert, .out] s s₂ := by
    dsimp only [s₂]
    split
    · exact h₁.trans (.ite (m _ _ _ _) (.refl _ _))
    · exact h₁
  have h₃ : Frame [.msix, .alert, .out] s s₃ := h₂.trans (.ite (a _) (.refl _ _))
  exact h₃.trans (.ite (e _ _) (.refl _ _))

/-- A change of one partition's log. -/
theorem updPart_frame_log (p : PartIx) (f : List (List Byte) → List (List Byte)) (s : State) :
    Frame [.partLogs] s (updPart p (fun x => { x with log := f x.log }) s) := by
  intro a ha
  cases a <;> first | exact (ha (by decide)).elim | rfl | exact fun _ => rfl | skip
  · intro e
    by_cases h : e = p
    · subst h; rw [partOfIx_updPart_self]
    · rw [partOfIx_updPart_ne _ _ h]

/-- Logging an event touches `logAreas` alone (R464 to R468). -/
theorem logEvent_frame (e : Ev) (a : EvArgs) (s : State) : Frame logAreas s (logEvent e a s) := by
  unfold logEvent
  extract_lets seq
  split
  rename_i tm s' h
  obtain ⟨rfl, rfl⟩ := Prod.ext_iff.1 h
  extract_lets entry dropped src s₁ s₂ s₃
  have h₁ : Frame logAreas s s₁ := by
    intro a ha; cases a <;> first | exact (ha (by decide)).elim | rfl | exact fun _ => rfl
  have h₂ : Frame logAreas s s₂ := by
    dsimp only [s₂]
    split
    · exact h₁.trans (Frame.mono (vs := logAreas) (updPart_frame_log _ (fun l => pushLog 1024 l entry) _) (by decide))
    · exact h₁
  exact (h₂.trans ((count_frame _ _ _ _).mono (by decide))).trans ((signal_frame _ _ _ _).mono (by decide))

/-- An event that has been logged stands in the device log (R464). -/
theorem logEvent_logged (e : Ev) (a : EvArgs) (s : State) : Logged e a s (logEvent e a s) := by
  unfold logEvent
  extract_lets seq
  split
  rename_i tm s' h
  obtain ⟨rfl, rfl⟩ := Prod.ext_iff.1 h
  extract_lets entry dropped src s₁ s₂ s₃
  have h₂ : s₂.log = s₁.log := by dsimp only [s₂]; split <;> rfl
  have h₄ := signal_frame (severity e) a.part entry s₃ .log (by decide)
  simp only [Same] at h₄
  refine ⟨?_, (freeBelow (2 ^ 32) s).1, ?_⟩
  · rw [h₄, count_log, h₂]
  · rw [h₄, count_log, h₂]
    have e₁ : (freeBelow (2 ^ 32) s).2.log = s.log := rfl
    have e₂ : (freeBelow (2 ^ 32) s).2.hearth = s.hearth := rfl
    simp only [s₁, entry, seq, e₁, e₂]

end Sys2Proof.Machine
end

