-- ==== Sys2Proof/Laws/Fuses.lean ====
section
/-! SUPPORT. The fuses of a part are as R5, R6, R34, R38 and R39 say; Proth's theorem for the primes of R38. -/

namespace Sys2Proof.Machine

theorem powModGo_eq (m : Nat) : ∀ f b e acc, e < 2 ^ f → acc < m →
    powModGo m f b e acc = acc * b ^ e % m
  | 0, b, e, acc, h, ha => by
    obtain rfl : e = 0 := by omega
    simp [powModGo, Nat.mod_eq_of_lt ha]
  | f + 1, b, e, acc, h, ha => by
    unfold powModGo
    split
    · subst e; simp [Nat.mod_eq_of_lt ha]
    · have h2 : e / 2 < 2 ^ f := by omega
      have key : b ^ e = (b * b) ^ (e / 2) * b ^ (e % 2) := by
        rw [← pow_two, ← pow_mul, ← pow_add]; congr 1; omega
      have hm : 0 < m := by omega
      have hpow : (b * b % m) ^ (e / 2) ≡ (b * b) ^ (e / 2) [MOD m] := (Nat.mod_modEq _ _).pow _
      split
      next ho =>
        rw [powModGo_eq m f _ _ _ h2 (Nat.mod_lt _ hm), key, ho, pow_one]
        have : acc * b % m * (b * b % m) ^ (e / 2) ≡ acc * b * (b * b) ^ (e / 2) [MOD m] := (Nat.mod_modEq _ _).mul hpow
        rw [this, mul_comm ((b * b) ^ (e / 2)) b, mul_assoc]
      next ho =>
        rw [powModGo_eq m f _ _ _ h2 ha, key, (by omega : e % 2 = 0), pow_zero, mul_one]
        exact hpow.mul_left acc

theorem powMod_eq {b e m : Nat} (hm : 1 < m) : powMod b e m = b ^ e % m := by
  unfold powMod
  rw [powModGo_eq m _ _ _ _ (Nat.lt_log2_self) (Nat.mod_lt _ (by omega)), Nat.mod_eq_of_lt hm, one_mul]
  exact (Nat.mod_modEq _ _).pow _

/-- Proth's theorem for q - 1 a multiple of 2^18 and q below 2^36 + 2^18. -/
theorem proth {q a m : Nat} (hq : q = m * 2 ^ 18 + 1) (hm : 0 < m) (hb : m ≤ 2 ^ 18) (ha : a ^ ((q - 1) / 2) % q = q - 1) :
    q.Prime := by
  have h1 : 1 < q := by omega
  by_contra hp
  obtain ⟨p, pp, hpd, hps⟩ : ∃ p, p.Prime ∧ p ∣ q ∧ p * p ≤ q := by
    refine ⟨q.minFac, Nat.minFac_prime (by omega), Nat.minFac_dvd q, ?_⟩
    have := Nat.minFac_sq_le_self (by omega) hp
    rwa [pow_two] at this
  have : Fact p.Prime := ⟨pp⟩
  have hx : ((a : ZMod p) ^ m) ^ 2 ^ 17 = -1 := by
    have e : (q - 1) / 2 = m * 2 ^ 17 := by omega
    rw [e] at ha
    have h2 : ((a ^ (m * 2 ^ 17) : Nat) : ZMod p) = ((q - 1 : Nat) : ZMod p) := by
      rw [← ha]
      exact ((ZMod.natCast_eq_natCast_iff _ _ _).2 ((Nat.mod_modEq _ q).of_dvd hpd)).symm
    have h3 : ((q : Nat) : ZMod p) = 0 := (ZMod.natCast_eq_zero_iff q p).2 hpd
    rw [Nat.cast_sub (by omega), h3] at h2
    simpa [pow_mul] using h2
  have hp2 : p ≠ 2 := by
    rintro rfl
    have := hpd
    omega
  have h2p : Fact (2 < p) := ⟨by have := pp.two_le; omega⟩
  have hne : (-1 : ZMod p) ≠ 1 := ZMod.neg_one_ne_one
  have ho : orderOf ((a : ZMod p) ^ m) = 2 ^ (17 + 1) :=
    orderOf_eq_prime_pow (by rw [hx]; exact hne) (by rw [pow_succ 2 17, pow_mul, hx]; norm_num)
  have h0 : ((a : ZMod p) ^ m) ≠ 0 := by
    intro h; rw [h, zero_pow (by norm_num)] at hx; exact (neg_ne_zero.2 one_ne_zero) hx.symm
  have hd := ZMod.orderOf_dvd_card_sub_one h0
  rw [ho] at hd
  have := Nat.le_of_dvd (by have := pp.two_le; omega) hd
  have : 2 ^ 18 + 1 ≤ p := by omega
  have : (2 ^ 18 + 1) * (2 ^ 18 + 1) ≤ p * p := Nat.mul_le_mul this this
  omega

theorem prothWitness_prime {q m : Nat} (hq : q = m * 2 ^ 18 + 1) (hm : 0 < m) (hb : m ≤ 2 ^ 18) :
    ∀ f a, prothWitness q f a = true → q.Prime
  | 0, _, h => by simp [prothWitness] at h
  | f + 1, a, h => by
    simp only [prothWitness, Bool.or_eq_true, beq_iff_eq] at h
    rcases h with h | h
    · exact proth hq hm hb (by rwa [powMod_eq (by omega)] at h)
    · exact prothWitness_prime hq hm hb f (a + 1) h

theorem dOk_cataloguePrime {d : Nat} (h : dOk d = true) : CataloguePrime d := by
  simp only [dOk, Bool.and_eq_true, decide_eq_true_eq] at h
  obtain ⟨⟨h1, h2, h3⟩, h4⟩ := h
  refine ⟨h1, h2, h3, prothWitness_prime (m := 2 ^ 18 - d) ?_ (by omega) (by omega) _ _ h4⟩
  unfold primeOf; omega

theorem catalogueOk_catalogue {l : List Nat} (h : catalogueOk l = true) : Catalogue l := by
  simp only [catalogueOk, Bool.and_eq_true, beq_iff_eq, decide_eq_true_eq, List.all_eq_true] at h
  exact ⟨h.1.1, h.1.2, fun d hd => dOk_cataloguePrime (h.2 d hd)⟩

set_option maxRecDepth 100000 in
theorem leastCatalogue_ok : catalogueOk leastCatalogue = true := by decide +kernel

theorem fitFuses_catalogue (z : Fuses) : Catalogue (fitFuses z).primes := by
  simp only [fitFuses]
  split
  next h => exact catalogueOk_catalogue h
  next => exact catalogueOk_catalogue leastCatalogue_ok

theorem fitFuses_mask (z : Fuses) : maskOk (fitFuses z).grade (fitFuses z).activeMask = true := by
  simp only [fitFuses]
  split
  next h => exact h
  next => cases z.grade <;> decide

theorem maskOk_dies {g : Grade} {m : BitVec 16} (h : maskOk g m = true) :
    m.getLsbD 0 = true ∧ m.getLsbD 8 = true ∧ (List.range 16).countP (fun d => m.getLsbD d) = gradeDies g := by
  cases g
  case h => simpa [maskOk, gradeDies, and_assoc] using h
  all_goals
    simp only [maskOk, beq_iff_eq] at h
    subst h; decide

end Sys2Proof.Machine
end

