-- ==== Sys2Proof/Laws/Memory.lean ====
section
/-! SUPPORT. The byte memories and the sparse tables: every operation keeps the canonical form, a read after a write answers
what was written, and a write leaves every other place alone. -/

namespace Sys2Proof.Machine

theorem Memory.wfFrom_mono {lo lo' : Nat} (h : lo' ≤ lo) : ∀ {m : Mem}, Memory.wfFrom lo m = true → Memory.wfFrom lo' m = true
  | [], _ => rfl
  | (a, b) :: m, hw => by
    simp only [Memory.wfFrom, Bool.and_eq_true, decide_eq_true_eq] at hw ⊢
    exact ⟨⟨by omega, hw.1.2⟩, hw.2⟩

/-- A read below the first cell answers 0. -/
theorem memGet_below {lo a : Nat} (h : a < lo) : ∀ {m : Mem}, Memory.wfFrom lo m = true → memGet m a = 0
  | [], _ => rfl
  | (k, v) :: m, hw => by
    simp only [Memory.wfFrom, Bool.and_eq_true, decide_eq_true_eq] at hw
    simp only [memGet]
    rw [if_neg (by omega)]
    exact memGet_below (by omega) hw.2

/-- A write keeps the canonical form above `lo`. -/
theorem memSet_wfFrom {lo a : Nat} {b : Byte} (h : lo ≤ a) : ∀ {m : Mem}, Memory.wfFrom lo m = true → Memory.wfFrom lo (memSet m a b) = true
  | [], _ => by
    unfold memSet
    split <;> simp_all [Memory.wfFrom]
  | (k, v) :: m, hw => by
    have hw' := hw
    simp only [Memory.wfFrom, Bool.and_eq_true, decide_eq_true_eq] at hw'
    unfold memSet
    split
    · split
      · exact hw
      · rename_i h1 h2
        simp only [Memory.wfFrom, Bool.and_eq_true, decide_eq_true_eq]
        exact ⟨⟨h, h2⟩, ⟨by omega, hw'.1.2⟩, hw'.2⟩
    · split
      · split
        · exact Memory.wfFrom_mono (by omega) hw'.2
        · rename_i h1 h2 h3
          simp only [Memory.wfFrom, Bool.and_eq_true, decide_eq_true_eq]
          exact ⟨⟨h, h3⟩, by subst h2; exact hw'.2⟩
      · simp only [Memory.wfFrom, Bool.and_eq_true, decide_eq_true_eq]
        exact ⟨hw'.1, memSet_wfFrom (by omega) hw'.2⟩

/-- A write of one byte keeps the canonical form. -/
theorem memSet_wf {m : Mem} (a : Nat) (b : Byte) (h : Memory.wf m = true) : Memory.wf (memSet m a b) = true :=
  memSet_wfFrom (Nat.zero_le a) h

/-- A write of bytes keeps the canonical form. -/
theorem memPut_wf : ∀ {m : Mem} (a : Nat) (bs : List Byte), Memory.wf m = true → Memory.wf (memPut m a bs) = true
  | _, _, [], h => h
  | _, a, b :: bs, h => by
    unfold memPut
    exact memPut_wf (a + 1) bs (memSet_wf a b h)

/-- Dropping cells keeps the canonical form. -/
theorem filter_wfFrom (p : Host.Cell → Bool) : ∀ {lo : Nat} {m : Mem}, Memory.wfFrom lo m = true → Memory.wfFrom lo (m.filter p) = true
  | _, [], _ => rfl
  | lo, (a, b) :: m, h => by
    simp only [Memory.wfFrom, Bool.and_eq_true, decide_eq_true_eq] at h
    simp only [List.filter_cons]
    split
    · simp only [Memory.wfFrom, Bool.and_eq_true, decide_eq_true_eq]
      exact ⟨h.1, filter_wfFrom p h.2⟩
    · exact Memory.wfFrom_mono (by omega) (filter_wfFrom p h.2)

/-- Zeroing a range keeps the canonical form. -/
theorem memZero_wf {m : Mem} (a n : Nat) (h : Memory.wf m = true) : Memory.wf (memZero m a n) = true := filter_wfFrom _ h

/-- Free bytes over a range keep the canonical form. -/
theorem freeMem_wf {m : Mem} (a n draw : Nat) (h : Memory.wf m = true) : Memory.wf (freeMem m a n draw) = true :=
  memPut_wf _ _ (memZero_wf a n h)

/-- A read after a write of one byte. -/
theorem memGet_memSet (a x : Nat) (b : Byte) : ∀ {lo : Nat} {m : Mem}, Memory.wfFrom lo m = true →
    memGet (memSet m a b) x = if x = a then b else memGet m x
  | lo, [], _ => by
    unfold memSet
    split
    · split <;> simp_all [memGet]
    · simp only [memGet, eq_comm]
  | lo, (k, v) :: m, h => by
    have h' := h
    simp only [Memory.wfFrom, Bool.and_eq_true, decide_eq_true_eq] at h'
    unfold memSet
    split
    · rename_i h1
      split
      · rename_i hb
        split
        · rename_i hx
          subst hx hb
          simp only [memGet]
          rw [if_neg (by omega)]
          exact memGet_below (by omega) h'.2
        · rfl
      · simp only [memGet, eq_comm]
    · split
      · rename_i h1 h2
        subst h2
        split
        · rename_i hb
          split
          · rename_i hx
            subst hx hb
            exact memGet_below (by omega) h'.2
          · rename_i hx
            simp only [memGet]
            rw [if_neg (fun e => hx e.symm)]
        · split
          · rename_i hx
            subst hx
            simp [memGet]
          · rename_i hx
            have : ¬ a = x := fun e => hx e.symm
            simp [memGet, this]
      · rename_i h1 h2
        simp only [memGet]
        split
        · rename_i hk
          subst hk
          rw [if_neg (fun e => h2 e.symm)]
        · exact memGet_memSet a x b h'.2

/-- The byte that a write of bytes leaves at an address. -/
theorem memGet_memPut : ∀ (bs : List Byte) (a x : Nat) {m : Mem}, Memory.wf m = true →
    memGet (memPut m a bs) x = if a ≤ x ∧ x < a + bs.length then bs.getD (x - a) 0 else memGet m x
  | [], a, x, m, _ => by
    simp only [memPut, List.length_nil]
    rw [if_neg (by omega)]
  | b :: bs, a, x, m, h => by
    simp only [memPut]
    rw [memGet_memPut bs (a + 1) x (memSet_wf a b h), memGet_memSet a x b h]
    simp only [List.length_cons]
    rcases Nat.lt_trichotomy x a with hx | hx | hx
    · rw [if_neg (by omega), if_neg (by omega), if_neg (by omega)]
    · subst hx
      simp
    · by_cases h2 : x < a + 1 + bs.length
      · rw [if_pos (by omega), if_pos (by omega)]
        have : x - a = (x - (a + 1)) + 1 := by omega
        rw [this]
        simp
      · rw [if_neg (by omega), if_neg (by omega), if_neg (by omega)]

/-- The byte after zeroing a range. -/
theorem memGet_memZero (a n x : Nat) : ∀ (m : Mem),
    memGet (memZero m a n) x = if a ≤ x ∧ x < a + n then 0 else memGet m x
  | [] => by simp [memZero, memGet]
  | (k, v) :: m => by
    have ih := memGet_memZero a n x m
    unfold memZero at ih ⊢
    simp only [List.filter_cons]
    by_cases hk : k = x
    · subst hk
      by_cases hr : a ≤ k ∧ k < a + n
      · have : ¬ ((decide (k < a) || decide (a + n ≤ k)) = true) := by simp; omega
        rw [if_neg this, if_pos hr, ih, if_pos hr]
      · have : (decide (k < a) || decide (a + n ≤ k)) = true := by simp; omega
        rw [if_pos this, if_neg hr]
        simp [memGet]
    · have e : memGet ((k, v) :: m) x = memGet m x := by simp [memGet, hk]
      rw [e, ← ih]
      split
      · simp [memGet, hk]
      · rfl

/-- The bytes read after a write of the same bytes. -/
theorem memBytes_memPut_aux : ∀ (n o a : Nat) (bs : List Byte) {m : Mem}, Memory.wf m = true → o + n ≤ bs.length →
    memBytes (memPut m a bs) (a + o) n = (bs.drop o).take n
  | 0, _, _, _, _, _, _ => by simp [memBytes]
  | n + 1, o, a, bs, m, h, hl => by
    simp only [memBytes]
    rw [memGet_memPut bs a (a + o) h, if_pos (by omega)]
    have ih := memBytes_memPut_aux n (o + 1) a bs h (by omega)
    rw [Nat.add_assoc a o 1, ih]
    have ho : o < bs.length := by omega
    rw [List.drop_eq_getElem_cons ho, List.take_succ_cons]
    congr 1
    simp [List.getD_eq_getElem?_getD, ho]

/-- What has been written is read back. -/
theorem memBytes_memPut {m : Mem} (a : Nat) (bs : List Byte) (h : Memory.wf m = true) :
    memBytes (memPut m a bs) a bs.length = bs := by
  have := memBytes_memPut_aux bs.length 0 a bs h (by omega)
  simpa using this

/-- Two memories that agree on a range give the same bytes there. -/
theorem memBytes_congr {m m' : Mem} : ∀ (n a : Nat), (∀ x, a ≤ x → x < a + n → memGet m x = memGet m' x) →
    memBytes m a n = memBytes m' a n
  | 0, _, _ => rfl
  | n + 1, a, h => by
    simp only [memBytes]
    rw [h a (by omega) (by omega), memBytes_congr n (a + 1) (fun x h1 h2 => h x (by omega) (by omega))]

/-- A write elsewhere leaves a range as it was. -/
theorem memBytes_memPut_other {m : Mem} (a n b : Nat) (bs : List Byte) (h : Memory.wf m = true)
    (hd : b + n ≤ a ∨ a + bs.length ≤ b) : memBytes (memPut m a bs) b n = memBytes m b n :=
  memBytes_congr n b fun x h1 h2 => by rw [memGet_memPut bs a x h, if_neg (by omega)]

/-! ### Tables -/

@[simp] theorem tblGet_tblSet {α : Type} (t : Tbl α) (a x : Nat) (v : α) :
    tblGet (tblSet t a v) x = if x = a then some v else tblGet t x := by
  induction t with
  | nil => simp only [tblSet, tblGet, eq_comm]
  | cons e t ih =>
    obtain ⟨k, w⟩ := e
    simp only [tblSet]
    split
    · simp only [tblGet, eq_comm]
    · split
      · rename_i h1 h2
        subst h2
        simp only [tblGet, eq_comm]
        split <;> simp_all
      · rename_i h1 h2
        simp only [tblGet, ih]
        split
        · rename_i hk
          subst hk
          rw [if_neg (fun e => h2 e.symm)]
        · rfl

@[simp] theorem tblGetD_tblSet {α : Type} (t : Tbl α) (a x : Nat) (v d : α) :
    tblGetD (tblSet t a v) x d = if x = a then v else tblGetD t x d := by
  simp only [tblGetD, tblGet_tblSet]
  split <;> simp

/-- Every entry after a write was there or is the one written. -/
theorem mem_tblSet {α : Type} {t : Tbl α} {a : Nat} {v : α} {e : Nat × α} (h : e ∈ tblSet t a v) : e = (a, v) ∨ e ∈ t := by
  induction t with
  | nil => simp_all [tblSet]
  | cons x t ih =>
    obtain ⟨k, w⟩ := x
    simp only [tblSet] at h
    split at h
    · simpa using h
    · split at h
      · simp only [List.mem_cons] at h ⊢
        tauto
      · simp only [List.mem_cons] at h ⊢
        rcases h with h | h
        · exact Or.inr (Or.inl h)
        · rcases ih h with h | h
          · exact Or.inl h
          · exact Or.inr (Or.inr h)

/-! ### Lists of memories -/

/-- Changing one memory of a list. -/
theorem modify_wf {f : Mem → Mem} {l : List Mem} {k : Nat} (hf : ∀ m, Memory.wf m = true → Memory.wf (f m) = true)
    (h : ∀ m ∈ l, Memory.wf m = true) : ∀ m ∈ l.modify k f, Memory.wf m = true := by
  intro m hm
  obtain ⟨i, hi, rfl⟩ := List.mem_iff_getElem.1 hm
  rw [List.getElem_modify]
  split
  · exact hf _ (h _ (List.getElem_mem _))
  · exact h _ (List.getElem_mem _)

/-- Changing every memory of a list. -/
theorem mapIdx_wf {f : Nat → Mem → Mem} {l : List Mem} (hf : ∀ k m, Memory.wf m = true → Memory.wf (f k m) = true)
    (h : ∀ m ∈ l, Memory.wf m = true) : ∀ m ∈ l.mapIdx f, Memory.wf m = true := by
  intro m hm
  obtain ⟨i, hi, rfl⟩ := List.mem_mapIdx.1 hm
  exact hf _ _ (h _ (List.getElem_mem _))

/-- A fold of writes. -/
theorem foldl_wf {α : Type} {f : Mem → α → Mem} (hf : ∀ m x, Memory.wf m = true → Memory.wf (f m x) = true) :
    ∀ (l : List α) {m : Mem}, Memory.wf m = true → Memory.wf (l.foldl f m) = true
  | [], _, h => h
  | _ :: l, _, h => foldl_wf hf l (hf _ _ h)

/-- The memory at a key of a table of memories. -/
theorem tblGetD_wf {t : Tbl Mem} (h : ∀ e ∈ t, Memory.wf e.2 = true) (k : Nat) : Memory.wf (tblGetD t k []) = true := by
  induction t with
  | nil => rfl
  | cons e t ih =>
    obtain ⟨a, m⟩ := e
    unfold tblGetD tblGet
    split
    · exact h _ (List.mem_cons_self ..)
    · exact ih fun e he => h e (List.mem_cons_of_mem _ he)

/-- Writing a memory into a table of memories. -/
theorem tblSet_wf {t : Tbl Mem} {k : Nat} {m : Mem} (h : ∀ e ∈ t, Memory.wf e.2 = true) (hm : Memory.wf m = true) :
    ∀ e ∈ tblSet t k m, Memory.wf e.2 = true := by
  intro e he
  rcases mem_tblSet he with rfl | he
  · exact hm
  · exact h e he

/-- A fold over a table of memories. -/
theorem foldlTbl_wf {α : Type} {f : Tbl Mem → α → Tbl Mem}
    (hf : ∀ t x, (∀ e ∈ t, Memory.wf e.2 = true) → ∀ e ∈ f t x, Memory.wf e.2 = true) :
    ∀ (l : List α) {t : Tbl Mem}, (∀ e ∈ t, Memory.wf e.2 = true) → ∀ e ∈ l.foldl f t, Memory.wf e.2 = true
  | [], _, h => h
  | _ :: l, _, h => foldlTbl_wf hf l (hf _ _ h)

/-- Memories with nothing in them. -/
theorem replicate_wf (n : Nat) : ∀ m ∈ List.replicate n ([] : Mem), Memory.wf m = true := by
  intro m h
  rw [List.eq_of_mem_replicate h]
  rfl

/-- The memory at a place of a list of memories. -/
theorem getD_wf {l : List Mem} (h : ∀ m ∈ l, Memory.wf m = true) (k : Nat) : Memory.wf (l.getD k []) = true := by
  rw [List.getD_eq_getElem?_getD]
  cases e : l[k]? with
  | none => rfl
  | some m => exact h m (List.mem_of_getElem? e)

end Sys2Proof.Machine
end

