-- ==== Sys2Proof/Laws/Keeps.lean ====
section
/-! SUPPORT. The calculus of `Keeps`: how it passes through the ways in which a meaning is put together. -/

namespace Sys2Proof.Machine

theorem Keeps.refl (s : State) : Keeps s s := ⟨rfl, rfl, id⟩

theorem Keeps.trans {a b c : State} (h : Keeps a b) (g : Keeps b c) : Keeps a c :=
  ⟨g.pending.trans h.pending, g.fuses.trans h.fuses, fun m => g.mems (h.mems m)⟩

/-- A change that leaves the dies, the staging memories, the queue and the fuses as they are. -/
theorem Keeps.frame {a s t : State} (h : Keeps a s) (hp : t.pending = s.pending) (hf : t.fuses = s.fuses)
    (hd : t.dies = s.dies) (hb : t.boot = s.boot) : Keeps a t :=
  h.trans ⟨hp, by simp only [fixedFuses, hf], fun m => by
    unfold memsOk dieOf at m ⊢
    rw [hd, hb]
    exact m⟩

/-- A change of the start-up state that leaves the staging memories as they are. -/
theorem Keeps.frameBoot {a s t : State} (h : Keeps a s) (hp : t.pending = s.pending) (hf : t.fuses = s.fuses)
    (hd : t.dies = s.dies) (hb : t.boot.staging = s.boot.staging) : Keeps a t :=
  h.trans ⟨hp, by simp only [fixedFuses, hf], fun m => by
    unfold memsOk dieOf at m ⊢
    rw [hd, hb]
    exact m⟩

theorem Keeps.ite {a s t : State} {c : Prop} [Decidable c] (h : Keeps a s) (g : Keeps a t) : Keeps a (if c then s else t) := by
  split
  · exact h
  · exact g

theorem Keeps.fold {α : Type} {a : State} {f : State → α → State} (hf : ∀ s x, Keeps a s → Keeps a (f s x)) :
    ∀ (l : List α) {s : State}, Keeps a s → Keeps a (l.foldl f s)
  | [], _, h => h
  | x :: l, _, h => Keeps.fold hf l (hf _ x h)

theorem dieOf_updDie (d e : DieIx) (f : Die → Die) (s : State) :
    dieOf (updDie d f s) e = if e = d then f (dieOf s d) else dieOf s e := by
  simp only [dieOf, updDie, Vector.getElem_set]
  by_cases h : e = d
  · subst h
    simp
  · rw [if_neg (fun x => h (Fin.ext x.symm)), if_neg h]

theorem Keeps.updDie {a s : State} {d : DieIx} {f : Die → Die} (h : Keeps a s) (hf : ∀ x, dieOk x → dieOk (f x)) :
    Keeps a (updDie d f s) :=
  h.trans ⟨rfl, rfl, fun m => ⟨fun e => by
    rw [dieOf_updDie]
    split
    · exact hf _ (m.1 d)
    · exact m.1 e, m.2⟩⟩

theorem Keeps.mapDies {a s t : State} {f : Die → Die} (h : Keeps a s) (hf : ∀ x, dieOk x → dieOk (f x))
    (hp : t.pending = s.pending) (hu : t.fuses = s.fuses) (hd : t.dies = s.dies.map f) (hb : t.boot = s.boot) : Keeps a t :=
  h.trans ⟨hp, by simp only [fixedFuses, hu], fun m => ⟨fun e => by
    have := hf _ (m.1 e)
    simpa [dieOf, hd] using this, by rw [hb]; exact m.2⟩⟩

theorem dieOk.scratchWf {x : Die} (h : dieOk x) : Memory.wf x.scratch = true := h.1
theorem dieOk.storeWf {x : Die} (h : dieOk x) : Memory.wf x.store = true := h.2.1

/-- A change of a die that leaves its memories as they are. -/
theorem dieOk.frame {x y : Die} (h : dieOk x) (h1 : y.scratch = x.scratch) (h2 : y.store = x.store) (h3 : y.bufs = x.bufs)
    (h4 : y.tiles = x.tiles) (h5 : y.cache = x.cache) (h6 : y.queues = x.queues) : dieOk y := by
  unfold dieOk at h ⊢
  rw [h1, h2, h3, h4, h5, h6]
  exact h

theorem dieOk.scratch {x y : Die} (h : dieOk x) (h1 : Memory.wf y.scratch = true) (h2 : y.store = x.store) (h3 : y.bufs = x.bufs)
    (h4 : y.tiles = x.tiles) (h5 : y.cache = x.cache) (h6 : y.queues = x.queues) : dieOk y := by
  unfold dieOk at h ⊢
  rw [h2, h3, h4, h5, h6]
  exact ⟨h1, h.2⟩

theorem dieOk.store {x y : Die} (h : dieOk x) (h1 : y.scratch = x.scratch) (h2 : Memory.wf y.store = true) (h3 : y.bufs = x.bufs)
    (h4 : y.tiles = x.tiles) (h5 : y.cache = x.cache) (h6 : y.queues = x.queues) : dieOk y := by
  unfold dieOk at h ⊢
  rw [h1, h3, h4, h5, h6]
  exact ⟨h.1, h2, h.2.2⟩

theorem dieOk.bufs {x y : Die} (h : dieOk x) (h1 : y.scratch = x.scratch) (h2 : y.store = x.store)
    (h3 : ∀ m ∈ y.bufs, Memory.wf m = true)
    (h4 : y.tiles = x.tiles) (h5 : y.cache = x.cache) (h6 : y.queues = x.queues) : dieOk y := by
  unfold dieOk at h ⊢
  rw [h1, h2, h4, h5, h6]
  exact ⟨h.1, h.2.1, h3, h.2.2.2⟩

theorem dieOk.queues {x y : Die} (h : dieOk x) (h1 : y.scratch = x.scratch) (h2 : y.store = x.store) (h3 : y.bufs = x.bufs)
    (h4 : y.tiles = x.tiles) (h5 : y.cache = x.cache) (h6 : ∀ q : QueueIx, Memory.wf y.queues[q.val].window = true) : dieOk y := by
  unfold dieOk at h ⊢
  rw [h1, h2, h3, h4, h5]
  exact ⟨h.1, h.2.1, h.2.2.1, h.2.2.2.1, h.2.2.2.2.1, h6⟩

theorem Keeps.updQueue {a s : State} {d : DieIx} {q : QueueIx} {f : Queue → Queue} (h : Keeps a s)
    (hf : ∀ x : Queue, Memory.wf x.window = true → Memory.wf (f x).window = true) : Keeps a (updQueue d q f s) :=
  h.updDie fun x hx => hx.queues rfl rfl rfl rfl rfl fun r => by
    simp only [Vector.getElem_set]
    split
    · exact hf _ (hx.2.2.2.2.2 q)
    · exact hx.2.2.2.2.2 r

theorem Keeps.updPart {a s : State} {p : PartIx} {f : Partition → Partition} (h : Keeps a s) : Keeps a (updPart p f s) :=
  h.frame rfl rfl rfl rfl
theorem Keeps.updPort {a s : State} {p : PortIx} {f : Port → Port} (h : Keeps a s) : Keeps a (updPort p f s) :=
  h.frame rfl rfl rfl rfl
theorem Keeps.updHost {a s : State} {p : HostId} {f : HostPort → HostPort} (h : Keeps a s) : Keeps a (updHost p f s) := by
  cases p <;> exact h.frame rfl rfl rfl rfl
theorem Keeps.updJob {a s : State} {i : Nat} {f : Job → Job} (h : Keeps a s) : Keeps a (updJob i f s) :=
  h.frame rfl rfl rfl rfl

/-- What an issue leaves keeps. -/
def KeepsI (a : State) : Issued → Prop
  | .wait _ _ => True
  | .waitWith _ _ s => Keeps a s
  | .done s => Keeps a s

/-- What a dictionary write leaves keeps. -/
def KeepsE (a : State) : Except Nat State → Prop
  | .ok s => Keeps a s
  | .error _ => True

/-- What a command leaves keeps. -/
def KeepsR (a : State) (r : Result) : Prop := ∀ t, r = .next t → Keeps a t

theorem KeepsR.ok {a s : State} (h : Keeps a s) : KeepsR a (ok s) := by
  intro t e
  cases e
  exact h

theorem KeepsI.ite {a : State} {s t : Issued} {c : Prop} [Decidable c] (h : KeepsI a s) (g : KeepsI a t) : KeepsI a (if c then s else t) := by
  split
  · exact h
  · exact g

theorem KeepsE.ite {a : State} {s t : Except Nat State} {c : Prop} [Decidable c] (h : KeepsE a s) (g : KeepsE a t) :
    KeepsE a (if c then s else t) := by
  split
  · exact h
  · exact g

theorem KeepsI.wait {a : State} {w : Wait} {rs : List SbEntry} : KeepsI a (.wait w rs) := trivial
theorem KeepsI.done {a s : State} (h : Keeps a s) : KeepsI a (.done s) := h
theorem KeepsI.waitWith {a s : State} {w : Wait} {rs : List SbEntry} (h : Keeps a s) : KeepsI a (.waitWith w rs s) := h
theorem KeepsE.ok {a s : State} (h : Keeps a s) : KeepsE a (.ok s) := h
theorem KeepsE.error {a : State} {n : Nat} : KeepsE a (.error n) := trivial

theorem KeepsR.ite {a : State} {s t : Result} {c : Prop} [Decidable c] (h : KeepsR a s) (g : KeepsR a t) : KeepsR a (if c then s else t) := by
  split
  · exact h
  · exact g

/-- The state of a pair keeps. -/
abbrev KeepsP {α : Type} (a : State) (r : α × State) : Prop := Keeps a r.2
theorem KeepsP.mk {α : Type} {a s : State} {x : α} (h : Keeps a s) : KeepsP a (x, s) := h
theorem KeepsP.ite {α : Type} {a : State} {s t : α × State} {c : Prop} [Decidable c] (h : KeepsP a s) (g : KeepsP a t) :
    KeepsP a (if c then s else t) := by
  split
  · exact h
  · exact g

/-- The state of a pair keeps, the state first. -/
abbrev KeepsL {α : Type} (a : State) (r : State × α) : Prop := Keeps a r.1
theorem KeepsL.mk {α : Type} {a s : State} {x : α} (h : Keeps a s) : KeepsL a (s, x) := h
theorem KeepsL.ite {α : Type} {a : State} {s t : State × α} {c : Prop} [Decidable c] (h : KeepsL a s) (g : KeepsL a t) :
    KeepsL a (if c then s else t) := by
  split
  · exact h
  · exact g

/-- The state that may be answered keeps. -/
def KeepsO (a : State) : Option State → Prop
  | some s => Keeps a s
  | none => True
theorem KeepsO.some {a s : State} (h : Keeps a s) : KeepsO a (some s) := h
theorem KeepsO.none {a : State} : KeepsO a none := trivial
theorem KeepsO.ite {a : State} {s t : Option State} {c : Prop} [Decidable c] (h : KeepsO a s) (g : KeepsO a t) :
    KeepsO a (if c then s else t) := by
  split
  · exact h
  · exact g

/-- A record update that leaves the dies, the start-up state, the queue and the fuses as they are. -/
theorem Keeps.upd {a s : State} {pins alarm sec log dict parts jobs hearth fabric ports hostA hostB twin bn bist out held reissue free nextId}
    (h : Keeps a s) : Keeps a ⟨s.fuses, pins, alarm, s.boot, sec, log, dict, parts, s.dies, jobs, hearth, fabric, ports, hostA, hostB,
      twin, bn, bist, out, held, reissue, free, nextId, s.pending⟩ :=
  h.frame rfl rfl rfl rfl

/-- A record update that changes the start-up state but not its staging memories. -/
theorem Keeps.updBoot {a s : State} {pins alarm boot sec log dict parts jobs hearth fabric ports hostA hostB twin bn bist out held reissue free nextId}
    (h : Keeps a s) (hb : boot.staging = s.boot.staging) : Keeps a ⟨s.fuses, pins, alarm, boot, sec, log, dict, parts, s.dies, jobs, hearth,
      fabric, ports, hostA, hostB, twin, bn, bist, out, held, reissue, free, nextId, s.pending⟩ :=
  h.frameBoot rfl rfl rfl hb

/-- A record update that maps the dies. -/
theorem Keeps.updDies {a s : State} {f : Die → Die} {pins alarm sec log dict parts jobs hearth fabric ports hostA hostB twin bn bist out held reissue free nextId}
    (h : Keeps a s) (hf : ∀ x, dieOk x → dieOk (f x)) : Keeps a ⟨s.fuses, pins, alarm, s.boot, sec, log, dict, parts, s.dies.map f, jobs,
      hearth, fabric, ports, hostA, hostB, twin, bn, bist, out, held, reissue, free, nextId, s.pending⟩ :=
  h.mapDies hf rfl rfl rfl rfl

theorem KeepsO.of {a t : State} {o : Option State} (e : o = Option.some t) (h : KeepsO a o) : Keeps a t := by
  subst e
  exact h
theorem KeepsE.of {a t : State} {o : Except Nat State} (e : o = Except.ok t) (h : KeepsE a o) : Keeps a t := by
  subst e
  exact h
theorem KeepsI.of {a t : State} {o : Issued} (e : o = .done t) (h : KeepsI a o) : Keeps a t := by
  subst e
  exact h
theorem KeepsI.ofWait {a t : State} {o : Issued} {w : Wait} {rs : List SbEntry} (e : o = .waitWith w rs t) (h : KeepsI a o) : Keeps a t := by
  subst e
  exact h

/-- The state that comes with a result, where there is one, keeps. -/
def KeepsT {α : Type} (a : State) : Option (α × State) → Prop
  | some x => Keeps a x.2
  | none => True
theorem KeepsT.some {α : Type} {a s : State} {x : α} (h : Keeps a s) : KeepsT a (Option.some (x, s)) := h
theorem KeepsT.none {α : Type} {a : State} : KeepsT (α := α) a Option.none := trivial
theorem KeepsT.ite {α : Type} {a : State} {s t : Option (α × State)} {c : Prop} [Decidable c] (h : KeepsT a s) (g : KeepsT a t) :
    KeepsT a (if c then s else t) := by
  split
  · exact h
  · exact g
theorem KeepsT.of {α : Type} {a t : State} {x : α} {o : Option (α × State)} (e : o = Option.some (x, t)) (h : KeepsT a o) : Keeps a t := by
  subst e
  exact h

/-- A change of a die that keeps the windows of its queues. -/
theorem dieOk.queuesMap {x y : Die} {g : Queue → Queue} (h : dieOk x) (h6 : y.queues = x.queues.map g)
    (h1 : y.scratch = x.scratch) (h2 : y.store = x.store) (h3 : y.bufs = x.bufs) (h4 : y.tiles = x.tiles) (h5 : y.cache = x.cache)
    (hg : ∀ q : Queue, Memory.wf q.window = true → Memory.wf (g q).window = true) : dieOk y :=
  h.queues h1 h2 h3 h4 h5 fun q => by
    rw [h6]
    simpa using hg _ (h.2.2.2.2.2 q)

theorem dieOk.tiles {x y : Die} (h : dieOk x) (h1 : y.scratch = x.scratch) (h2 : y.store = x.store) (h3 : y.bufs = x.bufs)
    (h4 : ∀ e ∈ y.tiles, Memory.wf e.2 = true) (h5 : y.cache = x.cache) (h6 : y.queues = x.queues) : dieOk y := by
  unfold dieOk at h ⊢
  rw [h1, h2, h3, h5, h6]
  exact ⟨h.1, h.2.1, h.2.2.1, h4, h.2.2.2.2⟩

theorem dieOk.cache {x y : Die} (h : dieOk x) (h1 : y.scratch = x.scratch) (h2 : y.store = x.store) (h3 : y.bufs = x.bufs)
    (h4 : y.tiles = x.tiles) (h5 : ∀ e ∈ y.cache, Memory.wf e.2 = true) (h6 : y.queues = x.queues) : dieOk y := by
  unfold dieOk at h ⊢
  rw [h1, h2, h3, h4, h6]
  exact ⟨h.1, h.2.1, h.2.2.1, h.2.2.2.1, h5, h.2.2.2.2.2⟩

theorem Keeps.ident {a s : State} (h : Keeps a s) : Keeps a (id s) := h

theorem Keeps.foldP {α β : Type} {a : State} {f : β × State → α → β × State} (hf : ∀ s x, KeepsP a s → KeepsP a (f s x)) :
    ∀ (l : List α) {s : β × State}, KeepsP a s → KeepsP a (l.foldl f s)
  | [], _, h => h
  | x :: l, _, h => Keeps.foldP hf l (hf _ x h)

end Sys2Proof.Machine
end

