-- ==== Sys2Proof/Laws/KeepsOps.lean ====
section
/-! SUPPORT. One lemma for each shared operation of Machine/Ops, Routes, Completion, Records, Packets, Quench and Issue: it leaves the waiting
commands and the fixed fuses as they are, and every memory in canonical form. -/

set_option linter.unusedTactic false
set_option linter.unreachableTactic false

namespace Sys2Proof.Machine

theorem ok_keeps {s₀ s : State}  (hs : Keeps s₀ s) : KeepsR s₀ (ok s) := by
  unfold ok
  with_reducible repeat' first | assumption | refine KeepsR.ok ?_

theorem takeId_keeps {s₀ s : State}  (hs : Keeps s₀ s) : KeepsP s₀ (takeId s) := by
  unfold takeId
  with_reducible repeat' first | assumption | refine Keeps.upd ?_

theorem freeBytes_keeps {s₀ s : State} {n : Nat} (hs : Keeps s₀ s) : KeepsP s₀ (freeBytes n s) := by
  unfold freeBytes
  with_reducible repeat' first | assumption | refine Keeps.upd ?_

theorem freeBelow_keeps {s₀ s : State} {m : Nat} (hs : Keeps s₀ s) : KeepsP s₀ (freeBelow m s) := by
  unfold freeBelow
  with_reducible repeat' first | assumption | refine Keeps.upd ?_

theorem freeDraw_keeps {s₀ s : State}  (hs : Keeps s₀ s) : KeepsP s₀ (freeDraw s) := by
  unfold freeDraw
  with_reducible repeat' first | assumption | refine Keeps.upd ?_

theorem emit_keeps {s₀ s : State} {o : Output} (hs : Keeps s₀ s) : Keeps s₀ (emit o s) := by
  unfold emit
  with_reducible repeat' first | assumption | refine Keeps.upd ?_

theorem count_keeps {s₀ s : State} {d : DieIx} {i n : Nat} (hs : Keeps s₀ s) : Keeps s₀ (count d i n s) := by
  unfold count
  with_reducible repeat' first | assumption | refine Keeps.updDie ?_ (fun x hx => hx.frame rfl rfl rfl rfl rfl rfl)

theorem msix_keeps {s₀ s : State} {h : HostId} {fn vec : Nat} (hs : Keeps s₀ s) : Keeps s₀ (msix h fn vec s) := by
  unfold msix
  with_reducible repeat' first | assumption | refine Keeps.ite ?_ ?_ | refine Keeps.updHost ?_ | refine emit_keeps ?_

theorem signal_keeps {s₀ s : State} {sv : Nat} {part : Option PartIx} {entry : List Byte} (hs : Keeps s₀ s) : Keeps s₀ (signal sv part entry s) := by
  unfold signal
  with_reducible repeat' first | assumption | refine emit_keeps ?_ | refine msix_keeps ?_ | split | refine Keeps.upd ?_

theorem logEvent_keeps {s₀ s : State} {e : Ev} {a : EvArgs} (hs : Keeps s₀ s) : Keeps s₀ (logEvent e a s) := by
  unfold logEvent
  with_reducible repeat' first | assumption | refine Keeps.updPart ?_ | refine freeBelow_keeps ?_ | refine count_keeps ?_ | refine signal_keeps ?_ | split | refine Keeps.upd ?_

theorem countLate_keeps {s₀ s : State} {d : DieIx} (hs : Keeps s₀ s) : Keeps s₀ (countLate d s) := by
  unfold countLate
  with_reducible repeat' first | assumption | refine count_keeps ?_

theorem logAt_keeps {s₀ s : State} {e : Ev} {d : DieIx} {part : Option PartIx} {unit detail : Nat} (hs : Keeps s₀ s) : Keeps s₀ (logAt e d part unit detail s) := by
  unfold logAt
  with_reducible repeat' first | assumption | refine logEvent_keeps ?_ | split | refine KeepsO.of (by assumption) ?_

theorem logJob_keeps {s₀ s : State} {e : Ev} {j : Job} {at_ : Site} {unit detail : Nat} {skip : Bool} (hs : Keeps s₀ s) : Keeps s₀ (logJob e j at_ unit detail skip s) := by
  unfold logJob
  with_reducible repeat' first | assumption | refine Keeps.updJob ?_ | refine logEvent_keeps ?_ | refine Keeps.updJob ?_

theorem updHandle_keeps {s₀ s : State} {d : DieIx} {h : Nat} {f : Handle → Handle} (hs : Keeps s₀ s) : Keeps s₀ (updHandle d h f s) := by
  unfold updHandle
  with_reducible repeat' first | assumption | refine Keeps.updDie ?_ (fun x hx => hx.frame rfl rfl rfl rfl rfl rfl)

theorem updStore_keeps {s₀ s : State} {d : DieIx} {h : Nat} {f : StoreHandle → StoreHandle} (hs : Keeps s₀ s) : Keeps s₀ (updStore d h f s) := by
  unfold updStore
  with_reducible repeat' first | assumption | refine Keeps.updDie ?_ (fun x hx => hx.frame rfl rfl rfl rfl rfl rfl)

theorem updRing_keeps {s₀ s : State} {d : DieIx} {r : Nat} {f : Ring → Ring} (hs : Keeps s₀ s) : Keeps s₀ (updRing d r f s) := by
  unfold updRing
  with_reducible repeat' first | assumption | refine Keeps.updDie ?_ (fun x hx => hx.frame rfl rfl rfl rfl rfl rfl)

theorem poisonHandle_keeps {s₀ s : State} {d : DieIx} {h : Nat} {e : Ev} (hs : Keeps s₀ s) : Keeps s₀ (poisonHandle d h e s) := by
  unfold poisonHandle
  with_reducible repeat' first | assumption | refine Keeps.ite ?_ ?_ | refine updHandle_keeps ?_

theorem poisonStore_keeps {s₀ s : State} {d : DieIx} {h : Nat} {e : Ev} (hs : Keeps s₀ s) : Keeps s₀ (poisonStore d h e s) := by
  unfold poisonStore
  with_reducible repeat' first | assumption | refine Keeps.ite ?_ ?_ | refine updStore_keeps ?_

theorem poisonDest_keeps {s₀ s : State} {e : Ev} {t : Dest} (hs : Keeps s₀ s) : Keeps s₀ (poisonDest e t s) := by
  unfold poisonDest
  with_reducible repeat' first | assumption | refine Keeps.updDie ?_ (fun x hx => hx.frame rfl rfl rfl rfl rfl rfl) | refine poisonHandle_keeps ?_ | refine poisonStore_keeps ?_ | split | refine Keeps.upd ?_

theorem poisonAll_keeps {s₀ s : State} {e : Ev} {ds : List Dest} (hs : Keeps s₀ s) : Keeps s₀ (poisonAll e ds s) := by
  unfold poisonAll
  with_reducible repeat' first | assumption | refine poisonDest_keeps ?_ | refine Keeps.fold (fun _ _ _ => ?_) _ ?_

theorem putHandle_keeps {s₀ s : State} {d : DieIx} {h o : Nat} {bs : List Byte} (hs : Keeps s₀ s) : Keeps s₀ (putHandle d h o bs s) := by
  unfold putHandle
  exact hs.updDie fun _ hx => hx.scratch (memPut_wf _ _ hx.1) rfl rfl rfl rfl rfl

theorem putStore_keeps {s₀ s : State} {d : DieIx} {h o : Nat} {bs : List Byte} (hs : Keeps s₀ s) : Keeps s₀ (putStore d h o bs s) := by
  unfold putStore
  exact updStore_keeps (hs.updDie fun _ hx => hx.store rfl (memPut_wf _ _ hx.2.1) rfl rfl rfl rfl)

theorem zeroHandle_keeps {s₀ s : State} {d : DieIx} {h : Nat} (hs : Keeps s₀ s) : Keeps s₀ (zeroHandle d h s) := by
  unfold zeroHandle
  exact hs.updDie fun _ hx => hx.scratch (memZero_wf _ _ hx.1) rfl rfl rfl rfl rfl

theorem putBuf_keeps {s₀ s : State} {d : DieIx} {k a : Nat} {bs : List Byte} (hs : Keeps s₀ s) : Keeps s₀ (putBuf d k a bs s) :=
  hs.updDie fun _ hx => hx.bufs rfl rfl (modify_wf (fun _ h => memPut_wf _ _ h) hx.2.2.1) rfl rfl rfl

theorem putScalar_keeps {s₀ s : State} {d : DieIx} {sc v : Nat} (hs : Keeps s₀ s) : Keeps s₀ (putScalar d sc v s) := by
  unfold putScalar
  with_reducible repeat' first | assumption | refine Keeps.updDie ?_ (fun x hx => hx.frame rfl rfl rfl rfl rfl rfl)

theorem setFlagBit_keeps {s₀ s : State} {d : DieIx} {f : Nat} (hs : Keeps s₀ s) : Keeps s₀ (setFlagBit d f s) := by
  unfold setFlagBit
  with_reducible repeat' first | assumption | refine Keeps.updDie ?_ (fun x hx => hx.frame rfl rfl rfl rfl rfl rfl)

theorem clearFlagBit_keeps {s₀ s : State} {d : DieIx} {f : Nat} (hs : Keeps s₀ s) : Keeps s₀ (clearFlagBit d f s) := by
  unfold clearFlagBit
  with_reducible repeat' first | assumption | refine Keeps.updDie ?_ (fun x hx => hx.frame rfl rfl rfl rfl rfl rfl)

theorem updKs_keeps {s₀ s : State} {p : PartIx} {k : Nat} {f : KeySet → KeySet} (hs : Keeps s₀ s) : Keeps s₀ (updKs p k f s) := by
  unfold updKs
  with_reducible repeat' first | assumption | refine Keeps.updPart ?_

theorem wakeDie_keeps {s₀ s : State} {d : DieIx} (hs : Keeps s₀ s) : Keeps s₀ (wakeDie d s) := by
  unfold wakeDie
  with_reducible repeat' first | assumption | refine Keeps.updDie ?_ (fun x hx => hx.frame rfl rfl rfl rfl rfl rfl)

theorem discard_keeps {s₀ s : State} {n : PortIx} {reason : Nat} (hs : Keeps s₀ s) : Keeps s₀ (discard n reason s) := by
  unfold discard
  with_reducible repeat' first | assumption | refine Keeps.updPort ?_

theorem sendMsg_keeps {s₀ s : State} {k : MsgKind} {d : DieIx} {part : Nat} {dst : DieIx} {o : Sent → Output} (hs : Keeps s₀ s) : Keeps s₀ (sendMsg k d part dst o s) := by
  unfold sendMsg
  with_reducible repeat' first | assumption | refine emit_keeps ?_ | refine discard_keeps ?_ | split

theorem sendTwinMsg_keeps {s₀ s : State} {k : MsgKind} {o : Sent → Output} (hs : Keeps s₀ s) : Keeps s₀ (sendTwinMsg k o s) := by
  unfold sendTwinMsg
  with_reducible repeat' first | assumption | refine Keeps.ite ?_ ?_ | refine emit_keeps ?_

theorem deliverCpl_keeps {s₀ s : State} {d : DieIx} {q : QueueIx} {p : PartIx} {c : CplRec} (hs : Keeps s₀ s) : Keeps s₀ (deliverCpl d q p c s) := by
  unfold deliverCpl
  with_reducible repeat' first | assumption | (intro x; subst x) | lift_lets -underBinder | refine Keeps.updQueue ?_ (fun x hx => hx) | refine emit_keeps ?_ | refine msix_keeps ?_ | refine sendMsg_keeps ?_ | split

theorem putCpl_keeps {s₀ s : State} {d : DieIx} {q : QueueIx} {c : Cpl} (hs : Keeps s₀ s) : Keeps s₀ (putCpl d q c s) := by
  unfold putCpl
  with_reducible repeat' first | assumption | (intro x; subst x) | lift_lets -underBinder | refine Keeps.updQueue ?_ (fun x hx => hx) | refine deliverCpl_keeps ?_ | split

theorem flushCplGo_keeps {s₀ : State} {d : DieIx} {q : QueueIx} {p : PartIx} : ∀ (n : Nat) {s : State}, Keeps s₀ s → Keeps s₀ (flushCplGo d q p n s)
  | 0, _, h => h
  | n + 1, s, h => by
    have ih : ∀ {s : State}, Keeps s₀ s → Keeps s₀ (flushCplGo d q p n s) := flushCplGo_keeps n
    unfold flushCplGo
    with_reducible repeat' first | assumption | (intro x; subst x) | lift_lets -underBinder | refine ih ?_ | refine deliverCpl_keeps ?_ | refine Keeps.updQueue ?_ (fun x hx => hx) | split

theorem flushCpl_keeps {s₀ s : State} {d : DieIx} {q : QueueIx} (hs : Keeps s₀ s) : Keeps s₀ (flushCpl d q s) := by
  unfold flushCpl
  with_reducible repeat' first | assumption | refine flushCplGo_keeps _ ?_ | split

theorem finishEvictions_keeps {s₀ s : State} {p : PartIx} (hs : Keeps s₀ s) : Keeps s₀ (finishEvictions p s) := by
  unfold finishEvictions
  with_reducible repeat' first | assumption | refine Keeps.updPart ?_

theorem zeroJobBufs_keeps {s₀ s : State} {id : Nat} (hs : Keeps s₀ s) : Keeps s₀ (zeroJobBufs id s) :=
  hs.updDies fun _ hx => hx.bufs rfl rfl (mapIdx_wf (fun _ _ h => foldl_wf (fun _ _ h => memZero_wf _ _ h) _ h) hx.2.2.1) rfl rfl rfl

theorem removeJob_keeps {s₀ s : State} {id : Nat} (hs : Keeps s₀ s) : Keeps s₀ (removeJob id s) :=
  hs.updDies fun _ hx => hx.queuesMap rfl rfl rfl rfl rfl rfl (fun _ h => h)

theorem finishJob_keeps {s₀ s : State} {id elapsed : Nat} (hs : Keeps s₀ s) : Keeps s₀ (finishJob id elapsed s) := by
  unfold finishJob
  with_reducible repeat' first | assumption | refine logJob_keeps ?_ | refine putCpl_keeps ?_ | refine finishEvictions_keeps ?_ | refine zeroJobBufs_keeps ?_ | refine removeJob_keeps ?_ | split

theorem sendTwinGen_keeps {s₀ s : State} {rtype gen : Nat} {p : PartIx} {tag : Nat} (hs : Keeps s₀ s) : Keeps s₀ (sendTwinGen rtype gen p tag s) := by
  unfold sendTwinGen
  with_reducible repeat' first | assumption | refine sendTwinMsg_keeps ?_ | refine Keeps.upd ?_

theorem sendRows_keeps {s₀ s : State} {p : PartIx} {m : MirrorBody} (hs : Keeps s₀ s) : Keeps s₀ (sendRows p m s) := by
  unfold sendRows
  with_reducible repeat' first | assumption | refine sendTwinMsg_keeps ?_

theorem sendTwin_keeps {s₀ s : State} {rtype : Nat} {p : PartIx} {tag : Nat} (hs : Keeps s₀ s) : Keeps s₀ (sendTwin rtype p tag s) := by
  unfold sendTwin
  with_reducible repeat' first | assumption | refine sendTwinGen_keeps ?_

theorem discardRec_keeps {s₀ s : State}  (hs : Keeps s₀ s) : Keeps s₀ (discardRec s) := by
  unfold discardRec
  with_reducible repeat' first | assumption | refine Keeps.upd ?_

theorem okPacket_keeps {s₀ s : State} {d : DieIx} {q : QueueIx} {b : List Byte} {detail : Nat} (hs : Keeps s₀ s) : Keeps s₀ (okPacket d q b detail s) := by
  unfold okPacket
  with_reducible repeat' first | assumption | refine putCpl_keeps ?_

theorem withholdPacket_keeps {s₀ s : State} {d : DieIx} {q : QueueIx} {e : Ev} {b : List Byte} (hs : Keeps s₀ s) : Keeps s₀ (withholdPacket d q e b s) := by
  unfold withholdPacket
  with_reducible repeat' first | assumption | refine Keeps.ite ?_ ?_ | refine putCpl_keeps ?_

theorem refusePacket_keeps {s₀ s : State} {d : DieIx} {q : QueueIx} {e : Ev} {b : List Byte} (hs : Keeps s₀ s) : Keeps s₀ (refusePacket d q e b s) := by
  unfold refusePacket
  with_reducible repeat' first | assumption | refine logEvent_keeps ?_ | refine withholdPacket_keeps ?_

theorem popLine_keeps {s₀ s : State} {d : DieIx} {q : QueueIx} (hs : Keeps s₀ s) : Keeps s₀ (popLine d q s) := by
  unfold popLine
  with_reducible repeat' first | assumption | refine Keeps.updQueue ?_ (fun x hx => hx)

theorem settleGo_keeps {s₀ : State} {d : DieIx} {q : QueueIx} : ∀ (n : Nat) {s : State}, Keeps s₀ s → Keeps s₀ (settleGo d q n s)
  | 0, _, h => h
  | n + 1, s, h => by
    have ih : ∀ {s : State}, Keeps s₀ s → Keeps s₀ (settleGo d q n s) := settleGo_keeps n
    unfold settleGo
    with_reducible repeat' first | assumption | (intro x; subst x) | lift_lets -underBinder | refine ih ?_ | refine popLine_keeps ?_ | refine refusePacket_keeps ?_ | refine withholdPacket_keeps ?_ | split

theorem stampJob_keeps {s₀ s : State} {j : Job} (hs : Keeps s₀ s) : Keeps s₀ (stampJob s j) := by
  unfold stampJob
  with_reducible repeat' first | assumption | refine Keeps.updJob ?_ | refine finishEvictions_keeps ?_ | refine removeJob_keeps ?_ | refine refusePacket_keeps ?_ | refine settleGo_keeps _ ?_ | refine Keeps.fold (fun _ _ _ => ?_) _ ?_ | split | refine Keeps.upd ?_

theorem stampAll_keeps {s₀ s : State}  (hs : Keeps s₀ s) : Keeps s₀ (stampAll s) := by
  unfold stampAll
  with_reducible repeat' first | assumption | refine stampJob_keeps ?_ | refine Keeps.fold (fun _ _ _ => ?_) _ ?_

theorem settleQueue_keeps {s₀ s : State} {d : DieIx} {q : QueueIx} (hs : Keeps s₀ s) : Keeps s₀ (settleQueue d q s) := by
  unfold settleQueue
  with_reducible repeat' first | assumption | refine finishEvictions_keeps ?_ | refine settleGo_keeps _ ?_ | refine stampAll_keeps ?_ | split

theorem settleDies_keeps {s₀ s : State} {ds : List DieIx} (hs : Keeps s₀ s) : Keeps s₀ (settleDies ds s) := by
  unfold settleDies
  with_reducible repeat' first | assumption | refine settleQueue_keeps ?_ | refine Keeps.fold (fun _ _ _ => ?_) _ ?_

theorem actPacket_keeps {s₀ s : State} {d : DieIx} {q : QueueIx} {type : Nat} {f : List Byte → State → State}
    (hf : ∀ b t, Keeps s₀ t → Keeps s₀ (f b t)) (hs : Keeps s₀ s) : Keeps s₀ (actPacket d q type f s) := by
  unfold actPacket
  split
  · exact hs
  · have h := popLine_keeps (d := d) (q := q) hs
    refine settleQueue_keeps ?_
    split
    · exact hf _ _ h
    · exact refusePacket_keeps h

theorem holdQueue_keeps {s₀ s : State} {d : DieIx} {q : QueueIx} {h : Hold} {b : List Byte} (hs : Keeps s₀ s) : Keeps s₀ (holdQueue d q h b s) := by
  unfold holdQueue
  with_reducible repeat' first | assumption | refine Keeps.updQueue ?_ (fun x hx => hx)

theorem releaseQueue_keeps {s₀ s : State} {d : DieIx} {q : QueueIx} (hs : Keeps s₀ s) : Keeps s₀ (releaseQueue d q s) := by
  unfold releaseQueue
  with_reducible repeat' first | assumption | refine Keeps.updQueue ?_ (fun x hx => hx) | refine settleQueue_keeps ?_

theorem endBlock_keeps {s₀ s : State} {d : DieIx} {f : Nat} {q : QueueIx} (hs : Keeps s₀ s) : Keeps s₀ (endBlock d f q s) := by
  unfold endBlock
  with_reducible repeat' first | assumption | refine clearFlagBit_keeps ?_ | refine okPacket_keeps ?_ | refine releaseQueue_keeps ?_ | split

theorem signalFlag_keeps {s₀ s : State} {d : DieIx} {f : Nat} (hs : Keeps s₀ s) : Keeps s₀ (signalFlag d f s) := by
  unfold signalFlag
  with_reducible repeat' first | assumption | refine setFlagBit_keeps ?_ | refine endBlock_keeps ?_ | refine Keeps.fold (fun _ _ _ => ?_) _ ?_

theorem takePacket_keeps {s₀ s : State} {d : DieIx} {q : QueueIx} {b : List Byte} (hs : Keeps s₀ s) : Keeps s₀ (takePacket d q b s) := by
  unfold takePacket
  with_reducible repeat' first | assumption | refine Keeps.ite ?_ ?_ | refine Keeps.updQueue ?_ (fun x hx => hx) | refine withholdPacket_keeps ?_

theorem readGo_keeps {s₀ : State} {d : DieIx} {q : QueueIx} : ∀ (n : Nat) {s : State}, Keeps s₀ s → Keeps s₀ (readGo d q n s)
  | 0, _, h => h
  | n + 1, s, h => by
    have ih : ∀ {s : State}, Keeps s₀ s → Keeps s₀ (readGo d q n s) := readGo_keeps n
    unfold readGo
    with_reducible repeat' first | assumption | refine Keeps.ite ?_ ?_ | refine ih ?_ | refine takePacket_keeps ?_ | refine Keeps.updQueue ?_ (fun x hx => hx)

theorem readQueue_keeps {s₀ s : State} {d : DieIx} {q : QueueIx} (hs : Keeps s₀ s) : Keeps s₀ (readQueue d q s) := by
  unfold readQueue
  with_reducible repeat' first | assumption | refine settleQueue_keeps ?_ | refine readGo_keeps _ ?_

theorem spoilRows_wf {ys : List Op} {d : DieIx} {k row rows draw : Nat} {m : Mem} (h : Memory.wf m = true) :
    Memory.wf (spoilRows ys d k row rows draw m) = true := by
  unfold spoilRows
  refine foldl_wf (fun m i h => ?_) _ h
  split
  · exact h
  · exact freeMem_wf _ _ _ h

theorem spoilDest_keeps {s₀ s : State} {ys : List Op} {t : Dest} (hs : Keeps s₀ s) : Keeps s₀ (spoilDest ys t s) := by
  cases t with
  | handle d h =>
    unfold spoilDest
    refine Keeps.ite (zeroHandle_keeps hs) (Keeps.upd ?_)
    exact hs.updDie fun _ hx => hx.scratch (freeMem_wf _ _ _ hx.1) rfl rfl rfl rfl rfl
  | store d h =>
    exact Keeps.upd (updStore_keeps (hs.updDie fun _ hx => hx.store rfl (freeMem_wf _ _ _ hx.2.1) rfl rfl rfl rfl))
  | slot d k =>
    unfold spoilDest
    exact Keeps.ite hs (Keeps.updDie (freeBytes_keeps (n := 64) hs) fun _ hx => hx.frame rfl rfl rfl rfl rfl rfl)
  | region d mask row rows =>
    refine Keeps.upd (hs.updDie fun x hx => hx.bufs rfl rfl (mapIdx_wf (fun k m h => ?_) hx.2.2.1) rfl rfl rfl)
    split
    · exact spoilRows_wf h
    · exact h
  | tile d g z =>
    exact Keeps.upd (hs.updDie fun _ hx => hx.tiles rfl rfl rfl (tblSet_wf hx.2.2.2.1 (freeMem_wf _ _ _ rfl)) rfl rfl)
  | cache d g line n =>
    refine Keeps.upd (hs.updDie fun x hx => hx.cache rfl rfl rfl rfl ?_ rfl)
    exact foldlTbl_wf (fun t i h => tblSet_wf h (freeMem_wf _ _ _ rfl)) _ hx.2.2.2.2.1
  | scalar d sc => exact Keeps.upd (hs.updDie fun _ hx => hx.frame rfl rfl rfl rfl rfl rfl)
  | ring _ _ | palette _ _ | bnSlot _ _ | window _ _ | host => exact hs

theorem spoilSlots_keeps {s₀ s : State} {d : DieIx} {o : Op} (hs : Keeps s₀ s) : Keeps s₀ (spoilSlots d o s) := by
  unfold spoilSlots
  refine Keeps.fold (fun s f h => ?_) _ hs
  refine Keeps.upd ?_
  exact h.updDie fun _ hx => hx.scratch (freeMem_wf _ _ _ hx.1) rfl rfl rfl rfl rfl

theorem resetRing_keeps {s₀ s : State} {d : DieIx} {e : Ev} {r : Nat} (hs : Keeps s₀ s) : Keeps s₀ (resetRing d e r s) := by
  unfold resetRing
  with_reducible repeat' first | assumption | refine Keeps.updDie ?_ (fun x hx => hx.frame rfl rfl rfl rfl rfl rfl) | refine updRing_keeps ?_ | refine poisonHandle_keeps ?_

theorem setGroup_keeps {s₀ s : State} {d : DieIx} {id g : Nat} (hs : Keeps s₀ s) : Keeps s₀ (setGroup d id g s) := by
  unfold setGroup
  with_reducible repeat' first | assumption | refine Keeps.updDie ?_ (fun x hx => hx.frame rfl rfl rfl rfl rfl rfl)

theorem sendGroup_keeps {s₀ s : State} {h : HostId} {d : DieIx} {o : Op} (hs : Keeps s₀ s) : Keeps s₀ (sendGroup h d o s) := by
  unfold sendGroup
  with_reducible repeat' first | assumption | refine Keeps.updHost ?_ | refine emit_keeps ?_ | refine sendMsg_keeps ?_ | refine setGroup_keeps ?_ | split | refine Keeps.upd ?_

theorem sendBench_keeps {s₀ s : State} {h : HostId} (hs : Keeps s₀ s) : Keeps s₀ (sendBench h s) := by
  unfold sendBench
  with_reducible repeat' first | assumption | refine Keeps.updHost ?_ | refine emit_keeps ?_ | split | refine Keeps.upd ?_

theorem sendWaiting_keeps {s₀ s : State} {h : HostId} (hs : Keeps s₀ s) : Keeps s₀ (sendWaiting h s) := by
  unfold sendWaiting
  with_reducible repeat' first | assumption | refine sendGroup_keeps ?_ | refine sendBench_keeps ?_ | split

theorem dropOp_keeps {s₀ s : State} {d : DieIx} {id : Nat} (hs : Keeps s₀ s) : Keeps s₀ (dropOp d id s) := by
  unfold dropOp
  with_reducible repeat' first | assumption | refine Keeps.ite ?_ ?_ | refine Keeps.updDie ?_ (fun x hx => hx.frame rfl rfl rfl rfl rfl rfl) | refine sendWaiting_keeps ?_ | refine Keeps.upd ?_

theorem dropClaims_keeps {s₀ s : State} {d : DieIx} {e : Ev} {o : Op} (hs : Keeps s₀ s) : Keeps s₀ (dropClaims d e o s) := by
  unfold dropClaims
  with_reducible repeat' first | assumption | refine resetRing_keeps ?_ | refine Keeps.fold (fun _ _ _ => ?_) _ ?_

theorem abortOp_keeps {s₀ s : State} {d : DieIx} {e : Ev} {o : Op} (hs : Keeps s₀ s) : Keeps s₀ (abortOp d e o s) := by
  unfold abortOp
  with_reducible repeat' first | assumption | refine poisonAll_keeps ?_ | refine spoilDest_keeps ?_ | refine spoilSlots_keeps ?_ | refine dropOp_keeps ?_ | refine dropClaims_keeps ?_ | refine Keeps.fold (fun _ _ _ => ?_) _ ?_

theorem zeroBnSlots_keeps {s₀ s : State} {f : Nat → BnSlot → Bool} (hs : Keeps s₀ s) : Keeps s₀ (zeroBnSlots f s) := by
  unfold zeroBnSlots
  with_reducible repeat' first | assumption | refine Keeps.upd ?_

theorem abortBn_keeps {s₀ s : State} {id : Nat} (hs : Keeps s₀ s) : Keeps s₀ (abortBn id s) := by
  unfold abortBn
  with_reducible repeat' first | assumption | refine zeroBnSlots_keeps ?_ | split | refine Keeps.upd ?_

theorem zeroJobSecrets_keeps {s₀ s : State} {j : Job} (hs : Keeps s₀ s) : Keeps s₀ (zeroJobSecrets j s) := by
  unfold zeroJobSecrets
  with_reducible repeat' first | assumption | refine Keeps.ite ?_ ?_ | refine zeroHandle_keeps ?_ | refine zeroBnSlots_keeps ?_ | refine Keeps.fold (fun _ _ _ => ?_) _ ?_

theorem quenchJob_keeps {s₀ s : State} {id : Nat} {e : Ev} {cancel : Bool} (hs : Keeps s₀ s) : Keeps s₀ (quenchJob id e cancel s) := by
  unfold quenchJob
  with_reducible repeat' first | assumption | refine Keeps.updJob ?_ | refine freeDraw_keeps ?_ | refine poisonAll_keeps ?_ | refine finishJob_keeps ?_ | refine abortOp_keeps ?_ | refine abortBn_keeps ?_ | refine zeroJobSecrets_keeps ?_ | refine Keeps.fold (fun _ _ _ => ?_) _ ?_ | split | refine Keeps.upd ?_

theorem quenchJobs_keeps {s₀ s : State} {ids : List Nat} {e : Ev} (hs : Keeps s₀ s) : Keeps s₀ (quenchJobs ids e s) := by
  unfold quenchJobs
  with_reducible repeat' first | assumption | refine quenchJob_keeps ?_ | refine Keeps.fold (fun _ _ _ => ?_) _ ?_

theorem dropPatch_keeps {s₀ s : State} {d : DieIx} {h : Option Hold} (hs : Keeps s₀ s) : Keeps s₀ (dropPatch d h s) := by
  unfold dropPatch
  with_reducible repeat' first | assumption | refine Keeps.updPart ?_ | split

theorem drainQueue_keeps {s₀ s : State} {d : DieIx} {q : QueueIx} {e : Ev} (hs : Keeps s₀ s) : Keeps s₀ (drainQueue d q e s) := by
  unfold drainQueue
  with_reducible repeat' first | assumption | refine Keeps.updQueue ?_ (fun x hx => hx) | refine withholdPacket_keeps ?_ | refine dropPatch_keeps ?_ | refine Keeps.fold (fun _ _ _ => ?_) _ ?_ | split

theorem dropImport_keeps {s₀ s : State} {p : PartIx} {im : Import} (hs : Keeps s₀ s) : Keeps s₀ (dropImport p im s) := by
  unfold dropImport
  with_reducible repeat' first | assumption | refine Keeps.ite ?_ ?_ | refine Keeps.updPart ?_ | refine updKs_keeps ?_ | refine sendTwin_keeps ?_

theorem zeroPartSecrets_keeps {s₀ s : State} {p : PartIx} (hs : Keeps s₀ s) : Keeps s₀ (zeroPartSecrets p s) := by
  unfold zeroPartSecrets
  refine Keeps.updPart (Keeps.upd (zeroBnSlots_keeps (Keeps.fold (fun s d h => ?_) _ (Keeps.fold (fun s d h => ?_) _ hs))))
  · exact h.updDie fun _ hx => hx.bufs rfl rfl (mapIdx_wf (fun _ _ h => foldl_wf (fun _ _ h => memZero_wf _ _ h) _ h) hx.2.2.1) rfl rfl rfl
  · exact Keeps.fold (fun _ _ h => zeroHandle_keeps h) _ h

theorem quenchPartition_keeps {s₀ s : State} {p : PartIx} {e : Ev} {restart : Bool} (hs : Keeps s₀ s) : Keeps s₀ (quenchPartition p e restart s) := by
  unfold quenchPartition
  with_reducible repeat' first | assumption | refine Keeps.updDie ?_ (fun _ hx => hx.queuesMap rfl rfl rfl rfl rfl rfl (fun _ h => h)) | refine Keeps.updDie ?_ (fun x hx => hx.frame rfl rfl rfl rfl rfl rfl) | refine Keeps.updPart ?_ | refine finishEvictions_keeps ?_ | refine quenchJob_keeps ?_ | refine drainQueue_keeps ?_ | refine dropImport_keeps ?_ | refine zeroPartSecrets_keeps ?_ | refine Keeps.fold (fun _ _ _ => ?_) _ ?_ | refine Keeps.upd ?_

theorem zeroDeviceSecrets_keeps {s₀ s : State}  (hs : Keeps s₀ s) : Keeps s₀ (zeroDeviceSecrets s) := by
  unfold zeroDeviceSecrets
  with_reducible repeat' first | assumption | refine zeroPartSecrets_keeps ?_ | refine Keeps.fold (fun _ _ _ => ?_) _ ?_ | refine Keeps.upd ?_

theorem quenchDevice_keeps {s₀ s : State} {e : Ev} {src : QuenchSource} (hs : Keeps s₀ s) : Keeps s₀ (quenchDevice e src s) := by
  unfold quenchDevice
  with_reducible repeat' first | assumption | refine Keeps.ite ?_ ?_ | refine quenchPartition_keeps ?_ | refine zeroDeviceSecrets_keeps ?_ | refine Keeps.fold (fun _ _ _ => ?_) _ ?_ | refine Keeps.upd ?_

theorem deviceFail_keeps {s₀ s : State} {e : Ev} {d : DieIx} {unit detail : Nat} (hs : Keeps s₀ s) : Keeps s₀ (deviceFail e d unit detail s) := by
  unfold deviceFail
  with_reducible repeat' first | assumption | refine logAt_keeps ?_ | refine quenchDevice_keeps ?_

theorem holdOutRow_keeps {s₀ s : State} {d : DieIx} {row : Nat} (hs : Keeps s₀ s) : Keeps s₀ (holdOutRow d row s) := by
  unfold holdOutRow
  with_reducible repeat' first | assumption | refine Keeps.updDie ?_ (fun x hx => hx.frame rfl rfl rfl rfl rfl rfl) | refine count_keeps ?_ | refine Keeps.upd ?_

theorem holdOutStack_keeps {s₀ s : State} {d : DieIx} {row : Nat} (hs : Keeps s₀ s) : Keeps s₀ (holdOutStack d row s) := by
  unfold holdOutStack
  with_reducible repeat' first | assumption | refine Keeps.updDie ?_ (fun x hx => hx.frame rfl rfl rfl rfl rfl rfl) | refine count_keeps ?_ | refine Keeps.upd ?_

theorem passSite_keeps {s₀ s : State} {a : Site} (hs : Keeps s₀ s) : Keeps s₀ (passSite a s) := by
  unfold passSite
  with_reducible repeat' first | assumption | refine Keeps.ite ?_ ?_ | refine Keeps.updQueue ?_ (fun x hx => hx)

theorem holdInstr_keeps {s₀ s : State} {j : Nat} {at_ : Site} {i : Instr} {w : Wait} {rs : List SbEntry} (hs : Keeps s₀ s) : Keeps s₀ (holdInstr j at_ i w rs s) := by
  unfold holdInstr
  with_reducible repeat' first | assumption | split | refine Keeps.upd ?_

theorem unhold_keeps {s₀ s : State}  (hs : Keeps s₀ s) : Keeps s₀ (unhold s) := by
  unfold unhold
  with_reducible repeat' first | assumption | split | refine Keeps.upd ?_

theorem readyHeads_keeps {s₀ s : State}  (hs : Keeps s₀ s) : Keeps s₀ (readyHeads s) := by
  unfold readyHeads
  with_reducible repeat' first | assumption | refine Keeps.upd ?_

theorem runInstr_keeps {s₀ s : State} {at_ : Site} {i : Instr} {f : Job → State → Issued}
    (hf : ∀ j t, Keeps s₀ t → KeepsI s₀ (f j t)) (hs : Keeps s₀ s) : Keeps s₀ (runInstr at_ i f s) := by
  unfold runInstr
  have hp := passSite_keeps (a := at_) hs
  generalize passSite at_ s = t at hp
  change Keeps s₀ (match siteJob t at_ with | none => t | some j => _)
  split
  · exact hp
  · refine Keeps.ite ?_ ?_
    · split
      · exact hp
      · exact holdInstr_keeps hp
    · rename_i j _
      have h := hf j _ (unhold_keeps hp)
      split
      · exact holdInstr_keeps hp
      · rename_i e
        have h' := KeepsI.ofWait e h
        exact Keeps.ite h' (holdInstr_keeps (Keeps.upd h'))
      · rename_i e
        exact KeepsI.of e h

theorem logOnce_keeps {s₀ s : State} {e : Ev} {n : Nat} {j : Job} {at_ : Site} {unit : Nat} (hs : Keeps s₀ s) : Keeps s₀ (logOnce e n j at_ unit s) := by
  unfold logOnce
  with_reducible repeat' first | assumption | refine Keeps.ite ?_ ?_ | refine count_keeps ?_ | refine logJob_keeps ?_

theorem countIndexes_keeps {s₀ s : State} {j : Job} {at_ : Site} {unit n : Nat} (hs : Keeps s₀ s) : Keeps s₀ (countIndexes j at_ unit n s) := by
  unfold countIndexes
  with_reducible repeat' first | assumption | refine count_keeps ?_ | refine logOnce_keeps ?_

theorem countStalls_keeps {s₀ s : State} {j : Job} {at_ : Site} {unit : Nat} (hs : Keeps s₀ s) : Keeps s₀ (countStalls j at_ unit s) := by
  unfold countStalls
  with_reducible repeat' first | assumption | refine freeDraw_keeps ?_ | refine count_keeps ?_ | refine logOnce_keeps ?_

theorem nameDests_keeps {s₀ s : State} {j : Nat} {ds : List Dest} (hs : Keeps s₀ s) : Keeps s₀ (nameDests j ds s) := by
  unfold nameDests
  with_reducible repeat' first | assumption | refine Keeps.updJob ?_

theorem skipInstr_keeps {s₀ s : State} {e : Ev} {j : Job} {at_ : Site} {unit : Nat} {ds : List Dest} (hs : Keeps s₀ s) : Keeps s₀ (skipInstr e j at_ unit ds s) := by
  unfold skipInstr
  with_reducible repeat' first | assumption | refine Keeps.updJob ?_ | refine logJob_keeps ?_ | refine poisonAll_keeps ?_ | refine nameDests_keeps ?_

theorem refuseInstr_keeps {s₀ s : State} {e pe : Ev} {j : Job} {at_ : Site} {unit : Nat} {ds : List Dest} (hs : Keeps s₀ s) : Keeps s₀ (refuseInstr e pe j at_ unit ds s) := by
  unfold refuseInstr
  with_reducible repeat' first | assumption | refine logJob_keeps ?_ | refine poisonAll_keeps ?_ | refine quenchJob_keeps ?_ | refine nameDests_keeps ?_

theorem countEntryWait_keeps {s₀ s : State} {d : DieIx} (hs : Keeps s₀ s) : Keeps s₀ (countEntryWait d s) := by
  unfold countEntryWait
  with_reducible repeat' first | assumption | refine freeDraw_keeps ?_ | refine count_keeps ?_ | split

theorem withScoreboard_keeps {s₀ s : State} {d : DieIx} {rs : List SbEntry} {k : List SbEntry → State → Issued}
    (hk : ∀ es t, Keeps s₀ t → KeepsI s₀ (k es t)) (hs : Keeps s₀ s) : KeepsI s₀ (withScoreboard d rs s k) := by
  unfold withScoreboard
  split
  · trivial
  · exact hk _ _ (countEntryWait_keeps (count_keeps hs))

theorem startOp_keeps {s₀ s : State} {d : DieIx} {o : Op} {es : List SbEntry} (hs : Keeps s₀ s) : Keeps s₀ (startOp d o es s) := by
  unfold startOp
  with_reducible repeat' first | assumption | refine Keeps.updDie ?_ (fun x hx => hx.frame rfl rfl rfl rfl rfl rfl) | refine nameDests_keeps ?_ | refine Keeps.upd ?_

theorem claimTakes_keeps {s₀ s : State} {d : DieIx} {us : List (Nat × Bool)} (hs : Keeps s₀ s) : Keeps s₀ (claimTakes d us s) := by
  unfold claimTakes
  with_reducible repeat' first | assumption | refine Keeps.ite ?_ ?_ | refine updRing_keeps ?_ | refine Keeps.fold (fun _ _ _ => ?_) _ ?_

theorem fillSlot_keeps {s₀ s : State} {d : DieIx} {r c : Nat} (hs : Keeps s₀ s) : Keeps s₀ (fillSlot d r c s) := by
  unfold fillSlot
  with_reducible repeat' first | assumption | refine updRing_keeps ?_

theorem releaseSlot_keeps {s₀ s : State} {d : DieIx} {r c : Nat} (hs : Keeps s₀ s) : Keeps s₀ (releaseSlot d r c s) := by
  unfold releaseSlot
  with_reducible repeat' first | assumption | refine updRing_keeps ?_

end Sys2Proof.Machine
end

