-- ==== Sys2Proof/Laws/KeepsEngines.lean ====
section
/-! SUPPORT. One lemma for each shared operation of Machine/Operands, Desc, Engines, TensorEngine, Vector and Update: it leaves the waiting commands
and the fixed fuses as they are, and every memory in canonical form. -/

set_option linter.unusedTactic false
set_option linter.unreachableTactic false

namespace Sys2Proof.Machine

theorem skipQuench_keeps {s₀ s : State} {e : Ev} {j : Job} {at_ : Site} {unit : Nat} {ds : List Dest} (hs : Keeps s₀ s) : Keeps s₀ (skipQuench e j at_ unit ds s) := by
  unfold skipQuench
  with_reducible repeat' first | assumption | refine quenchJob_keeps ?_ | refine skipInstr_keeps ?_

theorem onVerdict_keeps {s₀ s : State} {v : Verdict} {j : Job} {at_ : Site} {unit : Nat} {ds : List Dest} {k : State → State}
    (hk : ∀ t, Keeps s₀ t → Keeps s₀ (k t)) (hs : Keeps s₀ s) : Keeps s₀ (onVerdict v j at_ unit ds s k) := by
  unfold onVerdict
  split
  · exact hk _ hs
  · exact skipInstr_keeps hs
  · exact refuseInstr_keeps hs
  · exact skipQuench_keeps hs

theorem putRegionLimb_keeps {s₀ s : State} {d : DieIx} {cs : List Nat} {row n limbs p i : Nat} {l : Limb} (hs : Keeps s₀ s) : Keeps s₀ (putRegionLimb d cs row n limbs p i l s) := by
  unfold putRegionLimb
  with_reducible repeat' first | assumption | refine putBuf_keeps ?_

theorem markRegion_keeps {s₀ s : State} {d : DieIx} {cs : List Nat} {job row n parts limbs : Nat} (hs : Keeps s₀ s) : Keeps s₀ (markRegion d cs job row n parts limbs s) := by
  unfold markRegion
  with_reducible repeat' first | assumption | refine Keeps.updDie ?_ (fun x hx => hx.frame rfl rfl rfl rfl rfl rfl)

theorem putObj_keeps {s₀ s : State} {d : DieIx} {cs : List Nat} {l : Loc} {h : Header} {b : PolyBody} (hs : Keeps s₀ s) : Keeps s₀ (putObj d cs l h b s) := by
  unfold putObj
  with_reducible repeat' first | assumption | refine Keeps.updDie ?_ (fun x hx => hx.frame rfl rfl rfl rfl rfl rfl) | refine putHandle_keeps ?_ | refine putRegionLimb_keeps ?_ | refine Keeps.fold (fun _ _ _ => ?_) _ ?_ | split

theorem putHead_keeps {s₀ s : State} {d : DieIx} {l : Loc} {h : Header} (hs : Keeps s₀ s) : Keeps s₀ (putHead d l h s) := by
  unfold putHead
  with_reducible repeat' first | assumption | refine Keeps.updDie ?_ (fun x hx => hx.frame rfl rfl rfl rfl rfl rfl) | refine putHandle_keeps ?_ | split

theorem drawStreams_keeps {s₀ s : State} {p : PartIx} {slot : Nat} {j : Job} {h : Header} {n : Nat} (hs : Keeps s₀ s) : Keeps s₀ (drawStreams p slot j h n s) := by
  unfold drawStreams
  with_reducible repeat' first | assumption | refine Keeps.ite ?_ ?_ | refine Keeps.updJob ?_ | refine updKs_keeps ?_

theorem updSpace_keeps {s₀ s : State} {t : Desc} {f : Mem → Mem} (hf : ∀ m, Memory.wf m = true → Memory.wf (f m) = true)
    (hs : Keeps s₀ s) : Keeps s₀ (updSpace t f s) := by
  refine hs.updDie fun x hx => ?_
  split
  · exact hx.store rfl (hf _ hx.2.1) rfl rfl rfl rfl
  · exact hx.scratch (hf _ hx.1) rfl rfl rfl rfl rfl

theorem touchDigest_keeps {s₀ s : State} {t : Desc} (hs : Keeps s₀ s) : Keeps s₀ (touchDigest t s) := by
  unfold touchDigest
  with_reducible repeat' first | assumption | refine Keeps.ite ?_ ?_ | refine updStore_keeps ?_

theorem writeElem_wf {m : Mem} {base : Nat} {t : Desc} {off : Int} {v : Nat} (h : Memory.wf m = true) :
    Memory.wf (writeElem m base t off v) = true := by
  unfold writeElem
  split
  · exact memSet_wf _ _ h
  · exact memPut_wf _ _ h

theorem writeElems_keeps {s₀ s : State} {t : Desc} {slot : Nat} {xs : List (Int × Nat)} (hs : Keeps s₀ s) :
    Keeps s₀ (writeElems t slot xs s) := by
  unfold writeElems
  exact touchDigest_keeps (updSpace_keeps (fun _ h => foldl_wf (fun _ _ h => writeElem_wf h) _ h) hs)

theorem writeScales_keeps {s₀ s : State} {t : Desc} {slot : Nat} {xs : List (Nat × Nat)} (hs : Keeps s₀ s) :
    Keeps s₀ (writeScales t slot xs s) := by
  unfold writeScales
  exact Keeps.ite (touchDigest_keeps (updSpace_keeps (fun _ h => foldl_wf (fun _ _ h => memSet_wf _ _ h) _ h) hs)) hs

theorem issueDset_keeps {s₀ s : State} {at_ : Site} {index handle offset : Nat} {j : Job} (hs : Keeps s₀ s) : KeepsI s₀ (issueDset at_ index handle offset j s) := by
  unfold issueDset
  with_reducible repeat' first | assumption | (intro x; subst x) | lift_lets -underBinder | refine KeepsI.done ?_ | refine Keeps.updDie ?_ (fun x hx => hx.frame rfl rfl rfl rfl rfl rfl) | refine refuseInstr_keeps ?_ | refine withScoreboard_keeps (fun _ _ _ => ?_) ?_ | refine skipQuench_keeps ?_ | split

theorem recordPalette_keeps {s₀ s : State} {d : DieIx} {e : Nat} {vs : List FV} {sat : Bool} (hs : Keeps s₀ s) : Keeps s₀ (recordPalette d e vs sat s) := by
  unfold recordPalette
  with_reducible repeat' first | assumption | refine Keeps.updDie ?_ (fun x hx => hx.frame rfl rfl rfl rfl rfl rfl)

theorem countNans_keeps {s₀ s : State} {j : Job} {at_ : Site} {unit n : Nat} (hs : Keeps s₀ s) : Keeps s₀ (countNans j at_ unit n s) := by
  unfold countNans
  with_reducible repeat' first | assumption | refine Keeps.ite ?_ ?_ | refine Keeps.updQueue ?_ (fun x hx => hx) | refine logJob_keeps ?_

theorem writeConv_keeps {s₀ s : State} {j : Job} {at_ : Site} {unit : Nat} {t : Desc} {o : ConvOut} (hs : Keeps s₀ s) : Keeps s₀ (writeConv j at_ unit t o s) := by
  unfold writeConv
  with_reducible repeat' first | assumption | refine logJob_keeps ?_ | refine writeElems_keeps ?_ | refine writeScales_keeps ?_ | refine countNans_keeps ?_ | refine Keeps.fold (fun _ _ _ => ?_) _ ?_

theorem saturate_keeps {s₀ s : State} {j : Job} {at_ : Site} {unit : Nat} {ds : List Dest} {takes : List (Nat × Nat)} {i : Nat} (hs : Keeps s₀ s) : Keeps s₀ (saturate j at_ unit ds takes i s) := by
  unfold saturate
  with_reducible repeat' first | assumption | refine logJob_keeps ?_ | refine poisonAll_keeps ?_ | refine resetRing_keeps ?_ | refine quenchJob_keeps ?_ | refine nameDests_keeps ?_ | refine Keeps.fold (fun _ _ _ => ?_) _ ?_

theorem readClearPalette_keeps {s₀ s : State} {d : DieIx} {e sc : Nat} (hs : Keeps s₀ s) : Keeps s₀ (readClearPalette d e sc s) := by
  unfold readClearPalette
  with_reducible repeat' first | assumption | refine Keeps.updDie ?_ (fun x hx => hx.frame rfl rfl rfl rfl rfl rfl) | refine putScalar_keeps ?_

theorem issueRead_keeps {s₀ s : State} {d : DieIx} {sc : Nat} {f : State → State} {j : Job} (hf : ∀ t, Keeps s₀ t → Keeps s₀ (f t))
    (hs : Keeps s₀ s) : KeepsI s₀ (issueRead d sc f j s) :=
  KeepsI.ite trivial (hf _ hs)

theorem runTmul_keeps {s₀ s : State} {at_ : Site} {g : TmulArgs} {j : Job} {slots : List Nat} {us : List (Nat × Bool)} {es : List SbEntry} (hs : Keeps s₀ s) : Keeps s₀ (runTmul at_ g j slots us es s) := by
  unfold runTmul
  with_reducible repeat' first | assumption | (intro x; subst x) | lift_lets -underBinder | refine startOp_keeps ?_ | refine claimTakes_keeps ?_ | refine writeElems_keeps ?_ | refine recordPalette_keeps ?_ | refine writeConv_keeps ?_ | refine saturate_keeps ?_ | split

theorem issueTmul_keeps {s₀ s : State} {at_ : Site} {g : TmulArgs} {j : Job} (hs : Keeps s₀ s) : KeepsI s₀ (issueTmul at_ g j s) := by
  unfold issueTmul
  with_reducible repeat' first | assumption | (intro x; subst x) | lift_lets -underBinder | exact KeepsI.wait | refine KeepsI.done ?_ | refine withScoreboard_keeps (fun _ _ _ => ?_) ?_ | refine onVerdict_keeps (fun _ _ => ?_) ?_ | refine runTmul_keeps ?_ | refine Keeps.ident ?_ | split

theorem cacheSet_wf {g : Fin 2} {line : Nat} {c : Tbl Mem} {x : Nat × Byte} (h : ∀ e ∈ c, Memory.wf e.2 = true) :
    ∀ e ∈ cacheSet g line c x, Memory.wf e.2 = true :=
  tblSet_wf h (memSet_wf _ _ (tblGetD_wf h _))

theorem vWrite_keeps {s₀ s : State} {d : DieIx} {g : Fin 2} {f : VFmt} {xs : List (Nat × Nat)} {op : VOp} (hs : Keeps s₀ s) :
    Keeps s₀ (vWrite d g f xs op s) := by
  unfold vWrite
  refine Keeps.ite hs ?_
  split
  · exact hs.updDie fun _ hx => hx.tiles rfl rfl rfl (tblSet_wf hx.2.2.2.1 (foldl_wf (fun _ _ h => memPut_wf _ _ h) _ (tblGetD_wf hx.2.2.2.1 _))) rfl rfl
  · exact hs.updDie fun _ hx => hx.cache rfl rfl rfl rfl
      (foldlTbl_wf (fun _ _ h => foldlTbl_wf (fun _ _ h => cacheSet_wf h) _ h) _ hx.2.2.2.2.1) rfl
  · split
    · exact putScalar_keeps hs
    · exact hs
  · split
    · exact writeElems_keeps hs
    · exact hs

theorem issueVec_keeps {s₀ s : State} {at_ : Site} {v : VecOp} {run : Job → List Nat → State → State × Nat × Option Nat} {j : Job}
    (hr : ∀ j l t, Keeps s₀ t → KeepsL s₀ (run j l t)) (hs : Keeps s₀ s) : KeepsI s₀ (issueVec at_ v run j s) := by
  unfold issueVec
  lift_lets -underBinder
  intro d ops ds us scs pre rs
  refine KeepsI.ite (KeepsI.done (onVerdict_keeps (fun _ h => h) hs)) (KeepsI.ite trivial ?_)
  split
  · trivial
  · refine withScoreboard_keeps (fun es t ht => ?_) hs
    lift_lets -underBinder
    intro c cost
    refine KeepsI.ite (KeepsI.done (onVerdict_keeps (fun _ h => h) ht)) ?_
    have h := hr j (vRows t d ops (by assumption)) _ (claimTakes_keeps (d := d) (us := us) ht)
    split
    rename_i e
    rw [e] at h
    split
    · exact saturate_keeps h
    · exact startOp_keeps h

theorem runPlain_keeps {s₀ s : State} {at_ : Site} {v : VecOp} {f : List (List Nat) → List Nat} {x_ : Job} {rows : List Nat} (hs : Keeps s₀ s) : KeepsL s₀ (runPlain at_ v f x_ rows s) := by
  unfold runPlain
  with_reducible repeat' first | assumption | refine vWrite_keeps ?_

theorem vec2_keeps {s₀ s : State} {at_ : Site} {i : Instr} {eng : Fin 2} {n : Nat} {a b dst : VOp} {f : Nat → Nat → Nat} (hs : Keeps s₀ s) : Keeps s₀ (vec2 at_ i eng n a b dst f s) := by
  unfold vec2
  with_reducible repeat' first | assumption | refine runInstr_keeps (fun _ _ _ => ?_) ?_ | refine issueVec_keeps (fun _ _ _ _ => ?_) ?_ | refine runPlain_keeps ?_

theorem vec1_keeps {s₀ s : State} {at_ : Site} {i : Instr} {eng : Fin 2} {n k : Nat} {a dst : VOp} {f : Nat → Nat} (hs : Keeps s₀ s) : Keeps s₀ (vec1 at_ i eng n k a dst f s) := by
  unfold vec1
  with_reducible repeat' first | assumption | refine runInstr_keeps (fun _ _ _ => ?_) ?_ | refine issueVec_keeps (fun _ _ _ _ => ?_) ?_ | refine runPlain_keeps ?_

theorem vec3_keeps {s₀ s : State} {at_ : Site} {i : Instr} {eng : Fin 2} {n : Nat} {a b c dst : VOp} {f : Nat → Nat → Nat → Nat} (hs : Keeps s₀ s) : Keeps s₀ (vec3 at_ i eng n a b c dst f s) := by
  unfold vec3
  with_reducible repeat' first | assumption | refine runInstr_keeps (fun _ _ _ => ?_) ?_ | refine issueVec_keeps (fun _ _ _ _ => ?_) ?_ | refine runPlain_keeps ?_

theorem runCvt_keeps {s₀ s : State} {at_ : Site} {v : VecOp} {xt : Nat} {palette : Option Nat} {j : Job} {rows : List Nat} (hs : Keeps s₀ s) :
    KeepsL s₀ (runCvt at_ v xt palette j rows s) := by
  have hr : ∀ (d : DieIx) (vals : List FV) (sat : Bool) {t : State}, Keeps s₀ t →
      Keeps s₀ (match palette with | some e => if v.n = 0 then t else recordPalette d e vals sat t | none => t) := by
    intro d vals sat t h
    split
    · exact Keeps.ite h (recordPalette_keeps h)
    · exact h
  unfold runCvt
  dsimp only
  cases v.dst with
  | desc i =>
    dsimp only
    cases descOf s at_.die i with
    | some t => exact hr _ _ _ (writeConv_keeps hs)
    | none => exact hs
  | _ => exact hr _ _ _ (vWrite_keeps hs)

theorem vecRed_keeps {s₀ s : State} {at_ : Site} {i : Instr} {eng : Fin 2} {n : Nat} {form : RedForm} {a dst : VOp} {dfmt : VFmt} {f : RedForm → List Nat → Nat} (hs : Keeps s₀ s) : Keeps s₀ (vecRed at_ i eng n form a dst dfmt f s) := by
  unfold vecRed
  with_reducible repeat' first | assumption | refine runInstr_keeps (fun _ _ _ => ?_) ?_ | refine issueVec_keeps (fun _ _ _ _ => ?_) ?_ | refine runPlain_keeps ?_

theorem vecMove_keeps {s₀ s : State} {at_ : Site} {i : Instr} {eng : Fin 2} {n : Nat} {transpose : Bool} {a dst : VOp} (hs : Keeps s₀ s) : Keeps s₀ (vecMove at_ i eng n transpose a dst s) := by
  unfold vecMove
  with_reducible repeat' first | assumption | refine runInstr_keeps (fun _ _ _ => ?_) ?_ | refine vWrite_keeps ?_ | refine issueVec_keeps (fun _ _ _ _ => ?_) ?_

theorem issueNorm_keeps {s₀ s : State} {at_ : Site} {g : NormArgs} {j : Job} (hs : Keeps s₀ s) : KeepsI s₀ (issueNorm at_ g j s) := by
  unfold issueNorm
  with_reducible repeat' first | assumption | exact KeepsI.wait | refine KeepsI.done ?_ | refine KeepsI.ite ?_ ?_ | refine putScalar_keeps ?_ | refine withScoreboard_keeps (fun _ _ _ => ?_) ?_ | refine startOp_keeps ?_ | refine onVerdict_keeps (fun _ _ => ?_) ?_ | refine Keeps.ident ?_

theorem putState_keeps {s₀ s : State} {d : DieIx} {h : Nat} {is16 : Bool} {rho i x : Nat} (hs : Keeps s₀ s) : Keeps s₀ (putState d h is16 rho i x s) := by
  unfold putState
  with_reducible repeat' first | assumption | refine Keeps.ite ?_ ?_ | refine putHandle_keeps ?_

theorem stepElem_keeps {s₀ s : State} {d : DieIx} {g : UpdArgs} {u : UpdDesc} {k : UpdConsts} {bits : List Byte} {e gi : Nat} (hs : Keeps s₀ s) : Keeps s₀ (stepElem d g u k bits e gi s) := by
  unfold stepElem
  with_reducible repeat' first | assumption | refine Keeps.ite ?_ ?_ | refine putHandle_keeps ?_ | refine putState_keeps ?_

theorem stepRun_keeps {s₀ s : State} {d : DieIx} {g : UpdArgs} {u : UpdDesc} {k : UpdConsts} {seed : List Byte} {e gi n : Nat} (hs : Keeps s₀ s) : Keeps s₀ (stepRun d g u k seed e gi n s) := by
  unfold stepRun
  with_reducible repeat' first | assumption | refine stepElem_keeps ?_ | refine Keeps.fold (fun _ _ _ => ?_) _ ?_

theorem stepRow_keeps {s₀ s : State} {d : DieIx} {g : UpdArgs} {u : UpdDesc} {seed : List Byte} {eta lambda c : Nat} {x : Nat × Nat} (hs : Keeps s₀ s) : Keeps s₀ (stepRow d g u seed eta lambda c x s) := by
  unfold stepRow
  with_reducible repeat' first | assumption | refine putHandle_keeps ?_ | refine stepRun_keeps ?_

theorem applyStep_keeps {s₀ s : State} {d : DieIx} {g : UpdArgs} {u : UpdDesc} {b seed : List Byte} {eta lambda : Nat} (hs : Keeps s₀ s) : Keeps s₀ (applyStep d g u b seed eta lambda s) := by
  unfold applyStep
  with_reducible repeat' first | assumption | refine Keeps.ite ?_ ?_ | refine putHandle_keeps ?_ | refine stepRun_keeps ?_ | refine stepRow_keeps ?_ | refine Keeps.fold (fun _ _ _ => ?_) _ ?_

theorem issueUpd_keeps {s₀ s : State} {at_ : Site} {g : UpdArgs} {j : Job} (hs : Keeps s₀ s) : KeepsI s₀ (issueUpd at_ g j s) := by
  unfold issueUpd
  with_reducible repeat' first | assumption | exact KeepsI.wait | refine KeepsI.done ?_ | refine KeepsI.ite ?_ ?_ | refine Keeps.ite ?_ ?_ | refine logJob_keeps ?_ | refine countIndexes_keeps ?_ | refine withScoreboard_keeps (fun _ _ _ => ?_) ?_ | refine startOp_keeps ?_ | refine onVerdict_keeps (fun _ _ => ?_) ?_ | refine applyStep_keeps ?_ | refine Keeps.ident ?_

end Sys2Proof.Machine
end

