-- ==== Sys2Proof/Laws/KeepsFabric.lean ====
section
/-! SUPPORT. One lemma for each shared operation of Machine/Imports, Fabric, Windows, Scratch, Tongs, Transfers and Remote: it leaves the waiting
commands and the fixed fuses as they are, and every memory in canonical form. -/

set_option linter.unusedTactic false
set_option linter.unreachableTactic false

namespace Sys2Proof.Machine

theorem refuseBind_keeps {s₀ s : State} {p : PartIx} {d : DieIx} {q : QueueIx} {b : List Byte} {r : Nat} (hs : Keeps s₀ s) : Keeps s₀ (refuseBind p d q b r s) := by
  unfold refuseBind
  with_reducible repeat' first | assumption | refine logEvent_keeps ?_ | refine putCpl_keeps ?_

theorem failImport_keeps {s₀ s : State} {p : PartIx} {im : Import} {r : Nat} (hs : Keeps s₀ s) : Keeps s₀ (failImport p im r s) := by
  unfold failImport
  with_reducible repeat' first | assumption | (intro x; refine (fun (_ : Keeps s₀ x) => ?_) ?_; (on_goal 1 => clear_value x); (on_goal 2 => subst x)) | lift_lets -underBinder | refine updKs_keeps ?_ | refine finishEvictions_keeps ?_ | refine releaseQueue_keeps ?_ | refine dropImport_keeps ?_ | refine refuseBind_keeps ?_ | split

theorem commitImport_keeps {s₀ s : State} {p : PartIx} {im : Import} {twinHas : Bool} (hs : Keeps s₀ s) : Keeps s₀ (commitImport p im twinHas s) := by
  unfold commitImport
  with_reducible repeat' first | assumption | (intro x; refine (fun (_ : Keeps s₀ x) => ?_) ?_; (on_goal 1 => clear_value x); (on_goal 2 => subst x)) | lift_lets -underBinder | refine Keeps.updPart ?_ | refine updKs_keeps ?_ | refine okPacket_keeps ?_ | refine releaseQueue_keeps ?_ | refine failImport_keeps ?_ | split

theorem commitAlone_keeps {s₀ s : State}  (hs : Keeps s₀ s) : Keeps s₀ (commitAlone s) := by
  unfold commitAlone
  with_reducible repeat' first | assumption | refine Keeps.ite ?_ ?_ | refine sendTwin_keeps ?_ | refine commitImport_keeps ?_ | refine Keeps.fold (fun _ _ _ => ?_) _ ?_

theorem unsealTwin_keeps {s₀ s : State} {n : PortIx} (hs : Keeps s₀ s) : Keeps s₀ (unsealTwin n s) := by
  unfold unsealTwin
  with_reducible repeat' first | assumption | refine Keeps.ite ?_ ?_ | refine commitAlone_keeps ?_

theorem drainPort_keeps {s₀ s : State} {n : PortIx} (hs : Keeps s₀ s) : Keeps s₀ (drainPort n s) := by
  unfold drainPort
  with_reducible repeat' first | assumption | refine Keeps.ite ?_ ?_ | refine Keeps.updPort ?_ | refine emit_keeps ?_ | refine Keeps.fold (fun _ _ _ => ?_) _ ?_

theorem portSend_keeps {s₀ s : State} {n : PortIx} {p : Packet} (hs : Keeps s₀ s) : Keeps s₀ (portSend n p s) := by
  unfold portSend
  with_reducible repeat' first | assumption | refine Keeps.updPort ?_ | refine drainPort_keeps ?_

theorem routePacket_keeps {s₀ s : State} {at_ : PortIx} {p : Packet} (hs : Keeps s₀ s) : Keeps s₀ (routePacket at_ p s) := by
  unfold routePacket
  with_reducible repeat' first | assumption | refine discard_keeps ?_ | refine portSend_keeps ?_ | split | refine Keeps.upd ?_

theorem originate_keeps {s₀ s : State} {d : DieIx} {p : Packet} (hs : Keeps s₀ s) : Keeps s₀ (originate d p s) := by
  unfold originate
  with_reducible repeat' first | assumption | refine Keeps.ite ?_ ?_ | refine discard_keeps ?_ | refine routePacket_keeps ?_

theorem answer_keeps {s₀ s : State} {q : Packet} {ptype wgen : Nat} {data : List Byte} (hs : Keeps s₀ s) : Keeps s₀ (answer q ptype wgen data s) := by
  unfold answer
  with_reducible repeat' first | assumption | refine originate_keeps ?_

theorem nak_keeps {s₀ s : State} {q : Packet} {e : Ev} (hs : Keeps s₀ s) : Keeps s₀ (nak q e s) := by
  unfold nak
  with_reducible repeat' first | assumption | refine answer_keeps ?_

theorem holdNext_keeps {s₀ s : State} {n : PortIx} {x : HeldIn} (hs : Keeps s₀ s) : KeepsO s₀ (holdNext n x s) := by
  unfold holdNext
  with_reducible repeat' first | assumption | exact KeepsO.none | refine KeepsO.some ?_ | refine KeepsO.ite ?_ ?_ | refine Keeps.updPort ?_

theorem countRefusal_keeps {s₀ s : State} {n : PortIx} (hs : Keeps s₀ s) : Keeps s₀ (countRefusal n s) := by
  unfold countRefusal
  with_reducible repeat' first | assumption | refine Keeps.updPort ?_

theorem acceptLocal_keeps {s₀ s : State} {n : PortIx} {p : Packet} (hs : Keeps s₀ s) : Keeps s₀ (acceptLocal n p s) := by
  unfold acceptLocal
  with_reducible repeat' first | assumption | refine discard_keeps ?_ | refine nak_keeps ?_ | refine holdNext_keeps ?_ | refine countRefusal_keeps ?_ | split | refine KeepsO.of (by assumption) ?_ | refine Keeps.upd ?_

theorem packetIn_keeps {s₀ s : State} {n : PortIx} {p : Packet} (hs : Keeps s₀ s) : Keeps s₀ (packetIn n p s) := by
  unfold packetIn
  with_reducible repeat' first | assumption | refine discard_keeps ?_ | refine portSend_keeps ?_ | refine acceptLocal_keeps ?_ | split

theorem logPort_keeps {s₀ s : State} {n : PortIx} {st : Nat} (hs : Keeps s₀ s) : Keeps s₀ (logPort n st s) := by
  unfold logPort
  with_reducible repeat' first | assumption | refine logAt_keeps ?_

theorem countRetry_keeps {s₀ s : State} {n : PortIx} (hs : Keeps s₀ s) : Keeps s₀ (countRetry n s) := by
  unfold countRetry
  with_reducible repeat' first | assumption | refine Keeps.ite ?_ ?_ | refine Keeps.updPort ?_ | refine logPort_keeps ?_

theorem takeDown_keeps {s₀ s : State} {n : PortIx} {failed : Bool} (hs : Keeps s₀ s) : Keeps s₀ (takeDown n failed s) := by
  unfold takeDown
  with_reducible repeat' first | assumption | refine Keeps.updPort ?_ | refine unsealTwin_keeps ?_ | refine logPort_keeps ?_

theorem startKeying_keeps {s₀ s : State} {n : PortIx} (hs : Keeps s₀ s) : Keeps s₀ (startKeying n s) := by
  unfold startKeying
  with_reducible repeat' first | assumption | refine Keeps.updPort ?_ | refine freeBytes_keeps ?_ | refine freeBelow_keeps ?_ | refine emit_keeps ?_ | refine Keeps.fold (fun _ _ _ => ?_) _ ?_

theorem flitError_keeps {s₀ s : State} {n : PortIx} (hs : Keeps s₀ s) : Keeps s₀ (flitError n s) := by
  unfold flitError
  with_reducible repeat' first | assumption | refine Keeps.ite ?_ ?_ | refine Keeps.updPort ?_ | refine emit_keeps ?_ | refine countRetry_keeps ?_

theorem assemble_keeps {s₀ s : State} {n : PortIx} {vc ftype : Nat} {body : List Byte} (hs : Keeps s₀ s) : Keeps s₀ (assemble n vc ftype body s) := by
  unfold assemble
  with_reducible repeat' first | assumption | refine Keeps.ite ?_ ?_ | refine Keeps.updPort ?_ | refine packetIn_keeps ?_

theorem finishKeying_keeps {s₀ s : State} {n : PortIx} (hs : Keeps s₀ s) : Keeps s₀ (finishKeying n s) := by
  unfold finishKeying
  with_reducible repeat' first | assumption | refine Keeps.ite ?_ ?_ | refine Keeps.updPort ?_ | refine drainPort_keeps ?_

theorem updWindow_keeps {s₀ s : State} {w : Nat} {f : Window → Window} (hs : Keeps s₀ s) : Keeps s₀ (updWindow w f s) := by
  unfold updWindow
  with_reducible repeat' first | assumption | refine Keeps.upd ?_

theorem failOp_keeps {s₀ s : State} {d : DieIx} {o : Op} {unit : Nat} {e : Ev} (hs : Keeps s₀ s) : Keeps s₀ (failOp d o unit e s) := by
  unfold failOp
  with_reducible repeat' first | assumption | refine logJob_keeps ?_ | refine quenchJob_keeps ?_ | split

theorem collControl_keeps {s₀ s : State} {d : DieIx} {key : Nat} {c : Coll} {data : List Byte} (hs : Keeps s₀ s) : Keeps s₀ (collControl d key c data s) := by
  unfold collControl
  with_reducible repeat' first | assumption | refine originate_keeps ?_ | refine Keeps.fold (fun _ _ _ => ?_) _ ?_

theorem failColl_keeps {s₀ s : State} {d : DieIx} {o : Op} {e : Ev} (hs : Keeps s₀ s) : Keeps s₀ (failColl d o e s) := by
  unfold failColl
  with_reducible repeat' first | assumption | refine failOp_keeps ?_ | refine collControl_keeps ?_ | split

theorem failColls_keeps {s₀ s : State} {f : Coll → Bool} {e : Ev} (hs : Keeps s₀ s) : Keeps s₀ (failColls f e s) := by
  unfold failColls
  with_reducible repeat' first | assumption | refine failColl_keeps ?_ | refine Keeps.fold (fun _ _ _ => ?_) _ ?_

theorem beginClose_keeps {s₀ s : State} {w : Nat} {op : Option (DieIx × Nat)} (hs : Keeps s₀ s) : Keeps s₀ (beginClose w op s) := by
  unfold beginClose
  with_reducible repeat' first | assumption | refine updWindow_keeps ?_ | refine failColls_keeps ?_

theorem closeAll_keeps {s₀ s : State} {ws : List Nat} (hs : Keeps s₀ s) : Keeps s₀ (closeAll ws s) := by
  unfold closeAll
  with_reducible repeat' first | assumption | refine Keeps.ite ?_ ?_ | refine beginClose_keeps ?_ | refine Keeps.fold (fun _ _ _ => ?_) _ ?_

theorem takeArrived_keeps {s₀ s : State} {f : PortIx × Packet → Bool} (hs : Keeps s₀ s) : KeepsT s₀ (takeArrived f s) := by
  unfold takeArrived
  split
  · trivial
  · exact Keeps.upd (a := s₀) hs

theorem landWrite_keeps {s₀ s : State} {p : Packet} (hs : Keeps s₀ s) : Keeps s₀ (landWrite p s) := by
  unfold landWrite
  with_reducible repeat' first | assumption | refine Keeps.ite ?_ ?_ | refine putHandle_keeps ?_ | refine putStore_keeps ?_ | refine wakeDie_keeps ?_ | refine updWindow_keeps ?_

theorem switchEpoch_keeps {s₀ s : State}  (hs : Keeps s₀ s) : Keeps s₀ (switchEpoch s) := by
  unfold switchEpoch
  with_reducible repeat' first | assumption | refine Keeps.upd ?_

theorem loseRing_keeps {s₀ s : State} {d : DieIx} {o : Op} (hs : Keeps s₀ s) : Keeps s₀ (loseRing d o s) := by
  unfold loseRing
  with_reducible repeat' first | assumption | refine dropOp_keeps ?_ | refine skipInstr_keeps ?_ | refine releaseSlot_keeps ?_ | refine Keeps.fold (fun _ _ _ => ?_) _ ?_ | split

theorem dropRing_keeps {s₀ s : State} {d : DieIx} {r : Nat} (hs : Keeps s₀ s) : Keeps s₀ (dropRing d r s) := by
  unfold dropRing
  with_reducible repeat' first | assumption | refine Keeps.ite ?_ ?_ | refine Keeps.updDie ?_ (fun x hx => hx.frame rfl rfl rfl rfl rfl rfl) | refine updHandle_keeps ?_ | refine loseRing_keeps ?_ | refine Keeps.fold (fun _ _ _ => ?_) _ ?_ | refine Keeps.upd ?_

theorem freeHandle_keeps {s₀ s : State} {d : DieIx} {index : Nat} (hs : Keeps s₀ s) : Keeps s₀ (freeHandle d index s) := by
  unfold freeHandle
  with_reducible repeat' first | assumption | refine Keeps.ite ?_ ?_ | refine Keeps.updDie ?_ (fun x hx => hx.frame rfl rfl rfl rfl rfl rfl) | refine zeroHandle_keeps ?_ | refine dropRing_keeps ?_ | refine Keeps.fold (fun _ _ _ => ?_) _ ?_

theorem dropAperture_keeps {s₀ s : State} {p : PartIx} {d : DieIx} {index : Nat} (hs : Keeps s₀ s) : Keeps s₀ (dropAperture p d index s) := by
  unfold dropAperture
  with_reducible repeat' first | assumption | refine Keeps.ite ?_ ?_ | refine Keeps.updHost ?_

theorem sendReq_keeps {s₀ s : State} {d : DieIx} {j : Job} {op : Nat} {kind : ReqKind} {piece : Nat} {w : Piece} {off len : Nat} {data : List Byte} (hs : Keeps s₀ s) : Keeps s₀ (sendReq d j op kind piece w off len data s) := by
  unfold sendReq
  with_reducible repeat' first | assumption | refine originate_keeps ?_ | refine Keeps.upd ?_

theorem sendWrites_keeps {s₀ s : State} {d : DieIx} {j : Job} {op piece : Nat} {w : Piece} {ws : List (Nat × List Byte)} (hs : Keeps s₀ s) : Keeps s₀ (sendWrites d j op piece w ws s) := by
  unfold sendWrites
  with_reducible repeat' first | assumption | refine sendReq_keeps ?_ | refine Keeps.fold (fun _ _ _ => ?_) _ ?_

theorem sendReads_keeps {s₀ s : State} {d : DieIx} {j : Job} {op bits : Nat} {pieces : List Piece} {ps : List Plan} (hs : Keeps s₀ s) : Keeps s₀ (sendReads d j op bits pieces ps s) := by
  unfold sendReads
  with_reducible repeat' first | assumption | refine sendReq_keeps ?_ | refine Keeps.fold (fun _ _ _ => ?_) _ ?_ | split

theorem updOp_keeps {s₀ s : State} {d : DieIx} {id : Nat} {f : Op → Op} (hs : Keeps s₀ s) : Keeps s₀ (updOp d id f s) := by
  unfold updOp
  with_reducible repeat' first | assumption | refine Keeps.updDie ?_ (fun x hx => hx.frame rfl rfl rfl rfl rfl rfl)

theorem addElems_keeps {s₀ s : State} {t : Desc} {xs : List (Int × Nat)} (hs : Keeps s₀ s) : Keeps s₀ (addElems t xs s) := by
  unfold addElems
  exact updSpace_keeps (fun _ h => foldl_wf (fun _ _ h => writeElem_wf h) _ h) hs

theorem applyPlan_keeps {s₀ s : State} {p : PartIx} {t : Desc} {slot : Nat} {x : Xfer} {pl : Plan} (hs : Keeps s₀ s) : KeepsO s₀ (applyPlan p t slot x pl s) := by
  unfold applyPlan
  with_reducible repeat' first | assumption | (intro x; subst x) | lift_lets -underBinder | exact KeepsO.none | refine KeepsO.some ?_ | refine poisonAll_keeps ?_ | refine writeElems_keeps ?_ | refine writeScales_keeps ?_ | refine addElems_keeps ?_ | split

theorem ingestFail_keeps {s₀ s : State} {d : DieIx} {o : Op} (hs : Keeps s₀ s) : Keeps s₀ (ingestFail d o s) := by
  unfold ingestFail
  with_reducible repeat' first | assumption | refine poisonAll_keeps ?_ | refine dropOp_keeps ?_ | refine dropClaims_keeps ?_ | refine failOp_keeps ?_

theorem fillHall_keeps {s₀ s : State} {d : DieIx} {o : Op} {x : Xfer} (hs : Keeps s₀ s) : Keeps s₀ (fillHall d o x s) := by
  unfold fillHall
  with_reducible repeat' first | assumption | refine Keeps.updJob ?_ | refine updOp_keeps ?_ | split

theorem requestPages_keeps {s₀ s : State} {h : HostId} {fn : Nat} {pages : List Nat} (hs : Keeps s₀ s) : Keeps s₀ (requestPages h fn pages s) := by
  unfold requestPages
  with_reducible repeat' first | assumption | refine Keeps.ite ?_ ?_ | refine Keeps.updHost ?_ | refine emit_keeps ?_ | refine Keeps.fold (fun _ _ _ => ?_) _ ?_

theorem emitHost_keeps {s₀ s : State} {d : DieIx} {o : Op} {x : Xfer} {i k : Nat} (hs : Keeps s₀ s) : Keeps s₀ (emitHost d o x i k s) := by
  unfold emitHost
  with_reducible repeat' first | assumption | refine emit_keeps ?_ | refine sendMsg_keeps ?_ | refine requestPages_keeps ?_ | refine Keeps.fold (fun _ _ _ => ?_) _ ?_ | split | refine Keeps.upd ?_

theorem putBlocks_keeps {s₀ s : State} {d : DieIx} {j : Job} {id : Nat} {q : XferReq} {places blocks : List (Nat × Nat)} (hs : Keeps s₀ s) : Keeps s₀ (putBlocks d j id q places blocks s) := by
  unfold putBlocks
  with_reducible repeat' first | assumption | refine sendWrites_keeps ?_ | refine Keeps.fold (fun _ _ _ => ?_) _ ?_ | split | refine Keeps.upd ?_

theorem planXfer_keeps {s₀ s : State} {d : DieIx} {id : Nat} (hs : Keeps s₀ s) : Keeps s₀ (planXfer d id s) := by
  unfold planXfer
  with_reducible repeat' first | assumption | refine countIndexes_keeps ?_ | refine sendReads_keeps ?_ | refine updOp_keeps ?_ | refine putBlocks_keeps ?_ | split | refine Keeps.upd ?_

theorem claimFill_keeps {s₀ s : State} {d : DieIx} {r : Nat} (hs : Keeps s₀ s) : KeepsT s₀ (claimFill d r s) := by
  unfold claimFill
  with_reducible repeat' first | assumption | exact KeepsT.none | refine KeepsT.some ?_ | refine KeepsT.ite ?_ ?_ | refine updRing_keeps ?_

theorem nextSlot_keeps {s₀ s : State} {d : DieIx} {o : Op} {x : Xfer} (hs : Keeps s₀ s) : KeepsT s₀ (nextSlot d o x s) := by
  unfold nextSlot
  split
  · exact hs
  · have h := claimFill_keeps (d := x.dst.dieIx) (r := x.dst.handle) hs
    revert h
    cases claimFill x.dst.dieIx x.dst.handle s with
    | none => exact fun _ => trivial
    | some c => exact fun h => updOp_keeps h

theorem deliver_keeps {s₀ s : State} {d : DieIx} {id : Nat} (hs : Keeps s₀ s) : Keeps s₀ (deliver d id s) := by
  unfold deliver
  with_reducible repeat' first | assumption | refine Keeps.updJob ?_ | refine dropOp_keeps ?_ | refine failOp_keeps ?_ | refine sendWrites_keeps ?_ | refine updOp_keeps ?_ | refine applyPlan_keeps ?_ | refine ingestFail_keeps ?_ | refine fillHall_keeps ?_ | refine nextSlot_keeps ?_ | split | refine KeepsO.of (by assumption) ?_ | refine KeepsT.of (by assumption) ?_ | refine Keeps.upd ?_

theorem pump_keeps {s₀ s : State} {d : DieIx} {id : Nat} (hs : Keeps s₀ s) : Keeps s₀ (pump d id s) := by
  unfold pump
  with_reducible repeat' first | assumption | refine planXfer_keeps ?_ | refine deliver_keeps ?_

theorem beginXfer_keeps {s₀ s : State} {d : DieIx} {id : Nat} (hs : Keeps s₀ s) : Keeps s₀ (beginXfer d id s) := by
  unfold beginXfer
  with_reducible repeat' first | assumption | refine wakeDie_keeps ?_ | refine sendReads_keeps ?_ | refine updOp_keeps ?_ | refine requestPages_keeps ?_ | refine pump_keeps ?_ | refine Keeps.fold (fun _ _ _ => ?_) _ ?_ | split

theorem takeUp_keeps {s₀ s : State} {d : DieIx} {id : Nat} (hs : Keeps s₀ s) : Keeps s₀ (takeUp d id s) := by
  unfold takeUp
  with_reducible repeat' first | assumption | refine beginXfer_keeps ?_ | split

theorem startTongs_keeps {s₀ s : State} {d : DieIx} (hs : Keeps s₀ s) : Keeps s₀ (startTongs d s) := by
  unfold startTongs
  with_reducible repeat' first | assumption | refine takeUp_keeps ?_ | refine Keeps.fold (fun _ _ _ => ?_) _ ?_

theorem noteWeight_keeps {s₀ s : State} {d : DieIx} {j : Job} {t : Desc} (hs : Keeps s₀ s) : Keeps s₀ (noteWeight d j t s) := by
  unfold noteWeight
  with_reducible repeat' first | assumption | refine Keeps.ite ?_ ?_ | refine Keeps.updJob ?_ | refine updStore_keeps ?_

theorem noteInput_keeps {s₀ s : State} {d : DieIx} {j : Job} {t : Desc} {n : Nat} {host : List Byte} (hs : Keeps s₀ s) :
    KeepsP s₀ (noteInput d j t n host s) := by
  unfold noteInput
  split
  · exact hs
  · exact Keeps.updJob hs

theorem noteRefused_keeps {s₀ s : State} {j : Job} {r : Option Ev} (hs : Keeps s₀ s) : Keeps s₀ (noteRefused j r s) := by
  unfold noteRefused
  with_reducible repeat' first | assumption | refine Keeps.updJob ?_

theorem claimDest_keeps {s₀ s : State} {t : Desc} (hs : Keeps s₀ s) : KeepsP s₀ (claimDest t s) := by
  have h := claimFill_keeps (d := t.dieIx) (r := t.handle) hs
  unfold claimDest
  refine KeepsP.ite ?_ hs
  split
  · rename_i e
    rw [e] at h
    exact h
  · exact hs

theorem startXfer_keeps {s₀ s : State} {at_ : Site} {q : XferReq} {j : Job} {us : List (Nat × Bool)} {slots : List Nat} {more : List Dest}
    {es : List SbEntry} (hs : Keeps s₀ s) : Keeps s₀ (startXfer at_ q j us slots more es s) := by
  have h : ∀ {t : State}, Keeps s₀ t → Keeps s₀ (match q.idx with | some x => noteWeight at_.die j x t | none => t) := by
    intro t h
    split
    · exact noteWeight_keeps h
    · exact h
  exact takeUp_keeps (startOp_keeps (claimDest_keeps (claimTakes_keeps (noteInput_keeps (h (noteWeight_keeps hs))))))

theorem refuseOutput_keeps {s₀ s : State} {j : Job} {at_ : Site} {ds : List Dest} {r : Option Ev} (hs : Keeps s₀ s) : Keeps s₀ (refuseOutput j at_ ds r s) := by
  unfold refuseOutput
  with_reducible repeat' first | assumption | refine nameDests_keeps ?_ | refine refuseInstr_keeps ?_ | refine noteRefused_keeps ?_ | split

theorem goXfer_keeps {s₀ s : State} {at_ : Site} {q : XferReq} {j : Job} (hs : Keeps s₀ s) : KeepsI s₀ (goXfer at_ q j s) := by
  unfold goXfer
  with_reducible repeat' first | assumption | (intro x; subst x) | lift_lets -underBinder | exact KeepsI.wait | refine KeepsI.done ?_ | refine withScoreboard_keeps (fun _ _ _ => ?_) ?_ | refine startXfer_keeps ?_ | refine refuseOutput_keeps ?_ | split

theorem issueMove_keeps {s₀ s : State} {at_ : Site} {g : MoveArgs} {j : Job} (hs : Keeps s₀ s) : KeepsI s₀ (issueMove at_ g j s) := by
  unfold issueMove
  with_reducible repeat' first | assumption | (intro x; subst x) | lift_lets -underBinder | refine KeepsI.done ?_ | refine skipInstr_keeps ?_ | refine onVerdict_keeps (fun _ _ => ?_) ?_ | refine goXfer_keeps ?_ | refine Keeps.ident ?_ | split

theorem issueGather_keeps {s₀ s : State} {at_ : Site} {g : IndexedArgs} {j : Job} (hs : Keeps s₀ s) : KeepsI s₀ (issueGather at_ g j s) := by
  unfold issueGather
  with_reducible repeat' first | assumption | (intro x; subst x) | lift_lets -underBinder | refine KeepsI.done ?_ | refine skipInstr_keeps ?_ | refine onVerdict_keeps (fun _ _ => ?_) ?_ | refine goXfer_keeps ?_ | refine Keeps.ident ?_ | split

theorem issueScatter_keeps {s₀ s : State} {at_ : Site} {g : IndexedArgs} {add : Bool} {j : Job} (hs : Keeps s₀ s) : KeepsI s₀ (issueScatter at_ g add j s) := by
  unfold issueScatter
  with_reducible repeat' first | assumption | (intro x; subst x) | lift_lets -underBinder | refine KeepsI.done ?_ | refine skipInstr_keeps ?_ | refine onVerdict_keeps (fun _ _ => ?_) ?_ | refine goXfer_keeps ?_ | refine Keeps.ident ?_ | split

theorem issueDget_keeps {s₀ s : State} {at_ : Site} {table : Nat} {origin box : List Nat} {dst : Nat} {j : Job} (hs : Keeps s₀ s) : KeepsI s₀ (issueDget at_ table origin box dst j s) := by
  unfold issueDget
  with_reducible repeat' first | assumption | (intro x; subst x) | lift_lets -underBinder | refine KeepsI.done ?_ | refine withScoreboard_keeps (fun _ _ _ => ?_) ?_ | refine onVerdict_keeps (fun _ _ => ?_) ?_ | refine startXfer_keeps ?_ | refine Keeps.ident ?_ | split

theorem issueDput_keeps {s₀ s : State} {at_ : Site} {src table : Nat} {origin box : List Nat} {j : Job} (hs : Keeps s₀ s) : KeepsI s₀ (issueDput at_ src table origin box j s) := by
  unfold issueDput
  with_reducible repeat' first | assumption | (intro x; subst x) | lift_lets -underBinder | refine KeepsI.done ?_ | refine withScoreboard_keeps (fun _ _ _ => ?_) ?_ | refine onVerdict_keeps (fun _ _ => ?_) ?_ | refine startXfer_keeps ?_ | refine refuseOutput_keeps ?_ | refine Keeps.ident ?_ | split

theorem updXfer_keeps {s₀ s : State} {d : DieIx} {id : Nat} {f : Xfer → Xfer} (hs : Keeps s₀ s) : Keeps s₀ (updXfer d id f s) := by
  unfold updXfer
  with_reducible repeat' first | assumption | refine updOp_keeps ?_

theorem dropGroup_keeps {s₀ s : State} {h : HostId} {g : Nat} (hs : Keeps s₀ s) : Keeps s₀ (dropGroup h g s) := by
  unfold dropGroup
  with_reducible repeat' first | assumption | refine Keeps.updHost ?_ | refine Keeps.upd ?_

theorem lateGroup_keeps {s₀ s : State} {h : HostId} {g : Nat} (hs : Keeps s₀ s) : Keeps s₀ (lateGroup h g s) := by
  unfold lateGroup
  with_reducible repeat' first | assumption | refine Keeps.updHost ?_ | refine countLate_keeps ?_ | split

theorem benchResponse_keeps {s₀ s : State} {h : HostId} {g : Nat} {code : PriCode} (hs : Keeps s₀ s) : Keeps s₀ (benchResponse h g code s) := by
  unfold benchResponse
  with_reducible repeat' first | assumption | refine Keeps.updHost ?_ | refine sendMsg_keeps ?_ | refine lateGroup_keeps ?_ | split

theorem failWaiting_keeps {s₀ s : State} {h : HostId} {fn : Nat} (hs : Keeps s₀ s) : Keeps s₀ (failWaiting h fn s) := by
  unfold failWaiting
  with_reducible repeat' first | assumption | refine Keeps.ite ?_ ?_ | refine failOp_keeps ?_ | refine Keeps.fold (fun _ _ _ => ?_) _ ?_

theorem hostFail_keeps {s₀ s : State} {die : DieIx} {op : Nat} {reads : Bool} (hs : Keeps s₀ s) : Keeps s₀ (hostFail die op reads s) := by
  unfold hostFail
  with_reducible repeat' first | assumption | refine failOp_keeps ?_ | split

theorem dropRequest_keeps {s₀ s : State} {r : Request} (hs : Keeps s₀ s) : Keeps s₀ (dropRequest r s) := by
  unfold dropRequest
  with_reducible repeat' first | assumption | refine Keeps.upd ?_

theorem sendRemoteFlag_keeps {s₀ s : State} {d : DieIx} {id : Nat} (hs : Keeps s₀ s) : Keeps s₀ (sendRemoteFlag d id s) := by
  unfold sendRemoteFlag
  with_reducible repeat' first | assumption | refine sendReq_keeps ?_ | refine updXfer_keeps ?_ | split

end Sys2Proof.Machine
end

