-- ==== Sys2Proof/Laws/KeepsUnits.lean ====
section
/-! SUPPORT. One lemma for each shared operation of Machine/Cluster, PolyOps, Collectives, Share, Complete, Queues, KeySwitch, Temper, Programs and
Keysets: it leaves the waiting commands and the fixed fuses as they are, and every memory in canonical form. -/

set_option linter.unusedTactic false
set_option linter.unreachableTactic false

namespace Sys2Proof.Machine

theorem runClu_keeps {s₀ s : State} {at_ : Site} {mask : BitVec 8} {o : CluOp} {j : Job} {c : Chain} {xs : List Src} {slots : List Nat} {es : List SbEntry} (hs : Keeps s₀ s) : Keeps s₀ (runClu at_ mask o j c xs slots es s) := by
  unfold runClu
  with_reducible repeat' first | assumption | refine logJob_keeps ?_ | refine nameDests_keeps ?_ | refine startOp_keeps ?_ | refine claimTakes_keeps ?_ | refine markRegion_keeps ?_ | refine putObj_keeps ?_ | refine putHead_keeps ?_ | refine drawStreams_keeps ?_ | refine Keeps.fold (fun _ _ _ => ?_) _ ?_ | split

theorem issueClu_keeps {s₀ s : State} {at_ : Site} {mask : BitVec 8} {o : CluOp} {j : Job} (hs : Keeps s₀ s) : KeepsI s₀ (issueClu at_ mask o j s) := by
  unfold issueClu
  with_reducible repeat' first | assumption | (intro x; subst x) | lift_lets -underBinder | exact KeepsI.wait | refine KeepsI.done ?_ | refine skipInstr_keeps ?_ | refine refuseInstr_keeps ?_ | refine withScoreboard_keeps (fun _ _ _ => ?_) ?_ | refine onVerdict_keeps (fun _ _ => ?_) ?_ | refine runClu_keeps ?_ | refine Keeps.ident ?_ | split

theorem clusterInstr_keeps {s₀ s : State} {at_ : Site} {mask : BitVec 8} {i : Instr} {o : CluOp} (hs : Keeps s₀ s) : Keeps s₀ (clusterInstr at_ mask i o s) := by
  unfold clusterInstr
  with_reducible repeat' first | assumption | refine runInstr_keeps (fun _ _ _ => ?_) ?_ | refine issueClu_keeps ?_

theorem issueEncode_keeps {s₀ s : State} {at_ : Site} {mask : BitVec 8} {src : Nat} {dst : Loc} {q : EncodeReq} {j : Job} (hs : Keeps s₀ s) : KeepsI s₀ (issueEncode at_ mask src dst q j s) := by
  unfold issueEncode
  with_reducible repeat' first | assumption | (intro x; subst x) | lift_lets -underBinder | refine KeepsI.done ?_ | refine skipInstr_keeps ?_ | refine withScoreboard_keeps (fun _ _ _ => ?_) ?_ | refine startOp_keeps ?_ | refine onVerdict_keeps (fun _ _ => ?_) ?_ | refine markRegion_keeps ?_ | refine putObj_keeps ?_ | refine Keeps.ident ?_ | split

theorem issueDecode_keeps {s₀ s : State} {at_ : Site} {mask : BitVec 8} {src : Loc} {dst : Nat} {j : Job} (hs : Keeps s₀ s) : KeepsI s₀ (issueDecode at_ mask src dst j s) := by
  unfold issueDecode
  with_reducible repeat' first | assumption | (intro x; subst x) | lift_lets -underBinder | exact KeepsI.wait | refine KeepsI.done ?_ | refine putHandle_keeps ?_ | refine skipInstr_keeps ?_ | refine withScoreboard_keeps (fun _ _ _ => ?_) ?_ | refine startOp_keeps ?_ | refine claimTakes_keeps ?_ | refine onVerdict_keeps (fun _ _ => ?_) ?_ | refine Keeps.ident ?_ | split

theorem startColl_keeps {s₀ s : State} {at_ : Site} {j : Job} {c : Coll} {ds srcs : List Dest} {es : List SbEntry} (hs : Keeps s₀ s) : Keeps s₀ (startColl at_ j c ds srcs es s) := by
  unfold startColl
  with_reducible repeat' first | assumption | refine startOp_keeps ?_ | refine collControl_keeps ?_ | refine Keeps.upd ?_

theorem issueColl_keeps {s₀ s : State} {at_ : Site} {op : Nat} {src dst coll : Nat} {j : Job} (hs : Keeps s₀ s) : KeepsI s₀ (issueColl at_ op src dst coll j s) := by
  unfold issueColl
  with_reducible repeat' first | assumption | (intro x; subst x) | lift_lets -underBinder | refine KeepsI.done ?_ | refine skipInstr_keeps ?_ | refine refuseInstr_keeps ?_ | refine withScoreboard_keeps (fun _ _ _ => ?_) ?_ | refine onVerdict_keeps (fun _ _ => ?_) ?_ | refine collControl_keeps ?_ | refine noteWeight_keeps ?_ | refine startColl_keeps ?_ | refine Keeps.ident ?_ | split

theorem issueBarrier_keeps {s₀ s : State} {at_ : Site} {coll : Nat} {j : Job} (hs : Keeps s₀ s) : KeepsI s₀ (issueBarrier at_ coll j s) := by
  unfold issueBarrier
  with_reducible repeat' first | assumption | (intro x; subst x) | lift_lets -underBinder | refine KeepsI.done ?_ | refine skipInstr_keeps ?_ | refine withScoreboard_keeps (fun _ _ _ => ?_) ?_ | refine onVerdict_keeps (fun _ _ => ?_) ?_ | refine startColl_keeps ?_ | refine Keeps.ident ?_ | split

theorem updColl_keeps {s₀ s : State} {d : DieIx} {id : Nat} {f : Coll → Coll} (hs : Keeps s₀ s) : Keeps s₀ (updColl d id f s) := by
  unfold updColl
  with_reducible repeat' first | assumption | refine updOp_keeps ?_

theorem sendColl_keeps {s₀ s : State} {d : DieIx} {key : Nat} {c : Coll} {r w : Nat} (hs : Keeps s₀ s) : Keeps s₀ (sendColl d key c r w s) := by
  unfold sendColl
  with_reducible repeat' first | assumption | refine Keeps.ite ?_ ?_ | refine originate_keeps ?_ | refine Keeps.fold (fun _ _ _ => ?_) _ ?_

theorem collPeer_keeps {s₀ s : State} {d : DieIx} {o : Op} {c : Coll} {r : Nat} {b : List Byte} (hs : Keeps s₀ s) : Keeps s₀ (collPeer d o c r b s) := by
  unfold collPeer
  with_reducible repeat' first | assumption | refine failColl_keeps ?_ | refine updColl_keeps ?_ | refine sendColl_keeps ?_ | split

theorem degradedObject_keeps {s₀ s : State} {h : Header} {n : Nat} (hs : Keeps s₀ s) : KeepsP s₀ (degradedObject h n s) := by
  unfold degradedObject
  split
  rename_i e
  have h1 := freeBytes_keeps (n := n - 288) hs
  rw [e] at h1
  exact h1

theorem deliverColl_keeps {s₀ s : State} {d : DieIx} {o : Op} {c : Coll} (hs : Keeps s₀ s) : Keeps s₀ (deliverColl d o c s) := by
  unfold deliverColl
  with_reducible repeat' first | assumption | refine logJob_keeps ?_ | refine writeElems_keeps ?_ | refine degradedObject_keeps ?_ | split

theorem purgeColl_keeps {s₀ s : State} {d : DieIx} {c : Coll} (hs : Keeps s₀ s) : Keeps s₀ (purgeColl d c s) := by
  unfold purgeColl
  with_reducible repeat' first | assumption | refine Keeps.upd ?_

theorem updSession_keeps {s₀ s : State} {p : PartIx} {k : Nat} {f : Session → Session} (hs : Keeps s₀ s) : Keeps s₀ (updSession p k f s) := by
  unfold updSession
  with_reducible repeat' first | assumption | refine Keeps.updPart ?_

theorem putShare_keeps {s₀ s : State} {d : DieIx} {h : Nat} {hdr : Header} {xs : List Nat} (hs : Keeps s₀ s) : Keeps s₀ (putShare d h hdr xs s) := by
  unfold putShare
  with_reducible repeat' first | assumption | refine putHandle_keeps ?_

theorem putClear_keeps {s₀ s : State} {d : DieIx} {h : Nat} {xs : List Nat} (hs : Keeps s₀ s) : Keeps s₀ (putClear d h xs s) := by
  unfold putClear
  with_reducible repeat' first | assumption | refine putHandle_keeps ?_

theorem issueShr_keeps {s₀ s : State} {at_ : Site} {o : ShrOp} {late : Session → Nat → Verdict}
    {poisoned : Session → Nat → Nat → State → State} {go : Job → Session → Nat → Nat → List SbEntry → State → Issued} {j : Job}
    (hp : ∀ x a b t, Keeps s₀ t → Keeps s₀ (poisoned x a b t)) (hg : ∀ j x a b es t, Keeps s₀ t → KeepsI s₀ (go j x a b es t))
    (hs : Keeps s₀ s) : KeepsI s₀ (issueShr at_ o late poisoned go j s) := by
  unfold issueShr
  refine KeepsI.ite (KeepsI.done (onVerdict_keeps (fun _ h => h) hs)) (withScoreboard_keeps (fun es t ht => ?_) hs)
  refine KeepsI.ite (KeepsI.done (onVerdict_keeps (fun _ h => h) ?_)) (KeepsI.ite (KeepsI.done (onVerdict_keeps (fun _ h => h) ht)) ?_)
  · split
    · exact hp _ _ _ _ ht
    · exact ht
  · split
    · exact ht
    · exact KeepsI.ite (KeepsI.done (onVerdict_keeps (fun _ h => h) ht)) (hg _ _ _ _ _ _ ht)

theorem shrLocal_keeps {s₀ s : State} {at_ : Site} {i : Instr} {mask : BitVec 8} {shares clears : List Nat} {dst k : Nat} {f : State → Session → Nat → Nat → List Nat} (hs : Keeps s₀ s) : Keeps s₀ (shrLocal at_ i mask shares clears dst k f s) := by
  unfold shrLocal
  with_reducible repeat' first | assumption | refine KeepsI.done ?_ | refine runInstr_keeps (fun _ _ _ => ?_) ?_ | refine startOp_keeps ?_ | refine putShare_keeps ?_ | refine issueShr_keeps (fun _ _ _ _ _ => ?_) (fun _ _ _ _ _ _ _ => ?_) ?_

theorem shareSend_keeps {s₀ s : State} {d : DieIx} {x : Session} {i : Nat} {f : Nat → Nat → Output} (hs : Keeps s₀ s) : Keeps s₀ (shareSend d x i f s) := by
  unfold shareSend
  with_reducible repeat' first | assumption | refine emit_keeps ?_ | refine discard_keeps ?_ | split

theorem acceptMsg_keeps {s₀ s : State} {d : DieIx} {id : Nat} {m : ExMsg} {abort : Bool} (hs : Keeps s₀ s) : Keeps s₀ (acceptMsg d id m abort s) := by
  unfold acceptMsg
  with_reducible repeat' first | assumption | refine failOp_keeps ?_ | refine updOp_keeps ?_ | split

theorem startExch_keeps {s₀ s : State} {at_ : Site} {j : Job} {o : Op} {x : Exch} {ses : Session} {body : Nat → List Nat} {es : List SbEntry} (hs : Keeps s₀ s) : Keeps s₀ (startExch at_ j o x ses body es s) := by
  unfold startExch
  with_reducible repeat' first | assumption | refine startOp_keeps ?_ | refine updSession_keeps ?_ | refine shareSend_keeps ?_ | refine acceptMsg_keeps ?_ | refine Keeps.fold (fun _ _ _ => ?_) _ ?_

theorem abortExch_keeps {s₀ s : State} {at_ : Site} {j : Job} {dealSeq : Option Nat} {x : Session} {slot n : Nat} (hs : Keeps s₀ s) : Keeps s₀ (abortExch at_ j dealSeq x slot n s) := by
  unfold abortExch
  with_reducible repeat' first | assumption | refine Keeps.ite ?_ ?_ | refine logJob_keeps ?_ | refine updSession_keeps ?_ | refine shareSend_keeps ?_ | refine Keeps.fold (fun _ _ _ => ?_) _ ?_

theorem issueOpen_keeps {s₀ s : State} {at_ : Site} {mask : BitVec 8} {srcs : List Nat} {dst : Nat} {j : Job} (hs : Keeps s₀ s) : KeepsI s₀ (issueOpen at_ mask srcs dst j s) := by
  unfold issueOpen
  with_reducible repeat' first | assumption | refine KeepsI.done ?_ | refine KeepsI.ite ?_ ?_ | refine refuseInstr_keeps ?_ | refine issueShr_keeps (fun _ _ _ _ _ => ?_) (fun _ _ _ _ _ _ _ => ?_) ?_ | refine startExch_keeps ?_ | refine abortExch_keeps ?_

theorem issueBeaver_keeps {s₀ s : State} {at_ : Site} {mask : BitVec 8} {a b dst : Nat} {j : Job} (hs : Keeps s₀ s) : KeepsI s₀ (issueBeaver at_ mask a b dst j s) := by
  unfold issueBeaver
  with_reducible repeat' first | assumption | exact KeepsI.wait | refine KeepsI.done ?_ | refine KeepsI.ite ?_ ?_ | refine updSession_keeps ?_ | refine issueShr_keeps (fun _ _ _ _ _ => ?_) (fun _ _ _ _ _ _ _ => ?_) ?_ | refine startExch_keeps ?_ | refine abortExch_keeps ?_

theorem drawElems_keeps {s₀ s : State} {q n : Nat} (hs : Keeps s₀ s) : KeepsP s₀ (drawElems q n s) := by
  unfold drawElems
  with_reducible repeat' first | assumption | refine Keeps.upd ?_

theorem drawVecs_keeps {s₀ : State} {q n : Nat} : ∀ (k : Nat) {s : State}, Keeps s₀ s → KeepsP s₀ (drawVecs q n k s)
  | 0, _, h => h
  | k + 1, s, h => by
    have h1 : KeepsP s₀ (drawElems q n s) := drawElems_keeps h
    have h2 := drawVecs_keeps (q := q) (n := n) k h1
    exact h2

theorem issueSplit_keeps {s₀ s : State} {at_ : Site} {mask : BitVec 8} {slot n clear dst : Nat} {recv : List Nat} {j : Job} (hs : Keeps s₀ s) : KeepsI s₀ (issueSplit at_ mask slot n clear dst recv j s) := by
  unfold issueSplit
  with_reducible repeat' first | assumption | (intro x; subst x) | lift_lets -underBinder | refine KeepsI.done ?_ | refine withScoreboard_keeps (fun _ _ _ => ?_) ?_ | refine onVerdict_keeps (fun _ _ => ?_) ?_ | refine putShare_keeps ?_ | refine startExch_keeps ?_ | refine drawVecs_keeps _ ?_ | refine Keeps.ident ?_ | split

theorem deliverExch_keeps {s₀ s : State} {d : DieIx} {x : Exch} (hs : Keeps s₀ s) : Keeps s₀ (deliverExch d x s) := by
  unfold deliverExch
  with_reducible repeat' first | assumption | refine putShare_keeps ?_ | refine putClear_keeps ?_ | refine Keeps.fold (fun _ _ _ => ?_) _ ?_ | split

theorem dealRoom_keeps {s₀ s : State} {x : Session} {i : Nat} {m : DealMsg} (hs : Keeps s₀ s) : KeepsP s₀ (dealRoom x i m s) := by
  unfold dealRoom
  split
  · split
    · exact hs
    · exact hs
  · exact freeDraw_keeps hs

theorem sendDeal_keeps {s₀ s : State} {p : PartIx} {slot : Nat} {e : DieIx × Nat × DealMsg} (hs : Keeps s₀ s) :
    Keeps s₀ (sendDeal p slot e s) := by
  unfold sendDeal
  split
  · exact hs
  · have h := dealRoom_keeps (x := ‹Session›) (i := e.2.1) (m := e.2.2) hs
    exact Keeps.ite hs (Keeps.ite (shareSend_keeps (updSession_keeps h)) h)

theorem flushDeals_keeps {s₀ s : State} {p : PartIx} {slot : Nat} (hs : Keeps s₀ s) : Keeps s₀ (flushDeals p slot s) := by
  unfold flushDeals
  with_reducible repeat' first | assumption | refine sendDeal_keeps ?_ | refine Keeps.fold (fun _ _ _ => ?_) _ ?_ | split

theorem flushAllDeals_keeps {s₀ s : State}  (hs : Keeps s₀ s) : Keeps s₀ (flushAllDeals s) := by
  unfold flushAllDeals
  with_reducible repeat' first | assumption | refine flushDeals_keeps ?_ | refine Keeps.fold (fun _ _ _ => ?_) _ ?_

theorem issueDeal_keeps {s₀ s : State} {at_ : Site} {slot n : Nat} {j : Job} (hs : Keeps s₀ s) : KeepsI s₀ (issueDeal at_ slot n j s) := by
  unfold issueDeal
  with_reducible repeat' first | assumption | (intro x; subst x) | lift_lets -underBinder | refine KeepsI.done ?_ | refine refuseInstr_keeps ?_ | refine startOp_keeps ?_ | refine onVerdict_keeps (fun _ _ => ?_) ?_ | refine updSession_keeps ?_ | refine drawElems_keeps ?_ | refine drawVecs_keeps _ ?_ | refine flushDeals_keeps ?_ | refine Keeps.ident ?_ | split

theorem dropShare_keeps {s₀ s : State} {port : Option PortIx} {reason : Nat} (hs : Keeps s₀ s) : Keeps s₀ (dropShare port reason s) := by
  unfold dropShare
  with_reducible repeat' first | assumption | refine discard_keeps ?_ | split

theorem strayMessage_keeps {s₀ s : State} {m : ExMsg} (hs : Keeps s₀ s) : Keeps s₀ (strayMessage m s) := by
  unfold strayMessage
  with_reducible repeat' first | assumption | refine failOp_keeps ?_ | refine dropShare_keeps ?_ | split

theorem peerMessage_keeps {s₀ s : State} {slot : Nat} {ses : Session} {m : ExMsg} {abort : Bool} (hs : Keeps s₀ s) : Keeps s₀ (peerMessage slot ses m abort s) := by
  unfold peerMessage
  with_reducible repeat' first | assumption | refine countLate_keeps ?_ | refine failOp_keeps ?_ | refine updSession_keeps ?_ | refine acceptMsg_keeps ?_ | split

theorem nakShare_keeps {s₀ s : State} {p : PartIx} {part epoch : Nat} {tag : W64} {seq : Nat} (hs : Keeps s₀ s) : Keeps s₀ (nakShare p part epoch tag seq s) := by
  unfold nakShare
  with_reducible repeat' first | assumption | refine originate_keeps ?_

theorem epochBars_keeps {s₀ s : State} {port : Option PortIx} {epoch : Nat} {x : HeldIn} {refuse : State → State}
    (hr : ∀ t, Keeps s₀ t → Keeps s₀ (refuse t)) (hs : Keeps s₀ s) : KeepsO s₀ (epochBars port epoch x refuse s) := by
  unfold epochBars
  split
  · trivial
  · refine KeepsO.ite trivial (KeepsO.ite ?_ (hr _ hs))
    split
    · rename_i e
      exact KeepsO.of e (holdNext_keeps hs)
    · exact hr _ (countRefusal_keeps hs)

theorem messageIn_keeps {s₀ s : State} {m : ExMsg} {abort : Bool} (hs : Keeps s₀ s) : Keeps s₀ (messageIn m abort s) := by
  unfold messageIn
  split
  · exact dropShare_keeps hs
  · split
    · exact strayMessage_keeps hs
    · refine Keeps.ite (dropShare_keeps hs) (Keeps.ite (dropShare_keeps hs) ?_)
      split
      · rename_i e
        exact KeepsO.of e (epochBars_keeps (fun _ h => nakShare_keeps h) hs)
      · exact peerMessage_keeps hs

theorem dealIn_keeps {s₀ s : State} {m : DealMsg} (hs : Keeps s₀ s) : Keeps s₀ (dealIn m s) := by
  unfold dealIn
  split
  · exact dropShare_keeps hs
  · split
    · exact dropShare_keeps hs
    · refine Keeps.ite (dropShare_keeps hs) (Keeps.ite (dropShare_keeps hs) ?_)
      split
      · rename_i e
        exact KeepsO.of e (epochBars_keeps (fun _ h => nakShare_keeps h) hs)
      · exact Keeps.ite hs (updSession_keeps hs)

theorem takeHeld_keeps {s₀ s : State} {x : HeldIn} (hs : Keeps s₀ s) : Keeps s₀ (takeHeld x s) := by
  unfold takeHeld
  with_reducible repeat' first | assumption | refine messageIn_keeps ?_ | refine dealIn_keeps ?_ | split

theorem switchNow_keeps {s₀ s : State}  (hs : Keeps s₀ s) : Keeps s₀ (switchNow s) := by
  unfold switchNow
  with_reducible repeat' first | assumption | refine switchEpoch_keeps ?_ | refine takeHeld_keeps ?_ | refine Keeps.fold (fun _ _ _ => ?_) _ ?_

theorem refuseHeld_keeps {s₀ s : State} {x : HeldIn} (hs : Keeps s₀ s) : Keeps s₀ (refuseHeld x s) := by
  unfold refuseHeld
  with_reducible repeat' first | assumption | (intro x; subst x) | lift_lets -underBinder | refine nak_keeps ?_ | refine nakShare_keeps ?_ | split

theorem raiseFlag_keeps {s₀ s : State} {f : Option FlagTarget} (hs : Keeps s₀ s) : Keeps s₀ (raiseFlag f s) := by
  unfold raiseFlag
  with_reducible repeat' first | assumption | refine wakeDie_keeps ?_ | refine signalFlag_keeps ?_ | split

theorem settleStalls_keeps {s₀ s : State} {d : DieIx} {o : Op} (hs : Keeps s₀ s) : Keeps s₀ (settleStalls d o s) := by
  unfold settleStalls
  with_reducible repeat' first | assumption | refine countStalls_keeps ?_ | split

theorem finishOp_keeps {s₀ s : State} {d : DieIx} {o : Op} (hs : Keeps s₀ s) : Keeps s₀ (finishOp d o s) := by
  unfold finishOp
  with_reducible repeat' first | assumption | refine dropOp_keeps ?_ | refine releaseSlot_keeps ?_ | refine startTongs_keeps ?_ | refine deliverColl_keeps ?_ | refine purgeColl_keeps ?_ | refine deliverExch_keeps ?_ | refine raiseFlag_keeps ?_ | refine settleStalls_keeps ?_ | refine Keeps.fold (fun _ _ _ => ?_) _ ?_ | split

theorem landHost_keeps {s₀ s : State} {d : DieIx} {o : Op} {x : Xfer} {pl : Plan} (hs : Keeps s₀ s) : Keeps s₀ (landHost d o x pl s) := by
  unfold landHost
  with_reducible repeat' first | assumption | refine applyPlan_keeps ?_ | refine ingestFail_keeps ?_ | refine finishOp_keeps ?_ | split | refine KeepsO.of (by assumption) ?_

theorem finishXfer_keeps {s₀ s : State} {d : DieIx} {o : Op} {x : Xfer} (hs : Keeps s₀ s) : Keeps s₀ (finishXfer d o x s) := by
  unfold finishXfer
  with_reducible repeat' first | assumption | (intro x; refine (fun (_ : Keeps s₀ x) => ?_) ?_; (on_goal 1 => clear_value x); (on_goal 2 => subst x)) | lift_lets -underBinder | refine fillSlot_keeps ?_ | refine updOp_keeps ?_ | refine emitHost_keeps ?_ | refine pump_keeps ?_ | refine updXfer_keeps ?_ | refine sendRemoteFlag_keeps ?_ | refine finishOp_keeps ?_ | refine landHost_keeps ?_ | refine Keeps.fold (fun _ _ _ => ?_) _ ?_ | split

theorem refuseWork_keeps {s₀ s : State} {p : Packet} (hs : Keeps s₀ s) : Keeps s₀ (refuseWork p s) := by
  unfold refuseWork
  with_reducible repeat' first | assumption | refine countLate_keeps ?_ | refine failOp_keeps ?_ | refine failColl_keeps ?_ | split

theorem cancelLine_keeps {s₀ s : State} {d : DieIx} {q : QueueIx} {n mode target : Nat} (hs : Keeps s₀ s) : KeepsP s₀ (cancelLine d q n mode target s) := by
  unfold cancelLine
  with_reducible repeat' first | assumption | refine Keeps.updQueue ?_ (fun x hx => hx) | refine putCpl_keeps ?_ | refine Keeps.fold (fun _ _ _ => ?_) _ ?_ | split

theorem issueFlagSet_keeps {s₀ s : State} {at_ : Site} {flag w : Nat} {j : Job} (hs : Keeps s₀ s) : KeepsI s₀ (issueFlagSet at_ flag w j s) := by
  unfold issueFlagSet
  with_reducible repeat' first | assumption | (intro x; subst x) | lift_lets -underBinder | refine KeepsI.done ?_ | refine skipInstr_keeps ?_ | refine startOp_keeps ?_ | refine onVerdict_keeps (fun _ _ => ?_) ?_ | refine sendReq_keeps ?_ | refine Keeps.ident ?_ | split

theorem lateFlag_keeps {s₀ s : State} {d : DieIx} {h : Held} (hs : Keeps s₀ s) : Keeps s₀ (lateFlag d h s) := by
  unfold lateFlag
  with_reducible repeat' first | assumption | refine Keeps.ite ?_ ?_ | refine countLate_keeps ?_

theorem streamTimeout_keeps {s₀ s : State} {d : DieIx} {q : QueueIx} (hs : Keeps s₀ s) : Keeps s₀ (streamTimeout d q s) := by
  unfold streamTimeout
  with_reducible repeat' first | assumption | refine logJob_keeps ?_ | refine quenchJob_keeps ?_ | split

theorem issueTemper_keeps {s₀ s : State} {at_ : Site} {src dst : Loc} {cfgId slot work : Nat} {j : Job} (hs : Keeps s₀ s) : KeepsI s₀ (issueTemper at_ src dst cfgId slot work j s) := by
  unfold issueTemper
  with_reducible repeat' first | assumption | (intro x; subst x) | lift_lets -underBinder | refine Keeps.updDie ?_ (fun _ hx => hx.scratch (freeMem_wf _ _ _ hx.scratchWf) rfl rfl rfl rfl rfl) | exact KeepsI.wait | refine KeepsI.done ?_ | refine skipInstr_keeps ?_ | refine refuseInstr_keeps ?_ | refine withScoreboard_keeps (fun _ _ _ => ?_) ?_ | refine onVerdict_keeps (fun _ _ => ?_) ?_ | refine runClu_keeps ?_ | refine Keeps.ident ?_ | split | refine Keeps.upd ?_

theorem allocPools_keeps {s₀ s : State} {l : List (DieIx × Nat × Nat × Nat)} (hs : Keeps s₀ s) : Keeps s₀ (allocPools l s) := by
  unfold allocPools
  with_reducible repeat' first | assumption | refine updHandle_keeps ?_ | refine Keeps.fold (fun _ _ _ => ?_) _ ?_

theorem writeRun_keeps {s₀ s : State} {o : Nat} {bs : List Byte} {r : Nat × Nat × Nat × Nat} (hs : Keeps s₀ s) :
    Keeps s₀ (writeRun o bs r s) := by
  unfold writeRun
  exact Keeps.ite (wakeDie_keeps (hs.updDie fun _ hx => hx.store rfl (memPut_wf _ _ hx.2.1) rfl rfl rfl rfl)) hs

theorem writeCopies_keeps {s₀ s : State} {placed : List (Nat × Nat × Nat × Nat)} {o : Nat} {bs : List Byte} (hs : Keeps s₀ s) :
    Keeps s₀ (writeCopies placed o bs s) := Keeps.fold (fun _ _ h => writeRun_keeps h) _ hs

theorem noteReason_keeps {s₀ s : State} {p : PartIx} {slot tag r : Nat} (hs : Keeps s₀ s) : Keeps s₀ (noteReason p slot tag r s) := by
  unfold noteReason
  with_reducible repeat' first | assumption | refine Keeps.ite ?_ ?_ | refine updKs_keeps ?_

theorem updImport_keeps {s₀ s : State} {p : PartIx} {slot : Nat} {f : Import → Import} (hs : Keeps s₀ s) : Keeps s₀ (updImport p slot f s) := by
  unfold updImport
  with_reducible repeat' first | assumption | refine Keeps.updPart ?_

theorem keepSegment_keeps {s₀ s : State} {p : PartIx} {slot : Nat} {im : Import} {m : List Byte} {placed : List (Nat × Nat × Nat × Nat)}
    (hs : Keeps s₀ s) : Keeps s₀ (keepSegment p slot im m placed s) := by
  have h : ∀ {c e : Prop} [Decidable c] [Decidable e] {b : MirrorBody} {x : Import} {o n tag : Nat},
      Keeps s₀ (if c then sendRows p b (writeCopies placed o m (updImport p slot (fun _ => x) s))
        else if e then sendTwin n p tag (writeCopies placed o m (updImport p slot (fun _ => x) s))
        else writeCopies placed o m (updImport p slot (fun _ => x) s)) :=
    Keeps.ite (sendRows_keeps (writeCopies_keeps (updImport_keeps hs)))
      (Keeps.ite (sendTwin_keeps (writeCopies_keeps (updImport_keeps hs))) (writeCopies_keeps (updImport_keeps hs)))
  exact Keeps.ite (commitImport_keeps h) h

theorem takeSegment_keeps {s₀ s : State} {p : PartIx} {slot : Nat} {im : Import} {m : List Byte} (hs : Keeps s₀ s) :
    Keeps s₀ (takeSegment p slot im m s) := by
  unfold takeSegment
  split
  · exact failImport_keeps hs
  · split
    · exact failImport_keeps hs
    · exact keepSegment_keeps hs

theorem segmentArrives_keeps {s₀ s : State} {p : PartIx} {slot : Nat} {im : Import} {wlen : Nat} {bytes : List Byte} (hs : Keeps s₀ s) : Keeps s₀ (segmentArrives p slot im wlen bytes s) := by
  unfold segmentArrives
  with_reducible repeat' first | assumption | refine failImport_keeps ?_ | refine takeSegment_keeps ?_ | split

theorem failStalled_keeps {s₀ s : State} {p : PartIx} {slot : Nat} (hs : Keeps s₀ s) : Keeps s₀ (failStalled p slot s) := by
  unfold failStalled
  with_reducible repeat' first | assumption | refine logJob_keeps ?_ | refine quenchJob_keeps ?_ | refine Keeps.fold (fun _ _ _ => ?_) _ ?_ | split

theorem evictSet_keeps {s₀ s : State} {p : PartIx} {tag : Nat} (hs : Keeps s₀ s) : Keeps s₀ (evictSet p tag s) := by
  unfold evictSet
  with_reducible repeat' first | assumption | refine updKs_keeps ?_ | refine finishEvictions_keeps ?_ | refine failStalled_keeps ?_ | split

end Sys2Proof.Machine
end

