-- ==== Sys2Proof/Laws/KeepsControl.lean ====
section
/-! SUPPORT. One lemma for each shared operation of Machine/Twins, HearthRules, HostPorts, BigNum, Faults, Bist, Boot, Dictionary, PartCommands,
DictWrites and Fivepin: it leaves the waiting commands and the fixed fuses as they are, and every memory in canonical form. -/

set_option linter.unusedTactic false
set_option linter.unreachableTactic false

namespace Sys2Proof.Machine

theorem updTwin_keeps {s₀ s : State} {f : Twin → Twin} (hs : Keeps s₀ s) : Keeps s₀ (updTwin f s) := by
  unfold updTwin
  with_reducible repeat' first | assumption | refine Keeps.upd ?_

theorem startPair_keeps {s₀ s : State}  (hs : Keeps s₀ s) : KeepsE s₀ (startPair s) := by
  unfold startPair
  with_reducible repeat' first | assumption | exact KeepsE.error | refine KeepsE.ok ?_ | refine KeepsE.ite ?_ ?_ | refine sendTwin_keeps ?_ | refine updTwin_keeps ?_

theorem failRefetches_keeps {s₀ s : State}  (hs : Keeps s₀ s) : Keeps s₀ (failRefetches s) := by
  unfold failRefetches
  with_reducible repeat' first | assumption | refine updKs_keeps ?_ | refine updTwin_keeps ?_ | refine Keeps.fold (fun _ _ _ => ?_) _ ?_

theorem endMirroring_keeps {s₀ s : State}  (hs : Keeps s₀ s) : Keeps s₀ (endMirroring s) := by
  unfold endMirroring
  with_reducible repeat' first | assumption | refine Keeps.updPart ?_ | refine commitAlone_keeps ?_ | refine updTwin_keeps ?_ | refine failRefetches_keeps ?_ | refine Keeps.fold (fun _ _ _ => ?_) _ ?_

theorem declareLost_keeps {s₀ s : State}  (hs : Keeps s₀ s) : Keeps s₀ (declareLost s) := by
  unfold declareLost
  with_reducible repeat' first | assumption | refine logAt_keeps ?_ | refine quenchPartition_keeps ?_ | refine updTwin_keeps ?_ | refine endMirroring_keeps ?_ | refine Keeps.fold (fun _ _ _ => ?_) _ ?_

theorem detachTwin_keeps {s₀ s : State}  (hs : Keeps s₀ s) : Keeps s₀ (detachTwin s) := by
  unfold detachTwin
  with_reducible repeat' first | assumption | refine Keeps.updPart ?_ | refine updTwin_keeps ?_ | refine endMirroring_keeps ?_ | refine Keeps.fold (fun _ _ _ => ?_) _ ?_

theorem startDetach_keeps {s₀ s : State}  (hs : Keeps s₀ s) : KeepsE s₀ (startDetach s) := by
  unfold startDetach
  with_reducible repeat' first | assumption | exact KeepsE.error | refine KeepsE.ok ?_ | refine sendTwin_keeps ?_ | refine detachTwin_keeps ?_ | split

theorem startPromote_keeps {s₀ s : State} {p : PartIx} (hs : Keeps s₀ s) : KeepsE s₀ (startPromote p s) := by
  unfold startPromote
  with_reducible repeat' first | assumption | exact KeepsE.error | refine KeepsE.ok ?_ | refine KeepsE.ite ?_ ?_ | refine Keeps.updPart ?_

theorem updMirror_keeps {s₀ s : State} {p : PartIx} {tag : Nat} {f : Mirror → Mirror} (hs : Keeps s₀ s) : Keeps s₀ (updMirror p tag f s) := by
  unfold updMirror
  with_reducible repeat' first | assumption | refine updTwin_keeps ?_

theorem dropMirror_keeps {s₀ s : State} {p : PartIx} {tag : Nat} (hs : Keeps s₀ s) : Keeps s₀ (dropMirror p tag s) := by
  unfold dropMirror
  with_reducible repeat' first | assumption | refine updTwin_keeps ?_

theorem checkMirror_keeps {s₀ s : State} {p : PartIx} {m : Mirror} (hs : Keeps s₀ s) : Keeps s₀ (checkMirror p m s) := by
  unfold checkMirror
  with_reducible repeat' first | assumption | (intro x; subst x) | lift_lets -underBinder | refine sendTwin_keeps ?_ | refine writeCopies_keeps ?_ | refine updMirror_keeps ?_ | refine dropMirror_keeps ?_ | split

theorem takeMirror_keeps {s₀ s : State} {p : PartIx} {slot tag : Nat} {homes : BitVec 16} {offset : Nat} {rows : List Byte}
    (hs : Keeps s₀ s) : Keeps s₀ (takeMirror p slot tag homes offset rows s) :=
  updMirror_keeps (Keeps.ite hs (updTwin_keeps (dropMirror_keeps hs)))

theorem moveRun_keeps {s₀ s : State} {d : DieIx} {n at_ : Nat} (hs : Keeps s₀ s) : KeepsT s₀ (moveRun d n at_ s) := by
  unfold moveRun
  cases placeRows s d n with
  | none => trivial
  | some b =>
    rw [Option.map_some]
    refine KeepsT.some (Keeps.updDie hs fun _ hx => hx.store rfl (memPut_wf _ _ hx.2.1) rfl rfl rfl rfl)

theorem moveRuns_keeps {s₀ s : State} {d : DieIx} {base rows : Nat} {l : List (Nat × Nat × Nat × Nat)} (hs : Keeps s₀ s) :
    KeepsT s₀ (moveRuns d base rows l s) := by
  suffices ∀ (l : List (Nat × Nat × Nat × Nat)) (o : Option (List (Nat × Nat × Nat × Nat) × State)), KeepsT s₀ o → KeepsT s₀ (l.foldl (fun acc r => acc.bind fun a =>
      if r.1 == d.val && runsMeet base rows r.2.2.2 r.2.2.1 then
        (moveRun d r.2.2.1 r.2.2.2 a.2).map fun x => (a.1 ++ [(r.1, r.2.1, r.2.2.1, x.1)], x.2)
      else some (a.1 ++ [r], a.2)) o) from this l _ hs
  intro l
  induction l with
  | nil => exact fun _ h => h
  | cons r l ih =>
    refine fun o h => ih _ ?_
    cases o with
    | none => trivial
    | some a =>
      refine KeepsT.ite ?_ h
      have hm := moveRun_keeps (d := d) (n := r.2.2.1) (at_ := r.2.2.2) (s := a.2) h
      revert hm
      cases moveRun d r.2.2.1 r.2.2.2 a.2 with
      | none => exact fun _ => trivial
      | some x => exact fun h => h

theorem foldO_keeps {α : Type} {s₀ : State} {f : α → State → Option State} (hf : ∀ x s, Keeps s₀ s → KeepsO s₀ (f x s)) :
    ∀ (l : List α) {o : Option State}, KeepsO s₀ o → KeepsO s₀ (l.foldl (fun acc x => acc.bind (f x)) o)
  | [], _, h => h
  | x :: l, o, h => by
    refine foldO_keeps hf l ?_
    cases o with
    | none => trivial
    | some s => exact hf x s h

theorem moveRuns_then {s₀ s : State} {d : DieIx} {base rows : Nat} {l : List (Nat × Nat × Nat × Nat)}
    {f : List (Nat × Nat × Nat × Nat) → State → State} (hf : ∀ x t, Keeps s₀ t → Keeps s₀ (f x t)) (hs : Keeps s₀ s) :
    KeepsO s₀ ((moveRuns d base rows l s).map fun x => f x.1 x.2) := by
  have h := moveRuns_keeps (d := d) (base := base) (rows := rows) (l := l) hs
  revert h
  cases moveRuns d base rows l s with
  | none => exact fun _ => trivial
  | some x => exact fun h => hf _ _ h

theorem clearKeys_keeps {s₀ s : State} {p : PartIx} {d : DieIx} {base rows : Nat} (hs : Keeps s₀ s) :
    KeepsO s₀ (clearKeys p d base rows s) :=
  foldO_keeps (fun e _ h => moveRuns_then (f := fun r t => updKs p e.1 (fun k => { k with rows := r }) t) (fun _ _ h => updKs_keeps h) h) _
    (KeepsO.some hs)

theorem clearMirrors_keeps {s₀ s : State} {p : PartIx} {d : DieIx} {base rows : Nat} (hs : Keeps s₀ s) :
    KeepsO s₀ (clearMirrors p d base rows s) :=
  foldO_keeps (fun m _ h => moveRuns_then (f := fun r t => updMirror p m.tag (fun m => { m with placed := r }) t) (fun _ _ h => updMirror_keeps h) h) _
    (KeepsO.some hs)

theorem takeStore_keeps {s₀ s : State} {p : PartIx} {die : DieIx} {handle base rows : Nat} {poison : Option (BitVec 16)} {offset : Nat}
    {bytes : List Byte} (hs : Keeps s₀ s) : Keeps s₀ (takeStore p die handle base rows poison offset bytes s) := by
  unfold takeStore
  refine Keeps.ite hs ?_
  dsimp only
  split
  · exact hs
  · rename_i e
    refine wakeDie_keeps ?_
    refine Keeps.updDie ?_ fun _ hx => hx.store rfl (memPut_wf _ _ hx.2.1) rfl rfl rfl rfl
    obtain ⟨t, ht, e⟩ := Option.bind_eq_some_iff.1 e
    have h1 : KeepsO s₀ (some t) := ht ▸ clearKeys_keeps (Keeps.updDie hs fun _ hx => hx.frame rfl rfl rfl rfl rfl rfl)
    exact KeepsO.of e (clearMirrors_keeps h1)

theorem fillGoesOn_keeps {s₀ s : State} {p : PartIx} {slot : Nat} (hs : Keeps s₀ s) : Keeps s₀ (fillGoesOn p slot s) := by
  unfold fillGoesOn
  with_reducible repeat' first | assumption | refine updTwin_keeps ?_

theorem failRefetch_keeps {s₀ s : State} {p : PartIx} {slot : Nat} (hs : Keeps s₀ s) : Keeps s₀ (failRefetch p slot s) := by
  unfold failRefetch
  with_reducible repeat' first | assumption | refine updKs_keeps ?_ | refine updTwin_keeps ?_ | refine dropMirror_keeps ?_

theorem sendSet_keeps {s₀ s : State} {p : PartIx} {slot : Nat} {k : KeySet} (hs : Keeps s₀ s) : Keeps s₀ (sendSet p slot k s) := by
  unfold sendSet
  with_reducible repeat' first | assumption | refine wakeDie_keeps ?_ | refine sendRows_keeps ?_ | refine Keeps.fold (fun _ _ _ => ?_) _ ?_

theorem replaceKey_keeps {s₀ s : State} {p : PartIx} {slot : Nat} {rows : List Byte} {e : KeyEntry} {d : DieIx} (hs : Keeps s₀ s) :
    KeepsO s₀ (replaceKey p slot rows e d s) := by
  unfold replaceKey
  dsimp only
  split
  · trivial
  · exact updKs_keeps (wakeDie_keeps (hs.updDie fun _ hx => hx.store rfl (memPut_wf _ _ hx.2.1) rfl rfl rfl rfl))

theorem replaceKeys_keeps {s₀ s : State} {p : PartIx} {slot : Nat} {rows : List Byte} (hs : Keeps s₀ s) :
    KeepsO s₀ (replaceKeys p slot rows s) := foldO_keeps (fun _ _ h => replaceKey_keeps h) _ (KeepsO.some hs)

theorem startFill_keeps {s₀ s : State} {p : PartIx} {partnerStandby : Bool} {partnerDies : BitVec 16} (hs : Keeps s₀ s) : KeepsE s₀ (startFill p partnerStandby partnerDies s) := by
  unfold startFill
  with_reducible repeat' first | assumption | exact KeepsE.error | refine KeepsE.ok ?_ | refine KeepsE.ite ?_ ?_ | refine wakeDie_keeps ?_ | refine sendRows_keeps ?_ | refine updTwin_keeps ?_ | refine sendSet_keeps ?_ | refine Keeps.fold (fun _ _ _ => ?_) _ ?_

theorem judgeSensor_keeps {s₀ s : State} {d : DieIx} {temps : List Int} {k : Nat} (hs : Keeps s₀ s) : Keeps s₀ (judgeSensor d temps k s) := by
  unfold judgeSensor
  with_reducible repeat' first | assumption | refine Keeps.ite ?_ ?_ | refine Keeps.updDie ?_ (fun x hx => hx.frame rfl rfl rfl rfl rfl rfl) | refine count_keeps ?_ | refine logAt_keeps ?_ | refine deviceFail_keeps ?_

theorem senseDie_keeps {s₀ s : State} {rs : List DieReport} {d : DieIx} (hs : Keeps s₀ s) : Keeps s₀ (senseDie rs d s) := by
  unfold senseDie
  with_reducible repeat' first | assumption | (intro x; subst x) | lift_lets -underBinder | refine Keeps.updDie ?_ (fun x hx => hx.frame rfl rfl rfl rfl rfl rfl) | refine judgeSensor_keeps ?_ | refine Keeps.fold (fun _ _ _ => ?_) _ ?_ | split

theorem heatDie_keeps {s₀ s : State} {d : DieIx} (hs : Keeps s₀ s) : Keeps s₀ (heatDie d s) := by
  unfold heatDie
  with_reducible repeat' first | assumption | refine Keeps.ite ?_ ?_ | refine Keeps.updDie ?_ (fun x hx => hx.frame rfl rfl rfl rfl rfl rfl) | refine logAt_keeps ?_

theorem easeDie_keeps {s₀ s : State} {d : DieIx} (hs : Keeps s₀ s) : Keeps s₀ (easeDie d s) := by
  unfold easeDie
  with_reducible repeat' first | assumption | refine Keeps.updDie ?_ (fun x hx => hx.frame rfl rfl rfl rfl rfl rfl)

theorem clampDie_keeps {s₀ s : State} {rs : List DieReport} {d : DieIx} (hs : Keeps s₀ s) : Keeps s₀ (clampDie rs d s) := by
  unfold clampDie
  with_reducible repeat' first | assumption | refine Keeps.updDie ?_ (fun x hx => hx.frame rfl rfl rfl rfl rfl rfl)

theorem updHearth_keeps {s₀ s : State} {f : Hearth → Hearth} (hs : Keeps s₀ s) : Keeps s₀ (updHearth f s) := by
  unfold updHearth
  with_reducible repeat' first | assumption | refine Keeps.upd ?_

theorem capStep_keeps {s₀ s : State} {rs : List DieReport} (hs : Keeps s₀ s) : Keeps s₀ (capStep rs s) := by
  unfold capStep
  with_reducible repeat' first | assumption | refine Keeps.ite ?_ ?_ | refine logAt_keeps ?_ | refine updHearth_keeps ?_ | refine Keeps.upd ?_

theorem chargePart_keeps {s₀ s : State} {p : PartIx} {k pj : Nat} (hs : Keeps s₀ s) : Keeps s₀ (chargePart p k pj s) := by
  unfold chargePart
  with_reducible repeat' first | assumption | refine Keeps.updPart ?_

theorem chargeDie_keeps {s₀ s : State} {rs : List DieReport} {d : DieIx} (hs : Keeps s₀ s) : Keeps s₀ (chargeDie rs d s) := by
  unfold chargeDie
  with_reducible repeat' first | assumption | (intro x; subst x) | lift_lets -underBinder | refine Keeps.updJob ?_ | refine chargePart_keeps ?_ | refine Keeps.fold (fun _ _ _ => ?_) _ ?_ | split

theorem noteClamps_keeps {s₀ s : State} {rs : List DieReport} {d : DieIx} (hs : Keeps s₀ s) : Keeps s₀ (noteClamps rs d s) := by
  unfold noteClamps
  with_reducible repeat' first | assumption | refine Keeps.ite ?_ ?_ | refine Keeps.updJob ?_ | refine logJob_keeps ?_ | refine Keeps.fold (fun _ _ _ => ?_) _ ?_

theorem sendPace_keeps {s₀ s : State} {o : Op} {c : Coll} (hs : Keeps s₀ s) : Keeps s₀ (sendPace o c s) := by
  unfold sendPace
  with_reducible repeat' first | assumption | refine sendMsg_keeps ?_ | refine Keeps.fold (fun _ _ _ => ?_) _ ?_ | split

theorem paceStep_keeps {s₀ s : State}  (hs : Keeps s₀ s) : Keeps s₀ (paceStep s) := by
  unfold paceStep
  with_reducible repeat' first | assumption | refine Keeps.ite ?_ ?_ | refine Keeps.updDie ?_ (fun x hx => hx.frame rfl rfl rfl rfl rfl rfl) | refine sendPace_keeps ?_ | refine Keeps.fold (fun _ _ _ => ?_) _ ?_

theorem takeCaps_keeps {s₀ s : State}  (hs : Keeps s₀ s) : Keeps s₀ (takeCaps s) := by
  unfold takeCaps
  with_reducible repeat' first | assumption | refine updHearth_keeps ?_

theorem governor_keeps {s₀ s : State} {rs : List DieReport} (hs : Keeps s₀ s) : Keeps s₀ (governor rs s) := by
  unfold governor
  with_reducible repeat' first | assumption | refine Keeps.updDie ?_ (fun x hx => hx.frame rfl rfl rfl rfl rfl rfl) | refine senseDie_keeps ?_ | refine heatDie_keeps ?_ | refine easeDie_keeps ?_ | refine clampDie_keeps ?_ | refine capStep_keeps ?_ | refine chargeDie_keeps ?_ | refine noteClamps_keeps ?_ | refine paceStep_keeps ?_ | refine takeCaps_keeps ?_ | refine Keeps.fold (fun _ _ _ => ?_) _ ?_ | refine Keeps.upd ?_

theorem applyBrake_keeps {s₀ s : State}  (hs : Keeps s₀ s) : Keeps s₀ (applyBrake s) := by
  unfold applyBrake
  with_reducible repeat' first | assumption | refine Keeps.updDie ?_ (fun x hx => hx.frame rfl rfl rfl rfl rfl rfl) | refine logAt_keeps ?_ | refine Keeps.fold (fun _ _ _ => ?_) _ ?_

theorem admitJob_keeps {s₀ s : State} {j : Job} (hs : Keeps s₀ s) : Keeps s₀ (admitJob j s) := by
  unfold admitJob
  with_reducible repeat' first | assumption | refine Keeps.updQueue ?_ (fun x hx => hx) | refine Keeps.updJob ?_ | refine wakeDie_keeps ?_ | refine settleQueue_keeps ?_ | refine Keeps.fold (fun _ _ _ => ?_) _ ?_

theorem considerJob_keeps {s₀ : State} {shut : Bool} {acc : State × Bool} {id : Nat} (hs : KeepsL s₀ acc) : KeepsL s₀ (considerJob shut acc id) := by
  unfold considerJob
  split
  · dsimp only
    refine KeepsL.ite hs ?_
    split
    · split
      · exact settleDies_keeps (removeJob_keeps (refusePacket_keeps hs))
      · exact hs
    · refine KeepsL.ite ?_ (KeepsL.ite ?_ ?_)
      · exact Keeps.updJob hs
      · exact admitJob_keeps (Keeps.updJob hs)
      · exact Keeps.updJob (Keeps.updJob hs)
  · exact hs

theorem admitAll_keeps {s₀ s : State} (hs : Keeps s₀ s) : Keeps s₀ (admitAll s) := by
  have : ∀ (b : Bool) (l : List Nat) (a : State × Bool), KeepsL s₀ a → KeepsL s₀ (l.foldl (considerJob b) a) := by
    intro b l
    induction l with
    | nil => exact fun _ h => h
    | cons x l ih => exact fun a h => ih _ (considerJob_keeps h)
  exact Keeps.ite hs (this _ _ (s, false) hs)

theorem boundary_keeps {s₀ s : State}  (hs : Keeps s₀ s) : Keeps s₀ (boundary s) := by
  unfold boundary
  with_reducible repeat' first | assumption | refine Keeps.ite ?_ ?_ | refine emit_keeps ?_ | refine stampAll_keeps ?_ | refine switchNow_keeps ?_ | refine updHearth_keeps ?_ | refine admitAll_keeps ?_

theorem settleDisable_keeps {s₀ s : State} {d : DieIx} {q : QueueIx} (hs : Keeps s₀ s) : Keeps s₀ (settleDisable d q s) := by
  unfold settleDisable
  with_reducible repeat' first | assumption | refine Keeps.ite ?_ ?_ | refine Keeps.updQueue ?_ (fun x hx => hx)

theorem writeRing_wf {w : CtlWrite} {x : Queue} (h : Memory.wf x.window = true) : Memory.wf (writeRing w x).window = true := by
  unfold writeRing
  dsimp only
  cases w.vector <;> dsimp only <;> split <;> exact h

theorem writeControl_keeps {s₀ s : State} {d : DieIx} {q : QueueIx} {w : CtlWrite} (hs : Keeps s₀ s) : Keeps s₀ (writeControl d q w s) := by
  unfold writeControl
  with_reducible repeat' first | assumption | (intro x; subst x) | lift_lets -underBinder | refine Keeps.updQueue ?_ (fun _ hx => writeRing_wf hx) | refine Keeps.updQueue ?_ (fun x hx => hx) | refine count_keeps ?_ | refine wakeDie_keeps ?_ | refine readQueue_keeps ?_ | refine settleDisable_keeps ?_ | split

theorem putPage_keeps {s₀ s : State} {port : HostId} {fn slot : Nat} {d : DieIx} {q : QueueIx} {o : Nat} {bs : List Byte} (hs : Keeps s₀ s) : Keeps s₀ (putPage port fn slot d q o bs s) := by
  unfold putPage
  with_reducible repeat' first | assumption | refine Keeps.updHost ?_

theorem stagingAccess_keeps {s₀ s : State} {port : HostId} {fn offset length : Nat} {write : Option (List Byte)} (hs : Keeps s₀ s) :
    Keeps s₀ (stagingAccess port fn offset length write s) := by
  unfold stagingAccess
  split
  · refine Keeps.ite (hs.trans ⟨rfl, rfl, fun m => ⟨m.1, fun x hx => ?_⟩⟩) hs
    rcases List.mem_or_eq_of_mem_set hx with h | h
    · exact m.2 x h
    · subst h
      exact memPut_wf _ _ (getD_wf m.2 _)
  · exact Keeps.ite (emit_keeps hs) (emit_keeps hs)

theorem resetPage_wf {x : Queue} (h : Memory.wf x.window = true) : Memory.wf (resetPage x).window = true := h

theorem resetPartition_keeps {s₀ s : State} {p : PartIx} (hs : Keeps s₀ s) : Keeps s₀ (resetPartition p s) := by
  unfold resetPartition
  with_reducible repeat' first | assumption | refine Keeps.updDie ?_ (fun _ hx => hx.queuesMap rfl rfl rfl rfl rfl rfl (fun _ h => resetPage_wf h)) | refine quenchPartition_keeps ?_ | refine Keeps.fold (fun _ _ _ => ?_) _ ?_

theorem resetMembers_keeps {s₀ s : State} {port : HostId} {f : Nat → Bool} (hs : Keeps s₀ s) : Keeps s₀ (resetMembers port f s) := by
  unfold resetMembers
  with_reducible repeat' first | assumption | refine Keeps.updHost ?_ | refine sendMsg_keeps ?_ | refine Keeps.fold (fun _ _ _ => ?_) _ ?_

theorem resetParts_keeps {s₀ s : State} {ps : List PartIx} (hs : Keeps s₀ s) : Keeps s₀ (resetParts ps s) := by
  unfold resetParts
  with_reducible repeat' first | assumption | refine resetPartition_keeps ?_ | refine Keeps.fold (fun _ _ _ => ?_) _ ?_

theorem dropLink_keeps {s₀ s : State} {port : HostId} (hs : Keeps s₀ s) : Keeps s₀ (dropLink port s) := by
  unfold dropLink
  with_reducible repeat' first | assumption | refine Keeps.updHost ?_ | refine resetMembers_keeps ?_ | refine resetParts_keeps ?_

theorem forwardCpl_keeps {s₀ s : State} {w : FwdWrite} {vec : Option Nat} (hs : Keeps s₀ s) : Keeps s₀ (forwardCpl w vec s) := by
  unfold forwardCpl
  with_reducible repeat' first | assumption | refine emit_keeps ?_ | refine msix_keeps ?_ | refine putPage_keeps ?_ | split

theorem updSlot_keeps {s₀ s : State} {p : PartIx} {k : Nat} {f : BnSlot → BnSlot} (hs : Keeps s₀ s) : Keeps s₀ (updSlot p k f s) := by
  unfold updSlot
  with_reducible repeat' first | assumption | refine Keeps.ite ?_ ?_ | refine Keeps.upd ?_

theorem bnNext_keeps {s₀ s : State}  (hs : Keeps s₀ s) : Keeps s₀ (bnNext s) := by
  unfold bnNext
  with_reducible repeat' first | assumption | split | refine Keeps.upd ?_

theorem skipBn_keeps {s₀ s : State} {e : Ev} {i : Instr} {j : Job} {at_ : Site} (hs : Keeps s₀ s) : Keeps s₀ (skipBn e i j at_ s) := by
  unfold skipBn
  with_reducible repeat' first | assumption | refine putScalar_keeps ?_ | refine skipInstr_keeps ?_ | split

theorem issueBn_keeps {s₀ s : State} {at_ : Site} {i : Instr} {j : Job} (hs : Keeps s₀ s) : KeepsI s₀ (issueBn at_ i j s) := by
  unfold issueBn
  with_reducible repeat' first | assumption | exact KeepsI.wait | refine KeepsI.done ?_ | refine KeepsI.ite ?_ ?_ | refine nameDests_keeps ?_ | refine bnNext_keeps ?_ | refine skipBn_keeps ?_ | refine Keeps.upd ?_

theorem bnFinish_keeps {s₀ s : State} {c : BnCmd} {p : PartIx} {j : Job} (hs : Keeps s₀ s) : Keeps s₀ (bnFinish c p j s) := by
  unfold bnFinish
  dsimp only
  have h : KeepsP s₀ (if bnDraws c.instr then freeBelow (2 ^ (64 * (bnLen s p c.instr + 1))) (updDie c.at_.die (fun x => { x with drbgOn := true }) s)
      else (0, s)) := by
    split
    · exact freeBelow_keeps (Keeps.updDie hs fun _ hx => hx.frame rfl rfl rfl rfl rfl rfl)
    · exact hs
  generalize (if bnDraws c.instr then freeBelow (2 ^ (64 * (bnLen s p c.instr + 1))) (updDie c.at_.die (fun x => { x with drbgOn := true }) s)
      else (0, s)) = u at h ⊢
  obtain ⟨r, t⟩ := u
  dsimp only
  split
  · exact skipBn_keeps h
  · rename_i ws e _
    have h2 := Keeps.fold (a := s₀) (f := fun s (w : Nat × Nat) => updSlot p w.1 (fun x => { x with value := w.2, valid := true }) s)
      (fun _ _ h => updSlot_keeps h) ws h
    refine Keeps.ite ?_ (logJob_keeps ?_)
    all_goals
      split
      · exact putScalar_keeps h2
      · exact h2

theorem listFailure_keeps {s₀ s : State} {d : DieIx} {structure_ row : Nat} (hs : Keeps s₀ s) : Keeps s₀ (listFailure d structure_ row s) := by
  unfold listFailure
  with_reducible repeat' first | assumption | refine Keeps.ite ?_ ?_ | refine Keeps.upd ?_

theorem parityFail_keeps {s₀ s : State} {op : Nat} {e : Ev} {detail : Nat} {mark : State → State}
    (hm : ∀ t, Keeps s₀ t → Keeps s₀ (mark t)) (hs : Keeps s₀ s) : Keeps s₀ (parityFail op e detail mark s) := by
  unfold parityFail
  split
  · exact hs
  · split
    · exact hs
    · exact settleDies_keeps (quenchJob_keeps (logJob_keeps (hm _ hs)))

theorem poisonReg_keeps {s₀ s : State} {d : DieIx} {l : RegLoc} (hs : Keeps s₀ s) : Keeps s₀ (poisonReg d l s) := by
  unfold poisonReg
  with_reducible repeat' first | assumption | refine poisonDest_keeps ?_

theorem checkFail_keeps {s₀ s : State} {die : DieIx} {structure_ : Nat} (hs : Keeps s₀ s) : Keeps s₀ (checkFail die structure_ s) := by
  unfold checkFail
  with_reducible repeat' first | assumption | refine deviceFail_keeps ?_ | refine listFailure_keeps ?_

theorem unquench_wf {r : Bool} {x : Queue} (h : Memory.wf x.window = true) : Memory.wf (unquench r x).window = true := by
  unfold unquench
  split <;> exact h

theorem updBist_keeps {s₀ s : State} {f : Bist → Bist} (hs : Keeps s₀ s) : Keeps s₀ (updBist f s) := by
  unfold updBist
  with_reducible repeat' first | assumption | refine Keeps.upd ?_

theorem holdLoc_keeps {s₀ s : State} {e : Nat × Nat × Nat} (hs : Keeps s₀ s) : Keeps s₀ (holdLoc e s) := by
  unfold holdLoc
  with_reducible repeat' first | assumption | refine Keeps.ite ?_ ?_ | refine holdOutRow_keeps ?_ | refine holdOutStack_keeps ?_ | refine listFailure_keeps ?_

theorem listFailures_keeps {s₀ s : State} {l : List BistEntry} (hs : Keeps s₀ s) : Keeps s₀ (listFailures l s) := by
  unfold listFailures
  with_reducible repeat' first | assumption | refine listFailure_keeps ?_ | refine Keeps.fold (fun _ _ _ => ?_) _ ?_

theorem applyRepairs_keeps {s₀ s : State} {repaired : List (Nat × Nat × Nat)} (hs : Keeps s₀ s) : Keeps s₀ (applyRepairs repaired s) := by
  unfold applyRepairs
  with_reducible repeat' first | assumption | refine Keeps.updDie ?_ (fun x hx => hx.frame rfl rfl rfl rfl rfl rfl) | refine updBist_keeps ?_ | refine Keeps.fold (fun _ _ _ => ?_) _ ?_

theorem noRecord_keeps {s₀ s : State} {status : Nat} (hs : Keeps s₀ s) : Keeps s₀ (noRecord status s) := by
  unfold noRecord
  with_reducible repeat' first | assumption | refine logAt_keeps ?_ | refine updBist_keeps ?_ | refine Keeps.updBoot ?_ rfl

theorem takeRecord_keeps {s₀ s : State} {b body : List Byte} (hs : Keeps s₀ s) : Keeps s₀ (takeRecord b body s) := by
  unfold takeRecord
  with_reducible repeat' first | assumption | refine Keeps.ite ?_ ?_ | refine deviceFail_keeps ?_ | refine updBist_keeps ?_ | refine holdLoc_keeps ?_ | refine Keeps.fold (fun _ _ _ => ?_) _ ?_ | refine Keeps.updBoot ?_ rfl

theorem beginClear_keeps {s₀ s : State}  (hs : Keeps s₀ s) : Keeps s₀ (beginClear s) := by
  unfold beginClear
  with_reducible repeat' first | assumption | refine freeBytes_keeps ?_ | refine updBist_keeps ?_

theorem wipeDie_ok {x : Die} (h : dieOk x) : dieOk (wipeDie x) :=
  ⟨rfl, rfl, replicate_wf 8, fun _ h => absurd h List.not_mem_nil, fun _ h => absurd h List.not_mem_nil, h.2.2.2.2.2⟩

theorem burnRepair_fixed {f : Fuses} {e : Nat × Nat × Nat} :
    { burnRepair f e with revoked := 0, rollback := 0, repairBudget := [], fusedRepairs := [] } =
    ({ f with revoked := 0, rollback := 0, repairBudget := [], fusedRepairs := [] } : Fuses) := by
  unfold burnRepair
  split <;> rfl

theorem burnAll_fixed : ∀ (l : List (Nat × Nat × Nat)) (f : Fuses),
    { l.foldl burnRepair f with revoked := 0, rollback := 0, repairBudget := [], fusedRepairs := [] } =
    ({ f with revoked := 0, rollback := 0, repairBudget := [], fusedRepairs := [] } : Fuses)
  | [], _ => rfl
  | e :: l, f => (burnAll_fixed l (burnRepair f e)).trans burnRepair_fixed

theorem startShutdown_keeps {s₀ s : State}  (hs : Keeps s₀ s) : KeepsE s₀ (startShutdown s) := by
  unfold startShutdown
  with_reducible repeat' first | assumption | exact KeepsE.error | refine KeepsE.ok ?_ | refine KeepsE.ite ?_ ?_ | refine updBist_keeps ?_

theorem updBoot_keeps {s₀ s : State} {f : Boot → Boot} (hf : ∀ b, (f b).staging = b.staging) (hs : Keeps s₀ s) : Keeps s₀ (updBoot f s) :=
  Keeps.updBoot hs (hf _)

theorem dieOk_zero : dieOk Die.zero :=
  ⟨rfl, rfl, replicate_wf 8, fun _ h => absurd h List.not_mem_nil, fun _ h => absurd h List.not_mem_nil, by decide⟩

theorem intoReset_keeps {s₀ s : State} {pwrok resetLow : Bool} {vcore : List Nat} (hs : Keeps s₀ s) : Keeps s₀ (intoReset pwrok resetLow vcore s) :=
  hs.trans ⟨rfl, rfl, fun _ => ⟨fun d => by
    have : dieOf (intoReset pwrok resetLow vcore s) d = Die.zero := by simp [dieOf, intoReset, resetOf]
    rw [this]
    exact dieOk_zero, fun x hx => by
    have : x = [] := by simpa [intoReset, resetOf] using hx
    subst this
    rfl⟩⟩

theorem deriveIdentity_keeps {s₀ s : State}  (hs : Keeps s₀ s) : Keeps s₀ (deriveIdentity s) := by
  unfold deriveIdentity
  with_reducible repeat' first | assumption | refine Keeps.upd ?_

theorem runImage_keeps {s₀ s : State} {b : List Byte} (hs : Keeps s₀ s) : Keeps s₀ (runImage b s) := by
  unfold runImage
  with_reducible repeat' first | assumption | refine Keeps.ite ?_ ?_ | refine applyBrake_keeps ?_ | refine updBoot_keeps (fun _ => rfl) ?_ | refine Keeps.upd ?_

theorem startVerification_keeps {s₀ s : State} {port : HostId} {length : Nat} (hs : Keeps s₀ s) : KeepsE s₀ (startVerification port length s) := by
  unfold startVerification
  with_reducible repeat' first | assumption | exact KeepsE.error | refine KeepsE.ok ?_ | refine KeepsE.ite ?_ ?_ | refine updBoot_keeps (fun _ => rfl) ?_

theorem retentionFail_keeps {s₀ s : State} {e : BistEntry} (hs : Keeps s₀ s) : Keeps s₀ (retentionFail e s) := by
  unfold retentionFail
  with_reducible repeat' first | assumption | refine count_keeps ?_ | refine logAt_keeps ?_ | refine deviceFail_keeps ?_ | refine holdOutRow_keeps ?_ | refine holdOutStack_keeps ?_ | refine listFailure_keeps ?_ | split

theorem readEffect_keeps {s₀ s : State} {i k : Nat} (hs : Keeps s₀ s) : Keeps s₀ (readEffect i k s) := by
  unfold readEffect
  with_reducible repeat' first | assumption | refine Keeps.ite ?_ ?_ | refine Keeps.upd ?_

theorem registerMember_keeps {s₀ s : State} {p : PartIx} (hs : Keeps s₀ s) : Keeps s₀ (registerMember p s) := by
  unfold registerMember
  with_reducible repeat' first | assumption | refine sendMsg_keeps ?_ | split

theorem beginCommand_keeps {s₀ s : State} {p : PartIx} {c : PCmd} (hs : Keeps s₀ s) : Keeps s₀ (beginCommand p c s) := by
  unfold beginCommand
  with_reducible repeat' first | assumption | refine Keeps.updPart ?_

theorem clearDie_ok {x : Die} (h : dieOk x) : dieOk (clearDie x) :=
  ⟨rfl, h.2.1, replicate_wf 8, fun _ h => absurd h List.not_mem_nil, fun _ h => absurd h List.not_mem_nil, h.2.2.2.2.2⟩

theorem assignDie_ok {p : PartIx} {x : Die} (h : dieOk x) : dieOk (assignDie p x) :=
  ⟨rfl, rfl, replicate_wf 8, fun _ h => absurd h List.not_mem_nil, fun _ h => absurd h List.not_mem_nil, fun q => by
    simpa [assignDie, freshQueue] using h.2.2.2.2.2 q⟩

theorem startCreate_keeps {s₀ s : State} {p : PartIx} {slotHeld : Bool} (hs : Keeps s₀ s) : KeepsE s₀ (startCreate p slotHeld s) := by
  unfold startCreate
  exact KeepsE.ite trivial (KeepsE.ite trivial (KeepsE.ite trivial (registerMember_keeps (beginCommand_keeps
    (Keeps.fold (fun _ _ h => h.updDie fun _ hx => assignDie_ok hx) _ hs)))))

theorem startStart_keeps {s₀ s : State} {p : PartIx} (hs : Keeps s₀ s) : KeepsE s₀ (startStart p s) := by
  unfold startStart
  with_reducible repeat' first | assumption | exact KeepsE.error | refine KeepsE.ok ?_ | refine KeepsE.ite ?_ ?_ | refine beginCommand_keeps ?_

theorem startStop_keeps {s₀ s : State} {p : PartIx} (hs : Keeps s₀ s) : KeepsE s₀ (startStop p s) := by
  unfold startStop
  with_reducible repeat' first | assumption | exact KeepsE.error | refine KeepsE.ok ?_ | refine KeepsE.ite ?_ ?_ | refine quenchPartition_keeps ?_ | refine beginCommand_keeps ?_

theorem coldClear_keeps {s₀ s : State} {p : PartIx} (hs : Keeps s₀ s) : Keeps s₀ (coldClear p s) := by
  unfold coldClear
  with_reducible repeat' first | assumption | refine Keeps.updDie ?_ (fun _ hx => clearDie_ok hx) | refine Keeps.updPart ?_ | refine zeroPartSecrets_keeps ?_ | refine closeAll_keeps ?_ | refine updTwin_keeps ?_ | refine Keeps.fold (fun _ _ _ => ?_) _ ?_ | refine Keeps.upd ?_

theorem startColdStop_keeps {s₀ s : State} {p : PartIx} (hs : Keeps s₀ s) : KeepsE s₀ (startColdStop p s) := by
  unfold startColdStop
  with_reducible repeat' first | assumption | exact KeepsE.error | refine KeepsE.ok ?_ | refine quenchPartition_keeps ?_ | refine beginCommand_keeps ?_ | refine coldClear_keeps ?_ | split

theorem startDestroy_keeps {s₀ s : State} {p : PartIx} (hs : Keeps s₀ s) : KeepsE s₀ (startDestroy p s) := by
  unfold startDestroy
  with_reducible repeat' first | assumption | exact KeepsE.error | refine KeepsE.ok ?_ | refine KeepsE.ite ?_ ?_ | refine beginCommand_keeps ?_ | refine coldClear_keeps ?_

theorem partCommand_keeps {s₀ s : State} {p : PartIx} {n : Nat} {c : Cls} {slotHeld : Bool} (hs : Keeps s₀ s) : KeepsE s₀ (partCommand p n c slotHeld s) := by
  unfold partCommand
  with_reducible repeat' first | assumption | exact KeepsE.error | refine startCreate_keeps ?_ | refine startStart_keeps ?_ | refine startStop_keeps ?_ | refine startColdStop_keeps ?_ | refine startDestroy_keeps ?_ | split

theorem releaseDies_keeps {s₀ s : State} {p : PartIx} (hs : Keeps s₀ s) : Keeps s₀ (releaseDies p s) := by
  unfold releaseDies
  with_reducible repeat' first | assumption | refine Keeps.updDie ?_ (fun x hx => hx.frame rfl rfl rfl rfl rfl rfl) | refine Keeps.fold (fun _ _ _ => ?_) _ ?_

theorem endCommand_keeps {s₀ s : State} {p : PartIx} {st : PState} (hs : Keeps s₀ s) : Keeps s₀ (endCommand p st s) := by
  unfold endCommand
  with_reducible repeat' first | assumption | refine Keeps.updPart ?_

theorem inRange_keeps {s₀ s : State} {c : Bool} (hs : Keeps s₀ s) : KeepsE s₀ (inRange c s) := by
  unfold inRange
  with_reducible repeat' first | assumption | exact KeepsE.error | refine KeepsE.ok ?_ | refine KeepsE.ite ?_ ?_

theorem whenStopped_keeps {s₀ s : State} {range stopped : Bool} (hs : Keeps s₀ s) : KeepsE s₀ (whenStopped range stopped s) := by
  unfold whenStopped
  with_reducible repeat' first | assumption | exact KeepsE.error | refine KeepsE.ok ?_ | refine KeepsE.ite ?_ ?_

theorem write2_keeps {s₀ s : State} {i k v : Nat} (hs : Keeps s₀ s) : KeepsE s₀ (write2 i k v s) := by
  unfold write2
  with_reducible repeat' first | assumption | refine KeepsE.ite ?_ ?_ | refine Keeps.updPart ?_ | refine updHearth_keeps ?_ | refine inRange_keeps ?_ | refine whenStopped_keeps ?_

theorem updFabric_keeps {s₀ s : State} {f : Fabric → Fabric} (hs : Keeps s₀ s) : Keeps s₀ (updFabric f s) := by
  unfold updFabric
  with_reducible repeat' first | assumption | refine Keeps.upd ?_

theorem writeEpoch_keeps {s₀ s : State} {k v : Nat} (hs : Keeps s₀ s) : KeepsE s₀ (writeEpoch k v s) := by
  unfold writeEpoch
  with_reducible repeat' first | assumption | exact KeepsE.error | refine KeepsE.ite ?_ ?_ | refine inRange_keeps ?_ | refine updFabric_keeps ?_

theorem writePort_keeps {s₀ s : State} {n : PortIx} {v : Nat} (hs : Keeps s₀ s) : KeepsE s₀ (writePort n v s) := by
  unfold writePort
  with_reducible repeat' first | assumption | refine Keeps.updPort ?_ | refine inRange_keeps ?_

theorem onPart_keeps {s₀ : State} {v : Nat} {f : PartIx → Except Nat State} (hf : ∀ p, KeepsE s₀ (f p)) : KeepsE s₀ (onPart v f) := by
  unfold onPart
  split
  · exact hf _
  · trivial

theorem writeTwin_keeps {s₀ s : State} {x : Extra} {k v : Nat} (hs : Keeps s₀ s) : KeepsE s₀ (writeTwin x k v s) := by
  unfold writeTwin
  with_reducible repeat' first | assumption | exact KeepsE.error | refine KeepsE.ite ?_ ?_ | refine Keeps.updPart ?_ | refine updTwin_keeps ?_ | refine startPair_keeps ?_ | refine startDetach_keeps ?_ | refine startPromote_keeps ?_ | refine startFill_keeps ?_ | refine inRange_keeps ?_ | refine whenStopped_keeps ?_ | refine onPart_keeps (fun _ => ?_)

theorem write3_keeps {s₀ s : State} {x : Extra} {i k v : Nat} (hs : Keeps s₀ s) : KeepsE s₀ (write3 x i k v s) := by
  unfold write3
  with_reducible repeat' first | assumption | refine KeepsE.ite ?_ ?_ | refine updHearth_keeps ?_ | refine inRange_keeps ?_ | refine whenStopped_keeps ?_ | refine updFabric_keeps ?_ | refine writeEpoch_keeps ?_ | refine writePort_keeps ?_ | refine writeTwin_keeps ?_ | refine Keeps.upd ?_

theorem advanceRollback_keeps {s₀ s : State} {x : Extra} {v : Nat} (hs : Keeps s₀ s) : KeepsE s₀ (advanceRollback x v s) := by
  unfold advanceRollback
  exact KeepsE.ite trivial (hs.trans ⟨rfl, rfl, id⟩)

theorem drawImportKey_keeps {s₀ s : State} (hs : Keeps s₀ s) : KeepsP s₀ (drawImportKey s) :=
  Keeps.upd (freeBelow_keeps (m := 2 ^ 64 - 1) (freeBelow_keeps (m := p384.order - 1) hs))

theorem requestReport_keeps {s₀ s : State} {c : Cls} {w : Nat} {b : List Byte} (hs : Keeps s₀ s) : KeepsE s₀ (requestReport c w b s) := by
  unfold requestReport
  with_reducible repeat' first | assumption | (intro x; subst x) | lift_lets -underBinder | exact KeepsE.error | refine KeepsE.ok ?_ | refine drawImportKey_keeps ?_ | split | refine Keeps.upd ?_

theorem writeEncryption_keeps {s₀ s : State} {n : PortIx} {v : Nat} (hs : Keeps s₀ s) : KeepsE s₀ (writeEncryption n v s) := by
  unfold writeEncryption
  with_reducible repeat' first | assumption | exact KeepsE.error | refine KeepsE.ok ?_ | refine KeepsE.ite ?_ ?_ | refine Keeps.ite ?_ ?_ | refine Keeps.updPort ?_ | refine takeDown_keeps ?_

theorem write4_keeps {s₀ s : State} {x : Extra} {c : Cls} {w i k : Nat} {b : List Byte} (hs : Keeps s₀ s) : KeepsE s₀ (write4 x c w i k b s) := by
  unfold write4
  with_reducible repeat' first | assumption | refine KeepsE.ite ?_ ?_ | refine Keeps.updPort ?_ | refine inRange_keeps ?_ | refine advanceRollback_keeps ?_ | refine requestReport_keeps ?_ | refine writeEncryption_keeps ?_

theorem writeEntry_keeps {s₀ s : State} {p : PartIx} {b : List Byte} (hs : Keeps s₀ s) : KeepsE s₀ (writeEntry p b s) := by
  unfold writeEntry
  with_reducible repeat' first | assumption | exact KeepsE.error | refine KeepsE.ok ?_ | refine KeepsE.ite ?_ ?_ | refine Keeps.ite ?_ ?_ | refine Keeps.updPart ?_ | refine registerMember_keeps ?_

theorem writeEviction_keeps {s₀ s : State} {p : PartIx} {tag : Nat} (hs : Keeps s₀ s) : KeepsE s₀ (writeEviction p tag s) := by
  unfold writeEviction
  with_reducible repeat' first | assumption | exact KeepsE.error | refine KeepsE.ok ?_ | refine evictSet_keeps ?_ | split

theorem write5_keeps {s₀ s : State} {x : Extra} {c : Cls} {i k : Nat} {b : List Byte} (hs : Keeps s₀ s) : KeepsE s₀ (write5 x c i k b s) := by
  unfold write5
  with_reducible repeat' first | assumption | refine KeepsE.ite ?_ ?_ | refine Keeps.updPart ?_ | refine partCommand_keeps ?_ | refine inRange_keeps ?_ | refine whenStopped_keeps ?_ | refine writeEntry_keeps ?_ | refine writeEviction_keeps ?_ | refine Keeps.upd ?_

theorem writeQuench_keeps {s₀ s : State} {c : Cls} {restart : Bool} {v : Nat} (hs : Keeps s₀ s) : KeepsE s₀ (writeQuench c restart v s) := by
  unfold writeQuench
  with_reducible repeat' first | assumption | exact KeepsE.error | refine KeepsE.ok ?_ | refine KeepsE.ite ?_ ?_ | refine quenchPartition_keeps ?_

theorem write6_keeps {s₀ s : State} {c : Cls} {i k v : Nat} (hs : Keeps s₀ s) : KeepsE s₀ (write6 c i k v s) := by
  unfold write6
  with_reducible repeat' first | assumption | exact KeepsE.error | refine KeepsE.ite ?_ ?_ | refine quenchDevice_keeps ?_ | refine updBist_keeps ?_ | refine startShutdown_keeps ?_ | refine inRange_keeps ?_ | refine writeQuench_keeps ?_ | refine Keeps.upd ?_

theorem writeObj_keeps {s₀ s : State} {x : Extra} {via : Via} {c : Cls} {w i k : Nat} {b : List Byte} (hs : Keeps s₀ s) : KeepsE s₀ (writeObj x via c w i k b s) := by
  unfold writeObj
  with_reducible repeat' first | assumption | exact KeepsE.error | refine startVerification_keeps ?_ | refine write2_keeps ?_ | refine write3_keeps ?_ | refine write4_keeps ?_ | refine write5_keeps ?_ | refine write6_keeps ?_ | split

theorem commitDomain_keeps {s₀ s : State} {i k : Nat} {b : List Byte} (hs : Keeps s₀ s) : KeepsE s₀ (commitDomain i k b s) := by
  unfold commitDomain
  with_reducible repeat' first | assumption | exact KeepsE.error | refine KeepsE.ok ?_ | refine KeepsE.ite ?_ ?_ | refine updBist_keeps ?_ | refine inRange_keeps ?_ | refine whenStopped_keeps ?_ | refine updFabric_keeps ?_

theorem respond_keeps {s₀ s : State} {r : FpReq} {a : Ans} (hs : Keeps s₀ s) : Keeps s₀ (respond r a s) := by
  unfold respond
  with_reducible repeat' first | assumption | refine emit_keeps ?_

theorem closeSession_keeps {s₀ s : State} {r : FpReq} (hs : Keeps s₀ s) : Keeps s₀ (closeSession r s) := by
  unfold closeSession
  with_reducible repeat' first | assumption | refine Keeps.upd ?_

theorem putSession_keeps {s₀ s : State} {x : FpSession} {r : FpReq} (hs : Keeps s₀ s) : Keeps s₀ (putSession x r s) := by
  unfold putSession
  with_reducible repeat' first | assumption | refine closeSession_keeps ?_ | refine Keeps.upd ?_

theorem readSegment_keeps {s₀ s : State} {r : FpReq} {v : List Byte} (hs : Keeps s₀ s) : KeepsP s₀ (readSegment r v s) :=
  Keeps.ite (closeSession_keeps hs) (putSession_keeps hs)

theorem segReadObj_keeps {s₀ s : State} {c : Cls} {r : FpReq} (hs : Keeps s₀ s) : KeepsP s₀ (segReadObj c r s) := by
  unfold segReadObj
  repeat' first | exact hs | exact closeSession_keeps hs | exact putSession_keeps hs | exact readSegment_keeps (readEffect_keeps hs) | exact readSegment_keeps hs | split

theorem writeSegment_keeps {s₀ s : State} {r : FpReq} {x : FpSession} (hs : Keeps s₀ s) : KeepsP s₀ (writeSegment r x s) := by
  unfold writeSegment
  dsimp only
  split
  · exact closeSession_keeps hs
  · split
    · have h := commitDomain_keeps (i := r.index) (k := r.sub) (b := x.value ++ r.data) (closeSession_keeps (r := r) hs)
      split
      · rename_i e
        exact KeepsE.of e h
      · exact closeSession_keeps hs
    · exact putSession_keeps hs

theorem segWriteObj_keeps {s₀ s : State} {o : ObjRow} {r : FpReq} (hs : Keeps s₀ s) : KeepsP s₀ (segWriteObj o r s) := by
  unfold segWriteObj
  repeat' first | exact hs | exact closeSession_keeps hs | exact writeSegment_keeps hs | split

theorem writeReq_keeps {s₀ s : State} {x : Extra} {c : Cls} {o : ObjRow} {r : FpReq} (hs : Keeps s₀ s) : KeepsP s₀ (writeReq x c o r s) := by
  unfold writeReq
  split
  · exact hs
  · split
    · rename_i e
      exact KeepsE.of e (writeObj_keeps hs)
    · exact hs

theorem onObject_keeps {s₀ s : State} {x : Extra} {c : Cls} {o : ObjRow} {r : FpReq} (hs : Keeps s₀ s) : KeepsP s₀ (onObject x c o r s) := by
  unfold onObject
  dsimp only
  have hw : ∀ l : List DieIx, Keeps s₀ (l.foldl (fun s d => wakeDie d s) s) := fun l => Keeps.fold (fun _ _ h => wakeDie_keeps h) l hs
  repeat' first | exact hs | exact readEffect_keeps (hw _) | exact writeReq_keeps (hw _) | exact segReadObj_keeps (hw _) | exact segWriteObj_keeps (hw _) | split

theorem answerReq_keeps {s₀ s : State} {x : Extra} {c : Cls} {r : FpReq} (hs : Keeps s₀ s) : KeepsP s₀ (answerReq x c r s) := by
  unfold answerReq
  repeat' first | exact hs | exact onObject_keeps hs | split

theorem forwardReq_keeps {s₀ s : State} {r : FpReq} (hs : Keeps s₀ s) : Keeps s₀ (forwardReq r s) := by
  unfold forwardReq
  with_reducible repeat' first | assumption | refine sendMsg_keeps ?_ | refine respond_keeps ?_ | split

theorem serveReq_keeps {s₀ s : State} {x : Extra} {r : FpReq} (hs : Keeps s₀ s) : Keeps s₀ (serveReq x r s) := by
  unfold serveReq
  with_reducible repeat' first | assumption | refine count_keeps ?_ | refine respond_keeps ?_ | refine answerReq_keeps ?_ | refine forwardReq_keeps ?_ | split

theorem mctp_keeps {s₀ s : State} {via : Via} {b : List Byte} (hs : Keeps s₀ s) : Keeps s₀ (mctp via b s) := by
  unfold mctp
  with_reducible repeat' first | assumption | refine Keeps.ite ?_ ?_ | refine emit_keeps ?_

theorem startAllTongs_keeps {s₀ s : State}  (hs : Keeps s₀ s) : Keeps s₀ (startAllTongs s) := by
  unfold startAllTongs
  exact Keeps.fold (fun _ _ h => startTongs_keeps h) _ hs

end Sys2Proof.Machine
end

