-- ==== Sys2Proof/WellFormed.lean ====
section
/-! DEFINITION. Well-formed commands: every operand lies in the range that the spec gives its field. A sender never produces
another; `exec` is total on them all. -/

namespace Sys2Proof

/-- A handle, store-handle or descriptor-source index of 10 bits (R225, R250). -/
def okHandle (h : Nat) : Bool := decide (h < 1024)
/-- A scalar register (R15). -/
def okScalar (sc : Nat) : Bool := decide (sc < 64)
/-- A descriptor-table index (R254). -/
def okDesc (i : Nat) : Bool := decide (i < 256)
/-- A ring context (R242). -/
def okRing (r : Nat) : Bool := decide (r < 32)
/-- A big-number slot (R443). -/
def okBn (k : Nat) : Bool := decide (k < 16)
/-- A key-set slot (R85). -/
def okSlot (k : Nat) : Bool := decide (k < 256)

/-- A location (R115, R244): handle, ring or region with its header slot. -/
def okLoc : Loc → Bool
  | .handle h => okHandle h
  | .ring r _ => okRing r
  | .region row slot => decide (row < 16384) && decide (slot < 64)

/-- A vector operand (R197, R198). -/
def okVOp : VOp → Bool
  | .tile _ => true
  | .cache line _ => decide (line < 2048)
  | .desc i => okDesc i
  | .scalar sc => okScalar sc

/-- A Fivepin request's fields fit their widths (R483). -/
def okReq (r : FpReq) : Bool :=
  decide (r.version < 256 ∧ r.opcode < 128 ∧ r.status < 256 ∧ r.index < 65536 ∧ r.sub < 256 ∧ r.member < 64 ∧
    r.offset < 2 ^ 32 ∧ r.length < 65536 ∧ r.total < 2 ^ 32)

/-- A transfer's operands (R258, R259). -/
def okMove (a : MoveArgs) : Bool :=
  okDesc a.src && okDesc a.dst && (match a.flag with | some f => decide (f.flag < 320) | none => true)

/-- Every operand of a command lies in its field's range. -/
def wellFormed : Instr → Bool
  | .go r => okReq r && r.index == 0x1F00 && r.sub == 2
  | .pair r => okReq r && r.index == 0x3040 && r.sub == 6
  | .detach r => okReq r && r.index == 0x3040 && r.sub == 6
  | .fill r _ _ => okReq r && r.index == 0x3040 && r.sub == 7
  | .promote r => okReq r && r.index == 0x3040 && r.sub == 8
  | .read r => okReq r && r.opcode == 1
  | .write r => okReq r && r.opcode == 2
  | .segRead r => okReq r && r.opcode == 3
  | .segWrite r => okReq r && r.opcode == 4
  | .describe r => okReq r && r.opcode == 5
  | .errorRegisterRead r => okReq r && r.index == 0x1001 && r.sub == 0
  | .evictionRequest r => okReq r && r.index == 0x5010 && r.sub == 3
  | .pendingEpochWrite r => okReq r && r.index == 0x3002
  | .routingTableWrite r => okReq r && r.index == 0x3020
  | .create r _ => okReq r && r.index == 0x5000
  | .start r => okReq r && r.index == 0x5000
  | .stop r => okReq r && r.index == 0x5000
  | .coldStop r => okReq r && r.index == 0x5000
  | .destroy r => okReq r && r.index == 0x5000
  | .quenchPartition r => okReq r && r.index == 0x6100 && r.sub == 4
  | .restartQueues r => okReq r && r.index == 0x6100 && r.sub == 5
  | .deviceQuenchCommand r => okReq r && r.index == 0x6100 && r.sub == 6
  | .rollbackAdvance r _ _ => okReq r && r.index == 0x4001 && r.sub == 2
  | .attestationRequest r => okReq r && r.index == 0x4020 && r.sub == 1
  | .linkEncryption r => okReq r && r.index == 0x4030
  | .shutdown r => okReq r && r.index == 0x7000 && r.sub == 1
  | .anchorCompare pt _ _ => decide (1 ≤ pt ∧ pt ≤ 7)
  | .anchorCompareTimeout pt => decide (1 ≤ pt ∧ pt ≤ 7)
  | .queueWindowWrite _ fn slot _ _ o bs => decide (fn ≤ 16 ∧ slot < 64 ∧ o + (bs.getD []).length ≤ 65536)
  | .controlParity _ st => decide (1 ≤ st ∧ st ≤ 17)
  | .setFlag _ (.here f) => decide (f < 320)
  | .setFlag _ (.there w f) => okDesc w && decide (f < 320)
  | .clearFlag _ f => decide (f < 320)
  | .waitFlag _ f => decide (f < 320)
  | .ntt _ _ a b => okLoc a && okLoc b
  | .inverseNtt _ _ a b => okLoc a && okLoc b
  | .polyAdd _ _ a b c => okLoc a && okLoc b && okLoc c
  | .polySubtract _ _ a b c => okLoc a && okLoc b && okLoc c
  | .negate _ _ a b => okLoc a && okLoc b
  | .plaintextAdd _ _ a b c => okLoc a && okLoc b && okLoc c
  | .plaintextMultiply _ _ a b c => okLoc a && okLoc b && okLoc c
  | .ciphertextMultiply _ _ a b c => okLoc a && okLoc b && okLoc c
  | .levelDrop _ _ a b _ => okLoc a && okLoc b
  | .basisConversion _ _ a b _ _ => okLoc a && okLoc b
  | .rescale _ _ a b => okLoc a && okLoc b
  | .modSwitch _ _ a b => okLoc a && okLoc b
  | .encode _ _ h d _ => okHandle h && okLoc d
  | .decode _ _ a h => okLoc a && okHandle h
  | .relinearise _ _ a b k => okLoc a && okLoc b && okSlot k
  | .rotate _ _ a b _ k => okLoc a && okLoc b && okSlot k
  | .conjugate _ _ a b k => okLoc a && okLoc b && okSlot k
  | .hrot _ _ a _ ds k => okLoc a && ds.all okLoc && okSlot k
  | .hrotSum _ _ a ts d k => okLoc a && ts.all (fun t => okLoc t.2) && okLoc d && okSlot k
  | .modUp _ _ a b _ => okLoc a && okLoc b
  | .ip _ _ ds d _ _ k => ds.all okLoc && okLoc d && okSlot k
  | .modDown _ _ a b => okLoc a && okLoc b
  | .temper _ a b cfg k w => okLoc a && okLoc b && decide (cfg < 16) && okSlot k && okHandle w
  | .shrAdd _ _ a b d => okHandle a && okHandle b && okHandle d
  | .shrSub _ _ a b d => okHandle a && okHandle b && okHandle d
  | .shrNeg _ _ a d => okHandle a && okHandle d
  | .shrSmul _ _ a sc d => okHandle a && okScalar sc && okHandle d
  | .shrCadd _ _ a c d => okHandle a && okHandle c && okHandle d
  | .shrSplit _ _ ses _ c d rs => decide (ses < 16) && okHandle c && okHandle d && rs.all okHandle
  | .shrOpen _ _ a d => okHandle a && okHandle d
  | .beaverMul _ _ a b d => okHandle a && okHandle b && okHandle d
  | .secagg _ _ ss d => ss.all okHandle && okHandle d
  | .deal _ ses _ => decide (ses < 16)
  | .tmul _ a => okDesc a.a && okDesc a.b && okScalar a.xt && (match a.palette with | some p => decide (p < 1024) | none => true)
  | .paletteReadClear _ e sc => decide (e < 1024) && okScalar sc
  | .nanCountReadClear _ sc => okScalar sc
  | .add _ _ _ a b d => okVOp a && okVOp b && okVOp d
  | .sub _ _ _ a b d => okVOp a && okVOp b && okVOp d
  | .mul _ _ _ a b d => okVOp a && okVOp b && okVOp d
  | .fma _ _ _ a b c d => okVOp a && okVOp b && okVOp c && okVOp d
  | .min _ _ _ a b d => okVOp a && okVOp b && okVOp d
  | .max _ _ _ a b d => okVOp a && okVOp b && okVOp d
  | .abs _ _ _ a d => okVOp a && okVOp d
  | .neg _ _ _ a d => okVOp a && okVOp d
  | .cmp _ _ _ _ a b d => okVOp a && okVOp b && okVOp d
  | .sel _ _ _ c a b d => okVOp c && okVOp a && okVOp b && okVOp d
  | .recip _ _ _ a d => okVOp a && okVOp d
  | .rsqrt _ _ _ a d => okVOp a && okVOp d
  | .sqrt _ _ _ a d => okVOp a && okVOp d
  | .exp2 _ _ _ a d => okVOp a && okVOp d
  | .log2 _ _ _ a d => okVOp a && okVOp d
  | .cvt _ _ _ a d xt _ => okVOp a && okVOp d && okScalar xt
  | .fix _ _ _ f a d => okVOp a && okVOp d && decide (f ≤ 62)
  | .flt _ _ _ f a d => okVOp a && okVOp d && decide (f ≤ 62)
  | .rsum _ _ _ _ a d => okVOp a && okVOp d
  | .rmax _ _ _ _ a d => okVOp a && okVOp d
  | .rmin _ _ _ _ a d => okVOp a && okVOp d
  | .rargmax _ _ _ _ a d => okVOp a && okVOp d
  | .sort _ _ _ a d => okVOp a && okVOp d
  | .argsort _ _ _ a d => okVOp a && okVOp d
  | .vload _ _ _ _ a d => okVOp a && okVOp d
  | .vstore _ _ _ a d => okVOp a && okVOp d
  | .updNorm _ a => okHandle a.desc && okHandle a.grad && okScalar a.sca && okScalar a.scb
  | .updApply _ a => okHandle a.desc && okHandle a.idx && okHandle a.counts && okHandle a.weights && okHandle a.grad && okHandle a.m && okHandle a.v &&
      okScalar a.sg && okScalar a.fg
  | .hstat _ i a b => okHandle i && okScalar a && okScalar b
  | .alloc _ i base rows _ => okHandle i && decide (base < 2 ^ 20 ∧ rows < 2 ^ 21)
  | .free _ i => okHandle i
  | .ringInit _ r h s sr => okRing r && okHandle h && decide (sr < 2 ^ 21)
  | .ringFree _ r => okRing r
  | .salloc _ i base rows => okHandle i && decide (base < 2 ^ 25 ∧ rows < 2 ^ 25)
  | .sfree _ i => okHandle i
  | .dset _ i h _ => okDesc i && okHandle h
  | .move _ a => okMove a
  | .gather _ a => okDesc a.src && okDesc a.idx && okDesc a.dst
  | .scatter _ a _ => okDesc a.src && okDesc a.idx && okDesc a.dst
  | .sdigest _ i => okHandle i
  | .winOpen _ w h _ _ _ sc => decide (w < 4096) && okHandle h && okScalar sc
  | .winClose _ w sc => decide (w < 4096) && okScalar sc
  | .windowCloseComplete w => decide (w < 4096)
  | .allReduce _ a b c => okDesc a && okDesc b && okHandle c
  | .reduceScatter _ a b c => okDesc a && okDesc b && okHandle c
  | .allGather _ a b c => okDesc a && okDesc b && okHandle c
  | .broadcast _ a b c => okDesc a && okDesc b && okHandle c
  | .barrier _ c => okHandle c
  | .dget _ t _ _ d => okHandle t && okDesc d
  | .dput _ a t _ _ => okDesc a && okHandle t
  | .enable _ fn slot _ _ _ => decide (fn ≤ 16 ∧ slot < 64)
  | .crHead _ fn slot _ _ _ => decide (fn ≤ 16 ∧ slot < 64)
  | .apertureControl _ fn _ => decide (fn ≤ 16)
  | .bar2Access _ fn _ _ _ => decide (fn ≤ 16)
  | .functionLevelReset _ fn => decide (fn ≤ 16)
  | .bnCfg _ k n _ => okBn k && decide (4 ≤ n ∧ n ≤ 64)
  | .bnLoad _ k h _ => okBn k && okHandle h
  | .bnRead _ h _ k => okHandle h && okBn k
  | .modAdd _ d a b m sc => okBn d && okBn a && okBn b && okBn m && okScalar sc
  | .modSub _ d a b m sc => okBn d && okBn a && okBn b && okBn m && okScalar sc
  | .modMul _ d a b m sc => okBn d && okBn a && okBn b && okBn m && okScalar sc
  | .modExp _ d a e m sc => okBn d && okBn a && okBn e && okBn m && okScalar sc
  | .modInv _ d a m sc => okBn d && okBn a && okBn m && okScalar sc
  | .bnRand _ d m sc => okBn d && okBn m && okScalar sc
  | .ecKeygen _ _ d x y sc => okBn d && okBn x && okBn y && okScalar sc
  | .ecMul _ _ k x y x' y' sc => okBn k && okBn x && okBn y && okBn x' && okBn y' && okScalar sc
  | .ecDh _ _ k x y z sc => okBn k && okBn x && okBn y && okBn z && okScalar sc
  | .pwrokRise | .pwrokFall | .sysResetAssert | .sysResetRelease | .selfCheckComplete _ | .perst _ _ | .linkDown _
  | .verificationComplete _ | .repairRecord | .repairRecordWaitExpiry | .ready _ | .thermtrip _ | .quenchInput _
  | .pwrbrkAssert | .pwrbrkDeassert | .droop _ | .syncInEdge _ _ | .syncFreeRun | .governorInterval _
  | .admissionBoundary | .idleEntry _ _ | .partitionQuenchComplete _ | .scratchpadParity _ _ _
  | .clusterBufferParity _ _ _ _ | .registerParity _ _ _ | .keyRowParity _ _ _ | .storeParity _ _ _ | .entropyFail _
  | .clockCheck _ _ | .supplyCheck _ _ | .eyeMarginCheck _ _ | .nop _ _ | .programLoad _ _ | .programLoadComplete _ _ _
  | .programUnload _ _ | .patch _ _ | .patchApply _ _ | .keysetBind _ _ _ | .importSegment _ _ _ | .jobSubmit _ _
  | .fence _ _ | .fenceComplete _ _ | .setStep _ _ | .cancel _ _ | .block _ _ | .blockExpiry _ _ | .jobComplete _ _
  | .flagTimeout _ _ | .flagDeadlock _ _ | .undefinedInstruction _ | .operationComplete _ _ | .exchangeMessage _
  | .dealDelivery _ | .abortMarker _ | .exchangeTimeout _ _ | .pageRequestResponse _ _ _ | .pageRequestTimeout _ _
  | .translationError _ _ | .atsInvalidation _ _ | .readCompletionError _ _ | .readCompletionTimeout _ _
  | .collectiveTimeout _ _ | .flit _ _ | .retry _ _ | .retryRepeat _ | .portDown _ | .training _ _
  | .trainingComplete _ _ | .linkKey _ | .keyStart _ | .keyingTimeout _ | .keyLimit _ | .remoteWrite | .readReq
  | .readData | .ack | .nak | .flagSet | .collData | .collCtrl | .paceMessage _ _ _ | .lossNotice _ _
  | .transferTimeout _ _ | .epochHoldExpiry _ | .epochSwitch | .epochRetire | .heartbeatSend | .heartbeat _
  | .heartbeatInterval _ | .pairResend | .pairRecord _ | .detachRecord _ | .fillComplete | .fillDone _
  | .mirrorRows _ _ | .confirm _ | .commit _ | .abort _ | .refetch _ | .refetchComplete _ _ _
  | .queueDisableComplete _ _ | .sessionTimeout _ _ _ _ | .setEndpointId _ _ | .getEndpointId _
  | .getMctpVersionSupport _ _ | .getMessageTypeSupport _ | .getVendorDefinedMessageSupport _ _ | .smbusAlertResponse
  | .partitionCommandComplete _ | .reportSigned | .bnYield | .bnComplete | .drainGraceExpiry | .drainComplete
  | .clearComplete | .scanComplete _ | .memoryComplete _ | .repairComplete _ | .hostLinkUp _ _ | .droopClear _
  | .linkKeySegment _ _ _ _ | .memberRegistration _ | .forwardedHostWrite _ | .pageNotPresent _ _ _ _ => true

end Sys2Proof
end

