-- ==== Sys2Proof/Tests/Slice0.lean ====
section
/-! SUPPORT. The writer's own tests: ill-formed commands, worked examples of the spec, and a witness for the hypotheses of each
statement. -/

namespace Sys2Proof.Tests
open Machine
set_option Elab.async false

/-! ### States -/

/-- A part with fuses written out. -/
def fz : Fuses :=
  { grade := .f, activeMask := 0xFFFF, stepping := 0, uniqueId := List.replicate 16 7, deviceSecret := List.replicate 32 1
    keyHash := [], revoked := 0, rollback := 0, primes := [1, 2, 3, 4], romDigest := List.replicate 32 0, certChain := []
    pciIds := [0x1234, 1, 2, 3, 0], vcore := List.replicate 16 750, repairBudget := List.replicate 16 8, fusedRepairs := []
    eyeMargin := List.replicate 16 10 }
/-- At the end of reset. -/
def s0 : State := resetOf fz
/-- Waiting for the image, host port A up. -/
def sWait : State := { s0 with boot := { s0.boot with phase := .waitImage }, hostA := { HostPort.zero with enabled := true, linkUp := true } }
/-- In mission mode. -/
def sOn : State :=
  { s0 with boot := { s0.boot with phase := .ready, fwState := 2 }, sec := { s0.sec with state := .operational, identSk := some [] }
            hostA := { HostPort.zero with enabled := true, linkUp := true }, hostB := { HostPort.zero with enabled := true, linkUp := true } }
/-- A request from the host at port A, with the check that its bytes give. -/
def req (opcode index sub : Nat) (data : List Byte) : FpReq :=
  let r : FpReq := { via := .pcie .a 0, version := 1, opcode := opcode, response := false, status := 0, last := true, reserved := 0, index := index
                     sub := sub, member := 0, offset := 0, length := data.length, total := data.length, data := data, check := 0 }
  { r with check := crc32c (reqBytes r) }
/-- Partition 0 owns die 0 and runs; its owner is function 0 of port A of this part. -/
def part0 : Partition := { Partition.zero with state := .running, entry := leBytes 2 1 ++ Partition.zero.entry.drop 2 }
/-- Queue 0 of die 0 is enabled, with a ring of 16 records. -/
def queue0 : Queue := { Queue.zero with enabled := true, crBase := 4096, crLog2 := 4 }
/-- Partition 0 with die 0 running. -/
def sPart : State :=
  updDie 0 (fun x => { x with owner := some 0, queues := x.queues.set 0 queue0 }) (updPart 0 (fun _ => part0) sOn)
/-- A job of partition 0 admitted on queue 0 of die 0. -/
def job0 : Job :=
  { id := 1, part := 0, slot := 0, entry := 0, die := 0, queue := 0, dies := [0], seq := 1, tag := 9, irq := false, lines := 1, wantHallmark := false
    priority := 0, args := [], waitLimit := 0, seed := [], phase := .admitted, age := 1, passed := 0, pinned := false, tokens := [], declaredNs := 1000
    reproducible := false, epoch := 0, admittedAt := 0, quench := none, stopped := false, cancelled := false, skip := none, refusedPoison := none
    refusedDegraded := false, events := 0, binds := [], dests := [], secretDests := [], weights := [], inputs := [], keyTags := [], energyPj := 0
    clamped := false, clampLogged := false, setFlags := [] }
/-- The job runs. -/
def sJob : State :=
  { updQueue 0 0 (fun q => { q with jobs := [1] }) sPart with jobs := [job0], nextId := 2 }
/-- Where its instructions issue. -/
def at0 : Site := ⟨0, 0, 64, false⟩

/-- A memory that holds `bs` from address `o` on. -/
def memAt (o : Nat) (bs : List Byte) : Mem := ((bs.zipIdx o).filter fun x => x.1 != 0).map fun x => (x.2, x.1)

/-- The state after a command, looked at. -/
def thenP (r : Host.Outcome State Fault Refusal) (f : State → Bool) : Bool := match r with | .next t => f t | _ => false

theorem ready_of {s : State} {j : Job} (h : runningJob s 0 0 = some j ∧ queueOpen s 0 0 = true ∧ bnHolds s at0 = false ∧ s.reissue = none ∧ heldFront s 0 0 = none) :
    Ready s at0 j := ⟨rfl, h.1, h.2.1, h.2.2.1, h.2.2.2.1, h.2.2.2.2⟩
theorem test_ready : Ready sJob at0 job0 := ready_of (by decide +kernel)


/-! ### Power, reset and start-up -/

theorem hyp_StepRunsFrontCommand : { s0 with pending := [.pwrokFall] }.pending = .pwrokFall :: [] := rfl
/-- The job of `sJob` with a SET_FLAG held behind the scoreboard. -/
def held0 : Held := { age := 5, job := 1, instr := .setFlag at0 (.here 3), at_ := at0, wait := .scoreboard, ranges := [], ready := some 1, ringGone := false }
def sHeld : State := { sJob with held := [held0] }
theorem hyp_IdleStep : s0.pending = [] ∧ s0.held = [] ∧ s0.jobs = [] ∧ (∀ d, (dieOf s0 d).ops = []) ∧ (∀ d q, (queueOf s0 d q).line = []) ∧
    (∀ p, (partOfIx s0 p).keysets = [] ∧ (partOfIx s0 p).sessions = []) := by decide +kernel
set_option maxRecDepth 100000 in
theorem hyp_IdleStep_held : let u := readyHeads (flushAllDeals (startAllTongs (settleDies allDies sHeld)))
    sHeld.pending = [] ∧ u.held = [held0] := by decide +kernel
set_option maxRecDepth 100000 in
theorem hyp_IdleStep_reissue : thenP (exec held0.instr { readyHeads (flushAllDeals (startAllTongs (settleDies allDies sHeld))) with reissue := some held0 })
    (fun t => t.held.all (·.age != 5)) = true := by decide +kernel
theorem hyp_PowerOkEdges : { s0 with pins := { s0.pins with pwrok := false } }.pins.pwrok = false ∧ s0.pins.pwrok = true := by decide +kernel
theorem hyp_SystemReset : sOn.pins.pwrok = true := by decide +kernel
theorem served_of {s : State} {r : FpReq} {c : Cls} (h : awake s = true ∧ carried s r.via = true ∧ reqSound r = true ∧ clsOf s r.via r.member = some c) :
    Served s r c := ⟨h.1, h.2.1, h.2.2.1, h.2.2.2⟩
/-- A GO of 8,256 bytes, the least, and of 33,554,432, the most. -/
theorem hyp_BootAndVerification_go :
    let s := sWait
    s0.alarm.device = false ∧ s0.boot.phase = .selfCheck ∧ Served s (req 2 0x1F00 2 (leBytes 4 8256)) .host ∧
    Served s (req 2 0x1F00 2 (leBytes 4 33554432)) .host ∧ s.boot.phase = .waitImage ∧ s.boot.goTaken = false ∧
    leNat (req 2 0x1F00 2 (leBytes 4 33554432)).data = 33554432 ∧ Served { s with boot := { s.boot with goTaken := true } } (req 2 0x1F00 2 (leBytes 4 8256)) .host := by
  exact ⟨by decide +kernel, by decide +kernel, served_of (by decide +kernel), served_of (by decide +kernel), by decide +kernel, by decide +kernel, by decide +kernel,
    served_of (by decide +kernel)⟩
/-- A part that verifies the image `b` of 8,256 bytes. -/
def sVerify (b : List Byte) : State :=
  { s0 with boot := { s0.boot with phase := .verifying, fwState := 1, goTaken := true, imageLength := b.length, staging := [memPut [] 0 b, []] } }
theorem hyp_BootAndVerification_image : (sVerify [1]).alarm.device = false ∧ (sVerify [1]).boot.phase = .verifying ∧
    imageShapeOk (memBytes ((sVerify [1]).boot.staging.getD 0 []) 0 1) = false := by decide +kernel
/-- Clauses of DeviceQuenchCauses: before the firmware runs, while it runs, and the boundaries of the checks. -/
theorem hyp_DeviceQuenchCauses :
    (sWait.alarm.device = false ∧ sWait.boot.fwState ≠ 2 ∧ sWait.boot.phase ≠ .off ∧ ([0] : List Byte) ≠ [1] ∧
    sOn.alarm.device = false ∧ sOn.boot.fwState = 2 ∧ sOn.boot.phase ≠ .off ∧ 20000 < (20001 : Int).natAbs ∧ (-20000 : Int).natAbs ≤ 20000 ∧
    150 < 151 ∧ 150 ≤ 150 ∧ 100 ≤ 100 ∧ 99 < 100 ∧ sOn.alarm.quenchLow = false ∧ ¬(sOn.twin.state = .paired ∧ sOn.twin.armed = true)) ∧
    Served sOn (req 2 0x6100 6 [0x5A]) .host ∧ (req 2 0x6100 6 [0x5A]).opcode = 2 ∧ (req 2 0x6100 6 [0x5A]).data = [0x5A] := by
  exact ⟨by decide +kernel, served_of (by decide +kernel), by decide +kernel⟩
/-- A part that waits for its repair record, with `r` written. -/
def sRecord (r : Option (List Byte)) : State :=
  { sOn with boot := { sOn.boot with phase := .waitRecord }, bist := { sOn.bist with recordIn := r } }
/-- The head of a repair record of this part with no body and the flags `fl`. -/
def recHead (fl : Byte) : List Byte := [0xF5, 0xC7, 1, fl] ++ List.replicate 16 7 ++ [3, 0, 0, 0] ++ List.replicate 40 0
/-- The key of its records. -/
def recKey : List Byte := kdfCounter fz.deviceSecret (ascii "ZS-GH64-REPAIR1") fz.uniqueId 256
/-- The tag that seals it. -/
def recTag (fl : Byte) : List Byte := gcmTag (aesKeys recKey) (List.replicate 12 0) (recHead fl) []
theorem hyp_StartUpRepair :
    (∀ r : Option (List Byte), (sRecord r).alarm.device = false ∧ (sRecord r).boot.phase = .waitRecord ∧ (sRecord r).bist.recordIn = r) ∧
    (let s := { sOn with boot := { sOn.boot with phase := .retention } }
     s.alarm.device = false ∧ s.boot.phase = .retention) := ⟨fun _ => ⟨rfl, rfl, rfl⟩, rfl, rfl⟩
theorem rec_tag (fl : Byte) : (recTag fl).length = 16 := by
  have h : ((aesKeys recKey).getD 14 []).length = 16 := by decide +kernel
  unfold recTag gcmTag aesBlock shiftRows
  simp only [List.length_zipWith, beBytes_length, List.length_map, List.length_range, h]
  rfl
/-- A sealed record has the shape that the accepting clauses ask for, and opens to the empty body, with each flag. -/
theorem hyp_StartUpRepair_record : ∀ fl ∈ [(0 : Byte), 1, 2],
    let b := recHead fl ++ recTag fl
    fieldAt b 0 2 = 0xC7F5 ∧ fieldAt b 2 1 = 1 ∧ bytesAt b 4 16 = bytesAt fz.uniqueId 0 16 ∧ fieldAt b 0x18 4 = 0 ∧ b.length = 0x40 + 0 + 16 ∧
    fieldAt b 3 1 = leNat [fl] ∧ gcmOpen recKey (bytesAt b 0x1C 12) (bytesAt b 0 0x40) (bytesAt b 0x40 0) (bytesAt b (0x40 + 0) 16) = some [] := by
  intro fl hf
  have g : ∀ fl ∈ [(0 : Byte), 1, 2], fieldAt (recHead fl) 0 2 = 0xC7F5 ∧ fieldAt (recHead fl) 2 1 = 1 ∧
      bytesAt (recHead fl) 4 16 = bytesAt fz.uniqueId 0 16 ∧ fieldAt (recHead fl) 0x18 4 = 0 ∧ fieldAt (recHead fl) 3 1 = leNat [fl] := by decide +kernel
  have g := g fl hf
  have hl : (recHead fl).length = 0x40 := rfl
  have ht := rec_tag fl
  have hr := bytesAt_right (recHead fl) (recTag fl)
  rw [hl, ht] at hr
  have h0 : bytesAt (recHead fl ++ recTag fl) 0 0x40 = recHead fl := (bytesAt_left _ (by rw [hl])).trans (hl ▸ bytesAt_all _)
  have h1 : bytesAt (recHead fl ++ recTag fl) 0x1C 12 = List.replicate 12 0 := (bytesAt_left _ (by rw [hl]; decide)).trans rfl
  refine ⟨?_, ?_, ?_, ?_, by rw [List.length_append, hl, ht], ?_, ?_⟩
  · rw [fieldAt_left _ (by rw [hl]; decide)]; exact g.1
  · rw [fieldAt_left _ (by rw [hl]; decide)]; exact g.2.1
  · rw [bytesAt_left _ (by rw [hl]; decide)]; exact g.2.2.1
  · rw [fieldAt_left _ (by rw [hl]; decide)]; exact g.2.2.2.1
  · rw [fieldAt_left _ (by rw [hl]; decide)]; exact g.2.2.2.2
  · have h2 : bytesAt (recHead fl ++ recTag fl) 0x40 0 = [] := List.eq_nil_of_length_eq_zero (bytesAt_length _ _ _)
    rw [h1, h0, hr, h2]
    unfold gcmOpen
    simp only [recTag, if_true]
    rfl
theorem hyp_HostLinks : (hostOf sOn .a).enabled = true ∧ sOn.pins.perst.getD 0 false = false ∧ (hostOf s0 .a).enabled = false ∧
    (partOfIx sPart 0).state ≠ .free ∧ (partOfIx sPart 0).memberSlot = 0 ∧ (partOfIx sPart 0).ownerPort = .a ∧ (partOfIx sPart 1).state = .free := by
  decide +kernel
/-- A slot of host port A held for a member at part 5, with a route out of port 3; a partition here that part 5's port A owns. -/
def reg5 : MemberReg := ⟨5, .a, 0, 3⟩
def sRoute : State := updPort 3 (fun x => { x with state := .up }) { sPart with
  hostA := { sPart.hostA with slotsHeld := [reg5] }
  fabric := { sPart.fabric with partId := 1, valid := true, members := [1, 5], routes := [(5, 0x80000003)] } }
theorem hyp_HostLinks_told : reg5 ∈ (hostOf sRoute .a).slotsHeld ∧ reg5.fn = 0 ∧ sRoute.alarm.device = false ∧
    (match wayTo sRoute (hostDie .a) reg5.part 0 with | .port n => decide (n = 3) | _ => false) = true ∧
    (let s := updPart 0 (fun p => { p with entry := leBytes 2 1 ++ p.entry.drop 2 ++ [] }) sPart
     (partOfIx s 0).state ≠ .free ∧ (partOfIx s 0).ownerPart = 0) := by
  decide +kernel


/-! ### Power, heat and admission -/

theorem hyp_BrakeDroopAndIdle : sOn.boot.fwState = 2 ∧ sOn.pins.pwrbrk = false ∧ dieActive sOn 0 = true ∧ dieIdle sOn 0 = true ∧ dieIdle sPart 0 = true := by
  decide +kernel
theorem hyp_SyncEdges :
    (let s := { sOn with hearth := { sOn.hearth with syncIn := true, freeRun := false, sinceEdge := 8 } }
     s.hearth.syncIn = true ∧ s.boot.fwState = 2 ∧ (4 * (62500 : Int).natAbs ≤ s.hearth.period * 1000 ∧ 20000 ≤ 20000) ∧
     s.hearth.period * 1000 < 4 * (-62501 : Int).natAbs ∧ 19999 < 20000 ∧ 8 ≤ s.hearth.sinceEdge) ∧
    sOn.hearth.freeRun = true ∧ sOn.hearth.syncIn = false := by decide +kernel
theorem hyp_GovernorInterval : serving sOn = true ∧ (∀ d, dieActive sOn d = true → (reportOf [] d).temps = []) ∧ ∃ t, exec (.governorInterval []) sOn = .next t :=
  ⟨by decide +kernel, by decide +kernel, _, rfl⟩
/-- An operation in flight for the job of `sJob`. -/
def op0 : Op := opZero 7 1 0 64 9
/-- It takes part in the collective 5 of two members, as rank 0. -/
def coll0 : Coll :=
  { collId := 5, op := 1, red := 1, epoch := 0, members := [0, 0x10000], rank := 0, elems := 0, root := 0, window := 0, crc := 0, src := none, dst := none, own := []
    header := [], degraded := false, heads := [], contrib := [], draw := 0 }
/-- `sJob` with an operation in flight. -/
def sOp (o : Op) : State := updDie 0 (fun x => { x with ops := [o] }) { sJob with nextId := 8 }
theorem hyp_AdmissionAndPace_pace : let o := { op0 with coll := some coll0 }
    (allDies.flatMap fun e => (dieOf (sOp o) e).ops.filter fun o => match o.coll with
      | some c => c.collId == (5 : W64).toNat && paceHeld (sOp o) c 1 | none => false) = [o] ∧
    jobOf (sOp o) o.job = some job0 ∧ (sOp o).fabric.paceLast = [] ∧ 1 < 4096 ∧ 1 ≤ 16 ∧ 16 ≤ 16 := by decide +kernel
/-- A program of one role without heavy tokens. -/
def prog0 : Program :=
  { image := [], digest := [], roles := 1, dieMap := [0], entryCount := 1, entries := [⟨0, 0, 1000, 0, []⟩], power := [], patches := [], codeLen := [0]
    sections := [], patchPending := none }
/-- The job of `sJob` still a candidate, its JOB_SUBMIT holding the queue. -/
def sCand : State :=
  { updQueue 0 0 (fun q => { q with hold := some (.job 1, .packet 1 1 [] none) }) (updPart 0 (fun p => { p with programs := [(0, prog0)] }) sPart) with
    jobs := [{ job0 with phase := .queued }], nextId := 2 }
theorem hyp_AdmissionAndPace_boundary : let j := { job0 with phase := .queued }
    serving sCand = true ∧ switchDue sCand = false ∧ sCand.jobs = [j] ∧ sCand.pins.pwrbrk = false ∧ j.age ≠ 0 ∧ mayAdmit sCand j = true ∧ hotJob sCand j = false ∧
    tblGet (partOfIx sCand j.part).programs j.slot = some prog0 ∧ jobTokens (refreshJob prog0 j) = 0 ∧ 0 ≤ tokenPool sCand ∧ j.dies.Nodup ∧
    (∀ d ∈ j.dies, (queueOf sCand d j.queue).line.filter (· != .role j.id) = []) := by decide +kernel
theorem hyp_AdmissionAndPace_none : let s := { sJob with pins := { sJob.pins with pwrbrk := true } }
    serving s = true ∧ switchDue s = false ∧ s.pins.pwrbrk = true ∧ (∀ j ∈ s.jobs, j.age ≠ 0) := by decide +kernel
/-- Tokens that the pool has not, held by a job that runs and asked for by one that waits. -/
theorem hyp_AdmissionAndPace_short : let big := { prog0 with power := [[1000, 1000]] }
    let j := { job0 with phase := .queued }
    let s := updPart 0 (fun p => { p with programs := [(0, big)] }) { sCand with hearth := { sCand.hearth with sustainedNow := 0 } }
    let r := { sJob with jobs := [{ job0 with tokens := [[2000]] }] }
    tokenPool r < (((allParts.map (heldTokens r)).sum : Nat) : Int) ∧ serving r = true ∧ switchDue r = false ∧
    tokenPool s < (((allParts.map (heldTokens s)).sum : Nat) : Int) ∧ serving s = true ∧ switchDue s = false ∧ s.jobs = [j] ∧ s.pins.pwrbrk = false ∧ j.age ≠ 0 ∧
    mayAdmit s j = true ∧ hotJob s j = false ∧ tblGet (partOfIx s j.part).programs j.slot = some big ∧ jobTokens (refreshJob big j) ≠ 0 := by decide +kernel
theorem hyp_AdmissionAndPace_hot : let s := updDie 0 (fun x => { x with temp := 100 }) sCand
    serving s = true ∧ switchDue s = false ∧ s.jobs = [{ job0 with phase := .queued }] ∧ hotJob s { job0 with phase := .queued } = true := by decide +kernel

/-! ### Parity, quench and completion -/

theorem hyp_ParityErrors : anyOp (sOp op0) 7 = some (0, op0) ∧ opOf (sOp op0) 0 7 = some op0 ∧ jobOf (sOp op0) op0.job = some job0 := by decide +kernel
/-- `sOp` with a resident key set of one key, its rows 1 to 7 on die 0 at stack rows 100 to 106. -/
def sKeys : State := updPart 0 (fun p => { p with keysets := [(3, { KeySet.zero with
  state := .resident, tag := 77, homeMask := 1, scheme := 1, logN := 12, keys := [⟨0, 1, 2, 1, 1, 0, 6⟩], rows := [(0, 1, 7, 100)] })] })
  (sOp { op0 with keySlots := [3] })
theorem hyp_ParityErrors_key : let o := { op0 with keySlots := [3] }
    opOf sKeys 0 7 = some o ∧ jobOf sKeys o.job = some job0 ∧ o.keySlots.head? = some 3 ∧ (ksOf sKeys 0 3).state = .resident ∧
    bundleRowOf (ksOf sKeys 0 3) 0 101 = some 2 ∧ bundleRowOf (ksOf sKeys 0 3) 0 106 = some 7 ∧ keyOfRow (ksOf sKeys 0 3) 2 = some 0 ∧ keyOfRow (ksOf sKeys 0 3) 7 = some 0 := by decide +kernel
theorem hyp_EyeMarginAndQuenchEnd :
    (let s := updPort 2 (fun x => { x with state := .up }) sOn
     s.boot.fwState = 2 ∧ (portOf s 2).state = .up ∧ 9 < s.fuses.eyeMargin.getD 2 0 ∧ s.fuses.eyeMargin.getD 2 0 ≤ 10) ∧
    (let s := updPart 0 (fun p => { p with quenching := some (0x0603, true) }) sPart
     (partOfIx s 0).quenching = some (0x0603, true) ∧ s.alarm.device = false ∧ ∀ j ∈ s.jobs, j.part ≠ 0) := by decide +kernel
theorem record_of {s : State} (h : (dieOf s 0).owner = some 0 ∧ (queueOf s 0 0).enabled = true ∧ (queueOf s 0 0).heldCpl = [] ∧ ringFull (queueOf s 0 0) = false ∧
    (partOfIx s 0).memberSlot = 0 ∧ (hostOf s (partOfIx s 0).ownerPort).linkUp = true) : RecordReady s 0 0 0 :=
  ⟨h.1, h.2.1, h.2.2.1, h.2.2.2.1, h.2.2.2.2.1, h.2.2.2.2.2⟩
theorem ready_record : RecordReady sJob 0 0 0 := record_of (by decide +kernel)
theorem hyp_JobCompletes : jobOf sJob job0.id = some job0 ∧ job0.phase = .admitted ∧ jobIdle sJob job0 = true ∧ RecordReady sJob job0.die job0.queue job0.part ∧
    wasLimited sJob job0 = false ∧ wasLimited sJob { job0 with clamped := true } = true ∧ 1000 ≤ job0.declaredNs :=
  ⟨by decide +kernel, rfl, by decide +kernel, ready_record, by decide +kernel⟩


/-! ### Queues and packets -/

/-- A packet of a type, SEQ 1 and TAG 9, of `n` lines, with body bytes from 0x10 on, with its check. -/
def packet (type n : Nat) (body : List Byte) : List Byte :=
  let b := bytesAt (leBytes 2 0xC750 ++ leBytes 2 1 ++ leBytes 1 type ++ leBytes 1 n ++ [0, 0] ++ leBytes 8 9 ++ body) 0 (64 * n)
  bytesAt b 0 0x3C ++ leBytes 4 (crc32c (bytesAt b 0 0x3C ++ b.drop 64)).toNat ++ b.drop 64
/-- `sPart` with packets read on queue 0. -/
def sLine (bs : List (List Byte)) : State :=
  updQueue 0 0 (fun q => { q with line := bs.map fun b => .packet (pktSeq b) (b.length / 64) b none }) (updPart 0 (fun p => { p with programs := [(0, prog0)] }) sPart)
/-- `sPart` with a packet holding queue 0. -/
def sHold (h : Hold) (b : List Byte) : State :=
  updQueue 0 0 (fun q => { q with hold := some (h, .packet (pktSeq b) (b.length / 64) b none) }) (updPart 0 (fun p => { p with programs := [(0, prog0)] }) sPart)
theorem test_packet : envelopeRefuses (packet 5 1 []) = none ∧ (packet 4 2 [0, 0, 0, 1]).length = 128 := by decide +kernel

theorem hyp_QueueWindows :
    let x := queueOf sPart 0 0
    let l := memBytes (memPut x.window 0 (packet 0 1 [])) 0 64
    barOwns sPart .a 0 0 0 = some 0 ∧ ¬(64 < 64 * x.pos + 64 ∧ 64 * x.pos < 64 + 4) ∧ (0 < 64 * x.pos + 64 ∧ 64 * x.pos < 0 + 64) ∧ x.enabled = true ∧ x.stopped = false ∧
    x.quenched = false ∧ sPart.alarm.device = false ∧ fieldAt l 2 2 = x.seq ∧ 1 ≤ fieldAt l 5 1 ∧ x.pos + fieldAt l 5 1 ≤ 1024 ∧
    fieldAt (memBytes (memPut x.window 0 (packet 0 1 [])) 64 64) 2 2 ≠ (x.seq + 1) % 2 ^ 16 ∧
    fieldAt (memBytes (memPut x.window 0 (packet 0 0 [])) 0 64) 5 1 = 0 ∧ barOwns sPart .a 1 0 0 = none := by decide +kernel
/-- A packet that would pass the end of its window: 25 lines at position 1000. -/
theorem hyp_QueueWindows_end : let l := bytesAt (packet 0 25 []) 0 64
    fieldAt l 2 2 = 1 ∧ 1024 < 1000 + fieldAt l 5 1 := by decide +kernel
theorem hyp_QueueWindows_member : let r : MemberReg := ⟨5, .a, 0, 3⟩
    let s := { sPart with hostA := { sPart.hostA with slotsHeld := [r] } }
    barOwns s .a 0 3 0 = none ∧ memberOf s .a 0 3 = some r ∧ memberOf s .a 0 4 = none := by decide +kernel
theorem hyp_QueueWindows_memory : memsOk s0 := by
  refine ⟨fun d => ?_, by decide⟩
  have : dieOf s0 d = Die.zero := by simp [s0, resetOf, dieOf]
  rw [this]; refine ⟨rfl, rfl, ?_, ?_, ?_, ?_⟩ <;> simp [Die.zero, Queue.zero] <;> rfl
/-- A PATCH without records, of a program in no slot, breaks R287 in its body. -/
theorem hyp_QueueWindows_malformed : let b := packet 2 1 []
    headPacket (sLine [b]) 0 0 2 = some b ∧ bodyOk b = false ∧ pktType b ≠ 0 ∧
    headPacket (sLine [packet 0 1 []]) 0 0 0 = some (packet 0 1 []) ∧ bodyOk (packet 0 1 []) = true ∧
    ∀ n ∈ [0, 1, 2, 3, 4, 5, 6, 8], let b := packet n 1 (List.replicate 40 0xFF)
      headPacket (sLine [b]) 0 0 n = some b ∧ bodyOk b = false := by decide +kernel
theorem hyp_QueueControl_member : memberOf sRoute .a 0 3 = some reg5 ∧ barOwns sRoute .a 0 3 0 = none ∧ sRoute.alarm.device = false ∧
    memberOf sRoute .a 0 4 = none ∧ barOwns sRoute .a 0 4 0 = none ∧
    (tblGetD (hostOf sRoute .a).pages (pageKey 0 3 0 0) (List.replicate 64 0)).length = 64 := by decide +kernel
theorem hyp_QueueControl :
    barOwns sPart .a 0 0 0 = some 0 ∧ sPart.alarm.device = false ∧
    (let s := updQueue 0 0 (fun q => { q with enabled := false, crBase := 0, crLog2 := 0 }) sPart
     barOwns s .a 0 0 0 = some 0 ∧ (queueOf s 0 0).enabled = false ∧ 4 ≤ 4 ∧ 16 ≤ 16 ∧ (64 : W64).toNat % 64 = 0 ∧ ringSound (queueOf s 0 0) = false) ∧
    (queueOf sJob 0 0).enabled = true ∧ queueDrained sJob 0 0 = false ∧
    (let s := updQueue 0 0 (fun q => { q with disabling := true }) sPart
     (queueOf s 0 0).disabling = true ∧ queueDrained s 0 0 = true) ∧
    ((queueOf sPart 0 0).crTail + 2 ^ 32 - (0xFFFFFFF0 : W32).toNat) % 2 ^ 32 ≤ 2 ^ (queueOf sPart 0 0).crLog2 ∧
    2 ^ (queueOf sPart 0 0).crLog2 < ((queueOf sPart 0 0).crTail + 2 ^ 32 - (0xFFFFFFEF : W32).toNat) % 2 ^ 32 ∧
    (let s := updQueue 0 0 (fun q => { q with crTail := 16, heldCpl := [⟨[], false⟩] }) sPart
     ((queueOf s 0 0).crTail + 2 ^ 32 - (1 : W32).toNat) % 2 ^ 32 < 2 ^ (queueOf s 0 0).crLog2 ∧ (queueOf s 0 0).heldCpl = [⟨[], false⟩] ∧
     (dieOf s 0).owner = some 0) := by decide +kernel
theorem hyp_Bar2 :
    let s := { updDie 0 (fun x => { x with storeHandles := [(1, { StoreHandle.zero with rows := 2, valid := true })] }) sPart with
      hostA := { sPart.hostA with apertures := [(0, 0x80000100)] } }
    (hostOf s .a).linkUp = true ∧ s.boot.fwState = 2 ∧ s.alarm.device = false ∧ bar2Target s .a 0 0 576 = some (0, 1) ∧ bar2Target s .a 0 1 576 = none ∧
    sWait.boot.fwState ≠ 2 ∧ (hostOf sWait .a).linkUp = true ∧ 33554424 + 8 ≤ 33554432 ∧ 0 < sWait.boot.staging.length := by decide +kernel
theorem okOf {ε α : Type} {x : Except ε α} (h : (match x with | .ok _ => true | .error _ => false) = true) : ∃ t, x = .ok t := by
  cases x with
  | ok t => exact ⟨t, rfl⟩
  | error e => exact absurd h (by simp)
/-- A section-table entry. -/
def sect (type role o : Nat) (bs : List Byte) : List Byte :=
  leBytes 1 type ++ leBytes 1 role ++ [0, 0] ++ leBytes 4 o ++ leBytes 4 bs.length ++ List.replicate 16 0 ++ leBytes 4 (crc32c bs).toNat
/-- An image of one role and one entry point: 64 bytes of CODE, one POWER entry, one ENTRY entry. -/
def ghx : List Byte :=
  let z := List.replicate 64 (0 : Byte)
  let head := leBytes 4 0x01584847 ++ leBytes 2 1 ++ leBytes 2 0x6440 ++ leBytes 4 384 ++ [1, 1, 3, 0] ++ List.replicate 44 0
  head ++ leBytes 4 (crc32c head).toNat ++ sect 1 0 192 z ++ sect 4 0xFF 256 (z.take 16) ++ sect 6 0xFF 320 z ++ List.replicate 32 0 ++ z ++ z ++ z
/-- A PROGRAM_LOAD into slot 1 of 384 bytes from host memory, role 0 on die 0; with LENGTH 0 an unload of slot 0. -/
def loadPacket : List Byte := packet 1 1 ([1, 0, 0, 0] ++ leBytes 4 384)
def unloadPacket : List Byte := packet 1 1 []
theorem hyp_ProgramImages_load :
    (dieOf (sLine [loadPacket]) 0).owner = some 0 ∧ bodyOk loadPacket = true ∧ headPacket (sLine [loadPacket]) 0 0 1 = some loadPacket ∧
    (tblGet (partOfIx (sLine [loadPacket]) 0).programs (fieldAt loadPacket 0x10 1)).isSome = decide (fieldAt loadPacket 0x14 4 = 0) ∧
    (let s := sHold (.programLoad 1 none) loadPacket
     holdPacket s 0 0 = some (.programLoad 1 none, loadPacket) ∧ fieldAt loadPacket 0x14 4 = 384 ∧ bytesAt ghx 0 384 = ghx ∧
     (loadCheck s 0 1 384 0 [] matches .error 0x0102) = true) := by decide +kernel
theorem hyp_ProgramImages_image : ∃ t, loadCheck (sHold (.programLoad 1 none) loadPacket) 0 1 384 (fieldAt loadPacket 0x20 8) ghx = .ok t :=
  okOf (by decide +kernel)
theorem hyp_ProgramImages_unload :
    (let s := sHold (.programLoad 0 none) unloadPacket
     holdPacket s 0 0 = some (.programLoad 0 none, unloadPacket) ∧ fieldAt unloadPacket 0x14 4 = 0 ∧ slotInUse s 0 0 = false ∧
     tblGet (partOfIx s 0).programs 0 = some prog0 ∧ prog0.dieMap.Nodup) ∧
    (let s := { sHold (.programLoad 0 none) unloadPacket with jobs := [job0] }
     slotInUse s 0 0 = true) := by decide +kernel



/-! ### Cluster operations -/

theorem some_fst {α β : Type} {x : Option (α × β)} (h : x.isSome = true) : ∃ m, x = some ((x.get h).1, m) := ⟨(x.get h).2, by simp⟩
theorem some_val {α : Type} {x : Option α} (h : x.isSome = true) : ∃ m, x = some m := ⟨x.get h, by simp⟩
/-- `sJob` with a change of die 0 and one of partition 0. -/
def jobOn (f : Die → Die) (g : Partition → Partition := id) : State := updPart 0 g (updDie 0 f sJob)
/-- A chain of two Q primes and one P prime, t = 65,537; none of the rules on it asks that its entries be primes. -/
def chain0 : Chain := { raw := [], qCount := 2, pCount := 1, dnum := 2, chainId := 0, tList := [65537, 0, 0, 0], qList := [0, 1], pList := [2] }
/-- The header of a ciphertext of N = 4,096 at level 1, all its limbs zero. -/
def ctHead : Header :=
  { headerZero with formatTag := 0xC701, scheme := 1, parts := 2, logN := 12, level := 1, paramSet := 5, keysetTag := 77, scale := 512, ntt := true }
def ptHead : Header := { ctHead with formatTag := 0xC711, parts := 1 }
/-- The three keys of kinds 1 to 3 that the witnesses name. -/
def keys0 : List KeyEntry := [⟨0, 1, 1, 2, 0, 0, 6⟩, ⟨1, 2, 1, 2, 5, 6, 6⟩, ⟨2, 3, 1, 2, 8191, 12, 6⟩]
/-- Handles 1 and 2 hold objects with the headers `h` and `k`, handles 3 and 4 are free; chain 0 is `c`, key-set slot 3 holds the keys `ks`. -/
def sCluAt (c : Chain) (ks : List KeyEntry) (h k : Header) : State := jobOn (fun x => { x with
    handles := [(1, { Handle.zero with base := 0, rows := 1000, valid := true }), (2, { Handle.zero with base := 1000, rows := 1000, valid := true }),
                (3, { Handle.zero with base := 2000, rows := 1000, valid := true }),
                (4, { Handle.zero with base := 3000, rows := 5000, valid := true })]
    scratch := memAt 0 (headerBytes h) ++ memAt 288000 (headerBytes k) })
  (fun p => { p with chains := [(0, c)], keysets := [(3, { KeySet.zero with
    state := .resident, tag := 77, paramSet := 5, homeMask := 1, scheme := 1, logN := 12
    keys := ks, rows := [(0, 1, 18, 100)] })] })
/-- The same with the chain and the keys of the witnesses. -/
def sClu (h k : Header) : State := sCluAt chain0 keys0 h k
theorem cluReady_of {s : State} {mask : BitVec 8} {srcs dsts extra : List Loc} {xs : List Src} {c : Chain}
    (hx : xs = findSrcs s 0 srcs [])
    (h : (runningJob s 0 0 = some job0 ∧ queueOpen s 0 0 = true ∧ bnHolds s at0 = false ∧ s.reissue = none ∧ heldFront s 0 0 = none) ∧
      mask ≠ 0 ∧ (∀ l ∈ srcs, locCheck s 0 l = .pass) ∧ (∀ l ∈ dsts, dstCheck s 0 l = .pass) ∧ ringCheck s 0 (ringUses srcs) = none ∧
      ringSlots s 0 (ringUses srcs) = some [] ∧
      (sbAdmit s 0 (locRanges s 0 false srcs ++ locRanges s 0 true (dsts ++ extra))).isSome = true ∧ xs ≠ [] ∧
      (∀ x ∈ xs, x.poison = none ∧ x.header.poisoned = false) ∧
      (∀ x ∈ xs, headerSound x.hdr = true ∧ headerInRange x.header = true ∧ x.header.share = false ∧ x.header.seeded = false) ∧
      (∀ x ∈ xs, ∀ y ∈ xs, sameRing x.header y.header = true ∧ x.header.ntt = y.header.ntt ∧ x.header.level = y.header.level) ∧
      (∀ x ∈ xs, chainOf s 0 x.header.chainId = some c ∧ x.header.level < c.qCount ∧ (x.header.scheme = 2 → c.t x.header.tIndex ≠ 0)) ∧
      tagCheck (xs.map (·.header)) = true ∧ (∀ x ∈ xs, srcFits (maskClusters mask) x c.pCount (limbsOf c x.header) = true)) :
    ∃ es, CluReady s at0 mask job0 srcs dsts c xs [] es extra := by
  obtain ⟨h1, h2, h3, h4, h5, h6, h7, h8, h9, h10, h11, h12, h13, h14⟩ := h
  exact ⟨_, ready_of h1, h2, h3, h4, h5, h6, some_fst h7, hx, h8, h9, h10, h11, h12, h13, h14⟩
/-- A result with header `h` fits in destination `dst` of `s`, and takes no secret where it may not go. -/
def fitsAt (s : State) (dst : Loc) (secret : Bool) (c : Chain) (h : Header) : Bool :=
  scaleOk h && dstFits s 0 (maskClusters 0xFF) dst h c.pCount (limbsOf c h) && secretOut s 0 secret [(dst, h)] == .pass
/-- What is written beside a source header `h`: settled, as the statements have it. -/
def settled (h k : Header) : Header := settle chain0 fz.primes [h] k
theorem hyp_RingOperationsOnOneSource_fits :
    (∀ h ∈ [ctHead, { ctHead with ntt := false }, { ctHead with level := 0 }, { ctHead with scale := 511, level := 0 }, { ctHead with extended := true }],
      fitsAt (sClu ctHead ctHead) (.handle 3) false chain0 (settled ctHead h) = true) ∧
    (let k := { ctHead with scheme := 2, scale := 1 }
     fitsAt (sClu k k) (.handle 3) false chain0 (settled k { k with level := 0 }) = true) ∧
    fitsAt (sClu ctHead ctHead) (.handle 1) false chain0 (settled ctHead { ctHead with level := 0 }) = true := by decide +kernel
theorem hyp_RingOperationsOnOneSource : let s := sClu ctHead ctHead
    let r := sClu { ctHead with ntt := false } ctHead
    (∃ xs es, CluReady s at0 0xFF job0 [.handle 1] [.handle 3] chain0 xs [] es ∧ xs.map (·.header) = [ctHead]) ∧
    (∃ xs es, CluReady r at0 0xFF job0 [.handle 1] [.handle 3] chain0 xs [] es ∧ xs.map (·.header) = [{ ctHead with ntt := false }]) ∧
    scaleOk ctHead = true ∧ dstFits s 0 (maskClusters 0xFF) (.handle 3) ctHead chain0.pCount (limbsOf chain0 ctHead) = true ∧ ctHead.level ≠ 0 ∧
    ctHead.extended = false ∧ ([0] ++ [1] : List Nat).Nodup :=
  ⟨⟨_, _, (cluReady_of rfl (by decide +kernel)).choose_spec, by decide +kernel⟩, ⟨_, _, (cluReady_of rfl (by decide +kernel)).choose_spec, by decide +kernel⟩, by decide +kernel, by decide +kernel, by decide, rfl, by decide⟩
/-- RESCALE and MOD_SWITCH, DECODE: a BGV ciphertext of scale 1, a plaintext in the first place. -/
theorem hyp_RingOperationsOnOneSource_bgv : let h := { ctHead with scheme := 2, scale := 1 }
    (∃ xs es, CluReady (sClu h h) at0 0xFF job0 [.handle 1] [.handle 3] chain0 xs [] es ∧ xs.map (·.header) = [h]) ∧ scaleOk h = true :=
  ⟨⟨_, _, (cluReady_of rfl (by decide +kernel)).choose_spec, by decide +kernel⟩, by decide⟩
theorem hyp_RingOperationsOnOneSource_inPlace :
    ∃ xs es, CluReady (sClu ctHead ctHead) at0 0xFF job0 [.handle 1] [.handle 1] chain0 xs [] es ∧ xs.map (·.header) = [ctHead] ∧
      dstFits (sClu ctHead ctHead) 0 (maskClusters 0xFF) (.handle 1) { ctHead with level := 0 } chain0.pCount (limbsOf chain0 { ctHead with level := 0 }) = true :=
  ⟨_, _, (cluReady_of rfl (by decide +kernel)).choose_spec, by decide +kernel, by decide +kernel⟩
theorem hyp_RingOperationsOnTwoSources_fits :
    ∀ h ∈ [{ ctHead with noise := newNoise [ctHead, ctHead] (lsum ctHead.noise ctHead.noise) }, { ctHead with scale := 1024 }, { ctHead with scale := 1024, parts := 3 }],
      fitsAt (sClu ctHead ctHead) (.handle 3) false chain0 (settle chain0 fz.primes [ctHead, ctHead] h) = true := by decide +kernel
theorem hyp_RingOperationsOnTwoSources : let h := { ctHead with parts := 3, scale := 1024 }
    (∃ xs es, CluReady (sClu ctHead ctHead) at0 0xFF job0 [.handle 1, .handle 2] [.handle 3] chain0 xs [] es ∧ xs.map (·.header) = [ctHead, ctHead]) ∧
    (∃ xs es, CluReady (sClu ctHead ptHead) at0 0xFF job0 [.handle 1, .handle 2] [.handle 3] chain0 xs [] es ∧ xs.map (·.header) = [ctHead, ptHead]) ∧
    natDiff ctHead.scale ptHead.scale ≤ 16 ∧ scaleOk h = true ∧
    dstFits (sClu ctHead ctHead) 0 (maskClusters 0xFF) (.handle 3) h chain0.pCount (limbsOf chain0 h) = true :=
  ⟨⟨_, _, (cluReady_of rfl (by decide +kernel)).choose_spec, by decide +kernel⟩, ⟨_, _, (cluReady_of rfl (by decide +kernel)).choose_spec, by decide +kernel⟩, by decide, by decide, by decide +kernel⟩
theorem keyBound_of {s : State} {slot kind g level : Nat} {h : Header} (x : (ksOf s 0 slot).state = .resident ∧ (ksOf s 0 slot).homeMask.getLsbD 0 = true ∧
    (ksOf s 0 slot).tag = h.keysetTag ∧ ((ksOf s 0 slot).paramSet = h.paramSet ∧ (ksOf s 0 slot).scheme = h.scheme ∧ (ksOf s 0 slot).logN = h.logN ∧
    (ksOf s 0 slot).chainId = h.chainId) ∧ ((findKey (ksOf s 0 slot) kind g).map fun e => decide (level ≤ e.topLevel)) = some true) :
    KeyBound 0 (ksOf s 0 slot) h kind g level := by
  obtain ⟨h1, h2, h3, h4, h5⟩ := x
  cases hk : findKey (ksOf s 0 slot) kind g with
  | none => simp [hk] at h5
  | some e => exact ⟨h1, h2, h3, h4, e, hk, by simpa [hk] using h5⟩
theorem hyp_KeySwitching : let h := { ctHead with parts := 3 }
    (∃ xs es, CluReady (sClu h h) at0 0xFF job0 [.handle 1] [.handle 3] chain0 xs [] es ∧ xs.map (·.header) = [h]) ∧
    (∃ xs es, CluReady (sClu ctHead h) at0 0xFF job0 [.handle 1] [.handle 3] chain0 xs [] es ∧ xs.map (·.header) = [ctHead]) ∧ chain0.pCount ≠ 0 ∧
    KeyBound 0 (ksOf (sClu h h) 0 3) h 1 0 1 ∧ KeyBound 0 (ksOf (sClu ctHead h) 0 3) ctHead 2 5 1 ∧ KeyBound 0 (ksOf (sClu ctHead h) 0 3) ctHead 3 8191 1 :=
  ⟨⟨_, _, (cluReady_of rfl (by decide +kernel)).choose_spec, by decide +kernel⟩, ⟨_, _, (cluReady_of rfl (by decide +kernel)).choose_spec, by decide +kernel⟩,
    by decide, keyBound_of (by decide +kernel), keyBound_of (by decide +kernel), keyBound_of (by decide +kernel)⟩
theorem hyp_KeySwitching_fits : let p3 := { ctHead with parts := 3 }
    let d := { ptHead with extended := true }
    let quiet (h : Header) : Header := { h with noise := newNoise [h] (relinNoise chain0 fz.primes h) }
    (∀ h ∈ [quiet { p3 with parts := 2 }, { p3 with extended := true }], fitsAt (sClu p3 p3) (.handle 3) false chain0 (settled p3 h) = true) ∧
    fitsAt (sClu ctHead p3) (.handle 3) false chain0 (settled ctHead (quiet ctHead)) = true ∧
    fitsAt (sClu d d) (.handle 3) false chain0 (settled d (quiet { d with extended := false })) = true ∧
    fitsAt (sClu d d) (.handle 3) false chain0 (settle chain0 fz.primes [d, d] { d with formatTag := 0xC701, parts := 2 }) = true ∧
    (∀ l ∈ [Loc.handle 3, .handle 4], dstFits (sClu ctHead d) 0 (maskClusters 0xFF) l ctHead chain0.pCount (limbsOf chain0 ctHead) = true) ∧
    (let hs := [ctHead, d]
     fitsAt (sClu ctHead d) (.handle 3) false chain0
       (settle chain0 fz.primes hs { mulHead chain0 hs with noise := newNoise hs (hrotSumNoise chain0 fz.primes [5] hs) }) = true) := by decide +kernel
/-- The two extended digits of a polynomial for IP, MODDOWN of one, HROT into two handles, HROT_SUM with a plaintext. -/
theorem hyp_KeySwitching_hoisted : let d := { ptHead with extended := true }
    (∃ xs es, CluReady (sClu d d) at0 0xFF job0 [.handle 1, .handle 2] [.handle 3] chain0 xs [] es ∧ xs.map (·.header) = [d, d]) ∧ chain0.beta 1 = 2 ∧
    KeyBound 0 (ksOf (sClu d d) 0 3) d 1 0 1 ∧
    (∃ xs es, CluReady (sClu d d) at0 0xFF job0 [.handle 1] [.handle 3] chain0 xs [] es ∧ xs.map (·.header) = [d]) ∧
    (∃ xs es, CluReady (sClu ctHead d) at0 0xFF job0 [.handle 1] [.handle 3, .handle 4] chain0 xs [] es ∧ xs.map (·.header) = [ctHead]) ∧
    (∃ xs es, CluReady (sClu ctHead d) at0 0xFF job0 [.handle 1, .handle 2] [.handle 3] chain0 xs [] es ∧ xs.map (·.header) = [ctHead, d]) ∧
    KeyBound 0 (ksOf (sClu ctHead d) 0 3) ctHead 2 5 1 :=
  ⟨⟨_, _, (cluReady_of rfl (by decide +kernel)).choose_spec, by decide +kernel⟩, by decide, keyBound_of (by decide +kernel),
    ⟨_, _, (cluReady_of rfl (by decide +kernel)).choose_spec, by decide +kernel⟩, ⟨_, _, (cluReady_of rfl (by decide +kernel)).choose_spec, by decide +kernel⟩,
    ⟨_, _, (cluReady_of rfl (by decide +kernel)).choose_spec, by decide +kernel⟩, keyBound_of (by decide +kernel)⟩
theorem hyp_EncodeDecodeTemper : let s := sClu ptHead ctHead
    let q : EncodeReq := { scheme := 1, logN := 12, chain := 0, paramSet := 5, tIndex := 0, level := 1, logSlots := 11, tag := 77, scale := 512
                           extended := false, ntt := true }
    let p : EncodeReq := { q with scheme := 2, logSlots := 0 }
    Ready s at0 job0 ∧ locCheck s 0 (.handle 4) = .pass ∧ dstCheck s 0 (.handle 3) = .pass ∧
    (∃ m, sbAdmit s 0 (locRanges s 0 false [.handle 4] ++ locRanges s 0 true [.handle 3]) = some m) ∧ (handleOf s 0 4).poisoned = false ∧
    chainOf s 0 q.chain = some chain0 ∧ q.level < chain0.qCount ∧ slotsOk q.scheme q.logN q.logSlots 65537 = true ∧ slotsOk p.scheme p.logN p.logSlots 65537 = true ∧
    chain0.t p.tIndex ≠ 0 ∧ ceilDiv (2 ^ q.logN * 8) 288 ≤ (handleOf s 0 4).rows ∧ dstFits s 0 (maskClusters 0xFF) (.handle 3) ptHead 1 2 = true ∧
    secretOut s 0 (handleOf s 0 4).isSecret [(.handle 3, ptHead)] = .pass ∧
    (∃ xs es, CluReady s at0 0xFF job0 [.handle 1] [.handle 4] chain0 xs [] es ∧ xs.map (·.header) = [ptHead] ∧ ∀ x ∈ xs, x.secret = false) ∧ scaleOk ptHead = true :=
  ⟨ready_of (by decide +kernel), by decide +kernel, by decide +kernel, some_val (by decide +kernel), by decide +kernel, by decide +kernel, by decide, by decide, by decide, by decide,
    by decide +kernel, by decide +kernel, by decide +kernel, ⟨_, _, (cluReady_of rfl (by decide +kernel)).choose_spec, by decide +kernel, by decide +kernel⟩, by decide⟩
/-- A TEMPER configuration: N = 4,096, two slots, one level of each transform, degree 7; its chain has six Q primes. -/
def cfg0 : TemperCfg := ⟨leBytes 2 0xC7A1 ++ [0, 0, 12, 1, 0x11, 7, 0, 1, 0, 0] ++ leBytes 4 512 ++ leBytes 4 512 ++ List.replicate 104 0⟩
def chain6 : Chain := { chain0 with qCount := 6, pCount := 1, dnum := 6, tList := [0, 0, 0, 0], qList := [0, 1, 2, 3, 4, 5], pList := [6] }
def sTemper : State := updPart 0 (fun p => { p with tempers := [(1, cfg0)] })
  (sCluAt chain6 ((cfg0.needs 6).zipIdx.map fun k => ⟨k.2, k.1.1, 5, 6, k.1.2.1, 0, 1⟩) { ctHead with logSlots := 1 } ctHead)
theorem hyp_EncodeDecodeTemper_temper : let h := { ctHead with logSlots := 1 }
    (∃ xs es, CluReady sTemper at0 0xFF job0 [.handle 1] [.handle 3] chain6 xs [] es [.handle 4] ∧ xs.map (·.header) = [h] ∧
      ∀ e ∈ occupied sTemper 0 xs (.handle 3), overlaps (handleRange sTemper 0 4 0 (handleOf sTemper 0 4).rows true) e = false) ∧
    (tblGet (partOfIx sTemper 0).tempers 1 = some cfg0 ∧ cfg0.lOut 6 = 0 ∧ cfg0.chain = h.chainId ∧ cfg0.logN = h.logN ∧ cfg0.logSlots = h.logSlots ∧
    natDiff h.scale cfg0.inScale ≤ 16 ∧ (handleOf sTemper 0 4).valid = true ∧ cfg0.workRows 6 1 ≤ (handleOf sTemper 0 4).rows) ∧
    (∀ k ∈ cfg0.needs 6, KeyBound 0 (ksOf sTemper 0 3) h k.1 k.2.1 k.2.2) ∧
    dstFits sTemper 0 (maskClusters 0xFF) (.handle 3) { h with level := 0 } chain6.pCount 1 = true := by
  refine ⟨⟨_, _, (cluReady_of rfl (by decide +kernel)).choose_spec, by decide +kernel, by decide +kernel⟩, by decide +kernel, fun k hk => keyBound_of ?_, by decide +kernel⟩
  revert k
  decide +kernel


/-! ### Shares -/

/-- A session modulo 2^64 of two parties of this part, partitions 0 and 1; `self` is this one's index. -/
def ses0 (self : Nat) : Session :=
  { raw := [0, 0, 0, BitVec.ofNat 8 (2 + 4 * self), 2, 0, 0, 0] ++ leBytes 8 99 ++ List.replicate 6 0 ++ [0, 1, 0, 2, 0, 0] ++ leBytes 4 4096
    openSeq := 0, dealSeq := 0, consumed := 0, pool := List.replicate 4096 (0, 0, 0), heldDeals := [], outDeals := [], early := [] }
def shHead : Header := { headerZero with formatTag := 0xC711, scheme := 2, parts := 1, logN := 12, keysetTag := 99, logSlots := 5, share := true }
/-- Session `x` in slot 5; handles 1 and 2 hold its shares, 3 clear data, 4 and 6 are free for shares, 5 for clear data. -/
def sShr (x : Session) : State := jobOn (fun d => { d with
    handles := [1, 2, 3, 4, 5, 6].map fun k => (k, { Handle.zero with base := 200 * k, rows := 200, valid := true, isSecret := k != 3 && k != 5 })
    scratch := memAt 57600 (headerBytes shHead) ++ memAt 115200 (headerBytes shHead) })
  (fun p => { p with sessions := [(5, x)] })
theorem sShr_session (x : Session) : sessionOf (sShr x) 0 5 = some x := rfl
theorem shrReady_of {s : State} {shares clears secretDsts clearDsts : List Nat} {x : Session} {slot n : Nat}
    (hs : sessionOf s 0 slot = some x)
    (h : (runningJob s 0 0 = some job0 ∧ queueOpen s 0 0 = true ∧ bnHolds s at0 = false ∧ s.reissue = none ∧ heldFront s 0 0 = none) ∧
      (∀ h ∈ shares ++ clears ++ secretDsts ++ clearDsts, (handleOf s 0 h).valid = true ∧ (handleOf s 0 h).ring = false) ∧
      (∀ h ∈ secretDsts, (handleOf s 0 h).isSecret = true) ∧
      (sbAdmit s 0 ((shares ++ clears).map (fun h => handleRange s 0 h 0 (handleOf s 0 h).rows false) ++
        (secretDsts ++ clearDsts).map fun h => handleRange s 0 h 0 (handleOf s 0 h).rows true)).isSome = true ∧
      (∀ h ∈ shares ++ clears, (handleOf s 0 h).poisoned = false) ∧ (x.ring = 1 → (chainOf s 0 x.chainId).isSome = true) ∧
      (∀ h ∈ shares, shareHeadOk (shareHdr s 0 h) = true ∧ (headerOfBytes (shareHdr s 0 h)).poisoned = false ∧
        shareMatches x (headerOfBytes (shareHdr s 0 h)) = true ∧ (headerOfBytes (shareHdr s 0 h)).logN = n ∧
        (headerOfBytes (shareHdr s 0 h)).logSlots = slot) ∧
      (∀ h ∈ shares ++ secretDsts, 1 + shareRows x.ring n ≤ (handleOf s 0 h).rows) ∧
      ∀ h ∈ clears ++ clearDsts, 8 * 2 ^ n ≤ (handleOf s 0 h).rows * 288) : ∃ es, ShrReady s at0 0xFF job0 shares clears secretDsts clearDsts x slot n es := by
  obtain ⟨h1, h2, h3, h4, h5, h7, h8, h9, h10⟩ := h
  exact ⟨_, ready_of h1, by decide, h2, h3, some_fst h4, h5, hs, h7, h8, h9, h10⟩
theorem hyp_ShareOperations : let x := ses0 0
    let s := sShr x
    (∃ es, ShrReady s at0 0xFF job0 [1, 2] [] [4] [] x 5 12 es) ∧ (∃ es, ShrReady s at0 0xFF job0 [1] [] [4] [] x 5 12 es) ∧
    (∃ es, ShrReady s at0 0xFF job0 [1] [3] [4] [] x 5 12 es) ∧ scalarBusy s 0 [7] = false ∧ (7 : Nat) ∉ (dieOf s 0).scalarPoison :=
  ⟨shrReady_of (sShr_session _) (by decide +kernel), shrReady_of (sShr_session _) (by decide +kernel), shrReady_of (sShr_session _) (by decide +kernel), by decide +kernel, by decide +kernel⟩
theorem hyp_ShareOperations_exchange : let x := ses0 0
    let s := sShr x
    x.self ≠ 3 ∧ (List.range x.parties).filter (· != x.self) = [1] ∧ shareRoute s 0 (x.place 1).1 = .send ∧ x.early = [] ∧
    (∃ es, ShrReady s at0 0xFF job0 [1] [] [] [5] x 5 12 es) ∧ (∃ es, ShrReady s at0 0xFF job0 [1, 2] [] [] [5] x 5 12 es) ∧
    2 ^ 12 ≤ x.cap ∧ 2 ^ 12 ≤ x.pool.length ∧ (∃ es, ShrReady s at0 0xFF job0 [] [3] [4, 6] [] x 5 12 es) :=
  ⟨by decide +kernel, by decide +kernel, by decide +kernel, rfl, shrReady_of (sShr_session _) (by decide +kernel), shrReady_of (sShr_session _) (by decide +kernel), by decide +kernel, by decide +kernel,
    shrReady_of (sShr_session _) (by decide +kernel)⟩
theorem hyp_DealsAndArrivals_deal : let x := ses0 3
    let s := sShr x
    Ready s at0 job0 ∧ sessionOf s 0 5 = some x ∧ x.self = 3 ∧ 8 ≤ x.cap ∧ x.outDeals = [] ∧ (∀ i < x.parties, shareRoute s 0 (x.place i).1 = .send) ∧ 1 ≤ ringOfSession s 0 x :=
  ⟨ready_of (by decide +kernel), sShr_session _, by decide +kernel⟩
/-- The exchange that a SHR_OPEN of one element would have started, and the operation that holds it. -/
def ex0 : Exch := { part := 0, session := 5, kind := .opening, openSeq := 0, dealSeq := none, m := 1, got := [], own := [3], triple := ([], [], []), dst := 5, recv := [] }
def opEx : Op := { op0 with exch := some ex0 }
/-- Session 0 with no triples and an exchange that waits. -/
def sesE : Session := { ses0 0 with pool := [], openSeq := 1 }
def sExch : State := updDie 0 (fun x => { x with ops := [opEx] }) (sShr sesE)
def msg0 : ExMsg := { part := 0, port := none, epoch := 0, tag := 99, party := 1, m := 1, openSeq := 0, dealSeq := none, body := [4] }
theorem hyp_DealsAndArrivals_message :
    shareBarred sExch msg0.port = none ∧ sessionOfTag sExch 0 msg0.tag.toNat = some (5, sesE) ∧ sessionOf sExch 0 5 = some sesE ∧ msg0.party < sesE.parties ∧ msg0.party ≠ sesE.self ∧
    leastExch ((exchsOf sExch 0 5).filter fun y => !y.2.2.got.any (·.1 == msg0.party)) = some (0, opEx, ex0) ∧ opOf sExch 0 opEx.id = some opEx ∧
    jobOf sExch opEx.job = some job0 ∧ msg0.openSeq = ex0.openSeq ∧ msg0.m = ex0.m ∧ msg0.dealSeq = ex0.dealSeq ∧ msg0.body.length = ex0.m ∧
    leastExch ((exchsOf sExch 0 5).filter fun y => !(exchReady sExch y.2.2)) = some (0, opEx, ex0) ∧
    msg0.tag.toNat = sesE.tag ∧ diff32 1 ex0.openSeq < 2 ^ 31 ∧ 2 ^ 31 ≤ diff32 (2 ^ 32 - 1) ex0.openSeq := by decide +kernel
/-- What comes over port 3: barred with no fabric or no encryption, discarded from a device that is no member, held for the next epoch. -/
def sShrNet (members : List Nat) : State := updPort 3 (fun x => { x with keyState := .on }) { sExch with
  fabric := { sExch.fabric with partId := 0, valid := true, members := members } }
theorem hyp_DealsAndArrivals_ports : let m := { msg0 with port := some 3 }
    let net := sShrNet [0]
    shareBarred sExch m.port = some 5 ∧ sExch.fabric.valid = false ∧ shareBarred (updPort 3 (fun x => { x with keyState := .off }) net) m.port = some 6 ∧
    shareBarred net m.port = none ∧ sessionOfTag net 0 m.tag.toNat = some (5, sesE) ∧ memberHeld net (sesE.place m.party).1 = true ∧
    memberHeld (sShrNet []) (sesE.place m.party).1 = false ∧ m.epoch ∈ epochsHeld net ∧ 1 ∉ epochsHeld net ∧ 1 = (net.fabric.epoch + 1) % 2 ^ 16 ∧
    (portOf net 3).holdBuf.length < 64 ∧ memberHeld net (sesE.place 3).1 = true := by decide +kernel
theorem hyp_DealsAndArrivals_early : leastExch ((exchsOf (sShr sesE) 0 5).filter fun y => !y.2.2.got.any (·.1 == msg0.party)) = none ∧
    sessionByTag (sShr sesE) 0 99 = some (5, sesE) ∧ sesE.openSeq ≤ 1 := by decide +kernel
theorem hyp_DealsAndArrivals_delivery : let m : DealMsg := { part := 0, port := none, epoch := 0, tag := 99, dealSeq := 0, a := [1], b := [2], c := [2] }
    sesE.self ≠ 3 ∧ m.dealSeq = sesE.dealSeq ∧ sesE.heldDeals = [] ∧ shareBarred sExch m.port = none ∧ sessionByTag sExch 0 m.tag.toNat = some (5, sesE) ∧
    diff32 m.dealSeq sesE.dealSeq < 2 ^ 31 ∧ sesE.pool.length + diff32 m.dealSeq sesE.dealSeq + m.a.length ≤ sesE.cap ∧
    diff32 5 sesE.dealSeq < 2 ^ 31 ∧ sesE.pool.length + diff32 5 sesE.dealSeq + m.a.length ≤ sesE.cap ∧
    (ses0 0).cap < (ses0 0).pool.length + diff32 m.dealSeq (ses0 0).dealSeq + m.a.length := by decide +kernel


/-! ### Vector, tensor and update engines -/

theorem vecReady_of {s : State} {g : Fin 2} {n outN : Nat} {srcs : List (VOp × VFmt)} {dst : VOp} {dfmt : VFmt} {any : Bool}
    (h : (runningJob s 0 0 = some job0 ∧ queueOpen s 0 0 = true ∧ bnHolds s at0 = false ∧ s.reissue = none ∧ heldFront s 0 0 = none) ∧
      engineHere s 0 3 = true ∧
      (∀ o ∈ srcs, vOperand s 0 o.2 any false o.1 = .pass ∧ vCount s 0 o.2 n false o.1 = .pass ∧ vPoison s 0 g o.2 n o.1 = .pass) ∧
      (vOperand s 0 dfmt any true dst = .pass ∧ vCount s 0 dfmt outN true dst = .pass) ∧ n ≤ 4096 ∧
      ringCheck s 0 (descRings s 0 (vDescs (srcs.map (·.1)))) = none ∧ ringSlots s 0 (descRings s 0 (vDescs (srcs.map (·.1)))) = some [] ∧
      scalarBusy s 0 (vScalars (srcs.map (·.1))) = false ∧
      (sbAdmit s 0 (descRanges s 0 false (vDescs (srcs.map (·.1))) ++ descRanges s 0 true (vDescs [dst]))).isSome = true) :
    ∃ es, VecReady s at0 job0 g n srcs dst dfmt outN any [] es := by
  obtain ⟨h1, h2, h3, h4, h5, h6, h7, h8, h9⟩ := h
  exact ⟨_, ready_of h1, h2, h3, h4, ⟨by omega, fun _ => h5⟩, h6, h7, h8, some_fst h9⟩
/-- A descriptor of `n` elements in one dimension: kind, word bytes, type, space, handle. -/
def vec (kind word etype space handle n : Nat) : Desc :=
  { rank := 1, kind := kind, wordBytes := word, signed := false, etype := etype, space := space, die := 0, wrap := false, padSkip := false, transpose := false
    scales := false, s0Zero := false, handle := handle, part := 0, window := 0, indexDim := 0, wgen := 0, scaleHandle := 0, offset := 0, scaleOffset := 0
    size := [n, 0, 0, 0, 0], fill := 0, stride := [0, 0, 0, 0], padLo := [0, 0, 0, 0, 0], padHi := [0, 0, 0, 0, 0] }
/-- Handles 1 to 5, store handle 1, prefetch ring 1 over handle 5 with a filled slot, and the given descriptors. -/
def sDesc (ds : Tbl Desc) : State := jobOn fun d => { d with
  handles := [1, 2, 3, 4, 5].map fun k => (k, { Handle.zero with base := 200 * k, rows := 200, valid := true, ring := k == 5 })
  storeHandles := [(1, { StoreHandle.zero with base := 0, rows := 200, valid := true })]
  rings := [(1, { Ring.zero with handle := 5, slots := 4, active := true, slotRows := 50, fill := 1, tail := 1 })], descs := ds }
/-- FP32 tensors of 64 elements in handles 1 to 3, one of I64 words in handle 4. -/
def sVec : State := sDesc [(1, vec 1 0 1 0 1 64), (2, vec 1 0 1 0 2 64), (3, vec 1 0 1 0 3 64), (4, vec 2 3 0 0 4 64)]
theorem hyp_VectorElementwise : (∃ es, VecReady sVec at0 job0 0 64 [(.tile 0, .fp32)] (.desc 3) .fp32 64 false [] es) ∧
    (∃ es, VecReady sVec at0 job0 0 64 [(.desc 1, .fp32), (.scalar 4, .fp32)] (.tile 2) .fp32 64 false [] es) ∧
    (∃ es, VecReady sVec at0 job0 1 64 [(.desc 1, .fp32), (.desc 2, .fp32), (.cache 7 64, .fp32)] (.desc 3) .fp32 64 false [] es) :=
  ⟨vecReady_of (by decide +kernel), vecReady_of (by decide +kernel), vecReady_of (by decide +kernel)⟩
theorem hyp_VectorMoves : (∃ es, VecReady sVec at0 job0 0 64 [(.desc 1, .fp32)] (.tile 1) .fp32 64 false [] es) ∧
    (∃ es, VecReady sVec at0 job0 0 64 [(.desc 1, .fp32)] (.tile 1) .u32 64 false [] es) ∧ moveFmt sVec 0 [.desc 1, .tile 1] = .fp32 ∧
    (∃ es, VecReady sVec at0 job0 0 64 [(.desc 4, .i64)] (.tile 1) .fp32 64 false [] es) ∧
    (∃ es, VecReady sVec at0 job0 0 64 [(.desc 1, .fp32)] (.desc 4) .i64 64 false [] es) :=
  ⟨vecReady_of (by decide +kernel), vecReady_of (by decide +kernel), by decide +kernel, vecReady_of (by decide +kernel), vecReady_of (by decide +kernel)⟩
theorem hyp_VectorReductionsSortsAndMoves :
    (∃ es, VecReady sVec at0 job0 0 4096 [(.tile 0, .fp32)] (.tile 1) .fp32 64 false [] es) ∧
    (∃ es, VecReady sVec at0 job0 0 4096 [(.tile 0, .fp32)] (.scalar 1) .fp32 1 false [] es) ∧
    (∃ es, VecReady sVec at0 job0 0 4096 [(.tile 0, .fp32)] (.tile 1) .u32 64 false [] es) ∧
    (∃ es, VecReady sVec at0 job0 0 64 [(.desc 1, .fp32)] (.tile 1) .fp32 64 false [] es) ∧
    (∃ es, VecReady sVec at0 job0 0 64 [(.desc 1, .fp32)] (.tile 1) .u32 64 false [] es) ∧ moveFmt sVec 0 [.desc 1, .tile 1] = .fp32 ∧
    (∃ es, VecReady sVec at0 job0 0 64 [(.desc 4, .i64)] (.tile 1) .fp32 64 false [] es) ∧
    (∃ es, VecReady sVec at0 job0 0 64 [(.desc 1, .fp32)] (.desc 4) .i64 64 false [] es) :=
  ⟨vecReady_of (by decide +kernel), vecReady_of (by decide +kernel), vecReady_of (by decide +kernel), hyp_VectorMoves⟩
/-- `sVec` with tensors of E4M3 by tiles in place of descriptors 2 and 3, and products of 2 × 2. -/
def mat (etype handle : Nat) : Desc := { vec 1 0 etype 0 handle 2 with rank := 2, size := [2, 2, 0, 0, 0], stride := [2, 0, 0, 0] }
def sMat : State := sDesc [(1, mat 3 1), (2, mat 3 2), (3, mat 1 3), (4, mat 3 4), (6, vec 1 0 1 0 1 4), (7, vec 1 0 3 0 4 4)]
/-- A NaN for FIX to count; keys that are equal, −0 and NaN among them, in the order of R191. -/
theorem hyp_VectorReductionsSortsAndMoves_order : ([0x7FC00000, 0x3F800000] : List Nat).countP (fun v => (f32 v).isNan) = 1 ∧
    (sortKeys [0x40000000, 0x3F800000, 0x40000000]).map (·.2) = [1, 0, 2] := by decide +kernel
theorem hyp_ConversionsAndProducts : let c := convInto (vec 1 0 3 0 4 4) (vValues sMat 0 0 4 0 (.desc 6)) (xtOf sMat 0 9)
    let e := convInto (vec 1 0 3 0 4 4) [.inf false] 0
    (∃ es, VecReady sMat at0 job0 0 4 [(.desc 6, .fp32)] (.desc 7) .fp32 4 true [] es) ∧
    (∃ es, VecReady sMat at0 job0 0 4 [(.desc 6, .fp32)] (.tile 7) .fp32 4 true [] es) ∧ descOf sMat 0 7 = some (vec 1 0 3 0 4 4) ∧
    scalarBusy sMat 0 [9] = false ∧ scalarBad sMat 0 [9] = false ∧ xtOk (xtOf sMat 0 9) = true ∧ c.saturated = none ∧ c.nans = 0 ∧ c.recomputed = 0 ∧
    e.saturated = some 0 ∧ e.nans = 0 ∧ e.recomputed = 0 :=
  ⟨vecReady_of (by decide +kernel), vecReady_of (by decide +kernel), by decide +kernel⟩
theorem hyp_ConversionsAndProducts_product : let g : TmulArgs := { a := 1, b := 2, cin := none, fp32 := some 3, conv := none, xt := 9, palette := none }
    let k : TmulArgs := { g with fp32 := none, conv := some 4 }
    let c := convInto (mat 3 4) ((tmulValues sMat (mat 3 1) (mat 3 2) 0 0 none).map f32) (xtOf sMat 0 9)
    Ready sMat at0 job0 ∧ (engineHere sMat 0 2 = true ∧ descOf sMat 0 1 = some (mat 3 1) ∧ descOf sMat 0 2 = some (mat 3 2) ∧
    (∀ i ∈ [1, 2], engineDesc sMat 0 true i = .pass) ∧ (∀ i ∈ [3, 4], engineDesc sMat 0 false i = .pass) ∧ tmulForm sMat 0 g = .pass ∧ tmulForm sMat 0 k = .pass ∧
    ringCheck sMat 0 (descRings sMat 0 (tmulSrcs g)) = none ∧ ringSlots sMat 0 (descRings sMat 0 (tmulSrcs g)) = some []) ∧
    (∃ m, sbAdmit sMat 0 (descRanges sMat 0 false (tmulSrcs g) ++ descRanges sMat 0 true (tmulDsts g)) = some m) ∧
    descPoison sMat 0 (tmulSrcs g) = .pass ∧ descOf sMat 0 3 = some (mat 1 3) ∧ descOf sMat 0 4 = some (mat 3 4) ∧
    c.saturated = none ∧ c.nans = 0 ∧ c.recomputed = 0 ∧ scalarBusy sMat 0 [8] = false :=
  ⟨ready_of (by decide +kernel), by decide +kernel, some_val (by decide +kernel), by decide +kernel⟩
/-- An update descriptor: rule 1 (momentum) on eight elements with a BF16 gradient; `lazyRows` gives rows of four, `f` is the flags byte's rest. -/
def upd (lazyRows : Bool) (f : Byte) : List Byte :=
  let b := leBytes 2 0xC7F1 ++ [0x11, (if lazyRows then 1 else 0) + f] ++ List.replicate 24 0 ++ leBytes 4 (if lazyRows then 4 else 0) ++ leBytes 4 8 ++ List.replicate 24 0
  b ++ leBytes 4 (crc32c b).toNat
def sUpd (b : List Byte) : State := updDie 0 (fun d => { d with
  handles := d.handles.map fun h => (h.1, { h.2 with ring := false }), scratch := memAt 57600 b }) (sDesc [])
def upd0 : UpdArgs := { desc := 1, stepId := 0, weights := 2, grad := 3, m := 4, v := 0, sg := 1, fg := 2, idx := 5, counts := 5, rows := 1 }
theorem hyp_UpdateEngine : let s := sUpd (upd false 0)
    let u := updOfBytes (handleBytes s 0 1 0 64)
    let size (h : Nat) : Nat := (((updSizes u upd0).find? fun x => x.1 == h).map (·.2)).getD 0
    Ready s at0 job0 ∧ (engineHere s 0 4 = true ∧ updSound (handleBytes s 0 1 0 64) = true ∧
    (∀ h ∈ updWrites u upd0 ++ updReads u upd0, (handleOf s 0 h).valid = true ∧ (handleOf s 0 h).ring = false ∧ (handleOf s 0 h).poisoned = false ∧
      (handleOf s 0 h).isSecret = false) ∧ secretSpill s 0 (updWrites u upd0 ++ updReads u upd0) (updWrites u upd0) = false ∧
    (queueOf s 0 0).stepId = upd0.stepId.toNat ∧ (∀ x ∈ updSizes u upd0, x.2 ≤ (handleOf s 0 x.1).rows * 288) ∧
    scalarBusy s 0 [1, 2] = false ∧ scalarBad s 0 [1, 2] = false ∧ u.check = false ∧ u.lazyRows = false ∧ u.gradElems 0 = 8) ∧
    (∃ m, sbAdmit s 0 [bytesRange s 0 1 64 false, bytesRange s 0 3 16 false] = some m) ∧
    ∃ m, sbAdmit s 0 ((updReads u upd0).map (fun h => bytesRange s 0 h (size h) false) ++ (updWrites u upd0).map fun h => bytesRange s 0 h (size h) true) = some m :=
  ⟨ready_of (by decide +kernel), by decide +kernel, some_val (by decide +kernel), some_val (by decide +kernel)⟩
theorem hyp_UpdateEngine_skipAndLazy : let s := updDie 0 (fun d => { d with scalars := [(2, 1)] }) (sUpd (upd true 4))
    let u := updOfBytes (handleBytes s 0 1 0 64)
    updSound (handleBytes s 0 1 0 64) = true ∧ u.check = true ∧ scalarOf s 0 upd0.fg ≠ 0 ∧ u.lazyRows = true ∧ (lazyIdx s 0 upd0).Pairwise (· < ·) ∧
    ∀ i ∈ lazyIdx s 0 upd0, i < u.elements / u.rowLength := by decide +kernel


/-! ### Big numbers and handles -/

/-- `sPart`'s job on slots 1 to 4 of four words, with values; handle 1 is free to load from. -/
def sBn (vs : List Nat) (r : Option BnCmd) : State :=
  { jobOn (fun d => { d with handles := [(1, { Handle.zero with base := 200, rows := 200, valid := true })] }) with
    bn := { slots := vs.zipIdx.map fun v => (v.2 + 1, { n := 4, isSecret := false, valid := true, value := v.1 }), own := [], waiting := [], running := r } }
def bnCmd (i : Instr) : BnCmd := { arrival := 2, part := some 0, job := 1, at_ := at0, instr := i, total := 100000, remaining := 100000, yields := 0 }
theorem hyp_BigNumberSlots : let s := sBn [7, 8, 9, 10] none
    Ready s at0 job0 ∧ ((slotAt s 0 1).n ≠ 0 ∧ (slotAt s 0 1).valid = true ∧ (handleOf s 0 1).valid = true ∧ (handleOf s 0 1).ring = false ∧
    0 + 8 * (slotAt s 0 1).n ≤ (handleOf s 0 1).rows * 288 ∧ (handleOf s 0 1).isSecret = false ∧ (slotAt s 0 1).isSecret = false ∧ (handleOf s 0 1).poisoned = false) ∧
    (∃ es, sbAdmit s 0 [wordRows s 0 1 0 4 false] = some es) ∧ (∃ es, sbAdmit s 0 [wordRows s 0 1 0 4 true] = some es) ∧ memsOk sOn := by
  refine ⟨ready_of (by decide +kernel), by decide +kernel, some_val (by decide +kernel), some_val (by decide +kernel), fun d => ?_, by decide⟩
  have : dieOf sOn d = Die.zero := by simp [sOn, s0, resetOf, dieOf]
  rw [this]; refine ⟨rfl, rfl, ?_, ?_, ?_, ?_⟩ <;> simp [Die.zero, Queue.zero] <;> rfl
theorem hyp_BigNumberCommands : let s := sBn [7, 8, 13, 10] none
    let r := sBn [7, 8, 13, 10] (some (bnCmd (.modMul at0 5 6 7 8 1)))
    Ready s at0 job0 ∧ s.bn.waiting.length < 64 ∧ scalarBusy s 0 [9] = false ∧ (∀ k ∈ [1, 2, 3, 4], (slotAt s 0 k).valid = true ∧ (slotAt s 0 k).n = 4) ∧
    s.bn.running = none ∧ r.bn.running.isSome = true ∧ scalarBusy r 0 [9] = false := by
  refine ⟨ready_of (by decide +kernel), by decide +kernel, by decide +kernel, by decide +kernel, by decide +kernel, by decide +kernel, by decide +kernel⟩
/-- P-384's words are six. -/
theorem hyp_BigNumberCommands_curve : let s := { sBn [] none with bn := { (sBn [] none).bn with slots := [1, 2, 3, 4, 5].map fun k => (k, ⟨6, true, true, 1⟩) } }
    (∀ k ∈ [1, 2, 3, 4, 5], (slotAt s 0 k).valid = true ∧ (slotAt s 0 k).n = 6) ∧ scalarBusy s 0 [9] = false ∧ s.bn.waiting = [] := by decide +kernel
theorem hyp_BigNumberCommands_complete : let s := sBn [7, 8, 13, 10] (some (bnCmd (.modMul at0 4 1 2 3 9)))
    (bnCmd (.modMul at0 4 1 2 3 9)).part = some job0.part ∧ s.bn.running = some (bnCmd (.modMul at0 4 1 2 3 9)) ∧ jobOf s 1 = some job0 ∧
    2 ≤ (slotAt s 0 3).value ∧ (slotAt s 0 3).value % 2 = 1 ∧ (slotAt s 0 1).value < (slotAt s 0 3).value ∧ (slotAt s 0 2).value < (slotAt s 0 3).value ∧
    Nat.gcd (slotAt s 0 1).value (slotAt s 0 3).value = 1 ∧ Nat.gcd 5 15 ≠ 1 ∧ (slotAt (sBn [13, 8, 13, 10] none) 0 3).value ≤ (slotAt (sBn [13, 8, 13, 10] none) 0 1).value := by
  decide +kernel
theorem hyp_BigNumberCommands_point : let c := curveOf .p256
    let s := sBn [5, c.gx, c.gy] (some (bnCmd (.ecMul at0 .p256 1 2 3 4 5 9)))
    (slotAt s 0 1).value ≠ 0 ∧ (slotAt s 0 1).value < c.order ∧ ecValid c (slotAt s 0 2).value (slotAt s 0 3).value = true ∧ ecValid c 1 1 = false ∧
    jobOf s 1 = some job0 := by decide +kernel
theorem hyp_BigNumberCommands_yield : let c := bnCmd (.modMul at0 4 1 2 3 9)
    let w := { bnCmd (.modAdd at0 4 1 2 3 9) with total := 48, remaining := 48 }
    32768 < c.remaining ∧ c.yields < 16 ∧ w.part ≠ none ∧ w.total ≤ c.remaining - 32768 := by decide
theorem hyp_HandleStatus : Ready sVec at0 job0 ∧ scalarBusy sVec 0 [1, 2] = false := ⟨ready_of (by decide +kernel), by decide +kernel⟩
theorem hyp_HandleAllocation : Ready sVec at0 job0 ∧ ((handleOf sVec 0 9).valid = false ∧ 1200 + 4 ≤ 2 ^ 20 ∧
    (∀ e ∈ (dieOf sVec 0).handles, e.2.valid = true → ¬(1200 < e.2.base + e.2.rows ∧ e.2.base < 1200 + 4)) ∧ (∀ x ∈ (dieOf sVec 0).heldOut, ¬(1200 ≤ x ∧ x < 1204)) ∧
    (handleOf sVec 0 1).valid = true ∧ windowsOn sVec 0 false 1 = [] ∧ (∀ g ∈ (dieOf sVec 0).rings, g.2.active = true → g.2.handle ≠ 1) ∧
    (handleOf sVec 0 5).valid = true ∧ windowsOn sVec 0 false 5 = [] ∧ (dieOf sVec 0).ops = [] ∧ (ringOf sVec 0 1).active = true ∧ (ringOf sVec 0 1).handle = 5) ∧
    (∃ es, sbAdmit sVec 0 [{ lo := 1200, hi := 1200 + 4 - 1, write := true, op := 0 }] = some es) ∧
    ∀ h ∈ [1, 5], ∃ es, sbAdmit sVec 0 [handleRange sVec 0 h 0 (handleOf sVec 0 h).rows true] = some es :=
  ⟨ready_of (by decide +kernel), by decide +kernel, some_val (by decide +kernel), fun h hh => some_val (by revert h; decide +kernel)⟩
/-- Rows 200 to 399, those of handle 1, and 1200 to 1203 are in use. -/
theorem hyp_HandleAllocation_wait : let s := updDie 0 (fun d => { d with scoreboard := [⟨200, 399, true, 7⟩, ⟨1200, 1203, true, 7⟩] }) sVec
    sbAdmit s 0 [{ lo := 1200, hi := 1203, write := true, op := 0 }] = none ∧ sbAdmit s 0 [handleRange s 0 1 0 (handleOf s 0 1).rows true] = none ∧
    (handleOf s 0 1).valid = true ∧ windowsOn s 0 false 1 = [] ∧ runningJob s 0 0 = some job0 := by decide +kernel
theorem hyp_HandleAllocation_store : (storeOf sVec 0 2).valid = false ∧ 300 + 5 ≤ 25165824 ∧
    (∀ e ∈ (dieOf sVec 0).storeHandles, e.2.valid = true → ¬(300 < e.2.base + e.2.rows ∧ e.2.base < 300 + 5)) ∧ (dieOf sVec 0).heldOutStore = [] ∧
    keyRuns sVec 0 = [] ∧ (storeOf sVec 0 1).valid = true ∧ windowsOn sVec 0 true 1 = [] ∧ storeBusy sVec 0 1 = false ∧ storeBusy (updDie 0 (fun d => { d with ops := [{ op0 with srcs := [.store 0 1] }] }) sVec) 0 1 = true := by decide +kernel
/-- A descriptor's bytes: rank 1, 64 words of 4 bytes in handle 1, at a byte offset. -/
def vecBytes (o : Nat) : List Byte :=
  let b := leBytes 2 0xC7D4 ++ [1, 0x0A, 0, 0, 0, 0] ++ leBytes 2 1 ++ List.replicate 14 0 ++ leBytes 8 o ++ List.replicate 8 0 ++ leBytes 4 64 ++ List.replicate 80 0
  b ++ leBytes 4 (crc32c b).toNat
theorem hyp_RingsAndDescriptors : (ringOf sVec 0 2).active = false ∧ (handleOf sVec 0 1).valid = true ∧ (handleOf sVec 0 1).isSecret = false ∧
    (handleOf sVec 0 1).ring = false ∧ 3 * 60 ≤ (handleOf sVec 0 1).rows ∧ (ringOf sVec 0 1).active = true ∧
    (dieOf sVec 0).ops = [] ∧ sVec.held = [] := by decide +kernel
set_option maxRecDepth 100000 in
theorem hyp_RingsAndDescriptors_dset : let s (o : Nat) := updDie 0 (fun d => { d with scratch := memAt 115200 (vecBytes o) }) sVec
    handleUse (s 0) 0 2 = none ∧ 0 + 128 ≤ (handleOf (s 0) 0 2).rows * 288 ∧ (sbAdmit (s 0) 0 [handleRange (s 0) 0 2 0 1 false]).isSome = true ∧
    (handleOf (s 0) 0 2).poisoned = false ∧ descR255 (s 0) 0 0 (handleBytes (s 0) 0 2 0 128) = true ∧ (descOfBytes (handleBytes (s 0) 0 2 0 128)).aligned = true ∧
    descR255 (s 2) 0 0 (handleBytes (s 2) 0 2 0 128) = true ∧ (descOfBytes (handleBytes (s 2) 0 2 0 128)).aligned = false ∧
    descR255 sVec 0 0 (handleBytes sVec 0 2 0 128) = false := by decide +kernel

/-! ### Transfers -/

theorem xferReady_of {s : State} {src dst : Desc} {idx : List Desc} {slots : List Nat}
    (h : (runningJob s 0 0 = some job0 ∧ queueOpen s 0 0 = true ∧ bnHolds s at0 = false ∧ s.reissue = none ∧ heldFront s 0 0 = none) ∧
      ((∀ d, ∀ o ∈ (dieOf s d).ops, o.id < s.nextId) ∧ ∀ r ∈ s.fabric.requests, r.op < s.nextId) ∧
      (∀ t ∈ src :: idx, t.recheck s = .pass ∧ t.poison s = none ∧ secretCheck s t dst = .pass ∧ windowCheck s job0 t = .pass) ∧
      (dst.recheck s = .pass ∧ windowCheck s job0 dst = .pass ∧ slotFree s dst = true) ∧ sameKind src dst = true ∧
      ringCheck s 0 ((src :: idx).flatMap srcRing ++ dstRing dst) = none ∧ ringSlots s 0 ((src :: idx).flatMap srcRing) = some slots ∧ (sbAdmit s 0 (xferRanges s 0 (src :: idx) [dst])).isSome = true) :
    ∃ es, XferReady s at0 0xF job0 src dst idx slots es := by
  obtain ⟨h1, h2, h3, h4, h5, h6, h7, h8⟩ := h
  exact ⟨_, ready_of h1, h2, rfl, by decide, h3, h4, h5, h6, h7, some_fst h8⟩
/-- Descriptors 1 to 6: 64 words of 4 bytes in handles 1 and 2, store handle 1, ring 1, a window of part 5, host memory; 7 an index of 4. -/
def wrd (space handle : Nat) : Desc := { vec 2 2 0 space handle 64 with part := if space = 3 then 5 else 0 }
def sXfer : State := let s := sDesc [(1, wrd 0 1), (2, wrd 0 2), (3, wrd 1 1), (4, wrd 2 1), (5, wrd 3 0), (6, wrd 4 0), (7, { vec 2 2 0 0 3 64 with signed := true })]
  { s with fabric := { s.fabric with valid := true, members := [0, 5] } }
/-- A transfer of `op0` to host memory, or into ring 1. -/
def xf (dst : Desc) (w : List (Nat × List Byte)) : Xfer :=
  { dst := dst, srcSpace := 0, todo := none, begun := true, placed := false, plans := [], add := false, host := some (.a, 0), hostWrites := w, cursor := 0, stalled := false, group := none, pages := [], pieces := [], bufs := []
    carry := none, hall := none, remoteFlag := none }
theorem hyp_Moves_far : (∃ es, XferReady sXfer at0 0xF job0 (wrd 0 1) (wrd 3 0) [] [] es) ∧ (∃ es, XferReady sXfer at0 0xF job0 (wrd 3 0) (wrd 0 2) [] [] es) :=
  ⟨xferReady_of (by decide +kernel), xferReady_of (by decide +kernel)⟩
theorem hyp_Moves : (∃ es, XferReady sXfer at0 0xF job0 (wrd 0 1) (wrd 1 1) [] [] es) ∧ (∃ es, XferReady sXfer at0 0xF job0 (wrd 2 1) (wrd 0 2) [] [0] es) ∧
    (∃ es, XferReady sXfer at0 0xF job0 (wrd 0 1) (wrd 2 1) [] [] es) ∧ (∃ es, XferReady sXfer at0 0xF job0 (wrd 0 1) (wrd 4 0) [] [] es) ∧
    (∃ es, XferReady sXfer at0 0xF job0 (wrd 0 1) (wrd 3 0) [] [] es) ∧ (∃ es, XferReady sXfer at0 0xF job0 (wrd 3 0) (wrd 0 2) [] [] es) ∧
    layoutCheck (wrd 0 1) (wrd 1 1) true = .pass ∧ countCheck (wrd 0 1) (wrd 2 1) = .pass ∧ flagCheck sXfer 0 (wrd 3 0) (some ⟨0, 300⟩) = .pass ∧
    descOf sXfer 0 5 = some (wrd 3 0) ∧ readRuns 32 [planOf sXfer (wrd 3 0) (wrd 0 2) 0 [] (movePairs (wrd 3 0) (wrd 0 2) [])] ≠ [] :=
  ⟨xferReady_of (by decide +kernel), xferReady_of (by decide +kernel), xferReady_of (by decide +kernel), xferReady_of (by decide +kernel), hyp_Moves_far.1,
    hyp_Moves_far.2, by decide +kernel⟩
/-- The tongs are idle; an older transfer holds tong 0. -/
theorem hyp_Moves_tongs : tongsIdle sXfer 0 0xF ∧ ¬tongsIdle (updDie 0 (fun x => { x with ops := [{ op0 with tongs := 1, xfer := some (xf (wrd 0 1) []) }] }) sXfer) 0 1 := by
  unfold tongsIdle
  decide +kernel
/-- An object that does not pass ingest: its rows are all zero. -/
theorem hyp_Moves_object : let a := vec 0 0 0 0 1 2
    let b := vec 0 0 0 0 2 2
    (∃ es, XferReady sXfer at0 0xF job0 a b [] [] es) ∧
    ingest sXfer.fuses.primes (partOfIx sXfer 0).chains (partOfIx sXfer 0).sessions ((Plan.elems [] 2304 (planOf sXfer a b 0 [] (movePairs a b []))).flatMap fun e => leBytes 288 e.2) = none :=
  ⟨xferReady_of (by decide +kernel), by decide +kernel⟩
theorem hyp_GathersAndScatters : let ix : Desc := { vec 2 2 0 0 3 64 with signed := true }
    (∃ es, XferReady sXfer at0 0xF job0 (wrd 0 1) (wrd 0 2) [ix] [] es) ∧ indexOk ix = true ∧ layoutCheck (wrd 0 1) (wrd 0 2) false = .pass ∧
    slabShape (wrd 0 1) (wrd 0 2) 0 = true ∧ (wrd 0 2).boxDim 0 = ix.elems ∧ (wrd 0 1).dim 0 = ix.elems ∧ addOk (wrd 0 2) = true ∧
    badIndexes (wrd 0 1) ((List.range ix.elems).map fun n => toSigned ix.bits ((srcCell sXfer ix 0 [] 0 [n]).code [] ix.bits)) = 0 ∧ badIndexes (wrd 0 1) [64] ≠ 0 ∧
    tongsIdle sXfer 0 0xF ∧ flagCheck sXfer 0 (wrd 0 2) (some ⟨0, 4⟩) = .pass :=
  ⟨xferReady_of (by decide +kernel), by unfold tongsIdle; decide +kernel⟩
/-- Slabs and indexes that are read from a window; tongs that an older transfer holds. -/
theorem hyp_GathersAndScatters_far : let ix : Desc := { vec 2 2 0 3 0 64 with signed := true, part := 5 }
    (∃ es, XferReady sXfer at0 0xF job0 (wrd 3 0) (wrd 0 2) [{ vec 2 2 0 0 3 64 with signed := true }] [] es) ∧
    (∃ es, XferReady sXfer at0 0xF job0 (wrd 0 1) (wrd 0 2) [ix] [] es) ∧ 0 < ix.elems :=
  ⟨xferReady_of (by decide +kernel), xferReady_of (by decide +kernel), by decide⟩
/-- An owner table of one block of 64 words, at part 5. -/
def ownBytes : List Byte :=
  let h := leBytes 2 0xC70E ++ [1, 0x0A] ++ List.replicate 8 0 ++ leBytes 4 1 ++ leBytes 4 64 ++ List.replicate 16 0 ++ leBytes 4 64 ++ List.replicate 20 0
  let e := leBytes 2 5 ++ List.replicate 14 0
  h ++ leBytes 4 (crc32c (h ++ e)).toNat ++ e
set_option maxRecDepth 100000 in
theorem hyp_DigestsAndOwnerTables : let s := updDie 0 (fun d => { d with handles := tblSet d.handles 3 { Handle.zero with base := 600, rows := 1, valid := true }
                                                                         scratch := memAt 172800 ownBytes }) sXfer
    let h := ownHead (ownTable s 0 3)
    (storeOf s 0 1).valid = true ∧ ((∀ d, ∀ o ∈ (dieOf s d).ops, o.id < s.nextId) ∧ ∀ r ∈ s.fabric.requests, r.op < s.nextId) ∧ job0.wantHallmark = false ∧
    descOf s 0 1 = some (wrd 0 1) ∧ ownPre s 0 3 (some (wrd 0 1)) = .pass ∧ (handleOf s 0 3).poisoned = false ∧ ownCheck s job0 (ownTable s 0 3) [0] [64] = .pass ∧
    ownLocal (wrd 0 1) h [64] = true ∧ (wrd 0 1).zeroStride = false ∧ (sbAdmit s 0 (tableRange s 0 3 :: xferRanges s 0 [] [wrd 0 1])).isSome = true ∧
    (sbAdmit s 0 (tableRange s 0 3 :: xferRanges s 0 [wrd 0 1] [])).isSome = true ∧ (wrd 0 1).poison s = none ∧ boxPlaces h [0] [64] ≠ [] ∧ (dieOf s 0).ops = [] := by decide +kernel
theorem hyp_OperationsComplete : let s := sOp op0
    let r := sOp { op0 with takes := [(1, 0)] }
    opOf s 0 7 = some op0 ∧ opBlocked s 0 op0 = false ∧ (∀ h, ∀ g ∈ (hostOf s h).groups, g.2.2 ≠ 7) ∧
    opOf r 0 7 = some { op0 with takes := [(1, 0)] } ∧ opBlocked r 0 { op0 with takes := [(1, 0)] } = false ∧ (ringOf r 0 1).head = 0 ∧ (ringOf r 0 1).released = [] ∧
    opOf sExch 0 7 = some opEx ∧ opBlocked sExch 0 opEx = true := by
  refine ⟨by decide +kernel, by decide +kernel, ?_, by decide +kernel, by decide +kernel, by decide +kernel, by decide +kernel, by decide +kernel, by decide +kernel⟩
  intro h; cases h <;> decide +kernel
theorem hyp_OperationsComplete_exchange : let e := { ex0 with got := [(1, [4])] }
    let o := { opEx with exch := some e }
    let s := updDie 0 (fun x => { x with ops := [o] }) (sShr sesE)
    opOf s 0 7 = some o ∧ opBlocked s 0 o = false ∧ sessionOf s e.part e.session = some sesE ∧ peersOf sesE = [1] := by decide +kernel
theorem hyp_OperationsComplete_transfer : let o := { op0 with xfer := some (xf (wrd 4 0) [(64, [1, 2])]) }
    let p := { op0 with fills := [(1, 0)], xfer := some (xf (wrd 2 1) []) }
    opOf (sOp o) 0 7 = some o ∧ opBlocked (sOp o) 0 o = false ∧ jobOf (sOp o) o.job = some job0 ∧ (partOfIx (sOp o) 0).memberSlot = 0 ∧ (sOp o).fabric.requests = [] ∧
    opOf (sOp p) 0 7 = some p ∧ opBlocked (sOp p) 0 p = false ∧ (ringOf (sOp p) 0 1).tail = 0 ∧ (ringOf (sOp p) 0 1).filled = [] := by decide +kernel
theorem hyp_FlagsAndWaits_second : let s := updQueue 0 0 (fun q => { q with jobs := [1, 2] }) sJob
    s.reissue = none ∧ (queueOf s 0 0).jobs = 1 :: 2 :: [] ∧ ({ at0 with next := true } : Site).next = true := by decide +kernel
theorem hyp_FlagsAndWaits_window : descOf sXfer 0 5 = some (wrd 3 0) ∧ (wrd 3 0).recheck sXfer = .pass ∧ (wrd 3 0).space = 3 ∧
    windowCheck sXfer job0 (wrd 3 0) = .pass ∧ runningJob sXfer 0 0 = some job0 := by decide +kernel
theorem hyp_FlagsAndWaits : Ready sJob at0 job0 ∧ (∀ q, (queueOf sJob 0 q).hold = none) ∧ flagSetP sJob 0 5 = false ∧
    flagSetP (updDie 0 (fun x => { x with flags := [5] }) sJob) 0 5 = true := ⟨test_ready, by decide +kernel, by decide +kernel, by decide +kernel⟩
theorem hyp_FlagsAndWaits_limits : let h : Held := { held0 with age := 2, instr := .waitFlag at0 5, wait := .flag 5 }
    let s := { sJob with held := [h] }
    heldFront s 0 0 = some h ∧ jobOf s h.job = some job0 ∧ timedWait h.wait = true ∧ awaited s 0 0 = some 5 ∧ deadlocked s 0 [0] = true ∧
    deadlocked s 0 (allQueues.filter ([] : List QueueIx).contains) = false := by decide +kernel
theorem hyp_PageFaultsAndAnswers : let x := xf (wrd 0 1) []
    let o := { op0 with xfer := some x }
    let s := { sOp o with hostA := { (sOp o).hostA with ats := [0], pri := [0] } }
    let r := { sOp o with hostA := { (sOp o).hostA with ats := [0], pri := [], groups := [(3, 0, 7)] } }
    opOf s 0 7 = some o ∧ jobOf s o.job = some job0 ∧ x.stalled = false ∧ (hostOf s .a).ats.contains 0 = true ∧ (hostOf s .a).priFailed.contains 0 = false ∧
    (hostOf s .a).pri.contains 0 = true ∧ (hostOf s .a).groups.length < 32 ∧ opOf r 0 7 = some o ∧ (hostOf r .a).pri.contains 0 = false ∧
    groupOf r .a 3 = some (3, 0, 7) := by decide +kernel
def pkt (type : Nat) : Packet := { packetZero with ptype := type, srcPart := 5, rtag := 30, wgen := 0x503, data := if type = 3 then [1, 2, 3, 4] else [] }
def farXfer : Xfer := { xf (wrd 0 1) [] with srcSpace := 3, plans := [{ cells := [(0, .far 0 0)], pads := [], scales := [] }], host := none, pieces := [⟨5, 0, 0⟩] }
def sFar (type : Nat) (rs : List Request) : State :=
  { sOp { op0 with xfer := some farXfer } with fabric := { Fabric.zero with arrived := [(2, pkt type)], requests := rs } }
def reqTo (k : ReqKind) : Request := { tag := 30, die := 0, op := 7, dstPart := 5, kind := k, piece := 0, off := 0, len := 4 }
/-- What each of the three answers finds: no request, and the request that it names. -/
def finds (k : Nat) (rs : List Request) (f : State → Bool) : Bool :=
  match takeArrived (fun x => x.2.ptype == k) (sFar k rs) with
  | some (x, v) => decide (x = (2, pkt k)) && f v
  | none => false
theorem finds_arrived {k : Nat} {rs : List Request} {f : State → Bool} (h : finds k rs f = true) :
    ∃ v, takeArrived (fun x => x.2.ptype == k) (sFar k rs) = some ((2, pkt k), v) ∧ f v = true := by
  unfold finds at h
  split at h
  · rename_i y v hx
    simp only [Bool.and_eq_true, decide_eq_true_eq] at h
    exact ⟨v, by rw [hx, h.1], h.2⟩
  · exact absurd h (by simp)
theorem hyp_PageFaultsAndAnswers_answers :
    (∀ k ∈ [3, 4, 5], finds k [] (fun v => decide (requestOf v (pkt k) = none)) = true) ∧
    (∀ k ∈ [4, 5], finds k [reqTo .write] (fun v => decide (requestOf v (pkt k) = some (reqTo .write))) = true) ∧
    finds 3 [reqTo .read] (fun v => decide (requestOf v (pkt 3) = some (reqTo .read) ∧ reqsOf (dropRequest (reqTo .read) v) 0 7 .read = [])) = true ∧
    (pkt 3).data.length = 4 ∧ opOf (sFar 3 [reqTo .read]) 0 7 = some { op0 with xfer := some farXfer } ∧ jobOf (sFar 3 [reqTo .read]) 1 = some job0 := by
  decide +kernel


/-! ### Packets, programs, key sets -/

theorem mems_of {s : State} (h : ∀ d : DieIx, (Memory.wf (dieOf s d).scratch = true ∧ Memory.wf (dieOf s d).store = true ∧
    ((dieOf s d).bufs.all fun m => Memory.wf m) = true ∧ ((dieOf s d).tiles.all fun e => Memory.wf e.2) = true ∧ ((dieOf s d).cache.all fun e => Memory.wf e.2) = true) ∧
    ∀ q : QueueIx, Memory.wf (dieOf s d).queues[q.val].window = true) (k : (s.boot.staging.all fun m => Memory.wf m) = true) : memsOk s :=
  ⟨fun d => let x := h d
    ⟨x.1.1, x.1.2.1, List.all_eq_true.1 x.1.2.2.1, List.all_eq_true.1 x.1.2.2.2.1, List.all_eq_true.1 x.1.2.2.2.2, x.2⟩, List.all_eq_true.1 k⟩
theorem test_mems : memsOk sPart := mems_of (by decide +kernel) (by decide +kernel)
/-- A program with one patch place of 8 bits. -/
def prog1 : Program := { prog0 with image := List.replicate 16 0, patches := [(7, 0, 8, 0, 0)] }
def patchPacket : List Byte := packet 2 1 ([0, 1, 0, 0, 0, 0, 0, 0, 7, 0, 0, 0, 0, 0, 0, 0] ++ leBytes 8 200)
theorem hyp_ProgramImages_patch : let s := updPart 0 (fun p => { p with programs := [(0, prog1)] }) (sLine [patchPacket])
    let h := updPart 0 (fun p => { p with programs := [(0, { prog1 with patchPending := some (0, 0) })] }) (sHold (.patch 0) patchPacket)
    headPacket s 0 0 2 = some patchPacket ∧ bodyOk patchPacket = true ∧ patchFits prog1 (patchRecords patchPacket) = true ∧ patchFits prog0 (patchRecords patchPacket) = false ∧
    tblGet (partOfIx s 0).programs (fieldAt patchPacket 0x10 1) = some prog1 ∧ holdPacket h 0 0 = some (.patch 0, patchPacket) ∧ slotInUse h 0 0 = false ∧
    slotInUse { h with jobs := [job0] } 0 0 = true ∧
    (partOfIx s 0).memberSlot = 0 ∧ (tblGet (partOfIx h 0).programs 0).map (·.patchPending.isSome) = some true := by decide +kernel
theorem ready_hold : RecordReady (sHold (.patch 0) patchPacket) 0 0 0 := record_of (by decide +kernel)
def jobPacket : List Byte := packet 4 1 [0, 0, 0, 0]
theorem hyp_PacketsOfAQueue_job : let s := sLine [jobPacket]
    (dieOf s 0).owner = some 0 ∧ bodyOk jobPacket = true ∧ headPacket s 0 0 4 = some jobPacket ∧ (partOfIx s 0).role ≠ .standby ∧
    tblGet (partOfIx s 0).programs (fieldAt jobPacket 0x10 1) = some prog0 ∧ fieldAt jobPacket 0x11 1 < prog0.entryCount ∧
    (prog0.roleEntry (fieldAt jobPacket 0x11 1) 0).isSome = true ∧ ({ prog0 with dieMap := [1, 0] } : Program).dieMap.head? ≠ some 0 ∧
    (partOfIx (updPart 0 (fun p => { p with role := .standby }) s) 0).role = .standby ∧ tblGet (partOfIx s 0).programs 1 = none ∧ prog0.dieMap.head? = some 0 ∧ prog0.dieMap.Nodup ∧ prog0.entryCount ≤ fieldAt (packet 4 1 [0, 1]) 0x11 1 := by
  decide +kernel
theorem ready_line : RecordReady (sLine []) 0 0 0 :=
  record_of (by decide +kernel)
def fencePacket : List Byte := packet 5 1 [1, 0, 1, 0, 0, 0, 5, 0]
def blockPacket : List Byte := packet 8 1 [5, 0, 1, 0, 9, 0, 0, 0]
theorem hyp_PacketsOfAQueue : headPacket (sLine [packet 6 1 []]) 0 0 6 = some (packet 6 1 []) ∧ bodyOk (packet 6 1 []) = true ∧ (queueOf (sLine [packet 6 1 []]) 0 0).jobs = [] ∧
    headPacket (sLine [fencePacket]) 0 0 5 = some fencePacket ∧ bodyOk fencePacket = true ∧ (∀ e ∈ maskDies (fieldAt fencePacket 0x12 2), (dieOf sPart e).owner = some 0) ∧
    (dieOf sPart 1).owner ≠ some 0 ∧
    holdPacket (sHold (.fence [(0, 7)] [] false none) fencePacket) 0 0 = some (.fence [(0, 7)] [] false none, fencePacket) ∧
    [((0 : DieIx), 7)].all (fenceDone (sHold (.fence [(0, 7)] [] false none) fencePacket) false) = true ∧
    headPacket (sLine [blockPacket]) 0 0 8 = some blockPacket ∧ bodyOk blockPacket = true ∧ flagSetP (sLine [blockPacket]) 0 5 = false ∧
    holdPacket (sHold (.block 5 true false) blockPacket) 0 0 = some (.block 5 true false, blockPacket) ∧ fieldAt blockPacket 0x14 4 ≠ 0 ∧ pktType blockPacket ≠ 0 := by
  decide +kernel
theorem hyp_PacketsOfAQueue_cancel : let c := packet 7 1 [1]
    queueOpen (sLine [jobPacket, c]) 0 0 = true ∧ bodyOk c = true ∧
    findCancel [] (queueOf (sLine [jobPacket, c]) 0 0).line = some ([.packet 1 1 jobPacket none], c, []) ∧ cancelJobs (sLine [jobPacket, c]) 0 0 0 1 0 = [] ∧
    fieldAt c 0x10 1 = 1 ∧ [LineItem.packet 1 1 jobPacket none].filter (cancelsItem 1 0) = [.packet 1 1 jobPacket none] := by decide +kernel
/-- An envelope for partition 0 under import key 9, with P-384's base point, for a bundle of one row. -/
def envelope : List Byte :=
  let b := leBytes 2 0xC7E1 ++ [1, 1, 0, 0, 0, 0] ++ leBytes 8 77 ++ leBytes 8 9 ++ leBytes 8 288 ++ List.replicate 32 0 ++ leBytes 48 p384.gx ++ leBytes 48 p384.gy ++
    List.replicate 92 0
  b ++ leBytes 4 (crc32c b).toNat
def sKey : State := updPart 0 (fun p => { p with importKey := some ⟨9, 3, 0, 0⟩ }) (sLine [packet 3 1 ([2, 0, 1, 0, 0, 0, 0, 0] ++ leBytes 8 0 ++ leBytes 8 576)])
set_option maxRecDepth 100000 in
theorem hyp_KeySetImport_bind : let b := packet 3 1 ([2, 0, 1, 0, 0, 0, 0, 0] ++ leBytes 8 0 ++ leBytes 8 576)
    headPacket sKey 0 0 3 = some b ∧ bodyOk b = true ∧ (partOfIx sKey 0).role ≠ .standby ∧ headStaged sKey 0 0 = none ∧
    256 ≤ fieldAt b 0x20 8 ∧ bytesAt envelope 0 256 = envelope ∧ (bindChecks sKey 0 envelope 2 1 matches .ok [(0, 0, 1, 0)]) = true ∧
    (bindChecks sKey 0 [] 2 1 matches .error 1) = true := by decide +kernel
theorem test_memsKey : memsOk sKey := mems_of (by decide +kernel) (by decide +kernel)
/-- An import whose session key is lost, in its first segment. -/
def imp0 : Import :=
  { slot := 2, die := 0, queue := 0, tag := 77, homeMask := 1, length := 288, refetch := false, envelope := [], sessionKey := none, nextSeg := 0, plain := [], placed := [(0, 0)]
    confirm := false, mirror := false, staged := none }
/-- A bundle of one key on one digit at level 0 of N = 4,096: header row and key table; `n` body rows are promised, the first 128 of the key. -/
def bundleTop (n : Nat) : List Byte :=
  let c := leBytes 2 0xC7C0 ++ [2, 1, 2, 0, 0, 0] ++ List.replicate 16 0 ++ [0, 1] ++ List.replicate 58 0xFF ++ [2] ++ List.replicate 15 0xFF ++ List.replicate 24 0
  let h := leBytes 2 0xC7B1 ++ [1, 1, 12, 0, 1, 0] ++ leBytes 8 77 ++ List.replicate 40 0 ++ leBytes 4 n ++ List.replicate 68 0 ++ c ++ leBytes 4 (crc32c c).toNat ++ List.replicate 28 0
  h ++ leBytes 4 (crc32c h).toNat ++ ([0, 0, 0, 0, 1, 0, 1, 0] ++ List.replicate 12 0 ++ leBytes 4 128 ++ List.replicate 8 0) ++ List.replicate 256 0
/-- Its first bytes, all residues zero. -/
def bundleOf0 (n k : Nat) : List Byte := bundleTop n ++ List.replicate k 0
theorem bundleTop_length (n : Nat) : (bundleTop n).length = 576 := by
  simp only [bundleTop, List.length_append, leBytes_length, List.length_replicate, List.length_cons, List.length_nil]
theorem bytesAt_zeros (h : List Byte) (k o n : Nat) (ho : h.length ≤ o) : bytesAt (h ++ List.replicate k 0) o n = List.replicate n 0 := by
  simp only [bytesAt, List.drop_append, List.drop_eq_nil_of_le ho, List.nil_append, List.drop_replicate, List.take_replicate, List.length_replicate,
    List.replicate_append_replicate]
  congr 1; omega
theorem bundle_ok {n : Nat} (k : Nat) (h : bundleHeadOk (bundleTop n) 77 (288 * (2 + n)) = true ∧ bundleTableOk (bundleTop n) = true ∧
    (regChain (bundleChain (bundleTop n)).raw []).isNone = false ∧ bundleLayoutOk (bundleTop n) (bundleChain (bundleTop n)) = true ∧
    bundleEntries (bundleTop n) = [⟨0, 1, 0, 1, 0, 0, 128⟩] ∧ bundleBody (bundleTop n) = 2 ∧ bundleLogN (bundleTop n) = 12 ∧ bundleKeys (bundleTop n) = 1 ∧
    (bundleChain (bundleTop n)).qList = [0, 1] ∧ (bundleChain (bundleTop n)).pList = [2] ∧ (bundleChain (bundleTop n)).pCount = 1) :
    bundleFails (bundleOf0 n k) fz.primes 77 (288 * (2 + n)) [] true = none := by
  obtain ⟨h1, h2, h3, h4, h5, h6, h7, h8, h9, h10, h11⟩ := h
  have L := bundleTop_length n
  have fl (o m : Nat) (g : o + m ≤ 576) : fieldAt (bundleOf0 n k) o m = fieldAt (bundleTop n) o m := fieldAt_left _ (by rw [L]; exact g)
  have bl (o m : Nat) (g : o + m ≤ 576) : bytesAt (bundleOf0 n k) o m = bytesAt (bundleTop n) o m := bytesAt_left _ (by rw [L]; exact g)
  have kl : bundleKeys (bundleOf0 n k) = bundleKeys (bundleTop n) := fl _ _ (by decide)
  have nl : bundleLogN (bundleOf0 n k) = bundleLogN (bundleTop n) := by simp only [bundleLogN, fl 4 1 (by decide)]
  have rl : bundleRows (bundleOf0 n k) = bundleRows (bundleTop n) := fl _ _ (by decide)
  have ol : bundleBody (bundleOf0 n k) = bundleBody (bundleTop n) := by simp only [bundleBody, kl]
  have xl (e : Nat) (g : e < 1) : keyEntryBytes (bundleOf0 n k) e = keyEntryBytes (bundleTop n) e := bl _ _ (by simp only [rowBytes]; omega)
  have el : bundleEntries (bundleOf0 n k) = bundleEntries (bundleTop n) := by
    simp only [bundleEntries, kl, h8]
    exact List.map_congr_left fun e g => by rw [xl e (by simpa using g)]
  have cl : bundleChain (bundleOf0 n k) = bundleChain (bundleTop n) := by simp only [bundleChain, bl 0x80 128 (by decide)]
  have a1 : bundleHeadOk (bundleOf0 n k) 77 (288 * (2 + n)) = true := by
    have z : bundleHeadOk (bundleOf0 n k) 77 (288 * (2 + n)) = bundleHeadOk (bundleTop n) 77 (288 * (2 + n)) := by
      have w : (288 * 2 ≤ (bundleOf0 n k).length) = (288 * 2 ≤ (bundleTop n).length) := by simp [bundleOf0, L]
      simp only [bundleHeadOk, zeroRange, nl, kl, rl, ol, h6, rowBytes, w]
      simp (disch := decide) only [fl, bl]
    rw [z]; exact h1
  have a2 : bundleTableOk (bundleOf0 n k) = true := by
    have z : bundleTableOk (bundleOf0 n k) = bundleTableOk (bundleTop n) := by
      simp only [bundleTableOk, zeroRange, nl, kl, el, ol, h6, h8, rowBytes, List.range_one, List.all_cons, List.all_nil, xl 0 (by decide)]
      simp (disch := decide) only [bl]
    rw [z]; exact h2
  have a4 : bundleLayoutOk (bundleOf0 n k) (bundleChain (bundleTop n)) = true := by
    simpa only [bundleLayoutOk, el, nl, rl] using h4
  unfold bundleFails
  simp only [cl, a1, a2, a4, h3, ol, el, Bool.not_true, Bool.or_self, Bool.false_eq_true, if_false, List.findSome?_eq_none_iff, h5, h6]
  intro r _
  have row : bytesAt (bundleOf0 n k) (rowBytes * (2 + r)) rowBytes = List.replicate 288 0 := bytesAt_zeros _ _ _ _ (by rw [L]; simp only [rowBytes]; omega)
  simp only [bodyRowFails, ol, nl, h6, h7, h9, h10, h11, row]
  have u : unpackPairs (List.replicate 288 (0 : Byte)) = List.replicate 64 0 := by decide +kernel
  have p : ∀ i ∈ [0, 1, 2], 0 < primeAt fz.primes i := by decide +kernel
  have w (q : Nat) (hq : 0 < q) : (List.replicate 64 0).all (fun v => decide (v < q)) = true :=
    List.all_eq_true.2 fun v hv => by rw [List.eq_of_mem_replicate hv]; exact decide_eq_true hq
  rw [u]
  by_cases g : r < 128
  · have q : r / 64 = 0 ∨ r / 64 = 1 := by omega
    have f : [({ index := 0, kind := 1, topLevel := 0, digits := 1, galois := 0, rowOffset := 0, rowCount := 128 } : KeyEntry)].find? (fun k =>
        decide (k.rowOffset ≤ r ∧ r < k.rowOffset + k.rowCount)) = some ⟨0, 1, 0, 1, 0, 0, 128⟩ := by
      rw [List.find?_cons_of_pos]; simpa using g
    simp only [f]
    rcases q with q | q <;> rw [show (r - 0) / (2 ^ 12 / 64) = r / 64 from rfl, q] <;> exact if_pos (w _ (p _ (by decide)))
  · have z : allZero (List.replicate 288 0) = true := by decide +kernel
    have f : [({ index := 0, kind := 1, topLevel := 0, digits := 1, galois := 0, rowOffset := 0, rowCount := 128 } : KeyEntry)].find? (fun k =>
        decide (k.rowOffset ≤ r ∧ r < k.rowOffset + k.rowCount)) = none := by
      rw [List.find?_cons_of_neg]; rfl; simpa using g
    simp only [f, z, if_true]
set_option maxRecDepth 100000 in
/-- What `bundle_ok` asks, of a bundle in one segment and of one in two. -/
theorem bundle_tops : ∀ n ∈ [128, 20000], bundleHeadOk (bundleTop n) 77 (288 * (2 + n)) = true ∧ bundleTableOk (bundleTop n) = true ∧
    (regChain (bundleChain (bundleTop n)).raw []).isNone = false ∧ bundleLayoutOk (bundleTop n) (bundleChain (bundleTop n)) = true ∧
    bundleEntries (bundleTop n) = [⟨0, 1, 0, 1, 0, 0, 128⟩] ∧ bundleBody (bundleTop n) = 2 ∧ bundleLogN (bundleTop n) = 12 ∧ bundleKeys (bundleTop n) = 1 ∧
    (bundleChain (bundleTop n)).qList = [0, 1] ∧ (bundleChain (bundleTop n)).pList = [2] ∧ (bundleChain (bundleTop n)).pCount = 1 := by decide +kernel
/-! A session key of zeros seals what it opens. -/

theorem aes_length (b : List Byte) : (aesBlock (aesKeys (List.replicate 32 0)) b).length = 16 := by
  have h : ((aesKeys (List.replicate 32 0)).getD 14 []).length = 16 := by decide +kernel
  unfold aesBlock shiftRows
  simp only [List.length_zipWith, List.length_map, List.length_range, h]
  rfl
/-- A keystream of blocks of 16 bytes from block `i` on, applied to a message. -/
def streamed (K : Nat → List Byte) (f i : Nat) (m : List Byte) : List Byte :=
  ((chunksGo 16 f m).zipIdx i).flatMap fun x => List.zipWith (· ^^^ ·) x.1 (K x.2)
theorem zip_twice (a k : List Byte) (h : a.length ≤ k.length) : List.zipWith (· ^^^ ·) (List.zipWith (· ^^^ ·) a k) k = a := by
  induction a generalizing k with
  | nil => rfl
  | cons x a ih =>
    cases k with
    | nil => simp at h
    | cons y k => simp only [List.zipWith_cons_cons, ih k (by simpa using h), BitVec.xor_assoc, BitVec.xor_self, BitVec.xor_zero]
theorem streamed_nil (K : Nat → List Byte) (f i : Nat) : streamed K f i [] = [] := by cases f <;> rfl
theorem streamed_step (K : Nat → List Byte) (f i : Nat) {m : List Byte} (h : m ≠ []) :
    streamed K (f + 1) i m = List.zipWith (· ^^^ ·) (m.take 16) (K i) ++ streamed K f (i + 1) (m.drop 16) := by
  cases m with
  | nil => exact absurd rfl h
  | cons x m => rfl
theorem streamed_twice {K : Nat → List Byte} (hk : ∀ i, (K i).length = 16) (f : Nat) : ∀ (i : Nat) (m : List Byte), m.length ≤ f →
    (streamed K f i m).length = m.length ∧ streamed K f i (streamed K f i m) = m := by
  induction f with
  | zero => intro i m h; rw [List.eq_nil_of_length_eq_zero (by omega : m.length = 0)]; exact ⟨rfl, rfl⟩
  | succ f ih =>
    intro i m h
    by_cases hm : m = []
    · subst hm; simp [streamed_nil]
    · have hl : 0 < m.length := List.length_pos_iff.2 hm
      obtain ⟨l, e⟩ := ih (i + 1) (m.drop 16) (by simp; omega)
      have ht : (m.take 16).length ≤ (K i).length := by rw [hk, List.length_take]; omega
      have hz : (List.zipWith (· ^^^ ·) (m.take 16) (K i)).length = min 16 m.length := by simp [hk]
      rw [streamed_step K f i hm]
      refine ⟨by rw [List.length_append, hz, l, List.length_drop]; omega, ?_⟩
      rw [streamed_step K f i (by intro h0; have := congrArg List.length h0; rw [List.length_append, hz, List.length_nil] at this; omega)]
      have a1 : (List.zipWith (· ^^^ ·) (m.take 16) (K i) ++ streamed K f (i + 1) (m.drop 16)).take 16 = List.zipWith (· ^^^ ·) (m.take 16) (K i) := by
        rcases Nat.lt_or_ge m.length 16 with g | g
        · rw [List.drop_eq_nil_of_le (by omega), streamed_nil, List.append_nil, List.take_of_length_le (by rw [hz]; omega)]
        · rw [List.take_left' (by rw [hz]; omega)]
      have a2 : (List.zipWith (· ^^^ ·) (m.take 16) (K i) ++ streamed K f (i + 1) (m.drop 16)).drop 16 = streamed K f (i + 1) (m.drop 16) := by
        rcases Nat.lt_or_ge m.length 16 with g | g
        · rw [List.drop_eq_nil_of_le (by omega : m.length ≤ 16), streamed_nil, List.append_nil, List.drop_eq_nil_of_le (by rw [hz]; omega)]
        · rw [List.drop_left' (by rw [hz]; omega)]
      rw [a1, a2, zip_twice _ _ ht, e, List.take_append_drop]
theorem gcm_opens (iv aad m : List Byte) : let c := gcmSeal (List.replicate 32 0) iv aad m
    c.1.length = m.length ∧ c.2.length = 16 ∧ gcmOpen (List.replicate 32 0) iv aad c.1 c.2 = some m := by
  have k := streamed_twice (K := fun i => aesBlock (aesKeys (List.replicate 32 0)) (iv ++ beBytes 4 (2 + i))) (fun i => aes_length _) (m.length + 1) 0 m (by omega)
  have g : ∀ x : List Byte, gctr (aesKeys (List.replicate 32 0)) iv 2 x =
      streamed (fun i => aesBlock (aesKeys (List.replicate 32 0)) (iv ++ beBytes 4 (2 + i))) (x.length + 1) 0 x := fun _ => rfl
  refine ⟨?_, ?_, ?_⟩
  · simp only [gcmSeal, g]; exact k.1
  · simp only [gcmSeal, gcmTag, List.length_zipWith, beBytes_length, aes_length, Nat.min_self]
  · simp only [gcmSeal, gcmOpen, if_true, g]
    rw [k.1, k.2]
/-- An import of a bundle of `n` body rows, in its first segment. -/
def impOf (n : Nat) : Import := { imp0 with length := 288 * (2 + n), sessionKey := some (List.replicate 32 0) }
def bindOf (n : Nat) : List Byte := packet 3 1 ([2, 0, 1, 0, 0, 0, 0, 0] ++ leBytes 8 0 ++ leBytes 8 (256 + 288 * (2 + n) + 16 * (if n < 14000 then 1 else 2)))
def sImp (n : Nat) : State := updPart 0 (fun p => { p with imports := [impOf n] }) (sHold (.import 2) (bindOf n))
theorem segment_opens (n w : Nat) (hw : 256 + segLen (impOf n) + 16 ≤ w ∧ ((impOf n).length ≤ segLen (impOf n) → w = 256 + segLen (impOf n) + 16))
    (m : List Byte) (hm : m.length = segLen (impOf n)) : ∃ bytes, openSegment (impOf n) w (segBytes (sImp n) (impOf n) bytes) = some m := by
  let c := gcmSeal (List.replicate 32 0) (segIv 0 (decide ((impOf n).length ≤ segLen (impOf n)))) [] m
  obtain ⟨h1, h2, h3⟩ : c.1.length = m.length ∧ c.2.length = 16 ∧ gcmOpen (List.replicate 32 0) (segIv 0 (decide ((impOf n).length ≤ segLen (impOf n)))) [] c.1 c.2 = some m :=
    gcm_opens _ _ _
  have z : segOff (impOf n) = 0 := Nat.zero_mul _
  have p : bytesAt (c.1 ++ c.2) 0 (segLen (impOf n)) = c.1 := by rw [bytesAt_left c.2 (by omega), ← hm, ← h1]; exact bytesAt_all _
  have q : bytesAt (c.1 ++ c.2) (segLen (impOf n)) 16 = c.2 := by rw [← hm, ← h1, ← h2]; exact bytesAt_right _ _
  refine ⟨c.1 ++ c.2, ?_⟩
  have k : openSegment (impOf n) w (segBytes (sImp n) (impOf n) (c.1 ++ c.2)) =
      if (w < 256 + 0 * (segSize + 16) + segLen (impOf n) + 16 || (decide ((impOf n).length ≤ segOff (impOf n) + segLen (impOf n)) &&
        w != 256 + 0 * (segSize + 16) + segLen (impOf n) + 16)) = true then none
      else gcmOpen (List.replicate 32 0) (segIv 0 (decide ((impOf n).length ≤ segOff (impOf n) + segLen (impOf n)))) [] (bytesAt (c.1 ++ c.2) 0 (segLen (impOf n)))
        (bytesAt (c.1 ++ c.2) (segLen (impOf n)) 16) := rfl
  rw [k, z, p, q, Nat.zero_add, h3, Nat.zero_mul, Nat.add_zero, if_neg]
  simp only [Bool.or_eq_true, decide_eq_true_eq, Bool.and_eq_true, bne_iff_ne, ne_eq, not_or, not_and, Decidable.not_not]
  exact ⟨by omega, hw.2⟩
theorem bundle_same (n k : Nat) (h1 : bundleKeys (bundleTop n) = 1) : bundleEntries (bundleOf0 n k) = bundleEntries (bundleTop n) ∧
    bundleBody (bundleOf0 n k) = bundleBody (bundleTop n) ∧ bytesAt (bundleOf0 n k) 0x80 128 = bytesAt (bundleTop n) 0x80 128 := by
  have L := bundleTop_length n
  have kl : bundleKeys (bundleOf0 n k) = bundleKeys (bundleTop n) := fieldAt_left _ (by rw [L]; decide)
  refine ⟨?_, by simp only [bundleBody, kl], bytesAt_left _ (by rw [L]; decide)⟩
  simp only [bundleEntries, kl, h1]
  refine List.map_congr_left fun e g => ?_
  have g : e < 1 := by simpa using g
  exact congrArg keyEntryOf (bytesAt_left _ (by rw [L]; simp only [rowBytes]; omega))
set_option maxRecDepth 100000 in
theorem import_held : ∀ n ∈ [128, 20000], (importOf (sImp n) 0 2 = some (impOf n) ∧ (impOf n).confirm = false ∧ (impOf n).mirror = false ∧
      holdPacket (sImp n) 0 0 = some (.import 2, bindOf n) ∧ (dieOf (sImp n) (impOf n).die).owner = some 0) ∧
    (256 + segLen (impOf n) + 16 ≤ fieldAt (bindOf n) 0x20 8 ∧ (impOf n).length ≤ segLen (impOf n) → fieldAt (bindOf n) 0x20 8 = 256 + segLen (impOf n) + 16) ∧
    256 + segLen (impOf n) + 16 ≤ fieldAt (bindOf n) 0x20 8 ∧
    ((dieOf (sImp n) 0).owner = some 0 ∧ (queueOf (sImp n) 0 0).enabled = true ∧ (queueOf (sImp n) 0 0).heldCpl = [] ∧ ringFull (queueOf (sImp n) 0 0) = false ∧
      (partOfIx (sImp n) 0).memberSlot = 0 ∧ (hostOf (sImp n) (partOfIx (sImp n) 0).ownerPort).linkUp = true) ∧
    ((impOf n).length ≤ segOff (impOf n) + segLen (impOf n) ↔ n = 128) ∧ 576 ≤ segLen (impOf n) := by decide +kernel
theorem import_mems : ∀ n ∈ [128, 20000], (∀ d : DieIx, (Memory.wf (dieOf (sImp n) d).scratch = true ∧ Memory.wf (dieOf (sImp n) d).store = true ∧
      ((dieOf (sImp n) d).bufs.all fun m => Memory.wf m) = true ∧ ((dieOf (sImp n) d).tiles.all fun e => Memory.wf e.2) = true ∧
      ((dieOf (sImp n) d).cache.all fun e => Memory.wf e.2) = true) ∧ ∀ q : QueueIx, Memory.wf (dieOf (sImp n) d).queues[q.val].window = true) ∧
    ((sImp n).boot.staging.all fun m => Memory.wf m) = true := by decide +kernel
/-- The key's rows first, then the others. -/
def placesOf (n : Nat) : List (Nat × Nat × Nat × Nat) := [(0, 2, 128, 0), (0, 0, 2, 128)] ++ (if n = 128 then [] else [(0, 130, 19872, 130)])
set_option maxRecDepth 100000 in
theorem import_places : ∀ n ∈ [128, 20000], settlePlace (sImp n) 0 (impOf n) (bundleTop n) = some (placesOf n) ∧
    (placesOf n).Pairwise fun x y => dieBits x.1 = dieBits y.1 → x.2.2.2 + x.2.2.1 ≤ y.2.2.2 ∨ y.2.2.2 + y.2.2.1 ≤ x.2.2.2 := by decide +kernel
/-- The first segment opens, its rows pass the checks and have their places; it is the last of a bundle of 130 rows and not of one of 20,002. -/
theorem hyp_KeySetImport_segments : ∀ n ∈ [128, 20000], let s := sImp n
    let im := impOf n
    let m := bundleOf0 n (segLen im - 576)
    (importOf s 0 2 = some im ∧ im.confirm = false ∧ im.mirror = false ∧ holdPacket s 0 0 = some (.import 2, bindOf n) ∧ (dieOf s im.die).owner = some 0) ∧
    (∃ bytes, openSegment im (fieldAt (bindOf n) 0x20 8) (segBytes s im bytes) = some m) ∧ memsOk s ∧ RecordReady s 0 0 0 ∧
    bundleFails (im.plain ++ m) s.fuses.primes im.tag im.length (partOfIx s 0).chains (importAgrees s 0 im (im.plain ++ m)) = none ∧
    (∃ l, settlePlace s 0 im (im.plain ++ m) = some l ∧
      l.Pairwise fun x y => dieBits x.1 = dieBits y.1 → x.2.2.2 + x.2.2.1 ≤ y.2.2.2 ∨ y.2.2.2 + y.2.2.1 ≤ x.2.2.2) ∧
    (regChain (bytesAt (im.plain ++ m) 0x80 128) (partOfIx s 0).chains).isSome = true ∧ (im.length ≤ segOff im + segLen im ↔ n = 128) := by
  intro n hn
  have t := bundle_tops n hn
  have b := bundle_same n (segLen (impOf n) - 576) t.2.2.2.2.2.2.2.1
  obtain ⟨f1, f2, f3, f4, f5, f6⟩ := import_held n hn
  have f7 := import_places n hn
  refine ⟨f1, segment_opens n _ ⟨f3, fun h => f2 ⟨f3, h⟩⟩ _ ?_, mems_of (import_mems n hn).1 (import_mems n hn).2, record_of f4, bundle_ok _ t, ?_, ?_, f5⟩
  · simp only [bundleOf0, List.length_append, bundleTop_length, List.length_replicate]; omega
  · have p : settlePlace (sImp n) 0 (impOf n) (bundleOf0 n (segLen (impOf n) - 576)) = settlePlace (sImp n) 0 (impOf n) (bundleTop n) := by
      have k : (impOf n).nextSeg = 0 := rfl
      simp only [settlePlace, k, if_true, placeHomes, b.1, b.2.1]
    exact ⟨_, p.trans f7.1, f7.2⟩
  · have w : (regChain (bytesAt (bundleTop n) 0x80 128) []).isNone = false := t.2.2.1
    have c : (partOfIx (sImp n) 0).chains = [] := rfl
    rw [show (impOf n).plain = [] from rfl, List.nil_append, b.2.2, c, Option.isSome_iff_ne_none]
    intro h; rw [h] at w; exact absurd w (by decide)
theorem hyp_KeySetImport_segment : let b := packet 3 1 ([2, 0, 1, 0, 0, 0, 0, 0] ++ leBytes 8 0 ++ leBytes 8 576)
    let s := updPart 0 (fun p => { p with imports := [imp0] }) (sHold (.import 2) b)
    importOf s 0 2 = some imp0 ∧ holdPacket s 0 0 = some (.import 2, b) ∧ (dieOf s imp0.die).owner = some 0 ∧ openSegment imp0 (fieldAt b 0x20 8) (segBytes s imp0 []) = none := by
  decide +kernel
/-- A segment that authenticates: the empty one after the last, under AES-256-GCM's tag of nothing; its bundle fails check 10. -/
theorem hyp_KeySetImport_opened :
    let im := { imp0 with sessionKey := some (List.replicate 32 0), nextSeg := 1 }
    openSegment im (256 + 4194304 + 16 + 16) (gcmSeal (List.replicate 32 0) (segIv 1 true) [] []).2 = some [] ∧
    bundleFails [] fz.primes im.tag im.length [] true = some 8 := by decide +kernel

/-! ### Windows, collectives, epochs, links -/

/-- Window 4 of partition 0 on handle 1, generation 1, open to every part. -/
def win0 : Window := { Window.zero with opened := true, write := true, read := true, any := true, handle := 1, gen := 1, length := 4096 }
def sWin (w : Window) (ps : List Packet) : State :=
  { sXfer with fabric := { sXfer.fabric with windows := [(4, w)], arrived := ps.map fun p => (2, p) } }
def wpkt (type : Nat) : Packet :=
  { packetZero with ptype := type, srcPart := 5, window := 4, wgen := 1, length := 4, offset := if type = 6 then 256 else 0, fpkey := (partOfIx sXfer 0).fabricKey, data := if type = 1 then [1, 2, 3, 4] else [] }
theorem hyp_RemoteWindows : Ready sXfer at0 job0 ∧ scalarBusy sXfer 0 [3] = false ∧ winOpenOk sXfer 0 4 1 0 4096 ⟨true, true, false, true, 0⟩ = true ∧
    closable (sWin win0 []) 4 0 = true ∧ memsOk sXfer :=
  ⟨ready_of (by decide +kernel), by decide +kernel, by decide +kernel, by decide +kernel, mems_of (by decide +kernel) (by decide +kernel)⟩
theorem hyp_RemoteWindows_close : let w := { win0 with closing := true, closeOp := some (0, 7) }
    let o := { op0 with scalars := [3] }
    let s := updDie 0 (fun x => { x with ops := [o] }) (sWin w [])
    (windowOf s 4).opened = true ∧ (windowOf s 4).closing = true ∧ (windowOf s 4).admitted = 0 ∧ opOf s 0 7 = some o := by decide +kernel
theorem hyp_RemoteWindows_access : (∀ k ∈ [1, 2, 6], (takeArrived (fun x => x.2.ptype == k) (sWin win0 [wpkt k])).map (·.1) = some (2, wpkt k) ∧
      windowRefuses (sWin win0 [wpkt k]) (wpkt k) false = none ∧ windowRefuses (sWin { win0 with gen := 2 } [wpkt k]) (wpkt k) false = some 0x0502) ∧
    windowRefuses (sWin { win0 with closing := true, admitted := 1 } [wpkt 1]) (wpkt 1) true = none ∧ windowPoisoned (sWin win0 []) win0 = false := by decide +kernel
/-- A window on a stack handle; a window whose handle is poisoned; a BLOCK that awaits the flag. -/
theorem hyp_RemoteWindows_kinds : let w := { win0 with store := true }
    windowRefuses (sWin w [wpkt 1]) (wpkt 1) false = none ∧ windowRefuses (sWin w [wpkt 2]) (wpkt 2) false = none ∧
    (let s := updDie 0 (fun x => { x with handles := tblSet x.handles 1 { handleOf sXfer 0 1 with poisoned := true } }) (sWin win0 [wpkt 2])
     windowRefuses s (wpkt 2) false = none ∧ windowPoisoned s win0 = true) ∧
    ((windowOf (sWin { win0 with closing := true, admitted := 1 } []) 4).admitted ≠ 0 ∧ (windowOf (sWin win0 []) 4).closing = false ∧ (windowOf (sWin win0 []) 5).opened = false) ∧
    (∀ q, (queueOf (sWin win0 []) 0 q).hold = none) := by decide +kernel
/-- A collective descriptor of two members, parts 0 and 5, on 64 FP32 elements: the operation and the reduction. -/
def collBytes (op red : Nat) : List Byte :=
  let h := leBytes 2 0xC7C5 ++ leBytes 1 (op + 16 * red) ++ [0, 2, 0, 0, 0] ++ leBytes 8 9 ++ [0, 0, 4, 0] ++ leBytes 4 64 ++ List.replicate 36 0
  let m := leBytes 4 0 ++ leBytes 4 5
  h ++ leBytes 4 (crc32c (h ++ m)).toNat ++ m
def fvec (h : Nat) : Desc := vec 1 0 1 0 h 64
def sColl (op red : Nat) : State := let s := sWin win0 []
  updDie 0 (fun x => { x with descs := [(1, fvec 1), (2, fvec 2)], handles := tblSet x.handles 3 { Handle.zero with base := 600, rows := 1, valid := true }
                              scratch := memAt 172800 (collBytes op red) }) s
theorem begins_of {s : State} {op : Nat} {x z : Desc}
    (h : (runningJob s 0 0 = some job0 ∧ queueOpen s 0 0 = true ∧ bnHolds s at0 = false ∧ s.reissue = none ∧ heldFront s 0 0 = none) ∧
      (descOf s 0 1 = some x ∧ descOf s 0 2 = some z ∧ x.recheck s = .pass ∧ z.recheck s = .pass ∧ collEnd x = .pass ∧ collEnd z = .pass ∧ sameKind x z = true ∧
        z.zeroStride = false ∧ x.secret s = false) ∧
      (handleUse s 0 3 = none ∧ (handleOf s 0 3).poisoned = false ∧ collFits s 0 3 = true ∧ collSound s 0 op (collTable s 0 3) = true) ∧
      collMembers s job0 (collHead (collTable s 0 3)) = .pass ∧
      (let h := collHead (collTable s 0 3)
       redType h.red x = true ∧ (x.kind = 0 ∨ (x.elems = (collCounts h).1 ∧ z.elems = (collCounts h).2))) ∧
      collWindow s job0 (collHead (collTable s 0 3)) (elemBytes x x.elems) = .pass ∧ (x.poison s = none ∧ (x.kind = 0 → (objHead s x 0).poisoned = false)) ∧
      (sbAdmit s 0 (handleRange s 0 3 0 (handleOf s 0 3).rows false :: xferRanges s 0 [x] [z])).isSome = true) : ∃ es, CollBegins s at0 op 1 2 3 job0 x z es :=
  let ⟨h1, h2, h3, h4, h5, h6, h7, h8⟩ := h
  ⟨_, ready_of h1, rfl, h2, h3, h4, h5, h6, h7, some_fst h8⟩
/-- The counts of the ends: a scatter leaves one part of two, a gather brings two. -/
def fend (op h : Nat) : Desc := vec 1 0 1 0 h (if op = 2 ∧ h = 2 then 32 else if op = 3 ∧ h = 2 then 128 else 64)
def sCollN (op red : Nat) : State := updDie 0 (fun x => { x with descs := [(1, fend op 1), (2, fend op 2)] }) (sColl op red)
set_option maxRecDepth 100000 in
theorem hyp_CollectiveOperations : (∃ es, CollBegins (sCollN 1 1) at0 1 1 2 3 job0 (fend 1 1) (fend 1 2) es) ∧ (∃ es, CollBegins (sCollN 2 1) at0 2 1 2 3 job0 (fend 2 1) (fend 2 2) es) ∧
    (∃ es, CollBegins (sCollN 3 0) at0 3 1 2 3 job0 (fend 3 1) (fend 3 2) es) ∧ (∃ es, CollBegins (sCollN 4 0) at0 4 1 2 3 job0 (fend 4 1) (fend 4 2) es) :=
  ⟨begins_of (by decide +kernel), begins_of (by decide +kernel), begins_of (by decide +kernel), begins_of (by decide +kernel)⟩
set_option maxRecDepth 100000 in
theorem hyp_CollectiveOperations_barrier : Ready (sColl 5 0) at0 job0 ∧ (handleUse (sColl 5 0) 0 3 = none ∧ (handleOf (sColl 5 0) 0 3).poisoned = false ∧ collFits (sColl 5 0) 0 3 = true ∧
      collSound (sColl 5 0) 0 5 (collTable (sColl 5 0) 0 3) = true ∧ collMembers (sColl 5 0) job0 (collHead (collTable (sColl 5 0) 0 3)) = .pass ∧
      collWindow (sColl 5 0) job0 (collHead (collTable (sColl 5 0) 0 3)) 0 = .pass ∧
      (sbAdmit (sColl 5 0) 0 [handleRange (sColl 5 0) 0 3 0 (handleOf (sColl 5 0) 0 3).rows false]).isSome = true) ∧ memsOk (sColl 5 0) :=
  ⟨ready_of (by decide +kernel), by decide +kernel, mems_of (by decide +kernel) (by decide +kernel)⟩

/-- The collective of `coll0` with FP32 ends and part 5's head and data; part 5's packets. -/
def collA : Coll := { coll0 with members := [0, 5], crc := 7, window := 4, src := some (fvec 1), dst := some (fvec 2), elems := 64 }
def opColl (c : Coll) : Op := { op0 with coll := some c }
def cpkt (type : Nat) (data : List Byte) : Packet :=
  { packetZero with ptype := type, srcPart := 5, rtag := 0x10000, window := 4, offset := if type = 8 then 5 else 0, data := data }
def sCollOp (c : Coll) (ps : List Packet) : State :=
  updDie 0 (fun x => { x with ops := [opColl c], descs := [(1, fvec 1), (2, fvec 2)] }) { sWin win0 ps with nextId := 8 }
theorem hyp_CollectiveOperations_messages : let hello : List Byte := [0, 0, 4, 0] ++ leBytes 4 7
    let other : List Byte := [0, 0, 4, 0] ++ leBytes 4 8
    let abort : List Byte := [1, 4, 5]
    let first (k : Nat) (p : Packet) : Option (PortIx × Packet) := (takeArrived (fun x => x.2.ptype == k && (if k = 8 then (ctrlColl (sCollOp collA [p]) x.2).isSome
      else (dataColl (sCollOp collA [p]) x.2).isSome || !(windowOf (sCollOp collA [p]) x.2.window).opened)) (sCollOp collA [p])).map (·.1)
    (∀ p ∈ [cpkt 8 hello, cpkt 8 other, cpkt 8 abort], first 8 p = some (2, p) ∧ ctrlColl (sCollOp collA [p]) p = some (opColl collA, collA) ∧ senderRank collA p = some 1) ∧
    first 7 (cpkt 7 [1, 2]) = some (2, cpkt 7 [1, 2]) ∧ dataColl (sCollOp collA []) (cpkt 7 [1, 2]) = some (opColl collA, collA) ∧
    opOf (sCollOp collA []) 0 7 = some (opColl collA) ∧ jobOf (sCollOp collA []) 1 = some job0 ∧ (windowOf (sCollOp collA []) 4).store = false ∧ 2 ≤ win0.length ∧
    collA.red ≠ 6 ∧ (∀ y ∈ collA.heads, y.1 ≠ 1) ∧ (windowOf { sCollOp collA [] with fabric := { sXfer.fabric with windows := [(4, { win0 with length := 1 })] } } 4).length < 2 := by
  decide +kernel
theorem hyp_CollectiveOperations_result : let c := { collA with own := List.replicate 256 0, heads := [(1, false, 4, [])], contrib := [(1, List.replicate 256 0)] }
    opOf (sCollOp c []) 0 7 = some (opColl c) ∧ opBlocked (sCollOp c []) 0 (opColl c) = false ∧ collDegraded c = false ∧ c.red ≠ 6 ∧
    (opColl c).xfer = none ∧ (opColl c).exch = none ∧ (opColl c).takes = [] ∧ (sCollOp c []).fabric.benchGroups = [] ∧ (hostOf (sCollOp c []) .a).groups = [] ∧ (hostOf (sCollOp c []) .b).groups = [] ∧
    jobOf (sCollOp c []) 1 = some job0 := by decide +kernel

/-- A routed packet from part 5 and the two entries of its route: here, or out of port 3. -/
def sNet (e : Nat) : State := { sOn with fabric := { sOn.fabric with valid := true, members := [0, 5], routes := [(0, e)] } }
def npkt (epoch : Nat) : Packet := { packetZero with ptype := 1, srcPart := 5, epoch := epoch }
theorem hyp_EpochsAndRouting : (sNet 0).twin.port ≠ (2 : PortIx).val ∧ (portOf (sNet 0) 2).keyState ≠ .keying ∧ (sNet 0).fabric.valid = true ∧ sOn.fabric.valid = false ∧
    routeOf (sNet 0) 0 0 0 = .none ∧ routeOf (sNet 0xC0000000) 0 0 0 = .here ∧ routeOf (sNet 0x80000003) 0 0 0 = .port 3 ∧ (portOf (sNet 0) 3).state ≠ .up ∧
    (portOf (updPort 3 (fun x => { x with state := .up }) (sNet 0)) 3).state = .up ∧ memberHeld (sNet 0) 5 = true ∧ memberHeld (sNet 0) 6 = false ∧
    (npkt 0).epoch ∈ epochsHeld (sNet 0) ∧ (npkt 1).epoch ∉ epochsHeld (sNet 0) ∧ (npkt 1).epoch = ((sNet 0).fabric.epoch + 1) % 2 ^ 16 ∧ (npkt 2).epoch ∉ epochsHeld (sNet 0) := by
  decide +kernel
theorem hyp_EpochsAndRouting_epochs : let s := { sOn with fabric := { Fabric.zero with pendEpoch := 1, switchAt := 1 } }
    let r := { sJob with fabric := { Fabric.zero with retained := some (3, [0]), members := [0, 5], windows := [(4, { win0 with epoch := 3 })] } }
    switchDue s = true ∧ switchDue sOn = false ∧ (∀ j ∈ r.jobs, j.phase = .admitted → j.epoch ≠ 3) ∧ tblGet r.fabric.windows 4 = some { win0 with epoch := 3 } ∧
    (∃ j ∈ sJob.jobs, j.phase = .admitted ∧ j.epoch = 0) ∧ (5 ∈ r.fabric.members ∧ 5 ∉ r.fabric.losses ∧ r.fabric.epoch = 0) ∧
    (portOf (updPort 2 (fun x => { x with holdBuf := [.packet (npkt 1), .exchange msg0 false] }) sOn) 2).holdBuf = .packet (npkt 1) :: [.exchange msg0 false] ∧
    sessionOfTag sExch 0 msg0.tag.toNat = some (5, sesE) ∧ (portOf (updPort 2 (fun x => { x with holdBuf := List.replicate 64 (.packet (npkt 1)) }) sOn) 2).holdBuf.length = 64 ∧
    (let n := { r with fabric := { r.fabric with retained := some (4, [0]) } }
     (∀ w ∈ n.fabric.windows, w.2.opened = true → w.2.epoch ≠ 4 % 2 ^ 16) ∧ sOn.fabric.retained = none) := by decide +kernel
theorem hyp_EpochsAndRouting_lost : let o := { op0 with xfer := some farXfer }
    let s := { sFar 3 [reqTo .read] with fabric := { (sFar 3 [reqTo .read]).fabric with members := [0, 5] } }
    (dieOf s 0).ops = [o] ∧ (∀ e, ∀ y ∈ (dieOf s e).ops, y.id = o.id → e = 0 ∧ y = o) ∧ jobOf s o.job = some job0 ∧ job0.epoch = s.fabric.epoch ∧ losesPart s 5 o = true := by
  decide +kernel

/-- What each of the three clauses on a routed packet's epoch asks of a member's packet here; its port is UP; its hops. -/
theorem hyp_EpochsAndRouting_packets : (npkt 0).ptype = 1 ∧ (npkt 0).hops < 32 ∧ 32 ≤ { npkt 0 with hops := 32 }.hops ∧ ({ npkt 0 with ptype := 10 } : Packet).ptype = 10 ∧
    (portOf (sNet 0xC0000000) 2).holdBuf.length < 64 ∧ (npkt 2).epoch ≠ ((sNet 0).fabric.epoch + 1) % 2 ^ 16 := by decide +kernel
/-- Port 3 as `f` makes it. -/
def sPort (f : Port → Port) : State := updPort 3 f sOn
def flitOf (type seq : Nat) : Flit :=
  let f : Flit := { ftype := type, vc := 0, isSealed := false, reserved := 0, seq := seq, ack := 0, creditVc := 0, credits := 1, body := List.replicate 240 0, crc := 0, fecOk := true }
  { f with crc := flitCrc f }
set_option maxRecDepth 100000 in
theorem hyp_LinkLayer : let p := portOf (sPort fun x => { x with state := .up }) 3
    p.state = .up ∧ sOn.alarm.device = false ∧ ((flitOf 0 0).fecOk = true ∧ (flitOf 0 0).reserved = 0 ∧ (flitOf 0 0).crc = flitCrc (flitOf 0 0)) ∧
    ((flitOf 2 0).crc = flitCrc (flitOf 2 0) ∧ (flitOf 2 0).seq = p.expectSeq ∧ openBody p (flitOf 2 0) = some (List.replicate 240 0)) ∧
    (flitOf 2 1).seq ≠ p.expectSeq ∧ dieActive sOn 3 = true ∧ (portOf sOn 3).state = .down ∧ (portOf sOn 3).enabled = true := by decide +kernel
theorem hyp_LinkLayer_states : let r := portOf (sPort fun x => { x with state := .up, retrying := true, retryLogged := true, replay := [flitOf 2 0] }) 3
    r.state = .up ∧ r.retrying = true ∧ r.retryLogged = true ∧ r.replay = [] ++ flitOf 2 0 :: [] ∧
    (portOf (sPort fun x => { x with state := .training, encEnable := true }) 3).state = .training := by
  exact ⟨rfl, rfl, rfl, rfl, rfl⟩
/-- FLAG and BULK wait: FLAG goes first, or after seven others; BULK has turns left, or a round begins. -/
theorem hyp_LinkLayer_channels : let p := portOf (sPort fun x => { x with state := .up, sendQ := [(2, 2, []), (0, 2, [])], credits := [256, 256, 256, 256], sinceFlag := 0 }) 3
    (canSend p 2 = true ∧ [0, 1, 3].filter (canSend p) = [0] ∧ p.sinceFlag < 7 ∧ (∀ w ∈ [0], p.turns.getD w 0 = 0) ∧ 7 ≤ { p with sinceFlag := 7 }.sinceFlag) ∧
    (canSend { p with sendQ := [(2, 2, [])] } 2 = true ∧ [0, 1, 3].filter (canSend { p with sendQ := [(2, 2, [])] }) = []) ∧
    (canSend { p with sendQ := [] } 2 = false ∧ [0, 1, 3].filter (canSend { p with sendQ := [] }) = []) ∧ 0 < [3, 0, 0, 0].getD 0 0 ∧ p.replay.all (fun f => f.seq != 5) = true ∧
    (portOf sOn 3).enabled = true ∧ (portOf (sPort fun x => { x with enabled := false }) 3).enabled = false ∧ (portOf (sPort fun x => { x with state := .training }) 3).encEnable = false := by
  decide +kernel
theorem hyp_LinkKeys : let p := portOf (sPort fun x => { x with state := .up, keyState := .keying, ephScalar := some 5 }) 3
    let q := portOf (sPort fun x => { x with state := .up, keyState := .on, sealedCount := 2 ^ 48 }) 3
    p.keyState = .keying ∧ (0 = p.record.length ∧ p.record.length + 16 ≤ 17232 ∧ p.record = []) ∧ (1 : Nat) ≠ p.record.length ∧ p.sendKey = none ∧ p.recvKey = none ∧
    q.keyState = .on ∧ 2 ^ 48 ≤ q.sealedCount ∧ (portOf sOn 3).sealedCount < 2 ^ 48 ∧ (portOf sOn 3).keyState ≠ .keying ∧
    p.ephScalar = some 5 ∧ 17232 < p.record.length + 17233 ∧ ({ sOn with alarm := { sOn.alarm with device := true } } : State).alarm.device = true ∧
    ({ p with sendKey := some [], recvKey := some [] } : Port).sendKey.isSome = true := by decide +kernel
/-- A whole LINK_KEY record whose tag is wrong. -/
theorem hyp_LinkKeys_record : let r : List Byte := List.replicate 17232 0
    r.length = 17232 ∧ linkRecordOk sOn (portOf sOn 3) r = false := by
  refine ⟨List.length_replicate .., ?_⟩
  have h : (fieldAt (List.replicate 17232 (0 : Byte)) 0 2 == 0xC7A9) = false := by decide +kernel
  unfold linkRecordOk
  simp only [h, Bool.false_and]

/-! ### The object dictionary -/

theorem hostWrites_of {s : State} {i k : Nat} {bs : List Byte} (h : awake s = true ∧ carried s (.pcie .a 0) = true ∧ reqSound (req 2 i k bs) = true ∧
    clsOf s (.pcie .a 0) 0 = some .host ∧ s.boot.fwState = 2 ∧ s.alarm.device = false) : HostWrites s (req 2 i k bs) i k bs :=
  ⟨⟨h.1, h.2.1, h.2.2.1, h.2.2.2.1⟩, h.2.2.2.2, rfl, rfl, rfl, rfl⟩
theorem hyp_LinkKeys_enable : HostWrites sOn (req 2 0x4030 4 (leBytes 1 1)) 0x4030 ((3 : PortIx).val + 1) (leBytes 1 1) ∧
    ((portOf sOn 3).encEnable = false ∧ dieActive sOn 3 = true ∧ dieActive { sOn with fuses := { fz with activeMask := 1 } } 3 = false) :=
  ⟨hostWrites_of (by decide +kernel), by decide +kernel⟩
/-- The twin of `sOn` as `f` makes it, and a record of it. -/
def sTwin (f : Twin → Twin) : State := { sOn with twin := f sOn.twin }
def recOf (type : Nat) : TwinRec :=
  let r : TwinRec := { rtype := type, part := 0, sender := 0, gen := 0, rseq := 1, reserved := 0, tag := 77, armed := false, check := 0 }
  { r with check := crc32c (recBytes r) }
theorem hyp_TwinPairing : HostWrites sOn (req 2 0x3040 6 (leBytes 1 1)) 0x3040 6 (leBytes 1 1) ∧ HostWrites sOn (req 2 0x3040 6 (leBytes 1 2)) 0x3040 6 (leBytes 1 2) ∧
    HostWrites sOn (req 2 0x3040 8 (leBytes 1 0)) 0x3040 8 (leBytes 1 (0 : PartIx).val) ∧
    twinLinkUp (updPort 3 (fun x => { x with state := .up, keyState := .on }) (sTwin fun t => { t with port := 3 })) = true ∧ twinLinkUp sOn = false ∧
    recSound sOn (recOf 2) = true ∧ recValid sOn (recOf 1) = true ∧ recValid (sTwin fun t => { t with pairGen := 4 }) (recOf 1) = false ∧ sOn.bist.phase < 3 :=
  ⟨hostWrites_of (by decide +kernel), hostWrites_of (by decide +kernel), hostWrites_of (by decide +kernel), by decide +kernel⟩
/-- The twin port's link is up, and its records go out. -/
def sSent (s : State) : State := { s with ports := s.ports.set 3 { portOf s 3 with state := .up, keyState := .on }, twin := { s.twin with port := 3 } }
theorem sends_of {s : State} (h : s.twin.port = (3 : PortIx).val ∧ (portOf s 3).state = .up ∧ s.alarm.device = false) : TwinSends s 3 := ⟨h.1, h.2.1, h.2.2⟩
theorem hyp_TwinPairing_sends : TwinSends (sSent sOn) 3 ∧ (¬sOn.twin.port < 16 ∧ recSound sOn { recOf 2 with check := 0 } = false ∧ sOn.twin.state ≠ .paired ∧ sOn.twin.state ≠ .lost) :=
  ⟨sends_of (by decide +kernel), by decide +kernel⟩
/-- A STANDBY partition with a partner lost. -/
theorem hyp_TwinPairing_lost : let s := updPart 0 (fun p => { p with role := .standby, state := .running }) (sTwin fun t => { t with state := .lost })
    s.twin.state = .lost ∧ (partOfIx s 0).role = .standby ∧ (partOfIx s 0).quenching = none ∧ (partOfIx s 0).state ≠ .free := by decide +kernel
/-- A chain descriptor in a bundle that is zero but for it. -/
def rows0 : List Byte :=
  let c := leBytes 2 0xC7C0 ++ [2, 1, 2, 0, 0, 0] ++ List.replicate 16 0 ++ [0, 1] ++ List.replicate 58 0xFF ++ [2] ++ List.replicate 15 0xFF ++ List.replicate 24 0
  List.replicate 128 0 ++ c ++ leBytes 4 (crc32c c).toNat
set_option maxRecDepth 100000 in
theorem hyp_TwinMirroring : let im := { imp0 with confirm := true, plain := rows0 }
    let s := updPart 0 (fun p => { p with imports := [im] }) { sHold (.import 2) (packet 3 1 []) with twin := { Twin.zero with state := .paired } }
    s.twin.state = .paired ∧ recValid s (recOf 3) = true ∧ (partOfIx s 0).imports.find? (fun m => m.confirm && m.tag == 77) = some im ∧
    holdPacket s 0 0 = some (.import 2, packet 3 1 []) ∧ (partOfIx s 0).memberSlot = 0 ∧ (regChain (bytesAt rows0 0x80 128) (partOfIx s 0).chains).isSome = true := by decide +kernel
set_option maxRecDepth 100000 in
theorem hyp_TwinMirroring_commit : let m : Mirror := { part := 0, slot := 2, tag := 77, homes := 1, rows := rows0, complete := true, placed := [(0, 0)] }
    let s := { sPart with twin := { Twin.zero with state := .paired, mirrors := [m], filling := [(0, [3])] } }
    let k := { KeySet.zero with state := .resident, tag := 77 }
    let u := updPart 0 (fun p => { p with keysets := [(3, k)] }) s
    mirrorOf s 0 77 = some m ∧ m.complete = true ∧ m.placed ≠ [] ∧ (0, 3) ∉ s.twin.refetches ∧ recValid s (recOf 4) = true ∧ (∀ m ∈ (partOfIx s 0).imports, m.confirm = true → m.tag ≠ 77) ∧
    ((0, [3]) ∈ s.twin.filling ∧ 3 ∈ [3]) ∧ mirrorSlotOk s 0 m = true ∧ (regChain (bytesAt m.rows 0x80 128) (partOfIx s 0).chains).isSome = true ∧
    findTag s 0 77 = none ∧ findTag u 0 77 = some (3, k) ∧ s.bist.phase = 0 := by decide +kernel
theorem hyp_TwinMirroring_rows : let s := updPart 0 (fun p => { p with role := .standby }) { sPart with twin := { Twin.zero with state := .paired } }
    (partOfIx s 0).role = .standby ∧ (dieOf s 0).owner = some 0 ∧ keyRuns s 0 = [] ∧ s.twin.refetches.contains (0, 2) = false ∧ mirrorOf s 0 77 = none ∧
    bundleFails [] fz.primes 77 0 [] true ≠ none := by decide +kernel
/-- The rows of `bundle_ok` at a STANDBY twin: they pass, and have their places. -/
def sStandby : State := updPart 0 (fun p => { p with role := .standby }) { sPart with twin := { Twin.zero with state := .paired } }
set_option maxRecDepth 100000 in
theorem hyp_TwinMirroring_copy : let rows := bundleOf0 128 36864
    bundleFails rows sStandby.fuses.primes 77 rows.length (partOfIx sStandby 0).chains true = none ∧
    (∃ l, placeHomes sStandby 1 rows (rows.length / 288) = some l) ∧ ((∀ d ∈ homeDies 1, (dieOf sStandby d).owner = some 0) ∧
    mirrorSlotOk sStandby 0 ⟨0, 2, 77, 1, rows, false, []⟩ = true ∧ mirrorOf sStandby 0 77 = none ∧ sStandby.bist.phase = 0) := by
  have t := bundle_tops 128 (by decide)
  have b := bundle_same 128 36864 t.2.2.2.2.2.2.2.1
  have l : (bundleOf0 128 36864).length = 288 * (2 + 128) := by simp only [bundleOf0, List.length_append, bundleTop_length, List.length_replicate]
  refine ⟨by rw [l]; exact bundle_ok _ t, ⟨[(0, 2, 128, 0), (0, 0, 2, 128)], ?_⟩, by decide +kernel, rfl, by decide +kernel, by decide +kernel⟩
  rw [l]
  simp only [placeHomes, b.1, b.2.1]
  decide +kernel
theorem hyp_TwinMirroring_store : (partOfIx sStandby 0).role = .standby ∧ (dieOf sStandby 0).owner = some 0 ∧ (dieOf sStandby 0).storeHandles = [] ∧
    (partOfIx sStandby 0).keysets = [] ∧ sStandby.twin.mirrors = [] ∧ keyRuns sStandby 0 = [] := by decide +kernel
theorem hyp_TwinMirroring_refetch : let k := { KeySet.zero with state := .refetching, tag := 77 }
    let m : Mirror := { part := 0, slot := 3, tag := 77, homes := 1, rows := [], complete := true, placed := [] }
    let s := updPart 0 (fun p => { p with keysets := [(3, k)] }) { sPart with twin := { Twin.zero with state := .paired, refetches := [(0, 3)], mirrors := [m] } }
    (0, 3) ∈ s.twin.refetches ∧ (ksOf s 0 3).state = .refetching ∧ mirrorOf s 0 (ksOf s 0 3).tag = some m ∧ (replaceKeys 0 3 m.rows s).isSome = true ∧ m.complete = true ∧ recValid s (recOf 6) = true ∧ findTag s 0 77 = some (3, k) := by decide +kernel
theorem hyp_TwinMirroring_fill : let s := updPart 0 (fun p => { p with role := .active }) { sPart with twin := { Twin.zero with state := .paired } }
    HostWrites s (req 2 0x3040 7 (leBytes 1 0)) 0x3040 7 (leBytes 1 (0 : PartIx).val) ∧ (partOfIx s 0).role = .active ∧ s.twin.filling = [] ∧
    (∀ d : DieIx, (1 : BitVec 16).getLsbD d.val = decide ((dieOf s d).owner = some 0)) ∧ TwinSends (sSent s) 3 :=
  ⟨hostWrites_of (by decide +kernel), by decide +kernel, by decide +kernel, by decide +kernel, sends_of (by decide +kernel)⟩
theorem hyp_TwinMirroring_filled : let s := { sOn with twin := { sOn.twin with filling := [(1, [3]), (0, [])] } }
    s.twin.filling.find? (fun f => f.2.isEmpty) = some (0, []) := by decide +kernel
theorem hyp_DictionaryReads : (Served sOn (req 1 0x1000 0 []) .host ∧ Served sOn (req 3 0x2011 1 []) .host ∧ Served sOn (req 5 0x1000 0 []) .host ∧ Served sOn (req 1 0x0FFF 0 []) .host ∧
      Served sOn (req 2 0x2000 0 [1]) .host ∧ Served sOn (req 4 0x2011 1 [1]) .host ∧ Served sOn (req 1 0x1001 0 []) .host) ∧
    ((objOf 0x1000 0 ≠ none ∧ mayRead .host 0x1000 0 = true ∧ mayRead .host 0x1001 0 = true ∧ objOf 0x0FFF 0 = none ∧ sOn.boot.fwState = 2 ∧ sOn.alarm.device = false) ∧
      ((objOf 0x2011 1).any fun o => o.type == 11 && o.access != 4 && mayRead .host 0x2011 1) = true ∧ ((objOf 0x3002 3).any fun _ => !mayWrite .host 0x3002 3) = true) := by
  refine ⟨⟨served_of ?_, served_of ?_, served_of ?_, served_of ?_, served_of ?_, served_of ?_, served_of ?_⟩, by decide +kernel⟩ <;>
    decide +kernel
/-- A session of function 0 at its second segment. -/
def ses (write : Bool) (i k : Nat) (bs : List Byte) (n : Nat) : FpSession := ⟨.pcie .a 0, i, k, 0, write, bs, n, bs.length⟩
/-- A request for the next segment of a value of 40 bytes: in its place, of another place, of a write. -/
theorem hyp_DictionaryReads_sessions : let s (w : Bool) (n : Nat) : State := { sOn with dict := { sOn.dict with sessions := [ses w 0x2011 1 (List.replicate 40 0) n] } }
    let r : FpReq := { req 3 0x2011 1 [] with offset := 4 }
    r.offset ≠ 0 ∧ fpSession (s false 4) r = some (ses false 0x2011 1 (List.replicate 40 0) 4) ∧ fpSession (s false 8) r = some (ses false 0x2011 1 (List.replicate 40 0) 8) ∧
    fpSession (s true 4) r = some (ses true 0x2011 1 (List.replicate 40 0) 4) ∧ fpSession sOn r = none ∧ sOn.dict.sessions.length < 16 := by decide +kernel
theorem hyp_DiscardsAndTimeouts : let r := { req 1 0x1000 0 [] with check := 0 }
    let s := { sOn with dict := { sOn.dict with sessions := [ses false 0x1008 0 [1] 4] } }
    awake sOn = true ∧ carried sOn r.via = true ∧ r.check ≠ crc32c (reqBytes r) ∧ (∃ x ∈ s.dict.sessions, x.via = .pcie .a 0 ∧ x.index = 0x1008 ∧ x.sub = 0 ∧ x.member = 0) := by
  decide +kernel
theorem hyp_DictionaryWrites : (HostWrites sOn (req 2 0x2000 0 (leBytes 4 1500)) 0x2000 0 (leBytes 4 1500) ∧ HostWrites sOn (req 2 0x2000 0 (leBytes 4 1501)) 0x2000 0 (leBytes 4 1501) ∧
      HostWrites sOn (req 2 0x2010 3 (leBytes 4 10000000)) 0x2010 ((2 : PartIx).val + 1) (leBytes 4 10000000) ∧
      HostWrites sOn (req 2 0x3010 4 (leBytes 4 0x18704)) 0x3010 ((3 : PortIx).val + 1) (leBytes 4 0x18704) ∧
      HostWrites sOn (req 2 0x6010 1 (leBytes 1 31)) 0x6010 1 (leBytes 1 31) ∧ HostWrites sOn (req 2 0x5010 3 (leBytes 8 77)) 0x5010 3 (leBytes 8 77)) ∧
    (staticReserve sOn.fuses.grade + 64 ≤ 1500 ∧ 1500 ≤ (hearthZero sOn.fuses.grade).sustained ∧ (hearthZero sOn.fuses.grade).sustained < 1501 ∧ bitsOf 0x18704 3 5 = 0 ∧
      bitsOf 0x18704 21 11 = 0 ∧ ((objOf 0x2000 0).any fun o => mayWrite .host 0x2000 0 && o.type != 11 && decide (2 < o.access ∧ o.len ≠ 3)) = true) := by
  refine ⟨⟨hostWrites_of ?_, hostWrites_of ?_, hostWrites_of ?_, hostWrites_of ?_, hostWrites_of ?_, hostWrites_of ?_⟩, ?_⟩ <;> decide +kernel
/-- An operation on two key sets waits at the first, which is damaged; it reads the one that is evicted. -/
theorem hyp_DictionaryWrites_stalled : let o := { op0 with keySlots := [3, 4] }
    let s := updPart 0 (fun p => { p with keysets := [(3, { KeySet.zero with state := .damaged, tag := 76 }), (4, { KeySet.zero with state := .resident, tag := 77 })] }) (sOp o)
    (findTag s 0 77).map (·.1) = some 4 ∧ (dieOf s 0).owner = some 0 ∧ o ∈ (dieOf s 0).ops ∧ keyStalled s o = true ∧ 4 ∈ o.keySlots ∧ jobOf s o.job = some job0 := by decide +kernel
theorem hyp_DictionaryWrites_eviction : let k := { KeySet.zero with state := .resident, tag := 77 }
    let s := updPart 0 (fun p => { p with keysets := [(3, k)] }) sOn
    findTag s (dieBits s.dict.selector) 77 = some (3, k) ∧ tblGet (partOfIx s 0).keysets 3 = some k ∧ slotBound s 0 3 = false ∧ findTag sOn 0 77 = none ∧
    slotBound (updDie 0 (fun x => { x with ops := [{ op0 with keySlots := [3] }] }) { s with jobs := [{ job0 with binds := [3] }] }) 0 3 = true := by decide +kernel
/-- The fabric manager is part 5; a segment of a routing table, and the pending membership's last. -/
theorem hyp_DictionaryWrites_manager : let s := { sNet 0 with dict := { (sNet 0).dict with fabricManager := 0x8005, sessions := ([ses true 0x3002 4 [0, 0] 4, ses true 0x3020 1 [0] 65536].map fun x => { x with via := .fabric 2 5 false none }) } }
    let r (op i k o : Nat) (bs : List Byte) (l : Bool) : FpReq := let x := { req op i k bs with via := .fabric 2 5 false none, offset := o, last := l }; { x with check := crc32c (reqBytes x) }
    (∀ x ∈ [r 2 0x3002 3 0 (leBytes 4 1) true, r 4 0x3002 4 2 [5, 0] true, r 4 0x3020 1 1 [0] false], awake s = true ∧ carried s x.via = true ∧ reqSound x = true ∧
      clsOf s x.via x.member = some .fm) ∧ s.boot.fwState = 2 ∧ s.fabric.retained = none ∧ s.fabric.epoch + 1 = 1 ∧
    fpSession s (r 4 0x3002 4 2 [5, 0] true) = some { ses true 0x3002 4 [0, 0] 4 with via := .fabric 2 5 false none } ∧
    (fpSession s (r 4 0x3020 1 1 [0] false)).isSome = true ∧ deviceStopped s = true := by decide +kernel
theorem hyp_EndpointsAndAlerts : awake sOn = true ∧ carried sOn .smbus = true ∧ carried sOn (.fabric 2 5 true none) = true := by decide +kernel
theorem hyp_PartitionCommands : (∀ c ∈ [1, 2, 3, 4, 5], ∃ b, b = leBytes 1 c ∧ HostWrites { sOn with boot := { sOn.boot with phase := .ready } } (req 2 0x5000 0x21 b) 0x5000 (0x21 + (0 : PartIx).val) b) ∧
    sOn.boot.phase = .ready ∧ HostWrites sOn (req 2 0x6100 4 (leBytes 1 0)) 0x6100 4 (leBytes 1 (0 : PartIx).val) ∧
    HostWrites sOn (req 2 0x6100 5 (leBytes 1 0)) 0x6100 5 (leBytes 1 (0 : PartIx).val) ∧ (partOfIx sPart 0).state = .running ∧ (partOfIx sPart 0).quenching = none ∧
    (partOfIx sOn 0).state = .free ∧ (partOfIx sOn 0).command = none := by
  refine ⟨fun c hc => ⟨_, rfl, hostWrites_of ?_⟩, by decide +kernel, hostWrites_of (by decide +kernel), hostWrites_of (by decide +kernel), by decide +kernel, by decide +kernel, by decide +kernel,
    by decide +kernel⟩
  revert c; decide +kernel
/-- A member's partition on die 0 while it is created, stopped, changed or quenched. -/
theorem hyp_PartitionCommands_states : let s (f : Partition → Partition) : State := updPart 0 (fun _ => f part0) sOn
    let stopped := s fun p => { p with state := .stopped }
    (partOfIx stopped 0).state = .stopped ∧ sharesOk (partOfIx stopped 0).entry = true ∧ ownerOk stopped 0 = true ∧ (partOfIx stopped 0).quenching = none ∧
    (∀ c ∈ [PCmd.create, .start, .stop, .coldStop, .destroy], (partOfIx (s fun p => { p with state := .changing, command := some c }) 0).command = some c) ∧
    (partOfIx (s fun p => { p with quenching := some (0, false) }) 0).quenching ≠ none ∧ sOn.alarm.device = false ∧
    (let m := s fun p => { p with state := .free, entry := leBytes 2 1 ++ (Partition.zero.entry.drop 2).take 4 ++ [1] ++ Partition.zero.entry.drop 7 }
     (partOfIx m 0).memberSlot ≠ 0 ∧ namedDies (partOfIx m 0) = [0]) ∧
    (let u := updPart 1 (fun _ => { part0 with state := .free }) sPart
     namedDies (partOfIx u 1) = [0] ∧ (dieOf u 0).owner ≠ none) := by decide +kernel
theorem hyp_PartitionCommands_create : let s := updPart 0 (fun _ => { part0 with state := .free, entry := leBytes 2 1 ++ Partition.zero.entry.drop 2 }) sOn
    let t := partOfIx s 0
    t.state = .free ∧ namedDies t = [0] ∧ (∀ d ∈ namedDies t, dieActive s d = true) ∧ sharesOk t.entry = true ∧ ownerOk s 0 = true ∧
    (∀ d ∈ namedDies t, (dieOf s d).owner = none) ∧ t.memberSlot = 0 := by decide +kernel
theorem hyp_AttestationAndBenches : let s := { sOn with boot := { sOn.boot with fwRollback := 3 } }
    let b := List.replicate 40 (0 : Byte)
    (HostWrites s (req 2 0x4001 2 (leBytes 4 3)) 0x4001 2 (leBytes 4 3) ∧ 3 = s.boot.fwRollback ∧ rollbackCount s.fuses.rollback < 3) ∧
    HostWrites s (req 2 0x4020 1 b) 0x4020 1 b ∧ fieldAt b 0 1 ≤ 15 ∧ fieldAt b 1 1 = 0 ∧ fieldAt ([0, 1] ++ b.drop 2) 1 1 = 1 ∧ zeroRange b 2 8 = true ∧
    s.sec.identSk = some [] ∧ (hostOf s .a).slotsHeld = [] ∧ (hostOf s .a).linkUp = true ∧ s.alarm.device = false :=
  ⟨⟨hostWrites_of (by decide +kernel), by decide +kernel⟩, hostWrites_of (by decide +kernel), by decide +kernel⟩
theorem hyp_AttestationAndBenches_bench : let w : FwdWrite := { reg := reg5, die := 0, queue := 0, addr := 64, bytes := [1, 2], kind := .data, tag := 1 }
    w.reg ∈ (hostOf sRoute w.reg.port).slotsHeld ∧ sRoute.alarm.device = false ∧ (hostOf sRoute w.reg.port).linkUp = true ∧ ({ sRoute.hostA with ats := [] } : HostPort).ats.contains w.reg.fn = false ∧
    (∃ x ∈ (hostOf sRoute .a).slotsHeld, x.fn = reg5.fn ∧ x.slot = reg5.slot) ∧ reg5 ∉ (hostOf sOn .a).slotsHeld := by decide +kernel
theorem hyp_AttestationAndBenches_sign : let r : SignReq := { who := 0, part := 0, newKey := none, nonce := [] }
    let s := { sOn with sec := { sOn.sec with signQueue := [r] } }
    s.sec.signQueue = r :: [] ∧ s.sec.identSk = some [] := by decide +kernel
theorem hyp_ShutDown : HostWrites sOn (req 2 0x7000 1 (leBytes 1 1)) 0x7000 1 (leBytes 1 1) ∧ sOn.bist.phase = 0 ∧ sOn.boot.phase = .ready ∧ admittedJobs sOn = [] ∧
    admittedJobs sJob ≠ [] ∧ sOn.alarm.device = false :=
  ⟨hostWrites_of (by decide +kernel), by decide +kernel⟩
theorem hyp_ShutDown_phases : (∀ k ∈ [1, 2, 3, 4, 5], ({ sOn with bist := { sOn.bist with phase := k } } : State).bist.phase = k) ∧
    ({ sOn with boot := { sOn.boot with phase := .memoryTest } } : State).boot.phase = .memoryTest ∧ ({ sOn with boot := { sOn.boot with phase := .repairTest } } : State).boot.phase = .repairTest := by
  decide +kernel

/-! ### The whole machine -/

/-- A step that stores: a host writes a record into a queue's window. -/
theorem hyp_MemoryStaysCanonical : memsOk { sPart with pending := [.queueWindowWrite .a 0 0 0 0 0 (some [1, 2])] } ∧
    (match step { sPart with pending := [.queueWindowWrite .a 0 0 0 0 0 (some [1, 2])] } with | .next t => decide (t.pending = []) | _ => false) = true :=
  ⟨mems_of (by decide +kernel) (by decide +kernel), by decide +kernel⟩
theorem hyp_IdentifiersStayFresh : (∀ d, ∀ o ∈ (dieOf sExch d).ops, o.id < sExch.nextId) → idsFresh { sExch with nextId := 8 } := by
  intro; exact ⟨fun d => by revert d; decide +kernel, by decide +kernel⟩
theorem hyp_CommandsKeepQueueAndFuses : (match exec .pwrokFall sOn with | .next t => decide (t.pending = sOn.pending) | _ => false) = true := by decide +kernel


/-! ### Ill-formed commands -/

/-- One ill-formed command for each check of `wellFormed` on a kind of operand: handles, scalars, descriptors, rings, slots. -/
theorem test_refuses_indices :
    ([.free at0 1024, .nanCountReadClear at0 64, .dset at0 256 0 0, .ringFree at0 32, .bnCfg at0 16 4 false, .bnCfg at0 0 3 false,
      .ntt at0 1 (.region 16384 0) (.handle 0), .ntt at0 1 (.handle 0) (.region 0 64), .negate at0 1 (.ring 32 false) (.handle 0),
      .conjugate at0 1 (.handle 0) (.handle 0) 256, .abs at0 0 1 (.cache 2048 1) (.tile 0), .abs at0 0 1 (.desc 256) (.tile 0),
      .setFlag at0 (.here 320), .deal at0 16 0, .winClose at0 4096 0, .fix at0 0 1 63 (.tile 0) (.tile 0), .paletteReadClear at0 1024 0] : List Instr).all
      (fun i => !wellFormed i) = true := by decide +kernel
/-- Requests that do not fit their fields or name another object, checkpoints, windows and structures out of range. -/
theorem test_refuses_requests :
    ([.read (req 2 0 0 []), .write (req 1 0 0 []), .segRead (req 1 0 0 []), .segWrite (req 1 0 0 []), .describe (req 1 0 0 []),
      .read { req 1 0 0 [] with version := 256 }, .read { req 1 0 0 [] with index := 65536 }, .go (req 2 0x1F00 3 []), .shutdown (req 2 0x7000 2 []),
      .errorRegisterRead (req 1 0x1002 0 []), .create (req 2 0x5001 0 []) false, .anchorCompareTimeout 0, .anchorCompareTimeout 8, .controlParity 0 18,
      .functionLevelReset ⟨.a, none⟩ 17, .queueWindowWrite .a 0 64 0 0 0 none, .queueWindowWrite .a 0 0 0 0 65536 (some [1])] : List Instr).all
      (fun i => !wellFormed i) = true := by decide +kernel

/-! ### Worked examples of the spec and of the standards that it names -/

/-- FIPS 180-4's "abc", FIPS 202's empty SHAKE128, FIPS 197's AES-256, the check value of CRC-32C. -/
theorem test_standards :
    leNat ((sha256 [0x61, 0x62, 0x63]).take 4) = 0xBF1678BA ∧ shake128 [] 4 = [0x7F, 0x9C, 0x2B, 0xA4] ∧ sbox 0x53 = 0xED ∧
    aesBlock (aesKeys ((List.range 32).map (BitVec.ofNat 8))) ((List.range 16).map fun i => BitVec.ofNat 8 (17 * i)) =
      [0x8E, 0xA2, 0xB7, 0xCA, 0x51, 0x67, 0x45, 0xBF, 0xEA, 0xFC, 0x49, 0x90, 0x4B, 0x49, 0x60, 0x89] ∧
    crc32c [0x31, 0x32, 0x33, 0x34, 0x35, 0x36, 0x37, 0x38, 0x39] = 0xE3069283 := by decide +kernel
/-- The AES-256-GCM tag of nothing under a zero key and IV. -/
theorem test_gcm : gcmSeal (List.replicate 32 0) (List.replicate 12 0) [] [] =
    ([], [0x53, 0x0F, 0x8A, 0xFB, 0xC7, 0x45, 0x36, 0xB9, 0xA9, 0x63, 0xB4, 0xF1, 0xC4, 0xCB, 0x73, 0x8B]) := by decide +kernel
/-- The worked log entry of spec/16. -/
theorem test_log_entry : (logEntry 0x457 0x0301 ⟨2, some (4, 0x213, 0x3A40), some 1, 1, 0x1A2B, false⟩ 0x12F0A 131072).take 28 =
    [0x57, 0x04, 0, 0, 0x01, 0x03, 0x02, 0x42, 0x21, 0x01, 0x13, 0x02, 0x40, 0x3A, 0, 0, 0x0A, 0x2F, 0x01, 0, 0, 0, 0x02, 0, 0x2B, 0x1A, 0, 0] := by decide +kernel
/-- The key-switching example of spec/04: ROTATE, HROT of 16 outputs and HROT_SUM of 16 terms. -/
theorem test_key_switch_costs :
    let k : KsCost := ⟨15, 12, 4, 4, 8, 512, 512⟩
    k.need = 9 ∧ k.needSum = 19 ∧ k.total = 7956 ∧ k.hrot 16 0 = 73536 ∧ k.hrotSum 16 0 = 23520 := by decide +kernel
/-- The big-number times of R445 and spec/15's example. -/
theorem test_big_number_times :
    let slot (n : Nat) : BnSlot := { BnSlot.zero with n := n }
    let s := updSlot 2 1 (fun _ => slot 48) (updSlot 2 2 (fun _ => slot 48) (updSlot 5 1 (fun _ => slot 4) sOn))
    bnTime s 2 (.modExp at0 0 2 2 1 0) = 4303200 ∧ bnTime s 5 (.modMul at0 0 0 0 1 0) = 668 ∧ tEc 6 = 309864 ∧ tEc 4 = 144648 := by decide +kernel
/-- The worked conversion and product of spec/07: sixteen FP32 activations to LG4, the dot product with weights of code 4. -/
theorem test_lg4_example :
    let vs := [0x40A00000, 0xC0466666, 0x3F99999A, 0, 0xBF666666, 0x40266666, 0x3EB33333, 0xBE4CCCCD, 0x40833333, 0x3FE00000, 0xBF800000, 0x3F333333,
      0x80000000, 0x40533333, 0xC00CCCCD, 0x3F000000].map f32
    let g := convBlock .lg4 vs
    g.codes = [7, 0xD, 2, 0, 0xA, 5, 0, 0, 6, 4, 0xA, 1, 0, 5, 0xC, 1] ∧ g.scale = 0x80 ∧ g.nans = 0 ∧
    (match blockSum .lg4 .lg4 (some 1) (some (-1)) (g.codes.map fun c => elemProduct .lg4 .lg4 c 4) with
      | .fin n m e => decide (n = false ∧ m = 27052196 ∧ e = -22)
      | _ => false) = true := by decide +kernel
/-- An E4M3 tile at X_t = 3 whose largest value is 4,000 is recomputed once, at scale byte 0x83 (spec/07). -/
theorem test_e4m3_example : let g := convTile .e4m3 [f32 0x457A0000] 3
    g.recomputed = 1 ∧ g.scale = 0x83 ∧ g.saturated = false := by decide +kernel
/-- Reset: a port's word is 0x0001_8704 (R380); F grade has 1,264 W of tokens (R319). -/
theorem test_reset_words : portWord s0 0 = 0x00018704 ∧ tokenPool s0 = 1264 := by decide +kernel

end Sys2Proof.Tests
end

namespace Sys2Proof.Machine

/-! ### Scalar registers after a write -/

/-- A scalar register after a write to it holds the value modulo 2^64. -/
@[simp] theorem scalarOf_putScalar_self (d : DieIx) (r v : Nat) (s : State) : scalarOf (putScalar d r v s) d r = v % 2 ^ 64 := by
  simp [scalarOf, putScalar]

/-- Another scalar register of the die. -/
theorem scalarOf_putScalar_ne (d : DieIx) {r q : Nat} (v : Nat) (s : State) (h : q ≠ r) :
    scalarOf (putScalar d r v s) d q = scalarOf s d q := by
  simp [scalarOf, putScalar, h]

/-- A write to a scalar register leaves the rest of its die. -/
theorem putScalar_die_rest (d : DieIx) (r v : Nat) (s : State) :
    { dieOf (putScalar d r v s) d with scalars := [], scalarPoison := [] } = { dieOf s d with scalars := [], scalarPoison := [] } := by
  simp [putScalar]

/-- A write to a scalar register leaves every other die. -/
theorem dieOf_putScalar_ne {d e : DieIx} (r v : Nat) (s : State) (h : e ≠ d) : dieOf (putScalar d r v s) e = dieOf s e := by
  simp [putScalar, h]

/-- A write to a scalar register touches its die alone. -/
theorem putScalar_frame (d : DieIx) (r v : Nat) (s : State) : Frame [.dies] s (putScalar d r v s) := updDie_frame_dies d _ s rfl

/-! ### Instructions that may issue -/

/-- An instruction at a site that is ready issues: where its meaning is done, that is the state after it (R237, R289). -/
theorem runInstr_done {s t : State} {a : Site} {j : Job} {i : Instr} {f : Job → State → Issued} (h : Ready s a j)
    (hdone : f j s = .done t) : runInstr a i f s = t := by
  have hjob : siteJob s a = some j := by simp [siteJob, h.fresh, h.job]
  have hun : unhold s = s := by simp [unhold, h.fresh]
  simp [runInstr, h.turn, hjob, h.queue_open, h.engine, h.front, hun, hdone]

/-! ### HSTAT (R227) -/

/-- HSTAT where its scalar registers are free: the two words of the entry are written, the high one last. -/
theorem exec_hstat_of_ready {s : State} {a : Site} {j : Job} {i p q : Nat} (h : Ready s a j) (hfree : scalarBusy s a.die [p, q] = false) :
    exec (.hstat a i p q) s =
      .next (putScalar a.die q (handleHigh (handleOf s a.die i)) (putScalar a.die p (handleLow (handleOf s a.die i)) s)) :=
  congrArg Host.Outcome.next (runInstr_done h (by simp [hfree]))

/-- Settles O32: a ready HSTAT is two writes of scalar registers, of the two words of the entry (R225). -/
theorem handleStatus : Obligations.HandleStatus := by
  intro s a j i p q hready hfree e low bit high
  have hhigh : handleHigh e % 2 ^ 64 = high := by
    simp [handleHigh, high, bit, b2n, Nat.mul_comm e.poisonEvent.toNat]
  refine ⟨_, exec_hstat_of_ready hready hfree, ?_, fun hpq => ?_, fun r hp hq => ?_, ?_, fun d hd => ?_, ?_⟩
  · rw [scalarOf_putScalar_self, hhigh]
  · rw [scalarOf_putScalar_ne _ _ _ hpq, scalarOf_putScalar_self]
    rfl
  · rw [scalarOf_putScalar_ne _ _ _ hq, scalarOf_putScalar_ne _ _ _ hp]
  · rw [putScalar_die_rest, putScalar_die_rest]
  · rw [dieOf_putScalar_ne _ _ _ hd, dieOf_putScalar_ne _ _ _ hd]
  · exact (putScalar_frame _ _ _ _).trans (putScalar_frame _ _ _ _)

end Sys2Proof.Machine

namespace Sys2Proof.Machine

/-! ### What a quench leaves as it was

A quench is long, but most of its work (aborts, poison, completion records, messages, zeroising) touches neither logs nor jobs, and of a partition
nothing that says whether it is in use or quenched. `still` is what such work leaves; each operation's lemma is an equation of it. -/

/-- What of a partition says whether it is in use and what quenched it. -/
def quenchMarks (x : Partition) : Partition :=
  { Partition.zero with state := x.state, quenching := x.quenching, quenchEvent := x.quenchEvent, quenchCount := x.quenchCount }

/-- What of the state most work of a quench leaves as it was: all but dies, messages, keys, free draws, and of a partition all but its marks. -/
def still (s : State) : State :=
  { resetOf s.fuses with
    pins := s.pins, alarm := s.alarm, boot := s.boot, log := s.log, dict := s.dict, parts := s.parts.map quenchMarks, jobs := s.jobs
    hearth := s.hearth, bist := s.bist, reissue := s.reissue, pending := s.pending }

/-- A fold of steps that each leave it. -/
theorem still_foldl {α : Type} {f : State → α → State} (hf : ∀ s x, still (f s x) = still s) (l : List α) (s : State) :
    still (l.foldl f s) = still s := by
  induction l generalizing s with
  | nil => rfl
  | cons x l ih => exact (ih _).trans (hf s x)

/-- A change of the fields that it does not hold. -/
theorem still_upd (s : State) (sec : Sec) (dies : Vector Die 16) (fabric : Fabric) (ports : Vector Port 16) (hostA hostB : HostPort) (twin : Twin)
    (bn : Bn) (out : List Output) (held : List Held) (free nextId : Nat) :
    still { s with sec := sec, dies := dies, fabric := fabric, ports := ports, hostA := hostA, hostB := hostB, twin := twin, bn := bn, out := out
                   held := held, free := free, nextId := nextId } = still s := rfl

@[simp] theorem still_updQueue (d : DieIx) (q : QueueIx) (f : Queue → Queue) (s : State) : still (updQueue d q f s) = still s := rfl
@[simp] theorem still_emit (o : Output) (s : State) : still (emit o s) = still s := rfl
@[simp] theorem still_zeroBnSlots (f : Nat → BnSlot → Bool) (s : State) : still (zeroBnSlots f s) = still s := rfl
@[simp] theorem still_zeroJobBufs (id : Nat) (s : State) : still (zeroJobBufs id s) = still s := rfl
@[simp] theorem still_updHost (h : HostId) (f : HostPort → HostPort) (s : State) : still (updHost h f s) = still s := by cases h <;> rfl

/-- A change of a partition that keeps its marks. -/
theorem still_updPart (p : PartIx) (f : Partition → Partition) (s : State) (hf : ∀ x, quenchMarks (f x) = quenchMarks x) :
    still (updPart p f s) = still s := by
  have h : (updPart p f s).parts.map quenchMarks = s.parts.map quenchMarks := by
    simp only [updPart, Vector.map_set, hf, ← Vector.getElem_map quenchMarks, Vector.set_getElem_self]
  exact congrArg (fun v => { still s with parts := v }) h

@[simp] theorem still_updKs (p : PartIx) (k : Nat) (f : KeySet → KeySet) (s : State) : still (updKs p k f s) = still s :=
  still_updPart _ _ _ fun _ => rfl
@[simp] theorem still_finishEvictions (p : PartIx) (s : State) : still (finishEvictions p s) = still s := still_updPart _ _ _ fun _ => rfl

/-! #### Messages and completion records -/

@[simp] theorem still_msix (h : HostId) (fn vec : Nat) (s : State) : still (msix h fn vec s) = still s := by
  unfold msix
  split <;> simp

@[simp] theorem still_sendMsg (k : MsgKind) (d : DieIx) (part : Nat) (dst : DieIx) (o : Sent → Output) (s : State) :
    still (sendMsg k d part dst o s) = still s := by
  unfold sendMsg
  split
  · rfl
  · split <;> rfl

@[simp] theorem still_sendTwin (rtype : Nat) (p : PartIx) (tag : Nat) (s : State) : still (sendTwin rtype p tag s) = still s := by
  unfold sendTwin sendTwinGen sendTwinMsg
  dsimp only
  split <;> rfl

@[simp] theorem still_deliverCpl (d : DieIx) (q : QueueIx) (p : PartIx) (c : CplRec) (s : State) : still (deliverCpl d q p c s) = still s := by
  simp only [deliverCpl]
  split
  · simp
  · split
    · split <;> simp
    · rfl

@[simp] theorem still_putCpl (d : DieIx) (q : QueueIx) (c : Cpl) (s : State) : still (putCpl d q c s) = still s := by
  simp only [putCpl]
  split
  · rfl
  · split
    · rfl
    · split <;> simp

@[simp] theorem still_withholdPacket (d : DieIx) (q : QueueIx) (e : Ev) (b : List Byte) (s : State) :
    still (withholdPacket d q e b s) = still s := by
  unfold withholdPacket
  split <;> simp

/-! #### Poison -/

@[simp] theorem still_poisonHandle (d : DieIx) (h : Nat) (e : Ev) (s : State) : still (poisonHandle d h e s) = still s := by
  unfold poisonHandle
  split <;> rfl

@[simp] theorem still_poisonStore (d : DieIx) (h : Nat) (e : Ev) (s : State) : still (poisonStore d h e s) = still s := by
  unfold poisonStore
  split <;> rfl

@[simp] theorem still_poisonDest (e : Ev) (t : Dest) (s : State) : still (poisonDest e t s) = still s := by
  cases t with
  | handle d h => exact still_poisonHandle _ _ _ _
  | store d h => exact still_poisonStore _ _ _ _
  | ring d r => simp only [poisonDest]; split <;> simp
  | _ => rfl

@[simp] theorem still_poisonAll (e : Ev) (ds : List Dest) (s : State) : still (poisonAll e ds s) = still s :=
  still_foldl (fun s d => still_poisonDest e d s) ds s

/-! #### Aborted operations -/

@[simp] theorem still_spoilDest (ys : List Op) (t : Dest) (s : State) : still (spoilDest ys t s) = still s := by
  cases t with
  | handle d h => unfold spoilDest; dsimp only; split <;> rfl
  | slot d k => unfold spoilDest; dsimp only; split <;> rfl
  | _ => rfl

@[simp] theorem still_spoilSlots (d : DieIx) (o : Op) (s : State) : still (spoilSlots d o s) = still s :=
  still_foldl (by intros; rfl) _ s

@[simp] theorem still_resetRing (d : DieIx) (e : Ev) (r : Nat) (s : State) : still (resetRing d e r s) = still s :=
  still_poisonHandle _ _ _ _

@[simp] theorem still_dropClaims (d : DieIx) (e : Ev) (o : Op) (s : State) : still (dropClaims d e o s) = still s :=
  still_foldl (fun s r => still_resetRing d e r s) _ s

@[simp] theorem still_sendGroup (h : HostId) (d : DieIx) (o : Op) (s : State) : still (sendGroup h d o s) = still s := by
  unfold sendGroup
  split
  · exact still_sendMsg ..
  · split
    · exact still_updHost ..
    · rfl
  · rfl

@[simp] theorem still_sendWaiting (h : HostId) (s : State) : still (sendWaiting h s) = still s := by
  unfold sendWaiting sendBench
  split
  · simp
  · split
    · rfl
    · split
      · simp
      · split
        · rfl
        · exact still_updHost ..

@[simp] theorem still_dropOp (d : DieIx) (id : Nat) (s : State) : still (dropOp d id s) = still s := by
  have waiting (h : HostId) (c : Bool) (t : State) : still (if c then sendWaiting h t else t) = still t := by
    split <;> simp
  exact (waiting .b _ _).trans (waiting .a _ _)

@[simp] theorem still_abortOp (d : DieIx) (e : Ev) (o : Op) (s : State) : still (abortOp d e o s) = still s := by
  simp only [abortOp, still_dropOp, still_dropClaims, still_poisonAll, still_spoilSlots]
  exact still_foldl (fun s t => still_spoilDest _ t s) _ s

@[simp] theorem still_abortBn (id : Nat) (s : State) : still (abortBn id s) = still s := by
  unfold abortBn
  dsimp only
  split
  · split
    · split <;> rfl
    · rfl
  · rfl

/-! #### Secrets, packets, imports -/

@[simp] theorem still_zeroJobSecrets (j : Job) (s : State) : still (zeroJobSecrets j s) = still s := by
  refine (still_zeroBnSlots _ _).trans (still_foldl (fun s x => ?_) _ s)
  split <;> rfl

@[simp] theorem still_zeroPartSecrets (p : PartIx) (s : State) : still (zeroPartSecrets p s) = still s := by
  unfold zeroPartSecrets
  refine (still_updPart _ _ _ (by intro; rfl)).trans ((still_foldl (by intros; rfl) _ _).trans (still_foldl (fun s d => ?_) _ s))
  exact still_foldl (by intros; rfl) _ s

@[simp] theorem still_dropPatch (d : DieIx) (h : Option Hold) (s : State) : still (dropPatch d h s) = still s := by
  unfold dropPatch
  split
  · exact still_updPart _ _ _ fun _ => rfl
  · rfl

@[simp] theorem still_drainQueue (d : DieIx) (q : QueueIx) (e : Ev) (s : State) : still (drainQueue d q e s) = still s := by
  unfold drainQueue
  refine (still_foldl (fun s it => ?_) _ _).trans (still_dropPatch _ _ _)
  cases it with
  | packet => exact still_withholdPacket ..
  | role => rfl

@[simp] theorem still_dropImport (p : PartIx) (im : Import) (s : State) : still (dropImport p im s) = still s := by
  unfold dropImport
  refine (still_updKs _ _ _ _).trans ((still_updPart _ _ _ (by intro; rfl)).trans ?_)
  split <;> simp

end Sys2Proof.Machine

namespace Sys2Proof.Machine

/-! ### What a quench does to jobs, partitions and the log -/

/-- The EVENT of a log entry (R464). -/
theorem fieldAt_logEntry_event (seq : Nat) (e : Ev) (a : EvArgs) (w time : Nat) : fieldAt (logEntry seq e a w time) 4 2 = e.toNat := by
  have bytes (x y z : List Byte) (hx : x.length = 4) (hy : y.length = 2) : bytesAt (x ++ (y ++ z)) 4 2 = y := by
    rw [← hx, ← hy]
    simp [bytesAt]
  simp only [fieldAt, logEntry, List.append_assoc]
  rw [bytes _ _ _ (by simp) (by simp), leNat_leBytes]
  exact Nat.mod_eq_of_lt e.isLt

/-- A log that has not changed. -/
theorem LateOnly.of_log_eq {s t : State} (h : t.log = s.log) : LateOnly s t := ⟨[], by simp, by simp [h], by simp [h]⟩

theorem LateOnly.trans {s t u : State} (h : LateOnly s t) (k : LateOnly t u) : LateOnly s u := by
  obtain ⟨l, hl, hentries, hseq⟩ := h
  obtain ⟨m, hm, kentries, kseq⟩ := k
  refine ⟨l ++ m, fun x hx => (List.mem_append.1 hx).elim (hl x) (hm x), ?_, ?_⟩
  · rw [kentries, hentries, List.foldl_append]
  · rw [kseq, hseq, List.foldl_append]

/-- The late end of one job is logged (R338). -/
theorem Logged.lateOnly {a : EvArgs} {s t : State} (h : Logged 0x0704 a s t) : LateOnly s t := by
  obtain ⟨hseq, time, hentries⟩ := h
  refine ⟨[logEntry ((s.log.seq + 1) % 2 ^ 32) 0x0704 a s.hearth.boundaries time], fun x hx => ?_, ?_, hseq⟩
  · rw [List.mem_singleton.1 hx, fieldAt_logEntry_event]
    rfl
  · rw [hentries, List.foldl_cons, List.foldl_nil]

/-- The areas that the work of a quench touches: those of a quench but the alarm. -/
def workAreas : List Area := quenchAreas.erase .alarm

/-- Between `s` and `t` the partitions `ps` were quenched with an event, each once: their jobs are gone, and their marks say so (R460). No job came
up, nothing was logged but the late end of jobs, and the other partitions keep their marks. With `ps` empty it is what every part of the work of a
quench keeps to. -/
structure Quenches (e : Ev) (ps : List PartIx) (s t : State) : Prop where
  frame : Frame workAreas s t
  late : LateOnly s t
  jobs : ∀ j ∈ t.jobs, ∃ k ∈ s.jobs, k.part = j.part
  ended : ∀ j ∈ t.jobs, j.part ∉ ps
  others : ∀ p ∉ ps, quenchMarks (partOfIx t p) = quenchMarks (partOfIx s p)
  marked : ∀ p ∈ ps, (partOfIx t p).state = (partOfIx s p).state ∧ (partOfIx t p).quenchEvent = e.toNat ∧
    (partOfIx t p).quenchCount = (partOfIx s p).quenchCount + 1 ∧ (partOfIx t p).quenching.isSome = true

/-- Equal marks, one by one. -/
theorem quenchMarks_eq_iff {x y : Partition} : quenchMarks x = quenchMarks y ↔
    x.state = y.state ∧ x.quenching = y.quenching ∧ x.quenchEvent = y.quenchEvent ∧ x.quenchCount = y.quenchCount := by
  simp [quenchMarks]
  tauto

theorem partOfIx_still (s : State) (p : PartIx) : partOfIx (still s) p = quenchMarks (partOfIx s p) := by simp [partOfIx, still]

/-- Quenches of different partitions, one after the other. -/
theorem Quenches.append {e : Ev} {ps qs : List PartIx} {s t u : State} (h : Quenches e ps s t) (k : Quenches e qs t u) (hd : ∀ p ∈ ps, p ∉ qs) :
    Quenches e (ps ++ qs) s u where
  frame := h.frame.trans k.frame
  late := h.late.trans k.late
  jobs j hj := by
    obtain ⟨i, hi, hij⟩ := k.jobs j hj
    obtain ⟨x, hx, hxi⟩ := h.jobs i hi
    exact ⟨x, hx, hxi.trans hij⟩
  ended j hj hp := by
    obtain ⟨i, hi, hij⟩ := k.jobs j hj
    exact (List.mem_append.1 hp).elim (fun hp => h.ended i hi (hij ▸ hp)) (k.ended j hj)
  others p hp := by
    obtain ⟨hps, hqs⟩ := not_or.1 (mt List.mem_append.2 hp)
    exact (k.others p hqs).trans (h.others p hps)
  marked p hp := by
    by_cases hps : p ∈ ps
    · obtain ⟨kstate, kquenching, kevent, kcount⟩ := quenchMarks_eq_iff.1 (k.others p (hd p hps))
      rw [kstate, kquenching, kevent, kcount]
      exact h.marked p hps
    · obtain ⟨hstate, -, -, hcount⟩ := quenchMarks_eq_iff.1 (h.others p hps)
      rw [← hstate, ← hcount]
      exact k.marked p ((List.mem_append.1 hp).resolve_left hps)

/-- The work of a quench, one part after the other. -/
theorem Quenches.trans {e : Ev} {s t u : State} (h : Quenches e [] s t) (k : Quenches e [] t u) : Quenches e [] s u := h.append k (by simp)

/-- A change of what `still` does not hold, and of jobs, where none comes up. -/
theorem Quenches.of_jobs {e : Ev} {s t : State} (h : still t = { still s with jobs := t.jobs })
    (hj : ∀ j ∈ t.jobs, ∃ k ∈ s.jobs, k.part = j.part) : Quenches e [] s t := by
  have same {α : Type} (f : State → α) : f (still t) = f { still s with jobs := t.jobs } := congrArg f h
  exact
    { frame := fun a ha => by
        cases a with
        | fuses => exact same State.fuses
        | pins => exact same fun u => { u.pins with smbAlert := false }
        | alarm => exact same State.alarm
        | boot => exact same State.boot
        | dict => exact same State.dict
        | hearth => exact same State.hearth
        | bist => exact same State.bist
        | reissue => exact same State.reissue
        | pending => exact same State.pending
        | _ => exact absurd (by decide) ha
      late := .of_log_eq (same State.log)
      jobs := hj
      ended := by simp
      others := fun p _ => by
        simp only [← partOfIx_still, h]
        rfl
      marked := by simp }

/-- The jobs that `still` holds. -/
theorem still_jobs {s t : State} (h : still t = still s) : t.jobs = s.jobs := by
  have same := congrArg State.jobs h
  exact same

/-- A change of what `still` does not hold. -/
theorem Quenches.of_still {e : Ev} {s t : State} (h : still t = still s) : Quenches e [] s t := by
  have hj : t.jobs = s.jobs := still_jobs h
  refine .of_jobs (h.trans ?_) fun j hj' => ⟨j, hj ▸ hj', rfl⟩
  rw [hj]
  rfl

theorem Quenches.refl (e : Ev) (s : State) : Quenches e [] s s := .of_still rfl

/-- A fold of work. -/
theorem Quenches.foldl {α : Type} {e : Ev} {f : State → α → State} (hf : ∀ s x, Quenches e [] s (f s x)) (l : List α) (s : State) :
    Quenches e [] s (l.foldl f s) := by
  induction l generalizing s with
  | nil => exact .refl e s
  | cons x l ih => exact (hf s x).trans (ih _)

/-- A change of a job that keeps its partition. -/
theorem updJob_quenches (e : Ev) (id : Nat) (f : Job → Job) (s : State) (hf : ∀ j, (f j).part = j.part) : Quenches e [] s (updJob id f s) := by
  refine .of_jobs rfl fun j hj => ?_
  obtain ⟨k, hk, rfl⟩ := List.mem_map.1 hj
  refine ⟨k, hk, ?_⟩
  split <;> simp [hf]

/-- The late end of a job is logged, and counted to it. -/
theorem logJob_late_quenches (e : Ev) (j : Job) (a : Site) (unit detail : Nat) (skip : Bool) (s : State) :
    Quenches e [] s (logJob 0x0704 j a unit detail skip s) := by
  refine Quenches.trans (t := logEvent 0x0704 (evJob j a unit detail skip) s) ?_ (updJob_quenches e _ _ _ fun _ => rfl)
  have hf := logEvent_frame 0x0704 (evJob j a unit detail skip) s
  have hjobs : (logEvent 0x0704 (evJob j a unit detail skip) s).jobs = s.jobs := hf .jobs (by decide)
  have hparts := hf .parts (by decide)
  exact
    { frame := hf.mono (by decide)
      late := (logEvent_logged _ _ s).lateOnly
      jobs := fun k hk => ⟨k, hjobs ▸ hk, rfl⟩
      ended := by simp
      others := fun p _ => by
        have same := congrArg quenchMarks (hparts p)
        exact same
      marked := by simp }

/-- The end of a job. -/
theorem finishJob_quenches (e : Ev) (id elapsed : Nat) (s : State) : Quenches e [] s (finishJob id elapsed s) := by
  unfold finishJob
  split
  · exact .refl e s
  · extract_lets late s₁ j' c hm rec_ s₂
    have h₁ : Quenches e [] s s₁ := by
      dsimp only [s₁]
      split
      · exact logJob_late_quenches ..
      · exact .refl e s
    have h₂ : Quenches e [] s₁ s₂ := .of_jobs rfl fun k hk => ⟨k, List.mem_of_mem_filter hk, rfl⟩
    exact (h₁.trans h₂).trans (.of_still (by simp))

/-- The quench of a job (R459). -/
theorem quenchJob_quenches (e : Ev) (id : Nat) (e' : Ev) (cancel : Bool) (s : State) : Quenches e [] s (quenchJob id e' cancel s) := by
  unfold quenchJob
  split
  · exact .refl e s
  · extract_lets s₁ s₂ s₃ s₄ s₅ s₆
    have h₁ : Quenches e [] s s₁ := updJob_quenches _ _ _ _ fun _ => rfl
    have h₃ : still s₃ = still s₁ := still_foldl (fun s d => still_foldl (fun s o => still_abortOp d e' o s) _ s) _ s₂
    have h₆ : still s₆ = still s₃ := by simp only [s₆, s₅, s₄, still_zeroJobSecrets, still_poisonAll, still_abortBn]
    have h₇ : Quenches e [] s₆ (freeDraw s₆).2 := .of_still rfl
    exact ((h₁.trans (.of_still (h₆.trans h₃))).trans h₇).trans (finishJob_quenches e id (freeDraw s₆).1 _)

/-- The quench of a partition (R460). -/
theorem quenchPartition_quenches (p : PartIx) (e : Ev) (restart : Bool) (s : State) : Quenches e [p] s (quenchPartition p e restart s) := by
  unfold quenchPartition
  extract_lets ds old s₁ s₂ s₃ s₄ s₅ s₆ s₇
  have h₂ : still s₂ = still s₁ := still_foldl (by intros; rfl) _ _
  have h₃ : Quenches e [] s₂ s₃ := .foldl (fun _ _ => quenchJob_quenches ..) _ _
  have h₄ : Quenches e [] s₃ s₄ := .of_jobs rfl fun j hj => ⟨j, List.mem_of_mem_filter hj, rfl⟩
  have h₅ : still s₅ = still s₄ := still_foldl (fun s d => still_foldl (fun s q => still_drainQueue d q e s) _ s) _ _
  have h₆ : still s₆ = still s₅ := still_foldl (fun s im => still_dropImport p im s) _ _
  have h₇ : still s₇ = still s₆ := still_zeroPartSecrets p s₆
  generalize ht : finishEvictions p (ds.foldl (fun s d => updDie d (fun x => { x with flags := [] }) s) s₇) = t
  have h₈ : still t = still s₇ := by
    rw [← ht, still_finishEvictions]
    exact still_foldl (by intros; rfl) _ _
  have hrest : still t = still s₄ := h₈.trans (h₇.trans (h₆.trans h₅))
  have hwork : Quenches e [] s₁ t := ((Quenches.of_still h₂).trans (h₃.trans h₄)).trans (.of_still hrest)
  have hjobs : t.jobs = s₄.jobs := still_jobs hrest
  exact
    { frame := ((updPart_frame p _ s).mono (by decide)).trans hwork.frame
      late := hwork.late
      jobs := hwork.jobs
      ended := fun j hj => by
        rw [hjobs] at hj
        simpa using (List.mem_filter.1 hj).2
      others := fun q hq => by
        rw [hwork.others q (by simp), partOfIx_updPart_ne _ _ (by simpa using hq)]
      marked := fun q hq => by
        obtain rfl := List.mem_singleton.1 hq
        obtain ⟨hstate, hquenching, hevent, hcount⟩ := quenchMarks_eq_iff.1 (hwork.others q (by simp))
        rw [hstate, hquenching, hevent, hcount, partOfIx_updPart_self]
        exact ⟨rfl, rfl, rfl, rfl⟩ }

/-- The quenches of several partitions. -/
theorem quenchPartitions_quenches (e : Ev) (restart : Bool) {ps : List PartIx} (hps : ps.Nodup) (s : State) :
    Quenches e ps s (ps.foldl (fun s p => quenchPartition p e restart s) s) := by
  induction ps generalizing s with
  | nil => exact .refl e s
  | cons p ps ih =>
    obtain ⟨hp, hps⟩ := List.nodup_cons.1 hps
    exact (quenchPartition_quenches p e restart s).append (ih hps _) (by simpa using hp)

/-! ### The device quench (R461) -/

theorem still_zeroDeviceSecrets (s : State) : still (zeroDeviceSecrets s) = still s := by
  unfold zeroDeviceSecrets
  exact (still_upd ..).trans (still_foldl (fun s p => still_zeroPartSecrets p s) allParts s)

/-- The partitions that a device quench quenches. -/
def usedParts (s : State) : List PartIx := allParts.filter fun p => (partOfIx s p).state != .free

theorem mem_usedParts {s : State} {p : PartIx} : p ∈ usedParts s ↔ (partOfIx s p).state ≠ .free := by
  simp [usedParts, allParts]

/-- The alarm of a device quench. -/
def alarmOn (e : Ev) (src : QuenchSource) (s : State) : State :=
  { s with alarm := { s.alarm with device := true, event := e, source := src, quenchLow := true } }

/-- A device quench raises the alarm, quenches the partitions in use, zeroises every secret and ends QUENCHED. -/
theorem quenchDevice_eq {s : State} (h : s.alarm.device = false) (e : Ev) (src : QuenchSource) :
    quenchDevice e src s =
      (let u := zeroDeviceSecrets ((usedParts (alarmOn e src s)).foldl (fun s p => quenchPartition p e false s) (alarmOn e src s))
       { u with sec := { u.sec with state := .quenched } }) := by
  unfold quenchDevice usedParts alarmOn
  rw [if_neg (by simp [h])]


/-- What the device quench does to partitions, jobs and the log, the alarm apart. -/
theorem quenchDevice_quenches {s : State} (h : s.alarm.device = false) (e : Ev) (src : QuenchSource) :
    Quenches e (usedParts (alarmOn e src s)) (alarmOn e src s) (quenchDevice e src s) := by
  rw [quenchDevice_eq h]
  generalize alarmOn e src s = a
  have hnodup : (usedParts a).Nodup := (List.nodup_finRange 16).filter _
  have hparts := quenchPartitions_quenches e false hnodup a
  generalize (usedParts a).foldl (fun s p => quenchPartition p e false s) a = u at hparts ⊢
  have hsecrets : Quenches e [] u (zeroDeviceSecrets u) := .of_still (still_zeroDeviceSecrets u)
  generalize zeroDeviceSecrets u = v at hsecrets ⊢
  have hsec : Quenches e [] v { v with sec := { v.sec with state := .quenched } } := .of_still rfl
  simpa using hparts.append (hsecrets.trans hsec) (by simp)

/-- A device quench logs nothing but the late end of jobs. -/
theorem quenchDevice_lateOnly {s : State} (h : s.alarm.device = false) (e : Ev) (src : QuenchSource) : LateOnly s (quenchDevice e src s) :=
  (quenchDevice_quenches h e src).late

/-- The control complex holds no key once the device's secrets are zeroised (R453). -/
theorem zeroDeviceSecrets_keys (s : State) : (zeroDeviceSecrets s).sec.identSk = none ∧ (zeroDeviceSecrets s).sec.repairKey = none := by
  simp [zeroDeviceSecrets]

/-- No port holds a link key then (R436). -/
theorem zeroDeviceSecrets_linkKeys (s : State) (n : PortIx) : (portOf (zeroDeviceSecrets s) n).sendKey = none ∧
    (portOf (zeroDeviceSecrets s) n).recvKey = none ∧ (portOf (zeroDeviceSecrets s) n).ephScalar = none := by
  simp [portOf, zeroDeviceSecrets]

/-- No big-number command is left then, and every SECRET slot is zero and not valid (R452, R453). -/
theorem zeroDeviceSecrets_bigNumbers (s : State) : (zeroDeviceSecrets s).bn.waiting = [] ∧ (zeroDeviceSecrets s).bn.running = none ∧
    ∀ b ∈ (zeroDeviceSecrets s).bn.slots, b.2.isSecret = true → b.2.valid = false ∧ b.2.value = 0 := by
  simp only [zeroDeviceSecrets, true_and]
  intro b hb hsecret
  obtain ⟨c, -, rfl⟩ := List.mem_map.1 hb
  by_cases hc : c.2.isSecret = true <;> simp_all

/-- What a device quench zeroises, and the security state that it ends in. -/
theorem quenchDevice_secrets {s t : State} {e : Ev} {src : QuenchSource} (h : s.alarm.device = false) (ht : quenchDevice e src s = t) :
    t.sec.state = .quenched ∧ (t.sec.identSk = none ∧ t.sec.repairKey = none) ∧
    (∀ n, (portOf t n).sendKey = none ∧ (portOf t n).recvKey = none ∧ (portOf t n).ephScalar = none) ∧
    t.bn.waiting = [] ∧ t.bn.running = none ∧ ∀ b ∈ t.bn.slots, b.2.isSecret = true → b.2.valid = false ∧ b.2.value = 0 := by
  obtain ⟨u, hu⟩ : ∃ u, quenchDevice e src s = { zeroDeviceSecrets u with sec := { (zeroDeviceSecrets u).sec with state := .quenched } } :=
    ⟨_, quenchDevice_eq h e src⟩
  have hkeys := zeroDeviceSecrets_keys u
  have hlink := zeroDeviceSecrets_linkKeys u
  have hbn := zeroDeviceSecrets_bigNumbers u
  rw [← ht, hu]
  generalize zeroDeviceSecrets u = v at hkeys hlink hbn
  exact ⟨rfl, hkeys, hlink, hbn⟩

/-- The device quench (R461). -/
theorem quenchDevice_quenched {s : State} (h : s.alarm.device = false) (e : Ev) (src : QuenchSource) :
    DeviceQuenched e src s (quenchDevice e src s) := by
  have hq := quenchDevice_quenches h e src
  have hon : Frame [.alarm] s (alarmOn e src s) := by
    intro a ha
    cases a <;> first | exact (ha (by decide)).elim | rfl | exact fun _ => rfl
  have hused (p : PartIx) : p ∈ usedParts (alarmOn e src s) ↔ (partOfIx s p).state ≠ .free := mem_usedParts
  generalize ht : quenchDevice e src s = t at hq
  obtain ⟨hsec, ⟨hident, hrepair⟩, hlink, hbn⟩ := quenchDevice_secrets h ht
  exact
    { alarm := hq.frame .alarm (by decide)
      security := hsec
      identity := hident
      repairKey := hrepair
      linkKeys := hlink
      bigNumbers := hbn
      partitions := fun p hp => (hq.marked p ((hused p).2 hp)).2
      jobs := fun j hj => not_not.1 fun hp => hq.ended j hj ((hused j.part).2 hp)
      frame := (hon.mono (by decide)).trans (hq.frame.mono (by decide)) }

end Sys2Proof.Machine

namespace Sys2Proof.Machine

/-! ### The causes of a device quench -/

/-- A device quench reported of the state before its event was logged. -/
theorem DeviceQuenched.after_log {e : Ev} {src : QuenchSource} {s u t : State} (hlog : Frame logAreas s u) (h : DeviceQuenched e src u t) :
    DeviceQuenched e src s t := by
  have halarm : u.alarm = s.alarm := hlog .alarm (by decide)
  have hparts := hlog .parts (by decide)
  have hstate (p : PartIx) : (partOfIx u p).state = (partOfIx s p).state := by
    have same := congrArg Partition.state (hparts p)
    exact same
  have hcount (p : PartIx) : (partOfIx u p).quenchCount = (partOfIx s p).quenchCount := by
    have same := congrArg Partition.quenchCount (hparts p)
    exact same
  exact
    { h with
      alarm := halarm ▸ h.alarm
      partitions := fun p hp => hcount p ▸ h.partitions p (by rwa [hstate])
      jobs := fun j hj => hstate j.part ▸ h.jobs j hj
      frame := (hlog.mono (by decide)).trans h.frame }

/-- A device quench, and something sent after it. -/
theorem DeviceQuenched.then_emit {e : Ev} {src : QuenchSource} {s t : State} (h : DeviceQuenched e src s t) (o : Output) :
    DeviceQuenched e src s (emit o t) :=
  ⟨h.alarm, h.security, h.identity, h.repairKey, h.linkKeys, h.bigNumbers, h.partitions, h.jobs,
    h.frame.trans ((emit_frame o t).mono (by decide))⟩

/-- An internal cause logs its event first, and quenches the device (R461). -/
theorem deviceFail_quenched {s : State} (h : s.alarm.device = false) (e : Ev) (d : DieIx) (unit detail : Nat) :
    LoggedFirst e (evAt d none unit detail) s (deviceFail e d unit detail s) ∧
      DeviceQuenched e .internal s (deviceFail e d unit detail s) := by
  unfold deviceFail
  have hlogged : Logged e (evAt d none unit detail) s (logAt e d none unit detail s) := logEvent_logged _ _ s
  have hframe : Frame logAreas s (logAt e d none unit detail s) := logEvent_frame _ _ s
  generalize logAt e d none unit detail s = u at hlogged hframe
  have hon : u.alarm.device = false := by rw [show u.alarm = s.alarm from hframe .alarm (by decide), h]
  exact ⟨⟨u, hlogged, quenchDevice_lateOnly hon e .internal⟩, (quenchDevice_quenched hon e .internal).after_log hframe⟩

/-- An internal cause of a device quench does what R461 says. -/
theorem exists_of_deviceFail {s : State} (h : s.alarm.device = false) {r : Result} {e : Ev} {d : DieIx} {unit detail : Nat}
    (hr : r = .next (deviceFail e d unit detail s)) :
    ∃ t, r = .next t ∧ LoggedFirst e (evAt d none unit detail) s t ∧ DeviceQuenched e .internal s t :=
  ⟨_, hr, deviceFail_quenched h e d unit detail⟩

/-- A failed location is listed, and nothing else changes (R500). -/
theorem listFailure_spec (d : DieIx) (k row : Nat) (s : State) :
    (∃ b, listFailure d k row s = { s with bist := b }) ∧ (d.val, k, row) ∈ (listFailure d k row s).bist.results := by
  unfold listFailure
  dsimp only
  split
  · rename_i hlisted
    exact ⟨⟨s.bist, rfl⟩, by simpa using hlisted⟩
  · exact ⟨⟨_, rfl⟩, by simp⟩

/-- A check that fails in service lists its location and quenches the device (R469). -/
theorem checkFail_quenched {s : State} (h : s.alarm.device = false) (d : DieIx) (k : Nat) :
    let t := checkFail d k s
    LoggedFirst 0x0901 (evAt d none 0x0B (d.val + 256 * k)) s t ∧ (d.val, k, 0) ∈ t.bist.results ∧
      DeviceQuenched 0x0901 .internal { s with bist := t.bist } t := by
  unfold checkFail
  obtain ⟨⟨b, hb⟩, hlisted⟩ := listFailure_spec d k 0 s
  rw [hb] at hlisted ⊢
  obtain ⟨hlog, hquench⟩ := deviceFail_quenched (s := { s with bist := b }) h 0x0901 d 0x0B (d.val + 256 * k)
  generalize deviceFail 0x0901 d 0x0B (d.val + 256 * k) { s with bist := b } = t at hlog hquench
  have hbist : t.bist = b := hquench.frame .bist (by decide)
  exact ⟨hlog, hbist ▸ hlisted, hbist ▸ hquench⟩

/-- A WRITE of 0x5A to object 0x6100:06 by a host's PF or the BMC is answered OK after the device quench (R463, R492). -/
theorem answerReq_deviceQuench {s : State} {c : Cls} {r : FpReq} (h : s.alarm.device = false) (hfw : s.boot.fwState = 2)
    (hc : c = .host ∨ c = .bmc) (hop : r.opcode = 2) (hindex : r.index = 0x6100) (hsub : r.sub = 6) (hdata : r.data = [0x5A]) :
    answerReq .plain c r s = (.only 0, quenchDevice 0 .command s) := by
  have hrow : objOf 0x6100 6 = some ⟨0x6100, 4, 6, 2, 4, 1⟩ := by decide
  have hright : mayWrite c 0x6100 6 = true := by rcases hc with rfl | rfl <;> decide
  have hwrite : writeReq .plain c ⟨0x6100, 4, 6, 2, 4, 1⟩ r s = (.only 0, quenchDevice 0 .command s) := by
    simp [writeReq, hdata, hindex, hsub, writeObj, write6, inRange, leNat]
  have hobject : onObject .plain c ⟨0x6100, 4, 6, 2, 4, 1⟩ r s = (.only 0, quenchDevice 0 .command s) := by
    simpa [onObject, hop, hindex, hsub, hright, needsDies] using hwrite
  simpa [answerReq, h, hfw, hindex, hsub, hrow] using hobject

/-- A request that is served is answered. -/
theorem serveReq_of_served {s : State} {r : FpReq} {c : Cls} (x : Extra) (h : Served s r c) :
    serveReq x r s = respond r (answerReq x c r s).1 (answerReq x c r s).2 := by
  simp [serveReq, h.awake, h.carried, h.sound, h.cls]

/-- The command of R463 quenches the device and is answered OK. -/
theorem exec_deviceQuenchCommand {s : State} {c : Cls} {r : FpReq} (h : s.alarm.device = false) (hfw : s.boot.fwState = 2) (hserved : Served s r c)
    (hc : c = .host ∨ c = .bmc) (hop : r.opcode = 2) (hindex : r.index = 0x6100) (hsub : r.sub = 6) (hdata : r.data = [0x5A]) :
    exec (.deviceQuenchCommand r) s = .next (respond r (.only 0) (quenchDevice 0 .command s)) := by
  have hwrite : isWrite r 0x6100 6 = true := by simp [isWrite, hop, hindex, hsub]
  change execDeviceQuenchCommand r s = _
  simp only [execDeviceQuenchCommand, hwrite, if_true, serveReq_of_served _ hserved,
    answerReq_deviceQuench h hfw hc hop hindex hsub hdata]

/-- A low of QUENCH# that is too short, or seen while the part drives the pin or the image does not run, is no cause (R512). -/
theorem exec_quenchInput_ignored {s : State} {n : Nat} (h : n < 100 ∨ s.alarm.quenchLow = true ∨ s.boot.fwState ≠ 2) :
    exec (.quenchInput n) s = .next s := by
  have hcond : (n < 100 || s.alarm.quenchLow || s.boot.fwState ≠ 2) = true := by simpa [or_assoc] using h
  exact congrArg Host.Outcome.next (if_pos hcond)

/-- A low of 100 ns quenches the device, but for one of an armed pair (R409, R512). -/
theorem exec_quenchInput {s : State} {n : Nat} (hn : 100 ≤ n) (hlow : s.alarm.quenchLow = false) (hfw : s.boot.fwState = 2)
    (htwin : ¬(s.twin.state = .paired ∧ s.twin.armed = true)) : exec (.quenchInput n) s = .next (quenchDevice 0 .external s) := by
  change execQuenchInput n s = _
  simp only [execQuenchInput]
  rw [if_neg (by simp [hlow, hfw, hn]), if_neg (by simpa using htwin)]

/-- THERMTRIP raises the pin, and quenches the device where the firmware runs (R513). -/
theorem exec_thermtrip (d : DieIx) (s : State) : exec (.thermtrip d) s = .next (
    let u := { s with alarm := { s.alarm with thermtrip := true } }
    if s.boot.fwState = 2 then deviceFail 0x0703 d 0x0B 0 u else u) := rfl

/-- An error in a control structure, out of reset (R235). -/
theorem exec_controlParity {s : State} (h : s.boot.phase ≠ .off) (d : DieIx) (k : Nat) :
    exec (.controlParity d k) s = .next (deviceFail 0x0304 d (controlUnit k) k s) := by
  change execControlParity d k s = _
  simp [execControlParity, h]

/-- A commit point out of reset: a difference quenches the device, and nothing else does (R22). -/
theorem exec_anchorCompare {s : State} (h : s.boot.phase ≠ .off) (n : Nat) (a b : List Byte) :
    exec (.anchorCompare n a b) s = .next (if a = b then s else deviceFail 0x0803 0 0x0B n s) := by
  change execAnchorCompare n a b s = _
  simp [execAnchorCompare, h]

/-- A checker that does not answer, out of reset (R23). -/
theorem exec_anchorCompareTimeout {s : State} (h : s.boot.phase ≠ .off) (n : Nat) :
    exec (.anchorCompareTimeout n) s = .next (deviceFail 0x0803 0 0x0B (n + 2 ^ 31) s) := by
  change execAnchorCompareTimeout n s = _
  simp [execAnchorCompareTimeout, h]

/-- An entropy source that fails, out of reset (R428). -/
theorem exec_entropyFail {s : State} (h : s.boot.phase ≠ .off) (d : DieIx) :
    exec (.entropyFail d) s = .next (deviceFail 0x0804 d 0x0B 0 s) := by
  change execEntropyFail d s = _
  simp [execEntropyFail, h]

/-- A clock more than 2 % off nominal fails its check, and no other (R469). -/
theorem exec_clockCheck {s : State} (hfw : s.boot.fwState = 2) (d : DieIx) (ppm : Int) :
    exec (.clockCheck d ppm) s = .next (if 20000 < ppm.natAbs then checkFail d 7 s else s) := by
  change execClockCheck d ppm s = _
  simp [execClockCheck, hfw]

/-- A supply more than 1.5 % off fails its check, and no other (R469). -/
theorem exec_supplyCheck {s : State} (hfw : s.boot.fwState = 2) (d : DieIx) (x : Nat) :
    exec (.supplyCheck d x) s = .next (if 150 < x then checkFail d 9 s else s) := by
  change execSupplyCheck d x s = _
  simp [execSupplyCheck, hfw]

/-- Settles O7: each internal cause runs `deviceFail` or `checkFail`, the command and QUENCH# run `quenchDevice`. -/
theorem deviceQuenchCauses : Obligations.DeviceQuenchCauses := by
  intro s hon
  refine ⟨fun d hfw => ?thermtrip, fun d hfw => ?earlyThermtrip,
    fun hphase => ⟨fun d k => ?controlParity, fun n a b hab => ?anchorsDiffer, fun n a => ?anchorsAgree, fun n => ?anchorTimeout,
      fun d => ?entropy⟩,
    fun hfw => ⟨fun d ppm hppm => ?clock, fun d ppm hppm => ?clockGood, fun d x hx => ?supply, fun d x hx => ?supplyGood,
      fun n hn hlow htwin => ?quenchInput, fun r c hserved hc hop hindex hsub hdata => ?command⟩,
    fun n hn => exec_quenchInput_ignored hn⟩
  case thermtrip =>
    rw [exec_thermtrip, if_pos hfw]
    exact exists_of_deviceFail (s := { s with alarm := { s.alarm with thermtrip := true } }) hon rfl
  case earlyThermtrip =>
    rw [exec_thermtrip, if_neg hfw]
    refine ⟨_, rfl, rfl, fun a ha => ?_⟩
    cases a <;> first | exact (ha (by decide)).elim | rfl | exact fun _ => rfl
  case controlParity => exact exists_of_deviceFail hon (exec_controlParity hphase d k)
  case anchorsDiffer => exact exists_of_deviceFail hon ((exec_anchorCompare hphase n a b).trans (by rw [if_neg hab]))
  case anchorsAgree => rw [exec_anchorCompare hphase, if_pos rfl]
  case anchorTimeout => exact exists_of_deviceFail hon (exec_anchorCompareTimeout hphase n)
  case entropy => exact exists_of_deviceFail hon (exec_entropyFail hphase d)
  case clock => exact ⟨_, by rw [exec_clockCheck hfw, if_pos hppm], checkFail_quenched hon d 7⟩
  case clockGood => rw [exec_clockCheck hfw, if_neg hppm.not_gt]
  case supply => exact ⟨_, by rw [exec_supplyCheck hfw, if_pos hx], checkFail_quenched hon d 9⟩
  case supplyGood => rw [exec_supplyCheck hfw, if_neg hx.not_gt]
  case quenchInput =>
    exact ⟨_, exec_quenchInput hn hlow hfw htwin, quenchDevice_lateOnly hon 0 .external, quenchDevice_quenched hon 0 .external⟩
  case command =>
    exact ⟨_, exec_deviceQuenchCommand hon hfw hserved hc hop hindex hsub hdata, quenchDevice_lateOnly hon 0 .command,
      (quenchDevice_quenched hon 0 .command).then_emit _⟩

end Sys2Proof.Machine

namespace Sys2Proof.Machine

/-! ### SYNC_IN and free run -/

/-- An edge is ignored, and not even counted, while SYNC_IN is disabled or the firmware image does not run (R329, R514). -/
theorem exec_syncInEdge_inert {s : State} (h : s.hearth.syncIn = false ∨ s.boot.fwState ≠ 2) (off : Int) (since : Nat) :
    exec (.syncInEdge off since) s = .next s := by
  change execSyncInEdge off since s = _
  obtain hoff | hfw := h
  · simp [execSyncInEdge, hoff]
  · simp [execSyncInEdge, hfw]

/-- An edge that SYNC_IN takes in restarts the count and ends free run where it is accepted, and is counted where it is not (R329, R330). -/
theorem exec_syncInEdge {s : State} (hin : s.hearth.syncIn = true) (hfw : s.boot.fwState = 2) (off : Int) (since : Nat) :
    exec (.syncInEdge off since) s = .next (
      if s.hearth.freeRun = true ∨ (4 * off.natAbs ≤ s.hearth.period * 1000 ∧ 20000 ≤ since) then
        updHearth (fun h => { h with freeRun := false, sinceEdge := 0 }) (if off < 0 ∧ serving s = true then boundary s else s)
      else updHearth (fun h => { h with ignored := h.ignored + 1 }) s) := by
  change execSyncInEdge off since s = _
  simp [execSyncInEdge, hin, hfw]

/-- A boundary of a part that serves is counted, and its jobs are admitted (R324, R328). -/
theorem exec_admissionBoundary {s : State} (h : serving s = true) : exec .admissionBoundary s = .next (boundary s) := by
  change execAdmissionBoundary s = _
  simp [execAdmissionBoundary, h]

/-- Eight periods without an accepted edge begin free run, and log it (R330). -/
theorem exec_syncFreeRun {s : State} (hrun : s.hearth.freeRun = false) (hlate : 8 ≤ s.hearth.sinceEdge) :
    exec .syncFreeRun s = .next (logAt 0x0705 0 none 0x0B 0 (updHearth (fun h => { h with freeRun := true }) s)) := by
  change execSyncFreeRun s = _
  simp [execSyncFreeRun, hrun, hlate.not_gt]

/-- A change of the hearth touches no other area. -/
theorem updHearth_frame (f : Hearth → Hearth) (s : State) : Frame [.hearth] s (updHearth f s) := by
  intro a ha
  cases a <;> first | exact (ha (by decide)).elim | rfl | exact fun _ => rfl

/-- An event logged after a change of the hearth that keeps the boundary count carries the count from before it (R464). -/
theorem logAt_updHearth_logged {f : Hearth → Hearth} {s : State} (hf : (f s.hearth).boundaries = s.hearth.boundaries) (e : Ev) (d : DieIx)
    (part : Option PartIx) (unit detail : Nat) :
    Logged e (evAt d part unit detail) s (logAt e d part unit detail (updHearth f s)) := by
  obtain ⟨hseq, time, hentries⟩ := logEvent_logged e (evAt d part unit detail) (updHearth f s)
  have hcount : (updHearth f s).hearth.boundaries = s.hearth.boundaries := hf
  rw [hcount] at hentries
  exact ⟨hseq, time, hentries⟩

/-- Settles O11: an accepted edge that is late only restarts the count, an early one runs `boundary` first, as ADMISSION_BOUNDARY does. -/
theorem syncEdges : Obligations.SyncEdges := by
  intro s off since
  refine ⟨fun hin hfw => ⟨fun hacc => ⟨fun hlate => ?late, fun hearly hserve => ?early⟩, fun hrun hout => ?counted⟩,
    fun hinert => exec_syncInEdge_inert hinert off since, fun hrun hlate => ?freeRun⟩
  case late =>
    have hno : ¬(off < 0 ∧ serving s = true) := fun ⟨hneg, hserve⟩ => hlate.elim (fun h => h.not_gt hneg) (by simp [hserve])
    rw [exec_syncInEdge hin hfw, if_pos hacc, if_neg hno]
    rfl
  case early =>
    refine ⟨boundary s, exec_admissionBoundary hserve, ?_⟩
    rw [exec_syncInEdge hin hfw, if_pos hacc, if_pos ⟨hearly, hserve⟩]
    rfl
  case counted =>
    have hno : ¬(s.hearth.freeRun = true ∨ (4 * off.natAbs ≤ s.hearth.period * 1000 ∧ 20000 ≤ since)) := by
      rintro (hfree | ⟨hnear, hspaced⟩)
      · simp [hrun] at hfree
      · omega
    rw [exec_syncInEdge hin hfw, if_neg hno]
    rfl
  case freeRun =>
    have hframe := logEvent_frame 0x0705 (evAt 0 none 0x0B 0) (updHearth (fun h => { h with freeRun := true }) s)
    exact ⟨_, exec_syncFreeRun hrun hlate, hframe .hearth (by decide), logAt_updHearth_logged rfl ..,
      ((updHearth_frame _ s).mono (by decide)).trans (hframe.mono (by decide))⟩

end Sys2Proof.Machine

namespace Sys2Proof.Machine

/-! ### The modular inverse -/

/-- Euclid on two remainders, the second not the larger, ends with their greatest common divisor: their product halves in every step, so the fuel
`f` suffices where it is below `2 ^ f`. -/
theorem egcdGo_fst {f r0 r1 : Nat} (hle : r1 ≤ r0) (hf : r0 * r1 < 2 ^ f) (s0 s1 : Int) : (egcdGo f r0 r1 s0 s1).1 = Nat.gcd r0 r1 := by
  induction f generalizing r0 r1 s0 s1 with
  | zero =>
    have hr : r1 = 0 := by
      obtain h | h := Nat.mul_eq_zero.1 (Nat.lt_one_iff.1 hf)
      · omega
      · exact h
    simp [egcdGo, hr]
  | succ f ih =>
    by_cases hr : r1 = 0
    · simp [egcdGo, hr]
    · have hlt : r0 % r1 < r1 := Nat.mod_lt _ (by omega)
      have hhalf : 2 * (r0 % r1) ≤ r0 := by
        have := Nat.div_add_mod r0 r1
        have := Nat.le_mul_of_pos_right r1 (Nat.div_pos hle (by omega))
        omega
      have hfuel : r1 * (r0 % r1) < 2 ^ f := by
        have := Nat.mul_le_mul_right r1 hhalf
        rw [pow_succ] at hf
        linarith
      have hgo := ih hlt.le hfuel s1 (s0 - r0 / r1 * s1)
      rw [Nat.gcd_comm, Nat.gcd_rec, Nat.gcd_comm, ← hgo]
      simp [egcdGo, hr]

/-- Each remainder of Euclid is its coefficient times `a`, modulo `m`. -/
theorem egcdGo_modEq {a m : Int} {f : Nat} {r0 r1 s0 s1 : Int} (h0 : r0 ≡ s0 * a [ZMOD m]) (h1 : r1 ≡ s1 * a [ZMOD m]) :
    (egcdGo f r0 r1 s0 s1).1 ≡ (egcdGo f r0 r1 s0 s1).2 * a [ZMOD m] := by
  induction f generalizing r0 r1 s0 s1 with
  | zero => exact h0
  | succ f ih =>
    by_cases hr : r1 = 0
    · simpa [egcdGo, hr] using h0
    · have hstep : r0 % r1 ≡ (s0 - r0 / r1 * s1) * a [ZMOD m] := by
        have := h0.sub (h1.mul_left (r0 / r1))
        rw [Int.emod_def, mul_comm r1]
        convert this using 1
        ring
      simpa [egcdGo, hr] using ih h1 hstep

/-- The run of Euclid that `modInv?` reads. -/
def inverseRun (a m : Nat) : Int × Int := egcdGo (2 * (Nat.log2 m + Nat.log2 a) + 8) (a % m : Nat) m 1 0

theorem modInv?_eq {a m : Nat} (hm : 2 ≤ m) :
    modInv? a m = if (inverseRun a m).1 = 1 then some ((inverseRun a m).2 % m).toNat else none :=
  if_congr (or_iff_left (by omega)) rfl rfl

theorem inverseRun_fst {a m : Nat} (ha : a < m) : (inverseRun a m).1 = Nat.gcd a m := by
  have hm : m ≠ 0 := by omega
  have hfuel : m * a < 2 ^ (2 * (Nat.log2 m + Nat.log2 a) + 7) := calc
    m * a < 2 ^ (Nat.log2 m + 1) * 2 ^ (Nat.log2 a + 1) := Nat.mul_lt_mul'' Nat.lt_log2_self Nat.lt_log2_self
    _ = 2 ^ (Nat.log2 m + 1 + (Nat.log2 a + 1)) := (pow_add ..).symm
    _ ≤ _ := Nat.pow_le_pow_right (by omega) (by omega)
  have hswap : inverseRun a m = egcdGo (2 * (Nat.log2 m + Nat.log2 a) + 7) m a 0 (1 - (a / m : Int) * 0) := by
    have hmod : (a : Int) % m = a := Int.emod_eq_of_lt (by omega) (by omega)
    simp only [inverseRun, Nat.mod_eq_of_lt ha]
    rw [egcdGo, if_neg (by omega), hmod]
  rw [hswap, egcdGo_fst ha.le hfuel, Nat.gcd_comm]

/-- What shares no factor with the modulus has an inverse below it, and `modInv?` is one. -/
theorem modInv?_of_coprime {a m : Nat} (hm : 2 ≤ m) (ha : a < m) (hgcd : Nat.gcd a m = 1) :
    ∃ i < m, modInv? a m = some i ∧ a * i % m = 1 := by
  have hfst : (inverseRun a m).1 = 1 := by rw [inverseRun_fst ha, hgcd]; rfl
  have hmod : (inverseRun a m).1 ≡ (inverseRun a m).2 * a [ZMOD m] :=
    egcdGo_modEq (by simp [Nat.mod_eq_of_lt ha]) (by simp [Int.ModEq])
  have hpos : (0 : Int) < m := by omega
  have hcast : (((inverseRun a m).2 % m).toNat : Int) = (inverseRun a m).2 % m := Int.toNat_of_nonneg (Int.emod_nonneg _ hpos.ne')
  refine ⟨((inverseRun a m).2 % m).toNat, ?_, by rw [modInv?_eq hm, if_pos hfst], ?_⟩
  · have := Int.emod_lt_of_pos (inverseRun a m).2 hpos
    omega
  · rw [hfst] at hmod
    have hone : (a * ((inverseRun a m).2 % m)) % m = (1 : Int) := by
      rw [Int.mul_emod, Int.emod_emod, ← Int.mul_emod, mul_comm, ← hmod, Int.emod_eq_of_lt (by omega) (by omega)]
    rw [← hcast] at hone
    exact_mod_cast hone

/-- What shares a factor with the modulus has none (R446). -/
theorem modInv?_of_not_coprime {a m : Nat} (hm : 2 ≤ m) (ha : a < m) (hgcd : Nat.gcd a m ≠ 1) : modInv? a m = none := by
  rw [modInv?_eq hm, if_neg]
  rw [inverseRun_fst ha]
  exact_mod_cast hgcd

end Sys2Proof.Machine

namespace Sys2Proof.Machine

/-! ### Big-number slots (R443) -/

/-- A slot is read from the slot table alone. -/
theorem slotAt_congr {s t : State} (h : t.bn.slots = s.bn.slots) (p : PartIx) (k : Nat) : slotAt t p k = slotAt s p k := by
  simp [slotAt, h]

/-- Slots of partitions do not overlap: each partition has its own 16. -/
theorem slotKey_inj {p q : PartIx} {k i : Nat} (hk : k < 16) (hi : i < 16) (h : p.val * 16 + k = q.val * 16 + i) : p = q ∧ k = i :=
  ⟨Fin.ext (by omega), by omega⟩

/-- A slot after a change of it. -/
theorem slotAt_updSlot_self (p : PartIx) {k : Nat} (hk : k < 16) (f : BnSlot → BnSlot) (s : State) :
    slotAt (updSlot p k f s) p k = f (slotAt s p k) := by
  simp [updSlot, hk, slotAt]

/-- Another slot after a change of one. -/
theorem slotAt_updSlot_ne {p q : PartIx} {k i : Nat} (f : BnSlot → BnSlot) (s : State) (h : q ≠ p ∨ i ≠ k) :
    slotAt (updSlot p k f s) q i = slotAt s q i := by
  by_cases hk : k < 16
  · by_cases hi : i < 16
    · have hkey : q.val * 16 + i ≠ p.val * 16 + k := fun heq => by
        obtain ⟨hp, hik⟩ := slotKey_inj hi hk heq
        exact h.elim (· hp) (· hik)
      simp [updSlot, slotAt, hk, hi, hkey]
    · simp [slotAt, hi]
  · simp [updSlot, hk]

/-- A change of the engine pair touches no other area. -/
theorem bn_frame (b : Bn) (s : State) : Frame [.bn] s { s with bn := b } := by
  intro a ha
  cases a <;> first | exact (ha (by decide)).elim | rfl | exact fun _ => rfl

/-- Write results to slots of a partition, each of which becomes valid (R445). -/
def writeSlots (p : PartIx) (ws : List (Nat × Nat)) (s : State) : State :=
  ws.foldl (fun s w => updSlot p w.1 (fun x => { x with value := w.2, valid := true }) s) s

/-- In `t`, slot `k` of partition `p` holds `y` and is valid; its length and mark are those that it has in `s` (R443). -/
def SlotHolds (s : State) (p : PartIx) (k y : Nat) (t : State) : Prop := slotAt t p k = { slotAt s p k with value := y, valid := true }

/-- A change of a slot changes the slot table alone. -/
theorem updSlot_eq (p : PartIx) (k : Nat) (f : BnSlot → BnSlot) (s : State) : ∃ b, updSlot p k f s = { s with bn := { s.bn with slots := b } } := by
  unfold updSlot
  split <;> exact ⟨_, rfl⟩

/-- Writing results changes the slot table alone. -/
theorem writeSlots_eq (p : PartIx) (ws : List (Nat × Nat)) (s : State) : ∃ b, writeSlots p ws s = { s with bn := { s.bn with slots := b } } := by
  induction ws generalizing s with
  | nil => exact ⟨_, rfl⟩
  | cons w ws ih =>
    obtain ⟨b, hb⟩ := updSlot_eq p w.1 (fun x => { x with value := w.2, valid := true }) s
    obtain ⟨b', hb'⟩ := ih (updSlot p w.1 (fun x => { x with value := w.2, valid := true }) s)
    exact ⟨b', hb'.trans (by rw [hb])⟩

theorem writeSlots_frame (p : PartIx) (ws : List (Nat × Nat)) (s : State) : Frame [.bn] s (writeSlots p ws s) := by
  obtain ⟨b, h⟩ := writeSlots_eq p ws s
  rw [h]
  exact bn_frame _ s

@[simp] theorem writeSlots_waiting (p : PartIx) (ws : List (Nat × Nat)) (s : State) : (writeSlots p ws s).bn.waiting = s.bn.waiting := by
  obtain ⟨b, h⟩ := writeSlots_eq p ws s
  rw [h]

@[simp] theorem writeSlots_running (p : PartIx) (ws : List (Nat × Nat)) (s : State) : (writeSlots p ws s).bn.running = s.bn.running := by
  obtain ⟨b, h⟩ := writeSlots_eq p ws s
  rw [h]

/-- A slot that no result goes to. -/
theorem slotAt_writeSlots_ne {p q : PartIx} {k : Nat} {ws : List (Nat × Nat)} (s : State) (h : q ≠ p ∨ k ∉ ws.map Prod.fst) :
    slotAt (writeSlots p ws s) q k = slotAt s q k := by
  induction ws generalizing s with
  | nil => rfl
  | cons w ws ih =>
    have hhead : q ≠ p ∨ k ≠ w.1 := h.imp_right fun hk hw => hk (by simp [hw])
    have htail : q ≠ p ∨ k ∉ ws.map Prod.fst := h.imp_right fun hk hw => hk (List.mem_cons_of_mem _ hw)
    exact (ih _ htail).trans (slotAt_updSlot_ne _ s hhead)

/-- Every result stands in its slot, where no two go to one slot. -/
theorem slotHolds_writeSlots {p : PartIx} {ws : List (Nat × Nat)} (hnodup : (ws.map Prod.fst).Nodup) (hslots : ∀ k ∈ ws.map Prod.fst, k < 16)
    (s : State) : ∀ w ∈ ws, SlotHolds s p w.1 w.2 (writeSlots p ws s) := by
  induction ws generalizing s with
  | nil => simp
  | cons w ws ih =>
    obtain ⟨hw, hws⟩ := List.nodup_cons.1 hnodup
    intro x hx
    obtain rfl | hx := List.mem_cons.1 hx
    · exact (slotAt_writeSlots_ne _ (.inr hw)).trans (slotAt_updSlot_self p (hslots _ (by simp)) _ s)
    · have hne : x.1 ≠ w.1 := fun heq => hw (heq ▸ List.mem_map_of_mem hx)
      have hold := ih hws (fun k hk => hslots k (List.mem_cons_of_mem _ hk)) (updSlot p w.1 (fun y => { y with value := w.2, valid := true }) s) x hx
      exact hold.trans (by rw [slotAt_updSlot_ne _ s (.inr hne)])

/-- The entry at a key after a change of it. -/
theorem tblGet_tblMod_self {α : Type} (t : Tbl α) (a : Nat) (f : α → α) : tblGet (tblMod t a f) a = (tblGet t a).map f := by
  induction t with
  | nil => rfl
  | cons e t ih =>
    obtain ⟨k, v⟩ := e
    by_cases hk : k = a
    · simp [tblMod, tblGet, hk]
    · simpa [tblMod, tblGet, hk] using ih

/-- A poisoned slot is zero and not valid (R447). -/
theorem slotAt_poisonDest_self (e : Ev) (p : PartIx) (k : Nat) (s : State) :
    slotAt (poisonDest e (.bnSlot p k) s) p k = { slotAt s p k with value := 0, valid := false } := by
  by_cases hk : k < 16
  · simp only [slotAt, hk, if_true, poisonDest, tblGetD, tblGet_tblMod_self]
    cases tblGet s.bn.slots (p.val * 16 + k) <;> rfl
  · simp [slotAt, hk, BnSlot.zero]

/-! ### The queue of the engine pair (R451) -/

/-- A free engine that takes a command changes the engine pair alone, and no slot. -/
theorem bnNext_eq (s : State) : ∃ w r, bnNext s = { s with bn := { s.bn with waiting := w, running := r } } := by
  unfold bnNext
  split
  · exact ⟨_, _, rfl⟩
  · split <;> exact ⟨_, _, rfl⟩

theorem bnNext_frame (s : State) : Frame [.bn] s (bnNext s) := by
  obtain ⟨w, r, h⟩ := bnNext_eq s
  rw [h]
  exact bn_frame _ s

@[simp] theorem bnNext_slots (s : State) : (bnNext s).bn.slots = s.bn.slots := by
  obtain ⟨w, r, h⟩ := bnNext_eq s
  rw [h]

@[simp] theorem bnNext_scalarOf (s : State) (d : DieIx) (r : Nat) : scalarOf (bnNext s) d r = scalarOf s d r := by
  obtain ⟨w, x, h⟩ := bnNext_eq s
  rw [h]
  rfl

/-- A running command stays, and none is taken. -/
theorem bnNext_of_running {s : State} (h : s.bn.running.isSome = true) : bnNext s = s := by simp [bnNext, h]

/-- Where none waits, none is taken. -/
theorem bnNext_of_waiting_nil {s : State} (h : s.bn.waiting = []) : bnNext s = s := by simp [bnNext, bnPick, h]

/-- The one command of a job that waits starts. -/
theorem bnNext_of_waiting_single {s : State} {c : BnCmd} (hrun : s.bn.running = none) (hwait : s.bn.waiting = [c]) :
    bnNext s = { s with bn := { s.bn with running := some c, waiting := [] } } := by
  by_cases hc : c.part.isNone = true <;> simp [bnNext, bnPick, hrun, hwait, hc]

/-- Of two commands of jobs that wait the second starts only where less of it remains. -/
theorem bnNext_of_waiting_pair {s : State} {c x : BnCmd} (hrun : s.bn.running = none) (hwait : s.bn.waiting = [c, x]) (hc : c.part ≠ none)
    (hx : x.part ≠ none) (hle : c.remaining ≤ x.remaining) : bnNext s = { s with bn := { s.bn with running := some c, waiting := [x] } } := by
  simp [bnNext, bnPick, hrun, hwait, hc, hx, hle.not_gt]

/-! ### Events of a job -/

theorem logJob_frame (e : Ev) (j : Job) (a : Site) (unit detail : Nat) (skip : Bool) (s : State) :
    Frame (logAreas ++ [.jobs]) s (logJob e j a unit detail skip s) :=
  ((logEvent_frame e (evJob j a unit detail skip) s).mono (by decide)).trans ((updJob_frame _ _ _).mono (by decide))

theorem logJob_logged (e : Ev) (j : Job) (a : Site) (unit detail : Nat) (skip : Bool) (s : State) :
    Logged e (evJob j a unit detail skip) s (logJob e j a unit detail skip s) := logEvent_logged e (evJob j a unit detail skip) s

/-- An event that is logged after work that keeps the log and the hearth, and before work that keeps the log. -/
theorem Logged.between {e : Ev} {a : EvArgs} {ws vs : List Area} {s t u v : State} (h : Logged e a t u) (hst : Frame ws s t) (huv : Frame vs u v)
    (hws : Area.log ∉ ws ∧ Area.hearth ∉ ws) (hvs : Area.log ∉ vs) : Logged e a s v := by
  have hlog : t.log = s.log := hst .log hws.1
  have hhearth : t.hearth = s.hearth := hst .hearth hws.2
  have hlate : v.log = u.log := huv .log hvs
  unfold Logged at h ⊢
  rwa [hlate, ← hlog, ← hhearth]

/-- A scalar register where the dies are the same but for their counters. -/
theorem scalarOf_of_same {s t : State} (h : Same s t .dies) (d : DieIx) (r : Nat) : scalarOf t d r = scalarOf s d r := by
  have hscalars : (dieOf t d).scalars = (dieOf s d).scalars := by
    have same := congrArg Die.scalars (h d)
    exact same
  simp [scalarOf, hscalars]

/-! ### The end of a big-number command (R445 to R449) -/

/-- Command `c` of job `j` runs on the engine pair. -/
structure BnRuns (s : State) (c : BnCmd) (j : Job) : Prop where
  running : s.bn.running = some c
  part : c.part = some j.part
  job : jobOf s c.job = some j

/-- The random draw of a command, where it makes one, and the state after it (R430). -/
def bnDrawn (c : BnCmd) (p : PartIx) (s : State) : Nat × State :=
  if bnDraws c.instr then freeBelow (2 ^ (64 * (bnLen s p c.instr + 1))) (updDie c.at_.die (fun x => { x with drbgOn := true }) s) else (0, s)

theorem bnDrawn_frame (c : BnCmd) (p : PartIx) (s : State) : Frame [.dies, .free] s (bnDrawn c p s).2 := by
  unfold bnDrawn
  split
  · refine ((updDie_frame_dies c.at_.die (fun x => { x with drbgOn := true }) s rfl).mono (by decide)).trans fun a ha => ?_
    cases a <;> first | exact (ha (by decide)).elim | rfl | exact fun _ => rfl
  · exact .refl _ s

@[simp] theorem bnDrawn_bn (c : BnCmd) (p : PartIx) (s : State) : (bnDrawn c p s).2.bn = s.bn := bnDrawn_frame c p s .bn (by decide)

theorem bnDrawn_scalarOf (c : BnCmd) (p : PartIx) (s : State) (d : DieIx) (r : Nat) : scalarOf (bnDrawn c p s).2 d r = scalarOf s d r := by
  have hdie (f : DieIx) : (dieOf (bnDrawn c p s).2 f).scalars = (dieOf s f).scalars := by
    unfold bnDrawn
    split
    · change (dieOf (updDie c.at_.die (fun x => { x with drbgOn := true }) s) f).scalars = _
      by_cases hf : f = c.at_.die
      · simp [hf]
      · simp [hf]
    · rfl
  simp [scalarOf, hdie]

/-- Results with a status: the slots, the status register, and the event of a status that is not 0 (R445, R448, R449). -/
def bnWrite (c : BnCmd) (j : Job) (sc : Nat) (ws : List (Nat × Nat)) (e : Ev) (s : State) : State :=
  let t := putScalar c.at_.die sc e.toNat (writeSlots j.part ws s)
  if e = 0 then t else logJob e j c.at_ 0x0E 0 false t

/-- How a command ends in a state, given its result. -/
def bnEnd (c : BnCmd) (j : Job) : BnEnd → State → State
  | .good ws e, s =>
    let t := writeSlots j.part ws s
    let t := match bnStatus c.instr with | some sc => putScalar c.at_.die sc e.toNat t | none => t
    if e = 0 then t else logJob e j c.at_ 0x0E 0 false t
  | .reject e, s => skipBn e c.instr j c.at_ s

/-- A command ends after its draw, by its result on the slots. -/
theorem bnFinish_eq (c : BnCmd) (j : Job) (s : State) : bnFinish c j.part j s =
    bnEnd c j (bnResult (fun k => (slotAt s j.part k).value) (bnDrawn c j.part s).1 c.instr) (bnDrawn c j.part s).2 := by
  have hslots := slotAt_congr (congrArg Bn.slots (bnDrawn_bn c j.part s)) j.part
  simp only [← hslots]
  unfold bnFinish bnDrawn
  cases bnDraws c.instr
  all_goals
    simp only [if_true, Bool.false_eq_true, if_false]
    generalize bnResult _ _ c.instr = o
    cases o <;> rfl

/-- A good result with a status register is written. -/
theorem bnEnd_good {c : BnCmd} {sc : Nat} (hstatus : bnStatus c.instr = some sc) (j : Job) (ws : List (Nat × Nat)) (e : Ev) (s : State) :
    bnEnd c j (.good ws e) s = bnWrite c j sc ws e s := by
  simp only [bnEnd, hstatus]
  rfl

/-- The state with the engine pair free. -/
def bnIdle (s : State) : State := { s with bn := { s.bn with running := none } }

/-- BN_COMPLETE frees the engine, the running command ends by its result, and the next one starts. -/
theorem exec_bnComplete {s : State} {c : BnCmd} {j : Job} (h : BnRuns s c j) :
    exec .bnComplete s = .next (bnNext (bnEnd c j
      (bnResult (fun k => (slotAt s j.part k).value) (bnDrawn c j.part (bnIdle s)).1 c.instr) (bnDrawn c j.part (bnIdle s)).2)) := by
  have hjob : jobOf { s with bn := { s.bn with running := none } } c.job = some j := h.job
  change execBnComplete s = .next (bnNext (bnEnd c j (bnResult (fun k => (slotAt (bnIdle s) j.part k).value) _ _) _))
  rw [← bnFinish_eq]
  simp only [execBnComplete, h.running, h.part, hjob]
  rfl

section
variable (c : BnCmd) (j : Job) (sc : Nat) (ws : List (Nat × Nat)) (e : Ev) (s : State)

/-- Before its event is logged, a result touches slots and a scalar register. -/
theorem putScalar_writeSlots_frame : Frame [.bn, .dies] s (putScalar c.at_.die sc e.toNat (writeSlots j.part ws s)) :=
  ((writeSlots_frame j.part ws s).mono (by decide)).trans ((putScalar_frame _ _ _ _).mono (by decide))

theorem bnWrite_bn : (bnWrite c j sc ws e s).bn = (writeSlots j.part ws s).bn := by
  unfold bnWrite
  split
  · rfl
  · exact logJob_frame e j c.at_ 0x0E 0 false _ .bn (by decide)

theorem bnWrite_scalarOf (d : DieIx) (r : Nat) :
    scalarOf (bnWrite c j sc ws e s) d r = scalarOf (putScalar c.at_.die sc e.toNat (writeSlots j.part ws s)) d r := by
  unfold bnWrite
  split
  · rfl
  · exact scalarOf_of_same (logJob_frame e j c.at_ 0x0E 0 false _ .dies (by decide)) d r

theorem bnWrite_status : scalarOf (bnWrite c j sc ws e s) c.at_.die sc = e.toNat := by
  rw [bnWrite_scalarOf, scalarOf_putScalar_self]
  exact Nat.mod_eq_of_lt (e.isLt.trans (by norm_num))

theorem bnWrite_scalarOf_ne {r : Nat} (hr : r ≠ sc) : scalarOf (bnWrite c j sc ws e s) c.at_.die r = scalarOf s c.at_.die r := by
  rw [bnWrite_scalarOf, scalarOf_putScalar_ne _ _ _ hr]
  exact scalarOf_of_same (writeSlots_frame j.part ws s .dies (by decide)) _ _

/-- A status of 0 logs nothing. -/
theorem bnWrite_frame_of_zero (he : e = 0) : Frame [.bn, .dies] s (bnWrite c j sc ws e s) := by
  unfold bnWrite
  rw [if_pos he]
  exact putScalar_writeSlots_frame c j sc ws e s

/-- Any other status is logged as an event of the job. -/
theorem bnWrite_logged (he : e ≠ 0) : Logged e (evJob j c.at_ 0x0E 0 false) s (bnWrite c j sc ws e s) ∧
    Frame (logAreas ++ [.bn, .dies, .jobs]) s (bnWrite c j sc ws e s) := by
  unfold bnWrite
  rw [if_neg he]
  have hbefore := putScalar_writeSlots_frame c j sc ws e s
  exact ⟨(logJob_logged ..).between hbefore (.refl [] _) (by decide) (by decide),
    (hbefore.mono (by decide)).trans ((logJob_frame e j c.at_ 0x0E 0 false _).mono (by decide))⟩

end

/-- What BN_COMPLETE does of a command whose result is good: `f` of the state after it, status `e` in scalar register `sc`, the event where there is
one, and nothing written but the slots `dsts` of its partition and the register. -/
def BnEnds (s : State) (c : BnCmd) (j : Job) (dsts : List Nat) (sc : Nat) (e : Ev) (f : State → Prop) : Prop :=
  (∀ k ∈ dsts, k < 16) → ∃ t, exec .bnComplete s = .next t ∧ f t ∧
    scalarOf t c.at_.die sc = e.toNat ∧ (∀ r, r ≠ sc → scalarOf t c.at_.die r = scalarOf s c.at_.die r) ∧
    (∀ p k, p ≠ j.part ∨ k ∉ dsts → slotAt t p k = slotAt s p k) ∧ (s.bn.waiting = [] → t.bn.running = none) ∧
    (e = 0 → Frame [.bn, .dies, .free] s t) ∧
    (e ≠ 0 → Logged e (evJob j c.at_ 0x0E 0 false) s t ∧ Frame (logAreas ++ [.bn, .dies, .jobs]) s t)

/-- A running command ends as its result says, whatever it draws. -/
theorem bnEnds_of_result {s : State} {c : BnCmd} {j : Job} {dsts : List Nat} {sc : Nat} {e : Ev} {f : State → Prop} (h : BnRuns s c j)
    (hstatus : bnStatus c.instr = some sc) (hnodup : dsts.Nodup)
    (hres : ∀ r, ∃ ws, bnResult (fun k => (slotAt s j.part k).value) r c.instr = .good ws e ∧ ws.map Prod.fst = dsts ∧
      ∀ t, (∀ w ∈ ws, SlotHolds s j.part w.1 w.2 t) → f t) : BnEnds s c j dsts sc e f := by
  intro hslots
  have hidle : Frame [.bn] s (bnIdle s) := bn_frame _ s
  obtain ⟨ws, hws, rfl, hf⟩ := hres (bnDrawn c j.part (bnIdle s)).1
  have hdrawn := bnDrawn_frame c j.part (bnIdle s)
  have hbn : (bnDrawn c j.part (bnIdle s)).2.bn = (bnIdle s).bn := bnDrawn_bn c j.part (bnIdle s)
  have hscalars := bnDrawn_scalarOf c j.part (bnIdle s) c.at_.die
  have hexec : exec .bnComplete s = .next (bnNext (bnWrite c j sc ws e (bnDrawn c j.part (bnIdle s)).2)) := by
    rw [exec_bnComplete h, hws, bnEnd_good hstatus]
  generalize (bnDrawn c j.part (bnIdle s)).2 = u at hdrawn hbn hscalars hexec
  have hsu : Frame [.bn, .dies, .free] s u := (hidle.mono (by decide)).trans (hdrawn.mono (by decide))
  have hnext := bnNext_frame (bnWrite c j sc ws e u)
  have hslotsT (p : PartIx) (k : Nat) : slotAt (bnNext (bnWrite c j sc ws e u)) p k = slotAt (writeSlots j.part ws u) p k :=
    slotAt_congr (by rw [bnNext_slots, bnWrite_bn]) p k
  have hslotsU (p : PartIx) (k : Nat) : slotAt u p k = slotAt s p k := slotAt_congr (congrArg Bn.slots hbn) p k
  refine ⟨_, hexec, hf _ fun w hw => ?_, ?_, fun r hr => ?_, fun p k hk => ?_, fun hwait => ?_, fun he => ?_, fun he => ?_⟩
  · unfold SlotHolds
    rw [hslotsT, ← hslotsU]
    exact slotHolds_writeSlots hnodup hslots u w hw
  · rw [bnNext_scalarOf, bnWrite_status]
  · rw [bnNext_scalarOf, bnWrite_scalarOf_ne _ _ _ _ _ _ hr]
    exact hscalars r
  · rw [hslotsT, slotAt_writeSlots_ne _ hk, hslotsU]
  · have hwaitU : (bnWrite c j sc ws e u).bn.waiting = [] := by rw [bnWrite_bn, writeSlots_waiting, hbn]; exact hwait
    rw [bnNext_of_waiting_nil hwaitU, bnWrite_bn, writeSlots_running, hbn]
    rfl
  · exact (hsu.trans ((bnWrite_frame_of_zero c j sc ws e u he).mono (by decide))).trans (hnext.mono (by decide))
  · obtain ⟨hlogged, hframe⟩ := bnWrite_logged c j sc ws e u he
    exact ⟨hlogged.between hsu hnext (by decide) (by decide), ((hsu.mono (by decide)).trans hframe).trans (hnext.mono (by decide))⟩

/-- A running command with one result that draws nothing, or does not use what it draws. -/
theorem bnEnds_of_single_result {s : State} {c : BnCmd} {j : Job} {x y sc : Nat} {e : Ev} (h : BnRuns s c j) (hstatus : bnStatus c.instr = some sc)
    (hres : ∀ r, bnResult (fun k => (slotAt s j.part k).value) r c.instr = .good [(x, y)] e) :
    BnEnds s c j [x] sc e (SlotHolds s j.part x y) :=
  bnEnds_of_result h hstatus (List.nodup_singleton x) fun r => ⟨_, hres r, rfl, fun _ ht => ht _ (List.mem_singleton_self _)⟩

/-- A skipped command with one destination slot: the slot zero and not valid, the status the event, which is logged as a skip (R304, R447). -/
theorem skipBn_spec {s t : State} {e : Ev} {i : Instr} {j : Job} {a : Site} {x sc : Nat} (hdests : bnDests i = [x])
    (hstatus : bnStatus i = some sc) (ht : skipBn e i j a s = t) :
    scalarOf t a.die sc = e.toNat ∧ slotAt t j.part x = { slotAt s j.part x with value := 0, valid := false } ∧
    Logged e (evJob j a 0x0E 0 true) s t ∧ Frame (logAreas ++ [.bn, .dies, .jobs]) s t := by
  obtain ⟨named, hnamedEq⟩ : ∃ u, nameDests j.id (slotDests j.part [x]) (putScalar a.die sc e.toNat s) = u := ⟨_, rfl⟩
  obtain ⟨logged, hloggedEq⟩ : ∃ u, logJob e j a 0x0E 0 true named = u := ⟨_, rfl⟩
  obtain ⟨poisoned, hpoisonedEq⟩ : ∃ u, poisonDest e (.bnSlot j.part x) logged = u := ⟨_, rfl⟩
  have hend : updJob j.id (fun k => { k with skip := some (k.skip.getD (e, a.off)) }) poisoned = t := by
    rw [← ht, ← hpoisonedEq, ← hloggedEq, ← hnamedEq]
    simp only [skipBn, hstatus, hdests]
    rfl
  have hnamed : Frame [.dies, .jobs] s named :=
    hnamedEq ▸ ((putScalar_frame _ _ _ _).mono (by decide)).trans ((updJob_frame _ _ _).mono (by decide))
  have hlogged : Logged e (evJob j a 0x0E 0 true) named logged ∧ Frame (logAreas ++ [.jobs]) named logged :=
    hloggedEq ▸ ⟨logJob_logged .., logJob_frame e j a 0x0E 0 true named⟩
  have hpoisoned : Frame [.bn] logged poisoned := hpoisonedEq ▸ bn_frame _ logged
  have hafter : Frame [.bn, .jobs] logged t := (hpoisoned.mono (by decide)).trans (hend ▸ (updJob_frame _ _ _).mono (by decide))
  refine ⟨?status, ?slot, hlogged.1.between hnamed hafter (by decide) (by decide),
    ((hnamed.mono (by decide)).trans (hlogged.2.mono (by decide))).trans (hafter.mono (by decide))⟩
  case status =>
    rw [scalarOf_of_same (hafter .dies (by decide)), scalarOf_of_same (hlogged.2 .dies (by decide)), ← hnamedEq]
    exact (scalarOf_putScalar_self _ _ _ _).trans (Nat.mod_eq_of_lt (e.isLt.trans (by norm_num)))
  case slot =>
    have hbn : logged.bn = named.bn := hlogged.2 .bn (by decide)
    have hsame : slotAt logged j.part x = slotAt s j.part x := slotAt_congr (congrArg Bn.slots (hbn.trans (by rw [← hnamedEq]; rfl))) _ _
    rw [← hend, ← hsame, ← hpoisonedEq]
    exact slotAt_poisonDest_self e j.part x logged

/-- A running command with one destination that is rejected (R447). -/
theorem bnComplete_rejects {s : State} {c : BnCmd} {j : Job} {x sc : Nat} {e : Ev} (h : BnRuns s c j) (hdests : bnDests c.instr = [x])
    (hstatus : bnStatus c.instr = some sc) (hres : ∀ r, bnResult (fun k => (slotAt s j.part k).value) r c.instr = .reject e) :
    ∃ t, exec .bnComplete s = .next t ∧ scalarOf t c.at_.die sc = e.toNat ∧
      slotAt t j.part x = { slotAt s j.part x with value := 0, valid := false } ∧
      Logged e (evJob j c.at_ 0x0E 0 true) s t ∧ Frame (logAreas ++ [.bn, .dies, .jobs]) s t := by
  have hsu : Frame [.bn, .dies, .free] s (bnDrawn c j.part (bnIdle s)).2 :=
    ((bn_frame _ s).mono (by decide)).trans ((bnDrawn_frame c j.part (bnIdle s)).mono (by decide))
  have hslot : slotAt (bnDrawn c j.part (bnIdle s)).2 j.part x = slotAt s j.part x :=
    slotAt_congr (congrArg Bn.slots (bnDrawn_bn c j.part (bnIdle s))) _ _
  obtain ⟨hsc, hx, hlogged, hframe⟩ := skipBn_spec (s := (bnDrawn c j.part (bnIdle s)).2) (e := e) (j := j) (a := c.at_) hdests hstatus rfl
  have hnext := bnNext_frame (skipBn e c.instr j c.at_ (bnDrawn c j.part (bnIdle s)).2)
  refine ⟨_, (exec_bnComplete h).trans (by rw [hres]; rfl), ?_, ?_, hlogged.between hsu hnext (by decide) (by decide),
    ((hsu.mono (by decide)).trans hframe).trans (hnext.mono (by decide))⟩
  · rw [bnNext_scalarOf, hsc]
  · rw [slotAt_congr (bnNext_slots _), hx, hslot]

/-- BN_YIELD at a boundary where one shorter command of a job waits: the two change places (R451). -/
theorem exec_bnYield_of_shorter {s : State} {c w : BnCmd} (hrun : s.bn.running = some c) (hpart : c.part ≠ none) (hlong : 32768 < c.remaining)
    (hyields : c.yields < 16) (hwait : s.bn.waiting = [w]) (hw : w.part ≠ none) (htotal : w.total ≤ c.remaining - 32768)
    (hrem : w.remaining ≤ c.remaining - 32768) :
    exec .bnYield s = .next { s with bn := { s.bn with
      running := some w, waiting := [{ c with remaining := c.remaining - 32768, yields := c.yields + 1 }] } } := by
  have hsome : c.part.isSome = true := Option.isSome_iff_ne_none.2 hpart
  change execBnYield s = _
  simp only [execBnYield, hrun, hwait, if_neg hlong.not_ge, hsome, hyields, htotal, List.any_cons, decide_true, Bool.or_true, Bool.true_or,
    Bool.and_self, if_true, List.singleton_append]
  exact congrArg Host.Outcome.next (bnNext_of_waiting_pair rfl rfl hw hpart hrem)

end Sys2Proof.Machine

namespace Sys2Proof.Machine

/-! ### The issue of a big-number command (R445, R450, R451) -/

/-- The operands of a big-number command that works in `w` words are as R445 has them: its status register is free, its sources `srcs` and exponents
`exps` are valid, and its slots have their lengths. -/
structure BnReady (s : State) (a : Site) (j : Job) (srcs dsts exps : List Nat) (sc w : Nat) : Prop where
  status_free : scalarBusy s a.die [sc] = false
  valid : ∀ k ∈ srcs ++ exps, (slotAt s j.part k).valid = true
  words : w ≠ 0
  exponents : ∀ k ∈ exps, 1 ≤ (slotAt s j.part k).n ∧ (slotAt s j.part k).n ≤ w
  lengths : ∀ k ∈ srcs ++ dsts, (slotAt s j.part k).n = w

/-- The command that waits for the engine pair once instruction `i` of job `j` has issued. -/
def bnCmdOf (s : State) (a : Site) (j : Job) (i : Instr) (total : Nat) : BnCmd :=
  { arrival := s.nextId, part := some j.part, job := j.id, at_ := a, instr := i, total := total, remaining := total, yields := 0 }

/-- Between `s` and `t` instruction `i` of job `j` issued to the engine pair: its command waits, or runs where the pair is free. -/
def BnIssued (s : State) (a : Site) (j : Job) (i : Instr) (total : Nat) (t : State) : Prop :=
  t.nextId = s.nextId + 1 ∧ t.bn.slots = s.bn.slots ∧ t.jobs.map jobRest = s.jobs.map jobRest ∧
    (s.bn.running.isSome = true → t.bn.running = s.bn.running ∧ t.bn.waiting = s.bn.waiting ++ [bnCmdOf s a j i total]) ∧
    (s.bn.running = none → s.bn.waiting = [] → t.bn.running = some (bnCmdOf s a j i total) ∧ t.bn.waiting = []) ∧
    Frame [.bn, .jobs, .nextId] s t

/-- A command put behind those that wait, and the destinations of its job named. -/
def bnQueued (s : State) (a : Site) (j : Job) (i : Instr) : State :=
  let t := nameDests j.id (slotDests j.part (bnDests i)) s
  { t with nextId := t.nextId + 1, bn := { t.bn with waiting := t.bn.waiting ++ [bnCmdOf s a j i (bnTime s j.part i)] } }

/-- Naming destinations changes no more of a job than `jobRest` leaves out. -/
theorem nameDests_jobRest (id : Nat) (ds : List Dest) (s : State) : (nameDests id ds s).jobs.map jobRest = s.jobs.map jobRest := by
  simp only [nameDests, updJob, List.map_map]
  refine List.map_congr_left fun k _ => ?_
  simp only [Function.comp_apply]
  split <;> rfl

theorem bnQueued_frame (s : State) (a : Site) (j : Job) (i : Instr) : Frame [.bn, .jobs, .nextId] s (bnQueued s a j i) := by
  intro area harea
  cases area <;> first | exact (harea (by decide)).elim | rfl | exact fun _ => rfl

/-- A queued command starts where the engine pair is free, and waits where it is not. -/
theorem bnIssued_bnNext_bnQueued (s : State) (a : Site) (j : Job) (i : Instr) :
    BnIssued s a j i (bnTime s j.part i) (bnNext (bnQueued s a j i)) := by
  have hnext := bnNext_frame (bnQueued s a j i)
  have hid : (bnNext (bnQueued s a j i)).nextId = (bnQueued s a j i).nextId := hnext .nextId (by decide)
  have hjobs : (bnNext (bnQueued s a j i)).jobs = (bnQueued s a j i).jobs := hnext .jobs (by decide)
  refine ⟨hid, bnNext_slots _, ?_, fun hrun => ?_, fun hrun hwait => ?_, (bnQueued_frame s a j i).trans (hnext.mono (by decide))⟩
  · rw [hjobs]
    exact nameDests_jobRest _ _ s
  · rw [bnNext_of_running (s := bnQueued s a j i) hrun]
    exact ⟨rfl, rfl⟩
  · have hqueue : (bnQueued s a j i).bn.waiting = [bnCmdOf s a j i (bnTime s j.part i)] := by
      change s.bn.waiting ++ _ = _
      rw [hwait, List.nil_append]
    rw [bnNext_of_waiting_single (s := bnQueued s a j i) hrun hqueue]
    exact ⟨rfl, rfl⟩

/-- A command whose operands are ready issues, where the engine pair has room (R445, R451). -/
theorem issueBn_of_checked {s : State} {a : Site} {j : Job} {i : Instr} {sc : Nat} (hroom : s.bn.waiting.length < 64)
    (hstatus : bnStatus i = some sc) (hfree : scalarBusy s a.die [sc] = false) (hvalid : ∀ k ∈ bnSrcs i, (slotAt s j.part k).valid = true)
    (hlens : bnLensOk s j.part i = true) : issueBn a i j s = .done (bnNext (bnQueued s a j i)) := by
  have hsources : ((bnSrcs i).any fun k => !(slotAt s j.part k).valid) = false := by simpa using hvalid
  simp only [issueBn, hstatus, Option.toList, hfree, hsources, hlens, hroom.not_ge, Bool.false_eq_true, Bool.not_true, if_false]
  rfl

/-- The lengths of R445: all are that of the command, but an exponent that is no destination may be shorter. -/
theorem bnLensOk_of_ready {s : State} {a : Site} {j : Job} {i : Instr} {srcs exps : List Nat} {sc w : Nat}
    (h : BnReady s a j srcs (bnDests i) exps sc w) (hlen : bnLen s j.part i = w) (hsrcs : ∀ k ∈ bnSrcs i, k ∈ srcs ∨ k ∈ exps ∧ bnExp i = some k) :
    bnLensOk s j.part i = true := by
  simp only [bnLensOk, hlen, Bool.and_eq_true, bne_iff_ne, List.all_eq_true, decide_eq_true_eq, Bool.not_eq_true', List.contains_eq_mem,
    decide_eq_false_iff_not]
  refine ⟨h.words, fun k hk => ?_⟩
  have hwords := h.words
  have hkind : (k ∈ srcs ++ bnDests i) ∨ (k ∈ exps ∧ bnExp i = some k ∧ k ∉ bnDests i) := by
    by_cases hdest : k ∈ bnDests i
    · exact .inl (List.mem_append_right _ hdest)
    · exact (hsrcs k ((List.mem_append.1 hk).resolve_right hdest)).imp (List.mem_append_left _) fun ⟨hmem, hexp⟩ => ⟨hmem, hexp, hdest⟩
  obtain hmem | ⟨hmem, hexp⟩ := hkind
  · rw [h.lengths k hmem]
    split <;> simp
    omega
  · rw [if_pos hexp]
    exact decide_eq_true (h.exponents k hmem)

/-- A big-number instruction at a ready site whose operands are ready issues to the engine pair with its engine time. -/
theorem exists_bnIssued {s : State} {a : Site} {j : Job} {i : Instr} {srcs exps : List Nat} {sc w total : Nat} (hready : Ready s a j)
    (hroom : s.bn.waiting.length < 64) (h : BnReady s a j srcs (bnDests i) exps sc w)
    (hexec : exec i s = ok (runInstr a i (issueBn a i) s)) (hstatus : bnStatus i = some sc) (hlen : bnLen s j.part i = w)
    (htime : bnTime s j.part i = total) (hsrcs : ∀ k ∈ bnSrcs i, k ∈ srcs ∨ k ∈ exps ∧ bnExp i = some k) :
    ∃ t, exec i s = .next t ∧ BnIssued s a j i total t := by
  have hvalid (k : Nat) (hk : k ∈ bnSrcs i) : (slotAt s j.part k).valid = true :=
    h.valid k (List.mem_append.2 ((hsrcs k hk).imp_right And.left))
  have hissue := issueBn_of_checked hroom hstatus h.status_free hvalid (bnLensOk_of_ready h hlen hsrcs)
  rw [runInstr_done hready hissue] at hexec
  exact ⟨_, hexec, htime ▸ bnIssued_bnNext_bnQueued s a j i⟩

/-- The same for a command without an exponent, whose sources are those that its operands name. -/
theorem exists_bnIssued_of_sources {s : State} {a : Site} {j : Job} {i : Instr} {sc w total : Nat} (hready : Ready s a j)
    (hroom : s.bn.waiting.length < 64) (h : BnReady s a j (bnSrcs i) (bnDests i) [] sc w)
    (hexec : exec i s = ok (runInstr a i (issueBn a i) s)) (hstatus : bnStatus i = some sc) (hlen : bnLen s j.part i = w)
    (htime : bnTime s j.part i = total) : ∃ t, exec i s = .next t ∧ BnIssued s a j i total t :=
  exists_bnIssued hready hroom h hexec hstatus hlen htime fun _ hk => .inl hk

end Sys2Proof.Machine

namespace Sys2Proof.Machine

/-! ### The results of the commands (R445 to R449) -/

section
variable {v : Nat → Nat} {a : Site} {x y z m sc : Nat}

theorem bnResult_modAdd (hm : 2 ≤ v m) (hy : v y < v m) (hz : v z < v m) (r : Nat) :
    bnResult v r (.modAdd a x y z m sc) = .good [(x, (v y + v z) % v m)] 0 := by
  simp [bnResult, bnRangeOk, hm, hy, hz]

theorem bnResult_modSub (hm : 2 ≤ v m) (hy : v y < v m) (hz : v z < v m) (r : Nat) :
    bnResult v r (.modSub a x y z m sc) = .good [(x, (v y + (v m - v z)) % v m)] 0 := by
  simp [bnResult, bnRangeOk, hm, hy, hz, subMod, Nat.mod_eq_of_lt hz]

theorem bnResult_modMul (hm : 2 ≤ v m) (hodd : v m % 2 = 1) (hy : v y < v m) (hz : v z < v m) (r : Nat) :
    bnResult v r (.modMul a x y z m sc) = .good [(x, v y * v z % v m)] 0 := by
  simp [bnResult, bnRangeOk, hm, hodd, hy, hz]

/-- An operand that is not reduced is out of range (R447). -/
theorem bnResult_modMul_reject (hy : v m ≤ v y) (r : Nat) : bnResult v r (.modMul a x y z m sc) = .reject 0x0811 := by
  simp [bnResult, bnRangeOk, hy.not_gt]

theorem bnResult_modExp (hm : 2 ≤ v m) (hodd : v m % 2 = 1) (hy : v y < v m) (r : Nat) :
    bnResult v r (.modExp a x y z m sc) = .good [(x, v y ^ v z % v m)] 0 := by
  simp [bnResult, bnRangeOk, hm, hodd, hy, powMod_eq hm]

theorem bnResult_modInv {i : Nat} (hm : 2 ≤ v m) (hodd : v m % 2 = 1) (hy : v y < v m) (hinv : modInv? (v y) (v m) = some i) (r : Nat) :
    bnResult v r (.modInv a x y m sc) = .good [(x, i)] 0 := by
  simp [bnResult, bnRangeOk, hm, hodd, hy, hinv]

/-- A value without an inverse gives zero and an event (R448). -/
theorem bnResult_modInv_none (hm : 2 ≤ v m) (hodd : v m % 2 = 1) (hy : v y < v m) (hinv : modInv? (v y) (v m) = none) (r : Nat) :
    bnResult v r (.modInv a x y m sc) = .good [(x, 0)] 0x0812 := by
  simp [bnResult, bnRangeOk, hm, hodd, hy, hinv]

theorem bnResult_bnRand (hm : 2 ≤ v m) (r : Nat) : bnResult v r (.bnRand a x m sc) = .good [(x, 1 + r % (v m - 1))] 0 := by
  simp [bnResult, bnRangeOk, hm]

end

/-- A draw modulo `m - 1`, plus one, is in range: from 1 to below `m`. -/
theorem draw_in_range {m : Nat} (hm : 2 ≤ m) (r : Nat) : 1 ≤ 1 + r % (m - 1) ∧ 1 + r % (m - 1) < m := by
  have := Nat.mod_lt r (by omega : 0 < m - 1)
  omega

/-- The curves have more than one point. -/
theorem two_le_curve_order (e : Curve) : 2 ≤ (curveOf e).order := by cases e <;> decide

section
variable {c : CurveParams} {k x y : Nat} {good : Nat × Nat → List (Nat × Nat)}

theorem bnPoint_of_valid (hk : k ≠ 0) (hlt : k < c.order) (hvalid : ecValid c x y = true) :
    bnPoint c k x y good = .good (good (ecCoords (ecMul c k (some (x, y))))) 0 := by
  simp only [bnPoint, hk, hlt.not_ge, hvalid, decide_false, Bool.or_self, Bool.not_true, Bool.false_eq_true, if_false]

/-- A point that fails validation gives zeros and an event (R449). -/
theorem bnPoint_of_invalid (hk : k ≠ 0) (hlt : k < c.order) (hvalid : ecValid c x y = false) :
    bnPoint c k x y good = .good (good (0, 0)) 0x0813 := by
  simp only [bnPoint, hk, hlt.not_ge, hvalid, decide_false, Bool.or_self, Bool.not_false, Bool.false_eq_true, if_false, if_true]

end

/-! ### The ends of the commands -/

section
variable {s : State} {c : BnCmd} {j : Job}

/-- A point operation with two destinations. -/
theorem bnEnds_ecMul {a : Site} {e : Curve} {x y z w u sc : Nat} {q : Nat × Nat} {ev : Ev} (h : BnRuns s c j)
    (hi : c.instr = .ecMul a e x y z w u sc) (hwu : w ≠ u)
    (hpoint : ∀ good : Nat × Nat → List (Nat × Nat), bnPoint (curveOf e) (slotAt s j.part x).value (slotAt s j.part y).value (slotAt s j.part z).value
      good = .good (good q) ev) :
    BnEnds s c j [w, u] sc ev fun t => SlotHolds s j.part w q.1 t ∧ SlotHolds s j.part u q.2 t :=
  bnEnds_of_result h (by rw [hi]; rfl) (by simpa using hwu) fun _ =>
    ⟨[(w, q.1), (u, q.2)], by rw [hi]; exact hpoint fun p => [(w, p.1), (u, p.2)], rfl, fun _ ht => ⟨ht (w, q.1) (by simp), ht (u, q.2) (by simp)⟩⟩

/-- EC_KEYGEN gives a scalar in range and its point (R445). -/
theorem bnEnds_ecKeygen {a : Site} {e : Curve} {x y z sc : Nat} (h : BnRuns s c j) (hi : c.instr = .ecKeygen a e x y z sc) (hxy : x ≠ y)
    (hxz : x ≠ z) (hyz : y ≠ z) : BnEnds s c j [x, y, z] sc 0 fun t => ∃ k, 1 ≤ k ∧ k < (curveOf e).order ∧ SlotHolds s j.part x k t ∧
      SlotHolds s j.part y (ecCoords (ecMul (curveOf e) k (some ((curveOf e).gx, (curveOf e).gy)))).1 t ∧
      SlotHolds s j.part z (ecCoords (ecMul (curveOf e) k (some ((curveOf e).gx, (curveOf e).gy)))).2 t := by
  refine bnEnds_of_result h (by rw [hi]; rfl) (by simp [hxy, hxz, hyz]) fun r => ⟨_, by rw [hi]; rfl, rfl, fun t ht => ?_⟩
  obtain ⟨hpos, hlt⟩ := draw_in_range (two_le_curve_order e) r
  exact ⟨_, hpos, hlt, ht (x, _) (by simp), ht (y, _) (by simp), ht (z, _) (by simp)⟩

/-- MODINV of what shares no factor with the modulus gives its inverse (R446). -/
theorem bnEnds_modInv {a : Site} {x y m sc : Nat} (h : BnRuns s c j) (hi : c.instr = .modInv a x y m sc) (hm : 2 ≤ (slotAt s j.part m).value)
    (hodd : (slotAt s j.part m).value % 2 = 1) (hy : (slotAt s j.part y).value < (slotAt s j.part m).value)
    (hgcd : Nat.gcd (slotAt s j.part y).value (slotAt s j.part m).value = 1) :
    BnEnds s c j [x] sc 0 fun t => ∃ i < (slotAt s j.part m).value,
      (slotAt s j.part y).value * i % (slotAt s j.part m).value = 1 ∧ SlotHolds s j.part x i t := by
  obtain ⟨i, hlt, hinv, hone⟩ := modInv?_of_coprime hm hy hgcd
  exact bnEnds_of_result h (by rw [hi]; rfl) (List.nodup_singleton x) fun r =>
    ⟨[(x, i)], by rw [hi]; exact bnResult_modInv hm hodd hy hinv r, rfl, fun _ ht => ⟨i, hlt, hone, ht (x, i) (by simp)⟩⟩

/-- BN_RAND gives a value from 1 to below its bound (R445). -/
theorem bnEnds_bnRand {a : Site} {x m sc : Nat} (h : BnRuns s c j) (hi : c.instr = .bnRand a x m sc) (hm : 2 ≤ (slotAt s j.part m).value) :
    BnEnds s c j [x] sc 0 fun t => ∃ i, 1 ≤ i ∧ i < (slotAt s j.part m).value ∧ SlotHolds s j.part x i t := by
  refine bnEnds_of_result h (by rw [hi]; rfl) (List.nodup_singleton x) fun r =>
    ⟨_, by rw [hi]; exact bnResult_bnRand hm r, rfl, fun _ ht => ?_⟩
  obtain ⟨hpos, hlt⟩ := draw_in_range hm r
  exact ⟨_, hpos, hlt, ht (x, _) (by simp)⟩

end

/-- Settles O31: an issued command is queued and the engine pair takes the next one; BN_COMPLETE writes what `bnResult` says, whatever it draws. -/
theorem bigNumberCommands : Obligations.BigNumberCommands := by
  refine ⟨fun s a j hready hroom => ?issue, fun s c j hrun hpart hjob => ⟨?arithmetic, ?curves, ?yield⟩⟩
  case issue =>
    intro n mm pre inv rand ec words ready issued
    have hops {srcs dsts exps : List Nat} {sc w : Nat} (h : ready srcs dsts exps sc w) : BnReady s a j srcs dsts exps sc w := by
      obtain ⟨hfree, hvalid, hw, hexps, hlens⟩ := h
      exact ⟨hfree, hvalid, hw, hexps, hlens⟩
    have hwords (c : Curve) : (curveOf c).words = words c := by cases c <;> rfl
    refine ⟨fun x y z m sc => ⟨fun h => ?modAdd, fun h => ?modSub, fun h => ?modMul, fun h => ?modExp, fun h => ?modInv, fun h => ?bnRand⟩,
      fun c x y z v w sc => ⟨fun h => ?ecKeygen, fun h => ?ecMul, fun h => ?ecDh⟩⟩
    case modExp => exact exists_bnIssued hready hroom (hops h) rfl rfl rfl rfl (by simp [bnSrcs, bnExp])
    case modAdd | modSub | modMul | modInv | bnRand => exact exists_bnIssued_of_sources hready hroom (hops h) rfl rfl rfl rfl
    case ecKeygen | ecMul | ecDh =>
      exact exists_bnIssued_of_sources hready hroom (hops h) rfl rfl (hwords c) (by simp only [bnTime, bnLen, hwords]; rfl)
  case arithmetic =>
    have h : BnRuns s c j := ⟨hrun, hpart, hjob⟩
    intro a x y z m sc
    refine ⟨fun hi hm hy hz => ?_, fun hi hm hy hz => ?_, fun hi hm hodd hy hz => ?_, fun hi hm hodd hy => ?_,
      fun hi hm hodd hy => ⟨fun hgcd => ?_, fun hgcd => ?_⟩, fun hi hm => ?_, fun hi hy _ => ?reject⟩
    · exact bnEnds_of_single_result h (by rw [hi]; rfl) fun r => by rw [hi]; exact bnResult_modAdd hm hy hz r
    · exact bnEnds_of_single_result h (by rw [hi]; rfl) fun r => by rw [hi]; exact bnResult_modSub hm hy hz r
    · exact bnEnds_of_single_result h (by rw [hi]; rfl) fun r => by rw [hi]; exact bnResult_modMul hm hodd hy hz r
    · exact bnEnds_of_single_result h (by rw [hi]; rfl) fun r => by rw [hi]; exact bnResult_modExp hm hodd hy r
    · exact bnEnds_modInv h hi hm hodd hy hgcd
    · exact bnEnds_of_single_result h (by rw [hi]; rfl) fun r => by
        rw [hi]; exact bnResult_modInv_none hm hodd hy (modInv?_of_not_coprime hm hy hgcd) r
    · exact bnEnds_bnRand h hi hm
    case reject =>
      obtain ⟨t, ht, hstatus, hslot, hlogged, hframe⟩ := bnComplete_rejects h (x := x) (sc := sc) (e := 0x0811) (by rw [hi]; rfl)
        (by rw [hi]; rfl) fun r => by rw [hi]; exact bnResult_modMul_reject hy r
      exact ⟨t, ht, hstatus, by rw [hslot], fun _ => by rw [hslot], hlogged, hframe⟩
  case curves =>
    have h : BnRuns s c j := ⟨hrun, hpart, hjob⟩
    intro a e x y z w u sc cp
    refine ⟨fun hi hxy hxz hyz => bnEnds_ecKeygen h hi hxy hxz hyz, fun hi hx hlt hwu => ⟨fun hvalid => ?_, fun hvalid => ?_⟩,
      fun hi hx hlt hvalid => ?_⟩
    · exact bnEnds_ecMul h hi hwu fun _ => bnPoint_of_valid hx hlt hvalid
    · exact bnEnds_ecMul h hi hwu fun _ => bnPoint_of_invalid hx hlt hvalid
    · exact bnEnds_of_single_result h (by rw [hi]; rfl) fun _ => by
        rw [hi]; exact bnPoint_of_valid (good := fun p => [(w, p.1)]) hx hlt hvalid
  case yield =>
    intro w hlong hyields hwait hw htotal hrem
    exact ⟨_, exec_bnYield_of_shorter hrun (by simp [hpart]) hlong hyields hwait hw htotal hrem, rfl, rfl, rfl, bn_frame _ s⟩

end Sys2Proof.Machine

namespace Sys2Proof.Machine

/-! ### Requests that are discarded (R487) -/

/-- The counter that is counted, after it. -/
@[simp] theorem tblGetD_counters_count_self (d : DieIx) (i n : Nat) (s : State) :
    tblGetD (dieOf (count d i n s) d).counters i 0 = tblGetD (dieOf s d).counters i 0 + n := by
  simp [count]

/-- Each cause of a discard makes a request unsound. -/
theorem reqSound_eq_false_of_cause {r : FpReq}
    (h : r.check ≠ crc32c (reqBytes r) ∨ r.reserved ≠ 0 ∨ r.version ≠ 1 ∨ r.response = true ∨ r.status ≠ 0) : reqSound r = false := by
  rcases h with h | h | h | h | h <;> simp [reqSound, h]

/-- An unsound request that arrives is counted, and that is all. -/
theorem serveReq_of_unsound (x : Extra) {s : State} {r : FpReq} (hawake : awake s = true) (hcarried : carried s r.via = true)
    (hunsound : reqSound r = false) : serveReq x r s = count 0 20 1 s := by
  simp [serveReq, hawake, hcarried, hunsound]

/-- READ also carries the opcodes that R484 does not list (log 82). -/
theorem exec_read_of_opcode {r : FpReq} (s : State) (h : r.opcode < 2 ∨ 5 < r.opcode) : exec (.read r) s = .next (serveReq .plain r s) := by
  have hcond : (r.opcode = 1 || r.opcode = 0 || 5 < r.opcode) = true := by
    simp only [Bool.or_eq_true, decide_eq_true_eq]
    omega
  exact congrArg Host.Outcome.next (if_pos hcond)

/-! ### Sessions that close (R490) -/

/-- A session has the endpoint, INDEX, SUB and MEMBER that a timeout names. -/
def FpSession.keyed (via : Via) (i k m : Nat) (x : FpSession) : Bool := x.via == via && x.index == i && x.sub == k && x.member == m

@[simp] theorem FpSession.keyed_iff (via : Via) (i k m : Nat) (x : FpSession) :
    x.keyed via i k m = true ↔ x.via = via ∧ x.index = i ∧ x.sub = k ∧ x.member = m := by
  simp [keyed, and_assoc]

/-- The state without the sessions that a timeout names. -/
def withoutSessions (via : Via) (i k m : Nat) (s : State) : State :=
  { s with dict := { s.dict with sessions := s.dict.sessions.filter fun x => !(x.keyed via i k m) } }

/-- Its sessions are the others. -/
theorem mem_withoutSessions (via : Via) (i k m : Nat) (s : State) (x : FpSession) :
    x ∈ (withoutSessions via i k m s).dict.sessions ↔ x ∈ s.dict.sessions ∧ ¬(x.via = via ∧ x.index = i ∧ x.sub = k ∧ x.member = m) := by
  rw [← FpSession.keyed_iff]
  simp only [withoutSessions, List.mem_filter, Bool.not_eq_true', Bool.not_eq_true]

/-- Closing sessions touches the dictionary state alone. -/
theorem withoutSessions_frame (via : Via) (i k m : Nat) (s : State) : Frame [.dict] s (withoutSessions via i k m s) := by
  intro a ha
  cases a
  case dict => exact absurd (List.mem_singleton_self _) ha
  case parts | partLogs | dies | counters | hosts | msix => exact fun _ => rfl
  all_goals rfl

/-- The timeout of an open session closes it and counts it. -/
theorem exec_sessionTimeout_of_open {via : Via} {i k m : Nat} {s : State}
    (h : ∃ x ∈ s.dict.sessions, x.via = via ∧ x.index = i ∧ x.sub = k ∧ x.member = m) :
    exec (.sessionTimeout via i k m) s = .next (count 0 21 1 (withoutSessions via i k m s)) := by
  have hopen : s.dict.sessions.any (FpSession.keyed via i k m) = true := by simpa using h
  exact congrArg Host.Outcome.next (if_pos hopen)

/-- Settles O52: every request command serves its request, which counts an unsound one alone; a timeout filters the sessions and counts. -/
theorem discardsAndTimeouts : Obligations.DiscardsAndTimeouts := by
  refine fun s r => ⟨fun hawake hcarried hcause => ?discards, fun via i k m hopen => ?timeout⟩
  case discards =>
    intro discarded
    have hserve : serveReq .plain r s = count 0 20 1 s := serveReq_of_unsound .plain hawake hcarried (reqSound_eq_false_of_cause hcause)
    have of_serves {i : Instr} (hi : exec i s = .next (serveReq .plain r s)) : discarded i :=
      ⟨_, hi.trans (congrArg _ hserve), rfl, count_frame 0 20 1 s, tblGetD_counters_count_self 0 20 1 s⟩
    refine ⟨fun h => of_serves (exec_read_of_opcode s h), fun h => of_serves ?_, fun h => of_serves ?_, fun h => of_serves ?_,
      fun h => of_serves ?_, fun hop hindex hsub => of_serves ?eviction⟩
    case eviction =>
      have hwrite : isWrite r 0x5010 3 = true := by simp [isWrite, hop, hindex, hsub]
      exact congrArg Host.Outcome.next (if_pos hwrite)
    all_goals exact congrArg Host.Outcome.next (if_pos h)
  case timeout =>
    refine ⟨_, exec_sessionTimeout_of_open hopen, mem_withoutSessions via i k m s, tblGetD_counters_count_self 0 21 1 _, ?_⟩
    exact ((withoutSessions_frame via i k m s).mono (by decide)).trans ((count_frame 0 21 1 _).mono (by decide))

end Sys2Proof.Machine

namespace Sys2Proof.Machine

/-! ### The supplies when PWROK rises (R506) -/

/-- Outputs sent one after the other stand at the end of the output in their order. -/
theorem foldl_emit {α : Type} (f : α → Output) (l : List α) (s : State) :
    l.foldl (fun s x => emit (f x) s) s = { s with out := s.out ++ l.map f } := by
  induction l generalizing s with
  | nil => simp
  | cons x l ih => exact (ih (emit (f x) s)).trans (by simp [emit])

/-- In a list made over `range n` the position of an entry is the number it was made from. -/
theorem map_zipIdx_map_range {α β : Type} (g : α × Nat → β) (f : Nat → α) (n : Nat) :
    ((List.range n).map f).zipIdx.map g = (List.range n).map fun i => g (f i, i) :=
  List.ext_getElem (by simp) fun i _ _ => by simp

/-- The fused setpoint of each of the sixteen VCORE supplies. -/
def setpoints (s : State) : List Nat := (List.range 16).map fun n => s.fuses.vcore.getD n 0

/-- The part with PWROK high and its supplies set over AVSBus. -/
def supplied (s : State) : State :=
  { s with
    pins := { s.pins with pwrok := true, vcoreSet := setpoints s }
    out := s.out ++ (List.range 16).map fun n => Output.avs n (s.fuses.vcore.getD n 0) }

/-- A PWROK that was low and rises sets the supplies. -/
theorem exec_pwrokRise_of_low {s : State} (h : s.pins.pwrok = false) : exec .pwrokRise s = .next (supplied s) := by
  have hlow : ¬ s.pins.pwrok = true := by simp [h]
  refine congrArg Host.Outcome.next ((if_neg hlow).trans ((foldl_emit _ _ _).trans ?_))
  rw [map_zipIdx_map_range]
  rfl

/-- Setting the supplies touches the pins and the output alone. -/
theorem supplied_frame (s : State) : Frame [.pins, .out] s (supplied s) := by
  intro a ha
  cases a
  case pins | out => exact absurd (by decide) ha
  case parts | partLogs | dies | counters | hosts | msix => exact fun _ => rfl
  all_goals rfl

/-! ### The part in reset (R508, R509) -/

section
variable (pwrok resetLow : Bool) (vcore : List Nat) (s : State)

/-- In reset every die is as made. -/
@[simp] theorem dieOf_intoReset (d : DieIx) : dieOf (intoReset pwrok resetLow vcore s) d = Die.zero := by
  simp [dieOf, intoReset, resetOf]

/-- In reset every partition is free and empty. -/
@[simp] theorem partOfIx_intoReset (p : PartIx) : partOfIx (intoReset pwrok resetLow vcore s) p = Partition.zero := by
  simp [partOfIx, intoReset, resetOf]

/-- In reset every port is down and holds nothing. -/
@[simp] theorem portOf_intoReset (n : PortIx) : portOf (intoReset pwrok resetLow vcore s) n = Port.zero := by
  simp [portOf, intoReset, resetOf]

end

/-- A PWROK that was high and falls resets the part, with every VCORE without a setpoint; the level of SYS_RESET# stays. -/
theorem exec_pwrokFall_of_high {s : State} (h : s.pins.pwrok = true) :
    exec .pwrokFall s = .next (intoReset false s.pins.resetLow [] s) :=
  congrArg Host.Outcome.next (if_pos h)

/-- Settles O4: a rising PWROK sends the sixteen setpoints; a falling one is `intoReset`, whatever the level of SYS_RESET#. -/
theorem powerOkEdges : Obligations.PowerOkEdges := by
  refine fun s => ⟨fun hlow => ?rise, fun hhigh => ?fall⟩
  case rise => exact ⟨_, exec_pwrokRise_of_low hlow, rfl, rfl, rfl, rfl, supplied_frame s⟩
  case fall =>
    exact ⟨_, exec_pwrokFall_of_high hhigh, rfl, rfl, rfl, rfl, rfl, rfl, dieOf_intoReset _ _ _ _, partOfIx_intoReset _ _ _ _,
      portOf_intoReset _ _ _ _, rfl, rfl, rfl, rfl, rfl⟩

end Sys2Proof.Machine


namespace Sys2Proof.Machine

/-! ### What every command keeps

Each meaning is put together from the shared operations of Laws/Keeps*.lean, so each keeps what they keep: the waiting commands, the fixed
fuses and the canonical form of every memory. -/

set_option linter.unusedTactic false
set_option linter.unreachableTactic false

theorem execPwrokRise_keeps (s : State) : KeepsR s (execPwrokRise s) := by
  unfold execPwrokRise
  refine KeepsR.ok ?_
  with_reducible repeat' first
    | assumption | exact Keeps.refl _ | refine Keeps.ite ?_ ?_ | (intro x; subst x) | lift_lets -underBinder | refine emit_keeps ?_
    | refine Keeps.fold (fun _ _ _ => ?_) _ ?_ | refine Keeps.upd ?_

theorem execPwrokFall_keeps (s : State) : KeepsR s (execPwrokFall s) := by
  unfold execPwrokFall
  refine KeepsR.ok ?_
  with_reducible repeat' first | assumption | exact Keeps.refl _ | refine Keeps.ite ?_ ?_ | refine intoReset_keeps ?_

theorem execSysResetAssert_keeps (s : State) : KeepsR s (execSysResetAssert s) := by
  unfold execSysResetAssert
  refine KeepsR.ok ?_
  with_reducible repeat' first | assumption | exact Keeps.refl _ | refine Keeps.ite ?_ ?_ | refine intoReset_keeps ?_ | refine Keeps.upd ?_

theorem execSysResetRelease_keeps (s : State) : KeepsR s (execSysResetRelease s) := by
  unfold execSysResetRelease
  refine KeepsR.ok ?_
  with_reducible repeat' first
    | assumption | exact Keeps.refl _ | refine Keeps.ite ?_ ?_ | (intro x; subst x) | lift_lets -underBinder
    | refine updBoot_keeps (fun _ => rfl) ?_ | refine Keeps.upd ?_

theorem execSelfCheckComplete_keeps {r : SelfCheck} (s : State) : KeepsR s (execSelfCheckComplete r s) := by
  unfold execSelfCheckComplete
  refine KeepsR.ok ?_
  with_reducible repeat' first
    | assumption | exact Keeps.refl _ | refine Keeps.ite ?_ ?_ | (intro x; subst x) | lift_lets -underBinder | refine deviceFail_keeps ?_
    | refine deriveIdentity_keeps ?_ | refine updBoot_keeps (fun _ => rfl) ?_ | split | refine Keeps.upd ?_

theorem execPerst_keeps {port : HostId} {asserted : Bool} (s : State) : KeepsR s (execPerst port asserted s) := by
  unfold execPerst
  refine KeepsR.ok ?_
  with_reducible repeat' first
    | assumption | exact Keeps.refl _ | refine Keeps.ite ?_ ?_ | (intro x; subst x) | lift_lets -underBinder | refine dropLink_keeps ?_
    | refine Keeps.upd ?_

theorem execLinkDown_keeps {a : BenchPort} (s : State) : KeepsR s (execLinkDown a s) := by
  unfold execLinkDown
  refine KeepsR.ok ?_
  with_reducible repeat' first | assumption | exact Keeps.refl _ | refine dropLink_keeps ?_ | refine resetParts_keeps ?_ | split | refine Keeps.upd ?_

theorem execFunctionLevelReset_keeps {a : BenchPort} {fn : Nat} (s : State) : KeepsR s (execFunctionLevelReset a fn s) := by
  unfold execFunctionLevelReset
  refine KeepsR.ok ?_
  with_reducible repeat' first
    | assumption | exact Keeps.refl _ | refine Keeps.ite ?_ ?_ | (intro x; subst x) | lift_lets -underBinder | refine Keeps.updHost ?_
    | refine resetParts_keeps ?_ | refine resetMembers_keeps ?_

theorem execVerificationComplete_keeps {stagingParity : Bool} (s : State) : KeepsR s (execVerificationComplete stagingParity s) := by
  unfold execVerificationComplete
  refine KeepsR.ok ?_
  with_reducible repeat' first
    | assumption | exact Keeps.refl _ | refine Keeps.ite ?_ ?_ | (intro x; subst x) | lift_lets -underBinder | refine runImage_keeps ?_
    | refine deviceFail_keeps ?_ | refine updBoot_keeps (fun _ => rfl) ?_ | split | refine Keeps.upd ?_

theorem execRepairRecord_keeps (s : State) : KeepsR s (execRepairRecord s) := by
  unfold execRepairRecord
  refine KeepsR.ok ?_
  with_reducible repeat' first
    | assumption | exact Keeps.refl _ | refine Keeps.ite ?_ ?_ | refine noRecord_keeps ?_ | refine takeRecord_keeps ?_ | split | refine Keeps.upd ?_

theorem execRepairRecordWaitExpiry_keeps (s : State) : KeepsR s (execRepairRecordWaitExpiry s) := by
  unfold execRepairRecordWaitExpiry
  refine KeepsR.ok ?_
  with_reducible repeat' first | assumption | exact Keeps.refl _ | refine Keeps.ite ?_ ?_ | refine noRecord_keeps ?_ | refine Keeps.upd ?_

theorem execReady_keeps {failures : List BistEntry} (s : State) : KeepsR s (execReady failures s) := by
  unfold execReady
  refine KeepsR.ok ?_
  with_reducible repeat' first
    | assumption | exact Keeps.refl _ | refine Keeps.ite ?_ ?_ | (intro x; subst x) | lift_lets -underBinder | refine retentionFail_keeps ?_
    | refine updBoot_keeps (fun _ => rfl) ?_ | refine Keeps.fold (fun _ _ _ => ?_) _ ?_ | refine Keeps.upd ?_

theorem execThermtrip_keeps {die : DieIx} (s : State) : KeepsR s (execThermtrip die s) := by
  unfold execThermtrip
  refine KeepsR.ok ?_
  with_reducible repeat' first
    | assumption | exact Keeps.refl _ | refine Keeps.ite ?_ ?_ | (intro x; subst x) | lift_lets -underBinder | refine deviceFail_keeps ?_
    | refine Keeps.upd ?_

theorem execQuenchInput_keeps {lowNs : Nat} (s : State) : KeepsR s (execQuenchInput lowNs s) := by
  unfold execQuenchInput
  refine KeepsR.ok ?_
  with_reducible repeat' first | assumption | exact Keeps.refl _ | refine Keeps.ite ?_ ?_ | refine declareLost_keeps ?_ | refine quenchDevice_keeps ?_

theorem execPwrbrkAssert_keeps (s : State) : KeepsR s (execPwrbrkAssert s) := by
  unfold execPwrbrkAssert
  refine KeepsR.ok ?_
  with_reducible repeat' first
    | assumption | exact Keeps.refl _ | refine Keeps.ite ?_ ?_ | (intro x; subst x) | lift_lets -underBinder | refine applyBrake_keeps ?_
    | refine Keeps.upd ?_

theorem execPwrbrkDeassert_keeps (s : State) : KeepsR s (execPwrbrkDeassert s) := by
  unfold execPwrbrkDeassert
  refine KeepsR.ok ?_
  with_reducible repeat' first | assumption | exact Keeps.refl _ | refine Keeps.upd ?_

theorem execDroop_keeps {die : DieIx} (s : State) : KeepsR s (execDroop die s) := by
  unfold execDroop
  refine KeepsR.ok ?_
  with_reducible repeat' first
    | assumption | exact Keeps.refl _ | refine Keeps.updDie ?_ (fun x hx => hx.frame rfl rfl rfl rfl rfl rfl) | refine count_keeps ?_
    | refine Keeps.upd ?_

theorem execSyncInEdge_keeps {offsetNs : Int} {sinceNs : Nat} (s : State) : KeepsR s (execSyncInEdge offsetNs sinceNs s) := by
  unfold execSyncInEdge
  refine KeepsR.ok ?_
  with_reducible repeat' first
    | assumption | exact Keeps.refl _ | refine Keeps.ite ?_ ?_ | (intro x; subst x) | lift_lets -underBinder | refine boundary_keeps ?_
    | refine updHearth_keeps ?_ | refine Keeps.upd ?_

theorem execSyncFreeRun_keeps (s : State) : KeepsR s (execSyncFreeRun s) := by
  unfold execSyncFreeRun
  refine KeepsR.ok ?_
  with_reducible repeat' first
    | assumption | exact Keeps.refl _ | refine Keeps.ite ?_ ?_ | refine logAt_keeps ?_ | refine updHearth_keeps ?_ | refine Keeps.upd ?_

theorem execGovernorInterval_keeps {reports : List DieReport} (s : State) : KeepsR s (execGovernorInterval reports s) := by
  unfold execGovernorInterval
  refine KeepsR.ok ?_
  with_reducible repeat' first | assumption | exact Keeps.refl _ | refine Keeps.ite ?_ ?_ | refine governor_keeps ?_

theorem execAdmissionBoundary_keeps (s : State) : KeepsR s (execAdmissionBoundary s) := by
  unfold execAdmissionBoundary
  refine KeepsR.ok ?_
  with_reducible repeat' first | assumption | exact Keeps.refl _ | refine Keeps.ite ?_ ?_ | refine boundary_keeps ?_

theorem execIdleEntry_keeps {die : DieIx} {idleUs : Nat} (s : State) : KeepsR s (execIdleEntry die idleUs s) := by
  unfold execIdleEntry
  refine KeepsR.ok ?_
  with_reducible repeat' first
    | assumption | exact Keeps.refl _ | refine Keeps.ite ?_ ?_ | refine Keeps.updDie ?_ (fun x hx => hx.frame rfl rfl rfl rfl rfl rfl)
    | refine Keeps.upd ?_

theorem execAnchorCompare_keeps {point : Nat} {primary checker : List Byte} (s : State) : KeepsR s (execAnchorCompare point primary checker s) := by
  unfold execAnchorCompare
  refine KeepsR.ok ?_
  with_reducible repeat' first | assumption | exact Keeps.refl _ | refine Keeps.ite ?_ ?_ | refine deviceFail_keeps ?_

theorem execAnchorCompareTimeout_keeps {point : Nat} (s : State) : KeepsR s (execAnchorCompareTimeout point s) := by
  unfold execAnchorCompareTimeout
  refine KeepsR.ok ?_
  with_reducible repeat' first | assumption | exact Keeps.refl _ | refine Keeps.ite ?_ ?_ | refine deviceFail_keeps ?_

theorem unquench_window (restart : Bool) (x : Queue) : (unquench restart x).window = x.window := by
  unfold unquench; split <;> rfl

theorem execPartitionQuenchComplete_keeps {p : PartIx} (s : State) : KeepsR s (execPartitionQuenchComplete p s) := by
  unfold execPartitionQuenchComplete
  refine KeepsR.ok ?_
  split
  · exact .refl s
  · refine .ite (.refl s) ?_
    refine Keeps.fold (fun _ _ h => Keeps.fold (fun _ _ h => readQueue_keeps h) _ h) _ ?_
    refine Keeps.fold (fun _ _ h => ?_) _ (.updPart (.refl s))
    exact h.updDie fun _ hx => hx.queuesMap rfl rfl rfl rfl rfl rfl fun q hq => by rwa [unquench_window]

theorem execScratchpadParity_keeps {die : DieIx} {op row : Nat} (s : State) : KeepsR s (execScratchpadParity die op row s) := by
  unfold execScratchpadParity
  refine KeepsR.ok ?_
  with_reducible repeat' first
    | assumption | exact Keeps.refl _ | refine parityFail_keeps (fun _ _ => ?_) ?_ | refine poisonHandle_keeps ?_ | refine holdOutRow_keeps ?_
    | split | refine Keeps.upd ?_

theorem execClusterBufferParity_keeps {die : DieIx} {cluster : Fin 8} {row op : Nat}
    (s : State) : KeepsR s (execClusterBufferParity die cluster row op s) := by
  unfold execClusterBufferParity
  refine KeepsR.ok ?_
  with_reducible repeat' first
    | assumption | exact Keeps.refl _ | refine parityFail_keeps (fun _ _ => ?_) ?_ | refine count_keeps ?_ | refine listFailure_keeps ?_

theorem execRegisterParity_keeps {die : DieIx} {loc : RegLoc} {op : Nat} (s : State) : KeepsR s (execRegisterParity die loc op s) := by
  unfold execRegisterParity
  refine KeepsR.ok ?_
  with_reducible repeat' first | assumption | exact Keeps.refl _ | refine parityFail_keeps (fun _ _ => ?_) ?_ | refine poisonReg_keeps ?_

theorem execKeyRowParity_keeps {die : DieIx} {op row : Nat} (s : State) : KeepsR s (execKeyRowParity die op row s) := by
  unfold execKeyRowParity
  refine KeepsR.ok ?_
  with_reducible repeat' first
    | assumption | exact Keeps.refl _ | refine Keeps.ite ?_ ?_ | (intro x; subst x) | lift_lets -underBinder | refine holdOutStack_keeps ?_
    | refine updKs_keeps ?_ | refine sendTwin_keeps ?_ | refine settleDies_keeps ?_ | refine quenchJob_keeps ?_ | refine logJob_keeps ?_ | split
    | refine Keeps.upd ?_

theorem execStoreParity_keeps {die : DieIx} {op row : Nat} (s : State) : KeepsR s (execStoreParity die op row s) := by
  unfold execStoreParity
  refine KeepsR.ok ?_
  with_reducible repeat' first | assumption | exact Keeps.refl _ | refine parityFail_keeps (fun _ _ => ?_) ?_ | refine holdOutStack_keeps ?_

theorem execControlParity_keeps {die : DieIx} {structure_ : Nat} (s : State) : KeepsR s (execControlParity die structure_ s) := by
  unfold execControlParity
  refine KeepsR.ok ?_
  with_reducible repeat' first | assumption | exact Keeps.refl _ | refine Keeps.ite ?_ ?_ | refine deviceFail_keeps ?_

theorem execEntropyFail_keeps {die : DieIx} (s : State) : KeepsR s (execEntropyFail die s) := by
  unfold execEntropyFail
  refine KeepsR.ok ?_
  with_reducible repeat' first | assumption | exact Keeps.refl _ | refine Keeps.ite ?_ ?_ | refine deviceFail_keeps ?_

theorem execClockCheck_keeps {die : DieIx} {ppm : Int} (s : State) : KeepsR s (execClockCheck die ppm s) := by
  unfold execClockCheck
  refine KeepsR.ok ?_
  with_reducible repeat' first | assumption | exact Keeps.refl _ | refine Keeps.ite ?_ ?_ | refine checkFail_keeps ?_

theorem execSupplyCheck_keeps {die : DieIx} {permyriad : Nat} (s : State) : KeepsR s (execSupplyCheck die permyriad s) := by
  unfold execSupplyCheck
  refine KeepsR.ok ?_
  with_reducible repeat' first | assumption | exact Keeps.refl _ | refine Keeps.ite ?_ ?_ | refine checkFail_keeps ?_

theorem execEyeMarginCheck_keeps {port : PortIx} {margin : Nat} (s : State) : KeepsR s (execEyeMarginCheck port margin s) := by
  unfold execEyeMarginCheck
  refine KeepsR.ok ?_
  with_reducible repeat' first | assumption | exact Keeps.refl _ | refine Keeps.ite ?_ ?_ | refine Keeps.updPort ?_ | refine Keeps.upd ?_

theorem execQueueWindowWrite_keeps {port : HostId} {fn slot : Nat} {die : DieIx} {queue : QueueIx} {offset : Nat} {bytes : Option (List Byte)}
    (s : State) : KeepsR s (execQueueWindowWrite port fn slot die queue offset bytes s) := by
  unfold execQueueWindowWrite
  refine KeepsR.ok ?_
  split
  · exact .updHost (.refl s)
  · have written : ∀ bs : List Byte, Keeps s (updQueue die queue (fun x => { x with window := memPut x.window offset bs }) s) :=
      fun bs => Keeps.updQueue (.refl s) fun _ hx => memPut_wf _ _ hx
    split
    · exact wakeDie_keeps (.ite (readQueue_keeps (written _)) (written _))
    · split
      · exact sendMsg_keeps (.refl s)
      · exact .refl s

theorem execNop_keeps {die : DieIx} {queue : QueueIx} (s : State) : KeepsR s (execNop die queue s) := by
  unfold execNop
  refine KeepsR.ok ?_
  with_reducible repeat' first | assumption | exact Keeps.refl _ | refine actPacket_keeps (fun _ _ _ => ?_) ?_

theorem execProgramLoad_keeps {die : DieIx} {queue : QueueIx} (s : State) : KeepsR s (execProgramLoad die queue s) := by
  unfold execProgramLoad
  refine KeepsR.ok ?_
  with_reducible repeat' first
    | assumption | exact Keeps.refl _ | refine Keeps.ite ?_ ?_ | (intro x; subst x) | lift_lets -underBinder
    | refine actPacket_keeps (fun _ _ _ => ?_) ?_ | refine refusePacket_keeps ?_ | refine holdQueue_keeps ?_ | split | refine Keeps.upd ?_

theorem execProgramLoadComplete_keeps {die : DieIx} {queue : QueueIx} {image : List Byte}
    (s : State) : KeepsR s (execProgramLoadComplete die queue image s) := by
  unfold execProgramLoadComplete
  refine KeepsR.ok ?_
  with_reducible repeat' first
    | assumption | exact Keeps.refl _ | refine Keeps.ite ?_ ?_ | (intro x; subst x) | lift_lets -underBinder
    | refine Keeps.updDie ?_ (fun x hx => hx.frame rfl rfl rfl rfl rfl rfl) | refine Keeps.updPart ?_ | refine refusePacket_keeps ?_
    | refine okPacket_keeps ?_ | refine allocPools_keeps ?_ | refine releaseQueue_keeps ?_ | refine Keeps.fold (fun _ _ _ => ?_) _ ?_ | split
    | refine Keeps.upd ?_

theorem execProgramUnload_keeps {die : DieIx} {queue : QueueIx} (s : State) : KeepsR s (execProgramUnload die queue s) := by
  unfold execProgramUnload
  refine KeepsR.ok ?_
  with_reducible repeat' first
    | assumption | exact Keeps.refl _ | refine Keeps.ite ?_ ?_ | (intro x; subst x) | lift_lets -underBinder
    | refine Keeps.updDie ?_ (fun x hx => hx.frame rfl rfl rfl rfl rfl rfl) | refine Keeps.updPart ?_ | refine releaseQueue_keeps ?_
    | refine refusePacket_keeps ?_ | refine finishEvictions_keeps ?_ | refine okPacket_keeps ?_ | refine Keeps.fold (fun _ _ _ => ?_) _ ?_ | split
    | refine Keeps.upd ?_

theorem execPatch_keeps {die : DieIx} {queue : QueueIx} (s : State) : KeepsR s (execPatch die queue s) := by
  unfold execPatch
  refine KeepsR.ok ?_
  with_reducible repeat' first
    | assumption | exact Keeps.refl _ | refine Keeps.ite ?_ ?_ | (intro x; subst x) | lift_lets -underBinder | refine Keeps.updPart ?_
    | refine actPacket_keeps (fun _ _ _ => ?_) ?_ | refine refusePacket_keeps ?_ | refine holdQueue_keeps ?_ | split | refine Keeps.upd ?_

theorem execPatchApply_keeps {die : DieIx} {queue : QueueIx} (s : State) : KeepsR s (execPatchApply die queue s) := by
  unfold execPatchApply
  refine KeepsR.ok ?_
  with_reducible repeat' first
    | assumption | exact Keeps.refl _ | refine Keeps.ite ?_ ?_ | (intro x; subst x) | lift_lets -underBinder | refine Keeps.updPart ?_
    | refine releaseQueue_keeps ?_ | refine refusePacket_keeps ?_ | refine okPacket_keeps ?_ | refine finishEvictions_keeps ?_ | split
    | refine Keeps.upd ?_

theorem execKeysetBind_keeps {die : DieIx} {queue : QueueIx} {envelope : List Byte} (s : State) : KeepsR s (execKeysetBind die queue envelope s) := by
  unfold execKeysetBind
  refine KeepsR.ok ?_
  with_reducible repeat' first
    | assumption | exact Keeps.refl _ | refine Keeps.ite ?_ ?_ | (intro x; subst x) | lift_lets -underBinder | refine Keeps.updPart ?_
    | refine actPacket_keeps (fun _ _ _ => ?_) ?_ | refine refusePacket_keeps ?_ | refine refuseBind_keeps ?_ | refine noteReason_keeps ?_
    | refine updKs_keeps ?_ | refine holdQueue_keeps ?_ | split | refine Keeps.upd ?_

theorem execImportSegment_keeps {p : PartIx} {slot : Nat} {sealedBytes : List Byte}
    (s : State) : KeepsR s (execImportSegment p slot sealedBytes s) := by
  unfold execImportSegment
  refine KeepsR.ok ?_
  with_reducible repeat' first
    | assumption | exact Keeps.refl _ | refine Keeps.ite ?_ ?_ | refine segmentArrives_keeps ?_ | split | refine Keeps.upd ?_

theorem execJobSubmit_keeps {die : DieIx} {queue : QueueIx} (s : State) : KeepsR s (execJobSubmit die queue s) := by
  unfold execJobSubmit
  refine KeepsR.ok ?_
  with_reducible repeat' first
    | assumption | exact Keeps.refl _ | refine Keeps.ite ?_ ?_ | (intro x; subst x) | lift_lets -underBinder
    | refine Keeps.updQueue ?_ (fun x hx => hx) | refine actPacket_keeps (fun _ _ _ => ?_) ?_ | refine refusePacket_keeps ?_
    | refine holdQueue_keeps ?_ | refine Keeps.fold (fun _ _ _ => ?_) _ ?_ | split | refine Keeps.upd ?_

theorem execFence_keeps {die : DieIx} {queue : QueueIx} (s : State) : KeepsR s (execFence die queue s) := by
  unfold execFence
  refine KeepsR.ok ?_
  with_reducible repeat' first
    | assumption | exact Keeps.refl _ | refine Keeps.ite ?_ ?_ | (intro x; subst x) | lift_lets -underBinder
    | refine actPacket_keeps (fun _ _ _ => ?_) ?_ | refine refusePacket_keeps ?_ | refine holdQueue_keeps ?_

theorem execFenceComplete_keeps {die : DieIx} {queue : QueueIx} (s : State) : KeepsR s (execFenceComplete die queue s) := by
  unfold execFenceComplete
  refine KeepsR.ok ?_
  with_reducible repeat' first
    | assumption | exact Keeps.refl _ | refine Keeps.ite ?_ ?_ | (intro x; subst x) | lift_lets -underBinder | refine releaseQueue_keeps ?_
    | refine okPacket_keeps ?_ | refine signalFlag_keeps ?_ | split | refine Keeps.upd ?_

theorem execSetStep_keeps {die : DieIx} {queue : QueueIx} (s : State) : KeepsR s (execSetStep die queue s) := by
  unfold execSetStep
  refine KeepsR.ok ?_
  with_reducible repeat' first
    | assumption | exact Keeps.refl _ | refine Keeps.ite ?_ ?_ | refine Keeps.updQueue ?_ (fun x hx => hx)
    | refine actPacket_keeps (fun _ _ _ => ?_) ?_ | refine okPacket_keeps ?_ | split | refine Keeps.upd ?_

theorem execCancel_keeps {die : DieIx} {queue : QueueIx} (s : State) : KeepsR s (execCancel die queue s) := by
  unfold execCancel
  refine KeepsR.ok ?_
  split
  · exact .refl s
  · refine .ite (.refl s) ?_
    split
    · exact .refl s
    · rename_i pre b post _
      have line : Keeps s (updQueue die queue (fun x => { x with line := pre ++ post }) s) := .updQueue (.refl s) fun _ hx => hx
      refine .ite (settleQueue_keeps (refusePacket_keeps line)) ?_
      extract_lets mode target js s₂
      have quenched : Keeps s s₂ := Keeps.fold (fun _ _ h => quenchJob_keeps h) _ line
      clear_value s₂
      have own := cancelLine_keeps (d := die) (q := queue) (n := pre.length) (mode := mode) (target := target) quenched
      revert own
      rcases cancelLine die queue pre.length mode target s₂ with ⟨n, s₃⟩
      intro own
      dsimp only
      split
      · refine settleDies_keeps (okPacket_keeps (Keeps.foldP (fun _ _ h => ?_) _ own))
        refine Keeps.foldP (fun _ _ h => ?_) _ h
        exact KeepsP.ite h (cancelLine_keeps h)
      · exact settleDies_keeps (okPacket_keeps own)

theorem execBlock_keeps {die : DieIx} {queue : QueueIx} (s : State) : KeepsR s (execBlock die queue s) := by
  unfold execBlock
  refine KeepsR.ok ?_
  with_reducible repeat' first
    | assumption | exact Keeps.refl _ | refine Keeps.ite ?_ ?_ | (intro x; subst x) | lift_lets -underBinder
    | refine Keeps.updQueue ?_ (fun x hx => hx) | refine actPacket_keeps (fun _ _ _ => ?_) ?_ | refine holdQueue_keeps ?_ | refine endBlock_keeps ?_
    | refine Keeps.upd ?_

theorem execBlockExpiry_keeps {die : DieIx} {queue : QueueIx} (s : State) : KeepsR s (execBlockExpiry die queue s) := by
  unfold execBlockExpiry
  refine KeepsR.ok ?_
  with_reducible repeat' first
    | assumption | exact Keeps.refl _ | refine Keeps.ite ?_ ?_ | (intro x; subst x) | lift_lets -underBinder
    | refine Keeps.updQueue ?_ (fun x hx => hx) | refine settleQueue_keeps ?_ | refine refusePacket_keeps ?_ | split | refine Keeps.upd ?_

theorem execJobComplete_keeps {job elapsedNs : Nat} (s : State) : KeepsR s (execJobComplete job elapsedNs s) := by
  unfold execJobComplete
  refine KeepsR.ok ?_
  with_reducible repeat' first
    | assumption | exact Keeps.refl _ | refine Keeps.ite ?_ ?_ | refine settleDies_keeps ?_ | refine finishJob_keeps ?_ | split
    | refine Keeps.upd ?_

theorem execSetFlag_keeps {at_ : Site} {flag : FlagAt} (s : State) : KeepsR s (execSetFlag at_ flag s) := by
  unfold execSetFlag
  refine KeepsR.ok ?_
  with_reducible repeat' first
    | assumption | exact Keeps.refl _ | refine KeepsI.done ?_ | refine KeepsI.ite ?_ ?_ | refine Keeps.ite ?_ ?_
    | refine runInstr_keeps (fun _ _ _ => ?_) ?_ | refine issueFlagSet_keeps ?_ | refine signalFlag_keeps ?_ | refine skipInstr_keeps ?_ | split
    | refine Keeps.upd ?_

theorem execClearFlag_keeps {at_ : Site} {flag : Nat} (s : State) : KeepsR s (execClearFlag at_ flag s) := by
  unfold execClearFlag
  refine KeepsR.ok ?_
  with_reducible repeat' first
    | assumption | exact Keeps.refl _ | refine KeepsI.done ?_ | refine KeepsI.ite ?_ ?_ | refine Keeps.ite ?_ ?_
    | refine runInstr_keeps (fun _ _ _ => ?_) ?_ | refine clearFlagBit_keeps ?_ | refine skipInstr_keeps ?_

theorem execWaitFlag_keeps {at_ : Site} {flag : Nat} (s : State) : KeepsR s (execWaitFlag at_ flag s) := by
  unfold execWaitFlag
  refine KeepsR.ok ?_
  with_reducible repeat' first
    | assumption | exact Keeps.refl _ | exact KeepsI.wait | refine KeepsI.done ?_ | refine KeepsI.ite ?_ ?_ | refine Keeps.ite ?_ ?_
    | refine runInstr_keeps (fun _ _ _ => ?_) ?_ | refine skipInstr_keeps ?_

theorem execFlagTimeout_keeps {die : DieIx} {queue : QueueIx} (s : State) : KeepsR s (execFlagTimeout die queue s) := by
  unfold execFlagTimeout
  refine KeepsR.ok ?_
  with_reducible repeat' first
    | assumption | exact Keeps.refl _ | exact KeepsI.wait | refine Keeps.ite ?_ ?_ | (intro x; subst x) | lift_lets -underBinder
    | refine quenchJob_keeps ?_ | refine poisonAll_keeps ?_ | refine nameDests_keeps ?_ | refine logJob_keeps ?_ | refine lateFlag_keeps ?_
    | refine streamTimeout_keeps ?_ | split | refine Keeps.upd ?_

theorem execFlagDeadlock_keeps {die : DieIx} {queues : List QueueIx} (s : State) : KeepsR s (execFlagDeadlock die queues s) := by
  unfold execFlagDeadlock
  refine KeepsR.ok ?_
  with_reducible repeat' first
    | assumption | exact Keeps.refl _ | refine Keeps.ite ?_ ?_ | (intro x; subst x) | lift_lets -underBinder | refine logJob_keeps ?_
    | refine lateFlag_keeps ?_ | refine quenchJobs_keeps ?_ | refine Keeps.fold (fun _ _ _ => ?_) _ ?_ | split | refine Keeps.upd ?_

theorem execUndefinedInstruction_keeps {at_ : Site} (s : State) : KeepsR s (execUndefinedInstruction at_ s) := by
  unfold execUndefinedInstruction
  refine KeepsR.ok ?_
  with_reducible repeat' first
    | assumption | exact Keeps.refl _ | refine KeepsI.done ?_ | refine runInstr_keeps (fun _ _ _ => ?_) ?_ | refine skipInstr_keeps ?_

theorem execOperationComplete_keeps {die : DieIx} {op : Nat} (s : State) : KeepsR s (execOperationComplete die op s) := by
  unfold execOperationComplete
  refine KeepsR.ok ?_
  with_reducible repeat' first
    | assumption | exact Keeps.refl _ | refine Keeps.ite ?_ ?_ | refine finishXfer_keeps ?_ | refine finishOp_keeps ?_ | split | refine Keeps.upd ?_

theorem execShrSmul_keeps {at_ : Site} {mask : BitVec 8} {src sc dst : Nat} (s : State) : KeepsR s (execShrSmul at_ mask src sc dst s) := by
  unfold execShrSmul
  refine KeepsR.ok ?_
  with_reducible repeat' first
    | assumption | exact Keeps.refl _ | exact KeepsI.wait | refine KeepsI.done ?_ | refine KeepsI.ite ?_ ?_ | refine Keeps.ite ?_ ?_
    | (intro x; subst x) | lift_lets -underBinder | refine runInstr_keeps (fun _ _ _ => ?_) ?_ | refine refuseInstr_keeps ?_
    | refine issueShr_keeps (fun _ _ _ _ _ => ?_) (fun _ _ _ _ _ _ _ => ?_) ?_ | refine startOp_keeps ?_ | refine putShare_keeps ?_
    | refine Keeps.upd ?_

theorem execExchangeTimeout_keeps {p : PartIx} {session : Nat} (s : State) : KeepsR s (execExchangeTimeout p session s) := by
  unfold execExchangeTimeout
  refine KeepsR.ok ?_
  with_reducible repeat' first | assumption | exact Keeps.refl _ | refine failOp_keeps ?_ | split | refine Keeps.upd ?_

theorem execPaletteReadClear_keeps {at_ : Site} {entry sc : Nat} (s : State) : KeepsR s (execPaletteReadClear at_ entry sc s) := by
  unfold execPaletteReadClear
  refine KeepsR.ok ?_
  with_reducible repeat' first
    | assumption | exact Keeps.refl _ | refine runInstr_keeps (fun _ _ _ => ?_) ?_ | refine issueRead_keeps (fun _ _ => ?_) ?_
    | refine readClearPalette_keeps ?_

theorem execNanCountReadClear_keeps {at_ : Site} {sc : Nat} (s : State) : KeepsR s (execNanCountReadClear at_ sc s) := by
  unfold execNanCountReadClear
  refine KeepsR.ok ?_
  with_reducible repeat' first
    | assumption | exact Keeps.refl _ | refine Keeps.updQueue ?_ (fun x hx => hx) | refine runInstr_keeps (fun _ _ _ => ?_) ?_
    | refine issueRead_keeps (fun _ _ => ?_) ?_ | refine putScalar_keeps ?_ | refine Keeps.upd ?_

theorem execCvt_keeps {at_ : Site} {eng : Fin 2} {n : Nat} {a dst : VOp} {xt : Nat} {palette : Option Nat}
    (s : State) : KeepsR s (execCvt at_ eng n a dst xt palette s) := by
  unfold execCvt
  refine KeepsR.ok ?_
  with_reducible repeat' first
    | assumption | exact Keeps.refl _ | refine KeepsI.ite ?_ ?_ | refine Keeps.ite ?_ ?_ | (intro x; subst x) | lift_lets -underBinder
    | refine runInstr_keeps (fun _ _ _ => ?_) ?_ | refine issueVec_keeps (fun _ _ _ _ => ?_) ?_ | refine runCvt_keeps ?_ | refine Keeps.upd ?_

theorem execFix_keeps {at_ : Site} {eng : Fin 2} {n f : Nat} {a dst : VOp} (s : State) : KeepsR s (execFix at_ eng n f a dst s) := by
  unfold execFix
  refine KeepsR.ok ?_
  with_reducible repeat' first
    | assumption | exact Keeps.refl _ | (intro x; subst x) | lift_lets -underBinder | refine runInstr_keeps (fun _ _ _ => ?_) ?_
    | refine issueVec_keeps (fun _ _ _ _ => ?_) ?_ | refine vWrite_keeps ?_ | refine countNans_keeps ?_ | refine Keeps.upd ?_

theorem execFlt_keeps {at_ : Site} {eng : Fin 2} {n f : Nat} {a dst : VOp} (s : State) : KeepsR s (execFlt at_ eng n f a dst s) := by
  unfold execFlt
  refine KeepsR.ok ?_
  with_reducible repeat' first
    | assumption | exact Keeps.refl _ | (intro x; subst x) | lift_lets -underBinder | refine runInstr_keeps (fun _ _ _ => ?_) ?_
    | refine issueVec_keeps (fun _ _ _ _ => ?_) ?_ | refine runPlain_keeps ?_ | refine Keeps.upd ?_

theorem execSort_keeps {at_ : Site} {eng : Fin 2} {n : Nat} {a dst : VOp} (s : State) : KeepsR s (execSort at_ eng n a dst s) := by
  unfold execSort
  refine KeepsR.ok ?_
  with_reducible repeat' first
    | assumption | exact Keeps.refl _ | (intro x; subst x) | lift_lets -underBinder | refine runInstr_keeps (fun _ _ _ => ?_) ?_
    | refine issueVec_keeps (fun _ _ _ _ => ?_) ?_ | refine runPlain_keeps ?_

theorem execArgsort_keeps {at_ : Site} {eng : Fin 2} {n : Nat} {a dst : VOp} (s : State) : KeepsR s (execArgsort at_ eng n a dst s) := by
  unfold execArgsort
  refine KeepsR.ok ?_
  with_reducible repeat' first
    | assumption | exact Keeps.refl _ | (intro x; subst x) | lift_lets -underBinder | refine runInstr_keeps (fun _ _ _ => ?_) ?_
    | refine issueVec_keeps (fun _ _ _ _ => ?_) ?_ | refine runPlain_keeps ?_ | refine Keeps.upd ?_

theorem execBnCfg_keeps {at_ : Site} {slot n : Nat} {secret : Bool} (s : State) : KeepsR s (execBnCfg at_ slot n secret s) := by
  unfold execBnCfg
  refine KeepsR.ok ?_
  with_reducible repeat' first
    | assumption | exact Keeps.refl _ | refine KeepsI.done ?_ | refine KeepsI.ite ?_ ?_ | refine Keeps.ite ?_ ?_
    | refine runInstr_keeps (fun _ _ _ => ?_) ?_ | refine skipInstr_keeps ?_ | refine updSlot_keeps ?_ | refine nameDests_keeps ?_

theorem execBnLoad_keeps {at_ : Site} {slot handle offset : Nat} (s : State) : KeepsR s (execBnLoad at_ slot handle offset s) :=
  .ok (runInstr_keeps (fun _ _ h => .ite (.done (onVerdict_keeps (fun _ h => h) h))
    (withScoreboard_keeps (fun _ _ h => .ite (.done (refuseInstr_keeps h)) (.done (updSlot_keeps (nameDests_keeps h)))) h)) (.refl s))

theorem execBnRead_keeps {at_ : Site} {handle offset slot : Nat} (s : State) : KeepsR s (execBnRead at_ handle offset slot s) :=
  .ok (runInstr_keeps (fun _ _ h => .ite (.done (onVerdict_keeps (fun _ h => h) h))
    (withScoreboard_keeps (fun _ _ h => .done (putHandle_keeps (nameDests_keeps h))) h)) (.refl s))

theorem execHstat_keeps {at_ : Site} {index sca scb : Nat} (s : State) : KeepsR s (execHstat at_ index sca scb s) := by
  unfold execHstat
  refine KeepsR.ok ?_
  with_reducible repeat' first
    | assumption | exact Keeps.refl _ | exact KeepsI.wait | refine KeepsI.done ?_ | refine KeepsI.ite ?_ ?_ | refine Keeps.ite ?_ ?_
    | (intro x; subst x) | lift_lets -underBinder | refine runInstr_keeps (fun _ _ _ => ?_) ?_ | refine putScalar_keeps ?_

theorem execAlloc_keeps {at_ : Site} {index base rows : Nat} {secret : Bool} (s : State) : KeepsR s (execAlloc at_ index base rows secret s) := by
  unfold execAlloc
  refine KeepsR.ok ?_
  with_reducible repeat' first
    | assumption | exact Keeps.refl _ | refine KeepsI.done ?_ | refine KeepsI.ite ?_ ?_ | refine Keeps.ite ?_ ?_ | (intro x; subst x)
    | lift_lets -underBinder | refine runInstr_keeps (fun _ _ _ => ?_) ?_ | refine skipQuench_keeps ?_
    | refine withScoreboard_keeps (fun _ _ _ => ?_) ?_ | refine updHandle_keeps ?_ | refine Keeps.upd ?_

theorem execFree_keeps {at_ : Site} {index : Nat} (s : State) : KeepsR s (execFree at_ index s) := by
  unfold execFree
  refine KeepsR.ok ?_
  with_reducible repeat' first
    | assumption | exact Keeps.refl _ | refine KeepsI.done ?_ | refine KeepsI.waitWith ?_ | refine KeepsI.ite ?_ ?_ | refine Keeps.ite ?_ ?_
    | (intro x; subst x) | lift_lets -underBinder | refine runInstr_keeps (fun _ _ _ => ?_) ?_ | refine skipQuench_keeps ?_
    | refine closeAll_keeps ?_ | refine withScoreboard_keeps (fun _ _ _ => ?_) ?_ | refine freeHandle_keeps ?_ | refine Keeps.upd ?_

theorem execRingInit_keeps {at_ : Site} {ring handle slots slotRows : Nat}
    (s : State) : KeepsR s (execRingInit at_ ring handle slots slotRows s) := by
  unfold execRingInit
  refine KeepsR.ok ?_
  with_reducible repeat' first
    | assumption | exact Keeps.refl _ | refine KeepsI.done ?_ | refine KeepsI.ite ?_ ?_ | refine Keeps.ite ?_ ?_ | (intro x; subst x)
    | lift_lets -underBinder | refine runInstr_keeps (fun _ _ _ => ?_) ?_ | refine skipQuench_keeps ?_ | refine updHandle_keeps ?_
    | refine updRing_keeps ?_ | refine Keeps.upd ?_

theorem execRingFree_keeps {at_ : Site} {ring : Nat} (s : State) : KeepsR s (execRingFree at_ ring s) := by
  unfold execRingFree
  refine KeepsR.ok ?_
  with_reducible repeat' first
    | assumption | exact Keeps.refl _ | refine KeepsI.done ?_ | refine runInstr_keeps (fun _ _ _ => ?_) ?_ | refine dropRing_keeps ?_

theorem execSalloc_keeps {at_ : Site} {index base rows : Nat} (s : State) : KeepsR s (execSalloc at_ index base rows s) := by
  unfold execSalloc
  refine KeepsR.ok ?_
  with_reducible repeat' first
    | assumption | exact Keeps.refl _ | refine KeepsI.done ?_ | refine KeepsI.ite ?_ ?_ | refine Keeps.ite ?_ ?_ | (intro x; subst x)
    | lift_lets -underBinder | refine runInstr_keeps (fun _ _ _ => ?_) ?_ | refine skipQuench_keeps ?_ | refine updStore_keeps ?_
    | refine Keeps.upd ?_

theorem execSfree_keeps {at_ : Site} {index : Nat} (s : State) : KeepsR s (execSfree at_ index s) := by
  unfold execSfree
  refine KeepsR.ok ?_
  with_reducible repeat' first
    | assumption | exact Keeps.refl _ | refine KeepsI.done ?_ | refine KeepsI.waitWith ?_ | refine KeepsI.ite ?_ ?_ | refine Keeps.ite ?_ ?_
    | (intro x; subst x) | lift_lets -underBinder | refine Keeps.updDie ?_ (fun x hx => hx.frame rfl rfl rfl rfl rfl rfl)
    | refine runInstr_keeps (fun _ _ _ => ?_) ?_ | refine skipQuench_keeps ?_ | refine dropAperture_keeps ?_ | refine closeAll_keeps ?_
    | refine Keeps.upd ?_

theorem execPageRequestResponse_keeps {port : HostId} {group : Nat} {code : PriCode}
    (s : State) : KeepsR s (execPageRequestResponse port group code s) := by
  unfold execPageRequestResponse
  refine KeepsR.ok ?_
  with_reducible repeat' first
    | assumption | exact Keeps.refl _ | refine Keeps.ite ?_ ?_ | (intro x; subst x) | lift_lets -underBinder | refine Keeps.updHost ?_
    | refine benchResponse_keeps ?_ | refine dropGroup_keeps ?_ | refine updXfer_keeps ?_ | refine requestPages_keeps ?_ | refine failOp_keeps ?_
    | refine failWaiting_keeps ?_ | refine sendWaiting_keeps ?_ | split | refine Keeps.upd ?_

theorem execPageRequestTimeout_keeps {port : HostId} {group : Nat} (s : State) : KeepsR s (execPageRequestTimeout port group s) := by
  unfold execPageRequestTimeout
  refine KeepsR.ok ?_
  with_reducible repeat' first
    | assumption | exact Keeps.refl _ | refine Keeps.updHost ?_ | refine sendWaiting_keeps ?_ | refine failOp_keeps ?_ | split | refine Keeps.upd ?_

theorem execAtsInvalidation_keeps {port : HostId} {page : Nat} (s : State) : KeepsR s (execAtsInvalidation port page s) := by
  unfold execAtsInvalidation
  refine KeepsR.ok ?_
  with_reducible repeat' first | assumption | exact Keeps.refl _ | refine Keeps.updHost ?_ | refine emit_keeps ?_ | refine Keeps.upd ?_

theorem execSdigest_keeps {at_ : Site} {index : Nat} (s : State) : KeepsR s (execSdigest at_ index s) := by
  unfold execSdigest
  refine KeepsR.ok ?_
  with_reducible repeat' first
    | assumption | exact Keeps.refl _ | refine KeepsI.done ?_ | refine KeepsI.ite ?_ ?_ | refine Keeps.ite ?_ ?_ | (intro x; subst x)
    | lift_lets -underBinder | refine runInstr_keeps (fun _ _ _ => ?_) ?_ | refine skipInstr_keeps ?_ | refine updStore_keeps ?_
    | refine Keeps.upd ?_

theorem execWinOpen_keeps {at_ : Site} {window handle base length : Nat} {access : WinAccess} {sc : Nat}
    (s : State) : KeepsR s (execWinOpen at_ window handle base length access sc s) := by
  unfold execWinOpen
  refine KeepsR.ok ?_
  with_reducible repeat' first
    | assumption | exact Keeps.refl _ | exact KeepsI.wait | refine KeepsI.done ?_ | refine KeepsI.ite ?_ ?_ | refine Keeps.ite ?_ ?_
    | (intro x; subst x) | lift_lets -underBinder | refine runInstr_keeps (fun _ _ _ => ?_) ?_ | refine skipQuench_keeps ?_
    | refine putScalar_keeps ?_ | refine updWindow_keeps ?_

theorem execWinClose_keeps {at_ : Site} {window sc : Nat} (s : State) : KeepsR s (execWinClose at_ window sc s) := by
  unfold execWinClose
  refine KeepsR.ok ?_
  with_reducible repeat' first
    | assumption | exact Keeps.refl _ | exact KeepsI.wait | refine KeepsI.done ?_ | refine KeepsI.ite ?_ ?_ | refine Keeps.ite ?_ ?_
    | (intro x; subst x) | lift_lets -underBinder | refine runInstr_keeps (fun _ _ _ => ?_) ?_ | refine skipInstr_keeps ?_ | refine startOp_keeps ?_
    | refine beginClose_keeps ?_ | refine Keeps.upd ?_

theorem execWindowCloseComplete_keeps {window : Nat} (s : State) : KeepsR s (execWindowCloseComplete window s) := by
  unfold execWindowCloseComplete
  refine KeepsR.ok ?_
  with_reducible repeat' first
    | assumption | exact Keeps.refl _ | refine Keeps.ite ?_ ?_ | (intro x; subst x) | lift_lets -underBinder | refine updWindow_keeps ?_
    | refine putScalar_keeps ?_ | refine dropOp_keeps ?_ | refine Keeps.fold (fun _ _ _ => ?_) _ ?_ | split | refine Keeps.upd ?_

theorem execCollectiveTimeout_keeps {die : DieIx} {op : Nat} (s : State) : KeepsR s (execCollectiveTimeout die op s) := by
  unfold execCollectiveTimeout
  refine KeepsR.ok ?_
  with_reducible repeat' first | assumption | exact Keeps.refl _ | refine failColl_keeps ?_ | split | refine Keeps.upd ?_

theorem execFlit_keeps {port : PortIx} {f : Flit} (s : State) : KeepsR s (execFlit port f s) := by
  unfold execFlit
  refine KeepsR.ok ?_
  with_reducible repeat' first
    | assumption | exact Keeps.refl _ | refine Keeps.ite ?_ ?_ | (intro x; subst x) | lift_lets -underBinder | refine Keeps.updPort ?_
    | refine drainPort_keeps ?_ | refine flitError_keeps ?_ | refine emit_keeps ?_ | refine assemble_keeps ?_ | split | refine Keeps.upd ?_

theorem execRetry_keeps {port : PortIx} {seq : Nat} (s : State) : KeepsR s (execRetry port seq s) := by
  unfold execRetry
  refine KeepsR.ok ?_
  with_reducible repeat' first
    | assumption | exact Keeps.refl _ | refine Keeps.ite ?_ ?_ | (intro x; subst x) | lift_lets -underBinder | refine countRetry_keeps ?_
    | refine emit_keeps ?_ | refine Keeps.fold (fun _ _ _ => ?_) _ ?_

theorem execRetryRepeat_keeps {port : PortIx} (s : State) : KeepsR s (execRetryRepeat port s) := by
  unfold execRetryRepeat
  refine KeepsR.ok ?_
  with_reducible repeat' first
    | assumption | exact Keeps.refl _ | refine Keeps.ite ?_ ?_ | (intro x; subst x) | lift_lets -underBinder | refine Keeps.updPort ?_
    | refine countRetry_keeps ?_ | refine emit_keeps ?_ | refine Keeps.upd ?_

theorem execPortDown_keeps {port : PortIx} (s : State) : KeepsR s (execPortDown port s) := by
  unfold execPortDown
  refine KeepsR.ok ?_
  with_reducible repeat' first | assumption | exact Keeps.refl _ | refine Keeps.ite ?_ ?_ | refine takeDown_keeps ?_

theorem execTraining_keeps {port : PortIx} {loopbackOk : Bool} (s : State) : KeepsR s (execTraining port loopbackOk s) := by
  unfold execTraining
  refine KeepsR.ok ?_
  with_reducible repeat' first
    | assumption | exact Keeps.refl _ | refine Keeps.ite ?_ ?_ | (intro x; subst x) | lift_lets -underBinder | refine Keeps.updPort ?_
    | refine Keeps.upd ?_

theorem execTrainingComplete_keeps {port : PortIx} {success : Bool} (s : State) : KeepsR s (execTrainingComplete port success s) := by
  unfold execTrainingComplete
  refine KeepsR.ok ?_
  with_reducible repeat' first
    | assumption | exact Keeps.refl _ | refine Keeps.ite ?_ ?_ | (intro x; subst x) | lift_lets -underBinder | refine Keeps.updPort ?_
    | refine startKeying_keeps ?_ | refine Keeps.upd ?_

theorem execLinkKey_keeps {port : PortIx} (s : State) : KeepsR s (execLinkKey port s) := by
  unfold execLinkKey
  refine KeepsR.ok ?_
  with_reducible repeat' first
    | assumption | exact Keeps.refl _ | refine Keeps.ite ?_ ?_ | (intro x; subst x) | lift_lets -underBinder | refine Keeps.updPort ?_
    | refine takeDown_keeps ?_ | refine finishKeying_keeps ?_ | refine emit_keeps ?_ | split | refine Keeps.upd ?_

theorem execKeyStart_keeps {port : PortIx} (s : State) : KeepsR s (execKeyStart port s) := by
  unfold execKeyStart
  refine KeepsR.ok ?_
  with_reducible repeat' first
    | assumption | exact Keeps.refl _ | refine Keeps.ite ?_ ?_ | refine Keeps.updPort ?_ | refine finishKeying_keeps ?_ | refine Keeps.upd ?_

theorem execKeyingTimeout_keeps {port : PortIx} (s : State) : KeepsR s (execKeyingTimeout port s) := by
  unfold execKeyingTimeout
  refine KeepsR.ok ?_
  with_reducible repeat' first | assumption | exact Keeps.refl _ | refine Keeps.ite ?_ ?_ | refine takeDown_keeps ?_

theorem execKeyLimit_keeps {port : PortIx} (s : State) : KeepsR s (execKeyLimit port s) := by
  unfold execKeyLimit
  refine KeepsR.ok ?_
  with_reducible repeat' first | assumption | exact Keeps.refl _ | refine Keeps.ite ?_ ?_ | refine takeDown_keeps ?_

theorem execRemoteWrite_keeps (s : State) : KeepsR s (execRemoteWrite s) := by
  unfold execRemoteWrite
  refine KeepsR.ok ?_
  with_reducible repeat' first
    | assumption | exact Keeps.refl _ | refine Keeps.ite ?_ ?_ | (intro x; subst x) | lift_lets -underBinder | refine KeepsT.of (by assumption) ?_
    | refine takeArrived_keeps ?_ | refine updWindow_keeps ?_ | refine nak_keeps ?_ | refine answer_keeps ?_ | refine landWrite_keeps ?_ | split
    | refine Keeps.upd ?_

theorem execReadReq_keeps (s : State) : KeepsR s (execReadReq s) := by
  unfold execReadReq
  refine KeepsR.ok ?_
  with_reducible repeat' first
    | assumption | exact Keeps.refl _ | refine Keeps.ite ?_ ?_ | (intro x; subst x) | lift_lets -underBinder | refine KeepsT.of (by assumption) ?_
    | refine takeArrived_keeps ?_ | refine nak_keeps ?_ | refine wakeDie_keeps ?_ | refine answer_keeps ?_ | split | refine Keeps.upd ?_

theorem execReadData_keeps (s : State) : KeepsR s (execReadData s) := by
  unfold execReadData
  refine KeepsR.ok ?_
  with_reducible repeat' first
    | assumption | exact Keeps.refl _ | refine Keeps.ite ?_ ?_ | refine KeepsT.of (by assumption) ?_ | refine takeArrived_keeps ?_
    | refine countLate_keeps ?_ | refine pump_keeps ?_ | refine updXfer_keeps ?_ | refine dropRequest_keeps ?_ | split | refine Keeps.upd ?_

theorem execAck_keeps (s : State) : KeepsR s (execAck s) := by
  unfold execAck
  refine KeepsR.ok ?_
  with_reducible repeat' first
    | assumption | exact Keeps.refl _ | refine Keeps.ite ?_ ?_ | refine KeepsT.of (by assumption) ?_ | refine takeArrived_keeps ?_
    | refine countLate_keeps ?_ | refine sendRemoteFlag_keeps ?_ | refine dropRequest_keeps ?_ | split | refine Keeps.upd ?_

theorem execNak_keeps (s : State) : KeepsR s (execNak s) := by
  unfold execNak
  refine KeepsR.ok ?_
  with_reducible repeat' first
    | assumption | exact Keeps.refl _ | refine KeepsT.of (by assumption) ?_ | refine takeArrived_keeps ?_ | refine failOp_keeps ?_
    | refine dropRequest_keeps ?_ | refine refuseWork_keeps ?_ | split | refine Keeps.upd ?_

theorem execFlagSet_keeps (s : State) : KeepsR s (execFlagSet s) := by
  unfold execFlagSet
  refine KeepsR.ok ?_
  with_reducible repeat' first
    | assumption | exact Keeps.refl _ | (intro x; subst x) | lift_lets -underBinder | refine KeepsT.of (by assumption) ?_
    | refine takeArrived_keeps ?_ | refine nak_keeps ?_ | refine answer_keeps ?_ | refine wakeDie_keeps ?_ | refine signalFlag_keeps ?_ | split
    | refine Keeps.upd ?_

theorem execCollData_keeps (s : State) : KeepsR s (execCollData s) := by
  unfold execCollData
  refine KeepsR.ok ?_
  with_reducible repeat' first
    | assumption | exact Keeps.refl _ | refine Keeps.ite ?_ ?_ | (intro x; subst x) | lift_lets -underBinder | refine KeepsT.of (by assumption) ?_
    | refine takeArrived_keeps ?_ | refine countLate_keeps ?_ | refine putStore_keeps ?_ | refine putHandle_keeps ?_ | refine wakeDie_keeps ?_
    | refine updColl_keeps ?_ | split | refine Keeps.upd ?_

theorem execCollCtrl_keeps (s : State) : KeepsR s (execCollCtrl s) := by
  unfold execCollCtrl
  refine KeepsR.ok ?_
  with_reducible repeat' first
    | assumption | exact Keeps.refl _ | refine Keeps.ite ?_ ?_ | refine KeepsT.of (by assumption) ?_ | refine takeArrived_keeps ?_
    | refine failOp_keeps ?_ | refine collPeer_keeps ?_ | split | refine Keeps.upd ?_

theorem execPaceMessage_keeps {collId : W64} {rank limit : Nat} (s : State) : KeepsR s (execPaceMessage collId rank limit s) := by
  unfold execPaceMessage
  refine KeepsR.ok ?_
  with_reducible repeat' first
    | assumption | exact Keeps.refl _ | (intro x; subst x) | lift_lets -underBinder
    | refine Keeps.updDie ?_ (fun x hx => hx.frame rfl rfl rfl rfl rfl rfl) | refine Keeps.fold (fun _ _ _ => ?_) _ ?_ | split | refine Keeps.upd ?_

theorem execLossNotice_keeps {part epoch : Nat} (s : State) : KeepsR s (execLossNotice part epoch s) := by
  unfold execLossNotice
  refine KeepsR.ok ?_
  with_reducible repeat' first
    | assumption | exact Keeps.refl _ | refine Keeps.ite ?_ ?_ | (intro x; subst x) | lift_lets -underBinder | refine failColls_keeps ?_
    | refine failOp_keeps ?_ | refine Keeps.fold (fun _ _ _ => ?_) _ ?_ | split | refine Keeps.upd ?_

theorem execTransferTimeout_keeps {die : DieIx} {op : Nat} (s : State) : KeepsR s (execTransferTimeout die op s) := by
  unfold execTransferTimeout
  refine KeepsR.ok ?_
  with_reducible repeat' first | assumption | exact Keeps.refl _ | refine Keeps.ite ?_ ?_ | refine failOp_keeps ?_ | split | refine Keeps.upd ?_

theorem execEpochHoldExpiry_keeps {port : PortIx} (s : State) : KeepsR s (execEpochHoldExpiry port s) := by
  unfold execEpochHoldExpiry
  refine KeepsR.ok ?_
  with_reducible repeat' first
    | assumption | exact Keeps.refl _ | refine Keeps.updPort ?_ | refine refuseHeld_keeps ?_ | refine countRefusal_keeps ?_ | split
    | refine Keeps.upd ?_

theorem execEpochSwitch_keeps (s : State) : KeepsR s (execEpochSwitch s) := by
  unfold execEpochSwitch
  refine KeepsR.ok ?_
  with_reducible repeat' first | assumption | exact Keeps.refl _ | refine Keeps.ite ?_ ?_ | refine switchNow_keeps ?_

theorem execEpochRetire_keeps (s : State) : KeepsR s (execEpochRetire s) := by
  unfold execEpochRetire
  refine KeepsR.ok ?_
  with_reducible repeat' first | assumption | exact Keeps.refl _ | refine Keeps.ite ?_ ?_ | refine closeAll_keeps ?_ | split | refine Keeps.upd ?_

theorem execHeartbeatSend_keeps (s : State) : KeepsR s (execHeartbeatSend s) := by
  unfold execHeartbeatSend
  refine KeepsR.ok ?_
  with_reducible repeat' first | assumption | exact Keeps.refl _ | refine Keeps.ite ?_ ?_ | refine sendTwin_keeps ?_

theorem execHeartbeat_keeps {rec : TwinRec} (s : State) : KeepsR s (execHeartbeat rec s) := by
  unfold execHeartbeat
  refine KeepsR.ok ?_
  with_reducible repeat' first
    | assumption | exact Keeps.refl _ | refine Keeps.ite ?_ ?_ | refine updTwin_keeps ?_ | refine discardRec_keeps ?_ | refine Keeps.upd ?_

theorem execHeartbeatInterval_keeps {tie : Bool} (s : State) : KeepsR s (execHeartbeatInterval tie s) := by
  unfold execHeartbeatInterval
  refine KeepsR.ok ?_
  with_reducible repeat' first
    | assumption | exact Keeps.refl _ | refine Keeps.ite ?_ ?_ | refine updTwin_keeps ?_ | refine declareLost_keeps ?_ | refine Keeps.upd ?_

theorem execPairResend_keeps (s : State) : KeepsR s (execPairResend s) := by
  unfold execPairResend
  refine KeepsR.ok ?_
  with_reducible repeat' first | assumption | exact Keeps.refl _ | refine Keeps.ite ?_ ?_ | refine sendTwin_keeps ?_

theorem execPairRecord_keeps {rec : TwinRec} (s : State) : KeepsR s (execPairRecord rec s) := by
  unfold execPairRecord
  refine KeepsR.ok ?_
  with_reducible repeat' first
    | assumption | exact Keeps.refl _ | refine Keeps.ite ?_ ?_ | refine discardRec_keeps ?_ | refine updTwin_keeps ?_ | refine sendTwin_keeps ?_
    | refine Keeps.upd ?_

theorem execDetachRecord_keeps {rec : TwinRec} (s : State) : KeepsR s (execDetachRecord rec s) := by
  unfold execDetachRecord
  refine KeepsR.ok ?_
  with_reducible repeat' first | assumption | exact Keeps.refl _ | refine Keeps.ite ?_ ?_ | refine detachTwin_keeps ?_ | refine discardRec_keeps ?_

theorem execFillComplete_keeps (s : State) : KeepsR s (execFillComplete s) := by
  unfold execFillComplete
  refine KeepsR.ok ?_
  with_reducible repeat' first | assumption | exact Keeps.refl _ | refine sendTwin_keeps ?_ | refine updTwin_keeps ?_ | split | refine Keeps.upd ?_

theorem execFillDone_keeps {rec : TwinRec} (s : State) : KeepsR s (execFillDone rec s) := by
  unfold execFillDone
  refine KeepsR.ok ?_
  with_reducible repeat' first | assumption | exact Keeps.refl _ | refine Keeps.ite ?_ ?_ | refine discardRec_keeps ?_

theorem execMirrorRows_keeps {p : PartIx} {m : MirrorBody} (s : State) : KeepsR s (execMirrorRows p m s) := by
  unfold execMirrorRows
  refine KeepsR.ok ?_
  with_reducible repeat' first
    | assumption | exact Keeps.refl _ | refine Keeps.ite ?_ ?_ | (intro x; subst x) | lift_lets -underBinder | refine takeMirror_keeps ?_
    | refine updMirror_keeps ?_ | refine checkMirror_keeps ?_ | refine takeStore_keeps ?_ | split | refine Keeps.upd ?_

theorem execConfirm_keeps {rec : TwinRec} (s : State) : KeepsR s (execConfirm rec s) := by
  unfold execConfirm
  refine KeepsR.ok ?_
  with_reducible repeat' first
    | assumption | exact Keeps.refl _ | refine Keeps.ite ?_ ?_ | (intro x; subst x) | lift_lets -underBinder | refine discardRec_keeps ?_
    | refine commitImport_keeps ?_ | refine sendTwin_keeps ?_ | refine fillGoesOn_keeps ?_ | refine updKs_keeps ?_ | split | refine Keeps.upd ?_

theorem execCommit_keeps {rec : TwinRec} (s : State) : KeepsR s (execCommit rec s) := by
  unfold execCommit
  refine KeepsR.ok ?_
  with_reducible repeat' first
    | assumption | exact Keeps.refl _ | refine Keeps.ite ?_ ?_ | (intro x; subst x) | lift_lets -underBinder | refine Keeps.updPart ?_
    | refine discardRec_keeps ?_ | refine dropMirror_keeps ?_ | refine updKs_keeps ?_ | split | refine Keeps.upd ?_

theorem execAbort_keeps {rec : TwinRec} (s : State) : KeepsR s (execAbort rec s) := by
  unfold execAbort
  refine KeepsR.ok ?_
  with_reducible repeat' first
    | assumption | exact Keeps.refl _ | refine Keeps.ite ?_ ?_ | (intro x; subst x) | lift_lets -underBinder | refine discardRec_keeps ?_
    | refine commitImport_keeps ?_ | refine failRefetch_keeps ?_ | refine fillGoesOn_keeps ?_ | refine dropMirror_keeps ?_ | split
    | refine Keeps.upd ?_

theorem execRefetch_keeps {rec : TwinRec} (s : State) : KeepsR s (execRefetch rec s) := by
  unfold execRefetch
  refine KeepsR.ok ?_
  with_reducible repeat' first
    | assumption | exact Keeps.refl _ | refine Keeps.ite ?_ ?_ | refine discardRec_keeps ?_ | refine sendSet_keeps ?_ | refine sendTwin_keeps ?_
    | split | refine Keeps.upd ?_

theorem execRefetchComplete_keeps {p : PartIx} {slot : Nat} {good : Bool} (s : State) : KeepsR s (execRefetchComplete p slot good s) := by
  unfold execRefetchComplete
  refine KeepsR.ok (.ite (.refl s) (.ite (failRefetch_keeps (.refl s)) ?_))
  split
  · exact .refl s
  · refine .ite (.refl s) ?_
    split
    · exact failRefetch_keeps (.refl s)
    · rename_i e
      exact updTwin_keeps (dropMirror_keeps (updKs_keeps (KeepsO.of e (replaceKeys_keeps (.refl s)))))

theorem execEnable_keeps {port : HostId} {fn slot : Nat} {die : DieIx} {queue : QueueIx} {w : CtlWrite}
    (s : State) : KeepsR s (execEnable port fn slot die queue w s) := by
  unfold execEnable
  refine KeepsR.ok ?_
  with_reducible repeat' first
    | assumption | exact Keeps.refl _ | refine Keeps.ite ?_ ?_ | refine writeControl_keeps ?_ | refine sendMsg_keeps ?_ | split
    | refine Keeps.upd ?_

theorem execQueueDisableComplete_keeps {die : DieIx} {queue : QueueIx} (s : State) : KeepsR s (execQueueDisableComplete die queue s) := by
  unfold execQueueDisableComplete
  refine KeepsR.ok ?_
  with_reducible repeat' first | assumption | exact Keeps.refl _ | refine settleDisable_keeps ?_

theorem execCrHead_keeps {port : HostId} {fn slot : Nat} {die : DieIx} {queue : QueueIx} {value : W32}
    (s : State) : KeepsR s (execCrHead port fn slot die queue value s) := by
  unfold execCrHead
  refine KeepsR.ok ?_
  with_reducible repeat' first
    | assumption | exact Keeps.refl _ | refine Keeps.ite ?_ ?_ | (intro x; subst x) | lift_lets -underBinder
    | refine Keeps.updQueue ?_ (fun x hx => hx) | refine count_keeps ?_ | refine settleDisable_keeps ?_ | refine settleQueue_keeps ?_
    | refine flushCpl_keeps ?_ | refine sendMsg_keeps ?_ | refine putPage_keeps ?_ | split | refine Keeps.upd ?_

theorem execApertureControl_keeps {port : HostId} {fn : Nat} {value : W32} (s : State) : KeepsR s (execApertureControl port fn value s) := by
  unfold execApertureControl
  refine KeepsR.ok ?_
  with_reducible repeat' first | assumption | exact Keeps.refl _ | refine Keeps.ite ?_ ?_ | refine Keeps.updHost ?_ | refine Keeps.upd ?_

theorem execBar2Access_keeps {port : HostId} {fn offset length : Nat} {write : Option (List Byte)}
    (s : State) : KeepsR s (execBar2Access port fn offset length write s) := by
  unfold execBar2Access
  refine KeepsR.ok ?_
  with_reducible repeat' first
    | assumption | exact Keeps.refl _ | refine Keeps.ite ?_ ?_ | refine stagingAccess_keeps ?_ | refine wakeDie_keeps ?_ | refine putStore_keeps ?_
    | refine emit_keeps ?_ | split | refine Keeps.upd ?_

theorem execSessionTimeout_keeps {via : Via} {index sub member : Nat} (s : State) : KeepsR s (execSessionTimeout via index sub member s) := by
  unfold execSessionTimeout
  refine KeepsR.ok ?_
  with_reducible repeat' first
    | assumption | exact Keeps.refl _ | refine Keeps.ite ?_ ?_ | (intro x; subst x) | lift_lets -underBinder | refine count_keeps ?_
    | refine Keeps.upd ?_

theorem execSetEndpointId_keeps {via : Via} {eid : Byte} (s : State) : KeepsR s (execSetEndpointId via eid s) := by
  unfold execSetEndpointId
  refine KeepsR.ok ?_
  with_reducible repeat' first | assumption | exact Keeps.refl _ | refine Keeps.ite ?_ ?_ | refine mctp_keeps ?_ | split | refine Keeps.upd ?_

theorem execSmbusAlertResponse_keeps (s : State) : KeepsR s (execSmbusAlertResponse s) := by
  unfold execSmbusAlertResponse
  refine KeepsR.ok ?_
  with_reducible repeat' first | assumption | exact Keeps.refl _ | refine Keeps.ite ?_ ?_ | refine emit_keeps ?_ | refine Keeps.upd ?_

theorem execPartitionCommandComplete_keeps {p : PartIx} (s : State) : KeepsR s (execPartitionCommandComplete p s) := by
  unfold execPartitionCommandComplete
  refine KeepsR.ok ?_
  with_reducible repeat' first
    | assumption | exact Keeps.refl _ | refine Keeps.ite ?_ ?_ | refine endCommand_keeps ?_ | refine settleDies_keeps ?_
    | refine releaseDies_keeps ?_ | split | refine Keeps.upd ?_

theorem execReportSigned_keeps (s : State) : KeepsR s (execReportSigned s) := by
  unfold execReportSigned
  refine KeepsR.ok ?_
  with_reducible repeat' first
    | assumption | exact Keeps.refl _ | refine Keeps.ite ?_ ?_ | (intro x; subst x) | lift_lets -underBinder | refine Keeps.updPart ?_ | split
    | refine Keeps.upd ?_

theorem execBnYield_keeps (s : State) : KeepsR s (execBnYield s) := by
  unfold execBnYield
  refine KeepsR.ok ?_
  with_reducible repeat' first
    | assumption | exact Keeps.refl _ | refine Keeps.ite ?_ ?_ | (intro x; subst x) | lift_lets -underBinder | refine bnNext_keeps ?_ | split
    | refine Keeps.upd ?_

theorem execBnComplete_keeps (s : State) : KeepsR s (execBnComplete s) := by
  unfold execBnComplete
  refine KeepsR.ok ?_
  with_reducible repeat' first
    | assumption | exact Keeps.refl _ | (intro x; subst x) | lift_lets -underBinder | refine bnNext_keeps ?_ | refine bnFinish_keeps ?_ | split
    | refine Keeps.upd ?_

theorem execDrainGraceExpiry_keeps (s : State) : KeepsR s (execDrainGraceExpiry s) := by
  unfold execDrainGraceExpiry
  refine KeepsR.ok ?_
  with_reducible repeat' first
    | assumption | exact Keeps.refl _ | refine Keeps.ite ?_ ?_ | refine beginClear_keeps ?_ | refine quenchJob_keeps ?_
    | refine Keeps.fold (fun _ _ _ => ?_) _ ?_

theorem execDrainComplete_keeps (s : State) : KeepsR s (execDrainComplete s) := by
  unfold execDrainComplete
  refine KeepsR.ok ?_
  with_reducible repeat' first | assumption | exact Keeps.refl _ | refine Keeps.ite ?_ ?_ | refine beginClear_keeps ?_

theorem execClearComplete_keeps (s : State) : KeepsR s (execClearComplete s) := by
  unfold execClearComplete
  refine KeepsR.ok ?_
  with_reducible repeat' first
    | assumption | exact Keeps.refl _ | refine Keeps.ite ?_ ?_ | (intro x; subst x) | lift_lets -underBinder | refine sendTwin_keeps ?_
    | refine quenchPartition_keeps ?_ | refine zeroDeviceSecrets_keeps ?_ | refine updBist_keeps ?_ | refine Keeps.fold (fun _ _ _ => ?_) _ ?_
    | refine Keeps.upd ?_

theorem execScanComplete_keeps {failures : List BistEntry} (s : State) : KeepsR s (execScanComplete failures s) := by
  unfold execScanComplete
  refine KeepsR.ok ?_
  with_reducible repeat' first
    | assumption | exact Keeps.refl _ | refine Keeps.ite ?_ ?_ | refine updBist_keeps ?_ | refine listFailures_keeps ?_ | refine Keeps.upd ?_

theorem execMemoryComplete_keeps {failures : List BistEntry} (s : State) : KeepsR s (execMemoryComplete failures s) := by
  unfold execMemoryComplete
  refine KeepsR.ok (.ite (.refl s) ?_)
  extract_lets s₁ s₂ s₃
  have wiped : Keeps s s₂ := Keeps.updDies (listFailures_keeps (.refl s)) fun _ hx => wipeDie_ok hx
  have tested : Keeps s s₃ := updBist_keeps wiped
  exact .ite (tested.updBoot rfl) tested.upd

/-- Burning repairs changes no fixed fuse (R473). -/
theorem Keeps.burn {a s : State} (h : Keeps a s) (l : List (Nat × Nat × Nat)) : Keeps a { s with fuses := l.foldl burnRepair s.fuses } :=
  h.trans ⟨rfl, burnAll_fixed l s.fuses, id⟩

theorem execRepairComplete_keeps {repaired : List BistEntry} (s : State) : KeepsR s (execRepairComplete repaired s) := by
  unfold execRepairComplete
  refine KeepsR.ok (.ite (.refl s) ?_)
  have repaired := applyRepairs_keeps (repaired := (repaired.map entryOf).filter fun e => s.bist.results.contains e) (.refl s)
  exact .ite (updBist_keeps (repaired.updBoot rfl)) (updBist_keeps (Keeps.upd (Keeps.burn (updBist_keeps repaired) _)))

theorem execHostLinkUp_keeps {port : HostId} {width : Nat} (s : State) : KeepsR s (execHostLinkUp port width s) := by
  unfold execHostLinkUp
  refine KeepsR.ok ?_
  with_reducible repeat' first | assumption | exact Keeps.refl _ | refine Keeps.ite ?_ ?_ | refine Keeps.updHost ?_ | refine Keeps.upd ?_

theorem execDroopClear_keeps {die : DieIx} (s : State) : KeepsR s (execDroopClear die s) := by
  unfold execDroopClear
  refine KeepsR.ok ?_
  with_reducible repeat' first
    | assumption | exact Keeps.refl _ | refine Keeps.updDie ?_ (fun x hx => hx.frame rfl rfl rfl rfl rfl rfl) | refine Keeps.upd ?_

theorem execLinkKeySegment_keeps {port : PortIx} {offset keyNumber : Nat} {bytes : List Byte}
    (s : State) : KeepsR s (execLinkKeySegment port offset keyNumber bytes s) := by
  unfold execLinkKeySegment
  refine KeepsR.ok ?_
  with_reducible repeat' first
    | assumption | exact Keeps.refl _ | refine Keeps.ite ?_ ?_ | (intro x; subst x) | lift_lets -underBinder | refine Keeps.updPort ?_
    | refine takeDown_keeps ?_ | refine Keeps.upd ?_

theorem execMemberRegistration_keeps {reg : MemberReg} (s : State) : KeepsR s (execMemberRegistration reg s) := by
  unfold execMemberRegistration
  refine KeepsR.ok ?_
  with_reducible repeat' first
    | assumption | exact Keeps.refl _ | refine Keeps.ite ?_ ?_ | (intro x; subst x) | lift_lets -underBinder | refine Keeps.updHost ?_
    | refine sendMsg_keeps ?_ | refine Keeps.upd ?_

theorem execForwardedHostWrite_keeps {w : FwdWrite} (s : State) : KeepsR s (execForwardedHostWrite w s) := by
  unfold execForwardedHostWrite
  refine KeepsR.ok ?_
  with_reducible repeat' first
    | assumption | exact Keeps.refl _ | refine Keeps.ite ?_ ?_ | (intro x; subst x) | lift_lets -underBinder | refine Keeps.updHost ?_
    | refine forwardCpl_keeps ?_ | refine sendBench_keeps ?_ | refine emit_keeps ?_ | refine requestPages_keeps ?_ | refine sendMsg_keeps ?_ | split
    | refine Keeps.upd ?_

theorem execPageNotPresent_keeps {die : DieIx} {op cursor : Nat} {pages : List Nat}
    (s : State) : KeepsR s (execPageNotPresent die op cursor pages s) := by
  unfold execPageNotPresent
  refine KeepsR.ok ?_
  with_reducible repeat' first
    | assumption | exact Keeps.refl _ | refine Keeps.ite ?_ ?_ | (intro x; subst x) | lift_lets -underBinder | refine Keeps.updHost ?_
    | refine emitHost_keeps ?_ | refine updXfer_keeps ?_ | refine failOp_keeps ?_ | refine sendGroup_keeps ?_ | split | refine Keeps.upd ?_

/-- Every command leaves the waiting commands and the fixed fuses as they are and every memory in canonical form. -/
theorem exec_keeps (i : Instr) (s : State) : KeepsR s (exec i s) :=
  match i with
  | .pwrokRise => execPwrokRise_keeps s
  | .pwrokFall => execPwrokFall_keeps s
  | .sysResetAssert => execSysResetAssert_keeps s
  | .sysResetRelease => execSysResetRelease_keeps s
  | .selfCheckComplete _ => execSelfCheckComplete_keeps s
  | .perst _ _ => execPerst_keeps s
  | .linkDown _ => execLinkDown_keeps s
  | .functionLevelReset _ _ => execFunctionLevelReset_keeps s
  | .go _ => .ok (.ite (serveReq_keeps (.refl s)) (.refl s))
  | .verificationComplete _ => execVerificationComplete_keeps s
  | .repairRecord => execRepairRecord_keeps s
  | .repairRecordWaitExpiry => execRepairRecordWaitExpiry_keeps s
  | .ready _ => execReady_keeps s
  | .thermtrip _ => execThermtrip_keeps s
  | .quenchInput _ => execQuenchInput_keeps s
  | .pwrbrkAssert => execPwrbrkAssert_keeps s
  | .pwrbrkDeassert => execPwrbrkDeassert_keeps s
  | .droop _ => execDroop_keeps s
  | .syncInEdge _ _ => execSyncInEdge_keeps s
  | .syncFreeRun => execSyncFreeRun_keeps s
  | .governorInterval _ => execGovernorInterval_keeps s
  | .admissionBoundary => execAdmissionBoundary_keeps s
  | .idleEntry _ _ => execIdleEntry_keeps s
  | .anchorCompare _ _ _ => execAnchorCompare_keeps s
  | .anchorCompareTimeout _ => execAnchorCompareTimeout_keeps s
  | .partitionQuenchComplete _ => execPartitionQuenchComplete_keeps s
  | .scratchpadParity _ _ _ => execScratchpadParity_keeps s
  | .clusterBufferParity _ c _ _ => execClusterBufferParity_keeps (cluster := c) s
  | .registerParity _ _ _ => execRegisterParity_keeps s
  | .keyRowParity _ _ _ => execKeyRowParity_keeps s
  | .storeParity _ _ _ => execStoreParity_keeps s
  | .controlParity _ _ => execControlParity_keeps s
  | .entropyFail _ => execEntropyFail_keeps s
  | .clockCheck _ _ => execClockCheck_keeps s
  | .supplyCheck _ _ => execSupplyCheck_keeps s
  | .eyeMarginCheck _ _ => execEyeMarginCheck_keeps s
  | .queueWindowWrite _ _ _ _ _ _ _ => execQueueWindowWrite_keeps s
  | .nop _ _ => execNop_keeps s
  | .programLoad _ _ => execProgramLoad_keeps s
  | .programLoadComplete _ _ _ => execProgramLoadComplete_keeps s
  | .programUnload _ _ => execProgramUnload_keeps s
  | .patch _ _ => execPatch_keeps s
  | .patchApply _ _ => execPatchApply_keeps s
  | .keysetBind _ _ _ => execKeysetBind_keeps s
  | .importSegment _ _ _ => execImportSegment_keeps s
  | .jobSubmit _ _ => execJobSubmit_keeps s
  | .fence _ _ => execFence_keeps s
  | .fenceComplete _ _ => execFenceComplete_keeps s
  | .setStep _ _ => execSetStep_keeps s
  | .cancel _ _ => execCancel_keeps s
  | .block _ _ => execBlock_keeps s
  | .blockExpiry _ _ => execBlockExpiry_keeps s
  | .jobComplete _ _ => execJobComplete_keeps s
  | .setFlag _ _ => execSetFlag_keeps s
  | .clearFlag _ _ => execClearFlag_keeps s
  | .waitFlag _ _ => execWaitFlag_keeps s
  | .flagTimeout _ _ => execFlagTimeout_keeps s
  | .flagDeadlock _ _ => execFlagDeadlock_keeps s
  | .undefinedInstruction _ => execUndefinedInstruction_keeps s
  | .operationComplete _ _ => execOperationComplete_keeps s
  | .ntt _ _ _ _ => .ok (clusterInstr_keeps (.refl s))
  | .inverseNtt _ _ _ _ => .ok (clusterInstr_keeps (.refl s))
  | .polyAdd _ _ _ _ _ => .ok (clusterInstr_keeps (.refl s))
  | .polySubtract _ _ _ _ _ => .ok (clusterInstr_keeps (.refl s))
  | .negate _ _ _ _ => .ok (clusterInstr_keeps (.refl s))
  | .plaintextAdd _ _ _ _ _ => .ok (clusterInstr_keeps (.refl s))
  | .plaintextMultiply _ _ _ _ _ => .ok (clusterInstr_keeps (.refl s))
  | .ciphertextMultiply _ _ _ _ _ => .ok (clusterInstr_keeps (.refl s))
  | .levelDrop _ _ _ _ _ => .ok (clusterInstr_keeps (.refl s))
  | .basisConversion _ _ _ _ _ _ => .ok (clusterInstr_keeps (.refl s))
  | .rescale _ _ _ _ => .ok (clusterInstr_keeps (.refl s))
  | .modSwitch _ _ _ _ => .ok (clusterInstr_keeps (.refl s))
  | .encode _ _ _ _ _ => .ok (runInstr_keeps (fun _ _ h => issueEncode_keeps h) (.refl s))
  | .decode _ _ _ _ => .ok (runInstr_keeps (fun _ _ h => issueDecode_keeps h) (.refl s))
  | .relinearise _ _ _ _ _ => .ok (clusterInstr_keeps (.refl s))
  | .rotate _ _ _ _ _ _ => .ok (clusterInstr_keeps (.refl s))
  | .conjugate _ _ _ _ _ => .ok (clusterInstr_keeps (.refl s))
  | .hrot _ _ _ _ _ _ => .ok (clusterInstr_keeps (.refl s))
  | .hrotSum _ _ _ _ _ _ => .ok (clusterInstr_keeps (.refl s))
  | .modUp _ _ _ _ _ => .ok (clusterInstr_keeps (.refl s))
  | .ip _ _ _ _ _ _ _ => .ok (clusterInstr_keeps (.refl s))
  | .modDown _ _ _ _ => .ok (clusterInstr_keeps (.refl s))
  | .temper _ _ _ _ _ _ => .ok (runInstr_keeps (fun _ _ h => issueTemper_keeps h) (.refl s))
  | .shrAdd _ _ _ _ _ => .ok (shrLocal_keeps (.refl s))
  | .shrSub _ _ _ _ _ => .ok (shrLocal_keeps (.refl s))
  | .shrNeg _ _ _ _ => .ok (shrLocal_keeps (.refl s))
  | .shrSmul _ _ _ _ _ => execShrSmul_keeps s
  | .shrCadd _ _ _ _ _ => .ok (shrLocal_keeps (.refl s))
  | .shrSplit _ _ _ _ _ _ _ => .ok (runInstr_keeps (fun _ _ h => issueSplit_keeps h) (.refl s))
  | .shrOpen _ _ _ _ => .ok (runInstr_keeps (fun _ _ h => issueOpen_keeps h) (.refl s))
  | .beaverMul _ _ _ _ _ => .ok (runInstr_keeps (fun _ _ h => issueBeaver_keeps h) (.refl s))
  | .secagg _ _ _ _ => .ok (runInstr_keeps (fun _ _ h => issueOpen_keeps h) (.refl s))
  | .deal _ _ _ => .ok (runInstr_keeps (fun _ _ h => issueDeal_keeps h) (.refl s))
  | .exchangeMessage _ => .ok (messageIn_keeps (.refl s))
  | .dealDelivery _ => .ok (dealIn_keeps (.refl s))
  | .abortMarker _ => .ok (messageIn_keeps (.refl s))
  | .exchangeTimeout _ _ => execExchangeTimeout_keeps s
  | .tmul _ _ => .ok (runInstr_keeps (fun _ _ h => issueTmul_keeps h) (.refl s))
  | .paletteReadClear _ _ _ => execPaletteReadClear_keeps s
  | .nanCountReadClear _ _ => execNanCountReadClear_keeps s
  | .add _ _ _ _ _ _ => .ok (vec2_keeps (.refl s))
  | .sub _ _ _ _ _ _ => .ok (vec2_keeps (.refl s))
  | .mul _ _ _ _ _ _ => .ok (vec2_keeps (.refl s))
  | .fma _ _ _ _ _ _ _ => .ok (vec3_keeps (.refl s))
  | .min _ _ _ _ _ _ => .ok (vec2_keeps (.refl s))
  | .max _ _ _ _ _ _ => .ok (vec2_keeps (.refl s))
  | .abs _ _ _ _ _ => .ok (vec1_keeps (.refl s))
  | .neg _ _ _ _ _ => .ok (vec1_keeps (.refl s))
  | .cmp _ _ _ _ _ _ _ => .ok (vec2_keeps (.refl s))
  | .sel _ _ _ _ _ _ _ => .ok (vec3_keeps (.refl s))
  | .recip _ _ _ _ _ => .ok (vec1_keeps (.refl s))
  | .rsqrt _ _ _ _ _ => .ok (vec1_keeps (.refl s))
  | .sqrt _ _ _ _ _ => .ok (vec1_keeps (.refl s))
  | .exp2 _ _ _ _ _ => .ok (vec1_keeps (.refl s))
  | .log2 _ _ _ _ _ => .ok (vec1_keeps (.refl s))
  | .cvt _ _ _ _ _ _ _ => execCvt_keeps s
  | .fix _ _ _ _ _ _ => execFix_keeps s
  | .flt _ _ _ _ _ _ => execFlt_keeps s
  | .rsum _ _ _ _ _ _ => .ok (vecRed_keeps (.refl s))
  | .rmax _ _ _ _ _ _ => .ok (vecRed_keeps (.refl s))
  | .rmin _ _ _ _ _ _ => .ok (vecRed_keeps (.refl s))
  | .rargmax _ _ _ _ _ _ => .ok (vecRed_keeps (.refl s))
  | .sort _ _ _ _ _ => execSort_keeps s
  | .argsort _ _ _ _ _ => execArgsort_keeps s
  | .vload _ _ _ _ _ _ => .ok (vecMove_keeps (.refl s))
  | .vstore _ _ _ _ _ => .ok (vecMove_keeps (.refl s))
  | .updNorm _ _ => .ok (runInstr_keeps (fun _ _ h => issueNorm_keeps h) (.refl s))
  | .updApply _ _ => .ok (runInstr_keeps (fun _ _ h => issueUpd_keeps h) (.refl s))
  | .bnCfg _ _ _ _ => execBnCfg_keeps s
  | .bnLoad _ _ _ _ => execBnLoad_keeps s
  | .bnRead _ _ _ _ => execBnRead_keeps s
  | .modAdd _ _ _ _ _ _ => .ok (runInstr_keeps (fun _ _ h => issueBn_keeps h) (.refl s))
  | .modSub _ _ _ _ _ _ => .ok (runInstr_keeps (fun _ _ h => issueBn_keeps h) (.refl s))
  | .modMul _ _ _ _ _ _ => .ok (runInstr_keeps (fun _ _ h => issueBn_keeps h) (.refl s))
  | .modExp _ _ _ _ _ _ => .ok (runInstr_keeps (fun _ _ h => issueBn_keeps h) (.refl s))
  | .modInv _ _ _ _ _ => .ok (runInstr_keeps (fun _ _ h => issueBn_keeps h) (.refl s))
  | .bnRand _ _ _ _ => .ok (runInstr_keeps (fun _ _ h => issueBn_keeps h) (.refl s))
  | .ecKeygen _ _ _ _ _ _ => .ok (runInstr_keeps (fun _ _ h => issueBn_keeps h) (.refl s))
  | .ecMul _ _ _ _ _ _ _ _ => .ok (runInstr_keeps (fun _ _ h => issueBn_keeps h) (.refl s))
  | .ecDh _ _ _ _ _ _ _ => .ok (runInstr_keeps (fun _ _ h => issueBn_keeps h) (.refl s))
  | .hstat _ _ _ _ => execHstat_keeps s
  | .alloc _ _ _ _ _ => execAlloc_keeps s
  | .free _ _ => execFree_keeps s
  | .ringInit _ _ _ _ _ => execRingInit_keeps s
  | .ringFree _ _ => execRingFree_keeps s
  | .salloc _ _ _ _ => execSalloc_keeps s
  | .sfree _ _ => execSfree_keeps s
  | .dset _ _ _ _ => .ok (runInstr_keeps (fun _ _ h => issueDset_keeps h) (.refl s))
  | .move _ _ => .ok (runInstr_keeps (fun _ _ h => issueMove_keeps h) (.refl s))
  | .gather _ _ => .ok (runInstr_keeps (fun _ _ h => issueGather_keeps h) (.refl s))
  | .scatter _ _ _ => .ok (runInstr_keeps (fun _ _ h => issueScatter_keeps h) (.refl s))
  | .pageRequestResponse _ _ _ => execPageRequestResponse_keeps s
  | .pageRequestTimeout _ _ => execPageRequestTimeout_keeps s
  | .translationError _ _ => .ok (hostFail_keeps (.refl s))
  | .atsInvalidation _ _ => execAtsInvalidation_keeps s
  | .readCompletionError _ _ => .ok (hostFail_keeps (.refl s))
  | .readCompletionTimeout _ _ => .ok (hostFail_keeps (.refl s))
  | .sdigest _ _ => execSdigest_keeps s
  | .winOpen _ _ _ _ _ _ _ => execWinOpen_keeps s
  | .winClose _ _ _ => execWinClose_keeps s
  | .windowCloseComplete _ => execWindowCloseComplete_keeps s
  | .allReduce _ _ _ _ => .ok (runInstr_keeps (fun _ _ h => issueColl_keeps h) (.refl s))
  | .reduceScatter _ _ _ _ => .ok (runInstr_keeps (fun _ _ h => issueColl_keeps h) (.refl s))
  | .allGather _ _ _ _ => .ok (runInstr_keeps (fun _ _ h => issueColl_keeps h) (.refl s))
  | .broadcast _ _ _ _ => .ok (runInstr_keeps (fun _ _ h => issueColl_keeps h) (.refl s))
  | .barrier _ _ => .ok (runInstr_keeps (fun _ _ h => issueBarrier_keeps h) (.refl s))
  | .collectiveTimeout _ _ => execCollectiveTimeout_keeps s
  | .dget _ _ _ _ _ => .ok (runInstr_keeps (fun _ _ h => issueDget_keeps h) (.refl s))
  | .dput _ _ _ _ _ => .ok (runInstr_keeps (fun _ _ h => issueDput_keeps h) (.refl s))
  | .flit _ _ => execFlit_keeps s
  | .retry _ _ => execRetry_keeps s
  | .retryRepeat _ => execRetryRepeat_keeps s
  | .portDown _ => execPortDown_keeps s
  | .training _ _ => execTraining_keeps s
  | .trainingComplete _ _ => execTrainingComplete_keeps s
  | .linkKey _ => execLinkKey_keeps s
  | .keyStart _ => execKeyStart_keeps s
  | .keyingTimeout _ => execKeyingTimeout_keeps s
  | .keyLimit _ => execKeyLimit_keeps s
  | .remoteWrite => execRemoteWrite_keeps s
  | .readReq => execReadReq_keeps s
  | .readData => execReadData_keeps s
  | .ack => execAck_keeps s
  | .nak => execNak_keeps s
  | .flagSet => execFlagSet_keeps s
  | .collData => execCollData_keeps s
  | .collCtrl => execCollCtrl_keeps s
  | .paceMessage _ _ _ => execPaceMessage_keeps s
  | .lossNotice _ _ => execLossNotice_keeps s
  | .transferTimeout _ _ => execTransferTimeout_keeps s
  | .epochHoldExpiry _ => execEpochHoldExpiry_keeps s
  | .epochSwitch => execEpochSwitch_keeps s
  | .epochRetire => execEpochRetire_keeps s
  | .pendingEpochWrite _ => .ok (.ite (serveReq_keeps (.refl s)) (.refl s))
  | .routingTableWrite _ => .ok (.ite (serveReq_keeps (.refl s)) (.refl s))
  | .heartbeatSend => execHeartbeatSend_keeps s
  | .heartbeat _ => execHeartbeat_keeps s
  | .heartbeatInterval _ => execHeartbeatInterval_keeps s
  | .pair _ => .ok (.ite (serveReq_keeps (.refl s)) (.refl s))
  | .pairResend => execPairResend_keeps s
  | .pairRecord _ => execPairRecord_keeps s
  | .detach _ => .ok (.ite (serveReq_keeps (.refl s)) (.refl s))
  | .detachRecord _ => execDetachRecord_keeps s
  | .fill _ _ _ => .ok (.ite (serveReq_keeps (.refl s)) (.refl s))
  | .fillComplete => execFillComplete_keeps s
  | .fillDone _ => execFillDone_keeps s
  | .promote _ => .ok (.ite (serveReq_keeps (.refl s)) (.refl s))
  | .mirrorRows _ _ => execMirrorRows_keeps s
  | .confirm _ => execConfirm_keeps s
  | .commit _ => execCommit_keeps s
  | .abort _ => execAbort_keeps s
  | .refetch _ => execRefetch_keeps s
  | .refetchComplete _ _ _ => execRefetchComplete_keeps s
  | .enable _ _ _ _ _ _ => execEnable_keeps s
  | .queueDisableComplete _ _ => execQueueDisableComplete_keeps s
  | .crHead _ _ _ _ _ _ => execCrHead_keeps s
  | .apertureControl _ _ _ => execApertureControl_keeps s
  | .bar2Access _ _ _ _ _ => execBar2Access_keeps s
  | .read _ => .ok (.ite (serveReq_keeps (.refl s)) (.refl s))
  | .write _ => .ok (.ite (serveReq_keeps (.refl s)) (.refl s))
  | .segRead _ => .ok (.ite (serveReq_keeps (.refl s)) (.refl s))
  | .segWrite _ => .ok (.ite (serveReq_keeps (.refl s)) (.refl s))
  | .describe _ => .ok (.ite (serveReq_keeps (.refl s)) (.refl s))
  | .sessionTimeout _ _ _ _ => execSessionTimeout_keeps s
  | .setEndpointId _ _ => execSetEndpointId_keeps s
  | .getEndpointId _ => .ok (mctp_keeps (.refl s))
  | .getMctpVersionSupport _ _ => .ok (mctp_keeps (.refl s))
  | .getMessageTypeSupport _ => .ok (mctp_keeps (.refl s))
  | .getVendorDefinedMessageSupport _ _ => .ok (mctp_keeps (.refl s))
  | .errorRegisterRead _ => .ok (.ite (serveReq_keeps (.refl s)) (.refl s))
  | .smbusAlertResponse => execSmbusAlertResponse_keeps s
  | .evictionRequest _ => .ok (.ite (serveReq_keeps (.refl s)) (.refl s))
  | .create _ _ => .ok (.ite (serveReq_keeps (.refl s)) (.refl s))
  | .start _ => .ok (.ite (serveReq_keeps (.refl s)) (.refl s))
  | .stop _ => .ok (.ite (serveReq_keeps (.refl s)) (.refl s))
  | .coldStop _ => .ok (.ite (serveReq_keeps (.refl s)) (.refl s))
  | .destroy _ => .ok (.ite (serveReq_keeps (.refl s)) (.refl s))
  | .partitionCommandComplete _ => execPartitionCommandComplete_keeps s
  | .quenchPartition _ => .ok (.ite (serveReq_keeps (.refl s)) (.refl s))
  | .restartQueues _ => .ok (.ite (serveReq_keeps (.refl s)) (.refl s))
  | .deviceQuenchCommand _ => .ok (.ite (serveReq_keeps (.refl s)) (.refl s))
  | .rollbackAdvance _ _ _ => .ok (.ite (serveReq_keeps (.refl s)) (.refl s))
  | .attestationRequest _ => .ok (.ite (serveReq_keeps (.refl s)) (.refl s))
  | .reportSigned => execReportSigned_keeps s
  | .linkEncryption _ => .ok (.ite (serveReq_keeps (.refl s)) (.refl s))
  | .bnYield => execBnYield_keeps s
  | .bnComplete => execBnComplete_keeps s
  | .shutdown _ => .ok (.ite (serveReq_keeps (.refl s)) (.refl s))
  | .drainGraceExpiry => execDrainGraceExpiry_keeps s
  | .drainComplete => execDrainComplete_keeps s
  | .clearComplete => execClearComplete_keeps s
  | .scanComplete _ => execScanComplete_keeps s
  | .memoryComplete _ => execMemoryComplete_keeps s
  | .repairComplete _ => execRepairComplete_keeps s
  | .hostLinkUp _ _ => execHostLinkUp_keeps s
  | .droopClear _ => execDroopClear_keeps s
  | .linkKeySegment _ _ _ _ => execLinkKeySegment_keeps s
  | .memberRegistration _ => execMemberRegistration_keeps s
  | .forwardedHostWrite _ => execForwardedHostWrite_keeps s
  | .pageNotPresent _ _ _ _ => execPageNotPresent_keeps s

/-- Reissuing a held instruction keeps what its command keeps. -/
theorem reissueGo_keeps {s₀ s : State} (l : List Held) (hs : Keeps s₀ s) : Keeps s₀ (reissueGo s l) := by
  induction l with
  | nil => exact hs
  | cons h l ih =>
    unfold reissueGo
    refine .ite ?_ ih
    split
    · rename_i t e
      exact .ite ih (readyHeads_keeps (Keeps.upd (hs.upd.trans (exec_keeps _ _ _ e))))
    · exact ih

/-- The step on an empty queue keeps what the commands keep. -/
theorem idleStep_keeps (s : State) : Keeps s (idleStep s) :=
  reissueGo_keeps _ (readyHeads_keeps (flushAllDeals_keeps (Keeps.fold (fun _ _ h => startTongs_keeps h) _ (settleDies_keeps (.refl s)))))

/-- The waiting commands stand in no memory. -/
theorem memsOk_pending {s : State} {l : List Instr} (h : memsOk s) : memsOk { s with pending := l } := h

/-- Settles O1: a step with a command waiting is that command on the rest of the queue. -/
theorem stepRunsFrontCommand : Obligations.StepRunsFrontCommand := by
  intro s c rest h
  rw [step, h]

/-- Settles O58: by `exec_keeps` where a command waits, by `idleStep_keeps` where none does. -/
theorem memoryStaysCanonical : Obligations.MemoryStaysCanonical := by
  intro s t hs ht
  cases hp : s.pending with
  | nil =>
    simp only [step, hp, Host.Outcome.next.injEq] at ht
    subst ht
    exact (idleStep_keeps s).mems hs
  | cons c rest =>
    rw [stepRunsFrontCommand s c rest hp] at ht
    exact (exec_keeps c _ t ht).mems (memsOk_pending hs)

/-- Settles O60: both are parts of what `exec_keeps` says of a command. -/
theorem commandsKeepQueueAndFuses : Obligations.CommandsKeepQueueAndFuses :=
  fun s t i h => ⟨(exec_keeps i s t h).pending, (exec_keeps i s t h).fuses⟩

end Sys2Proof.Machine


namespace Sys2Proof.Machine

set_option linter.unusedTactic false
set_option linter.unreachableTactic false

/-! ### The next identifier only rises, and stays above what is in flight -/

/-- The next identifier of `t` is not below that of `s`, and what is in flight in `t` is below it where that holds of `s`. -/
structure Fresh (s t : State) : Prop where
  rises : s.nextId ≤ t.nextId
  ids : idsFresh s → idsFresh t

theorem Fresh.refl (s : State) : Fresh s s := ⟨Nat.le_refl _, id⟩

theorem Fresh.trans {a b c : State} (h : Fresh a b) (g : Fresh b c) : Fresh a c := ⟨h.rises.trans g.rises, fun m => g.ids (h.ids m)⟩

/-- A change that puts nothing in flight and asks for nothing: every operation and request of `t` has the identifier of one of `s`. -/
theorem Fresh.within {a s t : State} (h : Fresh a s) (hn : s.nextId ≤ t.nextId)
    (hd : ∀ d, ∀ o ∈ (dieOf t d).ops, ∃ p ∈ (dieOf s d).ops, p.id = o.id)
    (hr : ∀ r ∈ t.fabric.requests, ∃ q ∈ s.fabric.requests, q.op = r.op) : Fresh a t := by
  refine h.trans ⟨hn, fun ⟨ops, reqs⟩ => ⟨fun d o ho => ?_, fun r hr' => ?_⟩⟩
  · obtain ⟨p, hp, e⟩ := hd d o ho
    exact e ▸ (ops d p hp).trans_le hn
  · obtain ⟨q, hq, e⟩ := hr r hr'
    exact e ▸ (reqs q hq).trans_le hn

/-- A record update that leaves the dies and the requests as they are. -/
theorem Fresh.upd {a s : State} {fuses pins alarm boot sec log dict parts jobs hearth fabric ports hostA hostB twin bn bist out held reissue free
    nextId pending} (h : Fresh a s) (hr : fabric.requests = s.fabric.requests) (hn : s.nextId ≤ nextId) :
    Fresh a ⟨fuses, pins, alarm, boot, sec, log, dict, parts, s.dies, jobs, hearth, fabric, ports, hostA, hostB, twin, bn, bist, out, held, reissue,
      free, nextId, pending⟩ :=
  h.within hn (fun _ o ho => ⟨o, ho, rfl⟩) fun r hr' => ⟨r, hr ▸ hr', rfl⟩

/-- A record update that drops requests. -/
theorem Fresh.dropRequests {a s : State} {fuses pins alarm boot sec log dict parts jobs hearth fabric ports hostA hostB twin bn bist out held reissue
    free nextId pending} (h : Fresh a s) (hr : fabric.requests ⊆ s.fabric.requests) (hn : s.nextId ≤ nextId) :
    Fresh a ⟨fuses, pins, alarm, boot, sec, log, dict, parts, s.dies, jobs, hearth, fabric, ports, hostA, hostB, twin, bn, bist, out, held, reissue,
      free, nextId, pending⟩ :=
  h.within hn (fun _ o ho => ⟨o, ho, rfl⟩) fun r hr' => ⟨r, hr hr', rfl⟩

/-- A change of a die that puts no operation in flight. -/
theorem Fresh.updDieWithin {a s : State} {d : DieIx} {f : Die → Die} (h : Fresh a s) (hf : ∀ x, ∀ o ∈ (f x).ops, ∃ p ∈ x.ops, p.id = o.id) :
    Fresh a (updDie d f s) :=
  h.within (Nat.le_refl _) (fun e o ho => by
    rw [dieOf_updDie] at ho
    split at ho
    · rename_i e
      exact e ▸ hf _ o ho
    · exact ⟨o, ho, rfl⟩) fun r hr => ⟨r, hr, rfl⟩

/-- A change of a die that leaves its operations as they are. -/
theorem Fresh.updDie {a s : State} {d : DieIx} {f : Die → Die} (h : Fresh a s) (hf : ∀ x, (f x).ops = x.ops) : Fresh a (updDie d f s) :=
  h.updDieWithin fun x o ho => ⟨o, hf x ▸ ho, rfl⟩

/-- Operations that are filtered and changed keep their identifiers. -/
theorem ids_of_map {l : List Op} {g : Op → Op} (hg : ∀ o, (g o).id = o.id) : ∀ o ∈ l.map g, ∃ p ∈ l, p.id = o.id := by
  intro o ho
  obtain ⟨p, hp, rfl⟩ := List.mem_map.1 ho
  exact ⟨p, hp, (hg p).symm⟩

theorem ids_of_filter {l : List Op} {f : Op → Bool} : ∀ o ∈ l.filter f, ∃ p ∈ l, p.id = o.id :=
  fun o ho => ⟨o, (List.mem_filter.1 ho).1, rfl⟩

theorem Fresh.updQueue {a s : State} {d : DieIx} {q : QueueIx} {f : Queue → Queue} (h : Fresh a s) : Fresh a (updQueue d q f s) :=
  h.updDie fun _ => rfl

/-- A record update that maps the dies. -/
theorem Fresh.updDies {a s : State} {f : Die → Die} {fuses pins alarm boot sec log dict parts jobs hearth fabric ports hostA hostB twin bn bist out
    held reissue free nextId pending} (h : Fresh a s) (hf : ∀ x, (f x).ops ⊆ x.ops) (hr : fabric.requests = s.fabric.requests)
    (hn : s.nextId ≤ nextId) :
    Fresh a ⟨fuses, pins, alarm, boot, sec, log, dict, parts, s.dies.map f, jobs, hearth, fabric, ports, hostA, hostB, twin, bn, bist, out, held,
      reissue, free, nextId, pending⟩ :=
  h.within hn (fun d o ho => ⟨o, hf _ (by simpa [dieOf] using ho), rfl⟩) fun r hr' => ⟨r, hr ▸ hr', rfl⟩

theorem Fresh.updPart {a s : State} {p : PartIx} {f : Partition → Partition} (h : Fresh a s) : Fresh a (updPart p f s) :=
  h.upd rfl (Nat.le_refl _)
theorem Fresh.updPort {a s : State} {p : PortIx} {f : Port → Port} (h : Fresh a s) : Fresh a (updPort p f s) := h.upd rfl (Nat.le_refl _)
theorem Fresh.updHost {a s : State} {p : HostId} {f : HostPort → HostPort} (h : Fresh a s) : Fresh a (updHost p f s) := by
  cases p <;> exact h.upd rfl (Nat.le_refl _)
theorem Fresh.updJob {a s : State} {i : Nat} {f : Job → Job} (h : Fresh a s) : Fresh a (updJob i f s) := h.upd rfl (Nat.le_refl _)

theorem Fresh.ite {a s t : State} {c : Prop} [Decidable c] (h : Fresh a s) (g : Fresh a t) : Fresh a (if c then s else t) := by
  split
  · exact h
  · exact g

theorem Fresh.fold {α : Type} {a : State} {f : State → α → State} (hf : ∀ s x, Fresh a s → Fresh a (f s x)) :
    ∀ (l : List α) {s : State}, Fresh a s → Fresh a (l.foldl f s)
  | [], _, h => h
  | x :: l, _, h => Fresh.fold hf l (hf _ x h)

/-- What an issue leaves is fresh. -/
def FreshI (a : State) : Issued → Prop
  | .wait _ _ => True
  | .waitWith _ _ s => Fresh a s
  | .done s => Fresh a s

/-- What a dictionary write leaves is fresh. -/
def FreshE (a : State) : Except Nat State → Prop
  | .ok s => Fresh a s
  | .error _ => True

/-- What a command leaves is fresh. -/
def FreshR (a : State) (r : Result) : Prop := ∀ t, r = .next t → Fresh a t

theorem FreshR.ok {a s : State} (h : Fresh a s) : FreshR a (ok s) := by
  intro t e
  cases e
  exact h

theorem FreshI.ite {a : State} {s t : Issued} {c : Prop} [Decidable c] (h : FreshI a s) (g : FreshI a t) : FreshI a (if c then s else t) := by
  split
  · exact h
  · exact g

theorem FreshE.ite {a : State} {s t : Except Nat State} {c : Prop} [Decidable c] (h : FreshE a s) (g : FreshE a t) :
    FreshE a (if c then s else t) := by
  split
  · exact h
  · exact g

theorem FreshI.wait {a : State} {w : Wait} {rs : List SbEntry} : FreshI a (.wait w rs) := trivial
theorem FreshI.done {a s : State} (h : Fresh a s) : FreshI a (.done s) := h
theorem FreshI.waitWith {a s : State} {w : Wait} {rs : List SbEntry} (h : Fresh a s) : FreshI a (.waitWith w rs s) := h
theorem FreshE.ok {a s : State} (h : Fresh a s) : FreshE a (.ok s) := h
theorem FreshE.error {a : State} {n : Nat} : FreshE a (.error n) := trivial

theorem FreshR.ite {a : State} {s t : Result} {c : Prop} [Decidable c] (h : FreshR a s) (g : FreshR a t) : FreshR a (if c then s else t) := by
  split
  · exact h
  · exact g

/-- The state of a pair is fresh. -/
abbrev FreshP {α : Type} (a : State) (r : α × State) : Prop := Fresh a r.2
theorem FreshP.mk {α : Type} {a s : State} {x : α} (h : Fresh a s) : FreshP a (x, s) := h
theorem FreshP.ite {α : Type} {a : State} {s t : α × State} {c : Prop} [Decidable c] (h : FreshP a s) (g : FreshP a t) :
    FreshP a (if c then s else t) := by
  split
  · exact h
  · exact g

/-- The state of a pair is fresh, the state first. -/
abbrev FreshL {α : Type} (a : State) (r : State × α) : Prop := Fresh a r.1
theorem FreshL.mk {α : Type} {a s : State} {x : α} (h : Fresh a s) : FreshL a (s, x) := h
theorem FreshL.ite {α : Type} {a : State} {s t : State × α} {c : Prop} [Decidable c] (h : FreshL a s) (g : FreshL a t) :
    FreshL a (if c then s else t) := by
  split
  · exact h
  · exact g

/-- The state that may be answered is fresh. -/
def FreshO (a : State) : Option State → Prop
  | some s => Fresh a s
  | none => True
theorem FreshO.some {a s : State} (h : Fresh a s) : FreshO a (some s) := h
theorem FreshO.none {a : State} : FreshO a none := trivial
theorem FreshO.ite {a : State} {s t : Option State} {c : Prop} [Decidable c] (h : FreshO a s) (g : FreshO a t) :
    FreshO a (if c then s else t) := by
  split
  · exact h
  · exact g

theorem FreshO.of {a t : State} {o : Option State} (e : o = Option.some t) (h : FreshO a o) : Fresh a t := by
  subst e
  exact h
theorem FreshE.of {a t : State} {o : Except Nat State} (e : o = Except.ok t) (h : FreshE a o) : Fresh a t := by
  subst e
  exact h
theorem FreshI.of {a t : State} {o : Issued} (e : o = .done t) (h : FreshI a o) : Fresh a t := by
  subst e
  exact h
theorem FreshI.ofWait {a t : State} {o : Issued} {w : Wait} {rs : List SbEntry} (e : o = .waitWith w rs t) (h : FreshI a o) : Fresh a t := by
  subst e
  exact h

/-- The state that comes with a result, where there is one, is fresh. -/
def FreshT {α : Type} (a : State) : Option (α × State) → Prop
  | some x => Fresh a x.2
  | none => True
theorem FreshT.some {α : Type} {a s : State} {x : α} (h : Fresh a s) : FreshT a (Option.some (x, s)) := h
theorem FreshT.none {α : Type} {a : State} : FreshT (α := α) a Option.none := trivial
theorem FreshT.ite {α : Type} {a : State} {s t : Option (α × State)} {c : Prop} [Decidable c] (h : FreshT a s) (g : FreshT a t) :
    FreshT a (if c then s else t) := by
  split
  · exact h
  · exact g
theorem FreshT.of {α : Type} {a t : State} {x : α} {o : Option (α × State)} (e : o = Option.some (x, t)) (h : FreshT a o) : Fresh a t := by
  subst e
  exact h

theorem Fresh.ident {a s : State} (h : Fresh a s) : Fresh a (id s) := h

theorem Fresh.foldP {α β : Type} {a : State} {f : β × State → α → β × State} (hf : ∀ s x, FreshP a s → FreshP a (f s x)) :
    ∀ (l : List α) {s : β × State}, FreshP a s → FreshP a (l.foldl f s)
  | [], _, h => h
  | x :: l, _, h => Fresh.foldP hf l (hf _ x h)

/-! ### The shared operations and the next identifier -/

theorem ok_fresh {s₀ s : State} (hs : Fresh s₀ s) : FreshR s₀ (ok s) := by
  unfold ok
  with_reducible repeat' first | assumption | refine FreshR.ok ?_

theorem takeId_fresh {s₀ s : State} (hs : Fresh s₀ s) : FreshP s₀ (takeId s) :=
  Fresh.upd (a := s₀) hs rfl (Nat.le_add_right _ _)

theorem freeBytes_fresh {s₀ s : State} {n : Nat} (hs : Fresh s₀ s) : FreshP s₀ (freeBytes n s) := by
  unfold freeBytes
  with_reducible repeat' first | assumption | refine Fresh.upd ?_ rfl (Nat.le_refl _)

theorem freeBelow_fresh {s₀ s : State} {m : Nat} (hs : Fresh s₀ s) : FreshP s₀ (freeBelow m s) := by
  unfold freeBelow
  with_reducible repeat' first | assumption | refine Fresh.upd ?_ rfl (Nat.le_refl _)

theorem freeDraw_fresh {s₀ s : State} (hs : Fresh s₀ s) : FreshP s₀ (freeDraw s) := by
  unfold freeDraw
  with_reducible repeat' first | assumption | refine Fresh.upd ?_ rfl (Nat.le_refl _)

theorem emit_fresh {s₀ s : State} {o : Output} (hs : Fresh s₀ s) : Fresh s₀ (emit o s) := by
  unfold emit
  with_reducible repeat' first | assumption | refine Fresh.upd ?_ rfl (Nat.le_refl _)

theorem count_fresh {s₀ s : State} {d : DieIx} {i n : Nat} (hs : Fresh s₀ s) : Fresh s₀ (count d i n s) := by
  unfold count
  with_reducible repeat' first | assumption | refine Fresh.updDie ?_ (fun _ => rfl)

theorem msix_fresh {s₀ s : State} {h : HostId} {fn vec : Nat} (hs : Fresh s₀ s) : Fresh s₀ (msix h fn vec s) := by
  unfold msix
  with_reducible repeat' first | assumption | refine Fresh.ite ?_ ?_ | refine Fresh.updHost ?_ | refine emit_fresh ?_

theorem signal_fresh {s₀ s : State} {sv : Nat} {part : Option PartIx} {entry : List Byte} (hs : Fresh s₀ s) : Fresh s₀ (signal sv part entry s) := by
  unfold signal
  with_reducible repeat' first | assumption | refine emit_fresh ?_ | refine msix_fresh ?_ | split | refine Fresh.upd ?_ rfl (Nat.le_refl _)

theorem logEvent_fresh {s₀ s : State} {e : Ev} {a : EvArgs} (hs : Fresh s₀ s) : Fresh s₀ (logEvent e a s) := by
  unfold logEvent
  with_reducible repeat' first
    | assumption | refine Fresh.updPart ?_ | refine freeBelow_fresh ?_ | refine count_fresh ?_ | refine signal_fresh ?_ | split
    | refine Fresh.upd ?_ rfl (Nat.le_refl _)

theorem countLate_fresh {s₀ s : State} {d : DieIx} (hs : Fresh s₀ s) : Fresh s₀ (countLate d s) := by
  unfold countLate
  with_reducible repeat' first | assumption | refine count_fresh ?_

theorem logAt_fresh {s₀ s : State} {e : Ev} {d : DieIx} {part : Option PartIx} {unit detail : Nat}
    (hs : Fresh s₀ s) : Fresh s₀ (logAt e d part unit detail s) := by
  unfold logAt
  with_reducible repeat' first | assumption | refine logEvent_fresh ?_ | split | refine FreshO.of (by assumption) ?_

theorem logJob_fresh {s₀ s : State} {e : Ev} {j : Job} {at_ : Site} {unit detail : Nat} {skip : Bool}
    (hs : Fresh s₀ s) : Fresh s₀ (logJob e j at_ unit detail skip s) := by
  unfold logJob
  with_reducible repeat' first | assumption | refine Fresh.updJob ?_ | refine logEvent_fresh ?_ | refine Fresh.updJob ?_

theorem updHandle_fresh {s₀ s : State} {d : DieIx} {h : Nat} {f : Handle → Handle} (hs : Fresh s₀ s) : Fresh s₀ (updHandle d h f s) := by
  unfold updHandle
  with_reducible repeat' first | assumption | refine Fresh.updDie ?_ (fun _ => rfl)

theorem updStore_fresh {s₀ s : State} {d : DieIx} {h : Nat} {f : StoreHandle → StoreHandle} (hs : Fresh s₀ s) : Fresh s₀ (updStore d h f s) := by
  unfold updStore
  with_reducible repeat' first | assumption | refine Fresh.updDie ?_ (fun _ => rfl)

theorem updRing_fresh {s₀ s : State} {d : DieIx} {r : Nat} {f : Ring → Ring} (hs : Fresh s₀ s) : Fresh s₀ (updRing d r f s) := by
  unfold updRing
  with_reducible repeat' first | assumption | refine Fresh.updDie ?_ (fun _ => rfl)

theorem poisonHandle_fresh {s₀ s : State} {d : DieIx} {h : Nat} {e : Ev} (hs : Fresh s₀ s) : Fresh s₀ (poisonHandle d h e s) := by
  unfold poisonHandle
  with_reducible repeat' first | assumption | refine Fresh.ite ?_ ?_ | refine updHandle_fresh ?_

theorem poisonStore_fresh {s₀ s : State} {d : DieIx} {h : Nat} {e : Ev} (hs : Fresh s₀ s) : Fresh s₀ (poisonStore d h e s) := by
  unfold poisonStore
  with_reducible repeat' first | assumption | refine Fresh.ite ?_ ?_ | refine updStore_fresh ?_

theorem poisonDest_fresh {s₀ s : State} {e : Ev} {t : Dest} (hs : Fresh s₀ s) : Fresh s₀ (poisonDest e t s) := by
  unfold poisonDest
  with_reducible repeat' first
    | assumption | refine Fresh.updDie ?_ (fun _ => rfl) | refine poisonHandle_fresh ?_ | refine poisonStore_fresh ?_ | split
    | refine Fresh.upd ?_ rfl (Nat.le_refl _)

theorem poisonAll_fresh {s₀ s : State} {e : Ev} {ds : List Dest} (hs : Fresh s₀ s) : Fresh s₀ (poisonAll e ds s) := by
  unfold poisonAll
  with_reducible repeat' first | assumption | refine poisonDest_fresh ?_ | refine Fresh.fold (fun _ _ _ => ?_) _ ?_

theorem putHandle_fresh {s₀ s : State} {d : DieIx} {h o : Nat} {bs : List Byte} (hs : Fresh s₀ s) : Fresh s₀ (putHandle d h o bs s) := by
  unfold putHandle
  exact hs.updDie fun _ => rfl

theorem putStore_fresh {s₀ s : State} {d : DieIx} {h o : Nat} {bs : List Byte} (hs : Fresh s₀ s) : Fresh s₀ (putStore d h o bs s) := by
  unfold putStore
  exact updStore_fresh (hs.updDie fun _ => rfl)

theorem zeroHandle_fresh {s₀ s : State} {d : DieIx} {h : Nat} (hs : Fresh s₀ s) : Fresh s₀ (zeroHandle d h s) := by
  unfold zeroHandle
  exact hs.updDie fun _ => rfl

theorem putBuf_fresh {s₀ s : State} {d : DieIx} {k a : Nat} {bs : List Byte} (hs : Fresh s₀ s) : Fresh s₀ (putBuf d k a bs s) :=
  hs.updDie fun _ => rfl

theorem putScalar_fresh {s₀ s : State} {d : DieIx} {sc v : Nat} (hs : Fresh s₀ s) : Fresh s₀ (putScalar d sc v s) := by
  unfold putScalar
  with_reducible repeat' first | assumption | refine Fresh.updDie ?_ (fun _ => rfl)

theorem setFlagBit_fresh {s₀ s : State} {d : DieIx} {f : Nat} (hs : Fresh s₀ s) : Fresh s₀ (setFlagBit d f s) := by
  unfold setFlagBit
  with_reducible repeat' first | assumption | refine Fresh.updDie ?_ (fun _ => rfl)

theorem clearFlagBit_fresh {s₀ s : State} {d : DieIx} {f : Nat} (hs : Fresh s₀ s) : Fresh s₀ (clearFlagBit d f s) := by
  unfold clearFlagBit
  with_reducible repeat' first | assumption | refine Fresh.updDie ?_ (fun _ => rfl)

theorem updKs_fresh {s₀ s : State} {p : PartIx} {k : Nat} {f : KeySet → KeySet} (hs : Fresh s₀ s) : Fresh s₀ (updKs p k f s) := by
  unfold updKs
  with_reducible repeat' first | assumption | refine Fresh.updPart ?_

theorem wakeDie_fresh {s₀ s : State} {d : DieIx} (hs : Fresh s₀ s) : Fresh s₀ (wakeDie d s) := by
  unfold wakeDie
  with_reducible repeat' first | assumption | refine Fresh.updDie ?_ (fun _ => rfl)

theorem discard_fresh {s₀ s : State} {n : PortIx} {reason : Nat} (hs : Fresh s₀ s) : Fresh s₀ (discard n reason s) := by
  unfold discard
  with_reducible repeat' first | assumption | refine Fresh.updPort ?_

theorem sendMsg_fresh {s₀ s : State} {k : MsgKind} {d : DieIx} {part : Nat} {dst : DieIx} {o : Sent → Output}
    (hs : Fresh s₀ s) : Fresh s₀ (sendMsg k d part dst o s) := by
  unfold sendMsg
  with_reducible repeat' first | assumption | refine emit_fresh ?_ | refine discard_fresh ?_ | split

theorem sendTwinMsg_fresh {s₀ s : State} {k : MsgKind} {o : Sent → Output} (hs : Fresh s₀ s) : Fresh s₀ (sendTwinMsg k o s) := by
  unfold sendTwinMsg
  with_reducible repeat' first | assumption | refine Fresh.ite ?_ ?_ | refine emit_fresh ?_

theorem deliverCpl_fresh {s₀ s : State} {d : DieIx} {q : QueueIx} {p : PartIx} {c : CplRec} (hs : Fresh s₀ s) : Fresh s₀ (deliverCpl d q p c s) := by
  unfold deliverCpl
  with_reducible repeat' first
    | assumption | (intro x; subst x) | lift_lets -underBinder | refine Fresh.updQueue ?_ | refine emit_fresh ?_ | refine msix_fresh ?_
    | refine sendMsg_fresh ?_ | split

theorem putCpl_fresh {s₀ s : State} {d : DieIx} {q : QueueIx} {c : Cpl} (hs : Fresh s₀ s) : Fresh s₀ (putCpl d q c s) := by
  unfold putCpl
  with_reducible repeat' first
    | assumption | (intro x; subst x) | lift_lets -underBinder | refine Fresh.updQueue ?_ | refine deliverCpl_fresh ?_ | split

theorem flushCplGo_fresh {s₀ : State} {d : DieIx} {q : QueueIx} {p : PartIx} : ∀ (n : Nat) {s : State}, Fresh s₀ s → Fresh s₀ (flushCplGo d q p n s)
  | 0, _, h => h
  | n + 1, s, h => by
    have ih : ∀ {s : State}, Fresh s₀ s → Fresh s₀ (flushCplGo d q p n s) := flushCplGo_fresh n
    unfold flushCplGo
    with_reducible repeat' first
      | assumption | (intro x; subst x) | lift_lets -underBinder | refine ih ?_ | refine deliverCpl_fresh ?_ | refine Fresh.updQueue ?_ | split

theorem flushCpl_fresh {s₀ s : State} {d : DieIx} {q : QueueIx} (hs : Fresh s₀ s) : Fresh s₀ (flushCpl d q s) := by
  unfold flushCpl
  with_reducible repeat' first | assumption | refine flushCplGo_fresh _ ?_ | split

theorem finishEvictions_fresh {s₀ s : State} {p : PartIx} (hs : Fresh s₀ s) : Fresh s₀ (finishEvictions p s) := by
  unfold finishEvictions
  with_reducible repeat' first | assumption | refine Fresh.updPart ?_

theorem zeroJobBufs_fresh {s₀ s : State} {id : Nat} (hs : Fresh s₀ s) : Fresh s₀ (zeroJobBufs id s) :=
  hs.updDies (fun _ => List.Subset.refl _) rfl (Nat.le_refl _)

theorem removeJob_fresh {s₀ s : State} {id : Nat} (hs : Fresh s₀ s) : Fresh s₀ (removeJob id s) :=
  hs.updDies (fun _ => List.Subset.refl _) rfl (Nat.le_refl _)

theorem finishJob_fresh {s₀ s : State} {id elapsed : Nat} (hs : Fresh s₀ s) : Fresh s₀ (finishJob id elapsed s) := by
  unfold finishJob
  with_reducible repeat' first
    | assumption | refine logJob_fresh ?_ | refine putCpl_fresh ?_ | refine finishEvictions_fresh ?_ | refine zeroJobBufs_fresh ?_
    | refine removeJob_fresh ?_ | split

theorem sendTwinGen_fresh {s₀ s : State} {rtype gen : Nat} {p : PartIx} {tag : Nat} (hs : Fresh s₀ s) : Fresh s₀ (sendTwinGen rtype gen p tag s) := by
  unfold sendTwinGen
  with_reducible repeat' first | assumption | refine sendTwinMsg_fresh ?_ | refine Fresh.upd ?_ rfl (Nat.le_refl _)

theorem sendRows_fresh {s₀ s : State} {p : PartIx} {m : MirrorBody} (hs : Fresh s₀ s) : Fresh s₀ (sendRows p m s) := by
  unfold sendRows
  with_reducible repeat' first | assumption | refine sendTwinMsg_fresh ?_

theorem sendTwin_fresh {s₀ s : State} {rtype : Nat} {p : PartIx} {tag : Nat} (hs : Fresh s₀ s) : Fresh s₀ (sendTwin rtype p tag s) := by
  unfold sendTwin
  with_reducible repeat' first | assumption | refine sendTwinGen_fresh ?_

theorem discardRec_fresh {s₀ s : State} (hs : Fresh s₀ s) : Fresh s₀ (discardRec s) := by
  unfold discardRec
  with_reducible repeat' first | assumption | refine Fresh.upd ?_ rfl (Nat.le_refl _)

theorem okPacket_fresh {s₀ s : State} {d : DieIx} {q : QueueIx} {b : List Byte} {detail : Nat}
    (hs : Fresh s₀ s) : Fresh s₀ (okPacket d q b detail s) := by
  unfold okPacket
  with_reducible repeat' first | assumption | refine putCpl_fresh ?_

theorem withholdPacket_fresh {s₀ s : State} {d : DieIx} {q : QueueIx} {e : Ev} {b : List Byte}
    (hs : Fresh s₀ s) : Fresh s₀ (withholdPacket d q e b s) := by
  unfold withholdPacket
  with_reducible repeat' first | assumption | refine Fresh.ite ?_ ?_ | refine putCpl_fresh ?_

theorem refusePacket_fresh {s₀ s : State} {d : DieIx} {q : QueueIx} {e : Ev} {b : List Byte}
    (hs : Fresh s₀ s) : Fresh s₀ (refusePacket d q e b s) := by
  unfold refusePacket
  with_reducible repeat' first | assumption | refine logEvent_fresh ?_ | refine withholdPacket_fresh ?_

theorem popLine_fresh {s₀ s : State} {d : DieIx} {q : QueueIx} (hs : Fresh s₀ s) : Fresh s₀ (popLine d q s) := by
  unfold popLine
  with_reducible repeat' first | assumption | refine Fresh.updQueue ?_

theorem settleGo_fresh {s₀ : State} {d : DieIx} {q : QueueIx} : ∀ (n : Nat) {s : State}, Fresh s₀ s → Fresh s₀ (settleGo d q n s)
  | 0, _, h => h
  | n + 1, s, h => by
    have ih : ∀ {s : State}, Fresh s₀ s → Fresh s₀ (settleGo d q n s) := settleGo_fresh n
    unfold settleGo
    with_reducible repeat' first
      | assumption | (intro x; subst x) | lift_lets -underBinder | refine ih ?_ | refine popLine_fresh ?_ | refine refusePacket_fresh ?_
      | refine withholdPacket_fresh ?_ | split

theorem stampJob_fresh {s₀ s : State} {j : Job} (hs : Fresh s₀ s) : Fresh s₀ (stampJob s j) := by
  unfold stampJob
  with_reducible repeat' first
    | assumption | refine Fresh.updJob ?_ | refine finishEvictions_fresh ?_ | refine removeJob_fresh ?_ | refine refusePacket_fresh ?_
    | refine settleGo_fresh _ ?_ | refine Fresh.fold (fun _ _ _ => ?_) _ ?_ | split | refine Fresh.upd ?_ rfl (Nat.le_refl _)

theorem stampAll_fresh {s₀ s : State} (hs : Fresh s₀ s) : Fresh s₀ (stampAll s) := by
  unfold stampAll
  with_reducible repeat' first | assumption | refine stampJob_fresh ?_ | refine Fresh.fold (fun _ _ _ => ?_) _ ?_

theorem settleQueue_fresh {s₀ s : State} {d : DieIx} {q : QueueIx} (hs : Fresh s₀ s) : Fresh s₀ (settleQueue d q s) := by
  unfold settleQueue
  with_reducible repeat' first | assumption | refine finishEvictions_fresh ?_ | refine settleGo_fresh _ ?_ | refine stampAll_fresh ?_ | split

theorem settleDies_fresh {s₀ s : State} {ds : List DieIx} (hs : Fresh s₀ s) : Fresh s₀ (settleDies ds s) := by
  unfold settleDies
  with_reducible repeat' first | assumption | refine settleQueue_fresh ?_ | refine Fresh.fold (fun _ _ _ => ?_) _ ?_

theorem actPacket_fresh {s₀ s : State} {d : DieIx} {q : QueueIx} {type : Nat} {f : List Byte → State → State}
    (hf : ∀ b t, Fresh s₀ t → Fresh s₀ (f b t)) (hs : Fresh s₀ s) : Fresh s₀ (actPacket d q type f s) := by
  unfold actPacket
  split
  · exact hs
  · have h := popLine_fresh (d := d) (q := q) hs
    refine settleQueue_fresh ?_
    split
    · exact hf _ _ h
    · exact refusePacket_fresh h

theorem holdQueue_fresh {s₀ s : State} {d : DieIx} {q : QueueIx} {h : Hold} {b : List Byte} (hs : Fresh s₀ s) : Fresh s₀ (holdQueue d q h b s) := by
  unfold holdQueue
  with_reducible repeat' first | assumption | refine Fresh.updQueue ?_

theorem releaseQueue_fresh {s₀ s : State} {d : DieIx} {q : QueueIx} (hs : Fresh s₀ s) : Fresh s₀ (releaseQueue d q s) := by
  unfold releaseQueue
  with_reducible repeat' first | assumption | refine Fresh.updQueue ?_ | refine settleQueue_fresh ?_

theorem endBlock_fresh {s₀ s : State} {d : DieIx} {f : Nat} {q : QueueIx} (hs : Fresh s₀ s) : Fresh s₀ (endBlock d f q s) := by
  unfold endBlock
  with_reducible repeat' first | assumption | refine clearFlagBit_fresh ?_ | refine okPacket_fresh ?_ | refine releaseQueue_fresh ?_ | split

theorem signalFlag_fresh {s₀ s : State} {d : DieIx} {f : Nat} (hs : Fresh s₀ s) : Fresh s₀ (signalFlag d f s) := by
  unfold signalFlag
  with_reducible repeat' first | assumption | refine setFlagBit_fresh ?_ | refine endBlock_fresh ?_ | refine Fresh.fold (fun _ _ _ => ?_) _ ?_

theorem takePacket_fresh {s₀ s : State} {d : DieIx} {q : QueueIx} {b : List Byte} (hs : Fresh s₀ s) : Fresh s₀ (takePacket d q b s) := by
  unfold takePacket
  with_reducible repeat' first | assumption | refine Fresh.ite ?_ ?_ | refine Fresh.updQueue ?_ | refine withholdPacket_fresh ?_

theorem readGo_fresh {s₀ : State} {d : DieIx} {q : QueueIx} : ∀ (n : Nat) {s : State}, Fresh s₀ s → Fresh s₀ (readGo d q n s)
  | 0, _, h => h
  | n + 1, s, h => by
    have ih : ∀ {s : State}, Fresh s₀ s → Fresh s₀ (readGo d q n s) := readGo_fresh n
    unfold readGo
    with_reducible repeat' first | assumption | refine Fresh.ite ?_ ?_ | refine ih ?_ | refine takePacket_fresh ?_ | refine Fresh.updQueue ?_

theorem readQueue_fresh {s₀ s : State} {d : DieIx} {q : QueueIx} (hs : Fresh s₀ s) : Fresh s₀ (readQueue d q s) := by
  unfold readQueue
  with_reducible repeat' first | assumption | refine settleQueue_fresh ?_ | refine readGo_fresh _ ?_

theorem spoilDest_fresh {s₀ s : State} {ys : List Op} {t : Dest} (hs : Fresh s₀ s) : Fresh s₀ (spoilDest ys t s) := by
  cases t with
  | handle d h => exact Fresh.ite (zeroHandle_fresh hs) (Fresh.upd (hs.updDie fun _ => rfl) rfl (Nat.le_refl _))
  | store d h => exact Fresh.upd (updStore_fresh (hs.updDie fun _ => rfl)) rfl (Nat.le_refl _)
  | slot d k => exact Fresh.ite hs (Fresh.updDie (freeBytes_fresh (n := 64) hs) fun _ => rfl)
  | region d mask row rows => exact Fresh.upd (hs.updDie fun _ => rfl) rfl (Nat.le_refl _)
  | tile d g z => exact Fresh.upd (hs.updDie fun _ => rfl) rfl (Nat.le_refl _)
  | cache d g line n => exact Fresh.upd (hs.updDie fun _ => rfl) rfl (Nat.le_refl _)
  | scalar d sc => exact Fresh.upd (hs.updDie fun _ => rfl) rfl (Nat.le_refl _)
  | ring _ _ | palette _ _ | bnSlot _ _ | window _ _ | host => exact hs

theorem spoilSlots_fresh {s₀ s : State} {d : DieIx} {o : Op} (hs : Fresh s₀ s) : Fresh s₀ (spoilSlots d o s) := by
  unfold spoilSlots
  refine Fresh.fold (fun s f h => ?_) _ hs
  refine Fresh.upd ?_ rfl (Nat.le_refl _)
  exact h.updDie fun _ => rfl

theorem resetRing_fresh {s₀ s : State} {d : DieIx} {e : Ev} {r : Nat} (hs : Fresh s₀ s) : Fresh s₀ (resetRing d e r s) := by
  unfold resetRing
  with_reducible repeat' first
    | assumption | refine Fresh.updDieWithin ?_ (fun _ => ids_of_map fun _ => rfl) | refine updRing_fresh ?_ | refine poisonHandle_fresh ?_

theorem setGroup_fresh {s₀ s : State} {d : DieIx} {id g : Nat} (hs : Fresh s₀ s) : Fresh s₀ (setGroup d id g s) := by
  unfold setGroup
  exact hs.updDieWithin fun _ => ids_of_map fun _ => by split <;> rfl

theorem sendGroup_fresh {s₀ s : State} {h : HostId} {d : DieIx} {o : Op} (hs : Fresh s₀ s) : Fresh s₀ (sendGroup h d o s) := by
  unfold sendGroup
  with_reducible repeat' first
    | assumption | refine Fresh.updHost ?_ | refine emit_fresh ?_ | refine sendMsg_fresh ?_ | refine setGroup_fresh ?_ | split
    | refine Fresh.upd ?_ rfl (Nat.le_add_right _ _)

theorem sendBench_fresh {s₀ s : State} {h : HostId} (hs : Fresh s₀ s) : Fresh s₀ (sendBench h s) := by
  unfold sendBench
  with_reducible repeat' first | assumption | refine Fresh.updHost ?_ | refine emit_fresh ?_ | split | refine Fresh.upd ?_ rfl (Nat.le_add_right _ _)

theorem sendWaiting_fresh {s₀ s : State} {h : HostId} (hs : Fresh s₀ s) : Fresh s₀ (sendWaiting h s) := by
  unfold sendWaiting
  with_reducible repeat' first | assumption | refine sendGroup_fresh ?_ | refine sendBench_fresh ?_ | split

theorem dropOp_fresh {s₀ s : State} {d : DieIx} {id : Nat} (hs : Fresh s₀ s) : Fresh s₀ (dropOp d id s) := by
  unfold dropOp
  extract_lets gone drop late s₁ a b f s₂ s₃
  have h₁ : Fresh s₀ s₁ := hs.updDieWithin fun _ => ids_of_filter
  have h₂ : Fresh s₀ s₂ := h₁.dropRequests (fun _ h => List.mem_of_mem_filter h) (Nat.le_refl _)
  have h₃ : Fresh s₀ s₃ := .ite (sendWaiting_fresh h₂) h₂
  exact .ite (sendWaiting_fresh h₃) h₃

theorem dropClaims_fresh {s₀ s : State} {d : DieIx} {e : Ev} {o : Op} (hs : Fresh s₀ s) : Fresh s₀ (dropClaims d e o s) := by
  unfold dropClaims
  with_reducible repeat' first | assumption | refine resetRing_fresh ?_ | refine Fresh.fold (fun _ _ _ => ?_) _ ?_

theorem abortOp_fresh {s₀ s : State} {d : DieIx} {e : Ev} {o : Op} (hs : Fresh s₀ s) : Fresh s₀ (abortOp d e o s) := by
  unfold abortOp
  with_reducible repeat' first
    | assumption | refine poisonAll_fresh ?_ | refine spoilDest_fresh ?_ | refine spoilSlots_fresh ?_ | refine dropOp_fresh ?_
    | refine dropClaims_fresh ?_ | refine Fresh.fold (fun _ _ _ => ?_) _ ?_

theorem zeroBnSlots_fresh {s₀ s : State} {f : Nat → BnSlot → Bool} (hs : Fresh s₀ s) : Fresh s₀ (zeroBnSlots f s) := by
  unfold zeroBnSlots
  with_reducible repeat' first | assumption | refine Fresh.upd ?_ rfl (Nat.le_refl _)

theorem abortBn_fresh {s₀ s : State} {id : Nat} (hs : Fresh s₀ s) : Fresh s₀ (abortBn id s) := by
  unfold abortBn
  with_reducible repeat' first | assumption | refine zeroBnSlots_fresh ?_ | split | refine Fresh.upd ?_ rfl (Nat.le_refl _)

theorem zeroJobSecrets_fresh {s₀ s : State} {j : Job} (hs : Fresh s₀ s) : Fresh s₀ (zeroJobSecrets j s) := by
  unfold zeroJobSecrets
  with_reducible repeat' first
    | assumption | refine Fresh.ite ?_ ?_ | refine zeroHandle_fresh ?_ | refine zeroBnSlots_fresh ?_ | refine Fresh.fold (fun _ _ _ => ?_) _ ?_

theorem quenchJob_fresh {s₀ s : State} {id : Nat} {e : Ev} {cancel : Bool} (hs : Fresh s₀ s) : Fresh s₀ (quenchJob id e cancel s) := by
  unfold quenchJob
  with_reducible repeat' first
    | assumption | refine Fresh.updJob ?_ | refine freeDraw_fresh ?_ | refine poisonAll_fresh ?_ | refine finishJob_fresh ?_
    | refine abortOp_fresh ?_ | refine abortBn_fresh ?_ | refine zeroJobSecrets_fresh ?_ | refine Fresh.fold (fun _ _ _ => ?_) _ ?_ | split
    | refine Fresh.upd ?_ rfl (Nat.le_refl _)

theorem quenchJobs_fresh {s₀ s : State} {ids : List Nat} {e : Ev} (hs : Fresh s₀ s) : Fresh s₀ (quenchJobs ids e s) := by
  unfold quenchJobs
  with_reducible repeat' first | assumption | refine quenchJob_fresh ?_ | refine Fresh.fold (fun _ _ _ => ?_) _ ?_

theorem dropPatch_fresh {s₀ s : State} {d : DieIx} {h : Option Hold} (hs : Fresh s₀ s) : Fresh s₀ (dropPatch d h s) := by
  unfold dropPatch
  with_reducible repeat' first | assumption | refine Fresh.updPart ?_ | split

theorem drainQueue_fresh {s₀ s : State} {d : DieIx} {q : QueueIx} {e : Ev} (hs : Fresh s₀ s) : Fresh s₀ (drainQueue d q e s) := by
  unfold drainQueue
  with_reducible repeat' first
    | assumption | refine Fresh.updQueue ?_ | refine withholdPacket_fresh ?_ | refine dropPatch_fresh ?_ | refine Fresh.fold (fun _ _ _ => ?_) _ ?_
    | split

theorem dropImport_fresh {s₀ s : State} {p : PartIx} {im : Import} (hs : Fresh s₀ s) : Fresh s₀ (dropImport p im s) := by
  unfold dropImport
  with_reducible repeat' first | assumption | refine Fresh.ite ?_ ?_ | refine Fresh.updPart ?_ | refine updKs_fresh ?_ | refine sendTwin_fresh ?_

theorem zeroPartSecrets_fresh {s₀ s : State} {p : PartIx} (hs : Fresh s₀ s) : Fresh s₀ (zeroPartSecrets p s) := by
  unfold zeroPartSecrets
  refine Fresh.updPart (Fresh.upd (zeroBnSlots_fresh (Fresh.fold (fun s d h => ?_) _ (Fresh.fold (fun s d h => ?_) _ hs))) rfl (Nat.le_refl _))
  · exact h.updDie fun _ => rfl
  · exact Fresh.fold (fun _ _ h => zeroHandle_fresh h) _ h

theorem quenchPartition_fresh {s₀ s : State} {p : PartIx} {e : Ev} {restart : Bool} (hs : Fresh s₀ s) : Fresh s₀ (quenchPartition p e restart s) := by
  unfold quenchPartition
  with_reducible repeat' first
    | assumption | refine Fresh.updDie ?_ (fun _ => rfl) | refine Fresh.updDie ?_ (fun _ => rfl) | refine Fresh.updPart ?_
    | refine finishEvictions_fresh ?_ | refine quenchJob_fresh ?_ | refine drainQueue_fresh ?_ | refine dropImport_fresh ?_
    | refine zeroPartSecrets_fresh ?_ | refine Fresh.fold (fun _ _ _ => ?_) _ ?_ | refine Fresh.upd ?_ rfl (Nat.le_refl _)

theorem zeroDeviceSecrets_fresh {s₀ s : State} (hs : Fresh s₀ s) : Fresh s₀ (zeroDeviceSecrets s) := by
  unfold zeroDeviceSecrets
  with_reducible repeat' first
    | assumption | refine zeroPartSecrets_fresh ?_ | refine Fresh.fold (fun _ _ _ => ?_) _ ?_ | refine Fresh.upd ?_ rfl (Nat.le_refl _)

theorem quenchDevice_fresh {s₀ s : State} {e : Ev} {src : QuenchSource} (hs : Fresh s₀ s) : Fresh s₀ (quenchDevice e src s) := by
  unfold quenchDevice
  with_reducible repeat' first
    | assumption | refine Fresh.ite ?_ ?_ | refine quenchPartition_fresh ?_ | refine zeroDeviceSecrets_fresh ?_
    | refine Fresh.fold (fun _ _ _ => ?_) _ ?_ | refine Fresh.upd ?_ rfl (Nat.le_refl _)

theorem deviceFail_fresh {s₀ s : State} {e : Ev} {d : DieIx} {unit detail : Nat} (hs : Fresh s₀ s) : Fresh s₀ (deviceFail e d unit detail s) := by
  unfold deviceFail
  with_reducible repeat' first | assumption | refine logAt_fresh ?_ | refine quenchDevice_fresh ?_

theorem holdOutRow_fresh {s₀ s : State} {d : DieIx} {row : Nat} (hs : Fresh s₀ s) : Fresh s₀ (holdOutRow d row s) := by
  unfold holdOutRow
  with_reducible repeat' first | assumption | refine Fresh.updDie ?_ (fun _ => rfl) | refine count_fresh ?_ | refine Fresh.upd ?_ rfl (Nat.le_refl _)

theorem holdOutStack_fresh {s₀ s : State} {d : DieIx} {row : Nat} (hs : Fresh s₀ s) : Fresh s₀ (holdOutStack d row s) := by
  unfold holdOutStack
  with_reducible repeat' first | assumption | refine Fresh.updDie ?_ (fun _ => rfl) | refine count_fresh ?_ | refine Fresh.upd ?_ rfl (Nat.le_refl _)

theorem passSite_fresh {s₀ s : State} {a : Site} (hs : Fresh s₀ s) : Fresh s₀ (passSite a s) := by
  unfold passSite
  with_reducible repeat' first | assumption | refine Fresh.ite ?_ ?_ | refine Fresh.updQueue ?_

theorem holdInstr_fresh {s₀ s : State} {j : Nat} {at_ : Site} {i : Instr} {w : Wait} {rs : List SbEntry}
    (hs : Fresh s₀ s) : Fresh s₀ (holdInstr j at_ i w rs s) := by
  unfold holdInstr
  with_reducible repeat' first | assumption | split | refine Fresh.upd ?_ rfl (Nat.le_add_right _ _) | refine Fresh.upd ?_ rfl (Nat.le_refl _)

theorem unhold_fresh {s₀ s : State} (hs : Fresh s₀ s) : Fresh s₀ (unhold s) := by
  unfold unhold
  with_reducible repeat' first | assumption | split | refine Fresh.upd ?_ rfl (Nat.le_refl _)

theorem readyHeads_fresh {s₀ s : State} (hs : Fresh s₀ s) : Fresh s₀ (readyHeads s) := by
  unfold readyHeads
  with_reducible repeat' first | assumption | refine Fresh.upd ?_ rfl (Nat.le_add_right _ _)

theorem runInstr_fresh {s₀ s : State} {at_ : Site} {i : Instr} {f : Job → State → Issued}
    (hf : ∀ j t, Fresh s₀ t → FreshI s₀ (f j t)) (hs : Fresh s₀ s) : Fresh s₀ (runInstr at_ i f s) := by
  unfold runInstr
  have hp := passSite_fresh (a := at_) hs
  generalize passSite at_ s = t at hp
  change Fresh s₀ (match siteJob t at_ with | none => t | some j => _)
  split
  · exact hp
  · refine Fresh.ite ?_ ?_
    · split
      · exact hp
      · exact holdInstr_fresh hp
    · rename_i j _
      have h := hf j _ (unhold_fresh hp)
      split
      · exact holdInstr_fresh hp
      · rename_i e
        have h' := FreshI.ofWait e h
        exact Fresh.ite h' (holdInstr_fresh (Fresh.upd h' rfl (Nat.le_refl _)))
      · rename_i e
        exact FreshI.of e h

theorem logOnce_fresh {s₀ s : State} {e : Ev} {n : Nat} {j : Job} {at_ : Site} {unit : Nat}
    (hs : Fresh s₀ s) : Fresh s₀ (logOnce e n j at_ unit s) := by
  unfold logOnce
  with_reducible repeat' first | assumption | refine Fresh.ite ?_ ?_ | refine count_fresh ?_ | refine logJob_fresh ?_

theorem countIndexes_fresh {s₀ s : State} {j : Job} {at_ : Site} {unit n : Nat} (hs : Fresh s₀ s) : Fresh s₀ (countIndexes j at_ unit n s) := by
  unfold countIndexes
  with_reducible repeat' first | assumption | refine count_fresh ?_ | refine logOnce_fresh ?_

theorem countStalls_fresh {s₀ s : State} {j : Job} {at_ : Site} {unit : Nat} (hs : Fresh s₀ s) : Fresh s₀ (countStalls j at_ unit s) := by
  unfold countStalls
  with_reducible repeat' first | assumption | refine freeDraw_fresh ?_ | refine count_fresh ?_ | refine logOnce_fresh ?_

theorem nameDests_fresh {s₀ s : State} {j : Nat} {ds : List Dest} (hs : Fresh s₀ s) : Fresh s₀ (nameDests j ds s) := by
  unfold nameDests
  with_reducible repeat' first | assumption | refine Fresh.updJob ?_

theorem skipInstr_fresh {s₀ s : State} {e : Ev} {j : Job} {at_ : Site} {unit : Nat} {ds : List Dest}
    (hs : Fresh s₀ s) : Fresh s₀ (skipInstr e j at_ unit ds s) := by
  unfold skipInstr
  with_reducible repeat' first | assumption | refine Fresh.updJob ?_ | refine logJob_fresh ?_ | refine poisonAll_fresh ?_ | refine nameDests_fresh ?_

theorem refuseInstr_fresh {s₀ s : State} {e pe : Ev} {j : Job} {at_ : Site} {unit : Nat} {ds : List Dest}
    (hs : Fresh s₀ s) : Fresh s₀ (refuseInstr e pe j at_ unit ds s) := by
  unfold refuseInstr
  with_reducible repeat' first
    | assumption | refine logJob_fresh ?_ | refine poisonAll_fresh ?_ | refine quenchJob_fresh ?_ | refine nameDests_fresh ?_

theorem countEntryWait_fresh {s₀ s : State} {d : DieIx} (hs : Fresh s₀ s) : Fresh s₀ (countEntryWait d s) := by
  unfold countEntryWait
  with_reducible repeat' first | assumption | refine freeDraw_fresh ?_ | refine count_fresh ?_ | split

theorem withScoreboard_fresh {s₀ s : State} {d : DieIx} {rs : List SbEntry} {k : List SbEntry → State → Issued}
    (hk : ∀ es t, Fresh s₀ t → FreshI s₀ (k es t)) (hs : Fresh s₀ s) : FreshI s₀ (withScoreboard d rs s k) := by
  unfold withScoreboard
  split
  · trivial
  · exact hk _ _ (countEntryWait_fresh (count_fresh hs))

@[simp] theorem startOp_nextId (d : DieIx) (o : Op) (es : List SbEntry) (s : State) : (startOp d o es s).nextId = s.nextId + 1 := rfl

@[simp] theorem startOp_fabric (d : DieIx) (o : Op) (es : List SbEntry) (s : State) : (startOp d o es s).fabric = s.fabric := rfl

/-- A die with an operation put last in flight under an identifier, and its entries last on the scoreboard. -/
def withOp (o : Op) (es : List SbEntry) (id : Nat) (x : Die) : Die :=
  { x with ops := x.ops ++ [{ o with id := id }], scoreboard := x.scoreboard ++ es.map fun e => { e with op := id } }

/-- The dies after an operation starts. -/
theorem dieOf_startOp (d e : DieIx) (o : Op) (es : List SbEntry) (s : State) :
    dieOf (startOp d o es s) e = dieOf (updDie d (withOp o es s.nextId) s) e := rfl

theorem startOp_fresh {s₀ s : State} {d : DieIx} {o : Op} {es : List SbEntry} (hs : Fresh s₀ s) : Fresh s₀ (startOp d o es s) := by
  refine hs.trans ⟨Nat.le_add_right _ _, fun ⟨ops, reqs⟩ => ⟨fun e x hx => ?_, fun r hr => (reqs r hr).trans (Nat.lt_succ_self _)⟩⟩
  rw [dieOf_startOp, dieOf_updDie] at hx
  split at hx
  · rcases List.mem_append.1 hx with h | h
    · exact (ops d x h).trans (Nat.lt_succ_self _)
    · obtain rfl := List.mem_singleton.1 h
      exact Nat.lt_succ_self _
  · exact (ops e x hx).trans (Nat.lt_succ_self _)

theorem claimTakes_fresh {s₀ s : State} {d : DieIx} {us : List (Nat × Bool)} (hs : Fresh s₀ s) : Fresh s₀ (claimTakes d us s) := by
  unfold claimTakes
  with_reducible repeat' first | assumption | refine Fresh.ite ?_ ?_ | refine updRing_fresh ?_ | refine Fresh.fold (fun _ _ _ => ?_) _ ?_

theorem fillSlot_fresh {s₀ s : State} {d : DieIx} {r c : Nat} (hs : Fresh s₀ s) : Fresh s₀ (fillSlot d r c s) := by
  unfold fillSlot
  with_reducible repeat' first | assumption | refine updRing_fresh ?_

theorem releaseSlot_fresh {s₀ s : State} {d : DieIx} {r c : Nat} (hs : Fresh s₀ s) : Fresh s₀ (releaseSlot d r c s) := by
  unfold releaseSlot
  with_reducible repeat' first | assumption | refine updRing_fresh ?_

theorem skipQuench_fresh {s₀ s : State} {e : Ev} {j : Job} {at_ : Site} {unit : Nat} {ds : List Dest}
    (hs : Fresh s₀ s) : Fresh s₀ (skipQuench e j at_ unit ds s) := by
  unfold skipQuench
  with_reducible repeat' first | assumption | refine quenchJob_fresh ?_ | refine skipInstr_fresh ?_

theorem onVerdict_fresh {s₀ s : State} {v : Verdict} {j : Job} {at_ : Site} {unit : Nat} {ds : List Dest} {k : State → State}
    (hk : ∀ t, Fresh s₀ t → Fresh s₀ (k t)) (hs : Fresh s₀ s) : Fresh s₀ (onVerdict v j at_ unit ds s k) := by
  unfold onVerdict
  split
  · exact hk _ hs
  · exact skipInstr_fresh hs
  · exact refuseInstr_fresh hs
  · exact skipQuench_fresh hs

theorem putRegionLimb_fresh {s₀ s : State} {d : DieIx} {cs : List Nat} {row n limbs p i : Nat} {l : Limb}
    (hs : Fresh s₀ s) : Fresh s₀ (putRegionLimb d cs row n limbs p i l s) := by
  unfold putRegionLimb
  with_reducible repeat' first | assumption | refine putBuf_fresh ?_

theorem markRegion_fresh {s₀ s : State} {d : DieIx} {cs : List Nat} {job row n parts limbs : Nat}
    (hs : Fresh s₀ s) : Fresh s₀ (markRegion d cs job row n parts limbs s) := by
  unfold markRegion
  with_reducible repeat' first | assumption | refine Fresh.updDie ?_ (fun _ => rfl)

theorem putObj_fresh {s₀ s : State} {d : DieIx} {cs : List Nat} {l : Loc} {h : Header} {b : PolyBody}
    (hs : Fresh s₀ s) : Fresh s₀ (putObj d cs l h b s) := by
  unfold putObj
  with_reducible repeat' first
    | assumption | refine Fresh.updDie ?_ (fun _ => rfl) | refine putHandle_fresh ?_ | refine putRegionLimb_fresh ?_
    | refine Fresh.fold (fun _ _ _ => ?_) _ ?_ | split

theorem putHead_fresh {s₀ s : State} {d : DieIx} {l : Loc} {h : Header} (hs : Fresh s₀ s) : Fresh s₀ (putHead d l h s) := by
  unfold putHead
  with_reducible repeat' first | assumption | refine Fresh.updDie ?_ (fun _ => rfl) | refine putHandle_fresh ?_ | split

theorem drawStreams_fresh {s₀ s : State} {p : PartIx} {slot : Nat} {j : Job} {h : Header} {n : Nat}
    (hs : Fresh s₀ s) : Fresh s₀ (drawStreams p slot j h n s) := by
  unfold drawStreams
  with_reducible repeat' first | assumption | refine Fresh.ite ?_ ?_ | refine Fresh.updJob ?_ | refine updKs_fresh ?_

theorem updSpace_fresh {s₀ s : State} {t : Desc} {f : Mem → Mem} (hs : Fresh s₀ s) : Fresh s₀ (updSpace t f s) :=
  hs.updDie fun _ => by split <;> rfl

theorem touchDigest_fresh {s₀ s : State} {t : Desc} (hs : Fresh s₀ s) : Fresh s₀ (touchDigest t s) := by
  unfold touchDigest
  with_reducible repeat' first | assumption | refine Fresh.ite ?_ ?_ | refine updStore_fresh ?_

theorem writeElems_fresh {s₀ s : State} {t : Desc} {slot : Nat} {xs : List (Int × Nat)} (hs : Fresh s₀ s) :
    Fresh s₀ (writeElems t slot xs s) := by
  unfold writeElems
  exact touchDigest_fresh (updSpace_fresh hs)

theorem writeScales_fresh {s₀ s : State} {t : Desc} {slot : Nat} {xs : List (Nat × Nat)} (hs : Fresh s₀ s) :
    Fresh s₀ (writeScales t slot xs s) := by
  unfold writeScales
  exact Fresh.ite (touchDigest_fresh (updSpace_fresh hs)) hs

theorem issueDset_fresh {s₀ s : State} {at_ : Site} {index handle offset : Nat} {j : Job}
    (hs : Fresh s₀ s) : FreshI s₀ (issueDset at_ index handle offset j s) := by
  unfold issueDset
  with_reducible repeat' first
    | assumption | (intro x; subst x) | lift_lets -underBinder | refine FreshI.done ?_ | refine Fresh.updDie ?_ (fun _ => rfl)
    | refine refuseInstr_fresh ?_ | refine withScoreboard_fresh (fun _ _ _ => ?_) ?_ | refine skipQuench_fresh ?_ | split

theorem recordPalette_fresh {s₀ s : State} {d : DieIx} {e : Nat} {vs : List FV} {sat : Bool}
    (hs : Fresh s₀ s) : Fresh s₀ (recordPalette d e vs sat s) := by
  unfold recordPalette
  with_reducible repeat' first | assumption | refine Fresh.updDie ?_ (fun _ => rfl)

theorem countNans_fresh {s₀ s : State} {j : Job} {at_ : Site} {unit n : Nat} (hs : Fresh s₀ s) : Fresh s₀ (countNans j at_ unit n s) := by
  unfold countNans
  with_reducible repeat' first | assumption | refine Fresh.ite ?_ ?_ | refine Fresh.updQueue ?_ | refine logJob_fresh ?_

theorem writeConv_fresh {s₀ s : State} {j : Job} {at_ : Site} {unit : Nat} {t : Desc} {o : ConvOut}
    (hs : Fresh s₀ s) : Fresh s₀ (writeConv j at_ unit t o s) := by
  unfold writeConv
  with_reducible repeat' first
    | assumption | refine logJob_fresh ?_ | refine writeElems_fresh ?_ | refine writeScales_fresh ?_ | refine countNans_fresh ?_
    | refine Fresh.fold (fun _ _ _ => ?_) _ ?_

theorem saturate_fresh {s₀ s : State} {j : Job} {at_ : Site} {unit : Nat} {ds : List Dest} {takes : List (Nat × Nat)} {i : Nat}
    (hs : Fresh s₀ s) : Fresh s₀ (saturate j at_ unit ds takes i s) := by
  unfold saturate
  with_reducible repeat' first
    | assumption | refine logJob_fresh ?_ | refine poisonAll_fresh ?_ | refine resetRing_fresh ?_ | refine quenchJob_fresh ?_
    | refine nameDests_fresh ?_ | refine Fresh.fold (fun _ _ _ => ?_) _ ?_

theorem readClearPalette_fresh {s₀ s : State} {d : DieIx} {e sc : Nat} (hs : Fresh s₀ s) : Fresh s₀ (readClearPalette d e sc s) := by
  unfold readClearPalette
  with_reducible repeat' first | assumption | refine Fresh.updDie ?_ (fun _ => rfl) | refine putScalar_fresh ?_

theorem issueRead_fresh {s₀ s : State} {d : DieIx} {sc : Nat} {f : State → State} {j : Job} (hf : ∀ t, Fresh s₀ t → Fresh s₀ (f t))
    (hs : Fresh s₀ s) : FreshI s₀ (issueRead d sc f j s) :=
  FreshI.ite trivial (hf _ hs)

theorem runTmul_fresh {s₀ s : State} {at_ : Site} {g : TmulArgs} {j : Job} {slots : List Nat} {us : List (Nat × Bool)} {es : List SbEntry}
    (hs : Fresh s₀ s) : Fresh s₀ (runTmul at_ g j slots us es s) := by
  unfold runTmul
  with_reducible repeat' first
    | assumption | (intro x; subst x) | lift_lets -underBinder | refine startOp_fresh ?_ | refine claimTakes_fresh ?_ | refine writeElems_fresh ?_
    | refine recordPalette_fresh ?_ | refine writeConv_fresh ?_ | refine saturate_fresh ?_ | split

theorem issueTmul_fresh {s₀ s : State} {at_ : Site} {g : TmulArgs} {j : Job} (hs : Fresh s₀ s) : FreshI s₀ (issueTmul at_ g j s) := by
  unfold issueTmul
  with_reducible repeat' first
    | assumption | (intro x; subst x) | lift_lets -underBinder | exact FreshI.wait | refine FreshI.done ?_
    | refine withScoreboard_fresh (fun _ _ _ => ?_) ?_ | refine onVerdict_fresh (fun _ _ => ?_) ?_ | refine runTmul_fresh ?_ | refine Fresh.ident ?_
    | split

theorem vWrite_fresh {s₀ s : State} {d : DieIx} {g : Fin 2} {f : VFmt} {xs : List (Nat × Nat)} {op : VOp} (hs : Fresh s₀ s) :
    Fresh s₀ (vWrite d g f xs op s) := by
  unfold vWrite
  refine Fresh.ite hs ?_
  split
  · exact hs.updDie fun _ => rfl
  · exact hs.updDie fun _ => rfl
  · split
    · exact putScalar_fresh hs
    · exact hs
  · split
    · exact writeElems_fresh hs
    · exact hs

theorem issueVec_fresh {s₀ s : State} {at_ : Site} {v : VecOp} {run : Job → List Nat → State → State × Nat × Option Nat} {j : Job}
    (hr : ∀ j l t, Fresh s₀ t → FreshL s₀ (run j l t)) (hs : Fresh s₀ s) : FreshI s₀ (issueVec at_ v run j s) := by
  unfold issueVec
  lift_lets -underBinder
  intro d ops ds us scs pre rs
  refine FreshI.ite (FreshI.done (onVerdict_fresh (fun _ h => h) hs)) (FreshI.ite trivial ?_)
  split
  · trivial
  · refine withScoreboard_fresh (fun es t ht => ?_) hs
    lift_lets -underBinder
    intro c cost
    refine FreshI.ite (FreshI.done (onVerdict_fresh (fun _ h => h) ht)) ?_
    have h := hr j (vRows t d ops (by assumption)) _ (claimTakes_fresh (d := d) (us := us) ht)
    split
    rename_i e
    rw [e] at h
    split
    · exact saturate_fresh h
    · exact startOp_fresh h

theorem runPlain_fresh {s₀ s : State} {at_ : Site} {v : VecOp} {f : List (List Nat) → List Nat} {x_ : Job} {rows : List Nat}
    (hs : Fresh s₀ s) : FreshL s₀ (runPlain at_ v f x_ rows s) := by
  unfold runPlain
  with_reducible repeat' first | assumption | refine vWrite_fresh ?_

theorem vec2_fresh {s₀ s : State} {at_ : Site} {i : Instr} {eng : Fin 2} {n : Nat} {a b dst : VOp} {f : Nat → Nat → Nat}
    (hs : Fresh s₀ s) : Fresh s₀ (vec2 at_ i eng n a b dst f s) := by
  unfold vec2
  with_reducible repeat' first
    | assumption | refine runInstr_fresh (fun _ _ _ => ?_) ?_ | refine issueVec_fresh (fun _ _ _ _ => ?_) ?_ | refine runPlain_fresh ?_

theorem vec1_fresh {s₀ s : State} {at_ : Site} {i : Instr} {eng : Fin 2} {n k : Nat} {a dst : VOp} {f : Nat → Nat}
    (hs : Fresh s₀ s) : Fresh s₀ (vec1 at_ i eng n k a dst f s) := by
  unfold vec1
  with_reducible repeat' first
    | assumption | refine runInstr_fresh (fun _ _ _ => ?_) ?_ | refine issueVec_fresh (fun _ _ _ _ => ?_) ?_ | refine runPlain_fresh ?_

theorem vec3_fresh {s₀ s : State} {at_ : Site} {i : Instr} {eng : Fin 2} {n : Nat} {a b c dst : VOp} {f : Nat → Nat → Nat → Nat}
    (hs : Fresh s₀ s) : Fresh s₀ (vec3 at_ i eng n a b c dst f s) := by
  unfold vec3
  with_reducible repeat' first
    | assumption | refine runInstr_fresh (fun _ _ _ => ?_) ?_ | refine issueVec_fresh (fun _ _ _ _ => ?_) ?_ | refine runPlain_fresh ?_

theorem runCvt_fresh {s₀ s : State} {at_ : Site} {v : VecOp} {xt : Nat} {palette : Option Nat} {j : Job} {rows : List Nat} (hs : Fresh s₀ s) :
    FreshL s₀ (runCvt at_ v xt palette j rows s) := by
  have hr : ∀ (d : DieIx) (vals : List FV) (sat : Bool) {t : State}, Fresh s₀ t →
      Fresh s₀ (match palette with | some e => if v.n = 0 then t else recordPalette d e vals sat t | none => t) := by
    intro d vals sat t h
    split
    · exact Fresh.ite h (recordPalette_fresh h)
    · exact h
  unfold runCvt
  dsimp only
  cases v.dst with
  | desc i =>
    dsimp only
    cases descOf s at_.die i with
    | some t => exact hr _ _ _ (writeConv_fresh hs)
    | none => exact hs
  | _ => exact hr _ _ _ (vWrite_fresh hs)

theorem vecRed_fresh {s₀ s : State} {at_ : Site} {i : Instr} {eng : Fin 2} {n : Nat} {form : RedForm} {a dst : VOp} {dfmt : VFmt} {f : RedForm → List Nat → Nat}
    (hs : Fresh s₀ s) : Fresh s₀ (vecRed at_ i eng n form a dst dfmt f s) := by
  unfold vecRed
  with_reducible repeat' first
    | assumption | refine runInstr_fresh (fun _ _ _ => ?_) ?_ | refine issueVec_fresh (fun _ _ _ _ => ?_) ?_ | refine runPlain_fresh ?_

theorem vecMove_fresh {s₀ s : State} {at_ : Site} {i : Instr} {eng : Fin 2} {n : Nat} {transpose : Bool} {a dst : VOp}
    (hs : Fresh s₀ s) : Fresh s₀ (vecMove at_ i eng n transpose a dst s) := by
  unfold vecMove
  with_reducible repeat' first
    | assumption | refine runInstr_fresh (fun _ _ _ => ?_) ?_ | refine vWrite_fresh ?_ | refine issueVec_fresh (fun _ _ _ _ => ?_) ?_

theorem issueNorm_fresh {s₀ s : State} {at_ : Site} {g : NormArgs} {j : Job} (hs : Fresh s₀ s) : FreshI s₀ (issueNorm at_ g j s) := by
  unfold issueNorm
  with_reducible repeat' first
    | assumption | exact FreshI.wait | refine FreshI.done ?_ | refine FreshI.ite ?_ ?_ | refine putScalar_fresh ?_
    | refine withScoreboard_fresh (fun _ _ _ => ?_) ?_ | refine startOp_fresh ?_ | refine onVerdict_fresh (fun _ _ => ?_) ?_ | refine Fresh.ident ?_

theorem putState_fresh {s₀ s : State} {d : DieIx} {h : Nat} {is16 : Bool} {rho i x : Nat}
    (hs : Fresh s₀ s) : Fresh s₀ (putState d h is16 rho i x s) := by
  unfold putState
  with_reducible repeat' first | assumption | refine Fresh.ite ?_ ?_ | refine putHandle_fresh ?_

theorem stepElem_fresh {s₀ s : State} {d : DieIx} {g : UpdArgs} {u : UpdDesc} {k : UpdConsts} {bits : List Byte} {e gi : Nat}
    (hs : Fresh s₀ s) : Fresh s₀ (stepElem d g u k bits e gi s) := by
  unfold stepElem
  with_reducible repeat' first | assumption | refine Fresh.ite ?_ ?_ | refine putHandle_fresh ?_ | refine putState_fresh ?_

theorem stepRun_fresh {s₀ s : State} {d : DieIx} {g : UpdArgs} {u : UpdDesc} {k : UpdConsts} {seed : List Byte} {e gi n : Nat}
    (hs : Fresh s₀ s) : Fresh s₀ (stepRun d g u k seed e gi n s) := by
  unfold stepRun
  with_reducible repeat' first | assumption | refine stepElem_fresh ?_ | refine Fresh.fold (fun _ _ _ => ?_) _ ?_

theorem stepRow_fresh {s₀ s : State} {d : DieIx} {g : UpdArgs} {u : UpdDesc} {seed : List Byte} {eta lambda c : Nat} {x : Nat × Nat}
    (hs : Fresh s₀ s) : Fresh s₀ (stepRow d g u seed eta lambda c x s) := by
  unfold stepRow
  with_reducible repeat' first | assumption | refine putHandle_fresh ?_ | refine stepRun_fresh ?_

theorem applyStep_fresh {s₀ s : State} {d : DieIx} {g : UpdArgs} {u : UpdDesc} {b seed : List Byte} {eta lambda : Nat}
    (hs : Fresh s₀ s) : Fresh s₀ (applyStep d g u b seed eta lambda s) := by
  unfold applyStep
  with_reducible repeat' first
    | assumption | refine Fresh.ite ?_ ?_ | refine putHandle_fresh ?_ | refine stepRun_fresh ?_ | refine stepRow_fresh ?_
    | refine Fresh.fold (fun _ _ _ => ?_) _ ?_

theorem issueUpd_fresh {s₀ s : State} {at_ : Site} {g : UpdArgs} {j : Job} (hs : Fresh s₀ s) : FreshI s₀ (issueUpd at_ g j s) := by
  unfold issueUpd
  with_reducible repeat' first
    | assumption | exact FreshI.wait | refine FreshI.done ?_ | refine FreshI.ite ?_ ?_ | refine Fresh.ite ?_ ?_ | refine logJob_fresh ?_
    | refine countIndexes_fresh ?_ | refine withScoreboard_fresh (fun _ _ _ => ?_) ?_ | refine startOp_fresh ?_
    | refine onVerdict_fresh (fun _ _ => ?_) ?_ | refine applyStep_fresh ?_ | refine Fresh.ident ?_

theorem refuseBind_fresh {s₀ s : State} {p : PartIx} {d : DieIx} {q : QueueIx} {b : List Byte} {r : Nat}
    (hs : Fresh s₀ s) : Fresh s₀ (refuseBind p d q b r s) := by
  unfold refuseBind
  with_reducible repeat' first | assumption | refine logEvent_fresh ?_ | refine putCpl_fresh ?_

theorem failImport_fresh {s₀ s : State} {p : PartIx} {im : Import} {r : Nat} (hs : Fresh s₀ s) : Fresh s₀ (failImport p im r s) := by
  unfold failImport
  with_reducible repeat' first
    | assumption | (intro x; refine (fun (_ : Fresh s₀ x) => ?_) ?_; (on_goal 1 => clear_value x); (on_goal 2 => subst x)) | lift_lets -underBinder
    | refine updKs_fresh ?_ | refine finishEvictions_fresh ?_ | refine releaseQueue_fresh ?_ | refine dropImport_fresh ?_
    | refine refuseBind_fresh ?_ | split

theorem commitImport_fresh {s₀ s : State} {p : PartIx} {im : Import} {twinHas : Bool} (hs : Fresh s₀ s) : Fresh s₀ (commitImport p im twinHas s) := by
  unfold commitImport
  with_reducible repeat' first
    | assumption | (intro x; refine (fun (_ : Fresh s₀ x) => ?_) ?_; (on_goal 1 => clear_value x); (on_goal 2 => subst x)) | lift_lets -underBinder
    | refine Fresh.updPart ?_ | refine updKs_fresh ?_ | refine okPacket_fresh ?_ | refine releaseQueue_fresh ?_ | refine failImport_fresh ?_ | split

theorem commitAlone_fresh {s₀ s : State} (hs : Fresh s₀ s) : Fresh s₀ (commitAlone s) := by
  unfold commitAlone
  with_reducible repeat' first
    | assumption | refine Fresh.ite ?_ ?_ | refine sendTwin_fresh ?_ | refine commitImport_fresh ?_ | refine Fresh.fold (fun _ _ _ => ?_) _ ?_

theorem unsealTwin_fresh {s₀ s : State} {n : PortIx} (hs : Fresh s₀ s) : Fresh s₀ (unsealTwin n s) := by
  unfold unsealTwin
  with_reducible repeat' first | assumption | refine Fresh.ite ?_ ?_ | refine commitAlone_fresh ?_

theorem drainPort_fresh {s₀ s : State} {n : PortIx} (hs : Fresh s₀ s) : Fresh s₀ (drainPort n s) := by
  unfold drainPort
  with_reducible repeat' first
    | assumption | refine Fresh.ite ?_ ?_ | refine Fresh.updPort ?_ | refine emit_fresh ?_ | refine Fresh.fold (fun _ _ _ => ?_) _ ?_

theorem portSend_fresh {s₀ s : State} {n : PortIx} {p : Packet} (hs : Fresh s₀ s) : Fresh s₀ (portSend n p s) := by
  unfold portSend
  with_reducible repeat' first | assumption | refine Fresh.updPort ?_ | refine drainPort_fresh ?_

theorem routePacket_fresh {s₀ s : State} {at_ : PortIx} {p : Packet} (hs : Fresh s₀ s) : Fresh s₀ (routePacket at_ p s) := by
  unfold routePacket
  with_reducible repeat' first | assumption | refine discard_fresh ?_ | refine portSend_fresh ?_ | split | refine Fresh.upd ?_ rfl (Nat.le_refl _)

theorem originate_fresh {s₀ s : State} {d : DieIx} {p : Packet} (hs : Fresh s₀ s) : Fresh s₀ (originate d p s) := by
  unfold originate
  with_reducible repeat' first | assumption | refine Fresh.ite ?_ ?_ | refine discard_fresh ?_ | refine routePacket_fresh ?_

theorem answer_fresh {s₀ s : State} {q : Packet} {ptype wgen : Nat} {data : List Byte} (hs : Fresh s₀ s) : Fresh s₀ (answer q ptype wgen data s) := by
  unfold answer
  with_reducible repeat' first | assumption | refine originate_fresh ?_

theorem nak_fresh {s₀ s : State} {q : Packet} {e : Ev} (hs : Fresh s₀ s) : Fresh s₀ (nak q e s) := by
  unfold nak
  with_reducible repeat' first | assumption | refine answer_fresh ?_

theorem holdNext_fresh {s₀ s : State} {n : PortIx} {x : HeldIn} (hs : Fresh s₀ s) : FreshO s₀ (holdNext n x s) := by
  unfold holdNext
  with_reducible repeat' first | assumption | exact FreshO.none | refine FreshO.some ?_ | refine FreshO.ite ?_ ?_ | refine Fresh.updPort ?_

theorem countRefusal_fresh {s₀ s : State} {n : PortIx} (hs : Fresh s₀ s) : Fresh s₀ (countRefusal n s) := by
  unfold countRefusal
  with_reducible repeat' first | assumption | refine Fresh.updPort ?_

theorem acceptLocal_fresh {s₀ s : State} {n : PortIx} {p : Packet} (hs : Fresh s₀ s) : Fresh s₀ (acceptLocal n p s) := by
  unfold acceptLocal
  with_reducible repeat' first
    | assumption | refine discard_fresh ?_ | refine nak_fresh ?_ | refine holdNext_fresh ?_ | refine countRefusal_fresh ?_ | split
    | refine FreshO.of (by assumption) ?_ | refine Fresh.upd ?_ rfl (Nat.le_refl _)

theorem packetIn_fresh {s₀ s : State} {n : PortIx} {p : Packet} (hs : Fresh s₀ s) : Fresh s₀ (packetIn n p s) := by
  unfold packetIn
  with_reducible repeat' first | assumption | refine discard_fresh ?_ | refine portSend_fresh ?_ | refine acceptLocal_fresh ?_ | split

theorem logPort_fresh {s₀ s : State} {n : PortIx} {st : Nat} (hs : Fresh s₀ s) : Fresh s₀ (logPort n st s) := by
  unfold logPort
  with_reducible repeat' first | assumption | refine logAt_fresh ?_

theorem countRetry_fresh {s₀ s : State} {n : PortIx} (hs : Fresh s₀ s) : Fresh s₀ (countRetry n s) := by
  unfold countRetry
  with_reducible repeat' first | assumption | refine Fresh.ite ?_ ?_ | refine Fresh.updPort ?_ | refine logPort_fresh ?_

theorem takeDown_fresh {s₀ s : State} {n : PortIx} {failed : Bool} (hs : Fresh s₀ s) : Fresh s₀ (takeDown n failed s) := by
  unfold takeDown
  with_reducible repeat' first | assumption | refine Fresh.updPort ?_ | refine unsealTwin_fresh ?_ | refine logPort_fresh ?_

theorem startKeying_fresh {s₀ s : State} {n : PortIx} (hs : Fresh s₀ s) : Fresh s₀ (startKeying n s) := by
  unfold startKeying
  with_reducible repeat' first
    | assumption | refine Fresh.updPort ?_ | refine freeBytes_fresh ?_ | refine freeBelow_fresh ?_ | refine emit_fresh ?_
    | refine Fresh.fold (fun _ _ _ => ?_) _ ?_

theorem flitError_fresh {s₀ s : State} {n : PortIx} (hs : Fresh s₀ s) : Fresh s₀ (flitError n s) := by
  unfold flitError
  with_reducible repeat' first | assumption | refine Fresh.ite ?_ ?_ | refine Fresh.updPort ?_ | refine emit_fresh ?_ | refine countRetry_fresh ?_

theorem assemble_fresh {s₀ s : State} {n : PortIx} {vc ftype : Nat} {body : List Byte} (hs : Fresh s₀ s) : Fresh s₀ (assemble n vc ftype body s) := by
  unfold assemble
  with_reducible repeat' first | assumption | refine Fresh.ite ?_ ?_ | refine Fresh.updPort ?_ | refine packetIn_fresh ?_

theorem finishKeying_fresh {s₀ s : State} {n : PortIx} (hs : Fresh s₀ s) : Fresh s₀ (finishKeying n s) := by
  unfold finishKeying
  with_reducible repeat' first | assumption | refine Fresh.ite ?_ ?_ | refine Fresh.updPort ?_ | refine drainPort_fresh ?_

theorem updWindow_fresh {s₀ s : State} {w : Nat} {f : Window → Window} (hs : Fresh s₀ s) : Fresh s₀ (updWindow w f s) := by
  unfold updWindow
  with_reducible repeat' first | assumption | refine Fresh.upd ?_ rfl (Nat.le_refl _)

theorem failOp_fresh {s₀ s : State} {d : DieIx} {o : Op} {unit : Nat} {e : Ev} (hs : Fresh s₀ s) : Fresh s₀ (failOp d o unit e s) := by
  unfold failOp
  with_reducible repeat' first | assumption | refine logJob_fresh ?_ | refine quenchJob_fresh ?_ | split

theorem collControl_fresh {s₀ s : State} {d : DieIx} {key : Nat} {c : Coll} {data : List Byte}
    (hs : Fresh s₀ s) : Fresh s₀ (collControl d key c data s) := by
  unfold collControl
  with_reducible repeat' first | assumption | refine originate_fresh ?_ | refine Fresh.fold (fun _ _ _ => ?_) _ ?_

theorem failColl_fresh {s₀ s : State} {d : DieIx} {o : Op} {e : Ev} (hs : Fresh s₀ s) : Fresh s₀ (failColl d o e s) := by
  unfold failColl
  with_reducible repeat' first | assumption | refine failOp_fresh ?_ | refine collControl_fresh ?_ | split

theorem failColls_fresh {s₀ s : State} {f : Coll → Bool} {e : Ev} (hs : Fresh s₀ s) : Fresh s₀ (failColls f e s) := by
  unfold failColls
  with_reducible repeat' first | assumption | refine failColl_fresh ?_ | refine Fresh.fold (fun _ _ _ => ?_) _ ?_

theorem beginClose_fresh {s₀ s : State} {w : Nat} {op : Option (DieIx × Nat)} (hs : Fresh s₀ s) : Fresh s₀ (beginClose w op s) := by
  unfold beginClose
  with_reducible repeat' first | assumption | refine updWindow_fresh ?_ | refine failColls_fresh ?_

theorem closeAll_fresh {s₀ s : State} {ws : List Nat} (hs : Fresh s₀ s) : Fresh s₀ (closeAll ws s) := by
  unfold closeAll
  with_reducible repeat' first | assumption | refine Fresh.ite ?_ ?_ | refine beginClose_fresh ?_ | refine Fresh.fold (fun _ _ _ => ?_) _ ?_

theorem takeArrived_fresh {s₀ s : State} {f : PortIx × Packet → Bool} (hs : Fresh s₀ s) : FreshT s₀ (takeArrived f s) := by
  unfold takeArrived
  split
  · trivial
  · exact Fresh.upd (a := s₀) hs rfl (Nat.le_refl _)

theorem landWrite_fresh {s₀ s : State} {p : Packet} (hs : Fresh s₀ s) : Fresh s₀ (landWrite p s) := by
  unfold landWrite
  with_reducible repeat' first
    | assumption | refine Fresh.ite ?_ ?_ | refine putHandle_fresh ?_ | refine putStore_fresh ?_ | refine wakeDie_fresh ?_
    | refine updWindow_fresh ?_

theorem switchEpoch_fresh {s₀ s : State} (hs : Fresh s₀ s) : Fresh s₀ (switchEpoch s) := by
  unfold switchEpoch
  with_reducible repeat' first | assumption | refine Fresh.upd ?_ rfl (Nat.le_refl _)

theorem loseRing_fresh {s₀ s : State} {d : DieIx} {o : Op} (hs : Fresh s₀ s) : Fresh s₀ (loseRing d o s) := by
  unfold loseRing
  with_reducible repeat' first
    | assumption | refine dropOp_fresh ?_ | refine skipInstr_fresh ?_ | refine releaseSlot_fresh ?_ | refine Fresh.fold (fun _ _ _ => ?_) _ ?_
    | split

theorem dropRing_fresh {s₀ s : State} {d : DieIx} {r : Nat} (hs : Fresh s₀ s) : Fresh s₀ (dropRing d r s) := by
  unfold dropRing
  with_reducible repeat' first
    | assumption | refine Fresh.ite ?_ ?_ | refine Fresh.updDieWithin ?_ (fun _ => ids_of_map fun _ => rfl) | refine updHandle_fresh ?_
    | refine loseRing_fresh ?_ | refine Fresh.fold (fun _ _ _ => ?_) _ ?_ | refine Fresh.upd ?_ rfl (Nat.le_refl _)

theorem freeHandle_fresh {s₀ s : State} {d : DieIx} {index : Nat} (hs : Fresh s₀ s) : Fresh s₀ (freeHandle d index s) := by
  unfold freeHandle
  with_reducible repeat' first
    | assumption | refine Fresh.ite ?_ ?_ | refine Fresh.updDie ?_ (fun _ => rfl) | refine zeroHandle_fresh ?_ | refine dropRing_fresh ?_
    | refine Fresh.fold (fun _ _ _ => ?_) _ ?_

theorem dropAperture_fresh {s₀ s : State} {p : PartIx} {d : DieIx} {index : Nat} (hs : Fresh s₀ s) : Fresh s₀ (dropAperture p d index s) := by
  unfold dropAperture
  with_reducible repeat' first | assumption | refine Fresh.ite ?_ ?_ | refine Fresh.updHost ?_

/-- A request for an operation that was there before, given with the next identifier as its tag. -/
theorem Fresh.addRequest {s₀ s : State} {r : Request} (hs : Fresh s₀ s) (hop : idsFresh s₀ → r.op < s₀.nextId) :
    Fresh s₀ { s with nextId := s.nextId + 1, fabric := { s.fabric with requests := s.fabric.requests ++ [r] } } := by
  refine ⟨hs.rises.trans (Nat.le_add_right _ _), fun m => ?_⟩
  obtain ⟨ops, reqs⟩ := hs.ids m
  refine ⟨fun d o ho => (ops d o ho).trans (Nat.lt_succ_self _), fun q hq => ?_⟩
  rcases List.mem_append.1 hq with h | h
  · exact (reqs q h).trans (Nat.lt_succ_self _)
  · obtain rfl := List.mem_singleton.1 h
    exact (hop m).trans_le (hs.rises.trans (Nat.le_add_right _ _))

theorem sendReq_fresh {s₀ s : State} {d : DieIx} {j : Job} {op : Nat} {kind : ReqKind} {piece : Nat} {w : Piece} {off len : Nat} {data : List Byte}
    (hop : idsFresh s₀ → op < s₀.nextId) (hs : Fresh s₀ s) : Fresh s₀ (sendReq d j op kind piece w off len data s) :=
  originate_fresh (hs.addRequest hop)

theorem sendWrites_fresh {s₀ s : State} {d : DieIx} {j : Job} {op piece : Nat} {w : Piece} {ws : List (Nat × List Byte)}
    (hop : idsFresh s₀ → op < s₀.nextId) (hs : Fresh s₀ s) : Fresh s₀ (sendWrites d j op piece w ws s) := by
  unfold sendWrites
  with_reducible repeat' first | assumption | refine sendReq_fresh hop ?_ | refine Fresh.fold (fun _ _ _ => ?_) _ ?_

theorem sendReads_fresh {s₀ s : State} {d : DieIx} {j : Job} {op bits : Nat} {pieces : List Piece} {ps : List Plan}
    (hop : idsFresh s₀ → op < s₀.nextId) (hs : Fresh s₀ s) : Fresh s₀ (sendReads d j op bits pieces ps s) := by
  unfold sendReads
  with_reducible repeat' first | assumption | refine sendReq_fresh hop ?_ | refine Fresh.fold (fun _ _ _ => ?_) _ ?_ | split

theorem updOp_fresh {s₀ s : State} {d : DieIx} {id : Nat} {f : Op → Op}
    (hf : ∀ o, (f o).id = o.id) (hs : Fresh s₀ s) : Fresh s₀ (updOp d id f s) := by
  unfold updOp
  exact hs.updDieWithin fun _ => ids_of_map fun o => by split <;> [exact hf o; rfl]

theorem addElems_fresh {s₀ s : State} {t : Desc} {xs : List (Int × Nat)} (hs : Fresh s₀ s) : Fresh s₀ (addElems t xs s) := by
  unfold addElems
  exact updSpace_fresh hs

theorem applyPlan_fresh {s₀ s : State} {p : PartIx} {t : Desc} {slot : Nat} {x : Xfer} {pl : Plan}
    (hs : Fresh s₀ s) : FreshO s₀ (applyPlan p t slot x pl s) := by
  unfold applyPlan
  with_reducible repeat' first
    | assumption | (intro x; subst x) | lift_lets -underBinder | exact FreshO.none | refine FreshO.some ?_ | refine poisonAll_fresh ?_
    | refine writeElems_fresh ?_ | refine writeScales_fresh ?_ | refine addElems_fresh ?_ | split

theorem ingestFail_fresh {s₀ s : State} {d : DieIx} {o : Op} (hs : Fresh s₀ s) : Fresh s₀ (ingestFail d o s) := by
  unfold ingestFail
  with_reducible repeat' first | assumption | refine poisonAll_fresh ?_ | refine dropOp_fresh ?_ | refine dropClaims_fresh ?_ | refine failOp_fresh ?_

theorem fillHall_fresh {s₀ s : State} {d : DieIx} {o : Op} {x : Xfer} (hs : Fresh s₀ s) : Fresh s₀ (fillHall d o x s) := by
  unfold fillHall
  with_reducible repeat' first | assumption | refine Fresh.updJob ?_ | refine updOp_fresh (fun _ => rfl) ?_ | split

theorem requestPages_fresh {s₀ s : State} {h : HostId} {fn : Nat} {pages : List Nat} (hs : Fresh s₀ s) : Fresh s₀ (requestPages h fn pages s) := by
  unfold requestPages
  with_reducible repeat' first
    | assumption | refine Fresh.ite ?_ ?_ | refine Fresh.updHost ?_ | refine emit_fresh ?_ | refine Fresh.fold (fun _ _ _ => ?_) _ ?_

theorem id_of_opOf {s : State} {d : DieIx} {id : Nat} {o : Op} (e : opOf s d id = some o) : o.id = id := by
  simpa using List.find?_some e

/-- An operation that is in flight was given its identifier before. -/
theorem below_of_opOf {s : State} {d : DieIx} {id : Nat} {o : Op} (e : opOf s d id = some o) (h : idsFresh s) : id < s.nextId := by
  rw [← id_of_opOf e]
  exact h.1 d o (List.mem_of_find?_eq_some e)

theorem emitHost_fresh {s₀ s : State} {d : DieIx} {o : Op} {x : Xfer} {i k : Nat} (hop : idsFresh s₀ → o.id < s₀.nextId) (hs : Fresh s₀ s) :
    Fresh s₀ (emitHost d o x i k s) := by
  unfold emitHost
  split
  · refine Fresh.fold (fun s _ hs => ?_) _ hs
    split
    · exact emit_fresh (requestPages_fresh hs)
    · exact sendMsg_fresh (hs.addRequest hop)
  · exact hs

theorem putBlocks_fresh {s₀ s : State} {d : DieIx} {j : Job} {id : Nat} {q : XferReq} {places blocks : List (Nat × Nat)}
    (hop : idsFresh s₀ → id < s₀.nextId) (hs : Fresh s₀ s) : Fresh s₀ (putBlocks d j id q places blocks s) := by
  unfold putBlocks
  with_reducible repeat' first
    | assumption | refine sendWrites_fresh hop ?_ | refine Fresh.fold (fun _ _ _ => ?_) _ ?_ | split | refine Fresh.upd ?_ rfl (Nat.le_refl _)

theorem planXfer_fresh {s₀ s : State} {d : DieIx} {id : Nat} (hs : Fresh s₀ s) : Fresh s₀ (planXfer d id s) := by
  refine hs.trans ?_
  unfold planXfer
  split
  · exact .refl s
  · rename_i e
    have hop := below_of_opOf e
    have hs := Fresh.refl s
    with_reducible repeat' first
      | assumption | refine countIndexes_fresh ?_ | refine sendReads_fresh hop ?_ | refine updOp_fresh (fun _ => rfl) ?_
      | refine putBlocks_fresh hop ?_ | split | refine Fresh.upd ?_ rfl (Nat.le_refl _)

theorem claimFill_fresh {s₀ s : State} {d : DieIx} {r : Nat} (hs : Fresh s₀ s) : FreshT s₀ (claimFill d r s) := by
  unfold claimFill
  with_reducible repeat' first | assumption | exact FreshT.none | refine FreshT.some ?_ | refine FreshT.ite ?_ ?_ | refine updRing_fresh ?_

theorem nextSlot_fresh {s₀ s : State} {d : DieIx} {o : Op} {x : Xfer} (hs : Fresh s₀ s) : FreshT s₀ (nextSlot d o x s) := by
  unfold nextSlot
  split
  · exact hs
  · have h := claimFill_fresh (d := x.dst.dieIx) (r := x.dst.handle) hs
    revert h
    cases claimFill x.dst.dieIx x.dst.handle s with
    | none => exact fun _ => trivial
    | some c => exact fun h => updOp_fresh (fun _ => rfl) h

theorem deliver_fresh {s₀ s : State} {d : DieIx} {id : Nat} (hs : Fresh s₀ s) : Fresh s₀ (deliver d id s) := by
  refine hs.trans ?_
  unfold deliver
  split
  · exact .refl s
  · rename_i e
    have hop := below_of_opOf e
    have hs := Fresh.refl s
    with_reducible repeat' first
      | assumption | refine Fresh.updJob ?_ | refine dropOp_fresh ?_ | refine failOp_fresh ?_ | refine sendWrites_fresh hop ?_
      | refine updOp_fresh (fun _ => rfl) ?_ | refine applyPlan_fresh ?_ | refine ingestFail_fresh ?_ | refine fillHall_fresh ?_
      | refine nextSlot_fresh ?_ | split | refine FreshO.of (by assumption) ?_ | refine FreshT.of (by assumption) ?_
      | refine Fresh.upd ?_ rfl (Nat.le_refl _)

theorem pump_fresh {s₀ s : State} {d : DieIx} {id : Nat} (hs : Fresh s₀ s) : Fresh s₀ (pump d id s) := by
  unfold pump
  with_reducible repeat' first | assumption | refine planXfer_fresh ?_ | refine deliver_fresh ?_

theorem beginXfer_fresh {s₀ s : State} {d : DieIx} {id : Nat} (hs : Fresh s₀ s) : Fresh s₀ (beginXfer d id s) := by
  refine hs.trans ?_
  unfold beginXfer
  split
  · exact .refl s
  · rename_i e
    have hop := below_of_opOf e
    have hs := Fresh.refl s
    with_reducible repeat' first
      | assumption | refine wakeDie_fresh ?_ | refine sendReads_fresh hop ?_ | refine updOp_fresh (fun _ => rfl) ?_ | refine requestPages_fresh ?_
      | refine pump_fresh ?_ | refine Fresh.fold (fun _ _ _ => ?_) _ ?_ | split

theorem takeUp_fresh {s₀ s : State} {d : DieIx} {id : Nat} (hs : Fresh s₀ s) : Fresh s₀ (takeUp d id s) := by
  unfold takeUp
  with_reducible repeat' first | assumption | refine beginXfer_fresh ?_ | split

theorem startTongs_fresh {s₀ s : State} {d : DieIx} (hs : Fresh s₀ s) : Fresh s₀ (startTongs d s) := by
  unfold startTongs
  with_reducible repeat' first | assumption | refine takeUp_fresh ?_ | refine Fresh.fold (fun _ _ _ => ?_) _ ?_

theorem noteWeight_fresh {s₀ s : State} {d : DieIx} {j : Job} {t : Desc} (hs : Fresh s₀ s) : Fresh s₀ (noteWeight d j t s) := by
  unfold noteWeight
  with_reducible repeat' first | assumption | refine Fresh.ite ?_ ?_ | refine Fresh.updJob ?_ | refine updStore_fresh ?_

theorem noteInput_fresh {s₀ s : State} {d : DieIx} {j : Job} {t : Desc} {n : Nat} {host : List Byte} (hs : Fresh s₀ s) :
    FreshP s₀ (noteInput d j t n host s) := by
  unfold noteInput
  split
  · exact hs
  · exact Fresh.updJob hs

theorem noteRefused_fresh {s₀ s : State} {j : Job} {r : Option Ev} (hs : Fresh s₀ s) : Fresh s₀ (noteRefused j r s) := by
  unfold noteRefused
  with_reducible repeat' first | assumption | refine Fresh.updJob ?_

theorem claimDest_fresh {s₀ s : State} {t : Desc} (hs : Fresh s₀ s) : FreshP s₀ (claimDest t s) := by
  have h := claimFill_fresh (d := t.dieIx) (r := t.handle) hs
  unfold claimDest
  refine FreshP.ite ?_ hs
  split
  · rename_i e
    rw [e] at h
    exact h
  · exact hs

theorem startXfer_fresh {s₀ s : State} {at_ : Site} {q : XferReq} {j : Job} {us : List (Nat × Bool)} {slots : List Nat} {more : List Dest}
    {es : List SbEntry} (hs : Fresh s₀ s) : Fresh s₀ (startXfer at_ q j us slots more es s) := by
  have h : ∀ {t : State}, Fresh s₀ t → Fresh s₀ (match q.idx with | some x => noteWeight at_.die j x t | none => t) := by
    intro t h
    split
    · exact noteWeight_fresh h
    · exact h
  exact takeUp_fresh (startOp_fresh (claimDest_fresh (claimTakes_fresh (noteInput_fresh (h (noteWeight_fresh hs))))))

theorem refuseOutput_fresh {s₀ s : State} {j : Job} {at_ : Site} {ds : List Dest} {r : Option Ev}
    (hs : Fresh s₀ s) : Fresh s₀ (refuseOutput j at_ ds r s) := by
  unfold refuseOutput
  with_reducible repeat' first | assumption | refine nameDests_fresh ?_ | refine refuseInstr_fresh ?_ | refine noteRefused_fresh ?_ | split

theorem goXfer_fresh {s₀ s : State} {at_ : Site} {q : XferReq} {j : Job} (hs : Fresh s₀ s) : FreshI s₀ (goXfer at_ q j s) := by
  unfold goXfer
  with_reducible repeat' first
    | assumption | (intro x; subst x) | lift_lets -underBinder | exact FreshI.wait | refine FreshI.done ?_
    | refine withScoreboard_fresh (fun _ _ _ => ?_) ?_ | refine startXfer_fresh ?_ | refine refuseOutput_fresh ?_ | split

theorem issueMove_fresh {s₀ s : State} {at_ : Site} {g : MoveArgs} {j : Job} (hs : Fresh s₀ s) : FreshI s₀ (issueMove at_ g j s) := by
  unfold issueMove
  with_reducible repeat' first
    | assumption | (intro x; subst x) | lift_lets -underBinder | refine FreshI.done ?_ | refine skipInstr_fresh ?_
    | refine onVerdict_fresh (fun _ _ => ?_) ?_ | refine goXfer_fresh ?_ | refine Fresh.ident ?_ | split

theorem issueGather_fresh {s₀ s : State} {at_ : Site} {g : IndexedArgs} {j : Job} (hs : Fresh s₀ s) : FreshI s₀ (issueGather at_ g j s) := by
  unfold issueGather
  with_reducible repeat' first
    | assumption | (intro x; subst x) | lift_lets -underBinder | refine FreshI.done ?_ | refine skipInstr_fresh ?_
    | refine onVerdict_fresh (fun _ _ => ?_) ?_ | refine goXfer_fresh ?_ | refine Fresh.ident ?_ | split

theorem issueScatter_fresh {s₀ s : State} {at_ : Site} {g : IndexedArgs} {add : Bool} {j : Job}
    (hs : Fresh s₀ s) : FreshI s₀ (issueScatter at_ g add j s) := by
  unfold issueScatter
  with_reducible repeat' first
    | assumption | (intro x; subst x) | lift_lets -underBinder | refine FreshI.done ?_ | refine skipInstr_fresh ?_
    | refine onVerdict_fresh (fun _ _ => ?_) ?_ | refine goXfer_fresh ?_ | refine Fresh.ident ?_ | split

theorem issueDget_fresh {s₀ s : State} {at_ : Site} {table : Nat} {origin box : List Nat} {dst : Nat} {j : Job}
    (hs : Fresh s₀ s) : FreshI s₀ (issueDget at_ table origin box dst j s) := by
  unfold issueDget
  with_reducible repeat' first
    | assumption | (intro x; subst x) | lift_lets -underBinder | refine FreshI.done ?_ | refine withScoreboard_fresh (fun _ _ _ => ?_) ?_
    | refine onVerdict_fresh (fun _ _ => ?_) ?_ | refine startXfer_fresh ?_ | refine Fresh.ident ?_ | split

theorem issueDput_fresh {s₀ s : State} {at_ : Site} {src table : Nat} {origin box : List Nat} {j : Job}
    (hs : Fresh s₀ s) : FreshI s₀ (issueDput at_ src table origin box j s) := by
  unfold issueDput
  with_reducible repeat' first
    | assumption | (intro x; subst x) | lift_lets -underBinder | refine FreshI.done ?_ | refine withScoreboard_fresh (fun _ _ _ => ?_) ?_
    | refine onVerdict_fresh (fun _ _ => ?_) ?_ | refine startXfer_fresh ?_ | refine refuseOutput_fresh ?_ | refine Fresh.ident ?_ | split

theorem updXfer_fresh {s₀ s : State} {d : DieIx} {id : Nat} {f : Xfer → Xfer} (hs : Fresh s₀ s) : Fresh s₀ (updXfer d id f s) := by
  unfold updXfer
  with_reducible repeat' first | assumption | refine updOp_fresh (fun _ => rfl) ?_

theorem dropGroup_fresh {s₀ s : State} {h : HostId} {g : Nat} (hs : Fresh s₀ s) : Fresh s₀ (dropGroup h g s) := by
  unfold dropGroup
  with_reducible repeat' first | assumption | refine Fresh.updHost ?_ | refine Fresh.upd ?_ rfl (Nat.le_refl _)

theorem lateGroup_fresh {s₀ s : State} {h : HostId} {g : Nat} (hs : Fresh s₀ s) : Fresh s₀ (lateGroup h g s) := by
  unfold lateGroup
  with_reducible repeat' first | assumption | refine Fresh.updHost ?_ | refine countLate_fresh ?_ | split

theorem benchResponse_fresh {s₀ s : State} {h : HostId} {g : Nat} {code : PriCode} (hs : Fresh s₀ s) : Fresh s₀ (benchResponse h g code s) := by
  unfold benchResponse
  with_reducible repeat' first | assumption | refine Fresh.updHost ?_ | refine sendMsg_fresh ?_ | refine lateGroup_fresh ?_ | split

theorem failWaiting_fresh {s₀ s : State} {h : HostId} {fn : Nat} (hs : Fresh s₀ s) : Fresh s₀ (failWaiting h fn s) := by
  unfold failWaiting
  with_reducible repeat' first | assumption | refine Fresh.ite ?_ ?_ | refine failOp_fresh ?_ | refine Fresh.fold (fun _ _ _ => ?_) _ ?_

theorem hostFail_fresh {s₀ s : State} {die : DieIx} {op : Nat} {reads : Bool} (hs : Fresh s₀ s) : Fresh s₀ (hostFail die op reads s) := by
  unfold hostFail
  with_reducible repeat' first | assumption | refine failOp_fresh ?_ | split

theorem dropRequest_fresh {s₀ s : State} {r : Request} (hs : Fresh s₀ s) : Fresh s₀ (dropRequest r s) := by
  unfold dropRequest
  exact hs.dropRequests List.erase_subset (Nat.le_refl _)

theorem sendRemoteFlag_fresh {s₀ s : State} {d : DieIx} {id : Nat} (hs : Fresh s₀ s) : Fresh s₀ (sendRemoteFlag d id s) := by
  refine hs.trans ?_
  unfold sendRemoteFlag
  split
  · exact .refl s
  · rename_i e
    have hop := below_of_opOf e
    have hs := Fresh.refl s
    with_reducible repeat' first | assumption | refine sendReq_fresh hop ?_ | refine updXfer_fresh ?_ | split

theorem runClu_fresh {s₀ s : State} {at_ : Site} {mask : BitVec 8} {o : CluOp} {j : Job} {c : Chain} {xs : List Src} {slots : List Nat} {es : List SbEntry}
    (hs : Fresh s₀ s) : Fresh s₀ (runClu at_ mask o j c xs slots es s) := by
  unfold runClu
  with_reducible repeat' first
    | assumption | refine logJob_fresh ?_ | refine nameDests_fresh ?_ | refine startOp_fresh ?_ | refine claimTakes_fresh ?_
    | refine markRegion_fresh ?_ | refine putObj_fresh ?_ | refine putHead_fresh ?_ | refine drawStreams_fresh ?_
    | refine Fresh.fold (fun _ _ _ => ?_) _ ?_ | split

theorem issueClu_fresh {s₀ s : State} {at_ : Site} {mask : BitVec 8} {o : CluOp} {j : Job}
    (hs : Fresh s₀ s) : FreshI s₀ (issueClu at_ mask o j s) := by
  unfold issueClu
  with_reducible repeat' first
    | assumption | (intro x; subst x) | lift_lets -underBinder | exact FreshI.wait | refine FreshI.done ?_ | refine skipInstr_fresh ?_
    | refine refuseInstr_fresh ?_ | refine withScoreboard_fresh (fun _ _ _ => ?_) ?_ | refine onVerdict_fresh (fun _ _ => ?_) ?_
    | refine runClu_fresh ?_ | refine Fresh.ident ?_ | split

theorem clusterInstr_fresh {s₀ s : State} {at_ : Site} {mask : BitVec 8} {i : Instr} {o : CluOp}
    (hs : Fresh s₀ s) : Fresh s₀ (clusterInstr at_ mask i o s) := by
  unfold clusterInstr
  with_reducible repeat' first | assumption | refine runInstr_fresh (fun _ _ _ => ?_) ?_ | refine issueClu_fresh ?_

theorem issueEncode_fresh {s₀ s : State} {at_ : Site} {mask : BitVec 8} {src : Nat} {dst : Loc} {q : EncodeReq} {j : Job}
    (hs : Fresh s₀ s) : FreshI s₀ (issueEncode at_ mask src dst q j s) := by
  unfold issueEncode
  with_reducible repeat' first
    | assumption | (intro x; subst x) | lift_lets -underBinder | refine FreshI.done ?_ | refine skipInstr_fresh ?_
    | refine withScoreboard_fresh (fun _ _ _ => ?_) ?_ | refine startOp_fresh ?_ | refine onVerdict_fresh (fun _ _ => ?_) ?_
    | refine markRegion_fresh ?_ | refine putObj_fresh ?_ | refine Fresh.ident ?_ | split

theorem issueDecode_fresh {s₀ s : State} {at_ : Site} {mask : BitVec 8} {src : Loc} {dst : Nat} {j : Job}
    (hs : Fresh s₀ s) : FreshI s₀ (issueDecode at_ mask src dst j s) := by
  unfold issueDecode
  with_reducible repeat' first
    | assumption | (intro x; subst x) | lift_lets -underBinder | exact FreshI.wait | refine FreshI.done ?_ | refine putHandle_fresh ?_
    | refine skipInstr_fresh ?_ | refine withScoreboard_fresh (fun _ _ _ => ?_) ?_ | refine startOp_fresh ?_ | refine claimTakes_fresh ?_
    | refine onVerdict_fresh (fun _ _ => ?_) ?_ | refine Fresh.ident ?_ | split

theorem startColl_fresh {s₀ s : State} {at_ : Site} {j : Job} {c : Coll} {ds srcs : List Dest} {es : List SbEntry}
    (hs : Fresh s₀ s) : Fresh s₀ (startColl at_ j c ds srcs es s) := by
  unfold startColl
  with_reducible repeat' first | assumption | refine startOp_fresh ?_ | refine collControl_fresh ?_ | refine Fresh.upd ?_ rfl (Nat.le_refl _)

theorem issueColl_fresh {s₀ s : State} {at_ : Site} {op : Nat} {src dst coll : Nat} {j : Job}
    (hs : Fresh s₀ s) : FreshI s₀ (issueColl at_ op src dst coll j s) := by
  unfold issueColl
  with_reducible repeat' first
    | assumption | (intro x; subst x) | lift_lets -underBinder | refine FreshI.done ?_ | refine skipInstr_fresh ?_ | refine refuseInstr_fresh ?_
    | refine withScoreboard_fresh (fun _ _ _ => ?_) ?_ | refine onVerdict_fresh (fun _ _ => ?_) ?_ | refine collControl_fresh ?_
    | refine noteWeight_fresh ?_ | refine startColl_fresh ?_ | refine Fresh.ident ?_ | split

theorem issueBarrier_fresh {s₀ s : State} {at_ : Site} {coll : Nat} {j : Job} (hs : Fresh s₀ s) : FreshI s₀ (issueBarrier at_ coll j s) := by
  unfold issueBarrier
  with_reducible repeat' first
    | assumption | (intro x; subst x) | lift_lets -underBinder | refine FreshI.done ?_ | refine skipInstr_fresh ?_
    | refine withScoreboard_fresh (fun _ _ _ => ?_) ?_ | refine onVerdict_fresh (fun _ _ => ?_) ?_ | refine startColl_fresh ?_
    | refine Fresh.ident ?_ | split

theorem updColl_fresh {s₀ s : State} {d : DieIx} {id : Nat} {f : Coll → Coll} (hs : Fresh s₀ s) : Fresh s₀ (updColl d id f s) := by
  unfold updColl
  with_reducible repeat' first | assumption | refine updOp_fresh (fun _ => rfl) ?_

theorem sendColl_fresh {s₀ s : State} {d : DieIx} {key : Nat} {c : Coll} {r w : Nat} (hs : Fresh s₀ s) : Fresh s₀ (sendColl d key c r w s) := by
  unfold sendColl
  with_reducible repeat' first | assumption | refine Fresh.ite ?_ ?_ | refine originate_fresh ?_ | refine Fresh.fold (fun _ _ _ => ?_) _ ?_

theorem collPeer_fresh {s₀ s : State} {d : DieIx} {o : Op} {c : Coll} {r : Nat} {b : List Byte}
    (hs : Fresh s₀ s) : Fresh s₀ (collPeer d o c r b s) := by
  unfold collPeer
  with_reducible repeat' first | assumption | refine failColl_fresh ?_ | refine updColl_fresh ?_ | refine sendColl_fresh ?_ | split

theorem degradedObject_fresh {s₀ s : State} {h : Header} {n : Nat} (hs : Fresh s₀ s) : FreshP s₀ (degradedObject h n s) := by
  unfold degradedObject
  split
  rename_i e
  have h1 := freeBytes_fresh (n := n - 288) hs
  rw [e] at h1
  exact h1

theorem deliverColl_fresh {s₀ s : State} {d : DieIx} {o : Op} {c : Coll} (hs : Fresh s₀ s) : Fresh s₀ (deliverColl d o c s) := by
  unfold deliverColl
  with_reducible repeat' first | assumption | refine logJob_fresh ?_ | refine writeElems_fresh ?_ | refine degradedObject_fresh ?_ | split

theorem purgeColl_fresh {s₀ s : State} {d : DieIx} {c : Coll} (hs : Fresh s₀ s) : Fresh s₀ (purgeColl d c s) := by
  unfold purgeColl
  with_reducible repeat' first | assumption | refine Fresh.upd ?_ rfl (Nat.le_refl _)

theorem updSession_fresh {s₀ s : State} {p : PartIx} {k : Nat} {f : Session → Session} (hs : Fresh s₀ s) : Fresh s₀ (updSession p k f s) := by
  unfold updSession
  with_reducible repeat' first | assumption | refine Fresh.updPart ?_

theorem putShare_fresh {s₀ s : State} {d : DieIx} {h : Nat} {hdr : Header} {xs : List Nat} (hs : Fresh s₀ s) : Fresh s₀ (putShare d h hdr xs s) := by
  unfold putShare
  with_reducible repeat' first | assumption | refine putHandle_fresh ?_

theorem putClear_fresh {s₀ s : State} {d : DieIx} {h : Nat} {xs : List Nat} (hs : Fresh s₀ s) : Fresh s₀ (putClear d h xs s) := by
  unfold putClear
  with_reducible repeat' first | assumption | refine putHandle_fresh ?_

theorem issueShr_fresh {s₀ s : State} {at_ : Site} {o : ShrOp} {late : Session → Nat → Verdict}
    {poisoned : Session → Nat → Nat → State → State} {go : Job → Session → Nat → Nat → List SbEntry → State → Issued} {j : Job}
    (hp : ∀ x a b t, Fresh s₀ t → Fresh s₀ (poisoned x a b t)) (hg : ∀ j x a b es t, Fresh s₀ t → FreshI s₀ (go j x a b es t))
    (hs : Fresh s₀ s) : FreshI s₀ (issueShr at_ o late poisoned go j s) := by
  unfold issueShr
  refine FreshI.ite (FreshI.done (onVerdict_fresh (fun _ h => h) hs)) (withScoreboard_fresh (fun es t ht => ?_) hs)
  refine FreshI.ite (FreshI.done (onVerdict_fresh (fun _ h => h) ?_)) (FreshI.ite (FreshI.done (onVerdict_fresh (fun _ h => h) ht)) ?_)
  · split
    · exact hp _ _ _ _ ht
    · exact ht
  · split
    · exact ht
    · exact FreshI.ite (FreshI.done (onVerdict_fresh (fun _ h => h) ht)) (hg _ _ _ _ _ _ ht)

theorem shrLocal_fresh {s₀ s : State} {at_ : Site} {i : Instr} {mask : BitVec 8} {shares clears : List Nat} {dst k : Nat} {f : State → Session → Nat → Nat → List Nat}
    (hs : Fresh s₀ s) : Fresh s₀ (shrLocal at_ i mask shares clears dst k f s) := by
  unfold shrLocal
  with_reducible repeat' first
    | assumption | refine FreshI.done ?_ | refine runInstr_fresh (fun _ _ _ => ?_) ?_ | refine startOp_fresh ?_ | refine putShare_fresh ?_
    | refine issueShr_fresh (fun _ _ _ _ _ => ?_) (fun _ _ _ _ _ _ _ => ?_) ?_

theorem shareSend_fresh {s₀ s : State} {d : DieIx} {x : Session} {i : Nat} {f : Nat → Nat → Output}
    (hs : Fresh s₀ s) : Fresh s₀ (shareSend d x i f s) := by
  unfold shareSend
  with_reducible repeat' first | assumption | refine emit_fresh ?_ | refine discard_fresh ?_ | split

theorem acceptMsg_fresh {s₀ s : State} {d : DieIx} {id : Nat} {m : ExMsg} {abort : Bool} (hs : Fresh s₀ s) : Fresh s₀ (acceptMsg d id m abort s) := by
  unfold acceptMsg
  with_reducible repeat' first | assumption | refine failOp_fresh ?_ | refine updOp_fresh (fun _ => rfl) ?_ | split

theorem startExch_fresh {s₀ s : State} {at_ : Site} {j : Job} {o : Op} {x : Exch} {ses : Session} {body : Nat → List Nat} {es : List SbEntry}
    (hs : Fresh s₀ s) : Fresh s₀ (startExch at_ j o x ses body es s) := by
  unfold startExch
  with_reducible repeat' first
    | assumption | refine startOp_fresh ?_ | refine updSession_fresh ?_ | refine shareSend_fresh ?_ | refine acceptMsg_fresh ?_
    | refine Fresh.fold (fun _ _ _ => ?_) _ ?_

theorem abortExch_fresh {s₀ s : State} {at_ : Site} {j : Job} {dealSeq : Option Nat} {x : Session} {slot n : Nat}
    (hs : Fresh s₀ s) : Fresh s₀ (abortExch at_ j dealSeq x slot n s) := by
  unfold abortExch
  with_reducible repeat' first
    | assumption | refine Fresh.ite ?_ ?_ | refine logJob_fresh ?_ | refine updSession_fresh ?_ | refine shareSend_fresh ?_
    | refine Fresh.fold (fun _ _ _ => ?_) _ ?_

theorem issueOpen_fresh {s₀ s : State} {at_ : Site} {mask : BitVec 8} {srcs : List Nat} {dst : Nat} {j : Job}
    (hs : Fresh s₀ s) : FreshI s₀ (issueOpen at_ mask srcs dst j s) := by
  unfold issueOpen
  with_reducible repeat' first
    | assumption | refine FreshI.done ?_ | refine FreshI.ite ?_ ?_ | refine refuseInstr_fresh ?_
    | refine issueShr_fresh (fun _ _ _ _ _ => ?_) (fun _ _ _ _ _ _ _ => ?_) ?_ | refine startExch_fresh ?_ | refine abortExch_fresh ?_

theorem issueBeaver_fresh {s₀ s : State} {at_ : Site} {mask : BitVec 8} {a b dst : Nat} {j : Job}
    (hs : Fresh s₀ s) : FreshI s₀ (issueBeaver at_ mask a b dst j s) := by
  unfold issueBeaver
  with_reducible repeat' first
    | assumption | exact FreshI.wait | refine FreshI.done ?_ | refine FreshI.ite ?_ ?_ | refine updSession_fresh ?_
    | refine issueShr_fresh (fun _ _ _ _ _ => ?_) (fun _ _ _ _ _ _ _ => ?_) ?_ | refine startExch_fresh ?_ | refine abortExch_fresh ?_

theorem drawElems_fresh {s₀ s : State} {q n : Nat} (hs : Fresh s₀ s) : FreshP s₀ (drawElems q n s) := by
  unfold drawElems
  with_reducible repeat' first | assumption | refine Fresh.upd ?_ rfl (Nat.le_refl _)

theorem drawVecs_fresh {s₀ : State} {q n : Nat} : ∀ (k : Nat) {s : State}, Fresh s₀ s → FreshP s₀ (drawVecs q n k s)
  | 0, _, h => h
  | k + 1, s, h => by
    have h1 : FreshP s₀ (drawElems q n s) := drawElems_fresh h
    have h2 := drawVecs_fresh (q := q) (n := n) k h1
    exact h2

theorem issueSplit_fresh {s₀ s : State} {at_ : Site} {mask : BitVec 8} {slot n clear dst : Nat} {recv : List Nat} {j : Job}
    (hs : Fresh s₀ s) : FreshI s₀ (issueSplit at_ mask slot n clear dst recv j s) := by
  unfold issueSplit
  with_reducible repeat' first
    | assumption | (intro x; subst x) | lift_lets -underBinder | refine FreshI.done ?_ | refine withScoreboard_fresh (fun _ _ _ => ?_) ?_
    | refine onVerdict_fresh (fun _ _ => ?_) ?_ | refine putShare_fresh ?_ | refine startExch_fresh ?_ | refine drawVecs_fresh _ ?_
    | refine Fresh.ident ?_ | split

theorem deliverExch_fresh {s₀ s : State} {d : DieIx} {x : Exch} (hs : Fresh s₀ s) : Fresh s₀ (deliverExch d x s) := by
  unfold deliverExch
  with_reducible repeat' first | assumption | refine putShare_fresh ?_ | refine putClear_fresh ?_ | refine Fresh.fold (fun _ _ _ => ?_) _ ?_ | split

theorem dealRoom_fresh {s₀ s : State} {x : Session} {i : Nat} {m : DealMsg} (hs : Fresh s₀ s) : FreshP s₀ (dealRoom x i m s) := by
  unfold dealRoom
  split
  · split
    · exact hs
    · exact hs
  · exact freeDraw_fresh hs

theorem sendDeal_fresh {s₀ s : State} {p : PartIx} {slot : Nat} {e : DieIx × Nat × DealMsg} (hs : Fresh s₀ s) :
    Fresh s₀ (sendDeal p slot e s) := by
  unfold sendDeal
  split
  · exact hs
  · have h := dealRoom_fresh (x := ‹Session›) (i := e.2.1) (m := e.2.2) hs
    exact Fresh.ite hs (Fresh.ite (shareSend_fresh (updSession_fresh h)) h)

theorem flushDeals_fresh {s₀ s : State} {p : PartIx} {slot : Nat} (hs : Fresh s₀ s) : Fresh s₀ (flushDeals p slot s) := by
  unfold flushDeals
  with_reducible repeat' first | assumption | refine sendDeal_fresh ?_ | refine Fresh.fold (fun _ _ _ => ?_) _ ?_ | split

theorem flushAllDeals_fresh {s₀ s : State} (hs : Fresh s₀ s) : Fresh s₀ (flushAllDeals s) := by
  unfold flushAllDeals
  with_reducible repeat' first | assumption | refine flushDeals_fresh ?_ | refine Fresh.fold (fun _ _ _ => ?_) _ ?_

theorem issueDeal_fresh {s₀ s : State} {at_ : Site} {slot n : Nat} {j : Job} (hs : Fresh s₀ s) : FreshI s₀ (issueDeal at_ slot n j s) := by
  unfold issueDeal
  with_reducible repeat' first
    | assumption | (intro x; subst x) | lift_lets -underBinder | refine FreshI.done ?_ | refine refuseInstr_fresh ?_ | refine startOp_fresh ?_
    | refine onVerdict_fresh (fun _ _ => ?_) ?_ | refine updSession_fresh ?_ | refine drawElems_fresh ?_ | refine drawVecs_fresh _ ?_
    | refine flushDeals_fresh ?_ | refine Fresh.ident ?_ | split

theorem dropShare_fresh {s₀ s : State} {port : Option PortIx} {reason : Nat} (hs : Fresh s₀ s) : Fresh s₀ (dropShare port reason s) := by
  unfold dropShare
  with_reducible repeat' first | assumption | refine discard_fresh ?_ | split

theorem strayMessage_fresh {s₀ s : State} {m : ExMsg} (hs : Fresh s₀ s) : Fresh s₀ (strayMessage m s) := by
  unfold strayMessage
  with_reducible repeat' first | assumption | refine failOp_fresh ?_ | refine dropShare_fresh ?_ | split

theorem peerMessage_fresh {s₀ s : State} {slot : Nat} {ses : Session} {m : ExMsg} {abort : Bool}
    (hs : Fresh s₀ s) : Fresh s₀ (peerMessage slot ses m abort s) := by
  unfold peerMessage
  with_reducible repeat' first
    | assumption | refine countLate_fresh ?_ | refine failOp_fresh ?_ | refine updSession_fresh ?_ | refine acceptMsg_fresh ?_ | split

theorem nakShare_fresh {s₀ s : State} {p : PartIx} {part epoch : Nat} {tag : W64} {seq : Nat}
    (hs : Fresh s₀ s) : Fresh s₀ (nakShare p part epoch tag seq s) := by
  unfold nakShare
  with_reducible repeat' first | assumption | refine originate_fresh ?_

theorem epochBars_fresh {s₀ s : State} {port : Option PortIx} {epoch : Nat} {x : HeldIn} {refuse : State → State}
    (hr : ∀ t, Fresh s₀ t → Fresh s₀ (refuse t)) (hs : Fresh s₀ s) : FreshO s₀ (epochBars port epoch x refuse s) := by
  unfold epochBars
  split
  · trivial
  · refine FreshO.ite trivial (FreshO.ite ?_ (hr _ hs))
    split
    · rename_i e
      exact FreshO.of e (holdNext_fresh hs)
    · exact hr _ (countRefusal_fresh hs)

theorem messageIn_fresh {s₀ s : State} {m : ExMsg} {abort : Bool} (hs : Fresh s₀ s) : Fresh s₀ (messageIn m abort s) := by
  unfold messageIn
  split
  · exact dropShare_fresh hs
  · split
    · exact strayMessage_fresh hs
    · refine Fresh.ite (dropShare_fresh hs) (Fresh.ite (dropShare_fresh hs) ?_)
      split
      · rename_i e
        exact FreshO.of e (epochBars_fresh (fun _ h => nakShare_fresh h) hs)
      · exact peerMessage_fresh hs

theorem dealIn_fresh {s₀ s : State} {m : DealMsg} (hs : Fresh s₀ s) : Fresh s₀ (dealIn m s) := by
  unfold dealIn
  split
  · exact dropShare_fresh hs
  · split
    · exact dropShare_fresh hs
    · refine Fresh.ite (dropShare_fresh hs) (Fresh.ite (dropShare_fresh hs) ?_)
      split
      · rename_i e
        exact FreshO.of e (epochBars_fresh (fun _ h => nakShare_fresh h) hs)
      · exact Fresh.ite hs (updSession_fresh hs)

theorem takeHeld_fresh {s₀ s : State} {x : HeldIn} (hs : Fresh s₀ s) : Fresh s₀ (takeHeld x s) := by
  unfold takeHeld
  with_reducible repeat' first | assumption | refine messageIn_fresh ?_ | refine dealIn_fresh ?_ | split

theorem switchNow_fresh {s₀ s : State} (hs : Fresh s₀ s) : Fresh s₀ (switchNow s) := by
  unfold switchNow
  with_reducible repeat' first | assumption | refine switchEpoch_fresh ?_ | refine takeHeld_fresh ?_ | refine Fresh.fold (fun _ _ _ => ?_) _ ?_

theorem refuseHeld_fresh {s₀ s : State} {x : HeldIn} (hs : Fresh s₀ s) : Fresh s₀ (refuseHeld x s) := by
  unfold refuseHeld
  with_reducible repeat' first | assumption | (intro x; subst x) | lift_lets -underBinder | refine nak_fresh ?_ | refine nakShare_fresh ?_ | split

theorem raiseFlag_fresh {s₀ s : State} {f : Option FlagTarget} (hs : Fresh s₀ s) : Fresh s₀ (raiseFlag f s) := by
  unfold raiseFlag
  with_reducible repeat' first | assumption | refine wakeDie_fresh ?_ | refine signalFlag_fresh ?_ | split

theorem settleStalls_fresh {s₀ s : State} {d : DieIx} {o : Op} (hs : Fresh s₀ s) : Fresh s₀ (settleStalls d o s) := by
  unfold settleStalls
  with_reducible repeat' first | assumption | refine countStalls_fresh ?_ | split

theorem finishOp_fresh {s₀ s : State} {d : DieIx} {o : Op} (hs : Fresh s₀ s) : Fresh s₀ (finishOp d o s) := by
  unfold finishOp
  with_reducible repeat' first
    | assumption | refine dropOp_fresh ?_ | refine releaseSlot_fresh ?_ | refine startTongs_fresh ?_ | refine deliverColl_fresh ?_
    | refine purgeColl_fresh ?_ | refine deliverExch_fresh ?_ | refine raiseFlag_fresh ?_ | refine settleStalls_fresh ?_
    | refine Fresh.fold (fun _ _ _ => ?_) _ ?_ | split

theorem landHost_fresh {s₀ s : State} {d : DieIx} {o : Op} {x : Xfer} {pl : Plan} (hs : Fresh s₀ s) : Fresh s₀ (landHost d o x pl s) := by
  unfold landHost
  with_reducible repeat' first
    | assumption | refine applyPlan_fresh ?_ | refine ingestFail_fresh ?_ | refine finishOp_fresh ?_ | split | refine FreshO.of (by assumption) ?_

theorem finishXfer_fresh {s₀ s : State} {d : DieIx} {o : Op} {x : Xfer}
    (hop : idsFresh s₀ → o.id < s₀.nextId) (hs : Fresh s₀ s) : Fresh s₀ (finishXfer d o x s) := by
  unfold finishXfer
  with_reducible repeat' first
    | assumption | (intro x; refine (fun (_ : Fresh s₀ x) => ?_) ?_; (on_goal 1 => clear_value x); (on_goal 2 => subst x)) | lift_lets -underBinder
    | refine fillSlot_fresh ?_ | refine updOp_fresh (fun _ => rfl) ?_ | refine emitHost_fresh hop ?_ | refine pump_fresh ?_
    | refine updXfer_fresh ?_ | refine sendRemoteFlag_fresh ?_ | refine finishOp_fresh ?_ | refine landHost_fresh ?_
    | refine Fresh.fold (fun _ _ _ => ?_) _ ?_ | split

theorem refuseWork_fresh {s₀ s : State} {p : Packet} (hs : Fresh s₀ s) : Fresh s₀ (refuseWork p s) := by
  unfold refuseWork
  with_reducible repeat' first | assumption | refine countLate_fresh ?_ | refine failOp_fresh ?_ | refine failColl_fresh ?_ | split

theorem cancelLine_fresh {s₀ s : State} {d : DieIx} {q : QueueIx} {n mode target : Nat}
    (hs : Fresh s₀ s) : FreshP s₀ (cancelLine d q n mode target s) := by
  unfold cancelLine
  with_reducible repeat' first | assumption | refine Fresh.updQueue ?_ | refine putCpl_fresh ?_ | refine Fresh.fold (fun _ _ _ => ?_) _ ?_ | split

theorem issueFlagSet_fresh {s₀ s : State} {at_ : Site} {flag w : Nat} {j : Job} (hs : Fresh s₀ s) : FreshI s₀ (issueFlagSet at_ flag w j s) := by
  unfold issueFlagSet
  dsimp only
  split
  · exact skipInstr_fresh hs
  · refine FreshI.ite (onVerdict_fresh (fun _ h => h) hs) (hs.trans ?_)
    refine (startOp_fresh (.refl s)).trans (sendReq_fresh (fun _ => ?_) (.refl _))
    rw [startOp_nextId]
    exact Nat.lt_succ_self _

theorem lateFlag_fresh {s₀ s : State} {d : DieIx} {h : Held} (hs : Fresh s₀ s) : Fresh s₀ (lateFlag d h s) := by
  unfold lateFlag
  with_reducible repeat' first | assumption | refine Fresh.ite ?_ ?_ | refine countLate_fresh ?_

theorem streamTimeout_fresh {s₀ s : State} {d : DieIx} {q : QueueIx} (hs : Fresh s₀ s) : Fresh s₀ (streamTimeout d q s) := by
  unfold streamTimeout
  with_reducible repeat' first | assumption | refine logJob_fresh ?_ | refine quenchJob_fresh ?_ | split

theorem issueTemper_fresh {s₀ s : State} {at_ : Site} {src dst : Loc} {cfgId slot work : Nat} {j : Job}
    (hs : Fresh s₀ s) : FreshI s₀ (issueTemper at_ src dst cfgId slot work j s) := by
  unfold issueTemper
  with_reducible repeat' first
    | assumption | (intro x; subst x) | lift_lets -underBinder | refine Fresh.updDie ?_ (fun _ => rfl) | exact FreshI.wait | refine FreshI.done ?_
    | refine skipInstr_fresh ?_ | refine refuseInstr_fresh ?_ | refine withScoreboard_fresh (fun _ _ _ => ?_) ?_
    | refine onVerdict_fresh (fun _ _ => ?_) ?_ | refine runClu_fresh ?_ | refine Fresh.ident ?_ | split | refine Fresh.upd ?_ rfl (Nat.le_refl _)

theorem allocPools_fresh {s₀ s : State} {l : List (DieIx × Nat × Nat × Nat)} (hs : Fresh s₀ s) : Fresh s₀ (allocPools l s) := by
  unfold allocPools
  with_reducible repeat' first | assumption | refine updHandle_fresh ?_ | refine Fresh.fold (fun _ _ _ => ?_) _ ?_

theorem writeRun_fresh {s₀ s : State} {o : Nat} {bs : List Byte} {r : Nat × Nat × Nat × Nat} (hs : Fresh s₀ s) :
    Fresh s₀ (writeRun o bs r s) := by
  unfold writeRun
  exact Fresh.ite (wakeDie_fresh (hs.updDie fun _ => rfl)) hs

theorem writeCopies_fresh {s₀ s : State} {placed : List (Nat × Nat × Nat × Nat)} {o : Nat} {bs : List Byte} (hs : Fresh s₀ s) :
    Fresh s₀ (writeCopies placed o bs s) := Fresh.fold (fun _ _ h => writeRun_fresh h) _ hs

theorem noteReason_fresh {s₀ s : State} {p : PartIx} {slot tag r : Nat} (hs : Fresh s₀ s) : Fresh s₀ (noteReason p slot tag r s) := by
  unfold noteReason
  with_reducible repeat' first | assumption | refine Fresh.ite ?_ ?_ | refine updKs_fresh ?_

theorem updImport_fresh {s₀ s : State} {p : PartIx} {slot : Nat} {f : Import → Import} (hs : Fresh s₀ s) : Fresh s₀ (updImport p slot f s) := by
  unfold updImport
  with_reducible repeat' first | assumption | refine Fresh.updPart ?_

theorem keepSegment_fresh {s₀ s : State} {p : PartIx} {slot : Nat} {im : Import} {m : List Byte} {placed : List (Nat × Nat × Nat × Nat)}
    (hs : Fresh s₀ s) : Fresh s₀ (keepSegment p slot im m placed s) := by
  have h : ∀ {c e : Prop} [Decidable c] [Decidable e] {b : MirrorBody} {x : Import} {o n tag : Nat},
      Fresh s₀ (if c then sendRows p b (writeCopies placed o m (updImport p slot (fun _ => x) s))
        else if e then sendTwin n p tag (writeCopies placed o m (updImport p slot (fun _ => x) s))
        else writeCopies placed o m (updImport p slot (fun _ => x) s)) :=
    Fresh.ite (sendRows_fresh (writeCopies_fresh (updImport_fresh hs)))
      (Fresh.ite (sendTwin_fresh (writeCopies_fresh (updImport_fresh hs))) (writeCopies_fresh (updImport_fresh hs)))
  exact Fresh.ite (commitImport_fresh h) h

theorem takeSegment_fresh {s₀ s : State} {p : PartIx} {slot : Nat} {im : Import} {m : List Byte} (hs : Fresh s₀ s) :
    Fresh s₀ (takeSegment p slot im m s) := by
  unfold takeSegment
  split
  · exact failImport_fresh hs
  · split
    · exact failImport_fresh hs
    · exact keepSegment_fresh hs

theorem segmentArrives_fresh {s₀ s : State} {p : PartIx} {slot : Nat} {im : Import} {wlen : Nat} {bytes : List Byte}
    (hs : Fresh s₀ s) : Fresh s₀ (segmentArrives p slot im wlen bytes s) := by
  unfold segmentArrives
  with_reducible repeat' first | assumption | refine failImport_fresh ?_ | refine takeSegment_fresh ?_ | split

theorem failStalled_fresh {s₀ s : State} {p : PartIx} {slot : Nat} (hs : Fresh s₀ s) : Fresh s₀ (failStalled p slot s) := by
  unfold failStalled
  with_reducible repeat' first | assumption | refine logJob_fresh ?_ | refine quenchJob_fresh ?_ | refine Fresh.fold (fun _ _ _ => ?_) _ ?_ | split

theorem evictSet_fresh {s₀ s : State} {p : PartIx} {tag : Nat} (hs : Fresh s₀ s) : Fresh s₀ (evictSet p tag s) := by
  unfold evictSet
  with_reducible repeat' first | assumption | refine updKs_fresh ?_ | refine finishEvictions_fresh ?_ | refine failStalled_fresh ?_ | split

theorem updTwin_fresh {s₀ s : State} {f : Twin → Twin} (hs : Fresh s₀ s) : Fresh s₀ (updTwin f s) := by
  unfold updTwin
  with_reducible repeat' first | assumption | refine Fresh.upd ?_ rfl (Nat.le_refl _)

theorem startPair_fresh {s₀ s : State} (hs : Fresh s₀ s) : FreshE s₀ (startPair s) := by
  unfold startPair
  with_reducible repeat' first
    | assumption | exact FreshE.error | refine FreshE.ok ?_ | refine FreshE.ite ?_ ?_ | refine sendTwin_fresh ?_ | refine updTwin_fresh ?_

theorem failRefetches_fresh {s₀ s : State} (hs : Fresh s₀ s) : Fresh s₀ (failRefetches s) := by
  unfold failRefetches
  with_reducible repeat' first | assumption | refine updKs_fresh ?_ | refine updTwin_fresh ?_ | refine Fresh.fold (fun _ _ _ => ?_) _ ?_

theorem endMirroring_fresh {s₀ s : State} (hs : Fresh s₀ s) : Fresh s₀ (endMirroring s) := by
  unfold endMirroring
  with_reducible repeat' first
    | assumption | refine Fresh.updPart ?_ | refine commitAlone_fresh ?_ | refine updTwin_fresh ?_ | refine failRefetches_fresh ?_
    | refine Fresh.fold (fun _ _ _ => ?_) _ ?_

theorem declareLost_fresh {s₀ s : State} (hs : Fresh s₀ s) : Fresh s₀ (declareLost s) := by
  unfold declareLost
  with_reducible repeat' first
    | assumption | refine logAt_fresh ?_ | refine quenchPartition_fresh ?_ | refine updTwin_fresh ?_ | refine endMirroring_fresh ?_
    | refine Fresh.fold (fun _ _ _ => ?_) _ ?_

theorem detachTwin_fresh {s₀ s : State} (hs : Fresh s₀ s) : Fresh s₀ (detachTwin s) := by
  unfold detachTwin
  with_reducible repeat' first
    | assumption | refine Fresh.updPart ?_ | refine updTwin_fresh ?_ | refine endMirroring_fresh ?_ | refine Fresh.fold (fun _ _ _ => ?_) _ ?_

theorem startDetach_fresh {s₀ s : State} (hs : Fresh s₀ s) : FreshE s₀ (startDetach s) := by
  unfold startDetach
  with_reducible repeat' first | assumption | exact FreshE.error | refine FreshE.ok ?_ | refine sendTwin_fresh ?_ | refine detachTwin_fresh ?_ | split

theorem startPromote_fresh {s₀ s : State} {p : PartIx} (hs : Fresh s₀ s) : FreshE s₀ (startPromote p s) := by
  unfold startPromote
  with_reducible repeat' first | assumption | exact FreshE.error | refine FreshE.ok ?_ | refine FreshE.ite ?_ ?_ | refine Fresh.updPart ?_

theorem updMirror_fresh {s₀ s : State} {p : PartIx} {tag : Nat} {f : Mirror → Mirror} (hs : Fresh s₀ s) : Fresh s₀ (updMirror p tag f s) := by
  unfold updMirror
  with_reducible repeat' first | assumption | refine updTwin_fresh ?_

theorem dropMirror_fresh {s₀ s : State} {p : PartIx} {tag : Nat} (hs : Fresh s₀ s) : Fresh s₀ (dropMirror p tag s) := by
  unfold dropMirror
  with_reducible repeat' first | assumption | refine updTwin_fresh ?_

theorem checkMirror_fresh {s₀ s : State} {p : PartIx} {m : Mirror} (hs : Fresh s₀ s) : Fresh s₀ (checkMirror p m s) := by
  unfold checkMirror
  with_reducible repeat' first
    | assumption | (intro x; subst x) | lift_lets -underBinder | refine sendTwin_fresh ?_ | refine writeCopies_fresh ?_ | refine updMirror_fresh ?_
    | refine dropMirror_fresh ?_ | split

theorem takeMirror_fresh {s₀ s : State} {p : PartIx} {slot tag : Nat} {homes : BitVec 16} {offset : Nat} {rows : List Byte}
    (hs : Fresh s₀ s) : Fresh s₀ (takeMirror p slot tag homes offset rows s) :=
  updMirror_fresh (Fresh.ite hs (updTwin_fresh (dropMirror_fresh hs)))

theorem moveRun_fresh {s₀ s : State} {d : DieIx} {n at_ : Nat} (hs : Fresh s₀ s) : FreshT s₀ (moveRun d n at_ s) := by
  unfold moveRun
  cases placeRows s d n with
  | none => trivial
  | some b =>
    rw [Option.map_some]
    refine FreshT.some (Fresh.updDie hs fun _ => rfl)

theorem moveRuns_fresh {s₀ s : State} {d : DieIx} {base rows : Nat} {l : List (Nat × Nat × Nat × Nat)} (hs : Fresh s₀ s) :
    FreshT s₀ (moveRuns d base rows l s) := by
  suffices ∀ (l : List (Nat × Nat × Nat × Nat)) (o : Option (List (Nat × Nat × Nat × Nat) × State)), FreshT s₀ o → FreshT s₀ (l.foldl (fun acc r => acc.bind fun a =>
      if r.1 == d.val && runsMeet base rows r.2.2.2 r.2.2.1 then
        (moveRun d r.2.2.1 r.2.2.2 a.2).map fun x => (a.1 ++ [(r.1, r.2.1, r.2.2.1, x.1)], x.2)
      else some (a.1 ++ [r], a.2)) o) from this l _ hs
  intro l
  induction l with
  | nil => exact fun _ h => h
  | cons r l ih =>
    refine fun o h => ih _ ?_
    cases o with
    | none => trivial
    | some a =>
      refine FreshT.ite ?_ h
      have hm := moveRun_fresh (d := d) (n := r.2.2.1) (at_ := r.2.2.2) (s := a.2) h
      revert hm
      cases moveRun d r.2.2.1 r.2.2.2 a.2 with
      | none => exact fun _ => trivial
      | some x => exact fun h => h

theorem foldO_fresh {α : Type} {s₀ : State} {f : α → State → Option State} (hf : ∀ x s, Fresh s₀ s → FreshO s₀ (f x s)) :
    ∀ (l : List α) {o : Option State}, FreshO s₀ o → FreshO s₀ (l.foldl (fun acc x => acc.bind (f x)) o)
  | [], _, h => h
  | x :: l, o, h => by
    refine foldO_fresh hf l ?_
    cases o with
    | none => trivial
    | some s => exact hf x s h

theorem moveRuns_then_fresh {s₀ s : State} {d : DieIx} {base rows : Nat} {l : List (Nat × Nat × Nat × Nat)}
    {f : List (Nat × Nat × Nat × Nat) → State → State} (hf : ∀ x t, Fresh s₀ t → Fresh s₀ (f x t)) (hs : Fresh s₀ s) :
    FreshO s₀ ((moveRuns d base rows l s).map fun x => f x.1 x.2) := by
  have h := moveRuns_fresh (d := d) (base := base) (rows := rows) (l := l) hs
  revert h
  cases moveRuns d base rows l s with
  | none => exact fun _ => trivial
  | some x => exact fun h => hf _ _ h

theorem clearKeys_fresh {s₀ s : State} {p : PartIx} {d : DieIx} {base rows : Nat} (hs : Fresh s₀ s) :
    FreshO s₀ (clearKeys p d base rows s) :=
  foldO_fresh (fun e _ h => moveRuns_then_fresh (f := fun r t => updKs p e.1 (fun k => { k with rows := r }) t) (fun _ _ h => updKs_fresh h) h) _
    (FreshO.some hs)

theorem clearMirrors_fresh {s₀ s : State} {p : PartIx} {d : DieIx} {base rows : Nat} (hs : Fresh s₀ s) :
    FreshO s₀ (clearMirrors p d base rows s) :=
  foldO_fresh (fun m _ h => moveRuns_then_fresh (f := fun r t => updMirror p m.tag (fun m => { m with placed := r }) t) (fun _ _ h => updMirror_fresh h) h) _
    (FreshO.some hs)

theorem takeStore_fresh {s₀ s : State} {p : PartIx} {die : DieIx} {handle base rows : Nat} {poison : Option (BitVec 16)} {offset : Nat}
    {bytes : List Byte} (hs : Fresh s₀ s) : Fresh s₀ (takeStore p die handle base rows poison offset bytes s) := by
  unfold takeStore
  refine Fresh.ite hs ?_
  dsimp only
  split
  · exact hs
  · rename_i e
    refine wakeDie_fresh ?_
    refine Fresh.updDie ?_ fun _ => rfl
    obtain ⟨t, ht, e⟩ := Option.bind_eq_some_iff.1 e
    have h1 : FreshO s₀ (some t) := ht ▸ clearKeys_fresh (Fresh.updDie hs fun _ => rfl)
    exact FreshO.of e (clearMirrors_fresh h1)

theorem fillGoesOn_fresh {s₀ s : State} {p : PartIx} {slot : Nat} (hs : Fresh s₀ s) : Fresh s₀ (fillGoesOn p slot s) := by
  unfold fillGoesOn
  with_reducible repeat' first | assumption | refine updTwin_fresh ?_

theorem failRefetch_fresh {s₀ s : State} {p : PartIx} {slot : Nat} (hs : Fresh s₀ s) : Fresh s₀ (failRefetch p slot s) := by
  unfold failRefetch
  with_reducible repeat' first | assumption | refine updKs_fresh ?_ | refine updTwin_fresh ?_ | refine dropMirror_fresh ?_

theorem sendSet_fresh {s₀ s : State} {p : PartIx} {slot : Nat} {k : KeySet} (hs : Fresh s₀ s) : Fresh s₀ (sendSet p slot k s) := by
  unfold sendSet
  with_reducible repeat' first | assumption | refine wakeDie_fresh ?_ | refine sendRows_fresh ?_ | refine Fresh.fold (fun _ _ _ => ?_) _ ?_

theorem replaceKey_fresh {s₀ s : State} {p : PartIx} {slot : Nat} {rows : List Byte} {e : KeyEntry} {d : DieIx} (hs : Fresh s₀ s) :
    FreshO s₀ (replaceKey p slot rows e d s) := by
  unfold replaceKey
  dsimp only
  split
  · trivial
  · exact updKs_fresh (wakeDie_fresh (hs.updDie fun _ => rfl))

theorem replaceKeys_fresh {s₀ s : State} {p : PartIx} {slot : Nat} {rows : List Byte} (hs : Fresh s₀ s) :
    FreshO s₀ (replaceKeys p slot rows s) := foldO_fresh (fun _ _ h => replaceKey_fresh h) _ (FreshO.some hs)

theorem startFill_fresh {s₀ s : State} {p : PartIx} {partnerStandby : Bool} {partnerDies : BitVec 16}
    (hs : Fresh s₀ s) : FreshE s₀ (startFill p partnerStandby partnerDies s) := by
  unfold startFill
  with_reducible repeat' first
    | assumption | exact FreshE.error | refine FreshE.ok ?_ | refine FreshE.ite ?_ ?_ | refine wakeDie_fresh ?_ | refine sendRows_fresh ?_
    | refine updTwin_fresh ?_ | refine sendSet_fresh ?_ | refine Fresh.fold (fun _ _ _ => ?_) _ ?_

theorem judgeSensor_fresh {s₀ s : State} {d : DieIx} {temps : List Int} {k : Nat} (hs : Fresh s₀ s) : Fresh s₀ (judgeSensor d temps k s) := by
  unfold judgeSensor
  with_reducible repeat' first
    | assumption | refine Fresh.ite ?_ ?_ | refine Fresh.updDie ?_ (fun _ => rfl) | refine count_fresh ?_ | refine logAt_fresh ?_
    | refine deviceFail_fresh ?_

theorem senseDie_fresh {s₀ s : State} {rs : List DieReport} {d : DieIx} (hs : Fresh s₀ s) : Fresh s₀ (senseDie rs d s) := by
  unfold senseDie
  with_reducible repeat' first
    | assumption | (intro x; subst x) | lift_lets -underBinder | refine Fresh.updDie ?_ (fun _ => rfl) | refine judgeSensor_fresh ?_
    | refine Fresh.fold (fun _ _ _ => ?_) _ ?_ | split

theorem heatDie_fresh {s₀ s : State} {d : DieIx} (hs : Fresh s₀ s) : Fresh s₀ (heatDie d s) := by
  unfold heatDie
  with_reducible repeat' first | assumption | refine Fresh.ite ?_ ?_ | refine Fresh.updDie ?_ (fun _ => rfl) | refine logAt_fresh ?_

theorem easeDie_fresh {s₀ s : State} {d : DieIx} (hs : Fresh s₀ s) : Fresh s₀ (easeDie d s) := by
  unfold easeDie
  with_reducible repeat' first | assumption | refine Fresh.updDie ?_ (fun _ => rfl)

theorem clampDie_fresh {s₀ s : State} {rs : List DieReport} {d : DieIx} (hs : Fresh s₀ s) : Fresh s₀ (clampDie rs d s) := by
  unfold clampDie
  with_reducible repeat' first | assumption | refine Fresh.updDie ?_ (fun _ => rfl)

theorem updHearth_fresh {s₀ s : State} {f : Hearth → Hearth} (hs : Fresh s₀ s) : Fresh s₀ (updHearth f s) := by
  unfold updHearth
  with_reducible repeat' first | assumption | refine Fresh.upd ?_ rfl (Nat.le_refl _)

theorem capStep_fresh {s₀ s : State} {rs : List DieReport} (hs : Fresh s₀ s) : Fresh s₀ (capStep rs s) := by
  unfold capStep
  with_reducible repeat' first
    | assumption | refine Fresh.ite ?_ ?_ | refine logAt_fresh ?_ | refine updHearth_fresh ?_ | refine Fresh.upd ?_ rfl (Nat.le_refl _)

theorem chargePart_fresh {s₀ s : State} {p : PartIx} {k pj : Nat} (hs : Fresh s₀ s) : Fresh s₀ (chargePart p k pj s) := by
  unfold chargePart
  with_reducible repeat' first | assumption | refine Fresh.updPart ?_

theorem chargeDie_fresh {s₀ s : State} {rs : List DieReport} {d : DieIx} (hs : Fresh s₀ s) : Fresh s₀ (chargeDie rs d s) := by
  unfold chargeDie
  with_reducible repeat' first
    | assumption | (intro x; subst x) | lift_lets -underBinder | refine Fresh.updJob ?_ | refine chargePart_fresh ?_
    | refine Fresh.fold (fun _ _ _ => ?_) _ ?_ | split

theorem noteClamps_fresh {s₀ s : State} {rs : List DieReport} {d : DieIx} (hs : Fresh s₀ s) : Fresh s₀ (noteClamps rs d s) := by
  unfold noteClamps
  with_reducible repeat' first
    | assumption | refine Fresh.ite ?_ ?_ | refine Fresh.updJob ?_ | refine logJob_fresh ?_ | refine Fresh.fold (fun _ _ _ => ?_) _ ?_

theorem sendPace_fresh {s₀ s : State} {o : Op} {c : Coll} (hs : Fresh s₀ s) : Fresh s₀ (sendPace o c s) := by
  unfold sendPace
  with_reducible repeat' first | assumption | refine sendMsg_fresh ?_ | refine Fresh.fold (fun _ _ _ => ?_) _ ?_ | split

theorem paceStep_fresh {s₀ s : State} (hs : Fresh s₀ s) : Fresh s₀ (paceStep s) := by
  unfold paceStep
  with_reducible repeat' first
    | assumption | refine Fresh.ite ?_ ?_ | refine Fresh.updDie ?_ (fun _ => rfl) | refine sendPace_fresh ?_
    | refine Fresh.fold (fun _ _ _ => ?_) _ ?_

theorem takeCaps_fresh {s₀ s : State} (hs : Fresh s₀ s) : Fresh s₀ (takeCaps s) := by
  unfold takeCaps
  with_reducible repeat' first | assumption | refine updHearth_fresh ?_

theorem governor_fresh {s₀ s : State} {rs : List DieReport} (hs : Fresh s₀ s) : Fresh s₀ (governor rs s) := by
  unfold governor
  with_reducible repeat' first
    | assumption | refine Fresh.updDie ?_ (fun _ => rfl) | refine senseDie_fresh ?_ | refine heatDie_fresh ?_ | refine easeDie_fresh ?_
    | refine clampDie_fresh ?_ | refine capStep_fresh ?_ | refine chargeDie_fresh ?_ | refine noteClamps_fresh ?_ | refine paceStep_fresh ?_
    | refine takeCaps_fresh ?_ | refine Fresh.fold (fun _ _ _ => ?_) _ ?_ | refine Fresh.upd ?_ rfl (Nat.le_refl _)

theorem applyBrake_fresh {s₀ s : State} (hs : Fresh s₀ s) : Fresh s₀ (applyBrake s) := by
  unfold applyBrake
  with_reducible repeat' first | assumption | refine Fresh.updDie ?_ (fun _ => rfl) | refine logAt_fresh ?_ | refine Fresh.fold (fun _ _ _ => ?_) _ ?_

theorem admitJob_fresh {s₀ s : State} {j : Job} (hs : Fresh s₀ s) : Fresh s₀ (admitJob j s) := by
  unfold admitJob
  with_reducible repeat' first
    | assumption | refine Fresh.updQueue ?_ | refine Fresh.updJob ?_ | refine wakeDie_fresh ?_ | refine settleQueue_fresh ?_
    | refine Fresh.fold (fun _ _ _ => ?_) _ ?_

theorem considerJob_fresh {s₀ : State} {shut : Bool} {acc : State × Bool} {id : Nat} (hs : FreshL s₀ acc) : FreshL s₀ (considerJob shut acc id) := by
  unfold considerJob
  split
  · dsimp only
    refine FreshL.ite hs ?_
    split
    · split
      · exact settleDies_fresh (removeJob_fresh (refusePacket_fresh hs))
      · exact hs
    · refine FreshL.ite ?_ (FreshL.ite ?_ ?_)
      · exact Fresh.updJob hs
      · exact admitJob_fresh (Fresh.updJob hs)
      · exact Fresh.updJob (Fresh.updJob hs)
  · exact hs

theorem admitAll_fresh {s₀ s : State} (hs : Fresh s₀ s) : Fresh s₀ (admitAll s) := by
  have : ∀ (b : Bool) (l : List Nat) (a : State × Bool), FreshL s₀ a → FreshL s₀ (l.foldl (considerJob b) a) := by
    intro b l
    induction l with
    | nil => exact fun _ h => h
    | cons x l ih => exact fun a h => ih _ (considerJob_fresh h)
  exact Fresh.ite hs (this _ _ (s, false) hs)

theorem boundary_fresh {s₀ s : State} (hs : Fresh s₀ s) : Fresh s₀ (boundary s) := by
  unfold boundary
  with_reducible repeat' first
    | assumption | refine Fresh.ite ?_ ?_ | refine emit_fresh ?_ | refine stampAll_fresh ?_ | refine switchNow_fresh ?_ | refine updHearth_fresh ?_
    | refine admitAll_fresh ?_

theorem settleDisable_fresh {s₀ s : State} {d : DieIx} {q : QueueIx} (hs : Fresh s₀ s) : Fresh s₀ (settleDisable d q s) := by
  unfold settleDisable
  with_reducible repeat' first | assumption | refine Fresh.ite ?_ ?_ | refine Fresh.updQueue ?_

theorem writeControl_fresh {s₀ s : State} {d : DieIx} {q : QueueIx} {w : CtlWrite} (hs : Fresh s₀ s) : Fresh s₀ (writeControl d q w s) := by
  unfold writeControl
  with_reducible repeat' first
    | assumption | (intro x; subst x) | lift_lets -underBinder | refine Fresh.updQueue ?_ | refine Fresh.updQueue ?_ | refine count_fresh ?_
    | refine wakeDie_fresh ?_ | refine readQueue_fresh ?_ | refine settleDisable_fresh ?_ | split

theorem putPage_fresh {s₀ s : State} {port : HostId} {fn slot : Nat} {d : DieIx} {q : QueueIx} {o : Nat} {bs : List Byte}
    (hs : Fresh s₀ s) : Fresh s₀ (putPage port fn slot d q o bs s) := by
  unfold putPage
  with_reducible repeat' first | assumption | refine Fresh.updHost ?_

theorem stagingAccess_fresh {s₀ s : State} {port : HostId} {fn offset length : Nat} {write : Option (List Byte)} (hs : Fresh s₀ s) :
    Fresh s₀ (stagingAccess port fn offset length write s) := by
  unfold stagingAccess
  split
  · exact .ite (hs.upd rfl (Nat.le_refl _)) hs
  · exact .ite (emit_fresh hs) (emit_fresh hs)

theorem resetPartition_fresh {s₀ s : State} {p : PartIx} (hs : Fresh s₀ s) : Fresh s₀ (resetPartition p s) := by
  unfold resetPartition
  with_reducible repeat' first
    | assumption | refine Fresh.updDie ?_ (fun _ => rfl) | refine quenchPartition_fresh ?_ | refine Fresh.fold (fun _ _ _ => ?_) _ ?_

theorem resetMembers_fresh {s₀ s : State} {port : HostId} {f : Nat → Bool} (hs : Fresh s₀ s) : Fresh s₀ (resetMembers port f s) := by
  unfold resetMembers
  with_reducible repeat' first | assumption | refine Fresh.updHost ?_ | refine sendMsg_fresh ?_ | refine Fresh.fold (fun _ _ _ => ?_) _ ?_

theorem resetParts_fresh {s₀ s : State} {ps : List PartIx} (hs : Fresh s₀ s) : Fresh s₀ (resetParts ps s) := by
  unfold resetParts
  with_reducible repeat' first | assumption | refine resetPartition_fresh ?_ | refine Fresh.fold (fun _ _ _ => ?_) _ ?_

theorem dropLink_fresh {s₀ s : State} {port : HostId} (hs : Fresh s₀ s) : Fresh s₀ (dropLink port s) := by
  unfold dropLink
  with_reducible repeat' first | assumption | refine Fresh.updHost ?_ | refine resetMembers_fresh ?_ | refine resetParts_fresh ?_

theorem forwardCpl_fresh {s₀ s : State} {w : FwdWrite} {vec : Option Nat} (hs : Fresh s₀ s) : Fresh s₀ (forwardCpl w vec s) := by
  unfold forwardCpl
  with_reducible repeat' first | assumption | refine emit_fresh ?_ | refine msix_fresh ?_ | refine putPage_fresh ?_ | split

theorem updSlot_fresh {s₀ s : State} {p : PartIx} {k : Nat} {f : BnSlot → BnSlot} (hs : Fresh s₀ s) : Fresh s₀ (updSlot p k f s) := by
  unfold updSlot
  with_reducible repeat' first | assumption | refine Fresh.ite ?_ ?_ | refine Fresh.upd ?_ rfl (Nat.le_refl _)

theorem bnNext_fresh {s₀ s : State} (hs : Fresh s₀ s) : Fresh s₀ (bnNext s) := by
  unfold bnNext
  with_reducible repeat' first | assumption | split | refine Fresh.upd ?_ rfl (Nat.le_refl _)

theorem skipBn_fresh {s₀ s : State} {e : Ev} {i : Instr} {j : Job} {at_ : Site} (hs : Fresh s₀ s) : Fresh s₀ (skipBn e i j at_ s) := by
  unfold skipBn
  with_reducible repeat' first | assumption | refine putScalar_fresh ?_ | refine skipInstr_fresh ?_ | split

theorem issueBn_fresh {s₀ s : State} {at_ : Site} {i : Instr} {j : Job} (hs : Fresh s₀ s) : FreshI s₀ (issueBn at_ i j s) := by
  unfold issueBn
  with_reducible repeat' first
    | assumption | exact FreshI.wait | refine FreshI.done ?_ | refine FreshI.ite ?_ ?_ | refine nameDests_fresh ?_ | refine bnNext_fresh ?_
    | refine skipBn_fresh ?_ | refine Fresh.upd ?_ rfl (Nat.le_add_right _ _)

theorem bnFinish_fresh {s₀ s : State} {c : BnCmd} {p : PartIx} {j : Job} (hs : Fresh s₀ s) : Fresh s₀ (bnFinish c p j s) := by
  unfold bnFinish
  dsimp only
  have h : FreshP s₀ (if bnDraws c.instr then freeBelow (2 ^ (64 * (bnLen s p c.instr + 1))) (updDie c.at_.die (fun x => { x with drbgOn := true }) s)
      else (0, s)) := by
    split
    · exact freeBelow_fresh (Fresh.updDie hs fun _ => rfl)
    · exact hs
  generalize (if bnDraws c.instr then freeBelow (2 ^ (64 * (bnLen s p c.instr + 1))) (updDie c.at_.die (fun x => { x with drbgOn := true }) s)
      else (0, s)) = u at h ⊢
  obtain ⟨r, t⟩ := u
  dsimp only
  split
  · exact skipBn_fresh h
  · rename_i ws e _
    have h2 := Fresh.fold (a := s₀) (f := fun s (w : Nat × Nat) => updSlot p w.1 (fun x => { x with value := w.2, valid := true }) s)
      (fun _ _ h => updSlot_fresh h) ws h
    refine Fresh.ite ?_ (logJob_fresh ?_)
    all_goals
      split
      · exact putScalar_fresh h2
      · exact h2

theorem listFailure_fresh {s₀ s : State} {d : DieIx} {structure_ row : Nat} (hs : Fresh s₀ s) : Fresh s₀ (listFailure d structure_ row s) := by
  unfold listFailure
  with_reducible repeat' first | assumption | refine Fresh.ite ?_ ?_ | refine Fresh.upd ?_ rfl (Nat.le_refl _)

theorem parityFail_fresh {s₀ s : State} {op : Nat} {e : Ev} {detail : Nat} {mark : State → State}
    (hm : ∀ t, Fresh s₀ t → Fresh s₀ (mark t)) (hs : Fresh s₀ s) : Fresh s₀ (parityFail op e detail mark s) := by
  unfold parityFail
  split
  · exact hs
  · split
    · exact hs
    · exact settleDies_fresh (quenchJob_fresh (logJob_fresh (hm _ hs)))

theorem poisonReg_fresh {s₀ s : State} {d : DieIx} {l : RegLoc} (hs : Fresh s₀ s) : Fresh s₀ (poisonReg d l s) := by
  unfold poisonReg
  with_reducible repeat' first | assumption | refine poisonDest_fresh ?_

theorem checkFail_fresh {s₀ s : State} {die : DieIx} {structure_ : Nat} (hs : Fresh s₀ s) : Fresh s₀ (checkFail die structure_ s) := by
  unfold checkFail
  with_reducible repeat' first | assumption | refine deviceFail_fresh ?_ | refine listFailure_fresh ?_

theorem updBist_fresh {s₀ s : State} {f : Bist → Bist} (hs : Fresh s₀ s) : Fresh s₀ (updBist f s) := by
  unfold updBist
  with_reducible repeat' first | assumption | refine Fresh.upd ?_ rfl (Nat.le_refl _)

theorem holdLoc_fresh {s₀ s : State} {e : Nat × Nat × Nat} (hs : Fresh s₀ s) : Fresh s₀ (holdLoc e s) := by
  unfold holdLoc
  with_reducible repeat' first
    | assumption | refine Fresh.ite ?_ ?_ | refine holdOutRow_fresh ?_ | refine holdOutStack_fresh ?_ | refine listFailure_fresh ?_

theorem listFailures_fresh {s₀ s : State} {l : List BistEntry} (hs : Fresh s₀ s) : Fresh s₀ (listFailures l s) := by
  unfold listFailures
  with_reducible repeat' first | assumption | refine listFailure_fresh ?_ | refine Fresh.fold (fun _ _ _ => ?_) _ ?_

theorem applyRepairs_fresh {s₀ s : State} {repaired : List (Nat × Nat × Nat)} (hs : Fresh s₀ s) : Fresh s₀ (applyRepairs repaired s) := by
  unfold applyRepairs
  with_reducible repeat' first
    | assumption | refine Fresh.updDie ?_ (fun _ => rfl) | refine updBist_fresh ?_ | refine Fresh.fold (fun _ _ _ => ?_) _ ?_

theorem noRecord_fresh {s₀ s : State} {status : Nat} (hs : Fresh s₀ s) : Fresh s₀ (noRecord status s) := by
  unfold noRecord
  with_reducible repeat' first | assumption | refine logAt_fresh ?_ | refine updBist_fresh ?_ | refine Fresh.upd ?_ rfl (Nat.le_refl _)

theorem takeRecord_fresh {s₀ s : State} {b body : List Byte} (hs : Fresh s₀ s) : Fresh s₀ (takeRecord b body s) := by
  unfold takeRecord
  with_reducible repeat' first
    | assumption | refine Fresh.ite ?_ ?_ | refine deviceFail_fresh ?_ | refine updBist_fresh ?_ | refine holdLoc_fresh ?_
    | refine Fresh.fold (fun _ _ _ => ?_) _ ?_ | refine Fresh.upd ?_ rfl (Nat.le_refl _)

theorem beginClear_fresh {s₀ s : State} (hs : Fresh s₀ s) : Fresh s₀ (beginClear s) := by
  unfold beginClear
  with_reducible repeat' first | assumption | refine freeBytes_fresh ?_ | refine updBist_fresh ?_

theorem startShutdown_fresh {s₀ s : State} (hs : Fresh s₀ s) : FreshE s₀ (startShutdown s) := by
  unfold startShutdown
  with_reducible repeat' first | assumption | exact FreshE.error | refine FreshE.ok ?_ | refine FreshE.ite ?_ ?_ | refine updBist_fresh ?_

theorem updBoot_fresh {s₀ s : State} {f : Boot → Boot} (hs : Fresh s₀ s) : Fresh s₀ (updBoot f s) := hs.upd rfl (Nat.le_refl _)

/-- Reset leaves nothing in flight and keeps the next identifier (R509, log 12). -/
theorem intoReset_fresh {s₀ s : State} {pwrok resetLow : Bool} {vcore : List Nat} (hs : Fresh s₀ s) : Fresh s₀ (intoReset pwrok resetLow vcore s) :=
  hs.within (Nat.le_refl _) (fun d o ho => by
    have : dieOf (intoReset pwrok resetLow vcore s) d = Die.zero := by simp [dieOf, intoReset, resetOf]
    rw [this] at ho
    exact absurd ho List.not_mem_nil) fun r hr => absurd hr List.not_mem_nil

theorem deriveIdentity_fresh {s₀ s : State} (hs : Fresh s₀ s) : Fresh s₀ (deriveIdentity s) := by
  unfold deriveIdentity
  with_reducible repeat' first | assumption | refine Fresh.upd ?_ rfl (Nat.le_refl _)

theorem runImage_fresh {s₀ s : State} {b : List Byte} (hs : Fresh s₀ s) : Fresh s₀ (runImage b s) := by
  unfold runImage
  with_reducible repeat' first
    | assumption | refine Fresh.ite ?_ ?_ | refine applyBrake_fresh ?_ | refine updBoot_fresh ?_ | refine Fresh.upd ?_ rfl (Nat.le_refl _)

theorem startVerification_fresh {s₀ s : State} {port : HostId} {length : Nat} (hs : Fresh s₀ s) : FreshE s₀ (startVerification port length s) := by
  unfold startVerification
  with_reducible repeat' first | assumption | exact FreshE.error | refine FreshE.ok ?_ | refine FreshE.ite ?_ ?_ | refine updBoot_fresh ?_

theorem retentionFail_fresh {s₀ s : State} {e : BistEntry} (hs : Fresh s₀ s) : Fresh s₀ (retentionFail e s) := by
  unfold retentionFail
  with_reducible repeat' first
    | assumption | refine count_fresh ?_ | refine logAt_fresh ?_ | refine deviceFail_fresh ?_ | refine holdOutRow_fresh ?_
    | refine holdOutStack_fresh ?_ | refine listFailure_fresh ?_ | split

theorem readEffect_fresh {s₀ s : State} {i k : Nat} (hs : Fresh s₀ s) : Fresh s₀ (readEffect i k s) := by
  unfold readEffect
  with_reducible repeat' first | assumption | refine Fresh.ite ?_ ?_ | refine Fresh.upd ?_ rfl (Nat.le_refl _)

theorem registerMember_fresh {s₀ s : State} {p : PartIx} (hs : Fresh s₀ s) : Fresh s₀ (registerMember p s) := by
  unfold registerMember
  with_reducible repeat' first | assumption | refine sendMsg_fresh ?_ | split

theorem beginCommand_fresh {s₀ s : State} {p : PartIx} {c : PCmd} (hs : Fresh s₀ s) : Fresh s₀ (beginCommand p c s) := by
  unfold beginCommand
  with_reducible repeat' first | assumption | refine Fresh.updPart ?_

theorem startCreate_fresh {s₀ s : State} {p : PartIx} {slotHeld : Bool} (hs : Fresh s₀ s) : FreshE s₀ (startCreate p slotHeld s) := by
  unfold startCreate
  exact FreshE.ite trivial (FreshE.ite trivial (FreshE.ite trivial (registerMember_fresh (beginCommand_fresh
    (Fresh.fold (fun _ _ h => h.updDie (f := assignDie p) fun _ => rfl) _ hs)))))

theorem startStart_fresh {s₀ s : State} {p : PartIx} (hs : Fresh s₀ s) : FreshE s₀ (startStart p s) := by
  unfold startStart
  with_reducible repeat' first | assumption | exact FreshE.error | refine FreshE.ok ?_ | refine FreshE.ite ?_ ?_ | refine beginCommand_fresh ?_

theorem startStop_fresh {s₀ s : State} {p : PartIx} (hs : Fresh s₀ s) : FreshE s₀ (startStop p s) := by
  unfold startStop
  with_reducible repeat' first
    | assumption | exact FreshE.error | refine FreshE.ok ?_ | refine FreshE.ite ?_ ?_ | refine quenchPartition_fresh ?_
    | refine beginCommand_fresh ?_

theorem coldClear_fresh {s₀ s : State} {p : PartIx} (hs : Fresh s₀ s) : Fresh s₀ (coldClear p s) := by
  unfold coldClear
  with_reducible repeat' first
    | assumption | refine Fresh.updDie ?_ (fun _ => rfl) | refine Fresh.updPart ?_ | refine zeroPartSecrets_fresh ?_ | refine closeAll_fresh ?_
    | refine updTwin_fresh ?_ | refine Fresh.fold (fun _ _ _ => ?_) _ ?_ | refine Fresh.upd ?_ rfl (Nat.le_refl _)

theorem startColdStop_fresh {s₀ s : State} {p : PartIx} (hs : Fresh s₀ s) : FreshE s₀ (startColdStop p s) := by
  unfold startColdStop
  with_reducible repeat' first
    | assumption | exact FreshE.error | refine FreshE.ok ?_ | refine quenchPartition_fresh ?_ | refine beginCommand_fresh ?_
    | refine coldClear_fresh ?_ | split

theorem startDestroy_fresh {s₀ s : State} {p : PartIx} (hs : Fresh s₀ s) : FreshE s₀ (startDestroy p s) := by
  unfold startDestroy
  with_reducible repeat' first
    | assumption | exact FreshE.error | refine FreshE.ok ?_ | refine FreshE.ite ?_ ?_ | refine beginCommand_fresh ?_ | refine coldClear_fresh ?_

theorem partCommand_fresh {s₀ s : State} {p : PartIx} {n : Nat} {c : Cls} {slotHeld : Bool}
    (hs : Fresh s₀ s) : FreshE s₀ (partCommand p n c slotHeld s) := by
  unfold partCommand
  with_reducible repeat' first
    | assumption | exact FreshE.error | refine startCreate_fresh ?_ | refine startStart_fresh ?_ | refine startStop_fresh ?_
    | refine startColdStop_fresh ?_ | refine startDestroy_fresh ?_ | split

theorem releaseDies_fresh {s₀ s : State} {p : PartIx} (hs : Fresh s₀ s) : Fresh s₀ (releaseDies p s) := by
  unfold releaseDies
  with_reducible repeat' first | assumption | refine Fresh.updDie ?_ (fun _ => rfl) | refine Fresh.fold (fun _ _ _ => ?_) _ ?_

theorem endCommand_fresh {s₀ s : State} {p : PartIx} {st : PState} (hs : Fresh s₀ s) : Fresh s₀ (endCommand p st s) := by
  unfold endCommand
  with_reducible repeat' first | assumption | refine Fresh.updPart ?_

theorem inRange_fresh {s₀ s : State} {c : Bool} (hs : Fresh s₀ s) : FreshE s₀ (inRange c s) := by
  unfold inRange
  with_reducible repeat' first | assumption | exact FreshE.error | refine FreshE.ok ?_ | refine FreshE.ite ?_ ?_

theorem whenStopped_fresh {s₀ s : State} {range stopped : Bool} (hs : Fresh s₀ s) : FreshE s₀ (whenStopped range stopped s) := by
  unfold whenStopped
  with_reducible repeat' first | assumption | exact FreshE.error | refine FreshE.ok ?_ | refine FreshE.ite ?_ ?_

theorem write2_fresh {s₀ s : State} {i k v : Nat} (hs : Fresh s₀ s) : FreshE s₀ (write2 i k v s) := by
  unfold write2
  with_reducible repeat' first
    | assumption | refine FreshE.ite ?_ ?_ | refine Fresh.updPart ?_ | refine updHearth_fresh ?_ | refine inRange_fresh ?_
    | refine whenStopped_fresh ?_

theorem updFabric_fresh {s₀ s : State} {f : Fabric → Fabric}
    (hf : ∀ x, (f x).requests = x.requests) (hs : Fresh s₀ s) : Fresh s₀ (updFabric f s) := by
  unfold updFabric
  exact hs.upd (hf _) (Nat.le_refl _)

theorem writeEpoch_fresh {s₀ s : State} {k v : Nat} (hs : Fresh s₀ s) : FreshE s₀ (writeEpoch k v s) := by
  unfold writeEpoch
  with_reducible repeat' first
    | assumption | exact FreshE.error | refine FreshE.ite ?_ ?_ | refine inRange_fresh ?_ | refine updFabric_fresh (fun _ => rfl) ?_

theorem writePort_fresh {s₀ s : State} {n : PortIx} {v : Nat} (hs : Fresh s₀ s) : FreshE s₀ (writePort n v s) := by
  unfold writePort
  with_reducible repeat' first | assumption | refine Fresh.updPort ?_ | refine inRange_fresh ?_

theorem onPart_fresh {s₀ : State} {v : Nat} {f : PartIx → Except Nat State} (hf : ∀ p, FreshE s₀ (f p)) : FreshE s₀ (onPart v f) := by
  unfold onPart
  split
  · exact hf _
  · trivial

theorem writeTwin_fresh {s₀ s : State} {x : Extra} {k v : Nat} (hs : Fresh s₀ s) : FreshE s₀ (writeTwin x k v s) := by
  unfold writeTwin
  with_reducible repeat' first
    | assumption | exact FreshE.error | refine FreshE.ite ?_ ?_ | refine Fresh.updPart ?_ | refine updTwin_fresh ?_ | refine startPair_fresh ?_
    | refine startDetach_fresh ?_ | refine startPromote_fresh ?_ | refine startFill_fresh ?_ | refine inRange_fresh ?_ | refine whenStopped_fresh ?_
    | refine onPart_fresh (fun _ => ?_)

theorem write3_fresh {s₀ s : State} {x : Extra} {i k v : Nat} (hs : Fresh s₀ s) : FreshE s₀ (write3 x i k v s) := by
  unfold write3
  with_reducible repeat' first
    | assumption | refine FreshE.ite ?_ ?_ | refine updHearth_fresh ?_ | refine inRange_fresh ?_ | refine whenStopped_fresh ?_
    | refine updFabric_fresh (fun _ => rfl) ?_ | refine writeEpoch_fresh ?_ | refine writePort_fresh ?_ | refine writeTwin_fresh ?_
    | refine Fresh.upd ?_ rfl (Nat.le_refl _)

theorem advanceRollback_fresh {s₀ s : State} {x : Extra} {v : Nat} (hs : Fresh s₀ s) : FreshE s₀ (advanceRollback x v s) := by
  unfold advanceRollback
  exact FreshE.ite trivial (hs.upd rfl (Nat.le_refl _))

theorem drawImportKey_fresh {s₀ s : State} (hs : Fresh s₀ s) : FreshP s₀ (drawImportKey s) :=
  Fresh.upd (freeBelow_fresh (m := 2 ^ 64 - 1) (freeBelow_fresh (m := p384.order - 1) hs)) rfl (Nat.le_refl _)

theorem requestReport_fresh {s₀ s : State} {c : Cls} {w : Nat} {b : List Byte} (hs : Fresh s₀ s) : FreshE s₀ (requestReport c w b s) := by
  unfold requestReport
  with_reducible repeat' first
    | assumption | (intro x; subst x) | lift_lets -underBinder | exact FreshE.error | refine FreshE.ok ?_ | refine drawImportKey_fresh ?_ | split
    | refine Fresh.upd ?_ rfl (Nat.le_refl _)

theorem writeEncryption_fresh {s₀ s : State} {n : PortIx} {v : Nat} (hs : Fresh s₀ s) : FreshE s₀ (writeEncryption n v s) := by
  unfold writeEncryption
  with_reducible repeat' first
    | assumption | exact FreshE.error | refine FreshE.ok ?_ | refine FreshE.ite ?_ ?_ | refine Fresh.ite ?_ ?_ | refine Fresh.updPort ?_
    | refine takeDown_fresh ?_

theorem write4_fresh {s₀ s : State} {x : Extra} {c : Cls} {w i k : Nat} {b : List Byte} (hs : Fresh s₀ s) : FreshE s₀ (write4 x c w i k b s) := by
  unfold write4
  with_reducible repeat' first
    | assumption | refine FreshE.ite ?_ ?_ | refine Fresh.updPort ?_ | refine inRange_fresh ?_ | refine advanceRollback_fresh ?_
    | refine requestReport_fresh ?_ | refine writeEncryption_fresh ?_

theorem writeEntry_fresh {s₀ s : State} {p : PartIx} {b : List Byte} (hs : Fresh s₀ s) : FreshE s₀ (writeEntry p b s) := by
  unfold writeEntry
  with_reducible repeat' first
    | assumption | exact FreshE.error | refine FreshE.ok ?_ | refine FreshE.ite ?_ ?_ | refine Fresh.ite ?_ ?_ | refine Fresh.updPart ?_
    | refine registerMember_fresh ?_

theorem writeEviction_fresh {s₀ s : State} {p : PartIx} {tag : Nat} (hs : Fresh s₀ s) : FreshE s₀ (writeEviction p tag s) := by
  unfold writeEviction
  with_reducible repeat' first | assumption | exact FreshE.error | refine FreshE.ok ?_ | refine evictSet_fresh ?_ | split

theorem write5_fresh {s₀ s : State} {x : Extra} {c : Cls} {i k : Nat} {b : List Byte} (hs : Fresh s₀ s) : FreshE s₀ (write5 x c i k b s) := by
  unfold write5
  with_reducible repeat' first
    | assumption | refine FreshE.ite ?_ ?_ | refine Fresh.updPart ?_ | refine partCommand_fresh ?_ | refine inRange_fresh ?_
    | refine whenStopped_fresh ?_ | refine writeEntry_fresh ?_ | refine writeEviction_fresh ?_ | refine Fresh.upd ?_ rfl (Nat.le_refl _)

theorem writeQuench_fresh {s₀ s : State} {c : Cls} {restart : Bool} {v : Nat} (hs : Fresh s₀ s) : FreshE s₀ (writeQuench c restart v s) := by
  unfold writeQuench
  with_reducible repeat' first | assumption | exact FreshE.error | refine FreshE.ok ?_ | refine FreshE.ite ?_ ?_ | refine quenchPartition_fresh ?_

theorem write6_fresh {s₀ s : State} {c : Cls} {i k v : Nat} (hs : Fresh s₀ s) : FreshE s₀ (write6 c i k v s) := by
  unfold write6
  with_reducible repeat' first
    | assumption | exact FreshE.error | refine FreshE.ite ?_ ?_ | refine quenchDevice_fresh ?_ | refine updBist_fresh ?_
    | refine startShutdown_fresh ?_ | refine inRange_fresh ?_ | refine writeQuench_fresh ?_ | refine Fresh.upd ?_ rfl (Nat.le_refl _)

theorem writeObj_fresh {s₀ s : State} {x : Extra} {via : Via} {c : Cls} {w i k : Nat} {b : List Byte}
    (hs : Fresh s₀ s) : FreshE s₀ (writeObj x via c w i k b s) := by
  unfold writeObj
  with_reducible repeat' first
    | assumption | exact FreshE.error | refine startVerification_fresh ?_ | refine write2_fresh ?_ | refine write3_fresh ?_ | refine write4_fresh ?_
    | refine write5_fresh ?_ | refine write6_fresh ?_ | split

theorem commitDomain_fresh {s₀ s : State} {i k : Nat} {b : List Byte} (hs : Fresh s₀ s) : FreshE s₀ (commitDomain i k b s) := by
  unfold commitDomain
  with_reducible repeat' first
    | assumption | exact FreshE.error | refine FreshE.ok ?_ | refine FreshE.ite ?_ ?_ | refine updBist_fresh ?_ | refine inRange_fresh ?_
    | refine whenStopped_fresh ?_ | refine updFabric_fresh (fun _ => rfl) ?_

theorem respond_fresh {s₀ s : State} {r : FpReq} {a : Ans} (hs : Fresh s₀ s) : Fresh s₀ (respond r a s) := by
  unfold respond
  with_reducible repeat' first | assumption | refine emit_fresh ?_

theorem closeSession_fresh {s₀ s : State} {r : FpReq} (hs : Fresh s₀ s) : Fresh s₀ (closeSession r s) := by
  unfold closeSession
  with_reducible repeat' first | assumption | refine Fresh.upd ?_ rfl (Nat.le_refl _)

theorem putSession_fresh {s₀ s : State} {x : FpSession} {r : FpReq} (hs : Fresh s₀ s) : Fresh s₀ (putSession x r s) := by
  unfold putSession
  with_reducible repeat' first | assumption | refine closeSession_fresh ?_ | refine Fresh.upd ?_ rfl (Nat.le_refl _)

theorem readSegment_fresh {s₀ s : State} {r : FpReq} {v : List Byte} (hs : Fresh s₀ s) : FreshP s₀ (readSegment r v s) :=
  Fresh.ite (closeSession_fresh hs) (putSession_fresh hs)

theorem segReadObj_fresh {s₀ s : State} {c : Cls} {r : FpReq} (hs : Fresh s₀ s) : FreshP s₀ (segReadObj c r s) := by
  unfold segReadObj
  repeat' first
    | exact hs | exact closeSession_fresh hs | exact putSession_fresh hs | exact readSegment_fresh (readEffect_fresh hs)
    | exact readSegment_fresh hs | split

theorem writeSegment_fresh {s₀ s : State} {r : FpReq} {x : FpSession} (hs : Fresh s₀ s) : FreshP s₀ (writeSegment r x s) := by
  unfold writeSegment
  dsimp only
  split
  · exact closeSession_fresh hs
  · split
    · have h := commitDomain_fresh (i := r.index) (k := r.sub) (b := x.value ++ r.data) (closeSession_fresh (r := r) hs)
      split
      · rename_i e
        exact FreshE.of e h
      · exact closeSession_fresh hs
    · exact putSession_fresh hs

theorem segWriteObj_fresh {s₀ s : State} {o : ObjRow} {r : FpReq} (hs : Fresh s₀ s) : FreshP s₀ (segWriteObj o r s) := by
  unfold segWriteObj
  repeat' first | exact hs | exact closeSession_fresh hs | exact writeSegment_fresh hs | split

theorem writeReq_fresh {s₀ s : State} {x : Extra} {c : Cls} {o : ObjRow} {r : FpReq} (hs : Fresh s₀ s) : FreshP s₀ (writeReq x c o r s) := by
  unfold writeReq
  split
  · exact hs
  · split
    · rename_i e
      exact FreshE.of e (writeObj_fresh hs)
    · exact hs

theorem onObject_fresh {s₀ s : State} {x : Extra} {c : Cls} {o : ObjRow} {r : FpReq} (hs : Fresh s₀ s) : FreshP s₀ (onObject x c o r s) := by
  unfold onObject
  dsimp only
  have hw : ∀ l : List DieIx, Fresh s₀ (l.foldl (fun s d => wakeDie d s) s) := fun l => Fresh.fold (fun _ _ h => wakeDie_fresh h) l hs
  repeat' first
    | exact hs | exact readEffect_fresh (hw _) | exact writeReq_fresh (hw _) | exact segReadObj_fresh (hw _) | exact segWriteObj_fresh (hw _)
    | split

theorem answerReq_fresh {s₀ s : State} {x : Extra} {c : Cls} {r : FpReq} (hs : Fresh s₀ s) : FreshP s₀ (answerReq x c r s) := by
  unfold answerReq
  repeat' first | exact hs | exact onObject_fresh hs | split

theorem forwardReq_fresh {s₀ s : State} {r : FpReq} (hs : Fresh s₀ s) : Fresh s₀ (forwardReq r s) := by
  unfold forwardReq
  with_reducible repeat' first | assumption | refine sendMsg_fresh ?_ | refine respond_fresh ?_ | split

theorem serveReq_fresh {s₀ s : State} {x : Extra} {r : FpReq} (hs : Fresh s₀ s) : Fresh s₀ (serveReq x r s) := by
  unfold serveReq
  with_reducible repeat' first
    | assumption | refine count_fresh ?_ | refine respond_fresh ?_ | refine answerReq_fresh ?_ | refine forwardReq_fresh ?_ | split

theorem mctp_fresh {s₀ s : State} {via : Via} {b : List Byte} (hs : Fresh s₀ s) : Fresh s₀ (mctp via b s) := by
  unfold mctp
  with_reducible repeat' first | assumption | refine Fresh.ite ?_ ?_ | refine emit_fresh ?_

theorem startAllTongs_fresh {s₀ s : State} (hs : Fresh s₀ s) : Fresh s₀ (startAllTongs s) := by
  unfold startAllTongs
  exact Fresh.fold (fun _ _ h => startTongs_fresh h) _ hs

/-! ### The commands and the next identifier -/

theorem execPwrokRise_fresh (s : State) : FreshR s (execPwrokRise s) := by
  unfold execPwrokRise
  refine FreshR.ok ?_
  with_reducible repeat' first
    | assumption | exact Fresh.refl _ | refine Fresh.ite ?_ ?_ | (intro x; subst x) | lift_lets -underBinder | refine emit_fresh ?_
    | refine Fresh.fold (fun _ _ _ => ?_) _ ?_ | refine Fresh.upd ?_ rfl (Nat.le_refl _)

theorem execPwrokFall_fresh (s : State) : FreshR s (execPwrokFall s) := by
  unfold execPwrokFall
  refine FreshR.ok ?_
  with_reducible repeat' first | assumption | exact Fresh.refl _ | refine Fresh.ite ?_ ?_ | refine intoReset_fresh ?_

theorem execSysResetAssert_fresh (s : State) : FreshR s (execSysResetAssert s) := by
  unfold execSysResetAssert
  refine FreshR.ok ?_
  with_reducible repeat' first
    | assumption | exact Fresh.refl _ | refine Fresh.ite ?_ ?_ | refine intoReset_fresh ?_ | refine Fresh.upd ?_ rfl (Nat.le_refl _)

theorem execSysResetRelease_fresh (s : State) : FreshR s (execSysResetRelease s) := by
  unfold execSysResetRelease
  refine FreshR.ok ?_
  with_reducible repeat' first
    | assumption | exact Fresh.refl _ | refine Fresh.ite ?_ ?_ | (intro x; subst x) | lift_lets -underBinder
    | refine updBoot_fresh ?_ | refine Fresh.upd ?_ rfl (Nat.le_refl _)

theorem execSelfCheckComplete_fresh {r : SelfCheck} (s : State) : FreshR s (execSelfCheckComplete r s) := by
  unfold execSelfCheckComplete
  refine FreshR.ok ?_
  with_reducible repeat' first
    | assumption | exact Fresh.refl _ | refine Fresh.ite ?_ ?_ | (intro x; subst x) | lift_lets -underBinder | refine deviceFail_fresh ?_
    | refine deriveIdentity_fresh ?_ | refine updBoot_fresh ?_ | split | refine Fresh.upd ?_ rfl (Nat.le_refl _)

theorem execPerst_fresh {port : HostId} {asserted : Bool} (s : State) : FreshR s (execPerst port asserted s) := by
  unfold execPerst
  refine FreshR.ok ?_
  with_reducible repeat' first
    | assumption | exact Fresh.refl _ | refine Fresh.ite ?_ ?_ | (intro x; subst x) | lift_lets -underBinder | refine dropLink_fresh ?_
    | refine Fresh.upd ?_ rfl (Nat.le_refl _)

theorem execLinkDown_fresh {a : BenchPort} (s : State) : FreshR s (execLinkDown a s) := by
  unfold execLinkDown
  refine FreshR.ok ?_
  with_reducible repeat' first
    | assumption | exact Fresh.refl _ | refine dropLink_fresh ?_ | refine resetParts_fresh ?_ | split | refine Fresh.upd ?_ rfl (Nat.le_refl _)

theorem execFunctionLevelReset_fresh {a : BenchPort} {fn : Nat} (s : State) : FreshR s (execFunctionLevelReset a fn s) := by
  unfold execFunctionLevelReset
  refine FreshR.ok ?_
  with_reducible repeat' first
    | assumption | exact Fresh.refl _ | refine Fresh.ite ?_ ?_ | (intro x; subst x) | lift_lets -underBinder | refine Fresh.updHost ?_
    | refine resetParts_fresh ?_ | refine resetMembers_fresh ?_

theorem execVerificationComplete_fresh {stagingParity : Bool} (s : State) : FreshR s (execVerificationComplete stagingParity s) := by
  unfold execVerificationComplete
  refine FreshR.ok ?_
  with_reducible repeat' first
    | assumption | exact Fresh.refl _ | refine Fresh.ite ?_ ?_ | (intro x; subst x) | lift_lets -underBinder | refine runImage_fresh ?_
    | refine deviceFail_fresh ?_ | refine updBoot_fresh ?_ | split | refine Fresh.upd ?_ rfl (Nat.le_refl _)

theorem execRepairRecord_fresh (s : State) : FreshR s (execRepairRecord s) := by
  unfold execRepairRecord
  refine FreshR.ok ?_
  with_reducible repeat' first
    | assumption | exact Fresh.refl _ | refine Fresh.ite ?_ ?_ | refine noRecord_fresh ?_ | refine takeRecord_fresh ?_ | split | refine Fresh.upd ?_ rfl (Nat.le_refl _)

theorem execRepairRecordWaitExpiry_fresh (s : State) : FreshR s (execRepairRecordWaitExpiry s) := by
  unfold execRepairRecordWaitExpiry
  refine FreshR.ok ?_
  with_reducible repeat' first
    | assumption | exact Fresh.refl _ | refine Fresh.ite ?_ ?_ | refine noRecord_fresh ?_ | refine Fresh.upd ?_ rfl (Nat.le_refl _)

theorem execReady_fresh {failures : List BistEntry} (s : State) : FreshR s (execReady failures s) := by
  unfold execReady
  refine FreshR.ok ?_
  with_reducible repeat' first
    | assumption | exact Fresh.refl _ | refine Fresh.ite ?_ ?_ | (intro x; subst x) | lift_lets -underBinder | refine retentionFail_fresh ?_
    | refine updBoot_fresh ?_ | refine Fresh.fold (fun _ _ _ => ?_) _ ?_ | refine Fresh.upd ?_ rfl (Nat.le_refl _)

theorem execThermtrip_fresh {die : DieIx} (s : State) : FreshR s (execThermtrip die s) := by
  unfold execThermtrip
  refine FreshR.ok ?_
  with_reducible repeat' first
    | assumption | exact Fresh.refl _ | refine Fresh.ite ?_ ?_ | (intro x; subst x) | lift_lets -underBinder | refine deviceFail_fresh ?_
    | refine Fresh.upd ?_ rfl (Nat.le_refl _)

theorem execQuenchInput_fresh {lowNs : Nat} (s : State) : FreshR s (execQuenchInput lowNs s) := by
  unfold execQuenchInput
  refine FreshR.ok ?_
  with_reducible repeat' first | assumption | exact Fresh.refl _ | refine Fresh.ite ?_ ?_ | refine declareLost_fresh ?_ | refine quenchDevice_fresh ?_

theorem execPwrbrkAssert_fresh (s : State) : FreshR s (execPwrbrkAssert s) := by
  unfold execPwrbrkAssert
  refine FreshR.ok ?_
  with_reducible repeat' first
    | assumption | exact Fresh.refl _ | refine Fresh.ite ?_ ?_ | (intro x; subst x) | lift_lets -underBinder | refine applyBrake_fresh ?_
    | refine Fresh.upd ?_ rfl (Nat.le_refl _)

theorem execPwrbrkDeassert_fresh (s : State) : FreshR s (execPwrbrkDeassert s) := by
  unfold execPwrbrkDeassert
  refine FreshR.ok ?_
  with_reducible repeat' first | assumption | exact Fresh.refl _ | refine Fresh.upd ?_ rfl (Nat.le_refl _)

theorem execDroop_fresh {die : DieIx} (s : State) : FreshR s (execDroop die s) := by
  unfold execDroop
  refine FreshR.ok ?_
  with_reducible repeat' first
    | assumption | exact Fresh.refl _ | refine Fresh.updDie ?_ (fun _ => rfl) | refine count_fresh ?_
    | refine Fresh.upd ?_ rfl (Nat.le_refl _)

theorem execSyncInEdge_fresh {offsetNs : Int} {sinceNs : Nat} (s : State) : FreshR s (execSyncInEdge offsetNs sinceNs s) := by
  unfold execSyncInEdge
  refine FreshR.ok ?_
  with_reducible repeat' first
    | assumption | exact Fresh.refl _ | refine Fresh.ite ?_ ?_ | (intro x; subst x) | lift_lets -underBinder | refine boundary_fresh ?_
    | refine updHearth_fresh ?_ | refine Fresh.upd ?_ rfl (Nat.le_refl _)

theorem execSyncFreeRun_fresh (s : State) : FreshR s (execSyncFreeRun s) := by
  unfold execSyncFreeRun
  refine FreshR.ok ?_
  with_reducible repeat' first
    | assumption | exact Fresh.refl _ | refine Fresh.ite ?_ ?_ | refine logAt_fresh ?_ | refine updHearth_fresh ?_ | refine Fresh.upd ?_ rfl (Nat.le_refl _)

theorem execGovernorInterval_fresh {reports : List DieReport} (s : State) : FreshR s (execGovernorInterval reports s) := by
  unfold execGovernorInterval
  refine FreshR.ok ?_
  with_reducible repeat' first | assumption | exact Fresh.refl _ | refine Fresh.ite ?_ ?_ | refine governor_fresh ?_

theorem execAdmissionBoundary_fresh (s : State) : FreshR s (execAdmissionBoundary s) := by
  unfold execAdmissionBoundary
  refine FreshR.ok ?_
  with_reducible repeat' first | assumption | exact Fresh.refl _ | refine Fresh.ite ?_ ?_ | refine boundary_fresh ?_

theorem execIdleEntry_fresh {die : DieIx} {idleUs : Nat} (s : State) : FreshR s (execIdleEntry die idleUs s) := by
  unfold execIdleEntry
  refine FreshR.ok ?_
  with_reducible repeat' first
    | assumption | exact Fresh.refl _ | refine Fresh.ite ?_ ?_ | refine Fresh.updDie ?_ (fun _ => rfl)
    | refine Fresh.upd ?_ rfl (Nat.le_refl _)

theorem execAnchorCompare_fresh {point : Nat} {primary checker : List Byte} (s : State) : FreshR s (execAnchorCompare point primary checker s) := by
  unfold execAnchorCompare
  refine FreshR.ok ?_
  with_reducible repeat' first | assumption | exact Fresh.refl _ | refine Fresh.ite ?_ ?_ | refine deviceFail_fresh ?_

theorem execAnchorCompareTimeout_fresh {point : Nat} (s : State) : FreshR s (execAnchorCompareTimeout point s) := by
  unfold execAnchorCompareTimeout
  refine FreshR.ok ?_
  with_reducible repeat' first | assumption | exact Fresh.refl _ | refine Fresh.ite ?_ ?_ | refine deviceFail_fresh ?_

theorem execPartitionQuenchComplete_fresh {p : PartIx} (s : State) : FreshR s (execPartitionQuenchComplete p s) := by
  unfold execPartitionQuenchComplete
  refine FreshR.ok ?_
  split
  · exact .refl s
  · refine .ite (.refl s) ?_
    refine Fresh.fold (fun _ _ h => Fresh.fold (fun _ _ h => readQueue_fresh h) _ h) _ ?_
    refine Fresh.fold (fun _ _ h => ?_) _ (.updPart (.refl s))
    exact h.updDie fun _ => rfl

theorem execScratchpadParity_fresh {die : DieIx} {op row : Nat} (s : State) : FreshR s (execScratchpadParity die op row s) := by
  unfold execScratchpadParity
  refine FreshR.ok ?_
  with_reducible repeat' first
    | assumption | exact Fresh.refl _ | refine parityFail_fresh (fun _ _ => ?_) ?_ | refine poisonHandle_fresh ?_ | refine holdOutRow_fresh ?_
    | split | refine Fresh.upd ?_ rfl (Nat.le_refl _)

theorem execClusterBufferParity_fresh {die : DieIx} {cluster : Fin 8} {row op : Nat}
    (s : State) : FreshR s (execClusterBufferParity die cluster row op s) := by
  unfold execClusterBufferParity
  refine FreshR.ok ?_
  with_reducible repeat' first
    | assumption | exact Fresh.refl _ | refine parityFail_fresh (fun _ _ => ?_) ?_ | refine count_fresh ?_ | refine listFailure_fresh ?_

theorem execRegisterParity_fresh {die : DieIx} {loc : RegLoc} {op : Nat} (s : State) : FreshR s (execRegisterParity die loc op s) := by
  unfold execRegisterParity
  refine FreshR.ok ?_
  with_reducible repeat' first | assumption | exact Fresh.refl _ | refine parityFail_fresh (fun _ _ => ?_) ?_ | refine poisonReg_fresh ?_

theorem execKeyRowParity_fresh {die : DieIx} {op row : Nat} (s : State) : FreshR s (execKeyRowParity die op row s) := by
  unfold execKeyRowParity
  refine FreshR.ok ?_
  with_reducible repeat' first
    | assumption | exact Fresh.refl _ | refine Fresh.ite ?_ ?_ | (intro x; subst x) | lift_lets -underBinder | refine holdOutStack_fresh ?_
    | refine updKs_fresh ?_ | refine sendTwin_fresh ?_ | refine settleDies_fresh ?_ | refine quenchJob_fresh ?_ | refine logJob_fresh ?_ | split
    | refine Fresh.upd ?_ rfl (Nat.le_refl _)

theorem execStoreParity_fresh {die : DieIx} {op row : Nat} (s : State) : FreshR s (execStoreParity die op row s) := by
  unfold execStoreParity
  refine FreshR.ok ?_
  with_reducible repeat' first | assumption | exact Fresh.refl _ | refine parityFail_fresh (fun _ _ => ?_) ?_ | refine holdOutStack_fresh ?_

theorem execControlParity_fresh {die : DieIx} {structure_ : Nat} (s : State) : FreshR s (execControlParity die structure_ s) := by
  unfold execControlParity
  refine FreshR.ok ?_
  with_reducible repeat' first | assumption | exact Fresh.refl _ | refine Fresh.ite ?_ ?_ | refine deviceFail_fresh ?_

theorem execEntropyFail_fresh {die : DieIx} (s : State) : FreshR s (execEntropyFail die s) := by
  unfold execEntropyFail
  refine FreshR.ok ?_
  with_reducible repeat' first | assumption | exact Fresh.refl _ | refine Fresh.ite ?_ ?_ | refine deviceFail_fresh ?_

theorem execClockCheck_fresh {die : DieIx} {ppm : Int} (s : State) : FreshR s (execClockCheck die ppm s) := by
  unfold execClockCheck
  refine FreshR.ok ?_
  with_reducible repeat' first | assumption | exact Fresh.refl _ | refine Fresh.ite ?_ ?_ | refine checkFail_fresh ?_

theorem execSupplyCheck_fresh {die : DieIx} {permyriad : Nat} (s : State) : FreshR s (execSupplyCheck die permyriad s) := by
  unfold execSupplyCheck
  refine FreshR.ok ?_
  with_reducible repeat' first | assumption | exact Fresh.refl _ | refine Fresh.ite ?_ ?_ | refine checkFail_fresh ?_

theorem execEyeMarginCheck_fresh {port : PortIx} {margin : Nat} (s : State) : FreshR s (execEyeMarginCheck port margin s) := by
  unfold execEyeMarginCheck
  refine FreshR.ok ?_
  with_reducible repeat' first
    | assumption | exact Fresh.refl _ | refine Fresh.ite ?_ ?_ | refine Fresh.updPort ?_ | refine Fresh.upd ?_ rfl (Nat.le_refl _)

theorem execQueueWindowWrite_fresh {port : HostId} {fn slot : Nat} {die : DieIx} {queue : QueueIx} {offset : Nat} {bytes : Option (List Byte)}
    (s : State) : FreshR s (execQueueWindowWrite port fn slot die queue offset bytes s) := by
  unfold execQueueWindowWrite
  refine FreshR.ok ?_
  split
  · exact .updHost (.refl s)
  · have written : ∀ bs : List Byte, Fresh s (updQueue die queue (fun x => { x with window := memPut x.window offset bs }) s) :=
      fun _ => Fresh.updQueue (.refl s)
    split
    · exact wakeDie_fresh (.ite (readQueue_fresh (written _)) (written _))
    · split
      · exact sendMsg_fresh (.refl s)
      · exact .refl s

theorem execNop_fresh {die : DieIx} {queue : QueueIx} (s : State) : FreshR s (execNop die queue s) := by
  unfold execNop
  refine FreshR.ok ?_
  with_reducible repeat' first | assumption | exact Fresh.refl _ | refine actPacket_fresh (fun _ _ _ => ?_) ?_

theorem execProgramLoad_fresh {die : DieIx} {queue : QueueIx} (s : State) : FreshR s (execProgramLoad die queue s) := by
  unfold execProgramLoad
  refine FreshR.ok ?_
  with_reducible repeat' first
    | assumption | exact Fresh.refl _ | refine Fresh.ite ?_ ?_ | (intro x; subst x) | lift_lets -underBinder
    | refine actPacket_fresh (fun _ _ _ => ?_) ?_ | refine refusePacket_fresh ?_ | refine holdQueue_fresh ?_ | split | refine Fresh.upd ?_ rfl (Nat.le_refl _)

theorem execProgramLoadComplete_fresh {die : DieIx} {queue : QueueIx} {image : List Byte}
    (s : State) : FreshR s (execProgramLoadComplete die queue image s) := by
  unfold execProgramLoadComplete
  refine FreshR.ok ?_
  with_reducible repeat' first
    | assumption | exact Fresh.refl _ | refine Fresh.ite ?_ ?_ | (intro x; subst x) | lift_lets -underBinder
    | refine Fresh.updDie ?_ (fun _ => rfl) | refine Fresh.updPart ?_ | refine refusePacket_fresh ?_
    | refine okPacket_fresh ?_ | refine allocPools_fresh ?_ | refine releaseQueue_fresh ?_ | refine Fresh.fold (fun _ _ _ => ?_) _ ?_ | split
    | refine Fresh.upd ?_ rfl (Nat.le_refl _)

theorem execProgramUnload_fresh {die : DieIx} {queue : QueueIx} (s : State) : FreshR s (execProgramUnload die queue s) := by
  unfold execProgramUnload
  refine FreshR.ok ?_
  with_reducible repeat' first
    | assumption | exact Fresh.refl _ | refine Fresh.ite ?_ ?_ | (intro x; subst x) | lift_lets -underBinder
    | refine Fresh.updDie ?_ (fun _ => rfl) | refine Fresh.updPart ?_ | refine releaseQueue_fresh ?_
    | refine refusePacket_fresh ?_ | refine finishEvictions_fresh ?_ | refine okPacket_fresh ?_ | refine Fresh.fold (fun _ _ _ => ?_) _ ?_ | split
    | refine Fresh.upd ?_ rfl (Nat.le_refl _)

theorem execPatch_fresh {die : DieIx} {queue : QueueIx} (s : State) : FreshR s (execPatch die queue s) := by
  unfold execPatch
  refine FreshR.ok ?_
  with_reducible repeat' first
    | assumption | exact Fresh.refl _ | refine Fresh.ite ?_ ?_ | (intro x; subst x) | lift_lets -underBinder | refine Fresh.updPart ?_
    | refine actPacket_fresh (fun _ _ _ => ?_) ?_ | refine refusePacket_fresh ?_ | refine holdQueue_fresh ?_ | split | refine Fresh.upd ?_ rfl (Nat.le_refl _)

theorem execPatchApply_fresh {die : DieIx} {queue : QueueIx} (s : State) : FreshR s (execPatchApply die queue s) := by
  unfold execPatchApply
  refine FreshR.ok ?_
  with_reducible repeat' first
    | assumption | exact Fresh.refl _ | refine Fresh.ite ?_ ?_ | (intro x; subst x) | lift_lets -underBinder | refine Fresh.updPart ?_
    | refine releaseQueue_fresh ?_ | refine refusePacket_fresh ?_ | refine okPacket_fresh ?_ | refine finishEvictions_fresh ?_ | split
    | refine Fresh.upd ?_ rfl (Nat.le_refl _)

theorem execKeysetBind_fresh {die : DieIx} {queue : QueueIx} {envelope : List Byte} (s : State) : FreshR s (execKeysetBind die queue envelope s) := by
  unfold execKeysetBind
  refine FreshR.ok ?_
  with_reducible repeat' first
    | assumption | exact Fresh.refl _ | refine Fresh.ite ?_ ?_ | (intro x; subst x) | lift_lets -underBinder | refine Fresh.updPart ?_
    | refine actPacket_fresh (fun _ _ _ => ?_) ?_ | refine refusePacket_fresh ?_ | refine refuseBind_fresh ?_ | refine noteReason_fresh ?_
    | refine updKs_fresh ?_ | refine holdQueue_fresh ?_ | split | refine Fresh.upd ?_ rfl (Nat.le_refl _)

theorem execImportSegment_fresh {p : PartIx} {slot : Nat} {sealedBytes : List Byte}
    (s : State) : FreshR s (execImportSegment p slot sealedBytes s) := by
  unfold execImportSegment
  refine FreshR.ok ?_
  with_reducible repeat' first
    | assumption | exact Fresh.refl _ | refine Fresh.ite ?_ ?_ | refine segmentArrives_fresh ?_ | split | refine Fresh.upd ?_ rfl (Nat.le_refl _)

theorem execJobSubmit_fresh {die : DieIx} {queue : QueueIx} (s : State) : FreshR s (execJobSubmit die queue s) := by
  unfold execJobSubmit
  refine FreshR.ok ?_
  with_reducible repeat' first
    | assumption | exact Fresh.refl _ | refine Fresh.ite ?_ ?_ | (intro x; subst x) | lift_lets -underBinder
    | refine Fresh.updQueue ?_ | refine actPacket_fresh (fun _ _ _ => ?_) ?_ | refine refusePacket_fresh ?_
    | refine holdQueue_fresh ?_ | refine Fresh.fold (fun _ _ _ => ?_) _ ?_ | split | refine Fresh.upd ?_ rfl (Nat.le_add_right _ _)

theorem execFence_fresh {die : DieIx} {queue : QueueIx} (s : State) : FreshR s (execFence die queue s) := by
  unfold execFence
  refine FreshR.ok ?_
  with_reducible repeat' first
    | assumption | exact Fresh.refl _ | refine Fresh.ite ?_ ?_ | (intro x; subst x) | lift_lets -underBinder
    | refine actPacket_fresh (fun _ _ _ => ?_) ?_ | refine refusePacket_fresh ?_ | refine holdQueue_fresh ?_

theorem execFenceComplete_fresh {die : DieIx} {queue : QueueIx} (s : State) : FreshR s (execFenceComplete die queue s) := by
  unfold execFenceComplete
  refine FreshR.ok ?_
  with_reducible repeat' first
    | assumption | exact Fresh.refl _ | refine Fresh.ite ?_ ?_ | (intro x; subst x) | lift_lets -underBinder | refine releaseQueue_fresh ?_
    | refine okPacket_fresh ?_ | refine signalFlag_fresh ?_ | split | refine Fresh.upd ?_ rfl (Nat.le_refl _)

theorem execSetStep_fresh {die : DieIx} {queue : QueueIx} (s : State) : FreshR s (execSetStep die queue s) := by
  unfold execSetStep
  refine FreshR.ok ?_
  with_reducible repeat' first
    | assumption | exact Fresh.refl _ | refine Fresh.ite ?_ ?_ | refine Fresh.updQueue ?_
    | refine actPacket_fresh (fun _ _ _ => ?_) ?_ | refine okPacket_fresh ?_ | split | refine Fresh.upd ?_ rfl (Nat.le_refl _)

theorem execCancel_fresh {die : DieIx} {queue : QueueIx} (s : State) : FreshR s (execCancel die queue s) := by
  unfold execCancel
  refine FreshR.ok ?_
  split
  · exact .refl s
  · refine .ite (.refl s) ?_
    split
    · exact .refl s
    · rename_i pre b post _
      have line : Fresh s (updQueue die queue (fun x => { x with line := pre ++ post }) s) := .updQueue (.refl s)
      refine .ite (settleQueue_fresh (refusePacket_fresh line)) ?_
      extract_lets mode target js s₂
      have quenched : Fresh s s₂ := Fresh.fold (fun _ _ h => quenchJob_fresh h) _ line
      clear_value s₂
      have own := cancelLine_fresh (d := die) (q := queue) (n := pre.length) (mode := mode) (target := target) quenched
      revert own
      rcases cancelLine die queue pre.length mode target s₂ with ⟨n, s₃⟩
      intro own
      dsimp only
      split
      · refine settleDies_fresh (okPacket_fresh (Fresh.foldP (fun _ _ h => ?_) _ own))
        refine Fresh.foldP (fun _ _ h => ?_) _ h
        exact FreshP.ite h (cancelLine_fresh h)
      · exact settleDies_fresh (okPacket_fresh own)

theorem execBlock_fresh {die : DieIx} {queue : QueueIx} (s : State) : FreshR s (execBlock die queue s) := by
  unfold execBlock
  refine FreshR.ok ?_
  with_reducible repeat' first
    | assumption | exact Fresh.refl _ | refine Fresh.ite ?_ ?_ | (intro x; subst x) | lift_lets -underBinder
    | refine Fresh.updQueue ?_ | refine actPacket_fresh (fun _ _ _ => ?_) ?_ | refine holdQueue_fresh ?_ | refine endBlock_fresh ?_
    | refine Fresh.upd ?_ rfl (Nat.le_refl _)

theorem execBlockExpiry_fresh {die : DieIx} {queue : QueueIx} (s : State) : FreshR s (execBlockExpiry die queue s) := by
  unfold execBlockExpiry
  refine FreshR.ok ?_
  with_reducible repeat' first
    | assumption | exact Fresh.refl _ | refine Fresh.ite ?_ ?_ | (intro x; subst x) | lift_lets -underBinder
    | refine Fresh.updQueue ?_ | refine settleQueue_fresh ?_ | refine refusePacket_fresh ?_ | split | refine Fresh.upd ?_ rfl (Nat.le_refl _)

theorem execJobComplete_fresh {job elapsedNs : Nat} (s : State) : FreshR s (execJobComplete job elapsedNs s) := by
  unfold execJobComplete
  refine FreshR.ok ?_
  with_reducible repeat' first
    | assumption | exact Fresh.refl _ | refine Fresh.ite ?_ ?_ | refine settleDies_fresh ?_ | refine finishJob_fresh ?_ | split
    | refine Fresh.upd ?_ rfl (Nat.le_refl _)

theorem execSetFlag_fresh {at_ : Site} {flag : FlagAt} (s : State) : FreshR s (execSetFlag at_ flag s) := by
  unfold execSetFlag
  refine FreshR.ok ?_
  with_reducible repeat' first
    | assumption | exact Fresh.refl _ | refine FreshI.done ?_ | refine FreshI.ite ?_ ?_ | refine Fresh.ite ?_ ?_
    | refine runInstr_fresh (fun _ _ _ => ?_) ?_ | refine issueFlagSet_fresh ?_ | refine signalFlag_fresh ?_ | refine skipInstr_fresh ?_ | split
    | refine Fresh.upd ?_ rfl (Nat.le_refl _)

theorem execClearFlag_fresh {at_ : Site} {flag : Nat} (s : State) : FreshR s (execClearFlag at_ flag s) := by
  unfold execClearFlag
  refine FreshR.ok ?_
  with_reducible repeat' first
    | assumption | exact Fresh.refl _ | refine FreshI.done ?_ | refine FreshI.ite ?_ ?_ | refine Fresh.ite ?_ ?_
    | refine runInstr_fresh (fun _ _ _ => ?_) ?_ | refine clearFlagBit_fresh ?_ | refine skipInstr_fresh ?_

theorem execWaitFlag_fresh {at_ : Site} {flag : Nat} (s : State) : FreshR s (execWaitFlag at_ flag s) := by
  unfold execWaitFlag
  refine FreshR.ok ?_
  with_reducible repeat' first
    | assumption | exact Fresh.refl _ | exact FreshI.wait | refine FreshI.done ?_ | refine FreshI.ite ?_ ?_ | refine Fresh.ite ?_ ?_
    | refine runInstr_fresh (fun _ _ _ => ?_) ?_ | refine skipInstr_fresh ?_

theorem execFlagTimeout_fresh {die : DieIx} {queue : QueueIx} (s : State) : FreshR s (execFlagTimeout die queue s) := by
  unfold execFlagTimeout
  refine FreshR.ok ?_
  with_reducible repeat' first
    | assumption | exact Fresh.refl _ | exact FreshI.wait | refine Fresh.ite ?_ ?_ | (intro x; subst x) | lift_lets -underBinder
    | refine quenchJob_fresh ?_ | refine poisonAll_fresh ?_ | refine nameDests_fresh ?_ | refine logJob_fresh ?_ | refine lateFlag_fresh ?_
    | refine streamTimeout_fresh ?_ | split | refine Fresh.upd ?_ rfl (Nat.le_refl _)

theorem execFlagDeadlock_fresh {die : DieIx} {queues : List QueueIx} (s : State) : FreshR s (execFlagDeadlock die queues s) := by
  unfold execFlagDeadlock
  refine FreshR.ok ?_
  with_reducible repeat' first
    | assumption | exact Fresh.refl _ | refine Fresh.ite ?_ ?_ | (intro x; subst x) | lift_lets -underBinder | refine logJob_fresh ?_
    | refine lateFlag_fresh ?_ | refine quenchJobs_fresh ?_ | refine Fresh.fold (fun _ _ _ => ?_) _ ?_ | split | refine Fresh.upd ?_ rfl (Nat.le_refl _)

theorem execUndefinedInstruction_fresh {at_ : Site} (s : State) : FreshR s (execUndefinedInstruction at_ s) := by
  unfold execUndefinedInstruction
  refine FreshR.ok ?_
  with_reducible repeat' first
    | assumption | exact Fresh.refl _ | refine FreshI.done ?_ | refine runInstr_fresh (fun _ _ _ => ?_) ?_ | refine skipInstr_fresh ?_

theorem execOperationComplete_fresh {die : DieIx} {op : Nat} (s : State) : FreshR s (execOperationComplete die op s) := by
  unfold execOperationComplete
  refine FreshR.ok ?_
  split
  · exact .refl s
  · rename_i o e
    refine .ite (.refl s) ?_
    split
    · exact finishXfer_fresh (id_of_opOf e ▸ below_of_opOf e) (.refl s)
    · exact finishOp_fresh (.refl s)

theorem execShrSmul_fresh {at_ : Site} {mask : BitVec 8} {src sc dst : Nat} (s : State) : FreshR s (execShrSmul at_ mask src sc dst s) := by
  unfold execShrSmul
  refine FreshR.ok ?_
  with_reducible repeat' first
    | assumption | exact Fresh.refl _ | exact FreshI.wait | refine FreshI.done ?_ | refine FreshI.ite ?_ ?_ | refine Fresh.ite ?_ ?_
    | (intro x; subst x) | lift_lets -underBinder | refine runInstr_fresh (fun _ _ _ => ?_) ?_ | refine refuseInstr_fresh ?_
    | refine issueShr_fresh (fun _ _ _ _ _ => ?_) (fun _ _ _ _ _ _ _ => ?_) ?_ | refine startOp_fresh ?_ | refine putShare_fresh ?_
    | refine Fresh.upd ?_ rfl (Nat.le_refl _)

theorem execExchangeTimeout_fresh {p : PartIx} {session : Nat} (s : State) : FreshR s (execExchangeTimeout p session s) := by
  unfold execExchangeTimeout
  refine FreshR.ok ?_
  with_reducible repeat' first | assumption | exact Fresh.refl _ | refine failOp_fresh ?_ | split | refine Fresh.upd ?_ rfl (Nat.le_refl _)

theorem execPaletteReadClear_fresh {at_ : Site} {entry sc : Nat} (s : State) : FreshR s (execPaletteReadClear at_ entry sc s) := by
  unfold execPaletteReadClear
  refine FreshR.ok ?_
  with_reducible repeat' first
    | assumption | exact Fresh.refl _ | refine runInstr_fresh (fun _ _ _ => ?_) ?_ | refine issueRead_fresh (fun _ _ => ?_) ?_
    | refine readClearPalette_fresh ?_

theorem execNanCountReadClear_fresh {at_ : Site} {sc : Nat} (s : State) : FreshR s (execNanCountReadClear at_ sc s) := by
  unfold execNanCountReadClear
  refine FreshR.ok ?_
  with_reducible repeat' first
    | assumption | exact Fresh.refl _ | refine Fresh.updQueue ?_ | refine runInstr_fresh (fun _ _ _ => ?_) ?_
    | refine issueRead_fresh (fun _ _ => ?_) ?_ | refine putScalar_fresh ?_ | refine Fresh.upd ?_ rfl (Nat.le_refl _)

theorem execCvt_fresh {at_ : Site} {eng : Fin 2} {n : Nat} {a dst : VOp} {xt : Nat} {palette : Option Nat}
    (s : State) : FreshR s (execCvt at_ eng n a dst xt palette s) := by
  unfold execCvt
  refine FreshR.ok ?_
  with_reducible repeat' first
    | assumption | exact Fresh.refl _ | refine FreshI.ite ?_ ?_ | refine Fresh.ite ?_ ?_ | (intro x; subst x) | lift_lets -underBinder
    | refine runInstr_fresh (fun _ _ _ => ?_) ?_ | refine issueVec_fresh (fun _ _ _ _ => ?_) ?_ | refine runCvt_fresh ?_ | refine Fresh.upd ?_ rfl (Nat.le_refl _)

theorem execFix_fresh {at_ : Site} {eng : Fin 2} {n f : Nat} {a dst : VOp} (s : State) : FreshR s (execFix at_ eng n f a dst s) := by
  unfold execFix
  refine FreshR.ok ?_
  with_reducible repeat' first
    | assumption | exact Fresh.refl _ | (intro x; subst x) | lift_lets -underBinder | refine runInstr_fresh (fun _ _ _ => ?_) ?_
    | refine issueVec_fresh (fun _ _ _ _ => ?_) ?_ | refine vWrite_fresh ?_ | refine countNans_fresh ?_ | refine Fresh.upd ?_ rfl (Nat.le_refl _)

theorem execFlt_fresh {at_ : Site} {eng : Fin 2} {n f : Nat} {a dst : VOp} (s : State) : FreshR s (execFlt at_ eng n f a dst s) := by
  unfold execFlt
  refine FreshR.ok ?_
  with_reducible repeat' first
    | assumption | exact Fresh.refl _ | (intro x; subst x) | lift_lets -underBinder | refine runInstr_fresh (fun _ _ _ => ?_) ?_
    | refine issueVec_fresh (fun _ _ _ _ => ?_) ?_ | refine runPlain_fresh ?_ | refine Fresh.upd ?_ rfl (Nat.le_refl _)

theorem execSort_fresh {at_ : Site} {eng : Fin 2} {n : Nat} {a dst : VOp} (s : State) : FreshR s (execSort at_ eng n a dst s) := by
  unfold execSort
  refine FreshR.ok ?_
  with_reducible repeat' first
    | assumption | exact Fresh.refl _ | (intro x; subst x) | lift_lets -underBinder | refine runInstr_fresh (fun _ _ _ => ?_) ?_
    | refine issueVec_fresh (fun _ _ _ _ => ?_) ?_ | refine runPlain_fresh ?_

theorem execArgsort_fresh {at_ : Site} {eng : Fin 2} {n : Nat} {a dst : VOp} (s : State) : FreshR s (execArgsort at_ eng n a dst s) := by
  unfold execArgsort
  refine FreshR.ok ?_
  with_reducible repeat' first
    | assumption | exact Fresh.refl _ | (intro x; subst x) | lift_lets -underBinder | refine runInstr_fresh (fun _ _ _ => ?_) ?_
    | refine issueVec_fresh (fun _ _ _ _ => ?_) ?_ | refine runPlain_fresh ?_ | refine Fresh.upd ?_ rfl (Nat.le_refl _)

theorem execBnCfg_fresh {at_ : Site} {slot n : Nat} {secret : Bool} (s : State) : FreshR s (execBnCfg at_ slot n secret s) := by
  unfold execBnCfg
  refine FreshR.ok ?_
  with_reducible repeat' first
    | assumption | exact Fresh.refl _ | refine FreshI.done ?_ | refine FreshI.ite ?_ ?_ | refine Fresh.ite ?_ ?_
    | refine runInstr_fresh (fun _ _ _ => ?_) ?_ | refine skipInstr_fresh ?_ | refine updSlot_fresh ?_ | refine nameDests_fresh ?_

theorem execBnLoad_fresh {at_ : Site} {slot handle offset : Nat} (s : State) : FreshR s (execBnLoad at_ slot handle offset s) :=
  .ok (runInstr_fresh (fun _ _ h => .ite (.done (onVerdict_fresh (fun _ h => h) h))
    (withScoreboard_fresh (fun _ _ h => .ite (.done (refuseInstr_fresh h)) (.done (updSlot_fresh (nameDests_fresh h)))) h)) (.refl s))

theorem execBnRead_fresh {at_ : Site} {handle offset slot : Nat} (s : State) : FreshR s (execBnRead at_ handle offset slot s) :=
  .ok (runInstr_fresh (fun _ _ h => .ite (.done (onVerdict_fresh (fun _ h => h) h))
    (withScoreboard_fresh (fun _ _ h => .done (putHandle_fresh (nameDests_fresh h))) h)) (.refl s))

theorem execHstat_fresh {at_ : Site} {index sca scb : Nat} (s : State) : FreshR s (execHstat at_ index sca scb s) := by
  unfold execHstat
  refine FreshR.ok ?_
  with_reducible repeat' first
    | assumption | exact Fresh.refl _ | exact FreshI.wait | refine FreshI.done ?_ | refine FreshI.ite ?_ ?_ | refine Fresh.ite ?_ ?_
    | (intro x; subst x) | lift_lets -underBinder | refine runInstr_fresh (fun _ _ _ => ?_) ?_ | refine putScalar_fresh ?_

theorem execAlloc_fresh {at_ : Site} {index base rows : Nat} {secret : Bool} (s : State) : FreshR s (execAlloc at_ index base rows secret s) := by
  unfold execAlloc
  refine FreshR.ok ?_
  with_reducible repeat' first
    | assumption | exact Fresh.refl _ | refine FreshI.done ?_ | refine FreshI.ite ?_ ?_ | refine Fresh.ite ?_ ?_ | (intro x; subst x)
    | lift_lets -underBinder | refine runInstr_fresh (fun _ _ _ => ?_) ?_ | refine skipQuench_fresh ?_
    | refine withScoreboard_fresh (fun _ _ _ => ?_) ?_ | refine updHandle_fresh ?_ | refine Fresh.upd ?_ rfl (Nat.le_refl _)

theorem execFree_fresh {at_ : Site} {index : Nat} (s : State) : FreshR s (execFree at_ index s) := by
  unfold execFree
  refine FreshR.ok ?_
  with_reducible repeat' first
    | assumption | exact Fresh.refl _ | refine FreshI.done ?_ | refine FreshI.waitWith ?_ | refine FreshI.ite ?_ ?_ | refine Fresh.ite ?_ ?_
    | (intro x; subst x) | lift_lets -underBinder | refine runInstr_fresh (fun _ _ _ => ?_) ?_ | refine skipQuench_fresh ?_
    | refine closeAll_fresh ?_ | refine withScoreboard_fresh (fun _ _ _ => ?_) ?_ | refine freeHandle_fresh ?_ | refine Fresh.upd ?_ rfl (Nat.le_refl _)

theorem execRingInit_fresh {at_ : Site} {ring handle slots slotRows : Nat}
    (s : State) : FreshR s (execRingInit at_ ring handle slots slotRows s) := by
  unfold execRingInit
  refine FreshR.ok ?_
  with_reducible repeat' first
    | assumption | exact Fresh.refl _ | refine FreshI.done ?_ | refine FreshI.ite ?_ ?_ | refine Fresh.ite ?_ ?_ | (intro x; subst x)
    | lift_lets -underBinder | refine runInstr_fresh (fun _ _ _ => ?_) ?_ | refine skipQuench_fresh ?_ | refine updHandle_fresh ?_
    | refine updRing_fresh ?_ | refine Fresh.upd ?_ rfl (Nat.le_refl _)

theorem execRingFree_fresh {at_ : Site} {ring : Nat} (s : State) : FreshR s (execRingFree at_ ring s) := by
  unfold execRingFree
  refine FreshR.ok ?_
  with_reducible repeat' first
    | assumption | exact Fresh.refl _ | refine FreshI.done ?_ | refine runInstr_fresh (fun _ _ _ => ?_) ?_ | refine dropRing_fresh ?_

theorem execSalloc_fresh {at_ : Site} {index base rows : Nat} (s : State) : FreshR s (execSalloc at_ index base rows s) := by
  unfold execSalloc
  refine FreshR.ok ?_
  with_reducible repeat' first
    | assumption | exact Fresh.refl _ | refine FreshI.done ?_ | refine FreshI.ite ?_ ?_ | refine Fresh.ite ?_ ?_ | (intro x; subst x)
    | lift_lets -underBinder | refine runInstr_fresh (fun _ _ _ => ?_) ?_ | refine skipQuench_fresh ?_ | refine updStore_fresh ?_
    | refine Fresh.upd ?_ rfl (Nat.le_refl _)

theorem execSfree_fresh {at_ : Site} {index : Nat} (s : State) : FreshR s (execSfree at_ index s) := by
  unfold execSfree
  refine FreshR.ok ?_
  with_reducible repeat' first
    | assumption | exact Fresh.refl _ | refine FreshI.done ?_ | refine FreshI.waitWith ?_ | refine FreshI.ite ?_ ?_ | refine Fresh.ite ?_ ?_
    | (intro x; subst x) | lift_lets -underBinder | refine Fresh.updDie ?_ (fun _ => rfl)
    | refine runInstr_fresh (fun _ _ _ => ?_) ?_ | refine skipQuench_fresh ?_ | refine dropAperture_fresh ?_ | refine closeAll_fresh ?_
    | refine Fresh.upd ?_ rfl (Nat.le_refl _)

theorem execPageRequestResponse_fresh {port : HostId} {group : Nat} {code : PriCode}
    (s : State) : FreshR s (execPageRequestResponse port group code s) := by
  unfold execPageRequestResponse
  refine FreshR.ok ?_
  with_reducible repeat' first
    | assumption | exact Fresh.refl _ | refine Fresh.ite ?_ ?_ | (intro x; subst x) | lift_lets -underBinder | refine Fresh.updHost ?_
    | refine benchResponse_fresh ?_ | refine dropGroup_fresh ?_ | refine updXfer_fresh ?_ | refine requestPages_fresh ?_ | refine failOp_fresh ?_
    | refine failWaiting_fresh ?_ | refine sendWaiting_fresh ?_ | split | refine Fresh.upd ?_ rfl (Nat.le_refl _)

theorem execPageRequestTimeout_fresh {port : HostId} {group : Nat} (s : State) : FreshR s (execPageRequestTimeout port group s) := by
  unfold execPageRequestTimeout
  refine FreshR.ok ?_
  with_reducible repeat' first
    | assumption | exact Fresh.refl _ | refine Fresh.updHost ?_ | refine sendWaiting_fresh ?_ | refine failOp_fresh ?_ | split | refine Fresh.upd ?_ rfl (Nat.le_refl _)

theorem execAtsInvalidation_fresh {port : HostId} {page : Nat} (s : State) : FreshR s (execAtsInvalidation port page s) := by
  unfold execAtsInvalidation
  refine FreshR.ok ?_
  with_reducible repeat' first
    | assumption | exact Fresh.refl _ | refine Fresh.updHost ?_ | refine emit_fresh ?_ | refine Fresh.upd ?_ rfl (Nat.le_refl _)

theorem execSdigest_fresh {at_ : Site} {index : Nat} (s : State) : FreshR s (execSdigest at_ index s) := by
  unfold execSdigest
  refine FreshR.ok ?_
  with_reducible repeat' first
    | assumption | exact Fresh.refl _ | refine FreshI.done ?_ | refine FreshI.ite ?_ ?_ | refine Fresh.ite ?_ ?_ | (intro x; subst x)
    | lift_lets -underBinder | refine runInstr_fresh (fun _ _ _ => ?_) ?_ | refine skipInstr_fresh ?_ | refine updStore_fresh ?_
    | refine Fresh.upd ?_ rfl (Nat.le_refl _)

theorem execWinOpen_fresh {at_ : Site} {window handle base length : Nat} {access : WinAccess} {sc : Nat}
    (s : State) : FreshR s (execWinOpen at_ window handle base length access sc s) := by
  unfold execWinOpen
  refine FreshR.ok ?_
  with_reducible repeat' first
    | assumption | exact Fresh.refl _ | exact FreshI.wait | refine FreshI.done ?_ | refine FreshI.ite ?_ ?_ | refine Fresh.ite ?_ ?_
    | (intro x; subst x) | lift_lets -underBinder | refine runInstr_fresh (fun _ _ _ => ?_) ?_ | refine skipQuench_fresh ?_
    | refine putScalar_fresh ?_ | refine updWindow_fresh ?_

theorem execWinClose_fresh {at_ : Site} {window sc : Nat} (s : State) : FreshR s (execWinClose at_ window sc s) := by
  unfold execWinClose
  refine FreshR.ok ?_
  with_reducible repeat' first
    | assumption | exact Fresh.refl _ | exact FreshI.wait | refine FreshI.done ?_ | refine FreshI.ite ?_ ?_ | refine Fresh.ite ?_ ?_
    | (intro x; subst x) | lift_lets -underBinder | refine runInstr_fresh (fun _ _ _ => ?_) ?_ | refine skipInstr_fresh ?_ | refine startOp_fresh ?_
    | refine beginClose_fresh ?_ | refine Fresh.upd ?_ rfl (Nat.le_refl _)

theorem execWindowCloseComplete_fresh {window : Nat} (s : State) : FreshR s (execWindowCloseComplete window s) := by
  unfold execWindowCloseComplete
  refine FreshR.ok ?_
  with_reducible repeat' first
    | assumption | exact Fresh.refl _ | refine Fresh.ite ?_ ?_ | (intro x; subst x) | lift_lets -underBinder | refine updWindow_fresh ?_
    | refine putScalar_fresh ?_ | refine dropOp_fresh ?_ | refine Fresh.fold (fun _ _ _ => ?_) _ ?_ | split | refine Fresh.upd ?_ rfl (Nat.le_refl _)

theorem execCollectiveTimeout_fresh {die : DieIx} {op : Nat} (s : State) : FreshR s (execCollectiveTimeout die op s) := by
  unfold execCollectiveTimeout
  refine FreshR.ok ?_
  with_reducible repeat' first | assumption | exact Fresh.refl _ | refine failColl_fresh ?_ | split | refine Fresh.upd ?_ rfl (Nat.le_refl _)

theorem execFlit_fresh {port : PortIx} {f : Flit} (s : State) : FreshR s (execFlit port f s) := by
  unfold execFlit
  refine FreshR.ok ?_
  with_reducible repeat' first
    | assumption | exact Fresh.refl _ | refine Fresh.ite ?_ ?_ | (intro x; subst x) | lift_lets -underBinder | refine Fresh.updPort ?_
    | refine drainPort_fresh ?_ | refine flitError_fresh ?_ | refine emit_fresh ?_ | refine assemble_fresh ?_ | split | refine Fresh.upd ?_ rfl (Nat.le_refl _)

theorem execRetry_fresh {port : PortIx} {seq : Nat} (s : State) : FreshR s (execRetry port seq s) := by
  unfold execRetry
  refine FreshR.ok ?_
  with_reducible repeat' first
    | assumption | exact Fresh.refl _ | refine Fresh.ite ?_ ?_ | (intro x; subst x) | lift_lets -underBinder | refine countRetry_fresh ?_
    | refine emit_fresh ?_ | refine Fresh.fold (fun _ _ _ => ?_) _ ?_

theorem execRetryRepeat_fresh {port : PortIx} (s : State) : FreshR s (execRetryRepeat port s) := by
  unfold execRetryRepeat
  refine FreshR.ok ?_
  with_reducible repeat' first
    | assumption | exact Fresh.refl _ | refine Fresh.ite ?_ ?_ | (intro x; subst x) | lift_lets -underBinder | refine Fresh.updPort ?_
    | refine countRetry_fresh ?_ | refine emit_fresh ?_ | refine Fresh.upd ?_ rfl (Nat.le_refl _)

theorem execPortDown_fresh {port : PortIx} (s : State) : FreshR s (execPortDown port s) := by
  unfold execPortDown
  refine FreshR.ok ?_
  with_reducible repeat' first | assumption | exact Fresh.refl _ | refine Fresh.ite ?_ ?_ | refine takeDown_fresh ?_

theorem execTraining_fresh {port : PortIx} {loopbackOk : Bool} (s : State) : FreshR s (execTraining port loopbackOk s) := by
  unfold execTraining
  refine FreshR.ok ?_
  with_reducible repeat' first
    | assumption | exact Fresh.refl _ | refine Fresh.ite ?_ ?_ | (intro x; subst x) | lift_lets -underBinder | refine Fresh.updPort ?_
    | refine Fresh.upd ?_ rfl (Nat.le_refl _)

theorem execTrainingComplete_fresh {port : PortIx} {success : Bool} (s : State) : FreshR s (execTrainingComplete port success s) := by
  unfold execTrainingComplete
  refine FreshR.ok ?_
  with_reducible repeat' first
    | assumption | exact Fresh.refl _ | refine Fresh.ite ?_ ?_ | (intro x; subst x) | lift_lets -underBinder | refine Fresh.updPort ?_
    | refine startKeying_fresh ?_ | refine Fresh.upd ?_ rfl (Nat.le_refl _)

theorem execLinkKey_fresh {port : PortIx} (s : State) : FreshR s (execLinkKey port s) := by
  unfold execLinkKey
  refine FreshR.ok ?_
  with_reducible repeat' first
    | assumption | exact Fresh.refl _ | refine Fresh.ite ?_ ?_ | (intro x; subst x) | lift_lets -underBinder | refine Fresh.updPort ?_
    | refine takeDown_fresh ?_ | refine finishKeying_fresh ?_ | refine emit_fresh ?_ | split | refine Fresh.upd ?_ rfl (Nat.le_refl _)

theorem execKeyStart_fresh {port : PortIx} (s : State) : FreshR s (execKeyStart port s) := by
  unfold execKeyStart
  refine FreshR.ok ?_
  with_reducible repeat' first
    | assumption | exact Fresh.refl _ | refine Fresh.ite ?_ ?_ | refine Fresh.updPort ?_ | refine finishKeying_fresh ?_ | refine Fresh.upd ?_ rfl (Nat.le_refl _)

theorem execKeyingTimeout_fresh {port : PortIx} (s : State) : FreshR s (execKeyingTimeout port s) := by
  unfold execKeyingTimeout
  refine FreshR.ok ?_
  with_reducible repeat' first | assumption | exact Fresh.refl _ | refine Fresh.ite ?_ ?_ | refine takeDown_fresh ?_

theorem execKeyLimit_fresh {port : PortIx} (s : State) : FreshR s (execKeyLimit port s) := by
  unfold execKeyLimit
  refine FreshR.ok ?_
  with_reducible repeat' first | assumption | exact Fresh.refl _ | refine Fresh.ite ?_ ?_ | refine takeDown_fresh ?_

theorem execRemoteWrite_fresh (s : State) : FreshR s (execRemoteWrite s) := by
  unfold execRemoteWrite
  refine FreshR.ok ?_
  with_reducible repeat' first
    | assumption | exact Fresh.refl _ | refine Fresh.ite ?_ ?_ | (intro x; subst x) | lift_lets -underBinder | refine FreshT.of (by assumption) ?_
    | refine takeArrived_fresh ?_ | refine updWindow_fresh ?_ | refine nak_fresh ?_ | refine answer_fresh ?_ | refine landWrite_fresh ?_ | split
    | refine Fresh.upd ?_ rfl (Nat.le_refl _)

theorem execReadReq_fresh (s : State) : FreshR s (execReadReq s) := by
  unfold execReadReq
  refine FreshR.ok ?_
  with_reducible repeat' first
    | assumption | exact Fresh.refl _ | refine Fresh.ite ?_ ?_ | (intro x; subst x) | lift_lets -underBinder | refine FreshT.of (by assumption) ?_
    | refine takeArrived_fresh ?_ | refine nak_fresh ?_ | refine wakeDie_fresh ?_ | refine answer_fresh ?_ | split | refine Fresh.upd ?_ rfl (Nat.le_refl _)

theorem execReadData_fresh (s : State) : FreshR s (execReadData s) := by
  unfold execReadData
  refine FreshR.ok ?_
  with_reducible repeat' first
    | assumption | exact Fresh.refl _ | refine Fresh.ite ?_ ?_ | refine FreshT.of (by assumption) ?_ | refine takeArrived_fresh ?_
    | refine countLate_fresh ?_ | refine pump_fresh ?_ | refine updXfer_fresh ?_ | refine dropRequest_fresh ?_ | split | refine Fresh.upd ?_ rfl (Nat.le_refl _)

theorem execAck_fresh (s : State) : FreshR s (execAck s) := by
  unfold execAck
  refine FreshR.ok ?_
  with_reducible repeat' first
    | assumption | exact Fresh.refl _ | refine Fresh.ite ?_ ?_ | refine FreshT.of (by assumption) ?_ | refine takeArrived_fresh ?_
    | refine countLate_fresh ?_ | refine sendRemoteFlag_fresh ?_ | refine dropRequest_fresh ?_ | split | refine Fresh.upd ?_ rfl (Nat.le_refl _)

theorem execNak_fresh (s : State) : FreshR s (execNak s) := by
  unfold execNak
  refine FreshR.ok ?_
  with_reducible repeat' first
    | assumption | exact Fresh.refl _ | refine FreshT.of (by assumption) ?_ | refine takeArrived_fresh ?_ | refine failOp_fresh ?_
    | refine dropRequest_fresh ?_ | refine refuseWork_fresh ?_ | split | refine Fresh.upd ?_ rfl (Nat.le_refl _)

theorem execFlagSet_fresh (s : State) : FreshR s (execFlagSet s) := by
  unfold execFlagSet
  refine FreshR.ok ?_
  with_reducible repeat' first
    | assumption | exact Fresh.refl _ | (intro x; subst x) | lift_lets -underBinder | refine FreshT.of (by assumption) ?_
    | refine takeArrived_fresh ?_ | refine nak_fresh ?_ | refine answer_fresh ?_ | refine wakeDie_fresh ?_ | refine signalFlag_fresh ?_ | split
    | refine Fresh.upd ?_ rfl (Nat.le_refl _)

theorem execCollData_fresh (s : State) : FreshR s (execCollData s) := by
  unfold execCollData
  refine FreshR.ok ?_
  with_reducible repeat' first
    | assumption | exact Fresh.refl _ | refine Fresh.ite ?_ ?_ | (intro x; subst x) | lift_lets -underBinder | refine FreshT.of (by assumption) ?_
    | refine takeArrived_fresh ?_ | refine countLate_fresh ?_ | refine putStore_fresh ?_ | refine putHandle_fresh ?_ | refine wakeDie_fresh ?_
    | refine updColl_fresh ?_ | split | refine Fresh.upd ?_ rfl (Nat.le_refl _)

theorem execCollCtrl_fresh (s : State) : FreshR s (execCollCtrl s) := by
  unfold execCollCtrl
  refine FreshR.ok ?_
  with_reducible repeat' first
    | assumption | exact Fresh.refl _ | refine Fresh.ite ?_ ?_ | refine FreshT.of (by assumption) ?_ | refine takeArrived_fresh ?_
    | refine failOp_fresh ?_ | refine collPeer_fresh ?_ | split | refine Fresh.upd ?_ rfl (Nat.le_refl _)

theorem execPaceMessage_fresh {collId : W64} {rank limit : Nat} (s : State) : FreshR s (execPaceMessage collId rank limit s) := by
  unfold execPaceMessage
  refine FreshR.ok ?_
  with_reducible repeat' first
    | assumption | exact Fresh.refl _ | (intro x; subst x) | lift_lets -underBinder
    | refine Fresh.updDie ?_ (fun _ => rfl) | refine Fresh.fold (fun _ _ _ => ?_) _ ?_ | split | refine Fresh.upd ?_ rfl (Nat.le_refl _)

theorem execLossNotice_fresh {part epoch : Nat} (s : State) : FreshR s (execLossNotice part epoch s) := by
  unfold execLossNotice
  refine FreshR.ok ?_
  with_reducible repeat' first
    | assumption | exact Fresh.refl _ | refine Fresh.ite ?_ ?_ | (intro x; subst x) | lift_lets -underBinder | refine failColls_fresh ?_
    | refine failOp_fresh ?_ | refine Fresh.fold (fun _ _ _ => ?_) _ ?_ | split | refine Fresh.upd ?_ rfl (Nat.le_refl _)

theorem execTransferTimeout_fresh {die : DieIx} {op : Nat} (s : State) : FreshR s (execTransferTimeout die op s) := by
  unfold execTransferTimeout
  refine FreshR.ok ?_
  with_reducible repeat' first
    | assumption | exact Fresh.refl _ | refine Fresh.ite ?_ ?_ | refine failOp_fresh ?_ | split | refine Fresh.upd ?_ rfl (Nat.le_refl _)

theorem execEpochHoldExpiry_fresh {port : PortIx} (s : State) : FreshR s (execEpochHoldExpiry port s) := by
  unfold execEpochHoldExpiry
  refine FreshR.ok ?_
  with_reducible repeat' first
    | assumption | exact Fresh.refl _ | refine Fresh.updPort ?_ | refine refuseHeld_fresh ?_ | refine countRefusal_fresh ?_ | split
    | refine Fresh.upd ?_ rfl (Nat.le_refl _)

theorem execEpochSwitch_fresh (s : State) : FreshR s (execEpochSwitch s) := by
  unfold execEpochSwitch
  refine FreshR.ok ?_
  with_reducible repeat' first | assumption | exact Fresh.refl _ | refine Fresh.ite ?_ ?_ | refine switchNow_fresh ?_

theorem execEpochRetire_fresh (s : State) : FreshR s (execEpochRetire s) := by
  unfold execEpochRetire
  refine FreshR.ok ?_
  with_reducible repeat' first
    | assumption | exact Fresh.refl _ | refine Fresh.ite ?_ ?_ | refine closeAll_fresh ?_ | split | refine Fresh.upd ?_ rfl (Nat.le_refl _)

theorem execHeartbeatSend_fresh (s : State) : FreshR s (execHeartbeatSend s) := by
  unfold execHeartbeatSend
  refine FreshR.ok ?_
  with_reducible repeat' first | assumption | exact Fresh.refl _ | refine Fresh.ite ?_ ?_ | refine sendTwin_fresh ?_

theorem execHeartbeat_fresh {rec : TwinRec} (s : State) : FreshR s (execHeartbeat rec s) := by
  unfold execHeartbeat
  refine FreshR.ok ?_
  with_reducible repeat' first
    | assumption | exact Fresh.refl _ | refine Fresh.ite ?_ ?_ | refine updTwin_fresh ?_ | refine discardRec_fresh ?_ | refine Fresh.upd ?_ rfl (Nat.le_refl _)

theorem execHeartbeatInterval_fresh {tie : Bool} (s : State) : FreshR s (execHeartbeatInterval tie s) := by
  unfold execHeartbeatInterval
  refine FreshR.ok ?_
  with_reducible repeat' first
    | assumption | exact Fresh.refl _ | refine Fresh.ite ?_ ?_ | refine updTwin_fresh ?_ | refine declareLost_fresh ?_ | refine Fresh.upd ?_ rfl (Nat.le_refl _)

theorem execPairResend_fresh (s : State) : FreshR s (execPairResend s) := by
  unfold execPairResend
  refine FreshR.ok ?_
  with_reducible repeat' first | assumption | exact Fresh.refl _ | refine Fresh.ite ?_ ?_ | refine sendTwin_fresh ?_

theorem execPairRecord_fresh {rec : TwinRec} (s : State) : FreshR s (execPairRecord rec s) := by
  unfold execPairRecord
  refine FreshR.ok ?_
  with_reducible repeat' first
    | assumption | exact Fresh.refl _ | refine Fresh.ite ?_ ?_ | refine discardRec_fresh ?_ | refine updTwin_fresh ?_ | refine sendTwin_fresh ?_
    | refine Fresh.upd ?_ rfl (Nat.le_refl _)

theorem execDetachRecord_fresh {rec : TwinRec} (s : State) : FreshR s (execDetachRecord rec s) := by
  unfold execDetachRecord
  refine FreshR.ok ?_
  with_reducible repeat' first | assumption | exact Fresh.refl _ | refine Fresh.ite ?_ ?_ | refine detachTwin_fresh ?_ | refine discardRec_fresh ?_

theorem execFillComplete_fresh (s : State) : FreshR s (execFillComplete s) := by
  unfold execFillComplete
  refine FreshR.ok ?_
  with_reducible repeat' first
    | assumption | exact Fresh.refl _ | refine sendTwin_fresh ?_ | refine updTwin_fresh ?_ | split | refine Fresh.upd ?_ rfl (Nat.le_refl _)

theorem execFillDone_fresh {rec : TwinRec} (s : State) : FreshR s (execFillDone rec s) := by
  unfold execFillDone
  refine FreshR.ok ?_
  with_reducible repeat' first | assumption | exact Fresh.refl _ | refine Fresh.ite ?_ ?_ | refine discardRec_fresh ?_

theorem execMirrorRows_fresh {p : PartIx} {m : MirrorBody} (s : State) : FreshR s (execMirrorRows p m s) := by
  unfold execMirrorRows
  refine FreshR.ok ?_
  with_reducible repeat' first
    | assumption | exact Fresh.refl _ | refine Fresh.ite ?_ ?_ | (intro x; subst x) | lift_lets -underBinder | refine takeMirror_fresh ?_
    | refine updMirror_fresh ?_ | refine checkMirror_fresh ?_ | refine takeStore_fresh ?_ | split | refine Fresh.upd ?_ rfl (Nat.le_refl _)

theorem execConfirm_fresh {rec : TwinRec} (s : State) : FreshR s (execConfirm rec s) := by
  unfold execConfirm
  refine FreshR.ok ?_
  with_reducible repeat' first
    | assumption | exact Fresh.refl _ | refine Fresh.ite ?_ ?_ | (intro x; subst x) | lift_lets -underBinder | refine discardRec_fresh ?_
    | refine commitImport_fresh ?_ | refine sendTwin_fresh ?_ | refine fillGoesOn_fresh ?_ | refine updKs_fresh ?_ | split | refine Fresh.upd ?_ rfl (Nat.le_refl _)

theorem execCommit_fresh {rec : TwinRec} (s : State) : FreshR s (execCommit rec s) := by
  unfold execCommit
  refine FreshR.ok ?_
  with_reducible repeat' first
    | assumption | exact Fresh.refl _ | refine Fresh.ite ?_ ?_ | (intro x; subst x) | lift_lets -underBinder | refine Fresh.updPart ?_
    | refine discardRec_fresh ?_ | refine dropMirror_fresh ?_ | refine updKs_fresh ?_ | split | refine Fresh.upd ?_ rfl (Nat.le_refl _)

theorem execAbort_fresh {rec : TwinRec} (s : State) : FreshR s (execAbort rec s) := by
  unfold execAbort
  refine FreshR.ok ?_
  with_reducible repeat' first
    | assumption | exact Fresh.refl _ | refine Fresh.ite ?_ ?_ | (intro x; subst x) | lift_lets -underBinder | refine discardRec_fresh ?_
    | refine commitImport_fresh ?_ | refine failRefetch_fresh ?_ | refine fillGoesOn_fresh ?_ | refine dropMirror_fresh ?_ | split
    | refine Fresh.upd ?_ rfl (Nat.le_refl _)

theorem execRefetch_fresh {rec : TwinRec} (s : State) : FreshR s (execRefetch rec s) := by
  unfold execRefetch
  refine FreshR.ok ?_
  with_reducible repeat' first
    | assumption | exact Fresh.refl _ | refine Fresh.ite ?_ ?_ | refine discardRec_fresh ?_ | refine sendSet_fresh ?_ | refine sendTwin_fresh ?_
    | split | refine Fresh.upd ?_ rfl (Nat.le_refl _)

theorem execRefetchComplete_fresh {p : PartIx} {slot : Nat} {good : Bool} (s : State) : FreshR s (execRefetchComplete p slot good s) := by
  unfold execRefetchComplete
  refine FreshR.ok (.ite (.refl s) (.ite (failRefetch_fresh (.refl s)) ?_))
  split
  · exact .refl s
  · refine .ite (.refl s) ?_
    split
    · exact failRefetch_fresh (.refl s)
    · rename_i e
      exact updTwin_fresh (dropMirror_fresh (updKs_fresh (FreshO.of e (replaceKeys_fresh (.refl s)))))

theorem execEnable_fresh {port : HostId} {fn slot : Nat} {die : DieIx} {queue : QueueIx} {w : CtlWrite}
    (s : State) : FreshR s (execEnable port fn slot die queue w s) := by
  unfold execEnable
  refine FreshR.ok ?_
  with_reducible repeat' first
    | assumption | exact Fresh.refl _ | refine Fresh.ite ?_ ?_ | refine writeControl_fresh ?_ | refine sendMsg_fresh ?_ | split
    | refine Fresh.upd ?_ rfl (Nat.le_refl _)

theorem execQueueDisableComplete_fresh {die : DieIx} {queue : QueueIx} (s : State) : FreshR s (execQueueDisableComplete die queue s) := by
  unfold execQueueDisableComplete
  refine FreshR.ok ?_
  with_reducible repeat' first | assumption | exact Fresh.refl _ | refine settleDisable_fresh ?_

theorem execCrHead_fresh {port : HostId} {fn slot : Nat} {die : DieIx} {queue : QueueIx} {value : W32}
    (s : State) : FreshR s (execCrHead port fn slot die queue value s) := by
  unfold execCrHead
  refine FreshR.ok ?_
  with_reducible repeat' first
    | assumption | exact Fresh.refl _ | refine Fresh.ite ?_ ?_ | (intro x; subst x) | lift_lets -underBinder
    | refine Fresh.updQueue ?_ | refine count_fresh ?_ | refine settleDisable_fresh ?_ | refine settleQueue_fresh ?_
    | refine flushCpl_fresh ?_ | refine sendMsg_fresh ?_ | refine putPage_fresh ?_ | split | refine Fresh.upd ?_ rfl (Nat.le_refl _)

theorem execApertureControl_fresh {port : HostId} {fn : Nat} {value : W32} (s : State) : FreshR s (execApertureControl port fn value s) := by
  unfold execApertureControl
  refine FreshR.ok ?_
  with_reducible repeat' first
    | assumption | exact Fresh.refl _ | refine Fresh.ite ?_ ?_ | refine Fresh.updHost ?_ | refine Fresh.upd ?_ rfl (Nat.le_refl _)

theorem execBar2Access_fresh {port : HostId} {fn offset length : Nat} {write : Option (List Byte)}
    (s : State) : FreshR s (execBar2Access port fn offset length write s) := by
  unfold execBar2Access
  refine FreshR.ok ?_
  with_reducible repeat' first
    | assumption | exact Fresh.refl _ | refine Fresh.ite ?_ ?_ | refine stagingAccess_fresh ?_ | refine wakeDie_fresh ?_ | refine putStore_fresh ?_
    | refine emit_fresh ?_ | split | refine Fresh.upd ?_ rfl (Nat.le_refl _)

theorem execSessionTimeout_fresh {via : Via} {index sub member : Nat} (s : State) : FreshR s (execSessionTimeout via index sub member s) := by
  unfold execSessionTimeout
  refine FreshR.ok ?_
  with_reducible repeat' first
    | assumption | exact Fresh.refl _ | refine Fresh.ite ?_ ?_ | (intro x; subst x) | lift_lets -underBinder | refine count_fresh ?_
    | refine Fresh.upd ?_ rfl (Nat.le_refl _)

theorem execSetEndpointId_fresh {via : Via} {eid : Byte} (s : State) : FreshR s (execSetEndpointId via eid s) := by
  unfold execSetEndpointId
  refine FreshR.ok ?_
  with_reducible repeat' first
    | assumption | exact Fresh.refl _ | refine Fresh.ite ?_ ?_ | refine mctp_fresh ?_ | split | refine Fresh.upd ?_ rfl (Nat.le_refl _)

theorem execSmbusAlertResponse_fresh (s : State) : FreshR s (execSmbusAlertResponse s) := by
  unfold execSmbusAlertResponse
  refine FreshR.ok ?_
  with_reducible repeat' first
    | assumption | exact Fresh.refl _ | refine Fresh.ite ?_ ?_ | refine emit_fresh ?_ | refine Fresh.upd ?_ rfl (Nat.le_refl _)

theorem execPartitionCommandComplete_fresh {p : PartIx} (s : State) : FreshR s (execPartitionCommandComplete p s) := by
  unfold execPartitionCommandComplete
  refine FreshR.ok ?_
  with_reducible repeat' first
    | assumption | exact Fresh.refl _ | refine Fresh.ite ?_ ?_ | refine endCommand_fresh ?_ | refine settleDies_fresh ?_
    | refine releaseDies_fresh ?_ | split | refine Fresh.upd ?_ rfl (Nat.le_refl _)

theorem execReportSigned_fresh (s : State) : FreshR s (execReportSigned s) := by
  unfold execReportSigned
  refine FreshR.ok ?_
  with_reducible repeat' first
    | assumption | exact Fresh.refl _ | refine Fresh.ite ?_ ?_ | (intro x; subst x) | lift_lets -underBinder | refine Fresh.updPart ?_ | split
    | refine Fresh.upd ?_ rfl (Nat.le_refl _)

theorem execBnYield_fresh (s : State) : FreshR s (execBnYield s) := by
  unfold execBnYield
  refine FreshR.ok ?_
  with_reducible repeat' first
    | assumption | exact Fresh.refl _ | refine Fresh.ite ?_ ?_ | (intro x; subst x) | lift_lets -underBinder | refine bnNext_fresh ?_ | split
    | refine Fresh.upd ?_ rfl (Nat.le_refl _)

theorem execBnComplete_fresh (s : State) : FreshR s (execBnComplete s) := by
  unfold execBnComplete
  refine FreshR.ok ?_
  with_reducible repeat' first
    | assumption | exact Fresh.refl _ | (intro x; subst x) | lift_lets -underBinder | refine bnNext_fresh ?_ | refine bnFinish_fresh ?_ | split
    | refine Fresh.upd ?_ rfl (Nat.le_refl _)

theorem execDrainGraceExpiry_fresh (s : State) : FreshR s (execDrainGraceExpiry s) := by
  unfold execDrainGraceExpiry
  refine FreshR.ok ?_
  with_reducible repeat' first
    | assumption | exact Fresh.refl _ | refine Fresh.ite ?_ ?_ | refine beginClear_fresh ?_ | refine quenchJob_fresh ?_
    | refine Fresh.fold (fun _ _ _ => ?_) _ ?_

theorem execDrainComplete_fresh (s : State) : FreshR s (execDrainComplete s) := by
  unfold execDrainComplete
  refine FreshR.ok ?_
  with_reducible repeat' first | assumption | exact Fresh.refl _ | refine Fresh.ite ?_ ?_ | refine beginClear_fresh ?_

theorem execClearComplete_fresh (s : State) : FreshR s (execClearComplete s) := by
  unfold execClearComplete
  refine FreshR.ok ?_
  with_reducible repeat' first
    | assumption | exact Fresh.refl _ | refine Fresh.ite ?_ ?_ | (intro x; subst x) | lift_lets -underBinder | refine sendTwin_fresh ?_
    | refine quenchPartition_fresh ?_ | refine zeroDeviceSecrets_fresh ?_ | refine updBist_fresh ?_ | refine Fresh.fold (fun _ _ _ => ?_) _ ?_
    | refine Fresh.upd ?_ rfl (Nat.le_refl _)

theorem execScanComplete_fresh {failures : List BistEntry} (s : State) : FreshR s (execScanComplete failures s) := by
  unfold execScanComplete
  refine FreshR.ok ?_
  with_reducible repeat' first
    | assumption | exact Fresh.refl _ | refine Fresh.ite ?_ ?_ | refine updBist_fresh ?_ | refine listFailures_fresh ?_ | refine Fresh.upd ?_ rfl (Nat.le_refl _)

theorem execMemoryComplete_fresh {failures : List BistEntry} (s : State) : FreshR s (execMemoryComplete failures s) := by
  unfold execMemoryComplete
  refine FreshR.ok (.ite (.refl s) ?_)
  extract_lets s₁ s₂ s₃
  have wiped : Fresh s s₂ := Fresh.updDies (listFailures_fresh (.refl s)) (fun _ => List.Subset.refl _) rfl (Nat.le_refl _)
  have tested : Fresh s s₃ := updBist_fresh wiped
  exact .ite (tested.upd rfl (Nat.le_refl _)) (tested.upd rfl (Nat.le_refl _))

theorem execRepairComplete_fresh {repaired : List BistEntry} (s : State) : FreshR s (execRepairComplete repaired s) := by
  unfold execRepairComplete
  refine FreshR.ok (.ite (.refl s) ?_)
  extract_lets rs s₁ b s₂ twice s₃ r
  have h₁ : Fresh s s₁ := applyRepairs_fresh (.refl s)
  have h₂ : Fresh s s₂ := updBist_fresh h₁
  have h₃ : Fresh s s₃ := h₂.upd rfl (Nat.le_refl _)
  exact .ite (updBist_fresh (h₁.upd rfl (Nat.le_refl _))) (updBist_fresh (h₃.upd rfl (Nat.le_refl _)))

theorem execHostLinkUp_fresh {port : HostId} {width : Nat} (s : State) : FreshR s (execHostLinkUp port width s) := by
  unfold execHostLinkUp
  refine FreshR.ok ?_
  with_reducible repeat' first
    | assumption | exact Fresh.refl _ | refine Fresh.ite ?_ ?_ | refine Fresh.updHost ?_ | refine Fresh.upd ?_ rfl (Nat.le_refl _)

theorem execDroopClear_fresh {die : DieIx} (s : State) : FreshR s (execDroopClear die s) := by
  unfold execDroopClear
  refine FreshR.ok ?_
  with_reducible repeat' first
    | assumption | exact Fresh.refl _ | refine Fresh.updDie ?_ (fun _ => rfl) | refine Fresh.upd ?_ rfl (Nat.le_refl _)

theorem execLinkKeySegment_fresh {port : PortIx} {offset keyNumber : Nat} {bytes : List Byte}
    (s : State) : FreshR s (execLinkKeySegment port offset keyNumber bytes s) := by
  unfold execLinkKeySegment
  refine FreshR.ok ?_
  with_reducible repeat' first
    | assumption | exact Fresh.refl _ | refine Fresh.ite ?_ ?_ | (intro x; subst x) | lift_lets -underBinder | refine Fresh.updPort ?_
    | refine takeDown_fresh ?_ | refine Fresh.upd ?_ rfl (Nat.le_refl _)

theorem execMemberRegistration_fresh {reg : MemberReg} (s : State) : FreshR s (execMemberRegistration reg s) := by
  unfold execMemberRegistration
  refine FreshR.ok ?_
  with_reducible repeat' first
    | assumption | exact Fresh.refl _ | refine Fresh.ite ?_ ?_ | (intro x; subst x) | lift_lets -underBinder | refine Fresh.updHost ?_
    | refine sendMsg_fresh ?_ | refine Fresh.upd ?_ rfl (Nat.le_refl _)

theorem execForwardedHostWrite_fresh {w : FwdWrite} (s : State) : FreshR s (execForwardedHostWrite w s) := by
  unfold execForwardedHostWrite
  refine FreshR.ok ?_
  with_reducible repeat' first
    | assumption | exact Fresh.refl _ | refine Fresh.ite ?_ ?_ | (intro x; subst x) | lift_lets -underBinder | refine Fresh.updHost ?_
    | refine forwardCpl_fresh ?_ | refine sendBench_fresh ?_ | refine emit_fresh ?_ | refine requestPages_fresh ?_ | refine sendMsg_fresh ?_ | split
    | refine Fresh.upd ?_ rfl (Nat.le_refl _)

theorem execPageNotPresent_fresh {die : DieIx} {op cursor : Nat} {pages : List Nat} (s : State) :
    FreshR s (execPageNotPresent die op cursor pages s) := by
  unfold execPageNotPresent
  refine FreshR.ok ?_
  split
  · exact .refl s
  · rename_i o e
    have hop : idsFresh s → o.id < s.nextId := id_of_opOf e ▸ below_of_opOf e
    with_reducible repeat' first
      | assumption | exact Fresh.refl _ | refine Fresh.ite ?_ ?_ | (intro x; subst x) | lift_lets -underBinder | refine Fresh.updHost ?_
      | refine emitHost_fresh hop ?_ | refine updXfer_fresh ?_ | refine failOp_fresh ?_ | refine sendGroup_fresh ?_ | split

/-- Every command keeps what is in flight below the next identifier. -/
theorem exec_fresh (i : Instr) (s : State) : FreshR s (exec i s) :=
  match i with
  | .pwrokRise => execPwrokRise_fresh s
  | .pwrokFall => execPwrokFall_fresh s
  | .sysResetAssert => execSysResetAssert_fresh s
  | .sysResetRelease => execSysResetRelease_fresh s
  | .selfCheckComplete _ => execSelfCheckComplete_fresh s
  | .perst _ _ => execPerst_fresh s
  | .linkDown _ => execLinkDown_fresh s
  | .functionLevelReset _ _ => execFunctionLevelReset_fresh s
  | .go _ => .ok (.ite (serveReq_fresh (.refl s)) (.refl s))
  | .verificationComplete _ => execVerificationComplete_fresh s
  | .repairRecord => execRepairRecord_fresh s
  | .repairRecordWaitExpiry => execRepairRecordWaitExpiry_fresh s
  | .ready _ => execReady_fresh s
  | .thermtrip _ => execThermtrip_fresh s
  | .quenchInput _ => execQuenchInput_fresh s
  | .pwrbrkAssert => execPwrbrkAssert_fresh s
  | .pwrbrkDeassert => execPwrbrkDeassert_fresh s
  | .droop _ => execDroop_fresh s
  | .syncInEdge _ _ => execSyncInEdge_fresh s
  | .syncFreeRun => execSyncFreeRun_fresh s
  | .governorInterval _ => execGovernorInterval_fresh s
  | .admissionBoundary => execAdmissionBoundary_fresh s
  | .idleEntry _ _ => execIdleEntry_fresh s
  | .anchorCompare _ _ _ => execAnchorCompare_fresh s
  | .anchorCompareTimeout _ => execAnchorCompareTimeout_fresh s
  | .partitionQuenchComplete _ => execPartitionQuenchComplete_fresh s
  | .scratchpadParity _ _ _ => execScratchpadParity_fresh s
  | .clusterBufferParity _ c _ _ => execClusterBufferParity_fresh (cluster := c) s
  | .registerParity _ _ _ => execRegisterParity_fresh s
  | .keyRowParity _ _ _ => execKeyRowParity_fresh s
  | .storeParity _ _ _ => execStoreParity_fresh s
  | .controlParity _ _ => execControlParity_fresh s
  | .entropyFail _ => execEntropyFail_fresh s
  | .clockCheck _ _ => execClockCheck_fresh s
  | .supplyCheck _ _ => execSupplyCheck_fresh s
  | .eyeMarginCheck _ _ => execEyeMarginCheck_fresh s
  | .queueWindowWrite _ _ _ _ _ _ _ => execQueueWindowWrite_fresh s
  | .nop _ _ => execNop_fresh s
  | .programLoad _ _ => execProgramLoad_fresh s
  | .programLoadComplete _ _ _ => execProgramLoadComplete_fresh s
  | .programUnload _ _ => execProgramUnload_fresh s
  | .patch _ _ => execPatch_fresh s
  | .patchApply _ _ => execPatchApply_fresh s
  | .keysetBind _ _ _ => execKeysetBind_fresh s
  | .importSegment _ _ _ => execImportSegment_fresh s
  | .jobSubmit _ _ => execJobSubmit_fresh s
  | .fence _ _ => execFence_fresh s
  | .fenceComplete _ _ => execFenceComplete_fresh s
  | .setStep _ _ => execSetStep_fresh s
  | .cancel _ _ => execCancel_fresh s
  | .block _ _ => execBlock_fresh s
  | .blockExpiry _ _ => execBlockExpiry_fresh s
  | .jobComplete _ _ => execJobComplete_fresh s
  | .setFlag _ _ => execSetFlag_fresh s
  | .clearFlag _ _ => execClearFlag_fresh s
  | .waitFlag _ _ => execWaitFlag_fresh s
  | .flagTimeout _ _ => execFlagTimeout_fresh s
  | .flagDeadlock _ _ => execFlagDeadlock_fresh s
  | .undefinedInstruction _ => execUndefinedInstruction_fresh s
  | .operationComplete _ _ => execOperationComplete_fresh s
  | .ntt _ _ _ _ => .ok (clusterInstr_fresh (.refl s))
  | .inverseNtt _ _ _ _ => .ok (clusterInstr_fresh (.refl s))
  | .polyAdd _ _ _ _ _ => .ok (clusterInstr_fresh (.refl s))
  | .polySubtract _ _ _ _ _ => .ok (clusterInstr_fresh (.refl s))
  | .negate _ _ _ _ => .ok (clusterInstr_fresh (.refl s))
  | .plaintextAdd _ _ _ _ _ => .ok (clusterInstr_fresh (.refl s))
  | .plaintextMultiply _ _ _ _ _ => .ok (clusterInstr_fresh (.refl s))
  | .ciphertextMultiply _ _ _ _ _ => .ok (clusterInstr_fresh (.refl s))
  | .levelDrop _ _ _ _ _ => .ok (clusterInstr_fresh (.refl s))
  | .basisConversion _ _ _ _ _ _ => .ok (clusterInstr_fresh (.refl s))
  | .rescale _ _ _ _ => .ok (clusterInstr_fresh (.refl s))
  | .modSwitch _ _ _ _ => .ok (clusterInstr_fresh (.refl s))
  | .encode _ _ _ _ _ => .ok (runInstr_fresh (fun _ _ h => issueEncode_fresh h) (.refl s))
  | .decode _ _ _ _ => .ok (runInstr_fresh (fun _ _ h => issueDecode_fresh h) (.refl s))
  | .relinearise _ _ _ _ _ => .ok (clusterInstr_fresh (.refl s))
  | .rotate _ _ _ _ _ _ => .ok (clusterInstr_fresh (.refl s))
  | .conjugate _ _ _ _ _ => .ok (clusterInstr_fresh (.refl s))
  | .hrot _ _ _ _ _ _ => .ok (clusterInstr_fresh (.refl s))
  | .hrotSum _ _ _ _ _ _ => .ok (clusterInstr_fresh (.refl s))
  | .modUp _ _ _ _ _ => .ok (clusterInstr_fresh (.refl s))
  | .ip _ _ _ _ _ _ _ => .ok (clusterInstr_fresh (.refl s))
  | .modDown _ _ _ _ => .ok (clusterInstr_fresh (.refl s))
  | .temper _ _ _ _ _ _ => .ok (runInstr_fresh (fun _ _ h => issueTemper_fresh h) (.refl s))
  | .shrAdd _ _ _ _ _ => .ok (shrLocal_fresh (.refl s))
  | .shrSub _ _ _ _ _ => .ok (shrLocal_fresh (.refl s))
  | .shrNeg _ _ _ _ => .ok (shrLocal_fresh (.refl s))
  | .shrSmul _ _ _ _ _ => execShrSmul_fresh s
  | .shrCadd _ _ _ _ _ => .ok (shrLocal_fresh (.refl s))
  | .shrSplit _ _ _ _ _ _ _ => .ok (runInstr_fresh (fun _ _ h => issueSplit_fresh h) (.refl s))
  | .shrOpen _ _ _ _ => .ok (runInstr_fresh (fun _ _ h => issueOpen_fresh h) (.refl s))
  | .beaverMul _ _ _ _ _ => .ok (runInstr_fresh (fun _ _ h => issueBeaver_fresh h) (.refl s))
  | .secagg _ _ _ _ => .ok (runInstr_fresh (fun _ _ h => issueOpen_fresh h) (.refl s))
  | .deal _ _ _ => .ok (runInstr_fresh (fun _ _ h => issueDeal_fresh h) (.refl s))
  | .exchangeMessage _ => .ok (messageIn_fresh (.refl s))
  | .dealDelivery _ => .ok (dealIn_fresh (.refl s))
  | .abortMarker _ => .ok (messageIn_fresh (.refl s))
  | .exchangeTimeout _ _ => execExchangeTimeout_fresh s
  | .tmul _ _ => .ok (runInstr_fresh (fun _ _ h => issueTmul_fresh h) (.refl s))
  | .paletteReadClear _ _ _ => execPaletteReadClear_fresh s
  | .nanCountReadClear _ _ => execNanCountReadClear_fresh s
  | .add _ _ _ _ _ _ => .ok (vec2_fresh (.refl s))
  | .sub _ _ _ _ _ _ => .ok (vec2_fresh (.refl s))
  | .mul _ _ _ _ _ _ => .ok (vec2_fresh (.refl s))
  | .fma _ _ _ _ _ _ _ => .ok (vec3_fresh (.refl s))
  | .min _ _ _ _ _ _ => .ok (vec2_fresh (.refl s))
  | .max _ _ _ _ _ _ => .ok (vec2_fresh (.refl s))
  | .abs _ _ _ _ _ => .ok (vec1_fresh (.refl s))
  | .neg _ _ _ _ _ => .ok (vec1_fresh (.refl s))
  | .cmp _ _ _ _ _ _ _ => .ok (vec2_fresh (.refl s))
  | .sel _ _ _ _ _ _ _ => .ok (vec3_fresh (.refl s))
  | .recip _ _ _ _ _ => .ok (vec1_fresh (.refl s))
  | .rsqrt _ _ _ _ _ => .ok (vec1_fresh (.refl s))
  | .sqrt _ _ _ _ _ => .ok (vec1_fresh (.refl s))
  | .exp2 _ _ _ _ _ => .ok (vec1_fresh (.refl s))
  | .log2 _ _ _ _ _ => .ok (vec1_fresh (.refl s))
  | .cvt _ _ _ _ _ _ _ => execCvt_fresh s
  | .fix _ _ _ _ _ _ => execFix_fresh s
  | .flt _ _ _ _ _ _ => execFlt_fresh s
  | .rsum _ _ _ _ _ _ => .ok (vecRed_fresh (.refl s))
  | .rmax _ _ _ _ _ _ => .ok (vecRed_fresh (.refl s))
  | .rmin _ _ _ _ _ _ => .ok (vecRed_fresh (.refl s))
  | .rargmax _ _ _ _ _ _ => .ok (vecRed_fresh (.refl s))
  | .sort _ _ _ _ _ => execSort_fresh s
  | .argsort _ _ _ _ _ => execArgsort_fresh s
  | .vload _ _ _ _ _ _ => .ok (vecMove_fresh (.refl s))
  | .vstore _ _ _ _ _ => .ok (vecMove_fresh (.refl s))
  | .updNorm _ _ => .ok (runInstr_fresh (fun _ _ h => issueNorm_fresh h) (.refl s))
  | .updApply _ _ => .ok (runInstr_fresh (fun _ _ h => issueUpd_fresh h) (.refl s))
  | .bnCfg _ _ _ _ => execBnCfg_fresh s
  | .bnLoad _ _ _ _ => execBnLoad_fresh s
  | .bnRead _ _ _ _ => execBnRead_fresh s
  | .modAdd _ _ _ _ _ _ => .ok (runInstr_fresh (fun _ _ h => issueBn_fresh h) (.refl s))
  | .modSub _ _ _ _ _ _ => .ok (runInstr_fresh (fun _ _ h => issueBn_fresh h) (.refl s))
  | .modMul _ _ _ _ _ _ => .ok (runInstr_fresh (fun _ _ h => issueBn_fresh h) (.refl s))
  | .modExp _ _ _ _ _ _ => .ok (runInstr_fresh (fun _ _ h => issueBn_fresh h) (.refl s))
  | .modInv _ _ _ _ _ => .ok (runInstr_fresh (fun _ _ h => issueBn_fresh h) (.refl s))
  | .bnRand _ _ _ _ => .ok (runInstr_fresh (fun _ _ h => issueBn_fresh h) (.refl s))
  | .ecKeygen _ _ _ _ _ _ => .ok (runInstr_fresh (fun _ _ h => issueBn_fresh h) (.refl s))
  | .ecMul _ _ _ _ _ _ _ _ => .ok (runInstr_fresh (fun _ _ h => issueBn_fresh h) (.refl s))
  | .ecDh _ _ _ _ _ _ _ => .ok (runInstr_fresh (fun _ _ h => issueBn_fresh h) (.refl s))
  | .hstat _ _ _ _ => execHstat_fresh s
  | .alloc _ _ _ _ _ => execAlloc_fresh s
  | .free _ _ => execFree_fresh s
  | .ringInit _ _ _ _ _ => execRingInit_fresh s
  | .ringFree _ _ => execRingFree_fresh s
  | .salloc _ _ _ _ => execSalloc_fresh s
  | .sfree _ _ => execSfree_fresh s
  | .dset _ _ _ _ => .ok (runInstr_fresh (fun _ _ h => issueDset_fresh h) (.refl s))
  | .move _ _ => .ok (runInstr_fresh (fun _ _ h => issueMove_fresh h) (.refl s))
  | .gather _ _ => .ok (runInstr_fresh (fun _ _ h => issueGather_fresh h) (.refl s))
  | .scatter _ _ _ => .ok (runInstr_fresh (fun _ _ h => issueScatter_fresh h) (.refl s))
  | .pageRequestResponse _ _ _ => execPageRequestResponse_fresh s
  | .pageRequestTimeout _ _ => execPageRequestTimeout_fresh s
  | .translationError _ _ => .ok (hostFail_fresh (.refl s))
  | .atsInvalidation _ _ => execAtsInvalidation_fresh s
  | .readCompletionError _ _ => .ok (hostFail_fresh (.refl s))
  | .readCompletionTimeout _ _ => .ok (hostFail_fresh (.refl s))
  | .sdigest _ _ => execSdigest_fresh s
  | .winOpen _ _ _ _ _ _ _ => execWinOpen_fresh s
  | .winClose _ _ _ => execWinClose_fresh s
  | .windowCloseComplete _ => execWindowCloseComplete_fresh s
  | .allReduce _ _ _ _ => .ok (runInstr_fresh (fun _ _ h => issueColl_fresh h) (.refl s))
  | .reduceScatter _ _ _ _ => .ok (runInstr_fresh (fun _ _ h => issueColl_fresh h) (.refl s))
  | .allGather _ _ _ _ => .ok (runInstr_fresh (fun _ _ h => issueColl_fresh h) (.refl s))
  | .broadcast _ _ _ _ => .ok (runInstr_fresh (fun _ _ h => issueColl_fresh h) (.refl s))
  | .barrier _ _ => .ok (runInstr_fresh (fun _ _ h => issueBarrier_fresh h) (.refl s))
  | .collectiveTimeout _ _ => execCollectiveTimeout_fresh s
  | .dget _ _ _ _ _ => .ok (runInstr_fresh (fun _ _ h => issueDget_fresh h) (.refl s))
  | .dput _ _ _ _ _ => .ok (runInstr_fresh (fun _ _ h => issueDput_fresh h) (.refl s))
  | .flit _ _ => execFlit_fresh s
  | .retry _ _ => execRetry_fresh s
  | .retryRepeat _ => execRetryRepeat_fresh s
  | .portDown _ => execPortDown_fresh s
  | .training _ _ => execTraining_fresh s
  | .trainingComplete _ _ => execTrainingComplete_fresh s
  | .linkKey _ => execLinkKey_fresh s
  | .keyStart _ => execKeyStart_fresh s
  | .keyingTimeout _ => execKeyingTimeout_fresh s
  | .keyLimit _ => execKeyLimit_fresh s
  | .remoteWrite => execRemoteWrite_fresh s
  | .readReq => execReadReq_fresh s
  | .readData => execReadData_fresh s
  | .ack => execAck_fresh s
  | .nak => execNak_fresh s
  | .flagSet => execFlagSet_fresh s
  | .collData => execCollData_fresh s
  | .collCtrl => execCollCtrl_fresh s
  | .paceMessage _ _ _ => execPaceMessage_fresh s
  | .lossNotice _ _ => execLossNotice_fresh s
  | .transferTimeout _ _ => execTransferTimeout_fresh s
  | .epochHoldExpiry _ => execEpochHoldExpiry_fresh s
  | .epochSwitch => execEpochSwitch_fresh s
  | .epochRetire => execEpochRetire_fresh s
  | .pendingEpochWrite _ => .ok (.ite (serveReq_fresh (.refl s)) (.refl s))
  | .routingTableWrite _ => .ok (.ite (serveReq_fresh (.refl s)) (.refl s))
  | .heartbeatSend => execHeartbeatSend_fresh s
  | .heartbeat _ => execHeartbeat_fresh s
  | .heartbeatInterval _ => execHeartbeatInterval_fresh s
  | .pair _ => .ok (.ite (serveReq_fresh (.refl s)) (.refl s))
  | .pairResend => execPairResend_fresh s
  | .pairRecord _ => execPairRecord_fresh s
  | .detach _ => .ok (.ite (serveReq_fresh (.refl s)) (.refl s))
  | .detachRecord _ => execDetachRecord_fresh s
  | .fill _ _ _ => .ok (.ite (serveReq_fresh (.refl s)) (.refl s))
  | .fillComplete => execFillComplete_fresh s
  | .fillDone _ => execFillDone_fresh s
  | .promote _ => .ok (.ite (serveReq_fresh (.refl s)) (.refl s))
  | .mirrorRows _ _ => execMirrorRows_fresh s
  | .confirm _ => execConfirm_fresh s
  | .commit _ => execCommit_fresh s
  | .abort _ => execAbort_fresh s
  | .refetch _ => execRefetch_fresh s
  | .refetchComplete _ _ _ => execRefetchComplete_fresh s
  | .enable _ _ _ _ _ _ => execEnable_fresh s
  | .queueDisableComplete _ _ => execQueueDisableComplete_fresh s
  | .crHead _ _ _ _ _ _ => execCrHead_fresh s
  | .apertureControl _ _ _ => execApertureControl_fresh s
  | .bar2Access _ _ _ _ _ => execBar2Access_fresh s
  | .read _ => .ok (.ite (serveReq_fresh (.refl s)) (.refl s))
  | .write _ => .ok (.ite (serveReq_fresh (.refl s)) (.refl s))
  | .segRead _ => .ok (.ite (serveReq_fresh (.refl s)) (.refl s))
  | .segWrite _ => .ok (.ite (serveReq_fresh (.refl s)) (.refl s))
  | .describe _ => .ok (.ite (serveReq_fresh (.refl s)) (.refl s))
  | .sessionTimeout _ _ _ _ => execSessionTimeout_fresh s
  | .setEndpointId _ _ => execSetEndpointId_fresh s
  | .getEndpointId _ => .ok (mctp_fresh (.refl s))
  | .getMctpVersionSupport _ _ => .ok (mctp_fresh (.refl s))
  | .getMessageTypeSupport _ => .ok (mctp_fresh (.refl s))
  | .getVendorDefinedMessageSupport _ _ => .ok (mctp_fresh (.refl s))
  | .errorRegisterRead _ => .ok (.ite (serveReq_fresh (.refl s)) (.refl s))
  | .smbusAlertResponse => execSmbusAlertResponse_fresh s
  | .evictionRequest _ => .ok (.ite (serveReq_fresh (.refl s)) (.refl s))
  | .create _ _ => .ok (.ite (serveReq_fresh (.refl s)) (.refl s))
  | .start _ => .ok (.ite (serveReq_fresh (.refl s)) (.refl s))
  | .stop _ => .ok (.ite (serveReq_fresh (.refl s)) (.refl s))
  | .coldStop _ => .ok (.ite (serveReq_fresh (.refl s)) (.refl s))
  | .destroy _ => .ok (.ite (serveReq_fresh (.refl s)) (.refl s))
  | .partitionCommandComplete _ => execPartitionCommandComplete_fresh s
  | .quenchPartition _ => .ok (.ite (serveReq_fresh (.refl s)) (.refl s))
  | .restartQueues _ => .ok (.ite (serveReq_fresh (.refl s)) (.refl s))
  | .deviceQuenchCommand _ => .ok (.ite (serveReq_fresh (.refl s)) (.refl s))
  | .rollbackAdvance _ _ _ => .ok (.ite (serveReq_fresh (.refl s)) (.refl s))
  | .attestationRequest _ => .ok (.ite (serveReq_fresh (.refl s)) (.refl s))
  | .reportSigned => execReportSigned_fresh s
  | .linkEncryption _ => .ok (.ite (serveReq_fresh (.refl s)) (.refl s))
  | .bnYield => execBnYield_fresh s
  | .bnComplete => execBnComplete_fresh s
  | .shutdown _ => .ok (.ite (serveReq_fresh (.refl s)) (.refl s))
  | .drainGraceExpiry => execDrainGraceExpiry_fresh s
  | .drainComplete => execDrainComplete_fresh s
  | .clearComplete => execClearComplete_fresh s
  | .scanComplete _ => execScanComplete_fresh s
  | .memoryComplete _ => execMemoryComplete_fresh s
  | .repairComplete _ => execRepairComplete_fresh s
  | .hostLinkUp _ _ => execHostLinkUp_fresh s
  | .droopClear _ => execDroopClear_fresh s
  | .linkKeySegment _ _ _ _ => execLinkKeySegment_fresh s
  | .memberRegistration _ => execMemberRegistration_fresh s
  | .forwardedHostWrite _ => execForwardedHostWrite_fresh s
  | .pageNotPresent _ _ _ _ => execPageNotPresent_fresh s

/-- Reissuing a held instruction keeps what its command keeps fresh. -/
theorem reissueGo_fresh {s₀ s : State} (l : List Held) (hs : Fresh s₀ s) : Fresh s₀ (reissueGo s l) := by
  induction l with
  | nil => exact hs
  | cons h l ih =>
    unfold reissueGo
    refine .ite ?_ ih
    split
    · rename_i t e
      exact .ite ih (readyHeads_fresh (Fresh.upd ((hs.upd rfl (Nat.le_refl _)).trans (exec_fresh _ _ _ e)) rfl (Nat.le_refl _)))
    · exact ih

/-- The step on an empty queue keeps what the commands keep. -/
theorem idleStep_fresh (s : State) : Fresh s (idleStep s) :=
  reissueGo_fresh _ (readyHeads_fresh (flushAllDeals_fresh (Fresh.fold (fun _ _ h => startTongs_fresh h) _ (settleDies_fresh (.refl s)))))

/-- Settles O59: by `exec_fresh` where a command waits, by `idleStep_fresh` where none does. -/
theorem identifiersStayFresh : Obligations.IdentifiersStayFresh := by
  intro s t hs ht
  cases hp : s.pending with
  | nil =>
    simp only [step, hp, Host.Outcome.next.injEq] at ht
    subst ht
    exact (idleStep_fresh s).ids hs
  | cons c rest =>
    rw [stepRunsFrontCommand s c rest hp] at ht
    exact (exec_fresh c _ t ht).ids hs

end Sys2Proof.Machine

namespace Sys2Proof.Machine

/-! ### SYS_RESET# (R509, R517) -/

/-- SYS_RESET# asserted resets a part that has power. -/
theorem exec_sysResetAssert_of_power {s : State} (h : s.pins.pwrok = true) :
    exec .sysResetAssert s = .next (intoReset true true s.pins.vcoreSet s) :=
  congrArg Host.Outcome.next (if_pos h)

/-- The part in reset with SYS_RESET# released: the self-check begins. -/
def outOfReset (vcore : List Nat) (s : State) : State :=
  updBoot (fun b => { b with phase := .selfCheck }) (intoReset true false vcore s)

/-- SYS_RESET# released starts the self-check of a part that has power. -/
theorem exec_sysResetRelease_intoReset (vcore : List Nat) (s : State) :
    exec .sysResetRelease (intoReset true true vcore s) = .next (outOfReset vcore s) := rfl

/-- Settles O5: asserting is `intoReset` with both pins as they then are, releasing starts the self-check on what `intoReset` left. -/
theorem systemReset : Obligations.SystemReset := by
  intro s hpower
  exact ⟨_, _, exec_sysResetAssert_of_power hpower, exec_sysResetRelease_intoReset _ s, rfl, rfl, rfl, rfl, rfl, rfl, rfl, rfl, rfl, rfl, rfl,
    rfl, rfl, rfl, rfl, rfl, rfl, rfl, rfl, rfl, rfl, rfl, rfl⟩

/-! ### MCTP control and the SMBus alert (R468, R481, R482, R511) -/

/-- A message of MCTP goes out where the requester is served and can be reached. -/
theorem mctp_of_served {s : State} {via : Via} (bs : List Byte) (ha : awake s = true) (hc : carried s via = true) :
    mctp via bs s = emit (.mctp via bs) s := by
  simp [mctp, ha, hc]

/-- The state in which an identifier was assigned to an endpoint (R482). -/
def withEid (via : Via) (eid : Byte) (s : State) : State :=
  { s with dict := { s.dict with eids := (s.dict.eids.filter fun e => !(e.1 == via)) ++ [(via, eid)] } }

theorem eidOf_withEid_self (via : Via) (eid : Byte) (s : State) : eidOf (withEid via eid s) via = eid := by
  have none_before : (s.dict.eids.filter fun e => !(e.1 == via)).find? (fun e => e.1 == via) = none := by
    simp [List.find?_eq_none]
  simp [eidOf, withEid, List.find?_append, none_before]

theorem eidOf_withEid_ne {via w : Via} (eid : Byte) (s : State) (h : w ≠ via) : eidOf (withEid via eid s) w = eidOf s w := by
  have same : (s.dict.eids.filter fun e => !(e.1 == via)).find? (fun e => e.1 == w) = s.dict.eids.find? (fun e => e.1 == w) := by
    rw [List.find?_filter]
    congr 1
    funext e
    by_cases he : e.1 = w <;> simp [he, h]
  have last : ([(via, eid)] : List (Via × Byte)).find? (fun e => e.1 == w) = none := by simp [Ne.symm h]
  simp only [eidOf, withEid, List.find?_append, same, last, Option.or_none]

theorem withEid_frame (via : Via) (eid : Byte) (s : State) : Frame [.dict] s (withEid via eid s) := by
  intro a ha
  cases a
  case dict => exact absurd (by decide) ha
  case parts | partLogs | dies | counters | hosts | msix => exact fun _ => rfl
  all_goals rfl

/-- An identifier is assigned to an endpoint of its own bus, and refused where it is reserved (R482). -/
theorem exec_setEndpointId_of_direct {s : State} {via : Via} (ha : awake s = true) (hc : carried s via = true)
    (hdirect : ∀ port src direct origin, via ≠ .fabric port src direct origin) (e : Byte) :
    exec (.setEndpointId via e) s = ok (if e = 0 || e = 0xFF then mctp via [2, 0, 0, 0] s else mctp via [0, 0, e, 0] (withEid via e s)) := by
  cases via with
  | fabric port src direct origin => exact absurd rfl (hdirect port src direct origin)
  | pcie port fn => exact congrArg ok (if_neg (by simp [ha, hc]))
  | smbus => exact congrArg ok (if_neg (by simp [ha, hc]))

/-- Settles O54: each control message is one answer, and the identifier of an endpoint is its last entry. -/
theorem endpointsAndAlerts : Obligations.EndpointsAndAlerts := by
  intro s via hawake hcarried send
  have answer (bs : List Byte) : ok (mctp via bs s) = .next (send bs s) := congrArg ok (mctp_of_served bs hawake hcarried)
  refine ⟨?fabric, fun hdirect => ⟨?reserved, ?assign⟩, answer _, fun k => ?version, answer _, fun k => answer _,
    fun h => congrArg ok (if_pos h), fun h => congrArg ok (if_neg (by simp [h]))⟩
  case fabric =>
    rintro port src direct origin rfl e
    exact (congrArg ok (if_neg (by simp [hawake, hcarried]))).trans (answer _)
  case reserved =>
    intro e he
    rw [exec_setEndpointId_of_direct hawake hcarried hdirect, if_pos (by simpa using he), answer]
  case assign =>
    intro e h0 h1
    have hserved : carried (withEid via e s) via = true := by cases via <;> exact hcarried
    refine ⟨withEid via e s, ?_, eidOf_withEid_self _ _ _, fun w hw => eidOf_withEid_ne _ _ hw, withEid_frame _ _ _⟩
    rw [exec_setEndpointId_of_direct hawake hcarried hdirect, if_neg (by simp only [Bool.or_eq_true, decide_eq_true_eq, not_or]; exact ⟨h0, h1⟩)]
    exact congrArg ok (mctp_of_served (s := withEid via e s) _ hawake hserved)
  case version => exact (answer _).trans (by simp only [Bool.or_eq_true, decide_eq_true_eq, or_assoc])

end Sys2Proof.Machine

namespace Sys2Proof.Machine

section
variable (fz : Fuses)

@[simp] theorem dieOf_resetOf (d : DieIx) : dieOf (resetOf fz) d = Die.zero := by simp [dieOf, resetOf]
@[simp] theorem partOfIx_resetOf (p : PartIx) : partOfIx (resetOf fz) p = Partition.zero := by simp [partOfIx, resetOf]
@[simp] theorem portOf_resetOf (n : PortIx) : portOf (resetOf fz) n = Port.zero := by simp [portOf, resetOf]
@[simp] theorem hostOf_resetOf (h : HostId) : hostOf (resetOf fz) h = HostPort.zero := by cases h <;> rfl
@[simp] theorem queueOf_resetOf (d : DieIx) (q : QueueIx) : queueOf (resetOf fz) d q = Queue.zero := by
  simp [queueOf, Die.zero]

/-- Every memory of a part that was reset is empty. -/
theorem memsOk_resetOf : memsOk (resetOf fz) := by
  refine ⟨fun d => by rw [dieOf_resetOf]; exact dieOk_zero, fun m hm => ?_⟩
  have : m = [] := by simpa [resetOf] using hm
  rw [this]; rfl

/-- After a reset nothing is in flight. -/
theorem idsFresh_resetOf : idsFresh (resetOf fz) :=
  ⟨fun d o ho => by rw [dieOf_resetOf] at ho; exact absurd ho List.not_mem_nil, fun r hr => absurd hr List.not_mem_nil⟩

end

/-- Settles O3: the state after reset is made of the zero values of its pieces. -/
theorem resetValues : Obligations.ResetValues := by
  unfold Obligations.ResetValues
  intro s
  have hdie (d : DieIx) : dieOf s d = Die.zero := dieOf_resetOf _ d
  have hpart (p : PartIx) : partOfIx s p = Partition.zero := partOfIx_resetOf _ p
  have hport (n : PortIx) : portOf s n = Port.zero := portOf_resetOf _ n
  have hhost (h : HostId) : hostOf s h = HostPort.zero := hostOf_resetOf _ h
  have hqueue (d : DieIx) (q : QueueIx) : queueOf s d q = Queue.zero := queueOf_resetOf _ d q
  refine ⟨rfl, rfl, rfl, rfl, rfl, rfl, rfl, rfl, rfl, rfl, rfl, rfl, fun p => ?part, fun d => ?die, fun n => ?port, fun h => ?host, fun w => ⟨rfl, rfl⟩,
    rfl, rfl, rfl, rfl, rfl, rfl, rfl, rfl, rfl, rfl, rfl, rfl, rfl, ?mask, ?catalogue, memsOk_resetOf _, idsFresh_resetOf _⟩
  case part =>
    simp only [ksOf, hpart]
    exact ⟨rfl, rfl, rfl, rfl, fun _ => rfl, rfl⟩
  case die =>
    simp only [handleOf, storeOf, ringOf, flagSetP, hqueue, hdie]
    exact ⟨rfl, fun _ => rfl, fun _ => rfl, fun _ => rfl, fun _ => rfl, rfl, rfl, rfl, fun _ => ⟨rfl, rfl, rfl, rfl, rfl⟩⟩
  case port =>
    rw [hport]
    exact ⟨rfl, rfl, rfl, rfl, rfl, rfl, rfl⟩
  case host =>
    rw [hhost]
    exact ⟨rfl, rfl, fun _ => rfl⟩
  case mask => exact fitFuses_mask _
  case catalogue => exact fitFuses_catalogue _

end Sys2Proof.Machine

namespace Sys2Proof.Machine

/-! ### The step on an empty queue -/

/-- A change that gives a partition its own value is none. -/
theorem updPart_of_eq {p : PartIx} {f : Partition → Partition} {s : State} (h : f (partOfIx s p) = partOfIx s p) : updPart p f s = s := by
  have : s.parts.set p.val (f s.parts[p.val]) = s.parts := by
    rw [show f s.parts[p.val] = s.parts[p.val] from h, Vector.set_getElem_self]
  rw [updPart, this]

/-- Where no set is being evicted none is finished. -/
theorem finishEvictions_of_none {p : PartIx} {s : State} (h : ∀ e ∈ (partOfIx s p).keysets, e.2.state ≠ .evicting) : finishEvictions p s = s := by
  refine updPart_of_eq ?_
  have : (partOfIx s p).keysets.map (fun e => if e.2.state = .evicting && !slotBound s p e.1 then (e.1, { KeySet.zero with lastReason := e.2.lastReason }) else e) =
      (partOfIx s p).keysets := (List.map_congr_left fun e he => if_neg (by simp [h e he])).trans (List.map_id _)
  rw [this]

/-- A queue that has read no packet has none to settle, where no job waits and no set is being evicted. -/
theorem settleQueue_of_idle {d : DieIx} {q : QueueIx} {s : State} (hline : (queueOf s d q).line = []) (hjobs : s.jobs = [])
    (hsets : ∀ p, ∀ e ∈ (partOfIx s p).keysets, e.2.state ≠ .evicting) : settleQueue d q s = s := by
  have hstamp : stampAll s = s := by rw [stampAll, hjobs, List.foldl_nil]
  rw [settleQueue, hline]
  change stampAll (match (dieOf s d).owner with | some p => finishEvictions p s | none => s) = s
  cases (dieOf s d).owner with
  | none => exact hstamp
  | some p => exact (congrArg stampAll (finishEvictions_of_none (hsets p))).trans hstamp

/-- A fold of changes that all leave the state as it is. -/
theorem foldl_of_fixed {α : Type} {f : State → α → State} {s : State} (l : List α) (h : ∀ x ∈ l, f s x = s) : l.foldl f s = s := by
  induction l with
  | nil => rfl
  | cons x l ih => rw [List.foldl_cons, h x List.mem_cons_self, ih fun y hy => h y (List.mem_cons_of_mem _ hy)]

theorem tblGet_mem {α : Type} {t : Tbl α} {k : Nat} {v : α} (h : tblGet t k = some v) : (k, v) ∈ t := by
  induction t with
  | nil => cases h
  | cons e t ih =>
    rw [tblGet] at h
    split at h
    · rename_i hk
      cases h
      exact hk ▸ List.mem_cons_self
    · exact List.mem_cons_of_mem _ (ih h)

/-- With no instruction held there is none to make ready. -/
theorem readyHeads_of_none {s : State} (h : s.held = []) : readyHeads s = s := by
  simp [readyHeads, h]
  rw [← h]

/-- A part with nothing held, no job, nothing read, nothing in flight, no eviction and no delivery idles. -/
theorem idleStep_of_idle {s : State} (hheld : s.held = []) (hjobs : s.jobs = []) (hops : ∀ d, (dieOf s d).ops = [])
    (hlines : ∀ d q, (queueOf s d q).line = []) (hsets : ∀ p, ∀ e ∈ (partOfIx s p).keysets, e.2.state ≠ .evicting)
    (hdeals : ∀ p, ∀ e ∈ (partOfIx s p).sessions, e.2.outDeals = []) : idleStep s = s := by
  have hsettle : settleDies allDies s = s :=
    foldl_of_fixed _ fun d _ => foldl_of_fixed _ fun q _ => settleQueue_of_idle (hlines d q) hjobs hsets
  have htongs : startAllTongs s = s := foldl_of_fixed _ fun d _ => by rw [startTongs, hops, List.filter_nil, List.foldl_nil]
  have hflush : flushAllDeals s = s := foldl_of_fixed _ fun p _ => foldl_of_fixed _ fun e _ => by
    rw [flushDeals]
    split
    · rfl
    · rename_i x hx
      rw [hdeals p _ (tblGet_mem hx), List.foldl_nil]
  rw [idleStep, hsettle, htongs, hflush, readyHeads_of_none hheld, hheld]
  rfl

/-- The oldest held instruction is the first of its queue. -/
theorem heldFront_of_head {s : State} {h : Held} {rest : List Held} (hheld : s.held = h :: rest) : heldFront s h.at_.die h.at_.queue = some h := by
  simp [heldFront, hheld]

/-- The oldest held instruction is issued, and where it goes on no other is. -/
theorem reissueGo_of_goes {s t : State} {h : Held} {rest : List Held} (hheld : s.held = h :: rest)
    (hexec : exec h.instr { s with reissue := some h } = .next t) (hgone : ∀ x ∈ t.held, x.age ≠ h.age) :
    reissueGo s s.held = readyHeads { t with reissue := none } := by
  have hany : t.held.any (fun x => x.age == h.age) = false := by simpa using hgone
  rw [hheld, reissueGo, heldFront_of_head hheld, Option.map_some, if_pos rfl, hexec]
  exact if_neg (by simp [hany])

/-- Settles O2: without work every part of `idleStep` is the identity; with settled queues it is the reissue of the oldest held instruction. -/
theorem idleStep_spec : Obligations.IdleStep := by
  refine ⟨fun s hpending hheld hjobs hops hlines hsets hdeals => ?idle, fun s u t h rest hpending hu hheld hexec hgone => ?reissue⟩
  case idle => rw [step, hpending, idleStep_of_idle hheld hjobs hops hlines hsets hdeals]
  case reissue =>
    rw [step, hpending]
    subst hu
    exact congrArg Host.Outcome.next (reissueGo_of_goes hheld hexec hgone)

end Sys2Proof.Machine

namespace Sys2Proof.Machine

/-! ### Frames of the single changes of the state, and of what is done over and over -/

/-- Changes in a row touch what each of them touches. -/
theorem Frame.then {ws vs : List Area} {s t u : State} (h : Frame ws s t) (k : Frame vs t u) : Frame (ws ++ vs) s u :=
  (h.mono fun _ ha => List.mem_append_left _ ha).trans (k.mono fun _ ha => List.mem_append_right _ ha)

/-- A state that differs from `s` in some areas only, each of which is listed or as it was. -/
theorem fields_frame {ws : List Area} {s : State} {fuses : Fuses} {pins : Pins} {alarm : Alarm} {boot : Boot} {sec : Sec} {log : Log} {dict : Dict}
    {jobs : List Job} {hearth : Hearth} {fabric : Fabric} {ports : Vector Port 16} {twin : Twin} {bn : Bn} {bist : Bist} {out : List Output}
    {held : List Held} {reissue : Option Held} {free nextId : Nat} {pending : List Instr}
    (hfuses : fuses = s.fuses ∨ .fuses ∈ ws := by first | exact .inl rfl | exact .inr (by decide))
    (hpins : { pins with smbAlert := false } = { s.pins with smbAlert := false } ∨ .pins ∈ ws := by
      first | exact .inl rfl | exact .inr (by decide))
    (halert : pins.smbAlert = s.pins.smbAlert ∨ .alert ∈ ws := by first | exact .inl rfl | exact .inr (by decide))
    (halarm : alarm = s.alarm ∨ .alarm ∈ ws := by first | exact .inl rfl | exact .inr (by decide))
    (hboot : boot = s.boot ∨ .boot ∈ ws := by first | exact .inl rfl | exact .inr (by decide))
    (hsec : sec = s.sec ∨ .sec ∈ ws := by first | exact .inl rfl | exact .inr (by decide))
    (hlog : log = s.log ∨ .log ∈ ws := by first | exact .inl rfl | exact .inr (by decide))
    (hdict : dict = s.dict ∨ .dict ∈ ws := by first | exact .inl rfl | exact .inr (by decide))
    (hjobs : jobs = s.jobs ∨ .jobs ∈ ws := by first | exact .inl rfl | exact .inr (by decide))
    (hhearth : hearth = s.hearth ∨ .hearth ∈ ws := by first | exact .inl rfl | exact .inr (by decide))
    (hfabric : fabric = s.fabric ∨ .fabric ∈ ws := by first | exact .inl rfl | exact .inr (by decide))
    (hports : ports = s.ports ∨ .ports ∈ ws := by first | exact .inl rfl | exact .inr (by decide))
    (htwin : twin = s.twin ∨ .twin ∈ ws := by first | exact .inl rfl | exact .inr (by decide))
    (hbn : bn = s.bn ∨ .bn ∈ ws := by first | exact .inl rfl | exact .inr (by decide))
    (hbist : bist = s.bist ∨ .bist ∈ ws := by first | exact .inl rfl | exact .inr (by decide))
    (hout : out = s.out ∨ .out ∈ ws := by first | exact .inl rfl | exact .inr (by decide))
    (hheld : held = s.held ∨ .held ∈ ws := by first | exact .inl rfl | exact .inr (by decide))
    (hreissue : reissue = s.reissue ∨ .reissue ∈ ws := by first | exact .inl rfl | exact .inr (by decide))
    (hfree : free = s.free ∨ .free ∈ ws := by first | exact .inl rfl | exact .inr (by decide))
    (hnextId : nextId = s.nextId ∨ .nextId ∈ ws := by first | exact .inl rfl | exact .inr (by decide))
    (hpending : pending = s.pending ∨ .pending ∈ ws := by first | exact .inl rfl | exact .inr (by decide)) :
    Frame ws s { s with
      fuses := fuses, pins := pins, alarm := alarm, boot := boot, sec := sec, log := log, dict := dict, jobs := jobs, hearth := hearth
      fabric := fabric, ports := ports, twin := twin, bn := bn, bist := bist, out := out, held := held, reissue := reissue, free := free
      nextId := nextId, pending := pending } := by
  intro a ha
  cases a with
  | fuses => exact hfuses.resolve_right ha
  | pins => exact hpins.resolve_right ha
  | alert => exact halert.resolve_right ha
  | alarm => exact halarm.resolve_right ha
  | boot => exact hboot.resolve_right ha
  | sec => exact hsec.resolve_right ha
  | log => exact hlog.resolve_right ha
  | dict => exact hdict.resolve_right ha
  | jobs => exact hjobs.resolve_right ha
  | hearth => exact hhearth.resolve_right ha
  | fabric => exact hfabric.resolve_right ha
  | ports => exact hports.resolve_right ha
  | twin => exact htwin.resolve_right ha
  | bn => exact hbn.resolve_right ha
  | bist => exact hbist.resolve_right ha
  | out => exact hout.resolve_right ha
  | held => exact hheld.resolve_right ha
  | reissue => exact hreissue.resolve_right ha
  | free => exact hfree.resolve_right ha
  | nextId => exact hnextId.resolve_right ha
  | pending => exact hpending.resolve_right ha
  | parts | partLogs | dies | counters | hosts | msix => exact fun _ => rfl

/-- A change of a host port that keeps the vectors it holds. -/
theorem updHost_frame (h : HostId) (f : HostPort → HostPort) (s : State) (hf : (f (hostOf s h)).msixPending = (hostOf s h).msixPending) :
    Frame [.hosts] s (updHost h f s) := by
  intro a ha
  cases a with
  | hosts => exact absurd (List.mem_singleton_self _) ha
  | msix =>
    intro k
    by_cases hk : k = h
    · subst hk; rw [hostOf_updHost_self, hf]
    · rw [hostOf_updHost_ne f s hk]
  | _ => cases h <;> first | rfl | exact fun _ => rfl

/-- What every change of a row of changes keeps, the row keeps. -/
theorem Frame.foldl {α : Type} {ws : List Area} {f : State → α → State} (hf : ∀ s x, Frame ws s (f s x)) (l : List α) (s : State) :
    Frame ws s (l.foldl f s) := by
  induction l generalizing s with
  | nil => exact Frame.refl _ _
  | cons x xs ih => exact (hf s x).trans (ih _)

/-- What a die is after a change of each die of a list, each named once. -/
theorem dieOf_foldl_updDie {l : List DieIx} (f : DieIx → Die → Die) (hl : l.Nodup) (s : State) (d : DieIx) :
    dieOf (l.foldl (fun s d => updDie d (f d) s) s) d = if d ∈ l then f d (dieOf s d) else dieOf s d := by
  induction l generalizing s with
  | nil => rfl
  | cons e es ih =>
    obtain ⟨hne, hes⟩ := List.nodup_cons.mp hl
    rw [List.foldl_cons, ih hes]
    by_cases hd : d = e
    · subst hd; simp [hne]
    · simp [hd]

/-- Every die is active or not: the active ones are listed once. -/
theorem activeDies_nodup (s : State) : (activeDies s).Nodup := (List.nodup_finRange 16).filter _

theorem mem_activeDies {s : State} {d : DieIx} : d ∈ activeDies s ↔ dieActive s d = true := by
  simp [activeDies, allDies]

end Sys2Proof.Machine

namespace Sys2Proof.Machine

/-! ### Boot and verification (R415, R418, R419, R421, R517) -/

/-- A WRITE that the class may make, to a sub-index that can be written, goes to the object once the dies that it needs are awake (R485, R496). -/
theorem answerReq_write {s : State} {x : Extra} {c : Cls} {r : FpReq} {o : ObjRow} (h : s.alarm.device = false)
    (hfw : s.boot.fwState = 2 ∨ bootObjects r.index = true) (hop : r.opcode = 2) (hrow : objOf r.index r.sub = some o)
    (hright : mayWrite c r.index r.sub = true) (htype : o.type ≠ 11) (haccess : 2 < o.access) :
    answerReq x c r s = writeReq x c o r ((needsDies s true r).foldl (fun s d => wakeDie d s) s) := by
  have hboot : (s.boot.fwState != 2 && !bootObjects r.index) = false := by rcases hfw with h | h <;> simp [h]
  simp [answerReq, h, hboot, hrow, onObject, hop, hright, htype, haccess]

/-- A WRITE of GO's length within the bounds of R415 starts verification or is refused (R454). -/
theorem serveReq_go {s : State} {r : FpReq} {port : HostId} (h : s.alarm.device = false) (hs : Served s r .host) (hvia : r.via = .pcie port 0)
    (hop : r.opcode = 2) (hindex : r.index = 0x1F00) (hsub : r.sub = 2) (hlen : r.data.length = 4) (hmin : 8256 ≤ leNat r.data)
    (hmax : leNat r.data ≤ 33554432) :
    execGo r s = .next (match startVerification port (leNat r.data) s with
      | .ok t => respond r (.only 0) t
      | .error e => respond r (.only e) s) := by
  have hrow : objOf 0x1F00 2 = some (numRow 0x1F00 2 2 4 4) := by decide
  have hanswer := answerReq_write (x := .plain) (c := .host) (o := numRow 0x1F00 2 2 4 4) h (.inr (by rw [hindex]; decide)) hop
    (by rw [hindex, hsub, hrow]) (by rw [hindex, hsub]; decide) (by decide) (by decide)
  have hdies : needsDies s true r = [] := by simp [needsDies, hindex]
  have hobj : writeObj .plain r.via .host (whoOf s r.via r.member) r.index r.sub r.data s = startVerification port (leNat r.data) s := by
    simp [writeObj, hindex, hvia, hmin, hmax]
  have hwrite : writeReq .plain .host (numRow 0x1F00 2 2 4 4) r s =
      (match startVerification port (leNat r.data) s with | .ok t => (.only 0, t) | .error e => (.only e, s)) := by
    have hl : (numRow 0x1F00 2 2 4 4).len = 4 := rfl
    simp only [writeReq, hobj, hlen, hl]
    rfl
  rw [execGo, isWrite, hop, hindex, hsub, if_pos (by decide), serveReq_of_served .plain hs, hanswer, hdies, List.foldl_nil, hwrite]
  cases startVerification port (leNat r.data) s <;> rfl

/-- What the anchor self-check leaves in each of its three outcomes (R421, R517). -/
theorem execSelfCheckComplete_pass {s : State} (h : s.alarm.device = false) (hphase : s.boot.phase = .selfCheck) :
    execSelfCheckComplete .pass s = .next (updBoot (fun b => { b with phase := .waitImage })
      { deriveIdentity s with hostA := { s.hostA with enabled := true }, hostB := { s.hostB with enabled := true } }) := by
  simp [execSelfCheckComplete, h, hphase, ok, deriveIdentity]

/-- A self-check that fails quenches the device with its event. -/
theorem execSelfCheckComplete_fails {s : State} (h : s.alarm.device = false) (hphase : s.boot.phase = .selfCheck) :
    execSelfCheckComplete .anchorsDiffer s = .next (deviceFail 0x0803 0 0x0B 0 s) ∧
    execSelfCheckComplete .entropyFails s = .next (deviceFail 0x0804 0 0x0B 0 s) := by
  constructor <;> simp [execSelfCheckComplete, h, hphase, ok]

/-- The brake source of every active die set to 4, with the event of PWRBRK# (R318). -/
theorem applyBrake_dies (s : State) (d : DieIx) :
    { dieOf (applyBrake s) d with counters := [] } = { dieOf s d with counters := [], brake := if dieActive s d then 4 else (dieOf s d).brake } := by
  have hbrakes := dieOf_foldl_updDie (fun _ x => { x with brake := 4 }) (activeDies_nodup s) s d
  have hlog := logEvent_frame 0x0701 (evAt 0 none 0x0B 0) ((activeDies s).foldl (fun s d => updDie d (fun x => { x with brake := 4 }) s) s)
    .dies (by decide) d
  rw [hbrakes] at hlog
  refine Eq.trans hlog ?_
  simp only [mem_activeDies]
  split <;> rfl

/-- Setting the brakes changes dies only, and the event is logged after it. -/
theorem applyBrake_frame (s : State) :
    Frame (.dies :: logAreas) s (applyBrake s) ∧ Logged 0x0701 (evAt 0 none 0x0B 0) s (applyBrake s) := by
  have hbrakes : Frame [.dies] s ((activeDies s).foldl (fun s d => updDie d (fun x => { x with brake := 4 }) s) s) :=
    Frame.foldl (fun s d => updDie_frame_dies d _ s rfl) _ s
  exact ⟨hbrakes.then (logEvent_frame _ _ _),
    (logEvent_logged 0x0701 (evAt 0 none 0x0B 0) _).between (ws := [.dies]) (vs := []) hbrakes (Frame.refl _ _) (by decide) (by decide)⟩

/-- The image fails at the first of the five checks that it does not pass (R418, R419). -/
theorem execVerificationComplete_fails {s : State} {parity : Bool} {n : Nat} {e : Ev} (h : s.alarm.device = false)
    (hphase : s.boot.phase = .verifying)
    (hfails : imageFails s.fuses (memBytes (s.boot.staging.getD s.boot.goPort []) 0 s.boot.imageLength) parity = some (n, e)) :
    ∃ t, exec (.verificationComplete parity) s = .next t ∧ LoggedFirst e (evAt 0 none 0x0B 0) s t ∧
      DeviceQuenched e .internal { s with boot := { s.boot with fwState := 3, failedCheck := n } } t := by
  obtain ⟨hlog, hquench⟩ := deviceFail_quenched (s := { s with boot := { s.boot with fwState := 3, failedCheck := n } }) h e 0 0x0B 0
  refine ⟨_, ?_, hlog, hquench⟩
  change execVerificationComplete parity s = _
  rw [execVerificationComplete, if_neg (by simp [hphase, h])]
  simp only [hfails]
  rfl

/-- An image that passes the five checks runs. -/
theorem execVerificationComplete_passes {s : State} {parity : Bool} (h : s.alarm.device = false) (hphase : s.boot.phase = .verifying)
    (hpasses : imageFails s.fuses (memBytes (s.boot.staging.getD s.boot.goPort []) 0 s.boot.imageLength) parity = none) :
    exec (.verificationComplete parity) s = .next (runImage (memBytes (s.boot.staging.getD s.boot.goPort []) 0 s.boot.imageLength) s) := by
  change execVerificationComplete parity s = _
  rw [execVerificationComplete, if_neg (by simp [hphase, h])]
  simp only [hpasses]

/-- The state in which an image has begun to run, before the brake is looked at. -/
def runningImage (b : List Byte) (s : State) : State :=
  { s with
    boot := { s.boot with fwState := 2, phase := .waitRecord, imageDigest := sha256 (bytesAt b 0 0x60), fwVersion := fieldAt b 8 4
                          fwRollback := fieldAt b 0x0C 4, keySlot := fieldAt b 6 1, revoke := fieldAt b 7 1 }
    sec := { s.sec with state := .operational } }

/-- Settles O6: each outcome of the self-check, of GO and of the five checks is one branch of the command. -/
theorem bootAndVerification : Obligations.BootAndVerification := by
  unfold Obligations.BootAndVerification
  refine ⟨fun s h => ⟨fun hphase => ?_, fun r port hs hvia hop hindex hsub hlen hmin hmax => ?_⟩, fun s parity h hphase => ?_⟩
  · obtain ⟨hanchors, hentropy⟩ := execSelfCheckComplete_fails h hphase
    refine ⟨⟨_, execSelfCheckComplete_pass h hphase, rfl, rfl, rfl, rfl, ?_⟩, exists_of_deviceFail h hanchors, exists_of_deviceFail h hentropy⟩
    have hhosts : Frame [.hosts] s { s with hostA := { s.hostA with enabled := true }, hostB := { s.hostB with enabled := true } } :=
      ((updHost_frame .a (fun x => { x with enabled := true }) s rfl).then
        (updHost_frame .b (fun x => { x with enabled := true }) _ rfl)).mono (by decide)
    exact (hhosts.then (vs := [.boot, .sec]) fields_frame).mono (by decide)
  · have hgo := serveReq_go h hs hvia hop hindex hsub hlen hmin hmax
    refine ⟨fun hwait hfirst => ?_, fun hlate => ?_⟩
    · rw [startVerification, if_pos (by simp [hwait, hfirst])] at hgo
      exact ⟨_, hgo, rfl, rfl, fields_frame⟩
    · rw [startVerification, if_neg (by rcases hlate with h | h <;> simp [h])] at hgo
      exact ⟨_, hgo, rfl, emit_frame _ _⟩
  · intro b keyBad digestBad signed old fails
    have fail {n : Nat} {e : Ev} (hfails : imageFails s.fuses b parity = some (n, e)) : fails n e :=
      execVerificationComplete_fails h hphase hfails
    refine ⟨fun hshape => fail ?_, fun hshape hkey => fail ?_, fun hshape hkey hdigest => fail ?_, fun hshape hkey hdigest hsign => fail ?_,
      fun hshape hkey hdigest hsign hold => fail ?_, fun hshape hkey hdigest hsign hold => ?_⟩
    · rw [imageFails, hshape]; rfl
    · rw [imageFails, hshape]; exact if_pos hkey
    · rw [imageFails, hshape]; exact (if_neg (ne_true_of_eq_false hkey)).trans (if_pos hdigest)
    · rw [imageFails, hshape]
      exact (if_neg (ne_true_of_eq_false hkey)).trans ((if_neg (ne_true_of_eq_false hdigest)).trans (if_pos (congrArg not hsign)))
    · rw [imageFails, hshape]
      exact (if_neg (ne_true_of_eq_false hkey)).trans ((if_neg (ne_true_of_eq_false hdigest)).trans
        ((if_neg (ne_true_of_eq_false (congrArg not hsign))).trans (if_pos hold)))
    · have hpasses : imageFails s.fuses b parity = none := by
        rw [imageFails, hshape]
        exact (if_neg (ne_true_of_eq_false hkey)).trans ((if_neg (ne_true_of_eq_false hdigest)).trans
          ((if_neg (ne_true_of_eq_false (congrArg not hsign))).trans (if_neg hold)))
      have hexec : exec (.verificationComplete parity) s = .next (runImage b s) := execVerificationComplete_passes h hphase hpasses
      refine ⟨_, hexec, ?_⟩
      by_cases hbrake : s.pins.pwrbrk = true
      · obtain ⟨hframe, hlog⟩ := applyBrake_frame (runningImage b s)
        have hstart : Frame [.boot, .sec] s (runningImage b s) := fields_frame
        have hrun : runImage b s = applyBrake (runningImage b s) := if_pos hbrake
        rw [hrun]
        exact ⟨hframe .sec (by decide), hframe .boot (by decide), fun hoff => absurd (hbrake.symm.trans hoff) (by decide),
          fun _ => ⟨hlog.between (vs := []) hstart (Frame.refl _ _) (by decide) (by decide), (hstart.then hframe).mono (by decide),
            applyBrake_dies (runningImage b s)⟩⟩
      · have hrun : runImage b s = runningImage b s := if_neg hbrake
        rw [hrun]
        exact ⟨rfl, rfl, fun _ => fields_frame, fun hon => absurd hon hbrake⟩
end Sys2Proof.Machine

namespace Sys2Proof.Machine

/-! ### The brake, droops and idle states (R231, R318, R332, R514) -/

/-- The deepest of five states of which the shallowest is always allowed and each of the others only with those before it. -/
theorem deepest_spec (p1 p2 p3 p4 secret : Bool) (h2 : p2 = true → p1 = true) (h3 : p3 = true → p2 = true) (h4 : p4 = true → p3 = true) :
    let k := ((List.range 5).filter fun k => [true, p1, p2, p3, p4].getD k false && !(secret && decide (2 < k))).foldl Nat.max 0
    (k = 4 ↔ p4 = true ∧ secret = false) ∧ (k = 3 ↔ (p3 = true ∧ secret = false) ∧ ¬p4 = true) ∧
    (k = 2 ↔ p2 = true ∧ ¬(p3 = true ∧ secret = false)) ∧ (k = 1 ↔ p1 = true ∧ ¬p2 = true) ∧ (k = 0 ↔ ¬p1 = true) := by
  revert p1 p2 p3 p4 secret
  decide

/-- The depth of the idle state that a die enters (R332): the deepest of the four that its partition's tolerance and the time it was idle allow, and,
while it holds a secret, none beyond I2 (R231). -/
theorem idleDepth_spec (s : State) (d : DieIx) (us : Nat) :
    let tol := match (dieOf s d).owner with | some p => (partOfIx s p).tolerance | none => 6000
    let secret := ∃ e ∈ (dieOf s d).handles, e.2.valid = true ∧ e.2.isSecret = true
    let k := idleDepth s d us
    (k = 4 ↔ (6000 ≤ tol ∧ 40000 ≤ us ∧ ¬secret)) ∧
    (k = 3 ↔ (1500 ≤ tol ∧ 4000 ≤ us ∧ ¬secret) ∧ ¬(6000 ≤ tol ∧ 40000 ≤ us)) ∧
    (k = 2 ↔ (40 ≤ tol ∧ 100 ≤ us) ∧ ¬(1500 ≤ tol ∧ 4000 ≤ us ∧ ¬secret)) ∧
    (k = 1 ↔ (1 ≤ tol ∧ 2 ≤ us) ∧ ¬(40 ≤ tol ∧ 100 ≤ us)) ∧
    (k = 0 ↔ ¬(1 ≤ tol ∧ 2 ≤ us)) := by
  intro tol secret k
  have hsecret : secret ↔ ((dieOf s d).handles.any fun e => e.2.valid && e.2.isSecret) = true := by simp [secret]
  have hk : k = ((List.range 5).filter fun k => decide ((idleTimes.getD k (0, 0)).1 ≤ tol ∧ (idleTimes.getD k (0, 0)).2 ≤ us) &&
      !(((dieOf s d).handles.any fun e => e.2.valid && e.2.isSecret) && decide (2 < k))).foldl Nat.max 0 := rfl
  let reach (a b : Nat) : Bool := decide (a ≤ tol ∧ b ≤ us)
  have hk : k = ((List.range 5).filter fun k => [true, reach 1 2, reach 40 100, reach 1500 4000, reach 6000 40000].getD k false &&
      !(((dieOf s d).handles.any fun e => e.2.valid && e.2.isSecret) && decide (2 < k))).foldl Nat.max 0 := by
    refine congrArg (List.foldl Nat.max 0) (List.filter_congr fun i hi => ?_)
    have : i = 0 ∨ i = 1 ∨ i = 2 ∨ i = 3 ∨ i = 4 := by have := List.mem_range.mp hi; omega
    rcases this with rfl | rfl | rfl | rfl | rfl
    · simp [idleTimes]
    all_goals rfl
  have hdeepest := deepest_spec (reach 1 2) (reach 40 100) (reach 1500 4000) (reach 6000 40000)
    ((dieOf s d).handles.any fun e => e.2.valid && e.2.isSecret) (by simp only [reach, decide_eq_true_eq]; omega)
    (by simp only [reach, decide_eq_true_eq]; omega) (by simp only [reach, decide_eq_true_eq]; omega)
  rw [hsecret, Bool.not_eq_true, hk]
  simpa only [reach, decide_eq_true_eq, and_assoc] using hdeepest

/-- Half of the effective limit of a class, as R318 names it. -/
theorem half_effLimit (s : State) (d : DieIx) (c : Nat) :
    Nat.max 1 (effLimit s d c / 2) =
      (let x := dieOf s d
       let l := Nat.min (Nat.min (Nat.min (Nat.min (Nat.min s.hearth.cap (x.clampSrc.getD c 16)) x.thermal) (x.droopSrc.getD c 16)) x.brake) x.paceSrc
       if l / 2 = 0 then 1 else l / 2) := by
  change max 1 (effLimit s d c / 2) = if effLimit s d c / 2 = 0 then 1 else effLimit s d c / 2
  split <;> omega

/-- Settles O10: the brake is the one of `applyBrake`, a droop is two changes of its die, and the depth of an idle state is that of R332. -/
theorem brakeDroopAndIdle : Obligations.BrakeDroopAndIdle := by
  unfold Obligations.BrakeDroopAndIdle
  refine ⟨fun s => ⟨fun hoff hfw => ?_, fun hoff hfw => ?_, rfl, fun d => ⟨?_, ?_⟩⟩, fun s d us hactive hidle => ?_⟩
  · obtain ⟨hframe, hlog⟩ := applyBrake_frame { s with pins := { s.pins with pwrbrk := true } }
    have hpins : Frame [.pins] s { s with pins := { s.pins with pwrbrk := true } } := fields_frame
    have hlevel : ({ (applyBrake { s with pins := { s.pins with pwrbrk := true } }).pins with smbAlert := false } : Pins).pwrbrk = true :=
      congrArg Pins.pwrbrk (hframe .pins (by decide))
    have hexec : exec .pwrbrkAssert s = .next (applyBrake { s with pins := { s.pins with pwrbrk := true } }) := by
      change execPwrbrkAssert s = _
      simp [execPwrbrkAssert, hoff, hfw, ok]
    exact ⟨_, hexec, hlevel, hlog.between (vs := []) hpins (Frame.refl _ _) (by decide) (by decide), (hpins.then hframe).mono (by decide),
      applyBrake_dies { s with pins := { s.pins with pwrbrk := true } }⟩
  · change execPwrbrkAssert s = _
    simp [execPwrbrkAssert, hoff, hfw, ok]
  · refine ⟨_, rfl, ?_, ?_, ?_, rfl, ?_⟩
    · simp
    · simp only [count, dieOf_updDie_self, half_effLimit]
    · intro e he
      simp only [count, dieOf_updDie_ne _ _ he]
    · exact ((updDie_frame _ _ _).trans (updDie_frame _ _ _)).mono (by decide)
  · exact ⟨_, rfl, dieOf_updDie_self _ _ _, fun e he => dieOf_updDie_ne _ _ he, updDie_frame_dies _ _ _ rfl⟩
  · obtain ⟨h4, h3, h2, h1, h0⟩ := idleDepth_spec s d us
    have hexec : exec (.idleEntry d us) s = .next (updDie d (fun x => { x with idle := Nat.max x.idle (idleDepth s d us) }) s) := by
      change execIdleEntry d us s = _
      simp [execIdleEntry, hactive, hidle, ok]
    exact ⟨_, idleDepth s d us, hexec, dieOf_updDie_self _ _ _, fun e he => dieOf_updDie_ne _ _ he, updDie_frame_dies _ _ _ rfl, h4, h3, h2, h1, h0⟩
end Sys2Proof.Machine

namespace Sys2Proof.Machine

/-! ### Eye margins and the end of a partition quench (R285, R460, R469) -/

/-- The dies of a partition are those that it owns, each listed once. -/
@[simp] theorem mem_ownedDies {s : State} {p : PartIx} {d : DieIx} : d ∈ ownedDies s p ↔ (dieOf s d).owner = some p := by
  simp [ownedDies, allDies]

theorem ownedDies_nodup (s : State) (p : PartIx) : (ownedDies s p).Nodup := (List.nodup_finRange 16).filter _

/-- A part whose dies have the owners of another has its partitions' dies. -/
theorem ownedDies_congr {s t : State} (h : ∀ d, (dieOf t d).owner = (dieOf s d).owner) (p : PartIx) : ownedDies t p = ownedDies s p := by
  simp [ownedDies, h]

/-- A part of the state that no change of a row of changes touches is as it was. -/
theorem foldl_same {α β : Type} {f : State → α → State} (g : State → β) (h : ∀ s x, g (f s x) = g s) (l : List α) (s : State) :
    g (l.foldl f s) = g s := by
  induction l generalizing s with
  | nil => rfl
  | cons x xs ih => rw [List.foldl_cons, ih, h]

/-- Settles O15: the port alone is marked, and a quench that ends changes the partition and the queues of its dies. -/
theorem eyeMarginAndQuenchEnd : Obligations.EyeMarginAndQuenchEnd := by
  intro s
  refine ⟨fun n margin hfw hup hlow => ?_, fun n margin hhigh => ?_, fun p e restart hquench hon hjobs => ?_⟩
  · have hexec : exec (.eyeMarginCheck n margin) s = .next (updPort n (fun p => { p with eyeLow := true, eyeCount := p.eyeCount + 1 }) s) := by
      change execEyeMarginCheck n margin s = _
      simp only [execEyeMarginCheck, hfw, hup, hlow]
      rfl
    exact ⟨_, hexec, portOf_updPort_self _ _ _, fun k hk => portOf_updPort_ne _ _ hk, updPort_frame _ _ _⟩
  · change execEyeMarginCheck n margin s = _
    have hlow : decide (margin < s.fuses.eyeMargin.getD n.val 0) = false := decide_eq_false (Nat.not_lt.mpr hhigh)
    rw [execEyeMarginCheck, hlow, Bool.and_false]
    rfl
  · let promote := s.twin.state == .lost && s.twin.armed && (partOfIx s p).role == .standby
    let t := updPart p (fun x => { x with quenching := none, role := if promote then .active else x.role }) s
    let u := (ownedDies s p).foldl (fun s d => updDie d (fun x => { x with queues := x.queues.map (unquench restart) }) s) t
    have hdie (d : DieIx) : dieOf u d = if d ∈ ownedDies s p then { dieOf s d with queues := (dieOf s d).queues.map (unquench restart) } else dieOf s d :=
      dieOf_foldl_updDie (fun _ x => { x with queues := x.queues.map (unquench restart) }) (ownedDies_nodup s p) t d
    have hframe : Frame [.dies] t u := Frame.foldl (fun s d => updDie_frame_dies d _ s rfl) _ _
    have howners : ownedDies u p = ownedDies s p := ownedDies_congr (fun d => by rw [hdie]; split <;> rfl) p
    have hexec : exec (.partitionQuenchComplete p) s =
        .next ((ownedDies u p).foldl (fun s d => allQueues.foldl (fun s q => readQueue d q s) s) u) := by
      change execPartitionQuenchComplete p s = _
      have hcond : (s.alarm.device || s.jobs.any (fun j => j.part == p)) = false := by simpa [hon] using hjobs
      rw [howners]
      simp only [execPartitionQuenchComplete, hquench, hcond]
      rfl
    have hparts (k : PartIx) : partOfIx u k = partOfIx t k :=
      foldl_same (partOfIx · k) (f := fun s d => updDie d (fun x => { x with queues := x.queues.map (unquench restart) }) s) (fun _ _ => rfl) _ t
    refine ⟨u, hexec, ?_, ?_, fun d q hd => ?_, fun d hd => ?_, fun k hk => ?_, ?_⟩
    · rw [hparts, partOfIx_updPart_self]
    · rw [hparts, partOfIx_updPart_self]
      simp [promote, and_assoc]
    · have hqueues := congrArg Die.queues ((hdie d).trans (if_pos (mem_ownedDies.mpr hd)))
      simp only [queueOf, hqueues, Vector.getElem_map, unquench]
    · rw [hdie, if_neg (by simpa using hd)]
    · rw [hparts, partOfIx_updPart_ne _ _ hk]
    · exact (updPart_frame_parts _ _ _ rfl).then hframe
end Sys2Proof.Machine

namespace Sys2Proof.Machine

/-! ### What instructions share: the scoreboard, the destinations named, bytes put (R236, R237) -/

/-- What the scoreboard admits of an instruction that issues for the first time is counted, and it goes on (R237). -/
theorem withScoreboard_admitted {s : State} {d : DieIx} {rs es : List SbEntry} {m : Nat} (hfresh : s.reissue = none)
    (h : sbAdmit s d rs = some (es, m)) (k : List SbEntry → State → Issued) : withScoreboard d rs s k = k es (count d 2 m s) := by
  have hcount : countEntryWait d (count d 2 m s) = count d 2 m s := by
    unfold countEntryWait
    rw [show (count d 2 m s).reissue = none from hfresh]
  simp only [withScoreboard, h, hcount]

/-- Where the dies are kept, what of a die does not look at its counters is the same. -/
theorem Frame.dieField {ws : List Area} {s t : State} (h : Frame ws s t) (hws : Area.dies ∉ ws) {β : Type} (g : Die → β)
    (hg : ∀ x : Die, g { x with counters := [] } = g x) (d : DieIx) : g (dieOf t d) = g (dieOf s d) := by
  have hdie := congrArg g (h .dies hws d)
  rwa [hg, hg] at hdie

theorem Frame.handleOf {ws : List Area} {s t : State} (h : Frame ws s t) (hws : Area.dies ∉ ws) (d : DieIx) (k : Nat) :
    handleOf t d k = handleOf s d k := h.dieField hws (fun x => tblGetD x.handles k Handle.zero) (fun _ => rfl) d

theorem Frame.scratch {ws : List Area} {s t : State} (h : Frame ws s t) (hws : Area.dies ∉ ws) (d : DieIx) :
    (dieOf t d).scratch = (dieOf s d).scratch := h.dieField hws Die.scratch (fun _ => rfl) d

/-- Naming destinations changes jobs only. -/
theorem nameDests_frame (id : Nat) (ds : List Dest) (s : State) : Frame [.jobs] s (nameDests id ds s) := updJob_frame _ _ _

/-- A slot written changes slots only. -/
theorem updSlot_frame (p : PartIx) (k : Nat) (f : BnSlot → BnSlot) (s : State) : Frame [.bn] s (updSlot p k f s) :=
  (bn_frame _ s).ite (Frame.refl _ s)

theorem updSlot_queues (p : PartIx) (k : Nat) (f : BnSlot → BnSlot) (s : State) :
    (updSlot p k f s).bn.waiting = s.bn.waiting ∧ (updSlot p k f s).bn.running = s.bn.running := by
  unfold updSlot
  split <;> exact ⟨rfl, rfl⟩

/-- What bytes put into a memory change (R235). -/
theorem wrote_memPut {m : Mem} (h : Memory.wf m = true) (a : Nat) (bs : List Byte) : Wrote m (memPut m a bs) a bs :=
  fun x => memGet_memPut bs a x h

/-- A handle is usable where it is valid and backs no ring. -/
theorem handleUse_of_valid {s : State} {d : DieIx} {h : Nat} (hvalid : (handleOf s d h).valid = true) (hring : (handleOf s d h).ring = false) :
    handleUse s d h = none := by
  simp [handleUse, hvalid, hring]

/-- Bytes put into a handle change its die's scratchpad only, from the handle's first row on. -/
theorem putHandle_wrote {s : State} {d : DieIx} (h : Memory.wf (dieOf s d).scratch = true) (k o : Nat) (bs : List Byte) :
    Wrote (dieOf s d).scratch (dieOf (putHandle d k o bs s) d).scratch ((handleOf s d k).base * 288 + o) bs := by
  simpa [putHandle, rowBytes] using wrote_memPut h ((handleOf s d k).base * 288 + o) bs

theorem putHandle_frame (d : DieIx) (k o : Nat) (bs : List Byte) (s : State) : Frame [.dies] s (putHandle d k o bs s) :=
  updDie_frame_dies d _ s rfl

/-- Between states that agree on dies but for counters, bytes put into a handle leave the rest of the part's dies. -/
theorem putHandle_rest {ws : List Area} {s u : State} (h : Frame ws s u) (hws : Area.dies ∉ ws) (d : DieIx) (k o : Nat) (bs : List Byte) :
    scratchRest (dieOf (putHandle d k o bs u) d) = scratchRest (dieOf s d) ∧ (dieOf (putHandle d k o bs u) d).ops = (dieOf s d).ops ∧
    (dieOf (putHandle d k o bs u) d).scoreboard = (dieOf s d).scoreboard ∧ OtherDies d s (putHandle d k o bs u) := by
  simp only [putHandle, dieOf_updDie_self]
  exact ⟨h.dieField hws scratchRest (fun _ => rfl) d, h.dieField hws Die.ops (fun _ => rfl) d, h.dieField hws Die.scoreboard (fun _ => rfl) d,
    fun e he => by rw [dieOf_updDie_ne _ _ he]; exact h .dies hws e⟩

/-! ### Big-number slots (R443, R444) -/

/-- A slot's words reach a handle that is usable and long enough. -/
theorem bnRange_pass {s : State} {d : DieIx} {h o n : Nat} (hvalid : (handleOf s d h).valid = true) (hring : (handleOf s d h).ring = false)
    (hfits : o + 8 * n ≤ (handleOf s d h).rows * 288) : bnRange s d h o n = .pass := by
  have : decide ((handleOf s d h).rows * rowBytes < o + 8 * n) = false := decide_eq_false (Nat.not_lt.mpr hfits)
  simp [bnRange, handleUse_of_valid hvalid hring, this, failIf]

/-- Settles O30: each of the three passes its checks and makes its one change. -/
theorem bigNumberSlots : Obligations.BigNumberSlots := by
  intro s a j k hready hk
  dsimp only
  refine ⟨fun n sec hmin hmax => ?_, fun h o es hn ⟨hvalid, hring, hfits⟩ hsecret hclean hadmit => ?_,
    fun h o es hmems hn hfull ⟨hvalid, hring, hfits⟩ hsecret hadmit => ?_⟩
  · have hexec : exec (.bnCfg a k n sec) s =
        .next (updSlot j.part k (fun _ => ⟨n, sec, false, 0⟩) (nameDests j.id (slotDests j.part [k]) s)) := by
      refine congrArg ok (runInstr_done hready ?_)
      have hbounds : (decide (16 ≤ k) || decide (n < 4) || decide (64 < n)) = false := by simp; omega
      simp [hbounds]
    refine ⟨_, hexec, slotAt_updSlot_self _ hk _ _, fun p i hp => slotAt_updSlot_ne _ _ hp, ?_, (updSlot_queues _ _ _ _).1, (updSlot_queues _ _ _ _).2,
      ((nameDests_frame _ _ _).then (updSlot_frame _ _ _ _)).mono (by decide)⟩
    rw [updSlot_frame _ _ _ _ .jobs (by decide)]
    exact nameDests_jobRest _ _ _
  · have hpass : firstFail [failIf ((slotAt s j.part k).n == 0) (.skip 0x0102), bnRange s a.die h o (slotAt s j.part k).n,
        failIf ((handleOf s a.die h).isSecret && !(slotAt s j.part k).isSecret) (.skip 0x0105)] = .pass := by
      rw [bnRange_pass hvalid hring hfits]
      cases hmark : (handleOf s a.die h).isSecret <;> simp_all [firstFail, failIf]
    have hcounted := count_frame a.die 2 es.2 s
    have hexec : exec (.bnLoad a k h o) s = .next (updSlot j.part k (fun y => { y with
        value := leNat (handleBytes s a.die h o (8 * (slotAt s j.part k).n)), valid := true })
        (nameDests j.id (slotDests j.part [k]) (count a.die 2 es.2 s))) := by
      refine congrArg ok (runInstr_done hready ?_)
      simp only [hpass]
      rw [if_neg (by decide), withScoreboard_admitted hready.fresh hadmit,
        if_neg (by rw [hcounted.handleOf (by decide), hclean]; decide)]
      simp only [handleBytes, hcounted.handleOf (by decide), hcounted.scratch (by decide)]
    refine ⟨_, hexec, slotAt_updSlot_self _ hk _ _, fun p i hp => slotAt_updSlot_ne _ _ hp, (updSlot_queues _ _ _ _).1, (updSlot_queues _ _ _ _).2,
      (((count_frame _ _ _ _).then (nameDests_frame _ _ _)).then (updSlot_frame _ _ _ _)).mono (by decide)⟩
  · have hpass : firstFail [failIf ((slotAt s j.part k).n == 0) (.skip 0x0102), bnRange s a.die h o (slotAt s j.part k).n,
        failIf ((slotAt s j.part k).isSecret && !(handleOf s a.die h).isSecret) (.skip 0x0105), failIf (!(slotAt s j.part k).valid) (.skip 0x0107)] =
        .pass := by
      rw [bnRange_pass hvalid hring hfits]
      cases hmark : (slotAt s j.part k).isSecret <;> simp_all [firstFail, failIf]
    let u := nameDests j.id [.handle a.die h] (count a.die 2 es.2 s)
    have hu : Frame [.counters, .jobs] s u := (count_frame a.die 2 es.2 s).then (nameDests_frame _ _ _)
    have hexec : exec (.bnRead a h o k) s = .next (putHandle a.die h o (leBytes (8 * (slotAt s j.part k).n) (slotAt s j.part k).value) u) := by
      refine congrArg ok (runInstr_done hready ?_)
      simp only [hpass]
      rw [if_neg (by decide), withScoreboard_admitted hready.fresh hadmit]
    obtain ⟨hrest, hops, hboard, hothers⟩ := putHandle_rest hu (by decide) a.die h o (leBytes (8 * (slotAt s j.part k).n) (slotAt s j.part k).value)
    have hwrote := putHandle_wrote (s := u) (d := a.die) (by rw [hu.scratch (by decide)]; exact (hmems.1 a.die).1) h o
      (leBytes (8 * (slotAt s j.part k).n) (slotAt s j.part k).value)
    rw [hu.scratch (by decide), hu.handleOf (by decide)] at hwrote
    exact ⟨_, hexec, hwrote, hrest, hops, hboard, hothers, (hu.then (putHandle_frame _ _ _ _ _)).mono (by decide)⟩
end Sys2Proof.Machine

namespace Sys2Proof.Machine

/-! ### Handles after a change of one -/

@[simp] theorem handleOf_updHandle_self (d : DieIx) (h : Nat) (f : Handle → Handle) (s : State) : handleOf (updHandle d h f s) d h = f (handleOf s d h) := by
  simp [handleOf, updHandle]

theorem handleOf_updHandle_ne {d e : DieIx} {h k : Nat} (f : Handle → Handle) (s : State) (hne : e ≠ d ∨ k ≠ h) :
    handleOf (updHandle d h f s) e k = handleOf s e k := by
  by_cases hd : e = d
  · subst hd
    have hk := hne.resolve_left (fun k => k rfl)
    simp [handleOf, updHandle, hk]
  · simp [handleOf, updHandle, hd]

@[simp] theorem storeOf_updStore_self (d : DieIx) (h : Nat) (f : StoreHandle → StoreHandle) (s : State) :
    storeOf (updStore d h f s) d h = f (storeOf s d h) := by
  simp [storeOf, updStore]

theorem storeOf_updStore_ne {d e : DieIx} {h k : Nat} (f : StoreHandle → StoreHandle) (s : State) (hne : e ≠ d ∨ k ≠ h) :
    storeOf (updStore d h f s) e k = storeOf s e k := by
  by_cases hd : e = d
  · subst hd
    have hk := hne.resolve_left (fun k => k rfl)
    simp [storeOf, updStore, hk]
  · simp [storeOf, updStore, hd]

@[simp] theorem ringOf_updRing_self (d : DieIx) (r : Nat) (f : Ring → Ring) (s : State) : ringOf (updRing d r f s) d r = f (ringOf s d r) := by
  simp [ringOf, updRing]

theorem ringOf_updRing_ne {d e : DieIx} {r k : Nat} (f : Ring → Ring) (s : State) (hne : e ≠ d ∨ k ≠ r) :
    ringOf (updRing d r f s) e k = ringOf s e k := by
  by_cases hd : e = d
  · subst hd
    have hk := hne.resolve_left (fun k => k rfl)
    simp [ringOf, updRing, hk]
  · simp [ringOf, updRing, hd]

/-! ### What the quench of a job leaves (R459)

The work of a job's quench poisons and ends: it never takes poison away, frees a handle, adds an operation or touches another job. `JobWork` states
that between two states, so that the steps of `quenchJob` and the events before it compose. -/

/-- A die in work of a quench with event `e`: poison of the event stays, no operation comes up, flags and rows held out are as they were. -/
structure DieWork (e : Ev) (x y : Die) : Prop where
  owner : y.owner = x.owner
  flags : y.flags = x.flags
  heldOut : y.heldOut = x.heldOut
  heldOutStore : y.heldOutStore = x.heldOutStore
  ops : ∀ o ∈ y.ops, ∃ p ∈ x.ops, p.id = o.id ∧ p.job = o.job
  handles : ∀ h, (tblGetD x.handles h Handle.zero).valid = true → (tblGetD y.handles h Handle.zero).valid = true ∧
    ((tblGetD x.handles h Handle.zero).poisoned = true → (tblGetD y.handles h Handle.zero).poisoned = true)
  stores : ∀ h, (tblGetD x.storeHandles h StoreHandle.zero).valid = true → (tblGetD y.storeHandles h StoreHandle.zero).valid = true ∧
    ((tblGetD x.storeHandles h StoreHandle.zero).poisoned = true → (tblGetD y.storeHandles h StoreHandle.zero).poisoned = true)
  rings : ∀ r, (tblGetD y.rings r Ring.zero).active = (tblGetD x.rings r Ring.zero).active
  tiles : ∀ z, (z, e) ∈ x.tilePoison → (z, e) ∈ y.tilePoison
  cache : ∀ z, (z, e) ∈ x.cachePoison → (z, e) ∈ y.cachePoison
  scalars : ∀ z ∈ x.scalarPoison, z ∈ y.scalarPoison
  palette : ∀ z ∈ x.palettePoison, z ∈ y.palettePoison

theorem DieWork.refl (e : Ev) (x : Die) : DieWork e x x where
  owner := rfl
  flags := rfl
  heldOut := rfl
  heldOutStore := rfl
  ops o ho := ⟨o, ho, rfl, rfl⟩
  handles _ h := ⟨h, id⟩
  stores _ h := ⟨h, id⟩
  rings _ := rfl
  tiles _ h := h
  cache _ h := h
  scalars _ h := h
  palette _ h := h

theorem DieWork.trans {e : Ev} {x y z : Die} (h : DieWork e x y) (k : DieWork e y z) : DieWork e x z where
  owner := k.owner.trans h.owner
  flags := k.flags.trans h.flags
  heldOut := k.heldOut.trans h.heldOut
  heldOutStore := k.heldOutStore.trans h.heldOutStore
  ops o ho := by
    obtain ⟨p, hp, hid, hjob⟩ := k.ops o ho
    obtain ⟨q, hq, hqid, hqjob⟩ := h.ops p hp
    exact ⟨q, hq, hqid.trans hid, hqjob.trans hjob⟩
  handles i hi := ⟨(k.handles i (h.handles i hi).1).1, fun hp => (k.handles i (h.handles i hi).1).2 ((h.handles i hi).2 hp)⟩
  stores i hi := ⟨(k.stores i (h.stores i hi).1).1, fun hp => (k.stores i (h.stores i hi).1).2 ((h.stores i hi).2 hp)⟩
  rings r := (k.rings r).trans (h.rings r)
  tiles i hi := k.tiles i (h.tiles i hi)
  cache i hi := k.cache i (h.cache i hi)
  scalars i hi := k.scalars i (h.scalars i hi)
  palette i hi := k.palette i (h.palette i hi)

/-- What of a die such work looks at. -/
def workPart (x : Die) : Die :=
  { Die.zero with
    owner := x.owner, flags := x.flags, heldOut := x.heldOut, heldOutStore := x.heldOutStore, ops := x.ops, handles := x.handles
    storeHandles := x.storeHandles, rings := x.rings, tilePoison := x.tilePoison, cachePoison := x.cachePoison, scalarPoison := x.scalarPoison
    palettePoison := x.palettePoison }

theorem DieWork.of_part (e : Ev) {x y : Die} (h : workPart y = workPart x) : DieWork e x y := by
  have hrefl := DieWork.refl e (workPart x)
  have hwork : DieWork e (workPart x) (workPart y) := by rw [h]; exact hrefl
  exact ⟨hwork.owner, hwork.flags, hwork.heldOut, hwork.heldOutStore, hwork.ops, hwork.handles, hwork.stores, hwork.rings, hwork.tiles, hwork.cache, hwork.scalars,
    hwork.palette⟩

/-- A partition in such work keeps all but its log and the sets that were being evicted. -/
structure PartWork (x y : Partition) : Prop where
  rest : { y with log := [], keysets := [] } = { x with log := [], keysets := [] }
  keysets : ∀ k, (tblGetD x.keysets k KeySet.zero).state ≠ .evicting → tblGetD y.keysets k KeySet.zero = tblGetD x.keysets k KeySet.zero
  unmirrored : ∀ k, (tblGetD x.keysets k KeySet.zero).mirrored = false → (tblGetD y.keysets k KeySet.zero).mirrored = false

theorem PartWork.refl (x : Partition) : PartWork x x := ⟨rfl, fun _ _ => rfl, fun _ h => h⟩

theorem PartWork.trans {x y z : Partition} (h : PartWork x y) (k : PartWork y z) : PartWork x z :=
  ⟨k.rest.trans h.rest, fun i hi => (k.keysets i (by rwa [h.keysets i hi])).trans (h.keysets i hi),
    fun i hi => k.unmirrored i (h.unmirrored i hi)⟩

theorem PartWork.field {x y : Partition} (h : PartWork x y) {β : Type} (g : Partition → β)
    (hg : ∀ x : Partition, g { x with log := [], keysets := [] } = g x) : g y = g x := by
  have hrest := congrArg g h.rest
  rwa [hg, hg] at hrest

/-- Work of the quench of the job with an identifier, with event `e`. -/
structure JobWork (e : Ev) (id : Nat) (s t : State) : Prop where
  frame : Frame jobQuenchAreas s t
  others : ∀ k ∈ s.jobs, k.id ≠ id → k ∈ t.jobs
  ids : ∀ k ∈ t.jobs, ∃ i ∈ s.jobs, i.id = k.id
  dies : ∀ d, DieWork e (dieOf s d) (dieOf t d)
  parts : ∀ p, PartWork (partOfIx s p) (partOfIx t p)

theorem JobWork.refl (e : Ev) (id : Nat) (s : State) : JobWork e id s s :=
  ⟨Frame.refl _ _, fun _ hk _ => hk, fun k hk => ⟨k, hk, rfl⟩, fun _ => DieWork.refl _ _, fun _ => PartWork.refl _⟩

theorem JobWork.trans {e : Ev} {id : Nat} {s t u : State} (h : JobWork e id s t) (k : JobWork e id t u) : JobWork e id s u where
  frame := h.frame.trans k.frame
  others i hi hne := k.others i (h.others i hi hne) hne
  ids i hi := by
    obtain ⟨m, hm, hid⟩ := k.ids i hi
    obtain ⟨n, hn, hnid⟩ := h.ids m hm
    exact ⟨n, hn, hnid.trans hid⟩
  dies d := (h.dies d).trans (k.dies d)
  parts p := (h.parts p).trans (k.parts p)

theorem JobWork.foldl {α : Type} {e : Ev} {id : Nat} {f : State → α → State} (hf : ∀ s x, JobWork e id s (f s x)) (l : List α) (s : State) :
    JobWork e id s (l.foldl f s) := by
  induction l generalizing s with
  | nil => exact .refl e id s
  | cons x l ih => exact (hf s x).trans (ih _)

/-- A change of dies and of what the work may touch and says nothing of. -/
theorem JobWork.of_dies {e : Ev} {id : Nat} {s t : State} (hframe : Frame jobQuenchAreas s t) (hjobs : t.jobs = s.jobs)
    (hdies : ∀ d, DieWork e (dieOf s d) (dieOf t d)) (hparts : t.parts = s.parts) : JobWork e id s t where
  frame := hframe
  others k hk _ := hjobs ▸ hk
  ids k hk := ⟨k, hjobs ▸ hk, rfl⟩
  dies := hdies
  parts p := by rw [show partOfIx t p = partOfIx s p by rw [partOfIx, partOfIx, hparts]]; exact .refl _

theorem JobWork.of_rest {e : Ev} {id : Nat} {s t : State} (hframe : Frame jobQuenchAreas s t) (hjobs : t.jobs = s.jobs) (hdies : t.dies = s.dies)
    (hparts : t.parts = s.parts) : JobWork e id s t :=
  .of_dies hframe hjobs (fun d => by rw [show dieOf t d = dieOf s d by rw [dieOf, dieOf, hdies]]; exact .refl _ _) hparts

/-- A change of one die. -/
theorem updDie_work {e : Ev} {d : DieIx} {f : Die → Die} {s : State} (id : Nat) (hf : DieWork e (dieOf s d) (f (dieOf s d))) :
    JobWork e id s (updDie d f s) := by
  refine .of_dies ((updDie_frame d f s).mono (by decide)) rfl (fun i => ?_) rfl
  by_cases hi : i = d
  · subst hi; rwa [dieOf_updDie_self]
  · rw [dieOf_updDie_ne _ _ hi]; exact .refl _ _

/-- A change of what the work does not look at of one die. -/
theorem updDie_work_part {e : Ev} {d : DieIx} {f : Die → Die} {s : State} (id : Nat) (hf : workPart (f (dieOf s d)) = workPart (dieOf s d)) :
    JobWork e id s (updDie d f s) := updDie_work id (.of_part e hf)

/-! #### Messages -/

theorem emit_work (e : Ev) (id : Nat) (o : Output) (s : State) : JobWork e id s (emit o s) := .of_rest ((emit_frame o s).mono (by decide)) rfl rfl rfl

theorem updPort_work (e : Ev) (id : Nat) (n : PortIx) (f : Port → Port) (s : State) : JobWork e id s (updPort n f s) :=
  .of_rest ((updPort_frame n f s).mono (by decide)) rfl rfl rfl

theorem updHost_work (e : Ev) (id : Nat) (h : HostId) (f : HostPort → HostPort) (s : State) : JobWork e id s (updHost h f s) := by
  refine .of_rest (fun a ha => ?_) (by cases h <;> rfl) (by cases h <;> rfl) (by cases h <;> rfl)
  cases a with
  | hosts => exact absurd (by decide) ha
  | msix => exact absurd (by decide) ha
  | _ => cases h <;> first | rfl | exact fun _ => rfl

theorem sendMsg_work (e : Ev) (id : Nat) (k : MsgKind) (d : DieIx) (part : Nat) (dst : DieIx) (o : Sent → Output) (s : State) :
    JobWork e id s (sendMsg k d part dst o s) := by
  unfold sendMsg
  split
  · exact .refl _ _ _
  · split
    · exact emit_work ..
    · exact emit_work ..
    · exact updPort_work ..

theorem msix_work (e : Ev) (id : Nat) (h : HostId) (fn vec : Nat) (s : State) : JobWork e id s (msix h fn vec s) := by
  unfold msix
  split
  · exact emit_work ..
  · exact updHost_work ..

/-! #### Poison -/

/-- A step that is taken under a condition only. -/
theorem ite_work {e : Ev} {id : Nat} {s t : State} {c : Prop} [Decidable c] (h : JobWork e id s t) : JobWork e id s (if c then t else s) := by
  split
  · exact h
  · exact .refl _ _ _

theorem updHandle_work {e : Ev} (id : Nat) {d : DieIx} {h : Nat} {f : Handle → Handle} {s : State}
    (hf : ∀ x, (x.valid = true → (f x).valid = true) ∧ (x.poisoned = true → (f x).poisoned = true)) : JobWork e id s (updHandle d h f s) := by
  refine updDie_work id { DieWork.refl e (dieOf s d) with handles := fun i hi => ?_ }
  by_cases hih : i = h
  · subst hih; simpa using ⟨(hf _).1 hi, (hf _).2⟩
  · simpa [hih] using hi

theorem poisonHandle_work (id : Nat) (d : DieIx) (h : Nat) (e e' : Ev) (s : State) : JobWork e id s (poisonHandle d h e' s) :=
  ite_work (updHandle_work id fun _ => ⟨fun hv => hv, fun _ => rfl⟩)

theorem updStore_work {e : Ev} (id : Nat) {d : DieIx} {h : Nat} {f : StoreHandle → StoreHandle} {s : State}
    (hf : ∀ x, (x.valid = true → (f x).valid = true) ∧ (x.poisoned = true → (f x).poisoned = true)) : JobWork e id s (updStore d h f s) := by
  refine updDie_work id { DieWork.refl e (dieOf s d) with stores := fun i hi => ?_ }
  by_cases hih : i = h
  · subst hih; simpa using ⟨(hf _).1 hi, (hf _).2⟩
  · simpa [hih] using hi

theorem poisonStore_work (id : Nat) (d : DieIx) (h : Nat) (e e' : Ev) (s : State) : JobWork e id s (poisonStore d h e' s) :=
  ite_work (updStore_work id fun _ => ⟨fun hv => hv, fun _ => rfl⟩)

theorem bn_work (e : Ev) (id : Nat) (b : Bn) (s : State) : JobWork e id s { s with bn := b } := .of_rest fields_frame rfl rfl rfl

theorem poisonDest_work (id : Nat) (e : Ev) (t : Dest) (s : State) : JobWork e id s (poisonDest e t s) := by
  cases t with
  | handle d h => exact poisonHandle_work ..
  | store d h => exact poisonStore_work ..
  | slot d k =>
    unfold poisonDest
    dsimp only
    exact updDie_work_part id rfl
  | ring d r => simp only [poisonDest]; split; exacts [poisonHandle_work .., .refl _ _ _]
  | tile d g z =>
    unfold poisonDest
    dsimp only
    refine updDie_work id { DieWork.refl e (dieOf s d) with tiles := fun i hi => ?_ }
    by_cases hz : i = g.val * 8 + z <;> simp [hz, hi]
  | cache d g line n =>
    unfold poisonDest
    dsimp only
    refine updDie_work id { DieWork.refl e (dieOf s d) with cache := fun i hi => ?_ }
    by_cases hz : i ∈ (List.range n).map fun i => g.val * 2048 + line + i
    · exact List.mem_append_right _ (List.mem_map.mpr ⟨i, hz, rfl⟩)
    · exact List.mem_append_left _ (by simp_all)
  | scalar d sc =>
    unfold poisonDest
    dsimp only
    refine updDie_work id { DieWork.refl e (dieOf s d) with scalars := fun i hi => ?_ }
    by_cases hz : i = sc <;> simp [hz, hi]
  | palette d k =>
    unfold poisonDest
    dsimp only
    refine updDie_work id { DieWork.refl e (dieOf s d) with palette := fun i hi => ?_ }
    by_cases hz : i = k <;> simp [hz, hi]
  | bnSlot p k => exact bn_work ..
  | _ => exact .refl _ _ _

theorem poisonAll_work (id : Nat) (e : Ev) (ds : List Dest) (s : State) : JobWork e id s (poisonAll e ds s) :=
  .foldl (fun s d => poisonDest_work id e d s) ds s

/-! #### Aborted operations -/

theorem free_work (e : Ev) (id n : Nat) (s : State) : JobWork e id s { s with free := n } := .of_rest fields_frame rfl rfl rfl

theorem zeroHandle_work (e : Ev) (id : Nat) (d : DieIx) (h : Nat) (s : State) : JobWork e id s (zeroHandle d h s) := by
  unfold zeroHandle
  exact updDie_work_part id rfl

theorem spoilDest_work (e : Ev) (id : Nat) (ys : List Op) (t : Dest) (s : State) : JobWork e id s (spoilDest ys t s) := by
  have die (d : DieIx) (f : Die → Die) (n : Nat) (hf : workPart (f (dieOf s d)) = workPart (dieOf s d)) :
      JobWork e id s { updDie d f s with free := n } := (updDie_work_part id hf).trans (free_work ..)
  cases t with
  | handle d h => unfold spoilDest; dsimp only; split; exacts [zeroHandle_work .., die d _ _ rfl]
  | store d h =>
    refine JobWork.trans (JobWork.trans (updDie_work_part (d := d) id ?_) (updStore_work id (d := d) (h := h) ?_)) (free_work ..)
    · rfl
    · exact fun x => ⟨fun hv => hv, fun hp => hp⟩
  | slot d k =>
    unfold spoilDest; dsimp only
    split
    · exact .refl _ _ _
    · exact (free_work e id (s.free + 1) s).trans (updDie_work_part id rfl)
  | region d mask row rows => exact die d _ _ rfl
  | tile d g z => exact die d _ _ rfl
  | cache d g line n => exact die d _ _ rfl
  | scalar d sc => exact die d _ _ rfl
  | _ => exact .refl _ _ _

theorem spoilSlots_work (e : Ev) (id : Nat) (d : DieIx) (o : Op) (s : State) : JobWork e id s (spoilSlots d o s) :=
  .foldl (fun s _ => (updDie_work_part id rfl).trans (free_work e id (s.free + 1) _)) _ s

/-- Operations changed in place: each keeps its identifier and its job. -/
theorem updDie_work_ops {e : Ev} (id : Nat) {d : DieIx} {f : Die → Die} {s : State} (hpart : workPart { f (dieOf s d) with ops := [] } =
    workPart { dieOf s d with ops := [] }) (hops : ∀ o ∈ (f (dieOf s d)).ops, ∃ p ∈ (dieOf s d).ops, p.id = o.id ∧ p.job = o.job) :
    JobWork e id s (updDie d f s) := by
  have hrest := DieWork.of_part e hpart
  exact updDie_work id ⟨hrest.owner, hrest.flags, hrest.heldOut, hrest.heldOutStore, hops, hrest.handles, hrest.stores, hrest.rings, hrest.tiles, hrest.cache,
    hrest.scalars, hrest.palette⟩

theorem updRing_work {e : Ev} (id : Nat) {d : DieIx} {r : Nat} {f : Ring → Ring} {s : State} (hf : ∀ x, (f x).active = x.active) :
    JobWork e id s (updRing d r f s) := by
  refine updDie_work id { DieWork.refl e (dieOf s d) with rings := fun i => ?_ }
  by_cases hi : i = r
  · subst hi; simp [hf]
  · simp [hi]

theorem resetRing_work (id : Nat) (d : DieIx) (e e' : Ev) (r : Nat) (s : State) : JobWork e id s (resetRing d e' r s) := by
  unfold resetRing
  refine .trans ?_ (poisonHandle_work ..)
  refine .trans (updRing_work (d := d) (r := r) id ?_) (updDie_work_ops id ?_ ?_)
  · exact fun _ => rfl
  · rfl
  · intro o ho
    obtain ⟨p, hp, rfl⟩ := List.mem_map.1 ho
    exact ⟨p, hp, rfl, rfl⟩

theorem dropClaims_work (id : Nat) (d : DieIx) (e e' : Ev) (o : Op) (s : State) : JobWork e id s (dropClaims d e' o s) :=
  .foldl (fun s r => resetRing_work id d e e' r s) _ s

theorem setGroup_work (e : Ev) (id : Nat) (d : DieIx) (i g : Nat) (s : State) : JobWork e id s (setGroup d i g s) := by
  refine updDie_work_ops id ?_ ?_
  · rfl
  · intro o ho
    obtain ⟨p, hp, rfl⟩ := List.mem_map.1 ho
    refine ⟨p, hp, ?_⟩
    split <;> exact ⟨rfl, rfl⟩

theorem sendGroup_work (e : Ev) (id : Nat) (h : HostId) (d : DieIx) (o : Op) (s : State) : JobWork e id s (sendGroup h d o s) := by
  unfold sendGroup
  split
  · refine .trans ?_ (sendMsg_work ..)
    refine .trans ?_ (setGroup_work ..)
    exact .of_rest fields_frame rfl rfl rfl
  · split
    · refine .trans ?_ (emit_work ..)
      refine .trans ?_ (setGroup_work ..)
      refine .trans ?_ (updHost_work ..)
      exact .of_rest fields_frame rfl rfl rfl
    · exact .refl _ _ _
  · exact .refl _ _ _

theorem sendWaiting_work (e : Ev) (id : Nat) (h : HostId) (s : State) : JobWork e id s (sendWaiting h s) := by
  unfold sendWaiting sendBench
  split
  · exact sendGroup_work ..
  · split
    · exact .refl _ _ _
    · split
      · exact updHost_work ..
      · split
        · exact .refl _ _ _
        · refine JobWork.trans (JobWork.trans (t := { s with nextId := s.nextId + 1 }) (.of_rest fields_frame rfl rfl rfl) (updHost_work ..)) (emit_work ..)

theorem dropOp_work (e : Ev) (id : Nat) (d : DieIx) (i : Nat) (s : State) : JobWork e id s (dropOp d i s) := by
  have waiting (h : HostId) (c : Bool) (t : State) : JobWork e id t (if c then sendWaiting h t else t) := ite_work (sendWaiting_work ..)
  have hosts (a b : HostPort) (f : Fabric) (t : State) : JobWork e id t { t with hostA := a, hostB := b, fabric := f } :=
    ((updHost_work e id .a (fun _ => a) t).trans (updHost_work e id .b (fun _ => b) _)).trans (.of_rest fields_frame rfl rfl rfl)
  refine .trans ?_ (waiting .b _ _)
  refine .trans ?_ (waiting .a _ _)
  refine .trans (updDie_work_ops (d := d) (f := fun x => { x with
    ops := x.ops.filter (·.id != i), scoreboard := x.scoreboard.filter (·.op != i) }) id ?_ ?_) (hosts _ _ _ _)
  · rfl
  · exact fun o ho => ⟨o, List.mem_of_mem_filter ho, rfl, rfl⟩

theorem abortOp_work (e : Ev) (id : Nat) (d : DieIx) (o : Op) (s : State) : JobWork e id s (abortOp d e o s) := by
  unfold abortOp
  refine .trans ?_ (dropOp_work ..)
  refine .trans ?_ (dropClaims_work ..)
  refine .trans ?_ (poisonAll_work ..)
  refine .trans ?_ (spoilSlots_work ..)
  exact .foldl (fun s t => spoilDest_work e id _ t s) _ s

theorem abortBn_work (e : Ev) (id i : Nat) (s : State) : JobWork e id s (abortBn i s) := by
  unfold abortBn zeroBnSlots
  refine .trans ?_ (bn_work ..)
  split
  · split
    · exact ite_work ((bn_work e id { s.bn with running := none } s).trans (bn_work ..))
    · exact .refl _ _ _
  · exact .refl _ _ _

/-! #### The end of a job -/

theorem zeroJobSecrets_work (e : Ev) (id : Nat) (j : Job) (s : State) : JobWork e id s (zeroJobSecrets j s) := by
  unfold zeroJobSecrets zeroBnSlots
  exact .trans (.foldl (fun s x => ite_work (zeroHandle_work ..)) _ s) (bn_work ..)

/-- The job itself changed: its identifier stays. -/
theorem updJob_work (e : Ev) (id : Nat) (f : Job → Job) (s : State) (hf : ∀ j, (f j).id = j.id) : JobWork e id s (updJob id f s) where
  frame := (updJob_frame id f s).mono (by decide)
  others k hk hne := List.mem_map.2 ⟨k, hk, if_neg hne⟩
  ids k hk := by
    obtain ⟨i, hi, rfl⟩ := List.mem_map.1 hk
    refine ⟨i, hi, ?_⟩
    split <;> simp [hf]
  dies _ := .refl _ _
  parts _ := .refl _

/-- An event logged changes no job, and of dies and partitions their counters and logs. -/
theorem logEvent_work (e : Ev) (id : Nat) (e' : Ev) (a : EvArgs) (s : State) : JobWork e id s (logEvent e' a s) := by
  have hframe := logEvent_frame e' a s
  have hjobs : (logEvent e' a s).jobs = s.jobs := hframe .jobs (by decide)
  exact
    { frame := hframe.mono (by decide)
      others := fun k hk _ => hjobs ▸ hk
      ids := fun k hk => ⟨k, hjobs ▸ hk, rfl⟩
      dies := fun d => .of_part e (hframe.dieField (by decide) workPart (fun _ => rfl) d)
      parts := fun p => by
        have hpart := hframe .parts (by decide) p
        have hsets := congrArg Partition.keysets hpart
        exact ⟨congrArg (fun x => { x with keysets := [] }) hpart, fun k _ => congrArg (tblGetD · k KeySet.zero) hsets,
          fun k hk => (congrArg (fun t => (tblGetD t k KeySet.zero).mirrored) hsets).trans hk⟩ }

theorem logJob_work (e e' : Ev) (j : Job) (a : Site) (unit detail : Nat) (skip : Bool) (s : State) :
    JobWork e j.id s (logJob e' j a unit detail skip s) :=
  (logEvent_work e j.id e' (evJob j a unit detail skip) s).trans (updJob_work e j.id _ _ fun _ => rfl)

/-- What every die becomes where one function is applied to each. -/
@[simp] theorem dieOf_mapDies (f : Die → Die) (s : State) (d : DieIx) : dieOf { s with dies := s.dies.map f } d = f (dieOf s d) := by
  simp [dieOf]

theorem mapDies_frame (f : Die → Die) (s : State) : Frame [.dies, .counters] s { s with dies := s.dies.map f } := by
  intro a ha
  cases a with
  | dies => exact absurd (by decide) ha
  | counters => exact absurd (by decide) ha
  | _ => first | rfl | exact fun _ => rfl

theorem mapDies_work (e : Ev) (id : Nat) {f : Die → Die} (s : State) (hf : ∀ x, workPart (f x) = workPart x) :
    JobWork e id s { s with dies := s.dies.map f } :=
  .of_dies ((mapDies_frame f s).mono (by decide)) rfl (fun d => by rw [dieOf_mapDies]; exact .of_part e (hf _)) rfl

theorem zeroJobBufs_work (e : Ev) (id i : Nat) (s : State) : JobWork e id s (zeroJobBufs i s) := mapDies_work e id s fun _ => rfl

/-- The job is removed. -/
theorem removeJob_work (e : Ev) (id : Nat) (s : State) : JobWork e id s (removeJob id s) := by
  refine .trans (t := { s with jobs := s.jobs.filter fun j => j.id != id }) ?_ (mapDies_work e id _ fun _ => rfl)
  exact
    { frame := fields_frame
      others := fun k hk hne => List.mem_filter.2 ⟨hk, by simpa using hne⟩
      ids := fun k hk => ⟨k, List.mem_of_mem_filter hk, rfl⟩
      dies := fun _ => .refl _ _
      parts := fun _ => .refl _ }

/-- A partition changed in its work. -/
theorem updPart_work (e : Ev) (id : Nat) {p : PartIx} {f : Partition → Partition} {s : State} (hf : PartWork (partOfIx s p) (f (partOfIx s p))) :
    JobWork e id s (updPart p f s) where
  frame := (updPart_frame p f s).mono (by decide)
  others _ hk _ := hk
  ids k hk := ⟨k, hk, rfl⟩
  dies _ := .refl _ _
  parts i := by
    by_cases hi : i = p
    · subst hi; rwa [partOfIx_updPart_self]
    · rw [partOfIx_updPart_ne _ _ hi]; exact .refl _

/-- The entry of a key of a table after a change of entries that keeps their keys. -/
theorem tblGet_map {α : Type} (t : Tbl α) (f : Nat × α → Nat × α) (hf : ∀ x, (f x).1 = x.1) (k : Nat) :
    tblGet (t.map f) k = (tblGet t k).map fun v => (f (k, v)).2 := by
  induction t with
  | nil => rfl
  | cons x t ih =>
    obtain ⟨i, v⟩ := x
    have hkey : (f (i, v)).1 = i := hf (i, v)
    by_cases hik : i = k
    · subst hik; simp [tblGet, hkey]
    · simp [tblGet, hkey, hik, ih]

theorem finishEvictions_work (e : Ev) (id : Nat) (p : PartIx) (s : State) : JobWork e id s (finishEvictions p s) := by
  have hkeys := fun k => tblGet_map (partOfIx s p).keysets
    (fun e => if e.2.state = .evicting && !slotBound s p e.1 then (e.1, { KeySet.zero with lastReason := e.2.lastReason }) else e)
    (fun x => by split <;> rfl) k
  refine updPart_work e id ⟨rfl, fun k hk => ?_, fun k hk => ?_⟩
  · unfold tblGetD at hk ⊢
    rw [hkeys]
    cases hget : tblGet (partOfIx s p).keysets k with
    | none => rfl
    | some v =>
      rw [hget] at hk
      have hlive : v.state ≠ .evicting := hk
      simp [hlive]
  · unfold tblGetD at hk ⊢
    rw [hkeys]
    cases hget : tblGet (partOfIx s p).keysets k with
    | none => rfl
    | some v =>
      rw [hget] at hk
      have hplain : v.mirrored = false := hk
      simp only [Option.map_some, Option.getD_some]
      split
      · rfl
      · exact hplain

theorem updQueue_work (e : Ev) (id : Nat) (d : DieIx) (q : QueueIx) (f : Queue → Queue) (s : State) : JobWork e id s (updQueue d q f s) :=
  updDie_work_part id rfl

theorem deliverCpl_work (e : Ev) (id : Nat) (d : DieIx) (q : QueueIx) (p : PartIx) (c : CplRec) (s : State) : JobWork e id s (deliverCpl d q p c s) := by
  unfold deliverCpl
  extract_lets qu pt k addr b sent
  have hsent : JobWork e id s sent := updQueue_work ..
  split
  · exact hsent.trans (sendMsg_work ..)
  · split
    · split
      · exact (hsent.trans (emit_work ..)).trans (msix_work ..)
      · exact hsent.trans (emit_work ..)
    · exact .refl _ _ _

theorem putCpl_work (e : Ev) (id : Nat) (d : DieIx) (q : QueueIx) (c : Cpl) (s : State) : JobWork e id s (putCpl d q c s) := by
  unfold putCpl
  extract_lets qu r
  split
  · exact .refl _ _ _
  · split
    · exact .refl _ _ _
    · split
      · exact updQueue_work ..
      · exact deliverCpl_work ..

theorem finishJob_work (e : Ev) (id elapsed : Nat) (s : State) : JobWork e id s (finishJob id elapsed s) := by
  unfold finishJob
  split
  · exact .refl _ _ _
  next j hj =>
    have hid : j.id = id := by simpa using List.find?_some hj
    extract_lets late s₁ j' c hm rec_ s₂
    have h₁ : JobWork e id s s₁ := ite_work (hid ▸ logJob_work ..)
    have h₂ : JobWork e id s₁ s₂ := (zeroJobBufs_work ..).trans (removeJob_work ..)
    exact ((h₁.trans h₂).trans (putCpl_work ..)).trans (finishEvictions_work ..)

/-! #### The quench itself -/

/-- An operation dropped is out of flight. -/
theorem dropOp_gone (d : DieIx) (i : Nat) (s : State) : ∀ o ∈ (dieOf (dropOp d i s) d).ops, o.id ≠ i := by
  intro o ho
  have waiting (h : HostId) (c : Bool) (t : State) : JobWork 0 0 t (if c then sendWaiting h t else t) := ite_work (sendWaiting_work ..)
  unfold dropOp at ho
  extract_lets gone drop late s₁ a b u s₂ s₃ at ho
  obtain ⟨p, hp, hid, -⟩ := (((waiting .a a s₂).trans (waiting .b b s₃)).dies d).ops o ho
  have hops : (dieOf s₂ d).ops = (dieOf s d).ops.filter (·.id != i) := by
    have hdie : dieOf s₂ d = dieOf (updDie d (fun x => { x with
        ops := x.ops.filter (·.id != i), scoreboard := x.scoreboard.filter (·.op != i) }) s) d := rfl
    rw [hdie, dieOf_updDie_self]
  rw [hops] at hp
  rw [← hid]
  simpa using (List.mem_filter.1 hp).2

theorem abortOp_gone (d : DieIx) (e : Ev) (o : Op) (s : State) : ∀ x ∈ (dieOf (abortOp d e o s) d).ops, x.id ≠ o.id :=
  dropOp_gone d o.id _

/-- Operations that are aborted one after the other are all out of flight. -/
theorem abortOps_gone (d : DieIx) (e : Ev) (l : List Op) (s : State) :
    ∀ o ∈ l, ∀ x ∈ (dieOf (l.foldl (fun s o => abortOp d e o s) s) d).ops, x.id ≠ o.id := by
  induction l generalizing s with
  | nil => simp
  | cons y l ih =>
    intro o ho x hx
    rcases List.mem_cons.1 ho with rfl | ho
    · obtain ⟨p, hp, hid, -⟩ := ((JobWork.foldl (fun s o => abortOp_work e 0 d o s) l (abortOp d e o s)).dies d).ops x hx
      exact hid ▸ abortOp_gone d e o s p hp
    · exact ih _ o ho x hx

/-- A job's operations on every die of a list are aborted: none of them is left on those dies. -/
theorem abortJob_gone (id : Nat) (e : Ev) (l : List DieIx) (s : State) : ∀ d ∈ l, ∀ x ∈
    (dieOf (l.foldl (fun s d => ((dieOf s d).ops.filter (·.job == id)).foldl (fun s o => abortOp d e o s) s) s) d).ops, x.job ≠ id := by
  induction l generalizing s with
  | nil => simp
  | cons y l ih =>
    intro d hd x hx
    rcases List.mem_cons.1 hd with rfl | hd
    · obtain ⟨p, hp, -, hpjob⟩ := ((JobWork.foldl (fun s d => JobWork.foldl (fun s o => abortOp_work e 0 d o s) _ s) l _).dies d).ops x hx
      obtain ⟨q, hq, hqid, hqjob⟩ := ((JobWork.foldl (fun s o => abortOp_work e 0 d o s) _ s).dies d).ops p hp
      intro hx
      exact abortOps_gone d e _ s q (List.mem_filter.2 ⟨hq, by simp [hqjob, hpjob, hx]⟩) p hp hqid.symm
    · exact ih _ d hd x hx

/-- Every valid handle of a list of destinations is poisoned. -/
theorem poisonAll_handle (e : Ev) {ds : List Dest} {d : DieIx} {h : Nat} (hmem : Dest.handle d h ∈ ds) (s : State)
    (hvalid : (handleOf s d h).valid = true) : (handleOf (poisonAll e ds s) d h).poisoned = true := by
  induction ds generalizing s with
  | nil => simp at hmem
  | cons t ds ih =>
    have hstep := (poisonDest_work 0 e t s).dies d
    rcases List.mem_cons.1 hmem with rfl | hmem
    · have hpoisoned : (handleOf (poisonDest e (.handle d h) s) d h).poisoned = true := by
        by_cases hp : (handleOf s d h).poisoned = true
        · exact (hstep.handles h hvalid).2 hp
        · rw [poisonDest, poisonHandle, if_pos (by simp [hvalid, hp]), handleOf_updHandle_self]
      exact (((poisonAll_work 0 e ds _).dies d).handles h (hstep.handles h hvalid).1).2 hpoisoned
    · exact ih hmem _ (hstep.handles h hvalid).1

theorem poisonAll_store (e : Ev) {ds : List Dest} {d : DieIx} {h : Nat} (hmem : Dest.store d h ∈ ds) (s : State)
    (hvalid : (storeOf s d h).valid = true) : (storeOf (poisonAll e ds s) d h).poisoned = true := by
  induction ds generalizing s with
  | nil => simp at hmem
  | cons t ds ih =>
    have hstep := (poisonDest_work 0 e t s).dies d
    rcases List.mem_cons.1 hmem with rfl | hmem
    · have hpoisoned : (storeOf (poisonDest e (.store d h) s) d h).poisoned = true := by
        by_cases hp : (storeOf s d h).poisoned = true
        · exact (hstep.stores h hvalid).2 hp
        · rw [poisonDest, poisonStore, if_pos (by simp [hvalid, hp]), storeOf_updStore_self]
      exact (((poisonAll_work 0 e ds _).dies d).stores h (hstep.stores h hvalid).1).2 hpoisoned
    · exact ih hmem _ (hstep.stores h hvalid).1

/-- No job of an identifier is left where none is found. -/
theorem jobOf_none {s : State} {id : Nat} (h : jobOf s id = none) : ∀ k ∈ s.jobs, k.id ≠ id := by
  simpa [jobOf] using h

/-- A job that ends is gone. -/
theorem finishJob_gone (id elapsed : Nat) (s : State) : ∀ k ∈ (finishJob id elapsed s).jobs, k.id ≠ id := by
  unfold finishJob
  split
  next h => exact jobOf_none h
  next j _ =>
    extract_lets late s₁ j' c hm rec_ s₂
    have hjobs : (finishEvictions j'.part (putCpl j'.die j'.queue rec_ s₂)).jobs = s₁.jobs.filter fun k => k.id != id :=
      still_jobs (t := finishEvictions j'.part (putCpl j'.die j'.queue rec_ s₂)) (s := s₂) (by simp)
    intro k hk
    rw [hjobs] at hk
    simpa using (List.mem_filter.1 hk).2

/-- A job that is found after a change of it. -/
theorem jobOf_updJob (id : Nat) (f : Job → Job) (s : State) (hf : ∀ j, (f j).id = j.id) : jobOf (updJob id f s) id = (jobOf s id).map f := by
  unfold jobOf updJob
  dsimp only
  induction s.jobs with
  | nil => rfl
  | cons k l ih =>
    by_cases hk : k.id = id
    · simp [hk, hf]
    · simpa [hk] using ih

/-- What the quench of a job does: its work, its operations and the job gone, its destinations poisoned. -/
theorem quenchJob_spec {s : State} {id : Nat} {j : Job} (hj : jobOf s id = some j) (e : Ev) (cancel : Bool) :
    let t := quenchJob id e cancel s
    JobWork e id s t ∧ (∀ k ∈ t.jobs, k.id ≠ id) ∧ (∀ d, ∀ o ∈ (dieOf t d).ops, o.job ≠ id) ∧
    (∀ d h, Dest.handle d h ∈ j.dests → (handleOf s d h).valid = true → (handleOf t d h).poisoned = true) ∧
    ∀ d h, Dest.store d h ∈ j.dests → (storeOf s d h).valid = true → (storeOf t d h).poisoned = true := by
  intro t
  have ht : t = quenchJob id e cancel s := rfl
  unfold quenchJob at ht
  rw [hj] at ht
  dsimp only at ht
  generalize hs₁ : updJob id (fun j => { j with quench := some (j.quench.getD e), cancelled := j.cancelled || cancel || e == 0 }) s = s₁ at ht
  have h₁ : JobWork e id s s₁ := hs₁ ▸ updJob_work e id _ s fun _ => rfl
  generalize hs₂ : { s₁ with held := s₁.held.filter fun h => h.job != id } = s₂ at ht
  have h₂ : JobWork e id s₁ s₂ := hs₂ ▸ .of_rest fields_frame rfl rfl rfl
  generalize hs₃ : allDies.foldl (fun s d => ((dieOf s d).ops.filter (·.job == id)).foldl (fun s o => abortOp d e o s) s) s₂ = s₃ at ht
  have h₃ : JobWork e id s₂ s₃ := hs₃ ▸ .foldl (fun s d => .foldl (fun s o => abortOp_work e id d o s) _ s) _ _
  have hops : ∀ d, ∀ o ∈ (dieOf s₃ d).ops, o.job ≠ id := fun d => hs₃ ▸ abortJob_gone id e allDies s₂ d (List.mem_finRange d)
  generalize hs₄ : abortBn id s₃ = s₄ at ht
  have h₄ : JobWork e id s₃ s₄ := hs₄ ▸ abortBn_work ..
  generalize hds : (j.dests.filter fun t => match t with | .handle .. | .store .. => true | _ => false) = ds at ht
  have h₅ : JobWork e id s₄ (poisonAll e ds s₄) := poisonAll_work ..
  have hend : JobWork e id (poisonAll e ds s₄) t := by
    rw [ht]
    exact ((zeroJobSecrets_work ..).trans (free_work ..)).trans (finishJob_work ..)
  have hto₄ : JobWork e id s s₄ := ((h₁.trans h₂).trans h₃).trans h₄
  refine ⟨(hto₄.trans h₅).trans hend, ?_, fun d o ho => ?_, fun d h hmem hvalid => ?_, fun d h hmem hvalid => ?_⟩
  · rw [ht]; exact finishJob_gone _ _ _
  · obtain ⟨p, hp, -, hpjob⟩ := (((h₄.trans h₅).trans hend).dies d).ops o ho
    exact hpjob ▸ hops d p hp
  · have hmem : Dest.handle d h ∈ ds := hds ▸ List.mem_filter.2 ⟨hmem, rfl⟩
    have hv := ((hto₄.dies d).handles h hvalid).1
    exact ((hend.dies d).handles h ((h₅.dies d).handles h hv).1).2 (poisonAll_handle e hmem s₄ hv)
  · have hmem : Dest.store d h ∈ ds := hds ▸ List.mem_filter.2 ⟨hmem, rfl⟩
    have hv := ((hto₄.dies d).stores h hvalid).1
    exact ((hend.dies d).stores h ((h₅.dies d).stores h hv).1).2 (poisonAll_store e hmem s₄ hv)

/-- A job quenched after work of its quench: reported of the state before that work. -/
theorem quenchJob_jobQuenched {e e' : Ev} {s u : State} {j k : Job} (hwork : JobWork e j.id s u) (hk : jobOf u j.id = some k)
    (hdests : ∀ t ∈ j.dests, t ∈ k.dests) (cancel : Bool) :
    JobQuenched j s (quenchJob j.id e' cancel u) ∧ Frame jobQuenchAreas s (quenchJob j.id e' cancel u) ∧ LateOnly u (quenchJob j.id e' cancel u) := by
  obtain ⟨hquench, hgone, hops, hhandles, hstores⟩ := quenchJob_spec hk e' cancel
  refine ⟨?_, hwork.frame.trans hquench.frame, (quenchJob_quenches e' j.id e' cancel u).late⟩
  exact
    { gone := hgone
      others := fun i hi hne => hquench.others i (hwork.others i hi hne) hne
      operations := hops
      handles := fun d h hmem hvalid => hhandles d h (hdests _ hmem) ((hwork.dies d).handles h hvalid).1
      stores := fun d h hmem hvalid => hstores d h (hdests _ hmem) ((hwork.dies d).stores h hvalid).1
      flags := fun d => (hquench.dies d).flags.trans (hwork.dies d).flags
      programs := fun p => ((hwork.parts p).trans (hquench.parts p)).field Partition.programs fun _ => rfl }

/-! ### Breaches: an instruction that is skipped or refused, and its job quenched (R304, R459) -/

/-- A job is there still, with every destination that it had named. -/
def StillNames (j : Job) (s : State) : Prop := ∃ k, jobOf s j.id = some k ∧ ∀ t ∈ j.dests, t ∈ k.dests

theorem StillNames.of_job {j : Job} {s : State} (h : jobOf s j.id = some j) : StillNames j s := ⟨j, h, fun _ ht => ht⟩

theorem StillNames.updJob {j : Job} {s : State} (h : StillNames j s) {f : Job → Job} (hid : ∀ k, (f k).id = k.id)
    (hdests : ∀ k : Job, ∀ t ∈ k.dests, t ∈ (f k).dests) : StillNames j (updJob j.id f s) := by
  obtain ⟨k, hk, hnames⟩ := h
  exact ⟨f k, by rw [jobOf_updJob _ _ _ hid, hk]; rfl, fun t ht => hdests k t (hnames t ht)⟩

theorem StillNames.of_jobs {j : Job} {s t : State} (h : StillNames j s) (hjobs : t.jobs = s.jobs) : StillNames j t := by
  unfold StillNames jobOf at h ⊢
  rwa [hjobs]

theorem StillNames.nameDests {j : Job} {s : State} (h : StillNames j s) (ds : List Dest) : StillNames j (nameDests j.id ds s) :=
  h.updJob (fun _ => rfl) fun _ _ ht => List.mem_append_left _ ht

theorem StillNames.logJob {j : Job} {s : State} (h : StillNames j s) (e : Ev) (a : Site) (unit detail : Nat) (skip : Bool) :
    StillNames j (logJob e j a unit detail skip s) :=
  (h.of_jobs (logEvent_frame e (evJob j a unit detail skip) s .jobs (by decide))).updJob (fun _ => rfl) fun _ _ ht => ht

theorem nameDests_work (e : Ev) (id : Nat) (ds : List Dest) (s : State) : JobWork e id s (nameDests id ds s) := updJob_work e id _ s fun _ => rfl

theorem poisonAll_log (e : Ev) (ds : List Dest) (s : State) : (poisonAll e ds s).log = s.log := by
  have same := congrArg State.log (still_poisonAll e ds s)
  exact same

theorem poisonAll_jobs (e : Ev) (ds : List Dest) (s : State) : (poisonAll e ds s).jobs = s.jobs := still_jobs (still_poisonAll e ds s)

/-- What a breach is seen to do: its event logged, the job quenched (R459). -/
def Breached (e : Ev) (j : Job) (a : Site) (unit detail : Nat) (skip : Bool) (s t : State) : Prop :=
  LoggedFirst e (evJob j a unit detail skip) s t ∧ JobQuenched j s t ∧ Frame jobQuenchAreas s t

/-- An event logged after work that logs nothing, then more of it, then the quench. -/
theorem breached_of_work {e pe e' : Ev} {j : Job} {a : Site} {unit detail : Nat} {skip : Bool} {s u v : State} (hjob : StillNames j v)
    (hbefore : JobWork pe j.id s u) (hlog : u.log = s.log) (hafter : JobWork pe j.id (logJob e j a unit detail skip u) v)
    (hquiet : v.log = (logJob e j a unit detail skip u).log) (cancel : Bool) :
    Breached e j a unit detail skip s (quenchJob j.id e' cancel v) := by
  obtain ⟨k, hk, hdests⟩ := hjob
  obtain ⟨hquenched, hframe, hlate⟩ :=
    quenchJob_jobQuenched (e' := e') (hbefore.trans ((logJob_work pe e j a unit detail skip u).trans hafter)) hk hdests cancel
  have hhearth : u.hearth = s.hearth := hbefore.frame .hearth (by decide)
  refine ⟨⟨v, ?_, hlate⟩, hquenched, hframe⟩
  have hlogged := logJob_logged e j a unit detail skip u
  unfold Logged at hlogged ⊢
  rwa [hquiet, ← hlog, ← hhearth]

/-- An instruction refused quenches its job, its event logged first (R304). -/
theorem refuseInstr_breached {s u : State} {j : Job} (hjob : StillNames j u) (e pe : Ev) (a : Site) (unit : Nat) (ds : List Dest)
    (hbefore : JobWork pe j.id s u) (hlog : u.log = s.log) : Breached e j a unit 0 false s (refuseInstr e pe j a unit ds u) := by
  unfold refuseInstr
  refine breached_of_work (pe := pe) (u := nameDests j.id ds u) ?_ (hbefore.trans (nameDests_work ..)) hlog (poisonAll_work ..)
    (poisonAll_log ..) false
  exact ((hjob.nameDests ds).logJob ..).of_jobs (poisonAll_jobs ..)

/-- An instruction skipped for a breach quenches its job, its event logged first with SKIP (R304). -/
theorem skipQuench_breached {s u : State} {j : Job} (hjob : StillNames j u) (e : Ev) (a : Site) (unit : Nat) (ds : List Dest)
    (hbefore : JobWork e j.id s u) (hlog : u.log = s.log) : Breached e j a unit 0 true s (skipQuench e j a unit ds u) := by
  unfold skipQuench skipInstr
  refine breached_of_work (pe := e) (u := nameDests j.id ds u) ?_ (hbefore.trans (nameDests_work ..)) hlog ?_ ?_ false
  · exact (((hjob.nameDests ds).logJob ..).of_jobs (poisonAll_jobs ..)).updJob (fun _ => rfl) fun _ _ ht => ht
  · exact (poisonAll_work ..).trans (updJob_work e j.id _ _ fun _ => rfl)
  · exact poisonAll_log ..

/-- The job that an instruction issues for is found by its identifier. -/
theorem Ready.jobOf {s : State} {a : Site} {j : Job} (h : Ready s a j) : jobOf s j.id = some j := by
  have hjob := h.job
  unfold runningJob at hjob
  split at hjob
  · cases hjob
  next id t _ =>
    have hid : j.id = t.getLastD id := by simpa using List.find?_some hjob
    rwa [hid]

/-- An instruction that breaches at issue. -/
theorem breach_of_exec {s t : State} {j : Job} {i : Instr} {e : Ev} {a : Site} {unit detail : Nat} {skip : Bool} (hexec : exec i s = .next t)
    (h : Breached e j a unit detail skip s t) : ∃ t, exec i s = .next t ∧ LoggedFirst e (evJob j a unit detail skip) s t ∧ JobQuenched j s t ∧
      Frame jobQuenchAreas s t := ⟨t, hexec, h⟩

end Sys2Proof.Machine

namespace Sys2Proof.Machine

/-! ### Instructions that wait at issue (R237) -/

/-- An instruction that finds the scoreboard full or in its way waits for it. -/
theorem withScoreboard_waits {s : State} {d : DieIx} {rs : List SbEntry} (h : sbAdmit s d rs = none) (k : List SbEntry → State → Issued) :
    withScoreboard d rs s k = .wait .scoreboard rs := by
  simp only [withScoreboard, h]

/-- What is held once an instruction that issues for the first time waits. -/
def heldAs (j : Job) (i : Instr) (a : Site) (w : Wait) (rs : List SbEntry) (s : State) : Held :=
  { age := s.nextId, job := j.id, instr := i, at_ := a, wait := w, ranges := rs, ready := some s.nextId, ringGone := false }

/-- The state in which it waits. -/
def waiting (j : Job) (i : Instr) (a : Site) (w : Wait) (rs : List SbEntry) (s : State) : State :=
  { s with held := s.held ++ [heldAs j i a w rs s], nextId := s.nextId + 1 }

theorem holdInstr_eq {s : State} {a : Site} (hfresh : s.reissue = none) (hfront : heldFront s a.die a.queue = none) (j : Job) (i : Instr) (w : Wait)
    (rs : List SbEntry) : holdInstr j.id a i w rs s = waiting j i a w rs s := by
  simp [holdInstr, waiting, heldAs, hfresh, hfront]

theorem runInstr_wait {s : State} {a : Site} {j : Job} {i : Instr} {f : Job → State → Issued} {w : Wait} {rs : List SbEntry} (h : Ready s a j)
    (hwait : f j s = .wait w rs) : runInstr a i f s = waiting j i a w rs s := by
  have hjob : siteJob s a = some j := by simp [siteJob, h.fresh, h.job]
  have hun : unhold s = s := by simp [unhold, h.fresh]
  simp [runInstr, h.turn, hjob, h.queue_open, h.engine, h.front, hun, hwait, holdInstr_eq h.fresh h.front]

/-- One that has changed something by then, its job and what is held as they were. -/
theorem runInstr_waitWith {s u : State} {a : Site} {j : Job} {i : Instr} {f : Job → State → Issued} {w : Wait} {rs : List SbEntry} (h : Ready s a j)
    (hwait : f j s = .waitWith w rs u) (hjobs : u.jobs = s.jobs) (hreissue : u.reissue = s.reissue) :
    runInstr a i f s = waiting j i a w rs { u with held := s.held } := by
  have hjob : siteJob s a = some j := by simp [siteJob, h.fresh, h.job]
  have hun : unhold s = s := by simp [unhold, h.fresh]
  have hthere : (jobOf u j.id).isNone = false := by
    have hfound : jobOf u j.id = some j := by rw [jobOf, hjobs]; exact h.jobOf
    rw [hfound]; rfl
  have hholds := holdInstr_eq (s := { u with held := s.held }) (a := a) (hreissue.trans h.fresh) h.front j i w rs
  simp [runInstr, h.turn, hjob, h.queue_open, h.engine, h.front, hun, hwait, hthere, hholds]

theorem waiting_frame (j : Job) (i : Instr) (a : Site) (w : Wait) (rs : List SbEntry) (s : State) :
    Frame [.held, .nextId] s (waiting j i a w rs s) := fields_frame

/-! ### ALLOC, FREE, SALLOC, SFREE (R228, R229, R250, R251) -/

/-- ALLOC succeeds on an index that is not in use, for rows that exist, that no valid handle covers and that are not held out (R228). -/
theorem allocOk_iff {s : State} {d : DieIx} {i b r : Nat} : allocOk s d i b r = true ↔ (handleOf s d i).valid = false ∧ 1 ≤ r ∧ b + r ≤ 2 ^ 20 ∧
    (∀ e ∈ (dieOf s d).handles, e.2.valid = true → ¬(b < e.2.base + e.2.rows ∧ e.2.base < b + r)) ∧
    ∀ x ∈ (dieOf s d).heldOut, ¬(b ≤ x ∧ x < b + r) := by
  simp only [allocOk, allocFits, runsMeet, Bool.and_eq_true, Bool.not_eq_true', decide_eq_true_eq, List.any_eq_false, not_and]
  tauto

/-- SALLOC likewise, and key sets' rows are in use too (R250). -/
theorem sallocOk_iff {s : State} {d : DieIx} {i b r : Nat} : sallocOk s d i b r = true ↔ (storeOf s d i).valid = false ∧ 1 ≤ r ∧ b + r ≤ 25165824 ∧
    (∀ e ∈ (dieOf s d).storeHandles, e.2.valid = true → ¬(b < e.2.base + e.2.rows ∧ e.2.base < b + r)) ∧
    (∀ x ∈ (dieOf s d).heldOutStore, ¬(b ≤ x ∧ x < b + r)) ∧ ∀ k ∈ keyRuns s d, ¬(b < k.1 + k.2 ∧ k.1 < b + r) := by
  simp only [sallocOk, runsMeet, Bool.and_eq_true, Bool.not_eq_true', decide_eq_true_eq, List.any_eq_false, not_and]
  tauto

/-- The claims on a ring go from an operation when the ring is dropped. -/
def unclaim (r : Nat) (o : Op) : Op := { o with fills := o.fills.filter (·.1 != r), takes := o.takes.filter (·.1 != r) }

/-- An active ring dropped, before the transfers that fill it fail (R243). -/
def withoutRing (d : DieIx) (r : Nat) (s : State) : State :=
  let t := updHandle d (ringOf s d r).handle (fun e => { e with ring := false }) s
  updDie d (fun x => { x with rings := tblDel x.rings r, ops := x.ops.map (unclaim r) })
    { t with held := t.held.map fun h => if h.at_.die == d && (h.wait == .ring r true || h.wait == .ring r false) then { h with ringGone := true } else h }

theorem dropRing_eq {s : State} {d : DieIx} {r : Nat} (hactive : (ringOf s d r).active = true) :
    dropRing d r s = ((dieOf (withoutRing d r s) d).ops.filter (fillsRing d r)).foldl (fun s o => loseRing d o s) (withoutRing d r s) := by
  unfold dropRing
  rw [if_pos hactive]
  rfl

theorem dieOf_withoutRing (d : DieIx) (r : Nat) (s : State) :
    dieOf (withoutRing d r s) d = { dieOf s d with
      handles := tblSet (dieOf s d).handles (ringOf s d r).handle { handleOf s d (ringOf s d r).handle with ring := false }
      rings := tblDel (dieOf s d).rings r
      ops := (dieOf s d).ops.map (unclaim r) } := by
  unfold withoutRing
  rw [dieOf_updDie_self]
  have hdie : dieOf (updHandle d (ringOf s d r).handle (fun e => { e with ring := false }) s) d = _ := dieOf_updDie_self d _ s
  exact congrArg (fun x : Die => { x with rings := tblDel x.rings r, ops := x.ops.map (unclaim r) }) hdie

theorem dieOf_withoutRing_ne {d x : DieIx} (r : Nat) (s : State) (hx : x ≠ d) : dieOf (withoutRing d r s) x = dieOf s x := by
  unfold withoutRing
  rw [dieOf_updDie_ne _ _ hx]
  have hother : dieOf (updHandle d (ringOf s d r).handle (fun e => { e with ring := false }) s) x = dieOf s x := dieOf_updDie_ne _ _ hx
  exact hother

theorem withoutRing_frame (d : DieIx) (r : Nat) (s : State) : Frame [.dies, .held] s (withoutRing d r s) := by
  have hhandle : Frame [.dies] s (updHandle d (ringOf s d r).handle (fun e => { e with ring := false }) s) := updDie_frame_dies _ _ _ rfl
  exact ((hhandle.then (vs := [.held]) fields_frame).then (updDie_frame_dies _ _ _ rfl)).mono (by decide)

theorem withoutRing_held (d : DieIx) (r : Nat) (s : State) : (withoutRing d r s).held =
    s.held.map fun h => if h.at_.die = d ∧ (h.wait = .ring r true ∨ h.wait = .ring r false) then { h with ringGone := true } else h :=
  List.map_congr_left fun h _ => by simp

/-- A ring of which no transfer fills a slot is dropped without failing one. -/
theorem dropRing_unfilled {s : State} {d : DieIx} {r : Nat} (hactive : (ringOf s d r).active = true)
    (hfills : ∀ o ∈ (dieOf s d).ops, fillsRing d r o = false) : dropRing d r s = withoutRing d r s := by
  have hnone : (dieOf (withoutRing d r s) d).ops.filter (fillsRing d r) = [] := by
    rw [dieOf_withoutRing, List.filter_eq_nil_iff]
    intro o ho
    obtain ⟨p, hp, rfl⟩ := List.mem_map.1 ho
    exact ne_true_of_eq_false (hfills p hp)
  rw [dropRing_eq hactive, hnone, List.foldl_nil]

/-- An entry of a table once one is deleted. -/
theorem tblGet_tblDel {α : Type} (t : Tbl α) (a i : Nat) : tblGet (tblDel t a) i = if i = a then none else tblGet t i := by
  induction t with
  | nil => simp [tblDel, tblGet]
  | cons x t ih =>
    obtain ⟨k, v⟩ := x
    have hdel : tblDel ((k, v) :: t) a = if k = a then tblDel t a else (k, v) :: tblDel t a := by
      by_cases hk : k = a <;> simp [tblDel, hk]
    rw [hdel]
    by_cases hk : k = a
    · subst hk
      rw [if_pos rfl, ih]
      by_cases hi : i = k
      · rw [if_pos hi, if_pos hi]
      · rw [if_neg hi, if_neg hi, tblGet, if_neg (Ne.symm hi)]
    · rw [if_neg hk]
      by_cases hi : k = i
      · subst hi; rw [if_neg hk, tblGet, tblGet, if_pos rfl, if_pos rfl]
      · rw [tblGet, tblGet, if_neg hi, if_neg hi, ih]

theorem tblGetD_tblDel {α : Type} (t : Tbl α) (a i : Nat) (z : α) : tblGetD (tblDel t a) i z = if i = a then z else tblGetD t i z := by
  unfold tblGetD
  rw [tblGet_tblDel]
  split <;> rfl

/-- Rings dropped one after the other, of which no transfer fills a slot: they are inactive, nothing of another die changed. -/
theorem dropRings_unfilled {d : DieIx} (rs : List Nat) (s : State) (hfills : ∀ o ∈ (dieOf s d).ops, ∀ r, fillsRing d r o = false) :
    let t := rs.foldl (fun s r => dropRing d r s) s
    (∀ r, r ∈ rs ∨ (ringOf s d r).active = false → (ringOf t d r).active = false) ∧ (∀ x, x ≠ d → dieOf t x = dieOf s x) ∧ Frame [.dies, .held] s t := by
  induction rs generalizing s with
  | nil => exact ⟨fun r hr => hr.elim (by simp) id, fun _ _ => rfl, Frame.refl _ _⟩
  | cons r rs ih =>
    have hstep : (∀ o ∈ (dieOf (dropRing d r s) d).ops, ∀ i, fillsRing d i o = false) ∧
        (∀ i, i = r ∨ (ringOf s d i).active = false → (ringOf (dropRing d r s) d i).active = false) ∧
        (∀ x, x ≠ d → dieOf (dropRing d r s) x = dieOf s x) ∧ Frame [.dies, .held] s (dropRing d r s) := by
      by_cases hactive : (ringOf s d r).active = true
      · rw [dropRing_unfilled hactive fun o ho => hfills o ho r]
        refine ⟨fun o ho i => ?_, fun i hi => ?_, fun x hx => dieOf_withoutRing_ne r s hx, withoutRing_frame d r s⟩
        · rw [dieOf_withoutRing] at ho
          obtain ⟨p, hp, rfl⟩ := List.mem_map.1 ho
          exact hfills p hp i
        · rw [ringOf, dieOf_withoutRing]
          simp only [tblGetD_tblDel]
          split
          · rfl
          next hne => exact hi.resolve_left hne
      · rw [dropRing, if_neg hactive]
        exact ⟨hfills, fun i hi => hi.elim (fun h => h ▸ Bool.eq_false_iff.2 hactive) id, fun _ _ => rfl, Frame.refl _ _⟩
    obtain ⟨hops, hgone, hothers, hframe⟩ := hstep
    obtain ⟨kgone, kothers, kframe⟩ := ih (dropRing d r s) hops
    refine ⟨fun i hi => kgone i ?_, fun x hx => (kothers x hx).trans (hothers x hx), hframe.trans kframe⟩
    rcases hi with hi | hi
    · exact (List.mem_cons.1 hi).elim (fun h => .inr (hgone i (.inl h))) .inl
    · exact .inr (hgone i (.inr hi))

/-- A handle freed that backs no active ring: its entry goes, and its rows are zeroed where it was secret (R229). -/
theorem freeHandle_of_no_ring {s : State} {d : DieIx} {i : Nat} (hrings : ∀ g ∈ (dieOf s d).rings, g.2.active = true → g.2.handle ≠ i) :
    dieOf (freeHandle d i s) d = { dieOf s d with
      handles := tblDel (dieOf s d).handles i
      scratch := if (handleOf s d i).isSecret then memZero (dieOf s d).scratch ((handleOf s d i).base * 288) ((handleOf s d i).rows * 288)
        else (dieOf s d).scratch } ∧ (∀ x, x ≠ d → dieOf (freeHandle d i s) x = dieOf s x) ∧ Frame [.dies] s (freeHandle d i s) := by
  unfold freeHandle
  extract_lets u rs v
  have hu : dieOf u d = { dieOf s d with
      scratch := if (handleOf s d i).isSecret then memZero (dieOf s d).scratch ((handleOf s d i).base * 288) ((handleOf s d i).rows * 288)
        else (dieOf s d).scratch } := by
    by_cases h : (handleOf s d i).isSecret = true
    · simp only [u, if_pos h, zeroHandle, dieOf_updDie_self]; rfl
    · simp only [u, if_neg h]
  have hrs : rs = [] := by
    simp only [rs, hu, List.map_eq_nil_iff, List.filter_eq_nil_iff]
    intro g hg
    simpa using hrings g hg
  have hv : v = u := by simp only [v, hrs, List.foldl_nil]
  have hframe : Frame [.dies] s u := Frame.ite (updDie_frame_dies _ _ _ rfl) (Frame.refl _ _)
  refine ⟨by rw [dieOf_updDie_self, hv, hu], fun x hx => ?_, ?_⟩
  · rw [dieOf_updDie_ne _ _ hx, hv]
    simp only [u]
    split
    · exact dieOf_updDie_ne _ _ hx
    · rfl
  · rw [hv]; exact hframe.trans (updDie_frame_dies _ _ _ rfl)

/-- A handle freed whose rings no transfer fills: they are dropped with it. -/
theorem freeHandle_of_unfilled {s : State} {d : DieIx} {i : Nat} (hfills : ∀ o ∈ (dieOf s d).ops, ∀ r, fillsRing d r o = false) :
    handleOf (freeHandle d i s) d i = Handle.zero ∧
    (∀ r, (ringOf s d r).active = true → (ringOf s d r).handle = i → (ringOf (freeHandle d i s) d r).active = false) ∧
    (∀ x, x ≠ d → dieOf (freeHandle d i s) x = dieOf s x) ∧ Frame [.dies, .held] s (freeHandle d i s) := by
  unfold freeHandle
  extract_lets u rs v
  have hu : (dieOf u d).ops = (dieOf s d).ops ∧ (dieOf u d).rings = (dieOf s d).rings ∧ (∀ x, x ≠ d → dieOf u x = dieOf s x) ∧ Frame [.dies] s u := by
    simp only [u]
    split
    · exact ⟨by simp [zeroHandle], by simp [zeroHandle], fun x hx => dieOf_updDie_ne _ _ hx, updDie_frame_dies _ _ _ rfl⟩
    · exact ⟨rfl, rfl, fun _ _ => rfl, Frame.refl _ _⟩
  obtain ⟨hops, hrings, hothers, hframe⟩ := hu
  obtain ⟨vgone, vothers, vframe⟩ := dropRings_unfilled (d := d) rs u (by rw [hops]; exact hfills)
  refine ⟨by simp [handleOf, tblGetD_tblDel], fun r hactive hr => ?_, fun x hx => ?_, ?_⟩
  · have hmem : r ∈ rs := by
      simp only [rs, hrings, List.mem_map, List.mem_filter]
      unfold ringOf tblGetD at hactive hr
      cases hget : tblGet (dieOf s d).rings r with
      | none => rw [hget] at hactive; exact absurd hactive (by decide)
      | some g =>
        rw [hget] at hactive hr
        exact ⟨(r, g), ⟨tblGet_mem hget, by simpa using ⟨hactive, hr⟩⟩, rfl⟩
    have hring : ringOf (updDie d (fun x => { x with handles := tblDel x.handles i }) v) d r = ringOf v d r := by simp [ringOf]
    rw [hring]
    exact vgone r (.inl hmem)
  · rw [dieOf_updDie_ne _ _ hx]
    exact (vothers x hx).trans (hothers x hx)
  · exact ((hframe.then vframe).then (updDie_frame_dies _ _ _ rfl)).mono (by decide)

/-- Clearing bit 31 of a word that has it (R391). -/
theorem bitOf_clear31 {v : Nat} (h : bitOf v 31 = true) : bitOf (v - 2 ^ 31) 31 = false := by
  simp only [bitOf, beq_iff_eq] at h
  simp only [bitOf, beq_eq_false_iff_ne]
  omega

/-- SFREE clears VALID of an aperture on its store handle (R391), at the host port of a partition of this part. -/
theorem dropAperture_clears (p : PartIx) (d : DieIx) (i : Nat) (s : State) (hown : (partOfIx s p).memberSlot = 0) :
    ∀ x ∈ (hostOf (dropAperture p d i s) (partOfIx s p).ownerPort).apertures, x.1 = (partOfIx s p).ownerFn → bitOf x.2 31 = true →
      ¬(bitsOf x.2 0 4 = d.val ∧ bitsOf x.2 8 10 = i) := by
  intro x hx hfn hbit ⟨hd, hi⟩
  simp only [dropAperture, if_pos hown, hostOf_updHost_self, List.mem_map] at hx
  obtain ⟨y, -, rfl⟩ := hx
  split at hbit
  next hhit =>
    simp only [Bool.and_eq_true] at hhit
    rw [bitOf_clear31 hhit.2.1.1] at hbit
    exact absurd hbit (by decide)
  next hmiss =>
    rw [if_neg hmiss] at hfn hd hi
    exact hmiss (by simp [hfn, hbit, hd, hi])

theorem dropAperture_frame (p : PartIx) (d : DieIx) (i : Nat) (s : State) : Frame [.hosts] s (dropAperture p d i s) :=
  Frame.ite (updHost_frame _ _ _ rfl) (Frame.refl _ _)

@[simp] theorem dropAperture_dies (p : PartIx) (d : DieIx) (i : Nat) (s : State) : (dropAperture p d i s).dies = s.dies := by
  unfold dropAperture
  dsimp only
  split
  · cases (partOfIx s p).ownerPort <;> rfl
  · rfl

theorem count_work (e : Ev) (id : Nat) (d : DieIx) (i n : Nat) (s : State) : JobWork e id s (count d i n s) := by
  unfold count
  exact updDie_work_part id rfl

/-- A breach found once the scoreboard has admitted the instruction. -/
theorem skipQuench_counted {s : State} {a : Site} {j : Job} (h : Ready s a j) (e : Ev) (m : Nat) :
    Breached e j a 0 0 true s (skipQuench e j a 0 [] (count a.die 2 m s)) :=
  skipQuench_breached ((StillNames.of_job h.jobOf).of_jobs (t := count a.die 2 m s) rfl) e a 0 [] (count_work ..) rfl

/-- Settles O33: each instruction passes its check and makes its one change, waits for the scoreboard, or breaches before it changes a table. -/
theorem handleAllocation : Obligations.HandleAllocation := by
  intro s a j i hready
  dsimp only
  have hbreach (e : Ev) : Breached e j a 0 0 true s (skipQuench e j a 0 [] s) :=
    skipQuench_breached (.of_job hready.jobOf) e a 0 [] (.refl _ _ _) rfl
  refine ⟨fun b r sec => ⟨fun es hgood hadmit => ?_, fun hbad => ?_, fun es hbad hadmit => ?_, fun h1 h2 hfull => ?_⟩, fun hinvalid => ?_,
    fun es hvalid hwin hrings hadmit => ?_, fun es hvalid hwin hfills hadmit => ?_, fun hvalid hwin hfull => ?_,
    fun b r => ⟨fun hgood => ?_, fun hbad => ?_⟩, fun hinvalid => ?_, fun hvalid hwin => ?_⟩
  · have hcheck : allocOk (count a.die 2 es.2 s) a.die i b r = true := by
      rw [allocOk_iff, (count_frame a.die 2 es.2 s).handleOf (by decide)]
      simpa [count] using hgood
    obtain ⟨-, h1, h2, -⟩ := hgood
    have hexec : exec (.alloc a i b r sec) s = .next (updHandle a.die i (fun _ => { Handle.zero with
        base := b, rows := r, valid := true, isSecret := sec }) (count a.die 2 es.2 s)) := by
      refine congrArg ok (runInstr_done hready ?_)
      rw [if_neg (by rw [show allocFits b r = true from decide_eq_true ⟨h1, h2⟩]; decide), withScoreboard_admitted hready.fresh hadmit]
      simp only [hcheck]
      rfl
    refine ⟨_, hexec, handleOf_updHandle_self _ _ _ _, fun k hk => ?_, ?_, fun e he => ?_, ?_⟩
    · rw [handleOf_updHandle_ne _ _ (.inr hk), (count_frame a.die 2 es.2 s).handleOf (by decide)]
    · simp [updHandle, count]
    · simp [updHandle, count, he]
    · exact ((count_frame _ _ _ _).then (updDie_frame_dies _ _ _ rfl)).mono (by decide)
  · refine breach_of_exec ?_ (hbreach 0x0105)
    refine congrArg ok (runInstr_done hready ?_)
    rw [if_pos (by simp [allocFits]; omega)]
  · by_cases hfits : allocFits b r = true
    · have hcheck : allocOk (count a.die 2 es.2 s) a.die i b r = false := by
        rw [← Bool.not_eq_true, allocOk_iff, (count_frame a.die 2 es.2 s).handleOf (by decide)]
        simpa [count] using hbad
      refine breach_of_exec ?_ (skipQuench_counted hready 0x0105 es.2)
      refine congrArg ok (runInstr_done hready ?_)
      rw [if_neg (by simp [hfits]), withScoreboard_admitted hready.fresh hadmit]
      simp only [hcheck]
      rfl
    · refine breach_of_exec ?_ (hbreach 0x0105)
      refine congrArg ok (runInstr_done hready ?_)
      rw [if_pos (by simp [hfits])]
  · refine ⟨_, congrArg ok (runInstr_wait hready ?_), rfl, waiting_frame _ _ _ _ _ _⟩
    rw [if_neg (by rw [show allocFits b r = true from decide_eq_true ⟨h1, h2⟩]; decide), withScoreboard_waits hfull]
  · refine breach_of_exec ?_ (hbreach 0x0104)
    refine congrArg ok (runInstr_done hready ?_)
    simp [hinvalid]
  · have hc := count_frame a.die 2 es.2 s
    have hexec : exec (.free a i) s = .next (freeHandle a.die i (count a.die 2 es.2 s)) := by
      refine congrArg ok (runInstr_done hready ?_)
      simp only [hvalid, hwin]
      rw [if_neg (by decide), if_neg (by simp), withScoreboard_admitted hready.fresh hadmit]
    obtain ⟨hdie, hothers, hframe⟩ := freeHandle_of_no_ring (s := count a.die 2 es.2 s) (d := a.die) (i := i)
      (by rw [hc.dieField (by decide) Die.rings fun _ => rfl]; exact hrings)
    refine ⟨_, hexec, ?_, fun e he => ?_, (hc.then hframe).mono (by decide)⟩
    · rw [hdie, hc.handleOf (by decide)]
      simp [count]
    · rw [hothers e he]; exact hc .dies (by decide) e
  · have hc := count_frame a.die 2 es.2 s
    have hexec : exec (.free a i) s = .next (freeHandle a.die i (count a.die 2 es.2 s)) := by
      refine congrArg ok (runInstr_done hready ?_)
      simp only [hvalid, hwin]
      rw [if_neg (by decide), if_neg (by simp), withScoreboard_admitted hready.fresh hadmit]
    obtain ⟨hhandle, hrings, hothers, hframe⟩ := freeHandle_of_unfilled (s := count a.die 2 es.2 s) (d := a.die) (i := i)
      (by rw [hc.dieField (by decide) Die.ops fun _ => rfl]; exact hfills)
    have hring (r : Nat) : ringOf (count a.die 2 es.2 s) a.die r = ringOf s a.die r :=
      hc.dieField (by decide) (fun x => tblGetD x.rings r Ring.zero) (fun _ => rfl) a.die
    refine ⟨_, hexec, hhandle, fun r hactive hr => hrings r (by rwa [hring]) (by rwa [hring]), fun e he => ?_, (hc.then hframe).mono (by decide)⟩
    rw [hothers e he]; exact hc .dies (by decide) e
  · refine ⟨_, congrArg ok (runInstr_wait hready ?_), rfl, waiting_frame _ _ _ _ _ _⟩
    simp only [hvalid, hwin]
    rw [if_neg (by decide), if_neg (by simp), withScoreboard_waits hfull]
  · have hexec : exec (.salloc a i b r) s = .next (updStore a.die i (fun _ => { StoreHandle.zero with base := b, rows := r, valid := true }) s) := by
      refine congrArg ok (runInstr_done hready ?_)
      rw [if_neg (by rw [sallocOk_iff.2 hgood]; decide)]
    refine ⟨_, hexec, storeOf_updStore_self _ _ _ _, fun k hk => storeOf_updStore_ne _ _ (.inr hk), ?_, fun e he => dieOf_updDie_ne _ _ he,
      updDie_frame_dies _ _ _ rfl⟩
    simp [updStore]
  · refine breach_of_exec ?_ (hbreach 0x0105)
    refine congrArg ok (runInstr_done hready ?_)
    have hcheck : sallocOk s a.die i b r = false := by
      rw [← Bool.not_eq_true, sallocOk_iff]
      exact hbad
    rw [if_pos (by rw [hcheck]; decide)]
  · refine breach_of_exec ?_ (hbreach 0x0104)
    refine congrArg ok (runInstr_done hready ?_)
    simp [hinvalid]
  · have hclear := dropAperture_clears j.part a.die i s
    have hframe := dropAperture_frame j.part a.die i s
    have hdies : ∀ e, dieOf (dropAperture j.part a.die i s) e = dieOf s e := fun e => by rw [dieOf, dieOf, dropAperture_dies]
    have hwin' : windowsOn (dropAperture j.part a.die i s) a.die true i = [] := by
      rw [windowsOn, hframe .fabric (by decide)]
      exact hwin
    have hbusy : storeBusy (dropAperture j.part a.die i s) a.die i = storeBusy s a.die i := by rw [storeBusy, dropAperture_dies]; rfl
    by_cases hb : storeBusy s a.die i = true
    · have hexec : exec (.sfree a i) s = .next (waiting j (.sfree a i) a .scoreboard [] { dropAperture j.part a.die i s with held := s.held }) := by
        refine congrArg ok (runInstr_waitWith hready ?_ (hframe .jobs (by decide)) (hframe .reissue (by decide)))
        simp only [hvalid, hwin', hbusy, hb]
        rfl
      refine ⟨_, hexec, fun hown => hclear hown, fun h => absurd (hb.symm.trans h) (by decide), fun _ => ⟨?_, ?_⟩⟩
      · have hid : (dropAperture j.part a.die i s).nextId = s.nextId := hframe .nextId (by decide)
        simp only [waiting, heldAs, hid]
      · exact ((hframe.then (vs := [.held]) fields_frame).then (waiting_frame _ _ _ _ _ _)).mono (by decide)
    · have hexec : exec (.sfree a i) s =
          .next (updDie a.die (fun x => { x with storeHandles := tblDel x.storeHandles i }) (dropAperture j.part a.die i s)) := by
        refine congrArg ok (runInstr_done hready ?_)
        simp only [hvalid, hwin', hbusy, hb]
        rfl
      refine ⟨_, hexec, fun hown => hclear hown, fun _ => ⟨?_, fun e he => ?_, ?_⟩, fun h => absurd h hb⟩
      · rw [dieOf_updDie_self, hdies]
      · rw [dieOf_updDie_ne _ _ he, hdies]
      · exact (hframe.then (updDie_frame_dies _ _ _ rfl)).mono (by decide)

end Sys2Proof.Machine

namespace Sys2Proof.Machine

/-! ### RING_INIT, RING_FREE and DSET (R242, R243, R254 to R256) -/

/-- RING_INIT succeeds on an inactive ring and a handle that is valid, plain and large enough (R242). -/
theorem ringInitOk_iff {s : State} {d : DieIx} {r h n k : Nat} : ringInitOk s d r h n k = true ↔ (ringOf s d r).active = false ∧
    (handleOf s d h).valid = true ∧ (handleOf s d h).isSecret = false ∧ (handleOf s d h).ring = false ∧ 3 ≤ n ∧ n ≤ 8 ∧
    n * k ≤ (handleOf s d h).rows := by
  simp only [ringInitOk, Bool.and_eq_true, Bool.not_eq_true', decide_eq_true_eq]
  tauto

/-- The event and the poison of an instruction that is skipped are work that quenches no job. -/
theorem skipInstr_work (e : Ev) (j : Job) (a : Site) (unit : Nat) (ds : List Dest) (s : State) : JobWork e j.id s (skipInstr e j a unit ds s) := by
  unfold skipInstr
  refine .trans ?_ (updJob_work e j.id _ _ fun _ => rfl)
  exact ((nameDests_work ..).trans (logJob_work ..)).trans (poisonAll_work ..)

theorem dieOf_skipInstr_work (e : Ev) (j : Job) (a : Site) (unit : Nat) (ds : List Dest) (s : State) (d : DieIx) :
    DieWork e (dieOf s d) (dieOf (skipInstr e j a unit ds s) d) := (skipInstr_work e j a unit ds s).dies d

/-- What a transfer that loses its ring leaves of its die (R243): it is out of flight, and no ring comes up. -/
theorem loseRing_die (d : DieIx) (o : Op) (s : State) :
    DieWork 0x0104 (dieOf s d) (dieOf (loseRing d o s) d) ∧ ∀ x ∈ (dieOf (loseRing d o s) d).ops, x.id ≠ o.id := by
  unfold loseRing
  extract_lets u v
  have hu : JobWork 0x0104 0 s u := .foldl (f := fun s (t : Nat × Nat) => releaseSlot d t.1 t.2 s)
    (fun s t => updRing_work (d := d) (r := t.1) 0 (by intro; rfl)) _ s
  have hv : DieWork 0x0104 (dieOf u d) (dieOf v d) := by
    simp only [v]
    split
    · exact dieOf_skipInstr_work ..
    · exact .refl _ _
  exact ⟨((hu.dies d).trans hv).trans ((dropOp_work 0x0104 0 d o.id v).dies d), dropOp_gone d o.id v⟩

/-- Every transfer of a list that loses its ring is out of flight. -/
theorem loseRings_die (d : DieIx) (l : List Op) (s : State) :
    DieWork 0x0104 (dieOf s d) (dieOf (l.foldl (fun s o => loseRing d o s) s) d) ∧
    ∀ o ∈ l, ∀ x ∈ (dieOf (l.foldl (fun s o => loseRing d o s) s) d).ops, x.id ≠ o.id := by
  induction l generalizing s with
  | nil => exact ⟨.refl _ _, by simp⟩
  | cons y l ih =>
    obtain ⟨hwork, hgone⟩ := loseRing_die d y s
    obtain ⟨kwork, kgone⟩ := ih (loseRing d y s)
    refine ⟨hwork.trans kwork, fun o ho x hx => ?_⟩
    rcases List.mem_cons.1 ho with rfl | ho
    · obtain ⟨p, hp, hid, -⟩ := kwork.ops x hx
      exact hid ▸ hgone p hp
    · exact kgone o ho x hx

/-- A ring that is dropped is inactive, and every transfer that filled it is out of flight. -/
theorem dropRing_spec {s : State} {d : DieIx} {r : Nat} (hactive : (ringOf s d r).active = true) :
    (ringOf (dropRing d r s) d r).active = false ∧
    ∀ o ∈ (dieOf s d).ops, fillsRing d r o = true → ∀ u ∈ (dieOf (dropRing d r s) d).ops, u.id ≠ o.id := by
  rw [dropRing_eq hactive]
  obtain ⟨hwork, hgone⟩ := loseRings_die d ((dieOf (withoutRing d r s) d).ops.filter (fillsRing d r)) (withoutRing d r s)
  refine ⟨(hwork.rings r).trans ?_, fun o ho hfills => hgone (unclaim r o) (List.mem_filter.2 ⟨?_, hfills⟩)⟩
  · rw [dieOf_withoutRing]
    simp [tblGetD_tblDel, Ring.zero]
  · rw [dieOf_withoutRing]
    exact List.mem_map.2 ⟨o, ho, rfl⟩

/-- The checks of R255 look at handles, store handles, rings and owners of dies. -/
theorem Frame.descR255 {ws : List Area} {s t : State} (h : Frame ws s t) (hdies : Area.dies ∉ ws) (hfuses : Area.fuses ∉ ws) (p : PartIx) (d : DieIx)
    (b : List Byte) : descR255 t p d b = descR255 s p d b := by
  have hstore (e : DieIx) (k : Nat) : storeOf t e k = storeOf s e k := h.dieField hdies (fun x => tblGetD x.storeHandles k StoreHandle.zero) (fun _ => rfl) e
  have hring (e : DieIx) (k : Nat) : ringOf t e k = ringOf s e k := h.dieField hdies (fun x => tblGetD x.rings k Ring.zero) (fun _ => rfl) e
  have howner (e : DieIx) : (dieOf t e).owner = (dieOf s e).owner := h.dieField hdies Die.owner (fun _ => rfl) e
  have hlimit (x : Desc) (k : Nat) : Desc.limit t x k = Desc.limit s x k := by
    simp only [Desc.limit, h.handleOf hdies, hstore, hring]
  have hactive (e : DieIx) : dieActive t e = dieActive s e := by rw [dieActive, h .fuses hfuses]; rfl
  simp only [Machine.descR255, Desc.inExtent, hlimit, Desc.dieOk, howner, hactive]

/-- DSET without its descriptor, where it breaches (R256). -/
def dropDesc (d : DieIx) (i : Nat) (s : State) : State := updDie d (fun x => { x with descs := tblDel x.descs i }) s

theorem dropDesc_work (e : Ev) (id : Nat) (d : DieIx) (i : Nat) (s : State) : JobWork e id s (dropDesc d i s) := by
  unfold dropDesc
  exact updDie_work_part id rfl

/-- DSET once the scoreboard has admitted it: the descriptor's 128 bytes are checked (R255) and set, or dropped (R256). -/
theorem issueDset_admitted {s : State} {a : Site} {j : Job} {i h o m : Nat} {es : List SbEntry} (hfresh : s.reissue = none)
    (huse : handleUse s a.die h = none) (hfits : o + 128 ≤ (handleOf s a.die h).rows * rowBytes) (hclean : (handleOf s a.die h).poisoned = false)
    (hadmit : sbAdmit s a.die [handleRange s a.die h (o / 288) ((o + 127) / 288 - o / 288 + 1) false] = some (es, m)) :
    issueDset a i h o j s = .done
      (if descR255 s j.part a.die (handleBytes s a.die h o 128) = false then
        refuseInstr 0x0105 0x0105 j a 0 [] (dropDesc a.die i (count a.die 2 m s))
      else if (descOfBytes (handleBytes s a.die h o 128)).aligned = false then
        refuseInstr 0x0106 0x0106 j a 0 [] (dropDesc a.die i (count a.die 2 m s))
      else updDie a.die (fun x => { x with descs := tblSet x.descs i (descOfBytes (handleBytes s a.die h o 128)) }) (count a.die 2 m s)) := by
  have hc := count_frame a.die 2 m s
  have hbytes : handleBytes (count a.die 2 m s) a.die h o 128 = handleBytes s a.die h o 128 := by
    rw [handleBytes, hc.handleOf (by decide), hc.scratch (by decide)]; rfl
  unfold issueDset
  simp only [huse]
  rw [if_neg (Nat.not_lt.2 hfits), withScoreboard_admitted hfresh hadmit]
  simp only [Handle.pe, hclean, hbytes, hc.descR255 (by decide) (by decide)]
  by_cases hsound : descR255 s j.part a.die (handleBytes s a.die h o 128) = true
  · by_cases haligned : (descOfBytes (handleBytes s a.die h o 128)).aligned = true
    · simp [hsound, haligned]
    · simp [hsound, haligned, dropDesc]
  · simp [hsound, dropDesc]

/-- DSET that breaches once it is admitted: the descriptor is gone, the job quenched. -/
theorem refuseInstr_dropDesc {s : State} {a : Site} {j : Job} (h : Ready s a j) (e : Ev) (i m : Nat) :
    Breached e j a 0 0 false s (refuseInstr e e j a 0 [] (dropDesc a.die i (count a.die 2 m s))) := by
  have hjobs : (dropDesc a.die i (count a.die 2 m s)).jobs = s.jobs := rfl
  exact refuseInstr_breached ((StillNames.of_job h.jobOf).of_jobs hjobs) e e a 0 [] ((count_work ..).trans (dropDesc_work ..)) rfl

/-- DSET on a handle that may not be used. -/
theorem skipQuench_dropDesc {s : State} {a : Site} {j : Job} (h : Ready s a j) (e : Ev) (i : Nat) :
    Breached e j a 0 0 true s (skipQuench e j a 0 [] (dropDesc a.die i s)) := by
  have hjobs : (dropDesc a.die i s).jobs = s.jobs := rfl
  exact skipQuench_breached ((StillNames.of_job h.jobOf).of_jobs hjobs) e a 0 [] (dropDesc_work ..) rfl

/-- Settles O34: each passes its checks and makes its one change, or breaches before it changes the table. -/
theorem ringsAndDescriptors : Obligations.RingsAndDescriptors := by
  intro s a j hready
  dsimp only
  refine ⟨fun r h n k => ⟨fun hgood => ?_, fun hbad => ?_⟩, fun r hinactive => ?_, fun r hactive => ?_, fun r hactive hfills => ?_,
    fun i h o => ⟨fun huse hfits ⟨es, hadmit⟩ hclean => ⟨fun hsound haligned => ?_, fun hbad => ?_, fun hsound hodd => ?_⟩, fun hinvalid => ?_⟩⟩
  · have hexec : exec (.ringInit a r h n k) s = .next (updHandle a.die h (fun e => { e with ring := true })
        (updRing a.die r (fun _ => { Ring.zero with handle := h, slots := n, active := true, slotRows := k }) s)) := by
      refine congrArg ok (runInstr_done hready ?_)
      rw [if_neg (by rw [ringInitOk_iff.2 hgood]; decide)]
    have hring (x : Nat) : ringOf (updHandle a.die h (fun e => { e with ring := true })
        (updRing a.die r (fun _ => { Ring.zero with handle := h, slots := n, active := true, slotRows := k }) s)) a.die x =
        ringOf (updRing a.die r (fun _ => { Ring.zero with handle := h, slots := n, active := true, slotRows := k }) s) a.die x := by
      simp [ringOf, updHandle]
    have hhandle (x : Nat) : handleOf (updRing a.die r (fun _ => { Ring.zero with handle := h, slots := n, active := true, slotRows := k }) s) a.die x =
        handleOf s a.die x := by simp [handleOf, updRing]
    refine ⟨_, hexec, by rw [hring, ringOf_updRing_self]; rfl, by rw [handleOf_updHandle_self, hhandle], fun x hx => ?_, fun x hx => ?_, ?_,
      fun x hx => ?_, (updDie_frame_dies _ _ _ rfl).trans (updDie_frame_dies _ _ _ rfl)⟩
    · rw [hring, ringOf_updRing_ne _ _ (.inr hx)]
    · rw [handleOf_updHandle_ne _ _ (.inr hx), hhandle]
    · simp [updHandle, updRing]
    · simp [updHandle, updRing, hx]
  · refine breach_of_exec ?_ (skipQuench_breached (.of_job hready.jobOf) 0x0105 a 0 [] (.refl _ _ _) rfl)
    refine congrArg ok (runInstr_done hready ?_)
    have hcheck : ringInitOk s a.die r h n k = false := by
      rw [← Bool.not_eq_true, ringInitOk_iff]
      exact hbad
    rw [if_pos (by rw [hcheck]; decide)]
  · refine congrArg ok (runInstr_done hready ?_)
    rw [dropRing, if_neg (by rw [hinactive]; decide)]
  · exact ⟨_, congrArg ok (runInstr_done hready rfl), dropRing_spec hactive⟩
  · have hexec : exec (.ringFree a r) s = .next (withoutRing a.die r s) := by
      refine congrArg ok (runInstr_done hready ?_)
      rw [dropRing_unfilled hactive hfills]
    refine ⟨_, hexec, withoutRing_held a.die r s, by rw [dieOf_withoutRing], ?_, fun x hx => ?_, by rw [dieOf_withoutRing],
      fun x hx => dieOf_withoutRing_ne r s hx, withoutRing_frame a.die r s⟩
    · rw [handleOf, dieOf_withoutRing]; simp
    · rw [handleOf, dieOf_withoutRing]; simp [hx, handleOf]
  · have hexec := congrArg ok (runInstr_done (i := .dset a i h o) hready (issueDset_admitted (i := i) (j := j) hready.fresh huse hfits hclean hadmit))
    rw [if_neg (by rw [hsound]; decide), if_neg (by rw [haligned]; decide)] at hexec
    refine ⟨_, hexec, ?_, fun k hk => ?_, ?_, fun e he => ?_, ((count_frame _ _ _ _).then (updDie_frame_dies _ _ _ rfl)).mono (by decide)⟩
    · simp [descOf]
    · simp [descOf, hk, count]
    · simp [count]
    · simp [count, he]
  · have hexec := congrArg ok (runInstr_done (i := .dset a i h o) hready (issueDset_admitted (i := i) (j := j) hready.fresh huse hfits hclean hadmit))
    rw [if_pos hbad] at hexec
    exact breach_of_exec hexec (refuseInstr_dropDesc hready 0x0105 i es.2)
  · have hexec := congrArg ok (runInstr_done (i := .dset a i h o) hready (issueDset_admitted (i := i) (j := j) hready.fresh huse hfits hclean hadmit))
    rw [if_neg (by rw [hsound]; decide), if_pos hodd] at hexec
    exact breach_of_exec hexec (refuseInstr_dropDesc hready 0x0106 i es.2)
  · have huse : handleUse s a.die h = some 0x0104 := by simp [handleUse, hinvalid]
    have hexec : exec (.dset a i h o) s = .next (skipQuench 0x0104 j a 0 [] (dropDesc a.die i s)) := by
      refine congrArg ok (runInstr_done hready ?_)
      simp only [issueDset, huse]
      rfl
    exact breach_of_exec hexec (skipQuench_dropDesc hready 0x0104 i)

end Sys2Proof.Machine

namespace Sys2Proof.Machine

/-! ### BAR2 (R391, R415, R440) -/

theorem wakeDie_frame (d : DieIx) (s : State) : Frame [.dies] s (wakeDie d s) := updDie_frame_dies d _ s rfl

/-- A die that is woken is idle no more; the others stay. -/
theorem dieOf_wakeDie (d e : DieIx) (s : State) : dieOf (wakeDie d s) e = { dieOf s e with idle := if e = d then 0 else (dieOf s e).idle } := by
  unfold wakeDie
  by_cases he : e = d
  · subst he; rw [dieOf_updDie_self, if_pos rfl]
  · rw [dieOf_updDie_ne _ _ he, if_neg he]

/-- Bytes put into a store handle: its rows change from its first on, and its digest is invalid (R440). -/
theorem putStore_spec {s : State} {d : DieIx} (h : Memory.wf (dieOf s d).store = true) (k o : Nat) (bs : List Byte) :
    Wrote (dieOf s d).store (dieOf (putStore d k o bs s) d).store ((storeOf s d k).base * 288 + o) bs ∧
    storeOf (putStore d k o bs s) d k = { storeOf s d k with digest := none } ∧ (∀ i, i ≠ k → storeOf (putStore d k o bs s) d i = storeOf s d i) ∧
    (∀ e, e ≠ d → dieOf (putStore d k o bs s) e = dieOf s e) ∧ Frame [.dies] s (putStore d k o bs s) := by
  unfold putStore
  dsimp only
  generalize hu : updDie d (fun x => { x with store := memPut x.store ((storeOf s d k).base * rowBytes + o) bs }) s = u
  have hstore (i : Nat) : storeOf u d i = storeOf s d i := by rw [← hu]; simp [storeOf]
  have hmem : (dieOf (updStore d k (fun x => { x with digest := none }) u) d).store = memPut (dieOf s d).store ((storeOf s d k).base * 288 + o) bs := by
    rw [← hu]; simp [updStore, rowBytes]
  refine ⟨hmem ▸ wrote_memPut h _ _, by rw [storeOf_updStore_self, hstore], fun i hi => by rw [storeOf_updStore_ne _ _ (.inr hi), hstore],
    fun e he => ?_, ?_⟩
  · rw [updStore, dieOf_updDie_ne _ _ he, ← hu, dieOf_updDie_ne _ _ he]
  · rw [← hu]; exact (updDie_frame_dies _ _ _ rfl).trans (updDie_frame_dies _ _ _ rfl)

/-- A read or write of BAR2 once an image runs (R391). -/
theorem execBar2Access_running {s : State} {h : HostId} (hlink : (hostOf s h).linkUp = true) (hfw : s.boot.fwState = 2) (fn o n : Nat)
    (w : Option (List Byte)) :
    execBar2Access h fn o n w s = .next (match bar2Target s h fn o n, w with
      | some (d, k), some bs => if bs.length = n then wakeDie d (putStore d k o bs s) else s
      | some (d, k), none => wakeDie d (emit (.bar2Data h (some (storeBytes s d k o n)) (storeOf s d k).poisoned) s)
      | none, some _ => s
      | none, none => emit (.unsupported h) s) := by
  simp only [execBar2Access, hlink, hfw]
  rfl

/-- Before that BAR2 is the staging region (R415). -/
theorem execBar2Access_staging {s : State} {h : HostId} (hlink : (hostOf s h).linkUp = true) (hfw : s.boot.fwState ≠ 2) (hon : s.alarm.device = false)
    (fn o n : Nat) (w : Option (List Byte)) : execBar2Access h fn o n w s = .next (stagingAccess h fn o n w s) := by
  simp [execBar2Access, hlink, hfw, hon, ok]

/-- Settles O19: each access is one branch of the command, and changes what it reaches. -/
theorem bar2 : Obligations.Bar2 := by
  intro s h fn hmems hlink
  refine ⟨fun v => ?_, fun hfw hon => ⟨fun d k o n htarget => ⟨?_, fun bs hlen => ?_⟩, fun o n htarget => ⟨?_, fun bs => ?_⟩⟩, fun hfw hon => ?_⟩
  · have hexec : exec (.apertureControl h fn v) s =
        .next (updHost h (fun x => { x with apertures := tblSet x.apertures fn (v &&& 0x8003FF0F#32).toNat }) s) := by
      change execApertureControl h fn v s = _
      simp [execApertureControl, hlink, ok]
    refine ⟨_, hexec, ?_, fun f hf => ?_, updHost_frame _ _ _ rfl⟩
    · simp
    · simp [hf]
  · have hexec := execBar2Access_running hlink hfw fn o n none
    rw [htarget] at hexec
    refine ⟨_, hexec, rfl, ((emit_frame _ _).then (wakeDie_frame _ _)).mono (by decide), fun e => dieOf_wakeDie d e _⟩
  · have hexec := execBar2Access_running hlink hfw fn o n (some bs)
    rw [htarget] at hexec
    dsimp only at hexec
    rw [if_pos hlen] at hexec
    obtain ⟨hwrote, hstore, hstores, hothers, hframe⟩ := putStore_spec (hmems.1 d).2.1 k o bs
    have hwake (i : Nat) : storeOf (wakeDie d (putStore d k o bs s)) d i = storeOf (putStore d k o bs s) d i := by rw [storeOf, dieOf_wakeDie]; rfl
    refine ⟨_, hexec, ?_, (hwake k).trans hstore, fun i hi => (hwake i).trans (hstores i hi), fun e he => ?_, hframe.trans (wakeDie_frame _ _)⟩
    · rw [dieOf_wakeDie]; exact hwrote
    · rw [dieOf_wakeDie, if_neg he, hothers e he]
  · refine (execBar2Access_running hlink hfw fn o n none).trans ?_
    rw [htarget]
    rfl
  · refine (execBar2Access_running hlink hfw fn o n (some bs)).trans ?_
    rw [htarget]
  · intro k o n hfits
    have hk : hostIx h = k := by cases h <;> rfl
    have hinside : decide (o + n ≤ stagingSize) = true := decide_eq_true hfits
    refine ⟨fun bs hlen hin => ?_, ?_⟩
    · have hexec := execBar2Access_staging hlink hfw hon 0 o n (some bs)
      simp only [stagingAccess, hinside, hlen, hk, beq_self_eq_true, Bool.and_self, if_true] at hexec
      refine ⟨_, hexec, ?_, fields_frame⟩
      have hwf : Memory.wf (s.boot.staging.getD k []) = true := by
        rw [List.getD_eq_getElem _ _ hin]
        exact hmems.2 _ (List.getElem_mem hin)
      have hmem : (s.boot.staging.set k (memPut (s.boot.staging.getD k []) o bs)).getD k [] = memPut (s.boot.staging.getD k []) o bs := by
        simp [hin]
      have hwrote := wrote_memPut hwf o bs
      rwa [← hmem] at hwrote
    · have hexec := execBar2Access_staging hlink hfw hon 0 o n none
      simp only [stagingAccess, hinside, hk, beq_self_eq_true, Bool.and_self, if_true] at hexec
      exact hexec

end Sys2Proof.Machine

namespace Sys2Proof.Machine

/-! ### Fields of byte strings that are written field by field -/

/-- What lies behind the first piece of a byte string. -/
theorem bytesAt_skip {h : List Byte} (t : List Byte) {o : Nat} (n : Nat) (ho : h.length ≤ o) : bytesAt (h ++ t) o n = bytesAt t (o - h.length) n := by
  have hdrop : (h ++ t).drop o = t.drop (o - h.length) := by rw [List.drop_append, List.drop_eq_nil_of_le ho, List.nil_append]
  simp only [bytesAt, hdrop]

theorem fieldAt_skip {h : List Byte} (t : List Byte) {o : Nat} (n : Nat) (ho : h.length ≤ o) : fieldAt (h ++ t) o n = fieldAt t (o - h.length) n := by
  simp only [fieldAt, bytesAt_skip t n ho]

/-- The first field. -/
theorem bytesAt_first {h : List Byte} (t : List Byte) {n : Nat} (hn : h.length = n) : bytesAt (h ++ t) 0 n = h := by
  rw [bytesAt_left t (by omega), ← hn, bytesAt_all]

theorem fieldAt_first (n v : Nat) (t : List Byte) : fieldAt (leBytes n v ++ t) 0 n = v % 256 ^ n := by
  rw [fieldAt, bytesAt_first t (leBytes_length n v), leNat_leBytes]

end Sys2Proof.Machine

namespace Sys2Proof.Machine

/-! ### What BAR0 reads (R386 to R388) -/

/-- The fields of a control page (R388). -/
theorem controlPage_fields (s : State) (d : DieIx) (q : QueueIx) :
    let x := queueOf s d q
    let c := controlPage s d q
    c.length = 64 ∧ fieldAt c 0 8 = x.crBase % 2 ^ 64 ∧ fieldAt c 8 1 = x.crLog2 % 2 ^ 8 ∧ fieldAt c 9 1 = b2n x.enabled ∧
    fieldAt c 0x0A 2 = x.vector % 2 ^ 16 ∧ fieldAt c 0x0C 4 = x.crHead % 2 ^ 32 ∧ fieldAt c 0x10 4 = x.crTail % 2 ^ 32 ∧
    fieldAt c 0x14 4 = x.consumed % 2 ^ 32 ∧ fieldAt c 0x18 1 = queueState s d q := by
  intro x c
  have hstate : queueState s d q < 256 := by
    unfold queueState
    dsimp only
    split
    · decide
    · split
      · decide
      · split <;> decide
  have henabled : b2n x.enabled < 256 := by unfold b2n; split <;> decide
  simp only [c, controlPage, List.append_assoc]
  refine ⟨by simp, ?_, ?_, ?_, ?_, ?_, ?_, ?_, ?_⟩ <;> simp [fieldAt_skip, fieldAt_first, x, Nat.mod_eq_of_lt hstate, Nat.mod_eq_of_lt henabled]

/-- Where the control page of a queue lies in BAR0. -/
theorem bar0At_page {slot i : Nat} (d : DieIx) (q : QueueIx) (hi : i < 64) (hslot : slot < 64) :
    bar0At (0x40000000 + 64 * (256 * slot + 16 * d.val + q.val) + i) = .page slot d q i := by
  have hd := d.isLt
  have hq := q.isLt
  generalize ho : 0x40000000 + 64 * (256 * slot + 16 * d.val + q.val) + i = o
  have hk : (o - 0x40000000) / 0x40 = 256 * slot + 16 * d.val + q.val := by omega
  have hdie : dieBits ((o - 0x40000000) / 0x40 / 16) = d := Fin.ext (by simp only [dieBits, hk]; omega)
  have hqueue : queueBits ((o - 0x40000000) / 0x40) = q := Fin.ext (by simp only [queueBits, hk]; omega)
  simp only [bar0At]
  have hat : o % 0x40 = i := by omega
  have hof : (256 * slot + 16 * d.val + q.val) / 256 = slot := by omega
  rw [if_neg (by omega), if_pos (by omega), hdie, hqueue, hk, hat, hof]

/-- A slot of a bench member is held for its function. -/
theorem memberOf_key {s : State} {h : HostId} {fn slot : Nat} {r : MemberReg} (hr : memberOf s h fn slot = some r) : r.fn = fn ∧ r.slot = slot := by
  unfold memberOf at hr
  split at hr
  · cases hr
  · simpa using List.find?_some hr

/-- What a host reads of the page of a local queue. -/
theorem readPage_local {s : State} {h : HostId} {fn slot : Nat} {d : DieIx} {p : PartIx} (howns : barOwns s h fn slot d = some p) (q : QueueIx) :
    readPage s h fn slot d q = controlPage s d q := by
  simp only [readPage, howns]

/-- What it reads of a member's page: what was last written there (R400). -/
theorem readPage_member {s : State} {h : HostId} {fn slot : Nat} {d : DieIx} {r : MemberReg} (hnone : barOwns s h fn slot d = none)
    (hr : memberOf s h fn slot = some r) (q : QueueIx) :
    readPage s h fn slot d q = bytesAt (tblGetD (hostOf s h).pages (pageKey fn slot d q) []) 0 64 := by
  obtain ⟨hfn, hslot⟩ := memberOf_key hr
  simp only [readPage, hnone, hr, hfn, hslot]

/-- CR_HEAD of a member's queue as a host reads it back. -/
theorem readPage_putPage {s : State} {h : HostId} {fn slot : Nat} {d : DieIx} {r : MemberReg} (hnone : barOwns s h fn slot d = none)
    (hr : memberOf s h fn slot = some r) (q : QueueIx) (v : W32)
    (hlen : (tblGetD (hostOf s h).pages (pageKey fn slot d q) (List.replicate 64 0)).length = 64) :
    fieldAt (readPage (putPage h fn slot d q 0x0C (leBytes 4 v.toNat) s) h fn slot d q) 0x0C 4 = v.toNat := by
  generalize hu : putPage h fn slot d q 0x0C (leBytes 4 v.toNat) s = u
  have hhost (k : HostId) : { hostOf u k with pages := [] } = { hostOf s k with pages := [] } := by
    rw [← hu, putPage]
    by_cases hk : k = h
    · subst hk; rw [hostOf_updHost_self]
    · rw [hostOf_updHost_ne _ _ hk]
  have hdies (e : DieIx) : dieOf u e = dieOf s e := by rw [← hu]; cases h <;> rfl
  have hparts (e : PartIx) : partOfIx u e = partOfIx s e := by rw [← hu]; cases h <;> rfl
  have hlink (k : HostId) : (hostOf u k).linkUp = (hostOf s k).linkUp := by have same := congrArg HostPort.linkUp (hhost k); exact same
  have hheld (k : HostId) : (hostOf u k).slotsHeld = (hostOf s k).slotsHeld := by have same := congrArg HostPort.slotsHeld (hhost k); exact same
  have hnone' : barOwns u h fn slot d = none := by simp only [barOwns, hdies, hparts, hlink]; exact hnone
  have hr' : memberOf u h fn slot = some r := by simp only [memberOf, hlink, hheld]; exact hr
  rw [readPage_member hnone' hr', ← hu, putPage, hostOf_updHost_self]
  simp only [tblGetD_tblSet, if_true]
  generalize tblGetD (hostOf s h).pages (pageKey fn slot d q) (List.replicate 64 0) = b at hlen
  have htake : (b.take 0x0C).length = 0x0C := by simp [hlen]
  have hall : (b.take 0x0C ++ leBytes 4 v.toNat ++ b.drop (0x0C + (leBytes 4 v.toNat).length)).length = 64 := by simp [hlen]
  rw [← hall, bytesAt_all, List.append_assoc, fieldAt_skip _ _ (by omega), htake, fieldAt_first]
  exact Nat.mod_eq_of_lt v.isLt

/-! ### Completion records (R293, R390, R392) -/

theorem updQueue_frame (d : DieIx) (q : QueueIx) (f : Queue → Queue) (s : State) : Frame [.dies] s (updQueue d q f s) := updDie_frame_dies d _ s rfl

/-- A queue changed into what it is. -/
theorem updQueue_of_eq {d : DieIx} {q : QueueIx} {f : Queue → Queue} {s : State} (h : f (queueOf s d q) = queueOf s d q) : updQueue d q f s = s := by
  have hqueues : (dieOf s d).queues.set q.val (f (dieOf s d).queues[q.val]) = (dieOf s d).queues := by
    rw [show f (dieOf s d).queues[q.val] = (dieOf s d).queues[q.val] from h, Vector.set_getElem_self]
  have hdie : s.dies.set d.val { dieOf s d with queues := (dieOf s d).queues.set q.val (f (dieOf s d).queues[q.val]) } = s.dies := by
    rw [hqueues]
    exact Vector.set_getElem_self d.isLt
  simp only [updQueue, updDie]
  exact congrArg (fun v => { s with dies := v }) hdie

theorem msix_dies (h : HostId) (fn vec : Nat) (s : State) : (msix h fn vec s).dies = s.dies := by
  unfold msix
  split
  · rfl
  · cases h <;> rfl

theorem mem_out_msix (h : HostId) (fn vec : Nat) {s : State} {o : Output} (ho : o ∈ s.out) : o ∈ (msix h fn vec s).out := by
  unfold msix
  split
  · exact List.mem_append_left _ ho
  · cases h <;> exact ho

/-- A record delivered to this part's own host: it goes to the ring's next place, and CR_TAIL advances. -/
theorem deliverCpl_local {s : State} {d : DieIx} {q : QueueIx} {p : PartIx} (hown : (partOfIx s p).memberSlot = 0)
    (hlink : (hostOf s (partOfIx s p).ownerPort).linkUp = true) (c : CplRec) :
    let x := queueOf s d q
    let u := deliverCpl d q p c s
    Output.completion (partOfIx s p).ownerPort (partOfIx s p).ownerFn (recordAddr x) (sealCpl c.bytes x.consumed (x.crTail / 2 ^ x.crLog2 % 2 == 0)) ∈
      u.out ∧
    u.dies = (updQueue d q (fun y => { y with crTail := (x.crTail + 1) % 2 ^ 32 }) s).dies ∧ Frame recordAreas s u := by
  intro x u
  have hgateway : gatewayOf s p = none := by simp [gatewayOf, hown]
  let v := emit (.completion (partOfIx s p).ownerPort (partOfIx s p).ownerFn (recordAddr x)
    (sealCpl c.bytes x.consumed (x.crTail / 2 ^ x.crLog2 % 2 == 0))) (updQueue d q (fun y => { y with crTail := (x.crTail + 1) % 2 ^ 32 }) s)
  have hv : u = if c.irq then msix (partOfIx s p).ownerPort (partOfIx s p).ownerFn x.vector v else v := by
    simp only [u, deliverCpl, hgateway, if_pos hlink]
    rfl
  have hout : Output.completion (partOfIx s p).ownerPort (partOfIx s p).ownerFn (recordAddr x)
      (sealCpl c.bytes x.consumed (x.crTail / 2 ^ x.crLog2 % 2 == 0)) ∈ v.out := List.mem_append_right _ (List.mem_singleton_self _)
  have hframe : Frame recordAreas s v := ((updQueue_frame _ _ _ _).then (emit_frame _ _)).mono (by decide)
  rw [hv]
  split
  · exact ⟨mem_out_msix _ _ _ hout, msix_dies _ _ _ _, hframe.trans ((msix_frame _ _ _ _).mono (by decide))⟩
  · exact ⟨hout, rfl, hframe⟩

/-! ### Writes of the control page (R388 to R390) -/

/-- Where the dies are kept a queue is as it was. -/
theorem Frame.queueOf {ws : List Area} {s t : State} (h : Frame ws s t) (hws : Area.dies ∉ ws) (d : DieIx) (q : QueueIx) :
    queueOf t d q = queueOf s d q := h.dieField hws (fun x => x.queues[q.val]) (fun _ => rfl) d

/-- A queue is drained by what it holds, and by the jobs. -/
theorem queueDrained_congr {s t : State} {d : DieIx} {q : QueueIx} (hline : (queueOf t d q).line = (queueOf s d q).line)
    (hhold : (queueOf t d q).hold = (queueOf s d q).hold) (hcpl : (queueOf t d q).heldCpl = (queueOf s d q).heldCpl) (hjobs : t.jobs = s.jobs) :
    queueDrained t d q = queueDrained s d q := by
  simp only [queueDrained, hline, hhold, hcpl, hjobs]

theorem execEnable_local {s : State} {h : HostId} {fn slot : Nat} {d : DieIx} {p : PartIx} (howns : barOwns s h fn slot d = some p)
    (hon : s.alarm.device = false) (q : QueueIx) (w : CtlWrite) : exec (.enable h fn slot d q w) s = .next (writeControl d q w s) := by
  change execEnable h fn slot d q w s = _
  simp [execEnable, hon, howns, ok]

/-- A queue that is not disabled by then goes on (R389). -/
theorem settleDisable_of_not {s : State} {d : DieIx} {q : QueueIx} (h : (queueOf s d q).disabling = false ∨ queueDrained s d q = false) :
    settleDisable d q s = s := by
  rw [settleDisable, if_neg]
  rcases h with h | h <;> simp [h]

/-- A control write leaves other queues. -/
theorem queueOf_updQueue₂_ne {d e : DieIx} {q k : QueueIx} (f g : Queue → Queue) (s : State) (h : e ≠ d ∨ k ≠ q) :
    queueOf (updQueue d q g (updQueue d q f s)) e k = queueOf s e k := by
  rw [queueOf_updQueue_ne _ _ h, queueOf_updQueue_ne _ _ h]

/-- A write that the control page ignores counts once (log 68). -/
theorem tblGetD_ignored (d : DieIx) (s : State) : tblGetD (dieOf (count d 6 1 s) d).counters 6 0 = tblGetD (dieOf s d).counters 6 0 + 1 :=
  tblGetD_counters_count_self d 6 1 s

/-- CR_HEAD is taken where it lies in the ring, and what was held goes on (R390). -/
theorem execCrHead_taken {s : State} {h : HostId} {fn slot : Nat} {d : DieIx} {p : PartIx} (howns : barOwns s h fn slot d = some p) (q : QueueIx) (v : W32)
    (hfits : ((queueOf s d q).crTail + 2 ^ 32 - v.toNat) % 2 ^ 32 ≤ 2 ^ (queueOf s d q).crLog2) :
    exec (.crHead h fn slot d q v) s =
      .next (settleDisable d q (settleQueue d q (flushCpl d q (updQueue d q (fun x => { x with crHead := v.toNat }) s)))) := by
  change execCrHead h fn slot d q v s = _
  simp only [execCrHead, howns, if_neg (Nat.not_lt.2 hfits)]

/-- ENABLE written on a queue that is off, with a ring that is sound then (R389). -/
theorem writeControl_enable {s : State} {d : DieIx} {q : QueueIx} {w : CtlWrite} (hw : w.enable = some true) (hoff : (queueOf s d q).enabled = false)
    (hoff' : (writeRing w (queueOf s d q)).enabled = false) (hsound : ringSound (writeRing w (queueOf s d q)) = true) :
    writeControl d q w s =
      wakeDie d (readQueue d q (updQueue d q (fun x => { x with enabled := true, disabling := false }) (updQueue d q (writeRing w) s))) := by
  unfold writeControl
  simp only [queueOf_updQueue_self, hw, hoff, hoff', hsound, Bool.false_and, Bool.and_false, Bool.not_true, Bool.or_self, Bool.false_eq_true, if_false]

/-- ENABLE with a ring that is not sound is ignored. -/
theorem writeControl_unsound {s : State} {d : DieIx} {q : QueueIx} {w : CtlWrite} (hw : w.enable = some true) (hring : updQueue d q (writeRing w) s = s)
    (hoff : (queueOf s d q).enabled = false) (hunsound : ringSound (queueOf s d q) = false) : writeControl d q w s = count d 6 1 s := by
  unfold writeControl
  simp only [hring, hw, hoff, hunsound, Bool.false_and, Bool.not_false, Bool.and_true, Bool.false_or, beq_self_eq_true, if_true]

/-- The ring written of a queue that is on is ignored (R389). -/
theorem writeControl_ringIgnored {s : State} {d : DieIx} {q : QueueIx} {w : CtlWrite} (hw : w.enable = none) (hon : (queueOf s d q).enabled = true)
    (hring : w.crBase.isSome = true) : writeControl d q w s = count d 6 1 (updQueue d q (writeRing w) s) := by
  unfold writeControl
  simp only [hw, hon, hring, Bool.true_or, Bool.and_true, if_true]

/-- ENABLE cleared: the queue is disabled once it is drained. -/
theorem writeControl_disable {s : State} {d : DieIx} {q : QueueIx} {w : CtlWrite} (hw : w = { crBase := none, crLog2 := none, enable := some false, vector := none })
    (hring : updQueue d q (writeRing w) s = s) (hon : (queueOf s d q).enabled = true) :
    writeControl d q w s = settleDisable d q (updQueue d q (fun x => { x with disabling := true }) s) := by
  unfold writeControl
  simp only [hring]
  subst hw
  simp [hon]

/-- The record that was held goes out once CR_HEAD frees a place. -/
theorem flushCpl_one {s : State} {d : DieIx} {q : QueueIx} {p : PartIx} {r : CplRec} (howner : (dieOf s d).owner = some p)
    (hcpl : (queueOf s d q).heldCpl = [r]) (hroom : ringFull (queueOf s d q) = false) :
    flushCpl d q s = deliverCpl d q p r (updQueue d q (fun x => { x with heldCpl := [] }) s) := by
  simp [flushCpl, howner, hcpl, flushCplGo, hroom]

/-- Settles O18: the page and its readings, then each kind of write by what the queue was. -/
theorem queueControl : Obligations.QueueControl := by
  refine ⟨fun s h fn slot d q => ?_, fun s h fn slot d q p howns hon => ?_⟩
  · obtain ⟨hlen, hbase, hlog, henabled, hvector, hhead, htail, hconsumed, hstate⟩ := controlPage_fields s d q
    refine ⟨⟨hlen, hbase, hlog, henabled, hvector, hhead, htail, hconsumed, hstate.trans ?_⟩, fun o ho => ?_, fun i hi hslot => ⟨fun p howns => ?_, fun hnone hfree => ?_⟩,
      fun hon hnone => ⟨fun r w hr => ?_, fun r v hr hpage => ?_, fun hfree => ⟨fun w => ?_, fun v => ?_⟩⟩⟩
    · simp only [queueState, Bool.or_eq_true]
    · simp only [bar0Byte, bar0At, if_pos ho]
    · simp only [bar0Byte, bar0At_page d q hi hslot, readPage_local howns]
    · simp only [bar0Byte, bar0At_page d q hi hslot, readPage, hnone, hfree]
      exact List.getD_replicate _ hi
    · change execEnable h fn slot d q w s = _
      simp [execEnable, hon, hnone, hr, ok]
    · refine ⟨putPage h fn slot d q 0x0C (leBytes 4 v.toNat) s, ?_, readPage_putPage hnone hr q v hpage, updHost_frame _ _ _ rfl⟩
      change execCrHead h fn slot d q v s = _
      simp [execCrHead, hon, hnone, hr, ok]
    · change execEnable h fn slot d q w s = _
      simp [execEnable, hon, hnone, hfree, ok]
    · change execCrHead h fn slot d q v s = _
      simp [execCrHead, hnone, hfree, ok]
  · dsimp only
    refine ⟨fun base k v hoff hmin hmax halign => ?_, fun hoff hunsound => ?_, fun base k v henabled => ?_, fun henabled hbusy => ?_,
      fun hdis hdrained => ?_, fun h => ?_, fun v hfits hcpl => ?_, fun v hover => ?_, fun v r hfits hcpl howner hslot => ?_⟩
    · let w : CtlWrite := { crBase := some base, crLog2 := some k, enable := some true, vector := some v }
      have hring : writeRing w (queueOf s d q) = { queueOf s d q with crBase := base.toNat, crLog2 := k, vector := v } := by
        simp [writeRing, w, hoff]
      have hsound : ringSound { queueOf s d q with crBase := base.toNat, crLog2 := k, vector := v } = true := by
        simp [ringSound, hmin, hmax, halign]
      have hwrite := writeControl_enable (w := w) rfl hoff (by rw [hring]; exact hoff) (by rw [hring]; exact hsound)
      refine ⟨_, (execEnable_local howns hon q w).trans (congrArg _ hwrite), ?_, fun e i hne => queueOf_updQueue₂_ne _ _ _ hne,
        (updQueue_frame _ _ _ _).trans (updQueue_frame _ _ _ _)⟩
      rw [queueOf_updQueue_self, queueOf_updQueue_self, hring]
    · let w : CtlWrite := { crBase := none, crLog2 := none, enable := some true, vector := none }
      have hring : updQueue d q (writeRing w) s = s := updQueue_of_eq (by simp [writeRing, w])
      have hwrite := writeControl_unsound (w := w) rfl hring hoff hunsound
      exact ⟨_, (execEnable_local howns hon q w).trans (congrArg _ hwrite), (count_frame d 6 1 s).queueOf (by decide) d q, tblGetD_ignored d s,
        count_frame _ _ _ _⟩
    · let w : CtlWrite := { crBase := some base, crLog2 := some k, enable := none, vector := some v }
      have hwrite := writeControl_ringIgnored (w := w) rfl henabled rfl
      refine ⟨_, (execEnable_local howns hon q w).trans (congrArg _ hwrite), ?_, ?_, ((updQueue_frame _ _ _ _).then (count_frame _ _ _ _)).mono (by decide)⟩
      · rw [(count_frame d 6 1 _).queueOf (by decide) d q, queueOf_updQueue_self]
        simp [writeRing, w, henabled]
      · rw [tblGetD_ignored, updQueue, dieOf_updDie_self]
    · let w : CtlWrite := { crBase := none, crLog2 := none, enable := some false, vector := none }
      have hring : updQueue d q (writeRing w) s = s := updQueue_of_eq (by simp [writeRing, w])
      have hdrained : queueDrained (updQueue d q (fun x => { x with disabling := true }) s) d q = false :=
        Eq.trans (b := queueDrained s d q) (queueDrained_congr (by simp) (by simp) (by simp) rfl) hbusy
      have hwrite := (writeControl_disable rfl hring henabled).trans (settleDisable_of_not (.inr hdrained))
      exact ⟨_, (execEnable_local howns hon q w).trans (congrArg _ hwrite), queueOf_updQueue_self _ _ _ _, updQueue_frame _ _ _ _⟩
    · have hexec : exec (.queueDisableComplete d q) s = .next (updQueue d q (fun x => { x with enabled := false, disabling := false }) s) := by
        change execQueueDisableComplete d q s = _
        simp [execQueueDisableComplete, settleDisable, hdis, hdrained, ok]
      exact ⟨_, hexec, queueOf_updQueue_self _ _ _ _, fun e k hne => queueOf_updQueue_ne _ _ hne, updQueue_frame _ _ _ _⟩
    · exact congrArg Host.Outcome.next (settleDisable_of_not h)
    · have hflush : flushCpl d q (updQueue d q (fun x => { x with crHead := v.toNat }) s) = updQueue d q (fun x => { x with crHead := v.toNat }) s := by
        unfold flushCpl
        split
        · rfl
        · rw [queueOf_updQueue_self, hcpl]; rfl
      have hexec := execCrHead_taken howns q v hfits
      rw [hflush] at hexec
      exact ⟨_, hexec, queueOf_updQueue_self _ _ _ _, updQueue_frame _ _ _ _⟩
    · have hexec : exec (.crHead h fn slot d q v) s = .next (count d 6 1 s) := by
        change execCrHead h fn slot d q v s = _
        simp only [execCrHead, howns, if_pos hover]
      exact ⟨_, hexec, tblGetD_ignored d s, count_frame _ _ _ _⟩
    · obtain ⟨howns', hport, hfn, hmember, hlink⟩ : (dieOf s d).owner = some p ∧ (partOfIx s p).ownerPort = h ∧ (partOfIx s p).ownerFn = fn ∧
          (partOfIx s p).memberSlot = 0 ∧ (hostOf s h).linkUp = true := by
        simp only [barOwns, howner, hslot] at howns
        split at howns
        next hall => exact ⟨howner, hall.1, hall.2.1, hall.2.2.1, hall.2.2.2 trivial⟩
        · cases howns
      let s₁ := updQueue d q (fun x => { x with crHead := v.toNat }) s
      let s₂ := updQueue d q (fun x => { x with heldCpl := [] }) s₁
      have hq₂ : queueOf s₂ d q = { queueOf s d q with crHead := v.toNat, heldCpl := [] } := by
        rw [queueOf_updQueue_self, queueOf_updQueue_self]
      have hroom : ringFull (queueOf s₁ d q) = false := by
        rw [queueOf_updQueue_self]
        simp only [ringFull, beq_eq_false_iff_ne]
        omega
      have hflush : flushCpl d q s₁ = deliverCpl d q p r s₂ :=
        flushCpl_one (by simp [s₁, updQueue, howner]) (by rw [queueOf_updQueue_self]; exact hcpl) hroom
      obtain ⟨hout, hdies, -⟩ := deliverCpl_local (s := s₂) (d := d) (q := q) (p := p) hmember (hport ▸ hlink) r
      have hq : queueOf (deliverCpl d q p r s₂) d q = { queueOf s₂ d q with crTail := ((queueOf s₂ d q).crTail + 1) % 2 ^ 32 } := by
        rw [queueOf, dieOf, hdies]
        exact queueOf_updQueue_self d q _ s₂
      have hexec := execCrHead_taken howns q v (Nat.le_of_lt hfits)
      rw [show flushCpl d q _ = _ from hflush] at hexec
      rw [hq₂] at hout hq
      have hpart : partOfIx s₂ p = partOfIx s p := rfl
      rw [hpart, hport, hfn] at hout
      exact ⟨_, _, hexec, hout, rfl, by rw [hq], by rw [hq], by rw [hq]⟩

end Sys2Proof.Machine

namespace Sys2Proof.Machine

/-! ### The bytes of a completion record (R293) -/

theorem sha256_length (m : List Byte) : (sha256 m).length = 32 := by
  have hstep (l : List (List Byte)) (h : List W32) (hh : h.length = 8) : (l.foldl sha256Block h).length = 8 := by
    induction l generalizing h with
    | nil => exact hh
    | cons b l ih => exact ih _ (by simp [sha256Block, ShaState.words, hh])
  simp [sha256, List.length_flatMap, hstep (chunks 64 _) sha256H rfl]

/-- What of a record comes before its flags, and what between them and CONSUMED. -/
def cplHead (d : DieIx) (q : QueueIx) (c : Cpl) : List Byte :=
  leBytes 2 0xC7E8 ++ leBytes 2 c.seq ++ leBytes 1 (q.val + 16 * d.val) ++ leBytes 1 c.type ++ leBytes 1 (b2n c.withheld)

def cplFlags (c : Cpl) : Nat := b2n c.hallmark.isSome + 2 * b2n c.cancelled + 4 * b2n c.late + 8 * b2n c.skipped

def cplMiddle (c : Cpl) : List Byte :=
  leBytes 8 c.tag ++ leBytes 2 (if c.withheld then c.event.toNat else 0) ++ leBytes 2 (Nat.min c.events 0xFFFF) ++ leBytes 4 c.detail ++
    leBytes 4 (Nat.min c.energy 0xFFFFFFFF)

def cplHallmark (c : Cpl) : List Byte := match c.hallmark with | some h => bytesAt h 0 32 | none => List.replicate 32 0

theorem cplBytes_eq (d : DieIx) (q : QueueIx) (c : Cpl) :
    cplBytes d q c = cplHead d q c ++ (leBytes 1 (cplFlags c) ++ (cplMiddle c ++ (leBytes 4 0 ++ cplHallmark c))) := by
  simp only [cplBytes, cplHead, cplFlags, cplMiddle, cplHallmark, List.append_assoc] <;> rfl

@[simp] theorem cplHead_length (d : DieIx) (q : QueueIx) (c : Cpl) : (cplHead d q c).length = 7 := by simp [cplHead]
@[simp] theorem cplMiddle_length (c : Cpl) : (cplMiddle c).length = 20 := by simp [cplMiddle]
@[simp] theorem cplHallmark_length (c : Cpl) : (cplHallmark c).length = 32 := by
  unfold cplHallmark
  split <;> simp

theorem b2n_le (b : Bool) : b2n b ≤ 1 := by unfold b2n; split <;> omega

theorem cplFlags_lt (c : Cpl) : cplFlags c < 16 := by
  have h1 := b2n_le c.hallmark.isSome
  have h2 := b2n_le c.cancelled
  have h3 := b2n_le c.late
  have h4 := b2n_le c.skipped
  unfold cplFlags
  omega

/-- A record as it goes out: its phase in bit 7 of the flags, CONSUMED in its place (R293). -/
theorem sealCpl_cplBytes (d : DieIx) (q : QueueIx) (c : Cpl) (n : Nat) (phase : Bool) :
    sealCpl (cplBytes d q c) n phase =
      cplHead d q c ++ (leBytes 1 (cplFlags c + 128 * b2n phase) ++ (cplMiddle c ++ (leBytes 4 n ++ cplHallmark c))) := by
  have hsum : BitVec.ofNat 8 (cplFlags c) + (if phase then 0x80 else 0) = BitVec.ofNat 8 (cplFlags c + 128 * b2n phase) := by
    cases phase <;> simp [b2n, BitVec.ofNat_add]
  have hmid : bytesAt (cplBytes d q c) 8 0x14 = cplMiddle c := by
    rw [cplBytes_eq, bytesAt_skip _ _ (by simp), bytesAt_skip _ _ (by simp)]
    simpa using bytesAt_first _ (cplMiddle_length c)
  have hend : bytesAt (cplBytes d q c) 0x20 0x20 = cplHallmark c := by
    rw [cplBytes_eq, bytesAt_skip _ _ (by simp), bytesAt_skip _ _ (by simp), bytesAt_skip _ _ (by simp), bytesAt_skip _ _ (by simp)]
    simpa using bytesAt_all (cplHallmark c)
  have htake : (cplBytes d q c).take 7 = cplHead d q c := by
    rw [cplBytes_eq, List.take_append_of_le_length (by simp), List.take_of_length_le (by simp)]
  have hbyte : (cplBytes d q c).getD 7 0 = BitVec.ofNat 8 (cplFlags c) := by
    rw [cplBytes_eq, List.getD_append_right _ _ _ _ (by simp)]
    simp [leBytes]
  rw [sealCpl, hmid, hend, htake, hbyte, hsum]
  simp [leBytes]

/-- The fields of a record as it goes out. -/
theorem sealCpl_fields (d : DieIx) (q : QueueIx) (c : Cpl) (n : Nat) (phase : Bool) :
    let b := sealCpl (cplBytes d q c) n phase
    b.length = 64 ∧ fieldAt b 0 2 = 0xC7E8 ∧ fieldAt b 2 2 = c.seq % 2 ^ 16 ∧ fieldAt b 4 1 = q.val + 16 * d.val ∧ fieldAt b 5 1 = c.type % 2 ^ 8 ∧
    fieldAt b 6 1 = b2n c.withheld ∧ fieldAt b 7 1 = cplFlags c + 128 * b2n phase ∧ fieldAt b 8 8 = c.tag % 2 ^ 64 ∧
    fieldAt b 0x10 2 = (if c.withheld then c.event.toNat else 0) ∧ fieldAt b 0x12 2 = Nat.min c.events 0xFFFF ∧ fieldAt b 0x14 4 = c.detail % 2 ^ 32 ∧
    fieldAt b 0x18 4 = Nat.min c.energy 0xFFFFFFFF ∧ fieldAt b 0x1C 4 = n % 2 ^ 32 ∧ bytesAt b 0x20 32 = cplHallmark c := by
  intro b
  have hqueue : (q.val + 16 * d.val) % 256 = q.val + 16 * d.val := by have := q.isLt; have := d.isLt; omega
  have hwithheld : b2n c.withheld % 256 = b2n c.withheld := by have := b2n_le c.withheld; omega
  have hflags : (cplFlags c + 128 * b2n phase) % 256 = cplFlags c + 128 * b2n phase := by have := cplFlags_lt c; have := b2n_le phase; omega
  have hevent : (if c.withheld then c.event.toNat else 0) % 65536 = if c.withheld then c.event.toNat else 0 := by
    have := c.event.isLt
    split <;> omega
  simp only [b, sealCpl_cplBytes, cplHead, cplMiddle, List.append_assoc]
  refine ⟨by simp, ?_, ?_, ?_, ?_, ?_, ?_, ?_, ?_, ?_, ?_, ?_, ?_, ?_⟩
  · simp [fieldAt_first]
  · simp [fieldAt_skip, fieldAt_first]
  · simpa [fieldAt_skip, fieldAt_first] using hqueue
  · simp [fieldAt_skip, fieldAt_first]
  · simpa [fieldAt_skip, fieldAt_first] using hwithheld
  · simpa [fieldAt_skip, fieldAt_first] using hflags
  · simp [fieldAt_skip, fieldAt_first]
  · simpa [fieldAt_skip, fieldAt_first] using hevent
  · simp [fieldAt_skip, fieldAt_first]
  · simp [fieldAt_skip, fieldAt_first]
  · simp [fieldAt_skip, fieldAt_first]
  · simp [fieldAt_skip, fieldAt_first]
  · simpa [bytesAt_skip] using bytesAt_all (cplHallmark c)

/-! ### The end of a job (R293, R294, R338) -/

/-- A record that can be written at once is delivered. -/
theorem putCpl_ready {s : State} {d : DieIx} {q : QueueIx} {p : PartIx} (h : RecordReady s d q p) (c : Cpl) :
    putCpl d q c s = deliverCpl d q p { bytes := cplBytes d q c, irq := c.irq } s := by
  simp [putCpl, h.owner, h.enabled, h.none_held, h.room]

/-- The state once a job has left it. -/
def withoutJob (id : Nat) (s : State) : State := removeJob id (zeroJobBufs id s)

/-- Of a queue only what names the job goes. -/
theorem queueOf_withoutJob (id : Nat) (s : State) (d : DieIx) (q : QueueIx) : queueOf (withoutJob id s) d q = { queueOf s d q with
    jobs := (queueOf s d q).jobs.filter (· != id), passed := (queueOf s d q).passed && (queueOf s d q).jobs.head? != some id
    line := (queueOf s d q).line.filter (· != .role id)
    hold := (queueOf s d q).hold.filter fun h => match h.1 with | .job i => i != id | _ => true } := by
  simp [withoutJob, removeJob, zeroJobBufs, queueOf, dieOf] <;> rfl

theorem withoutJob_frame (id : Nat) (s : State) : Frame [.jobs, .dies, .counters] s (withoutJob id s) := by
  have hbufs : Frame [.dies, .counters] s (zeroJobBufs id s) := mapDies_frame _ _
  have hjobs : Frame [.jobs] (zeroJobBufs id s) { zeroJobBufs id s with jobs := (zeroJobBufs id s).jobs.filter fun j => j.id != id } := fields_frame
  exact ((hbufs.then hjobs).then (mapDies_frame _ _)).mono (by decide)

/-- The record can still be written when the job is gone. -/
theorem RecordReady.withoutJob {s : State} {d : DieIx} {q : QueueIx} {p : PartIx} (h : RecordReady s d q p) (id : Nat) :
    RecordReady (withoutJob id s) d q p where
  owner := by
    have howner : (dieOf (Machine.withoutJob id s) d).owner = (dieOf s d).owner := by simp [Machine.withoutJob, removeJob, zeroJobBufs, dieOf]
    exact howner.trans h.owner
  enabled := by rw [queueOf_withoutJob]; exact h.enabled
  none_held := by rw [queueOf_withoutJob]; exact h.none_held
  room := by rw [queueOf_withoutJob]; exact h.room
  own_host := h.own_host
  link := h.link

/-- The record of a job that ends (R293). -/
def jobCpl (s : State) (j : Job) (elapsed : Nat) : Cpl :=
  { seq := j.seq, type := 4, withheld := (jobCause j).isSome
    hallmark := if j.wantHallmark && (jobCause j).isNone then some (sha256 (hallmarkRecord s j)) else none
    cancelled := j.cancelled, late := decide (j.declaredNs < elapsed) && j.phase == .admitted, skipped := j.skip.isSome, tag := j.tag
    event := (jobCause j).getD 0, events := j.events, detail := (j.skip.map (·.2)).getD 0, energy := j.energyPj / 1000000, irq := j.irq }

/-- A job that was not late for a limit ends: it leaves, its record is put, its key sets' evictions end. -/
theorem finishJob_eq {s : State} {j : Job} {elapsed : Nat} (hj : jobOf s j.id = some j)
    (hlate : wasLimited s j = false ∨ elapsed ≤ j.declaredNs) :
    finishJob j.id elapsed s = finishEvictions j.part (putCpl j.die j.queue (jobCpl s j elapsed) (withoutJob j.id s)) := by
  have hquiet : (decide (j.declaredNs < elapsed) && j.phase == .admitted && wasLimited s j) = false := by
    rcases hlate with h | h
    · simp [h]
    · simp [Nat.not_lt.2 h]
  simp only [finishJob, hj, hquiet, Bool.false_eq_true, if_false, Option.getD_some]
  rfl

/-- The cause of a withheld record: the first of a quench, a skip, a poison met and a degraded input (R294). -/
theorem jobCause_eq (j : Job) : jobCause j = (j.quench <|> j.skip.map (·.1) <|> j.refusedPoison <|> if j.refusedDegraded then some 0x0204 else none) := by
  unfold jobCause
  cases j.quench with
  | some e => rfl
  | none =>
    cases j.skip with
    | some e => rfl
    | none => cases j.refusedPoison <;> rfl

/-- A change of key sets sends nothing and leaves dies and the log. -/
theorem finishEvictions_rest (p : PartIx) (s : State) :
    (finishEvictions p s).out = s.out ∧ (finishEvictions p s).dies = s.dies ∧ (finishEvictions p s).log = s.log := ⟨rfl, rfl, rfl⟩

/-- The bits of a record's flags. -/
theorem cplFlags_bits (c : Cpl) (phase : Bool) :
    bitOf (cplFlags c + 128 * b2n phase) 0 = c.hallmark.isSome ∧ bitOf (cplFlags c + 128 * b2n phase) 1 = c.cancelled ∧
    bitOf (cplFlags c + 128 * b2n phase) 2 = c.late ∧ bitOf (cplFlags c + 128 * b2n phase) 3 = c.skipped ∧
    bitOf (cplFlags c + 128 * b2n phase) 7 = phase := by
  unfold cplFlags
  generalize c.hallmark.isSome = a
  generalize c.cancelled = b
  generalize c.late = d
  generalize c.skipped = e
  revert a b d e phase
  decide

/-- A record names an event where it is withheld, and none else. -/
theorem withheldEvent (c : Option Ev) : (if c.isSome then (c.getD 0).toNat else 0) = (c.getD 0).toNat := by
  cases c <;> rfl

/-- Settles O16: the job leaves, and its record goes to the next place of its ring. -/
theorem jobCompletes : Obligations.JobCompletes := by
  intro s j elapsed hj hphase hidle hready hlate x p cause
  have hexec : exec (.jobComplete j.id elapsed) s = .next (settleDies (ownedDies s j.part) (finishJob j.id elapsed s)) := by
    change execJobComplete j.id elapsed s = _
    simp [execJobComplete, hj, hphase, hidle, ok]
  have hcause : cause = jobCause j := (jobCause_eq j).symm
  have hwork := finishJob_work 0 j.id elapsed s
  obtain ⟨hout, hdies, hframe⟩ := deliverCpl_local (s := withoutJob j.id s) (d := j.die) (q := j.queue) (p := j.part) hready.own_host hready.link
    { bytes := cplBytes j.die j.queue (jobCpl s j elapsed), irq := (jobCpl s j elapsed).irq }
  have hput := (finishJob_eq hj hlate).trans (congrArg (finishEvictions j.part) (putCpl_ready (hready.withoutJob j.id) (jobCpl s j elapsed)))
  have hq : queueOf (withoutJob j.id s) j.die j.queue = _ := queueOf_withoutJob j.id s j.die j.queue
  generalize hu : finishJob j.id elapsed s = u at hexec hwork hput
  have hgone : ∀ k ∈ u.jobs, k.id ≠ j.id := hu ▸ finishJob_gone j.id elapsed s
  have haddr : recordAddr (queueOf (withoutJob j.id s) j.die j.queue) = recordAddr x := by rw [hq]; rfl
  have htail : (queueOf (withoutJob j.id s) j.die j.queue).crTail = x.crTail := by rw [hq]
  have hlog2 : (queueOf (withoutJob j.id s) j.die j.queue).crLog2 = x.crLog2 := by rw [hq]
  have hconsumed : (queueOf (withoutJob j.id s) j.die j.queue).consumed = x.consumed := by rw [hq]
  have hpart : partOfIx (withoutJob j.id s) j.part = p := rfl
  rw [haddr, hpart, htail, hlog2, hconsumed] at hout
  have hcrTail : (queueOf u j.die j.queue).crTail = (x.crTail + 1) % 2 ^ 32 := by
    have hqueue : queueOf u j.die j.queue = queueOf (updQueue j.die j.queue (fun y => { y with crTail := (x.crTail + 1) % 2 ^ 32 }) (withoutJob j.id s))
        j.die j.queue := by
      rw [hput, queueOf, dieOf, (finishEvictions_rest _ _).2.1, hdies, htail]
      rfl
    rw [hqueue, queueOf_updQueue_self]
  obtain ⟨hlen, htag, hseq, hplace, htype, hstatus, hflags, hptag, hevent, hevents, hdetail, henergy, hcons, hhallmark⟩ :=
    sealCpl_fields j.die j.queue (jobCpl s j elapsed) x.consumed (x.crTail / 2 ^ x.crLog2 % 2 == 0)
  obtain ⟨hb0, hb1, hb2, hb3, hb7⟩ := cplFlags_bits (jobCpl s j elapsed) (x.crTail / 2 ^ x.crLog2 % 2 == 0)
  have hlogged : u.log = s.log := by
    rw [hput, (finishEvictions_rest _ _).2.2, hframe .log (by decide)]
    rfl
  refine ⟨u, _, hexec, hgone, hwork.others, ?_, hcrTail, hlogged, hlen, htag, hseq, hplace, htype, ?_, ?_, ?_, ?_, ?_, ?_, hptag, ?_, hevents, henergy,
    hcons, ?_⟩
  · rw [hput]; exact hout
  · rw [hstatus, hcause]; rfl
  · rw [hflags, hb0, hcause]
    simp only [jobCpl]
    cases j.wantHallmark && (jobCause j).isNone <;> rfl
  · rw [hflags, hb1]; rfl
  · rw [hflags, hb2]
    simp [jobCpl, hphase]
  · rw [hflags, hb3]; rfl
  · rw [hflags, hb7]
    rfl
  · rw [hevent, hcause]
    exact withheldEvent (jobCause j)
  · rw [hhallmark, hcause]
    simp only [jobCpl, cplHallmark]
    cases j.wantHallmark && (jobCause j).isNone with
    | true => simpa [sha256_length] using bytesAt_all (sha256 (hallmarkRecord s j))
    | false => rfl

end Sys2Proof.Machine


namespace Sys2Proof.Machine

/-! ### What completing packets leaves of queue windows (R279) -/

/-- Every queue window of `t` is the one of `s`, and so is what a BLOCK left to do with the JOB_SUBMITs that follow. -/
structure KeepsWindows (s t : State) : Prop where
  same : ∀ d q, (queueOf t d q).window = (queueOf s d q).window
  stop : ∀ d q, (queueOf t d q).stopFollowing = (queueOf s d q).stopFollowing

theorem KeepsWindows.refl (s : State) : KeepsWindows s s := ⟨fun _ _ => rfl, fun _ _ => rfl⟩

theorem KeepsWindows.trans {s t u : State} (h : KeepsWindows s t) (k : KeepsWindows t u) : KeepsWindows s u :=
  ⟨fun d q => (k.same d q).trans (h.same d q), fun d q => (k.stop d q).trans (h.stop d q)⟩

theorem KeepsWindows.of_dies {s t : State} (h : t.dies = s.dies) : KeepsWindows s t :=
  ⟨fun d q => by rw [queueOf, queueOf, dieOf, dieOf, h], fun d q => by rw [queueOf, queueOf, dieOf, dieOf, h]⟩

theorem KeepsWindows.of_frame {ws : List Area} {s t : State} (h : Frame ws s t) (hws : Area.dies ∉ ws) : KeepsWindows s t :=
  ⟨fun d q => by rw [h.queueOf hws], fun d q => by rw [h.queueOf hws]⟩

theorem KeepsWindows.foldl {α : Type} {f : State → α → State} (hf : ∀ s x, KeepsWindows s (f s x)) (l : List α) (s : State) :
    KeepsWindows s (l.foldl f s) := by
  induction l generalizing s with
  | nil => exact .refl s
  | cons x l ih => exact (hf s x).trans (ih _)

theorem updQueue_windows {d : DieIx} {q : QueueIx} {f : Queue → Queue} {s : State} (hf : ∀ x, (f x).window = x.window)
    (hs : ∀ x, (f x).stopFollowing = x.stopFollowing := by intro _; rfl) : KeepsWindows s (updQueue d q f s) := by
  refine ⟨fun e k => ?_, fun e k => ?_⟩
  all_goals
    by_cases h : e = d ∧ k = q
    · obtain ⟨rfl, rfl⟩ := h
      rw [queueOf_updQueue_self]
      simp only [hf, hs]
    · rw [queueOf_updQueue_ne _ _ (by tauto)]

theorem sendMsg_dies (k : MsgKind) (d : DieIx) (part : Nat) (dst : DieIx) (o : Sent → Output) (s : State) : (sendMsg k d part dst o s).dies = s.dies := by
  unfold sendMsg
  split
  · rfl
  · split <;> rfl

theorem deliverCpl_windows (d : DieIx) (q : QueueIx) (p : PartIx) (c : CplRec) (s : State) : KeepsWindows s (deliverCpl d q p c s) := by
  unfold deliverCpl
  extract_lets qu pt k addr b sent
  have hsent : KeepsWindows s sent := updQueue_windows fun _ => rfl
  split
  · exact hsent.trans (.of_dies (sendMsg_dies ..))
  · split
    · split
      · exact hsent.trans (.of_dies (msix_dies ..))
      · exact hsent.trans (.of_dies rfl)
    · exact .refl _

theorem putCpl_windows (d : DieIx) (q : QueueIx) (c : Cpl) (s : State) : KeepsWindows s (putCpl d q c s) := by
  unfold putCpl
  extract_lets qu r
  split
  · exact .refl _
  · split
    · exact .refl _
    · split
      · exact updQueue_windows fun _ => rfl
      · exact deliverCpl_windows ..

theorem withholdPacket_windows (d : DieIx) (q : QueueIx) (e : Ev) (b : List Byte) (s : State) : KeepsWindows s (withholdPacket d q e b s) := by
  unfold withholdPacket
  split
  · exact .refl _
  · exact putCpl_windows ..

theorem refusePacket_windows (d : DieIx) (q : QueueIx) (e : Ev) (b : List Byte) (s : State) : KeepsWindows s (refusePacket d q e b s) :=
  (KeepsWindows.of_frame (logEvent_frame _ _ _) (by decide)).trans (withholdPacket_windows ..)

theorem popLine_windows (d : DieIx) (q : QueueIx) (s : State) : KeepsWindows s (popLine d q s) := updQueue_windows fun _ => rfl

theorem settleGo_windows (d : DieIx) (q : QueueIx) (n : Nat) (s : State) : KeepsWindows s (settleGo d q n s) := by
  induction n generalizing s with
  | zero => exact .refl _
  | succ n ih =>
    unfold settleGo
    dsimp only
    split
    · exact .refl _
    · split
      · split
        · exact ((refusePacket_windows ..).trans (popLine_windows ..)).trans (ih _)
        · split
          · exact ((withholdPacket_windows ..).trans (popLine_windows ..)).trans (ih _)
          · exact .refl _
      · exact .refl _

theorem withoutJob_windows (id : Nat) (s : State) : KeepsWindows s (removeJob id s) :=
  ⟨fun d q => by simp [removeJob, queueOf, dieOf], fun d q => by simp [removeJob, queueOf, dieOf]⟩

/-- A job that comes to wait for admission, or is refused as too large (R326). -/
theorem stampJob_windows (s : State) (j : Job) : KeepsWindows s (stampJob s j) := by
  unfold stampJob
  split
  · exact .refl _
  · split
    · split
      · have hends (t : State) : KeepsWindows t (finishEvictions j.part t) := .of_dies rfl
        exact (((refusePacket_windows ..).trans (withoutJob_windows ..)).trans (hends _)).trans (.foldl (fun _ _ => settleGo_windows ..) _ _)
      · exact .refl _
    · exact .of_dies rfl

theorem settleQueue_windows (d : DieIx) (q : QueueIx) (s : State) : KeepsWindows s (settleQueue d q s) := by
  unfold settleQueue
  extract_lets t
  have ht : KeepsWindows s t := settleGo_windows ..
  refine .trans ?_ (.foldl stampJob_windows _ _)
  split
  · exact ht.trans (.of_dies rfl)
  · exact ht

theorem takePacket_windows (d : DieIx) (q : QueueIx) (b : List Byte) (s : State) : KeepsWindows s (takePacket d q b s) := by
  unfold takePacket
  extract_lets qe
  split
  · exact withholdPacket_windows ..
  · exact updQueue_windows fun _ => rfl

theorem readGo_windows (d : DieIx) (q : QueueIx) (n : Nat) (s : State) : KeepsWindows s (readGo d q n s) := by
  induction n generalizing s with
  | zero => exact .refl _
  | succ n ih =>
    unfold readGo
    dsimp only
    split
    · exact .refl _
    · split
      · exact updQueue_windows fun _ => rfl
      · exact ((updQueue_windows (by intro; rfl)).trans (takePacket_windows ..)).trans (ih _)

theorem readQueue_windows (d : DieIx) (q : QueueIx) (s : State) : KeepsWindows s (readQueue d q s) :=
  (readGo_windows ..).trans (settleQueue_windows ..)

/-! ### Reading packets (R280, R281, R285) -/

/-- The line that a queue's P stands at. -/
def lineAt (x : Queue) : List Byte := memBytes x.window (64 * x.pos) 64

/-- A header line with no lines, or with lines across the end of the window, stops the queue (R285). -/
theorem readGo_malformed {s : State} {d : DieIx} {q : QueueIx} (f : Nat) (hon : (queueOf s d q).enabled = true) (hgoes : (queueOf s d q).stopped = false)
    (hseq : fieldAt (lineAt (queueOf s d q)) 2 2 = (queueOf s d q).seq)
    (hbad : fieldAt (lineAt (queueOf s d q)) 5 1 = 0 ∨ 1024 < (queueOf s d q).pos + fieldAt (lineAt (queueOf s d q)) 5 1) :
    readGo d q (f + 1) s = updQueue d q (fun x => { x with stopped := true }) s := by
  unfold lineAt at hseq hbad
  simp only [readGo, hon, hgoes, hseq]
  simp [hbad]

/-- A sound header line: its packet is taken, and P, E and CONSUMED advance (R281). -/
theorem readGo_sound {s : State} {d : DieIx} {q : QueueIx} {n : Nat} (f : Nat) (hon : (queueOf s d q).enabled = true)
    (hgoes : (queueOf s d q).stopped = false) (hseq : fieldAt (lineAt (queueOf s d q)) 2 2 = (queueOf s d q).seq)
    (hn : fieldAt (lineAt (queueOf s d q)) 5 1 = n) (hlines : 1 ≤ n) (hfits : (queueOf s d q).pos + n ≤ 1024) :
    readGo d q (f + 1) s = readGo d q f (takePacket d q (memBytes (queueOf s d q).window (64 * (queueOf s d q).pos) (64 * n))
      (updQueue d q (fun x => { x with pos := (x.pos + n) % 1024, seq := (x.seq + 1) % 2 ^ 16, consumed := (x.consumed + n) % 2 ^ 32 }) s)) := by
  unfold lineAt at hseq hn
  have hbad : (decide (n = 0) || decide (1024 < (queueOf s d q).pos + n)) = false := by simp; omega
  simp only [readGo, hon, hgoes, hseq, hn, hbad]
  simp

/-- A line whose sequence number is not the expected one ends the reading. -/
theorem readGo_ends {s : State} {d : DieIx} {q : QueueIx} (f : Nat) (hseq : fieldAt (lineAt (queueOf s d q)) 2 2 ≠ (queueOf s d q).seq) :
    readGo d q f s = s := by
  cases f with
  | zero => rfl
  | succ f =>
    unfold lineAt at hseq
    simp [readGo, hseq]

theorem memBytes_length (m : Mem) (a n : Nat) : (memBytes m a n).length = n := by
  induction n generalizing a with
  | zero => rfl
  | succ n ih => simp [memBytes, ih]

/-- The first bytes of a longer read. -/
theorem memBytes_take (m : Mem) (a k n : Nat) (h : k ≤ n) : (memBytes m a n).take k = memBytes m a k := by
  induction n generalizing a k with
  | zero =>
    obtain rfl : k = 0 := by omega
    rfl
  | succ n ih =>
    cases k with
    | zero => rfl
    | succ k => simp [memBytes, ih (a + 1) k (by omega)]

/-- A field of a packet's first line is a field of the line. -/
theorem fieldAt_memBytes (m : Mem) (a : Nat) {k n o i : Nat} (hk : k ≤ n) (ho : o + i ≤ k) :
    fieldAt (memBytes m a n) o i = fieldAt (memBytes m a k) o i := by
  rw [← memBytes_take m a k n hk]
  conv_lhs => rw [← List.take_append_drop k (memBytes m a n)]
  exact fieldAt_left _ (by simp [memBytes_length]; omega)

/-- A packet that the queue may take stands at the end of its line. -/
theorem takePacket_line {s : State} {d : DieIx} {q : QueueIx} (hon : s.alarm.device = false) (hgoes : (queueOf s d q).quenched = false) (b : List Byte) :
    takePacket d q b s = updQueue d q (fun x => { x with line := x.line ++ [.packet (pktSeq b) (b.length / 64) b (stagedOf s d b)] }) s := by
  simp [takePacket, hon, hgoes]

/-- Where a packet's staged object lies is not a matter of its queue. -/
theorem stagedOf_updQueue (d e : DieIx) (q : QueueIx) (f : Queue → Queue) (b : List Byte) (s : State) :
    stagedOf (updQueue d q f s) e b = stagedOf s e b := by
  have howner : (dieOf (updQueue d q f s) e).owner = (dieOf s e).owner := by
    by_cases he : e = d
    · subst he; simp [updQueue]
    · simp [updQueue, he]
  simp only [stagedOf, howner]
  rfl

/-- A write to a window of a local queue. -/
theorem execQueueWindowWrite_local {s : State} {h : HostId} {fn slot : Nat} {d : DieIx} {p : PartIx} (howns : barOwns s h fn slot d = some p)
    (q : QueueIx) (o : Nat) (bs : List Byte) :
    exec (.queueWindowWrite h fn slot d q o (some bs)) s =
      .next (wakeDie d (if o < 64 * (queueOf s d q).pos + 64 ∧ 64 * (queueOf s d q).pos < o + bs.length then
        readQueue d q (updQueue d q (fun x => { x with window := memPut x.window o bs }) s)
      else updQueue d q (fun x => { x with window := memPut x.window o bs }) s)) := by
  change execQueueWindowWrite h fn slot d q o (some bs) s = _
  simp only [execQueueWindowWrite, howns]

theorem queueOf_wakeDie (d e : DieIx) (q : QueueIx) (s : State) : queueOf (wakeDie d s) e q = queueOf s e q := by
  rw [queueOf, dieOf_wakeDie]; rfl

/-- What a write to a window does to its queue (R279 to R281, R285). -/
theorem queueWindowWrite_spec {s : State} {h : HostId} {fn slot : Nat} {d : DieIx} {p : PartIx} (hmems : memsOk s)
    (howns : barOwns s h fn slot d = some p) (q : QueueIx) (o : Nat) (bs : List Byte) :
    let x := queueOf s d q
    let w := memPut x.window o bs
    let l := memBytes w (64 * x.pos) 64
    let n := fieldAt l 5 1
    let touches : Prop := o < 64 * x.pos + 64 ∧ 64 * x.pos < o + bs.length
    (∃ t, exec (.queueWindowWrite h fn slot d q o (some bs)) s = .next t ∧ Wrote x.window (queueOf t d q).window o bs ∧ (dieOf t d).idle = 0) ∧
    (¬touches → ∃ t, exec (.queueWindowWrite h fn slot d q o (some bs)) s = .next t ∧ queueOf t d q = { x with window := w } ∧ Frame [.dies] s t) ∧
    (touches → x.enabled = true → x.stopped = false → fieldAt l 2 2 = x.seq → (n = 0 ∨ 1024 < x.pos + n) → ∃ u,
      exec (.queueWindowWrite h fn slot d q o (some bs)) s = .next (wakeDie d (settleQueue d q u)) ∧
      queueOf u d q = { x with window := w, stopped := true } ∧ Frame [.dies] s u) ∧
    (touches → x.enabled = true → x.stopped = false → x.quenched = false → s.alarm.device = false → fieldAt l 2 2 = x.seq → 1 ≤ n →
      x.pos + n ≤ 1024 → fieldAt (memBytes w (64 * ((x.pos + n) % 1024)) 64) 2 2 ≠ (x.seq + 1) % 2 ^ 16 → ∃ u,
      exec (.queueWindowWrite h fn slot d q o (some bs)) s = .next (wakeDie d (settleQueue d q u)) ∧
      queueOf u d q = { x with window := w, pos := (x.pos + n) % 1024, seq := (x.seq + 1) % 2 ^ 16, consumed := (x.consumed + n) % 2 ^ 32
                               line := x.line ++ [.packet x.seq n (memBytes w (64 * x.pos) (64 * n)) (stagedOf s d (memBytes w (64 * x.pos) (64 * n)))] } ∧
      (∀ e k, e ≠ d ∨ k ≠ q → queueOf u e k = queueOf s e k) ∧ Frame [.dies] s u) := by
  intro x w l n touches
  have hexec := execQueueWindowWrite_local howns q o bs
  let s₁ := updQueue d q (fun x => { x with window := memPut x.window o bs }) s
  have hq₁ : queueOf s₁ d q = { x with window := w } := queueOf_updQueue_self _ _ _ _
  have hf₁ : Frame [.dies] s s₁ := updQueue_frame _ _ _ _
  refine ⟨⟨_, hexec, ?_, by rw [dieOf_wakeDie]; simp⟩, fun hmiss => ?_, fun hhit hon hgoes hseq hbad => ?_,
    fun hhit hon hgoes hcalm halarm hseq hlines hfits hnext => ?_⟩
  · have hwrote : Wrote x.window (queueOf s₁ d q).window o bs := by rw [hq₁]; exact wrote_memPut ((hmems.1 d).2.2.2.2.2 q) o bs
    have hwindow : (queueOf (if touches then readQueue d q s₁ else s₁) d q).window = (queueOf s₁ d q).window := by
      split
      · exact (readQueue_windows d q s₁).same d q
      · rfl
    rw [queueOf_wakeDie]
    exact hwindow ▸ hwrote
  · rw [if_neg hmiss] at hexec
    exact ⟨_, hexec, (queueOf_wakeDie ..).trans hq₁, hf₁.trans (wakeDie_frame _ _)⟩
  · rw [if_pos hhit] at hexec
    have hread : readGo d q 1024 s₁ = updQueue d q (fun x => { x with stopped := true }) s₁ :=
      readGo_malformed 1023 (by rw [hq₁]; exact hon) (by rw [hq₁]; exact hgoes) (by rw [hq₁]; exact hseq) (by rw [hq₁]; exact hbad)
    rw [show readQueue d q _ = settleQueue d q (readGo d q 1024 s₁) from rfl, hread] at hexec
    exact ⟨_, hexec, by rw [queueOf_updQueue_self, hq₁], hf₁.trans (updQueue_frame _ _ _ _)⟩
  · rw [if_pos hhit] at hexec
    let b := memBytes w (64 * x.pos) (64 * n)
    let s₂ := updQueue d q (fun x => { x with pos := (x.pos + n) % 1024, seq := (x.seq + 1) % 2 ^ 16, consumed := (x.consumed + n) % 2 ^ 32 }) s₁
    have hq₂ : queueOf s₂ d q = { x with window := w, pos := (x.pos + n) % 1024, seq := (x.seq + 1) % 2 ^ 16, consumed := (x.consumed + n) % 2 ^ 32 } := by
      rw [queueOf_updQueue_self, hq₁]
    have hb : pktSeq b = x.seq := (fieldAt_memBytes w _ (by omega) (by omega)).trans hseq
    have hlen : b.length / 64 = n := by rw [memBytes_length]; omega
    have hstaged : stagedOf s₂ d b = stagedOf s d b := by rw [stagedOf_updQueue, stagedOf_updQueue]
    have htake := takePacket_line (s := s₂) (d := d) (q := q) halarm (by rw [hq₂]; exact hcalm) b
    rw [hb, hlen, hstaged] at htake
    let u := updQueue d q (fun y => { y with line := y.line ++ [.packet x.seq n b (stagedOf s d b)] }) s₂
    have hqu : queueOf u d q = { x with window := w, pos := (x.pos + n) % 1024, seq := (x.seq + 1) % 2 ^ 16, consumed := (x.consumed + n) % 2 ^ 32
                                        line := x.line ++ [.packet x.seq n b (stagedOf s d b)] } := by rw [queueOf_updQueue_self, hq₂]
    have hread : readGo d q 1024 s₁ = u := by
      have hsound := readGo_sound (s := s₁) (d := d) (q := q) (n := n) 1023 (by rw [hq₁]; exact hon) (by rw [hq₁]; exact hgoes)
        (by rw [hq₁]; exact hseq) (by rw [hq₁]; rfl) hlines (by rw [hq₁]; exact hfits)
      rw [hq₁] at hsound
      exact hsound.trans ((congrArg (readGo d q 1023) htake).trans (readGo_ends 1023 (by rw [hqu]; exact hnext)))
    rw [show readQueue d q _ = settleQueue d q (readGo d q 1024 s₁) from rfl, hread] at hexec
    refine ⟨_, hexec, hqu, fun e k hne => ?_, ?_⟩
    · rw [queueOf_updQueue_ne _ _ hne, queueOf_updQueue_ne _ _ hne, queueOf_updQueue_ne _ _ hne]
    · exact (hf₁.trans (updQueue_frame _ _ _ _)).trans (updQueue_frame _ _ _ _)


/-! ### Records of packets (R287, R293, R294) -/

theorem leNat_lt (bs : List Byte) : leNat bs < 256 ^ bs.length := by
  induction bs with
  | nil => simp [leNat]
  | cons b bs ih =>
    have := b.isLt
    simp only [leNat, List.length_cons, pow_succ]
    omega

/-- A field of `n` bytes. -/
theorem fieldAt_lt (bs : List Byte) (o n : Nat) : fieldAt bs o n < 256 ^ n :=
  (leNat_lt _).trans_eq (by simp [bytesAt])

/-- What a partition's record holds beside its log. -/
theorem Frame.partField {α : Type} {ws : List Area} {s t : State} (h : Frame ws s t) (hws : Area.parts ∉ ws) (f : Partition → α)
    (hf : ∀ x, f { x with log := [] } = f x) (p : PartIx) : f (partOfIx t p) = f (partOfIx s p) := by
  rw [← hf (partOfIx t p), ← hf (partOfIx s p), h .parts hws p]

/-- What a host port holds beside the interrupts that wait in it. -/
theorem Frame.hostField {α : Type} {ws : List Area} {s t : State} (h : Frame ws s t) (hws : Area.hosts ∉ ws) (f : HostPort → α)
    (hf : ∀ x, f { x with msixPending := [] } = f x) (k : HostId) : f (hostOf t k) = f (hostOf s k) := by
  rw [← hf (hostOf t k), ← hf (hostOf s k), h .hosts hws k]

/-- What leaves dies, partitions and host ports leaves a record as ready as it was. -/
theorem RecordReady.frame {s t : State} {d : DieIx} {q : QueueIx} {p : PartIx} {ws : List Area} (hs : RecordReady s d q p) (h : Frame ws s t)
    (hdies : Area.dies ∉ ws) (hparts : Area.parts ∉ ws) (hhosts : Area.hosts ∉ ws) : RecordReady t d q p := by
  have hqueue := h.queueOf hdies d q
  have hport := h.partField hparts (·.ownerPort) (fun _ => rfl) p
  exact ⟨(h.dieField hdies (·.owner) (fun _ => rfl) d).trans hs.owner, hqueue ▸ hs.enabled, hqueue ▸ hs.none_held, hqueue ▸ hs.room,
    (h.partField hparts (·.memberSlot) (fun _ => rfl) p).trans hs.own_host, by rw [hport, h.hostField hhosts (·.linkUp) (fun _ => rfl)]; exact hs.link⟩

/-- The record of a packet that ends, withheld or not. -/
theorem putCpl_completed {s : State} {d : DieIx} {q : QueueIx} {p : PartIx} (hs : RecordReady s d q p) (b : List Byte) {c : Cpl}
    (hseq : c.seq = pktSeq b) (htype : c.type = pktType b) (htag : c.tag = pktTag b) (hevent : c.withheld = false → c.event = 0)
    (hdetail : c.detail < 2 ^ 32) :
    Completed d q p s (putCpl d q c s) b c.withheld c.event c.detail ∧
    (putCpl d q c s).dies = (updQueue d q (fun y => { y with crTail := ((queueOf s d q).crTail + 1) % 2 ^ 32 }) s).dies ∧
    Frame recordAreas s (putCpl d q c s) := by
  rw [putCpl_ready hs]
  obtain ⟨hout, hdies, hframe⟩ := deliverCpl_local (s := s) (d := d) (q := q) (p := p) hs.own_host hs.link { bytes := cplBytes d q c, irq := c.irq }
  obtain ⟨hlen, hmagic, hfseq, hplace, hftype, hstatus, hflags, hptag, hfevent, -, hfdetail, -, hcons, -⟩ :=
    sealCpl_fields d q c (queueOf s d q).consumed ((queueOf s d q).crTail / 2 ^ (queueOf s d q).crLog2 % 2 == 0)
  obtain ⟨-, -, -, -, hphase⟩ := cplFlags_bits c ((queueOf s d q).crTail / 2 ^ (queueOf s d q).crLog2 % 2 == 0)
  refine ⟨⟨?_, _, hout, ?_⟩, hdies, hframe⟩
  · rw [queueOf, dieOf, hdies]
    exact congrArg (·.crTail) (queueOf_updQueue_self ..)
  · refine ⟨hlen, hmagic, ?_, hplace, ?_, ?_, ?_, ?_, ?_, ?_, hcons⟩
    · rw [hfseq, hseq]; exact Nat.mod_eq_of_lt (fieldAt_lt b 2 2)
    · rw [hftype, htype]; exact Nat.mod_eq_of_lt (fieldAt_lt b 4 1)
    · rw [hstatus]; rfl
    · rw [hflags, hphase]; rfl
    · rw [hptag, htag]; exact Nat.mod_eq_of_lt (fieldAt_lt b 8 8)
    · rw [hfevent]
      cases hw : c.withheld with
      | true => rfl
      | false => simp [hevent hw]
    · rw [hfdetail, Nat.mod_eq_of_lt hdetail]

/-- A refused packet logs its event and its record is withheld (R287, R294). -/
theorem refusePacket_completed {s : State} {d : DieIx} {q : QueueIx} {p : PartIx} (hs : RecordReady s d q p) {b : List Byte} (hb : pktType b ≠ 0) (e : Ev) :
    Logged e { die := d, queue := some (q, pktSeq b, 0), part := some p, unit := 0, detail := 0, isSkip := false } s (refusePacket d q e b s) ∧
    Completed d q p s (refusePacket d q e b s) b true e 0 ∧ Frame (.dies :: logAreas) s (refusePacket d q e b s) := by
  simp only [refusePacket, withholdPacket, if_neg hb, hs.owner]
  have hlogged := logEvent_logged e { die := d, queue := some (q, pktSeq b, 0), part := some p, unit := 0, detail := 0, isSkip := false } s
  have hframe := logEvent_frame e { die := d, queue := some (q, pktSeq b, 0), part := some p, unit := 0, detail := 0, isSkip := false } s
  generalize logEvent e _ s = u at hlogged hframe
  have hu : RecordReady u d q p := hs.frame hframe (by decide) (by decide) (by decide)
  obtain ⟨hdone, -, hput⟩ := putCpl_completed hu b
    (c := { cplWithheld (pktSeq b) (pktType b) (pktTag b) (pktIrq b) e with cancelled := pktType b == 4 && e == 0 }) rfl rfl rfl nofun (by simp [cplWithheld])
  refine ⟨?_, ?_, (hframe.then hput).mono (by decide)⟩
  · obtain ⟨hseq, time, hentries⟩ := hlogged
    exact ⟨(congrArg (·.seq) (hput .log (by decide))).trans hseq, time, (congrArg (·.entries) (hput .log (by decide))).trans hentries⟩
  · have hqueue := hframe.queueOf (by decide) d q
    have hport := hframe.partField (by decide) (·.ownerPort) (fun _ => rfl) p
    have hfn := hframe.partField (by decide) (·.ownerFn) (fun _ => rfl) p
    simp only [Completed, hqueue, hport, hfn] at hdone ⊢
    exact hdone

/-! ### A packet at the front whose body breaks R287 -/

theorem actPacket_malformed {s : State} {d : DieIx} {q : QueueIx} {n : Nat} {b : List Byte} (hhead : headPacket s d q n = some b) (hbody : bodyOk b = false)
    (f : List Byte → State → State) : actPacket d q n f s = settleQueue d q (refusePacket d q 0x0102 b (popLine d q s)) := by
  simp [actPacket, hhead, hbody]

theorem actPacket_sound {s : State} {d : DieIx} {q : QueueIx} {n : Nat} {b : List Byte} (hhead : headPacket s d q n = some b) (hbody : bodyOk b = true)
    (f : List Byte → State → State) : actPacket d q n f s = settleQueue d q (f b (popLine d q s)) := by
  simp [actPacket, hhead, hbody]

/-- A queue that takes packets is a running partition's. -/
theorem owned_of_headPacket {s : State} {d : DieIx} {q : QueueIx} {n : Nat} {b : List Byte} (hhead : headPacket s d q n = some b) :
    ∃ p, (dieOf s d).owner = some p := by
  cases hown : (dieOf s d).owner with
  | some p => exact ⟨p, rfl⟩
  | none => simp [headPacket, queueOpen, hown] at hhead

theorem execPatch_malformed {s : State} {d : DieIx} {q : QueueIx} {b : List Byte} (hhead : headPacket s d q 2 = some b) (hbody : bodyOk b = false) :
    execPatch d q s = .next (settleQueue d q (refusePacket d q 0x0102 b (popLine d q s))) := by
  obtain ⟨p, hown⟩ := owned_of_headPacket hhead
  simp only [execPatch, hhead, hown, ok]
  cases tblGet (partOfIx s p).programs (fieldAt b 0x10 1) with
  | none => exact congrArg ok (actPacket_malformed hhead hbody _)
  | some g =>
    simp only [hbody, Bool.false_and, Bool.false_eq_true, if_false]
    exact congrArg ok (actPacket_malformed hhead hbody _)

theorem execSetStep_malformed {s : State} {d : DieIx} {q : QueueIx} {b : List Byte} (hhead : headPacket s d q 6 = some b) (hbody : bodyOk b = false) :
    execSetStep d q s = .next (settleQueue d q (refusePacket d q 0x0102 b (popLine d q s))) := by
  simp only [execSetStep, hhead, ok, hbody, Bool.false_and, Bool.false_eq_true, if_false]
  exact congrArg ok (actPacket_malformed hhead hbody _)

/-- Whatever its type, a packet whose body breaks R287 is refused. -/
theorem exec_malformed {s : State} {d : DieIx} {q : QueueIx} {b : List Byte} (hbody : bodyOk b = false) {i : Instr} {n : Nat}
    (hi : (i, n) ∈ [(Instr.nop d q, 0), (.programLoad d q, 1), (.patch d q, 2), (.keysetBind d q [], 3), (.jobSubmit d q, 4), (.fence d q, 5),
      (.setStep d q, 6), (.block d q, 8)]) (hhead : headPacket s d q n = some b) :
    exec i s = .next (settleQueue d q (refusePacket d q 0x0102 b (popLine d q s))) := by
  simp only [List.mem_cons, Prod.mk.injEq, List.not_mem_nil, or_false] at hi
  rcases hi with ⟨rfl, rfl⟩ | ⟨rfl, rfl⟩ | ⟨rfl, rfl⟩ | ⟨rfl, rfl⟩ | ⟨rfl, rfl⟩ | ⟨rfl, rfl⟩ | ⟨rfl, rfl⟩ | ⟨rfl, rfl⟩
  · exact congrArg ok (actPacket_malformed hhead hbody _)
  · exact congrArg ok (actPacket_malformed hhead hbody _)
  · exact execPatch_malformed hhead hbody
  · exact congrArg ok (actPacket_malformed hhead hbody _)
  · exact congrArg ok (actPacket_malformed hhead hbody _)
  · exact congrArg ok (actPacket_malformed hhead hbody _)
  · exact execSetStep_malformed hhead hbody
  · exact congrArg ok (actPacket_malformed hhead hbody _)

/-! ### Writes to a window that is not local -/

theorem execQueueWindowWrite_foreign {s : State} {h : HostId} {fn slot : Nat} {d : DieIx} (howns : barOwns s h fn slot d = none) (q : QueueIx) (o : Nat)
    (bs : List Byte) :
    (∀ r, memberOf s h fn slot = some r → exec (.queueWindowWrite h fn slot d q o (some bs)) s =
      .next (sendMsg .bench (hostDie h) r.part d (fun v => .forwardedQueue v r d q o bs) s)) ∧
    (memberOf s h fn slot = none → exec (.queueWindowWrite h fn slot d q o (some bs)) s = .next s) := by
  refine ⟨fun r hr => ?_, fun hr => ?_⟩
  all_goals
    change execQueueWindowWrite h fn slot d q o (some bs) s = _
    simp only [execQueueWindowWrite, howns, hr, ok]

/-- Settles O17: what a write to a window does to its queue, and what becomes of packets that break R287. -/
theorem queueWindows : Obligations.QueueWindows := by
  refine ⟨fun s h fn slot d q o bs hmems => ?_, fun s d q b => ⟨fun i n hi hhead hbody => exec_malformed hbody hi hhead,
    fun p hs hb e => refusePacket_completed hs hb e, fun hhead hbody => congrArg ok (actPacket_sound hhead hbody _)⟩⟩
  refine ⟨fun p howns => queueWindowWrite_spec hmems howns q o bs, fun howns => execQueueWindowWrite_foreign howns q o bs, _, rfl,
    hostOf_updHost_self _ _ _, fun k hk => hostOf_updHost_ne _ _ hk, updHost_frame _ _ _ rfl⟩

end Sys2Proof.Machine

namespace Sys2Proof.Machine

/-! ### Rows held out of service (R234, R278, R456) -/

/-- Between `s` and `t` locations were held out and listed, and no more than that. -/
structure HoldsOut (s t : State) : Prop where
  rows : ∀ d, ∀ r ∈ (dieOf s d).heldOut, r ∈ (dieOf t d).heldOut
  storeRows : ∀ d, ∀ r ∈ (dieOf s d).heldOutStore, r ∈ (dieOf t d).heldOutStore
  bist : ∃ l, t.bist = { s.bist with results := l }
  frame : Frame [.bist, .dies, .counters] s t

theorem HoldsOut.refl (s : State) : HoldsOut s s := ⟨fun _ _ h => h, fun _ _ h => h, ⟨_, rfl⟩, Frame.refl _ _⟩

theorem HoldsOut.trans {s t u : State} (h : HoldsOut s t) (k : HoldsOut t u) : HoldsOut s u := by
  obtain ⟨l, hl⟩ := h.bist
  obtain ⟨m, hm⟩ := k.bist
  exact ⟨fun d r hr => k.rows d r (h.rows d r hr), fun d r hr => k.storeRows d r (h.storeRows d r hr), ⟨m, by rw [hm, hl]⟩, h.frame.trans k.frame⟩

/-- A list that is given an entry it may hold already has it, and what it had. -/
theorem mem_once {α : Type} [BEq α] [LawfulBEq α] (l : List α) (a : α) : a ∈ (if l.contains a then l else l ++ [a]) := by
  split
  · rename_i h; simpa using h
  · simp

theorem mem_once_of_mem {α : Type} [BEq α] [LawfulBEq α] {l : List α} (a : α) {b : α} (h : b ∈ l) : b ∈ (if l.contains a then l else l ++ [a]) := by
  split
  · exact h
  · exact List.mem_append_left _ h

theorem Die.with_counters {x y : Die} (h : x = y) (c : List (Nat × Nat)) : { x with counters := c } = { y with counters := c } := by
  rw [h]

theorem dieOf_count_self (d : DieIx) (i n : Nat) (s : State) :
    dieOf (count d i n s) d = { dieOf s d with counters := tblSet (dieOf s d).counters i (tblGetD (dieOf s d).counters i 0 + n) } :=
  dieOf_updDie_self d _ s

theorem dieOf_holdOutRow_self (d : DieIx) (row : Nat) (s : State) : ∃ c, dieOf (holdOutRow d row s) d = { dieOf s d with
    heldOut := if (dieOf s d).heldOut.contains row then (dieOf s d).heldOut else (dieOf s d).heldOut ++ [row], counters := c } := by
  have ht := dieOf_updDie_self d (fun x => { x with heldOut := if x.heldOut.contains row then x.heldOut else x.heldOut ++ [row] }) s
  exact ⟨_, (dieOf_count_self d 8 1 _).trans (Die.with_counters ht _)⟩

theorem dieOf_holdOutRow_ne {d e : DieIx} (h : e ≠ d) (row : Nat) (s : State) : dieOf (holdOutRow d row s) e = dieOf s e :=
  (dieOf_updDie_ne _ _ h).trans
    (dieOf_updDie_ne (fun x => { x with heldOut := if x.heldOut.contains row then x.heldOut else x.heldOut ++ [row] }) s h)

theorem dieOf_holdOutStack_self (d : DieIx) (row : Nat) (s : State) : ∃ c, dieOf (holdOutStack d row s) d = { dieOf s d with
    heldOutStore := if (dieOf s d).heldOutStore.contains row then (dieOf s d).heldOutStore else (dieOf s d).heldOutStore ++ [row]
    counters := c } := by
  have ht := dieOf_updDie_self d (fun x => { x with
    heldOutStore := if x.heldOutStore.contains row then x.heldOutStore else x.heldOutStore ++ [row] }) s
  exact ⟨_, (dieOf_count_self d 8 1 _).trans (Die.with_counters ht _)⟩

theorem dieOf_holdOutStack_ne {d e : DieIx} (h : e ≠ d) (row : Nat) (s : State) : dieOf (holdOutStack d row s) e = dieOf s e :=
  (dieOf_updDie_ne _ _ h).trans
    (dieOf_updDie_ne (fun x => { x with heldOutStore := if x.heldOutStore.contains row then x.heldOutStore else x.heldOutStore ++ [row] }) s h)

/-- A row of a die's scratchpad is held out and listed. -/
theorem holdOutRow_spec (d : DieIx) (row : Nat) (s : State) :
    HoldsOut s (holdOutRow d row s) ∧ row ∈ (dieOf (holdOutRow d row s) d).heldOut ∧ (d.val, 1, row) ∈ (holdOutRow d row s).bist.results := by
  obtain ⟨c, hself⟩ := dieOf_holdOutRow_self d row s
  refine ⟨⟨fun e r hr => ?_, fun e r hr => ?_, ⟨_, rfl⟩, ?_⟩, hself ▸ mem_once _ _, mem_once _ _⟩
  · by_cases he : e = d
    · subst he; rw [hself]; exact mem_once_of_mem _ hr
    · rwa [dieOf_holdOutRow_ne he]
  · by_cases he : e = d
    · subst he; rwa [hself]
    · rwa [dieOf_holdOutRow_ne he]
  · exact (((updDie_frame d (fun x => { x with heldOut := if x.heldOut.contains row then x.heldOut else x.heldOut ++ [row] }) s).then
      (fields_frame (ws := [.bist]))).then (count_frame d 8 1 _)).mono (by decide)

/-- A row of a die's store is held out and listed. -/
theorem holdOutStack_spec (d : DieIx) (row : Nat) (s : State) :
    HoldsOut s (holdOutStack d row s) ∧ row ∈ (dieOf (holdOutStack d row s) d).heldOutStore ∧
    (d.val, 4, row) ∈ (holdOutStack d row s).bist.results := by
  obtain ⟨c, hself⟩ := dieOf_holdOutStack_self d row s
  refine ⟨⟨fun e r hr => ?_, fun e r hr => ?_, ⟨_, rfl⟩, ?_⟩, hself ▸ mem_once _ _, mem_once _ _⟩
  · by_cases he : e = d
    · subst he; rwa [hself]
    · rwa [dieOf_holdOutStack_ne he]
  · by_cases he : e = d
    · subst he; rw [hself]; exact mem_once_of_mem _ hr
    · rwa [dieOf_holdOutStack_ne he]
  · exact (((updDie_frame d (fun x => { x with
      heldOutStore := if x.heldOutStore.contains row then x.heldOutStore else x.heldOutStore ++ [row] }) s).then
      (fields_frame (ws := [.bist]))).then (count_frame d 8 1 _)).mono (by decide)

theorem listFailure_holdsOut (d : DieIx) (k row : Nat) (s : State) : HoldsOut s (listFailure d k row s) := by
  unfold listFailure
  dsimp only
  split
  · exact .refl s
  · exact ⟨fun _ _ h => h, fun _ _ h => h, ⟨_, rfl⟩, fields_frame⟩

theorem holdLoc_holdsOut (e : Nat × Nat × Nat) (s : State) : HoldsOut s (holdLoc e s) := by
  unfold holdLoc
  dsimp only
  split
  · exact (holdOutRow_spec _ _ _).1
  · split
    · exact (holdOutStack_spec _ _ _).1
    · exact listFailure_holdsOut _ _ _ _

theorem foldl_holdLoc_holdsOut (l : List (Nat × Nat × Nat)) (s : State) : HoldsOut s (l.foldl (fun s e => holdLoc e s) s) := by
  induction l generalizing s with
  | nil => exact .refl s
  | cons e l ih => exact (holdLoc_holdsOut e s).trans (ih _)

theorem dieBits_val (d : DieIx) : dieBits d.val = d := Fin.ext (Nat.mod_eq_of_lt d.isLt)

/-- Every row of a list is held out once the list has been held out. -/
theorem foldl_holdLoc_held {l : List (Nat × Nat × Nat)} {d : DieIx} {row : Nat} (s : State) :
    ((d.val, 1, row) ∈ l → row ∈ (dieOf (l.foldl (fun s e => holdLoc e s) s) d).heldOut) ∧
    ((d.val, 4, row) ∈ l → row ∈ (dieOf (l.foldl (fun s e => holdLoc e s) s) d).heldOutStore) := by
  induction l generalizing s with
  | nil => exact ⟨nofun, nofun⟩
  | cons e l ih =>
    have hrest := foldl_holdLoc_holdsOut l (holdLoc e s)
    refine ⟨fun h => ?_, fun h => ?_⟩
    · rcases List.mem_cons.1 h with rfl | h
      · refine hrest.rows d row ?_
        simpa [holdLoc, dieBits_val] using (holdOutRow_spec d row s).2.1
      · exact (ih _).1 h
    · rcases List.mem_cons.1 h with rfl | h
      · refine hrest.storeRows d row ?_
        simpa [holdLoc, dieBits_val] using (holdOutStack_spec d row s).2.1
      · exact (ih _).2 h

/-! ### The repair record at start (R475, R518, R522) -/

/-- Without a usable record the tests run before the part serves. -/
theorem noRecord_spec (status : Nat) (s : State) : Logged 0x0903 (evAt 0 none 0x0D 0) s (noRecord status s) ∧
    (noRecord status s).boot = { s.boot with phase := .memoryTest } ∧ (noRecord status s).bist = { s.bist with status := status, phase := 4 } ∧
    (noRecord status s).dict = s.dict ∧ Frame ([.boot, .bist] ++ logAreas) s (noRecord status s) := by
  let u : State := { s with bist := { s.bist with status := status, phase := 4 }, boot := { s.boot with phase := .memoryTest } }
  have hu : Frame [.boot, .bist] s u := fields_frame
  have hlog : Frame logAreas u (noRecord status s) := logEvent_frame _ _ _
  exact ⟨(logEvent_logged 0x0903 (evAt 0 none 0x0D 0) u).between hu (Frame.refl [] _) (by decide) (by decide), hlog .boot (by decide),
    hlog .bist (by decide), hlog .dict (by decide), hu.then hlog⟩

/-- What a record must be to be opened (R475). -/
theorem openRecord_shape {key : List Byte} {s : State} {b : List Byte} {n : Nat} (hn : fieldAt b 0x18 4 = n)
    (hshape : fieldAt b 0 2 = 0xC7F5 ∧ fieldAt b 2 1 = 1 ∧ bytesAt b 4 16 = bytesAt s.fuses.uniqueId 0 16 ∧ n ≤ 1048576 ∧ b.length = 0x40 + n + 16) :
    openRecord key s b = gcmOpen key (bytesAt b 0x1C 12) (bytesAt b 0 0x40) (bytesAt b 0x40 n) (bytesAt b (0x40 + n) 16) := by
  obtain ⟨htag, hver, hid, hle, hlen⟩ := hshape
  simp [openRecord, htag, hver, hid, hn, hlen, hle]

theorem openRecord_misshapen {key : List Byte} {s : State} {b : List Byte} {n : Nat} (hn : fieldAt b 0x18 4 = n)
    (hshape : ¬(fieldAt b 0 2 = 0xC7F5 ∧ fieldAt b 2 1 = 1 ∧ bytesAt b 4 16 = bytesAt s.fuses.uniqueId 0 16 ∧ n ≤ 1048576 ∧
      b.length = 0x40 + n + 16)) : openRecord key s b = none := by
  refine if_neg fun h => hshape ?_
  simpa [and_assoc, hn] using h

/-- A record that carries no flag is applied (R475). -/
theorem takeRecord_applied {b m : List Byte} {s : State} (h0 : bitOf (fieldAt b 3 1) 0 = false) (h1 : bitOf (fieldAt b 3 1) 1 = false) :
    let t := takeRecord b m s
    t.boot = { s.boot with phase := .retention } ∧ t.bist.status = 1 ∧ t.bist.recordSeq = fieldAt b 0x14 4 ∧
    t.bist.repairs = (Config.repairList m).1 ∧
    (∀ (d : DieIx) (row : Nat), (d.val, 1, row) ∈ (Config.repairList m).2 → row ∈ (dieOf t d).heldOut) ∧
    (∀ (d : DieIx) (row : Nat), (d.val, 4, row) ∈ (Config.repairList m).2 → row ∈ (dieOf t d).heldOutStore) ∧
    t.log = s.log ∧ Frame [.boot, .bist, .dies, .counters] s t := by
  let u : State := { s with
    bist := { s.bist with status := 1, recordSeq := fieldAt b 0x14 4, repairs := (Config.repairList m).1, prevRepairs := (Config.repairList m).1 }
    boot := { s.boot with phase := .retention } }
  have hu : Frame [.boot, .bist] s u := fields_frame
  have ht : takeRecord b m s = (Config.repairList m).2.foldl (fun s e => holdLoc e s) u := by simp [takeRecord, h0, h1, u, updBist]
  rw [ht]
  obtain ⟨-, -, ⟨l, hbist⟩, hframe⟩ := foldl_holdLoc_holdsOut (Config.repairList m).2 u
  exact ⟨hframe .boot (by decide), by rw [hbist], by rw [hbist], by rw [hbist], fun d row => (foldl_holdLoc_held u).1,
    fun d row => (foldl_holdLoc_held u).2, hframe .log (by decide), (hu.then hframe).mono (by decide)⟩

/-! ### The retention check (R517, R456) -/

theorem execReady_none {s : State} (hon : s.alarm.device = false) (hphase : s.boot.phase = .retention) :
    exec (.ready []) s = .next (updBoot (fun b => { b with phase := .ready }) s) := by
  change execReady [] s = _
  simp [execReady, hon, hphase]

theorem execReady_one {s : State} (hon : s.alarm.device = false) (hphase : s.boot.phase = .retention) (e : BistEntry) :
    exec (.ready [e]) s = .next (if (retentionFail e s).alarm.device then retentionFail e s
      else updBoot (fun b => { b with phase := .ready }) (retentionFail e s)) := by
  change execReady [e] s = _
  simp only [execReady, hon, hphase]
  rfl

/-- A row that fails the check is logged, held out and listed, and the part is ready. -/
theorem ready_heldOut {s u : State} {e : Ev} {d : DieIx} {unit row : Nat} (hu : HoldsOut (logAt e d none unit row s) u) :
    (updBoot (fun b => { b with phase := .ready }) u).boot = { s.boot with phase := .ready } ∧
    Logged e (evAt d none unit row) s (updBoot (fun b => { b with phase := .ready }) u) ∧
    Frame ([.boot, .bist, .dies] ++ logAreas) s (updBoot (fun b => { b with phase := .ready }) u) := by
  have hlog : Frame logAreas s (logAt e d none unit row s) := logEvent_frame _ _ _
  have hboot : Frame [.boot] u (updBoot (fun b => { b with phase := .ready }) u) := fields_frame
  have hlast := hu.frame.then hboot
  have hsame : u.boot = s.boot := (hu.frame .boot (by decide)).trans (hlog .boot (by decide))
  refine ⟨congrArg (fun b : Boot => { b with phase := .ready }) hsame, ?_, (hlog.then hlast).mono (by decide)⟩
  exact (logEvent_logged e (evAt d none unit row) s).between (Frame.refl [] _) hlast (by decide) (by decide)

theorem alarm_of_heldOut {s u : State} {e : Ev} {d : DieIx} {unit row : Nat} (hu : HoldsOut (logAt e d none unit row s) u) : u.alarm = s.alarm :=
  (hu.frame .alarm (by decide)).trans (logEvent_frame _ _ s .alarm (by decide))

/-- Settles O8: the record at start is taken, refused or missing, and the retention check ends start-up. -/
theorem startUpRepair : Obligations.StartUpRepair := by
  refine ⟨fun s hon hphase => ?_, fun s hon hphase => ⟨?_, fun d row => ?_, fun d row => ?_, fun d row => ?_⟩⟩
  · intro tested
    have hrecord : ∀ b, s.bist.recordIn = some b → b ≠ [] → exec .repairRecord s =
        .next (match openRecord (repairKeyOf s) s b with | none => noRecord 2 s | some body => takeRecord b body s) := by
      intro b hb hne
      change execRepairRecord s = _
      simp only [execRepairRecord, hphase, hon, hb]
      cases b with
      | nil => exact absurd rfl hne
      | cons => rfl
    have htested : ∀ i status, exec i s = .next (noRecord status s) → tested i status s.dict.sessions := by
      intro i status hi
      obtain ⟨hlogged, hboot, hbist, hdict, hframe⟩ := noRecord_spec status s
      exact ⟨_, hi, hlogged, hboot, hbist, hdict, hframe.mono (by decide)⟩
    refine ⟨fun hnone => ⟨?_, ?_⟩, fun hempty => ⟨htested _ _ ?_, ?_⟩, fun b hb hne => ?_⟩
    · let u : State := { s with dict := { s.dict with sessions := s.dict.sessions.filter fun x => !(x.index == 0x7010 && x.sub == 1) } }
      have hu : Frame [.dict] s u := fields_frame
      obtain ⟨hlogged, hboot, hbist, hdict, hframe⟩ := noRecord_spec 0 u
      refine ⟨noRecord 0 u, ?_, hlogged.between hu (Frame.refl [] _) (by decide) (by decide), hboot, hbist, hdict, (hu.then hframe).mono (by decide)⟩
      change execRepairRecordWaitExpiry s = _
      simp [execRepairRecordWaitExpiry, hphase, hnone, hon, ok, u]
    · change execRepairRecord s = _
      simp [execRepairRecord, hphase, hnone, hon]
    · change execRepairRecord s = _
      simp [execRepairRecord, hphase, hempty, hon]
    · change execRepairRecordWaitExpiry s = _
      simp [execRepairRecordWaitExpiry, hphase, hempty]
    · intro key n shape body
      have hexec := hrecord b hb hne
      have hbody : ∀ m, shape → body = some m → openRecord (repairKeyOf s) s b = some m := fun m hs hm => (openRecord_shape rfl hs).trans hm
      have hquenched : ∀ m e l, openRecord (repairKeyOf s) s b = some m →
          takeRecord b m s = deviceFail e 0 0x0D l { s with bist := { s.bist with status := 2 } } →
          ∃ t, exec .repairRecord s = .next t ∧ DeviceQuenched e .internal { s with bist := { s.bist with status := 2 } } t := by
        intro m e l hm ht
        rw [hm] at hexec
        exact ⟨_, hexec.trans (congrArg ok ht), (deviceFail_quenched (s := { s with bist := { s.bist with status := 2 } }) hon e 0 0x0D l).2⟩
      refine ⟨fun hbad => htested _ _ ?_, fun m hs hm h0 => ?_, fun m hs hm h0 h1 => ?_, fun m hs hm h0 h1 => ?_⟩
      · have hnone : openRecord (repairKeyOf s) s b = none := by
          by_cases hs : shape
          · exact (openRecord_shape rfl hs).trans (hbad.resolve_left (not_not_intro hs))
          · exact openRecord_misshapen rfl hs
        rw [hnone] at hexec
        exact hexec
      · exact hquenched m 0x0901 _ (hbody m hs hm) (by simp only [takeRecord, h0, if_pos]; rfl)
      · exact hquenched m 0x0902 _ (hbody m hs hm) (by simp only [takeRecord, h0, h1, if_pos, Bool.false_eq_true, if_false]; rfl)
      · rw [hbody m hs hm] at hexec
        exact ⟨_, hexec, takeRecord_applied h0 h1⟩
  · exact ⟨_, execReady_none hon hphase, rfl, fields_frame⟩
  · obtain ⟨hheld, hrow, hlisted⟩ := holdOutRow_spec d row (logAt 0x0301 d none 7 row s)
    obtain ⟨hboot, hlogged, hframe⟩ := ready_heldOut hheld
    have hexec := execReady_one hon hphase ⟨d, 1, row⟩
    rw [show retentionFail ⟨d, 1, row⟩ s = holdOutRow d row (logAt 0x0301 d none 7 row s) from rfl, alarm_of_heldOut hheld, hon, if_neg nofun] at hexec
    exact ⟨_, hexec, hboot, hlogged, hrow, hlisted, hframe⟩
  · obtain ⟨hheld, hrow, hlisted⟩ := holdOutStack_spec d row (logAt 0x0302 d none 8 row s)
    obtain ⟨hboot, hlogged, hframe⟩ := ready_heldOut hheld
    have hexec := execReady_one hon hphase ⟨d, 4, row⟩
    rw [show retentionFail ⟨d, 4, row⟩ s = holdOutStack d row (logAt 0x0302 d none 8 row s) from rfl, alarm_of_heldOut hheld, hon, if_neg nofun] at hexec
    exact ⟨_, hexec, hboot, hlogged, hrow, hlisted, hframe⟩
  · obtain ⟨⟨b, hb⟩, hlisted⟩ := listFailure_spec d 5 row s
    have hquench := (deviceFail_quenched (s := { s with bist := b }) hon 0x0304 d 0x0B 0).2
    have hexec := execReady_one hon hphase ⟨d, 5, row⟩
    rw [show retentionFail ⟨d, 5, row⟩ s = deviceFail 0x0304 d 0x0B 0 (listFailure d 5 row s) from rfl, hb] at hexec
    generalize deviceFail 0x0304 d 0x0B 0 { s with bist := b } = t at hexec hquench
    have hbist : t.bist = b := hquench.frame .bist (by decide)
    rw [hquench.alarm, if_pos rfl] at hexec
    refine ⟨t, hexec, ?_, hbist ▸ hquench⟩
    rw [hb] at hlisted
    exact hbist ▸ hlisted

end Sys2Proof.Machine

namespace Sys2Proof.Machine

/-! ### What a parity error marks before its job is quenched (R456) -/

/-- Between `s` and `m` a location was marked: no job, log or boundary changed, and no handle, flag or program went. -/
structure Marks (ws : List Area) (s m : State) : Prop where
  jobs : m.jobs = s.jobs
  log : m.log = s.log
  hearth : m.hearth = s.hearth
  owners : ∀ d, (dieOf m d).owner = (dieOf s d).owner
  handles : ∀ d h, (handleOf s d h).valid = true → (handleOf m d h).valid = true
  stores : ∀ d h, (storeOf s d h).valid = true → (storeOf m d h).valid = true
  flags : ∀ d, (dieOf m d).flags = (dieOf s d).flags
  programs : ∀ p, (partOfIx m p).programs = (partOfIx s p).programs
  frame : Frame ws s m

theorem Marks.trans {ws vs : List Area} {s t u : State} (h : Marks ws s t) (k : Marks vs t u) : Marks (ws ++ vs) s u where
  jobs := k.jobs.trans h.jobs
  log := k.log.trans h.log
  hearth := k.hearth.trans h.hearth
  owners d := (k.owners d).trans (h.owners d)
  handles d i hi := k.handles d i (h.handles d i hi)
  stores d i hi := k.stores d i (h.stores d i hi)
  flags d := (k.flags d).trans (h.flags d)
  programs p := (k.programs p).trans (h.programs p)
  frame := h.frame.then k.frame

/-- A change of the dies that keeps handles and flags. -/
theorem Marks.of_dies {s m : State} (hframe : Frame [.bist, .dies, .counters] s m) (howners : ∀ d, (dieOf m d).owner = (dieOf s d).owner)
    (hhandles : ∀ d, (dieOf m d).handles = (dieOf s d).handles)
    (hstores : ∀ d, (dieOf m d).storeHandles = (dieOf s d).storeHandles) (hflags : ∀ d, (dieOf m d).flags = (dieOf s d).flags) :
    Marks [.bist, .dies, .counters] s m where
  jobs := hframe .jobs (by decide)
  log := hframe .log (by decide)
  hearth := hframe .hearth (by decide)
  owners := howners
  handles d h hv := by rw [handleOf, hhandles d]; exact hv
  stores d h hv := by rw [storeOf, hstores d]; exact hv
  flags := hflags
  programs := hframe.partField (by decide) (·.programs) fun _ => rfl
  frame := hframe

/-- Poisoning, which leaves jobs and the log. -/
theorem Marks.of_work {e : Ev} {id : Nat} {s m : State} (h : JobWork e id s m) (hjobs : m.jobs = s.jobs) (hlog : m.log = s.log) :
    Marks jobQuenchAreas s m where
  jobs := hjobs
  log := hlog
  hearth := h.frame .hearth (by decide)
  owners d := (h.dies d).owner
  handles d i hi := ((h.dies d).handles i hi).1
  stores d i hi := ((h.dies d).stores i hi).1
  flags d := (h.dies d).flags
  programs p := (h.parts p).field (·.programs) fun _ => rfl
  frame := h.frame

theorem holdOutRow_marks (d : DieIx) (row : Nat) (s : State) : Marks [.bist, .dies, .counters] s (holdOutRow d row s) := by
  have hrest : ∀ e, { dieOf (holdOutRow d row s) e with heldOut := [], counters := [] } = { dieOf s e with heldOut := [], counters := [] } := by
    intro e
    by_cases he : e = d
    · subst he
      obtain ⟨c, hc⟩ := dieOf_holdOutRow_self e row s
      rw [hc]
    · rw [dieOf_holdOutRow_ne he]
  exact .of_dies (holdOutRow_spec d row s).1.frame (fun e => congrArg (·.owner) (hrest e)) (fun e => congrArg (·.handles) (hrest e)) (fun e => congrArg (·.storeHandles) (hrest e))
    fun e => congrArg (·.flags) (hrest e)

theorem holdOutStack_marks (d : DieIx) (row : Nat) (s : State) : Marks [.bist, .dies, .counters] s (holdOutStack d row s) := by
  have hrest : ∀ e, { dieOf (holdOutStack d row s) e with heldOutStore := [], counters := [] } = { dieOf s e with heldOutStore := [], counters := [] } := by
    intro e
    by_cases he : e = d
    · subst he
      obtain ⟨c, hc⟩ := dieOf_holdOutStack_self e row s
      rw [hc]
    · rw [dieOf_holdOutStack_ne he]
  exact .of_dies (holdOutStack_spec d row s).1.frame (fun e => congrArg (·.owner) (hrest e)) (fun e => congrArg (·.handles) (hrest e)) (fun e => congrArg (·.storeHandles) (hrest e))
    fun e => congrArg (·.flags) (hrest e)

theorem poisonDest_marks (id : Nat) (e : Ev) (t : Dest) (s : State) : Marks jobQuenchAreas s (poisonDest e t s) :=
  .of_work (poisonDest_work id e t s) (poisonAll_jobs e [t] s) (poisonAll_log e [t] s)

/-- A location is marked, the event logged with the job's site, and the job quenched. -/
theorem marked_quenched {ws : List Area} {s m : State} {j : Job} (hj : jobOf s j.id = some j) (hm : Marks ws s m) (e : Ev) (a : Site)
    (unit detail : Nat) :
    let u := quenchJob j.id e false (logJob e j a unit detail false m)
    LoggedFirst e (evJob j a unit detail false) s u ∧ JobQuenched j s u ∧ Frame (ws ++ jobQuenchAreas) s u ∧ JobWork e j.id m u := by
  intro u
  have hjm : jobOf m j.id = some j := by rw [jobOf, hm.jobs]; exact hj
  obtain ⟨k, hk, hdests⟩ := (StillNames.of_job hjm).logJob e a unit detail false
  have hlogged := logJob_logged e j a unit detail false m
  obtain ⟨hquenched, hframe, hlate⟩ := quenchJob_jobQuenched (e' := e) (logJob_work e e j a unit detail false m) hk hdests false
  refine ⟨⟨_, ?_, hlate⟩, ?_, hm.frame.then hframe, (logJob_work e e j a unit detail false m).trans (quenchJob_spec hk e false).1⟩
  · unfold Logged at hlogged ⊢
    rwa [← hm.log, ← hm.hearth]
  · exact { gone := hquenched.gone, others := fun i hi hne => hquenched.others i (hm.jobs ▸ hi) hne, operations := hquenched.operations
            handles := fun d h hmem hv => hquenched.handles d h hmem (hm.handles d h hv)
            stores := fun d h hmem hv => hquenched.stores d h hmem (hm.stores d h hv)
            flags := fun d => (hquenched.flags d).trans (hm.flags d), programs := fun p => (hquenched.programs p).trans (hm.programs p) }

theorem id_of_jobOf {s : State} {id : Nat} {j : Job} (h : jobOf s id = some j) : j.id = id := by
  simpa using List.find?_some h

/-- A parity error that an operation found: the location is marked, the event logged, the operation's job quenched. -/
theorem parityFail_marked {s : State} {op : Nat} {e : DieIx} {o : Op} {j : Job} (hop : anyOp s op = some (e, o)) (hj : jobOf s o.job = some j)
    (ev : Ev) (detail : Nat) {mark : State → State} {ws : List Area} (hm : Marks ws s (mark s))
    (hws : ∀ a ∈ ws ++ jobQuenchAreas, a ∈ .bist :: jobQuenchAreas) :
    ∃ u, parityFail op ev detail mark s = settleDies (ownedDies s j.part) u ∧
      (LoggedFirst ev (evJob j { die := e, queue := o.queue, off := o.off } o.unit detail false) s u ∧ JobQuenched j s u ∧
        Frame (.bist :: jobQuenchAreas) s u) ∧ JobWork ev j.id (mark s) u := by
  obtain ⟨hlogged, hquenched, hframe, hwork⟩ := marked_quenched (id_of_jobOf hj ▸ hj) hm ev { die := e, queue := o.queue, off := o.off } o.unit detail
  exact ⟨_, by simp only [parityFail, hop, hj], ⟨hlogged, hquenched, hframe.mono hws⟩, hwork⟩

/-- What the quench of a job leaves of the list of failures. -/
theorem JobWork.results {e : Ev} {id : Nat} {s t : State} (h : JobWork e id s t) : t.bist = s.bist := h.frame .bist (by decide)

/-- A handle that is poisoned is poisoned, valid as it was. -/
theorem poisonHandle_poisoned {s : State} {d : DieIx} {h : Nat} (e : Ev) (hv : (handleOf s d h).valid = true) :
    (handleOf (poisonHandle d h e s) d h).poisoned = true := poisonAll_handle e (List.mem_singleton_self (Dest.handle d h)) s hv

theorem scratchpadParity_spec {s : State} {op : Nat} {e : DieIx} {o : Op} {j : Job} (hop : anyOp s op = some (e, o)) (hj : jobOf s o.job = some j)
    (d : DieIx) (row : Nat) : ∃ u, exec (.scratchpadParity d op row) s = .next (settleDies (ownedDies s j.part) u) ∧
      (LoggedFirst 0x0301 (evJob j { die := e, queue := o.queue, off := o.off } o.unit row false) s u ∧ JobQuenched j s u ∧
        Frame (.bist :: jobQuenchAreas) s u) ∧ row ∈ (dieOf u d).heldOut ∧ (d.val, 1, row) ∈ u.bist.results ∧
      ∀ h, handleOfRow s d row = some h → (handleOf s d h).valid = true → (handleOf u d h).poisoned = true := by
  let mark (s : State) : State := match handleOfRow s d row with
    | some h => poisonHandle d h 0x0301 (holdOutRow d row s)
    | none => holdOutRow d row s
  have hout := holdOutRow_marks d row s
  obtain ⟨-, hrow, hlisted⟩ := holdOutRow_spec d row s
  obtain ⟨ws, hws, hm, hrow, hlisted, hpoison⟩ : ∃ ws, (∀ a ∈ ws ++ jobQuenchAreas, a ∈ .bist :: jobQuenchAreas) ∧ Marks ws s (mark s) ∧
      row ∈ (dieOf (mark s) d).heldOut ∧ (d.val, 1, row) ∈ (mark s).bist.results ∧
      ∀ h, handleOfRow s d row = some h → (handleOf s d h).valid = true → (handleOf (mark s) d h).valid = true ∧
        (handleOf (mark s) d h).poisoned = true := by
    cases hh : handleOfRow s d row with
    | none =>
      have hmark : mark s = holdOutRow d row s := by simp only [mark, hh]
      rw [hmark]
      exact ⟨_, by decide, hout, hrow, hlisted, fun _ h => absurd h nofun⟩
    | some h =>
      have hmark : mark s = poisonHandle d h 0x0301 (holdOutRow d row s) := by simp only [mark, hh]
      have hwork := poisonHandle_work 0 d h 0x0301 0x0301 (holdOutRow d row s)
      rw [hmark]
      refine ⟨_, by decide, hout.trans (poisonDest_marks 0 0x0301 (.handle d h) _), (hwork.dies d).heldOut ▸ hrow, hwork.results ▸ hlisted, ?_⟩
      rintro _ ⟨⟩ hv
      have hv := hout.handles d h hv
      exact ⟨((hwork.dies d).handles h hv).1, poisonHandle_poisoned 0x0301 hv⟩
  obtain ⟨u, hu, hafter, hwork⟩ := parityFail_marked hop hj 0x0301 row hm hws
  exact ⟨u, congrArg ok hu, hafter, (hwork.dies d).heldOut ▸ hrow, hwork.results ▸ hlisted,
    fun h hh hv => ((hwork.dies d).handles h (hpoison h hh hv).1).2 (hpoison h hh hv).2⟩

theorem clusterBufferParity_spec {s : State} {op : Nat} {e : DieIx} {o : Op} {j : Job} (hop : anyOp s op = some (e, o)) (hj : jobOf s o.job = some j)
    (d : DieIx) (k : Fin 8) (row : Nat) : ∃ u, exec (.clusterBufferParity d k row op) s = .next (settleDies (ownedDies s j.part) u) ∧
      (LoggedFirst 0x0301 (evJob j { die := e, queue := o.queue, off := o.off } o.unit row false) s u ∧ JobQuenched j s u ∧
        Frame (.bist :: jobQuenchAreas) s u) ∧ (d.val, 2, row) ∈ u.bist.results := by
  obtain ⟨⟨b, hb⟩, hlisted⟩ := listFailure_spec d 2 row s
  have hdie : ∀ x, ∃ c, dieOf (count d 8 1 (listFailure d 2 row s)) x = { dieOf s x with counters := c } := by
    intro x
    rw [hb]
    by_cases hx : x = d
    · subst hx; exact ⟨_, dieOf_count_self x 8 1 _⟩
    · exact ⟨_, dieOf_updDie_ne _ _ hx⟩
  have hmarks : Marks [.bist, .dies, .counters] s (count d 8 1 (listFailure d 2 row s)) := by
    refine .of_dies (((listFailure_holdsOut d 2 row s).frame.then (count_frame d 8 1 _)).mono (by decide)) (fun x => ?_) (fun x => ?_) (fun x => ?_) fun x => ?_ <;>
    · obtain ⟨c, hc⟩ := hdie x
      rw [hc]
  obtain ⟨u, hu, hafter, hwork⟩ := parityFail_marked (mark := fun s => count d 8 1 (listFailure d 2 row s)) hop hj 0x0301 row hmarks (by decide)
  refine ⟨u, congrArg ok hu, hafter, ?_⟩
  rw [hwork.results]
  exact hlisted

theorem storeParity_spec {s : State} {op : Nat} {e : DieIx} {o : Op} {j : Job} (hop : anyOp s op = some (e, o)) (hj : jobOf s o.job = some j)
    (d : DieIx) (row : Nat) : ∃ u, exec (.storeParity d op row) s = .next (settleDies (ownedDies s j.part) u) ∧
      (LoggedFirst 0x0302 (evJob j { die := e, queue := o.queue, off := o.off } o.unit row false) s u ∧ JobQuenched j s u ∧
        Frame (.bist :: jobQuenchAreas) s u) ∧ row ∈ (dieOf u d).heldOutStore ∧ (d.val, 4, row) ∈ u.bist.results := by
  obtain ⟨-, hrow, hlisted⟩ := holdOutStack_spec d row s
  obtain ⟨u, hu, hafter, hwork⟩ := parityFail_marked hop hj 0x0302 row (holdOutStack_marks d row s) (by decide)
  exact ⟨u, congrArg ok hu, hafter, (hwork.dies d).heldOutStore ▸ hrow, hwork.results ▸ hlisted⟩

/-- A register-like location is poisoned, and stays so while its job is quenched. -/
theorem registerParity_spec {s : State} {op : Nat} {e : DieIx} {o : Op} {j : Job} (hop : anyOp s op = some (e, o)) (hj : jobOf s o.job = some j)
    (d : DieIx) (l : RegLoc) : ∃ u, exec (.registerParity d l op) s = .next (settleDies (ownedDies s j.part) u) ∧
      (LoggedFirst 0x0301 (evJob j { die := e, queue := o.queue, off := o.off } o.unit 0 false) s u ∧ JobQuenched j s u ∧
        Frame (.bist :: jobQuenchAreas) s u) ∧ DieWork 0x0301 (dieOf (poisonReg d l s) d) (dieOf u d) := by
  obtain ⟨u, hu, hafter, hwork⟩ := parityFail_marked (mark := poisonReg d l) hop hj 0x0301 0 (poisonDest_marks 0 0x0301 _ s) (by decide)
  exact ⟨u, congrArg ok hu, hafter, hwork.dies d⟩

/-! ### Parity in a key row (R102, R103) -/

theorem ksOf_updKs_self (p : PartIx) (k : Nat) (f : KeySet → KeySet) (s : State) : ksOf (updKs p k f s) p k = f (ksOf s p k) := by
  simp [ksOf, updKs, tblGetD_tblSet]

theorem updKs_marks (p : PartIx) (k : Nat) (f : KeySet → KeySet) (s : State) : Marks [.parts, .partLogs] s (updKs p k f s) where
  jobs := rfl
  log := rfl
  hearth := rfl
  owners _ := rfl
  handles _ _ h := h
  stores _ _ h := h
  flags _ := rfl
  programs e := by
    by_cases he : e = p
    · subst he; rw [updKs, partOfIx_updPart_self]
    · rw [updKs, partOfIx_updPart_ne _ _ he]
  frame := updPart_frame _ _ _

/-- A message to the twin changes the twin's counts and what goes out. -/
theorem sendTwin_rest (rtype : Nat) (p : PartIx) (tag : Nat) (s : State) :
    (sendTwin rtype p tag s).dies = s.dies ∧ (sendTwin rtype p tag s).parts = s.parts ∧
    (sendTwin rtype p tag s).twin.refetches = s.twin.refetches ∧ (sendTwin rtype p tag s).bist = s.bist ∧
    Frame [.twin, .out] s (sendTwin rtype p tag s) := by
  have htwin : ∀ t : Twin, Frame [.twin] s { s with twin := t } := fun t => fields_frame
  unfold sendTwin sendTwinGen sendTwinMsg
  extract_lets n r
  split
  · exact ⟨rfl, rfl, rfl, rfl, (htwin _).then (emit_frame _ _)⟩
  · exact ⟨rfl, rfl, rfl, rfl, (htwin _).mono (by decide)⟩

theorem sendTwin_marks (rtype : Nat) (p : PartIx) (tag : Nat) (s : State) : Marks [.twin, .out] s (sendTwin rtype p tag s) := by
  obtain ⟨hdies, hparts, -, -, hframe⟩ := sendTwin_rest rtype p tag s
  exact { jobs := hframe .jobs (by decide), log := hframe .log (by decide), hearth := hframe .hearth (by decide)
          owners := fun d => by rw [dieOf, hdies]; rfl
          handles := fun d h hv => by rw [handleOf, dieOf, hdies]; exact hv
          stores := fun d h hv => by rw [storeOf, dieOf, hdies]; exact hv
          flags := fun d => by rw [dieOf, hdies]; rfl
          programs := fun p => by rw [partOfIx, hparts]; rfl
          frame := hframe }

theorem setTwin_marks (t : Twin) (s : State) : Marks [.twin] s { s with twin := t } where
  jobs := rfl
  log := rfl
  hearth := rfl
  owners _ := rfl
  handles _ _ h := h
  stores _ _ h := h
  flags _ := rfl
  programs _ := rfl
  frame := fields_frame

/-- The damaged set, its row held out. -/
def keyRowDamaged (d : DieIx) (row key : Nat) (p : PartIx) (slot : Nat) (s : State) : State :=
  updKs p slot (fun k => { k with failing := if k.failing.contains key then k.failing else k.failing ++ [key], state := .damaged
                                  damageCount := (k.damageCount + 1) % 2 ^ 16 }) (holdOutStack d row s)

/-- The damaged set of paired twins, refetched. -/
def keyRowRefetched (p : PartIx) (slot tag : Nat) (s : State) : State :=
  sendTwin 6 p tag (updKs p slot (fun k => { k with state := .refetching }) { s with twin := { s.twin with refetches := s.twin.refetches ++ [(p, slot)] } })

theorem keyRowDamaged_spec (d : DieIx) (row key : Nat) (p : PartIx) (slot : Nat) (s : State) :
    let m := keyRowDamaged d row key p slot s
    Marks [.bist, .dies, .counters, .parts, .partLogs] s m ∧ row ∈ (dieOf m d).heldOutStore ∧ m.twin = s.twin ∧
    (ksOf m p slot).state = .damaged ∧ (ksOf m p slot).damageCount = ((ksOf s p slot).damageCount + 1) % 2 ^ 16 ∧
    key ∈ (ksOf m p slot).failing ∧ (ksOf m p slot).keys = (ksOf s p slot).keys := by
  intro m
  have hks : ksOf m p slot = _ := ksOf_updKs_self p slot _ (holdOutStack d row s)
  have hbefore : ksOf (holdOutStack d row s) p slot = ksOf s p slot := rfl
  rw [hks, hbefore]
  exact ⟨(holdOutStack_marks d row s).trans (updKs_marks _ _ _ _), (holdOutStack_spec d row s).2.1, rfl, rfl, rfl, mem_once _ _, rfl⟩

theorem keyRowRefetched_spec (p : PartIx) (slot tag : Nat) (s : State) :
    let m := keyRowRefetched p slot tag s
    Marks [.twin, .parts, .partLogs, .twin, .out] s m ∧ m.dies = s.dies ∧ (p, slot) ∈ m.twin.refetches ∧
    ksOf m p slot = { ksOf s p slot with state := .refetching } := by
  intro m
  let v : State := { s with twin := { s.twin with refetches := s.twin.refetches ++ [(p, slot)] } }
  obtain ⟨hdies, hparts, hrefetches, -, -⟩ := sendTwin_rest 6 p tag (updKs p slot (fun k => { k with state := .refetching }) v)
  refine ⟨((setTwin_marks _ s).trans (updKs_marks _ _ _ _)).trans (sendTwin_marks _ _ _ _), hdies, ?_, ?_⟩
  · have hlisted : (p, slot) ∈ s.twin.refetches ++ [(p, slot)] := List.mem_append_right _ (List.mem_singleton_self _)
    exact hrefetches ▸ hlisted
  · have hks := ksOf_updKs_self p slot (fun k => { k with state := .refetching }) v
    rw [show ksOf m p slot = ksOf (updKs p slot (fun k => { k with state := .refetching }) v) p slot by
      unfold ksOf partOfIx
      rw [show m.parts = _ from hparts], hks]
    rfl

/-- The quench of a job leaves a key set that is not being evicted. -/
theorem JobWork.ksOf {e : Ev} {id : Nat} {s t : State} (h : JobWork e id s t) (p : PartIx) (k : Nat) (hk : (ksOf s p k).state ≠ .evicting) :
    ksOf t p k = ksOf s p k := (h.parts p).keysets k hk

/-- A parity error in a key row. -/
theorem keyRowParity_spec {s : State} {d : DieIx} {op row slot r key : Nat} {o : Op} {j : Job} (hop : opOf s d op = some o)
    (hj : jobOf s o.job = some j) (hslot : o.keySlots.head? = some slot) (hres : (ksOf s j.part slot).state = .resident)
    (hr : bundleRowOf (ksOf s j.part slot) d.val row = some r) (hkey : keyOfRow (ksOf s j.part slot) r = some key) :
    let site : Site := { die := d, queue := o.queue, off := o.off }
    let mirrored := (ksOf s j.part slot).mirrored = true ∧ s.twin.state = .paired
    ∃ u, exec (.keyRowParity d op row) s = .next (settleDies (ownedDies s j.part) u) ∧
      LoggedFirst 0x0302 (evJob j site 2 row false) s u ∧ JobQuenched j s u ∧ row ∈ (dieOf u d).heldOutStore ∧
      (ksOf u j.part slot).damageCount = ((ksOf s j.part slot).damageCount + 1) % 2 ^ 16 ∧
      key ∈ (ksOf u j.part slot).failing ∧ (ksOf u j.part slot).keys = (ksOf s j.part slot).keys ∧
      (¬mirrored → (ksOf u j.part slot).state = .damaged ∧ u.twin = s.twin) ∧
      (mirrored → (ksOf u j.part slot).state = .refetching ∧ (j.part, slot) ∈ u.twin.refetches) ∧
      Frame ([.bist, .twin] ++ jobQuenchAreas) s u := by
  intro site mirrored
  let m₁ := keyRowDamaged d row key j.part slot s
  let m := if mirrored then keyRowRefetched j.part slot (ksOf s j.part slot).tag m₁ else m₁
  obtain ⟨hmarks₁, hrow₁, htwin₁, hstate₁, hcount₁, hfailing₁, hkeys₁⟩ := keyRowDamaged_spec d row key j.part slot s
  obtain ⟨ws, hws, hmarks, hrow, hstate, hcount, hfailing, hkeys, hplain, hrefetch⟩ : ∃ ws, (∀ a ∈ ws ++ jobQuenchAreas, a ∈ [.bist, .twin] ++ jobQuenchAreas) ∧
      Marks ws s m ∧ row ∈ (dieOf m d).heldOutStore ∧ (ksOf m j.part slot).state ≠ .evicting ∧
      (ksOf m j.part slot).damageCount = ((ksOf s j.part slot).damageCount + 1) % 2 ^ 16 ∧
      key ∈ (ksOf m j.part slot).failing ∧ (ksOf m j.part slot).keys = (ksOf s j.part slot).keys ∧
      (¬mirrored → (ksOf m j.part slot).state = .damaged ∧ m.twin = s.twin) ∧
      (mirrored → (ksOf m j.part slot).state = .refetching ∧ (j.part, slot) ∈ m.twin.refetches) := by
    by_cases hmirrored : mirrored
    · obtain ⟨hmarks, hdies, hlisted, hks⟩ := keyRowRefetched_spec j.part slot (ksOf s j.part slot).tag m₁
      rw [show m = keyRowRefetched j.part slot (ksOf s j.part slot).tag m₁ from if_pos hmirrored]
      refine ⟨_, ?_, hmarks₁.trans hmarks, ?_, ?_, ?_, ?_, ?_, fun h => absurd hmirrored h, fun _ => ⟨?_, hlisted⟩⟩
      · decide
      · rw [dieOf, hdies]; exact hrow₁
      all_goals rw [hks]
      · nofun
      · exact hcount₁
      · exact hfailing₁
      · exact hkeys₁
    · rw [show m = m₁ from if_neg hmirrored]
      exact ⟨_, by decide, hmarks₁, hrow₁, by rw [hstate₁]; nofun, hcount₁, hfailing₁, hkeys₁, fun _ => ⟨hstate₁, htwin₁⟩, fun h => absurd h hmirrored⟩
  obtain ⟨hlogged, hquenched, hframe, hwork⟩ := marked_quenched (id_of_jobOf hj ▸ hj) hmarks 0x0302 site 2 row
  have hexec : exec (.keyRowParity d op row) s =
      .next (settleDies (ownedDies s j.part) (quenchJob j.id 0x0302 false (logJob 0x0302 j site 2 row false m))) := by
    change execKeyRowParity d op row s = _
    have hm : (if (decide True && (ksOf s j.part slot).mirrored && decide (s.twin.state = .paired)) = true then
        keyRowRefetched j.part slot (ksOf s j.part slot).tag m₁ else m₁) = m := by simp [m, mirrored]
    rw [← ownedDies_congr hmarks.owners j.part, ← hm]
    simp only [execKeyRowParity, hop, hslot, hj, hr, hkey, hres]
    rfl
  have hks := hwork.ksOf j.part slot hstate
  have htwin := hwork.frame .twin (by decide)
  refine ⟨_, hexec, hlogged, hquenched, (hwork.dies d).heldOutStore ▸ hrow, ?_, ?_, ?_, fun h => ?_, fun h => ?_, hframe.mono hws⟩
  · rw [hks]; exact hcount
  · rw [hks]; exact hfailing
  · rw [hks]; exact hkeys
  · rw [hks, htwin]; exact hplain h
  · rw [hks, htwin]; exact hrefetch h

/-- Settles O14: the location is marked, the job that met it quenched. -/
theorem parityErrors : Obligations.ParityErrors := by
  refine ⟨fun s d e op o j hop hj => ⟨scratchpadParity_spec hop hj d, fun k row => clusterBufferParity_spec hop hj d k row, fun g z => ?_, fun g line => ?_,
    fun sc => ?_, fun p => ?_, storeParity_spec hop hj d⟩, fun s d op row slot r key o j hop hj hslot hres hr hkey =>
    keyRowParity_spec hop hj hslot hres hr hkey⟩
  · obtain ⟨u, hu, hafter, hwork⟩ := registerParity_spec hop hj d (.tile g z)
    exact ⟨u, hu, hafter, hwork.tiles _ (by simp [poisonReg, poisonDest])⟩
  · obtain ⟨u, hu, hafter, hwork⟩ := registerParity_spec hop hj d (.cacheLine g line)
    exact ⟨u, hu, hafter, hwork.cache _ (by simp [poisonReg, poisonDest])⟩
  · obtain ⟨u, hu, hafter, hwork⟩ := registerParity_spec hop hj d (.scalar sc)
    exact ⟨u, hu, hafter, hwork.scalars _ (by simp [poisonReg, poisonDest])⟩
  · obtain ⟨u, hu, hafter, hwork⟩ := registerParity_spec hop hj d (.palette p)
    exact ⟨u, hu, hafter, hwork.palette _ (by simp [poisonReg, poisonDest])⟩

end Sys2Proof.Machine

namespace Sys2Proof.Machine

/-! ### A boundary that refuses a candidate whose identifier an admitted job shares (R316, R323, R326)

A candidate that can never fit is refused, and everything that carries its identifier leaves with it. In a state where an admitted job carries the same
identifier the tokens that were held are then free, and the boundary admits another job. -/

/-- Fuses of a full part. -/
def someFuses : Fuses :=
  { grade := .f, activeMask := 0xFFFF, stepping := 0, uniqueId := List.replicate 16 0, deviceSecret := List.replicate 32 0, keyHash := [], revoked := 0
    rollback := 0, primes := [], romDigest := List.replicate 32 0, certChain := [], pciIds := [0, 0, 0, 0, 0], vcore := List.replicate 16 750
    repairBudget := [], fusedRepairs := [], eyeMargin := [] }

/-- A program of one role that declares no heavy tokens. -/
def tokenlessProgram : Program :=
  { image := [], digest := [], roles := 1, dieMap := [0], entryCount := 1, entries := [⟨0, 0, 1000, 0, []⟩], power := [], patches := [], codeLen := [0]
    sections := [], patchPending := none }

/-- Job `id` of partition 0 on a queue of die 0. -/
def someJob (id : Nat) (queue : QueueIx) (phase : JobPhase) (age : Nat) (tokens : List (List Nat)) : Job :=
  { id := id, part := 0, slot := 0, entry := 0, die := 0, queue := queue, dies := [0], seq := 1, tag := 0, irq := false, lines := 1, wantHallmark := false
    priority := 0, args := [], waitLimit := 0, seed := [], phase := phase, age := age, passed := 0, pinned := false, tokens := tokens, declaredNs := 1000
    reproducible := false, epoch := 0, admittedAt := 0, quench := none, stopped := false, cancelled := false, skip := none, refusedPoison := none
    refusedDegraded := false, events := 0, binds := [], dests := [], secretDests := [], weights := [], inputs := [], keyTags := [], energyPj := 0
    clamped := false, clampLogged := false, setFlags := [] }

/-- The hold of a queue whose JOB_SUBMIT waits for its job's admission. -/
def submitHold (id : Nat) : Hold × LineItem := (.job id, .packet 1 1 (List.replicate 64 0) none)

/-- Partition 0 runs on die 0, with the program in its slot 0. -/
def someRunning : State :=
  let s := resetOf someFuses
  updDie 0 (fun x => { x with owner := some 0 }) (updPart 0 (fun p => { p with state := .running, programs := [(0, tokenlessProgram)] })
    { s with boot := { s.boot with phase := .ready, fwState := 2 } })

/-- Job 1 is admitted with more tokens than the pool has; a candidate that can never fit carries its identifier too and holds queue 1; job 2, which
declares no tokens, holds queue 0. -/
def sharedIdentifier : State :=
  { updQueue 0 0 (fun q => { q with hold := some (submitHold 2) }) (updQueue 0 1 (fun q => { q with hold := some (submitHold 1) }) someRunning) with
    jobs := [someJob 1 1 .queued 0 [[2000]], someJob 1 2 .admitted 1 [[2000]], someJob 2 0 .queued 1 []], nextId := 3 }

/-- The identifiers of the jobs that are admitted after a step. -/
def admittedAfter : Result → List Nat
  | .next t => (t.jobs.filter fun k => k.phase == .admitted).map (·.id)
  | _ => []

theorem sharedIdentifier_short : serving sharedIdentifier = true ∧ switchDue sharedIdentifier = false ∧
    tokenPool sharedIdentifier < (((allParts.map (heldTokens sharedIdentifier)).sum : Nat) : Int) := by decide +kernel

theorem sharedIdentifier_admits : admittedAfter (exec .admissionBoundary sharedIdentifier) = [2] := by decide +kernel

theorem sharedIdentifier_before : ∀ j ∈ sharedIdentifier.jobs, j.id = 2 → j.phase ≠ .admitted := by decide +kernel

/-- Refutes O13: with the pool short of the tokens held, the boundary admits job 2, because the refused candidate took the admitted job of its
identifier with it. -/
theorem not_admissionAndPace : ¬ Obligations.AdmissionAndPace := by
  intro h
  obtain ⟨hserving, hswitch, hpool⟩ := sharedIdentifier_short
  obtain ⟨-, -, hshort, -⟩ := h.2 sharedIdentifier hserving hswitch
  obtain ⟨⟨t, ht, -, hadmitted⟩, -⟩ := hshort hpool
  have hids : (t.jobs.filter fun k => k.phase == .admitted).map (·.id) = [2] := by
    have hafter := sharedIdentifier_admits
    rwa [ht] at hafter
  have hmem : 2 ∈ (t.jobs.filter fun k => k.phase == .admitted).map (·.id) := by simp [hids]
  obtain ⟨k, hk, hid⟩ := List.mem_map.1 hmem
  obtain ⟨hkt, hphase⟩ := List.mem_filter.1 hk
  obtain ⟨j, hj, hjid, hjphase⟩ := hadmitted k hkt (by simpa using hphase)
  exact sharedIdentifier_before j hj (hjid.trans hid) hjphase

end Sys2Proof.Machine

namespace Sys2Proof.Machine

/-! ### What the work of a quench leaves (R385, R460)

`calm s` holds the alarm, routes, ports, hosts and twin of `s`, the owners of its dies, the marks of its partitions and the control pages of its queues. The
CR_TAIL of an enabled queue moves with its records, so only that of a queue that is not enabled is held. -/

/-- The control page of a queue. -/
def calmQueue (x : Queue) : Queue :=
  { Queue.zero with crBase := x.crBase, crLog2 := x.crLog2, enabled := x.enabled, vector := x.vector, crHead := x.crHead
                    crTail := if x.enabled then 0 else x.crTail, consumed := x.consumed, quenched := x.quenched }

def calmDie (x : Die) : Die := { Die.zero with owner := x.owner, queues := x.queues.map calmQueue }

def calmHost (x : HostPort) : HostPort :=
  { x with msixPending := [], groups := [], lateGroups := [], benchGroups := [], benchWait := [] }

def calmFabric (x : Fabric) : Fabric := { x with requests := [], benchGroups := [] }

def calmPort (x : Port) : Port := { x with discards := [] }

def calmTwin (x : Twin) : Twin := { x with sent := [] }

def calm (s : State) : State :=
  { resetOf s.fuses with
    alarm := s.alarm, parts := s.parts.map quenchMarks, dies := s.dies.map calmDie, fabric := calmFabric s.fabric, ports := s.ports.map calmPort
    hostA := calmHost s.hostA, hostB := calmHost s.hostB, twin := calmTwin s.twin }

theorem calm_foldl {α : Type} {f : State → α → State} (hf : ∀ s x, calm (f s x) = calm s) (l : List α) (s : State) :
    calm (l.foldl f s) = calm s := by
  induction l generalizing s with
  | nil => rfl
  | cons x l ih => exact (ih _).trans (hf s x)

/-- A change of what `calm` does not hold. -/
theorem calm_upd (s : State) (pins : Pins) (boot : Boot) (sec : Sec) (log : Log) (dict : Dict) (jobs : List Job) (hearth : Hearth)
    (bn : Bn) (bist : Bist) (out : List Output) (held : List Held) (reissue : Option Held) (free nextId : Nat) (pending : List Instr) :
    calm { s with pins := pins, boot := boot, sec := sec, log := log, dict := dict, jobs := jobs, hearth := hearth, bn := bn, bist := bist
                  out := out, held := held, reissue := reissue, free := free, nextId := nextId, pending := pending } = calm s := rfl

theorem calm_updDie {d : DieIx} {f : Die → Die} (s : State) (hf : ∀ x, calmDie (f x) = calmDie x := by intro _; rfl) :
    calm (updDie d f s) = calm s := by
  have h : (updDie d f s).dies.map calmDie = s.dies.map calmDie := by
    simp only [updDie, Vector.map_set, hf, ← Vector.getElem_map calmDie, Vector.set_getElem_self]
  exact congrArg (fun v => { calm s with dies := v }) h

theorem calm_mapDies {f : Die → Die} (s : State) (hf : ∀ x, calmDie (f x) = calmDie x := by intro _; rfl) :
    calm { s with dies := s.dies.map f } = calm s := by
  have h : (s.dies.map f).map calmDie = s.dies.map calmDie := by
    rw [Vector.map_map]
    exact Vector.map_congr_left fun x _ => hf x
  exact congrArg (fun v => { calm s with dies := v }) h

theorem calm_updPart {p : PartIx} {f : Partition → Partition} (s : State) (hf : ∀ x, quenchMarks (f x) = quenchMarks x := by intro _; rfl) :
    calm (updPart p f s) = calm s := by
  have h : (updPart p f s).parts.map quenchMarks = s.parts.map quenchMarks := by
    simp only [updPart, Vector.map_set, hf, ← Vector.getElem_map quenchMarks, Vector.set_getElem_self]
  exact congrArg (fun v => { calm s with parts := v }) h

theorem calm_updPort {n : PortIx} {f : Port → Port} (s : State) (hf : ∀ x, calmPort (f x) = calmPort x := by intro _; rfl) :
    calm (updPort n f s) = calm s := by
  have h : (updPort n f s).ports.map calmPort = s.ports.map calmPort := by
    simp only [updPort, Vector.map_set, hf, ← Vector.getElem_map calmPort, Vector.set_getElem_self]
  exact congrArg (fun v => { calm s with ports := v }) h

theorem calm_updHost {h : HostId} {f : HostPort → HostPort} (s : State) (hf : ∀ x, calmHost (f x) = calmHost x := by intro _; rfl) :
    calm (updHost h f s) = calm s := by
  cases h with
  | a => exact congrArg (fun v => { calm s with hostA := v }) (hf s.hostA)
  | b => exact congrArg (fun v => { calm s with hostB := v }) (hf s.hostB)

theorem calmDie_queue {x y : Die} (howner : y.owner = x.owner) (hq : y.queues.map calmQueue = x.queues.map calmQueue) : calmDie y = calmDie x := by
  simp only [calmDie, howner, hq]

/-- A change of a queue beside its control page. -/
theorem calm_updQueue {d : DieIx} {q : QueueIx} {f : Queue → Queue} {s : State} (hf : calmQueue (f (queueOf s d q)) = calmQueue (queueOf s d q)) :
    calm (updQueue d q f s) = calm s := by
  have h : (updQueue d q f s).dies.map calmDie = s.dies.map calmDie := by
    have hdie : calmDie { dieOf s d with queues := (dieOf s d).queues.set q.val (f (queueOf s d q)) } = calmDie (dieOf s d) := by
      refine calmDie_queue rfl ?_
      rw [Vector.map_set, hf, queueOf, ← Vector.getElem_map calmQueue, Vector.set_getElem_self]
    change (s.dies.set d.val { dieOf s d with queues := (dieOf s d).queues.set q.val (f (queueOf s d q)) }).map calmDie = _
    rw [Vector.map_set, hdie, dieOf, ← Vector.getElem_map calmDie, Vector.set_getElem_self]
  exact congrArg (fun v => { calm s with dies := v }) h

theorem calm_ite {c : Prop} [Decidable c] {s t u : State} (ht : calm t = calm s) (hu : calm u = calm s) : calm (if c then t else u) = calm s := by
  split
  · exact ht
  · exact hu

/-! #### Messages, events and records -/

theorem calm_emit (o : Output) (s : State) : calm (emit o s) = calm s := rfl

theorem calm_count (d : DieIx) (i n : Nat) (s : State) : calm (count d i n s) = calm s := calm_updDie s

theorem calm_msix (h : HostId) (fn vec : Nat) (s : State) : calm (msix h fn vec s) = calm s :=
  calm_ite rfl (calm_updHost s)

theorem calm_discard (n : PortIx) (r : Nat) (s : State) : calm (discard n r s) = calm s := calm_updPort s

theorem calm_sendMsg (k : MsgKind) (d : DieIx) (part : Nat) (dst : DieIx) (o : Sent → Output) (s : State) :
    calm (sendMsg k d part dst o s) = calm s := by
  unfold sendMsg
  split
  · rfl
  · split
    · rfl
    · rfl
    · exact calm_discard _ _ s

theorem calm_sendTwin (rtype : Nat) (p : PartIx) (tag : Nat) (s : State) : calm (sendTwin rtype p tag s) = calm s := by
  unfold sendTwin sendTwinGen sendTwinMsg
  dsimp only
  split <;> rfl

theorem calm_signal (sv : Nat) (part : Option PartIx) (entry : List Byte) (s : State) : calm (signal sv part entry s) = calm s := by
  unfold signal
  extract_lets m s₁ s₂ alert s₃
  have h₁ : calm s₁ = calm s := calm_ite ((calm_msix ..).trans (calm_msix ..)) rfl
  have h₂ : calm s₂ = calm s₁ := by
    dsimp only [s₂]
    split
    · exact calm_ite (calm_msix ..) rfl
    · rfl
  have h₃ : calm s₃ = calm s₂ := by
    dsimp only [s₃]
    split <;> rfl
  refine Eq.trans ?_ (h₃.trans (h₂.trans h₁))
  split <;> rfl

theorem calm_logEvent (e : Ev) (a : EvArgs) (s : State) : calm (logEvent e a s) = calm s := by
  unfold logEvent
  extract_lets seq
  split
  rename_i tm s' h
  obtain ⟨rfl, rfl⟩ := Prod.ext_iff.1 h
  extract_lets entry dropped src s₁ s₂ s₃
  have h₁ : calm s₁ = calm s := calm_upd ..
  have h₂ : calm s₂ = calm s₁ := by
    dsimp only [s₂]
    split
    · exact calm_updPart s₁ fun x => by simp only [quenchMarks]
    · rfl
  exact (calm_signal ..).trans ((calm_count ..).trans (h₂.trans h₁))

theorem calm_logJob (e : Ev) (j : Job) (a : Site) (unit detail : Nat) (skip : Bool) (s : State) : calm (logJob e j a unit detail skip s) = calm s :=
  calm_logEvent e (evJob j a unit detail skip) s

/-- A record of an enabled queue moves its CR_TAIL alone. -/
theorem calm_deliverCpl {d : DieIx} {q : QueueIx} {s : State} (hon : (queueOf s d q).enabled = true) (p : PartIx) (c : CplRec) :
    calm (deliverCpl d q p c s) = calm s := by
  have htail : ∀ n : Nat, calm (updQueue d q (fun x => { x with crTail := n }) s) = calm s := fun n => calm_updQueue (by simp [calmQueue, hon])
  simp only [deliverCpl]
  split
  · exact (calm_sendMsg ..).trans (htail _)
  · split
    · exact calm_ite ((calm_msix ..).trans (htail _)) (htail _)
    · rfl

theorem calm_putCpl (d : DieIx) (q : QueueIx) (c : Cpl) (s : State) : calm (putCpl d q c s) = calm s := by
  simp only [putCpl]
  split
  · rfl
  · split
    · rfl
    · rename_i hon
      split
      · exact calm_updQueue rfl
      · exact calm_deliverCpl (by simpa using hon) _ _

theorem calm_withholdPacket (d : DieIx) (q : QueueIx) (e : Ev) (b : List Byte) (s : State) : calm (withholdPacket d q e b s) = calm s :=
  calm_ite rfl (calm_putCpl ..)

/-! #### Poison, and operations that are aborted -/

theorem calm_poisonHandle (d : DieIx) (h : Nat) (e : Ev) (s : State) : calm (poisonHandle d h e s) = calm s :=
  calm_ite (calm_updDie s) rfl

theorem calm_poisonStore (d : DieIx) (h : Nat) (e : Ev) (s : State) : calm (poisonStore d h e s) = calm s :=
  calm_ite (calm_updDie s) rfl

theorem calm_poisonDest (e : Ev) (t : Dest) (s : State) : calm (poisonDest e t s) = calm s := by
  cases t with
  | handle d h => exact calm_poisonHandle _ _ _ _
  | store d h => exact calm_poisonStore _ _ _ _
  | ring d r => exact calm_ite (calm_poisonHandle ..) rfl
  | slot d k => exact calm_updDie s
  | tile d g z => exact calm_updDie s
  | cache d g l n => exact calm_updDie s
  | scalar d sc => exact calm_updDie s
  | palette d k => exact calm_updDie s
  | _ => rfl

theorem calm_poisonAll (e : Ev) (ds : List Dest) (s : State) : calm (poisonAll e ds s) = calm s :=
  calm_foldl (fun s t => calm_poisonDest e t s) ds s

theorem calm_zeroHandle (d : DieIx) (h : Nat) (s : State) : calm (zeroHandle d h s) = calm s := calm_updDie s

theorem calm_spoilDest (ys : List Op) (t : Dest) (s : State) : calm (spoilDest ys t s) = calm s := by
  cases t with
  | handle d h => exact calm_ite (calm_zeroHandle ..) ((calm_upd ..).trans (calm_updDie s))
  | store d h => exact (calm_upd ..).trans ((calm_updDie _).trans (calm_updDie s))
  | slot d k => exact calm_ite rfl (calm_updDie _)
  | region d m r n => exact (calm_upd ..).trans (calm_updDie s)
  | tile d g z => exact (calm_upd ..).trans (calm_updDie s)
  | cache d g l n => exact (calm_upd ..).trans (calm_updDie s)
  | scalar d sc => exact (calm_upd ..).trans (calm_updDie s)
  | _ => rfl

theorem calm_spoilSlots (d : DieIx) (o : Op) (s : State) : calm (spoilSlots d o s) = calm s :=
  calm_foldl (fun s _ => (calm_upd ..).trans (calm_updDie s)) _ s

theorem calm_resetRing (d : DieIx) (e : Ev) (r : Nat) (s : State) : calm (resetRing d e r s) = calm s :=
  (calm_poisonHandle ..).trans ((calm_updDie _).trans (calm_updDie s))

theorem calm_dropClaims (d : DieIx) (e : Ev) (o : Op) (s : State) : calm (dropClaims d e o s) = calm s :=
  calm_foldl (fun s r => calm_resetRing d e r s) _ s

theorem calm_setGroup (d : DieIx) (id g : Nat) (s : State) : calm (setGroup d id g s) = calm s := calm_updDie s

theorem calm_sendGroup (h : HostId) (d : DieIx) (o : Op) (s : State) : calm (sendGroup h d o s) = calm s := by
  unfold sendGroup
  split
  · exact (calm_sendMsg ..).trans (calm_setGroup ..)
  · exact calm_ite ((calm_setGroup ..).trans (calm_updHost _)) rfl
  · rfl

theorem calm_sendWaiting (h : HostId) (s : State) : calm (sendWaiting h s) = calm s := by
  unfold sendWaiting
  split
  · exact calm_sendGroup ..
  · unfold sendBench
    split
    · rfl
    · exact calm_ite (calm_updHost s) (calm_ite rfl (calm_updHost _))

theorem calm_dropOp (d : DieIx) (id : Nat) (s : State) : calm (dropOp d id s) = calm s := by
  have hwait : ∀ h (c : Bool) (t : State), calm (if c then sendWaiting h t else t) = calm t := fun h _ t => calm_ite (calm_sendWaiting h t) rfl
  have hops : calm (updDie d (fun x => { x with ops := x.ops.filter (·.id != id), scoreboard := x.scoreboard.filter (·.op != id) }) s) = calm s :=
    calm_updDie s
  exact (hwait .b _ _).trans ((hwait .a _ _).trans hops)

theorem calm_abortOp (d : DieIx) (e : Ev) (o : Op) (s : State) : calm (abortOp d e o s) = calm s :=
  (calm_dropOp ..).trans ((calm_dropClaims ..).trans ((calm_poisonAll ..).trans ((calm_spoilSlots ..).trans
    (calm_foldl (fun s t => calm_spoilDest _ t s) _ s))))

theorem calm_abortBn (id : Nat) (s : State) : calm (abortBn id s) = calm s := by
  unfold abortBn
  dsimp only
  split
  · split
    · split <;> rfl
    · rfl
  · rfl

/-! #### Jobs, packets, imports and secrets -/

theorem calm_zeroJobSecrets (j : Job) (s : State) : calm (zeroJobSecrets j s) = calm s :=
  calm_foldl (fun _ _ => calm_ite (calm_zeroHandle ..) rfl) _ s

theorem calm_removeJob (id : Nat) (s : State) : calm (removeJob id s) = calm s := by
  refine calm_mapDies (f := fun x => { x with queues := x.queues.map fun q =>
    { q with jobs := q.jobs.filter (· != id), passed := q.passed && q.jobs.head? != some id, line := q.line.filter (· != .role id)
             hold := q.hold.filter fun h => match h.1 with | .job i => i != id | _ => true } })
    { s with jobs := s.jobs.filter fun j => j.id != id } fun x => calmDie_queue rfl ?_
  rw [Vector.map_map]
  exact Vector.map_congr_left fun _ _ => rfl

theorem calm_zeroJobBufs (id : Nat) (s : State) : calm (zeroJobBufs id s) = calm s := calm_mapDies s

theorem calm_finishEvictions (p : PartIx) (s : State) : calm (finishEvictions p s) = calm s := calm_updPart s

theorem calm_finishJob (id elapsed : Nat) (s : State) : calm (finishJob id elapsed s) = calm s := by
  unfold finishJob
  split
  · rfl
  · extract_lets late s₁ j' c hm rec_ s₂
    have h₁ : calm s₁ = calm s := calm_ite (calm_logJob ..) rfl
    have h₂ : calm s₂ = calm s₁ := (calm_removeJob ..).trans (calm_zeroJobBufs ..)
    exact (calm_finishEvictions ..).trans ((calm_putCpl ..).trans (h₂.trans h₁))

theorem calm_quenchJob (id : Nat) (e : Ev) (cancel : Bool) (s : State) : calm (quenchJob id e cancel s) = calm s := by
  unfold quenchJob
  split
  · rfl
  · extract_lets s₁ s₂ s₃ s₄ s₅ s₆
    have h₂ : calm s₂ = calm s := rfl
    have h₃ : calm s₃ = calm s₂ := calm_foldl (fun s d => calm_foldl (fun s o => calm_abortOp d e o s) _ s) _ s₂
    have h₄ : calm s₄ = calm s₃ := calm_abortBn ..
    have h₅ : calm s₅ = calm s₄ := calm_poisonAll ..
    have h₆ : calm s₆ = calm s₅ := calm_zeroJobSecrets ..
    exact (calm_finishJob ..).trans (h₆.trans (h₅.trans (h₄.trans (h₃.trans h₂))))

theorem calm_dropPatch (d : DieIx) (h : Option Hold) (s : State) : calm (dropPatch d h s) = calm s := by
  unfold dropPatch
  split
  · exact calm_updPart s
  · rfl

theorem calm_drainQueue (d : DieIx) (q : QueueIx) (e : Ev) (s : State) : calm (drainQueue d q e s) = calm s := by
  unfold drainQueue
  refine (calm_foldl (fun s it => ?_) _ _).trans ((calm_updQueue rfl).trans (calm_dropPatch ..))
  cases it with
  | packet => exact calm_withholdPacket ..
  | role => rfl

theorem calm_dropImport (p : PartIx) (im : Import) (s : State) : calm (dropImport p im s) = calm s :=
  (calm_updPart _).trans ((calm_updPart _).trans (calm_ite (calm_sendTwin ..) rfl))

theorem calm_zeroPartSecrets (p : PartIx) (s : State) : calm (zeroPartSecrets p s) = calm s := by
  refine (calm_updPart _).trans ((calm_foldl (fun s d => ?_) _ _).trans (calm_foldl (fun s d => calm_foldl (fun s e => ?_) _ s) _ s))
  · exact calm_updDie s
  · exact calm_zeroHandle ..

/-! ### A partition that is quenched, or reset -/

/-- A state with the marks of a quenched partition (R460). -/
def quenchMarked (p : PartIx) (e : Ev) (restart : Bool) (s : State) : State :=
  let old := (partOfIx s p).quenching
  (ownedDies s p).foldl (fun s d => updDie d (fun x => { x with queues := x.queues.map fun q => { q with quenched := true } }) s)
    (updPart p (fun x => { x with quenching := some ((old.map (·.1)).getD e, restart || (old.map (·.2)).getD false)
                                  quenchEvent := e.toNat, quenchCount := x.quenchCount + 1 }) s)

/-- The quench of a partition marks it, and leaves the rest of what `calm` holds. -/
theorem calm_quenchPartition (p : PartIx) (e : Ev) (restart : Bool) (s : State) :
    calm (quenchPartition p e restart s) = calm (quenchMarked p e restart s) := by
  unfold quenchPartition
  extract_lets ds old s₁ s₂ s₃ s₄ s₅ s₆ s₇
  have h₂ : s₂ = quenchMarked p e restart s := rfl
  have h₃ : calm s₃ = calm s₂ := calm_foldl (fun _ _ => calm_quenchJob ..) _ _
  have h₄ : calm s₄ = calm s₃ := rfl
  have h₅ : calm s₅ = calm s₄ := calm_foldl (fun s d => calm_foldl (fun s q => calm_drainQueue d q e s) _ s) _ _
  have h₆ : calm s₆ = calm s₅ := calm_foldl (fun s im => calm_dropImport p im s) _ _
  have h₇ : calm s₇ = calm s₆ := calm_zeroPartSecrets p s₆
  have h₈ : calm (ds.foldl (fun s d => updDie d (fun x => { x with flags := [] }) s) s₇) = calm s₇ := calm_foldl (fun s _ => calm_updDie s) _ _
  rw [← h₂]
  exact (calm_finishEvictions ..).trans (h₈.trans (h₇.trans (h₆.trans (h₅.trans (h₄.trans h₃)))))

/-- What equal `calm` states agree in. -/
theorem calm_eq {s t : State} (h : calm t = calm s) : t.alarm = s.alarm ∧ (∀ p, quenchMarks (partOfIx t p) = quenchMarks (partOfIx s p)) ∧
    (∀ d, (dieOf t d).owner = (dieOf s d).owner) ∧ (∀ d q, calmQueue (queueOf t d q) = calmQueue (queueOf s d q)) ∧
    calmFabric t.fabric = calmFabric s.fabric ∧ (∀ n, calmPort (portOf t n) = calmPort (portOf s n)) ∧
    (∀ k, calmHost (hostOf t k) = calmHost (hostOf s k)) ∧ calmTwin t.twin = calmTwin s.twin := by
  have same {α : Type} (f : State → α) : f (calm t) = f (calm s) := congrArg f h
  have hparts : t.parts.map quenchMarks = s.parts.map quenchMarks := same State.parts
  have hdies : t.dies.map calmDie = s.dies.map calmDie := same State.dies
  have hports : t.ports.map calmPort = s.ports.map calmPort := same State.ports
  have hdie : ∀ d, calmDie (dieOf t d) = calmDie (dieOf s d) := fun d => by simpa [dieOf] using congrArg (fun v => v[d.val]) hdies
  have dieSame {α : Type} (f : Die → α) (d : DieIx) : f (calmDie (dieOf t d)) = f (calmDie (dieOf s d)) := congrArg f (hdie d)
  refine ⟨same State.alarm, fun p => by simpa [partOfIx] using congrArg (fun v => v[p.val]) hparts, dieSame Die.owner, fun d q => ?_,
    same State.fabric, fun n => by simpa [portOf] using congrArg (fun v => v[n.val]) hports, fun k => ?_, same State.twin⟩
  · have hq : (dieOf t d).queues.map calmQueue = (dieOf s d).queues.map calmQueue := dieSame Die.queues d
    simpa [queueOf] using congrArg (fun v => v[q.val]) hq
  · cases k with
    | a => exact same State.hostA
    | b => exact same State.hostB

/-- A change of every queue of some dies. -/
theorem mapQueues_spec {ds : List DieIx} (hds : ds.Nodup) (f : Queue → Queue) (s : State) :
    let t := ds.foldl (fun s d => updDie d (fun x => { x with queues := x.queues.map f }) s) s
    (∀ d q, queueOf t d q = if d ∈ ds then f (queueOf s d q) else queueOf s d q) ∧ (∀ d, (dieOf t d).owner = (dieOf s d).owner) ∧
    t.parts = s.parts ∧ t.alarm = s.alarm ∧ t.fabric = s.fabric ∧ t.ports = s.ports ∧ t.hostA = s.hostA ∧ t.hostB = s.hostB ∧ t.twin = s.twin := by
  intro t
  have hdie : ∀ d, dieOf t d = if d ∈ ds then { dieOf s d with queues := (dieOf s d).queues.map f } else dieOf s d :=
    dieOf_foldl_updDie (fun _ x => { x with queues := x.queues.map f }) hds s
  have hrest : { t with dies := s.dies } = s := by
    clear hdie hds
    simp only [t]
    induction ds generalizing s with
    | nil => rfl
    | cons d ds ih => exact (congrArg (fun u : State => { u with dies := s.dies }) (ih (updDie d _ s))).trans rfl
  have same {α : Type} (g : State → α) : g { t with dies := s.dies } = g s := congrArg g hrest
  refine ⟨fun d q => ?_, fun d => ?_, same State.parts, same State.alarm, same State.fabric, same State.ports, same State.hostA, same State.hostB,
    same State.twin⟩
  · rw [queueOf, hdie]
    split
    · simp [queueOf]
    · rfl
  · rw [hdie]
    split <;> rfl

/-- The state of a part's control pages after a reset (R385). -/
def shutQueue : Queue := { Queue.zero with quenched := true }

/-- Between `s` and `t` the partitions `ps` were reset: quenched, their queues to restart, their control pages at their reset values; the other
partitions and their dies are left (R385). -/
structure Resets (ps : List PartIx) (s t : State) : Prop where
  alarm : t.alarm = s.alarm
  fabric : calmFabric t.fabric = calmFabric s.fabric
  ports : ∀ n, calmPort (portOf t n) = calmPort (portOf s n)
  hosts : ∀ k, calmHost (hostOf t k) = calmHost (hostOf s k)
  twin : calmTwin t.twin = calmTwin s.twin
  owners : ∀ d, (dieOf t d).owner = (dieOf s d).owner
  shut : ∀ d q, ∀ p ∈ ps, (dieOf s d).owner = some p → calmQueue (queueOf t d q) = shutQueue
  kept : ∀ d q, (∀ p ∈ ps, (dieOf s d).owner ≠ some p) → calmQueue (queueOf t d q) = calmQueue (queueOf s d q)
  marked : ∀ p ∈ ps, (partOfIx t p).quenchEvent = 0 ∧ (partOfIx t p).quenchCount = (partOfIx s p).quenchCount + 1 ∧
    ∃ e, (partOfIx t p).quenching = some (e, true)
  others : ∀ p ∉ ps, quenchMarks (partOfIx t p) = quenchMarks (partOfIx s p)

theorem quenchMarked_spec (p : PartIx) (e : Ev) (restart : Bool) (s : State) :
    let t := quenchMarked p e restart s
    (∀ d q, queueOf t d q = if (dieOf s d).owner = some p then { queueOf s d q with quenched := true } else queueOf s d q) ∧
    (∀ d, (dieOf t d).owner = (dieOf s d).owner) ∧ (∀ k, k ≠ p → partOfIx t k = partOfIx s k) ∧
    partOfIx t p = { partOfIx s p with
      quenching := some ((((partOfIx s p).quenching.map (·.1)).getD e), restart || ((partOfIx s p).quenching.map (·.2)).getD false)
      quenchEvent := e.toNat, quenchCount := (partOfIx s p).quenchCount + 1 } ∧
    t.alarm = s.alarm ∧ t.fabric = s.fabric ∧ t.ports = s.ports ∧ t.hostA = s.hostA ∧ t.hostB = s.hostB ∧ t.twin = s.twin := by
  intro t
  obtain ⟨hq, howner, hparts, halarm, hfabric, hports, ha, hb, htwin⟩ := mapQueues_spec (ownedDies_nodup s p) (fun q => { q with quenched := true })
    (updPart p (fun x => { x with quenching := some ((((partOfIx s p).quenching.map (·.1)).getD e), restart || ((partOfIx s p).quenching.map (·.2)).getD false)
                                  quenchEvent := e.toNat, quenchCount := x.quenchCount + 1 }) s)
  refine ⟨fun d q => ?_, howner, fun k hk => ?_, ?_, halarm, hfabric, hports, ha, hb, htwin⟩
  · rw [show queueOf t d q = _ from hq d q]
    simp only [mem_ownedDies]
    rfl
  · exact (congrArg (fun v : Vector Partition 16 => v[k.val]) hparts).trans (partOfIx_updPart_ne _ _ hk)
  · exact (congrArg (fun v : Vector Partition 16 => v[p.val]) hparts).trans (partOfIx_updPart_self _ _ _)

theorem calmQueue_resetPage {x y : Queue} (h : calmQueue x = calmQueue y) (hy : y.quenched = true) : calmQueue (resetPage x) = shutQueue := by
  have hmark : (calmQueue x).quenched = (calmQueue y).quenched := by rw [h]
  have hquenched : x.quenched = y.quenched := hmark
  simp [calmQueue, resetPage, shutQueue, hquenched, hy, Queue.zero]

theorem resetPartition_resets (p : PartIx) (s : State) : Resets [p] s (resetPartition p s) := by
  have hcalm := calm_eq (calm_quenchPartition p 0 true s)
  obtain ⟨mqueue, mowner, mothers, mself, malarm, mfabric, mports, ma, mb, mtwin⟩ := quenchMarked_spec p 0 true s
  generalize quenchMarked p 0 true s = m at hcalm mqueue mowner mothers mself malarm mfabric mports ma mb mtwin
  have hreset := mapQueues_spec (ownedDies_nodup s p) resetPage (quenchPartition p 0 true s)
  rw [show (ownedDies s p).foldl (fun s d => updDie d (fun x => { x with queues := x.queues.map resetPage }) s) (quenchPartition p 0 true s) =
    resetPartition p s from rfl] at hreset
  generalize quenchPartition p 0 true s = u at hcalm hreset
  obtain ⟨calarm, cparts, cowner, cqueue, cfabric, cports, chosts, ctwin⟩ := hcalm
  obtain ⟨rqueue, rowner, rparts, ralarm, rfabric, rports, ra, rb, rtwin⟩ := hreset
  generalize resetPartition p s = t at rqueue rowner rparts ralarm rfabric rports ra rb rtwin
  have hpart : ∀ k, quenchMarks (partOfIx t k) = quenchMarks (partOfIx m k) := fun k => by
    rw [← cparts k, partOfIx, rparts]; rfl
  refine ⟨ralarm.trans (calarm.trans malarm), ?_, fun n => ?_, fun k => ?_, by rw [rtwin, ctwin, mtwin], fun d => (rowner d).trans ((cowner d).trans (mowner d)), fun d q k hk hown => ?_,
    fun d q hown => ?_, fun k hk => ?_, fun k hk => ?_⟩
  · rw [rfabric, cfabric, mfabric]
  · rw [portOf, rports, show calmPort u.ports[n.val] = calmPort (portOf u n) from rfl, cports n, portOf, mports]; rfl
  · have hru : hostOf t k = hostOf u k := by cases k <;> assumption
    have hms : hostOf m k = hostOf s k := by cases k <;> assumption
    rw [hru, chosts k, hms]
  · obtain rfl := List.mem_singleton.1 hk
    rw [rqueue d q, if_pos (mem_ownedDies.2 hown)]
    exact calmQueue_resetPage (cqueue d q) (by rw [mqueue d q, if_pos hown])
  · have hne := hown p (List.mem_singleton_self p)
    rw [rqueue d q, if_neg (mt mem_ownedDies.1 hne), cqueue d q, mqueue d q, if_neg hne]
  · obtain rfl := List.mem_singleton.1 hk
    obtain ⟨-, hquenching, hevent, hcount⟩ := quenchMarks_eq_iff.1 (hpart k)
    rw [hquenching, hevent, hcount, mself]
    exact ⟨rfl, rfl, _, rfl⟩
  · rw [hpart k, mothers k (by simpa using hk)]

theorem Resets.refl (s : State) : Resets [] s s :=
  ⟨rfl, rfl, fun _ => rfl, fun _ => rfl, rfl, fun _ => rfl, nofun, fun _ _ _ => rfl, nofun, fun _ _ => rfl⟩

/-- Resets of different partitions, one after the other. -/
theorem Resets.append {ps qs : List PartIx} {s t u : State} (h : Resets ps s t) (k : Resets qs t u) (hd : ∀ p ∈ ps, p ∉ qs) : Resets (ps ++ qs) s u where
  alarm := k.alarm.trans h.alarm
  fabric := k.fabric.trans h.fabric
  ports n := (k.ports n).trans (h.ports n)
  hosts i := (k.hosts i).trans (h.hosts i)
  twin := k.twin.trans h.twin
  owners d := (k.owners d).trans (h.owners d)
  shut d q p hp hown := by
    by_cases hq : p ∈ qs
    · exact k.shut d q p hq ((h.owners d).trans hown)
    · have hps := (List.mem_append.1 hp).resolve_right hq
      refine (k.kept d q fun r hr hr' => hq ?_).trans (h.shut d q p hps hown)
      rw [h.owners d, hown] at hr'
      exact Option.some.inj hr' ▸ hr
  kept d q hne := (k.kept d q fun p hp => by rw [h.owners d]; exact hne p (List.mem_append_right _ hp)).trans
    (h.kept d q fun p hp => hne p (List.mem_append_left _ hp))
  marked p hp := by
    by_cases hq : p ∈ ps
    · obtain ⟨-, hquenching, hevent, hcount⟩ := quenchMarks_eq_iff.1 (k.others p (hd p hq))
      rw [hquenching, hevent, hcount]
      exact h.marked p hq
    · obtain ⟨-, -, -, hcount⟩ := quenchMarks_eq_iff.1 (h.others p hq)
      rw [← hcount]
      exact k.marked p ((List.mem_append.1 hp).resolve_left hq)
  others p hp := (k.others p fun h => hp (List.mem_append_right _ h)).trans (h.others p fun h => hp (List.mem_append_left _ h))

theorem resetParts_resets {ps : List PartIx} (hps : ps.Nodup) (s : State) : Resets ps s (resetParts ps s) := by
  induction ps generalizing s with
  | nil => exact .refl s
  | cons p ps ih =>
    obtain ⟨hp, hps⟩ := List.nodup_cons.1 hps
    exact (resetPartition_resets p s).append (ih hps _) (by simpa using hp)

end Sys2Proof.Machine

namespace Sys2Proof.Machine

/-! ### Ways through the fabric, and what a reset leaves of them -/

/-- The way to a part depends on routes, port states and the twin's port alone. -/
theorem wayTo_congr {s t : State} (hfabric : calmFabric t.fabric = calmFabric s.fabric) (hports : ∀ n, calmPort (portOf t n) = calmPort (portOf s n))
    (htwin : calmTwin t.twin = calmTwin s.twin) (d : DieIx) (part : Nat) (dst : DieIx) : wayTo t d part dst = wayTo s d part dst := by
  have hid : (calmFabric t.fabric).partId = (calmFabric s.fabric).partId := by rw [hfabric]
  have hvalid : (calmFabric t.fabric).valid = (calmFabric s.fabric).valid := by rw [hfabric]
  have hroutes : (calmFabric t.fabric).routes = (calmFabric s.fabric).routes := by rw [hfabric]
  have hport : (calmTwin t.twin).port = (calmTwin s.twin).port := by rw [htwin]
  have hroute : routeOf t part d dst = routeOf s part d dst := by
    simp only [calmFabric, calmTwin] at hroutes hport
    simp only [routeOf, hroutes, hport]
  have hstate : ∀ n, (portOf t n).state = (portOf s n).state := fun n => by
    have h : (calmPort (portOf t n)).state = (calmPort (portOf s n)).state := by rw [hports n]
    exact h
  simp only [calmFabric] at hid hvalid
  simp only [wayTo, hid, hvalid, hroute, hstate]

theorem msgHead_congr {s t : State} (hfabric : calmFabric t.fabric = calmFabric s.fabric) (k : MsgKind) (d : DieIx) (part : Nat) (dst : DieIx) :
    msgHead t k d part dst = msgHead s k d part dst := by
  have hid : (calmFabric t.fabric).partId = (calmFabric s.fabric).partId := by rw [hfabric]
  have hepoch : (calmFabric t.fabric).epoch = (calmFabric s.fabric).epoch := by rw [hfabric]
  simp only [calmFabric] at hid hepoch
  simp only [msgHead, hid, hepoch]

/-- A message that has a way out of a port is sent there. -/
theorem sendMsg_port {s : State} {d : DieIx} {part : Nat} {dst : DieIx} {n : PortIx} (hon : s.alarm.device = false) (hway : wayTo s d part dst = .port n)
    (k : MsgKind) (o : Sent → Output) : sendMsg k d part dst o s = emit (o { port := some n, vc := k.vc, head := msgHead s k d part dst }) s := by
  simp [sendMsg, hon, hway]

/-- What has been sent stays sent. -/
theorem mem_out_sendMsg {s : State} {x : Output} (hx : x ∈ s.out) (k : MsgKind) (d : DieIx) (part : Nat) (dst : DieIx) (o : Sent → Output) :
    x ∈ (sendMsg k d part dst o s).out := by
  unfold sendMsg
  split
  · exact hx
  · split
    · exact List.mem_append_left _ hx
    · exact List.mem_append_left _ hx
    · exact hx

/-! ### Members are told of a reset (R385) -/

/-- The members that `l` lists are told. -/
def tellMembers (port : HostId) (l : List MemberReg) (s : State) : State :=
  l.foldl (fun s r => sendMsg .bench (hostDie port) r.part 0 (fun v => .forwardedReset v r) s) s

theorem calm_tellMembers (port : HostId) (l : List MemberReg) (s : State) : calm (tellMembers port l s) = calm s :=
  calm_foldl (fun _ _ => calm_sendMsg ..) l s

theorem mem_out_tellMembers {s : State} {x : Output} (hx : x ∈ s.out) (port : HostId) (l : List MemberReg) : x ∈ (tellMembers port l s).out := by
  induction l generalizing s with
  | nil => exact hx
  | cons r l ih => exact ih (mem_out_sendMsg hx ..)

theorem tellMembers_told {port : HostId} {l : List MemberReg} {r : MemberReg} (hr : r ∈ l) {s : State} {n : PortIx} (hon : s.alarm.device = false)
    (hway : wayTo s (hostDie port) r.part 0 = .port n) :
    Output.forwardedReset { port := some n, vc := 0, head := msgHead s .bench (hostDie port) r.part 0 } r ∈ (tellMembers port l s).out := by
  induction l generalizing s with
  | nil => simp at hr
  | cons y l ih =>
    rcases List.mem_cons.1 hr with rfl | hr
    · refine mem_out_tellMembers ?_ port l
      dsimp only
      rw [sendMsg_port hon hway]
      exact List.mem_append_right _ (List.mem_singleton_self _)
    · obtain ⟨halarm, -, -, -, hfabric, hports, -, htwin⟩ :=
        calm_eq (calm_sendMsg .bench (hostDie port) y.part 0 (fun v => .forwardedReset v y) s)
      rw [← msgHead_congr hfabric]
      exact ih hr (by rw [halarm]; exact hon) ((wayTo_congr hfabric hports htwin ..).trans hway)

/-! ### The reset of a port or a function -/

/-- The partitions that a reset reaches. -/
def Hit (s : State) (h : HostId) (g : Option Nat) (f : Nat → Prop) (p : PartIx) : Prop :=
  (partOfIx s p).state ≠ .free ∧ (partOfIx s p).ownerPort = h ∧ f (partOfIx s p).ownerFn ∧
    match g with | none => (partOfIx s p).memberSlot = 0 | some n => (partOfIx s p).memberSlot ≠ 0 ∧ (partOfIx s p).ownerPart = n

theorem mem_ownedBy {s : State} {h : HostId} {g : Option Nat} {f : Nat → Bool} {p : PartIx} :
    p ∈ ownedBy s g (fun k fn => k == h && f fn) ↔ Hit s h g (fun n => f n = true) p := by
  cases g <;> simp [ownedBy, Hit, allParts] <;> tauto

theorem ownedBy_nodup (s : State) (g : Option Nat) (f : HostId → Nat → Bool) : (ownedBy s g f).Nodup := (List.nodup_finRange 16).filter _

/-- The partitions that a reset reaches are quenched, their control pages at their reset values; the others are left. -/
structure ResetHit (s : State) (h : HostId) (g : Option Nat) (f : Nat → Prop) (t : State) : Prop where
  marked : ∀ p, Hit s h g f p → (partOfIx t p).quenchEvent = 0 ∧ (partOfIx t p).quenchCount = (partOfIx s p).quenchCount + 1 ∧
    ∃ e, (partOfIx t p).quenching = some (e, true)
  shut : ∀ p, Hit s h g f p → ∀ d q, (dieOf s d).owner = some p → calmQueue (queueOf t d q) = shutQueue
  others : ∀ p, ¬Hit s h g f p → quenchMarks (partOfIx t p) = quenchMarks (partOfIx s p)

theorem Resets.hit {s t : State} {h : HostId} {g : Option Nat} {f : Nat → Bool} (hr : Resets (ownedBy s g fun k fn => k == h && f fn) s t) :
    ResetHit s h g (fun n => f n = true) t where
  marked p hp := hr.marked p (mem_ownedBy.2 hp)
  shut p hp d q hown := hr.shut d q p (mem_ownedBy.2 hp) hown
  others p hp := hr.others p (mt mem_ownedBy.1 hp)

/-- A change before the reset that leaves partitions and dies, and one after it that leaves what `calm` holds of them. -/
theorem ResetHit.congr {s s' t t' : State} {h : HostId} {g : Option Nat} {f : Nat → Prop} (hr : ResetHit s' h g f t') (hparts : s'.parts = s.parts)
    (hdies : s'.dies = s.dies) (hmarks : ∀ p, quenchMarks (partOfIx t p) = quenchMarks (partOfIx t' p))
    (hqueues : ∀ d q, calmQueue (queueOf t d q) = calmQueue (queueOf t' d q)) : ResetHit s h g f t := by
  have hpart : ∀ p, partOfIx s p = partOfIx s' p := fun p => by rw [partOfIx, ← hparts]; rfl
  have hhit : ∀ p, Hit s h g f p ↔ Hit s' h g f p := fun p => by unfold Hit; rw [hpart]
  have hdie : ∀ d, dieOf s d = dieOf s' d := fun d => by rw [dieOf, ← hdies]; rfl
  refine ⟨fun p hp => ?_, fun p hp d q hown => (hqueues d q).trans (hr.shut p ((hhit p).1 hp) d q (hdie d ▸ hown)), fun p hp => ?_⟩
  · obtain ⟨-, hquenching, hevent, hcount⟩ := quenchMarks_eq_iff.1 (hmarks p)
    rw [hquenching, hevent, hcount, hpart]
    exact hr.marked p ((hhit p).1 hp)
  · rw [hmarks, hpart]
    exact hr.others p (mt (hhit p).2 hp)

/-- The same reset, its functions picked otherwise. -/
theorem ResetHit.of_iff {s t : State} {h : HostId} {g : Option Nat} {f f' : Nat → Prop} (hr : ResetHit s h g f t) (hf : ∀ n, f n ↔ f' n) :
    ResetHit s h g f' t := (funext fun n => propext (hf n) : f = f') ▸ hr

theorem eq_of_calmQueue {x : Queue} (h : calmQueue x = shutQueue) : x.quenched = true ∧ x.enabled = false ∧ x.crBase = 0 ∧ x.crLog2 = 0 ∧
    x.crHead = 0 ∧ x.crTail = 0 ∧ x.vector = 0 ∧ x.consumed = 0 := by
  simp only [calmQueue, shutQueue, Queue.zero, Queue.mk.injEq, true_and, and_true] at h
  obtain ⟨hbase, hlog, hon, hvector, hhead, htail, hconsumed, hquenched⟩ := h
  exact ⟨hquenched, hon, hbase, hlog, hhead, by simpa [hon] using htail, hvector, hconsumed⟩

theorem ResetHit.spec {s t : State} {h : HostId} {g : Option Nat} {f : Nat → Prop} (hr : ResetHit s h g f t) :
    (∀ p, Hit s h g f p → (partOfIx t p).quenchEvent = 0 ∧ (partOfIx t p).quenchCount = (partOfIx s p).quenchCount + 1 ∧
      (∃ e, (partOfIx t p).quenching = some (e, true)) ∧
      ∀ d q, (dieOf s d).owner = some p → (queueOf t d q).quenched = true ∧ (queueOf t d q).enabled = false ∧
        (queueOf t d q).crBase = 0 ∧ (queueOf t d q).crLog2 = 0 ∧ (queueOf t d q).crHead = 0 ∧ (queueOf t d q).crTail = 0 ∧
        (queueOf t d q).vector = 0 ∧ (queueOf t d q).consumed = 0) ∧
    ∀ p, ¬Hit s h g f p → (partOfIx t p).quenchCount = (partOfIx s p).quenchCount ∧ (partOfIx t p).quenching = (partOfIx s p).quenching := by
  refine ⟨fun p hp => ?_, fun p hp => ?_⟩
  · obtain ⟨hevent, hcount, hquenching⟩ := hr.marked p hp
    exact ⟨hevent, hcount, hquenching, fun d q hown => eq_of_calmQueue (hr.shut p hp d q hown)⟩
  · obtain ⟨-, hquenching, -, hcount⟩ := quenchMarks_eq_iff.1 (hr.others p hp)
    exact ⟨hcount, hquenching⟩

/-- The members of a port whose functions `f` picks are told of their reset. -/
def Told (s : State) (h : HostId) (f : Nat → Prop) (t : State) : Prop :=
  ∀ r ∈ (hostOf s h).slotsHeld, ∀ n, f r.fn → s.alarm.device = false → wayTo s (hostDie h) r.part 0 = .port n →
    Output.forwardedReset { port := some n, vc := 0, head := msgHead s .bench (hostDie h) r.part 0 } r ∈ t.out

/-- A host port but for its pages and what `calmHost` leaves out. -/
def pageless (x : HostPort) : HostPort := { calmHost x with pages := [] }

theorem resetMembers_spec {s t : State} {h : HostId} {f : Nat → Bool} (hfabric : calmFabric t.fabric = calmFabric s.fabric)
    (hports : ∀ n, calmPort (portOf t n) = calmPort (portOf s n)) (htwin : calmTwin t.twin = calmTwin s.twin) (halarm : t.alarm = s.alarm)
    (hslots : (hostOf t h).slotsHeld = (hostOf s h).slotsHeld) :
    let u := resetMembers h f t
    Told s h (fun n => f n = true) u ∧ pageless (hostOf u h) = pageless (hostOf t h) ∧
    (∀ p, quenchMarks (partOfIx u p) = quenchMarks (partOfIx t p)) ∧ ∀ d q, calmQueue (queueOf u d q) = calmQueue (queueOf t d q) := by
  intro u
  let v := updHost h (fun k => { k with pages := k.pages.filter fun x => !(f (x.1 / 16384)) }) t
  have hv : hostOf v h = { hostOf t h with pages := (hostOf t h).pages.filter fun x => !(f (x.1 / 16384)) } := hostOf_updHost_self _ _ _
  have hrest : v.alarm = t.alarm ∧ v.fabric = t.fabric ∧ v.ports = t.ports ∧ v.twin = t.twin ∧ v.parts = t.parts ∧ v.dies = t.dies := by
    cases h <;> exact ⟨rfl, rfl, rfl, rfl, rfl, rfl⟩
  have hu : u = tellMembers h ((hostOf v h).slotsHeld.filter fun r => f r.fn) v := rfl
  clear_value v
  obtain ⟨valarm, vfabric, vports, vtwin, vparts, vdies⟩ := hrest
  have hcalm := calm_eq (calm_tellMembers h ((hostOf v h).slotsHeld.filter fun r => f r.fn) v)
  rw [← hu] at hcalm
  obtain ⟨-, cparts, -, cqueues, -, -, chosts, -⟩ := hcalm
  refine ⟨fun r hr n hf hon hway => ?_, ?_, fun p => ?_, fun d q => ?_⟩
  · rw [hu, ← msgHead_congr (s := s) (t := v) (by rw [vfabric, hfabric])]
    refine tellMembers_told (List.mem_filter.2 ⟨?_, hf⟩) (by rw [valarm, halarm]; exact hon) ?_
    · rw [hv, hslots]; exact hr
    · refine (wayTo_congr (by rw [vfabric, hfabric]) (fun n => ?_) (by rw [vtwin, htwin]) ..).trans hway
      rw [portOf, vports]
      exact hports n
  · rw [pageless, chosts h, hv]; rfl
  · rw [cparts p, partOfIx, vparts]; rfl
  · rw [cqueues d q, queueOf, dieOf, vdies]; rfl

/-- A port whose link goes down: nothing stays unmasked or cached, its partitions are reset, and its members are told. -/
theorem dropLink_spec (h : HostId) (s : State) :
    let t := dropLink h s
    (hostOf t h).linkUp = false ∧ (hostOf t h).unmasked = [] ∧ (hostOf t h).cached = [] ∧ ResetHit s h none (fun _ => True) t ∧ Told s h (fun _ => True) t := by
  intro t
  let s₁ := updHost h (fun k => { k with linkUp := false, unmasked := [], msixPending := [], cached := [], priFailed := [] }) s
  have hs₁ : hostOf s₁ h = { hostOf s h with linkUp := false, unmasked := [], msixPending := [], cached := [], priFailed := [] } :=
    hostOf_updHost_self _ _ _
  have hrest : s₁.alarm = s.alarm ∧ s₁.fabric = s.fabric ∧ s₁.ports = s.ports ∧ s₁.twin = s.twin ∧ s₁.parts = s.parts ∧ s₁.dies = s.dies := by
    cases h <;> exact ⟨rfl, rfl, rfl, rfl, rfl, rfl⟩
  have ht : t = resetMembers h (fun _ => true) (resetParts (ownedBy s₁ none fun k _ => k == h) s₁) := rfl
  clear_value s₁ t
  obtain ⟨alarm₁, fabric₁, ports₁, twin₁, parts₁, dies₁⟩ := hrest
  have hr := resetParts_resets (ownedBy_nodup s₁ none fun k _ => k == h) s₁
  have hall : (fun (k : HostId) (_ : Nat) => k == h) = fun k fn => k == h && (fun _ => true) fn := by
    funext k fn
    simp
  generalize resetParts (ownedBy s₁ none fun k _ => k == h) s₁ = t₁ at hr ht
  obtain ⟨htold, hhost, hmarks, hqueues⟩ := resetMembers_spec (f := fun _ => true) (s := s) (t := t₁) (h := h) (by rw [hr.fabric, fabric₁])
    (fun n => by rw [hr.ports, portOf, ports₁]; rfl) (by rw [hr.twin, twin₁]) (hr.alarm.trans alarm₁) (by
      have h₁ : (calmHost (hostOf t₁ h)).slotsHeld = (calmHost (hostOf s₁ h)).slotsHeld := by rw [hr.hosts h]
      exact h₁.trans (by rw [hs₁]; rfl))
  rw [← ht] at htold hhost hmarks hqueues
  have hport : pageless (hostOf t h) = pageless (hostOf s₁ h) := by rw [hhost, pageless, hr.hosts h]; rfl
  have hlink : (pageless (hostOf t h)).linkUp = (pageless (hostOf s₁ h)).linkUp := by rw [hport]
  have hmask : (pageless (hostOf t h)).unmasked = (pageless (hostOf s₁ h)).unmasked := by rw [hport]
  have hcache : (pageless (hostOf t h)).cached = (pageless (hostOf s₁ h)).cached := by rw [hport]
  rw [hall] at hr
  refine ⟨hlink.trans (by rw [hs₁]; rfl), hmask.trans (by rw [hs₁]; rfl), hcache.trans (by rw [hs₁]; rfl), ?_, ?_⟩
  · simpa using hr.hit.congr parts₁ dies₁ hmarks hqueues
  · simpa using htold

/-- A function that is reset: its vectors masked, its partitions reset, its members told. -/
theorem functionLevelReset_own (h : HostId) (fn : Nat) (s : State) :
    ∃ t, exec (.functionLevelReset ⟨h, none⟩ fn) s = .next t ∧ (hostOf t h).linkUp = (hostOf s h).linkUp ∧
      (hostOf t h).apertures = (hostOf s h).apertures ∧ (∀ v ∈ (hostOf t h).unmasked, v / 4096 ≠ fn) ∧ ResetHit s h none (· = fn) t ∧
      Told s h (· = fn) t := by
  have hr := resetParts_resets (ownedBy_nodup s none fun k f => k == h && f == fn) s
  have hexec : exec (.functionLevelReset ⟨h, none⟩ fn) s =
    .next (updHost h (resetFnState fn) (resetMembers h (· == fn) (resetParts (ownedBy s none fun k f => k == h && f == fn) s))) := rfl
  generalize resetParts (ownedBy s none fun k f => k == h && f == fn) s = t₁ at hr hexec
  have hslots : (calmHost (hostOf t₁ h)).slotsHeld = (calmHost (hostOf s h)).slotsHeld := by rw [hr.hosts h]
  obtain ⟨htold, hhost, hmarks, hqueues⟩ := resetMembers_spec (f := (· == fn)) (s := s) (t := t₁) (h := h) hr.fabric hr.ports hr.twin hr.alarm hslots
  generalize resetMembers h (· == fn) t₁ = u at htold hhost hmarks hqueues hexec
  have hport : pageless (hostOf u h) = pageless (hostOf s h) := by rw [hhost, pageless, hr.hosts h]; rfl
  have hlink : (pageless (hostOf u h)).linkUp = (pageless (hostOf s h)).linkUp := by rw [hport]
  have hap : (pageless (hostOf u h)).apertures = (pageless (hostOf s h)).apertures := by rw [hport]
  have hself : hostOf (updHost h (resetFnState fn) u) h = resetFnState fn (hostOf u h) := hostOf_updHost_self _ _ _
  have hrest : (updHost h (resetFnState fn) u).parts = u.parts ∧ (updHost h (resetFnState fn) u).dies = u.dies ∧
      (updHost h (resetFnState fn) u).out = u.out := by cases h <;> exact ⟨rfl, rfl, rfl⟩
  generalize updHost h (resetFnState fn) u = t at hself hrest hexec
  obtain ⟨tparts, tdies, tout⟩ := hrest
  refine ⟨t, hexec, by rw [hself]; exact hlink, by rw [hself]; exact hap, fun v hv => ?_, ?_, ?_⟩
  · rw [hself] at hv
    simpa using (List.mem_filter.1 hv).2
  · have hhit := hr.hit.congr (t := t) rfl rfl (fun p => by rw [partOfIx, tparts]; exact hmarks p) (fun d q => by rw [queueOf, dieOf, tdies]; exact hqueues d q)
    simpa using hhit
  · unfold Told at htold ⊢
    rw [tout]
    simpa using htold

/-- What a reset of a bench's partitions leaves. -/
theorem resetParts_hit (s : State) (h : HostId) (g : Option Nat) (f : Nat → Bool) :
    ResetHit s h g (fun n => f n = true) (resetParts (ownedBy s g fun k n => k == h && f n) s) ∧
    (hostOf (resetParts (ownedBy s g fun k n => k == h && f n) s) h).linkUp = (hostOf s h).linkUp ∧
    (hostOf (resetParts (ownedBy s g fun k n => k == h && f n) s) h).unmasked = (hostOf s h).unmasked := by
  have hr := resetParts_resets (ownedBy_nodup s g fun k n => k == h && f n) s
  generalize resetParts (ownedBy s g fun k n => k == h && f n) s = t at hr
  have hlink : (calmHost (hostOf t h)).linkUp = (calmHost (hostOf s h)).linkUp := by rw [hr.hosts h]
  have hmask : (calmHost (hostOf t h)).unmasked = (calmHost (hostOf s h)).unmasked := by rw [hr.hosts h]
  exact ⟨hr.hit, hlink, hmask⟩

/-- Settles O9: links train and go down, and resets reach the partitions of their port or function. -/
theorem hostLinks : Obligations.HostLinks := by
  intro s h
  refine ⟨fun w hon hperst hw => ?_, fun w hoff => ?_, ?_, ?_⟩
  · refine ⟨updHost h (fun k => { k with linkUp := true, width := w }) s, ?_, hostOf_updHost_self _ _ _, fun k hk => hostOf_updHost_ne _ _ hk,
      updHost_frame _ _ _ rfl⟩
    change execHostLinkUp h w s = _
    have hix : s.pins.perst.getD (hostIx h) false = false := hperst
    simp only [execHostLinkUp, hon, hix, List.contains_iff_mem.2 hw]
    rfl
  · change execHostLinkUp h w s = _
    have hshut : ((hostOf s h).enabled && !(s.pins.perst.getD (hostIx h) false)) = false := by
      rcases hoff with hoff | hperst
      · simp [hoff]
      · rw [show s.pins.perst.getD (hostIx h) false = true from hperst, Bool.not_true, Bool.and_false]
    simp only [execHostLinkUp, hshut]
    rfl
  · dsimp only
    refine ⟨fun i hi => ?_, fun fn => ?_, fun g => ?_, fun g fn => ?_⟩
    · obtain ⟨s₁, hexec, hparts, hdies, hsame⟩ : ∃ s₁, exec i s = .next (dropLink h s₁) ∧ s₁.parts = s.parts ∧ s₁.dies = s.dies ∧
          s₁ = { s with pins := s₁.pins } := by
        rcases hi with rfl | rfl
        · exact ⟨s, rfl, rfl, rfl, rfl⟩
        · exact ⟨_, rfl, rfl, rfl, rfl⟩
      obtain ⟨hlink, hmask, hcache, hhit, htold⟩ := dropLink_spec h s₁
      refine ⟨_, hexec, hlink, hmask, hcache, (hhit.congr hparts hdies (fun _ => rfl) fun _ _ => rfl).spec, ?_⟩
      rw [hsame] at htold
      exact hsame ▸ htold
    · obtain ⟨t, hexec, hlink, hap, hmask, hhit, htold⟩ := functionLevelReset_own h fn s
      exact ⟨t, hexec, hlink, hap, hmask, hhit.spec, htold⟩
    · obtain ⟨hhit, hlink, -⟩ := resetParts_hit s h (some g) fun _ => true
      have hall : (fun (k : HostId) (n : Nat) => k == h && (fun _ => true) n) = fun k _ => k == h := by
        funext k n
        simp
      simp only [hall] at hhit hlink
      exact ⟨_, rfl, hlink, (hhit.of_iff (f' := fun _ => True) (by simp)).spec⟩
    · obtain ⟨hhit, -, hmask⟩ := resetParts_hit s h (some g) (· == fn)
      exact ⟨_, rfl, hmask, (hhit.of_iff (f' := (· = fn)) (by simp)).spec⟩
  · exact ⟨_, rfl, by cases h <;> rfl, fields_frame⟩

end Sys2Proof.Machine

namespace Sys2Proof.Machine

/-! ### Records of a queue whose line, hold or registers have just changed -/

/-- A change of a queue beside its ring. -/
structure KeepsRing (f : Queue → Queue) : Prop where
  enabled : ∀ x, (f x).enabled = x.enabled
  heldCpl : ∀ x, (f x).heldCpl = x.heldCpl
  crBase : ∀ x, (f x).crBase = x.crBase
  crLog2 : ∀ x, (f x).crLog2 = x.crLog2
  crHead : ∀ x, (f x).crHead = x.crHead
  crTail : ∀ x, (f x).crTail = x.crTail
  consumed : ∀ x, (f x).consumed = x.consumed

theorem RecordReady.updQueue {s : State} {d : DieIx} {q : QueueIx} {p : PartIx} (h : RecordReady s d q p) {f : Queue → Queue} (hf : KeepsRing f) :
    RecordReady (updQueue d q f s) d q p where
  owner := by
    have howner : (dieOf (Machine.updQueue d q f s) d).owner = (dieOf s d).owner := by simp [Machine.updQueue]
    exact howner.trans h.owner
  enabled := by rw [queueOf_updQueue_self, hf.enabled]; exact h.enabled
  none_held := by rw [queueOf_updQueue_self, hf.heldCpl]; exact h.none_held
  room := by rw [queueOf_updQueue_self, ringFull, hf.crLog2, hf.crTail, hf.crHead]; exact h.room
  own_host := h.own_host
  link := h.link

/-- What a record says of the state before such a change. -/
theorem Completed.of_updQueue {s u : State} {d : DieIx} {q : QueueIx} {p : PartIx} {f : Queue → Queue} (hf : KeepsRing f) {b : List Byte} {w : Bool}
    {e : Ev} {n : Nat} (h : Completed d q p (updQueue d q f s) u b w e n) : Completed d q p s u b w e n := by
  obtain ⟨htail, r, hout, hrecord⟩ := h
  have haddr : recordAddr (f (queueOf s d q)) = recordAddr (queueOf s d q) := by simp only [recordAddr, hf.crBase, hf.crLog2, hf.crTail]
  rw [queueOf_updQueue_self] at htail hout hrecord
  rw [hf.crTail] at htail
  rw [haddr] at hout
  obtain ⟨hlen, hmagic, hseq, hplace, htype, hstatus, hphase, htag, hevent, hdetail, hcons⟩ := hrecord
  rw [hf.crTail, hf.crLog2] at hphase
  rw [hf.consumed] at hcons
  exact ⟨htail, r, hout, hlen, hmagic, hseq, hplace, htype, hstatus, hphase, htag, hevent, hdetail, hcons⟩

/-- A packet that completes OK: its record, and what of its queue changes. -/
theorem okPacket_ready {s : State} {d : DieIx} {q : QueueIx} {p : PartIx} (h : RecordReady s d q p) (b : List Byte) {detail : Nat}
    (hdetail : detail < 2 ^ 32) :
    let u := okPacket d q b detail s
    Completed d q p s u b false 0 detail ∧ Frame recordAreas s u ∧
    queueOf u d q = { queueOf s d q with crTail := ((queueOf s d q).crTail + 1) % 2 ^ 32 } := by
  obtain ⟨hdone, hdies, hframe⟩ := putCpl_completed h b
    (c := { cplOk (pktSeq b) (pktType b) (pktTag b) (pktIrq b) with detail := detail }) rfl rfl rfl (fun _ => rfl) hdetail
  refine ⟨hdone, hframe, ?_⟩
  have hq := queueOf_updQueue_self d q (fun y => { y with crTail := ((queueOf s d q).crTail + 1) % 2 ^ 32 }) s
  rw [queueOf, dieOf, okPacket, hdies, ← dieOf, ← queueOf, hq]

/-- One whose queue has just changed. -/
theorem okPacket_completed {s : State} {d : DieIx} {q : QueueIx} {p : PartIx} (h : RecordReady s d q p) {f : Queue → Queue} (hf : KeepsRing f)
    (b : List Byte) {detail : Nat} (hdetail : detail < 2 ^ 32) :
    let u := okPacket d q b detail (updQueue d q f s)
    Completed d q p s u b false 0 detail ∧ Frame recordAreas s u ∧
    queueOf u d q = { f (queueOf s d q) with crTail := ((queueOf s d q).crTail + 1) % 2 ^ 32 } := by
  obtain ⟨hdone, hframe, hqueue⟩ := okPacket_ready (h.updQueue hf) b hdetail
  refine ⟨hdone.of_updQueue hf, ((updQueue_frame d q f s).then hframe).mono (by decide), hqueue.trans ?_⟩
  rw [queueOf_updQueue_self, hf.crTail]

/-- A refused packet's queue keeps all but its CR_TAIL. -/
theorem refusePacket_queue {s : State} {d : DieIx} {q : QueueIx} {p : PartIx} (h : RecordReady s d q p) {b : List Byte} (hb : pktType b ≠ 0) (e : Ev) :
    queueOf (refusePacket d q e b s) d q = { queueOf s d q with crTail := ((queueOf s d q).crTail + 1) % 2 ^ 32 } := by
  simp only [refusePacket, withholdPacket, if_neg hb]
  have hframe := logEvent_frame e { die := d, queue := some (q, pktSeq b, 0), part := (dieOf s d).owner, unit := 0, detail := 0, isSkip := false } s
  generalize logEvent e _ s = v at hframe
  have hv : RecordReady v d q p := h.frame hframe (by decide) (by decide) (by decide)
  obtain ⟨-, hdies, -⟩ := putCpl_completed hv b
    (c := { cplWithheld (pktSeq b) (pktType b) (pktTag b) (pktIrq b) e with cancelled := pktType b == 4 && e == 0 }) rfl rfl rfl nofun (by simp [cplWithheld])
  have hq := queueOf_updQueue_self d q (fun y => { y with crTail := ((queueOf v d q).crTail + 1) % 2 ^ 32 }) v
  rw [queueOf, dieOf, hdies, ← dieOf, ← queueOf, hq, hframe.queueOf (by decide)]

/-! ### The front of a queue -/

/-- What a packet at the head of a queue says of the queue. -/
theorem headPacket_line {s : State} {d : DieIx} {q : QueueIx} {n : Nat} {b : List Byte} (h : headPacket s d q n = some b) : (queueOf s d q).hold = none := by
  cases hh : (queueOf s d q).hold with
  | none => rfl
  | some x => simp [headPacket, hh] at h

/-- A queue that is held with a packet holds it, its line gone on. -/
theorem holdQueue_popLine (d : DieIx) (q : QueueIx) (f : Queue → Queue) (h : Hold) (b : List Byte) (s : State) :
    queueOf (holdQueue d q h b (updQueue d q f s)) d q =
      { f (queueOf s d q) with hold := some (h, .packet (pktSeq b) (b.length / 64) b none) } := by
  rw [holdQueue, queueOf_updQueue_self, queueOf_updQueue_self]

theorem holdQueue_frame (d : DieIx) (q : QueueIx) (h : Hold) (b : List Byte) (s : State) : Frame [.dies] s (holdQueue d q h b s) := updQueue_frame _ _ _ _

theorem popLine_frame (d : DieIx) (q : QueueIx) (s : State) : Frame [.dies] s (popLine d q s) := updQueue_frame _ _ _ _

/-- What of a die is not in its queues is as it was after a change of a queue. -/
theorem dieOf_updQueue {α : Type} (g : Die → α) (hg : ∀ x (v : Vector Queue 16), g { x with queues := v } = g x) (d : DieIx) (q : QueueIx) (f : Queue → Queue)
    (s : State) (e : DieIx) : g (dieOf (updQueue d q f s) e) = g (dieOf s e) := by
  by_cases he : e = d
  · subst he
    rw [updQueue, dieOf_updDie_self, hg]
  · rw [updQueue, dieOf_updDie_ne _ _ he]

theorem popLine_owner {s : State} {d : DieIx} {q : QueueIx} {e : DieIx} : (dieOf (popLine d q s) e).owner = (dieOf s e).owner :=
  dieOf_updQueue (·.owner) (fun _ _ => rfl) ..

end Sys2Proof.Machine

namespace Sys2Proof.Machine

/-! ### A CANCEL whose record has no way to its gateway (R291, R357, R399)

The record of a packet goes to the gateway of a bench member's partition. Where the fabric has no way to it, the message is discarded and counted at the
port, which no record of the part's own does. -/

/-- A CANCEL packet of one line that names no job, with its check. -/
def someCancel : List Byte :=
  let b := leBytes 2 0xC750 ++ leBytes 2 1 ++ leBytes 1 7 ++ leBytes 1 1 ++ List.replicate 54 0
  b ++ leBytes 4 (crc32c b).toNat

/-- A queue of a bench member's partition that has read a CANCEL, in a part whose fabric is not valid. -/
def memberCancel : State :=
  updQueue 0 0 (fun q => { q with enabled := true, crLog2 := 4, line := [.packet 1 1 someCancel none] })
    (updPart 0 (fun p => { p with entry := leBytes 2 1 ++ leBytes 2 5 ++ leBytes 2 0 ++ leBytes 1 1 ++ p.entry.drop 7 }) someRunning)


/-! #### What settling queues tells of ports -/

/-- At most `k` events stand in the log, and no queue withholds the JOB_SUBMITs that follow. -/
def Quiet (k : Nat) (s : State) : Prop := s.log.entries.length ≤ k ∧ ∀ d q, (queueOf s d q).stopFollowing = false

/-- Where no event was added to `k` of them by the end, the ports are as they were at the start. -/
structure PortsQuiet (k : Nat) (s t : State) : Prop where
  grows : min (k + 1) s.log.entries.length ≤ t.log.entries.length
  quiet : k ≤ s.log.entries.length → Quiet k t → Quiet k s ∧ t.ports = s.ports

section

variable {k : Nat}

theorem PortsQuiet.refl (s : State) : PortsQuiet k s s := ⟨min_le_right _ _, fun _ h => ⟨h, rfl⟩⟩

theorem PortsQuiet.trans {s t u : State} (h : PortsQuiet k s t) (l : PortsQuiet k t u) : PortsQuiet k s u := by
  have hst := h.grows
  have htu := l.grows
  refine ⟨by omega, fun hk hu => ?_⟩
  obtain ⟨ht, hports⟩ := l.quiet (by omega) hu
  obtain ⟨hs, hports'⟩ := h.quiet hk ht
  exact ⟨hs, hports.trans hports'⟩

theorem PortsQuiet.foldl {α : Type} {f : State → α → State} (hf : ∀ s x, PortsQuiet k s (f s x)) (l : List α) (s : State) : PortsQuiet k s (l.foldl f s) := by
  induction l generalizing s with
  | nil => exact .refl s
  | cons x l ih => exact (hf s x).trans (ih _)

/-- A change that leaves log and ports. -/
theorem PortsQuiet.of_keeps {s t : State} (h : KeepsWindows s t) (hlog : t.log = s.log) (hports : t.ports = s.ports) : PortsQuiet k s t :=
  ⟨by rw [hlog]; exact min_le_right _ _, fun _ ⟨hentries, hstop⟩ => ⟨⟨hlog ▸ hentries, fun d q => h.stop d q ▸ hstop d q⟩, hports⟩⟩

theorem refusePacket_log (d : DieIx) (q : QueueIx) (e : Ev) (b : List Byte) (s : State) :
    (refusePacket d q e b s).log.entries.length = min (s.log.entries.length + 1) 4096 := by
  let a : EvArgs := { die := d, queue := some (q, pktSeq b, 0), part := (dieOf s d).owner, unit := 0, detail := 0, isSkip := false }
  have hstill : (still (refusePacket d q e b s)).log = (still (logEvent e a s)).log := by rw [refusePacket, still_withholdPacket]
  have hput : (refusePacket d q e b s).log = (logEvent e a s).log := hstill
  obtain ⟨-, time, hentries⟩ := logEvent_logged e a s
  rw [hput, hentries]
  simp [pushLog]
  omega

/-- What is refused is logged. -/
theorem refusePacket_quiet (hk : k < 4096) (d : DieIx) (q : QueueIx) (e : Ev) (b : List Byte) (s : State) : PortsQuiet k s (refusePacket d q e b s) := by
  have hlog := refusePacket_log d q e b s
  exact ⟨by omega, fun hle hquiet => absurd hquiet.1 (by omega)⟩

theorem popLine_quiet (d : DieIx) (q : QueueIx) (s : State) : PortsQuiet k s (popLine d q s) := .of_keeps (popLine_windows d q s) rfl rfl

theorem finishEvictions_quiet (p : PartIx) (s : State) : PortsQuiet k s (finishEvictions p s) := .of_keeps (.of_dies rfl) rfl rfl

/-- A queue that withholds what follows goes on to withhold it. -/
theorem withholdPacket_quiet {d : DieIx} {q : QueueIx} {s : State} (hstop : (queueOf s d q).stopFollowing = true) (e : Ev) (b : List Byte) :
    PortsQuiet k s (withholdPacket d q e b s) := by
  have hstill : (still (withholdPacket d q e b s)).log = (still s).log := by rw [still_withholdPacket]
  have hlog : (withholdPacket d q e b s).log = s.log := hstill
  refine ⟨by rw [hlog]; exact min_le_right _ _, fun _ hquiet => ?_⟩
  have hclear := hquiet.2 d q
  rw [(withholdPacket_windows d q e b s).stop d q, hstop] at hclear
  exact absurd hclear nofun

variable (hk : k < 4096)
include hk

theorem settleGo_quiet (d : DieIx) (q : QueueIx) (n : Nat) (s : State) : PortsQuiet k s (settleGo d q n s) := by
  induction n generalizing s with
  | zero => exact .refl _
  | succ n ih =>
    unfold settleGo
    dsimp only
    split
    · exact .refl _
    · split
      · split
        · exact ((refusePacket_quiet hk ..).trans (popLine_quiet ..)).trans (ih _)
        · split
          · rename_i hstop
            rw [Bool.and_eq_true] at hstop
            exact ((withholdPacket_quiet hstop.1 ..).trans (popLine_quiet ..)).trans (ih _)
          · exact .refl _
      · exact .refl _

theorem stampJob_quiet (s : State) (j : Job) : PortsQuiet k s (stampJob s j) := by
  unfold stampJob
  split
  · exact .refl _
  · split
    · split
      · rename_i b _
        have hgone : PortsQuiet k (refusePacket j.die j.queue 0x0102 b s) (removeJob j.id (refusePacket j.die j.queue 0x0102 b s)) :=
          .of_keeps (withoutJob_windows ..) rfl rfl
        exact (((refusePacket_quiet hk ..).trans hgone).trans (finishEvictions_quiet ..)).trans (.foldl (fun _ _ => settleGo_quiet hk ..) _ _)
      · exact .refl _
    · exact .of_keeps (.of_dies rfl) rfl rfl

theorem settleQueue_quiet (d : DieIx) (q : QueueIx) (s : State) : PortsQuiet k s (settleQueue d q s) := by
  refine (settleGo_quiet hk d q (queueOf s d q).line.length s).trans (PortsQuiet.trans ?_ (.foldl (stampJob_quiet hk) _ _))
  split
  · exact finishEvictions_quiet ..
  · exact .refl _

theorem settleDies_quiet (ds : List DieIx) (s : State) : PortsQuiet k s (settleDies ds s) :=
  .foldl (fun s _ => .foldl (fun s _ => settleQueue_quiet hk _ _ s) _ s) _ _

end

/-! #### The counterexample -/

/-- What is looked at after a step: whether nothing has been logged and no queue withholds what follows, and what die 0's port has discarded. -/
def cancelAfter : Result → Option (Bool × Tbl Nat)
  | .next t => some (t.log.entries.isEmpty && allDies.all fun d => allQueues.all fun q => !(queueOf t d q).stopFollowing, (portOf t 0).discards)
  | _ => none

theorem memberCancel_discards : cancelAfter (exec (.cancel 0 0) memberCancel) = some (true, [(5, 1)]) := by decide +kernel

theorem memberCancel_before : (dieOf memberCancel 0).owner = some 0 ∧ bodyOk someCancel = true ∧ queueOpen memberCancel 0 0 = true ∧
    findCancel [] (queueOf memberCancel 0 0).line = some ([], someCancel, []) ∧
    cancelJobs memberCancel 0 0 0 (fieldAt someCancel 0x10 1) (fieldAt someCancel 0x18 8) = [] ∧ fieldAt someCancel 0x10 1 ≠ 2 ∧
    (portOf memberCancel 0).discards = [] := by decide +kernel

/-- Refutes O42: a CANCEL's record that has no way to its gateway is counted at a port, which the statement says keeps its counts. -/
theorem not_packetsOfAQueue : ¬ Obligations.PacketsOfAQueue := by
  intro h
  obtain ⟨hown, hbody, hopen, hfind, hjobs, hmode, hbefore⟩ := memberCancel_before
  obtain ⟨-, -, -, -, -, -, hcancel⟩ := h memberCancel 0 0 someCancel 0 hown hbody
  obtain ⟨u, hexec, -, hframe, -⟩ := (hcancel [] [] hopen hfind).2 hjobs hmode
  have hafter := memberCancel_discards
  rw [hexec] at hafter
  simp only [cancelAfter, Option.some.injEq, Prod.mk.injEq, Bool.and_eq_true, List.isEmpty_iff, List.all_eq_true, Bool.not_eq_true'] at hafter
  obtain ⟨⟨hlog, hstop⟩, hdiscards⟩ := hafter
  have hquiet : Quiet 0 (settleDies (ownedDies memberCancel 0) u) :=
    ⟨by rw [hlog]; rfl, fun d q => hstop d (List.mem_finRange d) q (List.mem_finRange q)⟩
  have hports := ((settleDies_quiet (by decide) _ _).quiet (Nat.zero_le _) hquiet).2.trans (hframe .ports (by decide))
  rw [portOf, hports, ← portOf, hbefore] at hdiscards
  exact absurd hdiscards nofun

end Sys2Proof.Machine

namespace Sys2Proof.Machine

/-! ### Operations that start, and instructions that are skipped -/

/-- What starting an operation leaves of a die beside operations and scoreboard. -/
theorem startOp_frame (d : DieIx) (o : Op) (es : List SbEntry) (s : State) : Frame [.dies, .jobs, .nextId] s (startOp d o es s) := by
  have hnames := nameDests_frame o.job o.dests s
  have hdie : Frame [.dies] (nameDests o.job o.dests s) (updDie d (withOp o es s.nextId) (nameDests o.job o.dests s)) := by
    intro a ha
    cases a with
    | dies => exact absurd (List.mem_singleton_self _) ha
    | counters =>
      intro e
      by_cases he : e = d
      · subst he; rw [dieOf_updDie_self]; rfl
      · rw [dieOf_updDie_ne _ _ he]
    | parts => exact fun _ => rfl
    | partLogs => exact fun _ => rfl
    | hosts => exact fun _ => rfl
    | msix => exact fun _ => rfl
    | _ => rfl
  have hid : Frame [.nextId] (updDie d (withOp o es s.nextId) (nameDests o.job o.dests s)) (startOp d o es s) := fields_frame
  exact ((hnames.then hdie).then hid).mono (by decide)

/-- An operation that starts is in flight. -/
theorem startOp_inFlight {s : State} {a : Site} {j : Job} {o : Op} (es : List SbEntry) (hjob : o.job = j.id) (hqueue : o.queue = a.queue)
    (hoff : o.off = a.off) : InFlight a j o.unit es { o with id := s.nextId } s (startOp a.die o es s) where
  op := by
    refine ⟨?_, rfl, rfl, hjob, hqueue, hoff⟩
    rw [dieOf_startOp, dieOf_updDie_self]
    rfl
  scoreboard := by
    rw [dieOf_startOp, dieOf_updDie_self]
    rfl
  nextId := rfl
  other_dies e he := by rw [dieOf_startOp, dieOf_updDie_ne _ _ he]
  jobs := by
    change ((nameDests o.job o.dests s).jobs).map jobRest = _
    simp only [nameDests, updJob, List.map_map]
    refine List.map_congr_left fun k _ => ?_
    simp only [Function.comp]
    split <;> rfl
  other_jobs k hk hne := by
    change k ∈ (nameDests o.job o.dests s).jobs
    exact List.mem_map.2 ⟨k, hk, if_neg (hjob ▸ hne)⟩

/-- What an operation that starts leaves of its own die. -/
theorem dieOf_startOp_self (d : DieIx) (o : Op) (es : List SbEntry) (s : State) :
    dieOf (startOp d o es s) d = withOp o es s.nextId (dieOf s d) := by rw [dieOf_startOp, dieOf_updDie_self]

theorem nameDests_nil (id : Nat) (s : State) : nameDests id [] s = s := by
  have hjobs : (s.jobs.map fun j => if j.id = id then { j with dests := j.dests ++ [], secretDests := j.secretDests ++ [] } else j) = s.jobs := by
    refine (List.map_congr_left fun k _ => ?_).trans (List.map_id _)
    simp
  simp only [nameDests, updJob, List.filter_nil, List.filterMap_nil, hjobs]

/-- An instruction that names no destination is skipped and logged (R304). -/
theorem skipInstr_skipped (e : Ev) (j : Job) (a : Site) (unit : Nat) (s : State) : Skipped e j a unit s (skipInstr e j a unit [] s) := by
  have hskip : skipInstr e j a unit [] s = updJob j.id (fun x => { x with skip := some (x.skip.getD (e, a.off)) }) (logJob e j a unit 0 true s) := by
    simp only [skipInstr, nameDests_nil]
    rfl
  have hlog : Frame logAreas s (logEvent e (evJob j a unit 0 true) s) := logEvent_frame _ _ _
  rw [hskip]
  refine ⟨logJob_logged e j a unit 0 true s, ?_, ?_⟩
  · have hjobs : (logEvent e (evJob j a unit 0 true) s).jobs = s.jobs := hlog .jobs (by decide)
    change (((logEvent e (evJob j a unit 0 true) s).jobs.map _).map _) = _
    rw [hjobs, List.map_map]
    refine List.map_congr_left fun k _ => ?_
    by_cases hk : k.id = j.id <;> simp [hk]
  · have hupd : Frame [.jobs] (logJob e j a unit 0 true s) (updJob j.id (fun x => { x with skip := some (x.skip.getD (e, a.off)) }) (logJob e j a unit 0 true s)) :=
      fields_frame
    exact ((logJob_frame e j a unit 0 true s).then hupd).mono (by decide)

/-- An instruction of the second admitted job lets that job issue, once (R289). -/
theorem passSite_passSite (a : Site) (s : State) : passSite a (passSite a s) = passSite a s := by
  unfold passSite
  split
  · split
    · simp [updQueue, updDie]
    · rfl
  · rfl

theorem runInstr_passSite (a : Site) (i : Instr) (f : Job → State → Issued) (s : State) : runInstr a i f s = runInstr a i f (passSite a s) := by
  unfold runInstr
  rw [passSite_passSite]

end Sys2Proof.Machine

namespace Sys2Proof.Machine

/-! ### Flags (R301) -/

theorem flagSetP_setFlagBit (d : DieIx) (f : Nat) (s : State) :
    flagSetP (setFlagBit d f s) d f = true ∧ ∀ g, g ≠ f → flagSetP (setFlagBit d f s) d g = flagSetP s d g := by
  have hflags : (dieOf (setFlagBit d f s) d).flags = (dieOf s d).flags.filter (· != f) ++ [f] := by rw [setFlagBit, dieOf_updDie_self]
  refine ⟨by simp [flagSetP, hflags], fun g hg => ?_⟩
  rw [Bool.eq_iff_iff]
  simp [flagSetP, hflags, hg]

theorem flagSetP_clearFlagBit (d : DieIx) (f : Nat) (s : State) :
    flagSetP (clearFlagBit d f s) d f = false ∧ ∀ g, g ≠ f → flagSetP (clearFlagBit d f s) d g = flagSetP s d g := by
  have hflags : (dieOf (clearFlagBit d f s) d).flags = (dieOf s d).flags.filter (· != f) := by rw [clearFlagBit, dieOf_updDie_self]
  refine ⟨by simp [flagSetP, hflags], fun g hg => ?_⟩
  rw [Bool.eq_iff_iff]
  simp [flagSetP, hflags, hg]

/-- A change of a die's flags. -/
theorem updFlags_spec (d : DieIx) (f : List Nat → List Nat) (s : State) :
    let t := updDie d (fun x => { x with flags := f x.flags }) s
    { dieOf t d with flags := [] } = { dieOf s d with flags := [] } ∧ OtherDies d s t ∧ Frame [.dies] s t := by
  intro t
  have hself : dieOf t d = { dieOf s d with flags := f (dieOf s d).flags } := dieOf_updDie_self _ _ _
  have hne : ∀ e, e ≠ d → dieOf t e = dieOf s e := fun e he => dieOf_updDie_ne _ _ he
  refine ⟨by rw [hself], fun e he => by rw [hne e he], fun a ha => ?_⟩
  cases a with
  | dies => exact absurd (List.mem_singleton_self _) ha
  | counters =>
    intro e
    by_cases he : e = d
    · subst he; rw [hself]
    · rw [hne e he]
  | parts => exact fun _ => rfl
  | partLogs => exact fun _ => rfl
  | hosts => exact fun _ => rfl
  | msix => exact fun _ => rfl
  | _ => rfl

/-- A flag for which no BLOCK waits is set alone. -/
theorem signalFlag_of_unawaited {s : State} {d : DieIx} {f : Nat} (h : ∀ q c st b, holdPacket s d q ≠ some (.block f c st, b)) :
    signalFlag d f s = setFlagBit d f s := by
  have hsame : ∀ q, holdPacket (setFlagBit d f s) d q = holdPacket s d q := fun q => by
    have hq : queueOf (setFlagBit d f s) d q = queueOf s d q := by rw [queueOf, setFlagBit, dieOf_updDie_self]; rfl
    rw [holdPacket, holdPacket, hq]
  have hend : ∀ q, endBlock d f q (setFlagBit d f s) = setFlagBit d f s := by
    intro q
    unfold endBlock
    split
    · rename_i g c st b hheld
      rw [if_neg]
      rintro rfl
      exact h q c st b ((hsame q).symm.trans hheld)
    · rfl
  exact List.foldl_fixed' hend allQueues

/-! ### Flag instructions -/

theorem setFlag_here {s : State} {a : Site} {j : Job} (h : Ready s a j) (f : Nat) :
    exec (.setFlag a (.here f)) s = .next (if f < 256 then signalFlag a.die f s else skipInstr 0x0102 j a 0 [] s) := by
  change execSetFlag a (.here f) s = _
  exact congrArg ok (runInstr_done h rfl)

theorem clearFlag_eq {s : State} {a : Site} {j : Job} (h : Ready s a j) (f : Nat) :
    exec (.clearFlag a f) s = .next (if f < 320 then clearFlagBit a.die f s else skipInstr 0x0102 j a 0 [] s) := by
  change execClearFlag a f s = _
  exact congrArg ok (runInstr_done h rfl)

theorem waitFlag_undefined {s : State} {a : Site} {j : Job} (h : Ready s a j) {f : Nat} (hf : 320 ≤ f) :
    exec (.waitFlag a f) s = .next (skipInstr 0x0102 j a 0 [] s) := by
  change execWaitFlag a f s = _
  exact congrArg ok (runInstr_done h (if_pos hf))

theorem waitFlag_set {s : State} {a : Site} {j : Job} (h : Ready s a j) {f : Nat} (hf : f < 320) (hset : flagSetP s a.die f = true) :
    exec (.waitFlag a f) s = .next s := by
  change execWaitFlag a f s = _
  exact congrArg ok (runInstr_done h (by rw [if_neg (by omega), if_pos hset]))

theorem waitFlag_clear {s : State} {a : Site} {j : Job} (h : Ready s a j) {f : Nat} (hf : f < 320) (hclear : flagSetP s a.die f = false) :
    exec (.waitFlag a f) s = .next (waiting j (.waitFlag a f) a (.flag f) [] s) := by
  change execWaitFlag a f s = _
  exact congrArg ok (runInstr_wait h (by rw [if_neg (by omega), if_neg (by simp [hclear])]))

/-- SET_FLAG to a window: what its checks say, in their order (R370). -/
theorem setFlag_there {s : State} {a : Site} {j : Job} (h : Ready s a j) {w f : Nat} {x : Desc} (hx : descOf s a.die w = some x)
    (hcheck : x.recheck s = .pass) (hspace : x.space = 3) :
    (256 ≤ f → f < 320 → windowCheck s j x = .pass → exec (.setFlag a (.there w f)) s =
      .next (sendReq a.die j s.nextId .flag 0 x.piece f 0 [] (startOp a.die (opZero 0 j.id a.queue a.off 6) [] s))) ∧
    (f < 256 ∨ 320 ≤ f → exec (.setFlag a (.there w f)) s = .next (skipInstr 0x0102 j a 6 [] s)) := by
  refine ⟨fun hlo hhi hwindow => ?_, fun hf => ?_⟩
  · have hrange : (decide (f < 256) || decide (320 ≤ f)) = false := by simp; omega
    have hissue : issueFlagSet a f w j s =
        .done (sendReq a.die j s.nextId .flag 0 x.piece f 0 [] (startOp a.die (opZero 0 j.id a.queue a.off 6) [] s)) := by
      simp [issueFlagSet, hx, hcheck, hspace, hwindow, hrange, firstFail, failIf]
    change execSetFlag a (.there w f) s = _
    exact congrArg ok (runInstr_done h hissue)
  · have hrange : (decide (f < 256) || decide (320 ≤ f)) = true := by simpa using hf
    have hissue : issueFlagSet a f w j s = .done (skipInstr 0x0102 j a 6 [] s) := by
      simp [issueFlagSet, hx, hcheck, hspace, hrange, firstFail, failIf, onVerdict]
    change execSetFlag a (.there w f) s = _
    exact congrArg ok (runInstr_done h hissue)

/-! ### Waits that fail (R302, R303) -/

/-- What arrives late is counted, and no more. -/
theorem lateFlag_work (e : Ev) (id : Nat) (d : DieIx) (h : Held) (s : State) :
    JobWork e id s (lateFlag d h s) ∧ (lateFlag d h s).log = s.log ∧ (lateFlag d h s).jobs = s.jobs := by
  unfold lateFlag
  split
  · exact ⟨count_work e id d 7 1 s, rfl, rfl⟩
  · exact ⟨.refl .., rfl, rfl⟩

/-- A timed wait that meets its limit quenches its job and poisons what it was to write (R96, R302). -/
theorem flagTimeout_held {s : State} {d : DieIx} {q : QueueIx} {h : Held} {j : Job} (hheld : heldFront s d q = some h)
    (hj : jobOf s h.job = some j) (htimed : timedWait h.wait = true) :
    ∃ t, exec (.flagTimeout d q) s = .next t ∧ Breached 0x0401 j h.at_ 0 0 false s t ∧
      ∀ e k, Dest.handle e k ∈ waitDests h.wait → (handleOf s e k).valid = true → (handleOf t e k).poisoned = true := by
  obtain ⟨hwork, hlog, hjobs⟩ := lateFlag_work 0x0401 j.id d h s
  have hjs : jobOf s j.id = some j := id_of_jobOf hj ▸ hj
  generalize hds : waitDests h.wait = ds
  generalize hu : lateFlag d h s = u at hwork hlog hjobs
  generalize hv : poisonAll 0x0401 ds (nameDests j.id ds (logJob 0x0401 j h.at_ 0 0 false u)) = v
  have hexec : exec (.flagTimeout d q) s = .next (quenchJob j.id 0x0401 false v) := by
    change execFlagTimeout d q s = _
    unfold execFlagTimeout
    simp only [hheld, hj, htimed, if_true, hds, hu, hv]
  have hnamed := nameDests_work 0x0401 j.id ds (logJob 0x0401 j h.at_ 0 0 false u)
  have hpoison : JobWork 0x0401 j.id (nameDests j.id ds (logJob 0x0401 j h.at_ 0 0 false u)) v := hv ▸ poisonAll_work ..
  have hstill : StillNames j v :=
    ((((StillNames.of_job hjs).of_jobs hjobs).logJob 0x0401 h.at_ 0 0 false).nameDests ds).of_jobs (hv ▸ poisonAll_jobs ..)
  have hquiet : v.log = (logJob 0x0401 j h.at_ 0 0 false u).log := by rw [← hv, poisonAll_log]; rfl
  refine ⟨_, hexec, breached_of_work hstill hwork hlog (hnamed.trans hpoison) hquiet false, fun e k hmem hvalid => ?_⟩
  obtain ⟨k', hk', -⟩ := hstill
  have hto := hwork.trans ((logJob_work 0x0401 0x0401 j h.at_ 0 0 false u).trans hnamed)
  have hv' : (handleOf v e k).poisoned = true := hv ▸ poisonAll_handle 0x0401 hmem _ ((hto.dies e).handles k hvalid).1
  exact (((quenchJob_spec hk' 0x0401 false).1.dies e).handles k (((hto.trans hpoison).dies e).handles k hvalid).1).2 hv'

/-- A key switch that waits too long for its chunks quenches its job (R302). -/
theorem flagTimeout_stream {s : State} {d : DieIx} {q : QueueIx} {o : Op} {j : Job} (hheld : heldFront s d q = none)
    (ho : ((dieOf s d).ops.find? fun o => o.queue == q && keyStalled s o) = some o) (hj : jobOf s o.job = some j) :
    ∃ t, exec (.flagTimeout d q) s = .next t ∧ Breached 0x0401 j { die := d, queue := q, off := o.off } 0 0 false s t := by
  have hjs : jobOf s j.id = some j := id_of_jobOf hj ▸ hj
  refine ⟨_, ?_, breached_of_work (e' := 0x0401) (pe := 0x0401) ((StillNames.of_job hjs).logJob 0x0401 { die := d, queue := q, off := o.off } 0 0 false)
    (.refl ..) rfl (.refl ..) rfl false⟩
  change execFlagTimeout d q s = _
  unfold execFlagTimeout streamTimeout
  simp only [hheld, ho, hj]

/-- A queue whose wait can never be satisfied has its job quenched (R303). -/
theorem flagDeadlock_one {s : State} {d : DieIx} {q : QueueIx} {h : Held} {j : Job} {x : Nat} (hheld : heldFront s d q = some h)
    (hj : jobOf s h.job = some j) (hx : awaited s d q = some x) (hdead : deadlocked s d [q] = true) :
    ∃ t, exec (.flagDeadlock d [q]) s = .next t ∧ Breached 0x0402 j h.at_ 0 x false s t := by
  have hone : allQueues.filter (fun p => [q].contains p) = [q] := by clear hheld hx hdead; decide +revert
  obtain ⟨hwork, hlog, hjobs⟩ := lateFlag_work 0x0402 j.id d h s
  have hid := id_of_jobOf hj
  have hjs : jobOf s j.id = some j := hid ▸ hj
  refine ⟨_, ?_, breached_of_work (e' := 0x0402) (((StillNames.of_job hjs).of_jobs hjobs).logJob 0x0402 h.at_ 0 x false)
    hwork hlog (.refl ..) rfl false⟩
  change execFlagDeadlock d [q] s = _
  unfold execFlagDeadlock
  simp [hone, hdead, hheld, hj, hx, quenchJobs, hid]

theorem flagDeadlock_none {s : State} {d : DieIx} {w : List QueueIx} (hlive : deadlocked s d (allQueues.filter w.contains) = false) :
    exec (.flagDeadlock d w) s = .next s := by
  change execFlagDeadlock d w s = _
  unfold execFlagDeadlock
  dsimp only
  rw [if_pos (by simpa using hlive)]

/-- An instruction of the second admitted job lets that job issue (R289). -/
theorem runningJob_passSite {s : State} {a : Site} {k l : Nat} {t : List Nat} (hnext : a.next = true) (hre : s.reissue = none)
    (hjobs : (queueOf s a.die a.queue).jobs = k :: l :: t) : runningJob (passSite a s) a.die a.queue = jobOf s l := by
  have hpass : passSite a s = updQueue a.die a.queue (fun x => { x with passed := true }) s := by
    unfold passSite
    rw [if_pos (by simp [hnext, hre, hjobs])]
  have hqueue : queueOf (passSite a s) a.die a.queue = { queueOf s a.die a.queue with passed := true } := by
    rw [hpass, queueOf_updQueue_self]
  have hrunning : runningJobs (passSite a s) a.die a.queue = [k, l] := by
    unfold runningJobs
    rw [hqueue]
    simp [hjobs]
  have hsame : (passSite a s).jobs = s.jobs := by rw [hpass]; rfl
  unfold runningJob
  rw [hrunning]
  simp [jobOf, hsame]

theorem undefinedInstruction_eq {s : State} {a : Site} {j : Job} (h : Ready s a j) :
    exec (.undefinedInstruction a) s = .next (skipInstr 0x0101 j a 0 [] s) := by
  change execUndefinedInstruction a s = _
  exact congrArg ok (runInstr_done h rfl)

/-- Settles O39: a flag changes alone, a wait goes on or is held, what may not be named is skipped, and a wait that fails quenches its job
(R301 to R304). -/
theorem flagsAndWaits : Obligations.FlagsAndWaits := by
  unfold Obligations.FlagsAndWaits
  intro s
  refine ⟨fun a i f => runInstr_passSite a i f s, fun a k l t hnext hre hjobs => runningJob_passSite hnext hre hjobs, fun a j hready => ?_,
    fun d => ⟨fun q h j hheld hj htimed => ?_, fun q o j hheld ho hj => ?_, fun q h j x hheld hj hx hdead => ?_, fun w => flagDeadlock_none⟩⟩
  · dsimp only
    refine ⟨fun f hf hfree => ?_, fun f hf => ?_, fun f hf hset => waitFlag_set hready hf hset, fun f hf hclear => ?_, fun f hf => ?_,
      fun w f x hx hcheck hspace => ⟨fun hlo hhi hwindow => ?_, fun hf => ?_⟩, fun f hf => ?_,
      ⟨_, undefinedInstruction_eq hready, skipInstr_skipped ..⟩⟩
    · refine ⟨_, (setFlag_here hready f).trans (by rw [if_pos hf, signalFlag_of_unawaited hfree]), (flagSetP_setFlagBit _ _ _).1,
        (flagSetP_setFlagBit _ _ _).2, updFlags_spec a.die (fun l => l.filter (· != f) ++ [f]) s⟩
    · refine ⟨_, (clearFlag_eq hready f).trans (by rw [if_pos hf]), (flagSetP_clearFlagBit _ _ _).1,
        (flagSetP_clearFlagBit _ _ _).2, updFlags_spec a.die (fun l => l.filter (· != f)) s⟩
    · exact ⟨_, waitFlag_clear hready hf hclear, waiting_frame _ _ _ _ _ _, rfl⟩
    · exact ⟨_, (setFlag_here hready f).trans (by rw [if_neg (by omega)]), skipInstr_skipped ..⟩
    · exact ⟨_, _, startOp_inFlight (o := opZero 0 j.id a.queue a.off 6) [] rfl rfl rfl, (setFlag_there hready hx hcheck hspace).1 hlo hhi hwindow⟩
    · exact ⟨_, (setFlag_there hready hx hcheck hspace).2 hf, skipInstr_skipped ..⟩
    · exact ⟨_, (clearFlag_eq hready f).trans (by rw [if_neg (by omega)]), waitFlag_undefined hready hf, skipInstr_skipped ..⟩
  · obtain ⟨t, hexec, ⟨hlog, hquenched, hframe⟩, hpoison⟩ := flagTimeout_held hheld hj htimed
    exact ⟨t, hexec, hlog, hquenched, hframe, hpoison⟩
  · exact flagTimeout_stream hheld ho hj
  · exact flagDeadlock_one hheld hj hx hdead

end Sys2Proof.Machine

namespace Sys2Proof.Machine

/-! ### What sending a packet changes (R353, R357) -/

theorem discard_frame (n : PortIx) (reason : Nat) (s : State) : Frame [.ports] s (discard n reason s) := updPort_frame _ _ _

theorem drainPort_frame (n : PortIx) (s : State) : Frame [.ports, .out] s (drainPort n s) := by
  unfold drainPort
  extract_lets p
  split
  · exact .refl _ _
  · exact ((updPort_frame n _ s).then (.foldl (ws := [.out]) (fun s f => emit_frame (.flit n f) s) _ _)).mono (by decide)

theorem portSend_frame (n : PortIx) (p : Packet) (s : State) : Frame [.ports, .out] s (portSend n p s) :=
  ((updPort_frame n _ s).then (drainPort_frame n _)).mono (by decide)

/-- Routing a packet changes ports, outputs and what has arrived here. -/
theorem routePacket_frame (n : PortIx) (p : Packet) (s : State) : Frame [.ports, .out, .fabric] s (routePacket n p s) := by
  unfold routePacket
  split
  · exact (discard_frame n 1 s).mono (by decide)
  · exact fields_frame
  · rename_i m _
    split
    · exact (portSend_frame m p s).mono (by decide)
    · exact (discard_frame m 2 s).mono (by decide)

theorem originate_frame (d : DieIx) (p : Packet) (s : State) : Frame [.ports, .out, .fabric] s (originate d p s) := by
  unfold originate
  split
  · exact (discard_frame d 5 s).mono (by decide)
  · exact routePacket_frame _ _ _

/-- Of the fabric, routing changes only what has arrived here. -/
theorem routePacket_fabric (n : PortIx) (p : Packet) (s : State) :
    { (routePacket n p s).fabric with arrived := [] } = { s.fabric with arrived := [] } := by
  unfold routePacket
  split
  · rfl
  · rfl
  · rename_i m _
    split
    · rw [portSend_frame m p s .fabric (by decide)]
    · rfl

theorem originate_fabric (d : DieIx) (p : Packet) (s : State) :
    { (originate d p s).fabric with arrived := [] } = { s.fabric with arrived := [] } := by
  unfold originate
  split
  · rfl
  · exact routePacket_fabric ..

theorem collControl_frame (d : DieIx) (key : Nat) (c : Coll) (data : List Byte) (s : State) :
    Frame [.ports, .out, .fabric] s (collControl d key c data s) :=
  .foldl (fun s _ => originate_frame _ _ s) _ s

/-! ### What a quench of jobs leaves of the partitions -/

/-- No job is new to its partition, and the partitions keep their state and quench marks. -/
structure Sheds (s t : State) : Prop where
  jobs : ∀ j ∈ t.jobs, ∃ k ∈ s.jobs, k.part = j.part
  marks : ∀ p, quenchMarks (partOfIx t p) = quenchMarks (partOfIx s p)

theorem Sheds.refl (s : State) : Sheds s s := ⟨fun j hj => ⟨j, hj, rfl⟩, fun _ => rfl⟩

theorem Sheds.trans {s t u : State} (h : Sheds s t) (k : Sheds t u) : Sheds s u where
  jobs j hj := by
    obtain ⟨i, hi, hij⟩ := k.jobs j hj
    obtain ⟨m, hm, hmi⟩ := h.jobs i hi
    exact ⟨m, hm, hmi.trans hij⟩
  marks p := (k.marks p).trans (h.marks p)

theorem Sheds.foldl {α : Type} {f : State → α → State} (hf : ∀ s x, Sheds s (f s x)) (l : List α) (s : State) : Sheds s (l.foldl f s) := by
  induction l generalizing s with
  | nil => exact .refl s
  | cons x l ih => exact (hf s x).trans (ih _)

theorem Sheds.of_quenches {e : Ev} {s t : State} (h : Quenches e [] s t) : Sheds s t := ⟨h.jobs, fun p => h.others p (by simp)⟩

theorem Sheds.of_frame {ws : List Area} {s t : State} (h : Frame ws s t) (hjobs : Area.jobs ∉ ws := by decide) (hparts : Area.parts ∉ ws := by decide) :
    Sheds s t :=
  ⟨fun j hj => ⟨j, h .jobs hjobs ▸ hj, rfl⟩, h.partField hparts quenchMarks fun _ => rfl⟩

theorem updJob_sheds (id : Nat) {f : Job → Job} (s : State) (hf : ∀ j, (f j).part = j.part) : Sheds s (updJob id f s) :=
  .of_quenches (updJob_quenches 0 id f s hf)

theorem logJob_sheds (e : Ev) (j : Job) (a : Site) (unit detail : Nat) (skip : Bool) (s : State) : Sheds s (logJob e j a unit detail skip s) :=
  (Sheds.of_frame (logEvent_frame e (evJob j a unit detail skip) s)).trans (updJob_sheds _ _ fun _ => rfl)

theorem failOp_sheds (d : DieIx) (o : Op) (unit : Nat) (e : Ev) (s : State) : Sheds s (failOp d o unit e s) := by
  unfold failOp
  split
  · exact .refl s
  · exact (logJob_sheds ..).trans (.of_quenches (quenchJob_quenches 0 ..))

theorem failColls_sheds (f : Coll → Bool) (e : Ev) (s : State) : Sheds s (failColls f e s) := by
  refine .foldl (fun s d => .foldl (fun s o => ?_) _ s) _ s
  unfold failColl
  split
  · exact (Sheds.of_frame (collControl_frame _ _ _ _ _)).trans (failOp_sheds ..)
  · exact .refl s

theorem closeAll_sheds (ws : List Nat) (s : State) : Sheds s (closeAll ws s) := by
  refine .foldl (fun s w => ?_) _ s
  split
  · exact .refl s
  · exact (Sheds.of_frame (ws := [.fabric]) (t := updWindow w _ s) fields_frame).trans (failColls_sheds ..)

end Sys2Proof.Machine

namespace Sys2Proof.Machine

/-! ### Writes of the host (R485, R490) -/

/-- How a write is answered. -/
def answeredWrite (r : FpReq) (s : State) : Except Nat State → State
  | .ok u => answered r 0 u
  | .error e => answered r e s

/-- A write of the right width to an entry that the host may write is answered with what the object makes of it, its dies awake. -/
theorem serveReq_hostWrite {s : State} (x : Extra) {r : FpReq} {i k : Nat} {bs : List Byte} {o : ObjRow} (h : HostWrites s r i k bs)
    (hrow : objOf i k = some o) (hright : mayWrite .host i k = true) (htype : o.type ≠ 11) (haccess : 2 < o.access) (hlen : bs.length = o.len) :
    let w := (needsDies s true r).foldl (fun s d => wakeDie d s) s
    serveReq x r s = answeredWrite r w (writeObj x r.via .host (whoOf w r.via r.member) i k bs w) := by
  obtain ⟨hserved, ⟨hfw, hon⟩, hop, hi, hk, hdata⟩ := h
  intro w
  rw [serveReq_of_served x hserved, answerReq_write hon (.inl hfw) hop (by rw [hi, hk]; exact hrow) (by rw [hi, hk]; exact hright) htype haccess]
  simp only [writeReq, hdata, hlen, hi, hk, bne_self_eq_false, if_false, Bool.false_eq_true]
  change respond r (match writeObj x r.via .host (whoOf w r.via r.member) i k bs w with | .ok u => (Ans.only 0, u) | .error e => (Ans.only e, w)).1 _ = _
  cases writeObj x r.via .host (whoOf w r.via r.member) i k bs w <;> rfl

/-! ### Dies that wake -/

/-- The dies of `l` awake. -/
def awakened (l : List DieIx) (s : State) : State := l.foldl (fun s d => wakeDie d s) s

theorem awakened_frame (l : List DieIx) (s : State) : Frame [.dies] s (awakened l s) := .foldl (fun s d => wakeDie_frame d s) l s

theorem dieOf_awakened (l : List DieIx) (s : State) (d : DieIx) : { dieOf (awakened l s) d with idle := 0 } = { dieOf s d with idle := 0 } := by
  unfold awakened
  induction l generalizing s with
  | nil => rfl
  | cons e l ih => exact (ih (wakeDie e s)).trans (by rw [dieOf_wakeDie])

/-- What a die has but its idle state is as before. -/
theorem awakened_die {α : Type} (f : Die → α) (hf : ∀ x, f { x with idle := 0 } = f x) (l : List DieIx) (s : State) (d : DieIx) :
    f (dieOf (awakened l s) d) = f (dieOf s d) := by rw [← hf, dieOf_awakened, hf]

theorem awakened_rest (l : List DieIx) (s : State) : { awakened l s with dies := s.dies } = s := by
  unfold awakened
  induction l generalizing s with
  | nil => rfl
  | cons e l ih => exact (congrArg (fun u : State => { u with dies := s.dies }) (ih (wakeDie e s))).trans rfl

/-- What does not depend on the dies is as before. -/
theorem awakened_field {α : Type} (f : State → α) (hf : ∀ (t : State) (ds : Vector Die 16), f { t with dies := ds } = f t) (l : List DieIx) (s : State) :
    f (awakened l s) = f s := by
  rw [← hf (awakened l s) s.dies, awakened_rest]

theorem awakened_parts (l : List DieIx) (s : State) (p : PartIx) : partOfIx (awakened l s) p = partOfIx s p :=
  awakened_field (partOfIx · p) (fun _ _ => rfl) l s

theorem awakened_jobs (l : List DieIx) (s : State) : (awakened l s).jobs = s.jobs := awakened_field State.jobs (fun _ _ => rfl) l s

theorem ownedDies_awakened (l : List DieIx) (s : State) (p : PartIx) : ownedDies (awakened l s) p = ownedDies s p :=
  ownedDies_congr (awakened_die Die.owner (fun _ => rfl) l s) p

theorem ownerOk_awakened (l : List DieIx) (s : State) (p : PartIx) : ownerOk (awakened l s) p = ownerOk s p :=
  awakened_field (ownerOk · p) (fun _ _ => rfl) l s

/-! ### Partition commands (R498) -/

/-- A command that the host gives is begun with the partition's dies awake. -/
theorem serveReq_command {s : State} (x : Extra) {r : FpReq} {p : PartIx} {n : Nat} (h : HostWrites s r 0x5000 (0x21 + p.val) (leBytes 1 n))
    (hn : n < 256) :
    let w := awakened (ownedDies s p ++ namedDies (partOfIx s p)) s
    serveReq x r s = answeredWrite r w (partCommand p n .host x.slotHeld w) ∧ isCommand r n = true := by
  intro w
  have hp := p.isLt
  have hrow : objOf 0x5000 (0x21 + p.val) = some (numRow 0x5000 0x21 0x30 2 4) := by clear * -; decide +revert
  have hright : mayWrite .host 0x5000 (0x21 + p.val) = true := by clear * -; decide +revert
  have hix : ixOf (0x21 + p.val - 0x21) = p := by rw [Nat.add_sub_cancel_left]; exact dieBits_val p
  have hbyte : leNat (leBytes 1 n) = n := by rw [leNat_leBytes]; omega
  have hwrite := serveReq_hostWrite x h hrow hright (by decide) (by decide) (leBytes_length 1 n)
  obtain ⟨-, -, hop, hi, hk, hdata⟩ := h
  have hdies : needsDies s true r = ownedDies s p ++ namedDies (partOfIx s p) := by
    unfold needsDies
    rw [if_neg (by rw [hi]; decide), if_pos (by simp [hi, hk]; omega), hk, hix]
  refine ⟨?_, by simp [isCommand, hop, hi, hk, hdata, hbyte]; omega⟩
  rw [hwrite, hdies]
  change answeredWrite r w (writeObj x r.via .host (whoOf w r.via r.member) 0x5000 (0x21 + p.val) (leBytes 1 n) w) = _
  have hobj : writeObj x r.via .host (whoOf w r.via r.member) 0x5000 (0x21 + p.val) (leBytes 1 n) w =
      partCommand (ixOf (0x21 + p.val - 0x21)) (leNat (leBytes 1 n)) .host x.slotHeld w := by
    have hk : decide (0x21 + p.val ≤ 16) = false := by simp; omega
    simp [writeObj, write5, hk]
  rw [hobj, hix, hbyte]

section

variable {s : State} {r : FpReq} {p : PartIx}

/-- The state in which the dies that a command on `p` needs are awake. -/
def commanded (s : State) (p : PartIx) : State := awakened (ownedDies s p ++ namedDies (partOfIx s p)) s

theorem commanded_ready (hready : s.boot.phase = .ready) : ((commanded s p).boot.phase != .ready) = false := by
  rw [commanded, awakened_field State.boot fun _ _ => rfl, hready]
  rfl

theorem exec_create {held : Bool} (h : HostWrites s r 0x5000 (0x21 + p.val) (leBytes 1 1)) (hready : s.boot.phase = .ready) :
    exec (.create r held) s = .next (answeredWrite r (commanded s p) (startCreate p held (commanded s p))) := by
  obtain ⟨hserve, hcommand⟩ := serveReq_command { Extra.plain with slotHeld := held } h (by decide)
  change execCreate r held s = _
  rw [execCreate, if_pos hcommand, hserve]
  simp [partCommand, ← commanded.eq_1, commanded_ready hready]

theorem exec_start (h : HostWrites s r 0x5000 (0x21 + p.val) (leBytes 1 2)) (hready : s.boot.phase = .ready) :
    exec (.start r) s = .next (answeredWrite r (commanded s p) (startStart p (commanded s p))) := by
  obtain ⟨hserve, hcommand⟩ := serveReq_command .plain h (by decide)
  change execStart r s = _
  rw [execStart, if_pos hcommand, hserve]
  simp [partCommand, ← commanded.eq_1, commanded_ready hready]

theorem exec_stop (h : HostWrites s r 0x5000 (0x21 + p.val) (leBytes 1 3)) (hready : s.boot.phase = .ready) :
    exec (.stop r) s = .next (answeredWrite r (commanded s p) (startStop p (commanded s p))) := by
  obtain ⟨hserve, hcommand⟩ := serveReq_command .plain h (by decide)
  change execStop r s = _
  rw [execStop, if_pos hcommand, hserve]
  simp [partCommand, ← commanded.eq_1, commanded_ready hready]

theorem exec_coldStop (h : HostWrites s r 0x5000 (0x21 + p.val) (leBytes 1 4)) (hready : s.boot.phase = .ready) :
    exec (.coldStop r) s = .next (answeredWrite r (commanded s p) (startColdStop p (commanded s p))) := by
  obtain ⟨hserve, hcommand⟩ := serveReq_command .plain h (by decide)
  change execColdStop r s = _
  rw [execColdStop, if_pos hcommand, hserve]
  simp [partCommand, ← commanded.eq_1, commanded_ready hready]

theorem exec_destroy (h : HostWrites s r 0x5000 (0x21 + p.val) (leBytes 1 5)) (hready : s.boot.phase = .ready) :
    exec (.destroy r) s = .next (answeredWrite r (commanded s p) (startDestroy p (commanded s p))) := by
  obtain ⟨hserve, hcommand⟩ := serveReq_command .plain h (by decide)
  change execDestroy r s = _
  rw [execDestroy, if_pos hcommand, hserve]
  simp [partCommand, ← commanded.eq_1, commanded_ready hready]

end

/-- CREATE as it begins: the named dies are cleared and assigned (R498). -/
def createBegun (p : PartIx) (s : State) : State :=
  beginCommand p .create ((namedDies (partOfIx s p)).foldl (fun s d => updDie d (assignDie p) s) s)

theorem createBegun_spec (s : State) (p : PartIx) :
    let u := createBegun p s
    partOfIx u p = { partOfIx s p with state := .changing, command := some .create } ∧ (∀ k, k ≠ p → partOfIx u k = partOfIx s k) ∧
    (∀ d, dieOf u d = if d ∈ namedDies (partOfIx s p) then assignDie p (dieOf s d) else dieOf s d) ∧ u.fabric = s.fabric ∧
    Frame [.dies, .counters, .parts] s u := by
  intro u
  generalize hds : namedDies (partOfIx s p) = ds
  have hnodup : ds.Nodup := hds ▸ (List.nodup_finRange 16).filter _
  generalize ht : ds.foldl (fun s d => updDie d (assignDie p) s) s = t
  have hu : u = beginCommand p .create t := by rw [← ht, ← hds]; rfl
  have hf : Frame [.dies, .counters] s t := ht ▸ .foldl (fun s d => updDie_frame d _ s) _ _
  have hpart : ∀ k, partOfIx t k = partOfIx s k := by
    intro k
    rw [← ht]
    clear * -
    induction ds generalizing s with
    | nil => rfl
    | cons d ds ih => exact (ih _).trans rfl
  have hdie : ∀ d, dieOf t d = if d ∈ ds then assignDie p (dieOf s d) else dieOf s d := by
    rw [← ht]
    exact dieOf_foldl_updDie (fun _ => assignDie p) hnodup s
  have hlog : Frame [.parts] t u := hu ▸ updPart_frame_parts p _ t rfl
  refine ⟨?_, fun k hk => ?_, fun d => ?_, ?_, (hf.then hlog).mono (by decide)⟩
  · rw [hu, beginCommand, partOfIx_updPart_self, hpart]
  · rw [hu, beginCommand, partOfIx_updPart_ne _ _ hk, hpart]
  · rw [hu]; exact hdie d
  · rw [hlog .fabric (by decide)]; exact hf .fabric (by decide)

theorem registerMember_local {s : State} {p : PartIx} (h : (partOfIx s p).memberSlot = 0) : registerMember p s = s := by
  simp [registerMember, gatewayOf, h]

/-- What registration of a begun member says, and where it goes (R397). -/
theorem registerMember_begun {s u : State} {p : PartIx}
    (hpart : partOfIx u p = { partOfIx s p with state := .changing, command := some .create }) (hfabric : u.fabric = s.fabric)
    (hmember : (partOfIx s p).memberSlot ≠ 0) :
    registerMember p u = sendMsg .mgmt ((namedDies (partOfIx s p)).headD 0) (partOfIx s p).ownerPart 0 (fun v => .registration v (registrationOf s p)) u := by
  have hgateway : gatewayOf u p = some ((partOfIx s p).ownerPart, registrationOf s p) := by
    unfold gatewayOf
    rw [hpart, hfabric]
    exact if_neg hmember
  unfold registerMember
  rw [hgateway, hpart]
  rfl

/-- What a cold stop clears (R498). -/
theorem coldClear_spec (p : PartIx) (s : State) :
    let u := coldClear p s
    Sheds s u ∧ ((partOfIx u p).chains = [] ∧ (partOfIx u p).sessions = [] ∧ (partOfIx u p).tempers = [] ∧ (partOfIx u p).programs = [] ∧
      (partOfIx u p).keysets = [] ∧ (partOfIx u p).importKey = none) ∧
    ∀ d, (dieOf s d).owner = some p → ∃ x, dieOf u d = clearDie x := by
  intro u
  generalize hws : (s.fabric.windows.filter fun w => w.2.opened && w.2.part == p.val).map (·.1) = ws
  generalize ha : zeroPartSecrets p (closeAll ws s) = a
  generalize hds : ownedDies s p = ds
  generalize hb : updTwin (fun t => { t with mirrors := t.mirrors.filter (·.part != p), refetches := t.refetches.filter (·.1 != p) })
    { a with hostA := clearApertures ds a.hostA, hostB := clearApertures ds a.hostB } = b
  generalize hc : ds.foldl (fun s d => updDie d clearDie s) b = c
  have hu : u = updPart p (fun x => { x with chains := [], tempers := [], sessions := [], programs := [], keysets := [], imports := [], importKey := none }) c := by
    simp only [u, coldClear, hws, ha, hds, hb, hc]
  have hnodup : ds.Nodup := hds ▸ ownedDies_nodup s p
  have hdies : ∀ d, dieOf c d = if d ∈ ds then clearDie (dieOf b d) else dieOf b d := by
    rw [← hc]
    exact dieOf_foldl_updDie (fun _ => clearDie) hnodup b
  have hfold : Frame [.dies, .counters] b c := hc ▸ .foldl (fun s d => updDie_frame d _ s) _ _
  have hab : Sheds a b := ⟨fun j hj => ⟨j, by rw [← hb] at hj; exact hj, rfl⟩, fun k => by rw [← hb]; rfl⟩
  have hcu : Sheds c u := ⟨fun j hj => ⟨j, by rw [hu] at hj; exact hj, rfl⟩, fun k => by
    rw [hu]
    by_cases hk : k = p
    · subst hk; rw [partOfIx_updPart_self]; rfl
    · rw [partOfIx_updPart_ne _ _ hk]⟩
  have hsa : Sheds s a := (closeAll_sheds ws s).trans (ha ▸ .of_quenches (e := 0) (.of_still (still_zeroPartSecrets p _)))
  refine ⟨((hsa.trans hab).trans (.of_frame hfold)).trans hcu, ?_, fun d hd => ⟨dieOf b d, ?_⟩⟩
  · rw [hu, partOfIx_updPart_self]; exact ⟨rfl, rfl, rfl, rfl, rfl, rfl⟩
  · rw [hu]
    change dieOf c d = _
    rw [hdies, if_pos (hds ▸ mem_ownedDies.2 hd)]

/-- A quench zeroises the partition's import key (R460). -/
theorem quenchPartition_importKey (p : PartIx) (e : Ev) (restart : Bool) (s : State) : (partOfIx (quenchPartition p e restart s) p).importKey = none := by
  unfold quenchPartition
  extract_lets ds old s₁ s₂ s₃ s₄ s₅ s₆ s₇
  have hfold : ∀ t, (partOfIx (ds.foldl (fun s d => updDie d (fun x => { x with flags := [] }) s) t) p).importKey = (partOfIx t p).importKey := by
    intro t
    induction ds generalizing t with
    | nil => rfl
    | cons d ds ih => exact (ih _).trans rfl
  rw [finishEvictions, partOfIx_updPart_self]
  refine (hfold s₇).trans ?_
  simp only [s₇, zeroPartSecrets]
  rw [partOfIx_updPart_self]

/-- What the quench of a partition does to the partition and its queues (R460). -/
theorem quenchPartition_spec (p : PartIx) (e : Ev) (restart : Bool) (s : State) :
    let u := quenchPartition p e restart s
    (∀ j ∈ u.jobs, j.part ≠ p) ∧ (partOfIx u p).quenchCount = (partOfIx s p).quenchCount + 1 ∧ (partOfIx u p).quenchEvent = e.toNat ∧
    ((partOfIx s p).quenching = none → (partOfIx u p).quenching = some (e, restart)) ∧ (∀ d, (dieOf u d).owner = (dieOf s d).owner) ∧
    ∀ d q, (dieOf s d).owner = some p → (queueOf u d q).quenched = true := by
  intro u
  have hquenches := quenchPartition_quenches p e restart s
  obtain ⟨-, hparts, howner, hqueue, -⟩ := calm_eq (calm_quenchPartition p e restart s)
  obtain ⟨mqueue, mowner, -, mself, -⟩ := quenchMarked_spec p e restart s
  obtain ⟨-, hquenching, hevent, hcount⟩ := quenchMarks_eq_iff.1 (hparts p)
  rw [mself] at hquenching hevent hcount
  refine ⟨fun j hj => by simpa using hquenches.ended j hj, hcount, hevent, fun hnone => ?_, fun d => (howner d).trans (mowner d), fun d q hown => ?_⟩
  · rw [hquenching, hnone]; simp
  · have h := congrArg Queue.quenched ((hqueue d q).trans (by rw [mqueue d q, if_pos hown]))
    exact h

theorem beginCommand_self (p : PartIx) (c : PCmd) (s : State) :
    partOfIx (beginCommand p c s) p = { partOfIx s p with state := .changing, command := some c } := partOfIx_updPart_self _ _ _

theorem execPartitionCommandComplete_none {s : State} {p : PartIx} (hnone : (partOfIx s p).command = none) :
    exec (.partitionCommandComplete p) s = .next s := by
  change execPartitionCommandComplete p s = _
  unfold execPartitionCommandComplete
  rw [hnone]
  split <;> rfl

theorem execPartitionCommandComplete_held {s : State} {p : PartIx} (h : (partOfIx s p).quenching ≠ none) :
    exec (.partitionCommandComplete p) s = .next s := by
  change execPartitionCommandComplete p s = _
  unfold execPartitionCommandComplete
  rw [if_pos (by simp [Option.isSome_iff_ne_none.2 h])]

/-- The state in which a command ends (R498). -/
def commandEnded (p : PartIx) (s : State) : PCmd → State
  | .start => settleDies (ownedDies s p) (endCommand p .running s)
  | .destroy => endCommand p .free (releaseDies p s)
  | _ => endCommand p .stopped s

/-- A command that no quench holds ends in its state. -/
theorem execPartitionCommandComplete_ends {s : State} {p : PartIx} {c : PCmd} (hon : s.alarm.device = false) (hquench : (partOfIx s p).quenching = none)
    (hc : (partOfIx s p).command = some c) :
    exec (.partitionCommandComplete p) s = .next (commandEnded p s c) := by
  change execPartitionCommandComplete p s = _
  unfold execPartitionCommandComplete
  rw [if_neg (by simp [hon, hquench]), hc]
  cases c <;> rfl

theorem endCommand_spec (p : PartIx) (st : PState) (s : State) :
    let u := endCommand p st s
    partOfIx u p = { partOfIx s p with state := st, command := none } ∧ (∀ k, k ≠ p → partOfIx u k = partOfIx s k) ∧ Frame [.parts] s u :=
  ⟨partOfIx_updPart_self _ _ _, fun _ hk => partOfIx_updPart_ne _ _ hk, updPart_frame_parts p _ s rfl⟩

theorem releaseDies_spec (p : PartIx) (s : State) :
    let u := releaseDies p s
    (∀ d, (dieOf s d).owner = some p → (dieOf u d).owner = none) ∧ (∀ d, (dieOf s d).owner ≠ some p → dieOf u d = dieOf s d) ∧
    u.parts = s.parts ∧ Frame [.dies] s u := by
  intro u
  have hdie : ∀ d, dieOf u d = if d ∈ ownedDies s p then { dieOf s d with owner := none } else dieOf s d :=
    dieOf_foldl_updDie (fun _ x => { x with owner := none }) (ownedDies_nodup s p) s
  refine ⟨fun d hd => ?_, fun d hd => ?_, ?_, .foldl (fun s d => updDie_frame_dies d _ s rfl) _ s⟩
  · rw [hdie, if_pos (mem_ownedDies.2 hd)]
  · rw [hdie, if_neg (mt mem_ownedDies.1 hd)]
  · have hf : Frame [.dies] s u := .foldl (fun s d => updDie_frame_dies d _ s rfl) _ s
    have : ∀ l t, (List.foldl (fun s d => updDie d (fun x => { x with owner := none }) s) t l).parts = t.parts := fun l => by
      induction l with
      | nil => intro t; rfl
      | cons d l ih => intro t; exact (ih _).trans rfl
    exact this _ s

/-! ### Quenches that the host asks for (R460, R463) -/

/-- A quench that the host asks for is answered, the partition's dies awake. -/
theorem serveReq_quench {s : State} {r : FpReq} {p : PartIx} {k : Nat} (h : HostWrites s r 0x6100 k (leBytes 1 p.val)) (hk : k = 4 ∨ k = 5) :
    let w := awakened (ownedDies s p) s
    serveReq .plain r s = answeredWrite r w (if (partOfIx s p).state = .free then .error 7 else .ok (quenchPartition p 0 (k == 5) w)) := by
  intro w
  have hp := p.isLt
  have hbyte : leNat (leBytes 1 p.val) = p.val := by rw [leNat_leBytes]; omega
  have hix : ixOf p.val = p := dieBits_val p
  obtain ⟨o, hrow, htype, haccess, hlen⟩ : ∃ o, objOf 0x6100 k = some o ∧ o.type ≠ 11 ∧ 2 < o.access ∧ o.len = 1 := by
    rcases hk with rfl | rfl
    · exact ⟨_, rfl, by decide, by decide, by decide⟩
    · exact ⟨_, rfl, by decide, by decide, by decide⟩
  have hwrite := serveReq_hostWrite .plain h hrow (by rcases hk with rfl | rfl <;> decide) htype haccess (by rw [leBytes_length, hlen])
  obtain ⟨-, -, hop, hi, hsub, hdata⟩ := h
  have hdies : needsDies s true r = ownedDies s p := by
    unfold needsDies
    rcases hk with rfl | rfl <;> simp [hi, hsub, hdata, hbyte, hix]
  rw [hwrite, hdies]
  have hobj : writeObj .plain r.via .host (whoOf w r.via r.member) 0x6100 k (leBytes 1 p.val) w = writeQuench .host (k == 5) p.val w := by
    rcases hk with rfl | rfl <;> simp [writeObj, write6, hbyte]
  change answeredWrite r w (writeObj .plain r.via .host (whoOf w r.via r.member) 0x6100 k (leBytes 1 p.val) w) = _
  have hrange : ¬ 15 < p.val := by omega
  rw [hobj]
  simp [writeQuench, hrange, hix, w, awakened_parts]

theorem exec_quenchPartition {s : State} {r : FpReq} {p : PartIx} (h : HostWrites s r 0x6100 4 (leBytes 1 p.val)) :
    exec (.quenchPartition r) s = .next (answeredWrite r (awakened (ownedDies s p) s)
      (if (partOfIx s p).state = .free then .error 7 else .ok (quenchPartition p 0 false (awakened (ownedDies s p) s)))) := by
  change execQuenchPartition r s = _
  obtain ⟨-, -, hop, hi, hsub, -⟩ := id h
  rw [execQuenchPartition, if_pos (by simp [isWrite, hop, hi, hsub]), serveReq_quench h (.inl rfl)]
  rfl

theorem exec_restartQueues {s : State} {r : FpReq} {p : PartIx} (h : HostWrites s r 0x6100 5 (leBytes 1 p.val)) :
    exec (.restartQueues r) s = .next (answeredWrite r (awakened (ownedDies s p) s)
      (if (partOfIx s p).state = .free then .error 7 else .ok (quenchPartition p 0 true (awakened (ownedDies s p) s)))) := by
  change execRestartQueues r s = _
  obtain ⟨-, -, hop, hi, hsub, -⟩ := id h
  rw [execRestartQueues, if_pos (by simp [isWrite, hop, hi, hsub]), serveReq_quench h (.inr rfl)]
  rfl

/-! ### The checks of a command, and what it begins -/

section

variable {s : State} {p : PartIx}

theorem startCreate_taken {held : Bool} (h : (partOfIx s p).state ≠ .free) : startCreate p held s = .error 7 := by
  simp [startCreate, h]

theorem startCreate_unsound {held : Bool} (hfree : (partOfIx s p).state = .free)
    (h : namedDies (partOfIx s p) = [] ∨ sharesOk (partOfIx s p).entry = false ∨ ownerOk s p = false) : startCreate p held s = .error 5 := by
  rcases h with h | h | h <;> simp [startCreate, hfree, h]

variable (hfree : (partOfIx s p).state = .free) (hnamed : namedDies (partOfIx s p) ≠ []) (hactive : ∀ d ∈ namedDies (partOfIx s p), dieActive s d = true)
  (hshares : sharesOk (partOfIx s p).entry = true) (howner : ownerOk s p = true)
include hfree hnamed hactive hshares howner

theorem startCreate_busy {held : Bool}
    (h : (∃ d ∈ namedDies (partOfIx s p), (dieOf s d).owner ≠ none) ∨ ((partOfIx s p).memberSlot ≠ 0 ∧ held = true)) :
    startCreate p held s = .error 7 := by
  have hall : (namedDies (partOfIx s p)).all (dieActive s) = true := List.all_eq_true.2 hactive
  have hbusy : ((namedDies (partOfIx s p)).any (fun d => (dieOf s d).owner.isSome) || ((partOfIx s p).memberSlot != 0 && held)) = true := by
    rcases h with ⟨d, hd, howned⟩ | ⟨hslot, hheld⟩
    · simp only [Bool.or_eq_true, List.any_eq_true]
      exact .inl ⟨d, hd, Option.isSome_iff_ne_none.2 howned⟩
    · simp [hslot, hheld]
  simp only [startCreate, hall, hshares, howner, hfree, hbusy]
  simp [hnamed]

theorem startCreate_begins {held : Bool} (hunowned : ∀ d ∈ namedDies (partOfIx s p), (dieOf s d).owner = none)
    (hslot : (partOfIx s p).memberSlot = 0 ∨ held = false) : startCreate p held s = .ok (registerMember p (createBegun p s)) := by
  have hall : (namedDies (partOfIx s p)).all (dieActive s) = true := List.all_eq_true.2 hactive
  have hidle : ((namedDies (partOfIx s p)).any (fun d => (dieOf s d).owner.isSome) || ((partOfIx s p).memberSlot != 0 && held)) = false := by
    rw [Bool.or_eq_false_iff]
    refine ⟨List.any_eq_false.2 fun d hd => by simp [hunowned d hd], ?_⟩
    rcases hslot with h | h <;> simp [h]
  simp only [startCreate, hall, hshares, howner, hfree, hidle]
  simp [hnamed, createBegun]

end

theorem startColdStop_refused {s : State} {p : PartIx} (h : (partOfIx s p).state = .free ∨ (partOfIx s p).state = .changing) :
    startColdStop p s = .error 7 := by
  unfold startColdStop
  rcases h with h | h <;> rw [h]

theorem startColdStop_stopped {s : State} {p : PartIx} (h : (partOfIx s p).state = .stopped) :
    startColdStop p s = .ok (beginCommand p .coldStop (coldClear p s)) := by
  unfold startColdStop
  rw [h]

theorem startColdStop_running {s : State} {p : PartIx} (h : (partOfIx s p).state = .running) :
    startColdStop p s = .ok (beginCommand p .coldStop (coldClear p (quenchPartition p 0 false s))) := by
  unfold startColdStop
  rw [h]

/-- What a partition and its dies have lost after a cold stop (R498). -/
structure Cleared (p : PartIx) (s u : State) : Prop where
  tables : (partOfIx u p).chains = [] ∧ (partOfIx u p).sessions = [] ∧ (partOfIx u p).tempers = [] ∧ (partOfIx u p).programs = [] ∧
    (partOfIx u p).keysets = [] ∧ (partOfIx u p).importKey = none
  dies : ∀ d, (dieOf s d).owner = some p → (dieOf u d).handles = [] ∧ (dieOf u d).scratch = [] ∧ (dieOf u d).storeHandles = [] ∧
    (dieOf u d).rings = [] ∧ (dieOf u d).tiles = [] ∧ (dieOf u d).drbgOn = false

/-- A command that clears its partition, as it begins. -/
theorem coldBegun_spec {s : State} (p : PartIx) (c : PCmd) {v : State} (howner : ∀ d, (dieOf v d).owner = (dieOf s d).owner) :
    let u := beginCommand p c (coldClear p v)
    (partOfIx u p).state = .changing ∧ (partOfIx u p).command = some c ∧ Cleared p s u ∧ Sheds v (coldClear p v) ∧
    (partOfIx u p).quenchCount = (partOfIx v p).quenchCount := by
  intro u
  obtain ⟨hsheds, htables, hdies⟩ := coldClear_spec p v
  have hpart : partOfIx u p = _ := beginCommand_self p c (coldClear p v)
  obtain ⟨-, -, -, hcount⟩ := quenchMarks_eq_iff.1 (hsheds.marks p)
  rw [hpart]
  refine ⟨rfl, rfl, ⟨by rw [hpart]; exact htables, fun d hd => ?_⟩, hsheds, hcount⟩
  obtain ⟨x, hx⟩ := hdies d ((howner d).trans hd)
  rw [show dieOf u d = dieOf (coldClear p v) d from rfl, hx]
  exact ⟨rfl, rfl, rfl, rfl, rfl, rfl⟩

/-- Settles O55: each command is refused or begins by R498, what a quench and a cold stop clear, and how a command ends. -/
theorem partitionCommands : Obligations.PartitionCommands := by
  unfold Obligations.PartitionCommands
  intro s p
  dsimp only
  generalize hw : (ownedDies s p ++ namedDies (partOfIx s p)).foldl (fun s d => wakeDie d s) s = w
  have hcommanded : commanded s p = w := hw
  have hwpart : ∀ k, partOfIx w k = partOfIx s k := hw ▸ awakened_parts _ s
  have hwowner : ∀ d, (dieOf w d).owner = (dieOf s d).owner := hw ▸ awakened_die Die.owner (fun _ => rfl) _ s
  have hwok : ownerOk w p = ownerOk s p := hw ▸ ownerOk_awakened _ s p
  have hwframe : Frame [.dies] s w := hw ▸ awakened_frame _ s
  have hwactive : ∀ d, dieActive w d = dieActive s d := fun d => hw ▸ awakened_field (dieActive · d) (fun _ _ => rfl) _ s
  have hwidle : ∀ d, { dieOf w d with idle := 0 } = { dieOf s d with idle := 0 } := hw ▸ dieOf_awakened _ s
  refine ⟨fun r held h hready => ?create, fun r h hready => ?start, fun r h hready => ?stop, fun r h hready => ?coldStop, fun r h hready => ?destroy,
    fun hon hquench => ⟨execPartitionCommandComplete_none, fun c hc hkind => ?ends, fun hc => ?started, fun hc => ?destroyed⟩,
    execPartitionCommandComplete_held, fun r h => ?quench, fun r h hstate hquench => ?restart⟩
  case create =>
    have hexec := exec_create (held := held) h hready
    rw [hcommanded] at hexec
    refine ⟨fun hstate => ?_, fun hstate hbad => ?_, fun hstate hnamed hactive hshares howner => ?_⟩
    · rw [hexec, startCreate_taken (by rwa [hwpart])]; rfl
    · rw [hexec, startCreate_unsound (by rwa [hwpart]) (by rwa [hwpart, hwok])]; rfl
    · have hstate' : (partOfIx w p).state = .free := by rwa [hwpart]
      have hnamed' : namedDies (partOfIx w p) ≠ [] := by rwa [hwpart]
      have hactive' : ∀ d ∈ namedDies (partOfIx w p), dieActive w d = true := by
        rw [hwpart]
        exact fun d hd => (hwactive d).trans (hactive d hd)
      have hshares' : sharesOk (partOfIx w p).entry = true := by rwa [hwpart]
      have howner' : ownerOk w p = true := hwok.trans howner
      refine ⟨fun hbusy => ?_, fun hunowned hslot => ?_⟩
      · rw [hexec, startCreate_busy hstate' hnamed' hactive' hshares' howner' (by simpa only [hwpart, hwowner] using hbusy)]; rfl
      · rw [startCreate_begins hstate' hnamed' hactive' hshares' howner' (by simpa only [hwpart, hwowner] using hunowned) (by rwa [hwpart])] at hexec
        obtain ⟨hself, hothers, hdies, hfabric, hframe⟩ := createBegun_spec w p
        rw [hwpart] at hself hdies
        refine ⟨createBegun p w, hexec, fun hlocal => registerMember_local (by rw [hself]; exact hlocal), fun hmember => ?_, hself,
          fun k hk => (hothers k hk).trans (hwpart k), fun d hd => ?_, fun d hd => ?_, (hwframe.then hframe).mono (by decide)⟩
        · exact registerMember_begun hself (hfabric.trans (hwframe .fabric (by decide))) hmember
        · rw [hdies, if_pos hd]
        · rw [hdies, if_neg hd]
  case start =>
    have hexec := exec_start h hready
    rw [hcommanded] at hexec
    refine ⟨fun hstate => ?_, fun hstate hshares howner => ?_⟩
    · rw [hexec, startStart, if_pos (by simpa [hwpart] using hstate)]; rfl
    · have hstart : startStart p w = .ok (beginCommand p .start w) := by simp [startStart, hwpart, hstate, hshares, hwok, howner]
      rw [hstart] at hexec
      refine ⟨_, hexec, ?_, fun k hk => ?_, hwidle, (hwframe.then (updPart_frame_parts p _ w rfl)).mono (by decide)⟩
      · rw [beginCommand_self, hwpart]
      · exact (partOfIx_updPart_ne _ _ hk).trans (hwpart k)
  case stop =>
    have hexec := exec_stop h hready
    rw [hcommanded] at hexec
    refine ⟨fun hstate => ?_, fun hstate => ?_⟩
    · rw [hexec, startStop, if_pos (by simpa [hwpart] using hstate)]; rfl
    · rw [startStop, if_neg (by simp [hwpart, hstate])] at hexec
      obtain ⟨hjobs, hcount, -, -, -, hqueues⟩ := quenchPartition_spec p 0 false w
      refine ⟨_, hexec, ?_, hjobs, ?_, ?_, fun d q hd => hqueues d q ((hwowner d).trans hd)⟩
      · rw [beginCommand_self]; exact ⟨rfl, rfl⟩
      · rw [beginCommand_self, ← hwpart p]; exact hcount
      · rw [beginCommand_self]; exact quenchPartition_importKey p 0 false w
  case coldStop =>
    have hexec := exec_coldStop h hready
    rw [hcommanded] at hexec
    refine ⟨fun hstate => ?_, fun hstate => ?_, fun hstate => ?_⟩
    · rw [hexec, startColdStop_refused (by simpa [hwpart] using hstate)]; rfl
    · rw [startColdStop_stopped (by rwa [hwpart])] at hexec
      obtain ⟨hchanging, hcommand, ⟨⟨hchains, hsessions, htempers, hprograms, hkeysets, hkey⟩, hdies⟩, -, hcount⟩ :=
        coldBegun_spec (s := s) p .coldStop hwowner
      exact ⟨_, hexec, ⟨hchanging, hcommand⟩, ⟨hchains, hsessions, htempers, hprograms, hkeysets, hkey, hdies⟩, by rw [hcount, hwpart]⟩
    · rw [startColdStop_running (by rwa [hwpart])] at hexec
      obtain ⟨hjobs, hquenched, -, -, howner, -⟩ := quenchPartition_spec p 0 false w
      obtain ⟨hchanging, hcommand, ⟨⟨hchains, hsessions, htempers, hprograms, hkeysets, hkey⟩, hdies⟩, hsheds, hcount⟩ :=
        coldBegun_spec (s := s) p .coldStop (v := quenchPartition p 0 false w) fun d => (howner d).trans (hwowner d)
      refine ⟨_, hexec, ⟨hchanging, hcommand⟩, ⟨hchains, hsessions, htempers, hprograms, hkeysets, hkey, hdies⟩, fun j hj => ?_, by
        rw [hcount, hquenched, hwpart]⟩
      obtain ⟨k, hk, hkj⟩ := hsheds.jobs j hj
      exact hkj ▸ hjobs k hk
  case destroy =>
    have hexec := exec_destroy h hready
    rw [hcommanded] at hexec
    refine ⟨fun hstate => ?_, fun hstate => ?_⟩
    · rw [hexec, startDestroy, if_pos (by simpa [hwpart] using hstate)]; rfl
    · rw [startDestroy, if_neg (by simp [hwpart, hstate])] at hexec
      obtain ⟨hchanging, hcommand, ⟨⟨hchains, hsessions, htempers, hprograms, hkeysets, hkey⟩, hdies⟩, -⟩ := coldBegun_spec (s := s) p .destroy hwowner
      exact ⟨_, hexec, ⟨hchanging, hcommand⟩, hchains, hsessions, htempers, hprograms, hkeysets, hkey, hdies⟩
  case ends =>
    rw [execPartitionCommandComplete_ends hon hquench hc]
    rcases hkind with rfl | rfl | rfl <;> exact ⟨_, rfl, endCommand_spec p .stopped s⟩
  case started =>
    rw [execPartitionCommandComplete_ends hon hquench hc]
    exact ⟨_, rfl, endCommand_spec p .running s⟩
  case destroyed =>
    rw [execPartitionCommandComplete_ends hon hquench hc]
    obtain ⟨hreleased, hkept, hparts, hframe⟩ := releaseDies_spec p s
    have hpart : ∀ k, partOfIx (releaseDies p s) k = partOfIx s k := fun k => congrArg (fun v : Vector Partition 16 => v[k.val]) hparts
    obtain ⟨hself, -, hend⟩ := endCommand_spec p .free (releaseDies p s)
    exact ⟨_, rfl, hself.trans (by rw [hpart]), hreleased, hkept, (hframe.then hend).mono (by decide)⟩
  case quench =>
    have hexec := exec_quenchPartition h
    refine ⟨fun hstate => ?_, fun hstate hquench => ?_⟩
    · rw [hexec, if_pos hstate]; rfl
    · rw [if_neg hstate] at hexec
      obtain ⟨hjobs, hcount, hevent, hquenching, -⟩ := quenchPartition_spec p 0 false (awakened (ownedDies s p) s)
      rw [awakened_parts] at hcount hquenching
      exact ⟨_, hexec, hquenching hquench, hcount, hevent, hjobs⟩
  case restart =>
    have hexec := exec_restartQueues h
    rw [if_neg hstate] at hexec
    obtain ⟨hjobs, hcount, -, hquenching, -⟩ := quenchPartition_spec p 0 true (awakened (ownedDies s p) s)
    rw [awakened_parts] at hcount hquenching
    exact ⟨_, hexec, hquenching hquench, hcount, hjobs⟩

end Sys2Proof.Machine

namespace Sys2Proof.Machine

/-! ### Changes of one port -/

/-- Port `n` holds `x`, and the others what they held. -/
def PortBecomes (n : PortIx) (x : Port) (s t : State) : Prop := portOf t n = x ∧ ∀ k, k ≠ n → portOf t k = portOf s k

theorem updPort_becomes (n : PortIx) (f : Port → Port) (s : State) : PortBecomes n (f (portOf s n)) s (updPort n f s) :=
  ⟨portOf_updPort_self _ _ _, fun _ hk => portOf_updPort_ne _ _ hk⟩

theorem PortBecomes.trans {n : PortIx} {x y : Port} {s t u : State} (h : PortBecomes n x s t) (k : PortBecomes n y t u) : PortBecomes n y s u :=
  ⟨k.1, fun m hm => (k.2 m hm).trans (h.2 m hm)⟩

theorem PortBecomes.of_frame {ws : List Area} {n : PortIx} {x : Port} {s t u : State} (h : PortBecomes n x s t) (k : Frame ws t u)
    (hports : Area.ports ∉ ws := by decide) : PortBecomes n x s u := by
  have heq : u.ports = t.ports := k .ports hports
  refine ⟨?_, fun m hm => ?_⟩
  · rw [portOf, heq]; exact h.1
  · rw [portOf, heq]; exact h.2 m hm

theorem emitAll_frame {α : Type} (f : α → Output) (l : List α) (s : State) : Frame [.out] s (l.foldl (fun s x => emit (f x) s) s) :=
  .foldl (fun s x => emit_frame (f x) s) l s

theorem emitAll_out {α : Type} (f : α → Output) (l : List α) (s : State) : (l.foldl (fun s x => emit (f x) s) s).out = s.out ++ l.map f := by
  induction l generalizing s with
  | nil => simp
  | cons x l ih => rw [List.foldl_cons, ih]; simp [emit]

/-! ### A port goes down (R345) -/

/-- A port as it goes down. -/
def downPort (failed : Bool) (p : Port) : Port :=
  dropKeys { p with
    state := .down, replay := [], sendQ := [], assembly := [], retrying := false, retries := 0, downCount := p.downCount + 1
    keyState := if failed then .failed else .off }

/-- The event of a port with its state (R345). -/
theorem logPort_logged (n : PortIx) (st : Nat) (s : State) : Logged 0x0505 (evAt n none 9 (n.val + 16 * st)) s (logPort n st s) := logEvent_logged ..

theorem logPort_frame (n : PortIx) (st : Nat) (s : State) : Frame logAreas s (logPort n st s) := logEvent_frame _ _ _

/-- A change of a port and its event. -/
theorem portLogged (n : PortIx) (f : Port → Port) (st : Nat) (s : State) :
    let t := logPort n st (updPort n f s)
    Logged 0x0505 (evAt n none 9 (n.val + 16 * st)) s t ∧ PortBecomes n (f (portOf s n)) s t ∧ Frame (.ports :: logAreas) s t :=
  ⟨logPort_logged n st (updPort n f s), (updPort_becomes n f s).of_frame (logPort_frame n st _),
    ((updPort_frame n f s).then (logPort_frame n st _)).mono (by decide)⟩

/-- A port that has gone down, its event logged, before imports that waited for the twin commit. -/
def downed (n : PortIx) (failed : Bool) (s : State) : State := logPort n 0 (updPort n (downPort failed) s)

theorem takeDown_eq (n : PortIx) (failed : Bool) (s : State) : takeDown n failed s = unsealTwin n (downed n failed s) := rfl

theorem downed_spec (n : PortIx) (failed : Bool) (s : State) :
    let t := downed n failed s
    Logged 0x0505 (evAt n none 9 n.val) s t ∧ PortBecomes n (downPort failed (portOf s n)) s t ∧ Frame (.ports :: logAreas) s t :=
  portLogged n (downPort failed) 0 s

theorem unsealTwin_other {n : PortIx} {s : State} (h : s.twin.port ≠ n.val) : unsealTwin n s = s := if_neg h

/-! ### Flits (R342 to R344) -/

section

variable {s : State} {n : PortIx} (hup : (portOf s n).state = .up) (hon : s.alarm.device = false)

/-- A flit as R342 sends it. -/
def soundFlit (f : Flit) : Prop := f.fecOk = true ∧ f.reserved = 0 ∧ f.crc = flitCrc f

theorem soundFlit_iff (f : Flit) : (f.fecOk && f.reserved == 0 && f.crc == flitCrc f) = true ↔ soundFlit f := by
  simp [soundFlit, and_assoc]

/-- A port after the ACK and the credits of a flit. -/
def ackedPort (f : Flit) (x : Port) : Port :=
  { x with replay := ackReplay f.ack x.replay, credits := x.credits.modify (f.creditVc % 4) (· + f.credits) }

/-- A port after it has accepted a packet flit. -/
def acceptedPort (f : Flit) (x : Port) : Port :=
  { ackedPort f x with expectSeq := (x.expectSeq + 1) % 4096, retrying := false, retries := 0
                       recvCount := if f.isSealed then x.recvCount + 1 else x.recvCount }

include hup hon

theorem flit_idle {f : Flit} (htype : f.ftype ≤ 1) (hf : soundFlit f) :
    exec (.flit n f) s = .next (drainPort n (updPort n (ackedPort f) s)) := by
  have hidle : f.ftype = 0 ∨ f.ftype = 1 := by omega
  change execFlit n f s = _
  unfold execFlit
  simp [hup, hon, hidle, (soundFlit_iff f).2 hf]
  rfl

theorem flit_idle_unsound {f : Flit} (htype : f.ftype ≤ 1) (hf : ¬ soundFlit f) : exec (.flit n f) s = .next s := by
  have hidle : f.ftype = 0 ∨ f.ftype = 1 := by omega
  have hbad : (f.fecOk && f.reserved == 0 && f.crc == flitCrc f) = false := Bool.eq_false_iff.2 (mt (soundFlit_iff f).1 hf)
  change execFlit n f s = _
  unfold execFlit
  simp [hup, hon, hidle, hbad]

theorem flit_accepted {f : Flit} {body : List Byte} (htype : f.ftype = 2 ∨ f.ftype = 3) (hf : soundFlit f) (hseq : f.seq = (portOf s n).expectSeq)
    (hbody : openBody (portOf s n) f = some body) :
    exec (.flit n f) s = .next (drainPort n (assemble n (f.vc % 4) f.ftype body
      (emit (.flit n (idleFlit (portOf (updPort n (acceptedPort f) s) n) (f.vc % 4))) (updPort n (acceptedPort f) s)))) := by
  have hidle : ¬ (f.ftype = 0 ∨ f.ftype = 1) := by omega
  change execFlit n f s = _
  unfold execFlit
  simp [hup, hon, hidle, htype, (soundFlit_iff f).2 hf, hseq, hbody]
  rfl

theorem flit_error {f : Flit} (htype : 2 ≤ f.ftype)
    (hbad : ¬ soundFlit f ∨ f.seq ≠ (portOf s n).expectSeq ∨ openBody (portOf s n) f = none ∨ 4 ≤ f.ftype) :
    exec (.flit n f) s = .next (flitError n s) := by
  have hidle : ¬ (f.ftype = 0 ∨ f.ftype = 1) := by omega
  change execFlit n f s = _
  unfold execFlit
  simp only [hup, hon, hidle, ne_eq, not_true_eq_false, if_false, Bool.or_eq_true, decide_eq_true_eq, Bool.false_eq_true]
  split
  · rcases hbad with hbad | hbad | hbad | hbad
    · have hbad : (f.fecOk && f.reserved == 0 && f.crc == flitCrc f) = false := Bool.eq_false_iff.2 (mt (soundFlit_iff f).1 hbad)
      simp [hbad]
    · simp [hbad]
    · split <;> simp [hbad]
    · omega
  · rfl

end

/-! ### Retries (R344) -/

/-- A retry is counted, without an event where this interval has had one. -/
theorem countRetry_logged {n : PortIx} {s : State} (h : (portOf s n).retryLogged = true) :
    countRetry n s = updPort n (fun p => { p with retryCount := p.retryCount + 1, retryLogged := true }) s := by
  simp [countRetry, h]

/-- The first retry of an interval is logged with the port's state. -/
theorem countRetry_first {n : PortIx} {s : State} (h : (portOf s n).retryLogged = false) :
    countRetry n s = logPort n (portStateCode (portOf s n).state) (updPort n (fun p => { p with retryCount := p.retryCount + 1, retryLogged := true }) s) := by
  simp [countRetry, h]

/-- A port after it has asked for a flit again. -/
def askAgain (n : PortIx) (f : Port → Port) (s : State) : State := emit (.linkRetry n (portOf s n).expectSeq) (updPort n f s)

theorem askAgain_becomes (n : PortIx) (f : Port → Port) (s : State) : PortBecomes n (f (portOf s n)) s (askAgain n f s) :=
  (updPort_becomes n f s).of_frame (emit_frame _ _)

theorem askAgain_frame (n : PortIx) (f : Port → Port) (s : State) : Frame [.ports, .out] s (askAgain n f s) :=
  ((updPort_frame n f s).then (emit_frame _ _)).mono (by decide)

theorem countRetry_askAgain {n : PortIx} {f : Port → Port} {s : State} (hlogged : (f (portOf s n)).retryLogged = true) :
    let t := countRetry n (askAgain n f s)
    t.out = s.out ++ [.linkRetry n (portOf s n).expectSeq] ∧
    PortBecomes n { f (portOf s n) with retryCount := (f (portOf s n)).retryCount + 1, retryLogged := true } s t ∧ Frame [.ports, .out] s t := by
  intro t
  have hask := askAgain_becomes n f s
  have ht : t = _ := countRetry_logged (by rw [hask.1]; exact hlogged)
  have hcount := updPort_becomes n (fun p => { p with retryCount := p.retryCount + 1, retryLogged := true }) (askAgain n f s)
  rw [← ht, hask.1] at hcount
  refine ⟨by rw [ht]; rfl, hask.trans hcount, ?_⟩
  rw [ht]
  exact ((askAgain_frame n f s).then (updPort_frame n _ _)).mono (by decide)

theorem flitError_again {n : PortIx} {s : State} (h : (portOf s n).retrying = true) : flitError n s = s := if_pos h

theorem flitError_first {n : PortIx} {s : State} (h : (portOf s n).retrying = false) :
    flitError n s = countRetry n (askAgain n (fun p => { p with retrying := true, retries := 1 }) s) := by
  simp [flitError, h, askAgain]

section

variable {s : State} {n : PortIx} (hup : (portOf s n).state = .up) (hon : s.alarm.device = false)
include hup hon

omit hup hon in
theorem retry_unknown {seq : Nat} (h : (portOf s n).replay.all (fun f => f.seq != seq) = true) : exec (.retry n seq) s = .next s := by
  have hnone : (portOf s n).replay.any (fun f => f.seq == seq) = false := by
    rw [List.any_eq_false]
    exact fun f hf => by simpa using List.all_eq_true.1 h f hf
  change execRetry n seq s = _
  unfold execRetry
  simp only [hnone]
  simp

/-- A RETRY sends from its flit on, in order, what the replay buffer holds. -/
theorem retry_sends {pre post : List Flit} {f : Flit} (hreplay : (portOf s n).replay = pre ++ f :: post) (hpre : ∀ g ∈ pre, g.seq ≠ f.seq) :
    exec (.retry n f.seq) s = .next (countRetry n ((f :: post).foldl (fun s f => emit (.flit n f) s) s)) := by
  have hdrop : (pre ++ f :: post).dropWhile (fun g => g.seq != f.seq) = f :: post := by
    rw [List.dropWhile_append_of_pos fun g hg => by simpa using hpre g hg]
    simp
  change execRetry n f.seq s = _
  unfold execRetry
  simp only [hup, hon, hreplay, hdrop]
  simp

theorem retryRepeat_eq (hretrying : (portOf s n).retrying = true) :
    exec (.retryRepeat n) s = .next (countRetry n (askAgain n (fun p => { p with retries := p.retries + 1 }) s)) := by
  change execRetryRepeat n s = _
  unfold execRetryRepeat
  simp [hup, hon, hretrying, askAgain]

end

/-! ### Training (R345, R433) -/

/-- A port as training leaves it: fresh sequence numbers and credits. -/
def freshPort (p : Port) : Port :=
  { p with state := .up, sendSeq := 0, expectSeq := 0, retrying := false, retries := 0, credits := [256, 256, 256, 256], turns := [0, 0, 0, 0], sinceFlag := 7 }

theorem trainingComplete_open {s : State} {n : PortIx} (h : (portOf s n).state = .training) (henc : (portOf s n).encEnable = false ∨ s.alarm.device = true) :
    exec (.trainingComplete n true) s = .next (updPort n (fun p => { p with keyState := .off }) (updPort n freshPort s)) := by
  have hopen : ¬ (((portOf s n).encEnable && !s.alarm.device) = true) := by rcases henc with henc | henc <;> simp [henc]
  change execTrainingComplete n true s = _
  unfold execTrainingComplete
  dsimp only
  rw [if_neg (by simp [h]), if_neg (by simp)]
  exact congrArg ok (if_neg hopen)

theorem trainingComplete_keys {s : State} {n : PortIx} (h : (portOf s n).state = .training) (henc : (portOf s n).encEnable = true)
    (hon : s.alarm.device = false) : exec (.trainingComplete n true) s = .next (startKeying n (updPort n freshPort s)) := by
  change execTrainingComplete n true s = _
  unfold execTrainingComplete
  simp [h, henc, hon, updPort, freshPort]

theorem freeBelow_spec {m : Nat} (hm : 0 < m) (s : State) :
    (freeBelow m s).1 < m ∧ (freeBelow m s).2 = { s with free := s.free + 1 } := ⟨Nat.mod_lt _ hm, rfl⟩

theorem freeBytes_spec (n : Nat) (s : State) : (freeBytes n s).1.length = n ∧ (freeBytes n s).2 = { s with free := s.free + 1 } :=
  ⟨by simp [freeBytes], rfl⟩

/-- What the beginning of keying draws and leaves in the port (R433). -/
theorem startKeying_spec (n : PortIx) (s : State) :
    ∃ e nonce, 1 ≤ e ∧ e < p256.order ∧ nonce.length = 32 ∧ Frame [.ports, .out, .free] s (startKeying n s) ∧
      PortBecomes n { dropKeys (portOf s n) with keyState := .keying, keyNumber := (portOf s n).keyNumber + 1, ephScalar := some e, nonce := nonce } s
        (startKeying n s) := by
  have horder : 0 < p256.order - 1 := by decide
  unfold startKeying
  obtain ⟨hlt, ht⟩ := freeBelow_spec horder s
  generalize freeBelow (p256.order - 1) s = b at hlt ht
  obtain ⟨e, t⟩ := b
  obtain ⟨hlen, hu⟩ := freeBytes_spec 32 t
  dsimp only at hlt ht ⊢
  generalize freeBytes 32 t = c at hlen hu
  obtain ⟨nonce, u⟩ := c
  dsimp only at hlen hu ⊢
  generalize (chunks 4096 _).zipIdx = segments
  have hfree : Frame [.free] s u := by rw [hu, ht]; exact fields_frame
  have hself : portOf u n = portOf s n := by rw [hu, ht]; rfl
  have hports : PortBecomes n (portOf s n) s s := ⟨rfl, fun _ _ => rfl⟩
  have hkeyed := (hports.of_frame hfree).trans (updPort_becomes n
    (fun p => { dropKeys p with keyState := .keying, keyNumber := (portOf s n).keyNumber + 1, ephScalar := some (e + 1), nonce := nonce }) u)
  rw [hself] at hkeyed
  rw [hself]
  refine ⟨e + 1, nonce, by omega, by omega, hlen, ?_, ?_⟩
  · exact ((hfree.then (updPort_frame n _ _)).then (emitAll_frame _ _ _)).mono (by decide)
  · exact hkeyed.of_frame (ws := [.out]) (emitAll_frame _ _ _)

/-! ### The turns of the channels (R347) -/

/-- FLAG goes first, but for one flit in eight. -/
theorem pickVc_flag {p : Port} (hflag : canSend p 2 = true) (h : [0, 1, 3].filter (canSend p) = [] ∨ 7 ≤ p.sinceFlag) :
    pickVc p = some (2, { p with sinceFlag := 0 }) := by
  unfold pickVc
  dsimp only
  rw [if_pos (by rcases h with h | h <;> simp [hflag, h])]

theorem pickVc_none {p : Port} (hflag : canSend p 2 = false) (h : [0, 1, 3].filter (canSend p) = []) : pickVc p = none := by
  unfold pickVc
  simp only [hflag, h]
  simp

/-- The channel that a list of waiting ones and the turns left choose. -/
theorem picked_of_waiting {l : List Nat} (hl : l ≠ []) (turns : List Nat) :
    ∃ v ∈ l, (l.find? fun v => decide (0 < turns.getD v 0)).or l.head? = some v ∧ ((∃ w ∈ l, 0 < turns.getD w 0) → 0 < turns.getD v 0) := by
  cases hfind : l.find? fun v => decide (0 < turns.getD v 0) with
  | some v => exact ⟨v, List.mem_of_find?_eq_some hfind, rfl, fun _ => by simpa using List.find?_some hfind⟩
  | none =>
    obtain ⟨v, t, rfl⟩ := List.exists_cons_of_ne_nil hl
    refine ⟨v, List.mem_cons_self, rfl, fun ⟨w, hw, hpos⟩ => ?_⟩
    have := List.find?_eq_none.1 hfind w hw
    simp only [decide_eq_true_eq] at this
    exact absurd hpos this

theorem pickVc_waiting {p : Port} (h : [0, 1, 3].filter (canSend p) ≠ []) (hflag : canSend p 2 = false ∨ p.sinceFlag < 7) :
    let waits := [0, 1, 3].filter (canSend p)
    ∃ v ∈ waits, ∃ q, pickVc p = some (v, q) ∧ q.sinceFlag = Nat.min 7 (p.sinceFlag + 1) ∧
      ((∃ w ∈ waits, 0 < p.turns.getD w 0) → 0 < p.turns.getD v 0 ∧ q.turns = p.turns.modify v (· - 1)) ∧
      ((∀ w ∈ waits, p.turns.getD w 0 = 0) → q.turns = (vcWeights p).modify v (· - 1)) := by
  intro waits
  have hcond : ¬ ((canSend p 2 && (waits.isEmpty || decide (7 ≤ p.sinceFlag))) = true) := by
    have hne : waits.isEmpty = false := List.isEmpty_eq_false_iff.2 h
    rcases hflag with hflag | hflag
    · simp [hflag]
    · simp [hne]; omega
  by_cases hall : waits.all (fun v => p.turns.getD v 0 == 0) = true
  · obtain ⟨v, hv, hpick, -⟩ := picked_of_waiting h (vcWeights p)
    have hzero : ∀ w ∈ waits, p.turns.getD w 0 = 0 := fun w hw => by simpa using List.all_eq_true.1 hall w hw
    refine ⟨v, hv, { p with turns := (vcWeights p).modify v (· - 1), sinceFlag := Nat.min 7 (p.sinceFlag + 1) }, ?_, rfl, ?_, fun _ => rfl⟩
    · unfold pickVc
      dsimp only
      rw [if_neg hcond, if_pos hall]
      dsimp only
      rw [hpick]
    · rintro ⟨w, hw, hpos⟩
      rw [hzero w hw] at hpos
      exact absurd hpos (lt_irrefl 0)
  · obtain ⟨v, hv, hpick, hpos⟩ := picked_of_waiting h p.turns
    refine ⟨v, hv, { p with turns := p.turns.modify v (· - 1), sinceFlag := Nat.min 7 (p.sinceFlag + 1) }, ?_, rfl, fun hw => ⟨hpos hw, rfl⟩, fun hzero => ?_⟩
    · unfold pickVc
      dsimp only
      rw [if_neg hcond, if_neg hall, hpick]
    · exact absurd (List.all_eq_true.2 fun w hw => beq_iff_eq.2 (hzero w hw)) hall

/-- Settles O47: what each flit, retry and training step makes of its port, and which channel sends next (R342 to R347). -/
theorem linkLayer : Obligations.LinkLayer := by
  unfold Obligations.LinkLayer
  intro s n
  dsimp only
  refine ⟨fun hup hon => ⟨fun f htype hf => ?idle, fun f htype hf => flit_idle_unsound hup hon htype hf, fun f body htype hf hseq hbody => ?accepted,
    fun f htype hbad => ⟨fun hretry => ?again, fun hretry hlogged => ?asked⟩, fun seq => retry_unknown,
    fun pre f post hreplay hpre hlogged => ?retry, fun hretry hlogged => ?repeated, fun hretry hlogged => ?first⟩,
    fun hup => ?down, fun hnot => ?stays, fun hdown henabled hactive hon => ⟨?training, ?loopback⟩, fun hdisabled => ?disabled,
    fun htraining => ⟨?failed, fun hopen => ?opened, fun henc hon => ?keyed⟩, pickVc_flag, pickVc_none, fun hwaits hflag => pickVc_waiting hwaits hflag⟩
  case idle =>
    obtain ⟨hself, hothers⟩ := updPort_becomes n (ackedPort f) s
    exact ⟨_, flit_idle hup hon htype hf, hself, hothers, updPort_frame _ _ _⟩
  case accepted =>
    obtain ⟨hself, hothers⟩ := (updPort_becomes n (acceptedPort f) s).of_frame (emit_frame (.flit n (idleFlit (portOf (updPort n (acceptedPort f) s) n) (f.vc % 4))) _)
    exact ⟨_, flit_accepted hup hon htype hf hseq hbody, hself, rfl, hothers, ((updPort_frame n _ s).then (emit_frame _ _)).mono (by decide)⟩
  case again => rw [flit_error hup hon htype hbad, flitError_again hretry]
  case asked =>
    obtain ⟨hout, ⟨hself, hothers⟩, hframe⟩ := countRetry_askAgain (f := fun p => { p with retrying := true, retries := 1 }) hlogged
    refine ⟨_, (flit_error hup hon htype hbad).trans (by rw [flitError_first hretry]), hout, hself.trans ?_, hothers, hframe⟩
    simp [hlogged]
  case retry =>
    have hsent := emitAll_frame (fun g => Output.flit n g) (f :: post) s
    have hports := PortBecomes.of_frame (x := portOf s n) (n := n) ⟨rfl, fun _ _ => rfl⟩ hsent
    have hcount := countRetry_logged (n := n) (s := (f :: post).foldl (fun s f => emit (.flit n f) s) s) (by rw [hports.1]; exact hlogged)
    obtain ⟨hself, hothers⟩ := hports.trans (updPort_becomes n (fun p => { p with retryCount := p.retryCount + 1, retryLogged := true }) _)
    rw [← hcount] at hself hothers
    refine ⟨_, retry_sends hup hon hreplay hpre, ?_, hself.trans ?_, hothers, ?_⟩
    · rw [hcount]; exact emitAll_out (fun g => Output.flit n g) (f :: post) s
    · rw [hports.1]; simp [hlogged]
    · rw [hcount]; exact (hsent.then (updPort_frame n _ _)).mono (by decide)
  case repeated =>
    obtain ⟨hout, ⟨hself, hothers⟩, hframe⟩ := countRetry_askAgain (f := fun p => { p with retries := p.retries + 1 }) hlogged
    refine ⟨_, retryRepeat_eq hup hon hretry, hout, hself.trans ?_, hothers, hframe⟩
    simp [hlogged]
  case first =>
    generalize ht : askAgain n (fun p => { p with retries := p.retries + 1 }) s = t
    have hself : portOf t n = { portOf s n with retries := (portOf s n).retries + 1 } := ht ▸ (askAgain_becomes n _ s).1
    have hframe : Frame [.ports, .out] s t := ht ▸ askAgain_frame n _ s
    have hcount := countRetry_first (n := n) (s := t) (by rw [hself]; exact hlogged)
    have hcode : portStateCode (portOf t n).state = 2 := by rw [hself, hup]; rfl
    obtain ⟨hlog, hport, hlogframe⟩ := portLogged n (fun p => { p with retryCount := p.retryCount + 1, retryLogged := true }) 2 t
    rw [← hcode, ← hcount] at hport hlogframe
    refine ⟨_, (retryRepeat_eq hup hon hretry).trans (by rw [ht]), by rw [hport.1], ?_, (hframe.then hlogframe).mono (by decide)⟩
    rw [hcount, hcode]
    have hsame : t.log = s.log := hframe .log (by decide)
    have hhearth : t.hearth = s.hearth := hframe .hearth (by decide)
    unfold Logged at hlog ⊢
    rwa [hsame, hhearth] at hlog
  case down =>
    obtain ⟨hlog, ⟨hself, hothers⟩, hframe⟩ := downed_spec n false s
    refine ⟨_, ?_, hlog, hothers, hframe, fun htwin => unsealTwin_other ?_, hself⟩
    · change execPortDown n s = _
      rw [execPortDown, if_pos hup, takeDown_eq]
    · rw [hframe .twin (by decide)]; exact htwin
  case stays =>
    change execPortDown n s = _
    rw [execPortDown, if_neg hnot]
  case training =>
    obtain ⟨hself, hothers⟩ := updPort_becomes n (fun p => { p with state := .training, eyeLow := false }) s
    refine ⟨_, ?_, hself, hothers, updPort_frame _ _ _⟩
    change execTraining n true s = _
    simp [execTraining, hdown, henabled, hactive, hon]
  case loopback =>
    change execTraining n false s = _
    simp [execTraining]
  case disabled =>
    change execTraining n true s = _
    simp [execTraining, hdisabled]
  case failed =>
    obtain ⟨hself, hothers⟩ := updPort_becomes n (fun p => { p with state := .down, downCount := p.downCount + 1 }) s
    refine ⟨_, ?_, hself, hothers, updPort_frame _ _ _⟩
    change execTrainingComplete n false s = _
    simp [execTrainingComplete, htraining]
  case opened =>
    have hfresh := updPort_becomes n freshPort s
    obtain ⟨hself, hothers⟩ := hfresh.trans (updPort_becomes n (fun p => { p with keyState := .off }) (updPort n freshPort s))
    refine ⟨_, trainingComplete_open htraining hopen, hothers, ((updPort_frame n _ s).then (updPort_frame n _ _)).mono (by decide), ?_⟩
    rw [hself, hfresh.1]
    rfl
  case keyed =>
    obtain ⟨e, nonce, hpos, hlt, hlen, hframe, hkeyed⟩ := startKeying_spec n (updPort n freshPort s)
    have hfresh := updPort_becomes n freshPort s
    obtain ⟨hself, hothers⟩ := hfresh.trans hkeyed
    refine ⟨_, e, nonce, trainingComplete_keys htraining henc hon, hothers, ((updPort_frame n _ s).then hframe).mono (by decide), hpos, hlt, hlen, ?_⟩
    rw [hself, hfresh.1]
    rfl

end Sys2Proof.Machine

namespace Sys2Proof.Machine

/-! ### Keying of a port (R433 to R436) -/

theorem execKeyingTimeout_down {s : State} {n : PortIx} (h : (portOf s n).keyState = .keying) :
    exec (.keyingTimeout n) s = .next (unsealTwin n (downed n true s)) := congrArg ok (if_pos h)

theorem execKeyingTimeout_other {s : State} {n : PortIx} (h : (portOf s n).keyState ≠ .keying) : exec (.keyingTimeout n) s = .next s :=
  congrArg ok (if_neg h)

theorem execKeyStart_other {s : State} {n : PortIx} (h : (portOf s n).keyState ≠ .keying ∨ s.alarm.device = true) :
    exec (.keyStart n) s = .next s := congrArg ok (if_neg (by rcases h with h | h <;> simp [h]))

theorem execKeyLimit_down {s : State} {n : PortIx} (h : (portOf s n).keyState = .on) (hmany : 2 ^ 48 ≤ (portOf s n).sealedCount) :
    exec (.keyLimit n) s = .next (unsealTwin n (downed n false s)) :=
  congrArg ok (if_pos (by rw [Bool.and_eq_true]; exact ⟨decide_eq_true h, decide_eq_true hmany⟩))

theorem execKeyLimit_within {s : State} {n : PortIx} (h : (portOf s n).sealedCount < 2 ^ 48) : exec (.keyLimit n) s = .next s :=
  congrArg ok (if_neg fun hmany => absurd (of_decide_eq_true (Bool.and_eq_true_iff.1 hmany).2) (not_le.2 h))

theorem execLinkKey_quenched {s : State} {n : PortIx} (h : s.alarm.device = true) : exec (.linkKey n) s = .next s := by
  change execLinkKey n s = _
  unfold execLinkKey
  dsimp only
  split
  · rfl
  · rw [if_pos (by simp [h])]

/-- A port with the direction keys that its key pair `e` and the partner's record give (R434). -/
def keyedPort (s : State) (n : PortIx) (e : Nat) (x : Port) : Port :=
  let p := portOf s n
  let peer := bitsOf (fieldAt p.record 2 2) 0 14
  let z := beBytes 32 (ecCoords (ecMul p256 e (some (leNat (bytesAt p.record 0x30 32), leNat (bytesAt p.record 0x50 32))))).1
  let key := linkKeyOf z s.fabric.partId peer p.nonce (bytesAt p.record 0x10 32)
  { x with sendKey := some (key s.fabric.partId x.keyNumber), recvKey := some (key peer (fieldAt p.record 8 4)), peerKeyNumber := fieldAt p.record 8 4 }

section

variable {s : State} {n : PortIx} (hkeying : (portOf s n).keyState = .keying) (hon : s.alarm.device = false)
include hkeying hon

theorem execKeyStart_keying :
    exec (.keyStart n) s = .next (finishKeying n (updPort n (fun p => { p with peerStarted := true }) s)) := by
  change execKeyStart n s = _
  simp [execKeyStart, hkeying, hon]

theorem execLinkKeySegment_joins {off k : Nat} {bs : List Byte} (hoff : off = (portOf s n).record.length)
    (hlen : (portOf s n).record.length + bs.length ≤ 17232) (hk : (portOf s n).record = [] ∨ k = (portOf s n).recordKey) :
    exec (.linkKeySegment n off k bs) s = .next (updPort n (fun p => { p with record := p.record ++ bs, recordKey := k }) s) := by
  have hwhole : ¬ 17232 < (portOf s n).record.length + bs.length := by omega
  have hkey : (decide ((portOf s n).record ≠ []) && decide (k ≠ (portOf s n).recordKey)) = false := by rcases hk with hk | hk <;> simp [hk]
  change execLinkKeySegment n off k bs s = _
  unfold execLinkKeySegment
  simp [hkeying, hon, hoff, hwhole]
  rcases hk with hk | hk <;> simp [hk]

theorem execLinkKeySegment_bad {off k : Nat} {bs : List Byte} (h : off ≠ (portOf s n).record.length ∨
    17232 < (portOf s n).record.length + bs.length ∨ ((portOf s n).record ≠ [] ∧ k ≠ (portOf s n).recordKey)) :
    exec (.linkKeySegment n off k bs) s = .next (unsealTwin n (downed n true s)) := by
  have hbad : (decide (off ≠ (portOf s n).record.length) || decide (17232 < (portOf s n).record.length + bs.length) ||
      (decide ((portOf s n).record ≠ []) && decide (k ≠ (portOf s n).recordKey))) = true := by
    simp only [Bool.or_eq_true, Bool.and_eq_true, decide_eq_true_eq]
    tauto
  change execLinkKeySegment n off k bs s = _
  unfold execLinkKeySegment
  dsimp only
  rw [if_neg (by simp [hkeying, hon]), if_pos hbad]
  rfl

variable {e : Nat} (heph : (portOf s n).ephScalar = some e) (hlen : (portOf s n).record.length = 17232) (hrecv : (portOf s n).recvKey = none)
include heph hlen hrecv

theorem execLinkKey_bad (h : linkRecordOk s (portOf s n) (portOf s n).record = false) :
    exec (.linkKey n) s = .next (unsealTwin n (downed n true s)) := by
  change execLinkKey n s = _
  unfold execLinkKey
  simp only [heph]
  rw [if_neg (by simp [hkeying, hon, hlen, hrecv]), if_pos (by simp [h])]
  rfl

/-- A sound record of the partner gives both direction keys (R434). -/
theorem execLinkKey_keys (h : linkRecordOk s (portOf s n) (portOf s n).record = true) :
    exec (.linkKey n) s = .next (finishKeying n (emit (.keyStart n) (updPort n (keyedPort s n e) s))) := by
  change execLinkKey n s = _
  unfold execLinkKey
  simp only [heph]
  rw [if_neg (by simp [hkeying, hon, hlen, hrecv]), if_neg (by simp [h])]
  rfl

end

/-- A port that has not its send key stays as it is. -/
theorem finishKeying_waits {s : State} {n : PortIx} (h : (portOf s n).sendKey = none) : finishKeying n s = s := by simp [finishKeying, h]

/-- A port with both keys, whose partner has started, is encrypted from now on. -/
theorem finishKeying_done {s : State} {n : PortIx} (hkeying : (portOf s n).keyState = .keying) (hsend : (portOf s n).sendKey.isSome = true)
    (hrecv : (portOf s n).recvKey.isSome = true) (hpeer : (portOf s n).peerStarted = true) :
    finishKeying n s = drainPort n (updPort n (fun p => { p with keyState := .on, sealedCount := 0, recvCount := 0 }) s) := by
  simp [finishKeying, hkeying, hsend, hrecv, hpeer]

/-! ### Changes of link encryption (R433, R436) -/

theorem execLinkEncryption_writes {s : State} {r : FpReq} {n : PortIx} {v : Nat} (h : HostWrites s r 0x4030 (n.val + 1) (leBytes 1 v)) (hv : v < 256) :
    exec (.linkEncryption r) s = .next (answeredWrite r s (writeEncryption n v s)) := by
  have hn := n.isLt
  have hrow : objOf 0x4030 (n.val + 1) = some (numRow 0x4030 1 16 2 3) := by clear * -; decide +revert
  have hright : mayWrite .host 0x4030 (n.val + 1) = true := by clear * -; decide +revert
  have hix : ixOf (n.val + 1 - 1) = n := dieBits_val n
  have hbyte : leNat (leBytes 1 v) = v := by rw [leNat_leBytes]; omega
  have hwrite := serveReq_hostWrite .plain h hrow hright (by decide) (by decide) (leBytes_length 1 v)
  obtain ⟨-, -, hop, hi, hk, -⟩ := h
  have hdies : needsDies s true r = [] := by simp [needsDies, hi]
  have hle : n.val + 1 ≤ 16 := hn
  change execLinkEncryption r s = _
  rw [execLinkEncryption, if_pos (by simp [hop, hi, hk, hle]), hwrite, hdies, List.foldl_nil]
  have hobj : writeObj .plain r.via .host (whoOf s r.via r.member) 0x4030 (n.val + 1) (leBytes 1 v) s =
      writeEncryption (ixOf (n.val + 1 - 1)) (leNat (leBytes 1 v)) s := by
    simp [writeObj, write4, hle]
  rw [hobj, hix, hbyte]

/-- A port with a new enable bit, its keys dropped. -/
def encChanged (v : Nat) (p : Port) : Port := { dropKeys { p with encEnable := bitOf v 0 } with keyState := .off }

theorem writeEncryption_inactive {s : State} {n : PortIx} {v : Nat} (h : dieActive s n = false) : writeEncryption n v s = .error 5 := by
  simp [writeEncryption, h]

section

variable {s : State} {n : PortIx} {v : Nat} (hactive : dieActive s n = true) (hv : v ≤ 1)
include hactive hv

theorem writeEncryption_same (h : bitOf v 0 = (portOf s n).encEnable) : writeEncryption n v s = .ok s := by
  have hdiv : v / 8 = 0 := by omega
  simp [writeEncryption, hactive, hdiv, h]

/-- A change of ENABLE takes a port that is UP down, and drops the keys of any other. -/
theorem writeEncryption_changes (h : bitOf v 0 ≠ (portOf s n).encEnable) :
    writeEncryption n v s = .ok (if (portOf s n).state = .up then unsealTwin n (downed n false (updPort n (fun p => { p with encEnable := bitOf v 0 }) s))
      else updPort n (fun p => { dropKeys p with keyState := .off }) (updPort n (fun p => { p with encEnable := bitOf v 0 }) s)) := by
  have hdiv : v / 8 = 0 := by omega
  have hne : ¬ ((bitOf v 0 == (portOf s n).encEnable) = true) := by simpa using h
  unfold writeEncryption
  rw [if_neg (by simp [hactive, hdiv]), if_neg hne]
  dsimp only
  rw [portOf_updPort_self]
  rfl

end

/-- Settles O48: how a port is keyed, when it goes down for it, and what a change of its encryption does (R101, R346, R433 to R436). -/
theorem linkKeys : Obligations.LinkKeys := by
  unfold Obligations.LinkKeys
  intro s n
  dsimp only
  have hdown : ∀ failed,
      Logged 0x0505 (evAt n none 9 n.val) s (downed n failed s) ∧ (∀ k, k ≠ n → portOf (downed n failed s) k = portOf s k) ∧
      Frame (.ports :: logAreas) s (downed n failed s) ∧ (portOf (downed n failed s) n).state = .down ∧
      (portOf (downed n failed s) n).keyState = (if failed = true then .failed else .off) ∧ (portOf (downed n failed s) n).sendKey = none ∧
      (portOf (downed n failed s) n).recvKey = none ∧ (portOf (downed n failed s) n).ephScalar = none := by
    intro failed
    obtain ⟨hlog, ⟨hself, hothers⟩, hframe⟩ := downed_spec n failed s
    rw [hself]
    exact ⟨hlog, hothers, hframe, rfl, rfl, rfl, rfl, rfl⟩
  refine ⟨fun hkeying => ⟨_, execKeyingTimeout_down hkeying, hdown true⟩, fun hkeying hoff => ⟨execLinkKey_quenched hoff, execKeyStart_other (.inr hoff), fun off k bs => ?quenched⟩,
    fun hkeying hon => ⟨fun off k bs hoff hlen hk => ?joins, fun off k bs hbad => ⟨_, execLinkKeySegment_bad hkeying hon hbad, hdown true⟩,
      fun e heph hlen hrecv => ⟨fun hbad => ⟨_, execLinkKey_bad hkeying hon heph hlen hrecv hbad, hdown true⟩, fun hok => ?keys⟩,
      fun hsend => ?waits, fun hsend hrecv => ?done⟩,
    fun hother => ⟨execKeyingTimeout_other hother, execKeyStart_other (.inl hother)⟩, fun hstate hmany => ⟨_, execKeyLimit_down hstate hmany, hdown false⟩,
    fun hfew => execKeyLimit_within hfew, fun r v hwrite hv => ?encryption⟩
  case quenched => exact congrArg ok (if_pos (by simp [hoff]))
  case joins =>
    obtain ⟨hself, hothers⟩ := updPort_becomes n (fun p => { p with record := p.record ++ bs, recordKey := k }) s
    exact ⟨_, execLinkKeySegment_joins hkeying hon hoff hlen hk, hself, hothers, updPort_frame _ _ _⟩
  case keys =>
    obtain ⟨hself, hothers⟩ := (updPort_becomes n (keyedPort s n e) s).of_frame (emit_frame (.keyStart n) (updPort n (keyedPort s n e) s))
    exact ⟨_, execLinkKey_keys hkeying hon heph hlen hrecv hok, rfl, hothers, ((updPort_frame n _ s).then (emit_frame (.keyStart n) _)).mono (by decide),
      hself⟩
  case waits =>
    obtain ⟨hself, hothers⟩ := updPort_becomes n (fun p => { p with peerStarted := true }) s
    refine ⟨_, (execKeyStart_keying hkeying hon).trans ?_, hself, hothers, updPort_frame _ _ _⟩
    rw [finishKeying_waits (by rw [hself]; exact hsend)]
  case done =>
    have hstarted := updPort_becomes n (fun p => { p with peerStarted := true }) s
    obtain ⟨hself, hothers⟩ := hstarted.trans (updPort_becomes n (fun p => { p with keyState := .on, sealedCount := 0, recvCount := 0 }) _)
    refine ⟨_, (execKeyStart_keying hkeying hon).trans ?_, hothers, ((updPort_frame n _ s).then (updPort_frame n _ _)).mono (by decide), hself.trans (by rw [hstarted.1])⟩
    rw [finishKeying_done (by rw [hstarted.1]; exact hkeying) (by rw [hstarted.1]; exact hsend) (by rw [hstarted.1]; exact hrecv) (by rw [hstarted.1])]
  case encryption =>
    have hexec := execLinkEncryption_writes hwrite (by omega)
    have hbit : decide (v = 1) = bitOf v 0 := by
      have hcases : v = 0 ∨ v = 1 := by omega
      rcases hcases with rfl | rfl <;> decide
    simp only [hbit]
    refine ⟨fun hinactive => by rw [hexec, writeEncryption_inactive hinactive]; rfl, fun hactive => ?_⟩
    by_cases hsame : bitOf v 0 = (portOf s n).encEnable
    · rw [writeEncryption_same hactive hv hsame] at hexec
      refine ⟨s, ?_, hsame.symm, fun _ _ => rfl, fun _ => rfl, fun h => absurd hsame.symm h, fun h => absurd hsame.symm h, .refl _ _⟩
      rw [if_neg fun h => h.1 hsame.symm]
      exact hexec
    · rw [writeEncryption_changes hactive hv hsame] at hexec
      have henabled := updPort_becomes n (fun p => { p with encEnable := bitOf v 0 }) s
      have hframe := updPort_frame n (fun p => { p with encEnable := bitOf v 0 }) s
      generalize updPort n (fun p => { p with encEnable := bitOf v 0 }) s = u at hexec henabled hframe
      by_cases hup : (portOf s n).state = .up
      · obtain ⟨hlog, hport, hdframe⟩ := downed_spec n false u
        obtain ⟨hself, hothers⟩ := henabled.trans hport
        rw [if_pos hup] at hexec
        refine ⟨downed n false u, ?_, by rw [hself, henabled.1]; rfl, hothers, fun h => absurd h.symm hsame, fun _ => by rw [hself]; exact ⟨rfl, rfl, rfl⟩,
          fun _ _ => ⟨by rw [hself]; rfl, ?_⟩, (hframe.then hdframe).mono (by decide)⟩
        · rw [if_pos ⟨fun h => hsame h.symm, hup⟩]
          exact hexec
        · have hsamelog : u.log = s.log := hframe .log (by decide)
          have hhearth : u.hearth = s.hearth := hframe .hearth (by decide)
          unfold Logged at hlog ⊢
          rwa [hsamelog, hhearth] at hlog
      · obtain ⟨hself, hothers⟩ := henabled.trans (updPort_becomes n (fun p => { dropKeys p with keyState := .off }) u)
        rw [if_neg hup] at hexec
        refine ⟨_, ?_, by rw [hself, henabled.1]; rfl, hothers, fun h => absurd h.symm hsame, fun _ => by rw [hself]; exact ⟨rfl, rfl, rfl⟩,
          fun _ h => absurd h hup, (hframe.then (updPort_frame n _ _)).mono (by decide)⟩
        rw [if_neg fun h => hup h.2]
        exact hexec

end Sys2Proof.Machine

namespace Sys2Proof.Machine

/-! ### What the end of an import leaves (R82, R101)

An import that commits or fails completes its packet, and the queue goes on. -/

theorem calm_popLine (d : DieIx) (q : QueueIx) (s : State) : calm (popLine d q s) = calm s := calm_updQueue rfl

theorem calm_refusePacket (d : DieIx) (q : QueueIx) (e : Ev) (b : List Byte) (s : State) : calm (refusePacket d q e b s) = calm s :=
  (calm_withholdPacket ..).trans (calm_logEvent ..)

theorem calm_settleGo (d : DieIx) (q : QueueIx) (n : Nat) (s : State) : calm (settleGo d q n s) = calm s := by
  induction n generalizing s with
  | zero => rfl
  | succ n ih =>
    unfold settleGo
    dsimp only
    split
    · rfl
    · split
      · split
        · exact (ih _).trans ((calm_popLine ..).trans (calm_refusePacket ..))
        · split
          · exact (ih _).trans ((calm_popLine ..).trans (calm_withholdPacket ..))
          · rfl
      · rfl

theorem calm_stampJob (s : State) (j : Job) : calm (stampJob s j) = calm s := by
  unfold stampJob
  split
  · rfl
  · split
    · split
      · refine (calm_foldl (fun s d => calm_settleGo ..) _ _).trans ?_
        exact (calm_finishEvictions ..).trans ((calm_removeJob ..).trans (calm_refusePacket ..))
      · rfl
    · rfl

theorem calm_settleQueue (d : DieIx) (q : QueueIx) (s : State) : calm (settleQueue d q s) = calm s := by
  refine (calm_foldl calm_stampJob _ _).trans (Eq.trans ?_ (calm_settleGo d q (queueOf s d q).line.length s))
  split
  · exact calm_finishEvictions ..
  · rfl

theorem calm_releaseQueue (d : DieIx) (q : QueueIx) (s : State) : calm (releaseQueue d q s) = calm s :=
  (calm_settleQueue ..).trans (calm_updQueue rfl)

theorem calm_okPacket (d : DieIx) (q : QueueIx) (b : List Byte) (detail : Nat) (s : State) : calm (okPacket d q b detail s) = calm s := calm_putCpl ..

theorem calm_updKs (p : PartIx) (k : Nat) (f : KeySet → KeySet) (s : State) : calm (updKs p k f s) = calm s := calm_updPart s

theorem calm_failImport (p : PartIx) (im : Import) (r : Nat) (s : State) : calm (failImport p im r s) = calm s := by
  have hdropped : calm (updKs p im.slot (fun k => { k with lastReason := r }) (dropImport p im s)) = calm s := (calm_updKs ..).trans (calm_dropImport ..)
  unfold failImport
  dsimp only
  split
  · exact ((calm_finishEvictions ..).trans ((calm_releaseQueue ..).trans ((calm_putCpl ..).trans (calm_logEvent ..)))).trans hdropped
  · exact hdropped

theorem calm_commitImport (p : PartIx) (im : Import) (twinHas : Bool) (s : State) : calm (commitImport p im twinHas s) = calm s := by
  unfold commitImport
  split
  · exact calm_failImport ..
  · rename_i t _
    dsimp only
    have hset : ∀ u, calm (updKs p im.slot (fun k => setOf k im.plain im.homeMask im.placed twinHas) u) = calm u := fun u => calm_updKs ..
    split
    · exact (calm_releaseQueue ..).trans ((calm_okPacket ..).trans ((hset _).trans (calm_updPart s)))
    · exact (hset _).trans (calm_updPart s)

theorem calm_commitAlone (s : State) : calm (commitAlone s) = calm s := by
  refine calm_foldl (fun s p => calm_foldl (fun s im => ?_) _ s) _ s
  dsimp only
  split
  · exact (calm_sendTwin ..).trans (calm_commitImport ..)
  · exact calm_commitImport ..

/-! ### Roles and outputs -/

/-- Every partition keeps its ROLE, and nothing sent is taken back. -/
structure KeepsRoles (s t : State) : Prop where
  role : ∀ p, (partOfIx t p).role = (partOfIx s p).role
  out : ∀ x ∈ s.out, x ∈ t.out

theorem KeepsRoles.refl (s : State) : KeepsRoles s s := ⟨fun _ => rfl, fun _ h => h⟩

theorem KeepsRoles.trans {s t u : State} (h : KeepsRoles s t) (k : KeepsRoles t u) : KeepsRoles s u :=
  ⟨fun p => (k.role p).trans (h.role p), fun x hx => k.out x (h.out x hx)⟩

theorem KeepsRoles.foldl {α : Type} {f : State → α → State} (hf : ∀ s x, KeepsRoles s (f s x)) (l : List α) (s : State) : KeepsRoles s (l.foldl f s) := by
  induction l generalizing s with
  | nil => exact .refl s
  | cons x l ih => exact (hf s x).trans (ih _)

theorem KeepsRoles.of_frame {ws : List Area} {s t : State} (h : Frame ws s t) (hout : ∀ x ∈ s.out, x ∈ t.out) (hparts : Area.parts ∉ ws := by decide) :
    KeepsRoles s t := ⟨h.partField hparts Partition.role fun _ => rfl, hout⟩

theorem KeepsRoles.of_parts {s t : State} (h : t.parts = s.parts) (hout : t.out = s.out) : KeepsRoles s t :=
  ⟨fun p => by rw [partOfIx, h]; rfl, fun x hx => hout ▸ hx⟩

theorem updPart_roles {p : PartIx} {f : Partition → Partition} (s : State) (hf : ∀ x, (f x).role = x.role := by intro _; rfl) :
    KeepsRoles s (updPart p f s) := by
  refine ⟨fun k => ?_, fun x hx => hx⟩
  by_cases hk : k = p
  · subst hk; rw [partOfIx_updPart_self, hf]
  · rw [partOfIx_updPart_ne _ _ hk]

theorem emit_roles (o : Output) (s : State) : KeepsRoles s (emit o s) := ⟨fun _ => rfl, fun _ hx => List.mem_append_left _ hx⟩

theorem msix_roles (h : HostId) (fn vec : Nat) (s : State) : KeepsRoles s (msix h fn vec s) :=
  .of_frame (msix_frame h fn vec s) fun _ hx => mem_out_msix h fn vec hx

theorem signal_roles (sv : Nat) (part : Option PartIx) (entry : List Byte) (s : State) : KeepsRoles s (signal sv part entry s) := by
  unfold signal
  extract_lets m s₁ s₂ pins s₃
  have h₁ : KeepsRoles s s₁ := by
    dsimp only [s₁]
    split
    · exact (msix_roles ..).trans (msix_roles ..)
    · exact .refl s
  have h₂ : KeepsRoles s₁ s₂ := by
    dsimp only [s₂]
    split
    · split
      · exact msix_roles ..
      · exact .refl s₁
    · exact .refl s₁
  have h₃ : KeepsRoles s₂ s₃ := by
    dsimp only [s₃]
    split
    · exact .of_parts rfl rfl
    · exact .refl s₂
  refine ((h₁.trans h₂).trans h₃).trans ?_
  split
  · exact emit_roles ..
  · exact .refl s₃

theorem logEvent_roles (e : Ev) (a : EvArgs) (s : State) : KeepsRoles s (logEvent e a s) := by
  refine ⟨(logEvent_frame e a s).partField (by decide) Partition.role fun _ => rfl, fun x hx => ?_⟩
  unfold logEvent
  generalize hb : freeBelow (2 ^ 32) s = b
  obtain ⟨t, u⟩ := b
  have hu : u.out = s.out := by rw [show u = (freeBelow (2 ^ 32) s).2 by rw [hb]]; rfl
  refine (signal_roles ..).out x ?_
  change x ∈ State.out (match a.part with | some p => _ | none => _)
  split
  · exact hu ▸ hx
  · exact hu ▸ hx

theorem sendMsg_roles (k : MsgKind) (d : DieIx) (part : Nat) (dst : DieIx) (o : Sent → Output) (s : State) : KeepsRoles s (sendMsg k d part dst o s) := by
  unfold sendMsg
  split
  · exact .refl s
  · split
    · exact emit_roles ..
    · exact emit_roles ..
    · exact .of_parts rfl rfl

theorem sendTwin_roles (rtype : Nat) (p : PartIx) (tag : Nat) (s : State) : KeepsRoles s (sendTwin rtype p tag s) := by
  unfold sendTwin sendTwinGen sendTwinMsg
  extract_lets n r
  split
  · exact .of_frame (ws := [.twin, .out]) fields_frame fun _ hx => List.mem_append_left _ hx
  · exact .of_parts rfl rfl

theorem deliverCpl_roles (d : DieIx) (q : QueueIx) (p : PartIx) (c : CplRec) (s : State) : KeepsRoles s (deliverCpl d q p c s) := by
  unfold deliverCpl
  extract_lets qu pt k addr b sent
  have hsent : KeepsRoles s sent := .of_parts rfl rfl
  split
  · exact hsent.trans (sendMsg_roles ..)
  · split
    · split
      · exact (hsent.trans (emit_roles ..)).trans (msix_roles ..)
      · exact hsent.trans (emit_roles ..)
    · exact .refl s

theorem putCpl_roles (d : DieIx) (q : QueueIx) (c : Cpl) (s : State) : KeepsRoles s (putCpl d q c s) := by
  simp only [putCpl]
  split
  · exact .refl s
  · split
    · exact .refl s
    · split
      · exact .of_parts rfl rfl
      · exact deliverCpl_roles ..

theorem withholdPacket_roles (d : DieIx) (q : QueueIx) (e : Ev) (b : List Byte) (s : State) : KeepsRoles s (withholdPacket d q e b s) := by
  unfold withholdPacket
  split
  · exact .refl s
  · exact putCpl_roles ..

theorem refusePacket_roles (d : DieIx) (q : QueueIx) (e : Ev) (b : List Byte) (s : State) : KeepsRoles s (refusePacket d q e b s) :=
  (logEvent_roles ..).trans (withholdPacket_roles ..)

theorem settleGo_roles (d : DieIx) (q : QueueIx) (n : Nat) (s : State) : KeepsRoles s (settleGo d q n s) := by
  induction n generalizing s with
  | zero => exact .refl s
  | succ n ih =>
    have hpop : ∀ s, KeepsRoles s (popLine d q s) := fun _ => .of_parts rfl rfl
    unfold settleGo
    dsimp only
    split
    · exact .refl s
    · split
      · split
        · exact ((refusePacket_roles ..).trans (hpop _)).trans (ih _)
        · split
          · exact ((withholdPacket_roles ..).trans (hpop _)).trans (ih _)
          · exact .refl s
      · exact .refl s

theorem finishEvictions_roles (p : PartIx) (s : State) : KeepsRoles s (finishEvictions p s) := updPart_roles s

theorem stampJob_roles (s : State) (j : Job) : KeepsRoles s (stampJob s j) := by
  unfold stampJob
  split
  · exact .refl s
  · split
    · split
      · have hgone : ∀ t, KeepsRoles t (removeJob j.id t) := fun _ => .of_parts rfl rfl
        exact (((refusePacket_roles ..).trans (hgone _)).trans (finishEvictions_roles ..)).trans (.foldl (fun _ _ => settleGo_roles ..) _ _)
      · exact .refl s
    · exact .of_parts rfl rfl

theorem settleQueue_roles (d : DieIx) (q : QueueIx) (s : State) : KeepsRoles s (settleQueue d q s) := by
  refine (settleGo_roles d q (queueOf s d q).line.length s).trans (KeepsRoles.trans ?_ (.foldl stampJob_roles _ _))
  split
  · exact finishEvictions_roles ..
  · exact .refl _

theorem releaseQueue_roles (d : DieIx) (q : QueueIx) (s : State) : KeepsRoles s (releaseQueue d q s) :=
  (KeepsRoles.of_parts (s := s) (t := updQueue d q (fun x => { x with hold := none }) s) rfl rfl).trans (settleQueue_roles ..)

theorem updKs_roles (p : PartIx) (k : Nat) (f : KeySet → KeySet) (s : State) : KeepsRoles s (updKs p k f s) := updPart_roles s

theorem dropImport_roles (p : PartIx) (im : Import) (s : State) : KeepsRoles s (dropImport p im s) := by
  unfold dropImport
  extract_lets s₁ s₂
  have h₁ : KeepsRoles s s₁ := by
    dsimp only [s₁]
    split
    · exact sendTwin_roles ..
    · exact .refl s
  exact (h₁.trans (updPart_roles s₁)).trans (updKs_roles ..)

theorem failImport_roles (p : PartIx) (im : Import) (r : Nat) (s : State) : KeepsRoles s (failImport p im r s) := by
  have hdropped : KeepsRoles s (updKs p im.slot (fun k => { k with lastReason := r }) (dropImport p im s)) :=
    (dropImport_roles ..).trans (updKs_roles ..)
  unfold failImport
  dsimp only
  split
  · exact (((hdropped.trans (logEvent_roles ..)).trans (putCpl_roles ..)).trans (releaseQueue_roles ..)).trans (finishEvictions_roles ..)
  · exact hdropped

theorem commitImport_roles (p : PartIx) (im : Import) (twinHas : Bool) (s : State) : KeepsRoles s (commitImport p im twinHas s) := by
  unfold commitImport
  split
  · exact failImport_roles ..
  · rename_i t _
    have hset : KeepsRoles s (updKs p im.slot (fun k => setOf k im.plain im.homeMask im.placed twinHas)
        (updPart p (fun x => { x with chains := t, imports := x.imports.filter (·.slot != im.slot) }) s)) := (updPart_roles s).trans (updKs_roles ..)
    dsimp only
    split
    · exact (hset.trans (putCpl_roles ..)).trans (releaseQueue_roles ..)
    · exact hset

theorem commitAlone_roles (s : State) : KeepsRoles s (commitAlone s) := by
  refine .foldl (fun s p => .foldl (fun s im => ?_) _ s) _ s
  dsimp only
  split
  · exact (commitImport_roles ..).trans (sendTwin_roles ..)
  · exact commitImport_roles ..

/-! ### Sets that are not mirrored -/

/-- No set becomes mirrored. -/
def StaysPlain (s t : State) : Prop := ∀ p k, (ksOf s p k).mirrored = false → (ksOf t p k).mirrored = false

theorem StaysPlain.refl (s : State) : StaysPlain s s := fun _ _ h => h

theorem StaysPlain.trans {s t u : State} (h : StaysPlain s t) (k : StaysPlain t u) : StaysPlain s u := fun p i hi => k p i (h p i hi)

theorem StaysPlain.foldl {α : Type} {f : State → α → State} (hf : ∀ s x, StaysPlain s (f s x)) (l : List α) (s : State) : StaysPlain s (l.foldl f s) := by
  induction l generalizing s with
  | nil => exact .refl s
  | cons x l ih => exact (hf s x).trans (ih _)

theorem StaysPlain.of_work {e : Ev} {id : Nat} {s t : State} (h : JobWork e id s t) : StaysPlain s t := fun p k hk => (h.parts p).unmirrored k hk

theorem StaysPlain.of_parts {s t : State} (h : t.parts = s.parts) : StaysPlain s t := fun p k hk => by rw [ksOf, partOfIx, h]; exact hk

theorem updPart_plain {p : PartIx} {f : Partition → Partition} (s : State) (hf : ∀ x, (f x).keysets = x.keysets := by intro _; rfl) :
    StaysPlain s (updPart p f s) := by
  intro q k hk
  by_cases hq : q = p
  · subst hq; rw [ksOf, partOfIx_updPart_self, hf]; exact hk
  · rw [ksOf, partOfIx_updPart_ne _ _ hq]; exact hk

theorem ksOf_updKs (p q : PartIx) (k i : Nat) (f : KeySet → KeySet) (s : State) :
    ksOf (updKs p k f s) q i = if q = p ∧ i = k then f (ksOf s p k) else ksOf s q i := by
  by_cases hq : q = p
  · subst hq
    rw [ksOf, updKs, partOfIx_updPart_self, tblGetD_tblSet]
    by_cases hi : i = k <;> simp [hi, ksOf]
  · rw [if_neg fun h => hq h.1, ksOf, updKs, partOfIx_updPart_ne _ _ hq, ksOf]

theorem updKs_plain {p : PartIx} {k : Nat} {f : KeySet → KeySet} (s : State) (hf : ∀ x, x.mirrored = false → (f x).mirrored = false) :
    StaysPlain s (updKs p k f s) := by
  intro q i hi
  rw [ksOf_updKs]
  split
  · rename_i h
    obtain ⟨rfl, rfl⟩ := h
    exact hf _ hi
  · exact hi

theorem sendTwin_parts (rtype : Nat) (p : PartIx) (tag : Nat) (s : State) : (sendTwin rtype p tag s).parts = s.parts := by
  unfold sendTwin sendTwinGen sendTwinMsg
  extract_lets n r
  split <;> rfl

theorem dropImport_plain (p : PartIx) (im : Import) (s : State) : StaysPlain s (dropImport p im s) := by
  unfold dropImport
  extract_lets s₁ s₂
  have h₁ : StaysPlain s s₁ := by
    dsimp only [s₁]
    split
    · exact .of_parts (sendTwin_parts ..)
    · exact .refl s
  refine (h₁.trans (updPart_plain s₁)).trans (updKs_plain s₂ fun x hx => ?_)
  split
  · exact hx
  · rfl

theorem zeroPartSecrets_keysets (p : PartIx) (s : State) : StaysPlain s (zeroPartSecrets p s) := by
  unfold zeroPartSecrets
  extract_lets ds s₁ s₂ s₃ sec s₄
  have parts_of {α : Type} {f : State → α → State} (hf : ∀ s x, (f s x).parts = s.parts) (l : List α) (u : State) : (l.foldl f u).parts = u.parts := by
    induction l generalizing u with
    | nil => rfl
    | cons x l ih => exact (ih _).trans (hf u x)
  have h₁ : s₁.parts = s.parts := by
    refine parts_of (fun s d => ?_) ds s
    refine parts_of (fun s e => ?_) _ s
    rfl
  have h₂ : s₂.parts = s₁.parts := by
    refine parts_of (fun s d => ?_) ds s₁
    rfl
  exact (StaysPlain.of_parts (s := s) (t := s₄) (h₂.trans h₁)).trans (updPart_plain s₄)

theorem dropPatch_plain (d : DieIx) (h : Option Hold) (s : State) : StaysPlain s (dropPatch d h s) := by
  unfold dropPatch
  split
  · exact updPart_plain s
  · exact .refl s

theorem drainQueue_plain (d : DieIx) (q : QueueIx) (e : Ev) (s : State) : StaysPlain s (drainQueue d q e s) := by
  refine ((dropPatch_plain d _ s).trans (.of_work (updQueue_work 0 0 d q _ _))).trans (.foldl (fun s it => ?_) _ _)
  split
  · unfold withholdPacket
    split
    · exact .refl s
    · exact .of_work (putCpl_work 0 0 ..)
  · exact .refl s

theorem quenchPartition_plain (p : PartIx) (e : Ev) (restart : Bool) (s : State) : StaysPlain s (quenchPartition p e restart s) := by
  unfold quenchPartition
  extract_lets ds old s₁ s₂ s₃ s₄ s₅ s₆ s₇
  have h₂ : StaysPlain s₁ s₂ := by
    refine .foldl (fun s d => ?_) _ _
    exact .of_parts rfl
  have h₃ : StaysPlain s₂ s₃ := .foldl (fun s j t k hk => by
    cases hj : jobOf s j.id with
    | none => rw [show quenchJob j.id e false s = s by simp [quenchJob, hj]]; exact hk
    | some i => exact StaysPlain.of_work (quenchJob_spec hj e false).1 t k hk) _ _
  have h₄ : StaysPlain s₃ s₄ := .of_parts rfl
  have h₅ : StaysPlain s₄ s₅ := .foldl (fun s d => .foldl (fun s q => drainQueue_plain d q e s) _ s) _ _
  have h₆ : StaysPlain s₅ s₆ := .foldl (fun s im => dropImport_plain p im s) _ _
  have h₇ : StaysPlain s₆ s₇ := zeroPartSecrets_keysets p s₆
  have h₈ : StaysPlain s₇ (ds.foldl (fun s d => updDie d (fun x => { x with flags := [] }) s) s₇) := by
    refine .foldl (fun s d => ?_) _ _
    exact .of_parts rfl
  have h₁ : StaysPlain s s₁ := updPart_plain s
  exact ((((((((h₁.trans h₂).trans h₃).trans h₄).trans h₅).trans h₆).trans h₇).trans h₈).trans (.of_work (finishEvictions_work 0 0 ..)))

/-! ### The end of mirroring (R101, R410, R412) -/

theorem partOfIx_foldl_updPart {l : List PartIx} (f : Partition → Partition) (hl : l.Nodup) (s : State) (p : PartIx) :
    partOfIx (l.foldl (fun s p => updPart p f s) s) p = if p ∈ l then f (partOfIx s p) else partOfIx s p := by
  induction l generalizing s with
  | nil => rfl
  | cons k l ih =>
    obtain ⟨hne, hl⟩ := List.nodup_cons.1 hl
    rw [List.foldl_cons, ih hl]
    by_cases hp : p = k
    · subst hp; simp [hne]
    · simp [hp]

/-- A change of every partition. -/
theorem partOfIx_eachPart (f : Partition → Partition) (s : State) (p : PartIx) :
    partOfIx (allParts.foldl (fun s p => updPart p f s) s) p = f (partOfIx s p) := by
  rw [partOfIx_foldl_updPart (l := allParts) f (List.nodup_finRange 16) s p]
  exact if_pos (List.mem_finRange p)

/-- No set of the part is mirrored, and no mirroring goes on. -/
structure MirroringOver (t : State) : Prop where
  twin : t.twin.mirrors = [] ∧ t.twin.filling = [] ∧ t.twin.refetches = []
  plain : ∀ p k, (ksOf t p k).mirrored = false

theorem calm_failRefetches (s : State) :
    calmTwin (failRefetches s).twin = { calmTwin s.twin with refetches := [] } ∧ ∀ p, quenchMarks (partOfIx (failRefetches s) p) = quenchMarks (partOfIx s p) := by
  have hcalm := calm_eq (calm_foldl (fun _ _ => calm_updKs ..) s.twin.refetches s :
    calm (s.twin.refetches.foldl (fun s r => updKs r.1 r.2 (fun k => if k.state = .refetching then { k with state := .damaged } else k) s) s) = calm s)
  obtain ⟨-, hparts, -, -, -, -, -, htwin⟩ := hcalm
  refine ⟨?_, hparts⟩
  rw [← htwin]
  rfl

theorem failRefetches_roles (s : State) : KeepsRoles s (failRefetches s) := by
  unfold failRefetches
  extract_lets s₁
  have h₁ : KeepsRoles s s₁ := by
    refine .foldl (fun s r => ?_) _ s
    exact updKs_roles ..
  exact h₁.trans (.of_parts (t := updTwin _ s₁) rfl rfl)

/-- A partition whose imports and sets are mirrored no more. -/
def unmirrored (x : Partition) : Partition :=
  { x with imports := x.imports.map fun m => { m with mirror := false }, keysets := x.keysets.map fun k => (k.1, { k.2 with mirrored := false }) }

theorem endMirroring_spec (s : State) :
    let t := endMirroring s
    MirroringOver t ∧ KeepsRoles s t ∧ (∀ p, quenchMarks (partOfIx t p) = quenchMarks (partOfIx s p)) ∧
    calmTwin t.twin = { calmTwin s.twin with mirrors := [], filling := [], refetches := [] } := by
  intro t
  obtain ⟨-, hcparts, -, -, -, -, -, hctwin⟩ := calm_eq (calm_commitAlone s)
  obtain ⟨hftwin, hfparts⟩ := calm_failRefetches (commitAlone s)
  have hroles := (commitAlone_roles s).trans (failRefetches_roles _)
  generalize hv : failRefetches (commitAlone s) = v at hftwin hfparts hroles
  rw [hctwin] at hftwin
  generalize hw : updTwin (fun t => { t with mirrors := [], filling := [] }) v = w
  have ht : t = allParts.foldl (fun s p => updPart p unmirrored s) w := by rw [← hw, ← hv]; rfl
  clear_value t
  have hpart : ∀ p, partOfIx t p = unmirrored (partOfIx v p) := fun p => by rw [ht, partOfIx_eachPart, ← hw]; rfl
  have hrest : ∀ (l : List PartIx) (u : State), (l.foldl (fun s p => updPart p unmirrored s) u).twin = u.twin ∧
      (l.foldl (fun s p => updPart p unmirrored s) u).out = u.out := fun l => by
    induction l with
    | nil => exact fun _ => ⟨rfl, rfl⟩
    | cons p l ih => exact fun u => ih (updPart p unmirrored u)
  have htwin : t.twin = w.twin := by rw [ht, (hrest allParts w).1]
  have hout : t.out = v.out := by rw [ht, (hrest allParts w).2, ← hw]; rfl
  have htwin' : calmTwin t.twin = { calmTwin s.twin with mirrors := [], filling := [], refetches := [] } := by
    rw [htwin, ← hw]
    exact congrArg (fun x : Twin => { x with mirrors := [], filling := [] }) hftwin
  refine ⟨⟨?_, fun p k => ?_⟩, ⟨fun p => ?_, fun x hx => hout ▸ hroles.out x hx⟩, fun p => ?_, htwin'⟩
  · exact ⟨congrArg Twin.mirrors htwin', congrArg Twin.filling htwin', congrArg Twin.refetches htwin'⟩
  · have hkeys : tblGet (unmirrored (partOfIx v p)).keysets k = _ :=
      tblGet_map (partOfIx v p).keysets (fun k => (k.1, { k.2 with mirrored := false })) (fun _ => rfl) k
    rw [ksOf, hpart]
    unfold tblGetD
    rw [hkeys]
    cases tblGet (partOfIx v p).keysets k <;> rfl
  · rw [hpart]; exact hroles.role p
  · rw [hpart]; exact (hfparts p).trans (hcparts p)

/-- The quench of a STANDBY partition whose twin is lost (R410). -/
def lostQuench (s : State) (p : PartIx) : State := quenchPartition p 0x0603 false (logAt 0x0603 0 (some p) 0x0B 0 s)

/-- A partition with the marks of such a quench. -/
def lostMarks (x : Partition) : Partition :=
  quenchMarks { x with quenching := some ((x.quenching.map (·.1)).getD 0x0603, false || (x.quenching.map (·.2)).getD false)
                       quenchEvent := 0x0603, quenchCount := x.quenchCount + 1 }

theorem logAt_frame (e : Ev) (d : DieIx) (part : Option PartIx) (unit detail : Nat) (s : State) : Frame logAreas s (logAt e d part unit detail s) :=
  logEvent_frame _ _ _

theorem lostQuench_marks (s : State) (p k : PartIx) :
    quenchMarks (partOfIx (lostQuench s p) k) = if k = p then lostMarks (partOfIx s p) else quenchMarks (partOfIx s k) := by
  have hlog : ∀ k, quenchMarks (partOfIx (logAt 0x0603 0 (some p) 0x0B 0 s) k) = quenchMarks (partOfIx s k) :=
    (logAt_frame 0x0603 0 (some p) 0x0B 0 s).partField (by decide) quenchMarks fun _ => rfl
  obtain ⟨-, hparts, -⟩ := calm_eq (calm_quenchPartition p 0x0603 false (logAt 0x0603 0 (some p) 0x0B 0 s))
  obtain ⟨-, -, hothers, hself, -⟩ := quenchMarked_spec p 0x0603 false (logAt 0x0603 0 (some p) 0x0B 0 s)
  refine (hparts k).trans ?_
  split
  · rename_i hk
    subst hk
    obtain ⟨hstate, hquenching, hevent, hcount⟩ := quenchMarks_eq_iff.1 (hlog k)
    rw [hself]
    unfold lostMarks
    rw [quenchMarks_eq_iff]
    exact ⟨hstate, by rw [hquenching], rfl, by rw [hcount]⟩
  · rename_i hk
    rw [hothers k hk, hlog]

theorem lostQuench_twin (s : State) (p : PartIx) : calmTwin (lostQuench s p).twin = calmTwin s.twin := by
  obtain ⟨-, -, -, -, -, -, -, htwin⟩ := calm_eq (calm_quenchPartition p 0x0603 false (logAt 0x0603 0 (some p) 0x0B 0 s))
  obtain ⟨-, -, -, -, -, -, -, -, -, hmarked⟩ := quenchMarked_spec p 0x0603 false (logAt 0x0603 0 (some p) 0x0B 0 s)
  rw [lostQuench, htwin, hmarked, (logAt_frame 0x0603 0 (some p) 0x0B 0 s) .twin (by decide)]

theorem lostQuench_plain (s : State) (p : PartIx) : StaysPlain s (lostQuench s p) :=
  (StaysPlain.of_work (logEvent_work 0 0 ..)).trans (quenchPartition_plain _ _ _ _)

/-- The quenches of distinct STANDBY partitions. -/
theorem lostQuenches_spec {l : List PartIx} (hl : l.Nodup) (s : State) :
    let t := l.foldl lostQuench s
    (∀ k, quenchMarks (partOfIx t k) = if k ∈ l then lostMarks (partOfIx s k) else quenchMarks (partOfIx s k)) ∧
    calmTwin t.twin = calmTwin s.twin ∧ StaysPlain s t := by
  induction l generalizing s with
  | nil => exact ⟨fun _ => rfl, rfl, .refl s⟩
  | cons p l ih =>
    obtain ⟨hne, hl⟩ := List.nodup_cons.1 hl
    obtain ⟨hmarks, htwin, hplain⟩ := ih hl (lostQuench s p)
    refine ⟨fun k => ?_, htwin.trans (lostQuench_twin s p), (lostQuench_plain s p).trans hplain⟩
    rw [List.foldl_cons, hmarks k]
    have hone := lostQuench_marks s p k
    by_cases hk : k = p
    · subst hk
      rw [if_neg hne, if_pos List.mem_cons_self, hone, if_pos rfl]
    · rw [if_neg hk] at hone
      by_cases hkl : k ∈ l
      · rw [if_pos hkl, if_pos (List.mem_cons_of_mem _ hkl)]
        obtain ⟨hstate, hquenching, hevent, hcount⟩ := quenchMarks_eq_iff.1 hone
        unfold lostMarks
        rw [quenchMarks_eq_iff]
        exact ⟨hstate, by rw [hquenching], rfl, by rw [hcount]⟩
      · rw [if_neg hkl, if_neg (by simp [hk, hkl]), hone]

theorem MirroringOver.of_calm {s t : State} (h : MirroringOver s) (htwin : calmTwin t.twin = calmTwin s.twin) (hplain : StaysPlain s t) : MirroringOver t := by
  obtain ⟨⟨hmirrors, hfilling, hrefetches⟩, hsets⟩ := h
  refine ⟨⟨?_, ?_, ?_⟩, fun p k => hplain p k (hsets p k)⟩
  · exact (congrArg Twin.mirrors htwin).trans hmirrors
  · exact (congrArg Twin.filling htwin).trans hfilling
  · exact (congrArg Twin.refetches htwin).trans hrefetches

/-- A lost partner: mirroring is over and STANDBY partitions are quenched with 0x0603 (R410). -/
theorem declareLost_spec (s : State) :
    let t := declareLost s
    t.twin.state = .lost ∧ t.twin.misses = s.twin.misses ∧ t.twin.missRun = 0 ∧ MirroringOver t ∧
    ∀ p, (partOfIx s p).role = .standby → (partOfIx s p).state ≠ .free → (partOfIx s p).quenching = none →
      (partOfIx t p).quenching = some (0x0603, false) ∧ (partOfIx t p).quenchEvent = 0x0603 ∧ (partOfIx t p).quenchCount = (partOfIx s p).quenchCount + 1 := by
  intro t
  obtain ⟨hover, hroles, hmarks, htwin⟩ := endMirroring_spec (updTwin (fun t => { t with state := .lost, missRun := 0 }) s)
  generalize hv : endMirroring (updTwin (fun t => { t with state := .lost, missRun := 0 }) s) = v at hover hroles hmarks htwin
  generalize hl : (allParts.filter fun p => (partOfIx v p).role == .standby && (partOfIx v p).state != .free) = l
  have ht : t = l.foldl lostQuench v := by rw [← hl, ← hv]; rfl
  clear_value t
  have hnodup : l.Nodup := hl ▸ (List.nodup_finRange 16).filter _
  obtain ⟨hqmarks, hqtwin, hqplain⟩ := lostQuenches_spec hnodup v
  rw [← ht] at hqmarks hqtwin hqplain
  have hfields := hqtwin.trans htwin
  refine ⟨(congrArg Twin.state hfields).trans rfl, (congrArg Twin.misses hfields).trans rfl, (congrArg Twin.missRun hfields).trans rfl,
    hover.of_calm hqtwin hqplain, fun p hrole hstate hquench => ?_⟩
  obtain ⟨hvstate, hvquenching, -, hvcount⟩ := quenchMarks_eq_iff.1 (hmarks p)
  have hmem : p ∈ l := by
    rw [← hl, List.mem_filter]
    refine ⟨List.mem_finRange p, ?_⟩
    rw [hroles.role p, hvstate]
    simp only [Bool.and_eq_true, beq_iff_eq, bne_iff_ne]
    exact ⟨hrole, hstate⟩
  have hp := hqmarks p
  rw [if_pos hmem] at hp
  unfold lostMarks at hp
  obtain ⟨-, hquenching, hevent, hcount⟩ := quenchMarks_eq_iff.1 hp
  rw [hquenching, hevent, hcount, hvquenching, hvcount]
  refine ⟨?_, rfl, rfl⟩
  rw [show (partOfIx (updTwin (fun t => { t with state := .lost, missRun := 0 }) s) p).quenching = none from hquench]
  rfl

/-- A part that has left its pair (R412). -/
structure Detached (t : State) : Prop where
  state : t.twin.state = .unpaired
  ended : MirroringOver t
  roles : ∀ p, (partOfIx t p).role = .none

theorem detachTwin_spec (s : State) : Detached (detachTwin s) ∧ ∀ x ∈ s.out, x ∈ (detachTwin s).out := by
  obtain ⟨hover, hroles, -, htwin⟩ := endMirroring_spec (updTwin (fun t => { t with state := .unpaired, missRun := 0, seen := false }) s)
  generalize hv : endMirroring (updTwin (fun t => { t with state := .unpaired, missRun := 0, seen := false }) s) = v at hover hroles htwin
  have hd : detachTwin s = allParts.foldl (fun s p => updPart p (fun x => { x with role := .none }) s) v := by rw [← hv]; rfl
  have hrest : ∀ (l : List PartIx) (u : State), (l.foldl (fun s p => updPart p (fun x => { x with role := .none }) s) u).twin = u.twin ∧
      (l.foldl (fun s p => updPart p (fun x => { x with role := .none }) s) u).out = u.out ∧
      StaysPlain u (l.foldl (fun s p => updPart p (fun x => { x with role := .none }) s) u) := fun l => by
    induction l with
    | nil => exact fun u => ⟨rfl, rfl, .refl u⟩
    | cons p l ih =>
      intro u
      obtain ⟨htwin, hout, hplain⟩ := ih (updPart p (fun x => { x with role := .none }) u)
      exact ⟨htwin, hout, (updPart_plain u).trans hplain⟩
  obtain ⟨hdtwin, hdout, hdplain⟩ := hrest allParts v
  rw [← hd] at hdtwin hdout hdplain
  refine ⟨⟨?_, hover.of_calm (by rw [hdtwin]) hdplain, fun p => ?_⟩, fun x hx => ?_⟩
  · rw [hdtwin]
    exact congrArg Twin.state htwin
  · rw [hd, partOfIx_eachPart]
  · rw [hdout]
    exact hroles.out x hx

end Sys2Proof.Machine

namespace Sys2Proof.Machine

/-! ### Records of the twin protocol (R405) -/

/-- The twin state after a record of a type. -/
def countSent (n : Nat) (w : Twin) : Twin := { w with sent := tblSet w.sent n (tblGetD w.sent n 0 + 1) }

/-- A record as it is sent (R405). -/
def sentRecord (s : State) (n : Nat) (p : PartIx) (tag : Nat) : TwinRec :=
  let r : TwinRec := { rtype := n, part := p, sender := s.fabric.partId, gen := BitVec.ofNat 32 s.twin.pairGen
                       rseq := (tblGetD s.twin.sent n 0 + 1) % 2 ^ 32, reserved := 0, tag := BitVec.ofNat 64 tag, armed := s.twin.armed, check := 0 }
  { r with check := crc32c (recBytes r) }

theorem sendTwin_eq (n : Nat) (p : PartIx) (tag : Nat) (s : State) :
    sendTwin n p tag s = sendTwinMsg .twinRecord (fun v => .twinRecord v (sentRecord s n p tag)) { s with twin := countSent n s.twin } := rfl

theorem sendTwin_silent {s : State} (h : s.twin.port < 16 → ∀ x : PortIx, s.twin.port = x.val → (portOf s x).state ≠ .up) (n : Nat) (p : PartIx)
    (tag : Nat) : sendTwin n p tag s = { s with twin := countSent n s.twin } := by
  rw [sendTwin_eq]
  unfold sendTwinMsg
  rw [if_neg]
  intro hcond
  simp only [countSent, Bool.and_eq_true, beq_iff_eq] at hcond
  obtain ⟨⟨hlt, hup⟩, -⟩ := hcond
  have hport : s.twin.port < 16 := of_decide_eq_true hlt
  exact h hport (dieBits s.twin.port) (by simp [dieBits, Nat.mod_eq_of_lt hport]) hup

theorem sendTwin_twin (n : Nat) (p : PartIx) (tag : Nat) (s : State) : (sendTwin n p tag s).twin = countSent n s.twin := by
  rw [sendTwin_eq]
  unfold sendTwinMsg
  split <;> rfl

/-- A record on its way out of the twin port. -/
def onTwinPort (s : State) (k : MsgKind) (x : PortIx) : Sent := { port := some x, vc := k.vc, head := msgHead s k x s.twin.partner 0 }

theorem sendTwinMsg_sends {s : State} {x : PortIx} (h : TwinSends s x) (k : MsgKind) (o : Sent → Output) :
    sendTwinMsg k o s = emit (o (onTwinPort s k x)) s := by
  obtain ⟨hport, hup, hcalm⟩ := h
  have hx : dieBits s.twin.port = x := by rw [hport, dieBits_val]
  have hlt := x.isLt
  unfold sendTwinMsg
  rw [hx, if_pos (by simp [hport, hup, hcalm])]
  rfl

theorem sendTwin_sends {s : State} {x : PortIx} (h : TwinSends s x) (n : Nat) (p : PartIx) (tag : Nat) :
    sendTwin n p tag s = { s with out := s.out ++ [.twinRecord (onTwinPort s .twinRecord x) (sentRecord s n p tag)], twin := countSent n s.twin } := by
  have hsends : TwinSends { s with twin := countSent n s.twin } x := ⟨h.port, h.up, h.calm⟩
  rw [sendTwin_eq, sendTwinMsg_sends hsends]
  rfl

/-! ### Writes of 0x3040 (R406, R410, R412) -/

/-- A write of the host to a byte entry of 0x3040. -/
theorem serveReq_twin {s : State} (x : Extra) {r : FpReq} {k v : Nat} (h : HostWrites s r 0x3040 k (leBytes 1 v)) (hk : k = 6 ∨ k = 7 ∨ k = 8) (hv : v < 256) :
    serveReq x r s = answeredWrite r s (writeTwin x k v s) := by
  obtain ⟨o, hrow, htype, haccess, hlen⟩ : ∃ o, objOf 0x3040 k = some o ∧ o.type ≠ 11 ∧ 2 < o.access ∧ o.len = 1 := by
    rcases hk with rfl | rfl | rfl <;> exact ⟨_, rfl, by decide, by decide, by decide⟩
  have hright : mayWrite .host 0x3040 k = true := by rcases hk with rfl | rfl | rfl <;> decide
  have hbyte : leNat (leBytes 1 v) = v := by rw [leNat_leBytes]; omega
  have hwrite := serveReq_hostWrite x h hrow hright htype haccess (by rw [leBytes_length, hlen])
  obtain ⟨-, -, -, hi, -, -⟩ := h
  have hdies : needsDies s true r = [] := by simp [needsDies, hi]
  rw [hwrite, hdies, List.foldl_nil]
  have hobj : writeObj x r.via .host (whoOf s r.via r.member) 0x3040 k (leBytes 1 v) s = writeTwin x k (leNat (leBytes 1 v)) s := by
    simp [writeObj, write3]
  rw [hobj, hbyte]

theorem exec_pair {s : State} {r : FpReq} (h : HostWrites s r 0x3040 6 (leBytes 1 1)) : exec (.pair r) s = .next (answeredWrite r s (startPair s)) := by
  have hserve := serveReq_twin .plain h (.inl rfl) (by decide)
  obtain ⟨-, -, hop, hi, hsub, hdata⟩ := h
  change execPair r s = _
  rw [execPair, if_pos (by simp [isWrite, hop, hi, hsub, hdata, leNat_leBytes]), hserve]
  rfl

theorem exec_detach {s : State} {r : FpReq} (h : HostWrites s r 0x3040 6 (leBytes 1 2)) : exec (.detach r) s = .next (answeredWrite r s (startDetach s)) := by
  have hserve := serveReq_twin .plain h (.inl rfl) (by decide)
  obtain ⟨-, -, hop, hi, hsub, hdata⟩ := h
  change execDetach r s = _
  rw [execDetach, if_pos (by simp [isWrite, hop, hi, hsub, hdata, leNat_leBytes]), hserve]
  rfl

theorem exec_promote {s : State} {r : FpReq} {p : PartIx} (h : HostWrites s r 0x3040 8 (leBytes 1 p.val)) :
    exec (.promote r) s = .next (answeredWrite r s (startPromote p s)) := by
  have hlt := p.isLt
  have hserve := serveReq_twin .plain h (.inr (.inr rfl)) (by omega)
  obtain ⟨-, -, hop, hi, hsub, -⟩ := h
  have hpart : writeTwin .plain 8 p.val s = startPromote p s := by simp [writeTwin, onPart, hlt, show ixOf p.val = p from dieBits_val p]
  change execPromote r s = _
  rw [execPromote, if_pos (by simp [isWrite, hop, hi, hsub]), hserve, hpart]

/-! ### Records that are discarded (R405) -/

/-- A record that is not valid, or that no pair awaits, is counted as discarded. -/
theorem exec_discards {s : State} {r : TwinRec}
    (h : recValid s r = false ∨ (s.twin.state ≠ .paired ∧ s.twin.state ≠ .lost ∧ s.twin.state ≠ .pairing)) {i : Instr}
    (hi : i ∈ [Instr.heartbeat r, .detachRecord r, .confirm r, .commit r, .abort r, .refetch r, .fillDone r]) : exec i s = .next (discardRec s) := by
  have hpaired : (recValid s r && s.twin.state == .paired) = false := by rcases h with h | ⟨h, -, -⟩ <;> simp [h]
  have hguard : (!(recValid s r) || s.twin.state != .paired) = true := by rcases h with h | ⟨h, -, -⟩ <;> simp [h]
  simp only [List.mem_cons, List.not_mem_nil, or_false] at hi
  rcases hi with rfl | rfl | rfl | rfl | rfl | rfl | rfl
  · exact congrArg ok (if_neg (by rcases h with h | ⟨hp, hl, -⟩ <;> simp [*]))
  · exact congrArg ok (if_neg (by rcases h with h | ⟨hp, -, hl⟩ <;> simp [*]))
  · exact congrArg ok (if_pos hguard)
  · exact congrArg ok (if_pos hguard)
  · exact congrArg ok (if_pos hguard)
  · exact congrArg ok (if_pos hguard)
  · exact congrArg ok (if_neg (by simp [hpaired]))

/-- Settles O49: what each record, write and interval makes of the pair (R405, R406, R408, R410, R412). -/
theorem twinPairing : Obligations.TwinPairing := by
  unfold Obligations.TwinPairing
  intro s
  dsimp only
  refine ⟨fun n p tag h => sendTwin_silent h n p tag, fun x n p tag h => ⟨_, _, sendTwin_sends h n p tag, ⟨rfl, rfl⟩, rfl, rfl, rfl, rfl⟩,
    fun r h => ⟨fun hstate hlink => ?pair, fun hbad => ?pairRefused⟩, fun hstate => congrArg ok (if_pos hstate), fun hstate => congrArg ok (if_neg hstate),
    fun r hsound hstate => ?pairs, fun r hbad => ?pairDiscarded, fun r i hbad hi => exec_discards hbad hi, fun hstate hphase => ?beats, fun hpaired hlost => ?silent,
    fun r hvalid hstate => ?heard, fun hstate tie => congrArg ok (if_pos (by simpa using hstate)), fun hstate => ⟨fun tie hseen => ?seen, fun tie hunseen hfew => ?missed, fun hunseen hmany => ⟨?tie, ?lost⟩⟩,
    ⟨fun r h => ⟨fun hstate => ?nothing, fun hstate => ?detach⟩, fun r hvalid hstate => ?detached⟩, fun r p h => ⟨fun hlost hstandby hquench => ?promote, fun hbad => ?promoteRefused⟩⟩
  case pair =>
    rw [exec_pair h, startPair, if_pos (by simp [hstate, hlink])]
    rfl
  case pairRefused =>
    rw [exec_pair h, startPair, if_neg (by rcases hbad with hbad | hbad <;> simp [hbad])]
    rfl
  case pairs =>
    change execPairRecord r s = _
    have hgen : (sendTwin 2 0 0 s).twin.pairGen = s.twin.pairGen := by rw [sendTwin_twin]; rfl
    rw [execPairRecord, if_neg (by simp [hsound, hstate]), updTwin, hgen]
  case pairDiscarded => exact congrArg ok (if_pos (by rcases hbad with hbad | hbad <;> simp [hbad]))
  case beats => exact congrArg ok (if_pos (by rcases hstate with h | h <;> simp [h, hphase]))
  case silent => exact congrArg ok (if_neg (by simp [hpaired, hlost]))
  case heard => exact congrArg ok (if_pos (by rcases hstate with h | h <;> simp [h, hvalid]))
  case seen =>
    change execHeartbeatInterval tie s = _
    simp [execHeartbeatInterval, hstate, hseen, updTwin]
  case missed =>
    change execHeartbeatInterval tie s = _
    simp [execHeartbeatInterval, hstate, hunseen, hfew, updTwin]
  case tie =>
    change execHeartbeatInterval true s = _
    simp [execHeartbeatInterval, hstate, hunseen, not_lt.2 hmany, updTwin]
  case lost =>
    obtain ⟨hlost, hmisses, hrun, ⟨⟨hmirrors, hfilling, hrefetches⟩, hplain⟩, hquenched⟩ := declareLost_spec (updTwin (fun t => { t with misses := t.misses + 1 }) s)
    refine ⟨_, ?_, hlost, hmisses, hrun, ⟨hmirrors, hfilling, hrefetches, hplain⟩, hquenched⟩
    change execHeartbeatInterval false s = _
    simp [execHeartbeatInterval, hstate, hunseen, not_lt.2 hmany]
  case nothing =>
    rw [exec_detach h, startDetach, hstate]
    rfl
  case detach =>
    have hexec := exec_detach h
    by_cases hlost : s.twin.state = .lost
    · rw [startDetach, hlost] at hexec
      obtain ⟨⟨hstate', ⟨⟨hmirrors, hfilling, hrefetches⟩, hplain⟩, hroles⟩, -⟩ := detachTwin_spec s
      exact ⟨_, hexec, ⟨hstate', ⟨hmirrors, hfilling, hrefetches, hplain⟩, hroles⟩, fun x hnot => absurd hlost hnot⟩
    · have hstart : startDetach s = .ok (detachTwin (sendTwin 8 0 0 s)) := by
        unfold startDetach
        split
        · rename_i hnone; exact absurd hnone hstate
        · rename_i hl; exact absurd hl hlost
        · rfl
      rw [hstart] at hexec
      obtain ⟨⟨hstate', ⟨⟨hmirrors, hfilling, hrefetches⟩, hplain⟩, hroles⟩, hout⟩ := detachTwin_spec (sendTwin 8 0 0 s)
      refine ⟨_, hexec, ⟨hstate', ⟨hmirrors, hfilling, hrefetches, hplain⟩, hroles⟩, fun x _ hsends => ⟨onTwinPort s .twinRecord x, sentRecord s 8 0 0, hout _ ?_, ⟨rfl, rfl⟩, rfl⟩⟩
      rw [sendTwin_sends hsends]
      simp
  case detached =>
    obtain ⟨⟨hstate', ⟨⟨hmirrors, hfilling, hrefetches⟩, hplain⟩, hroles⟩, -⟩ := detachTwin_spec s
    refine ⟨_, congrArg ok (if_pos ?_), hstate', ⟨hmirrors, hfilling, hrefetches, hplain⟩, hroles⟩
    rcases hstate with h | h <;> simp [h, hvalid]
  case promote =>
    have hexec := exec_promote h
    rw [startPromote, if_pos (by simp [hlost, hstandby, hquench])] at hexec
    exact ⟨_, hexec, partOfIx_updPart_self _ _ _, fun k hk => partOfIx_updPart_ne _ _ hk, updPart_frame_parts p _ s rfl⟩
  case promoteRefused =>
    rw [exec_promote h, startPromote, if_neg (by rcases hbad with hbad | hbad | hbad <;> simp [hbad])]
    rfl

end Sys2Proof.Machine

namespace Sys2Proof.Machine

/-! ### An import whose record has no way to its gateway (R101, R357, R399)

An ABORT lets the import of a bench member's partition commit alone. Its record goes to the gateway; where the fabric has no way to it, the message is
discarded and counted at the port, which no record of the part's own does. -/

/-- A chain of one prime. -/
def oneChain : List Byte :=
  let b := leBytes 2 0xC7C0 ++ leBytes 4 0x00010001 ++ List.replicate 18 0 ++ leBytes 1 0 ++ List.replicate 75 0xFF ++ List.replicate 24 0
  b ++ leBytes 4 (crc32c b).toNat

/-- An import that awaits the twin. -/
def awaitingImport : Import :=
  { slot := 2, die := 0, queue := 0, tag := 0, homeMask := 1, length := 256, refetch := false, envelope := [], sessionKey := none, nextSeg := 1
    plain := List.replicate 128 0 ++ oneChain, placed := [], confirm := true, mirror := true, staged := none }

/-- A KEYSET_BIND packet as the import's queue holds it. -/
def someBind : List Byte := leBytes 2 0xC750 ++ leBytes 2 1 ++ leBytes 1 3 ++ leBytes 1 1 ++ List.replicate 58 0

/-- The partner's ABORT of the import. -/
def someAbort : TwinRec :=
  let r : TwinRec := { rtype := 5, part := 0, sender := 0, gen := 0, rseq := 1, reserved := 0, tag := 0, armed := false, check := 0 }
  { r with check := crc32c (recBytes r) }

/-- A paired part in which a bench member's partition has the import, and whose fabric is not valid. -/
def memberImport : State :=
  updQueue 0 0 (fun q => { q with enabled := true, crLog2 := 4, hold := some (.import 2, .packet 1 1 someBind none) })
    (updPart 0 (fun p => { p with entry := leBytes 2 1 ++ leBytes 2 5 ++ leBytes 2 0 ++ leBytes 1 1 ++ p.entry.drop 7, imports := [awaitingImport] })
      (updTwin (fun t => { t with state := .paired, partner := 0, pairGen := 0 }) someRunning))

set_option maxRecDepth 100000 in
theorem memberImport_discards : cancelAfter (exec (.abort someAbort) memberImport) = some (true, [(5, 1)]) := by decide +kernel

set_option maxRecDepth 100000 in
theorem memberImport_before : memberImport.twin.state = .paired ∧ recValid memberImport someAbort = true ∧
    ((partOfIx memberImport someAbort.part).imports.find? fun m => m.confirm && m.tag == someAbort.tag.toNat) = some awaitingImport ∧
    holdPacket memberImport awaitingImport.die awaitingImport.queue = some (.import 2, someBind) ∧
    (regChain (bytesAt awaitingImport.plain 0x80 128) (partOfIx memberImport someAbort.part).chains).isSome = true ∧
    (portOf memberImport 0).discards = [] := by decide +kernel

/-- Refutes O50: the record of an import that commits alone, with no way to its gateway, is counted at a port, which the statement says keeps its counts. -/
theorem not_twinMirroring : ¬ Obligations.TwinMirroring := by
  intro h
  obtain ⟨hpaired, hvalid, himport, hheld, hchain, hbefore⟩ := memberImport_before
  obtain ⟨-, u, hexec, -, hframe⟩ := (h memberImport hpaired).1 someAbort awaitingImport someBind (.import 2) hvalid himport hheld hchain
  have hafter := memberImport_discards
  rw [hexec] at hafter
  simp only [cancelAfter, Option.some.injEq, Prod.mk.injEq, Bool.and_eq_true, List.isEmpty_iff, List.all_eq_true, Bool.not_eq_true'] at hafter
  obtain ⟨⟨hlog, hstop⟩, hdiscards⟩ := hafter
  have hquiet : Quiet 0 (releaseQueue awaitingImport.die awaitingImport.queue u) :=
    ⟨by rw [hlog]; rfl, fun d q => hstop d (List.mem_finRange d) q (List.mem_finRange q)⟩
  have hports := ((settleQueue_quiet (by decide) awaitingImport.die awaitingImport.queue
    (updQueue awaitingImport.die awaitingImport.queue (fun x => { x with hold := none }) u)).quiet (Nat.zero_le _) hquiet).2.trans (hframe .ports (by decide))
  rw [portOf, show (releaseQueue awaitingImport.die awaitingImport.queue u).ports = memberImport.ports from hports, ← portOf, hbefore] at hdiscards
  exact absurd hdiscards nofun

end Sys2Proof.Machine

namespace Sys2Proof.Machine

/-! ### O43: wrapped import -/

/-- A KEYSET_BIND packet without an envelope. -/
def someEmptyBind : List Byte :=
  let b := leBytes 2 0xC750 ++ leBytes 2 1 ++ leBytes 1 3 ++ leBytes 1 1 ++ List.replicate 54 0
  b ++ leBytes 4 (crc32c b).toNat

/-- A queue of a bench member's partition that has read that KEYSET_BIND, in a part whose fabric is not valid. -/
def memberBind : State :=
  updQueue 0 0 (fun q => { q with enabled := true, crLog2 := 4, line := [.packet 1 1 someEmptyBind none] })
    (updPart 0 (fun p => { p with entry := leBytes 2 1 ++ leBytes 2 5 ++ leBytes 2 0 ++ leBytes 1 1 ++ p.entry.drop 7 }) someRunning)

/-- What is looked at after a step: how many events are logged, whether a queue withholds what follows, and what die 0's port has discarded. -/
def bindAfter : Result → Option (Nat × Bool × Tbl Nat)
  | .next t => some (t.log.entries.length, allDies.all fun d => allQueues.all fun q => !(queueOf t d q).stopFollowing, (portOf t 0).discards)
  | _ => none

theorem memberBind_discards : bindAfter (exec (.keysetBind 0 0 []) memberBind) = some (1, true, [(5, 1)]) := by decide +kernel

theorem memberBind_before : (dieOf memberBind 0).owner = some 0 ∧ headPacket memberBind 0 0 3 = some someEmptyBind ∧ bodyOk someEmptyBind = true ∧
    (partOfIx memberBind 0).role ≠ .standby ∧ fieldAt someEmptyBind 0x20 8 < 256 ∧
    memberBind.log.entries = [] ∧ (portOf memberBind 0).discards = [] := by decide +kernel

theorem memberBind_memsOk : memsOk memberBind := by
  unfold memsOk dieOk
  decide +kernel

/-- Without an envelope there is none that is sound. -/
theorem bindChecks_nil (s : State) (p : PartIx) (slot : Nat) (homes : BitVec 16) : bindChecks s p [] slot homes = .error 0x01 := rfl

theorem length_pushLog_nil (x : List Byte) : (pushLog 4096 [] x).length = 1 := by simp [pushLog]

/-- Refutes O43: the record of a KEYSET_BIND that is refused, with no way to its gateway, is counted at a port, which the statement says keeps its counts. -/
theorem not_keySetImport : ¬ Obligations.KeySetImport := by
  intro h
  obtain ⟨hown, hhead, hbody, hrole, hlen, hlog, hbefore⟩ := memberBind_before
  obtain ⟨hrefused, -⟩ := (h memberBind 0 memberBind_memsOk).1 0 0 someEmptyBind [] hown hhead hbody hrole
  rw [if_pos hlen] at hrefused
  obtain ⟨u, hexec, ⟨-, time, hentries⟩, -, -, -, hframe⟩ := hrefused 1 (bindChecks_nil ..)
  have hafter := memberBind_discards
  rw [hexec] at hafter
  simp only [bindAfter, Option.some.injEq, Prod.mk.injEq, List.all_eq_true, Bool.not_eq_true'] at hafter
  obtain ⟨hcount, hstop, hdiscards⟩ := hafter
  have hquiet : Quiet 1 (settleQueue 0 0 u) := ⟨hcount.le, fun d q => hstop d (List.mem_finRange d) q (List.mem_finRange q)⟩
  have hone : 1 ≤ u.log.entries.length := by rw [hentries, hlog, length_pushLog_nil]
  have hports := ((settleQueue_quiet (by decide) 0 0 u).quiet hone hquiet).2.trans (hframe .ports (by decide))
  rw [portOf, hports, ← portOf, hbefore] at hdiscards
  exact absurd hdiscards nofun

end Sys2Proof.Machine

namespace Sys2Proof.Machine

/-! ### What a quench leaves of other operations in flight

A quench ends the operations of its own job and changes of others only what it must: ring claims that are lost and transfers that move up in their
group. `flight` is what it leaves of operations, jobs and the fabric; `Spares` says what of them outlives a quench. -/

/-- What of an operation no quench of another job changes. -/
def opCore (o : Op) : Op := { o with fills := [], takes := [], xfer := none }

/-- Of a state: its operations in flight, its jobs, and its fabric but what arrived and the groups asked of a bench. -/
def flight (s : State) : State :=
  { resetOf s.fuses with
    dies := s.dies.map fun x => { Die.zero with ops := x.ops.map opCore }
    fabric := { s.fabric with arrived := [], benchGroups := [] }, jobs := s.jobs }

theorem flight_foldl {α : Type} {f : State → α → State} (hf : ∀ s x, flight (f s x) = flight s) (l : List α) (s : State) :
    flight (l.foldl f s) = flight s := by
  induction l generalizing s with
  | nil => rfl
  | cons x l ih => exact (ih _).trans (hf s x)

/-- A change of a die that keeps what counts of its operations. -/
theorem flight_updDie (d : DieIx) (f : Die → Die) (s : State) (hf : ∀ x, (f x).ops.map opCore = x.ops.map opCore) :
    flight (updDie d f s) = flight s := by
  have h : (updDie d f s).dies.map (fun x => { Die.zero with ops := x.ops.map opCore }) = s.dies.map fun x => { Die.zero with ops := x.ops.map opCore } := by
    ext i hi
    by_cases hid : d.val = i <;> simp [updDie, hid, hf]
  exact congrArg (fun v => { flight s with dies := v }) h

theorem flight_mapDies (f : Die → Die) (s : State) (hf : ∀ x, (f x).ops = x.ops) : flight { s with dies := s.dies.map f } = flight s := by
  have h : (s.dies.map f).map (fun x => { Die.zero with ops := x.ops.map opCore }) = s.dies.map fun x => { Die.zero with ops := x.ops.map opCore } := by
    ext i hi
    simp [hf]
  exact congrArg (fun v => { flight s with dies := v }) h

@[simp] theorem flight_updQueue (d : DieIx) (q : QueueIx) (f : Queue → Queue) (s : State) : flight (updQueue d q f s) = flight s :=
  flight_updDie _ _ _ fun _ => rfl
@[simp] theorem flight_updHandle (d : DieIx) (h : Nat) (f : Handle → Handle) (s : State) : flight (updHandle d h f s) = flight s :=
  flight_updDie _ _ _ fun _ => rfl
@[simp] theorem flight_updStore (d : DieIx) (h : Nat) (f : StoreHandle → StoreHandle) (s : State) : flight (updStore d h f s) = flight s :=
  flight_updDie _ _ _ fun _ => rfl
@[simp] theorem flight_updRing (d : DieIx) (r : Nat) (f : Ring → Ring) (s : State) : flight (updRing d r f s) = flight s :=
  flight_updDie _ _ _ fun _ => rfl
@[simp] theorem flight_emit (o : Output) (s : State) : flight (emit o s) = flight s := rfl
@[simp] theorem flight_zeroBnSlots (f : Nat → BnSlot → Bool) (s : State) : flight (zeroBnSlots f s) = flight s := rfl
@[simp] theorem flight_updHost (h : HostId) (f : HostPort → HostPort) (s : State) : flight (updHost h f s) = flight s := by cases h <;> rfl

/-! #### Messages and completion records -/

@[simp] theorem flight_msix (h : HostId) (fn vec : Nat) (s : State) : flight (msix h fn vec s) = flight s := by
  unfold msix
  split
  · rfl
  · simp

@[simp] theorem flight_sendMsg (k : MsgKind) (d : DieIx) (part : Nat) (dst : DieIx) (o : Sent → Output) (s : State) :
    flight (sendMsg k d part dst o s) = flight s := by
  unfold sendMsg
  split
  · rfl
  · split <;> rfl

@[simp] theorem flight_deliverCpl (d : DieIx) (q : QueueIx) (p : PartIx) (c : CplRec) (s : State) : flight (deliverCpl d q p c s) = flight s := by
  simp only [deliverCpl]
  split
  · simp
  · split
    · split
      · simp
      · simp
    · rfl

@[simp] theorem flight_putCpl (d : DieIx) (q : QueueIx) (c : Cpl) (s : State) : flight (putCpl d q c s) = flight s := by
  simp only [putCpl]
  split
  · rfl
  · split
    · rfl
    · split <;> simp

/-! #### Poison -/

@[simp] theorem flight_poisonHandle (d : DieIx) (h : Nat) (e : Ev) (s : State) : flight (poisonHandle d h e s) = flight s := by
  unfold poisonHandle
  split <;> simp

@[simp] theorem flight_poisonDest (e : Ev) (t : Dest) (s : State) : flight (poisonDest e t s) = flight s := by
  cases t with
  | handle d h => exact flight_poisonHandle ..
  | store d h => simp only [poisonDest, poisonStore]; split <;> simp
  | ring d r => simp only [poisonDest]; split <;> simp
  | slot | tile | cache | scalar | palette => exact flight_updDie _ _ _ fun _ => rfl
  | _ => rfl

@[simp] theorem flight_poisonAll (e : Ev) (ds : List Dest) (s : State) : flight (poisonAll e ds s) = flight s :=
  flight_foldl (fun s d => flight_poisonDest e d s) ds s

/-! #### Aborted operations -/

/-- A change of a die that keeps its operations, with a free value drawn. -/
theorem flight_drawDie (d : DieIx) (f : Die → Die) (s : State) (n : Nat) (hf : ∀ x, (f x).ops = x.ops) : flight { updDie d f s with free := n } = flight s :=
  flight_updDie d f s fun x => congrArg (List.map opCore) (hf x)

theorem flight_spoilDest (ys : List Op) (t : Dest) (s : State) : flight (spoilDest ys t s) = flight s := by
  cases t with
  | handle d h => unfold spoilDest; dsimp only; split; exacts [flight_updDie _ _ _ fun _ => rfl, flight_drawDie d _ _ _ fun _ => rfl]
  | store d h =>
    unfold spoilDest updStore
    dsimp only
    refine (flight_drawDie d _ _ _ ?_).trans (flight_updDie d _ s ?_)
    · exact fun _ => rfl
    · exact fun _ => rfl
  | slot d k =>
    unfold spoilDest; dsimp only
    split
    · rfl
    · exact flight_updDie d _ _ fun _ => rfl
  | region | tile | cache | scalar => exact flight_drawDie _ _ _ _ fun _ => rfl
  | _ => rfl

theorem flight_spoilSlots (d : DieIx) (o : Op) (s : State) : flight (spoilSlots d o s) = flight s := by
  refine flight_foldl (fun s x => ?_) _ s
  exact flight_drawDie d _ s _ fun _ => rfl

theorem flight_resetRing (d : DieIx) (e : Ev) (r : Nat) (s : State) : flight (resetRing d e r s) = flight s := by
  unfold resetRing
  refine (flight_poisonHandle ..).trans ((flight_updDie _ _ _ fun x => ?_).trans (flight_updRing ..))
  simp [opCore]

theorem flight_dropClaims (d : DieIx) (e : Ev) (o : Op) (s : State) : flight (dropClaims d e o s) = flight s :=
  flight_foldl (fun s r => flight_resetRing d e r s) _ s

theorem flight_setGroup (d : DieIx) (i g : Nat) (s : State) : flight (setGroup d i g s) = flight s := by
  refine flight_updDie _ _ _ fun x => ?_
  simp only [List.map_map, List.map_inj_left, Function.comp]
  intro o _
  split <;> rfl

theorem flight_sendGroup (h : HostId) (d : DieIx) (o : Op) (s : State) : flight (sendGroup h d o s) = flight s := by
  unfold sendGroup
  split
  · exact (flight_sendMsg ..).trans (flight_setGroup ..)
  · split
    · exact (flight_setGroup ..).trans (flight_updHost ..)
    · rfl
  · rfl

theorem flight_sendWaiting (h : HostId) (s : State) : flight (sendWaiting h s) = flight s := by
  unfold sendWaiting sendBench
  split
  · exact flight_sendGroup ..
  · split
    · rfl
    · split
      · simp
      · split
        · rfl
        · exact flight_updHost ..

theorem flight_abortBn (id : Nat) (s : State) : flight (abortBn id s) = flight s := by
  unfold abortBn
  dsimp only
  split
  · split
    · split <;> rfl
    · rfl
  · rfl

theorem flight_zeroJobSecrets (j : Job) (s : State) : flight (zeroJobSecrets j s) = flight s := by
  refine (flight_zeroBnSlots _ _).trans (flight_foldl (fun s x => ?_) _ s)
  split
  · exact flight_updDie _ _ _ fun _ => rfl
  · rfl

theorem flight_finishEvictions (p : PartIx) (s : State) : flight (finishEvictions p s) = flight s := rfl

theorem flight_zeroJobBufs (id : Nat) (s : State) : flight (zeroJobBufs id s) = flight s := by
  refine flight_mapDies _ _ ?_
  exact fun _ => rfl

/-- What leaves fuses, dies, jobs and fabric leaves all of it. -/
theorem flight_of_frame {ws : List Area} {s t : State} (h : Frame ws s t) (hfuses : Area.fuses ∉ ws := by decide) (hdies : Area.dies ∉ ws := by decide)
    (hjobs : Area.jobs ∉ ws := by decide) (hfabric : Area.fabric ∉ ws := by decide) : flight t = flight s := by
  have hops : t.dies.map (fun x => { Die.zero with ops := x.ops.map opCore }) = s.dies.map fun x => { Die.zero with ops := x.ops.map opCore } := by
    ext i hi
    have hdie : (dieOf t ⟨i, hi⟩).ops = (dieOf s ⟨i, hi⟩).ops := h.dieField hdies Die.ops (fun _ => rfl) _
    simp only [dieOf] at hdie
    simp [hdie]
  unfold flight
  rw [hops, show t.fuses = s.fuses from h .fuses hfuses, show t.jobs = s.jobs from h .jobs hjobs, show t.fabric = s.fabric from h .fabric hfabric]

theorem flight_logEvent (e : Ev) (a : EvArgs) (s : State) : flight (logEvent e a s) = flight s := flight_of_frame (logEvent_frame e a s)

/-! #### What outlives a quench -/

/-- The operations of an identifier on a die, as far as no quench of another job changes them. -/
def opsNamed (s : State) (d : DieIx) (i : Nat) : List Op := ((dieOf s d).ops.map opCore).filter (·.id == i)

/-- Operations with an identifier of `I`, their requests, and jobs with an identifier of `N` are there still; so is the fabric's own state. -/
structure Spares (I N : Nat → Prop) (s t : State) : Prop where
  fabric : { t.fabric with arrived := [], requests := [], benchGroups := [] } = { s.fabric with arrived := [], requests := [], benchGroups := [] }
  requests : ∀ r ∈ s.fabric.requests, I r.op → r ∈ t.fabric.requests
  ops : ∀ d i, I i → opsNamed t d i = opsNamed s d i
  jobs : ∀ n, N n → jobOf t n = jobOf s n

section

variable {I N : Nat → Prop}

theorem Spares.refl (s : State) : Spares I N s s := ⟨rfl, fun _ h _ => h, fun _ _ _ => rfl, fun _ _ => rfl⟩

theorem Spares.trans {s t u : State} (h : Spares I N s t) (k : Spares I N t u) : Spares I N s u where
  fabric := k.fabric.trans h.fabric
  requests r hr hi := k.requests r (h.requests r hr hi) hi
  ops d i hi := (k.ops d i hi).trans (h.ops d i hi)
  jobs n hn := (k.jobs n hn).trans (h.jobs n hn)

theorem Spares.foldl {α : Type} {f : State → α → State} (l : List α) (hf : ∀ s, ∀ x ∈ l, Spares I N s (f s x)) (s : State) :
    Spares I N s (l.foldl f s) := by
  induction l generalizing s with
  | nil => exact .refl s
  | cons x l ih => exact (hf s x (by simp)).trans (ih (fun s y hy => hf s y (List.mem_cons_of_mem _ hy)) _)

/-- The operations that `flight` knows. -/
theorem ops_flight (s : State) (d : DieIx) : (dieOf (flight s) d).ops = (dieOf s d).ops.map opCore := by simp [dieOf, flight]

theorem Spares.of_flight {s t : State} (h : flight t = flight s) : Spares I N s t := by
  have hjobs : (flight t).jobs = (flight s).jobs := congrArg State.jobs h
  have hjobs : t.jobs = s.jobs := hjobs
  have hfabric : (flight t).fabric = (flight s).fabric := congrArg State.fabric h
  have hrequests : (flight t).fabric.requests = (flight s).fabric.requests := congrArg Fabric.requests hfabric
  refine ⟨congrArg (fun x => { x with requests := [] }) hfabric, fun r hr _ => ?_, fun d i _ => ?_, fun n _ => by rw [jobOf, jobOf, hjobs]⟩
  · rwa [show t.fabric.requests = s.fabric.requests from hrequests]
  · rw [opsNamed, opsNamed, ← ops_flight, ← ops_flight, h]

theorem dropOp_spares (d : DieIx) {id : Nat} (hid : ¬I id) (s : State) : Spares I N s (dropOp d id s) := by
  have waiting (h : HostId) (c : Bool) (t : State) : Spares I N t (if c then sendWaiting h t else t) := by
    split
    · exact .of_flight (flight_sendWaiting h t)
    · exact .refl t
  unfold dropOp
  extract_lets gone drop late s₁ a b u s₂ s₃
  refine .trans (.trans (t := s₂) ⟨rfl, fun r hr hi => ?_, fun e i hi => ?_, fun _ _ => rfl⟩ (waiting .a a s₂)) (waiting .b b _)
  · have hne : r.op ≠ id := fun h => hid (h ▸ hi)
    exact List.mem_filter.2 ⟨hr, by simpa using hne⟩
  · have hne : ¬i = id := fun h => hid (h ▸ hi)
    have hdie : dieOf s₂ e = dieOf s₁ e := rfl
    unfold opsNamed
    rw [hdie]
    by_cases he : e = d
    · subst he
      rw [dieOf_updDie_self, List.filter_map, List.filter_map, List.filter_filter]
      congr 1
      refine List.filter_congr fun o _ => ?_
      by_cases ho : o.id = i <;> simp [opCore, ho, hne]
    · rw [dieOf_updDie_ne _ _ he]

theorem abortOp_spares (d : DieIx) (e : Ev) {o : Op} (ho : ¬I o.id) (s : State) : Spares I N s (abortOp d e o s) := by
  unfold abortOp
  refine .trans (.of_flight ?_) (dropOp_spares d ho _)
  rw [flight_dropClaims, flight_poisonAll, flight_spoilSlots]
  exact flight_foldl (fun s t => flight_spoilDest _ t s) _ s

theorem jobOf_updJob_ne {id n : Nat} (hn : n ≠ id) (f : Job → Job) (s : State) (hf : ∀ j, (f j).id = j.id) : jobOf (updJob id f s) n = jobOf s n := by
  unfold jobOf updJob
  dsimp only
  induction s.jobs with
  | nil => rfl
  | cons k l ih =>
    by_cases hk : k.id = id
    · have hkn : k.id ≠ n := fun h => hn (h.symm.trans hk)
      simpa [hk, hf, hn.symm] using ih
    · by_cases hkn : k.id = n
      · simp [hkn, hn]
      · simpa [hk, hkn] using ih

theorem updJob_spares {id : Nat} (hid : ¬N id) {f : Job → Job} (hf : ∀ j, (f j).id = j.id) (s : State) : Spares I N s (updJob id f s) :=
  ⟨rfl, fun _ h _ => h, fun _ _ _ => rfl, fun n hn => jobOf_updJob_ne (by rintro rfl; exact hid hn) f s hf⟩

theorem logJob_spares {j : Job} (hj : ¬N j.id) (e : Ev) (a : Site) (unit detail : Nat) (skip : Bool) (s : State) :
    Spares I N s (logJob e j a unit detail skip s) := by
  unfold logJob
  refine (Spares.of_flight (flight_logEvent ..)).trans (updJob_spares hj ?_ _)
  exact fun _ => rfl

theorem removeJob_spares {id : Nat} (hid : ¬N id) (s : State) : Spares I N s (removeJob id s) := by
  refine .trans (t := { s with jobs := s.jobs.filter fun j => j.id != id }) ⟨rfl, fun _ h _ => h, fun _ _ _ => rfl, fun n hn => ?_⟩
    (.of_flight ?_)
  rotate_left
  · exact flight_mapDies _ { s with jobs := s.jobs.filter fun j => j.id != id } fun _ => rfl
  have hne : n ≠ id := fun h => hid (h ▸ hn)
  simp only [jobOf, List.find?_filter]
  congr 1
  funext j
  by_cases hj : j.id = n <;> simp [hj, hne]

theorem finishJob_spares {id : Nat} (hid : ¬N id) (elapsed : Nat) (s : State) : Spares I N s (finishJob id elapsed s) := by
  unfold finishJob
  split
  · exact .refl s
  · next j hj =>
    have hj' : j.id = id := by simpa using List.find?_some hj
    extract_lets late s₁ k c hm rec_ s₂
    have h₁ : Spares I N s s₁ := by
      dsimp only [s₁]
      split
      · exact logJob_spares (hj' ▸ hid) ..
      · exact .refl s
    refine h₁.trans (.trans (t := s₂) ?_ (.of_flight ?_))
    · exact (Spares.of_flight (flight_zeroJobBufs ..)).trans (removeJob_spares hid _)
    · rw [flight_finishEvictions, flight_putCpl]

/-- The quench of a job spares what is not that job's: the operations of `I` are none of its own. -/
theorem quenchJob_spares {id : Nat} (hid : ¬N id) (e : Ev) (cancel : Bool) (s : State) (hops : ∀ d, ∀ o ∈ (dieOf s d).ops, o.job = id → ¬I o.id) :
    Spares I N s (quenchJob id e cancel s) := by
  unfold quenchJob
  split
  · exact .refl s
  · next j hj =>
    have jobs_of_work {u v : State} (h : JobWork e id u v) (hu : ∀ d, ∀ o ∈ (dieOf u d).ops, o.job = id → ¬I o.id) :
        ∀ d, ∀ o ∈ (dieOf v d).ops, o.job = id → ¬I o.id := fun d o ho hjob => by
      obtain ⟨p, hp, hpid, hpjob⟩ := (h.dies d).ops o ho
      exact hpid ▸ hu d p hp (hpjob.trans hjob)
    have die (u : State) (d : DieIx) (hu : ∀ d, ∀ o ∈ (dieOf u d).ops, o.job = id → ¬I o.id) :
        Spares I N u (((dieOf u d).ops.filter (·.job == id)).foldl (fun s o => abortOp d e o s) u) :=
      .foldl _ (fun v o ho => abortOp_spares d e (hu d o (List.mem_of_mem_filter ho) (by simpa using (List.mem_filter.1 ho).2)) v) u
    have dies (ds : List DieIx) (u : State) (hu : ∀ d, ∀ o ∈ (dieOf u d).ops, o.job = id → ¬I o.id) :
        Spares I N u (ds.foldl (fun s d => ((dieOf s d).ops.filter (·.job == id)).foldl (fun s o => abortOp d e o s) s) u) := by
      induction ds generalizing u with
      | nil => exact .refl u
      | cons d ds ih => exact (die u d hu).trans (ih _ (jobs_of_work (.foldl (fun s o => abortOp_work e id d o s) _ u) hu))
    dsimp only
    generalize hs₁ : updJob id (fun j => { j with quench := some (j.quench.getD e), cancelled := j.cancelled || cancel || e == 0 }) s = s₁
    have h₁ : Spares I N s s₁ := by
      rw [← hs₁]
      refine updJob_spares hid ?_ s
      exact fun _ => rfl
    generalize hs₂ : { s₁ with held := s₁.held.filter fun h => h.job != id } = s₂
    have h₂ : Spares I N s₁ s₂ := by rw [← hs₂]; exact .of_flight rfl
    have hdies : ∀ d, ∀ o ∈ (dieOf s₂ d).ops, o.job = id → ¬I o.id := by rw [← hs₂, ← hs₁]; exact hops
    refine .trans ?_ (finishJob_spares hid _ _)
    refine .trans ?_ (.of_flight (flight_zeroJobSecrets ..))
    refine .trans ?_ (.of_flight (flight_poisonAll ..))
    refine .trans ?_ (.of_flight (flight_abortBn ..))
    exact (h₁.trans h₂).trans (dies allDies s₂ hdies)

theorem failOp_spares (d : DieIx) (o : Op) (unit : Nat) (e : Ev) (s : State) (hjob : ¬N o.job)
    (hops : ∀ d, ∀ y ∈ (dieOf s d).ops, y.job = o.job → ¬I y.id) : Spares I N s (failOp d o unit e s) := by
  unfold failOp
  split
  · exact .refl s
  · next j hj =>
    have hid : j.id = o.job := by simpa using List.find?_some hj
    generalize hlogged : logJob e j { die := d, queue := o.queue, off := o.off } unit 0 false s = u
    have hwork : JobWork e j.id s u := hlogged ▸ logJob_work ..
    have hjob' : ¬N j.id := by rwa [hid]
    have hlog : Spares I N s u := by rw [← hlogged]; exact logJob_spares hjob' ..
    refine hlog.trans (quenchJob_spares hjob' e false u fun d y hy hyj => ?_)
    obtain ⟨p, hp, hpid, hpjob⟩ := (hwork.dies d).ops y hy
    exact hpid ▸ hops d p hp (hpjob.trans (hyj.trans hid))

end

/-! #### Messages of the fabric -/

theorem flight_originate (d : DieIx) (p : Packet) (s : State) : flight (originate d p s) = flight s := by
  unfold originate routePacket
  split
  · rfl
  · split
    · rfl
    · rfl
    · split
      · exact flight_of_frame (portSend_frame _ _ _)
      · rfl

theorem flight_collControl (d : DieIx) (key : Nat) (c : Coll) (data : List Byte) (s : State) : flight (collControl d key c data s) = flight s :=
  flight_foldl (fun s _ => flight_originate _ _ s) _ s

/-- What a quench leaves of the fabric, whatever it ends. -/
abbrev KeepsFabric (s t : State) : Prop := Spares (fun _ => False) (fun _ => False) s t

theorem failOp_fabric (d : DieIx) (o : Op) (unit : Nat) (e : Ev) (s : State) : KeepsFabric s (failOp d o unit e s) :=
  failOp_spares d o unit e s id fun _ _ _ _ => id

theorem failColl_fabric (d : DieIx) (o : Op) (e : Ev) (s : State) : KeepsFabric s (failColl d o e s) := by
  unfold failColl
  split
  · exact (Spares.of_flight (flight_collControl ..)).trans (failOp_fabric ..)
  · exact .refl s

theorem failColls_fabric (f : Coll → Bool) (e : Ev) (s : State) : KeepsFabric s (failColls f e s) :=
  .foldl _ (fun s d _ => .foldl _ (fun s o _ => failColl_fabric d o e s) s) s

theorem KeepsFabric.field {s t : State} (h : KeepsFabric s t) {β : Type} (g : Fabric → β)
    (hg : ∀ x : Fabric, g { x with arrived := [], requests := [], benchGroups := [] } = g x) : g t.fabric = g s.fabric := by
  have hcore := congrArg g h.fabric
  rwa [hg, hg] at hcore

theorem KeepsFabric.windowOf {s t : State} (h : KeepsFabric s t) (w : Nat) : windowOf t w = windowOf s w :=
  h.field (fun x => tblGetD x.windows w Window.zero) fun _ => rfl

theorem beginClose_fabric (w : Nat) (op : Option (DieIx × Nat)) (s : State) :
    KeepsFabric (updWindow w (fun x => { x with closing := true, closeOp := op, admitted := writesWaiting s w }) s) (beginClose w op s) :=
  failColls_fabric ..

@[simp] theorem windowOf_updWindow_self (w : Nat) (f : Window → Window) (s : State) : windowOf (updWindow w f s) w = f (windowOf s w) := by
  simp [windowOf, updWindow]

@[simp] theorem windowOf_updWindow_ne {w k : Nat} (f : Window → Window) (s : State) (hk : k ≠ w) : windowOf (updWindow w f s) k = windowOf s k := by
  simp [windowOf, updWindow, hk]

/-- A fold in which one element makes a property hold: `P` leads up to it, and what comes after keeps `Q`. -/
theorem foldl_reaches {α β : Type} {P Q : β → Prop} {f : β → α → β} {l : List α} {x : α} (hx : x ∈ l) (before : ∀ s y, P s → P (f s y))
    (here : ∀ s, P s → Q (f s x)) (after : ∀ s y, Q s → Q (f s y)) {s : β} (hs : P s) : Q (l.foldl f s) := by
  induction l generalizing s with
  | nil => simp at hx
  | cons y l ih =>
    have stays (l : List α) (s : β) (hs : Q s) : Q (l.foldl f s) := by
      induction l generalizing s with
      | nil => exact hs
      | cons z l ih => exact ih _ (after s z hs)
    rcases List.mem_cons.1 hx with rfl | hx
    · exact stays l _ (here s hs)
    · exact ih hx (before s y hs)

theorem closeAll_closing {ws : List Nat} {w : Nat} (hw : w ∈ ws) (s : State) : (windowOf (closeAll ws s) w).closing = true := by
  refine foldl_reaches (P := fun _ => True) (Q := fun u => (windowOf u w).closing = true) hw (fun _ _ _ => trivial) (fun u _ => ?_) (fun u v hu => ?_) trivial
  · split
    · assumption
    · rw [(beginClose_fabric w none u).windowOf, windowOf_updWindow_self]
  · split
    · exact hu
    · rw [(beginClose_fabric v none u).windowOf]
      by_cases hv : w = v
      · rw [hv, windowOf_updWindow_self]
      · rw [windowOf_updWindow_ne _ _ hv, hu]

theorem closeAll_retained (ws : List Nat) (s : State) : (closeAll ws s).fabric.retained = s.fabric.retained := by
  unfold closeAll
  induction ws generalizing s with
  | nil => rfl
  | cons w ws ih =>
    refine (ih _).trans ?_
    dsimp only
    split
    · rfl
    · exact (beginClose_fabric w none s).field Fabric.retained fun _ => rfl

end Sys2Proof.Machine

namespace Sys2Proof.Machine

/-! ### O46: epochs, lost members, and where a packet goes (R352 to R363, R14) -/

/-! #### A lost member (R362) -/

/-- The operation `i` of job `n` on die `d` needs the lost part, and its job is of the epoch. -/
structure Awaiting (part epoch : Nat) (d : DieIx) (i n : Nat) (s : State) : Prop where
  needs : ∃ o ∈ (dieOf s d).ops, o.id = i ∧ o.job = n ∧ losesPart s part o = true
  unique : ∀ e, ∀ y ∈ (dieOf s e).ops, y.id = i → y.job = n
  job : ∃ j, jobOf s n = some j ∧ j.epoch = epoch

/-- No job of an identifier is left. -/
def JobGone (n : Nat) (s : State) : Prop := ∀ k ∈ s.jobs, k.id ≠ n

theorem jobOf_of_gone {n : Nat} {s : State} (h : JobGone n s) : jobOf s n = none := by
  simpa [jobOf, JobGone] using h

theorem mem_opsNamed {s : State} {d : DieIx} {i : Nat} {o : Op} : o ∈ opsNamed s d i ↔ (∃ x ∈ (dieOf s d).ops, opCore x = o) ∧ o.id = i := by
  simp [opsNamed]

/-- What names an operation in flight in `s` is in flight in `t`, where a quench spares it. -/
theorem Spares.mem_ops {I N : Nat → Prop} {s t : State} (h : Spares I N s t) {d : DieIx} {o : Op} (hi : I o.id) (ho : o ∈ (dieOf s d).ops) :
    ∃ x ∈ (dieOf t d).ops, opCore x = opCore o := by
  have hmem : opCore o ∈ opsNamed s d o.id := mem_opsNamed.2 ⟨⟨o, ho, rfl⟩, rfl⟩
  rw [← h.ops d o.id hi] at hmem
  exact (mem_opsNamed.1 hmem).1

theorem Spares.of_mem_ops {I N : Nat → Prop} {s t : State} (h : Spares I N s t) {d : DieIx} {o : Op} (hi : I o.id) (ho : o ∈ (dieOf t d).ops) :
    ∃ x ∈ (dieOf s d).ops, opCore x = opCore o := by
  have hmem : opCore o ∈ opsNamed t d o.id := mem_opsNamed.2 ⟨⟨o, ho, rfl⟩, rfl⟩
  rw [h.ops d o.id hi] at hmem
  exact (mem_opsNamed.1 hmem).1

theorem opCore_names {x y : Op} (h : opCore x = opCore y) : x.id = y.id ∧ x.job = y.job ∧ x.exch = y.exch := by
  simp only [opCore, Op.mk.injEq] at h
  tauto

theorem exchReady_congr {s t : State} (h : ∀ p, (partOfIx t p).sessions = (partOfIx s p).sessions) (x : Exch) : exchReady t x = exchReady s x := by
  rw [exchReady, exchReady, sessionOf, sessionOf, h]

/-- An operation needs a part for its exchange or for a request. -/
theorem losesPart_spared {I N : Nat → Prop} {s t : State} (h : Spares I N s t) (hparts : ∀ p, (partOfIx t p).sessions = (partOfIx s p).sessions)
    {o o' : Op} (hi : I o.id) (hcore : opCore o' = opCore o) {part : Nat} (hlost : losesPart s part o = true) : losesPart t part o' = true := by
  obtain ⟨hid, -, hexch⟩ := opCore_names hcore
  unfold losesPart at hlost ⊢
  rw [Bool.or_eq_true] at hlost ⊢
  refine hlost.imp (fun hx => ?_) fun hr => ?_
  · rw [hexch]
    cases hx' : o.exch with
    | none => rw [hx'] at hx; exact hx
    | some x =>
      rw [hx'] at hx
      simpa only [sessionOf, hparts, exchReady_congr hparts] using hx
  · rw [hid]
    simp only [List.any_eq_true, Bool.and_eq_true, beq_iff_eq] at hr ⊢
    obtain ⟨r, hmem, hop, hdst⟩ := hr
    exact ⟨r, h.requests r hmem (hop ▸ hi), hop, hdst⟩

theorem Awaiting.spared {part epoch : Nat} {d : DieIx} {i n : Nat} {s t : State} (hs : Awaiting part epoch d i n s) (h : Spares (· = i) (· = n) s t)
    (hparts : ∀ p, (partOfIx t p).sessions = (partOfIx s p).sessions) : Awaiting part epoch d i n t := by
  obtain ⟨o, ho, hid, hjob, hlost⟩ := hs.needs
  obtain ⟨x, hx, hcore⟩ := h.mem_ops hid ho
  obtain ⟨hxid, hxjob, -⟩ := opCore_names hcore
  refine ⟨⟨x, hx, hxid.trans hid, hxjob.trans hjob, losesPart_spared h hparts hid hcore hlost⟩, fun e y hy hyi => ?_, ?_⟩
  · obtain ⟨z, hz, hzcore⟩ := h.of_mem_ops hyi hy
    obtain ⟨hzid, hzjob, -⟩ := opCore_names hzcore
    exact hzjob.symm.trans (hs.unique e z hz (hzid.trans hyi))
  · rw [h.jobs n rfl]
    exact hs.job

/-- What a failed operation does to jobs and sessions. -/
theorem failOp_work (d : DieIx) (o : Op) (unit : Nat) (e : Ev) (s : State) : JobWork e o.job s (failOp d o unit e s) := by
  unfold failOp
  split
  · exact .refl _ _ _
  · next j hj =>
    have hid : j.id = o.job := by simpa using List.find?_some hj
    rw [← hid]
    generalize hlogged : logJob e j { die := d, queue := o.queue, off := o.off } unit 0 false s = u
    have hwork : JobWork e j.id s u := hlogged ▸ logJob_work ..
    cases hu : jobOf u j.id with
    | none => unfold quenchJob; rw [hu]; exact hwork
    | some k => exact hwork.trans (quenchJob_spec hu e false).1

theorem failOp_gone (d : DieIx) (o : Op) (unit : Nat) (e : Ev) (s : State) : JobGone o.job (failOp d o unit e s) := by
  unfold failOp
  split
  · next hj => exact jobOf_none hj
  · next j hj =>
    have hid : j.id = o.job := by simpa using List.find?_some hj
    rw [← hid]
    generalize logJob e j { die := d, queue := o.queue, off := o.off } unit 0 false s = u
    cases hu : jobOf u j.id with
    | none => unfold quenchJob; rw [hu]; exact jobOf_none hu
    | some k => exact (quenchJob_spec hu e false).2.1

/-- The job is gone, or its operation still awaits the lost part. -/
def LostOr (part epoch : Nat) (d : DieIx) (i n : Nat) (s : State) : Prop := JobGone n s ∨ Awaiting part epoch d i n s

section

variable {part epoch : Nat} {d : DieIx} {i n : Nat} {s : State}

theorem JobGone.of_work {e : Ev} {id : Nat} {s t : State} (hs : JobGone n s) (h : JobWork e id s t) : JobGone n t := fun k hk => by
  obtain ⟨j, hj, hjk⟩ := h.ids k hk
  exact hjk ▸ hs j hj

theorem LostOr.failOp (hs : LostOr part epoch d i n s) (d' : DieIx) (o : Op) (unit : Nat) (e : Ev) :
    LostOr part epoch d i n (Machine.failOp d' o unit e s) := by
  have hwork := failOp_work d' o unit e s
  refine hs.elim (fun h => .inl (h.of_work hwork)) fun h => ?_
  by_cases ho : o.job = n
  · exact .inl (ho ▸ failOp_gone _ _ _ _ _)
  · refine .inr (h.spared (failOp_spares d' o unit e s ho fun c y hy hyjob hyi => ho (hyjob.symm.trans (h.unique c y hy hyi))) fun p => ?_)
    exact (hwork.parts p).field Partition.sessions fun _ => rfl

theorem LostOr.failColl (hs : LostOr part epoch d i n s) (d' : DieIx) (o : Op) (e : Ev) : LostOr part epoch d i n (Machine.failColl d' o e s) := by
  unfold Machine.failColl
  split
  · refine LostOr.failOp ?_ ..
    have hframe := collControl_frame d' (partOfIx s ‹Job›.part).fabricKey ‹Coll› (leBytes 1 1 ++ leBytes 2 e.toNat) s
    refine hs.imp (fun h k hk => h k (hframe .jobs (by decide) ▸ hk)) fun h => ?_
    exact h.spared (.of_flight (flight_collControl ..)) (hframe.partField (by decide) Partition.sessions fun _ => rfl)
  · exact hs

theorem LostOr.foldl {α : Type} {f : State → α → State} (hf : ∀ s x, LostOr part epoch d i n s → LostOr part epoch d i n (f s x)) (l : List α)
    (hs : LostOr part epoch d i n s) : LostOr part epoch d i n (l.foldl f s) := by
  induction l generalizing s with
  | nil => exact hs
  | cons x l ih => exact ih (hf s x hs)

theorem LostOr.failColls (hs : LostOr part epoch d i n s) (f : Coll → Bool) (e : Ev) : LostOr part epoch d i n (Machine.failColls f e s) :=
  .foldl (fun _ d' hs => .foldl (fun _ o hs => hs.failColl d' o e) _ hs) _ hs

end

/-- The operations of a die that need a lost part fail, as far as they are in flight still. -/
def failLost (part epoch : Nat) (s : State) (d : DieIx) : State :=
  ((dieOf s d).ops.filter fun o => losesPart s part o && (match jobOf s o.job with | some j => j.epoch == epoch | none => false)).foldl
    (fun s o => if (opOf s d o.id).isSome then failOp d o 9 0x0503 s else s) s

theorem LostOr.failLost {part epoch : Nat} {d : DieIx} {i n : Nat} {s : State} (hs : LostOr part epoch d i n s) (d' : DieIx) :
    LostOr part epoch d i n (Machine.failLost part epoch s d') :=
  .foldl (fun s o hs => by split; exacts [hs.failOp .., hs]) _ hs

theorem JobGone.failIf {n : Nat} {s : State} (hs : JobGone n s) (d : DieIx) (o : Op) :
    JobGone n (if (opOf s d o.id).isSome then Machine.failOp d o 9 0x0503 s else s) := by
  split
  · exact hs.of_work (failOp_work ..)
  · exact hs

theorem JobGone.failLost {part epoch n : Nat} {s : State} (hs : JobGone n s) (d : DieIx) : JobGone n (Machine.failLost part epoch s d) := by
  unfold Machine.failLost
  generalize (dieOf s d).ops.filter _ = l
  induction l generalizing s with
  | nil => exact hs
  | cons o l ih => exact ih (hs.failIf d o)

/-- On its own die the operation fails, and its job is gone. -/
theorem LostOr.failLost_gone {part epoch : Nat} {d : DieIx} {i n : Nat} {s : State} (hs : LostOr part epoch d i n s) :
    JobGone n (Machine.failLost part epoch s d) := by
  rcases hs with hs | hs
  · exact hs.failLost d
  · obtain ⟨o, ho, hid, hjob, hlost⟩ := hs.needs
    obtain ⟨j, hj, hepoch⟩ := hs.job
    have hmem : o ∈ (dieOf s d).ops.filter fun o => losesPart s part o && (match jobOf s o.job with | some j => j.epoch == epoch | none => false) := by
      refine List.mem_filter.2 ⟨ho, ?_⟩
      rw [hlost, hjob, hj]
      simp [hepoch]
    refine foldl_reaches (P := LostOr part epoch d i n) (Q := JobGone n) hmem (fun u y hu => ?_) (fun u hu => ?_) (fun u o hu => hu.failIf d o) (.inr hs)
    · split
      · exact hu.failOp ..
      · exact hu
    · rcases hu with hu | hu
      · exact hu.failIf d o
      · obtain ⟨x, hx, hxi, -, -⟩ := hu.needs
        have hfound : (opOf u d o.id).isSome := by
          rw [opOf, List.find?_isSome]
          exact ⟨x, hx, by simp [hxi, hid]⟩
        rw [if_pos hfound]
        exact hjob ▸ failOp_gone _ _ _ _ _

/-- The lost member is noted. -/
def noteLoss (part : Nat) (s : State) : State := { s with fabric := { s.fabric with losses := s.fabric.losses ++ [part] } }

theorem exec_lossNotice {s : State} {part epoch : Nat} (hepoch : epoch = s.fabric.epoch) (hmem : part ∈ s.fabric.members) (hnew : part ∉ s.fabric.losses) :
    exec (.lossNotice part epoch) s = .next (allDies.foldl (failLost part epoch) (failColls (fun c => c.epoch == epoch && c.members.any fun m => memberPart m == part)
      0x0503 (noteLoss part s))) := by
  change execLossNotice part epoch s = _
  rw [execLossNotice, if_neg (by simp [hepoch, hmem, hnew])]
  rfl

/-- Where no operation is in flight, no collective fails. -/
theorem failColls_none {s : State} (h : ∀ d, (dieOf s d).ops = []) (f : Coll → Bool) (e : Ev) : failColls f e s = s := by
  unfold failColls
  induction allDies with
  | nil => rfl
  | cons d ds ih => rw [List.foldl_cons, h d]; exact ih

theorem failLost_none {s : State} (h : ∀ d, (dieOf s d).ops = []) (part epoch : Nat) (ds : List DieIx) : ds.foldl (failLost part epoch) s = s := by
  induction ds with
  | nil => rfl
  | cons d ds ih =>
    have hd : failLost part epoch s d = s := by rw [failLost, h d]; rfl
    rw [List.foldl_cons, hd, ih]

theorem failLost_fabric (part epoch : Nat) (s : State) (d : DieIx) : KeepsFabric s (failLost part epoch s d) := by
  refine .foldl _ (fun s o _ => ?_) s
  split
  · exact failOp_fabric ..
  · exact .refl s

/-- A lost member is noted once, and what needs it fails. -/
theorem lossNotice_spec {s : State} {part epoch : Nat} (hepoch : epoch = s.fabric.epoch) (hmem : part ∈ s.fabric.members) (hnew : part ∉ s.fabric.losses) :
    ∃ t, exec (.lossNotice part epoch) s = .next t ∧ t.fabric.losses = s.fabric.losses ++ [part] ∧
      ((∀ d, (dieOf s d).ops = []) → t = { s with fabric := { s.fabric with losses := s.fabric.losses ++ [part] } }) ∧
      ∀ d, ∀ o ∈ (dieOf s d).ops, (∀ e, ∀ y ∈ (dieOf s e).ops, y.id = o.id → e = d ∧ y = o) → ∀ j, jobOf s o.job = some j → j.epoch = epoch →
        losesPart s part o = true → ∀ k ∈ t.jobs, k.id ≠ j.id := by
  refine ⟨_, exec_lossNotice hepoch hmem hnew, ?_, fun hnone => ?_, fun d o ho hunique j hj hjepoch hlost => ?_⟩
  · have hkept := (failColls_fabric (fun c => c.epoch == epoch && c.members.any fun m => memberPart m == part) 0x0503 (noteLoss part s)).trans (.foldl allDies (fun s d _ => failLost_fabric part epoch s d) _)
    exact KeepsFabric.field hkept Fabric.losses fun _ => rfl
  · have hnone' : ∀ d, (dieOf (noteLoss part s) d).ops = [] := hnone
    rw [failColls_none hnone', failLost_none hnone']
    rfl
  · have hid : j.id = o.job := by simpa using List.find?_some hj
    have hawait : LostOr part epoch d o.id o.job (noteLoss part s) :=
      .inr ⟨⟨o, ho, rfl, rfl, hlost⟩, fun e y hy hyi => by rw [(hunique e y hy hyi).2], j, hj, hjepoch⟩
    rw [hid]
    refine foldl_reaches (P := LostOr part epoch d o.id o.job) (Q := JobGone o.job) (List.mem_finRange d) (fun _ d' h => h.failLost d') (fun _ h => h.failLost_gone)
      (fun _ d' h => h.failLost d') (hawait.failColls ..)

/-! #### Epochs (R359 to R361) -/

theorem mem_heldPackets {s : State} {n : PortIx} {p : Packet} :
    (n, p) ∈ (allPorts.flatMap fun n => (portOf s n).holdBuf.filterMap fun x => match x with | .packet p => some (n, p) | _ => none) ↔
      HeldIn.packet p ∈ (portOf s n).holdBuf := by
  simp only [List.mem_flatMap, List.mem_filterMap]
  constructor
  · rintro ⟨m, -, x, hx, hp⟩
    cases x with
    | packet q => simp only [Option.some.injEq, Prod.mk.injEq] at hp; obtain ⟨rfl, rfl⟩ := hp; exact hx
    | exchange | deal => simp at hp
  · exact fun h => ⟨n, List.mem_finRange n, _, h, rfl⟩

theorem epochSwitch_spec {s : State} (h : switchDue s = true) : ∃ t,
    exec .epochSwitch s = .next ((allPorts.flatMap fun n => (portOf s n).holdBuf).foldl (fun s x => takeHeld x s) t) ∧
    (∀ p v, takeHeld (.packet p) v = v) ∧ Frame [.ports, .fabric] s t ∧ (∀ n, portOf t n = { portOf s n with holdBuf := [] }) ∧
    ∃ late, t.fabric = { s.fabric with
      retained := some (s.fabric.epoch, s.fabric.members), epoch := s.fabric.pendEpoch, members := s.fabric.pendMembers
      routes := s.fabric.pendRoutes, losses := [], pendEpoch := 0, pendMembers := [], pendRoutes := [], switchAt := 0
      arrived := s.fabric.arrived ++ late } ∧ ∀ n p, (n, p) ∈ late ↔ HeldIn.packet p ∈ (portOf s n).holdBuf := by
  refine ⟨switchEpoch s, ?_, fun _ _ => rfl, fields_frame, fun n => by simp [portOf, switchEpoch], _, rfl, fun n p => mem_heldPackets⟩
  change execEpochSwitch s = _
  rw [execEpochSwitch, if_pos h, switchNow]

theorem epochRetire_spec {s : State} {e : Nat} {ms : List Nat} (hretained : s.fabric.retained = some (e, ms)) :
    ((∃ j ∈ s.jobs, j.phase = .admitted ∧ j.epoch = e) → exec .epochRetire s = .next s) ∧
    ((∀ j ∈ s.jobs, j.phase = .admitted → j.epoch ≠ e) → ∃ t, exec .epochRetire s = .next t ∧
      ((∀ w ∈ s.fabric.windows, w.2.opened = true → w.2.epoch ≠ e % 2 ^ 16) → t = { s with fabric := { s.fabric with retained := none } }) ∧
      ((∃ w ∈ s.fabric.windows, w.2.opened = true ∧ w.2.epoch = e % 2 ^ 16) → t.fabric.retained = s.fabric.retained) ∧
      ∀ w x, tblGet s.fabric.windows w = some x → x.opened = true → x.epoch = e % 2 ^ 16 → (windowOf t w).closing = true) := by
  change (_ → execEpochRetire s = _) ∧ (_ → ∃ t, execEpochRetire s = _ ∧ _)
  unfold execEpochRetire
  rw [hretained]
  dsimp only
  refine ⟨fun ⟨j, hj, hphase, hepoch⟩ => ?_, fun hnone => ⟨_, rfl, fun hclosed => ?_, fun ⟨w, hw, hopen, hepoch⟩ => ?_, fun w x hx hopen hepoch => ?_⟩⟩
  · rw [if_pos (List.any_eq_true.2 ⟨j, hj, by simp [hphase, hepoch]⟩)]
  all_goals rw [if_neg (by simpa using fun j hj h => hnone j hj h)]
  · have hwindows : s.fabric.windows.filter (fun w => w.2.opened && w.2.epoch == e % 2 ^ 16) = [] := by
      simpa using fun a w hw => hclosed (a, w) hw
    rw [hwindows]
    rfl
  · have hmem : w ∈ s.fabric.windows.filter (fun w => w.2.opened && w.2.epoch == e % 2 ^ 16) := List.mem_filter.2 ⟨hw, by simp [hopen, hepoch]⟩
    split
    · next hnil => rw [List.map_eq_nil_iff.1 hnil] at hmem; simp at hmem
    · exact (closeAll_retained _ s).trans hretained
  · have hmem : (w, x) ∈ s.fabric.windows.filter (fun w => w.2.opened && w.2.epoch == e % 2 ^ 16) :=
      List.mem_filter.2 ⟨tblGet_mem hx, by simp [hopen, hepoch]⟩
    split
    · next hnil => rw [List.map_eq_nil_iff.1 hnil] at hmem; simp at hmem
    · exact closeAll_closing (List.mem_map.2 ⟨_, hmem, rfl⟩) s

theorem holdExpiry_spec {s : State} {n : PortIx} {x : HeldIn} {l : List HeldIn} (h : (portOf s n).holdBuf = x :: l) :
    ∃ u, exec (.epochHoldExpiry n) s = .next (refuseHeld x u) ∧
      (∀ p, x = .packet p → refuseHeld x u = if p.ptype = 5 then u else answer p 5 0x0506 [] u) ∧
      (∀ m abort y, x = .exchange m abort → sessionOfTag s m.part m.tag.toNat = some y →
        refuseHeld x u = nakShare m.part (y.2.place m.party).1 m.epoch m.tag m.openSeq u) ∧
      portOf u n = { portOf s n with holdBuf := l, holdRefusals := (portOf s n).holdRefusals + 1 } ∧ (∀ k, k ≠ n → portOf u k = portOf s k) ∧
      Frame [.ports] s u := by
  refine ⟨countRefusal n (updPort n (fun p => { p with holdBuf := l }) s), ?_, ?_, ?_, by simp [countRefusal], fun k hk => by simp [countRefusal, hk],
    fields_frame⟩
  · change execEpochHoldExpiry n s = _
    rw [execEpochHoldExpiry, h]
  · rintro p rfl
    by_cases hp : p.ptype = 5 <;> simp [refuseHeld, nakable, nak, hp]
  · rintro m abort y rfl hy
    have hy' : sessionOfTag (countRefusal n (updPort n (fun p => { p with holdBuf := l }) s)) m.part m.tag.toNat = some y := hy
    simp only [refuseHeld]
    rw [hy']
    rfl

/-! #### Routing (R14, R352 to R357) -/

/-- One hop of the bridge from `a` to `b`: the first may cross to the other row, every other runs along the row of `b`. -/
def BridgeHop (a b : DieIx) (k : Nat) (c e : DieIx) : Prop :=
  (c.val / 8 = b.val / 8 ∧ e.val / 8 = b.val / 8 ∧ (e.val = c.val + 1 ∨ c.val = e.val + 1)) ∨
  (k = 0 ∧ a.val / 8 ≠ b.val / 8 ∧ e.val / 8 = b.val / 8 ∧ e.val % 8 = a.val % 8)

/-- The dies are sixteen: every route is written out. -/
theorem bridgeRoute_ends : ∀ a b : DieIx, (bridgeRoute a b).head? = some a ∧ (bridgeRoute a b).getLast? = some b ∧ (bridgeRoute a b).length ≤ 9 ∧
    bridgeHops a b = (if a.val / 8 = b.val / 8 then 0 else 1) + (a.val % 8 - b.val % 8) + (b.val % 8 - a.val % 8) := by decide +kernel

theorem bridgeRoute_steps : ∀ (a b : DieIx) (k : Fin 9), ∀ c ∈ (bridgeRoute a b)[k.val]?, ∀ e ∈ (bridgeRoute a b)[k.val + 1]?,
    BridgeHop a b k.val c e := by
  unfold BridgeHop
  decide +kernel

theorem bridgeRoute_hop (a b : DieIx) (k : Nat) (c e : DieIx) (hc : (bridgeRoute a b)[k]? = some c) (he : (bridgeRoute a b)[k + 1]? = some e) :
    BridgeHop a b k c e := by
  obtain ⟨-, -, hlen, -⟩ := bridgeRoute_ends a b
  obtain ⟨hk, -⟩ := List.getElem?_eq_some_iff.1 hc
  exact bridgeRoute_steps a b ⟨k, by omega⟩ c hc e he

/-- A packet is discarded at a port, which counts the reason (R361). -/
theorem discard_spec (m : PortIx) (r : Nat) (s : State) :
    portOf (discard m r s) m = { portOf s m with discards := tblSet (portOf s m).discards r (tblGetD (portOf s m).discards r 0 + 1) } ∧
    (∀ k, k ≠ m → portOf (discard m r s) k = portOf s k) ∧ Frame [.ports] s (discard m r s) :=
  ⟨portOf_updPort_self .., fun _ hk => portOf_updPort_ne _ _ hk, discard_frame _ _ _⟩

/-- What becomes of a packet at a port, by the way it is to take. -/
def takeEgress (n : PortIx) (p : Packet) (e : Egress) (s : State) : State :=
  match e with
  | .here => acceptLocal n p s
  | .none => discard n 1 s
  | .port m =>
    if 32 ≤ p.hops then discard n 0 s
    else if (portOf s m).state = .up then portSend m { p with hops := p.hops + 1 } s
    else discard m 2 s

section

variable {s : State} {n : PortIx} {p : Packet} (htwin : s.twin.port ≠ n.val) (hkey : (portOf s n).keyState ≠ .keying)
include htwin hkey

theorem packetIn_undefined (hp : p.ptype = 0 ∨ 9 < p.ptype) : packetIn n p s = discard n 4 s := by
  simp [packetIn, htwin, hkey, hp]

/-- A packet of a type that is routed, in a part whose fabric is valid. -/
theorem packetIn_routed (hone : 1 ≤ p.ptype) (height : p.ptype ≤ 8) (hvalid : s.fabric.valid = true) :
    packetIn n p s = takeEgress n p (routeOf s p.dstPart p.srcDie p.dstDie) s := by
  have h0 : p.ptype ≠ 0 := by omega
  have h9 : p.ptype ≠ 9 := by omega
  have h10 : ¬9 < p.ptype := by omega
  unfold packetIn
  cases routeOf s p.dstPart p.srcDie p.dstDie <;> simp [takeEgress, htwin, hkey, h0, h9, h10, hvalid]

end

theorem acceptLocal_member {s : State} {n : PortIx} {p : Packet} (height : p.ptype ≤ 8) (hvalid : s.fabric.valid = true)
    (hmember : memberHeld s p.srcPart = true) : acceptLocal n p s =
    if (epochsHeld s).contains p.epoch then { s with fabric := { s.fabric with arrived := s.fabric.arrived ++ [(n, p)] } }
    else if nextEpoch s p.epoch ∧ (portOf s n).holdBuf.length < 64 then updPort n (fun x => { x with holdBuf := x.holdBuf ++ [.packet p] }) s
    else
      let u := if nextEpoch s p.epoch then countRefusal n s else s
      if p.ptype = 5 then u else answer p 5 0x0506 [] u := by
  have h9 : p.ptype ≠ 9 := by omega
  simp only [acceptLocal, h9, hvalid, hmember, nakable, nak]
  by_cases hheld : (epochsHeld s).contains p.epoch = true
  · simp only [hheld, if_true]
    rfl
  · by_cases hnext : nextEpoch s p.epoch = true
    · by_cases hroom : (portOf s n).holdBuf.length < 64
      · have hhold : holdNext n (.packet p) s = some (updPort n (fun x => { x with holdBuf := x.holdBuf ++ [.packet p] }) s) := if_pos hroom
        simp [hnext, hroom, hhold]
      · have hhold : holdNext n (.packet p) s = none := if_neg hroom
        by_cases h5 : p.ptype = 5 <;> simp [hnext, hroom, hhold, h5]
    · by_cases h5 : p.ptype = 5 <;> simp [hnext, h5]

/-- What reaches a port, by its type, its route and its epoch. -/
theorem packetIn_spec {s : State} {n : PortIx} {p : Packet} (htwin : s.twin.port ≠ n.val) (hkey : (portOf s n).keyState ≠ .keying) :
    let discarded (m : PortIx) (r : Nat) (t : State) : Prop :=
      portOf t m = { portOf s m with discards := tblSet (portOf s m).discards r (tblGetD (portOf s m).discards r 0 + 1) } ∧
      (∀ k, k ≠ m → portOf t k = portOf s k) ∧ Frame [.ports] s t
    (p.ptype = 0 ∨ 9 < p.ptype → discarded n 4 (packetIn n p s)) ∧
    (1 ≤ p.ptype → p.ptype ≤ 8 →
      (s.fabric.valid = false → discarded n 5 (packetIn n p s)) ∧
      (s.fabric.valid = true → routeOf s p.dstPart p.srcDie p.dstDie = .none → discarded n 1 (packetIn n p s)) ∧
      (∀ m, s.fabric.valid = true → routeOf s p.dstPart p.srcDie p.dstDie = .port m →
        (32 ≤ p.hops → discarded n 0 (packetIn n p s)) ∧
        (p.hops < 32 → (portOf s m).state ≠ .up → discarded m 2 (packetIn n p s)) ∧
        (p.hops < 32 → (portOf s m).state = .up → packetIn n p s = portSend m { p with hops := p.hops + 1 } s)) ∧
      (s.fabric.valid = true → routeOf s p.dstPart p.srcDie p.dstDie = .here →
        (memberHeld s p.srcPart = false → discarded n 3 (packetIn n p s)) ∧
        (memberHeld s p.srcPart = true →
          (p.epoch ∈ epochsHeld s → packetIn n p s = { s with fabric := { s.fabric with arrived := s.fabric.arrived ++ [(n, p)] } }) ∧
          (p.epoch ∉ epochsHeld s → p.epoch = (s.fabric.epoch + 1) % 2 ^ 16 → (portOf s n).holdBuf.length < 64 →
            packetIn n p s = updPort n (fun x => { x with holdBuf := x.holdBuf ++ [.packet p] }) s) ∧
          (p.epoch ∉ epochsHeld s → p.epoch = (s.fabric.epoch + 1) % 2 ^ 16 → 64 ≤ (portOf s n).holdBuf.length →
            let u := updPort n (fun x => { x with holdRefusals := x.holdRefusals + 1 }) s
            packetIn n p s = if p.ptype = 5 then u else answer p 5 0x0506 [] u) ∧
          (p.epoch ∉ epochsHeld s → p.epoch ≠ (s.fabric.epoch + 1) % 2 ^ 16 →
            packetIn n p s = if p.ptype = 5 then s else answer p 5 0x0506 [] s)))) := by
  refine ⟨fun hp => packetIn_undefined htwin hkey hp ▸ discard_spec n 4 s, fun hone height => ⟨fun hvalid => ?_, fun hvalid hroute => ?_, fun m hvalid hroute => ?_,
    fun hvalid hroute => ?_⟩⟩
  · have h0 : p.ptype ≠ 0 := by omega
    have h9 : p.ptype ≠ 9 := by omega
    have h10 : ¬9 < p.ptype := by omega
    have hin : packetIn n p s = discard n 5 s := by simp [packetIn, htwin, hkey, h0, h9, h10, hvalid]
    exact hin ▸ discard_spec n 5 s
  all_goals
    have hin := packetIn_routed htwin hkey hone height hvalid
    rw [hroute, takeEgress] at hin
    rw [hin]
  · exact discard_spec n 1 s
  · refine ⟨fun hhops => ?_, fun hhops hdown => ?_, fun hhops hup => ?_⟩
    · rw [if_pos hhops]; exact discard_spec n 0 s
    · rw [if_neg (by omega), if_neg hdown]; exact discard_spec m 2 s
    · rw [if_neg (by omega), if_pos hup]
  · refine ⟨fun hmember => ?_, fun hmember => ?_⟩
    · have h9 : p.ptype ≠ 9 := by omega
      have haccept : acceptLocal n p s = discard n 3 s := by simp [acceptLocal, h9, hvalid, hmember]
      exact haccept ▸ discard_spec n 3 s
    · rw [acceptLocal_member height hvalid hmember]
      refine ⟨fun hheld => ?_, fun hheld hnext hroom => ?_, fun hheld hnext hfull => ?_, fun hheld hnext => ?_⟩
      · simp [hheld]
      · have hnext' : nextEpoch s p.epoch = true := by simp [nextEpoch, hnext]
        simp [hheld, hnext', hroom]
      · have hnext' : nextEpoch s p.epoch = true := by simp [nextEpoch, hnext]
        have hfull' : ¬(portOf s n).holdBuf.length < 64 := by omega
        simp [hheld, hnext', hfull', countRefusal]
      · have hnext' : nextEpoch s p.epoch = false := by simpa [nextEpoch] using hnext
        simp [hheld, hnext']

/-- Settles O46: epochs switch, retire and lose members clause by clause, and a packet goes where its type, route and epoch send it. -/
theorem epochsAndRouting : Obligations.EpochsAndRouting := by
  unfold Obligations.EpochsAndRouting
  refine ⟨fun s => ⟨fun hdue => ?_, fun hdue => epochSwitch_spec hdue, fun e ms hretained => epochRetire_spec hretained, fun hnone => ?_,
    fun n x l hbuf => holdExpiry_spec hbuf, fun part epoch => ⟨fun hnot => ?_, fun hepoch hmem hnew => lossNotice_spec hepoch hmem hnew⟩⟩,
    fun a b => ?_, fun a b => (bridgeRoute_ends a b).2.2.2, fun s n p htwin hkey => packetIn_spec htwin hkey⟩
  · change execEpochSwitch s = _
    rw [execEpochSwitch, if_neg (by simp [hdue])]
  · change execEpochRetire s = _
    rw [execEpochRetire, hnone]
  · change execLossNotice part epoch s = _
    rw [execLossNotice, if_pos (by simp only [Bool.or_eq_true, Bool.not_eq_true', List.contains_eq_mem, decide_eq_true_eq, decide_eq_false_iff_not]; tauto)]
  · obtain ⟨hhead, hlast, -⟩ := bridgeRoute_ends a b
    exact ⟨hhead, hlast, bridgeRoute_hop a b⟩

end Sys2Proof.Machine

namespace Sys2Proof.Machine

/-! ### O44: remote windows at their owner (R364 to R370) -/

theorem updWindow_frame (w : Nat) (f : Window → Window) (s : State) : Frame [.fabric] s (updWindow w f s) := fields_frame

/-! #### Opening and closing -/

/-- The GEN after one, which is never 0 (R364). -/
def nextGen (n : Nat) : Nat := if (n + 1) % 2 ^ 32 = 0 then 1 else (n + 1) % 2 ^ 32

theorem nextGen_lt (n : Nat) : nextGen n < 2 ^ 64 := by
  have hlt := Nat.mod_lt (n + 1) (show 0 < 2 ^ 32 by decide)
  unfold nextGen
  split <;> omega

/-- The entry of a window that an instruction opens (R364). -/
def openedWindow (a : Site) (j : Job) (gen h base len : Nat) (g : WinAccess) : Window :=
  { opened := true, write := g.write, read := g.read, store := g.store, any := g.any, part := j.part.val, die := a.die.val
    handle := h, peer := g.peer, epoch := j.epoch % 2 ^ 16, gen := gen, drained := 0, base := base, length := len
    closing := false, closeOp := none, admitted := 0 }

theorem winOpen_eq {s : State} {a : Site} {j : Job} (hready : Ready s a j) {w sc h base len : Nat} {g : WinAccess}
    (hfree : scalarBusy s a.die [sc] = false) (hok : winOpenOk s a.die w h base len g = true) :
    exec (.winOpen a w h base len g sc) s = .next (putScalar a.die sc (nextGen (windowOf s w).gen)
      (updWindow w (fun _ => openedWindow a j (nextGen (windowOf s w).gen) h base len g) s)) :=
  congrArg ok (runInstr_done hready (by simp [hok, hfree, nextGen, openedWindow]))

/-- The state of a WIN_CLOSE that waits for the admitted writes of its window (R367). -/
def closingWindow (a : Site) (j : Job) (w sc : Nat) (s : State) : State :=
  updWindow w (fun x => { x with closing := true, closeOp := some (a.die, s.nextId), admitted := writesWaiting s w })
    (startOp a.die { opZero 0 j.id a.queue a.off 9 with dests := [.scalar a.die sc, .window s.fabric.partId w], scalars := [sc] } [] s)

theorem winClose_eq {s : State} {a : Site} {j : Job} (hready : Ready s a j) {w sc : Nat} (hfree : scalarBusy s a.die [sc] = false)
    (hok : closable s w j.part = true) :
    exec (.winClose a w sc) s = .next (failColls (fun c => c.window == w) 0x0501 (closingWindow a j w sc s)) :=
  congrArg ok (runInstr_done hready (by rw [if_neg (by simp [hok]), if_neg (by simp [hfree])]; rfl))

theorem winClose_spec {s : State} {a : Site} {j : Job} (hready : Ready s a j) {w sc : Nat} (hfree : scalarBusy s a.die [sc] = false)
    (hok : closable s w j.part = true) :
    ∃ u o, exec (.winClose a w sc) s = .next (failColls (fun c => c.window == w) 0x0501 u) ∧
      InFlight a j 9 [] o s u ∧ o.scalars = [sc] ∧ windowOf u w = { windowOf s w with
        closing := true, closeOp := some (a.die, s.nextId), admitted := writesWaiting s w } ∧ (∀ k, k ≠ w → windowOf u k = windowOf s k) ∧
      Frame [.dies, .jobs, .nextId, .fabric] s u := by
  have hflight := startOp_inFlight (s := s) (a := a) (j := j)
    (o := { opZero 0 j.id a.queue a.off 9 with dests := [.scalar a.die sc, .window s.fabric.partId w], scalars := [sc] }) [] rfl rfl rfl
  obtain ⟨hop, hboard, hnext, hother, hjobs, hjobs'⟩ := hflight
  refine ⟨closingWindow a j w sc s, _, winClose_eq hready hfree hok, ⟨hop, hboard, hnext, hother, hjobs, hjobs'⟩, rfl, windowOf_updWindow_self .., fun k hk => ?_, ?_⟩
  · exact windowOf_updWindow_ne _ _ hk
  · exact ((startOp_frame _ _ _ _).then (updWindow_frame _ _ _)).mono (by decide)

/-- The operation dropped, no other operation of its identifier is left on the die. -/
theorem opOf_dropOp (d : DieIx) (i : Nat) (s : State) : opOf (dropOp d i s) d i = none := by
  rw [opOf, List.find?_eq_none]
  intro o ho
  simpa using dropOp_gone d i s o ho

/-- The end of the operation that waits for a close: it delivers what the window drained (R367). -/
def endClose (n : Nat) (op : Option (DieIx × Nat)) (s : State) : State :=
  match op with
  | none => s
  | some (d, id) => match opOf s d id with
    | none => s
    | some o => o.scalars.foldl (fun s sc => putScalar d sc n s) (dropOp d id s)

theorem endClose_fabric (n : Nat) (op : Option (DieIx × Nat)) (s : State) : KeepsFabric s (endClose n op s) := by
  unfold endClose
  split
  · exact .refl s
  · split
    · exact .refl s
    · refine (dropOp_spares _ (fun h => h) s).trans (.foldl _ (fun s sc _ => .of_flight ?_) _)
      exact flight_updDie _ _ _ fun _ => rfl

/-- A window is closed. -/
def closedWindow (w : Nat) (s : State) : State := updWindow w (fun x => { x with opened := false, closing := false, closeOp := none }) s

theorem windowCloseComplete_eq {s : State} {w : Nat} (hopen : (windowOf s w).opened = true) (hclosing : (windowOf s w).closing = true)
    (hzero : (windowOf s w).admitted = 0) :
    exec (.windowCloseComplete w) s = .next (endClose (windowOf s w).drained (windowOf s w).closeOp (closedWindow w s)) := by
  change execWindowCloseComplete w s = _
  unfold execWindowCloseComplete
  dsimp only
  rw [if_neg (by simp [hopen, hclosing, hzero])]
  rfl

theorem windowCloseComplete_spec {s : State} {w : Nat} (hopen : (windowOf s w).opened = true) (hclosing : (windowOf s w).closing = true)
    (hzero : (windowOf s w).admitted = 0) : ∃ t,
    exec (.windowCloseComplete w) s = .next t ∧ windowOf t w = { windowOf s w with opened := false, closing := false, closeOp := none } ∧
    (∀ k, k ≠ w → windowOf t k = windowOf s k) ∧
    ∀ d op o sc, (windowOf s w).closeOp = some (d, op) → opOf s d op = some o → o.scalars = [sc] →
      scalarOf t d sc = (windowOf s w).drained % 2 ^ 64 ∧ opOf t d op = none := by
  refine ⟨_, windowCloseComplete_eq hopen hclosing hzero, ?_, fun k hk => ?_, fun d op o sc hclose hop hscalar => ?_⟩
  · rw [(endClose_fabric ..).windowOf, closedWindow, windowOf_updWindow_self]
  · rw [(endClose_fabric ..).windowOf, closedWindow, windowOf_updWindow_ne _ _ hk]
  · have hop' : opOf (closedWindow w s) d op = some o := hop
    rw [hclose, endClose, hop']
    simp only [hscalar, List.foldl_cons, List.foldl_nil, scalarOf_putScalar_self, true_and]
    rw [opOf, putScalar, dieOf_updDie_self]
    exact opOf_dropOp d op _

theorem windowCloseComplete_idle {s : State} {w : Nat}
    (h : (windowOf s w).opened = false ∨ (windowOf s w).closing = false ∨ (windowOf s w).admitted ≠ 0) : exec (.windowCloseComplete w) s = .next s := by
  change execWindowCloseComplete w s = _
  unfold execWindowCloseComplete
  dsimp only
  rw [if_pos (by rcases h with h | h | h <;> simp [h])]

/-! #### Packets at the owner -/

/-- The packet that is taken is gone from those that arrived. -/
theorem takeArrived_some {s v : State} {f : PortIx × Packet → Bool} {x : PortIx × Packet} (h : takeArrived f s = some (x, v)) :
    v = { s with fabric := { s.fabric with arrived := s.fabric.arrived.erase x } } := by
  unfold takeArrived at h
  split at h
  · exact absurd h nofun
  · obtain ⟨rfl, rfl⟩ := Prod.mk.inj (Option.some.inj h)
    rfl

/-- The checks at the owner look at the window and the partitions' keys only. -/
theorem windowRefuses_congr {s t : State} {p : Packet} (hwindow : windowOf t p.window = windowOf s p.window) (hparts : t.parts = s.parts) (adm : Bool) :
    windowRefuses t p adm = windowRefuses s p adm := by
  unfold windowRefuses partOfIx
  rw [hwindow, hparts]

/-- What a WRITE that the close had admitted, or any other, leaves of its window's entry (R367). -/
def takenWrite (w : Window) : Window := if w.closing && decide (0 < w.admitted) then { w with admitted := w.admitted - 1 } else w

/-- A WRITE is taken up: it counts as admitted no more. -/
def takeWrite (p : Packet) (v : State) : State :=
  let w := windowOf v p.window
  if w.closing && decide (0 < w.admitted) then updWindow p.window (fun x => { x with admitted := x.admitted - 1 }) v else v

theorem windowOf_takeWrite (p : Packet) (v : State) : windowOf (takeWrite p v) p.window = takenWrite (windowOf v p.window) := by
  unfold takeWrite takenWrite
  dsimp only
  split
  · exact windowOf_updWindow_self ..
  · rfl

theorem takeWrite_frame (p : Packet) (v : State) : Frame [.fabric] v (takeWrite p v) := by
  unfold takeWrite
  dsimp only
  split
  · exact updWindow_frame _ _ _
  · exact .refl _ _

theorem takeWrite_arrived (p : Packet) (v : State) : (takeWrite p v).fabric.arrived = v.fabric.arrived := by
  unfold takeWrite
  dsimp only
  split <;> rfl

theorem takeWrite_dies (p : Packet) (v : State) : (takeWrite p v).dies = v.dies := by
  unfold takeWrite
  dsimp only
  split <;> rfl

theorem takeWrite_parts (p : Packet) (v : State) : (takeWrite p v).parts = v.parts := by
  unfold takeWrite
  dsimp only
  split <;> rfl

theorem remoteWrite_eq {s v : State} {n : PortIx} {p : Packet} (h : takeArrived (fun x => x.2.ptype == 1) s = some ((n, p), v)) :
    let adm := (windowOf v p.window).closing && decide (0 < (windowOf v p.window).admitted)
    (∀ e, windowRefuses (takeWrite p v) p adm = some e → exec .remoteWrite s = .next (answer p 5 e.toNat [] (takeWrite p v))) ∧
    (windowRefuses (takeWrite p v) p adm = none → exec .remoteWrite s = .next (answer p 4 0 [] (landWrite p (takeWrite p v)))) := by
  change (∀ e, _ → execRemoteWrite s = _) ∧ (_ → execRemoteWrite s = _)
  unfold execRemoteWrite
  rw [h]
  dsimp only
  refine ⟨fun e he => ?_, fun hnone => ?_⟩
  · rw [takeWrite] at he ⊢
    rw [he]
    rfl
  · rw [takeWrite] at hnone ⊢
    rw [hnone]

/-- A write lands: its bytes at their place, the window's count of landed writes, and the die awake (R366, R367). -/
theorem landWrite_spec {s : State} {p : Packet} (hmems : dieOk (dieOf s (windowOf s p.window).dieIx)) :
    let w := windowOf s p.window
    let d := w.dieIx
    let u := landWrite p s
    windowOf u p.window = { w with drained := (w.drained + 1) % 2 ^ 32 } ∧ u.fabric.arrived = s.fabric.arrived ∧
    (w.store = false → Wrote (dieOf s d).scratch (dieOf u d).scratch ((handleOf s d w.handle).base * 288 + (w.base + p.offset.toNat)) p.data ∧
      (dieOf u d).store = (dieOf s d).store) ∧
    (w.store = true → Wrote (dieOf s d).store (dieOf u d).store ((storeOf s d w.handle).base * 288 + (w.base + p.offset.toNat)) p.data ∧
      (dieOf u d).scratch = (dieOf s d).scratch ∧ (storeOf u d w.handle).digest = none) ∧
    OtherDies d s u ∧ Frame [.dies, .fabric] s u := by
  intro w d u
  obtain ⟨hscratch, hstore, -⟩ := hmems
  let t := if w.store then putStore d w.handle (w.base + p.offset.toNat) p.data s else putHandle d w.handle (w.base + p.offset.toNat) p.data s
  have hu : u = wakeDie d (updWindow p.window (fun x => { x with drained := (x.drained + 1) % 2 ^ 32 }) t) := rfl
  have hfabric : t.fabric = s.fabric := by dsimp only [t]; split <;> rfl
  have hdie (e : DieIx) : dieOf u e = { dieOf t e with idle := if e = d then 0 else (dieOf t e).idle } := dieOf_wakeDie ..
  have hmem : (dieOf u d).scratch = (dieOf t d).scratch := by rw [hdie]
  have hkeep : (dieOf u d).store = (dieOf t d).store := by rw [hdie]
  obtain ⟨hwrote, hentry, -, hothers, hframe⟩ := putStore_spec hstore w.handle (w.base + p.offset.toNat) p.data
  have hkept : Frame [.dies] s t := by
    dsimp only [t]
    split
    · exact hframe
    · exact putHandle_frame _ _ _ _ _
  refine ⟨?_, ?_, fun hw => ?_, fun hw => ?_, fun e he => ?_, ?_⟩
  · rw [hu]
    have htw : windowOf t p.window = w := by rw [windowOf, hfabric]; rfl
    exact (windowOf_updWindow_self p.window (fun x => { x with drained := (x.drained + 1) % 2 ^ 32 }) t).trans (by rw [htw])
  · exact show t.fabric.arrived = _ by rw [hfabric]
  · have ht : t = putHandle d w.handle (w.base + p.offset.toNat) p.data s := if_neg (by simp [hw])
    rw [hmem, hkeep, ht]
    exact ⟨putHandle_wrote hscratch _ _ _, by rw [putHandle, dieOf_updDie_self]⟩
  · have ht : t = putStore d w.handle (w.base + p.offset.toNat) p.data s := if_pos hw
    have hdigest : storeOf u d w.handle = storeOf t d w.handle := by rw [storeOf, hdie]; rfl
    rw [hmem, hkeep, hdigest, ht]
    refine ⟨hwrote, ?_, by rw [hentry]⟩
    simp [putStore, updStore]
  · rw [hdie, if_neg he]
    dsimp only [t]
    split
    · rw [hothers e he]
    · rw [putHandle, dieOf_updDie_ne _ _ he]
  · exact ((hkept.then (updWindow_frame _ _ _)).then (wakeDie_frame _ _)).mono (by decide)

theorem readReq_eq {s v : State} {n : PortIx} {p : Packet} (h : takeArrived (fun x => x.2.ptype == 2) s = some ((n, p), v)) :
    let w := windowOf s p.window
    let d := w.dieIx
    (∀ e, windowRefuses s p false = some e → exec .readReq s = .next (answer p 5 e.toNat [] v)) ∧
    (windowRefuses s p false = none → windowPoisoned s w = true → exec .readReq s = .next (answer p 5 0x0107 [] (wakeDie d v))) ∧
    (windowRefuses s p false = none → windowPoisoned s w = false → exec .readReq s = .next (answer p 3 0
      (if w.store then storeBytes s d w.handle (w.base + p.offset.toNat) p.length else handleBytes s d w.handle (w.base + p.offset.toNat) p.length)
      (wakeDie d v))) := by
  intro w d
  have hv := takeArrived_some h
  have hwindow : windowOf v p.window = w := by rw [hv]; rfl
  have hrefuses : windowRefuses v p false = windowRefuses s p false := by rw [hv]; exact windowRefuses_congr rfl rfl _
  have hdie : dieOf (wakeDie d v) d = { dieOf s d with idle := 0 } := (dieOf_updDie_self d _ v).trans (by rw [hv]; rfl)
  have hpoisoned : windowPoisoned (wakeDie d v) w = windowPoisoned s w := by
    change (if w.store then (storeOf _ d w.handle).poisoned else (handleOf _ d w.handle).poisoned) = _
    rw [storeOf, handleOf, hdie]
    rfl
  have hbytes (o m : Nat) : storeBytes (wakeDie d v) d w.handle o m = storeBytes s d w.handle o m ∧
      handleBytes (wakeDie d v) d w.handle o m = handleBytes s d w.handle o m := by
    rw [storeBytes, handleBytes, storeOf, handleOf, hdie]
    exact ⟨rfl, rfl⟩
  change (∀ e, _ → execReadReq s = _) ∧ (_ → _ → execReadReq s = _) ∧ (_ → _ → execReadReq s = _)
  unfold execReadReq
  rw [h]
  dsimp only
  rw [hrefuses, hwindow]
  refine ⟨fun e he => by rw [he]; rfl, fun hnone hp => ?_, fun hnone hp => ?_⟩
  · rw [hnone]
    dsimp only
    rw [if_pos (hpoisoned.trans hp)]
    rfl
  · rw [hnone]
    dsimp only
    rw [if_neg (by rw [hpoisoned, hp]; exact Bool.false_ne_true), (hbytes _ _).1, (hbytes _ _).2]

theorem flagSet_spec {s v : State} {n : PortIx} {p : Packet} (h : takeArrived (fun x => x.2.ptype == 6) s = some ((n, p), v)) :
    let d := (windowOf s p.window).dieIx
    (∀ e, windowRefuses s p false = some e → exec .flagSet s = .next (answer p 5 e.toNat [] v)) ∧
    (windowRefuses s p false = none → (∀ q c st b, holdPacket s d q ≠ some (.block p.offset.toNat c st, b)) → ∃ u,
      exec .flagSet s = .next (answer p 4 0 [] u) ∧ flagSetP u d p.offset.toNat = true ∧
      (∀ g, g ≠ p.offset.toNat → flagSetP u d g = flagSetP s d g) ∧ Frame [.dies, .fabric] s u) := by
  intro d
  have hv := takeArrived_some h
  have hd : (windowOf v p.window).dieIx = d := by rw [hv]; rfl
  have hrefuses : windowRefuses v p false = windowRefuses s p false := by rw [hv]; exact windowRefuses_congr rfl rfl _
  change (∀ e, _ → execFlagSet s = _) ∧ (_ → _ → ∃ u, execFlagSet s = _ ∧ _)
  unfold execFlagSet
  rw [h]
  dsimp only
  rw [hrefuses, hd]
  refine ⟨fun e he => by rw [he]; rfl, fun hnone hfree => ⟨wakeDie d (setFlagBit d p.offset.toNat v), ?_, ?_, fun g hg => ?_, ?_⟩⟩
  · rw [hnone]
    have hfree' : ∀ q c st b, holdPacket v d q ≠ some (.block p.offset.toNat c st, b) := by rw [hv]; exact hfree
    rw [signalFlag_of_unawaited hfree']
  · rw [flagSetP, dieOf_wakeDie]
    exact (flagSetP_setFlagBit d p.offset.toNat v).1
  · rw [flagSetP, dieOf_wakeDie]
    refine ((flagSetP_setFlagBit d p.offset.toNat v).2 g hg).trans ?_
    rw [hv]
    rfl
  · have hframe : Frame [.fabric] s v := by rw [hv]; exact fields_frame
    exact ((hframe.then (updFlags_spec d (fun l => l.filter (· != p.offset.toNat) ++ [p.offset.toNat]) v).2.2).then (wakeDie_frame d _)).mono (by decide)

/-- Settles O44: windows open, close and end by their instruction, and the owner's checks decide what a packet does. -/
theorem remoteWindows : Obligations.RemoteWindows := by
  intro s hmems
  refine ⟨fun a j w sc hready hfree => ⟨fun h base len g hok => ?_, fun hok => winClose_spec hready hfree hok⟩,
    fun w => ⟨windowCloseComplete_idle, windowCloseComplete_spec⟩, fun n p v => ⟨fun htaken => ?_, fun htaken => readReq_eq htaken, fun htaken => flagSet_spec htaken⟩⟩
  · refine ⟨_, winOpen_eq hready hfree hok, ?_, fun k hk => scalarOf_putScalar_ne _ _ _ hk,
      windowOf_updWindow_self w (fun _ => openedWindow ..) s, fun k hk => windowOf_updWindow_ne (fun _ => openedWindow ..) s hk, fun e he => ?_, ?_⟩
    · rw [scalarOf_putScalar_self, Nat.mod_eq_of_lt (nextGen_lt _)]
      rfl
    · rw [putScalar, dieOf_updDie_ne _ _ he]
      rfl
    · exact ((updWindow_frame _ _ _).then (putScalar_frame _ _ _ _)).mono (by decide)
  · have hv := takeArrived_some htaken
    have hw : windowOf v p.window = windowOf s p.window := by rw [hv]; rfl
    obtain ⟨hrefused, hlands⟩ := remoteWrite_eq htaken
    have hframe : Frame [.fabric] s (takeWrite p v) := Frame.trans (by rw [hv]; exact fields_frame) (takeWrite_frame p v)
    have hdies : (takeWrite p v).dies = s.dies := by rw [takeWrite_dies, hv]
    have harrived : (takeWrite p v).fabric.arrived = s.fabric.arrived.erase (n, p) := by rw [takeWrite_arrived, hv]
    have hwindow : windowOf (takeWrite p v) p.window = takenWrite (windowOf s p.window) := by rw [windowOf_takeWrite, hw]
    have hchecks (adm : Bool) : windowRefuses (updWindow p.window (fun _ => takenWrite (windowOf s p.window)) s) p adm = windowRefuses (takeWrite p v) p adm :=
      (windowRefuses_congr (by rw [hwindow, windowOf_updWindow_self]) (by rw [takeWrite_parts, hv]; rfl) adm).symm
    rw [hw] at hrefused hlands
    refine ⟨fun e he => ⟨_, hrefused e ((hchecks _).symm.trans he), hwindow, harrived, hframe⟩, fun hnone => ?_⟩
    have hdie (e : DieIx) : dieOf (takeWrite p v) e = dieOf s e := by rw [dieOf, hdies]; rfl
    obtain ⟨hcount, hstays, hscratch, hstore, hothers, hrest⟩ := landWrite_spec (s := takeWrite p v) (p := p) (by rw [hdie]; exact hmems.1 _)
    have hplace : (takenWrite (windowOf s p.window)).dieIx = (windowOf s p.window).dieIx ∧
        (takenWrite (windowOf s p.window)).store = (windowOf s p.window).store ∧ (takenWrite (windowOf s p.window)).base = (windowOf s p.window).base ∧
        (takenWrite (windowOf s p.window)).handle = (windowOf s p.window).handle ∧ (takenWrite (windowOf s p.window)).drained = (windowOf s p.window).drained := by
      unfold takenWrite
      split <;> exact ⟨rfl, rfl, rfl, rfl, rfl⟩
    obtain ⟨hpdie, hpstore, hpbase, hphandle, hpdrained⟩ := hplace
    simp only [hwindow, hpdie, hpstore, hpbase, hphandle, hdie, handleOf, storeOf] at hscratch hstore
    rw [hwindow, hpdrained] at hcount
    refine ⟨_, hlands ((hchecks _).symm.trans hnone), hcount, hstays.trans harrived, hscratch, hstore, fun e he => ?_, (hframe.then hrest).mono (by decide)⟩
    rw [hwindow, hpdie] at hothers
    rw [hothers e he, hdie]

end Sys2Proof.Machine

namespace Sys2Proof.Machine

/-! ### O41: programs (R290, R296 to R300) -/

/-! #### Records after a change beside the queue -/

/-- What a completion record looks at is the same in two states: the queue, its die's owner, the partition's host function and the link. -/
structure SameRing (d : DieIx) (q : QueueIx) (p : PartIx) (s t : State) : Prop where
  queue : queueOf t d q = queueOf s d q
  owner : (dieOf t d).owner = (dieOf s d).owner
  member : (partOfIx t p).memberSlot = (partOfIx s p).memberSlot
  port : (partOfIx t p).ownerPort = (partOfIx s p).ownerPort
  fn : (partOfIx t p).ownerFn = (partOfIx s p).ownerFn
  hosts : ∀ h, hostOf t h = hostOf s h

theorem SameRing.refl (d : DieIx) (q : QueueIx) (p : PartIx) (s : State) : SameRing d q p s s := ⟨rfl, rfl, rfl, rfl, rfl, fun _ => rfl⟩

theorem SameRing.trans {d : DieIx} {q : QueueIx} {p : PartIx} {s t u : State} (h : SameRing d q p s t) (k : SameRing d q p t u) : SameRing d q p s u :=
  ⟨k.queue.trans h.queue, k.owner.trans h.owner, k.member.trans h.member, k.port.trans h.port, k.fn.trans h.fn, fun i => (k.hosts i).trans (h.hosts i)⟩

/-- A change of dies beside queues and owners. -/
theorem updDie_sameRing (d : DieIx) (q : QueueIx) (p : PartIx) (e : DieIx) (f : Die → Die) (s : State) (hq : ∀ x, (f x).queues = x.queues)
    (ho : ∀ x, (f x).owner = x.owner) : SameRing d q p s (updDie e f s) where
  queue := by
    by_cases he : d = e
    · subst he; simp [queueOf, hq]
    · simp [queueOf, he]
  owner := by
    by_cases he : d = e
    · subst he; simp [ho]
    · simp [he]
  member := rfl
  port := rfl
  fn := rfl
  hosts _ := rfl

theorem SameRing.foldl {α : Type} {d : DieIx} {q : QueueIx} {p : PartIx} {f : State → α → State} (hf : ∀ s x, SameRing d q p s (f s x)) (l : List α) (s : State) :
    SameRing d q p s (l.foldl f s) := by
  induction l generalizing s with
  | nil => exact .refl ..
  | cons x l ih => exact (hf s x).trans (ih _)

/-- A change of a partition beside its entry. -/
theorem updPart_sameRing (d : DieIx) (q : QueueIx) (p k : PartIx) (f : Partition → Partition) (s : State) (hf : ∀ x, (f x).entry = x.entry) :
    SameRing d q p s (updPart k f s) := by
  have hentry : (partOfIx (updPart k f s) p).entry = (partOfIx s p).entry := by
    by_cases hk : p = k
    · subst hk; rw [partOfIx_updPart_self, hf]
    · rw [partOfIx_updPart_ne _ _ hk]
  exact ⟨rfl, rfl, by rw [Partition.memberSlot, Partition.memberSlot, hentry], by rw [Partition.ownerPort, Partition.ownerPort, hentry],
    by rw [Partition.ownerFn, Partition.ownerFn, hentry], fun _ => rfl⟩

theorem RecordReady.same {s t : State} {d : DieIx} {q : QueueIx} {p : PartIx} (h : RecordReady s d q p) (k : SameRing d q p s t) : RecordReady t d q p where
  owner := k.owner.trans h.owner
  enabled := by rw [k.queue]; exact h.enabled
  none_held := by rw [k.queue]; exact h.none_held
  room := by rw [k.queue]; exact h.room
  own_host := k.member.trans h.own_host
  link := by rw [k.port, k.hosts]; exact h.link

theorem Completed.same {s t u : State} {d : DieIx} {q : QueueIx} {p : PartIx} {b : List Byte} {w : Bool} {e : Ev} {n : Nat}
    (h : Completed d q p t u b w e n) (k : SameRing d q p s t) : Completed d q p s u b w e n := by
  unfold Completed at h ⊢
  rwa [k.queue, k.port, k.fn] at h

/-- A partition that neither area touches. -/
theorem Frame.partOfIx {ws : List Area} {s t : State} (h : Frame ws s t) (hparts : Area.parts ∉ ws) (hlogs : Area.partLogs ∉ ws) (p : PartIx) :
    Machine.partOfIx t p = Machine.partOfIx s p := by
  have hlog : (Machine.partOfIx t p).log = (Machine.partOfIx s p).log := h .partLogs hlogs p
  calc Machine.partOfIx t p = { { Machine.partOfIx t p with log := [] } with log := (Machine.partOfIx t p).log } := rfl
    _ = { { Machine.partOfIx s p with log := [] } with log := (Machine.partOfIx s p).log } := by rw [h .parts hparts p, hlog]
    _ = Machine.partOfIx s p := rfl

/-- A record put after such a change: what it says of the state before it, and what of the state is left. -/
theorem okPacket_after {s t : State} {d : DieIx} {q : QueueIx} {p : PartIx} (h : RecordReady s d q p) (k : SameRing d q p s t) (b : List Byte) :
    Completed d q p s (okPacket d q b 0 t) b false 0 0 ∧ (∀ i, partOfIx (okPacket d q b 0 t) i = partOfIx t i) ∧
    (∀ e, (dieOf (okPacket d q b 0 t) e).codeBytes = (dieOf t e).codeBytes ∧ (dieOf (okPacket d q b 0 t) e).handles = (dieOf t e).handles) ∧
    Frame recordAreas t (okPacket d q b 0 t) := by
  obtain ⟨hdone, hdies, hframe⟩ := putCpl_completed (h.same k) b
    (c := { cplOk (pktSeq b) (pktType b) (pktTag b) (pktIrq b) with detail := 0 }) rfl rfl rfl (fun _ => rfl) (Nat.two_pow_pos 32)
  have hdie (e : DieIx) : dieOf (okPacket d q b 0 t) e = dieOf (updQueue d q (fun y => { y with crTail := ((queueOf t d q).crTail + 1) % 2 ^ 32 }) t) e := by
    rw [dieOf, okPacket, hdies]
    rfl
  refine ⟨hdone.same k, hframe.partOfIx (by decide) (by decide), fun e => ?_, hframe⟩
  rw [hdie]
  exact ⟨dieOf_updQueue Die.codeBytes (fun _ _ => rfl) .., dieOf_updQueue Die.handles (fun _ _ => rfl) ..⟩

/-- A packet that is refused or held at the head of its queue. -/
theorem exec_programLoad {s : State} {d : DieIx} {q : QueueIx} {b : List Byte} {p : PartIx} (hown : (dieOf s d).owner = some p) (hbody : bodyOk b = true)
    (hhead : headPacket s d q 1 = some b) :
    exec (.programLoad d q) s = .next (settleQueue d q
      (if (tblGet (partOfIx s p).programs (fieldAt b 0x10 1)).isSome = decide (fieldAt b 0x14 4 = 0) then
        holdQueue d q (.programLoad (fieldAt b 0x10 1) (headStaged s d q)) b (popLine d q s)
      else refusePacket d q 0x0104 b (popLine d q s))) := by
  change execProgramLoad d q s = _
  have howner : (dieOf (popLine d q s) d).owner = some p := popLine_owner.trans hown
  rw [execProgramLoad, actPacket_sound hhead hbody, howner]
  dsimp only
  have hparts : partOfIx (popLine d q s) p = partOfIx s p := rfl
  rw [hparts, beq_eq_decide]
  by_cases h : (tblGet (partOfIx s p).programs (fieldAt b 0x10 1)).isSome = decide (fieldAt b 0x14 4 = 0)
  · rw [if_pos h, if_neg (by rw [h]; simp)]
  · rw [if_neg h, if_pos (by simpa using h)]

/-- What a held packet's queue becomes, its line gone on. -/
theorem holdQueue_held {d : DieIx} {q : QueueIx} {s t : State} (ht : ∀ e k, queueOf t e k = queueOf (popLine d q s) e k) (h : Hold) (b : List Byte) :
    queueOf (holdQueue d q h b t) d q = { queueOf s d q with
      line := (queueOf s d q).line.tail, hold := some (h, .packet (pktSeq b) (b.length / 64) b none) } ∧
    ∀ e k, e ≠ d ∨ k ≠ q → queueOf (holdQueue d q h b t) e k = queueOf s e k := by
  refine ⟨?_, fun e k hne => ?_⟩
  · rw [holdQueue, queueOf_updQueue_self, ht, popLine, queueOf_updQueue_self]
  · rw [holdQueue, queueOf_updQueue_ne _ _ hne, ht, popLine, queueOf_updQueue_ne _ _ hne]

/-! #### Bytes of code on the dies -/

/-- The bytes of code of every die of a list change by the die's place in it, the first at place `n`. -/
def chargeCode (f : Nat → Nat → Nat) (n : Nat) (ds : List DieIx) (s : State) : State :=
  (ds.zipIdx n).foldl (fun s d => updDie d.1 (fun x => { x with codeBytes := f x.codeBytes d.2 }) s) s

theorem chargeCode_cons (f : Nat → Nat → Nat) (n : Nat) (d : DieIx) (ds : List DieIx) (s : State) :
    chargeCode f n (d :: ds) s = chargeCode f (n + 1) ds (updDie d (fun x => { x with codeBytes := f x.codeBytes n }) s) := rfl

theorem chargeCode_die (f : Nat → Nat → Nat) (n : Nat) {ds : List DieIx} (hds : ds.Nodup) (s : State) :
    (∀ i e, ds[i]? = some e → (dieOf (chargeCode f n ds s) e).codeBytes = f (dieOf s e).codeBytes (n + i)) ∧
    ∀ e, e ∉ ds → (dieOf (chargeCode f n ds s) e).codeBytes = (dieOf s e).codeBytes := by
  induction ds generalizing n s with
  | nil => exact ⟨nofun, fun _ _ => rfl⟩
  | cons d ds ih =>
    obtain ⟨hd, hds⟩ := List.nodup_cons.1 hds
    obtain ⟨hin, hout⟩ := ih (n + 1) hds (updDie d (fun x => { x with codeBytes := f x.codeBytes n }) s)
    rw [chargeCode_cons]
    refine ⟨fun i e hi => ?_, fun e he => ?_⟩
    · cases i with
      | zero =>
        obtain rfl : d = e := by simpa using hi
        rw [hout d hd, dieOf_updDie_self]
        rfl
      | succ i =>
        have hi' : ds[i]? = some e := by simpa using hi
        have hne : e ≠ d := fun h => hd (h ▸ List.mem_of_getElem? hi')
        rw [hin i e hi', dieOf_updDie_ne _ _ hne, Nat.add_right_comm, Nat.add_assoc]
    · obtain ⟨hne, he⟩ := not_or.1 (fun h => he (List.mem_cons.2 h))
      rw [hout e he, dieOf_updDie_ne _ _ hne]

theorem chargeCode_sameRing (f : Nat → Nat → Nat) (n : Nat) (ds : List DieIx) (d : DieIx) (q : QueueIx) (p : PartIx) (s : State) :
    SameRing d q p s (chargeCode f n ds s) := by
  refine .foldl (fun s x => ?_) _ s
  exact updDie_sameRing d q p x.1 _ s (fun _ => rfl) fun _ => rfl

theorem chargeCode_frame (f : Nat → Nat → Nat) (n : Nat) (ds : List DieIx) (s : State) : Frame [.dies] s (chargeCode f n ds s) := by
  refine .foldl (fun s x => ?_) _ s
  exact updDie_frame_dies x.1 _ s rfl

theorem chargeCode_handles (f : Nat → Nat → Nat) (n : Nat) (ds : List DieIx) (s : State) (e : DieIx) : (dieOf (chargeCode f n ds s) e).handles = (dieOf s e).handles := by
  unfold chargeCode
  generalize ds.zipIdx n = l
  induction l generalizing s with
  | nil => rfl
  | cons x l ih =>
    refine (ih _).trans ?_
    by_cases he : e = x.1
    · rw [he, dieOf_updDie_self]
    · rw [dieOf_updDie_ne _ _ he]

/-! #### Rows set apart for triple pools -/

theorem allocPools_sameRing (l : List (DieIx × Nat × Nat × Nat)) (d : DieIx) (q : QueueIx) (p : PartIx) (s : State) : SameRing d q p s (allocPools l s) := by
  refine .foldl (fun s x => ?_) _ s
  exact updDie_sameRing d q p x.1 _ s (fun _ => rfl) fun _ => rfl

theorem allocPools_frame (l : List (DieIx × Nat × Nat × Nat)) (s : State) : Frame [.dies] s (allocPools l s) := by
  refine .foldl (fun s x => ?_) _ s
  exact updDie_frame_dies x.1 _ s rfl

theorem allocPools_codeBytes (l : List (DieIx × Nat × Nat × Nat)) (s : State) (e : DieIx) : (dieOf (allocPools l s) e).codeBytes = (dieOf s e).codeBytes := by
  induction l generalizing s with
  | nil => rfl
  | cons x l ih =>
    refine (ih _).trans ?_
    dsimp only
    by_cases he : e = x.1
    · rw [he, updHandle, dieOf_updDie_self]
    · rw [updHandle, dieOf_updDie_ne _ _ he]

/-- What handles become does not depend on the rest of the dies. -/
theorem allocPools_handles (l : List (DieIx × Nat × Nat × Nat)) {s t : State} (h : ∀ e, (dieOf t e).handles = (dieOf s e).handles) (e : DieIx) :
    (dieOf (allocPools l t) e).handles = (dieOf (allocPools l s) e).handles := by
  induction l generalizing s t with
  | nil => exact h e
  | cons x l ih =>
    refine ih fun e => ?_
    dsimp only
    by_cases he : e = x.1
    · rw [he, updHandle, updHandle, dieOf_updDie_self, dieOf_updDie_self, h]
    · rw [updHandle, updHandle, dieOf_updDie_ne _ _ he, dieOf_updDie_ne _ _ he, h]

/-! #### Loading and unloading -/

theorem loadCheck_nodup {s : State} {p : PartIx} {slot n dm : Nat} {b : List Byte} {t : ParamTables} (h : loadCheck s p slot n dm b = .ok t) :
    (mapDies dm (fieldAt b 0x0C 1)).Nodup := by
  unfold loadCheck at h
  dsimp only at h
  split at h
  · exact absurd h nofun
  · split at h
    · exact absurd h nofun
    · next _ himage =>
      simp only [imageOk, Bool.not_eq_true', Bool.not_eq_false, Bool.and_eq_true, decide_eq_true_eq] at himage
      tauto

/-- The image that a PROGRAM_LOAD brings, from the staging region or from the host. -/
def loadImage (s : State) (st : Option Staged) (n : Nat) (image : List Byte) : List Byte :=
  match st with
  | some x => stagedBytes s x 0 n
  | none => bytesAt image 0 n

/-- The state of a load that is accepted, before its record. -/
def loaded (p : PartIx) (slot : Nat) (t : ParamTables) (img : List Byte) (ds : List DieIx) (s : State) : State :=
  allocPools t.pools (chargeCode (fun n i => n + codeBytesOf img i) 0 ds (updPart p (fun x => { x with
    chains := t.chains, tempers := t.tempers, sessions := t.sessions, programs := tblSet x.programs slot (programOf img ds) }) s))

section

variable {s : State} {d : DieIx} {q : QueueIx} {b : List Byte} {p : PartIx} (hown : (dieOf s d).owner = some p)
include hown

theorem exec_programLoadComplete {slot : Nat} {st : Option Staged} (hheld : holdPacket s d q = some (.programLoad slot st, b)) (hn : fieldAt b 0x14 4 ≠ 0)
    (image : List Byte) :
    let img := loadImage s st (fieldAt b 0x14 4) image
    (∀ e, loadCheck s p slot (fieldAt b 0x14 4) (fieldAt b 0x20 8) img = .error e →
      exec (.programLoadComplete d q image) s = .next (releaseQueue d q (refusePacket d q e b s))) ∧
    ∀ t, loadCheck s p slot (fieldAt b 0x14 4) (fieldAt b 0x20 8) img = .ok t → exec (.programLoadComplete d q image) s =
      .next (releaseQueue d q (okPacket d q b 0 (loaded p slot t img (mapDies (fieldAt b 0x20 8) (fieldAt img 0x0C 1)) s))) := by
  intro img
  change (∀ e, _ → execProgramLoadComplete d q image s = _) ∧ ∀ t, _ → execProgramLoadComplete d q image s = _
  have hexec : execProgramLoadComplete d q image s = .next (releaseQueue d q (match loadCheck s p slot (fieldAt b 0x14 4) (fieldAt b 0x20 8) img with
      | .error e => refusePacket d q e b s
      | .ok t => okPacket d q b 0 (loaded p slot t img (mapDies (fieldAt b 0x20 8) (fieldAt img 0x0C 1)) s))) := by
    rw [execProgramLoadComplete, hheld, hown]
    dsimp only
    rw [if_neg hn]
    rfl
  rw [hexec]
  exact ⟨fun e he => by rw [he], fun t ht => by rw [ht]⟩

omit hown in
/-- A load that is accepted: record, tables, bytes of code and rows. -/
theorem loaded_spec (hready : RecordReady s d q p) (b : List Byte) (slot : Nat) (t : ParamTables) (img : List Byte) {ds : List DieIx} (hds : ds.Nodup) :
    let u := okPacket d q b 0 (loaded p slot t img ds s)
    Completed d q p s u b false 0 0 ∧
    partOfIx u p = { partOfIx s p with chains := t.chains, tempers := t.tempers, sessions := t.sessions,
                                       programs := tblSet (partOfIx s p).programs slot (programOf img ds) } ∧
    (∀ k, k ≠ p → partOfIx u k = partOfIx s k) ∧
    (∀ i e, ds[i]? = some e → (dieOf u e).codeBytes = (dieOf s e).codeBytes + codeBytesOf img i) ∧
    (∀ e, e ∉ ds → (dieOf u e).codeBytes = (dieOf s e).codeBytes) ∧ (∀ e, (dieOf u e).handles = (dieOf (allocPools t.pools s) e).handles) ∧
    Frame (.parts :: recordAreas) s u := by
  intro u
  let s₁ := updPart p (fun x => { x with
    chains := t.chains, tempers := t.tempers, sessions := t.sessions, programs := tblSet x.programs slot (programOf img ds) }) s
  let s₂ := chargeCode (fun n i => n + codeBytesOf img i) 0 ds s₁
  have hring₁ : SameRing d q p s s₁ := updPart_sameRing d q p p _ s fun _ => rfl
  have hring : SameRing d q p s (allocPools t.pools s₂) := (hring₁.trans (chargeCode_sameRing ..)).trans (allocPools_sameRing ..)
  obtain ⟨hdone, hparts, hdies, hframe⟩ := okPacket_after hready hring b
  have hparts₂ (k : PartIx) : partOfIx (allocPools t.pools s₂) k = partOfIx s₁ k :=
    ((chargeCode_frame _ 0 ds s₁).then (allocPools_frame t.pools s₂)).partOfIx (by decide) (by decide) k
  obtain ⟨hin, hout⟩ := chargeCode_die (fun n i => n + codeBytesOf img i) 0 hds s₁
  refine ⟨hdone, ?_, fun k hk => ?_, fun i e hi => ?_, fun e he => ?_, fun e => ?_, ?_⟩
  · exact (hparts p).trans ((hparts₂ p).trans (partOfIx_updPart_self ..))
  · exact (hparts k).trans ((hparts₂ k).trans (partOfIx_updPart_ne _ _ hk))
  · exact (hdies e).1.trans ((allocPools_codeBytes ..).trans ((hin i e hi).trans (by rw [Nat.zero_add]; rfl)))
  · exact (hdies e).1.trans ((allocPools_codeBytes ..).trans (hout e he))
  · exact (hdies e).2.trans (allocPools_handles (s := s) (t := s₂) t.pools (fun e => chargeCode_handles _ 0 ds s₁ e) e)
  · exact ((((updPart_frame_parts p _ s rfl).then (chargeCode_frame _ 0 ds s₁)).then (allocPools_frame t.pools s₂)).then hframe).mono (by decide)

/-- The state of an unload that is done, before its record. -/
def unloaded (p : PartIx) (slot : Nat) (g : Program) (s : State) : State :=
  updPart p (fun x => { x with programs := tblDel x.programs slot }) (chargeCode (fun n i => n - g.codeLen.getD i 0) 0 g.dieMap s)

theorem exec_programUnload {slot : Nat} {st : Option Staged} (hheld : holdPacket s d q = some (.programLoad slot st, b)) (hn : fieldAt b 0x14 4 = 0) :
    (slotInUse s p slot = true → exec (.programUnload d q) s = .next s) ∧
    ∀ g, slotInUse s p slot = false → tblGet (partOfIx s p).programs slot = some g →
      exec (.programUnload d q) s = .next (finishEvictions p (releaseQueue d q (okPacket d q b 0 (unloaded p slot g s)))) := by
  change (_ → execProgramUnload d q s = _) ∧ ∀ g, _ → _ → execProgramUnload d q s = _
  unfold execProgramUnload
  rw [hheld, hown]
  dsimp only
  refine ⟨fun huse => ?_, fun g hfree hg => ?_⟩
  · rw [if_pos (by simp [huse])]
  · rw [if_neg (by simp [hn, hfree]), hg]
    rfl

omit hown in
theorem unloaded_spec (hready : RecordReady s d q p) (b : List Byte) (slot : Nat) {g : Program} (hg : g.dieMap.Nodup) :
    let u := okPacket d q b 0 (unloaded p slot g s)
    Completed d q p s u b false 0 0 ∧ partOfIx u p = { partOfIx s p with programs := tblDel (partOfIx s p).programs slot } ∧
    (∀ i e, g.dieMap[i]? = some e → (dieOf u e).codeBytes = (dieOf s e).codeBytes - g.codeLen.getD i 0) ∧
    (∀ e, e ∉ g.dieMap → (dieOf u e).codeBytes = (dieOf s e).codeBytes) ∧ Frame (.parts :: recordAreas) s u := by
  intro u
  let s₁ := chargeCode (fun n i => n - g.codeLen.getD i 0) 0 g.dieMap s
  have hring : SameRing d q p s (unloaded p slot g s) := (chargeCode_sameRing ..).trans (updPart_sameRing d q p p _ s₁ fun _ => rfl)
  obtain ⟨hdone, hparts, hdies, hframe⟩ := okPacket_after hready hring b
  obtain ⟨hin, hout⟩ := chargeCode_die (fun n i => n - g.codeLen.getD i 0) 0 hg s
  have hpart : partOfIx s₁ p = partOfIx s p := (chargeCode_frame _ 0 g.dieMap s).partOfIx (by decide) (by decide) p
  refine ⟨hdone, ?_, fun i e hi => ?_, fun e he => ?_, ?_⟩
  · exact (hparts p).trans ((partOfIx_updPart_self ..).trans (by rw [hpart]))
  · exact (hdies e).1.trans ((hin i e hi).trans (by rw [Nat.zero_add]))
  · exact (hdies e).1.trans (hout e he)
  · exact (((chargeCode_frame _ 0 g.dieMap s).then (updPart_frame_parts p _ s₁ rfl)).then hframe).mono (by decide)

/-! #### PATCH -/

/-- A PATCH that waits for the slot's jobs. -/
def patching (p : PartIx) (slot : Nat) (d : DieIx) (q : QueueIx) (g : Program) (s : State) : State :=
  updPart p (fun x => { x with programs := tblSet x.programs slot { g with patchPending := some (d, q) } }) s

theorem exec_patch (hbody : bodyOk b = true) (hhead : headPacket s d q 2 = some b) :
    (tblGet (partOfIx s p).programs (fieldAt b 0x10 1) = none →
      exec (.patch d q) s = .next (settleQueue d q (refusePacket d q 0x0104 b (popLine d q s)))) ∧
    ∀ g, tblGet (partOfIx s p).programs (fieldAt b 0x10 1) = some g →
      (g.patchPending.isSome = true → exec (.patch d q) s = .next s) ∧
      (g.patchPending = none → exec (.patch d q) s = .next (settleQueue d q (if patchFits g (patchRecords b) then
        holdQueue d q (.patch (fieldAt b 0x10 1)) b (patching p (fieldAt b 0x10 1) d q g (popLine d q s)) else refusePacket d q 0x0102 b (popLine d q s)))) := by
  change (_ → execPatch d q s = _) ∧ ∀ g, _ → (_ → execPatch d q s = _) ∧ (_ → execPatch d q s = _)
  unfold execPatch
  rw [hhead, hown]
  dsimp only
  refine ⟨fun hnone => ?_, fun g hg => ⟨fun hpending => ?_, fun hfree => ?_⟩⟩
  · rw [hnone]
    exact congrArg ok (actPacket_sound hhead hbody _)
  · rw [hg]
    dsimp only
    rw [if_pos (by simp [hbody, hpending])]
  · rw [hg]
    dsimp only
    rw [if_neg (by simp [hfree]), actPacket_sound hhead hbody]
    cases patchFits g (patchRecords b) <;> rfl

/-- The state of a PATCH that is applied, before its record. -/
def patched (p : PartIx) (slot : Nat) (g : Program) (b : List Byte) (s : State) : State :=
  finishEvictions p (updPart p (fun x => { x with programs := tblSet x.programs slot (applyPatch g (patchRecords b)) }) s)

theorem exec_patchApply {slot : Nat} (hheld : holdPacket s d q = some (.patch slot, b)) :
    (slotInUse s p slot = true → exec (.patchApply d q) s = .next s) ∧
    ∀ g, slotInUse s p slot = false → tblGet (partOfIx s p).programs slot = some g →
      exec (.patchApply d q) s = .next (releaseQueue d q (okPacket d q b 0 (patched p slot g b s))) := by
  change (_ → execPatchApply d q s = _) ∧ ∀ g, _ → _ → execPatchApply d q s = _
  unfold execPatchApply
  rw [hheld, hown]
  dsimp only
  refine ⟨fun huse => ?_, fun g hfree hg => ?_⟩
  · rw [if_pos huse]
  · rw [if_neg (by simp [hfree]), hg]
    rfl

omit hown in
theorem patched_spec (hready : RecordReady s d q p) (b : List Byte) (slot : Nat) (g : Program) :
    let u := okPacket d q b 0 (patched p slot g b s)
    Completed d q p s u b false 0 0 ∧ tblGet (partOfIx u p).programs slot = some (applyPatch g (patchRecords b)) ∧
    (∀ k, k ≠ slot → tblGet (partOfIx u p).programs k = tblGet (partOfIx s p).programs k) ∧ (applyPatch g (patchRecords b)).digest = g.digest ∧
    Frame (.parts :: recordAreas) s u := by
  intro u
  let s₁ := updPart p (fun x => { x with programs := tblSet x.programs slot (applyPatch g (patchRecords b)) }) s
  have hset : SameRing d q p s s₁ := updPart_sameRing d q p p _ s fun _ => rfl
  have hevict : SameRing d q p s₁ (patched p slot g b s) := by
    unfold patched finishEvictions
    exact updPart_sameRing d q p p _ s₁ fun _ => rfl
  have hring := hset.trans hevict
  obtain ⟨hdone, hparts, -, hframe⟩ := okPacket_after hready hring b
  have hprograms : (partOfIx u p).programs = tblSet (partOfIx s p).programs slot (applyPatch g (patchRecords b)) := by
    have hpart : partOfIx u p = partOfIx (patched p slot g b s) p := hparts p
    rw [hpart, patched, finishEvictions, partOfIx_updPart_self, partOfIx_updPart_self]
  refine ⟨hdone, ?_, fun k hk => ?_, rfl, ?_⟩
  · rw [hprograms, tblGet_tblSet, if_pos rfl]
  · rw [hprograms, tblGet_tblSet, if_neg hk]
  · exact (((updPart_frame_parts p _ s rfl).then (updPart_frame_parts p _ s₁ rfl)).then hframe).mono (by decide)

end

/-- Settles O41: each packet and completion is one of its branches, and what it changes is seen of the state before its record. -/
theorem programImages : Obligations.ProgramImages := by
  intro s d q b p hown hbody program held
  refine ⟨fun hhead => ⟨fun hload => ?_, fun hload => ?_⟩, fun slot st image hheld hn => ?_, fun slot st hheld hn => ?_, fun hhead => ?_, fun slot hheld => ?_⟩
  · have hexec := exec_programLoad hown hbody hhead
    rw [if_pos hload] at hexec
    refine ⟨_, hexec, holdQueue_held (fun _ _ => rfl) _ _, ((popLine_frame d q s).then (holdQueue_frame _ _ _ _ _)).mono (by decide)⟩
  · have hexec := exec_programLoad hown hbody hhead
    rwa [if_neg hload] at hexec
  · obtain ⟨hrefused, haccepted⟩ := exec_programLoadComplete hown hheld hn image
    refine ⟨hrefused, fun t ht hready => ⟨_, haccepted t ht, loaded_spec hready b slot t _ (loadCheck_nodup ht)⟩⟩
  · obtain ⟨hwaits, hdone⟩ := exec_programUnload hown hheld hn
    exact ⟨hwaits, fun g hfree hg hmap hready => ⟨_, hdone g hfree hg, unloaded_spec hready b slot hmap⟩⟩
  · obtain ⟨hnone, hsome⟩ := exec_patch hown hbody hhead
    refine ⟨hnone, fun g hg => ?_⟩
    obtain ⟨hpending, hfree⟩ := hsome g hg
    refine ⟨hpending, fun hidle hfits => ?_, fun hidle hfits => ?_⟩
    · rw [hfree hidle, if_neg (by rw [hfits]; exact Bool.false_ne_true)]
    · refine ⟨_, (hfree hidle).trans (by rw [if_pos hfits]), holdQueue_held (t := patching p (fieldAt b 0x10 1) d q g (popLine d q s)) (fun _ _ => rfl) _ _, ?_, ?_⟩
      · exact partOfIx_updPart_self p (fun x => { x with programs := tblSet x.programs _ { g with patchPending := some (d, q) } }) (popLine d q s)
      · exact (((popLine_frame d q s).then (updPart_frame_parts p _ _ rfl)).then (holdQueue_frame _ _ _ _ _)).mono (by decide)
  · obtain ⟨hwaits, hdone⟩ := exec_patchApply hown hheld
    exact ⟨hwaits, fun g hfree hg hready => ⟨_, hdone g hfree hg, patched_spec hready b slot g⟩⟩

end Sys2Proof.Machine

namespace Sys2Proof.Machine

/-! ### O53: writes of the object dictionary -/

/-- A write by the host's physical function of a partition command two bytes long, where one byte is due. -/
def wideCommand : FpReq :=
  let r : FpReq := { via := .pcie .a 0, member := 0, opcode := 2, index := 0x5000, sub := 0x21, data := [1, 0], length := 2, total := 2, offset := 0, last := true
                     reserved := 0, version := 1, response := false, status := 0, check := 0 }
  { r with check := crc32c (reqBytes r) }

/-- A part that serves its host, with a running partition whose die is idle. -/
def idleHost : State :=
  updHost .a (fun h => { h with linkUp := true }) (updDie 0 (fun x => { x with idle := 2 }) someRunning)

/-- The idle states of a part's dies after a step. -/
def idleAfter : Result → List Nat
  | .next t => allDies.map fun d => (dieOf t d).idle
  | _ => []

theorem idleHost_serves : awake idleHost = true ∧ carried idleHost wideCommand.via = true ∧ reqSound wideCommand = true ∧
    clsOf idleHost wideCommand.via wideCommand.member = some .host ∧ idleHost.boot.fwState = 2 ∧ idleHost.alarm.device = false := by decide +kernel

theorem idleHost_wakes : idleAfter (exec (.write wideCommand) idleHost) ≠ allDies.map fun d => (dieOf idleHost d).idle := by decide +kernel

/-- Refutes O53: a partition command of the wrong width is answered LENGTH, but the partition's idle die is awake after it. -/
theorem not_dictionaryWrites : ¬ Obligations.DictionaryWrites := by
  intro h
  obtain ⟨hawake, hcarried, hsound, hcls, hfw, hon⟩ := idleHost_serves
  have hwrites : HostWrites idleHost wideCommand 0x5000 0x21 [1, 0] := ⟨⟨hawake, hcarried, hsound, hcls⟩, ⟨hfw, hon⟩, rfl, rfl, rfl, rfl⟩
  have hexec := (h idleHost wideCommand).1 0x5000 0x21 [1, 0] (numRow 0x5000 0x21 0x30 2 4) hwrites (by decide) (by decide) (by decide) (by decide) (by decide)
  refine idleHost_wakes ?_
  rw [hexec]
  rfl

end Sys2Proof.Machine

namespace Sys2Proof.Machine

/-! ### O56: rollback, attestation and benches (R397 to R400, R420, R423 to R427) -/

/-! #### The rollback counter (R420) -/

theorem exec_rollbackAdvance {s : State} {r : FpReq} {v : Nat} (h : HostWrites s r 0x4001 2 (leBytes 4 v)) (hv : v < 2 ^ 32) (burned : W64) (revoked : BitVec 4) :
    exec (.rollbackAdvance r burned revoked) s = .next (answeredWrite r s (advanceRollback { Extra.plain with burned := burned, revoked := revoked } v s)) := by
  have hwrite := serveReq_hostWrite { Extra.plain with burned := burned, revoked := revoked } h (o := numRow 0x4001 2 2 4 4) (by decide) (by decide) (by decide)
    (by decide) (leBytes_length 4 v)
  obtain ⟨-, -, hop, hi, hk, -⟩ := h
  have hnone : needsDies s true r = [] := by simp [needsDies, hi]
  rw [hnone] at hwrite
  have hvalue : leNat (leBytes 4 v) = v := by rw [leNat_leBytes]; omega
  change execRollbackAdvance r burned revoked s = _
  rw [execRollbackAdvance, if_pos (by simp [isWrite, hop, hi, hk]), hwrite]
  simp only [writeObj, write4, hvalue]
  rfl

/-! #### Attestation (R423 to R427) -/

theorem exec_attestationRequest {s : State} {r : FpReq} {b : List Byte} (h : HostWrites s r 0x4020 1 b) (hlen : b.length = 40) :
    exec (.attestationRequest r) s = .next (answeredWrite r s (requestReport .host (whoOf s r.via r.member) b s)) := by
  have hwrite := serveReq_hostWrite .plain h (o := ⟨0x4020, 1, 1, 10, 4, 40⟩) (by decide) (by decide) (by decide) (by decide) hlen
  obtain ⟨-, -, hop, hi, hk, -⟩ := h
  have hnone : needsDies s true r = [] := by simp [needsDies, hi]
  rw [hnone] at hwrite
  change execAttestationRequest r s = _
  rw [execAttestationRequest, if_pos (by simp [isWrite, hop, hi, hk]), hwrite]
  rfl

section

variable (s : State) (w : Nat) (b : List Byte)

theorem requestReport_unsound (h : (15 < fieldAt b 0 1 ∧ fieldAt b 0 1 ≠ 0xFF) ∨ 1 < fieldAt b 1 1 ∨ zeroRange b 2 8 = false) :
    requestReport .host w b s = .error 5 := by
  unfold requestReport
  dsimp only
  rw [if_pos (by simpa [or_assoc] using h)]

/-- The queue of the reports to be signed, with a request in the place of the requester's earlier one (log 86). -/
def queuedReport (key : Option ImportKey) (s : State) : State :=
  { s with sec := { s.sec with
    reports := (s.sec.reports.filter (·.who != w)) ++ [{ who := w, ready := false, bytes := [] }]
    signQueue := (s.sec.signQueue.filter (·.who != w)) ++ [{ who := w, part := fieldAt b 0 1, newKey := key, nonce := bytesAt b 8 32 }] } }

variable (hpart : fieldAt b 0 1 ≤ 15) (hzero : zeroRange b 2 8 = true)
include hpart hzero

theorem requestReport_plain (hflags : fieldAt b 1 1 = 0) : requestReport .host w b s = .ok (queuedReport w b none s) := by
  unfold requestReport
  dsimp only
  rw [if_neg (by simp [hflags, hzero]; omega), if_neg (by simp [mayAttest, hflags])]
  simp [hflags, queuedReport]

theorem requestReport_newKey (hflags : fieldAt b 1 1 = 1) :
    requestReport .host w b s = .ok (queuedReport w b (some (drawImportKey s).1) (drawImportKey s).2) := by
  have hone : fieldAt b 0 1 ≠ 0xFF := by omega
  unfold requestReport
  dsimp only
  rw [if_neg (by simp [hflags, hzero]; omega), if_neg (by simp [mayAttest, hone])]
  simp [hflags, queuedReport]

end

/-- A drawn import key is a key pair of the curve (R425). -/
theorem drawImportKey_spec (s : State) :
    let k := (drawImportKey s).1
    k.id ≠ 0 ∧ 1 ≤ k.d ∧ (k.d < p384.order) ∧ (k.x, k.y) = ecCoords (ecMul p384 k.d (some (p384.gx, p384.gy))) ∧
    Frame [.sec, .free] s (drawImportKey s).2 ∧ (drawImportKey s).2.sec.signQueue = s.sec.signQueue := by
  have hlt : Config.freeValue s.free 0 % (p384.order - 1) < p384.order - 1 := Nat.mod_lt _ (by decide)
  exact ⟨Nat.succ_ne_zero _, Nat.succ_pos _, Nat.add_lt_of_lt_sub hlt, rfl, fields_frame, rfl⟩

/-- The import key of a request is committed before its report is signed (R426). -/
def commitKey (r : SignReq) (s : State) : State :=
  match r.newKey with
  | some x => updPart (ixOf r.part) (fun t => { t with importKey := some x }) s
  | none => s

theorem commitKey_importKey (r : SignReq) (s : State) :
    (partOfIx (commitKey r s) (ixOf r.part)).importKey = r.newKey.or (partOfIx s (ixOf r.part)).importKey := by
  unfold commitKey
  cases r.newKey with
  | none => rfl
  | some x => rw [partOfIx_updPart_self]; rfl

theorem commitKey_frame (r : SignReq) (s : State) : Frame [.parts] s (commitKey r s) := by
  unfold commitKey
  split
  · exact updPart_frame_parts _ _ _ rfl
  · exact .refl _ _

/-- The next request is out of the queue, and counted. -/
def numbered (rest : List SignReq) (s : State) : State := { s with sec := { s.sec with signQueue := rest, reportSeq := s.sec.reportSeq + 1 } }

/-- The reports of a requester become ready with the bytes of one. -/
def readied (who : Nat) (bytes : List Byte) (s : State) : State :=
  { s with sec := { s.sec with reports := s.sec.reports.map fun x => if x.who = who then { x with ready := true, bytes := bytes } else x } }

/-- A report is signed in its turn, its import key committed first (R426). -/
theorem reportSigned_spec {s : State} {r : SignReq} {rest : List SignReq} {sk : List Byte} (hqueue : s.sec.signQueue = r :: rest) (hsk : s.sec.identSk = some sk) :
    ∃ t, exec .reportSigned s = .next t ∧ t.sec.signQueue = rest ∧
      t.sec.reportSeq = s.sec.reportSeq + 1 ∧ (partOfIx t (ixOf r.part)).importKey = (r.newKey.or (partOfIx s (ixOf r.part)).importKey) ∧
      (∀ x ∈ s.sec.reports, x.who = r.who → { x with ready := true, bytes := reportBody t r ++ bytesAt (Config.slhSign sk (reportBody t r)) 0 17088 } ∈ t.sec.reports) ∧
      (∀ x ∈ s.sec.reports, x.who ≠ r.who → x ∈ t.sec.reports) ∧ Frame [.parts, .sec] s t := by
  let u := numbered rest (commitKey r s)
  have hkept := commitKey_frame r s
  have hsec : (commitKey r s).sec = s.sec := hkept .sec (by decide)
  have hreports : (commitKey r s).sec.reports = s.sec.reports := congrArg Sec.reports hsec
  refine ⟨readied r.who (reportBody u r ++ bytesAt (Config.slhSign sk (reportBody u r)) 0 17088) u, ?_, rfl, ?_, commitKey_importKey r s, fun x hx hwho => ?_,
    fun x hx hwho => ?_, ((hkept.then (vs := [.sec]) fields_frame).then (vs := [.sec]) fields_frame).mono (by decide)⟩
  · change execReportSigned s = _
    unfold execReportSigned
    rw [hqueue, hsk]
    rfl
  · exact congrArg (fun x : Sec => x.reportSeq + 1) hsec
  · exact List.mem_map.2 ⟨x, show x ∈ (commitKey r s).sec.reports from hreports ▸ hx, if_pos hwho⟩
  · exact List.mem_map.2 ⟨x, show x ∈ (commitKey r s).sec.reports from hreports ▸ hx, if_neg hwho⟩

/-! #### Members and their gateway (R397 to R399) -/

theorem memberRegistration_new {s : State} {g : MemberReg} (h : ∀ x ∈ (hostOf s g.port).slotsHeld, ¬(x.fn = g.fn ∧ x.slot = g.slot)) :
    ∃ u, exec (.memberRegistration g) s = .next (sendMsg .mgmt (hostDie g.port) g.part 0 (fun v => .registrationAnswer v g false) u) ∧
      (hostOf u g.port).slotsHeld = (hostOf s g.port).slotsHeld ++ [g] ∧ Frame [.hosts] s u := by
  have hfree : ((hostOf s g.port).slotsHeld.any fun r => r.fn == g.fn && r.slot == g.slot) = false := by
    simpa using h
  refine ⟨updHost g.port (fun h => { h with slotsHeld := h.slotsHeld ++ [g] }) s, ?_, by simp, updHost_frame _ _ _ rfl⟩
  change execMemberRegistration g s = _
  unfold execMemberRegistration
  rw [hfree]
  rfl

theorem memberRegistration_held {s : State} {g : MemberReg} (h : ∃ x ∈ (hostOf s g.port).slotsHeld, x.fn = g.fn ∧ x.slot = g.slot) :
    exec (.memberRegistration g) s = .next (sendMsg .mgmt (hostDie g.port) g.part 0 (fun v => .registrationAnswer v g true) s) := by
  have hheld : ((hostOf s g.port).slotsHeld.any fun r => r.fn == g.fn && r.slot == g.slot) = true := by
    simpa using h
  change execMemberRegistration g s = _
  unfold execMemberRegistration
  rw [hheld]
  rfl

theorem requestPages_frame (h : HostId) (fn : Nat) (pages : List Nat) (s : State) : Frame [.hosts, .out] s (requestPages h fn pages s) := by
  unfold requestPages
  split
  · refine .foldl (fun s g => ?_) _ s
    split
    · exact .refl _ _
    · exact ((updHost_frame h _ s rfl).then (emit_frame _ _)).mono (by decide)
  · exact .refl _ _

theorem requestPages_none {s : State} {h : HostId} {fn : Nat} (hats : (hostOf s h).ats.contains fn = false) (pages : List Nat) :
    requestPages h fn pages s = s := by
  rw [requestPages, hats]
  rfl

/-- What a gateway does with a write that a member sends it, where it serves that member (R399). -/
theorem exec_forwardedHostWrite {s : State} {w : FwdWrite} (hheld : w.reg ∈ (hostOf s w.reg.port).slotsHeld) (hon : s.alarm.device = false)
    (hlink : (hostOf s w.reg.port).linkUp = true) : exec (.forwardedHostWrite w) s = .next (match w.kind with
      | .completion vec => forwardCpl w vec s
      | .pages pages => sendBench w.reg.port (updHost w.reg.port (fun p => { p with benchWait := p.benchWait ++ [(w.reg, w.tag, pages)] }) s)
      | .data => sendMsg .bench (hostDie w.reg.port) w.reg.part w.die (fun v => .forwardedAck v w.tag)
        (emit (.hostWrite w.reg.port w.reg.fn w.addr.toNat w.bytes ((hostOf s w.reg.port).relaxed.contains w.reg.fn) ((hostOf s w.reg.port).ats.contains w.reg.fn))
          (requestPages w.reg.port w.reg.fn (pagesOf [(w.addr.toNat, w.bytes.length)]) s))) := by
  change execForwardedHostWrite w s = _
  unfold execForwardedHostWrite
  dsimp only
  split
  · next h => simp [hon, hlink, hheld] at h
  · cases w.kind <;> rfl

/-- Settles O56: each command's branch, with what it asks of the fuses, the signing queue or the gateway. -/
theorem attestationAndBenches : Obligations.AttestationAndBenches := by
  intro s
  refine ⟨fun r burned revoked v hwrites hv => ?_, fun r b hwrites hlen => ⟨fun hbad => ?_, fun hpart hflags hzero => ?_, fun hpart hflags hzero => ?_⟩,
    fun r rest sk hqueue hsk => reportSigned_spec hqueue hsk, fun g => ⟨memberRegistration_new, memberRegistration_held⟩, fun w => ⟨fun hheld hon hlink => ?_, fun hfree => ?_⟩⟩
  · rw [exec_rollbackAdvance hwrites hv]
    refine ⟨fun ⟨hfw, hless, hmax⟩ => ?_, fun hbad => ?_⟩
    · rw [advanceRollback, if_neg (by simp [hfw] at *; omega)]
      rfl
    · rw [advanceRollback, if_pos (by simp; omega)]
      rfl
  · rw [exec_attestationRequest hwrites hlen, requestReport_unsound _ _ _ hbad]
    rfl
  · rw [exec_attestationRequest hwrites hlen, requestReport_plain _ _ _ hpart hzero hflags]
    rfl
  · obtain ⟨hid, hlow, hhigh, hcurve, hframe, hrest⟩ := drawImportKey_spec s
    refine ⟨queuedReport (whoOf s r.via r.member) b (some (drawImportKey s).1) (drawImportKey s).2, (drawImportKey s).1, ?_, ?_, ?_, hid, hlow, hhigh, hcurve⟩
    · rw [exec_attestationRequest hwrites hlen, requestReport_newKey _ _ _ hpart hzero hflags]
      rfl
    · exact (hframe.then (vs := [.sec]) fields_frame).mono (by decide)
    · rw [queuedReport, hrest]
  · have hexec := exec_forwardedHostWrite hheld hon hlink
    refine ⟨fun hkind => ?_, fun hkind => ?_, fun pages hkind => ?_⟩
    all_goals rw [hkind] at hexec
    · refine ⟨_, hexec, by simp [emit], fun hats => by rw [requestPages_none hats]; rfl, ((requestPages_frame _ _ _ _).then (emit_frame _ _)).mono (by decide)⟩
    · exact ⟨_, hexec, updHost_frame w.reg.port _ _ rfl .out (by decide), ((emit_frame _ s).then (updHost_frame _ _ _ rfl)).mono (by decide)⟩
    · exact ⟨_, hexec, updHost_frame _ _ _ rfl, by simp⟩
  · change execForwardedHostWrite w s = _
    unfold execForwardedHostWrite
    dsimp only
    rw [if_pos (by simp [hfree])]

end Sys2Proof.Machine

namespace Sys2Proof.Machine

/-! ### O57: the shut-down sequence (R422, R438, R471 to R474, R518, R521) -/

/-! #### The jobs that a quench leaves -/

/-- The jobs of other identifiers. -/
def otherJobs (id : Nat) (s : State) : List Job := s.jobs.filter fun j => j.id != id

theorem otherJobs_updJob (id : Nat) (f : Job → Job) (s : State) (hf : ∀ j, (f j).id = j.id) : otherJobs id (updJob id f s) = otherJobs id s := by
  unfold otherJobs updJob
  dsimp only
  rw [List.filter_map]
  have hids : ((fun j : Job => j.id != id) ∘ fun j => if j.id = id then f j else j) = fun j => j.id != id := by
    funext j
    by_cases hj : j.id = id <;> simp [hj, hf]
  rw [hids]
  refine (List.map_congr_left fun j hj => ?_).trans (List.map_id _)
  have hne : j.id ≠ id := by simpa using (List.mem_filter.1 hj).2
  simp [hne]

theorem otherJobs_logJob (e : Ev) (j : Job) (a : Site) (unit detail : Nat) (skip : Bool) (s : State) :
    otherJobs j.id (logJob e j a unit detail skip s) = otherJobs j.id s := by
  have hjobs := logEvent_frame e (evJob j a unit detail skip) s .jobs (by decide)
  refine (otherJobs_updJob j.id (fun k => { k with events := k.events + 1 }) _ fun _ => rfl).trans ?_
  exact congrArg (List.filter fun k : Job => k.id != j.id) hjobs

theorem otherJobs_of_none {id : Nat} {s : State} (h : jobOf s id = none) : s.jobs = otherJobs id s :=
  (List.filter_eq_self.2 fun k hk => by simpa using jobOf_none h k hk).symm

theorem finishJob_jobs (id elapsed : Nat) (s : State) : (finishJob id elapsed s).jobs = otherJobs id s := by
  unfold finishJob
  split
  · next h => exact otherJobs_of_none h
  · next j hj =>
    have hid : j.id = id := by simpa using List.find?_some hj
    extract_lets late s₁ k c hm rec_ s₂
    have hjobs : (finishEvictions k.part (putCpl k.die k.queue rec_ s₂)).jobs = otherJobs id s₁ :=
      still_jobs (t := finishEvictions k.part (putCpl k.die k.queue rec_ s₂)) (s := s₂) (by simp)
    rw [hjobs]
    dsimp only [s₁]
    split
    · exact hid ▸ otherJobs_logJob ..
    · rfl

/-- The quench of a job takes the jobs of its identifier away and no other. -/
theorem quenchJob_jobs (id : Nat) (e : Ev) (cancel : Bool) (s : State) : (quenchJob id e cancel s).jobs = otherJobs id s := by
  unfold quenchJob
  split
  · next h => exact otherJobs_of_none h
  · extract_lets s₁ s₂ s₃ s₄ s₅ s₆
    have h₃ : still s₃ = still s₁ := still_foldl (fun s d => still_foldl (fun s o => still_abortOp d e o s) _ s) _ s₂
    have h₆ : still s₆ = still s₃ := by simp only [s₆, s₅, s₄, still_zeroJobSecrets, still_poisonAll, still_abortBn]
    refine (finishJob_jobs id _ _).trans ?_
    have hjobs : s₆.jobs = s₁.jobs := still_jobs (h₆.trans h₃)
    have hfirst : otherJobs id s₁ = otherJobs id s := otherJobs_updJob id _ s fun _ => rfl
    exact (congrArg (List.filter fun j : Job => j.id != id) hjobs).trans hfirst

theorem mem_quenchJobs {e : Ev} {cancel : Bool} {l : List Nat} {s : State} {j : Job} :
    j ∈ (l.foldl (fun s i => quenchJob i e cancel s) s).jobs ↔ j ∈ s.jobs ∧ j.id ∉ l := by
  induction l generalizing s with
  | nil => simp
  | cons i l ih =>
    rw [List.foldl_cons, ih, quenchJob_jobs, otherJobs]
    simp [and_assoc]

/-! #### The phases of the test -/

theorem exec_shutdown {s : State} {r : FpReq} (h : HostWrites s r 0x7000 1 (leBytes 1 1)) :
    exec (.shutdown r) s = .next (answeredWrite r s (startShutdown s)) := by
  have hwrite := serveReq_hostWrite .plain h (o := numRow 0x7000 1 1 2 4) (by decide) (by decide) (by decide) (by decide) (leBytes_length 1 1)
  obtain ⟨-, -, hop, hi, hk, -⟩ := h
  have hnone : needsDies s true r = [] := by simp [needsDies, hi]
  rw [hnone] at hwrite
  change execShutdown r s = _
  rw [execShutdown, if_pos (by simp [isWrite, hop, hi, hk]), hwrite]
  rfl

theorem beginClear_spec (s : State) : (beginClear s).bist.phase = 2 ∧ (beginClear s).bist.iv.length = 12 ∧ (beginClear s).jobs = s.jobs ∧
    Frame [.bist, .free] s (beginClear s) := ⟨rfl, (freeBytes_spec 12 s).1, rfl, fields_frame⟩

theorem drainGraceExpiry_eq {s : State} (h : s.bist.phase = 1) :
    exec .drainGraceExpiry s = .next (beginClear ((admittedJobs s).foldl (fun s i => quenchJob i 0 true s) s)) := congrArg ok (if_pos h)

/-- No admitted job is left once each has been quenched. -/
theorem quenchAdmitted_none {s : State} {j : Job} (h : j ∈ ((admittedJobs s).foldl (fun s i => quenchJob i 0 true s) s).jobs) : j.phase ≠ .admitted := by
  obtain ⟨hj, hnot⟩ := mem_quenchJobs.1 h
  intro hphase
  exact hnot (List.mem_map.2 ⟨j, List.mem_filter.2 ⟨hj, by simp [hphase]⟩, rfl⟩)

/-! #### CLEAR (R472) -/

theorem parts_foldl {α : Type} {f : State → α → State} (hf : ∀ s x, (f s x).parts = s.parts) (l : List α) (s : State) : (l.foldl f s).parts = s.parts := by
  induction l generalizing s with
  | nil => rfl
  | cons x l ih => exact (ih _).trans (hf s x)

theorem zeroPartSecrets_importKey (q p : PartIx) (s : State) :
    (partOfIx (zeroPartSecrets q s) p).importKey = if p = q then none else (partOfIx s p).importKey := by
  unfold zeroPartSecrets
  extract_lets ds s₁ s₂ s₃ sec s₄
  have h₁ : s₁.parts = s.parts := by
    refine parts_foldl (fun s d => parts_foldl (fun s e => ?_) _ s) _ s
    rfl
  have h₂ : s₂.parts = s₁.parts := by
    refine parts_foldl (fun s e => ?_) _ s₁
    rfl
  have h₄ : partOfIx s₄ p = partOfIx s p := by
    have hparts : s₄.parts = s.parts := h₂.trans h₁
    rw [partOfIx, hparts]
    rfl
  by_cases hp : p = q
  · subst hp
    rw [partOfIx_updPart_self, if_pos rfl]
  · rw [partOfIx_updPart_ne _ _ hp, if_neg hp, h₄]

theorem zeroDeviceSecrets_importKey (s : State) (p : PartIx) : (partOfIx (zeroDeviceSecrets s) p).importKey = none := by
  have hparts : (zeroDeviceSecrets s).parts = (allParts.foldl (fun s p => zeroPartSecrets p s) s).parts := by simp only [zeroDeviceSecrets]
  rw [partOfIx, hparts, ← partOfIx]
  refine foldl_reaches (P := fun _ => True) (Q := fun u => (partOfIx u p).importKey = none) (List.mem_finRange p) (fun _ _ _ => trivial) (fun u _ => ?_)
    (fun u q hu => ?_) trivial
  · rw [zeroPartSecrets_importKey, if_pos rfl]
  · rw [zeroPartSecrets_importKey]
    split
    · rfl
    · exact hu

/-- Paired twins learn that the pair ends. -/
def leavePair (s : State) : State := if s.twin.state = .paired || s.twin.state = .lost then sendTwin 1 0 0 s else s

theorem still_leavePair (s : State) : still (leavePair s) = still s := by
  unfold leavePair
  split
  · exact still_sendTwin ..
  · rfl

/-- What CLEAR leaves, before its phase is entered. -/
def cleared (s : State) : State :=
  zeroDeviceSecrets ((usedParts (leavePair s)).foldl (fun s p => quenchPartition p 0 false s) (leavePair s))

theorem clearComplete_eq {s : State} (h : s.bist.phase = 2) :
    exec .clearComplete s = .next (updBist (fun b => { b with phase := 3 }) { cleared s with sec := { (cleared s).sec with state := .test } }) := by
  change execClearComplete s = _
  rw [execClearComplete, if_neg (by simp [h]), cleared, usedParts, leavePair]

theorem cleared_quenches (s : State) : Quenches 0 (usedParts (leavePair s)) (leavePair s) (cleared s) := by
  have hnodup : (usedParts (leavePair s)).Nodup := (List.nodup_finRange 16).filter _
  have hparts := quenchPartitions_quenches 0 false hnodup (leavePair s)
  have hsecrets : Quenches 0 [] _ (cleared s) := .of_still (still_zeroDeviceSecrets _)
  simpa using hparts.append hsecrets (by simp)

theorem cleared_spec (s : State) :
    (cleared s).sec.identSk = none ∧ (∀ j ∈ (cleared s).jobs, (partOfIx s j.part).state = .free) ∧
    (∀ n, (portOf (cleared s) n).sendKey = none ∧ (portOf (cleared s) n).recvKey = none) ∧
    (∀ p, (partOfIx s p).state ≠ .free → (partOfIx (cleared s) p).importKey = none ∧ (partOfIx (cleared s) p).quenchCount = (partOfIx s p).quenchCount + 1) ∧
    ∀ x ∈ (cleared s).bn.slots, x.2.isSecret = true → x.2.value = 0 := by
  have hquenches := cleared_quenches s
  have hmarks (p : PartIx) : (partOfIx (leavePair s) p).state = (partOfIx s p).state ∧ (partOfIx (leavePair s) p).quenchCount = (partOfIx s p).quenchCount := by
    obtain ⟨hstate, -, -, hcount⟩ := quenchMarks_eq_iff.1 ((partOfIx_still (leavePair s) p).symm.trans ((congrArg (partOfIx · p) (still_leavePair s)).trans (partOfIx_still s p)))
    exact ⟨hstate, hcount⟩
  refine ⟨(zeroDeviceSecrets_keys _).1, fun j hj => ?_, fun n => ?_, fun p hp => ⟨zeroDeviceSecrets_importKey _ p, ?_⟩, fun x hx hsecret => ?_⟩
  · have hfree := hquenches.ended j hj
    rw [mem_usedParts, not_not, (hmarks j.part).1] at hfree
    exact hfree
  · obtain ⟨hsend, hrecv, -⟩ := zeroDeviceSecrets_linkKeys ((usedParts (leavePair s)).foldl (fun s p => quenchPartition p 0 false s) (leavePair s)) n
    exact ⟨hsend, hrecv⟩
  · obtain ⟨-, -, hcount, -⟩ := hquenches.marked p (mem_usedParts.2 ((hmarks p).1 ▸ hp))
    rw [hcount, (hmarks p).2]
  · exact ((zeroDeviceSecrets_bigNumbers _).2.2 x hx hsecret).2

/-! #### Scan, memory and repair (R473, R474) -/

/-- Failures of the test in the place of those so far. -/
def withResults (l : List (Nat × Nat × Nat)) (s : State) : State := { s with bist := { s.bist with results := l } }

theorem listFailure_results (e : BistEntry) (s : State) :
    ∃ l, listFailure e.die e.structure_ e.row s = withResults l s ∧ entryOf e ∈ l ∧ ∀ x ∈ s.bist.results, x ∈ l := by
  unfold listFailure
  dsimp only
  split
  · next h => exact ⟨s.bist.results, rfl, by simpa [entryOf] using h, fun _ hx => hx⟩
  · exact ⟨_, rfl, by simp [entryOf], fun x hx => List.mem_append_left _ hx⟩

/-- Failures listed: each is among the results, and nothing else changes. -/
theorem listFailures_spec (fs : List BistEntry) (s : State) :
    ∃ l, listFailures fs s = withResults l s ∧ (∀ e ∈ fs, entryOf e ∈ l) ∧ ∀ x ∈ s.bist.results, x ∈ l := by
  induction fs generalizing s with
  | nil => exact ⟨s.bist.results, rfl, by simp, fun _ h => h⟩
  | cons e fs ih =>
    obtain ⟨k, hk, hin, hold⟩ := listFailure_results e s
    obtain ⟨l, hl, hall, hkept⟩ := ih (withResults k s)
    refine ⟨l, ?_, fun x hx => ?_, fun x hx => hkept x (hold x hx)⟩
    · exact (congrArg (listFailures fs) hk).trans hl
    · rcases List.mem_cons.1 hx with rfl | hx
      · exact hkept _ hin
      · exact hall x hx

theorem scanComplete_spec {s : State} (h : s.bist.phase = 3) (fs : List BistEntry) :
    ∃ t, exec (.scanComplete fs) s = .next t ∧ t.bist.phase = 4 ∧ t.bist.logicFail = !fs.isEmpty ∧ ∀ e ∈ fs, entryOf e ∈ t.bist.results := by
  obtain ⟨l, hl, hall, -⟩ := listFailures_spec fs s
  refine ⟨updBist (fun b => { b with phase := 4, logicFail := !fs.isEmpty }) (withResults l s), ?_, rfl, rfl, hall⟩
  change execScanComplete fs s = _
  rw [execScanComplete, if_neg (by simp [h]), hl]

/-- The state after the memory test: memories, tables and key sets cleared (R473). -/
def memoryTested (l : List (Nat × Nat × Nat)) (s : State) : State :=
  updBist (fun b => { b with phase := 5 }) { withResults l s with dies := s.dies.map wipeDie, parts := s.parts.map fun p => { p with keysets := [] } }

theorem memoryComplete_spec {s : State} (h : s.bist.phase = 4) (hon : s.alarm.device = false) (fs : List BistEntry) :
    ∃ t, exec (.memoryComplete fs) s = .next t ∧ t.bist.phase = 5 ∧ (∀ e ∈ fs, entryOf e ∈ t.bist.results) ∧
      (∀ p, (partOfIx t p).keysets = []) ∧
      (∀ d, (dieOf t d).scratch = [] ∧ (dieOf t d).store = [] ∧ (dieOf t d).handles = [] ∧ (dieOf t d).storeHandles = []) ∧
      (s.boot.phase = .memoryTest → t.boot.phase = .repairTest ∧ t.sec = s.sec) ∧
      (s.boot.phase ≠ .memoryTest → t.sec.repairKey = some (repairKeyOf s) ∧ t.boot = s.boot) := by
  obtain ⟨l, hl, hall, -⟩ := listFailures_spec fs s
  have hsets (p : PartIx) : (partOfIx (memoryTested l s) p).keysets = [] := by simp [partOfIx, memoryTested, updBist]
  have hdie (d : DieIx) : dieOf (memoryTested l s) d = wipeDie (dieOf s d) := by simp [dieOf, memoryTested, updBist]
  have hdies (d : DieIx) : (dieOf (memoryTested l s) d).scratch = [] ∧ (dieOf (memoryTested l s) d).store = [] ∧
      (dieOf (memoryTested l s) d).handles = [] ∧ (dieOf (memoryTested l s) d).storeHandles = [] := by
    rw [hdie]
    exact ⟨rfl, rfl, rfl, rfl⟩
  have hexec : exec (.memoryComplete fs) s = .next (if s.boot.phase = .memoryTest then
      { memoryTested l s with boot := { s.boot with phase := .repairTest } } else
      { memoryTested l s with sec := { s.sec with repairKey := some (repairKeyOf s) } }) := by
    change execMemoryComplete fs s = _
    rw [execMemoryComplete, if_neg (by simp [h, hon]), hl]
    rfl
  by_cases hboot : s.boot.phase = .memoryTest
  · rw [if_pos hboot] at hexec
    exact ⟨_, hexec, rfl, hall, hsets, hdies, fun _ => ⟨rfl, rfl⟩, fun hne => absurd hboot hne⟩
  · rw [if_neg hboot] at hexec
    exact ⟨_, hexec, rfl, hall, hsets, hdies, fun heq => absurd heq hboot, fun _ => ⟨rfl, rfl⟩⟩

section

variable (rs : List (Nat × Nat × Nat)) (s : State)

/-- The rows of a structure of a die that stay held out. -/
def rowsKept (d st : Nat) : List Nat := ((keptOut s rs).filter fun e => e.1 == d && e.2.1 == st).map (·.2.2)

theorem mem_rowsKept {d st row : Nat} : row ∈ rowsKept rs s d st ↔ (d, st, row) ∈ keptOut s rs := by
  simp only [rowsKept, List.mem_map, List.mem_filter, Bool.and_eq_true, beq_iff_eq]
  constructor
  · rintro ⟨⟨a, b, c⟩, ⟨hmem, rfl, rfl⟩, rfl⟩
    exact hmem
  · exact fun h => ⟨_, ⟨h, rfl, rfl⟩, rfl⟩

/-- A die on which the rows held out are those that repair has not mended. -/
def mended (d : DieIx) (x : Die) : Die := { x with heldOut := rowsKept rs s d.val 1, heldOutStore := rowsKept rs s d.val 4 }

theorem applyRepairs_eq : applyRepairs rs s = updBist (fun b => { b with results := keptOut s rs, repairs := locUnion b.repairs rs })
    (allDies.foldl (fun u d => updDie d (mended rs s d) u) s) := by
  rw [applyRepairs]
  rfl

theorem mendedDies_frame : Frame [.dies] s (allDies.foldl (fun u d => updDie d (mended rs s d) u) s) := by
  refine .foldl (fun u d => ?_) _ s
  exact updDie_frame_dies d _ u rfl

theorem applyRepairs_spec :
    (applyRepairs rs s).bist = { s.bist with results := keptOut s rs, repairs := locUnion s.bist.repairs rs } ∧
    (∀ d row, row ∈ (dieOf (applyRepairs rs s) d).heldOut ↔ (d.val, 1, row) ∈ keptOut s rs) ∧
    (∀ d row, row ∈ (dieOf (applyRepairs rs s) d).heldOutStore ↔ (d.val, 4, row) ∈ keptOut s rs) ∧
    Frame [.dies, .bist] s (applyRepairs rs s) := by
  have hframe := mendedDies_frame rs s
  have hdie (d : DieIx) : dieOf (applyRepairs rs s) d = mended rs s d (dieOf s d) := by
    rw [applyRepairs_eq]
    exact (dieOf_foldl_updDie (l := allDies) (mended rs s) (List.nodup_finRange 16) s d).trans (if_pos (List.mem_finRange d))
  refine ⟨?_, fun d row => ?_, fun d row => ?_, ?_⟩
  · have hbist := hframe .bist (by decide)
    rw [applyRepairs_eq, updBist]
    exact congrArg (fun b : Bist => { b with results := keptOut s rs, repairs := locUnion b.repairs rs }) hbist
  · rw [hdie]
    exact mem_rowsKept ..
  · rw [hdie]
    exact mem_rowsKept ..
  · rw [applyRepairs_eq]
    exact (hframe.then (vs := [.bist]) fields_frame).mono (by decide)

/-- What burning repairs adds to those burned (R473). -/
theorem mem_burnRepairs {l : List (Nat × Nat × Nat)} {f : Fuses} {e : Nat × Nat × Nat} (h : e ∈ (l.foldl burnRepair f).fusedRepairs) :
    e ∈ f.fusedRepairs ∨ e ∈ l := by
  induction l generalizing f with
  | nil => exact .inl h
  | cons x l ih =>
    refine (ih h).elim (fun h => ?_) fun h => .inr (List.mem_cons_of_mem _ h)
    unfold burnRepair at h
    split at h
    · exact .inl h
    · rcases List.mem_append.1 h with h | h
      · exact .inl h
      · exact .inr (by simp_all)

theorem sealRecord_fields (key : List Byte) (repairs held : List (Nat × Nat × Nat)) :
    fieldAt (sealRecord key repairs held s) 0 2 = 0xC7F5 ∧ fieldAt (sealRecord key repairs held s) 0x14 4 = (s.bist.recordSeq + 1) % 2 ^ 32 := by
  unfold sealRecord recordHead
  dsimp only
  constructor
  · simp only [List.append_assoc]
    rw [fieldAt_first]
    rfl
  · simp only [List.append_assoc]
    rw [fieldAt_skip _ _ (by simp [leBytes_length]), leBytes_length, fieldAt_skip _ _ (by simp [leBytes_length]), leBytes_length,
      fieldAt_skip _ _ (by simp [leBytes_length]), leBytes_length, fieldAt_skip _ _ (by simp [bytesAt_length]), bytesAt_length]
    exact fieldAt_first 4 _ _

end

/-- After the repairs of a shut-down: those made twice are burned, and the record is sealed (R473, R474). -/
def repaired (rs : List (Nat × Nat × Nat)) (s : State) : State :=
  let u := updBist (fun b => { b with exhausted := isExhausted b.results }) (applyRepairs rs s)
  let v := { u with fuses := (u.bist.repairs.filter fun e => u.bist.prevRepairs.contains e).foldl burnRepair u.fuses }
  updBist (fun b => { b with phase := 6, recordOut := sealRecord (v.sec.repairKey.getD []) v.bist.repairs v.bist.results v })
    { v with sec := { v.sec with repairKey := none } }

theorem repairComplete_spec {s : State} (h : s.bist.phase = 5) (hon : s.alarm.device = false) (rs : List BistEntry) :
    let fixed := (rs.map entryOf).filter fun e => s.bist.results.contains e
    let kept := s.bist.results.filter fun e => !fixed.contains e
    ∃ t, exec (.repairComplete rs) s = .next t ∧ t.bist.results = kept ∧ (∀ e ∈ fixed, e ∈ t.bist.repairs) ∧
      (∀ d row, row ∈ (dieOf t d).heldOut ↔ (d.val, 1, row) ∈ kept) ∧ (∀ d row, row ∈ (dieOf t d).heldOutStore ↔ (d.val, 4, row) ∈ kept) ∧
      (s.boot.phase = .repairTest → t.bist.phase = 0 ∧ t.boot.phase = .retention ∧ t.fuses = s.fuses) ∧
      (s.boot.phase ≠ .repairTest → t.bist.phase = 6 ∧ t.sec.repairKey = none ∧ t.bist.exhausted = isExhausted kept ∧ t.boot = s.boot ∧
        (∀ e ∈ t.fuses.fusedRepairs, e ∈ s.fuses.fusedRepairs ∨ (e ∈ t.bist.repairs ∧ e ∈ s.bist.prevRepairs)) ∧
        fieldAt t.bist.recordOut 0 2 = 0xC7F5 ∧ fieldAt t.bist.recordOut 0x14 4 = (s.bist.recordSeq + 1) % 2 ^ 32) := by
  intro fixed kept
  obtain ⟨hbist, hrows, hstore, hframe⟩ := applyRepairs_spec fixed s
  have hboot : (applyRepairs fixed s).boot = s.boot := hframe .boot (by decide)
  have hfuses : (applyRepairs fixed s).fuses = s.fuses := hframe .fuses (by decide)
  have hresults : (applyRepairs fixed s).bist.results = kept := congrArg Bist.results hbist
  have hrepairs : ∀ e ∈ fixed, e ∈ (applyRepairs fixed s).bist.repairs := fun e he => by
    rw [hbist]
    by_cases hold : e ∈ s.bist.repairs
    · exact List.mem_append_left _ hold
    · exact List.mem_append_right _ (List.mem_filter.2 ⟨he, by simpa using hold⟩)
  have hexec : exec (.repairComplete rs) s = .next (if s.boot.phase = .repairTest then
      updBist (fun b => { b with phase := 0 }) { applyRepairs fixed s with boot := { (applyRepairs fixed s).boot with phase := .retention } }
      else repaired fixed s) := by
    change execRepairComplete rs s = _
    rw [execRepairComplete, if_neg (by simp [h, hon])]
    dsimp only
    rw [show (applyRepairs ((rs.map entryOf).filter fun e => s.bist.results.contains e) s).boot = s.boot from hboot]
    rfl
  by_cases htest : s.boot.phase = .repairTest
  · rw [if_pos htest] at hexec
    exact ⟨_, hexec, hresults, hrepairs, hrows, hstore, fun _ => ⟨rfl, rfl, hfuses⟩, fun hne => absurd htest hne⟩
  · rw [if_neg htest] at hexec
    have hseq : (applyRepairs fixed s).bist.recordSeq = s.bist.recordSeq := by rw [hbist]
    have hprev : (applyRepairs fixed s).bist.prevRepairs = s.bist.prevRepairs := by rw [hbist]
    refine ⟨_, hexec, hresults, hrepairs, hrows, hstore, fun heq => absurd heq htest, fun _ => ⟨rfl, rfl, ?_, hboot, fun e he => ?_, ?_⟩⟩
    · exact congrArg isExhausted hresults
    · refine (mem_burnRepairs he).imp (fun h => hfuses ▸ h) fun h => ?_
      obtain ⟨hin, htwice⟩ := List.mem_filter.1 h
      have hmem : e ∈ (applyRepairs fixed s).bist.prevRepairs := by simpa [updBist] using htwice
      exact ⟨hin, hprev ▸ hmem⟩
    · refine ⟨(sealRecord_fields _ _ _ _).1, (sealRecord_fields _ _ _ _).2.trans ?_⟩
      exact congrArg (fun n => (n + 1) % 2 ^ 32) hseq

/-- Settles O57: each phase is one branch of its command, entered and left in order. -/
theorem shutDown : Obligations.ShutDown := by
  intro s b
  refine ⟨fun r hwrites => ⟨fun hidle hready => ?_, fun hbusy => ?_⟩, fun hdrain => ⟨fun hnone => ?_, fun hjobs => ?_, ?_⟩, fun hother => ⟨?_, ?_⟩, fun hclear => ?_,
    fun hother => ?_, fun hscan fs => scanComplete_spec hscan fs, fun hmemory hon fs => memoryComplete_spec hmemory hon fs,
    fun hrepair hon rs => repairComplete_spec hrepair hon rs⟩
  · rw [exec_shutdown hwrites, startShutdown, if_pos (by rw [Bool.and_eq_true, decide_eq_true_eq, decide_eq_true_eq]; exact ⟨hidle, hready⟩)]
    rfl
  · rw [exec_shutdown hwrites, startShutdown, if_neg (by rw [Bool.and_eq_true, decide_eq_true_eq, decide_eq_true_eq]; tauto)]
    rfl
  · obtain ⟨hphase, hiv, -, hframe⟩ := beginClear_spec s
    exact ⟨_, congrArg ok (if_pos (by simp [show s.bist.phase = 1 from hdrain, hnone])), hphase, hiv, hframe⟩
  · exact congrArg ok (if_neg (by simp [hjobs]))
  · obtain ⟨hphase, -, hjobs, -⟩ := beginClear_spec ((admittedJobs s).foldl (fun s i => quenchJob i 0 true s) s)
    exact ⟨_, drainGraceExpiry_eq hdrain, hphase, fun j hj => quenchAdmitted_none (hjobs ▸ hj)⟩
  · exact congrArg ok (if_neg (by simp [show s.bist.phase ≠ 1 from hother]))
  · exact congrArg ok (if_neg hother)
  · obtain ⟨hident, hjobs, hlink, hparts, hslots⟩ := cleared_spec s
    have hexec := clearComplete_eq hclear
    generalize cleared s = u at hexec hident hjobs hlink hparts hslots
    exact ⟨_, hexec, rfl, rfl, hident, hjobs, hlink, hparts, hslots⟩
  · exact congrArg ok (if_pos hother)

end Sys2Proof.Machine

namespace Sys2Proof.Machine

/-! ### Operations in flight and their transfers, read and written by identifier (R237, R258) -/

/-- The steps that change operations in flight and nothing else of the dies. -/
structure OpsOnly (s t : State) : Prop where
  dies : ∀ e, { dieOf t e with ops := [] } = { dieOf s e with ops := [] }
  frame : Frame [.dies] s t

namespace OpsOnly

theorem refl (s : State) : OpsOnly s s := ⟨fun _ => rfl, .refl _ _⟩

theorem trans {s t u : State} (h : OpsOnly s t) (k : OpsOnly t u) : OpsOnly s u :=
  ⟨fun e => (k.dies e).trans (h.dies e), h.frame.trans k.frame⟩

theorem field {s t : State} (h : OpsOnly s t) {β : Type} (g : Die → β) (hg : ∀ x : Die, g { x with ops := [] } = g x) (d : DieIx) :
    g (dieOf t d) = g (dieOf s d) := by
  have hdie := congrArg g (h.dies d)
  rwa [hg, hg] at hdie

theorem jobs {s t : State} (h : OpsOnly s t) : t.jobs = s.jobs := h.frame .jobs (by decide)

theorem fabric {s t : State} (h : OpsOnly s t) : t.fabric = s.fabric := h.frame .fabric (by decide)

theorem jobOf {s t : State} (h : OpsOnly s t) (id : Nat) : jobOf t id = jobOf s id := by
  unfold Machine.jobOf
  rw [h.jobs]

end OpsOnly

theorem updOp_opsOnly (d : DieIx) (id : Nat) (f : Op → Op) (s : State) : OpsOnly s (updOp d id f s) := by
  refine ⟨fun e => ?_, updDie_frame_dies d _ s rfl⟩
  unfold updOp
  rw [dieOf_updDie]
  split
  · next h => rw [h]
  · rfl

theorem updXfer_opsOnly (d : DieIx) (id : Nat) (f : Xfer → Xfer) (s : State) : OpsOnly s (updXfer d id f s) := updOp_opsOnly ..

theorem setGroup_eq_updXfer (d : DieIx) (id g : Nat) (s : State) : setGroup d id g s = updXfer d id (fun x => { x with group := some g }) s := rfl

/-- Another die keeps its operations. -/
theorem otherDies_updOp (d : DieIx) (id : Nat) (f : Op → Op) (s : State) : OtherDies d s (updOp d id f s) := fun e he => by
  unfold updOp
  rw [dieOf_updDie_ne _ _ he]

/-- An operation that changes keeps its identifier: it is found as it is now. -/
theorem opOf_updOp_self {d : DieIx} {id : Nat} {f : Op → Op} (s : State) (hf : ∀ o, (f o).id = o.id) :
    opOf (updOp d id f s) d id = (opOf s d id).map f := by
  unfold opOf updOp
  rw [dieOf_updDie_self]
  simp only [List.find?_map]
  have hsame : ((fun o : Op => o.id == id) ∘ fun o => if o.id = id then f o else o) = fun o => o.id == id := by
    funext o
    simp only [Function.comp]
    split <;> simp [*]
  rw [hsame]
  cases h : (dieOf s d).ops.find? fun o => o.id == id with
  | none => rfl
  | some o =>
    have hid : o.id = id := by simpa using List.find?_some h
    simp [hid]

theorem opOf_updXfer_self {s : State} {d : DieIx} {id : Nat} {o : Op} {x : Xfer} (hop : opOf s d id = some o) (hx : o.xfer = some x) (f : Xfer → Xfer) :
    opOf (updXfer d id f s) d id = some { o with xfer := some (f x) } := by
  unfold updXfer
  rw [opOf_updOp_self s (by exact fun _ => rfl), hop, Option.map_some, hx]
  rfl

/-- Where the dies stay, operations stay. -/
theorem Frame.opOf {ws : List Area} {s t : State} (h : Frame ws s t) (hws : Area.dies ∉ ws) (d : DieIx) (id : Nat) : opOf t d id = opOf s d id :=
  by
  have hops : (dieOf t d).ops = (dieOf s d).ops := h.dieField hws Die.ops (fun _ => rfl) d
  rw [Machine.opOf, hops, Machine.opOf]

theorem Frame.jobOf {ws : List Area} {s t : State} (h : Frame ws s t) (hws : Area.jobs ∉ ws) (id : Nat) : jobOf t id = jobOf s id := by
  have hjobs : t.jobs = s.jobs := h .jobs hws
  rw [Machine.jobOf, hjobs, Machine.jobOf]

theorem OpsOnly.marks {s t : State} (h : OpsOnly s t) : Marks [.dies] s t where
  jobs := h.jobs
  log := h.frame .log (by decide)
  hearth := h.frame .hearth (by decide)
  owners := h.field Die.owner fun _ => rfl
  handles d k hv := by rw [handleOf, h.field Die.handles (fun _ => rfl) d]; exact hv
  stores d k hv := by rw [storeOf, h.field Die.storeHandles (fun _ => rfl) d]; exact hv
  flags := h.field Die.flags fun _ => rfl
  programs := h.frame.partField (by decide) (·.programs) fun _ => rfl
  frame := h.frame

/-- Work off the dies, the jobs, the partitions, Hearth and the log. -/
theorem Marks.of_frame {ws : List Area} {s t : State} (h : Frame ws s t)
    (hws : ∀ a ∈ [Area.dies, .jobs, .log, .parts, .hearth], a ∉ ws := by decide) : Marks ws s t where
  jobs := h .jobs (hws _ (by decide))
  log := h .log (hws _ (by decide))
  hearth := h .hearth (hws _ (by decide))
  owners := h.dieField (hws _ (by decide)) Die.owner fun _ => rfl
  handles d k hv := by rw [h.handleOf (hws _ (by decide))]; exact hv
  stores d k hv := by
    rw [storeOf, h.dieField (hws _ (by decide)) Die.storeHandles (fun _ => rfl) d]
    exact hv
  flags := h.dieField (hws _ (by decide)) Die.flags fun _ => rfl
  programs := h.partField (hws _ (by decide)) (·.programs) fun _ => rfl
  frame := h

/-- An operation fails (R459) after work that leaves the jobs and the log. -/
theorem failOp_marked {ws : List Area} {s m : State} {o : Op} {j : Job} (hj : jobOf s o.job = some j) (hm : Marks ws s m)
    (hws : ∀ a ∈ ws, a ∈ jobQuenchAreas := by decide) (d : DieIx) (unit : Nat) (e : Ev) : OpFailed d o j unit e s (failOp d o unit e m) := by
  have hjm : jobOf m o.job = some j := by rw [jobOf, hm.jobs]; exact hj
  obtain ⟨hlogged, hquenched, hframe, -⟩ := marked_quenched (id_of_jobOf hj ▸ hj) hm e { die := d, queue := o.queue, off := o.off } unit 0
  unfold failOp
  rw [hjm]
  exact ⟨hlogged, hquenched, hframe.mono fun a ha => (List.mem_append.mp ha).elim (hws a) id⟩

theorem failOp_failed {s : State} {o : Op} {j : Job} (hj : jobOf s o.job = some j) (d : DieIx) (unit : Nat) (e : Ev) :
    OpFailed d o j unit e s (failOp d o unit e s) :=
  failOp_marked (ws := []) hj (.of_frame (.refl _ _)) (by decide) d unit e

/-- Which gateway an operation's partition has, by its jobs, its partitions and the part's own identifier. -/
theorem Frame.gatewayOfOp {ws : List Area} {s t : State} (h : Frame ws s t) (hid : t.fabric.partId = s.fabric.partId) (hjobs : Area.jobs ∉ ws)
    (hparts : Area.parts ∉ ws) (o : Op) : gatewayOfOp t o = gatewayOfOp s o := by
  unfold Machine.gatewayOfOp gatewayOf
  rw [h.jobOf hjobs]
  congr 1
  funext j
  simp only [h.partField hparts (·.memberSlot) (fun _ => rfl), h.partField hparts (·.ownerPart) (fun _ => rfl),
    h.partField hparts (·.ownerPort) (fun _ => rfl), h.partField hparts (·.ownerFn) (fun _ => rfl), hid]

end Sys2Proof.Machine

namespace Sys2Proof.Machine

/-! ### O40: page faults of HOST ends, and answers of other parts (R271 to R277, R349, R357, R361, R369, R370, R395, R399) -/

/-- Where the dies stay with their counters, they stay whole. -/
theorem Frame.dieOf {ws : List Area} {s t : State} (h : Frame ws s t) (hdies : Area.dies ∉ ws) (hcounters : Area.counters ∉ ws) (d : DieIx) :
    dieOf t d = dieOf s d := by
  have hcount : (Machine.dieOf t d).counters = (Machine.dieOf s d).counters := h .counters hcounters d
  calc Machine.dieOf t d = { Machine.dieOf t d with counters := (Machine.dieOf s d).counters } := by rw [← hcount]
    _ = { Machine.dieOf s d with counters := (Machine.dieOf s d).counters } :=
      congrArg (fun x : Die => { x with counters := (Machine.dieOf s d).counters }) (h .dies hdies d)

theorem Frame.hostOf {ws : List Area} {s t : State} (h : Frame ws s t) (hhosts : Area.hosts ∉ ws) (hmsix : Area.msix ∉ ws) (k : HostId) :
    hostOf t k = hostOf s k := by
  have hpending : (Machine.hostOf t k).msixPending = (Machine.hostOf s k).msixPending := h .msix hmsix k
  calc Machine.hostOf t k = { Machine.hostOf t k with msixPending := (Machine.hostOf s k).msixPending } := by rw [← hpending]
    _ = { Machine.hostOf s k with msixPending := (Machine.hostOf s k).msixPending } :=
      congrArg (fun x : HostPort => { x with msixPending := (Machine.hostOf s k).msixPending }) (h .hosts hhosts k)

/-! #### The translations that a transfer asks for (R271) -/

/-- One page asked for, where the cache lacks it. -/
def requestPage (h : HostId) (fn : Nat) (s : State) (g : Nat) : State :=
  if (hostOf s h).cached.contains (fn, g) then s
  else emit (.translationRequest h fn g) (updHost h (fun p => { p with cached := p.cached.drop (p.cached.length - 4095) ++ [(fn, g)] }) s)

theorem requestPages_eq_foldl {s : State} {h : HostId} {fn : Nat} (hats : (hostOf s h).ats.contains fn = true) (pages : List Nat) :
    requestPages h fn pages s = pages.foldl (requestPage h fn) s := if_pos hats

/-- What a port holds beside its cache of translations stays. -/
theorem requestPages_hostField (h : HostId) (fn : Nat) (pages : List Nat) (s : State) {β : Type} (g : HostPort → β)
    (hg : ∀ (p : HostPort) c, g { p with cached := c } = g p) (k : HostId) : g (hostOf (requestPages h fn pages s) k) = g (hostOf s k) := by
  unfold requestPages
  split
  · refine List.foldlRecOn pages _ (motive := fun t => g (Machine.hostOf t k) = g (Machine.hostOf s k)) rfl fun t ht page _ => ?_
    split
    · exact ht
    · rw [(emit_frame _ _).hostOf (by decide) (by decide), ← ht]
      by_cases hk : k = h
      · subst hk
        rw [hostOf_updHost_self]
        exact hg _ _
      · rw [hostOf_updHost_ne _ _ hk]
  · rfl

/-- What has left stays, and the page asked for is there. -/
theorem requestPage_out (h : HostId) (fn : Nat) (s : State) (g : Nat) : (requestPage h fn s g).out =
    if (hostOf s h).cached.contains (fn, g) then s.out else s.out ++ [.translationRequest h fn g] := by
  unfold requestPage
  split
  · rfl
  · have hout : _ = s.out := updHost_frame h (fun p => { p with cached := p.cached.drop (p.cached.length - 4095) ++ [(fn, g)] }) s rfl .out (by decide)
    exact congrArg (· ++ [Output.translationRequest h fn g]) hout

theorem requestPages_asks {s : State} {h : HostId} {fn : Nat} (hats : (hostOf s h).ats.contains fn = true) {pages : List Nat} {page : Nat}
    (hpage : page ∈ pages) (hnew : (fn, page) ∉ (hostOf s h).cached) : Output.translationRequest h fn page ∈ (requestPages h fn pages s).out := by
  have keeps (s : State) (g : Nat) (x : Output) (hx : x ∈ s.out) : x ∈ (requestPage h fn s g).out := by
    rw [requestPage_out]
    split
    · exact hx
    · exact List.mem_append_left _ hx
  rw [requestPages_eq_foldl hats]
  refine foldl_reaches (P := fun s => (fn, page) ∈ (hostOf s h).cached → Output.translationRequest h fn page ∈ s.out)
    (Q := fun s => Output.translationRequest h fn page ∈ s.out) hpage
    (fun s y hs => ?_) (fun s hs => ?_) (fun s y hs => keeps s y _ hs) fun hin => absurd hin hnew
  · intro hin
    unfold requestPage at hin
    split at hin
    · exact keeps s y _ (hs hin)
    · next hmiss =>
      rw [(emit_frame _ _).hostField (by decide) (·.cached) fun _ => rfl, hostOf_updHost_self] at hin
      rcases List.mem_append.mp hin with hold | hnow
      · exact keeps s y _ (hs (List.mem_of_mem_drop hold))
      · obtain ⟨-, rfl⟩ := Prod.mk.inj (List.mem_singleton.mp hnow)
        rw [requestPage_out, if_neg hmiss]
        exact List.mem_append_right _ (List.mem_singleton_self _)
  · rw [requestPage_out]
    split
    · next hin => exact hs (List.contains_iff_mem.mp hin)
    · exact List.mem_append_right _ (List.mem_singleton_self _)

/-! #### Page faults (R273, R274, R399) -/

/-- A transfer whose tong stops at a page fault: its cursor saved, the pages that it waits for named. -/
def Xfer.stalledAt (x : Xfer) (cursor : Nat) (pages : List Nat) : Xfer :=
  { x with cursor := cursor, stalled := true, group := none, pages := pages }

/-- The operation whose transfer is that. -/
def stallXfer (d : DieIx) (op cursor : Nat) (pages : List Nat) (s : State) : State :=
  updXfer d op (fun x => { x with stalled := true, group := none, pages := pages }) (updXfer d op (fun x => { x with cursor := cursor }) s)

theorem stallXfer_opsOnly (d : DieIx) (op cursor : Nat) (pages : List Nat) (s : State) : OpsOnly s (stallXfer d op cursor pages s) :=
  (updXfer_opsOnly ..).trans (updXfer_opsOnly ..)

theorem stallXfer_otherDies (d : DieIx) (op cursor : Nat) (pages : List Nat) (s : State) : OtherDies d s (stallXfer d op cursor pages s) :=
  fun e he => (otherDies_updOp d op _ _ e he).trans (otherDies_updOp d op _ s e he)

theorem opOf_stallXfer {s : State} {d : DieIx} {op : Nat} {o : Op} {x : Xfer} (hop : opOf s d op = some o) (hx : o.xfer = some x) (cursor : Nat)
    (pages : List Nat) : opOf (stallXfer d op cursor pages s) d op = some { o with xfer := some (x.stalledAt cursor pages) } :=
  opOf_updXfer_self (opOf_updXfer_self hop hx _) rfl _

/-- The translations that a page fault drops. -/
def dropPages (h : HostId) (fn : Nat) (pages : List Nat) (s : State) : State :=
  updHost h (fun p => { p with cached := p.cached.filter fun c => !(c.1 == fn && pages.contains c.2) }) s

theorem dropPages_frame (h : HostId) (fn : Nat) (pages : List Nat) (s : State) : Frame [.hosts] s (dropPages h fn pages s) := updHost_frame h _ s rfl

theorem calm_failOp (d : DieIx) (o : Op) (unit : Nat) (e : Ev) (s : State) : calm (failOp d o unit e s) = calm s := by
  unfold failOp
  split
  · rfl
  · exact (calm_quenchJob ..).trans (calm_logJob ..)

theorem priFailed_of_calm {s t : State} (hcalm : calm t = calm s) (h : HostId) : (hostOf t h).priFailed = (hostOf s h).priFailed := by
  have ha : (calm t).hostA.priFailed = (calm s).hostA.priFailed := congrArg (fun u => u.hostA.priFailed) hcalm
  have hb : (calm t).hostB.priFailed = (calm s).hostB.priFailed := congrArg (fun u => u.hostB.priFailed) hcalm
  cases h with
  | a => exact ha
  | b => exact hb

theorem dropGroup_frame (h : HostId) (g : Nat) (s : State) : Frame [.hosts, .fabric] s (dropGroup h g s) :=
  ((fields_frame (ws := [.fabric])).then (updHost_frame h _ _ rfl)).mono (by decide)

section PageFault

variable {s : State} {d : DieIx} {op : Nat} {o : Op} {x : Xfer} {j : Job} {h : HostId} {fn : Nat}
  (hop : opOf s d op = some o) (hx : o.xfer = some x) (hj : jobOf s o.job = some j) (hhost : x.host = some (h, fn))
include hop hx hj hhost

omit hop hx hhost in
theorem gatewayOfOp_of_job : gatewayOfOp s o = gatewayOf s j.part := by
  rw [gatewayOfOp, hj]
  rfl

/-- A transfer of a bench member stops: its pages go to the gateway (R399). -/
theorem pageNotPresent_far {gw : Nat} {reg : MemberReg} {cursor : Nat} (hgw : gatewayOf s j.part = some (gw, reg)) (hbegun : x.begun = true)
    (hgoing : x.stalled = false) (hcur : x.cursor ≤ cursor) (hspace : x.dst.space ≠ 4) (pages : List Nat) :
    exec (.pageNotPresent d op cursor pages) s = .next (sendGroup h d { o with xfer := some (x.stalledAt cursor pages) } (stallXfer d op cursor pages s)) := by
  have hfar := (gatewayOfOp_of_job hj).trans hgw
  have hnot : ¬cursor < x.cursor := Nat.not_lt.mpr hcur
  have hfound := opOf_stallXfer hop hx cursor pages
  unfold stallXfer at hfound ⊢
  change execPageNotPresent d op cursor pages s = _
  simp [execPageNotPresent, hop, hx, hj, hhost, hfar, hbegun, hgoing, hnot, hspace, hfound, ok]

/-- A transfer of this part's own partition stops: what the fault names leaves the cache (R273). -/
theorem pageNotPresent_near {cursor : Nat} (hgw : gatewayOf s j.part = none) (hbegun : x.begun = true) (hgoing : x.stalled = false)
    (hats : (hostOf s h).ats.contains fn = true) (hcur : x.cursor ≤ cursor) (hspace : x.dst.space ≠ 4) (pages : List Nat)
    (hpri : (hostOf s h).priFailed.contains fn = false) :
    exec (.pageNotPresent d op cursor pages) s = .next (
      if (hostOf s h).pri.contains fn then
        sendGroup h d { o with xfer := some (x.stalledAt cursor pages) } (stallXfer d op cursor pages (dropPages h fn pages s))
      else failOp d o 6 0x0602 (updXfer d op (fun x => { x with cursor := cursor }) (dropPages h fn pages s))) := by
  have hnear := (gatewayOfOp_of_job hj).trans hgw
  have hnot : ¬cursor < x.cursor := Nat.not_lt.mpr hcur
  have hkept : opOf (dropPages h fn pages s) d op = some o := ((dropPages_frame h fn pages s).opOf (by decide) d op).trans hop
  have hfound := opOf_stallXfer hkept hx cursor pages
  have hfailed : (hostOf (updXfer d op (fun x => { x with cursor := cursor }) (dropPages h fn pages s)) h).priFailed = (hostOf s h).priFailed := by
    rw [(updXfer_opsOnly ..).frame.hostField (by decide) (·.priFailed) fun _ => rfl, dropPages, hostOf_updHost_self]
  have hpris : (hostOf (updXfer d op (fun x => { x with cursor := cursor }) (dropPages h fn pages s)) h).pri = (hostOf s h).pri := by
    rw [(updXfer_opsOnly ..).frame.hostField (by decide) (·.pri) fun _ => rfl, dropPages, hostOf_updHost_self]
  change execPageNotPresent d op cursor pages s = _
  unfold execPageNotPresent
  rw [hop]
  dsimp only
  rw [hx, hj]
  dsimp only
  rw [hhost]
  dsimp only
  rw [hnear, hbegun, hgoing, hats, if_neg (by simpa using hnot), if_neg hspace]
  change ok (if (_ && (hostOf (updXfer d op (fun x => { x with cursor := cursor }) (dropPages h fn pages s)) h).priFailed.contains fn) = true then _
    else if (_ && !(hostOf (updXfer d op (fun x => { x with cursor := cursor }) (dropPages h fn pages s)) h).pri.contains fn) = true then _ else
      match opOf (stallXfer d op cursor pages (dropPages h fn pages s)) d op with | some o => _ | none => _) = _
  rw [hfailed, hpris, hpri, hfound]
  cases (hostOf s h).pri.contains fn <;> rfl

/-- A member's pages are asked of its gateway, one group for them (R399). -/
theorem pageFault_far {gw : Nat} {reg : MemberReg} {cursor : Nat} (hgw : gatewayOf s j.part = some (gw, reg)) (hbegun : x.begun = true)
    (hgoing : x.stalled = false) (hcur : x.cursor ≤ cursor) (hspace : x.dst.space ≠ 4) (pages : List Nat) : ∃ u,
      exec (.pageNotPresent d op cursor pages) s = .next (sendMsg .bench d gw 0 (fun v => .forwardedWrite v
        { reg := reg, die := d, queue := o.queue, addr := 0, bytes := [], kind := .pages pages, tag := BitVec.ofNat 32 s.nextId }) u) ∧
      u.fabric = { s.fabric with benchGroups := s.fabric.benchGroups ++ [(h, s.nextId, d, o.id)] } ∧
      opOf u d op = some { o with xfer := some { x with cursor := cursor, stalled := true, group := some s.nextId, pages := pages } } ∧
      OtherDies d s u ∧ Frame [.dies, .fabric, .nextId] s u := by
  have hstall := stallXfer_opsOnly d op cursor pages s
  have hway : gatewayOfOp (stallXfer d op cursor pages s) { o with xfer := some (x.stalledAt cursor pages) } = some (gw, reg) :=
    (hstall.frame.gatewayOfOp (congrArg _ hstall.fabric) (by decide) (by decide) _).trans ((gatewayOfOp_of_job hj).trans hgw)
  have hnext : (stallXfer d op cursor pages s).nextId = s.nextId := hstall.frame .nextId (by decide)
  let m : State := { stallXfer d op cursor pages s with
    nextId := s.nextId + 1, fabric := { s.fabric with benchGroups := s.fabric.benchGroups ++ [(h, s.nextId, d, o.id)] } }
  have hm : Frame [.dies, .fabric, .nextId] s m := (hstall.frame.then (fields_frame (ws := [.fabric, .nextId]))).mono (by decide)
  refine ⟨setGroup d op s.nextId m, ?_, rfl, ?_, ?_, (hm.then (updXfer_opsOnly d op _ m).frame).mono (by decide)⟩
  · rw [pageNotPresent_far hop hx hj hhost hgw hbegun hgoing hcur hspace]
    unfold sendGroup
    rw [hway]
    dsimp only
    rw [hnext, hstall.fabric, id_of_opOf hop]
    simp only [m, id_of_opOf hop]
    rfl
  · rw [setGroup_eq_updXfer]
    exact opOf_updXfer_self (s := m) (opOf_stallXfer hop hx cursor pages) rfl _
  · exact fun e he => (otherDies_updOp d op _ m e he).trans (stallXfer_otherDies d op cursor pages s e he)

/-- A page fault of the part's own partition asks the port for the pages, one group for them (R273, R274). -/
theorem pageFault_near {cursor : Nat} (hgw : gatewayOf s j.part = none) (hbegun : x.begun = true) (hgoing : x.stalled = false)
    (hats : (hostOf s h).ats.contains fn = true) (hcur : x.cursor ≤ cursor) (hspace : x.dst.space ≠ 4) (pages : List Nat)
    (hfailed : (hostOf s h).priFailed.contains fn = false) (hpri : (hostOf s h).pri.contains fn = true) (hroom : groupsOut s h < 32) : ∃ t,
      exec (.pageNotPresent d op cursor pages) s = .next t ∧ Frame [.dies, .hosts, .out, .nextId] s t ∧
      opOf t d op = some { o with xfer := some { x with cursor := cursor, stalled := true, group := some s.nextId, pages := pages } } ∧
      (hostOf t h).groups = (hostOf s h).groups ++ [(s.nextId, d, op)] ∧ t.out = s.out ++ [.pageRequest h fn s.nextId pages] ∧
      (∀ c ∈ (hostOf t h).cached, ¬(c.1 = fn ∧ c.2 ∈ pages)) ∧ { dieOf t d with ops := [] } = { dieOf s d with ops := [] } ∧ OtherDies d s t := by
  have hdrop := dropPages_frame h fn pages s
  have hstall := stallXfer_opsOnly d op cursor pages (dropPages h fn pages s)
  generalize hv : stallXfer d op cursor pages (dropPages h fn pages s) = v at hstall
  have hframe : Frame [.hosts, .dies] s v := hdrop.then hstall.frame
  have hfabric : v.fabric = s.fabric := hframe .fabric (by decide)
  have hway : gatewayOfOp v { o with xfer := some (x.stalledAt cursor pages) } = none :=
    (hframe.gatewayOfOp (congrArg _ hfabric) (by decide) (by decide) _).trans ((gatewayOfOp_of_job hj).trans hgw)
  have hnext : v.nextId = s.nextId := hframe .nextId (by decide)
  have hfield {β : Type} (g : HostPort → β) (hg : ∀ p : HostPort, g { p with msixPending := [] } = g p) :
      g (hostOf v h) = g { hostOf s h with cached := (hostOf s h).cached.filter fun c => !(c.1 == fn && pages.contains c.2) } := by
    rw [hstall.frame.hostField (by decide) g hg, dropPages, hostOf_updHost_self]
  have hgroups : groupsOut v h < 32 := by
    unfold groupsOut
    rw [hfield (·.groups) fun _ => rfl, hfield (·.benchGroups) fun _ => rfl]
    exact hroom
  let m : State := updHost h (fun p => { p with groups := p.groups ++ [(s.nextId, d, op)] }) { v with nextId := s.nextId + 1 }
  have hm : Frame [.nextId, .hosts] v m := (fields_frame (ws := [.nextId])).then (updHost_frame h _ _ rfl)
  have hset := updXfer_opsOnly d op (fun x => { x with group := some s.nextId }) m
  have hexec : exec (.pageNotPresent d op cursor pages) s = .next (emit (.pageRequest h fn s.nextId pages) (setGroup d op s.nextId m)) := by
    rw [pageNotPresent_near hop hx hj hhost hgw hbegun hgoing hats hcur hspace pages hfailed, if_pos hpri, hv]
    unfold sendGroup
    rw [hway]
    dsimp only
    rw [if_pos hgroups, hnext, id_of_opOf hop]
    dsimp only [Xfer.stalledAt]
    rw [hhost]
  have hfound : opOf m d op = some { o with xfer := some (x.stalledAt cursor pages) } := by
    rw [hm.opOf (by decide), ← hv]
    exact opOf_stallXfer ((hdrop.opOf (by decide) d op).trans hop) hx cursor pages
  have hout : (setGroup d op s.nextId m).out = s.out := ((hframe.then hm).then hset.frame) .out (by decide)
  have hhost {β : Type} (g : HostPort → β) (hg : ∀ p : HostPort, g { p with msixPending := [] } = g p) :
      g (hostOf (setGroup d op s.nextId m) h) = g { hostOf v h with groups := (hostOf v h).groups ++ [(s.nextId, d, op)] } := by
    rw [setGroup_eq_updXfer, hset.frame.hostField (by decide) g hg]
    exact congrArg g (hostOf_updHost_self h _ _)
  refine ⟨_, hexec, (((hframe.then hm).then hset.frame).then (emit_frame _ _)).mono (by decide), ?_, ?_, ?_, ?_, ?_, ?_⟩
  · rw [(emit_frame _ _).opOf (by decide), setGroup_eq_updXfer]
    exact opOf_updXfer_self hfound rfl _
  · rw [(emit_frame _ _).hostField (by decide) (·.groups) fun _ => rfl, hhost (·.groups) fun _ => rfl]
    dsimp only
    rw [hfield (·.groups) fun _ => rfl]
  · change (setGroup d op s.nextId m).out ++ _ = _
    rw [hout]
  · intro c hc
    rw [(emit_frame _ _).hostField (by decide) (·.cached) fun _ => rfl, hhost (·.cached) fun _ => rfl] at hc
    dsimp only at hc
    rw [hfield (·.cached) fun _ => rfl] at hc
    have hkept := (List.mem_filter.mp hc).2
    rintro ⟨hfn, hpage⟩
    simp [hfn, hpage] at hkept
  · rw [(emit_frame _ _).dieOf (by decide) (by decide), ← hdrop.dieOf (by decide) (by decide), ← hstall.dies d,
      ← hm.dieOf (by decide) (by decide)]
    exact hset.dies d
  · have hothers : OtherDies d s v := hv ▸ fun e he =>
      (stallXfer_otherDies d op cursor pages _ e he).trans (by rw [hdrop.dieOf (by decide) (by decide)])
    intro e he
    rw [(emit_frame _ _).dieOf (by decide) (by decide)]
    exact (otherDies_updOp d op _ m e he).trans (by rw [hm.dieOf (by decide) (by decide)]; exact hothers e he)

/-- A page fault where the function's page requests are off fails the transfer (R275). -/
theorem pageFault_off {cursor : Nat} (hgw : gatewayOf s j.part = none) (hbegun : x.begun = true) (hgoing : x.stalled = false)
    (hats : (hostOf s h).ats.contains fn = true) (hcur : x.cursor ≤ cursor) (hspace : x.dst.space ≠ 4) (pages : List Nat)
    (hfailed : (hostOf s h).priFailed.contains fn = false) (hpri : (hostOf s h).pri.contains fn = false) : ∃ t,
      exec (.pageNotPresent d op cursor pages) s = .next t ∧ OpFailed d o j 6 0x0602 s t := by
  refine ⟨_, pageNotPresent_near hop hx hj hhost hgw hbegun hgoing hats hcur hspace pages hfailed, ?_⟩
  rw [hpri]
  exact failOp_marked hj ((Marks.of_frame (dropPages_frame h fn pages s)).trans (updXfer_opsOnly ..).marks) (by decide) d 6 0x0602

/-! #### The answers to a page request (R274, R275) -/

omit hop hx hhost in
theorem gatewayOfOp_dropGroup (hgw : gatewayOf s j.part = none) (g : Nat) : gatewayOfOp (dropGroup h g s) o = none :=
  ((dropGroup_frame h g s).gatewayOfOp (by cases h <;> rfl) (by decide) (by decide) o).trans ((gatewayOfOp_of_job hj).trans hgw)

/-- A successful response lets the transfer go on, its translations asked for again (R274). -/
theorem pageAnswer_success {g : Nat} (hgw : gatewayOf s j.part = none) (hg : groupOf s h g = some (g, d, op)) : ∃ u,
      exec (.pageRequestResponse h g .success) s = .next (sendWaiting h u) ∧ Frame [.dies, .hosts, .fabric, .out] s u ∧
      opOf u d op = some { o with xfer := some { x with stalled := false, group := none, pages := [] } } ∧
      (∀ k ∈ (hostOf u h).groups, k.1 ≠ g) ∧
      ∀ p ∈ x.pages, (hostOf s h).ats.contains fn = true → (fn, p) ∉ (hostOf s h).cached → Output.translationRequest h fn p ∈ u.out := by
  have hdrop := dropGroup_frame h g s
  have hfound := (hdrop.opOf (by decide) d op).trans hop
  have hask := requestPages_frame h fn x.pages (dropGroup h g s)
  have hgo := updXfer_opsOnly d op (fun x => { x with stalled := false, group := none, pages := [] }) (requestPages h fn x.pages (dropGroup h g s))
  have hport : hostOf (dropGroup h g s) h = { hostOf s h with groups := (hostOf s h).groups.filter fun x => x.1 != g } :=
    hostOf_updHost_self h _ _
  refine ⟨_, ?_, ((hdrop.then hask).then hgo.frame).mono (by decide), ?_, fun k hk => ?_, fun p hp hats hnew => ?_⟩
  · change execPageRequestResponse h g .success s = _
    unfold execPageRequestResponse
    rw [hg]
    dsimp only
    rw [hfound]
    dsimp only
    rw [hx]
    dsimp only
    rw [gatewayOfOp_dropGroup hj hgw, hhost]
    rfl
  · exact opOf_updXfer_self ((hask.opOf (by decide) d op).trans hfound) hx _
  · rw [hgo.frame.hostField (by decide) (·.groups) fun _ => rfl, requestPages_hostField _ _ _ _ (·.groups) fun _ _ => rfl, hport] at hk
    simpa using (List.mem_filter.mp hk).2
  · have hout : _ = _ := hgo.frame .out (by decide)
    rw [hout]
    exact requestPages_asks (by rw [hport]; exact hats) hp (by rw [hport]; exact hnew)

omit hhost in
/-- An invalid request fails its transfer (R275). -/
theorem pageAnswer_invalid {g : Nat} (hg : groupOf s h g = some (g, d, op)) : ∃ u,
      exec (.pageRequestResponse h g .invalidRequest) s = .next (sendWaiting h u) ∧ OpFailed d o j 6 0x0601 s u := by
  refine ⟨_, ?_, failOp_marked hj (.of_frame (dropGroup_frame h g s)) (by decide) d 6 0x0601⟩
  change execPageRequestResponse h g .invalidRequest s = _
  unfold execPageRequestResponse
  rw [hg]
  dsimp only
  rw [((dropGroup_frame h g s).opOf (by decide) d op).trans hop]
  dsimp only
  rw [hx]

/-- A response failure fails the transfer and every other that waits for that function (R275). -/
theorem pageAnswer_failure {g : Nat} (hgw : gatewayOf s j.part = none) (hg : groupOf s h g = some (g, d, op)) : ∃ u,
      exec (.pageRequestResponse h g .responseFailure) s = .next (sendWaiting h (failWaiting h fn u)) ∧ OpFailed d o j 6 0x0601 s u ∧
      fn ∈ (hostOf u h).priFailed := by
  have hdrop := dropGroup_frame h g s
  have hlist := updHost_frame h (fun p => { p with priFailed := p.priFailed ++ [fn] }) (dropGroup h g s) rfl
  refine ⟨_, ?_, failOp_marked hj (.of_frame (hdrop.then hlist)) (by decide) d 6 0x0601, ?_⟩
  · change execPageRequestResponse h g .responseFailure s = _
    unfold execPageRequestResponse
    rw [hg]
    dsimp only
    rw [(hdrop.opOf (by decide) d op).trans hop]
    dsimp only
    rw [hx]
    dsimp only
    rw [gatewayOfOp_dropGroup hj hgw, hhost]
    rfl
  · have hkept := calm_failOp d o 6 0x0601 (updHost h (fun p => { p with priFailed := p.priFailed ++ [fn] }) (dropGroup h g s))
    rw [priFailed_of_calm hkept, hostOf_updHost_self]
    exact List.mem_append_right _ (List.mem_singleton_self _)

omit hx hhost in
/-- A page request that is not answered fails its transfer (R275). -/
theorem pageAnswer_timeout {g : Nat} (hg : groupOf s h g = some (g, d, op)) : ∃ t,
      exec (.pageRequestTimeout h g) s = .next t ∧ OpFailed d o j 6 0x0601 s t := by
  refine ⟨_, ?_, failOp_failed hj d 6 0x0601⟩
  change execPageRequestTimeout h g s = _
  unfold execPageRequestTimeout
  rw [hg]
  dsimp only
  rw [hop]

end PageFault

/-! #### Host memory that fails (R276, R277, R395) -/

theorem hostFail_failed {s : State} {d : DieIx} {op : Nat} {o : Op} {x : Xfer} {j : Job} (hop : opOf s d op = some o) (hx : o.xfer = some x)
    (hj : jobOf s o.job = some j) (hhost : x.host.isSome = true) (reads : Bool) (hreads : (reads && x.dst.space == 4) = false) :
    OpFailed d o j 6 0x0602 s (hostFail d op reads s) := by
  have heq : hostFail d op reads s = failOp d o 6 0x0602 s := by
    unfold hostFail
    rw [hop]
    dsimp only
    rw [hx]
    dsimp only
    rw [hhost, hreads]
    rfl
  rw [heq]
  exact failOp_failed hj d 6 0x0602

/-- An invalidation drops the page's translations of every function (R271). -/
theorem atsInvalidation_spec (h : HostId) (page : Nat) (s : State) : ∃ t, exec (.atsInvalidation h page) s = .next t ∧
    (∀ c, c ∈ (hostOf t h).cached ↔ c ∈ (hostOf s h).cached ∧ c.2 ≠ page) ∧ t.out = s.out ++ [.atsDone h page] ∧ Frame [.hosts, .out] s t := by
  have hdrop := updHost_frame h (fun p => { p with cached := p.cached.filter fun c => c.2 != page }) s rfl
  refine ⟨_, rfl, fun c => ?_, ?_, (hdrop.then (emit_frame _ _)).mono (by decide)⟩
  · rw [(emit_frame _ _).hostField (by decide) (·.cached) fun _ => rfl, hostOf_updHost_self]
    simp
  · have hout : _ = s.out := hdrop .out (by decide)
    exact congrArg (· ++ [Output.atsDone h page]) hout

/-! #### A plan that lands in memory (R258, R264) -/

/-- An erasure of fields of a die that a transfer to its memories neither reads nor writes. -/
structure MemoryBlind (f : Die → Die) : Prop where
  reads : ∀ x, (f x).store = x.store ∧ (f x).scratch = x.scratch ∧ (f x).storeHandles = x.storeHandles ∧ (f x).handles = x.handles ∧
    (f x).rings = x.rings := by intro _; exact ⟨rfl, rfl, rfl, rfl, rfl⟩
  store : ∀ x m, f { x with store := m } = { f x with store := m } := by intro _ _; rfl
  scratch : ∀ x m, f { x with scratch := m } = { f x with scratch := m } := by intro _ _; rfl
  storeHandles : ∀ x m, f { x with storeHandles := m } = { f x with storeHandles := m } := by intro _ _; rfl

/-- Two states whose dies differ in erased fields only. -/
def SameUpTo (f : Die → Die) (s t : State) : Prop := ∀ e, f (dieOf t e) = f (dieOf s e)

namespace SameUpTo

variable {f : Die → Die} {s t : State}

theorem updDie (h : SameUpTo f s t) (d : DieIx) (g : Die → Die) (hg : ∀ x, f (g x) = g (f x)) : SameUpTo f (updDie d g s) (updDie d g t) := fun e => by
  rw [dieOf_updDie, dieOf_updDie]
  split
  · rw [hg, hg, h d]
  · exact h e

variable (hf : MemoryBlind f)
include hf

theorem descMem (h : SameUpTo f s t) (x : Desc) (slot k : Nat) : Desc.mem t x slot k = Desc.mem s x slot k := by
  obtain ⟨hstore, hscratch, hstores, hhandles, hrings⟩ := hf.reads (dieOf t x.dieIx)
  obtain ⟨hstore', hscratch', hstores', hhandles', hrings'⟩ := hf.reads (dieOf s x.dieIx)
  rw [h x.dieIx] at hstore hscratch hstores hhandles hrings
  simp only [Desc.mem, storeOf, handleOf, ringOf, ← hstore, ← hscratch, ← hstores, ← hhandles, ← hrings, hstore', hscratch', hstores', hhandles', hrings']

theorem updSpace (h : SameUpTo f s t) (x : Desc) (g : Mem → Mem) : SameUpTo f (updSpace x g s) (updSpace x g t) := by
  refine h.updDie _ _ fun y => ?_
  obtain ⟨hstore, hscratch, -⟩ := hf.reads y
  split
  · rw [hf.store, hstore]
  · rw [hf.scratch, hscratch]

theorem touchDigest (h : SameUpTo f s t) (x : Desc) : SameUpTo f (touchDigest x s) (touchDigest x t) := by
  unfold Machine.touchDigest
  split
  · refine h.updDie _ _ fun y => ?_
    obtain ⟨-, -, hstores, -⟩ := hf.reads y
    rw [hf.storeHandles, hstores]
  · exact h

theorem writeElems (h : SameUpTo f s t) (x : Desc) (slot : Nat) (xs : List (Int × Nat)) : SameUpTo f (writeElems x slot xs s) (writeElems x slot xs t) := by
  unfold Machine.writeElems
  rw [h.descMem hf]
  exact (h.updSpace hf x _).touchDigest hf x

theorem writeScales (h : SameUpTo f s t) (x : Desc) (slot : Nat) (xs : List (Nat × Nat)) :
    SameUpTo f (writeScales x slot xs s) (writeScales x slot xs t) := by
  unfold Machine.writeScales
  split
  · dsimp only
    rw [h.descMem hf]
    exact (h.updSpace hf x _).touchDigest hf _
  · exact h

end SameUpTo

/-- A step of the dies' memories: it leaves operations in flight, and everything off the dies. -/
structure MemoryOnly (s t : State) : Prop where
  ops : ∀ e, (dieOf t e).ops = (dieOf s e).ops
  frame : Frame [.dies] s t

namespace MemoryOnly

theorem refl (s : State) : MemoryOnly s s := ⟨fun _ => rfl, .refl _ _⟩

theorem trans {s t u : State} (h : MemoryOnly s t) (k : MemoryOnly t u) : MemoryOnly s u :=
  ⟨fun e => (k.ops e).trans (h.ops e), h.frame.trans k.frame⟩

theorem updDie (d : DieIx) (f : Die → Die) (s : State) (hops : (f (dieOf s d)).ops = (dieOf s d).ops)
    (hcounters : (f (dieOf s d)).counters = (dieOf s d).counters) : MemoryOnly s (updDie d f s) := by
  refine ⟨fun e => ?_, updDie_frame_dies d f s hcounters⟩
  rw [dieOf_updDie]
  split
  · next h => rw [hops, h]
  · rfl

theorem opOf {s t : State} (h : MemoryOnly s t) (d : DieIx) (id : Nat) : opOf t d id = opOf s d id := by
  rw [Machine.opOf, h.ops d, Machine.opOf]

end MemoryOnly

theorem updSpace_memoryOnly (x : Desc) (f : Mem → Mem) (s : State) : MemoryOnly s (updSpace x f s) :=
  .updDie _ _ s (by split <;> rfl) (by split <;> rfl)

theorem touchDigest_memoryOnly (x : Desc) (s : State) : MemoryOnly s (touchDigest x s) := by
  unfold touchDigest
  split
  · exact .updDie _ _ s rfl rfl
  · exact .refl s

theorem writeElems_memoryOnly (x : Desc) (slot : Nat) (xs : List (Int × Nat)) (s : State) : MemoryOnly s (writeElems x slot xs s) :=
  (updSpace_memoryOnly ..).trans (touchDigest_memoryOnly ..)

theorem writeScales_memoryOnly (x : Desc) (slot : Nat) (xs : List (Nat × Nat)) (s : State) : MemoryOnly s (writeScales x slot xs s) := by
  unfold writeScales
  split
  · exact (updSpace_memoryOnly ..).trans (touchDigest_memoryOnly ..)
  · exact .refl s

/-- A plan of elements that lands at its destination: padding, elements, scale bytes. -/
def landPlan (t : Desc) (slot : Nat) (bufs : Tbl Mem) (pl : Plan) (s : State) : State :=
  writeScales t slot (pl.bytes bufs) (writeElems t slot (pl.elems bufs t.bits) (writeElems t slot pl.pads s))

theorem landPlan_memoryOnly (t : Desc) (slot : Nat) (bufs : Tbl Mem) (pl : Plan) (s : State) : MemoryOnly s (landPlan t slot bufs pl s) :=
  ((writeElems_memoryOnly ..).trans (writeElems_memoryOnly ..)).trans (writeScales_memoryOnly ..)

theorem SameUpTo.landPlan {f : Die → Die} (hf : MemoryBlind f) {s t : State} (h : SameUpTo f s t) (x : Desc) (slot : Nat) (bufs : Tbl Mem) (pl : Plan) :
    SameUpTo f (landPlan x slot bufs pl s) (landPlan x slot bufs pl t) :=
  ((h.writeElems hf x slot _).writeElems hf x slot _).writeScales hf x slot _

theorem applyPlan_elements {x : Xfer} (hkind : x.dst.kind ≠ 0) (hadd : x.add = false) (hcarry : x.carry = none) (p : PartIx) (slot : Nat) (pl : Plan)
    (s : State) : applyPlan p x.dst slot x pl s = some (landPlan x.dst slot x.bufs pl s) := by
  simp [applyPlan, hkind, hadd, hcarry, landPlan]

/-- A transfer with all its reads writes the next plan to SCRATCH or STORE (R258). -/
theorem deliver_elements {s : State} {d : DieIx} {id : Nat} {o : Op} {x : Xfer} {j : Job} {pl : Plan} {rest : List Plan} (hop : opOf s d id = some o)
    (hx : o.xfer = some x) (hj : jobOf s o.job = some j) (hbegun : x.begun = true) (htodo : x.todo = none) (hplaced : x.placed = false)
    (hreads : reqsOf s d id .read = []) (hhall : x.hall = none) (hplans : x.plans = pl :: rest) (hspace : x.dst.space ≤ 1) (hsrc : x.srcSpace ≠ 4)
    (hkind : x.dst.kind ≠ 0) (hadd : x.add = false) (hcarry : x.carry = none) :
    deliver d id s = updXfer d id (fun x => { x with plans := rest }) (landPlan x.dst 0 x.bufs pl s) := by
  unfold deliver
  rw [hop]
  dsimp only
  rw [hx, hj]
  dsimp only
  have hfill : fillHall d o x s = s := by rw [fillHall, hhall]
  rw [hbegun, htodo, hplaced, hreads, hfill, hplans]
  dsimp only
  rw [if_neg (by decide)]
  split
  · omega
  · omega
  · omega
  simp only [if_neg hsrc, applyPlan_elements hkind hadd hcarry, updXfer]

/-! #### What other parts answer (R349, R357, R361, R369, R370) -/

/-- Of the fabric, only what has arrived changes, or what is asked. -/
theorem fabric_marks (f : Fabric) (s : State) : Marks [.fabric] s { s with fabric := f } := .of_frame fields_frame

theorem countLate_spec (d : DieIx) (s : State) : tblGetD (dieOf (countLate d s) d).counters 7 0 = tblGetD (dieOf s d).counters 7 0 + 1 ∧
    Frame [.counters] s (countLate d s) := by
  refine ⟨?_, count_frame d 7 1 s⟩
  unfold countLate count
  rw [dieOf_updDie_self, tblGetD, tblGet_tblSet, if_pos rfl, Option.getD_some]

section Answers

variable {s v : State} {n : PortIx} {p : Packet}

/-- What answers nothing is counted, a NAK that refuses no work too. -/
theorem answer_late {i : Instr} {k : Nat} (hi : (i, k) ∈ [(Instr.ack, 4), (.nak, 5), (.readData, 3)])
    (htake : takeArrived (fun x => x.2.ptype == k) s = some ((n, p), v)) (hnone : requestOf v p = none)
    (hwork : k = 5 → nakColl v p = none ∧ nakExch v p = none) : exec i s = .next (countLate p.dstDie v) := by
  simp only [List.mem_cons, Prod.mk.injEq, List.not_mem_nil, or_false] at hi
  rcases hi with ⟨rfl, rfl⟩ | ⟨rfl, rfl⟩ | ⟨rfl, rfl⟩
  · change execAck s = _
    unfold execAck
    rw [htake]
    dsimp only
    rw [hnone]
  · obtain ⟨hcoll, hexch⟩ := hwork rfl
    change execNak s = _
    unfold execNak
    rw [htake]
    dsimp only
    rw [hnone]
    dsimp only
    rw [refuseWork, hcoll, hexch]
  · change execReadData s = _
    unfold execReadData
    rw [htake]
    dsimp only
    rw [hnone]

theorem answer_late_counted {i : Instr} {k : Nat} (hi : (i, k) ∈ [(Instr.ack, 4), (.nak, 5), (.readData, 3)])
    (htake : takeArrived (fun x => x.2.ptype == k) s = some ((n, p), v)) (hnone : requestOf v p = none)
    (hwork : k = 5 → nakColl v p = none ∧ nakExch v p = none) : ∃ t, exec i s = .next t ∧
      tblGetD (dieOf t p.dstDie).counters 7 0 = tblGetD (dieOf s p.dstDie).counters 7 0 + 1 ∧
      t.fabric = { s.fabric with arrived := s.fabric.arrived.erase (n, p) } ∧ Frame [.fabric, .counters] s t := by
  obtain ⟨hcount, hframe⟩ := countLate_spec p.dstDie v
  have hv := takeArrived_some htake
  refine ⟨_, answer_late hi htake hnone hwork, ?_, ?_, ?_⟩
  · rw [hcount, hv]
    rfl
  · rw [hframe .fabric (by decide), hv]
  · rw [hv] at hframe ⊢
    exact ((fields_frame (ws := [.fabric])).then hframe).mono (by decide)

/-- A NAK to a share exchange fails it. -/
theorem nak_exch {d : DieIx} {o : Op} {x : Exch} {j : Job} (htake : takeArrived (fun x => x.2.ptype == 5) s = some ((n, p), v))
    (hnone : requestOf v p = none) (hcoll : nakColl v p = none) (hexch : nakExch v p = some (d, o, x)) (hj : jobOf s o.job = some j) :
    ∃ t, exec .nak s = .next t ∧ OpFailed d o j 1 (BitVec.ofNat 16 p.wgen.toNat) s t := by
  refine ⟨failOp d o 1 (BitVec.ofNat 16 p.wgen.toNat) v, ?_, takeArrived_some htake ▸ failOp_marked hj (fabric_marks _ s) (by decide) d 1 _⟩
  change execNak s = _
  unfold execNak
  rw [htake]
  dsimp only
  rw [hnone]
  dsimp only
  rw [refuseWork, hcoll, hexch]

/-- A NAK to a collective fails it. -/
theorem nak_coll {o : Op} {c : Coll} (htake : takeArrived (fun x => x.2.ptype == 5) s = some ((n, p), v))
    (hnone : requestOf v p = none) (hcoll : nakColl v p = some (o, c)) :
    exec .nak s = .next (failColl p.dstDie o (BitVec.ofNat 16 p.wgen.toNat) v) := by
  change execNak s = _
  unfold execNak
  rw [htake]
  dsimp only
  rw [hnone]
  dsimp only
  rw [refuseWork, hcoll]

variable {r : Request} {o : Op} {j : Job} (hop : opOf s r.die r.op = some o) (hj : jobOf s o.job = some j)
include hop hj

/-- A NAK to a request fails the transfer (R369). -/
theorem nak_request (htake : takeArrived (fun x => x.2.ptype == 5) s = some ((n, p), v)) (hreq : requestOf v p = some r) :
    ∃ t, exec .nak s = .next t ∧ OpFailed r.die o j 6 (BitVec.ofNat 16 p.wgen.toNat) s t := by
  have hv := takeArrived_some htake
  refine ⟨failOp r.die o 6 (BitVec.ofNat 16 p.wgen.toNat) (dropRequest r v), ?_, ?_⟩
  · have hkept : opOf v r.die r.op = some o := by rw [hv]; exact hop
    change execNak s = _
    unfold execNak
    rw [htake]
    dsimp only
    rw [hreq]
    dsimp only
    rw [hkept]
  · rw [hv]
    exact failOp_marked hj (fabric_marks _ s) (by decide) r.die 6 _

/-- An ACK ends the write that it names (R369). -/
theorem ack_request (htake : takeArrived (fun x => x.2.ptype == 4) s = some ((n, p), v)) (hreq : requestOf v p = some r) (hkind : r.kind ≠ .read)
    (hflag : ∀ x k f, o.xfer = some x → x.remoteFlag = some (k, f) → reqsOf (dropRequest r v) r.die r.op .write ≠ []) :
    ∃ t, exec .ack s = .next t ∧
      t.fabric = { s.fabric with arrived := s.fabric.arrived.erase (n, p), requests := s.fabric.requests.erase r } ∧ Frame [.fabric] s t := by
  have hv := takeArrived_some htake
  have hstays : sendRemoteFlag r.die r.op (dropRequest r v) = dropRequest r v := by
    have hkept : opOf (dropRequest r v) r.die r.op = some o := by rw [hv]; exact hop
    have hjob : jobOf (dropRequest r v) o.job = some j := by rw [hv]; exact hj
    unfold sendRemoteFlag
    rw [hkept]
    dsimp only
    rw [hjob]
    cases hx : o.xfer with
    | none => rfl
    | some x =>
      dsimp only
      split
      · rfl
      · next hidle =>
        cases hf : x.remoteFlag with
        | none => rfl
        | some kf =>
          have hwrites := hflag x kf.1 kf.2 hx hf
          simp [hwrites] at hidle
  refine ⟨dropRequest r v, ?_, ?_, ?_⟩
  · change execAck s = _
    unfold execAck
    rw [htake]
    dsimp only
    rw [hreq]
    dsimp only
    rw [if_neg hkind, hstays]
  · rw [hv]
    rfl
  · rw [hv]
    exact fields_frame

/-- A transfer whose answers do not come in time fails (R357). -/
theorem transferTimeout_failed (hr : r ∈ s.fabric.requests) :
    ∃ t, exec (.transferTimeout r.die r.op) s = .next t ∧ OpFailed r.die o j 6 0x0401 s t := by
  refine ⟨_, ?_, failOp_failed hj r.die 6 0x0401⟩
  change execTransferTimeout r.die r.op s = _
  unfold execTransferTimeout
  rw [hop]
  dsimp only
  rw [if_pos (by rw [List.any_eq_true]; exact ⟨r, hr, by simp⟩)]

/-- READ_DATA brings its bytes; with the last of them the elements land (R349, R369). -/
theorem readData_lands {x : Xfer} {pl : Plan} (htake : takeArrived (fun x => x.2.ptype == 3) s = some ((n, p), v)) (hreq : requestOf v p = some r)
    (hkind : r.kind = .read) (hlen : p.data.length = r.len) (hx : o.xfer = some x) (hbegun : x.begun = true) (htodo : x.todo = none)
    (hplaced : x.placed = false) (hsrc : x.srcSpace = 3) (hplans : x.plans = [pl]) (hadd : x.add = false) (hcarry : x.carry = none)
    (hhall : x.hall = none) (hspace : x.dst.space ≤ 1) (hdst : x.dst.kind ≠ 0) (hreads : reqsOf (dropRequest r v) r.die r.op .read = []) :
    let bufs := tblSet x.bufs r.piece (memPut (tblGetD x.bufs r.piece []) r.off p.data)
    ∃ t, exec .readData s = .next t ∧ opOf t r.die r.op = some { o with xfer := some { x with bufs := bufs, plans := [] } } ∧
      t.fabric = { s.fabric with arrived := s.fabric.arrived.erase (n, p), requests := s.fabric.requests.erase r } ∧
      (∀ e, { dieOf t e with ops := [] } = { dieOf (landPlan x.dst 0 bufs pl s) e with ops := [] }) ∧ Frame [.dies, .fabric] s t := by
  intro bufs
  have hv := takeArrived_some htake
  let bring (x : Xfer) : Xfer := { x with bufs := tblSet x.bufs r.piece (memPut (tblGetD x.bufs r.piece []) r.off p.data) }
  let m := dropRequest r v
  have hmop : opOf m r.die r.op = some o := by simp only [m]; rw [hv]; exact hop
  have hmjob : jobOf m o.job = some j := by simp only [m]; rw [hv]; exact hj
  have hm : Frame [.fabric] s m := by simp only [m]; rw [hv]; exact fields_frame
  have hbring := updXfer_opsOnly r.die r.op bring m
  have hfound : opOf (updXfer r.die r.op bring m) r.die r.op = some { o with xfer := some (bring x) } := opOf_updXfer_self hmop hx bring
  have hjob : jobOf (updXfer r.die r.op bring m) o.job = some j := (hbring.jobOf _).trans hmjob
  have hnone : reqsOf (updXfer r.die r.op bring m) r.die r.op .read = [] := by
    rw [reqsOf, hbring.fabric]
    exact hreads
  have hplanned : planXfer r.die r.op (updXfer r.die r.op bring m) = updXfer r.die r.op bring m := by
    unfold planXfer
    rw [hfound]
    dsimp only
    rw [hjob]
    dsimp only [bring]
    rw [htodo]
  have hland := landPlan_memoryOnly x.dst 0 bufs pl (updXfer r.die r.op bring m)
  have hdone := updXfer_opsOnly r.die r.op (fun x => { x with plans := [] }) (landPlan x.dst 0 bufs pl (updXfer r.die r.op bring m))
  have hdelivered : pump r.die r.op (updXfer r.die r.op bring m) =
      updXfer r.die r.op (fun x => { x with plans := [] }) (landPlan x.dst 0 bufs pl (updXfer r.die r.op bring m)) := by
    rw [pump, hplanned]
    exact deliver_elements (x := bring x) hfound rfl hjob hbegun htodo hplaced hnone hhall hplans hspace (by change x.srcSpace ≠ 4; omega) hdst hadd hcarry
  refine ⟨pump r.die r.op (updXfer r.die r.op bring m), ?_, ?_, ?_, fun e => ?_, hdelivered ▸ (((hm.then hbring.frame).then hland.frame).then hdone.frame).mono (by decide)⟩
  · change execReadData s = _
    unfold execReadData
    rw [htake]
    dsimp only
    rw [hreq]
    dsimp only
    rw [if_neg (by simp [hkind, hlen])]
  · rw [hdelivered]
    exact opOf_updXfer_self ((hland.opOf _ _).trans hfound) rfl _
  · rw [hdelivered, hdone.fabric, hland.frame .fabric (by decide), hbring.fabric]
    simp only [m]
    rw [hv]
    rfl
  · rw [hdelivered, hdone.dies]
    refine SameUpTo.landPlan (f := fun x => { x with ops := [] }) {} (fun e => ?_) x.dst 0 bufs pl e
    exact (hbring.dies e).trans (by rw [hm.dieOf (by decide) (by decide)])

end Answers

/-- Settles O40: each clause by the function that the fault or the answer runs. -/
theorem pageFaultsAndAnswers : Obligations.PageFaultsAndAnswers := by
  unfold Obligations.PageFaultsAndAnswers
  refine ⟨fun s d op o x j h fn hop hx hj hhost => ⟨?_, fun hgw => ⟨?_, fun g hg => ?_⟩, ?_, fun hspace => ?_, fun page => atsInvalidation_spec h page s⟩,
    fun s n p v => ⟨?_, ?_, ?_, fun r o j hop hj hr => ⟨?_, ?_, ?_, transferTimeout_failed hop hj hr⟩⟩⟩
  · exact fun gw reg cursor pages hgw hbegun hgoing hcur hspace => pageFault_far hop hx hj hhost hgw hbegun hgoing hcur hspace pages
  · exact fun cursor pages hbegun hgoing hats hcur hspace =>
      ⟨pageFault_near hop hx hj hhost hgw hbegun hgoing hats hcur hspace pages,
        pageFault_off hop hx hj hhost hgw hbegun hgoing hats hcur hspace pages⟩
  · exact ⟨pageAnswer_success hop hx hj hhost hgw hg, pageAnswer_invalid hop hx hj hg, pageAnswer_failure hop hx hj hhost hgw hg,
      pageAnswer_timeout hop hj hg⟩
  · exact ⟨_, rfl, hostFail_failed hop hx hj (by rw [hhost]; rfl) false rfl⟩
  · exact ⟨_, rfl, rfl, hostFail_failed hop hx hj (by rw [hhost]; rfl) true (by simpa using hspace)⟩
  · exact fun i k hi htake hnone hwork => answer_late_counted hi htake hnone hwork
  · exact fun d o x j htake hnone hcoll hexch hj => nak_exch htake hnone hcoll hexch hj
  · exact fun o c htake hnone hcoll => nak_coll htake hnone hcoll
  · exact fun htake hreq hkind hflag => ack_request hop hj htake hreq hkind hflag
  · exact fun htake hreq => nak_request hop hj htake hreq
  · exact fun x pl htake hreq hkind hlen hx hbegun htodo hplaced hsrc hplans hadd hcarry hhall hspace hdst hreads =>
      readData_lands hop hj htake hreq hkind hlen hx hbegun htodo hplaced hsrc hplans hadd hcarry hhall hspace hdst hreads

end Sys2Proof.Machine

namespace Sys2Proof.Machine

/-! ### O38: an operation completes (R237, R240, R244, R245, R258, R152, R155) -/

/-! #### The stalls that completion counts (R240, R241) -/

/-- A log entry leaves a die's stall counters. -/
theorem logJob_counter {k : Nat} (hk : k < 9) (e : Ev) (j : Job) (a : Site) (unit detail : Nat) (skip : Bool) (s : State) (d : DieIx) :
    tblGetD (dieOf (logJob e j a unit detail skip s) d).counters k 0 = tblGetD (dieOf s d).counters k 0 := by
  have hcount (n i : Nat) (hi : k ≠ i) (t : State) (x : DieIx) : tblGetD (dieOf (count x i n t) d).counters k 0 = tblGetD (dieOf t d).counters k 0 := by
    unfold count
    rw [dieOf_updDie]
    split
    · next h => rw [h, tblGetD_tblSet, if_neg hi]
    · rfl
  have hsame {ws : List Area} {t u : State} (h : Frame ws t u) (hws : Area.counters ∉ ws) : (dieOf u d).counters = (dieOf t d).counters := h .counters hws d
  unfold logJob
  rw [hsame (updJob_frame _ _ _) (by decide)]
  unfold logEvent
  extract_lets seq
  split
  rename_i tm s' h
  obtain ⟨rfl, rfl⟩ := Prod.ext_iff.1 h
  extract_lets entry dropped src s₁ s₂ s₃
  rw [hsame (signal_frame _ _ _ _) (by decide), hcount _ _ (by omega)]
  have hparts : Frame ([.log, .free] ++ [.partLogs]) s s₂ := (fields_frame (ws := [.log, .free])).then (updPart_frame_log _ (fun l => pushLog 1024 l entry) _)
  exact congrArg (tblGetD · k 0) (hsame hparts (by decide))

/-- What settling the stalls of an operation does: a free number of cycles counted, one event for all that it waited. -/
structure StallsSettled (d : DieIx) (o : Op) (s t : State) : Prop where
  frame : Frame (.jobs :: logAreas) s t
  rest : t.jobs.map jobRest = s.jobs.map jobRest
  rowless : usesRows o = false → t = s
  counted : ∀ j, jobOf s o.job = some j → usesRows o = true → ∃ n, tblGetD (dieOf t d).counters 0 0 = tblGetD (dieOf s d).counters 0 0 + n ∧
    (n = 0 → t.log = s.log) ∧ (n ≠ 0 → Logged 0x0303 (evJob j { die := d, queue := o.queue, off := o.off } o.unit 0 false) s t)

theorem updJob_jobRest (id : Nat) (f : Job → Job) (hf : ∀ j, jobRest (f j) = jobRest j) (s : State) :
    (updJob id f s).jobs.map jobRest = s.jobs.map jobRest := by
  change (s.jobs.map fun j => if j.id = id then f j else j).map jobRest = _
  rw [List.map_map]
  refine List.map_congr_left fun j _ => ?_
  simp only [Function.comp]
  split
  · exact hf j
  · rfl

theorem logJob_jobRest (e : Ev) (j : Job) (a : Site) (unit detail : Nat) (skip : Bool) (s : State) :
    (logJob e j a unit detail skip s).jobs.map jobRest = s.jobs.map jobRest := by
  have hjobs : (logEvent e (evJob j a unit detail skip) s).jobs = s.jobs := logEvent_frame e _ s .jobs (by decide)
  exact (updJob_jobRest j.id _ (by exact fun _ => rfl) _).trans (congrArg (List.map jobRest) hjobs)

theorem countStalls_spec (j : Job) (a : Site) (unit : Nat) (s : State) : Frame (.jobs :: logAreas) s (countStalls j a unit s) ∧
    (countStalls j a unit s).jobs.map jobRest = s.jobs.map jobRest ∧
    ∃ n, tblGetD (dieOf (countStalls j a unit s) a.die).counters 0 0 = tblGetD (dieOf s a.die).counters 0 0 + n ∧
      (n = 0 → (countStalls j a unit s).log = s.log) ∧ (n ≠ 0 → Logged 0x0303 (evJob j a unit 0 false) s (countStalls j a unit s)) := by
  let n := Config.freeValue s.free 0
  let b := Config.freeValue (s.free + 1) 0
  let m : State := { s with free := s.free + 2 }
  have heq : countStalls j a unit s = logOnce 0x0303 n j a unit (count a.die 1 b (count a.die 0 n m)) := rfl
  have hm : Frame [.free, .counters] s (count a.die 1 b (count a.die 0 n m)) :=
    (((fields_frame (ws := [.free])).then (count_frame _ _ _ _)).then (count_frame _ _ _ _)).mono (by decide)
  have hcounted : tblGetD (dieOf (count a.die 1 b (count a.die 0 n m)) a.die).counters 0 0 = tblGetD (dieOf s a.die).counters 0 0 + n := by
    unfold count
    rw [dieOf_updDie_self, dieOf_updDie_self]
    simp only [tblGetD_tblSet, if_pos, if_neg (show ¬(0 = 1) by decide)]
    rfl
  generalize count a.die 1 b (count a.die 0 n m) = v at hm hcounted heq
  rw [heq]
  unfold logOnce
  split
  · next hn =>
    exact ⟨hm.mono (by decide), congrArg (List.map jobRest) (hm .jobs (by decide)), n, hcounted, fun _ => hm .log (by decide), fun h => absurd hn h⟩
  · next hn =>
    have hlog := logJob_frame 0x0303 j a unit 0 false v
    have hcount := count_frame a.die (9 + (0x0303 : Ev).toNat / 256) (n - 1) (logJob 0x0303 j a unit 0 false v)
    have hlogged := logJob_logged 0x0303 j a unit 0 false v
    refine ⟨((hm.then hlog).then hcount).mono (by decide), ?_, n, ?_, fun h => absurd h hn, fun _ => ?_⟩
    · exact (congrArg (List.map jobRest) (hcount .jobs (by decide))).trans
        ((logJob_jobRest ..).trans (congrArg (List.map jobRest) (hm .jobs (by decide))))
    · unfold count
      rw [dieOf_updDie_self, tblGetD_tblSet, if_neg (by decide), logJob_counter (by decide), hcounted]
    · have hsame : v.log = s.log := hm .log (by decide)
      have hhearth : v.hearth = s.hearth := hm .hearth (by decide)
      unfold Logged at hlogged ⊢
      rwa [hsame, hhearth] at hlogged

theorem settleStalls_settled (d : DieIx) (o : Op) (s : State) : StallsSettled d o s (settleStalls d o s) := by
  unfold settleStalls
  cases hj : jobOf s o.job with
  | none => exact ⟨.refl _ _, rfl, fun _ => rfl, fun j hjob => by rw [hj] at hjob; cases hjob⟩
  | some j =>
    cases hrows : usesRows o with
    | false => exact ⟨.refl _ _, rfl, fun _ => rfl, fun _ _ h => by rw [hrows] at h; cases h⟩
    | true =>
      obtain ⟨hframe, hrest, hcounted⟩ := countStalls_spec j { die := d, queue := o.queue, off := o.off } o.unit s
      exact ⟨hframe, hrest, fun h => (by rw [hrows] at h; cases h), fun k hk _ => by obtain rfl := Option.some.inj (hj.symm.trans hk); exact hcounted⟩

/-- What has left the part stays with what settling the stalls sends. -/
theorem settleStalls_keepsOut (d : DieIx) (o : Op) (s : State) (x : Output) (hx : x ∈ s.out) : x ∈ (settleStalls d o s).out := by
  unfold settleStalls
  split
  · split
    · unfold countStalls logOnce
      dsimp only
      split
      · exact hx
      · exact (logEvent_roles ..).out x hx
    · exact hx
  · exact hx

/-! #### What completion writes on its own die -/

/-- A die but for its rings, its scratchpad and what is in flight. -/
def landingRest (x : Die) : Die := { x with ops := [], scoreboard := [], rings := [], scratch := [] }

/-- A step of an operation's own die: its rings, its scratchpad and the operation itself. -/
structure Delivers (d : DieIx) (op : Nat) (s t : State) : Prop where
  frame : Frame [.dies] s t
  others : OtherDies d s t
  rest : { dieOf t d with ops := [], scoreboard := [], rings := [], scratch := [], counters := [] } =
    { dieOf s d with ops := [], scoreboard := [], rings := [], scratch := [], counters := [] }
  ops : (dieOf t d).ops.filter (·.id != op) = (dieOf s d).ops.filter (·.id != op)
  scoreboard : (dieOf t d).scoreboard = (dieOf s d).scoreboard

namespace Delivers

variable {d : DieIx} {op : Nat} {s t u : State}

theorem refl (d : DieIx) (op : Nat) (s : State) : Delivers d op s s := ⟨.refl _ _, fun _ _ => rfl, rfl, rfl, rfl⟩

theorem trans (h : Delivers d op s t) (k : Delivers d op t u) : Delivers d op s u :=
  ⟨h.frame.trans k.frame, fun e he => (k.others e he).trans (h.others e he), k.rest.trans h.rest, k.ops.trans h.ops, k.scoreboard.trans h.scoreboard⟩

/-- A change of the die's rings, scratchpad and of the operation. -/
theorem updDie (f : Die → Die) (s : State) (hrest : landingRest (f (dieOf s d)) = landingRest (dieOf s d) := by rfl)
    (hops : (f (dieOf s d)).ops.filter (·.id != op) = (dieOf s d).ops.filter (·.id != op) := by rfl)
    (hscoreboard : (f (dieOf s d)).scoreboard = (dieOf s d).scoreboard := by rfl) : Delivers d op s (updDie d f s) := by
  have hfield : (landingRest (f (dieOf s d))).counters = (landingRest (dieOf s d)).counters := congrArg Die.counters hrest
  have hcounters : (f (dieOf s d)).counters = (dieOf s d).counters := hfield
  refine ⟨updDie_frame_dies d f s hcounters, fun e he => by rw [dieOf_updDie_ne _ _ he], ?_, ?_, ?_⟩
  · rw [dieOf_updDie_self]
    have hdie : { landingRest (f (dieOf s d)) with counters := [] } = { landingRest (dieOf s d) with counters := [] } := by rw [hrest]
    exact hdie
  · rw [dieOf_updDie_self, hops]
  · rw [dieOf_updDie_self, hscoreboard]

theorem updRing (r : Nat) (f : Ring → Ring) (s : State) : Delivers d op s (updRing d r f s) :=
  .updDie (fun x => { x with rings := tblSet x.rings r (f (tblGetD x.rings r Ring.zero)) }) s

theorem putHandle (h o : Nat) (bs : List Byte) (s : State) : Delivers d op s (putHandle d h o bs s) :=
  .updDie (fun x => { x with scratch := memPut x.scratch ((handleOf s d h).base * rowBytes + o) bs }) s

/-- The operation itself changes. -/
theorem updOp {f : Op → Op} (hf : ∀ o, (f o).id = o.id) (s : State) : Delivers d op s (updOp d op f s) := by
  refine .updDie (fun x => { x with ops := x.ops.map fun o => if o.id = op then f o else o }) s rfl ?_ rfl
  dsimp only
  rw [List.filter_map]
  have hsame : ((fun o : Op => o.id != op) ∘ fun o => if o.id = op then f o else o) = fun o => o.id != op := by
    funext o
    simp only [Function.comp]
    split
    · rw [hf]
    · rfl
  rw [hsame]
  refine (List.map_congr_left fun o ho => ?_).trans (List.map_id _)
  have hid : o.id ≠ op := by simpa using (List.mem_filter.mp ho).2
  rw [if_neg hid]
  rfl

end Delivers

/-! #### The operation leaves flight -/

/-- No page request is out for an operation: neither here nor at its gateway. -/
def Ungrouped (op : Nat) (s : State) : Prop :=
  (∀ h, ∀ g ∈ (hostOf s h).groups, g.2.2 ≠ op) ∧ ∀ g ∈ s.fabric.benchGroups, g.2.2.2 ≠ op

/-- A die without an operation and its scoreboard entries. -/
def releaseOp (op : Nat) (x : Die) : Die := { x with ops := x.ops.filter (·.id != op), scoreboard := x.scoreboard.filter (·.op != op) }

/-- An operation for which no page request is out leaves the die, and its requests the fabric. -/
theorem dropOp_ungrouped {s : State} {op : Nat} (h : Ungrouped op s) (d : DieIx) : dropOp d op s =
    { updDie d (releaseOp op) s with fabric := { s.fabric with requests := s.fabric.requests.filter fun r => r.op != op } } := by
  obtain ⟨hgroups, hbench⟩ := h
  have hkept (k : HostId) : (hostOf s k).groups.filter (fun g => g.2.2 != op) = (hostOf s k).groups :=
    List.filter_eq_self.mpr fun g hg => by simpa using hgroups k g hg
  have hgone (k : HostId) : (hostOf s k).groups.filter (fun g => g.2.2 == op) = [] :=
    List.filter_eq_nil_iff.mpr fun g hg => by simpa using hgroups k g hg
  have hlate (k : HostId) : s.fabric.benchGroups.filter (fun g => g.1 == k && g.2.2.2 == op) = [] :=
    List.filter_eq_nil_iff.mpr fun g hg => by simpa using fun _ => hbench g hg
  have hstay : s.fabric.benchGroups.filter (fun g => g.2.2.2 != op) = s.fabric.benchGroups :=
    List.filter_eq_self.mpr fun g hg => by simpa using hbench g hg
  have ha := hkept .a
  have hb := hkept .b
  have hga := hgone .a
  have hgb := hgone .b
  simp only [hostOf] at ha hb hga hgb
  unfold dropOp
  change (if _ then _ else (if _ then _ else _)) = _
  simp only [updDie, ha, hb, hga, hgb, hlate, hstay, List.map_nil, List.append_nil, List.isEmpty_nil]
  rfl

/-- What the dies, the fabric and the rest hold once an operation has left flight. -/
structure Left (d : DieIx) (op : Nat) (s t : State) : Prop where
  here : dieOf t d = releaseOp op (dieOf s d)
  others : OtherDies d s t
  fabric : t.fabric = { s.fabric with requests := s.fabric.requests.filter fun r => r.op != op }
  frame : Frame [.dies, .fabric] s t

theorem dropOp_left {s : State} {op : Nat} (h : Ungrouped op s) (d : DieIx) : Left d op s (dropOp d op s) := by
  have hupd := updDie_frame_dies d (releaseOp op) s rfl
  rw [dropOp_ungrouped h d]
  exact
    { here := dieOf_updDie_self d _ s
      others := fun e he => congrArg (fun x : Die => { x with counters := [] }) (dieOf_updDie_ne (releaseOp op) s he)
      fabric := rfl
      frame := hupd.then (fields_frame (ws := [.fabric])) }

/-- Areas that completion reaches. -/
def endAreas : List Area := [.dies, .fabric, .jobs] ++ logAreas

/-- An operation has ended (R237): it is out of flight and off the scoreboard, its requests forgotten, its stalls counted; its
flag and the tongs' next transfers follow. -/
def Ended (s : State) (d : DieIx) (op : Nat) (o : Op) (f : State → Prop) : Prop :=
  ∃ u, exec (.operationComplete d op) s = .next (startTongs d (raiseFlag o.flag u)) ∧ f u ∧
    (dieOf u d).ops = (dieOf s d).ops.filter (·.id != op) ∧ (dieOf u d).scoreboard = (dieOf s d).scoreboard.filter (·.op != op) ∧
    u.fabric = { s.fabric with requests := s.fabric.requests.filter fun r => r.op != op } ∧ OtherDies d s u ∧
    { dieOf u d with ops := [], scoreboard := [], rings := [], scratch := [], counters := [] } =
      { dieOf s d with ops := [], scoreboard := [], rings := [], scratch := [], counters := [] } ∧
    u.jobs.map jobRest = s.jobs.map jobRest ∧
    (usesRows o = false → u.log = s.log ∧ u.jobs = s.jobs) ∧
    ∀ j, jobOf s o.job = some j → usesRows o = true → ∃ n, tblGetD (dieOf u d).counters 0 0 = tblGetD (dieOf s d).counters 0 0 + n ∧
      (n = 0 → u.log = s.log) ∧
      (n ≠ 0 → Logged 0x0303 (evJob j { die := d, queue := o.queue, off := o.off } o.unit 0 false) s u)

theorem Ungrouped.of_frame {op : Nat} {ws : List Area} {s t : State} (h : Ungrouped op s) (hframe : Frame ws s t) (hhosts : Area.hosts ∉ ws)
    (hfabric : Area.fabric ∉ ws) : Ungrouped op t := by
  have hsame : t.fabric = s.fabric := hframe .fabric hfabric
  refine ⟨fun k g hg => ?_, fun g hg => ?_⟩
  · rw [hframe.hostField hhosts (·.groups) fun _ => rfl] at hg
    exact h.1 k g hg
  · rw [hsame] at hg
    exact h.2 g hg

/-- An operation that writes what it has to its own die, settles its stalls and leaves flight has ended. -/
theorem ended_of {s s₀ s₁ s₂ : State} {d : DieIx} {op : Nat} {o : Op} {f : State → Prop} (hstart : Delivers d op s s₀)
    (hstalls : StallsSettled d o s₀ s₁) (hwrite : Delivers d op s₁ s₂) (hungrouped : Ungrouped op s)
    (hexec : exec (.operationComplete d op) s = .next (startTongs d (raiseFlag o.flag (dropOp d op s₂))))
    (hf : ∀ u, Frame endAreas s u → (dieOf u d).rings = (dieOf s₂ d).rings → (dieOf u d).scratch = (dieOf s₂ d).scratch → f u) :
    Ended s d op o f := by
  have hframe₁ := hstart.frame.then hstalls.frame
  have hframe₂ := hframe₁.then hwrite.frame
  have hleft := dropOp_left (hungrouped.of_frame hframe₂ (by decide) (by decide)) d
  have hframe := hframe₂.then hleft.frame
  have hfabric₂ : s₂.fabric = s.fabric := hframe₂ .fabric (by decide)
  have hfield {β : Type} (g : Die → β) (hg : ∀ x : Die, g { x with counters := [] } = g x) : g (dieOf s₁ d) = g (dieOf s₀ d) :=
    hstalls.frame.dieField (by decide) g hg d
  have hlater : Frame [.dies, .fabric] s₁ (dropOp d op s₂) := (hwrite.frame.then hleft.frame).mono (by decide)
  have hlog : (dropOp d op s₂).log = s₁.log := hlater .log (by decide)
  have hjobs : (dropOp d op s₂).jobs = s₁.jobs := hlater .jobs (by decide)
  have hcounters : (dieOf (dropOp d op s₂) d).counters = (dieOf s₁ d).counters := hlater .counters (by decide) d
  have hlog₀ : s₀.log = s.log := hstart.frame .log (by decide)
  have hjobs₀ : s₀.jobs = s.jobs := hstart.frame .jobs (by decide)
  have hhearth₀ : s₀.hearth = s.hearth := hstart.frame .hearth (by decide)
  have hcounters₀ : (dieOf s₀ d).counters = (dieOf s d).counters := hstart.frame .counters (by decide) d
  refine ⟨_, hexec, hf _ (hframe.mono (by decide)) ?_ ?_, ?_, ?_, ?_, ?_, ?_, ?_, ?_, ?_⟩
  · rw [hleft.here]
    rfl
  · rw [hleft.here]
    rfl
  · rw [hleft.here]
    exact hwrite.ops.trans ((congrArg (List.filter _) (hfield Die.ops fun _ => rfl)).trans hstart.ops)
  · rw [hleft.here]
    exact congrArg (List.filter _) (hwrite.scoreboard.trans ((hfield Die.scoreboard fun _ => rfl).trans hstart.scoreboard))
  · rw [hleft.fabric, hfabric₂]
  · exact fun e he => (hleft.others e he).trans ((hwrite.others e he).trans ((hstalls.frame .dies (by decide) e).trans (hstart.others e he)))
  · rw [hleft.here]
    exact hwrite.rest.trans ((hfield (fun x => { x with ops := [], scoreboard := [], rings := [], scratch := [], counters := [] }) fun _ => rfl).trans hstart.rest)
  · rw [hjobs, hstalls.rest, hjobs₀]
  · intro hrows
    rw [hlog, hjobs, hstalls.rowless hrows]
    exact ⟨hlog₀, hjobs₀⟩
  · intro j hj hrows
    obtain ⟨n, hcount, hquiet, hlogged⟩ := hstalls.counted j (by rw [jobOf, hjobs₀]; exact hj) hrows
    refine ⟨n, ?_, fun hn => by rw [hlog, hquiet hn, hlog₀], fun hn => ?_⟩
    · rw [hcounters, hcount, hcounters₀]
    · have h := hlogged hn
      unfold Logged at h ⊢
      rwa [hlog, ← hlog₀, ← hhearth₀]

/-! #### What an operation delivers as it ends -/

/-- What an operation without a collective delivers: its exchange, then its slots. -/
def deliverOp (d : DieIx) (o : Op) (s : State) : State :=
  o.takes.foldl (fun s t => releaseSlot d t.1 t.2 s) (match o.exch with | some x => deliverExch d x s | none => s)

/-- Settling stalls leaves the rest of a die. -/
theorem settleStalls_field {s : State} {d e : DieIx} {o : Op} {β : Type} (g : Die → β) (hg : ∀ x : Die, g { x with counters := [] } = g x) :
    g (dieOf (settleStalls d o s) e) = g (dieOf s e) := (settleStalls_settled d o s).frame.dieField (by decide) g hg e

/-! Slots are released and filled in claim order (R244, R245). -/

theorem advance_next (c : Nat) : advance 1 c [c] = (inc32 c, []) := by simp [advance]

theorem advance_absent {c : Nat} {l : List Nat} (h : c ∉ l) (n : Nat) : advance n c l = (c, l) := by
  cases n with
  | zero => rfl
  | succ n => simp [advance, h]

theorem ringOf_of_rings {s t : State} {d : DieIx} (h : (dieOf t d).rings = (dieOf s d).rings) (r : Nat) : ringOf t d r = ringOf s d r := by
  rw [ringOf, h, ringOf]

theorem releaseSlot_next {s : State} {d : DieIx} {r c : Nat} (hhead : c = (ringOf s d r).head) (hnone : (ringOf s d r).released = []) :
    ringOf (releaseSlot d r c s) d r = { ringOf s d r with head := inc32 c } := by
  unfold releaseSlot
  rw [ringOf_updRing_self]
  dsimp only
  rw [hnone, ← hhead]
  change { ringOf s d r with head := (advance 1 c [c]).1, released := (advance 1 c [c]).2 } = _
  rw [advance_next, ← hnone]

theorem releaseSlot_waits {s : State} {d : DieIx} {r c : Nat} (habsent : (ringOf s d r).head ∉ (ringOf s d r).released ++ [c]) :
    ringOf (releaseSlot d r c s) d r = { ringOf s d r with released := (ringOf s d r).released ++ [c] } := by
  unfold releaseSlot
  rw [ringOf_updRing_self]
  dsimp only
  rw [advance_absent habsent]

theorem fillSlot_next {s : State} {d : DieIx} {r c : Nat} (htail : c = (ringOf s d r).tail) (hnone : (ringOf s d r).filled = []) :
    ringOf (fillSlot d r c s) d r = { ringOf s d r with tail := inc32 c } := by
  unfold fillSlot
  rw [ringOf_updRing_self]
  dsimp only
  rw [hnone, ← htail]
  change { ringOf s d r with tail := (advance 1 c [c]).1, filled := (advance 1 c [c]).2 } = _
  rw [advance_next, ← hnone]

/-! Exchanges (R152, R155): what each kind writes. -/

theorem ringOfSession_frame {ws : List Area} {s t : State} (h : Frame ws s t) (hparts : Area.parts ∉ ws) (hfuses : Area.fuses ∉ ws) (p : PartIx)
    (y : Session) : ringOfSession t p y = ringOfSession s p y := by
  have hprimes : t.fuses = s.fuses := h .fuses hfuses
  rw [ringOfSession, chainOf, h.partField hparts (·.chains) (fun _ => rfl), hprimes]
  rfl

section Exchange

variable {s : State} {e : Exch} {y : Session} (hses : sessionOf s e.part e.session = some y)
include hses

theorem deliverExch_opening (hkind : e.kind = .opening) (d : DieIx) : deliverExch d e s =
    putHandle d e.dst 0 ((exchSum (ringOfSession s e.part y) e.m 0 e).flatMap fun v => leBytes 8 v) s := by
  rw [deliverExch, hses]
  dsimp only
  rw [hkind]
  rfl

theorem deliverExch_beaver (hkind : e.kind = .beaver) (d : DieIx) :
    let q := ringOfSession s e.part y
    let dd := exchSum q e.m 0 e
    let ee := exchSum q e.m e.m e
    let z := limbAdd q (limbAdd q e.triple.2.2 (limbMul q dd e.triple.2.1)) (limbMul q ee e.triple.1)
    deliverExch d e s = putHandle d e.dst 0 (shareObject y e.session (Nat.log2 e.m) (if y.self = 0 then limbAdd q z (limbMul q dd ee) else z)) s := by
  intro q dd ee z
  rw [deliverExch, hses]
  dsimp only
  rw [hkind]
  rfl

theorem deliverExch_split (hkind : e.kind = .split) {i : Nat} {h : Nat} {b : List Nat} (hpeers : peersOf y = [i]) (hrecv : e.recv = [h])
    (hgot : e.got = [(i, b)]) (d : DieIx) : deliverExch d e s =
    putHandle d h 0 (shareObject y e.session (Nat.log2 e.m) (b.map (· % ringOfSession s e.part y))) s := by
  rw [deliverExch, hses]
  dsimp only
  rw [hkind, hpeers, hrecv, hgot]
  simp only [List.zip_cons_cons, List.zip_nil_right, List.foldl_cons, List.foldl_nil, List.find?_cons, beq_self_eq_true, Option.map_some, Option.getD_some]
  rfl

end Exchange

/-! Writes to host memory (R272, R399): what is left of a transfer to HOST leaves with its completion. -/

/-- One run of bytes written to host memory by the part's own port. -/
def writeHost (h : HostId) (fn : Nat) (s : State) (r : Nat × List Byte) : State :=
  emit (.hostWrite h fn r.1 r.2 ((hostOf s h).relaxed.contains fn) ((hostOf s h).ats.contains fn)) (requestPages h fn (pagesOf [(r.1, r.2.length)]) s)

theorem writeHost_frame (h : HostId) (fn : Nat) (s : State) (r : Nat × List Byte) : Frame [.hosts, .out] s (writeHost h fn s r) :=
  ((requestPages_frame h fn _ s).then (emit_frame _ _)).mono (by decide)

theorem foldl_writeHost {h : HostId} {fn : Nat} {f : State → Nat × List Byte → State} {p : PartIx}
    (hf : ∀ t r, (partOfIx t p).memberSlot = 0 → f t r = writeHost h fn t r) (l : List (Nat × List Byte)) (s : State)
    (hgw : (partOfIx s p).memberSlot = 0) : l.foldl f s = l.foldl (writeHost h fn) s := by
  induction l generalizing s with
  | nil => rfl
  | cons r l ih =>
    rw [List.foldl_cons, List.foldl_cons, hf s r hgw]
    exact ih _ (((writeHost_frame h fn s r).partField (by decide) (·.memberSlot) (fun _ => rfl) p).trans hgw)

theorem emitHost_near {s : State} {o : Op} {x : Xfer} {j : Job} {h : HostId} {fn : Nat} (hhost : x.host = some (h, fn))
    (hj : jobOf s o.job = some j) (hgw : (partOfIx s j.part).memberSlot = 0) (d : DieIx) (i k : Nat) :
    emitHost d o x i k s = (mergeRuns ((x.hostWrites.take k).drop i)).foldl (writeHost h fn) s := by
  rw [emitHost, hhost, hj]
  refine foldl_writeHost (p := j.part) (fun t r ht => ?_) _ s hgw
  rw [gatewayOf, if_pos ht]
  rfl

theorem requestPages_keepsOut (h : HostId) (fn : Nat) (pages : List Nat) (s : State) : ∀ x ∈ s.out, x ∈ (requestPages h fn pages s).out := by
  intro x hx
  by_cases hats : (hostOf s h).ats.contains fn = true
  · rw [requestPages_eq_foldl hats]
    refine List.foldlRecOn pages (requestPage h fn) (motive := fun t => x ∈ t.out) hx fun t ht g _ => ?_
    rw [requestPage_out]
    split
    · exact ht
    · exact List.mem_append_left _ ht
  · rw [requestPages_none (by simpa using hats)]
    exact hx

theorem writeHost_hostField (h : HostId) (fn : Nat) (s : State) (r : Nat × List Byte) {β : Type} (g : HostPort → β)
    (hg : ∀ (p : HostPort) c m, g { p with cached := c, msixPending := m } = g p) (k : HostId) : g (hostOf (writeHost h fn s r) k) = g (hostOf s k) := by
  rw [writeHost, (emit_frame _ _).hostField (by decide) g (fun p => hg p p.cached []), requestPages_hostField _ _ _ _ g fun p c => hg p c p.msixPending]

theorem writeHosts_hostField (h : HostId) (fn : Nat) (l : List (Nat × List Byte)) (s : State) {β : Type} (g : HostPort → β)
    (hg : ∀ (p : HostPort) c m, g { p with cached := c, msixPending := m } = g p) (k : HostId) :
    g (hostOf (l.foldl (writeHost h fn) s) k) = g (hostOf s k) :=
  List.foldlRecOn l (writeHost h fn) (motive := fun t => g (hostOf t k) = g (hostOf s k)) rfl fun t ht r _ => by
    rw [writeHost_hostField h fn t r g hg, ht]

/-- The write that a run of bytes becomes. -/
def hostWriteOf (h : HostId) (fn : Nat) (s : State) (r : Nat × List Byte) : Output :=
  .hostWrite h fn r.1 r.2 ((hostOf s h).relaxed.contains fn) ((hostOf s h).ats.contains fn)

theorem hostWriteOf_congr {s t : State} {h : HostId} (hrelaxed : (hostOf t h).relaxed = (hostOf s h).relaxed) (hats : (hostOf t h).ats = (hostOf s h).ats)
    (fn : Nat) : hostWriteOf h fn t = hostWriteOf h fn s := by
  funext r
  rw [hostWriteOf, hrelaxed, hats, hostWriteOf]

theorem writeHosts_sends (h : HostId) (fn : Nat) (l : List (Nat × List Byte)) (s : State) :
    (∀ x ∈ s.out, x ∈ (l.foldl (writeHost h fn) s).out) ∧ ∀ r ∈ l, hostWriteOf h fn s r ∈ (l.foldl (writeHost h fn) s).out := by
  induction l generalizing s with
  | nil => exact ⟨fun _ hx => hx, by simp⟩
  | cons r l ih =>
    obtain ⟨hkept, hsent⟩ := ih (writeHost h fn s r)
    have hold (x : Output) (hx : x ∈ s.out) : x ∈ (writeHost h fn s r).out :=
      List.mem_append_left _ (requestPages_keepsOut h fn _ s x hx)
    have hsame : hostWriteOf h fn (writeHost h fn s r) = hostWriteOf h fn s :=
      hostWriteOf_congr (writeHost_hostField h fn s r (·.relaxed) (fun _ _ _ => rfl) h) (writeHost_hostField h fn s r (·.ats) (fun _ _ _ => rfl) h) fn
    refine ⟨fun x hx => hkept x (hold x hx), fun q hq => ?_⟩
    rcases List.mem_cons.mp hq with rfl | hq
    · exact hkept _ (List.mem_append_right _ (List.mem_singleton_self _))
    · exact hsame ▸ hsent q hq

theorem writeHosts_out {h : HostId} {fn : Nat} {s : State} (hats : (hostOf s h).ats.contains fn = false) (l : List (Nat × List Byte)) :
    (l.foldl (writeHost h fn) s).out = s.out ++ l.map (hostWriteOf h fn s) := by
  induction l generalizing s with
  | nil => exact (List.append_nil _).symm
  | cons r l ih =>
    have hkept := writeHost_hostField h fn s r (·.ats) (fun _ _ _ => rfl) h
    have hsame : hostWriteOf h fn (writeHost h fn s r) = hostWriteOf h fn s :=
      hostWriteOf_congr (writeHost_hostField h fn s r (·.relaxed) (fun _ _ _ => rfl) h) hkept fn
    have hone : (writeHost h fn s r).out = s.out ++ [hostWriteOf h fn s r] := by
      rw [writeHost, requestPages_none hats]
      rfl
    rw [List.foldl_cons, ih (by rw [hkept]; exact hats), hone, hsame, List.append_assoc]
    rfl

section Completing

variable {s : State} {d : DieIx} {op : Nat} {o : Op} (hop : opOf s d op = some o)
include hop

/-- An operation that something blocks stays as it is. -/
theorem operationComplete_blocked (hblocked : opBlocked s d o = true) : exec (.operationComplete d op) s = .next s := by
  change execOperationComplete d op s = _
  unfold execOperationComplete
  rw [hop]
  dsimp only
  rw [hblocked]
  rfl

theorem operationComplete_free (hfree : opBlocked s d o = false) : exec (.operationComplete d op) s =
    .next (match o.xfer with | some x => finishXfer d o x s | none => finishOp d o s) := by
  change execOperationComplete d op s = _
  unfold execOperationComplete
  rw [hop]
  dsimp only
  rw [hfree]
  rfl

theorem finishOp_deliverOp (hcoll : o.coll = none) (t : State) :
    finishOp d o t = startTongs d (raiseFlag o.flag (dropOp d op (deliverOp d o (settleStalls d o t)))) := by
  unfold finishOp
  rw [hcoll, id_of_opOf hop]
  rfl

section Operation

variable (hfree : opBlocked s d o = false) (hungrouped : Ungrouped op s) (hxfer : o.xfer = none) (hcoll : o.coll = none)
include hfree hungrouped hxfer hcoll

theorem operation_ended {f : State → Prop} (hwrite : Delivers d op (settleStalls d o s) (deliverOp d o (settleStalls d o s)))
    (hf : ∀ u, Frame endAreas s u → (dieOf u d).rings = (dieOf (deliverOp d o (settleStalls d o s)) d).rings →
      (dieOf u d).scratch = (dieOf (deliverOp d o (settleStalls d o s)) d).scratch → f u) : Ended s d op o f := by
  refine ended_of (.refl d op s) (settleStalls_settled d o s) hwrite hungrouped ?_ hf
  rw [operationComplete_free hop hfree, hxfer, finishOp_deliverOp hop hcoll]

/-- An operation that delivers nothing and holds no slot. -/
theorem plainOperation_ended (hexch : o.exch = none) (htakes : o.takes = []) : Ended s d op o fun u =>
    (dieOf u d).rings = (dieOf s d).rings ∧ (dieOf u d).scratch = (dieOf s d).scratch ∧ Frame endAreas s u := by
  have hdeliver : deliverOp d o (settleStalls d o s) = settleStalls d o s := by
    rw [deliverOp, hexch, htakes]
    rfl
  refine operation_ended hop hfree hungrouped hxfer hcoll (by rw [hdeliver]; exact .refl _ _ _) fun u hframe hrings hscratch => ?_
  rw [hdeliver] at hrings hscratch
  exact ⟨hrings.trans (settleStalls_field Die.rings fun _ => rfl), hscratch.trans (settleStalls_field Die.scratch fun _ => rfl), hframe⟩

/-- An operation that took a ring slot releases it (R245). -/
theorem slotOperation_ended (hexch : o.exch = none) {r c : Nat} (htakes : o.takes = [(r, c)]) : Ended s d op o fun u =>
    (dieOf u d).scratch = (dieOf s d).scratch ∧ Frame endAreas s u ∧ (∀ k, k ≠ r → ringOf u d k = ringOf s d k) ∧
    (c = (ringOf s d r).head → (ringOf s d r).released = [] → ringOf u d r = { ringOf s d r with head := inc32 c }) ∧
    ((ringOf s d r).head ∉ (ringOf s d r).released ++ [c] → ringOf u d r = { ringOf s d r with released := (ringOf s d r).released ++ [c] }) := by
  have hdeliver : deliverOp d o (settleStalls d o s) = releaseSlot d r c (settleStalls d o s) := by
    rw [deliverOp, hexch, htakes]
    rfl
  refine operation_ended hop hfree hungrouped hxfer hcoll (by rw [hdeliver]; exact .updRing ..) fun u hframe hrings hscratch => ?_
  rw [hdeliver] at hrings hscratch
  have hkept (k : Nat) : ringOf (settleStalls d o s) d k = ringOf s d k := ringOf_of_rings (settleStalls_field Die.rings fun _ => rfl) k
  have hmemory : (dieOf (releaseSlot d r c (settleStalls d o s)) d).scratch = (dieOf (settleStalls d o s) d).scratch := by
    rw [releaseSlot, updRing, dieOf_updDie_self]
  refine ⟨(hscratch.trans hmemory).trans (settleStalls_field Die.scratch fun _ => rfl), hframe, fun k hk => ?_, fun hhead hnone => ?_, fun habsent => ?_⟩
  · rw [ringOf_of_rings hrings, releaseSlot, ringOf_updRing_ne _ _ (.inr hk), hkept]
  · rw [ringOf_of_rings hrings, releaseSlot_next (by rw [hkept]; exact hhead) (by rw [hkept]; exact hnone), hkept]
  · rw [ringOf_of_rings hrings, releaseSlot_waits (by rw [hkept]; exact habsent), hkept]

/-- A share exchange that is ready writes what it opened (R152, R155). -/
theorem exchange_ended {e : Exch} (hexch : o.exch = some e) (htakes : o.takes = []) {h : Nat} {bs : List Byte}
    (hwrite : deliverExch d e (settleStalls d o s) = putHandle d h 0 bs (settleStalls d o s)) : Ended s d op o fun u =>
    Frame endAreas s u ∧ (dieOf u d).scratch = memPut (dieOf s d).scratch ((handleOf s d h).base * 288) bs := by
  have hdeliver : deliverOp d o (settleStalls d o s) = putHandle d h 0 bs (settleStalls d o s) := by
    rw [deliverOp, hexch, htakes]
    exact hwrite
  refine operation_ended hop hfree hungrouped hxfer hcoll (by rw [hdeliver]; exact .putHandle ..) fun u hframe hrings hscratch => ⟨hframe, ?_⟩
  have hbase : handleOf (settleStalls d o s) d h = handleOf s d h := (settleStalls_settled d o s).frame.handleOf (by decide) d h
  rw [hscratch, hdeliver, putHandle, dieOf_updDie_self, hbase]
  dsimp only
  rw [settleStalls_field Die.scratch fun _ => rfl, Nat.add_zero, rowBytes]

end Operation

/-! #### A transfer that ends (R245, R258, R272) -/

/-- A transfer into a ring whose data stands in its slot fills the slot (R244). -/
theorem fill_ended {x : Xfer} (hfree : opBlocked s d o = false) (hungrouped : Ungrouped op s) (hx : o.xfer = some x) (hexch : o.exch = none)
    (hcoll : o.coll = none) (htakes : o.takes = []) {r c : Nat} (hfills : o.fills = [(r, c)]) (hplans : x.plans = []) (hspace : x.dst.space = 2)
    (hflag : x.remoteFlag = none) (htail : c = (ringOf s d r).tail) (hnone : (ringOf s d r).filled = []) : Ended s d op o fun u =>
    ringOf u d r = { ringOf s d r with tail := inc32 c } ∧ (∀ k, k ≠ r → ringOf u d k = ringOf s d k) ∧ Frame endAreas s u := by
  let f (o : Op) : Op := { o with fills := [], xfer := o.xfer.map fun x => { x with placed := false } }
  let s₀ := updOp d op f (fillSlot d r c s)
  have hstart : Delivers d op s s₀ := .trans (.updRing ..) (.updOp (f := f) (fun _ => rfl) _)
  have hdeliver (t : State) : deliverOp d o t = t := by
    rw [deliverOp, hexch, htakes]
    rfl
  refine ended_of hstart (settleStalls_settled d o s₀) (.refl _ _ _) hungrouped ?_ fun u hframe hrings _ => ?_
  · rw [operationComplete_free hop hfree, hx]
    dsimp only
    unfold finishXfer
    rw [hfills, hplans, hspace, hflag, id_of_opOf hop]
    have hfinish := finishOp_deliverOp hop hcoll s₀
    rw [hdeliver] at hfinish
    exact congrArg Host.Outcome.next hfinish
  · have hring (k : Nat) : ringOf u d k = ringOf (fillSlot d r c s) d k := by
      rw [ringOf, hrings, settleStalls_field Die.rings fun _ => rfl, (updOp_opsOnly d op f _).field Die.rings fun _ => rfl]
      rfl
    refine ⟨(hring r).trans (fillSlot_next htail hnone), fun k hk => (hring k).trans ?_, hframe⟩
    rw [fillSlot, ringOf_updRing_ne _ _ (.inr hk)]

/-- A transfer to HOST writes the runs that it has left, and ends (R272). -/
theorem hostTransfer_ends {x : Xfer} {j : Job} {h : HostId} {fn : Nat} (hfree : opBlocked s d o = false) (hungrouped : Ungrouped op s)
    (hx : o.xfer = some x) (hexch : o.exch = none) (hcoll : o.coll = none) (htakes : o.takes = []) (hfills : o.fills = []) (hplans : x.plans = [])
    (hspace : x.dst.space = 4) (hcursor : x.cursor < x.hostWrites.length) (hhost : x.host = some (h, fn)) (hj : jobOf s o.job = some j)
    (hgw : (partOfIx s j.part).memberSlot = 0) (hidle : ∀ r ∈ s.fabric.requests, r.op ≠ op) :
    ∃ u, exec (.operationComplete d op) s = .next (startTongs d (raiseFlag o.flag u)) ∧
      (dieOf u d).ops = (dieOf s d).ops.filter (·.id != op) ∧ Frame (.hosts :: endAreas) s u ∧
      (∀ r ∈ mergeRuns (x.hostWrites.drop x.cursor), hostWriteOf h fn s r ∈ u.out) ∧
      ((hostOf s h).ats.contains fn = false → usesRows o = false →
        u.out = s.out ++ (mergeRuns (x.hostWrites.drop x.cursor)).map (hostWriteOf h fn s)) := by
  let f (o : Op) : Op := { o with fills := [], xfer := o.xfer.map fun x => { x with placed := false } }
  let s₀ := updOp d op f s
  let runs := mergeRuns (x.hostWrites.drop x.cursor)
  let s₁ := runs.foldl (writeHost h fn) s₀
  let s₂ := updXfer d op (fun y => { y with cursor := y.hostWrites.length }) s₁
  have hstart : Delivers d op s s₀ := .updOp (f := f) (fun _ => rfl) s
  have hwrites : Frame [.hosts, .out] s₀ s₁ := .foldl (fun t r => writeHost_frame h fn t r) runs s₀
  have hcur := updXfer_opsOnly d op (fun y => { y with cursor := y.hostWrites.length }) s₁
  have hframe₂ : Frame [.dies, .hosts, .out] s s₂ := ((hstart.frame.then hwrites).then hcur.frame).mono (by decide)
  have hfabric₂ : s₂.fabric = s.fabric := hframe₂ .fabric (by decide)
  have hport {β : Type} (g : HostPort → β) (hg : ∀ (p : HostPort) c m, g { p with cached := c, msixPending := m } = g p) (k : HostId) :
      g (hostOf s₂ k) = g (hostOf s k) := by
    rw [hcur.frame.hostField (by decide) g fun p => hg p p.cached [], writeHosts_hostField h fn runs s₀ g hg,
      hstart.frame.hostField (by decide) g fun p => hg p p.cached []]
  have hungrouped₂ : Ungrouped op s₂ := by
    refine ⟨fun k g hg => ?_, fun g hg => ?_⟩
    · rw [hport (·.groups) fun _ _ _ => rfl] at hg
      exact hungrouped.1 k g hg
    · rw [hfabric₂] at hg
      exact hungrouped.2 g hg
  have hstalls := settleStalls_settled d o s₂
  have hleft := dropOp_left (hungrouped₂.of_frame hstalls.frame (by decide) (by decide)) d
  have hdeliver (t : State) : deliverOp d o t = t := by
    rw [deliverOp, hexch, htakes]
    rfl
  have hemit : emitHost d o x x.cursor x.hostWrites.length s₀ = s₁ := by
    rw [emitHost_near hhost ((hstart.frame.jobOf (by decide) o.job).trans hj)
      ((hstart.frame.partField (by decide) (·.memberSlot) (fun _ => rfl) j.part).trans hgw), List.take_length]
  have hrequests : reqsOf s₂ d op .write = [] := by
    rw [reqsOf, hfabric₂]
    exact List.filter_eq_nil_iff.mpr fun r hr => by simp [hidle r hr]
  have hexec : exec (.operationComplete d op) s = .next (startTongs d (raiseFlag o.flag (dropOp d op (settleStalls d o s₂)))) := by
    have hfinish := finishOp_deliverOp hop hcoll s₂
    rw [hdeliver] at hfinish
    rw [operationComplete_free hop hfree, hx, ← hfinish]
    dsimp only
    unfold finishXfer
    rw [hfills, hplans, id_of_opOf hop]
    dsimp only [List.foldl_nil]
    rw [if_pos (by simp [hspace, hcursor])]
    change Host.Outcome.next (if (reqsOf (updXfer d op _ (emitHost d o x x.cursor x.hostWrites.length s₀)) d op .write).isEmpty = true then _ else _) = _
    rw [hemit, if_pos (by rw [hrequests]; rfl)]
  have hops : (dieOf s₂ d).ops.filter (·.id != op) = (dieOf s d).ops.filter (·.id != op) :=
    ((Delivers.updOp (op := op) (f := fun o => { o with xfer := o.xfer.map fun y => { y with cursor := y.hostWrites.length } }) (by exact fun _ => rfl) s₁).ops.trans
      (congrArg (List.filter _) (hwrites.dieField (by decide) Die.ops (fun _ => rfl) d))).trans hstart.ops
  have hsent : hostWriteOf h fn s₀ = hostWriteOf h fn s :=
    hostWriteOf_congr (hstart.frame.hostField (by decide) (·.relaxed) (fun _ => rfl) h) (hstart.frame.hostField (by decide) (·.ats) (fun _ => rfl) h) fn
  have hlast : Frame [.dies, .fabric] (settleStalls d o s₂) (dropOp d op (settleStalls d o s₂)) := hleft.frame
  have hout : (dropOp d op (settleStalls d o s₂)).out = (settleStalls d o s₂).out := hlast .out (by decide)
  have hout₂ : s₂.out = s₁.out := hcur.frame .out (by decide)
  have hout₀ : s₀.out = s.out := hstart.frame .out (by decide)
  refine ⟨_, hexec, ?_, ((hframe₂.then hstalls.frame).then hleft.frame).mono (by decide), fun r hr => ?_, fun hats hrows => ?_⟩
  · rw [hleft.here]
    exact (congrArg (List.filter _) (settleStalls_field Die.ops fun _ => rfl)).trans hops
  · rw [hout]
    refine settleStalls_keepsOut d o s₂ _ ?_
    rw [hout₂, ← hsent]
    exact (writeHosts_sends h fn runs s₀).2 r hr
  · rw [hout, hstalls.rowless hrows, hout₂, writeHosts_out (by rw [hstart.frame.hostField (by decide) (·.ats) fun _ => rfl]; exact hats), hout₀, hsent]

end Completing

/-- Settles O38: what completion does, by what the operation is. -/
theorem operationsComplete : Obligations.OperationsComplete := by
  unfold Obligations.OperationsComplete
  refine fun s d op o hop => ⟨operationComplete_blocked hop, fun hfree hgroups hbench => ?_⟩
  have hungrouped : Ungrouped op s := ⟨hgroups, hbench⟩
  refine ⟨fun hxfer hexch hcoll => ⟨fun htakes => plainOperation_ended hop hfree hungrouped hxfer hcoll hexch htakes,
      fun r c htakes => slotOperation_ended hop hfree hungrouped hxfer hcoll hexch htakes⟩,
    fun e y hxfer hexch hcoll htakes hses => ?_, fun x j h fn hx hexch hcoll htakes hfills hplans hspace hcursor hhost hj hgw hidle => ?_,
    fun x r c hx hexch hcoll htakes hfills hplans hspace hflag htail hnone =>
      fill_ended hop hfree hungrouped hx hexch hcoll htakes hfills hplans hspace hflag htail hnone⟩
  · have hframe := (settleStalls_settled d o s).frame
    have hsession : sessionOf (settleStalls d o s) e.part e.session = some y := by
      rw [sessionOf, hframe.partField (by decide) (·.sessions) fun _ => rfl]
      exact hses
    have hring := ringOfSession_frame hframe (by decide) (by decide) e.part y
    have writes {h : Nat} {bs : List Byte} := exchange_ended (h := h) (bs := bs) hop hfree hungrouped hxfer hcoll hexch htakes
    refine ⟨fun hkind => writes ?_, fun hkind => writes ?_, fun i h b hkind hpeers hrecv hgot => writes ?_⟩
    · rw [deliverExch_opening hsession hkind, hring]
    · rw [← hring]
      exact deliverExch_beaver hsession hkind d
    · rw [deliverExch_split hsession hkind hpeers hrecv hgot, hring]
  · exact hostTransfer_ends hop hfree hungrouped hx hexch hcoll htakes hfills hplans hspace hcursor hhost hj hgw hidle

end Sys2Proof.Machine

namespace Sys2Proof.Machine

/-! ### O45: collectives (R371 to R376) -/

/-! #### What instructions read of dies, where a step leaves them -/

section Reads

variable {ws : List Area} {s t : State} (h : Frame ws s t) (hdies : Area.dies ∉ ws)
include h hdies

theorem Frame.storeOf (d : DieIx) (k : Nat) : storeOf t d k = storeOf s d k := by
  rw [Machine.storeOf, h.dieField hdies Die.storeHandles (fun _ => rfl) d, Machine.storeOf]

theorem Frame.ringOf (d : DieIx) (r : Nat) : ringOf t d r = ringOf s d r := by
  rw [Machine.ringOf, h.dieField hdies Die.rings (fun _ => rfl) d, Machine.ringOf]

theorem Frame.descMem (x : Desc) (slot k : Nat) : Desc.mem t x slot k = Desc.mem s x slot k := by
  simp only [Desc.mem, h.storeOf hdies, h.ringOf hdies, h.handleOf hdies, h.scratch hdies, h.dieField hdies Die.store fun _ => rfl]

theorem Frame.handleBytes (d : DieIx) (k o n : Nat) : handleBytes t d k o n = handleBytes s d k o n := by
  rw [Machine.handleBytes, h.scratch hdies, h.handleOf hdies, Machine.handleBytes]

theorem Frame.denseBytes (x : Desc) : denseBytes t x = denseBytes s x := by
  rw [Machine.denseBytes, h.descMem hdies, Machine.denseBytes]

theorem Frame.objHead (x : Desc) (slot : Nat) : objHead t x slot = objHead s x slot := by
  rw [Machine.objHead, h.descMem hdies, Machine.objHead]

theorem Frame.descPoison (x : Desc) : x.poison t = x.poison s := by
  simp only [Desc.poison, h.storeOf hdies, h.ringOf hdies, h.handleOf hdies]

theorem Frame.handlesPoison (d : DieIx) (ks : List Nat) : handlesPoison t d ks = handlesPoison s d ks := by
  simp only [Machine.handlesPoison, h.handleOf hdies]

theorem Frame.collTable (d : DieIx) (k : Nat) : collTable t d k = collTable s d k := by
  rw [Machine.collTable, h.handleBytes hdies, h.handleOf hdies, Machine.collTable]

theorem Frame.collFits (d : DieIx) (k : Nat) : collFits t d k = collFits s d k := by
  rw [Machine.collFits, h.handleBytes hdies, h.handleOf hdies, Machine.collFits]

end Reads

/-- A verdict list passes where each passes. -/
theorem firstFail_pass {l : List Verdict} (h : ∀ v ∈ l, v = .pass) : firstFail l = .pass := by
  induction l with
  | nil => rfl
  | cons v l ih =>
    rw [h v (List.mem_cons_self ..)]
    exact ih fun w hw => h w (List.mem_cons_of_mem _ hw)

theorem handlesPoison_clean {s : State} {d : DieIx} {k : Nat} (h : (handleOf s d k).poisoned = false) : handlesPoison s d [k] = .pass := by
  have hpe : (handleOf s d k).pe = none := by simp [Handle.pe, h]
  simp [handlesPoison, hpe]

/-! #### A member starts its part (R372) -/

/-- The operation of a collective, as it goes in flight. -/
def collOp (a : Site) (j : Job) (c : Coll) (ds srcs : List Dest) : Op :=
  { opZero 0 j.id a.queue a.off 9 with dests := ds, srcs := srcs, coll := some c }

theorem startColl_started {s : State} {a : Site} {j : Job} {es : List SbEntry} (m : Nat) (c : Coll) (ds srcs : List Dest) :
    ∃ u, startColl a j c ds srcs es (count a.die 2 m s) =
        collControl a.die (partOfIx s j.part).fabricKey { c with draw := s.free % 2 ^ 64 } (collHello { c with draw := s.free % 2 ^ 64 }) u ∧
      (∃ o, InFlight a j 9 es o s u ∧ o.coll = some { c with draw := s.free % 2 ^ 64 }) ∧ u.free = s.free + 1 ∧
      { dieOf u a.die with ops := [], scoreboard := [], counters := [] } = { dieOf s a.die with ops := [], scoreboard := [], counters := [] } ∧
      Frame [.dies, .counters, .jobs, .nextId, .free] s u := by
  let m₀ : State := { count a.die 2 m s with free := s.free + 1 }
  let o := collOp a j { c with draw := s.free % 2 ^ 64 } ds srcs
  have hm : Frame [.counters, .free] s m₀ := (count_frame a.die 2 m s).then (fields_frame (ws := [.free]))
  have hstart := startOp_frame a.die o es m₀
  have hin : InFlight a j 9 es { o with id := s.nextId } m₀ (startOp a.die o es m₀) := startOp_inFlight (s := m₀) (o := o) es rfl rfl rfl
  have hjobs : m₀.jobs = s.jobs := rfl
  refine ⟨startOp a.die o es m₀, ?_, ⟨{ o with id := s.nextId }, ?_, rfl⟩, ?_, ?_, (hm.then hstart).mono (by decide)⟩
  · have hkey : (partOfIx (startOp a.die o es m₀) j.part).fabricKey = (partOfIx s j.part).fabricKey :=
      (hm.then hstart).partField (by decide) (·.fabricKey) (fun _ => rfl) j.part
    rw [← hkey]
    rfl
  · obtain ⟨hops, hscoreboard, hnext, hothers, hrest, hother⟩ := hin
    refine ⟨⟨?_, hops.2⟩, ?_, hnext, fun e he => ?_, hrest, hother⟩
    · rw [hops.1, hm.dieField (by decide) Die.ops fun _ => rfl]
    · rw [hscoreboard, hm.dieField (by decide) Die.scoreboard fun _ => rfl]
      rfl
    · exact (hothers e he).trans (hm .dies (by decide) e)
  · exact hstart .free (by decide)
  · rw [dieOf_startOp, dieOf_updDie_self]
    exact congrArg (fun x : Die => { x with ops := [], scoreboard := [] }) (hm .dies (by decide) a.die)

section Start

variable {s : State} {a : Site} {j : Job} {op src dst coll : Nat} {x z : Desc} {es : List SbEntry}

/-- What a member starts with, the draw apart. -/
def collStart (s : State) (a : Site) (j : Job) (coll : Nat) (x z : Desc) : Coll :=
  collOf j (collTable s a.die coll) (some x) (some z) (denseBytes s x) (if x.kind = 0 then bytesAt (denseBytes s x) 0 64 else [])
    (x.kind == 0 && (objHead s x 0).degraded)

theorem issueColl_begins (h : CollBegins s a op src dst coll j x z es) : ∃ m,
    issueColl a op src dst coll j s = .done (startColl a j (collStart s a j coll x z) (descDests s a.die [dst]) x.dests es (count a.die 2 m s)) := by
  obtain ⟨hready, hunlisted, ⟨hx, hz, hxr, hzr, hxe, hze, hkind, hstride, hsecret⟩, ⟨huse, hclean, hfits, hsound⟩, hmembers,
    ⟨hred, hcounts⟩, hwindow, ⟨hpoison, hheader⟩, m, hadmit⟩ := h
  have hcount := count_frame a.die 2 m s
  refine ⟨m, ?_⟩
  have hsecond : firstFail [handlesPoison (count a.die 2 m s) a.die [coll],
      failIf (!(collFits (count a.die 2 m s) a.die coll) || !(collSound (count a.die 2 m s) a.die op (collTable (count a.die 2 m s) a.die coll))) (.refuse 0x0105 0x0105),
      collMembers (count a.die 2 m s) j (collHead (collTable (count a.die 2 m s) a.die coll)),
      failIf (!(redType (collHead (collTable (count a.die 2 m s) a.die coll)).red x) ||
        (x.kind != 0 && (x.elems != (collCounts (collHead (collTable (count a.die 2 m s) a.die coll))).1 ||
          z.elems != (collCounts (collHead (collTable (count a.die 2 m s) a.die coll))).2))) (.skip 0x0102),
      collWindow (count a.die 2 m s) j (collHead (collTable (count a.die 2 m s) a.die coll)) (elemBytes x x.elems)] = .pass := by
    rw [hcount.collTable (by decide), hcount.collFits (by decide), hcount.handlesPoison (by decide)]
    refine firstFail_pass fun v hv => ?_
    simp only [List.mem_cons, List.not_mem_nil, or_false] at hv
    rcases hv with rfl | rfl | rfl | rfl | rfl
    · exact handlesPoison_clean hclean
    · have hsame : collSound (count a.die 2 m s) a.die op (collTable s a.die coll) = true := hsound
      simp [hfits, hsame, failIf]
    · exact hmembers
    · rcases hcounts with hobj | ⟨hfrom, hto⟩
      · simp [hred, hobj, failIf]
      · simp [hred, hfrom, hto, failIf]
    · exact hwindow
  have hnote : noteWeight a.die j x (count a.die 2 m s) = count a.die 2 m s := by simp [noteWeight, hunlisted]
  have hwhole : (x.poison (count a.die 2 m s)).or (if x.kind = 0 && (if x.kind = 0 then objHead (count a.die 2 m s) x 0 else headerZero).poisoned
      then some 0x0107 else none) = none := by
    rw [hcount.descPoison (by decide), hcount.objHead (by decide), hpoison]
    by_cases hobj : x.kind = 0
    · simp [hobj, hheader hobj]
    · simp [hobj]
  have hown : collOf j (collTable (count a.die 2 m s) a.die coll) (some x) (some z) (denseBytes (count a.die 2 m s) x)
      (if x.kind = 0 then bytesAt (denseBytes (count a.die 2 m s) x) 0 64 else [])
      (x.kind == 0 && (if x.kind = 0 then objHead (count a.die 2 m s) x 0 else headerZero).degraded) = collStart s a j coll x z := by
    rw [hcount.collTable (by decide), hcount.denseBytes (by decide), hcount.objHead (by decide), collStart]
    by_cases hobj : x.kind = 0
    · simp [hobj]
    · simp [hobj, beq_eq_false_iff_ne.mpr hobj]
  unfold issueColl
  dsimp only
  rw [hx, hz]
  dsimp only
  rw [firstFail_pass (l := [_, _, _, _, _, _, _]) (by simp [huse, hxr, hzr, hxe, hze, hkind, hstride, hsecret, failIf]), if_neg (by decide),
    withScoreboard_admitted hready.fresh hadmit]
  rw [hsecond, if_neg (by decide), hnote, hown, hwhole]

/-- What a member that starts with data is seen to do (R372). -/
def CollStarted (s : State) (a : Site) (j : Job) (c : Coll) (es : List SbEntry) (u : State) : Prop :=
  (∃ o, InFlight a j 9 es o s u ∧ o.coll = some c) ∧ u.free = s.free + 1 ∧
    { dieOf u a.die with ops := [], scoreboard := [], counters := [] } = { dieOf s a.die with ops := [], scoreboard := [], counters := [] } ∧
    Frame [.dies, .counters, .jobs, .nextId, .free] s u

theorem collective_begins {i : Instr} (h : CollBegins s a op src dst coll j x z es)
    (hexec : exec i s = .next (runInstr a i (issueColl a op src dst coll) s)) :
    let c := { collStart s a j coll x z with draw := s.free % 2 ^ 64 }
    ∃ u, exec i s = .next (collControl a.die (partOfIx s j.part).fabricKey c (collHello c) u) ∧ CollStarted s a j c es u := by
  obtain ⟨m, hissue⟩ := issueColl_begins h
  obtain ⟨u, hstart, hdone⟩ := startColl_started (s := s) (a := a) (j := j) (es := es) m (collStart s a j coll x z) (descDests s a.die [dst]) x.dests
  exact ⟨u, by rw [hexec, runInstr_done h.ready hissue, hstart], hdone⟩

theorem barrier_begins (hready : Ready s a j) (huse : handleUse s a.die coll = none) (hclean : (handleOf s a.die coll).poisoned = false)
    (hfits : collFits s a.die coll = true) (hsound : collSound s a.die 5 (collTable s a.die coll) = true)
    (hmembers : collMembers s j (collHead (collTable s a.die coll)) = .pass) (hwindow : collWindow s j (collHead (collTable s a.die coll)) 0 = .pass)
    (hadmit : ∃ m, sbAdmit s a.die [handleRange s a.die coll 0 (handleOf s a.die coll).rows false] = some (es, m)) :
    let c := { collOf j (collTable s a.die coll) none none [] [] false with draw := s.free % 2 ^ 64 }
    ∃ u, exec (.barrier a coll) s = .next (collControl a.die (partOfIx s j.part).fabricKey c (collHello c) u) ∧ CollStarted s a j c es u := by
  obtain ⟨m, hadmit⟩ := hadmit
  have hcount := count_frame a.die 2 m s
  have hissue : issueBarrier a coll j s =
      .done (startColl a j (collOf j (collTable s a.die coll) none none [] [] false) [] [] es (count a.die 2 m s)) := by
    have hsame : collSound (count a.die 2 m s) a.die 5 (collTable s a.die coll) = true := hsound
    have hsecond : firstFail [handlesPoison s a.die [coll],
        failIf (!(collFits s a.die coll) || !(collSound (count a.die 2 m s) a.die 5 (collTable s a.die coll))) (.refuse 0x0105 0x0105),
        collMembers (count a.die 2 m s) j (collHead (collTable s a.die coll)),
        collWindow (count a.die 2 m s) j (collHead (collTable s a.die coll)) 0] = .pass := by
      refine firstFail_pass fun v hv => ?_
      simp only [List.mem_cons, List.not_mem_nil, or_false] at hv
      rcases hv with rfl | rfl | rfl | rfl
      · exact handlesPoison_clean hclean
      · simp [hfits, hsame, failIf]
      · exact hmembers
      · exact hwindow
    unfold issueBarrier
    dsimp only
    rw [huse]
    dsimp only
    rw [withScoreboard_admitted hready.fresh hadmit, hcount.collTable (by decide), hcount.collFits (by decide), hcount.handlesPoison (by decide),
      hsecond, if_neg (by decide)]
  obtain ⟨u, hstart, hdone⟩ := startColl_started (s := s) (a := a) (j := j) (es := es) m (collOf j (collTable s a.die coll) none none [] [] false) [] []
  refine ⟨u, ?_, hdone⟩
  change ok (runInstr a (.barrier a coll) (issueBarrier a coll) s) = _
  rw [runInstr_done hready hissue, hstart]

end Start

/-! #### Messages of other members (R373, R374, R376) -/

theorem opOf_updColl_self {s : State} {d : DieIx} {id : Nat} {o : Op} {c : Coll} (hop : opOf s d id = some o) (hcoll : o.coll = some c) (f : Coll → Coll) :
    opOf (updColl d id f s) d id = some { o with coll := some (f c) } := by
  unfold updColl
  rw [opOf_updOp_self s (by exact fun _ => rfl), hop, Option.map_some, hcoll]
  rfl

theorem opOf_wakeDie (e : DieIx) (s : State) (d : DieIx) (id : Nat) : opOf (wakeDie e s) d id = opOf s d id := by
  rw [opOf, dieOf_wakeDie]
  rfl

theorem putHandle_memoryOnly (d : DieIx) (h o : Nat) (bs : List Byte) (s : State) : MemoryOnly s (putHandle d h o bs s) :=
  .updDie d (fun x => { x with scratch := memPut x.scratch ((handleOf s d h).base * rowBytes + o) bs }) s rfl rfl

/-- A collective that fails tells the other members first (R374). -/
theorem failColl_failed {v : State} {o : Op} {c : Coll} {j : Job} (hcoll : o.coll = some c) (hv : jobOf v o.job = some j) (d : DieIx) (e : Ev) :
    OpFailed d o j 9 e (collControl d (partOfIx v j.part).fabricKey c (leBytes 1 1 ++ leBytes 2 e.toNat) v) (failColl d o e v) := by
  have hframe := collControl_frame d (partOfIx v j.part).fabricKey c (leBytes 1 1 ++ leBytes 2 e.toNat) v
  unfold failColl
  rw [hcoll, hv]
  exact failOp_failed ((hframe.jobOf (by decide) o.job).trans hv) d 9 e

section Messages

variable {s v : State} {n : PortIx} {p : Packet} {o : Op} {c : Coll} {r : Nat} {j : Job}
  (hop : opOf s p.dstDie o.id = some o) (hcoll : o.coll = some c) (hrank : senderRank c p = some r) (hj : jobOf s o.job = some j)

section Data

variable (htake : takeArrived (fun x => x.2.ptype == 7 && ((dataColl s x.2).isSome || !(windowOf s x.2.window).opened)) s = some ((n, p), v))
  (hdata : dataColl s p = some (o, c))
include hrank htake hdata

/-- A COLL_DATA message for a collective, its bytes at their place in the window. -/
theorem collData_eq : exec .collData s = .next (
    let w := windowOf s p.window
    if w.length < p.offset.toNat + p.data.length then v
    else wakeDie p.dstDie (updColl p.dstDie o.id (fun c => { c with contrib := addContrib r p.data c.contrib })
      (if w.store then putStore w.dieIx w.handle (w.base + p.offset.toNat) p.data v
       else putHandle w.dieIx w.handle (w.base + p.offset.toNat) p.data v))) := by
  have hv := takeArrived_some htake
  have hsame : dataColl v p = some (o, c) := by rw [hv]; exact hdata
  have hwindow : windowOf v p.window = windowOf s p.window := by rw [hv]; rfl
  change execCollData s = _
  unfold execCollData
  dsimp only
  rw [htake]
  dsimp only
  rw [hsame]
  dsimp only
  rw [hrank]
  dsimp only
  rw [hwindow]

theorem collData_outside (hlen : (windowOf s p.window).length < p.offset.toNat + p.data.length) : exec .collData s = .next v := by
  rw [collData_eq hrank htake hdata]
  dsimp only
  rw [if_pos hlen]

include hop hcoll

theorem collData_joins (hmem : memsOk s) (hlen : p.offset.toNat + p.data.length ≤ (windowOf s p.window).length)
    (hstore : (windowOf s p.window).store = false) :
    let w := windowOf s p.window
    ∃ t, exec .collData s = .next t ∧
      opOf t p.dstDie o.id = some { o with coll := some { c with contrib := addContrib r p.data c.contrib } } ∧
      Wrote (dieOf s w.dieIx).scratch (dieOf t w.dieIx).scratch ((handleOf s w.dieIx w.handle).base * 288 + (w.base + p.offset.toNat)) p.data ∧
      t.fabric = { s.fabric with arrived := s.fabric.arrived.erase (n, p) } ∧ Frame [.dies, .fabric] s t := by
  intro w
  have hv := takeArrived_some htake
  have hvframe : Frame [.fabric] s v := by rw [hv]; exact fields_frame
  let m := putHandle w.dieIx w.handle (w.base + p.offset.toNat) p.data v
  let u := updColl p.dstDie o.id (fun c => { c with contrib := addContrib r p.data c.contrib }) m
  have hput : MemoryOnly v m := putHandle_memoryOnly ..
  have hjoin : OpsOnly m u := updOp_opsOnly ..
  have hwake := wakeDie_frame p.dstDie u
  have hwrote : Wrote (dieOf s w.dieIx).scratch (dieOf m w.dieIx).scratch ((handleOf s w.dieIx w.handle).base * 288 + (w.base + p.offset.toNat)) p.data := by
    have h := putHandle_wrote (s := v) (d := w.dieIx) (by rw [hvframe.scratch (by decide)]; exact (hmem.1 w.dieIx).1) w.handle (w.base + p.offset.toNat) p.data
    rwa [hvframe.scratch (by decide), hvframe.handleOf (by decide)] at h
  refine ⟨wakeDie p.dstDie u, ?_, ?_, ?_, ?_, (((hvframe.then hput.frame).then hjoin.frame).then hwake).mono (by decide)⟩
  · rw [collData_eq hrank htake hdata]
    dsimp only
    rw [if_neg (Nat.not_lt.mpr hlen), hstore]
    rfl
  · rw [opOf_wakeDie]
    exact opOf_updColl_self ((hput.opOf _ _).trans ((hvframe.opOf (by decide) _ _).trans hop)) hcoll _
  · rw [dieOf_wakeDie]
    change Wrote _ (dieOf u w.dieIx).scratch _ _
    rw [hjoin.field Die.scratch (fun _ => rfl) w.dieIx]
    exact hwrote
  · have hfabric : (wakeDie p.dstDie u).fabric = v.fabric := ((hput.frame.then hjoin.frame).then hwake) .fabric (by decide)
    rw [hfabric, hv]

end Data

section Control

variable (htake : takeArrived (fun x => x.2.ptype == 8 && (ctrlColl s x.2).isSome) s = some ((n, p), v)) (hctrl : ctrlColl s p = some (o, c))
include hrank htake hctrl

/-- A COLL_CTRL message for a collective: an abort, or its sender's head. -/
theorem collCtrl_eq : exec .collCtrl s = .next (
    if fieldAt p.data 0 1 = 1 then failOp p.dstDie o 9 (BitVec.ofNat 16 (fieldAt p.data 1 2)) v else collPeer p.dstDie o c r p.data v) := by
  have hsame : ctrlColl v p = some (o, c) := by rw [takeArrived_some htake]; exact hctrl
  change execCollCtrl s = _
  unfold execCollCtrl
  rw [htake]
  dsimp only
  rw [hsame]
  dsimp only
  rw [hrank]

include hj

theorem collCtrl_abort (hone : fieldAt p.data 0 1 = 1) : ∃ t, exec .collCtrl s = .next t ∧
    OpFailed p.dstDie o j 9 (BitVec.ofNat 16 (fieldAt p.data 1 2)) s t := by
  refine ⟨_, collCtrl_eq hrank htake hctrl, ?_⟩
  rw [if_pos hone, takeArrived_some htake]
  exact failOp_marked hj (fabric_marks _ s) (by decide) p.dstDie 9 _

include hcoll

theorem collCtrl_crc (hzero : fieldAt p.data 0 1 = 0) (hfresh : ∀ y ∈ c.heads, y.1 ≠ r) (hcrc : fieldAt p.data 4 4 ≠ c.crc) :
    ∃ t, exec .collCtrl s = .next t ∧
      OpFailed p.dstDie o j 9 0x0102 (collControl p.dstDie (partOfIx s j.part).fabricKey c (leBytes 1 1 ++ leBytes 2 (0x0102 : Ev).toNat) v) t := by
  have hv := takeArrived_some htake
  have hnew : c.heads.any (·.1 == r) = false := by simpa using hfresh
  have hfail := failColl_failed hcoll (v := v) (by rw [hv]; exact hj) p.dstDie 0x0102
  have hkey : (partOfIx v j.part).fabricKey = (partOfIx s j.part).fabricKey := by rw [hv]; rfl
  rw [hkey] at hfail
  refine ⟨_, ?_, hfail⟩
  rw [collCtrl_eq hrank htake hctrl, if_neg (by rw [hzero]; decide), collPeer, if_neg (by rw [hnew]; decide), if_pos hcrc]

include hop

theorem collCtrl_head (hzero : fieldAt p.data 0 1 = 0) (hfresh : ∀ y ∈ c.heads, y.1 ≠ r) (hcrc : fieldAt p.data 4 4 = c.crc) (hred : c.red ≠ 6) :
    ∃ u, exec .collCtrl s = .next (sendColl p.dstDie (partOfIx s j.part).fabricKey c r (fieldAt p.data 2 2) u) ∧ Frame [.dies, .fabric] s u ∧
      opOf u p.dstDie o.id = some { o with coll := some { c with
        heads := c.heads ++ [(r, bitOf (fieldAt p.data 1 1) 0, fieldAt p.data 2 2, bytesAt p.data 8 64)]
        draw := if r = 0 then fieldAt p.data 72 8 else c.draw } } := by
  have hv := takeArrived_some htake
  have hvframe : Frame [.fabric] s v := by rw [hv]; exact fields_frame
  have hnew : c.heads.any (·.1 == r) = false := by simpa using hfresh
  have hjob : jobOf v o.job = some j := by rw [hv]; exact hj
  let f (c : Coll) : Coll := { c with
    heads := c.heads ++ [(r, bitOf (fieldAt p.data 1 1) 0, fieldAt p.data 2 2, bytesAt p.data 8 64)]
    draw := if r = 0 then fieldAt p.data 72 8 else c.draw }
  have hupd : OpsOnly v (updColl p.dstDie o.id f v) := updOp_opsOnly ..
  have hkey : (partOfIx (updColl p.dstDie o.id f v) j.part).fabricKey = (partOfIx s j.part).fabricKey :=
    (hvframe.then hupd.frame).partField (by decide) (·.fabricKey) (fun _ => rfl) j.part
  refine ⟨updColl p.dstDie o.id f v, ?_, (hvframe.then hupd.frame).mono (by decide), ?_⟩
  · rw [collCtrl_eq hrank htake hctrl, if_neg (by rw [hzero]; decide), collPeer, if_neg (by rw [hnew]; decide), if_neg (by simpa using hcrc), hjob]
    dsimp only
    rw [if_neg hred, ← hkey]
  · exact opOf_updColl_self ((hvframe.opOf (by decide) _ _).trans hop) hcoll f

end Control

end Messages

/-! #### The limit and the result (R373, R375, R376) -/

theorem collectiveTimeout_failed {s : State} {d : DieIx} {op : Nat} {o : Op} {c : Coll} {j : Job} (hop : opOf s d op = some o) (hcoll : o.coll = some c)
    (hj : jobOf s o.job = some j) : ∃ t, exec (.collectiveTimeout d op) s = .next t ∧
      OpFailed d o j 9 0x0504 (collControl d (partOfIx s j.part).fabricKey c (leBytes 1 1 ++ leBytes 2 0x0504) s) t := by
  refine ⟨failColl d o 0x0504 s, ?_, failColl_failed hcoll hj d 0x0504⟩
  change execCollectiveTimeout d op s = _
  unfold execCollectiveTimeout
  rw [hop]

/-- A job keeps what its log entries do not touch. -/
theorem jobOf_jobRest {s t : State} (h : t.jobs.map jobRest = s.jobs.map jobRest) (id : Nat) : (jobOf t id).map jobRest = (jobOf s id).map jobRest := by
  have hfind (l : List Job) : (l.find? fun j => j.id == id).map jobRest = (l.map jobRest).find? fun j => j.id == id := by
    rw [List.find?_map]
    rfl
  unfold jobOf
  rw [hfind, hfind, h]

theorem deliverColl_elements {s : State} {o : Op} {c : Coll} {j : Job} {x z : Desc} (hsrc : c.src = some x) (hdst : c.dst = some z)
    (hj : jobOf s o.job = some j) (hred : c.red ≠ 6) (hwhole : collDegraded c = false) (d : DieIx) :
    deliverColl d o c s = writeElems z 0 (z.offs.zip (collResult c x j.reproducible)) s := by
  unfold deliverColl
  rw [hsrc, hdst, hj]
  dsimp only
  rw [hwhole, if_neg (by decide), if_neg hred]

theorem purgeColl_frame (d : DieIx) (c : Coll) (s : State) : Frame [.fabric] s (purgeColl d c s) := fields_frame

/-- A die but for what is in flight and its counters. -/
def idleRest (x : Die) : Die := { x with ops := [], scoreboard := [], counters := [] }

theorem idleRest_blind : MemoryBlind idleRest := {}

/-- A collective whose heads and data are all there writes its result and ends (R373, R375). -/
theorem collective_ends {s : State} {d : DieIx} {op : Nat} {o : Op} {c : Coll} {j : Job} {x z : Desc} (hop : opOf s d op = some o)
    (hcoll : o.coll = some c) (hj : jobOf s o.job = some j) (hsrc : c.src = some x) (hdst : c.dst = some z) (hred : c.red ≠ 6)
    (hwhole : collDegraded c = false) (hfree : opBlocked s d o = false) (hxfer : o.xfer = none) (hexch : o.exch = none) (htakes : o.takes = [])
    (hungrouped : Ungrouped op s) :
    ∃ u, exec (.operationComplete d op) s = .next (startTongs d (raiseFlag o.flag u)) ∧ Frame endAreas s u ∧ opOf u d op = none ∧
      ∀ e, idleRest (dieOf u e) = idleRest (dieOf (writeElems z 0 (z.offs.zip (collResult c x j.reproducible)) s) e) := by
  have hstalls := settleStalls_settled d o s
  obtain ⟨k, hk, hrest⟩ : ∃ k, jobOf (settleStalls d o s) o.job = some k ∧ jobRest k = jobRest j := by
    have hsame := jobOf_jobRest hstalls.rest o.job
    rw [hj] at hsame
    exact Option.map_eq_some_iff.mp hsame
  have hrepro : k.reproducible = j.reproducible := by
    have hfield : (jobRest k).reproducible = (jobRest j).reproducible := by rw [hrest]
    exact hfield
  let t := writeElems z 0 (z.offs.zip (collResult c x j.reproducible)) (settleStalls d o s)
  have hwrite : MemoryOnly (settleStalls d o s) t := writeElems_memoryOnly ..
  have hpurge := purgeColl_frame d c t
  have hungroupedLate : Ungrouped op (purgeColl d c t) := by
    have hbefore : Ungrouped op t := hungrouped.of_frame (hstalls.frame.then hwrite.frame) (by decide) (by decide)
    exact ⟨fun h g hg => hbefore.1 h g hg, hbefore.2⟩
  have hleft := dropOp_left hungroupedLate d
  refine ⟨dropOp d op (purgeColl d c t), ?_, (((hstalls.frame.then hwrite.frame).then hpurge).then hleft.frame).mono (by decide), opOf_dropOp d op _, fun e => ?_⟩
  · rw [operationComplete_free hop hfree, hxfer]
    dsimp only
    unfold finishOp
    rw [hexch, hcoll, htakes]
    dsimp only [List.foldl_nil]
    rw [deliverColl_elements hsrc hdst hk hred hwhole, hrepro, id_of_opOf hop]
  · have hstart : SameUpTo idleRest s (settleStalls d o s) := fun e =>
      congrArg (fun x : Die => { x with ops := [], scoreboard := [] }) (hstalls.frame .dies (by decide) e)
    have hresult := hstart.writeElems idleRest_blind z 0 (z.offs.zip (collResult c x j.reproducible)) e
    have hend : idleRest (dieOf (dropOp d op (purgeColl d c t)) e) = idleRest (dieOf t e) := by
      by_cases he : e = d
      · subst he
        rw [hleft.here]
        rfl
      · exact congrArg (fun x : Die => { x with ops := [], scoreboard := [] }) (hleft.others e he)
    exact hend.trans hresult

/-- Settles O45: what each member sends, what it takes in, and what it writes. -/
theorem collectiveOperations : Obligations.CollectiveOperations := by
  unfold Obligations.CollectiveOperations
  refine fun s hmem => ⟨fun a j src dst coll es => ⟨fun x z => ⟨?_, ?_, ?_, ?_⟩, ?_⟩, fun n p v o c r j hop hcoll hrank hj => ⟨?_, ?_⟩,
    fun d op o c j hop hcoll hj => ⟨collectiveTimeout_failed hop hcoll hj, ?_⟩⟩
  · exact fun h => collective_begins h rfl
  · exact fun h => collective_begins h rfl
  · exact fun h => collective_begins h rfl
  · exact fun h => collective_begins h rfl
  · rintro hready huse hclean hfits hsound hmembers hwindow hadmit
    obtain ⟨u, hexec, ⟨o, hin, hc⟩, -, -, hframe⟩ := barrier_begins hready huse hclean hfits hsound hmembers hwindow hadmit
    exact ⟨u, o, hexec, hin, hc, hframe⟩
  · exact fun htake hdata => ⟨collData_outside hrank htake hdata, collData_joins hop hcoll hrank htake hdata hmem⟩
  · exact fun htake hctrl => ⟨collCtrl_abort hrank hj htake hctrl, collCtrl_crc hcoll hrank hj htake hctrl, collCtrl_head hop hcoll hrank hj htake hctrl⟩
  · exact fun x z hsrc hdst hred hwhole hfree hxfer hexch htakes hgroups hbench =>
      collective_ends hop hcoll hj hsrc hdst hred hwhole hfree hxfer hexch htakes ⟨hgroups, hbench⟩

end Sys2Proof.Machine

namespace Sys2Proof.Machine

/-! ### O35: a degraded object bound for the host does not leave (R62, R65, R269)

The clauses for busy tongs put every MOVE that passes its checks in line. The checks say that no handle of the source is poisoned; they do not say
that an object source is whole. A MOVE of an object whose header says that it is degraded, to host memory, is withheld instead: nothing goes in flight. -/

/-- A vector of `n` elements in a space. -/
def someVector (kind word etype space handle n : Nat) : Desc :=
  { rank := 1, kind := kind, wordBytes := word, signed := false, etype := etype, space := space, die := 0, wrap := false, padSkip := false
    transpose := false, scales := false, s0Zero := false, handle := handle, part := 0, window := 0, indexDim := 0, wgen := 0, scaleHandle := 0
    offset := 0, scaleOffset := 0, size := [n, 0, 0, 0, 0], fill := 0, stride := [0, 0, 0, 0], padLo := [0, 0, 0, 0, 0], padHi := [0, 0, 0, 0, 0] }

/-- Job 1 of partition 0 runs on queue 0 of die 0, whose die is as given. -/
def someDie (f : Die → Die) : State :=
  updDie 0 f { updQueue 0 0 (fun q => { q with jobs := [1] }) someRunning with jobs := [someJob 1 0 .admitted 1 []], nextId := 8 }

/-- Where its instructions issue. -/
def someSite : Site := ⟨0, 0, 64, false⟩

/-- A transfer of words under way. -/
def someXfer : Xfer :=
  { dst := someVector 2 2 0 0 1 64, srcSpace := 0, todo := none, begun := true, placed := false, plans := [], add := false, host := none
    hostWrites := [], cursor := 0, stalled := false, group := none, pages := [], pieces := [], bufs := [], carry := none, hall := none
    remoteFlag := none }

/-- The operation, which tong 0 runs. -/
def someTransfer : Op := { opZero 7 1 0 64 6 with tongs := 1, xfer := some someXfer }

/-- Handle 1 holds an object of one row whose header says that it is degraded; tong 0 is busy. -/
def degradedSource : State := someDie fun x => { x with
  handles := [(1, { Handle.zero with rows := 1, valid := true })], scratch := [(0x1A, 8)]
  descs := [(1, someVector 0 0 0 0 1 1), (2, someVector 0 0 0 4 0 1)], ops := [someTransfer] }

/-- The MOVE of that object to host memory. -/
def moveOut : MoveArgs := { src := 1, dst := 2, mask := 1, flag := none, host := [] }

/-- The operations in flight on a die after a step. -/
def flightAfter (d : DieIx) : Result → Option Nat
  | .next t => some (dieOf t d).ops.length
  | _ => none

theorem moveOut_withheld : flightAfter 0 (exec (.move someSite moveOut) degradedSource) = some 1 := by decide +kernel

theorem degradedSource_ready : Ready degradedSource someSite (someJob 1 0 .admitted 1 []) where
  turn := rfl
  job := by decide +kernel
  queue_open := by decide +kernel
  engine := by decide +kernel
  fresh := rfl
  front := rfl

theorem degradedSource_xferReady : ∃ es, XferReady degradedSource someSite 1 (someJob 1 0 .admitted 1 []) (someVector 0 0 0 0 1 1) (someVector 0 0 0 4 0 1)
    [] [] es := by
  have hadmit : (sbAdmit degradedSource 0 (xferRanges degradedSource 0 [someVector 0 0 0 0 1 1] [someVector 0 0 0 4 0 1])).isSome = true := by decide +kernel
  obtain ⟨⟨es, m⟩, hes⟩ := Option.isSome_iff_exists.mp hadmit
  exact ⟨es,
    { ready := degradedSource_ready
      ids := ⟨by decide +kernel, by decide +kernel⟩
      unlisted := rfl
      tongs := by decide
      sources := by decide +kernel
      place := by decide +kernel
      kinds := by decide
      rings := by decide +kernel
      filled := by decide +kernel
      admitted := ⟨m, hes⟩ }⟩

/-- Refutes O35: with its tong busy, a MOVE of a degraded object to host memory goes nowhere: it is withheld (R65), not queued. -/
theorem not_moves : ¬ Obligations.Moves := by
  intro h
  obtain ⟨es, hready⟩ := degradedSource_xferReady
  obtain ⟨hbusy, -⟩ := h degradedSource someSite moveOut (someJob 1 0 .admitted 1 []) (someVector 0 0 0 0 1 1) (someVector 0 0 0 4 0 1) [] es
    (by decide +kernel) (by decide +kernel) hready (by decide) (by decide) rfl
  obtain ⟨t, o, hexec, ⟨hdone, -⟩, -⟩ := hbusy (by unfold tongsIdle; decide +kernel) (by decide)
  have hops := hdone.flight.op.1
  have hlen : (dieOf t 0).ops.length = (dieOf degradedSource 0).ops.length + 1 := by
    have hcount := congrArg List.length hops
    rwa [List.length_append] at hcount
  have hafter := moveOut_withheld
  rw [hexec] at hafter
  have hone : (dieOf t 0).ops.length = 1 := Option.some.inj hafter
  have hbefore : (dieOf degradedSource 0).ops.length = 1 := by decide +kernel
  omega

end Sys2Proof.Machine

namespace Sys2Proof.Machine

/-! ### O36: a GATHER along a dimension that its tensors do not have (R263, R265, R267)

A slab read from a window is one read for each index. INDEX_DIM may name a dimension beyond RANK, and PAD_LO of the destination may stand there too: the
index list that fits then is empty, while the destination still has an element to fetch. No read is numbered for it, none leaves, and the transfer
goes on at once with bytes that were never brought. The statement has it wait for its reads. -/

/-- A word of a window of this part, gathered along dimension 1. -/
def slabSource : Desc := { someVector 2 2 0 3 0 1 with indexDim := 1 }
/-- Its destination in handle 2, with padding on dimension 1. -/
def slabTarget : Desc := { someVector 2 2 0 0 2 1 with padLo := [0, 1, 0, 0, 0] }
/-- An empty list of indexes in handle 3. -/
def noIndexes : Desc := { someVector 2 2 0 0 3 0 with signed := true, offset := 4 }

/-- A die with these descriptors, in a part that is a member of its epoch. -/
def flatGather : State :=
  let s := someDie fun x => { x with
    handles := [2, 3].map fun k => (k, { Handle.zero with base := k, rows := 1, valid := true })
    descs := [(1, slabSource), (2, slabTarget), (3, noIndexes)] }
  { s with fabric := { s.fabric with members := [0] } }

def gatherFlat : IndexedArgs := { src := 1, idx := 3, dst := 2, mask := 1, flag := none, host := [], idxHost := [] }

/-- The plans that the transfers in flight on a die have left after a step. -/
def plansAfter (d : DieIx) : Result → Option (List Nat)
  | .next t => some ((dieOf t d).ops.filterMap fun o => o.xfer.map fun x => x.plans.length)
  | _ => none

theorem gatherFlat_delivers : plansAfter 0 (exec (.gather someSite gatherFlat) flatGather) = some [0] := by decide +kernel

theorem flatGather_ready : Ready flatGather someSite (someJob 1 0 .admitted 1 []) where
  turn := rfl
  job := by decide +kernel
  queue_open := by decide +kernel
  engine := by decide +kernel
  fresh := rfl
  front := rfl

theorem flatGather_xferReady : ∃ es, XferReady flatGather someSite 1 (someJob 1 0 .admitted 1 []) slabSource slabTarget [noIndexes] [] es := by
  have hadmit : (sbAdmit flatGather 0 (xferRanges flatGather 0 [slabSource, noIndexes] [slabTarget])).isSome = true := by decide +kernel
  obtain ⟨⟨es, m⟩, hes⟩ := Option.isSome_iff_exists.mp hadmit
  exact ⟨es,
    { ready := flatGather_ready
      ids := ⟨by decide +kernel, by decide +kernel⟩
      unlisted := rfl
      tongs := by decide
      sources := by decide +kernel
      place := by decide +kernel
      kinds := by decide
      rings := by decide +kernel
      filled := by decide +kernel
      admitted := ⟨m, hes⟩ }⟩

/-- Reads of windows that are not there are not sent. -/
theorem sendReads_unserved (d : DieIx) (j : Job) (op bits : Nat) (ps : List Plan) (s : State) : sendReads d j op bits [] ps s = s := by
  unfold sendReads
  exact List.foldl_fixed' (fun _ => rfl) _

/-- Counting indexes out of range logs and counts. -/
theorem countIndexes_frame (j : Job) (a : Site) (unit n : Nat) (s : State) : Frame (.jobs :: logAreas) s (countIndexes j a unit n s) := by
  have hcount := count_frame a.die 4 n s
  unfold countIndexes logOnce
  split
  · exact hcount.mono (by decide)
  · exact ((hcount.then (logJob_frame _ _ _ _ _ _ _)).then (count_frame _ _ _ _)).mono (by decide)

/-- Refutes O36: nothing is asked of the window, so that the slab is not awaited. -/
theorem not_gathersAndScatters : ¬ Obligations.GathersAndScatters := by
  intro h
  obtain ⟨es, hready⟩ := flatGather_xferReady
  obtain ⟨hgather, -⟩ := h flatGather someSite gatherFlat (someJob 1 0 .admitted 1 []) slabSource noIndexes slabTarget [] es
    (by decide +kernel) (by decide +kernel) (by decide +kernel) hready (by decide) rfl rfl rfl (by decide) rfl
  obtain ⟨-, hfar, -⟩ := hgather (.inr rfl) (by decide) rfl (by unfold tongsIdle; decide +kernel)
  obtain ⟨u, o, x, hdone, -, hplanned, -, hexec⟩ := hfar rfl (by decide) (by decide +kernel)
  obtain ⟨hxfer, -, -, hplans⟩ := hplanned
  have hops := hdone.flight.op.1
  have hafter := gatherFlat_delivers
  rw [hexec] at hafter
  dsimp only [plansAfter] at hafter
  rw [show List.replicate noIndexes.elems slabSource.piece = [] from rfl, sendReads_unserved,
    (countIndexes_frame _ _ _ _ _).dieField (by decide) Die.ops (fun _ => rfl) 0] at hafter
  have hlisted : (dieOf u 0).ops = _ ++ [o] := hops
  rw [hlisted, List.filterMap_append] at hafter
  have hlast := congrArg (fun l => l.getLast?) (Option.some.inj hafter)
  simp [hxfer, hplans] at hlast

end Sys2Proof.Machine

namespace Sys2Proof.Machine

/-! ### O37: SDIGEST, DGET and DPUT (R259, R377, R378, R440) -/

/-! #### SDIGEST -/

theorem sdigest_spec {s : State} {a : Site} {j : Job} {i : Nat} (hready : Ready s a j) (hvalid : (storeOf s a.die i).valid = true) :
    ∃ t, exec (.sdigest a i) s = .next t ∧
      storeOf t a.die i = { storeOf s a.die i with digest := some (chunkDigest (storeBytes s a.die i 0 ((storeOf s a.die i).rows * 288))) } ∧
      (∀ k, k ≠ i → storeOf t a.die k = storeOf s a.die k) ∧
      { dieOf t a.die with storeHandles := [] } = { dieOf s a.die with storeHandles := [] } ∧ OtherDies a.die s t ∧ Frame [.dies] s t := by
  let f (e : StoreHandle) : StoreHandle := { e with digest := some (chunkDigest (storeBytes s a.die i 0 (e.rows * rowBytes))) }
  refine ⟨updStore a.die i f s, ?_, ?_, fun k hk => ?_, ?_, fun e he => ?_, updDie_frame_dies _ _ s rfl⟩
  · change ok (runInstr a (.sdigest a i) _ s) = _
    rw [runInstr_done (t := updStore a.die i f s) hready]
    dsimp only
    rw [hvalid, Bool.not_true, if_neg (by decide)]
  · rw [storeOf, updStore, dieOf_updDie_self, tblGetD_tblSet, if_pos rfl]
    rfl
  · rw [storeOf, updStore, dieOf_updDie_self, tblGetD_tblSet, if_neg hk]
    rfl
  · rw [updStore, dieOf_updDie_self]
  · rw [updStore, dieOf_updDie_ne _ _ he]

/-! #### The operation issued last -/

theorem Frame.symm {ws : List Area} {s t : State} (h : Frame ws s t) : Frame ws t s := fun a ha => by
  have hsame := h a ha
  cases a with
  | parts => exact fun p => (hsame p).symm
  | partLogs => exact fun p => (hsame p).symm
  | dies => exact fun d => (hsame d).symm
  | counters => exact fun d => (hsame d).symm
  | hosts => exact fun k => (hsame k).symm
  | msix => exact fun k => (hsame k).symm
  | _ => exact Eq.symm hsame

/-- The operation of an identifier is the last of its die. -/
structure LastOp (s : State) (d : DieIx) (id : Nat) (l : List Op) (o : Op) : Prop where
  ops : (dieOf s d).ops = l ++ [o]
  others : ∀ p ∈ l, p.id ≠ id
  named : o.id = id

namespace LastOp

variable {s t : State} {d : DieIx} {id : Nat} {l : List Op} {o : Op}

theorem opOf (h : LastOp s d id l o) : opOf s d id = some o := by
  have hnone : l.find? (fun p => p.id == id) = none := List.find?_eq_none.mpr fun p hp => by simpa using h.others p hp
  rw [Machine.opOf, h.ops, List.find?_append, hnone]
  simp [h.named]

theorem of_ops (h : LastOp s d id l o) (hops : (dieOf t d).ops = (dieOf s d).ops) : LastOp t d id l o := ⟨hops.trans h.ops, h.others, h.named⟩

theorem updOp (h : LastOp s d id l o) {f : Op → Op} (hf : ∀ p, (f p).id = p.id) : LastOp (updOp d id f s) d id l (f o) := by
  refine ⟨?_, h.others, (hf o).trans h.named⟩
  unfold Machine.updOp
  rw [dieOf_updDie_self, h.ops]
  dsimp only
  rw [List.map_append, List.map_cons, List.map_nil, if_pos h.named]
  congr 1
  exact (List.map_congr_left fun p hp => if_neg (h.others p hp)).trans (List.map_id _)

/-- The tongs of the last operation are free where no transfer before it holds them. -/
theorem tongFree (h : LastOp s d id l o) (hidle : ∀ p ∈ l, p.xfer.isSome = true → p.tongs &&& o.tongs = 0) : tongFree s d o = true := by
  unfold Machine.tongFree
  rw [h.ops, Bool.not_eq_true', List.any_eq_false]
  intro p hp
  rcases List.mem_append.mp hp with hbefore | hself
  · by_cases hxfer : p.xfer.isSome = true
    · simp [hidle p hbefore hxfer]
    · simp [hxfer]
  · obtain rfl := List.mem_singleton.mp hself
    simp

end LastOp

/-! #### A transfer within the part that starts with its tongs idle (R258, R259) -/

theorem OtherDies.trans {d : DieIx} {s t u : State} (h : OtherDies d s t) (k : OtherDies d t u) : OtherDies d s u :=
  fun e he => (k e he).trans (h e he)

theorem OtherDies.wakeDie {d : DieIx} {s t : State} (h : OtherDies d s t) (e : DieIx) : OtherDies d (wakeDie e s) (wakeDie e t) := fun k hk => by
  have hdie := h k hk
  rw [dieOf_wakeDie, dieOf_wakeDie]
  have hidle : (dieOf t k).idle = (dieOf s k).idle := by
    have hfield : ({ dieOf t k with counters := [] } : Die).idle = ({ dieOf s k with counters := [] } : Die).idle := by rw [hdie]
    exact hfield
  rw [hidle]
  exact congrArg (fun x : Die => { x with idle := if k = e then 0 else (dieOf s k).idle }) hdie

theorem SameUpTo.wakeDie {s t : State} (h : SameUpTo idleRest s t) (e : DieIx) : SameUpTo idleRest (wakeDie e s) (wakeDie e t) :=
  h.updDie e _ fun _ => rfl

/-- What an issue leaves when an operation has gone in flight and nothing else of the dies has changed: a base state, and the state after. -/
structure FlightOnly (a : Site) (j : Job) (es : List SbEntry) (o : Op) (s t : State) : Prop where
  flight : InFlight a j 6 es o s t
  dies : SameUpTo idleRest s t
  frame : Frame [.dies, .counters, .jobs, .nextId, .free] s t

theorem FlightOnly.wakeDie {a : Site} {j : Job} {es : List SbEntry} {o : Op} {s t : State} (h : FlightOnly a j es o s t) (e : DieIx) :
    FlightOnly a j es o (wakeDie e s) (wakeDie e t) := by
  obtain ⟨⟨⟨hops, hop⟩, hscoreboard, hnext, hothers, hjobs, hrest⟩, hdies, hframe⟩ := h
  refine ⟨⟨⟨?_, hop⟩, ?_, hnext, hothers.wakeDie e, hjobs, hrest⟩, hdies.wakeDie e,
    (((wakeDie_frame e s).symm.then hframe).then (wakeDie_frame e t)).mono (by decide)⟩
  · rw [dieOf_wakeDie, dieOf_wakeDie]
    exact hops
  · rw [dieOf_wakeDie, dieOf_wakeDie]
    exact hscoreboard

theorem FlightOnly.done {a : Site} {j : Job} {es : List SbEntry} {o : Op} {s t : State} (h : FlightOnly a j es o s t) : XferDone a j [] es o s t := by
  have hdie := h.dies a.die
  have hfield {β : Type} (g : Die → β) (hg : ∀ x, g (idleRest x) = g x) : g (dieOf t a.die) = g (dieOf s a.die) := by
    rw [← hg, hdie, hg]
  refine ⟨h.flight, ⟨hfield Die.scratch fun _ => rfl, hfield Die.store fun _ => rfl, hfield Die.storeHandles fun _ => rfl⟩, fun r => ?_,
    hfield xferRest fun _ => rfl, h.frame⟩
  rw [ringOf, hfield Die.rings fun _ => rfl]
  rfl

/-- The operation changes, with nothing else. -/
theorem FlightOnly.updOp {a : Site} {j : Job} {es : List SbEntry} {o : Op} {s t : State} (h : FlightOnly a j es o s t) (hfresh : idsFresh s)
    (f : Op → Op) (hf : ∀ p, (f p).id = p.id ∧ (f p).unit = p.unit ∧ (f p).job = p.job ∧ (f p).queue = p.queue ∧ (f p).off = p.off) :
    FlightOnly a j es (f o) s (updOp a.die s.nextId f t) := by
  obtain ⟨⟨⟨hops, hid, hunit, hjob, hqueue, hoff⟩, hscoreboard, hnext, hothers, hjobs, hrest⟩, hdies, hframe⟩ := h
  have hupd := updOp_opsOnly a.die s.nextId f t
  have hlast : LastOp t a.die s.nextId (dieOf s a.die).ops o := ⟨hops, fun p hp => (hfresh.1 a.die p hp).ne, hid⟩
  obtain ⟨hfid, hfunit, hfjob, hfqueue, hfoff⟩ := hf o
  refine ⟨⟨⟨(hlast.updOp fun p => (hf p).1).ops, hfid.trans hid, hfunit.trans hunit, hfjob.trans hjob, hfqueue.trans hqueue, hfoff.trans hoff⟩, ?_, hnext,
    hothers.trans (otherDies_updOp _ _ _ _), hjobs, hrest⟩, fun e => ?_, (hframe.then hupd.frame).mono (by decide)⟩
  · rw [hupd.field Die.scoreboard fun _ => rfl]
    exact hscoreboard
  · exact (congrArg (fun x : Die => { x with scoreboard := [], counters := [] }) (hupd.dies e)).trans (hdies e)

theorem FlightOnly.free {a : Site} {j : Job} {es : List SbEntry} {o : Op} {s t : State} (h : FlightOnly a j es o s t) (n : Nat) :
    FlightOnly a j es o s { t with free := n } :=
  ⟨⟨h.flight.op, h.flight.scoreboard, h.flight.nextId, h.flight.other_dies, h.flight.jobs, h.flight.other_jobs⟩, h.dies,
    (h.frame.then (fields_frame (ws := [.free]))).mono (by decide)⟩

/-- The new operation, found. -/
theorem FlightOnly.opOf {a : Site} {j : Job} {es : List SbEntry} {o : Op} {s t : State} (h : FlightOnly a j es o s t) (hfresh : idsFresh s) :
    opOf t a.die s.nextId = some o :=
  LastOp.opOf ⟨h.flight.op.1, fun p hp => (hfresh.1 a.die p hp).ne, h.flight.op.2.1⟩

/-- Its job, but for what it has named. -/
theorem FlightOnly.jobOf {a : Site} {j : Job} {es : List SbEntry} {o : Op} {s t : State} (h : FlightOnly a j es o s t) (hj : jobOf s j.id = some j) :
    ∃ k, jobOf t o.job = some k ∧ jobRest k = jobRest j := by
  have hsame := jobOf_jobRest h.flight.jobs o.job
  rw [h.flight.op.2.2.2.1, hj] at hsame
  rw [h.flight.op.2.2.2.1]
  exact Option.map_eq_some_iff.mp hsame

/-- Nothing has been asked for it yet. -/
theorem FlightOnly.reqsOf {a : Site} {j : Job} {es : List SbEntry} {o : Op} {s t : State} (h : FlightOnly a j es o s t) (hfresh : idsFresh s) (k : ReqKind) :
    reqsOf t a.die s.nextId k = [] := by
  have hfabric : t.fabric = s.fabric := h.frame .fabric (by decide)
  rw [Machine.reqsOf, hfabric]
  exact List.filter_eq_nil_iff.mpr fun r hr => by simp [(hfresh.2 r hr).ne]

/-- The operation of a transfer without a flag, a ring or a HOST end. -/
def plainXferOp (a : Site) (j : Job) (q : XferReq) (carry : Option Ev) (more : List Dest) : Op :=
  { opZero 0 j.id a.queue a.off 6 with
    dests := q.dests, srcs := q.srcs ++ more, tongs := q.tongs, cost := xferCost a.die q.src q.dst (tongCount q.tongs)
    xfer := some (xferOf q none carry none none) }

/-- What a transfer's tongs send as they plan it. -/
def sendPlanned (d : DieIx) (j : Job) (id : Nat) (q : XferReq) (plans : List Plan) (pieces : List Piece) (s : State) : State :=
  match q.work with
  | .put places blocks => putBlocks d j id q places blocks s
  | _ => sendReads d j id q.src.bits pieces plans s

/-- A transfer that its tongs have planned. -/
def plannedXfer (q : XferReq) (carry : Option Ev) (plans : List Plan) (pieces : List Piece) : Xfer :=
  { xferOf q none carry none none with begun := true, todo := none, plans := plans, pieces := pieces, bufs := [] }

/-- The dies of a transfer's ends in this part wake (R333). -/
def wakeEnds (q : XferReq) (s : State) : State :=
  ([q.src, q.dst].filter fun t => decide (t.space ≤ 1)).foldl (fun s t => wakeDie t.dieIx s) s

theorem FlightOnly.wakeEnds {a : Site} {j : Job} {es : List SbEntry} {o : Op} {s t : State} (h : FlightOnly a j es o s t) (q : XferReq) :
    FlightOnly a j es o (wakeEnds q s) (wakeEnds q t) := by
  unfold Machine.wakeEnds
  induction [q.src, q.dst].filter fun t => decide (t.space ≤ 1) generalizing s t with
  | nil => exact h
  | cons x l ih => exact ih (h.wakeDie x.dieIx)

theorem startOp_flightOnly {s : State} {a : Site} {j : Job} (m : Nat) {o : Op} (es : List SbEntry) (hunit : o.unit = 6) (hjob : o.job = j.id)
    (hqueue : o.queue = a.queue) (hoff : o.off = a.off) :
    FlightOnly a j es { o with id := s.nextId } s (startOp a.die o es (count a.die 2 m s)) := by
  have hm := count_frame a.die 2 m s
  have hstart := startOp_frame a.die o es (count a.die 2 m s)
  obtain ⟨⟨hops, hid, -, hnames⟩, hscoreboard, hnext, hothers, hrest, hother⟩ := startOp_inFlight (s := count a.die 2 m s) (o := o) (j := j) es hjob hqueue hoff
  refine ⟨⟨⟨?_, hid, hunit, hnames⟩, ?_, hnext, fun e he => ?_, hrest, hother⟩, fun e => ?_, (hm.then hstart).mono (by decide)⟩
  · rw [hops, hm.dieField (by decide) Die.ops fun _ => rfl]
    rfl
  · rw [hscoreboard, hm.dieField (by decide) Die.scoreboard fun _ => rfl]
    rfl
  · exact (hothers e he).trans (hm .dies (by decide) e)
  · have hcount : idleRest (dieOf (count a.die 2 m s) e) = idleRest (dieOf s e) :=
      congrArg (fun x : Die => { x with ops := [], scoreboard := [] }) (hm .dies (by decide) e)
    rw [← hcount, dieOf_startOp]
    by_cases he : e = a.die
    · subst he
      rw [dieOf_updDie_self]
      rfl
    · rw [dieOf_updDie_ne _ _ he]

theorem FlightOnly.fresh {s : State} (hfresh : idsFresh s) (q : XferReq) : idsFresh (Machine.wakeEnds q s) := by
  unfold Machine.wakeEnds
  induction [q.src, q.dst].filter fun t => decide (t.space ≤ 1) generalizing s with
  | nil => exact hfresh
  | cons x l ih =>
    refine ih ⟨fun d o ho => ?_, hfresh.2⟩
    rw [dieOf_wakeDie] at ho
    exact hfresh.1 d o ho

/-- A transfer that its tongs run. -/
def begunOp (o : Op) : Op := { o with xfer := o.xfer.map fun x => { x with begun := true } }

/-- A transfer with what it has still to deliver. -/
def plannedOp (plans : List Plan) (pieces : List Piece) (o : Op) : Op :=
  { o with xfer := o.xfer.map fun x => { x with todo := none, plans := plans, pieces := pieces, bufs := [] } }

section Planning

variable {s : State} {d : DieIx} {id : Nat} {o : Op} {x : Xfer} {k : Job} {q : XferReq} (hop : opOf s d id = some o) (hx : o.xfer = some x)
  (hk : jobOf s o.job = some k) (htodo : x.todo = some q) (hidx : q.idx = none)
include hop hx hk htodo hidx

theorem beginXfer_near (hhost : x.host = none) : beginXfer d id s = pump d id (updOp d id begunOp (wakeEnds q s)) := by
  unfold beginXfer
  rw [hop]
  dsimp only
  rw [hx, hk]
  dsimp only
  rw [htodo]
  dsimp only
  rw [hidx, hhost]
  rfl

theorem planXfer_owner {plans : List Plan} (hbegun : x.begun = true) (hreads : reqsOf s d id .read = [])
    (hwork : (∃ p, q.work = .get p) ∨ ∃ ps bs, q.work = .put ps bs) (hplans : ∀ t, makePlans t q [] = plans) :
    planXfer d id s = sendPlanned d k id q plans (xferPieces q []) (updOp d id (plannedOp plans (xferPieces q [])) { s with free := s.free + 1 }) := by
  have hlist : indexList s q x.bufs = [] := by rw [indexList, hidx]
  unfold planXfer
  rw [hop]
  dsimp only
  rw [hx, hk]
  dsimp only
  rw [htodo]
  dsimp only
  rw [hbegun, hreads, hlist, hplans]
  rcases hwork with ⟨p, hwork⟩ | ⟨ps, bs, hwork⟩
  · simp only [sendPlanned, hwork]
    rfl
  · simp only [sendPlanned, hwork]
    rfl

end Planning

/-- A transfer of owner tables starts: its tongs take it up, its ends' dies wake, and what it asks or sends is planned (R259, R378). -/
theorem startXfer_planned {s : State} {a : Site} {j : Job} {q : XferReq} {plans : List Plan} (m : Nat) (more : List Dest) (es : List SbEntry)
    (hj : jobOf s j.id = some j) (hfresh : idsFresh s) (hunlisted : j.wantHallmark = false) (hidle : tongsIdle s a.die q.tongs) (hflag : q.flag = none)
    (hidx : q.idx = none) (hsrc : q.src.space ≠ 4) (hdst : q.dst.space ≠ 4 ∧ q.dst.space ≠ 2)
    (hwork : (∃ p, q.work = .get p) ∨ ∃ ps bs, q.work = .put ps bs) (hplans : ∀ t, makePlans t q [] = plans) :
    ∃ u k o, FlightOnly a j es o (wakeEnds q s) u ∧ o.xfer = some (plannedXfer q (q.src.poison s) plans (xferPieces q [])) ∧
      jobRest k = jobRest j ∧ jobOf u o.job = some k ∧ u.free = s.free + 1 ∧
      startXfer a q j [] [] more es (count a.die 2 m s) = deliver a.die s.nextId (sendPlanned a.die k s.nextId q plans (xferPieces q []) u) := by
  have hcount := count_frame a.die 2 m s
  let o := plainXferOp a j q (q.src.poison s) more
  have hnote : noteWeight a.die j q.src (count a.die 2 m s) = count a.die 2 m s := by simp [noteWeight, hunlisted]
  have hinput : noteInput a.die j q.src q.elems q.host (count a.die 2 m s) = (none, count a.die 2 m s) := by simp [noteInput, hunlisted]
  have hhost : hostEnd (count a.die 2 m s) j q = none := by simp [hostEnd, hidx, hsrc, hdst.1]
  have hclaim : claimDest q.dst (count a.die 2 m s) = ([], count a.die 2 m s) := if_neg hdst.2
  have hissue : startXfer a q j [] [] more es (count a.die 2 m s) = takeUp a.die s.nextId (startOp a.die o es (count a.die 2 m s)) := by
    unfold startXfer
    rw [hflag, hidx]
    dsimp only
    rw [hnote, hinput]
    dsimp only [claimTakes, List.foldl_nil]
    rw [hclaim]
    dsimp only
    rw [hhost, hcount.descPoison (by decide), Option.or_none]
    rfl
  have hstart : FlightOnly a j es { o with id := s.nextId } s (startOp a.die o es (count a.die 2 m s)) := startOp_flightOnly m es rfl rfl rfl rfl
  have hfree₀ : (startOp a.die o es (count a.die 2 m s)).free = s.free := (startOp_frame a.die o es (count a.die 2 m s)) .free (by decide)
  generalize startOp a.die o es (count a.die 2 m s) = m₀ at hissue hstart hfree₀
  have hlast : LastOp m₀ a.die s.nextId (dieOf s a.die).ops { o with id := s.nextId } :=
    ⟨hstart.flight.op.1, fun p hp => (hfresh.1 a.die p hp).ne, rfl⟩
  have hwake := hstart.wakeEnds q
  have hbase := FlightOnly.fresh hfresh q
  have hnext : (wakeEnds q s).nextId = s.nextId := by
    have hframe : Frame [.dies] s (wakeEnds q s) := .foldl (fun t x => wakeDie_frame _ t) _ s
    exact hframe .nextId (by decide)
  have hframe : Frame [.dies] s (wakeEnds q s) := .foldl (fun t x => wakeDie_frame _ t) _ s
  have hbegun := hwake.updOp hbase begunOp fun _ => ⟨rfl, rfl, rfl, rfl, rfl⟩
  rw [hnext] at hbegun
  have hfree₁ : (updOp a.die s.nextId begunOp (wakeEnds q m₀)).free = s.free := by
    have hwaked : Frame [.dies] m₀ (wakeEnds q m₀) := .foldl (fun t x => wakeDie_frame _ t) _ m₀
    have hsame : (updOp a.die s.nextId begunOp (wakeEnds q m₀)).free = m₀.free := (hwaked.trans (updOp_opsOnly ..).frame) .free (by decide)
    rw [hsame, hfree₀]
  generalize hm₁ : updOp a.die s.nextId begunOp (wakeEnds q m₀) = m₁ at hbegun hfree₁
  have hplanned := (hbegun.free (m₁.free + 1)).updOp hbase (plannedOp plans (xferPieces q [])) fun _ => ⟨rfl, rfl, rfl, rfl, rfl⟩
  rw [hnext] at hplanned
  obtain ⟨k₀, hk₀, -⟩ := hstart.jobOf hj
  obtain ⟨k, hk, hkrest⟩ := hbegun.jobOf ((hframe.jobOf (by decide) j.id).trans hj)
  have hbegin : takeUp a.die s.nextId m₀ = pump a.die s.nextId m₁ := by
    unfold takeUp
    rw [hlast.opOf]
    dsimp only
    rw [hlast.tongFree hidle, if_pos rfl, ← hm₁]
    exact beginXfer_near hlast.opOf rfl hk₀ rfl hidx rfl
  have hplan : planXfer a.die s.nextId m₁ = _ :=
    planXfer_owner (hnext ▸ hbegun.opOf hbase) rfl hk rfl hidx rfl (hnext ▸ hbegun.reqsOf hbase .read) hwork hplans
  refine ⟨_, k, _, hplanned, rfl, hkrest, ?_, ?_, ?_⟩
  · exact hk
  · exact congrArg (· + 1) hfree₁
  · rw [hissue, hbegin, pump, hplan]

/-! #### Reads of windows that a transfer awaits (R352, R369) -/

/-- Runs of bytes that are not empty, each of a piece that is one of `n`. -/
def ServedRuns (n : Nat) (l : List (Nat × Nat × Nat)) : Prop := ∀ r ∈ l, r.2.1 < r.2.2 ∧ r.1 < n

theorem ServedRuns.join {n : Nat} {l : List (Nat × Nat × Nat)} (h : ServedRuns n l) : ServedRuns n (joinRuns l) := by
  induction l with
  | nil => exact h
  | cons x l ih =>
    have hx := h x (List.mem_cons_self ..)
    have hl := ih fun r hr => h r (List.mem_cons_of_mem _ hr)
    unfold joinRuns
    split
    · intro r hr
      rwa [List.mem_singleton.mp hr]
    · next y u hu =>
      rw [hu] at hl
      split
      · intro r hr
        rcases List.mem_cons.mp hr with rfl | hr
        · exact ⟨lt_of_lt_of_le hx.1 (Nat.le_max_left _ _), hx.2⟩
        · exact hl r (List.mem_cons_of_mem _ hr)
      · intro r hr
        rcases List.mem_cons.mp hr with rfl | hr
        · exact hx
        · exact hl r hr

theorem mem_insertRun {x r : Nat × Nat × Nat} {l : List (Nat × Nat × Nat)} (h : r ∈ insertRun x l) : r = x ∨ r ∈ l := by
  induction l with
  | nil => exact .inl (List.mem_singleton.mp h)
  | cons y l ih =>
    unfold insertRun at h
    split at h
    · exact List.mem_cons.mp h
    · rcases List.mem_cons.mp h with rfl | h
      · exact .inr (List.mem_cons_self ..)
      · exact (ih h).imp_right (List.mem_cons_of_mem _)

theorem ServedRuns.sorted {n : Nat} {l : List (Nat × Nat × Nat)} (h : ServedRuns n l) : ServedRuns n (l.foldl (fun l x => insertRun x l) []) :=
  List.foldlRecOn l _ (motive := ServedRuns n) (fun _ hr => absurd hr (List.not_mem_nil)) fun _ hs x hx r hr =>
    (mem_insertRun hr).elim (fun e => e ▸ h x hx) (hs r)

theorem readRuns_served {n bits : Nat} {ps : List Plan} (h : ServedRuns n (ps.flatMap (farBytes bits))) : ServedRuns n (readRuns bits ps) :=
  h.join.sorted.join

theorem bits_pos (t : Desc) : 0 < t.bits := by
  unfold Desc.bits
  split
  · decide
  · split
    · cases t.ety.kind <;> decide
    · positivity

/-- Cells read from pieces that are there. -/
theorem farBytes_served {n bits : Nat} (hbits : 0 < bits) {p : Plan} (hcells : ∀ c ∈ p.cells, ∀ i b, c.2 = .far i b → i < n) (hscales : p.scales = []) :
    ServedRuns n (farBytes bits p) := by
  intro r hr
  rw [farBytes, hscales, List.filterMap_nil, List.append_nil] at hr
  obtain ⟨c, hc, hrun⟩ := List.mem_filterMap.mp hr
  split at hrun
  · next i b hcell =>
    obtain rfl := Option.some.inj hrun
    refine ⟨?_, hcells c hc i b hcell⟩
    dsimp only
    omega
  · cases hrun

theorem sendReq_requests (d : DieIx) (j : Job) (op : Nat) (kind : ReqKind) (piece : Nat) (w : Piece) (off len : Nat) (data : List Byte) (s : State) :
    ∃ r : Request, (r.die = d ∧ r.op = op ∧ r.kind = kind) ∧
      (sendReq d j op kind piece w off len data s).fabric.requests = s.fabric.requests ++ [r] := by
  refine ⟨{ tag := s.nextId % 2 ^ 32, die := d, op := op, dstPart := w.part, kind := kind, piece := piece, off := off, len := len }, ⟨rfl, rfl, rfl⟩, ?_⟩
  have hfabric (p : Packet) (t : State) : (originate d p t).fabric.requests = t.fabric.requests := by
    have hsame : ({ (originate d p t).fabric with arrived := [] } : Fabric).requests = ({ t.fabric with arrived := [] } : Fabric).requests := by
      rw [originate_fabric]
    exact hsame
  exact hfabric _ _

/-- A read of an operation is out. -/
def Awaits (d : DieIx) (op : Nat) (s : State) : Prop := ∃ r ∈ s.fabric.requests, r.die = d ∧ r.op = op ∧ r.kind = .read

theorem Awaits.sendReq {d : DieIx} {op : Nat} {s : State} (h : Awaits d op s) (e : DieIx) (j : Job) (i : Nat) (kind : ReqKind) (piece : Nat) (w : Piece)
    (off len : Nat) (data : List Byte) : Awaits d op (sendReq e j i kind piece w off len data s) := by
  obtain ⟨r, hr, hnames⟩ := h
  obtain ⟨_, -, hrequests⟩ := sendReq_requests e j i kind piece w off len data s
  refine ⟨r, ?_, hnames⟩
  rw [hrequests]
  exact List.mem_append_left _ hr

theorem awaits_sendReq (d : DieIx) (j : Job) (op : Nat) (piece : Nat) (w : Piece) (off len : Nat) (data : List Byte) (s : State) :
    Awaits d op (sendReq d j op .read piece w off len data s) := by
  obtain ⟨r, hnames, hrequests⟩ := sendReq_requests d j op .read piece w off len data s
  exact ⟨r, by rw [hrequests]; exact List.mem_append_right _ (List.mem_singleton_self _), hnames⟩

/-- Reads of which one at least is served are awaited. -/
theorem sendReads_awaited {d : DieIx} {j : Job} {op bits : Nat} {pieces : List Piece} {ps : List Plan} (hruns : readRuns bits ps ≠ [])
    (hserved : ServedRuns pieces.length (readRuns bits ps)) (s : State) : Awaits d op (sendReads d j op bits pieces ps s) := by
  obtain ⟨r, hr⟩ := List.exists_mem_of_ne_nil _ hruns
  obtain ⟨hlen, hpiece⟩ := hserved r hr
  have stays (l : List Nat) (i : Nat) (w : Piece) (f : Nat → Nat × Nat) (t : State) (ht : Awaits d op t) :
      Awaits d op (l.foldl (fun s k => sendReq d j op .read i w (f k).1 (f k).2 [] s) t) :=
    List.foldlRecOn l _ (motive := Awaits d op) ht fun t ht k _ => ht.sendReq ..
  unfold sendReads
  refine foldl_reaches (P := fun _ => True) (Q := Awaits d op) hr (fun _ _ _ => trivial) (fun t _ => ?_) (fun t y ht => ?_) trivial
  · rw [List.getElem?_eq_getElem hpiece]
    dsimp only
    have hzero : 0 ∈ List.range (ceilDiv (r.2.2 - r.2.1) 4096) := List.mem_range.mpr (by unfold ceilDiv; omega)
    exact foldl_reaches (P := fun _ => True) (Q := Awaits d op) hzero (fun _ _ _ => trivial) (fun t _ => awaits_sendReq ..)
      (fun t k ht => ht.sendReq ..) trivial
  · split
    · exact ht
    · next w hw => exact stays _ _ w (fun i => (y.2.1 + 4096 * i, Nat.min 4096 (y.2.2 - (y.2.1 + 4096 * i)))) t ht

theorem Awaits.reqsOf {d : DieIx} {op : Nat} {s : State} (h : Awaits d op s) : reqsOf s d op .read ≠ [] := by
  obtain ⟨r, hr, hdie, hop, hkind⟩ := h
  refine List.ne_nil_of_mem (a := r) (List.mem_filter.mpr ⟨hr, ?_⟩)
  simp [hdie, hop, hkind]

/-- Nothing is delivered while reads are out. -/
theorem deliver_waits {s : State} {d : DieIx} {id : Nat} (h : reqsOf s d id .read ≠ []) : deliver d id s = s := by
  have hout : (!(reqsOf s d id .read).isEmpty) = true := by simpa using h
  unfold deliver
  split
  · rfl
  · split
    · rw [if_pos (by rw [hout, Bool.or_true])]
    · rfl

/-- A transfer with nothing planned delivers nothing. -/
theorem deliver_idle {s : State} {d : DieIx} {id : Nat} {o : Op} {x : Xfer} (hop : opOf s d id = some o) (hx : o.xfer = some x) (hplans : x.plans = [])
    (hhall : x.hall = none) : deliver d id s = s := by
  unfold deliver
  rw [hop]
  dsimp only
  rw [hx]
  split
  · next y k hy hk =>
    obtain rfl := Option.some.inj hy
    split
    · rfl
    · rw [hplans, fillHall, hhall]
  · rfl

/-- A request says of its job its epoch and its partition. -/
theorem sendReq_congr {j k : Job} (h : jobRest k = jobRest j) (d : DieIx) (op : Nat) (kind : ReqKind) (piece : Nat) (w : Piece) (off len : Nat)
    (data : List Byte) (s : State) : sendReq d k op kind piece w off len data s = sendReq d j op kind piece w off len data s := by
  have hepoch : (jobRest k).epoch = (jobRest j).epoch := by rw [h]
  have hpart : (jobRest k).part = (jobRest j).part := by rw [h]
  change k.epoch = j.epoch at hepoch
  change k.part = j.part at hpart
  unfold sendReq
  rw [hepoch, hpart]

theorem sendReads_congr {j k : Job} (h : jobRest k = jobRest j) (d : DieIx) (op bits : Nat) (pieces : List Piece) (ps : List Plan) (s : State) :
    sendReads d k op bits pieces ps s = sendReads d j op bits pieces ps s := by
  simp only [sendReads, sendReq_congr h]

theorem sendWrites_congr {j k : Job} (h : jobRest k = jobRest j) (d : DieIx) (op piece : Nat) (w : Piece) (ws : List (Nat × List Byte)) (s : State) :
    sendWrites d k op piece w ws s = sendWrites d j op piece w ws s := by
  simp only [sendWrites, sendReq_congr h]

theorem sendReq_frame (d : DieIx) (j : Job) (op : Nat) (kind : ReqKind) (piece : Nat) (w : Piece) (off len : Nat) (data : List Byte) (s : State) :
    Frame [.ports, .out, .fabric, .nextId] s (sendReq d j op kind piece w off len data s) := by
  unfold sendReq
  exact ((fields_frame (ws := [.nextId, .fabric])).then (originate_frame d _ _)).mono (by decide)

theorem sendWrites_frame (d : DieIx) (j : Job) (op piece : Nat) (w : Piece) (ws : List (Nat × List Byte)) (s : State) :
    Frame [.ports, .out, .fabric, .nextId] s (sendWrites d j op piece w ws s) := by
  unfold sendWrites
  exact .foldl (fun t r => .foldl (fun t c => sendReq_frame d j op .write piece w _ _ _ t) _ t) _ s

/-! #### The blocks of a box (R377) -/

theorem mem_blocksOf {ps : List (Nat × Nat)} {p : Nat × Nat} (h : p ∈ ps) : p.1 ∈ blocksOf ps := by
  unfold blocksOf
  refine foldl_reaches (P := fun _ => True) (Q := fun l => p.1 ∈ l) h (fun _ _ _ => trivial) (fun l _ => ?_) (fun l y hl => ?_) trivial
  · split
    · next hin => exact List.contains_iff_mem.mp hin
    · exact List.mem_append_right _ (List.mem_singleton_self _)
  · split
    · exact hl
    · exact List.mem_append_left _ hl

theorem findIdx_lt {l : List Nat} {k : Nat} (h : k ∈ l) : (l.findIdx? fun i => i == k).getD 0 < l.length := by
  obtain ⟨i, hi⟩ : ∃ i, (l.findIdx? fun i => i == k) = some i :=
    Option.isSome_iff_exists.mp (by rw [List.findIdx?_isSome]; exact List.any_eq_true.mpr ⟨k, h, by simp⟩)
  rw [hi, Option.getD_some]
  exact (List.findIdx?_eq_some_iff_getElem.mp hi).1

/-- The plan of a DGET: each element from its place in its block (R378). -/
def getPlan (b : List Byte) (ps : List (Nat × Nat)) (t : Desc) : Plan :=
  { cells := ps.zipIdx.map fun p => (t.off (t.tuple p.2),
      .far (((blocksOf ps).findIdx? fun k => k == p.1.1).getD 0) (8 * (ownEntry b p.1.1).2 + t.bits * p.1.2)), pads := [], scales := [] }

theorem getReq_work (b : List Byte) (ps : List (Nat × Nat)) (t : Desc) : (getReq b ps t).work = .get (getPlan b ps t) := rfl

theorem getPlan_served (b : List Byte) (ps : List (Nat × Nat)) (t : Desc) :
    ServedRuns ((blocksOf ps).map fun k => (ownEntry b k).1).length (readRuns t.bits [getPlan b ps t]) := by
  refine readRuns_served ?_
  rw [List.flatMap_singleton, List.length_map]
  refine farBytes_served (bits_pos t) (fun c hc i k hcell => ?_) rfl
  obtain ⟨p, hp, rfl⟩ := List.mem_map.mp hc
  obtain ⟨hi, -⟩ := Cell.far.inj hcell
  rw [← hi]
  exact findIdx_lt (mem_blocksOf (List.fst_mem_of_mem_zipIdx hp))

theorem firstFail_eq_pass {l : List Verdict} : firstFail l = .pass ↔ ∀ v ∈ l, v = .pass := by
  refine ⟨fun h => ?_, firstFail_pass⟩
  induction l with
  | nil => exact fun v hv => absurd hv (List.not_mem_nil)
  | cons w l ih =>
    cases w with
    | pass => exact fun v hv => (List.mem_cons.mp hv).elim id (ih h v)
    | _ => cases h

/-- The local end of an owner-table transfer is dense, in SCRATCH or STORE. -/
theorem ownPre_space {s : State} {d : DieIx} {table : Nat} {t : Desc} (h : ownPre s d table (some t) = .pass) : t.space ≤ 1 := by
  have hdesc := firstFail_eq_pass.mp h (firstFail [t.recheck s, failIf (2 ≤ t.space || t.transpose || t.padded) (.skip 0x0105),
    failIf (t.secret s) (.skip 0x0105)]) (List.mem_cons_of_mem _ (List.mem_singleton_self _))
  have hform := firstFail_eq_pass.mp hdesc (failIf (2 ≤ t.space || t.transpose || t.padded) (.skip 0x0105))
    (List.mem_cons_of_mem _ (List.mem_cons_self ..))
  by_contra hspace
  have hbad : decide (2 ≤ t.space) = true := decide_eq_true (by omega)
  rw [hbad] at hform
  cases hform

theorem descMem_wakeDie (e : DieIx) (s : State) (t : Desc) (slot h : Nat) : Desc.mem (wakeDie e s) t slot h = Desc.mem s t slot h := by
  simp only [Desc.mem, storeOf, ringOf, handleOf, dieOf_wakeDie]

/-- The check of an owner table looks at the fabric alone. -/
theorem Frame.ownCheck {ws : List Area} {s t : State} (h : Frame ws s t) (hfabric : Area.fabric ∉ ws) (j : Job) (b : List Byte) (origin box : List Nat) :
    ownCheck t j b origin box = ownCheck s j b origin box := by
  have hsame : t.fabric = s.fabric := h .fabric hfabric
  simp only [Machine.ownCheck, epochMembers, hsame]

theorem wakeEnds_src {q : XferReq} {t : Desc} (hsrc : q.src = t) (hlow : t.space ≤ 1) (hdst : 1 < q.dst.space) (s : State) :
    wakeEnds q s = wakeDie t.dieIx s := by
  rw [wakeEnds, hsrc, List.filter_cons, if_pos (by simpa using hlow), List.filter_cons, if_neg (by simpa using hdst)]
  rfl

theorem wakeEnds_dst {q : XferReq} {t : Desc} (hdst : q.dst = t) (hlow : t.space ≤ 1) (hsrc : 1 < q.src.space) (s : State) :
    wakeEnds q s = wakeDie t.dieIx s := by
  rw [wakeEnds, hdst, List.filter_cons, if_neg (by simpa using hsrc), List.filter_cons, if_pos (by simpa using hlow)]
  rfl

/-- What DPUT sends of each block, its elements read from a memory and a place in it. -/
def putSent (d : DieIx) (k : Job) (id draw : Nat) (b : List Byte) (places : List (Nat × Nat)) (t : Desc) (mem : Mem × Nat) (s : State) : State :=
  (blocksOf places).zipIdx.foldl (fun v i =>
    sendWrites d k id i.2 (ownEntry b i.1).1
      (elemWrites draw { t with offset := (ownEntry b i.1).2 } ((places.zipIdx.filter fun p => p.1.1 == i.1).map fun p =>
        ((p.1.2 : Int), readElem mem.1 mem.2 t (t.off (t.tuple p.2))))) v) s

theorem putSent_congr {j k : Job} (h : jobRest k = jobRest j) (d : DieIx) (id draw : Nat) (b : List Byte) (places : List (Nat × Nat)) (t : Desc)
    (mem : Mem × Nat) (s : State) : putSent d k id draw b places t mem s = putSent d j id draw b places t mem s := by
  simp only [putSent, sendWrites_congr h]

theorem putSent_frame (d : DieIx) (k : Job) (id draw : Nat) (b : List Byte) (places : List (Nat × Nat)) (t : Desc) (mem : Mem × Nat) (s : State) :
    Frame [.ports, .out, .fabric, .nextId] s (putSent d k id draw b places t mem s) := by
  unfold putSent
  refine .foldl (fun v i => ?_) _ s
  exact sendWrites_frame d k id i.2 _ _ v

theorem putBlocks_sent (d : DieIx) (k : Job) (id : Nat) (b : List Byte) (places : List (Nat × Nat)) (t : Desc) (s : State) :
    putBlocks d k id (putReq b places t) places ((blocksOf places).map fun i => (i, (ownEntry b i).2)) s =
      putSent d k id s.free b places t (Desc.mem s t 0 t.handle) { s with free := s.free + 1 } := by
  unfold putBlocks putSent
  dsimp only [putReq]
  rw [List.zipIdx_map, List.foldl_map]
  refine List.foldl_ext _ _ _ fun v i hi => ?_
  have hplace : ((blocksOf places).map fun i => (ownEntry b i).1)[i.2]? = some (ownEntry b i.1).1 := by
    rw [List.getElem?_map, List.mem_zipIdx_iff_getElem?.mp hi]
    rfl
  change (match ((blocksOf places).map fun i => (ownEntry b i).1)[i.2]? with | none => v | some w => sendWrites d k id i.2 w _ v) = _
  rw [hplace]
  rfl

section OwnerTables

variable {s : State} {a : Site} {j : Job} {t : Desc} {es : List SbEntry} {m table ix : Nat} {origin box : List Nat} {b : List Byte}
  {places : List (Nat × Nat)} (htable : ownTable s a.die table = b) (hplaces : boxPlaces (ownHead b) origin box = places)
  (hready : Ready s a j) (hfresh : idsFresh s) (hunlisted : j.wantHallmark = false) (hidle : tongsIdle s a.die 1)
  (hdesc : descOf s a.die ix = some t) (hpre : ownPre s a.die table (some t) = .pass) (hclean : (handleOf s a.die table).poisoned = false)
  (hcheck : ownCheck s j b origin box = .pass) (hlocal : ownLocal t (ownHead b) box = true)
include htable hplaces hready hfresh hunlisted hidle hdesc hpre hclean hcheck hlocal

theorem dget_awaits (hdense : t.zeroStride = false) (hadmit : sbAdmit s a.die (tableRange s a.die table :: xferRanges s a.die [] [t]) = some (es, m))
    (hruns : readRuns t.bits [getPlan b places t] ≠ []) :
    ∃ u, exec (.dget a table origin box ix) s = .next (sendReads a.die j s.nextId t.bits ((blocksOf places).map fun k => (ownEntry b k).1)
          [getPlan b places t] u) ∧
      ∃ o x, XferDone a j [] es o (wakeDie t.dieIx s) u ∧ Planned o [getPlan b places t] x ∧ x.dst = t := by
  have hcount := count_frame a.die 2 m s
  have htable' : ownTable (count a.die 2 m s) a.die table = b := by
    rw [ownTable, hcount.handleBytes (by decide), hcount.handleOf (by decide), ← htable, ownTable]
  have hlow := ownPre_space hpre
  obtain ⟨u, k, o, hflight, hxfer, hk, -, -, hstart⟩ := startXfer_planned (q := getReq b places t) m [.handle a.die table] es hready.jobOf hfresh
    hunlisted hidle rfl rfl (by change 3 ≠ 4; decide) (by constructor <;> change t.space ≠ _ <;> omega) (.inl ⟨_, rfl⟩) (fun v => rfl)
  rw [wakeEnds_dst rfl hlow (by change 1 < 3; decide)] at hflight
  have hchecks : firstFail [handlesPoison (count a.die 2 m s) a.die [table], ownCheck (count a.die 2 m s) j b origin box,
      failIf t.zeroStride (.skip 0x0105), failIf (!(ownLocal t (ownHead b) box)) (.skip 0x0102)] = .pass := by
    rw [hcount.handlesPoison (by decide), handlesPoison_clean hclean, hcount.ownCheck (by decide), hcheck, hdense, hlocal]
    rfl
  refine ⟨u, ?_, o, _, hflight.done, ⟨hxfer, rfl, rfl, rfl⟩, rfl⟩
  change ok (runInstr a (.dget a table origin box ix) (issueDget a table origin box ix) s) = _
  rw [runInstr_done (t := startXfer a (getReq b places t) j [] [] [.handle a.die table] es (count a.die 2 m s)) hready]
  · rw [hstart, deliver_waits]
    · exact congrArg ok (sendReads_congr hk ..)
    · exact (sendReads_awaited hruns (getPlan_served b places t) u).reqsOf
  · unfold issueDget
    dsimp only
    rw [hdesc, hpre]
    dsimp only
    rw [if_neg (by decide), withScoreboard_admitted hready.fresh hadmit]
    rw [htable', hchecks, if_neg (by decide), hplaces]

theorem dput_sends (hsound : t.poison s = none) (hadmit : sbAdmit s a.die (tableRange s a.die table :: xferRanges s a.die [t] []) = some (es, m)) :
    ∃ u, exec (.dput a ix table origin box) s =
        .next (putSent a.die j s.nextId (s.free + 1) b places t (Desc.mem s t 0 t.handle) u) ∧
      ∃ o x, XferDone a j [] es o (wakeDie t.dieIx s) u ∧ Planned o [] x := by
  have hcount := count_frame a.die 2 m s
  have htable' : ownTable (count a.die 2 m s) a.die table = b := by
    rw [ownTable, hcount.handleBytes (by decide), hcount.handleOf (by decide), ← htable, ownTable]
  have hlow := ownPre_space hpre
  obtain ⟨u, k, o, hflight, hxfer, hk, -, hfree, hstart⟩ := startXfer_planned (q := putReq b places t) m [.handle a.die table] es hready.jobOf hfresh
    hunlisted hidle rfl rfl (by change t.space ≠ 4; omega) (by change 3 ≠ 4 ∧ 3 ≠ 2; decide) (.inr ⟨_, _, rfl⟩) (fun v => rfl)
  rw [wakeEnds_src rfl hlow (by change 1 < 3; decide)] at hflight
  have hchecks : firstFail [handlesPoison (count a.die 2 m s) a.die [table], ownCheck (count a.die 2 m s) j b origin box,
      failIf (!(ownLocal t (ownHead b) box)) (.skip 0x0102)] = .pass := by
    rw [hcount.handlesPoison (by decide), handlesPoison_clean hclean, hcount.ownCheck (by decide), hcheck, hlocal]
    rfl
  have hmem : Desc.mem u t 0 t.handle = Desc.mem s t 0 t.handle := by
    rw [hflight.dies.descMem idleRest_blind, descMem_wakeDie]
  let u' : State := { u with free := s.free + 1 + 1 }
  have hflight' : FlightOnly a j es o (wakeDie t.dieIx s) u' := hflight.free (s.free + 1 + 1)
  refine ⟨u', ?_, o, _, hflight'.done, hxfer, rfl, rfl, rfl⟩
  change ok (runInstr a (.dput a ix table origin box) (issueDput a ix table origin box) s) = _
  rw [runInstr_done (t := startXfer a (putReq b places t) j [] [] [.handle a.die table] es (count a.die 2 m s)) hready]
  · have hsent : sendPlanned a.die k s.nextId (putReq b places t) [] (xferPieces (putReq b places t) []) u =
        putSent a.die j s.nextId (s.free + 1) b places t (Desc.mem s t 0 t.handle) u' := by
      change putBlocks _ _ _ _ _ _ _ = _
      rw [putBlocks_sent, hmem, hfree, putSent_congr hk]
    have hop : opOf (putSent a.die j s.nextId (s.free + 1) b places t (Desc.mem s t 0 t.handle) u') a.die s.nextId = some o := by
      have hbase : idsFresh (wakeDie t.dieIx s) :=
        wakeEnds_src (q := putReq b places t) rfl hlow (by change 1 < 3; decide) s ▸ FlightOnly.fresh hfresh (putReq b places t)
      have hsends := putSent_frame a.die j s.nextId (s.free + 1) b places t (Desc.mem s t 0 t.handle) u'
      rw [hsends.opOf (by decide)]
      exact hflight'.opOf hbase
    rw [hstart, hsent, deliver_idle hop hxfer rfl rfl]
  · unfold issueDput
    dsimp only
    rw [hdesc, hpre]
    dsimp only
    rw [if_neg (by decide), withScoreboard_admitted hready.fresh hadmit]
    rw [htable', hchecks, if_neg (by decide), hcount.descPoison (by decide), hsound]
    dsimp only
    rw [hplaces]

end OwnerTables

/-- Settles O37: SDIGEST enters the digest of the store handle's bytes; a DGET reads each block from its owner, and a DPUT writes it there. -/
theorem digestsAndOwnerTables : Obligations.DigestsAndOwnerTables := by
  intro s a j hready
  refine ⟨fun i hvalid => sdigest_spec hready hvalid, fun table ix origin box t es m hfresh hunlisted hidle hdesc hpre hclean hcheck hlocal => ⟨?_, ?_⟩⟩
  · intro hdense hadmit plan hruns
    obtain ⟨u, hexec, o, x, hu⟩ := dget_awaits rfl rfl hready hfresh hunlisted hidle hdesc hpre hclean hcheck hlocal hdense hadmit hruns
    exact ⟨u, hexec, o, x, hu⟩
  · intro hsound hadmit
    obtain ⟨u, hexec, o, x, hu⟩ := dput_sends rfl rfl hready hfresh hunlisted hidle hdesc hpre hclean hcheck hlocal hsound hadmit
    exact ⟨u, hexec, o, x, hu⟩

end Sys2Proof.Machine

namespace Sys2Proof.Machine

/-! ### Before an engine's operation goes in flight -/

/-- Nothing has changed that the start of an operation of a job speaks of: no operation, no scoreboard entry, no other die, and no job but
for what this one has named. -/
structure Poised (a : Site) (j : Job) (s u : State) : Prop where
  ops : (dieOf u a.die).ops = (dieOf s a.die).ops
  scoreboard : (dieOf u a.die).scoreboard = (dieOf s a.die).scoreboard
  nextId : u.nextId = s.nextId
  other_dies : OtherDies a.die s u
  jobs : u.jobs.map jobRest = s.jobs.map jobRest
  other_jobs : ∀ k ∈ s.jobs, k.id ≠ j.id → k ∈ u.jobs

namespace Poised

variable {a : Site} {j : Job} {s t u : State}

theorem refl (s : State) : Poised a j s s := ⟨rfl, rfl, rfl, fun _ _ => rfl, rfl, fun _ hk _ => hk⟩

theorem trans (h : Poised a j s t) (k : Poised a j t u) : Poised a j s u :=
  ⟨k.ops.trans h.ops, k.scoreboard.trans h.scoreboard, k.nextId.trans h.nextId, h.other_dies.trans k.other_dies, k.jobs.trans h.jobs,
    fun x hx hne => k.other_jobs x (h.other_jobs x hx hne) hne⟩

theorem of_frame {ws : List Area} (h : Frame ws s u) (hdies : Area.dies ∉ ws) (hjobs : Area.jobs ∉ ws) (hnext : Area.nextId ∉ ws) :
    Poised a j s u := by
  have hsame : u.jobs = s.jobs := h .jobs hjobs
  exact ⟨h.dieField hdies Die.ops (fun _ => rfl) _, h.dieField hdies Die.scoreboard (fun _ => rfl) _, h .nextId hnext,
    fun e _ => h .dies hdies e, by rw [hsame], fun k hk _ => hsame ▸ hk⟩

theorem updDie (f : Die → Die) (s : State) (hops : (f (dieOf s a.die)).ops = (dieOf s a.die).ops := by rfl)
    (hscoreboard : (f (dieOf s a.die)).scoreboard = (dieOf s a.die).scoreboard := by rfl) : Poised a j s (updDie a.die f s) := by
  refine ⟨?_, ?_, rfl, fun e he => ?_, rfl, fun _ hk _ => hk⟩
  · rwa [dieOf_updDie_self]
  · rwa [dieOf_updDie_self]
  · rw [dieOf_updDie_ne _ _ he]

theorem updJob (f : Job → Job) (hf : ∀ k, jobRest (f k) = jobRest k) (s : State) : Poised a j s (updJob j.id f s) :=
  ⟨rfl, rfl, rfl, fun _ _ => rfl, updJob_jobRest _ f hf s, fun k hk hne => List.mem_map.mpr ⟨k, hk, if_neg hne⟩⟩

theorem nameDests (ds : List Dest) (s : State) : Poised a j s (nameDests j.id ds s) := by
  unfold Machine.nameDests
  exact updJob _ (by exact fun _ => rfl) s

theorem logJob (e : Ev) (x : Site) (unit detail : Nat) (skip : Bool) (s : State) : Poised a j s (logJob e j x unit detail skip s) :=
  (of_frame (logEvent_frame e (evJob j x unit detail skip) s) (by decide) (by decide) (by decide)).trans
    (updJob (fun k => { k with events := k.events + 1 }) (fun _ => rfl) _)

theorem count (d : DieIx) (i n : Nat) (s : State) : Poised a j s (count d i n s) :=
  of_frame (count_frame d i n s) (by decide) (by decide) (by decide)

theorem foldl {β : Type} {f : State → β → State} (hf : ∀ s x, Poised a j s (f s x)) (l : List β) (s : State) : Poised a j s (l.foldl f s) := by
  induction l generalizing s with
  | nil => exact refl s
  | cons x l ih => exact (hf s x).trans (ih _)

/-- The operation goes in flight. -/
theorem startOp (h : Poised a j s u) {o : Op} (es : List SbEntry) (hjob : o.job = j.id) (hqueue : o.queue = a.queue) (hoff : o.off = a.off) :
    InFlight a j o.unit es { o with id := s.nextId } s (startOp a.die o es u) := by
  obtain ⟨⟨hops, -, hnames⟩, hscoreboard, hnext, hothers, hjobs, hrest⟩ := startOp_inFlight (s := u) (j := j) es hjob hqueue hoff
  rw [h.nextId] at hops hscoreboard
  exact ⟨⟨by rw [hops, h.ops], rfl, hnames⟩, by rw [hscoreboard, h.scoreboard], by rw [hnext, h.nextId], h.other_dies.trans hothers,
    hjobs.trans h.jobs, fun k hk hne => hrest k (h.other_jobs k hk hne) hne⟩

end Poised

/-- The start of an operation changes of its die the operations and the scoreboard. -/
theorem startOp_dieField (d : DieIx) (o : Op) (es : List SbEntry) (s : State) {β : Type} (g : Die → β)
    (hg : ∀ (x : Die) p q, g { x with ops := p, scoreboard := q } = g x) : g (dieOf (startOp d o es s) d) = g (dieOf s d) := by
  rw [dieOf_startOp_self]
  exact hg _ _ _

/-! ### Claims of ring slots (R244) -/

/-- The rings of a die once an operation has claimed the slots that it takes. -/
def takenRings (us : List (Nat × Bool)) (rs : Tbl Ring) : Tbl Ring :=
  us.foldl (fun rs u => if u.2 then tblSet rs u.1 { tblGetD rs u.1 Ring.zero with take := inc32 (tblGetD rs u.1 Ring.zero).take } else rs) rs

theorem dieOf_claim (d : DieIx) (u : Nat × Bool) (s : State) :
    dieOf (if u.2 then updRing d u.1 (fun g => { g with take := inc32 g.take }) s else s) d =
      { dieOf s d with rings := takenRings [u] (dieOf s d).rings } := by
  rw [takenRings, List.foldl_cons, List.foldl_nil]
  split
  · rw [updRing, dieOf_updDie_self]
  · rfl

theorem repeat_apply {α : Type} (f : α → α) (n : Nat) (x : α) : Nat.repeat f n (f x) = f (Nat.repeat f n x) := by
  induction n with
  | zero => rfl
  | succ n ih => exact congrArg f ih

theorem dieOf_claimTakes (d : DieIx) (us : List (Nat × Bool)) (s : State) :
    dieOf (claimTakes d us s) d = { dieOf s d with rings := takenRings us (dieOf s d).rings } := by
  induction us generalizing s with
  | nil => rfl
  | cons u us ih =>
    change dieOf (claimTakes d us (if u.2 then updRing d u.1 (fun g => { g with take := inc32 g.take }) s else s)) d = _
    rw [ih, dieOf_claim]
    rfl

theorem claimTakes_poised {a : Site} {j : Job} (us : List (Nat × Bool)) (s : State) : Poised a j s (claimTakes a.die us s) := by
  refine .foldl (fun s u => ?_) us s
  split
  · exact .updDie _ s
  · exact .refl s

theorem claimTakes_frame (d : DieIx) (us : List (Nat × Bool)) (s : State) : Frame [.dies] s (claimTakes d us s) := by
  refine .foldl (fun s u => ?_) us s
  split
  · exact updDie_frame_dies d _ s rfl
  · exact .refl _ s

theorem tblGetD_takenRings (us : List (Nat × Bool)) (rs : Tbl Ring) (r : Nat) :
    tblGetD (takenRings us rs) r Ring.zero = { tblGetD rs r Ring.zero with
      take := Nat.repeat inc32 (us.filter fun u => u.2 && u.1 == r).length (tblGetD rs r Ring.zero).take } := by
  unfold takenRings
  induction us generalizing rs with
  | nil => rfl
  | cons u us ih =>
    rw [List.foldl_cons, ih, List.filter_cons]
    by_cases htakes : u.2 = true
    · rw [if_pos htakes, tblGetD_tblSet]
      by_cases hr : r = u.1
      · subst hr
        simp [htakes, repeat_apply, Nat.repeat]
      · simp [hr, Ne.symm hr]
    · simp [htakes]

end Sys2Proof.Machine

namespace Sys2Proof.Machine

/-! ### Cluster operations that pass every check (R57, R94, R113 to R115) -/

section Reads

variable {ws : List Area} {s t : State} (h : Frame ws s t) (hdies : Area.dies ∉ ws)
include h hdies

theorem Frame.findSrc (d : DieIx) (l : Loc) (c : Nat) : findSrc t d l c = findSrc s d l c := by
  cases l with
  | handle k => simp only [Machine.findSrc, h.handleOf hdies, h.scratch hdies]
  | ring r k => simp only [Machine.findSrc, h.handleOf hdies, h.ringOf hdies, h.scratch hdies]
  | region row k => simp only [Machine.findSrc, h.dieField hdies Die.slots fun _ => rfl, h.dieField hdies Die.bufSecret fun _ => rfl]

theorem Frame.findSrcs (d : DieIx) (ls : List Loc) (cs : List Nat) : findSrcs t d ls cs = findSrcs s d ls cs := by
  induction ls generalizing cs with
  | nil => rfl
  | cons l ls ih => cases l <;> simp only [Machine.findSrcs, h.findSrc hdies, ih]

theorem Frame.srcBody (d : DieIx) (cs : List Nat) (x : Src) (limbs : Nat) : srcBody t d cs x limbs = srcBody s d cs x limbs := by
  simp only [Machine.srcBody, bufBytes, h.scratch hdies, h.dieField hdies Die.bufs fun _ => rfl]

theorem Frame.dstFits (d : DieIx) (cs : List Nat) (l : Loc) (x : Header) (p n : Nat) : dstFits t d cs l x p n = dstFits s d cs l x p n := by
  simp only [Machine.dstFits, h.handleOf hdies]

theorem Frame.secretOut (d : DieIx) (b : Bool) (outs : List (Loc × Header)) : secretOut t d b outs = secretOut s d b outs := by
  have hkeeps (l : Loc) : keepsSecret t d l = keepsSecret s d l := by simp only [keepsSecret, h.handleOf hdies]
  simp only [Machine.secretOut, hkeeps]

end Reads

section PartReads

variable {ws : List Area} {s t : State} (h : Frame ws s t) (hparts : Area.parts ∉ ws)
include h hparts

theorem Frame.chainOf (p : PartIx) (c : Nat) : chainOf t p c = chainOf s p c :=
  h.partField hparts (fun x => tblGet x.chains c) (fun _ => rfl) p

theorem Frame.ksOf (p : PartIx) (k : Nat) : ksOf t p k = ksOf s p k :=
  h.partField hparts (fun x => tblGetD x.keysets k KeySet.zero) (fun _ => rfl) p

theorem Frame.bindAll (d : DieIx) (p : PartIx) (slot : Nat) (x : Header) (ks : List (Nat × Nat × Nat)) :
    bindAll t d p slot x ks = bindAll s d p slot x ks := by
  induction ks with
  | nil => rfl
  | cons k ks ih => simp only [Machine.bindAll, bindCheck, h.ksOf hparts, ih]

theorem Frame.bindEach (d : DieIx) (p : PartIx) (slot : Nat) (ks : List (Nat × Nat × Nat)) (hs : List Header) :
    bindEach t d p slot ks hs = bindEach s d p slot ks hs := by
  induction hs with
  | nil => rfl
  | cons x hs ih => simp only [Machine.bindEach, h.bindAll hparts, ih]

end PartReads

theorem Frame.keyDigits {ws : List Area} {s t : State} (h : Frame ws s t) (hdies : Area.dies ∉ ws) (hfuses : Area.fuses ∉ ws) (d : DieIx) (c : Chain)
    (k : KeySet) (e : KeyEntry) (level : Nat) : keyDigits t d c k e level = keyDigits s d c k e level := by
  have hsame : t.fuses = s.fuses := h .fuses hfuses
  simp only [Machine.keyDigits, keyLimb, hsame, h.dieField hdies Die.store fun _ => rfl]

/-- The digits of the keys that an operation streams. -/
def streamedKeys (s : State) (d : DieIx) (p : PartIx) (o : CluOp) (c : Chain) (h : Header) : List (List KeyDigit) :=
  (o.streams h).map fun k => keyOf s d c (ksOf s p o.slot) k.1 k.2.1 k.2.2

/-- The limbs of an operation's results. -/
def cluBodies (s : State) (a : Site) (mask : BitVec 8) (j : Job) (o : CluOp) (c : Chain) (xs : List Src) : List PolyBody :=
  let hs := xs.map (·.header)
  o.body (ringCtx c s.fuses.primes (hs.headD headerZero)) hs (streamedKeys s a.die j.part o c (hs.headD headerZero)) (xs.map (limbsAt s a mask c))

/-- What the operation's own checks ask of operands that are otherwise in order. -/
structure CluPasses (s : State) (a : Site) (mask : BitVec 8) (j : Job) (o : CluOp) (c : Chain) (xs : List Src) : Prop where
  outs : o.dsts.length = o.outs
  form : o.form (some c) (xs.map (·.header)) = true
  keys : o.keySwitch = true → c.pCount ≠ 0
  level : o.level (xs.map (·.header)) = .pass
  scale : o.scale (xs.map (·.header)) = true
  scales : ∀ h ∈ o.heads c s.fuses.primes (xs.map (·.header)), scaleOk h.1 = true
  fits : ∀ x ∈ o.dsts.zip (settled o c s.fuses.primes (xs.map (·.header))), dstFits s a.die (maskClusters mask) x.1 x.2 c.pCount (limbsOf c x.2) = true
  secret : secretOut s a.die (xs.any (·.secret)) (o.dsts.zip (settled o c s.fuses.primes (xs.map (·.header)))) = .pass
  bound : bindEach s a.die j.part o.slot (o.streams ((xs.map (·.header)).headD headerZero)) (o.bound (xs.map (·.header))) = .ok

section Issue

variable {s : State} {a : Site} {mask : BitVec 8} {j : Job} {o : CluOp} {c : Chain} {xs : List Src} {slots : List Nat} {es : List SbEntry}
  {srcs dsts : List Loc}

theorem failIf_false (v : Verdict) : failIf false v = .pass := rfl

theorem any_eq_false {α : Type} {l : List α} {p : α → Bool} (h : ∀ x ∈ l, p x = false) : l.any p = false :=
  List.any_eq_false.mpr fun x hx => by simp [h x hx]

/-- A check of the headers of sources. -/
theorem any_header_false {p : Header → Bool} (h : ∀ x ∈ xs, p x.header = false) : (xs.map (·.header)).any p = false := by
  rw [List.any_map]
  exact any_eq_false h

theorem CluReady.poisonCheck (h : CluReady s a mask j srcs dsts c xs slots es extra) : poisonCheck xs = .pass := by
  have hnone : (xs.findSome? fun x => if x.poison.isSome then x.poison
      else if x.hdr.length == 64 && (headerOfBytes x.hdr).poisoned then some (0x0107 : Ev) else none) = none := by
    refine List.findSome?_eq_none_iff.mpr fun x hx => ?_
    obtain ⟨hpoison, hheader⟩ := h.clean x hx
    rw [hpoison, show (headerOfBytes x.hdr).poisoned = false from hheader, Bool.and_false]
    rfl
  rw [Machine.poisonCheck, hnone]

theorem CluReady.head (h : CluReady s a mask j srcs dsts c xs slots es extra) : ∃ x ∈ xs, (xs.map (·.header)).headD headerZero = x.header ∧
    ∀ y, xs.headD y = x := by
  obtain ⟨x, l, hxs⟩ := List.exists_cons_of_ne_nil h.given
  exact ⟨x, by simp [hxs], by simp [hxs], fun y => by simp [hxs]⟩

theorem CluReady.formCheck (h : CluReady s a mask j srcs dsts c xs slots es extra) (houts : o.dsts.length = o.outs)
    (hform : o.form (some c) (xs.map (·.header)) = true) : formCheck o (some c) xs (xs.map (·.header)) = .pass := by
  obtain ⟨x, hx, hhead, -⟩ := h.head
  have hsound : (xs.any fun y => !(headerSound y.hdr)) = false := any_eq_false fun y hy => by rw [(h.sound y hy).1]; rfl
  have hrange : ((xs.map (·.header)).any fun y => !(headerInRange y)) = false := any_header_false fun y hy => by rw [(h.sound y hy).2.1]; rfl
  have hshare : (xs.map (·.header)).any (·.share) = false := any_header_false fun y hy => (h.sound y hy).2.2.1
  have hseeded : (xs.map (·.header)).any (·.seeded) = false := any_header_false fun y hy => (h.sound y hy).2.2.2
  have hntt : ((xs.map (·.header)).any fun y => y.ntt != ((xs.map (·.header)).headD headerZero).ntt) = false :=
    any_header_false fun y hy => by rw [hhead, (h.alike y hy x hx).2.1]; simp
  rw [Machine.formCheck]
  rw [hsound, hrange, hshare, hseeded, hntt, hform, houts]
  simp [failIf]

theorem CluReady.ringCheck (h : CluReady s a mask j srcs dsts c xs slots es extra) {keys : Bool} (hkeys : keys = true → c.pCount ≠ 0) :
    ringCheck3 keys (some c) (xs.map (·.header)) = .pass := by
  obtain ⟨x, hx, hhead, -⟩ := h.head
  have hring : ((xs.map (·.header)).any fun y => !(sameRing x.header y)) = false := any_header_false fun y hy => by rw [(h.alike x hx y hy).1]; rfl
  have hlevel : ((xs.map (·.header)).any fun y => decide (c.qCount ≤ y.level)) = false := any_header_false fun y hy => by simpa using (h.chain y hy).2.1
  have ht : (x.header.scheme == 2 && c.t x.header.tIndex == 0) = false := by
    rw [Bool.and_eq_false_iff]
    by_cases hscheme : x.header.scheme = 2
    · exact .inr (by simpa using (h.chain x hx).2.2 hscheme)
    · exact .inl (by simpa using hscheme)
  have hp : (keys && c.pCount == 0) = false := by
    cases keys with
    | false => rfl
    | true => simpa using hkeys rfl
  rw [ringCheck3]
  rw [hhead, hring, hlevel, ht, hp]
  rfl

theorem CluReady.levelCheck (h : CluReady s a mask j srcs dsts c xs slots es extra) : levelCheck (xs.map (·.header)) = .pass := by
  obtain ⟨x, hx, hhead, -⟩ := h.head
  have hlevel : ((xs.map (·.header)).any fun y => y.level != ((xs.map (·.header)).headD headerZero).level) = false :=
    any_header_false fun y hy => by rw [hhead, (h.alike y hy x hx).2.2]; simp
  rw [Machine.levelCheck, hlevel]
  rfl

/-- The checks of R57 on operands in order. -/
theorem CluReady.checks (h : CluReady s a mask j srcs dsts c xs slots es extra) (hp : CluPasses s a mask j o c xs) :
    checks57 o s.fuses.primes (some c) xs = .pass := by
  have hscales : ((o.heads c s.fuses.primes (xs.map (·.header))).any fun h => !(scaleOk h.1)) = false := any_eq_false fun y hy => by
    rw [hp.scales y hy]
    rfl
  rw [checks57]
  rw [h.poisonCheck, h.formCheck hp.outs hp.form, h.ringCheck hp.keys, h.tags, h.levelCheck, hp.level, hp.scale, hscales]
  rfl

theorem issueClu_run (h : CluReady s a mask j o.srcs o.dsts c xs slots es) (hp : CluPasses s a mask j o c xs) :
    ∃ m, issueClu a mask o j s = .done (runClu a mask o j c xs slots es (count a.die 2 m s)) := by
  obtain ⟨m, hadmit⟩ := h.admitted
  rw [List.append_nil] at hadmit
  have hcount := count_frame a.die 2 m s
  have hcat : (count a.die 2 m s).fuses = s.fuses := hcount .fuses (by decide)
  obtain ⟨x, hx, -, hfirst⟩ := h.head
  have hpre : firstFail (o.srcs.map (locCheck s a.die) ++ o.dsts.map (dstCheck s a.die) ++
      [.pass, failIf (mask == 0) (.skip 0x0105)]) = .pass := by
    refine firstFail_pass fun v hv => ?_
    rw [show (mask == 0) = false from by simpa using h.clusters] at hv
    simp only [List.mem_append, List.mem_map, List.mem_cons, List.not_mem_nil, or_false] at hv
    obtain (⟨l, hl, rfl⟩ | ⟨l, hl, rfl⟩) | rfl | rfl := hv
    · exact h.sources l hl
    · exact h.places l hl
    · rfl
    · rfl
  have hfit : (xs.any fun x => !(srcFits (maskClusters mask) x c.pCount (limbsOf c x.header))) = false := any_eq_false fun y hy => by
    rw [h.extents y hy]
    rfl
  have hplace : ((o.dsts.zip (settled o c s.fuses.primes (xs.map (·.header)))).any fun x =>
      !(dstFits (count a.die 2 m s) a.die (maskClusters mask) x.1 x.2 c.pCount (limbsOf c x.2))) = false := any_eq_false fun y hy => by
    rw [hcount.dstFits (by decide), hp.fits y hy]
    rfl
  refine ⟨m, ?_⟩
  unfold issueClu
  dsimp only
  rw [h.rings, h.filled]
  dsimp only
  rw [hpre, if_neg (by decide)]
  rw [withScoreboard_admitted h.ready.fresh hadmit]
  rw [hcount.findSrcs (by decide), ← h.found, hfirst, hcount.chainOf (by decide), (h.chain x hx).1, hcat, h.checks hp, if_neg (by decide)]
  dsimp only
  rw [hfit, hplace, hcount.secretOut (by decide), hp.secret, if_neg (by decide), hcount.bindEach (by decide), hp.bound]

end Issue

end Sys2Proof.Machine

namespace Sys2Proof.Machine

/-! ### What a cluster operation writes (R49, R51, R111, R115) -/

/-- A die but for what an object that lands on it changes. -/
def landedRest (x : Die) : Die := { x with scratch := [], bufs := [], bufSecret := [], slots := [] }

/-- Objects have landed on a die: nothing else has changed. -/
structure Lands (d : DieIx) (s u : State) : Prop where
  frame : Frame [.dies] s u
  others : ∀ e, e ≠ d → dieOf u e = dieOf s e
  rest : landedRest (dieOf u d) = landedRest (dieOf s d)
  nextId : u.nextId = s.nextId
  jobs : u.jobs = s.jobs

namespace Lands

variable {d : DieIx} {s t u : State}

theorem refl (d : DieIx) (s : State) : Lands d s s := ⟨.refl _ s, fun _ _ => rfl, rfl, rfl, rfl⟩

theorem trans (h : Lands d s t) (k : Lands d t u) : Lands d s u :=
  ⟨h.frame.trans k.frame, fun e he => (k.others e he).trans (h.others e he), k.rest.trans h.rest, k.nextId.trans h.nextId, k.jobs.trans h.jobs⟩

theorem updDie (f : Die → Die) (s : State) (hf : landedRest (f (dieOf s d)) = landedRest (dieOf s d)) : Lands d s (updDie d f s) := by
  have hcounters : (landedRest (f (dieOf s d))).counters = (landedRest (dieOf s d)).counters := by rw [hf]
  refine ⟨updDie_frame_dies d f s hcounters, fun e he => dieOf_updDie_ne f s he, ?_, rfl, rfl⟩
  rw [dieOf_updDie_self, hf]

theorem foldl {β : Type} {f : State → β → State} (hf : ∀ s x, Lands d s (f s x)) (l : List β) (s : State) : Lands d s (l.foldl f s) := by
  induction l generalizing s with
  | nil => exact refl d s
  | cons x l ih => exact (hf s x).trans (ih _)

theorem field (h : Lands d s u) {β : Type} (g : Die → β) (hg : ∀ x, g (landedRest x) = g x) : g (dieOf u d) = g (dieOf s d) := by
  rw [← hg, h.rest, hg]

theorem poised {a : Site} {j : Job} (h : Lands a.die s u) : Poised a j s u :=
  ⟨h.field Die.ops fun _ => rfl, h.field Die.scoreboard fun _ => rfl, h.nextId, fun e he => by rw [h.others e he], by rw [h.jobs],
    fun k hk _ => h.jobs ▸ hk⟩

end Lands

theorem putHandle_lands (d : DieIx) (k o : Nat) (bs : List Byte) (s : State) : Lands d s (putHandle d k o bs s) := by
  unfold putHandle
  exact .updDie _ s rfl

theorem putObj_lands (d : DieIx) (cs : List Nat) (l : Loc) (h : Header) (b : PolyBody) (s : State) : Lands d s (putObj d cs l h b s) := by
  cases l with
  | handle k => exact putHandle_lands ..
  | ring r k => exact .refl d s
  | region row k =>
    unfold putObj
    refine Lands.trans (.updDie _ s rfl) (.foldl (fun s p => .foldl (fun s l => ?_) _ s) _ _)
    unfold putRegionLimb putBuf
    exact .updDie _ s rfl

theorem putHead_lands (d : DieIx) (l : Loc) (h : Header) (s : State) : Lands d s (putHead d l h s) := by
  cases l with
  | handle k => exact putHandle_lands ..
  | ring r k => exact .refl d s
  | region row k =>
    unfold putHead
    exact .updDie _ s rfl

theorem markRegion_lands (d : DieIx) (cs : List Nat) (job row n parts limbs : Nat) (s : State) : Lands d s (markRegion d cs job row n parts limbs s) := by
  unfold markRegion
  exact .updDie _ s rfl

/-- What a die shows of the objects in its scratchpad and its cluster buffers. -/
def objectMem (x : Die) : Mem × List Mem × Tbl (List Byte × Bool) × Tbl Handle := (x.scratch, x.bufs, x.slots, x.handles)

/-- Objects stand alike on a die in two states. -/
def SameObjects (d : DieIx) (s u : State) : Prop := objectMem (dieOf u d) = objectMem (dieOf s d)

namespace SameObjects

variable {d : DieIx} {s t u : State}

theorem trans (h : SameObjects d s t) (k : SameObjects d t u) : SameObjects d s u := Eq.trans k h

theorem of_frame {ws : List Area} (h : Frame ws s u) (hdies : Area.dies ∉ ws) : SameObjects d s u := h.dieField hdies objectMem (fun _ => rfl) d

theorem updDie {f g : Die → Die} (hf : objectMem (g (dieOf u d)) = objectMem (f (dieOf s d))) :
    SameObjects d (updDie d f s) (updDie d g u) := by
  unfold SameObjects
  rw [dieOf_updDie_self, dieOf_updDie_self, hf]

theorem parts (h : SameObjects d s u) : (dieOf u d).scratch = (dieOf s d).scratch ∧ (dieOf u d).bufs = (dieOf s d).bufs ∧
    (dieOf u d).slots = (dieOf s d).slots ∧ (dieOf u d).handles = (dieOf s d).handles := by
  obtain ⟨hscratch, hbufs, hslots, hhandles⟩ := by simpa only [SameObjects, objectMem, Prod.mk.injEq] using h
  exact ⟨hscratch, hbufs, hslots, hhandles⟩

theorem putHandle (h : SameObjects d s u) (k o : Nat) (bs : List Byte) : SameObjects d (putHandle d k o bs s) (putHandle d k o bs u) := by
  obtain ⟨hscratch, hbufs, hslots, hhandles⟩ := h.parts
  refine .updDie ?_
  simp only [objectMem, handleOf, hscratch, hbufs, hslots, hhandles]

theorem putBuf (h : SameObjects d s u) (k r : Nat) (bs : List Byte) : SameObjects d (putBuf d k r bs s) (putBuf d k r bs u) := by
  obtain ⟨hscratch, hbufs, hslots, hhandles⟩ := h.parts
  unfold Machine.putBuf
  refine updDie ?_
  simp only [objectMem, hscratch, hbufs, hslots, hhandles]

theorem putRegionLimb (h : SameObjects d s u) (cs : List Nat) (row n limbs p i : Nat) (l : Limb) :
    SameObjects d (putRegionLimb d cs row n limbs p i l s) (putRegionLimb d cs row n limbs p i l u) := by
  unfold Machine.putRegionLimb
  exact h.putBuf ..

theorem foldl {β : Type} {f : State → β → State} (hf : ∀ x s u, SameObjects d s u → SameObjects d (f s x) (f u x)) (l : List β)
    (h : SameObjects d s u) : SameObjects d (l.foldl f s) (l.foldl f u) := by
  induction l generalizing s u with
  | nil => exact h
  | cons x l ih => exact ih (hf x s u h)

theorem putObj (h : SameObjects d s u) (cs : List Nat) (l : Loc) (x : Header) (b : PolyBody) :
    SameObjects d (putObj d cs l x b s) (putObj d cs l x b u) := by
  cases l with
  | handle k => exact h.putHandle ..
  | ring r k => exact h
  | region row k =>
    unfold Machine.putObj
    refine foldl (fun p s u h => ?_) _ (updDie ?_)
    · refine foldl (fun l s u h => ?_) _ h
      exact h.putRegionLimb ..
    · obtain ⟨hscratch, hbufs, hslots, hhandles⟩ := h.parts
      simp only [objectMem, hscratch, hbufs, hslots, hhandles]

end SameObjects

/-! ### Key streams (R85, R90, R442) -/

theorem updKs_frame (p : PartIx) (k : Nat) (f : KeySet → KeySet) (s : State) : Frame [.parts] s (updKs p k f s) := fun a ha => by
  cases a with
  | partLogs =>
    intro q
    by_cases hq : q = p
    · subst hq
      rw [updKs, partOfIx_updPart_self]
    · rw [updKs, partOfIx_updPart_ne _ _ hq]
  | parts => exact absurd (List.mem_singleton_self _) ha
  | _ => exact updPart_frame p _ s _ (by decide)

/-- A key set that has served streams. -/
def servedKeys (n boundary : Nat) (k : KeySet) : KeySet := { k with useCount := (k.useCount + n) % 2 ^ 64, lastUse := boundary % 2 ^ 32 }

/-- A job that a key set has served. -/
def servedJob (slot : Nat) (h : Header) (x : Job) : Job :=
  { x with binds := if x.binds.contains slot then x.binds else x.binds ++ [slot]
           keyTags := if x.keyTags.contains h.keysetTag then x.keyTags else x.keyTags ++ [h.keysetTag] }

theorem drawStreams_eq (p : PartIx) (slot : Nat) (j : Job) (h : Header) (n : Nat) (s : State) : drawStreams p slot j h n s =
    if n = 0 then s else updJob j.id (servedJob slot h) (updKs p slot (servedKeys n s.hearth.boundaries) s) := rfl

section Streams

variable (p : PartIx) (slot : Nat) (j : Job) (h : Header) (n : Nat) (s : State)

theorem drawStreams_frame : Frame [.parts, .jobs] s (drawStreams p slot j h n s) := by
  rw [drawStreams_eq]
  split
  · exact .refl _ s
  · exact ((updKs_frame p slot _ s).then (updJob_frame j.id _ _)).mono (by decide)

theorem drawStreams_poised {a : Site} : Poised a j s (drawStreams p slot j h n s) := by
  rw [drawStreams_eq]
  split
  · exact .refl s
  · exact (Poised.of_frame (updKs_frame p slot _ s) (by decide) (by decide) (by decide)).trans (.updJob (servedJob slot h) (fun _ => rfl) _)

theorem ksOf_drawStreams (q : PartIx) (i : Nat) : ksOf (drawStreams p slot j h n s) q i =
    if n ≠ 0 ∧ q = p ∧ i = slot then servedKeys n s.hearth.boundaries (ksOf s p slot)
    else ksOf s q i := by
  rw [drawStreams_eq]
  by_cases hn : n = 0
  · simp [hn]
  · rw [if_neg hn]
    change ksOf (updKs p slot _ s) q i = _
    rw [ksOf_updKs]
    simp [hn]

theorem drawStreams_parts (q : PartIx) :
    { partOfIx (drawStreams p slot j h n s) q with log := [], keysets := [] } = { partOfIx s q with log := [], keysets := [] } := by
  rw [drawStreams_eq]
  split
  · rfl
  · change { partOfIx (updKs p slot _ s) q with log := [], keysets := [] } = _
    by_cases hq : q = p
    · subst hq
      rw [updKs, partOfIx_updPart_self]
    · rw [updKs, partOfIx_updPart_ne _ _ hq]

end Streams

/-! ### A cluster operation whose checks have passed -/

/-- Rows of regions are remembered with a job where a source was secret (R111). -/
def markOuts (d : DieIx) (cs : List Nat) (j : Job) (c : Chain) (secret : Bool) (outs : List (Loc × Header)) (s : State) : State :=
  if secret then outs.foldl (fun s x => match x.1 with
      | .region row _ => markRegion d cs j.id row x.2.logN x.2.parts (limbsOf c x.2) s
      | _ => s) s else s

theorem markOuts_lands (d : DieIx) (cs : List Nat) (j : Job) (c : Chain) (secret : Bool) (outs : List (Loc × Header)) (s : State) :
    Lands d s (markOuts d cs j c secret outs s) := by
  unfold markOuts
  split
  · refine .foldl (fun s x => ?_) _ s
    split
    · exact markRegion_lands ..
    · exact .refl d s
  · exact .refl d s

theorem markOuts_objects (d : DieIx) (cs : List Nat) (j : Job) (c : Chain) (secret : Bool) (outs : List (Loc × Header)) (s : State) :
    SameObjects d s (markOuts d cs j c secret outs s) := by
  unfold markOuts
  split
  · induction outs generalizing s with
    | nil => rfl
    | cons x l ih =>
      refine SameObjects.trans ?_ (ih _)
      dsimp only
      split
      · unfold SameObjects markRegion
        rw [dieOf_updDie_self]
        rfl
      · rfl
  · rfl

/-- A result that loses its margin first is logged (R61). -/
def noteDegraded (a : Site) (j : Job) (hs outs : List Header) (s : State) : State :=
  if newlyDegraded hs outs then logJob 0x0204 j a 1 0 false s else s

theorem noteDegraded_frame (a : Site) (j : Job) (hs outs : List Header) (s : State) : Frame (logAreas ++ [.jobs]) s (noteDegraded a j hs outs s) := by
  unfold noteDegraded
  split
  · exact logJob_frame _ _ _ _ _ _ _
  · exact .refl _ s

/-- What a cluster operation does before its results land. -/
def cluBefore (a : Site) (j : Job) (hs outs : List Header) (h : Header) (slot n : Nat) (us : List (Nat × Bool)) (s : State) : State :=
  claimTakes a.die us (drawStreams j.part slot j h n (noteDegraded a j hs outs s))

/-- The operation that a cluster operation starts. -/
def cluOp (a : Site) (mask : BitVec 8) (o : CluOp) (j : Job) (c : Chain) (xs : List Src) (slots : List Nat) (outs : List Header) (keys : Nat) : Op :=
  let hs := xs.map (·.header)
  let cs := maskClusters mask
  let n := (hs.headD headerZero).logN
  { opZero 0 j.id a.queue a.off 1 with
    dests := allDests a.die mask ((outs.map fun x => regionRows cs x.logN x.parts (limbsOf c x)).foldl Nat.max 0) o.dsts
    takes := takeClaims (ringUses o.srcs) slots, clusters := mask, srcs := allDests a.die mask 0 o.srcs, keySlots := List.replicate keys o.slot
    cost := o.cost c hs cs.length (xs.map fun x => portCharge n x.loc) ((o.dsts.map (portCharge n)).foldl Nat.max 0) }

/-- The results that land. -/
def putResults (d : DieIx) (cs : List Nat) (outs : List (Loc × Header × PolyBody)) (s : State) : State :=
  outs.foldl (fun s x => putObj d cs x.1 x.2.1 x.2.2 s) s

theorem putResults_lands (d : DieIx) (cs : List Nat) (outs : List (Loc × Header × PolyBody)) (s : State) : Lands d s (putResults d cs outs s) := by
  unfold putResults
  exact .foldl (fun s x => putObj_lands d cs x.1 x.2.1 x.2.2 s) outs s

theorem SameObjects.putResults {d : DieIx} {s u : State} (h : SameObjects d s u) (cs : List Nat) (outs : List (Loc × Header × PolyBody)) :
    SameObjects d (putResults d cs outs s) (putResults d cs outs u) :=
  foldl (fun x _ _ h => h.putObj cs x.1 x.2.1 x.2.2) outs h

section Done

variable {base s : State} {a : Site} {j : Job} {hs outs : List Header} {h : Header} {slot n : Nat} {us : List (Nat × Bool)}

theorem cluBefore_poised : Poised a j s (cluBefore a j hs outs h slot n us s) := by
  refine (Poised.trans ?_ (drawStreams_poised ..)).trans (claimTakes_poised ..)
  unfold noteDegraded
  split
  · exact .logJob ..
  · exact .refl s

theorem cluBefore_frame : Frame (logAreas ++ [.dies, .parts, .jobs]) s (cluBefore a j hs outs h slot n us s) := by
  have hlog := noteDegraded_frame a j hs outs s
  exact ((hlog.then (drawStreams_frame _ _ _ _ _ _)).then (claimTakes_frame _ _ _)).mono (by decide)

theorem cluBefore_objects : SameObjects a.die s (cluBefore a j hs outs h slot n us s) := by
  have hdraw := (noteDegraded_frame a j hs outs s).then (drawStreams_frame j.part slot j h n _)
  refine SameObjects.trans (.of_frame hdraw (by decide)) ?_
  unfold SameObjects cluBefore
  rw [dieOf_claimTakes]
  rfl

/-- Before the claims nothing of a die has changed but its counters. -/
theorem cluBefore_die : { dieOf (cluBefore a j hs outs h slot n us s) a.die with counters := [] } =
    { dieOf s a.die with counters := [], rings := takenRings us (dieOf s a.die).rings } := by
  have hlog := noteDegraded_frame a j hs outs s
  have hdraw := hlog.then (drawStreams_frame j.part slot j h n _)
  have hsame := hdraw .dies (by decide) a.die
  unfold cluBefore
  rw [dieOf_claimTakes]
  exact congrArg (fun x : Die => { x with rings := takenRings us x.rings }) hsame

theorem cluBefore_log : if newlyDegraded hs outs then Logged 0x0204 (evJob j a 1 0 false) s (cluBefore a j hs outs h slot n us s)
    else (cluBefore a j hs outs h slot n us s).log = s.log := by
  have hafter (t : State) : (claimTakes a.die us (drawStreams j.part slot j h n t)).log = t.log :=
    ((drawStreams_frame j.part slot j h n t).then (claimTakes_frame a.die us _)) .log (by decide)
  unfold cluBefore noteDegraded
  split
  · obtain ⟨hseq, time, hentries⟩ := logJob_logged 0x0204 j a 1 0 false s
    exact ⟨by rw [hafter, hseq], time, by rw [hafter, hentries]⟩
  · exact hafter s

theorem cluBefore_ksOf (q : PartIx) (i : Nat) : ksOf (cluBefore a j hs outs h slot n us s) q i =
    if n ≠ 0 ∧ q = j.part ∧ i = slot then servedKeys n s.hearth.boundaries (ksOf s j.part slot) else ksOf s q i := by
  have hlog := noteDegraded_frame a j hs outs s
  have hhearth := hlog .hearth (by decide)
  unfold cluBefore
  rw [(claimTakes_frame a.die us _).ksOf (by decide), ksOf_drawStreams, hlog.ksOf (by decide), hlog.ksOf (by decide), hhearth]

theorem cluBefore_parts (q : PartIx) : { partOfIx (cluBefore a j hs outs h slot n us s) q with log := [], keysets := [] } =
    { partOfIx s q with log := [], keysets := [] } := by
  have hlog := noteDegraded_frame a j hs outs s
  let f (x : Partition) : Partition := { x with log := [], keysets := [] }
  unfold cluBefore
  exact ((claimTakes_frame a.die us _).partField (by decide) f (fun _ => rfl) q).trans
    ((drawStreams_parts j.part slot j h n _ q).trans (hlog.partField (by decide) f (fun _ => rfl) q))

end Done

/-- A cluster operation with results of its own: the log, the streams, the claims, the results and the operation. -/
theorem runClu_eq {a : Site} {mask : BitVec 8} {o : CluOp} {j : Job} {c : Chain} {xs : List Src} {slots : List Nat} {es : List SbEntry} {u : State}
    (hplace : o.inPlace = false) :
    let hs := xs.map (·.header)
    let outs := settled o c u.fuses.primes hs
    let keys := (streamedKeys u a.die j.part o c (hs.headD headerZero)).length
    runClu a mask o j c xs slots es u = startOp a.die (cluOp a mask o j c xs slots outs keys) es
      (markOuts a.die (maskClusters mask) j c (xs.any (·.secret)) (o.dsts.zip outs)
        (putResults a.die (maskClusters mask) (o.dsts.zip (outs.zip (cluBodies u a mask j o c xs)))
          (cluBefore a j hs outs (hs.headD headerZero) o.slot (o.drawn keys) (ringUses o.srcs) u))) := by
  intro hs outs keys
  unfold runClu
  dsimp only
  rw [hplace, if_neg Bool.false_ne_true, if_neg Bool.false_ne_true, List.map_const']
  rfl

theorem settled_congr {base s : State} (h : s.fuses = base.fuses) (o : CluOp) (c : Chain) (hs : List Header) :
    settled o c s.fuses.primes hs = settled o c base.fuses.primes hs := by rw [h]

section Result

variable {base s : State} {a : Site} {mask : BitVec 8} {o : CluOp} {j : Job} {c : Chain} {xs : List Src}

theorem streamedKeys_congr {ws : List Area} (h : Frame ws base s) (hdies : Area.dies ∉ ws) (hparts : Area.parts ∉ ws) (hfuses : Area.fuses ∉ ws)
    (x : Header) : streamedKeys s a.die j.part o c x = streamedKeys base a.die j.part o c x := by
  unfold streamedKeys
  refine List.map_congr_left fun k _ => ?_
  unfold keyOf
  rw [h.ksOf hparts]
  split
  · exact h.keyDigits hdies hfuses ..
  · rfl

theorem cluBodies_congr {ws : List Area} (h : Frame ws base s) (hdies : Area.dies ∉ ws) (hparts : Area.parts ∉ ws) (hfuses : Area.fuses ∉ ws) :
    cluBodies s a mask j o c xs = cluBodies base a mask j o c xs := by
  have hsame : s.fuses = base.fuses := h .fuses hfuses
  have hlimbs : xs.map (limbsAt s a mask c) = xs.map (limbsAt base a mask c) := List.map_congr_left fun x _ => h.srcBody hdies ..
  unfold cluBodies
  dsimp only
  rw [streamedKeys_congr h hdies hparts hfuses, hsame, hlimbs]

/-- What a cluster operation leaves, from a state that has the counters alone behind its base (R59, R90, R113, R244). -/
theorem runClu_done (hcount : Frame [.counters] base s) (hplace : o.inPlace = false) {outs : List Header} {bodies : List PolyBody} (slots : List Nat)
    (es : List SbEntry) (houts : settled o c base.fuses.primes (xs.map (·.header)) = outs) (hbodies : cluBodies base a mask j o c xs = bodies)
    (hlen : outs.length = bodies.length) :
    CluDone a mask j o.srcs o.dsts (xs.map (·.header)) (outs.zip bodies) o.slot (o.drawn (o.streams ((xs.map (·.header)).headD headerZero)).length)
      es base (runClu a mask o j c xs slots es s) := by
  have hfuses : s.fuses = base.fuses := hcount .fuses (by decide)
  have hrun := runClu_eq (a := a) (mask := mask) (j := j) (c := c) (xs := xs) (slots := slots) (es := es) (u := s) hplace
  dsimp only at hrun
  rw [settled_congr hfuses, houts, cluBodies_congr hcount (by decide) (by decide) (by decide), hbodies,
    streamedKeys_congr hcount (by decide) (by decide) (by decide), streamedKeys, List.length_map] at hrun
  generalize (xs.map (·.header)).headD headerZero = h at hrun ⊢
  generalize hn : o.drawn (o.streams h).length = n at hrun ⊢
  generalize hop : cluOp a mask o j c xs slots outs (o.streams h).length = op at hrun
  generalize xs.map (·.header) = hs at hrun ⊢
  have hheads : (outs.zip bodies).map (·.1) = outs := List.map_fst_zip hlen.le
  have hposed : Poised a j s (cluBefore a j hs outs h o.slot n (ringUses o.srcs) s) := cluBefore_poised
  have hframe : Frame (logAreas ++ [.dies, .parts, .jobs]) s (cluBefore a j hs outs h o.slot n (ringUses o.srcs) s) := cluBefore_frame
  have hobjects : SameObjects a.die s (cluBefore a j hs outs h o.slot n (ringUses o.srcs) s) := cluBefore_objects
  have hdie := cluBefore_die (s := s) (a := a) (j := j) (hs := hs) (outs := outs) (h := h) (slot := o.slot) (n := n) (us := ringUses o.srcs)
  have hlog := cluBefore_log (s := s) (a := a) (j := j) (hs := hs) (outs := outs) (h := h) (slot := o.slot) (n := n) (us := ringUses o.srcs)
  have hks := cluBefore_ksOf (s := s) (a := a) (j := j) (hs := hs) (outs := outs) (h := h) (slot := o.slot) (n := n) (us := ringUses o.srcs)
  have hparts := cluBefore_parts (s := s) (a := a) (j := j) (hs := hs) (outs := outs) (h := h) (slot := o.slot) (n := n) (us := ringUses o.srcs)
  generalize cluBefore a j hs outs h o.slot n (ringUses o.srcs) s = u at hrun hposed hframe hobjects hdie hlog hks hparts
  have hland := (putResults_lands a.die (maskClusters mask) (o.dsts.zip (outs.zip bodies)) u).trans
    (markOuts_lands a.die (maskClusters mask) j c (xs.any (·.secret)) (o.dsts.zip outs) _)
  have hmem := (((SameObjects.of_frame hcount (by decide)).trans hobjects).putResults (maskClusters mask) (o.dsts.zip (outs.zip bodies))).trans
    (markOuts_objects a.die (maskClusters mask) j c (xs.any (·.secret)) (o.dsts.zip outs) _)
  generalize markOuts a.die (maskClusters mask) j c (xs.any (·.secret)) (o.dsts.zip outs)
    (putResults a.die (maskClusters mask) (o.dsts.zip (outs.zip bodies)) u) = v at hrun hland hmem
  have hstart := startOp_frame a.die op es v
  have hbefore := hcount.then hframe
  have hafter := hland.frame.then hstart
  have hrings : (dieOf u a.die).rings = takenRings (ringUses o.srcs) (dieOf base a.die).rings := by
    rw [← hcount.dieField (by decide) Die.rings fun _ => rfl]
    exact congrArg Die.rings hdie
  have hrest : cluRest (dieOf u a.die) = cluRest (dieOf base a.die) :=
    (congrArg cluRest hdie).trans (hcount.dieField (by decide) cluRest (fun _ => rfl) a.die)
  have hop' : op.unit = 1 ∧ op.job = j.id ∧ op.queue = a.queue ∧ op.off = a.off := by
    rw [← hop]
    exact ⟨rfl, rfl, rfl, rfl⟩
  obtain ⟨hunit, hjob, hqueue, hoff⟩ := hop'
  have hhearth : s.hearth = base.hearth := hcount .hearth (by decide)
  rw [hrun]
  refine ⟨?_, ?_, fun r => ?_, ?_, ?_, fun p k hk => ?_, fun p => ?_, ?_, ?_⟩
  · obtain ⟨hscratch, hbufs, hslots, -⟩ := hmem.parts
    rw [startOp_dieField a.die op es v Die.scratch fun _ _ _ => rfl, startOp_dieField a.die op es v Die.bufs fun _ _ _ => rfl,
      startOp_dieField a.die op es v Die.slots fun _ _ _ => rfl]
    exact ⟨hscratch, hbufs, hslots⟩
  · have hinflight := (((Poised.of_frame hcount (by decide) (by decide) (by decide)).trans hposed).trans hland.poised).startOp es hjob hqueue hoff
    exact ⟨_, hunit ▸ hinflight⟩
  · rw [ringOf, startOp_dieField a.die op es v Die.rings fun _ _ _ => rfl, hland.field Die.rings fun _ => rfl, hrings, tblGetD_takenRings]
    rfl
  · rw [startOp_dieField a.die op es v cluRest fun _ _ _ => rfl, hland.field cluRest fun _ => rfl, hrest]
  · rw [hafter.ksOf (by decide), hks, hcount.ksOf (by decide), hhearth]
    by_cases hzero : n = 0 <;> simp [hzero, servedKeys]
  · have hother : ¬(n ≠ 0 ∧ p = j.part ∧ k = o.slot) := fun ⟨_, hp, hslot⟩ => hk.elim (fun h => h hp) fun h => h hslot
    rw [hafter.ksOf (by decide), hks, if_neg hother, hcount.ksOf (by decide)]
  · let f (x : Partition) : Partition := { x with log := [], keysets := [] }
    exact (hafter.partField (by decide) f (fun _ => rfl) p).trans ((hparts p).trans (hcount.partField (by decide) f (fun _ => rfl) p))
  · rw [hheads]
    have hsame : (startOp a.die op es v).log = u.log := hafter .log (by decide)
    have hbase : s.log = base.log := hcount .log (by decide)
    split
    · next hnew =>
      rw [if_pos hnew] at hlog
      obtain ⟨hseq, time, hentries⟩ := hlog
      exact ⟨by rw [hsame, hseq, hbase], time, by rw [hsame, hentries, hbase, hhearth]⟩
    · next hnew =>
      rw [if_neg hnew] at hlog
      rw [hsame, hlog, hbase]
  · exact (hbefore.then hafter).mono (by decide)

end Result

end Sys2Proof.Machine

namespace Sys2Proof.Machine

/-! ### Cluster operations with one result -/

theorem scaleOk_settle (c : Chain) (cat : List Nat) (hs : List Header) (h : Header) : scaleOk (settle c cat hs h) = scaleOk h := by
  unfold settle
  dsimp only
  split <;> rfl

/-- An operation that reads `srcs` and writes one result to `dst`, with keys of a slot. -/
structure OneResult (o : CluOp) (srcs : List Loc) (dst : Loc) (slot : Nat) : Prop where
  srcs : o.srcs = srcs := by rfl
  dsts : o.dsts = [dst] := by rfl
  outs : o.outs = 1 := by rfl
  slot : o.slot = slot := by rfl
  drawn : o.drawn = id := by rfl
  inPlace : o.inPlace = false := by rfl

section OneResult

variable {s : State} {a : Site} {mask : BitVec 8} {o : CluOp} {j : Job} {c : Chain} {xs : List Src} {slots : List Nat} {es : List SbEntry}
  {srcs : List Loc} {dst : Loc} {slot : Nat}

/-- A result's header is in scale, its object fits its place, and no secret leaves by it. -/
def ResultFits (s : State) (a : Site) (mask : BitVec 8) (c : Chain) (secret : Bool) (dst : Loc) (h : Header) : Prop :=
  scaleOk h = true ∧ dstFits s a.die (maskClusters mask) dst h c.pCount (limbsOf c h) = true ∧ secretOut s a.die secret [(dst, h)] = .pass

theorem oneResult_done (hready : CluReady s a mask j srcs [dst] c xs slots es) (hshape : OneResult o srcs dst slot) (i : Instr)
    (hkeys : o.keySwitch = true → c.pCount ≠ 0) (hform : o.form (some c) (xs.map (·.header)) = true) (hlevel : o.level (xs.map (·.header)) = .pass)
    (hscale : o.scale (xs.map (·.header)) = true) {head h' : Header} (hheads : o.heads c s.fuses.primes (xs.map (·.header)) = [(head, true)])
    (hsettle : h' = settle c s.fuses.primes (xs.map (·.header)) head) (hfits : ResultFits s a mask c (xs.any (·.secret)) dst h')
    (hbound : bindEach s a.die j.part slot (o.streams ((xs.map (·.header)).headD headerZero)) (o.bound (xs.map (·.header))) = .ok)
    {b' : PolyBody} (hbody : cluBodies s a mask j o c xs = [b']) :
    ∃ t, ok (clusterInstr a mask i o s) = .next t ∧ CluDone a mask j srcs [dst] (xs.map (·.header)) [(h', b')] slot
      (o.streams ((xs.map (·.header)).headD headerZero)).length es s t := by
  obtain ⟨hsrcs, hdsts, houts, hslot, hdrawn, hplace⟩ := hshape
  obtain ⟨hscaled, hfit, hsecret⟩ := hfits
  subst hsrcs hslot
  have hsettled : settled o c s.fuses.primes (xs.map (·.header)) = [h'] := by rw [settled, hheads, hsettle]; rfl
  have hpasses : CluPasses s a mask j o c xs := by
    refine ⟨by rw [hdsts, houts]; rfl, hform, hkeys, hlevel, hscale, fun y hy => ?_, fun y hy => ?_, ?_, hbound⟩
    · rw [hheads] at hy
      obtain rfl := List.mem_singleton.mp hy
      rwa [hsettle, scaleOk_settle] at hscaled
    · rw [hsettled, hdsts] at hy
      obtain rfl := List.mem_singleton.mp hy
      exact hfit
    · rw [hsettled, hdsts]
      exact hsecret
  rw [← hdsts] at hready
  obtain ⟨m, hissue⟩ := issueClu_run hready hpasses
  have hdone := runClu_done (s := count a.die 2 m s) (count_frame a.die 2 m s) hplace slots es hsettled hbody rfl
  rw [hdsts, hdrawn] at hdone
  exact ⟨_, congrArg ok (runInstr_done hready.ready hissue), hdone⟩

end OneResult

section Unary

variable {s : State} {a : Site} {mask : BitVec 8} {j : Job} {src dst : Loc} {c : Chain} {x : Src} {slots : List Nat} {es : List SbEntry}

/-- An operation on one source without keys. -/
theorem unary_done {o : CluOp} (hready : CluReady s a mask j [src] [dst] c [x] slots es) (hshape : OneResult o [src] dst 0)
    (hstreams : o.streams x.header = []) (hbound : o.bound [x.header] = [x.header]) (i : Instr)
    (hkeys : o.keySwitch = true → c.pCount ≠ 0) (hform : o.form (some c) [x.header] = true) (hlevel : o.level [x.header] = .pass)
    (hscale : o.scale [x.header] = true) {head h' : Header} (hheads : o.heads c s.fuses.primes [x.header] = [(head, true)])
    (hsettle : h' = settle c s.fuses.primes [x.header] head) (hfits : ResultFits s a mask c x.secret dst h') {b' : PolyBody}
    (hbody : o.body (ringCtx c s.fuses.primes x.header) [x.header] [] [limbsAt s a mask c x] = [b']) :
    ∃ t, ok (clusterInstr a mask i o s) = .next t ∧ CluDone a mask j [src] [dst] [x.header] [(h', b')] 0 0 es s t := by
  have hbodies : cluBodies s a mask j o c [x] = [b'] := by
    rw [← hbody]
    simp [cluBodies, streamedKeys, hstreams]
  have hdone := oneResult_done hready hshape i hkeys hform hlevel hscale hheads hsettle (by simpa using hfits)
    (by simp [hstreams, hbound, bindEach, bindAll]) hbodies
  simpa [hstreams] using hdone

end Unary

/-! ### A level drop in place (R59, R117) -/

theorem SameObjects.putHead {d : DieIx} {s u : State} (h : SameObjects d s u) (l : Loc) (x : Header) :
    SameObjects d (putHead d l x s) (putHead d l x u) := by
  cases l with
  | handle k => exact h.putHandle ..
  | ring r k => exact h
  | region row k =>
    obtain ⟨hscratch, hbufs, hslots, hhandles⟩ := h.parts
    refine updDie ?_
    simp only [objectMem, hscratch, hbufs, hslots, hhandles]

/-- Without key streams nothing of the partitions changes. -/
theorem cluBefore_frame_free {a : Site} {j : Job} {hs outs : List Header} {h : Header} {slot : Nat} {us : List (Nat × Bool)} {s : State} :
    Frame (logAreas ++ [.dies, .jobs]) s (cluBefore a j hs outs h slot 0 us s) := by
  unfold cluBefore
  rw [drawStreams_eq, if_pos rfl]
  exact ((noteDegraded_frame a j hs outs s).then (claimTakes_frame _ _ _)).mono (by decide)

/-- The headers that are rewritten in place. -/
def putHeads (d : DieIx) (outs : List (Loc × Header)) (s : State) : State := outs.foldl (fun s x => putHead d x.1 x.2 s) s

theorem runClu_inPlace {a : Site} {mask : BitVec 8} {o : CluOp} {j : Job} {c : Chain} {xs : List Src} {slots : List Nat} {es : List SbEntry} {u : State}
    (hplace : o.inPlace = true) :
    let hs := xs.map (·.header)
    let outs := settled o c u.fuses.primes hs
    let keys := (streamedKeys u a.die j.part o c (hs.headD headerZero)).length
    runClu a mask o j c xs slots es u = nameDests j.id (cluOp a mask o j c xs slots outs keys).dests
      (markOuts a.die (maskClusters mask) j c (xs.any (·.secret)) (o.dsts.zip outs)
        (putHeads a.die (o.dsts.zip outs)
          (cluBefore a j hs outs (hs.headD headerZero) o.slot (o.drawn keys) (ringUses o.srcs) u))) := by
  intro hs outs keys
  unfold runClu
  dsimp only
  rw [hplace, if_pos rfl, if_pos rfl]
  rfl

/-- A destination is no ring, so that nothing is claimed of it. -/
theorem ringUses_of_dst {s : State} {d : DieIx} {l : Loc} (h : dstCheck s d l = .pass) : ringUses [l] = [] := by
  cases l with
  | ring r k => cases h
  | _ => rfl

theorem opLevelDrop_level {src dst : Loc} {l : Nat} {h : Header} (hl : l < h.level) : (opLevelDrop src dst l).level [h] = .pass := by
  have hnat : ¬(l : Int) < 0 := by omega
  simp [opLevelDrop, hd1, failIf, hnat, Nat.not_le.mpr hl]

theorem putHeads_lands (d : DieIx) (outs : List (Loc × Header)) (s : State) : Lands d s (putHeads d outs s) := by
  unfold putHeads
  exact .foldl (fun s x => putHead_lands d x.1 x.2 s) outs s

theorem levelDrop_inPlace {s : State} {a : Site} {mask : BitVec 8} {j : Job} {src : Loc} {c : Chain} {x : Src} {slots : List Nat} {es : List SbEntry}
    {l : Nat} (hready : CluReady s a mask j [src] [src] c [x] slots es) (hl : l < x.header.level) {h' : Header}
    (hsettle : h' = settle c s.fuses.primes [x.header] { x.header with level := l }) (hfits : ResultFits s a mask c x.secret src h') :
    ∃ t, exec (.levelDrop a mask src src l) s = .next t ∧ Poised a j s t ∧ cluRest (dieOf t a.die) = cluRest (dieOf s a.die) ∧
      SameObjects a.die (putHead a.die src h' s) t ∧ Frame (logAreas ++ [.dies, .jobs]) s t := by
  obtain ⟨hscaled, hfit, hsecret⟩ := hfits
  have hsettled : settled (opLevelDrop src src l) c s.fuses.primes [x.header] = [h'] := by rw [hsettle]; rfl
  have hpasses : CluPasses s a mask j (opLevelDrop src src l) c [x] := by
    refine ⟨rfl, rfl, nofun, opLevelDrop_level hl, rfl, fun y hy => ?_, fun y hy => ?_, ?_, rfl⟩
    · obtain rfl := List.mem_singleton.mp hy
      rwa [hsettle, scaleOk_settle] at hscaled
    · rw [List.map_singleton, hsettled] at hy
      obtain rfl := List.mem_singleton.mp hy
      exact hfit
    · rw [List.map_singleton, hsettled, List.any_cons, List.any_nil, Bool.or_false]
      exact hsecret
  obtain ⟨m, hissue⟩ := issueClu_run (o := opLevelDrop src src l) hready hpasses
  have hcount := count_frame a.die 2 m s
  have hrun := runClu_inPlace (o := opLevelDrop src src l) (a := a) (mask := mask) (j := j) (c := c) (xs := [x]) (slots := slots) (es := es)
    (u := count a.die 2 m s) (decide_eq_true rfl)
  dsimp only at hrun
  rw [List.map_singleton, settled_congr (hcount .fuses (by decide)), hsettled] at hrun
  change _ = nameDests j.id _ (markOuts a.die (maskClusters mask) j c _ [(src, h')] (putHeads a.die [(src, h')]
    (cluBefore a j [x.header] [h'] x.header 0 0 (ringUses [src]) (count a.die 2 m s)))) at hrun
  have hposed : Poised a j (count a.die 2 m s) (cluBefore a j [x.header] [h'] x.header 0 0 (ringUses [src]) (count a.die 2 m s)) := cluBefore_poised
  have hframe : Frame (logAreas ++ [.dies, .jobs]) (count a.die 2 m s) (cluBefore a j [x.header] [h'] x.header 0 0 (ringUses [src]) (count a.die 2 m s)) :=
    cluBefore_frame_free
  have hobjects : SameObjects a.die (count a.die 2 m s) (cluBefore a j [x.header] [h'] x.header 0 0 (ringUses [src]) (count a.die 2 m s)) :=
    cluBefore_objects
  have hdie := cluBefore_die (s := count a.die 2 m s) (a := a) (j := j) (hs := [x.header]) (outs := [h']) (h := x.header) (slot := 0) (n := 0)
    (us := ringUses [src])
  generalize cluBefore a j [x.header] [h'] x.header 0 0 (ringUses [src]) (count a.die 2 m s) = u at hrun hposed hframe hobjects hdie
  have hland := (putHeads_lands a.die [(src, h')] u).trans (markOuts_lands a.die (maskClusters mask) j c ([x].any (·.secret)) [(src, h')] _)
  have hmem : SameObjects a.die (putHead a.die src h' s) (markOuts a.die (maskClusters mask) j c ([x].any (·.secret)) [(src, h')]
      (putHeads a.die [(src, h')] u)) :=
    (((SameObjects.of_frame hcount (by decide)).trans hobjects).putHead src h').trans (markOuts_objects ..)
  generalize markOuts a.die (maskClusters mask) j c ([x].any (·.secret)) [(src, h')] (putHeads a.die [(src, h')] u) = v at hrun hland hmem
  have hname := nameDests_frame j.id (cluOp a mask (opLevelDrop src src l) j c [x] slots [h']
    (streamedKeys (count a.die 2 m s) a.die j.part (opLevelDrop src src l) c ([x.header].headD headerZero)).length).dests v
  refine ⟨_, congrArg ok (runInstr_done hready.ready hissue), ?_⟩
  rw [hrun]
  refine ⟨(((Poised.count a.die 2 m s).trans hposed).trans hland.poised).trans (.nameDests _ v), ?_, ?_, ?_⟩
  · rw [hname.dieField (by decide) cluRest fun _ => rfl, hland.field cluRest fun _ => rfl]
    exact (congrArg cluRest hdie).trans (hcount.dieField (by decide) cluRest (fun _ => rfl) a.die)
  · exact hmem.trans (.of_frame hname (by decide))
  · exact (((hcount.then hframe).then hland.frame).then hname).mono (by decide)

theorem levelLeft_pass {h : Header} (hlevel : h.level ≠ 0) : levelLeft [h] = .pass := by
  simp [levelLeft, hd1, failIf, hlevel]

theorem setsOk_of {n : Nat} {given target : List Nat} (hgiven : given ≠ []) (htarget : target ≠ []) (hdistinct : (given ++ target).Nodup)
    (hrange : ∀ i ∈ given ++ target, i < n) : setsOk n given target = true := by
  have hall : ((given ++ target).all fun i => decide (i < n)) = true := List.all_eq_true.mpr fun i hi => decide_eq_true (hrange i hi)
  rw [setsOk, hall, decide_eq_true hdistinct]
  simp [hgiven, htarget]

theorem basisConvBody_eq (r : RingCtx) (ext : Bool) (given target : List Nat) (b : PolyBody) : basisConvBody r ext given target b =
    b.map fun p => (List.range p.length).map fun i =>
      if i ∈ target then convLimb r.n (given.map fun k => ((r.primes ext).getD k 1, p.getD k [])) ((r.primes ext).getD i 1) else p.getD i [] := by
  simp only [basisConvBody, List.contains_iff_mem]

/-- Settles O20: an operation on one ring object writes the header that R59 gives and the limbs of R106, R117, R118 and R523, and a level drop in
place rewrites the header alone. -/
theorem ringOperationsOnOneSource : Obligations.RingOperationsOnOneSource := by
  refine ⟨fun s a mask j src dst c x slots es hready => ⟨?_, ?_, ?_, ?_, ?_, ?_, ?_⟩, ?_⟩
  · intro hntt h' hh hfits
    exact unary_done (o := opNtt src dst) hready {} rfl rfl _ nofun (by simp [opNtt, hd1, hntt]) rfl rfl rfl hh hfits rfl
  · intro hntt h' hh hfits
    exact unary_done (o := opIntt src dst) hready {} rfl rfl _ nofun (by simp [opIntt, hd1, hntt]) rfl rfl rfl hh hfits rfl
  · intro h' hh hfits
    exact unary_done (o := opNeg src dst) hready {} rfl rfl _ nofun rfl rfl rfl rfl hh hfits rfl
  · intro l hl hne h' hh hfits
    exact unary_done (o := opLevelDrop src dst l) hready { inPlace := decide_eq_false hne } rfl rfl _ nofun rfl (opLevelDrop_level hl) rfl rfl hh hfits rfl
  · intro given target hntt hgiven htarget hdistinct hrange h' hh hfits
    have hform : (!x.header.ntt && setsOk (limbsOf c x.header) given target) = true := by
      rw [hntt, setsOk_of hgiven htarget hdistinct hrange]
      rfl
    exact unary_done (o := opBasisConv src dst given target) hready {} rfl rfl _ nofun hform rfl rfl rfl hh hfits
      (congrArg (fun p => [p]) (basisConvBody_eq ..))
  · intro hscheme hntt hext hlevel h' hh hfits
    have hform : (x.header.scheme == 1 && x.header.ntt && !x.header.extended) = true := by rw [hscheme, hntt, hext]; rfl
    exact unary_done (o := opRescale src dst) hready {} rfl rfl _ nofun hform (levelLeft_pass hlevel) rfl rfl hh hfits rfl
  · intro hscheme hntt hext hlevel h' hh hfits
    have hform : (x.header.scheme == 2 && x.header.ntt && !x.header.extended) = true := by rw [hscheme, hntt, hext]; rfl
    exact unary_done (o := opModSwitch src dst) hready {} rfl rfl _ nofun hform (levelLeft_pass hlevel) rfl rfl hh hfits rfl
  · intro s a mask j src c x slots es l hready hl h' hscaled hfit hsecret
    obtain ⟨t, hexec, hposed, hrest, hobjects, hframe⟩ := levelDrop_inPlace hready hl rfl ⟨hscaled, hfit, hsecret⟩
    obtain ⟨hscratch, hbufs, hslots, -⟩ := hobjects.parts
    exact ⟨t, hexec, hposed.ops, hposed.scoreboard, hrest, ⟨hscratch, hbufs, hslots⟩, hposed.other_dies, hposed.jobs, hframe⟩

end Sys2Proof.Machine

namespace Sys2Proof.Machine

section Binary

variable {s : State} {a : Site} {mask : BitVec 8} {j : Job} {l₁ l₂ dst : Loc} {c : Chain} {x y : Src} {slots : List Nat} {es : List SbEntry}

/-- An operation on two sources without keys. -/
theorem binary_done {o : CluOp} (hready : CluReady s a mask j [l₁, l₂] [dst] c [x, y] slots es) (hshape : OneResult o [l₁, l₂] dst 0)
    (hstreams : o.streams x.header = []) (hbound : o.bound [x.header, y.header] = [x.header]) (i : Instr)
    (hkeys : o.keySwitch = true → c.pCount ≠ 0) (hform : o.form (some c) [x.header, y.header] = true)
    (hlevel : o.level [x.header, y.header] = .pass) (hscale : o.scale [x.header, y.header] = true) {head h' : Header}
    (hheads : o.heads c s.fuses.primes [x.header, y.header] = [(head, true)])
    (hsettle : h' = settle c s.fuses.primes [x.header, y.header] head) (hfits : ResultFits s a mask c (x.secret || y.secret) dst h') {b' : PolyBody}
    (hbody : o.body (ringCtx c s.fuses.primes x.header) [x.header, y.header] [] [limbsAt s a mask c x, limbsAt s a mask c y] = [b']) :
    ∃ t, ok (clusterInstr a mask i o s) = .next t ∧ CluDone a mask j [l₁, l₂] [dst] [x.header, y.header] [(h', b')] 0 0 es s t := by
  have hbodies : cluBodies s a mask j o c [x, y] = [b'] := by
    rw [← hbody]
    simp [cluBodies, streamedKeys, hstreams]
  have hdone := oneResult_done hready hshape i hkeys hform hlevel hscale hheads hsettle (by simpa using hfits)
    (by simp [hstreams, hbound, bindEach, bindAll]) hbodies
  simpa [hstreams] using hdone

end Binary

theorem addScales_of_near {h k : Header} (hnear : if h.scheme = 1 then natDiff h.scale k.scale ≤ 16 else h.scale = k.scale) :
    addScales h k = true := by
  unfold addScales
  split at hnear
  · next hscheme => rw [if_pos hscheme, decide_eq_true hnear]
  · next hscheme => rw [if_neg hscheme, hnear, beq_self_eq_true]

/-- Settles O21: an operation on two ring objects writes the header that R59, R122 and R123 give and the limbs of R105 and R117. -/
theorem ringOperationsOnTwoSources : Obligations.RingOperationsOnTwoSources := by
  intro s a mask j l₁ l₂ dst c x y slots es hready
  refine ⟨fun htag hparts hext hnear => ⟨fun h' hh hfits => ?_, fun h' hh hfits => ?_⟩, fun hct hpt hext => ⟨fun hnear h' hh hfits => ?_, fun hparts hntt h' hh hfits => ?_⟩,
    fun hct hct' hparts hparts' hntt hext h' hh hfits => ?_⟩
  · have hform : sameForm x.header y.header = true := by simp [sameForm, htag, hparts, hext]
    exact binary_done (o := opSum limbAdd l₁ l₂ dst) hready {} rfl rfl _ nofun hform rfl (addScales_of_near hnear) rfl hh hfits rfl
  · have hform : sameForm x.header y.header = true := by simp [sameForm, htag, hparts, hext]
    exact binary_done (o := opSum limbSub l₁ l₂ dst) hready {} rfl rfl _ nofun hform rfl (addScales_of_near hnear) rfl hh hfits rfl
  · have hform : ctPt [x.header, y.header] = true := by simp [ctPt, hd1, hd2, hct, hpt, hext]
    exact binary_done (o := opPtAdd l₁ l₂ dst) hready {} rfl rfl _ nofun hform rfl (addScales_of_near hnear) rfl hh hfits rfl
  · have hform : (ctPt [x.header, y.header] && x.header.parts == 2 && x.header.ntt) = true := by simp [ctPt, hd1, hd2, hct, hpt, hext, hparts, hntt]
    exact binary_done (o := opPtMul l₁ l₂ dst) hready {} rfl rfl _ nofun hform rfl rfl rfl hh hfits rfl
  · have hform : (x.header.isCt && y.header.isCt && x.header.parts == 2 && y.header.parts == 2 && x.header.ntt &&
        x.header.extended == y.header.extended) = true := by simp [hct, hct', hparts, hparts', hntt, hext]
    exact binary_done (o := opCtMul l₁ l₂ dst) hready {} rfl rfl _ nofun hform rfl rfl rfl hh hfits rfl

end Sys2Proof.Machine

namespace Sys2Proof.Machine

/-! ### Operations with keys (R94, R124 to R131) -/

theorem bindCheck_ok {s : State} {d : DieIx} {p : PartIx} {slot : Nat} {h : Header} {kind g level : Nat} (hk : KeyBound d (ksOf s p slot) h kind g level) :
    bindCheck s d p slot h kind g level = .ok := by
  obtain ⟨hresident, hhome, htag, ⟨hparam, hscheme, hlogN, hchain⟩, e, hfind, hlevel⟩ := hk
  simp [bindCheck, hresident, hhome, htag, hparam, hscheme, hlogN, hchain, hfind, Nat.not_lt.mpr hlevel]

theorem bindAll_ok {s : State} {d : DieIx} {p : PartIx} {slot : Nat} {h : Header} {ks : List (Nat × Nat × Nat)}
    (hks : ∀ k ∈ ks, KeyBound d (ksOf s p slot) h k.1 k.2.1 k.2.2) : bindAll s d p slot h ks = .ok := by
  induction ks with
  | nil => rfl
  | cons k ks ih =>
    rw [bindAll, bindCheck_ok (hks k (List.mem_cons_self ..))]
    exact ih fun x hx => hks x (List.mem_cons_of_mem _ hx)

theorem bindEach_ok {s : State} {d : DieIx} {p : PartIx} {slot : Nat} {ks : List (Nat × Nat × Nat)} {hs : List Header}
    (hks : ∀ h ∈ hs, ∀ k ∈ ks, KeyBound d (ksOf s p slot) h k.1 k.2.1 k.2.2) : bindEach s d p slot ks hs = .ok := by
  induction hs with
  | nil => rfl
  | cons h hs ih =>
    rw [bindEach, bindAll_ok (hks h (List.mem_cons_self ..))]
    exact ih fun x hx => hks x (List.mem_cons_of_mem _ hx)

section Keyed

variable {s : State} {a : Site} {mask : BitVec 8} {j : Job} {src dst : Loc} {c : Chain} {x : Src} {slots : List Nat} {es : List SbEntry}

/-- An operation on one source that streams one key. -/
theorem keyed_done {o : CluOp} {slot kind g : Nat} (hready : CluReady s a mask j [src] [dst] c [x] slots es) (hshape : OneResult o [src] dst slot)
    (hstreams : o.streams x.header = [(kind, g, x.header.level)]) (hbound : o.bound [x.header] = [x.header]) (i : Instr)
    (hp : c.pCount ≠ 0) (hform : o.form (some c) [x.header] = true) (hlevel : o.level [x.header] = .pass)
    (hscale : o.scale [x.header] = true) {head h' : Header} (hheads : o.heads c s.fuses.primes [x.header] = [(head, true)])
    (hsettle : h' = settle c s.fuses.primes [x.header] head) (hfits : ResultFits s a mask c x.secret dst h')
    (hkey : KeyBound a.die (ksOf s j.part slot) x.header kind g x.header.level) {b' : PolyBody}
    (hbody : o.body (ringCtx c s.fuses.primes x.header) [x.header] [keyOf s a.die c (ksOf s j.part slot) kind g x.header.level]
      [limbsAt s a mask c x] = [b']) :
    ∃ t, ok (clusterInstr a mask i o s) = .next t ∧ CluDone a mask j [src] [dst] [x.header] [(h', b')] slot 1 es s t := by
  have hbodies : cluBodies s a mask j o c [x] = [b'] := by
    rw [← hbody]
    simp [cluBodies, streamedKeys, hstreams, hshape.slot]
  have hdone := oneResult_done hready hshape i (fun _ => hp) hform hlevel hscale hheads hsettle (by simpa using hfits)
    (bindEach_ok (by simpa [hstreams, hbound] using hkey)) hbodies
  simpa [hstreams] using hdone

end Keyed

/-! ### Results that carry a secret's mark on (R165) -/

theorem isCt_settle (c : Chain) (cat : List Nat) (hs : List Header) (h : Header) : (settle c cat hs h).isCt = h.isCt := by
  unfold settle
  dsimp only
  split <;> rfl

theorem secretOut_of_ct {s : State} {d : DieIx} {secret : Bool} {outs : List (Loc × Header)} (h : ∀ x ∈ outs, x.2.isCt = true) :
    secretOut s d secret outs = .pass := by
  have hnone : (outs.any fun x => !x.2.isCt && !(keepsSecret s d x.1)) = false := any_eq_false fun x hx => by rw [h x hx]; rfl
  rw [secretOut, hnone, Bool.and_false]
  rfl

theorem innerProduct_done {s : State} {a : Site} {mask : BitVec 8} {j : Job} {c : Chain} {slots : List Nat} {es : List SbEntry} {slot : Nat}
    (hp : c.pCount ≠ 0) {ls : List Loc} {dst : Loc} {xs : List Src} {kind g : Nat} {h : Header} (hready : CluReady s a mask j ls [dst] c xs slots es)
    (hhead : xs.head?.map (·.header) = some h) (hdigits : ∀ x ∈ xs, x.header.parts = 1 ∧ x.header.extended = true ∧ x.header.ntt = true)
    (hcount : xs.length = c.beta h.level) (hkeys : ∀ x ∈ xs, KeyBound a.die (ksOf s j.part slot) x.header kind g h.level) {h' : Header}
    (hsettle : h' = settle c s.fuses.primes (xs.map (·.header)) { h with formatTag := 0xC701, parts := 2 }) (hscaled : scaleOk h' = true)
    (hfit : dstFits s a.die (maskClusters mask) dst h' c.pCount (limbsOf c h') = true) :
    let y := innerProduct (ringCtx c s.fuses.primes h) (xs.map fun x => partOf (limbsAt s a mask c x) 0)
      (keyOf s a.die c (ksOf s j.part slot) kind g h.level)
    ∃ t, exec (.ip a mask ls dst kind g slot) s = .next t ∧ CluDone a mask j ls [dst] (xs.map (·.header)) [(h', [y.1, y.2])] slot 1 es s t := by
  intro y
  obtain ⟨x, l, rfl⟩ : ∃ x l, xs = x :: l := by
    cases xs with
    | nil => cases hhead
    | cons x l => exact ⟨x, l, rfl⟩
  obtain rfl : x.header = h := Option.some.inj hhead
  have hform : (opIp ls dst kind g slot).form (some c) ((x :: l).map (·.header)) = true := by
    have hall : ((x :: l).map (·.header)).all (fun h => h.parts == 1 && h.extended && h.ntt) = true := by
      rw [List.all_map]
      refine List.all_eq_true.mpr fun y hy => ?_
      obtain ⟨hparts, hext, hntt⟩ := hdigits y hy
      simp [hparts, hext, hntt]
    have hlen : (((x :: l).map (·.header)).length == c.beta x.header.level) = true := by rw [List.length_map, hcount, beq_self_eq_true]
    change (true && ((x :: l).map (·.header)).all _ && _) = true
    rw [hall]
    exact hlen
  have hct : h'.isCt = true := by rw [hsettle, isCt_settle]; rfl
  have hbound : bindEach s a.die j.part slot [(kind, g, x.header.level)] ((x :: l).map (·.header)) = .ok := by
    refine bindEach_ok fun k hk e he => ?_
    obtain ⟨y, hy, rfl⟩ := List.mem_map.mp hk
    rw [List.mem_singleton.mp he]
    exact hkeys y hy
  have hbody : cluBodies s a mask j (opIp ls dst kind g slot) c (x :: l) = [[y.1, y.2]] := by
    change [_] = [_]
    rw [List.map_map]
    rfl
  exact oneResult_done (o := opIp ls dst kind g slot) hready {} _ (fun _ => hp) hform rfl rfl rfl hsettle
    ⟨hscaled, hfit, secretOut_of_ct (by simpa using hct)⟩ hbound hbody

/-! ### Hoisted batches (R128 to R131) -/

/-- Each rotation of a batch takes its key, the identity none. -/
theorem dealKeys_map (K : Nat → List KeyDigit) (gs : List Nat) :
    dealKeys gs ((gs.filter (· != 1)).map K) = gs.map fun g => if g = 1 then [] else K g := by
  induction gs with
  | nil => rfl
  | cons g gs ih =>
    by_cases hg : g = 1
    · subst hg
      simpa [dealKeys] using ih
    · simpa [dealKeys, hg] using ih

theorem streamedKeys_hoisted {s : State} {d : DieIx} {p : PartIx} {o : CluOp} {c : Chain} {gs : List Nat} {h : Header}
    (hstreams : o.streams = hoistStreams gs) : streamedKeys s d p o c h =
      (gs.filter (· != 1)).map fun g => keyOf s d c (ksOf s p o.slot) 2 g h.level := by
  rw [streamedKeys, hstreams, hoistStreams, List.map_map]
  rfl

theorem bindEach_hoisted {s : State} {d : DieIx} {p : PartIx} {slot : Nat} {gs : List Nat} {h : Header}
    (hkeys : ∀ g ∈ gs, g = 1 ∨ KeyBound d (ksOf s p slot) h 2 g h.level) : bindEach s d p slot (hoistStreams gs h) [h] = .ok := by
  refine bindEach_ok fun x hx k hk => ?_
  obtain rfl := List.mem_singleton.mp hx
  obtain ⟨g, hg, rfl⟩ := List.mem_map.mp hk
  obtain ⟨hmem, hne⟩ := List.mem_filter.mp hg
  exact (hkeys g hmem).resolve_left (by simpa using hne)

theorem zip_map_self {α β : Type} (l : List α) (f : α → β) : l.zip (l.map f) = l.map fun x => (x, f x) := by
  simpa using List.zip_map' (f := id) (g := f) (l := l)

/-- Settling a header changes nothing that says how many rows its object takes. -/
theorem dstFits_settle (s : State) (d : DieIx) (cs : List Nat) (l : Loc) (c : Chain) (cat : List Nat) (hs : List Header) (h : Header) :
    dstFits s d cs l (settle c cat hs h) c.pCount (limbsOf c (settle c cat hs h)) = dstFits s d cs l h c.pCount (limbsOf c h) := by
  unfold settle
  dsimp only
  split <;> rfl

section Hoisted

variable {s : State} {a : Site} {mask : BitVec 8} {j : Job} {c : Chain} {slots : List Nat} {es : List SbEntry} {slot : Nat} {src : Loc} {x : Src}

/-- An element of a hoisted batch has its key. -/
def HoistKey (s : State) (d : DieIx) (p : PartIx) (slot : Nat) (h : Header) (g : Nat) : Prop :=
  g = 1 ∨ (g % 2 = 1 ∧ 3 ≤ g ∧ g ≤ 2 * 2 ^ h.logN - 3 ∧ KeyBound d (ksOf s p slot) h 2 g h.level)

theorem HoistKey.elem {d : DieIx} {p : PartIx} {h : Header} {g : Nat} (hk : HoistKey s d p slot h g) : hoistElem h.logN g = true := by
  obtain rfl | ⟨hodd, hlow, hhigh, -⟩ := hk
  · rfl
  · simp [hoistElem, rotElem, hodd, hlow, hhigh]

theorem hoistForm_of {h : Header} {gs : List Nat} (hct : h.isCt = true) (hparts : h.parts = 2) (hntt : h.ntt = true) (hext : h.extended = false)
    (hlow : 1 ≤ gs.length) (hhigh : gs.length ≤ 64) {d : DieIx} {p : PartIx} (hkeys : ∀ g ∈ gs, HoistKey s d p slot h g) :
    (hoistForm h && decide (1 ≤ gs.length ∧ gs.length ≤ 64) && gs.all (hoistElem h.logN)) = true := by
  have hall : gs.all (hoistElem h.logN) = true := List.all_eq_true.mpr fun g hg => (hkeys g hg).elem
  simp only [hoistForm, hct, hparts, hntt, hext, hlow, hhigh, hall]
  rfl

/-- The header of one output of HROT (R129). -/
def hrotHead (c : Chain) (cat : List Nat) (h : Header) (g : Nat) : Header :=
  if g = 1 then h else settle c cat [h] { h with noise := newNoise [h] (relinNoise c cat h) }

/-- The limbs of one output of HROT (R129). -/
def hrotBody (r : RingCtx) (key : Nat → List KeyDigit) (b : PolyBody) (g : Nat) : PolyBody := if g = 1 then b else rotateBody r g (key g) b

theorem hrot_done {gs : List Nat} {dsts : List Loc} (hp : c.pCount ≠ 0) (hready : CluReady s a mask j [src] dsts c [x] slots es)
    (hct : x.header.isCt = true) (hparts : x.header.parts = 2) (hntt : x.header.ntt = true) (hext : x.header.extended = false)
    (hlow : 1 ≤ gs.length) (hhigh : gs.length ≤ 64) (hlen : dsts.length = gs.length) (hkeys : ∀ g ∈ gs, HoistKey s a.die j.part slot x.header g)
    (hfit : ∀ l ∈ dsts, dstFits s a.die (maskClusters mask) l x.header c.pCount (limbsOf c x.header) = true) (hscaled : scaleOk x.header = true) :
    ∃ t, exec (.hrot a mask src gs dsts slot) s = .next t ∧ CluDone a mask j [src] dsts [x.header]
      (gs.map fun g => (hrotHead c s.fuses.primes x.header g, hrotBody (ringCtx c s.fuses.primes x.header)
        (fun g => keyOf s a.die c (ksOf s j.part slot) 2 g x.header.level) (limbsAt s a mask c x) g)) slot (gs.filter (· != 1)).length es s t := by
  let o := opHrot src gs dsts slot
  have hheads : o.heads c s.fuses.primes [x.header] = gs.map fun g =>
      if g = 1 then (x.header, false) else ({ x.header with noise := newNoise [x.header] (relinNoise c s.fuses.primes x.header) }, true) := rfl
  have hsettled : settled o c s.fuses.primes [x.header] = gs.map (hrotHead c s.fuses.primes x.header) := by
    rw [Machine.settled, hheads, List.map_map]
    refine List.map_congr_left fun g _ => ?_
    by_cases hg : g = 1 <;> simp [hrotHead, hg]
  have hshape (g : Nat) : (hrotHead c s.fuses.primes x.header g).isCt = true ∧ ∀ l, dstFits s a.die (maskClusters mask) l
      (hrotHead c s.fuses.primes x.header g) c.pCount (limbsOf c (hrotHead c s.fuses.primes x.header g)) =
        dstFits s a.die (maskClusters mask) l x.header c.pCount (limbsOf c x.header) := by
    unfold hrotHead
    split
    · exact ⟨hct, fun _ => rfl⟩
    · exact ⟨(isCt_settle ..).trans hct, fun l => dstFits_settle ..⟩
  have hresult {y : Loc × Header} (hy : y ∈ dsts.zip (gs.map (hrotHead c s.fuses.primes x.header))) :
      y.1 ∈ dsts ∧ ∃ g, y.2 = hrotHead c s.fuses.primes x.header g := by
    obtain ⟨hl, hh⟩ := List.of_mem_zip (a := y.1) (b := y.2) hy
    obtain ⟨g, -, hg⟩ := List.mem_map.mp hh
    exact ⟨hl, g, hg.symm⟩
  have hbodies : cluBodies s a mask j o c [x] = gs.map (hrotBody (ringCtx c s.fuses.primes x.header)
      (fun g => keyOf s a.die c (ksOf s j.part slot) 2 g x.header.level) (limbsAt s a mask c x)) := by
    change (gs.zip (dealKeys gs (streamedKeys s a.die j.part o c x.header))).map _ = _
    rw [streamedKeys_hoisted (o := o) (gs := gs) rfl, dealKeys_map, zip_map_self, List.map_map]
    refine List.map_congr_left fun g _ => ?_
    by_cases hg : g = 1 <;> simp [hrotBody, hg, o, opHrot]
  have hpasses : CluPasses s a mask j o c [x] := by
    refine ⟨hlen, hoistForm_of hct hparts hntt hext hlow hhigh hkeys, fun _ => hp, rfl, rfl, fun y hy => ?_, fun y hy => ?_, ?_, ?_⟩
    · rw [List.map_singleton, hheads] at hy
      obtain ⟨g, -, rfl⟩ := List.mem_map.mp hy
      split
      · exact hscaled
      · exact hscaled
    · rw [List.map_singleton, hsettled] at hy
      obtain ⟨hl, g, hg⟩ := hresult hy
      rw [hg, (hshape g).2]
      exact hfit _ hl
    · refine secretOut_of_ct fun y hy => ?_
      rw [List.map_singleton, hsettled] at hy
      obtain ⟨-, g, hg⟩ := hresult hy
      rw [hg]
      exact (hshape g).1
    · exact bindEach_hoisted fun g hg => (hkeys g hg).imp_right fun ⟨_, _, _, hbound⟩ => hbound
  obtain ⟨m, hissue⟩ := issueClu_run (o := o) hready hpasses
  have hdone := runClu_done (o := o) (s := count a.die 2 m s) (count_frame a.die 2 m s) rfl slots es hsettled hbodies (by simp)
  rw [List.zip_map'] at hdone
  refine ⟨_, congrArg ok (runInstr_done hready.ready hissue), ?_⟩
  simpa [o, opHrot, cluPlain, hoistStreams] using hdone

/-- The terms of HROT_SUM, each with the plaintext and the key that it takes. -/
theorem hrotTerms_eq (K : Nat → List KeyDigit) (L : Src → PolyBody) (terms : List (Nat × Loc)) (ys : List Src) :
    hrotTerms (terms.map (·.1)) (((terms.map (·.1)).filter (· != 1)).map K) (ys.map L) =
      (terms.zip ys).map fun e => { g := e.1.1, pt := partOf (L e.2) 0, key := if e.1.1 = 1 then [] else K e.1.1 } := by
  rw [hrotTerms, dealKeys_map]
  induction terms generalizing ys with
  | nil => rfl
  | cons t terms ih =>
    cases ys with
    | nil => rfl
    | cons y ys => exact congrArg _ (ih ys)

theorem equalScales_of {h : Header} {ys : List Src} (hscales : ∀ y ∈ ys, ∀ z ∈ ys, y.header.scale = z.header.scale) :
    equalScales (h :: ys.map (·.header)) = true := by
  cases ys with
  | nil => rfl
  | cons z ys =>
    refine List.all_eq_true.mpr fun k hk => ?_
    obtain ⟨y, hy, rfl⟩ := List.mem_map.mp hk
    exact beq_iff_eq.mpr (hscales y hy z (List.mem_cons_self ..))

theorem hrotSum_done {terms : List (Nat × Loc)} {dst : Loc} {ys : List Src} (hp : c.pCount ≠ 0)
    (hready : CluReady s a mask j (src :: terms.map (·.2)) [dst] c (x :: ys) slots es) (hct : x.header.isCt = true) (hparts : x.header.parts = 2)
    (hntt : x.header.ntt = true) (hext : x.header.extended = false) (hlow : 1 ≤ (terms.map (·.1)).length) (hhigh : (terms.map (·.1)).length ≤ 64)
    (hplain : ∀ y ∈ ys, y.header.isCt = false ∧ y.header.extended = true ∧ ∀ z ∈ ys, y.header.scale = z.header.scale)
    (hkeys : ∀ g ∈ terms.map (·.1), HoistKey s a.die j.part slot x.header g) {h' : Header}
    (hsettle : h' = settle c s.fuses.primes (x.header :: ys.map (·.header)) { mulHead c (x.header :: ys.map (·.header)) with
      noise := newNoise (x.header :: ys.map (·.header)) (hrotSumNoise c s.fuses.primes (terms.map (·.1)) (x.header :: ys.map (·.header))) })
    (hscaled : scaleOk h' = true) (hfit : dstFits s a.die (maskClusters mask) dst h' c.pCount (limbsOf c h') = true) :
    ∃ t, exec (.hrotSum a mask src terms dst slot) s = .next t ∧
      CluDone a mask j (src :: terms.map (·.2)) [dst] (x.header :: ys.map (·.header)) [(h', hrotSumBody (ringCtx c s.fuses.primes x.header)
        ((terms.zip ys).map fun e => { g := e.1.1, pt := partOf (limbsAt s a mask c e.2) 0
                                       key := if e.1.1 = 1 then [] else keyOf s a.die c (ksOf s j.part slot) 2 e.1.1 x.header.level })
        (limbsAt s a mask c x))] slot ((terms.map (·.1)).filter (· != 1)).length es s t := by
  let o := opHrotSum src terms dst slot
  have hform : o.form (some c) ((x :: ys).map (·.header)) = true := by
    have hall : (ys.map (·.header)).all (fun h => !h.isCt && h.extended) = true := by
      rw [List.all_map]
      refine List.all_eq_true.mpr fun y hy => ?_
      obtain ⟨hpt, hwide, -⟩ := hplain y hy
      simp [hpt, hwide]
    have hhoist := hoistForm_of hct hparts hntt hext hlow hhigh hkeys
    change (_ && (ys.map (·.header)).all _) = true
    rw [hall, Bool.and_true]
    exact hhoist
  have hbodies : cluBodies s a mask j o c (x :: ys) = [hrotSumBody (ringCtx c s.fuses.primes x.header)
      ((terms.zip ys).map fun e => { g := e.1.1, pt := partOf (limbsAt s a mask c e.2) 0
                                     key := if e.1.1 = 1 then [] else keyOf s a.die c (ksOf s j.part slot) 2 e.1.1 x.header.level })
      (limbsAt s a mask c x)] := by
    rw [← hrotTerms_eq (fun g => keyOf s a.die c (ksOf s j.part slot) 2 g x.header.level) (limbsAt s a mask c)]
    change [hrotSumBody _ (hrotTerms _ (streamedKeys s a.die j.part o c x.header) _) _] = _
    rw [streamedKeys_hoisted (o := o) (gs := terms.map (·.1)) rfl]
    rfl
  have hct' : h'.isCt = true := by
    rw [hsettle, isCt_settle]
    exact hct
  have hbound : bindEach s a.die j.part slot (hoistStreams (terms.map (·.1)) x.header) [x.header] = .ok :=
    bindEach_hoisted fun g hg => (hkeys g hg).imp_right fun ⟨_, _, _, hbound⟩ => hbound
  have hdone := oneResult_done (o := o) (slot := slot) hready {} (.hrotSum a mask src terms dst slot) (fun _ => hp) hform rfl
    (equalScales_of fun y hy => (hplain y hy).2.2) rfl hsettle ⟨hscaled, hfit, secretOut_of_ct (by simpa using hct')⟩ hbound hbodies
  have hlen : (o.streams x.header).length = ((terms.map (·.1)).filter (· != 1)).length := List.length_map _
  exact hlen ▸ hdone

end Hoisted

/-- Settles O22: a key switch, the standalone pieces, and the hoisted batches write the headers of R59 and the limbs of R124 to R131, and count the
streams that they draw. -/
theorem keySwitching : Obligations.KeySwitching := by
  refine ⟨fun s a mask j src dst c x slots es hready hp hntt => ⟨fun hct hext => ⟨?_, ?_, ?_⟩, fun hext => ⟨?_, ?_⟩, fun hext => ?_⟩,
    fun s a mask j c slots es slot hp => ⟨?_, ?_, ?_⟩⟩
  · intro slot hparts hkey hfits
    have hform : (x.header.isCt && x.header.parts == 3 && x.header.ntt && !x.header.extended && true) = true := by simp [hct, hparts, hntt, hext]
    exact keyed_done (o := opRelin src dst slot) hready {} rfl rfl _ hp hform rfl rfl rfl rfl hfits hkey rfl
  · intro slot g hparts hodd hlow hhigh hkey hfits
    have hgood : rotElem x.header.logN g = true := by simp [rotElem, hodd, hlow, hhigh]
    have hform : (x.header.isCt && x.header.parts == 2 && x.header.ntt && !x.header.extended && rotElem x.header.logN g) = true := by
      simp [hct, hparts, hntt, hext, hgood]
    exact keyed_done (o := opRotate src dst g slot) hready {} rfl rfl _ hp hform rfl rfl rfl rfl hfits hkey rfl
  · intro slot hparts hkey hfits
    have hform : (x.header.isCt && x.header.parts == 2 && x.header.ntt && !x.header.extended && true) = true := by simp [hct, hparts, hntt, hext]
    exact keyed_done (o := opConj src dst slot) hready {} rfl rfl _ hp hform rfl rfl rfl rfl hfits hkey rfl
  · intro h' hh hfits
    have hform : (x.header.ntt && !x.header.extended && true) = true := by simp [hntt, hext]
    exact unary_done (o := opModUp src dst none) hready {} rfl rfl _ (fun _ => hp) hform rfl rfl rfl hh hfits rfl
  · intro n hn h' hh hfits
    have hform : (x.header.ntt && !x.header.extended && decide (n < c.beta x.header.level)) = true := by simp [hntt, hext, hn]
    exact unary_done (o := opModUp src dst (some n)) hready {} rfl rfl _ (fun _ => hp) hform rfl rfl rfl hh hfits rfl
  · intro h' hh hfits
    have hform : (x.header.ntt && x.header.extended) = true := by simp [hntt, hext]
    exact unary_done (o := opModDown src dst) hready {} rfl rfl _ (fun _ => hp) hform rfl rfl rfl hh hfits rfl
  · intro ls dst xs kind g h hready hhead hdigits hcount hkeys h' y hscaled hfit
    exact innerProduct_done hp hready hhead hdigits hcount hkeys rfl hscaled hfit
  · intro src gs dsts x hready h h' b' hct hparts hntt hext hlow hhigh hlen hkeys hfit hscaled
    exact hrot_done hp hready hct hparts hntt hext hlow hhigh hlen hkeys hfit hscaled
  · intro src dst terms x ys hready h hs gs h' ts hct hparts hntt hext hlow hhigh hplain hkeys hscaled hfit
    exact hrotSum_done hp hready hct hparts hntt hext hlow hhigh hplain hkeys rfl hscaled hfit

end Sys2Proof.Machine

namespace Sys2Proof.Machine

/-! ### O23: TEMPER counts the limbs of its chain's list, its header those that the chain declares (R138, R141, R142)

A chain of the model has a field QCOUNT and a list of Q primes, and no clause of O23 says that they agree. TEMPER's header takes the level that R138
gives for QCOUNT; its limbs are counted from the list. Where the list is the shorter one, the object that lands has fewer limbs than the level
says: what stood in the destination's further rows stays. -/

/-- A chain that declares three Q limbs and lists two. -/
def shortChain : Chain := { raw := [], qCount := 3, pCount := 1, dnum := 1, chainId := 0, tList := [], qList := [0, 0], pList := [] }

/-- A configuration for objects of 4,096 coefficients: EvalMod takes one level, and no transform has a level. -/
def shortCfg : TemperCfg := { raw := [0, 0, 0, 0, 12, 11, 0, 0, 1, 0, 0, 0, 0, 1, 0, 0, 0, 1, 0, 0] }

/-- The keys that it needs. -/
def shortKeys : KeySet := { KeySet.zero with
  state := .resident, homeMask := 1, scheme := 1, logN := 12
  keys := [⟨0, 4, 2, 0, 8191, 0, 0⟩, ⟨1, 1, 2, 0, 0, 0, 0⟩] }

/-- The header of a ciphertext of level 0. -/
def shortHead : Header := { headerZero with formatTag := 0xC701, scheme := 1, parts := 2, logN := 12, scale := 256, logSlots := 11, ntt := true }

/-- The address of a byte in the last rows of the destination. -/
def staleByte : Nat := 401 * 288

/-- Handle 1 holds the source, handle 2 is the destination, handle 3 the workspace; a byte stands in the destination. -/
def shortState : State :=
  let s := someDie fun x => { x with
    handles := [(1, { Handle.zero with rows := 129, valid := true }), (2, { Handle.zero with base := 200, rows := 300, valid := true }),
      (3, { Handle.zero with base := 600, rows := 768, valid := true })]
    scratch := memPut [(staleByte, 1)] 0 (headerBytes shortHead) }
  updPart 0 (fun p => { p with chains := [(0, shortChain)], tempers := [(0, shortCfg)], keysets := [(0, shortKeys)] })
    { s with fuses := { s.fuses with primes := [2 ^ 18] } }

/-- The source, found. -/
def shortSrc : Src := { loc := .handle 1, row := 0, rows := 129, hdr := headerBytes shortHead, poison := none, secret := false }

theorem shortState_ready : Ready shortState someSite (someJob 1 0 .admitted 1 []) where
  turn := rfl
  job := by decide +kernel
  queue_open := by decide +kernel
  engine := by decide +kernel
  fresh := rfl
  front := rfl

theorem shortState_cluReady : ∃ es, CluReady shortState someSite 0xFF (someJob 1 0 .admitted 1 []) [.handle 1] [.handle 2] shortChain [shortSrc] [] es
    [.handle 3] := by
  have hadmit : (sbAdmit shortState 0 (locRanges shortState 0 false [.handle 1] ++ locRanges shortState 0 true [.handle 2, .handle 3])).isSome = true := by
    decide +kernel
  obtain ⟨⟨es, m⟩, hes⟩ := Option.isSome_iff_exists.mp hadmit
  exact ⟨es,
    { ready := shortState_ready
      clusters := by decide
      sources := by decide +kernel
      places := by decide +kernel
      rings := by decide +kernel
      filled := by decide +kernel
      admitted := ⟨m, hes⟩
      found := by decide +kernel
      given := by decide
      clean := by decide +kernel
      sound := by decide +kernel
      alike := by decide +kernel
      chain := by decide +kernel
      tags := by decide +kernel
      extents := by decide +kernel }⟩

theorem shortState_keys : ∀ k ∈ shortCfg.needs shortChain.qCount, KeyBound 0 (ksOf shortState 0 0) shortSrc.header k.1 k.2.1 k.2.2 := by
  have hneeds : shortCfg.needs shortChain.qCount = [(4, 8191, 2), (1, 0, 2)] := by decide +kernel
  rw [hneeds]
  intro k hk
  rcases List.mem_cons.mp hk with rfl | hk
  · exact ⟨by decide +kernel, by decide +kernel, by decide +kernel, by decide +kernel, ⟨0, 4, 2, 0, 8191, 0, 0⟩, by decide +kernel, by decide⟩
  · obtain rfl := List.mem_singleton.mp hk
    exact ⟨by decide +kernel, by decide +kernel, by decide +kernel, by decide +kernel, ⟨1, 1, 2, 0, 0, 0, 0⟩, by decide +kernel, by decide⟩

/-! #### How TEMPER issues (R139) -/

/-- The workspace of TEMPER is free once it issues. -/
def wiped (d : DieIx) (w : Handle) (s : State) : State :=
  { updDie d (fun x => { x with scratch := freeMem x.scratch (w.base * 288) (w.rows * 288) (s.free + 1) }) s with free := s.free + 2 }

theorem dieOf_wiped_self (d : DieIx) (w : Handle) (s : State) :
    dieOf (wiped d w s) d = { dieOf s d with scratch := freeMem (dieOf s d).scratch (w.base * 288) (w.rows * 288) (s.free + 1) } :=
  dieOf_updDie_self d (fun x => { x with scratch := freeMem x.scratch (w.base * 288) (w.rows * 288) (s.free + 1) }) s

theorem dieOf_wiped_ne {d e : DieIx} (w : Handle) (s : State) (h : e ≠ d) : dieOf (wiped d w s) e = dieOf s e :=
  dieOf_updDie_ne (fun x => { x with scratch := freeMem x.scratch (w.base * 288) (w.rows * 288) (s.free + 1) }) s h

theorem wiped_count (d : DieIx) (w : Handle) (m : Nat) (s : State) : Frame [.counters] (wiped d w s) (wiped d w (count d 2 m s)) := fun a ha => by
  cases a with
  | counters => exact absurd (List.mem_singleton_self _) ha
  | dies =>
    intro e
    have hsame := count_frame d 2 m s .dies (by decide) e
    by_cases he : e = d
    · subst he
      rw [dieOf_wiped_self, dieOf_wiped_self]
      exact congrArg (fun x : Die => { x with scratch := freeMem x.scratch (w.base * 288) (w.rows * 288) (s.free + 1) }) hsame
    · rw [dieOf_wiped_ne w _ he, dieOf_wiped_ne w _ he]
      exact hsame
  | parts => exact fun _ => rfl
  | partLogs => exact fun _ => rfl
  | hosts => exact fun _ => rfl
  | msix => exact fun _ => rfl
  | _ => rfl

theorem Frame.occupied {ws : List Area} {s t : State} (h : Frame ws s t) (hws : Area.dies ∉ ws) (d : DieIx) (xs : List Src) (l : Loc) :
    occupied t d xs l = occupied s d xs l := by
  unfold Machine.occupied locRanges handleRange
  simp only [h.handleOf hws]

theorem Frame.temperChecks {ws : List Area} {s t : State} (h : Frame ws s t) (hws : Area.dies ∉ ws) (d : DieIx) (cf : Option TemperCfg)
    (c : Option Chain) (work : Nat) (es : List SbEntry) : temperChecks t d cf c work es = temperChecks s d cf c work es := by
  unfold Machine.temperChecks handleRange
  simp only [h.handleOf hws]

section Temper

variable {s : State} {a : Site} {j : Job} {src dst : Loc} {id slot work : Nat} {c : Chain} {x : Src} {slots : List Nat} {es : List SbEntry} {cf : TemperCfg}

/-- The operation of TEMPER under a configuration and a chain. -/
def temperOp (s : State) (src dst : Loc) (slot : Nat) (cf : TemperCfg) (c : Chain) : CluOp :=
  opTemper src dst slot (some cf) (c.qPrimes s.fuses.primes (c.qCount - 1))

theorem issueTemper_run (hready : CluReady s a 0xFF j [src] [dst] c [x] slots es [.handle work])
    (hcfg : tblGet (partOfIx s j.part).tempers id = some cf) (hp : c.pCount ≠ 0) (hchain : cf.chain = x.header.chainId) (hlogN : cf.logN = x.header.logN)
    (hform : (temperOp s src dst slot cf c).form (some c) [x.header] = true) (hscale : natDiff x.header.scale cf.inScale ≤ 16)
    (hvalid : (handleOf s a.die work).valid = true) (hrows : cf.workRows c.qCount c.pCount ≤ (handleOf s a.die work).rows)
    (hfree : ∀ e ∈ occupied s a.die [x] dst, overlaps (handleRange s a.die work 0 (handleOf s a.die work).rows true) e = false)
    (hkeys : ∀ k ∈ cf.needs c.qCount, KeyBound a.die (ksOf s j.part slot) x.header k.1 k.2.1 k.2.2) {h' : Header}
    (hsettle : h' = settle c s.fuses.primes [x.header] (temperHead cf c.qCount x.header))
    (hfit : dstFits s a.die (maskClusters 0xFF) dst h' c.pCount (limbsOf c h') = true) :
    ∃ m, issueTemper a src dst id slot work j s =
      .done (runClu a 0xFF (temperOp s src dst slot cf c) j c [x] slots es (wiped a.die (handleOf s a.die work) (count a.die 2 m s))) := by
  obtain ⟨m, hadmit⟩ := hready.admitted
  have hcount := count_frame a.die 2 m s
  have hfuses : (count a.die 2 m s).fuses = s.fuses := hcount .fuses (by decide)
  have hparts : partOfIx (count a.die 2 m s) j.part = partOfIx s j.part := rfl
  have hfound : findSrcs s a.die [src] slots = [x] := hready.found.symm
  have hchainOf := (hready.chain x (List.mem_singleton_self _)).1
  have hformed := hready.formCheck (o := temperOp s src dst slot cf c) rfl hform
  have hring := hready.ringCheck (keys := true) fun _ => hp
  rw [List.map_singleton] at hformed hring
  have hwork : temperChecks s a.die (some cf) (some c) work (occupied s a.die [x] dst) = .pass := by
    have hover : (occupied s a.die [x] dst).any (overlaps (handleRange s a.die work 0 (handleOf s a.die work).rows true)) = false :=
      any_eq_false hfree
    have hlow : decide ((handleOf s a.die work).rows < cf.workRows c.qCount c.pCount) = false := decide_eq_false (Nat.not_lt.mpr hrows)
    unfold temperChecks
    dsimp only
    rw [hvalid, hlow, hover]
    rfl
  have hmatch : failIf (cf.chain != x.header.chainId || cf.logN != x.header.logN) (.refuse 0x0202 0x0202) = .pass := by
    rw [hchain, hlogN, bne_self_eq_false, bne_self_eq_false]
    rfl
  have hnear : failIf (!(temperOp s src dst slot cf c).scale [x.header]) (.refuse 0x0205 0x0205) = .pass := by
    rw [show (temperOp s src dst slot cf c).scale [x.header] = true from decide_eq_true hscale]
    rfl
  have hextent : ([x].any fun y => !(srcFits (maskClusters 0xFF) y c.pCount (limbsOf c x.header))) = false := any_eq_false fun y hy => by
    obtain rfl := List.mem_singleton.mp hy
    rw [hready.extents y (List.mem_singleton_self _)]
    rfl
  have hplace : dstFits (count a.die 2 m s) a.die (maskClusters 0xFF) dst h' c.pCount (limbsOf c h') = true :=
    (hcount.dstFits (by decide) ..).trans hfit
  have hoccupied : occupied (count a.die 2 m s) a.die [x] dst = occupied s a.die [x] dst :=
    hcount.occupied (by decide) ..
  have hcheck : temperChecks (count a.die 2 m s) a.die (some cf) (some c) work (occupied s a.die [x] dst) = .pass :=
    (hcount.temperChecks (by decide) ..).trans hwork
  have hverdicts : firstFail [poisonCheck [x], formCheck (temperOp s src dst slot cf c) (some c) [x] [x.header], ringCheck3 true (some c) [x.header],
      failIf (cf.chain != x.header.chainId || cf.logN != x.header.logN) (.refuse 0x0202 0x0202),
      failIf (!(temperOp s src dst slot cf c).scale [x.header]) (.refuse 0x0205 0x0205),
      temperChecks (count a.die 2 m s) a.die (some cf) (some c) work (occupied s a.die [x] dst)] = .pass := by
    rw [hready.poisonCheck, hformed, hring, hmatch, hnear, hcheck]
    rfl
  refine ⟨m, ?_⟩
  unfold issueTemper
  dsimp only
  rw [hready.rings, hready.filled, hready.sources src (List.mem_singleton_self _), hready.places dst (List.mem_singleton_self _), hvalid, if_pos rfl]
  rw [if_neg (by decide)]
  change withScoreboard a.die _ s _ = _
  rw [withScoreboard_admitted hready.ready.fresh hadmit]
  rw [hcount.findSrcs (by decide), hfound]
  rw [List.map_singleton, List.headD_cons, hcount.chainOf (by decide), hchainOf, hparts, hcfg, hoccupied]
  dsimp only
  rw [hfuses]
  refine (if_neg fun h => bne_iff_ne.mp h hverdicts).trans ?_
  rw [← hsettle, hextent, hplace, hcount.bindAll (by decide), bindAll_ok hkeys, hcount.handleOf (by decide)]
  rfl

end Temper

/-! #### What lands -/

theorem headerBytes_length (h : Header) : (headerBytes h).length = 64 := by
  simp [headerBytes, headerBody]

theorem packPairs_zeros (n : Nat) : packPairs (List.replicate (2 * n) 0) = List.replicate (9 * n) 0 := by
  induction n with
  | zero => rfl
  | succ n ih =>
    have hpair : List.replicate (2 * (n + 1)) (0 : Nat) = 0 :: 0 :: List.replicate (2 * n) 0 := rfl
    have hnine : List.replicate (9 * (n + 1)) (0 : Byte) = leBytes 9 0 ++ List.replicate (9 * n) 0 := by
      rw [Nat.mul_succ, Nat.add_comm, List.replicate_add]
      rfl
    rw [hpair, hnine, ← ih]
    rfl

/-- The bytes of a body whose residues are all 0. -/
theorem bodyBytes_zeros (k l n : Nat) :
    bodyBytes (List.replicate k (List.replicate l (List.replicate (2 * n) 0))) = List.replicate (k * (l * (9 * n))) 0 := by
  simp [bodyBytes, List.flatMap_replicate, packPairs_zeros, List.flatten_replicate_replicate]

/-- Residues modulo 1. -/
theorem residues_ones (qs : List Nat) (l n : Nat) (f : Nat → Nat → Nat → Nat) (hones : ∀ q ∈ qs, q = 1) :
    ((List.range 2).map fun p => (qs.take l).zipIdx.map fun q => (List.range n).map fun k => f p q.2 k % q.1) =
      List.replicate 2 (List.replicate (min l qs.length) (List.replicate n 0)) := by
  have hlimb : ∀ p, ((qs.take l).zipIdx.map fun q => (List.range n).map fun k => f p q.2 k % q.1) =
      List.replicate (min l qs.length) (List.replicate n 0) := fun p => by
    refine List.eq_replicate_iff.mpr ⟨by simp, fun x hx => ?_⟩
    obtain ⟨q, hq, rfl⟩ := List.mem_map.mp hx
    rw [hones q.1 (List.mem_of_mem_take (List.fst_mem_of_mem_zipIdx hq))]
    simp [Nat.mod_one]
  simp only [hlimb]
  rfl

/-- The destination of the example. -/
def shortDst : Handle := { Handle.zero with base := 200, rows := 300, valid := true }

/-- The workspace of the example. -/
def shortWork : Handle := { Handle.zero with base := 600, rows := 768, valid := true }

/-- The part once the workspace is free. -/
def shortWiped : State := wiped 0 shortWork shortState

theorem shortWiped_wf : Memory.wf (dieOf shortWiped 0).scratch = true := by
  have hwf : Memory.wf (dieOf shortState 0).scratch = true := by decide +kernel
  rw [shortWiped, dieOf_wiped_self]
  dsimp only
  exact freeMem_wf _ _ _ hwf

theorem shortWiped_stale : memGet (dieOf shortWiped 0).scratch staleByte = 1 := by
  have hwf : Memory.wf (dieOf shortState 0).scratch = true := by decide +kernel
  have hlow : ¬shortWork.base * 288 ≤ staleByte := by decide +kernel
  have hbyte : memGet (dieOf shortState 0).scratch staleByte = 1 := by decide +kernel
  rw [shortWiped, dieOf_wiped_self]
  dsimp only
  rw [freeMem, memGet_memPut _ _ _ (memZero_wf _ _ hwf), if_neg fun h => hlow h.1, memGet_memZero, if_neg fun h => hlow h.1, hbyte]

/-- The byte that stood in the destination, once an object of two parts of `l` limbs of zeros has landed. -/
theorem stale_putObj (h : Header) (l : Nat) :
    memGet (dieOf (putObj 0 (maskClusters 0xFF) (.handle 2) h (List.replicate 2 (List.replicate l (List.replicate (2 * 2048) 0))) shortWiped) 0).scratch
      staleByte = if l < 2 then 1 else 0 := by
  have hbase : (handleOf shortWiped 0 2).base = 200 := by
    rw [handleOf, shortWiped, dieOf_wiped_self]
    rfl
  rw [putObj, putHandle, dieOf_updDie_self]
  dsimp only
  rw [hbase, memGet_memPut _ _ _ shortWiped_wf, shortWiped_stale, bodyBytes_zeros]
  simp only [List.length_append, headerBytes_length, List.length_replicate, rowBytes, staleByte]
  split
  · next hin =>
    rw [if_neg (by omega), List.getD_append_right _ _ _ _ (by rw [List.length_append, headerBytes_length, List.length_replicate]; omega), List.getD_eq_getElem?_getD,
      List.getElem?_getD_replicate_default_eq]
  · next hout => rw [if_pos (by omega)]

/-- The operation of the example. -/
def shortOp : CluOp := temperOp shortState (.handle 1) (.handle 2) 0 shortCfg shortChain

/-- The header that TEMPER gives. -/
def shortOut : Header := settle shortChain [2 ^ 18] [shortHead] (temperHead shortCfg 3 shortHead)

/-- What the model writes: two parts of one limb. -/
theorem short_bodies {mask : BitVec 8} : cluBodies shortWiped someSite mask (someJob 1 0 .admitted 1 []) shortOp shortChain [shortSrc] =
    [List.replicate 2 (List.replicate 1 (List.replicate (2 * 2048) 0))] := by
  have hprimes : shortChain.qPrimes shortState.fuses.primes (shortChain.qCount - 1) = [1, 1] := by decide +kernel
  have hlevel : (shortCfg.lOut ([1, 1] : List Nat).length).toNat = 0 := by decide +kernel
  have hlogN : shortSrc.header.logN = 12 := by decide +kernel
  unfold cluBodies shortOp temperOp opTemper
  dsimp only
  rw [hprimes, temperBody]
  dsimp only
  rw [hlevel]
  refine congrArg (fun x => [x]) ((residues_ones [1, 1] (0 + 1) (2 ^ _) _ (by decide)).trans ?_)
  rfl

theorem shortState_work : handleOf shortState 0 3 = shortWork := rfl

theorem short_fits : dstFits shortState 0 (maskClusters 0xFF) (.handle 2) shortOut shortChain.pCount (limbsOf shortChain shortOut) = true := by
  decide +kernel

theorem short_free : ∀ e ∈ occupied shortState 0 [shortSrc] (.handle 2),
    overlaps (handleRange shortState 0 3 0 (handleOf shortState 0 3).rows true) e = false := by
  decide +kernel

/-- The step of the model leaves the byte that stood in the destination. -/
theorem short_step : ∃ t, exec (.temper someSite (.handle 1) (.handle 2) 0 0 3) shortState = .next t ∧ memGet (dieOf t 0).scratch staleByte = 1 := by
  obtain ⟨es, hready⟩ := shortState_cluReady
  obtain ⟨m, hissue⟩ := issueTemper_run (id := 0) (slot := 0) hready (cf := shortCfg) (by decide +kernel) (by decide) (by decide +kernel)
    (by decide +kernel) (by decide +kernel) (by decide +kernel) (by decide +kernel) (by decide +kernel) short_free shortState_keys rfl short_fits
  have hdone := runClu_done (o := shortOp) (a := someSite) (mask := 0xFF) (j := someJob 1 0 .admitted 1 []) (c := shortChain) (xs := [shortSrc])
    (base := shortWiped) (wiped_count 0 shortWork m shortState) rfl (outs := [shortOut]) [] es (by decide +kernel) short_bodies rfl
  refine ⟨_, congrArg ok (runInstr_done shortState_ready hissue), ?_⟩
  have hscratch := hdone.landed.1
  refine (congrArg (memGet · staleByte) hscratch).trans ?_
  exact stale_putObj shortOut 1

/-- Refutes O23: a chain declares three Q limbs and lists two, so TEMPER's header has level 1 where its body has one limb. What stood in the
second limb's rows of the destination stays; O23 has it overwritten. -/
theorem not_encodeDecodeTemper : ¬ Obligations.EncodeDecodeTemper := by
  intro h
  obtain ⟨es, hready⟩ := shortState_cluReady
  obtain ⟨t, hexec, hbyte⟩ := short_step
  obtain ⟨u, hexec', hdone⟩ := h.2 shortState someSite (someJob 1 0 .admitted 1 []) (.handle 1) (.handle 2) 0 0 3 shortChain shortSrc [] es shortCfg hready
    (by decide +kernel) (by decide) (by decide +kernel)
    (by decide +kernel) (by decide +kernel) (by decide +kernel) (by decide +kernel) (by decide +kernel) (by decide +kernel) (by decide +kernel)
    (by decide +kernel) (by decide +kernel) (by decide +kernel) short_free shortState_keys short_fits
  obtain rfl : u = t := Host.Outcome.next.inj (hexec'.symm.trans hexec)
  have hscratch := hdone.landed.1
  rw [residues_ones _ _ _ _ (by decide +kernel)] at hscratch
  have hclaim : memGet (dieOf u 0).scratch staleByte = 0 := (congrArg (memGet · staleByte) hscratch).trans (stale_putObj shortOut 2)
  exact absurd (hbyte.symm.trans hclaim) (by decide)

end Sys2Proof.Machine

namespace Sys2Proof.Machine

/-! ### The update engine (R206 to R219) -/

theorem handlesUse_pass {s : State} {d : DieIx} {hs : List Nat} (h : ∀ x ∈ hs, (handleOf s d x).valid = true ∧ (handleOf s d x).ring = false) :
    handlesUse s d hs = .pass := by
  refine firstFail_pass fun v hv => ?_
  obtain ⟨x, hx, rfl⟩ := List.mem_map.mp hv
  obtain ⟨hvalid, hring⟩ := h x hx
  simp [handleUse, hvalid, hring]

theorem handlesPoison_pass {s : State} {d : DieIx} {hs : List Nat} (h : ∀ x ∈ hs, (handleOf s d x).poisoned = false) :
    handlesPoison s d hs = .pass := by
  have hnone : (hs.findSome? fun x => (handleOf s d x).pe) = none := List.findSome?_eq_none_iff.mpr fun x hx => by simp [Handle.pe, h x hx]
  rw [handlesPoison, hnone]

theorem Frame.elemFp32 {ws : List Area} {s t : State} (h : Frame ws s t) (hws : Area.dies ∉ ws) (d : DieIx) (k : Nat) (is16 : Bool) (i : Nat) :
    elemFp32 t d k is16 i = elemFp32 s d k is16 i := by
  unfold Machine.elemFp32
  rw [h.handleBytes hws, h.handleBytes hws]

theorem Frame.scalarOf {ws : List Area} {s t : State} (h : Frame ws s t) (hws : Area.dies ∉ ws) (d : DieIx) (k : Nat) :
    scalarOf t d k = scalarOf s d k := h.dieField hws (fun x => tblGetD x.scalars k 0) (fun _ => rfl) d

theorem Frame.scalarBad {ws : List Area} {s t : State} (h : Frame ws s t) (hws : Area.dies ∉ ws) (d : DieIx) (ks : List Nat) :
    scalarBad t d ks = scalarBad s d ks := h.dieField hws (fun x => x.scalarPoison.any fun k => ks.contains k) (fun _ => rfl) d

/-! #### UPD_NORM (R210) -/

section Norm

variable {s : State} {a : Site} {j : Job} {es : List SbEntry} {g : NormArgs}

/-- The gradient elements that UPD_NORM reads. -/
def normElems (s : State) (d : DieIx) (g : NormArgs) : List Nat :=
  let u := updOfBytes (handleBytes s d g.desc 0 64)
  (List.range (u.gradElems g.rows)).map (elemFp32 s d g.grad u.grad16)

/-- What UPD_NORM adds to its scalar registers. -/
def normSums (d : DieIx) (g : NormArgs) (xs : List Nat) (s : State) : State :=
  let t := putScalar d g.sca (pz (fadd (scalarOf s d g.sca % 2 ^ 32) (laneSum 128 (xs.map fun x => fmul x x)))) s
  putScalar d g.scb (scalarOf t d g.scb + xs.countP fun x => (f32 x).isNan || (f32 x).isInf) t

/-- The operation of UPD_NORM. -/
def normOp (s : State) (a : Site) (j : Job) (g : NormArgs) : Op :=
  { opZero 0 j.id a.queue a.off 5 with
    dests := [.scalar a.die g.sca, .scalar a.die g.scb], srcs := [.handle a.die g.desc, .handle a.die g.grad], scalars := [g.sca, g.scb]
    cost := ceilDiv ((updOfBytes (handleBytes s a.die g.desc 0 64)).gradElems g.rows) 128 + 64 }

theorem issueNorm_run (hready : Ready s a j) (hengine : engineHere s a.die 4 = true)
    (hhandles : ∀ h ∈ [g.desc, g.grad], (handleOf s a.die h).valid = true ∧ (handleOf s a.die h).ring = false ∧ (handleOf s a.die h).poisoned = false ∧
      (handleOf s a.die h).isSecret = false) (hsound : updSound (handleBytes s a.die g.desc 0 64) = true)
    (hholds : handleHolds s a.die g.grad ((updOfBytes (handleBytes s a.die g.desc 0 64)).gradElems g.rows *
      width16 (updOfBytes (handleBytes s a.die g.desc 0 64)).grad16) = true)
    (hbusy : scalarBusy s a.die [g.sca, g.scb] = false) (hbad : scalarBad s a.die [g.sca, g.scb] = false) {m : Nat}
    (hadmit : sbAdmit s a.die [bytesRange s a.die g.desc 64 false, bytesRange s a.die g.grad
      ((updOfBytes (handleBytes s a.die g.desc 0 64)).gradElems g.rows * width16 (updOfBytes (handleBytes s a.die g.desc 0 64)).grad16) false] =
        some (es, m)) :
    issueNorm a g j s = .done (startOp a.die (normOp s a j g) es (normSums a.die g (normElems s a.die g) (count a.die 2 m s))) := by
  have hcount := count_frame a.die 2 m s
  have huse : handlesUse s a.die [g.desc, g.grad] = .pass := handlesUse_pass fun h hh => ⟨(hhandles h hh).1, (hhandles h hh).2.1⟩
  have hpoison : handlesPoison s a.die [g.desc, g.grad] = .pass := handlesPoison_pass fun h hh => (hhandles h hh).2.2.1
  have hsecret : ([g.desc, g.grad].any fun h => (handleOf s a.die h).isSecret) = false := any_eq_false fun h hh => (hhandles h hh).2.2.2
  have hholds' : handleHolds (count a.die 2 m s) a.die g.grad ((updOfBytes (handleBytes s a.die g.desc 0 64)).gradElems g.rows *
      width16 (updOfBytes (handleBytes s a.die g.desc 0 64)).grad16) = true := by
    rw [handleHolds, hcount.handleOf (by decide)]
    exact hholds
  have helems : elemFp32 (count a.die 2 m s) a.die g.grad (updOfBytes (handleBytes s a.die g.desc 0 64)).grad16 =
      elemFp32 s a.die g.grad (updOfBytes (handleBytes s a.die g.desc 0 64)).grad16 := funext fun i => hcount.elemFp32 (by decide) ..
  unfold issueNorm
  dsimp only
  rw [hengine, huse, hsecret, hbusy, if_neg (by decide), if_neg (by decide)]
  rw [withScoreboard_admitted hready.fresh hadmit]
  rw [hcount.handlesPoison (by decide), hpoison, hcount.scalarBad (by decide), hbad, hcount.handleBytes (by decide), hsound, hholds', if_neg (by decide),
    helems]
  rfl

theorem normSums_poised (xs : List Nat) (u : State) : Poised a j u (normSums a.die g xs u) := by
  unfold normSums putScalar
  exact (Poised.updDie _ u).trans (.updDie _ _)

theorem scalarOf_putScalar (d : DieIx) (k v r : Nat) (u : State) :
    scalarOf (putScalar d k v u) d r = if r = k then v % 2 ^ 64 else scalarOf u d r := by
  rw [scalarOf, putScalar, dieOf_updDie_self, tblGetD_tblSet]
  simp only [eq_comm]
  rfl

/-- The registers after UPD_NORM. -/
theorem scalarOf_normSums (xs : List Nat) (u : State) (hne : g.sca ≠ g.scb) :
    scalarOf (normSums a.die g xs u) a.die g.sca =
      pz (fadd (scalarOf u a.die g.sca % 2 ^ 32) (laneSum 128 (xs.map fun x => fmul x x))) % 2 ^ 64 ∧
    scalarOf (normSums a.die g xs u) a.die g.scb = (scalarOf u a.die g.scb + xs.countP fun x => (f32 x).isNan || (f32 x).isInf) % 2 ^ 64 ∧
    ∀ r, r ≠ g.sca → r ≠ g.scb → scalarOf (normSums a.die g xs u) a.die r = scalarOf u a.die r := by
  unfold normSums
  simp only [scalarOf_putScalar]
  refine ⟨?_, ?_, fun r hsca hscb => ?_⟩
  · rw [if_neg hne, if_pos trivial]
  · rw [if_pos trivial, if_neg (Ne.symm hne)]
  · rw [if_neg hscb, if_neg hsca]

/-- What of the die UPD_NORM leaves. -/
theorem normSums_die (xs : List Nat) (u : State) : (dieOf (normSums a.die g xs u) a.die).scratch = (dieOf u a.die).scratch ∧
    vecRest (dieOf (normSums a.die g xs u) a.die) = vecRest (dieOf u a.die) := by
  unfold normSums putScalar
  dsimp only
  rw [dieOf_updDie_self, dieOf_updDie_self]
  exact ⟨rfl, rfl⟩

theorem normSums_frame (d : DieIx) (xs : List Nat) (u : State) : Frame [.dies] u (normSums d g xs u) :=
  Frame.trans (putScalar_frame _ _ _ _) (putScalar_frame _ _ _ _)

end Norm

/-! #### What UPD_APPLY writes (R211 to R217) -/

/-- What the step of an element writes. -/
def stepWrites (d : DieIx) (g : UpdArgs) (u : UpdDesc) (bits : List Byte) (e : Nat) (r : Nat × Nat × Nat) (s : State) : State :=
  let t := putState d g.m u.state16 (rhoOf bits 1 e) e r.2.1 (putHandle d g.weights (2 * e) (leBytes 2 (stochB16 (rhoOf bits 0 e) r.1)) s)
  if u.hasV then putState d g.v u.state16 (rhoOf bits 2 e) e r.2.2 t else t

theorem stepElem_eq (d : DieIx) (g : UpdArgs) (u : UpdDesc) (k : UpdConsts) (bits : List Byte) (e gi : Nat) (s : State) :
    stepElem d g u k bits e gi s = stepWrites d g u bits e (updElem u.rule k (elemFp32 s d g.grad u.grad16 gi) (elemFp32 s d g.m u.state16 e)
      (if u.hasV then elemFp32 s d g.v u.state16 e else 0) (elemFp32 s d g.weights true e)) s := rfl

/-- A step has written scratchpad bytes of a die and nothing else. -/
structure ScratchWritten (d : DieIx) (s u : State) : Prop where
  lands : Lands d s u
  rest : { dieOf u d with scratch := [] } = { dieOf s d with scratch := [] }
  wf : Memory.wf (dieOf s d).scratch = true → Memory.wf (dieOf u d).scratch = true

namespace ScratchWritten

variable {d : DieIx} {s t u : State}

theorem refl (d : DieIx) (s : State) : ScratchWritten d s s := ⟨.refl d s, rfl, id⟩

theorem trans (h : ScratchWritten d s t) (k : ScratchWritten d t u) : ScratchWritten d s u :=
  ⟨h.lands.trans k.lands, k.rest.trans h.rest, fun hwf => k.wf (h.wf hwf)⟩

theorem putHandle (d : DieIx) (k o : Nat) (bs : List Byte) (s : State) : ScratchWritten d s (putHandle d k o bs s) := by
  refine ⟨putHandle_lands .., ?_, fun hwf => ?_⟩
  · rw [Machine.putHandle, dieOf_updDie_self]
  · rw [Machine.putHandle, dieOf_updDie_self]
    exact memPut_wf _ _ hwf

theorem foldl {β : Type} {f : State → β → State} (hf : ∀ s x, ScratchWritten d s (f s x)) (l : List β) (s : State) :
    ScratchWritten d s (l.foldl f s) := by
  induction l generalizing s with
  | nil => exact refl d s
  | cons x l ih => exact (hf s x).trans (ih _)

theorem field (h : ScratchWritten d s u) {β : Type} (g : Die → β) (hg : ∀ x : Die, g { x with scratch := [] } = g x) : g (dieOf u d) = g (dieOf s d) := by
  rw [← hg, h.rest, hg]

theorem putState (d : DieIx) (k : Nat) (is16 : Bool) (rho i x : Nat) (s : State) : ScratchWritten d s (putState d k is16 rho i x s) := by
  unfold Machine.putState
  split <;> exact putHandle ..

theorem stepElem (d : DieIx) (g : UpdArgs) (u : UpdDesc) (k : UpdConsts) (bits : List Byte) (e gi : Nat) (s : State) :
    ScratchWritten d s (stepElem d g u k bits e gi s) := by
  rw [stepElem_eq]
  generalize updElem _ _ _ _ _ _ = r
  unfold stepWrites
  split
  · exact ((putHandle ..).trans (putState ..)).trans (putState ..)
  · exact (putHandle ..).trans (putState ..)

theorem stepRun (d : DieIx) (g : UpdArgs) (u : UpdDesc) (k : UpdConsts) (seed : List Byte) (e gi n : Nat) (s : State) :
    ScratchWritten d s (stepRun d g u k seed e gi n s) := by
  unfold Machine.stepRun
  exact foldl (fun s i => stepElem ..) _ s

theorem stepRow (d : DieIx) (g : UpdArgs) (u : UpdDesc) (seed : List Byte) (eta lambda c : Nat) (x : Nat × Nat) (s : State) :
    ScratchWritten d s (stepRow d g u seed eta lambda c x s) := by
  unfold Machine.stepRow
  exact (putHandle ..).trans (stepRun ..)

end ScratchWritten

namespace SameObjects

variable {d : DieIx} {s t : State}

theorem handleBytes (h : SameObjects d s t) (k o n : Nat) : handleBytes t d k o n = handleBytes s d k o n := by
  obtain ⟨hscratch, -, -, hhandles⟩ := h.parts
  simp only [Machine.handleBytes, handleOf, hscratch, hhandles]

theorem elemFp32 (h : SameObjects d s t) (k : Nat) (is16 : Bool) (i : Nat) : elemFp32 t d k is16 i = elemFp32 s d k is16 i := by
  simp only [Machine.elemFp32, h.handleBytes]

theorem putState (h : SameObjects d s t) (k : Nat) (is16 : Bool) (rho i x : Nat) :
    SameObjects d (putState d k is16 rho i x s) (putState d k is16 rho i x t) := by
  unfold Machine.putState
  split <;> exact h.putHandle ..

theorem stepElem (h : SameObjects d s t) (g : UpdArgs) (u : UpdDesc) (k : UpdConsts) (bits : List Byte) (e gi : Nat) :
    SameObjects d (stepElem d g u k bits e gi s) (stepElem d g u k bits e gi t) := by
  rw [stepElem_eq, stepElem_eq]
  simp only [h.elemFp32]
  generalize updElem _ _ _ _ _ _ = r
  unfold stepWrites
  split
  · exact ((h.putHandle ..).putState ..).putState ..
  · exact (h.putHandle ..).putState ..

theorem stepRun (h : SameObjects d s t) (g : UpdArgs) (u : UpdDesc) (k : UpdConsts) (seed : List Byte) (e gi n : Nat) :
    SameObjects d (stepRun d g u k seed e gi n s) (stepRun d g u k seed e gi n t) := by
  unfold Machine.stepRun
  refine foldl (fun i u v huv => ?_) _ h
  exact huv.stepElem ..

theorem stepRow (h : SameObjects d s t) (g : UpdArgs) (u : UpdDesc) (seed : List Byte) (eta lambda c : Nat) (x : Nat × Nat) :
    SameObjects d (stepRow d g u seed eta lambda c x s) (stepRow d g u seed eta lambda c x t) := by
  unfold Machine.stepRow
  simp only [h.handleBytes]
  generalize Nat.min _ _ = n
  exact (h.putHandle ..).stepRun ..

theorem lazyIdx (h : SameObjects d s t) (g : UpdArgs) : lazyIdx t d g = lazyIdx s d g := by
  simp only [Machine.lazyIdx, h.handleBytes]

theorem applyStep (h : SameObjects d s t) (g : UpdArgs) (u : UpdDesc) (b seed : List Byte) (eta lambda : Nat)
    (hscalar : scalarOf t d g.sg = scalarOf s d g.sg) :
    SameObjects d (applyStep d g u b seed eta lambda s) (applyStep d g u b seed eta lambda t) := by
  unfold Machine.applyStep
  rw [hscalar, h.lazyIdx]
  generalize Nat.min _ _ = n
  split
  · refine putHandle (foldl (fun x u v huv => ?_) _ h) ..
    exact huv.stepRow ..
  · exact (h.stepRun ..).putHandle ..

end SameObjects

/-- The elements that UPD_APPLY writes before it stamps the descriptor. -/
def applyElems (d : DieIx) (g : UpdArgs) (u : UpdDesc) (seed : List Byte) (eta lambda : Nat) (s : State) : State :=
  let c := clipFactor u (scalarOf s d g.sg % 2 ^ 32)
  if u.lazyRows then ((lazyIdx s d g).zipIdx.filter fun x => decide (x.1 < u.elements / u.rowLength)).foldl
    (fun s x => stepRow d g u seed eta lambda c x s) s
  else stepRun d g u (updConsts u eta lambda c (Nat.min (u.step + 1) 0xFFFFFFFF)) seed 0 0 u.elements s

theorem applyStep_eq (d : DieIx) (g : UpdArgs) (u : UpdDesc) (b seed : List Byte) (eta lambda : Nat) (s : State) :
    applyStep d g u b seed eta lambda s = putHandle d g.desc 0
      (updStamp b (if u.lazyRows then u.step else Nat.min (u.step + 1) 0xFFFFFFFF)) (applyElems d g u seed eta lambda s) := by
  unfold applyStep applyElems
  cases h : u.lazyRows <;> simp only [Bool.false_eq_true, if_true, if_false]

theorem applyElems_written (d : DieIx) (g : UpdArgs) (u : UpdDesc) (seed : List Byte) (eta lambda : Nat) (s : State) :
    ScratchWritten d s (applyElems d g u seed eta lambda s) := by
  unfold applyElems
  dsimp only
  split
  · exact .foldl (fun _ _ => .stepRow ..) _ s
  · exact .stepRun ..

theorem applyStep_written (d : DieIx) (g : UpdArgs) (u : UpdDesc) (b seed : List Byte) (eta lambda : Nat) (s : State) :
    ScratchWritten d s (applyStep d g u b seed eta lambda s) := by
  rw [applyStep_eq]
  exact (applyElems_written ..).trans (.putHandle ..)

theorem updStamp_length {b : List Byte} (hb : b.length = 64) (n : Nat) : (updStamp b n).length = 64 := by
  simp [updStamp, hb]

theorem handleBytes_putHandle {d : DieIx} {s : State} (hwf : Memory.wf (dieOf s d).scratch = true) (k o : Nat) {n : Nat} {bs : List Byte}
    (hlen : bs.length = n) : handleBytes (putHandle d k o bs s) d k o n = bs := by
  subst hlen
  have hbase : handleOf (putHandle d k o bs s) d k = handleOf s d k := by
    rw [handleOf, putHandle, dieOf_updDie_self, handleOf]
  rw [handleBytes, hbase, putHandle, dieOf_updDie_self]
  dsimp only
  rw [memBytes_memPut _ _ hwf]

/-- The descriptor that UPD_APPLY leaves. -/
theorem handleBytes_applyStep {d : DieIx} {s : State} (hwf : Memory.wf (dieOf s d).scratch = true) (g : UpdArgs) (u : UpdDesc) {b : List Byte}
    (hb : b.length = 64) (seed : List Byte) (eta lambda : Nat) :
    handleBytes (applyStep d g u b seed eta lambda s) d g.desc 0 64 =
      updStamp b (if u.lazyRows then u.step else Nat.min (u.step + 1) 0xFFFFFFFF) := by
  rw [applyStep_eq]
  exact handleBytes_putHandle ((applyElems_written d g u seed eta lambda s).wf hwf) g.desc 0 (updStamp_length hb _)

section Apply

variable {s : State} {a : Site} {j : Job} {es : List SbEntry} {g : UpdArgs}

/-- The descriptor that UPD_APPLY reads. -/
def updDesc (s : State) (d : DieIx) (g : UpdArgs) : UpdDesc := updOfBytes (handleBytes s d g.desc 0 64)

/-- The bytes that UPD_APPLY takes of a handle. -/
def updSize (u : UpdDesc) (g : UpdArgs) (h : Nat) : Nat := (((updSizes u g).find? fun x => x.1 == h).map (·.2)).getD 0

/-- UPD_APPLY skips the step (R211). -/
def updSkips (s : State) (d : DieIx) (g : UpdArgs) : Bool := (updDesc s d g).check && scalarOf s d g.fg != 0

theorem updSkips_iff {d : DieIx} : updSkips s d g = true ↔ (updDesc s d g).check = true ∧ scalarOf s d g.fg ≠ 0 := by
  simp [updSkips]

/-- The listed rows that the tensor does not have. -/
def updOut (s : State) (d : DieIx) (g : UpdArgs) : Nat :=
  let u := updDesc s d g
  if u.lazyRows && !updSkips s d g then (lazyIdx s d g).countP fun i => decide (u.elements / u.rowLength ≤ i) else 0

/-- The operation of UPD_APPLY. -/
def applyOp (s : State) (a : Site) (j : Job) (g : UpdArgs) : Op :=
  let u := updDesc s a.die g
  { opZero 0 j.id a.queue a.off 5 with
    dests := (updWrites u g).map fun h => .handle a.die h, srcs := (updReads u g).map fun h => .handle a.die h
    cost := updCost u (updSkips s a.die g) (g.rows - updOut s a.die g) }

/-- What UPD_APPLY does to a part before its operation starts. -/
def updEffect (s : State) (a : Site) (j : Job) (g : UpdArgs) (t : State) : State :=
  let q := queueOf s a.die a.queue
  if updSkips s a.die g then logJob 0x0A05 j a 5 0 false t
  else countIndexes j a 5 (updOut s a.die g)
    (applyStep a.die g (updDesc s a.die g) (handleBytes s a.die g.desc 0 64) j.seed q.eta.toNat q.lambda.toNat t)

theorem issueUpd_run (hready : Ready s a j) (hengine : engineHere s a.die 4 = true)
    (hhandles : ∀ h ∈ updWrites (updDesc s a.die g) g ++ updReads (updDesc s a.die g) g,
      (handleOf s a.die h).valid = true ∧ (handleOf s a.die h).ring = false ∧ (handleOf s a.die h).poisoned = false)
    (hspill : secretSpill s a.die (updWrites (updDesc s a.die g) g ++ updReads (updDesc s a.die g) g) (updWrites (updDesc s a.die g) g) = false)
    (hstep : (queueOf s a.die a.queue).stepId = g.stepId.toNat) (hsound : updSound (handleBytes s a.die g.desc 0 64) = true)
    (hsizes : ∀ x ∈ updSizes (updDesc s a.die g) g, handleHolds s a.die x.1 x.2 = true)
    (hbusy : scalarBusy s a.die [g.sg, g.fg] = false) (hbad : scalarBad s a.die [g.sg, g.fg] = false) {m : Nat}
    (hadmit : sbAdmit s a.die ((updReads (updDesc s a.die g) g).map (fun h => bytesRange s a.die h (updSize (updDesc s a.die g) g h) false) ++
      (updWrites (updDesc s a.die g) g).map fun h => bytesRange s a.die h (updSize (updDesc s a.die g) g h) true) = some (es, m))
    (hlazy : (updDesc s a.die g).lazyRows = true → ascending (lazyIdx s a.die g) = true) :
    issueUpd a g j s = .done (startOp a.die (applyOp s a j g) es (updEffect s a j g (count a.die 2 m s))) := by
  have hcount := count_frame a.die 2 m s
  have hdesc : updOfBytes (handleBytes s a.die g.desc 0 64) = updDesc s a.die g := rfl
  have huse := handlesUse_pass fun h hh => ⟨(hhandles h hh).1, (hhandles h hh).2.1⟩
  have hstate : handlesPoison s a.die ([g.desc, g.weights, g.grad, g.m] ++ (if (updDesc s a.die g).hasV then [g.v] else [])) = .pass := by
    refine handlesPoison_pass fun h hh => (hhandles h ?_).2.2
    simp only [List.mem_append, List.mem_cons, List.not_mem_nil, or_false] at hh
    rcases hh with (rfl | rfl | rfl | rfl) | hv
    · simp [updWrites]
    · simp [updWrites]
    · simp [updReads]
    · simp [updWrites]
    · simp [updWrites, hv]
  have hrows : handlesPoison s a.die (if (updDesc s a.die g).lazyRows then [g.idx, g.counts] else []) = .pass := by
    refine handlesPoison_pass fun h hh => (hhandles h ?_).2.2
    split at hh
    · next hlazy =>
      simp only [List.mem_cons, List.not_mem_nil, or_false] at hh
      rcases hh with rfl | rfl
      · simp [updReads, if_pos hlazy]
      · simp [updWrites, if_pos hlazy]
    · exact absurd hh (List.not_mem_nil)
  have hholds : ((updSizes (updDesc s a.die g) g).any fun x => !(handleHolds (count a.die 2 m s) a.die x.1 x.2)) = false := any_eq_false fun x hx => by
    rw [handleHolds, hcount.handleOf (by decide), show decide _ = true from hsizes x hx]
    rfl
  have hascend : ((updDesc s a.die g).lazyRows && !(ascending (lazyIdx (count a.die 2 m s) a.die g))) = false := by
    rw [(SameObjects.of_frame hcount (by decide)).lazyIdx]
    cases hl : (updDesc s a.die g).lazyRows with
    | false => rfl
    | true => rw [hlazy hl]; rfl
  unfold issueUpd
  dsimp only
  rw [hdesc, hengine, huse, hspill, hbusy, hstep, if_neg (by simp; rfl), if_neg (by simp)]
  unfold updSize at hadmit
  rw [withScoreboard_admitted hready.fresh hadmit]
  rw [hcount.handlesPoison (by decide), hcount.handlesPoison (by decide), hstate, hrows, hcount.scalarBad (by decide), hbad, hsound, hholds, hascend,
    (SameObjects.of_frame hcount (by decide)).lazyIdx, hcount.scalarOf (by decide), if_neg (by decide)]
  rfl

theorem ascending_of_pairwise {l : List Nat} (h : l.Pairwise (· < ·)) : ascending l = true := by
  induction l with
  | nil => rfl
  | cons x l ih =>
    cases l with
    | nil => rfl
    | cons y l =>
      obtain ⟨hx, hl⟩ := List.pairwise_cons.mp h
      rw [ascending, ih hl, decide_eq_true (hx y (List.mem_cons_self ..))]
      rfl

theorem updOut_zero (h : ∀ i ∈ lazyIdx s a.die g, (updDesc s a.die g).lazyRows = true →
    i < (updDesc s a.die g).elements / (updDesc s a.die g).rowLength) : updOut s a.die g = 0 := by
  unfold updOut
  dsimp only
  split
  · next hl =>
    rw [Bool.and_eq_true] at hl
    exact List.countP_eq_zero.mpr fun i hi => by simpa using h i hi hl.1
  · rfl

/-- A step that is skipped (R211). -/
theorem updSkip_done (m : Nat) (hskip : updSkips s a.die g = true) :
    let t := startOp a.die (applyOp s a j g) es (updEffect s a j g (count a.die 2 m s))
    (∃ o, InFlight a j 5 es o s t) ∧ Logged 0x0A05 (evJob j a 5 0 false) s t ∧ (dieOf t a.die).scratch = (dieOf s a.die).scratch ∧
      scratchRest (dieOf t a.die) = scratchRest (dieOf s a.die) ∧ Frame (logAreas ++ [.dies, .jobs, .nextId]) s t := by
  intro t
  have heffect : updEffect s a j g (count a.die 2 m s) = logJob 0x0A05 j a 5 0 false (count a.die 2 m s) := if_pos hskip
  have hcount := count_frame a.die 2 m s
  have hlog := logJob_frame 0x0A05 j a 5 0 false (count a.die 2 m s)
  have hframe : Frame (logAreas ++ [.jobs]) s (logJob 0x0A05 j a 5 0 false (count a.die 2 m s)) := (hcount.then hlog).mono (by decide)
  have hposed : Poised a j s (logJob 0x0A05 j a 5 0 false (count a.die 2 m s)) := (Poised.count ..).trans (.logJob ..)
  have hlogged := logJob_logged 0x0A05 j a 5 0 false (count a.die 2 m s)
  change (∃ o, InFlight a j 5 es o s (startOp a.die _ es _)) ∧ Logged _ _ s (startOp a.die _ es _) ∧ _
  unfold t
  rw [heffect]
  generalize logJob 0x0A05 j a 5 0 false (count a.die 2 m s) = u at hframe hposed hlogged ⊢
  have hstart := startOp_frame a.die (applyOp s a j g) es u
  refine ⟨⟨_, hposed.startOp (o := applyOp s a j g) es rfl rfl rfl⟩, ?_, ?_, ?_, (hframe.then hstart).mono (by decide)⟩
  · exact (hlogged.between hcount hstart (by decide) (by decide))
  · rw [startOp_dieField a.die _ es u Die.scratch fun _ _ _ => rfl, hframe.dieField (by decide) Die.scratch fun _ => rfl]
  · rw [startOp_dieField a.die _ es u scratchRest fun _ _ _ => rfl, hframe.dieField (by decide) scratchRest fun _ => rfl]

/-- A step that is made (R211 to R217). -/
theorem updApply_done (m : Nat) (hmems : memsOk s) (hskip : updSkips s a.die g = false) (hout : updOut s a.die g = 0) :
    let t := startOp a.die (applyOp s a j g) es (updEffect s a j g (count a.die 2 m s))
    let b := handleBytes s a.die g.desc 0 64
    let u := updDesc s a.die g
    let q := queueOf s a.die a.queue
    (∃ o, InFlight a j 5 es o s t) ∧
      (dieOf t a.die).scratch = (dieOf (applyStep a.die g u b j.seed q.eta.toNat q.lambda.toNat s) a.die).scratch ∧
      handleBytes t a.die g.desc 0 64 = updStamp b (if u.lazyRows then u.step else Nat.min (u.step + 1) 0xFFFFFFFF) ∧
      scratchRest (dieOf t a.die) = scratchRest (dieOf s a.die) ∧ Frame [.dies, .counters, .jobs, .nextId] s t := by
  intro t b u q
  have heffect : updEffect s a j g (count a.die 2 m s) =
      count a.die 4 0 (applyStep a.die g u b j.seed q.eta.toNat q.lambda.toNat (count a.die 2 m s)) := by
    unfold updEffect
    rw [hskip, hout]
    rfl
  have hcount := count_frame a.die 2 m s
  have hsame : SameObjects a.die (applyStep a.die g u b j.seed q.eta.toNat q.lambda.toNat s)
      (applyStep a.die g u b j.seed q.eta.toNat q.lambda.toNat (count a.die 2 m s)) :=
    (SameObjects.of_frame hcount (by decide)).applyStep _ _ _ _ _ _ (hcount.scalarOf (by decide) _ _)
  have hwritten := applyStep_written a.die g u b j.seed q.eta.toNat q.lambda.toNat (count a.die 2 m s)
  have hbytes := handleBytes_applyStep (hmems.1 a.die).1 g u (memBytes_length _ _ _) j.seed q.eta.toNat q.lambda.toNat (b := b)
  generalize applyStep a.die g u b j.seed q.eta.toNat q.lambda.toNat s = v at hsame hbytes ⊢
  unfold t
  rw [heffect]
  generalize applyStep a.die g u b j.seed q.eta.toNat q.lambda.toNat (count a.die 2 m s) = w at hsame hwritten ⊢
  have hlast := count_frame a.die 4 0 w
  have hposed : Poised a j s (count a.die 4 0 w) := ((Poised.count ..).trans hwritten.lands.poised).trans (.count ..)
  have hstart := startOp_frame a.die (applyOp s a j g) es (count a.die 4 0 w)
  obtain ⟨hscratch, -, -, hhandles⟩ := (hsame.trans (.of_frame hlast (by decide))).parts
  have hscratch' : (dieOf (startOp a.die (applyOp s a j g) es (count a.die 4 0 w)) a.die).scratch = (dieOf v a.die).scratch :=
    (startOp_dieField a.die _ es _ Die.scratch fun _ _ _ => rfl).trans hscratch
  have hhandles' : (dieOf (startOp a.die (applyOp s a j g) es (count a.die 4 0 w)) a.die).handles = (dieOf v a.die).handles :=
    (startOp_dieField a.die _ es _ Die.handles fun _ _ _ => rfl).trans hhandles
  refine ⟨⟨_, hposed.startOp (o := applyOp s a j g) es rfl rfl rfl⟩, hscratch', ?_, ?_, (((hcount.then hwritten.lands.frame).then hlast).then hstart).mono (by decide)⟩
  · rw [handleBytes, handleOf, hscratch', hhandles']
    exact hbytes
  · rw [startOp_dieField a.die _ es _ scratchRest fun _ _ _ => rfl, hlast.dieField (by decide) scratchRest fun _ => rfl,
      hwritten.field scratchRest fun _ => rfl, hcount.dieField (by decide) scratchRest fun _ => rfl]

end Apply

/-- Settles O29: UPD_NORM and UPD_APPLY issue once their handles and registers are there; what they write is what R210 to R217 give. -/
theorem updateEngine : Obligations.UpdateEngine := by
  intro s a j es hmems hready hengine d
  constructor
  · intro g u n w hhandles hsound hholds hbusy hbad hne ⟨m, hadmit⟩ xs
    have hissue := issueNorm_run hready hengine hhandles hsound (decide_eq_true hholds) hbusy hbad hadmit
    have hcount := count_frame a.die 2 m s
    obtain ⟨hsca, hscb, hrest⟩ := scalarOf_normSums (a := a) (normElems s a.die g) (count a.die 2 m s) hne
    obtain ⟨hscratch, hvec⟩ := normSums_die (a := a) (g := g) (normElems s a.die g) (count a.die 2 m s)
    have hposed : Poised a j s (normSums a.die g (normElems s a.die g) (count a.die 2 m s)) := (Poised.count ..).trans (normSums_poised ..)
    have hframe : Frame [.counters, .dies] s (normSums a.die g (normElems s a.die g) (count a.die 2 m s)) := hcount.then (normSums_frame _ _ _)
    have hstart := startOp_frame a.die (normOp s a j g) es (normSums a.die g (normElems s a.die g) (count a.die 2 m s))
    simp only [hcount.scalarOf (by decide)] at hsca hscb hrest
    rw [hcount.dieField (by decide) Die.scratch fun _ => rfl] at hscratch
    rw [hcount.dieField (by decide) vecRest fun _ => rfl] at hvec
    have hscalar : ∀ r, scalarOf (startOp a.die (normOp s a j g) es (normSums a.die g (normElems s a.die g) (count a.die 2 m s))) a.die r =
        scalarOf (normSums a.die g (normElems s a.die g) (count a.die 2 m s)) a.die r := fun r =>
      startOp_dieField a.die _ es _ (fun x => tblGetD x.scalars r 0) fun _ _ _ => rfl
    refine ⟨_, _, congrArg ok (runInstr_done hready hissue), hposed.startOp (o := normOp s a j g) es rfl rfl rfl, rfl, (hscalar _).trans hsca, (hscalar _).trans hscb,
      fun r hr hr' => (hscalar r).trans (hrest r hr hr'), ?_, ?_, (hframe.then hstart).mono (by decide)⟩
    · rw [startOp_dieField a.die _ es _ Die.scratch fun _ _ _ => rfl, hscratch]
    · rw [startOp_dieField a.die _ es _ vecRest fun _ _ _ => rfl, hvec]
  · intro g b u q size skip hhandles hspill hstep hsound hsizes hbusy hbad ⟨m, hadmit⟩ hlazy
    have hissue := issueUpd_run hready hengine hhandles hspill hstep hsound (fun x hx => decide_eq_true (hsizes x hx)) hbusy hbad hadmit
      fun h => ascending_of_pairwise (hlazy h).1
    have hexec : exec (.updApply a g) s = .next (startOp a.die (applyOp s a j g) es (updEffect s a j g (count a.die 2 m s))) :=
      congrArg ok (runInstr_done hready hissue)
    refine ⟨fun hskip => ?_, fun hskip => ?_⟩
    · obtain ⟨⟨o, hflight⟩, hdone⟩ := updSkip_done (j := j) (es := es) m (updSkips_iff.mpr hskip)
      exact ⟨_, o, hexec, hflight, hdone⟩
    · obtain ⟨⟨o, hflight⟩, hdone⟩ := updApply_done (j := j) (es := es) m hmems (Bool.eq_false_iff.mpr fun h => hskip (updSkips_iff.mp h)) (updOut_zero fun i hi h => (hlazy h).2 i hi)
      exact ⟨_, o, hexec, hflight, hdone⟩

end Sys2Proof.Machine

namespace Sys2Proof.Machine

/-! ### What the vector and tensor engines read (R197, R198) -/

/-- The fields of a die that an engine's operands are read from. -/
def readMem (x : Die) : Mem × Mem × Tbl Mem × Tbl Mem × Tbl Nat × Tbl Handle × Tbl StoreHandle × Tbl Desc :=
  (x.scratch, x.store, x.tiles, x.cache, x.scalars, x.handles, x.storeHandles, x.descs)

/-- Two states whose engines read the same: memories, registers and tables are alike, and rings lie on the same handles. -/
structure SameRead (s t : State) : Prop where
  mem : ∀ e, readMem (dieOf t e) = readMem (dieOf s e)
  ring : ∀ e r, (ringOf t e r).handle = (ringOf s e r).handle

theorem dieOf_claimTakes_ne {d e : DieIx} (us : List (Nat × Bool)) (s : State) (he : e ≠ d) : dieOf (claimTakes d us s) e = dieOf s e := by
  induction us generalizing s with
  | nil => rfl
  | cons u us ih =>
    change dieOf (claimTakes d us (if u.2 then updRing d u.1 (fun g => { g with take := inc32 g.take }) s else s)) e = _
    rw [ih]
    split
    · rw [updRing, dieOf_updDie_ne _ _ he]
    · rfl

namespace SameRead

variable {s t u : State}

theorem trans (h : SameRead s t) (k : SameRead t u) : SameRead s u :=
  ⟨fun e => (k.mem e).trans (h.mem e), fun e r => (k.ring e r).trans (h.ring e r)⟩

theorem of_frame {ws : List Area} (h : Frame ws s t) (hdies : Area.dies ∉ ws) : SameRead s t :=
  ⟨h.dieField hdies readMem fun _ => rfl, fun e r => by rw [h.ringOf hdies]⟩

theorem claimTakes (d : DieIx) (us : List (Nat × Bool)) (s : State) : SameRead s (claimTakes d us s) := by
  refine ⟨fun e => ?_, fun e r => ?_⟩
  all_goals
    by_cases he : e = d
    · subst he
      simp only [ringOf, dieOf_claimTakes, tblGetD_takenRings, readMem]
    · simp only [ringOf, dieOf_claimTakes_ne us s he]

theorem parts (h : SameRead s t) (e : DieIx) : (dieOf t e).scratch = (dieOf s e).scratch ∧ (dieOf t e).store = (dieOf s e).store ∧
    (dieOf t e).tiles = (dieOf s e).tiles ∧ (dieOf t e).cache = (dieOf s e).cache ∧ (dieOf t e).scalars = (dieOf s e).scalars ∧
    (dieOf t e).handles = (dieOf s e).handles ∧ (dieOf t e).storeHandles = (dieOf s e).storeHandles ∧ (dieOf t e).descs = (dieOf s e).descs := by
  simpa only [readMem, Prod.mk.injEq] using h.mem e

theorem descOf (h : SameRead s t) (d : DieIx) (i : Nat) : descOf t d i = descOf s d i := by
  obtain ⟨-, -, -, -, -, -, -, hdescs⟩ := h.parts d
  rw [Machine.descOf, hdescs, Machine.descOf]

theorem scalarOf (h : SameRead s t) (d : DieIx) (k : Nat) : scalarOf t d k = scalarOf s d k := by
  obtain ⟨-, -, -, -, hscalars, -⟩ := h.parts d
  rw [Machine.scalarOf, hscalars, Machine.scalarOf]

theorem descMem (h : SameRead s t) (x : Desc) (slot k : Nat) : Desc.mem t x slot k = Desc.mem s x slot k := by
  obtain ⟨hscratch, hstore, -, -, -, hhandles, hstores, -⟩ := h.parts x.dieIx
  simp only [Desc.mem, storeOf, handleOf, h.ring, hscratch, hstore, hhandles, hstores]

theorem engineBytes (h : SameRead s t) (d : DieIx) (g : Fin 2) (op : VOp) (o n : Nat) : engineBytes t d g op o n = engineBytes s d g op o n := by
  obtain ⟨-, -, htiles, hcache, -⟩ := h.parts d
  unfold Machine.engineBytes
  rw [htiles, hcache]

theorem vRead (h : SameRead s t) (d : DieIx) (g : Fin 2) (f : VFmt) (n slot : Nat) (op : VOp) : vRead t d g f n slot op = vRead s d g f n slot op := by
  cases op with
  | scalar k =>
    unfold Machine.vRead
    simp only [h.scalarOf]
  | desc i =>
    unfold Machine.vRead
    simp only [h.descOf, h.descMem]
  | tile z =>
    unfold Machine.vRead
    simp only [h.engineBytes]
  | cache line k =>
    unfold Machine.vRead
    simp only [h.engineBytes]

theorem readScale (h : SameRead s t) (x : Desc) (slot i : Nat) : readScale t x slot i = readScale s x slot i := by
  unfold Machine.readScale
  simp only [h.descMem]

theorem vValues (h : SameRead s t) (d : DieIx) (g : Fin 2) (n slot : Nat) (op : VOp) : vValues t d g n slot op = vValues s d g n slot op := by
  unfold Machine.vValues
  simp only [h.descOf, h.descMem, h.readScale, h.vRead]

end SameRead

/-! ### What they write (R198, R204) -/

/-- What a die keeps besides the memories that an engine writes. -/
def engineRest (x : Die) : Die :=
  { x with scratch := [], tiles := [], tilePoison := [], cache := [], cachePoison := [], scalars := [], scalarPoison := [] }

/-- A step has written the memories of an engine's operands on a die and nothing else. -/
structure EngineWrites (d : DieIx) (s u : State) : Prop where
  frame : Frame [.dies] s u
  others : ∀ e, e ≠ d → dieOf u e = dieOf s e
  rest : engineRest (dieOf u d) = engineRest (dieOf s d)
  nextId : u.nextId = s.nextId
  jobs : u.jobs = s.jobs

namespace EngineWrites

variable {d : DieIx} {s t u : State}

theorem refl (d : DieIx) (s : State) : EngineWrites d s s := ⟨.refl _ s, fun _ _ => rfl, rfl, rfl, rfl⟩

theorem trans (h : EngineWrites d s t) (k : EngineWrites d t u) : EngineWrites d s u :=
  ⟨h.frame.trans k.frame, fun e he => (k.others e he).trans (h.others e he), k.rest.trans h.rest, k.nextId.trans h.nextId, k.jobs.trans h.jobs⟩

theorem updDie (f : Die → Die) (s : State) (hf : engineRest (f (dieOf s d)) = engineRest (dieOf s d)) : EngineWrites d s (updDie d f s) := by
  have hcounters : (engineRest (f (dieOf s d))).counters = (engineRest (dieOf s d)).counters := by rw [hf]
  refine ⟨updDie_frame_dies d f s hcounters, fun e he => dieOf_updDie_ne f s he, ?_, rfl, rfl⟩
  rw [dieOf_updDie_self, hf]

theorem field (h : EngineWrites d s u) {β : Type} (g : Die → β) (hg : ∀ x, g (engineRest x) = g x) : g (dieOf u d) = g (dieOf s d) := by
  rw [← hg, h.rest, hg]

theorem poised {a : Site} {j : Job} (h : EngineWrites a.die s u) : Poised a j s u :=
  ⟨h.field Die.ops fun _ => rfl, h.field Die.scoreboard fun _ => rfl, h.nextId, fun e he => by rw [h.others e he], by rw [h.jobs],
    fun k hk _ => h.jobs ▸ hk⟩

end EngineWrites

/-- The fields of a die that an engine writes, and those that tell it where. -/
def engineMem (x : Die) : Mem × Tbl Mem × List (Nat × Ev) × Tbl Mem × List (Nat × Ev) × Tbl Nat × List Nat × Tbl Handle × Tbl Desc :=
  (x.scratch, x.tiles, x.tilePoison, x.cache, x.cachePoison, x.scalars, x.scalarPoison, x.handles, x.descs)

/-- An engine's operands on a die are the same in two states. -/
def SameEngine (d : DieIx) (s u : State) : Prop := engineMem (dieOf u d) = engineMem (dieOf s d)

/-- A descriptor lies in the scratchpad of a die. -/
def InScratch (d : DieIx) (t : Desc) : Prop := t.dieIx = d ∧ t.space = 0

/-- An operand that an engine may write: a descriptor lies in its die's scratchpad. -/
def Writable (s : State) (d : DieIx) (op : VOp) : Prop := ∀ i t, op = .desc i → descOf s d i = some t → InScratch d t

theorem inScratch_of_engineDesc {s : State} {d : DieIx} {i : Nat} {t : Desc} (h : engineDesc s d false i = .pass) (ht : descOf s d i = some t) :
    InScratch d t := by
  rw [engineDesc, ht] at h
  have hfirst : failIf (!(engineSpace d false t) || t.secret s) (.skip 0x0105) = .pass := firstFail_eq_pass.mp h _ (List.mem_cons_self ..)
  by_contra hout
  have hspace : engineSpace d false t = false := by simpa [engineSpace, InScratch] using hout
  rw [hspace] at hfirst
  cases hfirst

theorem writable_of_vOperand {s : State} {d : DieIx} {f : VFmt} {any : Bool} {op : VOp} (h : vOperand s d f any true op = .pass) : Writable s d op := by
  rintro i t rfl ht
  exact inScratch_of_engineDesc (firstFail_eq_pass.mp h _ (List.mem_cons_self ..)) ht

theorem InScratch.writeElems_eq {d : DieIx} {t : Desc} (h : InScratch d t) (slot : Nat) (xs : List (Int × Nat)) (s : State) :
    writeElems t slot xs s = updDie d (fun x => { x with
      scratch := xs.foldl (fun m e => writeElem m ((handleOf s d t.handle).base * rowBytes) t e.1 e.2) x.scratch }) s := by
  obtain ⟨hdie, hspace⟩ := h
  simp [writeElems, touchDigest, updSpace, Desc.mem, hspace, hdie]

theorem InScratch.writeScales_eq {d : DieIx} {t : Desc} (h : InScratch d t) (slot : Nat) (xs : List (Nat × Nat)) (s : State) :
    writeScales t slot xs s = if t.scales then updDie d (fun x => { x with
      scratch := xs.foldl (fun m e => memSet m ((handleOf s d t.scaleHandle).base * rowBytes + t.scaleOffset + e.1) (BitVec.ofNat 8 e.2)) x.scratch }) s
    else s := by
  obtain ⟨hdie, hspace⟩ := h
  simp [writeScales, touchDigest, updSpace, Desc.mem, hspace, hdie]

theorem InScratch.writeElems_writes {d : DieIx} {t : Desc} (h : InScratch d t) (slot : Nat) (xs : List (Int × Nat)) (s : State) :
    EngineWrites d s (writeElems t slot xs s) := by
  rw [h.writeElems_eq]
  exact .updDie _ s rfl

theorem InScratch.writeScales_writes {d : DieIx} {t : Desc} (h : InScratch d t) (slot : Nat) (xs : List (Nat × Nat)) (s : State) :
    EngineWrites d s (writeScales t slot xs s) := by
  rw [h.writeScales_eq]
  split
  · exact .updDie _ s rfl
  · exact .refl d s

theorem vWrite_writes {s : State} {d : DieIx} {op : VOp} (h : Writable s d op) (g : Fin 2) (f : VFmt) (xs : List (Nat × Nat)) :
    EngineWrites d s (vWrite d g f xs op s) := by
  unfold vWrite
  split
  · exact .refl d s
  · cases op with
    | tile z => exact .updDie _ s rfl
    | cache line k => exact .updDie _ s rfl
    | scalar k =>
      cases xs with
      | nil => exact .refl d s
      | cons e xs => exact .updDie _ s rfl
    | desc i =>
      dsimp only
      split
      · next t ht => exact (h i t rfl ht).writeElems_writes ..
      · exact .refl d s

namespace SameEngine

variable {d : DieIx} {s t u : State}

theorem trans (h : SameEngine d s t) (k : SameEngine d t u) : SameEngine d s u := Eq.trans k h

theorem of_frame {ws : List Area} (h : Frame ws s u) (hdies : Area.dies ∉ ws) : SameEngine d s u := h.dieField hdies engineMem (fun _ => rfl) d

theorem claimTakes (us : List (Nat × Bool)) (s : State) : SameEngine d s (claimTakes d us s) := by
  rw [SameEngine, dieOf_claimTakes]
  rfl

theorem parts (h : SameEngine d s u) : VecMem d s u ∧ (dieOf u d).handles = (dieOf s d).handles ∧ (dieOf u d).descs = (dieOf s d).descs := by
  unfold SameEngine engineMem at h
  simp only [Prod.mk.injEq] at h
  obtain ⟨hscratch, htiles, htileP, hcache, hcacheP, hscalars, hscalarP, hhandles, hdescs⟩ := h
  exact ⟨⟨hscratch, htiles, htileP, hcache, hcacheP, hscalars, hscalarP⟩, hhandles, hdescs⟩

theorem updDie {f g : Die → Die} (hf : engineMem (g (dieOf u d)) = engineMem (f (dieOf s d))) : SameEngine d (updDie d f s) (updDie d g u) := by
  unfold SameEngine
  rw [dieOf_updDie_self, dieOf_updDie_self, hf]

theorem descOf (h : SameEngine d s u) (i : Nat) : descOf u d i = descOf s d i := by
  rw [Machine.descOf, h.parts.2.2, Machine.descOf]

theorem handleOf (h : SameEngine d s u) (k : Nat) : handleOf u d k = handleOf s d k := by
  rw [Machine.handleOf, h.parts.2.1, Machine.handleOf]

/-- The same change of a die's fields, where it reads what an engine writes. -/
theorem update (h : SameEngine d s u) (f : Die → Die)
    (hf : ∀ x y, engineMem x = engineMem y → engineMem (f x) = engineMem (f y)) : SameEngine d (Machine.updDie d f s) (Machine.updDie d f u) :=
  updDie (hf _ _ h)

theorem writeElems (h : SameEngine d s u) {x : Desc} (hx : InScratch d x) (slot : Nat) (xs : List (Int × Nat)) :
    SameEngine d (writeElems x slot xs s) (writeElems x slot xs u) := by
  rw [hx.writeElems_eq, hx.writeElems_eq, h.handleOf]
  refine h.update _ fun x y hxy => ?_
  simp only [engineMem, Prod.mk.injEq] at hxy ⊢
  simp only [hxy, and_self]

theorem writeScales (h : SameEngine d s u) {x : Desc} (hx : InScratch d x) (slot : Nat) (xs : List (Nat × Nat)) :
    SameEngine d (writeScales x slot xs s) (writeScales x slot xs u) := by
  rw [hx.writeScales_eq, hx.writeScales_eq, h.handleOf]
  split
  · refine h.update _ fun x y hxy => ?_
    simp only [engineMem, Prod.mk.injEq] at hxy ⊢
    simp only [hxy, and_self]
  · exact h

theorem vWrite (h : SameEngine d s u) {op : VOp} (hop : Writable s d op) (g : Fin 2) (f : VFmt) (xs : List (Nat × Nat)) :
    SameEngine d (vWrite d g f xs op s) (vWrite d g f xs op u) := by
  unfold Machine.vWrite
  split
  · exact h
  · cases op with
    | tile z =>
      refine h.update _ fun x y hxy => ?_
      simp only [engineMem, Prod.mk.injEq] at hxy ⊢
      simp only [hxy, and_self]
    | cache line k =>
      refine h.update _ fun x y hxy => ?_
      simp only [engineMem, Prod.mk.injEq] at hxy ⊢
      simp only [hxy, and_self]
    | scalar k =>
      cases xs with
      | nil => exact h
      | cons e xs =>
        refine h.update _ fun x y hxy => ?_
        simp only [engineMem, Prod.mk.injEq] at hxy ⊢
        simp only [hxy, and_self]
    | desc i =>
      dsimp only
      rw [h.descOf]
      split
      · next t ht => exact h.writeElems (hop i t rfl ht) ..
      · exact h

end SameEngine

end Sys2Proof.Machine

namespace Sys2Proof.Machine

/-! ### How a vector operation issues (R197 to R205) -/

theorem Frame.scalarOperand {ws : List Area} {s t : State} (h : Frame ws s t) (hws : Area.dies ∉ ws) (d : DieIx) (g : Fin 2) (f : VFmt) (n : Nat)
    (op : VOp) : vPoison t d g f n op = vPoison s d g f n op := by
  unfold vPoison Machine.descPoison
  simp only [h.dieField hws Die.tilePoison fun _ => rfl, h.dieField hws Die.cachePoison fun _ => rfl, h.scalarBad hws, h.descPoison hws,
    show ∀ i, descOf t d i = descOf s d i from fun i => h.dieField hws (fun x => tblGet x.descs i) (fun _ => rfl) d]

theorem Frame.vRows {ws : List Area} {s t : State} (h : Frame ws s t) (hws : Area.dies ∉ ws) (d : DieIx) (ops : List VOp) (slots : List Nat) :
    vRows t d ops slots = vRows s d ops slots := by
  have hdesc : ∀ i, descOf t d i = descOf s d i := fun i => h.dieField hws (fun x => tblGet x.descs i) (fun _ => rfl) d
  induction ops generalizing slots with
  | nil => rfl
  | cons op ops ih =>
    cases op with
    | desc i => simp only [Machine.vRows, hdesc, h.ringOf hws, ih]
    | tile z => simp only [Machine.vRows, ih]
    | cache line k => simp only [Machine.vRows, ih]
    | scalar k => simp only [Machine.vRows, ih]

section Vec

variable {s : State} {a : Site} {j : Job} {v : VecOp} {slots : List Nat} {es : List SbEntry} {m : Nat}
  {run : Job → List Nat → State → State × Nat × Option Nat}

/-- The rings that the sources of a vector operation take slots of. -/
def vecRings (s : State) (d : DieIx) (v : VecOp) : List (Nat × Bool) := descRings s d (vDescs (v.srcs.map (·.1)))

/-- The rows of the sources' slots. -/
def vecRows (s : State) (d : DieIx) (v : VecOp) (slots : List Nat) : List Nat := vRows s d (v.srcs.map (·.1)) slots

/-- The part once a vector operation has its place on the scoreboard and its slots: its stalls are counted, its claims made. -/
def vecBefore (s : State) (d : DieIx) (v : VecOp) (m : Nat) : State := claimTakes d (vecRings s d v) (count d 2 m s)

/-- The operation: `u` is the part at its issue, `t` what its run left. -/
def vecStarted (s u t : State) (a : Site) (j : Job) (v : VecOp) (slots : List Nat) (extra : Nat) : Op :=
  { opZero 0 j.id a.queue a.off 4 with
    dests := vDests s a.die v.eng v.dfmt v.outN v.dst, srcs := descDests t a.die (vDescs (v.srcs.map (·.1)))
    takes := takeClaims (vecRings s a.die v) slots, scalars := vScalars [v.dst], cost := vecCost u a.die v extra }

theorem vecBefore_read (s : State) (d : DieIx) (v : VecOp) (m : Nat) : SameRead s (vecBefore s d v m) :=
  (SameRead.of_frame (count_frame d 2 m s) (by decide)).trans (.claimTakes ..)

theorem vecBefore_engine (s : State) (d : DieIx) (v : VecOp) (m : Nat) : SameEngine d s (vecBefore s d v m) :=
  (SameEngine.of_frame (count_frame d 2 m s) (by decide)).trans (.claimTakes ..)

theorem vecBefore_frame (s : State) (d : DieIx) (v : VecOp) (m : Nat) : Frame [.counters, .dies] s (vecBefore s d v m) :=
  (count_frame d 2 m s).then (claimTakes_frame _ _ _)

theorem vecBefore_poised (s : State) (a : Site) (j : Job) (v : VecOp) (m : Nat) : Poised a j s (vecBefore s a.die v m) :=
  (Poised.count ..).trans (claimTakes_poised ..)

theorem vecBefore_rest (s : State) (d : DieIx) (v : VecOp) (m : Nat) : vecRest (dieOf (vecBefore s d v m) d) = vecRest (dieOf s d) := by
  rw [vecBefore, dieOf_claimTakes]
  exact (count_frame d 2 m s).dieField (by decide) vecRest (fun _ => rfl) d

theorem vecBefore_rings (s : State) (d : DieIx) (v : VecOp) (m : Nat) :
    (dieOf (vecBefore s d v m) d).rings = takenRings (vecRings s d v) (dieOf s d).rings := by
  rw [vecBefore, dieOf_claimTakes]
  exact congrArg (takenRings _) ((count_frame d 2 m s).dieField (by decide) Die.rings (fun _ => rfl) d)

/-- A vector operation may issue: its operands, and what its instruction asks for besides. -/
structure VecPasses (s : State) (a : Site) (v : VecOp) : Prop where
  form : v.form = .pass
  late : v.late = .pass
  free : scalarBusy s a.die (vScalars (v.srcs.map (·.1)) ++ v.extraScalars) = false
  sound : scalarBad s a.die v.extraScalars = false

/-- How the step of an operation ends that issues at `u`, after a run that wrote `t`, took some longer, and may have saturated. -/
def vecEnd (s u : State) (a : Site) (j : Job) (v : VecOp) (slots : List Nat) (es : List SbEntry) (t : State) (extra : Nat) : Option Nat → State
  | some i => saturate j a 4 (vDests s a.die v.eng v.dfmt v.outN v.dst) (takeClaims (vecRings s a.die v) slots) i t
  | none => startOp a.die (vecStarted s u t a j v slots extra) es t

theorem VecReady.verdicts (h : VecReady s a j v.eng v.n v.srcs v.dst v.dfmt v.outN v.any slots es) (hp : VecPasses s a v) :
    firstFail ([failIf (!(engineHere s a.die 3)) (.skip 0x0103)] ++
      v.srcs.map (fun o => vOperand s a.die o.2 v.any false o.1) ++ [vOperand s a.die v.dfmt v.any true v.dst] ++
      v.srcs.map (fun o => vCount s a.die o.2 v.n false o.1) ++ [vCount s a.die v.dfmt v.outN true v.dst] ++
      [failIf (decide (65536 < v.n ∨ (4096 < v.n ∧ isTile v.dst))) (.skip 0x0105), .pass, v.form]) = .pass := by
  have hcount : ¬(65536 < v.n ∨ (4096 < v.n ∧ isTile v.dst = true)) := by
    rintro (hn | ⟨hn, htile⟩)
    · exact absurd h.count.1 (Nat.not_le.mpr hn)
    · cases hdst : v.dst with
      | tile z => exact absurd (h.count.2 ⟨z, hdst⟩) (Nat.not_le.mpr hn)
      | _ => rw [hdst] at htile; cases htile
  rw [h.present, h.place.1, h.place.2, hp.form, decide_eq_false hcount]
  refine firstFail_pass fun w hw => ?_
  simp only [List.mem_append, List.mem_map, List.mem_cons, List.not_mem_nil, or_false] at hw
  rcases hw with ((((rfl | ⟨o, ho, rfl⟩) | rfl) | ⟨o, ho, rfl⟩) | rfl) | rfl | rfl | rfl
  · rfl
  · exact (h.sources o ho).1
  · rfl
  · exact (h.sources o ho).2.1
  · rfl
  · rfl
  · rfl
  · rfl

/-- The step up to where the operation runs. -/
theorem issueVec_run (hready : VecReady s a j v.eng v.n v.srcs v.dst v.dfmt v.outN v.any slots es) (hp : VecPasses s a v)
    (hadmit : sbAdmit s a.die (descRanges s a.die false (vDescs (v.srcs.map (·.1))) ++ descRanges s a.die true (vDescs [v.dst])) = some (es, m))
    {t : State} {extra : Nat} {sat : Option Nat} (hrun : run j (vecRows s a.die v slots) (vecBefore s a.die v m) = (t, extra, sat)) :
    issueVec a v run j s = .done (vecEnd s (count a.die 2 m s) a j v slots es t extra sat) := by
  have hcount := count_frame a.die 2 m s
  have hpoison : firstFail (v.srcs.map (fun o => vPoison (count a.die 2 m s) a.die v.eng o.2 v.n o.1) ++
      [failIf (scalarBad (count a.die 2 m s) a.die v.extraScalars) (.refuse 0x0107 0x0107), v.late]) = .pass := by
    rw [hcount.scalarBad (by decide), hp.sound, hp.late]
    refine firstFail_pass fun w hw => ?_
    simp only [List.mem_append, List.mem_map, List.mem_cons, List.not_mem_nil, or_false] at hw
    rcases hw with ⟨o, ho, rfl⟩ | rfl | rfl
    · rw [hcount.scalarOperand (by decide)]
      exact (hready.sources o ho).2.2
    · rfl
    · rfl
  have hrows : vRows (count a.die 2 m s) a.die (v.srcs.map (·.1)) slots = vecRows s a.die v slots := by
    rw [hcount.vRows (by decide), vecRows]
  unfold issueVec
  dsimp only
  rw [hready.rings, hready.filled, hready.verdicts hp, hp.free, if_neg (by decide), if_neg (by decide)]
  change withScoreboard a.die _ s _ = _
  rw [withScoreboard_admitted hready.ready.fresh hadmit]
  rw [hpoison, if_neg (by decide), hrows]
  unfold vecBefore vecRings at hrun
  rw [hrun]
  cases sat <;> rfl

/-- The operation goes in flight. -/
theorem vecEnd_flight {u t : State} (h : Poised a j s t) (extra : Nat) :
    ∃ o, InFlight a j 4 es o s (vecEnd s u a j v slots es t extra none) ∧ o.scalars = vScalars [v.dst] :=
  ⟨_, h.startOp (o := vecStarted s u t a j v slots extra) es rfl rfl rfl, rfl⟩

theorem vecEnd_frame (u t : State) (extra : Nat) : Frame [.dies, .jobs, .nextId] t (vecEnd s u a j v slots es t extra none) :=
  startOp_frame _ _ _ _

theorem vecEnd_field (u t : State) (extra : Nat) {β : Type} (g : Die → β) (hg : ∀ (x : Die) p q, g { x with ops := p, scoreboard := q } = g x) :
    g (dieOf (vecEnd s u a j v slots es t extra none) a.die) = g (dieOf t a.die) :=
  startOp_dieField a.die _ es t g hg

theorem vecEnd_engine (u t : State) (extra : Nat) : SameEngine a.die t (vecEnd s u a j v slots es t extra none) :=
  vecEnd_field u t extra engineMem fun _ _ _ => rfl

theorem vecBefore_writable (hready : VecReady s a j v.eng v.n v.srcs v.dst v.dfmt v.outN v.any slots es) (m : Nat) :
    Writable (vecBefore s a.die v m) a.die v.dst := fun i t hi ht =>
  writable_of_vOperand hready.place.1 i t hi ((vecBefore_read s a.die v m).descOf .. ▸ ht)

/-- A run that only writes to the destination of its operation. -/
theorem issueVec_done (hready : VecReady s a j v.eng v.n v.srcs v.dst v.dfmt v.outN v.any slots es) (hp : VecPasses s a v) {out : List (Nat × Nat)}
    {extra : Nat} (hrun : ∀ m, run j (vecRows s a.die v slots) (vecBefore s a.die v m) =
      (vWrite a.die v.eng v.dfmt out v.dst (vecBefore s a.die v m), extra, none)) :
    ∃ t, issueVec a v run j s = .done t ∧ VecDone a j v.eng v.srcs v.dst v.dfmt out es s t := by
  obtain ⟨m, hadmit⟩ := hready.admitted
  have hwrites := vWrite_writes (vecBefore_writable hready m) v.eng v.dfmt out
  have hsame := (vecBefore_engine s a.die v m).vWrite (writable_of_vOperand hready.place.1) v.eng v.dfmt out
  refine ⟨_, issueVec_run hready hp hadmit (hrun m), ?_,
    vecEnd_flight ((vecBefore_poised ..).trans hwrites.poised) _, fun r => ?_, ?_, 
    (Frame.then (Frame.then (vecBefore_frame s a.die v m) hwrites.frame) (vecEnd_frame _ _ _)).mono ?_⟩
  · exact (hsame.trans (vecEnd_engine ..)).parts.1
  · rw [ringOf, vecEnd_field _ _ _ Die.rings fun _ _ _ => rfl, hwrites.field Die.rings fun _ => rfl, vecBefore_rings, tblGetD_takenRings]
    rfl
  · rw [vecEnd_field _ _ _ vecRest fun _ _ _ => rfl, hwrites.field vecRest fun _ => rfl, vecBefore_rest]
  · decide

end Vec

/-! #### Elements of the sources (R198) -/

section Sources

variable {s : State} {a : Site} {j : Job} {v : VecOp} {slots : List Nat} {es : List SbEntry}

theorem vRows_length (s : State) (d : DieIx) (ops : List VOp) (slots : List Nat) : (vRows s d ops slots).length = ops.length := by
  induction ops generalizing slots with
  | nil => rfl
  | cons op ops ih =>
    cases op with
    | desc i =>
      simp only [vRows]
      split
      · split <;> simp [ih]
      · simp [ih]
    | tile z => simp [vRows, ih]
    | cache line k => simp [vRows, ih]
    | scalar k => simp [vRows, ih]

/-- The source lists that a run sees are those of O26. -/
theorem vSources_before (m : Nat) : vSources (vecBefore s a.die v m) a.die v (vecRows s a.die v slots) =
    (List.range v.srcs.length).map (vecIn s a v.eng v.n v.srcs slots) := by
  have hlen : (vecRows s a.die v slots).length = v.srcs.length := by rw [vecRows, vRows_length, List.length_map]
  refine List.ext_getElem (by simp [vSources, hlen]) fun i hi hi' => ?_
  have hsrc : i < v.srcs.length := by simpa using hi'
  simp only [vSources, List.getElem_map, List.getElem_zip, List.getElem_range, vecIn, List.getElem?_eq_getElem hsrc]
  rw [(vecBefore_read s a.die v m).vRead, ← vecRows, List.getD_eq_getElem _ _ (hlen ▸ hsrc)]

/-- A plain operation: its result is a function of the source elements. -/
theorem plain_done (hready : VecReady s a j v.eng v.n v.srcs v.dst v.dfmt v.outN v.any slots es) (hp : VecPasses s a v) (f : List (List Nat) → List Nat)
    (i : Instr) : ∃ t, ok (runInstr a i (issueVec a v (runPlain a v f)) s) = .next t ∧ VecDone a j v.eng v.srcs v.dst v.dfmt
      ((f ((List.range v.srcs.length).map (vecIn s a v.eng v.n v.srcs slots))).zipIdx.map fun x => (x.2, x.1)) es s t := by
  obtain ⟨t, hissue, hdone⟩ := issueVec_done hready hp (extra := 0) (run := runPlain a v f) fun m => by rw [runPlain, vSources_before]
  exact ⟨t, congrArg ok (runInstr_done hready.ready hissue), hdone⟩

end Sources

end Sys2Proof.Machine

namespace Sys2Proof.Machine

/-! ### O26: elementwise operations (R200, R201) -/

theorem zipIdx_pz (l : List Nat) : ((l.map pz).zipIdx.map fun x => (x.2, x.1)) = l.zipIdx.map fun x => (x.2, pz x.1) := by
  simp [List.zipIdx_map]

section Elementwise

variable {s : State} {a : Site} {j : Job} {g : Fin 2} {n : Nat} {x y z dst : VOp} {slots : List Nat} {es : List SbEntry}

/-- An elementwise operation asks for nothing but its operands. -/
theorem elemOp_passes {srcs : List VOp} {k : Nat} (hfree : scalarBusy s a.die (vScalars srcs) = false) : VecPasses s a (elemOp g n srcs dst k) where
  form := rfl
  late := rfl
  free := by
    have hops : (elemOp g n srcs dst k).srcs.map (·.1) = srcs := by simp [elemOp, Function.comp_def]
    rw [hops]
    exact (congrArg (scalarBusy s a.die) (List.append_nil _)).trans hfree
  sound := List.any_eq_false.mpr fun _ _ => Bool.false_ne_true

/-- What an elementwise operation leaves. -/
def ElementwiseDone (s : State) (a : Site) (j : Job) (g : Fin 2) (dst : VOp) (es : List SbEntry) (srcs : List (VOp × VFmt)) (out : List Nat)
    (t : State) : Prop :=
  VecDone a j g srcs dst .fp32 (out.zipIdx.map fun x => (x.2, pz x.1)) es s t

theorem vec1_done (hready : VecReady s a j g n [(x, .fp32)] dst .fp32 n false slots es) (i : Instr) (k : Nat) (f : Nat → Nat) :
    ∃ t, ok (vec1 a i g n k x dst f s) = .next t ∧
      ElementwiseDone s a j g dst es [(x, .fp32)] ((vecIn s a g n [(x, .fp32)] slots 0).map f) t := by
  obtain ⟨t, hexec, hdone⟩ := plain_done (v := elemOp g n [x] dst (k * groups64 n)) hready (elemOp_passes hready.registers) (map1 f) i
  refine ⟨t, hexec, ?_⟩
  rw [ElementwiseDone, ← zipIdx_pz, List.map_map]
  exact hdone

theorem vec2_done (hready : VecReady s a j g n [(x, .fp32), (y, .fp32)] dst .fp32 n false slots es) (i : Instr) (f : Nat → Nat → Nat) :
    ∃ t, ok (vec2 a i g n x y dst f s) = .next t ∧
      ElementwiseDone s a j g dst es [(x, .fp32), (y, .fp32)] (List.zipWith f (vecIn s a g n [(x, .fp32), (y, .fp32)] slots 0)
        (vecIn s a g n [(x, .fp32), (y, .fp32)] slots 1)) t := by
  obtain ⟨t, hexec, hdone⟩ := plain_done (v := elemOp g n [x, y] dst (groups64 n)) hready (elemOp_passes hready.registers) (map2 f) i
  refine ⟨t, hexec, ?_⟩
  rw [ElementwiseDone, ← zipIdx_pz, List.map_zipWith]
  exact hdone

theorem vec3_done (hready : VecReady s a j g n [(x, .fp32), (y, .fp32), (z, .fp32)] dst .fp32 n false slots es) (i : Instr) (f : Nat → Nat → Nat → Nat) :
    ∃ t, ok (vec3 a i g n x y z dst f s) = .next t ∧
      ElementwiseDone s a j g dst es [(x, .fp32), (y, .fp32), (z, .fp32)] (List.zipWith (fun v w => f v w.1 w.2)
        (vecIn s a g n [(x, .fp32), (y, .fp32), (z, .fp32)] slots 0) ((vecIn s a g n [(x, .fp32), (y, .fp32), (z, .fp32)] slots 1).zip
          (vecIn s a g n [(x, .fp32), (y, .fp32), (z, .fp32)] slots 2))) t := by
  obtain ⟨t, hexec, hdone⟩ := plain_done (v := elemOp g n [x, y, z] dst (groups64 n)) hready (elemOp_passes hready.registers) (map3 f) i
  refine ⟨t, hexec, ?_⟩
  rw [ElementwiseDone, ← zipIdx_pz, List.map_zipWith]
  exact hdone

end Elementwise

/-- Settles O26: an elementwise operation writes the function of the source elements at each position. -/
theorem vectorElementwise : Obligations.VectorElementwise := by
  intro s a j g n dst slots es done
  refine ⟨fun x => ?_, fun x y => ?_, fun x y z => ?_⟩
  · intro srcs hready xs
    exact ⟨vec1_done hready _ 1 fabs, vec1_done hready _ 1 fneg, vec1_done hready _ 4 frecip, vec1_done hready _ 4 frsqrt,
      vec1_done hready _ 4 fsqrt, vec1_done hready _ 4 fexp2, vec1_done hready _ 4 flog2⟩
  · intro srcs hready xs ys
    exact ⟨vec2_done hready _ fadd, vec2_done hready _ fsub, vec2_done hready _ fmul, vec2_done hready _ fmin, vec2_done hready _ fmax,
      fun r => vec2_done hready _ fun v w => if relHolds r v w then f32One else 0⟩
  · intro srcs hready xs ys zs
    exact ⟨vec3_done hready _ ffma, vec3_done hready _ fun c v w => if (f32 c).isZero then w else v⟩

end Sys2Proof.Machine

namespace Sys2Proof.Machine

/-! ### O27: reductions, sorts and movement (R190, R191, R201, R203) -/

/-! #### The total order of R191 -/

/-- The place of a value in the total order of R191: −Inf, the finite values, +Inf, NaN. -/
def FV.place : FV → ℤ ×ₗ ℚ
  | .nan => toLex (2, 0)
  | .inf neg => toLex (if neg then -1 else 1, 0)
  | .fin neg m e => toLex (0, (sgn neg m : ℚ) * 2 ^ e)

/-- A finite value, as a multiple of a smaller power of 2. -/
theorem sgn_scaled (neg : Bool) (m : Nat) {e q : ℤ} (h : q ≤ e) : (sgn neg m : ℚ) * 2 ^ e = (sgn neg (m * 2 ^ (e - q).toNat) : ℚ) * 2 ^ q := by
  have hpow : (2 : ℚ) ^ e = (2 : ℚ) ^ (e - q).toNat * 2 ^ q := by
    rw [← zpow_natCast, ← zpow_add₀ (by norm_num), Int.toNat_of_nonneg (by omega)]
    congr 1
    omega
  rw [hpow]
  cases neg <;> simp [sgn] <;> ring

theorem FV.cmp_spec (x y : FV) : (x.cmp y < 0 ↔ x.place < y.place) ∧ (x.cmp y = 0 ↔ x.place = y.place) := by
  cases x with
  | nan => cases y with
    | nan => simp [cmp, place]
    | inf b => cases b <;> simp [cmp, place, Prod.Lex.toLex_lt_toLex]
    | fin b n g => simp [cmp, place, Prod.Lex.toLex_lt_toLex]
  | inf a => cases y with
    | nan => cases a <;> simp [cmp, place, Prod.Lex.toLex_lt_toLex]
    | inf b => cases a <;> cases b <;> simp [cmp, place, Prod.Lex.toLex_lt_toLex]
    | fin b n g => cases a <;> simp [cmp, place, Prod.Lex.toLex_lt_toLex]
  | fin a m e => cases y with
    | nan => simp [cmp, place, Prod.Lex.toLex_lt_toLex]
    | inf b => cases b <;> simp [cmp, place, Prod.Lex.toLex_lt_toLex]
    | fin b n g =>
      have hpos : (0 : ℚ) < 2 ^ (min e g) := by positivity
      simp only [cmp, place, Prod.Lex.toLex_lt_toLex, lt_self_iff_false, true_and, false_or, EmbeddingLike.apply_eq_iff_eq, Prod.mk.injEq,
        sgn_scaled a m (min_le_left e g), sgn_scaled b n (min_le_right e g), mul_lt_mul_iff_of_pos_right hpos, mul_left_inj' hpos.ne', Int.cast_lt, Int.cast_inj]
      generalize sgn a _ = p
      generalize sgn b _ = q
      rcases lt_trichotomy p q with h | rfl | h
      · simp [h, h.ne]
      · simp
      · simp [h.not_gt, h.ne', sub_eq_zero]


theorem FV.cmp_lt_iff (x y : FV) : x.cmp y < 0 ↔ x.place < y.place := (x.cmp_spec y).1

theorem FV.cmp_eq_iff (x y : FV) : x.cmp y = 0 ↔ x.place = y.place := (x.cmp_spec y).2

/-! #### Stable sorts (R191) -/

/-- An element comes before another in a stable sort: it is smaller, or equal and stood before. -/
def SortsBefore (e f : Nat × Nat) : Prop := (f32 e.1).cmp (f32 f.1) < 0 ∨ ((f32 e.1).cmp (f32 f.1) = 0 ∧ e.2 < f.2)

theorem sortsBefore_iff (e f : Nat × Nat) :
    SortsBefore e f ↔ (f32 e.1).place < (f32 f.1).place ∨ ((f32 e.1).place = (f32 f.1).place ∧ e.2 < f.2) := by
  rw [SortsBefore, FV.cmp_lt_iff, FV.cmp_eq_iff]

theorem SortsBefore.place_le {e f : Nat × Nat} (h : SortsBefore e f) : (f32 e.1).place ≤ (f32 f.1).place := by
  rcases (sortsBefore_iff e f).mp h with hlt | ⟨heq, -⟩
  · exact hlt.le
  · exact heq.le

theorem sortInsert_perm (x : Nat × Nat) (l : List (Nat × Nat)) : (sortInsert x l).Perm (x :: l) := by
  induction l with
  | nil => rfl
  | cons y l ih =>
    rw [sortInsert]
    split
    · rfl
    · exact (ih.cons y).trans (.swap x y l)

/-- An element that stood after all those in a sorted list is inserted at its place. -/
theorem sortInsert_sorted {x : Nat × Nat} {l : List (Nat × Nat)} (hl : l.Pairwise SortsBefore) (hlast : ∀ y ∈ l, y.2 < x.2) :
    (sortInsert x l).Pairwise SortsBefore := by
  induction l with
  | nil => exact List.pairwise_singleton ..
  | cons y l ih =>
    obtain ⟨hy, hl⟩ := List.pairwise_cons.mp hl
    rw [sortInsert]
    split
    · next hlt =>
      have hless := (FV.cmp_lt_iff _ _).mp hlt
      refine List.pairwise_cons.mpr ⟨fun z hz => (sortsBefore_iff x z).mpr (.inl ?_), List.pairwise_cons.mpr ⟨hy, hl⟩⟩
      rcases List.mem_cons.mp hz with rfl | hz
      · exact hless
      · exact hless.trans_le (hy z hz).place_le
    · next hge =>
      have hle := not_lt.mp (hge ∘ (FV.cmp_lt_iff _ _).mpr)
      refine List.pairwise_cons.mpr ⟨fun z hz => ?_, ih hl fun z hz => hlast z (List.mem_cons_of_mem _ hz)⟩
      rcases List.mem_cons.mp ((sortInsert_perm x l).mem_iff.mp hz) with rfl | hz
      · exact (sortsBefore_iff y z).mpr (hle.lt_or_eq.imp_right fun h => ⟨h, hlast y (List.mem_cons_self ..)⟩)
      · exact hy z hz

/-- A stable sort of elements from position `k` on into a sorted list of earlier ones. -/
theorem sortInto_spec (xs : List Nat) (k : Nat) {l : List (Nat × Nat)} (hl : l.Pairwise SortsBefore) (hearlier : ∀ y ∈ l, y.2 < k) :
    ((xs.zipIdx k).foldl (fun l x => sortInsert x l) l).Perm (l ++ xs.zipIdx k) ∧
      ((xs.zipIdx k).foldl (fun l x => sortInsert x l) l).Pairwise SortsBefore := by
  induction xs generalizing k l with
  | nil => simpa using hl
  | cons x xs ih =>
    have hin : ∀ y ∈ sortInsert (x, k) l, y.2 < k + 1 := fun y hy => by
      rcases List.mem_cons.mp ((sortInsert_perm (x, k) l).mem_iff.mp hy) with rfl | hy
      · exact Nat.lt_succ_self k
      · exact Nat.lt_succ_of_lt (hearlier y hy)
    obtain ⟨hperm, hsorted⟩ := ih (k + 1) (sortInsert_sorted hl hearlier) hin
    rw [List.zipIdx_cons, List.foldl_cons]
    exact ⟨hperm.trans (((sortInsert_perm (x, k) l).append_right _).trans List.perm_middle.symm), hsorted⟩

theorem sortKeys_spec (xs : List Nat) : (sortKeys xs).Perm xs.zipIdx ∧ (sortKeys xs).Pairwise SortsBefore :=
  sortInto_spec xs 0 .nil fun _ h => absurd h List.not_mem_nil

end Sys2Proof.Machine

namespace Sys2Proof.Machine

section Moves

variable {s : State} {a : Site} {j : Job} {g : Fin 2} {n : Nat} {x dst : VOp} {slots : List Nat} {es : List SbEntry}

/-- An operation that reads no register besides its operands may issue once its form is right. -/
theorem vecPasses {v : VecOp} (hform : v.form = .pass) (hlate : v.late = .pass) (hextra : v.extraScalars = [])
    (hfree : scalarBusy s a.die (vScalars (v.srcs.map (·.1))) = false) : VecPasses s a v where
  form := hform
  late := hlate
  free := by rw [hextra, List.append_nil, hfree]
  sound := by
    rw [hextra]
    exact List.any_eq_false.mpr fun _ _ => Bool.false_ne_true

/-- A plain operation on one source. -/
theorem plain1_done {v : VecOp} (hready : VecReady s a j v.eng v.n v.srcs v.dst v.dfmt v.outN v.any slots es) (hp : VecPasses s a v)
    (hone : v.srcs.length = 1) (f : List Nat → List Nat) (i : Instr) :
    ∃ t, ok (runInstr a i (issueVec a v (runPlain a v fun l => f (l.getD 0 []))) s) = .next t ∧ VecDone a j v.eng v.srcs v.dst v.dfmt
      ((f (vecIn s a v.eng v.n v.srcs slots 0)).zipIdx.map fun x => (x.2, x.1)) es s t := by
  have hdone := plain_done hready hp (fun l => f (l.getD 0 [])) i
  rwa [hone] at hdone

/-- Elements written from position 0 up. -/
def inOrder (l : List Nat) : List (Nat × Nat) := l.zipIdx.map fun e => (e.2, e.1)

theorem vecRed_done {form : RedForm} (hform : form = .all ∨ ∃ z, x = .tile z) {f : VFmt}
    (hready : VecReady s a j g n [(x, .fp32)] dst f (if form = .all then 1 else 64) false slots es) (i : Instr) (red : RedForm → List Nat → Nat) :
    ∃ t, ok (vecRed a i g n form x dst f red s) = .next t ∧
      VecDone a j g [(x, .fp32)] dst f (inOrder ((redGroups form (vecIn s a g n [(x, .fp32)] slots 0)).map (red form))) es s t := by
  have hpass : failIf (form != .all && !isTile x) (.skip 0x0102) = .pass := by
    rcases hform with rfl | ⟨z, rfl⟩
    · rfl
    · rw [isTile, Bool.not_true, Bool.and_false]
      rfl
  exact plain1_done (v := { elemOp g n [x] dst (if form = .all then groups64 n + 12 else 76) with
    dfmt := f, outN := if form = .all then 1 else 64, form := failIf (form != .all && !isTile x) (.skip 0x0102) }) hready
    (vecPasses hpass rfl rfl hready.registers) rfl (fun l => (redGroups form l).map (red form)) i

/-- An operand is a scalar register. -/
def scalarOperand (o : VOp) : Bool :=
  match o with
  | .scalar _ => true
  | _ => false

theorem scalarOperand_eq_false {o : VOp} (h : ∀ sc, o ≠ .scalar sc) : scalarOperand o = false := by
  cases o with
  | scalar sc => exact absurd rfl (h sc)
  | _ => rfl

/-- Where an element of a movement goes. -/
def movePlace (transpose : Bool) (k : Nat) : Nat := if transpose then k % 64 * 64 + k / 64 else k

theorem vecMove_done {f : VFmt} (hregs : ∀ sc, x ≠ .scalar sc ∧ dst ≠ .scalar sc) (hfmt : moveFmt s a.die [x, dst] = f)
    (hready : VecReady s a j g n [(x, f)] dst f n false slots es) {transpose : Bool} (htile : transpose = true → isTile dst = true) (i : Instr) :
    ∃ t, ok (vecMove a i g n transpose x dst s) = .next t ∧
      VecDone a j g [(x, f)] dst f ((vecIn s a g n [(x, f)] slots 0).zipIdx.map fun e => (movePlace transpose e.2, e.1)) es s t := by
  subst hfmt
  have hform : failIf (scalarOperand x || scalarOperand dst || (transpose && !isTile dst)) (.skip 0x0102) = .pass := by
    have hmoves : (transpose && !isTile dst) = false := by
      cases transpose with
      | false => rfl
      | true => rw [htile rfl]; rfl
    rw [scalarOperand_eq_false fun sc => (hregs sc).1, scalarOperand_eq_false fun sc => (hregs sc).2, hmoves]
    rfl
  obtain ⟨t, hissue, hdone⟩ := issueVec_done (v := { elemOp g n [x] dst (groups64 n) with
      srcs := [(x, moveFmt s a.die [x, dst])], dfmt := moveFmt s a.die [x, dst]
      form := failIf (scalarOperand x || scalarOperand dst || (transpose && !isTile dst)) (.skip 0x0102) }) hready
    (vecPasses hform rfl rfl hready.registers) (extra := 0)
    (out := (vecIn s a g n [(x, moveFmt s a.die [x, dst])] slots 0).zipIdx.map fun e => (movePlace transpose e.2, e.1))
    (run := fun _ rows u => (vWrite a.die g (moveFmt s a.die [x, dst]) (((vSources u a.die _ rows).getD 0 []).zipIdx.map fun e =>
      (movePlace transpose e.2, e.1)) dst u, 0, none)) fun m => by rw [vSources_before]; rfl
  exact ⟨t, congrArg ok (runInstr_done hready.ready hissue), hdone⟩

/-- The operation of FIX. -/
def fixOp (g : Fin 2) (n k : Nat) (x dst : VOp) : VecOp :=
  { elemOp g n [x] dst (2 * groups64 n) with dfmt := .i64, form := failIf (decide (62 < k)) (.skip 0x0102) }

/-- The run of FIX. -/
def runFix (a : Site) (g : Fin 2) (n k : Nat) (x dst : VOp) (j : Job) (rows : List Nat) (u : State) : State × Nat × Option Nat :=
  let xs := (vSources u a.die (fixOp g n k x dst) rows).getD 0 []
  (countNans j a 4 (xs.countP fun x => (f32 x).isNan) (vWrite a.die g .i64 (xs.zipIdx.map fun x => (x.2, fixOf k x.1)) dst u), 0, none)

theorem fixOp_passes {k : Nat} (hk : k ≤ 62) (hfree : scalarBusy s a.die (vScalars [x]) = false) : VecPasses s a (fixOp g n k x dst) := by
  have hform : failIf (decide (62 < k)) (.skip 0x0102) = .pass := by
    rw [decide_eq_false (Nat.not_lt.mpr hk)]
    rfl
  exact vecPasses hform rfl rfl hfree

theorem runFix_eq (k m : Nat) : runFix a g n k x dst j (vecRows s a.die (fixOp g n k x dst) slots) (vecBefore s a.die (fixOp g n k x dst) m) =
    (countNans j a 4 ((vecIn s a g n [(x, .fp32)] slots 0).countP fun x => (f32 x).isNan)
      (vWrite a.die g .i64 (inOrder ((vecIn s a g n [(x, .fp32)] slots 0).map (fixOf k))) dst (vecBefore s a.die (fixOp g n k x dst) m)), 0, none) := by
  have hout : ∀ l : List Nat, (l.zipIdx.map fun e => (e.2, fixOf k e.1)) = inOrder (l.map (fixOf k)) := fun l => by
    simp [inOrder, List.zipIdx_map]
  unfold runFix
  dsimp only
  rw [vSources_before, hout]
  rfl

theorem fix_done {k : Nat} (hk : k ≤ 62) (hready : VecReady s a j g n [(x, .fp32)] dst .i64 n false slots es)
    (hnans : ((vecIn s a g n [(x, .fp32)] slots 0).countP fun x => (f32 x).isNan) = 0) :
    ∃ t, exec (.fix a g n k x dst) s = .next t ∧
      VecDone a j g [(x, .fp32)] dst .i64 (inOrder ((vecIn s a g n [(x, .fp32)] slots 0).map (fixOf k))) es s t := by
  obtain ⟨t, hissue, hdone⟩ := issueVec_done (v := fixOp g n k x dst) hready (fixOp_passes hk hready.registers) (extra := 0)
    (out := inOrder ((vecIn s a g n [(x, .fp32)] slots 0).map (fixOf k))) (run := runFix a g n k x dst) fun m => by
      rw [runFix_eq, hnans]
      rfl
  exact ⟨t, congrArg ok (runInstr_done hready.ready hissue), hdone⟩

/-- The queue that counts NaNs. -/
def addNans (k : Nat) (q : Queue) : Queue := { q with nanCount := Nat.min (q.nanCount + k) 0xFFFFFFFF }

/-- What counting NaNs changes (R183). -/
theorem countNans_spec {k : Nat} (hk : k ≠ 0) (u : State) :
    Logged 0x0A04 (evJob j a 4 0 false) u (countNans j a 4 k u) ∧ SameEngine a.die u (countNans j a 4 k u) ∧
      Poised a j u (countNans j a 4 k u) ∧ (dieOf (countNans j a 4 k u) a.die).queues =
        (dieOf u a.die).queues.set a.queue.val (addNans k (dieOf u a.die).queues[a.queue.val]) ∧
      { vecRest (dieOf (countNans j a 4 k u) a.die) with queues := (dieOf u a.die).queues } = vecRest (dieOf u a.die) ∧
      Frame (logAreas ++ [.dies, .jobs]) u (countNans j a 4 k u) := by
  have hnans : countNans j a 4 k u = logJob 0x0A04 j a 4 0 false (updQueue a.die a.queue (addNans k) u) := if_neg hk
  have hqueue := updQueue_frame a.die a.queue (addNans k) u
  have hlog := logJob_frame 0x0A04 j a 4 0 false (updQueue a.die a.queue (addNans k) u)
  have hdie : dieOf (updQueue a.die a.queue (addNans k) u) a.die =
      { dieOf u a.die with queues := (dieOf u a.die).queues.set a.queue.val (addNans k (dieOf u a.die).queues[a.queue.val]) } := dieOf_updDie_self ..
  rw [hnans]
  refine ⟨(logJob_logged 0x0A04 j a 4 0 false _).between hqueue (Frame.refl [] _) (by decide) (by decide), ?_, ?_, ?_, ?_,
    (hqueue.then hlog).mono (by decide)⟩
  · rw [SameEngine, hlog.dieField (by decide) engineMem fun _ => rfl, hdie]
    rfl
  · exact (Poised.updDie _ u).trans (.logJob ..)
  · rw [hlog.dieField (by decide) Die.queues fun _ => rfl, hdie]
  · rw [hlog.dieField (by decide) vecRest fun _ => rfl, hdie]
    rfl

theorem fix_counted {k : Nat} (hk : k ≤ 62) (hready : VecReady s a j g n [(x, .fp32)] dst .i64 n false slots es) {nans : Nat} (hne : nans ≠ 0)
    (hnans : ((vecIn s a g n [(x, .fp32)] slots 0).countP fun x => (f32 x).isNan) = nans) :
    ∃ t o, exec (.fix a g n k x dst) s = .next t ∧
      VecMem a.die (vWrite a.die g .i64 (inOrder ((vecIn s a g n [(x, .fp32)] slots 0).map (fixOf k))) dst s) t ∧ InFlight a j 4 es o s t ∧
      Logged 0x0A04 (evJob j a 4 0 false) s t ∧ (dieOf t a.die).queues =
        (dieOf s a.die).queues.set a.queue.val (addNans nans (dieOf s a.die).queues[a.queue.val]) ∧
      { vecRest (dieOf t a.die) with queues := (dieOf s a.die).queues } = vecRest (dieOf s a.die) ∧
      Frame (logAreas ++ [.dies, .jobs, .nextId]) s t := by
  obtain ⟨m, hadmit⟩ := hready.admitted
  have hrun := runFix_eq (s := s) (a := a) (j := j) (g := g) (n := n) (x := x) (dst := dst) (slots := slots) k m
  have hissue := issueVec_run (v := fixOp g n k x dst) hready (fixOp_passes hk hready.registers) hadmit hrun
  rw [hnans] at hissue
  have hwrites := vWrite_writes (vecBefore_writable (v := fixOp g n k x dst) hready m) g .i64 (inOrder ((vecIn s a g n [(x, .fp32)] slots 0).map (fixOf k)))
  have hsame := (vecBefore_engine s a.die (fixOp g n k x dst) m).vWrite (writable_of_vOperand hready.place.1) g .i64
    (inOrder ((vecIn s a g n [(x, .fp32)] slots 0).map (fixOf k)))
  have hposed := vecBefore_poised s a j (fixOp g n k x dst) m
  have hframe := vecBefore_frame s a.die (fixOp g n k x dst) m
  have hrest := vecBefore_rest s a.die (fixOp g n k x dst) m
  change EngineWrites a.die _ (vWrite a.die g .i64 (inOrder ((vecIn s a g n [(x, .fp32)] slots 0).map (fixOf k))) dst _) at hwrites
  generalize vecBefore s a.die (fixOp g n k x dst) m = u at hissue hwrites hsame hposed hframe hrest
  generalize vWrite a.die g .i64 _ dst u = w at hissue hwrites hsame
  obtain ⟨hlogged, hengine, hcounted, hqueues, hothers, hcount⟩ := countNans_spec (a := a) (j := j) hne w
  have hbefore : Frame [.counters, .dies] s w := (hframe.then hwrites.frame).mono (by decide)
  obtain ⟨o, hflight, -⟩ := vecEnd_flight (v := fixOp g n k x dst) (u := count a.die 2 m s) (slots := slots) (es := es)
    ((hposed.trans hwrites.poised).trans hcounted) 0
  have hend := vecEnd_frame (s := s) (a := a) (j := j) (v := fixOp g n k x dst) (slots := slots) (es := es) (count a.die 2 m s) (countNans j a 4 nans w) 0
  have hvec : vecRest (dieOf w a.die) = vecRest (dieOf s a.die) := (hwrites.field vecRest fun _ => rfl).trans hrest
  have hsameQueues : (dieOf w a.die).queues = (dieOf s a.die).queues :=
    (hwrites.field Die.queues fun _ => rfl).trans (congrArg Die.queues hrest : (vecRest _).queues = (vecRest _).queues)
  refine ⟨_, o, congrArg ok (runInstr_done hready.ready hissue), ?_, hflight, ?_, ?_, ?_, ?_⟩
  · exact ((hsame.trans hengine).trans (vecEnd_engine ..)).parts.1
  · exact hlogged.between hbefore hend (by decide) (by decide)
  · rw [vecEnd_field _ _ _ Die.queues fun _ _ _ => rfl, hqueues, hsameQueues]
  · rw [vecEnd_field _ _ _ vecRest fun _ _ _ => rfl, ← hsameQueues, hothers, hvec]
  · exact ((hbefore.then hcount).then hend).mono (by decide)

end Moves

/-- Settles O27: a vector operation issues as its operands allow and writes what R190, R191, R201 and R203 give; the sort is stable by `sortKeys_spec`. -/
theorem vectorReductionsSortsAndMoves : Obligations.VectorReductionsSortsAndMoves := by
  refine ⟨fun s a j g n x dst slots es => ?_, sortKeys_spec⟩
  intro done plain fp xs
  refine ⟨fun form hform => ?_, fun hready => ?_, fun hready => ?_, fun f hregs hfmt hready => ?_, fun k hk hready => ?_, fun k hk hready => ?_⟩
  · intro m
    exact ⟨fun hready => ⟨vecRed_done hform hready _ _, vecRed_done hform hready _ _, vecRed_done hform hready _ _⟩,
      fun hready => vecRed_done hform hready _ _⟩
  · obtain ⟨t, hexec, hdone⟩ := plain1_done (v := elemOp g n [x] dst (sortCost n)) hready (elemOp_passes hready.registers) rfl
      (fun l => (sortKeys l).map fun x => pz x.1) (.sort a g n x dst)
    refine ⟨t, ?_, ?_⟩
    · exact hexec
    · exact hdone
  · obtain ⟨t, hexec, hdone⟩ := plain1_done (v := { elemOp g n [x] dst (sortCost n) with dfmt := .u32 }) hready (vecPasses rfl rfl rfl hready.registers) rfl
      (fun l => (sortKeys l).map (·.2)) (.argsort a g n x dst)
    refine ⟨t, ?_, ?_⟩
    · exact hexec
    · exact hdone
  · intro ys
    refine ⟨vecMove_done (transpose := false) hregs hfmt hready nofun _, vecMove_done (transpose := false) hregs hfmt hready nofun _, fun z hz => ?_⟩
    exact vecMove_done (transpose := true) hregs hfmt hready (fun _ => by rw [hz]; rfl) _
  · have hpass : failIf (decide (62 < k)) (.skip 0x0102) = .pass := by
      rw [decide_eq_false (Nat.not_lt.mpr hk)]
      rfl
    exact plain1_done (v := { elemOp g n [x] dst (2 * groups64 n) with srcs := [(x, .i64)], form := failIf (decide (62 < k)) (.skip 0x0102) }) hready
      (vecPasses hpass rfl rfl hready.registers) rfl (List.map (fltOf k)) (.flt a g n k x dst)
  · intro nans
    refine ⟨fun hzero => fix_done hk hready hzero, fun hne => ?_⟩
    obtain ⟨t, o, hexec, hmem, hflight, hlogged, hqueues, hrest, hframe⟩ := fix_counted hk hready hne rfl
    refine ⟨t, o, hexec, hmem, hflight, hlogged, ?_, fun q hq => ?_, hrest, hframe⟩
    · simp [queueOf, hqueues, addNans]
    · have hne : a.queue.val ≠ q.val := fun h => hq (Fin.ext h.symm)
      simp [queueOf, hqueues, hne]

end Sys2Proof.Machine

namespace Sys2Proof.Machine

/-! ### O28: conversions and products (R176, R179 to R188, R192, R195) -/

/-! #### A conversion that saturates (R182) -/

theorem saturate_breached {s u : State} {j : Job} (hjob : StillNames j u) (a : Site) (unit k : Nat) (ds : List Dest) (takes : List (Nat × Nat))
    (hbefore : JobWork 0x0A02 j.id s u) (hlog : u.log = s.log) : Breached 0x0A02 j a unit k false s (saturate j a unit ds takes k u) := by
  unfold saturate
  have hrings (v : State) : JobWork 0x0A02 j.id v ((takes.map (·.1)).foldl (fun s r => resetRing a.die 0x0A02 r s) v) :=
    .foldl (fun s r => resetRing_work j.id a.die 0x0A02 0x0A02 r s) _ v
  have hstill (v : State) : still ((takes.map (·.1)).foldl (fun s r => resetRing a.die 0x0A02 r s) v) = still v :=
    still_foldl (fun s r => still_resetRing a.die 0x0A02 r s) _ v
  refine breached_of_work (pe := 0x0A02) (u := nameDests j.id ds u) ?_ (hbefore.trans (nameDests_work ..)) hlog ((hrings _).trans (poisonAll_work ..))
    ?_ false
  · exact (((hjob.nameDests ds).logJob ..).of_jobs (still_jobs (hstill _))).of_jobs (poisonAll_jobs ..)
  · have hlogs := congrArg State.log (hstill (logJob 0x0A02 j a unit k false (nameDests j.id ds u)))
    exact (poisonAll_log ..).trans hlogs

theorem claimTakes_work (e : Ev) (id : Nat) (d : DieIx) (us : List (Nat × Bool)) (s : State) : JobWork e id s (claimTakes d us s) := by
  refine .foldl (fun s u => ?_) us s
  exact ite_work (updRing_work id fun _ => rfl)

theorem InScratch.writeElems_work {d : DieIx} {t : Desc} (h : InScratch d t) (e : Ev) (id slot : Nat) (xs : List (Int × Nat)) (s : State) :
    JobWork e id s (writeElems t slot xs s) := by
  rw [h.writeElems_eq]
  exact updDie_work_part id rfl

theorem InScratch.writeScales_work {d : DieIx} {t : Desc} (h : InScratch d t) (e : Ev) (id slot : Nat) (xs : List (Nat × Nat)) (s : State) :
    JobWork e id s (writeScales t slot xs s) := by
  rw [h.writeScales_eq]
  exact ite_work (updDie_work_part id rfl)

/-! #### What a conversion writes (R179 to R181) -/

/-- A conversion's codes and scale bytes, written. -/
def convWritten (t : Desc) (c : ConvOut) (s : State) : State :=
  writeScales t 0 c.scales (writeElems t 0 (c.codes.map fun e => (t.off (t.tuple e.1), e.2)) s)

/-- A conversion without NaNs and recomputations logs nothing. -/
theorem writeConv_quiet {c : ConvOut} (hnans : c.nans = 0) (hre : c.recomputed = 0) (j : Job) (a : Site) (unit : Nat) (t : Desc) (s : State) :
    writeConv j a unit t c s = convWritten t c s := by
  unfold writeConv
  dsimp only
  rw [hnans, hre]
  rfl

theorem InScratch.convWritten_writes {d : DieIx} {t : Desc} (h : InScratch d t) (c : ConvOut) (s : State) : EngineWrites d s (convWritten t c s) :=
  (h.writeElems_writes ..).trans (h.writeScales_writes ..)

theorem SameEngine.convWritten {d : DieIx} {s u : State} (h : SameEngine d s u) {t : Desc} (ht : InScratch d t) (c : ConvOut) :
    SameEngine d (convWritten t c s) (convWritten t c u) :=
  (h.writeElems ht ..).writeScales ht ..

theorem InScratch.convWritten_work {d : DieIx} {t : Desc} (h : InScratch d t) (c : ConvOut) (e : Ev) (id : Nat) (s : State) :
    JobWork e id s (convWritten t c s) :=
  (h.writeElems_work ..).trans (h.writeScales_work ..)

/-! #### CVT -/

section Convert

variable {s : State} {a : Site} {j : Job} {g : Fin 2} {n xt : Nat} {x dst : VOp} {slots : List Nat} {es : List SbEntry}

/-- The operation of CVT. -/
def cvtOp (s : State) (a : Site) (g : Fin 2) (n : Nat) (x dst : VOp) (xt : Nat) : VecOp :=
  { elemOp g n [x] dst (2 * groups64 n) with
    any := true, extraScalars := if cvtTile s a.die dst then [xt] else []
    late := failIf (cvtTile s a.die dst && !(xtOk (xtOf s a.die xt))) (.skip 0x0102) }

/-- The values that CVT converts. -/
def cvtValues (s : State) (a : Site) (g : Fin 2) (n : Nat) (x : VOp) (slots : List Nat) : List FV :=
  vValues s a.die g n ((vRows s a.die [x] slots).getD 0 0) x

theorem cvtOp_passes (hready : VecReady s a j g n [(x, .fp32)] dst .fp32 n true slots es)
    (htile : cvtTile s a.die dst = true → scalarBusy s a.die (vScalars [x] ++ [xt]) = false ∧ scalarBad s a.die [xt] = false ∧ xtOk (xtOf s a.die xt) = true) :
    VecPasses s a (cvtOp s a g n x dst xt) := by
  by_cases h : cvtTile s a.die dst = true
  · obtain ⟨hfree, hsound, hxt⟩ := htile h
    exact ⟨rfl, by simp [cvtOp, h, hxt, failIf], by simpa [cvtOp, h, elemOp] using hfree, by simpa [cvtOp, h] using hsound⟩
  · have hoff := Bool.eq_false_iff.mpr h
    exact vecPasses rfl (by simp [cvtOp, hoff, failIf]) (by simp [cvtOp, hoff]) hready.registers

/-- The run of CVT reads what stood when it issued. -/
theorem cvtValues_before (v : VecOp) (m : Nat) : vValues (vecBefore s a.die v m) a.die g n ((vRows s a.die [x] slots).getD 0 0) x =
    cvtValues s a g n x slots :=
  (vecBefore_read s a.die v m).vValues ..

theorem runCvt_plain {v : VecOp} (hdst : ∀ i, v.dst ≠ .desc i) (rows : List Nat) (u : State) : runCvt a v xt none j rows u =
    (vWrite a.die v.eng .fp32 ((vValues u a.die v.eng v.n (rows.getD 0 0) (v.srcs.headD (v.dst, .fp32)).1).zipIdx.map fun e => (e.2, w32 e.1)) v.dst u,
      0, none) := by
  unfold runCvt
  cases h : v.dst with
  | desc i => exact absurd h (hdst i)
  | _ => rfl

theorem runCvt_tensor {v : VecOp} {i : Nat} {t : Desc} {u : State} (hdst : v.dst = .desc i) (ht : descOf u a.die i = some t) (rows : List Nat)
    {c : ConvOut} (hc : convInto t (vValues u a.die v.eng v.n (rows.getD 0 0) (v.srcs.headD (v.dst, .fp32)).1) (xtOf u a.die xt) = c)
    (hnans : c.nans = 0) (hre : c.recomputed = 0) : runCvt a v xt none j rows u = (convWritten t c u, 0, c.saturated) := by
  unfold runCvt
  rw [hdst] at hc ⊢
  dsimp only
  rw [ht]
  dsimp only
  rw [hc, writeConv_quiet hnans hre, hre]
  rfl

/-- CVT into anything but a tensor writes FP32 patterns. -/
theorem cvt_plain (hready : VecReady s a j g n [(x, .fp32)] dst .fp32 n true slots es) (hdst : ∀ i, dst ≠ .desc i) :
    ∃ t, exec (.cvt a g n x dst xt none) s = .next t ∧
      VecDone a j g [(x, .fp32)] dst .fp32 ((cvtValues s a g n x slots).zipIdx.map fun e => (e.2, w32 e.1)) es s t := by
  have hoff : cvtTile s a.die dst = false := by
    cases dst with
    | desc i => exact absurd rfl (hdst i)
    | _ => rfl
  obtain ⟨t, hissue, hdone⟩ := issueVec_done (v := cvtOp s a g n x dst xt) hready (cvtOp_passes hready fun h => absurd (hoff.symm.trans h) nofun)
    (extra := 0) (out := (cvtValues s a g n x slots).zipIdx.map fun e => (e.2, w32 e.1)) (run := runCvt a (cvtOp s a g n x dst xt) xt none) fun m => by
      rw [runCvt_plain hdst, ← cvtValues_before (cvtOp s a g n x dst xt) m]
      rfl
  exact ⟨t, congrArg ok (runInstr_done hready.ready hissue), hdone⟩

/-- What CVT asks for besides its operands: a tile-scaled tensor needs its exponent (R181). -/
def TileReady (s : State) (a : Site) (t : Desc) (xt : Nat) (x : VOp) : Prop :=
  t.ety.scaling = .tile → scalarBusy s a.die (vScalars [x] ++ [xt]) = false ∧ scalarBad s a.die [xt] = false ∧ xtOk (xtOf s a.die xt) = true

/-- CVT into a tensor issues and runs its conversion. -/
theorem cvt_issue {i : Nat} {t₀ : Desc} (hready : VecReady s a j g n [(x, .fp32)] (.desc i) .fp32 n true slots es) (ht : descOf s a.die i = some t₀)
    (htile : TileReady s a t₀ xt x) {c : ConvOut} (hc : convInto t₀ (cvtValues s a g n x slots) (xtOf s a.die xt) = c) (hnans : c.nans = 0)
    (hre : c.recomputed = 0) : ∃ m, exec (.cvt a g n x (.desc i) xt none) s =
      .next (vecEnd s (count a.die 2 m s) a j (cvtOp s a g n x (.desc i) xt) slots es
        (convWritten t₀ c (vecBefore s a.die (cvtOp s a g n x (.desc i) xt) m)) 0 c.saturated) := by
  have hpass : VecPasses s a (cvtOp s a g n x (.desc i) xt) := cvtOp_passes hready fun h => htile (by
    simp only [cvtTile, ht, Bool.and_eq_true, beq_iff_eq] at h
    exact h.2)
  obtain ⟨m, hadmit⟩ := hready.admitted
  have hread := vecBefore_read s a.die (cvtOp s a g n x (.desc i) xt) m
  have hxt : xtOf (vecBefore s a.die (cvtOp s a g n x (.desc i) xt) m) a.die xt = xtOf s a.die xt := congrArg (toSigned 64) (hread.scalarOf ..)
  have hrun := runCvt_tensor (a := a) (j := j) (xt := xt) (v := cvtOp s a g n x (.desc i) xt) rfl ((hread.descOf a.die i).trans ht)
    (vecRows s a.die (cvtOp s a g n x (.desc i) xt) slots) (c := c) (by
      rw [hxt, ← hc, ← cvtValues_before (cvtOp s a g n x (.desc i) xt) m]
      rfl) hnans hre
  exact ⟨m, congrArg ok (runInstr_done hready.ready (issueVec_run hready hpass hadmit hrun))⟩

theorem inScratch_of_vecReady {i : Nat} {t₀ : Desc} {any : Bool} {f : VFmt} {srcs : List (VOp × VFmt)}
    (hready : VecReady s a j g n srcs (.desc i) f n any slots es) (ht : descOf s a.die i = some t₀) : InScratch a.die t₀ :=
  writable_of_vOperand hready.place.1 i t₀ rfl ht

/-- A conversion that does not saturate. -/
theorem cvt_tensor {i : Nat} {t₀ : Desc} (hready : VecReady s a j g n [(x, .fp32)] (.desc i) .fp32 n true slots es) (ht : descOf s a.die i = some t₀)
    (htile : TileReady s a t₀ xt x) {c : ConvOut} (hc : convInto t₀ (cvtValues s a g n x slots) (xtOf s a.die xt) = c) (hsat : c.saturated = none)
    (hnans : c.nans = 0) (hre : c.recomputed = 0) : ∃ t o, exec (.cvt a g n x (.desc i) xt none) s = .next t ∧
      VecMem a.die (convWritten t₀ c s) t ∧ InFlight a j 4 es o s t ∧ vecRest (dieOf t a.die) = vecRest (dieOf s a.die) ∧
      Frame [.dies, .counters, .jobs, .nextId] s t := by
  obtain ⟨m, hexec⟩ := cvt_issue hready ht htile hc hnans hre
  rw [hsat] at hexec
  have hin := inScratch_of_vecReady hready ht
  have hwrites := hin.convWritten_writes c (vecBefore s a.die (cvtOp s a g n x (.desc i) xt) m)
  have hsame := (vecBefore_engine s a.die (cvtOp s a g n x (.desc i) xt) m).convWritten hin c
  obtain ⟨o, hflight, -⟩ := vecEnd_flight (v := cvtOp s a g n x (.desc i) xt) (u := count a.die 2 m s) (slots := slots) (es := es)
    ((vecBefore_poised s a j _ m).trans hwrites.poised) 0
  refine ⟨_, o, hexec, (hsame.trans (vecEnd_engine ..)).parts.1, hflight, ?_,
    (Frame.then (Frame.then (vecBefore_frame s a.die _ m) hwrites.frame) (vecEnd_frame _ _ _)).mono (by decide)⟩
  rw [vecEnd_field _ _ _ vecRest fun _ _ _ => rfl, hwrites.field vecRest fun _ => rfl, vecBefore_rest]

theorem vecBefore_work (v : VecOp) (m id : Nat) (e : Ev) : JobWork e id s (vecBefore s a.die v m) :=
  (count_work ..).trans (claimTakes_work ..)

/-- A conversion that saturates (R182). -/
theorem cvt_saturated {i k : Nat} {t₀ : Desc} (hready : VecReady s a j g n [(x, .fp32)] (.desc i) .fp32 n true slots es) (ht : descOf s a.die i = some t₀)
    (htile : TileReady s a t₀ xt x) {c : ConvOut} (hc : convInto t₀ (cvtValues s a g n x slots) (xtOf s a.die xt) = c) (hsat : c.saturated = some k)
    (hnans : c.nans = 0) (hre : c.recomputed = 0) : ∃ t, exec (.cvt a g n x (.desc i) xt none) s = .next t ∧
      LoggedFirst 0x0A02 (evJob j a 4 k false) s t ∧ JobQuenched j s t ∧ Frame jobQuenchAreas s t := by
  obtain ⟨m, hexec⟩ := cvt_issue hready ht htile hc hnans hre
  rw [hsat] at hexec
  have hin := inScratch_of_vecReady hready ht
  have hwrites := hin.convWritten_writes c (vecBefore s a.die (cvtOp s a g n x (.desc i) xt) m)
  have hframe : Frame [.counters, .dies] s (convWritten t₀ c (vecBefore s a.die (cvtOp s a g n x (.desc i) xt) m)) :=
    (Frame.then (vecBefore_frame s a.die _ m) hwrites.frame).mono (by decide)
  exact breach_of_exec hexec (saturate_breached ((StillNames.of_job hready.ready.jobOf).of_jobs (hframe .jobs (by decide))) a 4 k _ _
    ((vecBefore_work ..).trans (hin.convWritten_work ..)) (hframe .log (by decide)))

end Convert

/-! #### TMUL (R176, R192, R195) -/

theorem scalarBusy_nil (s : State) (d : DieIx) : scalarBusy s d [] = false := by
  have hops : ((dieOf s d).ops.any fun o => o.scalars.any fun x => ([] : List Nat).contains x) = false :=
    any_eq_false fun o _ => any_eq_false fun x _ => rfl
  have hbn : ((bnInFlight s).any fun c => c.part.isSome && c.at_.die == d &&
      (match bnStatus c.instr with | some x => ([] : List Nat).contains x | none => false)) = false := by
    refine any_eq_false fun c _ => ?_
    cases bnStatus c.instr <;> exact Bool.and_false _
  unfold scalarBusy
  rw [hops]
  exact hbn

theorem Frame.slotRows {ws : List Area} {s t : State} (h : Frame ws s t) (hws : Area.dies ∉ ws) (d : DieIx) (is slots : List Nat) :
    slotRows t d is slots = slotRows s d is slots := by
  have hdesc : ∀ i, descOf t d i = descOf s d i := fun i => h.dieField hws (fun x => tblGet x.descs i) (fun _ => rfl) d
  induction is generalizing slots with
  | nil => rfl
  | cons i is ih => simp only [Machine.slotRows, hdesc, h.ringOf hws, ih]

theorem SameRead.tmulRow {s t : State} (h : SameRead s t) (x : Desc) (slot l r : Nat) : tmulRow t x slot l r = tmulRow s x slot l r := by
  unfold Machine.tmulRow
  simp only [h.descMem, h.readScale]

theorem SameRead.tmulValues {s t : State} (h : SameRead s t) (x y : Desc) (sa sb : Nat) (cin : Option (Desc × Nat)) :
    tmulValues t x y sa sb cin = tmulValues s x y sa sb cin := by
  have hrow : Machine.tmulRow t = Machine.tmulRow s := by
    funext x slot l r
    exact h.tmulRow ..
  unfold Machine.tmulValues
  simp only [hrow, h.descMem]

section Product

variable {s : State} {a : Site} {j : Job} {g : TmulArgs} {t₁ t₂ : Desc} {slots : List Nat} {es : List SbEntry} {m : Nat}

/-- The products of a TMUL. -/
def tmulProducts (s : State) (d : DieIx) (g : TmulArgs) (slots : List Nat) (t₁ t₂ : Desc) : List Nat :=
  let rows := slotRows s d (tmulSrcs g) slots
  tmulValues s t₁ t₂ (rows.getD 0 0) (rows.getD 1 0) (g.cin.bind fun i => (descOf s d i).map fun c => (c, rows.getD 2 0))

theorem Frame.tmulProducts {ws : List Area} {s t : State} (h : Frame ws s t) (hws : Area.dies ∉ ws) (d : DieIx) (g : TmulArgs) (slots : List Nat)
    (t₁ t₂ : Desc) : tmulProducts t d g slots t₁ t₂ = tmulProducts s d g slots t₁ t₂ := by
  unfold Machine.tmulProducts
  simp only [h.slotRows hws, (SameRead.of_frame h hws).tmulValues, (SameRead.of_frame h hws).descOf]

/-- The scalar register that a TMUL reads: X_t, where it converts. -/
def tmulScalars (g : TmulArgs) : List Nat := if g.conv.isSome then [g.xt] else []

/-- What a TMUL asks for. -/
structure TmulReady (s : State) (a : Site) (j : Job) (g : TmulArgs) (slots : List Nat) (es : List SbEntry) (m : Nat) : Prop where
  ready : Ready s a j
  engine : engineHere s a.die 2 = true
  sources : ∀ i ∈ tmulSrcs g, engineDesc s a.die true i = .pass
  places : ∀ i ∈ tmulDsts g, engineDesc s a.die false i = .pass
  form : tmulForm s a.die g = .pass
  rings : ringCheck s a.die (descRings s a.die (tmulSrcs g)) = none
  filled : ringSlots s a.die (descRings s a.die (tmulSrcs g)) = some slots
  admitted : sbAdmit s a.die (descRanges s a.die false (tmulSrcs g) ++ descRanges s a.die true (tmulDsts g)) = some (es, m)
  clean : descPoison s a.die (tmulSrcs g) = .pass
  free : scalarBusy s a.die (tmulScalars g) = false
  sound : scalarBad s a.die (tmulScalars g) = false
  exponent : tmulXtBad s a.die g = false

theorem issueTmul_run (h : TmulReady s a j g slots es m) :
    issueTmul a g j s = .done (runTmul a g j slots (descRings s a.die (tmulSrcs g)) es (count a.die 2 m s)) := by
  have hcount := count_frame a.die 2 m s
  have hpre : firstFail ([failIf (!(engineHere s a.die 2)) (.skip 0x0103)] ++ (tmulSrcs g).map (engineDesc s a.die true) ++
      (tmulDsts g).map (engineDesc s a.die false) ++ [.pass, tmulForm s a.die g]) = .pass := by
    rw [h.engine, h.form]
    refine firstFail_pass fun v hv => ?_
    simp only [List.mem_append, List.mem_map, List.mem_cons, List.not_mem_nil, or_false] at hv
    rcases hv with ((rfl | ⟨i, hi, rfl⟩) | ⟨i, hi, rfl⟩) | rfl | rfl
    · rfl
    · exact h.sources i hi
    · exact h.places i hi
    · rfl
    · rfl
  have hpoison : descPoison (count a.die 2 m s) a.die (tmulSrcs g) = .pass := by
    rw [descPoison]
    simp only [hcount.descPoison (by decide), (SameRead.of_frame hcount (by decide)).descOf]
    exact h.clean
  have hxt : tmulXtBad (count a.die 2 m s) a.die g = false := by
    unfold tmulXtBad xtOf
    simp only [(SameRead.of_frame hcount (by decide)).descOf, hcount.scalarOf (by decide)]
    exact h.exponent
  unfold issueTmul
  dsimp only
  rw [h.rings, h.filled, hpre, if_neg (by decide)]
  change (if scalarBusy s a.die (tmulScalars g) = true then _ else withScoreboard a.die _ s _) = _
  rw [h.free, if_neg (by decide), withScoreboard_admitted h.ready.fresh h.admitted, hpoison]
  change (if (firstFail [_, failIf (scalarBad (count a.die 2 m s) a.die (tmulScalars g)) _, _] != Verdict.pass) = true then _ else _) = _
  rw [hcount.scalarBad (by decide), h.sound, hxt, if_neg (by decide)]

/-- What an engine's operation leaves that claims its slots, writes and goes in flight. -/
theorem claimed_done {us : List (Nat × Bool)} {o : Op} {w : State} (hjob : o.job = j.id) (hqueue : o.queue = a.queue) (hoff : o.off = a.off)
    (hwrites : EngineWrites a.die (claimTakes a.die us (count a.die 2 m s)) w) :
    InFlight a j o.unit es { o with id := s.nextId } s (startOp a.die o es w) ∧ TookSlots a.die us s (startOp a.die o es w) ∧
      vecRest (dieOf (startOp a.die o es w) a.die) = vecRest (dieOf s a.die) ∧ Frame [.dies, .counters, .jobs, .nextId] s (startOp a.die o es w) := by
  have hcount := count_frame a.die 2 m s
  have hclaims := claimTakes_frame a.die us (count a.die 2 m s)
  have hposed : Poised a j s (claimTakes a.die us (count a.die 2 m s)) := (Poised.count ..).trans (claimTakes_poised ..)
  refine ⟨(hposed.trans hwrites.poised).startOp es hjob hqueue hoff, fun r => ?_, ?_,
    (((hcount.then hclaims).then hwrites.frame).then (startOp_frame _ _ _ _)).mono (by decide)⟩
  · rw [ringOf, startOp_dieField a.die o es w Die.rings fun _ _ _ => rfl, hwrites.field Die.rings fun _ => rfl, dieOf_claimTakes, tblGetD_takenRings,
      hcount.dieField (by decide) Die.rings fun _ => rfl]
    rfl
  · rw [startOp_dieField a.die o es w vecRest fun _ _ _ => rfl, hwrites.field vecRest fun _ => rfl, dieOf_claimTakes]
    exact hcount.dieField (by decide) vecRest (fun _ => rfl) a.die

theorem claimed_engine (us : List (Nat × Bool)) : SameEngine a.die s (claimTakes a.die us (count a.die 2 m s)) :=
  (SameEngine.of_frame (count_frame a.die 2 m s) (by decide)).trans (.claimTakes ..)

theorem startOp_engine (o : Op) (w : State) : SameEngine a.die w (startOp a.die o es w) :=
  startOp_dieField a.die o es w engineMem fun _ _ _ => rfl

theorem runTmul_fp32 {u : State} {us : List (Nat × Bool)} {i : Nat} {t₃ : Desc} (ha : descOf u a.die g.a = some t₁) (hb : descOf u a.die g.b = some t₂)
    (hout : g.fp32 = some i) (hconv : g.conv = none) (hpal : g.palette = none) (ht : descOf u a.die i = some t₃) :
    ∃ o, (o.unit = 3 ∧ o.job = j.id ∧ o.queue = a.queue ∧ o.off = a.off) ∧ runTmul a g j slots us es u =
      startOp a.die o es (writeElems t₃ 0 ((tmulProducts u a.die g slots t₁ t₂).zipIdx.map fun v => (t₃.off (t₃.tuple v.2), w32 (f32 v.1)))
        (claimTakes a.die us u)) := by
  have hclaimed := ((SameRead.claimTakes a.die us u).descOf a.die i).trans ht
  unfold runTmul tmulProducts
  dsimp only
  rw [ha, hb]
  dsimp only
  rw [hout, hconv, hpal, Option.bind_some, hclaimed]
  cases g.cin <;> exact ⟨_, ⟨rfl, rfl, rfl, rfl⟩, rfl⟩

theorem runTmul_conv {u : State} {us : List (Nat × Bool)} {i : Nat} {t₃ : Desc} {c : ConvOut} (ha : descOf u a.die g.a = some t₁)
    (hb : descOf u a.die g.b = some t₂) (hout : g.fp32 = none) (hconv : g.conv = some i) (hpal : g.palette = none) (ht : descOf u a.die i = some t₃)
    (hc : convInto t₃ ((tmulProducts u a.die g slots t₁ t₂).map f32) (xtOf u a.die g.xt) = c) (hsat : c.saturated = none) (hnans : c.nans = 0)
    (hre : c.recomputed = 0) :
    ∃ o, (o.unit = 3 ∧ o.job = j.id ∧ o.queue = a.queue ∧ o.off = a.off) ∧ runTmul a g j slots us es u =
      startOp a.die o es (convWritten t₃ c (claimTakes a.die us u)) := by
  unfold tmulProducts at hc
  unfold runTmul
  dsimp only
  rw [ha, hb]
  dsimp only
  rw [hout, hconv, hpal, Option.bind_some, ht]
  dsimp only [Option.map_some, Option.bind_none]
  generalize hq : convInto t₃ _ (xtOf u a.die g.xt) = q
  have hsame : q = c := by
    rw [← hq, ← hc]
    cases g.cin <;> rfl
  rw [hsame, hsat]
  dsimp only
  rw [writeConv_quiet hnans hre]
  exact ⟨_, ⟨rfl, rfl, rfl, rfl⟩, rfl⟩

/-- A TMUL into an FP32 tensor. -/
theorem tmul_fp32 (h : TmulReady s a j g slots es m) (ha : descOf s a.die g.a = some t₁) (hb : descOf s a.die g.b = some t₂) (hpal : g.palette = none)
    {i : Nat} {t₃ : Desc} (hout : g.fp32 = some i) (hconv : g.conv = none) (ht : descOf s a.die i = some t₃) :
    ∃ t o, exec (.tmul a g) s = .next t ∧ VecMem a.die (writeElems t₃ 0 ((tmulProducts s a.die g slots t₁ t₂).zipIdx.map fun v =>
      (t₃.off (t₃.tuple v.2), w32 (f32 v.1))) s) t ∧ InFlight a j 3 es o s t ∧ TookSlots a.die (descRings s a.die (tmulSrcs g)) s t ∧
      vecRest (dieOf t a.die) = vecRest (dieOf s a.die) ∧ Frame [.dies, .counters, .jobs, .nextId] s t := by
  have hcount := count_frame a.die 2 m s
  have hread := SameRead.of_frame hcount (by decide)
  have hin : InScratch a.die t₃ := inScratch_of_engineDesc (h.places i (by simp [tmulDsts, hout])) ht
  obtain ⟨o, ⟨hunit, hjob, hqueue, hoff⟩, hrun⟩ := runTmul_fp32 (a := a) (j := j) (slots := slots) (es := es) (us := descRings s a.die (tmulSrcs g))
    ((hread.descOf ..).trans ha) ((hread.descOf ..).trans hb) hout hconv hpal ((hread.descOf ..).trans ht)
  rw [hcount.tmulProducts (by decide)] at hrun
  obtain ⟨hflight, htook, hrest, hframe⟩ := claimed_done (s := s) (m := m) (es := es) hjob hqueue hoff
    (hin.writeElems_writes 0 ((tmulProducts s a.die g slots t₁ t₂).zipIdx.map fun v => (t₃.off (t₃.tuple v.2), w32 (f32 v.1)))
      (claimTakes a.die (descRings s a.die (tmulSrcs g)) (count a.die 2 m s)))
  refine ⟨_, _, congrArg ok (runInstr_done h.ready ((issueTmul_run h).trans (congrArg Issued.done hrun))), ?_, hunit ▸ hflight, htook, hrest, hframe⟩
  exact (((claimed_engine _).writeElems hin ..).trans (startOp_engine ..)).parts.1

/-- A TMUL that converts its result. -/
theorem tmul_conv (h : TmulReady s a j g slots es m) (ha : descOf s a.die g.a = some t₁) (hb : descOf s a.die g.b = some t₂) (hpal : g.palette = none)
    {i : Nat} {t₃ : Desc} (hout : g.fp32 = none) (hconv : g.conv = some i) (ht : descOf s a.die i = some t₃) {c : ConvOut}
    (hc : convInto t₃ ((tmulProducts s a.die g slots t₁ t₂).map f32) (xtOf s a.die g.xt) = c) (hsat : c.saturated = none) (hnans : c.nans = 0)
    (hre : c.recomputed = 0) :
    ∃ t o, exec (.tmul a g) s = .next t ∧ VecMem a.die (convWritten t₃ c s) t ∧ InFlight a j 3 es o s t ∧
      vecRest (dieOf t a.die) = vecRest (dieOf s a.die) ∧ Frame [.dies, .counters, .jobs, .nextId] s t := by
  have hcount := count_frame a.die 2 m s
  have hread := SameRead.of_frame hcount (by decide)
  have hin : InScratch a.die t₃ := inScratch_of_engineDesc (h.places i (by simp [tmulDsts, hconv])) ht
  have hxt : xtOf (count a.die 2 m s) a.die g.xt = xtOf s a.die g.xt := congrArg (toSigned 64) (hread.scalarOf ..)
  obtain ⟨o, ⟨hunit, hjob, hqueue, hoff⟩, hrun⟩ := runTmul_conv (a := a) (j := j) (slots := slots) (es := es) (us := descRings s a.die (tmulSrcs g))
    ((hread.descOf ..).trans ha) ((hread.descOf ..).trans hb) hout hconv hpal ((hread.descOf ..).trans ht)
    (by rw [hcount.tmulProducts (by decide), hxt, hc]) hsat hnans hre
  obtain ⟨hflight, -, hrest, hframe⟩ := claimed_done (s := s) (m := m) (es := es) hjob hqueue hoff
    (hin.convWritten_writes c (claimTakes a.die (descRings s a.die (tmulSrcs g)) (count a.die 2 m s)))
  refine ⟨_, _, congrArg ok (runInstr_done h.ready ((issueTmul_run h).trans (congrArg Issued.done hrun))), ?_, hunit ▸ hflight, hrest, hframe⟩
  exact (((claimed_engine _).convWritten hin c).trans (startOp_engine ..)).parts.1

end Product

/-! #### Reads that clear (R183, R186, R188) -/

theorem paletteReadClear_done {s : State} {a : Site} {j : Job} {sc : Nat} (hready : Ready s a j) (hfree : scalarBusy s a.die [sc] = false) (e : Nat) :
    exec (.paletteReadClear a e sc) s = .next (readClearPalette a.die e sc s) :=
  congrArg ok (runInstr_done hready (f := issueRead a.die sc (readClearPalette a.die e sc)) (by
    unfold issueRead
    rw [hfree]
    rfl))

/-- The queue's NaN count, read into a scalar register and cleared. -/
def readClearNans (a : Site) (sc : Nat) (s : State) : State :=
  updQueue a.die a.queue (fun q => { q with nanCount := 0 }) (putScalar a.die sc (queueOf s a.die a.queue).nanCount s)

theorem nanCountReadClear_done {s : State} {a : Site} {j : Job} {sc : Nat} (hready : Ready s a j) (hfree : scalarBusy s a.die [sc] = false) :
    exec (.nanCountReadClear a sc) s = .next (readClearNans a sc s) :=
  congrArg ok (runInstr_done hready (f := issueRead a.die sc (readClearNans a sc)) (by
    unfold issueRead
    rw [hfree]
    rfl))

/-- Settles O28: CVT and TMUL write their conversions where nothing saturates; a saturated one quenches its job; reads that clear leave reset values. -/
theorem conversionsAndProducts : Obligations.ConversionsAndProducts := by
  refine ⟨fun s a j slots es => ?_, fun s a j sc hready hfree => ?_⟩
  · intro d
    refine ⟨fun g n x dst xt hready => ?_, ?_⟩
    · intro row vals
      refine ⟨fun hdst => cvt_plain hready hdst, fun i t₀ hdst ht htile => ?_⟩
      subst hdst
      intro c
      exact ⟨fun hsat hnans hre => cvt_tensor hready ht htile rfl hsat hnans hre, fun k hsat hnans hre => cvt_saturated hready ht htile rfl hsat hnans hre⟩
    · intro g t₁ t₂ hready hengine ha hb hsources hplaces hform hrings hfilled ⟨m, hadmit⟩ hclean hpal rows cin vals
      have hcommon (hfree : scalarBusy s a.die (tmulScalars g) = false) (hsound : scalarBad s a.die (tmulScalars g) = false)
          (hxt : tmulXtBad s a.die g = false) : TmulReady s a j g slots es m :=
        ⟨hready, hengine, hsources, hplaces, hform, hrings, hfilled, hadmit, hclean, hfree, hsound, hxt⟩
      refine ⟨fun i t₃ hout hconv ht => ?_, fun i t₃ hout hconv ht hfree hsound hxt => ?_⟩
      · have hscalars : tmulScalars g = [] := by simp [tmulScalars, hconv]
        exact tmul_fp32 (hcommon (hscalars ▸ scalarBusy_nil ..) (hscalars ▸ any_eq_false fun _ _ => rfl) (by simp [tmulXtBad, hconv])) ha hb hpal hout hconv ht
      · intro c hsat hnans hre
        have hscalars : tmulScalars g = [g.xt] := by simp [tmulScalars, hconv]
        have hbad : tmulXtBad s a.die g = false := by
          simp only [tmulXtBad, hconv, Option.any_some]
          rw [ht]
          simpa using hxt
        exact tmul_conv (hcommon (hscalars ▸ hfree) (hscalars ▸ hsound) hbad) ha hb hpal hout hconv ht rfl hsat hnans hre
  · intro x
    refine ⟨fun e => ⟨_, paletteReadClear_done hready hfree e, ?_, fun f hf => ?_, ?_⟩, _, nanCountReadClear_done hready hfree, ?_, fun r hr => ?_, ?_,
      fun f hf => ?_, ?_⟩
    · unfold readClearPalette putScalar
      rw [dieOf_updDie_self, dieOf_updDie_self]
      rfl
    · unfold readClearPalette putScalar
      rw [dieOf_updDie_ne _ _ hf, dieOf_updDie_ne _ _ hf]
    · exact Frame.trans (putScalar_frame _ _ _ _) (updDie_frame_dies _ _ _ rfl)
    · rw [readClearNans, scalarOf, updQueue, dieOf_updDie_self]
      exact (scalarOf_putScalar ..).trans (if_pos rfl)
    · rw [readClearNans, scalarOf, updQueue, dieOf_updDie_self]
      exact (scalarOf_putScalar ..).trans (if_neg hr)
    · rw [readClearNans, queueOf, updQueue, dieOf_updDie_self, putScalar, dieOf_updDie_self]
      simp [queueOf]
    · unfold readClearNans updQueue putScalar
      rw [dieOf_updDie_ne _ _ hf, dieOf_updDie_ne _ _ hf]
    · exact Frame.trans (putScalar_frame _ _ _ _) (updQueue_frame _ _ _ _)

end Sys2Proof.Machine

namespace Sys2Proof.Machine

/-! ### Share sessions (R147 to R161) -/

theorem sessionOf_updSession (p : PartIx) (k : Nat) (f : Session → Session) (s : State) :
    sessionOf (updSession p k f s) p k = (sessionOf s p k).map f := by
  rw [sessionOf, updSession, partOfIx_updPart_self]
  exact tblGet_tblMod_self ..

theorem updSession_frame (p : PartIx) (k : Nat) (f : Session → Session) (s : State) : Frame [.parts] s (updSession p k f s) :=
  updPart_frame_parts p _ s rfl

/-! ### O25: dealt triples and arrivals (R153, R157 to R161) -/

/-! #### The earliest exchange that waits -/

theorem leastExch_mem {l : List (DieIx × Op × Exch)} {y : DieIx × Op × Exch} (h : leastExch l = some y) : y ∈ l := by
  have hfold : ∀ (l : List (DieIx × Op × Exch)) (a : Option (DieIx × Op × Exch)), l.foldl (fun a x => match a with
      | some y => if x.2.1.id < y.2.1.id then some x else some y
      | none => some x) a = some y → a = some y ∨ y ∈ l := by
    intro l
    induction l with
    | nil => exact fun a ha => .inl ha
    | cons x l ih =>
      intro a ha
      rw [List.foldl_cons] at ha
      rcases ih _ ha with hstep | hmem
      · cases a with
        | none => exact .inr (Option.some.inj hstep ▸ List.mem_cons_self ..)
        | some z =>
          dsimp only at hstep
          split at hstep
          · exact .inr (Option.some.inj hstep ▸ List.mem_cons_self ..)
          · exact .inl hstep
      · exact .inr (List.mem_cons_of_mem _ hmem)
  rcases hfold l none h with hnone | hmem
  · cases hnone
  · exact hmem

theorem exchsOf_mem {s : State} {p : PartIx} {slot : Nat} {y : DieIx × Op × Exch} (h : y ∈ exchsOf s p slot) : y.2.2.part = p ∧ y.2.2.session = slot := by
  obtain ⟨hpart, hslot⟩ := List.mem_filter.mp h
  refine ⟨?_, by simpa using hslot⟩
  obtain ⟨d, -, hd⟩ := List.mem_flatMap.mp hpart
  obtain ⟨o, -, ho⟩ := List.mem_filterMap.mp hd
  split at ho
  · next x hx =>
    split at ho
    · next hp =>
      obtain rfl := Option.some.inj ho
      exact hp
    · cases ho
  · cases ho

/-! #### A message of a peer (R158 to R161) -/

section Messages

variable {s : State} {slot : Nat} {x : Session} {m : ExMsg}

/-- The exchange that a message of a peer meets: the earliest of its session that lacks this peer's message. -/
def meets (s : State) (slot : Nat) (m : ExMsg) : Option (DieIx × Op × Exch) :=
  leastExch ((exchsOf s m.part slot).filter fun y => !y.2.2.got.any (·.1 == m.party))

theorem epochBars_none {port : Option PortIx} {epoch : Nat} (h : port ≠ none → epoch ∈ epochsHeld s) (y : HeldIn) (refuse : State → State) :
    epochBars port epoch y refuse s = none := by
  cases port with
  | none => rfl
  | some n =>
    have hheld : (epochsHeld s).contains epoch = true := List.elem_iff.mpr (h nofun)
    rw [epochBars, hheld, if_pos rfl]

/-- A message that no rule bars reaches its session. -/
theorem messageIn_peer (hbar : shareBarred s m.port = none) (htag : sessionOfTag s m.part m.tag.toNat = some (slot, x)) (hparty : m.party < x.parties)
    (hself : m.party ≠ x.self) (hfrom : m.port ≠ none → memberHeld s (x.place m.party).1 = true) (hepoch : m.port ≠ none → m.epoch ∈ epochsHeld s)
    (abort : Bool) : messageIn m abort s = peerMessage slot x m abort s := by
  have hpeer : (peersOf x).contains m.party = true := by simp [peersOf, hparty, hself]
  have hmember : fromMember s m.port x m.party = true := by
    cases hport : m.port with
    | none => rfl
    | some n => rw [fromMember, hfrom (by rw [hport]; nofun), Bool.or_true]
  rw [messageIn, hbar]
  dsimp only
  rw [htag]
  dsimp only
  rw [hpeer, hmember, epochBars_none hepoch, if_neg (by decide), if_neg (by decide)]

theorem peerMessage_meets {d : DieIx} {o : Op} {e : Exch} (h : meets s slot m = some (d, o, e)) (abort : Bool) : peerMessage slot x m abort s =
    if seqBehind m.openSeq e.openSeq then countLate d s else if m.openSeq = e.openSeq then acceptMsg d o.id m abort s else failOp d o 1 0x0102 s := by
  unfold meets at h
  rw [peerMessage, h]

theorem seqBehind_self (n : Nat) : seqBehind n n = false := by
  simp [seqBehind, diff32]

theorem seqBehind_of_lt {a b : Nat} (h : diff32 a b < 2 ^ 31) : seqBehind a b = false := decide_eq_false (Nat.not_le.mpr h)

theorem opOf_updOp {d : DieIx} {id : Nat} {o : Op} {f : Op → Op} (hf : ∀ o, (f o).id = o.id) (h : opOf s d id = some o) :
    opOf (updOp d id f s) d id = some (f o) := by
  rw [opOf] at h ⊢
  rw [updOp, dieOf_updDie_self]
  dsimp only
  rw [List.find?_map]
  have hsame : ((fun o : Op => o.id == id) ∘ fun o => if o.id = id then f o else o) = fun o => o.id == id := by
    funext o
    by_cases ho : o.id = id <;> simp [ho, hf]
  rw [hsame, h]
  have hid : o.id = id := by simpa using List.find?_some h
  simp [hid]

/-- An exchange that a message meets is of the message's partition and session. -/
theorem meets_exch {d : DieIx} {o : Op} {e : Exch} (h : meets s slot m = some (d, o, e)) : e.part = m.part ∧ e.session = slot :=
  exchsOf_mem (List.mem_filter.mp (leastExch_mem h)).1

/-- A message agrees with its exchange (R158). -/
def Agrees (x : Session) (e : Exch) (m : ExMsg) : Prop :=
  m.tag.toNat = x.tag ∧ m.m = e.m ∧ m.dealSeq = e.dealSeq ∧ m.body.length = (if e.kind = .beaver then 2 * e.m else e.m)

theorem msgFits_iff {e : Exch} (hsession : sessionOf s e.part e.session = some x) : msgFits s e m = true ↔ Agrees x e m := by
  unfold msgFits
  rw [hsession]
  simp only [Agrees, Bool.and_eq_true, beq_iff_eq, and_assoc]

/-- An exchange that waits takes a message that agrees with it. -/
theorem acceptMsg_fits {d : DieIx} {o : Op} {e : Exch} (hop : opOf s d o.id = some o) (hexch : o.exch = some e)
    (hsession : sessionOf s e.part e.session = some x) (hfits : Agrees x e m) :
    acceptMsg d o.id m false s =
      updOp d o.id (fun o => { o with exch := o.exch.map fun x => { x with got := x.got ++ [(m.party, m.body)] } }) s := by
  rw [acceptMsg, hop]
  dsimp only
  rw [hexch]
  dsimp only
  rw [(msgFits_iff hsession).mpr hfits]
  rfl

theorem acceptMsg_differs {d : DieIx} {o : Op} {e : Exch} (hop : opOf s d o.id = some o) (hexch : o.exch = some e)
    (hsession : sessionOf s e.part e.session = some x) (hfits : ¬Agrees x e m) : acceptMsg d o.id m false s = failOp d o 1 0x0102 s := by
  have hoff : msgFits s e m = false := Bool.eq_false_iff.mpr fun h => hfits ((msgFits_iff hsession).mp h)
  rw [acceptMsg, hop]
  dsimp only
  rw [hexch]
  dsimp only
  rw [hoff]
  rfl

theorem acceptMsg_abort {d : DieIx} {o : Op} {e : Exch} (hop : opOf s d o.id = some o) (hexch : o.exch = some e) :
    acceptMsg d o.id m true s = failOp d o 1 0x0107 s := by
  rw [acceptMsg, hop]
  dsimp only
  rw [hexch]
  rfl

theorem exchange_exec (m : ExMsg) (s : State) : exec (.exchangeMessage m) s = .next (messageIn m false s) := rfl

theorem abort_exec (m : ExMsg) (s : State) : exec (.abortMarker m) s = .next (messageIn m true s) := rfl

theorem deal_exec (m : DealMsg) (s : State) : exec (.dealDelivery m) s = .next (dealIn m s) := rfl

/-! #### Traffic that the rules bar (R153, R159, R357) -/

/-- Discarded at a port and counted there by reason. -/
def DiscardedAt (s : State) (n : PortIx) (r : Nat) (t : State) : Prop :=
  tblGetD (portOf t n).discards r 0 = tblGetD (portOf s n).discards r 0 + 1 ∧ Frame [.ports] s t

theorem discard_discarded (s : State) (n : PortIx) (r : Nat) : DiscardedAt s n r (discard n r s) := by
  refine ⟨?_, updPort_frame _ _ _⟩
  rw [discard, portOf_updPort_self]
  exact (tblGetD_tblSet ..).trans (if_pos rfl)

theorem dropShare_some {port : Option PortIx} {n : PortIx} (h : port = some n) (r : Nat) (s : State) : dropShare port r s = discard n r s := by
  subst h
  rfl

theorem shareBarred_some (s : State) (n : PortIx) :
    shareBarred s (some n) = if s.fabric.valid = false then some 5 else if (portOf s n).keyState ≠ .on then some 6 else none := by
  cases hvalid : s.fabric.valid <;> simp [shareBarred, shareRefused, hvalid]

theorem dropShare_barred {port : Option PortIx} {r : Nat} (h : shareBarred s port = some r) : ∀ n, port = some n →
    (s.fabric.valid = false → DiscardedAt s n 5 (dropShare port r s)) ∧
      (s.fabric.valid = true → (portOf s n).keyState ≠ .on → DiscardedAt s n 6 (dropShare port r s)) := by
  rintro n rfl
  rw [shareBarred_some] at h
  refine ⟨fun hvalid => ?_, fun hvalid hkey => ?_⟩
  · rw [if_pos hvalid] at h
    obtain rfl := Option.some.inj h
    exact discard_discarded s n 5
  · rw [if_neg (by simp [hvalid]), if_pos hkey] at h
    obtain rfl := Option.some.inj h
    exact discard_discarded s n 6

/-! #### Deliveries (R157) -/

/-- A delivery that is taken joins those that are held, and those whose turn it is enter the pool. -/
theorem dealIn_taken {m : DealMsg} (hbar : shareBarred s m.port = none) (htag : sessionByTag s m.part m.tag.toNat = some (slot, x)) (hself : x.self ≠ 3)
    (hseq : diff32 m.dealSeq x.dealSeq < 2 ^ 31) (hheld : x.heldDeals = []) (hfrom : m.port ≠ none → memberHeld s (x.place 3).1 = true)
    (hepoch : m.port ≠ none → m.epoch ∈ epochsHeld s) : dealIn m s = if !(dealFits x m) then s else updSession m.part slot (fun y =>
      appendDeals (y.heldDeals.length + 1) { y with heldDeals := y.heldDeals ++ [(m.dealSeq, m.a, m.b, m.c, m.a.length)] }) s := by
  have hstale : (decide (x.self = 3) || seqBehind m.dealSeq x.dealSeq || x.heldDeals.any (·.1 == m.dealSeq)) = false := by
    rw [decide_eq_false hself, seqBehind_of_lt hseq, hheld]
    rfl
  have hmember : fromMember s m.port x 3 = true := by
    cases hport : m.port with
    | none => rfl
    | some n => rw [fromMember, hfrom (by rw [hport]; nofun), Bool.or_true]
  rw [dealIn, hbar]
  dsimp only
  rw [htag]
  dsimp only
  rw [hstale, hmember, epochBars_none hepoch, if_neg (by decide), if_neg (by decide)]

/-- A delivery whose turn it is enters the pool; one that comes before its turn is held. -/
theorem appendDeals_one {k : Nat} {a b c : List Nat} (hheld : x.heldDeals = []) (hroom : k = x.dealSeq → x.pool.length + a.length ≤ x.cap) :
    appendDeals (x.heldDeals.length + 1) { x with heldDeals := x.heldDeals ++ [(k, a, b, c, a.length)] } =
      if k = x.dealSeq then { x with pool := x.pool ++ a.zip (b.zip c), dealSeq := (x.dealSeq + a.length) % 2 ^ 32 }
      else { x with heldDeals := [(k, a, b, c, a.length)] } := by
  rw [hheld]
  by_cases hk : k = x.dealSeq
  · subst hk
    have hfits : ¬x.cap < x.pool.length + a.length := Nat.not_lt.mpr (hroom rfl)
    have hcap : ∀ l, Session.cap { x with heldDeals := l } = x.cap := fun _ => rfl
    simp only [List.length_nil, List.nil_append, appendDeals, List.find?_cons_of_pos, beq_self_eq_true, hcap, if_neg hfits, if_true]
    rw [← hheld]
    simp [hheld]
  · have hne : (k == x.dealSeq) = false := by simpa using hk
    simp [appendDeals, hne, hk]

end Messages

end Sys2Proof.Machine

namespace Sys2Proof.Machine

/-! #### DEAL splits its triples (R157) -/

/-- The residues of a vector, 0 past its end. -/
def residues (q : Nat) (v : List Nat) : Nat → ZMod q := fun i => (v.getD i 0 : Nat)

theorem getD_zipWith_zero {f : Nat → Nat → Nat} {v w : List Nat} (hlen : v.length = w.length) {i : Nat} (hi : i < v.length) :
    (List.zipWith f v w).getD i 0 = f (v.getD i 0) (w.getD i 0) := by
  simp [List.getD_eq_getElem?_getD, List.getElem?_zipWith, List.getElem?_eq_getElem hi, List.getElem?_eq_getElem (hlen ▸ hi)]

theorem getD_past {v : List Nat} {i : Nat} (hi : v.length ≤ i) : v.getD i 0 = 0 := by
  rw [List.getD_eq_getElem?_getD, List.getElem?_eq_none hi]
  rfl

theorem residues_past {q : Nat} {v : List Nat} {i : Nat} (hi : v.length ≤ i) : residues q v i = 0 := by
  rw [residues, getD_past hi, Nat.cast_zero]

section Vectors

variable {q n : Nat} {v w : List Nat}

theorem residues_add (hlen : v.length = w.length) : residues q (limbAdd q v w) = residues q v + residues q w := by
  funext i
  rcases Nat.lt_or_ge i v.length with hi | hi
  · rw [residues, limbAdd, getD_zipWith_zero hlen hi, ZMod.natCast_mod, Nat.cast_add]
    rfl
  · have hi' : w.length ≤ i := hlen ▸ hi
    have hout : (limbAdd q v w).length ≤ i := by
      rw [limbAdd, List.length_zipWith]
      omega
    rw [Pi.add_apply, residues_past hi, residues_past hi', residues_past hout, add_zero]

theorem subMod_cast {q : Nat} (hq : 0 < q) (x y : Nat) : ((subMod x y q : Nat) : ZMod q) = x - y := by
  rw [subMod, ZMod.natCast_mod, Nat.cast_add, Nat.cast_sub (Nat.mod_lt y hq).le, ZMod.natCast_mod, ZMod.natCast_self, zero_sub, sub_eq_add_neg]

theorem residues_mul (hlen : v.length = w.length) : residues q (limbMul q v w) = residues q v * residues q w := by
  funext i
  rcases Nat.lt_or_ge i v.length with hi | hi
  · rw [residues, limbMul, getD_zipWith_zero hlen hi, ZMod.natCast_mod, Nat.cast_mul]
    rfl
  · rw [Pi.mul_apply, residues_past hi, residues_past (by rw [limbMul, List.length_zipWith]; omega), zero_mul]

theorem residues_sub (hq : 0 < q) (hlen : v.length = w.length) : residues q (limbSub q v w) = residues q v - residues q w := by
  funext i
  rcases Nat.lt_or_ge i v.length with hi | hi
  · rw [residues, limbSub, getD_zipWith_zero hlen hi, subMod_cast hq]
    rfl
  · have hi' : w.length ≤ i := hlen ▸ hi
    have hout : (limbSub q v w).length ≤ i := by
      rw [limbSub, List.length_zipWith]
      omega
    rw [Pi.sub_apply, residues_past hi, residues_past hi', residues_past hout, sub_zero]

theorem limbAdd_length (hv : v.length = n) (hw : w.length = n) : (limbAdd q v w).length = n := by simp [limbAdd, hv, hw]

/-- A sum of vectors into one. -/
theorem sumInto_spec {l : List (List Nat)} (hl : ∀ v ∈ l, v.length = n) (hv : v.length = n) :
    (l.foldl (limbAdd q) v).length = n ∧ residues q (l.foldl (limbAdd q) v) = residues q v + (l.map (residues q)).sum := by
  induction l generalizing v with
  | nil => exact ⟨hv, by simp⟩
  | cons w l ih =>
    have hw : w.length = n := hl w (List.mem_cons_self ..)
    obtain ⟨hlen, hsum⟩ := ih (fun u hu => hl u (List.mem_cons_of_mem _ hu)) (limbAdd_length (q := q) hv hw)
    refine ⟨hlen, ?_⟩
    rw [List.foldl_cons, hsum, residues_add (hv.trans hw.symm), List.map_cons, List.sum_cons, add_assoc]

/-- What is left of a vector once shares of it are drawn. -/
theorem restOf_spec (hq : 0 < q) {rs : List (List Nat)} (hrs : ∀ r ∈ rs, r.length = n) (hv : v.length = n) :
    (rs.foldl (fun a r => limbSub q a r) v).length = n ∧
      residues q (rs.foldl (fun a r => limbSub q a r) v) = residues q v - (rs.map (residues q)).sum := by
  induction rs generalizing v with
  | nil => exact ⟨hv, by simp⟩
  | cons r rs ih =>
    have hr : r.length = n := hrs r (List.mem_cons_self ..)
    obtain ⟨hlen, hrest⟩ := ih (fun u hu => hrs u (List.mem_cons_of_mem _ hu)) (v := limbSub q v r) (by simp [limbSub, hv, hr])
    refine ⟨hlen, ?_⟩
    rw [List.foldl_cons, hrest, residues_sub hq (hv.trans hr.symm), List.map_cons, List.sum_cons, sub_sub]

/-- The sum of vectors modulo a ring. -/
def sumVecs (q n : Nat) (l : List (List Nat)) : List Nat := l.foldl (limbAdd q) (List.replicate n 0)

theorem residues_zeros : residues q (List.replicate n 0) = 0 := by
  funext i
  rcases Nat.lt_or_ge i n with hi | hi
  · simp [residues, List.getD_eq_getElem?_getD, hi]
  · rw [residues_past (by simpa using hi)]
    rfl

/-- Shares of a vector: each is as long, and they add up to it. -/
theorem splitVec_spec (hq : 0 < q) {rs : List (List Nat)} (hrs : ∀ r ∈ rs, r.length = n) (hv : v.length = n) :
    (∀ r ∈ splitVec q v rs, r.length = n) ∧ (sumVecs q n (splitVec q v rs)).length = n ∧
      residues q (sumVecs q n (splitVec q v rs)) = residues q v := by
  obtain ⟨hlen, hrest⟩ := restOf_spec hq hrs hv
  have hall : ∀ r ∈ splitVec q v rs, r.length = n := fun r hr => by
    rcases List.mem_append.mp hr with hr | hr
    · exact hrs r hr
    · rw [List.mem_singleton.mp hr, hlen]
  obtain ⟨hsum, hres⟩ := sumInto_spec (q := q) hall (List.length_replicate (n := n) (a := 0))
  refine ⟨hall, hsum, ?_⟩
  rw [sumVecs, hres, residues_zeros, splitVec, List.map_append, List.sum_append, List.map_singleton, List.sum_singleton, hrest]
  abel

/-- A sum's elements are below the modulus. -/
theorem sumVecs_lt (hq : 0 < q) (l : List (List Nat)) : ∀ x ∈ sumVecs q n l, x < q := by
  have hfold : ∀ (l : List (List Nat)) (v : List Nat), (∀ x ∈ v, x < q) → ∀ x ∈ l.foldl (limbAdd q) v, x < q := by
    intro l
    induction l with
    | nil => exact fun v hv => hv
    | cons w l ih =>
      refine fun v _ => ih _ fun x hx => ?_
      obtain ⟨i, hi, rfl⟩ := List.getElem_of_mem hx
      simp only [limbAdd, List.getElem_zipWith]
      exact Nat.mod_lt _ hq
  exact hfold l _ fun x hx => by rw [List.eq_of_mem_replicate hx]; exact hq

/-- Vectors of residues are what their residues are. -/
theorem eq_of_residues (hlen : v.length = w.length) (hv : ∀ x ∈ v, x < q) (hw : ∀ x ∈ w, x < q) (h : residues q v = residues q w) : v = w := by
  refine List.ext_getElem hlen fun i hi hi' => ?_
  have hsame := congrFun h i
  rw [residues, residues, List.getD_eq_getElem _ _ hi, List.getD_eq_getElem _ _ hi', ZMod.natCast_eq_natCast_iff'] at hsame
  rwa [Nat.mod_eq_of_lt (hv _ (List.getElem_mem hi)), Nat.mod_eq_of_lt (hw _ (List.getElem_mem hi'))] at hsame

/-- The shares of a product add up to the product of the sums. -/
theorem splitVec_product (hq : 0 < q) {ra rb rc : List (List Nat)} (ha : ∀ r ∈ ra, r.length = n) (hb : ∀ r ∈ rb, r.length = n)
    (hc : ∀ r ∈ rc, r.length = n) (hv : v.length = n) (hw : w.length = n) :
    sumVecs q n (splitVec q (limbMul q v w) rc) = limbMul q (sumVecs q n (splitVec q v ra)) (sumVecs q n (splitVec q w rb)) := by
  obtain ⟨-, hla, hra⟩ := splitVec_spec hq ha hv
  obtain ⟨-, hlb, hrb⟩ := splitVec_spec hq hb hw
  obtain ⟨-, hlc, hrc⟩ := splitVec_spec hq hc (v := limbMul q v w) (by simp [limbMul, hv, hw])
  refine eq_of_residues (by rw [hlc, limbMul, List.length_zipWith, hla, hlb, Nat.min_self]) (sumVecs_lt hq _) (fun x hx => ?_) ?_
  · obtain ⟨i, hi, rfl⟩ := List.getElem_of_mem hx
    simp only [limbMul, List.getElem_zipWith]
    exact Nat.mod_lt _ hq
  · rw [hrc, residues_mul (hla.trans hlb.symm), hra, hrb, residues_mul (hv.trans hw.symm)]

end Vectors

end Sys2Proof.Machine

namespace Sys2Proof.Machine

/-! #### What is drawn (log 9) -/

theorem drawElems_eq (q n : Nat) (s : State) : drawElems q n s = ((drawElems q n s).1, { s with free := s.free + 1 }) := rfl

theorem drawElems_length (q n : Nat) (s : State) : (drawElems q n s).1.length = n := by simp [drawElems]

theorem drawVecs_spec (q n k : Nat) (s : State) : (drawVecs q n k s).1.length = k ∧ (∀ r ∈ (drawVecs q n k s).1, r.length = n) ∧
    (drawVecs q n k s).2 = { s with free := s.free + k } := by
  induction k generalizing s with
  | zero => exact ⟨rfl, fun r hr => absurd hr List.not_mem_nil, rfl⟩
  | succ k ih =>
    obtain ⟨hlen, hall, hstate⟩ := ih { s with free := s.free + 1 }
    have hstep : drawVecs q n (k + 1) s = ((drawElems q n s).1 :: (drawVecs q n k { s with free := s.free + 1 }).1,
        (drawVecs q n k { s with free := s.free + 1 }).2) := rfl
    rw [hstep, hstate]
    refine ⟨by simp [hlen], fun r hr => ?_, ?_⟩
    · rcases List.mem_cons.mp hr with rfl | hr
      · exact drawElems_length q n s
      · exact hall r hr
    · dsimp only
      rw [Nat.add_assoc, Nat.add_comm 1 k]

/-! #### Deliveries go out (R157) -/

/-- A step of a dealer's deliveries touches sessions, outputs and free values; a session's tag and count of consumed triples stay. -/
structure Delivering (s t : State) : Prop where
  frame : Frame [.parts, .out, .free] s t
  dies : t.dies = s.dies
  jobs : t.jobs = s.jobs
  consumed : ∀ p tag y, (partOfIx s p).sessions.find? (fun y => y.2.tag == tag) = some y →
    ∃ z, (partOfIx t p).sessions.find? (fun y => y.2.tag == tag) = some z ∧ z.2.consumed = y.2.consumed

namespace Delivering

variable {s t u : State}

theorem trans (h : Delivering s t) (k : Delivering t u) : Delivering s u :=
  ⟨h.frame.trans k.frame, k.dies.trans h.dies, k.jobs.trans h.jobs, fun p tag y hy => by
    obtain ⟨z, hz, hsame⟩ := h.consumed p tag y hy
    obtain ⟨w, hw, hsame'⟩ := k.consumed p tag z hz
    exact ⟨w, hw, hsame'.trans hsame⟩⟩

theorem of_parts (hframe : Frame [.parts, .out, .free] s t) (hdies : t.dies = s.dies) (hjobs : t.jobs = s.jobs) (hparts : t.parts = s.parts) :
    Delivering s t :=
  ⟨hframe, hdies, hjobs, fun p tag y hy => ⟨y, by rwa [partOfIx, hparts], rfl⟩⟩

theorem refl (s : State) : Delivering s s := of_parts (.refl _ s) rfl rfl rfl

theorem emit (o : Output) (s : State) : Delivering s (emit o s) := of_parts ((emit_frame o s).mono (by decide)) rfl rfl rfl

theorem free (n : Nat) (s : State) : Delivering s { s with free := n } := of_parts fields_frame rfl rfl rfl

theorem updSession (p : PartIx) (k : Nat) (f : Session → Session) (hf : ∀ y, (f y).tag = y.tag ∧ (f y).consumed = y.consumed) (s : State) :
    Delivering s (updSession p k f s) := by
  refine ⟨(updSession_frame p k f s).mono (by decide), rfl, rfl, fun q tag y hy => ?_⟩
  by_cases hq : q = p
  · subst hq
    rw [Machine.updSession, partOfIx_updPart_self]
    dsimp only
    rw [tblMod, List.find?_map]
    have htags : ((fun y : Nat × Session => y.2.tag == tag) ∘ fun e => if e.1 = k then (e.1, f e.2) else e) = fun y => y.2.tag == tag := by
      funext e
      by_cases he : e.1 = k <;> simp [he, (hf e.2).1]
    rw [htags, hy]
    refine ⟨_, rfl, ?_⟩
    by_cases he : y.1 = k <;> simp [he, (hf y.2).2]
  · rw [Machine.updSession, partOfIx_updPart_ne _ _ hq]
    exact ⟨y, hy, rfl⟩

end Delivering

/-- The deliveries that wait, but for one that has gone. -/
def withoutDeal (e : DieIx × Nat × DealMsg) (y : Session) : Session := { y with outDeals := y.outDeals.erase e }

/-- A party's room is free where it lies on another part (R157). -/
theorem dealRoom_state (x : Session) (i : Nat) (m : DealMsg) (s : State) : Delivering s (dealRoom x i m s).2 ∧
    ∀ p k, sessionOf (dealRoom x i m s).2 p k = sessionOf s p k ∧ (dealRoom x i m s).2.out = s.out := by
  unfold dealRoom
  split
  · split
    · exact ⟨.refl s, fun _ _ => ⟨rfl, rfl⟩⟩
    · exact ⟨.refl s, fun _ _ => ⟨rfl, rfl⟩⟩
  · exact ⟨.free _ s, fun _ _ => ⟨rfl, rfl⟩⟩

/-- Room in a pool of this part is known (R157). -/
theorem dealRoom_here {x : Session} {i : Nat} {m : DealMsg} {s : State} {y : Nat × Session} (hplace : (x.place i).1 = s.fabric.partId)
    (hy : (partOfIx s (dieBits (x.place i).2)).sessions.find? (fun y => y.2.tag == x.tag) = some y) :
    (dealRoom x i m s).1 = decide (diff32 (m.dealSeq + m.a.length) y.2.consumed ≤ x.cap) := by
  rw [dealRoom, if_pos hplace, hy]

theorem shareRoute_congr {s t : State} (hfabric : t.fabric = s.fabric) (hports : t.ports = s.ports) (htwin : t.twin = s.twin) (d : DieIx) (part : Nat) :
    shareRoute t d part = shareRoute s d part := by
  unfold shareRoute routeOf portOf
  rw [hfabric, hports, htwin]

theorem Delivering.route {s t : State} (h : Delivering s t) (d : DieIx) (part : Nat) : shareRoute t d part = shareRoute s d part :=
  shareRoute_congr (h.frame .fabric (by decide)) (h.frame .ports (by decide)) (h.frame .twin (by decide)) d part

section Flush

variable {p : PartIx} {slot : Nat} {y : Session} {s : State}

/-- The message of a delivery. -/
def dealOutput (y : Session) (e : DieIx × Nat × DealMsg) : Output := .deal (y.place e.2.1).1 (y.place e.2.1).2 e.2.2

/-- A waiting delivery, its party's first: it goes where there is room. -/
theorem sendDeal_spec {e : DieIx × Nat × DealMsg} {kept rest : List (DieIx × Nat × DealMsg)}
    (hsession : sessionOf s p slot = some { y with outDeals := kept ++ e :: rest }) (hkept : ∀ k ∈ kept, k.2.1 ≠ e.2.1)
    (hroute : shareRoute s e.1 (y.place e.2.1).1 = .send) :
    ∃ room : Bool, Delivering s (sendDeal p slot e s) ∧
      (sendDeal p slot e s).out = s.out ++ (if room then [dealOutput y e] else []) ∧
      sessionOf (sendDeal p slot e s) p slot = some { y with outDeals := kept ++ (if room then [] else [e]) ++ rest } ∧
      ∀ z, (y.place e.2.1).1 = s.fabric.partId → (partOfIx s (dieBits (y.place e.2.1).2)).sessions.find? (fun w => w.2.tag == y.tag) = some z →
        room = decide (diff32 (e.2.2.dealSeq + e.2.2.a.length) z.2.consumed ≤ y.cap) := by
  have hfirst : (kept ++ e :: rest).find? (fun k => k.2.1 == e.2.1) = some e := by
    rw [List.find?_append, List.find?_eq_none.mpr fun k hk => by simpa using hkept k hk]
    simp
  have hne : e ∉ kept := fun h => hkept e h rfl
  have hgo : ((((kept ++ e :: rest).find? fun k => k.2.1 == e.2.1) != some e) || shareRoute s e.1 (y.place e.2.1).1 == .refused) = false := by
    rw [hfirst, hroute, bne_self_eq_false]
    rfl
  obtain ⟨hroom, hsame⟩ := dealRoom_state { y with outDeals := kept ++ e :: rest } e.2.1 e.2.2 s
  have hhere := fun z => dealRoom_here (x := { y with outDeals := kept ++ e :: rest }) (i := e.2.1) (m := e.2.2) (s := s) (y := z)
  have hsend : sendDeal p slot e s = if (dealRoom { y with outDeals := kept ++ e :: rest } e.2.1 e.2.2 s).1 then
      shareSend e.1 { y with outDeals := kept ++ e :: rest } e.2.1 (fun pt pn => .deal pt pn e.2.2)
        (updSession p slot (withoutDeal e) (dealRoom { y with outDeals := kept ++ e :: rest } e.2.1 e.2.2 s).2)
      else (dealRoom { y with outDeals := kept ++ e :: rest } e.2.1 e.2.2 s).2 := by
    rw [sendDeal, hsession]
    dsimp only
    exact if_neg (by rw [Bool.not_eq_true]; exact hgo)
  rw [hsend]
  generalize dealRoom { y with outDeals := kept ++ e :: rest } e.2.1 e.2.2 s = r at hroom hsame hhere ⊢
  refine ⟨r.1, ?_⟩
  have hupd : Delivering r.2 (updSession p slot (withoutDeal e) r.2) := .updSession p slot (withoutDeal e) (fun _ => ⟨rfl, rfl⟩) r.2
  by_cases hr : r.1 = true
  · have hway := ((hroom.trans hupd).route e.1 (y.place e.2.1).1).trans hroute
    have hsent : shareSend e.1 { y with outDeals := kept ++ e :: rest } e.2.1 (fun pt pn => .deal pt pn e.2.2) (updSession p slot (withoutDeal e) r.2) =
        emit (dealOutput y e) (updSession p slot (withoutDeal e) r.2) := by
      rw [shareSend]
      change (match shareRoute _ e.1 (y.place e.2.1).1 with | .lost n r => _ | .refused => _ | .send => _) = _
      rw [hway]
      rfl
    rw [if_pos hr, hsent, if_pos hr, if_pos hr]
    refine ⟨(hroom.trans hupd).trans (.emit ..), ?_, ?_, fun z hplace hz => hhere z hplace hz⟩
    · exact congrArg (· ++ [dealOutput y e]) (hsame p slot).2
    · have hold := (hsame p slot).1.trans hsession
      have hnew := sessionOf_updSession p slot (withoutDeal e) r.2
      rw [hold] at hnew
      refine Eq.trans hnew ?_
      rw [Option.map_some, withoutDeal]
      dsimp only
      rw [List.erase_append_right _ hne, List.erase_cons_head, List.append_nil]
  · rw [if_neg hr, if_neg hr, if_neg hr]
    refine ⟨hroom, ?_, ?_, fun z hplace hz => hhere z hplace hz⟩
    · rw [(hsame p slot).2, List.append_nil]
    · rw [(hsame p slot).1, hsession, List.append_assoc]
      rfl

/-- The waiting deliveries, tried in turn: each goes where its party has room. -/
theorem flush_spec (l : List (DieIx × Nat × DealMsg)) : ∀ (kept : List (DieIx × Nat × DealMsg)) (s : State),
    sessionOf s p slot = some { y with outDeals := kept ++ l } → ((kept ++ l).map (·.2.1)).Nodup →
    (∀ e ∈ l, shareRoute s e.1 (y.place e.2.1).1 = .send) →
    ∃ sent : Nat → Bool, Delivering s (l.foldl (fun s e => sendDeal p slot e s) s) ∧
      (l.foldl (fun s e => sendDeal p slot e s) s).out = s.out ++ (l.filter fun e => sent e.2.1).map (dealOutput y) ∧
      sessionOf (l.foldl (fun s e => sendDeal p slot e s) s) p slot = some { y with outDeals := kept ++ l.filter fun e => !sent e.2.1 } ∧
      ∀ e ∈ l, (y.place e.2.1).1 = s.fabric.partId → ∀ z, (partOfIx s (dieBits (y.place e.2.1).2)).sessions.find? (fun w => w.2.tag == y.tag) = some z →
        sent e.2.1 = decide (diff32 (e.2.2.dealSeq + e.2.2.a.length) z.2.consumed ≤ y.cap) := by
  induction l with
  | nil => exact fun kept s h _ _ => ⟨fun _ => true, .refl s, (List.append_nil _).symm, h, fun e he => absurd he List.not_mem_nil⟩
  | cons e l ih =>
    intro kept s hsession hnodup hroute
    have happ : kept ++ e :: l = (kept ++ [e]) ++ l := by simp
    have hparts : (kept.map (·.2.1)).Disjoint ((e :: l).map (·.2.1)) := by
      rw [List.map_append] at hnodup
      exact List.disjoint_of_nodup_append hnodup
    have hkept : ∀ k ∈ kept, k.2.1 ≠ e.2.1 := fun k hk heq =>
      hparts (List.mem_map_of_mem hk) (by rw [List.map_cons, heq]; exact List.mem_cons_self ..)
    have htail : ∀ k ∈ l, k.2.1 ≠ e.2.1 := by
      have hnodup' : ((e :: l).map (·.2.1)).Nodup := by
        rw [List.map_append] at hnodup
        exact hnodup.of_append_right
      rw [List.map_cons, List.nodup_cons] at hnodup'
      exact fun k hk heq => hnodup'.1 (heq ▸ List.mem_map_of_mem (f := fun e => e.2.1) hk)
    obtain ⟨room, hstep, hout, hnew, hroom⟩ := sendDeal_spec hsession hkept (hroute e (List.mem_cons_self ..))
    have hrest : (((kept ++ if room then [] else [e]) ++ l).map (·.2.1)).Nodup := by
      refine hnodup.sublist (List.Sublist.map _ ?_)
      rw [happ]
      refine List.Sublist.append (List.Sublist.append (List.Sublist.refl _) ?_) (List.Sublist.refl _)
      split
      · exact List.nil_sublist _
      · exact List.Sublist.refl _
    obtain ⟨sent, hrun, hout', hlast, hsent⟩ := ih _ _ hnew hrest fun k hk => by
      rw [hstep.route]
      exact hroute k (List.mem_cons_of_mem _ hk)
    refine ⟨Function.update sent e.2.1 room, hstep.trans hrun, ?_, ?_, ?_⟩
    · rw [List.foldl_cons, hout', hout, List.append_assoc, List.filter_cons]
      simp only [Function.update_self]
      have hsame : (l.filter fun k => Function.update sent e.2.1 room k.2.1) = l.filter fun k => sent k.2.1 :=
        List.filter_congr fun k hk => Function.update_of_ne (htail k hk) ..
      rw [hsame]
      cases room <;> rfl
    · rw [List.foldl_cons, hlast, List.filter_cons]
      simp only [Function.update_self]
      have hsame : (l.filter fun k => !Function.update sent e.2.1 room k.2.1) = l.filter fun k => !sent k.2.1 :=
        List.filter_congr fun k hk => by rw [Function.update_of_ne (htail k hk)]
      rw [hsame]
      cases room <;> simp
    · intro k hk hplace z hz
      rcases List.mem_cons.mp hk with rfl | hk
      · rw [Function.update_self]
        exact hroom z hplace hz
      · rw [Function.update_of_ne (htail k hk)]
        obtain ⟨w, hw, hsame⟩ := hstep.consumed _ _ z hz
        rw [hsent k hk (hplace.trans (congrArg Fabric.partId (hstep.frame .fabric (by decide))).symm) w hw, hsame]

end Flush

/-! #### DEAL (R157) -/

/-- Vectors of one length are drawn. -/
theorem drawVecs_drawn (q n k : Nat) (s : State) : ∃ rs : List (List Nat), rs.length = k ∧ (∀ r ∈ rs, r.length = n) ∧
    drawVecs q n k s = (rs, { s with free := s.free + k }) := by
  obtain ⟨hlen, hall, hstate⟩ := drawVecs_spec q n k s
  exact ⟨_, hlen, hall, Prod.ext rfl hstate⟩

/-- The triples of a deal: each party's shares, of one length, and their sums a product. -/
structure Triples (q n parties : Nat) (as bs cs : List (List Nat)) : Prop where
  lengths : as.length = parties - 1 + 1 ∧ bs.length = parties - 1 + 1 ∧ cs.length = parties - 1 + 1
  widths : ∀ l ∈ [as, bs, cs], ∀ r ∈ l, r.length = n
  product : sumVecs q n cs = limbMul q (sumVecs q n as) (sumVecs q n bs)

/-- The delivery to a party. -/
def dealTo (j : Job) (x : Session) (as bs cs : List (List Nat)) (i : Nat) : DealMsg :=
  { part := j.part, port := none, epoch := j.epoch % 2 ^ 16, tag := BitVec.ofNat 64 x.tag, dealSeq := x.dealSeq,
    a := as.getD i [], b := bs.getD i [], c := cs.getD i [] }

/-- A dealer's session once it has dealt n triples: the deliveries wait. -/
def dealtSession (d : DieIx) (n : Nat) (x : Session) (msg : Nat → DealMsg) (y : Session) : Session :=
  { y with dealSeq := (x.dealSeq + n) % 2 ^ 32, outDeals := y.outDeals ++ (List.range x.parties).map fun i => (d, i, msg i) }

/-- The operation of a DEAL. -/
def dealOp (a : Site) (j : Job) (x : Session) (n : Nat) : Op :=
  { opZero 0 j.id a.queue a.off 1 with cost := ceilDiv ((2 + 3 * (x.parties - 1)) * n * 8) 64 }

/-- What a DEAL asks for (R157). -/
structure DealReady (s : State) (a : Site) (j : Job) (x : Session) (slot n : Nat) : Prop where
  ready : Ready s a j
  session : sessionOf s j.part slot = some x
  dealer : x.self = 3
  some_triple : 1 ≤ n
  room : n ≤ x.cap
  idle : x.outDeals = []
  routes : ∀ i < x.parties, shareRoute s a.die (x.place i).1 = .send ∧ ((x.place i).1 ≠ s.fabric.partId → partRefused s j (x.place i).1 = .pass)
  modulus : 1 ≤ ringOfSession s j.part x

section Deal

variable {s : State} {a : Site} {j : Job} {x : Session} {slot n : Nat}

theorem sendRefused_of_routes {d : DieIx} {ps : List Nat} (h : ∀ i ∈ ps, shareRoute s d (x.place i).1 = .send) : sendRefused s d x ps = false :=
  List.any_eq_false.mpr fun i hi => by
    rw [h i hi]
    decide

theorem partyCheck_pass {ps : List Nat} (h : ∀ i ∈ ps, (x.place i).1 ≠ s.fabric.partId → partRefused s j (x.place i).1 = .pass) :
    partyCheck s j x ps = .pass := by
  refine firstFail_pass fun v hv => ?_
  obtain ⟨i, hi, rfl⟩ := List.mem_map.mp hv
  obtain ⟨hmem, hplace⟩ := List.mem_filter.mp hi
  exact h i hmem (by simpa using hplace)

namespace DealReady

theorem passes (h : DealReady s a j x slot n) : firstFail [failIf (x.self != 3) (.refuse 0x0102 0x0102),
    failIf (n == 0 || decide (x.cap < n)) (.refuse 0x0105 0x0105), partyCheck s j x (List.range x.parties),
    failIf (sendRefused s a.die x (List.range x.parties)) (.refuse 0x0105 0x0105)] = .pass := by
  have hself : (x.self != 3) = false := by simp [h.dealer]
  have hcount : (n == 0 || decide (x.cap < n)) = false := by
    have hone := h.some_triple
    have hcap := h.room
    simp
    omega
  rw [hself, hcount, partyCheck_pass fun i hi => (h.routes i (List.mem_range.mp hi)).2,
    sendRefused_of_routes fun i hi => (h.routes i (List.mem_range.mp hi)).1]
  rfl

/-- A DEAL draws its triples, lets their deliveries wait and sends those that have room. -/
theorem issue (h : DealReady s a j x slot n) : ∃ as bs cs F, Triples (ringOfSession s j.part x) n x.parties as bs cs ∧
    issueDeal a slot n j s = .done (startOp a.die (dealOp a j x n) [] (flushDeals j.part slot
      (updSession j.part slot (dealtSession a.die n x (dealTo j x as bs cs)) { s with free := F }))) := by
  obtain ⟨ra, hla, hwa, hra⟩ := drawVecs_drawn (ringOfSession s j.part x) n (x.parties - 1) { s with free := s.free + 1 + 1 }
  obtain ⟨rb, hlb, hwb, hrb⟩ := drawVecs_drawn (ringOfSession s j.part x) n (x.parties - 1) { s with free := s.free + 1 + 1 + (x.parties - 1) }
  obtain ⟨rc, hlc, hwc, hrc⟩ := drawVecs_drawn (ringOfSession s j.part x) n (x.parties - 1)
    { s with free := s.free + 1 + 1 + (x.parties - 1) + (x.parties - 1) }
  have hda := drawElems_length (ringOfSession s j.part x) n s
  have hdb := drawElems_length (ringOfSession s j.part x) n { s with free := s.free + 1 }
  have hdraw : issueDeal a slot n j s = .done (startOp a.die (dealOp a j x n) [] (flushDeals j.part slot
      (updSession j.part slot (dealtSession a.die n x (dealTo j x
        (splitVec (ringOfSession s j.part x) (drawElems (ringOfSession s j.part x) n s).1 ra)
        (splitVec (ringOfSession s j.part x) (drawElems (ringOfSession s j.part x) n { s with free := s.free + 1 }).1 rb)
        (splitVec (ringOfSession s j.part x) (limbMul (ringOfSession s j.part x) (drawElems (ringOfSession s j.part x) n s).1
          (drawElems (ringOfSession s j.part x) n { s with free := s.free + 1 }).1) rc)))
        { s with free := s.free + 1 + 1 + (x.parties - 1) + (x.parties - 1) + (x.parties - 1) }))) := by
    have hgo : (Verdict.pass != Verdict.pass) = false := by decide
    rw [issueDeal, h.session]
    dsimp only
    rw [h.passes, hgo, if_neg (by decide), drawElems_eq _ _ s]
    dsimp only
    rw [drawElems_eq _ _ { s with free := s.free + 1 }]
    dsimp only
    rw [hra]
    dsimp only
    rw [hrb]
    dsimp only
    rw [hrc]
    rfl
  generalize drawElems (ringOfSession s j.part x) n s = va at hda hdraw
  generalize drawElems (ringOfSession s j.part x) n { s with free := s.free + 1 } = vb at hdb hdraw
  have hq : 0 < ringOfSession s j.part x := h.modulus
  have hdc : (limbMul (ringOfSession s j.part x) va.1 vb.1).length = n := by simp [limbMul, hda, hdb]
  refine ⟨_, _, _, _, ⟨⟨by simp [splitVec, hla], by simp [splitVec, hlb], by simp [splitVec, hlc]⟩, fun l hl => ?_,
    splitVec_product hq hwa hwb hwc hda hdb⟩, hdraw⟩
  simp only [List.mem_cons, List.not_mem_nil, or_false] at hl
  rcases hl with rfl | rfl | rfl
  · exact (splitVec_spec hq hwa hda).1
  · exact (splitVec_spec hq hwb hdb).1
  · exact (splitVec_spec hq hwc hdc).1

end DealReady

end Deal

end Sys2Proof.Machine

namespace Sys2Proof.Machine

section Deal

variable {s t : State} {a : Site} {j : Job} {x : Session} {slot n : Nat} {q : Nat}

theorem Delivering.poised (h : Delivering s t) (hnext : t.nextId = s.nextId) : Poised a j s t :=
  ⟨by rw [dieOf, dieOf, h.dies], by rw [dieOf, dieOf, h.dies], hnext, fun e _ => by rw [dieOf, dieOf, h.dies], by rw [h.jobs], fun k hk _ => h.jobs ▸ hk⟩

theorem map_getD_range {α : Type} (l : List α) (z : α) : (List.range l.length).map (fun i => l.getD i z) = l :=
  List.ext_getElem (by simp) fun i hi hi' => by
    rw [List.getElem_map, List.getElem_range]
    exact List.getD_eq_getElem _ _ hi'

/-- The deliveries of a deal, one to each party. -/
def dealsOf (j : Job) (x : Session) (as bs cs : List (List Nat)) : List DealMsg := (List.range x.parties).map (dealTo j x as bs cs)

/-- What the parties get adds up to a product, also where there is no party. -/
theorem dealsOf_product {as bs cs : List (List Nat)} (h : Triples q n x.parties as bs cs) :
    sumVecs q n ((dealsOf j x as bs cs).map (·.c)) =
      limbMul q (sumVecs q n ((dealsOf j x as bs cs).map (·.a))) (sumVecs q n ((dealsOf j x as bs cs).map (·.b))) := by
  have hshares : ∀ (f : DealMsg → List Nat) (l : List (List Nat)), (∀ i, f (dealTo j x as bs cs i) = l.getD i []) → l.length = x.parties →
      (dealsOf j x as bs cs).map f = l := fun f l hf hl => by
    rw [dealsOf, List.map_map, ← hl]
    exact (List.map_congr_left fun i _ => hf i).trans (map_getD_range l [])
  rcases Nat.eq_zero_or_pos x.parties with hnone | hsome
  · have hempty : dealsOf j x as bs cs = [] := by rw [dealsOf, hnone]; rfl
    rw [hempty]
    simp [sumVecs, limbMul]
  · obtain ⟨hla, hlb, hlc⟩ := h.lengths
    rw [Nat.sub_add_cancel hsome] at hla hlb hlc
    rw [hshares (·.a) as (fun _ => rfl) hla, hshares (·.b) bs (fun _ => rfl) hlb, hshares (·.c) cs (fun _ => rfl) hlc]
    exact h.product

theorem dealsOf_fields {as bs cs : List (List Nat)} (h : Triples q n x.parties as bs cs) : ∀ m ∈ dealsOf j x as bs cs,
    m.part = j.part ∧ m.epoch = j.epoch % 2 ^ 16 ∧ m.tag = BitVec.ofNat 64 x.tag ∧ m.dealSeq = x.dealSeq ∧ m.a.length = n ∧ m.b.length = n ∧ m.c.length = n := by
  intro m hm
  obtain ⟨i, hi, rfl⟩ := List.mem_map.mp hm
  have hparty := List.mem_range.mp hi
  obtain ⟨hla, hlb, hlc⟩ := h.lengths
  have hwidth : ∀ l ∈ [as, bs, cs], l.length = x.parties - 1 + 1 → (l.getD i []).length = n := fun l hl hlen => by
    have hin : i < l.length := by omega
    rw [List.getD_eq_getElem _ _ hin]
    exact h.widths l hl _ (List.getElem_mem hin)
  exact ⟨rfl, rfl, rfl, rfl, hwidth as (by simp) hla, hwidth bs (by simp) hlb, hwidth cs (by simp) hlc⟩

/-- What a DEAL leaves (R157). -/
structure Dealt (a : Site) (j : Job) (x : Session) (slot n : Nat) (s : State) (sent : Nat → Bool) (ms : List DealMsg) (o : Op) (t : State) : Prop where
  out : t.out = s.out ++ (((List.range x.parties).zip ms).filter fun y => sent y.1).map (fun y => Output.deal (x.place y.1).1 (x.place y.1).2 y.2)
  session : sessionOf t j.part slot = some { x with
    dealSeq := (x.dealSeq + n) % 2 ^ 32, outDeals := (((List.range x.parties).zip ms).filter fun y => !(sent y.1)).map fun y => (a.die, y.1, y.2) }
  known : ∀ i < x.parties, (x.place i).1 = s.fabric.partId →
    ∀ y, (partOfIx s (dieBits (x.place i).2)).sessions.find? (fun y => y.2.tag == x.tag) = some y →
      sent i = decide (diff32 (x.dealSeq + n) y.2.consumed ≤ x.cap)
  flight : InFlight a j 1 [] o s t
  scratch : (dieOf t a.die).scratch = (dieOf s a.die).scratch
  rest : scratchRest (dieOf t a.die) = scratchRest (dieOf s a.die)
  frame : Frame [.dies, .jobs, .nextId, .parts, .out, .free] s t

/-- The deliveries of a deal that go where there is room. -/
theorem dealt_flush (h : DealReady s a j x slot n) {as bs cs : List (List Nat)} (htriples : Triples q n x.parties as bs cs) (F : Nat) :
    ∃ o, ∃ sent : Nat → Bool, Dealt a j x slot n s sent (dealsOf j x as bs cs) o (startOp a.die (dealOp a j x n) [] (flushDeals j.part slot
      (updSession j.part slot (dealtSession a.die n x (dealTo j x as bs cs)) { s with free := F }))) := by
  have hbegin : Delivering s (updSession j.part slot (dealtSession a.die n x (dealTo j x as bs cs)) { s with free := F }) :=
    (Delivering.free F s).trans (.updSession j.part slot (dealtSession a.die n x (dealTo j x as bs cs)) (fun _ => ⟨rfl, rfl⟩) _)
  have hout : (updSession j.part slot (dealtSession a.die n x (dealTo j x as bs cs)) { s with free := F }).out = s.out := rfl
  have hsession : sessionOf (updSession j.part slot (dealtSession a.die n x (dealTo j x as bs cs)) { s with free := F }) j.part slot =
      some { x with dealSeq := (x.dealSeq + n) % 2 ^ 32, outDeals := [] ++ (List.range x.parties).map fun i => (a.die, i, dealTo j x as bs cs i) } := by
    have hold : sessionOf { s with free := F } j.part slot = some x := h.session
    rw [sessionOf_updSession, hold, Option.map_some, dealtSession, h.idle]
  have hnext : (updSession j.part slot (dealtSession a.die n x (dealTo j x as bs cs)) { s with free := F }).nextId = s.nextId := rfl
  have hfabric : (updSession j.part slot (dealtSession a.die n x (dealTo j x as bs cs)) { s with free := F }).fabric = s.fabric := rfl
  generalize updSession j.part slot (dealtSession a.die n x (dealTo j x as bs cs)) { s with free := F } = u at hbegin hout hsession hnext hfabric ⊢
  have hnodup : (([] ++ (List.range x.parties).map fun i => (a.die, i, dealTo j x as bs cs i)).map fun e : DieIx × Nat × DealMsg => e.2.1).Nodup := by
    rw [List.nil_append, List.map_map]
    exact (List.map_id _).symm ▸ List.nodup_range
  obtain ⟨sent, hsent, hout', hlast, hknown⟩ := flush_spec (y := { x with dealSeq := (x.dealSeq + n) % 2 ^ 32 }) _ [] u hsession hnodup fun e he => by
    obtain ⟨i, hi, rfl⟩ := List.mem_map.mp he
    rw [hbegin.route]
    exact (h.routes i (List.mem_range.mp hi)).1
  have hflush : flushDeals j.part slot u = ((List.range x.parties).map fun i => (a.die, i, dealTo j x as bs cs i)).foldl (fun s e => sendDeal j.part slot e s) u := by
    rw [flushDeals, hsession]
    rfl
  rw [← hflush] at hsent hout' hlast
  have hwhole : Delivering s (flushDeals j.part slot u) := hbegin.trans hsent
  have hnext' : (flushDeals j.part slot u).nextId = s.nextId := (hsent.frame .nextId (by decide)).trans hnext
  have hstart := startOp_frame a.die (dealOp a j x n) [] (flushDeals j.part slot u)
  have hkeep : sessionOf (startOp a.die (dealOp a j x n) [] (flushDeals j.part slot u)) j.part slot = sessionOf (flushDeals j.part slot u) j.part slot :=
    hstart.partField (by decide) (fun y => tblGet y.sessions slot) (fun _ => rfl) j.part
  have hdie : dieOf (flushDeals j.part slot u) a.die = dieOf s a.die := by rw [dieOf, dieOf, hwhole.dies]
  refine ⟨_, sent, ⟨?_, ?_, fun i hi hplace y hy => ?_, (hwhole.poised (a := a) (j := j) hnext').startOp (o := dealOp a j x n) [] rfl rfl rfl, ?_, ?_, (Frame.then hwhole.frame hstart).mono (by decide)⟩⟩
  · rw [hstart .out (by decide), hout', hout, dealsOf, ← List.map_prod_left_eq_zip, List.filter_map, List.filter_map, List.map_map, List.map_map]
    rfl
  · rw [hkeep, hlast, dealsOf, ← List.map_prod_left_eq_zip, List.filter_map, List.filter_map, List.map_map]
    rfl
  · obtain ⟨z, hz, hsame⟩ := hbegin.consumed _ _ y hy
    have hmem : (a.die, i, dealTo j x as bs cs i) ∈ (List.range x.parties).map fun i => (a.die, i, dealTo j x as bs cs i) :=
      List.mem_map_of_mem (f := fun i => (a.die, i, dealTo j x as bs cs i)) (List.mem_range.mpr hi)
    have hroom := hknown _ hmem (hplace.trans (congrArg Fabric.partId hfabric).symm) z hz
    have hlen : (dealTo j x as bs cs i).a.length = n :=
      (dealsOf_fields htriples _ (List.mem_map_of_mem (f := dealTo j x as bs cs) (List.mem_range.mpr hi))).2.2.2.2.1
    rw [hroom, hlen, hsame]
    rfl
  · rw [startOp_dieField _ _ _ _ Die.scratch fun _ _ _ => rfl, hdie]
  · rw [startOp_dieField _ _ _ _ scratchRest fun _ _ _ => rfl, hdie]

/-- DEAL splits n random triples among the parties (R157). -/
theorem deal_spec (h : DealReady s a j x slot n) : ∃ t, exec (.deal a slot n) s = .next t ∧ ∃ o ms, ∃ sent : Nat → Bool, ms.length = x.parties ∧
    (∀ m ∈ ms, m.part = j.part ∧ m.epoch = j.epoch % 2 ^ 16 ∧ m.tag = BitVec.ofNat 64 x.tag ∧ m.dealSeq = x.dealSeq ∧ m.a.length = n ∧
      m.b.length = n ∧ m.c.length = n) ∧
    sumVecs (ringOfSession s j.part x) n (ms.map (·.c)) = limbMul (ringOfSession s j.part x)
      (sumVecs (ringOfSession s j.part x) n (ms.map (·.a))) (sumVecs (ringOfSession s j.part x) n (ms.map (·.b))) ∧
    Dealt a j x slot n s sent ms o t := by
  obtain ⟨as, bs, cs, F, htriples, hissue⟩ := h.issue
  obtain ⟨o, sent, hdealt⟩ := dealt_flush h htriples F
  exact ⟨_, congrArg ok (runInstr_done h.ready hissue), o, _, sent, by simp [dealsOf], dealsOf_fields htriples, dealsOf_product htriples, hdealt⟩

end Deal

end Sys2Proof.Machine

namespace Sys2Proof.Machine

section Arrivals

variable {s : State} {slot : Nat} {x : Session}

theorem seqBehind_of_le {a b : Nat} (h : 2 ^ 31 ≤ diff32 a b) : seqBehind a b = true := decide_eq_true h

/-- What a message of a peer meets: its exchange, another one, or one that is over (R158 to R161). -/
theorem message_met {m : ExMsg} {d : DieIx} {o : Op} {e : Exch} {j : Job} (hpeer : ∀ abort, messageIn m abort s = peerMessage slot x m abort s)
    (hsession : sessionOf s m.part slot = some x) (hmeets : meets s slot m = some (d, o, e)) (hop : opOf s d o.id = some o) (hexch : o.exch = some e)
    (hjob : jobOf s o.job = some j) :
    (m.openSeq = e.openSeq →
      (Agrees x e m → ∃ t, exec (.exchangeMessage m) s = .next t ∧
        opOf t d o.id = some { o with exch := some { e with got := e.got ++ [(m.party, m.body)] } } ∧
        { dieOf t d with ops := [] } = { dieOf s d with ops := [] } ∧ OtherDies d s t ∧ Frame [.dies] s t) ∧
      (¬Agrees x e m → ∃ t, exec (.exchangeMessage m) s = .next t ∧ OpFailed d o j 1 0x0102 s t) ∧
      ∃ t, exec (.abortMarker m) s = .next t ∧ OpFailed d o j 1 0x0107 s t) ∧
    (m.openSeq ≠ e.openSeq → diff32 m.openSeq e.openSeq < 2 ^ 31 → ∃ t, exec (.exchangeMessage m) s = .next t ∧ OpFailed d o j 1 0x0102 s t) ∧
    (2 ^ 31 ≤ diff32 m.openSeq e.openSeq → exec (.exchangeMessage m) s = .next (countLate d s)) := by
  obtain ⟨hpart, hslot⟩ := meets_exch hmeets
  have hsession' : sessionOf s e.part e.session = some x := by rw [hpart, hslot, hsession]
  have hrun : ∀ abort, messageIn m abort s = if seqBehind m.openSeq e.openSeq then countLate d s
      else if m.openSeq = e.openSeq then acceptMsg d o.id m abort s else failOp d o 1 0x0102 s :=
    fun abort => (hpeer abort).trans (peerMessage_meets hmeets abort)
  refine ⟨fun hseq => ?_, fun hne hlt => ?_, fun hbehind => ?_⟩
  · have htake : ∀ abort, messageIn m abort s = acceptMsg d o.id m abort s := fun abort => by
      rw [hrun, hseq, seqBehind_self, if_neg (by decide), if_pos rfl]
    refine ⟨fun hfits => ?_, fun hfits => ?_, ?_⟩
    · refine ⟨_, congrArg ok ((htake false).trans (acceptMsg_fits hop hexch hsession' hfits)), ?_, ?_, fun _ he => ?_, ?_⟩
      · refine (opOf_updOp (by exact fun _ => rfl) hop).trans ?_
        rw [hexch]
        rfl
      · rw [updOp, dieOf_updDie_self]
      · rw [updOp, dieOf_updDie_ne _ _ he]
      · exact updDie_frame_dies _ _ _ rfl
    · exact ⟨_, congrArg ok ((htake false).trans (acceptMsg_differs hop hexch hsession' hfits)), failOp_failed hjob ..⟩
    · exact ⟨_, congrArg ok ((htake true).trans (acceptMsg_abort hop hexch)), failOp_failed hjob ..⟩
  · refine ⟨_, congrArg ok (hrun false), ?_⟩
    rw [seqBehind_of_lt hlt, if_neg (by decide), if_neg hne]
    exact failOp_failed hjob ..
  · refine congrArg ok ((hrun false).trans ?_)
    rw [seqBehind_of_le hbehind, if_pos rfl]

/-- A message that no exchange waits for is kept for one to come (R161). -/
theorem message_early {m : ExMsg} (hpeer : messageIn m false s = peerMessage slot x m false s) (hsession : sessionOf s m.part slot = some x)
    (hmeets : meets s slot m = none) (hseq : diff32 m.openSeq x.openSeq < 2 ^ 31) : ∃ t, exec (.exchangeMessage m) s = .next t ∧
      sessionOf t m.part slot = some { x with early := x.early ++ [(m, false)] } ∧ Frame [.parts] s t := by
  unfold meets at hmeets
  have hkept : peerMessage slot x m false s = updSession m.part slot (fun y => { y with early := y.early ++ [(m, false)] }) s := by
    rw [peerMessage, hmeets]
    dsimp only
    rw [seqBehind_of_lt hseq, if_neg (by decide)]
  refine ⟨_, congrArg ok (hpeer.trans hkept), ?_, updSession_frame _ _ _ _⟩
  rw [sessionOf_updSession, hsession]
  rfl

/-- A message of a peer through a port, up to what the member and the epoch say of it. -/
theorem messageIn_port {m : ExMsg} {n : PortIx} (hbar : shareBarred s (some n) = none) (hport : m.port = some n)
    (htag : sessionOfTag s m.part m.tag.toNat = some (slot, x)) (hparty : m.party < x.parties) (hself : m.party ≠ x.self) :
    (memberHeld s (x.place m.party).1 = false → messageIn m false s = discard n 3 s) ∧
    (memberHeld s (x.place m.party).1 = true → m.epoch ∉ epochsHeld s → nextEpoch s m.epoch = true → (portOf s n).holdBuf.length < 64 →
      messageIn m false s = updPort n (fun p => { p with holdBuf := p.holdBuf ++ [.exchange m false] }) s) := by
  have hpeer : (peersOf x).contains m.party = true := by simp [peersOf, hparty, hself]
  have hfrom : fromMember s (some n) x m.party = memberHeld s (x.place m.party).1 := rfl
  refine ⟨fun hlost => ?_, fun hheld hepoch hnext hspace => ?_⟩
  · rw [messageIn, hport, hbar]
    dsimp only
    rw [htag]
    dsimp only
    rw [hpeer, hfrom, hlost, if_neg (by decide), if_pos (by decide)]
    rfl
  · have hcontains : (epochsHeld s).contains m.epoch = false := by simpa using hepoch
    rw [messageIn, hport, hbar]
    dsimp only
    rw [htag]
    dsimp only
    rw [hpeer, hfrom, hheld, if_neg (by decide), if_neg (by decide), epochBars, hcontains, if_neg (by decide), hnext, if_pos rfl, holdNext, if_pos hspace]

/-- A delivery that no rule bars, with none held for later (R157). -/
theorem deal_arrives {m : DealMsg} (hbar : shareBarred s m.port = none) (htag : sessionByTag s m.part m.tag.toNat = some (slot, x))
    (hsession : sessionOf s m.part slot = some x) (hself : x.self ≠ 3) (hseq : diff32 m.dealSeq x.dealSeq < 2 ^ 31) (hheld : x.heldDeals = [])
    (hfrom : m.port ≠ none → memberHeld s (x.place 3).1 = true) (hepoch : m.port ≠ none → m.epoch ∈ epochsHeld s) :
    (x.pool.length + diff32 m.dealSeq x.dealSeq + m.a.length ≤ x.cap → ∃ t, exec (.dealDelivery m) s = .next t ∧
      sessionOf t m.part slot = some (if m.dealSeq = x.dealSeq then
          { x with pool := x.pool ++ m.a.zip (m.b.zip m.c), dealSeq := (x.dealSeq + m.a.length) % 2 ^ 32 }
        else { x with heldDeals := [(m.dealSeq, m.a, m.b, m.c, m.a.length)] }) ∧ Frame [.parts] s t) ∧
    (¬x.pool.length + diff32 m.dealSeq x.dealSeq + m.a.length ≤ x.cap → exec (.dealDelivery m) s = .next s) := by
  have hrun := dealIn_taken hbar htag hself hseq hheld hfrom hepoch
  refine ⟨fun hroom => ?_, fun hroom => ?_⟩
  · have hfits : dealFits x m = true := decide_eq_true hroom
    rw [hfits] at hrun
    refine ⟨_, congrArg ok hrun, ?_, updSession_frame _ _ _ _⟩
    rw [Bool.not_true, if_neg (by decide), sessionOf_updSession, hsession, Option.map_some, appendDeals_one hheld fun hk => by
      have hzero : diff32 m.dealSeq x.dealSeq = 0 := by rw [hk]; simp [diff32]
      omega]
  · have hfits : dealFits x m = false := decide_eq_false hroom
    rw [hfits] at hrun
    exact congrArg ok hrun

/-- The limit on an exchange ends the earliest one that still waits (R155). -/
theorem exchangeTimeout_spec (p : PartIx) : (leastExch ((exchsOf s p slot).filter fun y => !(exchReady s y.2.2)) = none →
      exec (.exchangeTimeout p slot) s = .next s) ∧
    ∀ d o e j, leastExch ((exchsOf s p slot).filter fun y => !(exchReady s y.2.2)) = some (d, o, e) → jobOf s o.job = some j →
      ∃ t, exec (.exchangeTimeout p slot) s = .next t ∧ OpFailed d o j 1 0x0504 s t := by
  refine ⟨fun hnone => ?_, fun d o e j hsome hjob => ⟨failOp d o 1 0x0504 s, ?_, failOp_failed hjob ..⟩⟩
  · change execExchangeTimeout p slot s = _
    rw [execExchangeTimeout, hnone]
  · change execExchangeTimeout p slot s = _
    rw [execExchangeTimeout, hsome]

end Arrivals

/-- Settles O25: the shares of a DEAL add up because what is left of each vector is its last share, and each arrival is followed to
the exchange or the pool that takes it. -/
theorem dealsAndArrivals : Obligations.DealsAndArrivals := by
  unfold Obligations.DealsAndArrivals
  refine ⟨fun s a j x slot n hready hsession hself hone hcap hidle hroutes hmod => ?_, fun s slot x => ⟨?_, ?_, ?_, ?_, ?_, fun p => exchangeTimeout_spec p⟩⟩
  · obtain ⟨t, hexec, o, ms, sent, hlen, hfields, hproduct, hdealt⟩ := deal_spec ⟨hready, hsession, hself, hone, hcap, hidle, hroutes, hmod⟩
    exact ⟨t, hexec, o, ms, sent, hlen, hfields, hproduct, ⟨hdealt.out, hdealt.session⟩, hdealt.known, hdealt.flight, hdealt.scratch, hdealt.rest, hdealt.frame⟩
  · intro m hbar htag hsession hparty hself hfrom hepoch
    have hpeer := messageIn_peer hbar htag hparty hself hfrom hepoch
    exact ⟨fun d o e j hmeets hop hexch hjob => message_met hpeer hsession hmeets hop hexch hjob,
      fun hmeets hseq => message_early (hpeer false) hsession hmeets hseq⟩
  · intro m hbar
    obtain ⟨r, hr⟩ := Option.ne_none_iff_exists'.mp hbar
    have hdrop : ∀ abort, messageIn m abort s = dropShare m.port r s := fun abort => by rw [messageIn, hr]
    exact ⟨_, congrArg ok (hdrop false), congrArg ok (hdrop true), dropShare_barred hr⟩
  · intro m n hbar hport htag hparty hself
    obtain ⟨hlost, hnext⟩ := messageIn_port hbar hport htag hparty hself
    refine ⟨fun hmember => ⟨_, congrArg ok (hlost hmember), discard_discarded s n 3⟩, fun hmember hepoch heq hspace =>
      ⟨_, congrArg ok (hnext hmember hepoch (by simp [nextEpoch, heq]) hspace), ?_, updPort_frame _ _ _⟩⟩
    rw [portOf_updPort_self]
  · intro m hbar
    obtain ⟨r, hr⟩ := Option.ne_none_iff_exists'.mp hbar
    have hdrop : dealIn m s = dropShare m.port r s := by rw [dealIn, hr]
    exact ⟨_, congrArg ok hdrop, dropShare_barred hr⟩
  · intro m hbar htag hsession hself hseq hheld hfrom hepoch
    exact deal_arrives hbar htag hsession hself hseq hheld hfrom hepoch

end Sys2Proof.Machine

namespace Sys2Proof.Machine

/-! ### O24: share operations (R150 to R156) -/

section Congr

variable {ws : List Area} {s t : State}

theorem Frame.shareHdr (h : Frame ws s t) (hws : Area.dies ∉ ws) (d : DieIx) (k : Nat) : shareHdr t d k = shareHdr s d k := h.handleBytes hws d k 0 64

theorem Frame.shareIn (h : Frame ws s t) (hws : Area.dies ∉ ws) (d : DieIx) (k : Nat) : shareIn t d k = shareIn s d k := by
  simp only [Machine.shareIn, h.shareHdr hws, h.handleBytes hws]

theorem Frame.clearIn (h : Frame ws s t) (hws : Area.dies ∉ ws) (d : DieIx) (k m q : Nat) : clearIn t d k m q = clearIn s d k m q := by
  simp only [Machine.clearIn, h.handleBytes hws]

theorem Frame.sessionOf (h : Frame ws s t) (hws : Area.parts ∉ ws) (p : PartIx) (k : Nat) : sessionOf t p k = sessionOf s p k :=
  h.partField hws (fun y => tblGet y.sessions k) (fun _ => rfl) p

theorem Frame.ringOfSession (h : Frame ws s t) (hparts : Area.parts ∉ ws) (hfuses : Area.fuses ∉ ws) (p : PartIx) (x : Session) :
    ringOfSession t p x = ringOfSession s p x := by
  have hchain : Machine.chainOf t p x.chainId = Machine.chainOf s p x.chainId := h.partField hparts (fun y => tblGet y.chains x.chainId) (fun _ => rfl) p
  have hsame : t.fuses = s.fuses := h .fuses hfuses
  rw [Machine.ringOfSession, hchain, hsame, Machine.ringOfSession]

end Congr

section Share

variable {s : State} {a : Site} {mask : BitVec 8} {j : Job} {shares clears sd cd : List Nat} {x : Session} {slot n : Nat} {es : List SbEntry}

namespace ShrReady

theorem pre (h : ShrReady s a mask j shares clears sd cd x slot n es) : ShrOp.pre ⟨mask, shares, clears, sd, cd⟩ s a.die = .pass := by
  have hmask : (mask == 0) = false := by simpa using h.clusters
  have hsecret : (sd.any fun k => !(handleOf s a.die k).isSecret) = false := any_eq_false fun k hk => by rw [h.secret k hk]; rfl
  refine firstFail_pass fun v hv => ?_
  rcases List.mem_append.mp hv with hv | hv
  · obtain ⟨k, hk, rfl⟩ := List.mem_map.mp hv
    obtain ⟨hvalid, hring⟩ := h.handles k hk
    simp [handleUse, hvalid, hring]
  · dsimp only at hv
    rw [hmask, hsecret] at hv
    simpa [failIf] using hv

variable {u : State}

theorem poison (h : ShrReady s a mask j shares clears sd cd x slot n es) (hu : Frame [.counters] s u) : sharePoison u a.die shares clears = .pass := by
  have hnone : ((shares ++ clears).findSome? fun k => (handleOf u a.die k).pe) = none := List.findSome?_eq_none_iff.mpr fun k hk => by
    rw [hu.handleOf (by decide), Handle.pe, h.clean k hk]
    rfl
  have hclean : (shares.any fun k => headerSound (shareHdr u a.die k) && (headerOfBytes (shareHdr u a.die k)).poisoned) = false :=
    any_eq_false fun k hk => by
      rw [hu.shareHdr (by decide), (h.objects k hk).2.1, Bool.and_false]
  rw [sharePoison, hnone, hclean]
  rfl

/-- The header that the first share operand names. -/
theorem head (h : ShrReady s a mask j shares clears sd cd x slot n es) (hsome : shares ≠ []) :
    (headerOfBytes (shareHdr s a.die (shares.headD 0))).logN = n ∧ (headerOfBytes (shareHdr s a.die (shares.headD 0))).logSlots = slot := by
  obtain ⟨k, ks, rfl⟩ := List.exists_cons_of_ne_nil hsome
  obtain ⟨-, -, -, hlogn, hslots⟩ := h.objects k (List.mem_cons_self ..)
  exact ⟨hlogn, hslots⟩

theorem checks (h : ShrReady s a mask j shares clears sd cd x slot n es) (hsome : shares ≠ []) (hu : Frame [.counters] s u) :
    shareChecks u a.die j.part shares = .pass := by
  obtain ⟨k, ks, rfl⟩ := List.exists_cons_of_ne_nil hsome
  obtain ⟨-, -, -, hlogn, hslots⟩ := h.objects k (List.mem_cons_self ..)
  have hhead : ((List.map headerOfBytes (List.map (shareHdr u a.die) (k :: ks))).headD headerZero) = headerOfBytes (shareHdr s a.die k) := by
    rw [List.map_cons, List.map_cons, List.headD_cons, hu.shareHdr (by decide)]
  have hform : ((List.map (shareHdr u a.die) (k :: ks)).any fun b => !(shareHeadOk b)) = false := any_eq_false fun b hb => by
    obtain ⟨i, hi, rfl⟩ := List.mem_map.mp hb
    rw [hu.shareHdr (by decide), (h.objects i hi).1]
    rfl
  have hfields : ∀ y ∈ List.map headerOfBytes (List.map (shareHdr u a.die) (k :: ks)),
      (y.scheme = x.ring ∧ y.chainId = x.chainId ∧ y.paramSet = x.paramSet ∧ y.keysetTag = x.tag) ∧ y.logN = n ∧ y.logSlots = slot := fun y hy => by
    rw [List.map_map] at hy
    obtain ⟨i, hi, rfl⟩ := List.mem_map.mp hy
    obtain ⟨-, -, hmatch, hn, hslot⟩ := h.objects i hi
    rw [Function.comp_apply, hu.shareHdr (by decide)]
    simp only [shareMatches, Bool.and_eq_true, beq_iff_eq, and_assoc] at hmatch
    exact ⟨hmatch, hn, hslot⟩
  have hchain : (x.ring == 1 && (chainOf u j.part x.chainId).isNone) = false := by
    rw [hu.chainOf (by decide)]
    cases hring : (x.ring == 1) with
    | false => rfl
    | true => rw [← Option.not_isSome, h.chain (by simpa using hring)]; rfl
  have hring : (List.map headerOfBytes (List.map (shareHdr u a.die) (k :: ks))).any (fun y => y.scheme != x.ring || y.logN != (headerOfBytes (shareHdr s a.die k)).logN ||
      y.chainId != x.chainId || y.paramSet != x.paramSet) = false := any_eq_false fun y hy => by
    obtain ⟨⟨hscheme, hid, hset, -⟩, hn, -⟩ := hfields y hy
    simp [hscheme, hid, hset, hn, hlogn]
  have htag : (List.map headerOfBytes (List.map (shareHdr u a.die) (k :: ks))).any (fun y => y.keysetTag != x.tag || y.logSlots != slot) = false := any_eq_false fun y hy => by
    obtain ⟨⟨-, -, -, htag⟩, -, hslot⟩ := hfields y hy
    simp [htag, hslot]
  unfold shareChecks
  dsimp only
  rw [hhead, hform, hslots, hu.sessionOf (by decide), h.session]
  dsimp only
  rw [hring, htag, hchain]
  rfl

theorem fit (h : ShrReady s a mask j shares clears sd cd x slot n es) (hu : Frame [.counters] s u) :
    ShrOp.fits ⟨mask, shares, clears, sd, cd⟩ u a.die x.ring n = .pass := by
  have hrows : shareFits u a.die x.ring n (shares ++ sd) = true := List.all_eq_true.mpr fun k hk => by
    rw [hu.handleOf (by decide)]
    exact decide_eq_true (h.rows k hk)
  have hclear : clearFits u a.die n (clears ++ cd) = true := List.all_eq_true.mpr fun k hk => by
    rw [hu.handleOf (by decide)]
    exact decide_eq_true (h.clear_rows k hk)
  rw [ShrOp.fits, hrows, hclear]
  rfl

end ShrReady

/-- A share operation whose checks pass runs. -/
theorem issueShr_run {late : Session → Nat → Verdict} {poisoned : Session → Nat → Nat → State → State}
    {go : Job → Session → Nat → Nat → List SbEntry → State → Issued} (h : ShrReady s a mask j shares clears sd cd x slot n es) (hsome : shares ≠ [])
    (hlate : late x n = .pass) : ∃ m, issueShr a ⟨mask, shares, clears, sd, cd⟩ late poisoned go j s = go j x slot n es (count a.die 2 m s) := by
  obtain ⟨m, hadmit⟩ := h.admitted
  have hcount := count_frame a.die 2 m s
  obtain ⟨hlogn, hslots⟩ := h.head hsome
  have hgo : (Verdict.pass != Verdict.pass) = false := by decide
  have hlast : firstFail [ShrOp.fits ⟨mask, shares, clears, sd, cd⟩ (count a.die 2 m s) a.die x.ring n, late x n] = .pass := by
    rw [h.fit hcount, hlate]
    rfl
  refine ⟨m, ?_⟩
  unfold issueShr
  dsimp only
  rw [h.pre, hgo, if_neg (by decide), ShrOp.ranges, withScoreboard_admitted h.ready.fresh hadmit, h.poison hcount, hgo, if_neg (by decide), h.checks hsome hcount, hgo,
    if_neg (by decide), hcount.shareHdr (by decide), hslots, hlogn, hcount.sessionOf (by decide), h.session]
  dsimp only
  rw [hlast, hgo, if_neg (by decide)]

/-! #### Local operations (R152) -/

/-- A local share operation has written its share object and is in flight. -/
structure ShareLocal (a : Site) (j : Job) (x : Session) (slot n dst : Nat) (es : List SbEntry) (out : List Nat) (s t : State) : Prop where
  scratch : (dieOf t a.die).scratch = memPut (dieOf s a.die).scratch ((handleOf s a.die dst).base * 288) (shareObject x slot n out)
  rest : scratchRest (dieOf t a.die) = scratchRest (dieOf s a.die)
  flight : ∃ o, InFlight a j 1 es o s t
  frame : Frame [.dies, .counters, .jobs, .nextId] s t

/-- The bytes of a share object in a handle. -/
theorem putShare_scratch (d : DieIx) (k : Nat) (xs : List Nat) (u : State) : (dieOf (putShare d k (shareHead x slot n) xs u) d).scratch =
    memPut (dieOf u d).scratch ((handleOf u d k).base * 288) (shareObject x slot n xs) := by
  rw [putShare, putHandle, dieOf_updDie_self, shareObject, Nat.add_zero, rowBytes, shareHead]

theorem putShare_written (d : DieIx) (k : Nat) (xs : List Nat) (u : State) : ScratchWritten d u (putShare d k (shareHead x slot n) xs u) := .putHandle ..

/-- The operation of a local share operation. -/
def shareOp (a : Site) (j : Job) (mask : BitVec 8) (srcs : List Nat) (dst cost : Nat) : Op :=
  { opZero 0 j.id a.queue a.off 1 with dests := [.handle a.die dst], srcs := srcs.map fun h => .handle a.die h, clusters := mask, cost := cost }

/-- A share object written, and its operation started. -/
theorem shareLocal_of (srcs : List Nat) (cost m dst : Nat) (xs : List Nat) :
    ShareLocal a j x slot n dst es xs s (startOp a.die (shareOp a j mask srcs dst cost) es (putShare a.die dst (shareHead x slot n) xs (count a.die 2 m s))) := by
  have hcount := count_frame a.die 2 m s
  have hwrite := putShare_written (x := x) (slot := slot) (n := n) a.die dst xs (count a.die 2 m s)
  refine ⟨?_, ?_, ⟨_, ((Poised.count ..).trans hwrite.lands.poised).startOp (o := shareOp a j mask srcs dst cost) es rfl rfl rfl⟩,
    (Frame.then (Frame.then hcount hwrite.lands.frame) (startOp_frame a.die _ es _)).mono (by decide)⟩
  · rw [startOp_dieField _ _ _ _ Die.scratch fun _ _ _ => rfl, putShare_scratch, hcount.scratch (by decide), hcount.handleOf (by decide)]
  · rw [startOp_dieField _ _ _ _ scratchRest fun _ _ _ => rfl, hwrite.field scratchRest fun _ => rfl,
      hcount.dieField (by decide) scratchRest fun _ => rfl]

/-- A local share operation writes what its function gives. -/
theorem shrLocal_done {dst : Nat} (h : ShrReady s a mask j shares clears [dst] [] x slot n es) (hsome : shares ≠ []) (i : Instr) (k : Nat)
    {f : State → Session → Nat → Nat → List Nat} (hf : ∀ m q, f (count a.die 2 m s) x q n = f s x q n) :
    ShareLocal a j x slot n dst es (f s x (ringOfSession s j.part x) n) s (shrLocal a i mask shares clears dst k f s) := by
  obtain ⟨m, hrun⟩ := issueShr_run (late := fun _ _ => .pass) (poisoned := fun _ _ _ s => s) (go := fun j x slot n es s =>
    .done (startOp a.die (shareOp a j mask (shares ++ clears) dst (shareCost mask x.ring n k)) es
      (putShare a.die dst (shareHead x slot n) (f s x (ringOfSession s j.part x) n) s))) h hsome rfl
  rw [hf, (count_frame a.die 2 m s).ringOfSession (by decide) (by decide)] at hrun
  have hdone : shrLocal a i mask shares clears dst k f s = _ := runInstr_done h.ready hrun
  rw [hdone]
  exact shareLocal_of _ _ m dst _

/-- SHR_SMUL scales by its register modulo the ring (R152). -/
theorem shrSmul_done {k sc dst : Nat} (h : ShrReady s a mask j [k] [] [dst] [] x slot n es) (hbusy : scalarBusy s a.die [sc] = false)
    (hclean : sc ∉ (dieOf s a.die).scalarPoison) : ∃ t, exec (.shrSmul a mask k sc dst) s = .next t ∧
      ShareLocal a j x slot n dst es (limbScale (ringOfSession s j.part x) (scalarOf s a.die sc % ringOfSession s j.part x) (shareIn s a.die k)) s t := by
  have hgood : scalarBad s a.die [sc] = false := any_eq_false fun y hy => by
    simp only [List.contains_cons, List.contains_nil, Bool.or_false, beq_eq_false_iff_ne]
    exact fun heq => hclean (heq ▸ hy)
  obtain ⟨m, hrun⟩ := issueShr_run (late := fun _ _ => .pass) (poisoned := fun _ _ _ s => s) (go := fun j x slot n es s =>
    .done (startOp a.die (shareOp a j mask [k] dst (shareCost mask x.ring n 1)) es
      (putShare a.die dst (shareHead x slot n) (limbScale (ringOfSession s j.part x) (scalarOf s a.die sc % ringOfSession s j.part x) (shareIn s a.die k)) s)))
    h (by simp) rfl
  have hcount := count_frame a.die 2 m s
  rw [hcount.ringOfSession (by decide) (by decide), hcount.scalarOf (by decide), hcount.shareIn (by decide)] at hrun
  refine ⟨_, congrArg ok (runInstr_done h.ready ?_), shareLocal_of (mask := mask) [k] (shareCost mask x.ring n 1) m dst _⟩
  dsimp only
  rw [hbusy, hgood, if_neg (by decide), if_neg (by decide)]
  exact hrun

end Share

end Sys2Proof.Machine

namespace Sys2Proof.Machine

section Exchanges

variable {s u : State} {a : Site} {mask : BitVec 8} {j : Job} {x y : Session} {slot n : Nat} {es : List SbEntry}

/-- What an exchange asks for beside its operands (R155, R159, R161). -/
structure ExchReady (s : State) (a : Site) (j : Job) (x : Session) : Prop where
  party : x.self ≠ 3
  routes : ∀ i ∈ peersOf x, shareRoute s a.die (x.place i).1 = .send ∧ ((x.place i).1 ≠ s.fabric.partId → partRefused s j (x.place i).1 = .pass)
  early : ∀ m ∈ x.early, m.1.openSeq ≠ x.openSeq

theorem ExchReady.check (h : ExchReady s a j x) : exchCheck s a.die j x = .pass := by
  have hself : (x.self == 3) = false := by simpa using h.party
  rw [exchCheck, hself, partyCheck_pass fun i hi => (h.routes i hi).2, sendRefused_of_routes fun i hi => (h.routes i hi).1]
  rfl

/-- Before an exchange starts its session and its own result may have been written. -/
theorem ExchReady.frame (h : ExchReady s a j x) (hu : Frame [.dies, .counters, .parts, .free] s u) : ExchReady u a j x := by
  have hfabric : u.fabric = s.fabric := hu .fabric (by decide)
  refine ⟨h.party, fun i hi => ?_, h.early⟩
  rw [shareRoute_congr hfabric (hu .ports (by decide)) (hu .twin (by decide)), partRefused, epochMembers, hfabric]
  exact h.routes i hi

/-- Messages whose ways are open all leave, in order. -/
theorem sendAll {d : DieIx} {f : Nat → Nat → Nat → Output} (ps : List Nat) (u : State) (h : ∀ i ∈ ps, shareRoute u d (x.place i).1 = .send) :
    ps.foldl (fun s i => shareSend d x i (f i) s) u = { u with out := u.out ++ ps.map fun i => f i (x.place i).1 (x.place i).2 } := by
  induction ps generalizing u with
  | nil => simp
  | cons i ps ih =>
    have hsend : shareSend d x i (f i) u = emit (f i (x.place i).1 (x.place i).2) u := by rw [shareSend, h i (List.mem_cons_self ..)]
    have hways : ∀ k ∈ ps, shareRoute (emit (f i (x.place i).1 (x.place i).2) u) d (x.place k).1 = .send := fun k hk =>
      (shareRoute_congr rfl rfl rfl ..).trans (h k (List.mem_cons_of_mem _ hk))
    rw [List.foldl_cons, hsend, ih _ hways, List.map_cons]
    simp [emit]

/-- The message of an exchange to a peer. -/
def exchOut (j : Job) (x : Session) (m : Nat) (deal : Option Nat) (body : Nat → List Nat) (i : Nat) : Output :=
  .exchange (x.place i).1 (x.place i).2 (exMsg j x m x.openSeq deal (body i))

/-- An exchange has begun: its OPEN_SEQ is taken, its messages are out, and its operation waits (R158). -/
structure ExchBegun (a : Site) (j : Job) (x : Session) (slot : Nat) (es : List SbEntry) (mem : Mem) (msgs : List Output) (y : Session) (e : Exch)
    (s t : State) : Prop where
  scratch : (dieOf t a.die).scratch = mem
  rest : scratchRest (dieOf t a.die) = scratchRest (dieOf s a.die)
  flight : ∃ o, InFlight a j 1 es o s t ∧ o.exch = some e
  out : t.out = s.out ++ msgs
  session : sessionOf t j.part slot = some { y with openSeq := (x.openSeq + 1) % 2 ^ 32 }
  frame : Frame [.dies, .counters, .jobs, .nextId, .parts, .out, .free] s t

/-- A session once an exchange has taken its OPEN_SEQ. -/
def seqTaken (k : Nat) (y : Session) : Session := { y with openSeq := inc32 k, early := y.early.filter fun m => m.1.openSeq != k }

theorem updSession_poised (p : PartIx) (k : Nat) (f : Session → Session) (u : State) : Poised a j u (updSession p k f u) :=
  .of_frame (updSession_frame p k f u) (by decide) (by decide) (by decide)

theorem startExch_begun (hready : ExchReady s a j x) (hposed : Poised a j s u) (hframe : Frame [.dies, .counters, .parts, .free] s u)
    (hrest : scratchRest (dieOf u a.die) = scratchRest (dieOf s a.die)) (e : Exch) (hsession : sessionOf u j.part e.session = some y)
    (hearly : y.early = x.early) (o : Op) (hjob : o.job = j.id) (hqueue : o.queue = a.queue) (hoff : o.off = a.off) (hunit : o.unit = 1)
    (body : Nat → List Nat) :
    ExchBegun a j x e.session es (dieOf u a.die).scratch ((peersOf x).map (exchOut j x e.m e.dealSeq body)) y { e with openSeq := x.openSeq } s
      (startExch a j o e x body es u) := by
  have htake := updSession_frame j.part e.session (seqTaken x.openSeq) u
  have htaken : sessionOf (updSession j.part e.session (seqTaken x.openSeq) u) j.part e.session = some { y with openSeq := (x.openSeq + 1) % 2 ^ 32 } := by
    have hkeep : y.early.filter (fun m => m.1.openSeq != x.openSeq) = y.early := List.filter_eq_self.mpr fun m hm => by
      simpa using hready.early m (hearly ▸ hm)
    rw [sessionOf_updSession, hsession, Option.map_some, seqTaken, hkeep]
    rfl
  have hdie : dieOf (updSession j.part e.session (seqTaken x.openSeq) u) a.die = dieOf u a.die := rfl
  have hposed' : Poised a j s (updSession j.part e.session (seqTaken x.openSeq) u) := hposed.trans (updSession_poised ..)
  have hnone : (x.early.filter fun m => m.1.openSeq == x.openSeq) = [] := List.filter_eq_nil_iff.mpr fun m hm => by simpa using hready.early m hm
  have hstart := startOp_frame a.die { o with exch := some { e with openSeq := x.openSeq } } es (updSession j.part e.session (seqTaken x.openSeq) u)
  have hroutes : ∀ i ∈ peersOf x, shareRoute (startOp a.die { o with exch := some { e with openSeq := x.openSeq } } es
      (updSession j.part e.session (seqTaken x.openSeq) u)) a.die (x.place i).1 = .send := fun i hi => by
    have hall := (hframe.then htake).then hstart
    rw [shareRoute_congr (hall .fabric (by decide)) (hall .ports (by decide)) (hall .twin (by decide))]
    exact (hready.routes i hi).1
  have hrun : startExch a j o e x body es u = { startOp a.die { o with exch := some { e with openSeq := x.openSeq } } es
      (updSession j.part e.session (seqTaken x.openSeq) u) with
      out := (startOp a.die { o with exch := some { e with openSeq := x.openSeq } } es (updSession j.part e.session (seqTaken x.openSeq) u)).out ++
        (peersOf x).map (exchOut j x e.m e.dealSeq body) } := by
    rw [startExch, hnone, List.foldl_nil]
    exact sendAll (peersOf x) _ hroutes
  have hflight := hposed'.startOp (o := { o with exch := some { e with openSeq := x.openSeq } }) es hjob hqueue hoff
  have hframe' := (hframe.then htake).then hstart
  have hscratch := startOp_dieField a.die { o with exch := some { e with openSeq := x.openSeq } } es (updSession j.part e.session (seqTaken x.openSeq) u)
    Die.scratch fun _ _ _ => rfl
  have hrest' := startOp_dieField a.die { o with exch := some { e with openSeq := x.openSeq } } es (updSession j.part e.session (seqTaken x.openSeq) u)
    scratchRest fun _ _ _ => rfl
  have hkept := (hstart.sessionOf (by decide) j.part e.session).trans htaken
  rw [hrun]
  generalize startOp a.die { o with exch := some { e with openSeq := x.openSeq } } es (updSession j.part e.session (seqTaken x.openSeq) u) = v
    at hflight hframe' hscratch hrest' hkept ⊢
  have hemit : Frame [.out] v { v with out := v.out ++ (peersOf x).map (exchOut j x e.m e.dealSeq body) } := fields_frame
  obtain ⟨hop, hscoreboard, hnext, hothers, hjobs, hrests⟩ := hflight
  refine ⟨hscratch.trans (congrArg Die.scratch hdie), (hrest'.trans (congrArg scratchRest hdie)).trans hrest,
    ⟨_, ⟨⟨hop.1, rfl, hunit, hjob, hqueue, hoff⟩, hscoreboard, hnext, hothers, hjobs, hrests⟩, rfl⟩,
    congrArg (· ++ (peersOf x).map (exchOut j x e.m e.dealSeq body)) (hframe' .out (by decide)), hkept,
    (Frame.then hframe' hemit).mono (by decide)⟩

end Exchanges

end Sys2Proof.Machine

namespace Sys2Proof.Machine

section Exchanges

variable {s : State} {a : Site} {mask : BitVec 8} {j : Job} {x : Session} {slot n : Nat} {es : List SbEntry}

/-- What SHR_OPEN and SECAGG begin (R152). -/
def openExch (j : Job) (slot n dst openSeq : Nat) (own : List Nat) : Exch :=
  { part := j.part, session := slot, kind := .opening, openSeq := openSeq, dealSeq := none, m := 2 ^ n, got := [], own := own, triple := ([], [], [])
    dst := dst, recv := [] }

/-- The part's share of what is opened: the sum of the sources' shares (R152). -/
def shareSum (s : State) (d : DieIx) (q h : Nat) (hs : List Nat) : List Nat := hs.foldl (fun acc k => limbAdd q acc (shareIn s d k)) (shareIn s d h)

theorem count_exchReady (h : ExchReady s a j x) (m : Nat) : ExchReady (count a.die 2 m s) a j x := h.frame ((count_frame a.die 2 m s).mono (by decide))

/-- SHR_OPEN and SECAGG open the sum of their sources (R152). -/
theorem issueOpen_begun {h dst : Nat} {hs : List Nat} (hready : ShrReady s a mask j (h :: hs) [] [] [dst] x slot n es) (hexch : ExchReady s a j x)
    (hlen : hs.length < 16) : ∃ t, issueOpen a mask (h :: hs) dst j s = .done t ∧
      ExchBegun a j x slot es (dieOf s a.die).scratch ((peersOf x).map (exchOut j x (2 ^ n) none fun _ => shareSum s a.die (ringOfSession s j.part x) h hs)) x
        (openExch j slot n dst x.openSeq (shareSum s a.die (ringOfSession s j.part x) h hs)) s t := by
  obtain ⟨m, hrun⟩ := issueShr_run (late := fun x _ => exchCheck s a.die j x) (poisoned := fun x slot n s => abortExch a j none x slot n s)
    (go := fun j x slot n es s => .done (startExch a j
      (shareOp a j mask (h :: hs) dst (shareCost mask x.ring n (2 * ((h :: hs).length - 1) + (x.parties - 1))))
      (openExch j slot n dst 0 (shareSum s a.die (ringOfSession s j.part x) h hs)) x
      (fun _ => shareSum s a.die (ringOfSession s j.part x) h hs) es s)) hready (by simp) hexch.check
  have hcount := count_frame a.die 2 m s
  have hsum : shareSum (count a.die 2 m s) a.die (ringOfSession (count a.die 2 m s) j.part x) h hs = shareSum s a.die (ringOfSession s j.part x) h hs := by
    simp only [shareSum, hcount.shareIn (by decide), hcount.ringOfSession (by decide) (by decide)]
  have hshort : ((h :: hs).isEmpty || decide (16 < (h :: hs).length)) = false := by
    simp only [List.isEmpty_cons, List.length_cons, Bool.false_or, decide_eq_false_iff_not]
    omega
  rw [hsum] at hrun
  have hscratch : (dieOf (count a.die 2 m s) a.die).scratch = (dieOf s a.die).scratch := hcount.scratch (by decide) _
  have hbegun := startExch_begun (es := es) hexch (Poised.count a.die 2 m s) (hcount.mono (by decide)) (hcount.dieField (by decide) scratchRest (fun _ => rfl) _)
    (openExch j slot n dst 0 (shareSum s a.die (ringOfSession s j.part x) h hs)) ((hcount.sessionOf (by decide) ..).trans hready.session) rfl
    (shareOp a j mask (h :: hs) dst (shareCost mask x.ring n (2 * ((h :: hs).length - 1) + (x.parties - 1)))) rfl rfl rfl rfl
    (fun _ => shareSum s a.die (ringOfSession s j.part x) h hs)
  rw [hscratch] at hbegun
  refine ⟨_, ?_, hbegun⟩
  rw [issueOpen]
  dsimp only
  rw [hshort, if_neg (by decide)]
  exact hrun

/-! #### BEAVER_MUL (R155, R156) -/

/-- A session's early messages stay where triples enter its pool. -/
theorem appendDeals_early (f : Nat) (y : Session) : (appendDeals f y).early = y.early := by
  induction f generalizing y with
  | zero => rfl
  | succ f ih =>
    rw [appendDeals]
    split
    · rfl
    · split
      · rfl
      · rw [ih]

/-- What BEAVER_MUL opens: each factor less a triple's (R155). -/
def beaverOwn (s : State) (d : DieIx) (q h k : Nat) (ts : List (Nat × Nat × Nat)) : List Nat :=
  limbSub q (shareIn s d h) (ts.map (·.1)) ++ limbSub q (shareIn s d k) (ts.map (·.2.1))

/-- What BEAVER_MUL begins (R155). -/
def beaverExch (j : Job) (slot n dst openSeq consumed : Nat) (own : List Nat) (ts : List (Nat × Nat × Nat)) : Exch :=
  { part := j.part, session := slot, kind := .beaver, openSeq := openSeq, dealSeq := some consumed, m := 2 ^ n, got := [], own := own
    triple := (ts.map (·.1), ts.map (·.2.1), ts.map (·.2.2)), dst := dst, recv := [] }

/-- BEAVER_MUL uses up 2^n triples and opens both factors less them (R155). -/
theorem issueBeaver_begun {h k dst : Nat} (hready : ShrReady s a mask j [h, k] [] [dst] [] x slot n es) (hexch : ExchReady s a j x)
    (hcap : 2 ^ n ≤ x.cap) (hpool : 2 ^ n ≤ x.pool.length) : ∃ t, issueBeaver a mask h k dst j s = .done t ∧
      ExchBegun a j x slot es (dieOf s a.die).scratch
        ((peersOf x).map (exchOut j x (2 ^ n) (some x.consumed) fun _ => beaverOwn s a.die (ringOfSession s j.part x) h k (x.pool.take (2 ^ n))))
        (takeTriples (2 ^ n) x)
        (beaverExch j slot n dst x.openSeq x.consumed (beaverOwn s a.die (ringOfSession s j.part x) h k (x.pool.take (2 ^ n))) (x.pool.take (2 ^ n))) s t := by
  have hlate : firstFail [failIf (decide (x.cap < 2 ^ n)) (.refuse 0x0105 0x0105), exchCheck s a.die j x] = .pass := by
    rw [decide_eq_false (Nat.not_lt.mpr hcap), hexch.check]
    rfl
  obtain ⟨m, hrun⟩ := issueShr_run (late := fun x n => firstFail [failIf (decide (x.cap < 2 ^ n)) (.refuse 0x0105 0x0105), exchCheck s a.die j x])
    (poisoned := fun x slot n s => abortExch a j (some x.consumed) x slot n s)
    (go := fun j x slot n es s => if x.pool.length < 2 ^ n then
        .wait (.triples slot (2 ^ n)) (ShrOp.ranges ⟨mask, [h, k], [], [dst], []⟩ s a.die)
      else .done (startExch a j (shareOp a j mask [h, k] dst (shareCost mask x.ring n 9))
        (beaverExch j slot n dst 0 x.consumed (beaverOwn s a.die (ringOfSession s j.part x) h k (x.pool.take (2 ^ n))) (x.pool.take (2 ^ n))) x
        (fun _ => beaverOwn s a.die (ringOfSession s j.part x) h k (x.pool.take (2 ^ n))) es (updSession j.part slot (takeTriples (2 ^ n)) s)))
    hready (by simp) hlate
  have hcount := count_frame a.die 2 m s
  have hown : beaverOwn (count a.die 2 m s) a.die (ringOfSession (count a.die 2 m s) j.part x) h k (x.pool.take (2 ^ n)) =
      beaverOwn s a.die (ringOfSession s j.part x) h k (x.pool.take (2 ^ n)) := by
    simp only [beaverOwn, hcount.shareIn (by decide), hcount.ringOfSession (by decide) (by decide)]
  rw [if_neg (Nat.not_lt.mpr hpool), hown] at hrun
  have hupd := updSession_frame j.part slot (takeTriples (2 ^ n)) (count a.die 2 m s)
  have hposed : Poised a j s (updSession j.part slot (takeTriples (2 ^ n)) (count a.die 2 m s)) := (Poised.count ..).trans (updSession_poised ..)
  have hframe := Frame.then hcount hupd
  have hsession : sessionOf (updSession j.part slot (takeTriples (2 ^ n)) (count a.die 2 m s)) j.part slot = some (takeTriples (2 ^ n) x) := by
    rw [sessionOf_updSession, hcount.sessionOf (by decide), hready.session, Option.map_some]
  have hscratch : (dieOf (updSession j.part slot (takeTriples (2 ^ n)) (count a.die 2 m s)) a.die).scratch = (dieOf s a.die).scratch :=
    hframe.scratch (by decide) _
  have hbegun := startExch_begun (es := es) hexch hposed (hframe.mono (by decide)) (hframe.dieField (by decide) scratchRest (fun _ => rfl) _)
    (beaverExch j slot n dst 0 x.consumed (beaverOwn s a.die (ringOfSession s j.part x) h k (x.pool.take (2 ^ n))) (x.pool.take (2 ^ n)))
    hsession (appendDeals_early ..) (shareOp a j mask [h, k] dst (shareCost mask x.ring n 9)) rfl rfl rfl rfl
    (fun _ => beaverOwn s a.die (ringOfSession s j.part x) h k (x.pool.take (2 ^ n)))
  rw [hscratch] at hbegun
  exact ⟨_, hrun, hbegun⟩

/-! #### SHR_SPLIT (R152 to R154) -/

/-- What SHR_SPLIT begins (R154). -/
def splitExch (j : Job) (slot n dst openSeq : Nat) (own : List Nat) (recv : List Nat) : Exch :=
  { part := j.part, session := slot, kind := .split, openSeq := openSeq, dealSeq := none, m := 2 ^ n, got := [], own := own, triple := ([], [], [])
    dst := dst, recv := recv }

/-- The operation of SHR_SPLIT. -/
def splitOp (a : Site) (j : Job) (mask : BitVec 8) (x : Session) (n clear dst : Nat) (recv : List Nat) : Op :=
  { opZero 0 j.id a.queue a.off 1 with
    dests := ShrOp.dests ⟨mask, [], [clear], dst :: recv, []⟩ a.die, srcs := [.handle a.die clear], clusters := mask
    cost := shareCost mask x.ring n (2 * (peersOf x).length) + ceilDiv (9 * (peersOf x).length * shareRows x.ring n) 2 }

/-- The share that a part keeps of what it splits (R154). -/
def splitOwn (s : State) (d : DieIx) (q clear n : Nat) (rs : List (List Nat)) : List Nat :=
  rs.foldl (fun acc r => limbSub q acc r) (clearIn s d clear (2 ^ n) q)

/-- What each peer receives of the drawn masks. -/
def splitBody (x : Session) (rs : List (List Nat)) (i : Nat) : List Nat := rs.getD ((peersOf x).findIdx (· == i)) []

/-- Each peer receives the mask at its place in ascending party order. -/
theorem splitBody_outs (rs : List (List Nat)) (hlen : rs.length = (peersOf x).length) (m : Nat) :
    (peersOf x).map (exchOut j x m none (splitBody x rs)) =
      ((peersOf x).zip rs).map fun y => .exchange (x.place y.1).1 (x.place y.1).2 (exMsg j x m x.openSeq none y.2) := by
  have hnodup : (peersOf x).Nodup := List.nodup_range.filter _
  refine List.ext_getElem (by simp [hlen]) fun i hi hi' => ?_
  rw [List.length_map] at hi
  have hfind : (peersOf x).findIdx (· == (peersOf x)[i]) = i := hnodup.idxOf_getElem i hi
  have hmask : i < rs.length := hlen ▸ hi
  rw [List.getElem_map, List.getElem_map, List.getElem_zip, exchOut, splitBody, hfind, List.getD_eq_getElem _ _ hmask]

/-- SHR_SPLIT keeps what its drawn masks leave and sends each peer its mask (R154). -/
theorem issueSplit_begun {clear dst : Nat} {recv : List Nat} (hready : ShrReady s a mask j [] [clear] (dst :: recv) [] x slot n es)
    (hexch : ExchReady s a j x) (hn : 12 ≤ n ∧ n ≤ 17) (hrecv : recv.length = (peersOf x).length) :
    ∃ rs : List (List Nat), rs.length = (peersOf x).length ∧ (∀ r ∈ rs, r.length = 2 ^ n) ∧
      ∃ t, issueSplit a mask slot n clear dst recv j s = .done t ∧
        ExchBegun a j x slot es (memPut (dieOf s a.die).scratch ((handleOf s a.die dst).base * 288)
          (shareObject x slot n (splitOwn s a.die (ringOfSession s j.part x) clear n rs)))
          (((peersOf x).zip rs).map fun y => .exchange (x.place y.1).1 (x.place y.1).2 (exMsg j x (2 ^ n) x.openSeq none y.2)) x
          (splitExch j slot n dst x.openSeq (splitOwn s a.die (ringOfSession s j.part x) clear n rs) recv) s t := by
  obtain ⟨m, hadmit⟩ := hready.admitted
  have hcount := count_frame a.die 2 m s
  have hgo : (Verdict.pass != Verdict.pass) = false := by decide
  have hwidth : (!decide (12 ≤ n ∧ n ≤ 17)) = false := by rw [decide_eq_true hn]; rfl
  have hmasks : (recv.length != (peersOf x).length) = false := by simp [hrecv]
  have hchain : (x.ring == 1 && (chainOf (count a.die 2 m s) j.part x.chainId).isNone) = false := by
    rw [hcount.chainOf (by decide)]
    cases hring : (x.ring == 1) with
    | false => rfl
    | true => rw [← Option.not_isSome, hready.chain (by simpa using hring)]; rfl
  have hq : ringOfSession (count a.die 2 m s) j.part x = ringOfSession s j.part x := hcount.ringOfSession (by decide) (by decide) ..
  obtain ⟨rs, hlen, hall, hdraw⟩ := drawVecs_drawn (ringOfSession s j.part x) (2 ^ n) (peersOf x).length (count a.die 2 m s)
  have hfree : Frame [.counters, .free] s { count a.die 2 m s with free := (count a.die 2 m s).free + (peersOf x).length } :=
    (Frame.then hcount (ws := [.counters]) (vs := [.free]) fields_frame).mono (by decide)
  have hown : clearIn { count a.die 2 m s with free := (count a.die 2 m s).free + (peersOf x).length } a.die clear (2 ^ n) (ringOfSession s j.part x) =
      clearIn s a.die clear (2 ^ n) (ringOfSession s j.part x) := hfree.clearIn (by decide) ..
  have hposed : Poised a j s { count a.die 2 m s with free := (count a.die 2 m s).free + (peersOf x).length } :=
    .of_frame hfree (by decide) (by decide) (by decide)
  have hpass : firstFail [.pass, failIf false (.refuse 0x0102 0x0102), firstFail [failIf (recv.length != (peersOf x).length) (.refuse 0x0102 0x0102),
      failIf (x.ring == 1 && (chainOf (count a.die 2 m s) j.part x.chainId).isNone) (.refuse 0x0202 0x0202),
      ShrOp.fits ⟨mask, [], [clear], dst :: recv, []⟩ (count a.die 2 m s) a.die x.ring n, exchCheck (count a.die 2 m s) a.die j x]] = .pass := by
    rw [hmasks, hchain, hready.fit hcount, (count_exchReady hexch m).check]
    rfl
  have hrun : issueSplit a mask slot n clear dst recv j s = .done (startExch a j (splitOp a j mask x n clear dst recv)
      (splitExch j slot n dst 0 (splitOwn s a.die (ringOfSession s j.part x) clear n rs) recv) x (splitBody x rs) es
      (putShare a.die dst (shareHead x slot n) (splitOwn s a.die (ringOfSession s j.part x) clear n rs)
        { count a.die 2 m s with free := (count a.die 2 m s).free + (peersOf x).length })) := by
    rw [issueSplit]
    dsimp only
    rw [hready.pre, hgo, if_neg (by decide), ShrOp.ranges, withScoreboard_admitted hready.ready.fresh hadmit, hready.poison hcount, hwidth,
      hcount.sessionOf (by decide), hready.session]
    dsimp only
    rw [hpass, hgo, if_neg (by decide), hq, hdraw]
    dsimp only
    rw [hown]
    rfl
  generalize { count a.die 2 m s with free := (count a.die 2 m s).free + (peersOf x).length } = u at hfree hposed hrun
  have hwrite := putShare_written (x := x) (slot := slot) (n := n) a.die dst (splitOwn s a.die (ringOfSession s j.part x) clear n rs) u
  have hbegun := startExch_begun (es := es) hexch (hposed.trans hwrite.lands.poised) ((Frame.then hfree hwrite.lands.frame).mono (by decide))
    ((hwrite.field scratchRest fun _ => rfl).trans (hfree.dieField (by decide) scratchRest (fun _ => rfl) _))
    (splitExch j slot n dst 0 (splitOwn s a.die (ringOfSession s j.part x) clear n rs) recv)
    (((hwrite.lands.frame.sessionOf (by decide) ..).trans (hfree.sessionOf (by decide) ..)).trans hready.session) rfl
    (splitOp a j mask x n clear dst recv) rfl rfl rfl rfl (splitBody x rs)
  rw [putShare_scratch, hfree.scratch (by decide), hfree.handleOf (by decide)] at hbegun
  exact ⟨rs, hlen, hall, _, hrun, splitBody_outs (j := j) rs hlen (2 ^ n) ▸ hbegun⟩

end Exchanges

/-- What an exchange of the statement leaves. -/
theorem ExchBegun.parts {a : Site} {j : Job} {x y : Session} {slot : Nat} {es : List SbEntry} {mem : Mem} {msgs : List Output} {e : Exch} {s t : State}
    (h : ExchBegun a j x slot es mem msgs y e s t) : (dieOf t a.die).scratch = mem ∧ scratchRest (dieOf t a.die) = scratchRest (dieOf s a.die) ∧
      (∃ o, InFlight a j 1 es o s t ∧ o.exch = some e) ∧ t.out = s.out ++ msgs ∧
      sessionOf t j.part slot = some { y with openSeq := (x.openSeq + 1) % 2 ^ 32 } ∧
      Frame [.dies, .counters, .jobs, .nextId, .parts, .out, .free] s t :=
  ⟨h.scratch, h.rest, h.flight, h.out, h.session, h.frame⟩

/-- Settles O24: a local operation is its checks, one share object written and its operation started; an exchange also takes the
session's OPEN_SEQ and sends each peer its message, with no early message to meet. -/
theorem shareOperations : Obligations.ShareOperations := by
  unfold Obligations.ShareOperations
  refine ⟨fun s a mask j x slot n dst es => ⟨fun h k hready => ⟨?_, ?_⟩, fun h hready => ⟨?_, fun sc hbusy hclean => ?_⟩, fun h k hready => ?_⟩,
    fun s a mask j x slot n dst es hparty hroutes hearly => ⟨fun h hready => ?_, fun h hs hlen hready => ?_, fun h k hready hcap hpool => ?_,
      fun clear recv hready hlow hhigh hrecv => ?_⟩⟩
  · have hdone := shrLocal_done hready (by simp) (.shrAdd a mask h k dst) 2 (f := fun s _ q _ => limbAdd q (shareIn s a.die h) (shareIn s a.die k))
      fun m q => by simp only [(count_frame a.die 2 m s).shareIn (by decide)]
    exact ⟨_, rfl, hdone.scratch, hdone.rest, hdone.flight, hdone.frame⟩
  · have hdone := shrLocal_done hready (by simp) (.shrSub a mask h k dst) 2 (f := fun s _ q _ => limbSub q (shareIn s a.die h) (shareIn s a.die k))
      fun m q => by simp only [(count_frame a.die 2 m s).shareIn (by decide)]
    exact ⟨_, rfl, hdone.scratch, hdone.rest, hdone.flight, hdone.frame⟩
  · have hdone := shrLocal_done hready (by simp) (.shrNeg a mask h dst) 1 (f := fun s _ q _ => limbNeg q (shareIn s a.die h))
      fun m q => by simp only [(count_frame a.die 2 m s).shareIn (by decide)]
    exact ⟨_, rfl, hdone.scratch, hdone.rest, hdone.flight, hdone.frame⟩
  · obtain ⟨t, hexec, hdone⟩ := shrSmul_done hready hbusy hclean
    exact ⟨t, hexec, hdone.scratch, hdone.rest, hdone.flight, hdone.frame⟩
  · have hdone := shrLocal_done hready (by simp) (.shrCadd a mask h k dst) 2 (f := fun s x q n =>
      if x.self = 0 then limbAdd q (shareIn s a.die h) (clearIn s a.die k (2 ^ n) q) else shareIn s a.die h)
      fun m q => by simp only [(count_frame a.die 2 m s).shareIn (by decide), (count_frame a.die 2 m s).clearIn (by decide)]
    exact ⟨_, rfl, hdone.scratch, hdone.rest, hdone.flight, hdone.frame⟩
  · obtain ⟨t, hissue, hbegun⟩ := issueOpen_begun hready ⟨hparty, hroutes, hearly⟩ (by decide)
    exact ⟨t, congrArg ok (runInstr_done hready.ready hissue), hbegun.parts⟩
  · obtain ⟨t, hissue, hbegun⟩ := issueOpen_begun hready ⟨hparty, hroutes, hearly⟩ hlen
    exact ⟨t, congrArg ok (runInstr_done hready.ready hissue), hbegun.parts⟩
  · obtain ⟨t, hissue, hbegun⟩ := issueBeaver_begun hready ⟨hparty, hroutes, hearly⟩ hcap hpool
    exact ⟨t, congrArg ok (runInstr_done hready.ready hissue), hbegun.parts⟩
  · obtain ⟨rs, hlength, hwidth, t, hissue, hbegun⟩ := issueSplit_begun hready ⟨hparty, hroutes, hearly⟩ ⟨hlow, hhigh⟩ hrecv
    exact ⟨rs, hlength, hwidth, t, congrArg ok (runInstr_done hready.ready hissue), hbegun.parts⟩

end Sys2Proof.Machine
